-- ==== Sys2Proof/Word.lean ====
section
/-!
DEFINITION. The word types of the AQ6412 and the ranges of its identifiers (Table 0-6 of 00_scope.md,
Table 1-2 of 01_architecture.md).
-/
namespace Sys2Proof

/-- One byte (R6: every multi-byte field is little-endian). -/
abbrev Byte := BitVec 8
/-- A 32-bit register (R8; a Sage register, R209). -/
abbrev Word := BitVec 32
/-- A Sage core, numbered 9 × cluster + unit (Table 0-4). -/
abbrev CoreId := Fin 108
/-- An engine, numbered 15 × group + unit (Table 1-4). -/
abbrev EngId := Fin 120
/-- A Sage cluster C00–C11. -/
abbrev ClusterId := Fin 12
/-- An engine group G00–G07. -/
abbrev GroupId := Fin 8
/-- A tenant, and the host function that serves it (R19, R617). -/
abbrev TenantId := Fin 512
/-- A carrier instance. -/
abbrev CiId := Fin 512
/-- An antenna-carrier stream. -/
abbrev AxcId := Fin 1024
/-- A fronthaul port P00–P63. -/
abbrev PortId := Fin 64
/-- A serial lane 0–63. -/
abbrev LaneId := Fin 64
/-- A timing reference REF0–REF7. -/
abbrev RefId := Fin 8
/-- A DRAM channel DM0–DM7. -/
abbrev ChanId := Fin 8
/-- A MAR, in groups G01, G03, G05 and G07 (R347). -/
abbrev MarId := Fin 4
/-- A queue pair of a host function (R624). -/
abbrev QpId := Fin 16
/-- A power domain 0–49 (Table 17-1). -/
abbrev DomId := Fin 50
/-- A thermal sensor (R604). -/
abbrev SensorId := Fin 64
/-- A quadrant, and the placement unit of the same number (R27). -/
abbrev QuadId := Fin 4
/-- A router NX00–NX63 (R541). -/
abbrev RouterId := Fin 64

end Sys2Proof
end

