-- ==== Sys2Proof/Machine/Outside.lean ====
section
/-!
DEFINITION. What the outside of the device brings with a command: the findings of analogue circuits, of the line codes and of the
air, which the device then acts on (log 4).
-/
namespace Sys2Proof.Machine

/-- What the line code found in a read (R480): nothing; errors of one device; more. -/
inductive LineCheck where
  | ok
  | corrected (device : Nat)
  | uncorrectable (devices syndrome : Nat)
deriving DecidableEq, Repr

/-- What a re-centring found: the levels and eyes, or an axis without a passing point. -/
structure EyeResult where
  pass : Bool
  rdVref : Nat
  wrVref : Nat
  rdEye : Nat
  wrEye : Nat
deriving DecidableEq, Repr

/-- Device wake sources, coded as TO of Table 17-14. -/
inductive WakeSource where
  | wakeN | stcAlarm | canRx | perstN | vaon | jtag
deriving DecidableEq, Repr

/-- How a non-posted request failed (R631). -/
inductive ReadFail where
  | unsupported | abort | poisoned | timeout | denied
deriving DecidableEq, Repr

/-- What ends a condition that holds messages back (R630): a vector's mask, the function's MSI-X Enable or Function Mask. -/
inductive MsixCond where
  | vector (v : Fin 32)
  | enable
  | functionMask
deriving DecidableEq, Repr

/-- Configuration writes without a row of their own (R612, R613, R616, R617, R630, R631, R635): VF Enable set, NumVFs while it is clear,
ATS Enable, 10-Bit Tag and Extended Tag enables, the completion timeout value, the codes of Max_Payload_Size and
Max_Read_Request_Size, MSI-X Enable cleared, Function Mask set, the HDM decoders' enable. -/
inductive CfgWrite where
  | vfEnable
  | numVfs (n : Fin 512)
  | ats (on : Bool)
  | tag10 (on : Bool)
  | tagExt (on : Bool)
  | timeout (v : BitVec 4)
  | payload (code : Fin 3)
  | readRequest (code : Fin 6)
  | msixOff
  | functionMask
  | hdm (on : Bool)
deriving DecidableEq, Repr

/-- How a conventional reset came (R634). -/
inductive ConvReset where
  | perst | hot | linkDown
deriving DecidableEq, Repr

/-- How a PDP message arrives (R653, R656): in a CAN frame with its identifier, FD or classical; in a UDP datagram from an address of 16 B
and a port. -/
inductive PdpVia where
  | can (id : BitVec 11) (fd : Bool)
  | udp (peer : BitVec 144)
deriving DecidableEq, Repr

/-- The answer to a host read: its data, or a failure. -/
inductive ReadAnswer where
  | data (l : List Byte)
  | unsupported | abort | poisoned
deriving DecidableEq, Repr

/-- A class E candidate at the end of an occasion (R359, R360): its index, energy ratio and qualifier metric in 1/256 dB, frequency
in Hz, time of arrival in Tc, powers, and the samples of a PUR. -/
structure Cand where
  idx : Nat
  ratio : Int
  metric : Int
  cfo : Int
  toa : Int
  rssi : Nat
  snr : Nat
  samples : List Byte
deriving DecidableEq, Repr

end Sys2Proof.Machine
end

