-- ==== Sys2Proof/Syntax.lean ====
section
/-!
DEFINITION. The commands of the block: one constructor for each row of spec/opcode_table.json, with what the row takes from outside (log 4).
Each docstring gives the row and the rule of spec/ that describes it.
-/
namespace Sys2Proof

inductive Instr where
  /-- SUBMIT (R71). -/
  | submit (fn : TenantId) (qp : QpId)
  /-- CANCEL (R80). -/
  | cancel (fn : TenantId) (qp : QpId)
  /-- RELEASE_CARRY (R48). -/
  | releaseCarry (fn : TenantId) (qp : QpId)
  /-- SQ_TAIL (R626). -/
  | sqTail (fn : TenantId) (qp : QpId) (be : BitVec 4) (v : Word)
  /-- CQ_HEAD (R626). -/
  | cqHead (fn : TenantId) (qp : QpId) (be : BitVec 4) (v : Word)
  /-- SUBMISSION_FETCH (R85). -/
  | submissionFetch (fn : TenantId) (qp : QpId)
  /-- GRAPH_FETCH_DONE (R81). -/
  | graphFetchDone (gid : Nat)
  /-- PLACEMENT_START (R159). -/
  | placementStart (pu : QuadId)
  /-- PLACEMENT_COMMIT (R86). -/
  | placementCommit (pu : QuadId)
  /-- EXCLUSIVE_TOKEN_GRANT (R86). -/
  | exclusiveTokenGrant
  /-- PLACEMENT_VOTE_ONSET (R591). -/
  | placementVoteOnset
  /-- ROLE_CHANGE (R125). -/
  | roleChange (u : Fin 228)
  /-- UNIT_FENCE (R129). -/
  | unitFence (u : Fin 228)
  /-- TEMPLATES_ENABLE (R131). -/
  | templatesEnable (v : Byte)
  /-- TEMPLATE_SLOTS (R131). -/
  | templateSlots (v : Byte)
  /-- JOB_DISPATCH (R127). -/
  | jobDispatch (u : Fin 240)
  /-- SAGE_JOB (R207). -/
  | sageJob (core : CoreId)
  /-- COPY (R151). -/
  | copy (c : ClusterId)
  /-- LDPC_DECODE (R294). -/
  | ldpcDecode (e : EngId)
  /-- LDPC_ENCODE (R297). -/
  | ldpcEncode (e : EngId)
  /-- POLAR_DECODE (R299). -/
  | polarDecode (e : EngId)
  /-- TURBO_DECODE (R301). -/
  | turboDecode (e : EngId)
  /-- TURBO_ENCODE (R302). -/
  | turboEncode (e : EngId)
  /-- CONVOLUTIONAL_DECODE (R303). -/
  | convolutionalDecode (e : EngId)
  /-- HARQ_COMBINE (R311). -/
  | harqCombine (e : EngId)
  /-- FFT (R325). -/
  | fft (e : EngId)
  /-- IFFT (R325). -/
  | ifft (e : EngId)
  /-- PRACH_EXTRACT (R329). -/
  | prachExtract (e : EngId)
  /-- CHANNEL_ESTIMATE (R332). -/
  | channelEstimate (e : EngId)
  /-- EQUALISE (R338). -/
  | equalise (e : EngId)
  /-- BEAM_WEIGHTS (R342). -/
  | beamWeights (e : EngId)
  /-- COLLECT (R377). -/
  | collect (m : MarId)
  /-- UPDATE (R379). -/
  | update (m : MarId)
  /-- CHUNK_END (R150). -/
  | chunkEnd (e : EngId)
  /-- CANCEL_REQUEST (R152). -/
  | cancelRequest (u : Fin 240) (blocks : Nat)
  /-- COMPLETION_MESSAGE (R154). -/
  | completionMessage (n : Nat)
  /-- HELD_READY_RELEASE (R138). -/
  | heldReadyRelease (q : QuadId)
  /-- LEVEL_TICK (R143). -/
  | levelTick
  /-- ID_QUARANTINE_EXPIRY (R161). -/
  | idQuarantineExpiry
  /-- GENERATION_BAR_EXPIRY (R161). -/
  | generationBarExpiry
  /-- WATCHDOG (R163). -/
  | watchdog (gid : Nat) (num : Nat)
  /-- BUDGET_WINDOW (R182). -/
  | budgetWindow
  /-- TENANT_ENABLE (R177). -/
  | tenantEnable (t : TenantId)
  /-- TENANT_DISABLE (R177). -/
  | tenantDisable (t : TenantId)
  /-- CI_ASSIGN (R178). -/
  | ciAssign (t : TenantId) (c : BitVec 16)
  /-- CI_REMOVE (R178). -/
  | ciRemove (t : TenantId) (c : BitVec 16)
  /-- BUDGET_WRITE (R186). -/
  | budgetWrite (t : TenantId) (k : Fin 18) (v : BitVec 64)
  /-- FLOW_LIMIT (R188). -/
  | flowLimit (t : TenantId) (v : BitVec 16)
  /-- TENANT_MODE (R202). -/
  | tenantMode (t : TenantId) (pin : Bool) (v : Byte)
  /-- DEDICATE (R190). -/
  | dedicate (t : TenantId) (loc : BitVec 64) (ci : BitVec 16)
  /-- RELEASE_UNIT (R190). -/
  | releaseUnit (t : TenantId) (loc : BitVec 64)
  /-- ENTRY_WRITE (R206). -/
  | entryWrite (e : BitVec 512)
  /-- PROGRAM_IMAGE_LOAD (R206). -/
  | programImageLoad (u : CoreId)
  /-- MAINT_REQUEST (R266). -/
  | maintRequest (c : ClusterId) (v : Byte)
  /-- MAINT_TASK_END (R265). -/
  | maintTaskEnd (u : CoreId) (pass : Bool)
  /-- SLICE_OVERRUN (R237). -/
  | sliceOverrun (core : CoreId)
  /-- CMC_HOLD_REVOKE (R276). -/
  | cmcHoldRevoke (cl : ClusterId)
  /-- CMC_RESERVE_LAPSE (R273). -/
  | cmcReserveLapse (cl : ClusterId)
  /-- VECTOR_GATE (R267). -/
  | vectorGate (core : CoreId)
  /-- XFER_DONE (R234). -/
  | xferDone (core : CoreId)
  /-- NOP (R235). -/
  | nop (core : CoreId) (w : Word)
  /-- YIELD (R236). -/
  | yield (core : CoreId) (w : Word)
  /-- END (R235). -/
  | sageEnd (core : CoreId) (w : Word)
  /-- XWAIT (R234). -/
  | xwait (core : CoreId) (w : Word)
  /-- XTEST (R234). -/
  | xtest (core : CoreId) (w : Word)
  /-- XWAITALL (R234). -/
  | xwaitall (core : CoreId) (w : Word)
  /-- XFER (R233). -/
  | xfer (core : CoreId) (w : Word)
  /-- ADD (R219). -/
  | add (core : CoreId) (w : Word)
  /-- SUB (R219). -/
  | sub (core : CoreId) (w : Word)
  /-- ADDS (R219). -/
  | adds (core : CoreId) (w : Word)
  /-- SUBS (R219). -/
  | subs (core : CoreId) (w : Word)
  /-- AND (R219). -/
  | and (core : CoreId) (w : Word)
  /-- OR (R219). -/
  | or (core : CoreId) (w : Word)
  /-- XOR (R219). -/
  | xor (core : CoreId) (w : Word)
  /-- ANDN (R219). -/
  | andn (core : CoreId) (w : Word)
  /-- NEG (R219). -/
  | neg (core : CoreId) (w : Word)
  /-- NEGS (R219). -/
  | negs (core : CoreId) (w : Word)
  /-- ABS (R219). -/
  | abs (core : CoreId) (w : Word)
  /-- ABSS (R219). -/
  | abss (core : CoreId) (w : Word)
  /-- CLZ (R219). -/
  | clz (core : CoreId) (w : Word)
  /-- CLS (R219). -/
  | cls (core : CoreId) (w : Word)
  /-- ADDI (R219). -/
  | addi (core : CoreId) (w : Word)
  /-- ANDI (R219). -/
  | andi (core : CoreId) (w : Word)
  /-- ORI (R219). -/
  | ori (core : CoreId) (w : Word)
  /-- XORI (R219). -/
  | xori (core : CoreId) (w : Word)
  /-- SLTI (R219). -/
  | slti (core : CoreId) (w : Word)
  /-- SLTIU (R219). -/
  | sltiu (core : CoreId) (w : Word)
  /-- ADDSI (R219). -/
  | addsi (core : CoreId) (w : Word)
  /-- LUI (R219). -/
  | lui (core : CoreId) (w : Word)
  /-- SLL (R219). -/
  | sll (core : CoreId) (w : Word)
  /-- SRL (R219). -/
  | srl (core : CoreId) (w : Word)
  /-- SRA (R219). -/
  | sra (core : CoreId) (w : Word)
  /-- ROR (R219). -/
  | ror (core : CoreId) (w : Word)
  /-- SLLS (R219). -/
  | slls (core : CoreId) (w : Word)
  /-- SLLI (R219). -/
  | slli (core : CoreId) (w : Word)
  /-- SRLI (R219). -/
  | srli (core : CoreId) (w : Word)
  /-- SRAI (R219). -/
  | srai (core : CoreId) (w : Word)
  /-- RORI (R219). -/
  | rori (core : CoreId) (w : Word)
  /-- SLLSI (R219). -/
  | sllsi (core : CoreId) (w : Word)
  /-- EXTU (R219). -/
  | extu (core : CoreId) (w : Word)
  /-- EXTS (R219). -/
  | exts (core : CoreId) (w : Word)
  /-- INS (R219). -/
  | ins (core : CoreId) (w : Word)
  /-- SEQ (R220). -/
  | seq (core : CoreId) (w : Word)
  /-- SNE (R220). -/
  | sne (core : CoreId) (w : Word)
  /-- SLT (R220). -/
  | slt (core : CoreId) (w : Word)
  /-- SLTU (R220). -/
  | sltu (core : CoreId) (w : Word)
  /-- MIN (R220). -/
  | min (core : CoreId) (w : Word)
  /-- MAX (R220). -/
  | max (core : CoreId) (w : Word)
  /-- MINU (R220). -/
  | minu (core : CoreId) (w : Word)
  /-- MAXU (R220). -/
  | maxu (core : CoreId) (w : Word)
  /-- MAXI (R220). -/
  | maxi (core : CoreId) (w : Word)
  /-- MAXIU (R220). -/
  | maxiu (core : CoreId) (w : Word)
  /-- MINI (R220). -/
  | mini (core : CoreId) (w : Word)
  /-- MINIU (R220). -/
  | miniu (core : CoreId) (w : Word)
  /-- BEQ (R221). -/
  | beq (core : CoreId) (w : Word)
  /-- BNE (R221). -/
  | bne (core : CoreId) (w : Word)
  /-- BLT (R221). -/
  | blt (core : CoreId) (w : Word)
  /-- BGE (R221). -/
  | bge (core : CoreId) (w : Word)
  /-- BLTU (R221). -/
  | bltu (core : CoreId) (w : Word)
  /-- BGEU (R221). -/
  | bgeu (core : CoreId) (w : Word)
  /-- BCB (R274). -/
  | bcb (core : CoreId) (w : Word)
  /-- BCNB (R274). -/
  | bcnb (core : CoreId) (w : Word)
  /-- J (R221). -/
  | j (core : CoreId) (w : Word)
  /-- JAL (R221). -/
  | jal (core : CoreId) (w : Word)
  /-- JR (R221). -/
  | jr (core : CoreId) (w : Word)
  /-- JALR (R221). -/
  | jalr (core : CoreId) (w : Word)
  /-- BRL (R222). -/
  | brl (core : CoreId) (w : Word)
  /-- LCI (R221). -/
  | lci (core : CoreId) (w : Word)
  /-- LCR (R221). -/
  | lcr (core : CoreId) (w : Word)
  /-- ROT (R221). -/
  | rot (core : CoreId) (w : Word)
  /-- LD_B (R223). -/
  | ldB (core : CoreId) (w : Word)
  /-- LD_BU (R223). -/
  | ldBu (core : CoreId) (w : Word)
  /-- LD_H (R223). -/
  | ldH (core : CoreId) (w : Word)
  /-- LD_HU (R223). -/
  | ldHu (core : CoreId) (w : Word)
  /-- LD_W (R223). -/
  | ldW (core : CoreId) (w : Word)
  /-- LD_D (R223). -/
  | ldD (core : CoreId) (w : Word)
  /-- ST_B (R223). -/
  | stB (core : CoreId) (w : Word)
  /-- ST_H (R223). -/
  | stH (core : CoreId) (w : Word)
  /-- ST_W (R223). -/
  | stW (core : CoreId) (w : Word)
  /-- ST_D (R223). -/
  | stD (core : CoreId) (w : Word)
  /-- VECTOR_LOAD_16 (R253). -/
  | vectorLoad16 (core : CoreId) (w : Word)
  /-- VECTOR_LOAD_32 (R253). -/
  | vectorLoad32 (core : CoreId) (w : Word)
  /-- VECTOR_STORE_16 (R253). -/
  | vectorStore16 (core : CoreId) (w : Word)
  /-- VECTOR_STORE_32 (R253). -/
  | vectorStore32 (core : CoreId) (w : Word)
  /-- MFS (R224). -/
  | mfs (core : CoreId) (w : Word)
  /-- MTS (R224). -/
  | mts (core : CoreId) (w : Word)
  /-- ADDA (R224). -/
  | adda (core : CoreId) (w : Word)
  /-- ADDAG (R224). -/
  | addag (core : CoreId) (w : Word)
  /-- MGA (R224). -/
  | mga (core : CoreId) (w : Word)
  /-- MAG (R224). -/
  | mag (core : CoreId) (w : Word)
  /-- MGM (R224). -/
  | mgm (core : CoreId) (w : Word)
  /-- MMG (R224). -/
  | mmg (core : CoreId) (w : Word)
  /-- MPY (R226). -/
  | mpy (core : CoreId) (w : Word)
  /-- MAC (R226). -/
  | mac (core : CoreId) (w : Word)
  /-- MSU (R226). -/
  | msu (core : CoreId) (w : Word)
  /-- CLRA (R225). -/
  | clra (core : CoreId) (w : Word)
  /-- MTA (R225). -/
  | mta (core : CoreId) (w : Word)
  /-- MTG (R225). -/
  | mtg (core : CoreId) (w : Word)
  /-- EXTR (R227). -/
  | extr (core : CoreId) (w : Word)
  /-- MFA (R225). -/
  | mfa (core : CoreId) (w : Word)
  /-- MFG (R225). -/
  | mfg (core : CoreId) (w : Word)
  /-- VADD (R256). -/
  | vadd (core : CoreId) (w : Word)
  /-- VSUB (R256). -/
  | vsub (core : CoreId) (w : Word)
  /-- VADDS (R256). -/
  | vadds (core : CoreId) (w : Word)
  /-- VSUBS (R256). -/
  | vsubs (core : CoreId) (w : Word)
  /-- VADDUS (R256). -/
  | vaddus (core : CoreId) (w : Word)
  /-- VSUBUS (R256). -/
  | vsubus (core : CoreId) (w : Word)
  /-- VAVGR (R256). -/
  | vavgr (core : CoreId) (w : Word)
  /-- VNEGS (R256). -/
  | vnegs (core : CoreId) (w : Word)
  /-- VABSS (R256). -/
  | vabss (core : CoreId) (w : Word)
  /-- VMIN (R256). -/
  | vmin (core : CoreId) (w : Word)
  /-- VMAX (R256). -/
  | vmax (core : CoreId) (w : Word)
  /-- VMINU (R256). -/
  | vminu (core : CoreId) (w : Word)
  /-- VMAXU (R256). -/
  | vmaxu (core : CoreId) (w : Word)
  /-- VAND (R256). -/
  | vand (core : CoreId) (w : Word)
  /-- VOR (R256). -/
  | vor (core : CoreId) (w : Word)
  /-- VXOR (R256). -/
  | vxor (core : CoreId) (w : Word)
  /-- VANDN (R256). -/
  | vandn (core : CoreId) (w : Word)
  /-- VCMPEQ (R256). -/
  | vcmpeq (core : CoreId) (w : Word)
  /-- VCMPGT (R256). -/
  | vcmpgt (core : CoreId) (w : Word)
  /-- VCMPGTU (R256). -/
  | vcmpgtu (core : CoreId) (w : Word)
  /-- VSEL (R256). -/
  | vsel (core : CoreId) (w : Word)
  /-- VMULR (R256). -/
  | vmulr (core : CoreId) (w : Word)
  /-- VCMULR (R256). -/
  | vcmulr (core : CoreId) (w : Word)
  /-- VCMULRJ (R256). -/
  | vcmulrj (core : CoreId) (w : Word)
  /-- VCONJS (R256). -/
  | vconjs (core : CoreId) (w : Word)
  /-- VMULL (R256). -/
  | vmull (core : CoreId) (w : Word)
  /-- VSLL (R257). -/
  | vsll (core : CoreId) (w : Word)
  /-- VSRL (R257). -/
  | vsrl (core : CoreId) (w : Word)
  /-- VSRA (R257). -/
  | vsra (core : CoreId) (w : Word)
  /-- VSRAR (R257). -/
  | vsrar (core : CoreId) (w : Word)
  /-- VSLLS (R257). -/
  | vslls (core : CoreId) (w : Word)
  /-- VPACKR (R257). -/
  | vpackr (core : CoreId) (w : Word)
  /-- VPACKRU (R257). -/
  | vpackru (core : CoreId) (w : Word)
  /-- VUNPKL (R257). -/
  | vunpkl (core : CoreId) (w : Word)
  /-- VUNPKH (R257). -/
  | vunpkh (core : CoreId) (w : Word)
  /-- VMPY (R258). -/
  | vmpy (core : CoreId) (w : Word)
  /-- VMAC (R258). -/
  | vmac (core : CoreId) (w : Word)
  /-- VMSU (R258). -/
  | vmsu (core : CoreId) (w : Word)
  /-- VCLRA (R258). -/
  | vclra (core : CoreId) (w : Word)
  /-- VCMPY (R258). -/
  | vcmpy (core : CoreId) (w : Word)
  /-- VCMAC (R258). -/
  | vcmac (core : CoreId) (w : Word)
  /-- VCMSU (R258). -/
  | vcmsu (core : CoreId) (w : Word)
  /-- VCMPYJ (R258). -/
  | vcmpyj (core : CoreId) (w : Word)
  /-- VCMACJ (R258). -/
  | vcmacj (core : CoreId) (w : Word)
  /-- VEXTR (R259). -/
  | vextr (core : CoreId) (w : Word)
  /-- VMTA (R259). -/
  | vmta (core : CoreId) (w : Word)
  /-- VMFA (R259). -/
  | vmfa (core : CoreId) (w : Word)
  /-- VPERM_B (R260). -/
  | vpermB (core : CoreId) (w : Word)
  /-- VALIGN (R260). -/
  | valign (core : CoreId) (w : Word)
  /-- VILVL_H (R260). -/
  | vilvlH (core : CoreId) (w : Word)
  /-- VILVH_H (R260). -/
  | vilvhH (core : CoreId) (w : Word)
  /-- VDILVE_H (R260). -/
  | vdilveH (core : CoreId) (w : Word)
  /-- VDILVO_H (R260). -/
  | vdilvoH (core : CoreId) (w : Word)
  /-- VREV_H (R260). -/
  | vrevH (core : CoreId) (w : Word)
  /-- VREV_W (R260). -/
  | vrevW (core : CoreId) (w : Word)
  /-- VSPLAT_H (R260). -/
  | vsplatH (core : CoreId) (w : Word)
  /-- VSPLAT_W (R260). -/
  | vsplatW (core : CoreId) (w : Word)
  /-- VBCG (R261). -/
  | vbcg (core : CoreId) (w : Word)
  /-- VGETL (R261). -/
  | vgetl (core : CoreId) (w : Word)
  /-- VGETLU (R261). -/
  | vgetlu (core : CoreId) (w : Word)
  /-- VSETL (R261). -/
  | vsetl (core : CoreId) (w : Word)
  /-- VMAXI (R261). -/
  | vmaxi (core : CoreId) (w : Word)
  /-- VMINI (R261). -/
  | vmini (core : CoreId) (w : Word)
  /-- VRMAXI (R261). -/
  | vrmaxi (core : CoreId) (w : Word)
  /-- VRMINI (R261). -/
  | vrmini (core : CoreId) (w : Word)
  /-- VRSUM (R261). -/
  | vrsum (core : CoreId) (w : Word)
  /-- VMULW_H (R263). -/
  | vmulwH (core : CoreId) (w : Word)
  /-- VMULWU_H (R263). -/
  | vmulwuH (core : CoreId) (w : Word)
  /-- VMULW_W (R263). -/
  | vmulwW (core : CoreId) (w : Word)
  /-- VMULWU_W (R263). -/
  | vmulwuW (core : CoreId) (w : Word)
  /-- VDOT_H (R263). -/
  | vdotH (core : CoreId) (w : Word)
  /-- VDOT_W (R263). -/
  | vdotW (core : CoreId) (w : Word)
  /-- VDOTA_H (R263). -/
  | vdotaH (core : CoreId) (w : Word)
  /-- CX_CRECIP (R278). -/
  | cxCrecip (core : CoreId) (w : Word)
  /-- CX_RSQRT (R278). -/
  | cxRsqrt (core : CoreId) (w : Word)
  /-- CX_ATAN2 (R278). -/
  | cxAtan2 (core : CoreId) (w : Word)
  /-- CX_ROT (R278). -/
  | cxRot (core : CoreId) (w : Word)
  /-- CX_LOG2 (R278). -/
  | cxLog2 (core : CoreId) (w : Word)
  /-- CX_EXP2 (R278). -/
  | cxExp2 (core : CoreId) (w : Word)
  /-- CX_DIV (R278). -/
  | cxDiv (core : CoreId) (w : Word)
  /-- CX_DIVU (R278). -/
  | cxDivu (core : CoreId) (w : Word)
  /-- CX_MSCALE (R278). -/
  | cxMscale (core : CoreId) (w : Word)
  /-- CX_MPUT (R280). -/
  | cxMput (core : CoreId) (w : Word)
  /-- CX_CHOL (R280). -/
  | cxChol (core : CoreId) (w : Word)
  /-- CX_MINV (R280). -/
  | cxMinv (core : CoreId) (w : Word)
  /-- CX_MGET (R280). -/
  | cxMget (core : CoreId) (w : Word)
  /-- CX_MEXP (R278). -/
  | cxMexp (core : CoreId) (w : Word)
  /-- CX_CLAIM (R272). -/
  | cxClaim (core : CoreId) (w : Word)
  /-- CX_RELEASE (R275). -/
  | cxRelease (core : CoreId) (w : Word)
  /-- CX_SAVE (R282). -/
  | cxSave (core : CoreId) (w : Word)
  /-- CX_RESTORE (R282). -/
  | cxRestore (core : CoreId) (w : Word)
  /-- CX_STAT (R281). -/
  | cxStat (core : CoreId) (w : Word)
  /-- CX_CLRF (R281). -/
  | cxClrf (core : CoreId) (w : Word)
  /-- LDD_CAP_SET (R295). -/
  | lddCapSet (t : BitVec 16) (cap : Byte)
  /-- SB_QUOTA_SET (R307). -/
  | sbQuotaSet (t : BitVec 16) (n : BitVec 32)
  /-- SB_REGION_WRITE (R306). -/
  | sbRegionWrite (ncbMax : Bool) (v : BitVec 32)
  /-- BIND_SET (R349). -/
  | bindSet (t : TenantId) (slot : Byte) (d : BitVec 512)
  /-- UNBIND (R381). -/
  | unbind (t : TenantId) (slot : Byte)
  /-- RES_SET (R358). -/
  | resSet (t : TenantId) (slot : Byte) (idx : Byte) (r : BitVec 256)
  /-- PREAMBLE_DETECT (R353). -/
  | preambleDetect (t : TenantId) (slot : Fin 4) (c : Fin 1024)
  /-- SFD_MATCH (R355). -/
  | sfdMatch (t : TenantId) (slot : Fin 4) (c : Fin 1024) (window : BitVec 16) (start : BitVec 64) (cfo : BitVec 32)
  /-- PRE_TIMEOUT (R353). -/
  | preTimeout (t : TenantId) (slot : Fin 4) (c : Fin 1024)
  /-- PHR_DECIDED (R357). -/
  | phrDecided (t : TenantId) (slot : Fin 4) (c : Fin 1024) (phr : BitVec 16)
  /-- KEY_DECIDED (R361). -/
  | keyDecided (t : TenantId) (slot : Fin 4) (c : Fin 1024) (octets : List Byte)
  /-- FRAME_END (R353). -/
  | frameEnd (t : TenantId) (slot : Fin 4) (c : Fin 1024) (data : List Byte) (fcsOk : Bool) (rssi : BitVec 16) (snr : BitVec 16) (mse : BitVec 16)
  /-- OCCASION_END (R359). -/
  | occasionEnd (t : TenantId) (slot : Fin 4) (idx : Fin 64) (cands : List Machine.Cand)
  /-- LOOKUP_DONE (R361). -/
  | lookupDone (m : MarId)
  /-- LOOKUP_DEADLINE (R361). -/
  | lookupDeadline (m : MarId)
  /-- INSERT (R365). -/
  | insert
  /-- SET_USER (R365). -/
  | setUser
  /-- DELETE_KEY (R365). -/
  | deleteKey
  /-- DELETE_ID (R365). -/
  | deleteId
  /-- BLOCK (R365). -/
  | block
  /-- UNBLOCK (R365). -/
  | unblock
  /-- IDT_REBUILD (R371). -/
  | idtRebuild (buckets : Word) (seed : Word)
  /-- IDT_MIGRATE_STEP (R368). -/
  | idtMigrateStep
  /-- IDT_SWAP (R369). -/
  | idtSwap
  /-- IDT_STALL_RETRY (R370). -/
  | idtStallRetry
  /-- SID_QUARANTINE_EXPIRY (R366). -/
  | sidQuarantineExpiry
  /-- SEQUENCER_HANDOVER (R364). -/
  | sequencerHandover
  /-- BUCKETS_MAX (R384). -/
  | bucketsMax (v : Word)
  /-- LANE_RATE (R390). -/
  | laneRate (n : LaneId) (v : Byte)
  /-- TX_TAP_WRITE (R392). -/
  | txTapWrite (n : LaneId) (item : Fin 5) (v : Byte)
  /-- LANE_REQ_ACTIVE (R408). -/
  | laneReqActive (n : LaneId) (supply : BitVec 16)
  /-- LANE_REQ_STANDBY (R408). -/
  | laneReqStandby (n : LaneId)
  /-- LANE_REQ_DEEP (R408). -/
  | laneReqDeep (n : LaneId) (supply : BitVec 16)
  /-- LANE_REQ_DISABLED (R408). -/
  | laneReqDisabled (n : LaneId)
  /-- LANE_ENTRY_DONE (R409). -/
  | laneEntryDone (n : LaneId) (supply : BitVec 16)
  /-- LANE_READY (R408). -/
  | laneReady (n : LaneId) (supply : BitVec 16)
  /-- LANE_SIGNAL_DETECT (R409). -/
  | laneSignalDetect (n : LaneId)
  /-- LANE_LOS (R408). -/
  | laneLos (n : LaneId) (unlock : Bool)
  /-- DFE_UPDATE (R395). -/
  | dfeUpdate (n : LaneId) (up : BitVec 12) (down : BitVec 12)
  /-- CTLE_VGA_VISIT (R395). -/
  | ctleVgaVisit (n : LaneId) (ctle : BitVec 2) (vga : BitVec 2)
  /-- LANE_LOAD_WINDOW (R398). -/
  | laneLoadWindow (q : Fin 16) (words : List (BitVec 32 × BitVec 32))
  /-- LANE_CAL_CAPTURE (R397). -/
  | laneCalCapture (n : LaneId) (supply : BitVec 16)
  /-- LANE_CONTEXT_CHECK (R399). -/
  | laneContextCheck (n : LaneId) (supply : BitVec 16)
  /-- LANE_RECENTRE_START (R401). -/
  | laneRecentreStart (n : LaneId)
  /-- LANE_RECENTRE_DONE (R401). -/
  | laneRecentreDone (n : LaneId) (pass : Bool) (phase : Byte × Byte) (levels : List (Byte × Byte)) (supply : BitVec 16)
  /-- LANE_RECENTRE (R401). -/
  | laneRecentre (n : LaneId) (v : Byte)
  /-- SCAN_START (R404). -/
  | scanStart (n : LaneId) (p : BitVec 96)
  /-- SCAN_POINT_DONE (R405). -/
  | scanPointDone (n : LaneId) (errs : BitVec 64)
  /-- SCAN_ABORT (R407). -/
  | scanAbort (n : LaneId) (v : Byte)
  /-- AM_LOCK (R412). -/
  | amLock (n : LaneId) (skew : BitVec 31)
  /-- AM_LOST (R412). -/
  | amLost (n : LaneId)
  /-- PRBS_CLEAR (R414). -/
  | prbsClear (n : LaneId) (v : Byte)
  /-- PORT_MODE (R419). -/
  | portMode (p : PortId) (v : Byte)
  /-- PORT_UP (R420). -/
  | portUp (p : PortId) (rtd : BitVec 32)
  /-- PORT_DOWN (R420). -/
  | portDown (p : PortId) (lost : BitVec 6)
  /-- ETH_FRAME_RX (R424). -/
  | ethFrameRx (p : PortId) (frame : List Byte) (corrected : BitVec 32) (bad : BitVec 32)
  /-- UPLANE_MESSAGE (R431). -/
  | uplaneMessage (p : PortId)
  /-- TIME_DOMAIN_MESSAGE (R439). -/
  | timeDomainMessage (p : PortId)
  /-- OWDM_REQUEST (R443). -/
  | owdmRequest (p : PortId)
  /-- OWDM_REQUEST_FOLLOW_UP (R443). -/
  | owdmRequestFollowUp (p : PortId)
  /-- OWDM_FOLLOW_UP (R443). -/
  | owdmFollowUp (p : PortId)
  /-- OWDM_REMOTE_REQUEST (R443). -/
  | owdmRemoteRequest (p : PortId)
  /-- OWDM_RESPONSE (R443). -/
  | owdmResponse (p : PortId)
  /-- OWDM_START (R443). -/
  | owdmStart (p : PortId) (id : Byte)
  /-- RX_WINDOW_CLOSE (R433). -/
  | rxWindowClose (ci : CiId) (air : BitVec 64) (sec : Fin 2) (axc : AxcId) (k : Fin 14)
  /-- TX_WINDOW_OPEN (R436). -/
  | txWindowOpen (gid : Nat) (b : Nat) (axc : AxcId) (k : Fin 14)
  /-- TX_WINDOW_CLOSE (R436). -/
  | txWindowClose (gid : Nat) (b : Nat) (axc : AxcId) (k : Fin 14)
  /-- CPLANE_SEND (R437). -/
  | cplaneSend (gid : Nat) (b : Nat) (axc : AxcId) (k : Fin 14)
  /-- AXC_BIND (R427). -/
  | axcBind (p : PortId) (d : BitVec 256)
  /-- AXC_UNBIND (R428). -/
  | axcUnbind (p : PortId) (a : BitVec 16)
  /-- CI_CONFIG (R451). -/
  | ciConfig (c : CiId) (d : BitVec 128)
  /-- DTC_ADJUST (R450). -/
  | dtcAdjust (v : BitVec 64)
  /-- SLEW_DONE (R450). -/
  | slewDone
  /-- REF_PULSE (R461). -/
  | refPulse (r : RefId) (rawPs : BitVec 64)
  /-- TOD_SENTENCE (R454). -/
  | todSentence (utcSec : BitVec 40) (valid : Bool)
  /-- REF_ACTIVITY_LOSS (R455). -/
  | refActivityLoss (r : RefId)
  /-- REF_SECOND_UPDATE (R457). -/
  | refSecondUpdate (xs : List (RefId × BitVec 32)) (filt : BitVec 64)
  /-- REF_ENABLE (R457). -/
  | refEnable (r : RefId) (v : Byte)
  /-- FORCE_REF (R460). -/
  | forceRef (v : Byte)
  /-- LOOP_AUTOMATIC (R463). -/
  | loopAutomatic
  /-- LOOP_HOLDOVER (R463). -/
  | loopHoldover
  /-- LOOP_SOFTWARE (R463). -/
  | loopSoftware
  /-- SW_FREQ (R465). -/
  | swFreq (v : Word)
  /-- TDD_PATTERN_APPLY (R467). -/
  | tddPatternApply
  /-- DRAM_START (R474). -/
  | dramStart
  /-- DRAM_STOP (R474). -/
  | dramStop
  /-- DRAM_TRAIN_DONE (R495). -/
  | dramTrainDone (failed : BitVec 8) (e : Machine.EyeResult)
  /-- DRAM_REQUEST (R486). `job` is 65,536 × CI + job ID of the job it serves (R489). -/
  | dramRequest (port : Fin 16) (tenant : TenantId) (job : Nat) (addr : Nat) (data : Option (List Byte))
  /-- DRAM_READ_DONE (R505). -/
  | dramReadDone (ch : ChanId) (issuedBefore : Bool) (chk : Machine.LineCheck)
  /-- DRAM_ALERT (R510). -/
  | dramAlert (ch : ChanId) (newIncident : Bool)
  /-- FREEZE_AUTO_EXPIRY (R508). -/
  | freezeAutoExpiry (ch : ChanId)
  /-- RESUME (R508). -/
  | resume (ch : ChanId) (v : Nat)
  /-- DRAM_RETRAIN_DONE (R510). -/
  | dramRetrainDone (ch : ChanId) (e : Machine.EyeResult)
  /-- DRAM_REFRESH (R491). -/
  | dramRefresh (ch : ChanId) (rank : Fin 2)
  /-- RAA_TABLE_CLEAR (R493). -/
  | raaTableClear (ch : ChanId)
  /-- DRAM_TEMP_POLL (R492). -/
  | dramTempPoll (ch : ChanId) (t : BitVec 16)
  /-- DRAM_TRACK (R496). -/
  | dramTrack (ch : ChanId) (rank : Fin 2) (vddq : BitVec 16) (overLimit : Bool)
  /-- DRAM_LOAD_WINDOW (R499). -/
  | dramLoadWindow (ch : ChanId) (busy : Nat) (total : Nat)
  /-- DRAM_CONTEXT_CHECK (R501). -/
  | dramContextCheck (ch : ChanId)
  /-- DRAM_RECENTRE_START (R503). -/
  | dramRecentreStart (ch : ChanId) (rank : Fin 2)
  /-- DRAM_RECENTRE_DONE (R503). -/
  | dramRecentreDone (ch : ChanId) (rank : Fin 2) (e : Machine.EyeResult)
  /-- DRAM_RECENTRE (R503). -/
  | dramRecentre (ch : ChanId) (v : Nat)
  /-- DRAM_SCRUB (R512). -/
  | dramScrub (chk : Machine.LineCheck)
  /-- PD_IDLE_EXPIRY (R513). -/
  | pdIdleExpiry (ch : ChanId)
  /-- SCRUB_PASS_START (R523). -/
  | scrubPassStart (q : Fin 5)
  /-- SCRUB_WORD (R525). -/
  | scrubWord (q : Fin 5) (loc : BitVec 64) (word : BitVec 20) (flips1 : BitVec 208) (flips2 : BitVec 208)
  /-- SCRUB_MACRO_END (R527). -/
  | scrubMacroEnd (q : Fin 5) (loc : BitVec 64) (deferred : Bool)
  /-- COLUMN_SPARE_DONE (R528). -/
  | columnSpareDone (loc : BitVec 64)
  /-- WORD_REMAP_DONE (R529). -/
  | wordRemapDone (loc : BitVec 64)
  /-- LEDGER_MINUTE (R534). -/
  | ledgerMinute (rows : List (Fin 51 × BitVec 16 × BitVec 16))
  /-- LEDGER_DAILY_WRITE (R537). -/
  | ledgerDailyWrite (a1 : Bool) (a2 : Bool) (b1 : Bool) (b2 : Bool)
  /-- LEDGER_YEARLY_REWRITE (R537). -/
  | ledgerYearlyRewrite (a1 : Bool) (a2 : Bool) (b1 : Bool) (b2 : Bool)
  /-- LEDGER_WRITE (R537). -/
  | ledgerWrite (v : Byte) (a1 : Bool) (a2 : Bool) (b1 : Bool) (b2 : Bool)
  /-- NOC_READ_REQUEST (R546). -/
  | nocReadRequest (src : RouterId) (addr : BitVec 52) (len : Fin 257) (tenant : TenantId) (port : Fin 16) (gt : Bool) (badAt : Option RouterId)
  /-- NOC_WRITE (R565). -/
  | nocWrite (src : RouterId) (addr : BitVec 52) (data : List Byte) (tenant : TenantId) (port : Fin 16) (gt : Bool) (badAt : Option RouterId) (poisoned : List (Fin 256)) (corrected : Nat)
  /-- NOC_READ_DATA (R546). -/
  | nocReadData (src : RouterId) (dst : RouterId) (badAt : Option RouterId) (poisoned : List (Fin 256)) (corrected : Nat)
  /-- NOC_WRITE_ACK (R565). -/
  | nocWriteAck (src : RouterId) (dst : RouterId) (badAt : Option RouterId)
  /-- VOTE_SET (R579). -/
  | voteSet (t : TenantId) (v : BitVec 16)
  /-- DOMAIN_ENTRY_START (R580). -/
  | domainEntryStart (d : DomId)
  /-- DOMAIN_ENTRY_DONE (R581). -/
  | domainEntryDone (d : DomId)
  /-- DOMAIN_WAKE (R582). -/
  | domainWake (d : DomId) (clampsClosed : Bool)
  /-- DOMAIN_EXIT_DONE (R583). -/
  | domainExitDone (d : DomId) (saveOk : Bool) (rewritten : Bool)
  /-- CLOCK_NOTCH (R585). -/
  | clockNotch (d : Fin 20)
  /-- GOVERNOR_GRANT (R590). -/
  | governorGrant
  /-- CLK_SET (R585). -/
  | clkSet (d : Fin 20) (v : BitVec 16)
  /-- MARGIN_CONTEXT_CHECK (R588). -/
  | marginContextCheck (d : Fin 20) (supply : BitVec 16) (cls : BitVec 2)
  /-- MARGIN_RECENTRE (R588). -/
  | marginRecentre (d : Fin 20) (fSafe : BitVec 16) (supply : BitVec 16) (cls : BitVec 2) (sustained : Bool)
  /-- DOMAIN_RECENTRE (R588). -/
  | domainRecentre (d : Fin 20) (v : Byte) (fSafe : BitVec 16) (supply : BitVec 16) (cls : BitVec 2)
  /-- DROOP_DETECT (R589). -/
  | droopDetect (d : Fin 20) (supply : BitVec 16) (cls : BitVec 2)
  /-- DEVICE_SLEEP_ENTRY (R595). -/
  | deviceSleepEntry (woken : Bool)
  /-- WAKE_N_FALL (R596). -/
  | wakeNFall
  /-- STC_ALARM (R596). -/
  | stcAlarm
  /-- CAN_RX_WAKE (R596). -/
  | canRxWake
  /-- PERST_N_WAKE (R596). -/
  | perstNWake
  /-- VAON_RISE (R596). -/
  | vaonRise
  /-- DEVICE_WAKE (R597). -/
  | deviceWake
  /-- WAKE_HOLD_EXPIRY (R598). -/
  | wakeHoldExpiry
  /-- TIME_SNAPSHOT (R599). -/
  | timeSnapshot (k : Word) (kUnc : Word)
  /-- VBAT_MEASURE (R602). -/
  | vbatMeasure (mv : BitVec 16)
  /-- SENSOR_SAMPLE (R605). -/
  | sensorSample (n : SensorId) (raw : BitVec 16)
  /-- THROTTLE_STEP (R606). -/
  | throttleStep (d : Fin 20)
  /-- THROTTLE_RECOVER_STEP (R606). -/
  | throttleRecoverStep (d : Fin 20)
  /-- TRIP_HOLD_EXPIRY (R608). -/
  | tripHoldExpiry
  /-- JTAG_ATTACH (R710). -/
  | jtagAttach
  /-- LINK_UP (R611). -/
  | linkUp (gen : Fin 6) (width : Fin 17) (cxl : Bool)
  /-- CONVENTIONAL_RESET (R634). -/
  | conventionalReset (how : Machine.ConvReset)
  /-- FLR_START (R632). -/
  | flrStart (fn : TenantId)
  /-- FLR_DONE (R633). -/
  | flrDone (fn : TenantId)
  /-- BUS_MASTER_DISABLE (R632). -/
  | busMasterDisable (fn : TenantId) (d3hot : Bool)
  /-- BUS_MASTER_ENABLE (R629). -/
  | busMasterEnable (fn : TenantId) (d0 : Bool)
  /-- VF_DISABLE (R617). -/
  | vfDisable (clear : Bool) (keep : Fin 512)
  /-- QP_ENABLE (R629). -/
  | qpEnable (fn : TenantId) (qp : QpId)
  /-- QP_DISABLE (R629). -/
  | qpDisable (fn : TenantId) (qp : QpId)
  /-- EQ_ENABLE (R623). -/
  | eqEnable (fn : TenantId)
  /-- EQ_DISABLE (R623). -/
  | eqDisable (fn : TenantId)
  /-- EQ_HEAD (R623). -/
  | eqHead (fn : TenantId) (be : BitVec 4) (v : Word)
  /-- AE_LOG_CLEAR (R623). -/
  | aeLogClear (fn : TenantId)
  /-- COUNTER_LO_READ (R621). -/
  | counterLoRead (fn : TenantId) (ofs : BitVec 14) (be : BitVec 4)
  /-- REGISTER_WRITE (R625). -/
  | registerWrite (fn : TenantId) (ofs : BitVec 14) (be : BitVec 4) (v : Word)
  /-- INTERRUPT_MOD_TIMER (R630). -/
  | interruptModTimer (fn : TenantId) (qp : Option QpId)
  /-- MSIX_UNMASK (R630). -/
  | msixUnmask (fn : TenantId) (c : Machine.MsixCond)
  /-- HOST_READ_COMPLETION (R631). -/
  | hostReadCompletion (fn : TenantId) (tag : Fin 1024) (a : Machine.ReadAnswer)
  /-- COMPLETION_TIMEOUT (R631). -/
  | completionTimeout (fn : TenantId) (tag : Fin 1024)
  /-- ATS_INVALIDATE (R635). -/
  | atsInvalidate (fn : TenantId) (page : BitVec 52) (log2 : Fin 53)
  /-- CXL_SNOOP (R615). -/
  | cxlSnoop (line : BitVec 52)
  /-- CXL_MEM_REQUEST (R616). -/
  | cxlMemRequest (dpa : BitVec 40) (len : Fin 65) (data : Option (List Byte))
  /-- BAR4_ACCESS (R41). -/
  | bar4Access (ofs : BitVec 30) (len : Fin 4097) (data : Option (List Byte))
  /-- MAILBOX_GO (R658). -/
  | mailboxGo (fn : TenantId) (be : BitVec 4) (v : Word)
  /-- MAILBOX_DONE_CLEAR (R657). -/
  | mailboxDoneClear (fn : TenantId)
  /-- READ (R651). -/
  | read (v : Machine.PdpVia) (l : List Byte)
  /-- WRITE (R646). -/
  | write (v : Machine.PdpVia) (l : List Byte)
  /-- READ_SEG (R652). -/
  | readSeg (v : Machine.PdpVia) (l : List Byte)
  /-- WRITE_SEG (R652). -/
  | writeSeg (v : Machine.PdpVia) (l : List Byte)
  /-- ABORT (R651). -/
  | abort (v : Machine.PdpVia) (l : List Byte)
  /-- SEG_TIMEOUT (R652). -/
  | segTimeout (tr : Fin 3) (peer : BitVec 144) (tid : Byte)
  /-- NOTIFY_INTERVAL (R661). -/
  | notifyInterval (route : Fin 16)
  /-- MGMT_HOUSEKEEPING (R656). -/
  | mgmtHousekeeping (kind : Fin 4)
  /-- MGMT_PHY_POLL (R709). -/
  | mgmtPhyPoll (up : Bool)
  /-- STORE (R664). -/
  | store (v : Word)
  /-- STORE_DONE (R664). -/
  | storeDone (a1 : Bool) (a2 : Bool) (b1 : Bool) (b2 : Bool)
  /-- RESTORE_DEFAULTS (R665). -/
  | restoreDefaults (v : Word)
  /-- IMAGE_WRITE (R665). -/
  | imageWrite (l : List Byte)
  /-- HIST_CLEAR (R667). -/
  | histClear (v : Word)
  /-- LOC_TEXT (R668). -/
  | locText (l : List Byte)
  /-- LOC_PACKED (R668). -/
  | locPacked (v : BitVec 64)
  /-- FIRMWARE_WRITE (R682). -/
  | firmwareWrite (l : List Byte) (readBack : Bool)
  /-- KEEPER_WAKE_REPLAY (R25). -/
  | keeperWakeReplay
  /-- VAON_PGOOD (R672). -/
  | vaonPgood
  /-- PGOOD_RISE (R672). -/
  | pgoodRise (n : Fin 6)
  /-- PGOOD_TIMEOUT (R673). -/
  | pgoodTimeout (n : Fin 6)
  /-- RAIL_RETRY (R673). -/
  | railRetry
  /-- RAIL_FAULT (R675). -/
  | railFault (n : Fin 6)
  /-- VAON_LOSS (R676). -/
  | vaonLoss
  /-- BOOT_ROM_START (R679). -/
  | bootRomStart (hz : Word)
  /-- HOST_BOOT_TRIGGER (R680). -/
  | hostBootTrigger
  /-- FIRMWARE_READY (R683). -/
  | firmwareReady
  /-- RST_N_ASSERT (R687). -/
  | rstNAssert
  /-- JTAG_RESET (R687). -/
  | jtagReset
  /-- FIRMWARE_WATCHDOG (R687). -/
  | firmwareWatchdog
  /-- WARM_RESET_RELEASE (R687). -/
  | warmResetRelease
  /-- SELFTEST_DONE (R689). -/
  | selftestDone (u : Fin 228) (pass : Bool)
  /-- DRAM_RESTART_RETRY (R689). -/
  | dramRestartRetry
  /-- LANE_RECOVERY_TIMER (R689). -/
  | laneRecoveryTimer (n : LaneId)
  /-- OSC_LOSS (R691). -/
  | oscLoss (pcieClock : Bool)
  /-- OSC_RETURN (R691). -/
  | oscReturn
  /-- COLLECT_CUTOFF (R377). -/
  | collectCutoff
  /-- BOOKED_INTERVAL_END (R578). -/
  | bookedIntervalEnd
  /-- JTAG_DETACH (R710). -/
  | jtagDetach
  /-- CONFIG_WRITE (R617). -/
  | configWrite (fn : TenantId) (c : Machine.CfgWrite)
  /-- PME_TURN_OFF (R619). -/
  | pmeTurnOff
  /-- SPEED_CHANGE (R636). -/
  | speedChange (gen : Fin 6) (width : Fin 17)
  /-- TRANSLATION_COMPLETION (R635). -/
  | translationCompletion (fn : TenantId) (page : BitVec 52) (target : Option (BitVec 52))
  /-- PRBS_LOCK (R414). -/
  | prbsLock (n : LaneId) (bits : BitVec 64) (errs : BitVec 64)
  /-- BASIC_FRAME (R422). -/
  | basicFrame (p : PortId) (bfn : BitVec 12) (hfn : Fin 150) (x : Fin 256) (payload : List Byte)
  /-- BUS_OFF (R653). -/
  | busOff (st : Fin 3)
  /-- PTP_MESSAGE_TX (R468). -/
  | ptpMessageTx (p : PortId) (msgType : BitVec 4)
  /-- ESMC_INTERVAL (R442). -/
  | esmcInterval (p : PortId)
deriving DecidableEq, Repr

end Sys2Proof
end

