-- ==== Sys2Proof/Decode.lean ====
section
/-!
DEFINITION. Commands from words: spec/opcode_table.json gives no row any bits, because the block fetches no instruction of its own.
-/
namespace Sys2Proof

/-- The command that a word spells by the table's bits: no row has any. -/
def decodeTableWord (_nbits _w : Nat) : Option Instr := none

end Sys2Proof
end

