-- ==== Sys2Proof/Config.lean ====
section
/-!
DEFINITION. What one device fixes (fuses, firmware, board) and the values the manual leaves open. Every constant
here has no body: a proof can lean on none of its values.
-/
namespace Sys2Proof.Config

/-- A value the manual leaves open, fresh for each number drawn from `State.freeCtr` (log 9). -/
opaque freeValue : Nat → Nat
/-- A bit the manual leaves open (log 9). -/
opaque freeBit : Nat → Bool
/-- A byte list the manual leaves open: draw number, length wanted (log 9). -/
opaque freeBytes : Nat → Nat → List Byte

/-- CRC16 of a byte list: the manual names it and gives no polynomial (R599, log 10). -/
opaque crc16 : List Byte → BitVec 16
/-- CRC32 of a byte list: named, no polynomial given (R584, R663, log 10). -/
opaque crc32 : List Byte → BitVec 32
/-- SHA-384, a standard the manual names (R678, log 10). -/
opaque sha384 : List Byte → Vector Byte 48
/-- ECDSA P-384 verification: public key, message, signature (R678, log 10). -/
opaque ecdsaValid : List Byte → List Byte → List Byte → Bool

/-- Fused: the speed grade is 30 (Table 21-18, log 11). -/
opaque speedGrade30 : Bool
/-- Fused: the temperature grade is E (Table 21-18, log 11). -/
opaque tempGradeE : Bool
/-- Fused serial number (R667, log 11). -/
opaque serial : BitVec 64
/-- Fused key hash, 48 bytes (R667, log 11). -/
opaque keyHash : BitVec 384
/-- Fused management MAC address (R667, log 11). -/
opaque mgmtMac : BitVec 48
/-- Fused MAC address of each port (Table 12-8, log 11). -/
opaque portMac : PortId → BitVec 48
/-- Firmware version of the running firmware (R667, log 11). -/
opaque fwVersion : BitVec 32
/-- Fused seed of the identity table (R383, log 11). -/
opaque idtSeed : BitVec 32
/-- L_HOST as this device measured it, ns, 0 to 100,000 (Table 3-6, log 11). -/
opaque lHost : Fin 100001
/-- Bytes of device DRAM the template store takes (Table 3-6, log 11). -/
opaque templateStore : Nat
/-- Save-list length of each domain, fixed by firmware: at most 512 (R584, log 11). -/
opaque saveLen : DomId → Fin 513

/-- SEVERITY of a recovery entry of the error history, by flow and outcome: R689 gives none (log 9). -/
opaque recoverySeverity : Nat → Nat → Nat
/-- DETAIL of the entries 0xE801 and 0xE802 of the error history: the manual gives none (log 9). -/
opaque startDetail : Nat → BitVec 32

/-- Roots a restricted-set PRACH job needs, by the first 8 bytes of its block: the standard's tables decide (log 12). -/
opaque restrictedRoots : Nat → Nat

/-- Largest cycles an engine opcode's formula takes under a tenant's limits (R288): opcode, quanta, iteration cap. It times jobs
whose block stands in a CARRY buffer (log 10). -/
opaque worstCycles : Nat → Nat → Nat → Nat

/-- PIVOTS words of a CMC image by N − 1, result workspace and index: internal state, not described (Table 7-18, log 9). -/
opaque pivotWord : Nat → List (Int × Int) → Nat → BitVec 32

/-- The NR transmit chain of 3GPP TS 38.212 for one code block: parameter block, transport block, block number, E (R297, log 10). -/
opaque ldpcEncode : BitVec 512 → List Byte → Nat → Nat → List Byte
/-- The LTE transmit chain of 3GPP TS 36.212 for one code block (R301, log 10). -/
opaque turboEncode : BitVec 512 → List Byte → Nat → Nat → List Byte
/-- Circular-buffer position of rate-matched position `i` of an HQC entry, under the specifications: header, entry, i (R310, log 10). -/
opaque hqcPosition : BitVec 256 → BitVec 128 → Nat → Nat

/-- Candidate bucket of a key under a table's SEED, before reduction by BUCKETS: seed, tenant, NAMESPACE, key, first or second (R362,
log 10). -/
opaque idtBucket : BitVec 32 → Nat → Nat → Nat → Bool → Nat
/-- Bytes of the identity region that hold spools, fixed when stage 8 reserves the region (R372, R384, log 11). -/
opaque spoolArea : Nat

/-- NAME of object `idx` in its self-description: the tables name subindices only (R643, log 9). -/
opaque objectName : Nat → BitVec 224
/-- MACRO_STATE: the 32-byte spare record made of its contents, whose layout Table 15-9 leaves open: code, columns, remap entries with their
words, bad rows, fenced (log 9). -/
opaque spareRecord : Nat → List Nat → List Nat → List Bool → Bool → BitVec 256

/-- The highest Sage clock of the part, MHz (Table 1-6). -/
def clusterMax : Nat := if speedGrade30 then 3000 else 2400

/-- Value of subcarrier `k` that the port transform makes of the samples of a symbol with its prefix: CI descriptor, SRATE, slot, symbol
(R429 names the transform and gives no arithmetic, log 10). -/
opaque portRx : BitVec 128 → Nat → Nat → Nat → List Nat → Nat → BitVec 32
/-- Sample `i` of a symbol with its prefix that the port transform makes of its subcarriers (R429, log 10). -/
opaque portTx : BitVec 128 → Nat → Nat → Nat → List Nat → Nat → BitVec 32
/-- The compensation value of a port's delay measurements, 2^-16 ns (R443, log 11). -/
opaque owdmCompensation : Nat → BitVec 64

end Sys2Proof.Config
end

