-- ==== Sys2Proof/Machine/Bits.lean ====
section
/-!
DEFINITION. Bit fields, little-endian byte lists (R6), two's complement, and the sparse tables that hold
everything the device has many of.
-/
namespace Sys2Proof.Machine

/-- The field of `w` bits at bit `lo` of `x` (R5). -/
def fld (x lo w : Nat) : Nat := (x >>> lo) % 2 ^ w

/-- One bit as a Bool. -/
def bitAt (x n : Nat) : Bool := (x >>> n) % 2 == 1

/-- A Bool as a bit. -/
def b2n (b : Bool) : Nat := if b then 1 else 0

/-- A record laid out as (lowest bit, width, value) fields: the layout tables of the manual (R5, R6). -/
def pack : List (Nat × Nat × Nat) → Nat
  | [] => 0
  | (lo, w, v) :: r => ((v % 2 ^ w) <<< lo) + pack r

/-- `x` with its field of `w` bits at `lo` replaced by `v`. -/
def setFld (x lo w v : Nat) : Nat := x - (fld x lo w <<< lo) + ((v % 2 ^ w) <<< lo)

/-- The `n` bytes of `x`, least significant first (R6). -/
def toBytes : Nat → Nat → List Byte
  | 0, _ => []
  | n + 1, x => BitVec.ofNat 8 x :: toBytes n (x >>> 8)

/-- The number whose little-endian bytes are the list (R6). -/
def ofBytes : List Byte → Nat
  | [] => 0
  | b :: r => b.toNat + 256 * ofBytes r

/-- Two's complement of `w` bits read as a signed number. -/
def toInt (w x : Nat) : Int :=
  if x % 2 ^ w < 2 ^ (w - 1) then (x % 2 ^ w : Int) else (x % 2 ^ w : Int) - (2 ^ w : Int)

/-- A signed number as two's complement of `w` bits. -/
def ofInt (w : Nat) (i : Int) : Nat := (i % (2 ^ w : Int)).toNat

/-- A number held within [lo, hi]. -/
def clampI (lo hi i : Int) : Int := if i < lo then lo else if hi < i then hi else i

/-- The `n` octets of a number in network order (R6). -/
def beBytes (n x : Nat) : List Byte := (toBytes n x).reverse

/-- A counter of `w` bits one further on: it wraps to 0 (R20). -/
def wrapAdd (w x n : Nat) : Nat := (x + n) % 2 ^ w

/-- A counter of `w` bits that stays at its largest value. -/
def satAdd (w x n : Nat) : Nat := min (x + n) (2 ^ w - 1)

/-- ⌈a ÷ b⌉, 0 for b = 0. -/
def ceilDiv (a b : Nat) : Nat := if b = 0 then 0 else (a + b - 1) / b

/-- The bytes `n` long starting at byte `ofs`, short where the list ends. -/
def slice (l : List Byte) (ofs n : Nat) : List Byte := (l.drop ofs).take n

/-- The little-endian field of `n` bytes at byte `ofs` of a byte list; absent bytes read 0. -/
def fieldAt (l : List Byte) (ofs n : Nat) : Nat := ofBytes (slice l ofs n)

/-- A byte list brought to exactly `n` bytes, padded with zero. -/
def padTo (n : Nat) (l : List Byte) : List Byte := (l ++ List.replicate (n - l.length) 0).take n

/-- `l` with the bytes of `v` from byte `ofs` on replaced, its length kept. -/
def putBytes (l : List Byte) (ofs : Nat) (v : List Byte) : List Byte :=
  (l.take ofs ++ v ++ l.drop (ofs + v.length)).take l.length

/-! ### Sparse tables -/

/-- Anything the device has many of, by number: keys strictly rising. What has no entry stands at its
reset record, so a table is empty at reset. -/
abbrev Table (α : Type) := List (Nat × α)

/-- The entry of key `k`, if there is one. -/
def tfind {α : Type} (k : Nat) : Table α → Option α
  | [] => none
  | (j, v) :: r => if j = k then some v else tfind k r

/-- The entry of key `k`, or `d`. -/
def tget {α : Type} (t : Table α) (k : Nat) (d : α) : α := (tfind k t).getD d

/-- The table with `v` at key `k`, keys kept strictly rising. -/
def tset {α : Type} (k : Nat) (v : α) : Table α → Table α
  | [] => [(k, v)]
  | (j, w) :: r =>
    if k < j then (k, v) :: (j, w) :: r
    else if k = j then (k, v) :: r
    else (j, w) :: tset k v r

/-- The table without key `k`. -/
def tdel {α : Type} (k : Nat) : Table α → Table α
  | [] => []
  | (j, w) :: r => if j = k then tdel k r else (j, w) :: tdel k r

/-- The table with the entry of `k` changed by `f`, from `d` where there is none. -/
def tmod {α : Type} (t : Table α) (k : Nat) (d : α) (f : α → α) : Table α := tset k (f (tget t k d)) t

/-- The entries that satisfy `p`. -/
def tfilter {α : Type} (p : Nat → α → Bool) (t : Table α) : Table α := t.filter fun e => p e.1 e.2

/-- Every entry changed by `f`. -/
def tmap {α : Type} (f : Nat → α → α) (t : Table α) : Table α := t.map fun e => (e.1, f e.1 e.2)

/-- The first element that satisfies `p` changed by `f`. -/
def updFirst {α : Type} (p : α → Bool) (f : α → α) : List α → List α
  | [] => []
  | a :: r => if p a then f a :: r else a :: updFirst p f r

/-- The list without its first element that satisfies `p`. -/
def dropFirst {α : Type} (p : α → Bool) : List α → List α
  | [] => []
  | a :: r => if p a then r else a :: dropFirst p r

/-- Element `n` of a list replaced. -/
def setAt {α : Type} (l : List α) (n : Nat) (v : α) : List α := l.set n v

/-- An element put before the first that it does not come after. -/
def insertBy {α : Type} (le : α → α → Bool) (a : α) : List α → List α
  | [] => [a]
  | b :: r => if le a b then a :: b :: r else b :: insertBy le a r

/-- A list sorted by `le`, equal elements in their order. -/
def sortBy {α : Type} (le : α → α → Bool) (l : List α) : List α := l.foldr (insertBy le) []

/-- The numbers 0 to n − 1 that satisfy `p`. -/
def upto (n : Nat) : List Nat := List.range n

/-- `f` applied for each element in order. -/
def each {α σ : Type} (l : List α) (f : α → σ → σ) (s : σ) : σ := l.foldl (fun t a => f a t) s

/-! ### Device time -/

/-- Nanoseconds to Tc, rounded up: 1 ns = 1.96608 Tc = 6144/3125 Tc (R21). -/
def nsToTc (ns : Nat) : Nat := ceilDiv (ns * 6144) 3125
/-- Microseconds to Tc, rounded up: 1,966.08 Tc (R21). -/
def usToTc (us : Nat) : Nat := ceilDiv (us * 49152) 25
/-- Milliseconds to Tc: 1,966,080 (R21). -/
def msToTc (ms : Nat) : Nat := ms * 1966080
/-- Seconds to Tc: 1,966,080,000 (R21). -/
def secToTc (s : Nat) : Nat := s * 1966080000
/-- Tc to nanoseconds, rounded down (R21). -/
def tcToNs (tc : Nat) : Nat := tc * 3125 / 6144

end Sys2Proof.Machine
end

