-- ==== Sys2Proof/Machine/Objects.lean ====
section
/-!
DEFINITION. The object dictionary of 19_object_dictionary.md: every object the chapters define, as one row
of type, access, size, default, range, unit, scope and persistence (R638 to R642), and a named key for each.
The rows follow the object tables of the chapters; the index map is Table 19-15.
-/
namespace Sys2Proof.Machine

/-- The types of Table 19-1. -/
inductive ObjTy where
  | bool | u8 | u16 | u32 | u64 | i8 | i16 | i32 | i64 | q15 | q31 | text | octets | time | loc | blob
deriving DecidableEq, Repr

/-- The access codes of R641. -/
inductive Acc where
  | ro | rw | wo | rws | const
deriving DecidableEq, Repr

/-- One row of a chapter's object table, for `count` indices `stride` apart and the subindices `subLo` to `subHi`. -/
structure ObjRow where
  base : Nat
  count : Nat
  stride : Nat
  subLo : Nat
  subHi : Nat
  ty : ObjTy
  acc : Acc
  size : Nat
  dflt : Nat
  lo : Int
  hi : Int
  tenant : Bool
  persist : Bool
  unit : Nat
  scalar : Bool
  name : String
deriving DecidableEq, Repr

/-- The key of a subindex: index × 1,024 + effective subindex (R650). -/
def okey (idx sub : Nat) : Nat := idx * 1024 + sub

/-- TEMPLATES_ENABLE, object 0x5000.01. -/
def kPlTemplatesEnable : Nat := okey (0x5000) (0x1)
/-- TEMPLATE_SLOTS, object 0x5000.02. -/
def kPlTemplateSlots : Nat := okey (0x5000) (0x2)
/-- GUARD_MARGIN, object 0x5000.03. -/
def kPlGuardMargin : Nat := okey (0x5000) (0x3)
/-- L_GATE, object 0x5000.04. -/
def kPlLGate : Nat := okey (0x5000) (0x4)
/-- L_QUAD, object 0x5000.05. -/
def kPlLQuad : Nat := okey (0x5000) (0x5)
/-- L_REL, object 0x5000.06. -/
def kPlLRel : Nat := okey (0x5000) (0x6)
/-- L_HOST, object 0x5000.07. -/
def kPlLHost : Nat := okey (0x5000) (0x7)
/-- TEMPLATE_STORE, object 0x5000.08. -/
def kPlTemplateStore : Nat := okey (0x5000) (0x8)
/-- POOL_SIZE, object 0x5000.09. -/
def kPlPoolSize : Nat := okey (0x5000) (0x9)
/-- PLACE_STATS, object 0x5001.01–.0A. -/
def kPlPlaceStats (i : Nat) : Nat := okey (0x5001) (0x1 + i)
/-- PU_QUEUE, object 0x5002.01–.04. -/
def kPlPuQueue (i : Nat) : Nat := okey (0x5002) (0x1 + i)
/-- RETIRED_PAGES, object 0x5003.01. -/
def kPlRetiredPages : Nat := okey (0x5003) (0x1)
/-- TRACE_ENABLE, object 0x5030.01. -/
def kTrTraceEnable : Nat := okey (0x5030) (0x1)
/-- TRACE_ADDR, object 0x5030.02. -/
def kTrTraceAddr : Nat := okey (0x5030) (0x2)
/-- TRACE_ENTRIES, object 0x5030.03. -/
def kTrTraceEntries : Nat := okey (0x5030) (0x3)
/-- TRACE_CI, object 0x5030.04. -/
def kTrTraceCi : Nat := okey (0x5030) (0x4)
/-- TRACE_HEAD, object 0x5030.05. -/
def kTrTraceHead : Nat := okey (0x5030) (0x5)
/-- TRACE_LOST, object 0x5030.06. -/
def kTrTraceLost : Nat := okey (0x5030) (0x6)
/-- SAGE_EPOCH, object 0x5040.00–.6B. -/
def kPlSageEpoch (i : Nat) : Nat := okey (0x5040) (0x0 + i)
/-- SAGE_STALE, object 0x5041.00–.6B. -/
def kPlSageStale (i : Nat) : Nat := okey (0x5041) (0x0 + i)
/-- ENGINE_EPOCH, object 0x5042.00–.77. -/
def kPlEngineEpoch (i : Nat) : Nat := okey (0x5042) (0x0 + i)
/-- ENGINE_STALE, object 0x5043.00–.77. -/
def kPlEngineStale (i : Nat) : Nat := okey (0x5043) (0x0 + i)
/-- SAGE_ROLE, object 0x5044.00–.6B. -/
def kPlSageRole (i : Nat) : Nat := okey (0x5044) (0x0 + i)
/-- ENGINE_ROLE, object 0x5045.00–.77. -/
def kPlEngineRole (i : Nat) : Nat := okey (0x5045) (0x0 + i)
/-- THR, object 0x5100.01–.10. -/
def kDiThr (i : Nat) : Nat := okey (0x5100) (0x1 + i)
/-- CLASS_BIAS, object 0x5101.01–.0C. -/
def kDiClassBias (i : Nat) : Nat := okey (0x5101) (0x1 + i)
/-- FLOW_BACKLOG, object 0x5102.01. -/
def kDiFlowBacklog : Nat := okey (0x5102) (0x1)
/-- WATCHDOG, object 0x5102.02. -/
def kDiWatchdog : Nat := okey (0x5102) (0x2)
/-- ID_QUARANTINE, object 0x5102.03. -/
def kDiIdQuarantine : Nat := okey (0x5102) (0x3)
/-- LEVEL_TICK, object 0x5102.04. -/
def kDiLevelTick : Nat := okey (0x5102) (0x4)
/-- CONTEXT_CYCLES, object 0x5102.05. -/
def kDiContextCycles : Nat := okey (0x5102) (0x5)
/-- READY_DEPTH, object 0x5103.00–.2F. -/
def kDiReadyDepth (i : Nat) : Nat := okey (0x5103) (0x0 + i)
/-- HELD_READY, object 0x5104.01–.04. -/
def kDiHeldReady (i : Nat) : Nat := okey (0x5104) (0x1 + i)
/-- FLOWS_ACTIVE, object 0x5105.01–.04. -/
def kDiFlowsActive (i : Nat) : Nat := okey (0x5105) (0x1 + i)
/-- IDS_IN_USE, object 0x5106.00–.200. -/
def kDiIdsInUse (i : Nat) : Nat := okey (0x5106) (0x0 + i)
/-- DISPATCH_STATS, object 0x5107.01–.0A. -/
def kDiDispatchStats (i : Nat) : Nat := okey (0x5107) (0x1 + i)
/-- STATE, object T+0.01. -/
def kTeState (n : Nat) : Nat := okey (0x8000 + 16 * n) (0x1)
/-- CONTROL, object T+0.02. -/
def kTeControl (n : Nat) : Nat := okey (0x8000 + 16 * n) (0x2)
/-- FUNCTION, object T+0.03. -/
def kTeFunction (n : Nat) : Nat := okey (0x8000 + 16 * n) (0x3)
/-- CI_ASSIGN, object T+0.04. -/
def kTeCiAssign (n : Nat) : Nat := okey (0x8000 + 16 * n) (0x4)
/-- CI_REMOVE, object T+0.05. -/
def kTeCiRemove (n : Nat) : Nat := okey (0x8000 + 16 * n) (0x5)
/-- CI_MAP, object T+0.06. -/
def kTeCiMap (n : Nat) : Nat := okey (0x8000 + 16 * n) (0x6)
/-- NAME, object T+0.07. -/
def kTeName (n : Nat) : Nat := okey (0x8000 + 16 * n) (0x7)
/-- SAGE_US, object T+1.01. -/
def kTeSageUs (n : Nat) : Nat := okey (0x8001 + 16 * n) (0x1)
/-- ENGINE_US, object T+1.02–.0B. -/
def kTeEngineUs (n i : Nat) : Nat := okey (0x8001 + 16 * n) (0x2 + i)
/-- DMA_US, object T+1.0C. -/
def kTeDmaUs (n : Nat) : Nat := okey (0x8001 + 16 * n) (0xc)
/-- DRAM_TOKENS, object T+1.0D. -/
def kTeDramTokens (n : Nat) : Nat := okey (0x8001 + 16 * n) (0xd)
/-- NOC_SLOTS, object T+1.0E. -/
def kTeNocSlots (n : Nat) : Nat := okey (0x8001 + 16 * n) (0xe)
/-- QUOTA_T0–T3, object T+1.0F–.12. -/
def kTeQuota (n i : Nat) : Nat := okey (0x8001 + 16 * n) (0xf + i)
/-- CHARGED, object T+1.21–.2E. -/
def kTeCharged (n i : Nat) : Nat := okey (0x8001 + 16 * n) (0x21 + i)
/-- HELD_T0–T3, object T+1.2F–.32. -/
def kTeHeld (n i : Nat) : Nat := okey (0x8001 + 16 * n) (0x2f + i)
/-- LEAD_TIME, object T+3.01. -/
def kTeLeadTime (n : Nat) : Nat := okey (0x8003 + 16 * n) (0x1)
/-- AHEAD_LIMIT, object T+3.02. -/
def kTeAheadLimit (n : Nat) : Nat := okey (0x8003 + 16 * n) (0x2)
/-- CODE_COUNT, object T+4.01–.0C. -/
def kTeCodeCount (n i : Nat) : Nat := okey (0x8004 + 16 * n) (0x1 + i)
/-- GRAPHS_ACCEPTED, object T+4.0D. -/
def kTeGraphsAccepted (n : Nat) : Nat := okey (0x8004 + 16 * n) (0xd)
/-- GRAPHS_REFUSED, object T+4.0E. -/
def kTeGraphsRefused (n : Nat) : Nat := okey (0x8004 + 16 * n) (0xe)
/-- BEST_EFFORT_JOBS, object T+4.0F. -/
def kTeBestEffortJobs (n : Nat) : Nat := okey (0x8004 + 16 * n) (0xf)
/-- OVERRUN, object T+4.10. -/
def kTeOverrun (n : Nat) : Nat := okey (0x8004 + 16 * n) (0x10)
/-- CROSS_WAIT, object T+4.11. -/
def kTeCrossWait (n : Nat) : Nat := okey (0x8004 + 16 * n) (0x11)
/-- CROSS_WAIT_MAX, object T+4.12. -/
def kTeCrossWaitMax (n : Nat) : Nat := okey (0x8004 + 16 * n) (0x12)
/-- DEBT_WINDOWS, object T+4.13. -/
def kTeDebtWindows (n : Nat) : Nat := okey (0x8004 + 16 * n) (0x13)
/-- FLOW_LIMIT, object T+5.01. -/
def kTeFlowLimit (n : Nat) : Nat := okey (0x8005 + 16 * n) (0x1)
/-- FLOWS_ACTIVE, object T+5.02. -/
def kTeFlowsActive (n : Nat) : Nat := okey (0x8005 + 16 * n) (0x2)
/-- POLICY, object T+6.01. -/
def kTePolicy (n : Nat) : Nat := okey (0x8006 + 16 * n) (0x1)
/-- MODE, object T+6.02. -/
def kTeMode (n : Nat) : Nat := okey (0x8006 + 16 * n) (0x2)
/-- PIN_POLICY, object T+6.03. -/
def kTePinPolicy (n : Nat) : Nat := okey (0x8006 + 16 * n) (0x3)
/-- DEDICATE, object T+6.04. -/
def kTeDedicate (n : Nat) : Nat := okey (0x8006 + 16 * n) (0x4)
/-- RELEASE_UNIT, object T+6.05. -/
def kTeReleaseUnit (n : Nat) : Nat := okey (0x8006 + 16 * n) (0x5)
/-- DEDICATED, object T+6.06. -/
def kTeDedicated (n : Nat) : Nat := okey (0x8006 + 16 * n) (0x6)
/-- ENTRY_SELECT, object 0x5400.01. -/
def kPtEntrySelect : Nat := okey (0x5400) (0x1)
/-- ENTRY, object 0x5400.02. -/
def kPtEntry : Nat := okey (0x5400) (0x2)
/-- ENTRY_WRITE, object 0x5400.03. -/
def kPtEntryWrite : Nat := okey (0x5400) (0x3)
/-- VALID_COUNT, object 0x5400.04. -/
def kPtValidCount : Nat := okey (0x5400) (0x4)
/-- IMEM_RESIDENT, object K+0.01. -/
def kClImemResident (n : Nat) : Nat := okey (0x5200 + 16 * n) (0x1)
/-- DMEM_STATIC, object K+0.02. -/
def kClDmemStatic (n : Nat) : Nat := okey (0x5200 + 16 * n) (0x2)
/-- EXCEPTIONS, object K+1.01–.05. -/
def kClExceptions (n i : Nat) : Nat := okey (0x5201 + 16 * n) (0x1 + i)
/-- XFER_BYTES, object K+2.01–.09. -/
def kClXferBytes (n i : Nat) : Nat := okey (0x5202 + 16 * n) (0x1 + i)
/-- VGATE_IDLE, object K+8.01. -/
def kClVgateIdle (n : Nat) : Nat := okey (0x5208 + 16 * n) (0x1)
/-- VWAKE_CYCLES, object K+8.02. -/
def kClVwakeCycles (n : Nat) : Nat := okey (0x5208 + 16 * n) (0x2)
/-- VWAKES, object K+8.03–.0B. -/
def kClVwakes (n i : Nat) : Nat := okey (0x5208 + 16 * n) (0x3 + i)
/-- CMC_HOLD_LIMIT, object K+9.01. -/
def kClCmcHoldLimit (n : Nat) : Nat := okey (0x5209 + 16 * n) (0x1)
/-- CMC_RESERVE, object K+9.02. -/
def kClCmcReserve (n : Nat) : Nat := okey (0x5209 + 16 * n) (0x2)
/-- CMC_CLAIMS, object K+9.03. -/
def kClCmcClaims (n : Nat) : Nat := okey (0x5209 + 16 * n) (0x3)
/-- CMC_REFUSALS, object K+9.04. -/
def kClCmcRefusals (n : Nat) : Nat := okey (0x5209 + 16 * n) (0x4)
/-- CMC_REVOKES, object K+9.05. -/
def kClCmcRevokes (n : Nat) : Nat := okey (0x5209 + 16 * n) (0x5)
/-- CMC_HOLD_MAX, object K+9.06. -/
def kClCmcHoldMax (n : Nat) : Nat := okey (0x5209 + 16 * n) (0x6)
/-- CMC_STATE, object K+9.07. -/
def kClCmcState (n : Nat) : Nat := okey (0x5209 + 16 * n) (0x7)
/-- MAINT_REQUEST, object K+10.01. -/
def kClMaintRequest (n : Nat) : Nat := okey (0x520a + 16 * n) (0x1)
/-- MAINT_MASK, object K+10.02. -/
def kClMaintMask (n : Nat) : Nat := okey (0x520a + 16 * n) (0x2)
/-- SELFTEST, object K+10.03–.0B. -/
def kClSelftest (n i : Nat) : Nat := okey (0x520a + 16 * n) (0x3 + i)
/-- LDD_CAP_SET, object 0x5306.01. -/
def kEnLddCapSet : Nat := okey (0x5306) (0x1)
/-- LDD_CAP, object 0x5306.02. -/
def kEnLddCap : Nat := okey (0x5306) (0x2)
/-- LDD_C_IT, object 0x5306.03. -/
def kEnLddCIt : Nat := okey (0x5306) (0x3)
/-- SB_COUNT, object 0x5307.01. -/
def kEnSbCount : Nat := okey (0x5307) (0x1)
/-- SB_NCB_MAX, object 0x5307.02. -/
def kEnSbNcbMax : Nat := okey (0x5307) (0x2)
/-- SB_SLOT_SIZE, object 0x5307.03. -/
def kEnSbSlotSize : Nat := okey (0x5307) (0x3)
/-- SB_REGION, object 0x5307.04. -/
def kEnSbRegion : Nat := okey (0x5307) (0x4)
/-- SB_VALID, object 0x5307.05. -/
def kEnSbValid : Nat := okey (0x5307) (0x5)
/-- SB_QUOTA_SET, object 0x5307.06. -/
def kEnSbQuotaSet : Nat := okey (0x5307) (0x6)
/-- SB_QUOTA, object 0x5307.07. -/
def kEnSbQuota : Nat := okey (0x5307) (0x7)
/-- SB_BASE, object 0x5307.08. -/
def kEnSbBase : Nat := okey (0x5307) (0x8)
/-- JOBS, object K+k.01. -/
def kEncJobs (g k : Nat) : Nat := okey (0x5300 + 16 * g + k) (0x1)
/-- BLOCKS, object K+k.02. -/
def kEncBlocks (g k : Nat) : Nat := okey (0x5300 + 16 * g + k) (0x2)
/-- FAILS, object K+k.03. -/
def kEncFails (g k : Nat) : Nat := okey (0x5300 + 16 * g + k) (0x3)
/-- ITER_SUM, object K+k.04. -/
def kEncIterSum (g k : Nat) : Nat := okey (0x5300 + 16 * g + k) (0x4)
/-- PARAM_ERRORS, object K+k.05. -/
def kEncParamErrors (g k : Nat) : Nat := okey (0x5300 + 16 * g + k) (0x5)
/-- FFE_JOBS, object K+8.01. -/
def kEnFfeJobs (n : Nat) : Nat := okey (0x5308 + 16 * n) (0x1)
/-- FFE_TRANSFORMS, object K+8.02. -/
def kEnFfeTransforms (n : Nat) : Nat := okey (0x5308 + 16 * n) (0x2)
/-- FFE_SATURATIONS, object K+8.03. -/
def kEnFfeSaturations (n : Nat) : Nat := okey (0x5308 + 16 * n) (0x3)
/-- PRACH_DETECTIONS, object K+8.04. -/
def kEnPrachDetections (n : Nat) : Nat := okey (0x5308 + 16 * n) (0x4)
/-- FFE_PARAM_ERRORS, object K+8.05. -/
def kEnFfeParamErrors (n : Nat) : Nat := okey (0x5308 + 16 * n) (0x5)
/-- CONTEXT_RECORDS, object K+8.06. -/
def kEnContextRecords (n : Nat) : Nat := okey (0x5308 + 16 * n) (0x6)
/-- EQE_JOBS, object K+9.01. -/
def kEnEqeJobs (n : Nat) : Nat := okey (0x5309 + 16 * n) (0x1)
/-- EQE_RES, object K+9.02. -/
def kEnEqeRes (n : Nat) : Nat := okey (0x5309 + 16 * n) (0x2)
/-- EQE_SATURATIONS, object K+9.03. -/
def kEnEqeSaturations (n : Nat) : Nat := okey (0x5309 + 16 * n) (0x3)
/-- IRC_FALLBACK, object K+9.04. -/
def kEnIrcFallback (n : Nat) : Nat := okey (0x5309 + 16 * n) (0x4)
/-- EQE_PARAM_ERRORS, object K+9.05. -/
def kEnEqeParamErrors (n : Nat) : Nat := okey (0x5309 + 16 * n) (0x5)
/-- BWE_JOBS, object K+10.01. -/
def kEnBweJobs (n : Nat) : Nat := okey (0x530a + 16 * n) (0x1)
/-- BWE_MATRICES, object K+10.02. -/
def kEnBweMatrices (n : Nat) : Nat := okey (0x530a + 16 * n) (0x2)
/-- RANK_DEFICIENT, object K+10.03. -/
def kEnRankDeficient (n : Nat) : Nat := okey (0x530a + 16 * n) (0x3)
/-- BWE_SATURATIONS, object K+10.04. -/
def kEnBweSaturations (n : Nat) : Nat := okey (0x530a + 16 * n) (0x4)
/-- BWE_PARAM_ERRORS, object K+10.05. -/
def kEnBweParamErrors (n : Nat) : Nat := okey (0x530a + 16 * n) (0x5)
/-- BUCKETS, object 0x6100.01. -/
def kIdBuckets : Nat := okey (0x6100) (0x1)
/-- SEED, object 0x6100.02. -/
def kIdSeed : Nat := okey (0x6100) (0x2)
/-- ENTRIES, object 0x6100.03. -/
def kIdEntries : Nat := okey (0x6100) (0x3)
/-- IDT_REBUILD, object 0x6100.04. -/
def kIdIdtRebuild : Nat := okey (0x6100) (0x4)
/-- REBUILD_STATE, object 0x6100.05. -/
def kIdRebuildState : Nat := okey (0x6100) (0x5)
/-- CURSOR, object 0x6100.06. -/
def kIdCursor : Nat := okey (0x6100) (0x6)
/-- NEW_BUCKETS, object 0x6100.07. -/
def kIdNewBuckets : Nat := okey (0x6100) (0x7)
/-- MIGRATE_RATE, object 0x6100.08. -/
def kIdMigrateRate : Nat := okey (0x6100) (0x8)
/-- BUCKETS_MAX, object 0x6100.09. -/
def kIdBucketsMax : Nat := okey (0x6100) (0x9)
/-- REGION, object 0x6100.0A. -/
def kIdRegion : Nat := okey (0x6100) (0xa)
/-- SEQUENCER, object 0x6100.0B. -/
def kIdSequencer : Nat := okey (0x6100) (0xb)
/-- IDS_IN_USE, object 0x6100.0C. -/
def kIdIdsInUse : Nat := okey (0x6100) (0xc)
/-- IDS_QUARANTINED, object 0x6100.0D. -/
def kIdIdsQuarantined : Nat := okey (0x6100) (0xd)
/-- INSERT_FULL, object 0x6100.0E. -/
def kIdInsertFull : Nat := okey (0x6100) (0xe)
/-- ENTRIES_LOST, object 0x6100.0F. -/
def kIdEntriesLost : Nat := okey (0x6100) (0xf)
/-- ID_QUARANTINE, object 0x6100.10. -/
def kIdIdQuarantine : Nat := okey (0x6100) (0x10)
/-- BUCKETS_MAX_NOW, object 0x6100.11. -/
def kIdBucketsMaxNow : Nat := okey (0x6100) (0x11)
/-- BIND_SET, object T+7.01. -/
def kTeBindSet (n : Nat) : Nat := okey (0x8007 + 16 * n) (0x1)
/-- BINDING0–3, object T+7.02–.05. -/
def kTeBinding (n i : Nat) : Nat := okey (0x8007 + 16 * n) (0x2 + i)
/-- UNBIND, object T+7.06. -/
def kTeUnbind (n : Nat) : Nat := okey (0x8007 + 16 * n) (0x6)
/-- RES_SET, object T+7.07. -/
def kTeResSet (n : Nat) : Nat := okey (0x8007 + 16 * n) (0x7)
/-- RESOURCES0–3, object T+7.08–.0B. -/
def kTeResources (n i : Nat) : Nat := okey (0x8007 + 16 * n) (0x8 + i)
/-- BIND_STATE, object T+7.0C. -/
def kTeBindState (n : Nat) : Nat := okey (0x8007 + 16 * n) (0xc)
/-- IDT_QUOTA, object T+7.0D. -/
def kTeIdtQuota (n : Nat) : Nat := okey (0x8007 + 16 * n) (0xd)
/-- IDT_ENTRIES, object T+7.0E. -/
def kTeIdtEntries (n : Nat) : Nat := okey (0x8007 + 16 * n) (0xe)
/-- STATE, object K+0.01. -/
def kMaState (n : Nat) : Nat := okey (0x6000 + 16 * n) (0x1)
/-- CHANNELS_USED, object K+0.02. -/
def kMaChannelsUsed (n : Nat) : Nat := okey (0x6000 + 16 * n) (0x2)
/-- INPUTS_USED, object K+0.03. -/
def kMaInputsUsed (n : Nat) : Nat := okey (0x6000 + 16 * n) (0x3)
/-- BINDINGS, object K+0.04. -/
def kMaBindings (n : Nat) : Nat := okey (0x6000 + 16 * n) (0x4)
/-- RESOURCES_USED, object K+0.05. -/
def kMaResourcesUsed (n : Nat) : Nat := okey (0x6000 + 16 * n) (0x5)
/-- COUNTS, object K+1.01–.0D. -/
def kMaCounts (n i : Nat) : Nat := okey (0x6001 + 16 * n) (0x1 + i)
/-- LOOKUP_RATE, object K+2.01. -/
def kMaLookupRate (n : Nat) : Nat := okey (0x6002 + 16 * n) (0x1)
/-- LOOKUP_QUEUE, object K+2.02. -/
def kMaLookupQueue (n : Nat) : Nat := okey (0x6002 + 16 * n) (0x2)
/-- LOOKUP_DEPTH_MAX, object K+2.03. -/
def kMaLookupDepthMax (n : Nat) : Nat := okey (0x6002 + 16 * n) (0x3)
/-- REC_LATENCY_S, object K+2.04. -/
def kMaRecLatencyS (n : Nat) : Nat := okey (0x6002 + 16 * n) (0x4)
/-- REC_LATENCY_E, object K+2.05. -/
def kMaRecLatencyE (n : Nat) : Nat := okey (0x6002 + 16 * n) (0x5)
/-- SCAN_START, object 0xA000+n.01. -/
def kScScanStart (n : Nat) : Nat := okey (0xa000 + n) (0x1)
/-- SCAN_STATE, object 0xA000+n.02. -/
def kScScanState (n : Nat) : Nat := okey (0xa000 + n) (0x2)
/-- SCAN_RESULT, object 0xA000+n.03. -/
def kScScanResult (n : Nat) : Nat := okey (0xa000 + n) (0x3)
/-- SCAN_ABORT, object 0xA000+n.04. -/
def kScScanAbort (n : Nat) : Nat := okey (0xa000 + n) (0x4)
/-- LOC, object L+0.01. -/
def kLaLoc (n : Nat) : Nat := okey (0x3000 + 16 * n) (0x1)
/-- CPRI_CAPABLE, object L+0.02. -/
def kLaCpriCapable (n : Nat) : Nat := okey (0x3000 + 16 * n) (0x2)
/-- STATE, object L+0.03. -/
def kLaState (n : Nat) : Nat := okey (0x3000 + 16 * n) (0x3)
/-- REQ_STATE, object L+0.04. -/
def kLaReqState (n : Nat) : Nat := okey (0x3000 + 16 * n) (0x4)
/-- LINK_FLAGS, object L+0.05. -/
def kLaLinkFlags (n : Nat) : Nat := okey (0x3000 + 16 * n) (0x5)
/-- TEMP, object L+0.06. -/
def kLaTemp (n : Nat) : Nat := okey (0x3000 + 16 * n) (0x6)
/-- RATE, object L+1.01. -/
def kLaRate (n : Nat) : Nat := okey (0x3001 + 16 * n) (0x1)
/-- TX_INVERT, object L+1.02. -/
def kLaTxInvert (n : Nat) : Nat := okey (0x3001 + 16 * n) (0x2)
/-- RX_INVERT, object L+1.03. -/
def kLaRxInvert (n : Nat) : Nat := okey (0x3001 + 16 * n) (0x3)
/-- PRECODE, object L+1.04. -/
def kLaPrecode (n : Nat) : Nat := okey (0x3001 + 16 * n) (0x4)
/-- LOOPBACK, object L+1.05. -/
def kLaLoopback (n : Nat) : Nat := okey (0x3001 + 16 * n) (0x5)
/-- PRBS_GEN, object L+1.06. -/
def kLaPrbsGen (n : Nat) : Nat := okey (0x3001 + 16 * n) (0x6)
/-- PRBS_CHK, object L+1.07. -/
def kLaPrbsChk (n : Nat) : Nat := okey (0x3001 + 16 * n) (0x7)
/-- TX_SWING, object L+2.01. -/
def kLaTxSwing (n : Nat) : Nat := okey (0x3002 + 16 * n) (0x1)
/-- C_PRE2, C_PRE1, C_MAIN, C_POST, object L+2.02–.05. -/
def kLaTap (n i : Nat) : Nat := okey (0x3002 + 16 * n) (0x2 + i)
/-- CTLE_MODE, object L+3.01. -/
def kLaCtleMode (n : Nat) : Nat := okey (0x3003 + 16 * n) (0x1)
/-- CTLE_CODE, object L+3.02. -/
def kLaCtleCode (n : Nat) : Nat := okey (0x3003 + 16 * n) (0x2)
/-- VGA, object L+3.03. -/
def kLaVga (n : Nat) : Nat := okey (0x3003 + 16 * n) (0x3)
/-- DFE_MODE, object L+3.04. -/
def kLaDfeMode (n : Nat) : Nat := okey (0x3003 + 16 * n) (0x4)
/-- DFE_TAPS, object L+3.05. -/
def kLaDfeTaps (n : Nat) : Nat := okey (0x3003 + 16 * n) (0x5)
/-- CDR_BW, object L+3.06. -/
def kLaCdrBw (n : Nat) : Nat := okey (0x3003 + 16 * n) (0x6)
/-- CDR_BW_NOW, object L+3.07. -/
def kLaCdrBwNow (n : Nat) : Nat := okey (0x3003 + 16 * n) (0x7)
/-- CAL_RECORD, object L+4.01. -/
def kLaCalRecord (n : Nat) : Nat := okey (0x3004 + 16 * n) (0x1)
/-- WIN_TEMP, object L+4.02. -/
def kLaWinTemp (n : Nat) : Nat := okey (0x3004 + 16 * n) (0x2)
/-- WIN_SUPPLY, object L+4.03. -/
def kLaWinSupply (n : Nat) : Nat := okey (0x3004 + 16 * n) (0x3)
/-- WIN_AGE, object L+4.04. -/
def kLaWinAge (n : Nat) : Nat := okey (0x3004 + 16 * n) (0x4)
/-- RECENTRE, object L+4.05. -/
def kLaRecentre (n : Nat) : Nat := okey (0x3004 + 16 * n) (0x5)
/-- LOAD_CLASS, object L+4.06. -/
def kLaLoadClass (n : Nat) : Nat := okey (0x3004 + 16 * n) (0x6)
/-- LANE_STATS, object L+5.01–.0B. -/
def kLaLaneStats (n i : Nat) : Nat := okey (0x3005 + 16 * n) (0x1 + i)
/-- AM_LOCKED, object L+6.01. -/
def kLaAmLocked (n : Nat) : Nat := okey (0x3006 + 16 * n) (0x1)
/-- SKEW, object L+6.02. -/
def kLaSkew (n : Nat) : Nat := okey (0x3006 + 16 * n) (0x2)
/-- PRBS_BITS, object L+7.01. -/
def kLaPrbsBits (n : Nat) : Nat := okey (0x3007 + 16 * n) (0x1)
/-- PRBS_ERRORS, object L+7.02. -/
def kLaPrbsErrors (n : Nat) : Nat := okey (0x3007 + 16 * n) (0x2)
/-- PRBS_LOCKED, object L+7.03. -/
def kLaPrbsLocked (n : Nat) : Nat := okey (0x3007 + 16 * n) (0x3)
/-- PRBS_CLEAR, object L+7.04. -/
def kLaPrbsClear (n : Nat) : Nat := okey (0x3007 + 16 * n) (0x4)
/-- STATE, object P+0.01. -/
def kPoState (n : Nat) : Nat := okey (0x3400 + 16 * n) (0x1)
/-- MODE, object P+0.02. -/
def kPoMode (n : Nat) : Nat := okey (0x3400 + 16 * n) (0x2)
/-- MTU, object P+0.03. -/
def kPoMtu (n : Nat) : Nat := okey (0x3400 + 16 * n) (0x3)
/-- MAC_ADDR, object P+1.01. -/
def kPoMacAddr (n : Nat) : Nat := okey (0x3401 + 16 * n) (0x1)
/-- PEER_MAC, object P+1.02. -/
def kPoPeerMac (n : Nat) : Nat := okey (0x3401 + 16 * n) (0x2)
/-- VLAN_TCI, object P+1.03. -/
def kPoVlanTci (n : Nat) : Nat := okey (0x3401 + 16 * n) (0x3)
/-- VLAN_ID, object P+1.04. -/
def kPoVlanId (n : Nat) : Nat := okey (0x3401 + 16 * n) (0x4)
/-- ENCAP, object P+1.05. -/
def kPoEncap (n : Nat) : Nat := okey (0x3401 + 16 * n) (0x5)
/-- IP_ADDR, object P+1.06. -/
def kPoIpAddr (n : Nat) : Nat := okey (0x3401 + 16 * n) (0x6)
/-- PEER_IP, object P+1.07. -/
def kPoPeerIp (n : Nat) : Nat := okey (0x3401 + 16 * n) (0x7)
/-- UDP_PORT, object P+1.08. -/
def kPoUdpPort (n : Nat) : Nat := okey (0x3401 + 16 * n) (0x8)
/-- COMP_METHOD, object P+2.01. -/
def kPoCompMethod (n : Nat) : Nat := okey (0x3402 + 16 * n) (0x1)
/-- COMP_MANT, object P+2.02. -/
def kPoCompMant (n : Nat) : Nat := okey (0x3402 + 16 * n) (0x2)
/-- COMP_HDR, object P+2.03. -/
def kPoCompHdr (n : Nat) : Nat := okey (0x3402 + 16 * n) (0x3)
/-- RX_CLOSE, object P+2.04. -/
def kPoRxClose (n : Nat) : Nat := okey (0x3402 + 16 * n) (0x4)
/-- TX_OPEN, object P+2.05. -/
def kPoTxOpen (n : Nat) : Nat := okey (0x3402 + 16 * n) (0x5)
/-- TX_CLOSE, object P+2.06. -/
def kPoTxClose (n : Nat) : Nat := okey (0x3402 + 16 * n) (0x6)
/-- TX_ADVANCE, object P+2.07. -/
def kPoTxAdvance (n : Nat) : Nat := okey (0x3402 + 16 * n) (0x7)
/-- CP_ADV_MAX, object P+2.08. -/
def kPoCpAdvMax (n : Nat) : Nat := okey (0x3402 + 16 * n) (0x8)
/-- CP_ADV_MIN, object P+2.09. -/
def kPoCpAdvMin (n : Nat) : Nat := okey (0x3402 + 16 * n) (0x9)
/-- AXC_DESC, object P+6.01–.10. -/
def kPoAxcDesc (n i : Nat) : Nat := okey (0x3406 + 16 * n) (0x1 + i)
/-- AXC_BIND, object P+7.01. -/
def kPoAxcBind (n : Nat) : Nat := okey (0x3407 + 16 * n) (0x1)
/-- AXC_UNBIND, object P+7.02. -/
def kPoAxcUnbind (n : Nat) : Nat := okey (0x3407 + 16 * n) (0x2)
/-- PTP_STEP, object P+8.01. -/
def kPoPtpStep (n : Nat) : Nat := okey (0x3408 + 16 * n) (0x1)
/-- PTP_ASYM, object P+8.02. -/
def kPoPtpAsym (n : Nat) : Nat := okey (0x3408 + 16 * n) (0x2)
/-- ESMC_TX, object P+8.03. -/
def kPoEsmcTx (n : Nat) : Nat := okey (0x3408 + 16 * n) (0x3)
/-- SSM_RX, object P+8.04. -/
def kPoSsmRx (n : Nat) : Nat := okey (0x3408 + 16 * n) (0x4)
/-- OWDM_START, object P+8.05. -/
def kPoOwdmStart (n : Nat) : Nat := okey (0x3408 + 16 * n) (0x5)
/-- OWDM_RESULT, object P+8.06. -/
def kPoOwdmResult (n : Nat) : Nat := okey (0x3408 + 16 * n) (0x6)
/-- CPRI_RTD, object P+8.07. -/
def kPoCpriRtd (n : Nat) : Nat := okey (0x3408 + 16 * n) (0x7)
/-- PORT_STATS, object P+10.01–.10. -/
def kPoPortStats (n i : Nat) : Nat := okey (0x340a + 16 * n) (0x1 + i)
/-- STATE, object 0x2000.01. -/
def kTiState : Nat := okey (0x2000) (0x1)
/-- SELECTED, object 0x2000.02. -/
def kTiSelected : Nat := okey (0x2000) (0x2)
/-- LOOP_MODE, object 0x2000.03. -/
def kTiLoopMode : Nat := okey (0x2000) (0x3)
/-- LOOP_BW, object 0x2000.04. -/
def kTiLoopBw : Nat := okey (0x2000) (0x4)
/-- SEL_MODE, object 0x2000.05. -/
def kTiSelMode : Nat := okey (0x2000) (0x5)
/-- REVERTIVE, object 0x2000.06. -/
def kTiRevertive : Nat := okey (0x2000) (0x6)
/-- FORCE_REF, object 0x2000.07. -/
def kTiForceRef : Nat := okey (0x2000) (0x7)
/-- CV, object 0x2000.08. -/
def kTiCv : Nat := okey (0x2000) (0x8)
/-- SW_FREQ, object 0x2000.09. -/
def kTiSwFreq : Nat := okey (0x2000) (0x9)
/-- PHASE_ERR, object 0x2000.0A. -/
def kTiPhaseErr : Nat := okey (0x2000) (0xa)
/-- FREQ_ERR, object 0x2000.0B. -/
def kTiFreqErr : Nat := okey (0x2000) (0xb)
/-- HO_WIN, object 0x2001.01. -/
def kTiHoWin : Nat := okey (0x2001) (0x1)
/-- HO_GUARD, object 0x2001.02. -/
def kTiHoGuard : Nat := okey (0x2001) (0x2)
/-- HO_CV, object 0x2001.03. -/
def kTiHoCv : Nat := okey (0x2001) (0x3)
/-- HO_FREQ_UNC, object 0x2001.04. -/
def kTiHoFreqUnc : Nat := okey (0x2001) (0x4)
/-- OSC_AGING, object 0x2001.05. -/
def kTiOscAging : Nat := okey (0x2001) (0x5)
/-- HO_SPEC, object 0x2001.06. -/
def kTiHoSpec : Nat := okey (0x2001) (0x6)
/-- OSC_FREQ, object 0x2002.01. -/
def kTiOscFreq : Nat := okey (0x2002) (0x1)
/-- OSC_SUSPECT, object 0x2002.02. -/
def kTiOscSuspect : Nat := okey (0x2002) (0x2)
/-- DTC, object 0x2003.01. -/
def kTiDtc : Nat := okey (0x2003) (0x1)
/-- UPTIME, object 0x2003.02. -/
def kTiUptime : Nat := okey (0x2003) (0x2)
/-- STC, object 0x2003.03. -/
def kTiStc : Nat := okey (0x2003) (0x3)
/-- STC_K, object 0x2003.04. -/
def kTiStcK : Nat := okey (0x2003) (0x4)
/-- STC_K_UNC, object 0x2003.05. -/
def kTiStcKUnc : Nat := okey (0x2003) (0x5)
/-- STC_DRIFT, object 0x2003.06. -/
def kTiStcDrift : Nat := okey (0x2003) (0x6)
/-- DTC_ADJUST, object 0x2003.07. -/
def kTiDtcAdjust : Nat := okey (0x2003) (0x7)
/-- SLEW_REMAIN, object 0x2003.08. -/
def kTiSlewRemain : Nat := okey (0x2003) (0x8)
/-- TIME_QUALITY, object 0x2003.09. -/
def kTiTimeQuality : Nat := okey (0x2003) (0x9)
/-- UTC_OFFSET, object 0x2003.0A. -/
def kTiUtcOffset : Nat := okey (0x2003) (0xa)
/-- PPS_OUT_OFS, object 0x2004.01. -/
def kTiPpsOutOfs : Nat := okey (0x2004) (0x1)
/-- PPS_WIDTH, object 0x2004.02. -/
def kTiPpsWidth : Nat := okey (0x2004) (0x2)
/-- FRAME_OUT_OFS, object 0x2004.03. -/
def kTiFrameOutOfs : Nat := okey (0x2004) (0x3)
/-- TDD_PERIOD, object 0x2004.04. -/
def kTiTddPeriod : Nat := okey (0x2004) (0x4)
/-- TDD_MU, object 0x2004.05. -/
def kTiTddMu : Nat := okey (0x2004) (0x5)
/-- TDD_MASK, object 0x2004.06. -/
def kTiTddMask : Nat := okey (0x2004) (0x6)
/-- TDD_ADV, object 0x2004.07. -/
def kTiTddAdv : Nat := okey (0x2004) (0x7)
/-- SCLK_DIV0, SCLK_DIV1, object 0x2004.08, .09. -/
def kTiSclkDiv (i : Nat) : Nat := okey (0x2004) (0x8 + i)
/-- PTP_PORT, object 0x2005.01. -/
def kTiPtpPort : Nat := okey (0x2005) (0x1)
/-- PTP_PROFILE, object 0x2005.02. -/
def kTiPtpProfile : Nat := okey (0x2005) (0x2)
/-- PTP_DOMAIN, object 0x2005.03. -/
def kTiPtpDomain : Nat := okey (0x2005) (0x3)
/-- PTP_TX_MASK, object 0x2005.04. -/
def kTiPtpTxMask : Nat := okey (0x2005) (0x4)
/-- CLASS_LOCKED, object 0x2005.05. -/
def kTiClassLocked : Nat := okey (0x2005) (0x5)
/-- CLASS_NOW, object 0x2005.06. -/
def kTiClassNow : Nat := okey (0x2005) (0x6)
/-- TOD_BAUD, object 0x2005.07. -/
def kTiTodBaud : Nat := okey (0x2005) (0x7)
/-- KIND, object 0x2010+r.01. -/
def kReKind (n : Nat) : Nat := okey (0x2010 + n) (0x1)
/-- ENABLE, object 0x2010+r.02. -/
def kReEnable (n : Nat) : Nat := okey (0x2010 + n) (0x2)
/-- PRIORITY, object 0x2010+r.03. -/
def kRePriority (n : Nat) : Nat := okey (0x2010 + n) (0x3)
/-- STATE, object 0x2010+r.04. -/
def kReState (n : Nat) : Nat := okey (0x2010 + n) (0x4)
/-- FLAGS, object 0x2010+r.05. -/
def kReFlags (n : Nat) : Nat := okey (0x2010 + n) (0x5)
/-- DISQ, object 0x2010+r.06. -/
def kReDisq (n : Nat) : Nat := okey (0x2010 + n) (0x6)
/-- SOAK, object 0x2010+r.07. -/
def kReSoak (n : Nat) : Nat := okey (0x2010 + n) (0x7)
/-- WTR_TIME, object 0x2010+r.08. -/
def kReWtrTime (n : Nat) : Nat := okey (0x2010 + n) (0x8)
/-- QL_FIXED, object 0x2010+r.09. -/
def kReQlFixed (n : Nat) : Nat := okey (0x2010 + n) (0x9)
/-- QL_FROM_LINK, object 0x2010+r.0A. -/
def kReQlFromLink (n : Nat) : Nat := okey (0x2010 + n) (0xa)
/-- REF_DELAY, object 0x2010+r.0B. -/
def kReRefDelay (n : Nat) : Nat := okey (0x2010 + n) (0xb)
/-- REF_UNC, object 0x2010+r.0C. -/
def kReRefUnc (n : Nat) : Nat := okey (0x2010 + n) (0xc)
/-- FREQ_HZ, object 0x2010+r.0D. -/
def kReFreqHz (n : Nat) : Nat := okey (0x2010 + n) (0xd)
/-- LANE, object 0x2010+r.0E. -/
def kReLane (n : Nat) : Nat := okey (0x2010 + n) (0xe)
/-- X, object 0x2010+r.0F. -/
def kReX (n : Nat) : Nat := okey (0x2010 + n) (0xf)
/-- D, object 0x2010+r.10. -/
def kReD (n : Nat) : Nat := okey (0x2010 + n) (0x10)
/-- TIMER_REMAIN, object 0x2010+r.11. -/
def kReTimerRemain (n : Nat) : Nat := okey (0x2010 + n) (0x11)
/-- TIMING_STATS, object 0x2020.01–.07. -/
def kTiTimingStats (i : Nat) : Nat := okey (0x2020) (0x1 + i)
/-- CI_CONFIG, object 0x2100+c.01. -/
def kCiCiConfig (n : Nat) : Nat := okey (0x2100 + n) (0x1)
/-- CI_ACTIVE, object 0x2100+c.02. -/
def kCiCiActive (n : Nat) : Nat := okey (0x2100 + n) (0x2)
/-- DDR_GEN, object 0x4000.01. -/
def kDrDdrGen : Nat := okey (0x4000) (0x1)
/-- DATA_RATE, object 0x4000.02. -/
def kDrDataRate : Nat := okey (0x4000) (0x2)
/-- CHANNELS, object 0x4000.03. -/
def kDrChannels : Nat := okey (0x4000) (0x3)
/-- RANKS, object 0x4000.04. -/
def kDrRanks : Nat := okey (0x4000) (0x4)
/-- DENSITY, object 0x4000.05. -/
def kDrDensity : Nat := okey (0x4000) (0x5)
/-- MODULE, object 0x4000.06. -/
def kDrModule : Nat := okey (0x4000) (0x6)
/-- START, object 0x4000.07. -/
def kDrStart : Nat := okey (0x4000) (0x7)
/-- STATE, object 0x4000.08. -/
def kDrState : Nat := okey (0x4000) (0x8)
/-- CAPACITY, object 0x4000.09. -/
def kDrCapacity : Nat := okey (0x4000) (0x9)
/-- PEAK_BW, object 0x4000.0A. -/
def kDrPeakBw : Nat := okey (0x4000) (0xa)
/-- TOKEN_CAPACITY, object 0x4000.0B. -/
def kDrTokenCapacity : Nat := okey (0x4000) (0xb)
/-- WIN_TEMP, object 0x4001.01. -/
def kDrWinTemp : Nat := okey (0x4001) (0x1)
/-- WIN_VDDQ, object 0x4001.02. -/
def kDrWinVddq : Nat := okey (0x4001) (0x2)
/-- WIN_AGE, object 0x4001.03. -/
def kDrWinAge : Nat := okey (0x4001) (0x3)
/-- TRACK_PERIOD, object 0x4001.04. -/
def kDrTrackPeriod : Nat := okey (0x4001) (0x4)
/-- TRACK_TEMP, object 0x4001.05. -/
def kDrTrackTemp : Nat := okey (0x4001) (0x5)
/-- TRACK_VDDQ, object 0x4001.06. -/
def kDrTrackVddq : Nat := okey (0x4001) (0x6)
/-- TARGET, object 0x4002.01–.10. -/
def kDrTarget (i : Nat) : Nat := okey (0x4002) (0x1 + i)
/-- URG_WIN, object 0x4002.11. -/
def kDrUrgWin : Nat := okey (0x4002) (0x11)
/-- PLAN_PCT, object 0x4002.12. -/
def kDrPlanPct : Nat := okey (0x4002) (0x12)
/-- PD_IDLE, object 0x4002.13. -/
def kDrPdIdle : Nat := okey (0x4002) (0x13)
/-- RAA_TH, object 0x4003.01. -/
def kDrRaaTh : Nat := okey (0x4003) (0x1)
/-- NEIGHBOUR, object 0x4003.02. -/
def kDrNeighbour : Nat := okey (0x4003) (0x2)
/-- HOT_TEMP, object 0x4003.03. -/
def kDrHotTemp : Nat := okey (0x4003) (0x3)
/-- TEMP_OFS, object 0x4003.04. -/
def kDrTempOfs : Nat := okey (0x4003) (0x4)
/-- FREEZE_AUTO, object 0x4004.01. -/
def kDrFreezeAuto : Nat := okey (0x4004) (0x1)
/-- CMD_RETRY, object 0x4004.02. -/
def kDrCmdRetry : Nat := okey (0x4004) (0x2)
/-- SCRUB_PERIOD, object 0x4004.03. -/
def kDrScrubPeriod : Nat := okey (0x4004) (0x3)
/-- DEVICE_CE_TH, object 0x4004.04. -/
def kDrDeviceCeTh : Nat := okey (0x4004) (0x4)
/-- LOC, object C+0.01. -/
def kDcLoc (n : Nat) : Nat := okey (0x4100 + 16 * n) (0x1)
/-- STATE, object C+0.02. -/
def kDcState (n : Nat) : Nat := okey (0x4100 + 16 * n) (0x2)
/-- TEMP, object C+0.03. -/
def kDcTemp (n : Nat) : Nat := okey (0x4100 + 16 * n) (0x3)
/-- VDDQ, object C+0.04. -/
def kDcVddq (n : Nat) : Nat := okey (0x4100 + 16 * n) (0x4)
/-- LOAD_CLASS, object C+0.05. -/
def kDcLoadClass (n : Nat) : Nat := okey (0x4100 + 16 * n) (0x5)
/-- HOT, object C+0.06. -/
def kDcHot (n : Nat) : Nat := okey (0x4100 + 16 * n) (0x6)
/-- RESUME, object C+1.01. -/
def kDcResume (n : Nat) : Nat := okey (0x4101 + 16 * n) (0x1)
/-- SNAPSHOT, object C+1.02. -/
def kDcSnapshot (n : Nat) : Nat := okey (0x4101 + 16 * n) (0x2)
/-- FREEZE_EXTRA, object C+1.03. -/
def kDcFreezeExtra (n : Nat) : Nat := okey (0x4101 + 16 * n) (0x3)
/-- CAL_RECORD, object C+2.01–.02. -/
def kDcCalRecord (n i : Nat) : Nat := okey (0x4102 + 16 * n) (0x1 + i)
/-- RECENTRE, object C+2.03. -/
def kDcRecentre (n : Nat) : Nat := okey (0x4102 + 16 * n) (0x3)
/-- DRAM_STATS, object C+3.01–.12. -/
def kDcDramStats (n i : Nat) : Nat := okey (0x4103 + 16 * n) (0x1 + i)
/-- LATENCY_MAX, object C+4.01–.10. -/
def kDcLatencyMax (n i : Nat) : Nat := okey (0x4104 + 16 * n) (0x1 + i)
/-- CE_BY_DEVICE, object C+4.11. -/
def kDcCeByDevice (n : Nat) : Nat := okey (0x4104 + 16 * n) (0x11)
/-- SRAM_SCRUB_PERIOD, object 0x4200.01. -/
def kSrSramScrubPeriod : Nat := okey (0x4200) (0x1)
/-- COLUMN_TH, object 0x4200.02. -/
def kSrColumnTh : Nat := okey (0x4200) (0x2)
/-- PASSES, object 0x4201.01–.05. -/
def kSrPasses (i : Nat) : Nat := okey (0x4201) (0x1 + i)
/-- SCRUB_STATS, object 0x4202.01–.05. -/
def kSrScrubStats (i : Nat) : Nat := okey (0x4202) (0x1 + i)
/-- MACRO_SELECT, object 0x4210.01. -/
def kSrMacroSelect : Nat := okey (0x4210) (0x1)
/-- MACRO_STATE, object 0x4210.02. -/
def kSrMacroState : Nat := okey (0x4210) (0x2)
/-- FENCED_MACROS, object 0x4210.03. -/
def kSrFencedMacros : Nat := okey (0x4210) (0x3)
/-- LIFE_PPM, object 0x4300.01. -/
def kSrLifePpm : Nat := okey (0x4300) (0x1)
/-- DOMAIN_RECORD, object 0x4300.02. -/
def kSrDomainRecord : Nat := okey (0x4300) (0x2)
/-- DOMAIN_SELECT, object 0x4300.03. -/
def kSrDomainSelect : Nat := okey (0x4300) (0x3)
/-- SERVICE_START, object 0x4300.04. -/
def kSrServiceStart : Nat := okey (0x4300) (0x4)
/-- LEDGER_SEQ, object 0x4301.01. -/
def kSrLedgerSeq : Nat := okey (0x4301) (0x1)
/-- LEDGER_COPIES, object 0x4301.02. -/
def kSrLedgerCopies : Nat := okey (0x4301) (0x2)
/-- LEDGER_WRITE, object 0x4301.03. -/
def kSrLedgerWrite : Nat := okey (0x4301) (0x3)
/-- CORES_OUT, object 0x4302.01. -/
def kSrCoresOut : Nat := okey (0x4302) (0x1)
/-- SPARES_LEFT, object 0x4302.02. -/
def kSrSparesLeft : Nat := okey (0x4302) (0x2)
/-- LINK_SELECT, object 0xA100.01. -/
def kNoLinkSelect : Nat := okey (0xa100) (0x1)
/-- LINK_RESERVED, object 0xA100.02. -/
def kNoLinkReserved : Nat := okey (0xa100) (0x2)
/-- LINK_RESERVED_MAX, object 0xA100.03. -/
def kNoLinkReservedMax : Nat := okey (0xa100) (0x3)
/-- LINK_FLITS, object 0xA100.04. -/
def kNoLinkFlits : Nat := okey (0xa100) (0x4)
/-- GT_LIMIT, object 0xA100.05. -/
def kNoGtLimit : Nat := okey (0xa100) (0x5)
/-- TRAIN_LIMIT, object 0xA100.06. -/
def kNoTrainLimit : Nat := okey (0xa100) (0x6)
/-- WAKE_HOLDS, object 0xA101.01–.04. -/
def kNoWakeHolds (i : Nat) : Nat := okey (0xa101) (0x1 + i)
/-- WAKE_GUARANTEED, object 0xA101.05. -/
def kNoWakeGuaranteed : Nat := okey (0xa101) (0x5)
/-- HOLD_MAX, object 0xA101.06. -/
def kNoHoldMax : Nat := okey (0xa101) (0x6)
/-- HEADERS_DISCARDED, object 0xA102.01. -/
def kNoHeadersDiscarded : Nat := okey (0xa102) (0x1)
/-- BYTES_CORRECTED, object 0xA102.02. -/
def kNoBytesCorrected : Nat := okey (0xa102) (0x2)
/-- BYTES_POISONED, object 0xA102.03. -/
def kNoBytesPoisoned : Nat := okey (0xa102) (0x3)
/-- NOC_DTC_LAG, object 0xA103.01. -/
def kNoNocDtcLag : Nat := okey (0xa103) (0x1)
/-- DEVICE_STATE, object 0x1000.01. -/
def kPwDeviceState : Nat := okey (0x1000) (0x1)
/-- DEVICE_FLOOR, object 0x1000.02. -/
def kPwDeviceFloor : Nat := okey (0x1000) (0x2)
/-- WAKE_AT, object 0x1000.03. -/
def kPwWakeAt : Nat := okey (0x1000) (0x3)
/-- WAKE_SOURCES, object 0x1000.04. -/
def kPwWakeSources : Nat := okey (0x1000) (0x4)
/-- WAKE_HOLD, object 0x1000.05. -/
def kPwWakeHold : Nat := okey (0x1000) (0x5)
/-- RESUME_IMAGE, object 0x1000.06. -/
def kPwResumeImage : Nat := okey (0x1000) (0x6)
/-- DEBUG_HOLD, object 0x1001.01. -/
def kPwDebugHold : Nat := okey (0x1001) (0x1)
/-- GOV_SLOPE, object 0x1002.01. -/
def kPwGovSlope : Nat := okey (0x1002) (0x1)
/-- GOV_STEP, object 0x1002.02. -/
def kPwGovStep : Nat := okey (0x1002) (0x2)
/-- GOV_LEAD, object 0x1002.03. -/
def kPwGovLead : Nat := okey (0x1002) (0x3)
/-- GOV_WAITS, object 0x1002.04. -/
def kPwGovWaits : Nat := okey (0x1002) (0x4)
/-- GOV_WAIT_MAX, object 0x1002.05. -/
def kPwGovWaitMax : Nat := okey (0x1002) (0x5)
/-- WIN_TEMP, object 0x1003.01. -/
def kPwWinTemp : Nat := okey (0x1003) (0x1)
/-- WIN_SUPPLY, object 0x1003.02. -/
def kPwWinSupply : Nat := okey (0x1003) (0x2)
/-- WIN_AGE, object 0x1003.03. -/
def kPwWinAge : Nat := okey (0x1003) (0x3)
/-- DROOP_TH, object 0x1003.04. -/
def kPwDroopTh : Nat := okey (0x1003) (0x4)
/-- VBAT, object 0x1004.01. -/
def kPwVbat : Nat := okey (0x1004) (0x1)
/-- VBAT_LOW_TH, object 0x1004.02. -/
def kPwVbatLowTh : Nat := okey (0x1004) (0x2)
/-- SNAPSHOTS, object 0x1004.03. -/
def kPwSnapshots : Nat := okey (0x1004) (0x3)
/-- STATE, object 0x1010+d.01. -/
def kPdState (n : Nat) : Nat := okey (0x1010 + n) (0x1)
/-- FLOOR, object 0x1010+d.02. -/
def kPdFloor (n : Nat) : Nat := okey (0x1010 + n) (0x2)
/-- RESTORE_MODE, object 0x1010+d.03. -/
def kPdRestoreMode (n : Nat) : Nat := okey (0x1010 + n) (0x3)
/-- TARGET, object 0x1010+d.04. -/
def kPdTarget (n : Nat) : Nat := okey (0x1010 + n) (0x4)
/-- VOTERS, object 0x1010+d.05. -/
def kPdVoters (n : Nat) : Nat := okey (0x1010 + n) (0x5)
/-- SAVE_LEN, object 0x1010+d.06. -/
def kPdSaveLen (n : Nat) : Nat := okey (0x1010 + n) (0x6)
/-- POWER_STATS, object 0x1010+d.07. -/
def kPdPowerStats (n : Nat) : Nat := okey (0x1010 + n) (0x7)
/-- CLK_SET, object 0x1010+d.08. -/
def kPdClkSet (n : Nat) : Nat := okey (0x1010 + n) (0x8)
/-- CLK_NOW, object 0x1010+d.09. -/
def kPdClkNow (n : Nat) : Nat := okey (0x1010 + n) (0x9)
/-- THERMAL_LIMIT, object 0x1010+d.0A. -/
def kPdThermalLimit (n : Nat) : Nat := okey (0x1010 + n) (0xa)
/-- MARGIN_LIMIT, object 0x1010+d.0B. -/
def kPdMarginLimit (n : Nat) : Nat := okey (0x1010 + n) (0xb)
/-- MARGIN_RECORD, object 0x1010+d.0C. -/
def kPdMarginRecord (n : Nat) : Nat := okey (0x1010 + n) (0xc)
/-- RECENTRE, object 0x1010+d.0D. -/
def kPdRecentre (n : Nat) : Nat := okey (0x1010 + n) (0xd)
/-- TJ, object 0x1100.01–.40. -/
def kThTj (i : Nat) : Nat := okey (0x1100) (0x1 + i)
/-- SENSOR_FLAGS, object 0x1101.01–.40. -/
def kThSensorFlags (i : Nat) : Nat := okey (0x1101) (0x1 + i)
/-- WARN_TH, THROTTLE_TH, CRIT_TH, object 0x1102.01–.03. -/
def kThTjTh (i : Nat) : Nat := okey (0x1102) (0x1 + i)
/-- HYSTERESIS, object 0x1102.04. -/
def kThHysteresis : Nat := okey (0x1102) (0x4)
/-- DWELL, object 0x1102.05. -/
def kThDwell : Nat := okey (0x1102) (0x5)
/-- TRIPS, object 0x1102.06. -/
def kThTrips : Nat := okey (0x1102) (0x6)
/-- TJ_MAX, object 0x1102.07. -/
def kThTjMax : Nat := okey (0x1102) (0x7)
/-- TRIP_RESTART, object 0x1102.08. -/
def kThTripRestart : Nat := okey (0x1102) (0x8)
/-- VOTE_SET, object T+2.01. -/
def kTeVoteSet (n : Nat) : Nat := okey (0x8002 + 16 * n) (0x1)
/-- VOTES, object T+2.02. -/
def kTeVotes (n : Nat) : Nat := okey (0x8002 + 16 * n) (0x2)
/-- LINK_MODE, object 0x7000.01. -/
def kHoLinkMode : Nat := okey (0x7000) (0x1)
/-- CXL_ACTIVE, object 0x7000.02. -/
def kHoCxlActive : Nat := okey (0x7000) (0x2)
/-- LINK_STATE, object 0x7000.03. -/
def kHoLinkState : Nat := okey (0x7000) (0x3)
/-- SPEED, object 0x7000.04. -/
def kHoSpeed : Nat := okey (0x7000) (0x4)
/-- WIDTH, object 0x7000.05. -/
def kHoWidth : Nat := okey (0x7000) (0x5)
/-- TAGS_OUT, object 0x7000.06. -/
def kHoTagsOut : Nat := okey (0x7000) (0x6)
/-- TAGS_FENCED, object 0x7000.07. -/
def kHoTagsFenced : Nat := okey (0x7000) (0x7)
/-- VFS_ENABLED, object 0x7000.08. -/
def kHoVfsEnabled : Nat := okey (0x7000) (0x8)
/-- ATS_ENTRIES, object 0x7000.09. -/
def kHoAtsEntries : Nat := okey (0x7000) (0x9)
/-- HOST_STATS, object 0x7001.01–.0C. -/
def kHoHostStats (i : Nat) : Nat := okey (0x7001) (0x1 + i)
/-- FUNC_STATE, object 0x7002.00–.200. -/
def kHoFuncState (i : Nat) : Nat := okey (0x7002) (0x0 + i)
/-- AE_LAST, object 0x7003.01. -/
def kHoAeLast : Nat := okey (0x7003) (0x1)
/-- AE_TOTAL, object 0x7003.02. -/
def kHoAeTotal : Nat := okey (0x7003) (0x2)
/-- VENDOR, object 0x0100.01. -/
def kDyVendor : Nat := okey (0x100) (0x1)
/-- FAMILY, object 0x0100.02. -/
def kDyFamily : Nat := okey (0x100) (0x2)
/-- DEVICE, object 0x0100.03. -/
def kDyDevice : Nat := okey (0x100) (0x3)
/-- ORDERING_CODE, object 0x0100.04. -/
def kDyOrderingCode : Nat := okey (0x100) (0x4)
/-- REVISION, object 0x0100.05. -/
def kDyRevision : Nat := okey (0x100) (0x5)
/-- SERIAL, object 0x0100.06. -/
def kDySerial : Nat := okey (0x100) (0x6)
/-- SPEED_GRADE, object 0x0100.07. -/
def kDySpeedGrade : Nat := okey (0x100) (0x7)
/-- TEMP_GRADE, object 0x0100.08. -/
def kDyTempGrade : Nat := okey (0x100) (0x8)
/-- DICT_VERSION, object 0x0100.09. -/
def kDyDictVersion : Nat := okey (0x100) (0x9)
/-- FW_VERSION, object 0x0101.01. -/
def kDyFwVersion : Nat := okey (0x101) (0x1)
/-- FW_SIGNED, object 0x0101.02. -/
def kDyFwSigned : Nat := okey (0x101) (0x2)
/-- KEY_HASH, object 0x0101.03. -/
def kDyKeyHash : Nat := okey (0x101) (0x3)
/-- DEVICE_STATE, object 0x0102.01. -/
def kDyDeviceState : Nat := okey (0x102) (0x1)
/-- STRAPS, object 0x0102.02. -/
def kDyStraps : Nat := okey (0x102) (0x2)
/-- RESET_CAUSE, object 0x0102.03. -/
def kDyResetCause : Nat := okey (0x102) (0x3)
/-- STORE, object 0x0200.01. -/
def kDyStore : Nat := okey (0x200) (0x1)
/-- STORE_STATE, object 0x0200.02. -/
def kDyStoreState : Nat := okey (0x200) (0x2)
/-- IMAGE_SEQ, object 0x0200.03. -/
def kDyImageSeq : Nat := okey (0x200) (0x3)
/-- IMAGE_WRITE, object 0x0200.04. -/
def kDyImageWrite : Nat := okey (0x200) (0x4)
/-- IMAGE_READ, object 0x0200.05. -/
def kDyImageRead : Nat := okey (0x200) (0x5)
/-- IMAGE_COPIES, object 0x0200.06. -/
def kDyImageCopies : Nat := okey (0x200) (0x6)
/-- RESTORE_DEFAULTS, object 0x0201.01. -/
def kDyRestoreDefaults : Nat := okey (0x201) (0x1)
/-- CAN_ENABLE, object 0x0210.01. -/
def kDyCanEnable : Nat := okey (0x210) (0x1)
/-- CAN_NODE, object 0x0210.02. -/
def kDyCanNode : Nat := okey (0x210) (0x2)
/-- CAN_DATA_RATE, object 0x0210.03. -/
def kDyCanDataRate : Nat := okey (0x210) (0x3)
/-- CAN_STATE, object 0x0210.04. -/
def kDyCanState : Nat := okey (0x210) (0x4)
/-- UDP_ENABLE, object 0x0210.05. -/
def kDyUdpEnable : Nat := okey (0x210) (0x5)
/-- MGMT_MAC, object 0x0210.06. -/
def kDyMgmtMac : Nat := okey (0x210) (0x6)
/-- IPV4_ADDR, object 0x0210.07. -/
def kDyIpv4Addr : Nat := okey (0x210) (0x7)
/-- IPV4_PREFIX, object 0x0210.08. -/
def kDyIpv4Prefix : Nat := okey (0x210) (0x8)
/-- IPV4_GATEWAY, object 0x0210.09. -/
def kDyIpv4Gateway : Nat := okey (0x210) (0x9)
/-- IPV6_ADDR, object 0x0210.0A. -/
def kDyIpv6Addr : Nat := okey (0x210) (0xa)
/-- IPV6_PREFIX, object 0x0210.0B. -/
def kDyIpv6Prefix : Nat := okey (0x210) (0xb)
/-- UDP_ALLOW, object 0x0210.0C. -/
def kDyUdpAllow : Nat := okey (0x210) (0xc)
/-- MAILBOX_VF, object 0x0210.0D. -/
def kDyMailboxVf : Nat := okey (0x210) (0xd)
/-- PDP_STATS, object 0x0211.01–.0C. -/
def kDyPdpStats (i : Nat) : Nat := okey (0x211) (0x1 + i)
/-- ROUTE0–15, object 0x0220.01–.10. -/
def kDyRoute (i : Nat) : Nat := okey (0x220) (0x1 + i)
/-- DEST0–3, object 0x0220.11–.14. -/
def kDyDest (i : Nat) : Nat := okey (0x220) (0x11 + i)
/-- NOTIFY_LOST, object 0x0220.15. -/
def kDyNotifyLost : Nat := okey (0x220) (0x15)
/-- HIST_NEWEST, object 0x0300.01. -/
def kDyHistNewest : Nat := okey (0x300) (0x1)
/-- HIST_SELECT, object 0x0300.02. -/
def kDyHistSelect : Nat := okey (0x300) (0x2)
/-- HIST_ENTRY, object 0x0300.03. -/
def kDyHistEntry : Nat := okey (0x300) (0x3)
/-- HIST_ALL, object 0x0300.04. -/
def kDyHistAll : Nat := okey (0x300) (0x4)
/-- HIST_CLEAR, object 0x0300.05. -/
def kDyHistClear : Nat := okey (0x300) (0x5)
/-- LOC_TEXT, object 0xA200.01. -/
def kDyLocText : Nat := okey (0xa200) (0x1)
/-- LOC_PACKED, object 0xA200.02. -/
def kDyLocPacked : Nat := okey (0xa200) (0x2)
/-- LOC_STATE, object 0xA200.03. -/
def kDyLocState : Nat := okey (0xa200) (0x3)

/-- Objects of the chapter on placement (03), part 0. -/
def rowsPlacement0 : List ObjRow := [
  ⟨0x5000, 1, 1, 1, 1, .bool, .rw, 1, 1, 0, 1, false, true, 0, true, "TEMPLATES_ENABLE"⟩,
  ⟨0x5000, 1, 1, 2, 2, .u8, .rws, 1, 4, 1, 4, false, true, 0, true, "TEMPLATE_SLOTS"⟩,
  ⟨0x5000, 1, 1, 3, 3, .u32, .rw, 4, 2000, 0, 100000, false, true, 1, true, "GUARD_MARGIN"⟩,
  ⟨0x5000, 1, 1, 4, 4, .u32, .const, 4, 200, 0, 4294967295, false, false, 1, true, "L_GATE"⟩,
  ⟨0x5000, 1, 1, 5, 5, .u32, .const, 4, 100, 0, 4294967295, false, false, 1, true, "L_QUAD"⟩,
  ⟨0x5000, 1, 1, 6, 6, .u32, .const, 4, 400, 0, 4294967295, false, false, 1, true, "L_REL"⟩,
  ⟨0x5000, 1, 1, 7, 7, .u32, .ro, 4, 0, 0, 100000, false, false, 1, false, "L_HOST"⟩,
  ⟨0x5000, 1, 1, 8, 8, .u32, .ro, 4, 0, 0, 4294967295, false, false, 10, false, "TEMPLATE_STORE"⟩,
  ⟨0x5000, 1, 1, 9, 9, .u64, .ro, 8, 0, 0, 18446744073709551615, false, false, 10, false, "POOL_SIZE"⟩,
  ⟨0x5001, 1, 1, 1, 10, .u64, .ro, 8, 0, 0, 18446744073709551615, false, false, 18, true, "PLACE_STATS"⟩,
  ⟨0x5002, 1, 1, 1, 4, .u8, .ro, 1, 0, 0, 32, false, false, 18, true, "PU_QUEUE"⟩,
  ⟨0x5003, 1, 1, 1, 1, .u32, .ro, 4, 0, 0, 4294967295, false, false, 18, false, "RETIRED_PAGES"⟩,
  ⟨0x5030, 1, 1, 1, 1, .bool, .rw, 1, 0, 0, 1, false, false, 0, true, "TRACE_ENABLE"⟩,
  ⟨0x5030, 1, 1, 2, 2, .u64, .rws, 8, 0, 0, 18446744073709551615, false, false, 0, true, "TRACE_ADDR"⟩,
  ⟨0x5030, 1, 1, 3, 3, .u32, .rws, 4, 4096, 256, 1048576, false, false, 18, true, "TRACE_ENTRIES"⟩,
  ⟨0x5030, 1, 1, 4, 4, .u16, .rw, 2, 65535, 0, 65535, false, false, 0, true, "TRACE_CI"⟩,
  ⟨0x5030, 1, 1, 5, 5, .u32, .ro, 4, 0, 0, 4294967295, false, false, 0, true, "TRACE_HEAD"⟩,
  ⟨0x5030, 1, 1, 6, 6, .u64, .ro, 8, 0, 0, 18446744073709551615, false, false, 18, true, "TRACE_LOST"⟩,
  ⟨0x5040, 1, 1, 0, 107, .u16, .ro, 2, 0, 0, 65535, false, false, 0, true, "SAGE_EPOCH"⟩,
  ⟨0x5041, 1, 1, 0, 107, .u32, .ro, 4, 0, 0, 4294967295, false, false, 18, true, "SAGE_STALE"⟩,
  ⟨0x5042, 1, 1, 0, 119, .u16, .ro, 2, 0, 0, 65535, false, false, 0, true, "ENGINE_EPOCH"⟩,
  ⟨0x5043, 1, 1, 0, 119, .u32, .ro, 4, 0, 0, 4294967295, false, false, 18, true, "ENGINE_STALE"⟩,
  ⟨0x5044, 1, 1, 0, 107, .u32, .ro, 4, 262144, 0, 4294967295, false, false, 0, true, "SAGE_ROLE"⟩,
  ⟨0x5045, 1, 1, 0, 119, .u32, .ro, 4, 262144, 0, 4294967295, false, false, 0, true, "ENGINE_ROLE"⟩]

/-- Objects of the chapter on dispatch (04), part 0. -/
def rowsDispatch0 : List ObjRow := [
  ⟨0x5100, 1, 1, 1, 16, .u32, .rw, 4, 0, 0, 20000000, false, true, 1, false, "THR"⟩,
  ⟨0x5101, 1, 1, 1, 12, .i8, .rw, 1, 0, -15, 15, false, true, 0, true, "CLASS_BIAS"⟩,
  ⟨0x5102, 1, 1, 1, 1, .u32, .rw, 4, 4096, 64, 65535, false, true, 18, true, "FLOW_BACKLOG"⟩,
  ⟨0x5102, 1, 1, 2, 2, .u32, .rw, 4, 2000000, 100000, 20000000, false, true, 1, true, "WATCHDOG"⟩,
  ⟨0x5102, 1, 1, 3, 3, .u32, .const, 4, 2000000, 0, 4294967295, false, false, 1, true, "ID_QUARANTINE"⟩,
  ⟨0x5102, 1, 1, 4, 4, .u32, .const, 4, 1000, 0, 4294967295, false, false, 1, true, "LEVEL_TICK"⟩,
  ⟨0x5102, 1, 1, 5, 5, .u16, .const, 2, 600, 0, 65535, false, false, 11, true, "CONTEXT_CYCLES"⟩,
  ⟨0x5103, 1, 1, 0, 47, .u16, .ro, 2, 0, 0, 1024, false, false, 18, true, "READY_DEPTH"⟩,
  ⟨0x5104, 1, 1, 1, 4, .u16, .ro, 2, 0, 0, 16384, false, false, 18, true, "HELD_READY"⟩,
  ⟨0x5105, 1, 1, 1, 4, .u16, .ro, 2, 0, 0, 1024, false, false, 18, true, "FLOWS_ACTIVE"⟩,
  ⟨0x5106, 1, 1, 0, 512, .u16, .ro, 2, 0, 0, 4096, false, false, 0, true, "IDS_IN_USE"⟩,
  ⟨0x5107, 1, 1, 1, 10, .u64, .ro, 8, 0, 0, 18446744073709551615, false, false, 18, true, "DISPATCH_STATS"⟩]

/-- Objects of the chapter on tenant (05), part 0. -/
def rowsTenant0 : List ObjRow := [
  ⟨0x8000, 512, 16, 1, 1, .u8, .ro, 1, 0, 0, 255, true, false, 0, true, "STATE"⟩,
  ⟨0x8000, 512, 16, 2, 2, .u8, .wo, 1, 0, 0, 255, false, false, 0, false, "CONTROL"⟩,
  ⟨0x8000, 512, 16, 3, 3, .u16, .const, 2, 0, 0, 511, true, false, 0, false, "FUNCTION"⟩,
  ⟨0x8000, 512, 16, 4, 4, .u16, .wo, 2, 0, 0, 511, false, false, 0, false, "CI_ASSIGN"⟩,
  ⟨0x8000, 512, 16, 5, 5, .u16, .wo, 2, 0, 0, 511, false, false, 0, false, "CI_REMOVE"⟩,
  ⟨0x8000, 512, 16, 6, 6, .octets, .ro, 64, 0, 0, 64, true, false, 0, false, "CI_MAP"⟩,
  ⟨0x8000, 512, 16, 7, 7, .text, .rw, 32, 0, 0, 32, true, true, 0, false, "NAME"⟩,
  ⟨0x8001, 512, 16, 1, 1, .u32, .rw, 4, 0, 0, 96000, true, true, 2, true, "SAGE_US"⟩,
  ⟨0x8001, 512, 16, 2, 11, .u32, .rw, 4, 0, 0, 24000, true, true, 2, true, "ENGINE_US"⟩,
  ⟨0x8001, 512, 16, 12, 12, .u32, .rw, 4, 0, 0, 12000, true, true, 2, true, "DMA_US"⟩,
  ⟨0x8001, 512, 16, 13, 13, .u32, .rw, 4, 0, 0, 4294967295, true, true, 0, true, "DRAM_TOKENS"⟩,
  ⟨0x8001, 512, 16, 14, 14, .u8, .rw, 1, 0, 0, 48, true, true, 19, true, "NOC_SLOTS"⟩,
  ⟨0x8001, 512, 16, 15, 18, .u64, .rw, 8, 0, 0, 18446744073709551615, true, true, 10, true, "QUOTA"⟩,
  ⟨0x8001, 512, 16, 33, 46, .u32, .ro, 4, 0, 0, 4294967295, true, false, 0, true, "CHARGED"⟩,
  ⟨0x8001, 512, 16, 47, 50, .u64, .ro, 8, 0, 0, 18446744073709551615, true, false, 10, true, "HELD"⟩,
  ⟨0x8003, 512, 16, 1, 1, .u32, .rw, 4, 200, 50, 10000, true, true, 2, true, "LEAD_TIME"⟩,
  ⟨0x8003, 512, 16, 2, 2, .u32, .const, 4, 20000, 0, 4294967295, true, false, 2, true, "AHEAD_LIMIT"⟩,
  ⟨0x8004, 512, 16, 1, 12, .u64, .ro, 8, 0, 0, 18446744073709551615, true, false, 18, true, "CODE_COUNT"⟩,
  ⟨0x8004, 512, 16, 13, 13, .u64, .ro, 8, 0, 0, 18446744073709551615, true, false, 18, true, "GRAPHS_ACCEPTED"⟩,
  ⟨0x8004, 512, 16, 14, 14, .u64, .ro, 8, 0, 0, 18446744073709551615, true, false, 18, true, "GRAPHS_REFUSED"⟩,
  ⟨0x8004, 512, 16, 15, 15, .u64, .ro, 8, 0, 0, 18446744073709551615, true, false, 18, true, "BEST_EFFORT_JOBS"⟩,
  ⟨0x8004, 512, 16, 16, 16, .u64, .ro, 8, 0, 0, 18446744073709551615, true, false, 1, true, "OVERRUN"⟩,
  ⟨0x8004, 512, 16, 17, 17, .u64, .ro, 8, 0, 0, 18446744073709551615, true, false, 1, true, "CROSS_WAIT"⟩,
  ⟨0x8004, 512, 16, 18, 18, .u32, .ro, 4, 0, 0, 4294967295, true, false, 1, true, "CROSS_WAIT_MAX"⟩,
  ⟨0x8004, 512, 16, 19, 19, .u64, .ro, 8, 0, 0, 18446744073709551615, true, false, 0, true, "DEBT_WINDOWS"⟩]

/-- Objects of the chapter on tenant (05), part 1. -/
def rowsTenant1 : List ObjRow := [
  ⟨0x8005, 512, 16, 1, 1, .u16, .rw, 2, 8, 0, 1024, true, true, 18, true, "FLOW_LIMIT"⟩,
  ⟨0x8005, 512, 16, 2, 2, .u16, .ro, 2, 0, 0, 1024, true, false, 18, true, "FLOWS_ACTIVE"⟩,
  ⟨0x8006, 512, 16, 1, 1, .u8, .rw, 1, 1, 0, 1, true, true, 0, true, "POLICY"⟩,
  ⟨0x8006, 512, 16, 2, 2, .u8, .rw, 1, 0, 0, 2, true, true, 0, true, "MODE"⟩,
  ⟨0x8006, 512, 16, 3, 3, .u8, .rw, 1, 0, 0, 1, true, true, 0, true, "PIN_POLICY"⟩,
  ⟨0x8006, 512, 16, 4, 4, .octets, .wo, 10, 0, 0, 10, false, false, 0, false, "DEDICATE"⟩,
  ⟨0x8006, 512, 16, 5, 5, .loc, .wo, 8, 0, 0, 18446744073709551615, false, false, 0, false, "RELEASE_UNIT"⟩,
  ⟨0x8006, 512, 16, 6, 6, .u16, .ro, 2, 0, 0, 228, true, false, 18, true, "DEDICATED"⟩]

/-- Objects of the chapter on sage (06), part 0. -/
def rowsSage0 : List ObjRow := [
  ⟨0x5400, 1, 1, 1, 1, .u16, .rw, 2, 0, 0, 3839, false, false, 0, true, "ENTRY_SELECT"⟩,
  ⟨0x5400, 1, 1, 2, 2, .octets, .ro, 64, 0, 0, 64, false, false, 0, false, "ENTRY"⟩,
  ⟨0x5400, 1, 1, 3, 3, .octets, .wo, 64, 0, 0, 64, false, false, 0, false, "ENTRY_WRITE"⟩,
  ⟨0x5400, 1, 1, 4, 4, .u16, .ro, 2, 0, 0, 3840, false, false, 18, true, "VALID_COUNT"⟩,
  ⟨0x5200, 12, 16, 1, 1, .u32, .ro, 4, 8192, 0, 4294967295, false, false, 10, true, "IMEM_RESIDENT"⟩,
  ⟨0x5200, 12, 16, 2, 2, .u32, .ro, 4, 32768, 0, 4294967295, false, false, 10, true, "DMEM_STATIC"⟩,
  ⟨0x5201, 12, 16, 1, 5, .u32, .ro, 4, 0, 0, 4294967295, false, false, 0, true, "EXCEPTIONS"⟩,
  ⟨0x5202, 12, 16, 1, 9, .u64, .ro, 8, 0, 0, 18446744073709551615, false, false, 10, true, "XFER_BYTES"⟩]

/-- Objects of the chapter on cluster (07), part 0. -/
def rowsCluster0 : List ObjRow := [
  ⟨0x5208, 12, 16, 1, 1, .u16, .rw, 2, 2048, 0, 65535, false, true, 11, true, "VGATE_IDLE"⟩,
  ⟨0x5208, 12, 16, 2, 2, .u16, .const, 2, 120, 0, 65535, false, false, 11, true, "VWAKE_CYCLES"⟩,
  ⟨0x5208, 12, 16, 3, 11, .u32, .ro, 4, 0, 0, 4294967295, false, false, 0, true, "VWAKES"⟩,
  ⟨0x5209, 12, 16, 1, 1, .u32, .const, 4, 20000, 0, 4294967295, false, false, 1, true, "CMC_HOLD_LIMIT"⟩,
  ⟨0x5209, 12, 16, 2, 2, .u16, .const, 2, 32, 0, 65535, false, false, 11, true, "CMC_RESERVE"⟩,
  ⟨0x5209, 12, 16, 3, 3, .u64, .ro, 8, 0, 0, 18446744073709551615, false, false, 0, true, "CMC_CLAIMS"⟩,
  ⟨0x5209, 12, 16, 4, 4, .u64, .ro, 8, 0, 0, 18446744073709551615, false, false, 0, true, "CMC_REFUSALS"⟩,
  ⟨0x5209, 12, 16, 5, 5, .u32, .ro, 4, 0, 0, 4294967295, false, false, 0, true, "CMC_REVOKES"⟩,
  ⟨0x5209, 12, 16, 6, 6, .u32, .ro, 4, 0, 0, 4294967295, false, false, 1, true, "CMC_HOLD_MAX"⟩,
  ⟨0x5209, 12, 16, 7, 7, .u8, .ro, 1, 0, 0, 255, false, false, 0, true, "CMC_STATE"⟩,
  ⟨0x520a, 12, 16, 1, 1, .u8, .wo, 1, 0, 0, 8, false, false, 0, false, "MAINT_REQUEST"⟩,
  ⟨0x520a, 12, 16, 2, 2, .u16, .ro, 2, 0, 0, 65535, false, false, 0, true, "MAINT_MASK"⟩,
  ⟨0x520a, 12, 16, 3, 11, .u8, .ro, 1, 0, 0, 255, false, false, 0, true, "SELFTEST"⟩]

/-- Objects of the chapter on coding (08), part 0. -/
def rowsCoding0 : List ObjRow := [
  ⟨0x5306, 1, 1, 1, 1, .octets, .wo, 3, 0, 0, 3, false, false, 0, false, "LDD_CAP_SET"⟩,
  ⟨0x5306, 1, 1, 2, 2, .octets, .ro, 512, 0, 0, 512, false, false, 0, false, "LDD_CAP"⟩,
  ⟨0x5306, 1, 1, 3, 3, .octets, .const, 4, 0, 0, 4, false, false, 0, false, "LDD_C_IT"⟩,
  ⟨0x5307, 1, 1, 1, 1, .u32, .rws, 4, 0, 0, 1048576, false, true, 19, true, "SB_COUNT"⟩,
  ⟨0x5307, 1, 1, 2, 2, .u16, .rws, 2, 25344, 1024, 25344, false, true, 0, true, "SB_NCB_MAX"⟩,
  ⟨0x5307, 1, 1, 3, 3, .u32, .ro, 4, 12736, 0, 4294967295, false, false, 10, true, "SB_SLOT_SIZE"⟩,
  ⟨0x5307, 1, 1, 4, 4, .u64, .ro, 8, 0, 0, 18446744073709551615, false, false, 10, true, "SB_REGION"⟩,
  ⟨0x5307, 1, 1, 5, 5, .u32, .ro, 4, 0, 0, 4294967295, false, false, 0, true, "SB_VALID"⟩,
  ⟨0x5307, 1, 1, 6, 6, .octets, .wo, 6, 0, 0, 6, false, false, 0, false, "SB_QUOTA_SET"⟩,
  ⟨0x5307, 1, 1, 7, 7, .octets, .ro, 2048, 0, 0, 2048, false, false, 0, false, "SB_QUOTA"⟩,
  ⟨0x5307, 1, 1, 8, 8, .octets, .ro, 2048, 0, 0, 2048, false, false, 0, false, "SB_BASE"⟩,
  ⟨0x5300, 8, 16, 1, 1, .u64, .ro, 8, 0, 0, 18446744073709551615, false, false, 18, true, "JOBS"⟩,
  ⟨0x5301, 8, 16, 1, 1, .u64, .ro, 8, 0, 0, 18446744073709551615, false, false, 18, true, "JOBS"⟩,
  ⟨0x5302, 8, 16, 1, 1, .u64, .ro, 8, 0, 0, 18446744073709551615, false, false, 18, true, "JOBS"⟩,
  ⟨0x5303, 8, 16, 1, 1, .u64, .ro, 8, 0, 0, 18446744073709551615, false, false, 18, true, "JOBS"⟩,
  ⟨0x5304, 8, 16, 1, 1, .u64, .ro, 8, 0, 0, 18446744073709551615, false, false, 18, true, "JOBS"⟩,
  ⟨0x5305, 8, 16, 1, 1, .u64, .ro, 8, 0, 0, 18446744073709551615, false, false, 18, true, "JOBS"⟩,
  ⟨0x5300, 8, 16, 2, 2, .u64, .ro, 8, 0, 0, 18446744073709551615, false, false, 18, true, "BLOCKS"⟩,
  ⟨0x5301, 8, 16, 2, 2, .u64, .ro, 8, 0, 0, 18446744073709551615, false, false, 18, true, "BLOCKS"⟩,
  ⟨0x5302, 8, 16, 2, 2, .u64, .ro, 8, 0, 0, 18446744073709551615, false, false, 18, true, "BLOCKS"⟩,
  ⟨0x5303, 8, 16, 2, 2, .u64, .ro, 8, 0, 0, 18446744073709551615, false, false, 18, true, "BLOCKS"⟩,
  ⟨0x5304, 8, 16, 2, 2, .u64, .ro, 8, 0, 0, 18446744073709551615, false, false, 18, true, "BLOCKS"⟩,
  ⟨0x5305, 8, 16, 2, 2, .u64, .ro, 8, 0, 0, 18446744073709551615, false, false, 18, true, "BLOCKS"⟩,
  ⟨0x5300, 8, 16, 3, 3, .u64, .ro, 8, 0, 0, 18446744073709551615, false, false, 0, true, "FAILS"⟩,
  ⟨0x5301, 8, 16, 3, 3, .u64, .ro, 8, 0, 0, 18446744073709551615, false, false, 0, true, "FAILS"⟩]

/-- Objects of the chapter on coding (08), part 1. -/
def rowsCoding1 : List ObjRow := [
  ⟨0x5302, 8, 16, 3, 3, .u64, .ro, 8, 0, 0, 18446744073709551615, false, false, 0, true, "FAILS"⟩,
  ⟨0x5303, 8, 16, 3, 3, .u64, .ro, 8, 0, 0, 18446744073709551615, false, false, 0, true, "FAILS"⟩,
  ⟨0x5304, 8, 16, 3, 3, .u64, .ro, 8, 0, 0, 18446744073709551615, false, false, 0, true, "FAILS"⟩,
  ⟨0x5305, 8, 16, 3, 3, .u64, .ro, 8, 0, 0, 18446744073709551615, false, false, 0, true, "FAILS"⟩,
  ⟨0x5300, 8, 16, 4, 4, .u64, .ro, 8, 0, 0, 18446744073709551615, false, false, 0, true, "ITER_SUM"⟩,
  ⟨0x5301, 8, 16, 4, 4, .u64, .ro, 8, 0, 0, 18446744073709551615, false, false, 0, true, "ITER_SUM"⟩,
  ⟨0x5302, 8, 16, 4, 4, .u64, .ro, 8, 0, 0, 18446744073709551615, false, false, 0, true, "ITER_SUM"⟩,
  ⟨0x5303, 8, 16, 4, 4, .u64, .ro, 8, 0, 0, 18446744073709551615, false, false, 0, true, "ITER_SUM"⟩,
  ⟨0x5304, 8, 16, 4, 4, .u64, .ro, 8, 0, 0, 18446744073709551615, false, false, 0, true, "ITER_SUM"⟩,
  ⟨0x5305, 8, 16, 4, 4, .u64, .ro, 8, 0, 0, 18446744073709551615, false, false, 0, true, "ITER_SUM"⟩,
  ⟨0x5300, 8, 16, 5, 5, .u32, .ro, 4, 0, 0, 4294967295, false, false, 18, true, "PARAM_ERRORS"⟩,
  ⟨0x5301, 8, 16, 5, 5, .u32, .ro, 4, 0, 0, 4294967295, false, false, 18, true, "PARAM_ERRORS"⟩,
  ⟨0x5302, 8, 16, 5, 5, .u32, .ro, 4, 0, 0, 4294967295, false, false, 18, true, "PARAM_ERRORS"⟩,
  ⟨0x5303, 8, 16, 5, 5, .u32, .ro, 4, 0, 0, 4294967295, false, false, 18, true, "PARAM_ERRORS"⟩,
  ⟨0x5304, 8, 16, 5, 5, .u32, .ro, 4, 0, 0, 4294967295, false, false, 18, true, "PARAM_ERRORS"⟩,
  ⟨0x5305, 8, 16, 5, 5, .u32, .ro, 4, 0, 0, 4294967295, false, false, 18, true, "PARAM_ERRORS"⟩]

/-- Objects of the chapter on signal (09), part 0. -/
def rowsSignal0 : List ObjRow := [
  ⟨0x5308, 8, 16, 1, 1, .u64, .ro, 8, 0, 0, 18446744073709551615, false, false, 18, true, "FFE_JOBS"⟩,
  ⟨0x5308, 8, 16, 2, 2, .u64, .ro, 8, 0, 0, 18446744073709551615, false, false, 0, true, "FFE_TRANSFORMS"⟩,
  ⟨0x5308, 8, 16, 3, 3, .u64, .ro, 8, 0, 0, 18446744073709551615, false, false, 0, true, "FFE_SATURATIONS"⟩,
  ⟨0x5308, 8, 16, 4, 4, .u64, .ro, 8, 0, 0, 18446744073709551615, false, false, 0, true, "PRACH_DETECTIONS"⟩,
  ⟨0x5308, 8, 16, 5, 5, .u32, .ro, 4, 0, 0, 4294967295, false, false, 18, true, "FFE_PARAM_ERRORS"⟩,
  ⟨0x5308, 8, 16, 6, 6, .u8, .const, 1, 16, 0, 255, false, false, 18, true, "CONTEXT_RECORDS"⟩,
  ⟨0x5309, 8, 16, 1, 1, .u64, .ro, 8, 0, 0, 18446744073709551615, false, false, 18, true, "EQE_JOBS"⟩,
  ⟨0x5309, 8, 16, 2, 2, .u64, .ro, 8, 0, 0, 18446744073709551615, false, false, 0, true, "EQE_RES"⟩,
  ⟨0x5309, 8, 16, 3, 3, .u64, .ro, 8, 0, 0, 18446744073709551615, false, false, 0, true, "EQE_SATURATIONS"⟩,
  ⟨0x5309, 8, 16, 4, 4, .u64, .ro, 8, 0, 0, 18446744073709551615, false, false, 0, true, "IRC_FALLBACK"⟩,
  ⟨0x5309, 8, 16, 5, 5, .u32, .ro, 4, 0, 0, 4294967295, false, false, 18, true, "EQE_PARAM_ERRORS"⟩,
  ⟨0x530a, 8, 16, 1, 1, .u64, .ro, 8, 0, 0, 18446744073709551615, false, false, 18, true, "BWE_JOBS"⟩,
  ⟨0x530a, 8, 16, 2, 2, .u64, .ro, 8, 0, 0, 18446744073709551615, false, false, 18, true, "BWE_MATRICES"⟩,
  ⟨0x530a, 8, 16, 3, 3, .u64, .ro, 8, 0, 0, 18446744073709551615, false, false, 18, true, "RANK_DEFICIENT"⟩,
  ⟨0x530a, 8, 16, 4, 4, .u64, .ro, 8, 0, 0, 18446744073709551615, false, false, 18, true, "BWE_SATURATIONS"⟩,
  ⟨0x530a, 8, 16, 5, 5, .u32, .ro, 4, 0, 0, 4294967295, false, false, 18, true, "BWE_PARAM_ERRORS"⟩]

/-- Objects of the chapter on machine (10), part 0. -/
def rowsMachine0 : List ObjRow := [
  ⟨0x6100, 1, 1, 1, 1, .u32, .ro, 4, 4096, 0, 4294967295, false, false, 0, true, "BUCKETS"⟩,
  ⟨0x6100, 1, 1, 2, 2, .u32, .ro, 4, 0, 0, 4294967295, false, false, 0, false, "SEED"⟩,
  ⟨0x6100, 1, 1, 3, 3, .u32, .ro, 4, 0, 0, 4294967295, false, false, 18, true, "ENTRIES"⟩,
  ⟨0x6100, 1, 1, 4, 4, .octets, .wo, 8, 0, 0, 8, false, false, 0, false, "IDT_REBUILD"⟩,
  ⟨0x6100, 1, 1, 5, 5, .u8, .ro, 1, 0, 0, 255, false, false, 0, true, "REBUILD_STATE"⟩,
  ⟨0x6100, 1, 1, 6, 6, .u32, .ro, 4, 0, 0, 4294967295, false, false, 18, true, "CURSOR"⟩,
  ⟨0x6100, 1, 1, 7, 7, .u32, .ro, 4, 0, 0, 4294967295, false, false, 18, true, "NEW_BUCKETS"⟩,
  ⟨0x6100, 1, 1, 8, 8, .u16, .rw, 2, 1024, 64, 65535, false, true, 3, true, "MIGRATE_RATE"⟩,
  ⟨0x6100, 1, 1, 9, 9, .u32, .rws, 4, 524288, 4096, 524288, false, true, 0, true, "BUCKETS_MAX"⟩,
  ⟨0x6100, 1, 1, 10, 10, .u64, .ro, 8, 0, 0, 18446744073709551615, false, false, 10, false, "REGION"⟩,
  ⟨0x6100, 1, 1, 11, 11, .loc, .ro, 8, 0, 0, 18446744073709551615, false, false, 0, false, "SEQUENCER"⟩,
  ⟨0x6100, 1, 1, 12, 12, .u32, .ro, 4, 0, 0, 4194304, false, false, 0, true, "IDS_IN_USE"⟩,
  ⟨0x6100, 1, 1, 13, 13, .u32, .ro, 4, 0, 0, 4294967295, false, false, 0, true, "IDS_QUARANTINED"⟩,
  ⟨0x6100, 1, 1, 14, 14, .u64, .ro, 8, 0, 0, 18446744073709551615, false, false, 0, true, "INSERT_FULL"⟩,
  ⟨0x6100, 1, 1, 15, 15, .u64, .ro, 8, 0, 0, 18446744073709551615, false, false, 0, true, "ENTRIES_LOST"⟩,
  ⟨0x6100, 1, 1, 16, 16, .u32, .const, 4, 10000, 0, 4294967295, false, false, 3, true, "ID_QUARANTINE"⟩,
  ⟨0x6100, 1, 1, 17, 17, .u32, .ro, 4, 524288, 0, 4294967295, false, false, 0, true, "BUCKETS_MAX_NOW"⟩,
  ⟨0x8007, 512, 16, 1, 1, .octets, .wo, 65, 0, 0, 65, false, false, 0, false, "BIND_SET"⟩,
  ⟨0x8007, 512, 16, 2, 5, .octets, .ro, 64, 0, 0, 64, true, true, 0, false, "BINDING"⟩,
  ⟨0x8007, 512, 16, 6, 6, .u8, .wo, 1, 0, 0, 3, false, false, 0, false, "UNBIND"⟩,
  ⟨0x8007, 512, 16, 7, 7, .octets, .wo, 34, 0, 0, 34, false, false, 0, false, "RES_SET"⟩,
  ⟨0x8007, 512, 16, 8, 11, .octets, .ro, 2048, 0, 0, 2048, true, true, 0, false, "RESOURCES"⟩,
  ⟨0x8007, 512, 16, 12, 12, .octets, .ro, 4, 0, 0, 4, true, false, 0, false, "BIND_STATE"⟩,
  ⟨0x8007, 512, 16, 13, 13, .u32, .rw, 4, 0, 0, 4194304, true, true, 18, true, "IDT_QUOTA"⟩,
  ⟨0x8007, 512, 16, 14, 14, .u32, .ro, 4, 0, 0, 4294967295, true, false, 18, true, "IDT_ENTRIES"⟩]

/-- Objects of the chapter on machine (10), part 1. -/
def rowsMachine1 : List ObjRow := [
  ⟨0x6000, 4, 16, 1, 1, .u8, .ro, 1, 0, 0, 255, false, false, 0, true, "STATE"⟩,
  ⟨0x6000, 4, 16, 2, 2, .u16, .ro, 2, 0, 0, 1024, false, false, 0, true, "CHANNELS_USED"⟩,
  ⟨0x6000, 4, 16, 3, 3, .u8, .ro, 1, 0, 0, 32, false, false, 0, true, "INPUTS_USED"⟩,
  ⟨0x6000, 4, 16, 4, 4, .u8, .ro, 1, 0, 0, 16, false, false, 0, true, "BINDINGS"⟩,
  ⟨0x6000, 4, 16, 5, 5, .u16, .ro, 2, 0, 0, 256, false, false, 0, true, "RESOURCES_USED"⟩,
  ⟨0x6001, 4, 16, 1, 13, .u64, .ro, 8, 0, 0, 18446744073709551615, false, false, 18, true, "COUNTS"⟩,
  ⟨0x6002, 4, 16, 1, 1, .u32, .const, 4, 65536, 0, 4294967295, false, false, 0, true, "LOOKUP_RATE"⟩,
  ⟨0x6002, 4, 16, 2, 2, .u16, .const, 2, 1024, 0, 65535, false, false, 0, true, "LOOKUP_QUEUE"⟩,
  ⟨0x6002, 4, 16, 3, 3, .u16, .ro, 2, 0, 0, 65535, false, false, 0, true, "LOOKUP_DEPTH_MAX"⟩,
  ⟨0x6002, 4, 16, 4, 4, .u32, .const, 4, 100000, 0, 4294967295, false, false, 1, true, "REC_LATENCY_S"⟩,
  ⟨0x6002, 4, 16, 5, 5, .u32, .const, 4, 200000, 0, 4294967295, false, false, 1, true, "REC_LATENCY_E"⟩]

/-- Objects of the chapter on lane (11), part 0. -/
def rowsLane0 : List ObjRow := [
  ⟨0xa000, 64, 1, 1, 1, .octets, .wo, 12, 0, 0, 12, false, false, 0, false, "SCAN_START"⟩,
  ⟨0xa000, 64, 1, 2, 2, .u8, .ro, 1, 0, 0, 255, false, false, 0, true, "SCAN_STATE"⟩,
  ⟨0xa000, 64, 1, 3, 3, .octets, .ro, 16448, 0, 0, 16448, false, false, 0, false, "SCAN_RESULT"⟩,
  ⟨0xa000, 64, 1, 4, 4, .bool, .wo, 1, 0, 0, 1, false, false, 0, false, "SCAN_ABORT"⟩,
  ⟨0x3000, 64, 16, 1, 1, .loc, .const, 8, 0, 0, 18446744073709551615, false, false, 0, false, "LOC"⟩,
  ⟨0x3000, 64, 16, 2, 2, .bool, .const, 1, 0, 0, 1, false, false, 0, false, "CPRI_CAPABLE"⟩,
  ⟨0x3000, 64, 16, 3, 3, .u8, .ro, 1, 0, 0, 255, false, false, 0, true, "STATE"⟩,
  ⟨0x3000, 64, 16, 4, 4, .u8, .rw, 1, 0, 0, 3, false, true, 0, true, "REQ_STATE"⟩,
  ⟨0x3000, 64, 16, 5, 5, .u8, .ro, 1, 0, 0, 255, false, false, 0, true, "LINK_FLAGS"⟩,
  ⟨0x3000, 64, 16, 6, 6, .i16, .ro, 2, 0, -32768, 32767, false, false, 13, false, "TEMP"⟩,
  ⟨0x3001, 64, 16, 1, 1, .u8, .rws, 1, 0, 0, 255, false, true, 0, true, "RATE"⟩,
  ⟨0x3001, 64, 16, 2, 2, .bool, .rw, 1, 0, 0, 1, false, true, 0, true, "TX_INVERT"⟩,
  ⟨0x3001, 64, 16, 3, 3, .bool, .rw, 1, 0, 0, 1, false, true, 0, true, "RX_INVERT"⟩,
  ⟨0x3001, 64, 16, 4, 4, .u8, .rw, 1, 0, 0, 3, false, true, 0, true, "PRECODE"⟩,
  ⟨0x3001, 64, 16, 5, 5, .u8, .rw, 1, 0, 0, 2, false, false, 0, true, "LOOPBACK"⟩,
  ⟨0x3001, 64, 16, 6, 6, .u8, .rw, 1, 0, 0, 7, false, false, 0, true, "PRBS_GEN"⟩,
  ⟨0x3001, 64, 16, 7, 7, .u8, .rw, 1, 0, 0, 7, false, false, 0, true, "PRBS_CHK"⟩,
  ⟨0x3002, 64, 16, 1, 1, .u8, .rw, 1, 12, 0, 15, false, true, 0, true, "TX_SWING"⟩,
  ⟨0x3002, 64, 16, 2, 5, .i8, .rw, 1, 0, -128, 127, false, true, 0, false, "TAP"⟩,
  ⟨0x3003, 64, 16, 1, 1, .u8, .rw, 1, 0, 0, 1, false, true, 0, true, "CTLE_MODE"⟩,
  ⟨0x3003, 64, 16, 2, 2, .u8, .rw, 1, 8, 0, 15, false, true, 0, true, "CTLE_CODE"⟩,
  ⟨0x3003, 64, 16, 3, 3, .u8, .ro, 1, 16, 0, 31, false, false, 0, true, "VGA"⟩,
  ⟨0x3003, 64, 16, 4, 4, .u8, .rw, 1, 0, 0, 1, false, false, 0, true, "DFE_MODE"⟩,
  ⟨0x3003, 64, 16, 5, 5, .octets, .ro, 12, 0, 0, 12, false, false, 0, false, "DFE_TAPS"⟩,
  ⟨0x3003, 64, 16, 6, 6, .u8, .rw, 1, 1, 0, 3, false, true, 0, true, "CDR_BW"⟩]

/-- Objects of the chapter on lane (11), part 1. -/
def rowsLane1 : List ObjRow := [
  ⟨0x3003, 64, 16, 7, 7, .u8, .ro, 1, 1, 0, 3, false, false, 0, true, "CDR_BW_NOW"⟩,
  ⟨0x3004, 64, 16, 1, 1, .octets, .ro, 48, 0, 0, 48, false, false, 0, false, "CAL_RECORD"⟩,
  ⟨0x3004, 64, 16, 2, 2, .u8, .rw, 1, 10, 2, 40, false, true, 12, true, "WIN_TEMP"⟩,
  ⟨0x3004, 64, 16, 3, 3, .u8, .rw, 1, 15, 5, 50, false, true, 14, true, "WIN_SUPPLY"⟩,
  ⟨0x3004, 64, 16, 4, 4, .u16, .rw, 2, 24, 1, 168, false, true, 5, true, "WIN_AGE"⟩,
  ⟨0x3004, 64, 16, 5, 5, .bool, .wo, 1, 0, 0, 1, false, false, 0, false, "RECENTRE"⟩,
  ⟨0x3004, 64, 16, 6, 6, .u8, .ro, 1, 0, 0, 2, false, false, 0, true, "LOAD_CLASS"⟩,
  ⟨0x3005, 64, 16, 1, 11, .u64, .ro, 8, 0, 0, 18446744073709551615, false, false, 1, true, "LANE_STATS"⟩,
  ⟨0x3006, 64, 16, 1, 1, .bool, .ro, 1, 0, 0, 1, false, false, 0, true, "AM_LOCKED"⟩,
  ⟨0x3006, 64, 16, 2, 2, .i32, .ro, 4, 0, -2147483648, 2147483647, false, false, 20, true, "SKEW"⟩,
  ⟨0x3007, 64, 16, 1, 1, .u64, .ro, 8, 0, 0, 18446744073709551615, false, false, 0, true, "PRBS_BITS"⟩,
  ⟨0x3007, 64, 16, 2, 2, .u64, .ro, 8, 0, 0, 18446744073709551615, false, false, 0, true, "PRBS_ERRORS"⟩,
  ⟨0x3007, 64, 16, 3, 3, .bool, .ro, 1, 0, 0, 1, false, false, 0, true, "PRBS_LOCKED"⟩,
  ⟨0x3007, 64, 16, 4, 4, .bool, .wo, 1, 0, 0, 1, false, false, 0, false, "PRBS_CLEAR"⟩]

/-- Objects of the chapter on port (12), part 0. -/
def rowsPort0 : List ObjRow := [
  ⟨0x3400, 64, 16, 1, 1, .u8, .ro, 1, 0, 0, 255, false, false, 0, true, "STATE"⟩,
  ⟨0x3400, 64, 16, 2, 2, .u8, .rws, 1, 0, 0, 255, false, true, 0, true, "MODE"⟩,
  ⟨0x3400, 64, 16, 3, 3, .u16, .rw, 2, 1500, 256, 9000, false, true, 10, true, "MTU"⟩,
  ⟨0x3401, 64, 16, 1, 1, .octets, .rw, 6, 0, 0, 6, false, true, 0, false, "MAC_ADDR"⟩,
  ⟨0x3401, 64, 16, 2, 2, .octets, .rw, 6, 0, 0, 6, false, true, 0, false, "PEER_MAC"⟩,
  ⟨0x3401, 64, 16, 3, 3, .u16, .rw, 2, 0, 0, 65535, false, true, 0, true, "VLAN_TCI"⟩,
  ⟨0x3401, 64, 16, 4, 4, .u16, .rw, 2, 65535, 1, 65535, false, true, 0, true, "VLAN_ID"⟩,
  ⟨0x3401, 64, 16, 5, 5, .u8, .rw, 1, 0, 0, 2, false, true, 0, true, "ENCAP"⟩,
  ⟨0x3401, 64, 16, 6, 6, .octets, .rw, 16, 0, 0, 16, false, true, 0, false, "IP_ADDR"⟩,
  ⟨0x3401, 64, 16, 7, 7, .octets, .rw, 16, 0, 0, 16, false, true, 0, false, "PEER_IP"⟩,
  ⟨0x3401, 64, 16, 8, 8, .u16, .rw, 2, 44798, 1, 65535, false, true, 0, true, "UDP_PORT"⟩,
  ⟨0x3402, 64, 16, 1, 1, .u8, .rws, 1, 1, 0, 1, false, true, 0, true, "COMP_METHOD"⟩,
  ⟨0x3402, 64, 16, 2, 2, .u8, .rws, 1, 9, 1, 16, false, true, 0, true, "COMP_MANT"⟩,
  ⟨0x3402, 64, 16, 3, 3, .bool, .rws, 1, 0, 0, 1, false, true, 0, true, "COMP_HDR"⟩,
  ⟨0x3402, 64, 16, 4, 4, .u32, .rw, 4, 30000, 1000, 500000, false, true, 1, true, "RX_CLOSE"⟩,
  ⟨0x3402, 64, 16, 5, 5, .u32, .rw, 4, 100000, 10000, 1000000, false, true, 1, true, "TX_OPEN"⟩,
  ⟨0x3402, 64, 16, 6, 6, .u32, .rw, 4, 30000, 0, 1000000, false, true, 1, true, "TX_CLOSE"⟩,
  ⟨0x3402, 64, 16, 7, 7, .u32, .const, 4, 2000, 0, 4294967295, false, false, 1, true, "TX_ADVANCE"⟩,
  ⟨0x3402, 64, 16, 8, 8, .u32, .rw, 4, 300000, 50000, 2000000, false, true, 1, true, "CP_ADV_MAX"⟩,
  ⟨0x3402, 64, 16, 9, 9, .u32, .rw, 4, 50000, 0, 2000000, false, true, 1, true, "CP_ADV_MIN"⟩,
  ⟨0x3406, 64, 16, 1, 16, .octets, .ro, 32, 0, 0, 32, false, true, 0, false, "AXC_DESC"⟩,
  ⟨0x3407, 64, 16, 1, 1, .octets, .wo, 32, 0, 0, 32, false, false, 0, false, "AXC_BIND"⟩,
  ⟨0x3407, 64, 16, 2, 2, .u16, .wo, 2, 0, 0, 1023, false, false, 0, false, "AXC_UNBIND"⟩,
  ⟨0x3408, 64, 16, 1, 1, .u8, .rw, 1, 2, 0, 2, false, true, 0, true, "PTP_STEP"⟩,
  ⟨0x3408, 64, 16, 2, 2, .i32, .rw, 4, 0, -100000, 100000, false, true, 20, true, "PTP_ASYM"⟩]

/-- Objects of the chapter on port (12), part 1. -/
def rowsPort1 : List ObjRow := [
  ⟨0x3408, 64, 16, 3, 3, .bool, .rw, 1, 0, 0, 1, false, true, 0, true, "ESMC_TX"⟩,
  ⟨0x3408, 64, 16, 4, 4, .u8, .ro, 1, 15, 0, 255, false, false, 0, true, "SSM_RX"⟩,
  ⟨0x3408, 64, 16, 5, 5, .u8, .wo, 1, 0, 0, 255, false, false, 0, false, "OWDM_START"⟩,
  ⟨0x3408, 64, 16, 6, 6, .i64, .ro, 8, 0, -9223372036854775808, 9223372036854775807, false, false, 1, true, "OWDM_RESULT"⟩,
  ⟨0x3408, 64, 16, 7, 7, .u32, .ro, 4, 0, 0, 4294967295, false, false, 1, true, "CPRI_RTD"⟩,
  ⟨0x340a, 64, 16, 1, 16, .u64, .ro, 8, 0, 0, 18446744073709551615, false, false, 18, true, "PORT_STATS"⟩]

/-- Objects of the chapter on timing (13), part 0. -/
def rowsTiming0 : List ObjRow := [
  ⟨0x2000, 1, 1, 1, 1, .u8, .ro, 1, 0, 0, 255, false, false, 0, true, "STATE"⟩,
  ⟨0x2000, 1, 1, 2, 2, .u8, .ro, 1, 15, 0, 7, false, false, 0, true, "SELECTED"⟩,
  ⟨0x2000, 1, 1, 3, 3, .u8, .rw, 1, 0, 0, 2, false, true, 0, true, "LOOP_MODE"⟩,
  ⟨0x2000, 1, 1, 4, 4, .u32, .rw, 4, 100000, 100, 10000000, false, true, 0, true, "LOOP_BW"⟩,
  ⟨0x2000, 1, 1, 5, 5, .u8, .rw, 1, 0, 0, 1, false, true, 0, true, "SEL_MODE"⟩,
  ⟨0x2000, 1, 1, 6, 6, .bool, .rw, 1, 0, 0, 1, false, true, 0, true, "REVERTIVE"⟩,
  ⟨0x2000, 1, 1, 7, 7, .u8, .rw, 1, 255, 0, 255, false, false, 0, true, "FORCE_REF"⟩,
  ⟨0x2000, 1, 1, 8, 8, .i32, .ro, 4, 0, -50000000, 50000000, false, false, 7, true, "CV"⟩,
  ⟨0x2000, 1, 1, 9, 9, .i32, .rw, 4, 0, -50000000, 50000000, false, false, 7, true, "SW_FREQ"⟩,
  ⟨0x2000, 1, 1, 10, 10, .i64, .ro, 8, 0, -9223372036854775808, 9223372036854775807, false, false, 20, true, "PHASE_ERR"⟩,
  ⟨0x2000, 1, 1, 11, 11, .i32, .ro, 4, 0, -2147483648, 2147483647, false, false, 7, true, "FREQ_ERR"⟩,
  ⟨0x2001, 1, 1, 1, 1, .u16, .rw, 2, 60, 1, 3600, false, true, 4, true, "HO_WIN"⟩,
  ⟨0x2001, 1, 1, 2, 2, .u16, .rw, 2, 10, 0, 600, false, true, 4, true, "HO_GUARD"⟩,
  ⟨0x2001, 1, 1, 3, 3, .i32, .ro, 4, 0, -2147483648, 2147483647, false, true, 7, true, "HO_CV"⟩,
  ⟨0x2001, 1, 1, 4, 4, .u32, .rw, 4, 10000, 0, 50000000, false, true, 7, true, "HO_FREQ_UNC"⟩,
  ⟨0x2001, 1, 1, 5, 5, .u32, .rw, 4, 1000, 0, 1000000, false, true, 7, true, "OSC_AGING"⟩,
  ⟨0x2001, 1, 1, 6, 6, .u32, .rw, 4, 1100, 0, 1000000, false, true, 1, true, "HO_SPEC"⟩,
  ⟨0x2002, 1, 1, 1, 1, .u8, .rw, 1, 5, 0, 6, false, true, 15, true, "OSC_FREQ"⟩,
  ⟨0x2002, 1, 1, 2, 2, .bool, .ro, 1, 0, 0, 1, false, false, 0, true, "OSC_SUSPECT"⟩,
  ⟨0x2003, 1, 1, 1, 1, .u64, .ro, 8, 0, 0, 18446744073709551615, false, false, 6, false, "DTC"⟩,
  ⟨0x2003, 1, 1, 2, 2, .u64, .ro, 8, 0, 0, 18446744073709551615, false, false, 6, false, "UPTIME"⟩,
  ⟨0x2003, 1, 1, 3, 3, .u64, .ro, 8, 0, 0, 18446744073709551615, false, false, 0, false, "STC"⟩,
  ⟨0x2003, 1, 1, 4, 4, .u32, .ro, 4, 3932160000, 0, 4294967295, false, false, 6, true, "STC_K"⟩,
  ⟨0x2003, 1, 1, 5, 5, .u32, .ro, 4, 1000000, 0, 4294967295, false, false, 7, true, "STC_K_UNC"⟩,
  ⟨0x2003, 1, 1, 6, 6, .u32, .rw, 4, 5000000, 0, 100000000, false, true, 7, true, "STC_DRIFT"⟩]

/-- Objects of the chapter on timing (13), part 1. -/
def rowsTiming1 : List ObjRow := [
  ⟨0x2003, 1, 1, 7, 7, .i64, .wo, 8, 0, -9223372036854775808, 9223372036854775807, false, false, 6, false, "DTC_ADJUST"⟩,
  ⟨0x2003, 1, 1, 8, 8, .i64, .ro, 8, 0, -9223372036854775808, 9223372036854775807, false, false, 6, true, "SLEW_REMAIN"⟩,
  ⟨0x2003, 1, 1, 9, 9, .octets, .ro, 16, 0, 0, 16, true, false, 0, false, "TIME_QUALITY"⟩,
  ⟨0x2003, 1, 1, 10, 10, .i16, .rw, 2, 18, -64, 255, false, true, 4, true, "UTC_OFFSET"⟩,
  ⟨0x2004, 1, 1, 1, 1, .i32, .rw, 4, 0, -1000000, 1000000, false, true, 6, true, "PPS_OUT_OFS"⟩,
  ⟨0x2004, 1, 1, 2, 2, .u32, .rw, 4, 100000, 1, 500000, false, true, 2, true, "PPS_WIDTH"⟩,
  ⟨0x2004, 1, 1, 3, 3, .u32, .rw, 4, 0, 0, 19660799, false, true, 6, true, "FRAME_OUT_OFS"⟩,
  ⟨0x2004, 1, 1, 4, 4, .u8, .rw, 1, 7, 0, 7, false, true, 3, true, "TDD_PERIOD"⟩,
  ⟨0x2004, 1, 1, 5, 5, .u8, .rw, 1, 1, 0, 3, false, true, 0, true, "TDD_MU"⟩,
  ⟨0x2004, 1, 1, 6, 6, .octets, .rw, 10, 0, 0, 10, false, true, 0, false, "TDD_MASK"⟩,
  ⟨0x2004, 1, 1, 7, 7, .i32, .rw, 4, 0, -100000, 100000, false, true, 1, true, "TDD_ADV"⟩,
  ⟨0x2004, 1, 1, 8, 9, .u16, .rw, 2, 0, 0, 4096, false, true, 0, true, "SCLK_DIV"⟩,
  ⟨0x2005, 1, 1, 1, 1, .u8, .rw, 1, 255, 0, 255, false, true, 0, true, "PTP_PORT"⟩,
  ⟨0x2005, 1, 1, 2, 2, .u8, .rw, 1, 0, 0, 1, false, true, 0, true, "PTP_PROFILE"⟩,
  ⟨0x2005, 1, 1, 3, 3, .u8, .rw, 1, 24, 0, 255, false, true, 0, true, "PTP_DOMAIN"⟩,
  ⟨0x2005, 1, 1, 4, 4, .u64, .rw, 8, 0, 0, 18446744073709551615, false, true, 0, true, "PTP_TX_MASK"⟩,
  ⟨0x2005, 1, 1, 5, 5, .u8, .rw, 1, 6, 6, 255, false, true, 0, true, "CLASS_LOCKED"⟩,
  ⟨0x2005, 1, 1, 6, 6, .u8, .ro, 1, 248, 0, 255, false, false, 0, true, "CLASS_NOW"⟩,
  ⟨0x2005, 1, 1, 7, 7, .u32, .rw, 4, 9600, 4800, 115200, false, true, 21, true, "TOD_BAUD"⟩,
  ⟨0x2010, 8, 1, 1, 1, .u8, .const, 1, 0, 0, 255, false, false, 0, false, "KIND"⟩,
  ⟨0x2010, 8, 1, 2, 2, .bool, .rw, 1, 0, 0, 1, false, true, 0, true, "ENABLE"⟩,
  ⟨0x2010, 8, 1, 3, 3, .u8, .rw, 1, 0, 0, 8, false, true, 0, false, "PRIORITY"⟩,
  ⟨0x2010, 8, 1, 4, 4, .u8, .ro, 1, 0, 0, 255, false, false, 0, true, "STATE"⟩,
  ⟨0x2010, 8, 1, 5, 5, .u8, .ro, 1, 0, 0, 255, false, false, 0, true, "FLAGS"⟩,
  ⟨0x2010, 8, 1, 6, 6, .u32, .rw, 4, 0, 10, 100000, false, true, 8, false, "DISQ"⟩]

/-- Objects of the chapter on timing (13), part 2. -/
def rowsTiming2 : List ObjRow := [
  ⟨0x2010, 8, 1, 7, 7, .u16, .rw, 2, 10, 1, 600, false, true, 4, true, "SOAK"⟩,
  ⟨0x2010, 8, 1, 8, 8, .u16, .rw, 2, 300, 0, 720, false, true, 4, true, "WTR_TIME"⟩,
  ⟨0x2010, 8, 1, 9, 9, .u8, .rw, 1, 8, 0, 15, false, true, 0, true, "QL_FIXED"⟩,
  ⟨0x2010, 8, 1, 10, 10, .bool, .rw, 1, 0, 0, 1, false, true, 0, true, "QL_FROM_LINK"⟩,
  ⟨0x2010, 8, 1, 11, 11, .i32, .rw, 4, 0, -1000000, 1000000, false, true, 1, true, "REF_DELAY"⟩,
  ⟨0x2010, 8, 1, 12, 12, .u32, .rw, 4, 100, 0, 4294967295, false, true, 7, true, "REF_UNC"⟩,
  ⟨0x2010, 8, 1, 13, 13, .u32, .rw, 4, 10000000, 1000, 200000000, false, true, 16, true, "FREQ_HZ"⟩,
  ⟨0x2010, 8, 1, 14, 14, .u8, .rw, 1, 255, 0, 255, false, true, 0, true, "LANE"⟩,
  ⟨0x2010, 8, 1, 15, 15, .i32, .ro, 4, 0, -2147483648, 2147483647, false, false, 7, true, "X"⟩,
  ⟨0x2010, 8, 1, 16, 16, .i32, .ro, 4, 0, -2147483648, 2147483647, false, false, 7, true, "D"⟩,
  ⟨0x2010, 8, 1, 17, 17, .u16, .ro, 2, 0, 0, 65535, false, false, 4, true, "TIMER_REMAIN"⟩,
  ⟨0x2020, 1, 1, 1, 7, .u64, .ro, 8, 0, 0, 18446744073709551615, false, false, 18, true, "TIMING_STATS"⟩,
  ⟨0x2100, 512, 1, 1, 1, .octets, .rw, 16, 0, 0, 16, false, true, 0, false, "CI_CONFIG"⟩,
  ⟨0x2100, 512, 1, 2, 2, .bool, .ro, 1, 0, 0, 1, true, false, 0, true, "CI_ACTIVE"⟩]

/-- Objects of the chapter on dram (14), part 0. -/
def rowsDram0 : List ObjRow := [
  ⟨0x4000, 1, 1, 1, 1, .u8, .const, 1, 0, 0, 255, false, false, 0, false, "DDR_GEN"⟩,
  ⟨0x4000, 1, 1, 2, 2, .u16, .rws, 2, 0, 0, 65535, false, true, 4, true, "DATA_RATE"⟩,
  ⟨0x4000, 1, 1, 3, 3, .u8, .rws, 1, 0, 0, 255, false, true, 0, true, "CHANNELS"⟩,
  ⟨0x4000, 1, 1, 4, 4, .u8, .rws, 1, 1, 1, 2, false, true, 0, true, "RANKS"⟩,
  ⟨0x4000, 1, 1, 5, 5, .u8, .rws, 1, 1, 0, 2, false, true, 0, true, "DENSITY"⟩,
  ⟨0x4000, 1, 1, 6, 6, .u8, .rws, 1, 0, 0, 1, false, true, 0, true, "MODULE"⟩,
  ⟨0x4000, 1, 1, 7, 7, .u8, .wo, 1, 0, 0, 255, false, false, 0, false, "START"⟩,
  ⟨0x4000, 1, 1, 8, 8, .u8, .ro, 1, 0, 0, 255, false, false, 0, true, "STATE"⟩,
  ⟨0x4000, 1, 1, 9, 9, .u64, .ro, 8, 0, 0, 18446744073709551615, false, false, 10, true, "CAPACITY"⟩,
  ⟨0x4000, 1, 1, 10, 10, .u64, .ro, 8, 0, 0, 18446744073709551615, false, false, 10, true, "PEAK_BW"⟩,
  ⟨0x4000, 1, 1, 11, 11, .u32, .ro, 4, 0, 0, 4294967295, false, false, 0, true, "TOKEN_CAPACITY"⟩,
  ⟨0x4001, 1, 1, 1, 1, .u8, .rw, 1, 15, 2, 40, false, true, 12, true, "WIN_TEMP"⟩,
  ⟨0x4001, 1, 1, 2, 2, .u8, .rw, 1, 20, 5, 60, false, true, 14, true, "WIN_VDDQ"⟩,
  ⟨0x4001, 1, 1, 3, 3, .u16, .rw, 2, 24, 1, 168, false, true, 5, true, "WIN_AGE"⟩,
  ⟨0x4001, 1, 1, 4, 4, .u16, .rw, 2, 100, 10, 1000, false, true, 3, true, "TRACK_PERIOD"⟩,
  ⟨0x4001, 1, 1, 5, 5, .u8, .rw, 1, 5, 1, 20, false, true, 12, true, "TRACK_TEMP"⟩,
  ⟨0x4001, 1, 1, 6, 6, .u8, .rw, 1, 10, 5, 50, false, true, 14, true, "TRACK_VDDQ"⟩,
  ⟨0x4002, 1, 1, 1, 16, .u32, .rw, 4, 0, 100, 50000, false, true, 1, false, "TARGET"⟩,
  ⟨0x4002, 1, 1, 17, 17, .u32, .const, 4, 3000, 0, 4294967295, false, false, 1, true, "URG_WIN"⟩,
  ⟨0x4002, 1, 1, 18, 18, .u8, .rw, 1, 9, 1, 25, false, true, 0, true, "PLAN_PCT"⟩,
  ⟨0x4002, 1, 1, 19, 19, .u16, .rw, 2, 200, 50, 10000, false, true, 1, true, "PD_IDLE"⟩,
  ⟨0x4003, 1, 1, 1, 1, .u16, .rw, 2, 2048, 256, 16384, false, true, 0, true, "RAA_TH"⟩,
  ⟨0x4003, 1, 1, 2, 2, .u8, .rw, 1, 1, 1, 2, false, true, 0, true, "NEIGHBOUR"⟩,
  ⟨0x4003, 1, 1, 3, 3, .u8, .const, 1, 85, 0, 255, false, false, 12, true, "HOT_TEMP"⟩,
  ⟨0x4003, 1, 1, 4, 4, .i8, .rw, 1, 10, -20, 40, false, true, 12, true, "TEMP_OFS"⟩]

/-- Objects of the chapter on dram (14), part 1. -/
def rowsDram1 : List ObjRow := [
  ⟨0x4004, 1, 1, 1, 1, .u32, .rw, 4, 50, 0, 10000, false, true, 2, true, "FREEZE_AUTO"⟩,
  ⟨0x4004, 1, 1, 2, 2, .u8, .rw, 1, 3, 1, 7, false, true, 0, true, "CMD_RETRY"⟩,
  ⟨0x4004, 1, 1, 3, 3, .u16, .rw, 2, 24, 0, 720, false, true, 5, true, "SCRUB_PERIOD"⟩,
  ⟨0x4004, 1, 1, 4, 4, .u32, .rw, 4, 1000, 1, 1000000, false, true, 5, true, "DEVICE_CE_TH"⟩,
  ⟨0x4100, 8, 16, 1, 1, .loc, .const, 8, 0, 0, 18446744073709551615, false, false, 0, false, "LOC"⟩,
  ⟨0x4100, 8, 16, 2, 2, .u8, .ro, 1, 0, 0, 255, false, false, 0, true, "STATE"⟩,
  ⟨0x4100, 8, 16, 3, 3, .i16, .ro, 2, 0, -32768, 32767, false, false, 13, false, "TEMP"⟩,
  ⟨0x4100, 8, 16, 4, 4, .u16, .ro, 2, 0, 0, 65535, false, false, 14, false, "VDDQ"⟩,
  ⟨0x4100, 8, 16, 5, 5, .u8, .ro, 1, 0, 0, 2, false, false, 0, true, "LOAD_CLASS"⟩,
  ⟨0x4100, 8, 16, 6, 6, .bool, .ro, 1, 0, 0, 1, false, false, 0, true, "HOT"⟩,
  ⟨0x4101, 8, 16, 1, 1, .bool, .wo, 1, 0, 0, 1, false, false, 0, false, "RESUME"⟩,
  ⟨0x4101, 8, 16, 2, 2, .octets, .ro, 64, 0, 0, 64, false, false, 0, false, "SNAPSHOT"⟩,
  ⟨0x4101, 8, 16, 3, 3, .u32, .ro, 4, 0, 0, 4294967295, false, false, 0, true, "FREEZE_EXTRA"⟩,
  ⟨0x4102, 8, 16, 1, 2, .octets, .ro, 32, 0, 0, 32, false, false, 0, false, "CAL_RECORD"⟩,
  ⟨0x4102, 8, 16, 3, 3, .bool, .wo, 1, 0, 0, 1, false, false, 0, false, "RECENTRE"⟩,
  ⟨0x4103, 8, 16, 1, 18, .u64, .ro, 8, 0, 0, 18446744073709551615, false, false, 18, true, "DRAM_STATS"⟩,
  ⟨0x4104, 8, 16, 1, 16, .u32, .ro, 4, 0, 0, 4294967295, false, false, 1, true, "LATENCY_MAX"⟩,
  ⟨0x4104, 8, 16, 17, 17, .octets, .ro, 160, 0, 0, 160, false, false, 0, false, "CE_BY_DEVICE"⟩]

/-- Objects of the chapter on sram (15), part 0. -/
def rowsSram0 : List ObjRow := [
  ⟨0x4200, 1, 1, 1, 1, .u16, .rw, 2, 10, 0, 3600, false, true, 4, true, "SRAM_SCRUB_PERIOD"⟩,
  ⟨0x4200, 1, 1, 2, 2, .u8, .const, 1, 4, 0, 255, false, false, 18, true, "COLUMN_TH"⟩,
  ⟨0x4201, 1, 1, 1, 5, .u64, .ro, 8, 0, 0, 18446744073709551615, false, false, 0, true, "PASSES"⟩,
  ⟨0x4202, 1, 1, 1, 5, .octets, .ro, 48, 0, 0, 48, false, false, 0, false, "SCRUB_STATS"⟩,
  ⟨0x4210, 1, 1, 1, 1, .loc, .rw, 8, 0, 0, 18446744073709551615, false, false, 0, true, "MACRO_SELECT"⟩,
  ⟨0x4210, 1, 1, 2, 2, .octets, .ro, 32, 0, 0, 32, false, false, 0, false, "MACRO_STATE"⟩,
  ⟨0x4210, 1, 1, 3, 3, .u32, .ro, 4, 0, 0, 4294967295, false, false, 18, true, "FENCED_MACROS"⟩,
  ⟨0x4300, 1, 1, 1, 1, .u32, .ro, 4, 0, 0, 4294967295, false, false, 0, false, "LIFE_PPM"⟩,
  ⟨0x4300, 1, 1, 2, 2, .octets, .ro, 256, 0, 0, 256, false, false, 0, false, "DOMAIN_RECORD"⟩,
  ⟨0x4300, 1, 1, 3, 3, .u8, .rw, 1, 0, 0, 50, false, false, 0, true, "DOMAIN_SELECT"⟩,
  ⟨0x4300, 1, 1, 4, 4, .u64, .ro, 8, 0, 0, 18446744073709551615, false, false, 0, false, "SERVICE_START"⟩,
  ⟨0x4301, 1, 1, 1, 1, .u32, .ro, 4, 0, 0, 4294967295, false, false, 0, false, "LEDGER_SEQ"⟩,
  ⟨0x4301, 1, 1, 2, 2, .u8, .ro, 1, 3, 0, 255, false, false, 0, true, "LEDGER_COPIES"⟩,
  ⟨0x4301, 1, 1, 3, 3, .bool, .wo, 1, 0, 0, 1, false, false, 0, false, "LEDGER_WRITE"⟩,
  ⟨0x4302, 1, 1, 1, 1, .u8, .ro, 1, 0, 0, 108, false, false, 0, true, "CORES_OUT"⟩,
  ⟨0x4302, 1, 1, 2, 2, .u16, .ro, 2, 4095, 0, 65535, false, false, 0, true, "SPARES_LEFT"⟩]

/-- Objects of the chapter on noc (16), part 0. -/
def rowsNoc0 : List ObjRow := [
  ⟨0xa100, 1, 1, 1, 1, .u16, .rw, 2, 0, 0, 511, false, false, 0, true, "LINK_SELECT"⟩,
  ⟨0xa100, 1, 1, 2, 2, .u8, .ro, 1, 0, 0, 48, false, false, 19, true, "LINK_RESERVED"⟩,
  ⟨0xa100, 1, 1, 3, 3, .u8, .ro, 1, 0, 0, 48, false, false, 19, true, "LINK_RESERVED_MAX"⟩,
  ⟨0xa100, 1, 1, 4, 4, .octets, .ro, 16, 0, 0, 16, false, false, 0, false, "LINK_FLITS"⟩,
  ⟨0xa100, 1, 1, 5, 5, .u8, .const, 1, 48, 0, 255, false, false, 19, true, "GT_LIMIT"⟩,
  ⟨0xa100, 1, 1, 6, 6, .u8, .const, 1, 31, 0, 255, false, false, 0, true, "TRAIN_LIMIT"⟩,
  ⟨0xa101, 1, 1, 1, 4, .u64, .ro, 8, 0, 0, 18446744073709551615, false, false, 18, true, "WAKE_HOLDS"⟩,
  ⟨0xa101, 1, 1, 5, 5, .u64, .ro, 8, 0, 0, 18446744073709551615, false, false, 0, true, "WAKE_GUARANTEED"⟩,
  ⟨0xa101, 1, 1, 6, 6, .u32, .ro, 4, 0, 0, 4294967295, false, false, 1, true, "HOLD_MAX"⟩,
  ⟨0xa102, 1, 1, 1, 1, .u64, .ro, 8, 0, 0, 18446744073709551615, false, false, 18, true, "HEADERS_DISCARDED"⟩,
  ⟨0xa102, 1, 1, 2, 2, .u64, .ro, 8, 0, 0, 18446744073709551615, false, false, 10, true, "BYTES_CORRECTED"⟩,
  ⟨0xa102, 1, 1, 3, 3, .u64, .ro, 8, 0, 0, 18446744073709551615, false, false, 10, true, "BYTES_POISONED"⟩,
  ⟨0xa103, 1, 1, 1, 1, .u8, .const, 1, 8, 0, 255, false, false, 6, true, "NOC_DTC_LAG"⟩]

/-- Objects of the chapter on power (17), part 0. -/
def rowsPower0 : List ObjRow := [
  ⟨0x1000, 1, 1, 1, 1, .u8, .ro, 1, 0, 0, 255, false, false, 0, true, "DEVICE_STATE"⟩,
  ⟨0x1000, 1, 1, 2, 2, .u8, .rw, 1, 0, 0, 8, false, true, 0, true, "DEVICE_FLOOR"⟩,
  ⟨0x1000, 1, 1, 3, 3, .u64, .rw, 8, 0, 0, 18446744073709551615, false, false, 6, true, "WAKE_AT"⟩,
  ⟨0x1000, 1, 1, 4, 4, .u8, .rw, 1, 15, 0, 15, false, true, 0, true, "WAKE_SOURCES"⟩,
  ⟨0x1000, 1, 1, 5, 5, .u16, .rw, 2, 10, 1, 3600, false, true, 4, true, "WAKE_HOLD"⟩,
  ⟨0x1000, 1, 1, 6, 6, .u32, .ro, 4, 0, 0, 4294967295, false, false, 10, true, "RESUME_IMAGE"⟩,
  ⟨0x1001, 1, 1, 1, 1, .bool, .rw, 1, 0, 0, 1, false, false, 0, true, "DEBUG_HOLD"⟩,
  ⟨0x1002, 1, 1, 1, 1, .u8, .const, 1, 40, 0, 255, false, false, 2, true, "GOV_SLOPE"⟩,
  ⟨0x1002, 1, 1, 2, 2, .u8, .const, 1, 60, 0, 255, false, false, 2, true, "GOV_STEP"⟩,
  ⟨0x1002, 1, 1, 3, 3, .u32, .const, 4, 5000, 0, 4294967295, false, false, 1, true, "GOV_LEAD"⟩,
  ⟨0x1002, 1, 1, 4, 4, .u64, .ro, 8, 0, 0, 18446744073709551615, false, false, 18, true, "GOV_WAITS"⟩,
  ⟨0x1002, 1, 1, 5, 5, .u32, .ro, 4, 0, 0, 4294967295, false, false, 1, true, "GOV_WAIT_MAX"⟩,
  ⟨0x1003, 1, 1, 1, 1, .u8, .rw, 1, 10, 2, 40, false, true, 12, true, "WIN_TEMP"⟩,
  ⟨0x1003, 1, 1, 2, 2, .u8, .rw, 1, 15, 5, 50, false, true, 14, true, "WIN_SUPPLY"⟩,
  ⟨0x1003, 1, 1, 3, 3, .u16, .rw, 2, 24, 1, 168, false, true, 5, true, "WIN_AGE"⟩,
  ⟨0x1003, 1, 1, 4, 4, .u8, .rw, 1, 25, 5, 100, false, true, 14, true, "DROOP_TH"⟩,
  ⟨0x1004, 1, 1, 1, 1, .u16, .ro, 2, 0, 0, 65535, false, false, 14, false, "VBAT"⟩,
  ⟨0x1004, 1, 1, 2, 2, .u16, .rw, 2, 2600, 2000, 3600, false, true, 14, true, "VBAT_LOW_TH"⟩,
  ⟨0x1004, 1, 1, 3, 3, .octets, .ro, 64, 0, 0, 64, false, false, 0, false, "SNAPSHOTS"⟩,
  ⟨0x1010, 50, 1, 1, 1, .u8, .ro, 1, 0, 0, 5, false, false, 0, false, "STATE"⟩,
  ⟨0x1010, 50, 1, 2, 2, .u8, .rw, 1, 0, 0, 5, false, true, 0, false, "FLOOR"⟩,
  ⟨0x1010, 50, 1, 3, 3, .u8, .rw, 1, 0, 0, 1, false, true, 0, false, "RESTORE_MODE"⟩,
  ⟨0x1010, 50, 1, 4, 4, .u8, .ro, 1, 0, 0, 5, false, false, 0, false, "TARGET"⟩,
  ⟨0x1010, 50, 1, 5, 5, .u8, .ro, 1, 0, 0, 255, false, false, 0, true, "VOTERS"⟩,
  ⟨0x1010, 50, 1, 6, 6, .u16, .ro, 2, 0, 0, 512, false, false, 0, false, "SAVE_LEN"⟩]

/-- Objects of the chapter on power (17), part 1. -/
def rowsPower1 : List ObjRow := [
  ⟨0x1010, 50, 1, 7, 7, .octets, .ro, 80, 0, 0, 80, false, false, 0, false, "POWER_STATS"⟩,
  ⟨0x1010, 20, 1, 8, 8, .u16, .rw, 2, 0, 0, 65535, false, true, 15, false, "CLK_SET"⟩,
  ⟨0x1010, 20, 1, 9, 9, .u16, .ro, 2, 0, 0, 65535, false, false, 15, false, "CLK_NOW"⟩,
  ⟨0x1010, 20, 1, 10, 10, .u16, .ro, 2, 0, 0, 65535, false, false, 15, false, "THERMAL_LIMIT"⟩,
  ⟨0x1010, 20, 1, 11, 11, .u16, .ro, 2, 0, 0, 65535, false, false, 15, false, "MARGIN_LIMIT"⟩,
  ⟨0x1010, 20, 1, 12, 12, .octets, .ro, 32, 0, 0, 32, false, false, 0, false, "MARGIN_RECORD"⟩,
  ⟨0x1010, 20, 1, 13, 13, .bool, .wo, 1, 0, 0, 1, false, false, 0, false, "RECENTRE"⟩,
  ⟨0x1100, 1, 1, 1, 64, .i16, .ro, 2, 0, -32768, 32767, false, false, 13, false, "TJ"⟩,
  ⟨0x1101, 1, 1, 1, 64, .u8, .ro, 1, 0, 0, 255, false, false, 0, true, "SENSOR_FLAGS"⟩,
  ⟨0x1102, 1, 1, 1, 3, .u8, .const, 1, 0, 0, 255, false, false, 12, false, "TJ_TH"⟩,
  ⟨0x1102, 1, 1, 4, 4, .u8, .const, 1, 3, 0, 255, false, false, 12, true, "HYSTERESIS"⟩,
  ⟨0x1102, 1, 1, 5, 5, .u8, .const, 1, 10, 0, 255, false, false, 3, true, "DWELL"⟩,
  ⟨0x1102, 1, 1, 6, 6, .u32, .ro, 4, 0, 0, 4294967295, false, false, 18, false, "TRIPS"⟩,
  ⟨0x1102, 1, 1, 7, 7, .i16, .ro, 2, 0, -32768, 32767, false, false, 13, true, "TJ_MAX"⟩,
  ⟨0x1102, 1, 1, 8, 8, .bool, .rw, 1, 1, 0, 1, false, true, 4, true, "TRIP_RESTART"⟩,
  ⟨0x8002, 512, 16, 1, 1, .octets, .wo, 2, 0, 0, 2, false, false, 0, false, "VOTE_SET"⟩,
  ⟨0x8002, 512, 16, 2, 2, .octets, .ro, 51, 0, 0, 51, true, false, 0, false, "VOTES"⟩]

/-- Objects of the chapter on host (18), part 0. -/
def rowsHost0 : List ObjRow := [
  ⟨0x7000, 1, 1, 1, 1, .u8, .const, 1, 0, 0, 255, false, false, 0, false, "LINK_MODE"⟩,
  ⟨0x7000, 1, 1, 2, 2, .bool, .ro, 1, 0, 0, 1, false, false, 0, true, "CXL_ACTIVE"⟩,
  ⟨0x7000, 1, 1, 3, 3, .u8, .ro, 1, 0, 0, 255, false, false, 0, true, "LINK_STATE"⟩,
  ⟨0x7000, 1, 1, 4, 4, .u8, .ro, 1, 0, 1, 5, false, false, 0, true, "SPEED"⟩,
  ⟨0x7000, 1, 1, 5, 5, .u8, .ro, 1, 0, 0, 255, false, false, 0, true, "WIDTH"⟩,
  ⟨0x7000, 1, 1, 6, 6, .u16, .ro, 2, 0, 0, 1024, false, false, 0, true, "TAGS_OUT"⟩,
  ⟨0x7000, 1, 1, 7, 7, .u16, .ro, 2, 0, 0, 1024, false, false, 0, true, "TAGS_FENCED"⟩,
  ⟨0x7000, 1, 1, 8, 8, .u16, .ro, 2, 0, 0, 511, false, false, 0, true, "VFS_ENABLED"⟩,
  ⟨0x7000, 1, 1, 9, 9, .u16, .ro, 2, 0, 0, 4096, false, false, 0, true, "ATS_ENTRIES"⟩,
  ⟨0x7001, 1, 1, 1, 12, .u64, .ro, 8, 0, 0, 18446744073709551615, false, false, 18, true, "HOST_STATS"⟩,
  ⟨0x7002, 1, 1, 0, 512, .u8, .ro, 1, 0, 0, 255, false, false, 0, true, "FUNC_STATE"⟩,
  ⟨0x7003, 1, 1, 1, 1, .octets, .ro, 16, 0, 0, 16, false, false, 0, false, "AE_LAST"⟩,
  ⟨0x7003, 1, 1, 2, 2, .u64, .ro, 8, 0, 0, 18446744073709551615, false, false, 18, true, "AE_TOTAL"⟩]

/-- Objects of the chapter on dictionary (19), part 0. -/
def rowsDictionary0 : List ObjRow := [
  ⟨0x100, 1, 1, 1, 1, .text, .const, 8, 0, 0, 8, true, false, 0, false, "VENDOR"⟩,
  ⟨0x100, 1, 1, 2, 2, .text, .const, 9, 0, 0, 9, true, false, 0, false, "FAMILY"⟩,
  ⟨0x100, 1, 1, 3, 3, .text, .const, 6, 0, 0, 6, true, false, 0, false, "DEVICE"⟩,
  ⟨0x100, 1, 1, 4, 4, .text, .const, 10, 0, 0, 10, true, false, 0, false, "ORDERING_CODE"⟩,
  ⟨0x100, 1, 1, 5, 5, .text, .const, 2, 0, 0, 2, true, false, 0, false, "REVISION"⟩,
  ⟨0x100, 1, 1, 6, 6, .u64, .const, 8, 0, 0, 18446744073709551615, false, false, 0, false, "SERIAL"⟩,
  ⟨0x100, 1, 1, 7, 7, .u8, .const, 1, 0, 0, 255, true, false, 0, false, "SPEED_GRADE"⟩,
  ⟨0x100, 1, 1, 8, 8, .u8, .const, 1, 0, 0, 255, false, false, 0, false, "TEMP_GRADE"⟩,
  ⟨0x100, 1, 1, 9, 9, .u16, .const, 2, 256, 0, 65535, true, false, 0, true, "DICT_VERSION"⟩,
  ⟨0x101, 1, 1, 1, 1, .u32, .ro, 4, 0, 0, 4294967295, true, false, 0, false, "FW_VERSION"⟩,
  ⟨0x101, 1, 1, 2, 2, .u8, .ro, 1, 0, 0, 255, false, false, 0, false, "FW_SIGNED"⟩,
  ⟨0x101, 1, 1, 3, 3, .octets, .const, 48, 0, 0, 48, false, false, 0, false, "KEY_HASH"⟩,
  ⟨0x102, 1, 1, 1, 1, .u8, .ro, 1, 0, 0, 255, true, false, 0, true, "DEVICE_STATE"⟩,
  ⟨0x102, 1, 1, 2, 2, .u8, .ro, 1, 0, 0, 255, false, false, 0, false, "STRAPS"⟩,
  ⟨0x102, 1, 1, 3, 3, .u8, .ro, 1, 0, 0, 255, false, false, 0, false, "RESET_CAUSE"⟩,
  ⟨0x200, 1, 1, 1, 1, .u32, .wo, 4, 0, 0, 4294967295, false, false, 0, false, "STORE"⟩,
  ⟨0x200, 1, 1, 2, 2, .u8, .ro, 1, 0, 0, 255, false, false, 0, true, "STORE_STATE"⟩,
  ⟨0x200, 1, 1, 3, 3, .u32, .ro, 4, 0, 0, 4294967295, false, false, 0, false, "IMAGE_SEQ"⟩,
  ⟨0x200, 1, 1, 4, 4, .blob, .wo, 4194304, 0, 0, 4194304, false, false, 0, false, "IMAGE_WRITE"⟩,
  ⟨0x200, 1, 1, 5, 5, .blob, .ro, 4194304, 0, 0, 4194304, false, false, 0, false, "IMAGE_READ"⟩,
  ⟨0x200, 1, 1, 6, 6, .u8, .ro, 1, 3, 0, 255, false, false, 0, true, "IMAGE_COPIES"⟩,
  ⟨0x201, 1, 1, 1, 1, .u32, .wo, 4, 0, 0, 4294967295, false, false, 0, false, "RESTORE_DEFAULTS"⟩,
  ⟨0x210, 1, 1, 1, 1, .bool, .rw, 1, 1, 0, 1, false, true, 0, true, "CAN_ENABLE"⟩,
  ⟨0x210, 1, 1, 2, 2, .u8, .rw, 1, 1, 1, 127, false, true, 0, true, "CAN_NODE"⟩,
  ⟨0x210, 1, 1, 3, 3, .u8, .rw, 1, 2, 0, 4, false, true, 21, true, "CAN_DATA_RATE"⟩]

/-- Objects of the chapter on dictionary (19), part 1. -/
def rowsDictionary1 : List ObjRow := [
  ⟨0x210, 1, 1, 4, 4, .u8, .ro, 1, 0, 0, 255, false, false, 0, true, "CAN_STATE"⟩,
  ⟨0x210, 1, 1, 5, 5, .bool, .rw, 1, 1, 0, 1, false, true, 0, true, "UDP_ENABLE"⟩,
  ⟨0x210, 1, 1, 6, 6, .octets, .rw, 6, 0, 0, 6, false, true, 0, false, "MGMT_MAC"⟩,
  ⟨0x210, 1, 1, 7, 7, .octets, .rw, 4, 0, 0, 4, false, true, 0, false, "IPV4_ADDR"⟩,
  ⟨0x210, 1, 1, 8, 8, .u8, .rw, 1, 24, 1, 30, false, true, 0, true, "IPV4_PREFIX"⟩,
  ⟨0x210, 1, 1, 9, 9, .octets, .rw, 4, 0, 0, 4, false, true, 0, false, "IPV4_GATEWAY"⟩,
  ⟨0x210, 1, 1, 10, 10, .octets, .rw, 16, 0, 0, 16, false, true, 0, false, "IPV6_ADDR"⟩,
  ⟨0x210, 1, 1, 11, 11, .u8, .rw, 1, 64, 1, 128, false, true, 0, true, "IPV6_PREFIX"⟩,
  ⟨0x210, 1, 1, 12, 12, .octets, .rw, 144, 0, 0, 144, false, true, 0, false, "UDP_ALLOW"⟩,
  ⟨0x210, 1, 1, 13, 13, .bool, .rw, 1, 1, 0, 1, false, true, 0, true, "MAILBOX_VF"⟩,
  ⟨0x211, 1, 1, 1, 12, .u64, .ro, 8, 0, 0, 18446744073709551615, false, false, 18, true, "PDP_STATS"⟩,
  ⟨0x220, 1, 1, 1, 16, .octets, .rw, 16, 0, 0, 16, false, true, 0, false, "ROUTE"⟩,
  ⟨0x220, 1, 1, 17, 20, .octets, .rw, 20, 0, 0, 20, false, true, 0, false, "DEST"⟩,
  ⟨0x220, 1, 1, 21, 21, .u64, .ro, 8, 0, 0, 18446744073709551615, false, false, 18, true, "NOTIFY_LOST"⟩,
  ⟨0x300, 1, 1, 1, 1, .u32, .ro, 4, 0, 0, 4294967295, false, false, 0, false, "HIST_NEWEST"⟩,
  ⟨0x300, 1, 1, 2, 2, .u32, .rw, 4, 0, 0, 4294967295, false, false, 0, true, "HIST_SELECT"⟩,
  ⟨0x300, 1, 1, 3, 3, .octets, .ro, 32, 0, 0, 32, false, false, 0, false, "HIST_ENTRY"⟩,
  ⟨0x300, 1, 1, 4, 4, .octets, .ro, 8192, 0, 0, 8192, false, false, 0, false, "HIST_ALL"⟩,
  ⟨0x300, 1, 1, 5, 5, .u32, .wo, 4, 0, 0, 4294967295, false, false, 0, false, "HIST_CLEAR"⟩,
  ⟨0xa200, 1, 1, 1, 1, .text, .rw, 40, 0, 3, 40, false, false, 0, false, "LOC_TEXT"⟩,
  ⟨0xa200, 1, 1, 2, 2, .loc, .rw, 8, 0, 0, 18446744073709551615, false, false, 0, false, "LOC_PACKED"⟩,
  ⟨0xa200, 1, 1, 3, 3, .u8, .ro, 1, 0, 0, 255, false, false, 0, true, "LOC_STATE"⟩]

/-- Every row of the dictionary. -/
def objRows : List ObjRow :=
  rowsPlacement0 ++ rowsDispatch0 ++ rowsTenant0 ++ rowsTenant1 ++ rowsSage0 ++ rowsCluster0 ++ rowsCoding0 ++ rowsCoding1 ++ rowsSignal0 ++ rowsMachine0 ++ rowsMachine1 ++ rowsLane0 ++ rowsLane1 ++ rowsPort0 ++ rowsPort1 ++ rowsTiming0 ++ rowsTiming1 ++ rowsTiming2 ++ rowsDram0 ++ rowsDram1 ++ rowsSram0 ++ rowsNoc0 ++ rowsPower0 ++ rowsPower1 ++ rowsHost0 ++ rowsDictionary0 ++ rowsDictionary1

/-- Does the row define subindex `sub` of object `idx` (R638)? -/
def rowHas (r : ObjRow) (idx sub : Nat) : Bool :=
  r.base ≤ idx && idx < r.base + r.count * r.stride && (idx - r.base) % r.stride == 0 &&
    r.subLo ≤ sub && sub ≤ r.subHi && !(r.subHi == 0x200 && sub == 0xFF)

/-- The row of a subindex, or none where it does not exist (R638, R639). -/
def objRow? (idx sub : Nat) : Option ObjRow := objRows.find? fun r => rowHas r idx sub

end Sys2Proof.Machine
end

