-- ==== Sys2Proof/Machine/Defaults.lean ====
section
/-!
DEFINITION. The default of every dictionary object: the value of its row, or, where the chapter's table gives
the default by element, by table or by fuses, the value computed here.
-/
namespace Sys2Proof.Machine

/-- Default floor of a power domain (Table 17-1). -/
def domFloor (d : Nat) : Nat :=
  if d < 36 then 5 else if d < 44 then 1 else if d < 48 then 4 else if d = 48 then 1 else 0

/-- Is the domain a cluster, with a clock of its own (Table 17-1)? -/
def domIsCluster (d : Nat) : Bool := d < 12
/-- Is the domain an engine group? -/
def domIsGroup (d : Nat) : Bool := 12 ≤ d && d < 20

/-- The upper limit of the clock of a cluster or engine group, MHz (R585). -/
def clkMax (d : Nat) : Nat := if domIsCluster d then Config.clusterMax else 1500
/-- The lower limit of the clock of a cluster or engine group, MHz (R585). -/
def clkMin (d : Nat) : Nat := if domIsCluster d then 400 else 200

/-- THR of each level, ns (Table 4-1). -/
def thrDefault (l : Nat) : Nat :=
  1000 * [0, 2, 5, 10, 20, 35, 50, 75, 100, 150, 200, 300, 500, 1000, 2000, 5000].getD l 0

/-- TARGET of each QoS port, ns (Table 14-5). -/
def targetDefault (p : Nat) : Nat :=
  [10000, 50000, 2000, 50000, 2000, 1000, 1000, 50000].getD p 1000

/-- KIND of each reference (Table 13-2). -/
def refKind (r : Nat) : Nat := [0, 1, 2, 3, 3, 4, 4, 1].getD r 1
/-- Does the reference give phase (Table 13-2)? -/
def refIsPhase (r : Nat) : Bool := refKind r ≤ 2

/-- A packed unit-level code on D0 (Table 0-5): quadrant, kind, group, unit. -/
def packUnit (quad kind grp unit : Nat) : Nat :=
  pack [(61, 3, 3), (58, 2, quad), (54, 4, kind), (48, 6, grp), (43, 5, unit)]
/-- The packed code of Sage core `n` (Table 0-4). -/
def locCore (n : Nat) : Nat := packUnit (n / 27) 1 (n / 9) (n % 9)
/-- The packed code of engine `e` (Table 1-4). -/
def locEngine (e : Nat) : Nat := packUnit (e / 30) 2 (e / 15) (e % 15)
/-- The packed code of lane `n`: lane number = 4 × quad + unit (Table 0-4). -/
def locLane (n : Nat) : Nat := packUnit (n / 16) 3 (n / 4) (n % 4)
/-- The packed code of the controller of DRAM channel `n` (Table 14-10). -/
def locDram (n : Nat) : Nat := packUnit (n / 2) 4 n 0
/-- The packed code of router NXnn: index 8y + x, quadrant of its half columns and rows (Table 0-4). -/
def locRouter (n : Nat) : Nat := packUnit (2 * (n / 8 / 4) + n % 8 / 4) 7 n 0
/-- The engine number of MAR `m`: U14 of G(2m + 1) (R347). -/
def marEngine (m : Nat) : Nat := 15 * (2 * m + 1) + 14

/-- A TEXT default as its octets. -/
def textNat (l : List Nat) : Nat := ofBytes (l.map (BitVec.ofNat 8))

/-- Default role word: 0x0004_0000, the spare cores with FUNCTION 3 in [21:19] (Table 3-5, R130). -/
def roleDefault (core : Nat) : Nat := if core % 9 = 8 then 0x001C0000 else 0x00040000

/-- Defaults that the object tables do not give as one number. -/
def specialDefault (idx sub : Nat) : Option Nat :=
  if 0x2010 ≤ idx && idx < 0x2018 then
    if sub = 1 then some (refKind (idx - 0x2010))
    else if sub = 3 then some (idx - 0x2010 + 1)
    else if sub = 6 then some (if refKind (idx - 0x2010) < 3 then 1000 else 9200)
    else none
  else if 0x1010 ≤ idx && idx < 0x1042 then
    let d := idx - 0x1010
    if sub = 2 || sub = 4 || sub = 1 then some (domFloor d)
    else if sub = 3 then some (if 44 ≤ d && d < 48 then 0 else 1)
    else if sub = 6 then some (if h : d < 50 then (Config.saveLen ⟨d, h⟩).val else 0)
    else if 8 ≤ sub && sub ≤ 11 then some (clkMax d)
    else none
  else if idx = 0x5100 then some (thrDefault (sub - 1))
  else if idx = 0x4002 && sub ≤ 16 then some (targetDefault (sub - 1))
  else if idx = 0x1102 && sub ≤ 3 then some ([95, 100, 110].getD (sub - 1) 0)
  else if idx = 0x5044 then some (roleDefault sub)
  else if idx = 0x5000 && sub = 7 then some Config.lHost.val
  else if idx = 0x5000 && sub = 8 then some Config.templateStore
  else if idx = 0x5306 && sub = 2 then some (pack ((upto 512).map fun t => (8 * t, 8, 16)))
  else if idx = 0x5306 && sub = 3 then some (pack [(0, 16, 157), (16, 16, 96)])
  else if idx = 0x6100 && sub = 2 then some Config.idtSeed.toNat
  else if idx = 0x6100 && sub = 11 then some (locEngine (marEngine 0))
  else if idx = 0x0100 then
    if sub = 4 then some (textNat ([65, 81, 54, 52, 49, 50, 45] ++ [if Config.tempGradeE then 69 else 67] ++
        (if Config.speedGrade30 then [51, 48] else [50, 52])))
    else if sub = 1 then some (textNat [82, 117, 115, 116, 111, 108, 117, 120])
    else if sub = 2 then some (textNat [65, 101, 108, 114, 117, 113, 117, 105, 110])
    else if sub = 3 then some (textNat [65, 81, 54, 52, 49, 50])
    else if sub = 5 then some (textNat [66, 49])
    else if sub = 6 then some Config.serial.toNat
    else if sub = 7 then some (if Config.speedGrade30 then 30 else 24)
    else if sub = 8 then some (b2n Config.tempGradeE)
    else none
  else if idx = 0x0101 && sub = 1 then some Config.fwVersion.toNat
  else if idx = 0x0101 && sub = 3 then some Config.keyHash.toNat
  else if idx = 0x0210 && sub = 6 then some Config.mgmtMac.toNat
  else if idx = 0xA200 then
    if sub = 1 then some (textNat [80, 75, 71]) else if sub = 2 then some (7 <<< 61) else none
  else if 0x3000 ≤ idx && idx < 0x3400 && idx % 16 = 0 then
    let n := (idx - 0x3000) / 16
    if sub = 1 then some (locLane n) else if sub = 2 then some (b2n (n % 16 < 8)) else none
  else if 0x3000 ≤ idx && idx < 0x3400 && idx % 16 = 2 && sub = 4 then some 63
  else if 0x3400 ≤ idx && idx < 0x3800 && idx % 16 = 1 && sub = 1 then
    if h : (idx - 0x3400) / 16 < 64 then some (Config.portMac ⟨_, h⟩).toNat else none
  else if 0x4100 ≤ idx && idx < 0x4180 && idx % 16 = 0 && sub = 1 then some (locDram ((idx - 0x4100) / 16))
  else if 0x8000 ≤ idx && idx < 0xA000 then
    let t := (idx - 0x8000) / 16
    if idx % 16 = 0 && sub = 1 then some (if t = 0 then 1 else 0)
    else if idx % 16 = 0 && sub = 3 then some t
    else if idx % 16 = 2 && sub = 2 then some (pack ((upto 51).map fun d => (8 * d, 8, 0xFF)))
    else none
  else none

/-- The default of the object of key `k` (R638). -/
def objDefault (k : Nat) : Nat :=
  match specialDefault (k / 1024) (k % 1024) with
  | some v => v
  | none => match objRow? (k / 1024) (k % 1024) with
    | some r => r.dflt
    | none => 0

end Sys2Proof.Machine
end

