-- ==== Sys2Proof/Machine/Location.lean ====
section
/-!
DEFINITION. Location codes (R11 to R18 of 00_scope.md): the macro inventory (R518, R718), what makes a packed code valid,
and the text form.
-/
namespace Sys2Proof.Machine

/-- Class of the engine at unit `u` of group `g`, in the codes of Table 2-4: 1 LDD to 10 MAR (Table 1-4). -/
def engineClass (g u : Nat) : Nat :=
  if g % 2 = 0 then [1, 1, 1, 2, 2, 3, 4, 5, 6, 7, 7, 8, 8, 8, 9].getD u 0
  else [1, 1, 1, 2, 2, 3, 4, 6, 7, 7, 8, 8, 8, 9, 10].getD u 0
/-- Class of engine `e` = 15 × group + unit. -/
def classOf (e : Nat) : Nat := engineClass (e / 15) (e % 15)

/-- Datapath and queue macros of an engine class: how many, bytes each (Table 15-10). -/
def engineMacros (cls : Nat) : Nat × Nat :=
  match cls with
  | 1 => (24, 16384)
  | 2 => (12, 16384)
  | 3 => (16, 8192)
  | 4 => (20, 16384)
  | 5 => (16, 8192)
  | 6 => (8, 32768)
  | 7 => (32, 32768)
  | 8 => (40, 16384)
  | 9 => (32, 16384)
  | 10 => (40, 65536)
  | _ => (0, 0)

/-- Bytes of macro `m` of a unit on D0, none where the unit has no such macro (Tables 15-1, 15-10, 15-11). -/
def macroBytes (kind grp u m : Nat) : Option Nat :=
  match kind with
  | 1 => if u ≤ 8 && m < 32 then some 16384
    else if u ≤ 7 && 40 ≤ m && m < 48 then some 131072
    else if u = 0 && m = 48 then some 2048 else none
  | 2 => let p := engineMacros (engineClass grp u)
    if u < 15 && m < p.1 then some p.2
    else if u ≤ 7 && 40 ≤ m && m < 44 then some 65536 else none
  | 3 => if u ≤ 3 && m < 4 then some 16384 else none
  | 4 => if u = 0 && m < 8 then some 16384 else none
  | 5 => if u = 0 && m < 16 then some 65536 else none
  | 6 => if u < 16 && m < 16 then some 65536 else none
  | 7 => if u = 0 && m < 4 then some 8192 else none
  | 8 => if u < 4 && m < 16 then some 65536 else none
  | _ => none

/-- Highest index of a level-4 prefix, and highest unit within it (Table 0-4). -/
def grpMax (kind : Nat) : Nat := [0, 11, 7, 15, 7, 7, 3, 63, 0].getD kind 0
def unitMax (kind : Nat) : Nat := [0, 8, 14, 3, 1, 0, 15, 0, 3].getD kind 0
/-- Quadrant that holds index `g` of a prefix (Table 0-4). -/
def grpQuad (kind g : Nat) : Nat :=
  match kind with
  | 1 => g / 3
  | 2 => g / 2
  | 3 => g / 4
  | 4 => g / 2
  | 5 => g / 2
  | 6 => g
  | 7 => 2 * (g / 8 / 4) + g % 8 / 4
  | _ => 0

/-- Fields of a packed code (Table 0-5). -/
def locLvl (x : Nat) : Nat := fld x 61 3
def locDie (x : Nat) : Nat := fld x 60 1
def locQuad (x : Nat) : Nat := fld x 58 2
def locKind (x : Nat) : Nat := fld x 54 4
def locGrp (x : Nat) : Nat := fld x 48 6
def locUnit (x : Nat) : Nat := fld x 43 5
def locMacro (x : Nat) : Nat := fld x 36 7
def locWord (x : Nat) : Nat := fld x 16 20
def locBit (x : Nat) : Nat := fld x 8 8
/-- The code cut to level `l` and above. -/
def locAtLevel (x l : Nat) : Nat :=
  let keep := match l with
    | 2 => 36 | 3 => 43 | 4 => 48 | _ => 0
  setFld (x / 2 ^ keep * 2 ^ keep) 61 3 l

/-- Bytes of the macro that a packed code names; retention memory on D1 has M00–M31. -/
def locMacroBytes (x : Nat) : Option Nat :=
  if locDie x = 1 then (if locUnit x = 2 && locMacro x < 32 then some 65536 else none)
  else macroBytes (locKind x) (locGrp x) (locUnit x) (locMacro x)

/-- A packed code is valid (R16 to R18). -/
def locValid (x : Nat) : Bool :=
  let l := locLvl x
  let low := fun n => x % 2 ^ n == 0
  let macroOk := match locMacroBytes x with
    | some b => l == 2 && low 36 || l == 1 && locWord x < b / 16 && locBit x ≤ 207 && low 8
    | none => false
  if x ≥ 2 ^ 64 then false
  else if locDie x = 1 then
    locQuad x == 0 && locKind x == 0 && locGrp x == 0 &&
      (l == 6 && low 60 || l == 3 && locUnit x ≤ 6 && low 43 || (l == 2 || l == 1) && macroOk)
  else match l with
    | 7 => low 61
    | 6 => low 60
    | 5 => low 58
    | 0 => false
    | _ => 1 ≤ locKind x && locKind x ≤ 8 && locGrp x ≤ grpMax (locKind x) &&
        locQuad x == grpQuad (locKind x) (locGrp x) &&
        (l == 4 && low 48 || l == 3 && locUnit x ≤ unitMax (locKind x) && low 43 ||
          (l == 2 || l == 1) && locUnit x ≤ unitMax (locKind x) && macroOk)

/-! ### Text form (R11, R16) -/

/-- Upper case of an ASCII letter. -/
def upper (c : Nat) : Nat := if 97 ≤ c && c ≤ 122 then c - 32 else c

/-- The parts of a list between separators `c`. -/
def splitOn (c : Nat) : List Nat → List (List Nat)
  | [] => [[]]
  | x :: r =>
    if x = c then [] :: splitOn c r
    else match splitOn c r with
      | [] => [[x]]
      | a :: t => (x :: a) :: t

/-- A digit in a base. -/
def digit (base c : Nat) : Option Nat :=
  let v := if 48 ≤ c && c ≤ 57 then c - 48 else if 65 ≤ c && c ≤ 70 then c - 55 else base
  if v < base then some v else none

/-- A number in a base; none for no digits or a bad one. -/
def numeral (base : Nat) (l : List Nat) : Option Nat :=
  if l.isEmpty then none
  else l.foldl (fun a c => match a, digit base c with
    | some v, some d => some (v * base + d)
    | _, _ => none) (some 0)

/-- A decimal index without leading zero. -/
def plainNum (l : List Nat) : Option Nat :=
  match l with
  | 48 :: _ :: _ => none
  | _ => numeral 10 l
/-- A decimal index of exactly two digits. -/
def twoDigits (l : List Nat) : Option Nat := if l.length = 2 then numeral 10 l else none

/-- A level-4 name: kind and index (Table 0-4). -/
def parseGrp (l : List Nat) : Option (Nat × Nat) :=
  match l with
  | 68 :: 77 :: r => (plainNum r).map (4, ·)
  | 80 :: 85 :: r => (plainNum r).map (5, ·)
  | 71 :: 66 :: r => (plainNum r).map (6, ·)
  | 78 :: 88 :: r => (twoDigits r).map (7, ·)
  | 77 :: 67 :: r => (plainNum r).map (8, ·)
  | 67 :: r => (twoDigits r).map (1, ·)
  | 71 :: r => (twoDigits r).map (2, ·)
  | 76 :: r => (twoDigits r).map (3, ·)
  | _ => none

/-- A unit, a macro. -/
def parseUnit (l : List Nat) : Option Nat :=
  match l with
  | 85 :: r => plainNum r
  | _ => none
def parseMacro (l : List Nat) : Option Nat :=
  match l with
  | 77 :: r => twoDigits r
  | _ => none

/-- A D1 mnemonic (R14). -/
def d1Names : List (List Nat) :=
  [[83, 84, 67], [87, 65, 75], [82, 69, 84], [86, 66, 82], [83, 69, 81], [84, 84, 80], [83, 84, 82]]
def parseD1 (l : List Nat) : Option Nat := d1Names.findIdx? (· == l)

/-- Word and bit suffix: 0x and hexadecimal, then decimal. -/
def parseCell (w b : List Nat) : Option (Nat × Nat) :=
  match w with
  | 48 :: 88 :: h => match numeral 16 h, plainNum b with
    | some x, some y => if x < 2 ^ 20 && y < 256 then some (x, y) else none
    | _, _ => none
  | _ => none

/-- The code of the dotted names, level by level, before any word and bit. -/
def parseNames (p : List (List Nat)) : Option Nat :=
  match p with
  | [[80, 75, 71]] => some (pack [(61, 3, 7)])
  | [68, 48] :: [] => some (pack [(61, 3, 6)])
  | [68, 49] :: [] => some (pack [(61, 3, 6), (60, 1, 1)])
  | [68, 49] :: u :: r => match parseD1 u, r with
    | some n, [] => some (pack [(61, 3, 3), (60, 1, 1), (43, 5, n)])
    | some n, [m] => (parseMacro m).map fun k => pack [(61, 3, 2), (60, 1, 1), (43, 5, n), (36, 7, k)]
    | _, _ => none
  | [68, 48] :: rest =>
    let (q, names, skip) := match rest with
      | [81, c] :: t => (if 48 ≤ c && c ≤ 51 then c - 48 else 4, t, false)
      | t => (0, t, true)
    if q = 4 then none
    else match names with
      | [] => if skip then none else some (pack [(61, 3, 5), (58, 2, q)])
      | g :: t => match parseGrp g with
        | none => none
        | some (k, i) =>
          if skip != (k == 8) || 64 ≤ i then none
          else
            let base := [(58, 2, q), (54, 4, k), (48, 6, i)]
            match t with
            | [] => some (pack ((61, 3, 4) :: base))
            | [u] => (parseUnit u).bind fun n => if n < 32 then some (pack ((61, 3, 3) :: (43, 5, n) :: base)) else none
            | [u, m] => match parseUnit u, parseMacro m with
              | some n, some k => if n < 32 then some (pack ((61, 3, 2) :: (43, 5, n) :: (36, 7, k) :: base)) else none
              | _, _ => none
            | _ => none
  | _ => none

/-- The packed code of a text code, in any letter case, or none where R16 refuses it. -/
def locParse (t : List Byte) : Option Nat :=
  let l := t.map fun b => upper b.toNat
  let code := match splitOn 58 l with
    | [n] => parseNames (splitOn 46 n)
    | [n, w, b] => match parseNames (splitOn 46 n), parseCell w b with
      | some x, some (i, j) => if locLvl x = 2 then some (setFld x 61 3 1 + pack [(16, 20, i), (8, 8, j)]) else none
      | _, _ => none
    | _ => none
  match code with
  | some x => if locValid x then some x else none
  | none => none

/-- Digits of a number in a base, at least `n` of them; `fuel` bounds their number. -/
def digitsFuel (fuel base x : Nat) : List Nat :=
  match fuel with
  | 0 => []
  | f + 1 =>
    let d := x % base
    let c := if d < 10 then 48 + d else 55 + d
    if x < base then [c] else digitsFuel f base (x / base) ++ [c]
def decText (x : Nat) : List Nat := digitsFuel 8 10 x
def dec2Text (x : Nat) : List Nat := if x < 10 then 48 :: decText x else decText x
def hexText (n x : Nat) : List Nat :=
  let d := digitsFuel 8 16 x
  List.replicate (n - d.length) 48 ++ d

/-- The level-4 name of a kind and index (Table 0-4). -/
def grpText (k i : Nat) : List Nat :=
  match k with
  | 1 => 67 :: dec2Text i
  | 2 => 71 :: dec2Text i
  | 3 => 76 :: dec2Text i
  | 4 => [68, 77] ++ decText i
  | 5 => [80, 85] ++ decText i
  | 6 => [71, 66] ++ decText i
  | 7 => [78, 88] ++ dec2Text i
  | _ => [77, 67] ++ decText i

/-- The text of a valid packed code, in full and in upper case but for 0x (R16). -/
def locText (x : Nat) : List Byte :=
  let l := locLvl x
  let dot := fun (a : List Nat) => 46 :: a
  let unit := if locDie x = 1 then dot (d1Names.getD (locUnit x) []) else dot (85 :: decText (locUnit x))
  let names :=
    if l = 7 then [80, 75, 71]
    else [68, 48 + locDie x] ++
      (if l = 6 then [] else
        (if locDie x = 1 then [] else
          (if locKind x = 8 then [] else dot [81, 48 + locQuad x]) ++
            (if l ≤ 4 then dot (grpText (locKind x) (locGrp x)) else [])) ++
        (if l ≤ 3 then unit else []) ++
        (if l ≤ 2 then dot (77 :: dec2Text (locMacro x)) else []) ++
        (if l = 1 then [58, 48, 120] ++ hexText 3 (locWord x) ++ [58] ++ decText (locBit x) else []))
  names.map (BitVec.ofNat 8)

end Sys2Proof.Machine
end

