-- ==== Sys2Proof/Machine/EngineModel.lean ====
section
/-!
DEFINITION. What placement and validation take from the engine chapters: for each engine opcode its class, its UNITS
limit, its parameter length, the limits of its parameter block and its cycle formula (08_channel_coding.md,
09_signal_engines.md, 10_machine_access.md).
-/
namespace Sys2Proof.Machine

/-- The opcodes of Table 2-8 that engines serve, with their class. -/
def opClass (op : Nat) : Option Nat :=
  match op with
  | 0x010 => some 1
  | 0x011 => some 2
  | 0x018 => some 3
  | 0x020 => some 4
  | 0x021 => some 4
  | 0x028 => some 5
  | 0x030 => some 6
  | 0x040 => some 7
  | 0x041 => some 7
  | 0x048 => some 7
  | 0x050 => some 8
  | 0x051 => some 8
  | 0x058 => some 9
  | 0x060 => some 10
  | _ => none

/-- Largest UNITS of an engine opcode (Tables 8-1, 9-1; 0x060 as R375 reads the descriptor). -/
def opLimit (op : Nat) : Nat :=
  match op with
  | 0x018 => 255
  | 0x028 => 255
  | 0x030 => 16777216
  | 0x040 => 896
  | 0x041 => 896
  | 0x048 => 4096
  | 0x050 => 6552
  | 0x051 => 45864
  | 0x058 => 3276
  | 0x060 => 16384
  | _ => 512

/-- PARAM_LEN as R51 checks it from the descriptor. -/
def opParamLenOk (op units len : Nat) : Bool :=
  match op with
  | 0x018 => len == 16 + 16 * units
  | 0x028 => len == 16 + 16 * units
  | 0x030 => 32 + 16 ≤ len && len ≤ 32 + 16 * 254 && (len - 32) % 16 == 0
  | 0x050 => 32 + 8 ≤ len && len ≤ 32 + 8 * 16 && (len - 32) % 8 == 0
  | 0x010 => len == 64
  | 0x011 => len == 64
  | 0x020 => len == 64
  | 0x021 => len == 64
  | _ => len == 32

/-- The opcode has a split quantum smaller than the job and several engines of its class in a group (R101, R287, R318). -/
def opSplits (op : Nat) : Bool := op == 0x010 || op == 0x011 || op == 0x040 || op == 0x041 || op == 0x051 || op == 0x058

/-- Every bit of `blk` outside the given (lowest bit, width) fields is 0. -/
def onlyFields (blk : Nat) (fields : List (Nat × Nat)) : Bool :=
  fields.foldl (fun x f => setFld x f.1 f.2 0) blk == 0

/-- A field at byte `b`, bit `lo`, `w` bits wide. -/
def pf (blk b lo w : Nat) : Nat := fld blk (8 * b + lo) w

/-! ### 3GPP lengths the formulas need -/

/-- Rate-matched length of block `r` (R293). -/
def rateE (g c nl qm r : Nat) : Nat :=
  let q := nl * qm
  if q = 0 || c = 0 then 0
  else if r + (g / q) % c + 1 ≤ c then q * (g / (q * c)) else q * ceilDiv g (q * c)

/-- Sum of the rate-matched lengths of blocks `a` to `b` − 1. -/
def rateSum (g c nl qm a b : Nat) : Nat := ((upto b).drop a).foldl (fun t r => t + rateE g c nl qm r) 0

/-- The 51 lifting sizes: a × 2^j for a of 2, 3, 5, 7, 9, 11, 13, 15, at most 384 (R294; PRESUMED from 3GPP TS 38.212). -/
def liftingOk (z : Nat) : Bool :=
  2 ≤ z && z ≤ 384 && (upto 8).any fun j => [2, 3, 5, 7, 9, 11, 13, 15].any fun a => a * 2 ^ j == z

/-- ⌈log2 x⌉. -/
def clog2 (x : Nat) : Nat := if x ≤ 1 then 0 else Nat.log2 (x - 1) + 1

/-- A UCI payload is cut into two codewords (R299; PRESUMED from 3GPP TS 38.212). -/
def uciSegmented (a e : Nat) : Bool := (360 ≤ a && 1088 ≤ e) || 1013 ≤ a
/-- CRC bits of a UCI payload (R299). -/
def uciCrc (a : Nat) : Nat := if a ≤ 19 then 6 else 11
/-- Mother code length of one codeword of K bits rate-matched to E (R299; PRESUMED from 3GPP TS 38.212). -/
def polarN (k e : Nat) : Nat :=
  let l := clog2 e
  let n1 := if 8 * e ≤ 9 * 2 ^ (l - 1) && 16 * k < 9 * e then l - 1 else l
  2 ^ max 5 (min (min n1 (clog2 (8 * k))) 10)

/-- The smallest turbo block size of at least `x` bits (R301; PRESUMED from 3GPP TS 36.212: steps of 8, 16, 32, 64). -/
def turboK (x : Nat) : Nat :=
  if x ≤ 40 then 40 else if x ≤ 512 then 8 * ceilDiv x 8 else if x ≤ 1024 then 16 * ceilDiv x 16
  else if x ≤ 2048 then 32 * ceilDiv x 32 else 64 * ceilDiv x 64
/-- The turbo block size below `k`. -/
def turboBelow (k : Nat) : Nat :=
  if k ≤ 40 then 40 else if k ≤ 512 then k - 8 else if k ≤ 1024 then k - 16 else if k ≤ 2048 then k - 32 else k - 64
/-- Code blocks, and the sizes K_r of a transport block of `a` bits with CRC24A (R301). -/
def turboC (a : Nat) : Nat := if a + 24 ≤ 6144 then 1 else ceilDiv (a + 24) 6120
/-- Size of block `r`. -/
def turboKr (a r : Nat) : Nat :=
  let c := turboC a
  let b := a + 24 + (if c > 1 then 24 * c else 0)
  let kp := turboK (ceilDiv b c)
  let km := turboBelow kp
  let cm := if c > 1 && km < kp then (c * kp - b) / (kp - km) else 0
  if r < cm then km else kp

/-- FFT sizes by code (Table 9-4). -/
def fftLen (code : Nat) : Nat := [128, 256, 512, 1024, 2048, 4096, 1536, 3072].getD code 128

/-- Sequence lengths and transform sizes of PRACH (Table 9-5, R329). -/
def prachL (code : Nat) : Nat := [139, 571, 839, 1151].getD code 139
def prachNb (code : Nat) : Nat := [512, 2048, 2048, 4096].getD code 512
/-- Preambles of one root in the unrestricted set (R331). -/
def prachPerRoot (lra ncs : Nat) : Nat := if ncs = 0 then 1 else lra / ncs
/-- Roots needed: computed for the unrestricted set; for the restricted sets the specification's tables decide, which the
manual does not give (log 12). -/
def prachRoots (blk : Nat) : Nat :=
  let l := prachL (pf blk 0 0 2)
  if pf blk 0 2 2 = 0 then ceilDiv (pf blk 6 0 7) (prachPerRoot l (pf blk 4 0 10))
  else Config.restrictedRoots (blk % 2 ^ 64)

/-! ### Cycles (R296, R298, R300, R302, R305, R314, R326, R331, R336, R340, R343, Table 10-16) -/

/-- Cycles of the TBC, LDE and polar items. -/
def ldeBlock (blk r : Nat) : Nat :=
  let k := (if bitAt blk 0 then 10 else 22) * pf blk 2 0 9
  38 + max (ceilDiv k 18) (ceilDiv (rateE (pf blk 8 0 32) (pf blk 12 0 10) (pf blk 6 4 3) (pf blk 6 0 4) r) 64)
def turboDecBlock (blk r : Nat) : Nat := 48 + pf blk 1 0 4 * (24 + ceilDiv (5 * turboKr (pf blk 4 0 20) r) 64)
def turboEncBlock (blk r : Nat) : Nat :=
  let a := pf blk 4 0 20
  32 + max (ceilDiv (turboKr a r) 8)
    (ceilDiv (rateE (pf blk 8 0 32) (turboC a) (pf blk 12 4 3) (pf blk 12 0 4) r) 64)
def polarEntry (blk i : Nat) : Nat :=
  let b := 16 + 16 * i
  let a := pf blk b 0 11
  let e := pf blk (b + 2) 0 14
  let l := pf blk (b + 12) 0 2
  if uciSegmented a e then 40 + 2 * (polarN (ceilDiv a 2 + 11) (e / 2) / 2 * (1 + l))
  else 40 + polarN (a + uciCrc a) e / 2 * (1 + l)
def cvdEntry (blk i : Nat) : Nat :=
  let b := 16 + 16 * i
  let k := pf blk (b + 2) 0 15
  if pf blk b 0 2 = 0 then 136 + ceilDiv (5 * k) 4 else 40 + ceilDiv (5 * (k + 3)) 8
/-- Fields of HQC entry `i` (Table 8-13): SB, E, OP, RV, E_OFS. -/
def hqcSb (blk i : Nat) : Nat := pf blk (32 + 16 * i) 0 20
def hqcE (blk i : Nat) : Nat := pf blk (36 + 16 * i) 0 20
def hqcOp (blk i : Nat) : Nat := pf blk (40 + 16 * i) 0 2

/-- The numbers `a` to `a + n − 1`. -/
def span (a n : Nat) : List Nat := (upto n).map (a + ·)
/-- Sum of `f` over a list. -/
def sumBy (l : List Nat) (f : Nat → Nat) : Nat := l.foldl (fun t i => t + f i) 0

/-- Quanta of a job: what its shares and chunks count. HQC counts entries; the others count UNITS. -/
def opQuanta (op blk units : Nat) : Nat := if op = 0x030 then pf blk 2 0 8 else units

/-- Cycles of quanta `a` to `a + n − 1` of an engine job; `cap` is the tenant's LDPC iteration cap (R295). -/
def opCycles (op blk cap a n : Nat) : Nat :=
  let layers := max 1 (ceilDiv (pf blk 2 0 7 * pf blk 1 0 5) 64)
  match op with
  | 0x010 => n * (11 + min (pf blk 1 0 6) cap * (if bitAt blk 0 then 96 else 157))
  | 0x011 =>
    let f := pf blk 14 0 10 + a
    sumBy (span f n) (ldeBlock blk) +
      (if bitAt blk 1 && f + n = pf blk 12 0 10 then ceilDiv (pf blk 20 0 20) 512 else 0)
  | 0x018 => sumBy (span a n) (polarEntry blk)
  | 0x020 => sumBy (span (pf blk 14 0 10 + a) n) (turboDecBlock blk)
  | 0x021 =>
    let f := pf blk 14 0 10 + a
    sumBy (span f n) (turboEncBlock blk) +
      (if bitAt blk 0 && f + n = turboC (pf blk 4 0 20) then ceilDiv (pf blk 4 0 20) 512 else 0)
  | 0x028 => sumBy (span a n) (cvdEntry blk)
  | 0x030 => 200 + n + ceilDiv (sumBy (span a n) (hqcE blk)) 128 +
      (if (span a n).any (fun i => hqcOp blk i = 1 || hqcOp blk i = 2) then 300 else 0)
  | 0x048 =>
    let r := if bitAt blk 4 then pf blk 9 0 4 else 1
    64 + 96 * prachRoots blk +
      n * (32 + prachNb (pf blk 0 0 2) / 2 + ceilDiv (r * prachL (pf blk 0 0 2)) 4)
  | 0x050 => ceilDiv (3 * n * layers) 2
  | 0x051 => ceilDiv (3 * n * layers) 2
  | 0x058 =>
    let l := pf blk 1 0 5
    let m := pf blk 2 0 7
    32 + n * (if pf blk 0 0 2 = 2 then 500 + 6 * ceilDiv (m * l * l) 16 + ceilDiv (m * pf blk 3 0 5) 4
      else 200 + ceilDiv (m * l * l) 32 + ceilDiv (l * l * l) 8)
  | 0x060 => if bitAt blk 0 then 100 + 60 * n else 120 + 160 * n
  | _ =>
    let nsym := pf blk 10 0 4
    let size := fftLen (pf blk 0 0 3)
    24 + sumBy (span a n) (fun t =>
      let cp := if !bitAt blk 3 then 0 else if bitAt (pf blk 8 0 14) (t % max 1 nsym) then pf blk 6 0 12 else pf blk 4 0 12
      8 + ceilDiv (size + cp) 4)

/-- Most cycles of one split quantum of an engine job, one unit for a job that does not split (R102, R291). -/
def quantumCycles (op blk cap n : Nat) : Nat :=
  let each := op == 0x011 || op == 0x018 || op == 0x020 || op == 0x021 || op == 0x028 || op == 0x030 || op == 0x040 || op == 0x041
  (upto (if each then n else min n 1)).foldl (fun m a => max m (opCycles op blk cap a 1)) 0

/-- Cycles at a clock in MHz, as Tc, rounded up: 1 µs is 1,966.08 Tc. -/
def cyclesToTc (cycles mhz : Nat) : Nat := if mhz = 0 then 0 else ceilDiv (cycles * 49152) (25 * mhz)
/-- Cycles at a clock in MHz, as nanoseconds, rounded up. -/
def cyclesToNs (cycles mhz : Nat) : Nat := if mhz = 0 then 0 else ceilDiv (cycles * 1000) mhz

/-! ### Limits of the parameter blocks (R288, R320, R375) -/

/-- What a block check sees of a job: its opcode, UNITS and PARAM_LEN, for each of its six references the role and the
SIZE of the buffer (none when unused), the PRBs of its CI, and the tenant's soft-buffer quota and SB_NCB_MAX. -/
structure BlockCtx where
  op : Nat
  units : Nat
  len : Nat
  refs : List (Option (Nat × Nat))
  prbs : Nat
  quota : Nat
  ncbMax : Nat
  /-- The binding slot named is ACTIVE or DRAINING (R375). -/
  slotOk : Nat → Bool

/-- SIZE behind a reference. -/
def BlockCtx.size (c : BlockCtx) (k : Nat) : Nat :=
  match c.refs.getD k none with
  | some (_, s) => s
  | none => 0
/-- Reference `k` is used as input; as output or in-out; is unused. -/
def BlockCtx.isIn (c : BlockCtx) (k : Nat) : Bool := match c.refs.getD k none with | some (r, _) => r == 0 | none => false
def BlockCtx.isOut (c : BlockCtx) (k : Nat) : Bool :=
  match c.refs.getD k none with | some (r, _) => r == 1 || r == 2 | none => false
def BlockCtx.free (c : BlockCtx) (k : Nat) : Bool := (c.refs.getD k none).isNone
/-- Every reference from `k` on is unused. -/
def BlockCtx.freeFrom (c : BlockCtx) (k : Nat) : Bool := (upto 6).all fun i => i < k || c.free i

def qmOk (q : Nat) : Bool := q == 1 || q == 2 || q == 4 || q == 6 || q == 8
def inRange (x lo hi : Nat) : Bool := lo ≤ x && x ≤ hi

/-- NCB of an LDPC code: 0, or K − 2 Zc to the full buffer. -/
def ncbOk (bg zc ncb : Nat) : Bool :=
  let full := (if bg = 1 then 50 else 66) * zc
  let k := (if bg = 1 then 10 else 22) * zc
  ncb == 0 || inRange ncb (k - 2 * zc) full
/-- Circular-buffer length in force. -/
def ncbOf (bg zc ncb : Nat) : Nat := if ncb = 0 then (if bg = 1 then 50 else 66) * zc else ncb

/-- Table 8-5. -/
def lddOk (c : BlockCtx) (b : Nat) : Bool :=
  let bg := pf b 0 0 1
  let inForm := bitAt b 1
  let crc := pf b 0 2 2
  let zc := pf b 2 0 9
  let k := pf b 4 0 14
  let qm := pf b 6 0 4
  let nl := pf b 6 4 3
  let g := pf b 8 0 32
  let n := pf b 12 0 10
  let first := pf b 14 0 10
  let ncb := pf b 16 0 16
  let inOfs := pf b 20 0 32
  let inStr := pf b 24 0 32
  let outOfs := pf b 28 0 32
  let outStr := pf b 32 0 32
  let st := pf b 36 0 32
  onlyFields b [(0, 6), (8, 6), (16, 9), (32, 14), (48, 7), (56, 4), (64, 32), (96, 10), (112, 10), (128, 16), (160, 160)] &&
    pf b 0 4 2 != 3 && inRange (pf b 1 0 6) 1 32 && liftingOk zc && inRange k 1 ((if bg = 1 then 10 else 22) * zc) &&
    qmOk qm && inRange nl 1 4 && inRange n 1 512 && first + c.units ≤ n && ncbOk bg zc ncb &&
    g % (nl * qm) == 0 && (if n > 1 then crc == 1 else crc != 1) &&
    (if inForm then ncbOf bg zc ncb ≤ inStr && inStr % 64 == 0 else inStr == 0) &&
    ceilDiv k 8 ≤ outStr && outStr % 16 == 0 && st % 16 == 0 &&
    c.isIn 0 && c.isOut 1 && c.isOut 2 && c.freeFrom 3 &&
    (if inForm then inOfs + (c.units - 1) * inStr + ncbOf bg zc ncb ≤ c.size 0
     else inOfs + rateSum g n nl qm first (first + c.units) ≤ c.size 0) &&
    outOfs + (c.units - 1) * outStr + ceilDiv k 8 ≤ c.size 1 && st + 16 * c.units ≤ c.size 2

/-- Largest E(r) of a job's blocks. -/
def maxE (g n nl qm first units : Nat) : Nat := (span first units).foldl (fun m r => max m (rateE g n nl qm r)) 0

/-- Table 8-6. -/
def ldeOk (c : BlockCtx) (b : Nat) : Bool :=
  let bg := pf b 0 0 1
  let zc := pf b 2 0 9
  let k := pf b 4 0 14
  let qm := pf b 6 0 4
  let nl := pf b 6 4 3
  let g := pf b 8 0 32
  let n := pf b 12 0 10
  let first := pf b 14 0 10
  let a := pf b 20 0 20
  let inOfs := pf b 28 0 32
  let outOfs := pf b 32 0 32
  let outStr := pf b 36 0 32
  let crcLen := if bitAt b 1 then (if a > 3824 then 24 else 16) else 0
  let tbCrc := if a > 3824 then 24 else 16
  onlyFields b [(0, 3), (16, 9), (32, 14), (48, 7), (56, 2), (64, 32), (96, 10), (112, 10), (128, 16), (160, 20), (192, 31),
      (224, 32), (256, 32), (288, 32)] &&
    liftingOk zc && inRange k 1 ((if bg = 1 then 10 else 22) * zc) && qmOk qm && inRange nl 1 4 && inRange n 1 512 &&
    first + c.units ≤ n && ncbOk bg zc (pf b 16 0 16) && g % (nl * qm) == 0 && inRange a 24 1277992 &&
    (bitAt b 2 || pf b 24 0 31 == 0) && n * k == a + tbCrc + (if n > 1 then 24 * n else 0) &&
    ceilDiv (maxE g n nl qm first c.units) 8 ≤ outStr && outStr % 16 == 0 &&
    c.isIn 0 && c.isOut 1 && c.freeFrom 2 &&
    inOfs + ceilDiv (a + tbCrc - crcLen) 8 ≤ c.size 0 &&
    outOfs + (c.units - 1) * outStr + ceilDiv (maxE g n nl qm first c.units) 8 ≤ c.size 1

/-- Table 8-7. -/
def pldOk (c : BlockCtx) (b : Nat) : Bool :=
  let st := pf b 4 0 32
  onlyFields (b % 2 ^ 128) [(0, 1), (32, 32)] && st % 16 == 0 && c.isIn 0 && c.isOut 1 && c.isOut 2 && c.freeFrom 3 &&
    st + 16 * c.units ≤ c.size 2 &&
    (upto c.units).all fun i =>
      let o := 16 + 16 * i
      let a := pf b o 0 11
      let e := pf b (o + 2) 0 14
      onlyFields (fld b (8 * o) 128) [(0, 11), (16, 14), (32, 64), (96, 2)] && inRange a 12 1706 &&
        a + uciCrc a + 3 ≤ e && e ≤ 8192 && pf b (o + 4) 0 32 + e ≤ c.size 0 &&
        pf b (o + 8) 0 32 + ceilDiv a 8 ≤ c.size 1

/-- Table 8-8, decode. -/
def tbcDecOk (c : BlockCtx) (b : Nat) : Bool :=
  let a := pf b 4 0 20
  let n := turboC a
  let g := pf b 8 0 32
  let qm := pf b 12 0 4
  let nl := pf b 12 4 3
  let first := pf b 14 0 10
  let kp := turboK (ceilDiv (a + 24 + (if n > 1 then 24 * n else 0)) n)
  let kw := 3 * (32 * ceilDiv (kp + 4) 32)
  let inStr := pf b 24 0 32
  let crc := pf b 0 1 2
  onlyFields b [(0, 4), (8, 4), (32, 20), (64, 32), (96, 7), (104, 2), (112, 10), (128, 16), (160, 160)] &&
    crc != 3 && (if n > 1 then crc != 2 else crc != 1) && inRange (pf b 1 0 4) 1 8 && inRange a 16 391656 &&
    qmOk qm && inRange nl 1 4 && g % (nl * qm) == 0 && first + c.units ≤ n &&
    (if bitAt b 0 then kw ≤ inStr && inStr % 64 == 0 else inStr == 0) &&
    ceilDiv kp 8 ≤ pf b 32 0 32 && pf b 32 0 32 % 16 == 0 && pf b 36 0 32 % 16 == 0 &&
    c.isIn 0 && c.isOut 1 && c.isOut 2 && c.freeFrom 3 &&
    (if bitAt b 0 then pf b 20 0 32 + (c.units - 1) * inStr + kw ≤ c.size 0
     else pf b 20 0 32 + rateSum g n nl qm first (first + c.units) ≤ c.size 0) &&
    pf b 28 0 32 + (c.units - 1) * pf b 32 0 32 + ceilDiv kp 8 ≤ c.size 1 && pf b 36 0 32 + 16 * c.units ≤ c.size 2

/-- Table 8-8, encode. -/
def tbcEncOk (c : BlockCtx) (b : Nat) : Bool :=
  let a := pf b 4 0 20
  let n := turboC a
  let g := pf b 8 0 32
  let qm := pf b 12 0 4
  let nl := pf b 12 4 3
  let first := pf b 14 0 10
  onlyFields b [(0, 2), (32, 20), (64, 32), (96, 7), (104, 2), (112, 10), (128, 16), (160, 32), (192, 31), (224, 64)] &&
    inRange a 16 391656 && qmOk qm && inRange nl 1 4 && g % (nl * qm) == 0 && first + c.units ≤ n &&
    (bitAt b 1 || pf b 24 0 31 == 0) &&
    ceilDiv (maxE g n nl qm first c.units) 8 ≤ pf b 32 0 32 && pf b 32 0 32 % 16 == 0 &&
    c.isIn 0 && c.isOut 1 && c.freeFrom 2 &&
    pf b 20 0 32 + ceilDiv (a + (if bitAt b 0 then 0 else 24)) 8 ≤ c.size 0 &&
    pf b 28 0 32 + (c.units - 1) * pf b 32 0 32 + ceilDiv (maxE g n nl qm first c.units) 8 ≤ c.size 1

/-- Table 8-10. -/
def cvdOk (c : BlockCtx) (b : Nat) : Bool :=
  let st := pf b 4 0 32
  onlyFields (b % 2 ^ 128) [(32, 32)] && st % 16 == 0 && c.isIn 0 && c.isOut 1 && c.isOut 2 && c.freeFrom 3 &&
    st + 16 * c.units ≤ c.size 2 &&
    (upto c.units).all fun i =>
      let o := 16 + 16 * i
      let code := pf b o 0 2
      let k := pf b (o + 2) 0 15
      let e := pf b (o + 4) 0 16
      onlyFields (fld b (8 * o) 128) [(0, 5), (16, 15), (32, 16), (64, 64)] && code != 3 &&
        (if code = 0 then !bitAt b (8 * o + 2) && pf b o 3 2 != 3 && inRange k 8 2048 && inRange e 24 16384
         else pf b o 3 2 == 0 && inRange k 1 16392 && e == 2 * (k + 3)) &&
        pf b (o + 8) 0 32 + e ≤ c.size 0 && pf b (o + 12) 0 32 + ceilDiv k 8 ≤ c.size 1

/-- Table 8-13, and the quota check of R313. -/
def hqcOk (c : BlockCtx) (b : Nat) : Bool :=
  let turbo := bitAt b 0
  let n := pf b 2 0 8
  let ncb := pf b 8 0 16
  let ent := upto n
  let writers := ent.filter fun i => hqcOp b i != 3
  onlyFields (b % 2 ^ 256) [(0, 3), (8, 4), (16, 8), (32, 13), (48, 1), (64, 16), (96, 16), (128, 128)] &&
    inRange n 1 254 && c.len == 32 + 16 * n && inRange ncb 1 c.ncbMax &&
    (if turbo then pf b 1 0 4 == 0 && !bitAt b 48 && pf b 12 0 16 == 0 && inRange (pf b 4 0 13) 40 6144 &&
        turboK (pf b 4 0 13) == pf b 4 0 13
     else qmOk (pf b 1 0 4) && liftingOk (pf b 4 0 13) && ncbOk (pf b 6 0 1) (pf b 4 0 13) ncb) &&
    ncb ≤ pf b 24 0 32 && pf b 24 0 32 % 64 == 0 && pf b 28 0 32 % 16 == 0 &&
    c.units == sumBy ent (hqcE b) &&
    (if writers.isEmpty then c.free 0 else c.isIn 0 && pf b 16 0 32 + c.units ≤ c.size 0) &&
    (c.free 1 || c.isOut 1) && (!bitAt b 1 || writers.all fun i => pf b 20 0 32 + i * pf b 24 0 32 + ncb ≤ c.size 1) &&
    (if bitAt b 2 then c.isOut 2 && pf b 28 0 32 + 16 * n ≤ c.size 2 else c.free 2 || c.isOut 2) && c.freeFrom 3 &&
    ent.all fun i =>
      let o := 32 + 16 * i
      onlyFields (fld b (8 * o) 128) [(0, 20), (32, 20), (64, 4), (96, 20)] && hqcSb b i < c.quota &&
        (if hqcOp b i = 3 then hqcE b i == 0 else inRange (hqcE b i) 1 262144)

/-- Samples of the time domain of an FFT or IFFT job (R324). -/
def fftTime (b : Nat) : Nat :=
  let nsym := pf b 10 0 4
  let size := fftLen (pf b 0 0 3)
  pf b 11 0 7 * sumBy (upto nsym) fun s =>
    size + (if !bitAt b 3 then 0 else if bitAt (pf b 8 0 14) s then pf b 6 0 12 else pf b 4 0 12)

/-- Table 9-4. -/
def fftOk (c : BlockCtx) (b : Nat) : Bool :=
  let size := fftLen (pf b 0 0 3)
  let nsc := pf b 2 0 13
  let nsym := pf b 10 0 4
  let nant := pf b 11 0 7
  let time := 4 * fftTime b
  let freq := 4 * nsym * nant * nsc
  let inv := c.op == 0x041
  onlyFields b [(0, 6), (8, 4), (16, 13), (32, 12), (48, 12), (64, 14), (80, 4), (88, 7), (96, 64)] &&
    pf b 1 0 4 ≤ 12 && nsc ≤ (if bitAt b 5 then size - 2 else size) && nsc % 12 == 0 &&
    (if bitAt b 3 then pf b 4 0 12 ≤ size / 2 && pf b 6 0 12 ≤ size / 2 else pf b 4 0 12 == 0 && pf b 6 0 12 == 0) &&
    inRange nsym 1 14 && inRange nant 1 64 && c.units == nsym * nant && c.isIn 0 && c.isOut 1 && c.freeFrom 2 &&
    pf b 12 0 32 + (if inv then freq else time) ≤ c.size 0 && pf b 16 0 32 + (if inv then time else freq) ≤ c.size 1

/-- Table 9-5. -/
def prachOk (c : BlockCtx) (b : Nat) : Bool :=
  let l := prachL (pf b 0 0 2)
  let nant := pf b 8 0 7
  let nrec := pf b 9 0 4
  onlyFields b [(0, 5), (8, 3), (16, 11), (32, 10), (48, 7), (56, 7), (64, 7), (72, 4), (96, 16), (128, 32)] &&
    pf b 0 2 2 != 3 && pf b 1 0 3 ≤ 5 && pf b 2 0 11 < l - 1 && inRange (pf b 6 0 7) 1 64 && inRange (pf b 7 0 7) 1 64 &&
    inRange nant 1 64 && inRange nrec 1 14 && 0x100 ≤ pf b 12 0 16 && pf b 16 0 32 % 16 == 0 &&
    c.units == prachRoots b * nant * (if bitAt b 4 then 1 else nrec) && c.isIn 0 && c.isOut 1 && c.freeFrom 2 &&
    nant * nrec * 4608 ≤ c.size 0 && pf b 16 0 32 + 16 + 16 * pf b 7 0 7 ≤ c.size 1

/-- Table 9-8. -/
def cheOk (c : BlockCtx) (b : Nat) : Bool :=
  let kind := pf b 0 0 3
  let nl := pf b 1 0 5
  let nant := pf b 2 0 7
  let nprb := pf b 6 0 9
  let double := bitAt b 3
  let gran := pf b 3 0 4
  let srs := kind == 4
  let mats := if srs then ceilDiv nprb (max 1 (pf b 11 0 5)) else nprb * 12
  onlyFields (b % 2 ^ 256) [(0, 8), (8, 5), (16, 7), (24, 7), (32, 9), (48, 9), (64, 4), (72, 4), (80, 4), (88, 7), (96, 16),
      (128, 96)] &&
    kind ≤ 4 && (!double || kind ≤ 1) && pf b 0 4 2 ≤ 1 && inRange nl 1 16 && c.len == 32 + 8 * nl && inRange nant 1 64 &&
    inRange gran 1 16 && inRange nprb 1 273 && pf b 4 0 9 + nprb ≤ c.prbs && inRange (pf b 9 0 4) 1 14 &&
    pf b 8 0 4 + b2n double < pf b 9 0 4 && pf b 10 0 4 ≤ 13 &&
    (if srs then inRange (pf b 11 0 5) 1 16 && pf b 11 5 2 ≤ 2 && !bitAt b 6 else pf b 11 0 7 == 0) &&
    pf b 12 0 16 != 0 && c.units == nprb * 12 * (1 + b2n double) && c.isIn 0 && c.isOut 1 &&
    (if bitAt b 6 then c.isOut 2 && pf b 20 0 32 + 4 * ceilDiv nprb gran * nant * nant ≤ c.size 2
     else c.free 2 && pf b 20 0 32 == 0) &&
    (if bitAt b 7 then c.isOut 3 && pf b 24 0 32 % 64 == 0 && pf b 24 0 32 + 64 ≤ c.size 3
     else c.free 3 && pf b 24 0 32 == 0) && c.freeFrom 4 &&
    pf b 16 0 32 + 4 * mats * nl * nant ≤ c.size 1 && 48 * (((nant - 1) * pf b 9 0 4 + pf b 8 0 4 + b2n double) * c.prbs + pf b 4 0 9 + nprb) ≤ c.size 0 &&
    (upto nl).all fun i =>
      let o := 32 + 8 * i
      let e := fld b (8 * o) 64
      let port := fld e 16 4
      let us := 2 ≤ kind
      onlyFields e [(0, 16), (16, 5), (24, 6), (32, 3), (40, 4)] &&
        (if kind = 2 || kind = 3 then fld e 0 16 == 0 else true) &&
        port ≤ [7, 11, 3, 11, 3].getD kind 0 && (if us then fld e 24 5 ≤ 29 else fld e 24 6 == 0) &&
        (if srs then fld e 40 4 ≤ 11 else fld e 32 3 == 0 && fld e 40 4 == 0)

/-- Bits set among the low `n`. -/
def popcount (n x : Nat) : Nat := ((upto n).filter (bitAt x)).length

/-- Table 9-10. -/
def equOk (c : BlockCtx) (b : Nat) : Bool :=
  let nl := pf b 1 0 5
  let nant := pf b 2 0 7
  let nprb := pf b 6 0 9
  let mask := pf b 8 0 14
  let w := pf b 3 4 4
  onlyFields b [(0, 2), (8, 5), (16, 7), (24, 8), (32, 9), (48, 9), (64, 14), (80, 4), (96, 128)] &&
    inRange nl 1 16 && nl ≤ nant && inRange nant 1 64 && inRange (pf b 3 0 4) 1 16 &&
    (w == 1 || w == 2 || w == 3 || w == 4 || w == 6 || w == 12) && inRange nprb 1 273 && pf b 4 0 9 + nprb ≤ c.prbs &&
    mask != 0 && inRange (pf b 10 0 4) 1 14 && mask < 2 ^ pf b 10 0 4 && c.units == nprb * 12 * popcount 14 mask &&
    c.isIn 0 && c.isIn 1 && c.isIn 2 && c.isOut 3 &&
    (if bitAt b 1 then c.isOut 4 && pf b 24 0 32 + 2 * nprb * nl ≤ c.size 4 else c.free 4 && pf b 24 0 32 == 0) &&
    c.freeFrom 5 && 48 * (((nant - 1) * pf b 10 0 4 + Nat.log2 mask) * c.prbs + pf b 4 0 9 + nprb) ≤ c.size 0 &&
    pf b 12 0 32 + 4 * nprb * 12 * nl * nant ≤ c.size 1 &&
    pf b 16 0 32 + 4 * ceilDiv nprb (pf b 3 0 4) * nant * nant ≤ c.size 2 && pf b 20 0 32 + 4 * c.units * nl ≤ c.size 3

/-- Table 9-11. -/
def bweOk (c : BlockCtx) (b : Nat) : Bool :=
  let m := pf b 0 0 2
  let l := pf b 1 0 5
  let a := pf b 2 0 7
  let rows := if m = 2 then pf b 3 0 5 else l
  onlyFields b [(0, 3), (8, 5), (16, 7), (24, 5), (32, 24), (64, 96)] && m != 3 && !(m == 2 && bitAt b 2) && inRange l 1 16 &&
    (m != 1 || l ≤ a) && inRange a 1 64 && (if m = 2 then inRange (pf b 3 0 5) 1 (min l a) else pf b 3 0 5 == 0) &&
    (m == 0 || fld b 32 16 == 0) && pf b 12 0 32 % 64 == 0 && 64 + 4 * a * rows ≤ pf b 16 0 32 && pf b 16 0 32 % 64 == 0 &&
    c.isIn 0 && c.isOut 1 && c.freeFrom 2 && pf b 8 0 32 + 4 * c.units * l * a ≤ c.size 0 &&
    pf b 12 0 32 + (c.units - 1) * pf b 16 0 32 + 64 + 4 * a * rows ≤ c.size 1

/-- Bytes of an UPDATE command and of its result (Table 10-12: 64 and 16). -/
def marOk (c : BlockCtx) (b : Nat) : Bool :=
  let upd := bitAt b 0
  onlyFields b [(0, 1), (8, 2), (32, 128)] && pf b 8 0 32 % 64 == 0 && pf b 16 0 32 % 16 == 0 && c.isOut 1 &&
    (if upd then c.units ≤ 4096 && pf b 1 0 2 == 0 && pf b 4 0 32 == 0 && pf b 12 0 32 % 64 == 0 && c.isIn 0 &&
        c.freeFrom 2 && pf b 12 0 32 + 64 * c.units ≤ c.size 0 && pf b 16 0 32 + 16 * c.units ≤ c.size 1
     else c.slotOk (pf b 1 0 2) && pf b 12 0 32 == 0 && c.free 0 && c.isOut 2 && c.freeFrom 3 &&
        pf b 8 0 32 + 1024 * c.units ≤ c.size 1 && pf b 16 0 32 + 16 ≤ c.size 2)

/-- The parameter block keeps every limit of its chapter (R288, R320, R375). -/
def blockOk (c : BlockCtx) (b : Nat) : Bool :=
  match c.op with
  | 0x010 => lddOk c b
  | 0x011 => ldeOk c b
  | 0x018 => pldOk c b
  | 0x020 => tbcDecOk c b
  | 0x021 => tbcEncOk c b
  | 0x028 => cvdOk c b
  | 0x030 => hqcOk c b
  | 0x040 => fftOk c b
  | 0x041 => fftOk c b
  | 0x048 => prachOk c b
  | 0x050 => cheOk c b
  | 0x051 => equOk c b
  | 0x058 => bweOk c b
  | 0x060 => marOk c b
  | _ => true

/-- DRAM tokens a job adds beyond its buffers (R314, Table 10-16). -/
def opTokens (op blk units : Nat) : Nat :=
  match op with
  | 0x030 => sumBy (upto (pf blk 2 0 8)) fun i =>
      let t := ceilDiv (ceilDiv (hqcE blk i) 2) 64 + 2
      if hqcOp blk i = 3 then 2 else if hqcOp blk i = 1 then 2 * t else t
  | 0x060 => if bitAt blk 0 then 24 * units else 16 * units
  | _ => 0

end Sys2Proof.Machine
end

