-- ==== Sys2Proof/Machine/StateHost.lean ====
section
/-!
DEFINITION. The state of the host link, its functions and queues (18_host_interface.md), of the Plemi Dictionary
Protocol (19_object_dictionary.md), and of what leaves the device.
-/
namespace Sys2Proof.Machine

/-- What the device sends, in order: the posted-write queue of the host link (R565, R568), the messages of the
management transports, and every other output a command causes. The outside takes them one at a time. -/
inductive Output where
  /-- A posted write of function `fn` to a host bus address (R613). -/
  | hostWrite (fn addr : Nat) (data : List Byte)
  /-- An MSI-X message of function `fn` on a vector (R630). -/
  | msix (fn vec : Nat)
  /-- A non-posted read of function `fn`, with its tag (R631). -/
  | hostRead (fn addr len tag : Nat)
  /-- The answer of a host access to a BAR or to CXL.mem: Completer Abort. -/
  | completerAbort (fn : Nat)
  /-- A configuration request of function `fn` is answered Configuration Request Retry Status (R618). -/
  | configRetry (fn : Nat)
  /-- Read data returned to the host. -/
  | readData (fn : Nat) (data : List Byte) (poisoned : Bool)
  /-- A translation request, an invalidate completion (R635) and a snoop response RspIHitI (R615). -/
  | translationRequest (fn page : Nat)
  | invalidateDone (fn page : Nat)
  | snoopHit (line : Nat)
  /-- A PDP message: on CAN FD (0) with its identifier, on UDP (1) to a peer, in the mailbox (2) of a function (R649, R653). -/
  | pdp (transport peer : Nat) (data : List Byte)
  /-- The answer of a write that arrives as a command of its own: 0, or the abort code (R646). -/
  | reply (code : Nat)
  /-- A frame or message a fronthaul port sends (12_fronthaul_ports.md). -/
  | portFrame (port kind : Nat) (data : List Byte)
  /-- A packet that crosses the mesh: network, source and destination router, flits (R546). -/
  | flits (network src dst count : Nat)
  /-- Read data and write acknowledgements that the mesh delivers to the unit port of a router (R546). -/
  | nocData (dst : Nat) (data : List Byte) (poisoned : Bool)
  | nocAck (dst : Nat)
  /-- The error response of the mesh to the management complex, of a control core or of JTAG debug (Table 1-11). -/
  | nocError (dst addr : Nat)
  /-- A DRAM command with no data effect: channel, kind, rank or bank, row (14_dram.md). -/
  | dramCommand (channel kind rank row : Nat)
  /-- A reply on the management Ethernet port outside PDP (R656). -/
  | housekeeping (kind : Nat)
deriving DecidableEq, Repr

/-- Queue-pair states (Table 18-6). -/
inductive QpState where
  | disabled | enabled | draining | error | quiesced
deriving DecidableEq, Repr

/-- A completion entry held back until its queue has room or its function may send again (R158, R632): the
entry without its phase bit. -/
abbrev Entry := Nat

/-- One queue pair (Tables 18-6 to 18-8); `cfg` starts at 0x000n_0C0C. -/
structure QueuePair where
  sqBase : Nat := 0
  cqBase : Nat := 0
  cfg : Nat := 0x0C0C
  mod : Nat := 1
  state : QpState := .disabled
  /-- ENABLE as it reads: the value last written that took effect (R8, Table 18-9). -/
  enable : Bool := false
  cqStall : Bool := false
  cause : Nat := 0
  sqHead : Nat := 0
  sqTail : Nat := 0
  cqTail : Nat := 0
  cqHead : Nat := 0
  phase : Bool := false
  submitted : Nat := 0
  completed : Nat := 0
  latSubmitted : Option Nat := none
  latCompleted : Option Nat := none
  /-- Visible entries not yet fetched: (index, T_arr), in index order (R627). -/
  visible : List (Nat × Nat) := []
  /-- The entry whose host read is under way: (index, T_arr). -/
  fetching : Option (Nat × Nat) := none
  /-- Entries waiting for room, oldest first (R158), or for the function to return (R632). -/
  held : List Entry := []
  modCount : Nat := 0
  modSince : Option Nat := none
deriving DecidableEq, Repr

/-- The event queue of a function (R171, R623). -/
structure EventQueue where
  base : Nat := 0
  cfg : Nat := 0x1004
  enable : Bool := false
  head : Nat := 0
  tail : Nat := 0
  phase : Bool := false
  mod : Nat := 1
  lost : Nat := 0
  /-- When the present episode of lost events began (Table 4-7). -/
  lostSince : Nat := 0
  modCount : Nat := 0
  modSince : Option Nat := none
deriving DecidableEq, Repr

/-- One MSI-X vector: address, data, mask and pending bit (R612, R630). -/
structure MsixVector where
  addr : Nat := 0
  data : Nat := 0
  masked : Bool := true
  pending : Bool := false
deriving DecidableEq, Repr

/-- The PDP mailbox of a function (Table 19-6). The areas hold their bytes from offset 0; absent bytes read 0. -/
structure Mailbox where
  ctrl : Nat := 0
  done : Bool := false
  busy : Bool := false
  reqLen : Nat := 0
  rspLen : Nat := 0
  doneCount : Nat := 0
  goIgnored : Nat := 0
  req : List Byte := []
  rsp : List Byte := []
deriving DecidableEq, Repr

/-- One host function (R617, Table 18-4, R630 to R633). -/
structure FnSt where
  enabled : Bool := false
  bme : Bool := false
  msixEn : Bool := false
  fnMask : Bool := false
  ats : Bool := false
  tag10 : Bool := false
  tagExt : Bool := false
  d3hot : Bool := false
  cto : Nat := 0
  mps : Nat := 128
  mrrs : Nat := 512
  flr : Option Nat := none
  aeLog : Nat := 0
  aeCount : Nat := 0
  bar4Base : Nat := 0
  dtcLatch : Option Nat := none
  eq : EventQueue := {}
  qps : Table QueuePair := []
  vectors : Table MsixVector := []
  mbox : Mailbox := {}
deriving DecidableEq, Repr

/-- Who waits for a host read (Table 18-10): a submission entry, a part of a graph (0 header, 1 job array, 2 buffer array,
3 + j the parameter block of job j), a copy or an engine job that reads T4, a Sage transfer, a translation. -/
inductive ReadUse where
  | submission (fn qp idx : Nat)
  | graphFetch (graph part : Nat)
  | job (graph num buf : Nat)
  /-- A transfer of a Sage core (R233). -/
  | xfer (core graph tag : Nat)
  | translation (fn page : Nat)
  /-- A read request that the mesh brought to the host link: the requester's router, 64 for the host itself; a number. -/
  | mesh (src seq : Nat)
deriving DecidableEq, Repr

/-- A tag in flight or fenced (R631, R632). -/
structure TagEnt where
  fn : Nat
  tag : Nat
  use : ReadUse
  len : Nat
  issued : Nat
  /-- The bus address it asks for, before translation. -/
  addr : Nat := 0
  fenced : Bool := false
deriving DecidableEq, Repr

/-- A read of host memory: what is still to be asked for, what has come, and its failure. It has one request outstanding at a
time (log 23). -/
structure ReadOp where
  fn : Nat
  use : ReadUse
  addr : Nat
  left : Nat
  data : List Byte := []
  failed : Option ReadFail := none
deriving DecidableEq, Repr

/-- A posted write or a message that waits for a translation, with the job that made it (R635). -/
inductive HostItem where
  | write (addr : Nat) (data : List Byte) (owner : Option (Nat × Nat))
  | msix (vec : Nat)
deriving DecidableEq, Repr

/-- An entry of the translation cache, most recently used first in its list (R635). -/
structure TransEnt where
  fn : Nat
  page : Nat
  target : Nat
deriving DecidableEq, Repr

/-- An open segmented transfer (R652): its transport and peer, TID, object, and the snapshot read or the bytes written. -/
structure SegXfer where
  transport : Nat
  peer : Nat
  tid : Nat
  write : Bool
  idx : Nat
  sub : Nat
  total : Nat
  data : List Byte
  last : Nat
deriving DecidableEq, Repr

/-- What a notification route last notified (R661). -/
structure RouteSt where
  last : Option (List Byte) := none
  at_ : Nat := 0
deriving DecidableEq, Repr

/-- An entry of the error history (Table 19-14). -/
structure HistEntry where
  seq : Nat
  time : Nat
  code : Nat
  severity : Nat
  loc : Nat
  detail : Nat
  count : Nat
deriving DecidableEq, Repr

/-- One record of a parameter image (Table 19-12). -/
structure ParamRecord where
  idx : Nat
  sub : Nat
  value : List Byte
  /-- Its TYPE field. -/
  typ : Nat := 0
deriving DecidableEq, Repr

/-- A copy of the parameter image in boot flash (R663): its sequence number and records, and whether it is good. -/
structure ParamCopy where
  seq : Nat := 0
  records : List ParamRecord := []
  valid : Bool := false
deriving DecidableEq, Repr

/-- An answer that a write owes: what is sent, and on UDP the request (R656). -/
structure Reply where
  out : Output
  request : List Byte := []
deriving DecidableEq, Repr

/-- The host link and every function. -/
structure HostSt where
  fns : Table FnSt := []
  vfEnable : Bool := false
  numVfs : Nat := 0
  tags : List TagEnt := []
  reads : List ReadOp := []
  /-- What waits for a translation, in order, by function. -/
  waits : List (Nat × HostItem) := []
  tcache : List TransEnt := []
  /-- Invalidations whose completion waits for requests in flight (R635): function, first page, pages. -/
  invalidating : List (Nat × Nat × Nat) := []
  /-- A CXL.mem range is enabled (R616). -/
  hdm : Bool := false
  /-- Host lines held Shared over CXL.cache, with the graph whose staged buffer holds them (R615). -/
  lines : List (Nat × Nat) := []
deriving DecidableEq, Repr

/-- The dictionary services (19_object_dictionary.md). -/
structure DictSt where
  segs : List SegXfer := []
  routes : Table RouteSt := []
  /-- Notifications waiting on CAN FD and UDP, at most 32 each (R662). -/
  canQueue : List (List Byte) := []
  udpQueue : List (Nat × List Byte) := []
  /-- NOTIFY messages counted per transport, modulo 256 (R662). -/
  tids : Table Nat := []
  /-- Responses of the last second on UDP: peer, request, response, time (R656). -/
  answered : List (Nat × List Byte × List Byte × Nat) := []
  history : List HistEntry := []
  histSeq : Nat := 0
  /-- The copy of the history in boot flash (R669). -/
  histFlash : List HistEntry := []
  image : ParamCopy := {}
  /-- Both copies of a part that nothing was stored in are good and hold no record: the default of IMAGE_COPIES (R3, log 83). -/
  copyA : ParamCopy := { valid := true }
  copyB : ParamCopy := { valid := true }
  /-- The records a running store writes (R664). -/
  storing : Option (List ParamRecord) := none
  /-- Records of bindings held pending until their CI is assigned (R684). -/
  pendingRecords : List ParamRecord := []
  /-- Answers to accepted ENTRY_WRITEs, sent after the last load (R206). -/
  loadReplies : List Reply := []
  /-- The answer a running store owes: when both copies are good, and when one is bad (R664). -/
  storeReply : Option (Reply × Reply) := none
  /-- The PHY reports a 1000 Mb/s full-duplex link (R709). -/
  phyUp : Bool := false
deriving DecidableEq, Repr

end Sys2Proof.Machine
end

