-- ==== Sys2Proof/Machine/StateLinks.lean ====
section
/-!
DEFINITION. The state of the serial lanes (11_serial_lanes.md) and of the fronthaul ports (12_fronthaul_ports.md) that is not itself a
dictionary object.
-/
namespace Sys2Proof.Machine

/-- An eye scan (R404 to R407): its parameter block, grid and eyes, error counts in visiting order, the RATE in force, when
it began and ended. -/
structure Scan where
  params : Nat
  cols : Nat
  rows : Nat
  eyes : Nat
  rate : Nat := 0
  counts : List Nat := []
  start : Nat
  /-- The point in progress began. -/
  pointAt : Nat := 0
  fin : Nat := 0
  running : Bool := true
  aborted : Bool := false
  recentred : Bool := false
  split : Nat := 0xFFFF
deriving DecidableEq, Repr

/-- A lane (R394 to R409): when its present state began and when what it does is complete at the earliest; what it is entering, the
state it entered or left, a held request; the CTLE code written while adaptive; the data sampler's phase and thresholds; since when its
record is stale; a re-centring that waits for a scan point, one in progress and since when, the last failed one; the last capture; its
scan. -/
structure LaneSt where
  since : Nat := 0
  due : Nat := 0
  target : Nat := 0
  from_ : Nat := 0
  held : Option Nat := none
  ctleSet : Option Nat := none
  phase : Int := 0
  thresh : List Int := []
  staleSince : Option Nat := none
  recentreDue : Bool := false
  recentring : Option Nat := none
  failedAt : Option Nat := none
  lastCapture : Nat := 0
  scan : Option Scan := none
deriving DecidableEq, Repr

/-- A received eCPRI message that its port has sorted (R424, R425): kind 0 U-plane, 1 time domain, 2 delay measurement; arrival of its
last octet; its octets from the common header on. -/
structure PortMsg where
  port : Nat
  kind : Nat
  arrival : Nat
  body : List Byte
deriving DecidableEq, Repr

/-- The received samples of a time-domain AxC (R422, R439): index of the first one held and of the next expected, modulo 1,024 frames;
samples as I in [15:0] and Q in [31:16]. -/
structure TdStream where
  base : Nat
  next : Nat
  samples : List Nat
  /-- Runs of samples that never came: first index, count. -/
  missing : List (Nat × Nat) := []
deriving DecidableEq, Repr

structure LinkSt where
  lanes : Table LaneSt := []
  /-- Consecutive load windows of class 2 of each lane quad (R398). -/
  classRun : Table Nat := []
  /-- Messages that wait for the port logic, oldest first. -/
  msgs : List PortMsg := []
  /-- Last sequence number received, and the next one sent, by 131,072 × port + 65,536 × plane + eAxC (R425). -/
  seqRx : Table Nat := []
  seqTx : Table Nat := []
  streams : Table TdStream := []
  /-- A Request that awaits its Follow_Up: port to its octets and arrival in Tc (R443). -/
  owdmIn : Table (List Byte × Nat) := []
  /-- The port's own Request with Follow_Up: measurement ID and sending time. -/
  owdmOut : Table (Nat × Nat) := []
deriving DecidableEq, Repr

end Sys2Proof.Machine
end

