-- ==== Sys2Proof/Machine/StateMem.lean ====
section
/-!
DEFINITION. The state of the mesh (16_noc_and_clock_domains.md), device DRAM (14_dram.md), on-die memory integrity and the wear
ledger (15_sram_integrity_and_lifetime.md) that is not itself a dictionary object.
-/
namespace Sys2Proof.Machine

/-- A remap entry (R529): the word, its recorded faults, whether the copy is done and reads go to the spare row, whether the row is
usable. -/
structure RemapEnt where
  word : Nat
  faults : List Nat := []
  switched : Bool := false
  usable : Bool := true
deriving DecidableEq, Repr

/-- The spare record and pass log of a macro (R526 to R531). -/
structure MacroSt where
  /-- Bit positions steered to a spare column; a failed spare counts as used (R528). -/
  columns : List Nat := []
  failedColumns : Nat := 0
  remaps : List RemapEnt := []
  fenced : Bool := false
  /-- Distinct words with a hard fault, by stored bit position (R526). -/
  counters : Table Nat := []
  /-- Words with hard faults in the order found, each with its faulty positions: the log lists the first 16. -/
  faulty : List (Nat × List Nat) := []
  /-- Columns being swept, each with the word its event names. -/
  sweeping : List (Nat × Nat) := []
deriving DecidableEq, Repr

/-- A scrubber: a pass in progress, the start of the last one (R523), and words that requesters handed it (R522): macro, word. -/
structure ScrubSt where
  running : Bool := false
  since : Option Nat := none
  handed : List (Nat × Nat) := []
deriving DecidableEq, Repr

/-- A wear domain (Table 15-6). -/
structure WearDom where
  life : Nat := 0
  thermalCycles : Nat := 0
  powerCycles : Nat := 0
  bins : Table Nat := []
  /-- Highest and lowest Tj of the present swing, for THERMAL_CYCLES, in 1/16 °C. -/
  swingLo : Option Int := none
  swingHi : Option Int := none
deriving DecidableEq, Repr

/-- A copy of the ledger in boot flash (R537). -/
structure LedgerCopy where
  /-- 0: the copy has never been written. -/
  seq : Nat := 0
  good : Bool := true
  doms : Table WearDom := []
  macros : Table MacroSt := []
  retired : List Nat := []
  coresOut : List Nat := []
  serviceStart : Nat := 0
deriving DecidableEq, Repr

/-- On-die memory integrity and the wear ledger (15_sram_integrity_and_lifetime.md). -/
structure SramSt where
  /-- By packed level-2 code. -/
  macros : Table MacroSt := []
  scrubbers : Table ScrubSt := []
  /-- Poisoned bytes: packed level-2 code, word, byte (R521). -/
  poison : List (Nat × Nat × Nat) := []
  doms : Table WearDom := []
  /-- Retired 4 KiB pages (R93). -/
  retired : List Nat := []
  copyA : LedgerCopy := {}
  copyB : LedgerCopy := {}
  lastYear : Nat := 0
  lastDay : Nat := 0
deriving DecidableEq, Repr

/-- A packet on the mesh (R546): network 0 request, 1 response; kind 0 read request, 1 write, 3 read data, 4 write acknowledgement. `gt`
marks reserved traffic; `bank`, a bank port of its destination router; `direct`, an access of the host, answered over the link. `bad`
names data bytes delivered poisoned. -/
structure Packet where
  network : Nat
  kind : Nat
  src : Nat
  dst : Nat
  bank : Bool := false
  gt : Bool := false
  addr : Nat := 0
  len : Nat := 0
  data : List Byte := []
  bad : List Nat := []
  tenant : Nat := 0
  port : Nat := 0
  direct : Bool := false
deriving DecidableEq, Repr

/-- A hold buffer of a port (R556): its packets in arrival order, those that wait in the router's input behind it (R557), and since
when it holds any. -/
structure HoldBuf where
  packets : List Packet := []
  behind : List Packet := []
  since : Nat := 0
deriving DecidableEq, Repr

/-- What a router keeps for its NOC_FAULT events (R570). -/
structure RouterSt where
  count : Nat := 0
  last : Option Nat := none
deriving DecidableEq, Repr

/-- A request in a DRAM channel (R484 to R487): QoS port, tenant, job, the global address of its line, what it writes
(offset in the line, data), its arrival and, for a read, the data its place in the order gives it. -/
structure DReq where
  port : Nat
  tenant : Nat
  job : Nat
  line : Nat
  write : Option (Nat × List Byte)
  arrival : Nat
  read : List Byte := []
  /-- The line held poison when the read entered. -/
  bad : Bool := false
  /-- A read that came over the mesh: the routers its data goes from and to. -/
  reader : Option (Nat × Nat) := none
  /-- A read of the line was queued before this write (R487). -/
  afterRead : Bool := false
deriving DecidableEq, Repr

/-- What a channel keeps of a rank beside its calibration record (R496 to R504). -/
structure RankSt where
  staleSince : Option Nat := none
  recentring : Bool := false
  retryAt : Option Nat := none
  owed : Nat := 0
  lastTrack : Nat := 0
  /-- Training bursts that the re-centring under way still needs (R503). -/
  bursts : Nat := 0
  /-- The rank's last refresh has no training burst yet (R500). -/
  spare : Bool := false
  /-- The guard band: 1 tap in the direction in which the delays grow with temperature, −1 in the other, 0 none (R502). -/
  guard : Int := 0
  /-- Taps by which tracking has moved, of each byte lane, the read gate (keys 0 to 9) and the DQS delays (keys 10 to 19) (R496). -/
  moved : Table Int := []
deriving DecidableEq, Repr

/-- A DRAM channel. -/
structure DramCh where
  readQ : List DReq := []
  writeQ : List DReq := []
  /-- Requests waiting at the router while a queue is full (R486). -/
  waiting : List DReq := []
  drain : Bool := false
  /-- Open row of each bank (R486), by bank key. -/
  openRows : Table Nat := []
  /-- Activate table of each bank: (row, count), at most 16 (R493). -/
  raa : Table (List (Nat × Nat)) := []
  replays : Nat := 0
  freezeAt : Option Nat := none
  freezeCause : Nat := 0
  /-- Lines returned poisoned in the present freeze (R506, R509). -/
  frozenLines : List Nat := []
  ranks : Table RankSt := []
  ceSince : Table Nat := []
  ceReported : List Nat := []
  classRun : Nat := 0
  coolSince : Option Nat := none
  trackTemp : Int := 0
  trackVddq : Nat := 0
  /-- What the last write burst left in the training area (R477, R500): the model's word for it. -/
  training : Nat := 0
deriving DecidableEq, Repr

/-- Device DRAM. -/
structure DramSt where
  chans : Table DramCh := []
  /-- Lines stored with the poison check value, by global line address (R482). -/
  poison : List Nat := []
  /-- Next line of the patrol scrubber (R512). -/
  scrub : Nat := 0
deriving DecidableEq, Repr

/-- The mesh (16_noc_and_clock_domains.md). -/
structure NocSt where
  /-- Number of the next read that crosses to the host link. -/
  nextRead : Nat := 0
  /-- Per link 256 × network + 4 × router + direction: GT flits, BE flits (R572). -/
  gtFlits : Table Nat := []
  beFlits : Table Nat := []
  reservedMax : Table Nat := []
  /-- Reservations in force: link, slot, from and to in Tc, holder (R551). -/
  slots : List (Nat × Nat × Nat × Nat × Nat) := []
  /-- Hold buffers by 4 × router + 2 × bank port + network (R556). -/
  holds : Table HoldBuf := []
  routers : Table RouterSt := []
  /-- Responses on the mesh, oldest first: sent and not yet taken in at their destination. -/
  inFlight : List Packet := []
deriving DecidableEq, Repr

end Sys2Proof.Machine
end

