-- ==== Sys2Proof/Machine/StatePower.lean ====
section
/-!
DEFINITION. The state of timing (13_timing.md), power, clocks and thermal control (17_power_and_thermal.md) and of
start-up and recovery (20_startup_and_recovery.md) that is not itself a dictionary object.
-/
namespace Sys2Proof.Machine

/-- What a reference's monitor keeps beside its objects (R456 to R458). -/
structure RefSt where
  xQual : Int := 0
  xFail : Int := 0
  everQualified : Bool := false
  overSecs : Nat := 0
deriving DecidableEq, Repr

/-- A TDD pattern: period code, µ, mask, advance in ns (R467). -/
structure TddPattern where
  period : Nat := 7
  mu : Nat := 1
  mask : Nat := 0
  adv : Int := 0
deriving DecidableEq, Repr

/-- The counters and the discipline loop (R446 to R467). -/
structure TimSt where
  dtc : Nat := 0
  uptime : Nat := 0
  stc : Nat := 0
  /-- Tc since the last STC edge: 60,000 to a tick (R448). -/
  stcFrac : Nat := 0
  /-- Clocks since a slew last moved the DTC by 1 Tc: 50,000 to a move at 10 ppm (R450). -/
  slewAcc : Nat := 0
  refs : Table RefSt := []
  /-- CV and whether the loop was LOCKED, newest first, at most 3,600 seconds (R464). -/
  cvHist : List (Int × Bool) := []
  lockSecs : Nat := 0
  /-- A phase switch whose step is still to be measured: the previous reference, 15 none (R461). -/
  measure : Option Nat := none
  filtErr : Int := 0
  /-- UNCERTAINTY at the last phase lock and the DTC of it; none after a cold boot (R466). -/
  u0 : Option Nat := none
  lockTime : Nat := 0
  since : Nat := 0
  afterSleep : Bool := false
  oscClear : Nat := 0
  tdd : TddPattern := {}
  /-- clockClass last received on REF2 (R459); DESIGN CHOICE 255 before any. -/
  ptpClass : Nat := 255
  /-- PTP messages sent, the sequence of R468. -/
  ptpSeq : Nat := 0
deriving DecidableEq, Repr

/-- A client of R578. -/
inductive VoteClient where
  | placement | firmware | timing | tenant (t : Nat) | debug
deriving DecidableEq, Repr

/-- A vote: not below PSk on a domain; domain 50 is the device. `tag` tells apart the votes one client
holds for different reasons: a graph, a lane, a MAR (R578). -/
structure Vote where
  client : VoteClient
  dom : Nat
  level : Nat
  tag : Nat := 0
deriving DecidableEq, Repr

/-- The transition of a domain (R580 to R583). -/
inductive DomTrans where
  | none
  | entering (toward : Nat) (pastNoReturn : Bool)
  | exiting
deriving DecidableEq, Repr

/-- What the power controller keeps of a domain beside its objects. -/
structure DomSt where
  trans : DomTrans := .none
  /-- An exit holds its governor grant (Table 17-5). -/
  granted : Bool := false
  wakeLatched : Bool := false
  since : Nat := 0
  staleSince : Option Nat := none
  heldReason : Bool := false
  thermalStep : Nat := 0
  /-- When the clock last took a notch (R585). -/
  notchAt : Option Nat := none
deriving DecidableEq, Repr

/-- What a governed event does once it is granted (Table 17-7). -/
inductive GovAct where
  | leave (toward : Nat)
  | enter
  | notch (toward : Nat)
deriving DecidableEq, Repr

/-- A governed event waiting for its grant: domain, signed amplitude in mA, request time (R590). -/
structure GovWait where
  dom : Nat
  amp : Int
  time : Nat
  act : GovAct
deriving DecidableEq, Repr

/-- A thermal sensor: its last samples, newest first, and how long each threshold has been held (R604, R605). -/
structure SensorSt where
  samples : List Int := []
  warnOver : Nat := 0
  warnUnder : Nat := 0
  thrOver : Nat := 0
  thrUnder : Nat := 0
deriving DecidableEq, Repr

/-- Power, clocks and thermal control (17_power_and_thermal.md). -/
structure PowSt where
  doms : Table DomSt := []
  votes : List Vote := []
  grants : List (Nat × Int) := []
  waits : List GovWait := []
  /-- Planned onsets in the governor's accounting: time, amplitude in mA (R591). -/
  plan : List (Nat × Int) := []
  sensors : Table SensorSt := []
  /-- A device exit in progress from a state, with its wake source, none for a restart by itself after a trip (Table 17-11, R608). -/
  exit_ : Option (Nat × Option WakeSource) := none
  latched : List WakeSource := []
  wakeHoldUntil : Option Nat := none
  stcAlarm : Option Nat := none
  /-- The two snapshot slots of Table 17-12, in the VBAT-backed registers. -/
  slot0 : Nat := 0
  slot1 : Nat := 0
  /-- Save lists in D1.RET: domain, objects saved with a good CRC (R584). -/
  saveLists : Table Bool := []
  /-- The resume image in D1.RET: the objects that differ from their defaults (R593). -/
  resume : Option (Table Nat) := none
  resumeText : Table (List Byte) := []
  /-- WAKE_SOURCES in force while D0 is off, held by D1 (R596). -/
  wakeMask : Nat := 0x0F
  vbatLow : Bool := false
  /-- THERMTRIP_N is driven low (R607). -/
  tripPin : Bool := false
  /-- The STC of a trip whose 60 s have not ended, and of the trips of the last hour (R608). -/
  tripHold : Option Nat := none
  /-- Wake events latched when the trip came: those behind them arrived in the 60 s. -/
  tripMark : Nat := 0
  tripTimes : List Nat := []
  /-- TRIPS (Table 17-15), read as an object. -/
  trips : Nat := 0
  tripRestart : Bool := true
  /-- The next device exit is one after a trip. -/
  tripPending : Bool := false
deriving DecidableEq, Repr

/-- A firmware image slot of boot flash or of a download (Table 20-5). -/
structure FwImage where
  header : List Byte := []
  body : List Byte := []
  /-- The SEQ it bears: its header's, or the one the device wrote it with (R682). -/
  seq : Nat := 0
deriving DecidableEq, Repr

/-- A recovery flow in progress: flow number, unit, attempt, the DTC at which its next act is due (R689). -/
structure Recovery where
  flow : Nat
  unit : Nat
  attempt : Nat := 0
  due : Nat := 0
deriving DecidableEq, Repr

/-- How D0 came to its latest start, for the time (Table 20-9): restored by first configuration, kept by a warm reset, restored in a device
exit. -/
inductive StartKind where
  | cold | warm | exit
deriving DecidableEq, Repr

/-- Start-up, rails, boot and recovery (20_startup_and_recovery.md). -/
structure BootSt where
  /-- Strap balls as the board holds them, and the sampled value in D1.STR (R671): [1:0] BOOT_SRC,
  [2] DDR_GEN, [3] LINK_MODE, [4] BOOT_OPEN. -/
  strapPins : Nat := 0
  straps : Nat := 0
  vaon : Bool := true
  pwrEn : List Bool := [true, true, true, true, true, true, true]
  pgood : List Bool := [true, true, true, true, true, true, true]
  /-- D0 is held in reset (R672). -/
  d0Reset : Bool := false
  /-- RESET_CAUSE (Table 20-9). -/
  cause : Nat := 0x01
  start : StartKind := .cold
  /-- The boot ROM has run in this start; the image it or a loader accepted (R679 to R681). -/
  romRan : Bool := false
  loaded : Option FwImage := none
  /-- The oscillator frequency the ROM measured, an index of OSC_FREQ's list (R674). -/
  oscSeen : Nat := 5
  /-- The last stage of Table 20-7 that ended; 13 when first configuration is over. -/
  stage : Nat := 1
  /-- The rail of the last rail fault; the STC of the failures of the last 10 min (R673). -/
  railFault : Nat := 0
  railFails : List Nat := []
  railsOff : Bool := false
  fwReady : Bool := false
  /-- The STC at which a power-up is tried again (R673, R675). -/
  retryAt : Option Nat := none
  /-- Firmware slots A and B, and which one runs: 0 A, 1 B, 2 neither. -/
  slotA : Option FwImage := none
  slotB : Option FwImage := none
  running : Nat := 2
  recoveries : List Recovery := []
  oscOk : Bool := true
  /-- The oscillator fallback of R691 is in force, on the PCIe reference clock. -/
  oscFallback : Bool := false
  jtag : Bool := false
  fwCopyBad : Bool := false
deriving DecidableEq, Repr

end Sys2Proof.Machine
end

