-- ==== Sys2Proof/Machine/StateRadio.lean ====
section
/-!
DEFINITION. The state of the machine-access receivers (10_machine_access.md): bindings, channels, bursts, spools, the identity table.
-/
namespace Sys2Proof.Machine

/-- The states of a binding (R381). -/
inductive BindState where
  | free | active | draining
deriving DecidableEq, Repr

/-- The states of a class S channel (Table 10-5). -/
inductive ChanPhase where
  | search | preamble | frame
deriving DecidableEq, Repr

/-- A class S channel with the burst it carries (R353 to R357): when its preamble was detected, START, whether the coded SFD matched and
with how many errors, the frozen CFO, whether AFC reached its limit, the PHR once decided, the key once decided. -/
structure Chan where
  phase : ChanPhase := .search
  since : Nat := 0
  start : Nat := 0
  coded : Bool := false
  errs : Nat := 0
  cfo : Nat := 0
  afcLimit : Bool := false
  phr : Option Nat := none
  /-- The declaration number of its burst. -/
  burst : Nat := 0
deriving DecidableEq, Repr

/-- The lookup of a burst (R361): its key is not decided, it waits in the queue, it found an entry or none, it was given up. -/
inductive Lookup where
  | none
  | queued
  | done (hit error blocked : Bool) (sid : Nat) (user : List Byte)
  | notLooked
deriving DecidableEq, Repr

/-- A declared burst that has no record yet, in declaration order. -/
structure Burst where
  num : Nat
  mar : Nat
  tenant : Nat
  slot : Nat
  source : Nat
  ns : Nat
  key : Nat := 0
  start : Nat
  lookup : Lookup := .none
  /-- The burst ended: its deadline, header as far as it is built, payload. -/
  ended : Option (Nat × Nat × List Byte) := Option.none
deriving DecidableEq, Repr

/-- A record in a spool (R372, R377, R378): its number, header, identity and USER of a hit, payload, offset in the ring's run of bytes,
the job that holds it. -/
structure Record where
  seq : Nat
  head : Nat
  sid : Option Nat
  user : List Byte
  payload : List Byte
  ofs : Nat
  held : Option (Nat × Nat) := none
  redelivered : Bool := false
deriving DecidableEq, Repr

/-- A binding (R349, R372, R381): its descriptor, its channels, its spool and where that lies in the identity region, bytes ever appended,
bursts lost since the last record and in the episode, its resources and those being removed, the AxC in a gap and the time of the last gap
of each. -/
structure Binding where
  state : BindState := .free
  desc : Nat := 0
  chans : Table Chan := []
  spool : List Record := []
  seq : Nat := 0
  base : Nat := 0
  written : Nat := 0
  lost : Nat := 0
  episode : Nat := 0
  resources : Table Nat := []
  removing : List Nat := []
  gaps : List Nat := []
  lastGap : Table Nat := []
deriving DecidableEq, Repr

/-- A valid entry of the identity table (Table 10-8). -/
structure IdtEntry where
  key : Nat
  ns : Nat
  tenant : Nat
  sid : Nat
  blocked : Bool := false
  source : Nat := 0
  seen : Nat := 0
  bursts : Nat := 0
  cfo : Nat := 0
  rssi : Nat := 0
  user : List Byte
deriving DecidableEq, Repr

/-- A short-identity index (R366): its last generation, whether an entry holds it, and since when it is in quarantine. -/
structure SidSt where
  gen : Nat := 15
  inUse : Bool := false
  quarantine : Option Nat := none
deriving DecidableEq, Repr

/-- An update command sent to the sequencer (R365, R379): the job, the engine that runs it, the command's number and words. -/
structure UpdCmd where
  gid : Nat
  num : Nat
  eng : Nat
  idx : Nat
  cmd : Nat
deriving DecidableEq, Repr

structure RadioSt where
  /-- Binding slot of tenant t at 4t + slot (R349). -/
  bindings : Table Binding := []
  /-- Bound AxC by number: the descriptor of Table 12-3. -/
  axcs : Table Nat := []
  /-- Declared bursts without a record, in declaration order, and how many were declared. -/
  bursts : List Burst := []
  declared : Nat := 0
  /-- Entries of the current table and of the one being built, at 8 × bucket + place (R362, R367). -/
  idtCur : Table IdtEntry := []
  idtNew : Table IdtEntry := []
  /-- The current table lies in the second table area. -/
  idtSecond : Bool := false
  /-- SEED of the table being built. -/
  newSeed : Nat := 0
  /-- A stalled migration: when its step was last tried, and whether a delete followed (R370). -/
  stallAt : Nat := 0
  stallDelete : Bool := false
  sids : Table SidSt := []
  /-- Commands on their way to the sequencer. -/
  commands : List UpdCmd := []
deriving DecidableEq, Repr

end Sys2Proof.Machine
end

