-- ==== Sys2Proof/Machine/StateSage.lean ====
section
/-!
DEFINITION. The state of the Sage cores (06_sage_core.md), their vector units and the cluster math coprocessors
(07_vector_and_coprocessor.md).
-/
namespace Sys2Proof.Machine

/-- Issue slots (Table 6-7). -/
inductive Slot where
  | x | y | m | a
deriving DecidableEq, Repr

/-- A register a bundle writes; g and v by physical number (R210). -/
inductive SReg where
  | g (n : Nat) | a (n : Nat) | m (n : Nat) | acc (n : Nat) | v (n : Nat) | vacc (n : Nat) | lc | rrb
deriving DecidableEq, Repr

/-- A transfer between data memory and a REMOTE buffer (R233): tag, direction, buffer, offset, local address, bytes. `old` holds
bytes of an outgoing local range as they were before stores made since (R234). -/
structure Xfer where
  tag : Nat
  out : Bool
  buf : Nat
  ofs : Nat
  loc : Nat
  len : Nat
  old : List (Nat × Byte) := []
deriving DecidableEq, Repr

/-- A write that a bundle makes once every instruction of it has read its operands (R216). -/
inductive SWrite where
  | reg (r : SReg) (v : Int)
  | vacc (n : Nat) (lanes : List Int)
  | mem (ea : Nat) (l : List Byte)
  /-- Sticky bits of STATUS. -/
  | sticky (mask : Nat)
  | status (v : Nat)
  | cycleHi (v : Nat)
  | dtcHi (v : Nat)
  | pc (target : Nat)
  /-- The link register takes the address of the next bundle. -/
  | link
  | xfer (x : Xfer)
  | yield
  | finish
  /-- CX.CLAIM with its register, CX.RELEASE. -/
  | claim (d : Nat)
  | release
  /-- The CMC of the cluster: matrices, exponents, flags. -/
  | cmcIn (e : Nat) (v : Nat)
  | cmcInExp (v : Int)
  | cmcResult (mstate nM1 : Nat) (res : List (Int × Int)) (outExp : Int)
  | cmcFlags (mask : Nat)
  | cmcClear
  | cmcFresh
  | cmcLoad (image : List Byte)
  /-- An operation that writes its result at time `t` (R281). -/
  | cmcPend (t : Nat)
deriving DecidableEq, Repr

/-- An exception an instruction of a bundle raised: its rank under R241, code and cause of Table 6-16, INFO. -/
structure SExc where
  rank : Nat
  code : Nat
  cause : Nat
  info : Nat
deriving DecidableEq, Repr

/-- The bundle a core is taking in, one instruction at a time. -/
structure Bundle where
  count : Nat := 0
  /-- When its first instruction issued, and that instruction's word. -/
  at_ : Nat := 0
  word : Nat := 0
  /-- When a CX.CLAIM joined it (R272). -/
  claimAt : Option Nat := none
  slots : List Slot := []
  writes : List SWrite := []
  excs : List SExc := []
deriving DecidableEq, Repr

/-- A Sage core while it runs a job, or a firmware program in maintenance mode. g and v by physical register. -/
structure Core where
  gid : Nat := 0
  num : Nat := 0
  maint : Bool := false
  prog : Nat := 0
  pc : Nat := 0
  g : Table Nat := []
  a : Table Nat := []
  m : Table Nat := []
  acc : Table Int := []
  v : Table Nat := []
  vacc : Table (List Int) := []
  lc : Nat := 0
  rrb : Nat := 0
  /-- STATUS without CXF, which is the claim itself. -/
  status : Nat := 0
  cycleHi : Nat := 0
  dtcHi : Nat := 0
  /-- Cycles since the job started, as Tc × MHz up to `since`: when the job started, or its clock last changed (R224). -/
  ticks : Nat := 0
  since : Nat := 0
  lastYield : Nat := 0
  /-- Number of its argument area, 0–4 (R207). -/
  area : Nat := 0
  /-- The claim was held at the previous yield point (Table 7-14), and was revoked since. -/
  claimAtYield : Bool := false
  /-- Transfers outstanding, oldest first. -/
  xfers : List Xfer := []
  /-- A vector instruction issued since the last yield point (R269). -/
  vUsed : Bool := false
  /-- When the last of its coprocessor operations has written its result: PEND of Table 7-17. -/
  pend : Nat := 0
  bundle : Bundle := {}
deriving DecidableEq, Repr

/-- A core in maintenance mode before firmware's program has run a bundle. -/
def maintCore (t : Nat) : Core := { maint := true, since := t, lastYield := t }

/-- A cluster math coprocessor (R271, Table 7-18). -/
structure Cmc where
  holder : Option Nat := none
  /-- The unit that held the claim last: 8 before any (R272). -/
  last : Nat := 8
  requests : List Nat := []
  /-- The unit it is reserved for, and since when (R273). -/
  resv : Option (Nat × Nat) := none
  since : Nat := 0
  flags : Nat := 0
  mstate : Nat := 0
  nM1 : Nat := 0
  inExp : Int := 0
  outExp : Int := 0
  input : Table Nat := []
  result : List (Int × Int) := []
  /-- PIVOTS words of a restored image that are not those the matrix unit left (R282). -/
  pivots : Option (List Nat) := none
deriving DecidableEq, Repr

/-- What a core keeps of its vector unit: powered, and the time its idle count runs from (R267, R269). -/
structure VecUnit where
  on : Bool := true
  idleFrom : Nat := 0
  /-- VGATE_IDLE in force: a write takes effect at the next yield point. -/
  gateIdle : Option Nat := none
deriving DecidableEq, Repr

/-- Sage cores and coprocessors. -/
structure SageSt where
  cores : Table Core := []
  /-- Contexts of preempted jobs by core (R149). -/
  ctxs : List (Nat × Core) := []
  vecs : Table VecUnit := []
  cmcs : Table Cmc := []
  /-- Cores whose instruction memory is loaded again before their next job (Table 6-16). -/
  reload : List Nat := []
deriving DecidableEq, Repr

end Sys2Proof.Machine
end

