-- ==== Sys2Proof/Machine/StateWork.lean ====
section
/-!
DEFINITION. Work in the device: slot graphs (02_slot_graphs.md), their placement (03_placement.md), dispatch and release
(04_dispatch_and_ordering.md), tenants' charges (05_tenants_and_isolation.md).
-/
namespace Sys2Proof.Machine

/-- Graph states (Table 2-10). -/
inductive GState where
  | queued | checking | placed | running | done
deriving DecidableEq, Repr

/-- A job descriptor (Table 2-3). A reference is (slot k, role, buffer). -/
structure JobD where
  op : Nat := 0
  droppable : Bool := false
  notify : Bool := false
  rank : Nat := 0
  flow : Nat := 0
  pinKind : Nat := 0
  pinClass : Nat := 0
  pinLoc : Nat := 0
  units : Nat := 0
  dlOfs : Nat := 0
  paramBuf : Nat := 0
  paramValid : Bool := false
  paramLen : Nat := 0
  paramOfs : Nat := 0
  refs : List (Nat × Nat × Nat) := []
  preds : List Nat := []
  tag : Nat := 0
deriving DecidableEq, Repr

/-- A buffer descriptor (Tables 2-5, 2-6). -/
structure BufD where
  kind : Nat := 0
  pin : Nat := 0
  zero : Bool := false
  size : Nat := 0
  host : Nat := 0
  axcFirst : Nat := 0
  axcCount : Nat := 0
  symMask : Nat := 0
  secClass : Nat := 0
  key : Nat := 0
  carryOp : Nat := 0
deriving DecidableEq, Repr

/-- A share of a job: its unit (cores 0–107, engines 108 + e, cluster DMA engines 228 + c), its quanta and its booked
interval. -/
structure PShare where
  unit : Nat
  first : Nat := 0
  n : Nat := 0
  start : Nat := 0
  fin : Nat := 0
  /-- The clock the share was booked at, MHz (R586). -/
  mhz : Nat := 0
deriving DecidableEq, Repr

/-- Why a copy is made (R104): staging from the host, into a transient area, back from one, to the host. -/
inductive CopyKind where
  | fromHost | into | back | toHost
deriving DecidableEq, Repr

/-- A copy job (R104): buffer, the job it serves, kind, global source and destination, bytes. -/
structure CopyD where
  buf : Nat
  job : Nat
  kind : CopyKind
  src : Nat := 0
  dst : Nat := 0
  len : Nat := 0
deriving DecidableEq, Repr

/-- What placement fixes of a job or copy: shares, the program that runs it on a Sage core, its predecessors. -/
structure PJob where
  num : Nat
  shares : List PShare := []
  prog : Option Nat := none
  preds : List Nat := []
  copy : Option CopyD := none
  flow : Nat := 0
  best : Bool := false
  /-- Transient areas of the job: buffer, address (R104). -/
  areas : List (Nat × Nat) := []
deriving DecidableEq, Repr

/-- Where a buffer lives: tier, block (core, cluster, quadrant), global address. -/
structure Home where
  tier : Nat
  block : Nat
  addr : Nat
deriving DecidableEq, Repr

/-- States of a job: it waits for its gates, is ready, runs, has ended, has been released. -/
inductive JState where
  | waiting | ready | running | ended | released
deriving DecidableEq, Repr

/-- A charge: budget kind in the order of CHARGED, window, ns or tokens (R181). -/
structure Charge where
  res : Nat
  window : Nat
  amount : Nat
deriving DecidableEq, Repr

/-- What the sending interfaces know of one reservation of a job: predicted bytes, train quota, bytes staged and sent so far, trains begun
(R553). -/
structure Train where
  bytes : Nat
  quota : Nat
  staged : Nat := 0
  sent : Nat := 0
  trains : Nat := 0
deriving DecidableEq, Repr

/-- A job or copy of a committed graph. -/
structure JobRt where
  p : PJob
  /-- Predicted start and finish, effective deadline (Tc). -/
  start : Nat := 0
  fin : Nat := 0
  dl : Nat := 0
  /-- Position of the order key (R139). -/
  pos : Nat := 0
  st : JState := .waiting
  /-- Completion code; `ran` tells a job that was dispatched. -/
  code : Nat := 0
  ran : Bool := false
  id : Option Nat := none
  readyAt : Option Nat := none
  /-- Quanta done of each share. -/
  progress : List Nat := []
  chunks : Nat := 0
  preempts : Nat := 0
  finish : Nat := 0
  loc : Nat := 0
  discarded : Bool := false
  /-- Epoch of each share's unit, stamped at booking (R127). -/
  epochs : List Nat := []
  charges : List Charge := []
  /-- Metered use, ns. -/
  used : Nat := 0
  /-- Shares whose completion message has arrived. -/
  arrived : List Nat := []
  /-- Messages sent and not accounted for (R161). -/
  msgs : Nat := 0
  /-- It was counted as held outside its window. -/
  winWait : Bool := false
  /-- Time the watchdog expires (R163). -/
  watch : Nat := 0
  /-- The tenant's LDPC iteration cap when the job was booked (R295). -/
  cap : Nat := 16
  /-- Metered DRAM transfers of 64 bytes (R182). -/
  lines : Nat := 0
  /-- It was counted as held ready (0x5107.03). -/
  storeWait : Bool := false
  /-- Ranges it wrote in a transient area of a buffer that has other producers: address, bytes (R62). -/
  written : List (Nat × Nat) := []
  /-- Its reservations on the mesh, at most six (R553). -/
  trains : List Train := []
deriving DecidableEq, Repr

/-- An FH_RX buffer of a graph: PRBs covered as (AxC, symbol, PRB), windows closed as 16 × AxC + symbol, ready (R431 to R433). -/
structure RxBuf where
  covered : List (Nat × Nat × Nat) := []
  closed : List Nat := []
  ready : Bool := false
deriving DecidableEq, Repr

/-- An acknowledgement owed for a CANCEL (R166): queue pair, SUB_TAG. -/
structure Ack where
  qp : Nat
  tag : Nat
deriving DecidableEq, Repr

/-- A submitted graph. -/
structure Graph where
  id : Nat
  tenant : Nat
  ci : Nat
  st : GState := .queued
  qp : Nat := 0
  subTag : Nat := 0
  validateOnly : Bool := false
  tArr : Nat := 0
  air : Nat := 0
  addr : Nat := 0
  /-- The placement unit it is homed at, and whether its fetch and validation are complete. -/
  pu : Nat := 0
  ready : Bool := false
  seen : Nat := 0
  discardLate : Bool := false
  noTemplate : Bool := false
  autoCancel : Bool := false
  dlOfs : Nat := 0
  slot : Nat := 0
  tag : Nat := 0
  jobs : List JobD := []
  bufs : List BufD := []
  /-- Parameter blocks by job (R288). -/
  blocks : Table Nat := []
  /-- HOST_IN buffers that only PARAM_BUF names, as the fetch read them (R94). -/
  params : Table (List Byte) := []
  /-- Jobs whose block could not be read from the host (R69). -/
  badJobs : List Nat := []
  /-- Commit order (R139). -/
  seq : Nat := 0
  rts : List JobRt := []
  homes : Table Home := []
  atRisk : Bool := false
  afterStart : Bool := false
  shed : Nat := 0
  cancels : List Ack := []
  cancelled : Bool := false
  /-- Its CI was taken away: its jobs end ROLE_STALE (R70). -/
  stale : Bool := false
  autoCancelled : Bool := false
  finish : Nat := 0
  rx : Table RxBuf := []
  /-- Symbols of FH_TX buffers sent or skipped: (buffer, 16 × AxC + symbol). -/
  tx : List (Nat × Nat) := []
  /-- Buffers cleared or filled since the graph was placed (R198). -/
  cleared : List Nat := []
  /-- Buffers that hold poisoned data. -/
  poisoned : List Nat := []
  /-- C-plane messages sent: (buffer, 16 × AxC + first symbol of the run). -/
  cplane : List (Nat × Nat) := []
deriving DecidableEq, Repr

/-- Space held in a tier (R91): 256 × tier + block, address, bytes, interval, tenant, graph, buffer; whether it is charged to
the tenant's quota (R191). -/
structure Space where
  block : Nat
  addr : Nat
  len : Nat
  from_ : Nat
  toward : Nat
  tenant : Nat
  gid : Nat
  buf : Nat
  charged : Bool := true
deriving DecidableEq, Repr

/-- A plan made and not yet committed (R86). -/
structure Plan where
  t0 : Nat := 0
  jobs : List JobRt := []
  /-- Every job and copy with its units, the shed ones too. -/
  items : List PJob := []
  homes : Table Home := []
  spaces : List Space := []
  /-- Reservations: link, slot, from, to. -/
  links : List (Nat × Nat × Nat × Nat) := []
  shed : List Nat := []
  /-- Jobs over budget under the refusal policy (R110). -/
  isOver : List Nat := []
  atRisk : Bool := false
  /-- The job with the least slack. -/
  least : Nat := 0
  /-- A refusal: completion code, detail, job or buffer. -/
  refused : Option (Nat × Nat × Nat) := none
  /-- The template slot reused. -/
  template : Option Nat := none
deriving DecidableEq, Repr

/-- A placement unit: the graph it is placing with its plan, and whether it waits for the exclusive token (R86). -/
structure PuSt where
  placing : Option (Nat × Plan) := none
  wantsToken : Bool := false
  /-- The tenant and flow that hold its next graph (R159). -/
  held : Option (Nat × Nat) := none
deriving DecidableEq, Repr

/-- A carry buffer of a CI (R48, R57). `released` marks a recorded release: the buffer no longer bears its key. -/
structure Carry where
  ci : Nat
  tenant : Nat
  key : Nat
  size : Nat
  home : Home
  released : Bool := false
  /-- Its CI was taken away while these graphs lived: it goes when the last of their jobs ends (R70). -/
  orphan : Option (List Nat) := none
deriving DecidableEq, Repr

/-- A stored template (R111): the shape in full, the plan with the AIR_START that its predicted times count from, the links of its
reserved routes, the role epochs of its units and when it was last used. -/
structure Template where
  ci : Nat
  tenant : Nat
  slot : Nat
  jobs : List JobD
  bufs : List BufD
  plan : List PJob
  homes : Table Home
  epochs : List (Nat × Nat)
  used : Nat
  air : Nat := 0
  routes : List Nat := []
deriving DecidableEq, Repr

/-- An entry of a ready list (R136). `level` 16 is the best-effort band. -/
structure ReadyE where
  gid : Nat
  num : Nat
  share : Nat
  unit : Nat
  level : Nat
  time : Nat
  seq : Nat
  pos : Nat
deriving DecidableEq, Repr

/-- A job, share or segment that runs on a unit. `n` is its quanta; `worked` tells that its work is done. -/
structure Run where
  gid : Nat
  num : Nat
  share : Nat
  first : Nat
  n : Nat
  since : Nat
  level : Nat
  worked : Bool := false
  cancel : Bool := false
  /-- What its dispatch message carried beside the job (R134): tenant, CI, job ID, the epoch of its unit. -/
  tenant : Nat := 0
  ci : Nat := 0
  id : Nat := 0
  epoch : Nat := 0
  /-- It stopped with this code and waits until the host link accepted its writes (R157). -/
  ending : Option Nat := none
deriving DecidableEq, Repr

/-- Maintenance tasks of a Sage core (R265). -/
inductive Task where
  | maintenance | selftest | calibration | substitution (out : Nat)
deriving DecidableEq, Repr

/-- What the device keeps of a unit beside its role word and epoch. -/
structure UnitSt where
  cur : Option Run := none
  /-- Preempted jobs of a Sage core, at most four contexts (R149). -/
  ctx : List Run := []
  lastChange : Option Nat := none
  /-- The role that waits for the job boundary and for 10 µs after the last change (R125, R126). -/
  nextRole : Option Nat := none
  fenced : Bool := false
  task : Option Task := none
  /-- Times of slice overruns (flow 1 of Table 20-10). -/
  overruns : List Nat := []
  /-- The image set changed and is loaded at the next boundary (R206). -/
  reload : Bool := false
  /-- FUNCTION held before maintenance (R265). -/
  former : Nat := 0
  /-- Context records held by shares of an FFE or EQE (R322). -/
  records : List (Nat × Nat × Nat) := []
deriving DecidableEq, Repr

/-- A job-ID index (R161). -/
structure IdSt where
  gen : Nat := 15
  inUse : Bool := false
  quarantine : Option Nat := none
  outstanding : Nat := 0
  bars : List (Nat × Nat) := []
deriving DecidableEq, Repr

/-- A completion message on its way to its flow's window (R154, R134): tenant, CI, graph, job, share, job ID, outcome, finish time,
location of the unit, role epoch. -/
structure Msg where
  tenant : Nat
  ci : Nat
  gid : Nat
  num : Nat
  share : Nat
  id : Nat
  code : Nat
  finish : Nat
  loc : Nat
  /-- The role epoch its unit was stamped with. -/
  epoch : Nat := 0
deriving DecidableEq, Repr

/-- Late messages of a tenant (R162): count since the last event, and when it was. -/
structure LateSt where
  count : Nat := 0
  last : Option Nat := none
  ci : Nat := 0
  id : Nat := 0
  at_ : Nat := 0
deriving DecidableEq, Repr

/-- FH_MISSING of a CI (R433): when the last event was written; PRBs, samples and symbols, causes and the AxC last affected since. -/
structure FhMiss where
  last : Option Nat := none
  count : Nat := 0
  cause : Nat := 0
  axc : Nat := 0
deriving DecidableEq, Repr

structure WorkSt where
  /-- The tenant that holds each CI (R178), and its home placement unit once decided (R84). -/
  ciOwner : Table Nat := []
  ciHome : Table Nat := []
  /-- AIR_START of the last graph of each CI accepted (R71). -/
  ciLast : Table Nat := []
  graphs : List Graph := []
  /-- Graphs that are DONE while the transmit windows of their FH_TX buffers are still open (Table 2-9). -/
  parting : List Graph := []
  nextGraph : Nat := 0
  /-- Graphs queued at each placement unit, in fetch order (R85). -/
  pus : Table PuSt := []
  tokenQueue : List Nat := []
  seq : Nat := 0
  spaces : List Space := []
  carries : List Carry := []
  templates : List Template := []
  ready : List ReadyE := []
  heldReady : List ReadyE := []
  units : Table UnitSt := []
  /-- Job-ID indices by 4,096 × CI + index. -/
  ids : Table IdSt := []
  /-- Completion messages on their way, oldest first. -/
  msgs : List Msg := []
  late : Table LateSt := []
  /-- The lowest clocks at which live jobs meet their bounds: domain, MHz (R586). -/
  clocks : List (Nat × Nat) := []
  /-- Booked intervals that bear votes: domain, onset of the PS0 vote, end, graph, start (R578, R591). -/
  votes : List (Nat × Nat × Nat × Nat × Nat) := []
  /-- Charges by 8192 × window + 16 × tenant + kind: ns or tokens (R181). -/
  charged : Table Nat := []
  /-- Debt carried into the present window, by 16 × tenant + kind (R182). -/
  debt : Table Nat := []
  window : Nat := 0
  /-- Metered use in the present window, by 16 × tenant + budget kind in the order of CHARGED (R182). -/
  metered : Table Nat := []
  /-- Time used beyond charges in the present window, ns, by 16 × tenant + kind (R182). -/
  excess : Table Nat := []
  /-- Budget kinds with BUDGET_OVERCOMMIT in force (R187). -/
  overcommit : List Nat := []
  /-- Ranges of device memory a tenant's buffers last held, newest first: address, bytes, tenant (R198). -/
  owners : List (Nat × Nat × Nat) := []
  /-- Program table entries by index, as written (Table 6-1). -/
  progs : Table Nat := []
  /-- By index, the entry in force for the jobs that run it since it was withdrawn by a write with VALID = 0 (R206). -/
  withdrawn : Table Nat := []
  /-- Range placed under soft-buffer quotas: tenant to (first slot, slots) (R307). -/
  sbRanges : Table (Nat × Nat) := []
  /-- Missing fronthaul data of each CI. -/
  fhMissing : Table FhMiss := []
  /-- The threshold and bias tables in force since the last tick, where they differ from the defaults (R143). -/
  thr : Table Nat := []
  bias : Table Nat := []
  /-- Program entries whose images are still being loaded: placement books none of them (R206). -/
  loading : List Nat := []
deriving DecidableEq, Repr

end Sys2Proof.Machine
end

