-- ==== Sys2Proof/Machine/State.lean ====
section
/-!
DEFINITION. The state of the whole block, its reset, and the two ways a command can stop.
-/
namespace Sys2Proof.Machine

/-- The AQ6412. The dictionary objects are one store, `obj`, with an entry for each subindex whose value differs from
what the object was at reset (R638); everything else the chapters give the device is held beside it, chapter by chapter. -/
structure State where
  /-- The dictionary: key `okey index subindex` to value (19_object_dictionary.md). -/
  obj : Table Nat := []
  /-- Objects of TEXT type that were written. -/
  text : Table (List Byte) := []
  tim : TimSt := {}
  pow : PowSt := {}
  boot : BootSt := {}
  host : HostSt := {}
  dict : DictSt := {}
  work : WorkSt := {}
  sage : SageSt := {}
  radio : RadioSt := {}
  links : LinkSt := {}
  noc : NocSt := {}
  dram : DramSt := {}
  sram : SramSt := {}
  /-- On-die memory and device DRAM by global address (R35); unlisted bytes read 0. -/
  mem : List Host.Cell := []
  /-- What the device has sent and the outside has not yet taken. -/
  out : List Output := []
  /-- Number of the next free value (log 9): the model's own. -/
  freeCtr : Nat := 0
  /-- The commands that are waiting, first in, first out. -/
  pending : List Instr := []
deriving DecidableEq, Repr

/-- The machine right after reset: every object at its default, memory cleared (Table 20-9), nothing waiting. -/
def State.reset : State := {}

/-- A command stops with a fault: none does, because the manual gives every outcome an effect. -/
inductive Fault where
  /-- Raised by nothing at present; safe. -/
  | unreachable
deriving DecidableEq, Repr

/-- A command has no meaning. -/
inductive Refusal where
  /-- The command is not modelled yet: raised only by an arm of `exec` that names it; safe. -/
  | notModelled (mnemonic : String)
deriving DecidableEq, Repr

/-- The outcome of a command. -/
abbrev Res := Host.Outcome State Fault Refusal

end Sys2Proof.Machine
end

