-- ==== Sys2Proof/Machine/Ops.lean ====
section
/-!
DEFINITION. The operations every chapter uses: dictionary values, what the device sends, memory, events and their
history, completion and event queues, interrupts, notifications and the answers to writes.
-/
namespace Sys2Proof.Machine

/-- The outcome of a command that has its effect. -/
def done (s : State) : Res := .next s

/-- The device time (R446). -/
def now (s : State) : Nat := s.tim.dtc

/-! ### Dictionary values -/

/-- The value of the object of key `k`: what was written, or its default (R638). -/
def rd (s : State) (k : Nat) : Nat := tget s.obj k (objDefault k)
/-- The value of a BOOL object. -/
def rdB (s : State) (k : Nat) : Bool := rd s k != 0
/-- The value of a signed object of `w` bits. -/
def rdI (s : State) (k w : Nat) : Int := toInt w (rd s k)
/-- An object takes a value. -/
def wr (k v : Nat) (s : State) : State := { s with obj := tset k v s.obj }
/-- A signed object of `w` bits takes a value. -/
def wrI (k w : Nat) (v : Int) (s : State) : State := wr k (ofInt w v) s
/-- A counter object of `w` bits goes on by `n` and wraps (R20). -/
def bumpBy (w k n : Nat) (s : State) : State := wr k (wrapAdd w (rd s k) n) s
/-- A 64-bit counter object goes on by 1. -/
def bump (k : Nat) (s : State) : State := bumpBy 64 k 1 s
/-- An object that holds the largest value seen. -/
def peak (k v : Nat) (s : State) : State := wr k (max (rd s k) v) s

/-! ### Free values (log 9) -/

/-- The number of the next free value, and the state after it is drawn. -/
def draw (s : State) : Nat × State := (s.freeCtr, { s with freeCtr := s.freeCtr + 1 })

/-! ### Sending -/

/-- The device sends one output. -/
def send (o : Output) (s : State) : State := { s with out := s.out ++ [o] }

/-- The record of host function `f`. -/
def fnOf (s : State) (f : Nat) : FnSt := tget s.host.fns f {}
/-- Host function `f` takes a record. -/
def setFn (f : Nat) (v : FnSt) (s : State) : State := { s with host := { s.host with fns := tset f v s.host.fns } }
/-- The record of host function `f` changed by `g`. -/
def modFn (f : Nat) (g : FnSt → FnSt) (s : State) : State := setFn f (g (fnOf s f)) s

/-- Is the function enabled: PF0 always, VF n under SR-IOV (R617)? -/
def fnEnabled (s : State) (f : Nat) : Bool := f == 0 || (fnOf s f).enabled
/-- May the function send requests (R632)? -/
def maySend (s : State) (f : Nat) : Bool := (fnOf s f).bme && !(fnOf s f).d3hot && (fnOf s f).flr.isNone

/-! ### Posted writes and translation (R613, R631, R635) -/

/-- Tags a function may use (R631). -/
def tagSpace (s : State) (f : Nat) : List Nat :=
  if (fnOf s f).tag10 then (List.range 768).map (256 + ·) else if (fnOf s f).tagExt then List.range 256 else List.range 32
/-- A tag that is free for the function while fewer than 1,024 requests are outstanding. -/
def freeTag (s : State) (f : Nat) : Option Nat :=
  if 1024 ≤ s.host.tags.length then none
  else (tagSpace s f).find? fun x => !s.host.tags.any fun e => e.fn == f && e.tag == x

/-- A Translation Request is sent for a page, unless one is under way or no tag is free. -/
def askTranslation (f page : Nat) (s : State) : State :=
  if s.host.tags.any fun e => e.use == .translation f page && !e.fenced then s
  else match freeTag s f with
    | none => s
    | some x =>
      let e : TagEnt := { fn := f, tag := x, use := .translation f page, len := 0, issued := now s, addr := page * 4096 }
      send (.translationRequest f page) (bump (kHoHostStats 9) { s with host := { s.host with tags := s.host.tags ++ [e] } })

/-- The address a request carries: translated when the function's ATS is enabled, if its translation is held. -/
def translated (s : State) (f addr : Nat) : Option Nat :=
  if (fnOf s f).ats then
    (s.host.tcache.find? fun e => e.fn == f && e.page == addr / 4096).map fun e => e.target * 4096 + addr % 4096
  else some addr
/-- A translation used goes to the front of the cache. -/
def touchTranslation (f page : Nat) (s : State) : State :=
  match s.host.tcache.find? fun e => e.fn == f && e.page == page with
  | some e => { s with host := { s.host with tcache := e :: s.host.tcache.filter (· != e) } }
  | none => s

/-- One item leaves the function, or waits for the translation of its page; order within the function is kept (R613). -/
def passItem (f : Nat) (i : HostItem) (s : State) : State :=
  let held := s.host.waits.any fun w => w.1 == f
  let wait := { s with host := { s.host with waits := s.host.waits ++ [(f, i)] } }
  match i with
  | .msix v => if held then wait else send (.msix f v) s
  | .write a l _ => match held, translated s f a with
    | false, some t => send (.hostWrite f t l) (touchTranslation f (a / 4096) s)
    | false, none => askTranslation f (a / 4096) wait
    | true, _ => wait

/-- The requests of a write: at most Max_Payload_Size bytes, none across 4 KiB (R613). -/
def pieces (lim : Nat) : Nat → Nat → List Byte → List (Nat × List Byte)
  | 0, _, _ => []
  | fuel + 1, a, l =>
    if l.isEmpty then []
    else
      let n := min lim (4096 - a % 4096)
      (a, l.take n) :: pieces lim fuel (a + n) (l.drop n)

/-- A posted write of function `f` for a job: accepted, or discarded while the function may not send (R632). -/
def hostWriteFor (owner : Option (Nat × Nat)) (f addr : Nat) (data : List Byte) (s : State) : State :=
  if maySend s f then
    each (pieces (max 1 (fnOf s f).mps) data.length addr data) (fun p t => passItem f (.write p.1 p.2 owner) t) s
  else s
/-- A posted write of the device itself for function `f`. -/
def hostWrite (f addr : Nat) (data : List Byte) (s : State) : State := hostWriteFor none f addr data s

/-- MSI-X vector `v` of function `f`. -/
def vectorOf (s : State) (f v : Nat) : MsixVector := tget (fnOf s f).vectors v {}

/-- A message is due on vector `v`: it is sent, or sets the pending bit while something holds it back (R630). -/
def msix (f v : Nat) (s : State) : State :=
  let r := fnOf s f
  if maySend s f && r.msixEn && !r.fnMask && !(vectorOf s f v).masked then passItem f (.msix v) s
  else setFn f { r with vectors := tset v { vectorOf s f v with pending := true } r.vectors } s

/-! ### Memory -/

/-- The byte at global address `a`; a byte nothing has written reads 0, as every reset leaves it (Table 20-9). -/
def memGet (a : Nat) : List Host.Cell → Byte
  | [] => 0
  | (b, v) :: r => if b = a then v else memGet a r

/-- The memory with byte `v` at `a`, in canonical form: addresses strictly rising, no byte 0 listed. -/
def memSet (a : Nat) (v : Byte) : List Host.Cell → List Host.Cell
  | [] => if v = 0 then [] else [(a, v)]
  | (b, w) :: r =>
    if a < b then (if v = 0 then (b, w) :: r else (a, v) :: (b, w) :: r)
    else if a = b then (if v = 0 then r else (a, v) :: r)
    else (b, w) :: memSet a v r

/-- The canonical form of a memory: addresses above `lo`, strictly rising, no byte 0 listed. -/
def memWfFrom (lo : Nat) : List Host.Cell → Bool
  | [] => true
  | (a, v) :: r => lo ≤ a && v != 0 && memWfFrom (a + 1) r

/-- The canonical form of the memory of a state. -/
def Memory.wf (m : List Host.Cell) : Bool := memWfFrom 0 m

/-- The `n` bytes from global address `a`. -/
def memRead (m : List Host.Cell) (a : Nat) : Nat → List Byte
  | 0 => []
  | n + 1 => memGet a m :: memRead m (a + 1) n

/-- The memory with a byte list written from global address `a`. -/
def memWrite (m : List Host.Cell) (a : Nat) : List Byte → List Host.Cell
  | [] => m
  | b :: r => memWrite (memSet a b m) (a + 1) r

/-- The state after a write to memory. -/
def store (a : Nat) (l : List Byte) (s : State) : State := { s with mem := memWrite s.mem a l }
/-- The bytes a read of memory returns. -/
def load (s : State) (a n : Nat) : List Byte := memRead s.mem a n

/-! ### Event queues (R171, R174, R623, R628, R630) -/

/-- The number of entries of an event queue: 2 to the LOG2_SIZE of EQ_CFG. -/
def eqSize (q : EventQueue) : Nat := 2 ^ fld q.cfg 0 5
/-- The event queue is full (R628). -/
def eqFull (q : EventQueue) : Bool := (q.tail + 1) % eqSize q == q.head
/-- EQ_MOD's count: 0 acts as 1 (Table 18-8). -/
def modLimit (mod : Nat) : Nat := max 1 (fld mod 0 8)

/-- One entry is written at the tail of function `f`'s event queue, and a message is due under its moderation. -/
def eqAppend (f ev : Nat) (s : State) : State :=
  let q := (fnOf s f).eq
  let s1 := hostWrite f (q.base + 32 * q.tail) (toBytes 32 (setFld ev 248 8 (b2n q.phase))) s
  let t := (q.tail + 1) % eqSize q
  let count := q.modCount + 1
  let fire := modLimit q.mod ≤ count
  let q1 := { q with tail := t, phase := if t = 0 then !q.phase else q.phase,
                     modCount := if fire then 0 else count,
                     modSince := if fire then none else some (q.modSince.getD (now s)) }
  let s2 := modFn f (fun r => { r with eq := q1 }) s1
  if fire then msix f (fld q.cfg 8 5) s2 else s2

/-- The EQ_OVERFLOW event (Table 4-7). -/
def evOverflow (lost t : Nat) : Nat := pack [(0, 8, 5), (32, 32, lost), (64, 64, t)]

/-- Room returned or the queue was enabled: the lost count goes out first (R174). -/
def eqDrain (f : Nat) (s : State) : State :=
  let q := (fnOf s f).eq
  if q.enable && q.lost != 0 && !eqFull q then
    eqAppend f (evOverflow q.lost q.lostSince) (modFn f (fun r => { r with eq := { r.eq with lost := 0 } }) s)
  else s

/-- An event for function `f`: written, or added to the lost count while the queue is full or not enabled (R174). -/
def fnEvent (f ev : Nat) (s : State) : State :=
  let q := (fnOf s f).eq
  if q.enable && !eqFull q then eqAppend f ev s
  else
    let since := if q.lost = 0 then now s else q.lostSince
    bump (kDiDispatchStats 9) (modFn f (fun r => { r with eq := { r.eq with lost := r.eq.lost + 1, lostSince := since } }) s)

/-! ### The error history (R669) -/

/-- An entry of the error history: equal in code and place to the newest within 1 s, it is counted there. -/
def histAdd (code sev loc detail : Nat) (s : State) : State :=
  let fresh : HistEntry :=
    { seq := s.dict.histSeq + 1, time := now s, code := code, severity := sev, loc := loc, detail := detail, count := 1 }
  match s.dict.history with
  | h :: r =>
    if h.code = code ∧ h.loc = loc ∧ now s - h.time ≤ secToTc 1 then
      { s with dict := { s.dict with history := { h with count := satAdd 16 h.count 1 } :: r } }
    else { s with dict := { s.dict with history := (fresh :: h :: r).take 256, histSeq := s.dict.histSeq + 1 } }
  | [] => { s with dict := { s.dict with history := [fresh], histSeq := s.dict.histSeq + 1 } }

/-! ### Notifications (R660 to R662) -/

/-- A PDP message: FUNC and RESPONSE, TID, index, effective subindex, flags of byte 5, payload (Table 19-4). -/
def pdpMsg (func tid idx sub flags : Nat) (payload : List Byte) : List Byte :=
  toBytes 8 (pack [(0, 8, func), (8, 8, tid), (16, 16, idx), (32, 8, sub), (40, 6, flags), (46, 2, sub / 256),
    (48, 16, payload.length)]) ++ payload

/-- Longest payload of a transport: CAN FD, UDP, mailbox (R651). -/
def maxPayload (transport : Nat) : Nat := if transport = 0 then 56 else if transport = 1 then 1024 else 4096

/-- The padded length of a CAN FD frame: the next data length a DLC expresses (R653). -/
def canLength (n : Nat) : Nat :=
  if n ≤ 8 then n else ([12, 16, 20, 24, 32, 48].find? (n ≤ ·)).getD 64

/-- A message padded for CAN FD. -/
def canPad (l : List Byte) : List Byte := padTo (canLength l.length) l

/-- A notification on the CAN FD or UDP transport: queued, or discarded and counted when 32 wait (R662). -/
def queueNotify (transport dest idx sub : Nat) (value : List Byte) (s : State) : State :=
  let tid := tget s.dict.tids transport 0
  let cut := value.take (maxPayload transport)
  let m := pdpMsg 5 tid idx sub (if value.length > maxPayload transport then 2 else 0) cut
  let s1 := { s with dict := { s.dict with tids := tset transport ((tid + 1) % 256) s.dict.tids } }
  if transport = 0 then
    if s1.dict.canQueue.length < 32 then
      { s1 with dict := { s1.dict with canQueue := s1.dict.canQueue ++ [canPad m] } }
    else bump kDyNotifyLost s1
  else
    if s1.dict.udpQueue.length < 32 then
      { s1 with dict := { s1.dict with udpQueue := s1.dict.udpQueue ++ [(rd s (kDyDest dest) % 2 ^ 144, m)] } }
    else bump kDyNotifyLost s1

/-- The DICT_NOTIFY event (Table 19-11). -/
def evDictNotify (idx sub route : Nat) (value : List Byte) : Nat :=
  pack [(0, 8, 0x2C), (8, 1, b2n (value.length > 16)), (16, 16, idx), (32, 10, sub), (48, 16, route),
    (64, 128, ofBytes (value.take 16))]

/-- Route `i` sends a value of an object, or an event entry, on its transport (R662). -/
def routeSend (i idx sub : Nat) (value : List Byte) (s : State) : State :=
  let r := rd s (kDyRoute i)
  if fld r 1 2 = 2 then bump (kDyPdpStats 11) (fnEvent (fld r 16 9) (evDictNotify idx sub i value) s)
  else queueNotify (fld r 1 2) (fld r 4 2) idx sub value s

/-- Every enabled route of KIND 1 whose types take in the event sends it with PHASE 0 (R661). -/
def notifyEvent (ev : Nat) (s : State) : State :=
  each (upto 16) (fun i t =>
    let r := rd t (kDyRoute i)
    let typ := fld ev 0 8
    if bitAt r 0 && bitAt r 3 && fld r 32 8 ≤ typ && typ ≤ fld r 40 8 then
      routeSend i 0 0 (toBytes 32 (setFld ev 248 8 0)) t
    else t) s

/-- An event of the owner: its event queue, the error history where Table 19-13 lists it, and the routes of KIND 1. -/
def ownerEvent (ev : Nat) (hist : Option (Nat × Nat × Nat × Nat)) (s : State) : State :=
  let s1 := match hist with
    | some (code, sev, loc, detail) => histAdd code sev loc detail s
    | none => s
  notifyEvent ev (fnEvent 0 ev s1)

/-! ### Completion queues (R624, R628, R630) -/

/-- Queue pair `n` at reset: QP_CFG is 0x000n_0C0C (Table 18-7). -/
def qpReset (n : Nat) : QueuePair := { cfg := n * 65536 + 0x0C0C }
/-- Queue pair `n` of function `f`. -/
def qpOf (s : State) (f n : Nat) : QueuePair := tget (fnOf s f).qps n (qpReset n)
/-- Queue pair `n` of function `f` takes a record. -/
def setQp (f n : Nat) (q : QueuePair) (s : State) : State := modFn f (fun r => { r with qps := tset n q r.qps }) s
/-- Entries of the submission queue: 2^SQ_LOG2. -/
def sqSize (q : QueuePair) : Nat := 2 ^ fld q.cfg 0 5
/-- Entries of the completion queue: 2^CQ_LOG2. -/
def cqSize (q : QueuePair) : Nat := 2 ^ fld q.cfg 8 5
/-- The completion queue is full (R628). -/
def cqFull (q : QueuePair) : Bool := (q.cqTail + 1) % cqSize q == q.cqHead

/-- One completion entry is written at CQ_TAIL with the phase in force, and a message is due under QP_MOD. -/
def cqAppend (f n : Nat) (e : Entry) (s : State) : State :=
  let q := qpOf s f n
  let s1 := hostWrite f (q.cqBase + 32 * q.cqTail) (toBytes 32 (setFld e 248 8 (b2n q.phase))) s
  let t := (q.cqTail + 1) % cqSize q
  let count := q.modCount + 1
  let fire := modLimit q.mod ≤ count
  let s2 := setQp f n { q with cqTail := t, phase := if t = 0 then !q.phase else q.phase,
                               completed := wrapAdd 64 q.completed 1,
                               modCount := if fire then 0 else count,
                               modSince := if fire then none else some (q.modSince.getD (now s)) } s1
  if fire then msix f (fld q.cfg 16 5) s2 else s2

/-- The CQ_STALL event (Table 4-7). -/
def evCqStall (n waiting t : Nat) : Nat := pack [(0, 8, 4), (16, 16, n), (32, 32, waiting), (64, 64, t)]

/-- A completion entry for queue pair `n` of function `f`: written; or, with the queue full, it waits, and a stall
episode that starts writes CQ_STALL (R158); or, in QUIESCED, it is held (R632); one for a DISABLED queue is lost and counted
(R47, R633). -/
def cqPut (f n : Nat) (e : Entry) (s : State) : State :=
  let q := qpOf s f n
  match q.state with
  | .disabled => bump (kHoHostStats 11) s
  | .quiesced => setQp f n { q with held := q.held ++ [e] } s
  | _ =>
    if q.held.isEmpty && !cqFull q then cqAppend f n e s
    else
      let s1 := setQp f n { q with held := q.held ++ [e], cqStall := true } s
      if q.cqStall then s1
      else bump (kDiDispatchStats 6) (fnEvent f (evCqStall n (q.held.length + 1) (now s)) s1)

/-! ### Metered use and recovery flows -/

/-- Tenant `t` used `n` of budget kind `r`, in the order of CHARGED: 0 Sage, 1 to 10 engines, 11 DMA, 12 DRAM,
13 NoC (R182). -/
def meter (t r n : Nat) (s : State) : State :=
  { s with work := { s.work with metered := tmod s.work.metered (16 * t + r) 0 (· + n) } }

/-- Charge made in a window for a tenant and kind. -/
def chargeKey (w t r : Nat) : Nat := 8192 * w + 16 * t + r
/-- Charges are made. -/
def makeCharges (t : Nat) (l : List Charge) (s : State) : State :=
  { s with work := { s.work with charged := l.foldl (fun m c => tmod m (chargeKey c.window t c.res) 0 (· + c.amount)) s.work.charged } }
/-- Use beyond its charge is added to the present window (R182). -/
def addExcess (t r n : Nat) (s : State) : State :=
  if n = 0 then s
  else makeCharges t [{ res := r, window := s.work.window, amount := n }]
    { s with work := { s.work with excess := tmod s.work.excess (16 * t + r) 0 (· + n) } }
/-- What a job's charges hold of a kind. -/
def chargeOf (r : JobRt) (res : Nat) : Nat := (r.charges.filter fun c => c.res == res).foldl (fun n c => n + c.amount) 0

/-- DRAM moved `n` lines for a tenant's job, 65,536 × CI + job ID: metered, and what exceeds the job's charge is added to the window;
best-effort jobs are counted only (R182, R184). -/
def lineUse (t job n : Nat) (s : State) : State :=
  let isJob := fun (r : JobRt) => r.id == some (job % 65536) && r.st == .running
  let isGraph := fun (g : Graph) => g.tenant == t && g.ci == job / 65536 && g.rts.any isJob
  let s1 := meter t 12 n s
  match (s.work.graphs.find? isGraph).bind fun g => g.rts.find? isJob with
  | none => s1
  | some r =>
    let isOver := (r.lines + n - chargeOf r 12) - (r.lines - chargeOf r 12)
    let rows := fun (g : Graph) => { g with rts := updFirst isJob (fun r => { r with lines := r.lines + n }) g.rts }
    let s2 := { s1 with work := { s1.work with graphs := updFirst isGraph rows s1.work.graphs } }
    if r.p.best then s2 else addExcess t 12 isOver s2

/-- The RECOVERY event (Table 20-11). -/
def evRecovery (flow outcome loc detail t : Nat) : Nat :=
  pack [(0, 8, 0x2D), (8, 3, flow), (16, 3, outcome), (32, 64, loc), (96, 64, t), (160, 32, detail)]

/-- A RECOVERY event, in the history with code 0xE000 + 0x100 × FLOW + OUTCOME (R689). -/
def recoveryEvent (flow outcome loc detail : Nat) (s : State) : State :=
  ownerEvent (evRecovery flow outcome loc detail (now s))
    (some (0xE000 + 0x100 * flow + outcome, Config.recoverySeverity flow outcome, loc, detail)) s

/-- Is a recovery flow running on a unit (R689)? -/
def inFlow (s : State) (flow unit : Nat) : Bool := s.boot.recoveries.any fun r => r.flow == flow && r.unit == unit

/-- A recovery flow starts on a unit; one that runs there is merged with it (R689). -/
def startFlow (flow unit loc detail due : Nat) (s : State) : State :=
  if inFlow s flow unit then s
  else recoveryEvent flow 0 loc detail
    { s with boot := { s.boot with recoveries := s.boot.recoveries ++ [{ flow := flow, unit := unit, due := due }] } }

/-- A recovery flow ends with an outcome (R689). -/
def endFlow (flow unit outcome loc detail : Nat) (s : State) : State :=
  if inFlow s flow unit then
    recoveryEvent flow outcome loc detail
      { s with boot := { s.boot with
          recoveries := s.boot.recoveries.filter fun r => !(r.flow == flow && r.unit == unit) } }
  else s

/-! ### Access errors (R41, R621) -/

/-- An entry of the access-error log: the packed code of the requester or 0, function, BAR, offset or address. -/
def accessError (loc fn bar addr : Nat) (s : State) : State :=
  bump kHoAeTotal (bump (kHoHostStats 8) (wr kHoAeLast (pack [(0, 64, loc), (64, 16, fn), (80, 8, bar), (88, 40, addr)]) s))

/-! ### Answers to writes (R646, R648) -/

/-- The abort codes of Table 19-3 that a chapter names. -/
inductive Abort where
  | sequence | timeout | function | header | busy | segmentedRequired | access | noObject | length | range
  | locInvalid | general | flash | state | notReady | image
deriving DecidableEq, Repr

/-- The code of an abort (Table 19-3). -/
def Abort.code : Abort → Nat
  | .sequence => 0x05030001
  | .timeout => 0x05040000
  | .function => 0x05040001
  | .header => 0x05040002
  | .busy => 0x05040005
  | .segmentedRequired => 0x05040006
  | .access => 0x06010000
  | .noObject => 0x06020000
  | .length => 0x06070010
  | .range => 0x06090030
  | .locInvalid => 0x06090040
  | .general => 0x08000000
  | .flash => 0x08000020
  | .state => 0x08000022
  | .notReady => 0x08000023
  | .image => 0x08000024

/-- What a write does: refused with a code, changing nothing (R646), or in force. -/
abbrev Written := Option Abort × State

/-- A write in force. -/
def accepted (s : State) : Written := (none, s)
/-- A write refused. -/
def refusedW (a : Abort) (s : State) : Written := (some a, s)

/-- A response of the mailbox: it is written with its length, DONE is set and BUSY cleared, and a message is due with IRQ_EN (R658). One
for a mailbox that a reset has cleared is discarded (R659). -/
def mailboxRespond (f : Nat) (l : List Byte) (s : State) : State :=
  let m := (fnOf s f).mbox
  if m.busy then
    let m1 := { m with rsp := l, rspLen := l.length, done := true, busy := false, doneCount := wrapAdd 32 m.doneCount 1 }
    let s1 := modFn f (fun r => { r with mbox := m1 }) s
    if bitAt m.ctrl 1 then msix f (fld m.ctrl 2 5) s1 else s1
  else s

/-- An abort that is sent is counted (PDP_STATS). -/
def countAbort (o : Output) (s : State) : State :=
  match o with
  | .pdp t _ l => if l.headD 0 = 0x86 then bump (kDyPdpStats (4 * t + 1)) s else s
  | _ => s

/-- A PDP response: one on UDP is kept for 1 s with its request (R656). -/
def giveReply (r : Reply) (s0 : State) : State :=
  let s := countAbort r.out s0
  match r.out with
  | .pdp 2 f l => mailboxRespond f l s
  | .pdp 1 peer l =>
    let old := s.dict.answered.filter fun a => now s - a.2.2.2 ≤ secToTc 1
    send r.out { s with dict := { s.dict with answered := old ++ [(peer, r.request, l, now s)] } }
  | o => send o s

/-- A write that arrived as a command of its own is answered: 0, or its abort code. -/
def answer (w : Written) : Res :=
  done (send (.reply (match w.1 with | none => 0 | some a => a.code)) w.2)

/-- A command that is not due changes nothing (log 3). -/
def whenDue (b : Bool) (f : State → State) (s : State) : Res := done (if b then f s else s)

end Sys2Proof.Machine
end

