-- ==== Sys2Proof/Machine/Timing.lean ====
section
/-!
DEFINITION. Timing, references and holdover (13_timing.md): the counters, corrections of the DTC, the reference monitors,
selection, the states of the loop, time quality and the commands that drive them.
-/
namespace Sys2Proof.Machine

/-! ### Active carrier instances (R449) -/

/-- The CI field and the port of an AxC descriptor (Table 12-3). -/
def axcCi (d : Nat) : Nat := fld d 32 9
/-- The port of an AxC descriptor. -/
def axcPort (d : Nat) : Nat := fld d 8 6
/-- A port is UP (Table 12-8). -/
def portUp (s : State) (p : Nat) : Bool := rd s (kPoState p) == 1
/-- Lanes a port mode takes (Table 12-1). -/
def modeLanes (mode : Nat) : Nat := if mode = 5 || mode = 7 then 4 else if mode = 6 then 2 else 1

/-- The port that lane `n` belongs to, if one with MODE not 0 takes it (R418). -/
def portOfLane (s : State) (n : Nat) : Option Nat :=
  [n, n - n % 2, n - n % 4].find? fun p => let m := rd s (kPoMode p); m != 0 && n < p + modeLanes m

/-- The CI of a binding descriptor (Table 10-2). -/
def bindCi (d : Nat) : Nat := fld d 16 9

/-- CI `c` is active (R449): assigned, with a live graph, an AxC on a port that is UP, or an ACTIVE binding. -/
def ciActive (s : State) (c : Nat) : Bool :=
  (tfind c s.work.ciOwner).isSome &&
    (s.work.graphs.any (fun g => g.ci == c && g.st != .done) ||
     s.radio.axcs.any (fun e => axcCi e.2 == c && portUp s (axcPort e.2)) ||
     s.radio.bindings.any (fun e => e.2.state == .active && bindCi e.2.desc == c))

/-- Some CI is active. -/
def anyCiActive (s : State) : Bool := s.work.ciOwner.any fun e => ciActive s e.1

/-! ### Counters and corrections (R446 to R450) -/

/-- SLEW_REMAIN, Tc. -/
def slewRemain (s : State) : Int := rdI s kTiSlewRemain 64

/-- The DTC moved by a signed number of Tc, modulo 2^64. -/
def dtcPlus (d : Nat) (v : Int) : Nat := (((d : Int) + v) % (2 ^ 64 : Int)).toNat

/-- A correction of `v` Tc (R450): a step while no CI is active, otherwise added to the slew. -/
def applyCorrection (v : Int) (s : State) : State :=
  if anyCiActive s then wrI kTiSlewRemain 64 (slewRemain s + v) s
  else { s with tim := { s.tim with dtc := dtcPlus s.tim.dtc v } }

/-- The Tc by which a slew of remainder `r` moves the DTC over `n` clocks: 10 ppm, so 1 Tc in 50,000 clocks (R450). -/
def slewMoves (r : Int) (acc n : Nat) : Int :=
  let m : Int := ((acc + n) / 50000 : Nat)
  if r = 0 then 0 else if 0 < r then min r m else max r (-m)

/-- VDD_CORE is on and D0 has a clock: the radio timing domain runs (R447, R691). -/
def coreOn (s : State) : Bool := s.boot.pwrEn.getD 1 true && (s.boot.oscOk || s.boot.oscFallback)

/-- `n` clocks of 983.04 MHz pass: the DTC and UPTIME add 2 on each (R446, R447), the STC counts its ticks of 60,000 Tc
(R448) whether or not D0 runs, and a slew absorbs its share (R450), at whose end SLEWING of TIME_QUALITY clears (R466). -/
def passClocks (n : Nat) (s : State) : State :=
  let f := s.tim.stcFrac + 2 * n
  let stc := wrapAdd 48 s.tim.stc (f / 60000)
  if coreOn s then
    let r := slewRemain s
    let m := slewMoves r s.tim.slewAcc n
    let t := { s.tim with dtc := dtcPlus s.tim.dtc (2 * n + m), uptime := wrapAdd 64 s.tim.uptime (2 * n),
                          stc := stc, stcFrac := f % 60000,
                          slewAcc := if r = m then 0 else (s.tim.slewAcc + n) % 50000 }
    if m = 0 then { s with tim := t }
    else
      let s1 := wrI kTiSlewRemain 64 (r - m) { s with tim := t }
      if r = m then wr kTiTimeQuality (setFld (rd s1 kTiTimeQuality) 19 1 0) s1 else s1
  else { s with tim := { s.tim with stc := stc, stcFrac := f % 60000 } }

/-! ### Events (Table 13-8) -/

/-- An event of Table 13-8. -/
def evTiming (typ flags ref frm : Nat) (value : Int) (t : Nat) : Nat :=
  pack [(0, 8, typ), (8, 8, flags), (16, 4, ref), (20, 4, frm), (32, 64, ofInt 64 value), (96, 64, t)]

/-- The selected reference, 15 for none. -/
def selected (s : State) : Nat := rd s kTiSelected
/-- The state of reference `r` (Table 13-3). -/
def refState (s : State) (r : Nat) : Nat := rd s (kReState r)
/-- Reference `r` has activity. -/
def refActive (s : State) (r : Nat) : Bool := bitAt (rd s (kReFlags r)) 1
/-- What the monitor of reference `r` keeps. -/
def refSt (s : State) (r : Nat) : RefSt := tget s.tim.refs r {}
/-- The monitor record of reference `r` changed. -/
def modRef (r : Nat) (f : RefSt → RefSt) (s : State) : State :=
  { s with tim := { s.tim with refs := tmod s.tim.refs r {} f } }

/-- A flag bit of reference `r` set or cleared: [0] PREWARN, [1] activity. -/
def setRefFlag (r b : Nat) (v : Bool) (s : State) : State := wr (kReFlags r) (setFld (rd s (kReFlags r)) b 1 (b2n v)) s

/-- The REF_STATE event of reference `r` (R457), with FAILED entered in the error history (Table 19-13). -/
def refEvent (r : Nat) (s : State) : State :=
  ownerEvent (evTiming 0x1D (refState s r + 8 * fld (rd s (kReFlags r)) 0 1) r 0 (rdI s (kReD r) 32) (now s))
    (if refState s r = 5 then some (0x1D05, 1, 0, r) else none) s

/-! ### Time quality (R466) -/

/-- DISQ of a reference in ppt. -/
def disq (s : State) (r : Nat) : Int := 1000 * (rd s (kReDisq r) : Int)

/-- The UNCERTAINTY bound in ns, saturating (R466); on the PCIe clock it grows at 300 ppm (R691). -/
def uncertainty (s : State) : Nat :=
  let slew := ceilDiv ((slewRemain s).natAbs * 3125) 6144
  let sel := selected s
  if rd s kTiState = 2 && sel < 8 && refIsPhase sel then
    satAdd 32 (rd s (kReRefUnc sel) + ceilDiv s.tim.filtErr.natAbs 1000) slew
  else match s.tim.u0 with
    | none => 0xFFFFFFFF
    | some u =>
      let dt := tcToNs (now s - s.tim.lockTime)
      let f := if s.boot.oscFallback then 300000000 else if rd s kTiState = 2 && sel < 8 then rd s (kReRefUnc sel) else rd s kTiHoFreqUnc
      satAdd 32 (u + ceilDiv (f * dt) (10 ^ 12) +
        ceilDiv (rd s kTiOscAging * dt * dt) (2 * 86400 * 10 ^ 9 * 10 ^ 12)) slew

/-- The announced clockClass (Table 13-6). -/
def clockClass (s : State) : Nat :=
  let sel := selected s
  let st := rd s kTiState
  if st = 2 && (sel = 0 || sel = 1 || sel = 7) then rd s kTiClassLocked
  else if st = 2 && sel = 2 then s.tim.ptpClass
  else if st = 3 || st = 2 then (if uncertainty s ≤ rd s kTiHoSpec then 7 else 140)
  else 248

/-- The record of Table 13-5. -/
def timeQuality (s : State) : Nat :=
  let sel := selected s
  let st := rd s kTiState
  pack [(0, 3, st), (8, 4, sel), (16, 1, b2n (st = 2 && sel < 8 && refIsPhase sel)), (17, 1, b2n (st = 2)),
    (18, 1, b2n s.tim.afterSleep), (19, 1, b2n (slewRemain s != 0)), (20, 1, rd s kTiOscSuspect),
    (32, 32, uncertainty s), (64, 64, s.tim.since)]

/-- TIME_QUALITY and CLASS_NOW are brought up to date; a phase lock renews u0 and ends AFTER_SLEEP (R466). -/
def refreshQuality (s : State) : State :=
  let sel := selected s
  let s1 := if rd s kTiState = 2 && sel < 8 && refIsPhase sel then
      { s with tim := { s.tim with u0 := some (uncertainty s), lockTime := now s, afterSleep := false } }
    else s
  wr kTiClassNow (clockClass s1) (wr kTiTimeQuality (timeQuality s1) s1)

/-! ### The states of the loop (R463, R464) -/

/-- The timing subsystem takes state `st`; a change writes TIMING_STATE (Table 13-4). -/
def setTimState (st : Nat) (s : State) : State :=
  if rd s kTiState = st then s
  else
    let s1 := wr kTiState st { s with tim := { s.tim with since := now s, lockSecs := 0 } }
    refreshQuality (ownerEvent (evTiming 0x1C st (selected s1) 0 0 (now s1)) none s1)

/-- The mean CV of the HO_WIN seconds that end HO_GUARD seconds ago, unlocked seconds left out; none when no such
second exists (R464). -/
def holdoverMean (s : State) : Option Int :=
  let w := ((s.tim.cvHist.drop (rd s kTiHoGuard)).take (rd s kTiHoWin)).filter (·.2)
  if w.isEmpty then none else some ((w.foldl (fun a e => a + e.1) 0) / (w.length : Int))

/-- Entry to HOLDOVER: HO_CV is formed and CV takes it (R464). -/
def enterHoldover (s : State) : State :=
  if rd s kTiState = 3 then s
  else
    let s1 := match holdoverMean s with
      | some m => wrI kTiHoCv 32 m s
      | none => s
    setTimState 3 (bump (kTiTimingStats 1) (wr kTiCv (rd s1 kTiHoCv) s1))

/-! ### Selection (R459, R460) -/

/-- The quality of a reference: QL_FIXED, or the link's where QL_FROM_LINK is set (R459). -/
def refQuality (s : State) (r : Nat) : Nat :=
  if rdB s (kReQlFromLink r) && refKind r = 3 then
    (match portOfLane s (rd s (kReLane r)) with
      | some p => if rd s (kReLane r) < 64 then rd s (kPoSsmRx p) else 15
      | none => 15)
  else if rdB s (kReQlFromLink r) && refKind r = 2 then s.tim.ptpClass / 16
  else rd s (kReQlFixed r)

/-- Reference `r` is selectable (R459). -/
def selectable (s : State) (r : Nat) : Bool :=
  refState s r == 4 && 1 ≤ rd s (kRePriority r) && rd s (kRePriority r) ≤ 8 && refQuality s r < 15

/-- The key of a reference as one number: the order of (PRIORITY, quality, REF), or (quality, PRIORITY, REF) (R459). -/
def refKey (s : State) (r : Nat) : Nat :=
  let p := rd s (kRePriority r)
  let q := refQuality s r
  if rd s kTiSelMode = 0 then (p * 16 + q) * 8 + r else (q * 16 + p) * 8 + r

/-- The best selectable reference, 15 when there is none. -/
def bestRef (s : State) : Nat :=
  ((upto 8).filter (selectable s)).foldl (fun b r => if b = 15 || refKey s r < refKey s b then r else b) 15

/-- The loop follows reference `r`, or none (15): the switch of R460 and R461. -/
def selectRef (r : Nat) (s : State) : State :=
  let old := selected s
  if r = old then s
  else
    let s1 := wr kTiSelected r s
    if r = 15 then
      let s2 := { s1 with tim := { s1.tim with measure := none } }
      if rd s2 kTiState = 1 || rd s2 kTiState = 2 then enterHoldover s2 else refreshQuality s2
    else
      let s2 := bump (kTiTimingStats 0) s1
      let s3 := if refIsPhase r then { s2 with tim := { s2.tim with measure := some old, lockSecs := 0 } }
        else ownerEvent (evTiming 0x1E 1 r old 0 (now s2)) none
          { s2 with tim := { s2.tim with measure := none, lockSecs := 0 } }
      if rd s3 kTiLoopMode = 0 then setTimState 1 s3 else refreshQuality s3

/-- The reference the device uses now: the forced one while it has activity, else the present one while it is selectable
(and, at a second with REVERTIVE, none has a lower key), else the best (R460). On the PCIe clock there is none (R691). -/
def wantedRef (second : Bool) (s : State) : Nat :=
  let cur := selected s
  let f := rd s kTiForceRef
  if s.boot.oscFallback then 15
  else if f < 8 && refActive s f then f
  else if cur < 8 && selectable s cur then
    (if second && rdB s kTiRevertive then bestRef s else cur)
  else bestRef s

/-- Selection is taken anew. -/
def reselect (second : Bool) (s : State) : State := selectRef (wantedRef second s) s

/-- The selected reference may have stopped being selectable: the best one is taken at once (R460). -/
def checkSelected (s : State) : State := if selected s < 8 && !selectable s (selected s) then reselect false s else s

/-! ### Measuring a switch and feeding the loop (R461, R462) -/

/-- Picoseconds to Tc, rounded down: 1 Tc = 3,125,000/6,144 ps. -/
def psToTc (ps : Int) : Int := ps * 6144 / 3125000

/-- A phase step is reported and applied (R461): `flags` is [2] for a time-of-day second. -/
def phaseStep (v : Int) (ref old flags : Nat) (s : State) : State :=
  let stepped := !anyCiActive s
  let s1 := bump (kTiTimingStats (if stepped then 2 else 3)) s
  refreshQuality (applyCorrection v
    (ownerEvent (evTiming 0x1E (flags + 2 * b2n stepped) ref old v (now s1)) none s1))

/-- CV takes the loop filter's value: not given by the manual, within ±50 ppm (R462, log 9). -/
def loopFilter (s : State) : State :=
  if rd s kTiState = 1 || rd s kTiState = 2 then
    let (n, s1) := draw s
    wrI kTiCv 32 (clampI (-50000000) 50000000 (toInt 32 (Config.freeValue n))) s1
  else s

/-- A pulse or timestamp of phase reference `r`, `raw` ps ahead of the DTC (R461): it measures the switch, or feeds the loop. -/
def refPulse (r : Nat) (raw : Int) (s : State) : State :=
  let s1 := setRefFlag r 1 true s
  if selected s1 = r then
    let err := raw + 1000 * rdI s1 (kReRefDelay r) 32
    match s1.tim.measure with
    | some old =>
      phaseStep (psToTc err - slewRemain s1) r old 0 { s1 with tim := { s1.tim with measure := none } }
    | none =>
      loopFilter (wrI kTiPhaseErr 64 (err - (slewRemain s1) * 3125000 / 6144) s1)
  else s1

/-- REF_PULSE. -/
def execRefPulse (r : RefId) (rawPs : BitVec 64) (s : State) : Res :=
  whenDue (refIsPhase r.val && rdB s (kReEnable r.val)) (refPulse r.val rawPs.toInt) s

/-! ### The monitors (R455 to R458) -/

/-- A reference leaves what it was for state `st` with a REF_STATE event. -/
def refMove (r st : Nat) (s : State) : State := refEvent r (wr (kReState r) st s)

/-- A reference loses its activity: it is LOST at once and deselected (R455, R457, R460). -/
def refActivityLoss (r : Nat) (s : State) : State :=
  let s1 := setRefFlag r 1 false s
  if refState s r = 2 || refState s r = 3 || refState s r = 4 then
    reselect false (refMove r 1 (setRefFlag r 0 false s1))
  else if selected s = r then reselect false s1 else s1

/-- TOD_SENTENCE: the UTC second of REF0's next pulse; a whole-second difference found while REF0 is selected is corrected (R454). One
whose status is not valid is a loss of activity (R455). -/
def execTodSentence (utcSec : BitVec 40) (valid : Bool) (s : State) : Res :=
  whenDue (rdB s (kReEnable 0)) (fun s =>
    let want : Int := (utcSec.toNat : Int) + rdI s kTiUtcOffset 16
    let next : Int := ((now s / 1966080000 + 1 : Nat) : Int)
    if !valid then refActivityLoss 0 s
    else if selected s ≠ 0 || want = next then s
    else phaseStep ((want - next) * 1966080000) 0 0 4 s) s

/-- REF_ACTIVITY_LOSS. -/
def execRefActivityLoss (r : RefId) (s : State) : Res := done (refActivityLoss r.val s)

/-- The other QUALIFIED references. -/
def othersQualified (s : State) (r : Nat) : List Nat := (upto 8).filter fun q => q != r && refState s q == 4

/-- The median of a non-empty sorted list; of two middle values, their mean rounded down (R456). -/
def median (l : List Int) : Int :=
  let m := sortBy (fun a b : Int => decide (a ≤ b)) l
  if l.length % 2 = 1 then m.getD (l.length / 2) 0
  else (m.getD (l.length / 2 - 1) 0 + m.getD (l.length / 2) 0) / 2

/-- X of a reference. -/
def refX (s : State) (r : Nat) : Int := rdI s (kReX r) 32
/-- How far x has moved since the last qualification. -/
def refMoved (s : State) (r : Nat) : Int := refX s r - (refSt s r).xQual

/-- The deviation of reference `r` (R456). -/
def deviation (s : State) (r : Nat) : Int :=
  match othersQualified s r with
  | [] => refX s r
  | [q] =>
    let d := refX s r - refX s q
    if disq s r < 2 * d.natAbs && (refMoved s r).natAbs < (refMoved s q).natAbs then 0 else d
  | qs => refX s r - median (qs.map (refX s))

/-- A timer of a reference starts. -/
def startTimer (r n : Nat) (s : State) : State := wr (kReTimerRemain r) n s

/-- The decision of one second for reference `r` (Table 13-3). -/
def refDecide (r : Nat) (s : State) : State :=
  let d := rdI s (kReD r) 32
  let within : Bool := (d.natAbs : Int) ≤ disq s r
  let act := refActive s r
  match refState s r with
  | 1 =>
    if act && within then
      if (refSt s r).everQualified then startTimer r (rd s (kReWtrTime r)) (wr (kReState r) 3 s)
      else startTimer r (rd s (kReSoak r)) (wr (kReState r) 2 s)
    else s
  | 5 => if act && within then startTimer r (rd s (kReWtrTime r)) (wr (kReState r) 3 s) else s
  | 2 | 3 =>
    let full := if refState s r = 2 then rd s (kReSoak r) else rd s (kReWtrTime r)
    if !within then startTimer r full s
    else if rd s (kReTimerRemain r) ≤ 1 then
      refMove r 4 (startTimer r 0
        (modRef r (fun m => { m with xQual := refX s r, everQualified := true, overSecs := 0 }) s))
    else startTimer r (rd s (kReTimerRemain r) - 1) s
  | 4 =>
    let pre : Bool := disq s r < 2 * d.natAbs
    let s1 := if pre && !bitAt (rd s (kReFlags r)) 0 then
        bump (kTiTimingStats 4) (refEvent r (setRefFlag r 0 true s))
      else if pre then s else setRefFlag r 0 false s
    if within then modRef r (fun m => { m with overSecs := 0 }) s1
    else if rd s (kReSoak r) ≤ (refSt s r).overSecs then
      bump (kTiTimingStats 5) (refMove r 5 (modRef r (fun m => { m with xFail := refX s r, overSecs := 0 }) s1))
    else modRef r (fun m => { m with overSecs := m.overSecs + 1 }) s1
  | _ => s

/-- The references that are QUALIFIED. -/
def qualifiedRefs (s : State) : List Nat := (upto 8).filter fun q => refState s q == 4

/-- The condition of R458: two or more QUALIFIED references have all moved by more than DISQ ÷ 2 in one direction. -/
def oscMoved (s : State) : Bool :=
  let q := qualifiedRefs s
  2 ≤ q.length && q.all (fun r => disq s r < 2 * (refMoved s r).natAbs) &&
    (q.all (fun r => 0 < refMoved s r) || q.all (fun r => refMoved s r < 0))

/-- OSC_ALARM, raised or cleared (R458). -/
def oscCheck (s : State) : State :=
  if oscMoved s then
    let s1 := { s with tim := { s.tim with oscClear := 0 } }
    if rdB s kTiOscSuspect then s1
    else bump (kTiTimingStats 6)
      (ownerEvent (evTiming 0x1F 0 (selected s1) 0 0 (now s1)) (some (0x1F00, 2, 0, 0)) (wr kTiOscSuspect 1 s1))
  else if rdB s kTiOscSuspect then
    if s.tim.oscClear + 1 < 60 then { s with tim := { s.tim with oscClear := s.tim.oscClear + 1 } }
    else
      let s1 := wr kTiOscSuspect 0 { s with tim := { s.tim with oscClear := 0 } }
      let s2 := ownerEvent (evTiming 0x1F 1 (selected s1) 0 0 (now s1)) none s1
      each (qualifiedRefs s2) (fun r t => modRef r (fun m => { m with xQual := refX t r }) t) s2
  else s

/-- The lock criterion (R463): 16 s within 100 ns (ps for a phase reference) or 1 ppb (ppt for a frequency reference). -/
def lockCheck (filt : Int) (s : State) : State :=
  let sel := selected s
  let ok : Bool := sel < 8 && s.tim.measure.isNone && filt.natAbs ≤ (if refIsPhase sel then 100000 else 1000)
  let n := if ok then s.tim.lockSecs + 1 else 0
  let s1 := { s with tim := { s.tim with lockSecs := n, filtErr := filt } }
  if rd s1 kTiState = 1 && 16 ≤ n then setTimState 2 s1 else s1

/-- REF_SECOND_UPDATE: at a DTC second the monitors update, then the states, then selection (R456, R457). `xs` are the
measurements of the references with activity, ppt; `filt` is the loop's filtered error, ps or ppt. -/
def execRefSecondUpdate (xs : List (RefId × BitVec 32)) (filt : BitVec 64) (s : State) : Res :=
  let s1 := each xs (fun e t =>
    if rdB t (kReEnable e.1.val) then wr (kReX e.1.val) e.2.toNat (setRefFlag e.1.val 1 true t) else t) s
  let s2 := each xs (fun e t =>
    if rdB t (kReEnable e.1.val) then wrI (kReD e.1.val) 32 (deviation s1 e.1.val) t else t) s1
  let s3 := oscCheck (each (upto 8) refDecide s2)
  let s4 := reselect true s3
  let s5 := if selected s4 < 8 && !refIsPhase (selected s4) then loopFilter s4 else s4
  let s6 := lockCheck filt.toInt s5
  let s7 := if rd s6 kTiState = 4 then wrI kTiFreqErr 32 (if selected s6 < 8 then refX s6 (selected s6) else 0) s6 else s6
  done (refreshQuality { s7 with tim := { s7.tim with
    cvHist := ((rdI s7 kTiCv 32, rd s7 kTiState == 2) :: s7.tim.cvHist).take 3600 } })

/-! ### Writes with rows of their own -/

/-- ENABLE of a reference (Table 13-3). -/
def wRefEnable (r v : Nat) (s : State) : Written :=
  if 1 < v then refusedW .range s
  else if v = 0 then
    let s1 := wr (kReEnable r) 0 (wr (kReState r) 0 (wr (kReFlags r) 0 (startTimer r 0 s)))
    accepted (if selected s = r then reselect false s1 else s1)
  else if refState s r = 0 then
    accepted (modRef r (fun _ => {}) (wr (kReEnable r) 1 (wr (kReState r) 1 s)))
  else accepted (wr (kReEnable r) 1 s)

/-- REF_ENABLE. -/
def execRefEnable (r : RefId) (v : Byte) (s : State) : Res := answer (wRefEnable r.val v.toNat s)

/-- FORCE_REF (R460). -/
def wForceRef (v : Nat) (s : State) : Written :=
  if v < 8 || v = 0xFF then accepted (reselect false (wr kTiForceRef v s)) else refusedW .range s

/-- FORCE_REF. -/
def execForceRef (v : Byte) (s : State) : Res := answer (wForceRef v.toNat s)

/-- LOOP_MODE (R463); a phase reference acquired from a forced holdover is measured anew (R461). -/
def wLoopMode (v : Nat) (s : State) : Written :=
  if v = 0 then
    let s1 := wr kTiLoopMode 0 s
    let again := if rd s kTiState = 3 && selected s < 8 && refIsPhase (selected s) then
        { s1 with tim := { s1.tim with measure := some 15 } }
      else s1
    accepted (if rd s kTiState = 4 || rd s kTiState = 3 then
        (if selected s < 8 then setTimState 1 again else enterHoldover s1)
      else s1)
  else if v = 1 then accepted (enterHoldover (wr kTiLoopMode 1 s))
  else if v = 2 then accepted (setTimState 4 (wr kTiLoopMode 2 s))
  else refusedW .range s

/-- LOOP_AUTOMATIC. -/
def execLoopAutomatic (s : State) : Res := answer (wLoopMode 0 s)
/-- LOOP_HOLDOVER. -/
def execLoopHoldover (s : State) : Res := answer (wLoopMode 1 s)
/-- LOOP_SOFTWARE. -/
def execLoopSoftware (s : State) : Res := answer (wLoopMode 2 s)

/-- SW_FREQ (R465): in SOFTWARE it sets CV, by at most 1 ppm while a CI is active. -/
def wSwFreq (v : Int) (s : State) : Written :=
  if v < -50000000 || 50000000 < v then refusedW .range s
  else if rd s kTiState = 4 && anyCiActive s && 1000000 < (v - rdI s kTiCv 32).natAbs then refusedW .range s
  else
    let s1 := wrI kTiSwFreq 32 v s
    accepted (if rd s kTiState = 4 then wrI kTiCv 32 v s1 else s1)

/-- SW_FREQ. -/
def execSwFreq (v : Word) (s : State) : Res := answer (wSwFreq v.toInt s)

/-- DTC_ADJUST (R450). -/
def wDtcAdjust (v : Int) (s : State) : Written := accepted (refreshQuality (applyCorrection v s))

/-- DTC_ADJUST. -/
def execDtcAdjust (v : BitVec 64) (s : State) : Res := answer (wDtcAdjust v.toInt s)

/-- SLEW_DONE: with no CI active the remainder is applied as a step; otherwise the time the slew takes passes and the
remainder is absorbed (R450). -/
def execSlewDone (s : State) : Res :=
  let r := slewRemain s
  whenDue (r != 0) (fun s =>
    if anyCiActive s then passClocks (50000 * r.natAbs - s.tim.slewAcc) s
    else refreshQuality (wr kTiSlewRemain 0 { s with tim := { s.tim with dtc := dtcPlus s.tim.dtc r, slewAcc := 0 } })) s

/-- Slots in a TDD period × 8 for each TDD_PERIOD code at µ = 0 (R467). -/
def tddEighths (code : Nat) : Nat := [4, 5, 8, 10, 16, 20, 40, 80].getD code 0

/-- A TDD period and µ that R467 admits: a whole number of slots, at most 80. -/
def tddOk (period mu : Nat) : Bool :=
  period < 8 && mu < 4 && tddEighths period * 2 ^ mu % 8 == 0 && tddEighths period * 2 ^ mu / 8 ≤ 80

/-- TDD_PATTERN_APPLY: the pattern written takes effect at a FRAME_OUT edge (R467). -/
def execTddPatternApply (s : State) : Res :=
  done { s with tim := { s.tim with tdd :=
    { period := rd s kTiTddPeriod, mu := rd s kTiTddMu, mask := rd s kTiTddMask, adv := rdI s kTiTddAdv 32 } } }

/-- PPS_OUT: high from each DTC second plus PPS_OUT_OFS for PPS_WIDTH (R467). -/
def ppsOut (s : State) : Bool :=
  ((now s : Int) - rdI s kTiPpsOutOfs 32) % 1966080000 < (usToTc (rd s kTiPpsWidth) : Int)

/-- The time since the last rising edge of FRAME_OUT, the DTC shifted by `adv` Tc (R467). -/
def frameAge (adv : Int) (s : State) : Nat := (((now s : Int) + adv - rd s kTiFrameOutOfs) % 19660800).toNat

/-- FRAME_OUT: high for 10 µs from each frame boundary plus FRAME_OUT_OFS (R467). -/
def frameOut (s : State) : Bool := frameAge 0 s < usToTc 10

/-- TDD_OUT: high during each uplink slot of the pattern in effect, earlier by TDD_ADV (R467). -/
def tddOut (s : State) : Bool :=
  let p := s.tim.tdd
  let age := frameAge (if 0 ≤ p.adv then nsToTc p.adv.toNat else -(nsToTc (-p.adv).toNat)) s
  bitAt p.mask (age % (tddEighths p.period * 245760) / (1966080 / 2 ^ p.mu))

/-- SCLK0 and SCLK1 rise every SCLK_DIV clocks of 983.04 MHz and on every DTC second; never at SCLK_DIV 0 (R467). -/
def sclkRises (i : Nat) (s : State) : Bool :=
  let d := rd s (kTiSclkDiv i)
  d != 0 && now s % (2 * d) == 0

/-- FFT sizes by code (Table 9-4). -/
def fftSize (code : Nat) : Nat := [128, 256, 512, 1024, 2048, 4096, 1536, 3072].getD code 0

/-- The reserved fields of a CI descriptor are 0 (Table 13-1). -/
def ciReservedOk (d : Nat) : Bool :=
  fld d 4 4 == 0 && fld d 12 4 == 0 && fld d 25 7 == 0 && fld d 35 29 == 0 && fld d 89 7 == 0 && fld d 96 32 == 0

/-- The fields of a CI descriptor with VALID = 1 are in range (Table 13-1, R451). -/
def ciFieldsOk (d : Nat) : Bool :=
  let air := fld d 0 3
  let mu := fld d 8 2
  let cpExt := bitAt d 10
  let nprb := fld d 16 9
  let code := fld d 32 3
  let ofs := fld d 64 25
  air ≤ 4 && (air == 0 || mu == 0) && (!cpExt || air == 1 || air == 2 || (air == 0 && mu == 2)) &&
  (!bitAt d 11 || air == 3) &&
  (match air with
   | 0 => 1 ≤ nprb && nprb ≤ 275
   | 1 | 2 => 6 ≤ nprb && nprb ≤ 100
   | 3 => nprb == 1
   | _ => nprb == 0 && code == 0 && ofs == 0) &&
  ofs < 19660800 && (air == 4 || 12 * nprb ≤ fftSize code)

/-- CI_CONFIG (R451). -/
def wCiConfig (c d : Nat) (s : State) : Written :=
  if (tfind c s.work.ciOwner).isSome then refusedW .state s
  else if !ciReservedOk d then refusedW .range s
  else if bitAt d 3 && !ciFieldsOk d then refusedW .range s
  else accepted (wr (kCiCiConfig c) d s)

/-- CI_CONFIG. -/
def execCiConfig (c : CiId) (d : BitVec 128) (s : State) : Res := answer (wCiConfig c.val d.toNat s)

/-- The PTP timestamp of the DTC: seconds of the PTP scale and nanoseconds (R446). -/
def ptpTime (s : State) : Nat × Nat :=
  (315964819 + now s / 1966080000, now s % 1966080000 * 3125 / 6144)

/-- The 12-byte TIME value of the DTC (Table 19-1). -/
def ptpBytes (s : State) : List Byte := toBytes 4 (ptpTime s).2 ++ toBytes 8 ((ptpTime s).1 % 2 ^ 48)

/-- The timestamp as a PTP message carries it: 48 bits of seconds and 32 of nanoseconds, in network byte order (R6). -/
def ptpWire (s : State) : List Byte := beBytes 6 ((ptpTime s).1 % 2 ^ 48) ++ beBytes 4 (ptpTime s).2

/-- Port `p` serves time: its PTP_TX_MASK bit is set, it is not REF2's port, and PTP_STEP is not 0 (R468). -/
def ptpServes (s : State) (p : Nat) : Bool :=
  bitAt (rd s kTiPtpTxMask) p && rd s kTiPtpPort != p && rd s (kPoPtpStep p) != 0 && portUp s p

/-- PTP_MESSAGE_TX: a message of a time transmitter, its timestamp in it (one-step) or in the message that follows (two-step). -/
def execPtpMessageTx (p : PortId) (msgType : BitVec 4) (s : State) : Res :=
  whenDue (ptpServes s p.val) (fun s =>
    let stamp := ptpWire s
    let s1 := { s with tim := { s.tim with ptpSeq := wrapAdd 16 s.tim.ptpSeq 1 } }
    let head := toBytes 1 msgType.toNat ++ toBytes 1 (rd s kTiPtpDomain) ++ beBytes 2 s.tim.ptpSeq ++ toBytes 1 (rd s kTiClassNow)
    if rd s (kPoPtpStep p.val) = 1 then send (.portFrame p.val 0 (head ++ stamp)) s1
    else send (.portFrame p.val 1 (head ++ stamp)) (send (.portFrame p.val 0 head) s1)) s

end Sys2Proof.Machine
end

