-- ==== Sys2Proof/Machine/Power.lean ====
section
/-!
DEFINITION. Power states, votes, clocks, the governor, margins and thermal control (17_power_and_thermal.md), up to the
device-wide states, which Machine/Sleep.lean holds.
-/
namespace Sys2Proof.Machine

/-! ### Domains and votes (R573 to R580) -/

/-- The states a domain has: its deepest per-domain state (Table 17-1). -/
def domDeepest (d : Nat) : Nat := if d < 44 then 5 else if d < 48 then 4 else if d = 48 then 1 else 0

/-- Domain `d` (50 is the device) has state PSk (Table 17-1). -/
def domHas (d k : Nat) : Bool :=
  if d = 50 then k == 0 || (6 ≤ k && k ≤ 8) else d < 50 && k ≤ domDeepest d

/-- The state a domain is in. -/
def domState (s : State) (d : Nat) : Nat := rd s (kPdState d)
/-- What the controller keeps of a domain. -/
def domSt (s : State) (d : Nat) : DomSt := tget s.pow.doms d {}
/-- The controller's record of a domain changed. -/
def modDom (d : Nat) (f : DomSt → DomSt) (s : State) : State :=
  { s with pow := { s.pow with doms := tmod s.pow.doms d {} f } }

/-- The lane-quad domain of a lane: d = 20 + n (Table 17-1). -/
def quadDom (lane : Nat) : Nat := 20 + lane / 4

/-- Debug holds PS0 everywhere while JTAG is attached or DEBUG_HOLD is 1 (Table 17-3). -/
def debugVotes (s : State) : Bool := s.boot.jtag || rdB s kPwDebugHold

/-- Timing holds PS0 on domain 49 and on the quads of the SyncE lanes and of PTP_PORT (Table 17-3). -/
def timingVotes (s : State) (d : Nat) : Bool :=
  d == 49 || [3, 4].any (fun r => rdB s (kReEnable r) && rd s (kReLane r) < 64 && quadDom (rd s (kReLane r)) == d) ||
    (rd s kTiPtpPort < 64 && quadDom (rd s kTiPtpPort) == d)

/-- MAR `m` has a binding that is ACTIVE or DRAINING. -/
def marBound (s : State) (m : Nat) : Bool :=
  s.radio.bindings.any fun e => (e.2.state == .active || e.2.state == .draining) && fld e.2.desc 8 2 == m

/-- Firmware holds PS0 on the group and the DRAM channels used by a MAR that has bindings (Table 17-3). -/
def marVotes (s : State) (d : Nat) : Bool :=
  (upto 4).any fun m => marBound s m && (d == 12 + (2 * m + 1) || (36 ≤ d && d < 44 && rd s (kDcState (d - 36)) != 0))

/-- Placement holds PS4 on a cluster or GB slice whose memory holds space for a buffer (Table 17-3). -/
def spaceVotes (s : State) (d : Nat) : Bool :=
  s.work.spaces.any fun e =>
    let k := e.block / 256
    let b := e.block % 256
    (k == 0 && b / 9 == d) || (k == 1 && b == d) || (k == 2 && 44 + b == d)

/-- Firmware holds PS0 on the quad of a lane in ACQUIRING, ACTIVE, ENTERING or STANDBY (R411). -/
def laneVotes (s : State) (d : Nat) : Bool :=
  20 ≤ d && d < 36 && (upto 4).any fun u => let k := rd s (kLaState (4 * (d - 20) + u)); 1 ≤ k && k ≤ 4

/-- Firmware holds PS0 on the domain of a unit in maintenance or self-test, and of a rank that re-centres (Table 17-3). -/
def taskVotes (s : State) (d : Nat) : Bool :=
  if d < 12 then (upto 9).any fun u => fld (rd s (kPlSageRole (9 * d + u))) 19 3 == 1
  else if d < 20 then (upto 15).any fun u => fld (rd s (kPlEngineRole (15 * (d - 12) + u))) 19 3 == 1
  else if 36 ≤ d && d < 44 then (tget s.dram.chans (d - 36) {}).ranks.any fun r => r.2.recentring
  else false

/-- The levels voted on a domain, whoever votes. -/
def voteLevels (s : State) (d : Nat) : List Nat :=
  (s.pow.votes.filter (fun v => v.dom == d)).map (·.level) ++
    (if debugVotes s then [0] else []) ++ (if timingVotes s d then [0] else []) ++ (if marVotes s d || laneVotes s d || taskVotes s d then [0] else []) ++
    (if spaceVotes s d then [4] else [])

/-- The target of a domain: the lowest level voted, or its floor (R577). -/
def domTarget (s : State) (d : Nat) : Nat :=
  (voteLevels s d).foldl min (if (voteLevels s d).isEmpty then rd s (kPdFloor d) else 8)

/-- VOTERS of a domain (Table 17-15). -/
def domVoters (s : State) (d : Nat) : Nat :=
  let has := fun p => b2n (s.pow.votes.any fun v => v.dom == d && p v.client)
  pack [(0, 1, max (has (· == .placement)) (b2n (spaceVotes s d))), (1, 1, max (has (· == .firmware)) (b2n (marVotes s d || laneVotes s d || taskVotes s d))),
    (2, 1, max (has (· == .timing)) (b2n (timingVotes s d))),
    (3, 1, has (fun c => match c with | .tenant _ => true | _ => false)), (4, 1, b2n (debugVotes s))]

/-- A vote is held: it replaces the client's vote of the same domain and tag. -/
def addVote (v : Vote) (s : State) : State :=
  let rest := s.pow.votes.filter fun w => !(w.client == v.client && w.dom == v.dom && w.tag == v.tag && w.level == v.level)
  { s with pow := { s.pow with votes := v :: rest } }

/-- Votes are withdrawn. -/
def dropVotes (p : Vote → Bool) (s : State) : State :=
  { s with pow := { s.pow with votes := s.pow.votes.filter fun v => !p v } }

/-- The vote of tenant `t` on domain `d`, 0xFF none (R579). -/
def tenantVote (s : State) (t d : Nat) : Nat :=
  match s.pow.votes.find? (fun v => v.client == .tenant t && v.dom == d) with
  | some v => v.level
  | none => 0xFF

/-- VOTE_SET: domain in byte 0, state or 0xFF in byte 1 (R577, R579). -/
def wVoteSet (t v : Nat) (s : State) : Written :=
  let d := fld v 0 8
  let k := fld v 8 8
  if 50 < d || !(k == 0xFF || domHas d k) then refusedW .range s
  else
    let s1 := dropVotes (fun w => w.client == .tenant t && w.dom == d) s
    accepted (if k = 0xFF then s1 else addVote { client := .tenant t, dom := d, level := k } s1)

/-- VOTE_SET. -/
def execVoteSet (t : TenantId) (v : BitVec 16) (s : State) : Res := answer (wVoteSet t.val v.toNat s)

/-! ### Events (Table 17-14) -/

/-- An event of Table 17-14. -/
def evPower (typ cause subject frm toward value t : Nat) : Nat :=
  pack [(0, 8, typ), (8, 8, cause), (16, 6, subject), (24, 4, frm), (28, 4, toward), (32, 64, value), (96, 64, t)]

/-- A POWER event of domain `d`. -/
def powerEvent (cause d frm toward : Nat) (s : State) : State :=
  ownerEvent (evPower 0x27 cause d frm toward 0 (now s)) (if cause = 4 then some (0x2704, 2, 0, d) else none) s

/-- A MARGIN event of domain `d`. -/
def marginEvent (cause d : Nat) (s : State) : State :=
  ownerEvent (evPower 0x29 cause d 0 0 (rd s (kPdMarginLimit d)) (now s)) none s

/-- A field of POWER_STATS goes on by `n`: 0 entries, 1 exits, 2 ENTRY_ABORTS, 3 ROUND_TRIPS, 4 + k ns in PSk. -/
def powerStat (d i n : Nat) (s : State) : State :=
  let v := rd s (kPdPowerStats d)
  wr (kPdPowerStats d) (setFld v (64 * i) 64 (wrapAdd 64 (fld v (64 * i) 64) n)) s

/-! ### Clocks (R585, R586) -/

/-- The lowest clock at which every job running or booked on the domain still meets R238 or R291 (R586), or the lower limit with none. -/
def fMin (s : State) (d : Nat) : Nat :=
  (s.work.clocks.filter (fun e => e.1 == d)).foldl (fun a e => max a e.2) (clkMin d)

/-- The limits' clock: min of CLK_SET, THERMAL_LIMIT and MARGIN_LIMIT (R585). -/
def clkLimit (s : State) (d : Nat) : Nat :=
  min (rd s (kPdClkSet d)) (min (rd s (kPdThermalLimit d)) (rd s (kPdMarginLimit d)))

/-- The clock a domain moves to: its limits', held at f_min (R586). -/
def clkGoal (s : State) (d : Nat) : Nat := max (clkLimit s d) (min (fMin s d) (rd s (kPdClkSet d)))

/-- The domain's clock is held above a limit: R100 admits none of its units (R586). -/
def clkHeld (s : State) (d : Nat) : Bool := clkLimit s d < min (fMin s d) (rd s (kPdClkSet d))

/-- CLOCK_HELD is written once while a limit lies below f_min (R586). -/
def clkHeldCheck (d : Nat) (s : State) : State :=
  if clkHeld s d == (domSt s d).heldReason then s
  else
    let s1 := modDom d (fun m => { m with heldReason := clkHeld s d }) s
    if clkHeld s d then powerEvent 5 d (domState s d) (domState s d) s1 else s1

/-! ### The governor (R590) -/

/-- Amplitude in mA of a domain entering or leaving PS0 at its clock (Table 17-7). -/
def stepAmp (s : State) (d : Nat) : Nat :=
  if d < 12 then 300 + 19 * rd s (kPdClkNow d) / 10
  else if d < 20 then 500 + 43 * rd s (kPdClkNow d) / 10
  else if d < 36 then 400
  else if d < 44 then 600
  else if d < 48 then 1200
  else if d = 48 then 800
  else 0

/-- Amplitude in mA of a clock notch in PS0 (Table 17-7). -/
def notchAmp (d : Nat) : Nat := if d < 12 then 190 else 430

/-- The sum of the granted amplitudes of one sign within the last `w` Tc. -/
def grantSum (s : State) (pos : Bool) (w : Nat) : Nat :=
  (s.pow.grants.filter fun g => decide (now s < g.1 + w) && (decide (0 < g.2) == pos)).foldl (fun a g => a + g.2.natAbs) 0

/-- An event of amplitude `a` may be granted now: 40 A in 1 µs, 60 A in 2 µs, per sign (R590). -/
def govAdmits (s : State) (a : Int) : Bool :=
  grantSum s (decide (0 < a)) (usToTc 1) + a.natAbs ≤ 1000 * rd s kPwGovSlope &&
    grantSum s (decide (0 < a)) (usToTc 2) + a.natAbs ≤ 1000 * rd s kPwGovStep

/-- A grant is entered in the accounting, which keeps the last 2 µs. -/
def govRecord (a : Int) (s : State) : State :=
  let kept := s.pow.grants.filter fun g => decide (now s < g.1 + usToTc 2)
  { s with pow := { s.pow with grants := (now s, a) :: kept } }

/-- Time in the state left is added, and the domain takes state `k` (R575). -/
def setDomState (d k : Nat) (s : State) : State :=
  let s1 := powerStat d (4 + min 5 (domState s d)) (tcToNs (now s - (domSt s d).since)) s
  modDom d (fun m => { m with since := now s }) (wr (kPdState d) k s1)

/-- A domain's clock takes another frequency. Jobs on the cores of a cluster have counted their cycles at the one before (R224). -/
def setClk (d f : Nat) (s : State) : State :=
  let count := fun (n : Nat) (c : Core) =>
    if n / 9 = d then { c with ticks := c.ticks + (now s - c.since) * rd s (kPdClkNow d), since := now s } else c
  let s1 := modDom d (fun m => { m with notchAt := some (now s) }) s
  wr (kPdClkNow d) f { s1 with sage := { s.sage with cores := tmap count s.sage.cores, ctxs := s.sage.ctxs.map fun e => (e.1, count e.1 e.2) } }

/-- What a granted event does. -/
def govAct (d : Nat) (a : GovAct) (s : State) : State :=
  match a with
  | .leave toward => modDom d (fun m => { m with trans := .entering toward false }) s
  | .enter => modDom d (fun m => { m with granted := true }) s
  | .notch toward => setClk d toward s

/-- A governed event: granted and done at once, or waiting in order of request, the lower d first on a tie (R590). -/
def govern (d : Nat) (amp : Int) (a : GovAct) (s : State) : State :=
  if s.pow.waits.isEmpty && govAdmits s amp then govAct d a (govRecord amp s)
  else
    let w : GovWait := { dom := d, amp := amp, time := now s, act := a }
    let line := insertBy (fun x y : GovWait => x.time < y.time || (x.time == y.time && x.dom ≤ y.dom)) w s.pow.waits
    bump kPwGovWaits { s with pow := { s.pow with waits := line } }

/-- GOVERNOR_GRANT: the first waiting event, once the limits admit it (R590). -/
def execGovernorGrant (s : State) : Res :=
  match s.pow.waits with
  | [] => done s
  | w :: r => whenDue (govAdmits s w.amp) (fun s =>
      peak kPwGovWaitMax (tcToNs (now s - w.time))
        (govAct w.dom w.act (govRecord w.amp { s with pow := { s.pow with waits := r } }))) s

/-- A notch of the domain's clock waits for its grant, or the last one was less than 1 µs ago (R585). -/
def notchHeld (s : State) (d : Nat) : Bool :=
  (s.pow.waits.any fun w => w.dom == d && (match w.act with
    | .notch _ => true
    | _ => false)) || (match (domSt s d).notchAt with
    | some t => decide (now s < t + usToTc 1)
    | none => false)

/-- One 100 MHz notch of a domain's clock toward its goal (R585). -/
def clockNotch (d : Nat) (s : State) : State :=
  let f := rd s (kPdClkNow d)
  let g := clkGoal s d
  if f = g || notchHeld s d then s
  else
    let toward := if f < g then f + 100 else f - 100
    if domState s d = 0 then govern d (if f < g then (notchAmp d : Int) else -(notchAmp d : Int)) (.notch toward) s
    else setClk d toward s

/-- CLOCK_NOTCH. -/
def execClockNotch (d : Fin 20) (s : State) : Res := done (clkHeldCheck d.val (clockNotch d.val s))

/-- CLK_SET: in range and on a notch; the first notch falls due at the write (R585). -/
def wClkSet (d v : Nat) (s : State) : Written :=
  if v < clkMin d || clkMax d < v || v % 100 != 0 then refusedW .range s
  else
    let s1 := wr (kPdClkSet d) v s
    let s2 := if rd s1 (kPdThermalLimit d) = rd s (kPdClkSet d) then wr (kPdThermalLimit d) v s1 else s1
    accepted (clkHeldCheck d (clockNotch d s2))

/-- CLK_SET. -/
def execClkSet (d : Fin 20) (v : BitVec 16) (s : State) : Res := answer (wClkSet d.val v.toNat s)

/-! ### Sensors (R604 to R606) -/

/-- The domains a sensor lies on (R604). -/
def sensorDoms (n : Nat) : List Nat :=
  let q := n / 16
  let i := n % 16
  if i < 6 then [3 * q + i / 2]
  else if i < 10 then [12 + 2 * q + (i - 6) / 2]
  else if i < 14 then [20 + 4 * q + (i - 10)]
  else if i = 14 then [44 + q]
  else [36 + 2 * q, 37 + 2 * q]

/-- The filtered value of a sensor, 1/16 °C. -/
def tjOf (s : State) (n : Nat) : Int := rdI s (kThTj n) 16

/-- Tj of a domain: the highest filtered value among its sensors; domains 48 and 49 take all 64 (R604). -/
def domTj (s : State) (d : Nat) : Int :=
  let l := (upto 64).filter fun n => 48 ≤ d || (sensorDoms n).contains d
  l.foldl (fun a n => max a (tjOf s n)) (tjOf s (l.headD 0))

/-- Some sensor of the domain has its THROTTLE flag set. -/
def domThrottled (s : State) (d : Nat) : Bool :=
  (upto 64).any fun n => (sensorDoms n).contains d && bitAt (rd s (kThSensorFlags n)) 1

/-- A THERMAL event: 1 WARN set, 2 THROTTLE set, 3 WARN cleared, 4 THROTTLE cleared, 5 TRIP. -/
def thermalEvent (cause n : Nat) (tj : Int) (s : State) : State :=
  ownerEvent (evPower 0x28 cause n 0 0 (ofInt 64 tj) (now s))
    (if cause = 2 then some (0x2802, 1, 0, n) else if cause = 5 then some (0x2805, 3, 0, 0) else none) s

/-- THERMAL_LIMIT of a domain falls by one notch, subject to R586. -/
def throttleNotch (d : Nat) (s : State) : State :=
  let v := rd s (kPdThermalLimit d)
  let s1 := wr (kPdThermalLimit d) (max (clkMin d) (v - 100)) s
  clkHeldCheck d (clockNotch d (modDom d (fun m => { m with thermalStep := now s }) s1))

/-- One flag of a sensor under its threshold, hysteresis and dwell (R605): bit 0 WARN, bit 1 THROTTLE. -/
def flagStep (n bit isOver under : Nat) (tj : Int) (s : State) : State :=
  let set := bitAt (rd s (kThSensorFlags n)) bit
  if !set && rd s kThDwell ≤ isOver then
    let s1 := thermalEvent (1 + bit) n tj (wr (kThSensorFlags n) (setFld (rd s (kThSensorFlags n)) bit 1 1) s)
    if bit = 1 then each ((sensorDoms n).filter (· < 20)) throttleNotch s1 else s1
  else if set && rd s kThDwell ≤ under then
    thermalEvent (3 + bit) n tj (wr (kThSensorFlags n) (setFld (rd s (kThSensorFlags n)) bit 1 0) s)
  else s

/-- A sample that is not above the critical threshold: the filter and the two flags (R604, R605). -/
def sensorFilter (n : Nat) (raw : Int) (s : State) : State :=
  let m := tget s.pow.sensors n {}
  let l := (raw :: m.samples).take 16
  let tj := l.foldl (· + ·) 0 / (l.length : Int)
  let warn : Int := 16 * (rd s (kThTjTh 0) : Int)
  let thr : Int := 16 * (rd s (kThTjTh 1) : Int)
  let hys : Int := 16 * (rd s kThHysteresis : Int)
  let run := fun (b : Bool) (c : Nat) => if b then c + 1 else 0
  let m1 : SensorSt :=
    { samples := l, warnOver := run (warn < tj) m.warnOver, warnUnder := run (tj ≤ warn - hys) m.warnUnder,
      thrOver := run (thr < tj) m.thrOver, thrUnder := run (tj ≤ thr - hys) m.thrUnder }
  let s1 := wrI (kThTj n) 16 tj { s with pow := { s.pow with sensors := tset n m1 s.pow.sensors } }
  let s2 := wrI kThTjMax 16 (max (rdI s kThTjMax 16) tj) s1
  flagStep n 1 m1.thrOver m1.thrUnder tj (flagStep n 0 m1.warnOver m1.warnUnder tj s2)

/-- THROTTLE_STEP: every 10 ms under THROTTLE, THERMAL_LIMIT falls a notch (R606). -/
def execThrottleStep (d : Fin 20) (s : State) : Res :=
  whenDue (domThrottled s d.val && (domSt s d.val).thermalStep + msToTc 10 ≤ now s) (throttleNotch d.val) s

/-- THROTTLE_RECOVER_STEP: every 100 ms with every flag clear, THERMAL_LIMIT rises a notch (R606). -/
def execThrottleRecoverStep (d : Fin 20) (s : State) : Res :=
  whenDue (!domThrottled s d.val && rd s (kPdThermalLimit d.val) < rd s (kPdClkSet d.val) &&
      (domSt s d.val).thermalStep + msToTc 100 ≤ now s) (fun s =>
    clkHeldCheck d.val (clockNotch d.val (modDom d.val (fun m => { m with thermalStep := now s })
      (wr (kPdThermalLimit d.val) (min (rd s (kPdClkSet d.val)) (rd s (kPdThermalLimit d.val) + 100)) s)))) s

/-! ### Margins (R587 to R589) -/

/-- A margin record captured now (Table 17-6). -/
def marginCapture (s : State) (d fSafe supply cls : Nat) : Nat :=
  pack [(0, 8, 1), (16, 16, fSafe), (32, 16, ofInt 16 (domTj s d)), (48, 16, supply), (64, 2, cls), (128, 64, now s)]

/-- A record becomes stale: STALE and GUARDED, MARGIN_LIMIT F_SAFE less one notch at once (R588). -/
def marginStale (d : Nat) (s : State) : State :=
  let r := rd s (kPdMarginRecord d)
  if bitAt r 8 then s
  else
    let s1 := wr (kPdMarginRecord d) (setFld (setFld r 8 1 1) 9 1 1) s
    let s2 := modDom d (fun m => { m with staleSince := some (now s) }) s1
    clkHeldCheck d (clockNotch d (marginEvent 1 d (wr (kPdMarginLimit d) (fld r 16 16 - 100) s2)))

/-- MARGIN_CONTEXT_CHECK: once per second the record is compared with the present context (R588). `supply` is VDD_CORE at the
domain in mV, `cls` the load class. -/
def execMarginContextCheck (d : Fin 20) (supply : BitVec 16) (cls : BitVec 2) (s : State) : Res :=
  let r := rd s (kPdMarginRecord d.val)
  whenDue (fld r 0 8 == 1 &&
    (16 * rd s kPwWinTemp < (domTj s d.val - toInt 16 (fld r 32 16)).natAbs ||
     rd s kPwWinSupply < ((supply.toNat : Int) - (fld r 48 16 : Int)).natAbs ||
     cls.toNat != fld r 64 2 ||
     secToTc (3600 * rd s kPwWinAge) < now s - fld r 128 64)) (marginStale d.val) s

/-- Re-centring: F_SAFE and MARGIN_LIMIT taken anew, the record captured, STALE, GUARDED and DROOP clear (R588). -/
def marginRecentre (d fSafe supply cls : Nat) (s : State) : State :=
  let s1 := wr (kPdMarginRecord d) (marginCapture s d fSafe supply cls) (wr (kPdMarginLimit d) fSafe s)
  clkHeldCheck d (clockNotch d (marginEvent 2 d (modDom d (fun m => { m with staleSince := none }) s1)))

/-- MARGIN_RECENTRE: due within 1 s of sustained load, or 10 s after the record became stale (R588). `fSafe` is what the
monitors find. -/
def execMarginRecentre (d : Fin 20) (fSafe supply : BitVec 16) (cls : BitVec 2) (sustained : Bool) (s : State) : Res :=
  whenDue (match (domSt s d.val).staleSince with
    | some t => sustained || t + secToTc 10 ≤ now s
    | none => false) (marginRecentre d.val fSafe.toNat supply.toNat cls.toNat) s

/-- RECENTRE: 1 re-centres now. -/
def wDomainRecentre (d v fSafe supply cls : Nat) (s : State) : Written :=
  if v = 1 then accepted (marginRecentre d fSafe supply cls s) else refusedW .range s

/-- DOMAIN_RECENTRE. -/
def execDomainRecentre (d : Fin 20) (v : Byte) (fSafe supply : BitVec 16) (cls : BitVec 2) (s : State) : Res :=
  answer (wDomainRecentre d.val v.toNat fSafe.toNat supply.toNat cls.toNat s)

/-- DROOP_DETECT: a droop deeper than DROOP_TH below TAG_SUPPLY for 10 ns in load class 2 (R589). -/
def execDroopDetect (d : Fin 20) (supply : BitVec 16) (cls : BitVec 2) (s : State) : Res :=
  let r := rd s (kPdMarginRecord d.val)
  whenDue (cls == 2 && supply.toNat + rd s kPwDroopTh < fld r 48 16) (fun s =>
    let s1 := wr (kPdMarginLimit d.val) (rd s (kPdMarginLimit d.val) - 100) s
    let s2 := wr (kPdMarginRecord d.val) (setFld (setFld (setFld r 8 1 1) 9 1 1) 10 1 1) s1
    let s3 := modDom d.val (fun m => { m with staleSince := some (m.staleSince.getD (now s)) }) s2
    let f := rd s3 (kPdClkNow d.val)
    let s4 := if clkGoal s3 d.val < f then setClk d.val (f - 100) (govRecord (-(notchAmp d.val : Int)) s3) else s3
    clkHeldCheck d.val (marginEvent 3 d.val s4)) s

/-! ### Entries and exits (R580 to R584) -/

/-- A domain may begin an entry to PS`t`: a channel begins none to PS2 or deeper while a request is queued or it is frozen or
retraining, and none to self-refresh while it owes a refresh (R514). -/
def mayEnter (s : State) (d t : Nat) : Bool :=
  if 36 ≤ d && d < 44 then
    let c := d - 36
    let ch := tget s.dram.chans c {}
    let st := rd s (kDcState c)
    t < 2 || (ch.readQ.isEmpty && ch.writeQ.isEmpty && ch.waiting.isEmpty && st != 3 && st != 4 &&
      (t < 4 || ch.ranks.all fun r => r.2.owed == 0))
  else true

/-- DOMAIN_ENTRY_START: a domain whose target is deeper starts its entry; leaving PS0 is a governed event (R580, R590). -/
def execDomainEntryStart (d : DomId) (s : State) : Res :=
  let t := domTarget s d.val
  whenDue ((domSt s d.val).trans == .none && domState s d.val < t && domHas d.val t && mayEnter s d.val t) (fun s =>
    if domState s d.val = 0 then govern d.val (-(stepAmp s d.val : Int)) (.leave t) s
    else govAct d.val (.leave t) s) s

/-- The exit of a domain starts. -/
def startExit (d : Nat) (s : State) : State := modDom d (fun m => { m with trans := .exiting }) s

/-- DOMAIN_ENTRY_DONE: the domain is in its target state, a channel in power-down or self-refresh (Table 14-8); a latched wake is replayed
and pays the round trip (R581, R582). -/
def execDomainEntryDone (d : DomId) (s : State) : Res :=
  match (domSt s d.val).trans with
  | .entering toward _ =>
    let s1 := if 4 ≤ toward then { s with pow := { s.pow with saveLists := tset d.val true s.pow.saveLists } } else s
    let st := rd s1 (kDcState (d.val - 36))
    let s0 := if 36 ≤ d.val && d.val < 44 && (st = 2 || st = 5) && 2 ≤ toward then wr (kDcState (d.val - 36)) (if 4 ≤ toward then 6 else 5) s1 else s1
    let s2 := powerStat d.val 0 1 (setDomState d.val toward (modDom d.val (fun m => { m with trans := .none }) s0))
    done (if (domSt s d.val).wakeLatched then
        startExit d.val (powerEvent 1 d.val (domState s d.val) toward (powerStat d.val 3 1
          (modDom d.val (fun m => { m with wakeLatched := false }) s2)))
      else s2)
  | _ => done s

/-- A wake event of a domain (R582): before the point of no return it aborts the entry, in the cycle of the clamps or later it
is latched; a domain at rest below what is wanted starts its exit. PS1 has no point of no return. -/
def domainWake (d : Nat) (clampsClosed : Bool) (s : State) : State :=
  match (domSt s d).trans with
  | .entering toward past =>
    if (clampsClosed || past) && 2 ≤ toward then modDom d (fun m => { m with wakeLatched := true, trans := .entering toward true }) s
    else powerEvent 2 d (domState s d) toward (powerStat d 2 1 (modDom d (fun m => { m with trans := .none }) s))
  | .exiting => s
  | .none => if 0 < domState s d then startExit d s else s

/-- DOMAIN_WAKE. -/
def execDomainWake (d : DomId) (clampsClosed : Bool) (s : State) : Res := done (domainWake d.val clampsClosed s)

/-- VBAT_MEASURE: once per minute while D0 runs; VBAT_LOW once below the threshold, and again only after a rise of
100 mV above it (R602). -/
def execVbatMeasure (mv : BitVec 16) (s : State) : Res :=
  let s1 := wr kPwVbat mv.toNat s
  let th := rd s kPwVbatLowTh
  done (if mv.toNat < th && !s.pow.vbatLow then
      ownerEvent (evPower 0x2A 0 0 0 0 mv.toNat (now s)) none { s1 with pow := { s1.pow with vbatLow := true } }
    else if th + 100 ≤ mv.toNat then { s1 with pow := { s1.pow with vbatLow := false } } else s1)

end Sys2Proof.Machine
end

