-- ==== Sys2Proof/Machine/Air.lean ====
section
/-!
DEFINITION. Frame timing and symbol boundaries of a carrier instance (R73, R452), its fronthaul windows (R432, R436), and the
quadrants, distances and locations of units (R27, R96).
-/
namespace Sys2Proof.Machine

/-! ### Carrier instances (Table 13-1, R452) -/

/-- The descriptor of CI `c`. -/
def ciDesc (s : State) (c : Nat) : Nat := rd s (kCiCiConfig c)
/-- Fields of the descriptor. -/
def ciAir (d : Nat) : Nat := fld d 0 3
def ciValid (d : Nat) : Bool := bitAt d 3
def ciMu (d : Nat) : Nat := if ciAir d = 0 then fld d 8 2 else 0
def ciExt (d : Nat) : Bool := bitAt d 10
def ciUl3k (d : Nat) : Bool := bitAt d 11
def ciPrbs (d : Nat) : Nat := fld d 16 9
def ciOfs (d : Nat) : Nat := fld d 64 25
/-- Subcarriers: 12 to a PRB; 48 at 3.75 kHz on the NB-IoT uplink (DEDUCED, log 13). -/
def ciSubcarriers (d : Nat) (rx : Bool) : Nat := if rx && ciUl3k d then 48 else 12 * ciPrbs d

/-- Tc of a slot or subframe (R452). -/
def slotLen (d : Nat) : Nat := 1966080 / 2 ^ ciMu d
/-- Slots or subframes of a frame. -/
def slotCount (d : Nat) : Nat := 10 * 2 ^ ciMu d
/-- OFDM symbols of a slot or subframe: none on SUN (R452; PRESUMED from 3GPP TS 38.211 and TS 36.211, log 13). -/
def slotSymbols (d : Nat) : Nat := if ciAir d = 4 then 0 else if ciExt d then 12 else 14

/-- Tc from the start of a slot to the start of symbol `k` (PRESUMED from 3GPP TS 38.211 clause 5.3.1, log 13). `slot` is the
slot number in its frame: the longer prefix falls on every half millisecond. -/
def symStart (d slot k : Nat) : Nat :=
  let u := 2 ^ ciMu d
  if ciExt d then k * ((131072 + 32768) / u)
  else
    let base := (131072 + 9216) / u
    let half := 7 * u
    let first := slot % u * 14
    let longs := (upto k).filter fun i => (first + i) % half == 0
    k * base + 1024 * longs.length

/-- AIR_START names a slot or subframe boundary with its SFN and SLOT; a SUN CI gives 0 for both (R73, R452). -/
def slotMatches (d air sfn slot : Nat) : Bool :=
  if ciAir d = 4 then sfn == 0 && slot == 0
  else ciOfs d ≤ air && slot < slotCount d &&
    (air - ciOfs d) % 19660800 == slotLen d * slot && (air - ciOfs d) / 19660800 % 1024 == sfn

/-! ### Antenna-carrier streams -/

/-- The descriptor of AxC `n`, 0 when it is not bound (Table 12-3). -/
def axcDesc (s : State) (n : Nat) : Nat := tget s.radio.axcs n 0
def axcBound (s : State) (n : Nat) : Bool := bitAt (axcDesc s n) 0
def axcLane (s : State) (n : Nat) : Nat := axcPort (axcDesc s n)

/-- Air start of received symbol `k` of a slot; on an NB-IoT uplink at 3.75 kHz, symbols of 8,448 Ts fill a slot of 2 ms that starts at
an even subframe (R452; lengths PRESUMED from TS 36.211 clause 10.1, log 13). -/
def rxSymStart (d air slot k : Nat) : Nat :=
  if ciUl3k d then air + k * 540672 - slot % 2 * 1966080 else air + symStart d slot k

/-- The close of the receive window of symbol `k` on an AxC (R432). -/
def rxClose (s : State) (ci air slot sec axc k : Nat) : Nat :=
  if sec = 1 then air + usToTc (fld (axcDesc s axc) 176 16)
  else rxSymStart (ciDesc s ci) air slot (k + 1) + nsToTc (rd s (kPoRxClose (axcLane s axc)))

/-- The open and the close of the transmit window of symbol `k` on an AxC (R436). -/
def txOpen (s : State) (ci air slot axc k : Nat) : Nat :=
  air + symStart (ciDesc s ci) slot k - nsToTc (rd s (kPoTxOpen (axcLane s axc)))
def txClose (s : State) (ci air slot axc k : Nat) : Nat :=
  air + symStart (ciDesc s ci) slot k - nsToTc (rd s (kPoTxClose (axcLane s axc)))

/-- Symbols set in a mask. -/
def symsOf (mask : Nat) : List Nat := (upto 14).filter (bitAt mask)
/-- AxC a fronthaul buffer names. -/
def axcsOf (b : BufD) : List Nat := span b.axcFirst b.axcCount

/-- When an FH_RX buffer is predicted ready: the last close of its windows (R64, R96). -/
def fhReadyTime (s : State) (g : Graph) (b : BufD) : Nat :=
  (axcsOf b).foldl (fun m a => (symsOf b.symMask).foldl
    (fun m k => max m (rxClose s g.ci g.air g.slot b.secClass a k)) m) 0

/-- The first transmit opening of an FH_TX buffer less the transmit advance (R65). -/
def fhTxLimit (s : State) (g : Graph) (b : BufD) : Nat :=
  let k := (symsOf b.symMask).headD 0
  let opens := (axcsOf b).map fun a => txOpen s g.ci g.air g.slot a k
  opens.foldl min (opens.headD 0) - nsToTc 2000

/-! ### Units (R27, R28, R96) -/

/-- First unit number of engines and of cluster DMA engines. -/
def engUnit (e : Nat) : Nat := 108 + e
def dmaUnit (c : Nat) : Nat := 228 + c
def isCore (u : Nat) : Bool := u < 108
def isEngine (u : Nat) : Bool := 108 ≤ u && u < 228
/-- Dispatch class of a unit (R135). -/
def unitClass (u : Nat) : Nat := if isCore u then 0 else if isEngine u then classOf (u - 108) else 11
/-- Quadrant of a unit. -/
def unitQuad (u : Nat) : Nat := if isCore u then u / 27 else if isEngine u then (u - 108) / 30 else (u - 228) / 3
/-- Power domain of a unit (Table 17-1). -/
def unitDom (u : Nat) : Nat := if isCore u then u / 9 else if isEngine u then 12 + (u - 108) / 15 else u - 228
/-- Packed location code of a unit; of the cluster for a DMA engine. -/
def unitLoc (u : Nat) : Nat :=
  if isCore u then locCore u else if isEngine u then locEngine (u - 108)
  else pack [(61, 3, 4), (58, 2, (u - 228) / 3), (54, 4, 1), (48, 6, u - 228)]
/-- Router of a unit's block (Table 16-1): cluster or group. -/
def routerAt (q lx ly : Nat) : Nat :=
  8 * (if q / 2 = 0 then ly else 7 - ly) + (if q % 2 = 0 then lx else 7 - lx)
def clusterRouter (c : Nat) : Nat :=
  match c % 3 with
  | 0 => routerAt (c / 3) 1 1
  | 1 => routerAt (c / 3) 2 1
  | _ => routerAt (c / 3) 1 2
def groupRouter (g : Nat) : Nat := if g % 2 = 0 then routerAt (g / 2) 2 2 else routerAt (g / 2) 3 1
def dramRouter (n : Nat) : Nat := routerAt (n / 2) 0 (1 + n % 2)
def bankRouter (q b : Nat) : Nat := routerAt q (b % 4) (b / 4)
def quadRouter (l : Nat) : Nat := routerAt (l / 4) (l % 4) 0
def hostRouter : Nat := 28
def unitRouter (u : Nat) : Nat :=
  if isCore u then clusterRouter (u / 9) else if isEngine u then groupRouter ((u - 108) / 15) else clusterRouter (u - 228)

/-- Blocks without a quadrant are numbered 4 host link, 5 management complex, 6 timing (R96). -/
def hostQuad : Nat := 4

/-- Quadrant distance (R96). -/
def quadDist (a b : Nat) : Nat :=
  if a = b then 0
  else if a < 4 && b < 4 then
    (if a % 2 = b % 2 then 0 else 1) + (if a / 2 = b / 2 then 0 else 1)
  else 1

/-- Exit time of a per-domain state, ns (Table 17-2). -/
def exitNs (k : Nat) : Nat := [0, 20, 200, 2000, 20000, 200000].getD k 200000

end Sys2Proof.Machine
end

