-- ==== Sys2Proof/Machine/Dram.lean ====
section
/-!
DEFINITION. The DRAM controller (14_dram.md): configuration, address mapping, requests and their order, refresh,
training, calibration records, errors, freeze and resume.
-/
namespace Sys2Proof.Machine

/-! ### Configuration and address map (R471 to R479) -/

/-- DDR_GEN as strapped: 1 is DDR5 (R471). -/
def ddr5 (s : State) : Bool := bitAt s.boot.straps 2
/-- Gigabits of a device at DENSITY. -/
def densityGb (d : Nat) : Nat := [8, 16, 32].getD d 0
/-- Bytes of a rank: 16 x4 data devices (Table 14-1). -/
def rankBytes (s : State) : Nat := densityGb (rd s kDrDensity) * 2 ^ 31
/-- Bytes of a channel, the training area included. -/
def chanBytes (s : State) : Nat := rankBytes s * rd s kDrRanks
/-- The DRAM channels of CHANNELS. -/
def chanList (s : State) : List Nat := (upto 8).filter (bitAt (rd s kDrChannels))
/-- First global address of device DRAM (R476). -/
def dramBase : Nat := 0x8000000000

/-- The configuration is one of Table 14-1 with at most 64 GiB a channel (R473). -/
def dramConfigOk (s : State) : Bool :=
  let d := rd s kDrDensity
  let r := rd s kDrDataRate
  (if ddr5 s then (r == 4800 || r == 5600 || r == 6400) && (d == 1 || d == 2)
   else (r == 2400 || r == 2666 || r == 2933 || r == 3200) && (d == 0 || d == 1)) &&
    (rd s kDrRanks == 1 || rd s kDrRanks == 2) && chanBytes s ≤ 64 * 2 ^ 30 && rd s kDrChannels != 0

/-- The channel of an offset `a` in device DRAM and its channel-local offset (Table 14-2). -/
def dramMap (s : State) (a : Nat) : Nat × Nat :=
  match (chanList s).length with
  | 2 => (4 * (fld a 8 1 ^^^ fld a 13 1 ^^^ fld a 18 1), a / 2 ^ 9 * 256 + a % 256)
  | 4 => (2 * (fld a 8 2 ^^^ fld a 13 2 ^^^ fld a 18 2), a / 2 ^ 10 * 256 + a % 256)
  | 8 => (fld a 8 3 ^^^ fld a 13 3 ^^^ fld a 18 3, a / 2 ^ 11 * 256 + a % 256)
  | _ => (0, a)

/-- A location inside a channel (Table 14-3): subchannel, bank group, bank, row, rank and column line. -/
structure DramLoc where
  sc : Nat
  bg : Nat
  bank : Nat
  row : Nat
  rank : Nat
  col : Nat
deriving DecidableEq, Repr

/-- The device location of a channel-local offset (Table 14-3). -/
def dramLoc (s : State) (al : Nat) : DramLoc :=
  let rank := al / rankBytes s
  let x := al % rankBytes s
  if ddr5 s then
    { sc := fld x 6 1, bg := fld x 8 3, bank := fld x 17 2, row := x / 2 ^ 19, rank := rank,
      col := fld x 7 1 + 2 * fld x 11 6 }
  else
    { sc := 0, bg := fld x 8 2, bank := fld x 15 2, row := x / 2 ^ 17, rank := rank,
      col := fld x 6 1 + 2 * fld x 7 1 + 4 * fld x 10 1 + 8 * fld x 11 4 }

/-- One number for the bank of a location. -/
def bankKey (l : DramLoc) : Nat := l.bank + 4 * l.bg + 32 * l.sc + 64 * l.rank

/-- The device location of a global line address on its channel. -/
def lineLoc (s : State) (line : Nat) : DramLoc := dramLoc s (dramMap s (line - dramBase)).2

/-- Channel `c` and its record changed. -/
def chan (s : State) (c : Nat) : DramCh := tget s.dram.chans c {}
def modChan (c : Nat) (f : DramCh → DramCh) (s : State) : State :=
  { s with dram := { s.dram with chans := tmod s.dram.chans c {} f } }
/-- What channel `c` keeps of rank `r`, and that changed. -/
def rankSt (s : State) (c r : Nat) : RankSt := tget (chan s c).ranks r {}
def modRank (c r : Nat) (f : RankSt → RankSt) (s : State) : State :=
  modChan c (fun ch => { ch with ranks := tmod ch.ranks r {} f }) s
/-- A count of DRAM_STATS goes on. -/
def dramStat (c i : Nat) (s : State) : State := bump (kDcDramStats c i) s
/-- The state of a channel (Table 14-10): 2 running, 3 frozen, 4 retraining, 7 failed. -/
def chanState (s : State) (c : Nat) : Nat := rd s (kDcState c)
/-- The channel is installed and trained: neither stopped, training nor failed. -/
def chanUp (s : State) (c : Nat) : Bool := 2 ≤ chanState s c && chanState s c ≤ 6
/-- The channel serves requests: DRAM is RUNNING, and the channel neither frozen nor retraining nor in self-refresh (R475, R506). -/
def chanServes (s : State) (c : Nat) : Bool := rd s kDrState == 2 && (chanState s c == 2 || chanState s c == 5)

/-! ### Events (Table 14-9) -/

/-- A DRAM event. -/
def evDram (typ cause c rank dev value t : Nat) : Nat :=
  pack [(0, 8, typ), (8, 8, cause), (16, 3, c), (19, 1, rank), (24, 5, dev), (32, 64, value), (96, 64, t)]

/-- A DRAM event for the owner, in the history where Table 19-13 lists it. -/
def dramEvent (typ cause c rank dev value : Nat) (s : State) : State :=
  let hist := if (typ = 0x20 && cause ≤ 2) || typ = 0x22 then
      some (typ * 256 + cause, 2, locDram c, if typ = 0x22 && cause = 2 then dev else value % 2 ^ 32)
    else none
  ownerEvent (evDram typ cause c rank dev value (now s)) hist s

/-! ### Urgency and order (R484 to R488) -/

/-- `pct` percent of the target of a port has passed since `arrival`. -/
def agedPct (s : State) (r : DReq) (pct : Nat) : Bool :=
  pct * rd s (kDrTarget r.port) * 6144 ≤ (now s - r.arrival) * 3125 * 100

/-- The urgency of a request (R485). -/
def urgency (s : State) (r : DReq) : Nat :=
  if agedPct s r 90 then 3 else if agedPct s r 75 then 2 else if agedPct s r 50 then 1 else 0

/-- Urgency of a queued write: its own; the drain level; that of a read that waits for it (R486, R487). -/
def writeUrgency (s : State) (ch : DramCh) (r : DReq) : Nat :=
  let own := max (urgency s r) (if ch.drain then 2 else 0)
  (ch.readQ.filter (fun q => q.line == r.line)).foldl (fun m q => max m (urgency s q)) own

/-- The row of a request is open in its bank. -/
def rowHit (s : State) (ch : DramCh) (r : DReq) : Bool :=
  let l := lineLoc s r.line
  tfind (bankKey l) ch.openRows == some l.row

/-- A read waits while a write of its line that came before it is queued; a write waits behind an earlier read (R487). -/
def readBlocked (ch : DramCh) (r : DReq) : Bool := ch.writeQ.any fun w => w.line == r.line && !w.afterRead
def writeBlocked (ch : DramCh) (w : DReq) : Bool := w.afterRead && ch.readQ.any fun r => r.line == w.line

/-- The order of the scheduler (R486): urgency, a read before a write, a row hit before a miss, the oldest. -/
def schedKey (s : State) (ch : DramCh) (r : DReq) : Nat :=
  let u := if r.write.isSome then writeUrgency s ch r else urgency s r
  (u * 2 + b2n r.write.isNone) * 2 + b2n (rowHit s ch r)

/-- Does `a` go before `b`? -/
def schedBefore (s : State) (ch : DramCh) (a b : DReq) : Bool :=
  schedKey s ch b < schedKey s ch a || (schedKey s ch a == schedKey s ch b && a.arrival < b.arrival)

/-- The first of a list in scheduler order. -/
def schedBest (s : State) (ch : DramCh) : List DReq → Option DReq
  | [] => none
  | a :: r => match schedBest s ch r with
    | none => some a
    | some b => if schedBefore s ch b a then some b else some a

/-- The request the scheduler takes next. -/
def schedNext (s : State) (c : Nat) : Option DReq :=
  let ch := chan s c
  schedBest s ch (ch.readQ.filter (!readBlocked ch ·) ++ ch.writeQ.filter (!writeBlocked ch ·))

/-! ### Activates and neighbour refresh (R493, R494) -/

/-- The lowest count of an activate table. -/
def raaMin (t : List (Nat × Nat)) : Nat := t.foldl (fun m e => min m e.2) (2 ^ 32)

/-- An activate of a row in the table of its bank (R493). -/
def raaAdd (row : Nat) (t : List (Nat × Nat)) : List (Nat × Nat) :=
  if t.any (·.1 == row) then updFirst (·.1 == row) (fun e => (e.1, e.2 + 1)) t
  else if t.length < 16 then t ++ [(row, 1)]
  else updFirst (·.2 == raaMin t) (fun e => (row, e.2 + 1)) t

/-- The commands of a neighbour refresh: a same-bank RFM on DDR5; on DDR4 the rows on each side that the bank has (R494). -/
def neighbourCommands (s : State) (c bank row : Nat) : List Output :=
  if ddr5 s then [.dramCommand c 2 bank row]
  else (upto (rd s kDrNeighbour)).flatMap fun k =>
    (if k + 1 ≤ row then [.dramCommand c 3 bank (row - (k + 1))] else []) ++
      (if row + k + 1 < rankBytes s / 2 ^ 17 then [.dramCommand c 3 bank (row + k + 1)] else [])

/-- A row is activated: counted, and its neighbours refreshed when the count reaches RAA_TH (R494). -/
def activate (c : Nat) (l : DramLoc) (s : State) : State :=
  let t := raaAdd l.row (tget (chan s c).raa (bankKey l) [])
  let hot := t.any fun e => e.1 == l.row && rd s kDrRaaTh ≤ e.2
  let t1 := if hot then updFirst (·.1 == l.row) (fun e => (e.1, 0)) t else t
  let s1 := dramStat c 4 (modChan c (fun ch =>
    { ch with openRows := tset (bankKey l) l.row ch.openRows, raa := tset (bankKey l) t1 ch.raa }) s)
  if hot then each (neighbourCommands s c (bankKey l) l.row) send (dramStat c 7 s1) else s1

/-- The row of a line is opened: a hit, or an activate (R486, R493). -/
def openRow (c : Nat) (r : DReq) (s : State) : State :=
  if rowHit s (chan s c) r then dramStat c 3 s else activate c (lineLoc s r.line) s

/-! ### Taking requests in (R481, R486, R487) -/

/-- The line is stored with the poison check value (R482). -/
def poisoned (s : State) (line : Nat) : Bool := s.dram.poison.contains line
def setPoison (line : Nat) (s : State) : State :=
  if poisoned s line then s else { s with dram := { s.dram with poison := s.dram.poison ++ [line] } }
def clearPoison (line : Nat) (s : State) : State :=
  { s with dram := { s.dram with poison := s.dram.poison.filter (· != line) } }

/-- Is a request full-line? -/
def fullLine (w : Nat × List Byte) : Bool := w.1 == 0 && 64 ≤ w.2.length

/-- The bytes of a write, as every later read of the line sees them (R482, R487, R565): a partial write of a poisoned line
leaves it poisoned, a full-line write replaces the poison. -/
def applyLineWrite (r : DReq) (s : State) : State :=
  match r.write with
  | none => s
  | some w =>
    if fullLine w then clearPoison r.line (store r.line w.2 s)
    else if poisoned s r.line then s
    else store (r.line + w.1) w.2 s

/-- A request enters its queue. A read takes the data its place in the line's order gives it; a write that matches a
queued write joins that entry; drain starts at 48 writes (R486, R487). -/
def enterQueue (c : Nat) (r : DReq) (s : State) : State :=
  let ch := chan s c
  if r.write.isNone then
    let s1 := if ch.writeQ.any (·.line == r.line) then dramStat c 16 s else s
    modChan c (fun ch => { ch with readQ := ch.readQ ++ [{ r with read := load s r.line 64, bad := poisoned s r.line }] }) s1
  else
    let s1 := applyLineWrite r s
    if ch.writeQ.any (fun q => q.line == r.line && !(ch.readQ.any (·.line == r.line) && !q.afterRead)) then
      let merge := fun (q : DReq) => if fullLine (r.write.getD (0, [])) then { q with write := r.write } else q
      modChan c (fun ch => { ch with writeQ := updFirst (·.line == r.line) merge ch.writeQ }) s1
    else
      let q := { r with afterRead := ch.readQ.any (·.line == r.line) }
      modChan c (fun ch => { ch with writeQ := ch.writeQ ++ [q], drain := ch.drain || 48 ≤ ch.writeQ.length + 1 }) s1

/-- Room for a request in its queue: 128 reads, 64 writes (R486). -/
def queueRoom (ch : DramCh) (write : Bool) : Bool :=
  if write then ch.writeQ.length < 64 else ch.readQ.length < 128

/-- Requests waiting at the router enter while there is room, oldest first. -/
def admitWaiting (c : Nat) : Nat → State → State
  | 0, s => s
  | n + 1, s => match (chan s c).waiting with
    | [] => s
    | r :: rest =>
      if queueRoom (chan s c) r.write.isSome then
        admitWaiting c n (enterQueue c { r with arrival := now s } (modChan c (fun ch => { ch with waiting := rest }) s))
      else s

/-- A request enters a channel queue, or waits at the router when full (R486). A line outside installed DRAM, DRAM that is not RUNNING
(R474, R475), or ports 0 and 1 while the channel is frozen (R507): an error response at once. -/
def dramAccess (r : DReq) (addr : Nat) (s : State) : State :=
  let c := (dramMap s (addr - dramBase)).1
  if addr < dramBase || dramBase + rd s kDrCapacity ≤ addr || rd s kDrState ≠ 2 || !chanUp s c || (chanState s c == 3 && r.port ≤ 1) then
    send (.completerAbort r.tenant) (accessError (locDram c) r.tenant 4 addr s)
  else
    let s1 := if chanState s c = 5 then wr (kDcState c) 2 s else s
    if (chan s1 c).waiting.isEmpty && queueRoom (chan s1 c) r.write.isSome then enterQueue c r s1
    else modChan c (fun ch => { ch with waiting := ch.waiting ++ [r] }) s1

/-- DRAM_REQUEST: `data` absent is a read of a line; else the write's bytes. -/
def execDramRequest (port : Fin 16) (tenant : TenantId) (job addr : Nat) (data : Option (List Byte)) (s : State) : Res :=
  let line := addr / 64 * 64
  done (dramAccess { port := port.val, tenant := tenant.val, job := job, line := line,
                     write := data.map fun d => (addr - line, d.take (64 - (addr - line))), arrival := now s } addr s)

/-! ### Serving (R481, R482, R489) -/

/-- Line transfers counted for a tenant, but not on ports 0, 1, 3 and 6 (R489). -/
def meterLines (r : DReq) (n : Nat) (s : State) : State :=
  if r.port = 0 || r.port = 1 || r.port = 3 || r.port = 6 then s else lineUse r.tenant r.job n s

/-- The largest latency of a port. -/
def latency (c : Nat) (r : DReq) (s : State) : State := peak (kDcLatencyMax c r.port) (tcToNs (now s - r.arrival)) s

/-- A write leaves the queue for DRAM: a partial write is a read-modify-write (R481, R489). -/
def performWrite (c : Nat) (r : DReq) (s : State) : State :=
  let full := fullLine (r.write.getD (0, []))
  let s0 := if urgency s r = 3 then dramStat c 15 s else s
  let s1 := openRow c r (modChan c (fun ch =>
    let q := dropFirst (· == r) ch.writeQ
    { ch with writeQ := q, drain := ch.drain && 16 < q.length }) s0)
  admitWaiting c 64 (latency c r (if full then meterLines r 1 (dramStat c 1 s1) else meterLines r 2 (dramStat c 2 s1)))

/-- The full-line writes that the scheduler takes before its next read or read-modify-write are performed. -/
def serveWrites (c : Nat) : Nat → State → State
  | 0, s => s
  | n + 1, s => match schedNext s c with
    | some r => if r.write.isSome && fullLine (r.write.getD (0, [])) then serveWrites c n (performWrite c r s) else s
    | none => s

/-- The snapshot of a freeze (Table 14-7). -/
def freezeSnapshot (s : State) (c cause : Nat) (r : DReq) (devices syndrome : Nat) : Nat :=
  let l := lineLoc s r.line
  let ch := chan s c
  pack [(0, 8, 1), (8, 8, cause), (16, 4, r.port), (20, 1, l.rank), (21, 1, l.sc), (24, 3, l.bg), (27, 2, l.bank),
    (32, 18, l.row), (64, 7, l.col), (80, 9, r.tenant), (96, 16, r.job), (112, 16, devices), (128, 64, r.line),
    (192, 64, now s), (256, 128, syndrome), (384, 8, ch.readQ.length), (392, 8, ch.writeQ.length),
    (400, 3, (rankSt s c l.rank).owed), (408, 3, if cause = 2 then ch.replays else 0),
    (416, 16, rd s (kDcTemp c))]

/-- A channel freezes (R506, R510). -/
def freeze (c cause : Nat) (r : DReq) (devices syndrome : Nat) (s : State) : State :=
  dramEvent 0x20 cause c (lineLoc s r.line).rank 0 r.line (dramStat c 11 (wr (kDcState c) 3 (wr (kDcSnapshot c)
    (freezeSnapshot s c cause r devices syndrome)
    (modChan c (fun ch => { ch with freezeAt := some (now s), freezeCause := cause, frozenLines := [] }) s))))

/-- A correctable error, counted against its rank and device; at DEVICE_CE_TH within 24 h one DEVICE_CE event (R505). -/
def countCorrected (c rank dev : Nat) (s : State) : State :=
  let k := 32 * (20 * rank + dev)
  let key := 20 * rank + dev
  let since := tget (chan s c).ceSince key (now s)
  let fresh := secToTc 86400 < now s - since
  let n := if fresh then 1 else wrapAdd 32 (fld (rd s (kDcCeByDevice c)) k 32) 1
  let s1 := dramStat c 8 (wr (kDcCeByDevice c) (setFld (rd s (kDcCeByDevice c)) k 32 n) s)
  let s2 := modChan c (fun ch =>
    { ch with ceSince := tset key (if fresh then now s else since) ch.ceSince,
              ceReported := if fresh then ch.ceReported.filter (· != key) else ch.ceReported }) s1
  if rd s kDrDeviceCeTh ≤ n && !(chan s2 c).ceReported.contains key then
    dramEvent 0x22 2 c rank dev 0 (modChan c (fun ch => { ch with ceReported := ch.ceReported ++ [key] }) s2)
  else s2

/-- An uncorrectable read: poisoned data, and a freeze, or one more line of the present freeze (R506). -/
def uncorrectable (c : Nat) (r : DReq) (devices syndrome : Nat) (s : State) : State :=
  let add := modChan c (fun ch => { ch with frozenLines := ch.frozenLines ++ [r.line] })
  if chanState s c = 3 then add (bumpBy 32 (kDcFreezeExtra c) 1 (dramStat c 9 s))
  else add (freeze c 1 r devices syndrome (dramStat c 9 s))

/-- The data of a read goes to its requester, marked when poisoned (R482): over the mesh to a router, or as an answer; poison becomes an
error response with a log entry for the control cores and JTAG debug (Table 14-4). -/
def returnRead (r : DReq) (bad : Bool) (s : State) : State :=
  match r.reader with
  | some (a, b) =>
    let p : Packet := { network := 1, kind := 3, src := a, dst := b, len := r.read.length, data := r.read, bad := if bad then upto r.read.length else [],
                        tenant := r.tenant, port := r.port, addr := r.line }
    { s with noc := { s.noc with inFlight := s.noc.inFlight ++ [p] } }
  | none =>
    if bad && r.port ≤ 1 then
      send (.completerAbort r.tenant) (accessError (locDram (dramMap s (r.line - dramBase)).1) r.tenant 4 r.line s)
    else send (.readData r.tenant r.read bad) s

/-- A read `r`, or the read half of a read-modify-write, completes. -/
def completeRead (c : Nat) (r : DReq) (chk : LineCheck) (s : State) : State :=
  if r.write.isSome then
    let s1 := performWrite c r s
    if r.bad || poisoned s r.line then s1
    else match chk with
      | .ok => s1
      | .corrected d => countCorrected c (lineLoc s r.line).rank d s1
      | .uncorrectable d y => uncorrectable c r d y s1
  else
    let s0 := if urgency s r = 3 then dramStat c 15 s else s
    let pop := modChan c (fun ch => { ch with readQ := dropFirst (· == r) ch.readQ }) s0
    let s1 := latency c r (meterLines r 1 (dramStat c 0 (openRow c r pop)))
    let s2 := if r.bad then returnRead r true s1
      else match chk with
        | .ok => returnRead r false s1
        | .corrected d => returnRead r false (countCorrected c (lineLoc s r.line).rank d s1)
        | .uncorrectable d y => uncorrectable c r d y (returnRead r true s1)
    admitWaiting c 192 s2

/-- A request of urgency 3 waits for a rank (R491). -/
def urgentWaits (s : State) (c r : Nat) : Bool :=
  ((chan s c).readQ ++ (chan s c).writeQ).any fun q => urgency s q == 3 && (lineLoc s q.line).rank == r

/-- `n` all-bank refreshes of a rank: its rows close (R491). -/
def refreshRank (c r n : Nat) (s : State) : State :=
  let clear := fun (ch : DramCh) => { ch with openRows := tfilter (fun k _ => k / 64 != r) ch.openRows }
  each (upto n) (fun _ t => dramStat c 5 (send (.dramCommand c 1 r 0) t)) (modChan c clear (modRank c r (fun x => { x with owed := 0 }) s))

/-- The refreshes a channel owes are issued before any other command to their rank once no urgency-3 request waits for it (R491). -/
def payOwed (c : Nat) (s : State) : State :=
  each (upto (rd s kDrRanks)) (fun r t =>
    let n := (rankSt t c r).owed
    if n = 0 || urgentWaits t c r then t else refreshRank c r n t) s

/-- A DRAM read of a channel returns: the one the scheduler takes first, after the full-line writes it takes before it. On a
frozen channel only a read issued before the freeze completes (R505, R506). -/
def execDramReadDone (ch : ChanId) (issuedBefore : Bool) (chk : LineCheck) (s : State) : Res :=
  let c := ch.val
  let s1 := if chanServes s c then serveWrites c 64 (payOwed c s) else s
  match (if chanServes s c then schedNext s1 c
      else schedBest s1 (chan s1 c) ((chan s1 c).readQ.filter (!readBlocked (chan s1 c) ·))) with
  | some r => whenDue (chanServes s1 c || (chanState s1 c == 3 && issuedBefore)) (completeRead c r chk) s1
  | none => done s1

/-! ### End of a freeze (R508 to R511) -/

/-- A page with a poisoned line is reported to placement, which retires it for the life of the device: both copies of the ledger record it
(R93, R509). -/
def retirePage (c line : Nat) (s : State) : State :=
  let page := line / 4096 * 4096
  let s1 := dramEvent 0x22 1 c (lineLoc s line).rank 0 line (dramStat c 17 (setPoison line s))
  if s1.sram.retired.contains page then s1
  else
    let put := fun (c : LedgerCopy) => { c with retired := c.retired ++ [page] }
    bumpBy 32 kPlRetiredPages 1 { s1 with
      sram := { s1.sram with retired := s1.sram.retired ++ [page], copyA := put s1.sram.copyA, copyB := put s1.sram.copyB } }

/-- A command parity or write CRC alert: a replay, or with the replays exhausted a COMMAND freeze (R510). -/
def execDramAlert (ch : ChanId) (newIncident : Bool) (s : State) : Res :=
  let c := ch.val
  let n := if newIncident then 0 else (chan s c).replays
  let r := (schedNext s c).getD { port := 0, tenant := 0, job := 0, line := dramBase, write := none, arrival := now s }
  whenDue (chanServes s c) (fun s =>
    if n < rd s kDrCmdRetry then dramStat c 10 (modChan c (fun ch => { ch with replays := n + 1 }) s)
    else freeze c 2 r 0 0 (modChan c (fun ch => { ch with replays := n }) s)) s

/-! ### Calibration records (R498 to R504) -/

/-- A field of a calibration record as it is, or replaced. -/
def calRec (s : State) (c r : Nat) : Nat := rd s (kDcCalRecord c r)

/-- A record captured with the present context (Table 14-6): Vref codes and eyes as the sweep found them. -/
def captureCal (c r rdVref wrVref rdEye wrEye : Nat) (s : State) : State :=
  wr (kDcCalRecord c r) (pack [(0, 8, 1), (8, 1, r), (16, 8, rdVref), (24, 8, wrVref), (32, 8, rdEye), (40, 8, wrEye),
    (48, 16, rd s (kDcTemp c)), (64, 16, rd s (kDcVddq c)), (80, 2, rd s (kDcLoadClass c)), (96, 64, now s)])
    (modRank c r (fun x => { x with staleSince := none, recentring := false, retryAt := none, guard := 0 }) s)

/-- The conditions of R501 that hold, bit k for the k-th. -/
def staleBits (s : State) (c r : Nat) (trackLimit : Bool) : Nat :=
  let m := calRec s c r
  let dt := (rdI s (kDcTemp c) 16 - toInt 16 (fld m 48 16)).natAbs
  let dv := ((rd s (kDcVddq c) : Int) - (fld m 64 16 : Int)).natAbs
  pack [(0, 1, b2n (16 * rd s kDrWinTemp < dt)), (1, 1, b2n (rd s kDrWinVddq < dv)),
    (2, 1, b2n (rd s (kDcLoadClass c) != fld m 80 2)),
    (3, 1, b2n (secToTc (3600 * rd s kDrWinAge) < now s - fld m 96 64)), (4, 1, b2n trackLimit)]

/-- A record becomes stale: STALE, GUARDED, the guard band and one event (R502). -/
def checkRecord (c r : Nat) (trackLimit : Bool) (s : State) : State :=
  let bits := staleBits s c r trackLimit
  if bits = 0 || bitAt (calRec s c r) 9 then s
  else dramEvent 0x21 1 c r 0 bits
    (modRank c r (fun x => { x with
        staleSince := some (now s), guard := if toInt 16 (fld (calRec s c r) 48 16) < rdI s (kDcTemp c) 16 then 1 else -1 })
      (wr (kDcCalRecord c r) (setFld (calRec s c r) 9 2 3) s))

/-- The ranks of a channel. -/
def ranks (s : State) : List Nat := upto (rd s kDrRanks)

/-- Once per second each rank's record is compared with the context and guarded when stale (R501). -/
def execDramContextCheck (ch : ChanId) (s : State) : Res :=
  whenDue (chanUp s ch.val && chanState s ch.val != 6) (each (ranks s) fun r => checkRecord ch.val r false) s

/-- A rank's re-centring begins: 32 delays and 16 Vref levels for reads, as many for writes, one burst each (R503). -/
def startRecentre (c r : Nat) (s : State) : State :=
  modRank c r (fun x => { x with recentring := true, bursts := if x.recentring then x.bursts else 96 }) s

/-- The training bursts of `n` refreshes of a rank, at most one in each (R500): a re-centring under way takes them, the second 48 in the
training area; else the last refresh has room for a tracking run. -/
def placeBursts (c r n : Nat) (s : State) : State :=
  let x := rankSt s c r
  if x.recentring && x.bursts != 0 && chanServes s c then
    let (v, s1) := draw s
    let left := x.bursts - n
    let s2 := if left < 48 then modChan c (fun ch => { ch with training := Config.freeValue v }) s1 else s1
    modRank c r (fun y => { y with bursts := left, spare := decide (x.bursts < n) }) s2
  else modRank c r (fun y => { y with spare := true }) s

/-- A stale rank starts re-centring after sustained load, 10 s after it became stale, or 10 s after a failure; not while the
channel is frozen (R503, R504, R507). -/
def execDramRecentreStart (ch : ChanId) (rank : Fin 2) (s : State) : Res :=
  let c := ch.val
  let x := rankSt s c rank.val
  let due := match x.retryAt, x.staleSince with
    | some t, _ => decide (t ≤ now s)
    | none, some t => 100 ≤ (chan s c).classRun || secToTc 10 ≤ now s - t
    | none, none => false
  whenDue (due && chanServes s c && rank.val < rd s kDrRanks && !x.recentring)
    (startRecentre c rank.val) s

/-- A rank re-centring ends after its last burst, removing the guard, or fails (R503, R504). -/
def execDramRecentreDone (ch : ChanId) (rank : Fin 2) (e : EyeResult) (s : State) : Res :=
  let c := ch.val
  let r := rank.val
  whenDue ((rankSt s c r).recentring && (rankSt s c r).bursts == 0 && chanServes s c) (fun s =>
    if e.pass then dramEvent 0x21 2 c r 0 0 (dramStat c 13 (captureCal c r e.rdVref e.wrVref e.rdEye e.wrEye s))
    else dramEvent 0x21 3 c r 0 0
      (modRank c r (fun x => { x with recentring := false, retryAt := some (now s + secToTc 10) }) s)) s

/-- A write of RECENTRE re-centres every rank of a running channel (Table 14-10). -/
def wDramRecentre (c v : Nat) (s : State) : Written :=
  if v ≠ 1 then refusedW .range s
  else if chanServes s c then accepted (each (ranks s) (fun r => startRecentre c r) s)
  else refusedW .state s
def execDramRecentre (ch : ChanId) (v : Nat) (s : State) : Res := answer (wDramRecentre ch.val v s)

/-! ### Start, stop, training (R472 to R475, R495, R510) -/

/-- A write of CHANNELS (R472, R473). -/
def dramStopped (s : State) : Bool := rd s kDrState == 0 || rd s kDrState == 3

/-- Any graph is in CHECKING, PLACED or RUNNING (R474). -/
def graphsLive (s : State) : Bool :=
  s.work.graphs.any fun g => g.st == .checking || g.st == .placed || g.st == .running

/-- The state of every installed channel. -/
def setChans (v : Nat) (s : State) : State := each (chanList s) (fun c => wr (kDcState c) v) s

/-- A write of START (R474): the configuration is checked and every installed channel starts training. -/
def wStart (v : Nat) (s : State) : Written :=
  if v = 1 then
    if !dramStopped s then refusedW .state s
    else if !dramConfigOk s then refusedW .range s
    else accepted (each (upto 8) (fun c t => wr (kDcState c) (b2n (bitAt (rd s kDrChannels) c)) t) (wr kDrState 1 s))
  else if v = 2 then
    if rd s kDrState = 2 && !graphsLive s && !s.host.hdm then accepted (setChans 6 (wr kDrState 0 s))
    else refusedW .state s
  else refusedW .state s
/-- A write of START = 1 (R474). -/
def execDramStart (s : State) : Res := answer (wStart 1 s)
/-- A write of START = 2 (R474). -/
def execDramStop (s : State) : Res := answer (wStart 2 s)

/-- The objects that follow from a running DRAM (R477, Table 14-10, Table 5-3). -/
def dramRunning (s : State) : State :=
  let n := (chanList s).length
  let bw := n * 8 * rd s kDrDataRate * 1000000
  wr kDrTokenCapacity (bw * 3 / 4 / 1000 / 64) (wr kDrPeakBw bw (wr kDrCapacity (n * (chanBytes s - 65536)) s))

/-- A channel fails: STATE FAILED, one TRAIN_FAIL event, and recovery flow 3 (R475, R689). -/
def failChannel (c : Nat) (s : State) : State :=
  let s1 := dramEvent 0x22 3 c 0 0 0 (wr (kDcState c) 7 (wr kDrState 3 s))
  if inFlow s1 3 0 then s1 else startFlow 3 0 (locDram c) 0 (now s1 + secToTc 1) s1

/-- Channel training ends (R474, R475, R495). `failed` is the set of installed channels on which a step found no window. -/
def execDramTrainDone (failed : BitVec 8) (e : EyeResult) (s : State) : Res :=
  whenDue (rd s kDrState == 1) (fun s =>
    let bad := (chanList s).filter fun c => failed.getLsbD c
    if bad.isEmpty then
      let s1 := each (chanList s) (fun c t => each (ranks t) (fun r => captureCal c r e.rdVref e.wrVref e.rdEye e.wrEye)
        (modChan c (fun _ => { trackTemp := rdI t (kDcTemp c) 16, trackVddq := rd t (kDcVddq c) }) (wr (kDcState c) 2 t))) s
      endFlow 3 0 1 0 0 (dramRunning (wr kDrState 2 s1))
    else
      let again := s.boot.recoveries.any fun r => r.flow == 3 && r.attempt != 0
      let s1 := each (chanList s) (fun c t => if bad.contains c then failChannel c t else wr (kDcState c) 0 t) s
      if again then endFlow 3 0 3 0 0 s1 else s1) s

/-- The requests a channel holds end with poisoned data (R510). -/
def endHeld (c : Nat) (s : State) : State :=
  let held := (chan s c).readQ ++ (chan s c).waiting.filter (·.write.isNone)
  each held (fun r => returnRead r true) (modChan c (fun x => { x with readQ := [], writeQ := [], waiting := [], drain := false }) s)

/-- Retraining after a COMMAND freeze completes, or fails the channel; then no channel serves requests, and the held ones end poisoned
(R475, R510). -/
def execDramRetrainDone (ch : ChanId) (e : EyeResult) (s : State) : Res :=
  let c := ch.val
  whenDue (chanState s c == 4) (fun s =>
    if e.pass then
      dramStat c 12 (wr (kDcState c) 2 (each (ranks s) (fun r => captureCal c r e.rdVref e.wrVref e.rdEye e.wrEye) s))
    else failChannel c (each (chanList s) endHeld s)) s

/-! ### Refresh, temperature, tracking, load (R491, R492, R496, R499) -/

/-- A rank's tREFI elapses: an all-bank refresh is issued with those owed, or postponed, at most 4, while an urgency-3
request waits for the rank (R491). Training bursts go in the time the rank is closed (R500). -/
def execDramRefresh (ch : ChanId) (rank : Fin 2) (s : State) : Res :=
  let c := ch.val
  let r := rank.val
  let owed := (rankSt s c r).owed
  whenDue (chanUp s c && chanState s c != 6 && r < rd s kDrRanks) (fun s =>
    if urgentWaits s c r && owed < 4 && chanServes s c then dramStat c 6 (modRank c r (fun x => { x with owed := owed + 1 }) s)
    else placeBursts c r (owed + 1) (refreshRank c r (owed + 1) s)) s

/-- Activate tables are cleared at the start of each refresh window (R493). -/
def execRaaTableClear (ch : ChanId) (s : State) : Res :=
  whenDue (chanUp s ch.val) (modChan ch.val fun c => { c with raa := [] }) s

/-- The channel temperature is read: refresh is doubled above 85 °C and restored after 10 ms at or below 82 °C (R492).
`t` is the highest MR4 reading, or on DDR4 the die sensor's, in 1/16 °C. -/
def execDramTempPoll (ch : ChanId) (t : BitVec 16) (s : State) : Res :=
  let c := ch.val
  let x := t.toInt + (if ddr5 s then 0 else 16 * rdI s kDrTempOfs 8)
  whenDue (chanUp s c) (fun s =>
    let s1 := wrI (kDcTemp c) 16 x s
    if 85 * 16 < x then wr (kDcHot c) 1 (modChan c (fun ch => { ch with coolSince := none }) s1)
    else if 82 * 16 < x then modChan c (fun ch => { ch with coolSince := none }) s1
    else
      let since := (chan s c).coolSince.getD (now s)
      let s2 := modChan c (fun ch => { ch with coolSince := some since }) s1
      if msToTc 10 ≤ now s - since then wr (kDcHot c) 0 s2 else s2) s

/-- A tracking run (R496, R497): due by its period or by the drift of temperature or VDDQ, in the one burst of a refresh of its rank
(R500). It moves each byte lane by at most one tap, to a free value; one more than 4 taps from its last value writes TRACK_LIMIT and
makes the record stale. -/
def execDramTrack (ch : ChanId) (rank : Fin 2) (vddq : BitVec 16) (overLimit : Bool) (s : State) : Res :=
  let c := ch.val
  let r := rank.val
  let ch0 := chan s c
  let drift := 16 * rd s kDrTrackTemp < (rdI s (kDcTemp c) 16 - ch0.trackTemp).natAbs ||
    rd s kDrTrackVddq < ((vddq.toNat : Int) - (ch0.trackVddq : Int)).natAbs
  let due := msToTc (rd s kDrTrackPeriod) ≤ now s - (rankSt s c r).lastTrack
  whenDue (chanServes s c && r < rd s kDrRanks && (drift || due) && (rankSt s c r).spare) (fun s =>
    let (v, s0) := draw s
    let step := fun (lane : Nat) => ((Config.freeValue v / 3 ^ lane % 3 : Nat) : Int) - 1
    let s1 := dramStat c 14 (wr (kDcVddq c) vddq.toNat (modRank c r (fun x => { x with
        lastTrack := now s, spare := false, moved := (upto 20).map fun l => (l, tget x.moved l 0 + step l) })
      (modChan c (fun x => { x with trackTemp := rdI s (kDcTemp c) 16, trackVddq := vddq.toNat }) s0)))
    if overLimit then checkRecord c r true (dramEvent 0x21 4 c r 0 0 s1) else s1) s

/-- A 1 ms window ends: the load class from the data-bus cycles that carried data (R499). -/
def execDramLoadWindow (ch : ChanId) (busy total : Nat) (s : State) : Res :=
  let c := ch.val
  let cls := if 10 * busy < total then 0 else if 2 * busy ≤ total then 1 else 2
  whenDue (chanUp s c) (fun s => modChan c (fun ch => { ch with classRun := if cls = 2 then ch.classRun + 1 else 0 })
    (wr (kDcLoadClass c) cls s)) s

/-- The patrol scrubber reads the next line of the installed map (R512); a line found poisoned is not counted again. -/
def execDramScrub (chk : LineCheck) (s : State) : Res :=
  let line := dramBase + s.dram.scrub
  let c := (dramMap s s.dram.scrub).1
  let r : DReq := { port := 3, tenant := 0, job := 0, line := line, write := none, arrival := now s }
  whenDue (rd s kDrState == 2 && rd s kDrScrubPeriod != 0 && chanServes s c) (fun s =>
    let nxt := s.dram.scrub + 64
    let s1 := dramStat c 0 { s with dram := { s.dram with scrub := if rd s kDrCapacity ≤ nxt then 0 else nxt } }
    if poisoned s line then s1
    else match chk with
      | .ok => s1
      | .corrected d => countCorrected c (lineLoc s line).rank d s1
      | .uncorrectable d y => uncorrectable c r d y s1) s

/-- A channel idle for PD_IDLE puts its ranks in power-down (R513). -/
def execPdIdleExpiry (ch : ChanId) (s : State) : Res :=
  let c := ch.val
  whenDue (chanState s c == 2 && (chan s c).readQ.isEmpty && (chan s c).writeQ.isEmpty) (wr (kDcState c) 5) s

end Sys2Proof.Machine
end

