-- ==== Sys2Proof/Machine/Memory.lean ====
section
/-!
DEFINITION. The global address map (R35 to R41), the macros behind on-die addresses (Table 15-1), fenced and poisoned
ranges, and the device's regions of DRAM (R92).
-/
namespace Sys2Proof.Machine

/-! ### Addresses (Tables 1-9, 1-10, R37) -/

/-- Global buffer bank GBq.Ub. -/
def gbAddr (q b : Nat) : Nat := q * 0x01000000 + b * 0x00100000
/-- Cluster memory of Cc. -/
def clusterAddr (c : Nat) : Nat := 0x10000000 + c * 0x00800000
/-- Window of core 9c + u. -/
def coreAddr (n : Nat) : Nat := 0x20000000 + n / 9 * 0x01000000 + n % 9 * 0x00100000
/-- Data memory of a core: 384 KiB. -/
def dmemAddr (n : Nat) : Nat := coreAddr n + 0x80000
/-- Queue and parameter window of engine 15g + u, and the engine-local buffer of Gg. -/
def engineAddr (e : Nat) : Nat := 0x40000000 + e / 15 * 0x02000000 + e % 15 * 0x00100000
def elbAddr (g : Nat) : Nat := 0x40000000 + g * 0x02000000 + 0x01000000
/-- Start of the host and CXL windows. -/
def hostBase : Nat := 0x100000000000

/-- What an address of Table 1-9 names. -/
inductive Region where
  | gb (q b : Nat)
  | cluster (c : Nat)
  | imem (core : Nat)
  | dmem (core : Nat)
  | engine (e : Nat)
  | elb (g : Nat)
  | control
  | retention
  | dram
  | host (bus : Nat)
  | hole
deriving DecidableEq, Repr

/-- The region of a global address (R35 to R39). -/
def regionOf (s : State) (a : Nat) : Region :=
  if a < 0x04000000 then .gb (a / 0x01000000) (a / 0x00100000 % 16)
  else if a < 0x10000000 then .hole
  else if a < 0x16000000 then .cluster ((a - 0x10000000) / 0x00800000)
  else if a < 0x20000000 then .hole
  else if a < 0x2C000000 then
    let o := a - 0x20000000
    let u := o / 0x00100000 % 16
    let x := o % 0x00100000
    if 8 < u then .hole
    else if x < 0x20000 then .imem (9 * (o / 0x01000000) + u)
    else if 0x80000 ≤ x && x < 0xE0000 then .dmem (9 * (o / 0x01000000) + u) else .hole
  else if a < 0x40000000 then .hole
  else if a < 0x50000000 then
    let o := a - 0x40000000
    let g := o / 0x02000000
    let x := o % 0x02000000
    if x < 0x00F00000 then .engine (15 * g + x / 0x00100000)
    else if 0x01000000 ≤ x && x < 0x01200000 then .elb g else .hole
  else if 0x80000000 ≤ a && a < 0xC0000000 then .control
  else if 0xC0000000 ≤ a && a < 0xC0200000 then .retention
  else if dramBase ≤ a && a < 0x10000000000 && a < dramBase + rd s kDrCapacity then .dram
  else if hostBase ≤ a && a < 2 ^ 52 then .host (a - hostBase)
  else .hole

/-- Every byte of a range lies in memory that engines, DMA and copies reach, host windows below the reach of R40 included. -/
def rangeReachable (s : State) (a n : Nat) : Bool :=
  let ok := fun x => match regionOf s x with
    | .hole => false
    | .control => false
    | .retention => false
    | .host b => b < 0xFF00000000000
    | _ => true
  n == 0 || ok a && ok (a + n - 1)

/-! ### Macros (Table 15-1) -/

/-- The packed level-2 code of a macro on D0. -/
def macroCode (quad kind grp u m : Nat) : Nat :=
  pack [(61, 3, 2), (58, 2, quad), (54, 4, kind), (48, 6, grp), (43, 5, u), (36, 7, m)]

/-- The macro that holds an on-die address, and its offset in it. -/
def macroAt (s : State) (a : Nat) : Option (Nat × Nat) :=
  match regionOf s a with
  | .gb q b => some (macroCode q 6 q b (a % 0x00100000 / 0x10000), a % 0x10000)
  | .cluster c =>
    let o := a % 0x00800000
    some (macroCode (c / 3) 1 c (o / 0x00100000) (40 + o % 0x00100000 / 0x20000), o % 0x20000)
  | .imem n => some (macroCode (n / 27) 1 (n / 9) (n % 9) (a % 0x00100000 / 0x4000), a % 0x4000)
  | .dmem n => some (macroCode (n / 27) 1 (n / 9) (n % 9) (8 + (a % 0x00100000 - 0x80000) / 0x4000), a % 0x4000)
  | .elb g =>
    let o := a % 0x00200000
    some (macroCode (g / 2) 2 g (o / 0x40000) (40 + o % 0x40000 / 0x10000), a % 0x10000)
  | .retention =>
    let o := a - 0xC0000000
    some (pack [(61, 3, 2), (60, 1, 1), (43, 5, 2), (36, 7, o / 0x10000)], o % 0x10000)
  | _ => none

/-- Where the bytes of a macro stand in the address map; none for macros that no global address reaches. -/
def macroStart (x : Nat) : Option Nat :=
  let g := locGrp x
  let u := locUnit x
  let m := locMacro x
  if locDie x = 1 then (if u = 2 then some (0xC0000000 + m * 0x10000) else none)
  else match locKind x with
    | 1 =>
      if m < 8 then some (coreAddr (9 * g + u) + m * 0x4000)
      else if m < 32 then some (dmemAddr (9 * g + u) + (m - 8) * 0x4000)
      else if m < 48 then some (clusterAddr g + u * 0x00100000 + (m - 40) * 0x20000)
      else none
    | 2 => if 40 ≤ m then some (elbAddr g + u * 0x40000 + (m - 40) * 0x10000) else none
    | 6 => some (gbAddr g u + m * 0x10000)
    | _ => none

/-- The record of a macro. -/
def macroSt (s : State) (code : Nat) : MacroSt := tget s.sram.macros code {}
/-- A macro's record changed. -/
def modMacro (code : Nat) (f : MacroSt → MacroSt) (s : State) : State :=
  { s with sram := { s.sram with macros := tmod s.sram.macros code {} f } }

/-- Ranges of the address map that fenced macros take from allocation (R91, R530). -/
def fencedRanges (s : State) : List (Nat × Nat) :=
  (s.sram.macros.filter fun e => e.2.fenced).filterMap fun e =>
    match macroStart e.1, locMacroBytes e.1 with
    | some a, some n => some (a, n)
    | _, _ => none

/-- The CMC of a cluster is fenced: its workspace macro is (R285). -/
def cmcFenced (s : State) (c : Nat) : Bool := (macroSt s (macroCode (c / 3) 1 c 0 48)).fenced

/-! ### Poison -/

/-- The bytes `a` to `a + n − 1` hold poison: on-die bytes, or DRAM lines. -/
def rangePoisoned (s : State) (a n : Nat) : Bool :=
  s.sram.poison.any (fun p => match macroStart p.1 with
    | some b => a ≤ b + 16 * p.2.1 + p.2.2 && b + 16 * p.2.1 + p.2.2 < a + n
    | none => false) ||
  s.dram.poison.any fun l => l < a + n && a < l + 64

/-- A write to on-die memory leaves its bytes unpoisoned (R521). -/
def clearMacroPoison (a n : Nat) (s : State) : State :=
  let keep := fun (p : Nat × Nat × Nat) => match macroStart p.1 with
    | some b => !(a ≤ b + 16 * p.2.1 + p.2.2 && b + 16 * p.2.1 + p.2.2 < a + n)
    | none => true
  { s with sram := { s.sram with poison := s.sram.poison.filter keep } }

/-- Lines of DRAM wholly written lose their poison (R482). -/
def clearLinePoison (a n : Nat) (s : State) : State :=
  { s with dram := { s.dram with poison := s.dram.poison.filter fun l => !(a ≤ l && l + 64 ≤ a + n) } }

/-- A byte of an on-die macro is poisoned. -/
def poisonByte (code word byte : Nat) (s : State) : State :=
  if s.sram.poison.contains (code, word, byte) then s
  else { s with sram := { s.sram with poison := (code, word, byte) :: s.sram.poison } }

/-- A buffer's bytes take poison where they are written (R106): the first byte of each line or word. -/
def poisonRange (a n : Nat) (s : State) : State :=
  match macroAt s a with
  | some _ => each (upto n) (fun i t => match macroAt t (a + i) with
      | some (c, o) => poisonByte c (o / 16) (o % 16) t
      | none => t) s
  | none =>
    if dramBase ≤ a then
      each (upto (ceilDiv (a % 64 + n) 64)) (fun i t => setPoison ((a / 64 + i) * 64) t) s
    else s

/-- Bytes are written to device memory. -/
def memStore (a : Nat) (l : List Byte) (s : State) : State :=
  store a l (clearLinePoison a l.length (clearMacroPoison a l.length s))

/-- A memory loses its contents with its power: its bytes read as bytes nothing has written (log 7). -/
def loseRange (a n : Nat) (s : State) : State :=
  clearMacroPoison a n { s with mem := s.mem.filter fun c => !(a ≤ c.1 && c.1 < a + n) }

/-! ### Errors found on the demand path (R522) -/

/-- An SRAM_FAULT event: 1 UNCORRECTABLE, 2 COLUMN_SPARED, 3 WORD_REMAPPED, 4 MACRO_FENCED (Table 15-8). -/
def sramFault (cause loc bit : Nat) (s : State) : State :=
  ownerEvent (pack [(0, 8, 0x23), (8, 8, cause), (16, 16, bit), (32, 64, loc), (96, 64, now s)])
    (some (0x2300 + cause, if cause = 1 || cause = 4 then 2 else 1, loc, bit)) s

/-- The level-1 code of a stored bit of a macro's word (R15). -/
def locBitOf (code word bit : Nat) : Nat := setFld code 61 3 1 + pack [(16, 20, word), (8, 8, bit)]
/-- The scrubber that covers a place: its quadrant's, or D1's, the fifth (R523). -/
def scrubberOf (loc : Nat) : Nat := if locDie loc = 1 then 4 else locQuad loc
/-- A word is handed to its scrubber. -/
def handWord (code word : Nat) (s : State) : State :=
  let d := tget s.sram.scrubbers (scrubberOf code) {}
  if d.handed.contains (code, word) then s
  else { s with sram := { s.sram with scrubbers := tset (scrubberOf code) { d with handed := d.handed ++ [(code, word)] } s.sram.scrubbers } }

/-- A requester's read of `n` bytes at `a` meets uncorrectable on-die data: one event, for the first such byte, and its word goes to
the scrubber (R522). Poison in DRAM is no part of this. -/
def demandFault (a n : Nat) (s : State) : State :=
  let hit := (upto n).findSome? fun i => match macroAt s (a + i) with
    | some (c, o) => if s.sram.poison.contains (c, o / 16, o % 16) then some (c, o / 16, o % 16) else none
    | none => none
  match hit with
  | some (c, w, b) => handWord c w (sramFault 1 (locBitOf c w (13 * b)) (13 * b) s)
  | none => s

/-! ### Regions of device DRAM (R92) -/

/-- Bytes of the soft-buffer region (R306). -/
def sbSlotSize (s : State) : Nat := 64 * ceilDiv (64 + rd s kEnSbNcbMax / 2) 64
def sbRegion (s : State) : Nat := rd s kEnSbCount * sbSlotSize s
/-- Bytes of the identity region: two table areas, then the spools (R372, R384, log 11). -/
def idtRegion (s : State) : Nat := 2 * 512 * rd s kIdBucketsMaxNow + Config.spoolArea

/-- The pool lies at the bottom of installed DRAM (DESIGN CHOICE, log 14); it ends where the held regions begin. -/
def poolEnd (s : State) : Nat :=
  dramBase + (rd s kDrCapacity - sbRegion s - idtRegion s - rd s kPlTemplateStore)

/-- Bytes of the placement pool: installed DRAM less the regions held and the pool's retired pages (R92, R93). -/
def poolBytes (s : State) : Nat :=
  poolEnd s - dramBase - 4096 * (s.sram.retired.filter fun p => dramBase ≤ p && p < poolEnd s).length

/-- Below the template store at the top of installed DRAM lies the identity region, and below that the soft-buffer region (log 14). No
other master reads the identity region; the model keeps its contents as records. -/
def idtBase (s : State) : Nat := dramBase + (rd s kDrCapacity - rd s kPlTemplateStore - idtRegion s)
def sbBase (s : State) : Nat := idtBase s - sbRegion s
/-- Line of entry `i` of bucket `b` in the first or second table area; where the spools start. -/
def idtLine (s : State) (second : Bool) (b i : Nat) : Nat :=
  idtBase s + (if second then 512 * rd s kIdBucketsMaxNow else 0) + 512 * b + 64 * i
def spoolStart (s : State) : Nat := idtBase s + 1024 * rd s kIdBucketsMaxNow

end Sys2Proof.Machine
end

