-- ==== Sys2Proof/Machine/Roles.lean ====
section
/-!
DEFINITION. Roles and epochs of units (R125, R126), the program table (R204, R205), which units admit a tenant (R100, R189),
budgets, charges and capacities (R179 to R187).
-/
namespace Sys2Proof.Machine

/-! ### Units -/

/-- What the device keeps of a unit. -/
def unitSt (s : State) (u : Nat) : UnitSt := tget s.work.units u {}
/-- A unit's record changed. -/
def modUnit (u : Nat) (f : UnitSt → UnitSt) (s : State) : State :=
  { s with work := { s.work with units := tmod s.work.units u {} f } }

/-- Role word of a unit (Table 3-5); a cluster DMA engine is always shared (R192). -/
def roleWord (s : State) (u : Nat) : Nat :=
  if isCore u then rd s (kPlSageRole u) else if isEngine u then rd s (kPlEngineRole (u - 108)) else 0x40000
/-- The role that the changes due leave. -/
def roleSoon (s : State) (u : Nat) : Nat := (unitSt s u).nextRole.getD (roleWord s u)
/-- Fields of a role word. -/
def roleFn (r : Nat) : Nat := fld r 19 3
def roleShared (r : Nat) : Bool := bitAt r 18
def roleCi (r : Nat) : Nat := fld r 9 9
def roleTenant (r : Nat) : Nat := fld r 0 9
/-- A role word. -/
def mkRole (fn : Nat) (shared : Bool) (ci tenant : Nat) : Nat :=
  pack [(0, 9, tenant), (9, 9, ci), (18, 1, b2n shared), (19, 3, fn)]

/-- Role epoch of a unit. -/
def epochOf (s : State) (u : Nat) : Nat :=
  if isCore u then rd s (kPlSageEpoch u) else if isEngine u then rd s (kPlEngineEpoch (u - 108)) else 0

/-- A role word takes effect: the epoch goes on by 1 when a field changed (R125). -/
def setRole (u w : Nat) (s : State) : State :=
  let s1 := modUnit u (fun m => { m with nextRole := none }) s
  if roleWord s u = w then s1
  else
    let s2 := modUnit u (fun m => { m with lastChange := some (now s) }) s1
    if isCore u then bumpBy 16 (kPlSageEpoch u) 1 (wr (kPlSageRole u) w s2)
    else if isEngine u then bumpBy 16 (kPlEngineEpoch (u - 108)) 1 (wr (kPlEngineRole (u - 108)) w s2)
    else s2

/-- A change of role falls due; it is merged with one that is held (R125). -/
def wantRole (u w : Nat) (s : State) : State := modUnit u (fun m => { m with nextRole := some w }) s

/-- The function of a role changed. -/
def wantFn (u fn : Nat) (s : State) : State := wantRole u (setFld (roleSoon s u) 19 3 fn) s

/-- A unit is in service: FUNCTION 0 and not fenced. -/
def inService (s : State) (u : Nat) : Bool := roleFn (roleWord s u) == 0 && !(unitSt s u).fenced

/-- Every Sage core and engine. -/
def allUnits : List Nat := upto 228

/-- The units dedicated to a tenant, at once or by a change that is due. -/
def dedicatedUnits (s : State) (t : Nat) : List Nat :=
  allUnits.filter fun u => !roleShared (roleSoon s u) && roleTenant (roleSoon s u) == t

/-- The unit that a level-3 code names: a core or an engine (R190). -/
def unitOf (x : Nat) : Option Nat :=
  if !locValid x || locLvl x != 3 || locDie x != 0 then none
  else if locKind x = 1 then some (9 * locGrp x + locUnit x)
  else if locKind x = 2 then some (engUnit (15 * locGrp x + locUnit x))
  else none

/-! ### The program table (Table 6-1) -/

/-- Entry `i`, 0 while empty. -/
def prog (s : State) (i : Nat) : Nat := tget s.work.progs i 0
/-- The entry whose image the jobs of index `i` run: the one withdrawn under them, else the present one (R206). -/
def progRun (s : State) (i : Nat) : Nat := tget s.work.withdrawn i (prog s i)
/-- Fields of an entry. -/
def pEngineOp (e : Nat) : Nat := fld e 0 12
def pValid (e : Nat) : Bool := bitAt e 16
def pPublic (e : Nat) : Bool := bitAt e 17
def pCmcAtYield (e : Nat) : Bool := bitAt e 18
def pRefLocal (e k : Nat) : Bool := bitAt e (24 + k)
def pOwner (e : Nat) : Nat := fld e 32 9
def pResident (e c : Nat) : Bool := bitAt e (48 + c)
def pC0 (e : Nat) : Nat := fld e 64 32
def pC1 (e : Nat) : Nat := fld e 96 32
def pYieldCycles (e : Nat) : Nat := fld e 128 32
def pMaxUnits (e : Nat) : Nat := fld e 160 32
def pImageAddr (e : Nat) : Nat := fld e 192 64
def pImageLen (e : Nat) : Nat := fld e 256 32
def pStaticLen (e : Nat) : Nat := fld e 288 32
def pStaticInit (e : Nat) : Nat := fld e 320 64
def pEntry (e : Nat) : Nat := fld e 384 32
def pArgMax (e : Nat) : Nat := fld e 416 13

/-- Reserved fields of an entry are 0 (R206). -/
def progReservedOk (e : Nat) : Bool :=
  onlyFields e [(0, 12), (16, 5), (24, 6), (32, 9), (48, 12), (64, 128), (192, 192), (384, 32), (416, 13)] && e < 2 ^ 512

/-- The entry is enabled for a tenant (R204). -/
def progEnabled (s : State) (i t : Nat) : Bool :=
  pValid (prog s i) && (pPublic (prog s i) || pOwner (prog s i) == t)

/-- Programs that perform an engine opcode for a tenant, in table order (R52). -/
def progsFor (s : State) (op t : Nat) : List Nat :=
  (s.work.progs.filter fun e => pValid e.2 && (pPublic e.2 || pOwner e.2 == t) && pEngineOp e.2 == op && op != 0).map (·.1)

/-- Resident programs of a cluster, in ascending index (R205); one withdrawn while jobs still run it stays until its index is
rewritten. -/
def residents (s : State) (c : Nat) : List (Nat × Nat) :=
  ((s.work.progs.filter fun e => pValid e.2) ++ s.work.withdrawn).filter fun e => pResident e.2 c

/-- Start of a resident image in instruction memory: packed from +0x02000 at 16-byte boundaries (R205). -/
def imageStart (s : State) (c i : Nat) : Nat :=
  0x2000 + sumBy (((residents s c).filter (·.1 < i)).map fun e => 16 * ceilDiv (pImageLen e.2) 16) id
/-- Start of a static area in data memory: packed downward from +0xD8000 (R205). -/
def staticStart (s : State) (c i : Nat) : Nat :=
  0xD8000 - sumBy (((residents s c).filter (·.1 ≤ i)).map fun e => pStaticLen e.2) id
/-- Bytes of code and of static data of a cluster's resident set. -/
def codeBytes (s : State) (c : Nat) : Nat :=
  sumBy ((residents s c).map fun e => 16 * ceilDiv (pImageLen e.2) 16) id
def staticBytes (s : State) (c : Nat) : Nat := sumBy ((residents s c).map fun e => pStaticLen e.2) id
/-- T0 of a core ends where the static areas begin (R91). -/
def t0Bytes (s : State) (n : Nat) : Nat := 0xD8000 - staticBytes s (n / 9) - 0x80000

/-- A program yields early enough at a clock in MHz: its cycles between yields and a context save fit 20 µs (R238). -/
def yieldsAt (e mhz : Nat) : Bool := pYieldCycles e + 600 ≤ 20 * mhz

/-- Cycles of a program (R95): C1 has 16 fraction bits; a part cycle counts whole. -/
def progCycles (e units : Nat) : Nat := pC0 e + ceilDiv (pC1 e * units) 65536

/-! ### Carrier instances and tenants -/

/-- The tenant that holds a CI. -/
def ciTenant (s : State) (c : Nat) : Option Nat := tfind c s.work.ciOwner
/-- Tenant states (Table 5-1). -/
def tenantState (s : State) (t : Nat) : Nat := rd s (kTeState t)
/-- The tenant has a graph that is not DONE. -/
def hasGraphs (s : State) (t : Nat) : Bool := s.work.graphs.any fun g => g.tenant == t && g.st != .done

/-- The unit's role admits a job of a tenant and CI under the tenant's mode (Table 5-4). -/
def roleAdmits (s : State) (t ci u : Nat) : Bool :=
  let w := roleWord s u
  let mine := !roleShared w && roleTenant w == t && roleCi w == ci
  let m := rd s (kTeMode t)
  if m = 0 then roleShared w else if m = 1 then mine else roleShared w || mine

/-- The unit is dedicated to the CI. -/
def dedicatedTo (s : State) (t ci u : Nat) : Bool :=
  let w := roleWord s u
  !roleShared w && roleTenant w == t && roleCi w == ci

/-- The unit may take new bookings of the tenant (R100, R586, R689). -/
def admits (s : State) (t ci u : Nat) : Bool :=
  inService s u && roleAdmits s t ci u && !clkHeld s (unitDom u) && !inFlow s 1 u && !inFlow s 2 u

/-! ### Budgets (R179 to R187) -/

/-- Budget `r` of tenant `t`, in the order of CHARGED: Sage, ten engine classes, DMA in µs, DRAM tokens, NoC slots. -/
def budget (s : State) (t r : Nat) : Nat :=
  if r = 0 then rd s (kTeSageUs t)
  else if r ≤ 10 then rd s (kTeEngineUs t (r - 1))
  else if r = 11 then rd s (kTeDmaUs t)
  else if r = 12 then rd s (kTeDramTokens t)
  else rd s (kTeNocSlots t)
/-- The budget in the unit of charges: time in ns. -/
def budgetNs (s : State) (t r : Nat) : Nat := if r ≤ 11 then 1000 * budget s t r else budget s t r

/-- Capacity of budget kind `r` with the roles that `role` gives (Table 5-3). -/
def capacityWith (s : State) (role : Nat → Nat) (r : Nat) : Nat :=
  let live := fun u => roleFn (role u) == 0 && roleShared (role u) && !(unitSt s u).fenced
  if r = 0 then 1000 * ((upto 108).filter live).length
  else if r ≤ 10 then 1000 * ((upto 120).filter fun e => live (engUnit e) && classOf e == r).length
  else if r = 11 then 12000
  else if r = 12 then rd s kDrTokenCapacity
  else 48
def capacity (s : State) (r : Nat) : Nat := capacityWith s (roleWord s) r

/-- Bytes of a list of ranges within [a, a + n). -/
def overlapBytes (l : List (Nat × Nat)) (a n : Nat) : Nat :=
  l.foldl (fun t e => t + (min (e.1 + e.2) (a + n) - max e.1 a)) 0

/-- Capacity of the quota of tier `k` (Table 5-3). -/
def tierCapacity (s : State) (k : Nat) : Nat :=
  let f := fencedRanges s
  if k = 0 then
    sumBy ((upto 108).filter fun u => roleFn (roleWord s u) == 0 && roleShared (roleWord s u) && !(unitSt s u).fenced) fun u =>
      t0Bytes s u - overlapBytes f (dmemAddr u) (t0Bytes s u)
  else if k = 1 then 96 * 2 ^ 20 - overlapBytes f 0x10000000 0x06000000
  else if k = 2 then 64 * 2 ^ 20 - overlapBytes f 0 0x04000000
  else poolBytes s

/-- Every tenant: those whose budgets differ from 0 are few; the sum runs over all 512. -/
def tenants : List Nat := upto 512
/-- Sum of a budget over all tenants. -/
def admitted (s : State) (r : Nat) : Nat := sumBy tenants fun t => budget s t r
def admittedQuota (s : State) (k : Nat) : Nat := sumBy tenants fun t => rd s (kTeQuota t k)

/-- The events of Table 5-8. -/
def evBudget (typ sub t cap sum when_ : Nat) : Nat :=
  pack [(0, 8, typ), (8, 8, sub), (16, 9, t), (32, 64, cap), (96, 64, sum), (160, 64, when_)]

/-- Kinds 0 to 13 are budgets, 14 to 17 the tier quotas; their subindex in T+1 is kind + 1. -/
def kindCapacity (s : State) (k : Nat) : Nat := if k ≤ 13 then capacity s k else tierCapacity s (k - 14)
def kindAdmitted (s : State) (k : Nat) : Nat := if k ≤ 13 then admitted s k else admittedQuota s (k - 14)

/-- BUDGET_OVERCOMMIT when a kind's capacity falls below the admitted sum, and again when the sum fits (R187). -/
def overcommitCheck (s : State) : State :=
  each (upto 18) (fun k t =>
    let cap := kindCapacity t k
    let sum := kindAdmitted t k
    let inForce := t.work.overcommit.contains k
    if cap < sum && !inForce then
      ownerEvent (evBudget 0x10 (k + 1) 0 cap sum (now t)) none
        { t with work := { t.work with overcommit := k :: t.work.overcommit } }
    else if sum ≤ cap && inForce then
      ownerEvent (evBudget 0x10 (k + 1) 0 cap sum (now t)) none
        { t with work := { t.work with overcommit := t.work.overcommit.filter (· != k) } }
    else t) s

/-! ### End of a freeze (R508 to R511) -/

/-- A freeze ends: poison writes, page retirement, then the held requests are served again; a COMMAND freeze retrains
first (R508 to R510). A retired page may overcommit T3 (R187). -/
def endFreeze (c cause : Nat) (s : State) : State :=
  let lines := (chan s c).frozenLines
  let s1 := dramEvent 0x20 cause c 0 0 (fld (rd s (kDcSnapshot c)) 128 64) s
  let s2 := each lines (retirePage c) s1
  let s3 := modChan c (fun ch => { ch with freezeAt := none, frozenLines := [], replays := 0 }) s2
  overcommitCheck (wr (kDcState c) (if (chan s c).freezeCause = 2 then 4 else 2) s3)

/-- FREEZE_AUTO elapses and the freeze ends (R508). -/
def execFreezeAutoExpiry (ch : ChanId) (s : State) : Res :=
  let c := ch.val
  whenDue (chanState s c == 3 && rd s kDrFreezeAuto != 0 && (match (chan s c).freezeAt with
    | some t => decide (usToTc (rd s kDrFreezeAuto) ≤ now s - t)
    | none => false)) (endFreeze c 4) s

/-- A write of RESUME (R508). -/
def wResume (c v : Nat) (s : State) : Written :=
  if v ≠ 1 then refusedW .range s
  else if chanState s c = 3 then accepted (endFreeze c 3 s) else refusedW .state s
def execResume (ch : ChanId) (v : Nat) (s : State) : Res := answer (wResume ch.val v s)

/-! ### Charges (R180 to R183) -/

/-- Length of an accounting window (R180). -/
def windowTc : Nat := 1966080
/-- Charge made in a window for a tenant and kind. -/
def chargedIn (s : State) (w t r : Nat) : Nat := tget s.work.charged (chargeKey w t r) 0
/-- Debt that counts against a window: carried into the present one (R182). -/
def debtIn (s : State) (w t r : Nat) : Nat := if w = s.work.window then tget s.work.debt (16 * t + r) 0 else 0

/-- A time charge of `ns` over [a, b] split across its windows in proportion to the overlap, each part rounded up (R181). -/
def splitCharge (r ns a b : Nat) : List Charge :=
  if b ≤ a then (if ns = 0 then [] else [{ res := r, window := a / windowTc, amount := ns }])
  else (span (a / windowTc) ((b - 1) / windowTc + 1 - a / windowTc)).map fun w =>
    { res := r, window := w, amount := ceilDiv (ns * (min b ((w + 1) * windowTc) - max a (w * windowTc))) (b - a) }

/-- Charges fit: in every window and kind, made charges, pending ones and the new do not exceed the budget (R181). -/
def chargesFit (s : State) (t : Nat) (made new : List Charge) : Bool :=
  new.all fun c =>
    let sumOf := fun (l : List Charge) => l.foldl (fun n d => if d.res = c.res ∧ d.window = c.window then n + d.amount else n) 0
    chargedIn s c.window t c.res + debtIn s c.window t c.res + sumOf made + sumOf new ≤ budgetNs s t c.res

/-- Charges are returned: those of windows that have ended are not (R183). -/
def returnCharges (t : Nat) (l : List Charge) (s : State) : State :=
  let live := l.filter fun c => s.work.window ≤ c.window
  { s with work := { s.work with charged := live.foldl (fun m c => tmod m (chargeKey c.window t c.res) 0 (· - c.amount)) s.work.charged } }

/-! ### Space (R91) -/

/-- Space held by a tenant in a tier at time `x`, charged to its quota. -/
def heldAt (l : List Space) (t k x : Nat) : Nat :=
  l.foldl (fun n e => if e.charged ∧ e.tenant = t ∧ e.block / 256 = k ∧ e.from_ ≤ x ∧ x < e.toward then n + e.len else n) 0

/-- The most a tenant holds in a tier within an interval. -/
def heldPeak (l : List Space) (t k a b : Nat) : Nat :=
  let starts := a :: (l.filter fun e => a ≤ e.from_ && e.from_ < b).map (·.from_)
  starts.foldl (fun m x => max m (heldAt l t k x)) 0

/-- Allocation unit of a tier (Table 3-1). -/
def tierUnit (k : Nat) : Nat := if k = 0 then 256 else if k = 3 then 65536 else 4096
/-- Start and end of a block of a tier: core, cluster, quadrant, the pool. -/
def blockStart (k b : Nat) : Nat :=
  if k = 0 then dmemAddr b else if k = 1 then clusterAddr b else if k = 2 then gbAddr b 0 else dramBase
def blockEnd (s : State) (k b : Nat) : Nat :=
  if k = 0 then dmemAddr b + t0Bytes s b else if k = 1 then clusterAddr b + 0x00800000
  else if k = 2 then gbAddr b 0 + 0x01000000 else poolEnd s

/-- The earliest point from `a` on at which an interval of length `n` overlaps none of the given ones, points rounded up to a
multiple of `unit`; `fuel` is their number plus 1. -/
def earliestFrom (unit : Nat) (busy : List (Nat × Nat)) (n : Nat) : Nat → Nat → Nat
  | 0, a => a
  | fuel + 1, a =>
    match busy.find? fun e => e.1 < a + n && a < e.2 with
    | some e => earliestFrom unit busy n fuel (ceilDiv e.2 unit * unit)
    | none => a
def earliest (unit : Nat) (busy : List (Nat × Nat)) (n a : Nat) : Nat :=
  earliestFrom unit busy n (busy.length + 1) (ceilDiv a unit * unit)

/-- The lowest free address of a block for `n` bytes over an interval, if there is one (R91). -/
def findSpace (s : State) (held : List Space) (k b n from_ toward : Nat) : Option Nat :=
  let u := tierUnit k
  let len := ceilDiv n u * u
  let taken := (held.filter fun e => e.block == 256 * k + b && e.from_ < toward && from_ < e.toward).map fun e => (e.addr, e.addr + e.len)
  let fenced := (fencedRanges s).map fun e => (e.1, e.1 + e.2)
  let retired := if k = 3 then s.sram.retired.map fun p => (p, p + 4096) else []
  let a := earliest u (taken ++ fenced ++ retired) len (blockStart k b)
  if a + len ≤ blockEnd s k b then some a else none

end Sys2Proof.Machine
end

