-- ==== Sys2Proof/Machine/Claims.lean ====
section
/-!
DEFINITION. What is bound to a Sage core beside its registers: the claim of its cluster's coprocessor (R272 to R276), its vector unit (R267,
R269), and how both are left when its program is over.
-/
namespace Sys2Proof.Machine

/-! ### Cores and vector units -/

/-- A core's record changed. -/
def modCore (n : Nat) (f : Core → Core) (s : State) : State :=
  { s with sage := { s.sage with cores := tmod s.sage.cores n {} f } }

/-- A vector unit. -/
def vecOf (s : State) (n : Nat) : VecUnit := tget s.sage.vecs n {}
def modVec (n : Nat) (f : VecUnit → VecUnit) (s : State) : State :=
  { s with sage := { s.sage with vecs := tmod s.sage.vecs n {} f } }

/-! ### The claim of a coprocessor -/

def cmcOf (s : State) (cl : Nat) : Cmc := tget s.sage.cmcs cl {}
def modCmc (cl : Nat) (f : Cmc → Cmc) (s : State) : State :=
  { s with sage := { s.sage with cmcs := tmod s.sage.cmcs cl {} f } }

/-- The core holds the claim. -/
def holdsClaim (s : State) (n : Nat) : Bool := (cmcOf s (n / 9)).holder == some (n % 9)

/-- A claim of unit `u` issued now would be refused (R274). -/
def cmcBusy (c : Cmc) (u : Nat) : Bool :=
  match c.holder with
  | some h => h != u
  | none => match c.resv with
    | some r => r.1 != u
    | none => false

/-- The requesting unit that comes next in the rotation after `u` (R273). -/
def nextRequester (c : Cmc) (u : Nat) : Option Nat := ((upto 9).map fun k => (u + 1 + k) % 9).find? fun x => c.requests.contains x

/-- Everything of a coprocessor but its claim, requests and reservation as in a fresh image. -/
def cmcFresh (c : Cmc) : Cmc :=
  { c with flags := 0, mstate := 0, nM1 := 0, inExp := 0, outExp := 0, input := [], result := [], pivots := none }

/-- Place of unit `u` in the rotation that starts after the last holder (R272). -/
def turnOf (c : Cmc) (u : Nat) : Nat := (u + 8 - c.last) % 9
/-- A claim of another core that issued at the same time comes first in the rotation (log 57). -/
def claimBeaten (s : State) (n : Nat) : Bool :=
  let c := cmcOf s (n / 9)
  c.resv.isNone && s.sage.cores.any fun e => e.1 / 9 == n / 9 && e.2.bundle.claimAt == some (now s) && decide (turnOf c (e.1 % 9) < turnOf c (n % 9))

/-- CX.CLAIM of core `n` (R272): the grant. -/
def cmcClaim (n : Nat) (s : State) : Bool × State :=
  let cl := n / 9
  let u := n % 9
  let c := cmcOf s cl
  if c.holder = some u then (true, s)
  else if cmcBusy c u || claimBeaten s n then
    (false, bump (kClCmcRefusals cl) (modCmc cl (fun c => { c with requests := (u :: c.requests).eraseDups }) s))
  else
    (true, bump (kClCmcClaims cl) (modCmc cl (fun c =>
      { cmcFresh c with holder := some u, since := now s, requests := c.requests.filter (· != u), resv := none }) s))

/-- The claim of core `n` is given up: the state is cleared and the next requester has the reservation (R273, R275). -/
def cmcRelease (n : Nat) (s : State) : State :=
  let cl := n / 9
  if holdsClaim s n then
    peak (kClCmcHoldMax cl) (tcToNs (now s - (cmcOf s cl).since)) (modCmc cl (fun c =>
      { cmcFresh c with holder := none, last := n % 9, resv := (nextRequester c (n % 9)).map fun v => (v, now s) }) s)
  else s

/-- The claim is revoked (R276). -/
def cmcRevoke (n : Nat) (s : State) : State :=
  if holdsClaim s n then bumpBy 32 (kClCmcRevokes (n / 9)) 1 (cmcRelease n s) else s

/-- A core's request bit is cleared (R273). -/
def dropRequest (n : Nat) (s : State) : State :=
  modCmc (n / 9) (fun c => { c with requests := c.requests.filter (· != n % 9) }) s

/-! ### The end of a job on a core -/

/-- The idle count of a vector unit starts again, with the VGATE_IDLE now written (R269). -/
def restartIdle (n : Nat) (s : State) : State :=
  let idle := rd s (kClVgateIdle (n / 9))
  modVec n (fun v => { v with idleFrom := now s, gateIdle := some idle }) s

/-- A core's program is over: its record goes, its claim and request with it, and the idle count of its vector unit starts again (R269, R273,
R275). -/
def coreStop (n : Nat) (s : State) : State :=
  let s1 := restartIdle n (dropRequest n (cmcRelease n s))
  { s1 with sage := { s1.sage with cores := tdel n s1.sage.cores } }

/-- Reads of host memory by a core's transfers leave. -/
def dropXferReads (n : Nat) (s : State) : State :=
  { s with host := { s.host with reads := s.host.reads.filter fun o => match o.use with
    | .xfer c _ _ => c != n
    | _ => true } }

/-- Contexts saved for jobs that their core no longer keeps are gone. -/
def dropSaved (s : State) : State :=
  { s with sage := { s.sage with ctxs := s.sage.ctxs.filter fun e =>
      ((unitSt s e.1).cur.toList ++ (unitSt s e.1).ctx).any fun r => r.gid == e.2.gid && r.num == e.2.num } }

/-- What ran on a unit is over: a core's record, claim, request and reads go with it (R207, R239, R275). -/
def unitOver (u : Nat) (s : State) : State := if isCore u then coreStop u (dropXferReads u s) else s


end Sys2Proof.Machine
end

