-- ==== Sys2Proof/Machine/Validate.lean ====
section
/-!
DEFINITION. Slot graphs as the device reads them (R43 to R66) and their validation, stage by stage (R81, Table 2-11, R288).
-/
namespace Sys2Proof.Machine

/-! ### Reading descriptors (Tables 2-1 to 2-6) -/

/-- Fields of a submission entry (Table 2-1), as a number of 512 bits. -/
def eKind (e : Nat) : Nat := fld e 0 8
def eSubTag (e : Nat) : Nat := fld e 16 16
def eCi (e : Nat) : Nat := fld e 32 9
def eAddr (e : Nat) : Nat := fld e 64 64
def eAir (e : Nat) : Nat := fld e 128 64

/-- Reserved fields of an entry are 0 (R46). -/
def entryReservedOk (e : Nat) : Bool :=
  let base := [(0, 8), (16, 16), (32, 9)]
  match eKind e with
  | 1 => onlyFields e (base ++ [(8, 1), (64, 64), (128, 64)])
  | 2 => onlyFields e (base ++ [(8, 1), (128, 64)])
  | _ => onlyFields e (base ++ [(8, 1), (64, 32)])

/-- A graph header (Table 2-2). -/
def headerReservedOk (h : Nat) : Bool :=
  onlyFields h [(0, 11), (16, 9), (32, 13), (48, 14), (64, 64), (128, 32), (160, 10), (176, 7), (192, 160)]
def hNJobs (h : Nat) : Nat := fld h 32 13
def hNBufs (h : Nat) : Nat := fld h 48 14

/-- A job descriptor (Table 2-3). -/
def jobOf (d : Nat) : JobD :=
  { op := fld d 0 12, droppable := bitAt d 16, notify := bitAt d 17, rank := fld d 24 8, flow := fld d 32 16,
    pinKind := fld d 48 3, pinClass := fld d 51 4, pinLoc := fld d 64 64, units := fld d 128 32, dlOfs := fld d 160 32,
    paramBuf := fld d 192 13, paramValid := bitAt d 207, paramLen := fld d 208 16, paramOfs := fld d 224 32,
    refs := ((upto 6).filter fun k => bitAt d (256 + 16 * k + 15)).map fun k => (k, fld d (256 + 16 * k + 13) 2, fld d (256 + 16 * k) 13),
    preds := ((upto 4).filter fun k => bitAt d (352 + 16 * k + 15)).map fun k => fld d (352 + 16 * k) 12,
    tag := fld d 416 32 }
def jobReservedOk (d : Nat) : Bool :=
  onlyFields d [(0, 12), (16, 2), (24, 8), (32, 16), (48, 7), (64, 128), (192, 13), (207, 49), (256, 96), (352, 12), (367, 1),
    (368, 12), (383, 1), (384, 12), (399, 1), (400, 12), (415, 1), (416, 32)]
/-- A reference or predecessor with VALID clear has other bits set (BUFREF of Table 2-11). -/
def slackBits (d : Nat) : Bool := (upto 10).any fun k => !bitAt d (256 + 16 * k + 15) && fld d (256 + 16 * k) 15 != 0

/-- A buffer descriptor (Tables 2-5, 2-6). -/
def bufOf (d : Nat) : BufD :=
  let k := fld d 0 4
  let fh := k == 3 || k == 4
  { kind := k, pin := fld d 4 3, zero := bitAt d 8, size := fld d 32 32,
    host := if k = 1 ∨ k = 2 then fld d 64 64 else 0, axcFirst := if fh then fld d 64 10 else 0,
    axcCount := if fh then fld d 80 11 else 0, symMask := if fh then fld d 96 14 else 0,
    secClass := if fh then fld d 112 8 else 0, key := if k = 5 then fld d 64 32 else 0,
    carryOp := if k = 5 then fld d 96 8 else 0 }
def bufReservedOk (d : Nat) : Bool :=
  let base := [(0, 7), (8, 1), (32, 32)]
  match fld d 0 4 with
  | 0 => onlyFields d base
  | 1 => onlyFields d (base ++ [(64, 64)])
  | 2 => onlyFields d (base ++ [(64, 64)])
  | 3 => onlyFields d (base ++ [(64, 10), (80, 11), (96, 14), (112, 8)])
  | 4 => onlyFields d (base ++ [(64, 10), (80, 11), (96, 14), (112, 8)])
  | 5 => onlyFields d (base ++ [(64, 40)])
  | _ => onlyFields d (base ++ [(64, 128)])

/-- The array elements of `n` bytes each in a byte list. -/
def elements (n : Nat) (l : List Byte) (count : Nat) : List Nat := (upto count).map fun i => fieldAt l (n * i) n

/-- A host bus range that the function reaches (R40). -/
def hostReach (a n : Nat) : Bool := a + n ≤ 0xFF00000000000

/-! ### References of a graph (R60) -/

/-- Jobs that reference buffer `b` in role 0 input, 1 output, 2 in-out. -/
def refsIn (jobs : List JobD) (role b : Nat) : List Nat :=
  (upto jobs.length).filter fun j => (jobs.getD j {}).refs.any fun r => r.2.1 == role && r.2.2 == b
/-- Derived predecessors of a job through its references, and the explicit ones (R60). -/
def predsOf (jobs : List JobD) (j : Nat) : List Nat :=
  let d := jobs.getD j {}
  let derived := d.refs.flatMap fun r =>
    if r.2.1 = 0 then refsIn jobs 1 r.2.2 ++ refsIn jobs 2 r.2.2
    else if r.2.1 = 2 then refsIn jobs 1 r.2.2 else []
  (d.preds ++ derived).eraseDups
/-- Jobs that depend on one of `l`, directly or through others, and `l` itself. -/
def closure (jobs : List JobD) (l : List Nat) : List Nat :=
  (upto jobs.length).foldl (fun acc j => if acc.contains j then acc
    else if (predsOf jobs j).any acc.contains then j :: acc else acc) l

/-- Subcarriers of an FH buffer's symbol: PRACH records hold 1,152 samples (R327). -/
def symBytes (d : Nat) (b : BufD) : Nat := if b.secClass = 1 then 4608 else 4 * ciSubcarriers d (b.kind == 3)

/-! ### Stages (R81) -/

/-- The first failing check: its code. -/
def firstFail : List (Bool × Nat) → Option Nat
  | [] => none
  | (bad, code) :: r => if bad then some code else firstFail r

/-- Stage 1 (R81): kind 1 checks the address as well. -/
def checkEntry (s : State) (t e : Nat) : Option Nat :=
  let k := eKind e
  firstFail [
    (!(1 ≤ k && k ≤ 3) || (bitAt e 8 && k != 1), 0x01),
    (!entryReservedOk e, 0x02),
    (ciTenant s (eCi e) != some t || (k == 1 && tenantState s t != 1), 0x03),
    (k == 1 && (eAddr e % 64 != 0 || !hostReach (eAddr e) 64), 0x04)]

/-- Another graph of the CI with the same AIR_START is in CHECKING, PLACED or RUNNING. -/
def hasTwin (s : State) (g : Graph) : Bool :=
  s.work.graphs.any fun x => x.id != g.id && x.ci == g.ci && x.air == g.air &&
    (x.st == .checking || x.st == .placed || x.st == .running)

/-- The last check of R71: a graph of the CI with this or a later AIR_START was accepted. -/
def outOfOrder (s : State) (g : Graph) : Bool := match tfind g.ci s.work.ciLast with
  | some a => g.air ≤ a
  | none => false

/-- Stage 3: the header (R71 to R73). -/
def checkHeader (s : State) (g : Graph) (h : Nat) : Option Nat :=
  let njobs := hNJobs h
  let nbufs := hNBufs h
  let ja := fld h 192 64
  let ba := fld h 256 64
  firstFail [
    (fld h 0 8 != 1, 0x06),
    (!headerReservedOk h, 0x02),
    (fld h 16 9 != g.ci || fld h 64 64 != g.air, 0x07),
    (!slotMatches (ciDesc s g.ci) (fld h 64 64) (fld h 160 10) (fld h 176 7), 0x08),
    (g.air < g.tArr + usToTc (rd s (kTeLeadTime g.tenant)), 0x09),
    (g.tArr + 39321600 < g.air, 0x0A),
    (hasTwin s g, 0x0B),
    (outOfOrder s g, 0x0C),
    (fld h 128 32 == 0 || 39321600 < fld h 128 32, 0x0D),
    (njobs == 0 || 4096 < njobs || 8192 < nbufs, 0x0E),
    (ja % 64 != 0 || !hostReach ja (64 * njobs) || (0 < nbufs && (ba % 64 != 0 || !hostReach ba (32 * nbufs))), 0x04)]

/-- The opcode may be used (R58, R59). -/
def opcodeOk (s : State) (t op : Nat) : Bool :=
  (opClass op).isSome || (0x100 ≤ op && progEnabled s (op - 0x100) t)
/-- PARAM_REF of Table 2-11. -/
def paramRefBad (s : State) (d : JobD) (bufs : List BufD) : Bool :=
  let b := bufs.getD d.paramBuf {}
  let isEng := (opClass d.op).isSome
  if d.paramValid then
    bufs.length ≤ d.paramBuf || !(b.kind == 1 || b.kind == 5) || b.size < d.paramOfs + d.paramLen ||
      d.paramOfs % 64 != 0 || d.paramLen % 4 != 0 || 4096 < d.paramLen ||
      (if isEng then !opParamLenOk d.op d.units d.paramLen else pArgMax (prog s (d.op - 0x100)) < d.paramLen)
  else isEng || d.paramBuf != 0 || d.paramLen != 0 || d.paramOfs != 0
/-- PIN_FORM of Table 2-11 (R52, R53); a PIN_CLASS or PIN_LOC that its PIN_KIND does not use and that is not 0 is one too (DESIGN CHOICE,
log 74). -/
def pinFormBad (s : State) (t : Nat) (d : JobD) : Bool :=
  let cls := opClass d.op
  let byProg := cls.isNone || !(progsFor s d.op t).isEmpty
  let k := locKind d.pinLoc
  match d.pinKind with
  | 0 => d.pinClass != 0 || d.pinLoc != 0
  | 1 => d.pinLoc != 0 || !(if d.pinClass = 0 then byProg else cls == some d.pinClass)
  | 2 => d.pinClass != 0 || !locValid d.pinLoc || locLvl d.pinLoc != 4 ||
      !(k == 1 && byProg || k == 2 && cls.isSome)
  | 3 => d.pinClass != 0 || !(match unitOf d.pinLoc with
      | some u => if isCore u then byProg else cls == some (unitClass u)
      | none => false)
  | _ => true

/-- Stage 5: one job, its descriptor word and fields. -/
def checkJob (s : State) (t dl nbufs : Nat) (bufs : List BufD) (j w : Nat) : Option Nat :=
  let d := jobOf w
  let refBufs := d.refs.map (·.2.2)
  firstFail [
    (!jobReservedOk w, 0x02),
    (!opcodeOk s t d.op, 0x10),
    (d.units == 0 || (match opClass d.op with
      | some _ => opLimit d.op < d.units
      | none => pMaxUnits (prog s (d.op - 0x100)) < d.units), 0x11),
    (dl < d.dlOfs, 0x12),
    (paramRefBad s d bufs, 0x13),
    (d.refs.any (fun r => nbufs ≤ r.2.2 || r.2.1 == 3) || refBufs.eraseDups.length != refBufs.length || slackBits w, 0x14),
    (d.preds.any (fun p => j ≤ p) || d.preds.eraseDups.length != d.preds.length, 0x15),
    (pinFormBad s t d, 0x16)]

/-- Tier pins admitted by a kind (Table 2-7). -/
def pinAdmitted (kind pin : Nat) : Bool :=
  pin == 0 || (match kind with
    | 0 => pin ≤ 4
    | 1 => pin ≤ 5
    | 2 => pin ≤ 5
    | 3 => pin ≤ 4
    | 4 => pin ≤ 4
    | _ => 2 ≤ pin && pin ≤ 4)
/-- Largest SIZE of a pinned buffer (R55). -/
def pinLimit (pin : Nat) : Nat :=
  if pin = 1 then 384 * 1024 else if pin = 2 then 8 * 2 ^ 20 else if pin = 3 then 16 * 2 ^ 20 else 2 ^ 28

/-- Carry buffers that a tenant holds on a CI (R57), and the one that bears a key (R48). -/
def carriesOf (s : State) (t ci : Nat) : List Carry := s.work.carries.filter fun c => c.tenant == t && c.ci == ci
def carryFind (s : State) (t ci key : Nat) : Option Carry :=
  (carriesOf s t ci).find? fun c => c.key == key && !c.released
/-- Two host ranges overlap. -/
def hostOverlap (a b : BufD) : Bool := a.host < b.host + b.size && b.host < a.host + a.size

/-- An AxC is bound to the CI (R56, R426). -/
def axcServes (s : State) (ci a : Nat) : Bool := bitAt (axcDesc s a) 0 && axcCi (axcDesc s a) == ci

/-- A carry buffer of a list fails CARRY of Table 2-11 (R48, R57): buffer `i`, with those before it in the graph. -/
def carryBad (s : State) (g : Graph) (bufs : List BufD) (i : Nat) : Bool :=
  let b := bufs.getD i {}
  let created := (bufs.take i).filter fun x => x.kind == 5 && x.carryOp == 1 && (carryFind s g.tenant g.ci x.key).isNone
  b.kind == 5 && (2 < b.carryOp || (match carryFind s g.tenant g.ci b.key with
    | some c => c.size != b.size
    | none => b.carryOp != 1 || 64 ≤ (carriesOf s g.tenant g.ci).length + created.length))
/-- Stage 6: one buffer. The manual gives SEC_CLASS 2 to 255 no code of its own: BUF_KIND (DESIGN CHOICE, log 74). -/
def checkBuf (s : State) (g : Graph) (bufs : List BufD) (i w : Nat) : Option Nat :=
  let b := bufOf w
  let fh := b.kind == 3 || b.kind == 4
  let d := ciDesc s g.ci
  let before := bufs.take i
  firstFail [
    (!bufReservedOk w, 0x02),
    (5 < b.kind || 5 < b.pin || !pinAdmitted b.kind b.pin || (b.zero && !(b.kind == 0 || (b.kind == 5 && b.carryOp == 1))) ||
      (fh && 1 < b.secClass), 0x20),
    (b.size % 64 != 0 || b.size < 64 || 2 ^ 28 < b.size || pinLimit b.pin < b.size ||
      (fh && b.size != b.axcCount * popcount 14 b.symMask * symBytes d b), 0x21),
    ((b.kind == 1 || b.kind == 2) && (b.host % 64 != 0 || !hostReach b.host b.size ||
      before.any fun x => (x.kind == 1 || x.kind == 2) && (x.kind == 2 || b.kind == 2) && hostOverlap x b), 0x22),
    (fh && (b.axcCount == 0 || 1024 < b.axcFirst + b.axcCount || b.symMask == 0 ||
      (axcsOf b).any (fun a => !axcServes s g.ci a) || (b.secClass == 0 && 2 ^ slotSymbols d ≤ b.symMask)), 0x23),
    (carryBad s g bufs i, 0x24)]

/-- Roles a kind admits (Table 2-7). -/
def roleAdmitted (kind role : Nat) : Bool :=
  match kind with
  | 1 => role == 0
  | 2 => role != 0
  | 3 => role == 0
  | 4 => role != 0
  | _ => true

/-- The first index of a list of checks that fails. -/
def firstBad (n : Nat) (bad : Nat → Bool) : Option Nat := (upto n).find? bad

/-- Stage 7: the graph as a whole; answers code and subject. -/
def checkGraph (jobs : List JobD) (bufs : List BufD) : Option (Nat × Nat) :=
  let roleKind := firstBad jobs.length fun j =>
    (jobs.getD j {}).refs.any fun r => !roleAdmitted (bufs.getD r.2.2 {}).kind r.2.1
  let p := refsIn jobs 1
  let io := refsIn jobs 2
  let c := refsIn jobs 0
  let depOrder := firstBad bufs.length fun b =>
    (p b).any (fun x => ((io b) ++ (c b)).any fun y => y ≤ x) || (io b).any fun x => (c b).any fun y => y ≤ x
  let multi := firstBad bufs.length fun b => 1 < (io b).length
  let noProd := firstBad bufs.length fun b =>
    (bufs.getD b {}).kind == 0 && !(c b).isEmpty && (p b).isEmpty && (io b).isEmpty && !(bufs.getD b {}).zero
  let chain := firstBad jobs.length fun j =>
    !(jobs.getD j {}).droppable && (predsOf jobs j).any fun x => (jobs.getD x {}).droppable
  match roleKind, depOrder, multi, noProd, chain with
  | some j, _, _, _, _ => some (0x30, j)
  | _, some b, _, _, _ => some (0x31, b)
  | _, _, some b, _, _ => some (0x32, b)
  | _, _, _, some b, _ => some (0x33, b)
  | _, _, _, _, some j => some (0x34, j)
  | _, _, _, _, _ => none

/-- What a block check sees of job `d` (R288). -/
def blockCtx (s : State) (g : Graph) (d : JobD) (bufs : List BufD) : BlockCtx :=
  { op := d.op, units := d.units, len := d.paramLen,
    refs := (upto 6).map fun k => (d.refs.find? fun r => r.1 == k).map fun r => (r.2.1, (bufs.getD r.2.2 {}).size),
    prbs := ciPrbs (ciDesc s g.ci), quota := fld (rd s kEnSbQuota) (32 * g.tenant) 32, ncbMax := rd s kEnSbNcbMax,
    slotOk := fun k => match (tget s.radio.bindings (4 * g.tenant + k) {}).state with
      | .free => false
      | _ => true }

/-- Spatial layers of a graph: the most of its equaliser jobs (log 75). -/
def layersOf (jobs : List JobD) (blocks : Table Nat) : Nat :=
  (upto jobs.length).foldl (fun m j => match (jobs.getD j {}).op == 0x051, tfind j blocks with
    | true, some b => max m (pf b 1 0 5)
    | _, _ => m) 0
/-- Layers of the CIs that have graphs in the device, each with the most of its graphs, but for one graph (R32, log 75). -/
def layersHeld (s : State) (g : Graph) : Nat :=
  let others := s.work.graphs.filter fun x => x.id != g.id && x.ci != g.ci
  sumBy (others.map (·.ci)).eraseDups fun ci => (others.filter fun x => x.ci == ci).foldl (fun m x => max m (layersOf x.jobs x.blocks)) 0

/-- After the stages: blocks in HOST_IN buffers are checked against their chapter (R288); a quantum that takes more than 8 µs at 1.5 GHz is
UNITS_RANGE (R102, R291); more than 512 layers in aggregate are PARAM_CONTENT at the first equaliser job (R32, log 75). -/
def checkBlocks (s : State) (g : Graph) (jobs : List JobD) (bufs : List BufD) (blocks : Table Nat) : Option (Nat × Nat) :=
  let bad := fun (j : Nat) =>
    let d := jobs.getD j {}
    match opClass d.op, tfind j blocks with
    | some _, some b =>
      if (bufs.getD d.paramBuf {}).kind ≠ 1 then none
      else if !blockOk (blockCtx s g d bufs) b then some 0x50
      else if 12000 < quantumCycles d.op b (fld (rd s kEnLddCap) (8 * g.tenant) 8) (opQuanta d.op b d.units) then some 0x11
      else none
    | _, _ => none
  match (upto jobs.length).findSome? fun j => (bad j).map fun c => (c, j) with
  | some e => some e
  | none =>
    if layersOf jobs blocks + layersHeld s g ≤ 512 then none
    else (firstBad jobs.length fun j => (jobs.getD j {}).op == 0x051).map fun j => (0x50, j)

/-- The first job or buffer that fails its stage: code and number. -/
def firstElem (n : Nat) (check : Nat → Option Nat) : Option (Nat × Nat) :=
  (upto n).findSome? fun i => (check i).map fun c => (c, i)

/-- Stages 5 to 7 over the arrays as fetched: error code and subject (R81). -/
def checkArrays (s : State) (g : Graph) (h : Nat) (jw bw : List Nat) : Option (Nat × Nat) :=
  let bufs := bw.map bufOf
  match firstElem jw.length fun j => checkJob s g.tenant (fld h 128 32) bufs.length bufs j (jw.getD j 0) with
  | some e => some e
  | none => match firstElem bw.length fun i => checkBuf s g bufs i (bw.getD i 0) with
    | some e => some e
    | none => checkGraph (jw.map jobOf) bufs

end Sys2Proof.Machine
end

