-- ==== Sys2Proof/Machine/Place.lean ====
section
/-!
DEFINITION. Placement as a function of the state and a graph (R83 to R124): units, homes, copies, reservations, prediction,
shedding, templates. Nothing here changes the state; the rows of Machine/Commit.lean do.
-/
namespace Sys2Proof.Machine

/-- What a placement works on: the snapshot, the graph, the commit time it assumes (log 16). -/
structure PlCtx where
  s : State
  g : Graph
  t0 : Nat

namespace Pl

/-! ### Times and clocks (R95, R96) -/

/-- Clock of a unit's domain, MHz: the one in force at the commit; NoC and DMA engines run at 2,000 (R586, R33). -/
def mhz (s : State) (u : Nat) : Nat := if unitDom u < 20 ∧ u < 228 then rd s (kPdClkNow (unitDom u)) else 2000

/-- Cycles of quanta `a` to `a + n − 1` of job `j` on an engine; a block in a CARRY buffer is timed at the largest value (R288). -/
def engCycles (c : PlCtx) (j a n : Nat) : Nat :=
  let d := c.g.jobs.getD j {}
  let cap := fld (rd c.s kEnLddCap) (8 * c.g.tenant) 8
  match tfind j c.g.blocks with
  | some b => if (c.g.bufs.getD d.paramBuf {}).kind = 1 then opCycles d.op b cap a n else Config.worstCycles d.op n cap
  | none => Config.worstCycles d.op n cap

/-- Split quanta of a job (R101). -/
def quanta (c : PlCtx) (j : Nat) : Nat :=
  let d := c.g.jobs.getD j {}
  if d.op = 0x030 then (d.paramLen - 32) / 16 else d.units

/-- Cycles of a share of job `j` on unit `u`, by program `p` on a core (R95). -/
def shareCycles (c : PlCtx) (j u : Nat) (p : Option Nat) (a n : Nat) : Nat :=
  match p with
  | some i => progCycles (progRun c.s i) (c.g.jobs.getD j {}).units
  | none => if isCore u then 0 else engCycles c j a n

/-- Quanta of the next chunk of `n` quanta from `a` on: the most whose cycles fit 8 µs (R102). -/
def chunkSize (c : PlCtx) (j u a n : Nat) : Nat :=
  let f := mhz c.s u
  let ok := (upto (n + 1)).filter fun m => 0 < m && engCycles c j a m ≤ 8 * f
  max 1 (ok.foldl max 1)

/-! ### Sources of a job's data -/

/-- A placed job or copy by number. -/
def rtOf (l : List JobRt) (n : Nat) : Option JobRt := l.find? fun r => r.p.num == n
/-- Quadrant of the unit that runs it. -/
def quadOf (r : JobRt) : Nat := unitQuad ((r.p.shares.headD { unit := 0 }).unit)

/-- Quadrant of the port of an FH buffer (R27): that of its first AxC's lane, where a rule takes one port (log 70). -/
def portQuad (s : State) (b : BufD) : Nat := axcLane s b.axcFirst / 16
/-- Distance from the ports of an FH buffer to a quadrant: that of the farthest of its AxC. -/
def portDist (s : State) (b : BufD) (q : Nat) : Nat := (axcsOf b).foldl (fun m a => max m (quadDist (axcLane s a / 16) q)) 0

/-- Carry keys of a graph's buffers. -/
def keysOf (x : Graph) (l : List Nat) : List Nat :=
  (l.map fun b => x.bufs.getD b {}).filterMap fun b => if b.kind = 5 then some b.key else none
/-- Carry keys that a job references, by its references or as its block, and those a copy touches. -/
def carryKeys (x : Graph) (num : Nat) (copy : Option CopyD) : List Nat :=
  match copy with
  | some d => keysOf x [d.buf]
  | none =>
    let d := x.jobs.getD num {}
    keysOf x (d.refs.map (·.2.2) ++ if d.paramValid then [d.paramBuf] else [])
/-- Jobs of earlier graphs of the CI that share a carry key with a job or copy and have not ended, with their copies (R66). -/
def carryWaits (s : State) (g : Graph) (num : Nat) (copy : Option CopyD) : List JobRt :=
  let mine := carryKeys g num copy
  if mine.isEmpty then []
  else s.work.graphs.flatMap fun x =>
    if x.ci = g.ci ∧ x.tenant = g.tenant ∧ x.air < g.air ∧ (x.st = .placed ∨ x.st = .running) then
      x.rts.filter fun r => r.st != .ended && r.st != .released && (carryKeys x r.p.num r.p.copy).any mine.contains
    else []

/-- The binding that a COLLECT block names, and the time that gates it: AIR_START + CUTOFF_OFS + REC_LATENCY (R376, R377). -/
def blockBinding (s : State) (t b : Nat) : Binding := tget s.radio.bindings (4 * t + pf b 1 0 2) {}
def collectGate (s : State) (g : Graph) (j : Nat) : Option Nat :=
  match (g.jobs.getD j {}).op == 0x060, tfind j g.blocks with
  | true, some b =>
    if bitAt b 0 then none
    else
      let lat := if bitAt (blockBinding s g.tenant b).desc 0 then rd s (kMaRecLatencyE 0) else rd s (kMaRecLatencyS 0)
      some (((g.air : Int) + toInt 32 (pf b 4 0 32)).toNat + nsToTc lat)
  | _, _ => none

/-- The MAR that alone serves a 0x060 job: its binding's, or the sequencer's (R376). -/
def marUnitOf (s : State) (g : Graph) (j : Nat) : Option Nat :=
  match (g.jobs.getD j {}).op == 0x060, tfind j g.blocks with
  | true, some b =>
    if bitAt b 0 then unitOf (rd s kIdSequencer)
    else some (engUnit (marEngine (fld (blockBinding s g.tenant b).desc 8 2)))
  | _, _ => none

/-- The ready time of job `j`, or of a copy, with predecessors `preds` on quadrant `q` (R96). -/
def readyTime (c : PlCtx) (placed : List JobRt) (preds : List Nat) (bufs : List BufD) (j : Nat) (copy : Option CopyD) (q : Nat) : Nat :=
  let gate := nsToTc 200
  let hop := fun (a : Nat) => nsToTc (100 * quadDist a q)
  let base := c.t0 + gate
  let a1 := preds.foldl (fun m n => match rtOf placed n with
    | some r => max m (r.fin + hop (quadOf r))
    | none => m) base
  let a2 := bufs.foldl (fun m b => if b.kind = 3 then max m (fhReadyTime c.s c.g b + gate + nsToTc (100 * portDist c.s b q)) else m) a1
  let a3 := match if j < 4096 then collectGate c.s c.g j else none with
    | some t => max a2 (t + gate)
    | none => a2
  (carryWaits c.s c.g j copy).foldl (fun m r => max m (r.fin + hop (quadOf r))) a3

/-- Bookings of a unit: those of every committed graph, then those of this plan. -/
def busy (s : State) (u : Nat) : List (Nat × Nat) :=
  s.work.graphs.flatMap fun g => g.rts.flatMap fun r =>
    if r.st = .ended ∨ r.st = .released then [] else (r.p.shares.filter fun h => h.unit == u).map fun h => (h.start, h.fin)
def busyIn (l : List JobRt) (u : Nat) : List (Nat × Nat) :=
  l.flatMap fun r => (r.p.shares.filter fun h => h.unit == u).map fun h => (h.start, h.fin)

/-- Booked intervals that bear placement votes, in the state and in the plan. -/
def votes (s : State) (l : List JobRt) : List (Nat × Nat × Nat) :=
  (s.work.votes.map fun v => (v.1, v.2.2.2.2, v.2.2.1)) ++
    l.flatMap fun r => r.p.shares.map fun h => (unitDom h.unit, h.start, h.fin)

/-- A placement vote of a domain covers [a, b]: an interval booked there reaches b and begins within 2 ms of a, or ended
within the 2 ms before a (DEDUCED from the worked example of placement, log 17). -/
def voted (l : List (Nat × Nat × Nat)) (d a b : Nat) : Bool :=
  l.any fun v => v.1 == d && ((v.2.1 ≤ a + msToTc 2 && b ≤ v.2.2) || (v.2.2 ≤ b && a ≤ v.2.2 + msToTc 2))

/-- Exit time of the state a domain is predicted to be in at `a`, ns: none where a booked interval's PS0 vote holds it, at most that of
PS3 where an interval begins within 2 ms, else that of its present state (R97, R578). -/
def exitAt (c : PlCtx) (placed : List JobRt) (d a : Nat) : Nat :=
  let l := (votes c.s placed).filter fun v => v.1 == d
  if l.any fun v => v.2.1 ≤ a + usToTc (rd c.s kPwGovLead) && a ≤ v.2.2 then 0
  else if l.any fun v => a < v.2.1 && v.2.1 ≤ a + msToTc 2 then exitNs (min 3 (domState c.s d))
  else exitNs (domState c.s d)

/-- A booking of `e` Tc on a unit from `a` on: start, with the rest of the domain's exit time (R97). -/
def startOn (c : PlCtx) (placed : List JobRt) (u a e : Nat) : Nat :=
  let b := busy c.s u ++ busyIn placed u
  earliest 1 b e (a + (nsToTc (exitAt c placed (unitDom u) a) - (a - c.t0)))

/-! ### Phase 1: units (R98 to R101) -/

/-- Most cycles of a quantum of coding job `j` on an engine; 0 for any other job (R291). -/
def quantumOf (s : State) (g : Graph) (j : Nat) : Nat :=
  let d := g.jobs.getD j {}
  let cap := fld (rd s kEnLddCap) (8 * g.tenant) 8
  match decide (d.op ≤ 0x030), tfind j g.blocks with
  | true, some b => quantumCycles d.op b cap (if d.op = 0x030 then (d.paramLen - 32) / 16 else d.units)
  | true, none => Config.worstCycles d.op 1 cap
  | false, _ => 0

/-- A coding job goes only to a group whose clock brings one quantum within 8 µs (R291). -/
def quantumFits (c : PlCtx) (j u : Nat) : Bool := quantumOf c.s c.g j ≤ 8 * mhz c.s u

/-- The lowest notch of the clock at which a job meets R238 on a core, or R291 on an engine (R586), MHz. -/
def lowClock (s : State) (g : Graph) (p : PJob) (u : Nat) : Nat :=
  if isCore u then match p.prog with
    | some e => 100 * ceilDiv (pYieldCycles (progRun s e) + 600) 2000
    | none => 0
  else 100 * ceilDiv (quantumOf s g p.num) 800

/-- Units a job may take, each with the program that runs it on a core (R52, R100, R116, R238, R291). -/
def candidates (c : PlCtx) (j : Nat) : List (Nat × Option Nat) :=
  let s := c.s
  let t := c.g.tenant
  let d := c.g.jobs.getD j {}
  let cls := opClass d.op
  let progs := (if cls.isSome then progsFor s d.op t else [d.op - 0x100]).filter fun p => !s.work.loading.contains p
  let onCore := d.pinKind != 1 || d.pinClass == 0
  let onEngine := d.pinKind != 1 || some d.pinClass == cls
  let strict := rd s (kTePinPolicy t) == 1 && 2 ≤ d.pinKind
  let pinOk := fun u => (match d.pinKind with
    | 2 => (if isCore u then locKind d.pinLoc == 1 && u / 9 == locGrp d.pinLoc
        else locKind d.pinLoc == 2 && (u - 108) / 15 == locGrp d.pinLoc)
    | 3 => unitOf d.pinLoc == some u
    | _ => true) && (match marUnitOf s c.g j with
      | some m => m == u
      | none => true) && (!strict || dedicatedTo s t c.g.ci u)
  let cores := if onCore then progs.flatMap fun p => ((upto 108).filter fun u =>
      pResident (progRun s p) (u / 9) && !(bitAt (progRun s p) 20 && cmcFenced s (u / 9)) && yieldsAt (progRun s p) (mhz s u) && admits s t c.g.ci u && pinOk u).map fun u => (u, some p) else []
  let engines := if onEngine && cls.isSome then ((upto 120).filter fun e =>
      cls == some (classOf e) && quantumFits c j (engUnit e) && admits s t c.g.ci (engUnit e) && pinOk (engUnit e)).map fun e => (engUnit e, none) else []
  cores ++ engines

/-- UNITS of `q` quanta divided into `k` shares that differ by at most one, the larger first (R101). -/
def divide (q k : Nat) : List (Nat × Nat) :=
  (upto k).map fun i => (i * (q / k) + min i (q % k), q / k + (if i < q % k then 1 else 0))

/-- A choice for a job: its shares with predicted times, its key (⌈F ÷ T_Q⌉, ASLEEP, H, LOC, k) and the time charge of each share. -/
structure Choice where
  prog : Option Nat
  shares : List PShare
  key : List Nat
  ns : List Nat

/-- Keys are compared element by element (R98). -/
def keyLess : List Nat → List Nat → Bool
  | a :: x, b :: y => a < b || (a == b && keyLess x y)
  | _, _ => false

/-- H of R98: bytes of the input buffers by distance from their producer or port. DESIGN CHOICE (log 70): with several producers the
highest-numbered one placed counts; a buffer without a producer in the graph counts 0. -/
def haul (c : PlCtx) (placed : List JobRt) (j q : Nat) : Nat :=
  let d := c.g.jobs.getD j {}
  d.refs.foldl (fun n r =>
    let b := c.g.bufs.getD r.2.2 {}
    if r.2.1 = 1 then n
    else if b.kind = 3 then n + b.size * quadDist (portQuad c.s b) q
    else match ((refsIn c.g.jobs 1 r.2.2 ++ refsIn c.g.jobs 2 r.2.2).filter fun p => p < j && (rtOf placed p).isSome).foldl max 0,
        (refsIn c.g.jobs 1 r.2.2 ++ refsIn c.g.jobs 2 r.2.2).any (fun p => p < j && (rtOf placed p).isSome) with
      | p, true => match rtOf placed p with
        | some x => n + b.size * quadDist (quadOf x) q
        | none => n
      | _, false => n) 0

/-- The choice of job `j` on units `us`, one share each. -/
def tryUnits (c : PlCtx) (placed : List JobRt) (j : Nat) (p : Option Nat) (us : List Nat) : Choice :=
  let d := c.g.jobs.getD j {}
  let u0 := us.headD 0
  let bufs := (d.refs.filter fun r => r.2.1 != 1).map fun r => c.g.bufs.getD r.2.2 {}
  let a := readyTime c placed (predsOf c.g.jobs j) bufs j none (unitQuad u0)
  let parts := divide (quanta c j) us.length
  let shares := (us.zip parts).map fun x =>
    let cyc := shareCycles c j x.1 p x.2.1 x.2.2
    let f := mhz c.s x.1
    let e := cyclesToTc cyc f
    let st := startOn c placed x.1 a e
    ({ unit := x.1, first := x.2.1, n := x.2.2, start := st, fin := st + e, mhz := f } : PShare)
  let ns := (us.zip parts).map fun x => cyclesToNs (shareCycles c j x.1 p x.2.1 x.2.2) (mhz c.s x.1)
  let fin := shares.foldl (fun m h => max m h.fin) 0
  let st := shares.foldl (fun m h => min m h.start) fin
  { prog := p, shares := shares, ns := ns,
    key := [ceilDiv fin 64, b2n !(voted (votes c.s placed) (unitDom u0) st fin), haul c placed j (unitQuad u0), unitLoc u0, us.length] }

/-- Every choice of a job: each core; each engine alone; or, for an opcode that splits, each run of k admitted units of the
class in one group (R101, log 18). -/
def choices (c : PlCtx) (placed : List JobRt) (j : Nat) : List Choice :=
  let d := c.g.jobs.getD j {}
  let cands := candidates c j
  cands.flatMap fun x =>
    if isCore x.1 || !opSplits d.op || d.pinKind = 3 then [tryUnits c placed j x.2 [x.1]]
    else
      let mates := (cands.filter fun y => isEngine y.1 && (y.1 - 108) / 15 == (x.1 - 108) / 15 && x.1 ≤ y.1).map (·.1)
      (upto (min mates.length (quanta c j))).map fun k => tryUnits c placed j none (mates.take (k + 1))

/-- The lowest key; the earlier on equal keys. -/
def bestChoice : List Choice → Option Choice
  | [] => none
  | x :: r => match bestChoice r with
    | none => some x
    | some y => if keyLess y.key x.key then some y else some x

/-- Time charges of shares: none on units dedicated to the tenant (R191). -/
def timeCharges (s : State) (shares : List PShare) (ns : List Nat) : List Charge :=
  (shares.zip ns).flatMap fun x =>
    if roleShared (roleWord s x.1.unit) then splitCharge (unitClass x.1.unit) x.2 x.1.start x.1.fin else []

/-- What a phase has placed so far. -/
structure Acc where
  rts : List JobRt := []
  made : List Charge := []
  isOver : List Nat := []
  links : List (Nat × Nat × Nat × Nat) := []
  refused : Option (Nat × Nat × Nat) := none

/-- Refusal of a job with no candidate (Tables 3-3, 3-4). -/
def noUnit (d : JobD) (j : Nat) : Nat × Nat × Nat :=
  if d.pinKind = 3 ∨ (d.op = 0x060 ∧ d.pinKind ≠ 0) then (0x0A, 0x40, j) else if d.pinKind ≠ 0 then (0x0A, 0x41, j) else (0x06, 0x4B, j)

/-- Phase 1 for one job; `fixed` holds what a re-placement keeps (R128). -/
def placeJob (c : PlCtx) (fixed : List JobRt) (a : Acc) (j : Nat) : Acc :=
  if a.refused.isSome then a
  else match rtOf fixed j with
    | some r => { a with rts := a.rts ++ [r] }
    | none =>
      let d := c.g.jobs.getD j {}
      if (predsOf c.g.jobs j).any a.isOver.contains then { a with isOver := j :: a.isOver }
      else match bestChoice (choices c a.rts j) with
        | none => { a with refused := some (noUnit d j) }
        | some ch =>
          let fin := ch.shares.foldl (fun m h => max m h.fin) 0
          let st := ch.shares.foldl (fun m h => min m h.start) fin
          let new := timeCharges c.s ch.shares ch.ns
          let fits := chargesFit c.s c.g.tenant a.made new
          let refuse := rd c.s (kTePolicy c.g.tenant) == 0
          if !fits && refuse then { a with isOver := j :: a.isOver }
          else
            let pj : PJob := { num := j, shares := ch.shares, prog := ch.prog, preds := predsOf c.g.jobs j, flow := d.flow, best := !fits }
            { a with rts := a.rts ++ [{ p := pj, start := st, fin := fin }], made := if fits then a.made ++ new else a.made }

/-- Phase 1. -/
def phase1 (c : PlCtx) (fixed : List JobRt) : Acc := (upto c.g.jobs.length).foldl (placeJob c fixed) {}

/-! ### Phase 2: homes (R91 to R94, R103, R116, R117) -/

/-- Negotiated rate of the host link per direction, MB/s: 63,000 at Gen5 x16 (Table 3-2, log 15). -/
def hostRate (s : State) : Nat :=
  let w := rd s kHoWidth
  match rd s kHoSpeed with
  | 5 => 63000 * w / 16
  | 4 => 31500 * w / 16
  | 3 => 15750 * w / 16
  | 2 => 8000 * w / 16
  | 1 => 4000 * w / 16
  | _ => 63000

/-- Planning rate of a tier, MB/s (Table 3-1, R490). -/
def tierRate (s : State) (k : Nat) : Nat :=
  if k = 3 then rd s kDrPeakBw / 1000000 * rd s kDrPlanPct / 100 else if k = 4 then hostRate s else 128000

/-- Tc to move `n` bytes at a rate in MB/s. -/
def moveTc (n rate : Nat) : Nat := nsToTc (ceilDiv (n * 1000) (max 1 rate))

/-- Jobs that reference a buffer and are placed. -/
def users (c : PlCtx) (rts : List JobRt) (b : Nat) : List JobRt :=
  rts.filter fun r => r.p.num < 4096 && (c.g.jobs.getD r.p.num {}).refs.any fun x => x.2.2 == b

/-- The interval a buffer holds space for (Table 2-9); none when nothing holds it. -/
def lifetime (c : PlCtx) (rts : List JobRt) (b : Nat) : Option (Nat × Nat) :=
  let d := c.g.bufs.getD b {}
  let us := users c rts b
  let fin := us.foldl (fun m r => max m r.fin) 0
  let st := us.foldl (fun m r => min m r.start) fin
  let all := rts.foldl (fun m r => max m r.fin) c.t0
  let asParam := c.g.jobs.any fun j => j.paramValid && j.paramBuf == b
  if d.pin = 5 then none
  else match d.kind with
    | 0 => if us.isEmpty then none else some (st, fin)
    | 1 => if us.isEmpty then (if asParam then some (c.t0, all) else none) else some (c.t0, max fin (if asParam then all else 0))
    | 2 => if us.isEmpty then none
      else some (st, fin + nsToTc 200 + moveTc d.size (hostRate c.s) + nsToTc (rd c.s kPlLHost))
    | 3 => some (c.g.air, max fin (fhReadyTime c.s c.g d))
    | 4 => if us.isEmpty then none
      else some (st, max fin ((axcsOf d).foldl (fun m a => (symsOf d.symMask).foldl
        (fun m k => max m (txClose c.s c.g.ci c.g.air c.g.slot a k)) m) 0))
    | _ => some (c.t0, 2 ^ 64)

/-- Referencing groups of a buffer: (class, level-4 block), port groups as class 12, a staged host copy as (13, none) (R103). -/
def groups (c : PlCtx) (rts : List JobRt) (b : Nat) : List (Nat × Nat) :=
  let d := c.g.bufs.getD b {}
  let of := fun (u : Nat) => if isCore u then (0, u / 9) else (unitClass u, (u - 108) / 15)
  let byJobs := (users c rts b).flatMap fun r => r.p.shares.map fun h => of h.unit
  let port := if d.kind = 3 ∨ d.kind = 4 then (axcsOf d).map fun a => (12, axcLane c.s a / 4) else []
  (byJobs ++ port ++ (if d.kind = 1 ∨ d.kind = 2 then [(13, 0)] else [])).eraseDups

/-- Quadrant of a group. -/
def groupQuad (x : Nat × Nat) : Option Nat :=
  if x.1 = 0 then some (x.2 / 3) else if x.1 = 12 then some (x.2 / 4) else if x.1 = 13 then none else some (x.2 / 2)

/-- The cluster whose Sage groups make up half of all groups (rule 2 of R103). -/
def ruleCluster (gs : List (Nat × Nat)) : Option Nat :=
  (upto 12).find? fun k => gs.contains (0, k) && gs.length ≤ 2
/-- The quadrant that holds the most groups; the lowest on a tie, the home unit's with none (log 18). -/
def ruleQuad (pu : Nat) (gs : List (Nat × Nat)) : Nat :=
  let n := fun q => (gs.filter fun x => groupQuad x == some q).length
  if (gs.filterMap groupQuad).isEmpty then pu
  else (upto 4).foldl (fun best q => if n best < n q then q else best) 0

/-- Quadrants by ascending distance from `q`, the lower number first. -/
def nearQuads (q : Nat) : List Nat := sortBy (fun a b => quadDist q a < quadDist q b || (quadDist q a == quadDist q b && a ≤ b)) (upto 4)

/-- Blocks of a tier in the order they are tried from quadrant `q`, and cluster `k` first for T1 (rule 4 of R103). -/
def blocksOf (tier q : Nat) (k : Option Nat) : List Nat :=
  match tier with
  | 1 => let f := k.getD (3 * q)
    f :: ((upto 3).map (3 * (f / 3) + ·)).filter (· != f)
  | 2 => nearQuads q
  | _ => [0]

/-- Space found for a buffer: tier, block, address; or how it failed. -/
inductive Fit where
  | at_ (h : Home)
  | full
  | quota
deriving DecidableEq, Repr

/-- The tenant's quota of a tier admits `n` more bytes over an interval (R181). -/
def quotaOk (s : State) (held : List Space) (t k n a b : Nat) : Bool :=
  heldPeak held t k a b + ceilDiv n (tierUnit k) * tierUnit k ≤ rd s (kTeQuota t k)

/-- The first block of a tier with room. -/
def fitTier (c : PlCtx) (held : List Space) (k : Nat) (blocks : List Nat) (n a b : Nat) : Fit :=
  if !quotaOk c.s held c.g.tenant k n a b then .quota
  else match blocks.findSome? fun x => (findSpace c.s held k x n a b).map fun ad => (x, ad) with
    | some (x, ad) => .at_ { tier := k, block := x, addr := ad }
    | none => .full

/-- Tiers tried in turn: no room goes on to the next; a spent quota goes on under the best-effort policy and refuses under the
refusal policy (Table 3-3). -/
def fitTiers (c : PlCtx) (held : List Space) (n a b : Nat) (last : Fit) : List (Nat × List Nat) → Fit
  | [] => last
  | (k, bl) :: r => match fitTier c held k bl n a b with
    | .at_ h => .at_ h
    | .quota => if rd c.s (kTePolicy c.g.tenant) = 0 then .quota else fitTiers c held n a b .quota r
    | .full => fitTiers c held n a b (if last = .quota then .quota else .full) r

/-- The core on which every user of a buffer runs (rule 1 of R103). -/
def oneCore (us : List JobRt) : Option Nat :=
  match us.flatMap fun r => r.p.shares.map (·.unit) with
  | [] => none
  | u :: r => if isCore u && r.all (· == u) then some u else none

/-- The home of a pinned buffer (R116, R117). DESIGN CHOICE (log 72): a T1 pin tries first the cluster of rule 2 of R103, else that of its
lowest-numbered core, else the lowest of the quadrant with most groups. -/
def pinnedHome (c : PlCtx) (rts : List JobRt) (held : List Space) (b a e : Nat) : Except (Nat × Nat × Nat) Home :=
  let d := c.g.bufs.getD b {}
  let us := users c rts b
  let gs := groups c rts b
  let cores := (us.filter fun r => r.p.prog.isSome).flatMap fun r => r.p.shares.map (·.unit)
  let q := ruleQuad c.g.pu gs
  if d.pin = 1 then
    match cores with
    | [] => .error (0x0A, 0x43, b)
    | u :: _ =>
      let charged := roleShared (roleWord c.s u)
      if charged && !quotaOk c.s held c.g.tenant 0 d.size a e then .error (0x0A, 0x42, b)
      else match findSpace c.s held 0 u d.size a e with
        | some ad => .ok { tier := 0, block := u, addr := ad }
        | none => .error (0x0A, 0x42, b)
  else
    let k := d.pin - 1
    let first := match ruleCluster gs, cores with
      | some x, _ => some x
      | none, u :: r => some (r.foldl min u / 9)
      | none, [] => none
    match fitTier c held k (blocksOf k q first) d.size a e with
    | .at_ h => .ok h
    | _ => .error (0x0A, 0x42, b)

/-- The home of an unpinned buffer (R103). -/
def freeHome (c : PlCtx) (rts : List JobRt) (held : List Space) (b a e : Nat) : Except (Nat × Nat × Nat) Home :=
  let d := c.g.bufs.getD b {}
  let gs := groups c rts b
  let q := ruleQuad c.g.pu gs
  let paramOnly := (users c rts b).isEmpty && d.kind == 1
  let t0 : Fit := match oneCore (users c rts b) with
    | some u => if d.kind = 5 then .full
        else match findSpace c.s held 0 u d.size a e with
          | none => .full
          | some ad => if roleShared (roleWord c.s u) && !quotaOk c.s held c.g.tenant 0 d.size a e then .quota
              else .at_ { tier := 0, block := u, addr := ad }
    | none => .full
  if t0 = .quota ∧ rd c.s (kTePolicy c.g.tenant) = 0 then .error (0x06, 0x49, b)
  else match t0 with
  | .at_ h => .ok h
  | _ =>
    let deep := [(2, blocksOf 2 q none), (3, [0])]
    let tiers := if paramOnly then [(2, blocksOf 2 c.g.pu none), (3, [0])]
      else match ruleCluster gs with
        | some k => (1, blocksOf 1 q (some k)) :: [(2, blocksOf 2 (k / 3) none), (3, [0])]
        | none => deep
    match fitTiers c held d.size a e t0 tiers with
    | .at_ h => .ok h
    | .quota => .error (0x06, 0x49, b)
    | .full => .error (0x06, 0x48, b)

/-- What phase 2 has chosen so far. -/
structure Homes where
  homes : Table Home := []
  held : List Space := []
  mine : List Space := []
  refused : Option (Nat × Nat × Nat) := none

/-- Space taken. -/
def take (c : PlCtx) (h : Home) (n a e b : Nat) (x : Homes) : Homes :=
  let u := tierUnit h.tier
  let sp : Space :=
    { block := 256 * h.tier + h.block, addr := h.addr, len := ceilDiv n u * u, from_ := a, toward := e, tenant := c.g.tenant,
      gid := c.g.id, buf := b, charged := !(h.tier == 0 && !roleShared (roleWord c.s h.block)) }
  { x with held := sp :: x.held, mine := x.mine ++ [sp] }

/-- The home of one buffer; `kept` holds those a re-placement or an existing carry buffer keeps. -/
def homeOf (c : PlCtx) (rts : List JobRt) (kept : Table Home) (x : Homes) (b : Nat) : Homes :=
  let d := c.g.bufs.getD b {}
  if x.refused.isSome then x
  else match tfind b kept with
    | some h => { x with homes := tset b h x.homes }
    | none =>
      let carried := if d.kind = 5 then carryFind c.s c.g.tenant c.g.ci d.key else none
      if d.pin = 5 then { x with homes := tset b { tier := 4, block := 0, addr := hostBase + d.host } x.homes }
      else if d.pin = 1 ∧ !(users c rts b).any (fun r => r.p.prog.isSome) then { x with refused := some (0x0A, 0x43, b) }
      else match carried, lifetime c rts b with
        | some k, _ => { x with homes := tset b k.home x.homes }
        | none, none => x
        | none, some (a, e) =>
          match if d.pin = 0 then freeHome c rts x.held b a e else pinnedHome c rts x.held b a e with
          | .ok h => take c h d.size a e b { x with homes := tset b h x.homes }
          | .error r => { x with refused := some r }

/-- Phase 2. -/
def phase2 (c : PlCtx) (rts : List JobRt) (kept : Table Home) : Homes :=
  (upto c.g.bufs.length).foldl (homeOf c rts kept) { held := c.s.work.spaces }

/-! ### Phase 3: copies (R104 to R106) -/

/-- Copies inserted so far, with the jobs' added predecessors and areas. -/
structure Copies where
  copies : List PJob := []
  jobs : List PJob := []
  space : Homes := {}
  /-- Copies that a re-placement plans again: one made anew for the same purpose keeps its number (R139, R160). -/
  old : List PJob := []

/-- A job reaches the buffer only through a copy: LOCAL on a core, or a home in T0 for an engine (R90, R104). -/
def needsCopy (s : State) (p : PJob) (k : Nat) (h : Home) : Bool :=
  match p.prog with
  | some i => pRefLocal (progRun s i) k && !(h.tier == 0 && (p.shares.headD { unit := 0 }).unit == h.block)
  | none => h.tier == 0

/-- Two copies serve the same purpose. -/
def sameCopy (d : CopyD) (p : PJob) : Bool := match p.copy with
  | some e => e.buf == d.buf && e.kind == d.kind && e.job == d.job
  | none => false
/-- A copy appended; its number. -/
def addCopy (kind : CopyKind) (b job src dst len flow : Nat) (preds : List Nat) (x : Copies) : Nat × Copies :=
  let d : CopyD := { buf := b, job := job, kind := kind, src := src, dst := dst, len := len }
  let n := match x.old.find? (sameCopy d) with
    | some p => p.num
    | none => (x.copies ++ x.old).foldl (fun m p => max m (p.num + 1)) 4096
  (n, { x with copies := x.copies ++ [{ num := n, copy := some d, flow := flow, preds := preds.eraseDups }] })

/-- Copies of a buffer of a kind. -/
def copiesOf (x : Copies) (b : Nat) (kind : CopyKind) (job : Option Nat) : List Nat :=
  (x.copies.filter fun p => match p.copy with
    | some d => d.buf == b && d.kind == kind && (job.isNone || job == some d.job)
    | none => false).map (·.num)

/-- One reference of a job: staging from the host, the transient area, the copies in and back. DESIGN CHOICE (log 71): an engine's copy
of a buffer in T0 stands in T2 of the engine's quadrant, else of the others, else in T3. -/
def addRef (c : PlCtx) (homes : Table Home) (r : JobRt) (st : Copies × List Nat × List Nat × List (Nat × Nat)) (x : Nat × Nat × Nat) :
    Copies × List Nat × List Nat × List (Nat × Nat) :=
  let (cs, pre, backs, areas) := st
  let b := x.2.2
  let d := c.g.bufs.getD b {}
  let h := tget homes b { tier := 3, block := 0, addr := 0 }
  let j := r.p.num
  if cs.space.refused.isSome then st
  else
    let (cs1, stage) :=
      if d.kind = 1 ∧ h.tier ≠ 4 ∧ (copiesOf cs b .fromHost none).isEmpty then
        let (n, y) := addCopy .fromHost b j (hostBase + d.host) h.addr d.size r.p.flow [] cs
        (y, [n])
      else (cs, copiesOf cs b .fromHost none)
    let producers := (refsIn c.g.jobs 1 b ++ (if x.2.1 = 0 then refsIn c.g.jobs 2 b else [])).filter (· < j)
    let gates := stage ++ (producers.flatMap fun p => copiesOf cs1 b .back (some p)) ++ if x.2.1 = 1 then [] else producers
    if !needsCopy c.s r.p x.1 h then (cs1, pre ++ gates, backs, areas)
    else
      let u := (r.p.shares.headD { unit := 0 }).unit
      let fit := if isCore u then
          (if roleShared (roleWord c.s u) && !quotaOk c.s cs1.space.held c.g.tenant 0 d.size r.start r.fin then Fit.quota
           else match findSpace c.s cs1.space.held 0 u d.size r.start r.fin with
            | some a => .at_ { tier := 0, block := u, addr := a }
            | none => .full)
        else fitTiers c cs1.space.held d.size r.start r.fin .full [(2, blocksOf 2 (unitQuad u) none), (3, [0])]
      match fit with
      | .at_ hm =>
        let cs2 := { cs1 with space := take c hm d.size r.start r.fin b cs1.space }
        let (cs3, into) := if x.2.1 = 1 then (cs2, [])
          else let (n, y) := addCopy .into b j h.addr hm.addr d.size r.p.flow gates cs2
            (y, [n])
        (cs3, pre ++ gates ++ into, if x.2.1 = 0 then backs else backs ++ [b], areas ++ [(b, hm.addr)])
      | .quota => ({ cs1 with space := { cs1.space with refused := some (0x06, 0x49, b) } }, pre, backs, areas)
      | .full => ({ cs1 with space := { cs1.space with refused := some (0x06, 0x48, b) } }, pre, backs, areas)

/-- The copies of one job, in the order its references stand; those back follow it. -/
def addJob (c : PlCtx) (homes : Table Home) (cs : Copies) (r : JobRt) : Copies :=
  let d := c.g.jobs.getD r.p.num {}
  let (cs1, pre, backs, areas) := d.refs.foldl (addRef c homes r) (cs, [], [], [])
  let job := { r.p with preds := (r.p.preds ++ pre).eraseDups, areas := areas }
  let cs2 := { cs1 with jobs := cs1.jobs ++ [job] }
  backs.foldl (fun x b =>
    let src := ((areas.find? fun a => a.1 == b).map (·.2)).getD 0
    (addCopy .back b r.p.num src (tget homes b { tier := 3, block := 0, addr := 0 }).addr (c.g.bufs.getD b {}).size r.p.flow [r.p.num] x).2) cs2

/-- Copies to the host of staged HOST_OUT buffers, by buffer. -/
def addOut (c : PlCtx) (homes : Table Home) (rts : List JobRt) (cs : Copies) (b : Nat) : Copies :=
  let d := c.g.bufs.getD b {}
  match d.kind == 2, tfind b homes with
  | true, some h =>
    let us := (users c rts b).map (·.p.num)
    if h.tier = 4 ∨ us.isEmpty then cs
    else
      let prod := us.foldl max 0
      let preds := us ++ us.flatMap fun j => copiesOf cs b .back (some j)
      (addCopy .toHost b prod h.addr (hostBase + d.host) d.size (c.g.jobs.getD prod {}).flow preds cs).2
  | _, _ => cs

/-- Every copy of the graph. -/
def insertCopies (c : PlCtx) (rts : List JobRt) (x : Homes) : Copies :=
  let cs := rts.foldl (addJob c x.homes) { space := x }
  (upto c.g.bufs.length).foldl (addOut c x.homes rts) cs

/-! ### Network reservations (R107, R549 to R552) -/

/-- The links of the XY route from router `a` to `b` on a network: 256 × network + 4 × router + direction. -/
def xyLinks (net : Nat) : Nat → Nat → Nat → List Nat
  | 0, _, _ => []
  | fuel + 1, a, b =>
    if a % 8 < b % 8 then (256 * net + 4 * a) :: xyLinks net fuel (a + 1) b
    else if b % 8 < a % 8 then (256 * net + 4 * a + 2) :: xyLinks net fuel (a - 1) b
    else if a < b then (256 * net + 4 * a + 1) :: xyLinks net fuel (a + 8) b
    else if b < a then (256 * net + 4 * a + 3) :: xyLinks net fuel (a - 8) b
    else []
def route (net a b : Nat) : List Nat := xyLinks net 15 a b

/-- Router behind a home; a T3 home is reached at the channel of the other end's quadrant (log 18). -/
def homeRouter (h : Home) (q : Nat) : Nat :=
  match h.tier with
  | 0 => clusterRouter (h.block / 9)
  | 1 => clusterRouter h.block
  | 2 => bankRouter h.block (h.addr % 0x01000000 / 0x00100000)
  | 3 => dramRouter (2 * q)
  | _ => hostRouter

/-- A leg of a transfer: its links, and whether it takes a quarter of the slots (read requests, Table 16-2). -/
structure Leg where
  links : List Nat
  quarter : Bool

/-- A write stream and a read stream (Table 16-2). -/
def writeLegs (a b : Nat) : List Leg := [{ links := route 0 a b, quarter := false }]
def readLegs (source reader : Nat) : List Leg :=
  [{ links := route 1 source reader, quarter := false }, { links := route 0 reader source, quarter := true }]

/-- A reservation as placement weighs it: link, slot, the tenant's own, its interval. -/
structure Resv where
  link : Nat
  slot : Nat
  own : Bool
  from_ : Nat
  toward : Nat

/-- Reservations of the state, and of the plan, that overlap an interval. -/
def heldSlots (c : PlCtx) (links : List (Nat × Nat × Nat × Nat)) (a b : Nat) : List Resv :=
  ((c.s.noc.slots.filter fun e => e.2.2.1 < b && a < e.2.2.2.1).map fun e =>
    { link := e.1, slot := e.2.1, own := e.2.2.2.2 % 512 == c.g.tenant, from_ := e.2.2.1, toward := e.2.2.2.1 }) ++
    (links.filter fun e => e.2.2.1 < b && a < e.2.2.2).map fun e => { link := e.1, slot := e.2.1, own := true, from_ := e.2.2.1, toward := e.2.2.2 }

/-- The most reservations of a list held at one instant from `a` on (R181). -/
def peakSlots (l : List Resv) (a : Nat) : Nat :=
  (a :: l.map (·.from_)).foldl (fun m x => max m (l.filter fun e => e.from_ ≤ max a x && max a x < e.toward).length) 0

/-- Slots of a leg: the lowest numbers free on every link in step, within 48 to a link and the tenant's budget (R551). -/
def freeSlots (c : PlCtx) (held : List Resv) (l : Leg) (a : Nat) : List Nat :=
  let idx := (upto l.links.length).zip l.links
  let room := l.links.foldl (fun m k =>
    let on := held.filter fun e => e.link == k
    min m (min (48 - peakSlots on a) (rd c.s (kTeNocSlots c.g.tenant) - peakSlots (on.filter (·.own)) a))) 64
  ((upto 64).filter fun sl => idx.all fun x => !held.any fun e => e.link == x.2 && e.slot == (sl + 2 * x.1) % 64).take room

/-- The slots of a leg on each of its links over an interval. -/
def legSlots (l : Leg) (slots : List Nat) (a b : Nat) : List (Nat × Nat × Nat × Nat) :=
  slots.flatMap fun sl => ((upto l.links.length).zip l.links).map fun x => (x.2, (sl + 2 * x.1) % 64, a, b)

/-- Slots for every leg of a transfer over an interval, each leg beside those before it: none where one lacks them. -/
def pickLegs (c : PlCtx) (links : List (Nat × Nat × Nat × Nat)) (n a b : Nat) : List Leg → Option (List (Nat × Nat × Nat × Nat))
  | [] => some []
  | l :: r =>
    let need := if l.quarter then ceilDiv n 4 else n
    let f := freeSlots c (heldSlots c links a b) l a
    if f.length < need then none
    else
      let got := legSlots l (f.take need) a b
      (pickLegs c (links ++ got) n a b r).map (got ++ ·)

/-- Reserve for a transfer that needs `n` slots: as many as every leg has free over the interval that so few make; fewer
slots lengthen it (R107). `startFor e` gives the start for a length. Answers start, length and reservations; with no slot the
transfer goes best-effort, predicted at one slot's rate. -/
def reserve (c : PlCtx) (links : List (Nat × Nat × Nat × Nat)) (legs : List Leg) (startFor : Nat → Nat) (lenFor : Nat → Nat) :
    Nat → Nat × Nat × List (Nat × Nat × Nat × Nat)
  | 0 => (startFor (lenFor 1), lenFor 1, [])
  | n + 1 =>
    let e := lenFor (n + 1)
    let st := startFor e
    match pickLegs c links (n + 1) st (st + e) legs with
    | some l => (st, e, l)
    | none => reserve c links legs startFor lenFor n

/-! ### Phase 3: prediction (R108, R109) -/

/-- The effective deadline of a job (R65, R74), and of a copy (R105). -/
def jobDeadline (c : PlCtx) (j : Nat) : Nat :=
  let d := c.g.jobs.getD j {}
  let own := c.g.air + (if d.dlOfs = 0 then c.g.dlOfs else d.dlOfs)
  d.refs.foldl (fun m r =>
    let b := c.g.bufs.getD r.2.2 {}
    if b.kind = 4 ∧ r.2.1 ≠ 0 then min m (fhTxLimit c.s c.g b) else m) own
def itemDeadline (c : PlCtx) (p : PJob) : Nat :=
  match p.copy with
  | none => jobDeadline c p.num
  | some d => if d.kind = .toHost then c.g.air + c.g.dlOfs else jobDeadline c d.job

/-- Position of the order key, 8,194 above that of R139 so that it is never negative. -/
def position (copies : List PJob) (p : PJob) : Nat :=
  if p.num < 4096 then 8194 + 8194 * p.num
  else
    let last := fun (x : PJob) => (x.preds.filter (· < 4096)).foldl (fun m n => max m (n + 1)) 0
    let i := (copies.filter fun x => x.num < p.num && last x == last p).length
    8194 * last p + 1 + i

/-- DRAM tokens of an item (Table 5-2). -/
def tokens (c : PlCtx) (homes : Table Home) (p : PJob) : Nat :=
  match p.copy with
  | some d =>
    let inDram := fun a => dramBase ≤ a && a < hostBase
    (if inDram d.src then ceilDiv d.len 64 else 0) + (if inDram d.dst then ceilDiv d.len 64 else 0)
  | none =>
    let d := c.g.jobs.getD p.num {}
    d.refs.foldl (fun n r =>
      if (tget homes r.2.2 { tier := 4, block := 0, addr := 0 }).tier = 3 then
        n + ceilDiv (c.g.bufs.getD r.2.2 {}).size 64 * (if r.2.1 = 2 then 2 else 1) else n)
      (match p.prog, tfind p.num c.g.blocks with
        | none, some b => opTokens d.op b d.units
        | _, _ => 0)

/-- Quadrant of a home, for DMA choice: none for T3 and T4. -/
def homeQuad (h : Home) : Option Nat :=
  match h.tier with
  | 0 => some (h.block / 27)
  | 1 => some (h.block / 3)
  | 2 => some h.block
  | _ => none
/-- The home behind a copy's end. -/
def endHome (s : State) (a : Nat) : Home :=
  match regionOf s a with
  | .gb q _ => { tier := 2, block := q, addr := a }
  | .cluster k => { tier := 1, block := k, addr := a }
  | .dmem n => { tier := 0, block := n, addr := a }
  | .dram => { tier := 3, block := 0, addr := a }
  | _ => { tier := 4, block := 0, addr := a }

/-- A copy on the DMA engine of cluster `k` from ready time `a`: start, length, reservations (R106, R107). -/
def planCopy (c : PlCtx) (acc : Acc) (d : CopyD) (k a : Nat) (best : Bool) : Nat × Nat × List (Nat × Nat × Nat × Nat) :=
  let hs := endHome c.s d.src
  let hd := endHome c.s d.dst
  let rate := min 128000 (min (tierRate c.s hs.tier) (tierRate c.s hd.tier))
  let extra := if hs.tier = 4 ∨ hd.tier = 4 then nsToTc (rd c.s kPlLHost) else 0
  let len := fun n => moveTc d.len (min rate (2000 * n)) + extra
  let q := k / 3
  let legs := ((readLegs (homeRouter hs q) (clusterRouter k)) ++ writeLegs (clusterRouter k) (homeRouter hd q)).filter
    fun l => !l.links.isEmpty
  let startFor := startOn c acc.rts (dmaUnit k) a
  if best then (startFor (len 1), len 1, [])
  else if legs.isEmpty then (startFor (moveTc d.len rate + extra), moveTc d.len rate + extra, [])
  else reserve c acc.links legs startFor len (min 64 (ceilDiv rate 2000))

/-- The DMA engine of a copy by the key of R98, or the one it keeps. DESIGN CHOICE (log 71): with two on-die ends the candidates are
those of the destination's quadrant, with none those of the home placement unit's. -/
def copyChoice (c : PlCtx) (acc : Acc) (p : PJob) (d : CopyD) : Nat × Nat × Nat × List (Nat × Nat × Nat × Nat) :=
  let q := match homeQuad (endHome c.s d.dst), homeQuad (endHome c.s d.src) with
    | some x, _ => x
    | none, some x => x
    | none, none => c.g.pu
  let at_ := fun (k : Nat) =>
    let a := readyTime c acc.rts p.preds (if d.kind = .into then [c.g.bufs.getD d.buf {}] else []) 4096 (some d) (k / 3)
    (k, planCopy c acc d k a p.best)
  match p.shares with
  | h :: _ => at_ (h.unit - 228)
  | [] =>
    let all := (upto 3).map fun i => at_ (3 * q + i)
    let key := fun (x : Nat × Nat × Nat × List (Nat × Nat × Nat × Nat)) =>
      let f := x.2.1 + x.2.2.1
      [ceilDiv f 64, b2n !(voted (votes c.s acc.rts) x.1 x.2.1 f), 0, unitLoc (dmaUnit x.1)]
    all.foldl (fun m x => if keyLess (key x) (key m) then x else m) (at_ (3 * q))

/-- Legs of an engine's accesses to homes in another quadrant, with the slots each needs (R107). -/
def engineLegs (c : PlCtx) (homes : Table Home) (p : PJob) (u ns : Nat) : List (List Leg × Nat × Nat) :=
  (c.g.jobs.getD p.num {}).refs.flatMap fun r =>
    match tfind r.2.2 homes with
    | some h =>
      if (h.tier = 1 ∨ h.tier = 2) ∧ homeQuad h ≠ some (unitQuad u) then
        let size := (c.g.bufs.getD r.2.2 {}).size
        let n := min 64 (ceilDiv (ceilDiv (size * 1000) (max 1 ns)) 2000)
        (if r.2.1 = 1 then [] else [(readLegs (homeRouter h (unitQuad u)) (unitRouter u), n, size)]) ++
          (if r.2.1 = 0 then [] else [(writeLegs (unitRouter u) (homeRouter h (unitQuad u)), n, size)])
      else []
    | none => []

/-- The reservations of a job with their train quotas: 1 + ⌊25 × B_r ÷ B⌋ (R553). -/
def trainsOf (bytes : List Nat) : List Train :=
  bytes.map fun b => { bytes := b, quota := 1 + 25 * b / max 1 (sumBy bytes id) }

/-- One job in the prediction: its shares at new times, lengthened where slots fall short; the bytes on each of its reservations. DESIGN
CHOICE (log 82): the first six transfers that find slots are reserved (R553), the others go best-effort. -/
def planJob (c : PlCtx) (homes : Table Home) (acc : Acc) (p : PJob) :
    List PShare × List Nat × List (Nat × Nat × Nat × Nat) × List Nat :=
  let d := c.g.jobs.getD p.num {}
  let u0 := (p.shares.headD { unit := 0 }).unit
  let bufs := (d.refs.filter fun r => r.2.1 != 1).map fun r => c.g.bufs.getD r.2.2 {}
  let a := readyTime c acc.rts p.preds bufs p.num none (unitQuad u0)
  p.shares.foldl (fun st h =>
    let (done, nss, links, bytes) := st
    let cyc := shareCycles c p.num h.unit p.prog h.first h.n
    let f := mhz c.s h.unit
    let e := cyclesToTc cyc f
    let ns := cyclesToNs cyc f
    let startFor := fun (x : Nat) =>
      startOn c (acc.rts ++ [{ p := { num := p.num, shares := done }, start := 0, fin := 0 }]) h.unit a x
    let legs := if isEngine h.unit && !p.best then engineLegs c homes p h.unit ns else []
    let (e1, links1, bytes1) := legs.foldl (fun x l =>
      let len := fun n => max x.1 (moveTc l.2.2 (2000 * n))
      let r := if 6 ≤ x.2.2.length then (0, len 1, []) else reserve c (acc.links ++ x.2.1) l.1 startFor len l.2.1
      (r.2.1, x.2.1 ++ r.2.2, if r.2.2.isEmpty then x.2.2 else x.2.2 ++ [l.2.2])) (e, links, bytes)
    let s1 := startFor e1
    (done ++ [{ h with start := s1, fin := s1 + e1, mhz := f }], nss ++ [ns], links1, bytes1)) ([], [], [], [])

/-- A copy is not made: the job it serves, every consumer or every producer is shed or over budget. -/
def copyIdle (c : PlCtx) (out : List Nat) (d : CopyD) : Bool :=
  match d.kind with
  | .into => out.contains d.job
  | .back => out.contains d.job
  | .fromHost => (refsIn c.g.jobs 0 d.buf).all out.contains
  | .toHost => (refsIn c.g.jobs 1 d.buf ++ refsIn c.g.jobs 2 d.buf).all out.contains

/-- One item of the prediction, in order of position. -/
def predictItem (c : PlCtx) (homes : Table Home) (copies : List PJob) (fixed : List JobRt) (shed : List Nat) (acc : Acc) (p : PJob) : Acc :=
  match rtOf fixed p.num with
  | some r => { acc with rts := acc.rts ++ [r] }
  | none =>
    if shed.contains p.num then acc
    else match p.copy with
      | some d =>
        if copyIdle c (shed ++ acc.isOver) d then acc
        else if d.kind ≠ .toHost ∧ p.preds.any acc.isOver.contains then { acc with isOver := p.num :: acc.isOver }
        else
          let (k, st, e, links) := copyChoice c acc p d
          let ch := splitCharge 11 (tcToNs e) st (st + e) ++
            (if tokens c homes p = 0 then [] else [{ res := 12, window := st / windowTc, amount := tokens c homes p }])
          let fits := chargesFit c.s c.g.tenant acc.made ch
          if !fits && rd c.s (kTePolicy c.g.tenant) == 0 then { acc with isOver := p.num :: acc.isOver }
          else
            let q := { p with shares := [{ unit := dmaUnit k, n := 1, start := st, fin := st + e, mhz := 2000 }], best := !fits }
            { acc with
              rts := acc.rts ++ [{ p := q, start := st, fin := st + e, dl := itemDeadline c p, pos := position copies p, charges := if fits then ch else [],
                                   trains := if fits && !links.isEmpty then trainsOf [d.len] else [] }]
              made := if fits then acc.made ++ ch else acc.made
              links := if fits then acc.links ++ links else acc.links }
      | none =>
        if p.preds.any acc.isOver.contains then { acc with isOver := p.num :: acc.isOver }
        else
          let (shares, ns, links, bytes) := planJob c homes acc p
          let fin := shares.foldl (fun m h => max m h.fin) 0
          let st := shares.foldl (fun m h => min m h.start) fin
          let ch := timeCharges c.s shares ns ++
            (if tokens c homes p = 0 then [] else [{ res := 12, window := st / windowTc, amount := tokens c homes p }])
          let fits := chargesFit c.s c.g.tenant acc.made ch
          if !fits && rd c.s (kTePolicy c.g.tenant) == 0 then { acc with isOver := p.num :: acc.isOver }
          else
            { acc with
              rts := acc.rts ++ [{ p := { p with shares := shares, best := !fits }, start := st, fin := fin, dl := itemDeadline c p,
                                   pos := position copies p, charges := if fits then ch else [], trains := if fits then trainsOf bytes else [] }]
              made := if fits then acc.made ++ ch else acc.made
              links := if fits then acc.links ++ links else acc.links }

/-- Slots of the stream between one lane quad and an FH buffer, of the AxC whose lanes it holds (R107): it is not lengthened. -/
def streamSlots (c : PlCtx) (d : BufD) (h : Home) (lq : Nat) (links : List (Nat × Nat × Nat × Nat)) : List (Nat × Nat × Nat × Nat) :=
  let l := (axcsOf d).filter fun a => axcLane c.s a / 4 == lq
  let desc := ciDesc c.s c.g.ci
  let rate := l.length * symBytes desc d * slotSymbols desc * 2 ^ ciMu desc / 1000
  let pr := quadRouter lq
  let hr := homeRouter h (lq / 4)
  let legs := (if d.kind = 3 then writeLegs pr hr else readLegs hr pr).filter fun x => !x.links.isEmpty
  let first := fun (a : Nat) (m : Nat) => (symsOf d.symMask).foldl (fun m k => min m (txOpen c.s c.g.ci c.g.air c.g.slot a k)) m
  let last := fun (a : Nat) (m : Nat) => (symsOf d.symMask).foldl (fun m k => max m (txClose c.s c.g.ci c.g.air c.g.slot a k)) m
  let from_ := if d.kind = 3 then c.g.air else l.foldl (fun m a => first a m) c.g.air
  let toward := if d.kind = 3 then fhReadyTime c.s c.g d else l.foldl (fun m a => last a m) from_
  if legs.isEmpty then links
  else links ++ (reserve c links legs (fun _ => from_) (fun _ => toward - from_) (min 64 (ceilDiv (max 1 rate) 2000))).2.2

/-- Slots of the streams between ports and FH buffers (R107). -/
def streamLinks (c : PlCtx) (homes : Table Home) (links : List (Nat × Nat × Nat × Nat)) (b : Nat) : List (Nat × Nat × Nat × Nat) :=
  let d := c.g.bufs.getD b {}
  match d.kind == 3 || d.kind == 4, tfind b homes with
  | true, some h => (((axcsOf d).map fun a => axcLane c.s a / 4).eraseDups).foldl (fun x lq => streamSlots c d h lq x) links
  | _, _ => links

/-- Phase 3's prediction of every item in order of position. -/
def predict (c : PlCtx) (homes : Table Home) (items copies : List PJob) (fixed : List JobRt) (shed isOver : List Nat) : Acc :=
  let streams := if fixed.isEmpty then (upto c.g.bufs.length).foldl (streamLinks c homes) [] else []
  let order := sortBy (fun a b => position copies a ≤ position copies b) items
  order.foldl (predictItem c homes copies fixed shed) { isOver := isOver, links := streams }

/-- An item is at risk: its finish exceeds its effective deadline less the guard margin (R109). -/
def itemAtRisk (c : PlCtx) (r : JobRt) : Bool := !r.p.best && r.dl < r.fin + nsToTc (rd c.s kPlGuardMargin)
/-- The item with the least slack, the lower number first. -/
def leastSlack (l : List JobRt) : Option JobRt :=
  (l.filter fun r => !r.p.best).foldl (fun m r => match m with
    | none => some r
    | some x => if (r.dl : Int) - r.fin < (x.dl : Int) - x.fin then some r else some x) none

/-! ### Phase 4: shedding (R76, R77, R118) -/

/-- The next droppable job: lowest rank, then the higher number. -/
def nextShed (c : PlCtx) (out : List Nat) : Option Nat :=
  ((upto c.g.jobs.length).filter fun j => (c.g.jobs.getD j {}).droppable && !out.contains j).foldl (fun m j => match m with
    | none => some j
    | some x => if (c.g.jobs.getD j {}).rank ≤ (c.g.jobs.getD x {}).rank then some j else some x) none

/-- Copies keep the DMA engines that the first prediction chose (R118). -/
def keepDma (rts : List JobRt) (l : List PJob) : List PJob :=
  l.map fun p => match p.copy, rtOf rts p.num with
    | some _, some r => { p with shares := r.p.shares }
    | _, _ => p

/-- Shed until the graph is no longer at risk or no droppable job is left; `fuel` bounds the sheds. -/
def shedLoop (c : PlCtx) (homes : Table Home) (items copies : List PJob) (fixed : List JobRt) (isOver : List Nat) :
    Nat → List Nat → List Nat × Acc
  | 0, shed => (shed, predict c homes items copies fixed shed isOver)
  | fuel + 1, shed =>
    let a := predict c homes items copies fixed shed isOver
    if !a.rts.any (itemAtRisk c) then (shed, a)
    else match nextShed c (shed ++ a.isOver ++ fixed.map (·.p.num)) with
      | none => (shed, a)
      | some j => shedLoop c homes (keepDma a.rts items) copies fixed isOver fuel (closure c.g.jobs (j :: shed))

/-- The interval a buffer holds space for in the final prediction (R67, R91): a staged buffer from the start of its staging copy, or to the
end of its copy to the host. -/
def finalLife (c : PlCtx) (rts : List JobRt) (b : Nat) : Option (Nat × Nat) :=
  let copy := fun (k : CopyKind) => rts.find? fun r => match r.p.copy with
    | some d => d.buf == b && d.kind == k
    | none => false
  (lifetime c rts b).map fun l => match copy .fromHost, copy .toHost with
    | some r, _ => (r.start, l.2)
    | none, some r => (l.1, r.fin)
    | none, none => l

/-- The interval of a transient area in the final prediction: its job's, with the copies that fill it and empty it (R104). -/
def areaLife (rts : List JobRt) (r : JobRt) (b : Nat) : Nat × Nat :=
  (rts.filter fun x => match x.p.copy with
    | some d => d.buf == b && d.job == r.p.num && (d.kind == .into || d.kind == .back)
    | none => false).foldl (fun l x => (min l.1 x.start, max l.2 x.fin)) (r.start, r.fin)

/-- What the final choice of addresses carries: space held, the plan's own, homes, areas by job and buffer, a refusal. -/
structure Refit where
  held : List Space
  mine : List Space := []
  homes : Table Home
  areas : List (Nat × Nat × Nat) := []
  refused : Option (Nat × Nat × Nat) := none

/-- One space gets its final interval and the lowest address of its block that is free for it (R91); a space whose jobs were shed goes
(R118). One that no longer fits its block or its quota refuses the graph (log 73). -/
def refitOne (c : PlCtx) (rts : List JobRt) (x : Refit) (sp : Space) : Refit :=
  let isHome := (tfind sp.buf x.homes).any fun h => h.addr == sp.addr
  let area := rts.find? fun r => r.p.areas.any fun a => a.1 == sp.buf && a.2 == sp.addr
  let k := sp.block / 256
  let pinned := isHome && (c.g.bufs.getD sp.buf {}).pin != 0
  match if isHome then finalLife c rts sp.buf else area.map fun r => areaLife rts r sp.buf with
  | none => { x with homes := if isHome then tdel sp.buf x.homes else x.homes }
  | some (a, e) =>
    if sp.charged && !quotaOk c.s x.held c.g.tenant k sp.len a e then
      { x with refused := some (if pinned then (0x0A, 0x42, sp.buf) else (0x06, 0x49, sp.buf)) }
    else match findSpace c.s x.held k (sp.block % 256) sp.len a e with
      | none => { x with refused := some (if pinned then (0x0A, 0x42, sp.buf) else (0x06, 0x48, sp.buf)) }
      | some ad =>
        let sp1 := { sp with addr := ad, from_ := a, toward := e }
        { x with
          held := sp1 :: x.held
          mine := x.mine ++ [sp1]
          homes := if isHome then tset sp.buf { tier := k, block := sp.block % 256, addr := ad } x.homes else x.homes
          areas := match isHome, area with
            | false, some r => x.areas ++ [(r.p.num, sp.buf, ad)]
            | _, _ => x.areas }

/-- A job or copy with the addresses chosen last. -/
def readdress (x : Refit) (p : PJob) : PJob :=
  let area := fun (j b : Nat) => (x.areas.find? fun a => a.1 == j && a.2.1 == b).map (·.2.2)
  let home := fun (b : Nat) => (tfind b x.homes).map (·.addr)
  { p with
    areas := p.areas.map fun a => (a.1, (area p.num a.1).getD a.2)
    copy := p.copy.map fun d => match d.kind with
      | .fromHost => { d with dst := (home d.buf).getD d.dst }
      | .toHost => { d with src := (home d.buf).getD d.src }
      | .into => { d with src := (home d.buf).getD d.src, dst := (area d.job d.buf).getD d.dst }
      | .back => { d with src := (area d.job d.buf).getD d.src, dst := (home d.buf).getD d.dst } }

/-- The plan that a prediction makes. -/
def planOf (c : PlCtx) (homes : Table Home) (spaces : List Space) (shed : List Nat) (a : Acc) (items : List PJob) : Plan :=
  let x := spaces.foldl (fun y sp => if y.refused.isSome then y else refitOne c a.rts y sp) { held := c.s.work.spaces, homes := homes }
  match x.refused with
  | some r => { t0 := c.t0, refused := some r }
  | none =>
    { t0 := c.t0, jobs := a.rts.map fun r => { r with p := readdress x r.p },
      items := items.map fun p => readdress x (match rtOf a.rts p.num with
        | some r => r.p
        | none => p),
      homes := x.homes, spaces := x.mine, links := a.links, shed := shed, isOver := a.isOver,
      atRisk := a.rts.any (itemAtRisk c), least := ((leastSlack a.rts).map (·.p.num)).getD 0 }

/-- A full placement; `fixed` and `kept` are what a re-placement keeps (R128). -/
def fullPlan (c : PlCtx) (fixed : List JobRt) (kept : Table Home) : Plan :=
  let a := phase1 c fixed
  match a.refused with
  | some r => { t0 := c.t0, refused := some r }
  | none =>
    let x := phase2 c a.rts kept
    match x.refused with
    | some r => { t0 := c.t0, refused := some r }
    | none =>
      let cs := insertCopies c (a.rts.filter fun r => r.p.num < 4096) x
      match cs.space.refused with
      | some r => { t0 := c.t0, refused := some r }
      | none =>
        if 4096 < cs.copies.length then
          { t0 := c.t0, refused := some (0x06, 0x4A, (((cs.copies.getD 4096 { num := 0 }).copy.map (·.buf)).getD 0xFFFF)) }
        else
          let (shed, acc) := shedLoop c x.homes (cs.jobs ++ cs.copies) cs.copies fixed a.isOver c.g.jobs.length []
          planOf c x.homes cs.space.mine shed acc (cs.jobs ++ cs.copies)

/-! ### Templates (R111 to R114) -/

/-- The shape of a graph (R112): every field of it. -/
def shapeJob (d : JobD) : JobD := { d with units := 0, dlOfs := 0, paramLen := 0, paramOfs := 0, notify := false, tag := 0 }
def shapeBuf (b : BufD) : BufD := { b with host := 0 }
def shapeEq (t : Template) (g : Graph) : Bool :=
  t.jobs == g.jobs.map shapeJob && t.bufs == g.bufs.map shapeBuf

/-- The template that matches a graph (R113). -/
def templateFor (s : State) (g : Graph) : Option Template :=
  if g.noTemplate || !rdB s kPlTemplatesEnable then none
  else s.work.templates.find? fun t => t.ci == g.ci && t.tenant == g.tenant && shapeEq t g

/-- Every buffer fits its recorded block for its new lifetime, at any free address. -/
def templateHomes (c : PlCtx) (t : Template) (rts : List JobRt) : Homes :=
  (upto c.g.bufs.length).foldl (fun x b =>
    let d := c.g.bufs.getD b {}
    let carried := if d.kind = 5 then carryFind c.s c.g.tenant c.g.ci d.key else none
    if x.refused.isSome then x
    else if d.pin = 5 then { x with homes := tset b { tier := 4, block := 0, addr := hostBase + d.host } x.homes }
    else match carried, lifetime c rts b, tfind b t.homes with
      | some k, _, _ => { x with homes := tset b k.home x.homes }
      | none, some (a, e), some h =>
        if (h.tier != 0 || roleShared (roleWord c.s h.block)) && !quotaOk c.s x.held c.g.tenant h.tier d.size a e then { x with refused := some (0, 0, b) }
        else match findSpace c.s x.held h.tier h.block d.size a e with
          | some ad => take c { h with addr := ad } d.size a e b { x with homes := tset b { h with addr := ad } x.homes }
          | none => { x with refused := some (0, 0, b) }
      | none, _, _ => x) { held := c.s.work.spaces }

/-- A template reused: units, shares and homes kept, UNITS divided again; none where it fails (R113, R114). -/
def reusePlan (c : PlCtx) (t : Template) : Option Plan :=
  let units := (t.plan.flatMap fun p => p.shares.map (·.unit)).filter (· < 228)
  if !(units.all fun u => inService c.s u && t.epochs.contains (u, epochOf c.s u)) then none
  else
    let resplit := (t.plan.filter fun p => p.num < 4096).map fun p =>
      { p with areas := [], preds := predsOf c.g.jobs p.num, shares := (p.shares.zip (divide (quanta c p.num) p.shares.length)).map fun x =>
          { x.1 with first := x.2.1, n := x.2.2 } }
    let dmas := (t.plan.filter fun p => 4096 ≤ p.num)
    if resplit.length ≠ c.g.jobs.length ∨ resplit.any (fun p => p.shares.any fun h => h.n == 0 && isEngine h.unit) then none
    else
      let rough := predict c [] resplit [] [] [] []
      let x := templateHomes c t rough.rts
      if x.refused.isSome ∨ !rough.isOver.isEmpty then none
      else
        let cs := insertCopies c rough.rts x
        if cs.space.refused.isSome ∨ 4096 < cs.copies.length then none
        else
          let copies := cs.copies.map fun p => { p with shares := ((dmas.find? fun q => q.num == p.num).map (·.shares)).getD [] }
          let (shed, acc) := shedLoop c x.homes (cs.jobs ++ copies) copies [] [] 3 []
          let plan := planOf c x.homes cs.space.mine shed acc (cs.jobs ++ copies)
          if plan.refused.isSome ∨ plan.atRisk ∨ !acc.isOver.isEmpty ∨ acc.rts.any (·.p.best) then none else some { plan with template := some t.slot }

/-- The plan of a graph: its template's where one matches and passes, or a full placement (R113, R114). -/
def plan (c : PlCtx) : Plan :=
  match templateFor c.s c.g with
  | some t => (reusePlan c t).getD (fullPlan c [] [])
  | none => fullPlan c [] []

/-! ### Re-placement (R128) -/

/-- Buffers in the T0 of a core whose home is chosen again with `moved`: no other job uses them and no copy of them has run (R128). -/
def rehomed (g : Graph) (moved : List Nat) : List Nat :=
  (upto g.bufs.length).filter fun b =>
    (tfind b g.homes).any (fun h => h.tier == 0) && (g.bufs.getD b {}).kind != 5 &&
      (upto g.jobs.length).any (fun j => moved.contains j && (g.jobs.getD j {}).refs.any fun r => r.2.2 == b) &&
      g.rts.all fun r => match r.p.copy with
        | some d => d.buf != b || ((r.st == .waiting || r.st == .ready) && !r.ran)
        | none => moved.contains r.p.num || !(g.jobs.getD r.p.num {}).refs.any fun x => x.2.2 == b

/-- A copy that is planned again with `moved`: it serves one of them through a transient area, or its buffer gets a new home. -/
def servesMoved (g : Graph) (moved : List Nat) (p : PJob) : Bool :=
  match p.copy with
  | some d => ((d.kind == .into || d.kind == .back) && moved.contains d.job) || (rehomed g moved).contains d.buf
  | none => false

/-- The undispatched jobs `moved` placed again by phases 1 to 4; everything else of the graph keeps its choices (R128). -/
def replan (c : PlCtx) (moved : List Nat) : Plan :=
  let stay := c.g.rts.filter fun r => !moved.contains r.p.num && !servesMoved c.g moved r.p
  let gone := (c.g.rts.filter fun r => servesMoved c.g moved r.p).map (·.p)
  let a := (sortBy (fun (a b : Nat) => a ≤ b) moved).foldl (placeJob c []) { rts := stay.filter fun r => r.p.num < 4096 }
  match a.refused with
  | some r => { t0 := c.t0, refused := some r }
  | none =>
    let loose := rehomed c.g moved
    let x := loose.foldl (homeOf c a.rts []) { homes := loose.foldl (fun h b => tdel b h) c.g.homes, held := c.s.work.spaces }
    match x.refused with
    | some r => { t0 := c.t0, refused := some r }
    | none =>
      let base : Copies := { copies := (stay.filter fun r => 4096 ≤ r.p.num).map (·.p), space := x, old := gone }
      let news := a.rts.filter fun r => moved.contains r.p.num
      let cs := loose.foldl (addOut c x.homes a.rts) (news.foldl (addJob c x.homes) base)
      match cs.space.refused with
      | some r => { t0 := c.t0, refused := some r }
      | none =>
        let added := cs.copies.filter fun p => !base.copies.any fun q => q.num == p.num
        let lost := gone.filter fun p => !added.any fun q => q.num == p.num
        let remap := fun (p : PJob) => { p with preds := p.preds.filter fun n => !lost.any fun q => q.num == n }
        let fixed := stay.map fun r => { r with p := remap r.p }
        let items := fixed.map (·.p) ++ cs.jobs.map remap ++ added.map remap
        let (shed, acc) := shedLoop c x.homes items (cs.copies ++ lost) fixed a.isOver moved.length []
        planOf c x.homes cs.space.mine shed acc items

end Pl

end Sys2Proof.Machine
end

