-- ==== Sys2Proof/Machine/Spool.lean ====
section
/-!
DEFINITION. Bindings, spools and short identities as jobs, tenants and fences change them (R366, R374, R378, R381).
-/
namespace Sys2Proof.Machine

/-! ### Bindings (Table 10-2) -/

/-- Binding slot `k` of tenant `t` is number 4t + k. -/
def bindOf (s : State) (n : Nat) : Binding := tget s.radio.bindings n {}
def setBind (n : Nat) (b : Binding) (s : State) : State :=
  { s with radio := { s.radio with bindings := if b = {} then tdel n s.radio.bindings else tset n b s.radio.bindings } }
def modBind (n : Nat) (f : Binding → Binding) (s : State) : State := setBind n (f (bindOf s n)) s

/-- Fields of a descriptor: MAR, class E, INPUT 1, AxC, channels to a stream, width in kHz, spool bytes. -/
def bMar (d : Nat) : Nat := fld d 8 2
def bClassE (d : Nat) : Bool := bitAt d 0
def bSections (d : Nat) : Bool := bitAt d 1
def bAxcFirst (d : Nat) : Nat := fld d 32 10
def bAxcCount (d : Nat) : Nat := fld d 48 6
def bRate (d : Nat) : Nat := fld d 56 2
def bWidth (d : Nat) : Nat := if bitAt d 58 then 400 else 200
def bPerStream (d : Nat) : Nat := fld d 64 8
def bCh0 (d : Nat) : Int := toInt 32 (fld d 80 32)
def bSpoolBytes (d : Nat) : Nat := fld d 112 11 * 2 ^ 20
def bNs (d : Nat) : Nat := fld d 128 16
/-- Channels of a binding, streams only. -/
def bChannels (d : Nat) : Nat := if bSections d then 0 else bAxcCount d * bPerStream d

/-- Bindings on a MAR, in use. -/
def marBindings (s : State) (m : Nat) : List (Nat × Binding) := s.radio.bindings.filter fun e => e.2.state != .free && bMar e.2.desc == m
/-- The unit of a MAR, and whether its front end runs (R348). -/
def marUnit (m : Nat) : Nat := engUnit (marEngine m)
def marRuns (s : State) (m : Nat) : Bool := !(unitSt s (marUnit m)).fenced
/-- The MAR that an engine is. -/
def marOf (e : Nat) : Nat := e / 30
/-- A counter of a MAR, in the order of Table 10-19. -/
def marCount (m i n : Nat) (s : State) : State := bumpBy 64 (kMaCounts m i) n s

/-! ### Short identities (R366) -/

/-- Bits of SHORT_ID that name the index. -/
def sidIndex (x : Nat) : Nat := x % 2 ^ 22
/-- A record that bears the index stands in some spool. -/
def sidBorne (s : State) (i : Nat) : Bool :=
  s.radio.bindings.any fun b => b.2.spool.any fun r => match r.sid with
    | some x => sidIndex x == i
    | none => false
/-- IDS_IN_USE and IDS_QUARANTINED follow the pool. -/
def countSids (s : State) : State :=
  wr kIdIdsInUse (s.radio.sids.filter fun e => e.2.inUse).length
    (wr kIdIdsQuarantined (s.radio.sids.filter fun e => e.2.quarantine.isSome).length s)
/-- Quarantines that no record keeps, or that reached ID_QUARANTINE, end. -/
def settleSids (s : State) : State :=
  let isOver := fun (i : Nat) (x : SidSt) => match x.quarantine with
    | some t => !sidBorne s i || t + msToTc (rd s kIdIdQuarantine) ≤ now s
    | none => false
  countSids { s with radio := { s.radio with
    sids := tmap (fun i x => if isOver i x then { x with quarantine := none } else x) s.radio.sids } }

/-! ### The end of records and bindings (R378, R381) -/

/-- Bytes of a record in its spool: header and padded payload. -/
def recordBytes (r : Record) : Nat := 64 + 64 * ceilDiv r.payload.length 64

/-- A DRAINING binding with nothing left becomes FREE. -/
def settleBinding (n : Nat) (s : State) : State :=
  let b := bindOf s n
  if b.state == .draining && b.spool.isEmpty && !s.radio.bursts.any fun x => 4 * x.tenant + x.slot == n then setBind n {} s else s

/-- Bursts of a binding that satisfy `p` go, counted at counter `i`. -/
def dropBursts (n i : Nat) (p : Burst → Bool) (s : State) : State :=
  let gone := fun (x : Burst) => 4 * x.tenant + x.slot == n && p x
  let c := (s.radio.bursts.filter gone).length
  marCount (bMar (bindOf s n).desc) i c { s with radio := { s.radio with bursts := s.radio.bursts.filter fun x => !gone x } }

/-- A binding leaves ACTIVE (Table 10-5): its channels go idle, bursts not yet ended are ABANDONED; with the MAR itself stopped, so are
those that still wait for their lookup. -/
def leaveActive (n : Nat) (s : State) : State :=
  let b := bindOf s n
  if b.state = .active then
    let all := !marRuns s (bMar b.desc)
    settleBinding n (dropBursts n 11 (fun x => all || x.ended.isNone) (setBind n { b with state := .draining, chans := [] } s))
  else s

/-- A fence of a MAR moves its bindings to DRAINING (R348). -/
def drainMar (m : Nat) (s : State) : State := each ((marBindings s m).map (·.1)) (fun n x => leaveActive n x) s

/-- Bindings of a CI that leaves its tenant are FREE at once; their records are DISCARDED. -/
def freeBindings (t ci : Nat) (s : State) : State :=
  let mine := (s.radio.bindings.filter fun e => e.1 / 4 == t && e.2.state != .free && fld e.2.desc 16 9 == ci).map (·.1)
  settleSids (each mine (fun n x =>
    let x1 := dropBursts n 11 (fun y => y.ended.isNone) x
    let x2 := dropBursts n 12 (fun _ => true) x1
    setBind n {} (marCount (bMar (bindOf x n).desc) 12 (bindOf x n).spool.length x2)) s)

/-- The release of a job settles the records it holds: removed when its outputs stand, otherwise offered again (R378). -/
def settleRecords (g : Graph) (r : JobRt) (s : State) : State :=
  let me := some (g.id, r.p.num)
  let keep := r.code == 0 || r.code == 5 || (r.code == 1 && !r.discarded)
  let ns := (s.radio.bindings.filter fun e => e.2.spool.any fun x => x.held == me).map (·.1)
  if ns.isEmpty then s
  else
    let f := fun (b : Binding) => { b with
      spool := if keep then b.spool.filter fun x => x.held != me
        else b.spool.map fun x => if x.held = me then { x with held := none, redelivered := true } else x }
    each ns (fun n x => settleBinding n x) (settleSids (each ns (fun n x => modBind n f x) s))

/-! ### Update commands (R379) -/

/-- The commands of a job that is stopped are not applied. -/
def dropCommands (gid num : Nat) (s : State) : State :=
  { s with radio := { s.radio with commands := s.radio.commands.filter fun c => !(c.gid == gid && c.num == num) } }

end Sys2Proof.Machine
end

