-- ==== Sys2Proof/Machine/Release.lean ====
section
/-!
DEFINITION. Jobs from readiness to release (04_dispatch_and_ordering.md): flows and windows, job IDs, ready lists, how a job
ends and what its dependents take, completion entries, metering.
-/
namespace Sys2Proof.Machine

/-! ### Graphs and jobs -/

/-- The graph of a number. -/
def graphOf (s : State) (gid : Nat) : Option Graph := s.work.graphs.find? fun g => g.id == gid
/-- A graph changed. -/
def modGraph (gid : Nat) (f : Graph → Graph) (s : State) : State :=
  { s with work := { s.work with graphs := updFirst (fun g => g.id == gid) f s.work.graphs } }
/-- A job or copy of a graph changed. -/
def modRt (gid num : Nat) (f : JobRt → JobRt) (s : State) : State :=
  modGraph gid (fun g => { g with rts := updFirst (fun r => r.p.num == num) f g.rts }) s
/-- A job or copy of a graph. -/
def jobRt (s : State) (gid num : Nat) : Option JobRt := (graphOf s gid).bind fun g => Pl.rtOf g.rts num

/-- The job has not ended. -/
def JobRt.open_ (r : JobRt) : Bool := r.st != .ended && r.st != .released

/-- Ranks of completion codes (Table 4-4), and the code that comes first. -/
def codeRank (c : Nat) : Nat := [12, 11, 6, 7, 9, 10, 4, 2, 8, 1, 3, 5].getD c 12
def worseCode (a b : Nat) : Nat := if codeRank a ≤ codeRank b then a else b
/-- Dependents of a job with this code do not run (Table 4-4). -/
def killing (g : Graph) (c : Nat) : Bool := c != 0 && !(c == 1 && !g.discardLate)

/-- The deadline whose passing makes a job late: its own, not the earlier one that its fronthaul outputs give it (R65, R74, R75). -/
def ownDeadline (g : Graph) (p : PJob) : Nat :=
  let own := fun (j : Nat) => g.air + (if (g.jobs.getD j {}).dlOfs = 0 then g.dlOfs else (g.jobs.getD j {}).dlOfs)
  match p.copy with
  | none => own p.num
  | some d => if d.kind = .toHost then g.air + g.dlOfs else own d.job

/-! ### Completion entries (Table 4-3) -/

/-- A completion entry. `flags`: bit 0 ID_VALID, 1 AT_RISK, 2 AFTER_START, 3 DISCARDED, 4 BEST_EFFORT. -/
def mkEntry (code kind flags subTag ci job tag jobId detail queue finish counts loc : Nat) : Entry :=
  pack [(0, 8, code), (8, 2, kind), (10, 5, flags), (16, 16, subTag), (32, 9, ci), (48, 16, job), (64, 32, tag),
    (96, 16, jobId), (112, 8, detail), (120, 4, queue), (128, 32, finish), (160, 32, counts), (192, 21, loc)]

/-- FINISH_OFS: signed Tc after AIR_START, 0 when nothing ran. -/
def finishOfs (g : Graph) (finish : Nat) : Nat := if finish = 0 then 0 else ofInt 32 ((finish : Int) - g.air)

/-- The completion entry of a job or copy (R164). -/
def jobEntry (g : Graph) (r : JobRt) : Entry :=
  let d := g.jobs.getD r.p.num {}
  let flags := b2n r.id.isSome + 8 * b2n r.discarded + 16 * b2n (r.p.best && r.ran)
  mkEntry r.code 0 flags g.subTag g.ci r.p.num (if r.p.num < 4096 then d.tag else 0) (r.id.getD 0) 0 g.qp
    (finishOfs g r.finish) (r.chunks % 65536 + 65536 * (r.preempts % 65536)) (r.loc / 2 ^ 43)

/-- The graph completion entry of a graph whose jobs all ended (R79, R165). -/
def graphEntry (g : Graph) : Entry :=
  let bad := g.rts.filter fun r => r.code != 0
  let first := bad.foldl (fun m r => match m with
    | none => some r
    | some x => if r.p.num < x.p.num then some r else some x) none
  let flags := 2 * b2n g.atRisk + 4 * b2n g.afterStart
  let detail := if g.autoCancelled then 0x4C else 0
  let planned := g.rts.filter fun r => !r.p.shares.isEmpty
  let job := if g.autoCancelled then ((Pl.leastSlack planned).map (·.p.num)).getD 0xFFFF else (first.map (·.p.num)).getD 0xFFFF
  mkEntry (if g.autoCancelled then 0x0B else (first.map (·.code)).getD 0) 1 flags g.subTag g.ci job g.tag 0 detail g.qp (finishOfs g g.finish)
    (pack [(0, 13, g.shed), (16, 13, bad.length)]) 0

/-- The completion entry of a refused graph or entry (R165). -/
def refusalEntry (code detail subject kind qp subTag ci tag : Nat) : Entry :=
  mkEntry code kind 0 subTag ci subject tag 0 detail qp 0 0 0

/-! ### Flows and windows (R139, R153 to R155) -/

/-- The order key of a job: graph sequence, position. -/
def orderKey (g : Graph) (r : JobRt) : Nat := g.seq * 2 ^ 40 + r.pos
/-- Unreleased jobs of a flow, with their graphs. -/
def flowJobs (s : State) (t f : Nat) : List (Graph × JobRt) :=
  s.work.graphs.flatMap fun g =>
    if g.tenant = t then (g.rts.filter fun r => r.p.flow == f && r.st != .released).map fun r => (g, r) else []
/-- The head of a flow. -/
def flowHead (s : State) (t f : Nat) : Option (Graph × JobRt) :=
  (flowJobs s t f).foldl (fun m x => match m with
    | none => some x
    | some y => if orderKey x.1 x.2 < orderKey y.1 y.2 then some x else some y) none
/-- The job lies among the first 64 unreleased order keys of its flow (R154). -/
def inWindow (s : State) (g : Graph) (r : JobRt) : Bool :=
  ((flowJobs s g.tenant r.p.flow).filter fun x => orderKey x.1 x.2 < orderKey g r).length < 64
/-- Active flows of a tenant (R155), and of the tenants of a slice. -/
def activeFlows (s : State) (t : Nat) : List Nat :=
  (s.work.graphs.flatMap fun g => if g.tenant = t then (g.rts.filter fun r => r.st != .released).map (·.p.flow) else []).eraseDups
def sliceFlows (s : State) (q : Nat) : Nat :=
  (((s.work.graphs.map (·.tenant)).eraseDups).filter fun t => t % 4 == q).foldl (fun n t => n + (activeFlows s t).length) 0

/-! ### Job IDs (R160 to R162) -/

/-- The record of an index of a CI's pool. -/
def idSt (s : State) (ci i : Nat) : IdSt := tget s.work.ids (4096 * ci + i) {}
/-- An index's record changed. -/
def modId (ci i : Nat) (f : IdSt → IdSt) (s : State) : State :=
  { s with work := { s.work with ids := tmod s.work.ids (4096 * ci + i) {} f } }
/-- The next generation that is not barred: the one after the last issue first. -/
def nextGen (m : IdSt) : Option Nat :=
  ((upto 16).map fun k => (m.gen + 1 + k) % 16).find? fun x => !m.bars.any fun b => b.1 == x
/-- The index may be issued. -/
def idFree (m : IdSt) : Bool := !m.inUse && m.quarantine.isNone && (nextGen m).isSome
/-- The lowest free index is issued with its next generation: the job ID. -/
def issueId (ci : Nat) (s : State) : Option (Nat × State) :=
  match (upto 4096).find? fun i => idFree (idSt s ci i) with
  | none => none
  | some i =>
    let x := (nextGen (idSt s ci i)).getD 0
    some (4096 * x + i, modId ci i (fun m => { m with gen := x, inUse := true, outstanding := 0 }) s)

/-- Messages of a use on their way, and shares of its job that still run. -/
def outstandingOf (s : State) (gid num : Nat) : Nat :=
  (s.work.msgs.filter fun m => m.gid == gid && m.num == num).length +
    (s.work.units.filter fun u => match u.2.cur with
      | some r => r.gid == gid && r.num == num
      | none => false).length

/-- The use of an ID ends at release: free at once, or in quarantine while a message is unaccounted for (R161). -/
def releaseId (g : Graph) (r : JobRt) (s : State) : State :=
  match r.id with
  | none => s
  | some x =>
    -- A job that its watchdog ended has a message that never came (R163).
    let n := max (outstandingOf s g.id r.p.num) (if r.code = 4 then 1 else 0)
    modId g.ci (x % 4096) (fun m => { m with inUse := false, outstanding := n, quarantine := if n = 0 then none else some (now s) }) s

/-! ### Space of buffers (R54, R198) -/

/-- Space taken by a tenant's buffer: zero, or, where the tenant alone held it before and nothing asks for zero, possibly what it
left there (R54, R198). -/
def takeSpace (t : Nat) (zero : Bool) (a n : Nat) (s : State) : State :=
  let mine := s.work.owners.all fun o => !(o.1 < a + n && a < o.1 + o.2.1) || o.2.2 == t
  let (k, s1) := draw s
  let s2 := if !zero && mine && Config.freeBit k then s1 else memStore a (List.replicate n 0) s1
  let rest := s2.work.owners.filter fun o => !(a ≤ o.1 && o.1 + o.2.1 ≤ a + n)
  { s2 with work := { s2.work with owners := (a, n, t) :: rest } }

/-! ### Metering (R182 to R184) -/

/-- A job used `ns` of a kind of unit time on a unit shared or dedicated: counted; what exceeds its charge counts as OVERRUN and is added
to the present window. Work on a dedicated unit is charged nothing and outruns its prediction (R182, R184, R191, R196). -/
def meterTime (g : Graph) (r : JobRt) (res ns : Nat) (dedicated : Bool) (s : State) : State :=
  let charge := if dedicated then sumBy (upto r.p.shares.length) fun k => let h := r.p.shares.getD k { unit := 0 }
      tcToNs (h.fin - h.start)
    else chargeOf r res
  let isOver := ((r.used + ns) - charge) - (r.used - charge)
  let s1 := modRt g.id r.p.num (fun r => { r with used := r.used + ns }) (if dedicated then s else meter g.tenant res ns s)
  let s2 := if isOver = 0 then s1 else bumpBy 64 (kTeOverrun g.tenant) isOver s1
  if r.p.best || dedicated then s2 else addExcess g.tenant res isOver s2

/-- What a job did not use goes back to the windows that hold the charge, in proportion, rounded down (R183). -/
def settleCharges (g : Graph) (r : JobRt) (s : State) : State :=
  let unused : List Charge → Nat → List Charge := fun l used =>
    let total := l.foldl (fun n c => n + c.amount) 0
    if total = 0 ∨ total ≤ used then [] else l.map fun c => { c with amount := (total - used) * c.amount / total }
  if !r.ran then returnCharges g.tenant r.charges s
  else returnCharges g.tenant (unused (r.charges.filter fun c => c.res != 12) r.used ++ unused (r.charges.filter fun c => c.res == 12) r.lines) s

/-- Ready jobs of other tenants waited while the unit ran a segment; those in the held-ready store are ready too (R138, R196). -/
def crossWait (u tenant since : Nat) (s : State) : State :=
  each ((s.work.ready ++ s.work.heldReady).filter fun e => e.unit == u) (fun e x => match graphOf x e.gid with
    | none => x
    | some g =>
      if g.tenant = tenant then x
      else
        let ns := tcToNs (now x - max e.time since)
        peak (kTeCrossWaitMax g.tenant) ns (bumpBy 64 (kTeCrossWait g.tenant) ns x)) s

/-- A segment of a unit ends: its time is metered and the waits of others counted. -/
def segmentEnd (u : Nat) (run : Run) (s : State) : State :=
  match graphOf s run.gid, jobRt s run.gid run.num with
  | some g, some r =>
    crossWait u g.tenant run.since (meterTime g r (unitClass u) (tcToNs (now s - run.since)) (!roleShared (roleWord s u)) s)
  | _, _ => s

/-! ### How a job ends (R75, R169, R170) -/

/-- A job ends with a code: its booking and unused charges go, its entries leave the lists. -/
def endJob (gid num code : Nat) (s : State) : State :=
  match graphOf s gid with
  | none => s
  | some g => match Pl.rtOf g.rts num with
    | none => s
    | some r =>
      if !r.open_ then s
      else
        let c := worseCode code r.code
        let s1 := bump (kTeCodeCount g.tenant c) (settleCharges g r s)
        let s2 := if r.p.best && r.ran then bump (kTeBestEffortJobs g.tenant) s1 else s1
        let keep := fun (e : ReadyE) => !(e.gid == gid && e.num == num)
        let s3 := { s2 with work := { s2.work with ready := s2.work.ready.filter keep, heldReady := s2.work.heldReady.filter keep } }
        modRt gid num (fun r => { r with st := .ended, code := c, discarded := r.ran && c == 1 && g.discardLate }) s3

/-- A job ended and not yet released takes a code that ranks before its own (R169). -/
def recode (gid num code : Nat) (s : State) : State :=
  match graphOf s gid, jobRt s gid num with
  | some g, some r =>
    if r.st = .ended ∧ codeRank code < codeRank r.code then
      modRt gid num (fun r => { r with code := code })
        (bump (kTeCodeCount g.tenant code) (bumpBy 64 (kTeCodeCount g.tenant r.code) (2 ^ 64 - 1) s))
    else s
  | _, _ => s

/-- Codes of a job's predecessors that ended with one that stops dependents. -/
def badPreds (g : Graph) (r : JobRt) : List Nat :=
  r.p.preds.filterMap fun n => match Pl.rtOf g.rts n with
    | some p => if !p.open_ && killing g p.code then some p.code else none
    | none => none

/-- What a waiting job takes from its predecessors: none while it may still run. A copy to the host is made when some producer of
its buffer completed; not when a message, unit or data failure stopped one (R68, R170, log 19). -/
def inherited (g : Graph) (r : JobRt) : Option Nat :=
  let bad := badPreds g r
  let worst := bad.foldl worseCode 0
  match r.p.copy with
  | some d =>
    if d.kind = .toHost then
      let hard := bad.filter fun c => c == 3 || c == 4 || c == 5 || c == 8 || c == 9
      let prods := (refsIn g.jobs 1 d.buf ++ refsIn g.jobs 2 d.buf).filterMap (Pl.rtOf g.rts)
      if !hard.isEmpty then some (hard.foldl worseCode 0)
      else if !prods.isEmpty && prods.all (fun p => !p.open_ && killing g p.code) then some worst
      else none
    else if bad.isEmpty then none else some worst
  | none => if bad.isEmpty then none else some worst

/-- Dependents that do not run take their predecessors' codes, in order of position. -/
def propagate (gid : Nat) (s : State) : State :=
  match graphOf s gid with
  | none => s
  | some g0 => each (g0.rts.map (·.p.num)) (fun n t => match graphOf t gid with
    | none => t
    | some g => match Pl.rtOf g.rts n with
      | some r => if r.st = .waiting ∨ r.st = .ready then
          (match inherited g r with
            | some c => endJob gid n c t
            | none => t)
        else t
      | none => t) s

/-! ### Release (R154, R164 to R166) -/

/-- The queue cannot take an entry: it is full, or entries already wait (R158). -/
def cqBlocked (s : State) (f n : Nat) : Bool :=
  let q := qpOf s f n
  match q.state with
  | .disabled => false
  | .quiesced => false
  | _ => cqFull q || !q.held.isEmpty

/-- A stall episode starts (R158, R173). -/
def noteStall (f n : Nat) (s : State) : State :=
  let q := qpOf s f n
  if q.cqStall then s
  else bump (kDiDispatchStats 6) (fnEvent f (evCqStall n (q.held.length + 1) (now s)) (setQp f n { q with cqStall := true } s))

/-- A job has a completion entry: its code is not OK, or a tenant job sets NOTIFY. -/
def needsEntry (g : Graph) (r : JobRt) : Bool := r.code != 0 || (r.p.num < 4096 && (g.jobs.getD r.p.num {}).notify)

/-- The head of a flow is released while it has ended and its queue can take its entry. -/
def releaseFlow (t f : Nat) : Nat → State → State
  | 0, s => s
  | fuel + 1, s =>
    match flowHead s t f with
    | none => s
    | some (g, r) =>
      if r.st ≠ .ended then s
      else if needsEntry g r && cqBlocked s t g.qp then noteStall t g.qp s
      else
        let s1 := if needsEntry g r then cqPut t g.qp (jobEntry g r) s else s
        releaseFlow t f fuel (settleRecords g r (releaseId g r (modRt g.id r.p.num (fun r => { r with st := .released }) s1)))

/-- Every flow of a tenant. -/
def releaseTenant (t : Nat) (s : State) : State :=
  each (activeFlows s t) (fun f x => releaseFlow t f ((flowJobs x t f).length + 1) x) s

/-! ### The end of a graph (R78, R165) -/

/-- Symbols of a graph's FH_TX buffers not yet sent or skipped: buffer, AxC, symbol. -/
def txLeft (g : Graph) : List (Nat × Nat × Nat) :=
  (upto g.bufs.length).flatMap fun b =>
    let d := g.bufs.getD b {}
    if d.kind = 4 then (axcsOf d).flatMap fun a => ((symsOf d.symMask).filter fun k => !g.tx.contains (b, 16 * a + k)).map fun k => (b, a, k)
    else []

/-- Unbooked when a graph ends: its space but for live carry buffers and for FH_TX buffers whose windows are still to come (Table 2-9),
its reservations, its votes. -/
def freeGraph (g : Graph) (s : State) : State :=
  let part : Bool := (g.st == .placed || g.st == .running) && !(txLeft g).isEmpty
  let stays := fun (sp : Space) =>
    let k := (g.bufs.getD sp.buf {}).kind
    k == 5 || (part && k == 4)
  { s with
    work := { s.work with
      spaces := s.work.spaces.filter fun sp => !(sp.gid == g.id && !stays sp)
      votes := s.work.votes.filter fun v => v.2.2.2.1 != g.id
      graphs := s.work.graphs.filter fun x => x.id != g.id
      parting := if part then s.work.parting ++ [g] else s.work.parting }
    noc := { s.noc with slots := s.noc.slots.filter fun e => e.2.2.2.2 / 512 != g.id }
    host := { s.host with lines := s.host.lines.filter fun e => e.2 != g.id }
    pow := { s.pow with votes := s.pow.votes.filter fun v => !(v.client == .placement && v.tag % 2 ^ 64 == g.id) } }

/-- DONE graphs leave, with the space they still held. -/
def dropParting (p : Graph → Bool) (s : State) : State :=
  let gone := s.work.parting.filter p
  { s with work := { s.work with
      parting := s.work.parting.filter fun g => !p g
      spaces := s.work.spaces.filter fun sp => !gone.any fun g => g.id == sp.gid && (g.bufs.getD sp.buf {}).kind == 4 } }

/-- A job of a graph that has not ended references the buffer at a home, or a copy of it has not ended. -/
def usesHome (g : Graph) (h : Home) : Bool :=
  g.homes.any fun e => e.2 == h && g.rts.any fun r => r.open_ && match r.p.copy with
    | some d => d.buf == e.1
    | none =>
      let d := g.jobs.getD r.p.num {}
      (d.paramValid && d.paramBuf == e.1) || d.refs.any fun x => x.2.2 == e.1

/-- Carry buffers whose release is recorded go once every job that references them has completed; those of a CI taken away go with the last
job of its graphs (R48, R70). -/
def freeCarries (s : State) : State :=
  let used := fun (c : Carry) => s.work.graphs.any fun g => g.tenant == c.tenant && g.ci == c.ci && usesHome g c.home
  let held := fun (c : Carry) => match c.orphan with
    | some l => s.work.graphs.any fun g => l.contains g.id && g.rts.any (·.open_)
    | none => false
  let live := fun (c : Carry) => used c || held c || !c.released
  let dead := s.work.carries.filter fun c => !live c
  if dead.isEmpty then s
  else { s with work := { s.work with
      carries := s.work.carries.filter live
      spaces := s.work.spaces.filter fun sp => !dead.any fun c => c.home.addr == sp.addr && sp.toward == 2 ^ 64 } }

/-- AxC of a removed CI are unbound once its graphs have ended (R428). -/
def dropOrphanAxcs (s : State) : State :=
  { s with radio := { s.radio with axcs := s.radio.axcs.filter fun e =>
    (ciTenant s (axcCi e.2)).isSome || s.work.graphs.any fun g => g.ci == axcCi e.2 } }

/-- Templates deleted (R115). -/
def dropTemplates (p : Template → Bool) (s : State) : State :=
  { s with work := { s.work with templates := s.work.templates.filter fun t => !p t } }

/-- A CI leaves its tenant (R178): its templates go, every unit dedicated to it returns to shared use as a role change, and its carry buffers
no longer bear their keys (R70). DESIGN CHOICE (log 76): the AIR_START its graphs were last accepted with is forgotten. -/
def removeCi (t ci : Nat) (s : State) : State :=
  let gs := (s.work.graphs.filter fun g => g.ci == ci && g.tenant == t).map (·.id)
  let orphan := fun (c : Carry) => if c.ci = ci ∧ c.tenant = t then { c with released := true, orphan := some gs } else c
  let s1 := dropTemplates (fun x => x.ci == ci) { s with work := { s.work with
    ciOwner := tdel ci s.work.ciOwner, ciHome := tdel ci s.work.ciHome, ciLast := tdel ci s.work.ciLast,
    carries := s.work.carries.map orphan } }
  let s2 := each (allUnits.filter fun u => !roleShared (roleSoon s u) && roleTenant (roleSoon s u) == t && roleCi (roleSoon s u) == ci)
    (fun u x => wantRole u (mkRole (roleFn (roleSoon x u)) true 0 0) x) s1
  freeCarries (dropOrphanAxcs (freeBindings t ci s2))

/-- A tenant becomes DISABLED (Table 5-1): every CI removed, dedicated units returned, future charges and its votes withdrawn. -/
def disableTenant (t : Nat) (s : State) : State :=
  let s1 := each ((s.work.ciOwner.filter fun e => e.2 == t).map (·.1)) (fun c x => removeCi t c x) s
  let s2 := each (dedicatedUnits s1 t) (fun u x => wantRole u (mkRole (roleFn (roleSoon x u)) true 0 0) x) s1
  let s3 := dropVotes (fun v => v.client == .tenant t) s2
  let mine := fun (k : Nat) => k / 16 % 512 == t && s.work.window < k / 8192
  wr (kTeState t) 0 { s3 with work := { s3.work with charged := s3.work.charged.filter fun e => !mine e.1 } }

/-- A draining tenant whose last graph is DONE becomes DISABLED. -/
def drainCheck (t : Nat) (s : State) : State :=
  if tenantState s t = 2 && !hasGraphs s t then disableTenant t s else s

/-- A queue pair that drains and has nothing left becomes DISABLED (Table 18-9). -/
def qpDrained (s : State) (f n : Nat) : Bool :=
  let q := qpOf s f n
  q.state == .draining && q.visible.isEmpty && q.fetching.isNone && q.held.isEmpty &&
    !s.work.graphs.any fun g => g.tenant == f && g.qp == n
def qpSettle (f n : Nat) (s : State) : State :=
  if qpDrained s f n then setQp f n { qpOf s f n with state := .disabled } s else s

/-- Acknowledgements owed by a graph that ends with its cancel only recorded: OK at DONE (log 20). -/
def ackRest (g : Graph) (s : State) : State :=
  each g.cancels (fun a x => cqPut g.tenant a.qp (refusalEntry 0 0 0xFFFF 2 a.qp a.tag g.ci 0) x) s

/-- A graph is DONE: its entry is written and it leaves the device. A reset of the function leaves the tenant's state as it is (`isReset`,
Table 5-1). -/
def finishGraphBy (isReset : Bool) (g : Graph) (e : Entry) (s : State) : State :=
  let s1 := dropOrphanAxcs (freeCarries (freeGraph g (cqPut g.tenant g.qp e (ackRest g s))))
  qpSettle g.tenant g.qp (if isReset then s1 else drainCheck g.tenant s1)
def finishGraph (g : Graph) (e : Entry) (s : State) : State := finishGraphBy false g e s

/-- Every graph whose jobs and copies are all released, no earlier than L_REL after its last finish (R165); a reset of the
function does not wait (`force`). -/
def finishDone (isReset force : Bool) (s : State) : State :=
  each ((s.work.graphs.filter fun g => (g.st == .placed || g.st == .running) && g.rts.all fun r => r.st == .released).map (·.id))
    (fun gid x => match graphOf x gid with
      | none => x
      | some g =>
        if !force && g.finish != 0 && now x < g.finish + nsToTc (rd x kPlLRel) then x
        else if cqBlocked x g.tenant g.qp then noteStall g.tenant g.qp x
        else finishGraphBy isReset g (graphEntry g) x) s

/-- Graphs that are due. -/
def finishGraphs (s : State) : State := finishDone false false s

/-! ### Readiness (R64, R66, R137, R138) -/

/-- An FH_RX buffer is ready. -/
def rxReady (g : Graph) (b : Nat) : Bool := (tget g.rx b {}).ready

/-- A waiting job's inputs are there: predecessors completed, FH_RX buffers ready, earlier users of its carry buffers done, its
cutoff passed. -/
def inputsReady (s : State) (g : Graph) (r : JobRt) : Bool :=
  r.p.preds.all (fun n => match Pl.rtOf g.rts n with
    | some p => !p.open_
    | none => true) &&
  (r.p.num ≥ 4096 || ((g.jobs.getD r.p.num {}).refs.all fun x =>
    x.2.1 == 1 || (g.bufs.getD x.2.2 {}).kind != 3 || rxReady g x.2.2) &&
    (match Pl.collectGate s g r.p.num with
      | some t => t ≤ now s
      | none => true)) &&
  (Pl.carryWaits s g r.p.num r.p.copy).isEmpty &&
  (match r.p.copy with
    | some d => d.kind == .toHost || (g.bufs.getD d.buf {}).kind != 3 || rxReady g d.buf
    | none => true)
/-- The gates of a job are open: its inputs are there and it lies inside its window (R137). -/
def gatesOpen (s : State) (g : Graph) (r : JobRt) : Bool := inputsReady s g r && inWindow s g r

/-- Level of an entry (R140, R141) by the tables in force since the last tick (R143): 16 is the best-effort band. `rem` is the execution time still outstanding, Tc. -/
def levelOf (s : State) (r : JobRt) (cls rem : Nat) : Nat :=
  if r.p.best then 16
  else
    let slack : Int := (r.dl : Int) - now s - rem
    let raw := ((upto 16).find? fun l => slack * 3125 ≤ ((tget s.work.thr l (objDefault (kDiThr l)) : Nat) : Int) * 6144).getD 15
    (clampI 0 15 ((raw : Int) + toInt 8 (tget s.work.bias cls (objDefault (kDiClassBias cls))))).toNat

/-- Execution time still outstanding of share `k` of a job (R140): E of R95 less the time completed, for an engine share that of its whole
quanta done. -/
def remaining (s : State) (g : Graph) (r : JobRt) (k : Nat) : Nat :=
  let h := r.p.shares.getD k { unit := 0 }
  let e := fun (n : Nat) => cyclesToTc (Pl.engCycles { s := s, g := g, t0 := 0 } r.p.num h.first n) h.mhz
  let made := r.progress.getD k 0
  if isEngine h.unit then e h.n - (if made = 0 then 0 else e made)
  else match r.p.prog, r.p.copy with
    | some p, none => cyclesToTc (progCycles (progRun s p) (g.jobs.getD r.p.num {}).units) h.mhz - nsToTc r.used
    | _, _ => (h.fin - h.start) - nsToTc r.used

/-- Entries of a ready list: those of one class and quadrant (R135). -/
def listDepth (s : State) (u : Nat) : Nat :=
  (s.work.ready.filter fun e => unitClass e.unit == unitClass u && unitQuad e.unit == unitQuad u).length
/-- Jobs held ready in a quadrant, however many of their shares wait (R138). -/
def heldDepth (s : State) (q : Nat) : Nat :=
  ((s.work.heldReady.filter fun e => unitQuad e.unit == q).map fun e => (e.gid, e.num)).eraseDups.length
/-- Jobs wait in the store for the list of a unit. -/
def listHeld (s : State) (u : Nat) : Bool :=
  s.work.heldReady.any fun e => unitClass e.unit == unitClass u && unitQuad e.unit == unitQuad u

/-- The entry of a share. -/
def entryFor (s : State) (g : Graph) (r : JobRt) (k : Nat) : ReadyE :=
  let u := (r.p.shares.getD k { unit := 0 }).unit
  { gid := g.id, num := r.p.num, share := k, unit := u, level := levelOf s r (unitClass u) (remaining s g r k),
    time := r.readyAt.getD (now s), seq := g.seq, pos := r.pos }

/-- A job is counted as held ready, once (0x5107.03). -/
def countHeld (gid num : Nat) (s : State) : State :=
  match jobRt s gid num with
  | some r => if r.storeWait then s else bump (kDiDispatchStats 2) (modRt gid num (fun r => { r with storeWait := true }) s)
  | none => s

/-- A ready job's entry goes to its list, or to the held-ready store while the list has no free entry or jobs wait there for it (R138). -/
def enterList (e : ReadyE) (s : State) : State :=
  if listDepth s e.unit < 1024 && !listHeld s e.unit then { s with work := { s.work with ready := s.work.ready ++ [e] } }
  else countHeld e.gid e.num { s with work := { s.work with heldReady := s.work.heldReady ++ [e] } }
/-- A started share or preempted job returns to its list (R149, R150): with no free entry it waits in the store (log 77). -/
def returnEntry (e : ReadyE) (s : State) : State :=
  if listDepth s e.unit < 1024 then { s with work := { s.work with ready := s.work.ready ++ [e] } }
  else countHeld e.gid e.num { s with work := { s.work with heldReady := s.work.heldReady ++ [e] } }

/-- A job whose gates are open becomes ready: it takes its job ID and its shares enter their lists. Without an ID it waits; with
the store full it stays outside the window, and is counted. -/
def makeReady (gid num : Nat) (s : State) : State :=
  match graphOf s gid with
  | none => s
  | some g => match Pl.rtOf g.rts num with
    | none => s
    | some r =>
      let us := r.p.shares.map (·.unit)
      if us.any fun u => (1024 < listDepth s u + us.length || listHeld s u) && 16384 ≤ heldDepth s (unitQuad u) then countHeld gid num s
      else
        let s0 := if r.readyAt.isNone then modRt gid num (fun r => { r with readyAt := some (now s) }) s else s
        match (match r.id with | some i => some (i, s0) | none => issueId g.ci s0) with
        | none => if r.readyAt.isNone then bump (kDiDispatchStats 8) s0 else s0
        | some (i, s1) =>
          let s2 := modRt gid num (fun r => { r with st := .ready, id := some i }) s1
          match graphOf s2 gid, jobRt s2 gid num with
          | some g2, some r2 => each (upto us.length) (fun k x => enterList (entryFor x g2 r2 k) x) s2
          | _, _ => s2

/-- Every waiting job whose gates are open becomes ready, in order of order key. -/
def wake (s : State) : State :=
  let cand := s.work.graphs.flatMap fun g =>
    if g.st = .placed ∨ g.st = .running then (g.rts.filter fun r => r.st == .waiting).map fun r => (orderKey g r, g.id, r.p.num) else []
  each (sortBy (fun a b => a.1 ≤ b.1) cand) (fun c x => match graphOf x c.2.1 with
    | none => x
    | some g => match Pl.rtOf g.rts c.2.2 with
      | some r =>
        if r.st = .waiting && inputsReady x g r then
          if inWindow x g r then makeReady g.id r.p.num x
          else if r.winWait then x else bump (kDiDispatchStats 3) (modRt g.id r.p.num (fun r => { r with winWait := true }) x)
        else x
      | none => x) s

/-- The lowest clocks of booked and running jobs (R586). -/
def refreshClocks (s : State) : State :=
  let l := s.work.graphs.flatMap fun g => (g.rts.filter (·.open_)).flatMap fun r =>
    (r.p.shares.filter fun h => h.unit < 228).map fun h => (unitDom h.unit, Pl.lowClock s g r.p h.unit)
  { s with work := { s.work with clocks := l.eraseDups } }

/-- After jobs of tenant `t` ended: heads are released, dependents and later positions become ready, graphs finish. -/
def settle (t : Nat) (s : State) : State := finishGraphs (wake (releaseTenant t (refreshClocks (freeCarries s))))

/-- A job ends with a code and everything that follows from it. -/
def concludeJob (gid num code : Nat) (s : State) : State :=
  match graphOf s gid with
  | none => s
  | some g => settle g.tenant (propagate gid (endJob gid num code s))

/-! ### Cancel and abort (R78, R152, R632) -/

/-- A job runs on a unit now. -/
def running (s : State) (gid num : Nat) : Bool :=
  s.work.units.any fun u => match u.2.cur with
    | some r => r.gid == gid && r.num == num
    | none => false

/-- Contexts of a graph's preempted jobs are dropped. -/
def dropContexts (gid : Nat) (s : State) : State :=
  { s with work := { s.work with units := tmap (fun _ m => { m with ctx := m.ctx.filter fun r => r.gid != gid }) s.work.units } }

/-- Shares of a running job that do not run now start no more: the job ends with those that run (R152). -/
def stopShares (gid num : Nat) (s : State) : State :=
  let on := s.work.units.filterMap fun u => match u.2.cur with
    | some r => if r.gid = gid ∧ r.num = num then some r.share else none
    | none => none
  let keep := fun (e : ReadyE) => !(e.gid == gid && e.num == num)
  modRt gid num (fun r => { r with arrived := (upto r.p.shares.length).filter fun k => r.arrived.contains k || !on.contains k })
    { s with work := { s.work with ready := s.work.ready.filter keep, heldReady := s.work.heldReady.filter keep } }

/-- A graph in PLACED or RUNNING is stopped with CANCELLED or, for a CI taken away, ROLE_STALE: what does not run ends; what runs ends
when the request reaches its unit. -/
def stopGraph (gid code : Nat) (s : State) : State :=
  match graphOf s gid with
  | none => s
  | some g =>
    let all := g.st = .placed
    let s1 := each (g.rts.map (·.p.num)) (fun n x =>
      if running x gid n then stopShares gid n x else if all then recode gid n code (endJob gid n code x) else endJob gid n code x) s
    let mark := fun (g : Graph) => if code = 0x0B then { g with cancelled := true } else { g with stale := true }
    settle g.tenant (dropContexts gid (modGraph gid mark s1))
/-- A graph is cancelled (R78). -/
def cancelGraph (gid : Nat) (s : State) : State := stopGraph gid 0x0B s

/-- The segments that a tenant's jobs run end on their units and are metered (R182). -/
def segmentsEnd (t : Nat) (s : State) : State :=
  each s.work.units (fun e x => match e.2.cur with
    | some run => if ((graphOf x run.gid).map (·.tenant)) == some t then segmentEnd e.1 run x else x
    | none => x) s

/-- Every graph of a tenant ends ABORTED_BY_RESET, whatever its state (R78, R632); `isReset` tells a reset of the function, which leaves the
tenant's state, from its disabling. -/
def abortGraphs (isReset : Bool) (t : Nat) (s : State) : State :=
  let s1 := segmentsEnd t s
  let s0 := { s1 with work := { s1.work with
    units := tmap (fun _ m =>
      let mine := fun (r : Run) => s1.work.graphs.any fun g => g.id == r.gid && g.tenant == t
      { m with cur := (match m.cur with | some r => if mine r then none else some r | none => none), ctx := m.ctx.filter fun r => !mine r,
               records := m.records.filter fun r => !s1.work.graphs.any fun g => g.id == r.1 && g.tenant == t })
      s1.work.units
    pus := tmap (fun _ p => match p.placing with
      | some (gid, _) => if s1.work.graphs.any (fun g => g.id == gid && g.tenant == t) then { p with placing := none, wantsToken := false } else p
      | none => p) s1.work.pus } }
  let idle := (s1.work.units.filter fun e => e.2.cur.isSome && (unitSt s0 e.1).cur.isNone).map (·.1)
  let s2 := dropSaved (each idle (fun u x => unitOver u x) s0)
  dropParting (fun g => g.tenant == t) <| each ((s.work.graphs.filter fun g => g.tenant == t).map (·.id)) (fun gid x => match graphOf x gid with
    | none => x
    | some g =>
      if g.st = .queued ∨ g.st = .checking then finishGraphBy isReset g (refusalEntry 0x09 0 0xFFFF 1 g.qp g.subTag g.ci g.tag) x
      else
        let x1 := each (g.rts.map (·.p.num)) (fun n y => recode gid n 0x09 (endJob gid n 0x09 y)) x
        finishDone isReset true (releaseTenant t x1)) s2

end Sys2Proof.Machine
end

