-- ==== Sys2Proof/Machine/Commit.lean ====
section
/-!
DEFINITION. Placement as it acts on the state: holding and starting graphs, commits and the exclusive token, templates, votes,
pre-miss events, the trace, role changes and fences with their re-placements (03_placement.md).
-/
namespace Sys2Proof.Machine

/-- A placement unit. -/
def puOf (s : State) (q : Nat) : PuSt := tget s.work.pus q {}
def modPu (q : Nat) (f : PuSt → PuSt) (s : State) : State :=
  { s with work := { s.work with pus := tmod s.work.pus q {} f } }
/-- Graphs queued at a placement unit, in the order they were fetched (R85). -/
def puQueue (s : State) (q : Nat) : List Graph := s.work.graphs.filter fun g => g.pu == q && (g.st == .checking || g.st == .queued)
/-- Room for one more graph. -/
def puRoom (s : State) (q : Nat) : Bool := (puQueue s q).length < 32
/-- PLACE_STATS counter `i`. -/
def placeStat (i : Nat) (s : State) : State := bump (kPlPlaceStats i) s

/-! ### Hold conditions (R158, R159) -/

/-- A flow of the graph that no table entry or the tenant's limit allows (R155). -/
def flowLack (s : State) (g : Graph) : Option Nat :=
  let act := activeFlows s g.tenant
  let fresh := (g.jobs.map (·.flow)).eraseDups.filter fun f => !act.contains f
  let room := min (1024 - sliceFlows s (g.tenant % 4)) (rd s (kTeFlowLimit g.tenant) - act.length)
  if room < fresh.length then some (fresh.getD room 0) else none

/-- A flow of the graph that holds it: its backlog exceeds FLOW_BACKLOG, or the graph needs a flow that may not become active. -/
def heldFlow (s : State) (g : Graph) : Option Nat :=
  match (g.jobs.map (·.flow)).eraseDups.find? fun f => rd s kDiFlowBacklog < (flowJobs s g.tenant f).length - 64 with
  | some f => some f
  | none => flowLack s g

/-- FLOW_HELD, once per hold episode of a tenant's flow (R173). -/
def evFlowHeld (f n t : Nat) : Nat := pack [(0, 8, 3), (16, 16, f), (32, 32, n), (64, 64, t)]

/-- Graphs at the head of a placement unit's queue that a tenant's flow holds now. -/
def heldGraphs (s : State) (t f : Nat) : Nat :=
  ((upto 4).filter fun q => match (puQueue s q).head? with
    | some g => g.ready && g.tenant == t && heldFlow s g == some f
    | none => false).length

/-- The graph at the head of a unit's queue is held by a flow (R159): counted, and reported when no unit was held by that flow. -/
def holdGraph (q f : Nat) (g : Graph) (s : State) : State :=
  let why := some (g.tenant, f)
  let known := s.work.pus.any fun e => e.2.held == why
  let s1 := modPu q (fun p => { p with held := why, placing := none }) s
  if (puOf s q).held = why then s1
  else
    let s2 := bump (kDiDispatchStats 4) s1
    if known then s2 else fnEvent g.tenant (evFlowHeld f (heldGraphs s g.tenant f) (now s)) s2

/-- The plan of a graph against the present state. -/
def planNow (s : State) (g : Graph) : Plan := Pl.plan { s := s, g := g, t0 := now s }

/-- PLACEMENT_START: the graph at the head of a placement unit's queue is held, or started: its snapshot is taken (R86, R159). -/
def execPlacementStart (pu : QuadId) (s : State) : Res :=
  match (puQueue s pu.val).head?, (puOf s pu.val).placing with
  | some g, none =>
    if !g.ready then done s
    else match heldFlow s g with
      | some f => done (holdGraph pu.val f g s)
      | none => done (modPu pu.val (fun p => { p with held := none, placing := some (g.id, planNow s g) }) s)
  | _, _ => done s

/-! ### The trace (R132) -/

/-- A trace record of PF0 at TRACE_HEAD; not written while PF0 may not send, and then counted as lost. -/
def traceRec (v : Nat) (s : State) : State :=
  let h := rd s kTrTraceHead
  if maySend s 0 then
    hostWrite 0 (rd s kTrTraceAddr + 32 * h) (toBytes 32 v) (wr kTrTraceHead ((h + 1) % max 1 (rd s kTrTraceEntries)) s)
  else bump kTrTraceLost s

/-- Tc after AIR_START; 0 for a time that placement did not predict. -/
def ofs32 (g : Graph) (t : Nat) : Nat := if t = 0 then 0 else ofInt 32 ((t : Int) - g.air)

/-- Graph record (Table 3-7). -/
def traceGraph (g : Graph) (p : Plan) (outcome flags : Nat) (slot : Option Nat) : Nat :=
  let fin := p.jobs.foldl (fun m r => max m r.fin) 0
  let least : Int := ((Pl.leastSlack p.jobs).map fun r => (r.dl : Int) - r.fin).getD 0
  let detail := (p.refused.map fun r => r.2.1).getD 0
  pack [(0, 8, 1), (8, 8, outcome), (16, 9, g.ci), (32, 9, g.tenant), (48, 13, (p.jobs.filter fun r => r.p.num < 4096).length),
    (64, 64, g.air), (128, 32, if fin = 0 then 0 else ofs32 g (fin + nsToTc 400)), (160, 32, ofInt 32 least), (192, 13, p.shed.length),
    (208, 13, (p.jobs.filter fun r => 4096 ≤ r.p.num).length), (224, 8, detail), (232, 8, slot.getD 0xFF), (240, 2, g.pu),
    (248, 4, flags)]

/-- Chunks that a job's shares make. -/
def chunkCount (s : State) (g : Graph) (r : JobRt) : Nat :=
  let one := fun (h : PShare) =>
    let c : PlCtx := { s := s, g := g, t0 := 0 }
    let rec go : Nat → Nat → Nat → Nat
      | 0, _, _ => 0
      | fuel + 1, a, n => if n = 0 then 0 else
        let k := min n (Pl.chunkSize c r.p.num h.unit a n)
        1 + go fuel (a + k) (n - k)
    if isEngine h.unit then go h.n h.first h.n else 1
  r.p.shares.foldl (fun n h => n + one h) 0

/-- Job record (Table 3-8). -/
def traceJob (s : State) (g : Graph) (p : Plan) (r : JobRt) : Nat :=
  let u := (r.p.shares.headD { unit := 0 }).unit
  let split := 1 < r.p.shares.length
  let mask := r.p.shares.foldl (fun m h => m + 2 ^ ((h.unit - 108) % 15)) 0
  let loc := if split then locAtLevel (unitLoc u) 4 else if 228 ≤ u then locAtLevel (unitLoc u) 4 else unitLoc u
  let flags := b2n (p.shed.contains r.p.num) + 2 * b2n ((g.jobs.getD r.p.num {}).pinKind != 0) + 4 * b2n r.p.copy.isSome +
    8 * b2n r.p.best + 16 * b2n (p.isOver.contains r.p.num)
  pack [(0, 8, 2), (8, 5, flags), (16, 16, r.p.num), (32, 16, chunkCount s g r), (48, 15, if split then mask else 0), (64, 64, loc),
    (128, 32, ofs32 g r.start), (160, 32, ofs32 g r.fin), (192, 32, ofs32 g r.dl),
    (224, 16, (r.p.copy.map (·.buf)).getD 0xFFFF)]

/-- Buffer record (Table 3-9). -/
def traceBuf (g : Graph) (p : Plan) (b : Nat) : Nat :=
  match tfind b p.homes with
  | none => pack [(0, 8, 3), (16, 13, b), (32, 32, (g.bufs.getD b {}).size)]
  | some h =>
    let loc := match h.tier with
      | 0 => locCore h.block
      | 1 => locAtLevel (locCore (9 * h.block)) 4
      | 2 => pack [(61, 3, 4), (58, 2, h.block), (54, 4, 6), (48, 6, h.block)]
      | _ => pack [(61, 3, 7)]
    let sp := p.spaces.find? fun e => e.buf == b
    pack [(0, 8, 3), (8, 3, h.tier), (16, 13, b), (32, 32, (g.bufs.getD b {}).size), (64, 64, loc), (128, 64, h.addr),
      (192, 32, (sp.map fun e => ofs32 g e.from_).getD 0), (224, 32, (sp.map fun e => ofs32 g e.toward).getD 0)]

/-- The records of one commit, in order. -/
def traceCommit (g : Graph) (p : Plan) (outcome flags : Nat) (slot : Option Nat) (s : State) : State :=
  let sel := rd s kTrTraceCi
  if !rdB s kTrTraceEnable ∨ (sel ≠ 0xFFFF ∧ sel ≠ g.ci) then s
  else
    let s1 := traceRec (traceGraph g p outcome flags slot) s
    if outcome = 2 then s1
    else
      let byNum := sortBy (fun (a b : JobRt) => a.p.num ≤ b.p.num) g.rts
      let s2 := each byNum (fun r x => traceRec (traceJob x g p r) x) s1
      each (upto g.bufs.length) (fun b x => traceRec (traceBuf g p b) x) s2

/-! ### Commit (R78, R86, R110 to R121) -/

/-- The PRE_MISS event (Table 4-6). -/
def evPreMiss (g : Graph) (r : JobRt) (cancelled after replaced : Bool) (shed : Nat) : Nat :=
  pack [(0, 8, 1), (8, 1, b2n cancelled), (9, 1, b2n after), (10, 1, b2n replaced), (16, 9, g.ci), (32, 16, r.p.num), (48, 13, shed),
    (64, 64, g.air), (128, 32, ofs32 g r.fin), (160, 32, ofs32 g r.dl), (192, 32, g.tag), (224, 16, g.subTag)]

/-- The PRE_MISS event of a graph at risk. -/
def preMiss (g : Graph) (cancelled after replaced : Bool) (s : State) : State :=
  match Pl.leastSlack (g.rts.filter (·.open_)) with
  | some r => placeStat 5 (fnEvent g.tenant (evPreMiss g r cancelled after replaced g.shed) s)
  | none => s

/-- Onset of a PS0 vote: GOV_LEAD before the start, moved earlier in whole µs until the governor's plan admits it (R591). -/
def planOnset (plan : List (Nat × Int)) (slope step amp : Nat) : Nat → Nat → Nat
  | 0, t => t
  | fuel + 1, t =>
    let near := fun w => (plan.filter fun e => 0 < e.2 && e.1 < t + w && t < e.1 + w).foldl (fun n e => n + e.2.toNat) 0
    if near (usToTc 1) + amp ≤ 1000 * slope && near (usToTc 2) + amp ≤ 1000 * step then t
    else planOnset plan slope step amp fuel (t - usToTc 1)

/-- The votes of a booked interval are entered: its onset in the governor's plan, its end (R578, R591). -/
def bookVote (gid dom start fin : Nat) (s : State) : State :=
  if s.work.votes.any fun v => v.1 == dom && v.2.2.2.2 == start && v.2.2.1 == fin && v.2.2.2.1 == gid then s
  else
    let amp := stepAmp s dom
    let t := planOnset s.pow.plan (rd s kPwGovSlope) (rd s kPwGovStep) amp 4096 (start - usToTc (rd s kPwGovLead))
    { s with
      work := { s.work with votes := s.work.votes ++ [(dom, t, fin, gid, start)] }
      pow := { s.pow with plan := (s.pow.plan.filter fun e => now s ≤ e.1) ++ [(t, (amp : Int))] } }

/-- Votes of a graph's shares, and of the port logic of its FH buffers. -/
def bookVotes (g : Graph) (s : State) : State :=
  let s1 := each (g.rts.filter (·.open_)) (fun r x => each r.p.shares (fun h y => bookVote g.id (unitDom h.unit) h.start h.fin y) x) s
  each (g.bufs.filter fun b => b.kind == 3) (fun b x =>
    each ((axcsOf b).map fun a => quadDom (axcLane s a)).eraseDups (fun d y => bookVote g.id d g.air (fhReadyTime y g b) y) x) s1

/-- Reservations entered, the largest number on each link kept (R551, R572). -/
def bookLinks (g : Graph) (l : List (Nat × Nat × Nat × Nat)) (s : State) : State :=
  let s1 := { s with noc := { s.noc with slots := s.noc.slots ++ l.map fun e => (e.1, e.2.1, e.2.2.1, e.2.2.2, 512 * g.id + g.tenant) } }
  each ((l.map (·.1)).eraseDups) (fun k x =>
    let on := x.noc.slots.filter fun e => e.1 == k
    let n := on.foldl (fun m e => max m (on.filter fun f => f.2.2.1 ≤ e.2.2.1 && e.2.2.1 < f.2.2.2.1).length) 0
    { x with noc := { x.noc with reservedMax := tset k (max n (tget x.noc.reservedMax k 0)) x.noc.reservedMax } }) s1

/-- Cores whose T0 a copy reaches: it carries their epochs too (R127). -/
def copyCores (s : State) (p : PJob) : List Nat :=
  match p.copy with
  | some d => [d.src, d.dst].filterMap fun a => match regionOf s a with
    | .dmem n => some n
    | _ => none
  | none => []

/-- Epochs of a job's units, stamped at booking (R127). -/
def stamp (s : State) (tenant : Nat) (r : JobRt) : JobRt :=
  { r with cap := fld (rd s kEnLddCap) (8 * tenant) 8, epochs := (r.p.shares.map (·.unit) ++ copyCores s r.p).map (epochOf s), progress := r.p.shares.map fun _ => 0,
           watch := max r.dl r.fin + nsToTc (rd s kDiWatchdog) }

/-- The rows of a committed graph: planned ones, then jobs shed (DROPPED) and over budget (BUDGET_EXCEEDED). -/
def commitRows (s : State) (g : Graph) (p : Plan) : List JobRt :=
  let copies := p.items.filter fun x => 4096 ≤ x.num
  let out := fun (code : Nat) (n : Nat) =>
    let item := (p.items.find? fun x => x.num == n).getD { num := n, flow := (g.jobs.getD n {}).flow }
    let item1 := { item with shares := [] }
    ({ p := item1, dl := Pl.itemDeadline { s := s, g := g, t0 := 0 } item, pos := Pl.position copies item, st := .ended, code := code } : JobRt)
  sortBy (fun a b => a.pos ≤ b.pos) (p.jobs.map (stamp s g.tenant) ++ p.shed.map (out 2) ++ (p.isOver.filter fun n => !p.shed.contains n).map (out 6))

/-- Carry buffers created and releases recorded by the acceptance of a graph (R48). A buffer created without ZERO_INIT holds zero or what its
tenant left there (R54, R198). -/
def commitCarries (g : Graph) (s : State) : State :=
  each (upto g.bufs.length) (fun b x =>
    let d := g.bufs.getD b {}
    if d.kind ≠ 5 then x
    else
      let mine := fun (c : Carry) => c.ci == g.ci && c.tenant == g.tenant && c.key == d.key && !c.released
      match carryFind x g.tenant g.ci d.key, tfind b g.homes with
      | none, some h =>
        let c : Carry := { ci := g.ci, tenant := g.tenant, key := d.key, size := d.size, home := h }
        takeSpace g.tenant d.zero h.addr d.size { x with work := { x.work with carries := x.work.carries ++ [c] } }
      | some _, _ =>
        if d.carryOp = 2 then { x with work := { x.work with carries := updFirst mine (fun c => { c with released := true }) x.work.carries } }
        else x
      | none, none => x) s

/-- Buffers that only parameter blocks name are staged into their T2 homes (R94). -/
def stageBlocks (g : Graph) (s : State) : State :=
  each g.params (fun e x => match tfind e.1 g.homes with
    | some h => if h.tier = 4 then x else memStore h.addr e.2 (takeSpace g.tenant true h.addr e.2.length x)
    | none => x) s

/-- Entry of a completion for each job ended at commit is counted as its code (T+4). -/
def countEnded (g : Graph) (s : State) : State :=
  each (g.rts.filter fun r => !r.open_) (fun r x => bump (kTeCodeCount g.tenant r.code) x) s

/-- The slot a graph's full placement is stored in: that of the template of its shape that failed, a free one, or the least recently used
(R111, R114). -/
def storeSlot (s : State) (g : Graph) : Nat :=
  let mine := s.work.templates.filter fun t => t.ci == g.ci
  let free := (upto (rd s kPlTemplateSlots)).find? fun n => !mine.any fun t => t.slot == n
  let lru := (mine.foldl (fun m t => match m with
    | none => some t
    | some x => if t.used < x.used then some t else some x) none).map (·.slot)
  match mine.find? fun t => Pl.shapeEq t g, free, lru with
  | some t, _, _ => t.slot
  | none, some n, _ => n
  | none, none, some n => n
  | none, none, none => 0

/-- The graph reuses and stores templates. -/
def templated (s : State) (g : Graph) : Bool := !g.noTemplate && rdB s kPlTemplatesEnable

/-- The template slot of a commit: the one reused, the one its full placement is stored in, or none. -/
def templateSlot (s : State) (g : Graph) (p : Plan) : Option Nat :=
  if !templated s g then none else some (p.template.getD (storeSlot s g))

/-- A full placement is stored as a template; a reused one is the most recently used (R111, R114). -/
def storeTemplate (g : Graph) (p : Plan) (s : State) : State :=
  if !templated s g then s
  else match p.template with
    | some n => { s with work := { s.work with templates := s.work.templates.map fun t =>
        if t.ci = g.ci ∧ t.slot = n then { t with used := now s } else t } }
    | none =>
      let slot := storeSlot s g
      let units := ((p.items.flatMap fun x => x.shares.map (·.unit)).filter (· < 228)).eraseDups
      let t : Template :=
        { ci := g.ci, tenant := g.tenant, slot := slot, jobs := g.jobs.map Pl.shapeJob, bufs := g.bufs.map Pl.shapeBuf, plan := p.items,
          homes := p.homes, epochs := units.map fun u => (u, epochOf s u), used := now s, air := g.air,
          routes := (p.links.map (·.1)).eraseDups }
      { s with work := { s.work with templates := (s.work.templates.filter fun x => !(x.ci == g.ci && x.slot == slot)) ++ [t] } }

/-- A graph refused by placement, or by a check of validation that no longer holds at its commit (R124): its completion entry, and no trace
beyond it (R82). -/
def refusePlan (g : Graph) (p : Plan) (r : Nat × Nat × Nat) (s : State) : State :=
  let s0 := bump (kTeGraphsRefused g.tenant) s
  let s1 := if r.1 = 0x07 then s0 else placeStat (if r.1 = 0x0A then 6 else 7) s0
  finishGraph g (refusalEntry r.1 r.2.1 r.2.2 1 g.qp g.subTag g.ci g.tag) (traceCommit g p 2 0 none s1)

/-- The checks of validation that the acceptance of other graphs and released carry buffers may have changed since: OUT_OF_ORDER, CARRY (R48,
R57, R71). -/
def recheck (s : State) (g : Graph) : Option (Nat × Nat × Nat) :=
  if outOfOrder s g then some (0x07, 0x0C, 0xFFFF)
  else (firstBad g.bufs.length (carryBad s g g.bufs)).map fun b => (0x07, 0x24, b)

/-- Jobs whose data from the host could not be read at the fetch: those whose block failed, and every other consumer of its buffer (R69). -/
def hostFailed (g : Graph) : List Nat :=
  let bad := g.badJobs.map fun j => (g.jobs.getD j {}).paramBuf
  (upto g.jobs.length).filter fun j =>
    let d := g.jobs.getD j {}
    g.badJobs.contains j || (d.paramValid && bad.contains d.paramBuf) || d.refs.any fun x => x.2.1 == 0 && bad.contains x.2.2

/-- A plan committed (R78, R86): the graph is accepted, its rows, space, reservations, charges and votes are booked, its template is
stored, and what is due at once happens: recorded cancels, AUTO_CANCEL, deadlines already past, the pre-miss event. -/
def commitPlan (pu gid : Nat) (p : Plan) (s0 : State) : State :=
  let s := modPu pu (fun x => { x with placing := none, wantsToken := false })
    { s0 with work := { s0.work with tokenQueue := s0.work.tokenQueue.filter (· != pu) } }
  match graphOf s gid with
  | none => s
  | some g =>
    let tplTried := (Pl.templateFor s g).isSome
    let s1 := if tplTried && p.template.isNone then placeStat 2 s else s
    match p.refused, if g.validateOnly then none else recheck s g with
    | some r, _ => refusePlan g p r s1
    | none, some r => refusePlan g p r s1
    | none, none =>
      let s1 := placeStat (if p.template.isSome then 1 else 0) s1
      if g.validateOnly then finishGraph g (refusalEntry 0 0 0xFFFF 1 g.qp g.subTag g.ci g.tag) s1
      else
        let after := g.air < now s
        let rows := commitRows s g p
        let g1 : Graph :=
          { g with st := .placed, seq := s.work.seq, rts := rows, homes := p.homes, atRisk := p.atRisk, afterStart := after, shed := p.shed.length }
        let s2 := { s1 with work := { s1.work with
          seq := s1.work.seq + 1, graphs := updFirst (fun x => x.id == gid) (fun _ => g1) s1.work.graphs,
          spaces := s1.work.spaces ++ p.spaces, ciLast := tset g.ci (max g.air (tget s1.work.ciLast g.ci 0)) s1.work.ciLast } }
        let s3 := each p.jobs (fun r x => makeCharges g.tenant r.charges x) (bump (kTeGraphsAccepted g.tenant) s2)
        let s4 := countEnded g1 (bookVotes g1 (bookLinks g1 p.links (stageBlocks g1 (commitCarries g1 s3))))
        let s5 := bumpBy 64 (kPlPlaceStats 4) p.shed.length (if p.atRisk then placeStat 3 s4 else s4)
        let best := p.jobs.any fun r => r.p.best
        let flags := b2n p.atRisk + 2 * b2n p.atRisk + 4 * b2n after + 8 * b2n best
        let s6 := traceCommit g1 p (if p.template.isSome then 1 else 0) flags (templateSlot s5 g1 p) (storeTemplate g1 p s5)
        let s7 := if p.atRisk then preMiss g1 g.autoCancel after false s6 else s6
        let s8 := refreshClocks (propagate gid (each (hostFailed g) (fun n x => endJob gid n 5 x) s7))
        let auto := p.atRisk && g.autoCancel
        if auto || !g.cancels.isEmpty then
          cancelGraph gid (modGraph gid (fun x => { x with cancels := [], autoCancelled := auto }) (ackRest g s8))
        else
          let late := if after && g.discardLate then (rows.filter fun r => r.open_ && ownDeadline g1 r.p < now s).map (·.p.num) else []
          settle g.tenant (propagate gid (each late (fun n x => endJob gid n 1 x) s8))

/-- The carry buffers of a graph are those its plan was made with: one that bears the key at its home, or none and space of its own. -/
def carriesHold (s : State) (g : Graph) (p : Plan) : Bool :=
  (upto g.bufs.length).all fun b =>
    (g.bufs.getD b {}).kind != 5 || match carryFind s g.tenant g.ci (g.bufs.getD b {}).key with
      | some c => tfind b p.homes == some c.home
      | none => p.spaces.any fun e => e.buf == b

/-- Nothing the plan relies on has been taken since its snapshot: calendars, space and reservations (R86), the units' roles (R128), the
template it reuses (R131), the carry buffers it found. -/
def planHolds (s : State) (g : Graph) (p : Plan) : Bool :=
  carriesHold s g p &&
  (match p.template with
    | some n => rdB s kPlTemplatesEnable && s.work.templates.any fun t => t.ci == g.ci && t.slot == n
    | none => true) &&
  (p.jobs.all fun r => r.p.shares.all fun h => 228 ≤ h.unit || admits s g.tenant g.ci h.unit) &&
  (p.jobs.all fun r => r.p.shares.all fun h => !(Pl.busy s h.unit).any fun e => e.1 < h.fin && h.start < e.2) &&
  (p.spaces.all fun a => !s.work.spaces.any fun b => a.block == b.block && a.addr < b.addr + b.len && b.addr < a.addr + a.len && a.from_ < b.toward && b.from_ < a.toward) &&
  (p.links.all fun a => !s.noc.slots.any fun b => a.1 == b.1 && a.2.1 == b.2.1 && a.2.2.1 < b.2.2.2.1 && b.2.2.1 < a.2.2.2)

/-- A plan commits, or its graph is held after all because other units' commits took the flows it needs (R155, R159). -/
def commitOrHold (q gid : Nat) (p : Plan) (s : State) : State :=
  match graphOf s gid with
  | none => commitPlan q gid p s
  | some g =>
    if p.refused.isSome || g.validateOnly then commitPlan q gid p s
    else match flowLack s g with
      | some f => modPu q (fun x => { x with wantsToken := false }) (holdGraph q f g s)
      | none => commitPlan q gid p s

/-- PLACEMENT_COMMIT: the finished plan is committed, or the unit asks for the exclusive token (R86). -/
def execPlacementCommit (pu : QuadId) (s : State) : Res :=
  match (puOf s pu.val).placing with
  | none => done s
  | some (gid, p) =>
    if (puOf s pu.val).wantsToken then done s
    else if p.refused.isSome || ((graphOf s gid).map fun g => g.validateOnly || (recheck s g).isSome || planHolds s g p).getD true then
      done (commitOrHold pu.val gid p s)
    else done (modPu pu.val (fun x => { x with wantsToken := true }) { s with work := { s.work with tokenQueue := s.work.tokenQueue ++ [pu.val] } })

/-- EXCLUSIVE_TOKEN_GRANT: the first unit that asked places its graph again and commits without the check (R86). -/
def execExclusiveTokenGrant (s : State) : Res :=
  match s.work.tokenQueue with
  | [] => done s
  | pu :: r =>
    let s1 := { s with work := { s.work with tokenQueue := r } }
    match (puOf s pu).placing with
    | none => done s1
    | some (gid, _) => match graphOf s gid with
      | none => done (modPu pu (fun x => { x with placing := none, wantsToken := false }) s1)
      | some g => done (commitOrHold pu gid (planNow s1 g) (placeStat 8 s1))

/-! ### Placement votes (R578, R591) -/

/-- Tag of the vote of a booked interval. -/
def voteTag (gid start : Nat) : Nat := gid + 2 ^ 64 * start

/-- PLACEMENT_VOTE_ONSET: the PS3 votes of intervals that begin within 2 ms and the PS0 votes at their onset are placed. -/
def execPlacementVoteOnset (s : State) : Res :=
  done (each s.work.votes (fun v x =>
    if v.2.1 ≤ now x && now x < v.2.2.1 then addVote { client := .placement, dom := v.1, level := 0, tag := voteTag v.2.2.2.1 v.2.2.2.2 } x
    else if v.2.2.2.2 ≤ now x + msToTc 2 && now x < v.2.2.2.2 then
      addVote { client := .placement, dom := v.1, level := 3, tag := voteTag v.2.2.2.1 v.2.2.2.2 } x
    else x) s)

/-- BOOKED_INTERVAL_END: votes of intervals that have ended are withdrawn. -/
def execBookedIntervalEnd (s : State) : Res :=
  let isOver := s.work.votes.filter fun v => v.2.2.1 ≤ now s
  let gone := fun (v : Vote) => v.client == .placement && isOver.any fun e => e.1 == v.dom && voteTag e.2.2.2.1 e.2.2.2.2 == v.tag
  done (dropVotes gone { s with work := { s.work with votes := s.work.votes.filter fun v => now s < v.2.2.1 } })

/-! ### Re-placement (R126 to R129) -/

/-- Undispatched jobs of a graph that are booked on a unit. -/
def undispatchedOn (s : State) (g : Graph) (u : Nat) : List Nat :=
  (g.rts.filter fun r => r.p.num < 4096 && (r.st == .waiting || r.st == .ready) && !r.ran && !running s g.id r.p.num &&
    r.p.shares.any fun h => h.unit == u).map (·.p.num)

/-- Bookings of jobs taken out before they are placed again: charges, lists, reservations, space of their areas (R183). -/
def unbook (g : Graph) (moved : List Nat) (s : State) : State :=
  let mine := g.rts.filter fun r => moved.contains r.p.num || Pl.servesMoved g moved r.p
  let nums := mine.map (·.p.num)
  let s1 := each mine (fun r x => returnCharges g.tenant r.charges x) s
  let loose := Pl.rehomed g moved
  let areas := mine.flatMap (fun r => r.p.areas.map (·.2)) ++ loose.filterMap fun b => (tfind b g.homes).map (·.addr)
  let keep := fun (e : ReadyE) => !(e.gid == g.id && nums.contains e.num)
  let sp := s1.work.spaces.filter fun e => !(e.gid == g.id && areas.contains e.addr)
  let vs := s1.work.votes.filter fun v =>
    !(v.2.2.2.1 == g.id && mine.any fun r => r.p.shares.any fun h => h.start == v.2.2.2.2 && h.fin == v.2.2.1)
  let sl := s1.noc.slots.filter fun e =>
    !(e.2.2.2.2 / 512 == g.id && mine.any fun r => r.p.shares.any fun h => h.start == e.2.2.1 && h.fin == e.2.2.2.1)
  let rows := g.rts.map fun r =>
    if nums.contains r.p.num then { r with p := { r.p with shares := [], areas := [] }, charges := [], st := .waiting } else r
  let w := { s1.work with ready := s1.work.ready.filter keep, heldReady := s1.work.heldReady.filter keep, spaces := sp, votes := vs }
  modGraph g.id (fun x => { x with rts := rows }) { s1 with work := w, noc := { s1.noc with slots := sl } }

/-- The rows of a re-placed graph: new plans for what moved, everything else with its new predecessors; jobs shed or over budget
end. Job IDs are kept (R160), and the ready time of a row whose predecessors have all ended still (R137). -/
def mergeRows (s : State) (g : Graph) (p : Plan) (moved : List Nat) : List JobRt :=
  let fresh := commitRows s g p
  let kept := g.rts.filter fun r => !moved.contains r.p.num && !Pl.servesMoved g moved r.p
  let isNew := fun (n : Nat) => !kept.any fun r => r.p.num == n
  let isOver := fun (n : Nat) => (kept.find? fun r => r.p.num == n).any fun r => !r.open_
  let newRows := (fresh.filter fun r => isNew r.p.num).map fun r => match Pl.rtOf g.rts r.p.num with
    | some o => { r with id := o.id, readyAt := if r.p.preds.all isOver then o.readyAt else none, storeWait := o.storeWait, winWait := o.winWait }
    | none => r
  let oldRows := kept.map fun r => match p.items.find? fun x => x.num == r.p.num with
    | some x => if r.open_ then { r with p := { r.p with preds := x.preds } } else r
    | none => r
  sortBy (fun a b => a.pos ≤ b.pos) (oldRows ++ newRows)

/-- The re-placement of a graph takes effect: its rows, homes, space and charges; a copy no longer needed gives up its job ID. -/
def commitReplan (g g1 : Graph) (p : Plan) (moved : List Nat) (s : State) : State :=
  let rows := mergeRows s g1 p moved
  let atRisk := (p.jobs.filter (·.open_)).any (Pl.itemAtRisk { s := s, g := g1, t0 := 0 })
  let g2 := { g1 with rts := rows, homes := p.homes, atRisk := g1.atRisk || atRisk, shed := g1.shed + p.shed.length }
  let lost := g1.rts.filter fun r => !rows.any fun x => x.p.num == r.p.num
  let s1 := each lost (fun r x => releaseId g1 r x) s
  let s2 := { s1 with work := { s1.work with
    graphs := updFirst (fun x => x.id == g.id) (fun _ => g2) s1.work.graphs, spaces := s1.work.spaces ++ p.spaces } }
  let s3 := each (p.jobs.filter fun r => moved.contains r.p.num || Pl.servesMoved g moved r.p || !g.rts.any fun o => o.p.num == r.p.num)
    (fun r x => makeCharges g.tenant r.charges x) s2
  let warn : Bool := atRisk && now s3 < g.air
  let flags := b2n atRisk + 2 * b2n warn + 4 * b2n (g.air < now s3) + 8 * b2n (p.jobs.any fun r => r.p.best)
  let s4 := traceCommit g2 p 3 flags none (bookVotes g2 (bookLinks g2 p.links s3))
  let s5 := if atRisk && !g1.atRisk then placeStat 3 s4 else s4
  let s6 := if warn then preMiss g2 false false true s5 else s5
  propagate g.id (bumpBy 64 (kPlPlaceStats 4) p.shed.length s6)

/-- The undispatched jobs `moved` of a graph are placed again. One that no unit admits ends with the refusal's code, and the rest
is placed (log 21); `fuel` bounds that. -/
def replaceJobs (gid : Nat) : Nat → List Nat → State → State
  | 0, _, s => s
  | fuel + 1, moved, s =>
    match moved, graphOf s gid with
    | [], _ => s
    | _, none => s
    | _, some g =>
      let s1 := unbook g moved s
      match graphOf s1 gid with
      | none => s1
      | some g1 =>
        let p := Pl.replan { s := s1, g := g1, t0 := now s1 } moved
        match p.refused with
        | some r =>
          let bad := if moved.contains r.2.2 then r.2.2 else moved.headD 0
          replaceJobs gid fuel (moved.filter (· != bad)) (propagate gid (endJob gid bad r.1 s1))
        | none => commitReplan g g1 p moved s1

/-- Every undispatched job booked on a unit is placed again, in graphs in PLACED and RUNNING (R128). -/
def replaceUnit (u : Nat) (s : State) : State :=
  let gs := (s.work.graphs.filter fun g => g.st == .placed || g.st == .running).map (·.id)
  let s1 := each gs (fun gid x => match graphOf x gid with
    | none => x
    | some g =>
      let moved := undispatchedOn x g u
      if moved.isEmpty then x else placeStat 9 (replaceJobs gid (moved.length + 1) moved x)) s
  let tenantsOf := ((s1.work.graphs.filter fun g => gs.contains g.id).map (·.tenant)).eraseDups
  each tenantsOf (fun t x => settle t x) s1

/-- A core enters or leaves maintenance mode: its registers are cleared (R264, R265). -/
def roleCore (u fn : Nat) (s : State) : State :=
  if !isCore u then s
  else { s with sage := { s.sage with cores := if fn = 1 then tset u (maintCore (now s)) s.sage.cores else tdel u s.sage.cores } }

/-- A unit's role takes effect (R115, R125): templates that use it go, capacity is checked, its jobs are placed again. -/
def takeRole (u w : Nat) (s : State) : State :=
  if roleWord s u = w then modUnit u (fun m => { m with nextRole := none }) s
  else replaceUnit u (overcommitCheck (dropTemplates (fun t => t.epochs.any fun e => e.1 == u)
    (roleCore u (roleFn w) (setRole u w s))))

/-- A change may take effect: 10 µs after the last one (R125), at a job boundary unless the unit was fenced (R126). -/
def roleDue (s : State) (u : Nat) : Bool :=
  let m := unitSt s u
  (match m.lastChange with
    | some t => t + usToTc 10 ≤ now s
    | none => true) && (m.fenced || (m.cur.isNone && m.ctx.isEmpty && !(s.work.ready ++ s.work.heldReady).any fun e => e.unit == u &&
      ((jobRt s e.gid e.num).map fun r => r.ran).getD false))

/-- A change of role falls due: it takes effect at once where it may, else when the hold ends (R125). -/
def roleNow (u w : Nat) (s : State) : State :=
  let s1 := wantRole u w s
  if roleDue s1 u then takeRole u w s1 else s1

/-- ROLE_CHANGE: the change that is due on a unit takes effect. -/
def execRoleChange (u : Fin 228) (s : State) : Res :=
  match (unitSt s u.val).nextRole with
  | some w => whenDue (roleDue s u.val) (takeRole u.val w) s
  | none => done s

/-- What runs on a unit, and the contexts it holds, end at once with a code; a share between chunks there too (R129). The segment that ran is
metered (R182). -/
def stopUnit (u code : Nat) (s : State) : State :=
  let m := unitSt s u
  let runs := m.cur.toList ++ m.ctx
  let shares := ((s.work.ready ++ s.work.heldReady).filter fun e => e.unit == u && ((jobRt s e.gid e.num).map fun r => r.ran).getD false).map fun e => (e.gid, e.num)
  let s0 := each m.cur.toList (fun r x => segmentEnd u r x) s
  let s1 := dropSaved (unitOver u (modUnit u (fun m => { m with cur := none, ctx := [], records := [] }) s0))
  each (runs.map (fun r => (r.gid, r.num)) ++ shares) (fun e x => concludeJob e.1 e.2 code x) s1

/-- A unit leaves service for a fault: it stops at once, admits nothing, its jobs are placed again, and its role becomes FUNCTION 2
when the hold allows (R125, R129). -/
def fenceUnit (u : Nat) (s : State) : State :=
  if (unitSt s u).fenced then s
  else
    let s1 := modUnit u (fun m => { m with fenced := true, task := none }) s
    let s2 := wantFn u 2 (stopUnit u 0x08 s1)
    overcommitCheck (replaceUnit u s2)

/-- Spare substitution starts (R532, Table 15-5): U8 takes FUNCTION 1 for its self-test. The outgoing core's role is kept in the task. -/
def startSubstitution (core : Nat) (s : State) : State :=
  let sp := 9 * (core / 9) + 8
  if core = sp ∨ roleFn (roleWord s sp) ≠ 3 ∨ (unitSt s sp).fenced ∨ (unitSt s sp).task.isSome then s
  else modUnit sp (fun m => { m with task := some (.substitution core) }) (wantFn sp 1 s)

/-- Core `n` leaves service for good: counted, recorded in both copies of the ledger, and a spare is put in its place (R532, R533, R536). -/
def coreOut (n : Nat) (s : State) : State :=
  let put := fun (c : LedgerCopy) => if c.coresOut.contains n then c else { c with coresOut := c.coresOut ++ [n] }
  startSubstitution n (bumpBy 8 kSrCoresOut 1
    { s with sram := { s.sram with copyA := put s.sram.copyA, copyB := put s.sram.copyB } })

/-! ### Template objects (R131) -/

/-- TEMPLATES_ENABLE. -/
def wTemplatesEnable (v : Nat) (s : State) : Written :=
  if 1 < v then refusedW .range s
  else accepted (wr kPlTemplatesEnable v (if v = 0 then dropTemplates (fun _ => true) s else s))

/-- TEMPLATES_ENABLE. -/
def execTemplatesEnable (v : Byte) (s : State) : Res := answer (wTemplatesEnable v.toNat s)

/-- TEMPLATE_SLOTS: written while templates are disabled. -/
def wTemplateSlots (v : Nat) (s : State) : Written :=
  if rdB s kPlTemplatesEnable then refusedW .state s
  else if v = 0 ∨ 4 < v then refusedW .range s
  else accepted (wr kPlTemplateSlots v s)

/-- TEMPLATE_SLOTS. -/
def execTemplateSlots (v : Byte) (s : State) : Res := answer (wTemplateSlots v.toNat s)

end Sys2Proof.Machine
end

