-- ==== Sys2Proof/Machine/HostReads.lean ====
section
/-!
DEFINITION. Reads of host memory and translations (R613, R615, R631, R635): requests, tags, completions and their failures.
-/
namespace Sys2Proof.Machine

/-- The read operation of a use. -/
def readOp (s : State) (u : ReadUse) : Option ReadOp := s.host.reads.find? fun o => o.use == u
/-- A read operation changed. -/
def modRead (u : ReadUse) (f : ReadOp → ReadOp) (s : State) : State :=
  { s with host := { s.host with reads := updFirst (fun o => o.use == u) f s.host.reads } }
/-- A read operation is over and leaves. -/
def dropRead (u : ReadUse) (s : State) : State :=
  { s with host := { s.host with reads := s.host.reads.filter fun o => o.use != u } }
/-- A request of the operation is outstanding. -/
def outstanding (s : State) (u : ReadUse) : Bool := s.host.tags.any fun e => e.use == u && !e.fenced
/-- The operation has all its data, or has failed. -/
def ReadOp.isOver (o : ReadOp) : Bool := o.left == 0 || o.failed.isSome

/-- Bytes of the next request: the lesser of Max_Read_Request_Size and 512, never across 4 KiB (R613). -/
def requestLen (s : State) (o : ReadOp) : Nat :=
  min o.left (min (min (max 1 (fnOf s o.fn).mrrs) 512) (4096 - o.addr % 4096))

/-- The next request of an operation is sent when its function may send, a tag is free and its page is translated. -/
def pumpRead (u : ReadUse) (s : State) : State :=
  match readOp s u with
  | none => s
  | some o =>
    if o.isOver || outstanding s u || !maySend s o.fn then s
    else match translated s o.fn o.addr, freeTag s o.fn with
      | none, _ => askTranslation o.fn (o.addr / 4096) s
      | some _, none => s
      | some a, some x =>
        let e : TagEnt := { fn := o.fn, tag := x, use := u, len := requestLen s o, issued := now s, addr := o.addr }
        send (.hostRead o.fn a e.len x)
          (touchTranslation o.fn (o.addr / 4096) { s with host := { s.host with tags := s.host.tags ++ [e] } })

/-- Every operation that waits for a tag or a translation tries again. -/
def pumpReads (s : State) : State := each (s.host.reads.map (·.use)) (fun u t => pumpRead u t) s

/-- A read of host memory starts. -/
def startRead (f : Nat) (u : ReadUse) (addr len : Nat) (s : State) : State :=
  pumpRead u { s with host := { s.host with reads := s.host.reads ++ [{ fn := f, use := u, addr := addr, left := len }] } }

/-- Items of a function that waited for translations leave in order as far as they can (R635). -/
def flushWaits (f : Nat) (s : State) : State :=
  let mine := s.host.waits.filter fun w => w.1 == f
  each mine (fun w t => passItem f w.2 t) { s with host := { s.host with waits := s.host.waits.filter fun w => w.1 != f } }

/-- The graph that a use serves. -/
def ReadUse.graph : ReadUse → Option Nat
  | .graphFetch g _ => some g
  | .job g _ _ => some g
  | .xfer _ g _ => some g
  | _ => none

/-- In CXL mode, lines read for a function whose ATS is enabled are held Shared (R615). -/
def holdLines (o : ReadOp) (n : Nat) (s : State) : State :=
  match o.use with
  | .job g _ _ =>
    if rdB s kHoCxlActive && (fnOf s o.fn).ats then
      let l := (List.range (ceilDiv (o.addr % 64 + n) 64)).map fun i => ((o.addr / 64 + i) * 64, g)
      { s with host := { s.host with lines := (s.host.lines ++ l).eraseDups } }
    else s
  | _ => s

/-- Data of a request arrived: the operation goes on. -/
def readArrived (e : TagEnt) (data : List Byte) (s : State) : State :=
  match readOp s e.use with
  | none => s
  | some o =>
    let s1 := holdLines o e.len s
    modRead e.use (fun o => { o with data := o.data ++ padTo e.len data, addr := o.addr + e.len, left := o.left - e.len }) s1

/-- A request failed: the operation ends with that failure. -/
def readFailed (e : TagEnt) (x : ReadFail) (s : State) : State := modRead e.use (fun o => { o with failed := some x }) s

/-- The HOST_STATS counter of a failure. -/
def failStat (x : ReadFail) : Nat :=
  match x with
  | .timeout => 0
  | .unsupported => 1
  | .abort => 2
  | .poisoned => 3
  | .denied => 1

/-- A tag is free again. -/
def freeTagEnt (e : TagEnt) (s : State) : State := { s with host := { s.host with tags := s.host.tags.filter (· != e) } }

/-- The tag entry of a function's tag. -/
def tagEnt (s : State) (f x : Nat) : Option TagEnt := s.host.tags.find? fun e => e.fn == f && e.tag == x

/-- Is a page in a run of pages? -/
def inPages (page first n : Nat) : Bool := first ≤ page && page < first + n

/-- Invalidations whose requests are over are answered (R635): those in flight that were translated with the entries removed. -/
def answerInvalidations (s : State) : State :=
  each s.host.invalidating (fun i t =>
    if t.host.tags.any fun e => e.fn == i.1 && inPages (e.addr / 4096) i.2.1 i.2.2 then t
    else send (.invalidateDone i.1 i.2.1) { t with host := { t.host with invalidating := t.host.invalidating.filter (· != i) } }) s

end Sys2Proof.Machine
end

