-- ==== Sys2Proof/Machine/Submit.lean ====
section
/-!
DEFINITION. Submission: doorbells, fetch of entries, the three entry kinds, fetch and validation of graphs (02_slot_graphs.md, R84,
R85, R624 to R629).
-/
namespace Sys2Proof.Machine

/-! ### Doorbells (R621, R626) -/

/-- A refused or failed register access of function `f` (Table 18-5): held in AE_LOG, counted in AE_COUNT. -/
def aeNote (f : Nat) (bar2 write refusedState : Bool) (ofs be : Nat) (s : State) : State :=
  modFn f (fun r => { r with
    aeLog := if bitAt r.aeLog 31 then setFld r.aeLog 30 1 1
      else pack [(0, 16, ofs), (17, 1, b2n refusedState), (18, 1, b2n bar2), (19, 1, b2n write), (20, 4, be), (31, 1, 1)],
    aeCount := satAdd 32 r.aeCount 1 }) s

/-- The byte enables of a dword are contiguous. -/
def contiguous (be : Nat) : Bool := [0, 1, 2, 4, 8, 3, 6, 12, 7, 14, 15].contains be

/-- A one-dword access whose byte enables are not contiguous: Completer Abort, and an entry in the access-error log (R621). -/
def badAccess (f : Nat) (bar2 write : Bool) (ofs be : Nat) (s : State) : State :=
  send (.completerAbort f) (accessError 0 f (if bar2 then 2 else 0) ofs (aeNote f bar2 write false ofs be s))

/-- A held dword with the enabled bytes of `v` (R621). -/
def mergeBytes (be old v : Nat) : Nat :=
  (List.range 4).foldl (fun x i => if bitAt be i then setFld x (8 * i) 8 (fld v (8 * i) 8) else x) old

/-- Held entries are written while the queue has room; one that empties its store ends a stall (R158). -/
def drainHeld (f n : Nat) : Nat → State → State
  | 0, s => s
  | fuel + 1, s =>
    let q := qpOf s f n
    match q.held with
    | [] => if q.cqStall && !cqFull q then setQp f n { q with cqStall := false } s else s
    | e :: r =>
      if cqFull q || !maySend s f then s
      else drainHeld f n fuel (cqAppend f n e (setQp f n { q with held := r } s))

/-- Room came back on a queue: held entries go first, then the releases and graphs that waited (R154, R158). -/
def queueRoomBack (f n : Nat) (s : State) : State :=
  let s1 := drainHeld f n ((qpOf s f n).held.length + 1) s
  qpSettle f n (settle f s1)

/-- A write of SQ_TAIL (R626): entries become visible with one T_arr, or the queue enters ERROR. -/
def sqTail (f n idx : Nat) (s : State) : State :=
  let q := qpOf s f n
  if q.state ≠ .enabled then s
  else if sqSize q ≤ idx then setQp f n { q with state := .error, cause := 2 } s
  else
    let count := (idx + sqSize q - q.sqTail) % sqSize q
    let fresh := (List.range count).map fun i => ((q.sqTail + i) % sqSize q, now s)
    setQp f n { q with sqTail := idx, visible := q.visible ++ fresh } s

/-- A write of CQ_HEAD (R626): entries are freed. An index out of range puts an ENABLED queue in ERROR; in DRAINING and QUIESCED it
is not accepted and the state stays, because Table 18-9 has no such move (log 22). -/
def cqHead (f n idx : Nat) (s : State) : State :=
  let q := qpOf s f n
  match q.state with
  | .disabled => s
  | st =>
    if cqSize q ≤ idx then
      if st = .enabled ∨ st = .error then setQp f n { q with state := .error, cause := 3 } s else s
    else queueRoomBack f n (setQp f n { q with cqHead := idx } s)

/-- SQ_TAIL: a write of the doorbell with its byte enables. -/
def execSqTail (fn : TenantId) (qp : QpId) (be : BitVec 4) (v : Word) (s : State) : Res :=
  if !contiguous be.toNat then done (badAccess fn.val true true (0x1000 * qp.val) be.toNat s)
  else done (sqTail fn.val qp.val (mergeBytes be.toNat (qpOf s fn.val qp.val).sqTail v.toNat % 65536) s)

/-- CQ_HEAD: a write of the doorbell with its byte enables. -/
def execCqHead (fn : TenantId) (qp : QpId) (be : BitVec 4) (v : Word) (s : State) : Res :=
  if !contiguous be.toNat then done (badAccess fn.val true true (0x1000 * qp.val + 4) be.toNat s)
  else done (cqHead fn.val qp.val (mergeBytes be.toNat (qpOf s fn.val qp.val).cqHead v.toNat % 65536) s)

/-! ### Fetch of entries (R85, R627) -/

/-- Home placement unit of a CI; decided at the first fetch of a graph when no AxC decided it (R84). -/
def homeOfCi (s : State) (ci : Nat) : Nat := tget s.work.ciHome ci (ci % 4)

/-- SUBMISSION_FETCH: the next visible entry of a queue is read, one at a time in index order. -/
def execSubmissionFetch (fn : TenantId) (qp : QpId) (s : State) : Res :=
  let q := qpOf s fn.val qp.val
  match q.visible, q.fetching with
  | (i, t) :: r, none =>
    whenDue (q.state != .disabled && q.state != .quiesced && maySend s fn.val)
      (fun s => startRead fn.val (.submission fn.val qp.val i) (q.sqBase + 64 * i) 64
        (setQp fn.val qp.val { q with visible := r, fetching := some (i, t), sqHead := (i + 1) % sqSize q } s)) s
  | _, _ => done s

/-- The entry a queue has read: its T_arr, and the entry or none for a failed read. -/
def fetchedEntry (s : State) (f n : Nat) : Option (Nat × Option Nat) :=
  match (qpOf s f n).fetching with
  | none => none
  | some (i, t) => match readOp s (.submission f n i) with
    | some o => if o.failed.isSome then some (t, none) else if o.left = 0 then some (t, some (ofBytes o.data)) else none
    | none => none

/-- The entry leaves the fetch stage and counts as fetched. -/
def takeEntry (f n : Nat) (s : State) : State :=
  let q := qpOf s f n
  match q.fetching with
  | none => s
  | some (i, _) =>
    setQp f n { q with fetching := none, submitted := wrapAdd 64 q.submitted 1 } (dropRead (.submission f n i) s)

/-- The entry is completed at once: its completion is written and the fetch stage is free (R47, R165, R166). -/
def completeEntry (f n code detail kind e : Nat) (s : State) : State :=
  qpSettle f n (cqPut f n (refusalEntry code detail 0xFFFF kind n (eSubTag e) (eCi e) 0) (takeEntry f n s))

/-- The queue drains: its entries are completed CANCELLED (Table 18-9). -/
def qpDraining (s : State) (f n : Nat) : Bool := (qpOf s f n).state == .draining

/-- A refused SUBMIT counts as a graph refused. -/
def refuseSubmit (f n detail e : Nat) (s : State) : State :=
  bump (kTeGraphsRefused f) (completeEntry f n 0x07 detail 1 e s)

/-- A graph enters CHECKING at its CI's home and its header is read (R84, R85). -/
def startGraph (f n tArr e : Nat) (s : State) : State :=
  let ci := eCi e
  let pu := homeOfCi s ci
  let g : Graph :=
    { id := s.work.nextGraph, tenant := f, ci := ci, st := .checking, qp := n, subTag := eSubTag e, validateOnly := bitAt e 8,
      tArr := tArr, air := eAir e, addr := eAddr e, pu := pu }
  let w := { s.work with graphs := s.work.graphs ++ [g], nextGraph := s.work.nextGraph + 1, ciHome := tset ci pu s.work.ciHome }
  startRead f (.graphFetch g.id 0) g.addr 64 { s with work := w }

/-- SUBMIT: the entry read from a queue is a SUBMIT, or of no kind, or its read failed. It waits in QUEUED while its home unit is
full. -/
def execSubmit (fn : TenantId) (qp : QpId) (s : State) : Res :=
  match fetchedEntry s fn.val qp.val with
  | none => done s
  | some (_, none) => done (refuseSubmit fn.val qp.val 0x05 0 s)
  | some (t, some e) =>
    if eKind e = 2 ∨ eKind e = 3 then done s
    else if qpDraining s fn.val qp.val then done (completeEntry fn.val qp.val 0x0B 0 1 e s)
    else match checkEntry s fn.val e with
      | some c => done (refuseSubmit fn.val qp.val c e s)
      | none => whenDue (puRoom s (homeOfCi s (eCi e))) (fun s => startGraph fn.val qp.val t e (takeEntry fn.val qp.val s)) s

/-! ### CANCEL and RELEASE_CARRY (R48, R78, R80, R166) -/

/-- A graph of the tenant with this CI and AIR_START that is in CHECKING, PLACED or RUNNING. -/
def cancelTarget (s : State) (t ci air : Nat) : Option Graph :=
  s.work.graphs.find? fun g => g.tenant == t && g.ci == ci && g.air == air && (g.st == .checking || g.st == .placed || g.st == .running)

/-- Acknowledgements owed are written once no job of the cancelled graph runs (R166). -/
def ackCancels (gid : Nat) (s : State) : State :=
  match graphOf s gid with
  | none => s
  | some g =>
    if g.cancelled && !s.work.units.any (fun u => match u.2.cur with
        | some r => r.gid == gid
        | none => false) then
      ackRest g (modGraph gid (fun x => { x with cancels := [] }) s)
    else s

/-- CANCEL: the entry read from a queue is a CANCEL. -/
def execCancel (fn : TenantId) (qp : QpId) (s : State) : Res :=
  match fetchedEntry s fn.val qp.val with
  | some (_, some e) =>
    if eKind e ≠ 2 then done s
    else if qpDraining s fn.val qp.val then done (completeEntry fn.val qp.val 0x0B 0 2 e s)
    else match checkEntry s fn.val e with
      | some c => done (completeEntry fn.val qp.val 0x07 c 2 e s)
      | none => match cancelTarget s fn.val (eCi e) (eAir e) with
        | none => done (completeEntry fn.val qp.val 0x07 0x3F 2 e s)
        | some g =>
          let s1 := modGraph g.id (fun x => { x with cancels := x.cancels ++ [{ qp := qp.val, tag := eSubTag e }] }) (takeEntry fn.val qp.val s)
          if g.st = .checking then done s1
          else done (qpSettle fn.val qp.val (ackCancels g.id (if g.cancelled then s1 else cancelGraph g.id s1)))
  | _ => done s

/-- RELEASE_CARRY: the entry read from a queue is a RELEASE_CARRY. -/
def execReleaseCarry (fn : TenantId) (qp : QpId) (s : State) : Res :=
  match fetchedEntry s fn.val qp.val with
  | some (_, some e) =>
    if eKind e ≠ 3 then done s
    else if qpDraining s fn.val qp.val then done (completeEntry fn.val qp.val 0x0B 0 3 e s)
    else match checkEntry s fn.val e with
      | some c => done (completeEntry fn.val qp.val 0x07 c 3 e s)
      | none =>
        let key := fld e 64 32
        match carryFind s fn.val (eCi e) key with
        | none => done (completeEntry fn.val qp.val 0x07 0x3F 3 e s)
        | some _ =>
          let mine := fun (c : Carry) => c.ci == eCi e && c.tenant == fn.val && c.key == key && !c.released
          let l := updFirst mine (fun c => { c with released := true }) s.work.carries
          done (completeEntry fn.val qp.val 0 0 3 e (freeCarries { s with work := { s.work with carries := l } }))
  | _ => done s

/-! ### Fetch and validation of a graph (R81, R82, R94, R288) -/

/-- Reads of a graph leave the link. -/
def dropGraphReads (gid : Nat) (s : State) : State :=
  { s with host := { s.host with reads := s.host.reads.filter fun o => o.use.graph != some gid } }

/-- A graph fails validation: its completion entry, and nothing else (R82). -/
def refuseGraph (g : Graph) (code subject : Nat) (s : State) : State :=
  finishGraph g (refusalEntry 0x07 code subject 1 g.qp g.subTag g.ci g.tag) (bump (kTeGraphsRefused g.tenant) (dropGraphReads g.id s))

/-- The data of a part of a fetch: none while it is under way; `some none` when it failed. -/
def fetchPart (s : State) (gid part : Nat) : Option (Option (List Byte)) :=
  match readOp s (.graphFetch gid part) with
  | none => none
  | some o => if o.failed.isSome then some none else if o.left = 0 then some (some o.data) else none

/-- Buffers read whole at the fetch: HOST_IN ones that only PARAM_BUF names (R94). -/
def paramOnly (jobs : List JobD) (bufs : List BufD) : List Nat :=
  (upto bufs.length).filter fun b =>
    (bufs.getD b {}).kind == 1 && jobs.any (fun d => d.paramValid && d.paramBuf == b) && !jobs.any fun d => d.refs.any fun r => r.2.2 == b
/-- Jobs whose block is read by itself: engine jobs with a block in another HOST_IN buffer (R288). -/
def blockJobs (jobs : List JobD) (bufs : List BufD) : List Nat :=
  (upto jobs.length).filter fun j =>
    let d := jobs.getD j {}
    (opClass d.op).isSome && d.paramValid && (bufs.getD d.paramBuf {}).kind == 1 && !(paramOnly jobs bufs).contains d.paramBuf
/-- The part that reads a whole buffer. -/
def bufPart (b : Nat) : Nat := 8192 + b

/-- Header and arrays have come: the graph's fields are known. -/
def fillGraph (g : Graph) (h : Nat) (jobs : List JobD) (bufs : List BufD) : Graph :=
  { g with discardLate := bitAt h 8, noTemplate := bitAt h 9, autoCancel := bitAt h 10, dlOfs := fld h 128 32, slot := fld h 176 7,
           tag := fld h 320 32, jobs := jobs, bufs := bufs }

/-- Blocks and whole buffers as read: the blocks by job, the buffers, the jobs whose block could not be read. -/
def gatherBlocks (s : State) (g : Graph) : Table Nat × Table (List Byte) × List Nat :=
  let whole := (paramOnly g.jobs g.bufs).filterMap fun b => match fetchPart s g.id (bufPart b) with
    | some (some l) => some (b, l)
    | _ => none
  let jobBlock := fun (j : Nat) =>
    let d := g.jobs.getD j {}
    match tfind d.paramBuf whole with
    | some l => some (fieldAt l d.paramOfs d.paramLen)
    | none => match fetchPart s g.id (3 + j) with
      | some (some l) => some (ofBytes l)
      | _ => none
  let js := (upto g.jobs.length).filter fun j =>
    let d := g.jobs.getD j {}
    d.paramValid && (g.bufs.getD d.paramBuf {}).kind == 1 && ((opClass d.op).isSome || (paramOnly g.jobs g.bufs).contains d.paramBuf)
  (js.filterMap fun j => if (opClass (g.jobs.getD j {}).op).isSome then (jobBlock j).map fun b => (j, b) else none,
   whole, js.filter fun j => (jobBlock j).isNone)

/-- Every read of the graph is over. -/
def graphReadsOver (s : State) (gid : Nat) : Bool :=
  s.host.reads.all fun o => o.use.graph != some gid || o.isOver

/-- Blocks have come: they are checked, and the graph may be placed. -/
def blocksDone (g : Graph) (s : State) : State :=
  let r := gatherBlocks s g
  match checkBlocks s g g.jobs g.bufs r.1 with
  | some e => refuseGraph g e.1 e.2 s
  | none => dropGraphReads g.id (modGraph g.id (fun x => { x with blocks := r.1, params := r.2.1, badJobs := r.2.2, ready := true }) s)

/-- The arrays have come: stages 5 to 7, then the reads of blocks. -/
def arraysDone (g : Graph) (h : Nat) (jl bl : List Byte) (s : State) : State :=
  let jw := elements 64 jl (hNJobs h)
  let bw := elements 32 bl (hNBufs h)
  let jobs := jw.map jobOf
  let bufs := bw.map bufOf
  match checkArrays s g h jw bw with
  | some e => refuseGraph { g with tag := fld h 320 32 } e.1 e.2 s
  | none =>
    let g1 := fillGraph g h jobs bufs
    let s1 := modGraph g.id (fun _ => g1) (dropGraphReads g.id s)
    let s2 := each (paramOnly jobs bufs) (fun b x => startRead g.tenant (.graphFetch g.id (bufPart b)) (bufs.getD b {}).host (bufs.getD b {}).size x) s1
    let s3 := each (blockJobs jobs bufs) (fun j x =>
      let d := jobs.getD j {}
      startRead g.tenant (.graphFetch g.id (3 + j)) ((bufs.getD d.paramBuf {}).host + d.paramOfs) d.paramLen x) s2
    if graphReadsOver s3 g.id then blocksDone g1 s3 else s3

/-- The header has come: stage 3, then the reads of the arrays. -/
def headerDone (g : Graph) (h : Nat) (s : State) : State :=
  match checkHeader s g h with
  | some c => refuseGraph { g with tag := fld h 320 32 } c 0xFFFF s
  | none =>
    let s1 := startRead g.tenant (.graphFetch g.id 1) (fld h 192 64) (64 * hNJobs h) s
    if hNBufs h = 0 then s1 else startRead g.tenant (.graphFetch g.id 2) (fld h 256 64) (32 * hNBufs h) s1

/-- GRAPH_FETCH_DONE: what a graph's fetch has read is taken in, as far as it has come: the header, the arrays, the blocks. -/
def execGraphFetchDone (gid : Nat) (s : State) : Res :=
  match graphOf s gid with
  | none => done s
  | some g =>
    if g.st ≠ .checking ∨ g.ready then done s
    else if !g.jobs.isEmpty then whenDue (graphReadsOver s gid) (blocksDone g) s
    else match fetchPart s gid 0, readOp s (.graphFetch gid 1) with
      | none, _ => done s
      | some none, _ => done (refuseGraph g 0x05 0xFFFF s)
      | some (some hl), none => done (headerDone g (ofBytes hl) s)
      | some (some hl), some _ =>
        let h := ofBytes hl
        let bl := if hNBufs h = 0 then some (some []) else fetchPart s gid 2
        match fetchPart s gid 1, bl with
        | some none, _ => done (refuseGraph { g with tag := fld h 320 32 } 0x05 0xFFFF s)
        | _, some none => done (refuseGraph { g with tag := fld h 320 32 } 0x05 0xFFFF s)
        | some (some j), some (some b) => done (arraysDone g h j b s)
        | _, _ => done s

end Sys2Proof.Machine
end

