-- ==== Sys2Proof/Machine/Jobs.lean ====
section
/-!
DEFINITION. Running jobs (04_dispatch_and_ordering.md): dispatch, chunks, copies, cancels, completion messages, levels, job-ID
quarantine, the watchdog, and the accounting window (R182).
-/
namespace Sys2Proof.Machine

/-! ### Buffers of a job -/

/-- Buffer `b` of a graph. -/
def bufD (g : Graph) (b : Nat) : BufD := g.bufs.getD b {}
/-- Where a job finds a buffer in device memory: its transient area, or the home; none in the host (T4). -/
def refAddr (g : Graph) (r : JobRt) (b : Nat) : Option Nat :=
  match r.p.areas.find? fun a => a.1 == b with
  | some a => some a.2
  | none => match tfind b g.homes with
    | some h => if h.tier = 4 then none else some h.addr
    | none => none

/-- Bytes of a buffer as a job reads them, and whether they hold poison. In T4 they are what the job's read brought, bad where it failed. -/
def readBuf (s : State) (g : Graph) (r : JobRt) (b ofs n : Nat) : List Byte × Bool :=
  match refAddr g r b with
  | some a => (load s (a + ofs) n, rangePoisoned s (a + ofs) n)
  | none =>
    let o := readOp s (.job g.id r.p.num b)
    (padTo n (slice ((o.map (·.data)).getD []) ofs n), (o.bind (·.failed)).isSome)

/-- A buffer that several jobs write as an output (R62). -/
def manyWriters (g : Graph) (b : Nat) : Bool := 1 < (refsIn g.jobs 1 b).length
/-- What a job writes in a transient area of a buffer with other producers is noted: only that goes back to the home (R62). -/
def noteWrite (g : Graph) (r : JobRt) (a n : Nat) (s : State) : State :=
  if r.p.areas.any fun x => manyWriters g x.1 && x.2 ≤ a && a < x.2 + (bufD g x.1).size then
    modRt g.id r.p.num (fun r =>
      if r.written.any fun w => w.1 ≤ a && a + n ≤ w.1 + w.2 then r else { r with written := r.written ++ [(a, n)] }) s
  else s

/-- A job writes bytes of a buffer; in T4 they go to the host, as posted writes of its function. -/
def writeBuf (g : Graph) (r : JobRt) (b ofs : Nat) (l : List Byte) (s : State) : State :=
  match refAddr g r b with
  | some a => memStore (a + ofs) l (noteWrite g r (a + ofs) l.length s)
  | none => hostWriteFor (some (g.id, r.p.num)) g.tenant ((bufD g b).host + ofs) l s

/-- Output bytes of a job that read poison are poison where they stand in device memory (R106). -/
def poisonBuf (g : Graph) (r : JobRt) (b ofs n : Nat) (s : State) : State :=
  match refAddr g r b with
  | some a => poisonRange (a + ofs) n s
  | none => s

/-- A buffer's home is made fit for its graph's first use of it. -/
def clearBuf (gid b : Nat) (s : State) : State :=
  match graphOf s gid with
  | none => s
  | some g =>
    let d := bufD g b
    match tfind b g.homes with
    | none => s
    | some h =>
      if h.tier = 4 ∨ d.kind = 5 ∨ g.cleared.contains b then s
      else takeSpace g.tenant d.zero h.addr d.size (modGraph gid (fun g => { g with cleared := b :: g.cleared }) s)

/-- Buffers and areas made fit before the first dispatch that uses them: an area that a copy fills, before that copy (R104, R198). -/
def clearFor (g : Graph) (r : JobRt) (s : State) : State :=
  match r.p.copy with
  | some d =>
    let s1 := clearBuf g.id d.buf s
    if d.kind = .into then takeSpace g.tenant false d.dst d.len s1 else s1
  | none =>
    let filled := fun (b : Nat) => g.rts.any fun x => match x.p.copy with
      | some d => d.kind == .into && d.job == r.p.num && d.buf == b
      | none => false
    let s1 := each ((g.jobs.getD r.p.num {}).refs.map (·.2.2)) (fun b x => clearBuf g.id b x) s
    each (r.p.areas.filter fun a => !filled a.1) (fun a x => takeSpace g.tenant false a.2 (bufD g a.1).size x) s1

/-- Host reads a job needs before its work: a copy whose source is host memory, inputs of an engine job that stand in T4. -/
def startJobReads (g : Graph) (r : JobRt) (s : State) : State :=
  match r.p.copy with
  | some d => if hostBase ≤ d.src then startRead g.tenant (.job g.id r.p.num d.buf) (d.src - hostBase) d.len s else s
  | none =>
    let onEngine := r.p.shares.all fun h => isEngine h.unit
    if !onEngine then s
    else each ((g.jobs.getD r.p.num {}).refs.filter fun x => x.2.1 != 1 && (refAddr g r x.2.2).isNone)
      (fun x y => startRead g.tenant (.job g.id r.p.num x.2.2) (bufD g x.2.2).host (bufD g x.2.2).size y) s

/-- The reads of a job: over, and one failed. -/
def jobReadsOver (s : State) (gid num : Nat) : Bool :=
  s.host.reads.all fun o => match o.use with
    | .job g n _ => g != gid || n != num || o.isOver
    | _ => true
def jobReadFailed (s : State) (gid num : Nat) : Bool :=
  s.host.reads.any fun o => match o.use with
    | .job g n _ => g == gid && n == num && o.failed.isSome
    | _ => false
/-- The reads of a job leave. -/
def dropJobReads (gid num : Nat) (s : State) : State :=
  { s with host := { s.host with reads := s.host.reads.filter fun o => match o.use with
    | .job g n _ => g != gid || n != num
    | _ => true } }
/-- Every write of the job was accepted by the posted-write queue (R157). -/
def jobWritesOver (s : State) (gid num : Nat) : Bool :=
  s.host.waits.all fun w => match w.2 with
    | .write _ _ o => o != some (gid, num)
    | .msix _ => true

/-! ### Selection and dispatch (R127, R145, R146) -/

/-- Entry `a` comes before entry `b` (R145). -/
def entryBefore (a b : ReadyE) : Bool := Pl.keyLess [a.level, a.time, a.seq, a.pos, a.share] [b.level, b.time, b.seq, b.pos, b.share]
/-- The job keeps a context record between its chunks: PRACH extraction, channel estimation (R322). -/
def keepsRecord (s : State) (gid num : Nat) : Bool :=
  match graphOf s gid with
  | some g => num < 4096 && ((g.jobs.getD num {}).op == 0x048 || (g.jobs.getD num {}).op == 0x050)
  | none => false
/-- While all 16 records of an engine are held, it takes only shares it has started and other opcodes (R322). -/
def recordOk (s : State) (e : ReadyE) : Bool :=
  let l := (unitSt s e.unit).records
  l.length < 16 || l.contains (e.gid, e.num, e.share) || !keepsRecord s e.gid e.num
/-- A core's resident set changed or was found damaged, and is to be loaded at its next job boundary (R206). -/
def needsLoad (s : State) (u : Nat) : Bool := isCore u && ((unitSt s u).reload || s.sage.reload.contains u)
/-- The entry a unit takes next; a core that is to load its images only resumes what it holds. -/
def bestEntry (s : State) (u : Nat) : Option ReadyE :=
  (s.work.ready.filter fun e => e.unit == u && recordOk s e &&
    (!needsLoad s u || (unitSt s u).ctx.any fun r => r.gid == e.gid && r.num == e.num)).foldl (fun m e => match m with
    | none => some e
    | some x => if entryBefore e x then some e else some x) none

/-- The unit that does not execute a message about a share: its own unit, or for a copy a core whose T0 it reaches. Its epoch differs from
the one stamped, or it is fenced (R125, R127). -/
def staleUnit (s : State) (r : JobRt) (k : Nat) : Option Nat :=
  let units := r.p.shares.map (·.unit) ++ copyCores s r.p
  ((upto units.length).find? fun i =>
    (i == k || r.p.shares.length ≤ i) && (epochOf s (units.getD i 0) != r.epochs.getD i 0 || (unitSt s (units.getD i 0)).fenced)).map (units.getD · 0)

/-- A ROLE_STALE message is counted at its unit. -/
def countStale (u : Nat) (s : State) : State :=
  if isCore u then bumpBy 32 (kPlSageStale u) 1 s else if isEngine u then bumpBy 32 (kPlEngineStale (u - 108)) 1 s else s

/-- The chunk, segment or job that starts on a unit. -/
def runOf (s : State) (g : Graph) (r : JobRt) (e : ReadyE) : Run :=
  let h := r.p.shares.getD e.share { unit := e.unit }
  let made := r.progress.getD e.share 0
  let n := if isEngine e.unit then min (h.n - made) (Pl.chunkSize { s := s, g := g, t0 := 0 } r.p.num e.unit (h.first + made) (h.n - made))
    else h.n
  { gid := g.id, num := r.p.num, share := e.share, first := h.first + made, n := n, since := now s, level := e.level,
    tenant := g.tenant, ci := g.ci, id := r.id.getD 0, epoch := r.epochs.getD e.share 0 }

/-- A preempted job of a core starts again from its context. -/
def resumed (s : State) (u : Nat) (e : ReadyE) : Option Run := (unitSt s u).ctx.find? fun r => r.gid == e.gid && r.num == e.num

/-- The dispatch message starts the job or chunk. -/
def startRun (g : Graph) (r : JobRt) (e : ReadyE) (s : State) : State :=
  let run := match resumed s e.unit e with
    | some x => { x with since := now s, level := e.level }
    | none => runOf s g r e
  let overtaken := isEngine e.unit && s.work.ready.any fun x => x.unit == e.unit &&
    (((jobRt s x.gid x.num).map fun y => y.progress.getD x.share 0).getD 0) != 0
  let s1 := if r.ran then s else startJobReads g r (clearFor g r s)
  let s2 := modRt g.id r.p.num (fun r => { r with st := .running, ran := true }) s1
  let s3 := modGraph g.id (fun g => { g with st := .running }) s2
  let rec_ := (e.gid, e.num, e.share)
  let records := fun (l : List (Nat × Nat × Nat)) => if keepsRecord s e.gid e.num && !l.contains rec_ then l ++ [rec_] else l
  let s4 := modUnit e.unit (fun m => { m with cur := some run, records := records m.records, ctx := m.ctx.filter fun x => !(x.gid == e.gid && x.num == e.num) }) s3
  bump (kDiDispatchStats 0) (if overtaken then bump (kDiDispatchStats 5) s4 else s4)

/-- JOB_DISPATCH: an idle unit takes its next entry; an epoch that changed returns it as ROLE_STALE. -/
def execJobDispatch (u : Fin 240) (s : State) : Res :=
  let m := unitSt s u.val
  if m.cur.isSome || m.fenced || (m.nextRole.isSome && roleDue s u.val) then done s
  else match bestEntry s u.val with
    | none => done s
    | some e =>
      let s1 := { s with work := { s.work with ready := s.work.ready.filter (· != e) } }
      match graphOf s1 e.gid, jobRt s1 e.gid e.num with
      | some g, some r =>
        match staleUnit s r e.share with
        | none => done (startRun g r e s1)
        | some x => done (concludeJob e.gid e.num 3 (countStale x s1))
      | _, _ => done s1

/-! ### The end of a segment -/

/-- A share ends on its unit with an outcome: its completion message is sent, with what its dispatch carried, and the unit is free (R134,
R154, R168). -/
def shareEnd (u code : Nat) (s : State) : State :=
  match (unitSt s u).cur with
  | none => s
  | some run =>
    let s1 := segmentEnd u run (modUnit u (fun m => { m with cur := none, records := m.records.filter (· != (run.gid, run.num, run.share)) }) s)
    let msg : Msg := { tenant := run.tenant, ci := run.ci, gid := run.gid, num := run.num, share := run.share, id := run.id, code := code,
                       finish := now s, loc := unitLoc u, epoch := run.epoch }
    ackCancels run.gid { s1 with work := { s1.work with msgs := s1.work.msgs ++ [msg] } }

/-- The job stops with a code: its message is sent once the host link has accepted its writes (R157). -/
def stopShare (u code : Nat) (s : State) : State :=
  match (unitSt s u).cur with
  | none => s
  | some run =>
    if jobWritesOver s run.gid run.num then shareEnd u code s
    else modUnit u (fun m => { m with cur := m.cur.map fun x => { x with ending := some code, worked := true } }) s

/-- Stopped jobs whose writes have all been accepted send their messages. -/
def endStopped (s : State) : State :=
  each (s.work.units.map (·.1)) (fun u x => match (unitSt x u).cur with
    | some run => match run.ending with
      | some c => if jobWritesOver x run.gid run.num then shareEnd u c x else x
      | none => x
    | none => x) s

/-- The code of a job ended by a request: CANCELLED, or ROLE_STALE for a CI taken away. -/
def requestCode (s : State) (gid : Nat) : Nat :=
  match graphOf s gid with
  | some g => if g.cancelled then 0x0B else 0x03
  | none => 0x0B

/-- A chunk or segment of a job that goes on ended on a unit: its finish time and place are the job's latest (R167, R168). -/
def noteFinish (u : Nat) (run : Run) (s : State) : State :=
  modRt run.gid run.num (fun r => { r with finish := max r.finish (now s), loc := unitLoc u }) s
/-- The sending interface of a reservation when `done` of `total` parts of the job are staged: a train starts with ⌈B_r ÷ n_r⌉ bytes
staged, or with every remaining byte, and takes all that is staged (R553). -/
def sendTrain (done total : Nat) (t : Train) : Train :=
  let staged := max t.staged (min t.bytes (t.bytes * done / max 1 total))
  if t.sent < staged ∧ (staged = t.bytes ∨ ceilDiv t.bytes t.quota ≤ staged - t.sent) then
    { t with staged := staged, sent := staged, trains := t.trains + 1 }
  else { t with staged := staged }

/-- Chunks of a share counted, and what they moved on the mesh. -/
def chunkDone (run : Run) (s : State) : State :=
  modRt run.gid run.num (fun r =>
    let made := r.progress.set run.share (r.progress.getD run.share 0 + run.n)
    { r with chunks := r.chunks + 1, progress := made,
             trains := r.trains.map (sendTrain (sumBy made id) (sumBy (r.p.shares.map (·.n)) id)) }) s

/-! ### Late messages (R162) -/

/-- The LATE_MESSAGE event (Table 4-7). -/
def evLate (l : LateSt) : Nat := pack [(0, 8, 2), (16, 16, l.ci), (32, 32, l.count), (64, 64, l.at_), (128, 16, l.id)]

/-- Dropped messages of a tenant are reported, at most once per 1 ms. -/
def flushLate (t : Nat) (s : State) : State :=
  let l := tget s.work.late t {}
  let due := match l.last with
    | some x => x + msToTc 1 ≤ now s
    | none => true
  if l.count == 0 || !due then s
  else fnEvent t (evLate l) { s with work := { s.work with late := tset t { l with count := 0, last := some (now s) } s.work.late } }

/-- A message for a tenant with a job ID that meets a free, quarantined or newer index is dropped and counted. -/
def dropLate (t ci id : Nat) (s : State) : State :=
  let l := tget s.work.late t {}
  let l1 := { l with count := l.count + 1, ci := ci, id := id, at_ := now s }
  flushLate t (bump (kDiDispatchStats 7) { s with work := { s.work with late := tset t l1 s.work.late } })

/-- A message of the use that holds an index in quarantine is accounted for; the last one frees it (R161). -/
def accountId (ci id : Nat) (s : State) : State :=
  let x := idSt s ci (id % 4096)
  if x.quarantine.isSome && x.gen == id / 4096 then
    modId ci (id % 4096) (fun x => { x with outstanding := x.outstanding - 1, quarantine := if x.outstanding ≤ 1 then none else x.quarantine }) s
  else s

/-- The index is in its use by this ID. -/
def idCurrent (s : State) (ci id : Nat) : Bool :=
  let x := idSt s ci (id % 4096)
  x.inUse && x.quarantine.isNone && x.gen == id / 4096

/-- A unit is free of a chunk whose share goes on. -/
def unitFree (u : Nat) (s : State) : State := modUnit u (fun m => { m with cur := none }) s

/-- CHUNK_END: an engine's chunk whose work is done ends; a share with chunks left returns to its list (R150). A chunk end whose job ID is no
longer in its use is dropped (R162). -/
def execChunkEnd (e : EngId) (s : State) : Res :=
  let u := engUnit e.val
  match (unitSt s u).cur with
  | none => done s
  | some run =>
    if !run.worked || !jobWritesOver s run.gid run.num then done s
    else if !idCurrent s run.ci run.id then done (unitFree u (wake (dropLate run.tenant run.ci run.id (accountId run.ci run.id (segmentEnd u run s)))))
    else
      let s1 := chunkDone run s
      match graphOf s1 run.gid, jobRt s1 run.gid run.num with
      | some g, some r =>
        let h := r.p.shares.getD run.share { unit := u }
        if run.cancel then done (shareEnd u (requestCode s run.gid) s1)
        else if (r.code ≠ 0 ∧ r.code ≠ 5) ∨ h.n ≤ r.progress.getD run.share 0 then done (shareEnd u r.code (dropJobReads run.gid run.num s1))
        else
          let s2 := noteFinish u run (unitFree u (segmentEnd u run s1))
          match jobRt s2 run.gid run.num with
          | some r2 => done (returnEntry (entryFor s2 g r2 run.share) s2)
          | none => done s2
      | _, _ => done (unitFree u s1)

/-! ### Copies (R69, R104, R106, R151) -/

/-- The copy a cluster's DMA engine runs. -/
def curCopy (s : State) (u : Nat) : Option (Run × Graph × JobRt × CopyD) :=
  match (unitSt s u).cur with
  | none => none
  | some run => match graphOf s run.gid, jobRt s run.gid run.num with
    | some g, some r => match r.p.copy with
      | some d => some (run, g, r, d)
      | none => none
    | _, _ => none

/-- What a copy back of a buffer with several producers carries: the ranges its job wrote, as offset and bytes; else all of it (R62). -/
def copyParts (s : State) (g : Graph) (d : CopyD) : List (Nat × Nat) :=
  if d.kind = .back ∧ manyWriters g d.buf then
    ((((jobRt s g.id d.job).map (·.written)).getD []).filter fun w => d.src ≤ w.1 && w.1 < d.src + d.len).map fun w => (w.1 - d.src, w.2)
  else [(0, d.len)]

/-- The first `n` bytes of a copy are moved; an end in host memory is read and written over the host link (R106). A copy to the host moves
what stands in the buffer (R68, log 78). -/
def moveCopy (g : Graph) (r : JobRt) (d : CopyD) (n : Nat) (s : State) : State :=
  let data := if hostBase ≤ d.src then padTo d.len (((readOp s (.job g.id r.p.num d.buf)).map (·.data)).getD []) else load s d.src d.len
  each (copyParts s g d) (fun p x =>
    let l := slice data p.1 (min p.2 (n - p.1))
    if l.isEmpty then x
    else if hostBase ≤ d.dst then hostWriteFor (some (g.id, r.p.num)) g.tenant (d.dst - hostBase + p.1) l x
    else memStore (d.dst + p.1) l x) s

/-- A HOST_IN buffer could not be read: its other consumers that have not ended end POISONED_DATA, those that run with their work (R69). -/
def failBuffer (gid b : Nat) (s : State) : State :=
  match graphOf s gid with
  | none => s
  | some g =>
    let l := (upto g.jobs.length).filter fun j => (g.jobs.getD j {}).refs.any fun x => x.2.1 == 0 && x.2.2 == b
    propagate gid (each l (fun j x => match jobRt x gid j with
      | some r =>
        if !r.open_ then x
        else if r.ran then modRt gid j (fun r => { r with code := worseCode 5 r.code }) x
        else endJob gid j 5 x
      | none => x) s)

/-- The outcome of a copy: POISONED_DATA when its host read failed or its source holds poison, which then poisons the destination
and is not sent to the host (log 24). -/
def finishCopy (u : Nat) (g : Graph) (r : JobRt) (d : CopyD) (s : State) : State :=
  let bad := d.src < hostBase && rangePoisoned s d.src d.len
  let failed := jobReadFailed s g.id r.p.num
  let s1 := if failed then failBuffer g.id d.buf s
    else if bad then (if hostBase ≤ d.dst then s else poisonRange d.dst d.len (moveCopy g r d d.len s))
    else moveCopy g r d d.len s
  let code := if failed || bad then 5 else 0
  let s2 := modRt g.id r.p.num (fun r =>
      { r with code := worseCode code r.code, chunks := r.chunks + 1, trains := r.trains.map (sendTrain 1 1) })
    (dropJobReads g.id r.p.num (if bad then demandFault d.src d.len s1 else s1))
  modUnit u (fun m => { m with cur := m.cur.map fun x => { x with worked := true } }) s2

/-- The end of a copy that lies in a hole or a reserved range of device memory. -/
def copyHole (s : State) (d : CopyD) : Option Nat := [d.src, d.dst].find? fun a => a < hostBase && !rangeReachable s a d.len

/-- The copy of a cluster's DMA engine ends once its writes have been accepted (R157). -/
def endCopy (u : Nat) (s : State) : State :=
  match curCopy s u with
  | some (run, _, r, _) => if run.worked && jobWritesOver s run.gid run.num then shareEnd u (run.ending.getD r.code) s else s
  | none => s

/-- COPY: the copy that a DMA engine runs moves its data as one segment, and ends. One that meets a hole moves nothing and ends
INVALID_DESCRIPTOR (Table 1-11). One whose graph has left the device ends too. -/
def execCopy (c : ClusterId) (s : State) : Res :=
  let u := dmaUnit c.val
  match curCopy s u with
  | none => done (shareEnd u 0 s)
  | some (run, g, r, d) =>
    if run.worked then done (endCopy u s)
    else if hostBase ≤ d.src && !jobReadsOver s g.id r.p.num then done s
    else match copyHole s d with
    | some a => done (stopShare u 7 (dropJobReads g.id r.p.num (accessError (unitLoc u) g.tenant 0 a s)))
    | none => done (endCopy u (finishCopy u g r d s))

/-- CANCEL_REQUEST: the request reaches a unit whose job belongs to a stopped graph. A Sage or engine job ends at its next yield or
chunk end; a copy at its next 4 KiB boundary, `blocks` of 4 KiB moved. A request whose epoch does not hold is not executed (R127). -/
def execCancelRequest (u : Fin 240) (blocks : Nat) (s : State) : Res :=
  match (unitSt s u.val).cur with
  | none => done s
  | some run => match graphOf s run.gid with
    | none => done s
    | some g =>
      if (!g.cancelled && !g.stale) || run.ending.isSome then done s
      else match (jobRt s run.gid run.num).bind fun r => staleUnit s r run.share with
      | some x => done (concludeJob run.gid run.num 3 (countStale x s))
      | none => match curCopy s u.val with
        | none =>
          -- An UPDATE job stops between commands (R379).
          let updating := s.radio.commands.any fun c => c.gid == run.gid && c.num == run.num
          let stop := fun (x : Run) => { x with cancel := true, worked := x.worked || updating }
          done (modUnit u.val (fun m => { m with cur := m.cur.map stop }) (dropCommands run.gid run.num s))
        | some (_, g, r, d) =>
          let n := min d.len (4096 * blocks)
          let s1 := if run.worked || (hostBase ≤ d.src && !jobReadsOver s g.id r.p.num) then s else moveCopy g r d n s
          done (stopShare u.val (requestCode s g.id) (dropJobReads g.id r.p.num s1))

/-! ### Completion messages (R154, R162) -/

/-- A message of the current use: when it is the last share's, the job ends with its outcome. -/
def takeMessage (m : Msg) (s : State) : State :=
  let s1 := modRt m.gid m.num (fun r => if r.open_ then
    { r with arrived := m.share :: r.arrived, code := worseCode m.code r.code,
             loc := if r.finish ≤ m.finish then m.loc else r.loc, finish := max r.finish m.finish } else r) s
  match graphOf s1 m.gid, jobRt s1 m.gid m.num with
  | some g, some r =>
    if !r.open_ || r.arrived.length < r.p.shares.length then s1
    else
      let late := ownDeadline g r.p < r.finish
      concludeJob g.id r.p.num (if late then 1 else 0) (modGraph g.id (fun g => { g with finish := max g.finish r.finish }) s1)
  | _, _ => s1

/-- COMPLETION_MESSAGE: message `n` of those on their way reaches its flow's window. -/
def execCompletionMessage (n : Nat) (s : State) : Res :=
  match s.work.msgs[n]? with
  | none => done s
  | some m =>
    let s1 := { s with work := { s.work with msgs := s.work.msgs.eraseIdx n } }
    if idCurrent s m.ci m.id then done (takeMessage m s1)
    else done (wake (dropLate m.tenant m.ci m.id (accountId m.ci m.id s1)))

/-! ### Lists (R138, R143, R144) -/

/-- Held jobs enter their lists in order of ready time while there is room. -/
def releaseHeld : Nat → List ReadyE → State → State
  | 0, _, s => s
  | _, [], s => s
  | fuel + 1, e :: r, s =>
    if listDepth s e.unit < 1024 then
      releaseHeld fuel r { s with work := { s.work with ready := s.work.ready ++ [e], heldReady := s.work.heldReady.filter (· != e) } }
    else releaseHeld fuel r s

/-- HELD_READY_RELEASE: jobs of a quadrant's store, and jobs that wait for an index, enter their lists. -/
def execHeldReadyRelease (q : QuadId) (s : State) : Res :=
  let l := sortBy (fun a b => Pl.keyLess [a.time, a.seq, a.pos] [b.time, b.seq, b.pos] || a == b) (s.work.heldReady.filter fun e => unitQuad e.unit == q.val)
  done (wake (releaseHeld l.length l s))

/-- The level of an entry now. -/
def relevel (s : State) (e : ReadyE) : ReadyE :=
  if e.level = 16 then e
  else match graphOf s e.gid, jobRt s e.gid e.num with
    | some g, some r => { e with level := levelOf s r (unitClass e.unit) (remaining s g r e.share) }
    | _, _ => e

/-- The level of what a unit runs. -/
def relevelRun (s : State) (u : Nat) (r : Run) : Run :=
  match graphOf s r.gid, jobRt s r.gid r.num with
  | some g, some j =>
    let used := { j with used := j.used + tcToNs (now s - r.since) }
    { r with level := if j.p.best then 16 else levelOf s j (unitClass u) (remaining s g used r.share) }
  | _, _ => r

/-- LEVEL_TICK: changed thresholds and biases come into force, and every levelled entry and every running job take the level of their
slack (R143). -/
def execLevelTick (s0 : State) : Res :=
  let thr := (upto 16).map fun l => (l, rd s0 (kDiThr l))
  let bias := (upto 12).map fun c => (c, rd s0 (kDiClassBias c))
  let s := { s0 with work := { s0.work with thr := thr, bias := bias } }
  let us := tmap (fun u m => { m with cur := m.cur.map (relevelRun s u) }) s.work.units
  let s1 := { s with work := { s.work with ready := s.work.ready.map (relevel s), heldReady := s.work.heldReady.map (relevel s), units := us } }
  done (each (s1.work.late.map (·.1)) (fun t x => flushLate t x) s1)

/-! ### Indices and generations (R161) -/

/-- ID_QUARANTINE_EXPIRY: quarantines that reached 2 ms end; a message still outstanding bars the generation for 32 ms. -/
def execIdQuarantineExpiry (s : State) : Res :=
  let isOver := fun (m : IdSt) => match m.quarantine with
    | some t => t + nsToTc (rd s kDiIdQuarantine) ≤ now s
    | none => false
  let step := fun (_ : Nat) (m : IdSt) =>
    if isOver m then
      let bars := if m.outstanding = 0 then m.bars else m.bars ++ [(m.gen, (m.quarantine.getD 0) + nsToTc (rd s kDiIdQuarantine) + msToTc 32)]
      { m with quarantine := none, outstanding := 0, bars := bars }
    else m
  if s.work.ids.any fun e => isOver e.2 then done (wake { s with work := { s.work with ids := tmap step s.work.ids } }) else done s

/-- GENERATION_BAR_EXPIRY: bars of 32 ms that have ended lapse. -/
def execGenerationBarExpiry (s : State) : Res :=
  let step := fun (_ : Nat) (m : IdSt) => { m with bars := m.bars.filter fun b => now s < b.2 }
  if s.work.ids.any fun e => e.2.bars.any fun b => b.2 ≤ now s then done (wake { s with work := { s.work with ids := tmap step s.work.ids } })
  else done s

/-! ### The watchdog (R163, R689) -/

/-- Flows 1 and 2 of Table 20-10: a core or engine is reset, what it ran ends, its other jobs are placed again, and its self-test
is due within 5 ms or 2 ms. -/
def startUnitFlow (u : Nat) (s : State) : State :=
  let flow := if isCore u then 1 else 2
  if inFlow s flow u || !(isCore u || isEngine u) || (unitSt s u).fenced then s
  else
    let due := now s + msToTc (if isCore u then 5 else 2)
    let task := if isCore u then some Task.selftest else none
    let s1 := modUnit u (fun m => { m with task := task, former := roleFn (roleSoon s u) }) (startFlow flow u (unitLoc u) 0 due s)
    replaceUnit u (wantFn u 1 (stopUnit u 0x08 s1))

/-- WATCHDOG: a dispatched job whose time has passed without its completion ends GENERATION_STALE, and its units are reported. It acts once
the 1 µs tick of the expiry is over, so a message that arrives in that tick is taken (R163). -/
def execWatchdog (gid num : Nat) (s : State) : Res :=
  match jobRt s gid num with
  | none => done s
  | some r =>
    if !r.open_ || !r.ran || now s * 25 / 49152 ≤ r.watch * 25 / 49152 then done s
    else
      let us := ((upto r.p.shares.length).filter fun k => !r.arrived.contains k).map fun k => (r.p.shares.getD k { unit := 0 }).unit
      done (each us (fun u x => startUnitFlow u x) (concludeJob gid num 4 (dropJobReads gid num s)))

/-! ### The accounting window (R180, R182) -/

/-- Debt of a tenant and kind at the end of the present window, in ns or tokens: at most what was used beyond charges, and what takes
the window over the budget. -/
def debtOf (s : State) (t r : Nat) : Nat :=
  let w := s.work.window
  min (tget s.work.excess (16 * t + r) 0) (chargedIn s w t r + debtIn s w t r - budgetNs s t r)

/-- BUDGET_WINDOW: the window ended; excess is carried as debt into the next, and reported. -/
def execBudgetWindow (s : State) : Res :=
  let w := now s / windowTc
  if w ≤ s.work.window then done s
  else
    let debts := (s.work.excess.map (·.1)).filterMap fun k =>
      let d := debtOf s (k / 16) (k % 16)
      if d = 0 then none else some (k, d)
    let carried := if w = s.work.window + 1 then debts else []
    let s1 := { s with work := { s.work with
      window := w, debt := carried, excess := [], metered := [], charged := s.work.charged.filter fun e => w ≤ e.1 / 8192 } }
    let s2 := each ((debts.map fun e => e.1 / 16).eraseDups) (fun t x => bump (kTeDebtWindows t) x) s1
    let unit := fun (k n : Nat) => if k % 16 ≤ 11 then ceilDiv n 1000 else n
    done (each debts (fun e x =>
      fnEvent (e.1 / 16) (evBudget 0x11 (e.1 % 16 + 1) (e.1 / 16) (budget x (e.1 / 16) (e.1 % 16)) (unit e.1 e.2) ((s.work.window + 1) * windowTc)) x) s2)

/-! ### Engine jobs -/

/-- The chunk an engine runs: present, its host inputs in, its work not yet done. -/
def curChunk (s : State) (e : Nat) (op : Nat) : Option (Run × Graph × JobRt) :=
  match (unitSt s (engUnit e)).cur with
  | none => none
  | some run =>
    if run.worked then none
    else match graphOf s run.gid, jobRt s run.gid run.num with
      | some g, some r =>
        if (g.jobs.getD r.p.num {}).op = op && r.p.copy.isNone && jobReadsOver s g.id r.p.num then some (run, g, r) else none
      | _, _ => none

/-- A job met poison: the first of its on-die inputs that holds any is reported (R522). -/
def inputFault (gid num : Nat) (s : State) : State :=
  match graphOf s gid, jobRt s gid num with
  | some g, some r =>
    let ins := ((g.jobs.getD r.p.num {}).refs.filter fun x => x.2.1 != 1).filterMap fun x =>
      (refAddr g r x.2.2).map fun a => (a, (bufD g x.2.2).size)
    match ins.find? fun x => rangePoisoned s x.1 x.2 && (macroAt s x.1).isSome with
    | some x => demandFault x.1 x.2 s
    | none => s
  | _, _ => s

/-- The buffers in T4 whose reads for a job failed end their other consumers too (R69). -/
def failReads (gid num : Nat) (s : State) : State :=
  each s.host.reads (fun o x => match o.use with
    | .job g n b => if g = gid ∧ n = num ∧ o.failed.isSome then failBuffer gid b x else x
    | _ => x) s

/-- The chunk's work is done, with an error code of the job or 0. -/
def chunkWorked (e code : Nat) (run : Run) (s0 : State) : State :=
  let s := if code = 5 then failReads run.gid run.num (inputFault run.gid run.num s0) else s0
  let s1 := modUnit (engUnit e) (fun m => { m with cur := m.cur.map fun x => { x with worked := true } }) s
  if code = 0 then s1 else modRt run.gid run.num (fun r => { r with code := worseCode code r.code }) s1

/-- Where a job's parameter block stands in device memory: staged in T2 under R94, or in a carry buffer or another home; none for a block that
the fetch read from the host (R288) or that stands in T4. -/
def blockAddr (g : Graph) (r : JobRt) : Option Nat :=
  let d := g.jobs.getD r.p.num {}
  if (tfind r.p.num g.blocks).isSome ∧ (tfind d.paramBuf g.params).isNone then none
  else (refAddr g r d.paramBuf).map (· + d.paramOfs)
/-- The parameter block of a job as its unit reads it: from device memory, or as the fetch read it. -/
def paramBlock (s : State) (g : Graph) (r : JobRt) : Nat :=
  let d := g.jobs.getD r.p.num {}
  match blockAddr g r with
  | some a => ofBytes (load s a d.paramLen)
  | none => match tfind r.p.num g.blocks with
    | some b => b
    | none => fieldAt ((tfind d.paramBuf g.params).getD []) d.paramOfs d.paramLen
/-- The block meets poison where it stands. -/
def blockPoisoned (s : State) (g : Graph) (r : JobRt) : Bool :=
  match blockAddr g r with
  | some a => rangePoisoned s a (g.jobs.getD r.p.num {}).paramLen
  | none => false

/-- The first buffer in device memory of a job that does not lie in reachable memory (Table 1-11). -/
def jobHole (s : State) (g : Graph) (r : JobRt) : Option Nat :=
  (g.jobs.getD r.p.num {}).refs.findSome? fun x => (refAddr g r x.2.2).filter fun a => !rangeReachable s a (bufD g x.2.2).size

/-- A job that met a hole performs no access: it is logged and ends INVALID_DESCRIPTOR. -/
def endHole (e a : Nat) (run : Run) (s : State) : State := chunkWorked e 7 run (accessError (unitLoc (engUnit e)) run.tenant 0 a s)

/-- An engine checks a block held in a CARRY buffer when the job starts (R288). -/
def blockFails (s : State) (g : Graph) (r : JobRt) : Bool :=
  let d := g.jobs.getD r.p.num {}
  (bufD g d.paramBuf).kind == 5 && !blockOk (blockCtx s g d g.bufs) (paramBlock s g r)

end Sys2Proof.Machine
end

