-- ==== Sys2Proof/Machine/Operands.lean ====
section
/-!
DEFINITION. Operands of Sage instructions: formats and fields (R217, R250), register names and rotation (R209 to R211, R248),
address modes and circular update (R213, R214), the access window (R207, R208), and how an instruction joins its bundle (R215, R216).
-/
namespace Sys2Proof.Machine

/-! ### Fields -/

/-- E and the major opcode of a word. -/
def wE (w : Nat) : Bool := bitAt w 31
def wOp (w : Nat) : Nat := fld w 26 5
/-- Fields D, S and T at [25:21], [20:16] and [15:11]. -/
def wD (w : Nat) : Nat := fld w 21 5
def wS (w : Nat) : Nat := fld w 16 5
def wT (w : Nat) : Nat := fld w 11 5
/-- Low function field of formats T, VR, VP, CX, CXC: [5:0]. -/
def wFn (w : Nat) : Nat := fld w 0 6
/-- [10:6]: LEN − 1 of bit fields, C register or IMM5 of permutes. -/
def wMid (w : Nat) : Nat := fld w 6 5
/-- Signed field of `n` bits at bit `lo`. -/
def wSigned (w lo n : Nat) : Int := toInt n (fld w lo n)

/-! ### Registers -/

/-- Physical number of logical register `n` of a rotating file (R210). -/
def phys (rrb n : Nat) : Nat := if n < 16 then n else 16 + (n - 16 + 16 - rrb % 16) % 16
/-- A g register as an unsigned word; g0 reads 0. -/
def gR (c : Core) (n : Nat) : Nat := if n = 0 then 0 else tget c.g (phys c.rrb n) 0 % 2 ^ 32
/-- A g register as a signed number. -/
def gI (c : Core) (n : Nat) : Int := toInt 32 (gR c n)
/-- An address, modifier, accumulator and vector register, each of its width (Table 6-4). -/
def aR (c : Core) (n : Nat) : Nat := tget c.a n 0 % 2 ^ 32
def mR (c : Core) (n : Nat) : Nat := tget c.m n 0 % 2 ^ 32
def accR (c : Core) (n : Nat) : Int := toInt 40 (ofInt 40 (tget c.acc n 0))
def vR (c : Core) (n : Nat) : Nat := tget c.v (phys c.rrb n) 0 % 2 ^ 128
/-- The eight lanes of a vector accumulator (R249). -/
def vaccR (c : Core) (n : Nat) : List Int := (List.range 8).map fun i => toInt 40 (ofInt 40 ((tget c.vacc n []).getD i 0))
/-- The loop count, the rotating base and the flags STATUS keeps. -/
def lcR (c : Core) : Nat := c.lc % 2 ^ 32
def rrbR (c : Core) : Nat := c.rrb % 16

/-- Writes of a g, a, m, acc and v register, named logically. -/
def wG (c : Core) (n : Nat) (v : Int) : SWrite := .reg (.g (phys c.rrb n)) v
def wA (n : Nat) (v : Int) : SWrite := .reg (.a n) v
def wM (n : Nat) (v : Int) : SWrite := .reg (.m n) v
def wAcc (n : Nat) (v : Int) : SWrite := .reg (.acc n) v
def wV (c : Core) (n : Nat) (v : Nat) : SWrite := .reg (.v (phys c.rrb n)) v

/-! ### Address modes (R213, R214) -/

/-- The least k with 2^k ≥ n. -/
def log2Up (n : Nat) : Nat := clog2 n

/-- Circular update of an address by a modifier. -/
def circ (a m : Nat) : Int :=
  let len := fld m 16 16
  let stride := toInt 16 (fld m 0 16)
  if len = 0 then (a : Int) + stride
  else
    let base := a / 2 ^ log2Up len * 2 ^ log2Up len
    let off : Int := ((a - base : Nat) : Int) + stride
    let off1 := if (len : Int) ≤ off then off - len else if off < 0 then off + len else off
    (base : Int) + off1

/-- Effective address of a MEM word for accesses of `size` bytes: the full 32-bit sum. -/
def memEa (c : Core) (w size : Nat) : Nat :=
  let a := aR c (fld w 17 4)
  if fld w 12 2 = 0 then ofInt 32 ((a : Int) + wSigned w 0 9 * size) else a
/-- The update of the address register. -/
def memUpdate (c : Core) (w size : Nat) : List SWrite :=
  let n := fld w 17 4
  let a := aR c n
  match fld w 12 2 with
  | 1 => [wA n ((a : Int) + wSigned w 0 9 * size)]
  | 2 => [wA n ((a : Int) + toInt 16 (fld (mR c (fld w 9 3)) 0 16))]
  | 3 => [wA n (circ a (mR c (fld w 9 3)))]
  | _ => []

/-! ### The access window (R207, R208, log 25) -/

/-- Argument areas of a core: five of 4 KiB at the end of the runtime's claim (DESIGN CHOICE, log 25). -/
def argBase (area : Nat) : Nat := 0xDB000 + 4096 * area

/-- Ranges a core may reach: start, bytes, writable. A firmware program in maintenance mode reaches all of its data memory. -/
def windows (s : State) (n : Nat) (c : Core) : List (Nat × Nat × Bool) :=
  if c.maint then [(0x80000, 0x60000, true)]
  else match graphOf s c.gid, jobRt s c.gid c.num with
    | some g, some r =>
      let d := g.jobs.getD c.num {}
      let p := progRun s c.prog
      let refs := (d.refs.filter fun x => pRefLocal p x.1).filterMap fun x =>
        (refAddr g r x.2.2).map fun a => (a - coreAddr n, (bufD g x.2.2).size, x.2.1 != 0)
      refs ++ (if d.paramValid then [(argBase c.area, d.paramLen, false)] else []) ++ [(staticStart s (n / 9) c.prog, pStaticLen p, false)]
    | _, _ => []

/-- Every byte of a range lies in readable, or writable, ranges of the window. -/
def inWindows (l : List (Nat × Nat × Bool)) (write : Bool) (ea n : Nat) : Bool :=
  (upto n).all fun i => l.any fun r => (!write || r.2.2) && r.1 ≤ ea + i && ea + i < r.1 + r.2.1

/-! ### A core and its program -/

/-- Maintenance mode (R264): the role word has FUNCTION 1. -/
def inMaint (s : State) (n : Nat) : Bool := roleFn (roleWord s n) == 1

/-- The running program of a core: that of its dispatched job, or firmware's in maintenance mode. -/
def coreRun (s : State) (n : Nat) : Option Core :=
  match tfind n s.sage.cores with
  | none => none
  | some c =>
    if c.maint then (if inMaint s n then some c else none)
    else match (unitSt s n).cur with
      | some r => if r.gid = c.gid ∧ r.num = c.num then some c else none
      | none => none

/-- A flag of the program's table entry; firmware has every unit. -/
def usesVector (s : State) (c : Core) : Bool := c.maint || bitAt (progRun s c.prog) 19
def usesCmc (s : State) (c : Core) : Bool := c.maint || bitAt (progRun s c.prog) 20

/-! ### Joining a bundle -/

/-- What an instruction sees: the state, its core's number and record, its word, the address of its bundle's first word and its own. -/
structure Ctx where
  s : State
  n : Nat
  c : Core
  w : Nat
  ia : Nat

/-- What an instruction contributes: the state after values left open were drawn, its writes, its exceptions. -/
structure IRes where
  s : State
  writes : List SWrite := []
  excs : List SExc := []

/-- Exceptions of Table 6-16 with their ranks under R241. -/
def excOpcode (w : Nat) : SExc := { rank := 11, code := 1, cause := 1, info := w }
def excSlot (w : Nat) : SExc := { rank := 10, code := 1, cause := 2, info := w }
def excAccess (ea : Nat) : SExc := { rank := 12, code := 1, cause := 3, info := ea }
def excMaint (w : Nat) : SExc := { rank := 12, code := 1, cause := 4, info := w }
def excSpr (w : Nat) : SExc := { rank := 12, code := 1, cause := 5, info := w }
def excXfer (gl : Nat) : SExc := { rank := 12, code := 1, cause := 6, info := gl }
def excPc (a : Nat) : SExc := { rank := 12, code := 1, cause := 7, info := a }
def excFetch (w : Nat) : SExc := { rank := 0, code := 2, cause := 0x10, info := w }
def excMisaligned (slot ea : Nat) : SExc := { rank := 20 + slot, code := 3, cause := 0x20, info := ea }
def excNotOwned (w : Nat) : SExc := { rank := 30, code := 5, cause := 0x40, info := w }
def excData (ea : Nat) : SExc := { rank := 40, code := 2, cause := 0x11, info := ea }

/-- Contributions of an instruction without open values. -/
def Ctx.ok (x : Ctx) (l : List SWrite) : IRes := { s := x.s, writes := l }
def Ctx.bad (x : Ctx) (e : SExc) : IRes := { s := x.s, excs := [e] }
/-- An instruction that raises an exception, and still names what it would write for the check of its bundle (R241). -/
def Ctx.fail (x : Ctx) (e : SExc) (r : IRes) : IRes := { s := x.s, writes := r.writes, excs := [e] }
/-- An instruction whose reserved fields are 0 and whose fields are admitted; else it raises OPCODE. -/
def Ctx.guard (x : Ctx) (okFields : Bool) (l : List SWrite) : IRes :=
  if okFields then x.ok l else x.fail (excOpcode x.w) (x.ok l)

/-- The instruction is fetched from the runtime or the job's own image (R215). -/
def fetchOk (s : State) (n : Nat) (c : Core) (ia : Nat) : Bool :=
  c.maint && ia < 0x20000 || ia < 0x2000 ||
    (imageStart s (n / 9) c.prog ≤ ia && ia + 4 ≤ imageStart s (n / 9) c.prog + pImageLen (progRun s c.prog))

/-- Exceptions of the fetch of an instruction: poison, a wrong address, a bundle that crosses a 16-byte block or is too long. -/
def fetchExcs (s : State) (n : Nat) (c : Core) (ia w : Nat) : List SExc :=
  (if rangePoisoned s (coreAddr n + ia) 4 then [excFetch w] else []) ++
  (if c.pc / 16 = ia / 16 then [] else [excSlot w]) ++
  (if fetchOk s n c ia then [] else [excPc ia])

end Sys2Proof.Machine
end

