-- ==== Sys2Proof/Machine/Flags.lean ====
section
/-!
DEFINITION. The sticky flags of STATUS (Table 6-12) and the computations that set them: scalar and vector saturation (R219, R255),
accumulator overflow (R226), convergent rounding (R227).
-/
namespace Sys2Proof.Machine

/-- Bits of STATUS. -/
def fAov : Nat := 1
def fSat : Nat := 2
def fCxf : Nat := 4
def fVsat : Nat := 8

/-- Signed and unsigned saturation to `w` bits: the value, and whether it saturated. -/
def satS (w : Nat) (x : Int) : Int × Bool :=
  let lim : Int := 2 ^ (w - 1)
  if lim ≤ x then (lim - 1, true) else if x < -lim then (-lim, true) else (x, false)
def satU (w : Nat) (x : Int) : Int × Bool :=
  let lim : Int := 2 ^ w
  if lim ≤ x then (lim - 1, true) else if x < 0 then (0, true) else (x, false)

/-- ⌊x ÷ 2^sh⌋ rounded half to even (R227). -/
def roundShift (x : Int) (sh : Nat) : Int :=
  if sh = 0 then x
  else
    let q := x / (2 ^ sh : Int)
    let rem := x % (2 ^ sh : Int)
    let half : Int := 2 ^ (sh - 1)
    if half < rem ∨ (rem = half ∧ q % 2 = 1) then q + 1 else q

/-- A sticky flag set when a condition holds. -/
def flagIf (b : Bool) (mask : Nat) : List SWrite := if b then [.sticky mask] else []

/-- EXTR of an accumulator (R227): the value, and whether it saturated. -/
def extr (acc : Int) (sh : Nat) (wide : Bool) : Int × Bool := satS (if wide then 32 else 16) (roundShift acc sh)

/-- An exact accumulator value wrapped to 40 bits; leaving the range sets AOV (R226). -/
def wrap40 (v : Int) : Int := toInt 40 (ofInt 40 v)
def over40 (v : Int) : Bool := v < -(2 ^ 39 : Int) || (2 ^ 39 : Int) ≤ v

end Sys2Proof.Machine
end

