-- ==== Sys2Proof/Machine/Bundle.lean ====
section
/-!
DEFINITION. How a Sage core runs (R207, R215, R216, R233 to R242, R265): the start, yields and end of its jobs, its bundles, its
exceptions and transfers, and the claim of the cluster's coprocessor (R272 to R276).
-/
namespace Sys2Proof.Machine

/-! ### The end of a job on a core -/

/-- The job of a core ends with a code; a firmware program leaves its core to the next, registers cleared (R265). -/
def endCoreJob (n code : Nat) (s : State) : State :=
  match tfind n s.sage.cores with
  | none => s
  | some c =>
    let s1 := coreStop n (dropXferReads n s)
    if c.maint then { s1 with sage := { s1.sage with cores := tset n (maintCore (now s)) s1.sage.cores } } else stopShare n code s1

/-! ### Exceptions (R240 to R242) -/

/-- The SAGE_EXCEPTION event (Table 6-17). -/
def evSageException (g : Graph) (r : JobRt) (e : SExc) (pc loc : Nat) : Nat :=
  pack [(0, 8, 0x12), (8, 8, e.cause), (16, 9, g.ci), (32, 16, r.p.num), (48, 16, r.id.getD 0), (64, 64, g.air), (128, 32, pc),
    (160, 32, e.info), (192, 21, loc / 2 ^ 43)]

/-- The exception a bundle reports: the first by rank (R241), in order of its instructions among equals (log 26). -/
def firstExc (l : List SExc) : Option SExc :=
  l.foldl (fun m e => match m with
    | none => some e
    | some x => if e.rank < x.rank then some e else some x) none

/-- Completion code of an exception. -/
def excJobCode (e : SExc) : Nat := if e.code = 2 then 5 else 7

/-- An exception ends the core's job: the event, the count, the code; a third slice overrun within 1 s starts flow 1 (R689). -/
def raiseExc (n : Nat) (c : Core) (e : SExc) (s : State) : State :=
  let s1 := bumpBy 32 (kClExceptions (n / 9) (e.code - 1)) 1 s
  let s2 := if e.cause = 0x10 then { s1 with sage := { s1.sage with reload := (n :: s1.sage.reload).eraseDups } } else s1
  let s3 := match graphOf s2 c.gid, jobRt s2 c.gid c.num with
    | some g, some r => fnEvent g.tenant (evSageException g r e c.pc (locCore n)) s2
    | _, _ => s2
  let s4 := endCoreJob n (excJobCode e) (if e.cause = 0x10 then demandFault (coreAddr n + c.pc / 16 * 16) 16 s3
    else if e.cause = 0x11 then demandFault (coreAddr n + e.info) 0x60000 s3 else s3)
  if e.code = 4 then
    let times := ((unitSt s4 n).overruns ++ [now s]).filter fun t => now s < t + secToTc 1
    let s5 := modUnit n (fun m => { m with overruns := times }) s4
    if 3 ≤ times.length then startUnitFlow n s5 else s5
  else s4

/-! ### Transfers (R233, R234) -/

/-- Local bytes of a core's data memory. -/
def dmemRead (s : State) (n ea len : Nat) : List Byte := load s (coreAddr n + ea) len

/-- The data an incoming transfer brings. -/
def xferSource (s : State) (g : Graph) (r : JobRt) (n : Nat) (x : Xfer) : List Byte :=
  match refAddr g r x.buf with
  | some a => load s (a + x.ofs) x.len
  | none => padTo x.len (((readOp s (.xfer n g.id x.tag)).map (·.data)).getD [])

/-- A load: each byte inside the local range of an incoming transfer not yet complete may be the old or the new one (R234). -/
def dmemLoad (n : Nat) (c : Core) (ea len : Nat) (s : State) : List Byte × State :=
  let old := dmemRead s n ea len
  match graphOf s c.gid, jobRt s c.gid c.num with
  | some g, some r =>
    let inc := c.xfers.filter fun x => !x.out && x.loc < ea + len && ea < x.loc + x.len
    if inc.isEmpty then (old, s)
    else
      let step := fun (p : List Byte × State) (i : Nat) =>
        match inc.find? fun x => x.loc ≤ ea + i && ea + i < x.loc + x.len with
        | none => (p.1 ++ [old.getD i 0], p.2)
        | some x =>
          let (k, s1) := draw p.2
          (p.1 ++ [if Config.freeBit k then (xferSource s g r n x).getD (ea + i - x.loc) 0 else old.getD i 0], s1)
      (upto len).foldl step ([], s)
  | _, _ => (old, s)

/-- Bytes that a core's job writes in an area of a buffer with other producers are noted (R62). -/
def noteCore (n ea len : Nat) (s : State) : State :=
  match tfind n s.sage.cores with
  | none => s
  | some c => match graphOf s c.gid, jobRt s c.gid c.num with
    | some g, some r => noteWrite g r (coreAddr n + ea) len s
    | _, _ => s

/-- A store: bytes that fall into the local range of an outgoing transfer keep their old value beside the new one (R234). -/
def dmemStore (n ea : Nat) (l : List Byte) (s : State) : State :=
  let old := dmemRead s n ea l.length
  let keep := fun (x : Xfer) =>
    if x.out then
      let hit := (upto l.length).filter fun i => x.loc ≤ ea + i && ea + i < x.loc + x.len && !x.old.any fun o => o.1 == ea + i
      { x with old := x.old ++ hit.map fun i => (ea + i, old.getD i 0) }
    else x
  memStore (coreAddr n + ea) l (noteCore n ea l.length (modCore n (fun c => { c with xfers := c.xfers.map keep }) s))

/-- The bytes an outgoing transfer sends: old or new where a store came between. -/
def xferOutBytes (n : Nat) (x : Xfer) (s : State) : List Byte × State :=
  let cur := dmemRead s n x.loc x.len
  x.old.foldl (fun p o =>
    let (k, s1) := draw p.2
    (if Config.freeBit k then p.1.set (o.1 - x.loc) o.2 else p.1, s1)) (cur, s)

/-- The oldest transfer of a core can complete: its host read is over. -/
def xferReady (s : State) (n : Nat) (c : Core) : Option Xfer :=
  match c.xfers.head? with
  | none => none
  | some x => match readOp s (.xfer n c.gid x.tag) with
    | some o => if o.isOver then some x else none
    | none => some x

/-- The REMOTE buffer of a transfer does not lie in reachable memory (Table 1-11). -/
def xferHole (s : State) (g : Graph) (r : JobRt) (x : Xfer) : Option Nat :=
  (refAddr g r x.buf).filter fun a => !rangeReachable s (a + x.ofs) x.len

/-- The oldest transfer of a core completes: its data moves and counts, its tag is free; poison or a failed read ends the job, and a read that
fails the other consumers of its buffer too (R69). One that meets a hole moves nothing and ends the job INVALID_DESCRIPTOR. -/
def completeXfer (n : Nat) (c : Core) (x : Xfer) (s : State) : State :=
  match graphOf s c.gid, jobRt s c.gid c.num with
  | some g, some r =>
   match xferHole s g r x with
   | some a => endCoreJob n 7 (accessError (unitLoc n) g.tenant 0 (a + x.ofs) s)
   | none =>
    let failed := ((readOp s (.xfer n c.gid x.tag)).map fun o => o.failed.isSome).getD false
    let bad := if x.out then rangePoisoned s (coreAddr n + x.loc) x.len
      else match refAddr g r x.buf with
        | some a => rangePoisoned s (a + x.ofs) x.len
        | none => failed
    let (l, s1) := if x.out then xferOutBytes n x s else (xferSource s g r n x, s)
    let s2 := if x.out then writeBuf g r x.buf x.ofs l s1 else if failed then s1 else memStore (coreAddr n + x.loc) l (noteCore n x.loc l.length s1)
    let s3 := modCore n (fun c => { c with xfers := c.xfers.drop 1 }) (dropRead (.xfer n c.gid x.tag) s2)
    let s4 := if failed then failBuffer g.id x.buf s3 else bumpBy 64 (kClXferBytes (n / 9) (n % 9)) x.len s3
    if !bad then s4
    else if x.out then raiseExc n c (excData x.loc) (poisonBuf g r x.buf x.ofs x.len s4)
    else endCoreJob n 5 (match refAddr g r x.buf with
      | some a => demandFault (a + x.ofs) x.len s4
      | none => s4)
  | _, _ => s

/-- The bytes of a transfer between two places in device memory move. -/
def moveXfer (n : Nat) (g : Graph) (r : JobRt) (x : Xfer) (s : State) : State :=
  match refAddr g r x.buf with
  | none => s
  | some a =>
    if x.out then
      let (l, s1) := xferOutBytes n x s
      memStore (a + x.ofs) l s1
    else memStore (coreAddr n + x.loc) (xferSource s g r n x) s

/-- The reset of a function: of the transfers its cores have outstanding, those already issued to the network complete, the rest are discarded;
how far they were issued is a free value (R239, log 81). -/
def issuedXfers (t : Nat) (s : State) : State :=
  let mine := s.sage.cores.filter fun e => ((graphOf s e.2.gid).map (·.tenant)) == some t && (coreRun s e.1).isSome
  each mine (fun e y => match graphOf s e.2.gid, jobRt s e.2.gid e.2.num with
    | some g, some r =>
      (e.2.xfers.foldl (fun (p : Bool × State) x =>
        let (k, z) := draw p.2
        if p.1 && Config.freeBit k then (true, moveXfer e.1 g r x z) else (false, z)) (true, y)).2
    | _, _ => y) s

/-- XFER_DONE: a core's oldest transfer completes its last acknowledgement. -/
def execXferDone (core : CoreId) (s : State) : Res :=
  match coreRun s core.val with
  | none => done s
  | some c => match xferReady s core.val c with
    | some x => done (completeXfer core.val c x s)
    | none => done s

/-! ### Yield points (R147 to R149, R236) -/

/-- A yield point passes: the idle count of the vector unit starts again with the VGATE_IDLE now written, the request bit clears. -/
def yieldPoint (n : Nat) (s : State) : State :=
  dropRequest n (modCore n (fun c => { c with lastYield := now s, vUsed := false }) (restartIdle n s))

/-- An entry booked on the core waits with a strictly lower level than the running job's (R147). -/
def betterWaits (s : State) (n level : Nat) : Bool := s.work.ready.any fun e => e.unit == n && e.level < level

/-- The running job is preempted: its context is saved and it returns to its list (R149). -/
def preempt (n : Nat) (c : Core) (run : Run) (s : State) : State :=
  let s1 := noteFinish n run (segmentEnd n run s)
  let s2 := bump (kDiDispatchStats 1) (modRt run.gid run.num (fun r => { r with preempts := r.preempts + 1 }) s1)
  let s3 := { s2 with sage := { s2.sage with cores := tdel n s2.sage.cores, ctxs := s2.sage.ctxs ++ [(n, c)] } }
  let s4 := modUnit n (fun m => { m with cur := none, ctx := m.ctx ++ [run] }) s3
  match graphOf s4 run.gid, jobRt s4 run.gid run.num with
  | some g, some r => returnEntry { entryFor s4 g r run.share with level := run.level } s4
  | _, _ => s4

/-- YIELD (R236): revocations of Table 7-14, a pending cancel, then the dispatch decision. -/
def doYield (n : Nat) (s : State) : State :=
  match tfind n s.sage.cores with
  | none => s
  | some c =>
    let held := holdsClaim s n
    let s1 := if held && (!(c.maint || bitAt (progRun s c.prog) 18) || c.claimAtYield) then cmcRevoke n s else s
    let s2 := modCore n (fun c => { c with claimAtYield := holdsClaim s1 n }) (yieldPoint n s1)
    match (unitSt s2 n).cur, tfind n s2.sage.cores with
    | some run, some c2 =>
      if c2.maint then s2
      else if run.cancel then endCoreJob n (requestCode s2 run.gid) s2
      else if betterWaits s2 n run.level && !holdsClaim s2 n && (unitSt s2 n).ctx.length < 3 then preempt n c2 run s2
      else modUnit n (fun m => { m with cur := m.cur.map fun r => { r with since := now s } }) (segmentEnd n run s2)
    | _, _ => s2

/-- END (R235): the completion message is sent. -/
def doFinish (n : Nat) (s : State) : State :=
  match tfind n s.sage.cores with
  | none => s
  | some c => endCoreJob n (((jobRt s c.gid c.num).map (·.code)).getD 0) s

/-! ### Bundles (R215, R216) -/

/-- Registers a write names, for the check of two writes to one. -/
def SWrite.target : SWrite → List SReg
  | .reg r _ => [r]
  | .vacc n _ => [.vacc n]
  | .claim d => [.g d]
  | .link => [.g 15]
  | _ => []

/-- A CX.CLAIM. -/
def SWrite.isClaim : SWrite → Bool
  | .claim _ => true
  | _ => false

/-- Two writes of one bundle name the same register, or two instructions one slot. -/
def bundleClash (b : Bundle) : Bool :=
  let regs := b.writes.flatMap SWrite.target
  regs.length != regs.eraseDups.length || b.slots.length != b.slots.eraseDups.length

/-- A register takes a value of its width. -/
def setReg (r : SReg) (v : Int) (c : Core) : Core :=
  match r with
  | .g n => if n = 0 then c else { c with g := tset n (ofInt 32 v) c.g }
  | .a n => { c with a := tset n (ofInt 32 v) c.a }
  | .m n => { c with m := tset n (ofInt 32 v) c.m }
  | .acc n => { c with acc := tset n (wrap40 v) c.acc }
  | .v n => { c with v := tset n (ofInt 128 v) c.v }
  | .vacc _ => c
  | .lc => { c with lc := ofInt 32 v }
  | .rrb => { c with rrb := ofInt 4 v }

/-- The 16 elements of the result workspace. -/
def cmcResult16 (c : Cmc) : List (Int × Int) := (upto 16).map fun e => c.result.getD e (0, 0)
/-- The PIVOTS words the matrix unit leaves with a result (log 9). -/
def cmcPivots (c : Cmc) : List Nat := (upto 4).map fun i => (Config.pivotWord c.nM1 (cmcResult16 c) i).toNat

/-- The CMC image (Table 7-18), loaded into a coprocessor. -/
def cmcFromImage (l : List Byte) (c : Cmc) : Cmc :=
  let f := fieldAt l 4 4
  let res := (upto 16).map fun e => (toInt 32 (fieldAt l (0x80 + 8 * e) 4), toInt 32 (fieldAt l (0x84 + 8 * e) 4))
  let piv := (upto 4).map fun i => fieldAt l (0x100 + 4 * i) 4
  let c1 : Cmc := { c with flags := 16 * fld f 0 5, mstate := fld f 8 2, nM1 := fld f 12 2, inExp := toInt 32 (fieldAt l 8 4),
                           outExp := toInt 32 (fieldAt l 12 4), result := res,
                           input := ((upto 16).map fun e => (e, fieldAt l (0x40 + 4 * e) 4)).filter fun p => p.2 != 0 }
  { c1 with pivots := if piv = cmcPivots c1 then none else some piv }

/-- One write of a bundle takes effect. -/
def applyWrite (n : Nat) (w : SWrite) (s : State) : State :=
  let cl := n / 9
  match w with
  | .reg r v => modCore n (setReg r v) s
  | .vacc k l => modCore n (fun c => { c with vacc := tset k (l.map wrap40) c.vacc }) s
  | .mem ea l => dmemStore n ea l s
  | .sticky m => modCore n (fun c => { c with status := c.status ||| m }) s
  | .status v => modCore n (fun c => { c with status := v &&& 0xB }) s
  | .cycleHi v => modCore n (fun c => { c with cycleHi := v }) s
  | .dtcHi v => modCore n (fun c => { c with dtcHi := v }) s
  | .pc t => modCore n (fun c => { c with pc := t }) s
  | .link => modCore n (fun c => setReg (.g 15) c.pc c) s
  | .xfer x => match tfind n s.sage.cores with
    | some c =>
      let s1 := modCore n (fun c => { c with xfers := c.xfers ++ [x] }) s
      match graphOf s c.gid, jobRt s c.gid c.num with
      | some g, some r =>
        if !x.out && (refAddr g r x.buf).isNone then startRead g.tenant (.xfer n c.gid x.tag) ((bufD g x.buf).host + x.ofs) x.len s1 else s1
      | _, _ => s1
    | none => s
  | .yield => doYield n s
  | .finish => doFinish n s
  | .claim d =>
    let (ok, s1) := cmcClaim n s
    modCore n (setReg (.g d) (b2n ok)) s1
  | .release => cmcRelease n s
  | .cmcIn e v => modCmc cl (fun c => { c with input := tset e v c.input, mstate := 1 }) s
  | .cmcInExp v => modCmc cl (fun c => { c with inExp := v }) s
  | .cmcResult st k res oe => modCmc cl (fun c => { c with mstate := st, nM1 := k, result := res, outExp := oe, pivots := none }) s
  | .cmcFlags m => modCmc cl (fun c => { c with flags := c.flags ||| m }) s
  | .cmcClear => modCmc cl (fun c => { c with flags := 0 }) s
  | .cmcFresh => modCmc cl cmcFresh s
  | .cmcLoad l => modCmc cl (cmcFromImage l) s
  | .cmcPend t => modCore n (fun c => { c with pend := max c.pend t }) s

/-- Writes in the order they act: registers first, then STATUS before its sticky bits, memory, the rest, the yield or end last. -/
def writeOrder (w : SWrite) : Nat :=
  match w with
  | .reg _ _ => 0
  | .vacc _ _ => 0
  | .status _ => 0
  | .link => 0
  | .sticky _ => 1
  | .yield => 3
  | .finish => 3
  | _ => 2

/-- Slice limit of a core, Tc: 20 µs less 600 cycles (R237). -/
def sliceLimit (s : State) (n : Nat) : Nat := usToTc 20 - cyclesToTc 600 (rd s (kPdClkNow (n / 9)))
/-- The slice timer of a core stood at its limit at time `t`: time since the last yield point, in steps of 64 Tc. -/
def sliceOver (s : State) (n : Nat) (c : Core) (t : Nat) : Bool := !c.maint && decide (sliceLimit s n ≤ (t - c.lastYield) / 64 * 64)
/-- Slice overrun, met by the bundle whose first word is `w` (log 79). -/
def excSlice (w : Nat) : SExc := { rank := 50, code := 4, cause := 0x30, info := w }

/-- The bundle executes: a slice overrun examined before it issues, its exception, or all of its writes, and control goes on or is
transferred. -/
def commitBundle (n : Nat) (c : Core) (w : Nat) (s : State) : State :=
  let b := c.bundle
  let excs := b.excs ++ (if bundleClash b then [excSlot w] else [])
  if sliceOver s n c b.at_ && !b.writes.contains .yield then raiseExc n c (excSlice b.word) s
  else match firstExc excs with
  | some e => raiseExc n c e s
  | none =>
    let s1 := modCore n (fun c => { c with bundle := {}, pc := c.pc + 4 * b.count }) s
    each (sortBy (fun x y => writeOrder x ≤ writeOrder y) b.writes) (fun w t => applyWrite n w t) s1

/-- Major opcodes and functions to which an instruction belongs (Tables 6-7 to 6-13, 7-3 to 7-9, 7-12, 7-15). -/
def listedWord (w : Nat) : Bool :=
  let fn := wFn w
  match wOp w with
  | 0x00 => fld w 21 5 ≤ 5
  | 0x01 => fn ≤ 0x0D
  | 0x02 => fld w 12 4 ≤ 6
  | 0x04 => fn ≤ 4 || (0x10 ≤ fn && fn ≤ 0x14) || (0x20 ≤ fn && fn ≤ 0x22)
  | 0x05 => fn ≤ 0x0B
  | 0x07 => fld w 23 3 ≤ 3
  | 0x08 => fld w 23 3 ≤ 3
  | 0x09 => fld w 14 3 != 1 && fld w 14 3 != 3
  | 0x0B => fld w 23 3 ≤ 5
  | 0x0C => fld w 6 4 ≤ 5
  | 0x0D => fld w 10 3 ≤ 2
  | 0x0F => false
  | 0x10 => fn ≤ 0x14 || (0x18 ≤ fn && fn ≤ 0x1C)
  | 0x11 => fn ≤ 4 || (8 ≤ fn && fn ≤ 0xB)
  | 0x12 => fld w 6 4 ≤ 8
  | 0x13 => fld w 10 3 ≤ 2
  | 0x14 => fn ≤ 9
  | 0x15 => fld w 0 5 ≤ 8
  | 0x16 => fn ≤ 6
  | 0x17 => false
  | 0x1A => false
  | 0x1B => false
  | 0x1C => fn ≤ 7 || (0x10 ≤ fn && fn ≤ 0x15)
  | 0x1D => fn ≤ 5
  | 0x1E => false
  | 0x1F => false
  | _ => true

/-- The slot of a word that no instruction has: that of its major opcode, A for a reserved one (log 80). -/
def reservedSlot (w : Nat) : Slot := if 0x10 ≤ wOp w ∧ wOp w ≤ 0x16 ∨ wOp w = 0x0C then .m else .a

/-- An instruction joins its core's bundle: what it reads it reads now, before any write of the bundle; the instruction with E set
executes the bundle. `isWord` says that the word is this instruction's; `stall` that it has to wait (log 3). A word that no instruction has
raises OPCODE, whichever instruction's command brings it (R217, R218, log 80); another instruction's word does nothing. -/
def issue (core : CoreId) (w : Word) (isWord : Nat → Bool) (slot : Slot) (stall : Ctx → Bool) (f : Ctx → IRes) (s : State) : Res :=
  match coreRun s core.val with
  | none => done s
  | some c =>
    let x : Ctx := { s := s, n := core.val, c := c, w := w.toNat, ia := c.pc + 4 * c.bundle.count }
    let known := listedWord w.toNat
    if known && (!isWord w.toNat || stall x) then done s
    else
      let r := if known then f x else x.bad (excOpcode x.w)
      let first := c.bundle.count == 0
      let b : Bundle :=
        { count := c.bundle.count + 1, at_ := if first then now s else c.bundle.at_, word := if first then x.w else c.bundle.word,
          claimAt := if r.writes.any SWrite.isClaim then some (now s) else c.bundle.claimAt,
          slots := c.bundle.slots ++ [if known then slot else reservedSlot x.w], writes := c.bundle.writes ++ r.writes,
          excs := c.bundle.excs ++ fetchExcs s core.val c x.ia w.toNat ++ r.excs }
      let s1 := modCore core.val (fun c => { c with bundle := b }) r.s
      if wE w.toNat then
        match tfind core.val s1.sage.cores with
        | some c1 => done (commitBundle core.val c1 w.toNat s1)
        | none => done s1
      else done s1

/-- No stall. -/
def noStall : Ctx → Bool := fun _ => false
/-- The word has a major opcode and a function at [5:0]. -/
def isOpFn (op fn : Nat) (w : Nat) : Bool := wOp w == op && wFn w == fn

/-! ### Jobs on cores -/

/-- A context saved for the job a core runs. -/
def savedCtx (s : State) (n : Nat) (run : Run) : Option Core :=
  (s.sage.ctxs.find? fun e => e.1 == n && e.2.gid == run.gid && e.2.num == run.num).map (·.2)

/-- The lowest argument area no saved context of the core holds. -/
def freeArea (s : State) (n : Nat) : Nat :=
  let used := (s.sage.ctxs.filter fun e => e.1 == n).map (·.2.area)
  ((upto 5).find? fun i => !used.contains i).getD 4

/-- The state at the first bundle of a job (Table 6-2). -/
def coreAtStart (s : State) (n : Nat) (g : Graph) (r : JobRt) : Core :=
  let d := g.jobs.getD r.p.num {}
  let p := r.p.prog.getD 0
  let e := progRun s p
  let area := freeArea s n
  let ref := fun (k : Nat) => d.refs.find? fun x => x.1 == k
  let aOf := fun (k : Nat) => match ref k with
    | some x => if pRefLocal e k then (match refAddr g r x.2.2 with | some a => a - coreAddr n | none => 0) else 0
    | none => 0
  let sizeOf := fun (k : Nat) => match ref k with
    | some x => (bufD g x.2.2).size
    | none => 0
  let nz := fun (l : List (Nat × Nat)) => l.filter fun e => e.2 != 0
  { gid := g.id, num := r.p.num, prog := p, area := area, pc := imageStart s (n / 9) p + 4 * pEntry e,
    a := nz ([(0, argBase area)] ++ ((upto 6).map fun k => (k + 1, aOf k)) ++ [(7, if pStaticLen e = 0 then 0 else staticStart s (n / 9) p)]),
    g := nz ([(1, d.units), (2, r.id.getD 0), (3, g.ci), (4, if d.paramValid then d.paramLen else 0)] ++ (upto 6).map fun k => (8 + k, sizeOf k)),
    since := now s, lastYield := now s }

/-- SAGE_JOB: the program of a dispatched job starts on its core, or a preempted one is restored. -/
def execSageJob (core : CoreId) (s : State) : Res :=
  let n := core.val
  match (unitSt s n).cur.filter (·.ending.isNone), coreRun s n with
  | some run, none => match graphOf s run.gid, jobRt s run.gid run.num with
    | some g, some r => match savedCtx s n run with
      | some c =>
        let s1 := { s with sage := { s.sage with cores := tset n { c with bundle := {} } s.sage.cores
                                                 ctxs := s.sage.ctxs.filter fun e => !(e.1 == n && e.2.gid == run.gid && e.2.num == run.num) } }
        done (yieldPoint n s1)
      | none =>
        let d := g.jobs.getD r.p.num {}
        let c := coreAtStart s n g r
        let arg := if d.paramValid then toBytes d.paramLen (paramBlock s g r) else []
        let live := fun (e : Nat × Core) => e.1 != n || (unitSt s n).ctx.any fun x => x.gid == e.2.gid && x.num == e.2.num
        let s1 := { s with sage := { s.sage with cores := tset n c s.sage.cores, ctxs := s.sage.ctxs.filter live } }
        let a := dmemAddr n + (argBase c.area - 0x80000)
        let s2 := memStore a arg s1
        done (yieldPoint n (if blockPoisoned s g r then poisonRange a arg.length s2 else s2))
    | _, _ => done s
  | _, _ => done s

/-- The words of the bundle at the program counter, as they stand in instruction memory: up to the E bit, or to the end of its block. -/
def nextWords (s : State) (n : Nat) (c : Core) : List Nat :=
  let l := (upto (4 - c.pc / 4 % 4)).map fun i => ofBytes (load s (coreAddr n + c.pc + 4 * i) 4)
  l.take ((l.findIdx wE) + 1)

/-- SLICE_OVERRUN: at a bundle boundary the slice timer has reached its limit, and the next bundle holds no YIELD. -/
def execSliceOverrun (core : CoreId) (s : State) : Res :=
  match coreRun s core.val with
  | none => done s
  | some c =>
    let next := nextWords s core.val c
    whenDue (c.bundle.count == 0 && sliceOver s core.val c (now s) && !next.any fun w => wOp w == 0 && fld w 21 5 == 1)
      (raiseExc core.val c (excSlice (next.headD 0))) s

/-- CMC_HOLD_REVOKE: a claim held for 20 µs is revoked at the holder's bundle boundary (Table 7-14). -/
def execCmcHoldRevoke (cl : ClusterId) (s : State) : Res :=
  let c := cmcOf s cl.val
  match c.holder with
  | none => done s
  | some u =>
    let n := 9 * cl.val + u
    let boundary := match tfind n s.sage.cores with
      | some k => k.bundle.count == 0
      | none => true
    whenDue (boundary && usToTc 20 ≤ (now s - c.since) / 64 * 64) (cmcRevoke n) s

/-- CMC_RESERVE_LAPSE: a reservation not taken within 32 cycles passes to the next requester (R273). -/
def execCmcReserveLapse (cl : ClusterId) (s : State) : Res :=
  match (cmcOf s cl.val).resv with
  | none => done s
  | some (v, t) =>
    whenDue (cyclesToTc 32 (rd s (kPdClkNow cl.val)) ≤ now s - t) (modCmc cl.val fun c =>
      let c1 := { c with requests := c.requests.filter (· != v) }
      { c1 with resv := (nextRequester c1 v).map fun x => (x, now s) }) s

/-- VECTOR_GATE: a vector unit idle for VGATE_IDLE cycles gates its datapath (R267, R269). -/
def execVectorGate (core : CoreId) (s : State) : Res :=
  let n := core.val
  let v := vecOf s n
  let idle := v.gateIdle.getD (rd s (kClVgateIdle (n / 9)))
  let held := inMaint s n || (match coreRun s n with
    | some c => c.vUsed
    | none => false)
  whenDue (v.on && !held && idle != 0 && cyclesToTc idle (rd s (kPdClkNow (n / 9))) ≤ now s - v.idleFrom) (modVec n fun v => { v with on := false }) s

end Sys2Proof.Machine
end

