-- ==== Sys2Proof/Machine/Scalar.lean ====
section
/-!
DEFINITION. The scalar instructions of the Sage core (R213 to R227, R233 to R236). Each takes its core and its word; a word that is
not the instruction's changes nothing.
-/
namespace Sys2Proof.Machine

/-! ### Shared forms -/

/-- A T-format instruction of the A slot that writes D: its LEN field is reserved. -/
def aluT (core : CoreId) (w : Word) (op fn : Nat) (f : Ctx → Int × Bool) (s : State) : Res :=
  issue core w (isOpFn op fn) .a noStall (fun x =>
    let r := f x
    x.guard (wMid x.w == 0) (wG x.c (wD x.w) r.1 :: flagIf r.2 fSat)) s
/-- Operands of a T-format word. -/
def Ctx.sI (x : Ctx) : Int := gI x.c (wS x.w)
def Ctx.tI (x : Ctx) : Int := gI x.c (wT x.w)
def Ctx.sU (x : Ctx) : Nat := gR x.c (wS x.w)
def Ctx.tU (x : Ctx) : Nat := gR x.c (wT x.w)
/-- A result that does not saturate: it wraps modulo 2^32. -/
def plain (v : Int) : Int × Bool := (v, false)

/-- An I-format instruction: D from S and IMM12. -/
def aluI (core : CoreId) (w : Word) (fn : Nat) (f : Ctx → Int × Bool) (s : State) : Res :=
  issue core w (fun v => wOp v == 0x02 && fld v 12 4 == fn) .a noStall (fun x =>
    let r := f x
    x.ok (wG x.c (wD x.w) r.1 :: flagIf r.2 fSat)) s
/-- IMM12, sign- and zero-extended. -/
def Ctx.imm (x : Ctx) : Int := wSigned x.w 0 12
def Ctx.immU (x : Ctx) : Nat := fld x.w 0 12

/-- Leading zeros of a 32-bit word. -/
def clz32 (v : Nat) : Nat := ((upto 32).find? fun i => bitAt v (31 - i)).getD 32
/-- Leading bits equal to bit 31, bit 31 not counted. -/
def cls32 (v : Nat) : Nat := (((upto 31).find? fun i => bitAt v (30 - i) != bitAt v 31)).getD 31

/-! ### ALU, immediate, shift and bit field (R219) -/

/-- ADD. -/
def execAdd (core : CoreId) (w : Word) (s : State) : Res := aluT core w 0x01 0x00 (fun x => plain (x.sI + x.tI)) s
/-- SUB. -/
def execSub (core : CoreId) (w : Word) (s : State) : Res := aluT core w 0x01 0x01 (fun x => plain (x.sI - x.tI)) s
/-- ADDS. -/
def execAdds (core : CoreId) (w : Word) (s : State) : Res := aluT core w 0x01 0x02 (fun x => satS 32 (x.sI + x.tI)) s
/-- SUBS. -/
def execSubs (core : CoreId) (w : Word) (s : State) : Res := aluT core w 0x01 0x03 (fun x => satS 32 (x.sI - x.tI)) s
/-- AND. -/
def execAnd (core : CoreId) (w : Word) (s : State) : Res := aluT core w 0x01 0x04 (fun x => plain (x.sU &&& x.tU : Nat)) s
/-- OR. -/
def execOr (core : CoreId) (w : Word) (s : State) : Res := aluT core w 0x01 0x05 (fun x => plain (x.sU ||| x.tU : Nat)) s
/-- XOR. -/
def execXor (core : CoreId) (w : Word) (s : State) : Res := aluT core w 0x01 0x06 (fun x => plain (x.sU ^^^ x.tU : Nat)) s
/-- ANDN: S and not T. -/
def execAndn (core : CoreId) (w : Word) (s : State) : Res := aluT core w 0x01 0x07 (fun x => plain (x.sU &&& (2 ^ 32 - 1 - x.tU) : Nat)) s
/-- NEG. -/
def execNeg (core : CoreId) (w : Word) (s : State) : Res := aluT core w 0x01 0x08 (fun x => plain (-x.sI)) s
/-- NEGS. -/
def execNegs (core : CoreId) (w : Word) (s : State) : Res := aluT core w 0x01 0x09 (fun x => satS 32 (-x.sI)) s
/-- ABS: of the most negative number it gives that number. -/
def execAbs (core : CoreId) (w : Word) (s : State) : Res := aluT core w 0x01 0x0A (fun x => plain (if x.sI < 0 then -x.sI else x.sI)) s
/-- ABSS. -/
def execAbss (core : CoreId) (w : Word) (s : State) : Res := aluT core w 0x01 0x0B (fun x => satS 32 (if x.sI < 0 then -x.sI else x.sI)) s
/-- CLZ. -/
def execClz (core : CoreId) (w : Word) (s : State) : Res := aluT core w 0x01 0x0C (fun x => plain (clz32 x.sU)) s
/-- CLS. -/
def execCls (core : CoreId) (w : Word) (s : State) : Res := aluT core w 0x01 0x0D (fun x => plain (cls32 x.sU)) s

/-- ADDI. -/
def execAddi (core : CoreId) (w : Word) (s : State) : Res := aluI core w 0x0 (fun x => plain (x.sI + x.imm)) s
/-- ANDI. -/
def execAndi (core : CoreId) (w : Word) (s : State) : Res := aluI core w 0x1 (fun x => plain (x.sU &&& x.immU : Nat)) s
/-- ORI. -/
def execOri (core : CoreId) (w : Word) (s : State) : Res := aluI core w 0x2 (fun x => plain (x.sU ||| x.immU : Nat)) s
/-- XORI. -/
def execXori (core : CoreId) (w : Word) (s : State) : Res := aluI core w 0x3 (fun x => plain (x.sU ^^^ x.immU : Nat)) s
/-- SLTI. -/
def execSlti (core : CoreId) (w : Word) (s : State) : Res := aluI core w 0x4 (fun x => plain (b2n (x.sI < x.imm))) s
/-- SLTIU: the immediate is sign-extended and compared as unsigned. -/
def execSltiu (core : CoreId) (w : Word) (s : State) : Res := aluI core w 0x5 (fun x => plain (b2n (x.sU < ofInt 32 x.imm))) s
/-- ADDSI. -/
def execAddsi (core : CoreId) (w : Word) (s : State) : Res := aluI core w 0x6 (fun x => satS 32 (x.sI + x.imm)) s
/-- LUI. -/
def execLui (core : CoreId) (w : Word) (s : State) : Res :=
  issue core w (fun v => wOp v == 0x03) .a noStall (fun x => x.ok [wG x.c (wD x.w) (fld x.w 0 21 * 2 ^ 11 : Nat)]) s

/-- Shifts of a word by an amount. -/
def sll32 (v n : Nat) : Nat := v * 2 ^ n % 2 ^ 32
def srl32 (v n : Nat) : Nat := v / 2 ^ n
def sra32 (v : Int) (n : Nat) : Int := v / (2 ^ n : Int)
def ror32 (v n : Nat) : Nat := (v / 2 ^ (n % 32) + v * 2 ^ (32 - n % 32)) % 2 ^ 32
def slls32 (v : Int) (n : Nat) : Int × Bool := satS 32 (v * (2 ^ n : Int))

/-- SLL by T[5:0]. -/
def execSll (core : CoreId) (w : Word) (s : State) : Res := aluT core w 0x04 0x00 (fun x => plain (sll32 x.sU (x.tU % 64))) s
/-- SRL. -/
def execSrl (core : CoreId) (w : Word) (s : State) : Res := aluT core w 0x04 0x01 (fun x => plain (srl32 x.sU (x.tU % 64))) s
/-- SRA. -/
def execSra (core : CoreId) (w : Word) (s : State) : Res := aluT core w 0x04 0x02 (fun x => plain (sra32 x.sI (x.tU % 64))) s
/-- ROR by T[4:0]. -/
def execRor (core : CoreId) (w : Word) (s : State) : Res := aluT core w 0x04 0x03 (fun x => plain (ror32 x.sU (x.tU % 32))) s
/-- SLLS. -/
def execSlls (core : CoreId) (w : Word) (s : State) : Res := aluT core w 0x04 0x04 (fun x => slls32 x.sI (x.tU % 64)) s
/-- SLLI: the amount is the T field. -/
def execSlli (core : CoreId) (w : Word) (s : State) : Res := aluT core w 0x04 0x10 (fun x => plain (sll32 x.sU (wT x.w))) s
/-- SRLI. -/
def execSrli (core : CoreId) (w : Word) (s : State) : Res := aluT core w 0x04 0x11 (fun x => plain (srl32 x.sU (wT x.w))) s
/-- SRAI. -/
def execSrai (core : CoreId) (w : Word) (s : State) : Res := aluT core w 0x04 0x12 (fun x => plain (sra32 x.sI (wT x.w))) s
/-- RORI. -/
def execRori (core : CoreId) (w : Word) (s : State) : Res := aluT core w 0x04 0x13 (fun x => plain (ror32 x.sU (wT x.w))) s
/-- SLLSI. -/
def execSllsi (core : CoreId) (w : Word) (s : State) : Res := aluT core w 0x04 0x14 (fun x => slls32 x.sI (wT x.w)) s

/-- A bit-field instruction: POS in the T field, LEN in [10:6] plus 1; a field beyond bit 31 raises OPCODE. -/
def bitField (core : CoreId) (w : Word) (fn : Nat) (f : Ctx → Nat → Nat → Int) (s : State) : Res :=
  issue core w (isOpFn 0x04 fn) .a noStall (fun x =>
    let pos := wT x.w
    let len := wMid x.w + 1
    x.guard (pos + len ≤ 32) [wG x.c (wD x.w) (f x pos len)]) s
/-- EXTU. -/
def execExtu (core : CoreId) (w : Word) (s : State) : Res := bitField core w 0x20 (fun x pos len => (fld x.sU pos len : Nat)) s
/-- EXTS. -/
def execExts (core : CoreId) (w : Word) (s : State) : Res := bitField core w 0x21 (fun x pos len => toInt len (fld x.sU pos len)) s
/-- INS. -/
def execIns (core : CoreId) (w : Word) (s : State) : Res :=
  bitField core w 0x22 (fun x pos len => (setFld (gR x.c (wD x.w)) pos len x.sU : Nat)) s

/-! ### Compare and search (R220) -/

/-- SEQ. -/
def execSeq (core : CoreId) (w : Word) (s : State) : Res := aluT core w 0x05 0x00 (fun x => plain (b2n (x.sU == x.tU))) s
/-- SNE. -/
def execSne (core : CoreId) (w : Word) (s : State) : Res := aluT core w 0x05 0x01 (fun x => plain (b2n (x.sU != x.tU))) s
/-- SLT. -/
def execSlt (core : CoreId) (w : Word) (s : State) : Res := aluT core w 0x05 0x02 (fun x => plain (b2n (x.sI < x.tI))) s
/-- SLTU. -/
def execSltu (core : CoreId) (w : Word) (s : State) : Res := aluT core w 0x05 0x03 (fun x => plain (b2n (x.sU < x.tU))) s
/-- MIN. -/
def execMin (core : CoreId) (w : Word) (s : State) : Res := aluT core w 0x05 0x04 (fun x => plain (min x.sI x.tI)) s
/-- MAX. -/
def execMax (core : CoreId) (w : Word) (s : State) : Res := aluT core w 0x05 0x05 (fun x => plain (max x.sI x.tI)) s
/-- MINU. -/
def execMinu (core : CoreId) (w : Word) (s : State) : Res := aluT core w 0x05 0x06 (fun x => plain (min x.sU x.tU : Nat)) s
/-- MAXU. -/
def execMaxu (core : CoreId) (w : Word) (s : State) : Res := aluT core w 0x05 0x07 (fun x => plain (max x.sU x.tU : Nat)) s

/-- A search form: the pair D, D + 1 keeps the running extreme and its index. -/
def search (core : CoreId) (w : Word) (fn : Nat) (better : Ctx → Bool) (s : State) : Res :=
  issue core w (isOpFn 0x05 fn) .a noStall (fun x =>
    let d := wD x.w
    x.guard (wMid x.w == 0 && d % 2 == 0) (if better x then [wG x.c d x.sU, wG x.c (d + 1) x.tU] else [])) s
/-- MAXI. -/
def execMaxi (core : CoreId) (w : Word) (s : State) : Res := search core w 0x08 (fun x => gI x.c (wD x.w) < x.sI) s
/-- MAXIU. -/
def execMaxiu (core : CoreId) (w : Word) (s : State) : Res := search core w 0x0A (fun x => gR x.c (wD x.w) < x.sU) s
/-- MINI. -/
def execMini (core : CoreId) (w : Word) (s : State) : Res := search core w 0x09 (fun x => x.sI < gI x.c (wD x.w)) s
/-- MINIU. -/
def execMiniu (core : CoreId) (w : Word) (s : State) : Res := search core w 0x0B (fun x => x.sU < gR x.c (wD x.w)) s

/-! ### Branch, jump and loop (R221, R222, R274) -/

/-- A branch target relative to the instruction. -/
def relTarget (x : Ctx) : Nat := ofInt 32 ((x.ia : Int) + 4 * wSigned x.w 0 13)
/-- A conditional branch of two g registers, S at [25:21] and T at [20:16]. -/
def branch (core : CoreId) (w : Word) (cond : Nat) (taken : Core → Nat → Nat → Bool) (s : State) : Res :=
  issue core w (fun v => wOp v == 0x06 && fld v 13 3 == cond) .a noStall (fun x =>
    x.ok (if taken x.c (wD x.w) (wS x.w) then [.pc (relTarget x)] else [])) s
/-- BEQ. -/
def execBeq (core : CoreId) (w : Word) (s : State) : Res := branch core w 0 (fun c a b => gR c a == gR c b) s
/-- BNE. -/
def execBne (core : CoreId) (w : Word) (s : State) : Res := branch core w 1 (fun c a b => gR c a != gR c b) s
/-- BLT. -/
def execBlt (core : CoreId) (w : Word) (s : State) : Res := branch core w 2 (fun c a b => gI c a < gI c b) s
/-- BGE. -/
def execBge (core : CoreId) (w : Word) (s : State) : Res := branch core w 3 (fun c a b => gI c b ≤ gI c a) s
/-- BLTU. -/
def execBltu (core : CoreId) (w : Word) (s : State) : Res := branch core w 4 (fun c a b => gR c a < gR c b) s
/-- BGEU. -/
def execBgeu (core : CoreId) (w : Word) (s : State) : Res := branch core w 5 (fun c a b => gR c b ≤ gR c a) s

/-- A branch on the coprocessor: S and T are reserved, and the program must use the CMC (R252). -/
def branchCmc (core : CoreId) (w : Word) (cond : Nat) (onBusy : Bool) (s : State) : Res :=
  issue core w (fun v => wOp v == 0x06 && fld v 13 3 == cond) .a noStall (fun x =>
    x.guard (usesCmc x.s x.c && fld x.w 16 10 == 0)
      (if cmcBusy (cmcOf x.s (x.n / 9)) (x.n % 9) == onBusy then [.pc (relTarget x)] else [])) s
/-- BCB. -/
def execBcb (core : CoreId) (w : Word) (s : State) : Res := branchCmc core w 6 true s
/-- BCNB. -/
def execBcnb (core : CoreId) (w : Word) (s : State) : Res := branchCmc core w 7 false s

/-- A jump: [17:15] are reserved. -/
def jump (core : CoreId) (w : Word) (fn : Nat) (f : Ctx → IRes) (s : State) : Res :=
  issue core w (fun v => wOp v == 0x07 && fld v 23 3 == fn) .a noStall (fun x =>
    if fld x.w 15 3 = 0 then f x else x.bad (excOpcode x.w)) s
/-- Register S of a jump or LCR, at [22:18]. -/
def jumpReg (x : Ctx) : Nat := gR x.c (fld x.w 18 5)
/-- J. -/
def execJ (core : CoreId) (w : Word) (s : State) : Res := jump core w 0 (fun x => x.ok [.pc (4 * fld x.w 0 15)]) s
/-- JAL. -/
def execJal (core : CoreId) (w : Word) (s : State) : Res := jump core w 1 (fun x => x.ok [.pc (4 * fld x.w 0 15), .link]) s
/-- JR: a target that is not word-aligned raises OPCODE. -/
def execJr (core : CoreId) (w : Word) (s : State) : Res := jump core w 2 (fun x => x.guard (jumpReg x % 4 == 0) [.pc (jumpReg x)]) s
/-- JALR. -/
def execJalr (core : CoreId) (w : Word) (s : State) : Res := jump core w 3 (fun x => x.guard (jumpReg x % 4 == 0) [.pc (jumpReg x), .link]) s

/-- A word of the loop format. -/
def isLoop (fn w : Nat) : Bool := wOp w == 0x08 && fld w 23 3 == fn
/-- BRL. -/
def execBrl (core : CoreId) (w : Word) (s : State) : Res :=
  issue core w (isLoop 0) .a noStall (fun x =>
    let rot := SWrite.reg .rrb ((x.c.rrb + 1) % 16 : Nat)
    x.guard (fld x.w 13 10 == 0)
      (if 1 < lcR x.c then [rot, .reg .lc (lcR x.c - 1 : Nat), .pc (relTarget x)] else [rot, .reg .lc 0])) s
/-- LCI. -/
def execLci (core : CoreId) (w : Word) (s : State) : Res := issue core w (isLoop 1) .a noStall (fun x => x.ok [.reg .lc (fld x.w 0 23 : Nat)]) s
/-- LCR. -/
def execLcr (core : CoreId) (w : Word) (s : State) : Res :=
  issue core w (isLoop 2) .a noStall (fun x => x.guard (fld x.w 0 18 == 0) [.reg .lc (jumpReg x : Nat)]) s
/-- ROT. -/
def execRot (core : CoreId) (w : Word) (s : State) : Res :=
  issue core w (isLoop 3) .a noStall (fun x => x.guard (fld x.w 0 23 == 0) [.reg .rrb ((x.c.rrb + 1) % 16 : Nat)]) s

/-! ### Loads and stores (R212, R213, R223, R253) -/

/-- Slot of a load by its opcode, and its number in the order X, Y, A. -/
def loadSlot (w : Nat) : Slot := if wOp w = 0x18 then .x else .y
def slotRank (w : Nat) : Nat := if wOp w = 0x18 then 0 else if wOp w = 0x19 then 1 else 2
/-- The word is a load, or a store, of a size. -/
def isLoad (sz w : Nat) : Bool := (wOp w == 0x18 || wOp w == 0x19) && fld w 14 3 == sz
def isStore (sz w : Nat) : Bool := wOp w == 0x09 && fld w 14 3 == sz
/-- OFF is 0 in modes POSTMOD and CIRC. -/
def modeOk (w : Nat) : Bool := fld w 12 2 < 2 || fld w 0 9 == 0

/-- What an access of `n` bytes raises: OPCODE for its fields; else a misaligned scalar access, and ACCESS for bytes outside the window, which
comes first (R241). -/
def memExcs (write aligned fields : Bool) (n : Nat) (x : Ctx) : List SExc :=
  let ea := memEa x.c x.w n
  if !modeOk x.w || !fields then [excOpcode x.w]
  else (if aligned && ea % n != 0 then [excMisaligned (slotRank x.w) ea] else []) ++
    (if inWindows (windows x.s x.n x.c) write ea n then [] else [excAccess ea])

/-- A load of `n` bytes: `aligned` for scalar ones; `f` makes the writes from the bytes. -/
def memLoad (n : Nat) (aligned fields : Bool) (f : Ctx → List Byte → List SWrite) (x : Ctx) : IRes :=
  let ea := memEa x.c x.w n
  let (l, s1) := dmemLoad x.n x.c ea n x.s
  let r : IRes := { s := s1, writes := f x l ++ memUpdate x.c x.w n, excs := if rangePoisoned x.s (coreAddr x.n + ea) n then [excData ea] else [] }
  match memExcs false aligned fields n x with
  | [] => r
  | l => { x.fail (excOpcode x.w) r with excs := l }

/-- A store of bytes. -/
def memPut (aligned fields : Bool) (l : List Byte) (x : Ctx) : IRes :=
  let n := l.length
  let ea := memEa x.c x.w n
  { s := x.s, writes := .mem ea l :: memUpdate x.c x.w n, excs := memExcs true aligned fields n x }

/-- A scalar load into DR. -/
def loadG (core : CoreId) (w : Word) (sz n : Nat) (f : Nat → Int) (s : State) : Res :=
  issue core w (isLoad sz) (loadSlot w.toNat) noStall (memLoad n true true fun x l => [wG x.c (wD x.w) (f (ofBytes l))]) s
/-- LD.B. -/
def execLdB (core : CoreId) (w : Word) (s : State) : Res := loadG core w 0 1 (toInt 8) s
/-- LD.BU. -/
def execLdBu (core : CoreId) (w : Word) (s : State) : Res := loadG core w 1 1 (fun v => v) s
/-- LD.H. -/
def execLdH (core : CoreId) (w : Word) (s : State) : Res := loadG core w 2 2 (toInt 16) s
/-- LD.HU. -/
def execLdHu (core : CoreId) (w : Word) (s : State) : Res := loadG core w 3 2 (fun v => v) s
/-- LD.W. -/
def execLdW (core : CoreId) (w : Word) (s : State) : Res := loadG core w 4 4 (fun v => v) s
/-- LD.D: 8 bytes into the pair DR, DR + 1. -/
def execLdD (core : CoreId) (w : Word) (s : State) : Res :=
  issue core w (isLoad 5) (loadSlot w.toNat) noStall (fun x =>
    memLoad 8 true (wD x.w % 2 == 0) (fun x l => [wG x.c (wD x.w) (fieldAt l 0 4 : Nat), wG x.c (wD x.w + 1) (fieldAt l 4 4 : Nat)]) x) s

/-- A scalar store of the low `n` bytes of DR. -/
def storeG (core : CoreId) (w : Word) (sz n : Nat) (s : State) : Res :=
  issue core w (isStore sz) .a noStall (fun x => memPut true true (toBytes n (gR x.c (wD x.w))) x) s
/-- ST.B. -/
def execStB (core : CoreId) (w : Word) (s : State) : Res := storeG core w 0 1 s
/-- ST.H. -/
def execStH (core : CoreId) (w : Word) (s : State) : Res := storeG core w 2 2 s
/-- ST.W. -/
def execStW (core : CoreId) (w : Word) (s : State) : Res := storeG core w 4 4 s
/-- ST.D from the pair. -/
def execStD (core : CoreId) (w : Word) (s : State) : Res :=
  issue core w (isStore 5) .a noStall (fun x =>
    memPut true (wD x.w % 2 == 0) (toBytes 4 (gR x.c (wD x.w)) ++ toBytes 4 (gR x.c (wD x.w + 1))) x) s

/-! ### Special registers and address arithmetic (R224) -/

/-- Cycles since the job started. -/
def cycleCount (x : Ctx) : Nat := (x.c.ticks + (now x.s - x.c.since) * rd x.s (kPdClkNow (x.n / 9))) * 25 / 49152
/-- STATUS with the claim flag (R272). -/
def statusWord (x : Ctx) : Nat := (x.c.status &&& 0xB) ||| (if holdsClaim x.s x.n then fCxf else 0)
/-- MODE. -/
def modeWord (x : Ctx) : Nat := b2n (inMaint x.s x.n) + 2 * b2n (vecOf x.s x.n).on
/-- What a read of a special register gives, and the latch it sets; none for a number not listed. -/
def readSpr (x : Ctx) (n : Nat) : Option (Nat × List SWrite) :=
  match n with
  | 0 => some (lcR x.c, [])
  | 1 => some (rrbR x.c, [])
  | 2 => some (statusWord x, [])
  | 3 => some (modeWord x, [])
  | 4 => some (cycleCount x % 2 ^ 32, [.cycleHi (cycleCount x / 2 ^ 32)])
  | 5 => some (x.c.cycleHi, [])
  | 6 => some ((now x.s - x.c.lastYield) / 64, [])
  | 7 => some (locCore x.n / 2 ^ 43, [])
  | 8 => some (now x.s % 2 ^ 32, [.dtcHi (now x.s / 2 ^ 32)])
  | 9 => some (x.c.dtcHi, [])
  | _ => none
/-- A word of the SPR format in a direction. -/
def isSpr (dir : Bool) (w : Nat) : Bool := wOp w == 0x0A && bitAt w 15 == dir
/-- MFS. -/
def execMfs (core : CoreId) (w : Word) (s : State) : Res :=
  issue core w (isSpr false) .a noStall (fun x =>
    if fld x.w 0 15 ≠ 0 then x.bad (excOpcode x.w)
    else match readSpr x (wS x.w) with
      | some (v, l) => x.ok (wG x.c (wD x.w) v :: l)
      | none => x.bad (excSpr x.w)) s
/-- MTS. -/
def execMts (core : CoreId) (w : Word) (s : State) : Res :=
  issue core w (isSpr true) .a noStall (fun x =>
    let v := gR x.c (wD x.w)
    if fld x.w 0 15 ≠ 0 then x.bad (excOpcode x.w)
    else match wS x.w with
      | 0 => x.ok [.reg .lc (v : Nat)]
      | 1 => x.ok [.reg .rrb (v % 16 : Nat)]
      | 2 => x.ok [.status v]
      | _ => x.bad (excSpr x.w)) s

/-- A word of the ADDR format. -/
def isAddr (fn w : Nat) : Bool := wOp w == 0x0B && fld w 23 3 == fn
/-- Its A register, M register (with [22] reserved) and G register. -/
def adA (w : Nat) : Nat := fld w 19 4
def adM (w : Nat) : Nat := fld w 19 3
def adG (w : Nat) : Nat := fld w 14 5
/-- ADDA. -/
def execAdda (core : CoreId) (w : Word) (s : State) : Res :=
  issue core w (isAddr 0) .a noStall (fun x => x.ok [wA (adA x.w) ((aR x.c (adA x.w) : Int) + wSigned x.w 0 14)]) s
/-- ADDAG. -/
def execAddag (core : CoreId) (w : Word) (s : State) : Res :=
  issue core w (isAddr 1) .a noStall (fun x => x.ok [wA (adA x.w) ((aR x.c (adA x.w) : Int) + gI x.c (adG x.w))]) s
/-- MGA: a := G. -/
def execMga (core : CoreId) (w : Word) (s : State) : Res :=
  issue core w (isAddr 2) .a noStall (fun x => x.ok [wA (adA x.w) (gR x.c (adG x.w))]) s
/-- MAG: G := a. -/
def execMag (core : CoreId) (w : Word) (s : State) : Res :=
  issue core w (isAddr 3) .a noStall (fun x => x.ok [wG x.c (adG x.w) (aR x.c (adA x.w))]) s
/-- MGM: m := G. -/
def execMgm (core : CoreId) (w : Word) (s : State) : Res :=
  issue core w (isAddr 4) .a noStall (fun x => x.guard (!bitAt x.w 22) [wM (adM x.w) (gR x.c (adG x.w))]) s
/-- MMG: G := m. -/
def execMmg (core : CoreId) (w : Word) (s : State) : Res :=
  issue core w (isAddr 5) .a noStall (fun x => x.guard (!bitAt x.w 22) [wG x.c (adG x.w) (mR x.c (adM x.w))]) s

/-! ### Multiply-accumulate and extraction (R225 to R227) -/

/-- A word of the MAC format. -/
def isMac (fn w : Nat) : Bool := wOp w == 0x0C && fld w 6 4 == fn
/-- ACC, S and T of the MAC format. -/
def macAcc (w : Nat) : Nat := fld w 24 2
def macS (w : Nat) : Nat := fld w 19 5
def macT (w : Nat) : Nat := fld w 14 5
/-- The half of a word that a bit selects, signed. -/
def halfOf (v : Nat) (high : Bool) : Int := toInt 16 (if high then v / 65536 else v)
/-- The product (R226). -/
def macProduct (x : Ctx) : Int :=
  let p := halfOf (gR x.c (macS x.w)) (bitAt x.w 13) * halfOf (gR x.c (macT x.w)) (bitAt x.w 12)
  if bitAt x.w 11 then 2 * p else p
/-- A MAC instruction that gives the accumulator an exact value. -/
def macUpdate (core : CoreId) (w : Word) (fn : Nat) (f : Int → Int → Int) (s : State) : Res :=
  issue core w (isMac fn) .m noStall (fun x =>
    let v := f (accR x.c (macAcc x.w)) (macProduct x)
    x.guard (!bitAt x.w 10 && fld x.w 0 6 == 0) (wAcc (macAcc x.w) (wrap40 v) :: flagIf (over40 v) fAov)) s
/-- MPY. -/
def execMpy (core : CoreId) (w : Word) (s : State) : Res := macUpdate core w 0 (fun _ p => p) s
/-- MAC. -/
def execMac (core : CoreId) (w : Word) (s : State) : Res := macUpdate core w 1 (fun a p => a + p) s
/-- MSU. -/
def execMsu (core : CoreId) (w : Word) (s : State) : Res := macUpdate core w 2 (fun a p => a - p) s
/-- CLRA: S, T, HS, HT and FRAC must be 0. -/
def execClra (core : CoreId) (w : Word) (s : State) : Res :=
  issue core w (isMac 3) .m noStall (fun x => x.guard (fld x.w 10 14 == 0 && fld x.w 0 6 == 0) [wAcc (macAcc x.w) 0]) s
/-- MTA: T, HS, HT and FRAC must be 0. -/
def execMta (core : CoreId) (w : Word) (s : State) : Res :=
  issue core w (isMac 4) .m noStall (fun x =>
    x.guard (fld x.w 10 9 == 0 && fld x.w 0 6 == 0) [wAcc (macAcc x.w) (gI x.c (macS x.w))]) s
/-- MTG: the guard bits. -/
def execMtg (core : CoreId) (w : Word) (s : State) : Res :=
  issue core w (isMac 5) .m noStall (fun x =>
    let low := ofInt 40 (accR x.c (macAcc x.w)) % 2 ^ 32
    x.guard (fld x.w 10 9 == 0 && fld x.w 0 6 == 0) [wAcc (macAcc x.w) (toInt 40 (low + 2 ^ 32 * (gR x.c (macS x.w) % 256)))]) s

/-- A word of the ACCX format; [9:0] are reserved. -/
def accx (core : CoreId) (w : Word) (fn : Nat) (f : Ctx → Int → Int × Bool) (s : State) : Res :=
  issue core w (fun v => wOp v == 0x0D && fld v 10 3 == fn) .a noStall (fun x =>
    let r := f x (accR x.c (fld x.w 19 2))
    x.guard (fld x.w 0 10 == 0) (wG x.c (wD x.w) r.1 :: flagIf r.2 fSat)) s
/-- EXTR. -/
def execExtr (core : CoreId) (w : Word) (s : State) : Res := accx core w 0 (fun x a => extr a (fld x.w 14 5) (bitAt x.w 13)) s
/-- MFA. -/
def execMfa (core : CoreId) (w : Word) (s : State) : Res := accx core w 1 (fun _ a => plain a) s
/-- MFG. -/
def execMfg (core : CoreId) (w : Word) (s : State) : Res := accx core w 2 (fun _ a => plain (toInt 8 (ofInt 40 a / 2 ^ 32))) s

/-! ### Transfers and control (R233 to R236) -/

/-- A word of the CTRL format. -/
def isCtrl (fn w : Nat) : Bool := wOp w == 0x00 && fld w 21 5 == fn
/-- [15:4] are reserved. -/
def ctrlOk (w : Nat) : Bool := fld w 4 12 == 0
/-- A tag is outstanding on the core. -/
def tagBusy (c : Core) (t : Nat) : Bool := c.xfers.any fun x => x.tag == t
/-- NOP. -/
def execNop (core : CoreId) (w : Word) (s : State) : Res := issue core w (isCtrl 0) .a noStall (fun x => x.guard (ctrlOk x.w) []) s
/-- YIELD: waits as XWAITALL first. -/
def execYield (core : CoreId) (w : Word) (s : State) : Res :=
  issue core w (isCtrl 1) .a (fun x => !x.c.xfers.isEmpty) (fun x => x.guard (ctrlOk x.w) [.yield]) s
/-- END: waits as XWAITALL first; its writes to the host have been accepted (R157). -/
def execEnd (core : CoreId) (w : Word) (s : State) : Res :=
  issue core w (isCtrl 2) .a (fun x => !x.c.xfers.isEmpty || !jobWritesOver x.s x.c.gid x.c.num) (fun x => x.guard (ctrlOk x.w) [.finish]) s
/-- XWAIT. -/
def execXwait (core : CoreId) (w : Word) (s : State) : Res :=
  issue core w (isCtrl 3) .a (fun x => tagBusy x.c (fld x.w 0 4)) (fun x => x.guard (ctrlOk x.w) []) s
/-- XTEST. -/
def execXtest (core : CoreId) (w : Word) (s : State) : Res :=
  issue core w (isCtrl 4) .a noStall (fun x => x.guard (ctrlOk x.w) [wG x.c (wS x.w) (b2n (!tagBusy x.c (fld x.w 0 4)))]) s
/-- XWAITALL. -/
def execXwaitall (core : CoreId) (w : Word) (s : State) : Res :=
  issue core w (isCtrl 5) .a (fun x => !x.c.xfers.isEmpty) (fun x => x.guard (ctrlOk x.w) []) s

/-- The transfer an XFER word asks for, where it keeps every limit of R233. -/
def xferOf (x : Ctx) : Option Xfer :=
  let ofs := gR x.c (wD x.w)
  let loc := aR x.c (fld x.w 17 4)
  let len := gR x.c (fld x.w 12 5)
  let k := fld x.w 9 3
  let out := bitAt x.w 8
  match graphOf x.s x.c.gid with
  | none => none
  | some g => match (g.jobs.getD x.c.num {}).refs.find? fun r => r.1 == k with
    | none => none
    | some r =>
      let role := if out then r.2.1 != 0 else r.2.1 != 1
      if !pRefLocal (progRun x.s x.c.prog) k && role && ofs % 64 == 0 && loc % 64 == 0 && len % 64 == 0 && 64 ≤ len && len ≤ 65536 &&
          ofs + len ≤ (bufD g r.2.2).size && inWindows (windows x.s x.n x.c) (!out) loc len then
        some { tag := fld x.w 4 4, out := out, buf := r.2.2, ofs := ofs, loc := loc, len := len }
      else none
/-- XFER: stalls while its tag is outstanding. -/
def execXfer (core : CoreId) (w : Word) (s : State) : Res :=
  issue core w (fun v => wOp v == 0x0E) .a (fun x => tagBusy x.c (fld x.w 4 4)) (fun x =>
    if fld x.w 0 4 ≠ 0 then x.bad (excOpcode x.w)
    else match xferOf x with
      | some t => x.ok [.xfer t]
      | none => x.bad (excXfer (gR x.c (fld x.w 12 5)))) s

end Sys2Proof.Machine
end

