-- ==== Sys2Proof/Machine/Vector.lean ====
section
/-!
DEFINITION. The vector instructions of the Sage core (R247 to R263) and the wake of a gated vector unit (R268). A vector register is
a 128-bit number; lane 0 is its lowest bits.
-/
namespace Sys2Proof.Machine

/-! ### Lanes -/

/-- Lane width in bits of a W value (Table 7-1). -/
def laneBits (W : Nat) : Nat := 8 * 2 ^ W
/-- Lanes of a register, unsigned and signed. -/
def lanesU (b v : Nat) : List Nat := (upto (128 / b)).map fun i => fld v (b * i) b
def lanesI (b v : Nat) : List Int := (lanesU b v).map (toInt b)
/-- A register from its lanes, each reduced to the lane width. -/
def ofLanes (b : Nat) (l : List Int) : Nat := l.foldr (fun x r => ofInt b x + 2 ^ b * r) 0
/-- Lane results with their saturation. -/
def packSat (b : Nat) (l : List (Int × Bool)) : Nat × Bool := (ofLanes b (l.map (·.1)), l.any (·.2))
/-- Lane by lane over signed, or unsigned, lanes of two registers. -/
def laneI2 (f : Nat → Int → Int → Int × Bool) (b s t : Nat) : Nat × Bool := packSat b (List.zipWith (f b) (lanesI b s) (lanesI b t))
def laneU2 (f : Nat → Nat → Nat → Int × Bool) (b s t : Nat) : Nat × Bool := packSat b (List.zipWith (f b) (lanesU b s) (lanesU b t))
/-- Lane by lane over signed lanes of one register. -/
def laneI1 (f : Nat → Int → Int × Bool) (b s : Nat) : Nat × Bool := packSat b ((lanesI b s).map (f b))
/-- All ones where a condition holds. -/
def maskIf (c : Bool) : Int × Bool := plain (if c then -1 else 0)

/-! ### Issue -/

/-- A vector instruction issues: a gated unit has woken; the idle count starts again, held at 0 until the next yield point (R267 to R269). -/
def vecIssue (n : Nat) (s : State) : State :=
  let s1 := modVec n (fun v => { v with idleFrom := now s }) (modCore n (fun c => { c with vUsed := true }) s)
  if (vecOf s n).on then s1 else bumpBy 32 (kClVwakes (n / 9) (n % 9)) 1 (modVec n (fun v => { v with on := true }) s1)

/-- A vector instruction: a program without USES_VECTOR, or a field not admitted, raises OPCODE (R250, R252, R255). -/
def vec (core : CoreId) (w : Word) (isWord : Nat → Bool) (slot : Slot) (fields : Ctx → Bool) (f : Ctx → IRes) (s : State) : Res :=
  issue core w isWord slot noStall (fun x =>
    if usesVector x.s x.c && fields x then
      let r := f x
      { r with s := if r.excs.isEmpty then vecIssue x.n r.s else r.s }
    else x.fail (excOpcode x.w) (f x)) s

/-- W and G of format VR. -/
def vrW (w : Nat) : Nat := fld w 9 2
def vrG (w : Nat) : Nat := fld w 7 2
/-- Registers of a group: its first is a multiple of its size (R248). -/
def groupOk (w : Nat) (r : List Nat) : Bool := vrG w < 3 && r.all fun n => n % 2 ^ vrG w == 0
/-- Fields of a VR word: W listed, bit 6 clear, groups well named. -/
def vrOk (ws : List Nat) (regs : List Nat) (w : Nat) : Bool := ws.contains (vrW w) && !bitAt w 6 && groupOk w regs
/-- D + i := f of lane width and registers D + i, S + i, T + i, for the registers of the group; VSAT where a lane saturated. -/
def Ctx.group (x : Ctx) (t : Nat) (f : Nat → Nat → Nat → Nat → Nat × Bool) : IRes :=
  let r := (upto (2 ^ vrG x.w)).map fun i =>
    (i, f (laneBits (vrW x.w)) (vR x.c (wD x.w + i)) (vR x.c (wS x.w + i)) (vR x.c ((t + i) % 32)))
  x.ok ((r.map fun e => wV x.c (wD x.w + e.1) e.2.1) ++ flagIf (r.any fun e => e.2.2) fVsat)

/-- A form on 0x10 with two source registers; with one, whose T must be 0. -/
def vr2 (core : CoreId) (w : Word) (fn : Nat) (ws : List Nat) (f : Nat → Nat → Nat → Nat → Nat × Bool) (s : State) : Res :=
  vec core w (isOpFn 0x10 fn) .m (fun x => vrOk ws [wD x.w, wS x.w, wT x.w] x.w) (fun x => x.group (wT x.w) f) s
def vr1 (core : CoreId) (w : Word) (fn : Nat) (ws : List Nat) (f : Nat → Nat → Nat × Bool) (s : State) : Res :=
  vec core w (isOpFn 0x10 fn) .m (fun x => wT x.w == 0 && vrOk ws [wD x.w, wS x.w] x.w) (fun x => x.group 0 fun b _ a _ => f b a) s
/-- A form on 0x11: the amount is IMM5. -/
def vrImm (core : CoreId) (w : Word) (fn : Nat) (ws : List Nat) (f : Nat → Nat → Nat → Nat × Bool) (s : State) : Res :=
  vec core w (isOpFn 0x11 fn) .m (fun x => vrOk ws [wD x.w, wS x.w] x.w) (fun x => x.group 0 fun b _ a _ => f (wT x.w) b a) s

/-! ### Arithmetic and logic (R256) -/

/-- VADD. -/
def execVadd (core : CoreId) (w : Word) (s : State) : Res := vr2 core w 0x00 [0, 1, 2] (fun b _ => laneI2 (fun _ x y => plain (x + y)) b) s
/-- VSUB. -/
def execVsub (core : CoreId) (w : Word) (s : State) : Res := vr2 core w 0x01 [0, 1, 2] (fun b _ => laneI2 (fun _ x y => plain (x - y)) b) s
/-- VADDS. -/
def execVadds (core : CoreId) (w : Word) (s : State) : Res := vr2 core w 0x02 [0, 1, 2] (fun b _ => laneI2 (fun b x y => satS b (x + y)) b) s
/-- VSUBS. -/
def execVsubs (core : CoreId) (w : Word) (s : State) : Res := vr2 core w 0x03 [0, 1, 2] (fun b _ => laneI2 (fun b x y => satS b (x - y)) b) s
/-- VADDUS. -/
def execVaddus (core : CoreId) (w : Word) (s : State) : Res :=
  vr2 core w 0x04 [0, 1] (fun b _ => laneU2 (fun b x y => satU b ((x : Int) + y)) b) s
/-- VSUBUS. -/
def execVsubus (core : CoreId) (w : Word) (s : State) : Res :=
  vr2 core w 0x05 [0, 1] (fun b _ => laneU2 (fun b x y => satU b ((x : Int) - y)) b) s
/-- VAVGR. -/
def execVavgr (core : CoreId) (w : Word) (s : State) : Res :=
  vr2 core w 0x06 [0, 1, 2] (fun b _ => laneI2 (fun _ x y => plain (roundShift (x + y) 1)) b) s
/-- VNEGS. -/
def execVnegs (core : CoreId) (w : Word) (s : State) : Res := vr1 core w 0x07 [1, 2] (laneI1 fun b x => satS b (-x)) s
/-- VABSS. -/
def execVabss (core : CoreId) (w : Word) (s : State) : Res := vr1 core w 0x08 [1, 2] (laneI1 fun b x => satS b (if x < 0 then -x else x)) s
/-- VMIN. -/
def execVmin (core : CoreId) (w : Word) (s : State) : Res := vr2 core w 0x09 [0, 1, 2] (fun b _ => laneI2 (fun _ x y => plain (min x y)) b) s
/-- VMAX. -/
def execVmax (core : CoreId) (w : Word) (s : State) : Res := vr2 core w 0x0A [0, 1, 2] (fun b _ => laneI2 (fun _ x y => plain (max x y)) b) s
/-- VMINU. -/
def execVminu (core : CoreId) (w : Word) (s : State) : Res :=
  vr2 core w 0x0B [0, 1, 2] (fun b _ => laneU2 (fun _ x y => plain (min x y : Nat)) b) s
/-- VMAXU. -/
def execVmaxu (core : CoreId) (w : Word) (s : State) : Res :=
  vr2 core w 0x0C [0, 1, 2] (fun b _ => laneU2 (fun _ x y => plain (max x y : Nat)) b) s
/-- VAND. -/
def execVand (core : CoreId) (w : Word) (s : State) : Res := vr2 core w 0x0D [0] (fun _ _ x y => (x &&& y, false)) s
/-- VOR. -/
def execVor (core : CoreId) (w : Word) (s : State) : Res := vr2 core w 0x0E [0] (fun _ _ x y => (x ||| y, false)) s
/-- VXOR. -/
def execVxor (core : CoreId) (w : Word) (s : State) : Res := vr2 core w 0x0F [0] (fun _ _ x y => (x ^^^ y, false)) s
/-- VANDN: S and not T. -/
def execVandn (core : CoreId) (w : Word) (s : State) : Res := vr2 core w 0x10 [0] (fun _ _ x y => (x &&& (2 ^ 128 - 1 - y), false)) s
/-- VCMPEQ. -/
def execVcmpeq (core : CoreId) (w : Word) (s : State) : Res := vr2 core w 0x11 [0, 1, 2] (fun b _ => laneU2 (fun _ x y => maskIf (x == y)) b) s
/-- VCMPGT. -/
def execVcmpgt (core : CoreId) (w : Word) (s : State) : Res := vr2 core w 0x12 [0, 1, 2] (fun b _ => laneI2 (fun _ x y => maskIf (y < x)) b) s
/-- VCMPGTU. -/
def execVcmpgtu (core : CoreId) (w : Word) (s : State) : Res := vr2 core w 0x13 [0, 1, 2] (fun b _ => laneU2 (fun _ x y => maskIf (y < x)) b) s
/-- VSEL: D is the mask. -/
def execVsel (core : CoreId) (w : Word) (s : State) : Res :=
  vr2 core w 0x14 [0] (fun _ d x y => ((x &&& d) ||| (y &&& (2 ^ 128 - 1 - d)), false)) s
/-- VMULR: the Q15 product. -/
def execVmulr (core : CoreId) (w : Word) (s : State) : Res :=
  vr2 core w 0x18 [1] (fun b _ => laneI2 (fun b x y => satS b (roundShift (x * y) 15)) b) s

/-- The complex elements of a register: (I, Q). -/
def complexOf (v : Nat) : List (Int × Int) := (upto 4).map fun k => (toInt 16 (fld v (32 * k) 16), toInt 16 (fld v (32 * k + 16) 16))
/-- Exact complex product of two elements, or with the conjugate of the second. -/
def cmul (conj : Bool) (x y : Int × Int) : Int × Int :=
  if conj then (x.1 * y.1 + x.2 * y.2, x.2 * y.1 - x.1 * y.2) else (x.1 * y.1 - x.2 * y.2, x.1 * y.2 + x.2 * y.1)
/-- Exact products of the elements of two registers, halfword by halfword. -/
def cmulLanes (conj : Bool) (a b : Nat) : List Int :=
  (List.zipWith (cmul conj) (complexOf a) (complexOf b)).flatMap fun p => [p.1, p.2]
/-- Complex Q15 products of two registers. -/
def cmulR (conj : Bool) (a b : Nat) : Nat × Bool := packSat 16 ((cmulLanes conj a b).map fun p => satS 16 (roundShift p 15))
/-- VCMULR. -/
def execVcmulr (core : CoreId) (w : Word) (s : State) : Res := vr2 core w 0x19 [1] (fun _ _ => cmulR false) s
/-- VCMULRJ. -/
def execVcmulrj (core : CoreId) (w : Word) (s : State) : Res := vr2 core w 0x1A [1] (fun _ _ => cmulR true) s
/-- VCONJS. -/
def execVconjs (core : CoreId) (w : Word) (s : State) : Res :=
  vr1 core w 0x1B [1] (fun b v => packSat b (List.zipWith (fun i x => if i % 2 = 1 then satS 16 (-x) else plain x) (upto 8) (lanesI b v))) s
/-- VMULL. -/
def execVmull (core : CoreId) (w : Word) (s : State) : Res := vr2 core w 0x1C [1] (fun b _ => laneI2 (fun _ x y => plain (x * y)) b) s

/-! ### Shift, pack and unpack (R257) -/

/-- VSLL. -/
def execVsll (core : CoreId) (w : Word) (s : State) : Res := vrImm core w 0x00 [0, 1, 2] (fun k => laneI1 fun _ x => plain (x * 2 ^ k)) s
/-- VSRL. -/
def execVsrl (core : CoreId) (w : Word) (s : State) : Res :=
  vrImm core w 0x01 [0, 1, 2] (fun k b a => (ofLanes b ((lanesU b a).map fun x => ((x / 2 ^ k : Nat) : Int)), false)) s
/-- VSRA. -/
def execVsra (core : CoreId) (w : Word) (s : State) : Res := vrImm core w 0x02 [0, 1, 2] (fun k => laneI1 fun _ x => plain (x / 2 ^ k)) s
/-- VSRAR: rounded; an amount of at least the lane width gives sign bits (R257). -/
def execVsrar (core : CoreId) (w : Word) (s : State) : Res :=
  vrImm core w 0x03 [0, 1, 2] (fun k => laneI1 fun b x => plain (if b ≤ k then x / 2 ^ k else roundShift x k)) s
/-- VSLLS. -/
def execVslls (core : CoreId) (w : Word) (s : State) : Res := vrImm core w 0x04 [1, 2] (fun k => laneI1 fun b x => satS b (x * 2 ^ k)) s

/-- A pack: lanes of S, then of T, rounded right by IMM5 and saturated to half width. Format VR gives the form no field for T beside
IMM5: its register is one the manual leaves open (log 27). -/
def vpack (core : CoreId) (w : Word) (fn : Nat) (sat : Nat → Int → Int × Bool) (s : State) : Res :=
  vec core w (isOpFn 0x11 fn) .m (fun x => vrOk [1, 2] [wD x.w, wS x.w] x.w) (fun x =>
    let (k, s1) := draw x.s
    let half := fun b v => (lanesI b v).map fun l => sat (b / 2) (roundShift l (wT x.w))
    let r := x.group (Config.freeValue k % 32) fun b _ a t => packSat (b / 2) (half b a ++ half b t)
    { r with s := s1 }) s
/-- VPACKR. -/
def execVpackr (core : CoreId) (w : Word) (s : State) : Res := vpack core w 0x08 satS s
/-- VPACKRU. -/
def execVpackru (core : CoreId) (w : Word) (s : State) : Res := vpack core w 0x09 satU s

/-- An unpack of half the lanes, sign-extended to double width. -/
def vunpk (core : CoreId) (w : Word) (fn : Nat) (upper : Bool) (s : State) : Res :=
  vec core w (isOpFn 0x11 fn) .m (fun x => wT x.w == 0 && vrOk [0, 1] [wD x.w, wS x.w] x.w)
    (fun x => x.group 0 fun b _ a _ =>
      let l := lanesI b a
      (ofLanes (2 * b) (if upper then l.drop (l.length / 2) else l.take (l.length / 2)), false)) s
/-- VUNPKL. -/
def execVunpkl (core : CoreId) (w : Word) (s : State) : Res := vunpk core w 0x0A false s
/-- VUNPKH. -/
def execVunpkh (core : CoreId) (w : Word) (s : State) : Res := vunpk core w 0x0B true s

/-! ### Multiply-accumulate and accumulator transfers (R258, R259) -/

/-- A word of the VM format; its fields. -/
def isVm (fn w : Nat) : Bool := wOp w == 0x12 && fld w 6 4 == fn
def vmAcc (w : Nat) : Nat := fld w 24 2
def vmReserved (w : Nat) : Bool := fld w 12 2 == 0 && !bitAt w 10 && fld w 0 6 == 0
/-- Exact products of S and T by lane of the accumulator, doubled with FRAC. -/
def vmProducts (x : Ctx) (prod : Nat → Nat → List Int) : List Int :=
  (prod (vR x.c (fld x.w 19 5)) (vR x.c (fld x.w 14 5))).map fun p => if bitAt x.w 11 then 2 * p else p
/-- A multiply-accumulate: each lane gets an exact value from its own and the product. -/
def vmUpdate (core : CoreId) (w : Word) (fn : Nat) (prod : Nat → Nat → List Int) (f : Int → Int → Int) (s : State) : Res :=
  vec core w (isVm fn) .m (fun x => vmReserved x.w) (fun x =>
    let l := List.zipWith f (vaccR x.c (vmAcc x.w)) (vmProducts x prod)
    x.ok (.vacc (vmAcc x.w) (l.map wrap40) :: flagIf (l.any over40) fAov)) s
/-- Products halfword by halfword. -/
def realProd (a b : Nat) : List Int := List.zipWith (· * ·) (lanesI 16 a) (lanesI 16 b)
/-- VMPY. -/
def execVmpy (core : CoreId) (w : Word) (s : State) : Res := vmUpdate core w 0 realProd (fun _ p => p) s
/-- VMAC. -/
def execVmac (core : CoreId) (w : Word) (s : State) : Res := vmUpdate core w 1 realProd (fun a p => a + p) s
/-- VMSU. -/
def execVmsu (core : CoreId) (w : Word) (s : State) : Res := vmUpdate core w 2 realProd (fun a p => a - p) s
/-- VCLRA: S, T and FRAC at 0. -/
def execVclra (core : CoreId) (w : Word) (s : State) : Res :=
  vec core w (isVm 3) .m (fun x => vmReserved x.w && fld x.w 14 10 == 0 && !bitAt x.w 11)
    (fun x => x.ok [.vacc (vmAcc x.w) (List.replicate 8 0)]) s
/-- VCMPY. -/
def execVcmpy (core : CoreId) (w : Word) (s : State) : Res := vmUpdate core w 4 (cmulLanes false) (fun _ p => p) s
/-- VCMAC. -/
def execVcmac (core : CoreId) (w : Word) (s : State) : Res := vmUpdate core w 5 (cmulLanes false) (fun a p => a + p) s
/-- VCMSU. -/
def execVcmsu (core : CoreId) (w : Word) (s : State) : Res := vmUpdate core w 6 (cmulLanes false) (fun a p => a - p) s
/-- VCMPYJ. -/
def execVcmpyj (core : CoreId) (w : Word) (s : State) : Res := vmUpdate core w 7 (cmulLanes true) (fun _ p => p) s
/-- VCMACJ. -/
def execVcmacj (core : CoreId) (w : Word) (s : State) : Res := vmUpdate core w 8 (cmulLanes true) (fun a p => a + p) s

/-- A word of the VX format; its accumulator. -/
def isVx (fn w : Nat) : Bool := wOp w == 0x13 && fld w 10 3 == fn
def vxAcc (w : Nat) : Nat := fld w 19 2
/-- Eight 32-bit lanes into the pair D. -/
def wPair32 (x : Ctx) (l : List Int) : List SWrite :=
  [wV x.c (wD x.w) (ofLanes 32 (l.take 4)), wV x.c (wD x.w + 1) (ofLanes 32 (l.drop 4))]
/-- VEXTR. -/
def execVextr (core : CoreId) (w : Word) (s : State) : Res :=
  vec core w (isVx 0) .m (fun x => fld x.w 0 10 == 0 && (!bitAt x.w 13 || wD x.w % 2 == 0)) (fun x =>
    let r := (vaccR x.c (vxAcc x.w)).map fun a => extr a (fld x.w 14 5) (bitAt x.w 13)
    let l := r.map (·.1)
    x.ok ((if bitAt x.w 13 then wPair32 x l else [wV x.c (wD x.w) (ofLanes 16 l)]) ++ flagIf (r.any (·.2)) fVsat)) s
/-- VMTA. -/
def execVmta (core : CoreId) (w : Word) (s : State) : Res :=
  vec core w (isVx 1) .m (fun x => fld x.w 0 10 == 0 && fld x.w 13 6 == 0 && wD x.w % 2 == 0) (fun x =>
    x.ok [.vacc (vxAcc x.w) (lanesI 32 (vR x.c (wD x.w)) ++ lanesI 32 (vR x.c (wD x.w + 1)))]) s
/-- VMFA. -/
def execVmfa (core : CoreId) (w : Word) (s : State) : Res :=
  vec core w (isVx 2) .m (fun x => fld x.w 0 10 == 0 && fld x.w 13 6 == 0 && wD x.w % 2 == 0) (fun x =>
    x.ok (wPair32 x (vaccR x.c (vxAcc x.w)))) s

/-! ### Permutes (R260) -/

/-- A permute of S and T. -/
def permute (core : CoreId) (w : Word) (fn : Nat) (fields : Nat → Bool) (f : Ctx → Nat → Nat → Nat) (s : State) : Res :=
  vec core w (isOpFn 0x14 fn) .m (fun x => fields x.w) (fun x => x.ok [wV x.c (wD x.w) (f x (vR x.c (wS x.w)) (vR x.c (wT x.w)))]) s
/-- {T:S}, S at the low bytes. -/
def joined (a t : Nat) : Nat := a + 2 ^ 128 * t
/-- A register from natural lanes. -/
def ofLanesU (b : Nat) (l : List Nat) : Nat := l.foldr (fun x r => x % 2 ^ b + 2 ^ b * r) 0
/-- VPERM.B. -/
def execVpermB (core : CoreId) (w : Word) (s : State) : Res :=
  permute core w 0x00 (fun _ => true) (fun x a t =>
    ofLanesU 8 ((lanesU 8 (vR x.c (wMid x.w))).map fun c => if bitAt c 7 then 0 else fld (joined a t) (8 * (c % 32)) 8)) s
/-- VALIGN: IMM5 above 16 raises OPCODE. -/
def execValign (core : CoreId) (w : Word) (s : State) : Res :=
  permute core w 0x01 (fun v => wMid v ≤ 16) (fun x a t => fld (joined a t) (8 * wMid x.w) 128) s
/-- Halfwords of S and T interleaved from lane `m` on. -/
def interleave (m a t : Nat) : Nat := ofLanesU 16 ((upto 4).flatMap fun i => [fld a (16 * (i + m)) 16, fld t (16 * (i + m)) 16])
/-- VILVL.H. -/
def execVilvlH (core : CoreId) (w : Word) (s : State) : Res := permute core w 0x02 (fun _ => true) (fun _ => interleave 0) s
/-- VILVH.H. -/
def execVilvhH (core : CoreId) (w : Word) (s : State) : Res := permute core w 0x03 (fun _ => true) (fun _ => interleave 4) s
/-- VDILVE.H. -/
def execVdilveH (core : CoreId) (w : Word) (s : State) : Res :=
  permute core w 0x04 (fun _ => true) (fun _ a t => ofLanesU 16 ((upto 8).map fun i => fld (joined a t) (32 * i) 16)) s
/-- VDILVO.H. -/
def execVdilvoH (core : CoreId) (w : Word) (s : State) : Res :=
  permute core w 0x05 (fun _ => true) (fun _ a t => ofLanesU 16 ((upto 8).map fun i => fld (joined a t) (32 * i + 16) 16)) s
/-- VREV.H: T must be 0. -/
def execVrevH (core : CoreId) (w : Word) (s : State) : Res :=
  permute core w 0x06 (fun v => wT v == 0) (fun _ a _ => ofLanesU 16 (lanesU 16 a).reverse) s
/-- VREV.W: T must be 0. -/
def execVrevW (core : CoreId) (w : Word) (s : State) : Res :=
  permute core w 0x07 (fun v => wT v == 0) (fun _ a _ => ofLanesU 32 (lanesU 32 a).reverse) s
/-- VSPLAT.H: the lane in IMM5[2:0]. -/
def execVsplatH (core : CoreId) (w : Word) (s : State) : Res :=
  permute core w 0x08 (fun v => wMid v < 8) (fun x a _ => ofLanesU 16 (List.replicate 8 (fld a (16 * wMid x.w) 16))) s
/-- VSPLAT.W: the lane in IMM5[1:0]. -/
def execVsplatW (core : CoreId) (w : Word) (s : State) : Res :=
  permute core w 0x09 (fun v => wMid v < 4) (fun x a _ => ofLanesU 32 (List.replicate 4 (fld a (32 * wMid x.w) 32))) s

/-! ### Vector–scalar transfers and searches (R261) -/

/-- A word of the VS format; LANE. -/
def isVs (fn w : Nat) : Bool := wOp w == 0x15 && fld w 0 5 == fn
def vsLane (w : Nat) : Nat := fld w 5 4
/-- A form of Table 7-9: W listed, LANE within its lanes, and further checks. -/
def vs (core : CoreId) (w : Word) (fn : Nat) (ws : List Nat) (more : Nat → Bool) (f : Ctx → Nat → IRes) (s : State) : Res :=
  vec core w (isVs fn) .m (fun x => ws.contains (vrW x.w) && vsLane x.w < 128 / laneBits (vrW x.w) && more x.w)
    (fun x => f x (laneBits (vrW x.w))) s
/-- VBCG. -/
def execVbcg (core : CoreId) (w : Word) (s : State) : Res :=
  vs core w 0x00 [0, 1, 2] (fun _ => true) (fun x b => x.ok [wV x.c (wD x.w) (ofLanesU b (List.replicate (128 / b) (gR x.c (wS x.w))))]) s
/-- VGETL. -/
def execVgetl (core : CoreId) (w : Word) (s : State) : Res :=
  vs core w 0x01 [0, 1, 2] (fun _ => true) (fun x b => x.ok [wG x.c (wD x.w) (toInt b (fld (vR x.c (wS x.w)) (b * vsLane x.w) b))]) s
/-- VGETLU. -/
def execVgetlu (core : CoreId) (w : Word) (s : State) : Res :=
  vs core w 0x02 [0, 1, 2] (fun _ => true) (fun x b => x.ok [wG x.c (wD x.w) (fld (vR x.c (wS x.w)) (b * vsLane x.w) b : Nat)]) s
/-- VSETL. -/
def execVsetl (core : CoreId) (w : Word) (s : State) : Res :=
  vs core w 0x03 [0, 1, 2] (fun _ => true) (fun x b =>
    x.ok [wV x.c (wD x.w) (setFld (vR x.c (wD x.w)) (b * vsLane x.w) b (gR x.c (wS x.w)))]) s

/-- VMAXI and VMINI: pair D keeps extremes and indices lane by lane. -/
def vsearch (core : CoreId) (w : Word) (fn : Nat) (better : Int → Int → Bool) (s : State) : Res :=
  vs core w fn [1, 2] (fun v => wD v % 2 == 0) (fun x b =>
    let a := lanesI b (vR x.c (wS x.w))
    let d := lanesI b (vR x.c (wD x.w))
    let k := lanesI b (vR x.c (wD x.w + 1))
    let take := List.zipWith better a d
    let idx : List Int := (upto a.length).map fun (i : Nat) => gI x.c (wT x.w) + (i : Int)
    let pick := fun (new old : List Int) => List.zipWith (fun t p => if t then p.1 else p.2) take (new.zip old)
    x.ok [wV x.c (wD x.w) (ofLanes b (pick a d)), wV x.c (wD x.w + 1) (ofLanes b (pick idx k))]) s
/-- VMAXI. -/
def execVmaxi (core : CoreId) (w : Word) (s : State) : Res := vsearch core w 0x04 (fun a d => d < a) s
/-- VMINI. -/
def execVmini (core : CoreId) (w : Word) (s : State) : Res := vsearch core w 0x05 (fun a d => a < d) s

/-- The best of (value, index) pairs: among equal values the lowest index. -/
def bestLane (better : Int → Int → Bool) (l : List (Int × Nat)) : Int × Nat :=
  match l with
  | [] => (0, 0)
  | p :: r => r.foldl (fun m e => if better e.1 m.1 || (e.1 == m.1 && e.2 < m.2) then e else m) p
/-- VRMAXI and VRMINI: the extreme lane goes sign-extended, its index zero-extended (log 28). -/
def vreduce (core : CoreId) (w : Word) (fn : Nat) (better : Int → Int → Bool) (s : State) : Res :=
  vs core w fn [1, 2] (fun v => wD v % 2 == 0 && wS v % 2 == 0) (fun x b =>
    let r := bestLane better ((lanesI b (vR x.c (wS x.w))).zip (lanesU b (vR x.c (wS x.w + 1))))
    x.ok [wG x.c (wD x.w) r.1, wG x.c (wD x.w + 1) r.2]) s
/-- VRMAXI. -/
def execVrmaxi (core : CoreId) (w : Word) (s : State) : Res := vreduce core w 0x06 (fun a d => d < a) s
/-- VRMINI. -/
def execVrmini (core : CoreId) (w : Word) (s : State) : Res := vreduce core w 0x07 (fun a d => a < d) s
/-- VRSUM. -/
def execVrsum (core : CoreId) (w : Word) (s : State) : Res :=
  vs core w 0x08 [1, 2] (fun _ => true) (fun x b =>
    let r := satS 32 ((lanesI b (vR x.c (wS x.w))).foldl (· + ·) 0)
    x.ok (wG x.c (wD x.w) r.1 :: flagIf r.2 fVsat)) s

/-! ### Maintenance-mode forms (R263) -/

/-- A form on 0x16: outside maintenance mode it raises MAINT, in a program without USES_VECTOR OPCODE as well. -/
def vmaint (core : CoreId) (w : Word) (fn W : Nat) (pair : Bool) (f : Ctx → Nat → Nat → List SWrite) (s : State) : Res :=
  issue core w (isOpFn 0x16 fn) .m noStall (fun x =>
    if !inMaint x.s x.n then
      { s := x.s, excs := excMaint x.w :: (if usesVector x.s x.c then [] else [excOpcode x.w]) }
    else if vrW x.w == W && vrG x.w == 0 && !bitAt x.w 6 && (!pair || wD x.w % 2 == 0) then
      { s := vecIssue x.n x.s, writes := f x (vR x.c (wS x.w)) (vR x.c (wT x.w)) }
    else x.bad (excOpcode x.w)) s
/-- Products of the lanes, signed or unsigned. -/
def mulLanes (signed : Bool) (b a t : Nat) : List Int :=
  if signed then List.zipWith (· * ·) (lanesI b a) (lanesI b t) else List.zipWith (fun x y => ((x * y : Nat) : Int)) (lanesU b a) (lanesU b t)
/-- Wide products into the pair D. -/
def vmulw (core : CoreId) (w : Word) (fn W : Nat) (signed : Bool) (s : State) : Res :=
  vmaint core w fn W true (fun x a t =>
    let b := laneBits W
    let l := mulLanes signed b a t
    [wV x.c (wD x.w) (ofLanes (2 * b) (l.take (l.length / 2))), wV x.c (wD x.w + 1) (ofLanes (2 * b) (l.drop (l.length / 2)))]) s
/-- VMULW.H. -/
def execVmulwH (core : CoreId) (w : Word) (s : State) : Res := vmulw core w 0x00 1 true s
/-- VMULWU.H. -/
def execVmulwuH (core : CoreId) (w : Word) (s : State) : Res := vmulw core w 0x01 1 false s
/-- VMULW.W. -/
def execVmulwW (core : CoreId) (w : Word) (s : State) : Res := vmulw core w 0x02 2 true s
/-- VMULWU.W. -/
def execVmulwuW (core : CoreId) (w : Word) (s : State) : Res := vmulw core w 0x03 2 false s
/-- Two sums of products, one of each half of the lanes. -/
def dotSums (b a t : Nat) : List Int :=
  let l := mulLanes true b a t
  [(l.take (l.length / 2)).foldl (· + ·) 0, (l.drop (l.length / 2)).foldl (· + ·) 0]
/-- VDOT.H. -/
def execVdotH (core : CoreId) (w : Word) (s : State) : Res :=
  vmaint core w 0x04 1 false (fun x a t => [wV x.c (wD x.w) (ofLanes 64 (dotSums 16 a t))]) s
/-- VDOT.W. -/
def execVdotW (core : CoreId) (w : Word) (s : State) : Res :=
  vmaint core w 0x05 2 false (fun x a t => [wV x.c (wD x.w) (ofLanes 64 (dotSums 32 a t))]) s
/-- VDOTA.H. -/
def execVdotaH (core : CoreId) (w : Word) (s : State) : Res :=
  vmaint core w 0x06 1 false (fun x a t =>
    [wV x.c (wD x.w) (ofLanes 64 (List.zipWith (· + ·) (dotSums 16 a t) (lanesI 64 (vR x.c (wD x.w)))))]) s

/-! ### Vector loads and stores (R253) -/

/-- VECTOR_LOAD_16. -/
def execVectorLoad16 (core : CoreId) (w : Word) (s : State) : Res :=
  vec core w (isLoad 6) (loadSlot w.toNat) (fun _ => true) (memLoad 16 false true fun x l => [wV x.c (wD x.w) (ofBytes l)]) s
/-- VECTOR_LOAD_32: an odd DR raises OPCODE. -/
def execVectorLoad32 (core : CoreId) (w : Word) (s : State) : Res :=
  vec core w (isLoad 7) (loadSlot w.toNat) (fun x => wD x.w % 2 == 0) (memLoad 32 false true fun x l =>
    [wV x.c (wD x.w) (ofBytes (l.take 16)), wV x.c (wD x.w + 1) (ofBytes (l.drop 16))]) s
/-- VECTOR_STORE_16. -/
def execVectorStore16 (core : CoreId) (w : Word) (s : State) : Res :=
  vec core w (isStore 6) .a (fun _ => true) (fun x => memPut false true (toBytes 16 (vR x.c (wD x.w))) x) s
/-- VECTOR_STORE_32. -/
def execVectorStore32 (core : CoreId) (w : Word) (s : State) : Res :=
  vec core w (isStore 7) .a (fun x => wD x.w % 2 == 0) (fun x =>
    memPut false true (toBytes 16 (vR x.c (wD x.w)) ++ toBytes 16 (vR x.c (wD x.w + 1))) x) s

end Sys2Proof.Machine
end

