-- ==== Sys2Proof/Machine/Cmc.lean ====
section
/-!
DEFINITION. The cluster math coprocessor's instructions (R277 to R282). Where the manual gives an error bound, the result is a free
value within it: the exact value is computed in integers and the bound widened by what the computation may be off (log 29).
-/
namespace Sys2Proof.Machine

/-! ### Integer mathematics -/

/-- Bits of a square root, most significant first: `r` is the root so far, `n` the radicand, `k` the bit. -/
def isqrtGo (n : Nat) : Nat → Nat → Nat
  | 0, r => r
  | k + 1, r =>
    let t := r + 2 ^ k
    if t * t ≤ n then isqrtGo n k t else isqrtGo n k r
/-- ⌊√n⌋. -/
def isqrt (n : Nat) : Nat := isqrtGo n (n.log2 / 2 + 1) 0
/-- ⌊p × 2^e ÷ q⌋. -/
def scaled (p q : Nat) (e : Int) : Nat := p * 2 ^ e.toNat / (q * 2 ^ (-e).toNat)
/-- ⌈p ÷ 2^k⌉ and ⌊p ÷ 2^k⌋. -/
def ceilShift (p : Int) (k : Nat) : Int := -(-p / 2 ^ k)

/-- A free number in [lo, hi]. -/
def within (lo hi : Int) (s : State) : Int × State :=
  let (k, s1) := draw s
  (lo + (Config.freeValue k % ((hi - lo).toNat + 1) : Nat), s1)
/-- A free element of a list. -/
def oneOf {α : Type} (l : List α) (d : α) (s : State) : α × State :=
  let (k, s1) := draw s
  (l.getD (Config.freeValue k % l.length) d, s1)

/-- Fraction bits of the working precision. -/
def prec : Nat := 80
/-- Binary digits of arg(x + jy) ÷ 2π: the sign of y is the next digit, squaring doubles the angle. -/
def turnDigits : Nat → Int → Int → Nat → Nat
  | 0, _, _, acc => acc
  | n + 1, x, y, acc =>
    let digit := b2n (decide (y < 0 ∨ (y = 0 ∧ x < 0)))
    let m := max x.natAbs y.natAbs
    let up := 2 * prec - min (2 * prec) m.log2
    let down := m.log2 - min (2 * prec) m.log2
    let nx := x * 2 ^ up / 2 ^ down
    let ny := y * 2 ^ up / 2 ^ down
    turnDigits n (nx * nx - ny * ny) (2 * nx * ny) (2 * acc + digit)
/-- atan2(y, x) in units of π, Q31, as an unsigned 32-bit turn, one LSB below or above at most. -/
def atanQ31 (x y : Int) : Nat := turnDigits 32 x y 0

/-- cos and sin of π ÷ 2^k, `prec` fraction bits: half angles from π. -/
def halfAngles : Nat → Int × Int → List (Int × Int)
  | 0, _ => []
  | n + 1, (c, d) =>
    let one : Int := 2 ^ prec
    let c1 : Int := isqrt (((one + c) * one / 2).toNat)
    let d1 : Int := isqrt (((one - c) * one / 2).toNat)
    let d2 : Int := if c = -one ∨ c = 0 then d1 else d * one / (2 * c1)
    (c1, d2) :: halfAngles n (c1, d2)
/-- e^(jπt ÷ 2^(bits − 1)) for t below 2^bits: the product over the set bits. -/
def expPi (bits t : Nat) : Int × Int :=
  let one : Int := 2 ^ prec
  let start : Int × Int := if bitAt t (bits - 1) then (-one, 0) else (one, 0)
  ((halfAngles (bits - 1) (-one, 0)).zip (upto (bits - 1))).foldl (fun z a =>
    if bitAt t (bits - 2 - a.2) then
      let p := cmul false z a.1
      (p.1 / one, p.2 / one)
    else z) start
/-- e^(jπT ÷ 2^31) for an unsigned 32-bit T. -/
def expJ (t : Nat) : Int × Int := expPi 32 t

/-- Digits after the point of log2 of a number in [1, 2) with `prec` fraction bits: squaring doubles the logarithm. -/
def logDigits : Nat → Nat → Nat → Nat
  | 0, _, acc => acc
  | n + 1, m, acc =>
    let q := m * m / 2 ^ prec
    if 2 ^ (prec + 1) ≤ q then logDigits n (q / 2) (2 * acc + 1) else logDigits n q (2 * acc)
/-- ⌊log2(S) × 2^24⌋ or one less. -/
def log2Q24 (v : Nat) : Nat := v.log2 * 2 ^ 24 + logDigits 24 (v * 2 ^ prec / 2 ^ v.log2) 0

/-- 2^(1/2), 2^(1/4), … with `prec` fraction bits. -/
def rootsOf2 : Nat → Nat → List Nat
  | 0, _ => []
  | n + 1, c =>
    let r := isqrt (c * 2 ^ prec)
    r :: rootsOf2 n r
/-- 2^(f ÷ 65,536) with `prec` fraction bits, f below 65,536. -/
def exp2Frac (f : Nat) : Nat :=
  ((rootsOf2 16 (2 * 2 ^ prec)).zip (upto 16)).foldl (fun z a => if bitAt f (15 - a.2) then z * a.1 / 2 ^ prec else z) (2 ^ prec)

/-! ### Issue (R250, R252, R277) -/

def isCx (fn w : Nat) : Bool := isOpFn 0x1C fn w
def isCxc (fn w : Nat) : Bool := isOpFn 0x1D fn w
/-- IDX. -/
def cxIdx (w : Nat) : Nat := fld w 7 4
/-- Which of D, S, T and IDX a form uses; the others must be 0. -/
structure CxUse where
  d : Bool := false
  pair : Bool := false
  s : Bool := false
  t : Bool := false
  idx : Bool := false
deriving DecidableEq, Repr
/-- Fields of a CX word. -/
def cxOk (u : CxUse) (w : Nat) : Bool :=
  !bitAt w 6 && (u.d || wD w == 0) && (!u.pair || wD w % 2 == 0) && (u.s || wS w == 0) && (u.t || wT w == 0) && (u.idx || cxIdx w == 0)

/-- Latency of an operation on 0x1C, cycles (Table 7-15). -/
def cxLatency (fn idx : Nat) : Nat :=
  if fn < 8 then [12, 10, 26, 26, 8, 8, 20, 20].getD fn 1
  else if fn = 0x12 then 15 * (idx % 4 + 1)
  else if fn = 0x13 then 30 * (idx % 4 + 1)
  else if 0x14 ≤ fn then 2
  else 1

/-- An operation of the coprocessor: OPCODE, then coprocessor not owned. -/
def cx (core : CoreId) (w : Word) (fn : Nat) (u : CxUse) (more : Nat → Bool) (f : Ctx → IRes) (s : State) : Res :=
  issue core w (isCx fn) .a noStall (fun x =>
    if !usesCmc x.s x.c || !cxOk u x.w || !more x.w then x.fail (excOpcode x.w) (f x)
    else if !holdsClaim x.s x.n then x.bad (excNotOwned x.w)
    else
      let r := f x
      { r with writes := r.writes ++ [.cmcPend (now x.s + cyclesToTc (cxLatency fn (cxIdx x.w)) (rd x.s (kPdClkNow (x.n / 9))))] }) s
/-- Flags of the coprocessor (Table 7-17). -/
def cmcFlagIf (b : Bool) (bit : Nat) : List SWrite := if b then [.cmcFlags (2 ^ bit)] else []
/-- Results of a pair form. -/
def wPair (x : Ctx) (d e : Int) : List SWrite := [wG x.c (wD x.w) d, wG x.c (wD x.w + 1) e]
/-- The complex Q15 number in g S. -/
def cxS (x : Ctx) : Int × Int := (toInt 16 (gR x.c (wS x.w)), toInt 16 (gR x.c (wS x.w) / 65536))
/-- A complex Q15 word. -/
def complexWord (re im : Int) : Int := ofInt 16 re + 65536 * ofInt 16 im

/-! ### Scalar functions (R278, R279) -/

/-- A free value within `slack` of |p ÷ q × 2^e|, at most 0x7FFF, with the sign of p. -/
def nearQ15 (p : Int) (q : Nat) (e : Int) (slack : Int) (s : State) : Int × State :=
  let m := scaled (p.natAbs * 65536) q e
  let (v, s1) := within (ceilShift m 16 - slack) (((m : Int) + 1) / 65536 + slack) s
  (clampI (-0x7FFF) 0x7FFF (if p < 0 then -v else v), s1)

/-- CX.CRECIP: the mantissa's larger component lies in 0x4000–0x7FFF, each component within 2 LSB. -/
def execCxCrecip (core : CoreId) (w : Word) (s : State) : Res :=
  cx core w 0x00 { d := true, pair := true, s := true } (fun _ => true) (fun x =>
    let (i, q) := cxS x
    let n := (i * i + q * q).natAbs
    if n = 0 then x.ok (wPair x 0x7FFF 127 ++ cmcFlagIf true 4)
    else
      let m := max i.natAbs q.natAbs
      let big := fun (e : Int) => scaled m n (30 - e)
      let fits := ((upto 64).map fun (k : Nat) => (k : Int) - 20).filter fun e => 0x4000 - 2 ≤ big e && big e ≤ 0x7FFF + 2
      let (e, s1) := oneOf fits 0 x.s
      let (d1, s2) := nearQ15 i n (30 - e) 2 s1
      let (d2, s3) := nearQ15 (-q) n (30 - e) 2 s2
      let low := max d1.natAbs d2.natAbs < 0x4000
      let a := if low && m == i.natAbs then (if i < 0 then -0x4000 else 0x4000) else d1
      let b := if low && m != i.natAbs then (if 0 < q then -0x4000 else 0x4000) else d2
      { s := s3, writes := wPair x (complexWord a b) e }) s

/-- CX.RSQRT: relative error at most 2^−28. -/
def execCxRsqrt (core : CoreId) (w : Word) (s : State) : Res :=
  cx core w 0x01 { d := true, pair := true, s := true } (fun _ => true) (fun x =>
    let v := gR x.c (wS x.w)
    if v = 0 then x.ok (wPair x 0x7FFFFFFF 127 ++ cmcFlagIf true 4)
    else
      let root := fun (e : Int) => isqrt (scaled 1 v (62 - 2 * e))
      let fits := ((upto 24).map fun (k : Nat) => (k : Int) - 20).filter fun e => 2 ^ 30 - 9 ≤ root e && root e ≤ 2 ^ 31 + 8
      let (e, s1) := oneOf fits 0 x.s
      let (d, s2) := within ((root e : Int) - 8) (root e + 9) s1
      { s := s2, writes := wPair x (clampI (2 ^ 30) (2 ^ 31 - 1) d) e }) s

/-- CX.ATAN2: angle within 2^−22 π, magnitude within 1. -/
def execCxAtan2 (core : CoreId) (w : Word) (s : State) : Res :=
  cx core w 0x02 { d := true, pair := true, s := true } (fun _ => true) (fun x =>
    let (i, q) := cxS x
    if i = 0 ∧ q = 0 then x.ok (wPair x 0 0)
    else
      let a := atanQ31 i q
      let r := isqrt (i * i + q * q).natAbs
      let (d, s1) := within ((a : Int) - 513) (a + 513) x.s
      let exact := r * r == (i * i + q * q).natAbs
      let (m, s2) := within ((r : Int) - (if exact then 1 else 0)) (r + 1) s1
      { s := s2, writes := wPair x d (clampI 0 46341 m) }) s

/-- CX.ROT: each component within 1 LSB, saturated. -/
def execCxRot (core : CoreId) (w : Word) (s : State) : Res :=
  cx core w 0x03 { d := true, s := true, t := true } (fun _ => true) (fun x =>
    let p := cmul false (cxS x) (expJ (gR x.c (wT x.w)))
    let comp := fun (v : Int) (t : State) => within (ceilShift (v - 2 ^ 30) prec - 1) ((v + 2 ^ 30) / 2 ^ prec + 1) t
    let (a, s1) := comp p.1 x.s
    let (b, s2) := comp p.2 s1
    { s := s2, writes := wG x.c (wD x.w) (complexWord (satS 16 a).1 (satS 16 b).1) :: cmcFlagIf ((satS 16 a).2 || (satS 16 b).2) 7 }) s

/-- CX.LOG2: within 2 LSB. -/
def execCxLog2 (core : CoreId) (w : Word) (s : State) : Res :=
  cx core w 0x04 { d := true, s := true } (fun _ => true) (fun x =>
    let v := gR x.c (wS x.w)
    if v = 0 then x.ok (wG x.c (wD x.w) (2 ^ 31) :: cmcFlagIf true 6)
    else
      let l : Int := log2Q24 v
      let (d, s1) := within (ceilShift l 8 - 2) ((l + 2) / 256 + 2) x.s
      { s := s1, writes := [wG x.c (wD x.w) d] }) s

/-- CX.EXP2: rounded, relative error at most 2^−20. -/
def execCxExp2 (core : CoreId) (w : Word) (s : State) : Res :=
  cx core w 0x05 { d := true, s := true } (fun _ => true) (fun x =>
    let v := gI x.c (wS x.w)
    if 16 * 65536 ≤ v then x.ok (wG x.c (wD x.w) (2 ^ 32 - 1) :: cmcFlagIf true 7)
    else
      let f := exp2Frac (v % 65536).toNat
      let y : Int := scaled f (2 ^ prec) (v / 65536 + 16 + 48)
      let (d, s1) := within (roundShift (y - y / 2 ^ 20 - 4) 48) (roundShift (y + y / 2 ^ 20 + 4) 48) x.s
      { s := s1, writes := [wG x.c (wD x.w) (clampI 0 (2 ^ 32 - 1) d)] }) s

/-- CX.DIV. -/
def execCxDiv (core : CoreId) (w : Word) (s : State) : Res :=
  cx core w 0x06 { d := true, pair := true, s := true, t := true } (fun _ => true) (fun x =>
    let a := gI x.c (wS x.w)
    let b := gI x.c (wT x.w)
    if b = 0 then x.ok (wPair x (if 0 ≤ a then 0x7FFFFFFF else 2 ^ 31) a ++ cmcFlagIf true 4)
    else if a = -2 ^ 31 ∧ b = -1 then x.ok (wPair x 0x7FFFFFFF 0 ++ cmcFlagIf true 7)
    else x.ok (wPair x (a.tdiv b) (a.tmod b))) s
/-- CX.DIVU. -/
def execCxDivu (core : CoreId) (w : Word) (s : State) : Res :=
  cx core w 0x07 { d := true, pair := true, s := true, t := true } (fun _ => true) (fun x =>
    let a := gR x.c (wS x.w)
    let b := gR x.c (wT x.w)
    if b = 0 then x.ok (wPair x (2 ^ 32 - 1) a ++ cmcFlagIf true 4)
    else x.ok (wPair x (a / b : Nat) (a % b : Nat))) s

/-! ### Matrices (R280) -/

/-- A matrix of Gaussian integers by rows, and its determinant by expansion along the first row. -/
abbrev CMat := List (List (Int × Int))
def det : Nat → CMat → Int × Int
  | 0, _ => (1, 0)
  | n + 1, m => match m with
    | [] => (1, 0)
    | r :: rest => ((upto (n + 1)).map fun j =>
        let p := cmul false (r.getD j (0, 0)) (det n (rest.map fun l => l.eraseIdx j))
        if j % 2 = 1 then (-p.1, -p.2) else p).foldl (fun a b => (a.1 + b.1, a.2 + b.2)) (0, 0)
/-- |z|². -/
def norm2 (z : Int × Int) : Nat := (z.1 * z.1 + z.2 * z.2).natAbs

/-- The Hermitian input matrix as integers, worth 2^(IN_EXP − 15) each: the upper triangle mirrors the lower, the diagonal is real. -/
def cmcMatrix (c : Cmc) (n : Nat) : CMat :=
  let el := fun r k =>
    let v := tget c.input (4 * r + k) 0
    (toInt 16 v, toInt 16 (v / 65536))
  (upto n).map fun r => (upto n).map fun k =>
    if r = k then ((el r k).1, 0) else if k < r then el r k else ((el k r).1, -(el k r).2)
/-- The leading k × k part with row k − 1 replaced by row `i`. -/
def leadingWith (m : CMat) (k i : Nat) : CMat := ((upto k).map fun r => (m.getD (if r + 1 = k then i else r) []).take k)
/-- Leading principal minor of order k. -/
def minorOf (m : CMat) (k : Nat) : Int := (det k (leadingWith m k (k - 1))).1
/-- The adjugate. -/
def adjugate (m : CMat) (n : Nat) : CMat :=
  (upto n).map fun i => (upto n).map fun j =>
    let p := det (n - 1) ((m.eraseIdx j).map fun l => l.eraseIdx i)
    if (i + j) % 2 = 1 then (-p.1, -p.2) else p
/-- The first row whose pivot is not positive, or N. -/
def firstBadPivot (m : CMat) (n : Nat) : Nat := ((upto n).find? fun k => minorOf m (k + 1) ≤ 0).getD n
/-- Σ |element|². -/
def frob2 (m : CMat) : Nat := (m.flatMap id).foldl (fun a z => a + norm2 z) 0
/-- A bound of the condition number, ‖A‖·‖A⁻¹‖ in Frobenius norms, is at most 1,024. -/
def wellConditioned (m : CMat) (n : Nat) : Bool := frob2 m * frob2 (adjugate m n) ≤ 2 ^ 20 * (minorOf m n).natAbs ^ 2

/-- A component of an exact result: its element, whether it is imaginary, whether Table 7-16 makes it 0, its sign, and its magnitude times
256 × 2^k rounded down. -/
structure Comp where
  el : Nat
  im : Bool
  nil : Bool
  neg : Bool
  mag : Int → Nat
/-- Components of the lower triangle of an exact matrix whose rows from `bad` on are 0. -/
def compsOf (n bad : Nat) (f : Nat → Nat → Int × Int) (mag : Nat → Nat → Nat → Int → Nat) : List Comp :=
  (upto n).flatMap fun r => (upto (r + 1)).flatMap fun k =>
    let z := f r k
    [{ el := 4 * r + k, im := false, nil := decide (bad ≤ r), neg := z.1 < 0, mag := mag r k z.1.natAbs },
     { el := 4 * r + k, im := true, nil := decide (bad ≤ r), neg := z.2 < 0, mag := mag r k z.2.natAbs }]
/-- L of rows before `bad`, for the integers worth 2^sc: m_rk ÷ √(Δ_k Δ_(k+1)). -/
def cholComps (m : CMat) (n bad : Nat) (sc : Int) : List Comp :=
  compsOf n bad (fun r k => if r < bad then det (k + 1) (leadingWith m (k + 1) r) else (0, 0)) fun _ k p j =>
    if p = 0 then 0 else isqrt (scaled (p * p) (minorOf m k * minorOf m (k + 1)).natAbs (16 + 2 * j + sc))
/-- The inverse: adjugate over determinant. -/
def invComps (m : CMat) (n bad : Nat) (sc : Int) : List Comp :=
  let adj := adjugate m n
  compsOf n (if bad < n then 0 else n) (fun r k => if bad < n then (0, 0) else (adj.getD r []).getD k (0, 0)) fun _ _ p j => scaled p (minorOf m n).natAbs (8 + j - sc)

/-- Puts components into the 16 elements of the workspace. -/
def putComp (l : List (Int × Int)) (c : Comp) (v : Int) : List (Int × Int) :=
  let z := l.getD c.el (0, 0)
  l.set c.el (if c.im then (z.1, v) else (v, z.2))

/-- The result workspace and OUT_EXP of an operation: within 4 LSB of the exact value where `bounded`, any values otherwise; the
largest component reads as 0x4000–0x7FFF unless all is 0; the rows that Table 7-16 makes 0 are 0. Elements outside the leading matrix are not stated. -/
def matrixResult (comps : List Comp) (bounded : Bool) (n : Nat) (s : State) : List (Int × Int) × Int × State :=
  let fill := (upto 16).foldl (fun (p : List (Int × Int) × State) e =>
    if e / 4 < n && e % 4 ≤ e / 4 then (p.1 ++ [(0, 0)], p.2)
    else
      let (a, s1) := within (-(2 ^ 23)) (2 ^ 23 - 1) p.2
      let (b, s2) := within (-(2 ^ 23)) (2 ^ 23 - 1) s1
      (p.1 ++ [(a, b)], s2)) (([], s) : List (Int × Int) × State)
  let top : Int := 0x7FFF * 256 + 127
  let zero := comps.all fun c => c.mag 200 == 0
  if zero then
    let (k, s1) := draw fill.2
    (fill.1, toInt 32 (Config.freeValue k), s1)
  else
    let rnd := fun (e : Int) (c : Comp) => (roundShift (c.mag (15 - e)) 8, roundShift ((c.mag (15 - e) : Int) + 1) 8)
    let largest := fun (e : Int) => comps.foldl (fun m c => max m (rnd e c).2) (0 : Int)
    let fits := ((upto 256).map fun (k : Nat) => (k : Int) - 128).filter fun e => 0x4000 - 4 ≤ largest e && largest e ≤ 0x7FFF + 5
    let (e, s1) := if bounded then oneOf fits 0 fill.2 else
      let (k, t) := draw fill.2
      (toInt 32 (Config.freeValue k), t)
    let step := fun (p : List (Int × Int) × State) (c : Comp) =>
      let (v, t) := if bounded then within (256 * ((rnd e c).1 - 4) - 128) (256 * ((rnd e c).2 + 4) + 128) p.2 else if c.nil then (0, p.2) else within (-top) top p.2
      (putComp p.1 c (clampI (-top) top (if bounded && c.neg then -v else v)), t)
    let r := comps.foldl step (fill.1, s1)
    let q15 := fun (z : Int × Int) => max (roundShift z.1 8).natAbs (roundShift z.2 8).natAbs
    let read := fun (l : List (Int × Int)) => comps.foldl (fun m c => max m (q15 (l.getD c.el (0, 0)))) 0
    if read r.1 < 0x4000 then
      match comps.find? fun c => !c.nil && (!bounded || decide (largest e ≤ (rnd e c).2)) with
      | some c => (putComp r.1 c (if c.neg then -(0x4000 * 256) else 0x4000 * 256), e, r.2)
      | none => (r.1, e, r.2)
    else (r.1, e, r.2)

/-- A matrix operation. -/
def matrixOp (core : CoreId) (w : Word) (fn st : Nat) (comps : CMat → Nat → Nat → Int → List Comp) (s : State) : Res :=
  cx core w fn { idx := true } (fun _ => true) (fun x =>
    let c := cmcOf x.s (x.n / 9)
    let n := cxIdx x.w % 4 + 1
    let m := cmcMatrix c n
    let bad := firstBadPivot m n
    let known := -32 ≤ c.inExp && c.inExp ≤ 31
    let sc := if known then c.inExp - 15 else 0
    let r := matrixResult (comps m n bad sc) (known && bad == n && wellConditioned m n) n x.s
    { s := r.2.2, writes := .cmcResult st (n - 1) r.1 r.2.1 :: cmcFlagIf (bad < n) 5 }) s
/-- CX.CHOL. -/
def execCxChol (core : CoreId) (w : Word) (s : State) : Res := matrixOp core w 0x12 2 cholComps s
/-- CX.MINV. -/
def execCxMinv (core : CoreId) (w : Word) (s : State) : Res := matrixOp core w 0x13 3 invComps s

/-- CX.MSCALE: a value outside −32 to +31 leaves IN_EXP at one the manual does not state. -/
def execCxMscale (core : CoreId) (w : Word) (s : State) : Res :=
  cx core w 0x10 { s := true } (fun _ => true) (fun x =>
    let v := gI x.c (wS x.w)
    if -32 ≤ v ∧ v ≤ 31 then x.ok [.cmcInExp v]
    else
      let (e, s1) := within (-32) 31 x.s
      { s := s1, writes := [.cmcInExp e] }) s
/-- IDX names an element of the lower triangle. -/
def lowerIdx (w : Nat) : Bool := cxIdx w % 4 ≤ cxIdx w / 4
/-- CX.MPUT. -/
def execCxMput (core : CoreId) (w : Word) (s : State) : Res :=
  cx core w 0x11 { s := true, idx := true } lowerIdx (fun x => x.ok [.cmcIn (cxIdx x.w) (gR x.c (wS x.w))]) s

/-- A component as CX.MGET gives it: rounded; beyond Q15, or of an image with altered PIVOTS, not stated. -/
def mgetComp (open_ : Bool) (v : Int) (s : State) : Int × State :=
  let r := roundShift v 8
  if open_ || r < -0x8000 || 0x7FFF < r then within (-0x8000) 0x7FFF s else (r, s)
/-- CX.MGET. -/
def execCxMget (core : CoreId) (w : Word) (s : State) : Res :=
  cx core w 0x14 { d := true, idx := true } lowerIdx (fun x =>
    let c := cmcOf x.s (x.n / 9)
    let z := c.result.getD (cxIdx x.w) (0, 0)
    let (a, s1) := mgetComp c.pivots.isSome z.1 x.s
    let (b, s2) := mgetComp c.pivots.isSome z.2 s1
    { s := s2, writes := [wG x.c (wD x.w) (complexWord a b)] }) s
/-- CX.MEXP. -/
def execCxMexp (core : CoreId) (w : Word) (s : State) : Res :=
  cx core w 0x15 { d := true } (fun _ => true) (fun x => x.ok [wG x.c (wD x.w) (cmcOf x.s (x.n / 9)).outExp]) s

/-! ### Claim, image and status (R272, R275, R281, R282) -/

/-- A form on 0x1D: [16:6] reserved, D and A only where used. -/
def cxc (core : CoreId) (w : Word) (fn : Nat) (useD useA : Bool) (f : Ctx → IRes) (s : State) : Res :=
  issue core w (isCxc fn) .a noStall (fun x =>
    if usesCmc x.s x.c && fld x.w 6 11 == 0 && (useD || wD x.w == 0) && (useA || fld x.w 17 4 == 0) then f x
    else x.fail (excOpcode x.w) (f x)) s
/-- CX.CLAIM. -/
def execCxClaim (core : CoreId) (w : Word) (s : State) : Res :=
  cxc core w 0x00 true false (fun x => x.ok [.claim (phys x.c.rrb (wD x.w))]) s
/-- CX.RELEASE. -/
def execCxRelease (core : CoreId) (w : Word) (s : State) : Res := cxc core w 0x01 false false (fun x => x.ok [.release]) s

/-- The CMC image (Table 7-18). -/
def cmcImage (c : Cmc) : List Byte :=
  let words := fun (l : List Nat) => l.flatMap (toBytes 4)
  let head := toBytes 4 0x0C01 ++ toBytes 4 (pack [(0, 5, c.flags / 16), (8, 2, c.mstate), (12, 2, c.nM1)]) ++
    toBytes 4 (ofInt 32 c.inExp) ++ toBytes 4 (ofInt 32 c.outExp)
  let body := padTo 0x3FC (padTo 0x40 head ++ words ((upto 16).map fun e => tget c.input e 0) ++
    words ((cmcResult16 c).flatMap fun z => [ofInt 32 z.1, ofInt 32 z.2]) ++ words (c.pivots.getD (cmcPivots c)))
  let sum := (upto 255).foldl (fun a i => a + fieldAt body (4 * i) 4) 0
  body ++ toBytes 4 (ofInt 32 (-(sum : Int)))
/-- FORMAT and CHECK of an image hold. -/
def cmcImageOk (l : List Byte) : Bool :=
  fieldAt l 0 2 == 0x0C01 && ((upto 256).foldl (fun a i => a + fieldAt l (4 * i) 4) 0) % 2 ^ 32 == 0

/-- A move of the image: address and window, then ownership. -/
def cmcMove (core : CoreId) (w : Word) (fn : Nat) (write : Bool) (f : Ctx → Nat → IRes) (s : State) : Res :=
  cxc core w fn false true (fun x =>
    let ea := aR x.c (fld x.w 17 4)
    if ea % 64 != 0 || !inWindows (windows x.s x.n x.c) write ea 1024 then x.bad (excAccess ea)
    else if !holdsClaim x.s x.n then x.bad (excNotOwned x.w)
    else f x ea) s
/-- CX.SAVE. -/
def execCxSave (core : CoreId) (w : Word) (s : State) : Res :=
  cmcMove core w 0x02 true (fun x ea => x.ok [.mem ea (cmcImage (cmcOf x.s (x.n / 9)))]) s
/-- CX.RESTORE: an image refused clears the state and sets IMG. -/
def execCxRestore (core : CoreId) (w : Word) (s : State) : Res :=
  cmcMove core w 0x03 false (fun x ea =>
    let (l, s1) := dmemLoad x.n x.c ea 1024 x.s
    { s := s1, writes := if cmcImageOk l then [.cmcLoad l] else [.cmcFresh, .cmcFlags (2 ^ 8)],
      excs := if rangePoisoned x.s (coreAddr x.n + ea) 1024 then [excData ea] else [] }) s
/-- The status word as core `n` reads it (Table 7-17). -/
def cmcStat (s : State) (n : Nat) : Nat :=
  let c := cmcOf s (n / 9)
  pack [(0, 1, b2n (holdsClaim s n)), (1, 1, b2n (cmcBusy c (n % 9))),
    (2, 1, b2n (decide (now s < (tget s.sage.cores n {}).pend))), (3, 1, b2n ((c.resv.map (·.1)) == some (n % 9))),
    (4, 5, c.flags / 16), (9, 4, c.holder.getD 0), (13, 1, b2n c.holder.isSome)]
/-- CX.STAT. -/
def execCxStat (core : CoreId) (w : Word) (s : State) : Res :=
  cxc core w 0x04 true false (fun x => x.ok [wG x.c (wD x.w) (cmcStat x.s x.n)]) s
/-- CX.CLRF: of a core that holds the claim (log 30). -/
def execCxClrf (core : CoreId) (w : Word) (s : State) : Res :=
  cxc core w 0x05 false false (fun x => x.ok (if holdsClaim x.s x.n then [.cmcClear] else [])) s

end Sys2Proof.Machine
end

