-- ==== Sys2Proof/Machine/Coding.lean ====
section
/-!
DEFINITION. The channel-coding engines (08_channel_coding.md): what a chunk of each opcode reads, writes and counts, the soft
buffers, and the coding objects. Decoded bits and iteration counts are free values within the rules; encoders are the standards'
(log 31).
-/
namespace Sys2Proof.Machine

/-! ### A chunk of an engine job -/

/-- What an engine works with: the engine, its run, the graph, the job and its parameter block. -/
structure Chunk where
  e : Nat
  run : Run
  g : Graph
  r : JobRt
  b : Nat

/-- The job descriptor; the buffer behind a reference; group and class of the engine. -/
def Chunk.d (x : Chunk) : JobD := x.g.jobs.getD x.r.p.num {}
def Chunk.buf (x : Chunk) (k : Nat) : Nat := ((x.d.refs.find? fun r => r.1 == k).map (·.2.2)).getD 0
def Chunk.used (x : Chunk) (k : Nat) : Bool := x.d.refs.any fun r => r.1 == k
def Chunk.grp (x : Chunk) : Nat := x.e / 15
/-- Quanta of the chunk. -/
def Chunk.quanta (x : Chunk) : List Nat := span x.run.first x.run.n
/-- The chunk is the last of its job in any share. -/
def Chunk.last (x : Chunk) : Bool :=
  x.r.p.shares.foldl (fun n h => n + h.n) 0 ≤ x.r.progress.foldl (· + ·) 0 + x.run.n

/-- Bytes of a reference, and whether they hold poison. -/
def Chunk.read (x : Chunk) (k ofs n : Nat) (s : State) : List Byte × Bool := readBuf s x.g x.r (x.buf k) ofs n
/-- Output bytes, marked poisoned where their input was. -/
def Chunk.put (x : Chunk) (k ofs : Nat) (l : List Byte) (bad : Bool) (s : State) : State :=
  let s1 := writeBuf x.g x.r (x.buf k) ofs l s
  if bad then poisonBuf x.g x.r (x.buf k) ofs l.length s1 else s1

/-- A block that fails its check when the job starts (R288), a soft-buffer index beyond the quota in force (R313). -/
def startFails (s : State) (x : Chunk) : Bool :=
  let quota := fld (rd s kEnSbQuota) (32 * x.g.tenant) 32
  x.r.progress.getD x.run.share 0 == 0 && (blockFails s x.g x.r ||
    (x.d.op == 0x030 && (upto (pf x.b 2 0 8)).any fun i => quota ≤ hqcSb x.b i))

/-- A chunk of an opcode runs: `f` does its work and answers poison seen; `errors` counts a job refused at its start. A parameter block that
holds poison is not worked on. -/
def engineChunk (e : EngId) (op : Nat) (errors jobs : Nat) (f : Chunk → State → Bool × State) (s : State) : Res :=
  match curChunk s e.val op with
  | none => done s
  | some (run, g, r) =>
    let x : Chunk := { e := e.val, run := run, g := g, r := r, b := paramBlock s g r }
    if blockPoisoned s g r then done (chunkWorked e.val 5 run s)
    else if startFails s x then done (chunkWorked e.val 7 run (if r.code = 7 then s else bumpBy 32 errors 1 s))
    else match jobHole s g r with
    | some a => done (endHole e.val a run s)
    | none =>
      let (bad, s1) := f x s
      done (chunkWorked e.val (if bad then 5 else 0) run (if x.last then bump jobs s1 else s1))

/-- A chunk of class k (0 LDD to 5 HQC): each quantum by `f`; BLOCKS counts them. -/
def codingChunk (e : EngId) (op k : Nat) (f : Chunk → Nat → State → Bool × State) (s : State) : Res :=
  let g := e.val / 15
  engineChunk e op (kEncParamErrors g k) (kEncJobs g k) (fun x t =>
    let r := x.quanta.foldl (fun (p : Bool × State) q =>
      let (bad, t1) := f x q p.2
      (p.1 || bad, t1)) (false, t)
    (r.1, bumpBy 64 (kEncBlocks g k) x.run.n r.2)) s

/-! ### Bits, checks and free draws -/

/-- A free number below n; free bytes. -/
def pick (n : Nat) (s : State) : Nat × State :=
  let (k, s1) := draw s
  (Config.freeValue k % n, s1)
def pickBytes (n : Nat) (s : State) : List Byte × State :=
  let (k, s1) := draw s
  (padTo n (Config.freeBytes k n), s1)

/-- Hard bits of bytes, most significant bit first (R290). -/
def bitsMsb (l : List Byte) : List Bool := l.flatMap fun b => (upto 8).map fun i => bitAt b.toNat (7 - i)
/-- The first n bits of bytes, the unused bits of the last byte 0 (R290). -/
def cutBits (n : Nat) (l : List Byte) : List Byte :=
  let m := padTo (ceilDiv n 8) l
  if n % 8 = 0 then m else m.set (n / 8) (BitVec.ofNat 8 ((m.getD (n / 8) 0).toNat / 2 ^ (8 - n % 8) * 2 ^ (8 - n % 8)))
/-- A CRC register of `w` bits after bits are shifted in from zero. -/
def crcReg (w poly : Nat) (l : List Bool) : Nat :=
  l.foldl (fun r b => if bitAt r (w - 1) != b then (2 * r % 2 ^ w) ^^^ poly else 2 * r % 2 ^ w) 0
/-- Generators of 3GPP TS 38.212 and TS 36.212 (PRESUMED, log 13). -/
def crc24a : Nat := 0x864CFB
def crc24b : Nat := 0x800063
def crc16p : Nat := 0x1021
def crc8p : Nat := 0x9B
/-- n bits whose last `w` are the CRC of those before. -/
def withCrc (w poly n : Nat) (l : List Byte) : List Byte :=
  let payload := (bitsMsb l).take (n - w)
  let c := crcReg w poly payload
  let all := payload ++ (upto w).map fun i => bitAt c (w - 1 - i)
  (upto (ceilDiv n 8)).map fun i => BitVec.ofNat 8 ((upto 8).foldl (fun v j => 2 * v + b2n (all.getD (8 * i + j) false)) 0)

/-- A status record (Table 8-3). -/
def statusRec (result iter flags crc metric index : Nat) : List Byte :=
  toBytes 16 (pack [(0, 8, result), (8, 8, iter), (16, 4, flags), (32, 32, crc), (64, 32, metric), (96, 16, index)])

/-- RESULT of a decoder: by its CRC where there is one, else complete or not converged. -/
def decodeResult (bad hasCrc pass converged : Bool) : Nat :=
  if bad then 4 else if hasCrc then (if pass then 0 else 1) else if converged then 2 else 3
/-- FAILS counts CRC_FAIL and NOT_CONVERGED. -/
def countFail (g k result : Nat) (s : State) : State := if result = 1 ∨ result = 3 then bump (kEncFails g k) s else s

/-! ### LDPC (R294 to R298) -/

/-- LDPC_DECODE of code block quantum q. -/
def lddDo (x : Chunk) (q : Nat) (s : State) : Bool × State :=
  let b := x.b
  let kp := pf b 4 0 14
  let crc := pf b 0 2 2
  let et := pf b 0 4 2
  let maxIt := pf b 1 0 6
  let n := pf b 12 0 10
  let first := pf b 14 0 10
  let rate := fun a c => rateSum (pf b 8 0 32) n (pf b 6 4 3) (pf b 6 0 4) a c
  let inp := if bitAt b 1 then (pf b 20 0 32 + q * pf b 24 0 32, ncbOf (pf b 0 0 1) (pf b 2 0 9) (pf b 16 0 16))
    else (pf b 20 0 32 + rate first (first + q), rate (first + q) (first + q + 1))
  let bad := (x.read 0 inp.1 inp.2 s).2
  let iMax := max 1 (min maxIt x.r.cap)
  let (i0, s1) := pick iMax s
  let it := if et = 2 then iMax else i0 + 1
  let early := it < iMax
  let (m, s2) := pick ((if bitAt b 0 then 42 else 46) * pf b 2 0 9 + 1) s1
  let metric := if early then 0 else m
  let (l, s3) := pickBytes (ceilDiv kp 8) s2
  let (w, poly) := if crc = 3 then (16, crc16p) else if crc = 2 then (24, crc24a) else (24, crc24b)
  let bits := if early && et == 1 && crc != 0 && w < kp then withCrc w poly kp l else cutBits kp l
  let pass := crcReg w poly ((bitsMsb bits).take kp) == 0
  let result := decodeResult bad (crc != 0) pass (metric == 0)
  let (f, s4) := pick 2 s3
  let syn := early && (et == 0 || crc == 0 || f == 1)
  let flags := b2n syn + 2 * b2n (early && et == 1 && crc != 0) + 4 * b2n (it == iMax && iMax < maxIt) + 8 * b2n bad
  let part := if n > 1 then crcReg 24 crc24a ((bitsMsb bits).take (kp - 24)) else 0
  let s5 := x.put 1 (pf b 28 0 32 + q * pf b 32 0 32) bits bad s4
  let s6 := x.put 2 (pf b 36 0 32 + 16 * q) (statusRec result it flags part metric (first + q)) false s5
  (bad, countFail x.grp 0 result (bumpBy 64 (kEncIterSum x.grp 0) it s6))

/-- LDPC_DECODE. -/
def execLdpcDecode (e : EngId) (s : State) : Res := codingChunk e 0x010 0 lddDo s

/-- Bytes of bit range [a, a + n) at a byte offset. -/
def bitRange (ofs a n : Nat) : Nat × Nat := (ofs + a / 8, ceilDiv (a % 8 + n) 8)

/-- LDPC_ENCODE of code block quantum q. The share that holds the last block reads the whole transport block when it appends its
CRC (R298). -/
def ldeDo (x : Chunk) (q : Nat) (s : State) : Bool × State :=
  let b := x.b
  let n := pf b 12 0 10
  let r := pf b 14 0 10 + q
  let a := pf b 20 0 20
  let held := a + (if bitAt b 1 then 0 else if a > 3824 then 24 else 16)
  let own := pf b 4 0 14 - (if n > 1 then 24 else 0)
  let rng := if r + 1 = n ∧ bitAt b 1 then (pf b 28 0 32, ceilDiv held 8) else bitRange (pf b 28 0 32) (r * own) (min own (held - r * own))
  let bad := (x.read 0 rng.1 rng.2 s).2
  let tb := (x.read 0 (pf b 28 0 32) (ceilDiv held 8) s).1
  let e := rateE (pf b 8 0 32) n (pf b 6 4 3) (pf b 6 0 4) r
  let out := cutBits e (Config.ldpcEncode (BitVec.ofNat 512 b) tb r e)
  (bad, x.put 1 (pf b 32 0 32 + q * pf b 36 0 32) out bad s)

/-- LDPC_ENCODE. -/
def execLdpcEncode (e : EngId) (s : State) : Res := codingChunk e 0x011 1 ldeDo s

/-! ### Polar (R299) -/

/-- POLAR_DECODE of entry q. -/
def pldDo (x : Chunk) (q : Nat) (s : State) : Bool × State :=
  let b := x.b
  let o := 16 + 16 * q
  let a := pf b o 0 11
  let bad := (x.read 0 (pf b (o + 4) 0 32) (pf b (o + 2) 0 14) s).2
  let (l, s1) := pickBytes (ceilDiv a 8) s
  let (pass, s2) := pick 2 s1
  let (path, s3) := pick (2 ^ 32) s2
  let result := decodeResult bad true (pass == 1) true
  let s4 := x.put 1 (pf b (o + 8) 0 32) (cutBits a l) bad s3
  let s5 := x.put 2 (pf b 4 0 32 + 16 * q) (statusRec result (pf b (o + 12) 0 2) (8 * b2n bad) path 0 q) false s4
  (bad, countFail x.grp 2 result s5)

/-- POLAR_DECODE. -/
def execPolarDecode (e : EngId) (s : State) : Res := codingChunk e 0x018 2 pldDo s

/-! ### Turbo (R301, R302) -/

/-- Filler bits of block 0, bits of block r. -/
def turboFiller (a : Nat) : Nat :=
  let c := turboC a
  sumBy (upto c) (turboKr a) - (a + 24 + (if c > 1 then 24 * c else 0))
def turboBits (a r : Nat) : Nat := turboKr a r - (if r = 0 then turboFiller a else 0)
/-- Circular-buffer length K_w of a block. -/
def turboKw (k : Nat) : Nat := 3 * (32 * ceilDiv (k + 4) 32)

/-- TURBO_DECODE of code block quantum q. -/
def tbcDecDo (x : Chunk) (q : Nat) (s : State) : Bool × State :=
  let b := x.b
  let a := pf b 4 0 20
  let n := turboC a
  let first := pf b 14 0 10
  let r := first + q
  let k := turboBits a r
  let crc := pf b 0 1 2
  let rate := fun u v => rateSum (pf b 8 0 32) n (pf b 12 4 3) (pf b 12 0 4) u v
  let inp := if bitAt b 0 then (pf b 20 0 32 + q * pf b 24 0 32, turboKw (turboKr a r)) else (pf b 20 0 32 + rate first r, rate r (r + 1))
  let bad := (x.read 0 inp.1 inp.2 s).2
  let iMax := max 1 (pf b 1 0 4)
  let (i0, s1) := pick iMax s
  let it := if bitAt b 3 then i0 + 1 else iMax
  let early := it < iMax
  let (l, s2) := pickBytes (ceilDiv k 8) s1
  let poly := if n > 1 then crc24b else crc24a
  let bits := if early && 24 < k then withCrc 24 poly k l else cutBits k l
  let pass := crcReg 24 poly ((bitsMsb bits).take k) == 0
  let result := decodeResult bad (crc != 0) pass true
  let part := if n > 1 then crcReg 24 crc24a ((bitsMsb bits).take (k - 24)) else 0
  let s3 := x.put 1 (pf b 28 0 32 + q * pf b 32 0 32) bits bad s2
  let s4 := x.put 2 (pf b 36 0 32 + 16 * q) (statusRec result it (2 * b2n early + 8 * b2n bad) part 0 r) false s3
  (bad, countFail x.grp 3 result (bumpBy 64 (kEncIterSum x.grp 3) it s4))

/-- TURBO_DECODE. -/
def execTurboDecode (e : EngId) (s : State) : Res := codingChunk e 0x020 3 tbcDecDo s

/-- TURBO_ENCODE of code block quantum q. -/
def tbcEncDo (x : Chunk) (q : Nat) (s : State) : Bool × State :=
  let b := x.b
  let a := pf b 4 0 20
  let n := turboC a
  let r := pf b 14 0 10 + q
  let held := a + (if bitAt b 0 then 0 else 24)
  let own := fun i => turboBits a i - (if n > 1 then 24 else 0)
  let rng := if r + 1 = n ∧ bitAt b 0 then (pf b 20 0 32, ceilDiv held 8)
    else bitRange (pf b 20 0 32) (sumBy (upto r) own) (min (own r) (held - sumBy (upto r) own))
  let bad := (x.read 0 rng.1 rng.2 s).2
  let tb := (x.read 0 (pf b 20 0 32) (ceilDiv held 8) s).1
  let e := rateE (pf b 8 0 32) n (pf b 12 4 3) (pf b 12 0 4) r
  let out := cutBits e (Config.turboEncode (BitVec.ofNat 512 b) tb r e)
  (bad, x.put 1 (pf b 28 0 32 + q * pf b 32 0 32) out bad s)

/-- TURBO_ENCODE. -/
def execTurboEncode (e : EngId) (s : State) : Res := codingChunk e 0x021 3 tbcEncDo s

/-! ### Convolutional (R303, R304) -/

/-- CONVOLUTIONAL_DECODE of entry q. -/
def cvdDo (x : Chunk) (q : Nat) (s : State) : Bool × State :=
  let b := x.b
  let o := 16 + 16 * q
  let k := pf b (o + 2) 0 15
  let crc := pf b o 3 2
  let bad := (x.read 0 (pf b (o + 8) 0 32) (pf b (o + 4) 0 16) s).2
  let (l, s1) := pickBytes (ceilDiv k 8) s
  let (metric, s2) := pick (2 ^ 32) s1
  let bits := cutBits k l
  let pass := (if crc = 1 then crcReg 8 crc8p else crcReg 16 crc16p) ((bitsMsb bits).take k) == 0
  let result := decodeResult bad (crc != 0) pass true
  let s3 := x.put 1 (pf b (o + 12) 0 32) bits bad s2
  let s4 := x.put 2 (pf b 4 0 32 + 16 * q) (statusRec result 0 (8 * b2n bad) 0 metric q) false s3
  (bad, countFail x.grp 4 result s4)

/-- CONVOLUTIONAL_DECODE. -/
def execConvolutionalDecode (e : EngId) (s : State) : Res := codingChunk e 0x028 4 cvdDo s

/-! ### Soft buffers (R306 to R315) -/

/-- Compression and expansion of an LLR (Table 8-12). -/
def llrCode (v : Int) : Nat :=
  let m := v.natAbs
  let c := ((upto 8).find? fun i => m ≤ [1, 4, 8, 15, 27, 47, 79, 127].getD i 127).getD 7
  if c ≠ 0 ∧ v < 0 then 8 + c else c
def llrOf (c : Nat) : Int :=
  let m : Int := [0, 3, 6, 12, 21, 37, 63, 100].getD (c % 8) 0
  if bitAt c 3 then -m else m
/-- Saturation to ±127; a byte read as an LLR (R290). -/
def llrSat (v : Int) : Int := clampI (-127) 127 v
def llrByte (b : Byte) : Int := llrSat b.toInt

/-- First slot of a tenant's range, its quota. -/
def sbFirst (s : State) (t : Nat) : Nat := fld (rd s kEnSbBase) (32 * t) 32
def sbQuota (s : State) (t : Nat) : Nat := fld (rd s kEnSbQuota) (32 * t) 32
/-- Address of a slot. -/
def sbAddr (s : State) (slot : Nat) : Nat := sbBase s + slot * sbSlotSize s
/-- A slot header (Table 8-11) as its HQC reads it; a poisoned header line reads as 0 (Table 8-14). -/
def sbHeader (s : State) (a : Nat) : Nat := if rangePoisoned s a 64 then 0 else ofBytes (load s a 64)
def hdrValid (h : Nat) : Bool := bitAt h 0 && !bitAt h 2
def hdrAir (h : Nat) : Nat := fld h 64 64
def hdrCi (h : Nat) : Nat := fld h 16 9
def hdrCover (h seg : Nat) : Bool := bitAt h (256 + seg)
/-- The header of a slot as it stands. -/
def sbRaw (s : State) (a : Nat) : Nat := ofBytes (load s a 64)
/-- Valid buffers counted as one header replaces another. -/
def sbCount (old new : Nat) (s : State) : State :=
  wr kEnSbValid (rd s kEnSbValid + b2n (hdrValid new) - b2n (hdrValid old)) s

/-- New LLRs of an entry by position, those of a repeated position added together. -/
def hqcNew (x : Chunk) (i ncb : Nat) (l : List Byte) : Table Int :=
  let hdr := BitVec.ofNat 256 (x.b % 2 ^ 256)
  let ent := BitVec.ofNat 128 (fld x.b (8 * (32 + 16 * i)) 128)
  (upto l.length).foldl (fun t j => tmod t (Config.hqcPosition hdr ent j % max 1 ncb) 0 (· + llrByte (l.getD j 0))) []

/-- Outcomes of an HQC entry: what it finds decides what it does (R311). -/
inductive SbAct where
  | store | combine | combineOnly | outputOnly | release | mismatch | order
deriving DecidableEq, Repr

/-- The action of an entry with operation `op` of air time `t`, CI `ci`, on the header found. -/
def sbAct (op t ci h : Nat) : SbAct :=
  if hdrValid h && hdrCi h != ci then .mismatch
  else if op = 3 then .release
  else if hdrValid h && t < hdrAir h then .order
  else if op = 2 then (if hdrValid h then .combineOnly else .outputOnly)
  else if hdrValid h && (op == 1 || hdrAir h == t) then .combine
  else .store

/-- HARQ_COMBINE of entry i: poison seen, and the state after. -/
def hqcDo (x : Chunk) (i : Nat) (s : State) : Bool × State :=
  let b := x.b
  let ncb := pf b 8 0 16
  let seg := ceilDiv ncb 256
  let op := hqcOp b i
  let a := sbAddr s (sbFirst s x.g.tenant + hqcSb b i)
  let h := sbHeader s a
  let inOfs := pf b 16 0 32 + sumBy (upto i) (hqcE b)
  let (l, bad) := if hqcE b i = 0 then ([], false) else x.read 0 inOfs (hqcE b i) s
  let new := hqcNew x i ncb l
  let act := sbAct op x.g.air x.g.ci h
  let adds := act == .combine || act == .combineOnly
  let line := fun p => a + (64 + p / 2) / 64 * 64
  let lost := fun p => rangePoisoned s (line p) 64
  let covered := fun p => hdrCover h (p / seg)
  let erased := adds && (upto ncb).any fun p => covered p && lost p
  let nib := fun p => fld ((load s (a + 64 + p / 2) 1).headD 0).toNat (4 * (p % 2)) 4
  let old := fun p => if adds && covered p && !lost p then llrOf (nib p) else 0
  let sum := fun p => llrSat (old p + tget new p 0)
  let touched := fun sg => new.any fun e => e.1 / seg == sg
  let writes := act == .combine || act == .store
  let cover := (upto 256).foldl (fun m sg => m + b2n (touched sg || (act == .combine && hdrCover h sg)) * 2 ^ sg) 0
  let combines := if act = .combine then satAdd 8 (fld h 8 8) 1 else 0
  let ci := if act = .combine then hdrCi h else x.g.ci
  let h1 := if writes then
      pack [(0, 1, 1), (1, 1, if act = .combine then fld h 1 1 else b2n (bitAt b 0)), (8, 8, combines), (16, 9, ci),
        (32, 16, if act = .combine then fld h 32 16 else ncb), (64, 64, x.g.air), (256, 256, cover)]
    else if act = .release then setFld h 0 1 0 else h
  let code := fun p => if bitAt cover (p / seg) && p < ncb then llrCode (sum p) else nib p
  let body := (upto (ceilDiv ncb 2)).map fun j => BitVec.ofNat 8 (code (2 * j) + 16 * code (2 * j + 1))
  let s1 := if writes then memStore a (toBytes 64 h1 ++ body) (clearLinePoison a (sbSlotSize s) s)
    else if act = .release then memStore a (toBytes 64 h1) s else s
  let s2 := if writes || act == .release then sbCount (sbRaw s a) h1 s1 else s1
  let out := (upto ncb).map fun p => BitVec.ofInt 8 (sum p)
  let s3 := if bitAt b 1 && op != 3 then x.put 1 (pf b 20 0 32 + i * pf b 24 0 32) out bad s2 else s2
  let result := if bad then 4 else match act with
    | .mismatch => 0x13
    | .order => 0x12
    | .release => 0x15
    | .outputOnly => 0x11
    | .store => if op = 1 then 0x11 else 0x10
    | _ => if erased then 0x14 else 0x10
  let segs := if hdrValid h1 then popcount 256 (h1 / 2 ^ 256) else 0
  let s4 := if bitAt b 2 then x.put 2 (pf b 28 0 32 + 16 * i) (statusRec result 0 (8 * b2n bad) segs (hdrAir h % 2 ^ 32) i) false s3 else s3
  (bad, if erased && !bad then bump (kEncFails x.grp 5) s4 else s4)

/-- HARQ_COMBINE. -/
def execHarqCombine (e : EngId) (s : State) : Res := codingChunk e 0x030 5 hqcDo s

/-- A fence stops an HQC: some entries of its chunk are done, the write-back of the next may be cut, which sets SUSPECT (R315). -/
def cutHqc (u : Nat) (s : State) : State :=
  if !isEngine u then s
  else match curChunk s (u - 108) 0x030 with
    | none => s
    | some (run, g, r) =>
      let x : Chunk := { e := u - 108, run := run, g := g, r := r, b := paramBlock s g r }
      if startFails s x || blockPoisoned s g r then s
      else
        let (n, s1) := pick (run.n + 1) s
        let s2 := each (x.quanta.take n) (fun i t => (hqcDo x i t).2) s1
        let (cut, s3) := pick 2 s2
        let i := run.first + n
        let a := sbAddr s3 (sbFirst s3 g.tenant + hqcSb x.b i)
        let h := sbHeader s3 a
        let act := sbAct (hqcOp x.b i) g.air g.ci h
        if n < run.n && cut == 1 && (act == .store || act == .combine) then sbCount (sbRaw s3 a) (setFld h 2 1 1) (memStore a (toBytes 64 (setFld h 2 1 1)) s3) else s3

/-- A unit is fenced for a fault (R129), an HQC with what that does to its soft buffers. -/
def fenceFault (u : Nat) (s : State) : State :=
  if (unitSt s u).fenced then s
  else
    let s1 := fenceUnit u (cutHqc u s)
    if isCore u then coreOut u s1 else if unitClass u = 10 then drainMar (marOf (u - 108)) s1 else s1

/-- UNIT_FENCE: a unit is fenced for a fault (R129). -/
def execUnitFence (u : Fin 228) (s : State) : Res := done (fenceFault u.val s)

/-! ### Coding objects (R295, R306, R307) -/

/-- LDD_CAP_SET: tenant and cap. -/
def wLddCapSet (v : Nat) (s : State) : Written :=
  let t := fld v 0 16
  let cap := fld v 16 8
  if 512 ≤ t ∨ cap = 0 ∨ 32 < cap then refusedW .range s
  else accepted (wr kEnLddCap (setFld (rd s kEnLddCap) (8 * t) 8 cap) s)
/-- LDD_CAP_SET. -/
def execLddCapSet (t : BitVec 16) (cap : Byte) (s : State) : Res := answer (wLddCapSet (t.toNat + 65536 * cap.toNat) s)

/-- A slot holds a valid buffer. -/
def slotValid (s : State) (slot : Nat) : Bool := hdrValid (sbRaw s (sbAddr s slot))
/-- Slots `a` to `a + n − 1` are granted to no tenant but `t`. -/
def slotsFree (s : State) (t a n : Nat) : Bool :=
  a + n ≤ rd s kEnSbCount && s.work.sbRanges.all fun r => r.1 == t || r.2.1 + r.2.2 ≤ a || a + n ≤ r.2.1
/-- The lowest free run of n slots: it starts at 0 or where another tenant's range ends. -/
def lowestRun (s : State) (t n : Nat) : Option Nat :=
  let starts := sortBy (fun a b => a ≤ b) (0 :: (s.work.sbRanges.filter fun r => r.1 != t).map fun r => r.2.1 + r.2.2)
  starts.find? fun a => slotsFree s t a n
/-- Slots made invalid before they are granted (R198, R307). -/
def invalidate (l : List Nat) (s : State) : State :=
  each l (fun k t => memStore (sbAddr t k) (List.replicate 64 0) t) s
/-- A tenant's range and quota. -/
def grantRange (t a n : Nat) (s : State) : State :=
  let s1 := { s with work := { s.work with sbRanges := if n = 0 then tdel t s.work.sbRanges else tset t (a, n) s.work.sbRanges } }
  wr kEnSbQuota (setFld (rd s kEnSbQuota) (32 * t) 32 n) (wr kEnSbBase (setFld (rd s kEnSbBase) (32 * t) 32 a) s1)

/-- SB_QUOTA_SET: tenant and quota (R307). -/
def wSbQuotaSet (v : Nat) (s : State) : Written :=
  let t := fld v 0 16
  let n := fld v 16 32
  let a := sbFirst s t
  let old := sbQuota s t
  if 512 ≤ t then refusedW .range s
  else if !(span a old).any (slotValid s) then
    match lowestRun s t n with
    | some x => if n = 0 then accepted (grantRange t 0 0 s) else accepted (grantRange t x n (invalidate (span x n) s))
    | none => refusedW .range s
  else if n < old then
    if (span (a + n) (old - n)).any (slotValid s) then refusedW .state s else accepted (grantRange t a n s)
  else if slotsFree s t a n then accepted (grantRange t a n (invalidate (span (a + old) (n - old)) s))
  else refusedW .range s
/-- SB_QUOTA_SET. -/
def execSbQuotaSet (t : BitVec 16) (n : BitVec 32) (s : State) : Res := answer (wSbQuotaSet (t.toNat + 65536 * n.toNat) s)

/-- SB_COUNT and SB_NCB_MAX (R306): the slot size and the region follow. -/
def wSbRegion (k v : Nat) (ok : Bool) (s : State) : Written :=
  let s1 := wr k v s
  let s2 := wr kEnSbRegion (sbRegion s1) (wr kEnSbSlotSize (sbSlotSize s1) s1)
  if rd s kEnSbQuota ≠ 0 then refusedW .state s
  else if !ok || poolBytes s2 < 2 ^ 30 then refusedW .range s
  else accepted s2
def wSbCount (v : Nat) (s : State) : Written := wSbRegion kEnSbCount v (v ≤ 1048576) s
def wSbNcbMax (v : Nat) (s : State) : Written := wSbRegion kEnSbNcbMax v (1024 ≤ v && v ≤ 25344 && v % 128 == 0) s
/-- SB_REGION_WRITE: SB_NCB_MAX, or SB_COUNT. -/
def execSbRegionWrite (ncbMax : Bool) (v : BitVec 32) (s : State) : Res :=
  answer (if ncbMax then wSbNcbMax v.toNat s else wSbCount v.toNat s)

end Sys2Proof.Machine
end

