-- ==== Sys2Proof/Machine/Mar.lean ====
section
/-!
DEFINITION. The machine-access receivers (10_machine_access.md): bindings and resources, detection, lookups, spools, the jobs of opcode
0x060, the identity table and its rebuild.
-/
namespace Sys2Proof.Machine

/-! ### Fields with a default (Table 10-2) -/

/-- A class S field where zero selects the default. -/
def orDefault (v d : Nat) : Nat := if v = 0 then d else v
def bCarrier (d : Nat) : Nat := fld d 144 32
def bMode (d : Nat) : Nat := fld d 176 4
def bFecAllowed (d : Nat) : Bool := bitAt d 180
def bSfdErr (d : Nat) : Nat := orDefault (fld d 184 3) 1
def bSfdUncoded (d : Nat) : Nat := orDefault (fld d 192 16) 0x904E
def bSfdCoded (d : Nat) : Nat := orDefault (fld d 208 16) 0x6F4E
def bPreDet (d : Nat) : Nat := orDefault (fld d 224 3) 2
def bPreMax (d : Nat) : Nat := fld d 232 10
def bKeyOfs (d : Nat) : Nat := fld d 248 5
def bKeyLen (d : Nat) : Nat := fld d 256 4
def bMaxPsdu (d : Nat) : Nat := fld d 288 11
/-- Data rate of a mode in kb/s, its channel width in kHz (Table 10-4). -/
def modeRate (m : Nat) : Nat := [50, 50, 100, 100, 150, 200, 300, 200, 400].getD m 50
def modeWidth (m : Nat) : Nat := if m < 3 then 200 else 400
/-- Usable band in kHz and channels to a stream (Table 10-3). -/
def usableKhz (rate : Nat) : Nat := 25600 / 2 ^ rate
def maxPerStream (rate width : Nat) : Nat := usableKhz rate / width

/-! ### Events (Table 10-18) -/

/-- A machine-access event. -/
def evMar (typ mar : Nat) (stalled : Bool) (subject count t aux : Nat) : Nat :=
  pack [(0, 8, typ), (8, 2, mar), (10, 1, b2n stalled), (16, 16, subject), (32, 32, count), (64, 64, t), (128, 64, aux)]

/-! ### Writes (R349, R358, R381, R384) -/

/-- Class S fields in range; class E leaves them 0. -/
def classFieldsOk (d : Nat) : Bool :=
  if bClassE d then fld d 144 160 == 0
  else 100000 ≤ bCarrier d && bCarrier d ≤ 1000000 && bMode d ≤ 8 && modeWidth (bMode d) == bWidth d && fld d 184 3 ≤ 4 &&
    fld d 224 3 ≤ 4 && 4 ≤ bPreMax d && bPreMax d ≤ 1000 && 1 ≤ bKeyLen d && bKeyLen d ≤ 8 &&
    (fld d 260 4 == 0 || (4 ≤ fld d 260 4 && fld d 260 4 ≤ 12)) && 1 ≤ bMaxPsdu d

/-- A channel's edges lie within the usable band (R350). -/
def channelFits (d n : Nat) : Bool :=
  let c := bCh0 d + ((n * bWidth d * 1000 : Nat) : Int)
  let half : Int := ((bWidth d * 500 : Nat) : Int)
  let edge : Int := ((usableKhz (bRate d) * 500 : Nat) : Int)
  (-edge) ≤ c - half && c + half ≤ edge

/-- Stream fields in range: INPUT 0 has them, INPUT 1 is class E only and leaves them 0. -/
def inputFieldsOk (d : Nat) : Bool :=
  if bSections d then bClassE d && bRate d == 0 && bPerStream d == 0
  else bRate d ≤ 2 && 1 ≤ bPerStream d && bPerStream d ≤ maxPerStream (bRate d) (bWidth d) && (upto (bPerStream d)).all (channelFits d)

/-- A field outside its range, a reserved field that is not 0. -/
def descFieldsOk (d : Nat) : Bool :=
  onlyFields d [(0, 2), (8, 2), (16, 9), (32, 10), (48, 6), (56, 3), (64, 8), (80, 43), (128, 55), (184, 3), (192, 35), (232, 10),
    (248, 5), (256, 8), (272, 27)] &&
    1 ≤ bAxcCount d && bAxcCount d ≤ 32 && 1 ≤ fld d 112 11 && fld d 112 11 ≤ 1024 && classFieldsOk d && inputFieldsOk d &&
    bCarrier d * 50 ≤ 300000 * bWidth d

/-- The named AxC are bound to the CI. -/
def axcsBound (s : State) (d : Nat) : Bool :=
  (span (bAxcFirst d) (bAxcCount d)).all fun a => a < 1024 && axcBound s a && axcCi (axcDesc s a) == bindCi d

/-- The limits of Table 10-1 on the binding's MAR. -/
def marLimitsOk (s : State) (d : Nat) : Bool :=
  let l := marBindings s (bMar d)
  l.foldl (fun n e => n + bAxcCount e.2.desc) (bAxcCount d) ≤ 32 && l.foldl (fun n e => n + bChannels e.2.desc) (bChannels d) ≤ 1024 &&
    l.length < 16

/-- Spool space free at an offset of the spool area; the lowest such offset (log 14). -/
def spoolFree (s : State) (a n : Nat) : Bool :=
  a + n ≤ Config.spoolArea &&
    s.radio.bindings.all fun e => e.2.state == .free || e.2.base + bSpoolBytes e.2.desc ≤ a || a + n ≤ e.2.base
def spoolPlace (s : State) (n : Nat) : Option Nat :=
  let starts := 0 :: (s.radio.bindings.filter fun e => e.2.state != .free).map fun e => e.2.base + bSpoolBytes e.2.desc
  (sortBy (fun a b => a ≤ b) starts).find? fun a => spoolFree s a n

/-- The CI of a class S binding is SUN; of class E, NB-IoT or LTE-M. -/
def classAirOk (s : State) (d : Nat) : Bool :=
  let a := ciAir (ciDesc s (bindCi d))
  if bClassE d then a == 2 || a == 3 else a == 4

/-- BIND_SET: the slot and the descriptor. -/
def wBindSet (t slot d : Nat) (s : State) : Written :=
  let n := 4 * t + slot
  if 4 ≤ slot || (bindOf s n).state != .free || !descFieldsOk d || ciTenant s (bindCi d) != some t || !classAirOk s d || !axcsBound s d ||
      !marLimitsOk s d then refusedW .range s
  else match spoolPlace s (bSpoolBytes d) with
    | none => refusedW .range s
    | some a => accepted (setBind n { state := .active, desc := d, base := a } s)
/-- BIND_SET. -/
def execBindSet (t : TenantId) (slot : Byte) (d : BitVec 512) (s : State) : Res := answer (wBindSet t.val slot.toNat d.toNat s)

/-- UNBIND of an ACTIVE slot. -/
def wUnbind (t slot : Nat) (s : State) : Written :=
  if 4 ≤ slot then refusedW .range s
  else if (bindOf s (4 * t + slot)).state != .active then refusedW .state s
  else accepted (leaveActive (4 * t + slot) s)
/-- UNBIND. -/
def execUnbind (t : TenantId) (slot : Byte) (s : State) : Res := answer (wUnbind t.val slot.toNat s)

/-- Fields of a resource descriptor (Table 10-6). -/
def rType (r : Nat) : Nat := fld r 0 3
def rSource (r : Nat) : Nat := fld r 16 10
def rPeriod (r : Nat) : Nat := fld r 32 32
def rOffset (r : Nat) : Nat := fld r 64 32
def rNcand (r : Nat) : Nat := fld r 120 7
def rEnergyTh (r : Nat) : Int := toInt 16 (fld r 128 16)
def rQualTh (r : Nat) : Int := toInt 16 (fld r 144 16)
def rKeyBase (r : Nat) : Nat := fld r 160 64
def rNant (r : Nat) : Nat := fld r 240 3
/-- The resource is a preconfigured uplink resource. -/
def rPur (r : Nat) : Bool := rType r == 4 || rType r == 5

/-- A resource's fields are in range under its binding. -/
def resourceOk (d r : Nat) : Bool :=
  let t := rType r
  let nprach := t ≤ 2
  onlyFields r [(0, 3), (7, 1), (16, 10), (32, 64), (96, 7), (112, 3), (120, 7), (128, 96), (224, 8), (232, 3), (240, 3)] &&
    t ≤ 5 && (bSections d || (t != 3 && t != 5)) && 1 ≤ rPeriod r && rPeriod r ≤ 10240 && 10240 % rPeriod r == 0 &&
    rOffset r < rPeriod r && fld r 96 7 ≤ (if nprach then 47 else if t = 4 then 11 else 99) &&
    (if nprach then 12 ≤ rNcand r && rNcand r ≤ 48 else if t = 3 then 1 ≤ rNcand r && rNcand r ≤ 64 else rNcand r == 1) &&
    (if rPur r then 1 ≤ fld r 224 8 && fld r 224 8 ≤ 64 else fld r 224 8 == 0) &&
    (if t = 4 then fld r 232 3 ≤ 3 else if t = 5 then 1 ≤ fld r 232 3 && fld r 232 3 ≤ 6 else fld r 232 3 == 0) &&
    (if rPur r then 1 ≤ rNant r && rNant r ≤ 4 else rNant r == 1) &&
    rSource r + rNant r ≤ (if bSections d then bAxcCount d else bChannels d)

/-- RES_SET: slot, index, descriptor. VALID = 0 removes the resource at the end of its occasion. -/
def wResSet (t slot idx r : Nat) (s : State) : Written :=
  let n := 4 * t + slot
  let b := bindOf s n
  let used := (marBindings s (bMar b.desc)).foldl (fun c e => c + e.2.resources.length) 0
  if 4 ≤ slot || 64 ≤ idx || b.state != .active || !bClassE b.desc then refusedW .range s
  else if !bitAt r 7 then
    accepted (if (tfind idx b.resources).isSome then setBind n { b with removing := idx :: b.removing.filter (· != idx) } s else s)
  else if !resourceOk b.desc r || ((tfind idx b.resources).isNone && 256 ≤ used) then refusedW .range s
  else accepted (setBind n { b with resources := tset idx r b.resources, removing := b.removing.filter (· != idx) } s)
/-- RES_SET. -/
def execResSet (t : TenantId) (slot idx : Byte) (r : BitVec 256) (s : State) : Res := answer (wResSet t.val slot.toNat idx.toNat r.toNat s)

/-- The identity table counts as stopped (R384). -/
def idtStopped (s : State) : Bool :=
  (s.radio.bindings.all fun e => e.2.state == .free) && rd s kIdRebuildState == 0 && rd s kIdEntries == 0
/-- BUCKETS_MAX, for the next start. -/
def wBucketsMax (v : Nat) (s : State) : Written :=
  if !idtStopped s then refusedW .state s
  else if !(4096 ≤ v && v ≤ 524288 && v == 2 ^ Nat.log2 v) then refusedW .range s
  else accepted (wr kIdBucketsMax v s)
/-- BUCKETS_MAX. -/
def execBucketsMax (v : Word) (s : State) : Res := answer (wBucketsMax v.toNat s)

/-! ### The identity table (R362, R367) -/

/-- The current table, or with `new` the one being built: entries, buckets, SEED. -/
def idtTable (s : State) (new : Bool) : Table IdtEntry := if new then s.radio.idtNew else s.radio.idtCur
def setIdt (new : Bool) (t : Table IdtEntry) (s : State) : State :=
  if new then { s with radio := { s.radio with idtNew := t } } else { s with radio := { s.radio with idtCur := t } }
def idtBuckets (s : State) (new : Bool) : Nat := if new then rd s kIdNewBuckets else rd s kIdBuckets
def idtSeedOf (s : State) (new : Bool) : Nat := if new then s.radio.newSeed else rd s kIdSeed
/-- A rebuild runs. -/
def rebuilding (s : State) : Bool := rd s kIdRebuildState != 0
/-- Candidate buckets of a key. -/
def candidates (s : State) (new : Bool) (t ns key : Nat) : List Nat :=
  ([false, true].map fun w => Config.idtBucket (BitVec.ofNat 32 (idtSeedOf s new)) t ns key w % max 1 (idtBuckets s new)).eraseDups
/-- The higher of a key's two old candidate buckets lies below the cursor. -/
def moved (s : State) (t ns key : Nat) : Bool := (candidates s false t ns key).all fun b => b < rd s kIdCursor
/-- Places of the candidate buckets; the place of a key; the first free place. -/
def candPlaces (s : State) (new : Bool) (t ns key : Nat) : List Nat := (candidates s new t ns key).flatMap fun b => span (8 * b) 8
def idtFind (s : State) (new : Bool) (t ns key : Nat) : Option Nat :=
  (candPlaces s new t ns key).find? fun p => match tfind p (idtTable s new) with
    | some e => e.tenant == t && e.ns == ns && e.key == key
    | none => false
def idtFree (s : State) (new : Bool) (t ns key : Nat) : Option Nat :=
  (candPlaces s new t ns key).find? fun p => (tfind p (idtTable s new)).isNone

/-- The MAR that holds the sequencer. -/
def sequencerMar (s : State) : Nat := marOf ((unitOf (rd s kIdSequencer)).getD (marUnit 0) - 108)

/-- Keys a tenant holds in both tables; the counts of valid entries follow. -/
def idtHeld (s : State) (p : IdtEntry → Bool) : Nat :=
  let l := (s.radio.idtCur.map (·.2)) ++ s.radio.idtNew.map (·.2)
  ((l.filter p).map fun e => (e.tenant, e.ns, e.key)).eraseDups.length
def countEntries (t : Nat) (s : State) : State :=
  wr kIdEntries (idtHeld s fun _ => true) (wr (kTeIdtEntries t) (idtHeld s fun e => e.tenant == t) s)

/-- Poisoned lines of a bucket read by MAR `m` are rewritten as empty, and the owner told (R380). -/
def loseLines (m : Nat) (new : Bool) (b : Nat) (s : State) : Bool × State :=
  let line := fun (i : Nat) => idtLine s (s.radio.idtSecond != new) b i
  let bad := (upto 8).filter fun i => rangePoisoned s (line i) 64
  if bad.isEmpty then (false, s)
  else
    let gone := bad.filterMap fun i => tfind (8 * b + i) (idtTable s new)
    let s1 := each bad (fun i x => clearLinePoison (line i) 64 (setIdt new (tdel (8 * b + i) (idtTable x new)) x)) s
    let s2 := each (gone.map (·.tenant)) (fun t x => countEntries t x) (bumpBy 64 kIdEntriesLost gone.length s1)
    (true, ownerEvent (evMar 0x16 0 false 0 gone.length (now s) (b + 2 ^ 32 * b2n new)) (some (0x1605, 2, locEngine (marEngine m), b)) s2)

/-- A probe of one table by MAR `m`: the place found, and whether a poisoned line was read. -/
def probe (m : Nat) (new : Bool) (t ns key : Nat) (s : State) : (Option Nat × Bool) × State :=
  let r := (candidates s new t ns key).foldl (fun (a : Bool × State) b => let x := loseLines m new b a.2; (a.1 || x.1, x.2)) (false, s)
  ((idtFind r.2 new t ns key, r.1), r.2)

/-- A lookup (R361, Table 10-11). -/
def lookup (m t ns key : Nat) (s : State) : Lookup × State :=
  let found := fun (e : Option IdtEntry) (bad : Bool) => match e with
    | some e => Lookup.done true bad e.blocked e.sid e.user
    | none => Lookup.done false bad false 0 []
  let get := fun (s : State) (new : Bool) (p : Option Nat) => p.bind fun i => tfind i (idtTable s new)
  if rebuilding s && moved s t ns key then
    let ((p, bad), s1) := probe m true t ns key s
    (found (get s1 true p) bad, s1)
  else
    let ((p, bad), s1) := probe m false t ns key s
    if p.isSome || !rebuilding s then (found (get s1 false p) bad, s1)
    else
      let ((q, bad2), s2) := probe m true t ns key s1
      (found (get s2 true q) (bad || bad2), s2)

/-- A hit's statistics (R363), where the key stands now (R368). -/
def hitStats (t ns key source start cfo rssi : Nat) (s : State) : State :=
  let upd := fun (e : IdtEntry) => { e with source := source, seen := start, bursts := satAdd 32 e.bursts 1, cfo := cfo, rssi := rssi }
  let at_ := fun (new : Bool) (p : Nat) => match tfind p (idtTable s new) with
    | some e => setIdt new (tset p (upd e) (idtTable s new)) s
    | none => s
  let old := if rebuilding s && moved s t ns key then none else idtFind s false t ns key
  match old with
  | some p => at_ false p
  | none => match idtFind s true t ns key with
    | some p => if rebuilding s then at_ true p else s
    | none => s

/-! ### Records (R372 to R374) -/

/-- The line of the spool that holds bytes 64i of a record. -/
def recordLine (s : State) (b : Binding) (r : Record) (i : Nat) : Nat :=
  spoolStart s + b.base + (r.ofs + 64 * i) % max 1 (bSpoolBytes b.desc)
/-- Bytes of the ring in use. -/
def spoolUsed (b : Binding) : Nat := match b.spool with
  | r :: _ => b.written - r.ofs
  | [] => 0

/-- A record is appended to the spool of binding `n`, or lost and counted. -/
def appendRecord (n head : Nat) (sid : Option Nat) (user payload : List Byte) (s : State) : State :=
  let b := bindOf s n
  let m := bMar b.desc
  let h := setFld (setFld head 416 16 (min b.lost 65535)) 448 32 b.seq
  let r : Record := { seq := b.seq, head := h, sid := sid, user := user, payload := payload, ofs := b.written }
  if b.state = .free then s
  else if bSpoolBytes b.desc < spoolUsed b + recordBytes r then
    let s1 := marCount m 8 1 (setBind n { b with lost := b.lost + 1, episode := b.episode + 1 } s)
    if b.episode = 0 then fnEvent (n / 4) (evMar 0x13 m false (n % 4) 1 (now s) 0) s1 else s1
  else
    let s1 := each (upto (recordBytes r / 64)) (fun i x => clearLinePoison (recordLine s b r i) 64 x) s
    setBind n { b with spool := b.spool ++ [r], seq := (b.seq + 1) % 2 ^ 32, written := b.written + recordBytes r, lost := 0, episode := 0 } s1

/-- The record of a burst whose lookup and frame are over (Table 10-13). -/
def recordBurst (x : Burst) (head : Nat) (payload : List Byte) (s : State) : State :=
  let n := 4 * x.tenant + x.slot
  let s1 := { s with radio := { s.radio with bursts := s.radio.bursts.filter fun y => y.num != x.num } }
  let s2 := match x.lookup with
    | .done hit error blocked sid user =>
      let h := head + 2 ^ 8 * b2n hit + 2 ^ 10 * b2n error + 2 ^ 11 * b2n blocked + 2 ^ 256 * (if hit then sid else 0)
      let h1 := if blocked then setFld (setFld h 480 24 0) 504 4 0 else h
      let s2 := if hit then hitStats x.tenant x.ns x.key x.source x.start (fld head 288 32) (fld head 320 16) s1 else s1
      appendRecord n h1 (if hit then some sid else none) user (if blocked then [] else payload) s2
    | _ => marCount x.mar 7 1 (appendRecord n (head + 2 ^ 9) none [] payload s1)
  settleBinding n s2

/-- A burst changed. -/
def modBurst (k : Nat) (f : Burst → Burst) (s : State) : State :=
  { s with radio := { s.radio with bursts := updFirst (fun x => x.num == k) f s.radio.bursts } }
/-- A burst is recorded as soon as both are over. -/
def settleBurst (k : Nat) (s : State) : State :=
  match s.radio.bursts.find? fun x => x.num == k with
  | none => s
  | some x => match x.ended, x.lookup with
    | some (_, h, p), .done .. => recordBurst x h p s
    | some (_, h, p), .notLooked => recordBurst x h p s
    | _, _ => s

/-- A burst is declared. -/
def declareBurst (x : Burst) (s : State) : State :=
  marCount x.mar 5 1 { s with radio := { s.radio with bursts := s.radio.bursts ++ [{ x with num := s.radio.declared }], declared := s.radio.declared + 1 } }

/-- Lookups that wait at a MAR. -/
def lookupDepth (s : State) (m : Nat) : Nat := (s.radio.bursts.filter fun x => x.mar == m && x.lookup == .queued).length
/-- A key is decided: its lookup is queued, or given up while the queue is full (R361). -/
def queueLookup (k m key : Nat) (s : State) : State :=
  if lookupDepth s m < rd s (kMaLookupQueue m) then
    peak (kMaLookupDepthMax m) (lookupDepth s m + 1) (modBurst k (fun x => { x with key := key, lookup := .queued }) s)
  else settleBurst k (modBurst k (fun x => { x with key := key, lookup := .notLooked }) s)

/-- A lookup may still complete: its burst's deadline, if there is one yet, has not passed. -/
def beforeDeadline (s : State) (x : Burst) : Bool := match x.ended with
  | some (dl, _, _) => now s ≤ dl
  | none => true

/-- LOOKUP_DONE: the oldest lookup of a MAR completes. -/
def execLookupDone (m : MarId) (s : State) : Res :=
  match s.radio.bursts.find? fun x => x.mar == m.val && x.lookup == .queued && beforeDeadline s x with
  | none => done s
  | some x =>
    if !marRuns s m.val then done s
    else
      let (r, s1) := lookup m.val x.tenant x.ns x.key (marCount m.val 6 1 s)
      done (settleBurst x.num (modBurst x.num (fun x => { x with lookup := r }) s1))

/-- LOOKUP_DEADLINE: bursts of a MAR whose deadline has come are recorded without a lookup. -/
def execLookupDeadline (m : MarId) (s : State) : Res :=
  let isOver := s.radio.bursts.filter fun x => x.mar == m.val && match x.ended with
    | some (dl, _, _) => dl ≤ now s
    | none => false
  whenDue (marRuns s m.val) (fun s => each isOver (fun x t => settleBurst x.num (modBurst x.num (fun x => { x with lookup := .notLooked }) t)) s) s

/-! ### Class S (R352 to R357) -/

/-- A channel of a class S binding whose front end runs. -/
def chanOf (s : State) (n c : Nat) : Option (Binding × Chan) :=
  let b := bindOf s n
  if b.state == .active && !bClassE b.desc && c < bChannels b.desc && marRuns s (bMar b.desc) then some (b, tget b.chans c {}) else none
def setChan (n c : Nat) (v : Chan) (s : State) : State :=
  modBind n (fun b => { b with chans := if v = {} then tdel c b.chans else tset c v b.chans }) s
/-- The AxC that carries a channel. -/
def chanAxc (d c : Nat) : Nat := bAxcFirst d + c / max 1 (bPerStream d)

/-- PREAMBLE_DETECT. -/
def execPreambleDetect (t : TenantId) (slot : Fin 4) (c : Fin 1024) (s : State) : Res :=
  let n := 4 * t.val + slot.val
  match chanOf s n c.val with
  | some (b, ch) =>
    whenDue (ch.phase == .search) (fun s => marCount (bMar b.desc) 0 1 (setChan n c.val { phase := .preamble, since := now s } s)) s
  | none => done s

/-- Tc from detection to the end of the SFD search: PRE_MAX + 2 octets (Table 10-5). -/
def preambleTc (d : Nat) : Nat := ceilDiv ((bPreMax d + 2) * 15728640) (modeRate (bMode d))
/-- AFC limit of a channel, Hz: 50 ppm of its carrier (R354). -/
def afcLimitHz (d c : Nat) : Nat := (bCarrier d + c % max 1 (bPerStream d) * bWidth d) / 20
/-- The SFD that a window matches: coded or not, errors (R355). -/
def sfdMatch (d w : Nat) : Option (Bool × Nat) :=
  let u := popcount 16 (w ^^^ bSfdUncoded d)
  let k := popcount 16 (w ^^^ bSfdCoded d)
  let uOk := u ≤ bSfdErr d
  let kOk := bFecAllowed d && k ≤ bSfdErr d
  if uOk && (!kOk || u ≤ k) then some (false, u) else if kOk then some (true, k) else none

/-- SFD_MATCH: the 16-bit window, DTC of the first SFD bit, the frequency estimate in Hz. -/
def execSfdMatch (t : TenantId) (slot : Fin 4) (c : Fin 1024) (window : BitVec 16) (start : BitVec 64) (cfo : BitVec 32) (s : State) : Res :=
  let n := 4 * t.val + slot.val
  match chanOf s n c.val with
  | none => done s
  | some (b, ch) => match sfdMatch b.desc window.toNat with
    | none => done s
    | some (coded, errs) =>
      let m := bMar b.desc
      let lim : Int := afcLimitHz b.desc c.val
      let est := cfo.toInt
      let at_ := lim ≤ est || est ≤ -lim
      let x : Burst := { num := 0, mar := m, tenant := t.val, slot := slot.val, source := c.val, ns := bNs b.desc, start := start.toNat }
      let v : Chan := { phase := .frame, since := ch.since, start := start.toNat, coded := coded, errs := errs,
                        cfo := ofInt 32 (clampI (-lim) lim est), afcLimit := at_, burst := s.radio.declared }
      whenDue (ch.phase == .preamble && now s ≤ ch.since + preambleTc b.desc) (fun s =>
        marCount m 1 1 (marCount m 9 (b2n at_) (setChan n c.val v (declareBurst x s)))) s

/-- PRE_TIMEOUT. -/
def execPreTimeout (t : TenantId) (slot : Fin 4) (c : Fin 1024) (s : State) : Res :=
  let n := 4 * t.val + slot.val
  match chanOf s n c.val with
  | none => done s
  | some (b, ch) =>
    whenDue (ch.phase == .preamble && ch.since + preambleTc b.desc ≤ now s) (fun s => marCount (bMar b.desc) 2 1 (setChan n c.val {} s)) s

/-- The last gap of an AxC lies within a burst that began at `from_` (R351). -/
def gapSince (b : Binding) (axc from_ : Nat) : Bool :=
  b.gaps.contains axc || match tfind axc b.lastGap with
    | some t => from_ ≤ t
    | none => false

/-- Header of a class S record before its lookup. -/
def sunHead (b : Binding) (slot c : Nat) (ch : Chan) (result fin key rssi snr mse len kind : Nat) : Nat :=
  pack [(0, 8, result), (12, 1, b2n (ch.coded && ch.phase == .frame)), (13, 1, b2n (gapSince b (chanAxc b.desc c) ch.since)),
    (15, 1, b2n ch.afcLimit), (16, 2, slot), (24, 3, ch.errs), (32, 9, bindCi b.desc), (48, 10, c), (64, 64, ch.start), (128, 64, fin),
    (192, 64, key), (288, 32, ch.cfo), (320, 16, rssi), (336, 16, snr), (352, 16, ch.phr.getD 0), (368, 16, mse), (480, 24, len),
    (504, 4, kind)]

/-- The key of a burst as decided so far. -/
def burstKey (s : State) (k : Nat) : Nat := ((s.radio.bursts.find? fun x => x.num == k).map (·.key)).getD 0

/-- PHR_DECIDED: a length outside R357, or MS = 1, ends the burst with a record of its own; it is not looked up, and the
RSSI, SNR and EQ_MSE of a burst that ends there are free values. MS is [15] and the length
[10:0] (PRESUMED from IEEE 802.15.4, log 13). -/
def execPhrDecided (t : TenantId) (slot : Fin 4) (c : Fin 1024) (phr : BitVec 16) (s : State) : Res :=
  let n := 4 * t.val + slot.val
  match chanOf s n c.val with
  | none => done s
  | some (b, ch) =>
    let p := phr.toNat
    let len := fld p 0 11
    let v := { ch with phr := some p }
    let end_ := fun (code : Nat) (s : State) =>
      let (rssi, s1) := pick 65536 s
      let (snr, s2) := pick 65536 s1
      let (mse, s3) := pick 65536 s2
      let h := sunHead b slot.val c.val v code (now s) 0 rssi snr mse 0 0
      settleBurst ch.burst (modBurst ch.burst (fun x => { x with lookup := .notLooked, ended := some (now s, h, []) }) (setChan n c.val {} s3))
    whenDue (ch.phase == .frame && ch.phr.isNone) (fun s =>
      if bitAt p 15 then end_ 4 s
      else if len = 0 ∨ bMaxPsdu b.desc < len then end_ 3 s
      else setChan n c.val v s) s

/-- KEY_DECIDED: the KEY_LEN octets of the key in the order received; the first is the most significant. -/
def execKeyDecided (t : TenantId) (slot : Fin 4) (c : Fin 1024) (octets : List Byte) (s : State) : Res :=
  let n := 4 * t.val + slot.val
  match chanOf s n c.val with
  | none => done s
  | some (b, ch) =>
    let waiting := s.radio.bursts.any fun x => x.num == ch.burst && x.lookup == .none
    let key := ofBytes (padTo (bKeyLen b.desc) octets).reverse
    whenDue (ch.phase == .frame && ch.phr.isSome && waiting && bKeyOfs b.desc + bKeyLen b.desc ≤ fld (ch.phr.getD 0) 0 11) (fun s =>
      queueLookup ch.burst (bMar b.desc) key s) s

/-- FRAME_END: the last bit of a frame; the octets or LLRs received, whether the FCS holds, RSSI, SNR and EQ_MSE. -/
def execFrameEnd (t : TenantId) (slot : Fin 4) (c : Fin 1024) (data : List Byte) (fcsOk : Bool) (rssi snr mse : BitVec 16) (s : State) : Res :=
  let n := 4 * t.val + slot.val
  match chanOf s n c.val with
  | none => done s
  | some (b, ch) => match ch.phr with
    | none => done s
    | some p =>
      let len := if ch.coded then 2 * (16 + 8 * fld p 0 11 + 3) else fld p 0 11
      let payload := padTo len data
      let result := if ch.coded then 2 else if fcsOk then 0 else 1
      let h := sunHead b slot.val c.val ch result (now s) (burstKey s ch.burst) rssi.toNat snr.toNat mse.toNat len (if ch.coded then 2 else 1)
      whenDue (ch.phase == .frame) (fun s =>
        settleBurst ch.burst (modBurst ch.burst (fun x => { x with ended := some (now s + usToTc 50, h, payload) }) (setChan n c.val {} s))) s

/-! ### Class E (R359, R360) -/

/-- AFC range of a type, Hz (Table 10-7). -/
def typeAfc (t : Nat) : Int := [1875, 1875, 625, 625, 7500, 7500].getD t 625
/-- Start of the last occasion of a resource at or before a time; none before the first (R358, R452). -/
def occasionStart (ofs r t : Nat) : Option Nat :=
  let first := ofs + msToTc (rOffset r)
  if t < first then none else some (first + (t - first) / msToTc (max 1 (rPeriod r)) * msToTc (max 1 (rPeriod r)))
/-- Bytes of a PUR's samples (R360). -/
def purBytes (r : Nat) : Nat :=
  let sc := if rType r = 4 then [1, 3, 6, 12].getD (fld r 232 3) 1 else 12 * fld r 232 3
  4 * rNant r * fld r 224 8 * 14 * sc

/-- A candidate of an occasion is declared: the burst, with its lookup queued. -/
def declareCand (n idx : Nat) (b : Binding) (r start : Nat) (x : Cand) (s : State) : State :=
  let m := bMar b.desc
  let t := rType r
  let key := if rPur r then rKeyBase r else (rKeyBase r + x.idx) % 2 ^ 64
  let axc := if bSections b.desc then bAxcFirst b.desc + rSource r else chanAxc b.desc (rSource r)
  let payload := if rPur r then padTo (purBytes r) x.samples else []
  let limit := decide (typeAfc t ≤ x.cfo ∨ x.cfo ≤ -(typeAfc t))
  let h := pack [(0, 8, if rPur r then 0x11 else 0x10), (13, 1, b2n (gapSince b axc start)), (15, 1, b2n limit), (16, 2, n % 4), (18, 3, t + 1), (32, 9, bindCi b.desc),
    (48, 10, idx), (64, 64, start), (128, 64, now s), (192, 64, key), (288, 32, ofInt 32 (clampI (-(typeAfc t)) (typeAfc t) x.cfo)),
    (320, 16, x.rssi), (336, 16, x.snr), (352, 16, x.idx), (368, 16, ofInt 16 (clampI (-32768) 32767 x.metric)), (384, 32, ofInt 32 x.toa),
    (480, 24, payload.length), (504, 4, if rPur r then 3 else 0)]
  let k := s.radio.declared
  let y : Burst := { num := 0, mar := m, tenant := n / 4, slot := n % 4, source := idx, ns := bNs b.desc, start := start,
                     ended := some (now s + usToTc 150, h, payload) }
  queueLookup k m key (marCount m 9 (b2n limit) (declareBurst y s))

/-- The candidates of an occasion: the strongest 16 above the energy threshold are qualified, and those that qualify are declared (R359); a
resource being removed goes with its occasion. -/
def occasionOver (n idx : Nat) (b : Binding) (r start : Nat) (cands : List Cand) (s : State) : State :=
  let m := bMar b.desc
  let energy := sortBy (fun a c => c.ratio ≤ a.ratio) (cands.filter fun x => x.idx < rNcand r && rEnergyTh r ≤ x.ratio)
  let tried := energy.take 16
  let ok := tried.filter fun x => rQualTh r ≤ x.metric
  let s1 := marCount m 4 (energy.length - 16) (marCount m 3 (tried.length - ok.length) s)
  let s2 := each ok (fun x y => declareCand n idx b r start x y) s1
  if b.removing.contains idx then
    modBind n (fun b => { b with resources := tdel idx b.resources, removing := b.removing.filter (· != idx) }) s2
  else s2

/-- OCCASION_END: an occasion of a resource ends with what the MAR measured of its candidates. -/
def execOccasionEnd (t : TenantId) (slot : Fin 4) (idx : Fin 64) (cands : List Cand) (s : State) : Res :=
  let n := 4 * t.val + slot.val
  let b := bindOf s n
  match tfind idx.val b.resources with
  | none => done s
  | some r => (occasionStart (ciOfs (ciDesc s (bindCi b.desc))) r (now s)).elim (done s) fun start =>
    whenDue (b.state == .active && marRuns s (bMar b.desc)) (occasionOver n idx.val b r start cands) s

/-! ### Gaps (R351) -/

/-- Samples of an AxC are missing: one event per episode to the tenant of each binding that takes the stream. -/
def marGap (axc : Nat) (s : State) : State :=
  let mine := s.radio.bindings.filter fun e => e.2.state == .active && bAxcFirst e.2.desc ≤ axc && axc < bAxcFirst e.2.desc + bAxcCount e.2.desc
  each mine (fun e x =>
    let m := bMar e.2.desc
    let x1 := modBind e.1 (fun b => { b with gaps := if b.gaps.contains axc then b.gaps else axc :: b.gaps, lastGap := tset axc (now s) b.lastGap }) x
    if e.2.gaps.contains axc then x1
    else fnEvent (e.1 / 4) (evMar 0x14 m false axc 0 (now s) 0) (marCount m 10 1 x1)) s
/-- Samples of an AxC arrive again. -/
def marGapEnd (axc : Nat) (s : State) : State :=
  let mine := s.radio.bindings.filter fun e => e.2.gaps.contains axc
  each mine (fun e x => modBind e.1 (fun b => { b with gaps := b.gaps.filter (· != axc), lastGap := tset axc (now s) b.lastGap }) x) s

/-! ### COLLECT (R377, R378) -/

/-- The chunk of a 0x060 job on a MAR, by operation. -/
def marChunk (s : State) (m : Nat) (update : Bool) : Option Chunk :=
  match curChunk s (marEngine m) 0x060 with
  | some (run, g, r) =>
    let b := paramBlock s g r
    if bitAt b 0 == update then some { e := marEngine m, run := run, g := g, r := r, b := b } else none
  | none => none

/-- Bytes a record takes in the output. -/
def outBytes (r : Record) : Nat := recordBytes r + (if r.sid.isSome then 64 else 0)
/-- Qualifying records that fit one after another below a limit, from `pos` on. -/
def takeRecords (lim : Nat) : Nat → List Record → List (Nat × Record)
  | _, [] => []
  | pos, r :: l => if pos + outBytes r ≤ lim then (pos, r) :: takeRecords lim (pos + outBytes r) l else []

/-- A record is written to the output: poison seen, and the state after. -/
def writeRecord (x : Chunk) (b : Binding) (pos : Nat) (r : Record) (s : State) : Bool × State :=
  let ofs := pf x.b 8 0 32 + pos
  let hit := r.sid.isSome
  let head := toBytes 64 (setFld r.head 14 1 (b2n r.redelivered))
  let bytes := head ++ (if hit then padTo 64 r.user else []) ++ padTo (recordBytes r - 64) r.payload
  let bad := (upto (recordBytes r / 64)).filter fun i => rangePoisoned s (recordLine s b r i) 64
  let s1 := x.put 1 ofs bytes false s
  (!bad.isEmpty, each bad (fun i y => poisonBuf x.g x.r (x.buf 1) (ofs + 64 * (if i = 0 ∨ !hit then i else i + 1)) 64 y) s1)

/-- COLLECT: a chunk takes the records that fit in its part of the output; the last writes the summary. -/
def execCollect (m : MarId) (s : State) : Res :=
  match marChunk s m.val false with
  | none => done s
  | some x =>
    if blockPoisoned s x.g x.r then done (chunkWorked x.e 5 x.run s)
    else if startFails s x then done (chunkWorked x.e 7 x.run s)
    else if let some a := jobHole s x.g x.r then done (endHole x.e a x.run s)
    else
      let n := 4 * x.g.tenant + pf x.b 1 0 2
      let b := bindOf s n
      let me := some (x.g.id, x.r.p.num)
      let cutoff : Int := (x.g.air : Int) + toInt 32 (pf x.b 4 0 32)
      let ok := fun (r : Record) => r.held.isNone && (fld r.head 128 64 : Int) ≤ cutoff
      let before := b.spool.filter fun r => r.held == me
      let took := takeRecords (1024 * (x.run.first + x.run.n)) (before.foldl (fun c r => c + outBytes r) 0) (b.spool.filter ok)
      let (bad, s1) := took.foldl (fun (a : Bool × State) p => let w := writeRecord x b p.1 p.2 a.2; (a.1 || w.1, w.2)) (false, s)
      let seqs := took.map fun p => p.2.ofs
      let s2 := modBind n (fun b => { b with spool := b.spool.map fun r => if seqs.contains r.ofs then { r with held := me } else r }) s1
      let mine := (bindOf s2 n).spool.filter fun r => r.held == me
      let more := (bindOf s2 n).spool.any ok
      let sum := pack [(0, 32, mine.length), (32, 32, mine.foldl (fun c r => c + outBytes r) 0), (64, 32, (mine.head?.map (·.seq)).getD 0),
        (96, 1, b2n more)]
      let s3 := if x.last then x.put 2 (pf x.b 16 0 32) (toBytes 16 sum) false s2 else s2
      done (chunkWorked x.e (if bad then 5 else 0) x.run s3)

/-- COLLECT_CUTOFF: jobs whose time gate has opened become ready. -/
def execCollectCutoff (s : State) : Res := done (wake s)

/-! ### UPDATE and the sequencer (R364, R365, R379) -/

/-- A command whose job still runs. -/
def liveCommand (s : State) (c : UpdCmd) : Bool := match (unitSt s (engUnit c.eng)).cur with
  | some r => r.gid == c.gid && r.num == c.num && !r.cancel
  | none => false
/-- The next command, those of stopped jobs left out. -/
def nextCommand (s : State) : Option UpdCmd := s.radio.commands.find? (liveCommand s)

/-- OP of a command, or none for a bad one. -/
def commandOp (c : Nat) : Option Nat :=
  let op := fld c 0 3
  if op ≤ 5 && onlyFields c [(0, 3), (16, 304)] && (op == 0 || op == 2 || fld c 58 6 == 0) then some op else none

/-- The result of a command is written; the chunk's work is done with its last command. -/
def commandResult (c : UpdCmd) (code sid : Nat) (s : State) : State :=
  let s1 := { s with radio := { s.radio with commands := s.radio.commands.filter (· != c) } }
  match marChunk s1 (marOf c.eng) true with
  | none => s1
  | some x =>
    let s2 := x.put 1 (pf x.b 16 0 32 + 16 * c.idx) (toBytes 16 (pack [(0, 8, code), (16, 16, c.idx), (32, 32, sid)])) false s1
    if s2.radio.commands.any fun y => y.gid == c.gid && y.num == c.num then s2 else chunkWorked x.e 0 x.run s2

/-- Bad commands at the head of the queue are answered. -/
def answerBad : Nat → State → State
  | 0, s => s
  | fuel + 1, s => match nextCommand s with
    | some c => if (commandOp c.cmd).isNone then answerBad fuel (commandResult c 6 0 s) else s
    | none => s

/-- UPDATE: the commands of a chunk are sent to the sequencer. -/
def execUpdate (m : MarId) (s : State) : Res :=
  match marChunk s m.val true with
  | none => done s
  | some x =>
    if blockPoisoned s x.g x.r then done (chunkWorked x.e 5 x.run s)
    else if startFails s x then done (chunkWorked x.e 7 x.run s)
    else if let some a := jobHole s x.g x.r then done (endHole x.e a x.run s)
    else if s.radio.commands.any fun c => c.gid == x.g.id && c.num == x.r.p.num then done s
    else
      let ofs := pf x.b 12 0 32 + 64 * x.run.first
      let (l, bad) := x.read 0 ofs (64 * x.run.n) s
      let cmds := (upto x.run.n).map fun i =>
        ({ gid := x.g.id, num := x.r.p.num, eng := x.e, idx := x.run.first + i, cmd := fieldAt l (64 * i) 64 } : UpdCmd)
      let s1 := { s with radio := { s.radio with commands := (s.radio.commands.filter (liveCommand s)) ++ cmds } }
      let s2 := if bad then modRt x.g.id x.r.p.num (fun r => { r with code := worseCode 5 r.code }) s1 else s1
      done (answerBad (x.run.n + 1) s2)

/-- The next command, when its OP is `op`, is applied: code and SHORT_ID of its result, and the state after. -/
def sequenced (op : Nat) (f : Nat → Nat → State → (Nat × Nat) × State) (s : State) : Res :=
  match nextCommand s with
  | none => done s
  | some c =>
    if commandOp c.cmd != some op then done s
    else match graphOf s c.gid with
      | none => done s
      | some g =>
        let ((code, sid), s1) := f g.tenant c.cmd s
        let s2 := if code = 4 then bump kIdInsertFull s1 else s1
        done (answerBad (s2.radio.commands.length + 1) (commandResult c code sid (countEntries g.tenant s2)))

/-- Fields of a command (Table 10-9). -/
def cNs (c : Nat) : Nat := fld c 16 16
def cSid (c : Nat) : Nat := fld c 32 32
def cKey (c : Nat) : Nat := fld c 64 64
def cUser (c : Nat) : List Byte := toBytes 24 (fld c 128 192)

/-- Where an entry of a tenant stands: in the table being built first. -/
def findKey (s : State) (t ns key : Nat) : Option (Bool × Nat) :=
  match (if rebuilding s then idtFind s true t ns key else none) with
  | some p => some (true, p)
  | none => (idtFind s false t ns key).map fun p => (false, p)
def findSid (s : State) (t sid : Nat) : Option IdtEntry :=
  ((s.radio.idtNew ++ s.radio.idtCur).find? fun e => e.2.tenant == t && e.2.sid == sid).map (·.2)

/-- An entry written back changed (Table 10-11): in place; or, during a rebuild, in the new table and deleted from the old. False when
the new table has no room. -/
def writeBack (e : IdtEntry) (s : State) : Bool × State :=
  let tidy := fun (s : State) => match idtFind s false e.tenant e.ns e.key with
    | some p => setIdt false (tdel p s.radio.idtCur) s
    | none => s
  if !rebuilding s then match idtFind s false e.tenant e.ns e.key with
    | some p => (true, setIdt false (tset p e s.radio.idtCur) s)
    | none => (true, s)
  else match idtFind s true e.tenant e.ns e.key with
    | some p => (true, tidy (setIdt true (tset p e s.radio.idtNew) s))
    | none => match idtFree s true e.tenant e.ns e.key with
      | some p => (true, tidy (setIdt true (tset p e s.radio.idtNew) s))
      | none => (false, s)

/-- The lowest free short-identity index (R366). -/
def freeSid (s : State) : Option Nat :=
  (upto (s.radio.sids.length + 1)).find? fun i => i < 4194304 && !(tget s.radio.sids i {}).inUse && (tget s.radio.sids i {}).quarantine.isNone

/-- INSERT. -/
def insertDo (t c : Nat) (s : State) : (Nat × Nat) × State :=
  let ns := cNs c
  let key := cKey c
  match findKey s t ns key with
  | some (new, p) => match tfind p (idtTable s new) with
    | some e =>
      let (ok, s1) := writeBack { e with user := cUser c } s
      if ok then ((1, e.sid), s1) else ((4, 0), s1)
    | none => ((2, 0), s)
  | none =>
    let new := rebuilding s
    if rd s (kTeIdtQuota t) ≤ idtHeld s (fun e => e.tenant == t) then ((5, 0), s)
    else match idtFree s new t ns key, freeSid s with
      | none, _ => ((4, 0), s)
      | _, none => ((7, 0), s)
      | some p, some i =>
        let gen := ((tget s.radio.sids i {}).gen + 1) % 16
        let sid := i + 2 ^ 22 * gen
        let e : IdtEntry := { key := key, ns := ns, tenant := t, sid := sid, user := cUser c }
        let s1 := setIdt new (tset p e (idtTable s new)) s
        ((0, sid), countSids { s1 with radio := { s1.radio with sids := tset i { gen := gen, inUse := true } s1.radio.sids } })

/-- A command on a short identity acts on an entry of its tenant (R365). -/
def bySid (t c : Nat) (f : IdtEntry → State → (Nat × Nat) × State) (s : State) : (Nat × Nat) × State :=
  let x := tget s.radio.sids (sidIndex (cSid c)) {}
  if !x.inUse || x.gen != cSid c / 2 ^ 22 then ((3, 0), s)
  else match findSid s t (cSid c) with
    | some e => f e s
    | none => ((2, 0), s)
/-- An entry is replaced by another of the same key. -/
def replaceEntry (e : IdtEntry) (s : State) : (Nat × Nat) × State :=
  let (ok, s1) := writeBack e s
  (if ok then (0, e.sid) else (4, 0), s1)
/-- An entry is deleted from both tables; its index is free, or in quarantine while a record bears it (R366). -/
def deleteEntry (e : IdtEntry) (s : State) : (Nat × Nat) × State :=
  let del := fun (new : Bool) (s : State) => match idtFind s new e.tenant e.ns e.key with
    | some p => setIdt new (tdel p (idtTable s new)) s
    | none => s
  let i := sidIndex e.sid
  let s1 := del true (del false s)
  let x := tget s1.radio.sids i {}
  let x1 := { x with inUse := false, quarantine := if sidBorne s1 i then some (now s) else none }
  ((0, e.sid), countSids { s1 with radio := { s1.radio with sids := tset i x1 s1.radio.sids, stallDelete := true } })

/-- DELETE_KEY. -/
def deleteKeyDo (t c : Nat) (s : State) : (Nat × Nat) × State :=
  match findKey s t (cNs c) (cKey c) with
  | some (new, p) => match tfind p (idtTable s new) with
    | some e => deleteEntry e s
    | none => ((2, 0), s)
  | none => ((2, 0), s)

def execInsert (s : State) : Res := sequenced 0 insertDo s
def execSetUser (s : State) : Res := sequenced 1 (fun t c => bySid t c fun e => replaceEntry { e with user := cUser c }) s
def execDeleteKey (s : State) : Res := sequenced 2 deleteKeyDo s
def execDeleteId (s : State) : Res := sequenced 3 (fun t c => bySid t c deleteEntry) s
def execBlock (s : State) : Res := sequenced 4 (fun t c => bySid t c fun e => replaceEntry { e with blocked := true }) s
def execUnblock (s : State) : Res := sequenced 5 (fun t c => bySid t c fun e => replaceEntry { e with blocked := false }) s

/-- SID_QUARANTINE_EXPIRY. -/
def execSidQuarantineExpiry (s : State) : Res :=
  let isOver := fun (x : SidSt) => match x.quarantine with
    | some t => t + msToTc (rd s kIdIdQuarantine) ≤ now s
    | none => false
  whenDue (s.radio.sids.any fun e => isOver e.2) settleSids s

/-- SEQUENCER_HANDOVER: with the sequencer's MAR out of service, the lowest-coded one in service takes the role at a job boundary. -/
def execSequencerHandover (s : State) : Res :=
  let out := !inService s (marUnit (sequencerMar s))
  match (upto 4).find? fun m => inService s (marUnit m) with
  | none => done s
  | some m => whenDue (out && (unitSt s (marUnit m)).cur.isNone) (wr kIdSequencer (locEngine (marEngine m))) s

/-! ### Rebuild (R367 to R371) -/

/-- IDT_REBUILD: BUCKETS and SEED of the new table. -/
def wIdtRebuild (buckets seed : Nat) (s : State) : Written :=
  let quotas := (upto 512).foldl (fun n t => n + rd s (kTeIdtQuota t)) 0
  if rebuilding s then refusedW .state s
  else if !(4096 ≤ buckets && buckets ≤ rd s kIdBucketsMaxNow && buckets == 2 ^ Nat.log2 buckets) || 8 * buckets < quotas then refusedW .range s
  else accepted (wr kIdRebuildState 1 (wr kIdCursor 0 (wr kIdNewBuckets buckets
    { s with radio := { s.radio with idtNew := [], newSeed := seed, stallDelete := false } })))
/-- IDT_REBUILD. -/
def execIdtRebuild (buckets seed : Word) (s : State) : Res := answer (wIdtRebuild buckets.toNat seed.toNat s)

/-- The valid entries of an old bucket go to the new table, but for keys it already holds; the key that found no room, if any. -/
def copyEntries : List IdtEntry → State → Option Nat × State
  | [], s => (none, s)
  | e :: r, s =>
    if (idtFind s true e.tenant e.ns e.key).isSome then copyEntries r s
    else match idtFree s true e.tenant e.ns e.key with
      | some p => copyEntries r (setIdt true (tset p e s.radio.idtNew) s)
      | none => (some e.key, s)

/-- A migration step: bucket c is moved, or the rebuild stalls. -/
def migrateStep (s : State) : State :=
  let c := rd s kIdCursor
  let (_, s1) := loseLines (sequencerMar s) false c s
  match copyEntries ((span (8 * c) 8).filterMap fun p => tfind p s1.radio.idtCur) s1 with
  | (some key, s2) =>
    let s3 := { s2 with radio := { s2.radio with stallAt := now s, stallDelete := false } }
    if rd s kIdRebuildState = 3 then s3
    else ownerEvent (evMar 0x15 0 true 0 0 (now s) key) none (wr kIdRebuildState 3 s3)
  | (none, s2) => wr kIdRebuildState (if c + 1 = rd s kIdBuckets then 2 else 1) (wr kIdCursor (c + 1) s2)

/-- IDT_MIGRATE_STEP. -/
def execIdtMigrateStep (s : State) : Res := whenDue (rd s kIdRebuildState == 1) migrateStep s
/-- IDT_STALL_RETRY: after a delete, and every 1 s. -/
def execIdtStallRetry (s : State) : Res :=
  whenDue (rd s kIdRebuildState == 3 && (s.radio.stallDelete || s.radio.stallAt + secToTc 1 ≤ now s)) migrateStep s

/-- IDT_SWAP: between the 0x060 jobs of every MAR the new table becomes the current one. -/
def execIdtSwap (s : State) : Res :=
  let busy := (upto 4).any fun m => match (unitSt s (marUnit m)).cur with
    | some r => ((graphOf s r.gid).map fun g => (g.jobs.getD r.num {}).op) == some 0x060
    | none => false
  let part := s.work.graphs.any fun g => g.rts.any fun r =>
    r.ran && r.open_ && r.p.num < 4096 && (g.jobs.getD r.p.num {}).op == 0x060
  whenDue (rd s kIdRebuildState == 2 && !busy && !part) (fun s =>
    let n := rd s kIdNewBuckets
    let s1 := { s with radio := { s.radio with idtCur := s.radio.idtNew, idtNew := [], idtSecond := !s.radio.idtSecond } }
    ownerEvent (evMar 0x15 0 false 0 0 (now s) n) none
      (wr kIdBuckets n (wr kIdSeed s.radio.newSeed (wr kIdNewBuckets 0 (wr kIdCursor 0 (wr kIdRebuildState 0 s1)))))) s

/-- IDT_QUOTA of a tenant: the sum over tenants at most BUCKETS × 8 (Table 10-20). -/
def wIdtQuota (t v : Nat) (s : State) : Written :=
  let sum := (upto 512).foldl (fun n u => if u = t then n else n + rd s (kTeIdtQuota u)) v
  if 4194304 < v ∨ 8 * rd s kIdBuckets < sum then refusedW .range s else accepted (wr (kTeIdtQuota t) v s)

end Sys2Proof.Machine
end

