-- ==== Sys2Proof/Machine/Lanes.lean ====
section
/-!
DEFINITION. The serial lanes (11_serial_lanes.md): rates and transmit settings, adaptation, calibration records, eye scans, lane states,
alignment and test patterns.
-/
namespace Sys2Proof.Machine

/-! ### Lanes and rates (R386 to R393) -/

/-- What the device keeps of lane `n` beside its objects. -/
def laneOf (s : State) (n : Nat) : LaneSt := tget s.links.lanes n {}
/-- The record of a lane changed. -/
def modLane (n : Nat) (f : LaneSt → LaneSt) (s : State) : State :=
  { s with links := { s.links with lanes := tmod s.links.lanes n {} f } }

/-- STATE of a lane: 0 DISABLED, 1 ACQUIRING, 2 ACTIVE, 3 ENTERING, 4 STANDBY, 5 DEEP. -/
def laneState (s : State) (n : Nat) : Nat := rd s (kLaState n)
/-- RATE of a lane. -/
def laneRate (s : State) (n : Nat) : Nat := rd s (kLaRate n)

/-- Symbols per second of the serialiser in units of 10 kHz (Table 11-1). -/
def symRate (rate : Nat) : Nat :=
  [0, 245760, 245760, 245760, 307200, 491520, 614400, 811008, 983040, 1013760, 1216512, 2433024, 1031250, 2578125,
    2656250].getD rate 0
/-- `n` UI in Tc, rounded up. -/
def uiTc (rate n : Nat) : Nat := ceilDiv (n * 196608) (symRate rate)
/-- Eyes: three for PAM4, one for NRZ (Table 11-1). -/
def eyeCount (rate : Nat) : Nat := if rate = 14 then 3 else 1

/-- A CPRI-capable lane: of lane quads L(4q) and L(4q+1) (R389). -/
def cpriCapable (n : Nat) : Bool := n % 16 < 8

/-- Some AxC of port `p` is bound (R426). -/
def portBound (s : State) (p : Nat) : Bool := s.radio.axcs.any fun e => axcPort e.2 == p

/-- The lane belongs to a port that carries a bound AxC (R410); a MAR input is such an AxC (R349). -/
def laneBound (s : State) (n : Nat) : Bool :=
  match portOfLane s n with
  | some p => portBound s p
  | none => false

/-- The default taps of a RATE's column, C_PRE2 to C_POST (Table 11-2). -/
def tapDefaults (rate : Nat) : List Int :=
  if rate ≤ 6 then [0, 0, 63, 0]
  else if rate = 14 then [0, -6, 48, -9]
  else if rate = 11 || rate = 13 then [0, -4, 51, -8]
  else [0, 0, 55, -8]

/-- RATE: only while the lane is DISABLED and its port has no mode; codes 0 to 14, CPRI codes on CPRI-capable lanes (R387, R389,
R390, R419). It loads its column's taps; PRECODE, which must be 0 with any other RATE, leaves with code 14 (R393). -/
def wLaneRate (n v : Nat) (s : State) : Written :=
  if laneState s n ≠ 0 || (portOfLane s n).isSome then refusedW .state s
  else if 14 < v || (1 ≤ v && v ≤ 11 && !cpriCapable n) then refusedW .range s
  else
    let s1 := each (upto 4) (fun i t => wrI (kLaTap n i) 8 ((tapDefaults v).getD i 0) t) (wr (kLaRate n) v s)
    accepted (if v = 14 then s1 else wr (kLaPrecode n) 0 s1)

/-- LANE_RATE. -/
def execLaneRate (n : LaneId) (v : Byte) (s : State) : Res := answer (wLaneRate n.val v.toNat s)

/-- A tap of a lane, 0 C_PRE2 to 3 C_POST. -/
def laneTap (s : State) (n i : Nat) : Int := rdI s (kLaTap n i) 8

/-- The range of each tap (Table 11-2). -/
def tapRange (i : Nat) : Int × Int := [(-8, 4), (-24, 0), (24, 63), (-24, 0)].getD i (0, 0)

/-- A tap takes a value: in its range, and the sum of the magnitudes at most 63 (R391). -/
def wTap (n i : Nat) (v : Int) (s : State) : Written :=
  let sum := (upto 4).foldl (fun a j => a + (if j = i then v else laneTap s n j).natAbs) 0
  if v < (tapRange i).1 || (tapRange i).2 < v || 63 < sum then refusedW .range s
  else accepted (wrI (kLaTap n i) 8 v s)

/-- TX_SWING: codes 0 to 15 (Table 11-2). -/
def wSwing (n v : Nat) (s : State) : Written := if 15 < v then refusedW .range s else accepted (wr (kLaTxSwing n) v s)

/-- TX_TAP_WRITE: item 0 the swing, 1 to 4 a tap; it shows at the next boundary of 64 UI (R392). -/
def execTxTapWrite (n : LaneId) (item : Fin 5) (v : Byte) (s : State) : Res :=
  answer (if item.val = 0 then wSwing n.val v.toNat s else wTap n.val (item.val - 1) v.toInt s)

/-! ### Events (R415) -/

/-- A lane event: 0x17 LANE_LINK, 0x18 LANE_CAL, 0x19 EYE_SCAN_DONE (Table 11-11). -/
def laneEvent (typ cause n value : Nat) (s : State) : State :=
  ownerEvent (pack [(0, 8, typ), (8, 8, cause), (16, 6, n), (32, 32, value), (64, 64, now s)]) none s

/-- A count of LANE_STATS goes on: 0 LOS, 1 unlocks, 2 AM losses, 3 stale episodes, 4 re-centrings, 5 failed, 6 standby entries, 7 deep
entries, 8 aborted entries, 9 ROUND_TRIPS, 10 ns in ACTIVE. -/
def laneStat (n i k : Nat) (s : State) : State := bumpBy 64 (kLaLaneStats n i) k s

/-- A bit of LINK_FLAGS: 0 signal, 1 CDR lock, 2 AM lock, 3 SKEW_EXCESS, 4 STALE, 5 GUARDED. -/
def setLinkFlag (n b : Nat) (v : Bool) (s : State) : State :=
  wr (kLaLinkFlags n) (setFld (rd s (kLaLinkFlags n)) b 1 (b2n v)) s

/-! ### Receiver and adaptation (R394 to R396) -/

/-- DFE tap `i` of 12, a signed slicer code. -/
def dfeTap (s : State) (n i : Nat) : Int := toInt 8 (fld (rd s (kLaDfeTaps n)) (8 * i) 8)

/-- DFE_UPDATE: every 2^12 UI of an ACTIVE lane; each tap moves by at most one code, tap 1 within ±96, the others within ±32, unless
DFE_MODE holds them (R394, R395). -/
def execDfeUpdate (n : LaneId) (up down : BitVec 12) (s : State) : Res :=
  whenDue (laneState s n.val == 2 && rd s (kLaDfeMode n.val) == 0) (fun s =>
    let step := fun (i : Nat) => (b2n (bitAt up.toNat i) : Int) - (b2n (bitAt down.toNat i) : Int)
    let lim := fun (i : Nat) => if i = 0 then (96 : Int) else 32
    let taps := (upto 12).map fun i =>
      (8 * i, 8, ofInt 8 (clampI (-(lim i)) (lim i) (dfeTap s n.val i + step i)))
    wr (kLaDfeTaps n.val) (pack taps) s) s

/-- A code one up (1), one down (2) or held, within 0 to `hi`. -/
def codeStep (m : BitVec 2) (hi c : Nat) : Nat := if m = 1 then min hi (c + 1) else if m = 2 then c - 1 else c

/-- CTLE_VGA_VISIT: every 2^20 UI of an ACTIVE lane; each by at most one code, the CTLE held under CTLE_MODE 1 (R395). -/
def execCtleVgaVisit (n : LaneId) (ctle vga : BitVec 2) (s : State) : Res :=
  whenDue (laneState s n.val == 2) (fun s =>
    let s1 := if rd s (kLaCtleMode n.val) = 1 then s else wr (kLaCtleCode n.val) (codeStep ctle 15 (rd s (kLaCtleCode n.val))) s
    wr (kLaVga n.val) (codeStep vga 31 (rd s1 (kLaVga n.val))) s1) s

/-- CTLE_CODE: stored under CTLE_MODE 0, in force under CTLE_MODE 1 (Table 11-12). -/
def wCtleCode (n v : Nat) (s : State) : Written :=
  if 15 < v then refusedW .range s
  else if rd s (kLaCtleMode n) = 1 then accepted (wr (kLaCtleCode n) v s)
  else accepted (modLane n (fun l => { l with ctleSet := some v }) s)

/-- CTLE_MODE: 1 holds the CTLE at the code last written (R395). -/
def wCtleMode (n v : Nat) (s : State) : Written :=
  if 1 < v then refusedW .range s
  else
    let s1 := wr (kLaCtleMode n) v s
    accepted (match (laneOf s n).ctleSet with
      | some c => if v = 1 then wr (kLaCtleCode n) c (modLane n (fun l => { l with ctleSet := none }) s1) else s1
      | none => s1)

/-- CDR_BW: codes 0 to 3; CDR_BW_NOW stays one code above while the guard applies (R396, R400). -/
def wCdrBw (n v : Nat) (s : State) : Written :=
  if 3 < v then refusedW .range s
  else accepted (wr (kLaCdrBwNow n) (if bitAt (rd s (kLaLinkFlags n)) 5 then min 3 (v + 1) else v) (wr (kLaCdrBw n) v s))

/-! ### Calibration records (R397 to R402) -/

/-- The calibration record captured now, its STALE and GUARDED kept (Table 11-3). `supply` is VDD_SERDES_A at the quad in mV. -/
def laneCapture (n supply : Nat) (s : State) : State :=
  let l := laneOf s n
  let thr := fun (i : Nat) => if i = 0 || laneRate s n = 14 then ofInt 8 (l.thresh.getD i 0) else 0
  let rec_ := pack [(0, 8, 1), (8, 8, laneRate s n), (16, 4, rd s (kLaCtleCode n)), (24, 5, rd s (kLaVga n)),
    (32, 96, rd s (kLaDfeTaps n)), (128, 8, ofInt 8 l.phase), (136, 8, thr 0), (144, 8, thr 1), (152, 8, thr 2),
    (160, 16, ofInt 16 (domTj s (quadDom n))), (176, 16, supply), (192, 64, now s), (256, 2, rd s (kLaLoadClass n)),
    (264, 2, fld (rd s (kLaCalRecord n)) 264 2)]
  wr (kLaCalRecord n) rec_ (modLane n (fun l => { l with lastCapture := now s }) s)

/-- The conditions of R399 that hold, bit k for the k-th. -/
def laneStaleBits (s : State) (n supply : Nat) : Nat :=
  let r := rd s (kLaCalRecord n)
  b2n (16 * rd s (kLaWinTemp n) < (domTj s (quadDom n) - toInt 16 (fld r 160 16)).natAbs) +
    2 * b2n (rd s (kLaWinSupply n) < ((supply : Int) - (fld r 176 16 : Int)).natAbs) +
    4 * b2n (rd s (kLaLoadClass n) != fld r 256 2) +
    8 * b2n (secToTc (3600 * rd s (kLaWinAge n)) < now s - fld r 192 64) +
    16 * b2n (fld r 8 8 != laneRate s n)

/-- STALE and GUARDED in the record and in LINK_FLAGS. -/
def setGuard (n : Nat) (v : Bool) (s : State) : State :=
  let b := if v then 3 else 0
  wr (kLaCalRecord n) (setFld (rd s (kLaCalRecord n)) 264 2 b) (wr (kLaLinkFlags n) (setFld (rd s (kLaLinkFlags n)) 4 2 b) s)

/-- The record becomes stale: the guard widens the CDR loop by one code (R400). -/
def laneGuard (n bits : Nat) (s : State) : State :=
  let s1 := setGuard n true (wr (kLaCdrBwNow n) (min 3 (rd s (kLaCdrBw n) + 1)) s)
  laneEvent 0x18 1 n bits (laneStat n 3 1 (modLane n (fun l => { l with staleSince := some (now s), failedAt := none }) s1))

/-- The record is compared with the present context (R399); one that is stale already stays so. -/
def laneContext (n supply : Nat) (s : State) : State :=
  let bits := laneStaleBits s n supply
  if bitAt (rd s (kLaLinkFlags n)) 4 || bits = 0 then s else laneGuard n bits s

/-- LANE_CONTEXT_CHECK: once per second while ACTIVE. -/
def execLaneContextCheck (n : LaneId) (supply : BitVec 16) (s : State) : Res :=
  whenDue (laneState s n.val == 2) (laneContext n.val supply.toNat) s

/-- LANE_CAL_CAPTURE: every 60 s of ACTIVE without guard (R397). -/
def execLaneCalCapture (n : LaneId) (supply : BitVec 16) (s : State) : Res :=
  whenDue (laneState s n.val == 2 && !bitAt (rd s (kLaLinkFlags n.val)) 5 &&
    decide (max (laneOf s n.val).lastCapture (laneOf s n.val).since + secToTc 60 ≤ now s)) (laneCapture n.val supply.toNat) s

/-- The load class of a quad: the mean utilisation of its four lanes, of which only ACTIVE ones count, as data words of all words
(R398). -/
def quadClass (s : State) (q : Nat) (words : List (Nat × Nat)) : Nat :=
  let f := (upto 4).foldl (fun (a : Nat × Nat) i =>
    let w := words.getD i (0, 0)
    if laneState s (4 * q + i) = 2 && w.2 != 0 then (a.1 * w.2 + w.1 * a.2, a.2 * w.2) else a) (0, 1)
  if 10 * f.1 < 4 * f.2 then 0 else if 2 * f.1 ≤ 4 * f.2 then 1 else 2

/-- LANE_LOAD_WINDOW: a 1 ms window of lane quad `q` ends; for each lane, its data words and all its words. -/
def execLaneLoadWindow (q : Fin 16) (words : List (BitVec 32 × BitVec 32)) (s : State) : Res :=
  let c := quadClass s q.val (words.map fun w => (w.1.toNat, w.2.toNat))
  let s1 := each (upto 4) (fun i t => wr (kLaLoadClass (4 * q.val + i)) c t) s
  done { s1 with links := { s1.links with
    classRun := tset q.val (if c = 2 then tget s.links.classRun q.val 0 + 1 else 0) s.links.classRun } }

/-- The load of the lane's quad is sustained above 50 %: 100 consecutive windows of class 2 (R398). -/
def loadSustained (s : State) (n : Nat) : Bool := 100 ≤ tget s.links.classRun (n / 4) 0

/-- A re-centring begins, after the scan point in progress (R401, R407). -/
def recentreBegin (n : Nat) (s : State) : State :=
  modLane n (fun l =>
    if l.recentring.isSome then l
    else match l.scan with
      | some c => if c.running then { l with recentreDue := true } else { l with recentring := some (now s) }
      | none => { l with recentring := some (now s) }) s

/-- LANE_RECENTRE_START: a stale ACTIVE lane, after sustained load, 10 s of staleness, or 10 s after a failure (R401, R402). -/
def execLaneRecentreStart (n : LaneId) (s : State) : Res :=
  let l := laneOf s n.val
  whenDue (laneState s n.val == 2 && (match l.staleSince, l.failedAt with
    | some _, some f => decide (f + secToTc 10 ≤ now s)
    | some t, none => loadSustained s n.val || decide (t + secToTc 10 ≤ now s)
    | none, _ => false)) (recentreBegin n.val) s

/-- RECENTRE: 1 starts a re-centring, refused unless ACTIVE (Table 11-12). -/
def wLaneRecentre (n v : Nat) (s : State) : Written :=
  if laneState s n ≠ 2 then refusedW .state s else if v ≠ 1 then refusedW .range s else accepted (recentreBegin n s)

/-- LANE_RECENTRE. -/
def execLaneRecentre (n : LaneId) (v : Byte) (s : State) : Res := answer (wLaneRecentre n.val v.toNat s)

/-- The length of a re-centring: 66 points an eye, each 2^24 UI and 1 µs (R401). -/
def recentreTime (rate : Nat) : Nat := uiTc rate (eyeCount rate * 66 * 2 ^ 24) + usToTc (eyeCount rate * 66)

/-- The midpoint of a span of signed codes, rounded down. -/
def midpoint (w : Byte × Byte) : Int := (w.1.toInt + w.2.toInt) / 2

/-- LANE_RECENTRE_DONE: `phase` is the error-free span of the phase axis in 1/64 UI and `levels` that of the threshold axis of each eye
in slicer codes, from the present centre; `pass` tells that every axis of every eye has one (R401, R402). -/
def execLaneRecentreDone (n : LaneId) (pass : Bool) (phase : Byte × Byte) (levels : List (Byte × Byte)) (supply : BitVec 16)
    (s : State) : Res :=
  let l := laneOf s n.val
  whenDue (match l.recentring with
    | some t => decide (t + recentreTime (laneRate s n.val) ≤ now s)
    | none => false) (fun s =>
    let s1 := modLane n.val (fun l => { l with recentring := none }) s
    if pass then
      let moved := modLane n.val (fun l =>
        let th := (upto (eyeCount (laneRate s n.val))).map fun i => l.thresh.getD i 0 + midpoint (levels.getD i (0, 0))
        { l with phase := l.phase + midpoint phase, staleSince := none, failedAt := none, thresh := th }) s1
      laneEvent 0x18 2 n.val 0 (laneStat n.val 4 1 (setGuard n.val false (laneCapture n.val supply.toNat
        (wr (kLaCdrBwNow n.val) (rd s (kLaCdrBw n.val)) moved))))
    else laneEvent 0x18 3 n.val 0 (laneStat n.val 5 1 (modLane n.val (fun l => { l with failedAt := some (now s) }) s1))) s

/-! ### Eye scans (R403 to R407) -/

/-- The fields of a parameter block (Table 11-4): EYE, DWELL, the steps. -/
def scanEye (p : Nat) : Nat := fld p 0 2
def scanDwell (p : Nat) : Nat := fld p 8 8
def scanPhMin (p : Nat) : Int := toInt 8 (fld p 16 8)
def scanPhMax (p : Nat) : Int := toInt 8 (fld p 24 8)
def scanPhStep (p : Nat) : Nat := fld p 32 8
def scanVMin (p : Nat) : Int := toInt 8 (fld p 40 8)
def scanVMax (p : Nat) : Int := toInt 8 (fld p 48 8)
def scanVStep (p : Nat) : Nat := fld p 56 8
/-- COLS, ROWS and the number of eyes of a grid (R404). -/
def scanCols (p : Nat) : Nat := (scanPhMax p - scanPhMin p).toNat / scanPhStep p + 1
def scanRows (p : Nat) : Nat := (scanVMax p - scanVMin p).toNat / scanVStep p + 1
def scanEyes (p : Nat) : Nat := if scanEye p = 3 then 3 else 1

/-- Every field is in its range and the grid has at most 4,096 points (R404). -/
def scanParamsOk (rate p : Nat) : Bool :=
  (rate == 14 || scanEye p == 0) && fld p 2 6 == 0 && fld p 64 32 == 0 &&
    decide (20 ≤ scanDwell p ∧ scanDwell p ≤ 40 ∧ -32 ≤ scanPhMin p ∧ scanPhMin p ≤ scanPhMax p ∧ scanPhMax p ≤ 31 ∧
      1 ≤ scanPhStep p ∧ scanPhStep p ≤ 16 ∧ -127 ≤ scanVMin p ∧ scanVMin p ≤ scanVMax p ∧ scanVMax p ≤ 127 ∧
      1 ≤ scanVStep p ∧ scanVStep p ≤ 32 ∧ scanCols p * scanRows p * scanEyes p ≤ 4096)

/-- SCAN_START (R404). -/
def wScanStart (n p : Nat) (s : State) : Written :=
  if laneState s n ≠ 2 || rd s (kScScanState n) = 1 then refusedW .state s
  else if !scanParamsOk (laneRate s n) p then refusedW .range s
  else
    let c : Scan := { params := p, cols := scanCols p, rows := scanRows p, eyes := scanEyes p, rate := laneRate s n,
                      start := now s, pointAt := now s }
    accepted (wr (kScScanState n) 1 (modLane n (fun l => { l with scan := some c }) s))

/-- SCAN_START. -/
def execScanStart (n : LaneId) (p : BitVec 96) (s : State) : Res := answer (wScanStart n.val p.toNat s)

/-- A running scan ends, complete or aborted; a re-centring that waited for it begins (R407). -/
def scanEnd (n : Nat) (aborted : Bool) (s : State) : State :=
  match (laneOf s n).scan with
  | some c =>
    if !c.running then s
    else
      let s1 := modLane n (fun l =>
        { l with scan := some { c with running := false, fin := now s, aborted := aborted }, recentreDue := false,
                 recentring := if l.recentreDue then some (now s) else l.recentring }) s
      laneEvent 0x19 (b2n aborted) n c.counts.length (wr (kScScanState n) (if aborted then 3 else 2) s1)
  | none => s

/-- SCAN_POINT_DONE: a point ends after 2^DWELL UI and 1 µs with `errs` disagreements; a re-centring that fell due runs before the next
(R405, R407). -/
def execScanPointDone (n : LaneId) (errs : BitVec 64) (s : State) : Res :=
  match (laneOf s n.val).scan with
  | some c =>
    whenDue (c.running && (laneOf s n.val).recentring.isNone &&
      decide (c.pointAt + uiTc (laneRate s n.val) (2 ^ scanDwell c.params) + usToTc 1 ≤ now s)) (fun s =>
      let due := (laneOf s n.val).recentreDue
      let counts := c.counts ++ [min errs.toNat 0xFFFFFFFF]
      let last : Bool := c.cols * c.rows * c.eyes ≤ counts.length
      let mark : Bool := due && !last
      let c1 := { c with counts := counts, pointAt := now s, recentred := c.recentred || mark,
                         split := if mark && c.split == 0xFFFF then counts.length else c.split }
      let s1 := modLane n.val (fun l =>
        { l with scan := some c1, recentreDue := due && last, recentring := if mark then some (now s) else l.recentring }) s
      if last then scanEnd n.val false s1 else s1) s
  | none => done s

/-- SCAN_ABORT: 1 ends the running scan (R407). -/
def wScanAbort (n v : Nat) (s : State) : Written := if v ≠ 1 then refusedW .range s else accepted (scanEnd n true s)

/-- SCAN_ABORT. -/
def execScanAbort (n : LaneId) (v : Byte) (s : State) : Res := answer (wScanAbort n.val v.toNat s)

/-- Points of a line of `len` from `i` on that follow one another without error. -/
def cleanRun (ok : Nat → Bool) : Nat → Nat → Nat
  | 0, _ => 0
  | fuel + 1, i => if ok i then 1 + cleanRun ok fuel (i + 1) else 0

/-- The contiguous error-free span of a line of `len` points through point `i`, in points from its first to its last (Table 11-5). -/
def cleanSpan (ok : Nat → Bool) (len i : Nat) : Nat :=
  if i < len && ok i then
    cleanRun (fun k => decide (i + 1 + k < len) && ok (i + 1 + k)) len 0 + cleanRun (fun k => decide (k < i) && ok (i - 1 - k)) len 0
  else 0

/-- The place of value 0 on an axis, if it is on the grid. -/
def zeroAt (lo : Int) (step len : Nat) : Option Nat :=
  if 0 < lo || (-lo).toNat % step ≠ 0 || len ≤ (-lo).toNat / step then none else some ((-lo).toNat / step)

/-- SCAN_RESULT of a lane: the header and a count for each point of the grid (R406). -/
def scanResult (s : State) (n : Nat) : List Byte :=
  match (laneOf s n).scan with
  | none => []
  | some c =>
    let p := c.params
    let seen := c.counts.length
    let ok := fun (e r k : Nat) =>
      let i := e * (c.rows * c.cols) + r * c.cols + k
      decide (i < seen) && c.counts.getD i 1 == 0
    let span := fun (wide : Bool) (e : Nat) =>
      match zeroAt (scanPhMin p) (scanPhStep p) c.cols, zeroAt (scanVMin p) (scanVStep p) c.rows with
      | some k, some r =>
        if wide then scanPhStep p * cleanSpan (fun j => ok e r j) c.cols k
        else scanVStep p * cleanSpan (fun j => ok e j k) c.rows r
      | _, _ => 0
    let eyeAt := fun (e : Nat) => if scanEye p = 3 then e else scanEye p
    let put := fun (wide : Bool) (base : Nat) => (upto c.eyes).map fun e => (base + 8 * eyeAt e, 8, span wide e)
    let head := pack ([(0, 8, 1), (8, 1, b2n c.aborted), (9, 1, b2n c.recentred), (10, 1, b2n (c.counts.contains 0xFFFFFFFF)),
      (16, 6, n), (24, 8, c.rate), (32, 96, p), (128, 16, c.cols), (144, 16, c.rows), (160, 16, c.split), (176, 16, seen),
      (192, 64, c.start), (256, 64, c.fin)] ++ put true 320 ++ put false 352)
    toBytes 64 head ++ (upto (c.cols * c.rows * c.eyes)).flatMap fun i => toBytes 4 (c.counts.getD i 0)

/-! ### Lane states (R408 to R411) -/

/-- The SyncE references whose lane leaves ACTIVE lose activity (R442, R455). -/
def synceLoss (n : Nat) (s : State) : State :=
  each [3, 4] (fun r t => if rdB t (kReEnable r) && rd t (kReLane r) == n && refActive t r then refActivityLoss r t else t) s

/-- A lane takes state `k`, due at `due`. Leaving ACTIVE ends a scan, drops a re-centring and adds to the time in ACTIVE. -/
def laneMove (n k due : Nat) (s : State) : State :=
  let l := laneOf s n
  let s1 := wr (kLaState n) k s
  let left : Bool := laneState s n == 2 && k != 2
  let s2 := if left then synceLoss n (laneStat n 10 (tcToNs (now s - l.since)) (scanEnd n true s1)) else s1
  modLane n (fun m => { m with since := now s, due := due, recentring := if left then none else m.recentring,
                               recentreDue := m.recentreDue && !left }) s2

/-- Signal and CDR lock go, and with the lane's receiver its marker lock. -/
def laneDark (n : Nat) (s : State) : State :=
  wr (kLaPrbsLocked n) 0 (wr (kLaAmLocked n) 0 (wr (kLaLinkFlags n) (setFld (rd s (kLaLinkFlags n)) 0 4 0) s))

/-- The lane powers down at once (Table 11-6). -/
def laneOff (n : Nat) (s : State) : State :=
  laneDark n (modLane n (fun l => { l with held := none, target := 0 }) (laneMove n 0 0 s))

/-- ACTIVE from DISABLED: the record seeds the receiver when its RATE matches, else its codes are mid-range (Table 11-6). -/
def laneOn (n : Nat) (s : State) : State :=
  let r := rd s (kLaCalRecord n)
  let seed : Bool := fld r 0 8 == 1 && fld r 8 8 == laneRate s n
  let s1 := wr (kLaDfeTaps n) (if seed then fld r 32 96 else 0) (wr (kLaVga n) (if seed then fld r 24 5 else 16) s)
  let s2 := if rd s (kLaCtleMode n) = 1 then s1 else wr (kLaCtleCode n) (if seed then fld r 16 4 else 8) s1
  let th := if seed then (upto 3).map fun i => toInt 8 (fld r (136 + 8 * i) 8) else []
  let s3 := modLane n (fun l => { l with phase := if seed then toInt 8 (fld r 128 8) else 0, from_ := 0, thresh := th }) s2
  laneMove n 1 (now s + usToTc 600) s3

/-- The standby exit of Table 11-9, which checks the record (R399). -/
def standbyExit (n supply : Nat) (s : State) : State :=
  laneContext n supply (laneMove n 1 (now s + usToTc 1) (modLane n (fun l => { l with from_ := 4 }) s))

/-- The deep exit of Table 11-10: the record is checked, and its codes are loaded. -/
def deepExit (n supply : Nat) (s : State) : State :=
  let r := rd s (kLaCalRecord n)
  let s1 := wr (kLaDfeTaps n) (fld r 32 96) (wr (kLaVga n) (fld r 24 5) s)
  let s2 := if rd s (kLaCtleMode n) = 1 then s1 else wr (kLaCtleCode n) (fld r 16 4) s1
  laneContext n supply (laneMove n 1 (now s + msToTc 2) (modLane n (fun l => { l with from_ := 5 }) s2))

/-- Standby entry, 50 ns (Table 11-7). -/
def standbyEntry (n : Nat) (s : State) : State :=
  laneMove n 3 (now s + nsToTc 50) (modLane n (fun l => { l with target := 4, from_ := laneState s n }) s)

/-- Deep entry, 12 µs, the record captured (Table 11-8). -/
def deepEntry (n supply : Nat) (s : State) : State :=
  laneMove n 3 (now s + usToTc 12) (modLane n (fun l => { l with target := 5, from_ := laneState s n }) (laneCapture n supply s))

/-- An entry is aborted by a request for ACTIVE. -/
def entryAborted (n : Nat) (s : State) : State := laneEvent 0x17 6 n 0 (laneStat n 8 1 s)

/-- A request for ACTIVE during ENTERING (R409). -/
def entryMeetsActive (n supply : Nat) (s : State) : State :=
  let l := modLane n (fun l => { l with held := none }) s
  let m := laneOf s n
  if m.target = 4 then standbyExit n supply (entryAborted n l)
  else if now s < m.since + usToTc 10 then
    if m.from_ = 2 then entryAborted n (laneMove n 2 0 l) else standbyExit n supply (entryAborted n l)
  else if now s < m.since + nsToTc 10100 then standbyExit n supply (entryAborted n l)
  else modLane n (fun l => { l with held := some 1 }) s

/-- A request is held until the state ends; a later one replaces it (R408). -/
def holdRequest (n v : Nat) (s : State) : State := modLane n (fun l => { l with held := some v }) s

/-- A port-logic buffer of the lane is fenced: the lane is held DISABLED (Table 15-3). -/
def laneFenced (s : State) (n : Nat) : Bool := (upto 4).any fun m => (macroSt s (macroCode (n / 16) 3 (n / 4) (n % 4) m)).fenced

/-- A request: 0 DISABLED, 1 ACTIVE, 2 STANDBY, 3 DEEP (Table 11-6); none where it is refused. -/
def laneRequest (n v supply : Nat) (s : State) : Option State :=
  let st := laneState s n
  let clear := modLane n (fun l => { l with held := none }) s
  match v with
  | 0 => some (if st = 0 then s else laneOff n s)
  | 1 =>
    match st with
    | 0 => if laneRate s n = 0 then none else if laneFenced s n then some s else some (laneOn n s)
    | 1 => some clear
    | 3 => some (entryMeetsActive n supply s)
    | 4 => some (standbyExit n supply s)
    | 5 => some (deepExit n supply s)
    | _ => some s
  | 2 =>
    match st with
    | 0 => none
    | 5 => none
    | 1 => some (holdRequest n 2 s)
    | 2 => some (standbyEntry n s)
    | 3 => some (if (laneOf s n).target = 4 then clear else holdRequest n 2 s)
    | _ => some s
  | _ =>
    match st with
    | 0 => none
    | 1 => some (holdRequest n 3 s)
    | 2 => some (deepEntry n supply s)
    | 3 => some (if (laneOf s n).target = 5 then clear else holdRequest n 3 s)
    | 4 => some (deepEntry n supply s)
    | _ => some s

/-- REQ_STATE (R408, R410). A recovery flow that held the lane DISABLED ends its hold with the owner's write. -/
def wReqState (n v supply : Nat) (s : State) : Written :=
  if v ≠ 1 && laneBound s n then refusedW .state s
  else if 3 < v then refusedW .range s
  else match laneRequest n v supply s with
    | none => refusedW .state s
    | some t => accepted (wr (kLaReqState n) v t)

/-- LANE_REQ_ACTIVE. -/
def execLaneReqActive (n : LaneId) (supply : BitVec 16) (s : State) : Res := answer (wReqState n.val 1 supply.toNat s)
/-- LANE_REQ_STANDBY. -/
def execLaneReqStandby (n : LaneId) (s : State) : Res := answer (wReqState n.val 2 0 s)
/-- LANE_REQ_DEEP. -/
def execLaneReqDeep (n : LaneId) (supply : BitVec 16) (s : State) : Res := answer (wReqState n.val 3 supply.toNat s)
/-- LANE_REQ_DISABLED. -/
def execLaneReqDisabled (n : LaneId) (s : State) : Res := answer (wReqState n.val 0 0 s)

/-- A held request acts; one that is refused in the state reached is dropped. -/
def heldActs (n supply : Nat) (s : State) : State :=
  match (laneOf s n).held with
  | none => s
  | some v =>
    let s1 := modLane n (fun l => { l with held := none }) s
    (laneRequest n v supply s1).getD s1

/-- LANE_ENTRY_DONE: a standby or deep entry is complete; a request for ACTIVE held past the point of no return pays the round trip
(R409). -/
def execLaneEntryDone (n : LaneId) (supply : BitVec 16) (s : State) : Res :=
  let l := laneOf s n.val
  whenDue (laneState s n.val == 3 && decide (l.due ≤ now s)) (fun s =>
    let deep : Bool := l.target == 5
    let s1 := laneStat n.val (if deep then 7 else 6) 1 (laneMove n.val l.target 0 s)
    let s2 := if deep then laneDark n.val s1 else setLinkFlag n.val 1 false s1
    let s3 := if deep && l.held == some 1 then laneEvent 0x17 7 n.val 0 (laneStat n.val 9 1 s2) else s2
    heldActs n.val supply.toNat s3) s

/-- LANE_READY: the ready check of an ACQUIRING lane with signal passes; it ends a recovery flow of the lane (R408, R689). -/
def execLaneReady (n : LaneId) (supply : BitVec 16) (s : State) : Res :=
  whenDue (laneState s n.val == 1 && bitAt (rd s (kLaLinkFlags n.val)) 0 && decide ((laneOf s n.val).due ≤ now s)) (fun s =>
    let s1 := setLinkFlag n.val 1 true (laneMove n.val 2 0 s)
    let s2 := endFlow 4 n.val 1 (locLane n.val) 0 s1
    heldActs n.val supply.toNat (laneEvent 0x17 1 n.val 0 s2)) s

/-- LANE_SIGNAL_DETECT: signal is present; an exit paused at its CDR step resumes and its time counts from now (R409). -/
def execLaneSignalDetect (n : LaneId) (s : State) : Res :=
  let st := laneState s n.val
  whenDue (1 ≤ st && st ≤ 4 && !bitAt (rd s (kLaLinkFlags n.val)) 0) (fun s =>
    let l := laneOf s n.val
    let stop := if l.from_ = 4 then nsToTc 200 else usToTc 500
    let rest := if l.from_ = 4 then nsToTc 800 else if l.from_ = 5 then usToTc 1500 else usToTc 100
    let s1 := setLinkFlag n.val 0 true s
    if st = 1 && l.from_ ≠ 2 && decide (l.since + stop < now s) then
      modLane n.val (fun l => { l with due := now s + rest }) s1
    else s1) s

/-- LANE_LOS: signal (or, with `unlock`, CDR lock alone) is lost; an ACTIVE lane goes back to ACQUIRING with its present taps
(R408). -/
def execLaneLos (n : LaneId) (unlock : Bool) (s : State) : Res :=
  let lost := fun (t : State) => setLinkFlag n.val 1 false (if unlock then t else setLinkFlag n.val 0 false t)
  let st := laneState s n.val
  done (if st = 2 then
      laneEvent 0x17 (if unlock then 3 else 2) n.val 0 (laneStat n.val (b2n unlock) 1
        (lost (laneMove n.val 1 (now s) (modLane n.val (fun l => { l with from_ := 2 }) s))))
    else if 1 ≤ st && st ≤ 4 then lost s else s)

/-- LANE_STATS as read: the time in ACTIVE goes up to now. -/
def laneStatRead (s : State) (n i : Nat) : Nat :=
  rd s (kLaLaneStats n i) + (if i = 10 && laneState s n = 2 then tcToNs (now s - (laneOf s n).since) else 0)

/-! ### Alignment markers and test patterns (R412 to R414) -/

/-- AM_LOCK: a lane of a multi-lane port has marker lock, its SKEW in ps; beyond 180 ns it is in excess (R413). -/
def execAmLock (n : LaneId) (skew : BitVec 31) (s : State) : Res :=
  let multi : Bool := match portOfLane s n.val with
    | some p => 1 < modeLanes (rd s (kPoMode p))
    | none => false
  whenDue (laneState s n.val == 2 && multi) (fun s =>
    let isOver : Bool := 180000 < skew.toNat
    let was := bitAt (rd s (kLaLinkFlags n.val)) 3
    let s1 := setLinkFlag n.val 3 isOver (setLinkFlag n.val 2 true (wr (kLaSkew n.val) skew.toNat (wr (kLaAmLocked n.val) 1 s)))
    if isOver && !was then laneEvent 0x17 5 n.val skew.toNat s1 else s1) s

/-- AM_LOST: marker lock is lost (R412). -/
def execAmLost (n : LaneId) (s : State) : Res :=
  whenDue (rdB s (kLaAmLocked n.val)) (fun s =>
    laneEvent 0x17 4 n.val 0 (laneStat n.val 2 1 (setLinkFlag n.val 2 false (wr (kLaAmLocked n.val) 0 s)))) s

/-- PRBS_LOCK: the checker locks and counts `bits` and `errs` from there (R414). -/
def execPrbsLock (n : LaneId) (bits errs : BitVec 64) (s : State) : Res :=
  whenDue (rd s (kLaPrbsChk n.val) != 0 && laneState s n.val == 2) (fun s =>
    bumpBy 64 (kLaPrbsErrors n.val) errs.toNat (bumpBy 64 (kLaPrbsBits n.val) bits.toNat (wr (kLaPrbsLocked n.val) 1 s))) s

/-- PRBS_CLEAR: 1 zeroes the counters (R414). -/
def wPrbsClear (n v : Nat) (s : State) : Written :=
  if v ≠ 1 then refusedW .range s else accepted (wr (kLaPrbsErrors n) 0 (wr (kLaPrbsBits n) 0 s))

/-- PRBS_CLEAR. -/
def execPrbsClear (n : LaneId) (v : Byte) (s : State) : Res := answer (wPrbsClear n.val v.toNat s)

/-- PRBS_GEN, PRBS_CHK (codes 0 to 7, 6 and 7 with RATE 14) and LOOPBACK (0 to 2): not 0 while the lane belongs to a port (R414). -/
def wTestMode (k hi n v : Nat) (s : State) : Written :=
  if v ≠ 0 && (portOfLane s n).isSome then refusedW .state s
  else if hi < v || (hi = 7 && 6 ≤ v && laneRate s n ≠ 14) then refusedW .range s
  else
    let s1 := wr k v s
    accepted (if k = kLaPrbsChk n then wr (kLaPrbsLocked n) 0 s1 else s1)

/-- PRECODE: 0 to 3, not 0 only with RATE 14 (R393). -/
def wPrecode (n v : Nat) (s : State) : Written :=
  if 3 < v || (v ≠ 0 && laneRate s n ≠ 14) then refusedW .range s else accepted (wr (kLaPrecode n) v s)

end Sys2Proof.Machine
end

