-- ==== Sys2Proof/Machine/Frames.lean ====
section
/-!
DEFINITION. The formats of the fronthaul ports (12_fronthaul_ports.md): frames, eCPRI headers, compressed PRBs. What the manual takes
from IEEE 802.3, the IETF, eCPRI 2.0 and O-RAN split 7.2x without laying it out is PRESUMED from those documents (log 13).
-/
namespace Sys2Proof.Machine

/-! ### Network order -/

/-- The number that octets in network order spell. -/
def ofBe (l : List Byte) : Nat := ofBytes l.reverse
/-- The `n` octets at `ofs` in network order. -/
def beAt (l : List Byte) (ofs n : Nat) : Nat := ofBe (slice l ofs n)

/-! ### Compressed PRBs (R344, R435) -/

/-- Octets of a PRB on the wire: 48 without compression, 1 + 3 × M with block floating point. -/
def prbBytes (method mant : Nat) : Nat := if method = 0 then 48 else 1 + 3 * mant

/-- A sample of 32 bits as its components I and Q, and back. -/
def iqOf (v : Nat) : Int × Int := (toInt 16 v, toInt 16 (v / 65536))
def iqMake (i q : Int) : Nat := ofInt 16 i + 65536 * ofInt 16 q

/-- Components of `w` bits as one number, the first the most significant. -/
def packBits (w : Nat) (l : List Int) : Nat := l.foldl (fun a v => a * 2 ^ w + ofInt w v) 0

/-- The smallest width, 1 to 16, in which every component fits (R344). -/
def fitWidth (l : List Int) : Nat :=
  ((List.range 16).find? fun n => l.all fun v => decide (-(2 ^ n : Int) ≤ v ∧ v < (2 ^ n : Int))).getD 15 + 1

/-- The 24 components of a PRB as octets (R344, R435). -/
def encodePrb (method mant : Nat) (samples : List Nat) : List Byte :=
  let comps := samples.flatMap fun v => [(iqOf v).1, (iqOf v).2]
  if method = 0 then beBytes 48 (packBits 16 comps)
  else
    let e := fitWidth comps - mant
    let m := comps.map fun v => (satS mant (roundShift v e)).1
    beBytes 1 e ++ beBytes (3 * mant) (packBits mant m)

/-- A PRB read from octets: its 12 samples, the components that saturated, and whether the exponent's upper four bits were not 0
(R344, R435). -/
def decodePrb (method mant : Nat) (l : List Byte) : List Nat × Nat × Bool :=
  let w := if method = 0 then 16 else mant
  let head := if method = 0 then 0 else beAt l 0 1
  let v := beAt l (if method = 0 then 0 else 1) (3 * w)
  let e := if method = 0 then 0 else head % 16
  let comp := fun (i : Nat) => satS 16 (toInt w (v / 2 ^ (w * (23 - i))) * (2 ^ e : Int))
  ((upto 12).map fun i => iqMake (comp (2 * i)).1 (comp (2 * i + 1)).1,
    ((upto 24).filter fun i => (comp i).2).length, decide (16 ≤ head))

/-! ### Ethernet and IP (R424) -/

/-- The ones' complement sum of 16-bit words in network order. -/
def onesSum : List Byte → Nat → Nat
  | a :: b :: r, acc => let t := acc + 256 * a.toNat + b.toNat; onesSum r (t % 65536 + t / 65536)
  | [a], acc => let t := acc + 256 * a.toNat; t % 65536 + t / 65536
  | [], acc => acc

/-- Octets between the Ethernet header and the eCPRI message. -/
def encapBytes (encap : Nat) : Nat := if encap = 0 then 0 else if encap = 1 then 28 else 48

/-- The IP and UDP headers before a payload; the fields the manual leaves open come from a free value (R424). -/
def ipHeaders (s : State) (p free : Nat) (payload : List Byte) : List Byte :=
  let src := toBytes 16 (rd s (kPoIpAddr p))
  let dst := toBytes 16 (rd s (kPoPeerIp p))
  let port := rd s (kPoUdpPort p)
  let len := payload.length + 8
  let x := Config.freeValue free
  let udp := fun (sum : Nat) => beBytes 2 (fld x 0 16) ++ beBytes 2 port ++ beBytes 2 len ++ beBytes 2 sum
  if rd s (kPoEncap p) = 1 then
    let head := fun (sum : Nat) => beBytes 1 0x45 ++ beBytes 1 (fld x 16 8) ++ beBytes 2 (len + 20) ++ beBytes 4 (fld x 24 16 * 65536 + 0x4000) ++
      beBytes 1 (fld x 40 8) ++ beBytes 1 17 ++ beBytes 2 sum ++ src.drop 12 ++ dst.drop 12
    head (65535 - onesSum (head 0) 0) ++ udp 0
  else
    let sum := 65535 - onesSum (src ++ dst ++ beBytes 4 len ++ beBytes 4 17 ++ udp 0 ++ payload) 0
    beBytes 4 (0x60000000 + fld x 16 28) ++ beBytes 2 len ++ beBytes 1 17 ++ beBytes 1 (fld x 44 8) ++ src ++ dst ++
      udp (if sum = 0 then 65535 else sum)

/-- A frame to PEER_MAC with an EtherType, tagged unless VLAN_TCI is 0. -/
def ethFrame (s : State) (p etherType : Nat) (payload : List Byte) : List Byte :=
  let tag := if rd s (kPoVlanTci p) = 0 then [] else beBytes 2 0x8100 ++ beBytes 2 (rd s (kPoVlanTci p))
  toBytes 6 (rd s (kPoPeerMac p)) ++ toBytes 6 (rd s (kPoMacAddr p)) ++ tag ++ beBytes 2 etherType ++ payload

/-- A port sends an eCPRI message in its encapsulation. -/
def sendEcpri (p kind : Nat) (msg : List Byte) (s : State) : State :=
  if rd s (kPoEncap p) = 0 then send (.portFrame p kind (ethFrame s p 0xAEFE msg)) s
  else
    let (k, s1) := draw s
    let et := if rd s (kPoEncap p) = 1 then 0x0800 else 0x86DD
    send (.portFrame p kind (ethFrame s p et (ipHeaders s p k msg ++ msg))) s1

/-- The eCPRI common header: revision 1, C = 0, type, payload size. -/
def ecpriHead (typ size : Nat) : List Byte := beBytes 1 0x10 ++ beBytes 1 typ ++ beBytes 2 size

/-- An eAxC and a plane of a port: 0 user, 1 control. -/
def seqKey (p plane eaxc : Nat) : Nat := 131072 * p + 65536 * plane + eaxc

/-- A message of type 0 or 2 with its eAxC and its sequence number, E = 1 (R425). -/
def sendStream (p kind typ eaxc : Nat) (body : List Byte) (s : State) : State :=
  let k := seqKey p (if typ = 2 then 1 else 0) eaxc
  let n := tget s.links.seqTx k 0
  let s1 := { s with links := { s.links with seqTx := tset k ((n + 1) % 256) s.links.seqTx } }
  sendEcpri p kind (ecpriHead typ (4 + body.length) ++ beBytes 2 eaxc ++ beBytes 1 n ++ beBytes 1 0x80 ++ body) s1

/-! ### Messages and sections -/

/-- The eCPRI messages of a payload, from their common headers on: more follow at a boundary of four octets while C = 1; none where a
revision, a type or a size is wrong (R425). -/
def ecpriSplit : Nat → List Byte → Option (List (List Byte))
  | 0, _ => none
  | fuel + 1, l =>
    let b := beAt l 0 1
    let typ := beAt l 1 1
    let n := beAt l 2 2
    if l.length < 4 + n || b / 16 != 1 || !(typ == 0 || typ == 2 || typ == 5) || n < (if typ = 5 then 20 else 4) then none
    else if b % 2 = 0 then some [l.take (4 + n)]
    else (ecpriSplit fuel (l.drop (4 * ((4 + n + 3) / 4)))).map (l.take (4 + n) :: ·)

/-- A section of a received U-plane message: symbol, first PRB, PRBs, whether its udCompHdr names the port's method and width, data. -/
structure USection where
  sym : Nat
  start : Nat
  count : Nat
  ok : Bool
  data : List Byte
deriving DecidableEq, Repr

/-- The sections of a U-plane message of a CI with `nprb` PRBs, or none where a field is not one of Table 12-4. -/
def usections (method mant : Nat) (hdr : Bool) (nprb : Nat) : Nat → Nat → List Byte → Option (List USection)
  | 0, _, l => if l.isEmpty then some [] else none
  | fuel + 1, sym, l =>
    if l.isEmpty then some []
    else
      let x := beAt l 0 4
      let start := fld x 8 10
      let count := if fld x 0 8 = 0 then nprb - start else fld x 0 8
      let sym1 := if bitAt x 18 then sym + 1 else sym
      let h := beAt l 4 1
      let m := if hdr then h % 16 else method
      let w := if hdr then (if h / 16 = 0 then 16 else h / 16) else mant
      let n := count * (if m = 0 then 3 * (if hdr then w else 16) else 1 + 3 * w)
      let rest := l.drop (if hdr then 6 else 4)
      if l.length < 4 || bitAt x 19 || 1 < m || nprb < start + count || count = 0 || rest.length < n then none
      else
        let same : Bool := !hdr || (m == method && w == (if method = 0 then 16 else mant))
        (usections method mant hdr nprb fuel sym1 (rest.drop n)).map
          ({ sym := sym1, start := start, count := count, ok := same, data := rest.take n } :: ·)

end Sys2Proof.Machine
end

