-- ==== Sys2Proof/Machine/Ports.lean ====
section
/-!
DEFINITION. The fronthaul ports (12_fronthaul_ports.md): modes and state, frames, antenna-carrier streams, receive and transmit windows,
the control plane, time-domain streams, delay measurement and SyncE messages.
-/
namespace Sys2Proof.Machine

/-! ### Modes and state (R418 to R420) -/

/-- MODE and STATE of a port. -/
def portMode (s : State) (p : Nat) : Nat := rd s (kPoMode p)
def portState (s : State) (p : Nat) : Nat := rd s (kPoState p)
/-- A port of Ethernet, one of CPRI. -/
def portEth (s : State) (p : Nat) : Bool := 2 ≤ portMode s p
def portCpri (s : State) (p : Nat) : Bool := portMode s p == 1
/-- Lanes of a port. -/
def portLanes (s : State) (p : Nat) : List Nat := if portMode s p = 0 then [] else span p (modeLanes (portMode s p))

/-- A statistic of a port goes on: 0 frames received, 1 sections on time, 2 LATE, 3 UNCLAIMED, 4 DUPLICATE, 5 MISSING_PRB,
6 MISSING_SAMPLES, 7 BAD_HEADER, 8 SEQ_GAPS, 9 OTHER_RX, 10 sections sent, 11 TX_SKIPPED, 12 CP_LATE, 13 FEC corrected, 14 FEC
uncorrectable, 15 saturations. -/
def portStat (p i n : Nat) (s : State) : State := bumpBy 64 (kPoPortStats p i) n s

/-- The RATE a mode asks of a lane (Table 12-1). -/
def modeRateOk (mode rate : Nat) : Bool :=
  if mode = 1 then 1 ≤ rate && rate ≤ 11
  else if mode = 2 then rate == 12
  else if mode = 3 || mode = 5 then rate == 13
  else rate == 14

/-- The lanes a mode takes. -/
def modeTakes (p v : Nat) : List Nat := if v = 0 then [] else span p (modeLanes v)

/-- The FH_PORT event: 1 UP, 2 DOWN (Table 12-7). -/
def portEvent (cause p count : Nat) (s : State) : State :=
  ownerEvent (pack [(0, 8, 0x1A), (8, 8, cause), (16, 16, p), (32, 32, count), (64, 64, now s)]) none s

/-- The causes a port's own lanes show: bit 0 a lane not ACTIVE, bit 2 a multi-lane port not aligned (R413, R420). -/
def laneCauses (s : State) (p : Nat) : Nat :=
  let l := portLanes s p
  b2n (l.any fun n => laneState s n != 2) +
    4 * b2n (1 < l.length && l.any fun n => !rdB s (kLaAmLocked n) || bitAt (rd s (kLaLinkFlags n)) 3)

/-- Received CPRI AxC of a port. -/
def cpriAxcs (s : State) (p : Nat) : List Nat :=
  (s.radio.axcs.filter fun e => axcPort e.2 == p && bitAt e.2 1 && fld e.2 3 2 == 2).map (·.1)

/-- PORT_UP: block lock, alignment and FEC, or the CPRI start-up sequence, are there; a CPRI port measures its round trip (R420). -/
def execPortUp (p : PortId) (rtd : BitVec 32) (s : State) : Res :=
  whenDue (portMode s p.val != 0 && portState s p.val == 0 && laneCauses s p.val == 0) (fun s =>
    let s1 := wr (kPoState p.val) 1 s
    let s2 := if portCpri s p.val then each (cpriAxcs s p.val) (fun a t => marGapEnd a t) (wr (kPoCpriRtd p.val) rtd.toNat s1) else s1
    portEvent 1 p.val 0 s2) s

/-- A port that is UP goes DOWN when a cause holds: bits 1, 3, 4 and 5 of COUNT come with the command (R420). A CPRI port that goes DOWN
opens a gap on its streams (R439). -/
def portDown (p lost : Nat) (s : State) : State :=
  let count := (lost &&& 0b111010) ||| laneCauses s p
  if portState s p = 1 ∧ count ≠ 0 then
    portEvent 2 p count (each (cpriAxcs s p) (fun a t => marGap a t) (wr (kPoState p) 0 s))
  else s

/-- PORT_DOWN. -/
def execPortDown (p : PortId) (lost : BitVec 6) (s : State) : Res := done (portDown p.val lost.toNat s)

/-- MODE takes its value: a port that is still UP goes DOWN first, ports whose lanes it takes are ABSORBED (R418, R419, R420). -/
def portModeSet (p v : Nat) (s : State) : Written :=
  let lanes := modeTakes p v
  if 7 < v || portState s p = 2 || p % modeLanes v ≠ 0 ||
      lanes.any (fun n => !modeRateOk v (laneRate s n) || (match portOfLane s n with
        | some q => q != p
        | none => false)) then refusedW .range s
  else
    let s1 := each ((portLanes s p).drop 1) (fun n t => wr (kPoState n) 0 t) (portDown p 0 s)
    accepted (each (lanes.drop 1) (fun n t => wr (kPoState n) 2 t) (wr (kPoState p) 0 (wr (kPoMode p) v s1)))

/-- MODE: the lanes it leaves and takes are DISABLED, and no AxC is bound (R418). -/
def wPortMode (p v : Nat) (s : State) : Written :=
  if portBound s p || (portLanes s p ++ modeTakes p v).any fun n => n < 64 && laneState s n != 0 then refusedW .state s
  else portModeSet p v s

/-- PORT_MODE. -/
def execPortMode (p : PortId) (v : Byte) (s : State) : Res := answer (wPortMode p.val v.toNat s)

/-! ### Binding antenna-carrier streams (R426 to R429) -/

/-- Fields of an AxC descriptor (Table 12-3). -/
def aRx (d : Nat) : Bool := bitAt d 1
def aTx (d : Nat) : Bool := bitAt d 2
def aForm (d : Nat) : Nat := fld d 3 2
def aPrach (d : Nat) : Bool := bitAt d 5
def aNum (d : Nat) : Nat := fld d 16 10
def aRxId (d : Nat) : Nat := fld d 48 16
def aTxId (d : Nat) : Nat := fld d 64 16
def aBeam (d : Nat) : Nat := fld d 80 15
def aRate (d : Nat) : Nat := fld d 96 3
def aWidth (d : Nat) : Nat := fld d 104 5
def aPos (d : Nat) : Nat := fld d 112 16
def aFilter (d : Nat) : Nat := fld d 128 4
def aStartSym (d : Nat) : Nat := fld d 136 4
def aReOfs (d : Nat) : Nat := fld d 140 4
def aFreqOfs (d : Nat) : Nat := fld d 144 24
def aClose (d : Nat) : Nat := fld d 176 16
def aTimeOfs (d : Nat) : Nat := fld d 192 16
def aCp (d : Nat) : Nat := fld d 208 16

/-- Bits of a CPRI container: 2 × W × 2^SRATE (R422). -/
def containerBits (d : Nat) : Nat := 2 * aWidth d * 2 ^ aRate d
/-- T of a CPRI rate: bits to a word (R422). -/
def cpriT (rate : Nat) : Nat := [0, 8, 16, 32, 40, 64, 80, 128, 128, 160, 192, 384].getD rate 0

/-- A field is in its range, reserved fields and those its form does not use are 0 (R426). -/
def axcFieldsOk (d : Nat) : Bool :=
  let f := aForm d
  bitAt d 0 && f != 3 && fld d 6 2 == 0 && fld d 14 2 == 0 && fld d 26 6 == 0 && fld d 41 7 == 0 && bitAt d 95 == false &&
    fld d 99 5 == 0 && fld d 109 3 == 0 && fld d 132 4 == 0 && fld d 168 8 == 0 && fld d 224 32 == 0 &&
    (f != 2 || (aRxId d == 0 && aTxId d == 0)) && (f == 0 || aBeam d == 0) &&
    (if f = 0 then aRate d == 0 else aRate d ≤ 6) &&
    (if f = 2 then 8 ≤ aWidth d && aWidth d ≤ 16 else aWidth d == 0 && aPos d == 0) &&
    (if aPrach d then f == 0 && 1 ≤ aFilter d && aStartSym d ≤ 13 && aReOfs d ≤ 11 && 1 ≤ aClose d && aClose d ≤ 10000
     else fld d 128 96 == 0)

/-- Samples per ms of a stream (R429). -/
def axcKsps (d : Nat) : Nat := 3840 * 2 ^ aRate d
/-- The CI's FFT size × subcarrier spacing, ksps (R427). -/
def ciKsps (d : Nat) : Nat := fftSize (fld d 32 3) * 15 * 2 ^ ciMu d

/-- The stream passes through a port transform: time domain, of a cellular CI (R429). -/
def transformed (s : State) (d : Nat) : Bool := aForm d != 0 && ciAir (ciDesc s (axcCi d)) != 4

/-- Load of the port transform of quad `q` in one direction, ksps. -/
def transformLoad (s : State) (q : Nat) (rx : Bool) : Nat :=
  s.radio.axcs.foldl (fun a e =>
    if axcPort e.2 / 4 = q && transformed s e.2 && (if rx then aRx e.2 else aTx e.2) then a + axcKsps e.2 else a) 0

/-- The conditions of R427 on the port, the CI and the other streams. -/
def axcAllowed (s : State) (p d : Nat) : Bool :=
  let mode := portMode s p
  let f := aForm d
  let ci := ciDesc s (axcCi d)
  let others := (s.radio.axcs.filter fun e => axcPort e.2 == p).map (·.2)
  let ids := others.filter fun e => aForm e != 2
  let lo := aPos d
  let hi := aPos d + containerBits d
  !axcBound s (aNum d) && (ciTenant s (axcCi d)).isSome && axcPort d == p &&
    portState s p != 2 && (if f = 2 then mode == 1 else 2 ≤ mode) &&
    !(f == 0 && ciAir ci == 4) && (!aPrach d || ciAir ci ≤ 1) &&
    (f == 2 || ids.all fun e => !(aRx d && aRx e && aRxId d == aRxId e) && !(aTx d && aTx e && aTxId d == aTxId e)) &&
    (f != 2 || (hi ≤ 15 * cpriT (laneRate s p) &&
      others.all fun e => aForm e != 2 || decide (hi ≤ aPos e) || decide (aPos e + containerBits e ≤ lo))) &&
    (!transformed s d || (axcKsps d == ciKsps ci &&
      (!aRx d || transformLoad s (p / 4) true + axcKsps d ≤ 1966080) &&
      (!aTx d || transformLoad s (p / 4) false + axcKsps d ≤ 1966080)))

/-- AXC_BIND: the stream joins its CI; the first before any graph decides the CI's home (R84, R426, R427). -/
def wAxcBind (p d : Nat) (s : State) : Written :=
  if !axcFieldsOk d || !axcAllowed s p d then refusedW .range s
  else
    let ci := axcCi d
    let home := if (tfind ci s.work.ciHome).isSome then s.work.ciHome else tset ci (p / 16) s.work.ciHome
    let k := fun (id : Nat) (plane : Nat) => seqKey p plane id
    accepted { s with
      radio := { s.radio with axcs := tset (aNum d) d s.radio.axcs }
      work := { s.work with ciHome := home }
      links := { s.links with streams := tdel (aNum d) s.links.streams,
                              seqRx := tdel (k (aRxId d) 0) s.links.seqRx,
                              seqTx := tdel (k (aTxId d) 0) (tdel (k (aTxId d) 1) s.links.seqTx) } }

/-- AXC_BIND. -/
def execAxcBind (p : PortId) (d : BitVec 256) (s : State) : Res := answer (wAxcBind p.val d.toNat s)

/-- A graph in CHECKING, PLACED or RUNNING names the AxC, or a MAR binding takes it (R428). -/
def axcInUse (s : State) (a : Nat) : Bool :=
  s.work.graphs.any (fun g => g.st != .queued && g.bufs.any fun b => (b.kind == 3 || b.kind == 4) && (axcsOf b).contains a) ||
    s.radio.bindings.any fun e => e.2.state != .free && bAxcFirst e.2.desc ≤ a && a < bAxcFirst e.2.desc + bAxcCount e.2.desc

/-- AXC_UNBIND (R428). -/
def wAxcUnbind (p a : Nat) (s : State) : Written :=
  if 1023 < a || !axcBound s a || axcLane s a ≠ p then refusedW .range s
  else if axcInUse s a then refusedW .state s
  else accepted { s with radio := { s.radio with axcs := tdel a s.radio.axcs },
                         links := { s.links with streams := tdel a s.links.streams } }

/-- AXC_UNBIND. -/
def execAxcUnbind (p : PortId) (a : BitVec 16) (s : State) : Res := answer (wAxcUnbind p.val a.toNat s)

/-! ### Received frames (R424, R425) -/

/-- The AxC of a received eAxC ID on a port. -/
def axcOfRx (s : State) (p id : Nat) : Option (Nat × Nat) :=
  s.radio.axcs.find? fun e => axcPort e.2 == p && aRx e.2 && aForm e.2 != 2 && aRxId e.2 == id

/-- A received eCPRI message is sorted: kind 0 U-plane, 1 time domain, 2 delay measurement; C-plane and fragments are discarded. -/
def sortMessage (p : Nat) (m : List Byte) (s : State) : State :=
  let typ := beAt m 1 1
  let queue := fun (kind : Nat) (t : State) =>
    { t with links := { t.links with msgs := t.links.msgs ++ [{ port := p, kind := kind, arrival := now s, body := m }] } }
  if typ = 2 then portStat p 9 1 s
  else if typ = 5 then (if 5 < beAt m 5 1 then portStat p 7 1 s else queue 2 s)
  else if beAt m 7 1 ≠ 0x80 then portStat p 7 1 s
  else
    let id := beAt m 4 2
    let n := beAt m 6 1
    let k := seqKey p 0 id
    let s1 := match tfind k s.links.seqRx with
      | some last => if n = (last + 1) % 256 then s else portStat p 8 1 s
      | none => s
    let kind := match axcOfRx s p id with
      | some e => if aForm e.2 = 1 then 1 else 0
      | none => 0
    queue kind { s1 with links := { s1.links with seqRx := tset k n s1.links.seqRx } }

/-- An eCPRI payload: its messages, or BAD_HEADER. -/
def ecpriRx (p : Nat) (l : List Byte) (s : State) : State :=
  match ecpriSplit (l.length + 1) l with
  | none => portStat p 7 1 s
  | some ms => each ms (fun m t => sortMessage p m t) s

/-- A PTP message for the timing firmware: an Announce on PTP_PORT brings the grandmaster's class, and its UTC offset when flagged valid
(R454, R459; layout PRESUMED from IEEE 1588-2019, log 13). -/
def ptpRx (p : Nat) (l : List Byte) (s : State) : State :=
  if rd s kTiPtpPort = p && beAt l 0 1 % 16 = 11 && decide (49 ≤ l.length) && rd s (kPoPtpStep p) != 0 then
    let s1 := { s with tim := { s.tim with ptpClass := beAt l 48 1 } }
    checkSelected (if bitAt (beAt l 7 1) 2 then wrI kTiUtcOffset 16 (toInt 16 (beAt l 44 2) - 19) s1 else s1)
  else s

/-- An IP packet: the ports of UDP to this device sort it. -/
def ipRx (p : Nat) (v6 : Bool) (l : List Byte) (s : State) : State :=
  let head := if v6 then 40 else 20
  let dst := if v6 then slice l 24 16 else slice l 16 4
  let plain : Bool := if v6 then beAt l 0 1 / 16 == 6 && beAt l 6 1 == 17
    else beAt l 0 1 == 0x45 && fld (beAt l 6 2) 0 14 == 0 && beAt l 9 1 == 17
  let mine := if v6 then toBytes 16 (rd s (kPoIpAddr p)) else (toBytes 16 (rd s (kPoIpAddr p))).drop 12
  let port := beAt l (head + 2) 2
  let body := slice l (head + 8) (beAt l (head + 4) 2 - 8)
  if !plain then portStat p 9 1 s
  else if port = 319 || port = 320 then ptpRx p body s
  else if rd s (kPoEncap p) = (if v6 then 2 else 1) && port = rd s (kPoUdpPort p) && dst == mine then ecpriRx p body s
  else portStat p 9 1 s

/-- A frame by its EtherType. -/
def etherRx (p et : Nat) (l : List Byte) (s : State) : State :=
  if et = 0xAEFE && rd s (kPoEncap p) = 0 then ecpriRx p l s
  else if et = 0x88F7 then ptpRx p l s
  else if et = 0x8809 && beAt l 0 1 = 0x0A then checkSelected (wr (kPoSsmRx p) (beAt l 13 1 % 16) s)
  else if et = 0x0800 then ipRx p false l s
  else if et = 0x86DD then ipRx p true l s
  else portStat p 9 1 s

/-- ETH_FRAME_RX: a frame from its destination address on, with the FEC codewords corrected and uncorrectable since the last one. A DOWN
port receives nothing (R420, R424). -/
def execEthFrameRx (p : PortId) (frame : List Byte) (corrected bad : BitVec 32) (s : State) : Res :=
  whenDue (portEth s p.val && portState s p.val == 1) (fun s =>
    let n := p.val
    let s1 := portStat n 0 1 (portStat n 13 corrected.toNat (portStat n 14 bad.toNat s))
    let et := beAt frame 12 2
    if frame.length < 14 || slice frame 0 6 != toBytes 6 (rd s (kPoMacAddr n)) then portStat n 9 1 s1
    else if et = 0x8100 then
      let vid := beAt frame 14 2 % 4096
      if rd s (kPoVlanId n) = 0xFFFF || rd s (kPoVlanId n) = vid then etherRx n (beAt frame 16 2) (frame.drop 18) s1
      else portStat n 9 1 s1
    else etherRx n et (frame.drop 14) s1) s

/-- The first waiting message of a port of a kind that satisfies `q`, and the state without it. -/
def takePortMsg (p kind : Nat) (q : List Byte → Bool) (s : State) : Option (PortMsg × State) :=
  let mine := fun (m : PortMsg) => m.port == p && m.kind == kind && q m.body
  (s.links.msgs.find? mine).map fun m => (m, { s with links := { s.links with msgs := dropFirst mine s.links.msgs } })

/-! ### FH_MISSING (R433, R436) -/

/-- The FH_MISSING event of a CI that is due: at most one to a ms, with the count since the previous one (Table 12-7). -/
def flushMissing (ci : Nat) (s : State) : State :=
  let m := tget s.work.fhMissing ci {}
  let due : Bool := match m.last with
    | some t => decide (t + msToTc 1 ≤ now s)
    | none => true
  match ciTenant s ci with
  | some t =>
    if m.count = 0 || !due then s
    else fnEvent t (pack [(0, 8, 0x1B), (8, 8, m.cause), (16, 16, ci), (32, 32, m.count), (64, 64, now s), (128, 10, m.axc)])
      { s with work := { s.work with fhMissing := tset ci { last := some (now s) } s.work.fhMissing } }
  | none => s

/-- Every CI whose event waits. -/
def flushAllMissing (s : State) : State := each (s.work.fhMissing.map (·.1)) flushMissing s

/-- `n` PRBs, samples or symbols of a CI are missing: cause 1 received, 2 transmitted. -/
def noteMissing (ci cause n axc : Nat) (s : State) : State :=
  if n = 0 then s
  else
    let m := tget s.work.fhMissing ci {}
    flushMissing ci { s with work := { s.work with
      fhMissing := tset ci { m with count := min (2 ^ 32 - 1) (m.count + n), cause := m.cause ||| cause, axc := axc } s.work.fhMissing } }

/-! ### Receiving sections (R430 to R435) -/

/-- SFN of a graph's slot (R73). -/
def graphSfn (s : State) (g : Graph) : Nat := (g.air - ciOfs (ciDesc s g.ci)) / 19660800 % 1024
/-- Subframe and slot of a graph as the messages name them (R430). -/
def graphSlotId (s : State) (g : Graph) : Nat × Nat :=
  let d := ciDesc s g.ci
  (g.slot / 2 ^ ciMu d, g.slot % 2 ^ ciMu d)

/-- Place of a value in a list. -/
def placeOf (l : List Nat) (x : Nat) : Option Nat := l.findIdx? (· == x)

/-- Offset in a fronthaul buffer of symbol `k` of an AxC (R56, R327). -/
def fhOffset (s : State) (g : Graph) (b : BufD) (axc k : Nat) : Option Nat :=
  match placeOf (axcsOf b) axc, placeOf (symsOf b.symMask) k with
  | some i, some j => some ((i * (symsOf b.symMask).length + j) * symBytes (ciDesc s g.ci) b)
  | _, _ => none

/-- PRBs that a record or symbol of a buffer takes (R434). -/
def fhPrbs (s : State) (g : Graph) (b : BufD) (axc : Nat) : Nat :=
  if b.secClass = 1 then ceilDiv (aReOfs (axcDesc s axc) + 1152) 12 else ciSubcarriers (ciDesc s g.ci) true / 12

/-- The port writes octets of a graph's buffer, made fit for its first use. -/
def portWrite (gid b ofs : Nat) (l : List Byte) (s : State) : State :=
  let s1 := clearBuf gid b s
  match (graphOf s1 gid).bind fun g => tfind b g.homes with
  | some h => memStore (h.addr + ofs) l s1
  | none => s1

/-- Twelve samples written for PRB `i` of a symbol: those of a PRACH record shift by PRACH_RE_OFS and end at 1,152 (R434). -/
def prbWrite (g : Graph) (b : Nat) (axc k i : Nat) (samples : List Nat) (s : State) : State :=
  let d := bufD g b
  match fhOffset s g d axc k with
  | none => s
  | some base =>
    if d.secClass = 0 then portWrite g.id b (base + 48 * i) (samples.flatMap (toBytes 4)) s
    else
      let re := aReOfs (axcDesc s axc)
      let first := 12 * i - re
      let cut := if i = 0 then samples.drop re else samples
      portWrite g.id b (base + 4 * first) ((cut.take (1152 - first)).flatMap (toBytes 4)) s

/-- FH_RX buffers of committed graphs, not cancelled, that name an AxC, symbol and class (R431). -/
def rxBuffers (s : State) (axc sec k : Nat) (q : Graph → Bool) : List (Graph × Nat) :=
  (s.work.graphs.filter fun g => (g.st == .placed || g.st == .running) && !g.cancelled && !g.stale && q g).flatMap fun g =>
    ((upto g.bufs.length).filter fun b =>
      let d := bufD g b
      d.kind == 3 && d.secClass == sec && (axcsOf d).contains axc && (symsOf d.symMask).contains k).map fun b => (g, b)

/-- One section of an AxC: discarded, or written into every buffer that names its symbol and class. -/
def sectionRx (p axc sec arrival : Nat) (q : Graph → Bool) (x : USection) (s : State) : State :=
  let d := axcDesc s axc
  let k := if sec = 1 then x.sym - aStartSym d else x.sym
  let l := if sec = 1 && x.sym < aStartSym d then [] else rxBuffers s axc sec k q
  if !x.ok then portStat p 7 1 s
  else match l with
    | [] => portStat p 3 1 s
    | (g, _) :: _ =>
      let close := rxClose s g.ci g.air g.slot sec axc k
      if close < arrival || (close - arrival) * 3125 < 500 * 6144 then portStat p 2 1 s
      else
        let method := rd s (kPoCompMethod p)
        let mant := rd s (kPoCompMant p)
        let n := prbBytes method mant
        let prbs := (upto x.count).map fun i => (x.start + i, decodePrb method mant (slice x.data (n * i) n))
        let dup := (prbs.filter fun e => l.any fun w => (tget w.1.rx w.2 {}).covered.contains (axc, k, e.1)).length
        let s1 := portStat p 4 dup (portStat p 15 ((prbs.map (·.2.2.1)).foldl (· + ·) 0)
          (portStat p 7 (prbs.filter (·.2.2.2)).length (portStat p 1 1 s)))
        each l (fun w t =>
          let use := prbs.filter fun e => e.1 < fhPrbs s w.1 (bufD w.1 w.2) axc
          let t1 := each use (fun e y => prbWrite w.1 w.2 axc k e.1 e.2.1 y) t
          modGraph w.1.id (fun g => { g with rx := tmod g.rx w.2 {} fun r =>
            { r with covered := r.covered ++ ((use.map fun e => (axc, k, e.1)).filter fun c => !r.covered.contains c) } }) t1) s1

/-- A U-plane message: the values of Table 12-4, its AxC, its slot, its class (R430). One of no AxC counts once in UNCLAIMED (log 13). -/
def uplaneRx (m : PortMsg) (s : State) : State :=
  let p := m.port
  let h := m.body.drop 8
  let b0 := beAt h 0 1
  let x := beAt h 2 2
  let filter := b0 % 16
  let hdr := rdB s (kPoCompHdr p)
  if h.length < 4 || b0 / 16 != 1 then portStat p 7 1 s
  else match axcOfRx s p (beAt m.body 4 2) with
  | none => portStat p (if filter = 0 then 3 else 7) 1 s
  | some (axc, d) =>
    let nprb := ciSubcarriers (ciDesc s (axcCi d)) true / 12
    let sec := if filter = 0 then 0 else 1
    let same := fun (g : Graph) => g.ci == axcCi d && graphSfn s g % 256 == beAt h 1 1 && graphSlotId s g == (fld x 12 4, fld x 6 6)
    if !(filter == 0 || (aPrach d && filter == aFilter d)) then portStat p 7 1 s
    else match usections (rd s (kPoCompMethod p)) (rd s (kPoCompMant p)) hdr nprb 16 (fld x 0 6) (h.drop 4) with
      | some (y :: ys) => each (y :: ys) (fun y t => sectionRx p axc sec m.arrival same y t) s
      | _ => portStat p 7 1 s

/-- UPLANE_MESSAGE: the first U-plane message that waits at the port. -/
def execUplaneMessage (p : PortId) (s : State) : Res :=
  match takePortMsg p.val 0 (fun _ => true) s with
  | some (m, s1) => done (uplaneRx m s1)
  | none => done s

/-! ### Time-domain streams (R422, R438, R439) -/

/-- Samples in a frame, and in the 1,024 frames of FRAME, at a rate. -/
def frameSamples (rate : Nat) : Nat := 38400 * 2 ^ rate
def streamMod (rate : Nat) : Nat := 1024 * frameSamples rate
/-- Samples of 4 ms: what a stream keeps. -/
def streamKeep (rate : Nat) : Nat := 15360 * 2 ^ rate

/-- Samples of an AxC arrive from index `idx` on: behind the expected one they are LATE, ahead of it they leave a gap of zeros
(R439). -/
def samplesRx (p axc idx : Nat) (l : List Nat) (s : State) : State :=
  let rate := aRate (axcDesc s axc)
  let m := streamMod rate
  match tfind axc s.links.streams with
  | none =>
    { s with links := { s.links with streams := tset axc { base := idx, next := (idx + l.length) % m, samples := l } s.links.streams } }
  | some t =>
    let ahead := (idx + m - t.next) % m
    let put := fun (gap : Nat) (new : List Nat) (x : State) =>
      let all := t.samples ++ List.replicate (min gap (streamKeep rate)) 0 ++ new
      let cut := all.drop (all.length - streamKeep rate)
      let next := (t.next + gap + new.length) % m
      let t1 : TdStream := { base := (next + m - cut.length) % m, next := next, samples := cut,
                             missing := (if gap = 0 then t.missing else (t.next, gap) :: t.missing).take 64 }
      { x with links := { x.links with streams := tset axc t1 x.links.streams } }
    if ahead = 0 then put 0 l s
    else if ahead < m / 2 then marGapEnd axc (put ahead l (marGap axc (portStat p 6 ahead s)))
    else if l.length ≤ m - ahead then portStat p 2 1 s
    else put 0 (l.drop (m - ahead)) s

/-- TIME_DOMAIN_MESSAGE: the first time-domain message that waits at the port (Table 12-5). -/
def execTimeDomainMessage (p : PortId) (s : State) : Res :=
  match takePortMsg p.val 1 (fun _ => true) s with
  | none => done s
  | some (m, s1) => match axcOfRx s1 p.val (beAt m.body 4 2) with
    | none => done (portStat p.val 3 1 s1)
    | some (axc, d) =>
      let h := m.body.drop 8
      let n := (h.length - 8) / 4
      let ok : Bool := 8 ≤ h.length && h.length % 4 == 0 && beAt h 0 2 < 1024 && beAt h 2 4 < frameSamples (aRate d)
      let l := (upto n).map fun i => beAt h (8 + 4 * i) 2 + 65536 * beAt h (10 + 4 * i) 2
      done (if ok then samplesRx p.val axc (beAt h 0 2 * frameSamples (aRate d) + beAt h 2 4) l s1 else portStat p.val 7 1 s1)

/-- A bit of a payload in the order of the line, most significant bit of each octet first. -/
def bitsAt (l : List Byte) (pos n : Nat) : Nat :=
  let first := pos / 8
  let bytes := (pos + n + 7) / 8 - first
  beAt l first bytes / 2 ^ (8 * bytes - (pos % 8) - n) % 2 ^ n

/-- BASIC_FRAME: a CPRI basic frame at its place in the node B frame, with the IQ payload of 15 words; each container brings 2^SRATE
samples whose components stand in the upper W bits (R422). -/
def execBasicFrame (p : PortId) (bfn : BitVec 12) (hfn : Fin 150) (x : Fin 256) (payload : List Byte) (s : State) : Res :=
  whenDue (portCpri s p.val && portState s p.val == 1) (fun s =>
    each (cpriAxcs s p.val) (fun a t =>
      let d := axcDesc s a
      let w := aWidth d
      let comp := fun (i : Nat) => bitsAt payload (aPos d + w * i) w * 2 ^ (16 - w)
      let l := (upto (2 ^ aRate d)).map fun i => comp (2 * i) + 65536 * comp (2 * i + 1)
      let idx := (bfn.toNat % 1024) * frameSamples (aRate d) + (256 * hfn.val + x.val) * 2 ^ aRate d
      samplesRx p.val a idx l t) s) s

/-- Index of the sample at time `t` of a CI's stream. -/
def sampleIndex (d rate t : Nat) : Nat := (t - ciOfs d) * 2 ^ rate / 512 % streamMod rate

/-- `n` samples of a stream from index `from_` on, absent ones 0, and how many are absent. -/
def streamRead (s : State) (axc from_ n : Nat) : List Nat × Nat :=
  let m := streamMod (aRate (axcDesc s axc))
  match tfind axc s.links.streams with
  | none => (List.replicate n 0, n)
  | some t =>
    let have_ := fun (i : Nat) =>
      let k := (i + m - t.base) % m
      decide (k < t.samples.length) && !t.missing.any fun g => decide ((i + m - g.1) % m < g.2)
    let idx := (upto n).map fun i => (from_ + i) % m
    (idx.map fun i => if have_ i then t.samples.getD ((i + m - t.base) % m) 0 else 0, (idx.filter fun i => !have_ i).length)

/-! ### Receive windows (R432 to R434) -/

/-- The close of symbol `k` of an AxC in one buffer: what is missing becomes zero; answers the missing PRBs, and missing samples. -/
def closeSymbol (g : Graph) (b axc k : Nat) (s : State) : (List Nat × Nat) × State :=
  let d := axcDesc s axc
  if aForm d = 0 then
    let cov := (tget g.rx b {}).covered
    let miss := (upto (fhPrbs s g (bufD g b) axc)).filter fun i => !cov.contains (axc, k, i)
    ((miss, 0), each miss (fun i t => prbWrite g b axc k i (List.replicate 12 0) t) s)
  else
    let c := ciDesc s g.ci
    let from_ := rxSymStart c g.air g.slot k
    let n := (rxSymStart c g.air g.slot (k + 1) - from_) * 2 ^ aRate d / 512
    let (l, lost) := streamRead s axc (sampleIndex c (aRate d) from_) n
    let out := (upto (ciSubcarriers c true)).map fun i => (Config.portRx (BitVec.ofNat 128 c) (aRate d) g.slot k l i).toNat
    match fhOffset s g (bufD g b) axc k with
    | some ofs => (([], lost), portWrite g.id b ofs (out.flatMap (toBytes 4)) s)
    | none => (([], lost), s)

/-- Symbol `k` of an AxC is closed for a buffer, which is ready once every one is. -/
def markClosed (gid b axc k : Nat) (s : State) : State :=
  modGraph gid (fun g =>
    let d := bufD g b
    let r := tget g.rx b {}
    let closed := (16 * axc + k) :: r.closed
    let ready := (axcsOf d).all fun a => (symsOf d.symMask).all fun j => closed.contains (16 * a + j)
    { g with rx := tset b { r with closed := closed, ready := ready } g.rx }) s

/-- RX_WINDOW_CLOSE: the receive window of symbol `k` of an AxC closes for the graphs of a CI with one AIR_START; a missing PRB counts
once, however many buffers name it (R432, R433). -/
def execRxWindowClose (ci : CiId) (air : BitVec 64) (sec : Fin 2) (axc : AxcId) (k : Fin 14) (s : State) : Res :=
  let l := (rxBuffers s axc.val sec.val k.val fun g => g.ci == ci.val && g.air == air.toNat).filter fun w =>
    !(tget w.1.rx w.2 {}).closed.contains (16 * axc.val + k.val)
  let slot := (l.head?.map fun w => w.1.slot).getD 0
  whenDue (!l.isEmpty && decide (rxClose s ci.val air.toNat slot sec.val axc.val k.val ≤ now s)) (fun s =>
    let r := l.foldl (fun (acc : List Nat × Nat × State) w =>
      let y := closeSymbol w.1 w.2 axc.val k.val acc.2.2
      ((acc.1 ++ y.1.1).eraseDups, max acc.2.1 y.1.2, markClosed w.1.id w.2 axc.val k.val y.2)) ([], 0, s)
    finishGraphs (wake (noteMissing ci.val 1 (r.1.length + r.2.1) axc.val
      (portStat (axcLane s axc.val) 5 r.1.length r.2.2)))) s

/-! ### Transmit windows (R423, R436) -/

/-- A graph that is in the device, or DONE with windows still to come. -/
def txGraph (s : State) (gid : Nat) : Option Graph :=
  match graphOf s gid with
  | some g => some g
  | none => s.work.parting.find? fun g => g.id == gid

/-- A symbol of an FH_TX buffer is sent or skipped; a DONE graph with none left goes. -/
def txMark (gid b axc k : Nat) (s : State) : State :=
  let mark := fun (g : Graph) => if g.id = gid then { g with tx := (b, 16 * axc + k) :: g.tx } else g
  dropParting (fun g => (txLeft g).isEmpty)
    { s with work := { s.work with graphs := s.work.graphs.map mark, parting := s.work.parting.map mark } }

/-- Every producer of a buffer ran and had completed by `t` (R436; DEDUCED, log 32: a producer that never ran leaves it incomplete). -/
def producedBy (g : Graph) (b t : Nat) : Bool :=
  (refsIn g.jobs 1 b ++ refsIn g.jobs 2 b).all fun j => match Pl.rtOf g.rts j with
    | some r => !r.open_ && r.ran && decide (r.finish ≤ t)
    | none => false

/-- A committed graph's FH_TX buffer with a symbol still to send. -/
def txDue (s : State) (gid b axc k : Nat) : Option Graph :=
  match txGraph s gid with
  | some g => if (g.st = .placed || g.st = .running) && (txLeft g).contains (b, axc, k) then some g else none
  | none => none

/-- The samples of symbol `k` of an AxC in a buffer. -/
def txSamples (s : State) (g : Graph) (b axc k : Nat) : List Nat :=
  match fhOffset s g (bufD g b) axc k, tfind b g.homes with
  | some ofs, some h => (upto (ciSubcarriers (ciDesc s g.ci) false)).map fun i => ofBytes (load s (h.addr + ofs + 4 * i) 4)
  | _, _ => []

/-- Frame, subframe, slot and symbol of a message, as four octets with its first (O-RAN, log 13). -/
def oranHead (s : State) (g : Graph) (dir filter k : Nat) : List Byte :=
  beBytes 1 (128 * dir + 16 + filter) ++ beBytes 1 (graphSfn s g % 256) ++
    beBytes 2 ((graphSlotId s g).1 * 4096 + (graphSlotId s g).2 * 64 + k)

/-- udCompHdr of a port: width (16 as 0) and method (R435). -/
def compHdr (s : State) (p : Nat) : Nat :=
  (if rd s (kPoCompMethod p) = 0 then 0 else rd s (kPoCompMant p) % 16) * 16 + rd s (kPoCompMethod p)

/-- One symbol in the frequency domain: sections of whole PRBs, the greatest number that fits MTU, ascending (R436). -/
def sendSections (p : Nat) (g : Graph) (b axc k : Nat) (s : State) : State :=
  let d := axcDesc s axc
  let method := rd s (kPoCompMethod p)
  let mant := rd s (kPoCompMant p)
  let samples := txSamples s g b axc k
  let nprb := samples.length / 12
  let hdr := if rdB s (kPoCompHdr p) then beBytes 1 (compHdr s p) ++ beBytes 1 0 else []
  let room := (rd s (kPoMtu p) - encapBytes (rd s (kPoEncap p)) - 16 - hdr.length) / prbBytes method mant
  let per := max 1 (min 255 room)
  each (upto (ceilDiv nprb per)) (fun i t =>
    let n := min per (nprb - per * i)
    let head := (b % 4096) * 2 ^ 20 + per * i * 256 + n
    let data := (upto n).flatMap fun j => encodePrb method mant ((samples.drop (12 * (per * i + j))).take 12)
    portStat p 10 1 (sendStream p 3 0 (aTxId d) (oranHead s g 1 0 k ++ beBytes 4 head ++ hdr ++ data) t)) s

/-- The samples of one symbol in the time domain, prefix included (R429). -/
def timeSamples (s : State) (g : Graph) (b axc k : Nat) : List Nat :=
  let d := axcDesc s axc
  let c := ciDesc s g.ci
  let l := txSamples s g b axc k
  let n := (symStart c g.slot (k + 1) - symStart c g.slot k) * 2 ^ aRate d / 512
  (upto n).map fun i => (Config.portTx (BitVec.ofNat 128 c) (aRate d) g.slot k l i).toNat

/-- A sample's octets on Ethernet: I then Q in network order (Table 12-5). -/
def sampleBytes (v : Nat) : List Byte := beBytes 2 (v % 65536) ++ beBytes 2 (v / 65536)

/-- Messages of type 0 with the samples of one symbol, at most MTU octets to a frame (R438). -/
def sendSamples (p : Nat) (g : Graph) (b axc k : Nat) (s : State) : State :=
  let d := axcDesc s axc
  let c := ciDesc s g.ci
  let l := timeSamples s g b axc k
  let per := max 1 ((rd s (kPoMtu p) - encapBytes (rd s (kPoEncap p)) - 16) / 4)
  let idx := sampleIndex c (aRate d) (g.air + symStart c g.slot k)
  each (upto (ceilDiv l.length per)) (fun i t =>
    let at_ := (idx + per * i) % streamMod (aRate d)
    let head := beBytes 2 (at_ / frameSamples (aRate d)) ++ beBytes 4 (at_ % frameSamples (aRate d)) ++ beBytes 2 0
    portStat p 10 1 (sendStream p 4 0 (aTxId d) (head ++ ((l.drop (per * i)).take per).flatMap sampleBytes) t)) s

/-- The container bits of one symbol on CPRI: components rounded to W bits and saturated (R422). -/
def sendContainers (p : Nat) (g : Graph) (b axc k : Nat) (zeros : Bool) (s : State) : State :=
  let d := axcDesc s axc
  let w := aWidth d
  let l := timeSamples s g b axc k
  let comp := fun (v : Int) => if zeros then 0 else (satS w (roundShift v (16 - w))).1
  let bits := packBits w (l.flatMap fun v => [comp (iqOf v).1, comp (iqOf v).2])
  let n := 2 * w * l.length
  send (.portFrame p 7 (beBytes 2 axc ++ beBytes ((n + 7) / 8) (bits * 2 ^ ((8 - n % 8) % 8)))) s

/-- The port logic reads the samples of a symbol: uncorrectable on-die data is reported (R522). -/
def txFault (g : Graph) (b axc k : Nat) (s : State) : State :=
  match fhOffset s g (bufD g b) axc k, tfind b g.homes with
  | some ofs, some h => demandFault (h.addr + ofs) (4 * ciSubcarriers (ciDesc s g.ci) false) s
  | _, _ => s

/-- A symbol that is not sent (R436). -/
def txSkip (g : Graph) (b axc k : Nat) (s : State) : State :=
  noteMissing g.ci 2 1 axc (portStat (axcLane s axc) 11 1 (txMark g.id b axc k s))

/-- TX_WINDOW_OPEN: a symbol whose producers completed by the close − TX_ADVANCE starts at the window open or after that completion;
one in the time domain over CPRI is read at the open − TX_ADVANCE, as zeros where they had not (R423, R436). -/
def execTxWindowOpen (gid : Nat) (b : Nat) (axc : AxcId) (k : Fin 14) (s : State) : Res :=
  match txDue s gid b axc.val k.val with
  | none => done s
  | some g =>
    let a := axc.val
    let p := axcLane s a
    let open_ := txOpen s g.ci g.air g.slot a k.val
    let close := txClose s g.ci g.air g.slot a k.val
    let up : Bool := axcBound s a && axcCi (axcDesc s a) == g.ci && portState s p == 1
    if aForm (axcDesc s a) = 2 then
      whenDue (up && decide (open_ ≤ now s + nsToTc 2000)) (fun s =>
        if producedBy g b (open_ - nsToTc 2000) then txMark g.id b a k.val (sendContainers p g b a k.val false (txFault g b a k.val s))
        else txSkip g b a k.val (sendContainers p g b a k.val true s)) s
    else
      whenDue (up && decide (open_ ≤ now s) && producedBy g b (close - nsToTc 2000)) (fun s =>
        let t := txFault g b a k.val s
        txMark g.id b a k.val (if aForm (axcDesc s a) = 0 then sendSections p g b a k.val t else sendSamples p g b a k.val t)) s

/-- TX_WINDOW_CLOSE: at the close − TX_ADVANCE a symbol still incomplete, or due on a port that is not UP, is skipped (R420, R436). -/
def execTxWindowClose (gid : Nat) (b : Nat) (axc : AxcId) (k : Fin 14) (s : State) : Res :=
  match txDue s gid b axc.val k.val with
  | none => done s
  | some g =>
    let a := axc.val
    let limit := txClose s g.ci g.air g.slot a k.val - nsToTc 2000
    whenDue (decide (limit ≤ now s) && (!producedBy g b limit || portState s (axcLane s a) != 1 || !axcBound s a))
      (txSkip g b a k.val) s

/-! ### The control plane (R437) -/

/-- Symbols from `k` on that are set one after another. -/
def runLength (mask : Nat) : Nat → Nat → Nat
  | 0, _ => 0
  | fuel + 1, k => if bitAt mask k then 1 + runLength mask fuel (k + 1) else 0

/-- The C-plane message of a run: section type 1, or type 3 for PRACH (fields as in R437; layout O-RAN, log 13). -/
def cplaneBody (s : State) (g : Graph) (b axc k free : Nat) : List Byte :=
  let d := axcDesc s axc
  let bd := bufD g b
  let p := axcLane s axc
  let dir := if bd.kind = 4 then 1 else 0
  let sect := fun (n : Nat) => beBytes 4 ((b % 4096) * 2 ^ 20) ++ beBytes 2 (0xFFF0 + n) ++ beBytes 2 (aBeam d)
  if bd.secClass = 1 then
    let n := ((symsOf bd.symMask).getLastD 0 + 1)
    oranHead s g dir (aFilter d) (aStartSym d) ++ beBytes 1 1 ++ beBytes 1 3 ++ beBytes 2 (aTimeOfs d) ++
      beBytes 1 (fld (Config.freeValue free) 0 8) ++ beBytes 2 (aCp d) ++ beBytes 1 (compHdr s p) ++ sect n ++
      beBytes 3 (aFreqOfs d) ++ beBytes 1 0
  else
    oranHead s g dir 0 k ++ beBytes 1 1 ++ beBytes 1 1 ++ beBytes 1 (compHdr s p) ++ beBytes 1 0 ++ sect (runLength bd.symMask 14 k)

/-- CPLANE_SEND: the message of the run that starts at symbol `k`, at the later of the commit and its reference − CP_ADV_MAX; one for
all symbols of a PRACH buffer. A cancelled graph sends no more (R437). -/
def execCplaneSend (gid : Nat) (b : Nat) (axc : AxcId) (k : Fin 14) (s : State) : Res :=
  match txGraph s gid with
  | none => done s
  | some g =>
    let a := axc.val
    let bd := bufD g b
    let d := axcDesc s a
    let p := axcLane s a
    let first : Bool := if bd.secClass = 1 then (symsOf bd.symMask).head? == some k.val
      else bitAt bd.symMask k.val && (k.val == 0 || !bitAt bd.symMask (k.val - 1))
    let sym := if bd.secClass = 1 then aStartSym d + k.val else k.val
    let ref := if bd.kind = 4 then txOpen s g.ci g.air g.slot a k.val else rxSymStart (ciDesc s g.ci) g.air g.slot sym
    whenDue ((g.st == .placed || g.st == .running) && !g.cancelled && !g.stale && (bd.kind == 3 || bd.kind == 4) && (axcsOf bd).contains a &&
        first && axcBound s a && aForm d == 0 && portState s p == 1 && !g.cplane.contains (b, 16 * a + k.val) &&
        decide (ref ≤ now s + nsToTc (rd s (kPoCpAdvMax p)))) (fun s =>
      let (free, s0) := draw s
      let s1 := sendStream p 2 2 (aTxId d) (cplaneBody s g b a k.val free) s0
      let s2 := if ref < now s + nsToTc (rd s (kPoCpAdvMin p)) then portStat p 12 1 s1 else s1
      let mark := fun (g : Graph) => if g.id = gid then { g with cplane := (b, 16 * a + k.val) :: g.cplane } else g
      { s2 with work := { s2.work with graphs := s2.work.graphs.map mark, parting := s2.work.parting.map mark } }) s

/-! ### Delay measurement and SyncE messages (R442, R443) -/

/-- The PTP time of a DTC value as the 10 octets of eCPRI: 48-bit seconds, 32-bit nanoseconds. -/
def owdmTime (tc : Nat) : List Byte := beBytes 6 (315964819 + tc / 1966080000) ++ beBytes 4 (tc % 1966080000 * 3125 / 6144)
/-- Nanoseconds of such a timestamp. -/
def owdmNs (l : List Byte) : Int := ((beAt l 0 6 * 1000000000 + beAt l 6 4 : Nat) : Int)

/-- A delay-measurement message: ID, action, timestamp, compensation (action 0 Request, 1 Request with Follow_Up, 2 Response, 3 and 4
Remote Requests, 5 Follow_Up; eCPRI 2.0, log 13). -/
def sendOwdm (p id action : Nat) (stamp : List Byte) (comp : Nat) (s : State) : State :=
  sendEcpri p 5 (ecpriHead 5 20 ++ beBytes 1 id ++ beBytes 1 action ++ stamp ++ beBytes 8 comp) s

/-- The compensation of a port, 2^-16 ns. -/
def portComp (p : Nat) : Nat := (Config.owdmCompensation p).toNat

/-- Measurement ID of a message. -/
def owdmId (m : List Byte) : Nat := beAt m 4 1

/-- The Response to a Request that arrived at `t`. -/
def owdmRespond (p id t : Nat) (s : State) : State := sendOwdm p id 2 (owdmTime t) (portComp p) s

/-- The first delay-measurement message with one of some actions is handled. -/
def onOwdm (p : Nat) (actions : List Nat) (f : PortMsg → State → State) (s : State) : Res :=
  match takePortMsg p 2 (fun b => actions.contains (beAt b 5 1)) s with
  | some (m, s1) => done (f m s1)
  | none => done s

/-- OWDM_REQUEST: answered with a Response. -/
def execOwdmRequest (p : PortId) (s : State) : Res := onOwdm p.val [0] (fun m s => owdmRespond p.val (owdmId m.body) m.arrival s) s

/-- OWDM_REQUEST_FOLLOW_UP: awaits its Follow_Up. -/
def execOwdmRequestFollowUp (p : PortId) (s : State) : Res :=
  onOwdm p.val [1] (fun m s =>
    { s with links := { s.links with owdmIn := tset (256 * p.val + owdmId m.body) (m.body, m.arrival) s.links.owdmIn } }) s

/-- OWDM_FOLLOW_UP: the pending Request is answered. -/
def execOwdmFollowUp (p : PortId) (s : State) : Res :=
  onOwdm p.val [5] (fun m s =>
    let k := 256 * p.val + owdmId m.body
    match tfind k s.links.owdmIn with
    | some r => owdmRespond p.val (owdmId m.body) r.2 { s with links := { s.links with owdmIn := tdel k s.links.owdmIn } }
    | none => s) s

/-- A Request of the port, alone or with its Follow_Up. -/
def owdmAsk (p id : Nat) (follow : Bool) (s : State) : State :=
  if follow then sendOwdm p id 5 (owdmTime (now s)) (portComp p) (sendOwdm p id 1 (List.replicate 10 0) 0 s)
  else sendOwdm p id 0 (owdmTime (now s)) (portComp p) s

/-- OWDM_REMOTE_REQUEST: makes the port send a Request. -/
def execOwdmRemoteRequest (p : PortId) (s : State) : Res :=
  onOwdm p.val [3, 4] (fun m s => owdmAsk p.val (owdmId m.body) (beAt m.body 5 1 == 4) s) s

/-- OWDM_RESPONSE: the peer's receive time less its compensation, less the sending time and the port's, is OWDM_RESULT in ns. -/
def execOwdmResponse (p : PortId) (s : State) : Res :=
  onOwdm p.val [2] (fun m s =>
    match tfind p.val s.links.owdmOut with
    | some (id, t) =>
      if id = owdmId m.body then
        let comp : Int := toInt 64 (beAt m.body 16 8) + toInt 64 (portComp p.val)
        wrI (kPoOwdmResult p.val) 64 (owdmNs (m.body.drop 6) - owdmNs (owdmTime t) - comp / 65536)
          { s with links := { s.links with owdmOut := tdel p.val s.links.owdmOut } }
      else s
    | none => s) s

/-- OWDM_START: a write of the measurement ID sends a Request with Follow_Up, on an Ethernet port that is UP (R420). -/
def wOwdmStart (p id : Nat) (s : State) : Written :=
  if !portEth s p || portState s p ≠ 1 then accepted s
  else accepted (owdmAsk p id true { s with links := { s.links with owdmOut := tset p (id, now s) s.links.owdmOut } })

/-- OWDM_START. -/
def execOwdmStart (p : PortId) (id : Byte) (s : State) : Res := answer (wOwdmStart p.val id.toNat s)

/-- ESMC_INTERVAL: a port with ESMC_TX = 1 sends an ESMC frame with the quality level the timing firmware sets, which the manual leaves
open (R442; layout PRESUMED from ITU-T G.8264, log 13). -/
def execEsmcInterval (p : PortId) (s : State) : Res :=
  whenDue (rdB s (kPoEsmcTx p.val) && portEth s p.val && portState s p.val == 1) (fun s =>
    let (k, s1) := draw s
    let body := beBytes 1 0x0A ++ beBytes 3 0x0019A7 ++ beBytes 2 1 ++ beBytes 4 0x10000000 ++ beBytes 3 0x010004 ++
      beBytes 1 (fld (Config.freeValue k) 0 4)
    send (.portFrame p.val 6 (ethFrame s p.val 0x8809 body)) s1) s

end Sys2Proof.Machine
end

