-- ==== Sys2Proof/Machine/Tenants.lean ====
section
/-!
DEFINITION. What the owner sets for tenants (05_tenants_and_isolation.md): control, carrier instances, budgets, dedicated units; the
program table (R204 to R206); maintenance of Sage cores (R265, R266, R532).
-/
namespace Sys2Proof.Machine

/-! ### Tenants and carrier instances (R177, R178) -/

/-- CONTROL: 1 enables, 2 disables (Table 5-1). -/
def wControl (t v : Nat) (s : State) : Written :=
  if t = 0 || (v = 1 && tenantState s t = 0 && !fnEnabled s t) then refusedW .state s
  else if v = 1 then accepted (wr (kTeState t) 1 s)
  else if v ≠ 2 then refusedW .range s
  else if tenantState s t ≠ 1 then accepted s
  else if hasGraphs s t then accepted (wr (kTeState t) 2 s)
  else accepted (disableTenant t s)

/-- TENANT_ENABLE. -/
def execTenantEnable (t : TenantId) (s : State) : Res := answer (wControl t.val 1 s)
/-- TENANT_DISABLE. -/
def execTenantDisable (t : TenantId) (s : State) : Res := answer (wControl t.val 2 s)

/-- The CI that a pending record waits for: an AxC descriptor's, a binding's, or that of the binding whose resources it holds
(R684). -/
def recordCi (l : List ParamRecord) (r : ParamRecord) : Option Nat :=
  if 0x3400 ≤ r.idx && r.idx < 0x3800 then some (axcCi (ofBytes r.value))
  else if 2 ≤ r.sub && r.sub ≤ 5 then some (bindCi (ofBytes r.value))
  else if 8 ≤ r.sub && r.sub ≤ 0x0B then
    (l.find? fun b => b.idx == r.idx && b.sub + 6 == r.sub).map fun b => bindCi (ofBytes b.value)
  else none

/-- A refused record enters the error history (R666). -/
def recordFailed (r : ParamRecord) (s : State) : State := histAdd 0x0001 1 0 r.idx s

/-- A write that a record stands for. -/
def applyRecord (r : ParamRecord) (w : State → Written) (s : State) : State :=
  match w s with
  | (none, s1) => s1
  | (some _, _) => recordFailed r s

/-- The resources of a record, those in use, as RES_SET writes; none for a binding that is not ACTIVE (R385). -/
def applyResources (r : ParamRecord) (s : State) : State :=
  let t := (r.idx - 0x8000) / 16
  let slot := r.sub - 8
  if (bindOf s (4 * t + slot)).state ≠ .active then s
  else each (upto 64) (fun i x =>
    let d := fieldAt r.value (32 * i) 32
    if bitAt d 7 then applyRecord r (wResSet t slot i d) x else x) s

/-- The pending records of a CI are applied: AxC descriptors, then bindings, then resources (R684). -/
def applyPending (ci : Nat) (s : State) : State :=
  let l := s.dict.pendingRecords
  let mine := l.filter fun r => recordCi l r == some ci
  let s1 := { s with dict := { s.dict with pendingRecords := l.filter fun r => !mine.contains r } }
  let port := fun (r : ParamRecord) => 0x3400 ≤ r.idx && r.idx < 0x3800
  let s2 := each (mine.filter port) (fun r x => applyRecord r (wAxcBind (axcPort (ofBytes r.value)) (ofBytes r.value)) x) s1
  let s3 := each (mine.filter fun r => !port r && r.sub ≤ 5) (fun r x =>
    applyRecord r (wBindSet ((r.idx - 0x8000) / 16) (r.sub - 2) (ofBytes r.value)) x) s2
  each (mine.filter fun r => !port r && 8 ≤ r.sub) (fun r x => applyResources r x) s3

/-- CI_ASSIGN (R178). -/
def wCiAssign (t c : Nat) (s : State) : Written :=
  if tenantState s t ≠ 1 then refusedW .state s
  else if 511 < c || (ciTenant s c).isSome || !ciValid (ciDesc s c) then refusedW .range s
  else accepted (applyPending c { s with work := { s.work with ciOwner := tset c t s.work.ciOwner } })

/-- CI_ASSIGN. -/
def execCiAssign (t : TenantId) (c : BitVec 16) (s : State) : Res := answer (wCiAssign t.val c.toNat s)

/-- The graphs of a CI taken away end: those not accepted with CI_NOT_OWNED, the jobs of the others ROLE_STALE (R70). -/
def endCiGraphs (ci : Nat) (s : State) : State :=
  each ((s.work.graphs.filter fun g => g.ci == ci).map (·.id)) (fun gid x => match graphOf x gid with
    | none => x
    | some g => if g.st = .queued || g.st = .checking then refuseGraph g 3 0xFFFF x else stopGraph gid 3 x) s

/-- CI_REMOVE (R178). -/
def wCiRemove (t c : Nat) (s : State) : Written :=
  if ciTenant s c ≠ some t then refusedW .range s
  else accepted (removeCi t c (endCiGraphs c s))

/-- CI_REMOVE. -/
def execCiRemove (t : TenantId) (c : BitVec 16) (s : State) : Res := answer (wCiRemove t.val c.toNat s)

/-! ### Budgets, flows, mode (R186, R188, R202) -/

/-- The object of budget kind `k`: 0 Sage, 1 to 10 engine classes, 11 DMA, 12 DRAM tokens, 13 NoC slots, 14 to 17 tier quotas. -/
def budgetKey (t k : Nat) : Nat :=
  if k = 0 then kTeSageUs t
  else if k ≤ 10 then kTeEngineUs t (k - 1)
  else if k = 11 then kTeDmaUs t
  else if k = 12 then kTeDramTokens t
  else if k = 13 then kTeNocSlots t
  else kTeQuota t (k - 14)

/-- A budget: one that rises may not take the sum over all tenants past the capacity; a quota is stored rounded down to its tier's
unit (R186). -/
def wBudget (t k v : Nat) (s : State) : Written :=
  let new := if 14 ≤ k then v / tierUnit (k - 14) * tierUnit (k - 14) else v
  let old := rd s (budgetKey t k)
  if old < new && kindCapacity s k < kindAdmitted s k - old + new then refusedW .range s
  else accepted (overcommitCheck (wr (budgetKey t k) new s))

/-- BUDGET_WRITE. -/
def execBudgetWrite (t : TenantId) (k : Fin 18) (v : BitVec 64) (s : State) : Res := answer (wBudget t.val k.val v.toNat s)

/-- FLOW_LIMIT: at most 1,024 over the tenants that share a slice (R188). -/
def wFlowLimit (t v : Nat) (s : State) : Written :=
  let old := rd s (kTeFlowLimit t)
  let sum := sumBy (tenants.filter fun x => x % 4 == t % 4) fun x => rd s (kTeFlowLimit x)
  if 1024 < v || (old < v && 1024 < sum - old + v) then refusedW .range s else accepted (wr (kTeFlowLimit t) v s)

/-- FLOW_LIMIT. -/
def execFlowLimit (t : TenantId) (v : BitVec 16) (s : State) : Res := answer (wFlowLimit t.val v.toNat s)

/-- MODE (0 to 2) and PIN_POLICY (0, 1): a change deletes the tenant's templates (R202). -/
def wTenantMode (t : Nat) (pin : Bool) (v : Nat) (s : State) : Written :=
  let k := if pin then kTePinPolicy t else kTeMode t
  if (if pin then 1 else 2) < v then refusedW .range s
  else if rd s k = v then accepted s
  else accepted (dropTemplates (fun x => x.tenant == t) (wr k v s))

/-- TENANT_MODE. -/
def execTenantMode (t : TenantId) (pin : Bool) (v : Byte) (s : State) : Res := answer (wTenantMode t.val pin v.toNat s)

/-! ### Dedicated units (R190) -/

/-- Taking a unit from the shared capacity would break R186 for its kind. -/
def breaksCapacity (s : State) (u : Nat) : Bool :=
  let k := if isCore u then 0 else classOf (u - 108)
  let less := capacityWith s (fun x => if x = u then mkRole 2 true 0 0 else roleWord s x) k
  less < capacity s k && less < kindAdmitted s k

/-- DEDICATE (R190). -/
def wDedicate (t loc ci : Nat) (s : State) : Written :=
  if !locValid loc then refusedW .locInvalid s else match unitOf loc with
  | none => refusedW .range s
  | some u =>
    let w := roleSoon s u
    if (unitSt s u).fenced || roleFn w = 2 || roleFn w = 3 || !roleShared w || 511 < ci || ciTenant s ci ≠ some t || breaksCapacity s u then
      refusedW .range s
    else accepted (wantRole u (mkRole (roleFn w) false ci t) s)

/-- DEDICATE. -/
def execDedicate (t : TenantId) (loc : BitVec 64) (ci : BitVec 16) (s : State) : Res := answer (wDedicate t.val loc.toNat ci.toNat s)

/-- RELEASE_UNIT (R190). -/
def wReleaseUnit (t loc : Nat) (s : State) : Written :=
  if !locValid loc then refusedW .locInvalid s else match unitOf loc with
  | none => refusedW .range s
  | some u =>
    if (dedicatedUnits s t).contains u then accepted (wantRole u (mkRole (roleFn (roleSoon s u)) true 0 0) s) else refusedW .range s

/-- RELEASE_UNIT. -/
def execReleaseUnit (t : TenantId) (loc : BitVec 64) (s : State) : Res := answer (wReleaseUnit t.val loc.toNat s)

/-! ### The program table (R204 to R206) -/

/-- Some live graph or template uses entry `n` (R206). -/
def entryUsed (s : State) (n : Nat) : Bool :=
  s.work.graphs.any (fun g => g.st != .queued && g.st != .done &&
    (g.jobs.any (fun j => j.op == 0x100 + n) || g.rts.any fun r => r.p.prog == some n)) ||
  s.work.pus.any (fun p => match p.2.placing with
    | some (_, pl) => pl.items.any fun j => j.prog == some n
    | none => false) ||
  s.work.templates.any fun x => x.jobs.any (fun j => j.op == 0x100 + n) || x.plan.any fun j => j.prog == some n

/-- An address in device DRAM. -/
def inDram (s : State) (a n : Nat) : Bool := dramBase ≤ a && a + n ≤ dramBase + rd s kDrCapacity

/-- A valid entry's fields are in their ranges, and every cluster it is resident in holds its resident set (R204, R205). `s` has the
entry. -/
def entryFits (s : State) (e : Nat) : Bool :=
  pImageLen e % 16 == 0 && pImageLen e ≤ 122880 && pStaticLen e % 256 == 0 && pStaticLen e ≤ 98304 && pArgMax e ≤ 4096 &&
    pImageAddr e % 64 == 0 && inDram s (pImageAddr e) (pImageLen e) &&
    (pStaticInit e == 0 || (pStaticInit e % 64 == 0 && inDram s (pStaticInit e) (pStaticLen e))) &&
    (upto 12).all fun c => !pResident e c || (codeBytes s c ≤ 122880 && staticBytes s c ≤ 98304)

/-- Cores of a cluster whose resident set changed are to load it: those in real-time service, those in maintenance before they
return (R206). -/
def markReload (c : Nat) (s : State) : State :=
  each (span (9 * c) 9) (fun u x =>
    if (roleFn (roleWord x u) = 0 || roleFn (roleWord x u) = 1) && !(unitSt x u).fenced then modUnit u (fun m => { m with reload := true }) x
    else x) s

/-- A core in real-time service still has to load. -/
def loadsPending (s : State) : Bool := (upto 108).any fun u => (unitSt s u).reload && inService s u

/-- After the last load: placement books the programs, and the answers go out (R206). -/
def finishLoads (s : State) : State :=
  if loadsPending s then s
  else
    let s1 := { s with work := { s.work with loading := [] }, dict := { s.dict with loadReplies := [] } }
    each s.dict.loadReplies giveReply s1

/-- The effect of an accepted entry, which stands as written. One withdrawn while it is used keeps its image for the jobs that run it
(R206). -/
def putEntry (n e : Nat) (s : State) : State :=
  let old := progRun s n
  let was := fun c => pValid old && pResident old c
  let rest := s.work.loading.filter (· != n)
  let t := { s with work := { s.work with progs := if e = 0 then tdel n s.work.progs else tset n e s.work.progs } }
  if pValid e then
    each ((upto 12).filter fun c => was c || pResident e c) markReload
      { t with work := { t.work with withdrawn := tdel n s.work.withdrawn, loading := n :: rest } }
  else if entryUsed s n then
    { t with work := { t.work with withdrawn := if pValid (prog s n) then tset n old s.work.withdrawn else s.work.withdrawn, loading := rest } }
  else each ((upto 12).filter was) markReload { t with work := { t.work with withdrawn := tdel n s.work.withdrawn, loading := rest } }

/-- ENTRY_WRITE at the index in ENTRY_SELECT, refused while an earlier one waits for its answer (R645); the answer of an accepted valid entry waits for the last load (R206). -/
def wEntry (e : Nat) (s : State) : Written :=
  let n := rd s kPtEntrySelect
  if !s.dict.loadReplies.isEmpty then refusedW .state s
  else if !pValid e then (if progReservedOk e then accepted (finishLoads (putEntry n e s)) else refusedW .range s)
  else if entryUsed s n then refusedW .state s
  else
    let s1 := putEntry n e s
    if progReservedOk e && entryFits s1 e then accepted s1 else refusedW .range s

/-- The answer `o` of an ENTRY_WRITE whose outcome is `w`. -/
def entryAnswer (e : Nat) (o : Reply) (w : Written) : State :=
  if w.1.isSome || !pValid e then giveReply o w.2
  else finishLoads { w.2 with dict := { w.2.dict with loadReplies := w.2.dict.loadReplies ++ [o] } }

/-- ENTRY_WRITE. -/
def execEntryWrite (e : BitVec 512) (s : State) : Res :=
  let w := wEntry e.toNat s
  done (entryAnswer e.toNat { out := .reply (match w.1 with | none => 0 | some a => a.code) } w)

/-- The runtime and the resident set of its cluster are loaded into core `u`: images and static data (R205). -/
def loadCore (u : Nat) (s : State) : State :=
  let c := u / 9
  let s1 := each (residents s c) (fun p x =>
    let e := p.2
    let image := memStore (coreAddr u + imageStart s c p.1) (load s (pImageAddr e) (pImageLen e)) x
    let init := if pStaticInit e = 0 then List.replicate (pStaticLen e) 0 else load s (pStaticInit e) (pStaticLen e)
    memStore (coreAddr u + staticStart s c p.1) init image) s
  let s2 := modUnit u (fun m => { m with reload := false }) s1
  { s2 with sage := { s2.sage with reload := s2.sage.reload.filter (· != u) } }

/-- PROGRAM_IMAGE_LOAD: a core that has to, at a job boundary; one out of service never does (R206). -/
def execProgramImageLoad (u : CoreId) (s : State) : Res :=
  let m := unitSt s u.val
  whenDue (needsLoad s u.val && m.cur.isNone && m.ctx.isEmpty && !m.fenced && decide (roleFn (roleWord s u.val) ≤ 1))
    (fun s => finishLoads (loadCore u.val s)) s

/-! ### Maintenance (R265, R266, R532) -/

/-- A firmware task starts on a core, which takes FUNCTION 1 at its job boundary. -/
def startTask (u : Nat) (k : Task) (s : State) : State :=
  wantFn u 1 (modUnit u (fun m => { m with task := some k, former := roleFn (roleSoon s u) }) s)

/-- MAINT_REQUEST (R266). -/
def wMaintRequest (c v : Nat) (s : State) : Written :=
  let u := 9 * c + v
  let w := roleSoon s u
  if 8 < v || (unitSt s u).fenced || roleFn w = 2 || roleFn w = 1 || roleFn (roleWord s u) = 1 || !roleShared w || breaksCapacity s u then
    refusedW .range s
  else accepted (startTask u .maintenance s)

/-- MAINT_REQUEST. -/
def execMaintRequest (c : ClusterId) (v : Byte) (s : State) : Res := answer (wMaintRequest c.val v.toNat s)

/-- The result of a task in SELFTEST: 1 pass, 2 fail. -/
def noteSelftest (u : Nat) (pass : Bool) (s : State) : State := wr (kClSelftest (u / 9) (u % 9)) (if pass then 1 else 2) s

/-- The CORE_SUBSTITUTED event: 0 substituted, 1 the spare failed (Table 15-8). -/
def evSubstituted (cause out spare : Nat) (s : State) : State :=
  ownerEvent (pack [(0, 8, 0x24), (8, 8, cause), (32, 64, locCore out), (96, 64, now s), (160, 64, locCore spare)])
    (some (0x2400 + cause, 2, locCore out, 0)) s

/-- A core leaves service: FUNCTION 2, and a spare is put in its place (R265, R532). -/
def coreFails (u : Nat) (s : State) : State :=
  coreOut u (roleNow u (setFld (roleSoon s u) 19 3 2) (modUnit u (fun m => { m with task := none, reload := false }) s))

/-- A task of a core ends (Table 7-13, Table 15-5): what was held before, or for a spare the role it replaces, returns with the images
loaded; a core that failed goes out of service. -/
def coreTestEnd (u : Nat) (pass : Bool) (s : State) : State :=
  let m := unitSt s u
  let s1 := noteSelftest u pass s
  match m.task with
  | some (.substitution out) =>
    if pass then
      let role := setFld (roleWord s out) 19 3 0
      evSubstituted 0 out u (roleNow u role (loadCore u (modUnit u (fun m => { m with task := none }) s1)))
    else evSubstituted 1 out u (coreFails u s1)
  | _ =>
    if pass then
      let s2 := if needsLoad s1 u then loadCore u s1 else s1
      roleNow u (setFld (roleSoon s u) 19 3 m.former) (modUnit u (fun m => { m with task := none }) s2)
    else coreFails u s1

/-- MAINT_TASK_END: a maintenance or calibration task, or a self-test of no recovery, ends on a core in FUNCTION 1 (R265). -/
def execMaintTaskEnd (u : CoreId) (pass : Bool) (s : State) : Res :=
  let task : Bool := match (unitSt s u.val).task with
    | some .maintenance => true
    | some .calibration => true
    | some .selftest => !inFlow s 1 u.val
    | _ => false
  whenDue (task && roleFn (roleWord s u.val) == 1) (fun s => finishLoads (coreTestEnd u.val pass s)) s

end Sys2Proof.Machine
end

