-- ==== Sys2Proof/Machine/Reset.lean ====
section
/-!
DEFINITION. The resets of Table 20-9 (20_startup_and_recovery.md): what D0 loses, what D1 and the boot flash keep, the rails, and
the warm reset.
-/
namespace Sys2Proof.Machine

/-- D1 samples the straps into D1.STR (R671). -/
def sampleStraps (s : State) : State := { s with boot := { s.boot with straps := s.boot.strapPins } }

/-- The PHY of the management port, the boot flash and the error history in D1.RET: what the dictionary keeps without D0. -/
def dictKept (d : DictSt) : DictSt :=
  { history := d.history, histSeq := d.histSeq, histFlash := d.histFlash, copyA := d.copyA, copyB := d.copyB, phyUp := d.phyUp }

/-- What D1 keeps of power control: its VBAT-backed registers, D1.RET, latched wakes, the trip record (R599, R608). -/
def powKept (p : PowSt) : PowSt :=
  { slot0 := p.slot0, slot1 := p.slot1, saveLists := p.saveLists, resume := p.resume, resumeText := p.resumeText, wakeMask := p.wakeMask, latched := p.latched,
    exit_ := p.exit_, stcAlarm := p.stcAlarm, tripPin := p.tripPin, tripHold := p.tripHold, tripMark := p.tripMark, tripTimes := p.tripTimes, trips := p.trips,
    tripRestart := p.tripRestart, tripPending := p.tripPending }

/-- D0 loses its logic, SRAM and DRAM (Table 20-9): every object takes its default, every graph is lost without an entry, every tenant
but tenant 0 is DISABLED, the host link is down. D0 stands in reset. -/
def d0Lost (s : State) : State :=
  { State.reset with
    tim := { dtc := s.tim.dtc, uptime := s.tim.uptime, stc := s.tim.stc, stcFrac := s.tim.stcFrac }
    pow := powKept s.pow
    boot := { s.boot with
      d0Reset := true, start := .cold, fwReady := false, running := 2, recoveries := [], oscFallback := false, fwCopyBad := false,
      romRan := false, loaded := none, stage := 1 }
    dict := dictKept s.dict
    sram := { copyA := s.sram.copyA, copyB := s.sram.copyB, lastYear := s.sram.lastYear, lastDay := s.sram.lastDay }
    out := s.out
    freeCtr := s.freeCtr
    pending := s.pending }

/-- D1.RET loses its contents: the save lists and the resume image are gone, and the history is the copy in boot flash (R669). -/
def retLost (s : State) : State :=
  { s with
    pow := { s.pow with saveLists := [], resume := none, resumeText := [] }
    dict := { s.dict with history := s.dict.histFlash, histSeq := (s.dict.histFlash.map (·.seq)).headD 0 } }

/-! ### The warm reset (R687, R688) -/

/-- A warm reset starts: D0 is cleared and held in reset, the straps are sampled; DTC, UPTIME, CV and the uncertainty go on, and the
timing subsystem restarts in HOLDOVER with HO_CV := CV. A slew's remainder is applied, because no CI is active (R450). -/
def warmReset (cause : Nat) (s : State) : State :=
  let cv := rd s kTiCv
  let dtc := dtcPlus s.tim.dtc (slewRemain s)
  let locked : Bool := rd s kTiState == 2 && selected s < 8 && refIsPhase (selected s)
  let s1 := sampleStraps (d0Lost s)
  let tim : TimSt :=
    { s1.tim with dtc := dtc, u0 := if locked then some (uncertainty s) else s.tim.u0, lockTime := if locked then now s else s.tim.lockTime,
                  since := dtc, afterSleep := s.tim.afterSleep }
  let s2 := { s1 with tim := tim, boot := { s1.boot with cause := cause, start := .warm, oscFallback := s.boot.oscFallback } }
  refreshQuality (wr kTiState 3 (wr kTiHoCv cv (wr kTiCv cv
    (wr kTiStcK (rd s kTiStcK) (wr kTiStcKUnc (rd s kTiStcKUnc) s2)))))

/-- Every rail of D0 is up. -/
def railsUp (s : State) : Bool := (upto 7).all fun n => s.boot.pwrEn.getD n false && s.boot.pgood.getD n false

/-- D0 runs: its rails are up and it is not held in reset (R672). -/
def d0Runs (s : State) : Bool := railsUp s && !s.boot.d0Reset

/-- A recovery flow escalates to a warm reset (flow 7, RESET_CAUSE 0x05). -/
def escalate (unit loc detail : Nat) (s : State) : State :=
  warmReset 0x05 (endFlow 7 unit 4 loc detail (startFlow 7 unit loc detail 0 s))

/-! ### Rails (R672 to R676) -/

/-- PWR_EN1 to PWR_EN6 go low, and with them their PGOODs. -/
def railsDown (s : State) : State :=
  { s with boot := { s.boot with
      pwrEn := [s.boot.pwrEn.getD 0 true, false, false, false, false, false, false]
      pgood := [s.boot.pgood.getD 0 true, false, false, false, false, false, false]
      d0Reset := true } }

/-- One rail's enable goes high. -/
def railOn (n : Nat) (s : State) : State := { s with boot := { s.boot with pwrEn := s.boot.pwrEn.set n true } }

/-- Step 2 of Table 20-2: the straps are sampled and VDD_CORE is enabled. -/
def powerUp (s : State) : State := railOn 1 (sampleStraps s)

/-- 10 min in STC ticks. -/
def tenMinutes : Nat := 600 * 32768

/-- STC ticks since `t`. -/
def stcSince (s : State) (t : Nat) : Nat := (s.tim.stc + 2 ^ 48 - t) % 2 ^ 48

/-- A rail failed: its rails are removed, the rail is recorded in the cause, and the third failure within 10 min leaves every rail off; else
the power-up is tried again after `wait` STC ticks (R673, R675). -/
def railFails (n wait : Nat) (s : State) : State :=
  let recent := (s.tim.stc :: s.boot.railFails).filter fun t => stcSince s t ≤ tenMinutes
  let s1 := railsDown (d0Lost s)
  wr kPwDeviceState 0 { s1 with
    boot := { s1.boot with railFault := n, cause := 0x07, railFails := recent, railsOff := decide (3 ≤ recent.length), retryAt := some ((s.tim.stc + wait) % 2 ^ 48) }
    pow := { s1.pow with exit_ := none } }

/-- Rails left off after three failures may be tried again: RST_N or WAKE_N fell, or VAON was cycled (R673). On VBAT alone the sequencer does
not act (R23). -/
def railsAgain (s : State) : State :=
  if s.boot.railsOff && s.boot.vaon then powerUp { s with boot := { s.boot with railsOff := false, railFails := [], retryAt := none } } else s

end Sys2Proof.Machine
end

