-- ==== Sys2Proof/Machine/Sram.lean ====
section
/-!
DEFINITION. On-die memory integrity and the wear ledger (15_sram_integrity_and_lifetime.md): scrubbing, column and cell faults, spares
and fences, the ledger and its copies in boot flash.
-/
namespace Sys2Proof.Machine

/-! ### The byte code (R519, R520) -/

/-- Hamming position of data bit `i` (R519). -/
def hamPos (i : Nat) : Nat := [3, 5, 6, 7, 9, 10, 11, 12].getD i 0

/-- Syndrome and parity of a byte's 13-bit error pattern: the code is linear, so the stored value does not matter. -/
def patSyndrome (t : Nat) : Nat :=
  (upto 13).foldl (fun x i => if bitAt t i then x ^^^ (if i < 8 then hamPos i else if i < 12 then 2 ^ (i - 8) else 0) else x) 0
def patParity (t : Nat) : Bool := ((upto 13).filter (bitAt t)).length % 2 == 1

/-- What R520 reads from a byte: clean, an error at a stored bit it corrects, uncorrectable. -/
inductive ByteCheck where
  | clean
  | bit (n : Nat)
  | uncorrectable
deriving DecidableEq, Repr

/-- The decoding of a byte with error pattern `t` (R520). -/
def checkPattern (t : Nat) : ByteCheck :=
  let s := patSyndrome t
  if !patParity t then (if s = 0 then .clean else .uncorrectable)
  else if s = 0 then .bit 12
  else if s = 1 then .bit 8
  else if s = 2 then .bit 9
  else if s = 4 then .bit 10
  else if s = 8 then .bit 11
  else match (upto 8).find? fun i => hamPos i == s with
    | some i => .bit i
    | none => .uncorrectable

/-- What a decoded byte's data differs by from the stored data. -/
def residue (t : Nat) : Nat :=
  match checkPattern t with
  | .bit n => (t ^^^ 2 ^ n) % 256
  | _ => t % 256

/-- The error pattern of byte `b` of a word read with `flips` on its 208 stored bits; a poisoned byte is stored with the check bits
0b00011 on data 0 (R521). -/
def bytePattern (s : State) (code word b : Nat) (flips : BitVec 208) : Nat :=
  fld flips.toNat (13 * b) 13 ^^^ (if s.sram.poison.contains (code, word, b) then 0x300 else 0)

/-! ### Scrubbing (R523 to R526) -/

/-- The scrubber of a quadrant, or of D1 (the fifth). -/
def scrubber (s : State) (q : Nat) : ScrubSt := tget s.sram.scrubbers q {}
/-- A scrubber's record changed. -/
def modScrub (q : Nat) (f : ScrubSt → ScrubSt) (s : State) : State :=
  { s with sram := { s.sram with scrubbers := tmod s.sram.scrubbers q {} f } }

/-- A count of SCRUB_STATS: 0 soft, 1 hard, 2 uncorrectable, 3 DEFERRED, 4 columns spared, 5 words remapped. -/
def scrubStat (q i n : Nat) (s : State) : State :=
  let v := rd s (kSrScrubStats q)
  wr (kSrScrubStats q) (setFld v (64 * i) 64 (wrapAdd 64 (fld v (64 * i) 64) n)) s

/-- A level-2 code of a macro that scrubber `q` covers (R523). -/
def scrubs (q loc : Nat) : Bool := locValid loc && locLvl loc == 2 && scrubberOf loc == q

/-- The macro that ends a scrubber's pass: the one with the highest packed code. -/
def lastMacro (q : Nat) : Nat :=
  if q = 4 then pack [(61, 3, 2), (60, 1, 1), (43, 5, 2), (36, 7, 31)]
  else if q = 0 then macroCode 0 8 0 3 15
  else macroCode q 7 ([27, 31, 59, 63].getD q 0) 0 3

/-- A scrubber may run: D1's while VAON is present. -/
def scrubPowered (s : State) (q : Nat) : Bool := q != 4 || s.boot.vaon

/-- SCRUB_PASS_START: once per SRAM_SCRUB_PERIOD (R523). -/
def execScrubPassStart (q : Fin 5) (s : State) : Res :=
  let d := scrubber s q.val
  let period := rd s kSrSramScrubPeriod
  let due : Bool := match d.since with
    | none => true
    | some t => t + secToTc period ≤ now s
  whenDue (period != 0 && !d.running && scrubPowered s q.val && due)
    (modScrub q.val fun d => { d with running := true, since := some (now s) }) s

/-- A hard fault of a word at a stored bit joins the macro's log (R526). A fault of a remapped word lies in its spare row, which becomes
unusable (R529). -/
def logFault (code word bit : Nat) (s : State) : State :=
  modMacro code (fun m =>
    let known := (m.faulty.find? fun e => e.1 == word).map (·.2)
    if (known.getD []).contains bit then m
    else
      { m with
        counters := tmod m.counters bit 0 (· + 1)
        faulty := match known with
          | some _ => m.faulty.map fun e => if e.1 = word then (word, e.2 ++ [bit]) else e
          | none => m.faulty ++ [(word, [bit])]
        remaps := m.remaps.map fun e => if e.word = word && e.switched then { e with usable := false } else e }) s

/-- One byte of a word under R525: read with pattern `t1`, and after the write-back with `t2`. -/
def scrubByte (q code word b t1 t2 : Nat) (s : State) : State :=
  let poisoned := s.sram.poison.contains (code, word, b)
  let lose := fun (x : State) => scrubStat q 2 1 (poisonByte code word b x)
  match checkPattern t1 with
  | .clean => s
  | .uncorrectable => if poisoned then s else lose s
  | .bit _ =>
    let s1 := match macroStart code with
      | some a =>
        let x := a + 16 * word + b
        let l := (load s x 1).map fun v => v ^^^ BitVec.ofNat 8 (residue t1)
        memStore x l s
      | none => { s with sram := { s.sram with poison := s.sram.poison.filter (· != (code, word, b)) } }
    match checkPattern t2 with
    | .clean => scrubStat q 0 1 s1
    | .bit n => scrubStat q 1 1 (logFault code word (13 * b + n) s1)
    | .uncorrectable => lose s1

/-- SCRUB_WORD: one word of a pass, or one that a requester handed over; `flips1` and `flips2` are the stored bits that read wrong at
the first and the second reading (R525). -/
def execScrubWord (q : Fin 5) (loc : BitVec 64) (word : BitVec 20) (flips1 flips2 : BitVec 208) (s : State) : Res :=
  let c := loc.toNat
  let w := word.toNat
  let d := scrubber s q.val
  let inside : Bool := match locMacroBytes c with
    | some n => w < n / 16
    | none => false
  whenDue (scrubs q.val c && inside && (d.running || d.handed.contains (c, w))) (fun s =>
    each (upto 16) (fun b x => scrubByte q.val c w b (bytePattern s c w b flips1) (fld flips2.toNat (13 * b) 13) x)
      (modScrub q.val (fun d => { d with handed := d.handed.filter (· != (c, w)) }) s)) s

/-! ### Fences (R531, Table 15-3) -/

/-- Templates with a home or an area in the block of an address: a core's data memory, a cluster memory, a slice (R115, R531). -/
def templateUses (s : State) (a : Nat) (t : Template) : Bool :=
  let at_ := Pl.endHome s a
  let same := fun (h : Home) => h.tier == at_.tier && h.block == at_.block
  at_.tier < 3 && (t.homes.any (fun h => same h.2) || t.plan.any fun p => p.areas.any fun x => same (Pl.endHome s x.2))

/-- A core leaves service at its next job boundary, and a spare is put in its place (R126, R532). -/
def coreLeaves (u : Nat) (s : State) : State := if roleFn (roleSoon s u) = 2 then s else coreOut u (wantFn u 2 s)
/-- An engine leaves service at its next job boundary. -/
def engineLeaves (e : Nat) (s : State) : State := if roleFn (roleSoon s (engUnit e)) = 2 then s else wantFn (engUnit e) 2 s

/-- Bytes of a group's engine-local buffer that no fence has taken. -/
def elbLeft (s : State) (g : Nat) : Nat :=
  0x00200000 - 0x10000 * ((upto 32).filter fun i => (macroSt s (macroCode (g / 2) 2 g (i / 4) (40 + i % 4))).fenced).length

/-- Bytes of D1.RET left for save lists beside the resume image; save lists lie in ascending domain, four bytes to a register and a CRC32
(DESIGN CHOICE, log 33). -/
def retLeft (s : State) : Nat :=
  0x10000 * (32 - ((upto 32).filter fun m => (macroSt s (pack [(61, 3, 2), (60, 1, 1), (43, 5, 2), (36, 7, m)])).fenced).length) - 2 ^ 20
/-- The save list of a domain still fits. -/
def saveFits (s : State) (d : Nat) : Bool :=
  sumBy (upto (d + 1)) (fun i => 4 * rd s (kPdSaveLen i) + 4) ≤ retLeft s

/-- What a fence of a macro does (Table 15-3). -/
def fenceEffect (code : Nat) (s : State) : State :=
  let g := locGrp code
  let u := locUnit code
  let m := locMacro code
  if locDie code = 1 then
    each (upto 50) (fun d x => if rd x (kPdFloor d) = 5 && !saveFits x d then wr (kPdFloor d) 4 x else x) s
  else match locKind code with
    | 1 =>
      if m < 8 || (m < 32 && t0Bytes s (9 * g + u) < 0x4000 * (m - 8) + 0x4000) then coreLeaves (9 * g + u) s else s
    | 2 =>
      if m < 40 then engineLeaves (15 * g + u) s
      else if elbLeft s g < 1536 * 1024 then each (span (15 * g) 15) engineLeaves s
      else s
    | 3 =>
      let n := 4 * g + u
      let s1 := laneOff n s
      match portOfLane s n with
      | some p => portDown p 0 s1
      | none => s1
    | 6 => s
    | _ => escalate 0 (locAtLevel code 3) 1 s

/-- A fence is recorded in both copies of the ledger, so that it persists across every reset (R531). -/
def recordFence (code : Nat) (s : State) : State :=
  let put := fun (c : LedgerCopy) => { c with macros := tset code { macroSt s code with counters := [], faulty := [] } c.macros }
  { s with sram := { s.sram with copyA := put s.sram.copyA, copyB := put s.sram.copyB } }

/-- A macro is fenced (R531). -/
def fenceMacro (code bit : Nat) (s : State) : State :=
  if (macroSt s code).fenced then s
  else
    let s1 := bumpBy 32 kSrFencedMacros 1 (recordFence code (modMacro code (fun m => { m with fenced := true }) s))
    let s2 := match macroStart code with
      | some a => dropTemplates (templateUses s a) s1
      | none => s1
    overcommitCheck (fenceEffect code (sramFault 4 code bit s2))

/-! ### Telling a column from a cell (R527 to R529) -/

/-- COLUMN_TH. -/
def columnTh (s : State) : Nat := rd s kSrColumnTh

/-- Bit `p` takes a spare column, or the macro is fenced. A fault of a position that a spare serves is one of that spare. -/
def spareColumn (code p word : Nat) (s : State) : State :=
  let m0 := macroSt s code
  let m := if m0.columns.contains p then { m0 with columns := m0.columns.filter (· != p), failedColumns := m0.failedColumns + 1 } else m0
  if m.fenced || m.sweeping.any (fun e => e.1 == p) then s
  else if 2 ≤ m.columns.length + m.sweeping.length + m.failedColumns then fenceMacro code p (modMacro code (fun _ => m) s)
  else modMacro code (fun _ => { m with sweeping := m.sweeping ++ [(p, word)] }) s

/-- Word `w` takes a remap entry, or the macro is fenced. -/
def remapWord (code w : Nat) (faults : List Nat) (s : State) : State :=
  let m := macroSt s code
  if m.fenced || m.remaps.any (fun e => e.word == w && e.usable) then s
  else if 8 ≤ m.remaps.length then fenceMacro code (faults.headD 0) s
  else modMacro code (fun m => { m with remaps := m.remaps ++ [{ word := w, faults := faults }] }) s

/-- A macro's pass is classified (R527). -/
def classify (code : Nat) (s : State) : State :=
  let m := macroSt s code
  let cols := (m.counters.filter fun e => columnTh s ≤ e.2).map (·.1)
  let s1 := each cols (fun p x =>
    let ws := (m.faulty.filter fun e => e.2.contains p).map (·.1)
    spareColumn code p (ws.foldl min (ws.headD 0)) x) s
  let cells := (m.faulty.map fun e => (e.1, e.2.filter fun b => !cols.contains b)).filter fun e => !e.2.isEmpty
  let listed := (m.faulty.take 16).map (·.1)
  let s2 := if s1.boot.d0Reset then s1
    else if 16 < m.faulty.length && 16 < cells.length then fenceMacro code 0 s1
    else each (cells.filter fun e => listed.contains e.1) (fun e x => remapWord code e.1 e.2 x) s1
  if s2.boot.d0Reset then s2 else modMacro code (fun m => { m with counters := [], faulty := [] }) s2

/-- Instruction or data memory of a core: the memory whose banks a pass may not have finished (R524). -/
def sageMacro (code : Nat) : Bool := locDie code == 0 && locKind code == 1 && decide (locMacro code < 32)

/-- SCRUB_MACRO_END: a macro's pass ends; a bank without a free cycle is left for the next pass, and counted (R524, R527). -/
def execScrubMacroEnd (q : Fin 5) (loc : BitVec 64) (deferred : Bool) (s : State) : Res :=
  let c := loc.toNat
  whenDue ((scrubber s q.val).running && scrubs q.val c) (fun s =>
    let s1 := if c = lastMacro q.val then bump (kSrPasses q.val) (modScrub q.val (fun d => { d with running := false }) s) else s
    if deferred && sageMacro c then scrubStat q.val 3 1 s1 else classify c s1) s

/-- COLUMN_SPARE_DONE: the oldest sweep of a macro is over; reads of the position switch, and entries whose only fault lay there are
released (R528). -/
def execColumnSpareDone (loc : BitVec 64) (s : State) : Res :=
  let c := loc.toNat
  match (macroSt s c).sweeping with
  | [] => done s
  | (p, w) :: r =>
    let s1 := modMacro c (fun m => { m with
      sweeping := r, columns := m.columns ++ [p], remaps := m.remaps.filter fun e => !(e.usable && e.faults == [p]) }) s
    done (sramFault 2 (locBitOf c w p) p (scrubStat (scrubberOf c) 4 1 s1))

/-- WORD_REMAP_DONE: the oldest copy to a spare row is over; reads of the word switch (R529). -/
def execWordRemapDone (loc : BitVec 64) (s : State) : Res :=
  let c := loc.toNat
  match (macroSt s c).remaps.find? fun e => !e.switched with
  | none => done s
  | some e =>
    let s1 := modMacro c (fun m => { m with remaps := updFirst (fun x => !x.switched) (fun x => { x with switched := true }) m.remaps }) s
    let b := e.faults.headD 0
    done (sramFault 3 (locBitOf c e.word b) b (scrubStat (scrubberOf c) 5 1 s1))

/-! ### The wear ledger (R534 to R536) -/

/-- Temperature bin of a Tj in 1/16 °C, voltage bin of a supply in mV (Table 15-7); a domain in PS4 or deeper is in voltage bin 0. -/
def tempBin (tj : Int) : Nat := (([60, 75, 85, 90, 95, 100, 105] : List Int).findIdx? fun t => decide (tj ≤ 16 * t)).getD 7
def voltBin (deep : Bool) (mv : Nat) : Nat :=
  if deep then 0 else 1 + (([650, 700, 750, 800] : List Nat).findIdx? fun v => decide (mv ≤ v)).getD 4

/-- exp(x ÷ 10^12) × 10^12 for a fixed-point x, by its series on x ÷ 256 and eight squarings. -/
def expTerm (x : Int) : Nat → Int → Int → Int
  | 0, _, acc => acc
  | n + 1, t, acc => expTerm x n (t * x / (10 ^ 12 * (18 - (n : Int)))) (acc + t * x / (10 ^ 12 * (18 - (n : Int))))
def expFixed (x : Int) : Int :=
  let y := expTerm (x / 256) 18 (10 ^ 12) (10 ^ 12)
  (upto 8).foldl (fun a _ => a * a / 10 ^ 12) y

/-- AF of a bin at its upper edges, × 10^12 (R535). -/
def afOf (t v : Nat) : Int :=
  if v = 0 then 0
  else
    let kelvin : Int := ([60, 75, 85, 90, 95, 100, 105, 110].getD t 110 : Int) * 100 + 27315
    let ea : Int := 81232 * 10 ^ 13 / 36315 - 81232 * 10 ^ 13 / kelvin
    let dv : Int := 9 * (([0, 650, 700, 750, 800, 850].getD v 850 : Int) - 750) * 10 ^ 9
    expFixed (ea + dv)

/-- LIFE_PPM of a domain's bins (R535), rounded to the nearest, as the worked example of R538 does (DEDUCED, log 34). -/
def lifePpm (bins : Table Nat) : Nat :=
  let sum : Int := bins.foldl (fun a e => a + (e.2 : Int) * afOf (e.1 / 6) (e.1 % 6)) 0
  ((sum * 10 ^ 6 / 24043525 + 5 * 10 ^ 11) / 10 ^ 12).toNat

/-- The power domain behind a wear domain, for its state: clusters 0–11, groups 12–19, lane quads 20–35, DRAM PHYs 36–43; the quadrants,
the complex, the host link and D1 are never in PS4 or deeper for the ledger but a GB slice. -/
def wearDeep (s : State) (d : Nat) : Bool := if d < 48 then decide (4 ≤ domState s d) else false

/-- A wear domain. -/
def wearDom (s : State) (d : Nat) : WearDom := tget s.sram.doms d {}

/-- The LEDGER event: 1 COPY_BAD, 2 LIFE_800K, 3 LIFE_1M (Table 15-8). -/
def evLedger (cause d life : Nat) (s : State) : State :=
  ownerEvent (pack [(0, 8, 0x25), (8, 8, cause), (16, 16, d), (96, 64, now s), (160, 64, life)]) (some (0x2500 + cause, 2, 0, d)) s

/-- The largest LIFE_PPM over the domains. -/
def deviceLife (s : State) : Nat := s.sram.doms.foldl (fun m e => max m e.2.life) 0

/-- A temperature swing of more than 40 °C counts; the next swing starts from its end. -/
def swing (tj : Int) (w : WearDom) : WearDom :=
  let lo := min tj (w.swingLo.getD tj)
  let hi := max tj (w.swingHi.getD tj)
  if 640 < hi - lo then { w with thermalCycles := wrapAdd 32 w.thermalCycles 1, swingLo := some tj, swingHi := some tj }
  else { w with swingLo := some lo, swingHi := some hi }

/-- One domain's minute. -/
def wearMinute (d : Nat) (tj : Int) (mv : Nat) (s : State) : State :=
  let w := wearDom s d
  let bin := 6 * tempBin tj + voltBin (wearDeep s d) mv
  let bins := tmod w.bins bin 0 (fun n => wrapAdd 32 n 1)
  let life := min (2 ^ 32 - 1) (lifePpm bins)
  let s1 := { s with sram := { s.sram with doms := tset d { swing tj w with bins := bins, life := life } s.sram.doms } }
  let s2 := if w.life < 800000 && 800000 ≤ life then evLedger 2 d life s1 else s1
  if w.life < 1000000 && 1000000 ≤ life then evLedger 3 d life s2 else s2

/-- LEDGER_MINUTE: every domain's highest Tj (1/16 °C) and supply (mV) of the minute (R534). -/
def execLedgerMinute (rows : List (Fin 51 × BitVec 16 × BitVec 16)) (s : State) : Res :=
  done (each rows (fun e x => wearMinute e.1.val e.2.1.toInt e.2.2.toNat x) s)

/-- What the ledger holds now (R536). -/
def ledgerNow (s : State) (seq : Nat) : LedgerCopy :=
  { seq := seq
    doms := s.sram.doms
    macros := (s.sram.macros.filter fun e => e.2.fenced || !e.2.columns.isEmpty || e.2.failedColumns != 0 || !e.2.remaps.isEmpty).map
      fun e => (e.1, { e.2 with counters := [], faulty := [] })
    retired := s.sram.retired
    coresOut := (upto 108).filter fun u => roleFn (roleWord s u) == 2
    serviceStart := rd s kSrServiceStart }

/-- One copy is rewritten and read back, retried once, and otherwise marked bad (R537). -/
def writeCopy (b : Bool) (l : LedgerCopy) (ok1 ok2 : Bool) (s : State) : State :=
  let bit := if b then 1 else 0
  let good := ok1 || ok2
  let put := fun (old : LedgerCopy) => if good then { l with good := true } else { old with good := false }
  let s1 := if b then { s with sram := { s.sram with copyB := put s.sram.copyB } } else { s with sram := { s.sram with copyA := put s.sram.copyA } }
  let s2 := wr kSrLedgerCopies (setFld (rd s1 kSrLedgerCopies) bit 1 (b2n good)) s1
  if good then s2 else evLedger 1 0 0 s2

/-- Both copies are rewritten, A first, and the error history with them (R537, R669). The four flags are the read-backs: A, its retry, B,
its retry. -/
def writeLedger (a1 a2 b1 b2 : Bool) (s : State) : State :=
  let seq := (rd s kSrLedgerSeq + 1) % 2 ^ 32
  let l := ledgerNow s seq
  let s1 := writeCopy true l b1 b2 (writeCopy false l a1 a2 (wr kSrLedgerSeq seq s))
  { s1 with dict := { s1.dict with histFlash := s1.dict.history } }

/-- The DTC's day. -/
def dtcDay (s : State) : Nat := now s / secToTc 86400

/-- LEDGER_DAILY_WRITE: at 00:00 of the DTC's day (R537). -/
def execLedgerDailyWrite (a1 a2 b1 b2 : Bool) (s : State) : Res :=
  whenDue (decide (s.sram.lastDay < dtcDay s))
    (fun s => writeLedger a1 a2 b1 b2 { s with sram := { s.sram with lastDay := dtcDay s } }) s

/-- LEDGER_YEARLY_REWRITE: every 365 days every page (R537). -/
def execLedgerYearlyRewrite (a1 a2 b1 b2 : Bool) (s : State) : Res :=
  whenDue (decide (s.sram.lastYear + 365 ≤ dtcDay s))
    (fun s => writeLedger a1 a2 b1 b2 { s with sram := { s.sram with lastYear := dtcDay s } }) s

/-- LEDGER_WRITE: 1 writes both copies now. -/
def wLedgerWrite (v : Nat) (a1 a2 b1 b2 : Bool) (s : State) : Written :=
  if v ≠ 1 then (if v = 0 then accepted s else refusedW .range s) else accepted (writeLedger a1 a2 b1 b2 s)

/-- LEDGER_WRITE. -/
def execLedgerWrite (v : Byte) (a1 a2 b1 b2 : Bool) (s : State) : Res := answer (wLedgerWrite v.toNat a1 a2 b1 b2 s)

end Sys2Proof.Machine
end

