-- ==== Sys2Proof/Machine/Mesh.lean ====
section
/-!
DEFINITION. The mesh (16_noc_and_clock_domains.md): packets, the holds of sleeping domains, faults; and the exit of a power domain,
which delivers what was held (R583).
-/
namespace Sys2Proof.Machine

/-! ### Places on the mesh (R541 to R544) -/

/-- Power domain behind the unit port of a router (Tables 16-1, 17-1); none for the placement units, the complex and unused ports. -/
def portDomain (r : Nat) : Option Nat :=
  (upto 50).find? fun d =>
    (d < 12 && clusterRouter d == r) || (12 ≤ d && d < 20 && groupRouter (d - 12) == r) ||
      (20 ≤ d && d < 36 && quadRouter (d - 20) == r) || (36 ≤ d && d < 44 && dramRouter (d - 36) == r) ||
      (d == 48 && hostRouter == r) || (d == 49 && r == 35)
/-- Slice whose bank the bank port of a router serves (R542). -/
def bankQuad (r : Nat) : Nat := 2 * (r / 32) + r % 8 / 4

/-- Router, and bank port or unit port, that an address is reached at; none for holes, the control space and the Bay retention memory
(Table 1-11). -/
def destOf (s : State) (a : Nat) : Option (Nat × Bool) :=
  match regionOf s a with
  | .gb q b => some (bankRouter q b, true)
  | .cluster c => some (clusterRouter c, false)
  | .imem n => some (clusterRouter (n / 9), false)
  | .dmem n => some (clusterRouter (n / 9), false)
  | .engine e => some (groupRouter (e / 15), false)
  | .elb g => some (groupRouter g, false)
  | .dram => some (dramRouter (dramMap s (a - dramBase)).1, false)
  | .host _ => some (hostRouter, false)
  | _ => none

/-- Packed code of the block behind the unit port of a router, 0 where no code names it (Tables 0-4, 16-1). -/
def portLoc (r : Nat) : Nat :=
  let block := fun (l : List Nat) (kind : Nat) (f : Nat → Nat) => (l.find? fun n => f n == r).map fun n =>
    pack [(61, 3, 4), (58, 2, grpQuad kind n), (54, 4, kind), (48, 6, n)]
  (block (upto 12) 1 clusterRouter <|> block (upto 8) 2 groupRouter <|> block (upto 16) 3 quadRouter <|> block (upto 8) 4 dramRouter <|>
    block (upto 8) 5 (fun n => routerAt (n / 2) (n % 2) 3) <|> block [0] 8 (fun _ => 27)).getD 0

/-- Where a range is reached; none when any of it lies in a hole or a reserved range. -/
def rangeDest (s : State) (a n : Nat) : Option (Nat × Bool) := if (destOf s (a + n - 1)).isNone then none else destOf s a

/-- A request of the mesh meets a hole: it is logged with the block that made it, and not performed. The management complex, for a control core or
JTAG debug, gets an error response (R41, R543). -/
def meshHole (src tenant a : Nat) (s : State) : State :=
  let s1 := accessError (portLoc src) tenant 0 a s
  if src = 27 then send (.nocError src a) s1 else s1

/-- The domain a packet's destination port belongs to. -/
def destDomain (p : Packet) : Option Nat := if p.bank then some (44 + bankQuad p.dst) else portDomain p.dst

/-- The domain is past its point of no return, or in PS2 or deeper (R556). -/
def domAsleep (s : State) (d : Nat) : Bool :=
  decide (2 ≤ domState s d) || (match (domSt s d).trans with
    | .entering _ past => past
    | _ => false)

/-- Flits of a packet (R546): one, or one for each line that its data touches. -/
def flitsOf (p : Packet) : Nat := if p.kind = 1 || p.kind = 3 then max 1 (ceilDiv (p.addr % 64 + p.data.length) 64) else 1

/-- Flits cross every link of a route (R549, Table 16-6). -/
def countFlits (p : Packet) (s : State) : State :=
  let links := Pl.route p.network p.src p.dst
  let add := fun (t : Table Nat) => links.foldl (fun t k => tmod t k 0 (· + flitsOf p)) t
  send (.flits p.network p.src p.dst (flitsOf p))
    (if p.gt then { s with noc := { s.noc with gtFlits := add s.noc.gtFlits } } else { s with noc := { s.noc with beFlits := add s.noc.beFlits } })

/-! ### Faults (R570) -/

/-- Side of router `r` at which the XY route enters it: a direction, or none at the route's first router. -/
def inputSide (net src dst r : Nat) : Option Nat :=
  ((Pl.route net src dst).find? fun k =>
    let from_ := k % 256 / 4
    let toward := match k % 4 with
      | 0 => from_ + 1
      | 1 => from_ + 8
      | 2 => from_ - 1
      | _ => from_ - 8
    toward == r).map fun k => (k + 2) % 4

/-- The NOC_FAULT event (Table 16-5). -/
def evNocFault (net : Nat) (side : Option Nat) (r count t : Nat) : Nat :=
  pack [(0, 8, 0x26), (8, 1, net), (16, 2, side.getD 0), (18, 1, b2n side.isNone), (32, 64, locRouter r), (96, 32, count), (128, 64, t)]

/-- Router `r` discards a packet whose header it cannot correct: counted, and reported once in 1 ms. -/
def discardPacket (net src dst r : Nat) (s : State) : State :=
  let m := tget s.noc.routers r {}
  let quiet : Bool := match m.last with
    | some t => decide (now s < t + msToTc 1)
    | none => false
  let s1 := bump kNoHeadersDiscarded s
  let put := fun (x : RouterSt) (t : State) => { t with noc := { t.noc with routers := tset r x t.noc.routers } }
  if quiet then put { m with count := m.count + 1 } s1
  else
    ownerEvent (evNocFault net (inputSide net src dst r) r (m.count + 1) (now s)) (some (0x2600, 2, locRouter r, m.count + 1))
      (put { count := 0, last := some (now s) } s1)

/-- Bytes the routers corrected, and those delivered poisoned. -/
def countBytes (corrected poisoned : Nat) (s : State) : State :=
  bumpBy 64 kNoBytesPoisoned poisoned (bumpBy 64 kNoBytesCorrected corrected s)

/-! ### Performing accesses (R556, R565) -/

/-- A response goes out. -/
def respond (p : Packet) (s : State) : State := { s with noc := { s.noc with inFlight := s.noc.inFlight ++ [p] } }

/-- The response to a request: data or acknowledgement back to its source, on the same kind of slots for data (Table 16-2). -/
def answerTo (p : Packet) (data : List Byte) (bad : List Nat) : Packet :=
  if p.kind = 0 then
    { network := 1, kind := 3, src := p.dst, dst := p.src, gt := p.gt, addr := p.addr, len := p.len, data := data, bad := bad, tenant := p.tenant }
  else { network := 1, kind := 4, src := p.dst, dst := p.src, addr := p.addr, tenant := p.tenant }

/-- The answer of an access: over the mesh, or for the host over its link. -/
def giveAnswer (p : Packet) (data : List Byte) (bad : List Nat) (s : State) : State :=
  if p.direct then (if p.kind = 0 then send (.readData p.tenant data (!bad.isEmpty)) s else s)
  else respond (answerTo p data bad) s

/-- The pieces of a range by line: address, offset in the range, bytes. -/
def linePieces (a n : Nat) : List (Nat × Nat × Nat) :=
  (upto (ceilDiv (a % 64 + n) 64)).map fun i =>
    let line := (a / 64 + i) * 64
    let lo := max a line
    (lo, lo - a, min (a + n) (line + 64) - lo)

/-- Poisoned bytes of an on-die range, by offset. -/
def poisonedBytes (s : State) (a n : Nat) : List Nat := (upto n).filter fun i => rangePoisoned s (a + i) 1

/-- A request is performed at its destination: a read takes its data, a write is in its memory, its channel's write queue or the host
link's posted-write queue, and is then acknowledged (R565). -/
def performPacket (p : Packet) (s : State) : State :=
  match regionOf s p.addr with
  | .dram =>
    if p.kind = 0 then
      each (linePieces p.addr p.len) (fun x t =>
        dramAccess { port := p.port, tenant := p.tenant, job := 0, line := x.1 / 64 * 64, write := none, arrival := now t,
                     reader := if p.direct then none else some (p.dst, p.src) } x.1 t) s
    else
      let s1 := each (linePieces p.addr p.data.length) (fun x t =>
        let t1 := dramAccess { port := p.port, tenant := p.tenant, job := 0, line := x.1 / 64 * 64,
                               write := some (x.1 % 64, slice p.data x.2.1 x.2.2), arrival := now t } x.1 t
        if p.bad.any fun b => x.2.1 ≤ b && b < x.2.1 + x.2.2 then setPoison (x.1 / 64 * 64) t1 else t1) s
      giveAnswer p [] [] s1
  | .host bus =>
    if p.kind = 0 then
      startRead p.tenant (.mesh (if p.direct then 64 else p.src) s.noc.nextRead) bus p.len { s with noc := { s.noc with nextRead := s.noc.nextRead + 1 } }
    else giveAnswer p [] [] (hostWriteFor none p.tenant bus p.data s)
  | _ =>
    if p.kind = 0 then giveAnswer p (load s p.addr p.len) (poisonedBytes s p.addr p.len) (demandFault p.addr p.len s)
    else giveAnswer p [] [] (each p.bad (fun b t => poisonRange (p.addr + b) 1 t) (memStore p.addr p.data s))

/-- A packet is delivered to the port it was sent to. -/
def deliver (p : Packet) (s : State) : State :=
  match p.kind with
  | 3 => send (.nocData p.dst p.data (!p.bad.isEmpty)) s
  | 4 => send (.nocAck p.dst) s
  | _ => performPacket p s

/-- The hold buffer of a packet's destination port. -/
def holdKey (p : Packet) : Nat := 4 * p.dst + 2 * b2n p.bank + p.network
/-- Flits in a hold buffer. -/
def heldFlits (h : HoldBuf) : Nat := h.packets.foldl (fun n p => n + flitsOf p) 0

/-- A packet waits at its port: in the hold buffer while it has room for 16 flits, else behind it (R556, R557). A reserved packet becomes
best effort. -/
def holdPacket (p : Packet) (s : State) : State :=
  let h := tget s.noc.holds (holdKey p) {}
  let fresh : Bool := h.packets.isEmpty
  let q := { p with gt := false }
  let room : Bool := heldFlits h + flitsOf p ≤ 16 && h.behind.isEmpty
  let h1 := if room then { h with packets := h.packets ++ [q], since := if fresh then now s else h.since } else { h with behind := h.behind ++ [q] }
  let s1 := { s with noc := { s.noc with holds := tset (holdKey p) h1 s.noc.holds } }
  let s2 := if room then bump (kNoWakeHolds (bankQuad p.dst)) s1 else s1
  if p.gt then bumpBy 64 kNoWakeGuaranteed (flitsOf p) s2 else s2

/-- A packet arrives at its destination port. A domain that sleeps is woken and the packet held; one that is entering and not past its
point of no return gives the entry up and takes the packet. -/
def arrive (p : Packet) (s : State) : State :=
  match destDomain p with
  | none => deliver p s
  | some d =>
    if domAsleep s d then holdPacket p (domainWake d true s)
    else match (domSt s d).trans with
      | .entering _ _ => deliver p (domainWake d false s)
      | _ => deliver p s

/-- What was held for a domain that is ready is delivered in order of arrival (R556). -/
def releaseHolds (d : Nat) (s : State) : State :=
  let mine := s.noc.holds.filter fun e =>
    (if e.1 / 2 % 2 = 1 then some (44 + bankQuad (e.1 / 4)) else portDomain (e.1 / 4)) == some d
  each mine (fun e t =>
    let t1 := { t with noc := { t.noc with holds := tdel e.1 t.noc.holds } }
    let t2 := if e.2.packets.isEmpty then t1 else peak kNoHoldMax (tcToNs (now s - e.2.since)) t1
    each (e.2.packets ++ e.2.behind) (fun p x => deliver p x) t2) s

/-- A request packet crosses the mesh, unless a router on its way discards it; a reserved address is an access error. -/
def sendRequest (p : Packet) (badAt : Option Nat) (s : State) : State :=
  match badAt with
  | some r => discardPacket p.network p.src p.dst r s
  | none => arrive p (countFlits p s)

/-- NOC_READ_REQUEST: a read of up to 256 bytes from the unit port of a router; `badAt` is a router that cannot correct its header. -/
def execNocReadRequest (src : RouterId) (addr : BitVec 52) (len : Fin 257) (tenant : TenantId) (port : Fin 16) (gt : Bool) (badAt : Option RouterId)
    (s : State) : Res :=
  match rangeDest s addr.toNat len.val with
  | none => done (meshHole src.val tenant.val addr.toNat s)
  | some (r, b) =>
    done (sendRequest { network := 0, kind := 0, src := src.val, dst := r, bank := b, gt := gt, addr := addr.toNat, len := len.val,
                        tenant := tenant.val, port := port.val } (badAt.map (·.val)) s)

/-- NOC_WRITE: a write of up to 256 bytes; `poisoned` are the bytes that arrive poisoned, `corrected` counts those the routers put
right. -/
def execNocWrite (src : RouterId) (addr : BitVec 52) (data : List Byte) (tenant : TenantId) (port : Fin 16) (gt : Bool) (badAt : Option RouterId)
    (poisoned : List (Fin 256)) (corrected : Nat) (s : State) : Res :=
  let p : Packet := { network := 0, kind := 1, src := src.val, dst := 0, gt := gt, addr := addr.toNat, data := data.take 256,
                      bad := (poisoned.map (·.val)).filter (· < data.length), tenant := tenant.val, port := port.val }
  match rangeDest s addr.toNat p.data.length with
  | none => done (meshHole src.val tenant.val addr.toNat s)
  | some (r, b) => done (sendRequest { p with dst := r, bank := b } (badAt.map (·.val)) (countBytes corrected p.bad.length s))

/-- The oldest response of a kind between two routers leaves the mesh (R564). -/
def takeResponse (kind src dst : Nat) (s : State) : Option (Packet × State) :=
  let mine := fun (p : Packet) => p.kind == kind && p.src == src && p.dst == dst
  match s.noc.inFlight.find? mine with
  | none => none
  | some p => some (p, { s with noc := { s.noc with inFlight := dropFirst mine s.noc.inFlight } })

/-- A response crosses, unless it is discarded. -/
def sendResponse (kind src dst : Nat) (badAt : Option Nat) (more : List Nat) (s : State) : State :=
  match takeResponse kind src dst s with
  | none => s
  | some (p, s1) => match badAt with
    | some r => discardPacket 1 src dst r s1
    | none =>
      let q := { p with bad := p.bad ++ more.filter fun b => b < p.data.length && !p.bad.contains b }
      arrive q (countFlits q s1)

/-- NOC_READ_DATA: the oldest read data between two routers arrives. -/
def execNocReadData (src dst : RouterId) (badAt : Option RouterId) (poisoned : List (Fin 256)) (corrected : Nat) (s : State) : Res :=
  let bytes := poisoned.map (·.val)
  whenDue (takeResponse 3 src.val dst.val s).isSome
    (fun s => sendResponse 3 src.val dst.val (badAt.map (·.val)) bytes (countBytes corrected bytes.length s)) s

/-- NOC_WRITE_ACK: the oldest acknowledgement between two routers arrives. -/
def execNocWriteAck (src dst : RouterId) (badAt : Option RouterId) (s : State) : Res :=
  done (sendResponse 4 src.val dst.val (badAt.map (·.val)) [] s)

/-- Reads that came over the mesh and have their data, or have failed, are answered. -/
def meshReadsDone (s : State) : State :=
  each (s.host.reads.filter fun o => o.isOver) (fun o t => match o.use with
    | .mesh src _ =>
      let n := o.data.length
      let p : Packet := { network := 1, kind := 3, src := hostRouter, dst := src, data := o.data, len := n, tenant := o.fn,
                          bad := if o.failed.isSome then upto (n + o.left) else [] }
      if src = 64 then send (.readData o.fn o.data o.failed.isSome) (dropRead o.use t)
      else respond (if o.failed.isSome then { p with data := padTo (n + o.left) o.data } else p) (dropRead o.use t)
    | _ => t) s

/-! ### The exit of a power domain (R575, R576, R583, R584) -/

/-- Memory that a domain loses in PS5 (Table 17-1). -/
def loseMemory (d : Nat) (s : State) : State :=
  if d < 12 then loseRange (coreAddr (9 * d)) 0x01000000 (loseRange (clusterAddr d) 0x00800000 s)
  else if d < 20 then loseRange (elbAddr (d - 12)) 0x00200000 s
  else s

/-- What a cluster's or group's logic finds after an exit from PS4 or PS5: registers at reset; after PS5 the images and static data in
every core in service (R205, R576), and every context record of an FFE and EQE free. -/
def logicReset (d from_ : Nat) (s : State) : State :=
  if d < 12 then
    let old := cmcOf s d
    let fresh : Cmc := if from_ = 5 then {} else { input := old.input, result := old.result, pivots := old.pivots, nM1 := old.nM1 }
    let s1 := { s with sage := { s.sage with
      cmcs := tset d fresh s.sage.cmcs
      cores := s.sage.cores.filter fun e => e.1 / 9 != d
      vecs := s.sage.vecs.filter fun e => e.1 / 9 != d } }
    if from_ = 5 then each ((span (9 * d) 9).filter (inService s1)) loadCore (loseMemory d s1) else s1
  else if d < 20 then
    let s1 := if from_ = 5 then loseMemory d s else s
    each (span (15 * (d - 12)) 15) (fun e t => if from_ = 5 then modUnit (engUnit e) (fun m => { m with records := [] }) t else t) s1
  else s

/-- Records of a domain made stale, so that it re-centres (flow 6). -/
def recordsStale (d : Nat) (s : State) : State :=
  if d < 20 then marginStale d s
  else if d < 36 then each (span (4 * (d - 20)) 4) (fun n t => if bitAt (rd t (kLaLinkFlags n)) 4 then t else laneGuard n 0 t) s
  else if d < 44 then each (ranks s) (fun r t => checkRecord (d - 36) r true t) s
  else s

/-- A save list that fails its CRC (R584): the domain is at reset values and goes through flow 6, which rewrites its registers from the
dictionary; where that fails it escalates. -/
def saveListBad (d : Nat) (rewritten : Bool) (s : State) : State :=
  let s1 := startFlow 6 d 0 d 0 (powerEvent 4 d (domState s d) 0 s)
  if rewritten then endFlow 6 d 1 0 d (recordsStale d s1) else escalate 0 0 d (endFlow 6 d 4 0 d s1)

/-- The channel of a domain leaves self-refresh or power-down: R501 is applied before the first request (R515). -/
def channelWakes (d from_ : Nat) (s : State) : State :=
  if 36 ≤ d && d < 44 then
    let c := d - 36
    let s1 := if chanState s c = 5 || chanState s c = 6 then wr (kDcState c) 2 s else s
    if 4 ≤ from_ && chanUp s1 c then each (ranks s1) (fun r t => checkRecord c r false t) s1 else s1
  else s

/-- The stages of an exit are over. -/
def exitDone (d : Nat) (saveOk rewritten : Bool) (s : State) : State :=
  let from_ := domState s d
  let k := min (domTarget s d) (domDeepest d)
  let s1 := powerStat d 1 1 (setDomState d k (modDom d (fun m => { m with trans := .none, wakeLatched := false, granted := false }) s))
  let s2 := if 4 ≤ from_ then logicReset d from_ s1 else s1
  let bad : Bool := 4 ≤ from_ && !saveOk
  let s3 := if bad then saveListBad d rewritten s2 else s2
  if s3.boot.d0Reset then s3 else releaseHolds d (channelWakes d from_ s3)

/-- DOMAIN_EXIT_DONE: an exit ends once it holds its governor's grant, which an exit to PS0 needs (Table 17-5). `saveOk` tells whether the
save list passed its CRC, `rewritten` whether flow 6 succeeded. -/
def execDomainExitDone (d : DomId) (saveOk rewritten : Bool) (s : State) : Res :=
  whenDue ((domSt s d.val).trans == .exiting) (fun s =>
    let asked : Bool := s.pow.waits.any fun w => w.dom == d.val && w.act == .enter
    let s1 := if domTarget s d.val = 0 && !(domSt s d.val).granted && !asked then govern d.val (stepAmp s d.val) .enter s else s
    if domTarget s d.val != 0 || (domSt s1 d.val).granted then exitDone d.val saveOk rewritten s1 else s1) s

end Sys2Proof.Machine
end

