-- ==== Sys2Proof/Machine/Sleep.lean ====
section
/-!
DEFINITION. The device-wide states PS6 to PS8 (17_power_and_thermal.md): entry, wake sources, exit, the time across a sleep, the
thermal trip.
-/
namespace Sys2Proof.Machine

/-- The device-wide state: 0, 6, 7 or 8. -/
def deviceState (s : State) : Nat := rd s kPwDeviceState

/-! ### Time snapshots (R599, Table 17-12) -/

/-- The first 30 bytes of a snapshot, with its CRC16. -/
def sealSnap (x : Nat) : Nat := setFld x 240 16 (Config.crc16 (toBytes 30 x)).toNat

/-- A snapshot at the present STC edge. -/
def snapNow (kind : Nat) (s : State) : Nat :=
  sealSnap (pack [(0, 64, s.tim.dtc), (64, 48, s.tim.stc), (112, 1, 1), (113, 1, kind), (128, 32, rd s kTiStcK), (160, 32, rd s kTiStcKUnc),
    (192, 32, uncertainty s)])

/-- A slot is written completely and its CRC16 is right. -/
def snapValid (x : Nat) : Bool := bitAt x 112 && fld x 240 16 == (Config.crc16 (toBytes 30 x)).toNat

/-- STC_SNAP of a slot. -/
def snapStc (x : Nat) : Nat := fld x 64 48

/-- Slot 1 holds the latest snapshot: the valid one with the higher STC_SNAP. -/
def latestIsOne (s : State) : Bool :=
  snapValid s.pow.slot1 && (!snapValid s.pow.slot0 || decide (snapStc s.pow.slot0 < snapStc s.pow.slot1))

/-- The latest valid snapshot. -/
def latestSnap (s : State) : Option Nat :=
  if latestIsOne s then some s.pow.slot1 else if snapValid s.pow.slot0 then some s.pow.slot0 else none

/-- A snapshot goes into the slot not written last. -/
def writeSnap (x : Nat) (s : State) : State :=
  if latestIsOne s || !snapValid s.pow.slot0 then { s with pow := { s.pow with slot0 := x } } else { s with pow := { s.pow with slot1 := x } }

/-- The latest periodic snapshot is marked TRIPPED where it stands (R607). -/
def markTripped (s : State) : State :=
  let mark := fun (x : Nat) => sealSnap (setFld x 114 1 1)
  let periodic := fun (x : Nat) => snapValid x && !bitAt x 113
  if latestIsOne s && periodic s.pow.slot1 then { s with pow := { s.pow with slot1 := mark s.pow.slot1 } }
  else if periodic s.pow.slot0 then { s with pow := { s.pow with slot0 := mark s.pow.slot0 } }
  else if periodic s.pow.slot1 then { s with pow := { s.pow with slot1 := mark s.pow.slot1 } }
  else s

/-- TIME_SNAPSHOT: every second while D0 runs, with KIND 0. `k` and `kUnc` are what the device measures of the crystal over the last
131,072 ticks (R448). -/
def execTimeSnapshot (k kUnc : Word) (s : State) : Res :=
  whenDue (d0Runs s && s.boot.fwReady)
    (fun s => let s1 := wr kTiStcKUnc kUnc.toNat (wr kTiStcK k.toNat s); writeSnap (snapNow 0 s1) s1) s

/-- Every enabled reference starts again as newly enabled (Table 13-3). -/
def restartRefs (s : State) : State :=
  each ((upto 8).filter fun r => rdB s (kReEnable r))
    (fun r t => modRef r (fun _ => {}) (wr (kReState r) 1 (wr (kReFlags r) 0 (startTimer r 0 t)))) (wr kTiSelected 15 s)

/-- The ticks since a snapshot, and the Tc they stand for. -/
def snapTicks (s : State) (x : Nat) : Nat := stcSince s (snapStc x)
def snapElapsed (s : State) (x : Nat) : Nat := snapTicks s x * fld x 128 32 / 65536

/-- The time is restored from the latest snapshot that is not ahead of the STC, and the timing subsystem starts in HOLDOVER; without
one, the DTC starts at 0 and the uncertainty reads 0xFFFF_FFFF (R600). -/
def restoreTime (s : State) : State :=
  let usable := (latestSnap s).filter fun x => decide (snapStc x ≤ s.tim.stc)
  match usable with
  | some x =>
    let el := snapElapsed s x
    let est : Nat := (fld x 0 64 + el) % 2 ^ 64
    let unc := fld x 192 32 + tcToNs el * (fld x 160 32 + rd s kTiStcDrift) / 10 ^ 12
    let s1 := applyCorrection ((est : Int) - (s.tim.dtc : Int)) s
    let s2 := { s1 with tim := { s1.tim with u0 := some (min unc 0xFFFFFFFF), lockTime := s1.tim.dtc, afterSleep := true, since := s1.tim.dtc } }
    refreshQuality (restartRefs (wr kTiState 3 (wr kTiCv (rd s2 kTiHoCv) s2)))
  | none =>
    refreshQuality (restartRefs { s with tim := { s.tim with dtc := 0, u0 := none, lockTime := 0, since := 0 } })

/-! ### The entry (R593 to R595) -/

/-- Levels voted on the device by its tenants and by debug (R577). -/
def deviceTarget (s : State) : Nat :=
  let l := (s.pow.votes.filter fun v => v.dom == 50).map (·.level)
  if debugVotes s then 0 else if l.isEmpty then rd s kPwDeviceFloor else l.foldl min 8

/-- A domain holds a vote of a client other than firmware. Timing's lasting vote on its own domain is no such vote (log 35). -/
def othersVote (s : State) : Bool :=
  (upto 49).any fun d => s.pow.votes.any (fun v => v.dom == d && v.client != .firmware) || timingVotes s d || spaceVotes s d

/-- Firmware holds its PS0 vote on the device (R594, R598). -/
def deviceVote (s : State) : Bool :=
  s.pow.wakeHoldUntil.isSome || anyCiActive s || s.work.graphs.any (fun g => g.st != .done) || othersVote s ||
    (upto 8).any (fun c => chanState s c == 1 || chanState s c == 3 || chanState s c == 4) || s.dict.storing.isSome

/-- No domain is on its way between states. -/
def domainsStill (s : State) : Bool := (upto 50).all fun d => (domSt s d).trans == .none

/-- Step 1 of Table 17-9: every domain but 48 and 49 enters its deepest state, and the channels enter self-refresh. -/
def domainsDown (s : State) : State :=
  each (upto 48) (fun d t =>
    let c := d - 36
    let t1 := if 36 ≤ d && d < 44 && (chanState t c == 2 || chanState t c == 5) then wr (kDcState c) 6 t else t
    let t2 := { t1 with pow := { t1.pow with saveLists := tset d true t1.pow.saveLists } }
    if domState t d < domDeepest d then powerStat d 0 1 (setDomState d (domDeepest d) t2) else t2) s

/-- Step 2: the resume image (R593) and WAKE_SOURCES go to D1. -/
def saveResume (s : State) : State :=
  let (n, s1) := draw s
  let s2 := wr kPwResumeImage (min 1048576 (Config.freeValue n)) s1
  { s2 with pow := { s2.pow with resume := some s2.obj, resumeText := s2.text } }

/-- Step 3: the snapshot of KIND 1, and the alarm (R596). -/
def armAlarm (s : State) : State :=
  let at_ := rd s kPwWakeAt
  let k := rd s kTiStcK
  let a := if at_ ≤ now s then none else some ((s.tim.stc + ceilDiv ((at_ - now s) * 65536) k) % 2 ^ 48)
  let s1 := writeSnap (snapNow 1 s) s
  { s1 with pow := { s1.pow with stcAlarm := a, wakeMask := rd s kPwWakeSources } }

/-- What D0 holds for the wake: records of fenced macros and units; in PS6 also device DRAM and what lies in it (Table 17-8, R598). -/
def sleepKeeps (k : Nat) (was s : State) : State :=
  let units := (was.work.units.filter fun e => e.2.fenced).map fun e => (e.1, { fenced := true : UnitSt })
  let s1 := { s with
    sram := { was.sram with poison := [], scrubbers := [] }
    links := { lanes := was.links.lanes }
    boot := { s.boot with running := was.boot.running, loaded := was.boot.loaded }
    work := { s.work with units := units } }
  if k = 6 then
    { s1 with
      mem := was.mem.filter fun c => dramBase ≤ c.1
      dram := was.dram
      work := { s1.work with progs := was.work.progs, sbRanges := was.work.sbRanges,
                             owners := was.work.owners.filter fun o => decide (dramBase ≤ o.1) }
      radio := { s1.radio with idtCur := was.radio.idtCur, idtNew := was.radio.idtNew, idtSecond := was.radio.idtSecond,
                               newSeed := was.radio.newSeed, sids := was.radio.sids } }
  else s1

/-- Step 6: the rails go off; VDDQ stays in PS6. In PS8 PWR_EN0 follows, and D1.RET is lost. -/
def sleepRails (k : Nat) (s : State) : State :=
  let s1 := railsDown s
  if k = 6 then { s1 with boot := { s1.boot with pwrEn := s1.boot.pwrEn.set 5 true, pgood := s1.boot.pgood.set 5 true } }
  else if k = 8 then
    retLost { s1 with boot := { s1.boot with pwrEn := s1.boot.pwrEn.set 0 false, pgood := s1.boot.pgood.set 0 false, vaon := false } }
  else s1

/-- The device enters PS`k`. -/
def sleepIn (k : Nat) (s : State) : State :=
  let s1 := domainsDown s
  let s2 := if k < 8 then saveResume s1 else s1
  let s3 := armAlarm s2
  wr kPwDeviceState k (sleepRails k (sleepKeeps k s3 (d0Lost s3)))

/-- Domains whose target lies above their state start their exits. -/
def domainsWake (s : State) : State := each ((upto 50).filter fun d => domTarget s d < domState s d) startExit s

/-- DEVICE_SLEEP_ENTRY: with no PS0 vote on the device, a target of PS6 to PS8, and the host link neither in L0 nor L1 (R594, R595, R619). With `woken` a wake event came before
step 5, and the entry is given up. -/
def execDeviceSleepEntry (woken : Bool) (s : State) : Res :=
  let k := deviceTarget s
  whenDue (d0Runs s && s.boot.fwReady && decide (6 ≤ k && k ≤ 8) && !deviceVote s && domainsStill s &&
      rd s kHoLinkState != 1 && rd s kHoLinkState != 2) (fun s =>
    if woken then domainsWake (powerEvent 2 50 0 k (domainsDown s)) else sleepIn k s) s

/-! ### Wake events (R596, R608) -/

/-- A source acts in a device-wide state (Table 17-10). A rise of the device's target by JTAG also wakes it (R582). -/
def wakesFrom (src : WakeSource) (k : Nat) : Bool :=
  match src with
  | .wakeN | .stcAlarm => 6 ≤ k && k ≤ 8
  | .canRx | .perstN | .jtag => k == 6 || k == 7
  | .vaon => k == 8

/-- A source is enabled in WAKE_SOURCES. -/
def wakeEnabled (s : State) (src : WakeSource) : Bool :=
  match src with
  | .wakeN => bitAt s.pow.wakeMask 0
  | .stcAlarm => bitAt s.pow.wakeMask 1
  | .canRx => bitAt s.pow.wakeMask 2
  | .perstN => bitAt s.pow.wakeMask 3
  | .vaon | .jtag => true

/-- A device exit starts: THERMTRIP_N is released and the first rail is enabled; from PS8, PWR_EN0 (Tables 17-11, 20-2). -/
def startDeviceExit (src : Option WakeSource) (s : State) : State :=
  let k := deviceState s
  let s1 := { s with pow := { s.pow with exit_ := some (k, src), tripPin := false, stcAlarm := none } }
  railOn (if k = 8 then 0 else 1) s1

/-- VDD_CORE is on, and with it the keeper link (R25). -/
def keeperUp (s : State) : Bool := s.boot.pwrEn.getD 1 false && s.boot.pgood.getD 1 false

/-- D1 latches a wake event (R25, R608). -/
def latchWake (src : WakeSource) (s : State) : State := { s with pow := { s.pow with latched := s.pow.latched ++ [src] } }

/-- A wake event: it is latched while the keeper link is down (R25) and in the 60 s after a trip (R608); one that is enabled starts an exit,
but not in those 60 s. -/
def wakeEvent (src : WakeSource) (s : State) : State :=
  let s1 := if keeperUp s && s.pow.tripHold.isNone then s else latchWake src s
  if wakesFrom src (deviceState s) && wakeEnabled s src && s.pow.exit_.isNone && s.pow.tripHold.isNone then startDeviceExit (some src) s1 else s1

/-- WAKE_N_FALL; it also ends the wait after three rail failures (R673). -/
def execWakeNFall (s : State) : Res := done (railsAgain (wakeEvent .wakeN s))

/-- The armed STC value is reached. -/
def alarmDue (s : State) : Bool :=
  match s.pow.stcAlarm with
  | some a => stcSince s a < 2 ^ 47
  | none => false

/-- STC_ALARM. -/
def execStcAlarm (s : State) : Res :=
  whenDue (alarmDue s) (fun s => wakeEvent .stcAlarm { s with pow := { s.pow with stcAlarm := none } }) s

/-- CAN_RX_WAKE: a dominant level for 5 µs. -/
def execCanRxWake (s : State) : Res := done (wakeEvent .canRx s)
/-- PERST_N_WAKE. -/
def execPerstNWake (s : State) : Res := done (wakeEvent .perstN s)
/-- VAON_RISE, whatever WAKE_SOURCES holds. -/
def execVaonRise (s : State) : Res := done (wakeEvent .vaon s)

/-- JTAG_ATTACH: TRST_N high places the debug vote (R710). -/
def execJtagAttach (s : State) : Res := done (wakeEvent .jtag { s with boot := { s.boot with jtag := true } })
/-- JTAG_DETACH: TRST_N falling withdraws it. -/
def execJtagDetach (s : State) : Res := done { s with boot := { s.boot with jtag := false } }

/-! ### The exit (R597, R598) -/

/-- Code of a wake source in a DEVICE_WAKE event (Table 17-14). -/
def WakeSource.code : WakeSource → Nat
  | .wakeN => 0
  | .stcAlarm => 1
  | .canRx => 2
  | .perstN => 3
  | .vaon => 4
  | .jtag => 5

/-- Every tenant but tenant 0 is DISABLED, and the units dedicated to tenants are shared again (R686, Table 5-1). -/
def tenantsOff (s : State) : State :=
  let s1 := each ((upto 512).drop 1) (fun t x => { x with obj := tdel (kTeState t) x.obj }) s
  each (allUnits.filter fun u => !roleShared (roleWord s1 u)) (fun u x => setRole u (mkRole (roleFn (roleWord x u)) true 0 0) x) s1

/-- Objects that describe what PS7 has lost with device DRAM. -/
def dramForgotten (s : State) : State :=
  each ([kDrState, kIdEntries, kIdRebuildState, kIdCursor, kIdNewBuckets, kIdIdsInUse, kIdIdsQuarantined] ++ (upto 8).map kDcState)
    (fun k x => { x with obj := tdel k x.obj }) s

/-- The objects of the resume image are restored. The host link is down, and the roles stand as after a reset of tenants. -/
def resumeObjects (k : Nat) (l : Table Nat) (s : State) : State :=
  let s1 := { s with obj := l, text := s.pow.resumeText }
  let s2 := each [kHoLinkState, kHoCxlActive, kHoSpeed, kHoWidth] (fun o x => { x with obj := tdel o x.obj }) s1
  tenantsOff (if k = 6 then s2 else dramForgotten s2)

/-- The DEVICE_WAKE event: the sleep in Tc, TRIPPED in bit 63. -/
def wakeNote (k : Nat) (src : Option WakeSource) (trip : Bool) (sleep : Nat) (s : State) : State :=
  let (code, s1) := match src with
    | some w => (w.code, s)
    | none => let (n, t) := draw s; (Config.freeValue n % 16, t)
  ownerEvent (evPower 0x27 3 50 k code (fld sleep 0 63 + b2n trip * 2 ^ 63) (now s1)) none s1

/-- The exit ends in PS0. -/
def deviceWake (k : Nat) (src : Option WakeSource) (s : State) : State :=
  let trip := s.pow.tripPending
  let s1 := { s with
    boot := { s.boot with d0Reset := false, start := .exit, cause := if trip then 0x08 else if k = 6 then 0x09 else 0x0A
                          fwReady := s.pow.resume.isSome, romRan := s.pow.resume.isSome, stage := if s.pow.resume.isSome then 13 else 1 }
    pow := { s.pow with exit_ := none, tripPending := false }
    sram := { s.sram with doms := (upto 50).foldl (fun t d => tmod t d {} fun w => { w with powerCycles := wrapAdd 32 w.powerCycles 1 }) s.sram.doms } }
  let s2 := match s.pow.resume with
    | some l => resumeObjects k l s1
    | none => s1
  let sleep := match latestSnap s2 with
    | some x => snapElapsed s2 x
    | none => 0
  let s3 := restoreTime (wr kPwDeviceState 0 s2)
  let s4 := wakeNote k src trip sleep s3
  let s5 := if trip then thermalEvent 5 0 0 { s4 with pow := { s4.pow with trips := wrapAdd 32 s4.pow.trips 1 } } else s4
  domainsWake { s5 with pow := { s5.pow with wakeHoldUntil := some (now s5 + secToTc (rd s5 kPwWakeHold)) } }

/-- DEVICE_WAKE: every rail is up. After a trip without a resume image in D1.RET, the boot ROM starts next. -/
def execDeviceWake (s : State) : Res :=
  match s.pow.exit_ with
  | some (k, src) => whenDue (k < 8 && railsUp s) (deviceWake k src) s
  | none => done s

/-- WAKE_HOLD_EXPIRY: firmware withdraws its vote. -/
def execWakeHoldExpiry (s : State) : Res :=
  whenDue (match s.pow.wakeHoldUntil with
    | some t => decide (t ≤ now s)
    | none => false) (fun s => { s with pow := { s.pow with wakeHoldUntil := none } }) s

/-! ### The thermal trip (R607, R608) -/

/-- STC ticks of a minute and of an hour. -/
def stcMinute : Nat := 60 * 32768
def stcHour : Nat := 3600 * 32768

/-- A trip: THERMTRIP_N, the rails with VDDQ removed without a save, the device in PS7. -/
def thermalTrip (s : State) : State :=
  let s1 := markTripped s
  let s2 := railsDown (d0Lost { s1 with pow := { s1.pow with wakeMask := rd s1 kPwWakeSources, tripRestart := rdB s1 kThTripRestart } })
  let times := s2.tim.stc :: s2.pow.tripTimes.filter fun t => stcSince s2 t ≤ stcHour
  wr kPwDeviceState 7 { s2 with pow := { s2.pow with
    tripPin := true, tripHold := some s2.tim.stc, tripMark := s2.pow.latched.length, tripTimes := times, tripPending := true, exit_ := none,
    stcAlarm := none } }

/-- SENSOR_SAMPLE: a raw sample in 1/16 °C. Above 110 °C it trips at once (R604, R605, R607). -/
def execSensorSample (n : SensorId) (raw : BitVec 16) (s : State) : Res :=
  whenDue (d0Runs s)
    (fun s => if 16 * (rd s (kThTjTh 2) : Int) < raw.toInt then thermalTrip s else sensorFilter n.val raw.toInt s) s

/-- The first wake event that arrived in the 60 s after a trip and wakes the device. -/
def heldWake (s : State) : Option WakeSource :=
  (s.pow.latched.drop s.pow.tripMark).find? fun w => wakesFrom w (deviceState s) && wakeEnabled s w

/-- TRIP_HOLD_EXPIRY: 60 s after a trip (R608). After the third trip within an hour the restart and the latched events are set aside. -/
def execTripHoldExpiry (s : State) : Res :=
  whenDue (match s.pow.tripHold with
    | some t => decide (stcMinute ≤ stcSince s t)
    | none => false) (fun s =>
    let s1 := { s with pow := { s.pow with tripHold := none, tripMark := 0 } }
    if 3 ≤ s.pow.tripTimes.length then { s1 with pow := { s1.pow with latched := [] } }
    else match heldWake s with
      | some w => startDeviceExit (some w) s1
      | none => if s.pow.tripRestart then startDeviceExit none s1 else s1) s

end Sys2Proof.Machine
end

