-- ==== Sys2Proof/Machine/HostLink.lean ====
section
/-!
DEFINITION. The host link (18_host_interface.md): link events, function resets, queue-pair and event-queue control, register
accesses, interrupts, completions of host reads, translations, BAR4 and CXL.
-/
namespace Sys2Proof.Machine

/-! ### Events (Table 18-11) -/

/-- A HOST_LINK event: 1 LINK_UP, 2 LINK_DOWN, 3 SPEED_CHANGE, 4 FLR, 5 BME_CLEARED, 6 COMPLETION_TIMEOUT, 7 CONVENTIONAL_RESET. -/
def hostLinkEvent (cause f tag : Nat) (s : State) : State :=
  ownerEvent (pack [(0, 8, 0x2B), (8, 8, cause), (16, 9, f), (32, 3, rd s kHoSpeed), (40, 5, rd s kHoWidth), (48, 10, tag), (64, 64, now s)])
    (if cause = 6 then some (0x2B06, 1, 0, f + tag * 65536) else none) s

/-! ### Messages (R630) -/

/-- Every condition that held messages of a function back has ended: each pending, unmasked vector sends one message. -/
def msixRelease (f : Nat) (s : State) : State :=
  let r := fnOf s f
  if maySend s f && r.msixEn && !r.fnMask then
    each (upto 32) (fun v t =>
      let m := vectorOf t f v
      if m.pending && !m.masked then
        passItem f (.msix v) (modFn f (fun r => { r with vectors := tset v { m with pending := false } r.vectors }) t)
      else t) s
  else s

/-- A configuration write of a function: until firmware is ready it is answered Configuration Request Retry Status, and changes nothing (R618). -/
def configured (fn : Nat) (f : State → Res) (s : State) : Res :=
  if s.boot.fwReady then f s else done (if d0Runs s then send (.configRetry fn) s else s)

/-- MSIX_UNMASK. -/
def execMsixUnmask (fn : TenantId) (c : MsixCond) (s : State) : Res :=
  match c with
  | .vector v => done (msixRelease fn.val (modFn fn.val (fun r =>
      { r with vectors := tset v.val { tget r.vectors v.val {} with masked := false } r.vectors }) s))
  | .enable => configured fn.val (fun s => done (msixRelease fn.val (modFn fn.val (fun r => { r with msixEn := true }) s))) s
  | .functionMask => configured fn.val (fun s => done (msixRelease fn.val (modFn fn.val (fun r => { r with fnMask := false }) s))) s

/-- MOD_TIME of a QP_MOD or EQ_MOD word has elapsed since the first entry counted. -/
def modElapsed (s : State) (mod : Nat) (since : Option Nat) : Bool :=
  match since with
  | some t => fld mod 8 16 != 0 && decide (t + usToTc (fld mod 8 16) ≤ now s)
  | none => false

/-- INTERRUPT_MOD_TIMER: of a queue pair, or of the event queue (R630). -/
def execInterruptModTimer (fn : TenantId) (qp : Option QpId) (s : State) : Res :=
  match qp with
  | some n =>
    let q := qpOf s fn.val n.val
    whenDue (modElapsed s q.mod q.modSince)
      (fun s => msix fn.val (fld q.cfg 16 5) (setQp fn.val n.val { q with modCount := 0, modSince := none } s)) s
  | none =>
    let q := (fnOf s fn.val).eq
    whenDue (modElapsed s q.mod q.modSince)
      (fun s => msix fn.val (fld q.cfg 8 5) (modFn fn.val (fun r => { r with eq := { q with modCount := 0, modSince := none } }) s)) s

/-! ### Quiescing and resets of functions (R632 to R634) -/

/-- A graph whose submission entry has been read and waits in QUEUED ends; its completion entry is held (R632). -/
def abortQueued (f n : Nat) (s : State) : State :=
  match fetchedEntry s f n with
  | some (_, some e) => if eKind e = 2 ∨ eKind e = 3 then s else completeEntry f n 0x09 0 1 e s
  | _ => s

/-- Reads of a function that end with it: all but submission entries that have arrived. -/
def dropFnReads (f : Nat) (s : State) : State :=
  let keep := fun (o : ReadOp) => o.fn != f || match o.use with
    | .submission _ _ _ => o.isOver
    | _ => false
  { s with host := { s.host with reads := s.host.reads.filter keep } }

/-- The fetches of a function's queues whose reads ended are given up. -/
def dropFetches (f : Nat) (s : State) : State :=
  each (upto 16) (fun n t => match (qpOf t f n).fetching with
    | some (i, _) => if (readOp t (.submission f n i)).isNone then setQp f n { qpOf t f n with fetching := none } t else t
    | none => t) s

/-- A function may send nothing from now on (R632): its queues are QUIESCED, its cores' issued transfers complete, its graphs end, its tags
are fenced, and what waited for a translation is discarded. `isReset`: a reset of the function, which leaves its tenant's state (R177). -/
def quiesce (isReset : Bool) (f : Nat) (s : State) : State :=
  let s1 := each (upto 16) (fun n t =>
    let q := qpOf t f n
    if q.state = .disabled then t else setQp f n { q with state := .quiesced } t) s
  let s2 := abortGraphs isReset f (each (upto 16) (abortQueued f) (issuedXfers f s1))
  let s3 := { s2 with host := { s2.host with
    tags := s2.host.tags.map fun e => if e.fn = f then { e with fenced := true } else e
    waits := s2.host.waits.filter fun w => w.1 != f } }
  dropFetches f (dropFnReads f s3)

/-- An FLR of a function starts; one in progress goes on unchanged. -/
def flrStart (f : Nat) (s : State) : State :=
  if (fnOf s f).flr.isSome then s else quiesce true f (modFn f (fun r => { r with flr := some (now s) }) s)

/-- FLR_START: a configuration write of Initiate FLR. -/
def execFlrStart (fn : TenantId) (s : State) : Res := configured fn.val (fun s => done (flrStart fn.val s)) s

/-- Entries held in the queues of a function. -/
def heldEntries (s : State) (f : Nat) : Nat := (fnOf s f).qps.foldl (fun n e => n + e.2.held.length) 0

/-- An answer for the mailbox of function `f`. -/
def toMailbox (f : Nat) (r : Reply) : Bool :=
  match r.out with
  | .pdp 2 g _ => g == f
  | _ => false

/-- The registers of a function are at reset, its translations are gone, its mailbox and open transfers are cleared; entries it held are lost
and counted (R633, R659). -/
def fnReset (f : Nat) (s : State) : State :=
  let s1 := bumpBy 64 (kHoHostStats 11) (heldEntries s f) s
  setFn f { enabled := (fnOf s f).enabled } { s1 with
    host := { s1.host with tcache := s1.host.tcache.filter fun e => e.fn != f }
    dict := { s1.dict with
      segs := s1.dict.segs.filter fun x => !(x.transport == 2 && x.peer == f)
      loadReplies := s1.dict.loadReplies.filter fun r => !toMailbox f r
      storeReply := s1.dict.storeReply.filter fun r => !toMailbox f r.1 } }

/-- VF Enable is cleared by a reset: every VF is reset and unreachable, its tenant's state stays (R617). -/
def vfsReset (s : State) : State :=
  let vfs := ((upto 512).drop 1).filter fun f => (fnOf s f).enabled
  let s1 := each vfs (fun f t => modFn f (fun r => { r with enabled := false }) (fnReset f (flrStart f t))) s
  { s1 with host := { s1.host with vfEnable := false } }

/-- An FLR is complete. -/
def flrDone (f : Nat) (s : State) : State :=
  let s1 := fnReset f s
  hostLinkEvent 4 f 0 (bump (kHoHostStats 5) (if f = 0 then vfsReset s1 else s1))

/-- FLR_DONE. -/
def execFlrDone (fn : TenantId) (s : State) : Res := whenDue (fnOf s fn.val).flr.isSome (flrDone fn.val) s

/-- Every function is reset at once. -/
def resetFunctions (s : State) : State := vfsReset (fnReset 0 (flrStart 0 s))

/-- CONVENTIONAL_RESET: PERST_N, a hot reset or the link going down; the link trains again (R634). -/
def execConventionalReset (_how : ConvReset) (s : State) : Res :=
  whenDue (d0Runs s) (fun s =>
    let up : Bool := rd s kHoLinkState != 0
    let s1 := wr kHoCxlActive 0 (wr kHoWidth 0 (wr kHoSpeed 0 (wr kHoLinkState 0 (resetFunctions s))))
    let s2 := if up then hostLinkEvent 2 0 0 s1 else s1
    hostLinkEvent 7 0 0 (bump (kHoHostStats 7) s2)) s

/-- BUS_MASTER_DISABLE: Bus Master Enable is cleared, or the function enters D3hot. -/
def execBusMasterDisable (fn : TenantId) (d3hot : Bool) (s : State) : Res :=
  let f := fn.val
  configured f (fun s => if d3hot then
    whenDue (!(fnOf s f).d3hot) (fun s => quiesce false f (modFn f (fun r => { r with d3hot := true }) s)) s
  else
    whenDue (fnOf s f).bme (fun s =>
      hostLinkEvent 5 f 0 (bump (kHoHostStats 6) (quiesce false f (modFn f (fun r => { r with bme := false }) s)))) s) s

/-- The entries a quiesced queue holds are written, each ABORTED_BY_RESET (Table 18-9). -/
def writeAborted (f n : Nat) (s : State) : State :=
  let q := qpOf s f n
  if q.state = .quiesced then
    drainHeld f n (q.held.length + 1) (setQp f n { q with held := q.held.map fun e => setFld e 0 8 0x09 } s)
  else s

/-- BUS_MASTER_ENABLE: Bus Master Enable is set, or D0 re-entered. -/
def execBusMasterEnable (fn : TenantId) (d0 : Bool) (s : State) : Res :=
  let f := fn.val
  configured f (fun s =>
    let s1 := modFn f (fun r => if d0 then { r with d3hot := false } else { r with bme := true }) s
    if maySend s1 f then done (pumpReads (msixRelease f (each (upto 16) (writeAborted f) s1))) else done s1) s

/-- Functions that SR-IOV disables: their graphs end, their registers are at reset, their tenants are DISABLED (R177, R617). -/
def vfDisable (keep : Nat) (s : State) : State :=
  let gone := ((upto 512).drop (keep + 1)).filter fun f => (fnOf s f).enabled
  each gone (fun f t =>
    let t1 := modFn f (fun r => { r with enabled := false }) (fnReset f (flrStart f t))
    if tenantState t1 f = 0 then t1 else disableTenant f t1) s

/-- VF_DISABLE: VF Enable is cleared, or NumVFs lowered to `keep`. -/
def execVfDisable (clear : Bool) (keep : Fin 512) (s : State) : Res :=
  configured 0 (fun s =>
    if clear then done (let s1 := vfDisable 0 s; { s1 with host := { s1.host with vfEnable := false } })
    else whenDue (s.host.vfEnable && decide (keep.val < s.host.numVfs))
      (fun s => let s1 := vfDisable keep.val s; { s1 with host := { s1.host with numVfs := keep.val } }) s) s

/-- A configuration write without a row of its own. -/
def configWrite (f : Nat) (c : CfgWrite) (s : State) : Res :=
  match c with
  | .vfEnable => whenDue (f == 0 && !s.host.vfEnable) (fun s =>
      each ((upto (s.host.numVfs + 1)).drop 1) (fun v t => modFn v (fun r => { r with enabled := true }) t)
        { s with host := { s.host with vfEnable := true } }) s
  | .numVfs n => whenDue (f == 0 && !s.host.vfEnable) (fun s => { s with host := { s.host with numVfs := n.val } }) s
  | .ats on => done (pumpReads (flushWaits f (modFn f (fun r => { r with ats := on }) s)))
  | .tag10 on => done (pumpReads (modFn f (fun r => { r with tag10 := on }) s))
  | .tagExt on => done (pumpReads (modFn f (fun r => { r with tagExt := on }) s))
  | .timeout v => done (modFn f (fun r => { r with cto := v.toNat }) s)
  | .payload k => done (modFn f (fun r => { r with mps := 128 * 2 ^ k.val }) s)
  | .readRequest k => done (modFn f (fun r => { r with mrrs := 128 * 2 ^ k.val }) s)
  | .msixOff => done (modFn f (fun r => { r with msixEn := false }) s)
  | .functionMask => done (modFn f (fun r => { r with fnMask := true }) s)
  | .hdm on => whenDue (f == 0) (fun s => { s with host := { s.host with hdm := on } }) s

/-- CONFIG_WRITE. -/
def execConfigWrite (fn : TenantId) (c : CfgWrite) (s : State) : Res := configured fn.val (configWrite fn.val c) s

/-! ### Queue pairs and event queues (R623, R625, R629) -/

/-- A queue in host memory is 64-byte aligned and reachable under R40. -/
def hostQueueOk (base bytes : Nat) : Bool := base % 64 == 0 && decide (base + bytes ≤ 0xFF00000000000)

/-- ENABLE := 1 (Table 18-9). -/
def qpEnable (f n : Nat) (s : State) : State :=
  let q := qpOf s f n
  if q.state = .disabled then
    let sq := fld q.cfg 0 5
    let cq := fld q.cfg 8 5
    if hostQueueOk q.sqBase (64 * 2 ^ sq) && hostQueueOk q.cqBase (32 * 2 ^ cq) && 4 ≤ sq && sq ≤ 12 && 4 ≤ cq && cq ≤ 16 then
      setQp f n { q with
        state := .enabled, enable := true, cause := 0, sqHead := 0, sqTail := 0, cqTail := 0, cqHead := 0, phase := true, visible := [],
        fetching := none, held := [], cqStall := false, modCount := 0, modSince := none } s
    else setQp f n { q with cause := 1 } s
  else s

/-- QP_ENABLE. -/
def execQpEnable (fn : TenantId) (qp : QpId) (s : State) : Res := done (qpEnable fn.val qp.val s)

/-- ENABLE := 0 (Table 18-9). -/
def qpDisable (f n : Nat) (s : State) : State :=
  let q := qpOf s f n
  match q.state with
  | .enabled | .error => qpSettle f n (setQp f n { q with state := .draining, enable := false } s)
  | .quiesced => setQp f n { q with state := .disabled, enable := false, held := [] } s
  | _ => s

/-- QP_DISABLE. -/
def execQpDisable (fn : TenantId) (qp : QpId) (s : State) : Res := done (qpDisable fn.val qp.val s)

/-- EQ_CTRL.ENABLE := 1; when a check fails the write is refused (R623). -/
def eqEnable (f : Nat) (s : State) : State :=
  let q := (fnOf s f).eq
  let lg := fld q.cfg 0 5
  if q.enable then s
  else if hostQueueOk q.base (32 * 2 ^ lg) && 4 ≤ lg && lg ≤ 16 then
    eqDrain f (modFn f (fun r => { r with eq := { q with enable := true, head := 0, tail := 0, phase := true, modCount := 0, modSince := none } }) s)
  else aeNote f false true true 0x02C 15 s

/-- EQ_ENABLE. -/
def execEqEnable (fn : TenantId) (s : State) : Res := done (eqEnable fn.val s)

/-- EQ_CTRL.ENABLE := 0 stops the queue at once. -/
def eqDisable (f : Nat) (s : State) : State := modFn f (fun r => { r with eq := { r.eq with enable := false } }) s

/-- EQ_DISABLE. -/
def execEqDisable (fn : TenantId) (s : State) : Res := done (eqDisable fn.val s)

/-- A write of EQ_HEAD frees entries; an index out of range is refused (R623). -/
def eqHead (f be idx : Nat) (s : State) : State :=
  let q := (fnOf s f).eq
  if eqSize q ≤ idx then aeNote f false true true 0x030 be s
  else eqDrain f (modFn f (fun r => { r with eq := { q with head := idx } }) s)

/-- EQ_HEAD. -/
def execEqHead (fn : TenantId) (be : BitVec 4) (v : Word) (s : State) : Res :=
  if !contiguous be.toNat then done (badAccess fn.val false true 0x030 be.toNat s)
  else done (eqHead fn.val be.toNat (mergeBytes be.toNat (fnOf s fn.val).eq.head v.toNat % 65536) s)

/-- AE_LOG_CLEAR: 1 written to VALID clears the register (Table 18-5). -/
def execAeLogClear (fn : TenantId) (s : State) : Res := done (modFn fn.val (fun r => { r with aeLog := 0 }) s)

/-! ### Registers of BAR0 (Tables 18-4, 18-6, 19-6) -/

/-- A 32-bit half of a 64-bit value. -/
def half (hi : Bool) (x : Nat) : Nat := if hi then x / 2 ^ 32 % 2 ^ 32 else x % 2 ^ 32
/-- A 64-bit value with one half replaced. -/
def setHalf (hi : Bool) (x v : Nat) : Nat := if hi then v * 2 ^ 32 + x % 2 ^ 32 else x / 2 ^ 32 * 2 ^ 32 + v

/-- QP_STATUS (Table 18-6). -/
def qpStatus (q : QueuePair) : Nat :=
  let st := match q.state with
    | .disabled => 0
    | .enabled => 1
    | .draining => 2
    | .error => 3
    | .quiesced => 4
  pack [(0, 3, st), (3, 1, b2n q.cqStall), (4, 4, q.cause)]

/-- A register of a queue pair. -/
def qpRead (q : QueuePair) (o : Nat) : Nat :=
  match o with
  | 0x00 => half false q.sqBase
  | 0x04 => half true q.sqBase
  | 0x08 => half false q.cqBase
  | 0x0C => half true q.cqBase
  | 0x10 => q.cfg
  | 0x14 => q.mod
  | 0x18 => b2n q.enable
  | 0x1C => qpStatus q
  | 0x20 => q.sqHead
  | 0x24 => q.sqTail
  | 0x28 => pack [(0, 16, q.cqTail), (16, 1, b2n q.phase)]
  | 0x2C => q.cqHead
  | 0x30 => half false q.submitted
  | 0x34 => q.latSubmitted.getD (half true q.submitted)
  | 0x38 => half false q.completed
  | 0x3C => q.latCompleted.getD (half true q.completed)
  | _ => 0

/-- A dword of the MSI-X table. -/
def msixRead (m : MsixVector) (w : Nat) : Nat :=
  match w with
  | 0 => half false m.addr
  | 1 => half true m.addr
  | 2 => m.data
  | _ => b2n m.masked

/-- A dword of the mailbox. -/
def mailboxRead (m : Mailbox) (o : Nat) : Nat :=
  if o = 0x8000 then m.ctrl
  else if o = 0x8004 then pack [(0, 1, b2n m.busy), (1, 1, b2n m.done)]
  else if o = 0x8008 then m.reqLen
  else if o = 0x800C then m.rspLen
  else if o = 0x8010 then m.doneCount
  else if o = 0x8014 then m.goIgnored
  else if 0x9000 ≤ o && o < 0xB000 then fieldAt m.req (o - 0x9000) 4
  else if 0xB000 ≤ o && o < 0xD000 then fieldAt m.rsp (o - 0xB000) 4
  else 0

/-- The dword at offset `o` of BAR0. -/
def regRead (s : State) (f o : Nat) : Nat :=
  let r := fnOf s f
  if o < 0x1000 then
    match o with
    | 0x000 => 0x6412B101
    | 0x004 => pack [(0, 9, f), (9, 1, b2n (f == 0)), (10, 2, tenantState s f)]
    | 0x008 => pack [(0, 1, b2n s.boot.fwReady), (1, 1, rd s kHoCxlActive), (2, 1, fld s.boot.straps 4 1), (3, 1, b2n (rd s kDrState == 2))]
    | 0x010 => half false (now s)
    | 0x014 => r.dtcLatch.getD (half true (now s))
    | 0x020 => half false r.eq.base
    | 0x024 => half true r.eq.base
    | 0x028 => r.eq.cfg
    | 0x02C => b2n r.eq.enable
    | 0x030 => r.eq.head
    | 0x034 => pack [(0, 16, r.eq.tail), (16, 1, b2n r.eq.phase)]
    | 0x038 => r.eq.mod
    | 0x040 => r.aeLog
    | 0x044 => r.aeCount
    | 0x048 => if f = 0 then half false r.bar4Base else 0
    | 0x04C => if f = 0 then half true r.bar4Base else 0
    | _ => 0
  else if o < 0x2000 then qpRead (qpOf s f ((o - 0x1000) / 0x100)) (o % 0x100)
  else if 0x4000 ≤ o && o < 0x4200 then msixRead (vectorOf s f ((o - 0x4000) / 16)) (o % 16 / 4)
  else if o = 0x5000 then (upto 32).foldl (fun x v => x + b2n (vectorOf s f v).pending * 2 ^ v) 0
  else if 0x8000 ≤ o then mailboxRead r.mbox o
  else 0

/-- A full read of the low word of a designated counter latches its high word (R621). -/
def latchRead (f o : Nat) (s : State) : State :=
  if o = 0x010 then modFn f (fun r => { r with dtcLatch := some (half true (now s)) }) s
  else if 0x1000 ≤ o && o < 0x2000 then
    let n := (o - 0x1000) / 0x100
    let q := qpOf s f n
    if o % 0x100 = 0x30 then setQp f n { q with latSubmitted := some (half true q.submitted) } s
    else if o % 0x100 = 0x38 then setQp f n { q with latCompleted := some (half true q.completed) } s
    else s
  else s

/-- COUNTER_LO_READ: a host read of one dword of BAR0, of a counter's low word or of any other register. A longer read is a run of
these (R621). -/
def execCounterLoRead (fn : TenantId) (ofs : BitVec 14) (be : BitVec 4) (s : State) : Res :=
  let f := fn.val
  let o := 4 * ofs.toNat
  if !contiguous be.toNat then done (badAccess f false false o be.toNat s)
  else
    let l := toBytes 4 (regRead s f o)
    let got := ((upto 4).filter (bitAt be.toNat)).map fun i => l.getD i 0
    done (send (.readData f got false) (if be = 15 then latchRead f o s else s))

/-- A write of a queue pair's register. -/
def qpWrite (f n o be v : Nat) (s : State) : State :=
  let q := qpOf s f n
  let x := mergeBytes be (qpRead q o) v
  let set := fun (q' : QueuePair) =>
    if q.state = .disabled then setQp f n q' s else aeNote f false true true (0x1000 + 0x100 * n + o) be s
  match o with
  | 0x00 => set { q with sqBase := setHalf false q.sqBase (x / 64 * 64) }
  | 0x04 => set { q with sqBase := setHalf true q.sqBase x }
  | 0x08 => set { q with cqBase := setHalf false q.cqBase (x / 64 * 64) }
  | 0x0C => set { q with cqBase := setHalf true q.cqBase x }
  | 0x10 => set { q with cfg := pack [(0, 5, x), (8, 5, fld x 8 5), (16, 5, fld x 16 5)] }
  | 0x14 => setQp f n { q with mod := x % 2 ^ 24 } s
  | 0x18 => if bitAt be 0 then (if bitAt v 0 then qpEnable f n s else qpDisable f n s) else s
  | _ => s

/-- A write of a dword of the MSI-X table. -/
def msixWrite (f v w be x : Nat) (s : State) : State :=
  let m := vectorOf s f v
  let y := mergeBytes be (msixRead m w) x
  let put := fun (m' : MsixVector) => modFn f (fun r => { r with vectors := tset v m' r.vectors }) s
  match w with
  | 0 => put { m with addr := setHalf false m.addr (y / 4 * 4) }
  | 1 => put { m with addr := setHalf true m.addr y }
  | 2 => put { m with data := y }
  | _ => msixRelease f (put { m with masked := bitAt y 0 })

/-- A write of a dword of the mailbox; what GO starts is `mailboxCtrl`'s. -/
def mailboxWrite (f o be v : Nat) (s : State) : State :=
  let m := (fnOf s f).mbox
  let x := mergeBytes be (mailboxRead m o) v
  let put := fun (m' : Mailbox) => modFn f (fun r => { r with mbox := m' }) s
  if o = 0x8000 then put { m with ctrl := fld x 1 6 * 2 }
  else if o = 0x8004 then (if bitAt be 0 && bitAt v 1 then put { m with done := false } else s)
  else if o = 0x8008 then put { m with reqLen := x % 2 ^ 13 }
  else if 0x9000 ≤ o && o < 0xB000 then put { m with req := putBytes (padTo (max m.req.length (o - 0x8FFC)) m.req) (o - 0x9000) (toBytes 4 x) }
  else s

/-- A write of a dword of BAR0. -/
def regWrite (f o be v : Nat) (s : State) : State :=
  let r := fnOf s f
  let x := mergeBytes be (regRead s f o) v
  let eqSet := fun (q : EventQueue) => if r.eq.enable then aeNote f false true true o be s else modFn f (fun r => { r with eq := q }) s
  if o < 0x1000 then
    match o with
    | 0x020 => eqSet { r.eq with base := setHalf false r.eq.base (x / 64 * 64) }
    | 0x024 => eqSet { r.eq with base := setHalf true r.eq.base x }
    | 0x028 => eqSet { r.eq with cfg := pack [(0, 5, x), (8, 5, fld x 8 5)] }
    | 0x02C => if bitAt be 0 then (if bitAt v 0 then eqEnable f s else eqDisable f s) else s
    | 0x030 => eqHead f be (x % 65536) s
    | 0x038 => modFn f (fun r => { r with eq := { r.eq with mod := x % 2 ^ 24 } }) s
    | 0x040 => if bitAt be 3 && bitAt v 31 then modFn f (fun r => { r with aeLog := 0 }) s else s
    | 0x048 => if f = 0 then modFn 0 (fun r => { r with bar4Base := setHalf false r.bar4Base (x / 2 ^ 30 * 2 ^ 30) }) s else s
    | 0x04C => if f = 0 then modFn 0 (fun r => { r with bar4Base := setHalf true r.bar4Base (x % 2 ^ 20) }) s else s
    | _ => s
  else if o < 0x2000 then qpWrite f ((o - 0x1000) / 0x100) (o % 0x100) be v s
  else if 0x4000 ≤ o && o < 0x4200 then msixWrite f ((o - 0x4000) / 16) (o % 16 / 4) be v s
  else if 0x8000 ≤ o then mailboxWrite f o be v s
  else s

/-! ### Completions of host reads (R631, R635) -/

/-- What waits on host reads, or on translations of writes, goes on. -/
def readsGoOn (s : State) : State := endStopped (answerInvalidations (pumpReads (meshReadsDone s)))

/-- A translation request that fails fails the access it serves (Table 18-10). -/
def translationFailed (f page : Nat) (s : State) : State :=
  let hits := fun (o : ReadOp) => o.fn == f && o.addr / 4096 == page && !o.isOver && !outstanding s o.use
  let mine := fun (w : Nat × HostItem) => w.1 == f && match w.2 with
    | .write a _ _ => a / 4096 == page
    | .msix _ => false
  let s1 := { s with host := { s.host with
    reads := s.host.reads.map fun o => if hits o then { o with failed := some .denied } else o
    waits := s.host.waits.filter fun w => !mine w } }
  let s2 := each (s.host.waits.filter mine) (fun w t => match w.2 with
    | .write _ _ (some (g, n)) => modRt g n (fun r => { r with code := worseCode 5 r.code }) t
    | _ => t) s1
  flushWaits f s2

/-- A request fails with an outcome. -/
def tagFailed (e : TagEnt) (x : ReadFail) (s : State) : State :=
  let s1 := freeTagEnt e (bump (kHoHostStats (failStat x)) s)
  if e.fenced then s1
  else match e.use with
    | .translation f page => translationFailed f page s1
    | _ => readFailed e x s1

/-- A completion for a tag arrives in full. -/
def tagAnswered (e : TagEnt) (a : ReadAnswer) (s : State) : State :=
  match a with
  | .data l => if e.fenced then freeTagEnt e (bump (kHoHostStats 4) s) else freeTagEnt e (readArrived e l s)
  | .unsupported => tagFailed e .unsupported (if e.fenced then bump (kHoHostStats 4) s else s)
  | .abort => tagFailed e .abort (if e.fenced then bump (kHoHostStats 4) s else s)
  | .poisoned => tagFailed e .poisoned (if e.fenced then bump (kHoHostStats 4) s else s)

/-- The tag serves a translation. -/
def forTranslation (e : TagEnt) : Bool :=
  match e.use with
  | .translation _ _ => true
  | _ => false

/-- HOST_READ_COMPLETION: the completion of a function's tag arrives in full. -/
def execHostReadCompletion (fn : TenantId) (tag : Fin 1024) (a : ReadAnswer) (s : State) : Res :=
  match tagEnt s fn.val tag.val with
  | some e => whenDue (!forTranslation e) (fun s => readsGoOn (tagAnswered e a s)) s
  | none => done s

/-- The earliest time in ns at which a request times out: 50 ms for the value 0, else the lower end of the PCIe range of the value. -/
def timeoutNs (v : Nat) : Nat :=
  match v with
  | 1 => 50000
  | 2 => 1000000
  | 5 => 16000000
  | 6 => 65000000
  | 9 => 260000000
  | 10 => 1000000000
  | 13 => 4000000000
  | 14 => 17000000000
  | _ => 50000000

/-- COMPLETION_TIMEOUT: the tag is free, and its request has failed unless it was fenced. -/
def execCompletionTimeout (fn : TenantId) (tag : Fin 1024) (s : State) : Res :=
  match tagEnt s fn.val tag.val with
  | some e => whenDue (decide (e.issued + nsToTc (timeoutNs (fnOf s fn.val).cto) ≤ now s))
      (fun s => readsGoOn (hostLinkEvent 6 fn.val tag.val (tagFailed e .timeout s))) s
  | none => done s

/-- A translation is held, most recently used, within 4,096 entries. -/
def holdTranslation (f page target : Nat) (s : State) : State :=
  let rest := s.host.tcache.filter fun e => !(e.fn == f && e.page == page)
  { s with host := { s.host with tcache := ({ fn := f, page := page, target := target } :: rest).take 4096 } }

/-- TRANSLATION_COMPLETION: the page it names in bus addresses, or none where the access is denied. -/
def execTranslationCompletion (fn : TenantId) (page : BitVec 52) (target : Option (BitVec 52)) (s : State) : Res :=
  let f := fn.val
  match s.host.tags.find? fun e => e.use == .translation f page.toNat with
  | none => done s
  | some e =>
    if e.fenced then done (readsGoOn (freeTagEnt e (bump (kHoHostStats 4) s)))
    else match target with
      | some p => done (readsGoOn (flushWaits f (holdTranslation f page.toNat p.toNat (freeTagEnt e s))))
      | none => done (readsGoOn (tagFailed e .denied s))

/-- ATS_INVALIDATE: the entries of a run of pages are removed at once; the answer waits for the requests that used them. -/
def execAtsInvalidate (fn : TenantId) (page : BitVec 52) (log2 : Fin 53) (s : State) : Res :=
  let n := 2 ^ log2.val
  let first := page.toNat / n * n
  let s1 := bump (kHoHostStats 10) s
  done (answerInvalidations { s1 with host := { s1.host with
    tcache := s1.host.tcache.filter fun e => !(e.fn == fn.val && inPages e.page first n)
    invalidating := s1.host.invalidating ++ [(fn.val, first, n)] } })

/-! ### BAR4 and CXL (R41, R199, R615, R616) -/

/-- An access of the host on a QoS port (Table 14-5), with the owner's authority: a read of `n` bytes, or a write. -/
def hostAccess (port a n : Nat) (data : Option (List Byte)) (s : State) : State :=
  match destOf s a with
  | some (r, b) =>
    let p : Packet := { network := 0, kind := if data.isSome then 1 else 0, src := hostRouter, dst := r, bank := b, addr := a, len := n,
                        data := data.getD [], tenant := 0, port := port, direct := true }
    arrive p (countFlits p s)
  | none => s

/-- BAR4 reaches an address: global memory, and GB0 alone while the boot ROM serves the host (R680). -/
def bar4Reaches (s : State) (a n : Nat) : Bool :=
  if s.boot.fwReady then (destOf s a).isSome && (destOf s (a + n - 1)).isSome else a + n ≤ 0x01000000

/-- BAR4_ACCESS: a host read or write at an offset of PF0's BAR4. -/
def execBar4Access (ofs : BitVec 30) (len : Fin 4097) (data : Option (List Byte)) (s : State) : Res :=
  let a := (fnOf s 0).bar4Base + ofs.toNat
  let n := match data with
    | some l => l.length
    | none => len.val
  if n = 0 then done s
  else if bar4Reaches s a n then done (hostAccess 1 a n data s)
  else done (send (.completerAbort 0) (accessError 0 0 4 a s))

/-- CXL_MEM_REQUEST: device physical address `dpa` is global address 0x0_0080_0000_0000 + `dpa`; a hole reads as poison and takes no
write (Table 1-11). -/
def execCxlMemRequest (dpa : BitVec 40) (len : Fin 65) (data : Option (List Byte)) (s : State) : Res :=
  let a := dramBase + dpa.toNat
  let n := match data with
    | some l => l.length
    | none => len.val
  whenDue (rdB s kHoCxlActive && s.host.hdm) (fun s =>
    if regionOf s a == .dram && regionOf s (a + n - 1) == .dram then hostAccess 2 a n data s
    else
      let s1 := accessError 0 0 0 a s
      if data.isSome then s1 else let (k, s2) := draw s1; send (.readData 0 (Config.freeBytes k n) true) s2) s

/-- CXL_SNOOP: of a line held Shared; the device keeps the data it has read (R615). -/
def execCxlSnoop (line : BitVec 52) (s : State) : Res :=
  let a := line.toNat / 64 * 64
  whenDue (s.host.lines.any fun e => e.1 == a)
    (fun s => send (.snoopHit a) { s with host := { s.host with lines := s.host.lines.filter fun e => e.1 != a } }) s

/-! ### The link (R611, R619, R636) -/

/-- A width the link trains to. -/
def linkWidthOk (w : Nat) : Bool := w == 4 || w == 8 || w == 16

/-- LINK_UP: the speed and width found, and whether the partner accepts CXL, which runs at 32 GT/s alone (R611, R614). -/
def execLinkUp (gen : Fin 6) (width : Fin 17) (cxl : Bool) (s : State) : Res :=
  whenDue (d0Runs s && rd s kHoLinkState == 0 && gen != 0 && linkWidthOk width.val) (fun s =>
    let active : Bool := bitAt s.boot.straps 3 && cxl && gen == 5
    hostLinkEvent 1 0 0 (wr kHoCxlActive (b2n active) (wr kHoWidth width.val (wr kHoSpeed gen.val (wr kHoLinkState 1 s))))) s

/-- PME_TURN_OFF: the link enters L2/L3 Ready (R619). -/
def execPmeTurnOff (s : State) : Res := whenDue (rd s kHoLinkState == 1 || rd s kHoLinkState == 2) (wr kHoLinkState 3) s

/-- SPEED_CHANGE: the link retrains and is back in L0. -/
def execSpeedChange (gen : Fin 6) (width : Fin 17) (s : State) : Res :=
  whenDue ((rd s kHoLinkState == 1 || rd s kHoLinkState == 4) && gen != 0 && linkWidthOk width.val)
    (fun s => hostLinkEvent 3 0 0 (wr kHoLinkState 1 (wr kHoWidth width.val (wr kHoSpeed gen.val s)))) s

end Sys2Proof.Machine
end

