-- ==== Sys2Proof/Machine/DictRead.lean ====
section
/-!
DEFINITION. What the dictionary reads (19_object_dictionary.md): the value of every object, the parameter image and the error history as
octets, the self-description, and who sees an object.
-/
namespace Sys2Proof.Machine

/-! ### The error history and the parameter image as octets -/

/-- An entry of the error history (Table 19-14). -/
def histBytes (e : HistEntry) : List Byte :=
  toBytes 32 (pack [(0, 32, e.seq), (32, 64, e.time), (96, 16, e.code), (112, 2, e.severity), (128, 64, e.loc), (192, 32, e.detail),
    (224, 16, e.count)])

/-- The records of an image as octets (Table 19-12). -/
def recordOctets (r : ParamRecord) : List Byte :=
  toBytes 8 (pack [(0, 16, r.idx), (16, 10, r.sub), (32, 8, r.typ), (40, 24, r.value.length)]) ++
    padTo (4 * ceilDiv r.value.length 4) r.value

/-- A whole image (Table 19-12). -/
def imageBytes (seq : Nat) (l : List ParamRecord) : List Byte :=
  let body := l.flatMap recordOctets
  toBytes 32 (pack [(0, 32, 0x49504450), (32, 16, 1), (64, 32, seq), (96, 32, body.length), (128, 32, (Config.crc32 body).toNat)]) ++ body

/-- The records that a run of octets holds; what is cut short at its end is left out. -/
def recordsOf : Nat → List Byte → List ParamRecord
  | 0, _ => []
  | fuel + 1, l =>
    let n := fieldAt l 5 3
    if l.length < 8 + n then []
    else
      { idx := fieldAt l 0 2, sub := fieldAt l 2 2 % 1024, value := slice l 8 n, typ := fieldAt l 4 1 } ::
        recordsOf fuel (l.drop (8 + 4 * ceilDiv n 4))

/-! ### States that are read, not held -/

/-- The service of a Sage core or engine (R668): 3 a spare, 2 out of service, 1 fenced, else 0. -/
def unitService (s : State) (u : Nat) : Nat :=
  let f := roleFn (roleWord s u)
  if f = 3 then 3 else if f = 2 then 2 else if (unitSt s u).fenced then 1 else 0

/-- LOC_STATE of a packed code (R668). -/
def locState (s : State) (x : Nat) : Nat :=
  if locLvl x = 3 then (match unitOf x with
    | some u => unitService s u
    | none => 4)
  else if locLvl x = 2 || locLvl x = 1 then b2n (macroSt s (locAtLevel x 2)).fenced
  else 4

/-- A lane is fenced: a port-logic buffer macro of its quad is (Table 15-3). -/
def laneOut (s : State) : Bool := (upto 64).any (laneFenced s)

/-- A condition of R685 holds. -/
def degraded (s : State) : Bool :=
  rd s kDrState == 3 ||
    (upto 12).any (fun c => decide (((span (9 * c) 9).filter (inService s)).length < 8)) ||
    (upto 120).any (fun e => let x := unitService s (engUnit e); x == 1 || x == 2) || laneOut s ||
    rd s kSrLedgerCopies != 3 || !s.dict.copyA.valid || !s.dict.copyB.valid || s.boot.fwCopyBad || s.boot.oscFallback

/-- DEVICE_STATE (Table 20-8). -/
def deviceCondition (s : State) : Nat :=
  if !s.boot.fwReady then 0
  else if s.boot.stage < 13 then 1
  else if !s.boot.recoveries.isEmpty then 4
  else if degraded s then 3
  else 2

/-- Job-ID indices of a CI in use. -/
def idsInUse (s : State) (ci : Nat) : Nat := (s.work.ids.filter fun e => e.1 / 4096 == ci && e.2.inUse).length

/-- Element of a 512-element array at an effective subindex (R639). -/
def element (sub : Nat) : Nat := if sub = 0x200 then 0xFF else sub

/-- FUNC_STATE of a function (Table 18-11). -/
def funcState (s : State) (f : Nat) : Nat :=
  let r := fnOf s f
  pack [(0, 1, b2n (fnEnabled s f)), (1, 1, b2n r.bme), (2, 1, b2n r.msixEn), (3, 1, b2n r.ats), (4, 1, b2n r.flr.isSome),
    (5, 1, b2n (s.host.tags.any fun e => e.fn == f && e.fenced))]

/-- A ledger domain record (Table 15-6). -/
def domainRecord (s : State) (d : Nat) : Nat :=
  let w := wearDom s d
  pack ([(0, 6, d), (32, 32, w.life), (64, 32, w.thermalCycles), (96, 32, w.powerCycles)] ++
    (upto 48).map fun b => (128 + 32 * b, 32, tget w.bins b 0))

/-- The spare record of a macro (Table 15-9). -/
def macroRecord (s : State) (code : Nat) : Nat :=
  let m := macroSt s code
  if code = 0 then 0
  else (Config.spareRecord code m.columns (m.remaps.map (·.word)) (m.remaps.map fun r => !r.usable) m.fenced).toNat

/-- Slots of a link reserved now, those of a tenant alone with `t` (R572). -/
def slotsNow (s : State) (link : Nat) (t : Option Nat) : Nat :=
  (s.noc.slots.filter fun e => e.1 == link && e.2.2.1 ≤ now s && decide (now s < e.2.2.2.1) && (match t with
    | some x => e.2.2.2.2 % 512 == x
    | none => true)).length

/-- CHARGED of a tenant, in the order of its budgets: times in µs, rounded up, tokens, the most NoC slots held on a link (R181). -/
def chargedNow (s : State) (t k : Nat) : Nat :=
  if k = 13 then ((s.noc.slots.map (·.1)).eraseDups).foldl (fun m l => max m (slotsNow s l (some t))) 0
  else
    let x := chargedIn s s.work.window t k + debtIn s s.work.window t k
    if k = 12 then x else ceilDiv x 1000

/-- Values of a tenant's objects that are read from elsewhere: `k` the index within its 16. -/
def tenantDerived (s : State) (t k sub : Nat) : Option Nat :=
  match k with
  | 0 => if sub = 6 then some (pack ((upto 512).map fun c => (c, 1, b2n (ciTenant s c == some t)))) else none
  | 1 =>
    if 0x21 ≤ sub && sub ≤ 0x2E then some (chargedNow s t (sub - 0x21))
    else if 0x2F ≤ sub && sub ≤ 0x32 then some (heldAt s.work.spaces t (sub - 0x2F) (now s))
    else none
  | 2 => if sub = 2 then some (pack ((upto 51).map fun d => (8 * d, 8, tenantVote s t d))) else none
  | 5 => if sub = 2 then some (activeFlows s t).length else none
  | 6 => if sub = 6 then some (dedicatedUnits s t).length else none
  | 7 =>
    let slot := fun (i : Nat) => bindOf s (4 * t + i)
    if 2 ≤ sub && sub ≤ 5 then some (if (slot (sub - 2)).state = .free then 0 else (slot (sub - 2)).desc)
    else if 8 ≤ sub && sub ≤ 0x0B then
      some (pack ((slot (sub - 8)).resources.map fun e => (256 * e.1, 256, e.2)))
    else if sub = 0x0C then
      some (pack ((upto 4).map fun i => (8 * i, 8, match (slot i).state with
        | .free => 0
        | .active => 1
        | .draining => 2)))
    else none
  | _ => none

/-- Values of a MAR's objects. -/
def marDerived (s : State) (m k sub : Nat) : Option Nat :=
  let l := (marBindings s m).filter fun e => e.2.state != .free
  if k ≠ 0 then none
  else match sub with
    | 1 => some (unitService s (marUnit m))
    | 2 => some (sumBy (l.map fun e => bChannels e.2.desc) id)
    | 3 => some (sumBy (l.map fun e => bAxcCount e.2.desc) id)
    | 4 => some l.length
    | 5 => some (sumBy (l.map fun e => e.2.resources.length) id)
    | _ => none

/-- Values of a cluster's objects. -/
def clusterDerived (s : State) (c k sub : Nat) : Option Nat :=
  match k, sub with
  | 0, 1 => some (0x2000 + codeBytes s c)
  | 0, 2 => some (0x8000 + staticBytes s c)
  | 9, 7 => some (b2n (cmcFenced s c))
  | 10, 2 => some (pack ((upto 9).map fun u => (u, 1, b2n (roleFn (roleWord s (9 * c + u)) == 1))))
  | _, _ => none

/-- Values of the power objects. -/
def powerDerived (s : State) (idx sub : Nat) : Option Nat :=
  if 0x1010 ≤ idx && idx < 0x1042 then
    let d := idx - 0x1010
    match sub with
    | 4 => some (domTarget s d)
    | 5 => some (domVoters s d)
    | 7 =>
      let v := rd s (kPdPowerStats d)
      let i := 4 + min 5 (domState s d)
      some (setFld v (64 * i) 64 (wrapAdd 64 (fld v (64 * i) 64) (tcToNs (now s - (domSt s d).since))))
    | _ => none
  else if idx = 0x1004 && sub = 3 then some (s.pow.slot0 + s.pow.slot1 * 2 ^ 256)
  else if idx = 0x1102 && sub = 6 then some s.pow.trips
  else none

/-- Values of the timing objects. -/
def timingDerived (s : State) (idx sub : Nat) : Option Nat :=
  if idx = 0x2003 then (match sub with
    | 1 => some (now s)
    | 2 => some s.tim.uptime
    | 3 => some s.tim.stc
    | 9 => some (timeQuality s)
    | _ => none)
  else if 0x2100 ≤ idx && idx < 0x2300 && sub = 2 then some (b2n (ciActive s (idx - 0x2100)))
  else none

/-- Values of the host link's objects (Table 18-11). -/
def hostDerived (s : State) (idx sub : Nat) : Option Nat :=
  if idx = 0x7000 then (match sub with
    | 1 => some (fld s.boot.straps 3 1)
    | 6 => some (s.host.tags.filter fun e => !e.fenced).length
    | 7 => some (s.host.tags.filter fun e => e.fenced).length
    | 8 => some (((upto 512).drop 1).filter (fnEnabled s)).length
    | 9 => some s.host.tcache.length
    | _ => none)
  else if idx = 0x7002 then some (funcState s (element sub))
  else none

/-- Values of the dictionary's own objects (Table 19-9). LOC_STATE holds its default until a place is written (R3, R668). -/
def ownDerived (s : State) (idx sub : Nat) : Option Nat :=
  match idx, sub with
  | 0x0101, 2 => some (1 - fld s.boot.straps 4 1)
  | 0x0102, 1 => some (deviceCondition s)
  | 0x0102, 2 => some (fld s.boot.straps 0 5)
  | 0x0102, 3 => some s.boot.cause
  | 0x0200, 3 => some s.dict.image.seq
  | 0x0200, 6 => some (b2n s.dict.copyA.valid + 2 * b2n s.dict.copyB.valid)
  | 0x0210, 4 => if rdB s kDyCanEnable then none else some 3
  | 0x0300, 1 => some ((s.dict.history.map (·.seq)).headD 0)
  | 0x0300, 3 => some (match s.dict.history.find? fun e => e.seq == rd s kDyHistSelect with
    | some e => ofBytes (histBytes e)
    | none => 0)
  | 0xA200, 3 => if (tfind kDyLocText s.text).isSome then some (locState s (rd s kDyLocPacked)) else none
  | _, _ => none

/-- Values of placement, dispatch and the program table. -/
def workDerived (s : State) (idx sub : Nat) : Option Nat :=
  match idx with
  | 0x5000 => if sub = 9 then some (poolBytes s) else none
  | 0x5002 => some (puQueue s (sub - 1)).length
  | 0x5103 => some (s.work.ready.filter fun e => 12 * unitQuad e.unit + unitClass e.unit == sub).length
  | 0x5104 => some (heldDepth s (sub - 1))
  | 0x5105 => some (sliceFlows s (sub - 1))
  | 0x5106 => some (idsInUse s (element sub))
  | 0x5400 => if sub = 2 then some (prog s (rd s kPtEntrySelect))
    else if sub = 4 then some ((s.work.progs.filter fun e => pValid e.2).length) else none
  | _ => none

/-- Values of DRAM, integrity, lifetime and the mesh. -/
def memoryDerived (s : State) (idx sub : Nat) : Option Nat :=
  match idx, sub with
  | 0x4000, 1 => some (b2n (ddr5 s))
  | 0x4210, 2 => some (macroRecord s (rd s kSrMacroSelect))
  | 0x4300, 1 => some (deviceLife s)
  | 0x4300, 2 => some (domainRecord s (rd s kSrDomainSelect))
  | 0x4302, 2 => some (pack ((upto 12).map fun c => (c, 1, b2n (roleFn (roleWord s (9 * c + 8)) == 3))))
  | 0xA100, 2 => some (slotsNow s (rd s kNoLinkSelect) none)
  | 0xA100, 3 => some (tget s.noc.reservedMax (rd s kNoLinkSelect) 0)
  | 0xA100, 4 => some (tget s.noc.gtFlits (rd s kNoLinkSelect) 0 % 2 ^ 64 + tget s.noc.beFlits (rd s kNoLinkSelect) 0 % 2 ^ 64 * 2 ^ 64)
  | _, _ => none

/-- Values of lanes, ports and the identity table. -/
def radioDerived (s : State) (idx sub : Nat) : Option Nat :=
  if idx = 0x6100 && sub = 0x0A then some (idtRegion s)
  else if 0x3000 ≤ idx && idx < 0x3400 then
    let n := (idx - 0x3000) / 16
    if idx % 16 = 0 && sub = 6 then some (ofInt 16 (domTj s (quadDom n)))
    else if idx % 16 = 5 then some (laneStatRead s n (sub - 1))
    else none
  else if 0x3400 ≤ idx && idx < 0x3800 && idx % 16 = 6 then some (axcDesc s (16 * ((idx - 0x3400) / 16) + sub - 1))
  else none

/-- The value of an object that is read from elsewhere in the state. -/
def derived (s : State) (idx sub : Nat) : Option Nat :=
  if 0x8000 ≤ idx && idx < 0xA000 then tenantDerived s ((idx - 0x8000) / 16) (idx % 16) sub
  else if idx < 0x1000 || 0xA200 ≤ idx then ownDerived s idx sub
  else if idx < 0x2000 then powerDerived s idx sub
  else if idx < 0x3000 then timingDerived s idx sub
  else if 0x6000 ≤ idx && idx < 0x6040 then marDerived s ((idx - 0x6000) / 16) (idx % 16) sub
  else if idx < 0x4000 || idx = 0x6100 then radioDerived s idx sub
  else if 0x5200 ≤ idx && idx < 0x52C0 then clusterDerived s ((idx - 0x5200) / 16) (idx % 16) sub
  else if 0x5000 ≤ idx && idx < 0x6000 then workDerived s idx sub
  else if 0x7000 ≤ idx && idx < 0x8000 then hostDerived s idx sub
  else memoryDerived s idx sub

/-- The value of a subindex as a number. -/
def objValue (s : State) (idx sub : Nat) : Nat := (derived s idx sub).getD (rd s (okey idx sub))

/-- The octets of a text default, which holds no octet 0. -/
def textDefault (k : Nat) : List Byte := (toBytes 40 (objDefault k)).takeWhile (· != 0)

/-- The value of a subindex as octets (R640). -/
def objBytes (s : State) (r : ObjRow) (idx sub : Nat) : List Byte :=
  if r.ty = .text then (tfind (okey idx sub) s.text).getD (textDefault (okey idx sub))
  else if idx = 0x0200 && sub = 5 then imageBytes s.dict.image.seq s.dict.image.records
  else if idx = 0x0300 && sub = 4 then s.dict.history.reverse.flatMap histBytes
  else if 0xA000 ≤ idx && idx < 0xA040 && sub = 3 then scanResult s (idx - 0xA000)
  else toBytes r.size (objValue s idx sub)

/-! ### Who sees an object (R642) -/

/-- A subindex is visible to the owner, or to tenant `t`. -/
def visible (s : State) (req : Option Nat) (r : ObjRow) (idx sub : Nat) : Bool :=
  match req with
  | none => true
  | some t =>
    r.tenant &&
      (if 0x8000 ≤ idx && idx < 0xA000 then (idx - 0x8000) / 16 == t
       else if 0x2100 ≤ idx && idx < 0x2300 && sub = 2 then ciTenant s (idx - 0x2100) == some t
       else true)

/-- The row of a subindex that exists and is visible to the requester. -/
def seen (s : State) (req : Option Nat) (idx sub : Nat) : Option ObjRow :=
  (objRow? idx sub).filter fun r => visible s req r idx sub

/-! ### The self-description (R643, Table 19-2) -/

/-- The code of a type (Table 19-1). -/
def ObjTy.code : ObjTy → Nat
  | .bool => 0x10
  | .u8 => 0x11
  | .u16 => 0x12
  | .u32 => 0x13
  | .u64 => 0x14
  | .i8 => 0x21
  | .i16 => 0x22
  | .i32 => 0x23
  | .i64 => 0x24
  | .q15 => 0x32
  | .q31 => 0x33
  | .text => 0x40
  | .octets => 0x41
  | .time => 0x50
  | .loc => 0x60
  | .blob => 0x7F

/-- The type is signed. -/
def ObjTy.signed : ObjTy → Bool
  | .i8 | .i16 | .i32 | .i64 | .q15 | .q31 => true
  | _ => false

/-- The code of an access (Table 19-2). -/
def Acc.code : Acc → Nat
  | .ro => 0
  | .rw => 1
  | .wo => 2
  | .rws => 3
  | .const => 4

/-- The name of a subindex, as its chapter's table gives it. -/
def subName (r : ObjRow) (sub : Nat) : String :=
  let i := sub - r.subLo
  if ["ROUTE", "DEST", "BINDING", "RESOURCES", "SCLK_DIV"].contains r.name then r.name ++ toString i
  else if ["QUOTA", "HELD"].contains r.name then r.name ++ "_T" ++ toString i
  else if r.name = "TAP" then ["C_PRE2", "C_PRE1", "C_MAIN", "C_POST"].getD i ""
  else if r.name = "TJ_TH" then ["WARN_TH", "THROTTLE_TH", "CRIT_TH"].getD i ""
  else r.name

/-- The octets of a name, zero-padded. -/
def nameBytes (n : String) : List Byte := padTo 28 (n.toList.map fun c => BitVec.ofNat 8 c.toNat)

/-- Lowest and highest value, or length, of a subindex. -/
def objRange (r : ObjRow) (sub : Nat) : Int × Int :=
  if r.name = "TAP" then tapRange (sub - 2)
  else if r.name = "ENGINE_US" then (0, ((1000 * ((upto 120).filter fun e => classOf e == sub - 1).length : Nat) : Int))
  else (r.lo, r.hi)

/-- The DEFAULT field: sign-extended for signed types. -/
def descDefault (r : ObjRow) (idx sub : Nat) : Nat :=
  let v := objDefault (okey idx sub)
  if !r.scalar then 0 else if r.ty.signed then ofInt 64 (toInt (8 * r.size) v) else v % 2 ^ 64

/-- The entry of one subindex. -/
def descEntry (r : ObjRow) (idx sub : Nat) : List Byte :=
  let g := objRange r sub
  toBytes 36 (pack [(0, 10, sub), (16, 8, r.ty.code), (24, 3, r.acc.code), (27, 1, b2n r.tenant), (28, 1, b2n r.persist),
    (29, 1, b2n r.scalar), (32, 32, r.size), (64, 16, r.unit), (96, 64, descDefault r idx sub), (160, 64, ofInt 64 g.1),
    (224, 64, ofInt 64 g.2)]) ++ nameBytes (subName r sub)

/-- The subindices of an object that the requester sees, in order of element number. -/
def seenSubs (s : State) (req : Option Nat) (idx : Nat) : List (Nat × ObjRow) :=
  let rows := objRows.filter fun r => r.base ≤ idx && idx < r.base + r.count * r.stride && (idx - r.base) % r.stride == 0
  let subs := rows.flatMap fun r =>
    let l := if r.subHi = 0x200 then (upto 512).map fun i => if i = 0xFF then 0x200 else i else (upto (r.subHi + 1)).drop r.subLo
    l.map fun i => (i, r)
  let sorted := sortBy (fun a b => decide (element a.1 ≤ element b.1)) subs
  sorted.filter fun e => visible s req e.2 idx e.1

/-- The self-description of an object, as a requester sees it; none where it does not exist. -/
def selfDescription (s : State) (req : Option Nat) (idx : Nat) : Option (List Byte) :=
  let l := seenSubs s req idx
  if l.isEmpty then none
  else some (toBytes 4 (pack [(0, 16, idx), (16, 16, l.length)]) ++ toBytes 28 (Config.objectName idx).toNat ++
    l.flatMap fun e => descEntry e.2 idx e.1)

/-! ### Reads (R646) -/

/-- A value that is read, or the abort code. -/
def readObject (s : State) (req : Option Nat) (idx sub : Nat) : Except Abort (List Byte) :=
  if !s.boot.fwReady then .error .notReady
  else if sub = 0xFF then (match selfDescription s req idx with
    | some l => .ok l
    | none => .error .noObject)
  else match seen s req idx sub with
    | none => .error .noObject
    | some r => if r.acc = .wo then .error .access else .ok (objBytes s r idx sub)

end Sys2Proof.Machine
end

