-- ==== Sys2Proof/Machine/DictWrite.lean ====
section
/-!
DEFINITION. What a write of a dictionary object does (19_object_dictionary.md): the checks of R646 from the present state on, the objects
with an effect of their own, the store of the parameter image, routes, location queries, firmware images.
-/
namespace Sys2Proof.Machine

/-! ### Notifications of object changes (R660, R661) -/

/-- The octets a route of KIND 0 watches; none for an object that cannot be read. -/
def routeValue (s : State) (r : Nat) : Option (List Byte) :=
  match objRow? (fld r 32 16) (fld r 48 10) with
  | none => none
  | some o => if o.acc = .wo then none else some (objBytes s o (fld r 32 16) (fld r 48 10))

/-- A change that route `i` has to notify now. -/
def routeDue (s : State) (i : Nat) : Option (List Byte) :=
  let r := rd s (kDyRoute i)
  let m := tget s.dict.routes i {}
  if bitAt r 0 && !bitAt r 3 && (m.last.isNone || decide (msToTc (fld r 64 16) ≤ now s - m.at_)) then
    (routeValue s r).filter fun v => m.last != some v
  else none

/-- Route `i` notifies its value. -/
def routeNotify (i : Nat) (v : List Byte) (s : State) : State :=
  let r := rd s (kDyRoute i)
  routeSend i (fld r 32 16) (fld r 48 10) v
    { s with dict := { s.dict with routes := tset i { last := some v, at_ := now s } s.dict.routes } }

/-- Every change that is due is notified. -/
def notifyChanges (s : State) : State :=
  each (upto 16) (fun i t => match routeDue t i with
    | some v => routeNotify i v t
    | none => t) s

/-- A route that R660 admits; an enabled route of KIND 0 has an interval. -/
def routeOk (s : State) (r : Nat) : Bool :=
  let kind1 := bitAt r 3
  let tr := fld r 1 2
  let fn := fld r 16 16
  fld r 6 2 == 0 && fld r 8 8 == 0 && fld r 25 7 == 0 && fld r 58 6 == 0 && fld r 80 48 == 0 && tr != 3 && (tr == 2 || fn == 0) &&
    !(kind1 && tr == 2) &&
    (kind1 ||
      ((fld r 48 10 == 0xFF || (seen s (if tr = 2 && fn % 512 ≠ 0 then some (fn % 512) else none) (fld r 32 16) (fld r 48 10)).isSome) &&
        (!bitAt r 0 || fld r 64 16 != 0)))

/-- ROUTEi: an enabled route of KIND 0 notifies at once. -/
def wRoute (i v : Nat) (s : State) : Written :=
  if routeOk s v then
    let s1 := wr (kDyRoute i) v { s with dict := { s.dict with routes := tdel i s.dict.routes } }
    accepted (match routeDue s1 i with
      | some x => routeNotify i x s1
      | none => s1)
  else refusedW .range s

/-! ### The parameter image (R663 to R665) -/

/-- The default that a stored value is compared with: for a tap, that of its lane's RATE (Table 11-2). -/
def storeDefault (s : State) (k : Nat) : Nat :=
  let idx := k / 1024
  let sub := k % 1024
  if 0x3000 ≤ idx && idx < 0x3400 && idx % 16 = 2 && 2 ≤ sub && sub ≤ 5 then
    ofInt 8 ((tapDefaults (laneRate s ((idx - 0x3000) / 16))).getD (sub - 2) 0)
  else objDefault k

/-- A record of a subindex. -/
def recordAt (idx sub : Nat) (value : List Byte) (ty : ObjTy) : ParamRecord :=
  { idx := idx, sub := sub, value := value, typ := ty.code }

/-- The records of every persistent subindex whose value differs from its default, in ascending order (R663). -/
def persistRecords (s : State) : List ParamRecord :=
  let plain := s.obj.filterMap fun e => match objRow? (e.1 / 1024) (e.1 % 1024) with
    | some r => if r.persist && e.2 != storeDefault s e.1 then some (recordAt (e.1 / 1024) (e.1 % 1024) (toBytes r.size e.2) r.ty) else none
    | none => none
  let names := s.text.filterMap fun e => match objRow? (e.1 / 1024) (e.1 % 1024) with
    | some r => if r.persist && e.2 != textDefault e.1 then some (recordAt (e.1 / 1024) (e.1 % 1024) e.2 r.ty) else none
    | none => none
  let axcs := s.radio.axcs.map fun e => recordAt (0x3400 + 16 * (e.1 / 16) + 6) (e.1 % 16 + 1) (toBytes 32 e.2) .octets
  let binds := s.radio.bindings.flatMap fun e =>
    let idx := 0x8007 + 16 * (e.1 / 4)
    if e.2.state = .free then []
    else
      recordAt idx (2 + e.1 % 4) (toBytes 64 e.2.desc) .octets ::
        (if e.2.resources.isEmpty then []
         else [recordAt idx (8 + e.1 % 4) (toBytes 2048 (pack (e.2.resources.map fun x => (256 * x.1, 256, x.2)))) .octets])
  sortBy (fun a b => decide (okey a.idx a.sub ≤ okey b.idx b.sub)) (plain ++ names ++ axcs ++ binds)

/-- The SEQ of the next image. -/
def nextSeq (s : State) : Nat := wrapAdd 32 (max s.dict.image.seq (max s.dict.copyA.seq s.dict.copyB.seq)) 1

/-- A whole image is at most 4 MiB (R663). -/
def imageFits (l : List ParamRecord) : Bool := (imageBytes 0 l).length ≤ 4194304

/-- STORE: the values are taken now, and the answer waits for both copies (R664). `reply` is the answer when both are good, and when one is
bad. -/
def wStore (v : Nat) (reply : Reply × Reply) (s : State) : Written :=
  if s.dict.storing.isSome then refusedW .state s
  else if v ≠ 0x65766173 || !imageFits (persistRecords s) then refusedW .range s
  else accepted (wr kDyStoreState 1 { s with dict := { s.dict with storing := some (persistRecords s), storeReply := some reply } })

/-- A copy that failed its read-back twice enters the error history (R664). -/
def copyBad (b : Bool) (ok : Bool) (s : State) : State := if ok then s else histAdd 0x0003 2 0 (b2n b) s

/-- A running store ends: each copy is written, read back and, where that fails, tried once more. -/
def storeEnd (okA okB : Bool) (l : List ParamRecord) (s : State) : State :=
  let q := nextSeq s
  let new : ParamCopy := { seq := q, records := l, valid := true }
  let s1 := { s with dict := { s.dict with
    copyA := { new with valid := okA }, copyB := { new with valid := okB }, image := if okA || okB then new else s.dict.image,
    storing := none, storeReply := none } }
  let s2 := copyBad true okB (copyBad false okA s1)
  let s3 := wr kDyStoreState (if okA && okB then 0 else 2) { s2 with dict := { s2.dict with histFlash := s2.dict.history } }
  match s.dict.storeReply with
  | some (good, bad) => giveReply (if okA && okB then good else bad) s3
  | none => s3

/-- Both copies are replaced at once, with SEQ one above the present image; present values stay (R665). -/
def bothCopies (l : List ParamRecord) (s : State) : State :=
  let c : ParamCopy := { seq := nextSeq s, records := l, valid := true }
  { s with dict := { s.dict with copyA := c, copyB := c } }

/-- RESTORE_DEFAULTS (R665). -/
def wRestore (v : Nat) (s : State) : Written := if v = 0x64616F6C then accepted (bothCopies [] s) else refusedW .range s

/-- IMAGE_WRITE: MAGIC, VERSION, LENGTH and CRC are checked (R665). -/
def wImage (l : List Byte) (s : State) : Written :=
  let body := l.drop 32
  if l.length < 32 || fieldAt l 0 4 ≠ 0x49504450 || fieldAt l 4 2 ≠ 1 || fieldAt l 12 4 ≠ body.length ||
      fieldAt l 16 4 ≠ (Config.crc32 body).toNat then refusedW .image s
  else accepted (bothCopies (recordsOf body.length body) s)

/-! ### History and location codes (R667, R668) -/

/-- HIST_CLEAR: SEQ continues. -/
def wHistClear (v : Nat) (s : State) : Written :=
  if v = 0x61656C63 then accepted { s with dict := { s.dict with history := [] } } else refusedW .range s

/-- Both location objects take a place. -/
def setLoc (x : Nat) (s : State) : State :=
  wr kDyLocPacked x { s with text := tset kDyLocText (locText x) s.text }

/-- LOC_TEXT. -/
def wLocText (l : List Byte) (s : State) : Written :=
  match locParse l with
  | some x => accepted (setLoc x s)
  | none => refusedW .locInvalid s
/-- LOC_PACKED. -/
def wLocPacked (v : Nat) (s : State) : Written := if locValid v then accepted (setLoc v s) else refusedW .locInvalid s

/-! ### Firmware images (R678, R682) -/

/-- An image from its octets: a header of 512 B and the body. -/
def fwImage (l : List Byte) : FwImage := { header := padTo 512 l, body := l.drop 512, seq := fieldAt l 8 4 }

/-- The status of an image under R678: 2 accepted, 3 bad header, 4 hash mismatch, 5 key not authorised, 6 signature invalid. -/
def fwCheck (s : State) (m : FwImage) : Nat :=
  let h := m.header
  let key := slice h 72 96
  let hash := toBytes 48 Config.keyHash.toNat
  if fieldAt h 0 4 ≠ 0x57465141 || fieldAt h 4 2 ≠ 1 || fieldAt h 16 4 ≠ m.body.length || 8388608 < 512 + m.body.length then 3
  else if (Config.sha384 m.body).toList ≠ slice h 24 48 then 4
  else if bitAt s.boot.straps 4 then 2
  else if Config.keyHash = 0 || (Config.sha384 key).toList ≠ hash then 5
  else if Config.ecdsaValid key (h.take 168) (slice h 168 96) then 2
  else 6

/-- The slot of a new image, 0 A or 1 B: the one that does not hold the running image; with neither, the older. -/
def freeSlot (s : State) : Nat :=
  let age := fun (m : Option FwImage) => match m with
    | some x => x.seq + 1
    | none => 0
  if s.boot.running = 0 then 1 else if s.boot.running = 1 then 0 else if age s.boot.slotB < age s.boot.slotA then 1 else 0

/-- A slot takes what was written to it. -/
def setSlot (n : Nat) (m : Option FwImage) (s : State) : State :=
  { s with boot := if n = 0 then { s.boot with slotA := m } else { s.boot with slotB := m } }

/-- A write of an image to 0xF000.01; `readBack` tells whether the slot read back as written (R682). -/
def wFirmware (l : List Byte) (readBack : Bool) (s : State) : Written :=
  let m := fwImage l
  let seq := match s.boot.loaded with
    | some x => wrapAdd 32 x.seq 1
    | none => 1
  if !s.boot.fwReady then refusedW .notReady s
  else if fwCheck s m ≠ 2 then refusedW .image s
  else if readBack then accepted (setSlot (freeSlot s) (some { m with seq := seq }) { s with boot := { s.boot with fwCopyBad := false } })
  else
    let t := setSlot (freeSlot s) none s
    (some .flash, { t with boot := { t.boot with fwCopyBad := true } })

/-! ### Ranges and states beyond a row's own -/

/-- A written value lies in its type's range and its row's. -/
def inRow (r : ObjRow) (sub v : Nat) : Bool :=
  let g := objRange r sub
  let x : Int := if r.ty.signed then toInt (8 * r.size) v else (v : Int)
  match r.ty with
  | .text | .octets | .time | .loc | .blob => true
  | _ => decide (g.1 ≤ x ∧ x ≤ g.2)

/-- Every prefix length of UDP_ALLOW is at most 128. -/
def allowOk (v : Nat) : Bool := (upto 8).all fun i => fld v (144 * i + 128) 8 ≤ 128

/-- Ranges of power, timing and reference objects that are not one span. -/
def rangeTiming (s : State) (idx sub v : Nat) : Bool :=
  if idx = 0x1000 && sub = 2 then v == 0 || 6 ≤ v
  else if 0x1010 ≤ idx && idx < 0x1042 then
    let d := idx - 0x1010
    if sub = 2 then domHas d v else if sub = 3 then v == 1 || (44 ≤ d && d < 48) else true
  else if idx = 0x2004 then
    if sub = 4 then tddOk v (rd s kTiTddMu)
    else if sub = 5 then tddOk (rd s kTiTddPeriod) v
    else if sub = 8 || sub = 9 then v == 0 || 983040000 % v == 0
    else true
  else if idx = 0x2005 && sub = 1 then v < 64 || v == 0xFF
  else if 0x2010 ≤ idx && idx < 0x2018 then
    let r := idx - 0x2010
    if sub = 0x0A then v == 0 || (2 ≤ r && r ≤ 4) else if sub = 0x0E then v < 64 || v == 0xFF else true
  else true

/-- Ranges of the other objects that are not one span. -/
def rangeExtra (s : State) (idx sub v : Nat) : Bool :=
  if idx < 0x1000 then (if idx = 0x0210 && sub = 0x0C then allowOk v else true)
  else if idx < 0x3000 then rangeTiming s idx sub v
  else if 0x3400 ≤ idx && idx < 0x3800 then
    let p := (idx - 0x3400) / 16
    match idx % 16, sub with
    | 1, 4 => (1 ≤ v && v ≤ 4094) || v == 0xFFFF
    | 2, 5 => rd s (kPoTxClose p) + 5000 ≤ v
    | 2, 6 => v + 5000 ≤ rd s (kPoTxOpen p)
    | 2, 8 => rd s (kPoCpAdvMin p) ≤ v
    | 2, 9 => v ≤ rd s (kPoCpAdvMax p)
    | _, _ => true
  else if idx = 0x4000 then
    match sub with
    | 2 => [0, 2400, 2666, 2933, 3200, 4800, 5600, 6400].contains v
    | 3 => [1, 0x11, 0x55, 0xFF].contains v
    | _ => true
  else if idx = 0x4002 then sub > 16 || v % 10 == 0
  else if idx = 0x4004 && sub = 1 then v == 0 || 10 ≤ v
  else if idx = 0x4210 && sub = 1 then locLvl v == 2
  else if idx = 0x5030 then
    match sub with
    | 2 => v % 4096 == 0
    | 3 => v == 2 ^ Nat.log2 v
    | 4 => v < 512 || v == 0xFFFF
    | _ => true
  else if idx = 0x5100 then
    (sub == 1 || rd s (kDiThr (sub - 2)) ≤ v) && (16 ≤ sub || v ≤ rd s (kDiThr sub))
  else if 0x5200 ≤ idx && idx < 0x52C0 && idx % 16 = 8 && sub = 1 then v == 0 || 64 ≤ v
  else true

/-- An object that the present state keeps from being written: RWS while its subsystem runs (R641). -/
def writeHeld (s : State) (idx sub : Nat) : Bool :=
  if idx = 0x4000 then 2 ≤ sub && sub ≤ 6 && !dramStopped s
  else if idx = 0x5030 then (sub == 2 || sub == 3) && rdB s kTrTraceEnable
  else if 0x3400 ≤ idx && idx < 0x3800 then idx % 16 == 2 && sub ≤ 3 && portBound s ((idx - 0x3400) / 16)
  else false

/-- What follows from a write of an object without a row of its own. -/
def afterWrite (idx sub : Nat) (s : State) : State :=
  if idx = 0x1102 && sub = 8 then { s with pow := { s.pow with tripRestart := rdB s kThTripRestart } }
  else if (idx = 0x2000 && (sub = 5 || sub = 6)) || (0x2010 ≤ idx && idx < 0x2018 && (sub = 3 || sub = 9 || sub = 0x0A)) then
    checkSelected s
  else if idx = 0x2001 || (idx = 0x2005 && sub = 5) then refreshQuality s
  else s

/-- A value without an effect of its own is checked and stored. -/
def plainValue (r : ObjRow) (idx sub v : Nat) (l : List Byte) (s : State) : Written :=
  if r.ty = .loc && !locValid v then refusedW .locInvalid s
  else if !inRow r sub v || !rangeExtra s idx sub v then refusedW .range s
  else if r.ty = .text then accepted { s with text := tset (okey idx sub) l s.text }
  else accepted (afterWrite idx sub (wr (okey idx sub) v s))

/-- A write without an effect of its own. -/
def wPlain (r : ObjRow) (idx sub v : Nat) (l : List Byte) (s : State) : Written :=
  if writeHeld s idx sub then refusedW .state s else plainValue r idx sub v l s

/-! ### Objects with an effect of their own -/

/-- A free number below `n`, for a measurement that the write needs (log 9). -/
def pickFrom (n : Nat) (s : State) : Nat × State := let (k, t) := draw s; (Config.freeValue k % n, t)

/-- A write whose effect needs one measurement below 2^16. -/
def measured (f : Nat → State → Written) (s : State) : Written := let (x, t) := pickFrom 65536 s; f x t

/-- Objects of a tenant. -/
def ownTenant (t k sub v : Nat) : Option (State → Written) :=
  match k, sub with
  | 0, 2 => some (wControl t v)
  | 0, 4 => some (wCiAssign t v)
  | 0, 5 => some (wCiRemove t v)
  | 1, _ => if 1 ≤ sub && sub ≤ 0x12 then some (wBudget t (sub - 1) v) else none
  | 2, 1 => some (wVoteSet t v)
  | 5, 1 => some (wFlowLimit t v)
  | 6, 2 => some (wTenantMode t false v)
  | 6, 3 => some (wTenantMode t true v)
  | 6, 4 => some (wDedicate t (fld v 0 64) (fld v 64 16))
  | 6, 5 => some (wReleaseUnit t v)
  | 7, 1 => some (wBindSet t (fld v 0 8) (v / 256))
  | 7, 6 => some (wUnbind t v)
  | 7, 7 => some (wResSet t (fld v 0 8) (fld v 8 8) (v / 65536))
  | 7, 0x0D => some (wIdtQuota t v)
  | _, _ => none

/-- Objects of a lane. -/
def ownLane (n k sub v : Nat) : Option (State → Written) :=
  match k, sub with
  | 0, 4 => some (measured (wReqState n v))
  | 1, 1 => some (wLaneRate n v)
  | 1, 4 => some (wPrecode n v)
  | 1, 5 => some (wTestMode (kLaLoopback n) 2 n v)
  | 1, 6 => some (wTestMode (kLaPrbsGen n) 7 n v)
  | 1, 7 => some (wTestMode (kLaPrbsChk n) 7 n v)
  | 2, 1 => some (wSwing n v)
  | 2, _ => if 2 ≤ sub && sub ≤ 5 then some (wTap n (sub - 2) (toInt 8 v)) else none
  | 3, 1 => some (wCtleMode n v)
  | 3, 2 => some (wCtleCode n v)
  | 3, 6 => some (wCdrBw n v)
  | 4, 5 => some (wLaneRecentre n v)
  | 7, 4 => some (wPrbsClear n v)
  | _, _ => none

/-- Objects of a port. -/
def ownPort (p k sub v : Nat) : Option (State → Written) :=
  match k, sub with
  | 0, 2 => some (wPortMode p v)
  | 7, 1 => some (wAxcBind p v)
  | 7, 2 => some (wAxcUnbind p v)
  | 8, 5 => some (wOwdmStart p v)
  | _, _ => none

/-- Objects of timing and power. -/
def ownTiming (idx sub v : Nat) : Option (State → Written) :=
  if 0x1010 ≤ idx && idx < 0x1042 then
    let d := idx - 0x1010
    match sub with
    | 8 => some (wClkSet d v)
    | 0x0D => some fun s =>
      let (f, s1) := pickFrom 65536 s
      let (c, s2) := pickFrom 4 s1
      measured (fun u => wDomainRecentre d v f u c) s2
    | _ => none
  else if 0x2100 ≤ idx && idx < 0x2300 then (if sub = 1 then some (wCiConfig (idx - 0x2100) v) else none)
  else if 0x2010 ≤ idx && idx < 0x2018 then (if sub = 2 then some (wRefEnable (idx - 0x2010) v) else none)
  else match idx, sub with
    | 0x2000, 3 => some (wLoopMode v)
    | 0x2000, 7 => some (wForceRef v)
    | 0x2000, 9 => some (wSwFreq (toInt 32 v))
    | 0x2003, 7 => some (wDtcAdjust (toInt 64 v))
    | _, _ => none

/-- Objects of placement, engines, DRAM, integrity and the dictionary. -/
def ownOther (idx sub v : Nat) (l : List Byte) : Option (State → Written) :=
  match idx, sub with
  | 0x0200, 4 => some (wImage l)
  | 0x0201, 1 => some (wRestore v)
  | 0x0300, 5 => some (wHistClear v)
  | 0x4000, 7 => some (wStart v)
  | 0x4301, 3 => some fun s =>
    let (x, t) := pickFrom 16 s
    wLedgerWrite v (bitAt x 0) (bitAt x 1) (bitAt x 2) (bitAt x 3) t
  | 0x5000, 1 => some (wTemplatesEnable v)
  | 0x5000, 2 => some (wTemplateSlots v)
  | 0x5306, 1 => some (wLddCapSet v)
  | 0x5307, 1 => some (wSbCount v)
  | 0x5307, 2 => some (wSbNcbMax v)
  | 0x5307, 6 => some (wSbQuotaSet v)
  | 0x5400, 3 => some (wEntry v)
  | 0x6100, 4 => some (wIdtRebuild (fld v 0 32) (fld v 32 32))
  | 0x6100, 9 => some (wBucketsMax v)
  | 0xA200, 1 => some (wLocText l)
  | 0xA200, 2 => some (wLocPacked v)
  | _, _ =>
    if idx = 0x0220 && 1 ≤ sub && sub ≤ 16 then some (wRoute (sub - 1) v)
    else if 0x4100 ≤ idx && idx < 0x4180 then
      (if idx % 16 = 1 && sub = 1 then some (wResume ((idx - 0x4100) / 16) v)
       else if idx % 16 = 2 && sub = 3 then some (wDramRecentre ((idx - 0x4100) / 16) v) else none)
    else if 0x5200 ≤ idx && idx < 0x52C0 && idx % 16 = 10 && sub = 1 then some (wMaintRequest ((idx - 0x5200) / 16) v)
    else if 0xA000 ≤ idx && idx < 0xA040 then
      (if sub = 1 then some (wScanStart (idx - 0xA000) v) else if sub = 4 then some (wScanAbort (idx - 0xA000) v) else none)
    else none

/-- The effect an object gives its write, where it has one of its own. -/
def ownWrite (idx sub v : Nat) (l : List Byte) : Option (State → Written) :=
  if 0x8000 ≤ idx && idx < 0xA000 then ownTenant ((idx - 0x8000) / 16) (idx % 16) sub v
  else if 0x3000 ≤ idx && idx < 0x3400 then ownLane ((idx - 0x3000) / 16) (idx % 16) sub v
  else if 0x3400 ≤ idx && idx < 0x3800 then ownPort ((idx - 0x3400) / 16) (idx % 16) sub v
  else if 0x1000 ≤ idx && idx < 0x3000 then ownTiming idx sub v
  else ownOther idx sub v l

/-- The checks of R646 from the present state on, and the effect. -/
def writeValue (r : ObjRow) (idx sub : Nat) (l : List Byte) (s : State) : Written :=
  let v := ofBytes l
  match ownWrite idx sub v l with
  | some f =>
    -- ranges that a row gives and its effect does not repeat
    match f s with
    | (some a, t) => (some a, t)
    | (none, t) => if inRow r sub v then (none, t) else refusedW .range s
  | none => wPlain r idx sub v l s

/-- A variable type: its value may be shorter than the object's maximum (R640). -/
def variableLen (r : ObjRow) : Bool := r.ty == .text || r.ty == .blob

/-- Access and length (R646 steps 5 and 6): a tenant writes LEAD_TIME only (R202). -/
def writeRefused (req : Option Nat) (r : ObjRow) (idx sub n : Nat) : Option Abort :=
  let tenantOk : Bool := req.isNone || (0x8000 ≤ idx && idx < 0xA000 && idx % 16 == 3 && sub == 1)
  if r.acc = .ro || r.acc = .const || !tenantOk then some .access
  else if variableLen r then (if n ≤ r.size then none else some .length)
  else if n = r.size then none else some .length

/-- Checks 3 to 6 of R646 for a write of `n` octets by the owner (`req` none) or a tenant; with `n` none, but for the length. -/
def writeGate (s : State) (req : Option Nat) (idx sub : Nat) (n : Option Nat) : Except Abort ObjRow :=
  if !s.boot.fwReady then .error .notReady
  else if sub = 0xFF then .error (if (selfDescription s req idx).isSome then .access else .noObject)
  else match seen s req idx sub with
    | none => .error .noObject
    | some r => match writeRefused req r idx sub (n.getD r.size) with
      | some a => .error a
      | none => .ok r

/-- A write by the owner or a tenant, but for STORE and 0xF000.01, whose answers wait or need more (R646). -/
def writeObject (req : Option Nat) (idx sub : Nat) (l : List Byte) (s : State) : Written :=
  match writeGate s req idx sub (some l.length) with
  | .error a => refusedW a s
  | .ok r => writeValue r idx sub l s

end Sys2Proof.Machine
end

