-- ==== Sys2Proof/Machine/Dictionary.lean ====
section
/-!
DEFINITION. PDP (19_object_dictionary.md): messages on CAN FD, UDP and in the mailbox, segmented transfers, the loader of the boot ROM
(R681), notifications, and the rows of the dictionary's own objects.
-/
namespace Sys2Proof.Machine

/-! ### Requests and answers (R649 to R651) -/

/-- A request taken apart: its transport, the peer it is keyed by, the identifier or peer its answer goes to, the tenant it acts for (none
for the owner), its header, payload, and the whole message. -/
structure PdpReq where
  tr : Nat
  peer : Nat
  dest : Nat
  req : Option Nat
  func : Nat
  tid : Nat
  idx : Nat
  sub : Nat
  pay : List Byte
  raw : List Byte
deriving DecidableEq, Repr

/-- A request from a message of at least 8 octets (Table 19-4). -/
def parseReq (tr peer dest : Nat) (req : Option Nat) (l : List Byte) : PdpReq :=
  let h := fieldAt l 0 8
  { tr := tr, peer := peer, dest := dest, req := req, func := fld h 0 8, tid := fld h 8 8, idx := fld h 16 16,
    sub := fld h 46 2 * 256 + fld h 32 8, pay := slice l 8 (fld h 48 16), raw := l }

/-- The answer of a request: a function with RESPONSE set, flags, payload. -/
def respond_ (x : PdpReq) (func flags : Nat) (pay : List Byte) : Reply :=
  let m := pdpMsg (0x80 + func) x.tid x.idx x.sub flags pay
  { out := .pdp x.tr x.dest (if x.tr = 0 then canPad m else m), request := if x.tr = 1 then x.raw else [] }

/-- The ABORT that answers a request. -/
def abortReply (x : PdpReq) (a : Abort) : Reply := respond_ x 6 0 (toBytes 4 a.code)

/-- A request is refused. -/
def refuse (x : PdpReq) (a : Abort) (s : State) : State := giveReply (abortReply x a) s

/-- A write is answered: in force, or refused. -/
def answerWrite (x : PdpReq) (good : Reply) (w : Written) : State :=
  match w.1 with
  | none => giveReply good w.2
  | some a => refuse x a w.2

/-! ### The loader of the boot ROM (R681) -/

/-- The ROM's loader serves CAN FD: on the CAN path, or on the flash path with neither slot accepted. -/
def loaderUp (s : State) : Bool :=
  d0Runs s && s.boot.romRan && !s.boot.fwReady && s.boot.loaded.isNone && (fld s.boot.straps 0 2 == 0 || fld s.boot.straps 0 2 == 2)

/-- Objects that the loader reads. -/
def loaderReads (idx sub : Nat) : Bool := (idx == 0x0100 && 1 ≤ sub && sub ≤ 9) || (idx == 0x0102 && 1 ≤ sub && sub ≤ 3)

/-- The ROM accepts an image: it starts next. -/
def romLoad (m : FwImage) (running : Nat) (s : State) : State :=
  { s with boot := { s.boot with loaded := some m, running := running } }

/-! ### What a request does -/

/-- 0xF000.01, the firmware image, is the owner's (R682). -/
def isFirmware (x : PdpReq) : Bool := x.idx == 0xF000 && x.sub == 1 && x.req.isNone

/-- A whole value is written: `good` answers it when it is in force (R645, R664). -/
def serveWrite (x : PdpReq) (good : Reply) (l : List Byte) (s : State) : State :=
  if isFirmware x then
    if !s.boot.fwReady then
      (if fwCheck s (fwImage l) = 2 then giveReply good (romLoad (fwImage l) 2 s) else refuse x .image s)
    else
      let (k, t) := draw s
      answerWrite x good (wFirmware l (Config.freeBit k) t)
  else if x.idx = 0x0200 && x.sub = 1 then
    match writeGate s x.req x.idx x.sub (some l.length) with
    | .error a => refuse x a s
    | .ok _ => match wStore (ofBytes l) (good, abortReply x .flash) s with
      | (none, t) => t
      | (some a, t) => refuse x a t
  else
    let w := writeObject x.req x.idx x.sub l s
    if x.idx = 0x5400 && x.sub = 3 && w.1.isNone then entryAnswer (ofBytes l) good w else answerWrite x good w

/-- READ (Table 19-5). -/
def serveRead (x : PdpReq) (s : State) : State :=
  let v := if loaderUp s then
      (if loaderReads x.idx x.sub then (match objRow? x.idx x.sub with
        | some r => .ok (objBytes s r x.idx x.sub)
        | none => .error .notReady)
       else .error .notReady)
    else readObject s x.req x.idx x.sub
  match v with
  | .error a => refuse x a s
  | .ok l => if maxPayload x.tr < l.length then refuse x .segmentedRequired s else giveReply (respond_ x 1 0 l) s

/-- WRITE. -/
def serveWriteFn (x : PdpReq) (s : State) : State :=
  if loaderUp s then refuse x .notReady s
  else if maxPayload x.tr < x.pay.length then
    match writeGate s x.req x.idx x.sub none with
    | .error a => refuse x a s
    | .ok _ => refuse x .segmentedRequired s
  else serveWrite x (respond_ x 2 0 []) x.pay s

/-! ### Segmented transfers (R652) -/

/-- The transfer keyed by a request. -/
def segOf (s : State) (x : PdpReq) : Option SegXfer :=
  s.dict.segs.find? fun g => g.transport == x.tr && g.peer == x.peer && g.tid == x.tid
/-- It is closed. -/
def closeSeg (x : PdpReq) (s : State) : State :=
  { s with dict := { s.dict with segs := s.dict.segs.filter fun g => !(g.transport == x.tr && g.peer == x.peer && g.tid == x.tid) } }
/-- A transfer is opened or goes on. -/
def putSeg (x : PdpReq) (write : Bool) (total : Nat) (data : List Byte) (s : State) : State :=
  let g : SegXfer := { transport := x.tr, peer := x.peer, tid := x.tid, write := write, idx := x.idx, sub := x.sub, total := total,
                       data := data, last := now s }
  let t := closeSeg x s
  { t with dict := { t.dict with segs := t.dict.segs ++ [g] } }
/-- A new transfer finds no free slot: four others of its peer are open. -/
def segBusy (s : State) (x : PdpReq) : Bool :=
  4 ≤ (s.dict.segs.filter fun g => g.transport == x.tr && g.peer == x.peer && g.tid != x.tid).length

/-- The octets of a snapshot from `ofs` on; the transfer ends with them when they reach its end. -/
def giveSegment (x : PdpReq) (l : List Byte) (ofs lim : Nat) (s : State) : State :=
  let part := slice l ofs lim
  let last : Bool := ofs + part.length == l.length
  giveReply (respond_ x 3 (b2n last) (toBytes 4 l.length ++ part)) (if last then closeSeg x s else putSeg x false l.length l s)

/-- READ_SEG. -/
def serveReadSeg (x : PdpReq) (s : State) : State :=
  let ofs := fieldAt x.pay 0 4
  let want := fieldAt x.pay 4 4
  let lim := if want = 0 then maxPayload x.tr - 4 else min want (maxPayload x.tr - 4)
  if loaderUp s then refuse x .notReady s
  else if ofs = 0 then
    match readObject s x.req x.idx x.sub with
    | .error a => refuse x a s
    | .ok l => if segBusy s x then refuse x .busy s else giveSegment x l 0 lim s
  else match segOf s x with
    | some g =>
      if g.write || g.idx != x.idx || g.sub != x.sub || decide (g.total < ofs) then refuse x .sequence s else giveSegment x g.data ofs lim s
    | none => refuse x .sequence s

/-- More octets of a segmented write: with the last the value is applied. -/
def moreSegment (x : PdpReq) (total : Nat) (l : List Byte) (s : State) : State :=
  if total < l.length then refuse x .sequence (closeSeg x s)
  else if l.length < total then giveReply (respond_ x 4 0 (toBytes 4 l.length)) (putSeg x true total l s)
  else serveWrite x (respond_ x 4 1 (toBytes 4 total)) l (closeSeg x s)

/-- What stops a segmented write at its opening: checks 3 to 5 of R646. -/
def segOpenRefused (x : PdpReq) (s : State) : Option Abort :=
  if isFirmware x then (if s.boot.fwReady || loaderUp s then none else some .notReady)
  else match writeGate s x.req x.idx x.sub none with
    | .error a => some a
    | .ok _ => none

/-- WRITE_SEG. -/
def serveWriteSeg (x : PdpReq) (s : State) : State :=
  let total := fieldAt x.pay 0 4
  let ofs := fieldAt x.pay 4 4
  let data := x.pay.drop 8
  if ofs = 0 then
    match segOpenRefused x s with
    | some a => refuse x a s
    | none => if segBusy s x then refuse x .busy s else moreSegment x total data s
  else match segOf s x with
    | some g =>
      if !g.write || g.idx != x.idx || g.sub != x.sub || g.total != total || ofs != g.data.length then refuse x .sequence (closeSeg x s)
      else moreSegment x total (g.data ++ data) s
    | none => refuse x .sequence s

/-! ### One message (R646, R649 to R651) -/

/-- A message that is not served is counted. -/
def discardMsg (tr : Nat) (s : State) : State := bump (kDyPdpStats (4 * tr + 2)) s

/-- A message that reached the device: `framed` tells that its LEN agrees with its frame. A client's ABORT has no answer. -/
def serveMessage (x : PdpReq) (framed : Bool) (s0 : State) : State :=
  let len := fieldAt x.raw 6 2
  let head : Bool := framed && fld (fieldAt x.raw 5 1) 2 4 == 0
  if x.func = 6 then (if head && len = 4 then closeSeg x (bump (kDyPdpStats (4 * x.tr)) s0) else discardMsg x.tr s0)
  else
    let s := bump (kDyPdpStats (4 * x.tr)) s0
    let longest := if x.func = 2 then 65535 else maxPayload x.tr
    if !head || longest < len || (x.func = 1 && len ≠ 0) || (x.func = 3 && len ≠ 8) || (x.func = 4 && len < 8) then refuse x .header s
    else match x.func with
      | 1 => serveRead x s
      | 2 => serveWriteFn x s
      | 3 => serveReadSeg x s
      | 4 => serveWriteSeg x s
      | _ => refuse x .function s

/-! ### CAN FD and UDP (R653 to R656) -/

/-- The node ID in force: 1 in the loader. -/
def canNode (s : State) : Nat := if loaderUp s then 1 else rd s kDyCanNode

/-- The CAN FD port serves: the firmware or the ROM's loader runs, the port is enabled, the node is not off the bus. -/
def canServes (s : State) : Bool :=
  loaderUp s || (d0Runs s && s.boot.fwReady && rdB s kDyCanEnable && rd s kDyCanState != 2)

/-- The management Ethernet port is up (R709). -/
def mgmtUp (s : State) : Bool := d0Runs s && s.boot.fwReady && s.dict.phyUp

/-- The first `n` bits of two addresses agree, bits counted from the first octet's most significant bit on. -/
def samePrefix (a b : List Byte) (n : Nat) : Bool :=
  (upto n).all fun i => (a.getD (i / 8) 0).getLsbD (7 - i % 8) == (b.getD (i / 8) 0).getLsbD (7 - i % 8)

/-- A peer lies in a prefix of UDP_ALLOW, or UDP_ALLOW holds none. -/
def udpAllowed (s : State) (peer : Nat) : Bool :=
  let v := toBytes 144 (rd s kDyUdpAllow)
  let used := (upto 8).filter fun i => fieldAt v (18 * i + 16) 1 != 0
  used.isEmpty || used.any fun i => samePrefix (slice v (18 * i) 16) (toBytes 16 peer) (fieldAt v (18 * i + 16) 1)

/-- The stored response of an equal request answered within the last 1 s. -/
def storedAnswer (s : State) (peer : Nat) (l : List Byte) : Option (List Byte) :=
  (s.dict.answered.find? fun a => a.1 == peer && a.2.1 == l && now s - a.2.2.2 ≤ secToTc 1).map (·.2.2.1)

/-- The function code of a message. -/
def msgFunc (l : List Byte) : Nat := fieldAt l 0 1

/-- A message on CAN FD or UDP. -/
def receive (v : PdpVia) (l : List Byte) (s : State) : State :=
  match v with
  | .can id fd =>
    if !canServes s || id.toNat ≠ 0x400 + canNode s then s
    else if !fd || l.length < 8 then discardMsg 0 s
    else serveMessage (parseReq 0 0 (0x480 + canNode s) none l) (decide (fieldAt l 6 2 + 8 ≤ l.length)) s
  | .udp peer =>
    if !mgmtUp s || !rdB s kDyUdpEnable then s
    else if l.length < 8 || !udpAllowed s peer.toNat then discardMsg 1 s
    else match storedAnswer s peer.toNat l with
      | some r => send (.pdp 1 peer.toNat r) s
      | none => serveMessage (parseReq 1 peer.toNat peer.toNat none l) (fieldAt l 6 2 + 8 == l.length) s

/-- READ: a message with the function READ, or with one that no other row has, which is refused. -/
def execRead (v : PdpVia) (l : List Byte) (s : State) : Res :=
  whenDue (!([2, 3, 4, 6].contains (msgFunc l))) (receive v l) s
/-- WRITE. -/
def execWrite (v : PdpVia) (l : List Byte) (s : State) : Res := whenDue (msgFunc l == 2) (receive v l) s
/-- READ_SEG. -/
def execReadSeg (v : PdpVia) (l : List Byte) (s : State) : Res := whenDue (msgFunc l == 3) (receive v l) s
/-- WRITE_SEG. -/
def execWriteSeg (v : PdpVia) (l : List Byte) (s : State) : Res := whenDue (msgFunc l == 4) (receive v l) s
/-- ABORT. -/
def execAbort (v : PdpVia) (l : List Byte) (s : State) : Res := whenDue (msgFunc l == 6) (receive v l) s

/-- SEG_TIMEOUT: a transfer idle for 1 s closes; on CAN FD and UDP the device says so (R652). -/
def execSegTimeout (tr : Fin 3) (peer : BitVec 144) (tid : Byte) (s : State) : Res :=
  let x : PdpReq := { tr := tr.val, peer := if tr.val = 0 then 0 else peer.toNat, dest := 0, req := none, func := 0, tid := tid.toNat, idx := 0,
                      sub := 0, pay := [], raw := [] }
  match segOf s x with
  | some g =>
    let dest := if tr.val = 0 then 0x480 + canNode s else x.peer
    whenDue (decide (secToTc 1 ≤ now s - g.last)) (fun s =>
      if tr.val = 2 then closeSeg x s
      else
        let m := pdpMsg 0x86 g.tid g.idx g.sub 0 (toBytes 4 Abort.timeout.code)
        bump (kDyPdpStats (4 * tr.val + 1)) (send (.pdp tr.val dest (if tr.val = 0 then canPad m else m)) (closeSeg x s))) s
  | none => done s

/-- BUS_OFF: error counting moves the node between error active (0), error passive (1) and bus off (2). -/
def execBusOff (st : Fin 3) (s : State) : Res := whenDue (d0Runs s && rdB s kDyCanEnable) (wr kDyCanState st.val) s

/-- MGMT_HOUSEKEEPING: 0 ARP, 1 neighbour discovery, 2 ICMP echo over IPv4, 3 over IPv6; IPv4 is off while its address is 0 (R656). -/
def execMgmtHousekeeping (kind : Fin 4) (s : State) : Res :=
  whenDue (mgmtUp s && (kind.val % 2 == 1 || rd s kDyIpv4Addr != 0)) (send (.housekeeping kind.val)) s

/-- MGMT_PHY_POLL: the PHY reports a 1000 Mb/s full-duplex link, or not (R709). -/
def execMgmtPhyPoll (up : Bool) (s : State) : Res :=
  whenDue (d0Runs s && s.boot.fwReady) (fun s => { s with dict := { s.dict with phyUp := up } }) s

/-! ### The mailbox (R657 to R659) -/

/-- A GO is served: the request area holds one message. -/
def mailboxServe (f : Nat) (s : State) : State :=
  let m := (fnOf s f).mbox
  let l := padTo (max 8 (min m.reqLen 8192)) m.req
  let x := parseReq 2 f f (if f = 0 then none else some f) l
  if f ≠ 0 && !rdB s kDyMailboxVf then refuse x .access (bump (kDyPdpStats 8) s)
  else
    let framed : Bool := 8 ≤ m.reqLen && m.reqLen ≤ 4104 && fieldAt l 6 2 + 8 == m.reqLen
    let s1 := if framed then serveMessage x true s else refuse x .header (bump (kDyPdpStats 8) s)
    if x.func = 6 && framed then modFn f (fun r => { r with mbox := { r.mbox with busy := false } }) s1 else s1

/-- A write of MB_CTRL; with GO it submits the request area, or is counted while BUSY. -/
def mailboxCtrl (f be v : Nat) (s : State) : State :=
  let s1 := mailboxWrite f 0x8000 be v s
  let m := (fnOf s1 f).mbox
  if !(bitAt be 0 && bitAt v 0) then s1
  else if m.busy then modFn f (fun r => { r with mbox := { m with goIgnored := satAdd 32 m.goIgnored 1 } }) s1
  else mailboxServe f (modFn f (fun r => { r with mbox := { m with busy := true, done := false } }) s1)

/-- MAILBOX_GO. -/
def execMailboxGo (fn : TenantId) (be : BitVec 4) (v : Word) (s : State) : Res :=
  let f := fn.val
  if !contiguous be.toNat then done (badAccess f false true 0x8000 be.toNat s)
  else whenDue s.boot.fwReady (mailboxCtrl f be.toNat v.toNat) s

/-- REGISTER_WRITE: a host write of one dword of BAR0. A longer write is a run of these (R621). -/
def execRegisterWrite (fn : TenantId) (ofs : BitVec 14) (be : BitVec 4) (v : Word) (s : State) : Res :=
  let f := fn.val
  let o := 4 * ofs.toNat
  if !contiguous be.toNat then done (badAccess f false true o be.toNat s)
  else if o = 0x8000 then whenDue s.boot.fwReady (mailboxCtrl f be.toNat v.toNat) s
  else done (regWrite f o be.toNat v.toNat s)

/-- MAILBOX_DONE_CLEAR: 1 written to DONE clears it. -/
def execMailboxDoneClear (fn : TenantId) (s : State) : Res :=
  done (modFn fn.val (fun r => { r with mbox := { r.mbox with done := false } }) s)

/-! ### Notifications (R661, R662) -/

/-- NOTIFY_INTERVAL: a route's interval is over, or a change is seen, and its value is notified. -/
def execNotifyInterval (i : Fin 16) (s : State) : Res :=
  match routeDue s i.val with
  | some v => done (routeNotify i.val v s)
  | none => done s

/-- One waiting notification of each transport is sent. -/
def sendNotify (s : State) : State :=
  let s1 := match s.dict.canQueue with
    | m :: r => if canServes s then
        bump (kDyPdpStats 3) (send (.pdp 0 (0x100 + canNode s) m) { s with dict := { s.dict with canQueue := r } })
      else s
    | [] => s
  match s1.dict.udpQueue with
  | (peer, m) :: r => if mgmtUp s1 && rdB s1 kDyUdpEnable then
      bump (kDyPdpStats 7) (send (.pdp 1 peer m) { s1 with dict := { s1.dict with udpQueue := r } })
    else s1
  | [] => s1

/-! ### The store, the history and location queries as writes of their own -/

/-- STORE. -/
def execStore (v : Word) (s : State) : Res :=
  match wStore v.toNat ({ out := .reply 0 }, { out := .reply Abort.flash.code }) s with
  | (none, t) => done t
  | (some a, t) => answer (some a, t)

/-- STORE_DONE: each copy was read back, `a1` and `b1` at once, `a2` and `b2` after the retry. -/
def execStoreDone (a1 a2 b1 b2 : Bool) (s : State) : Res :=
  match s.dict.storing with
  | some l => done (storeEnd (a1 || a2) (b1 || b2) l s)
  | none => done s

/-- RESTORE_DEFAULTS. -/
def execRestoreDefaults (v : Word) (s : State) : Res := answer (wRestore v.toNat s)
/-- IMAGE_WRITE. -/
def execImageWrite (l : List Byte) (s : State) : Res := answer (if 4194304 < l.length then refusedW .length s else wImage l s)
/-- HIST_CLEAR. -/
def execHistClear (v : Word) (s : State) : Res := answer (wHistClear v.toNat s)
/-- LOC_TEXT. -/
def execLocText (l : List Byte) (s : State) : Res := answer (if 40 < l.length then refusedW .length s else wLocText l s)
/-- LOC_PACKED. -/
def execLocPacked (v : BitVec 64) (s : State) : Res := answer (wLocPacked v.toNat s)
/-- FIRMWARE_WRITE. -/
def execFirmwareWrite (l : List Byte) (readBack : Bool) (s : State) : Res := answer (wFirmware l readBack s)

end Sys2Proof.Machine
end

