-- ==== Sys2Proof/Machine/Signal.lean ====
section
/-!
DEFINITION. The signal engines (09_signal_engines.md): transforms, PRACH extraction, channel estimation, equalisation and beam
weights. A transform is computed exactly and its result is a free value within the stated bound; where the manual bounds no
arithmetic error, results are free values in the stated layout (log 31).
-/
namespace Sys2Proof.Machine

/-! ### Transforms (R323 to R326) -/

/-- Complex samples of a byte list (R56). -/
def samplesOf (l : List Byte) (n : Nat) : List (Int × Int) :=
  (upto n).map fun i => (toInt 16 (fieldAt l (4 * i) 2), toInt 16 (fieldAt l (4 * i + 2) 2))
/-- Prefix samples of symbol s. -/
def fftCp (b s : Nat) : Nat := if !bitAt b 3 then 0 else if bitAt (pf b 8 0 14) s then pf b 6 0 12 else pf b 4 0 12
/-- Samples of the time domain before transform t. -/
def fftBefore (b t : Nat) : Nat :=
  let nsym := max 1 (pf b 10 0 4)
  sumBy (upto t) fun i => fftLen (pf b 0 0 3) + fftCp b (i % nsym)
/-- Twice the signed bin of subcarrier k, the half shift in it (R325). -/
def fftBin2 (b k : Nat) : Int :=
  let nsc := pf b 2 0 13
  let skip := bitAt b 5 && decide (nsc / 2 ≤ k)
  2 * ((k : Int) - (nsc / 2 : Nat) + (if skip then 1 else 0)) + (if bitAt b 4 then 1 else 0)
/-- e^(jπ m ÷ N), to the working precision. -/
def rootOf (m : Int) (n : Nat) : Int × Int := expPi 64 ((m % (2 * n : Int)).toNat * 2 ^ 63 / n)

/-- A result component v × 2^(−prec − sh): within 2 LSB of the exactly rounded value, saturated; and whether it saturated (R325). -/
def fftComp (v : Int) (sh : Nat) (s : State) : Int × Bool × State :=
  let eps : Int := 2 ^ (prec - 20)
  let (x, s1) := within (roundShift (v - eps) (prec + sh) - 2) (roundShift (v + eps) (prec + sh) + 2) s
  ((satS 16 x).1, (satS 16 x).2, s1)
/-- Both components of each sum; the saturations counted. -/
def fftOut (l : List (Int × Int)) (sh : Nat) (s : State) : List Byte × Nat × State :=
  l.foldl (fun (p : List Byte × Nat × State) z =>
    let (a, sa, s1) := fftComp z.1 sh p.2.2
    let (b, sb, s2) := fftComp z.2 sh s1
    (p.1 ++ toBytes 2 (ofInt 16 a) ++ toBytes 2 (ofInt 16 b), p.2.1 + b2n sa + b2n sb, s2)) ([], 0, s)
/-- Σ of samples times roots. -/
def dotRoots (l : List ((Int × Int) × (Int × Int))) : Int × Int :=
  l.foldl (fun a e =>
    let p := cmul false e.1 e.2
    (a.1 + p.1, a.2 + p.2)) (0, 0)

/-- Transform t of an FFT or IFFT job. -/
def fftDo (inv : Bool) (x : Chunk) (t : Nat) (s : State) : Bool × State :=
  let b := x.b
  let n := fftLen (pf b 0 0 3)
  let nsc := pf b 2 0 13
  let cp := fftCp b (t % max 1 (pf b 10 0 4))
  let time := 4 * fftBefore b t
  let freq := 4 * t * nsc
  let (l, bad) := if inv then x.read 0 (pf b 12 0 32 + freq) (4 * nsc) s else x.read 0 (pf b 12 0 32 + time + 4 * cp) (4 * n) s
  let xs := samplesOf l (if inv then nsc else n)
  let sums := if inv then
      (upto (cp + n)).map fun (i : Nat) => dotRoots (List.zipWith (fun (k : Nat) v => (v, rootOf (fftBin2 b k * ((i : Int) - cp)) n)) (upto nsc) xs)
    else (upto nsc).map fun k => dotRoots (List.zipWith (fun (i : Nat) v => (v, rootOf (-(fftBin2 b k * (i : Int))) n)) (upto n) xs)
  let (out, sat, s1) := fftOut sums (pf b 1 0 4) s
  let s2 := x.put 1 (pf b 16 0 32 + (if inv then time else freq)) out bad s1
  (bad, bumpBy 64 (kEnFfeSaturations x.grp) sat s2)

/-- A chunk of an FFE whose quanta are independent. -/
def ffeChunk (e : EngId) (op : Nat) (f : Chunk → State → Bool × State) (s : State) : Res :=
  let g := e.val / 15
  engineChunk e op (kEnFfeParamErrors g) (kEnFfeJobs g) (fun x t =>
    let r := f x t
    (r.1, bumpBy 64 (kEnFfeTransforms g) x.run.n r.2)) s
/-- Quanta one after another. -/
def eachQuantum (f : Chunk → Nat → State → Bool × State) (x : Chunk) (s : State) : Bool × State :=
  x.quanta.foldl (fun (p : Bool × State) q =>
    let (bad, t) := f x q p.2
    (p.1 || bad, t)) (false, s)

/-- FFT. -/
def execFft (e : EngId) (s : State) : Res := ffeChunk e 0x040 (eachQuantum (fftDo false)) s
/-- IFFT. -/
def execIfft (e : EngId) (s : State) : Res := ffeChunk e 0x041 (eachQuantum (fftDo true)) s

/-! ### PRACH extraction (R327 to R331) -/

/-- A detection: strength, preamble, record bits beyond PREAMBLE. -/
structure PrachDet where
  strength : Nat
  v : Nat
  rest : Nat

/-- Preambles that pass, with their records: what passes is a free choice, ROOT follows the preamble in the unrestricted set. -/
def prachFound (b : Nat) (s : State) : List PrachDet × State :=
  (upto (pf b 6 0 7)).foldl (fun (p : List PrachDet × State) v =>
    let (hit, s1) := pick 2 p.2
    if hit = 0 then (p.1, s1)
    else
      let (st, s2) := pick (2 ^ 32) s1
      let (delay, s3) := pick (2 ^ 32) s2
      let (snr, s4) := pick (2 ^ 32) s3
      let (open_, s5) := pick (prachL (pf b 0 0 2) - 1) s4
      let root := if pf b 0 2 2 = 0 then (pf b 2 0 11 + v / prachPerRoot (prachL (pf b 0 0 2)) (pf b 4 0 10)) % (prachL (pf b 0 0 2) - 1) else open_
      (p.1 ++ [{ strength := st, v := v, rest := pack [(16, 11, root), (32, 32, delay), (64, 32, snr)] }], s5)) ([], s)

/-- PRACH_EXTRACT: the correlations of the last chunk end the job's detection, and its output is written (Table 9-6). -/
def prachDo (x : Chunk) (s : State) : Bool × State :=
  let b := x.b
  let bad := (x.read 0 0 (pf b 8 0 7 * pf b 9 0 4 * 4608) s).2
  if !x.last then (bad, s)
  else
    let (all, s1) := prachFound b s
    let (noise, s2) := pick 65536 s1
    let best := (sortBy (fun (a c : PrachDet) => c.strength < a.strength || (c.strength == a.strength && a.v ≤ c.v)) all).take (pf b 7 0 7)
    let kept := sortBy (fun (a c : PrachDet) => a.v ≤ c.v) best
    let head := pack [(0, 7, kept.length), (7, 1, b2n (kept.length < all.length)), (8, 7, prachRoots b), (16, 16, noise)]
    let out := toBytes 16 head ++ kept.flatMap fun d => toBytes 16 (d.rest + d.v)
    (bad, bumpBy 64 (kEnPrachDetections x.grp) kept.length (x.put 1 (pf b 16 0 32) out bad s2))
/-- PRACH_EXTRACT. -/
def execPrachExtract (e : EngId) (s : State) : Res := ffeChunk e 0x048 prachDo s

/-! ### Channel estimation (R332 to R336) -/

/-- Free output bytes at a reference. -/
def putFree (x : Chunk) (k ofs n : Nat) (bad : Bool) (s : State) : State :=
  let (l, s1) := pickBytes n s
  x.put k ofs l bad s1
/-- Subcarriers of the CI. -/
def ciSub (s : State) (x : Chunk) : Nat := 12 * ciPrbs (ciDesc s x.g.ci)
/-- Saturated components: a number the manual does not fix, at most `n`. -/
def freeSat (k n : Nat) (s : State) : State :=
  let (c, s1) := pick (n + 1) s
  bumpBy 64 k c s1

/-- CHANNEL_ESTIMATE: the last chunk has seen every pilot, and estimate, covariance and report are written. -/
def cheDo (x : Chunk) (s : State) : Bool × State :=
  let b := x.b
  let kind := pf b 0 0 3
  let nl := pf b 1 0 5
  let nant := pf b 2 0 7
  let nprb := pf b 6 0 9
  let syms := if bitAt b 3 then [pf b 8 0 4, pf b 8 0 4 + 1] else [pf b 8 0 4]
  let at_ := fun a k => 4 * ((a * pf b 9 0 4 + k) * ciSub s x + 12 * pf b 4 0 9)
  let bad := (upto nant).any fun a => syms.any fun k => (x.read 0 (at_ a k) (48 * nprb) s).2
  if !x.last then (bad, s)
  else
    let mats := if kind = 4 then ceilDiv nprb (max 1 (pf b 11 0 5)) else 12 * nprb
    let groups := ceilDiv nprb (max 1 (pf b 3 0 4))
    let s1 := putFree x 1 (pf b 16 0 32) (4 * mats * nl * nant) bad s
    let s2 := if bitAt b 6 then putFree x 2 (pf b 20 0 32) (4 * groups * nant * nant) bad s1 else s1
    let (noise, s3) := pick 65536 s2
    let (tofs, s4) := pick (2 ^ 32) s3
    let (sinr, s5) := pickBytes (2 * nl) s4
    let report := toBytes 16 (pack [(0, 8, 1), (8, 5, nl), (16, 9, nprb), (32, 16, noise), (64, 32, tofs)]) ++ padTo 48 sinr
    let s6 := if bitAt b 7 then x.put 3 (pf b 24 0 32) report bad s5 else s5
    (bad, freeSat (kEnEqeSaturations x.grp) (2 * mats * nl * nant + 2 * groups * nant * nant) s6)

/-- A chunk of an EQE. -/
def eqeChunk (e : EngId) (op : Nat) (f : Chunk → State → Bool × State) (s : State) : Res :=
  let g := e.val / 15
  engineChunk e op (kEnEqeParamErrors g) (kEnEqeJobs g) (fun x t =>
    let r := f x t
    (r.1, bumpBy 64 (kEnEqeRes g) x.run.n r.2)) s
/-- CHANNEL_ESTIMATE. -/
def execChannelEstimate (e : EngId) (s : State) : Res := eqeChunk e 0x050 cheDo s

/-! ### Equalisation (R337 to R340) -/

/-- Every pivot of a Hermitian matrix is positive: elimination without fractions, each step's division by the pivot before is
exact. -/
def pivotsPositive : Nat → Int → CMat → Bool
  | 0, _, _ => true
  | n + 1, prev, m => match m with
    | [] => true
    | top :: rest =>
      let p := (top.headD (0, 0)).1
      if p ≤ 0 then false
      else
        let row := fun (r : List (Int × Int)) =>
          let h := r.headD (0, 0)
          List.zipWith (fun (u v : Int × Int) =>
            let q := cmul false h v
            ((p * u.1 - q.1) / prev, (p * u.2 - q.2) / prev)) r.tail top.tail
        pivotsPositive n p (rest.map row)
/-- An A × A covariance from its bytes: the lower triangle mirrored, the diagonal real (Table 9-3). -/
def covMatrix (l : List Byte) (a : Nat) : CMat :=
  let z := samplesOf l (a * a)
  let el := fun i j => z.getD (i * a + j) (0, 0)
  (upto a).map fun i => (upto a).map fun j =>
    if i = j then ((el i i).1, 0) else if j < i then el i j else ((el j i).1, -(el j i).2)

/-- EQUALISE of data RE n. -/
def equDo (x : Chunk) (n : Nat) (s : State) : Bool × State :=
  let b := x.b
  let nl := pf b 1 0 5
  let nant := pf b 2 0 7
  let sub := 12 * pf b 6 0 9
  let k := n % max 1 sub
  let sym := (symsOf (pf b 8 0 14)).getD (n / max 1 sub) 0
  let wg := max 1 (pf b 3 4 4)
  let mid := k / wg * wg + wg / 2
  let cg := k / wg * wg / 12 / max 1 (pf b 3 0 4)
  let y := (upto nant).any fun a => (x.read 0 (4 * ((a * pf b 10 0 4 + sym) * ciSub s x + 12 * pf b 4 0 9 + k)) 4 s).2
  let h := (x.read 1 (pf b 12 0 32 + 4 * mid * nl * nant) (4 * nl * nant) s).2
  let (rl, r) := x.read 2 (pf b 16 0 32 + 4 * cg * nant * nant) (4 * nant * nant) s
  let bad := y || h || r
  let s1 := putFree x 3 (pf b 20 0 32 + 4 * n * nl) (4 * nl) bad s
  let s2 := if bitAt b 1 && n < sub && k % 12 == 0 then putFree x 4 (pf b 24 0 32 + 2 * (k / 12 * nl)) (2 * nl) bad s1 else s1
  let fallback := !bitAt b 0 && n < sub && k % (12 * max 1 (pf b 3 0 4)) == 0 && !pivotsPositive nant 1 (covMatrix rl nant)
  let s3 := if fallback then bump (kEnIrcFallback x.grp) s2 else s2
  (bad, freeSat (kEnEqeSaturations x.grp) (2 * nl) s3)
/-- EQUALISE. -/
def execEqualise (e : EngId) (s : State) : Res := eqeChunk e 0x051 (eachQuantum equDo) s

/-! ### Beam weights (R341 to R343) -/

/-- GᴴG + αI times a power of two: α is ALPHA_M × 2^ALPHA_E, and a negative exponent scales the product up. -/
def gram (z : List (Int × Int)) (l a m : Nat) (e : Int) : CMat :=
  let el := fun i k => z.getD (i * a + k) (0, 0)
  (upto l).map fun i => (upto l).map fun j =>
    let p := (upto a).foldl (fun (t : Int × Int) k =>
      let q := cmul true (el j k) (el i k)
      (t.1 + q.1, t.2 + q.2)) (0, 0)
    let up : Int := 2 ^ (-e).toNat
    let alpha : Int := if i = j then (m : Int) * 2 ^ e.toNat else 0
    (p.1 * up + alpha, p.2 * up)
/-- `n` free singular values, strongest first. -/
def freeSv (n : Nat) (s : State) : List Nat × State :=
  let r := (upto n).foldl (fun (p : List Nat × State) _ =>
    let (v, t) := pick 65536 p.2
    (v :: p.1, t)) ([], s)
  (sortBy (fun a b => b ≤ a) r.1, r.2)

/-- BEAM_WEIGHTS of channel matrix q of the job. A singular value that is not 0 lies above 2^−16 of the largest; SV_EXP without singular values is
not stated. -/
def bweDo (x : Chunk) (q : Nat) (s : State) : Bool × State :=
  let b := x.b
  let m := pf b 0 0 2
  let l := pf b 1 0 5
  let a := pf b 2 0 7
  let rows := if m = 2 then pf b 3 0 5 else l
  let (gl, bad) := x.read 0 (pf b 8 0 32 + 4 * q * l * a) (4 * l * a) s
  let z := samplesOf gl (l * a)
  let deficient := m != 2 && !pivotsPositive l 1 (gram z l a (if m = 0 then fld b 32 16 else 0) (if m = 0 then toInt 8 (fld b 48 8) else 0))
  let (ex, s1) := pick 65536 s
  let (sat0, s2) := pick 2 s1
  let (sv, s3) := freeSv (min l a) s2
  let big := (sv.filter (· != 0)).length
  let (more, s4) := pick (min l a + 1 - big) s3
  let rank := big + more
  let (se, s5) := pick 65536 s4
  let (w0, s6) := pickBytes (4 * a * rows) s5
  let sat := if deficient then 0 else sat0
  let svs := (if m = 2 then pack ((upto sv.length).map fun i => (64 + 16 * i, 16, sv.getD i 0)) else 0) + 2 ^ 32 * se
  let head := pack [(0, 16, ex), (16, 5, if m = 2 then rank else if deficient then 0 else l), (24, 1, b2n deficient), (25, 1, sat)] + svs
  let w := if deficient then List.replicate (4 * a * rows) 0 else w0
  let s7 := x.put 1 (pf b 12 0 32 + q * pf b 16 0 32) (toBytes 64 head ++ w) bad s6
  let s8 := if deficient then bump (kEnRankDeficient x.grp) s7 else s7
  (bad, if sat = 1 then bump (kEnBweSaturations x.grp) s8 else s8)
/-- BEAM_WEIGHTS. -/
def execBeamWeights (e : EngId) (s : State) : Res :=
  let g := e.val / 15
  engineChunk e 0x058 (kEnBweParamErrors g) (kEnBweJobs g) (fun x t =>
    let r := eachQuantum bweDo x t
    (r.1, bumpBy 64 (kEnBweMatrices g) x.run.n r.2)) s

end Sys2Proof.Machine
end

