-- ==== Sys2Proof/Machine/Startup.lean ====
section
/-!
DEFINITION. Start-up and recovery (20_startup_and_recovery.md): rails, resets, the boot ROM and its paths, first configuration, the
recovery flows that end on an event of their own, the loss of the oscillator.
-/
namespace Sys2Proof.Machine

/-! ### Rails (R672 to R676) -/

/-- VAON_PGOOD: VAON is up and D1 starts; a cold boot begins at step 2 of Table 20-2. From PS8 it needs a wake event (R596, R686). -/
def execVaonPgood (s : State) : Res :=
  let asleep : Bool := deviceState s == 8
  whenDue (!s.boot.pgood.getD 0 false && (!asleep || s.pow.exit_.isSome)) (fun s =>
    powerUp (wr kPwDeviceState 0 { s with
      boot := { s.boot with
        vaon := true, pwrEn := s.boot.pwrEn.set 0 true, pgood := s.boot.pgood.set 0 true, cause := if asleep then 0x02 else 0x01,
        railsOff := false, railFails := [], retryAt := none }
      pow := { s.pow with exit_ := none, tripPending := false }
      tim := { s.tim with uptime := 0 } })) s

/-- The next rail to enable. -/
def nextRail (s : State) : Option Nat := (span 1 6).find? fun n => !s.boot.pwrEn.getD n false

/-- With every rail up, D0 leaves reset; without its oscillator D1 holds it (step 8 of Table 20-2, R691). -/
def releaseD0 (s : State) : State :=
  if railsUp s && (s.boot.oscOk || s.boot.oscFallback) then { s with boot := { s.boot with d0Reset := false } } else s

/-- PGOOD_RISE of rail 1 to 6: the next rail is enabled, or D0 reset is released. In an exit from PS6 or PS7 DEVICE_WAKE comes next. -/
def execPgoodRise (n : Fin 6) (s : State) : Res :=
  let r := n.val + 1
  whenDue (s.boot.pwrEn.getD r false && !s.boot.pgood.getD r false) (fun s =>
    let s1 := { s with boot := { s.boot with pgood := s.boot.pgood.set r true } }
    match nextRail s1 with
    | some k => railOn k s1
    | none => if s1.pow.exit_.isSome then s1 else releaseD0 s1) s

/-- PGOOD_TIMEOUT: a PGOOD does not rise within 8 ms; tried again after 1 s (R673). -/
def execPgoodTimeout (n : Fin 6) (s : State) : Res :=
  whenDue (s.boot.pwrEn.getD (n.val + 1) false && !s.boot.pgood.getD (n.val + 1) false) (railFails (n.val + 1) 32768) s

/-- RAIL_FAULT: a PGOOD falls while its rail should be on; restarted after 100 ms (R675). -/
def execRailFault (n : Fin 6) (s : State) : Res :=
  whenDue (s.boot.pwrEn.getD (n.val + 1) false && s.boot.pgood.getD (n.val + 1) false) (railFails (n.val + 1) 3277) s

/-- RAIL_RETRY: the wait after a rail fault is over, and three did not fail in 10 min (R673). -/
def execRailRetry (s : State) : Res :=
  let due : Bool := match s.boot.retryAt with
    | some t => decide (stcSince s t < 2 ^ 47)
    | none => false
  whenDue (due && s.boot.pgood.getD 0 false && !s.boot.railsOff)
    (fun s => powerUp { s with boot := { s.boot with retryAt := none } }) s

/-- VAON_LOSS: VAON falls; D1 runs on VBAT, every rail goes, and the next start is a cold boot (R676). The wait after rail failures and the 60 s
after a trip end with the sequencer; the wake logic goes on (R23). -/
def execVaonLoss (s : State) : Res :=
  whenDue s.boot.vaon (fun s =>
    let s1 := railsDown (retLost (d0Lost s))
    wr kPwDeviceState 0 { s1 with
      boot := { s1.boot with vaon := false, pwrEn := s1.boot.pwrEn.set 0 false, pgood := s1.boot.pgood.set 0 false, cause := 0x01,
                             retryAt := none, railsOff := false, railFails := [] }
      pow := { s1.pow with exit_ := none, tripHold := none, tripMark := 0 } }) s

/-! ### Warm resets (R687) -/

/-- RST_N_ASSERT: RST_N low for 10 µs; it also ends the wait after three rail failures (R673, R687). -/
def execRstNAssert (s : State) : Res := done (if railsUp s then warmReset 0x03 s else railsAgain s)
/-- JTAG_RESET (R687). -/
def execJtagReset (s : State) : Res := whenDue (railsUp s) (warmReset 0x06) s
/-- FIRMWARE_WATCHDOG: the control cores left it unserviced for 1 s (R687). -/
def execFirmwareWatchdog (s : State) : Res := whenDue (d0Runs s) (warmReset 0x04) s
/-- WARM_RESET_RELEASE: D0 restarts at step 8 of Table 20-2 (R687). -/
def execWarmResetRelease (s : State) : Res := whenDue (railsUp s && s.boot.d0Reset && s.pow.exit_.isNone) releaseD0 s

/-! ### The boot ROM (R674, R677 to R681) -/

/-- The frequencies of OSC_FREQ's list, Hz. -/
def oscList : List Nat := [10000000, 12800000, 19200000, 20000000, 25000000, 30720000, 38400000]

/-- The index of the nearest frequency of the list (R674). -/
def oscNearest (hz : Nat) : Nat :=
  let far := fun (i : Nat) => ((oscList.getD i 0 : Int) - (hz : Int)).natAbs
  (upto 7).foldl (fun b i => if far i < far b then i else b) 0

/-- A copy of the ledger with contents, read back good (R537). -/
def ledgerValid (c : LedgerCopy) : Bool := c.good && c != {}

/-- The ledger's state comes back: wear, spares and fences of macros, retired pages, cores out of service, service start (R536); the other
copy is rewritten. With no valid copy it starts empty at this start (R679). -/
def restoreLedger (s : State) : State :=
  let a := s.sram.copyA
  let b := s.sram.copyB
  let best : Option LedgerCopy :=
    if ledgerValid a && !(ledgerValid b && a.seq < b.seq) then some a else if ledgerValid b then some b else none
  match best with
  | none => histAdd 0xE802 (Config.recoverySeverity 8 2) 0 (Config.startDetail 2).toNat (wr kSrServiceStart (now s) s)
  | some c =>
    let out := c.coresOut
    let s1 := { s with sram := { s.sram with doms := c.doms, macros := c.macros, retired := c.retired, copyA := c, copyB := c } }
    let s2 := each out (fun u x => wr (kPlSageRole u) (setFld (rd x (kPlSageRole u)) 19 3 2) x) s1
    wr kSrLedgerSeq c.seq (wr kSrServiceStart (if c.seq = 0 then now s else c.serviceStart) (wr kSrCoresOut out.length
      (wr kPlRetiredPages c.retired.length (wr kSrFencedMacros (c.macros.filter fun e => e.2.fenced).length s2))))

/-- A slot holds an accepted image. -/
def slotGood (s : State) (m : Option FwImage) : Bool :=
  match m with
  | some x => fwCheck s x == 2
  | none => false

/-- The flash path: the accepted slot with the higher SEQ; a slot whose image fails is a bad copy (Table 20-6, R685). -/
def bootFlash (s : State) : State :=
  let a := s.boot.slotA
  let b := s.boot.slotB
  let bad : Bool := (a.isSome && !slotGood s a) || (b.isSome && !slotGood s b)
  let s1 := { s with boot := { s.boot with fwCopyBad := bad } }
  match (if slotGood s a then a else none), (if slotGood s b then b else none) with
  | some x, some y => if x.seq < y.seq then romLoad y 1 s1 else romLoad x 0 s1
  | some x, none => romLoad x 0 s1
  | none, some y => romLoad y 1 s1
  | none, none => s1

/-- BOOT_ROM_START: the oscillator is measured (`hz`, over 1 ms), the ledger restored, and the firmware taken by the strapped path. -/
def execBootRomStart (hz : Word) (s : State) : Res :=
  whenDue (d0Runs s && !s.boot.romRan) (fun s =>
    let s1 := restoreLedger { s with boot := { s.boot with romRan := true, oscSeen := oscNearest hz.toNat } }
    if fld s.boot.straps 0 2 = 0 then bootFlash s1 else s1) s

/-- The ROM boots from the host: on the host path, or on the flash path with neither slot accepted (Table 20-6). -/
def hostBootUp (s : State) : Bool :=
  d0Runs s && s.boot.romRan && !s.boot.fwReady && s.boot.loaded.isNone && (fld s.boot.straps 0 2 == 0 || fld s.boot.straps 0 2 == 1)

/-- The image that the host wrote at GB0 offset 0. -/
def hostImage (s : State) : FwImage :=
  let h := load s 0 512
  let n := fieldAt h 16 4
  { header := h, body := if 512 + n ≤ 8388608 then load s 512 n else [], seq := fieldAt h 8 4 }

/-- HOST_BOOT_TRIGGER: the image is checked and its status written; an accepted one starts, otherwise the trigger word is cleared (R680). -/
def execHostBootTrigger (s : State) : Res :=
  whenDue (hostBootUp s && fieldAt (load s 0x00FFFFFC 4) 0 4 == 0x544F4F42) (fun s =>
    let m := hostImage s
    let st := fwCheck s m
    let s1 := memStore 0x00FFFFF8 (toBytes 4 st) s
    if st = 2 then romLoad m 2 s1 else memStore 0x00FFFFFC (toBytes 4 0) s1) s

/-! ### First configuration (R666, R683, R684) -/

/-- The stage of Table 20-7 that applies a record. -/
def recordStage (r : ParamRecord) : Nat :=
  if r.idx < 0x1000 then 3
  else if r.idx < 0x2000 then 4
  else if r.idx < 0x3000 then 5
  else if r.idx < 0x3400 then 10
  else if r.idx < 0x3800 then 11
  else if r.idx < 0x4200 then 6
  else if r.idx < 0x5000 then 7
  else if (r.idx = 0x5307 && (r.sub == 1 || r.sub == 2)) || (r.idx = 0x6100 && (r.sub == 8 || r.sub == 9)) then 8
  else if r.idx < 0x8000 then 9
  else 12

/-- A record that waits for its CI: an AxC descriptor, a binding, the resources of one (R684). -/
def heldPending (r : ParamRecord) : Bool :=
  (0x3400 ≤ r.idx && r.idx < 0x3800 && r.idx % 16 == 6) ||
    (0x8000 ≤ r.idx && r.idx < 0xA000 && r.idx % 16 == 7 && ((2 ≤ r.sub && r.sub ≤ 5) || (8 ≤ r.sub && r.sub ≤ 0x0B)))

/-- HO_CV of the image: CV starts at it, but for a warm reset, whose HOLDOVER keeps its own (R463, R688). -/
def restoreHoCv (v : Nat) (s : State) : State :=
  if s.boot.start = .warm then s else wr kTiCv v (wr kTiHoCv v s)

/-- A value is restored as an owner write, with RWS not checked (R666). -/
def restoreValue (r : ObjRow) (idx sub : Nat) (l : List Byte) (s : State) : Written :=
  let v := ofBytes l
  if okey idx sub = kTiHoCv then accepted (restoreHoCv v s)
  else if okey idx sub = kPlTemplateSlots then (if v = 0 || 4 < v then refusedW .range s else accepted (wr kPlTemplateSlots v s))
  else if okey idx sub = kIdBucketsMax then
    (if 4096 ≤ v && v ≤ 524288 && v == 2 ^ Nat.log2 v then accepted (wr kIdBucketsMax v s) else refusedW .range s)
  else if 0x3400 ≤ idx && idx < 0x3800 && idx % 16 = 0 && sub = 2 then portModeSet ((idx - 0x3400) / 16) v s
  else if writeHeld s idx sub then plainValue r idx sub v l s
  else writeValue r idx sub l s

/-- A record is applied; one for no object, of a wrong length or refused is skipped (R666). -/
def restoreRecord (x : ParamRecord) (s : State) : State :=
  match objRow? x.idx x.sub with
  | none => recordFailed x s
  | some r =>
    let open_ : Bool := r.acc == .rw || r.acc == .rws || (r.acc == .ro && r.persist)
    let long : Bool := if variableLen r then x.value.length ≤ r.size else x.value.length == r.size
    if open_ && long then applyRecord x (restoreValue r x.idx x.sub x.value) s else recordFailed x s

/-- Records are applied in their order. -/
def restoreAll (l : List ParamRecord) (s : State) : State := each l restoreRecord s

/-- The records of a stage that are applied in it. -/
def stageRecords (s : State) (n : Nat) : List ParamRecord := s.dict.image.records.filter fun r => recordStage r == n && !heldPending r

/-- A skipped stage enters the error history. -/
def stageSkipped (n : Nat) (s : State) : State := histAdd 0xE803 (Config.recoverySeverity 8 3) 0 n s

/-- A budget of a tenant. -/
def isBudget (r : ParamRecord) : Bool := 0x8000 ≤ r.idx && r.idx % 16 == 1 && 1 ≤ r.sub && r.sub ≤ 0x12

/-- The budgets of an image fit the capacities as a whole (R186, R202). -/
def budgetsFit (l : List ParamRecord) (s : State) : Bool :=
  let t := each l (fun r x =>
    let k := r.sub - 1
    let v := ofBytes r.value
    wr (budgetKey ((r.idx - 0x8000) / 16) k) (if 14 ≤ k then v / tierUnit (k - 14) * tierUnit (k - 14) else v) x) s
  (upto 18).all fun k => decide (kindAdmitted t k ≤ kindCapacity t k)

/-- Stage 5: timing and references; after a cold boot or a rail fault the time is restored (R600, R686). -/
def stageTiming (s : State) : State :=
  let s1 := restoreAll (stageRecords s 5) s
  if s.boot.start = .cold then restoreTime s1 else s1

/-- Stage 6: DRAM, where the image gives a DATA_RATE, and START. -/
def stageDram (s : State) : State :=
  let l := stageRecords s 6
  if l.any fun r => r.idx == 0x4000 && r.sub == 2 && ofBytes r.value != 0 then (wStart 1 (restoreAll l s)).2 else stageSkipped 6 s

/-- Stage 8: the regions of device DRAM, with DRAM running. -/
def stageRegions (s : State) : State :=
  if rd s kDrState = 2 then
    let s1 := restoreAll (stageRecords s 8) s
    wr kIdBucketsMaxNow (rd s1 kIdBucketsMax) s1
  else stageSkipped 8 s

/-- Stage 10: RATE of every lane, the other lane objects, REQ_STATE. -/
def stageLanes (s : State) : State :=
  let l := stageRecords s 10
  let rate := fun (r : ParamRecord) => r.idx % 16 == 1 && r.sub == 1
  let req := fun (r : ParamRecord) => r.idx % 16 == 0 && r.sub == 4
  restoreAll (l.filter req) (restoreAll (l.filter fun r => !rate r && !req r) (restoreAll (l.filter rate) s))

/-- Stage 11: MODE of every port, then the other port objects. -/
def stagePorts (s : State) : State :=
  let l := stageRecords s 11
  let mode := fun (r : ParamRecord) => r.idx % 16 == 0 && r.sub == 2
  restoreAll (l.filter fun r => !mode r) (restoreAll (l.filter mode) s)

/-- Stage 12: tenants, with the budgets refused as a whole where they break R186; what waits for a CI is held pending. -/
def stageTenants (s : State) : State :=
  let l := stageRecords s 12
  let b := l.filter isBudget
  let s1 := { s with dict := { s.dict with pendingRecords := s.dict.image.records.filter heldPending } }
  let s2 := if budgetsFit b s1 then restoreAll b s1 else each b recordFailed s1
  restoreAll (l.filter fun r => !isBudget r) s2

/-- A stored OSC_FREQ that differs from the measured one enters the error history (R674). -/
def oscNoted (s : State) : State :=
  if rd s kTiOscFreq = s.boot.oscSeen then s else histAdd 0xE801 (Config.recoverySeverity 8 1) 0 (Config.startDetail 1).toNat s

/-- Stages 8 to 13. -/
def laterStages (s : State) : State :=
  let s1 := stageTenants (stagePorts (stageLanes (restoreAll (stageRecords s 9) (stageRegions s))))
  let s2 := oscNoted s1
  { s2 with boot := { s2.boot with stage := 13 } }

/-- Stages 8 to 13 follow once DRAM does not train any more. -/
def goOn (s : State) : State :=
  if s.boot.fwReady && s.boot.stage == 7 && rd s kDrState != 1 then laterStages s else s

/-- The copy of the image in use, and the other rewritten from it; none valid leaves every default (R666). -/
def takeImage (s : State) : State :=
  let a := s.dict.copyA
  let b := s.dict.copyB
  if a.valid || b.valid then
    let c := if a.valid && !(b.valid && a.seq < b.seq) then a else b
    { s with dict := { s.dict with image := c, copyA := c, copyB := c } }
  else histAdd 0x0002 1 0 0 { s with dict := { s.dict with image := {} } }

/-- Stages 2 to 7. -/
def earlyStages (s : State) : State :=
  let s1 := takeImage { s with boot := { s.boot with fwReady := true, stage := 2 } }
  let s2 := stageDram (stageTiming (restoreAll (stageRecords s1 4) (restoreAll (stageRecords s1 3) s1)))
  let s3 := restoreAll (stageRecords s2 7) s2
  { s3 with boot := { s3.boot with stage := 7 } }

/-- FIRMWARE_READY: the image runs as far as DRAM training lets it; once DRAM has trained, it goes on. -/
def execFirmwareReady (s : State) : Res :=
  whenDue (d0Runs s && s.boot.romRan && (s.boot.fwReady || s.boot.loaded.isSome))
    (fun s => goOn (if s.boot.fwReady then s else earlyStages s)) s

/-! ### Keeper link (R25) -/

/-- KEEPER_WAKE_REPLAY: with the keeper link up again, D1 replays what it latched, in order. -/
def execKeeperWakeReplay (s : State) : Res :=
  whenDue (d0Runs s && !s.pow.latched.isEmpty)
    (fun s => each s.pow.latched wakeEvent { s with pow := { s.pow with latched := [], tripMark := 0 } }) s

/-! ### Recovery flows (R689) -/

/-- An engine's self-test ends: FUNCTION 0, or out of service. -/
def engineTestEnd (u : Nat) (pass : Bool) (s : State) : State :=
  overcommitCheck (roleNow u (setFld (roleSoon s u) 19 3 (if pass then 0 else 2)) s)

/-- SELFTEST_DONE of a unit: a core or engine in a recovery flow, or a spare under substitution (Table 20-10, Table 15-5). -/
def execSelftestDone (u : Fin 228) (pass : Bool) (s : State) : Res :=
  let n := u.val
  let subst : Bool := match (unitSt s n).task with
    | some (.substitution _) => true
    | _ => false
  let ends := fun (flow : Nat) (t : State) => endFlow flow n (if pass then 1 else 2) (unitLoc n) 0 t
  whenDue (roleFn (roleWord s n) == 1 && (subst || inFlow s 1 n || inFlow s 2 n)) (fun s =>
    if inFlow s 2 n then ends 2 (engineTestEnd n pass s)
    else finishLoads (overcommitCheck (ends 1 (coreTestEnd n pass s)))) s

/-- A recovery flow's next attempt. -/
def flowTry (flow unit due : Nat) (s : State) : State :=
  { s with boot := { s.boot with recoveries := s.boot.recoveries.map fun r =>
      if r.flow = flow && r.unit = unit then { r with attempt := r.attempt + 1, due := due } else r } }

/-- The flow that runs on a unit. -/
def flowOf (s : State) (flow unit : Nat) : Option Recovery := s.boot.recoveries.find? fun r => r.flow == flow && r.unit == unit

/-- DRAM_RESTART_RETRY: 1 s after FAILED the firmware writes START = 1, once; a START refused leaves FAILED. -/
def execDramRestartRetry (s : State) : Res :=
  match flowOf s 3 0 with
  | none => done s
  | some r => whenDue (r.attempt == 0 && decide (r.due ≤ now s)) (fun s =>
      match wStart 1 (flowTry 3 0 0 s) with
      | (none, t) => t
      | (some _, t) => endFlow 3 0 3 0 0 t) s

/-- A lane cycles DISABLED and ACTIVE. -/
def laneCycle (n : Nat) (s : State) : State := laneOn n (laneOff n s)

/-- LANE_RECOVERY_TIMER: a lane in ACQUIRING for 5 s with signal and no CDR lock, or 10 s after a try: three tries, then it is held
DISABLED until the owner writes REQ_STATE. The times count from the first try. -/
def execLaneRecoveryTimer (n : LaneId) (s : State) : Res :=
  let l := n.val
  let flags := rd s (kLaLinkFlags l)
  match flowOf s 4 l with
  | none => whenDue (laneState s l == 1 && bitAt flags 0 && !bitAt flags 1 && decide ((laneOf s l).since + secToTc 5 ≤ now s))
      (fun s => laneCycle l (flowTry 4 l (now s + secToTc 10) (startFlow 4 l (locLane l) 1 0 s))) s
  | some r => whenDue (decide (r.due ≤ now s)) (fun s =>
      if r.attempt < 3 then laneCycle l (flowTry 4 l (now s + secToTc 10) s)
      else endFlow 4 l 3 (locLane l) r.attempt (laneOff l s)) s

/-! ### The oscillator (R691) -/

/-- The PLLs take the PCIe reference clock, and the timing state is FREERUN. -/
def toFallback (s : State) : State :=
  let u := uncertainty s
  let keep := if s.tim.u0.isNone && u = 0xFFFFFFFF then none else some u
  let s1 := wr kTiSelected 15 { s with
    boot := { s.boot with oscOk := false, oscFallback := true }
    tim := { s.tim with u0 := keep, lockTime := now s, measure := none } }
  refreshQuality (setTimState 0 s1)

/-- OSC_LOSS: no edge for 10 µs. Without the PCIe reference clock D1 holds D0 in warm reset; the manual gives that start no cause (log 9). -/
def execOscLoss (pcieClock : Bool) (s : State) : Res :=
  whenDue (d0Runs s && s.boot.oscOk) (fun s =>
    let s1 := startFlow 5 0 0 0 0 s
    if pcieClock then toFallback s1
    else
      let (n, s2) := draw (endFlow 5 0 3 0 0 s1)
      let s3 := warmReset (Config.freeValue n % 256) s2
      { s3 with boot := { s3.boot with oscOk := false } }) s

/-- OSC_RETURN: steady for 1 s. The PLLs move back, timing starts in HOLDOVER, and the flow ends. -/
def execOscReturn (s : State) : Res :=
  whenDue (!s.boot.oscOk) (fun s =>
    if s.boot.oscFallback then
      let u := uncertainty s
      let keep := if s.tim.u0.isNone then none else some u
      let s1 := enterHoldover { s with tim := { s.tim with u0 := keep, lockTime := now s } }
      let s2 := refreshQuality { s1 with boot := { s1.boot with oscOk := true, oscFallback := false } }
      endFlow 5 0 1 0 0 s2
    else { s with boot := { s.boot with oscOk := true } }) s

end Sys2Proof.Machine
end

