-- ==== Sys2Proof/Machine/Dispatch.lean ====
section
/-!
DEFINITION. What each command does: one direct call of its meaning.
-/
namespace Sys2Proof.Machine

/-- The effect of a command on everything but the queue. -/
def exec (i : Instr) (s : State) : Host.Outcome State Fault Refusal :=
  match i with
  | .submit fn qp => Sys2Proof.Machine.execSubmit fn qp s
  | .cancel fn qp => Sys2Proof.Machine.execCancel fn qp s
  | .releaseCarry fn qp => Sys2Proof.Machine.execReleaseCarry fn qp s
  | .sqTail fn qp be v => Sys2Proof.Machine.execSqTail fn qp be v s
  | .cqHead fn qp be v => Sys2Proof.Machine.execCqHead fn qp be v s
  | .submissionFetch fn qp => Sys2Proof.Machine.execSubmissionFetch fn qp s
  | .graphFetchDone gid => Sys2Proof.Machine.execGraphFetchDone gid s
  | .placementStart pu => Sys2Proof.Machine.execPlacementStart pu s
  | .placementCommit pu => Sys2Proof.Machine.execPlacementCommit pu s
  | .exclusiveTokenGrant => Sys2Proof.Machine.execExclusiveTokenGrant s
  | .placementVoteOnset => Sys2Proof.Machine.execPlacementVoteOnset s
  | .roleChange u => Sys2Proof.Machine.execRoleChange u s
  | .unitFence u => Sys2Proof.Machine.execUnitFence u s
  | .templatesEnable v => Sys2Proof.Machine.execTemplatesEnable v s
  | .templateSlots v => Sys2Proof.Machine.execTemplateSlots v s
  | .jobDispatch u => Sys2Proof.Machine.execJobDispatch u s
  | .sageJob core => Sys2Proof.Machine.execSageJob core s
  | .copy c => Sys2Proof.Machine.execCopy c s
  | .ldpcDecode e => Sys2Proof.Machine.execLdpcDecode e s
  | .ldpcEncode e => Sys2Proof.Machine.execLdpcEncode e s
  | .polarDecode e => Sys2Proof.Machine.execPolarDecode e s
  | .turboDecode e => Sys2Proof.Machine.execTurboDecode e s
  | .turboEncode e => Sys2Proof.Machine.execTurboEncode e s
  | .convolutionalDecode e => Sys2Proof.Machine.execConvolutionalDecode e s
  | .harqCombine e => Sys2Proof.Machine.execHarqCombine e s
  | .fft e => Sys2Proof.Machine.execFft e s
  | .ifft e => Sys2Proof.Machine.execIfft e s
  | .prachExtract e => Sys2Proof.Machine.execPrachExtract e s
  | .channelEstimate e => Sys2Proof.Machine.execChannelEstimate e s
  | .equalise e => Sys2Proof.Machine.execEqualise e s
  | .beamWeights e => Sys2Proof.Machine.execBeamWeights e s
  | .collect m => Sys2Proof.Machine.execCollect m s
  | .update m => Sys2Proof.Machine.execUpdate m s
  | .chunkEnd e => Sys2Proof.Machine.execChunkEnd e s
  | .cancelRequest u blocks => Sys2Proof.Machine.execCancelRequest u blocks s
  | .completionMessage n => Sys2Proof.Machine.execCompletionMessage n s
  | .heldReadyRelease q => Sys2Proof.Machine.execHeldReadyRelease q s
  | .levelTick => Sys2Proof.Machine.execLevelTick s
  | .idQuarantineExpiry => Sys2Proof.Machine.execIdQuarantineExpiry s
  | .generationBarExpiry => Sys2Proof.Machine.execGenerationBarExpiry s
  | .watchdog gid num => Sys2Proof.Machine.execWatchdog gid num s
  | .budgetWindow => Sys2Proof.Machine.execBudgetWindow s
  | .tenantEnable t => Sys2Proof.Machine.execTenantEnable t s
  | .tenantDisable t => Sys2Proof.Machine.execTenantDisable t s
  | .ciAssign t c => Sys2Proof.Machine.execCiAssign t c s
  | .ciRemove t c => Sys2Proof.Machine.execCiRemove t c s
  | .budgetWrite t k v => Sys2Proof.Machine.execBudgetWrite t k v s
  | .flowLimit t v => Sys2Proof.Machine.execFlowLimit t v s
  | .tenantMode t pin v => Sys2Proof.Machine.execTenantMode t pin v s
  | .dedicate t loc ci => Sys2Proof.Machine.execDedicate t loc ci s
  | .releaseUnit t loc => Sys2Proof.Machine.execReleaseUnit t loc s
  | .entryWrite e => Sys2Proof.Machine.execEntryWrite e s
  | .programImageLoad u => Sys2Proof.Machine.execProgramImageLoad u s
  | .maintRequest c v => Sys2Proof.Machine.execMaintRequest c v s
  | .maintTaskEnd u pass => Sys2Proof.Machine.execMaintTaskEnd u pass s
  | .sliceOverrun core => Sys2Proof.Machine.execSliceOverrun core s
  | .cmcHoldRevoke cl => Sys2Proof.Machine.execCmcHoldRevoke cl s
  | .cmcReserveLapse cl => Sys2Proof.Machine.execCmcReserveLapse cl s
  | .vectorGate core => Sys2Proof.Machine.execVectorGate core s
  | .xferDone core => Sys2Proof.Machine.execXferDone core s
  | .nop core w => Sys2Proof.Machine.execNop core w s
  | .yield core w => Sys2Proof.Machine.execYield core w s
  | .sageEnd core w => Sys2Proof.Machine.execEnd core w s
  | .xwait core w => Sys2Proof.Machine.execXwait core w s
  | .xtest core w => Sys2Proof.Machine.execXtest core w s
  | .xwaitall core w => Sys2Proof.Machine.execXwaitall core w s
  | .xfer core w => Sys2Proof.Machine.execXfer core w s
  | .add core w => Sys2Proof.Machine.execAdd core w s
  | .sub core w => Sys2Proof.Machine.execSub core w s
  | .adds core w => Sys2Proof.Machine.execAdds core w s
  | .subs core w => Sys2Proof.Machine.execSubs core w s
  | .and core w => Sys2Proof.Machine.execAnd core w s
  | .or core w => Sys2Proof.Machine.execOr core w s
  | .xor core w => Sys2Proof.Machine.execXor core w s
  | .andn core w => Sys2Proof.Machine.execAndn core w s
  | .neg core w => Sys2Proof.Machine.execNeg core w s
  | .negs core w => Sys2Proof.Machine.execNegs core w s
  | .abs core w => Sys2Proof.Machine.execAbs core w s
  | .abss core w => Sys2Proof.Machine.execAbss core w s
  | .clz core w => Sys2Proof.Machine.execClz core w s
  | .cls core w => Sys2Proof.Machine.execCls core w s
  | .addi core w => Sys2Proof.Machine.execAddi core w s
  | .andi core w => Sys2Proof.Machine.execAndi core w s
  | .ori core w => Sys2Proof.Machine.execOri core w s
  | .xori core w => Sys2Proof.Machine.execXori core w s
  | .slti core w => Sys2Proof.Machine.execSlti core w s
  | .sltiu core w => Sys2Proof.Machine.execSltiu core w s
  | .addsi core w => Sys2Proof.Machine.execAddsi core w s
  | .lui core w => Sys2Proof.Machine.execLui core w s
  | .sll core w => Sys2Proof.Machine.execSll core w s
  | .srl core w => Sys2Proof.Machine.execSrl core w s
  | .sra core w => Sys2Proof.Machine.execSra core w s
  | .ror core w => Sys2Proof.Machine.execRor core w s
  | .slls core w => Sys2Proof.Machine.execSlls core w s
  | .slli core w => Sys2Proof.Machine.execSlli core w s
  | .srli core w => Sys2Proof.Machine.execSrli core w s
  | .srai core w => Sys2Proof.Machine.execSrai core w s
  | .rori core w => Sys2Proof.Machine.execRori core w s
  | .sllsi core w => Sys2Proof.Machine.execSllsi core w s
  | .extu core w => Sys2Proof.Machine.execExtu core w s
  | .exts core w => Sys2Proof.Machine.execExts core w s
  | .ins core w => Sys2Proof.Machine.execIns core w s
  | .seq core w => Sys2Proof.Machine.execSeq core w s
  | .sne core w => Sys2Proof.Machine.execSne core w s
  | .slt core w => Sys2Proof.Machine.execSlt core w s
  | .sltu core w => Sys2Proof.Machine.execSltu core w s
  | .min core w => Sys2Proof.Machine.execMin core w s
  | .max core w => Sys2Proof.Machine.execMax core w s
  | .minu core w => Sys2Proof.Machine.execMinu core w s
  | .maxu core w => Sys2Proof.Machine.execMaxu core w s
  | .maxi core w => Sys2Proof.Machine.execMaxi core w s
  | .maxiu core w => Sys2Proof.Machine.execMaxiu core w s
  | .mini core w => Sys2Proof.Machine.execMini core w s
  | .miniu core w => Sys2Proof.Machine.execMiniu core w s
  | .beq core w => Sys2Proof.Machine.execBeq core w s
  | .bne core w => Sys2Proof.Machine.execBne core w s
  | .blt core w => Sys2Proof.Machine.execBlt core w s
  | .bge core w => Sys2Proof.Machine.execBge core w s
  | .bltu core w => Sys2Proof.Machine.execBltu core w s
  | .bgeu core w => Sys2Proof.Machine.execBgeu core w s
  | .bcb core w => Sys2Proof.Machine.execBcb core w s
  | .bcnb core w => Sys2Proof.Machine.execBcnb core w s
  | .j core w => Sys2Proof.Machine.execJ core w s
  | .jal core w => Sys2Proof.Machine.execJal core w s
  | .jr core w => Sys2Proof.Machine.execJr core w s
  | .jalr core w => Sys2Proof.Machine.execJalr core w s
  | .brl core w => Sys2Proof.Machine.execBrl core w s
  | .lci core w => Sys2Proof.Machine.execLci core w s
  | .lcr core w => Sys2Proof.Machine.execLcr core w s
  | .rot core w => Sys2Proof.Machine.execRot core w s
  | .ldB core w => Sys2Proof.Machine.execLdB core w s
  | .ldBu core w => Sys2Proof.Machine.execLdBu core w s
  | .ldH core w => Sys2Proof.Machine.execLdH core w s
  | .ldHu core w => Sys2Proof.Machine.execLdHu core w s
  | .ldW core w => Sys2Proof.Machine.execLdW core w s
  | .ldD core w => Sys2Proof.Machine.execLdD core w s
  | .stB core w => Sys2Proof.Machine.execStB core w s
  | .stH core w => Sys2Proof.Machine.execStH core w s
  | .stW core w => Sys2Proof.Machine.execStW core w s
  | .stD core w => Sys2Proof.Machine.execStD core w s
  | .vectorLoad16 core w => Sys2Proof.Machine.execVectorLoad16 core w s
  | .vectorLoad32 core w => Sys2Proof.Machine.execVectorLoad32 core w s
  | .vectorStore16 core w => Sys2Proof.Machine.execVectorStore16 core w s
  | .vectorStore32 core w => Sys2Proof.Machine.execVectorStore32 core w s
  | .mfs core w => Sys2Proof.Machine.execMfs core w s
  | .mts core w => Sys2Proof.Machine.execMts core w s
  | .adda core w => Sys2Proof.Machine.execAdda core w s
  | .addag core w => Sys2Proof.Machine.execAddag core w s
  | .mga core w => Sys2Proof.Machine.execMga core w s
  | .mag core w => Sys2Proof.Machine.execMag core w s
  | .mgm core w => Sys2Proof.Machine.execMgm core w s
  | .mmg core w => Sys2Proof.Machine.execMmg core w s
  | .mpy core w => Sys2Proof.Machine.execMpy core w s
  | .mac core w => Sys2Proof.Machine.execMac core w s
  | .msu core w => Sys2Proof.Machine.execMsu core w s
  | .clra core w => Sys2Proof.Machine.execClra core w s
  | .mta core w => Sys2Proof.Machine.execMta core w s
  | .mtg core w => Sys2Proof.Machine.execMtg core w s
  | .extr core w => Sys2Proof.Machine.execExtr core w s
  | .mfa core w => Sys2Proof.Machine.execMfa core w s
  | .mfg core w => Sys2Proof.Machine.execMfg core w s
  | .vadd core w => Sys2Proof.Machine.execVadd core w s
  | .vsub core w => Sys2Proof.Machine.execVsub core w s
  | .vadds core w => Sys2Proof.Machine.execVadds core w s
  | .vsubs core w => Sys2Proof.Machine.execVsubs core w s
  | .vaddus core w => Sys2Proof.Machine.execVaddus core w s
  | .vsubus core w => Sys2Proof.Machine.execVsubus core w s
  | .vavgr core w => Sys2Proof.Machine.execVavgr core w s
  | .vnegs core w => Sys2Proof.Machine.execVnegs core w s
  | .vabss core w => Sys2Proof.Machine.execVabss core w s
  | .vmin core w => Sys2Proof.Machine.execVmin core w s
  | .vmax core w => Sys2Proof.Machine.execVmax core w s
  | .vminu core w => Sys2Proof.Machine.execVminu core w s
  | .vmaxu core w => Sys2Proof.Machine.execVmaxu core w s
  | .vand core w => Sys2Proof.Machine.execVand core w s
  | .vor core w => Sys2Proof.Machine.execVor core w s
  | .vxor core w => Sys2Proof.Machine.execVxor core w s
  | .vandn core w => Sys2Proof.Machine.execVandn core w s
  | .vcmpeq core w => Sys2Proof.Machine.execVcmpeq core w s
  | .vcmpgt core w => Sys2Proof.Machine.execVcmpgt core w s
  | .vcmpgtu core w => Sys2Proof.Machine.execVcmpgtu core w s
  | .vsel core w => Sys2Proof.Machine.execVsel core w s
  | .vmulr core w => Sys2Proof.Machine.execVmulr core w s
  | .vcmulr core w => Sys2Proof.Machine.execVcmulr core w s
  | .vcmulrj core w => Sys2Proof.Machine.execVcmulrj core w s
  | .vconjs core w => Sys2Proof.Machine.execVconjs core w s
  | .vmull core w => Sys2Proof.Machine.execVmull core w s
  | .vsll core w => Sys2Proof.Machine.execVsll core w s
  | .vsrl core w => Sys2Proof.Machine.execVsrl core w s
  | .vsra core w => Sys2Proof.Machine.execVsra core w s
  | .vsrar core w => Sys2Proof.Machine.execVsrar core w s
  | .vslls core w => Sys2Proof.Machine.execVslls core w s
  | .vpackr core w => Sys2Proof.Machine.execVpackr core w s
  | .vpackru core w => Sys2Proof.Machine.execVpackru core w s
  | .vunpkl core w => Sys2Proof.Machine.execVunpkl core w s
  | .vunpkh core w => Sys2Proof.Machine.execVunpkh core w s
  | .vmpy core w => Sys2Proof.Machine.execVmpy core w s
  | .vmac core w => Sys2Proof.Machine.execVmac core w s
  | .vmsu core w => Sys2Proof.Machine.execVmsu core w s
  | .vclra core w => Sys2Proof.Machine.execVclra core w s
  | .vcmpy core w => Sys2Proof.Machine.execVcmpy core w s
  | .vcmac core w => Sys2Proof.Machine.execVcmac core w s
  | .vcmsu core w => Sys2Proof.Machine.execVcmsu core w s
  | .vcmpyj core w => Sys2Proof.Machine.execVcmpyj core w s
  | .vcmacj core w => Sys2Proof.Machine.execVcmacj core w s
  | .vextr core w => Sys2Proof.Machine.execVextr core w s
  | .vmta core w => Sys2Proof.Machine.execVmta core w s
  | .vmfa core w => Sys2Proof.Machine.execVmfa core w s
  | .vpermB core w => Sys2Proof.Machine.execVpermB core w s
  | .valign core w => Sys2Proof.Machine.execValign core w s
  | .vilvlH core w => Sys2Proof.Machine.execVilvlH core w s
  | .vilvhH core w => Sys2Proof.Machine.execVilvhH core w s
  | .vdilveH core w => Sys2Proof.Machine.execVdilveH core w s
  | .vdilvoH core w => Sys2Proof.Machine.execVdilvoH core w s
  | .vrevH core w => Sys2Proof.Machine.execVrevH core w s
  | .vrevW core w => Sys2Proof.Machine.execVrevW core w s
  | .vsplatH core w => Sys2Proof.Machine.execVsplatH core w s
  | .vsplatW core w => Sys2Proof.Machine.execVsplatW core w s
  | .vbcg core w => Sys2Proof.Machine.execVbcg core w s
  | .vgetl core w => Sys2Proof.Machine.execVgetl core w s
  | .vgetlu core w => Sys2Proof.Machine.execVgetlu core w s
  | .vsetl core w => Sys2Proof.Machine.execVsetl core w s
  | .vmaxi core w => Sys2Proof.Machine.execVmaxi core w s
  | .vmini core w => Sys2Proof.Machine.execVmini core w s
  | .vrmaxi core w => Sys2Proof.Machine.execVrmaxi core w s
  | .vrmini core w => Sys2Proof.Machine.execVrmini core w s
  | .vrsum core w => Sys2Proof.Machine.execVrsum core w s
  | .vmulwH core w => Sys2Proof.Machine.execVmulwH core w s
  | .vmulwuH core w => Sys2Proof.Machine.execVmulwuH core w s
  | .vmulwW core w => Sys2Proof.Machine.execVmulwW core w s
  | .vmulwuW core w => Sys2Proof.Machine.execVmulwuW core w s
  | .vdotH core w => Sys2Proof.Machine.execVdotH core w s
  | .vdotW core w => Sys2Proof.Machine.execVdotW core w s
  | .vdotaH core w => Sys2Proof.Machine.execVdotaH core w s
  | .cxCrecip core w => Sys2Proof.Machine.execCxCrecip core w s
  | .cxRsqrt core w => Sys2Proof.Machine.execCxRsqrt core w s
  | .cxAtan2 core w => Sys2Proof.Machine.execCxAtan2 core w s
  | .cxRot core w => Sys2Proof.Machine.execCxRot core w s
  | .cxLog2 core w => Sys2Proof.Machine.execCxLog2 core w s
  | .cxExp2 core w => Sys2Proof.Machine.execCxExp2 core w s
  | .cxDiv core w => Sys2Proof.Machine.execCxDiv core w s
  | .cxDivu core w => Sys2Proof.Machine.execCxDivu core w s
  | .cxMscale core w => Sys2Proof.Machine.execCxMscale core w s
  | .cxMput core w => Sys2Proof.Machine.execCxMput core w s
  | .cxChol core w => Sys2Proof.Machine.execCxChol core w s
  | .cxMinv core w => Sys2Proof.Machine.execCxMinv core w s
  | .cxMget core w => Sys2Proof.Machine.execCxMget core w s
  | .cxMexp core w => Sys2Proof.Machine.execCxMexp core w s
  | .cxClaim core w => Sys2Proof.Machine.execCxClaim core w s
  | .cxRelease core w => Sys2Proof.Machine.execCxRelease core w s
  | .cxSave core w => Sys2Proof.Machine.execCxSave core w s
  | .cxRestore core w => Sys2Proof.Machine.execCxRestore core w s
  | .cxStat core w => Sys2Proof.Machine.execCxStat core w s
  | .cxClrf core w => Sys2Proof.Machine.execCxClrf core w s
  | .lddCapSet t cap => Sys2Proof.Machine.execLddCapSet t cap s
  | .sbQuotaSet t n => Sys2Proof.Machine.execSbQuotaSet t n s
  | .sbRegionWrite ncbMax v => Sys2Proof.Machine.execSbRegionWrite ncbMax v s
  | .bindSet t slot d => Sys2Proof.Machine.execBindSet t slot d s
  | .unbind t slot => Sys2Proof.Machine.execUnbind t slot s
  | .resSet t slot idx r => Sys2Proof.Machine.execResSet t slot idx r s
  | .preambleDetect t slot c => Sys2Proof.Machine.execPreambleDetect t slot c s
  | .sfdMatch t slot c window start cfo => Sys2Proof.Machine.execSfdMatch t slot c window start cfo s
  | .preTimeout t slot c => Sys2Proof.Machine.execPreTimeout t slot c s
  | .phrDecided t slot c phr => Sys2Proof.Machine.execPhrDecided t slot c phr s
  | .keyDecided t slot c octets => Sys2Proof.Machine.execKeyDecided t slot c octets s
  | .frameEnd t slot c data fcsOk rssi snr mse => Sys2Proof.Machine.execFrameEnd t slot c data fcsOk rssi snr mse s
  | .occasionEnd t slot idx cands => Sys2Proof.Machine.execOccasionEnd t slot idx cands s
  | .lookupDone m => Sys2Proof.Machine.execLookupDone m s
  | .lookupDeadline m => Sys2Proof.Machine.execLookupDeadline m s
  | .insert => Sys2Proof.Machine.execInsert s
  | .setUser => Sys2Proof.Machine.execSetUser s
  | .deleteKey => Sys2Proof.Machine.execDeleteKey s
  | .deleteId => Sys2Proof.Machine.execDeleteId s
  | .block => Sys2Proof.Machine.execBlock s
  | .unblock => Sys2Proof.Machine.execUnblock s
  | .idtRebuild buckets seed => Sys2Proof.Machine.execIdtRebuild buckets seed s
  | .idtMigrateStep => Sys2Proof.Machine.execIdtMigrateStep s
  | .idtSwap => Sys2Proof.Machine.execIdtSwap s
  | .idtStallRetry => Sys2Proof.Machine.execIdtStallRetry s
  | .sidQuarantineExpiry => Sys2Proof.Machine.execSidQuarantineExpiry s
  | .sequencerHandover => Sys2Proof.Machine.execSequencerHandover s
  | .bucketsMax v => Sys2Proof.Machine.execBucketsMax v s
  | .laneRate n v => Sys2Proof.Machine.execLaneRate n v s
  | .txTapWrite n item v => Sys2Proof.Machine.execTxTapWrite n item v s
  | .laneReqActive n supply => Sys2Proof.Machine.execLaneReqActive n supply s
  | .laneReqStandby n => Sys2Proof.Machine.execLaneReqStandby n s
  | .laneReqDeep n supply => Sys2Proof.Machine.execLaneReqDeep n supply s
  | .laneReqDisabled n => Sys2Proof.Machine.execLaneReqDisabled n s
  | .laneEntryDone n supply => Sys2Proof.Machine.execLaneEntryDone n supply s
  | .laneReady n supply => Sys2Proof.Machine.execLaneReady n supply s
  | .laneSignalDetect n => Sys2Proof.Machine.execLaneSignalDetect n s
  | .laneLos n unlock => Sys2Proof.Machine.execLaneLos n unlock s
  | .dfeUpdate n up down => Sys2Proof.Machine.execDfeUpdate n up down s
  | .ctleVgaVisit n ctle vga => Sys2Proof.Machine.execCtleVgaVisit n ctle vga s
  | .laneLoadWindow q words => Sys2Proof.Machine.execLaneLoadWindow q words s
  | .laneCalCapture n supply => Sys2Proof.Machine.execLaneCalCapture n supply s
  | .laneContextCheck n supply => Sys2Proof.Machine.execLaneContextCheck n supply s
  | .laneRecentreStart n => Sys2Proof.Machine.execLaneRecentreStart n s
  | .laneRecentreDone n pass phase levels supply => Sys2Proof.Machine.execLaneRecentreDone n pass phase levels supply s
  | .laneRecentre n v => Sys2Proof.Machine.execLaneRecentre n v s
  | .scanStart n p => Sys2Proof.Machine.execScanStart n p s
  | .scanPointDone n errs => Sys2Proof.Machine.execScanPointDone n errs s
  | .scanAbort n v => Sys2Proof.Machine.execScanAbort n v s
  | .amLock n skew => Sys2Proof.Machine.execAmLock n skew s
  | .amLost n => Sys2Proof.Machine.execAmLost n s
  | .prbsClear n v => Sys2Proof.Machine.execPrbsClear n v s
  | .portMode p v => Sys2Proof.Machine.execPortMode p v s
  | .portUp p rtd => Sys2Proof.Machine.execPortUp p rtd s
  | .portDown p lost => Sys2Proof.Machine.execPortDown p lost s
  | .ethFrameRx p frame corrected bad => Sys2Proof.Machine.execEthFrameRx p frame corrected bad s
  | .uplaneMessage p => Sys2Proof.Machine.execUplaneMessage p s
  | .timeDomainMessage p => Sys2Proof.Machine.execTimeDomainMessage p s
  | .owdmRequest p => Sys2Proof.Machine.execOwdmRequest p s
  | .owdmRequestFollowUp p => Sys2Proof.Machine.execOwdmRequestFollowUp p s
  | .owdmFollowUp p => Sys2Proof.Machine.execOwdmFollowUp p s
  | .owdmRemoteRequest p => Sys2Proof.Machine.execOwdmRemoteRequest p s
  | .owdmResponse p => Sys2Proof.Machine.execOwdmResponse p s
  | .owdmStart p id => Sys2Proof.Machine.execOwdmStart p id s
  | .rxWindowClose ci air sec axc k => Sys2Proof.Machine.execRxWindowClose ci air sec axc k s
  | .txWindowOpen gid b axc k => Sys2Proof.Machine.execTxWindowOpen gid b axc k s
  | .txWindowClose gid b axc k => Sys2Proof.Machine.execTxWindowClose gid b axc k s
  | .cplaneSend gid b axc k => Sys2Proof.Machine.execCplaneSend gid b axc k s
  | .axcBind p d => Sys2Proof.Machine.execAxcBind p d s
  | .axcUnbind p a => Sys2Proof.Machine.execAxcUnbind p a s
  | .ciConfig c d => Sys2Proof.Machine.execCiConfig c d s
  | .dtcAdjust v => Sys2Proof.Machine.execDtcAdjust v s
  | .slewDone => Sys2Proof.Machine.execSlewDone s
  | .refPulse r rawPs => Sys2Proof.Machine.execRefPulse r rawPs s
  | .todSentence utcSec valid => Sys2Proof.Machine.execTodSentence utcSec valid s
  | .refActivityLoss r => Sys2Proof.Machine.execRefActivityLoss r s
  | .refSecondUpdate xs filt => Sys2Proof.Machine.execRefSecondUpdate xs filt s
  | .refEnable r v => Sys2Proof.Machine.execRefEnable r v s
  | .forceRef v => Sys2Proof.Machine.execForceRef v s
  | .loopAutomatic => Sys2Proof.Machine.execLoopAutomatic s
  | .loopHoldover => Sys2Proof.Machine.execLoopHoldover s
  | .loopSoftware => Sys2Proof.Machine.execLoopSoftware s
  | .swFreq v => Sys2Proof.Machine.execSwFreq v s
  | .tddPatternApply => Sys2Proof.Machine.execTddPatternApply s
  | .dramStart => Sys2Proof.Machine.execDramStart s
  | .dramStop => Sys2Proof.Machine.execDramStop s
  | .dramTrainDone failed e => Sys2Proof.Machine.execDramTrainDone failed e s
  | .dramRequest port tenant job addr data => Sys2Proof.Machine.execDramRequest port tenant job addr data s
  | .dramReadDone ch issuedBefore chk => Sys2Proof.Machine.execDramReadDone ch issuedBefore chk s
  | .dramAlert ch newIncident => Sys2Proof.Machine.execDramAlert ch newIncident s
  | .freezeAutoExpiry ch => Sys2Proof.Machine.execFreezeAutoExpiry ch s
  | .resume ch v => Sys2Proof.Machine.execResume ch v s
  | .dramRetrainDone ch e => Sys2Proof.Machine.execDramRetrainDone ch e s
  | .dramRefresh ch rank => Sys2Proof.Machine.execDramRefresh ch rank s
  | .raaTableClear ch => Sys2Proof.Machine.execRaaTableClear ch s
  | .dramTempPoll ch t => Sys2Proof.Machine.execDramTempPoll ch t s
  | .dramTrack ch rank vddq overLimit => Sys2Proof.Machine.execDramTrack ch rank vddq overLimit s
  | .dramLoadWindow ch busy total => Sys2Proof.Machine.execDramLoadWindow ch busy total s
  | .dramContextCheck ch => Sys2Proof.Machine.execDramContextCheck ch s
  | .dramRecentreStart ch rank => Sys2Proof.Machine.execDramRecentreStart ch rank s
  | .dramRecentreDone ch rank e => Sys2Proof.Machine.execDramRecentreDone ch rank e s
  | .dramRecentre ch v => Sys2Proof.Machine.execDramRecentre ch v s
  | .dramScrub chk => Sys2Proof.Machine.execDramScrub chk s
  | .pdIdleExpiry ch => Sys2Proof.Machine.execPdIdleExpiry ch s
  | .scrubPassStart q => Sys2Proof.Machine.execScrubPassStart q s
  | .scrubWord q loc word flips1 flips2 => Sys2Proof.Machine.execScrubWord q loc word flips1 flips2 s
  | .scrubMacroEnd q loc deferred => Sys2Proof.Machine.execScrubMacroEnd q loc deferred s
  | .columnSpareDone loc => Sys2Proof.Machine.execColumnSpareDone loc s
  | .wordRemapDone loc => Sys2Proof.Machine.execWordRemapDone loc s
  | .ledgerMinute rows => Sys2Proof.Machine.execLedgerMinute rows s
  | .ledgerDailyWrite a1 a2 b1 b2 => Sys2Proof.Machine.execLedgerDailyWrite a1 a2 b1 b2 s
  | .ledgerYearlyRewrite a1 a2 b1 b2 => Sys2Proof.Machine.execLedgerYearlyRewrite a1 a2 b1 b2 s
  | .ledgerWrite v a1 a2 b1 b2 => Sys2Proof.Machine.execLedgerWrite v a1 a2 b1 b2 s
  | .nocReadRequest src addr len tenant port gt badAt => Sys2Proof.Machine.execNocReadRequest src addr len tenant port gt badAt s
  | .nocWrite src addr data tenant port gt badAt poisoned corrected => Sys2Proof.Machine.execNocWrite src addr data tenant port gt badAt poisoned corrected s
  | .nocReadData src dst badAt poisoned corrected => Sys2Proof.Machine.execNocReadData src dst badAt poisoned corrected s
  | .nocWriteAck src dst badAt => Sys2Proof.Machine.execNocWriteAck src dst badAt s
  | .voteSet t v => Sys2Proof.Machine.execVoteSet t v s
  | .domainEntryStart d => Sys2Proof.Machine.execDomainEntryStart d s
  | .domainEntryDone d => Sys2Proof.Machine.execDomainEntryDone d s
  | .domainWake d clampsClosed => Sys2Proof.Machine.execDomainWake d clampsClosed s
  | .domainExitDone d saveOk rewritten => Sys2Proof.Machine.execDomainExitDone d saveOk rewritten s
  | .clockNotch d => Sys2Proof.Machine.execClockNotch d s
  | .governorGrant => Sys2Proof.Machine.execGovernorGrant s
  | .clkSet d v => Sys2Proof.Machine.execClkSet d v s
  | .marginContextCheck d supply cls => Sys2Proof.Machine.execMarginContextCheck d supply cls s
  | .marginRecentre d fSafe supply cls sustained => Sys2Proof.Machine.execMarginRecentre d fSafe supply cls sustained s
  | .domainRecentre d v fSafe supply cls => Sys2Proof.Machine.execDomainRecentre d v fSafe supply cls s
  | .droopDetect d supply cls => Sys2Proof.Machine.execDroopDetect d supply cls s
  | .deviceSleepEntry woken => Sys2Proof.Machine.execDeviceSleepEntry woken s
  | .wakeNFall => Sys2Proof.Machine.execWakeNFall s
  | .stcAlarm => Sys2Proof.Machine.execStcAlarm s
  | .canRxWake => Sys2Proof.Machine.execCanRxWake s
  | .perstNWake => Sys2Proof.Machine.execPerstNWake s
  | .vaonRise => Sys2Proof.Machine.execVaonRise s
  | .deviceWake => Sys2Proof.Machine.execDeviceWake s
  | .wakeHoldExpiry => Sys2Proof.Machine.execWakeHoldExpiry s
  | .timeSnapshot k kUnc => Sys2Proof.Machine.execTimeSnapshot k kUnc s
  | .vbatMeasure mv => Sys2Proof.Machine.execVbatMeasure mv s
  | .sensorSample n raw => Sys2Proof.Machine.execSensorSample n raw s
  | .throttleStep d => Sys2Proof.Machine.execThrottleStep d s
  | .throttleRecoverStep d => Sys2Proof.Machine.execThrottleRecoverStep d s
  | .tripHoldExpiry => Sys2Proof.Machine.execTripHoldExpiry s
  | .jtagAttach => Sys2Proof.Machine.execJtagAttach s
  | .linkUp gen width cxl => Sys2Proof.Machine.execLinkUp gen width cxl s
  | .conventionalReset how => Sys2Proof.Machine.execConventionalReset how s
  | .flrStart fn => Sys2Proof.Machine.execFlrStart fn s
  | .flrDone fn => Sys2Proof.Machine.execFlrDone fn s
  | .busMasterDisable fn d3hot => Sys2Proof.Machine.execBusMasterDisable fn d3hot s
  | .busMasterEnable fn d0 => Sys2Proof.Machine.execBusMasterEnable fn d0 s
  | .vfDisable clear keep => Sys2Proof.Machine.execVfDisable clear keep s
  | .qpEnable fn qp => Sys2Proof.Machine.execQpEnable fn qp s
  | .qpDisable fn qp => Sys2Proof.Machine.execQpDisable fn qp s
  | .eqEnable fn => Sys2Proof.Machine.execEqEnable fn s
  | .eqDisable fn => Sys2Proof.Machine.execEqDisable fn s
  | .eqHead fn be v => Sys2Proof.Machine.execEqHead fn be v s
  | .aeLogClear fn => Sys2Proof.Machine.execAeLogClear fn s
  | .counterLoRead fn ofs be => Sys2Proof.Machine.execCounterLoRead fn ofs be s
  | .registerWrite fn ofs be v => Sys2Proof.Machine.execRegisterWrite fn ofs be v s
  | .interruptModTimer fn qp => Sys2Proof.Machine.execInterruptModTimer fn qp s
  | .msixUnmask fn c => Sys2Proof.Machine.execMsixUnmask fn c s
  | .hostReadCompletion fn tag a => Sys2Proof.Machine.execHostReadCompletion fn tag a s
  | .completionTimeout fn tag => Sys2Proof.Machine.execCompletionTimeout fn tag s
  | .atsInvalidate fn page log2 => Sys2Proof.Machine.execAtsInvalidate fn page log2 s
  | .cxlSnoop line => Sys2Proof.Machine.execCxlSnoop line s
  | .cxlMemRequest dpa len data => Sys2Proof.Machine.execCxlMemRequest dpa len data s
  | .bar4Access ofs len data => Sys2Proof.Machine.execBar4Access ofs len data s
  | .mailboxGo fn be v => Sys2Proof.Machine.execMailboxGo fn be v s
  | .mailboxDoneClear fn => Sys2Proof.Machine.execMailboxDoneClear fn s
  | .read v l => Sys2Proof.Machine.execRead v l s
  | .write v l => Sys2Proof.Machine.execWrite v l s
  | .readSeg v l => Sys2Proof.Machine.execReadSeg v l s
  | .writeSeg v l => Sys2Proof.Machine.execWriteSeg v l s
  | .abort v l => Sys2Proof.Machine.execAbort v l s
  | .segTimeout tr peer tid => Sys2Proof.Machine.execSegTimeout tr peer tid s
  | .notifyInterval route => Sys2Proof.Machine.execNotifyInterval route s
  | .mgmtHousekeeping kind => Sys2Proof.Machine.execMgmtHousekeeping kind s
  | .mgmtPhyPoll up => Sys2Proof.Machine.execMgmtPhyPoll up s
  | .store v => Sys2Proof.Machine.execStore v s
  | .storeDone a1 a2 b1 b2 => Sys2Proof.Machine.execStoreDone a1 a2 b1 b2 s
  | .restoreDefaults v => Sys2Proof.Machine.execRestoreDefaults v s
  | .imageWrite l => Sys2Proof.Machine.execImageWrite l s
  | .histClear v => Sys2Proof.Machine.execHistClear v s
  | .locText l => Sys2Proof.Machine.execLocText l s
  | .locPacked v => Sys2Proof.Machine.execLocPacked v s
  | .firmwareWrite l readBack => Sys2Proof.Machine.execFirmwareWrite l readBack s
  | .keeperWakeReplay => Sys2Proof.Machine.execKeeperWakeReplay s
  | .vaonPgood => Sys2Proof.Machine.execVaonPgood s
  | .pgoodRise n => Sys2Proof.Machine.execPgoodRise n s
  | .pgoodTimeout n => Sys2Proof.Machine.execPgoodTimeout n s
  | .railRetry => Sys2Proof.Machine.execRailRetry s
  | .railFault n => Sys2Proof.Machine.execRailFault n s
  | .vaonLoss => Sys2Proof.Machine.execVaonLoss s
  | .bootRomStart hz => Sys2Proof.Machine.execBootRomStart hz s
  | .hostBootTrigger => Sys2Proof.Machine.execHostBootTrigger s
  | .firmwareReady => Sys2Proof.Machine.execFirmwareReady s
  | .rstNAssert => Sys2Proof.Machine.execRstNAssert s
  | .jtagReset => Sys2Proof.Machine.execJtagReset s
  | .firmwareWatchdog => Sys2Proof.Machine.execFirmwareWatchdog s
  | .warmResetRelease => Sys2Proof.Machine.execWarmResetRelease s
  | .selftestDone u pass => Sys2Proof.Machine.execSelftestDone u pass s
  | .dramRestartRetry => Sys2Proof.Machine.execDramRestartRetry s
  | .laneRecoveryTimer n => Sys2Proof.Machine.execLaneRecoveryTimer n s
  | .oscLoss pcieClock => Sys2Proof.Machine.execOscLoss pcieClock s
  | .oscReturn => Sys2Proof.Machine.execOscReturn s
  | .collectCutoff => Sys2Proof.Machine.execCollectCutoff s
  | .bookedIntervalEnd => Sys2Proof.Machine.execBookedIntervalEnd s
  | .jtagDetach => Sys2Proof.Machine.execJtagDetach s
  | .configWrite fn c => Sys2Proof.Machine.execConfigWrite fn c s
  | .pmeTurnOff => Sys2Proof.Machine.execPmeTurnOff s
  | .speedChange gen width => Sys2Proof.Machine.execSpeedChange gen width s
  | .translationCompletion fn page target => Sys2Proof.Machine.execTranslationCompletion fn page target s
  | .prbsLock n bits errs => Sys2Proof.Machine.execPrbsLock n bits errs s
  | .basicFrame p bfn hfn x payload => Sys2Proof.Machine.execBasicFrame p bfn hfn x payload s
  | .busOff st => Sys2Proof.Machine.execBusOff st s
  | .ptpMessageTx p msgType => Sys2Proof.Machine.execPtpMessageTx p msgType s
  | .esmcInterval p => Sys2Proof.Machine.execEsmcInterval p s

end Sys2Proof.Machine
end

