-- ==== Sys2Proof/Machine/Step.lean ====
section
/-!
DEFINITION. The step of the block: the command at the front of the queue, or with none waiting a clock of the device.
-/
namespace Sys2Proof.Machine

/-- The outside takes the oldest thing sent. -/
def takeOutput (s : State) : State := { s with out := s.out.drop 1 }

/-- With no command waiting, one clock of 983.04 MHz passes; the outside takes one output, changes that routes watch are notified, and what
needed only time goes on (DESIGN CHOICE, log 2). -/
def idle (s : State) : State :=
  goOn (flushAllMissing (finishGraphs (sendNotify (notifyChanges (takeOutput (passClocks 1 s))))))

/-- The queue loses its front. -/
def popCommand (s : State) : State := { s with pending := s.pending.drop 1 }

/-- One step: the command at the front of the queue acts on the state with the queue's rest. -/
def step (s : State) : Host.Outcome State Fault Refusal :=
  match s.pending with
  | [] => .next (idle s)
  | c :: _ => exec c (popCommand s)

/-- No row of the opcode table has bits, so no word spells a command. -/
def State.withFetchWord (s : State) (nbits w : Nat) : State :=
  match decodeTableWord nbits w with
  | some c => { s with pending := c :: s.pending }
  | none => s

end Sys2Proof.Machine
end

