-- ==== Sys2Proof/WellFormed.lean ====
section
/-!
DEFINITION. Which commands are well-formed: a Sage instruction comes with a word of its own encoding (R217, R250), and what the outside
brings has the lengths and ranges the manual gives it.
-/
namespace Sys2Proof

/-- Mask and pattern of the fields that tell a Sage instruction from every other (Tables 6-6 to 6-15, 7-2 to 7-19), and its word. The X and
Y bus forms of a load differ in bit 26 and are one instruction. -/
def Instr.sageForm (i : Instr) : Option (Word × Word × Word) :=
  match i with
  | .nop _ w => some (0x7FE00000, 0x00000000, w)
  | .yield _ w => some (0x7FE00000, 0x00200000, w)
  | .sageEnd _ w => some (0x7FE00000, 0x00400000, w)
  | .xwait _ w => some (0x7FE00000, 0x00600000, w)
  | .xtest _ w => some (0x7FE00000, 0x00800000, w)
  | .xwaitall _ w => some (0x7FE00000, 0x00A00000, w)
  | .xfer _ w => some (0x7C000000, 0x38000000, w)
  | .add _ w => some (0x7C00003F, 0x04000000, w)
  | .sub _ w => some (0x7C00003F, 0x04000001, w)
  | .adds _ w => some (0x7C00003F, 0x04000002, w)
  | .subs _ w => some (0x7C00003F, 0x04000003, w)
  | .and _ w => some (0x7C00003F, 0x04000004, w)
  | .or _ w => some (0x7C00003F, 0x04000005, w)
  | .xor _ w => some (0x7C00003F, 0x04000006, w)
  | .andn _ w => some (0x7C00003F, 0x04000007, w)
  | .neg _ w => some (0x7C00003F, 0x04000008, w)
  | .negs _ w => some (0x7C00003F, 0x04000009, w)
  | .abs _ w => some (0x7C00003F, 0x0400000A, w)
  | .abss _ w => some (0x7C00003F, 0x0400000B, w)
  | .clz _ w => some (0x7C00003F, 0x0400000C, w)
  | .cls _ w => some (0x7C00003F, 0x0400000D, w)
  | .addi _ w => some (0x7C00F000, 0x08000000, w)
  | .andi _ w => some (0x7C00F000, 0x08001000, w)
  | .ori _ w => some (0x7C00F000, 0x08002000, w)
  | .xori _ w => some (0x7C00F000, 0x08003000, w)
  | .slti _ w => some (0x7C00F000, 0x08004000, w)
  | .sltiu _ w => some (0x7C00F000, 0x08005000, w)
  | .addsi _ w => some (0x7C00F000, 0x08006000, w)
  | .lui _ w => some (0x7C000000, 0x0C000000, w)
  | .sll _ w => some (0x7C00003F, 0x10000000, w)
  | .srl _ w => some (0x7C00003F, 0x10000001, w)
  | .sra _ w => some (0x7C00003F, 0x10000002, w)
  | .ror _ w => some (0x7C00003F, 0x10000003, w)
  | .slls _ w => some (0x7C00003F, 0x10000004, w)
  | .slli _ w => some (0x7C00003F, 0x10000010, w)
  | .srli _ w => some (0x7C00003F, 0x10000011, w)
  | .srai _ w => some (0x7C00003F, 0x10000012, w)
  | .rori _ w => some (0x7C00003F, 0x10000013, w)
  | .sllsi _ w => some (0x7C00003F, 0x10000014, w)
  | .extu _ w => some (0x7C00003F, 0x10000020, w)
  | .exts _ w => some (0x7C00003F, 0x10000021, w)
  | .ins _ w => some (0x7C00003F, 0x10000022, w)
  | .seq _ w => some (0x7C00003F, 0x14000000, w)
  | .sne _ w => some (0x7C00003F, 0x14000001, w)
  | .slt _ w => some (0x7C00003F, 0x14000002, w)
  | .sltu _ w => some (0x7C00003F, 0x14000003, w)
  | .min _ w => some (0x7C00003F, 0x14000004, w)
  | .max _ w => some (0x7C00003F, 0x14000005, w)
  | .minu _ w => some (0x7C00003F, 0x14000006, w)
  | .maxu _ w => some (0x7C00003F, 0x14000007, w)
  | .maxi _ w => some (0x7C00003F, 0x14000008, w)
  | .maxiu _ w => some (0x7C00003F, 0x1400000A, w)
  | .mini _ w => some (0x7C00003F, 0x14000009, w)
  | .miniu _ w => some (0x7C00003F, 0x1400000B, w)
  | .beq _ w => some (0x7C00E000, 0x18000000, w)
  | .bne _ w => some (0x7C00E000, 0x18002000, w)
  | .blt _ w => some (0x7C00E000, 0x18004000, w)
  | .bge _ w => some (0x7C00E000, 0x18006000, w)
  | .bltu _ w => some (0x7C00E000, 0x18008000, w)
  | .bgeu _ w => some (0x7C00E000, 0x1800A000, w)
  | .bcb _ w => some (0x7C00E000, 0x1800C000, w)
  | .bcnb _ w => some (0x7C00E000, 0x1800E000, w)
  | .j _ w => some (0x7F800000, 0x1C000000, w)
  | .jal _ w => some (0x7F800000, 0x1C800000, w)
  | .jr _ w => some (0x7F800000, 0x1D000000, w)
  | .jalr _ w => some (0x7F800000, 0x1D800000, w)
  | .brl _ w => some (0x7F800000, 0x20000000, w)
  | .lci _ w => some (0x7F800000, 0x20800000, w)
  | .lcr _ w => some (0x7F800000, 0x21000000, w)
  | .rot _ w => some (0x7F800000, 0x21800000, w)
  | .ldB _ w => some (0x7801C000, 0x60000000, w)
  | .ldBu _ w => some (0x7801C000, 0x60004000, w)
  | .ldH _ w => some (0x7801C000, 0x60008000, w)
  | .ldHu _ w => some (0x7801C000, 0x6000C000, w)
  | .ldW _ w => some (0x7801C000, 0x60010000, w)
  | .ldD _ w => some (0x7801C000, 0x60014000, w)
  | .stB _ w => some (0x7C01C000, 0x24000000, w)
  | .stH _ w => some (0x7C01C000, 0x24008000, w)
  | .stW _ w => some (0x7C01C000, 0x24010000, w)
  | .stD _ w => some (0x7C01C000, 0x24014000, w)
  | .vectorLoad16 _ w => some (0x7801C000, 0x60018000, w)
  | .vectorLoad32 _ w => some (0x7801C000, 0x6001C000, w)
  | .vectorStore16 _ w => some (0x7C01C000, 0x24018000, w)
  | .vectorStore32 _ w => some (0x7C01C000, 0x2401C000, w)
  | .mfs _ w => some (0x7C008000, 0x28000000, w)
  | .mts _ w => some (0x7C008000, 0x28008000, w)
  | .adda _ w => some (0x7F800000, 0x2C000000, w)
  | .addag _ w => some (0x7F800000, 0x2C800000, w)
  | .mga _ w => some (0x7F800000, 0x2D000000, w)
  | .mag _ w => some (0x7F800000, 0x2D800000, w)
  | .mgm _ w => some (0x7F800000, 0x2E000000, w)
  | .mmg _ w => some (0x7F800000, 0x2E800000, w)
  | .mpy _ w => some (0x7C0003C0, 0x30000000, w)
  | .mac _ w => some (0x7C0003C0, 0x30000040, w)
  | .msu _ w => some (0x7C0003C0, 0x30000080, w)
  | .clra _ w => some (0x7C0003C0, 0x300000C0, w)
  | .mta _ w => some (0x7C0003C0, 0x30000100, w)
  | .mtg _ w => some (0x7C0003C0, 0x30000140, w)
  | .extr _ w => some (0x7C001C00, 0x34000000, w)
  | .mfa _ w => some (0x7C001C00, 0x34000400, w)
  | .mfg _ w => some (0x7C001C00, 0x34000800, w)
  | .vadd _ w => some (0x7C00003F, 0x40000000, w)
  | .vsub _ w => some (0x7C00003F, 0x40000001, w)
  | .vadds _ w => some (0x7C00003F, 0x40000002, w)
  | .vsubs _ w => some (0x7C00003F, 0x40000003, w)
  | .vaddus _ w => some (0x7C00003F, 0x40000004, w)
  | .vsubus _ w => some (0x7C00003F, 0x40000005, w)
  | .vavgr _ w => some (0x7C00003F, 0x40000006, w)
  | .vnegs _ w => some (0x7C00003F, 0x40000007, w)
  | .vabss _ w => some (0x7C00003F, 0x40000008, w)
  | .vmin _ w => some (0x7C00003F, 0x40000009, w)
  | .vmax _ w => some (0x7C00003F, 0x4000000A, w)
  | .vminu _ w => some (0x7C00003F, 0x4000000B, w)
  | .vmaxu _ w => some (0x7C00003F, 0x4000000C, w)
  | .vand _ w => some (0x7C00003F, 0x4000000D, w)
  | .vor _ w => some (0x7C00003F, 0x4000000E, w)
  | .vxor _ w => some (0x7C00003F, 0x4000000F, w)
  | .vandn _ w => some (0x7C00003F, 0x40000010, w)
  | .vcmpeq _ w => some (0x7C00003F, 0x40000011, w)
  | .vcmpgt _ w => some (0x7C00003F, 0x40000012, w)
  | .vcmpgtu _ w => some (0x7C00003F, 0x40000013, w)
  | .vsel _ w => some (0x7C00003F, 0x40000014, w)
  | .vmulr _ w => some (0x7C00003F, 0x40000018, w)
  | .vcmulr _ w => some (0x7C00003F, 0x40000019, w)
  | .vcmulrj _ w => some (0x7C00003F, 0x4000001A, w)
  | .vconjs _ w => some (0x7C00003F, 0x4000001B, w)
  | .vmull _ w => some (0x7C00003F, 0x4000001C, w)
  | .vsll _ w => some (0x7C00003F, 0x44000000, w)
  | .vsrl _ w => some (0x7C00003F, 0x44000001, w)
  | .vsra _ w => some (0x7C00003F, 0x44000002, w)
  | .vsrar _ w => some (0x7C00003F, 0x44000003, w)
  | .vslls _ w => some (0x7C00003F, 0x44000004, w)
  | .vpackr _ w => some (0x7C00003F, 0x44000008, w)
  | .vpackru _ w => some (0x7C00003F, 0x44000009, w)
  | .vunpkl _ w => some (0x7C00003F, 0x4400000A, w)
  | .vunpkh _ w => some (0x7C00003F, 0x4400000B, w)
  | .vmpy _ w => some (0x7C0003C0, 0x48000000, w)
  | .vmac _ w => some (0x7C0003C0, 0x48000040, w)
  | .vmsu _ w => some (0x7C0003C0, 0x48000080, w)
  | .vclra _ w => some (0x7C0003C0, 0x480000C0, w)
  | .vcmpy _ w => some (0x7C0003C0, 0x48000100, w)
  | .vcmac _ w => some (0x7C0003C0, 0x48000140, w)
  | .vcmsu _ w => some (0x7C0003C0, 0x48000180, w)
  | .vcmpyj _ w => some (0x7C0003C0, 0x480001C0, w)
  | .vcmacj _ w => some (0x7C0003C0, 0x48000200, w)
  | .vextr _ w => some (0x7C001C00, 0x4C000000, w)
  | .vmta _ w => some (0x7C001C00, 0x4C000400, w)
  | .vmfa _ w => some (0x7C001C00, 0x4C000800, w)
  | .vpermB _ w => some (0x7C00003F, 0x50000000, w)
  | .valign _ w => some (0x7C00003F, 0x50000001, w)
  | .vilvlH _ w => some (0x7C00003F, 0x50000002, w)
  | .vilvhH _ w => some (0x7C00003F, 0x50000003, w)
  | .vdilveH _ w => some (0x7C00003F, 0x50000004, w)
  | .vdilvoH _ w => some (0x7C00003F, 0x50000005, w)
  | .vrevH _ w => some (0x7C00003F, 0x50000006, w)
  | .vrevW _ w => some (0x7C00003F, 0x50000007, w)
  | .vsplatH _ w => some (0x7C00003F, 0x50000008, w)
  | .vsplatW _ w => some (0x7C00003F, 0x50000009, w)
  | .vbcg _ w => some (0x7C00001F, 0x54000000, w)
  | .vgetl _ w => some (0x7C00001F, 0x54000001, w)
  | .vgetlu _ w => some (0x7C00001F, 0x54000002, w)
  | .vsetl _ w => some (0x7C00001F, 0x54000003, w)
  | .vmaxi _ w => some (0x7C00001F, 0x54000004, w)
  | .vmini _ w => some (0x7C00001F, 0x54000005, w)
  | .vrmaxi _ w => some (0x7C00001F, 0x54000006, w)
  | .vrmini _ w => some (0x7C00001F, 0x54000007, w)
  | .vrsum _ w => some (0x7C00001F, 0x54000008, w)
  | .vmulwH _ w => some (0x7C00003F, 0x58000000, w)
  | .vmulwuH _ w => some (0x7C00003F, 0x58000001, w)
  | .vmulwW _ w => some (0x7C00003F, 0x58000002, w)
  | .vmulwuW _ w => some (0x7C00003F, 0x58000003, w)
  | .vdotH _ w => some (0x7C00003F, 0x58000004, w)
  | .vdotW _ w => some (0x7C00003F, 0x58000005, w)
  | .vdotaH _ w => some (0x7C00003F, 0x58000006, w)
  | .cxCrecip _ w => some (0x7C00003F, 0x70000000, w)
  | .cxRsqrt _ w => some (0x7C00003F, 0x70000001, w)
  | .cxAtan2 _ w => some (0x7C00003F, 0x70000002, w)
  | .cxRot _ w => some (0x7C00003F, 0x70000003, w)
  | .cxLog2 _ w => some (0x7C00003F, 0x70000004, w)
  | .cxExp2 _ w => some (0x7C00003F, 0x70000005, w)
  | .cxDiv _ w => some (0x7C00003F, 0x70000006, w)
  | .cxDivu _ w => some (0x7C00003F, 0x70000007, w)
  | .cxMscale _ w => some (0x7C00003F, 0x70000010, w)
  | .cxMput _ w => some (0x7C00003F, 0x70000011, w)
  | .cxChol _ w => some (0x7C00003F, 0x70000012, w)
  | .cxMinv _ w => some (0x7C00003F, 0x70000013, w)
  | .cxMget _ w => some (0x7C00003F, 0x70000014, w)
  | .cxMexp _ w => some (0x7C00003F, 0x70000015, w)
  | .cxClaim _ w => some (0x7C00003F, 0x74000000, w)
  | .cxRelease _ w => some (0x7C00003F, 0x74000001, w)
  | .cxSave _ w => some (0x7C00003F, 0x74000002, w)
  | .cxRestore _ w => some (0x7C00003F, 0x74000003, w)
  | .cxStat _ w => some (0x7C00003F, 0x74000004, w)
  | .cxClrf _ w => some (0x7C00003F, 0x74000005, w)
  | _ => none

/-- No two of a list's elements are equal. -/
def distinct {α : Type} [DecidableEq α] : List α → Bool
  | [] => true
  | a :: r => !r.contains a && distinct r

/-- A PDP message: at least its header, at most 64 bytes in a CAN frame (R649, R655). -/
def pdpLength (v : Machine.PdpVia) (l : List Byte) : Bool :=
  match v with
  | .can _ _ => 8 ≤ l.length && l.length ≤ 64
  | .udp _ => 8 ≤ l.length

/-- Lengths and ranges of what the other commands bring. -/
def Instr.operandsOk (i : Instr) : Bool :=
  match i with
  | .keyDecided _ _ _ octets => 1 ≤ octets.length && octets.length ≤ 16
  | .frameEnd _ _ _ data _ _ _ _ => data.length ≤ 32790
  | .occasionEnd _ _ _ cands => distinct (cands.map (·.idx))
  | .laneLoadWindow _ words => words.length == 4
  | .laneRecentreDone _ _ _ levels _ => levels.length == 1 || levels.length == 3
  | .refSecondUpdate xs _ => distinct (xs.map (·.1))
  | .ledgerMinute rows => distinct (rows.map (·.1))
  | .dramRequest _ _ _ addr data => addr < 2 ^ 52 && (match data with
    | some l => 1 ≤ l.length && addr % 64 + l.length ≤ 64
    | none => true)
  | .dramLoadWindow _ busy total => busy ≤ total
  | .resume _ v => v < 256
  | .dramRecentre _ v => v < 256
  | .nocWrite _ _ data _ _ _ _ poisoned _ => 1 ≤ data.length && data.length ≤ 256 && distinct poisoned
  | .nocReadRequest _ _ len _ _ _ _ => len != 0
  | .nocReadData _ _ _ poisoned _ => distinct poisoned
  | .cxlMemRequest _ len data => (match data with
    | some l => 1 ≤ l.length && l.length ≤ 64
    | none => len != 0)
  | .bar4Access _ len data => (match data with
    | some l => 1 ≤ l.length && l.length ≤ 4096
    | none => len != 0)
  | .read v l => pdpLength v l
  | .write v l => pdpLength v l
  | .readSeg v l => pdpLength v l
  | .writeSeg v l => pdpLength v l
  | .abort v l => pdpLength v l
  | .imageWrite l => l.length ≤ 4194304
  | .locText l => l.length ≤ 40
  | .firmwareWrite l _ => l.length ≤ 8388608
  | _ => true

/-- A well-formed command. -/
def Instr.wellFormed (i : Instr) : Bool :=
  (match i.sageForm with
    | some (mask, pat, w) => w &&& mask == pat
    | none => true) && i.operandsOk

end Sys2Proof
end

