-- ==== Sys2Proof/Safety.lean ====
section
/-!
DEFINITION. What every state and every run of the block is held to, and what it means that a command leaves a part of the state alone.
-/
namespace Sys2Proof.Machine

/-- The device's memory is in its canonical form, and every waiting command is well-formed. -/
def State.Inv (s : State) : Prop := Memory.wf s.mem = true ∧ ∀ c ∈ s.pending, c.wellFormed = true

/-- The parts of the state, but for the queue of commands. -/
inductive Part where
  | obj | text | tim | pow | boot | host | dict | work | sage | radio | links | noc | dram | sram | mem | out | freeCtr
deriving DecidableEq, Repr

/-- Two states agree in a part. -/
def Part.Same (p : Part) (s t : State) : Prop :=
  match p with
  | .obj => t.obj = s.obj
  | .text => t.text = s.text
  | .tim => t.tim = s.tim
  | .pow => t.pow = s.pow
  | .boot => t.boot = s.boot
  | .host => t.host = s.host
  | .dict => t.dict = s.dict
  | .work => t.work = s.work
  | .sage => t.sage = s.sage
  | .radio => t.radio = s.radio
  | .links => t.links = s.links
  | .noc => t.noc = s.noc
  | .dram => t.dram = s.dram
  | .sram => t.sram = s.sram
  | .mem => t.mem = s.mem
  | .out => t.out = s.out
  | .freeCtr => t.freeCtr = s.freeCtr

/-- `t` differs from `s` at most in the parts listed: every other part and the queue are as they were, and memory, where it is listed,
keeps its canonical form. -/
structure Only (l : List Part) (s t : State) : Prop where
  same : ∀ p, p ∉ l → p.Same s t
  queue : t.pending = s.pending
  wf : Memory.wf s.mem = true → Memory.wf t.mem = true

/-- A command has its effect, within the parts listed: it answers a next state, no fault and no refusal. -/
def Runs (l : List Part) (s : State) (r : Res) : Prop := ∃ t, r = .next t ∧ Only l s t

/-- A command answers a next state that differs at most in the parts listed, and of which `P` holds. -/
def Gives (s : State) (i : Instr) (l : List Part) (P : State → Prop) : Prop := ∃ t, exec i s = .next t ∧ Only l s t ∧ P t

/-- Every dictionary object but those of the keys listed holds what it held. -/
def Keeps (keys : List Nat) (s t : State) : Prop := ∀ k, k ∉ keys → rd t k = rd s k

/-- A counter object of `w` bits went on by `n` and wrapped (R20). -/
def Counts (w k n : Nat) (s t : State) : Prop := rd t k = (rd s k + n) % 2 ^ w

/-- Bytes outside a range are as they were. -/
def MemKeeps (a n : Nat) (s t : State) : Prop := ∀ b, b < a ∨ a + n ≤ b → memGet b t.mem = memGet b s.mem

/-- A write that is a command of its own is accepted: its answer, 0, is the last thing sent, and `P` holds of the state it leaves (R646). -/
def Accepts (s : State) (i : Instr) (l : List Part) (P : State → Prop) : Prop := Gives s i l fun t => t.out.getLast? = some (.reply 0) ∧ P t

/-- A write that is a command of its own is refused: its abort code is answered, and nothing else changes (R646). -/
def Refuses (s : State) (i : Instr) (a : Abort) : Prop := exec i s = .next (send (.reply a.code) s)

/-- A command that is not due changes nothing (log 3). -/
def Idles (s : State) (i : Instr) : Prop := exec i s = .next s

/-- Every queue pair but one is as it was. -/
def QpsKeep (f n : Nat) (s t : State) : Prop := ∀ f' n', ¬(f' = f ∧ n' = n) → qpOf t f' n' = qpOf s f' n'

end Sys2Proof.Machine
end

