-- ==== Sys2Proof/Safety/Sage.lean ====
section
/-!
DEFINITION. The terms of the claims about Sage instructions (06_sage_core.md, 07_vector_and_coprocessor.md): an instruction alone in its
bundle, the core after it, and the operations of the manual's tables written on bit vectors and integers, apart from the meanings.
-/
namespace Sys2Proof.Machine

/-- The word is the only one of its bundle (R215), its core runs a program with record `c`, and its fetch raises nothing. -/
structure Lone (core : CoreId) (w : Word) (c : Core) (s : State) : Prop where
  run : coreRun s core.val = some c
  empty : c.bundle = {}
  last : wE w.toNat = true
  fetch : fetchExcs s core.val c c.pc w.toNat = []
/-- And the core's slice timer is below its limit (R237). -/
structure Alone (core : CoreId) (w : Word) (c : Core) (s : State) : Prop extends Lone core w c s where
  inSlice : sliceOver s core.val c (now s) = false

/-- The core goes on to the word after. -/
def Core.next (c : Core) : Core := { c with bundle := {}, pc := c.pc + 4 }
/-- The state with a core's record replaced, and nothing else. -/
def putCore (core : CoreId) (c : Core) (s : State) : State := { s with sage := { s.sage with cores := tset core.val c s.sage.cores } }
/-- Logical register g n (R209, R210). -/
def Core.reg (c : Core) (n : Nat) : Word := BitVec.ofNat 32 (gR c n)
/-- Logical register g n takes a value; g0 discards it (R209, R210). -/
def Core.put (c : Core) (n : Nat) (v : Word) : Core := if n = 0 then c else { c with g := tset (phys c.rrb n) v.toNat c.g }
/-- Sticky bits of STATUS are set where a condition holds (Table 6-12). -/
def Core.flag (c : Core) (b : Bool) (mask : Nat) : Core := if b then { c with status := c.status ||| mask } else c

/-! ### Tables 6-8 and 6-9 -/

/-- A value saturated to signed 32 bits, and whether it was changed. -/
def satWord (x : Int) : Word × Bool :=
  let y := max (-(2 : Int) ^ 31) (min ((2 : Int) ^ 31 - 1) x)
  (BitVec.ofInt 32 y, decide (y ≠ x))
/-- One or zero. -/
def bitWord (b : Bool) : Word × Bool := (if b then 1 else 0, false)
/-- Leading zeros. -/
def leadingZeros (a : Word) : Nat := ((List.range 32).takeWhile fun i => !a.getMsbD i).length
/-- Leading bits equal to bit 31, bit 31 not counted. -/
def leadingSigns (a : Word) : Nat := ((List.range 31).takeWhile fun i => a.getMsbD (i + 1) == a.getMsbD 0).length

/-- A row of a table: mnemonic, major opcode, FN, the operation with its saturation. -/
structure AluRow where
  make : CoreId → Word → Instr
  op : Nat
  fn : Nat
  f : Word → Word → Word × Bool

/-- Register forms of Table 6-8. -/
def aluRows : List AluRow :=
  [⟨.add, 0x01, 0x00, fun a b => (a + b, false)⟩, ⟨.sub, 0x01, 0x01, fun a b => (a - b, false)⟩,
   ⟨.adds, 0x01, 0x02, fun a b => satWord (a.toInt + b.toInt)⟩, ⟨.subs, 0x01, 0x03, fun a b => satWord (a.toInt - b.toInt)⟩,
   ⟨.and, 0x01, 0x04, fun a b => (a &&& b, false)⟩, ⟨.or, 0x01, 0x05, fun a b => (a ||| b, false)⟩,
   ⟨.xor, 0x01, 0x06, fun a b => (a ^^^ b, false)⟩, ⟨.andn, 0x01, 0x07, fun a b => (a &&& ~~~b, false)⟩,
   ⟨.neg, 0x01, 0x08, fun a _ => (-a, false)⟩, ⟨.negs, 0x01, 0x09, fun a _ => satWord (-a.toInt)⟩,
   ⟨.abs, 0x01, 0x0A, fun a _ => (if a.slt 0 then -a else a, false)⟩, ⟨.abss, 0x01, 0x0B, fun a _ => satWord a.toInt.natAbs⟩,
   ⟨.clz, 0x01, 0x0C, fun a _ => (BitVec.ofNat 32 (leadingZeros a), false)⟩,
   ⟨.cls, 0x01, 0x0D, fun a _ => (BitVec.ofNat 32 (leadingSigns a), false)⟩] ++
  [⟨.sll, 0x04, 0x00, fun a b => (a <<< (b.toNat % 64), false)⟩, ⟨.srl, 0x04, 0x01, fun a b => (a >>> (b.toNat % 64), false)⟩,
   ⟨.sra, 0x04, 0x02, fun a b => (a.sshiftRight (b.toNat % 64), false)⟩,
   ⟨.ror, 0x04, 0x03, fun a b => (a.rotateRight (b.toNat % 32), false)⟩,
   ⟨.slls, 0x04, 0x04, fun a b => satWord (a.toInt * (2 : Int) ^ (b.toNat % 64))⟩]

/-- Compare forms of Table 6-9. -/
def compareRows : List AluRow :=
  [⟨.seq, 0x05, 0x00, fun a b => bitWord (a == b)⟩, ⟨.sne, 0x05, 0x01, fun a b => bitWord (a != b)⟩,
   ⟨.slt, 0x05, 0x02, fun a b => bitWord (a.slt b)⟩, ⟨.sltu, 0x05, 0x03, fun a b => bitWord (a.ult b)⟩,
   ⟨.min, 0x05, 0x04, fun a b => (if a.slt b then a else b, false)⟩, ⟨.max, 0x05, 0x05, fun a b => (if a.slt b then b else a, false)⟩,
   ⟨.minu, 0x05, 0x06, fun a b => (if a.ult b then a else b, false)⟩, ⟨.maxu, 0x05, 0x07, fun a b => (if a.ult b then b else a, false)⟩]

/-- A row of an immediate form: FN, the operation on S and IMM12. -/
structure ImmRow where
  make : CoreId → Word → Instr
  fn : Nat
  f : Word → BitVec 12 → Word × Bool

/-- Immediate forms on 0x02. -/
def immRows : List ImmRow :=
  [⟨.addi, 0, fun a k => (a + k.signExtend 32, false)⟩, ⟨.andi, 1, fun a k => (a &&& k.setWidth 32, false)⟩,
   ⟨.ori, 2, fun a k => (a ||| k.setWidth 32, false)⟩, ⟨.xori, 3, fun a k => (a ^^^ k.setWidth 32, false)⟩,
   ⟨.slti, 4, fun a k => bitWord (a.slt (k.signExtend 32))⟩, ⟨.sltiu, 5, fun a k => bitWord (a.ult (k.signExtend 32))⟩,
   ⟨.addsi, 6, fun a k => satWord (a.toInt + k.toInt)⟩]

/-- Shifts by the T field on 0x04. -/
def shiftRows : List (AluRow) :=
  [⟨.slli, 0x04, 0x10, fun a k => (a <<< k.toNat, false)⟩, ⟨.srli, 0x04, 0x11, fun a k => (a >>> k.toNat, false)⟩,
   ⟨.srai, 0x04, 0x12, fun a k => (a.sshiftRight k.toNat, false)⟩, ⟨.rori, 0x04, 0x13, fun a k => (a.rotateRight k.toNat, false)⟩,
   ⟨.sllsi, 0x04, 0x14, fun a k => satWord (a.toInt * (2 : Int) ^ k.toNat)⟩]

/-- A row of the bit-field forms: FN, the result of D, S, POS and LEN. -/
structure FieldRow where
  make : CoreId → Word → Instr
  fn : Nat
  f : Word → Word → Nat → Nat → Word

/-- Ones in bits [pos + len − 1 : pos]. -/
def maskWord (pos len : Nat) : Word := ((BitVec.allOnes len).setWidth 32) <<< pos
/-- Bit-field forms on 0x04. -/
def fieldRows : List FieldRow :=
  [⟨.extu, 0x20, fun _ a pos len => ((a >>> pos).setWidth len).setWidth 32⟩,
   ⟨.exts, 0x21, fun _ a pos len => ((a >>> pos).setWidth len).signExtend 32⟩,
   ⟨.ins, 0x22, fun d a pos len => (d &&& ~~~maskWord pos len) ||| ((a <<< pos) &&& maskWord pos len)⟩]

/-- Search forms of Table 6-9: FN, whether S replaces the running extreme. -/
structure SearchRow where
  make : CoreId → Word → Instr
  fn : Nat
  better : Word → Word → Bool

def searchRows : List SearchRow :=
  [⟨.maxi, 0x08, fun a d => d.slt a⟩, ⟨.mini, 0x09, fun a d => a.slt d⟩, ⟨.maxiu, 0x0A, fun a d => d.ult a⟩, ⟨.miniu, 0x0B, fun a d => a.ult d⟩]

/-! ### Table 6-10 -/

/-- Conditional branches: COND, whether S and T take it. -/
structure BranchRow where
  make : CoreId → Word → Instr
  cond : Nat
  taken : Word → Word → Bool

def branchRows : List BranchRow :=
  [⟨.beq, 0, fun a b => a == b⟩, ⟨.bne, 1, fun a b => a != b⟩, ⟨.blt, 2, fun a b => a.slt b⟩, ⟨.bge, 3, fun a b => b.sle a⟩,
   ⟨.bltu, 4, fun a b => a.ult b⟩, ⟨.bgeu, 5, fun a b => b.ule a⟩]

/-- This instruction's address + 4 × OFF13. -/
def offTarget (c : Core) (w : Word) : Nat := (BitVec.ofNat 32 c.pc + 4 * (w.setWidth 13).signExtend 32).toNat
/-- Control goes to an address. -/
def Core.goes (c : Core) (t : Nat) : Core := { c with pc := t }
/-- The address of the next bundle goes to g15. -/
def Core.linked (c : Core) (v : Nat) : Core := c.put 15 (BitVec.ofNat 32 v)

/-! ### Tables 6-5, 6-11 and 6-12 -/

/-- Address register a n, modifier register m n, accumulator acc n take a value of their width. -/
def Core.setA (c : Core) (n : Nat) (v : Int) : Core := { c with a := tset n (BitVec.ofInt 32 v).toNat c.a }
def Core.setM (c : Core) (n : Nat) (v : Nat) : Core := { c with m := tset n (BitVec.ofNat 32 v).toNat c.m }
def Core.setAcc (c : Core) (n : Nat) (v : Int) : Core := { c with acc := tset n (BitVec.ofInt 40 v).toInt c.acc }

/-- The update of the address register that a MEM word names (Table 6-5), for accesses of `size` bytes. -/
def Core.postUpdate (c0 c : Core) (w : Word) (size : Nat) : Core :=
  let n := fld w.toNat 17 4
  let k := fld w.toNat 9 3
  let stride := (BitVec.ofNat 16 (mR c k)).toInt
  match fld w.toNat 12 2 with
  | 1 => c0.setA n (aR c n + (w.setWidth 9).toInt * size)
  | 2 => c0.setA n (aR c n + stride)
  | 3 => c0.setA n (circ (aR c n) (mR c k))
  | _ => c0

/-- A MEM access is admitted: OFF is 0 in modes 2 and 3 (R213), and its bytes lie in the access window (R208). -/
def accessOk (s : State) (core : CoreId) (c : Core) (w : Word) (n : Nat) (write : Bool) : Prop :=
  modeOk w.toNat = true ∧ inWindows (windows s core.val c) write (memEa c w.toNat n) n = true

/-- The bytes a load may return: each is the byte in memory, or, inside the local range of an incoming transfer that is not yet complete,
the byte that transfer brings (R234). -/
def loadedBytes (s : State) (core : CoreId) (c : Core) (ea n : Nat) (l : List Byte) : Prop :=
  l.length = n ∧ ∀ i < n,
    l.getD i 0 = (load s (coreAddr core.val + ea) n).getD i 0 ∨
    ∃ g r x, graphOf s c.gid = some g ∧ jobRt s c.gid c.num = some r ∧ x ∈ c.xfers ∧ x.out = false ∧ x.loc ≤ ea + i ∧
      ea + i < x.loc + x.len ∧ l.getD i 0 = (xferSource s g r core.val x).getD (ea + i - x.loc) 0

/-- Scalar loads into one register: SZ, bytes, the word made of them. -/
structure LoadRow where
  make : CoreId → Word → Instr
  sz : Nat
  bytes : Nat
  f : Nat → Word

def loadRows : List LoadRow :=
  [⟨.ldB, 0, 1, fun v => (BitVec.ofNat 8 v).signExtend 32⟩, ⟨.ldBu, 1, 1, fun v => (BitVec.ofNat 8 v).setWidth 32⟩,
   ⟨.ldH, 2, 2, fun v => (BitVec.ofNat 16 v).signExtend 32⟩, ⟨.ldHu, 3, 2, fun v => (BitVec.ofNat 16 v).setWidth 32⟩,
   ⟨.ldW, 4, 4, fun v => BitVec.ofNat 32 v⟩]

/-- What MFS reads from each special register (Table 6-12), in a state and for a core. -/
def specialRegister (s : State) (core : CoreId) (c : Core) (k : Nat) : Option Nat :=
  let cycles := (c.ticks + (now s - c.since) * rd s (kPdClkNow (core.val / 9))) * 25 / 49152
  match k with
  | 0x00 => some (c.lc % 2 ^ 32)
  | 0x01 => some (c.rrb % 16)
  | 0x02 => some ((c.status &&& 0xB) ||| (if holdsClaim s core.val then 4 else 0))
  | 0x03 => some ((if inMaint s core.val then 1 else 0) + if (vecOf s core.val).on then 2 else 0)
  | 0x04 => some cycles
  | 0x05 => some c.cycleHi
  | 0x06 => some ((now s - c.lastYield) / 64)
  | 0x07 => some (locCore core.val / 2 ^ 43)
  | 0x08 => some (now s)
  | 0x09 => some c.dtcHi
  | _ => none
/-- A read of CYCLE_LO latches CYCLE_HI, one of DTC_LO latches DTC_HI. -/
def Core.latch (c : Core) (k v : Nat) : Core :=
  if k = 4 then { c with cycleHi := v / 2 ^ 32 } else if k = 8 then { c with dtcHi := v / 2 ^ 32 } else c

/-! ### R226 and R227 -/

/-- A sum outside 40 bits. -/
def beyond40 (v : Int) : Bool := decide (v < -(2 : Int) ^ 39 ∨ (2 : Int) ^ 39 ≤ v)
/-- A half of a register. -/
def halfWord (a : Word) (high : Bool) : Int := if high then (a.extractLsb' 16 16).toInt else (a.extractLsb' 0 16).toInt
/-- The product of a MAC word. -/
def Core.product (c : Core) (w : Word) : Int :=
  (if w.getLsbD 11 then 2 else 1) * (halfWord (c.reg (fld w.toNat 19 5)) (w.getLsbD 13) * halfWord (c.reg (fld w.toNat 14 5)) (w.getLsbD 12))

/-- The nearest integer to x ÷ 2^sh, ties to the even one. -/
def roundEven (x : Int) (sh : Nat) : Int :=
  let q := (2 * x + 2 ^ sh) / 2 ^ (sh + 1)
  if (2 * x + 2 ^ sh) % 2 ^ (sh + 1) = 0 ∧ q % 2 = 1 then q - 1 else q
/-- A value saturated to signed `b` bits, or to unsigned ones, and whether it was changed. -/
def satLane (b : Nat) (x : Int) : BitVec b × Bool :=
  let y := max (-(2 : Int) ^ (b - 1)) (min ((2 : Int) ^ (b - 1) - 1) x)
  (BitVec.ofInt b y, decide (y ≠ x))
def satLaneU (b : Nat) (x : Int) : BitVec b × Bool :=
  let y := max 0 (min ((2 : Int) ^ b - 1) x)
  (BitVec.ofInt b y, decide (y ≠ x))

/-- Multiply-accumulates: FN, the accumulator's exact new value from its own and the product. -/
structure MacRow where
  make : CoreId → Word → Instr
  fn : Nat
  f : Int → Int → Int

def macRows : List MacRow := [⟨.mpy, 0, fun _ p => p⟩, ⟨.mac, 1, fun a p => a + p⟩, ⟨.msu, 2, fun a p => a - p⟩]

/-! ### Vector lanes (R247, R255) -/

/-- Lane `k` of vector register v n seen as lanes of `b` bits. -/
def Core.lane (c : Core) (n b k : Nat) : BitVec b := BitVec.ofNat b (vR c n >>> (b * k))
/-- Lane `k` of the 32 bytes {T:S}. -/
def Core.lane2 (c : Core) (m n b k : Nat) : BitVec b := if k < 128 / b then c.lane m b k else c.lane n b (k - 128 / b)
/-- Bits of a lane by W. -/
def wBits (w : Word) : Nat := 8 * 2 ^ fld w.toNat 9 2
/-- Registers of the group G names. -/
def groupSize (w : Word) : Nat := 2 ^ fld w.toNat 7 2
/-- The idle count of the vector unit starts again; the unit has woken, if it was gated, and the wake is counted (R267 to R269). -/
def woken (core : CoreId) (s : State) : State :=
  let s1 := modVec core.val (fun v => { v with idleFrom := now s }) s
  if (vecOf s core.val).on then s1
  else bumpBy 32 (kClVwakes (core.val / 9) (core.val % 9)) 1 (modVec core.val (fun v => { v with on := true }) s1)
/-- The core after a vector instruction, its results apart. -/
def Core.vnext (c : Core) : Core := { c.next with vUsed := true }

/-- What a vector instruction did: it answers a next state in which the core has gone on, the vector unit is awake and `drawn` values were
drawn; of its core only vector registers of the list, vector accumulators and STATUS differ. -/
def VecGives (core : CoreId) (c : Core) (s : State) (i : Instr) (drawn : Nat) (regs : List Nat) (P : Core → Prop) : Prop :=
  ∃ c', exec i s = .next (putCore core c' { woken core s with freeCtr := s.freeCtr + drawn }) ∧
    { c' with v := c.v, vacc := c.vacc, status := c.status } = c.vnext ∧ (∀ n < 32, n ∉ regs → vR c' n = vR c n) ∧ P c'
/-- Sticky bits of the core after. -/
def Core.statusIs (c' c : Core) (b : Prop) (mask : Nat) : Prop := (b → c'.status = c.status ||| mask) ∧ (¬b → c'.status = c.status)

/-- A lane form of Tables 7-4 and 7-5: opcode, FN, the W it lists, whether it has a second source, the lane from W's bits, IMM5, the lane's
number and the lanes of D, S and T. -/
structure LaneRow where
  make : CoreId → Word → Instr
  op : Nat
  fn : Nat
  ws : List Nat
  two : Bool
  f : (b : Nat) → (imm k : Nat) → BitVec b → BitVec b → BitVec b → BitVec b × Bool

/-- All ones where a condition holds. -/
def ones (b : Nat) (p : Bool) : BitVec b × Bool := (if p then BitVec.allOnes b else 0, false)

def laneRows : List LaneRow :=
  [⟨.vadd, 0x10, 0x00, [0, 1, 2], true, fun _ _ _ _ x y => (x + y, false)⟩,
   ⟨.vsub, 0x10, 0x01, [0, 1, 2], true, fun _ _ _ _ x y => (x - y, false)⟩,
   ⟨.vadds, 0x10, 0x02, [0, 1, 2], true, fun b _ _ _ x y => satLane b (x.toInt + y.toInt)⟩,
   ⟨.vsubs, 0x10, 0x03, [0, 1, 2], true, fun b _ _ _ x y => satLane b (x.toInt - y.toInt)⟩,
   ⟨.vaddus, 0x10, 0x04, [0, 1], true, fun b _ _ _ x y => satLaneU b (x.toNat + y.toNat)⟩,
   ⟨.vsubus, 0x10, 0x05, [0, 1], true, fun b _ _ _ x y => satLaneU b ((x.toNat : Int) - y.toNat)⟩,
   ⟨.vavgr, 0x10, 0x06, [0, 1, 2], true, fun b _ _ _ x y => (BitVec.ofInt b (roundEven (x.toInt + y.toInt) 1), false)⟩,
   ⟨.vnegs, 0x10, 0x07, [1, 2], false, fun b _ _ _ x _ => satLane b (-x.toInt)⟩,
   ⟨.vabss, 0x10, 0x08, [1, 2], false, fun b _ _ _ x _ => satLane b x.toInt.natAbs⟩,
   ⟨.vmin, 0x10, 0x09, [0, 1, 2], true, fun _ _ _ _ x y => (if x.slt y then x else y, false)⟩,
   ⟨.vmax, 0x10, 0x0A, [0, 1, 2], true, fun _ _ _ _ x y => (if x.slt y then y else x, false)⟩,
   ⟨.vminu, 0x10, 0x0B, [0, 1, 2], true, fun _ _ _ _ x y => (if x.ult y then x else y, false)⟩,
   ⟨.vmaxu, 0x10, 0x0C, [0, 1, 2], true, fun _ _ _ _ x y => (if x.ult y then y else x, false)⟩] ++
  [⟨.vand, 0x10, 0x0D, [0], true, fun _ _ _ _ x y => (x &&& y, false)⟩,
   ⟨.vor, 0x10, 0x0E, [0], true, fun _ _ _ _ x y => (x ||| y, false)⟩,
   ⟨.vxor, 0x10, 0x0F, [0], true, fun _ _ _ _ x y => (x ^^^ y, false)⟩,
   ⟨.vandn, 0x10, 0x10, [0], true, fun _ _ _ _ x y => (x &&& ~~~y, false)⟩,
   ⟨.vcmpeq, 0x10, 0x11, [0, 1, 2], true, fun b _ _ _ x y => ones b (x == y)⟩,
   ⟨.vcmpgt, 0x10, 0x12, [0, 1, 2], true, fun b _ _ _ x y => ones b (y.slt x)⟩,
   ⟨.vcmpgtu, 0x10, 0x13, [0, 1, 2], true, fun b _ _ _ x y => ones b (y.ult x)⟩,
   ⟨.vsel, 0x10, 0x14, [0], true, fun _ _ _ d x y => ((x &&& d) ||| (y &&& ~~~d), false)⟩,
   ⟨.vmulr, 0x10, 0x18, [1], true, fun b _ _ _ x y => satLane b (roundEven (x.toInt * y.toInt) 15)⟩,
   ⟨.vconjs, 0x10, 0x1B, [1], false, fun b _ k _ x _ => if k % 2 = 1 then satLane b (-x.toInt) else (x, false)⟩,
   ⟨.vmull, 0x10, 0x1C, [1], true, fun _ _ _ _ x y => (x * y, false)⟩]

/-- Shifts by IMM5 on 0x11. -/
def laneShiftRows : List LaneRow :=
  [⟨.vsll, 0x11, 0x00, [0, 1, 2], true, fun _ imm _ _ x _ => (x <<< imm, false)⟩,
   ⟨.vsrl, 0x11, 0x01, [0, 1, 2], true, fun _ imm _ _ x _ => (x >>> imm, false)⟩,
   ⟨.vsra, 0x11, 0x02, [0, 1, 2], true, fun _ imm _ _ x _ => (x.sshiftRight imm, false)⟩,
   ⟨.vsrar, 0x11, 0x03, [0, 1, 2], true, fun b imm _ _ x _ =>
     (if b ≤ imm then x.sshiftRight imm else BitVec.ofInt b (roundEven x.toInt imm), false)⟩,
   ⟨.vslls, 0x11, 0x04, [1, 2], true, fun b imm _ _ x _ => satLane b (x.toInt * (2 : Int) ^ imm)⟩]

/-- The first register of a group is a multiple of its size (R248). -/
def groupsOk (w : Word) (regs : List Nat) : Prop := fld w.toNat 7 2 < 3 ∧ w.getLsbD 6 = false ∧ ∀ n ∈ regs, n % groupSize w = 0
/-- The registers of the group at D. -/
def groupRegs (w : Word) : List Nat := (List.range (groupSize w)).map (wD w.toNat + ·)

/-- Complex products of element `k` of S and T: the real or, for an odd lane, the imaginary part (R256). -/
def complexLane (conj : Bool) (k : Nat) (x y : Nat → BitVec 16) : Int :=
  let a := (x (k / 2 * 2)).toInt
  let b := (x (k / 2 * 2 + 1)).toInt
  let c := (y (k / 2 * 2)).toInt
  let d := (y (k / 2 * 2 + 1)).toInt
  if k % 2 = 0 then (if conj then a * c + b * d else a * c - b * d) else (if conj then b * c - a * d else a * d + b * c)

/-- Vector multiply-accumulates (Table 7-6): FN, the exact product of a lane, the exact new value of the lane. -/
structure VmacRow where
  make : CoreId → Word → Instr
  fn : Nat
  p : Nat → (Nat → BitVec 16) → (Nat → BitVec 16) → Int
  f : Int → Int → Int

def vmacRows : List VmacRow :=
  let re := fun (k : Nat) (x y : Nat → BitVec 16) => (x k).toInt * (y k).toInt
  [⟨.vmpy, 0, re, fun _ p => p⟩, ⟨.vmac, 1, re, fun a p => a + p⟩, ⟨.vmsu, 2, re, fun a p => a - p⟩,
   ⟨.vcmpy, 4, complexLane false, fun _ p => p⟩, ⟨.vcmac, 5, complexLane false, fun a p => a + p⟩,
   ⟨.vcmsu, 6, complexLane false, fun a p => a - p⟩, ⟨.vcmpyj, 7, complexLane true, fun _ p => p⟩,
   ⟨.vcmacj, 8, complexLane true, fun a p => a + p⟩]
/-- Lane `i` of vacc n. -/
def Core.accLane (c : Core) (n i : Nat) : Int := (vaccR c n).getD i 0
/-- Every other vector accumulator is as it was. -/
def Core.otherAcc (c' c : Core) (n : Nat) : Prop := ∀ m < 4, m ≠ n → vaccR c' m = vaccR c m

/-- Permutes (Table 7-8): FN, lane bits, fields admitted, lane `k` of D. -/
structure PermRow where
  make : CoreId → Word → Instr
  fn : Nat
  b : Nat
  ok : Word → Bool
  f : Core → Word → Nat → BitVec b

/-- Register numbers of a VP word, and its IMM5. -/
def vS (w : Word) : Nat := wS w.toNat
def vT (w : Word) : Nat := wT w.toNat
def vI (w : Word) : Nat := wMid w.toNat

def permRows : List PermRow :=
  [⟨.vpermB, 0x00, 8, fun _ => true, fun c w k =>
     if (c.lane (vI w) 8 k).getLsbD 7 then 0 else c.lane2 (vS w) (vT w) 8 ((c.lane (vI w) 8 k).toNat % 32)⟩,
   ⟨.valign, 0x01, 8, fun w => vI w ≤ 16, fun c w k => c.lane2 (vS w) (vT w) 8 (k + vI w)⟩,
   ⟨.vilvlH, 0x02, 16, fun _ => true, fun c w k => if k % 2 = 0 then c.lane (vS w) 16 (k / 2) else c.lane (vT w) 16 (k / 2)⟩,
   ⟨.vilvhH, 0x03, 16, fun _ => true, fun c w k => if k % 2 = 0 then c.lane (vS w) 16 (k / 2 + 4) else c.lane (vT w) 16 (k / 2 + 4)⟩,
   ⟨.vdilveH, 0x04, 16, fun _ => true, fun c w k => c.lane2 (vS w) (vT w) 16 (2 * k)⟩,
   ⟨.vdilvoH, 0x05, 16, fun _ => true, fun c w k => c.lane2 (vS w) (vT w) 16 (2 * k + 1)⟩,
   ⟨.vrevH, 0x06, 16, fun w => vT w == 0, fun c w k => c.lane (vS w) 16 (7 - k)⟩,
   ⟨.vrevW, 0x07, 32, fun w => vT w == 0, fun c w k => c.lane (vS w) 32 (3 - k)⟩,
   ⟨.vsplatH, 0x08, 16, fun w => vI w < 8, fun c w _ => c.lane (vS w) 16 (vI w)⟩,
   ⟨.vsplatW, 0x09, 32, fun w => vI w < 4, fun c w _ => c.lane (vS w) 32 (vI w)⟩]

/-! ### The coprocessor (R271 to R282) -/

/-- The coprocessor of a core's cluster, and the state with it changed. -/
def cmcAt (s : State) (core : CoreId) : Cmc := cmcOf s (core.val / 9)
def putCmc (core : CoreId) (f : Cmc → Cmc) (s : State) : State := modCmc (core.val / 9) f s
/-- Sticky flags of the coprocessor are set (Table 7-17). -/
def cmcSets (core : CoreId) (mask : Nat) (s : State) : State := putCmc core (fun m => { m with flags := m.flags ||| mask }) s
/-- A pair D, D + 1 takes two values (R211). -/
def Core.pair (c : Core) (d : Nat) (x y : Word) : Core := (c.put d x).put (d + 1) y
/-- The core after an operation of the coprocessor on 0x1C: it is pending until its latency is over (Table 7-15). -/
def Core.cxNext (c : Core) (core : CoreId) (w : Word) (s : State) : Core :=
  { c.next with pend := max c.pend (now s + cyclesToTc (cxLatency (wFn w.toNat) (cxIdx w.toNat)) (rd s (kPdClkNow (core.val / 9)))) }
/-- The I and Q part of a complex Q15 word. -/
def partI (a : Word) : Int := (a.extractLsb' 0 16).toInt
def partQ (a : Word) : Int := (a.extractLsb' 16 16).toInt
/-- The larger magnitude of the parts of a complex word. -/
def largerPart (a : Word) : Nat := max (partI a).natAbs (partQ a).natAbs
/-- `drawn` values were drawn. -/
def drew (k : Nat) (s : State) : State := { s with freeCtr := s.freeCtr + k }
/-- A CX word with function `fn`; IDX 4r + c lies in the lower triangle. -/
def cxWord (w : Word) (fn : Nat) (d s t idx : Bool) : Prop :=
  wOp w.toNat = 0x1C ∧ wFn w.toNat = fn ∧ cxOk { d := d, s := s, t := t, idx := idx } w.toNat = true
/-- A CXC word with function `fn`, its unused fields 0. -/
def cxcWord (w : Word) (fn : Nat) (useD useA : Bool) : Prop :=
  wOp w.toNat = 0x1D ∧ wFn w.toNat = fn ∧ fld w.toNat 6 11 = 0 ∧ (useD = false → wD w.toNat = 0) ∧ (useA = false → fld w.toNat 17 4 = 0)

end Sys2Proof.Machine
end

