-- ==== Sys2Proof/Certificates/Slice0/Obligations.lean ====
section
/-!
DEFINITION. The statements for the provers: what each command of the block does, family by family, and what holds of every command,
every step and reset. An effect a clause does not name is bounded by the list of parts that `Gives` carries (Safety.lean).
-/
open Sys2Proof Sys2Proof.Machine

/-- With a command in front of the queue, a step is that command's effect on the state with the queue's rest (log 2). -/
def Obligations.StepRunsTheFrontCommand : Prop :=
  ∀ (c : Instr) (s : State), step { s with pending := c :: s.pending } = exec c s

/-- What reset leaves (R3, R10, R617, R623, R624, R638, Tables 3-5, 18-4, 18-6 and 20-9): every dictionary object at its default, the
registers of BAR0 at their Reset column, memory cleared and in canonical form, no graph, no command waiting. That the rails are up and the DTC
is 0 is the model's choice (log 6, 8). -/
def Obligations.ResetLeavesTheDefaults : Prop :=
  let z := State.reset
  z.Inv ∧ z.pending = [] ∧ (∀ a, memGet a z.mem = 0) ∧ (∀ k, rd z k = objDefault k) ∧ z.work.graphs = [] ∧ z.out = [] ∧
  (∀ t < 512, tenantState z t = if t = 0 then 1 else 0) ∧
  (∀ u < 108, rd z (kPlSageRole u) = if u % 9 = 8 then 0x001C0000 else 0x00040000) ∧
  (∀ f < 512, regRead z f 0x000 = 0x6412B101 ∧ regRead z f 0x004 = (if f = 0 then 0x600 else f) ∧ regRead z f 0x028 = 0x00001004 ∧
    regRead z f 0x038 = 1 ∧ (∀ o ∈ [0x020, 0x024, 0x02C, 0x030, 0x034, 0x040, 0x044, 0x048, 0x04C, 0x5000], regRead z f o = 0)) ∧
  (∀ f < 512, ∀ n < 16, let b := 0x1000 + 0x100 * n
    regRead z f (b + 0x10) = n * 0x10000 + 0x0C0C ∧ regRead z f (b + 0x14) = 1 ∧
      ∀ o ∈ [0x00, 0x04, 0x08, 0x0C, 0x18, 0x1C, 0x20, 0x24, 0x28, 0x2C, 0x30, 0x34, 0x38, 0x3C], regRead z f (b + o) = 0) ∧
  z.boot.cause = 0x01 ∧ d0Runs z = true ∧ now z = 0

/-- The global address map (R35, R36, R39): on-die memory, cluster memory, core and engine windows, buffers, control space and retention
memory where Table 1-10 puts them, installed DRAM from its base on, the host windows, and holes everywhere else. -/
def Obligations.GlobalAddressMap : Prop :=
  let lies := fun (a base size : Nat) => base ≤ a ∧ a < base + size
  ∀ (s : State) (a : Nat), let r := regionOf s a
    (∀ q < 4, ∀ b < 16, lies a (q * 0x1000000 + b * 0x100000) 0x100000 → r = .gb q b) ∧
    (∀ c < 12, lies a (0x10000000 + c * 0x800000) 0x800000 → r = .cluster c) ∧
    (∀ c < 12, ∀ u < 9, let w := 0x20000000 + c * 0x1000000 + u * 0x100000
      (lies a w 0x20000 → r = .imem (9 * c + u)) ∧ (lies a (w + 0x80000) 0x60000 → r = .dmem (9 * c + u))) ∧
    (∀ g < 8, ∀ u < 15, lies a (0x40000000 + g * 0x2000000 + u * 0x100000) 0x100000 → r = .engine (15 * g + u)) ∧
    (∀ g < 8, lies a (0x40000000 + g * 0x2000000 + 0x1000000) 0x200000 → r = .elb g) ∧
    (lies a 0x80000000 0x40000000 → r = .control) ∧ (lies a 0xC0000000 0x200000 → r = .retention) ∧
    (lies a 0x8000000000 0x8000000000 → r = if a < 0x8000000000 + rd s kDrCapacity then .dram else .hole) ∧
    (∀ h, lies a 0x100000000000 (2 ^ 52 - 0x100000000000) → a = 0x100000000000 + h → r = .host h) ∧
    ((∀ q < 4, ∀ b < 16, ¬lies a (q * 0x1000000 + b * 0x100000) 0x100000) → (∀ c < 12, ¬lies a (0x10000000 + c * 0x800000) 0x800000) →
      (∀ c < 12, ∀ u < 9, let w := 0x20000000 + c * 0x1000000 + u * 0x100000
        ¬lies a w 0x20000 ∧ ¬lies a (w + 0x80000) 0x60000) →
      (∀ g < 8, ∀ u < 15, ¬lies a (0x40000000 + g * 0x2000000 + u * 0x100000) 0x100000) →
      (∀ g < 8, ¬lies a (0x40000000 + g * 0x2000000 + 0x1000000) 0x200000) → ¬lies a 0x80000000 0x40000000 → ¬lies a 0xC0000000 0x200000 →
      ¬lies a 0x8000000000 0x8000000000 → ¬lies a 0x100000000000 (2 ^ 52 - 0x100000000000) → r = .hole)

/-- Circular update (R214): linear where LEN is 0; otherwise the base is the address without its low k bits, k the smallest with 2^k ≥ LEN,
and the offset plus STRIDE is corrected once, whatever STRIDE is. A load in mode CIRC completes and leaves that address in its register. -/
def Obligations.CircularUpdate : Prop :=
  (∀ (a m : Word) (k : Nat), let len := (m.extractLsb' 16 16).toNat; let stride := (m.extractLsb' 0 16).toInt
    (len = 0 → circ a.toNat m.toNat = a.toNat + stride) ∧
    (len ≠ 0 → len ≤ 2 ^ k → (∀ j, len ≤ 2 ^ j → k ≤ j) →
      let base : Int := a.toNat - a.toNat % 2 ^ k
      let off : Int := a.toNat % 2 ^ k + stride
      circ a.toNat m.toNat = base + (if len ≤ off then off - len else if off < 0 then off + len else off))) ∧
  (∀ (core : CoreId) (w : Word) (c : Core) (s : State), Alone core w c s → wOp w.toNat = 0x18 ∨ wOp w.toNat = 0x19 → fld w.toNat 12 2 = 3 →
    accessOk s core c w 1 false → rangePoisoned s (coreAddr core.val + memEa c w.toNat 1) 1 = false → fld w.toNat 14 3 = 0 →
      let n := fld w.toNat 17 4
      ∃ t c', exec (.ldB core w) s = .next t ∧ tfind core.val t.sage.cores = some c' ∧
        aR c' n = ofInt 32 (circ (aR c n) (mR c (fld w.toNat 9 3))))

/-- Every step of every state answers a next state and takes exactly the front of the queue, and a step keeps the invariant: memory in its
canonical form, every waiting command well-formed (log 1 to 3, 68). -/
def Obligations.EveryStepKeepsTheInvariant : Prop :=
  ∀ s : State, ∃ t, step s = .next t ∧ t.pending = s.pending.drop 1 ∧ (s.Inv → t.Inv)

/-- ALU, shift, compare and search register forms of a Sage core (R219, R220): D takes the operation of Tables 6-8 and 6-9 on S and T, a
saturating form sets STATUS.SAT where it saturates, a search replaces the running extreme of an even D, with its index in D + 1, exactly where
S is strictly better; g0 discards, and nothing else of the device changes. -/
def Obligations.SageRegisterFormsWriteD : Prop :=
  ∀ (core : CoreId) (w : Word) (c : Core) (s : State), Alone core w c s → wMid w.toNat = 0 →
    (∀ r ∈ aluRows ++ compareRows, wOp w.toNat = r.op → wFn w.toNat = r.fn →
      let v := r.f (c.reg (wS w.toNat)) (c.reg (wT w.toNat))
      exec (r.make core w) s = .next (putCore core ((c.next.put (wD w.toNat) v.1).flag v.2 fSat) s)) ∧
    (∀ r ∈ searchRows, wOp w.toNat = 0x05 → wD w.toNat % 2 = 0 → wFn w.toNat = r.fn →
      exec (r.make core w) s = .next (putCore core
        (if r.better (c.reg (wS w.toNat)) (c.reg (wD w.toNat)) then
          (c.next.put (wD w.toNat) (c.reg (wS w.toNat))).put (wD w.toNat + 1) (c.reg (wT w.toNat))
        else c.next) s))

/-- Immediate, LUI, immediate-shift and bit-field forms of a Sage core (R219). -/
def Obligations.SageImmediateFormsWriteD : Prop :=
  ∀ (core : CoreId) (w : Word) (c : Core) (s : State), Alone core w c s →
    let a := c.reg (wS w.toNat)
    let D := wD w.toNat
    (∀ r ∈ immRows, wOp w.toNat = 0x02 → fld w.toNat 12 4 = r.fn →
      let v := r.f a (w.setWidth 12)
      exec (r.make core w) s = .next (putCore core ((c.next.put D v.1).flag v.2 fSat) s)) ∧
    (wOp w.toNat = 0x03 → exec (.lui core w) s = .next (putCore core (c.next.put D ((w.setWidth 21).setWidth 32 <<< 11)) s)) ∧
    (∀ r ∈ shiftRows, wOp w.toNat = r.op → wFn w.toNat = r.fn → wMid w.toNat = 0 →
      let v := r.f a (BitVec.ofNat 32 (wT w.toNat))
      exec (r.make core w) s = .next (putCore core ((c.next.put D v.1).flag v.2 fSat) s)) ∧
    (∀ r ∈ fieldRows, wOp w.toNat = 0x04 → wFn w.toNat = r.fn → wT w.toNat + wMid w.toNat + 1 ≤ 32 →
      exec (r.make core w) s = .next (putCore core (c.next.put D (r.f (c.reg D) a (wT w.toNat) (wMid w.toNat + 1))) s))

/-- Branches, jumps and loops (R221, R222, R274): where control goes, what the link, the loop count and the rotating base become. -/
def Obligations.SageControlTransfers : Prop :=
  ∀ (core : CoreId) (w : Word) (c : Core) (s : State), Alone core w c s →
    let n := w.toNat
    let busy := cmcBusy (cmcOf s (core.val / 9)) (core.val % 9)
    let reg := c.reg (fld n 18 5)
    (∀ r ∈ branchRows, wOp n = 0x06 → fld n 13 3 = r.cond →
      exec (r.make core w) s = .next (putCore core
        (if r.taken (c.reg (wD n)) (c.reg (wS n)) then c.next.goes (offTarget c w) else c.next) s)) ∧
    (wOp n = 0x06 → fld n 13 3 = 6 → fld n 16 10 = 0 → usesCmc s c = true →
      exec (.bcb core w) s = .next (putCore core (if busy then c.next.goes (offTarget c w) else c.next) s)) ∧
    (wOp n = 0x06 → fld n 13 3 = 7 → fld n 16 10 = 0 → usesCmc s c = true →
      exec (.bcnb core w) s = .next (putCore core (if busy then c.next else c.next.goes (offTarget c w)) s)) ∧
    (wOp n = 0x07 → fld n 15 3 = 0 →
      (fld n 23 3 = 0 → exec (.j core w) s = .next (putCore core (c.next.goes (4 * fld n 0 15)) s)) ∧
      (fld n 23 3 = 1 → exec (.jal core w) s = .next (putCore core ((c.next.linked (c.pc + 4)).goes (4 * fld n 0 15)) s)) ∧
      (fld n 23 3 = 2 → reg.toNat % 4 = 0 → exec (.jr core w) s = .next (putCore core (c.next.goes reg.toNat) s)) ∧
      (fld n 23 3 = 3 → reg.toNat % 4 = 0 →
        exec (.jalr core w) s = .next (putCore core ((c.next.linked (c.pc + 4)).goes reg.toNat) s))) ∧
    (wOp n = 0x08 →
      (fld n 23 3 = 0 → fld n 13 10 = 0 →
        let c1 := { c.next with rrb := (c.rrb + 1) % 16 }
        exec (.brl core w) s = .next (putCore core
          (if 1 < c.lc % 2 ^ 32 then { c1 with lc := c.lc % 2 ^ 32 - 1, pc := offTarget c w } else { c1 with lc := 0 }) s)) ∧
      (fld n 23 3 = 1 → exec (.lci core w) s = .next (putCore core { c.next with lc := fld n 0 23 } s)) ∧
      (fld n 23 3 = 2 → fld n 0 18 = 0 → exec (.lcr core w) s = .next (putCore core { c.next with lc := reg.toNat } s)) ∧
      (fld n 23 3 = 3 → fld n 0 23 = 0 → exec (.rot core w) s = .next (putCore core { c.next with rrb := (c.rrb + 1) % 16 } s)))

/-- Loads (R212, R213, R223, R234, R253): an admitted, aligned access that meets no poison brings its bytes, each old or new inside a
transfer that still runs, extended as the form says, and updates its address register; no memory changes. -/
def Obligations.SageLoadsBringMemory : Prop :=
  ∀ (core : CoreId) (w : Word) (c : Core) (s : State), Alone core w c s → wOp w.toNat = 0x18 ∨ wOp w.toNat = 0x19 →
    let D := wD w.toNat
    let ea := fun n => memEa c w.toNat n
    let Reads := fun (i : Instr) (n : Nat) (t : State) (f : List Byte → Core) =>
      accessOk s core c w n false → rangePoisoned s (coreAddr core.val + ea n) n = false →
        ∃ l k, loadedBytes s core c (ea n) n l ∧ k ≤ n ∧
          exec i s = .next (putCore core ((f l).postUpdate c w n) { t with freeCtr := t.freeCtr + k })
    (∀ r ∈ loadRows, fld w.toNat 14 3 = r.sz → ea r.bytes % r.bytes = 0 →
      Reads (r.make core w) r.bytes s fun l => c.next.put D (r.f (ofBytes l))) ∧
    (fld w.toNat 14 3 = 5 → D % 2 = 0 → ea 8 % 8 = 0 →
      Reads (.ldD core w) 8 s fun l =>
        (c.next.put D (BitVec.ofNat 32 (fieldAt l 0 4))).put (D + 1) (BitVec.ofNat 32 (fieldAt l 4 4))) ∧
    (fld w.toNat 14 3 = 6 → usesVector s c = true →
      Reads (.vectorLoad16 core w) 16 (woken core s) fun l => { c.vnext with v := tset (phys c.rrb D) (ofBytes l) c.v }) ∧
    (fld w.toNat 14 3 = 7 → usesVector s c = true → D % 2 = 0 →
      Reads (.vectorLoad32 core w) 32 (woken core s) fun l =>
        { c.vnext with v := tset (phys c.rrb (D + 1)) (ofBytes (l.drop 16)) (tset (phys c.rrb D) (ofBytes (l.take 16)) c.v) })

/-- Stores (R212, R213, R223, R234, R253): the register's bytes go to the effective address in the core's data memory and to no other
byte, the address register is updated, and of the device nothing else changes but what integrity keeps of those bytes. -/
def Obligations.SageStoresWriteMemory : Prop :=
  ∀ (core : CoreId) (w : Word) (c : Core) (s : State), Alone core w c s → wOp w.toNat = 0x09 → Memory.wf s.mem = true →
    let D := wD w.toNat
    let Writes := fun (i : Instr) (l : List Byte) (t0 : State) (c1 : Core) =>
      accessOk s core c w l.length true →
        let a := coreAddr core.val + memEa c w.toNat l.length
        let t := dmemStore core.val (memEa c w.toNat l.length) l (putCore core (c1.postUpdate c w l.length) t0)
        exec i s = .next t ∧ load t a l.length = l ∧ (∀ b, b < a ∨ a + l.length ≤ b → memGet b t.mem = memGet b s.mem) ∧
          Only [.work, .sage, .mem, .sram, .dram] t0 t
    (fld w.toNat 14 3 = 0 → Writes (.stB core w) (toBytes 1 (c.reg D).toNat) s c.next) ∧
    (fld w.toNat 14 3 = 2 → memEa c w.toNat 2 % 2 = 0 → Writes (.stH core w) (toBytes 2 (c.reg D).toNat) s c.next) ∧
    (fld w.toNat 14 3 = 4 → memEa c w.toNat 4 % 4 = 0 → Writes (.stW core w) (toBytes 4 (c.reg D).toNat) s c.next) ∧
    (fld w.toNat 14 3 = 5 → D % 2 = 0 → memEa c w.toNat 8 % 8 = 0 →
      Writes (.stD core w) (toBytes 4 (c.reg D).toNat ++ toBytes 4 (c.reg (D + 1)).toNat) s c.next) ∧
    (fld w.toNat 14 3 = 6 → usesVector s c = true → Writes (.vectorStore16 core w) (toBytes 16 (vR c D)) (woken core s) c.vnext) ∧
    (fld w.toNat 14 3 = 7 → usesVector s c = true → D % 2 = 0 →
      Writes (.vectorStore32 core w) (toBytes 16 (vR c D) ++ toBytes 16 (vR c (D + 1))) (woken core s) c.vnext)

/-- Special registers and address arithmetic (R224). -/
def Obligations.SageSpecialRegisters : Prop :=
  ∀ (core : CoreId) (w : Word) (c : Core) (s : State), Alone core w c s →
    let n := w.toNat
    let v := (c.reg (wD n)).toNat
    let A := adA n
    let M := adM n
    let g := c.reg (adG n)
    (wOp n = 0x0A → fld n 0 15 = 0 → w.getLsbD 15 = false → ∀ x, specialRegister s core c (wS n) = some x →
      exec (.mfs core w) s = .next (putCore core ((c.next.put (wD n) (BitVec.ofNat 32 x)).latch (wS n) x) s)) ∧
    (wOp n = 0x0A → fld n 0 15 = 0 → w.getLsbD 15 = true →
      (wS n = 0 → exec (.mts core w) s = .next (putCore core { c.next with lc := v } s)) ∧
      (wS n = 1 → exec (.mts core w) s = .next (putCore core { c.next with rrb := v % 16 } s)) ∧
      (wS n = 2 → exec (.mts core w) s = .next (putCore core { c.next with status := v &&& 0xB } s))) ∧
    (wOp n = 0x0B →
      (fld n 23 3 = 0 → exec (.adda core w) s = .next (putCore core (c.next.setA A (aR c A + (w.setWidth 14).toInt)) s)) ∧
      (fld n 23 3 = 1 → exec (.addag core w) s = .next (putCore core (c.next.setA A (aR c A + g.toInt)) s)) ∧
      (fld n 23 3 = 2 → exec (.mga core w) s = .next (putCore core (c.next.setA A g.toNat) s)) ∧
      (fld n 23 3 = 3 → exec (.mag core w) s = .next (putCore core (c.next.put (adG n) (BitVec.ofNat 32 (aR c A))) s)) ∧
      (fld n 23 3 = 4 → w.getLsbD 22 = false → exec (.mgm core w) s = .next (putCore core (c.next.setM M g.toNat) s)) ∧
      (fld n 23 3 = 5 → w.getLsbD 22 = false →
        exec (.mmg core w) s = .next (putCore core (c.next.put (adG n) (BitVec.ofNat 32 (mR c M))) s)))

/-- Multiply-accumulate and extraction (R225 to R227): the accumulator wraps to 40 bits and AOV records that it left them; extraction
rounds to the nearest, ties to even, saturates and sets SAT. -/
def Obligations.SageAccumulators : Prop :=
  ∀ (core : CoreId) (w : Word) (c : Core) (s : State), Alone core w c s →
    let n := w.toNat
    let A := fld n 24 2
    let X := fld n 19 2
    (wOp n = 0x0C → fld n 0 6 = 0 →
      (∀ r ∈ macRows, fld n 6 4 = r.fn → w.getLsbD 10 = false →
        let v := r.f (accR c A) (c.product w)
        exec (r.make core w) s = .next (putCore core ((c.next.setAcc A v).flag (beyond40 v) fAov) s)) ∧
      (fld n 6 4 = 3 → fld n 10 14 = 0 → exec (.clra core w) s = .next (putCore core (c.next.setAcc A 0) s)) ∧
      (fld n 6 4 = 4 → fld n 10 9 = 0 → exec (.mta core w) s = .next (putCore core (c.next.setAcc A (c.reg (fld n 19 5)).toInt) s)) ∧
      (fld n 6 4 = 5 → fld n 10 9 = 0 →
        exec (.mtg core w) s = .next (putCore core (c.next.setAcc A
          (((c.reg (fld n 19 5)).setWidth 8 ++ BitVec.ofInt 32 (accR c A) : BitVec 40).toInt)) s))) ∧
    (wOp n = 0x0D → fld n 0 10 = 0 →
      (fld n 10 3 = 0 →
        let v := satLane (if w.getLsbD 13 then 32 else 16) (roundEven (accR c X) (fld n 14 5))
        exec (.extr core w) s = .next (putCore core ((c.next.put (wD n) (v.1.signExtend 32)).flag v.2 fSat) s)) ∧
      (fld n 10 3 = 1 → exec (.mfa core w) s = .next (putCore core (c.next.put (wD n) (BitVec.ofInt 32 (accR c X))) s)) ∧
      (fld n 10 3 = 2 →
        exec (.mfg core w) s = .next (putCore core (c.next.put (wD n) (((BitVec.ofInt 40 (accR c X)).extractLsb' 32 8).signExtend 32)) s)))

/-- Control and transfer instructions (R233 to R236): a wait that need not wait lets the core go on, one that must leaves everything as it
is until the tag is free (log 3), XTEST tells which, and an XFER within the limits of R233 joins the core's transfers. -/
def Obligations.SageControlAndTransfers : Prop :=
  ∀ (core : CoreId) (w : Word) (c : Core) (s : State), Alone core w c s →
    let n := w.toNat
    let tag := fld n 0 4
    (wOp n = 0x00 → ctrlOk n = true →
      (fld n 21 5 = 0 → exec (.nop core w) s = .next (putCore core c.next s)) ∧
      (fld n 21 5 = 3 → exec (.xwait core w) s = .next (if tagBusy c tag then s else putCore core c.next s)) ∧
      (fld n 21 5 = 4 → exec (.xtest core w) s = .next (putCore core (c.next.put (wS n) (if tagBusy c tag then 0 else 1)) s)) ∧
      (fld n 21 5 = 5 → exec (.xwaitall core w) s = .next (if c.xfers = [] then putCore core c.next s else s)) ∧
      (fld n 21 5 = 1 → c.xfers ≠ [] → exec (.yield core w) s = .next s) ∧
      (fld n 21 5 = 2 → c.xfers ≠ [] → exec (.sageEnd core w) s = .next s)) ∧
    (wOp n = 0x0E → fld n 0 4 = 0 →
      (tagBusy c (fld n 4 4) = true → exec (.xfer core w) s = .next s) ∧
      (tagBusy c (fld n 4 4) = false → ∀ g r ref, graphOf s c.gid = some g → jobRt s c.gid c.num = some r →
        (g.jobs.getD c.num {}).refs.find? (fun e => e.1 == fld n 9 3) = some ref → pRefLocal (progRun s c.prog) (fld n 9 3) = false →
        let ofs := (c.reg (wD n)).toNat
        let loc := aR c (fld n 17 4)
        let len := (c.reg (fld n 12 5)).toNat
        (if w.getLsbD 8 then ref.2.1 ≠ 0 else ref.2.1 ≠ 1) → ofs % 64 = 0 → loc % 64 = 0 → len % 64 = 0 → 64 ≤ len → len ≤ 65536 →
        ofs + len ≤ (bufD g ref.2.2).size → inWindows (windows s core.val c) (!w.getLsbD 8) loc len = true →
          let x : Xfer := { tag := fld n 4 4, out := w.getLsbD 8, buf := ref.2.2, ofs := ofs, loc := loc, len := len }
          let t := putCore core { c.next with xfers := c.xfers ++ [x] } s
          exec (.xfer core w) s = .next (if w.getLsbD 8 = false ∧ refAddr g r ref.2.2 = none then
            startRead g.tenant (.xfer core.val c.gid (fld n 4 4)) ((bufD g ref.2.2).host + ofs) len t else t)))

/-- YIELD and END (R147 to R149, R157, R235, R236, R275, R276): a yield point of a core that goes on, of one that is preempted, of one whose
claim is revoked; the end of a job sends its completion message, frees the core and gives up the claim. -/
def Obligations.SageYieldAndEnd : Prop :=
  ∀ (core : CoreId) (w : Word) (c : Core) (s : State), Alone core w c s → wOp w.toNat = 0x00 → ctrlOk w.toNat = true → c.xfers = [] →
    let n := core.val
    (fld w.toNat 21 5 = 1 → holdsClaim s n = false →
      (c.maint = true ∨ ∃ run, (unitSt s n).cur = some run ∧ run.cancel = false ∧ betterWaits s n run.level = false) →
      ∃ t, exec (.yield core w) s = .next t ∧ Only [.obj, .work, .sage] s t ∧
        tfind n t.sage.cores = some { c.next with lastYield := now s, vUsed := false, claimAtYield := false } ∧
        (vecOf t n).idleFrom = now s ∧ n % 9 ∉ (cmcOf t (n / 9)).requests) ∧
    (fld w.toNat 21 5 = 1 → holdsClaim s n = false → c.maint = false → ∀ run, (unitSt s n).cur = some run → run.cancel = false →
      betterWaits s n run.level = true → (unitSt s n).ctx.length < 3 →
      ∃ t c', exec (.yield core w) s = .next t ∧ Only [.obj, .work, .sage] s t ∧ tfind n t.sage.cores = none ∧
        t.sage.ctxs = s.sage.ctxs ++ [(n, c')] ∧ c'.g = c.g ∧ c'.a = c.a ∧ c'.v = c.v ∧ c'.acc = c.acc ∧ c'.pc = c.pc + 4 ∧
        (unitSt t n).cur = none ∧ (unitSt t n).ctx = (unitSt s n).ctx ++ [run]) ∧
    (fld w.toNat 21 5 = 1 → holdsClaim s n = true →
      ((c.maint = false ∧ bitAt (progRun s c.prog) 18 = false) ∨ c.claimAtYield = true) →
      ∃ t, exec (.yield core w) s = .next t ∧ holdsClaim t n = false) ∧
    (fld w.toNat 21 5 = 2 → jobWritesOver s c.gid c.num = true →
      ∃ t, exec (.sageEnd core w) s = .next t ∧ Only [.obj, .host, .work, .sage, .out] s t ∧ holdsClaim t n = false ∧
        (c.maint = true → tfind n t.sage.cores = some (maintCore (now s))) ∧
        (c.maint = false → tfind n t.sage.cores = none ∧ ∀ g r, graphOf s c.gid = some g → jobRt s c.gid c.num = some r →
          (unitSt t n).cur = none ∧ ∃ m ∈ t.work.msgs, m.gid = c.gid ∧ m.num = r.p.num ∧ m.code = r.code ∧ m.finish = now s))

/-- Exceptions (R157, R211, R212, R217, R221, R224, R237, R240, R263, R277): an instruction of a job that a rule forbids, or that finds the
slice timer at its limit, has no effect of its own: its core's record goes, and the job's share ends INVALID_DESCRIPTOR: at once where the host
link has accepted its writes, else when it has. -/
def Obligations.SageExceptionsEndTheJob : Prop :=
  ∀ (core : CoreId) (w : Word) (c : Core) (s : State) (g : Graph) (r : JobRt), Lone core w c s → c.maint = false →
    graphOf s c.gid = some g → jobRt s c.gid c.num = some r →
    let n := w.toNat
    let Ends := fun (i : Instr) => ∃ t, exec i s = .next t ∧ tfind core.val t.sage.cores = none ∧ holdsClaim t core.val = false ∧ t.mem = s.mem ∧
      (jobWritesOver s c.gid c.num = true → (unitSt t core.val).cur = none ∧
        ∃ m ∈ t.work.msgs, m.gid = c.gid ∧ m.num = r.p.num ∧ m.code = 7 ∧ m.finish = now s) ∧
      (jobWritesOver s c.gid c.num = false → ∃ x, (unitSt t core.val).cur = some x ∧ x.ending = some 7)
    (sliceOver s core.val c (now s) = true →
      (∀ row ∈ aluRows ++ compareRows, wOp n = row.op → wFn n = row.fn → wMid n = 0 → Ends (row.make core w)) ∧
      (wOp n = 0x00 → fld n 21 5 = 0 → ctrlOk n = true → Ends (.nop core w))) ∧
    (∀ row ∈ aluRows ++ compareRows ++ shiftRows, wOp n = row.op → wFn n = row.fn → wMid n ≠ 0 → Ends (row.make core w)) ∧
    (∀ row ∈ searchRows, wOp n = 0x05 → wFn n = row.fn → wD n % 2 = 1 → Ends (row.make core w)) ∧
    (wOp n = 0x07 → fld n 23 3 = 2 → fld n 15 3 = 0 → (c.reg (fld n 18 5)).toNat % 4 ≠ 0 → Ends (.jr core w)) ∧
    (∀ row ∈ loadRows, wOp n = 0x18 → fld n 14 3 = row.sz → modeOk n = true → memEa c n row.bytes % row.bytes ≠ 0 →
      Ends (row.make core w)) ∧
    (∀ row ∈ loadRows, wOp n = 0x18 → fld n 14 3 = row.sz → modeOk n = true → memEa c n row.bytes % row.bytes = 0 →
      inWindows (windows s core.val c) false (memEa c n row.bytes) row.bytes = false → Ends (row.make core w)) ∧
    (wOp n = 0x0A → fld n 0 15 = 0 → w.getLsbD 15 = false → 10 ≤ wS n → Ends (.mfs core w)) ∧
    (wOp n = 0x0A → fld n 0 15 = 0 → w.getLsbD 15 = true → 3 ≤ wS n → Ends (.mts core w)) ∧
    (wOp n = 0x16 → wFn n = 0x04 → inMaint s core.val = false → Ends (.vdotH core w)) ∧
    (wOp n = 0x1C → wFn n = 0x07 → holdsClaim s core.val = false → Ends (.cxDivu core w))

/-- Lane forms of the vector unit (R247, R248, R255 to R257): each lane of each register of the group takes the operation of Tables 7-4 and
7-5 on the lanes of the same number, and STATUS.VSAT is set exactly where one saturates. -/
def Obligations.VectorLaneForms : Prop :=
  ∀ (core : CoreId) (w : Word) (c : Core) (s : State), Alone core w c s → usesVector s c = true →
    let D := wD w.toNat
    let S := wS w.toNat
    let T := wT w.toNat
    let b := wBits w
    (∀ r ∈ laneRows, wOp w.toNat = r.op → wFn w.toNat = r.fn → fld w.toNat 9 2 ∈ r.ws → (r.two = false → T = 0) →
      groupsOk w (if r.two then [D, S, T] else [D, S]) →
      VecGives core c s (r.make core w) 0 (groupRegs w) fun c' =>
        (∀ i < groupSize w, ∀ k < 128 / b, c'.lane (D + i) b k =
          (r.f b 0 k (c.lane (D + i) b k) (c.lane (S + i) b k) (c.lane (T + i) b k)).1) ∧ c'.vacc = c.vacc ∧
        c'.statusIs c (∃ i < groupSize w, ∃ k < 128 / b,
          (r.f b 0 k (c.lane (D + i) b k) (c.lane (S + i) b k) (c.lane (T + i) b k)).2 = true) fVsat) ∧
    (∀ r ∈ laneShiftRows, wOp w.toNat = r.op → wFn w.toNat = r.fn → fld w.toNat 9 2 ∈ r.ws → groupsOk w [D, S] →
      VecGives core c s (r.make core w) 0 (groupRegs w) fun c' =>
        (∀ i < groupSize w, ∀ k < 128 / b, c'.lane (D + i) b k = (r.f b T k 0 (c.lane (S + i) b k) 0).1) ∧ c'.vacc = c.vacc ∧
        c'.statusIs c (∃ i < groupSize w, ∃ k < 128 / b, (r.f b T k 0 (c.lane (S + i) b k) 0).2 = true) fVsat)

/-- Complex products, packs and unpacks of the vector unit (R256, R257). The register that a pack takes for T beside IMM5 is one the manual
leaves open: some register, the same for each pack of the group (log 27). -/
def Obligations.VectorComplexAndPack : Prop :=
  ∀ (core : CoreId) (w : Word) (c : Core) (s : State), Alone core w c s → usesVector s c = true →
    let D := wD w.toNat
    let S := wS w.toNat
    let T := wT w.toNat
    let b := wBits w
    let N := 128 / b
    let Complex := fun (i : Instr) (conj : Bool) =>
      let v := fun (j k : Nat) => satLane 16 (roundEven (complexLane conj k (c.lane (S + j) 16) (c.lane (T + j) 16)) 15)
      VecGives core c s i 0 (groupRegs w) fun c' => (∀ j < groupSize w, ∀ k < 8, c'.lane (D + j) 16 k = (v j k).1) ∧ c'.vacc = c.vacc ∧
        c'.statusIs c (∃ j < groupSize w, ∃ k < 8, (v j k).2 = true) fVsat
    let Pack := fun (i : Instr) (sat : Int → BitVec (b / 2) × Bool) => ∃ R < 32,
      let v := fun (j k : Nat) =>
        sat (roundEven (if k < N then (c.lane (S + j) b k).toInt else (c.lane ((R + j) % 32) b (k - N)).toInt) T)
      VecGives core c s i 1 (groupRegs w) fun c' => (∀ j < groupSize w, ∀ k < 2 * N, c'.lane (D + j) (b / 2) k = (v j k).1) ∧
        c'.vacc = c.vacc ∧ c'.statusIs c (∃ j < groupSize w, ∃ k < 2 * N, (v j k).2 = true) fVsat
    let Unpack := fun (i : Instr) (upper : Nat) =>
      VecGives core c s i 0 (groupRegs w) fun c' => (∀ j < groupSize w, ∀ k < N / 2,
        c'.lane (D + j) (2 * b) k = (c.lane (S + j) b (upper + k)).signExtend (2 * b)) ∧ c'.vacc = c.vacc ∧ c'.status = c.status
    (wOp w.toNat = 0x10 → fld w.toNat 9 2 = 1 → groupsOk w [D, S, T] →
      (wFn w.toNat = 0x19 → Complex (.vcmulr core w) false) ∧ (wFn w.toNat = 0x1A → Complex (.vcmulrj core w) true)) ∧
    (wOp w.toNat = 0x11 → fld w.toNat 9 2 ∈ [1, 2] → groupsOk w [D, S] →
      (wFn w.toNat = 0x08 → Pack (.vpackr core w) (satLane (b / 2))) ∧ (wFn w.toNat = 0x09 → Pack (.vpackru core w) (satLaneU (b / 2)))) ∧
    (wOp w.toNat = 0x11 → fld w.toNat 9 2 ∈ [0, 1] → T = 0 → groupsOk w [D, S] →
      (wFn w.toNat = 0x0A → Unpack (.vunpkl core w) 0) ∧ (wFn w.toNat = 0x0B → Unpack (.vunpkh core w) (N / 2)))

/-- Vector multiply-accumulate and accumulator transfers (R249, R258, R259). -/
def Obligations.VectorAccumulators : Prop :=
  ∀ (core : CoreId) (w : Word) (c : Core) (s : State), Alone core w c s → usesVector s c = true →
    let n := w.toNat
    let A := fld n 24 2
    let X := fld n 19 2
    let D := wD n
    (wOp n = 0x12 → fld n 12 2 = 0 → w.getLsbD 10 = false → fld n 0 6 = 0 →
      (∀ r ∈ vmacRows, fld n 6 4 = r.fn →
        let v := fun k => r.f (c.accLane A k)
          ((if w.getLsbD 11 then 2 else 1) * r.p k (c.lane (fld n 19 5) 16) (c.lane (fld n 14 5) 16))
        VecGives core c s (r.make core w) 0 [] fun c' => (∀ k < 8, c'.accLane A k = (BitVec.ofInt 40 (v k)).toInt) ∧ c'.otherAcc c A ∧
          c'.statusIs c (∃ k < 8, beyond40 (v k) = true) fAov) ∧
      (fld n 6 4 = 3 → fld n 14 10 = 0 → w.getLsbD 11 = false →
        VecGives core c s (.vclra core w) 0 [] fun c' => (∀ k < 8, c'.accLane A k = 0) ∧ c'.otherAcc c A ∧ c'.status = c.status)) ∧
    (wOp n = 0x13 → fld n 0 10 = 0 →
      (fld n 10 3 = 0 → w.getLsbD 13 = false →
        let v := fun k => satLane 16 (roundEven (c.accLane X k) (fld n 14 5))
        VecGives core c s (.vextr core w) 0 [D] fun c' => (∀ k < 8, c'.lane D 16 k = (v k).1) ∧ c'.vacc = c.vacc ∧
          c'.statusIs c (∃ k < 8, (v k).2 = true) fVsat) ∧
      (fld n 10 3 = 0 → w.getLsbD 13 = true → D % 2 = 0 →
        let v := fun k => satLane 32 (roundEven (c.accLane X k) (fld n 14 5))
        VecGives core c s (.vextr core w) 0 [D, D + 1] fun c' => (∀ k < 8, c'.lane (D + k / 4) 32 (k % 4) = (v k).1) ∧ c'.vacc = c.vacc ∧
          c'.statusIs c (∃ k < 8, (v k).2 = true) fVsat) ∧
      (fld n 10 3 = 1 → fld n 13 6 = 0 → D % 2 = 0 →
        VecGives core c s (.vmta core w) 0 [] fun c' => (∀ k < 8, c'.accLane X k = (c.lane (D + k / 4) 32 (k % 4)).toInt) ∧
          c'.otherAcc c X ∧ c'.status = c.status) ∧
      (fld n 10 3 = 2 → fld n 13 6 = 0 → D % 2 = 0 →
        VecGives core c s (.vmfa core w) 0 [D, D + 1] fun c' =>
          (∀ k < 8, c'.lane (D + k / 4) 32 (k % 4) = BitVec.ofInt 32 (c.accLane X k)) ∧ c'.vacc = c.vacc ∧ c'.status = c.status))

/-- Permutes (R260): every byte, halfword or word of D comes from the place Table 7-8 names. -/
def Obligations.VectorPermutes : Prop :=
  ∀ (core : CoreId) (w : Word) (c : Core) (s : State), Alone core w c s → usesVector s c = true → wOp w.toNat = 0x14 →
    ∀ r ∈ permRows, wFn w.toNat = r.fn → r.ok w = true →
      VecGives core c s (r.make core w) 0 [wD w.toNat] fun c' =>
        (∀ k < 128 / r.b, c'.lane (wD w.toNat) r.b k = r.f c w k) ∧ c'.vacc = c.vacc ∧ c'.status = c.status

/-- Vector–scalar transfers, searches and reductions (R261). Which extension the parts of VRMAXI and VRMINI take in their g registers is
the model's reading (log 28). -/
def Obligations.VectorScalarForms : Prop :=
  ∀ (core : CoreId) (w : Word) (c : Core) (s : State), Alone core w c s → usesVector s c = true → wOp w.toNat = 0x15 →
    let n := w.toNat
    let D := wD n
    let S := wS n
    let b := wBits w
    let N := 128 / b
    let L := fld n 5 4
    let Scalar := fun (i : Instr) (f : Core → Core) => exec i s = .next (putCore core (f c.vnext) (woken core s))
    let Search := fun (i : Instr) (better : BitVec b → BitVec b → Bool) =>
      VecGives core c s i 0 [D, D + 1] fun c' => c'.vacc = c.vacc ∧ c'.status = c.status ∧ ∀ k < N,
        if better (c.lane S b k) (c.lane D b k) then
          c'.lane D b k = c.lane S b k ∧ c'.lane (D + 1) b k = (c.reg (wT n) + BitVec.ofNat 32 k).setWidth b
        else c'.lane D b k = c.lane D b k ∧ c'.lane (D + 1) b k = c.lane (D + 1) b k
    let Reduce := fun (i : Instr) (worse : BitVec b → BitVec b → Bool) => ∃ j < N,
      (∀ k < N, worse (c.lane S b j) (c.lane S b k) = false ∧
        (c.lane S b k = c.lane S b j → (c.lane (S + 1) b j).ule (c.lane (S + 1) b k) = true)) ∧
      Scalar i fun c0 => (c0.put D ((c.lane S b j).signExtend 32)).put (D + 1) ((c.lane (S + 1) b j).setWidth 32)
    (fld n 9 2 ∈ [0, 1, 2] → L < N →
      (fld n 0 5 = 0x00 → VecGives core c s (.vbcg core w) 0 [D] fun c' =>
        (∀ k < N, c'.lane D b k = (c.reg S).setWidth b) ∧ c'.vacc = c.vacc ∧ c'.status = c.status) ∧
      (fld n 0 5 = 0x01 → Scalar (.vgetl core w) fun c0 => c0.put D ((c.lane S b L).signExtend 32)) ∧
      (fld n 0 5 = 0x02 → Scalar (.vgetlu core w) fun c0 => c0.put D ((c.lane S b L).setWidth 32)) ∧
      (fld n 0 5 = 0x03 → VecGives core c s (.vsetl core w) 0 [D] fun c' =>
        (∀ k < N, c'.lane D b k = if k = L then (c.reg S).setWidth b else c.lane D b k) ∧ c'.vacc = c.vacc ∧ c'.status = c.status)) ∧
    (fld n 9 2 ∈ [1, 2] → L < N →
      (fld n 0 5 = 0x04 → D % 2 = 0 → Search (.vmaxi core w) fun a d => d.slt a) ∧
      (fld n 0 5 = 0x05 → D % 2 = 0 → Search (.vmini core w) fun a d => a.slt d) ∧
      (fld n 0 5 = 0x06 → D % 2 = 0 → S % 2 = 0 → Reduce (.vrmaxi core w) fun a x => a.slt x) ∧
      (fld n 0 5 = 0x07 → D % 2 = 0 → S % 2 = 0 → Reduce (.vrmini core w) fun a x => x.slt a) ∧
      (fld n 0 5 = 0x08 →
        let v := satWord ((List.range N).map fun k => (c.lane S b k).toInt).sum
        Scalar (.vrsum core w) fun c0 => (c0.put D v.1).flag v.2 fVsat))

/-- Maintenance-mode forms (R263, R264): in maintenance mode, wide products and sums of products. -/
def Obligations.VectorMaintenanceForms : Prop :=
  ∀ (core : CoreId) (w : Word) (c : Core) (s : State), Alone core w c s → inMaint s core.val = true → wOp w.toNat = 0x16 →
    fld w.toNat 7 2 = 0 → w.getLsbD 6 = false →
    let D := wD w.toNat
    let S := wS w.toNat
    let T := wT w.toNat
    let Wide := fun (i : Instr) (b : Nat) (f : BitVec b → Int) =>
      VecGives core c s i 0 [D, D + 1] fun c' => c'.vacc = c.vacc ∧ c'.status = c.status ∧ ∀ k < 128 / b,
        c'.lane (D + k / (64 / b)) (2 * b) (k % (64 / b)) = BitVec.ofInt (2 * b) (f (c.lane S b k) * f (c.lane T b k))
    let Dot := fun (i : Instr) (b : Nat) (own : Bool) =>
      VecGives core c s i 0 [D] fun c' => c'.vacc = c.vacc ∧ c'.status = c.status ∧ ∀ k < 2,
        c'.lane D 64 k = BitVec.ofInt 64 (((List.range (64 / b)).map fun j =>
          (c.lane S b (64 / b * k + j)).toInt * (c.lane T b (64 / b * k + j)).toInt).sum) + (if own then c.lane D 64 k else 0)
    (fld w.toNat 9 2 = 1 → wFn w.toNat = 0x00 → D % 2 = 0 → Wide (.vmulwH core w) 16 BitVec.toInt) ∧
    (fld w.toNat 9 2 = 1 → wFn w.toNat = 0x01 → D % 2 = 0 → Wide (.vmulwuH core w) 16 fun x => x.toNat) ∧
    (fld w.toNat 9 2 = 2 → wFn w.toNat = 0x02 → D % 2 = 0 → Wide (.vmulwW core w) 32 BitVec.toInt) ∧
    (fld w.toNat 9 2 = 2 → wFn w.toNat = 0x03 → D % 2 = 0 → Wide (.vmulwuW core w) 32 fun x => x.toNat) ∧
    (fld w.toNat 9 2 = 1 → wFn w.toNat = 0x04 → Dot (.vdotH core w) 16 false) ∧
    (fld w.toNat 9 2 = 2 → wFn w.toNat = 0x05 → Dot (.vdotW core w) 32 false) ∧
    (fld w.toNat 9 2 = 1 → wFn w.toNat = 0x06 → Dot (.vdotaH core w) 16 true)

/-- The scalar functions of the coprocessor (R277 to R279, Table 7-15), for a core that holds the claim: DIV and DIVU are exact, the special cases of
Table 7-16 have their results and flags, and where the manual gives a range or an error bound the result keeps it; which value it is within
the bound is left open (log 29). -/
def Obligations.CoprocessorFunctions : Prop :=
  ∀ (core : CoreId) (w : Word) (c : Core) (s : State), Alone core w c s → usesCmc s c = true → holdsClaim s core.val = true →
    let D := wD w.toNat
    let a := c.reg (wS w.toNat)
    let b := c.reg (wT w.toNat)
    let n := ((partI a) ^ 2 + (partQ a) ^ 2).natAbs
    let Is := fun (i : Instr) (x y : Word) (m : Nat) => exec i s = .next (putCore core ((c.cxNext core w s).pair D x y) (if m = 0 then s else cmcSets core m s))
    let Pair := fun (i : Instr) (P : Word → Word → Prop) =>
      ∃ x y k, P x y ∧ exec i s = .next (putCore core ((c.cxNext core w s).pair D x y) (drew k s))
    let One := fun (i : Instr) (P : Word → Prop) => ∃ x k, P x ∧ exec i s = .next (putCore core ((c.cxNext core w s).put D x) (drew k s))
    (cxWord w 0x00 true true false false → D % 2 = 0 →
      (a = 0 → Is (.cxCrecip core w) 0x7FFF 127 (2 ^ 4)) ∧
      (a ≠ 0 → Pair (.cxCrecip core w) fun x _ => 0x4000 ≤ largerPart x ∧ largerPart x ≤ 0x7FFF)) ∧
    (cxWord w 0x01 true true false false → D % 2 = 0 →
      (a = 0 → Is (.cxRsqrt core w) 0x7FFFFFFF 127 (2 ^ 4)) ∧
      (a ≠ 0 → Pair (.cxRsqrt core w) fun x _ => 0x40000000 ≤ x.toNat ∧ x.toNat ≤ 0x7FFFFFFF)) ∧
    (cxWord w 0x02 true true false false → D % 2 = 0 →
      (a = 0 → Is (.cxAtan2 core w) 0 0 0) ∧
      (a ≠ 0 → Pair (.cxAtan2 core w) fun _ y => y.toNat ≤ 46341 ∧ n ≤ (y.toNat + 1) ^ 2 ∧ (y.toNat - 1) ^ 2 ≤ n)) ∧
    (cxWord w 0x03 true true true false →
      ∃ (x : Word) (k : Nat) (sat : Bool), (b = 0 → (partI x - partI a).natAbs ≤ 1 ∧ (partQ x - partQ a).natAbs ≤ 1) ∧
        exec (.cxRot core w) s = .next (putCore core ((c.cxNext core w s).put D x) (if sat then cmcSets core (2 ^ 7) (drew k s) else drew k s))) ∧
    (cxWord w 0x04 true true false false →
      (a = 0 → exec (.cxLog2 core w) s = .next (putCore core ((c.cxNext core w s).put D 0x80000000) (cmcSets core (2 ^ 6) s))) ∧
      (a ≠ 0 → One (.cxLog2 core w) fun x =>
        (a.toNat.log2 : Int) * 65536 - 2 ≤ x.toInt ∧ x.toInt ≤ ((a.toNat.log2 : Int) + 1) * 65536 + 2)) ∧
    (cxWord w 0x05 true true false false →
      (16 * 65536 ≤ a.toInt → exec (.cxExp2 core w) s = .next (putCore core ((c.cxNext core w s).put D 0xFFFFFFFF) (cmcSets core (2 ^ 7) s))) ∧
      (a.toInt < 16 * 65536 → One (.cxExp2 core w) fun x => ∀ k : Nat, k < 32 → a.toInt = ((k : Int) - 16) * 65536 →
        2 ^ 20 * ((x.toNat : Int) - 2 ^ k).natAbs ≤ 2 ^ k + 2 ^ 20)) ∧
    (cxWord w 0x06 true true true false → D % 2 = 0 →
      (b = 0 → Is (.cxDiv core w) (if a.toInt < 0 then 0x80000000 else 0x7FFFFFFF) a (2 ^ 4)) ∧
      (a = 0x80000000 → b = 0xFFFFFFFF → Is (.cxDiv core w) 0x7FFFFFFF 0 (2 ^ 7)) ∧
      (b ≠ 0 → ¬(a = 0x80000000 ∧ b = 0xFFFFFFFF) → Is (.cxDiv core w) (a.sdiv b) (a.srem b) 0)) ∧
    (cxWord w 0x07 true true true false → D % 2 = 0 →
      (b = 0 → Is (.cxDivu core w) 0xFFFFFFFF a (2 ^ 4)) ∧ (b ≠ 0 → Is (.cxDivu core w) (a / b) (a % b) 0))

/-- The matrix unit (R278 to R280): inputs and exponents are stored and read back, a result element is rounded to Q15, CHOL and MINV leave a
result whose largest component reads as 0x4000 to 0x7FFF unless all of it is 0, and NPD is set exactly where a pivot is not positive. -/
def Obligations.CoprocessorMatrices : Prop :=
  ∀ (core : CoreId) (w : Word) (c : Core) (s : State), Alone core w c s → usesCmc s c = true → holdsClaim s core.val = true →
    let D := wD w.toNat
    let a := c.reg (wS w.toNat)
    let m := cmcAt s core
    let idx := cxIdx w.toNat
    let N := idx % 4 + 1
    let low := fun (e : Nat) => e / 4 < N ∧ e % 4 ≤ e / 4
    let size := fun (res : List (Int × Int)) (e : Nat) => max (roundShift (res.getD e (0, 0)).1 8).natAbs (roundShift (res.getD e (0, 0)).2 8).natAbs
    let Matrix := fun (i : Instr) (st : Nat) => ∃ res oe k,
      ((∀ e < 16, low e → size res e = 0) ∨
        ((∀ e < 16, low e → size res e ≤ 0x7FFF) ∧ ∃ e < 16, low e ∧ 0x4000 ≤ size res e)) ∧
      let t := putCmc core (fun q => { q with mstate := st, nM1 := N - 1, result := res, outExp := oe, pivots := none }) (drew k s)
      exec i s = .next (putCore core (c.cxNext core w s) (if ∃ k < N, minorOf (cmcMatrix m N) (k + 1) ≤ 0 then cmcSets core (2 ^ 5) t else t))
    (cxWord w 0x10 false true false false → -32 ≤ a.toInt → a.toInt ≤ 31 →
      exec (.cxMscale core w) s = .next (putCore core (c.cxNext core w s) (putCmc core (fun q => { q with inExp := a.toInt }) s))) ∧
    (cxWord w 0x11 false true false true → idx % 4 ≤ idx / 4 →
      exec (.cxMput core w) s = .next (putCore core (c.cxNext core w s) (putCmc core (fun q => { q with input := tset idx a.toNat q.input, mstate := 1 }) s))) ∧
    (cxWord w 0x12 false false false true → Matrix (.cxChol core w) 2) ∧
    (cxWord w 0x13 false false false true → Matrix (.cxMinv core w) 3) ∧
    (cxWord w 0x14 true false false true → idx % 4 ≤ idx / 4 → m.pivots = none →
      let z := m.result.getD idx (0, 0)
      let I := roundEven z.1 8
      let Q := roundEven z.2 8
      I ≤ 0x7FFF → -0x8000 ≤ I → Q ≤ 0x7FFF → -0x8000 ≤ Q →
        exec (.cxMget core w) s = .next (putCore core ((c.cxNext core w s).put D (BitVec.ofInt 16 Q ++ BitVec.ofInt 16 I : BitVec 32)) s)) ∧
    (cxWord w 0x15 true false false false → exec (.cxMexp core w) s = .next (putCore core ((c.cxNext core w s).put D (BitVec.ofInt 32 m.outExp)) s))

/-- The claim, the image and the status of the coprocessor (R272 to R275, R281, R282): who is granted the claim and what a grant clears
(of claims at one time the first in the rotation, log 57), whom a release reserves the coprocessor for, what SAVE stores and RESTORE loads. -/
def Obligations.CoprocessorClaimAndImage : Prop :=
  ∀ (core : CoreId) (w : Word) (c : Core) (s : State), Alone core w c s → usesCmc s c = true →
    let D := wD w.toNat
    let cl := core.val / 9
    let u := core.val % 9
    let m := cmcAt s core
    let held := holdsClaim s core.val
    let ea := aR c (fld w.toNat 17 4)
    (cxcWord w 0x00 true false →
      (held = true → exec (.cxClaim core w) s = .next (putCore core (c.next.put D 1) s)) ∧
      (held = false → (cmcBusy m u || claimBeaten s core.val) = true → exec (.cxClaim core w) s = .next (putCore core (c.next.put D 0)
        (bump (kClCmcRefusals cl) (putCmc core (fun q => { q with requests := (u :: q.requests).eraseDups }) s)))) ∧
      (held = false → (cmcBusy m u || claimBeaten s core.val) = false → exec (.cxClaim core w) s = .next (putCore core (c.next.put D 1)
        (bump (kClCmcClaims cl) (putCmc core (fun q => { last := q.last, holder := some u, since := now s, requests := q.requests.filter (· != u) })
          s))))) ∧
    (cxcWord w 0x01 false false →
      (held = false → exec (.cxRelease core w) s = .next (putCore core c.next s)) ∧
      (held = true → ∃ t r, exec (.cxRelease core w) s = .next t ∧ Only [.obj, .sage] s t ∧ tfind core.val t.sage.cores = some c.next ∧
        cmcAt t core = { holder := none, last := u, requests := m.requests, resv := r, since := m.since } ∧
        (r = none → ∀ x ∈ m.requests, 9 ≤ x) ∧
        (∀ v tm, r = some (v, tm) → tm = now s ∧ v ∈ m.requests ∧
          ∀ x ∈ m.requests, x < 9 → (v + 8 - u) % 9 ≤ (x + 8 - u) % 9))) ∧
    (cxcWord w 0x02 false true → ea % 64 = 0 → inWindows (windows s core.val c) true ea 1024 = true → held = true →
      exec (.cxSave core w) s = .next (dmemStore core.val ea (cmcImage m) (putCore core c.next s))) ∧
    (cxcWord w 0x03 false true → ea % 64 = 0 → inWindows (windows s core.val c) false ea 1024 = true → held = true →
      rangePoisoned s (coreAddr core.val + ea) 1024 = false → ∃ l k, loadedBytes s core c ea 1024 l ∧
        exec (.cxRestore core w) s = .next (putCore core c.next (putCmc core
          (if cmcImageOk l then cmcFromImage l else fun q => { cmcFresh q with flags := 2 ^ 8 }) (drew k s)))) ∧
    (cxcWord w 0x04 true false → ∃ v : Word, exec (.cxStat core w) s = .next (putCore core (c.next.put D v) s) ∧
      v.getLsbD 0 = held ∧ v.getLsbD 1 = cmcBusy m u ∧ v.getLsbD 2 = decide (now s < c.pend) ∧ v.getLsbD 3 = ((m.resv.map (·.1)) == some u) ∧
      v.extractLsb' 4 5 = BitVec.ofNat 5 (m.flags / 16) ∧ v.extractLsb' 9 4 = BitVec.ofNat 4 (m.holder.getD 0) ∧
      v.getLsbD 13 = m.holder.isSome ∧ v.extractLsb' 14 18 = 0) ∧
    (cxcWord w 0x05 false false →
      exec (.cxClrf core w) s = .next (putCore core c.next (if held then putCmc core (fun q => { q with flags := 0 }) s else s)))

/-- The image of R282: it is 1 KiB with a good CHECK, and a coprocessor that loads it saves the same image again. -/
def Obligations.CoprocessorImageRoundTrip : Prop :=
  ∀ m q : Cmc, (∀ l, m.pivots = some l → l.length = 4) →
    (cmcImage m).length = 1024 ∧ cmcImageOk (cmcImage m) = true ∧ cmcImage (cmcFromImage (cmcImage m) q) = cmcImage m

/-- The life of a program on a core (R207, R233, R234, R237, R267, R272 to R276): the state at a job's first bundle, the return of a saved
context, the completion of a transfer and its access to an address no memory answers, the slice limit, and the times after which a claim, a reservation and an idle vector unit end. -/
def Obligations.SageCoreEvents : Prop :=
  (∀ (core : CoreId) (s : State) (run : Run) (g : Graph) (r : JobRt), (unitSt s core.val).cur = some run → run.ending = none →
    coreRun s core.val = none →
    graphOf s run.gid = some g → jobRt s run.gid run.num = some r →
    (savedCtx s core.val run = none → Gives s (.sageJob core) [.sage, .dram, .sram, .mem] fun t =>
      ∃ c, tfind core.val t.sage.cores = some c ∧ c.gid = g.id ∧ c.num = r.p.num ∧ c.maint = false ∧
        c.pc = imageStart s (core.val / 9) c.prog + 4 * pEntry (progRun s c.prog) ∧ c.prog = r.p.prog.getD 0 ∧
        gR c 1 = (g.jobs.getD r.p.num {}).units % 2 ^ 32 ∧ gR c 2 = r.id.getD 0 % 2 ^ 32 ∧ gR c 3 = g.ci % 2 ^ 32 ∧
        aR c 0 = argBase c.area ∧ c.lc = 0 ∧ c.rrb = 0 ∧ c.status = 0 ∧ c.xfers = [] ∧
        (∀ n < 32, n ∉ [1, 2, 3, 4, 8, 9, 10, 11, 12, 13] → gR c n = 0) ∧ (∀ n < 32, vR c n = 0) ∧ (∀ n < 4, accR c n = 0)) ∧
    (∀ c, savedCtx s core.val run = some c → Gives s (.sageJob core) [.sage] fun t =>
      tfind core.val t.sage.cores = some { c with bundle := {}, lastYield := now s, vUsed := false } ∧ savedCtx t core.val run = none)) ∧
  (∀ (core : CoreId) (s : State) (c : Core) (x : Xfer) (g : Graph) (r : JobRt) (a : Nat), coreRun s core.val = some c →
    xferReady s core.val c = some x → graphOf s c.gid = some g → jobRt s c.gid c.num = some r → refAddr g r x.buf = some a →
    readOp s (.xfer core.val c.gid x.tag) = none → Memory.wf s.mem = true →
    (rangeReachable s (a + x.ofs) x.len = false →
      exec (.xferDone core) s = .next (endCoreJob core.val 7 (accessError (unitLoc core.val) g.tenant 0 (a + x.ofs) s))) ∧
    (x.out = false → rangeReachable s (a + x.ofs) x.len = true → rangePoisoned s (a + x.ofs) x.len = false →
      Gives s (.xferDone core) [.obj, .host, .work, .sage, .dram, .sram, .mem] fun t =>
        load t (coreAddr core.val + x.loc) x.len = load s (a + x.ofs) x.len ∧ MemKeeps (coreAddr core.val + x.loc) x.len s t ∧
          tfind core.val t.sage.cores = some { c with xfers := c.xfers.drop 1 } ∧
          Counts 64 (kClXferBytes (core.val / 9) (core.val % 9)) x.len s t) ∧
    (x.out = true → rangeReachable s (a + x.ofs) x.len = true → rangePoisoned s (coreAddr core.val + x.loc) x.len = false →
      Gives s (.xferDone core) [.obj, .host, .work, .sage, .dram, .sram, .mem, .freeCtr] fun t =>
        MemKeeps (a + x.ofs) x.len s t ∧ tfind core.val t.sage.cores = some { c with xfers := c.xfers.drop 1 } ∧
          ∀ i < x.len, memGet (a + x.ofs + i) t.mem = memGet (coreAddr core.val + x.loc + i) s.mem ∨
            ∃ o ∈ x.old, o.1 - x.loc = i ∧ memGet (a + x.ofs + i) t.mem = o.2)) ∧
  (∀ (core : CoreId) (s : State) (c : Core), coreRun s core.val = some c → c.bundle.count = 0 → c.maint = false →
    sliceLimit s core.val ≤ (now s - c.lastYield) / 64 * 64 → (∀ w ∈ nextWords s core.val c, ¬(wOp w = 0 ∧ fld w 21 5 = 1)) →
    ∃ t, exec (.sliceOverrun core) s = .next t ∧ tfind core.val t.sage.cores = none ∧ holdsClaim t core.val = false ∧ t.mem = s.mem) ∧
  (∀ (cl : ClusterId) (s : State) (u : Nat), (cmcOf s cl.val).holder = some u → u < 9 →
    (∀ c, tfind (9 * cl.val + u) s.sage.cores = some c → c.bundle.count = 0) → usToTc 20 ≤ (now s - (cmcOf s cl.val).since) / 64 * 64 →
    Gives s (.cmcHoldRevoke cl) [.obj, .sage] fun t => (cmcOf t cl.val).holder = none ∧ (cmcOf t cl.val).flags = 0 ∧
      (cmcOf t cl.val).last = u ∧ Counts 32 (kClCmcRevokes cl.val) 1 s t ∧ t.sage.cores = s.sage.cores) ∧
  (∀ (cl : ClusterId) (s : State) (v t0 : Nat), (cmcOf s cl.val).resv = some (v, t0) →
    cyclesToTc 32 (rd s (kPdClkNow cl.val)) ≤ now s - t0 →
    Gives s (.cmcReserveLapse cl) [.sage] fun t => v ∉ (cmcOf t cl.val).requests ∧
      (∀ x, x ≠ v → (x ∈ (cmcOf t cl.val).requests ↔ x ∈ (cmcOf s cl.val).requests)) ∧
      (∀ x tm, (cmcOf t cl.val).resv = some (x, tm) → tm = now s ∧ x ∈ (cmcOf t cl.val).requests) ∧
      ((cmcOf t cl.val).resv = none → ∀ x ∈ (cmcOf t cl.val).requests, 9 ≤ x)) ∧
  (∀ (core : CoreId) (s : State), (vecOf s core.val).on = true → inMaint s core.val = false →
    (∀ c, coreRun s core.val = some c → c.vUsed = false) → (vecOf s core.val).gateIdle = none → rd s (kClVgateIdle (core.val / 9)) ≠ 0 →
    cyclesToTc (rd s (kClVgateIdle (core.val / 9))) (rd s (kPdClkNow (core.val / 9))) ≤ now s - (vecOf s core.val).idleFrom →
    Gives s (.vectorGate core) [.sage] fun t => vecOf t core.val = { vecOf s core.val with on := false } ∧ t.sage.cores = s.sage.cores)

/-- Jobs on units (R127, R136, R150, R151, R154, R157, R161 to R163, R168, R182): dispatch, chunk ends, copies, cancels, completion
messages, quarantines, the watchdog and the accounting window. -/
def Obligations.JobLifecycle : Prop :=
  (∀ (u : Fin 240) (s : State) (e : ReadyE) (g : Graph) (r : JobRt), (unitSt s u.val).cur = none → (unitSt s u.val).fenced = false →
    (unitSt s u.val).nextRole = none ∨ roleDue s u.val = false → bestEntry s u.val = some e → graphOf s e.gid = some g → jobRt s e.gid e.num = some r →
    (∀ x, staleUnit s r e.share = some x → exec (.jobDispatch u) s =
      .next (concludeJob e.gid e.num 3 (countStale x { s with work := { s.work with ready := s.work.ready.filter (· != e) } }))) ∧
    (staleUnit s r e.share = none → Gives s (.jobDispatch u) [.obj, .host, .work, .dram, .sram, .mem, .out, .freeCtr] fun t =>
      (∃ run, (unitSt t u.val).cur = some run ∧ run.gid = g.id ∧ run.num = r.p.num ∧ run.since = now s ∧
        run.level = e.level) ∧ e ∉ t.work.ready ∧ (∀ x ∈ s.work.ready, x ≠ e → x ∈ t.work.ready) ∧
      (jobRt t e.gid e.num).map (·.st) = some .running)) ∧
  (∀ (e : EngId) (s : State) (run : Run) (g : Graph) (r : JobRt), (unitSt s (engUnit e.val)).cur = some run → run.worked = true →
    jobWritesOver s run.gid run.num = true → run.cancel = false → graphOf s run.gid = some g → jobRt s run.gid run.num = some r →
    r.code = 0 →
    (idCurrent s run.ci run.id = false → exec (.chunkEnd e) s = .next (unitFree (engUnit e.val)
      (wake (dropLate run.tenant run.ci run.id (accountId run.ci run.id (segmentEnd (engUnit e.val) run s)))))) ∧
    (idCurrent s run.ci run.id = true → Gives s (.chunkEnd e) [.obj, .host, .work, .out] fun t => (unitSt t (engUnit e.val)).cur = none ∧
      (jobRt t run.gid run.num).map (·.chunks) = some (r.chunks + 1))) ∧
  (∀ (c : ClusterId) (s : State) (run : Run) (g : Graph) (r : JobRt) (d : CopyD), curCopy s (dmaUnit c.val) = some (run, g, r, d) →
    run.worked = false → d.src < hostBase → d.dst < hostBase → copyHole s d = none →
    rangePoisoned s d.src d.len = false → jobReadFailed s g.id r.p.num = false →
    jobWritesOver s run.gid run.num = true → Memory.wf s.mem = true →
    Gives s (.copy c) [.obj, .host, .work, .dram, .sram, .mem, .out] fun t =>
      (d.kind ≠ .back ∨ manyWriters g d.buf = false → load t d.dst d.len = load s d.src d.len) ∧
      (∀ b < d.len, memGet (d.dst + b) t.mem = memGet (d.dst + b) s.mem ∨
        (load t d.dst d.len)[b]? = (load s d.src d.len)[b]?) ∧ MemKeeps d.dst d.len s t ∧ (unitSt t (dmaUnit c.val)).cur = none) ∧
  (∀ (u : Fin 240) (blocks : Nat) (s : State) (run : Run) (g : Graph), (unitSt s u.val).cur = some run → graphOf s run.gid = some g →
    g.cancelled = true ∨ g.stale = true → run.ending = none →
    (∀ x, (jobRt s run.gid run.num).bind (fun r => staleUnit s r run.share) = some x →
      exec (.cancelRequest u blocks) s = .next (concludeJob run.gid run.num 3 (countStale x s))) ∧
    ((jobRt s run.gid run.num).bind (fun r => staleUnit s r run.share) = none → curCopy s u.val = none →
    Gives s (.cancelRequest u blocks) [.work, .radio] fun t =>
      (∃ run', (unitSt t u.val).cur = some run' ∧ run'.cancel = true ∧ run'.gid = run.gid ∧ run'.num = run.num ∧ run'.share = run.share) ∧
      ∀ x ∈ t.radio.commands, ¬(x.gid = run.gid ∧ x.num = run.num))) ∧
  (∀ (n : Nat) (s : State) (m : Msg), s.work.msgs[n]? = some m →
    let x := idSt s m.ci (m.id % 4096)
    let s1 := { s with work := { s.work with msgs := s.work.msgs.eraseIdx n } }
    (x.inUse = true → x.quarantine = none → x.gen = m.id / 4096 →
      Gives s (.completionMessage n) [.obj, .pow, .host, .work, .radio, .noc, .out] fun t => t = takeMessage m s1) ∧
    (x.inUse = false ∨ x.quarantine ≠ none ∨ x.gen ≠ m.id / 4096 →
      Gives s (.completionMessage n) [.obj, .host, .work, .out] fun t => t = wake (dropLate m.tenant m.ci m.id (accountId m.ci m.id s1)))) ∧
  (∀ (q : QuadId) (s : State), Gives s (.heldReadyRelease q) [.obj, .work] fun t => ∀ e ∈ s.work.ready, e ∈ t.work.ready) ∧
  (∀ s : State,
    let s1 := { s with work := { s.work with thr := (upto 16).map fun l => (l, rd s (kDiThr l)),
                                             bias := (upto 12).map fun c => (c, rd s (kDiClassBias c)) } }
    Gives s .levelTick [.obj, .host, .work, .out] fun t => t.work.ready = s.work.ready.map (relevel s1) ∧
      t.work.heldReady = s.work.heldReady.map (relevel s1) ∧ t.work.thr = s1.work.thr ∧ t.work.bias = s1.work.bias) ∧
  (∀ (s : State) (ci i q : Nat), (idSt s ci i).quarantine = some q → q + nsToTc (rd s kDiIdQuarantine) ≤ now s →
    Gives s .idQuarantineExpiry [.obj, .work] fun t => (idSt t ci i).quarantine = none) ∧
  (∀ (s : State) (ci i : Nat) (b : Nat × Nat), b ∈ (idSt s ci i).bars → b.2 ≤ now s →
    Gives s .generationBarExpiry [.obj, .work] fun t => b ∉ (idSt t ci i).bars) ∧
  (∀ (gid num : Nat) (s : State) (r : JobRt), jobRt s gid num = some r → r.open_ = true → r.ran = true →
    r.watch * 25 / 49152 < now s * 25 / 49152 →
    Gives s (.watchdog gid num) [.obj, .pow, .boot, .host, .dict, .work, .sage, .radio, .noc, .out] fun t =>
      t = each (((upto r.p.shares.length).filter fun k => !r.arrived.contains k).map fun k => (r.p.shares.getD k { unit := 0 }).unit)
        (fun u x => startUnitFlow u x) (concludeJob gid num 4 (dropJobReads gid num s))) ∧
  (∀ s : State, s.work.window < now s / windowTc →
    Gives s .budgetWindow [.obj, .host, .work, .out] fun t => t.work.window = now s / windowTc ∧ t.work.metered = [] ∧ t.work.excess = [] ∧
      (∀ e ∈ t.work.charged, now s / windowTc ≤ e.1 / 8192))

/-- Doorbells and the fetch of entries (R621, R626, R627): what becomes visible, which indices put the queue in ERROR, which access is
aborted, and the read of the next entry. -/
def Obligations.QueueDoorbells : Prop :=
  (∀ (fn : TenantId) (qp : QpId) (v : Word) (s : State), let q := qpOf s fn.val qp.val; let idx := v.toNat % 65536
    q.state = .enabled →
    (idx < sqSize q → Gives s (.sqTail fn qp 15 v) [.host] fun t => QpsKeep fn.val qp.val s t ∧
      ∃ fresh, qpOf t fn.val qp.val = { q with sqTail := idx, visible := q.visible ++ fresh } ∧
        fresh.length = (idx + sqSize q - q.sqTail) % sqSize q ∧
        ∀ i < fresh.length, fresh[i]? = some ((q.sqTail + i) % sqSize q, now s)) ∧
    (sqSize q ≤ idx → Gives s (.sqTail fn qp 15 v) [.host] fun t => QpsKeep fn.val qp.val s t ∧
      qpOf t fn.val qp.val = { q with state := .error, cause := 2 })) ∧
  (∀ (fn : TenantId) (qp : QpId) (v : Word) (s : State), let q := qpOf s fn.val qp.val; let idx := v.toNat % 65536
    (q.state ≠ .disabled → idx < cqSize q →
      exec (.cqHead fn qp 15 v) s = .next (queueRoomBack fn.val qp.val (setQp fn.val qp.val { q with cqHead := idx } s))) ∧
    (q.state = .enabled ∨ q.state = .error → cqSize q ≤ idx → Gives s (.cqHead fn qp 15 v) [.host] fun t => QpsKeep fn.val qp.val s t ∧
      qpOf t fn.val qp.val = { q with state := .error, cause := 3 }) ∧
    (q.state = .disabled → Idles s (.cqHead fn qp 15 v))) ∧
  (∀ (fn : TenantId) (qp : QpId) (be : BitVec 4) (v : Word) (s : State), be.toNat ∈ [5, 9, 10, 11, 13] →
    ∀ i ∈ [Instr.sqTail fn qp be v, .cqHead fn qp be v], Gives s i [.obj, .host, .out] fun t =>
      t.out = s.out ++ [.completerAbort fn.val] ∧ (∀ f n, qpOf t f n = qpOf s f n) ∧
        (fnOf t fn.val).aeCount = min ((fnOf s fn.val).aeCount + 1) (2 ^ 32 - 1) ∧ bitAt (fnOf t fn.val).aeLog 31 = true) ∧
  (∀ (fn : TenantId) (qp : QpId) (s : State) (i tArr : Nat) (r : List (Nat × Nat)), let q := qpOf s fn.val qp.val
    q.visible = (i, tArr) :: r → q.fetching = none → q.state ≠ .disabled → q.state ≠ .quiesced → maySend s fn.val = true →
    readOp s (.submission fn.val qp.val i) = none →
    Gives s (.submissionFetch fn qp) [.obj, .host, .out] fun t => QpsKeep fn.val qp.val s t ∧
      qpOf t fn.val qp.val = { q with visible := r, fetching := some (i, tArr), sqHead := (i + 1) % sqSize q } ∧
      ∃ o, readOp t (.submission fn.val qp.val i) = some o ∧ o.fn = fn.val ∧ o.addr = q.sqBase + 64 * i ∧ o.left = 64)

/-- The three kinds of entry and the fetch of a graph (R47, R48, R78, R82, R84, R85, R94, R165, R166, R288). -/
def Obligations.SubmittedEntries : Prop :=
  (∀ (fn : TenantId) (qp : QpId) (s : State) (tArr e : Nat), fetchedEntry s fn.val qp.val = some (tArr, some e) →
    let q := qpOf s fn.val qp.val
    (eKind e = 1 → qpDraining s fn.val qp.val = false → checkEntry s fn.val e = none → puRoom s (homeOfCi s (eCi e)) = true →
      Gives s (.submit fn qp) [.obj, .host, .work, .out] fun t => QpsKeep fn.val qp.val s t ∧
        qpOf t fn.val qp.val = { q with fetching := none, submitted := (q.submitted + 1) % 2 ^ 64 } ∧
        t.work.nextGraph = s.work.nextGraph + 1 ∧
        ∃ g, t.work.graphs = s.work.graphs ++ [g] ∧ g.id = s.work.nextGraph ∧ g.tenant = fn.val ∧ g.ci = eCi e ∧ g.st = .checking ∧
          g.qp = qp.val ∧ g.subTag = eSubTag e ∧ g.air = eAir e ∧ g.addr = eAddr e ∧ g.tArr = tArr ∧ g.pu = homeOfCi s (eCi e) ∧
          g.validateOnly = bitAt e 8) ∧
    (∀ c, eKind e = 1 → qpDraining s fn.val qp.val = false → checkEntry s fn.val e = some c →
      exec (.submit fn qp) s = .next (refuseSubmit fn.val qp.val c e s)) ∧
    (eKind e = 1 → qpDraining s fn.val qp.val = true → exec (.submit fn qp) s = .next (completeEntry fn.val qp.val 0x0B 0 1 e s)) ∧
    (eKind e = 2 → qpDraining s fn.val qp.val = false → checkEntry s fn.val e = none →
      (cancelTarget s fn.val (eCi e) (eAir e) = none → exec (.cancel fn qp) s = .next (completeEntry fn.val qp.val 0x07 0x3F 2 e s)) ∧
      ∀ g, cancelTarget s fn.val (eCi e) (eAir e) = some g → graphOf s g.id = some g →
        let s1 := modGraph g.id (fun x => { x with cancels := x.cancels ++ [{ qp := qp.val, tag := eSubTag e }] })
          (takeEntry fn.val qp.val s)
        (g.st = .checking → exec (.cancel fn qp) s = .next s1 ∧
          graphOf s1 g.id = some { g with cancels := g.cancels ++ [{ qp := qp.val, tag := eSubTag e }] } ∧
          qpOf s1 fn.val qp.val = { q with fetching := none, submitted := (q.submitted + 1) % 2 ^ 64 }) ∧
        (g.st ≠ .checking → g.cancelled = false →
          exec (.cancel fn qp) s = .next (qpSettle fn.val qp.val (ackCancels g.id (cancelGraph g.id s1)))) ∧
        (g.st ≠ .checking → g.cancelled = true → exec (.cancel fn qp) s = .next (qpSettle fn.val qp.val (ackCancels g.id s1)))) ∧
    (eKind e = 3 → qpDraining s fn.val qp.val = false → checkEntry s fn.val e = none →
      (carryFind s fn.val (eCi e) (fld e 64 32) = none →
        exec (.releaseCarry fn qp) s = .next (completeEntry fn.val qp.val 0x07 0x3F 3 e s)) ∧
      ∀ c, carryFind s fn.val (eCi e) (fld e 64 32) = some c → ∃ l, exec (.releaseCarry fn qp) s =
          .next (completeEntry fn.val qp.val 0 0 3 e (freeCarries { s with work := { s.work with carries := l } })) ∧
        l.length = s.work.carries.length ∧ (∀ x ∈ l, x ∈ s.work.carries ∨ x = { c with released := true }) ∧
        { c with released := true } ∈ l)) ∧
  (∀ (fn : TenantId) (qp : QpId) (s : State) (tArr : Nat), fetchedEntry s fn.val qp.val = some (tArr, none) →
    exec (.submit fn qp) s = .next (refuseSubmit fn.val qp.val 0x05 0 s)) ∧
  (∀ (gid : Nat) (s : State) (g : Graph), graphOf s gid = some g → g.st = .checking → g.ready = false →
    (g.jobs ≠ [] → graphReadsOver s gid = true → let r := gatherBlocks s g
      (checkBlocks s g g.jobs g.bufs r.1 = none → Gives s (.graphFetchDone gid) [.host, .work] fun t =>
        graphOf t gid = some { g with blocks := r.1, params := r.2.1, badJobs := r.2.2, ready := true } ∧
          (∀ i, i ≠ gid → graphOf t i = graphOf s i) ∧ ∀ o ∈ t.host.reads, o.use.graph ≠ some gid) ∧
      ∀ x, checkBlocks s g g.jobs g.bufs r.1 = some x → exec (.graphFetchDone gid) s = .next (refuseGraph g x.1 x.2 s)) ∧
    (g.jobs = [] → readOp s (.graphFetch gid 1) = none → readOp s (.graphFetch gid 2) = none →
      (fetchPart s gid 0 = some none → exec (.graphFetchDone gid) s = .next (refuseGraph g 0x05 0xFFFF s)) ∧
      ∀ hl, fetchPart s gid 0 = some (some hl) → let h := ofBytes hl
        (∀ c, checkHeader s g h = some c →
          exec (.graphFetchDone gid) s = .next (refuseGraph { g with tag := fld h 320 32 } c 0xFFFF s)) ∧
        (checkHeader s g h = none → Gives s (.graphFetchDone gid) [.obj, .host, .out] fun t =>
          (∃ o, readOp t (.graphFetch gid 1) = some o ∧ o.fn = g.tenant ∧ o.addr = fld h 192 64 ∧ o.left = 64 * hNJobs h) ∧
          (hNBufs h ≠ 0 → ∃ o, readOp t (.graphFetch gid 2) = some o ∧ o.fn = g.tenant ∧ o.addr = fld h 256 64 ∧
            o.left = 32 * hNBufs h))) ∧
    (g.jobs = [] → ∀ hl jl bl, fetchPart s gid 0 = some (some hl) → fetchPart s gid 1 = some (some jl) →
      (if hNBufs (ofBytes hl) = 0 then bl = [] else fetchPart s gid 2 = some (some bl)) →
      exec (.graphFetchDone gid) s = .next (arraysDone g (ofBytes hl) jl bl s)))

/-- Placement of the graph at the head of a unit's queue, its commit, the exclusive token, votes, role changes and templates (R86, R111,
R125, R126, R131, R158, R159, R173, R578, R591). -/
def Obligations.PlacementAndRoles : Prop :=
  (∀ (pu : QuadId) (s : State) (g : Graph), (puQueue s pu.val).head? = some g → (puOf s pu.val).placing = none → g.ready = true →
    (heldFlow s g = none → Gives s (.placementStart pu) [.work] fun t =>
      puOf t pu.val = { puOf s pu.val with held := none, placing := some (g.id, planNow s g) } ∧ t.work.graphs = s.work.graphs) ∧
    ∀ f, heldFlow s g = some f →
      ((puOf s pu.val).held = some (g.tenant, f) → Gives s (.placementStart pu) [.work] fun t =>
        puOf t pu.val = puOf s pu.val ∧ t.work.graphs = s.work.graphs) ∧
      ((puOf s pu.val).held ≠ some (g.tenant, f) → Gives s (.placementStart pu) [.obj, .host, .work, .out] fun t =>
      puOf t pu.val = { puOf s pu.val with held := some (g.tenant, f) } ∧ rd s kDiFlowBacklog = rd t kDiFlowBacklog ∧
        Counts 64 (kDiDispatchStats 4) 1 s t)) ∧
  (∀ (pu : QuadId) (s : State) (gid : Nat) (p : Plan), (puOf s pu.val).placing = some (gid, p) → (puOf s pu.val).wantsToken = false →
    (p.refused.isSome = true ∨ graphOf s gid = none → exec (.placementCommit pu) s = .next (commitPlan pu.val gid p s)) ∧
    ∀ g, p.refused = none → graphOf s gid = some g →
    (g.validateOnly = true → exec (.placementCommit pu) s = .next (commitPlan pu.val gid p s)) ∧
    (g.validateOnly = false → (recheck s g).isSome = true ∨ planHolds s g p = true →
      (flowLack s g = none → exec (.placementCommit pu) s = .next (commitPlan pu.val gid p s)) ∧
      ∀ f, flowLack s g = some f → exec (.placementCommit pu) s =
        .next (modPu pu.val (fun x => { x with wantsToken := false }) (holdGraph pu.val f g s))) ∧
    (g.validateOnly = false → recheck s g = none → planHolds s g p = false → Gives s (.placementCommit pu) [.work] fun t =>
        puOf t pu.val = { puOf s pu.val with wantsToken := true } ∧
        t.work.tokenQueue = s.work.tokenQueue ++ [pu.val] ∧ t.work.graphs = s.work.graphs)) ∧
  (∀ (s : State) (pu : Nat) (l : List Nat) (gid : Nat) (p : Plan) (g : Graph), s.work.tokenQueue = pu :: l →
    (puOf s pu).placing = some (gid, p) → graphOf s gid = some g →
    let s1 := { s with work := { s.work with tokenQueue := l } }
    exec .exclusiveTokenGrant s = .next (commitOrHold pu gid (planNow s1 g) (placeStat 8 s1))) ∧
  (∀ s : State, Gives s .placementVoteOnset [.pow] fun t =>
    (∀ v ∈ s.pow.votes, v ∈ t.pow.votes) ∧
    (∀ v ∈ s.work.votes, v.2.1 ≤ now s → now s < v.2.2.1 →
      ({ client := .placement, dom := v.1, level := 0, tag := voteTag v.2.2.2.1 v.2.2.2.2 } : Vote) ∈ t.pow.votes) ∧
    (∀ v ∈ s.work.votes, now s < v.2.1 → v.2.2.2.2 ≤ now s + msToTc 2 → now s < v.2.2.2.2 →
      ({ client := .placement, dom := v.1, level := 3, tag := voteTag v.2.2.2.1 v.2.2.2.2 } : Vote) ∈ t.pow.votes)) ∧
  (∀ s : State, Gives s .bookedIntervalEnd [.pow, .work] fun t =>
    (∀ v, v ∈ t.work.votes ↔ v ∈ s.work.votes ∧ now s < v.2.2.1) ∧
    (∀ v ∈ s.pow.votes, v.client ≠ .placement → v ∈ t.pow.votes) ∧
    ∀ e ∈ s.work.votes, e.2.2.1 ≤ now s → ∀ v ∈ t.pow.votes, ¬(v.client = .placement ∧ v.dom = e.1 ∧ v.tag = voteTag e.2.2.2.1 e.2.2.2.2)) ∧
  (∀ (u : Fin 228) (s : State) (w : Nat), (unitSt s u.val).nextRole = some w →
    (roleDue s u.val = true → exec (.roleChange u) s = .next (takeRole u.val w s) ∧
      (roleWord s u.val ≠ w → roleWord (setRole u.val w s) u.val = w ∧ epochOf (setRole u.val w s) u.val = (epochOf s u.val + 1) % 65536 ∧
        unitSt (setRole u.val w s) u.val = { unitSt s u.val with nextRole := none, lastChange := some (now s) })) ∧
    (roleDue s u.val = false → Idles s (.roleChange u))) ∧
  (∀ (v : Byte) (s : State),
    (v = 0 → Accepts s (.templatesEnable v) [.obj, .work, .out] fun t => rd t kPlTemplatesEnable = 0 ∧ Keeps [kPlTemplatesEnable] s t ∧
      t.work = { s.work with templates := [] }) ∧
    (v = 1 → Accepts s (.templatesEnable v) [.obj, .out] fun t => rd t kPlTemplatesEnable = 1 ∧ Keeps [kPlTemplatesEnable] s t) ∧
    (1 < v.toNat → Refuses s (.templatesEnable v) .range)) ∧
  (∀ (v : Byte) (s : State),
    (rdB s kPlTemplatesEnable = true → Refuses s (.templateSlots v) .state) ∧
    (rdB s kPlTemplatesEnable = false → v = 0 ∨ 4 < v.toNat → Refuses s (.templateSlots v) .range) ∧
    (rdB s kPlTemplatesEnable = false → v ≠ 0 → v.toNat ≤ 4 → Accepts s (.templateSlots v) [.obj, .out] fun t =>
      rd t kPlTemplateSlots = v.toNat ∧ Keeps [kPlTemplateSlots] s t))

/-- A chunk of an engine job (R41, R287, R288, R290, R313, R320, R322): one that is not due changes nothing; a job whose parameter block holds
poison ends POISONED_DATA and does no work; a job whose block or soft buffer fails its check at the start ends PARAM_ERROR, is counted once and
does no work; one with a buffer where no memory answers ends with the access logged; every other chunk does its work, the blocks, transforms, REs or
matrices and the jobs are counted, and the unit's run is marked done. -/
def Obligations.EngineChunks : Prop :=
  ∀ (e : EngId) (s : State), let G := e.val / 15
    ∀ y ∈ [(Instr.ldpcDecode e, 0x010, kEncParamErrors G 0, kEncJobs G 0, kEncBlocks G 0),
      (.ldpcEncode e, 0x011, kEncParamErrors G 1, kEncJobs G 1, kEncBlocks G 1),
      (.polarDecode e, 0x018, kEncParamErrors G 2, kEncJobs G 2, kEncBlocks G 2),
      (.turboDecode e, 0x020, kEncParamErrors G 3, kEncJobs G 3, kEncBlocks G 3),
      (.turboEncode e, 0x021, kEncParamErrors G 3, kEncJobs G 3, kEncBlocks G 3),
      (.convolutionalDecode e, 0x028, kEncParamErrors G 4, kEncJobs G 4, kEncBlocks G 4),
      (.harqCombine e, 0x030, kEncParamErrors G 5, kEncJobs G 5, kEncBlocks G 5),
      (.fft e, 0x040, kEnFfeParamErrors G, kEnFfeJobs G, kEnFfeTransforms G),
      (.ifft e, 0x041, kEnFfeParamErrors G, kEnFfeJobs G, kEnFfeTransforms G),
      (.prachExtract e, 0x048, kEnFfeParamErrors G, kEnFfeJobs G, kEnFfeTransforms G),
      (.channelEstimate e, 0x050, kEnEqeParamErrors G, kEnEqeJobs G, kEnEqeRes G),
      (.equalise e, 0x051, kEnEqeParamErrors G, kEnEqeJobs G, kEnEqeRes G),
      (.beamWeights e, 0x058, kEnBweParamErrors G, kEnBweJobs G, kEnBweMatrices G)],
      (curChunk s e.val y.2.1 = none → Idles s y.1) ∧
      ∀ run g r, curChunk s e.val y.2.1 = some (run, g, r) →
        let x : Chunk := { e := e.val, run := run, g := g, r := r, b := paramBlock s g r }
        (blockPoisoned s g r = true → exec y.1 s = .next (chunkWorked e.val 5 run s)) ∧
        (blockPoisoned s g r = false → startFails s x = true → Gives s y.1 [.obj, .work] fun t =>
          (r.code ≠ 7 → Counts 32 y.2.2.1 1 s t) ∧ (r.code = 7 → rd t y.2.2.1 = rd s y.2.2.1) ∧ Keeps [y.2.2.1] s t ∧ (unitSt t (engUnit e.val)).cur = some { run with worked := true } ∧
            (jobRt t run.gid run.num).map (·.code) = some (worseCode 7 r.code)) ∧
        (blockPoisoned s g r = false → startFails s x = false → ∀ a, jobHole s g r = some a →
          exec y.1 s = .next (endHole e.val a run s)) ∧
        (blockPoisoned s g r = false → startFails s x = false → jobHole s g r = none →
         Gives s y.1 [.obj, .host, .dict, .work, .dram, .sram, .mem, .out, .freeCtr] fun t =>
          (if x.last then Counts 64 y.2.2.2.1 1 s t else rd t y.2.2.2.1 = rd s y.2.2.2.1) ∧ Counts 64 y.2.2.2.2 run.n s t ∧
            (unitSt t (engUnit e.val)).cur = some { run with worked := true } ∧ t.work.ready = s.work.ready)

/-- What the coding engines write for a chunk of one quantum whose input holds no poison (R290 to R304, R311 to R315): encoders their block's
rate-matched bits; decoders bits whose unused places are 0 and a status record whose RESULT agrees with the CRC of those bits and whose
iterations are within the limit; HARQ_COMBINE the soft-buffer header its action calls for. What the encoders' standard makes of a block is
an open function, and decoded bits are free (log 31). -/
def Obligations.CodingResults : Prop :=
  ∀ (e : EngId) (s : State) (op : Nat) (run : Run) (g : Graph) (r : JobRt), curChunk s e.val op = some (run, g, r) →
    let x : Chunk := { e := e.val, run := run, g := g, r := r, b := paramBlock s g r }
    let b := x.b
    let q := run.first
    let L := [Part.obj, .host, .dict, .work, .dram, .sram, .mem, .out, .freeCtr]
    let Apart := fun (a n a' n' : Nat) => a + n ≤ a' ∨ a' + n' ≤ a
    let ZeroTail := fun (n : Nat) (l : List Byte) => l.length = ceilDiv n 8 ∧ ∀ v ∈ (bitsMsb l).drop n, v = false
    let Passes := fun (w poly n : Nat) (l : List Byte) => crcReg w poly ((bitsMsb l).take n) == 0
    blockPoisoned s g r = false → startFails s x = false → jobHole s g r = none → run.n = 1 → Memory.wf s.mem = true →
    (∀ a1, refAddr g r (x.buf 1) = some a1 →
      (op = 0x011 → let n := pf b 12 0 10; let k := pf b 14 0 10 + q; let a := pf b 20 0 20
        let held := a + (if bitAt b 1 then 0 else if a > 3824 then 24 else 16)
        let E := rateE (pf b 8 0 32) n (pf b 6 4 3) (pf b 6 0 4) k
        let out := cutBits E (Config.ldpcEncode (BitVec.ofNat 512 b) (x.read 0 (pf b 28 0 32) (ceilDiv held 8) s).1 k E)
        let o := a1 + (pf b 32 0 32 + q * pf b 36 0 32)
        Gives s (.ldpcEncode e) L fun t => load t o out.length = out ∧ MemKeeps o out.length s t ∧ ZeroTail E out) ∧
      (op = 0x021 → let a := pf b 4 0 20; let n := turboC a; let k := pf b 14 0 10 + q
        let held := a + (if bitAt b 0 then 0 else 24)
        let E := rateE (pf b 8 0 32) n (pf b 12 4 3) (pf b 12 0 4) k
        let out := cutBits E (Config.turboEncode (BitVec.ofNat 512 b) (x.read 0 (pf b 20 0 32) (ceilDiv held 8) s).1 k E)
        let o := a1 + (pf b 28 0 32 + q * pf b 32 0 32)
        Gives s (.turboEncode e) L fun t => load t o out.length = out ∧ MemKeeps o out.length s t ∧ ZeroTail E out) ∧
      (∀ a2, refAddr g r (x.buf 2) = some a2 →
        (op = 0x010 → let kp := pf b 4 0 14; let o := a1 + (pf b 28 0 32 + q * pf b 32 0 32); let st := a2 + (pf b 36 0 32 + 16 * q)
          let crc := pf b 0 2 2
          let n := pf b 12 0 10
          let rate := fun c d => rateSum (pf b 8 0 32) n (pf b 6 4 3) (pf b 6 0 4) c d
          let f := pf b 14 0 10
          let inp := if bitAt b 1 then (pf b 20 0 32 + q * pf b 24 0 32, ncbOf (pf b 0 0 1) (pf b 2 0 9) (pf b 16 0 16))
            else (pf b 20 0 32 + rate f (f + q), rate (f + q) (f + q + 1))
          (x.read 0 inp.1 inp.2 s).2 = false → Apart o (ceilDiv kp 8) st 16 →
          Gives s (.ldpcDecode e) L fun t => ∃ it flags part metric, 1 ≤ it ∧ it ≤ max 1 (min (pf b 1 0 6) r.cap) ∧
            let bits := load t o (ceilDiv kp 8)
            ZeroTail kp bits ∧ load t st 16 = statusRec (decodeResult false (crc != 0)
              (Passes (if crc = 3 then 16 else 24) (if crc = 3 then crc16p else if crc = 2 then crc24a else crc24b) kp bits) (metric == 0))
              it flags part metric (f + q)) ∧
        (op = 0x018 → let h := 16 + 16 * q; let k := pf b h 0 11; let o := a1 + pf b (h + 8) 0 32; let st := a2 + (pf b 4 0 32 + 16 * q)
          (x.read 0 (pf b (h + 4) 0 32) (pf b (h + 2) 0 14) s).2 = false → Apart o (ceilDiv k 8) st 16 →
          Gives s (.polarDecode e) L fun t => ZeroTail k (load t o (ceilDiv k 8)) ∧
            ∃ result part, result ≤ 1 ∧ load t st 16 = statusRec result (pf b (h + 12) 0 2) 0 part 0 q) ∧
        (op = 0x020 → let a := pf b 4 0 20; let n := turboC a; let f := pf b 14 0 10; let k := turboBits a (f + q)
          let o := a1 + (pf b 28 0 32 + q * pf b 32 0 32)
          let st := a2 + (pf b 36 0 32 + 16 * q)
          let rate := fun c d => rateSum (pf b 8 0 32) n (pf b 12 4 3) (pf b 12 0 4) c d
          let inp := if bitAt b 0 then (pf b 20 0 32 + q * pf b 24 0 32, turboKw (turboKr a (f + q)))
            else (pf b 20 0 32 + rate f (f + q), rate (f + q) (f + q + 1))
          (x.read 0 inp.1 inp.2 s).2 = false → Apart o (ceilDiv k 8) st 16 →
          Gives s (.turboDecode e) L fun t => ∃ it flags part, 1 ≤ it ∧ it ≤ max 1 (pf b 1 0 4) ∧
            let bits := load t o (ceilDiv k 8)
            ZeroTail k bits ∧ load t st 16 = statusRec (decodeResult false (pf b 0 1 2 != 0)
              (Passes 24 (if n > 1 then crc24b else crc24a) k bits) true) it flags part 0 (f + q)) ∧
        (op = 0x028 → let h := 16 + 16 * q; let k := pf b (h + 2) 0 15; let o := a1 + pf b (h + 12) 0 32; let st := a2 + (pf b 4 0 32 + 16 * q)
          let crc := pf b h 3 2
          (x.read 0 (pf b (h + 8) 0 32) (pf b (h + 4) 0 16) s).2 = false → Apart o (ceilDiv k 8) st 16 →
          Gives s (.convolutionalDecode e) L fun t => ∃ metric, let bits := load t o (ceilDiv k 8)
            ZeroTail k bits ∧ load t st 16 = statusRec (decodeResult false (crc != 0)
              (Passes (if crc = 1 then 8 else 16) (if crc = 1 then crc8p else crc16p) k bits) true) 0 0 0 metric q))) ∧
    (op = 0x030 → bitAt b 1 = false → bitAt b 2 = false →
      let a := sbAddr s (sbFirst s g.tenant + hqcSb b q)
      let h := sbHeader s a
      let act := sbAct (hqcOp b q) g.air g.ci h
      let ncb := pf b 8 0 16
      Gives s (.harqCombine e) L fun t =>
        (act = .mismatch ∨ act = .order ∨ act = .combineOnly ∨ act = .outputOnly → t.mem = s.mem) ∧
        (act = .release → load t a 64 = toBytes 64 (setFld h 0 1 0) ∧ MemKeeps a 64 s t) ∧
        (act = .store ∨ act = .combine → MemKeeps a (64 + ceilDiv ncb 2) s t ∧ let h1 := ofBytes (load t a 64)
          hdrValid h1 = true ∧ hdrAir h1 = g.air % 2 ^ 64 ∧ hdrCi h1 = (if act = .combine then hdrCi h else g.ci % 512) ∧
            fld h1 32 16 = (if act = .combine then fld h 32 16 else ncb) ∧ fld h1 8 8 = (if act = .combine then min (fld h 8 8 + 1) 255 else 0)))

/-- What the signal engines write (R323 to R343): each component of a transform lies within the bound that R325 sets around the exact sum and is
saturated to 16 bits; PRACH extraction and channel estimation write at the last chunk of the job; equalisation and beam weights write
their own output range and nothing else; a channel matrix without full rank gives zero weights and is counted. Values within the layout that
the manual does not bound are free (log 31). -/
def Obligations.SignalResults : Prop :=
  ∀ (e : EngId) (s : State) (op : Nat) (run : Run) (g : Graph) (r : JobRt), curChunk s e.val op = some (run, g, r) →
    let x : Chunk := { e := e.val, run := run, g := g, r := r, b := paramBlock s g r }
    let b := x.b
    let q := run.first
    let L := [Part.obj, .host, .dict, .work, .dram, .sram, .mem, .out, .freeCtr]
    let n := fftLen (pf b 0 0 3)
    let nsc := pf b 2 0 13
    let cp := fftCp b (q % max 1 (pf b 10 0 4))
    let time := 4 * fftBefore b q
    let freq := 4 * q * nsc
    let Near := fun (v c : Int) => let lim := fun (d : Int) => (satS 16 (roundShift (v + d * 2 ^ (prec - 20)) (prec + pf b 1 0 4) + 2 * d)).1
      lim (-1) ≤ c ∧ c ≤ lim 1
    blockPoisoned s g r = false → startFails s x = false → jobHole s g r = none → Memory.wf s.mem = true →
    (∀ a1, refAddr g r (x.buf 1) = some a1 → run.n = 1 →
      (op = 0x040 → Gives s (.fft e) L fun t => let o := a1 + (pf b 16 0 32 + freq)
        let xs := samplesOf (x.read 0 (pf b 12 0 32 + (time + 4 * cp)) (4 * n) s).1 n
        MemKeeps o (4 * nsc) s t ∧ ∀ k < nsc,
          let z := dotRoots ((upto n).map fun (i : Nat) => (xs.getD i (0, 0), rootOf (-(fftBin2 b k * (i : Int))) n))
          let y := (samplesOf (load t o (4 * nsc)) nsc).getD k (0, 0)
          Near z.1 y.1 ∧ Near z.2 y.2) ∧
      (op = 0x041 → Gives s (.ifft e) L fun t => let o := a1 + (pf b 16 0 32 + time)
        let xs := samplesOf (x.read 0 (pf b 12 0 32 + freq) (4 * nsc) s).1 nsc
        MemKeeps o (4 * (cp + n)) s t ∧ ∀ i < cp + n,
          let z := dotRoots ((upto nsc).map fun k => (xs.getD k (0, 0), rootOf (fftBin2 b k * ((i : Int) - cp)) n))
          let y := (samplesOf (load t o (4 * (cp + n))) (cp + n)).getD i (0, 0)
          Near z.1 y.1 ∧ Near z.2 y.2) ∧
      (op = 0x058 → let m := pf b 0 0 2; let l := pf b 1 0 5; let a := pf b 2 0 7
        let rows := if m = 2 then pf b 3 0 5 else l
        let o := a1 + (pf b 12 0 32 + q * pf b 16 0 32)
        let z := samplesOf (x.read 0 (pf b 8 0 32 + 4 * q * l * a) (4 * l * a) s).1 (l * a)
        let low := m ≠ 2 ∧ pivotsPositive l 1 (gram z l a (if m = 0 then fld b 32 16 else 0) (if m = 0 then toInt 8 (fld b 48 8) else 0)) = false
        Gives s (.beamWeights e) L fun t => MemKeeps o (64 + 4 * a * rows) s t ∧
          (bitAt (ofBytes (load t o 64)) 24 = true ↔ low) ∧
          (low → load t (o + 64) (4 * a * rows) = List.replicate (4 * a * rows) 0 ∧ Counts 64 (kEnRankDeficient (e.val / 15)) 1 s t))) ∧
    (op = 0x048 → (x.last = false → Gives s (.prachExtract e) [.obj, .dict, .host, .sram, .out, .work] fun t => t.mem = s.mem) ∧
      ∀ a1, refAddr g r (x.buf 1) = some a1 → x.last = true → Gives s (.prachExtract e) L fun t => ∃ n ≤ pf b 7 0 7,
        MemKeeps (a1 + pf b 16 0 32) (16 + 16 * n) s t ∧ fld (ofBytes (load t (a1 + pf b 16 0 32) 16)) 0 7 = n ∧
          Counts 64 (kEnPrachDetections (e.val / 15)) n s t) ∧
    (op = 0x050 → x.last = false → Gives s (.channelEstimate e) [.obj, .dict, .host, .sram, .out, .work] fun t => t.mem = s.mem) ∧
    (op = 0x050 → ∀ a1, refAddr g r (x.buf 1) = some a1 → x.last = true → bitAt b 6 = false → bitAt b 7 = false →
      Gives s (.channelEstimate e) L fun t =>
        MemKeeps (a1 + pf b 16 0 32) (4 * (if pf b 0 0 3 = 4 then ceilDiv (pf b 6 0 9) (max 1 (pf b 11 0 5)) else 12 * pf b 6 0 9) *
          pf b 1 0 5 * pf b 2 0 7) s t) ∧
    (op = 0x051 → ∀ a3, refAddr g r (x.buf 3) = some a3 → run.n = 1 → bitAt b 1 = false →
      Gives s (.equalise e) L fun t => MemKeeps (a3 + (pf b 20 0 32 + 4 * q * pf b 1 0 5)) (4 * pf b 1 0 5) s t)

/-- The objects of the coding engines (R198, R295, R306, R307) and a unit fenced for a fault (R125, R129, R315, R532): the iteration cap of a tenant,
the range and quota of its soft buffers, whose slots are invalid before they are granted, the size of the region, and what fencing does. -/
def Obligations.CodingObjectsAndFence : Prop :=
  (∀ (t : BitVec 16) (cap : Byte) (s : State),
    (t.toNat < 512 → 1 ≤ cap.toNat → cap.toNat ≤ 32 → Accepts s (.lddCapSet t cap) [.obj, .out] fun u =>
      Keeps [kEnLddCap] s u ∧ fld (rd u kEnLddCap) (8 * t.toNat) 8 = cap.toNat ∧
        ∀ x < 512, x ≠ t.toNat → fld (rd u kEnLddCap) (8 * x) 8 = fld (rd s kEnLddCap) (8 * x) 8) ∧
    (512 ≤ t.toNat ∨ cap = 0 ∨ 32 < cap.toNat → Refuses s (.lddCapSet t cap) .range)) ∧
  (∀ (t : BitVec 16) (n : BitVec 32) (s : State), let a := sbFirst s t.toNat; let old := sbQuota s t.toNat
    let own := (span a old).any (slotValid s)
    let Grant := fun (x m : Nat) (zero : List Nat) => Accepts s (.sbQuotaSet t n) [.obj, .work, .dram, .sram, .mem, .out] fun u =>
      Keeps [kEnSbQuota, kEnSbBase] s u ∧ sbFirst u t.toNat = x % 2 ^ 32 ∧ sbQuota u t.toNat = m ∧
        (∀ y < 512, y ≠ t.toNat → sbFirst u y = sbFirst s y ∧ sbQuota u y = sbQuota s y) ∧
        (∀ k ∈ zero, load u (sbAddr s k) 64 = List.replicate 64 0) ∧
        (zero = [] → u.mem = s.mem)
    Memory.wf s.mem = true →
    (512 ≤ t.toNat → Refuses s (.sbQuotaSet t n) .range) ∧
    (t.toNat < 512 → own = false →
      (lowestRun s t.toNat n.toNat = none → Refuses s (.sbQuotaSet t n) .range) ∧
      ∀ x, lowestRun s t.toNat n.toNat = some x → if n = 0 then Grant 0 0 [] else Grant x n.toNat (span x n.toNat)) ∧
    (t.toNat < 512 → own = true → n.toNat < old →
      if (span (a + n.toNat) (old - n.toNat)).any (slotValid s) then Refuses s (.sbQuotaSet t n) .state else Grant a n.toNat []) ∧
    (t.toNat < 512 → own = true → old ≤ n.toNat →
      if slotsFree s t.toNat a n.toNat then Grant a n.toNat (span (a + old) (n.toNat - old)) else Refuses s (.sbQuotaSet t n) .range)) ∧
  (∀ (ncbMax : Bool) (v : BitVec 32) (s : State),
    let k := if ncbMax then kEnSbNcbMax else kEnSbCount
    let inLimits := if ncbMax then 1024 ≤ v.toNat ∧ v.toNat ≤ 25344 ∧ v.toNat % 128 = 0 else v.toNat ≤ 1048576
    let slot := 64 * ((64 + rd (wr k v.toNat s) kEnSbNcbMax / 2 + 63) / 64)
    let s2 := wr kEnSbRegion (rd (wr k v.toNat s) kEnSbCount * slot) (wr kEnSbSlotSize slot (wr k v.toNat s))
    (rd s kEnSbQuota ≠ 0 → Refuses s (.sbRegionWrite ncbMax v) .state) ∧
    (rd s kEnSbQuota = 0 → ¬inLimits ∨ poolBytes s2 < 2 ^ 30 → Refuses s (.sbRegionWrite ncbMax v) .range) ∧
    (rd s kEnSbQuota = 0 → inLimits → 2 ^ 30 ≤ poolBytes s2 → Accepts s (.sbRegionWrite ncbMax v) [.obj, .out] fun t =>
      rd t k = v.toNat ∧ rd t kEnSbSlotSize = slot ∧ rd t kEnSbRegion = rd t kEnSbCount * slot ∧
        Keeps [k, kEnSbSlotSize, kEnSbRegion] s t)) ∧
  (∀ (u : Fin 228) (s : State),
    ((unitSt s u.val).fenced = true → Idles s (.unitFence u)) ∧
    ((unitSt s u.val).fenced = false →
      let s1 := modUnit u.val (fun m => { m with fenced := true, task := none }) (cutHqc u.val s)
      let s2 := overcommitCheck (replaceUnit u.val (wantFn u.val 2 (stopUnit u.val 0x08 s1)))
      (unitSt s1 u.val).fenced = true ∧ inService s1 u.val = false ∧
      (u.val < 108 → exec (.unitFence u) s = .next (coreOut u.val s2)) ∧
      (108 ≤ u.val → unitClass u.val ≠ 10 → exec (.unitFence u) s = .next s2) ∧
      (108 ≤ u.val → unitClass u.val = 10 → exec (.unitFence u) s = .next (drainMar (marOf (u.val - 108)) s2))))

/-- Tenants, carrier instances, budgets and dedicated units (R177, R178, R186, R188, R190, R202). -/
def Obligations.TenantObjects : Prop :=
  (∀ (t : TenantId) (s : State), let k := kTeState t.val
    (t.val = 0 → Refuses s (.tenantEnable t) .state ∧ Refuses s (.tenantDisable t) .state) ∧
    (t.val ≠ 0 → tenantState s t.val = 0 → fnEnabled s t.val = false → Refuses s (.tenantEnable t) .state) ∧
    (t.val ≠ 0 → tenantState s t.val ≠ 0 ∨ fnEnabled s t.val = true → Accepts s (.tenantEnable t) [.obj, .out] fun u =>
      rd u k = 1 ∧ Keeps [k] s u) ∧
    (t.val ≠ 0 → tenantState s t.val ≠ 1 → Accepts s (.tenantDisable t) [.out] fun _ => True) ∧
    (t.val ≠ 0 → tenantState s t.val = 1 → hasGraphs s t.val = true → Accepts s (.tenantDisable t) [.obj, .out] fun u =>
      rd u k = 2 ∧ Keeps [k] s u) ∧
    (t.val ≠ 0 → tenantState s t.val = 1 → hasGraphs s t.val = false →
      Accepts s (.tenantDisable t) [.obj, .pow, .work, .radio, .out] fun u => rd u k = 0 ∧
        (∀ v ∈ u.pow.votes, v.client ≠ .tenant t.val) ∧ ∀ e ∈ u.work.charged, s.work.window < e.1 / 8192 → e.1 / 16 % 512 ≠ t.val)) ∧
  (∀ (t : TenantId) (c : BitVec 16) (s : State),
    (tenantState s t.val ≠ 1 → Refuses s (.ciAssign t c) .state) ∧
    (tenantState s t.val = 1 → 511 < c.toNat ∨ ciTenant s c.toNat ≠ none ∨ ciValid (ciDesc s c.toNat) = false →
      Refuses s (.ciAssign t c) .range) ∧
    (tenantState s t.val = 1 → c.toNat ≤ 511 → ciTenant s c.toNat = none → ciValid (ciDesc s c.toNat) = true →
      exec (.ciAssign t c) s =
        .next (send (.reply 0) (applyPending c.toNat { s with work := { s.work with ciOwner := tset c.toNat t.val s.work.ciOwner } })) ∧
      ((∀ r ∈ s.dict.pendingRecords, recordCi s.dict.pendingRecords r ≠ some c.toNat) → Accepts s (.ciAssign t c) [.work, .out] fun u =>
        ciTenant u c.toNat = some t.val ∧ ∀ x, x ≠ c.toNat → ciTenant u x = ciTenant s x)) ∧
    (ciTenant s c.toNat ≠ some t.val → Refuses s (.ciRemove t c) .range) ∧
    (ciTenant s c.toNat = some t.val →
      exec (.ciRemove t c) s = .next (send (.reply 0) (removeCi t.val c.toNat (endCiGraphs c.toNat s))))) ∧
  (∀ (t : TenantId) (k : Fin 18) (v : BitVec 64) (s : State),
    let new := if 14 ≤ k.val then v.toNat / tierUnit (k.val - 14) * tierUnit (k.val - 14) else v.toNat
    let old := rd s (budgetKey t.val k.val)
    (old < new → kindCapacity s k.val < kindAdmitted s k.val - old + new → Refuses s (.budgetWrite t k v) .range) ∧
    (new ≤ old ∨ kindAdmitted s k.val - old + new ≤ kindCapacity s k.val →
      Accepts s (.budgetWrite t k v) [.obj, .host, .dict, .work, .out] fun u => rd u (budgetKey t.val k.val) = new)) ∧
  (∀ (t : TenantId) (v : BitVec 16) (s : State),
    let old := rd s (kTeFlowLimit t.val)
    let sum := sumBy (tenants.filter fun x => x % 4 == t.val % 4) fun x => rd s (kTeFlowLimit x)
    (1024 < v.toNat ∨ (old < v.toNat ∧ 1024 < sum - old + v.toNat) → Refuses s (.flowLimit t v) .range) ∧
    (v.toNat ≤ 1024 → v.toNat ≤ old ∨ sum - old + v.toNat ≤ 1024 → Accepts s (.flowLimit t v) [.obj, .out] fun u =>
      rd u (kTeFlowLimit t.val) = v.toNat ∧ Keeps [kTeFlowLimit t.val] s u)) ∧
  (∀ (t : TenantId) (pin : Bool) (v : Byte) (s : State), let k := if pin then kTePinPolicy t.val else kTeMode t.val
    ((if pin then 1 else 2) < v.toNat → Refuses s (.tenantMode t pin v) .range) ∧
    (v.toNat ≤ (if pin then 1 else 2) → Accepts s (.tenantMode t pin v) [.obj, .work, .out] fun u =>
      rd u k = v.toNat ∧ Keeps [k] s u ∧
        u.work = { s.work with templates := if rd s k = v.toNat then s.work.templates else s.work.templates.filter fun x => x.tenant != t.val })) ∧
  (∀ (t : TenantId) (loc : BitVec 64) (ci : BitVec 16) (s : State),
    (locValid loc.toNat = false → Refuses s (.dedicate t loc ci) .locInvalid ∧ Refuses s (.releaseUnit t loc) .locInvalid) ∧
    (locValid loc.toNat = true → unitOf loc.toNat = none → Refuses s (.dedicate t loc ci) .range ∧ Refuses s (.releaseUnit t loc) .range) ∧
    ∀ x, locValid loc.toNat = true → unitOf loc.toNat = some x → let w := roleSoon s x
      let ok := (unitSt s x).fenced = false ∧ roleFn w ≠ 2 ∧ roleFn w ≠ 3 ∧ roleShared w = true ∧ ci.toNat ≤ 511 ∧
        ciTenant s ci.toNat = some t.val ∧ breaksCapacity s x = false
      (ok → Accepts s (.dedicate t loc ci) [.work, .out] fun u =>
        unitSt u x = { unitSt s x with nextRole := some (mkRole (roleFn w) false ci.toNat t.val) } ∧ ∀ y, y ≠ x → unitSt u y = unitSt s y) ∧
      (¬ok → Refuses s (.dedicate t loc ci) .range) ∧
      (x ∈ dedicatedUnits s t.val → Accepts s (.releaseUnit t loc) [.work, .out] fun u =>
        unitSt u x = { unitSt s x with nextRole := some (mkRole (roleFn w) true 0 0) } ∧ ∀ y, y ≠ x → unitSt u y = unitSt s y) ∧
      (x ∉ dedicatedUnits s t.val → Refuses s (.releaseUnit t loc) .range))

/-- The program table, the loading of a core's images, and the maintenance of cores (R204 to R206, R265, R266, R645). -/
def Obligations.ProgramsAndMaintenance : Prop :=
  (∀ (e : BitVec 512) (s : State), let n := rd s kPtEntrySelect; let x := e.toNat
    (s.dict.loadReplies ≠ [] → Refuses s (.entryWrite e) .state) ∧
    (s.dict.loadReplies = [] → pValid x = true → entryUsed s n = true → Refuses s (.entryWrite e) .state) ∧
    (s.dict.loadReplies = [] → progReservedOk x = false → pValid x = false ∨ entryUsed s n = false → Refuses s (.entryWrite e) .range) ∧
    (s.dict.loadReplies = [] → pValid x = true → entryUsed s n = false → progReservedOk x = true →
      (entryFits (putEntry n x s) x = false → Refuses s (.entryWrite e) .range) ∧
      (entryFits (putEntry n x s) x = true → Gives s (.entryWrite e) [.obj, .host, .dict, .work, .out] fun t => prog t n = x ∧
        (∀ m, m ≠ n → prog t m = prog s m) ∧
        if (upto 108).any fun u => (unitSt t u).reload && inService t u then t.dict.loadReplies = [{ out := .reply 0 }] ∧ t.out = s.out
        else t.dict.loadReplies = [] ∧ t.out = s.out ++ [.reply 0])) ∧
    (s.dict.loadReplies = [] → pValid x = false → progReservedOk x = true →
      Gives s (.entryWrite e) [.obj, .host, .dict, .work, .out] fun t => prog t n = x ∧
        (∀ m, m ≠ n → prog t m = prog s m) ∧ t.out.getLast? = some (.reply 0))) ∧
  (∀ (u : CoreId) (s : State), let m := unitSt s u.val
    let due := needsLoad s u.val && m.cur.isNone && m.ctx.isEmpty && !m.fenced && decide (roleFn (roleWord s u.val) ≤ 1)
    (due = false → Idles s (.programImageLoad u)) ∧
    (due = true → Memory.wf s.mem = true → Gives s (.programImageLoad u) [.obj, .host, .dict, .work, .sage, .dram, .sram, .mem, .out] fun t =>
      needsLoad t u.val = false ∧
      (codeBytes s (u.val / 9) ≤ 122880 → staticBytes s (u.val / 9) ≤ 98304 → MemKeeps (coreAddr u.val) 0x100000 s t) ∧
      ∀ p e, residents s (u.val / 9) = [(p, e)] → pImageLen e ≤ 122880 → pStaticLen e ≤ 98304 →
        load t (coreAddr u.val + 0x2000) (pImageLen e) = load s (pImageAddr e) (pImageLen e) ∧
        load t (coreAddr u.val + (0xD8000 - pStaticLen e)) (pStaticLen e) =
          if pStaticInit e = 0 then List.replicate (pStaticLen e) 0 else load s (pStaticInit e) (pStaticLen e))) ∧
  (∀ (c : ClusterId) (v : Byte) (s : State), let u := 9 * c.val + v.toNat; let w := roleSoon s u
    let ok := v.toNat ≤ 8 ∧ (unitSt s u).fenced = false ∧ roleFn w ≠ 2 ∧ roleFn w ≠ 1 ∧ roleFn (roleWord s u) ≠ 1 ∧ roleShared w = true ∧
      breaksCapacity s u = false
    (¬ok → Refuses s (.maintRequest c v) .range) ∧
    (ok → Accepts s (.maintRequest c v) [.work, .out] fun t => (∀ y, y ≠ u → unitSt t y = unitSt s y) ∧
      unitSt t u = { unitSt s u with task := some .maintenance, former := roleFn w, nextRole := some (setFld w 19 3 1) })) ∧
  (∀ (u : CoreId) (pass : Bool) (s : State), roleFn (roleWord s u.val) = 1 →
    (unitSt s u.val).task = some .maintenance ∨ (unitSt s u.val).task = some .calibration ∨
      ((unitSt s u.val).task = some .selftest ∧ inFlow s 1 u.val = false) →
    (pass = false → exec (.maintTaskEnd u false) s = .next (finishLoads (coreFails u.val (noteSelftest u.val false s)))) ∧
    (pass = true → needsLoad s u.val = false → exec (.maintTaskEnd u true) s = .next (finishLoads (roleNow u.val
      (setFld (roleSoon s u.val) 19 3 (unitSt s u.val).former)
      (modUnit u.val (fun m => { m with task := none }) (noteSelftest u.val true s))))) ∧
    rd (noteSelftest u.val pass s) (kClSelftest (u.val / 9) (u.val % 9)) = if pass then 1 else 2)

/-- Bindings of the machine-access receivers, their resources, and the size and rebuild of the identity table (R349, R350, R358, R367, R381,
R384). -/
def Obligations.ReceiverBindings : Prop :=
  (∀ (t : TenantId) (slot : Byte) (d : BitVec 512) (s : State), let n := 4 * t.val + slot.toNat; let x := d.toNat
    let ok := slot.toNat < 4 ∧ (bindOf s n).state = .free ∧ descFieldsOk x = true ∧ ciTenant s (bindCi x) = some t.val ∧ classAirOk s x = true ∧
      axcsBound s x = true ∧ marLimitsOk s x = true
    (¬ok ∨ spoolPlace s (bSpoolBytes x) = none → Refuses s (.bindSet t slot d) .range) ∧
    ∀ a, ok → spoolPlace s (bSpoolBytes x) = some a → Accepts s (.bindSet t slot d) [.radio, .out] fun u =>
      bindOf u n = { state := .active, desc := x, base := a } ∧ ∀ m, m ≠ n → bindOf u m = bindOf s m) ∧
  (∀ (t : TenantId) (slot : Byte) (s : State), let n := 4 * t.val + slot.toNat; let b := bindOf s n
    let stopped := !marRuns s (bMar b.desc)
    (4 ≤ slot.toNat → Refuses s (.unbind t slot) .range) ∧
    (slot.toNat < 4 → b.state ≠ .active → Refuses s (.unbind t slot) .state) ∧
    (slot.toNat < 4 → b.state = .active → Accepts s (.unbind t slot) [.obj, .radio, .out] fun u =>
      (u.radio.bursts = s.radio.bursts.filter fun x => !(4 * x.tenant + x.slot == n && (stopped || x.ended.isNone))) ∧
      bindOf u n = (if b.spool.isEmpty && !u.radio.bursts.any fun x => 4 * x.tenant + x.slot == n then {}
        else { b with state := .draining, chans := [] }) ∧ ∀ m, m ≠ n → bindOf u m = bindOf s m)) ∧
  (∀ (t : TenantId) (slot idx : Byte) (r : BitVec 256) (s : State), let n := 4 * t.val + slot.toNat; let b := bindOf s n; let i := idx.toNat
    let used := (marBindings s (bMar b.desc)).foldl (fun c e => c + e.2.resources.length) 0
    let there := slot.toNat < 4 ∧ i < 64 ∧ b.state = .active ∧ bClassE b.desc = true
    (¬there → Refuses s (.resSet t slot idx r) .range) ∧
    (there → bitAt r.toNat 7 = true → resourceOk b.desc r.toNat = false ∨ (tfind i b.resources = none ∧ 256 ≤ used) →
      Refuses s (.resSet t slot idx r) .range) ∧
    (there → bitAt r.toNat 7 = true → resourceOk b.desc r.toNat = true → tfind i b.resources ≠ none ∨ used < 256 →
      Accepts s (.resSet t slot idx r) [.radio, .out] fun u => (∀ m, m ≠ n → bindOf u m = bindOf s m) ∧
        bindOf u n = { b with resources := tset i r.toNat b.resources, removing := b.removing.filter (· != i) }) ∧
    (there → bitAt r.toNat 7 = false → Accepts s (.resSet t slot idx r) [.radio, .out] fun u => (∀ m, m ≠ n → bindOf u m = bindOf s m) ∧
      (bindOf u n).resources = b.resources ∧ (tfind i b.resources ≠ none → i ∈ (bindOf u n).removing) ∧
        (tfind i b.resources = none → bindOf u n = b))) ∧
  (∀ (v : Word) (s : State), let ok := 4096 ≤ v.toNat ∧ v.toNat ≤ 524288 ∧ v.toNat = 2 ^ Nat.log2 v.toNat
    (idtStopped s = false → Refuses s (.bucketsMax v) .state) ∧ (idtStopped s = true → ¬ok → Refuses s (.bucketsMax v) .range) ∧
    (idtStopped s = true → ok → Accepts s (.bucketsMax v) [.obj, .out] fun t => rd t kIdBucketsMax = v.toNat ∧ Keeps [kIdBucketsMax] s t)) ∧
  (∀ (buckets seed : Word) (s : State), let b := buckets.toNat
    let quotas := (upto 512).foldl (fun n t => n + rd s (kTeIdtQuota t)) 0
    let ok := 4096 ≤ b ∧ b ≤ rd s kIdBucketsMaxNow ∧ b = 2 ^ Nat.log2 b ∧ quotas ≤ 8 * b
    (rebuilding s = true → Refuses s (.idtRebuild buckets seed) .state) ∧
    (rebuilding s = false → ¬ok → Refuses s (.idtRebuild buckets seed) .range) ∧
    (rebuilding s = false → ok → Accepts s (.idtRebuild buckets seed) [.obj, .radio, .out] fun t => rd t kIdRebuildState = 1 ∧
      rd t kIdCursor = 0 ∧ rd t kIdNewBuckets = b ∧ t.radio = { s.radio with idtNew := [], newSeed := seed.toNat, stallDelete := false } ∧
        Keeps [kIdRebuildState, kIdCursor, kIdNewBuckets] s t))

/-- Bursts at a machine-access receiver (R351 to R361): a channel's search, its SFD, its header, its key, the end of its frame, the occasions of
class E, and the lookups with their deadline. -/
def Obligations.ReceiverBursts : Prop :=
  (∀ (t : TenantId) (slot : Fin 4) (c : Fin 1024) (s : State), let n := 4 * t.val + slot.val
    let After := fun (i : Instr) (ks : List Nat) (v : Chan) (P : State → Prop) => Gives s i [.obj, .radio] fun u =>
      Keeps ks s u ∧ tget (bindOf u n).chans c.val {} = v ∧ (∀ y, y ≠ c.val → tget (bindOf u n).chans y {} = tget (bindOf s n).chans y {}) ∧
        (∀ m, m ≠ n → bindOf u m = bindOf s m) ∧ P u
    (∀ (phr w : BitVec 16) (st : BitVec 64) (f : BitVec 32) (l : List Byte) (ok : Bool), chanOf s n c.val = none →
      Idles s (.preambleDetect t slot c) ∧ Idles s (.sfdMatch t slot c w st f) ∧ Idles s (.preTimeout t slot c) ∧
        Idles s (.phrDecided t slot c phr) ∧ Idles s (.keyDecided t slot c l) ∧ Idles s (.frameEnd t slot c l ok w w w)) ∧
    ∀ (b : Binding) (ch : Chan), chanOf s n c.val = some (b, ch) → let m := bMar b.desc; let k := kMaCounts m
      (ch.phase = .search → After (.preambleDetect t slot c) [k 0] { phase := .preamble, since := now s } fun u =>
        Counts 64 (k 0) 1 s u ∧ u.radio.bursts = s.radio.bursts) ∧
      (ch.phase ≠ .search → Idles s (.preambleDetect t slot c)) ∧
      (ch.phase = .preamble → ch.since + preambleTc b.desc ≤ now s → After (.preTimeout t slot c) [k 2] {} fun u =>
        Counts 64 (k 2) 1 s u ∧ u.radio.bursts = s.radio.bursts) ∧
      (∀ (w : BitVec 16) (st : BitVec 64) (f : BitVec 32), let lim : Int := afcLimitHz b.desc c.val
        let at_ := lim ≤ f.toInt || f.toInt ≤ -lim
        (sfdMatch b.desc w.toNat = none → Idles s (.sfdMatch t slot c w st f)) ∧
        ∀ coded errs, sfdMatch b.desc w.toNat = some (coded, errs) → ch.phase = .preamble → now s ≤ ch.since + preambleTc b.desc →
          After (.sfdMatch t slot c w st f) [k 1, k 5, k 9]
            { phase := .frame, since := ch.since, start := st.toNat, coded := coded, errs := errs, cfo := ofInt 32 (clampI (-lim) lim f.toInt),
              afcLimit := at_, burst := s.radio.declared } fun u =>
            Counts 64 (k 1) 1 s u ∧ Counts 64 (k 5) 1 s u ∧ Counts 64 (k 9) (b2n at_) s u ∧ u.radio.declared = s.radio.declared + 1 ∧
              ∃ x, u.radio.bursts = s.radio.bursts ++ [x] ∧ x.num = s.radio.declared ∧ x.mar = m ∧ x.tenant = t.val ∧ x.slot = slot.val ∧
                x.source = c.val ∧ x.start = st.toNat ∧ x.lookup = .none ∧ x.ended = none) ∧
      (∀ (phr : BitVec 16), ch.phase = .frame → ch.phr = none → let len := fld phr.toNat 0 11; let ms := bitAt phr.toNat 15
        (ms = false → len ≠ 0 → len ≤ bMaxPsdu b.desc → After (.phrDecided t slot c phr) [] { ch with phr := some phr.toNat } fun u =>
          u.radio.bursts = s.radio.bursts) ∧
        (ms = true ∨ len = 0 ∨ bMaxPsdu b.desc < len → Gives s (.phrDecided t slot c phr) [.obj, .host, .radio, .dram, .out, .freeCtr] fun u =>
          tget (bindOf u n).chans c.val {} = {} ∧ (∀ y ∈ u.radio.bursts, y.num ≠ ch.burst) ∧
          ∀ x, s.radio.bursts.find? (fun x => x.num == ch.burst) = some x → 4 * x.tenant + x.slot = n →
            spoolUsed b + 64 ≤ bSpoolBytes b.desc → ∃ r, (bindOf u n).spool = b.spool ++ [r] ∧ r.payload = [] ∧
              fld r.head 0 8 = if ms then 4 else 3)) ∧
      (∀ (l : List Byte) (x : Burst), ch.phase = .frame → ch.phr.isSome = true → bKeyOfs b.desc + bKeyLen b.desc ≤ fld (ch.phr.getD 0) 0 11 →
        s.radio.bursts.find? (fun x => x.num == ch.burst) = some x → x.lookup = .none → lookupDepth s m < rd s (kMaLookupQueue m) →
        Gives s (.keyDecided t slot c l) [.obj, .radio] fun u => Keeps [kMaLookupDepthMax m] s u ∧ u.radio.bindings = s.radio.bindings ∧
          u.radio.bursts.find? (fun x => x.num == ch.burst) =
            some { x with key := ofBytes (padTo (bKeyLen b.desc) l).reverse, lookup := .queued }) ∧
      (∀ (l : List Byte) (ok : Bool) (rssi snr mse : BitVec 16) (p : Nat) (x : Burst), ch.phase = .frame → ch.phr = some p →
        s.radio.bursts.find? (fun x => x.num == ch.burst) = some x → x.lookup = .queued → After (.frameEnd t slot c l ok rssi snr mse) [] {} fun u =>
          ∃ h, u.radio.bursts.find? (fun x => x.num == ch.burst) = some { x with ended := some (now s + usToTc 50, h,
              padTo (if ch.coded then 2 * (16 + 8 * fld p 0 11 + 3) else fld p 0 11) l) } ∧
            fld h 0 8 = (if ch.coded then 2 else if ok then 0 else 1) ∧ fld h 320 16 = rssi.toNat ∧ fld h 336 16 = snr.toNat)) ∧
  (∀ (t : TenantId) (slot : Fin 4) (idx : Fin 64) (l : List Cand) (s : State), let n := 4 * t.val + slot.val; let b := bindOf s n
    (tfind idx.val b.resources = none → Idles s (.occasionEnd t slot idx l)) ∧
    ∀ r start, tfind idx.val b.resources = some r → occasionStart (ciOfs (ciDesc s (bindCi b.desc))) r (now s) = some start →
      b.state = .active → marRuns s (bMar b.desc) = true →
      let tried := (sortBy (fun a c => c.ratio ≤ a.ratio) (l.filter fun x => decide (x.idx < rNcand r) && decide (rEnergyTh r ≤ x.ratio))).take 16
      let good := tried.filter fun x => decide (rQualTh r ≤ x.metric)
      Gives s (.occasionEnd t slot idx l) [.obj, .host, .radio, .dram, .out] fun u =>
        u.radio.declared = s.radio.declared + good.length ∧ 
          rd u (kMaCounts (bMar b.desc) 5) % 2 ^ 64 = (rd s (kMaCounts (bMar b.desc) 5) + good.length) % 2 ^ 64 ∧
          (bindOf u n).resources = if b.removing.contains idx.val then tdel idx.val b.resources else b.resources) ∧
  (∀ (m : MarId) (s : State) (x : Burst), s.radio.bursts.find? (fun x => x.mar == m.val && x.lookup == .queued && beforeDeadline s x) = some x →
    marRuns s m.val = true → let s0 := marCount m.val 6 1 s; let r := lookup m.val x.tenant x.ns x.key s0
      exec (.lookupDone m) s = .next (settleBurst x.num (modBurst x.num (fun x => { x with lookup := r.1 }) r.2)) ∧
      (rebuilding s = false → (∀ b ∈ candidates s false x.tenant x.ns x.key, ∀ i < 8, rangePoisoned s (idtLine s s.radio.idtSecond b i) 64 = false) →
        r.2 = s0 ∧ r.1 = match (idtFind s false x.tenant x.ns x.key).bind fun p => tfind p s.radio.idtCur with
          | some e => .done true false e.blocked e.sid e.user
          | none => .done false false false 0 [])) ∧
  (∀ (m : MarId) (s : State), marRuns s m.val = true → (s.radio.bursts.map (·.num)).Nodup →
    Gives s (.lookupDeadline m) [.obj, .host, .radio, .dram, .out] fun u =>
      u.radio.bursts = s.radio.bursts.filter fun x => !(x.mar == m.val && (match x.ended with
        | some (dl, _, _) => decide (dl ≤ now s)
        | none => false)))

/-- The jobs of a receiver and the identity table (R361 to R371, R374 to R379): COLLECT takes records in order and reports them, UPDATE sends its
commands to the sequencer, each command changes the entry it names, and a rebuild moves the table bucket by bucket. -/
def Obligations.IdentityTable : Prop :=
  (∀ (m : MarId) (s : State), ∀ y ∈ [(Instr.collect m, false), (.update m, true)],
    (marChunk s m.val y.2 = none → Idles s y.1) ∧
    ∀ x, marChunk s m.val y.2 = some x →
      (blockPoisoned s x.g x.r = true → exec y.1 s = .next (chunkWorked x.e 5 x.run s)) ∧
      (blockPoisoned s x.g x.r = false → startFails s x = true → exec y.1 s = .next (chunkWorked x.e 7 x.run s)) ∧
      ∀ a, blockPoisoned s x.g x.r = false → startFails s x = false → jobHole s x.g x.r = some a →
        exec y.1 s = .next (endHole x.e a x.run s)) ∧
  (∀ (m : MarId) (s : State) (x : Chunk), marChunk s m.val false = some x → blockPoisoned s x.g x.r = false →
    startFails s x = false → jobHole s x.g x.r = none → Memory.wf s.mem = true →
    let n := 4 * x.g.tenant + pf x.b 1 0 2
    let me := some (x.g.id, x.r.p.num)
    let ok := fun (r : Record) => r.held.isNone && decide ((fld r.head 128 64 : Int) ≤ (x.g.air : Int) + toInt 32 (pf x.b 4 0 32))
    let l := (bindOf s n).spool
    let took := (takeRecords (1024 * (x.run.first + x.run.n)) ((l.filter fun r => r.held == me).foldl (fun c r => c + outBytes r) 0)
      (l.filter ok)).map fun p => p.2.ofs
    Gives s (.collect m) [.obj, .host, .dict, .work, .radio, .dram, .sram, .mem, .out] fun t =>
      (bindOf t n).spool = l.map (fun r => if took.contains r.ofs then { r with held := me } else r) ∧
      (∀ k, k ≠ n → bindOf t k = bindOf s k) ∧ (unitSt t (marUnit m.val)).cur = some { x.run with worked := true } ∧
      ∀ a, refAddr x.g x.r (x.buf 2) = some a → x.last = true → let y := ofBytes (load t (a + pf x.b 16 0 32) 16)
        fld y 0 32 = ((bindOf t n).spool.filter fun r => r.held == me).length % 2 ^ 32 ∧ bitAt y 96 = (bindOf t n).spool.any ok) ∧
  (∀ s : State, Gives s .collectCutoff [.obj, .work] fun t => t = wake s ∧ ∃ l, t.work.ready = s.work.ready ++ l) ∧
  (∀ (m : MarId) (s : State) (x : Chunk), marChunk s m.val true = some x → blockPoisoned s x.g x.r = false →
    startFails s x = false → jobHole s x.g x.r = none →
    (s.radio.commands.any fun c => c.gid == x.g.id && c.num == x.r.p.num) = false →
    let l := x.read 0 (pf x.b 12 0 32 + 64 * x.run.first) (64 * x.run.n) s
    let cmds := (upto x.run.n).map fun i =>
      ({ gid := x.g.id, num := x.r.p.num, eng := x.e, idx := x.run.first + i, cmd := fieldAt l.1 (64 * i) 64 } : UpdCmd)
    (∀ c ∈ s.radio.commands ++ cmds, commandOp c.cmd ≠ none) → Gives s (.update m) [.work, .radio] fun t =>
      t.radio = { s.radio with commands := s.radio.commands.filter (liveCommand s) ++ cmds } ∧ (l.2 = false → t.work = s.work)) ∧
  (∀ (s : State) (c : UpdCmd) (g : Graph) (op : Nat), nextCommand s = some c → commandOp c.cmd = some op → graphOf s c.gid = some g →
    rebuilding s = false →
    let L := [Part.obj, .host, .dict, .work, .radio, .dram, .sram, .mem, .out]
    let ns := cNs c.cmd
    let key := cKey c.cmd
    (∀ (f : Nat → Nat → State → (Nat × Nat) × State) (i : Instr), (op, i) ∈ [(0, Instr.insert), (2, .deleteKey)] →
      f = (if op = 0 then insertDo else deleteKeyDo) → let r := f g.tenant c.cmd s
        let s2 := if r.1.1 = 4 then bump kIdInsertFull r.2 else r.2
        exec i s = .next (answerBad (s2.radio.commands.length + 1) (commandResult c r.1.1 r.1.2 (countEntries g.tenant s2)))) ∧
    (op = 0 → ∀ p i, idtFind s false g.tenant ns key = none → idtHeld s (fun e => e.tenant == g.tenant) < rd s (kTeIdtQuota g.tenant) →
      idtFree s false g.tenant ns key = some p → freeSid s = some i → Gives s .insert L fun t =>
        let gen := ((tget s.radio.sids i {}).gen + 1) % 16
        t.radio.idtCur = tset p { key := key, ns := ns, tenant := g.tenant, sid := i + 2 ^ 22 * gen, user := cUser c.cmd } s.radio.idtCur ∧
          tget t.radio.sids i {} = { gen := gen, inUse := true } ∧ c ∉ t.radio.commands) ∧
    (∀ p e, idtFind s false g.tenant ns key = some p → tfind p s.radio.idtCur = some e →
      (op = 0 → idtFind s false e.tenant e.ns e.key = some p → Gives s .insert L fun t =>
        t.radio.idtCur = tset p { e with user := cUser c.cmd } s.radio.idtCur ∧ t.radio.sids = s.radio.sids) ∧
      (op = 2 → idtFind s false e.tenant e.ns e.key = some p → idtFind s true e.tenant e.ns e.key = none → Gives s .deleteKey L fun t =>
        t.radio.idtCur = tdel p s.radio.idtCur ∧ (tget t.radio.sids (sidIndex e.sid) {}).inUse = false)) ∧
    (idtFind s false g.tenant ns key = none → op = 2 → Gives s .deleteKey L fun t => t.radio.idtCur = s.radio.idtCur) ∧
    (∀ y, y = tget s.radio.sids (sidIndex (cSid c.cmd)) {} →
      (∀ i, (op, i) ∈ [(1, Instr.setUser), (3, .deleteId), (4, .block), (5, .unblock)] → y.inUse = false ∨ y.gen ≠ cSid c.cmd / 2 ^ 22 →
        Gives s i L fun t => t.radio.idtCur = s.radio.idtCur ∧ t.radio.sids = s.radio.sids) ∧
      ∀ e p, y.inUse = true → y.gen = cSid c.cmd / 2 ^ 22 → findSid s g.tenant (cSid c.cmd) = some e →
        idtFind s false e.tenant e.ns e.key = some p → idtFind s true e.tenant e.ns e.key = none →
        (op = 1 → Gives s .setUser L fun t => t.radio.idtCur = tset p { e with user := cUser c.cmd } s.radio.idtCur) ∧
        (op = 3 → Gives s .deleteId L fun t => t.radio.idtCur = tdel p s.radio.idtCur ∧ (tget t.radio.sids (sidIndex e.sid) {}).inUse = false) ∧
        (op = 4 → Gives s .block L fun t => t.radio.idtCur = tset p { e with blocked := true } s.radio.idtCur) ∧
        (op = 5 → Gives s .unblock L fun t => t.radio.idtCur = tset p { e with blocked := false } s.radio.idtCur))) ∧
  (∀ s : State, Gives s .sidQuarantineExpiry [.obj, .radio] fun t =>
    (∀ e ∈ t.radio.sids, ∀ q, e.2.quarantine = some q → now s < q + msToTc (rd s kIdIdQuarantine)) ∧
      t.radio.sids.map (fun e => (e.1, e.2.gen, e.2.inUse)) = s.radio.sids.map fun e => (e.1, e.2.gen, e.2.inUse)) ∧
  (∀ (s : State) (m : Nat), inService s (marUnit (sequencerMar s)) = false → (upto 4).find? (fun m => inService s (marUnit m)) = some m →
    (unitSt s (marUnit m)).cur = none → Gives s .sequencerHandover [.obj] fun t => rd t kIdSequencer = locEngine (marEngine m) ∧ Keeps [kIdSequencer] s t) ∧
  (∀ (i : Instr) (s : State), (i = .idtMigrateStep ∧ rd s kIdRebuildState = 1) ∨ (i = .idtStallRetry ∧ rd s kIdRebuildState = 3 ∧
      (s.radio.stallDelete = true ∨ s.radio.stallAt + secToTc 1 ≤ now s)) → let c := rd s kIdCursor
    (∀ j < 8, rangePoisoned s (idtLine s s.radio.idtSecond c j) 64 = false) →
    let r := copyEntries ((span (8 * c) 8).filterMap fun p => tfind p s.radio.idtCur) s
    Gives s i [.obj, .host, .dict, .radio, .dram, .out] fun t =>
      t.radio.idtNew = r.2.radio.idtNew ∧ t.radio.idtCur = s.radio.idtCur ∧
      (r.1 = none → rd t kIdCursor = c + 1 ∧ rd t kIdRebuildState = (if c + 1 = rd s kIdBuckets then 2 else 1)) ∧
      (r.1 ≠ none → rd t kIdCursor = c ∧ rd t kIdRebuildState = 3 ∧ t.radio.stallAt = now s ∧ t.radio.stallDelete = false)) ∧
  (∀ s : State, rd s kIdRebuildState = 2 → (∀ m < 4, (unitSt s (marUnit m)).cur = none) →
    (∀ g ∈ s.work.graphs, ∀ r ∈ g.rts, r.ran = true → r.open_ = false) → Gives s .idtSwap [.obj, .host, .dict, .radio, .out] fun t =>
      t.radio = { s.radio with idtCur := s.radio.idtNew, idtNew := [], idtSecond := !s.radio.idtSecond } ∧
        rd t kIdBuckets = rd s kIdNewBuckets ∧ rd t kIdSeed = s.radio.newSeed ∧ rd t kIdNewBuckets = 0 ∧ rd t kIdCursor = 0 ∧
          rd t kIdRebuildState = 0)

/-- The settings of a serial lane, its adaptation and its calibration records (R387 to R402, R410): rate and taps, DFE and CTLE steps, the load
window, the capture and the comparison of a record, and re-centring. -/
def Obligations.LaneSettings : Prop :=
  (∀ (n : LaneId) (v : Byte) (s : State), let free := laneState s n.val = 0 ∧ portOfLane s n.val = none
    let ok := v.toNat ≤ 14 ∧ (v.toNat = 0 ∨ 12 ≤ v.toNat ∨ n.val % 16 < 8)
    (¬free → Refuses s (.laneRate n v) .state) ∧ (free → ¬ok → Refuses s (.laneRate n v) .range) ∧
    (free → ok → Accepts s (.laneRate n v) [.obj, .out] fun t => laneRate t n.val = v.toNat ∧
      (∀ i < 4, laneTap t n.val i = (tapDefaults v.toNat).getD i 0) ∧ (v.toNat ≠ 14 → rd t (kLaPrecode n.val) = 0) ∧
        Keeps (kLaRate n.val :: kLaPrecode n.val :: (upto 4).map (kLaTap n.val)) s t)) ∧
  (∀ (n : LaneId) (item : Fin 5) (v : Byte) (s : State),
    (item.val = 0 → if v.toNat ≤ 15 then Accepts s (.txTapWrite n item v) [.obj, .out] fun t =>
        rd t (kLaTxSwing n.val) = v.toNat ∧ Keeps [kLaTxSwing n.val] s t else Refuses s (.txTapWrite n item v) .range) ∧
    (∀ i, item.val = i + 1 →
      let sum := (upto 4).foldl (fun a j => a + (if j = i then v.toInt else laneTap s n.val j).natAbs) 0
      let ok := ([-8, -24, 24, -24].getD i 0 : Int) ≤ v.toInt ∧ v.toInt ≤ ([4, 0, 63, 0].getD i 0 : Int) ∧ sum ≤ 63
      (ok → Accepts s (.txTapWrite n item v) [.obj, .out] fun t => laneTap t n.val i = v.toInt ∧ Keeps [kLaTap n.val i] s t) ∧
      (¬ok → Refuses s (.txTapWrite n item v) .range))) ∧
  (∀ (n : LaneId) (up down : BitVec 12) (s : State), let due := laneState s n.val = 2 ∧ rd s (kLaDfeMode n.val) = 0
    (¬due → Idles s (.dfeUpdate n up down)) ∧
    (due → Gives s (.dfeUpdate n up down) [.obj] fun t => Keeps [kLaDfeTaps n.val] s t ∧ ∀ i < 12, let lim : Int := if i = 0 then 96 else 32
      dfeTap t n.val i = clampI (-lim) lim (dfeTap s n.val i + (b2n (bitAt up.toNat i) : Int) - (b2n (bitAt down.toNat i) : Int)))) ∧
  (∀ (n : LaneId) (ctle vga : BitVec 2) (s : State),
    (laneState s n.val ≠ 2 → Idles s (.ctleVgaVisit n ctle vga)) ∧
    (laneState s n.val = 2 → Gives s (.ctleVgaVisit n ctle vga) [.obj] fun t => Keeps [kLaCtleCode n.val, kLaVga n.val] s t ∧
      rd t (kLaVga n.val) = codeStep vga 31 (rd s (kLaVga n.val)) ∧ rd t (kLaCtleCode n.val) =
        if rd s (kLaCtleMode n.val) = 1 then rd s (kLaCtleCode n.val) else codeStep ctle 15 (rd s (kLaCtleCode n.val)))) ∧
  (∀ (n : LaneId) (v : BitVec 16) (s : State), let bits := laneStaleBits s n.val v.toNat
    let due := laneState s n.val = 2 ∧ bits ≠ 0 ∧ bitAt (rd s (kLaLinkFlags n.val)) 4 = false
    (¬due → Idles s (.laneContextCheck n v)) ∧
    (due → Gives s (.laneContextCheck n v) [.obj, .host, .dict, .links, .out] fun t => fld (rd t (kLaLinkFlags n.val)) 4 2 = 3 ∧
      fld (rd t (kLaCalRecord n.val)) 264 2 = 3 ∧ rd t (kLaCdrBwNow n.val) = min 3 (rd s (kLaCdrBw n.val) + 1) ∧
      Counts 64 (kLaLaneStats n.val 3) 1 s t ∧ laneOf t n.val = { laneOf s n.val with staleSince := some (now s), failedAt := none } ∧
        ∀ m, m ≠ n.val → laneOf t m = laneOf s m)) ∧
  (∀ (n : LaneId) (v : BitVec 16) (s : State),
    let due := laneState s n.val = 2 ∧ bitAt (rd s (kLaLinkFlags n.val)) 5 = false ∧
      (laneOf s n.val).lastCapture + secToTc 60 ≤ now s ∧ (laneOf s n.val).since + secToTc 60 ≤ now s
    (¬due → Idles s (.laneCalCapture n v)) ∧
    (due → Gives s (.laneCalCapture n v) [.obj, .links] fun t => let r := rd t (kLaCalRecord n.val)
      Keeps [kLaCalRecord n.val] s t ∧ fld r 0 8 = 1 ∧ fld r 8 8 = laneRate s n.val % 256 ∧ fld r 16 4 = rd s (kLaCtleCode n.val) % 16 ∧
        fld r 24 5 = rd s (kLaVga n.val) % 32 ∧ fld r 32 96 = rd s (kLaDfeTaps n.val) % 2 ^ 96 ∧ fld r 176 16 = v.toNat ∧
        fld r 192 64 = now s % 2 ^ 64 ∧ fld r 256 2 = rd s (kLaLoadClass n.val) % 4 ∧
        laneOf t n.val = { laneOf s n.val with lastCapture := now s })) ∧
  (∀ (q : Fin 16) (l : List (BitVec 32 × BitVec 32)) (s : State), let c := quadClass s q.val (l.map fun w => (w.1.toNat, w.2.toNat))
    Gives s (.laneLoadWindow q l) [.obj, .links] fun t => (∀ i < 4, rd t (kLaLoadClass (4 * q.val + i)) = c) ∧ t.links.lanes = s.links.lanes ∧
      Keeps ((upto 4).map fun i => kLaLoadClass (4 * q.val + i)) s t ∧
        tget t.links.classRun q.val 0 = if c = 2 then tget s.links.classRun q.val 0 + 1 else 0) ∧
  (∀ (n : LaneId) (s : State), let l := laneOf s n.val
    let busy := l.scan.any (·.running)
    let l1 := if l.recentring.isSome then l else if busy then { l with recentreDue := true } else { l with recentring := some (now s) }
    let due := laneState s n.val = 2 ∧ l.staleSince.isSome = true ∧ (match l.failedAt with
      | some f => f + secToTc 10 ≤ now s
      | none => 100 ≤ tget s.links.classRun (n.val / 4) 0 ∨ l.staleSince.getD 0 + secToTc 10 ≤ now s)
    (due → Gives s (.laneRecentreStart n) [.links] fun t => laneOf t n.val = l1 ∧ ∀ m, m ≠ n.val → laneOf t m = laneOf s m) ∧
    (¬due → Idles s (.laneRecentreStart n)) ∧
    ∀ v : Byte, (laneState s n.val ≠ 2 → Refuses s (.laneRecentre n v) .state) ∧
      (laneState s n.val = 2 → v ≠ 1 → Refuses s (.laneRecentre n v) .range) ∧
      (laneState s n.val = 2 → v = 1 → Accepts s (.laneRecentre n v) [.links, .out] fun t => laneOf t n.val = l1 ∧ ∀ m, m ≠ n.val → laneOf t m = laneOf s m)) ∧
  (∀ (n : LaneId) (ph : Byte × Byte) (l : List (Byte × Byte)) (v : BitVec 16) (s : State) (t0 : Nat), (laneOf s n.val).recentring = some t0 →
    t0 + recentreTime (laneRate s n.val) ≤ now s →
    (Gives s (.laneRecentreDone n true ph l v) [.obj, .host, .dict, .links, .out] fun t => let m := laneOf t n.val
      m.phase = (laneOf s n.val).phase + midpoint ph ∧ m.recentring = none ∧ m.staleSince = none ∧ m.failedAt = none ∧ m.lastCapture = now s ∧
        fld (rd t (kLaLinkFlags n.val)) 4 2 = 0 ∧ fld (rd t (kLaCalRecord n.val)) 264 2 = 0 ∧
        rd t (kLaCdrBwNow n.val) = rd s (kLaCdrBw n.val) ∧ Counts 64 (kLaLaneStats n.val 4) 1 s t) ∧
    (Gives s (.laneRecentreDone n false ph l v) [.obj, .host, .dict, .links, .out] fun t =>
      laneOf t n.val = { laneOf s n.val with recentring := none, failedAt := some (now s) } ∧ Counts 64 (kLaLaneStats n.val 5) 1 s t ∧
        rd t (kLaCalRecord n.val) = rd s (kLaCalRecord n.val)))

/-- Eye scans, markers and test patterns of a lane (R404 to R407, R412 to R414). -/
def Obligations.LaneScansAndPatterns : Prop :=
  (∀ (n : LaneId) (p : BitVec 96) (s : State), let free := laneState s n.val = 2 ∧ rd s (kScScanState n.val) ≠ 1
    (¬free → Refuses s (.scanStart n p) .state) ∧
    (free → scanParamsOk (laneRate s n.val) p.toNat = false → Refuses s (.scanStart n p) .range) ∧
    (free → scanParamsOk (laneRate s n.val) p.toNat = true → Accepts s (.scanStart n p) [.obj, .links, .out] fun t =>
      rd t (kScScanState n.val) = 1 ∧ Keeps [kScScanState n.val] s t ∧ ∃ c, (laneOf t n.val).scan = some c ∧ c.params = p.toNat ∧
        c.cols = scanCols p.toNat ∧ c.rows = scanRows p.toNat ∧ c.eyes = scanEyes p.toNat ∧ c.counts = [] ∧ c.running = true ∧ c.rate = laneRate s n.val ∧
        c.cols * c.rows * c.eyes ≤ 4096)) ∧
  (∀ (n : LaneId) (errs : BitVec 64) (s : State) (c : Scan), (laneOf s n.val).scan = some c → c.running = true →
    (laneOf s n.val).recentring = none → c.pointAt + uiTc (laneRate s n.val) (2 ^ scanDwell c.params) + usToTc 1 ≤ now s →
    let k := c.counts ++ [min errs.toNat 0xFFFFFFFF]
    let due := (laneOf s n.val).recentreDue
    (k.length < c.cols * c.rows * c.eyes → Gives s (.scanPointDone n errs) [.links] fun t => (∀ m, m ≠ n.val → laneOf t m = laneOf s m) ∧
      (laneOf t n.val).recentring = (if due then some (now s) else none) ∧ (laneOf t n.val).recentreDue = false ∧
      (laneOf t n.val).scan = some { c with
        counts := k, pointAt := now s, recentred := c.recentred || due, split := if due && c.split == 0xFFFF then k.length else c.split }) ∧
    (c.cols * c.rows * c.eyes ≤ k.length → Gives s (.scanPointDone n errs) [.obj, .host, .dict, .links, .out] fun t =>
      rd t (kScScanState n.val) = 2 ∧ (laneOf t n.val).recentring = (if due then some (now s) else none) ∧
      (laneOf t n.val).scan = some { c with counts := k, pointAt := now s, running := false, fin := now s, aborted := false })) ∧
  (∀ (n : LaneId) (v : Byte) (s : State),
    (v ≠ 1 → Refuses s (.scanAbort n v) .range) ∧
    (v = 1 → ((laneOf s n.val).scan.any (·.running)) = false → Accepts s (.scanAbort n v) [.out] fun _ => True) ∧
    ∀ c, v = 1 → (laneOf s n.val).scan = some c → c.running = true → Accepts s (.scanAbort n v) [.obj, .host, .dict, .links, .out] fun t =>
      rd t (kScScanState n.val) = 3 ∧ (laneOf t n.val).scan = some { c with running := false, fin := now s, aborted := true }) ∧
  (∀ (n : LaneId) (skew : BitVec 31) (s : State) (p : Nat), laneState s n.val = 2 → portOfLane s n.val = some p → 1 < modeLanes (rd s (kPoMode p)) →
    Gives s (.amLock n skew) [.obj, .host, .dict, .out] fun t => rd t (kLaAmLocked n.val) = 1 ∧ rd t (kLaSkew n.val) = skew.toNat ∧
      bitAt (rd t (kLaLinkFlags n.val)) 2 = true ∧ bitAt (rd t (kLaLinkFlags n.val)) 3 = decide (180000 < skew.toNat)) ∧
  (∀ (n : LaneId) (s : State), (rdB s (kLaAmLocked n.val) = false → Idles s (.amLost n)) ∧
    (rdB s (kLaAmLocked n.val) = true → Gives s (.amLost n) [.obj, .host, .dict, .out] fun t => rd t (kLaAmLocked n.val) = 0 ∧
      bitAt (rd t (kLaLinkFlags n.val)) 2 = false ∧ Counts 64 (kLaLaneStats n.val 2) 1 s t)) ∧
  (∀ (n : LaneId) (bits errs : BitVec 64) (s : State), rd s (kLaPrbsChk n.val) ≠ 0 → laneState s n.val = 2 →
    Gives s (.prbsLock n bits errs) [.obj] fun t => rd t (kLaPrbsLocked n.val) = 1 ∧ Counts 64 (kLaPrbsBits n.val) bits.toNat s t ∧
      Counts 64 (kLaPrbsErrors n.val) errs.toNat s t ∧ Keeps [kLaPrbsLocked n.val, kLaPrbsBits n.val, kLaPrbsErrors n.val] s t) ∧
  (∀ (n : LaneId) (v : Byte) (s : State), (v ≠ 1 → Refuses s (.prbsClear n v) .range) ∧
    (v = 1 → Accepts s (.prbsClear n v) [.obj, .out] fun t => rd t (kLaPrbsBits n.val) = 0 ∧ rd t (kLaPrbsErrors n.val) = 0 ∧
      Keeps [kLaPrbsBits n.val, kLaPrbsErrors n.val] s t))

/-- The states of a serial lane (R408 to R411): what each request does in each state, the end of an entry, readiness, signal and its loss. The
clauses for a lane that leaves ACTIVE are for one that no SyncE reference listens to; what such a reference does is said of that reference. -/
def Obligations.LaneStates : Prop :=
  ∀ (n : LaneId) (s : State), let l := laneOf s n.val; let st := laneState s n.val
    let Others := fun (t : State) => ∀ m, m ≠ n.val → laneOf t m = laneOf s m
    let alone := ∀ r ∈ [3, 4], rdB s (kReEnable r) = false ∨ rd s (kReLane r) ≠ n.val
    let L := [Part.obj, .host, .dict, .links, .out]
    (∀ sup : BitVec 16,
      (st = 0 → laneRate s n.val = 0 → Refuses s (.laneReqActive n sup) .state) ∧
      (st = 0 → laneRate s n.val ≠ 0 → laneFenced s n.val = false → Accepts s (.laneReqActive n sup) L fun t => laneState t n.val = 1 ∧
        (laneOf t n.val).due = now s + usToTc 600 ∧ (laneOf t n.val).since = now s ∧ rd t (kLaReqState n.val) = 1 ∧ Others t) ∧
      (st = 1 → Accepts s (.laneReqActive n sup) L fun t => laneState t n.val = 1 ∧ laneOf t n.val = { l with held := none } ∧
        rd t (kLaReqState n.val) = 1 ∧ Others t) ∧
      (st = 2 → Accepts s (.laneReqActive n sup) L fun t => laneState t n.val = 2 ∧ rd t (kLaReqState n.val) = 1 ∧ t.links = s.links) ∧
      (st = 4 → Accepts s (.laneReqActive n sup) L fun t => laneState t n.val = 1 ∧ (laneOf t n.val).due = now s + usToTc 1 ∧
        (laneOf t n.val).from_ = 4 ∧ Others t) ∧
      (st = 5 → Accepts s (.laneReqActive n sup) L fun t => laneState t n.val = 1 ∧ (laneOf t n.val).due = now s + msToTc 2 ∧
        (laneOf t n.val).from_ = 5 ∧ Others t) ∧
      (st = 3 → l.target = 4 → Accepts s (.laneReqActive n sup) L fun t => laneState t n.val = 1 ∧ (laneOf t n.val).held = none ∧
        Counts 64 (kLaLaneStats n.val 8) 1 s t ∧ Others t) ∧
      (st = 3 → l.target = 5 → l.since + nsToTc 10100 ≤ now s → Accepts s (.laneReqActive n sup) L fun t =>
        laneState t n.val = 3 ∧ laneOf t n.val = { l with held := some 1 } ∧ Others t)) ∧
    (laneBound s n.val = true → Refuses s (.laneReqStandby n) .state ∧ Refuses s (.laneReqDisabled n) .state ∧
      ∀ sup, Refuses s (.laneReqDeep n sup) .state) ∧
    (laneBound s n.val = false →
      (st = 0 ∨ st = 5 → Refuses s (.laneReqStandby n) .state) ∧
      (st = 1 → Accepts s (.laneReqStandby n) L fun t => laneState t n.val = 1 ∧ laneOf t n.val = { l with held := some 2 } ∧ Others t) ∧
      (st = 2 → alone → Accepts s (.laneReqStandby n) L fun t => laneState t n.val = 3 ∧ (laneOf t n.val).target = 4 ∧
        (laneOf t n.val).due = now s + nsToTc 50 ∧ rd t (kLaReqState n.val) = 2 ∧ Others t) ∧
      (∀ sup, (st = 0 → Refuses s (.laneReqDeep n sup) .state) ∧
        (st = 2 ∨ st = 4 → alone → Accepts s (.laneReqDeep n sup) L fun t => laneState t n.val = 3 ∧ (laneOf t n.val).target = 5 ∧
          (laneOf t n.val).due = now s + usToTc 12 ∧ (laneOf t n.val).lastCapture = now s ∧ rd t (kLaReqState n.val) = 3 ∧ Others t)) ∧
      (alone → st ≠ 0 → Accepts s (.laneReqDisabled n) L fun t => laneState t n.val = 0 ∧ rd t (kLaReqState n.val) = 0 ∧
        fld (rd t (kLaLinkFlags n.val)) 0 4 = 0 ∧ rd t (kLaAmLocked n.val) = 0 ∧ (laneOf t n.val).held = none ∧
        (laneOf t n.val).recentring = (if st = 2 then none else l.recentring) ∧ Others t) ∧
      (st ≠ 0 → exec (.laneReqDisabled n) s = .next (send (.reply 0) (wr (kLaReqState n.val) 0 (laneOff n.val s))))) ∧
    (∀ sup, (¬(st = 3 ∧ l.due ≤ now s) → Idles s (.laneEntryDone n sup)) ∧
      (st = 3 → l.due ≤ now s → l.held = none → l.target = 4 ∨ l.target = 5 → Gives s (.laneEntryDone n sup) L fun t =>
        laneState t n.val = l.target ∧ Counts 64 (kLaLaneStats n.val (if l.target = 5 then 7 else 6)) 1 s t ∧
          bitAt (rd t (kLaLinkFlags n.val)) 1 = false ∧ Others t) ∧
      (¬(st = 1 ∧ bitAt (rd s (kLaLinkFlags n.val)) 0 = true ∧ l.due ≤ now s) → Idles s (.laneReady n sup)) ∧
      (st = 1 → bitAt (rd s (kLaLinkFlags n.val)) 0 = true → l.due ≤ now s → l.held = none →
        Gives s (.laneReady n sup) (.boot :: L) fun t => laneState t n.val = 2 ∧ bitAt (rd t (kLaLinkFlags n.val)) 1 = true ∧
          (laneOf t n.val).since = now s ∧ Others t ∧ inFlow t 4 n.val = false)) ∧
    (1 ≤ st → st ≤ 4 → bitAt (rd s (kLaLinkFlags n.val)) 0 = false → Gives s (.laneSignalDetect n) [.obj, .links] fun t =>
      bitAt (rd t (kLaLinkFlags n.val)) 0 = true ∧ Keeps [kLaLinkFlags n.val] s t ∧ Others t) ∧
    (∀ unlock : Bool, (st = 0 ∨ st = 5 → Idles s (.laneLos n unlock)) ∧
      (st = 2 → alone → Gives s (.laneLos n unlock) L fun t => laneState t n.val = 1 ∧ bitAt (rd t (kLaLinkFlags n.val)) 1 = false ∧
        (unlock = false → bitAt (rd t (kLaLinkFlags n.val)) 0 = false) ∧ Counts 64 (kLaLaneStats n.val (if unlock then 1 else 0)) 1 s t ∧
        (laneOf t n.val).from_ = 2 ∧ Others t) ∧
      (st = 1 ∨ st = 3 ∨ st = 4 → Gives s (.laneLos n unlock) [.obj] fun t => bitAt (rd t (kLaLinkFlags n.val)) 1 = false ∧
        Keeps [kLaLinkFlags n.val] s t))

/-- Fronthaul ports and their streams (R84, R418 to R420, R426 to R428): modes, going UP and DOWN, binding and unbinding of AxC. -/
def Obligations.PortObjects : Prop :=
  (∀ (p : PortId) (v : Byte) (s : State), let n := p.val; let m := v.toNat; let new := modeTakes n m; let old := portLanes s n
    let free := portBound s n = false ∧ ∀ x ∈ old ++ new, x < 64 → laneState s x = 0
    let ok := m ≤ 7 ∧ portState s n ≠ 2 ∧ n % modeLanes m = 0 ∧
      ∀ x ∈ new, modeRateOk m (laneRate s x) = true ∧ ∀ q, portOfLane s x = some q → q = n
    let Taken := fun (events : List Nat) (t : State) => portMode t n = m ∧ portState t n = 0 ∧
      (∀ x ∈ new.drop 1, portState t x = 2) ∧ (∀ x ∈ old.drop 1, x ∉ new → portState t x = 0) ∧
        Keeps (events ++ kPoMode n :: (n :: old ++ new).map kPoState) s t
    (¬free → Refuses s (.portMode p v) .state) ∧ (free → ¬ok → Refuses s (.portMode p v) .range) ∧
    (free → ok → portState s n ≠ 1 ∨ laneCauses s n = 0 → Accepts s (.portMode p v) [.obj, .out] (Taken [])) ∧
    (free → ok → Accepts s (.portMode p v) [.obj, .host, .dict, .out] (Taken [kDiDispatchStats 9]))) ∧
  (∀ (p : PortId) (rtd : BitVec 32) (s : State),
    let due := portMode s p.val ≠ 0 ∧ portState s p.val = 0 ∧ laneCauses s p.val = 0
    (¬due → Idles s (.portUp p rtd)) ∧
    (due → Gives s (.portUp p rtd) [.obj, .host, .dict, .radio, .out] fun t => portState t p.val = 1 ∧
      (portMode s p.val = 1 → rd t (kPoCpriRtd p.val) = rtd.toNat) ∧ (portMode s p.val ≠ 1 → t.radio = s.radio))) ∧
  (∀ (p : PortId) (lost : BitVec 6) (s : State), let due := portState s p.val = 1 ∧ ((lost.toNat &&& 58) ||| laneCauses s p.val) ≠ 0
    (¬due → Idles s (.portDown p lost)) ∧
    (due → Gives s (.portDown p lost) [.obj, .host, .dict, .radio, .out] fun t => portState t p.val = 0 ∧ portMode t p.val = portMode s p.val)) ∧
  (∀ (p : PortId) (x : BitVec 256) (s : State), let d := x.toNat
    (axcFieldsOk d = false ∨ axcAllowed s p.val d = false → Refuses s (.axcBind p x) .range) ∧
    (axcFieldsOk d = true → axcAllowed s p.val d = true → Accepts s (.axcBind p x) [.work, .radio, .links, .out] fun t =>
      axcDesc t (aNum d) = d ∧ (∀ a, a ≠ aNum d → axcDesc t a = axcDesc s a) ∧ tfind (aNum d) t.links.streams = none ∧
        tget t.work.ciHome (axcCi d) 4 = (tfind (axcCi d) s.work.ciHome).getD (p.val / 16) ∧
          ∀ c, c ≠ axcCi d → tfind c t.work.ciHome = tfind c s.work.ciHome)) ∧
  (∀ (p : PortId) (x : BitVec 16) (s : State), let a := x.toNat; let mine := a ≤ 1023 ∧ axcBound s a = true ∧ axcLane s a = p.val
    (¬mine → Refuses s (.axcUnbind p x) .range) ∧ (mine → axcInUse s a = true → Refuses s (.axcUnbind p x) .state) ∧
    (mine → axcInUse s a = false → Accepts s (.axcUnbind p x) [.radio, .links, .out] fun t => axcBound t a = false ∧
      (∀ b, b ≠ a → axcDesc t b = axcDesc s b) ∧ tfind a t.links.streams = none))

/-- What a fronthaul port receives (R420, R422, R424, R425, R430 to R435, R439, R442). The layouts that the manual takes from other
standards are PRESUMED from them (log 13). -/
def Obligations.PortReception : Prop :=
  (∀ (p : PortId) (f : List Byte) (cor bad : BitVec 32) (s : State), let n := p.val; let k := kPoPortStats n
    (portMode s n < 2 ∨ portState s n ≠ 1 → Idles s (.ethFrameRx p f cor bad)) ∧
    (2 ≤ portMode s n → portState s n = 1 →
      let base := fun (t : State) => Counts 64 (k 0) 1 s t ∧ Counts 64 (k 13) cor.toNat s t ∧ Counts 64 (k 14) bad.toNat s t
      (f.length < 14 ∨ slice f 0 6 ≠ toBytes 6 (rd s (kPoMacAddr n)) → Gives s (.ethFrameRx p f cor bad) [.obj] fun t => base t ∧
        Counts 64 (k 9) 1 s t ∧ Keeps [k 0, k 9, k 13, k 14] s t) ∧
      (14 ≤ f.length → slice f 0 6 = toBytes 6 (rd s (kPoMacAddr n)) →
        (beAt f 12 2 = 0x8100 → rd s (kPoVlanId n) ≠ 0xFFFF → rd s (kPoVlanId n) ≠ beAt f 14 2 % 4096 →
          Gives s (.ethFrameRx p f cor bad) [.obj] fun t => base t ∧ Counts 64 (k 9) 1 s t ∧ Keeps [k 0, k 9, k 13, k 14] s t) ∧
        (beAt f 12 2 = 0x8809 → beAt f 14 1 = 0x0A → Gives s (.ethFrameRx p f cor bad) [.obj, .tim, .host, .dict, .out] fun t => base t ∧
          rd t (kPoSsmRx n) = beAt f 27 1 % 16 ∧
          (8 ≤ selected s → t.tim = s.tim ∧ t.host = s.host ∧ t.dict = s.dict ∧ t.out = s.out)) ∧
        (beAt f 12 2 = 0xAEFE → rd s (kPoEncap n) = 0 → ∀ m, ecpriSplit (f.length - 13) (f.drop 14) = some [m] → beAt m 1 1 = 0 →
          beAt m 7 1 = 0x80 → Gives s (.ethFrameRx p f cor bad) [.obj, .links] fun t => base t ∧
            (∃ kind, t.links.msgs = s.links.msgs ++ [{ port := n, kind := kind, arrival := now s, body := m }] ∧
              (kind = 1 ↔ ∃ e, axcOfRx s n (beAt m 4 2) = some e ∧ aForm e.2 = 1)) ∧
            tfind (seqKey n 0 (beAt m 4 2)) t.links.seqRx = some (beAt m 6 1) ∧
            ∀ last, tfind (seqKey n 0 (beAt m 4 2)) s.links.seqRx = some last →
              if beAt m 6 1 = (last + 1) % 256 then rd t (k 8) = rd s (k 8) else Counts 64 (k 8) 1 s t)))) ∧
  (∀ (p : PortId) (s : State), takePortMsg p.val 0 (fun _ => true) s = none → Idles s (.uplaneMessage p)) ∧
  (∀ (p : PortId) (s s1 : State) (m : PortMsg), takePortMsg p.val 0 (fun _ => true) s = some (m, s1) → let k := kPoPortStats p.val
    (axcOfRx s p.val (beAt m.body 4 2) = none → let hd := m.body.drop 8
      let i := if 4 ≤ hd.length ∧ beAt hd 0 1 = 16 then 3 else 7
      Gives s (.uplaneMessage p) [.obj, .links] fun t => Counts 64 (k i) 1 s t ∧ Keeps [k i] s t ∧ t.links = s1.links) ∧
    ∀ (axc d b i : Nat) (g : Graph) (y : USection) (h : Home) (ofs : Nat), axcOfRx s p.val (beAt m.body 4 2) = some (axc, d) →
      let hd := m.body.drop 8
      let x := beAt hd 2 2
      let prb := decodePrb (rd s (kPoCompMethod p.val)) (rd s (kPoCompMant p.val)) (slice y.data 0 (prbBytes (rd s (kPoCompMethod p.val)) (rd s (kPoCompMant p.val))))
      4 ≤ hd.length → beAt hd 0 1 = 16 → usections (rd s (kPoCompMethod p.val)) (rd s (kPoCompMant p.val)) (rdB s (kPoCompHdr p.val))
        (ciSubcarriers (ciDesc s (axcCi d)) true / 12) 16 (fld x 0 6) (hd.drop 4) = some [y] → y.ok = true → y.start = i → y.count = 1 →
      rxBuffers s axc 0 y.sym (fun g => g.ci == axcCi d && graphSfn s g % 256 == beAt hd 1 1 && graphSlotId s g == (fld x 12 4, fld x 6 6)) = [(g, b)] →
      m.arrival + nsToTc 500 ≤ rxClose s g.ci g.air g.slot 0 axc y.sym → i < fhPrbs s g (bufD g b) axc → graphOf s g.id = some g → g.cleared.contains b = true →
      tfind b g.homes = some h → fhOffset s g (bufD g b) axc y.sym = some ofs → Memory.wf s.mem = true →
      Gives s (.uplaneMessage p) [.obj, .work, .links, .dram, .sram, .mem] fun t => Counts 64 (k 1) 1 s t ∧
        load t (h.addr + (ofs + 48 * i)) (prb.1.flatMap (toBytes 4)).length = prb.1.flatMap (toBytes 4) ∧
        MemKeeps (h.addr + (ofs + 48 * i)) (prb.1.flatMap (toBytes 4)).length s t ∧
        (graphOf t g.id).map (fun x => (tget x.rx b {}).covered.contains (axc, y.sym, i)) = some true) ∧
  (∀ (p : PortId) (s : State), takePortMsg p.val 1 (fun _ => true) s = none → Idles s (.timeDomainMessage p)) ∧
  (∀ (p : PortId) (s s1 : State) (m : PortMsg), takePortMsg p.val 1 (fun _ => true) s = some (m, s1) → let k := kPoPortStats p.val
    (axcOfRx s p.val (beAt m.body 4 2) = none → Gives s (.timeDomainMessage p) [.obj, .links] fun t => Counts 64 (k 3) 1 s t ∧ t.links = s1.links) ∧
    ∀ axc d st, axcOfRx s p.val (beAt m.body 4 2) = some (axc, d) → let hd := m.body.drop 8; let n := (hd.length - 8) / 4
      let idx := beAt hd 0 2 * frameSamples (aRate d) + beAt hd 2 4
      let M := streamMod (aRate (axcDesc s axc))
      let l := (upto n).map fun i => beAt hd (8 + 4 * i) 2 + 65536 * beAt hd (10 + 4 * i) 2
      (hd.length < 8 ∨ hd.length % 4 ≠ 0 ∨ 1024 ≤ beAt hd 0 2 ∨ frameSamples (aRate d) ≤ beAt hd 2 4 →
        Gives s (.timeDomainMessage p) [.obj, .links] fun t => Counts 64 (k 7) 1 s t ∧ t.links = s1.links) ∧
      (8 ≤ hd.length → hd.length % 4 = 0 → beAt hd 0 2 < 1024 → beAt hd 2 4 < frameSamples (aRate d) → tfind axc s.links.streams = some st →
        (idx + M - st.next) % M = 0 → Gives s (.timeDomainMessage p) [.links] fun t => ∃ u, tfind axc t.links.streams = some u ∧
          u.next = (st.next + n) % M ∧ u.samples = (st.samples ++ l).drop ((st.samples ++ l).length - streamKeep (aRate (axcDesc s axc))))) ∧
  (∀ (p : PortId) (bfn : BitVec 12) (hfn : Fin 150) (x : Fin 256) (l : List Byte) (s : State),
    (portMode s p.val ≠ 1 ∨ portState s p.val ≠ 1 → Idles s (.basicFrame p bfn hfn x l)) ∧
    ∀ a, portMode s p.val = 1 → portState s p.val = 1 → cpriAxcs s p.val = [a] → tfind a s.links.streams = none →
      Gives s (.basicFrame p bfn hfn x l) [.links] fun t => let d := axcDesc s a; let w := aWidth d; ∃ u, tfind a t.links.streams = some u ∧
        u.base = (bfn.toNat % 1024) * frameSamples (aRate d) + (256 * hfn.val + x.val) * 2 ^ aRate d ∧ u.samples.length = 2 ^ aRate d ∧
        ∀ i < 2 ^ aRate d, u.samples.getD i 0 =
          bitsAt l (aPos d + 2 * w * i) w * 2 ^ (16 - w) + 65536 * (bitsAt l (aPos d + 2 * w * i + w) w * 2 ^ (16 - w)))

/-- The windows of a port, the control plane, delay measurement and ESMC (R423, R432, R433, R436, R437, R442, R443). Message layouts are
PRESUMED from the standards the manual names (log 13); an ESMC frame carries a quality level that the manual leaves open. -/
def Obligations.PortTransmission : Prop :=
  (∀ (ci : CiId) (air : BitVec 64) (sec : Fin 2) (axc : AxcId) (k : Fin 14) (s : State),
    let l := (rxBuffers s axc.val sec.val k.val fun g => g.ci == ci.val && g.air == air.toNat).filter fun w =>
      !(tget w.1.rx w.2 {}).closed.contains (16 * axc.val + k.val)
    (l = [] → Idles s (.rxWindowClose ci air sec axc k)) ∧
    ∀ g b, l = [(g, b)] → (now s < rxClose s ci.val air.toNat g.slot sec.val axc.val k.val → Idles s (.rxWindowClose ci air sec axc k)) ∧
      (rxClose s ci.val air.toNat g.slot sec.val axc.val k.val ≤ now s → graphOf s g.id = some g → ∃ u,
        exec (.rxWindowClose ci air sec axc k) s = .next (finishGraphs (wake u)) ∧
        (graphOf u g.id).map (fun x => (tget x.rx b {}).closed.contains (16 * axc.val + k.val)) = some true ∧
        (aForm (axcDesc s axc.val) = 0 → Counts 64 (kPoPortStats (axcLane s axc.val) 5)
          ((upto (fhPrbs s g (bufD g b) axc.val)).filter fun i => !(tget g.rx b {}).covered.contains (axc.val, k.val, i)).length s u))) ∧
  (∀ (gid b : Nat) (axc : AxcId) (k : Fin 14) (s : State), (txDue s gid b axc.val k.val = none →
      Idles s (.txWindowOpen gid b axc k) ∧ Idles s (.txWindowClose gid b axc k)) ∧
    ∀ g, txDue s gid b axc.val k.val = some g → let a := axc.val; let p := axcLane s a; let f := aForm (axcDesc s a)
      let up := axcBound s a = true ∧ axcCi (axcDesc s a) = g.ci ∧ portState s p = 1
      let open_ := txOpen s g.ci g.air g.slot a k.val
      let limit := txClose s g.ci g.air g.slot a k.val - nsToTc 2000
      (¬up → Idles s (.txWindowOpen gid b axc k)) ∧
      (f ≠ 2 → now s < open_ ∨ producedBy g b limit = false → Idles s (.txWindowOpen gid b axc k)) ∧
      (f ≠ 2 → up → open_ ≤ now s → producedBy g b limit = true → exec (.txWindowOpen gid b axc k) s = .next (txMark g.id b a k.val
        (if f = 0 then sendSections p g b a k.val (txFault g b a k.val s) else sendSamples p g b a k.val (txFault g b a k.val s)))) ∧
      (f = 2 → up → open_ ≤ now s + nsToTc 2000 → producedBy g b (open_ - nsToTc 2000) = true → Gives s (.txWindowOpen gid b axc k)
        [.obj, .host, .dict, .work, .sram, .out] fun t => ∃ l, t.out.getLast? = some (.portFrame p 7 (beBytes 2 a ++ l))) ∧
      (f = 2 → up → open_ ≤ now s + nsToTc 2000 → producedBy g b (open_ - nsToTc 2000) = false →
        exec (.txWindowOpen gid b axc k) s = .next (txSkip g b a k.val (sendContainers p g b a k.val true s))) ∧
      (limit ≤ now s → producedBy g b limit = false ∨ portState s p ≠ 1 ∨ axcBound s a = false → Gives s (.txWindowClose gid b axc k)
        [.obj, .host, .work, .out] fun t => Counts 64 (kPoPortStats p 11) 1 s t ∧
          ∀ x, graphOf s gid = some x → (graphOf t gid).map (fun y => y.tx.contains (b, 16 * a + k.val)) = some true) ∧
      (now s < limit ∨ (producedBy g b limit = true ∧ portState s p = 1 ∧ axcBound s a = true) → Idles s (.txWindowClose gid b axc k))) ∧
  (∀ (gid b : Nat) (axc : AxcId) (k : Fin 14) (s : State) (g : Graph), graphOf s gid = some g → let bd := bufD g b; let a := axc.val
    let p := axcLane s a
    let ref := if bd.kind = 4 then txOpen s g.ci g.air g.slot a k.val else rxSymStart (ciDesc s g.ci) g.air g.slot k.val
    (g.cancelled = true ∨ g.stale = true ∨ portState s p ≠ 1 ∨ g.cplane.contains (b, 16 * a + k.val) = true → Idles s (.cplaneSend gid b axc k)) ∧
    (g.st = .placed ∨ g.st = .running → g.cancelled = false → g.stale = false → bd.kind = 3 ∨ bd.kind = 4 → (axcsOf bd).contains a = true →
      bd.secClass ≠ 1 → bitAt bd.symMask k.val = true → k.val = 0 ∨ bitAt bd.symMask (k.val - 1) = false → axcBound s a = true →
      aForm (axcDesc s a) = 0 → portState s p = 1 → g.cplane.contains (b, 16 * a + k.val) = false → ref ≤ now s + nsToTc (rd s (kPoCpAdvMax p)) →
      Gives s (.cplaneSend gid b axc k) [.obj, .work, .links, .out, .freeCtr] fun t =>
        (graphOf t gid).map (·.cplane) = some ((b, 16 * a + k.val) :: g.cplane) ∧ t.out.length = s.out.length + 1 ∧
        if ref < now s + nsToTc (rd s (kPoCpAdvMin p)) then Counts 64 (kPoPortStats p 12) 1 s t else t.obj = s.obj)) ∧
  (∀ (p : PortId) (s : State), let n := p.val
    let Sent := fun (action id : Nat) (time : List Byte) (comp : Nat) => Output.portFrame n 5 (ethFrame s n 0xAEFE
      (ecpriHead 5 20 ++ beBytes 1 id ++ beBytes 1 action ++ time ++ beBytes 8 comp))
    (∀ i l, (i, l) ∈ [(Instr.owdmRequest p, [0]), (.owdmRequestFollowUp p, [1]), (.owdmFollowUp p, [5]), (.owdmRemoteRequest p, [3, 4]),
        (.owdmResponse p, [2])] → takePortMsg n 2 (fun b => l.contains (beAt b 5 1)) s = none → Idles s i) ∧
    (rd s (kPoEncap n) = 0 → ∀ m s1,
      (takePortMsg n 2 (fun b => [0].contains (beAt b 5 1)) s = some (m, s1) → exec (.owdmRequest p) s =
        .next { s1 with out := s.out ++ [Sent 2 (owdmId m.body) (owdmTime m.arrival) (portComp n)] }) ∧
      (takePortMsg n 2 (fun b => [1].contains (beAt b 5 1)) s = some (m, s1) → Gives s (.owdmRequestFollowUp p) [.links] fun t =>
        tfind (256 * n + owdmId m.body) t.links.owdmIn = some (m.body, m.arrival) ∧ t.links.msgs = s1.links.msgs) ∧
      (takePortMsg n 2 (fun b => [5].contains (beAt b 5 1)) s = some (m, s1) → ∀ r, tfind (256 * n + owdmId m.body) s.links.owdmIn = some r →
        Gives s (.owdmFollowUp p) [.links, .out] fun t => tfind (256 * n + owdmId m.body) t.links.owdmIn = none ∧
          t.out = s.out ++ [Sent 2 (owdmId m.body) (owdmTime r.2) (portComp n)]) ∧
      (takePortMsg n 2 (fun b => [3, 4].contains (beAt b 5 1)) s = some (m, s1) → Gives s (.owdmRemoteRequest p) [.links, .out] fun t =>
        t.out = s.out ++ if beAt m.body 5 1 = 4 then [Sent 1 (owdmId m.body) (List.replicate 10 0) 0, Sent 5 (owdmId m.body) (owdmTime (now s)) (portComp n)]
          else [Sent 0 (owdmId m.body) (owdmTime (now s)) (portComp n)]) ∧
      (takePortMsg n 2 (fun b => [2].contains (beAt b 5 1)) s = some (m, s1) → ∀ t0, tfind n s.links.owdmOut = some (owdmId m.body, t0) →
        Gives s (.owdmResponse p) [.obj, .links] fun t => tfind n t.links.owdmOut = none ∧ Keeps [kPoOwdmResult n] s t ∧
          rd t (kPoOwdmResult n) = ofInt 64 (owdmNs (m.body.drop 6) - owdmNs (owdmTime t0) -
            (toInt 64 (beAt m.body 16 8) + toInt 64 (portComp n)) / 65536)) ∧
      ∀ id : Byte, 2 ≤ portMode s n → portState s n = 1 → Accepts s (.owdmStart p id) [.links, .out] fun t =>
        tfind n t.links.owdmOut = some (id.toNat, now s) ∧ t.out = s.out ++
          [Sent 1 id.toNat (List.replicate 10 0) 0, Sent 5 id.toNat (owdmTime (now s)) (portComp n), .reply 0]) ∧
    (∀ id : Byte, portMode s n < 2 ∨ portState s n ≠ 1 → exec (.owdmStart p id) s = .next (send (.reply 0) s)) ∧
    (rdB s (kPoEsmcTx n) = false ∨ portMode s n < 2 ∨ portState s n ≠ 1 → Idles s (.esmcInterval p)) ∧
    (rdB s (kPoEsmcTx n) = true → 2 ≤ portMode s n → portState s n = 1 → Gives s (.esmcInterval p) [.out, .freeCtr] fun t =>
      ∃ l, t.out = s.out ++ [.portFrame n 6 (ethFrame s n 0x8809 l)] ∧ l.headD 0 = 0x0A))

/-- The device time and what corrects it, pulses of the references, SW_FREQ, the TDD pattern, CI descriptors and served time (R446, R450,
R451, R454, R461, R462, R465, R467, R468). The loop filter's value is free, and the bytes of a PTP message are the model's (log 9, 13). -/
def Obligations.TimeCorrections : Prop :=
  let Moved := fun (v : Int) (s t : State) => BitVec.ofNat 64 t.tim.dtc = BitVec.ofNat 64 s.tim.dtc + BitVec.ofInt 64 v
  let Quality := fun (s t : State) => bitAt (rd t kTiTimeQuality) 19 = decide (slewRemain t ≠ 0) ∧
    t.tim = { s.tim with dtc := t.tim.dtc, u0 := t.tim.u0, lockTime := t.tim.lockTime, afterSleep := t.tim.afterSleep }
  (∀ (v : BitVec 64) (s : State),
    (anyCiActive s = true → Accepts s (.dtcAdjust v) [.obj, .tim, .out] fun t => Keeps [kTiSlewRemain, kTiClassNow, kTiTimeQuality] s t ∧
      Quality s t ∧ t.tim.dtc = s.tim.dtc ∧
      BitVec.ofNat 64 (rd t kTiSlewRemain) = BitVec.ofNat 64 (rd s kTiSlewRemain) + v) ∧
    (anyCiActive s = false → Accepts s (.dtcAdjust v) [.obj, .tim, .out] fun t => Moved v.toInt s t ∧ Keeps [kTiClassNow, kTiTimeQuality] s t ∧
      Quality s t)) ∧
  (∀ s : State,
    (slewRemain s = 0 → Idles s .slewDone) ∧
    (slewRemain s ≠ 0 → anyCiActive s = false → Gives s .slewDone [.obj, .tim] fun t => rd t kTiSlewRemain = 0 ∧
      Keeps [kTiSlewRemain, kTiClassNow, kTiTimeQuality] s t ∧ bitAt (rd t kTiTimeQuality) 19 = false ∧ Moved (slewRemain s) s t) ∧
    (slewRemain s ≠ 0 → anyCiActive s = true → coreOn s = true → s.tim.slewAcc < 50000 → Gives s .slewDone [.obj, .tim] fun t =>
      let n := 50000 * (slewRemain s).natAbs - s.tim.slewAcc
      rd t kTiSlewRemain = 0 ∧ Keeps [kTiSlewRemain, kTiTimeQuality] s t ∧ bitAt (rd t kTiTimeQuality) 19 = false ∧ Moved (2 * (n : Int) + slewRemain s) s t ∧
        BitVec.ofNat 64 t.tim.uptime = BitVec.ofNat 64 s.tim.uptime + BitVec.ofNat 64 (2 * n))) ∧
  (∀ (sec : BitVec 40) (ok : Bool) (s : State),
    let off : Int := ((sec.toNat : Int) + rdI s kTiUtcOffset 16 - ((now s / 1966080000 + 1 : Nat) : Int)) * 1966080000
    (rdB s (kReEnable 0) = false → Idles s (.todSentence sec ok)) ∧
    (rdB s (kReEnable 0) = true → ok = false → exec (.todSentence sec ok) s = exec (.refActivityLoss 0) s) ∧
    (ok = true → selected s ≠ 0 ∨ off = 0 → Idles s (.todSentence sec ok)) ∧
    (ok = true → rdB s (kReEnable 0) = true → selected s = 0 → off ≠ 0 → Gives s (.todSentence sec ok) [.obj, .tim, .host, .dict, .out]
      fun t => Counts 64 (kTiTimingStats (if anyCiActive s then 3 else 2)) 1 s t ∧
        if anyCiActive s then t.tim.dtc = s.tim.dtc ∧ BitVec.ofNat 64 (rd t kTiSlewRemain) = BitVec.ofNat 64 (rd s kTiSlewRemain) + BitVec.ofInt 64 off
        else Moved off s t ∧ rd t kTiSlewRemain = rd s kTiSlewRemain)) ∧
  (∀ (r : RefId) (raw : BitVec 64) (s : State), let due := refIsPhase r.val = true ∧ rdB s (kReEnable r.val) = true
    let err : Int := raw.toInt + 1000 * rdI s (kReRefDelay r.val) 32
    (¬due → Idles s (.refPulse r raw)) ∧
    (due → selected s ≠ r.val → Gives s (.refPulse r raw) [.obj] fun t => refActive t r.val = true ∧ Keeps [kReFlags r.val] s t) ∧
    (due → selected s = r.val → s.tim.measure = none → Gives s (.refPulse r raw) [.obj, .freeCtr] fun t => refActive t r.val = true ∧
      rd t kTiPhaseErr = ofInt 64 (err - slewRemain s * 3125000 / 6144) ∧ Keeps [kReFlags r.val, kTiPhaseErr, kTiCv] s t ∧
        if rd s kTiState = 1 ∨ rd s kTiState = 2 then -50000000 ≤ rdI t kTiCv 32 ∧ rdI t kTiCv 32 ≤ 50000000 else rd t kTiCv = rd s kTiCv) ∧
    (due → selected s = r.val → s.tim.measure ≠ none → Gives s (.refPulse r raw) [.obj, .tim, .host, .dict, .out] fun t =>
      refActive t r.val = true ∧ t.tim.measure = none ∧ Counts 64 (kTiTimingStats (if anyCiActive s then 3 else 2)) 1 s t ∧
        if anyCiActive s then rd t kTiSlewRemain = ofInt 64 (psToTc err) ∧ t.tim.dtc = s.tim.dtc
        else Moved (psToTc err - slewRemain s) s t ∧ rd t kTiSlewRemain = rd s kTiSlewRemain)) ∧
  (∀ (v : Word) (s : State), let soft := rd s kTiState = 4
    let far := v.toInt < -50000000 ∨ 50000000 < v.toInt ∨ (soft ∧ anyCiActive s = true ∧ 1000000 < (v.toInt - rdI s kTiCv 32).natAbs)
    (far → Refuses s (.swFreq v) .range) ∧
    (¬far → Accepts s (.swFreq v) [.obj, .out] fun t => rd t kTiSwFreq = v.toNat ∧ Keeps [kTiSwFreq, kTiCv] s t ∧
      rd t kTiCv = if soft then v.toNat else rd s kTiCv)) ∧
  (∀ s : State, Gives s .tddPatternApply [.tim] fun t => t.tim.tdd.period = rd s kTiTddPeriod ∧ t.tim.tdd.mu = rd s kTiTddMu ∧
    t.tim.tdd.mask = rd s kTiTddMask ∧ t.tim.tdd.adv = rdI s kTiTddAdv 32 ∧ t.tim = { s.tim with tdd := t.tim.tdd }) ∧
  (∀ (c : CiId) (d : BitVec 128) (s : State), let x := d.toNat; let free := tfind c.val s.work.ciOwner = none
    let ok := ciReservedOk x = true ∧ (bitAt x 3 = true → ciFieldsOk x = true)
    (¬free → Refuses s (.ciConfig c d) .state) ∧ (free → ¬ok → Refuses s (.ciConfig c d) .range) ∧
    (free → ok → Accepts s (.ciConfig c d) [.obj, .out] fun t => rd t (kCiCiConfig c.val) = x ∧ Keeps [kCiCiConfig c.val] s t)) ∧
  (∀ (p : PortId) (m : BitVec 4) (s : State), let n := p.val
    let head := toBytes 1 m.toNat ++ toBytes 1 (rd s kTiPtpDomain) ++ (toBytes 2 s.tim.ptpSeq).reverse ++ toBytes 1 (rd s kTiClassNow)
    let time := (toBytes 6 ((315964819 + now s / 1966080000) % 2 ^ 48)).reverse ++ (toBytes 4 (now s % 1966080000 * 3125 / 6144)).reverse
    let serves := bitAt (rd s kTiPtpTxMask) n = true ∧ rd s kTiPtpPort ≠ n ∧ rd s (kPoPtpStep n) ≠ 0 ∧ portState s n = 1
    (¬serves → Idles s (.ptpMessageTx p m)) ∧
    (serves → Gives s (.ptpMessageTx p m) [.tim, .out] fun t => t.tim = { s.tim with ptpSeq := wrapAdd 16 s.tim.ptpSeq 1 } ∧
      t.out = s.out ++ if rd s (kPoPtpStep n) = 1 then [.portFrame n 0 (head ++ time)] else [.portFrame n 0 head, .portFrame n 1 (head ++ time)]))

/-- The references, their states second by second, selection and the states of the loop (R455 to R457, R459, R460, R463, R464; Table
13-3). -/
def Obligations.TimingReferences : Prop :=
  let parts := [Part.obj, .tim, .host, .dict, .out]
  (∀ (r : RefId) (s : State), Gives s (.refActivityLoss r) parts fun t => refActive t r.val = false ∧ selected t ≠ r.val ∧
    refState t r.val = (if refState s r.val = 2 ∨ refState s r.val = 3 ∨ refState s r.val = 4 then 1 else refState s r.val) ∧
      ∀ q, q ≠ r.val → q < 8 → refState t q = refState s q ∧ rd t (kReFlags q) = rd s (kReFlags q)) ∧
  (∀ (xs : List (RefId × BitVec 32)) (f : BitVec 64) (s : State), Gives s (.refSecondUpdate xs f) (.freeCtr :: parts) fun t =>
    (∀ e ∈ xs, (xs.filter fun y => y.1 == e.1).length = 1 → rdB s (kReEnable e.1.val) = true → rd t (kReX e.1.val) = e.2.toNat ∧
      refActive t e.1.val = true ∧ (othersQualified s e.1.val = [] → rd t (kReD e.1.val) = e.2.toNat)) ∧
    (∀ r < 8, (∀ e ∈ xs, e.1.val ≠ r) → rd t (kReX r) = rd s (kReX r) ∧ rd t (kReD r) = rd s (kReD r) ∧ refActive t r = refActive s r) ∧
    (∀ r < 8, let in_ : Bool := (rdI t (kReD r) 32).natAbs ≤ disq s r; let full := if refState s r = 2 then rd s (kReSoak r) else rd s (kReWtrTime r)
      let good := in_ && refActive t r; let left := rd s (kReTimerRemain r)
      (refState s r = 0 → refState t r = 0) ∧
      (refState s r = 1 → refState t r = if good then (if (refSt s r).everQualified then 3 else 2) else 1) ∧
      (refState s r = 5 → refState t r = if good then 3 else 5) ∧
      ((refState s r = 1 ∨ refState s r = 5) → good = true →
        rd t (kReTimerRemain r) = if refState t r = 2 then rd s (kReSoak r) else rd s (kReWtrTime r)) ∧
      ((refState s r = 2 ∨ refState s r = 3) → if in_ = false then refState t r = refState s r ∧ rd t (kReTimerRemain r) = full
        else if left ≤ 1 then refState t r = 4 ∧ rd t (kReTimerRemain r) = 0 else refState t r = refState s r ∧ rd t (kReTimerRemain r) = left - 1) ∧
      (refState s r = 4 → if in_ = true then refState t r = 4 ∧ (refSt t r).overSecs = 0
        else if rd s (kReSoak r) ≤ (refSt s r).overSecs then refState t r = 5
        else refState t r = 4 ∧ (refSt t r).overSecs = (refSt s r).overSecs + 1)) ∧
    (let best := fun q : Nat => selectable t q = true ∧ ∀ o < 8, selectable t o = true → refKey t q ≤ refKey t o
      let forced := rd s kTiForceRef < 8 ∧ refActive t (rd s kTiForceRef) = true
      (s.boot.oscFallback = true → selected t = 15) ∧
      (s.boot.oscFallback = false → (forced → selected t = rd s kTiForceRef) ∧
        (¬forced → (∀ q < 8, selectable t q = false) → selected t = 15) ∧
        (¬forced → (∃ q < 8, selectable t q = true) → selected t < 8 ∧ selectable t (selected t) = true ∧
          (rdB s kTiRevertive = true ∨ selected t ≠ selected s → best (selected t))))) ∧
    (let n := s.tim.lockSecs + 1; let filt := f.toInt.natAbs
      selected t = selected s → selected s < 8 → s.tim.measure = none → filt ≤ (if refIsPhase (selected s) then 100000 else 1000) →
        rd s kTiState = 1 → if 16 ≤ n then rd t kTiState = 2 else rd t kTiState = 1 ∧ t.tim.lockSecs = n) ∧
    t.tim.cvHist = ((rdI t kTiCv 32, rd t kTiState == 2) :: s.tim.cvHist).take 3600) ∧
  (∀ (r : RefId) (v : Byte) (s : State), let n := r.val
    (1 < v.toNat → Refuses s (.refEnable r v) .range) ∧
    (v = 0 → Accepts s (.refEnable r v) parts fun t => rd t (kReEnable n) = 0 ∧ refState t n = 0 ∧ rd t (kReFlags n) = 0 ∧
      rd t (kReTimerRemain n) = 0 ∧ selected t ≠ n) ∧
    (v = 1 → refState s n = 0 → Accepts s (.refEnable r v) [.obj, .tim, .out] fun t => rd t (kReEnable n) = 1 ∧ refState t n = 1 ∧
      refSt t n = {} ∧ Keeps [kReEnable n, kReState n] s t) ∧
    (v = 1 → refState s n ≠ 0 → Accepts s (.refEnable r v) [.obj, .out] fun t => rd t (kReEnable n) = 1 ∧ Keeps [kReEnable n] s t)) ∧
  (∀ (v : Byte) (s : State), let ok := v.toNat < 8 ∨ v = 0xFF
    (¬ok → Refuses s (.forceRef v) .range) ∧
    (ok → Accepts s (.forceRef v) parts fun t => rd t kTiForceRef = v.toNat ∧
      (s.boot.oscFallback = false → v.toNat < 8 → refActive s v.toNat = true → selected t = v.toNat) ∧
      (s.boot.oscFallback = false → v.toNat = 0xFF ∨ refActive s v.toNat = false → selected s < 8 → selectable s (selected s) = true →
        selected t = selected s))) ∧
  (∀ s : State, Accepts s .loopAutomatic parts fun t => rd t kTiLoopMode = 0 ∧ selected t = selected s ∧
    (rd s kTiState = 3 → selected s < 8 → refIsPhase (selected s) = true → t.tim.measure = some 15) ∧
    rd t kTiState = if rd s kTiState = 3 ∨ rd s kTiState = 4 then (if selected s < 8 then 1 else 3) else rd s kTiState) ∧
  (∀ s : State, Accepts s .loopHoldover parts fun t => rd t kTiLoopMode = 1 ∧ rd t kTiState = 3 ∧ (rd s kTiState ≠ 3 →
    Counts 64 (kTiTimingStats 1) 1 s t ∧ rd t kTiCv = rd t kTiHoCv ∧
      let w := ((s.tim.cvHist.drop (rd s kTiHoGuard)).take (rd s kTiHoWin)).filter (·.2)
      rd t kTiHoCv = if w = [] then rd s kTiHoCv else ofInt 32 ((w.map (·.1)).sum / (w.length : Int)))) ∧
  (∀ s : State, Accepts s .loopSoftware parts fun t => rd t kTiLoopMode = 2 ∧ rd t kTiState = 4 ∧ rd t kTiCv = rd s kTiCv)

/-- Votes, the governor, entries, exits and wakes of the domains, and the battery (R577, R579 to R582, R590, R602). -/
def Obligations.PowerDomains : Prop :=
  let stat := fun (s : State) (d i : Nat) => fld (rd s (kPdPowerStats d)) (64 * i) 64
  let Counted := fun (d : Nat) (s t : State) => ∀ n c, tfind n s.sage.cores = some c → tfind n t.sage.cores =
    some (if n / 9 = d then { c with ticks := c.ticks + (now s - c.since) * rd s (kPdClkNow d), since := now s } else c)
  (∀ (n : TenantId) (x : BitVec 16) (s : State), let d := x.toNat % 256; let k := x.toNat / 256
    let has := (d = 50 ∧ (k = 0 ∨ (6 ≤ k ∧ k ≤ 8))) ∨ (d < 44 ∧ k ≤ 5) ∨ (44 ≤ d ∧ d < 48 ∧ k ≤ 4) ∨ (d = 48 ∧ k ≤ 1) ∨ (d = 49 ∧ k = 0)
    let ok := d ≤ 50 ∧ (k = 0xFF ∨ has)
    (¬ok → Refuses s (.voteSet n x) .range) ∧
    (ok → Accepts s (.voteSet n x) [.pow, .out] fun t => tenantVote t n.val d = k ∧
      ∀ v : Vote, ¬(v.client = .tenant n.val ∧ v.dom = d) → (v ∈ t.pow.votes ↔ v ∈ s.pow.votes))) ∧
  (∀ s : State, (s.pow.waits = [] → Idles s .governorGrant) ∧ ∀ w r, s.pow.waits = w :: r →
    (govAdmits s w.amp = false → Idles s .governorGrant) ∧
    (govAdmits s w.amp = true → w.dom < 50 → Gives s .governorGrant [.obj, .pow, .sage] fun t => t.pow.waits = r ∧
      t.pow.grants.head? = some (now s, w.amp) ∧ rd t kPwGovWaitMax = max (rd s kPwGovWaitMax) (tcToNs (now s - w.time)) ∧
        (∀ k, w.act = .leave k → (domSt t w.dom).trans = .entering k false) ∧ (w.act = .enter → (domSt t w.dom).granted = true) ∧
          ((∀ f, w.act ≠ .notch f) → t.sage = s.sage) ∧ ∀ f, w.act = .notch f → rd t (kPdClkNow w.dom) = f ∧ Counted w.dom s t)) ∧
  (∀ (x : DomId) (s : State), let d := x.val; let k := domTarget s d; let amp : Int := -(stepAmp s d : Int)
    let due := (domSt s d).trans = .none ∧ domState s d < k ∧ domHas d k = true ∧ mayEnter s d k = true
    (¬due → Idles s (.domainEntryStart x)) ∧
    (due → domState s d ≠ 0 ∨ (s.pow.waits = [] ∧ govAdmits s amp = true) → Gives s (.domainEntryStart x) [.pow] fun t =>
      (domSt t d).trans = .entering k false ∧ (∀ o, o ≠ d → domSt t o = domSt s o) ∧ t.pow.waits = s.pow.waits ∧
        (domState s d = 0 → t.pow.grants.head? = some (now s, amp))) ∧
    (due → domState s d = 0 → ¬(s.pow.waits = [] ∧ govAdmits s amp = true) → Gives s (.domainEntryStart x) [.obj, .pow] fun t =>
      (domSt t d).trans = .none ∧ Counts 64 kPwGovWaits 1 s t ∧ Keeps [kPwGovWaits] s t ∧ t.pow.waits.length = s.pow.waits.length + 1 ∧
        { dom := d, amp := amp, time := now s, act := .leave k } ∈ t.pow.waits)) ∧
  (∀ (x : DomId) (s : State), let d := x.val; let c := d - 36; let m := domSt s d
    ((∀ k b, m.trans ≠ .entering k b) → Idles s (.domainEntryDone x)) ∧
    ∀ k b, m.trans = .entering k b → Gives s (.domainEntryDone x) [.obj, .pow, .host, .dict, .out] fun t =>
      domState t d = k ∧ stat t d 0 = (stat s d 0 + 1) % 2 ^ 64 ∧ (domSt t d).since = now s ∧
      (4 ≤ k → tfind d t.pow.saveLists = some true) ∧
      (36 ≤ d → d < 44 → rd t (kDcState c) = if (rd s (kDcState c) = 2 ∨ rd s (kDcState c) = 5) ∧ 2 ≤ k then (if 4 ≤ k then 6 else 5)
        else rd s (kDcState c)) ∧
      (m.wakeLatched = false → (domSt t d).trans = .none ∧ t.out = s.out) ∧
      (m.wakeLatched = true → (domSt t d).trans = .exiting ∧ (domSt t d).wakeLatched = false ∧ stat t d 3 = (stat s d 3 + 1) % 2 ^ 64)) ∧
  (∀ (x : DomId) (clamps : Bool) (s : State), let d := x.val
    ((domSt s d).trans = .exiting ∨ ((domSt s d).trans = .none ∧ domState s d = 0) → Idles s (.domainWake x clamps)) ∧
    ((domSt s d).trans = .none → 0 < domState s d → Gives s (.domainWake x clamps) [.pow] fun t => (domSt t d).trans = .exiting) ∧
    ∀ k past, (domSt s d).trans = .entering k past →
      (2 ≤ k → clamps = true ∨ past = true → Gives s (.domainWake x clamps) [.pow] fun t => (domSt t d).wakeLatched = true ∧
        (domSt t d).trans = .entering k true) ∧
      (k < 2 ∨ (clamps = false ∧ past = false) → Gives s (.domainWake x clamps) [.obj, .pow, .host, .dict, .out] fun t =>
        (domSt t d).trans = .none ∧ domState t d = domState s d ∧ stat t d 2 = (stat s d 2 + 1) % 2 ^ 64)) ∧
  (∀ (mv : BitVec 16) (s : State), let v := mv.toNat; let th := rd s kPwVbatLowTh
    let P := fun (t : State) => rd t kPwVbat = v ∧ t.pow = { s.pow with vbatLow := t.pow.vbatLow } ∧
      t.pow.vbatLow = if v < th then true else if th + 100 ≤ v then false else s.pow.vbatLow
    (v < th → s.pow.vbatLow = false → Gives s (.vbatMeasure mv) [.obj, .pow, .host, .dict, .out] P) ∧
    (th ≤ v ∨ s.pow.vbatLow = true → Gives s (.vbatMeasure mv) [.obj, .pow] fun t => P t ∧ Keeps [kPwVbat] s t))

/-- The clocks of clusters and engine groups under CLK_SET and the thermal and margin limits, throttling, margin records and droops
(R224, R585, R586, R588 to R590, R606; Tables 17-6 and 17-7). A notch waits while one waits for its grant and for 1 µs after the last one; the
cores of a cluster have counted their cycles at the clock before. -/
def Obligations.ClocksAndMargins : Prop :=
  let parts := [Part.obj, .pow, .host, .dict, .sage, .out]
  let Notched := fun (d : Nat) (s t : State) =>
    let f := rd s (kPdClkNow d); let g := clkGoal t d; let one := if f < g then f + 100 else f - 100
    let mA : Int := if d < 12 then 190 else 430
    let amp := if f < g then mA else -mA
    (domSt t d).heldReason = clkHeld t d ∧
    (∀ n c, tfind n s.sage.cores = some c → tfind n t.sage.cores = some (if n / 9 = d ∧ rd t (kPdClkNow d) ≠ f then
      { c with ticks := c.ticks + (now s - c.since) * f, since := now s } else c)) ∧
    (f = g ∨ notchHeld s d = true → rd t (kPdClkNow d) = f ∧ t.pow.waits = s.pow.waits) ∧
    (f ≠ g → notchHeld s d = false → domState s d ≠ 0 → rd t (kPdClkNow d) = one ∧ t.pow.waits = s.pow.waits ∧
      (domSt t d).notchAt = some (now s)) ∧
    (f ≠ g → notchHeld s d = false → domState s d = 0 → if s.pow.waits.isEmpty && govAdmits s amp then rd t (kPdClkNow d) = one ∧ t.pow.grants.head? = some (now s, amp)
      else rd t (kPdClkNow d) = f ∧ ∃ w ∈ t.pow.waits, w.dom = d ∧ w.amp = amp ∧ w.time = now s ∧ w.act = .notch one)
  let Centred := fun (d fSafe supply cls : Nat) (s t : State) => let r := rd t (kPdMarginRecord d)
    rd t (kPdMarginLimit d) = fSafe ∧ fld r 0 8 = 1 ∧ fld r 8 3 = 0 ∧ fld r 16 16 = fSafe ∧ fld r 32 16 = ofInt 16 (domTj s d) ∧
      fld r 48 16 = supply ∧ fld r 64 2 = cls ∧ fld r 128 64 = now s % 2 ^ 64 ∧ (domSt t d).staleSince = none ∧ Notched d s t
  (∀ (x : Fin 20) (s : State), Gives s (.clockNotch x) parts fun t => Notched x.val s t ∧ clkGoal t x.val = clkGoal s x.val ∧
    clkLimit s x.val = min (rd s (kPdClkSet x.val)) (min (rd s (kPdThermalLimit x.val)) (rd s (kPdMarginLimit x.val)))) ∧
  (∀ (x : Fin 20) (v : BitVec 16) (s : State), let d := x.val; let ok := clkMin d ≤ v.toNat ∧ v.toNat ≤ clkMax d ∧ v.toNat % 100 = 0
    (¬ok → Refuses s (.clkSet x v) .range) ∧
    (ok → Accepts s (.clkSet x v) parts fun t => rd t (kPdClkSet d) = v.toNat ∧
      rd t (kPdThermalLimit d) = (if rd s (kPdThermalLimit d) = rd s (kPdClkSet d) then v.toNat else rd s (kPdThermalLimit d)) ∧
        rd t (kPdMarginLimit d) = rd s (kPdMarginLimit d) ∧ Notched d s t)) ∧
  (∀ (x : Fin 20) (s : State), let d := x.val; let due := domThrottled s d = true ∧ (domSt s d).thermalStep + msToTc 10 ≤ now s
    (¬due → Idles s (.throttleStep x)) ∧
    (due → Gives s (.throttleStep x) parts fun t => rd t (kPdThermalLimit d) = max (clkMin d) (rd s (kPdThermalLimit d) - 100) ∧
      (domSt t d).thermalStep = now s ∧ Notched d s t)) ∧
  (∀ (x : Fin 20) (s : State), let d := x.val
    let due := domThrottled s d = false ∧ rd s (kPdThermalLimit d) < rd s (kPdClkSet d) ∧ (domSt s d).thermalStep + msToTc 100 ≤ now s
    (¬due → Idles s (.throttleRecoverStep x)) ∧
    (due → Gives s (.throttleRecoverStep x) parts fun t =>
      rd t (kPdThermalLimit d) = min (rd s (kPdClkSet d)) (rd s (kPdThermalLimit d) + 100) ∧ (domSt t d).thermalStep = now s ∧ Notched d s t)) ∧
  (∀ (x : Fin 20) (supply : BitVec 16) (cls : BitVec 2) (s : State), let d := x.val; let r := rd s (kPdMarginRecord d)
    let off := 16 * rd s kPwWinTemp < (domTj s d - toInt 16 (fld r 32 16)).natAbs ∨
      rd s kPwWinSupply < ((supply.toNat : Int) - (fld r 48 16 : Int)).natAbs ∨ cls.toNat ≠ fld r 64 2 ∨
        secToTc (3600 * rd s kPwWinAge) < now s - fld r 128 64
    let due := fld r 0 8 = 1 ∧ bitAt r 8 = false ∧ off
    (¬due → Idles s (.marginContextCheck x supply cls)) ∧
    (due → Gives s (.marginContextCheck x supply cls) parts fun t => rd t (kPdMarginRecord d) = setFld (setFld r 8 1 1) 9 1 1 ∧
      rd t (kPdMarginLimit d) = fld r 16 16 - 100 ∧ (domSt t d).staleSince = some (now s) ∧ Notched d s t)) ∧
  (∀ (x : Fin 20) (fSafe supply : BitVec 16) (cls : BitVec 2) (load : Bool) (s : State), let d := x.val
    let due := ∃ t0, (domSt s d).staleSince = some t0 ∧ (load = true ∨ t0 + secToTc 10 ≤ now s)
    (¬due → Idles s (.marginRecentre x fSafe supply cls load)) ∧
    (due → Gives s (.marginRecentre x fSafe supply cls load) parts (Centred d fSafe.toNat supply.toNat cls.toNat s))) ∧
  (∀ (x : Fin 20) (v : Byte) (fSafe supply : BitVec 16) (cls : BitVec 2) (s : State),
    (v ≠ 1 → Refuses s (.domainRecentre x v fSafe supply cls) .range) ∧
    (v = 1 → Accepts s (.domainRecentre x v fSafe supply cls) parts (Centred x.val fSafe.toNat supply.toNat cls.toNat s))) ∧
  (∀ (x : Fin 20) (supply : BitVec 16) (cls : BitVec 2) (s : State), let d := x.val; let r := rd s (kPdMarginRecord d)
    let due := cls = 2 ∧ supply.toNat + rd s kPwDroopTh < fld r 48 16
    (¬due → Idles s (.droopDetect x supply cls)) ∧
    (due → Gives s (.droopDetect x supply cls) parts fun t => rd t (kPdMarginLimit d) = rd s (kPdMarginLimit d) - 100 ∧
      rd t (kPdMarginRecord d) = setFld (setFld (setFld r 8 1 1) 9 1 1) 10 1 1 ∧ (domSt t d).staleSince.isSome = true ∧
        (domSt t d).heldReason = clkHeld t d ∧
          rd t (kPdClkNow d) = if clkGoal t d < rd s (kPdClkNow d) then rd s (kPdClkNow d) - 100 else rd s (kPdClkNow d)))

/-- Thermal sensors and the trip, time snapshots, and the device-wide states PS6 to PS8: entry, wake events, exit (R593 to R600, R604
to R608; Tables 17-8 to 17-12). -/
def Obligations.SleepWakeAndTrip : Prop :=
  let rail := fun (s : State) => if deviceState s = 8 then 0 else 1
  let Exit := fun (src : Option WakeSource) (s t : State) => t.pow.exit_ = some (deviceState s, src) ∧ t.pow.tripPin = false ∧
    t.pow.stcAlarm = none ∧ t.pow.latched = s.pow.latched ∧ t.boot = { s.boot with pwrEn := s.boot.pwrEn.set (rail s) true }
  let Woke := fun (src : WakeSource) (from_ : List Nat) (on : Bool) (s t : State) =>
    let starts := deviceState s ∈ from_ ∧ on = true ∧ s.pow.exit_ = none
    let keeper := s.boot.pwrEn.getD 1 false && s.boot.pgood.getD 1 false
    let s1 := if keeper = false ∨ s.pow.tripHold ≠ none then { s with pow := { s.pow with latched := s.pow.latched ++ [src] } } else s
    (starts → s.pow.tripHold = none → Exit (some src) s1 t) ∧ (¬starts ∨ s.pow.tripHold ≠ none → t = s1)
  let lit := bitAt
  (∀ (k u : Word) (s : State), let due := d0Runs s = true ∧ s.boot.fwReady = true
    let to0 := latestIsOne s = true ∨ snapValid s.pow.slot0 = false
    (¬due → Idles s (.timeSnapshot k u)) ∧
    (due → Gives s (.timeSnapshot k u) [.obj, .pow] fun t => let x := if to0 then t.pow.slot0 else t.pow.slot1
      rd t kTiStcK = k.toNat ∧ rd t kTiStcKUnc = u.toNat ∧ Keeps [kTiStcK, kTiStcKUnc] s t ∧
      (if to0 then t.pow.slot1 = s.pow.slot1 else t.pow.slot0 = s.pow.slot0) ∧ snapValid x = true ∧ fld x 0 64 = s.tim.dtc % 2 ^ 64 ∧
        fld x 64 48 = s.tim.stc % 2 ^ 48 ∧ lit x 113 = false ∧ fld x 128 32 = k.toNat ∧ fld x 160 32 = u.toNat ∧
          fld x 192 32 = uncertainty t % 2 ^ 32)) ∧
  (∀ (woken : Bool) (s : State), let k := deviceTarget s
    let due := d0Runs s = true ∧ s.boot.fwReady = true ∧ 6 ≤ k ∧ k ≤ 8 ∧ deviceVote s = false ∧ domainsStill s = true ∧
      rd s kHoLinkState ≠ 1 ∧ rd s kHoLinkState ≠ 2
    (¬due → Idles s (.deviceSleepEntry woken)) ∧
    (due → woken = true → exec (.deviceSleepEntry woken) s = .next (domainsWake (powerEvent 2 50 0 k (domainsDown s)))) ∧
    (due → woken = false → ∃ t, exec (.deviceSleepEntry woken) s = .next t ∧ t.pending = s.pending ∧ deviceState t = k ∧
      t.boot.d0Reset = true ∧ t.work.graphs = [] ∧ t.pow.wakeMask = rd s kPwWakeSources ∧ (t.pow.resume = none ↔ k = 8) ∧
      t.boot.pwrEn = [if k = 8 then false else s.boot.pwrEn.getD 0 true, false, false, false, false, k == 6, false] ∧
      t.mem = (if k = 6 then s.mem.filter fun c => dramBase ≤ c.1 else []) ∧ (k = 6 → t.dram = s.dram ∧ t.radio.idtCur = s.radio.idtCur ∧
        t.work.owners = s.work.owners.filter fun o => decide (dramBase ≤ o.1)) ∧
      t.tim.dtc = s.tim.dtc ∧ t.tim.stc = s.tim.stc ∧
      t.pow.stcAlarm = if rd s kPwWakeAt ≤ now s then none
        else some ((s.tim.stc + ceilDiv ((rd s kPwWakeAt - now s) * 65536) (rd s kTiStcK)) % 2 ^ 48))) ∧
  (∀ s : State, let m := s.pow.wakeMask
    Gives s .canRxWake [.pow, .boot] (Woke .canRx [6, 7] (lit m 2) s) ∧ Gives s .perstNWake [.pow, .boot] (Woke .perstN [6, 7] (lit m 3) s) ∧
    Gives s .vaonRise [.pow, .boot] (Woke .vaon [8] true s) ∧
    (s.boot.railsOff = false ∨ s.boot.vaon = false → Gives s .wakeNFall [.pow, .boot] (Woke .wakeN [6, 7, 8] (lit m 0) s)) ∧
    (s.boot.railsOff = true → s.boot.vaon = true → deviceState s = 0 → Gives s .wakeNFall [.pow, .boot] fun t => t.boot.railsOff = false ∧ t.boot.railFails = [] ∧
      t.boot.retryAt = none ∧ t.boot.pwrEn = s.boot.pwrEn.set 1 true ∧ t.boot.straps = s.boot.strapPins) ∧
    (alarmDue s = false → Idles s .stcAlarm) ∧ (alarmDue s = true → Gives s .stcAlarm [.pow, .boot]
      (Woke .stcAlarm [6, 7, 8] (lit m 1) { s with pow := { s.pow with stcAlarm := none } })) ∧
    Gives s .jtagAttach [.pow, .boot] (Woke .jtag [6, 7] true { s with boot := { s.boot with jtag := true } }) ∧
    Gives s .jtagDetach [.boot] fun t => t.boot = { s.boot with jtag := false }) ∧
  (∀ s : State,
    (s.pow.exit_ = none → Idles s .deviceWake) ∧ ∀ k src, s.pow.exit_ = some (k, src) →
      (8 ≤ k ∨ railsUp s = false → Idles s .deviceWake) ∧
      (k < 8 → railsUp s = true → Gives s .deviceWake [.obj, .text, .tim, .pow, .boot, .host, .dict, .work, .sram, .out, .freeCtr] fun t =>
        let usable := (latestSnap s).filter fun x => decide (snapStc x ≤ s.tim.stc); let back := s.pow.resume.isSome
        deviceState t = 0 ∧ t.pow.exit_ = none ∧ t.pow.tripPending = false ∧ t.boot.d0Reset = false ∧ t.boot.fwReady = back ∧
        t.boot.cause = (if s.pow.tripPending then 0x08 else if k = 6 then 0x09 else 0x0A) ∧
        t.pow.wakeHoldUntil = some (now t + secToTc (rd t kPwWakeHold)) ∧
        t.pow.trips = (if s.pow.tripPending then wrapAdd 32 s.pow.trips 1 else s.pow.trips) ∧
        (back = true → ∀ n, 1 ≤ n → n < 512 → rd t (kTeState n) = objDefault (kTeState n)) ∧ (usable = none → now t = 0) ∧
        ∀ x, usable = some x → s.work.ciOwner = [] → rd t kTiState = 3 ∧
          now t = (fld x 0 64 + stcSince s (snapStc x) * fld x 128 32 / 65536) % 2 ^ 64)) ∧
  (∀ s : State, let due := ∃ t0, s.pow.wakeHoldUntil = some t0 ∧ t0 ≤ now s
    (¬due → Idles s .wakeHoldExpiry) ∧
    (due → Gives s .wakeHoldExpiry [.pow] fun t => t.pow = { s.pow with wakeHoldUntil := none })) ∧
  (∀ (n : SensorId) (raw : BitVec 16) (s : State), let hot := 16 * (rd s (kThTjTh 2) : Int) < raw.toInt
    (d0Runs s = false → Idles s (.sensorSample n raw)) ∧
    (d0Runs s = true → hot → Gives s (.sensorSample n raw) [.obj, .text, .tim, .pow, .boot, .host, .dict, .work, .sage, .radio, .links, .noc,
        .dram, .sram, .mem, .out] fun t => deviceState t = 7 ∧ t.pow.tripPin = true ∧ t.pow.tripHold = some s.tim.stc ∧ t.mem = [] ∧
      t.pow.latched = s.pow.latched ∧ t.pow.tripMark = s.pow.latched.length ∧
      t.boot.d0Reset = true ∧ (∀ i, 1 ≤ i → t.boot.pwrEn.getD i false = false) ∧ t.pow.exit_ = none ∧ t.pow.tripPending = true ∧
        t.pow.wakeMask = rd s kPwWakeSources ∧ t.pow.tripRestart = rdB s kThTripRestart ∧ t.tim.dtc = s.tim.dtc) ∧
    (d0Runs s = true → ¬hot → Gives s (.sensorSample n raw) [.obj, .pow, .host, .dict, .sage, .out] fun t =>
      let m := tget s.pow.sensors n.val {}; let l := (raw.toInt :: m.samples).take 16; let tj := l.sum / (l.length : Int)
      let th := fun i => 16 * (rd s (kThTjTh i) : Int); let low := fun i => th i - 16 * (rd s kThHysteresis : Int)
      let dwell := rd s kThDwell
      let flag := fun (i above below : Nat) => let set := lit (rd s (kThSensorFlags n.val)) i
        if set = false ∧ dwell ≤ (if th i < tj then above + 1 else 0) then true
        else if set = true ∧ dwell ≤ (if tj ≤ low i then below + 1 else 0) then false else set
      rd t (kThTj n.val) = ofInt 16 tj ∧ rd t kThTjMax = ofInt 16 (max (rdI s kThTjMax 16) tj) ∧
      lit (rd t (kThSensorFlags n.val)) 0 = flag 0 m.warnOver m.warnUnder ∧ lit (rd t (kThSensorFlags n.val)) 1 = flag 1 m.thrOver m.thrUnder ∧
      ∀ d ∈ sensorDoms n.val, d < 20 → rd t (kPdThermalLimit d) =
        if flag 1 m.thrOver m.thrUnder = true ∧ lit (rd s (kThSensorFlags n.val)) 1 = false
        then max (clkMin d) (rd s (kPdThermalLimit d) - 100) else rd s (kPdThermalLimit d))) ∧
  (∀ s : State, let due := ∃ t0, s.pow.tripHold = some t0 ∧ 60 * 32768 ≤ stcSince s t0; let third := 3 ≤ s.pow.tripTimes.length
    (¬due → Idles s .tripHoldExpiry) ∧
    let inHold := (s.pow.latched.drop s.pow.tripMark).find? fun w => wakesFrom w (deviceState s) && wakeEnabled s w
    (due → third → Gives s .tripHoldExpiry [.pow] fun t => t.pow = { s.pow with tripHold := none, tripMark := 0, latched := [] }) ∧
    (due → ¬third → inHold = none → s.pow.tripRestart = false → Gives s .tripHoldExpiry [.pow] fun t =>
      t.pow = { s.pow with tripHold := none, tripMark := 0 }) ∧
    (due → ¬third → (∀ w, inHold = some w → Gives s .tripHoldExpiry [.pow, .boot] fun t => Exit (some w) s t ∧ t.pow.tripHold = none ∧
        t.pow.tripMark = 0) ∧
      (inHold = none → s.pow.tripRestart = true → Gives s .tripHoldExpiry [.pow, .boot] fun t => Exit none s t ∧ t.pow.tripHold = none)))

/-- Requests to device DRAM, what a read returns, freezes and their end, alerts, the patrol scrubber and power-down (R481, R482, R486,
R475, R487, R489, R491, R505 to R510, R512, R513; Table 14-4). -/
def Obligations.DramRequests : Prop :=
  let events := [Part.obj, .host, .dict, .dram, .out]
  (∀ (port : Fin 16) (tn : TenantId) (job addr : Nat) (data : Option (List Byte)) (s : State),
    let c := (dramMap s (addr - dramBase)).1; let line := addr / 64 * 64; let ch := chan s c; let i := Instr.dramRequest port tn job addr data
    let bad := addr < dramBase ∨ dramBase + rd s kDrCapacity ≤ addr ∨ rd s kDrState ≠ 2 ∨ chanUp s c = false ∨ (chanState s c = 3 ∧ port.val ≤ 1)
    (bad → Gives s i [.obj, .out] fun t => t.out = s.out ++ [.completerAbort tn.val] ∧ Counts 64 (kHoHostStats 8) 1 s t ∧
      Counts 64 kHoAeTotal 1 s t ∧ Keeps [kHoHostStats 8, kHoAeTotal, kHoAeLast] s t) ∧
    (¬bad → Gives s i [.obj, .dram, .mem] fun t => c < 8 → (chanState s c = 5 → chanState t c = 2) ∧ (chanState s c ≠ 5 → chanState t c = chanState s c)) ∧
    (¬bad → data = none → ch.waiting = [] → ch.readQ.length < 128 → c < 8 → Gives s i [.obj, .dram] fun t =>
      (∃ q, (chan t c).readQ = ch.readQ ++ [q] ∧ q.line = line ∧ q.tenant = tn.val ∧ q.port = port.val ∧ q.read = load s line 64 ∧
        q.bad = poisoned s line ∧ q.arrival = now s ∧ q.write = none) ∧ (chan t c).writeQ = ch.writeQ ∧
          if ch.writeQ.any (·.line == line) then Counts 64 (kDcDramStats c 16) 1 s t else rd t (kDcDramStats c 16) = rd s (kDcDramStats c 16)) ∧
    (¬bad → ch.waiting ≠ [] ∨ (if data.isSome then 64 ≤ ch.writeQ.length else 128 ≤ ch.readQ.length) → Gives s i [.obj, .dram] fun t =>
      ∃ q, (chan t c).waiting = ch.waiting ++ [q] ∧ q.line = line ∧ q.port = port.val ∧ q.write.isSome = data.isSome) ∧
    (∀ d, data = some d → ¬bad → ch.waiting = [] → ch.writeQ.length < 64 → Memory.wf s.mem = true →
      let w := d.take (64 - addr % 64); let full := addr % 64 = 0 ∧ 64 ≤ d.length
      (full ∨ poisoned s line = false → Gives s i [.obj, .dram, .mem] fun t => load t addr w.length = w ∧ MemKeeps addr w.length s t ∧
        poisoned t line = false ∧ ∀ l, l ≠ line → poisoned t l = poisoned s l) ∧
      (¬full → poisoned s line = true → Gives s i [.obj, .dram] fun t => t.dram.poison = s.dram.poison) ∧
      (ch.writeQ.any (·.line == line) = false → Gives s i [.obj, .dram, .mem] fun t => (chan t c).writeQ.length = ch.writeQ.length + 1 ∧
        (chan t c).drain = (ch.drain || decide (48 ≤ ch.writeQ.length + 1)) ∧ (chan t c).readQ = ch.readQ))) ∧
  (∀ (x : ChanId) (before : Bool) (chk : LineCheck) (s : State), let c := x.val; let ch := chan s c; let i := Instr.dramReadDone x before chk
    let s0 := if chanServes s c then payOwed c s else s
    let Returned := fun (r : DReq) (bad : Bool) (t : State) =>
      if bad = true ∧ r.port ≤ 1 then .completerAbort r.tenant ∈ t.out else .readData r.tenant r.read bad ∈ t.out
    (chanServes s c = false → chanState s c ≠ 3 ∨ before = false → Idles s i) ∧ (ch.readQ = [] → ch.writeQ = [] → exec i s = .next s0) ∧
    (chanServes s c = true → ch.readQ = [] → ch.writeQ = [] → Gives s i [.obj, .dram, .out] fun t =>
      ∀ r < rd s kDrRanks, (rankSt t c r).owed = 0) ∧
    ∀ r, (chanServes s c = true ∨ (chanState s c = 3 ∧ before = true)) → ch.writeQ = [] → ch.waiting = [] → schedNext s0 c = some r →
      r.write = none → r.reader = none → r.port < 16 → Gives s i (.work :: events) fun t =>
        (∀ q ∈ (chan t c).readQ, q ∈ ch.readQ) ∧ (chan t c).readQ.length + 1 = ch.readQ.length ∧ Counts 64 (kDcDramStats c 0) 1 s t ∧
        rd t (kDcLatencyMax c r.port) = max (rd s (kDcLatencyMax c r.port)) (tcToNs (now s - r.arrival)) ∧
        match r.bad, chk with
        | true, _ => Returned r true t ∧ chanState t c = chanState s c
        | false, .ok => Returned r false t ∧ chanState t c = chanState s c
        | false, .corrected _ => Returned r false t ∧ Counts 64 (kDcDramStats c 8) 1 s t ∧ chanState t c = chanState s c
        | false, .uncorrectable _ _ => Returned r true t ∧ Counts 64 (kDcDramStats c 9) 1 s t ∧ chanState t c = 3 ∧
          if chanState s c = 3 then (chan t c).frozenLines = ch.frozenLines ++ [r.line] ∧ Counts 32 (kDcFreezeExtra c) 1 s t
          else (chan t c).frozenLines = [r.line] ∧ (chan t c).freezeAt = some (now s) ∧ (chan t c).freezeCause = 1) ∧
  (let Ended := fun (c : Nat) (s t : State) => chanState t c = (if (chan s c).freezeCause = 2 then 4 else 2) ∧ (chan t c).freezeAt = none ∧
      (chan t c).frozenLines = [] ∧ (chan t c).replays = 0 ∧ (chan t c).readQ = (chan s c).readQ ∧
        ∀ l ∈ (chan s c).frozenLines, poisoned t l = true ∧ t.sram.retired.contains (l / 4096 * 4096) = true
    ∀ (x : ChanId) (s : State), let c := x.val
      let due := chanState s c = 3 ∧ rd s kDrFreezeAuto ≠ 0 ∧ ∃ t0, (chan s c).freezeAt = some t0 ∧ usToTc (rd s kDrFreezeAuto) ≤ now s - t0
      (¬due → Idles s (.freezeAutoExpiry x)) ∧ (due → Gives s (.freezeAutoExpiry x) (.work :: .sram :: events) (Ended c s)) ∧
      ∀ v, (v ≠ 1 → Refuses s (.resume x v) .range) ∧ (v = 1 → chanState s c ≠ 3 → Refuses s (.resume x v) .state) ∧
        (v = 1 → chanState s c = 3 → Accepts s (.resume x v) (.work :: .sram :: events) (Ended c s))) ∧
  (∀ (x : ChanId) (fresh : Bool) (s : State), let c := x.val; let n := if fresh then 0 else (chan s c).replays
    (chanServes s c = false → Idles s (.dramAlert x fresh)) ∧
    (chanServes s c = true → n < rd s kDrCmdRetry → Gives s (.dramAlert x fresh) [.obj, .dram] fun t => (chan t c).replays = n + 1 ∧
      Counts 64 (kDcDramStats c 10) 1 s t ∧ Keeps [kDcDramStats c 10] s t) ∧
    (chanServes s c = true → rd s kDrCmdRetry ≤ n → Gives s (.dramAlert x fresh) events fun t => chanState t c = 3 ∧
      (chan t c).freezeCause = 2 ∧ (chan t c).freezeAt = some (now s) ∧ (chan t c).readQ = (chan s c).readQ ∧ Counts 64 (kDcDramStats c 11) 1 s t)) ∧
  (∀ (chk : LineCheck) (s : State), let line := dramBase + s.dram.scrub; let c := (dramMap s s.dram.scrub).1
    let due := rd s kDrState = 2 ∧ rd s kDrScrubPeriod ≠ 0 ∧ chanServes s c = true
    (¬due → Idles s (.dramScrub chk)) ∧
    (due → c < 8 → Gives s (.dramScrub chk) events fun t => Counts 64 (kDcDramStats c 0) 1 s t ∧
      t.dram.scrub = (if rd s kDrCapacity ≤ s.dram.scrub + 64 then 0 else s.dram.scrub + 64) ∧
      (poisoned s line = true → t.dram.chans = s.dram.chans ∧ chanState t c = chanState s c) ∧
      (poisoned s line = false → match chk with
        | .ok => t.dram.chans = s.dram.chans
        | .corrected _ => Counts 64 (kDcDramStats c 8) 1 s t
        | .uncorrectable _ _ => chanState t c = 3 ∧ (chan t c).frozenLines = [line]))) ∧
  (∀ (x : ChanId) (s : State), let c := x.val; let idle := chanState s c = 2 ∧ (chan s c).readQ = [] ∧ (chan s c).writeQ = []
    (¬idle → Idles s (.pdIdleExpiry x)) ∧
    (idle → Gives s (.pdIdleExpiry x) [.obj] fun t => chanState t c = 5 ∧ Keeps [kDcState c] s t))

/-- DRAM start, stop and training, calibration records, refresh and the training bursts in it, activates, temperature, tracking and load (R472 to R475, R491 to R504,
R510; Tables 14-6 and 14-10). -/
def Obligations.DramUpkeep : Prop :=
  let events := [Part.obj, .host, .dict, .dram, .out]
  let rec_ := fun (s : State) (c r : Nat) => rd s (kDcCalRecord c r)
  let Captured := fun (c r : Nat) (e : EyeResult) (s t : State) => let m := rec_ t c r
    fld m 0 8 = 1 ∧ fld m 8 3 = r ∧ fld m 16 8 = e.rdVref % 256 ∧ fld m 24 8 = e.wrVref % 256 ∧ fld m 32 8 = e.rdEye % 256 ∧
      fld m 40 8 = e.wrEye % 256 ∧ fld m 48 16 = rd s (kDcTemp c) % 65536 ∧ fld m 64 16 = rd s (kDcVddq c) % 65536 ∧
        fld m 96 64 = now s % 2 ^ 64 ∧ (rankSt t c r).staleSince = none ∧ (rankSt t c r).recentring = false ∧
        (rankSt t c r).guard = 0
  (∀ (x : ChanId) (s : State), let c := x.val; let due := chanUp s c = true ∧ chanState s c ≠ 6
    (¬due → Idles s (.dramContextCheck x)) ∧
    (due → rd s kDrRanks ≤ 2 → Gives s (.dramContextCheck x) events fun t => ∀ r < rd s kDrRanks,
      if staleBits s c r false = 0 ∨ bitAt (rec_ s c r) 9 = true then rec_ t c r = rec_ s c r
      else rec_ t c r = setFld (rec_ s c r) 9 2 3 ∧ (rankSt t c r).staleSince = some (now s) ∧
        (rankSt t c r).guard = if toInt 16 (fld (rec_ s c r) 48 16) < rdI s (kDcTemp c) 16 then 1 else -1)) ∧
  (∀ (x : ChanId) (k : Fin 2) (s : State), let c := x.val; let m := rankSt s c k.val
    let due := (∃ t0, m.retryAt = some t0 ∧ t0 ≤ now s) ∨
      (m.retryAt = none ∧ ∃ t0, m.staleSince = some t0 ∧ (100 ≤ (chan s c).classRun ∨ secToTc 10 ≤ now s - t0))
    let free := chanServes s c = true ∧ k.val < rd s kDrRanks ∧ m.recentring = false
    (¬(due ∧ free) → Idles s (.dramRecentreStart x k)) ∧
    (due → free → Gives s (.dramRecentreStart x k) [.dram] fun t => rankSt t c k.val = { m with recentring := true, bursts := 96 })) ∧
  (∀ (x : ChanId) (k : Fin 2) (e : EyeResult) (s : State), let c := x.val
    let due := (rankSt s c k.val).recentring = true ∧ (rankSt s c k.val).bursts = 0 ∧ chanServes s c = true
    (¬due → Idles s (.dramRecentreDone x k e)) ∧
    (due → e.pass = true → Gives s (.dramRecentreDone x k e) events fun t => Captured c k.val e s t ∧ Counts 64 (kDcDramStats c 13) 1 s t) ∧
    (due → e.pass = false → Gives s (.dramRecentreDone x k e) events fun t => rec_ t c k.val = rec_ s c k.val ∧
      (rankSt t c k.val).recentring = false ∧ (rankSt t c k.val).retryAt = some (now s + secToTc 10))) ∧
  (∀ (x : ChanId) (v : Nat) (s : State), let c := x.val
    (v ≠ 1 → Refuses s (.dramRecentre x v) .range) ∧ (v = 1 → chanServes s c = false → Refuses s (.dramRecentre x v) .state) ∧
    (v = 1 → chanServes s c = true → Accepts s (.dramRecentre x v) [.dram, .out] fun t =>
      ∀ r < rd s kDrRanks, rankSt t c r = { rankSt s c r with
        recentring := true, bursts := if (rankSt s c r).recentring then (rankSt s c r).bursts else 96 })) ∧
  (∀ s : State, let stopped := rd s kDrState = 0 ∨ rd s kDrState = 3
    (¬stopped → Refuses s .dramStart .state) ∧ (stopped → dramConfigOk s = false → Refuses s .dramStart .range) ∧
    (stopped → dramConfigOk s = true → Accepts s .dramStart [.obj, .out] fun t => rd t kDrState = 1 ∧ ∀ c < 8,
      chanState t c = if bitAt (rd s kDrChannels) c then 1 else 0)) ∧
  (∀ s : State, let ok := rd s kDrState = 2 ∧ graphsLive s = false ∧ s.host.hdm = false
    (¬ok → Refuses s .dramStop .state) ∧ (ok → Accepts s .dramStop [.obj, .out] fun t => rd t kDrState = 0 ∧ ∀ c < 8,
      chanState t c = if bitAt (rd s kDrChannels) c then 6 else chanState s c)) ∧
  (∀ (f : BitVec 8) (e : EyeResult) (s : State), let n := (chanList s).length; let all := ∀ c ∈ chanList s, f.getLsbD c = false
    (rd s kDrState ≠ 1 → Idles s (.dramTrainDone f e)) ∧
    (rd s kDrState = 1 → all → rd s kDrRanks ≤ 2 → Gives s (.dramTrainDone f e) (.boot :: events) fun t => rd t kDrState = 2 ∧
      rd t kDrCapacity = n * (chanBytes s - 65536) ∧ rd t kDrPeakBw = n * 8 * rd s kDrDataRate * 1000000 ∧
        ∀ c ∈ chanList s, chanState t c = 2 ∧ ∀ r < rd s kDrRanks, Captured c r e s t) ∧
    (rd s kDrState = 1 → ¬all → Gives s (.dramTrainDone f e) (.boot :: events) fun t => rd t kDrState = 3 ∧ rd t kDrCapacity = rd s kDrCapacity ∧
      ∀ c ∈ chanList s, chanState t c = if f.getLsbD c then 7 else 0)) ∧
  (∀ (x : ChanId) (e : EyeResult) (s : State), let c := x.val
    (chanState s c ≠ 4 → Idles s (.dramRetrainDone x e)) ∧
    (chanState s c = 4 → e.pass = true → rd s kDrRanks ≤ 2 → Gives s (.dramRetrainDone x e) [.obj, .dram] fun t => chanState t c = 2 ∧
      Counts 64 (kDcDramStats c 12) 1 s t ∧ (∀ r < rd s kDrRanks, Captured c r e s t) ∧ (chan t c).readQ = (chan s c).readQ) ∧
    (chanState s c = 4 → e.pass = false → Gives s (.dramRetrainDone x e) (.boot :: .noc :: events) fun t => chanState t c = 7 ∧
      rd t kDrState = 3 ∧ ∀ d ∈ chanList s, (chan t d).readQ = [] ∧ (chan t d).writeQ = [] ∧ (chan t d).waiting = [] ∧
        ∀ q ∈ (chan s d).readQ, q.reader = none →
          if q.port ≤ 1 then .completerAbort q.tenant ∈ t.out else .readData q.tenant q.read true ∈ t.out)) ∧
  (∀ (x : ChanId) (k : Fin 2) (s : State), let c := x.val; let r := k.val; let owed := (rankSt s c r).owed
    let due := chanUp s c = true ∧ chanState s c ≠ 6 ∧ r < rd s kDrRanks
    let put := chanServes s c = true ∧ owed < 4 ∧ ∃ q ∈ (chan s c).readQ ++ (chan s c).writeQ, urgency s q = 3 ∧ (lineLoc s q.line).rank = r
    (¬due → Idles s (.dramRefresh x k)) ∧
    (due → put → Gives s (.dramRefresh x k) [.obj, .dram] fun t => (rankSt t c r).owed = owed + 1 ∧ Counts 64 (kDcDramStats c 6) 1 s t ∧
      Keeps [kDcDramStats c 6] s t) ∧
    let at_ := rankSt s c r
    let bursting := at_.recentring = true ∧ at_.bursts ≠ 0 ∧ chanServes s c = true
    (due → ¬put → Gives s (.dramRefresh x k) [.obj, .dram, .out, .freeCtr] fun t => (rankSt t c r).owed = 0 ∧
      (bursting → (rankSt t c r).bursts = at_.bursts - (owed + 1) ∧ (rankSt t c r).spare = decide (at_.bursts < owed + 1) ∧
        (48 ≤ at_.bursts - (owed + 1) → (chan t c).training = (chan s c).training)) ∧
      (¬bursting → (rankSt t c r).bursts = at_.bursts ∧ (rankSt t c r).spare = true ∧ (chan t c).training = (chan s c).training) ∧
      t.out = s.out ++ List.replicate (owed + 1) (.dramCommand c 1 r 0) ∧ Counts 64 (kDcDramStats c 5) (owed + 1) s t ∧
        Keeps [kDcDramStats c 5] s t ∧ (∀ b, b / 64 = r → tfind b (chan t c).openRows = none) ∧ (chan t c).readQ = (chan s c).readQ)) ∧
  (∀ (x : ChanId) (s : State), (chanUp s x.val = false → Idles s (.raaTableClear x)) ∧
    (chanUp s x.val = true → Gives s (.raaTableClear x) [.dram] fun t => chan t x.val = { chan s x.val with raa := [] })) ∧
  (∀ (x : ChanId) (w : BitVec 16) (s : State), let c := x.val; let y := w.toInt + if ddr5 s then 0 else 16 * rdI s kDrTempOfs 8
    let since := (chan s c).coolSince.getD (now s)
    (chanUp s c = false → Idles s (.dramTempPoll x w)) ∧
    (chanUp s c = true → Gives s (.dramTempPoll x w) [.obj, .dram] fun t => rd t (kDcTemp c) = ofInt 16 y ∧ Keeps [kDcTemp c, kDcHot c] s t ∧
      (chan t c).coolSince = (if 1312 < y then none else some since) ∧
        rd t (kDcHot c) = if 1360 < y then 1 else if y ≤ 1312 ∧ msToTc 10 ≤ now s - since then 0 else rd s (kDcHot c))) ∧
  (∀ (x : ChanId) (k : Fin 2) (v : BitVec 16) (far : Bool) (s : State), let c := x.val; let r := k.val; let ch := chan s c
    let moved := 16 * rd s kDrTrackTemp < (rdI s (kDcTemp c) 16 - ch.trackTemp).natAbs ∨
      rd s kDrTrackVddq < ((v.toNat : Int) - (ch.trackVddq : Int)).natAbs
    let due := chanServes s c = true ∧ r < rd s kDrRanks ∧ (moved ∨ msToTc (rd s kDrTrackPeriod) ≤ now s - (rankSt s c r).lastTrack) ∧
      (rankSt s c r).spare = true
    (¬due → Idles s (.dramTrack x k v far)) ∧
    (due → Gives s (.dramTrack x k v far) (.freeCtr :: events) fun t => (rankSt t c r).spare = false ∧
      (∀ l < 20, (tget (rankSt t c r).moved l 0 - tget (rankSt s c r).moved l 0).natAbs ≤ 1) ∧ rd t (kDcVddq c) = v.toNat ∧ (rankSt t c r).lastTrack = now s ∧
      (chan t c).trackTemp = rdI s (kDcTemp c) 16 ∧ (chan t c).trackVddq = v.toNat ∧ Counts 64 (kDcDramStats c 14) 1 s t ∧
        (far = true → bitAt (rec_ t c r) 9 = true) ∧ (far = false → t.out = s.out ∧ Keeps [kDcVddq c, kDcDramStats c 14] s t))) ∧
  (∀ (x : ChanId) (busy total : Nat) (s : State), let c := x.val; let cls := if 10 * busy < total then 0 else if 2 * busy ≤ total then 1 else 2
    (chanUp s c = false → Idles s (.dramLoadWindow x busy total)) ∧
    (chanUp s c = true → Gives s (.dramLoadWindow x busy total) [.obj, .dram] fun t => rd t (kDcLoadClass c) = cls ∧ Keeps [kDcLoadClass c] s t ∧
      (chan t c).classRun = if cls = 2 then (chan s c).classRun + 1 else 0))

/-- Scrubbing of on-die memory and its byte code, spare columns and remapped words, and the wear ledger (R519, R520, R523 to R529, R534
to R537). -/
def Obligations.ScrubbingAndLedger : Prop :=
  let stat := fun (s : State) (q i : Nat) => fld (rd s (kSrScrubStats q)) (64 * i) 64
  let One := fun (q i : Nat) (s t : State) => stat t q i = (stat s q i + 1) % 2 ^ 64
  (∀ (x : Fin 5) (s : State), let q := x.val; let d := scrubber s q; let period := rd s kSrSramScrubPeriod
    let due := period ≠ 0 ∧ d.running = false ∧ (q = 4 → s.boot.vaon = true) ∧ ∀ t0, d.since = some t0 → t0 + secToTc period ≤ now s
    (¬due → Idles s (.scrubPassStart x)) ∧
    (due → Gives s (.scrubPassStart x) [.sram] fun t => scrubber t q = { d with running := true, since := some (now s) } ∧
      t.sram.poison = s.sram.poison ∧ ∀ o, o ≠ q → scrubber t o = scrubber s o)) ∧
  (∀ (x : Fin 5) (loc : BitVec 64) (word : BitVec 20) (f1 f2 : BitVec 208) (s : State), let q := x.val; let c := loc.toNat; let w := word.toNat
    let d := scrubber s q; let i := Instr.scrubWord x loc word f1 f2
    let due := scrubs q c = true ∧ (∃ n, locMacroBytes c = some n ∧ w < n / 16) ∧ (d.running = true ∨ d.handed.contains (c, w) = true)
    (¬due → Idles s i) ∧
    (due → (∀ b, s.sram.poison.contains (c, w, b) = false) → Memory.wf s.mem = true →
      (f1 = 0 → Gives s i [.sram] fun t => scrubber t q = { d with handed := d.handed.filter (· != (c, w)) } ∧ t.sram.macros = s.sram.macros) ∧
      ∀ b < 16, ∀ k < 13, let p := 13 * b + k
        (f1.toNat = 2 ^ p → f2 = 0 → Gives s i [.obj, .sram, .mem, .dram] fun t => One q 0 s t ∧ stat t q 1 = stat s q 1 ∧ stat t q 2 = stat s q 2 ∧
          (∀ a, memGet a t.mem = memGet a s.mem) ∧ t.sram.macros = s.sram.macros ∧ ∀ e ∈ t.sram.poison, e ∈ s.sram.poison) ∧
        (f1.toNat = 2 ^ p → f2 = f1 → Gives s i [.obj, .sram, .mem, .dram] fun t => One q 1 s t ∧ stat t q 0 = stat s q 0 ∧
          (∀ a, memGet a t.mem = memGet a s.mem) ∧ ∃ e ∈ (macroSt t c).faulty, e.1 = w ∧ p ∈ e.2) ∧
        ∀ k' < 13, k' ≠ k → f1.toNat = 2 ^ p + 2 ^ (13 * b + k') → Gives s i [.obj, .sram] fun t => One q 2 s t ∧ stat t q 0 = stat s q 0 ∧
          t.sram.poison = (c, w, b) :: s.sram.poison)) ∧
  (∀ (x : Fin 5) (loc : BitVec 64) (skip : Bool) (s : State), let q := x.val; let c := loc.toNat; let m := macroSt s c
    let due := (scrubber s q).running = true ∧ scrubs q c = true; let i := Instr.scrubMacroEnd x loc skip
    let Passed := fun (t : State) => (c = lastMacro q → Counts 64 (kSrPasses q) 1 s t ∧ (scrubber t q).running = false) ∧
      (c ≠ lastMacro q → rd t (kSrPasses q) = rd s (kSrPasses q) ∧ scrubber t q = scrubber s q)
    (¬due → Idles s i) ∧
    (due → skip = true → sageMacro c = true → Gives s i [.obj, .sram] fun t => Passed t ∧ One q 3 s t ∧ macroSt t c = m) ∧
    (due → skip = false ∨ sageMacro c = false → s.boot.d0Reset = false → m.fenced = false →
      (m.counters = [] → m.faulty = [] → Gives s i [.obj, .sram] fun t => Passed t ∧ macroSt t c = m) ∧
      (∀ w l, m.faulty = [(w, l)] → l ≠ [] → (∀ e ∈ m.counters, e.2 < rd s kSrColumnTh) → m.remaps.length < 8 → (∀ e ∈ m.remaps, e.word ≠ w) →
        Gives s i [.obj, .sram] fun t => Passed t ∧ macroSt t c = { m with counters := [], faulty := [], remaps := m.remaps ++ [{ word := w, faults := l }] }) ∧
      ∀ p n, m.counters = [(p, n)] → rd s kSrColumnTh ≤ n → m.faulty ≠ [] → (∀ e ∈ m.faulty, e.2 = [p]) → m.sweeping = [] → p ∉ m.columns →
        m.columns.length + m.failedColumns < 2 → Gives s i [.obj, .sram] fun t => Passed t ∧ ∃ w, (∃ e ∈ m.faulty, e.1 = w) ∧
          (∀ e ∈ m.faulty, w ≤ e.1) ∧ macroSt t c = { m with counters := [], faulty := [], sweeping := [(p, w)] })) ∧
  (∀ (loc : BitVec 64) (s : State), let c := loc.toNat; let m := macroSt s c; let q := scrubberOf c
    (m.sweeping = [] → Idles s (.columnSpareDone loc)) ∧
    (∀ p w r, m.sweeping = (p, w) :: r → Gives s (.columnSpareDone loc) [.obj, .host, .dict, .sram, .out] fun t => One q 4 s t ∧
      macroSt t c = { m with sweeping := r, columns := m.columns ++ [p], remaps := m.remaps.filter fun e => !(e.usable && e.faults == [p]) }) ∧
    ((∀ e ∈ m.remaps, e.switched = true) → Idles s (.wordRemapDone loc)) ∧
    ∀ l e r, m.remaps = l ++ e :: r → (∀ o ∈ l, o.switched = true) → e.switched = false →
      Gives s (.wordRemapDone loc) [.obj, .host, .dict, .sram, .out] fun t => One q 5 s t ∧
        macroSt t c = { m with remaps := l ++ { e with switched := true } :: r }) ∧
  (∀ (rows : List (Fin 51 × BitVec 16 × BitVec 16)) (s : State), Gives s (.ledgerMinute rows) [.obj, .host, .dict, .sram, .out] fun t =>
    (∀ d, (∀ e ∈ rows, e.1.val ≠ d) → wearDom t d = wearDom s d) ∧ t.sram.macros = s.sram.macros ∧
    ∀ e ∈ rows, (rows.filter fun y => y.1 == e.1).length = 1 → let d := e.1.val; let w := wearDom s d
      let bin := 6 * tempBin e.2.1.toInt + voltBin (wearDeep s d) e.2.2.toNat
      (wearDom t d).powerCycles = w.powerCycles ∧ tget (wearDom t d).bins bin 0 = wrapAdd 32 (tget w.bins bin 0) 1 ∧
        (∀ b, b ≠ bin → tget (wearDom t d).bins b 0 = tget w.bins b 0) ∧ (wearDom t d).life = min (2 ^ 32 - 1) (lifePpm (wearDom t d).bins) ∧
          ((wearDom t d).thermalCycles = w.thermalCycles ∨ (wearDom t d).thermalCycles = wrapAdd 32 w.thermalCycles 1)) ∧
  (∀ (a1 a2 b1 b2 : Bool) (s : State), let parts := [Part.obj, .host, .dict, .sram, .out]
    let seq := (rd s kSrLedgerSeq + 1) % 2 ^ 32
    let Copy := fun (ok : Bool) (old new : LedgerCopy) => new.good = ok ∧ new.seq = (if ok then seq else old.seq) ∧
      (ok = true → new.doms = s.sram.doms ∧ new.retired = s.sram.retired ∧ new.serviceStart = rd s kSrServiceStart)
    let Saved := fun (t : State) => rd t kSrLedgerSeq = seq ∧ Copy (a1 || a2) s.sram.copyA t.sram.copyA ∧ Copy (b1 || b2) s.sram.copyB t.sram.copyB ∧
      bitAt (rd t kSrLedgerCopies) 0 = (a1 || a2) ∧ bitAt (rd t kSrLedgerCopies) 1 = (b1 || b2) ∧ t.dict.histFlash = t.dict.history ∧
        t.sram.doms = s.sram.doms ∧ t.sram.macros = s.sram.macros
    let day := now s / secToTc 86400
    (day ≤ s.sram.lastDay → Idles s (.ledgerDailyWrite a1 a2 b1 b2)) ∧
    (s.sram.lastDay < day → Gives s (.ledgerDailyWrite a1 a2 b1 b2) parts fun t => Saved t ∧ t.sram.lastDay = day) ∧
    (day < s.sram.lastYear + 365 → Idles s (.ledgerYearlyRewrite a1 a2 b1 b2)) ∧
    (s.sram.lastYear + 365 ≤ day → Gives s (.ledgerYearlyRewrite a1 a2 b1 b2) parts fun t => Saved t ∧ t.sram.lastYear = day) ∧
    ∀ v : Byte, (1 < v.toNat → Refuses s (.ledgerWrite v a1 a2 b1 b2) .range) ∧
      (v = 0 → Accepts s (.ledgerWrite v a1 a2 b1 b2) [.out] fun _ => True) ∧
      (v = 1 → Accepts s (.ledgerWrite v a1 a2 b1 b2) parts Saved))

/-- Accesses over the mesh, packets held for a sleeping domain, discarded headers, and the end of a domain's exit (R546, R549, R556,
R564, R565, R570, R575, R583, R590). -/
def Obligations.MeshAndDomainExit : Prop :=
  let parts := [Part.obj, .pow, .host, .dict, .noc, .dram, .sram, .mem, .out]
  let dom := fun (r : Nat) (b : Bool) => if b then some (44 + bankQuad r) else portDomain r
  let Awake := fun (s : State) (r : Nat) (b : Bool) => ∀ d, dom r b = some d → domAsleep s d = false ∧ ∀ k p, (domSt s d).trans ≠ .entering k p
  let Asleep := fun (s : State) (r : Nat) (b : Bool) => ∃ d, dom r b = some d ∧ domAsleep s d = true
  let onDie := fun (s : State) (a : Nat) => match regionOf s a with
    | .dram | .host _ => false
    | _ => true
  let Dropped := fun (s t : State) => Counts 64 kNoHeadersDiscarded 1 s t ∧ t.mem = s.mem ∧ t.noc.inFlight.length ≤ s.noc.inFlight.length
  let Held := fun (s : State) (key : Nat) (t : State) => let h := tget s.noc.holds key {}; let g := tget t.noc.holds key {}
    g.packets.length + g.behind.length = h.packets.length + h.behind.length + 1 ∧ t.mem = s.mem ∧ t.noc.inFlight = s.noc.inFlight
  (∀ (x : RouterId) (adr : BitVec 52) (n : Fin 257) (tn : TenantId) (p : Fin 16) (gt : Bool) (bad : Option RouterId) (s : State),
    let a := adr.toNat; let i := Instr.nocReadRequest x adr n tn p gt bad
    (rangeDest s a n.val = none → Gives s i [.obj, .out] fun t => Counts 64 kHoAeTotal 1 s t ∧ Counts 64 (kHoHostStats 8) 1 s t ∧
      Keeps [kHoAeTotal, kHoHostStats 8, kHoAeLast] s t ∧ t.out = s.out ++ if x.val = 27 then [.nocError 27 a] else []) ∧
    ∀ r b, rangeDest s a n.val = some (r, b) →
      (bad ≠ none → Gives s i parts fun t => Dropped s t) ∧
      (bad = none → Asleep s r b → Gives s i parts (Held s (4 * r + 2 * b2n b))) ∧
      (bad = none → Awake s r b → onDie s a = true → Gives s i parts fun t => t.mem = s.mem ∧ ∃ q, t.noc.inFlight = s.noc.inFlight ++ [q] ∧
        q.network = 1 ∧ q.kind = 3 ∧ q.src = r ∧ q.dst = x.val ∧ q.gt = gt ∧ q.tenant = tn.val ∧ q.data = load s a n.val ∧
          ∀ o, o ∈ q.bad ↔ o < n.val ∧ rangePoisoned s (a + o) 1 = true)) ∧
  (∀ (x : RouterId) (adr : BitVec 52) (l : List Byte) (tn : TenantId) (p : Fin 16) (gt : Bool) (bad : Option RouterId) (fixed : Nat) (s : State),
    let a := adr.toNat; let i := Instr.nocWrite x adr l tn p gt bad [] fixed; let d := l.take 256
    (rangeDest s a d.length = none → Gives s i [.obj, .out] fun t => Counts 64 kHoAeTotal 1 s t ∧ Counts 64 (kHoHostStats 8) 1 s t ∧
      t.out = s.out ++ if x.val = 27 then [.nocError 27 a] else []) ∧
    ∀ r b, rangeDest s a d.length = some (r, b) →
      (bad ≠ none → Gives s i parts fun t => Dropped s t ∧ Counts 64 kNoBytesCorrected fixed s t) ∧
      (bad = none → Asleep s r b → Gives s i parts (Held s (4 * r + 2 * b2n b))) ∧
      (bad = none → Awake s r b → onDie s a = true → Memory.wf s.mem = true → Gives s i parts fun t => load t a d.length = d ∧
        MemKeeps a d.length s t ∧ Counts 64 kNoBytesCorrected fixed s t ∧ ∃ q, t.noc.inFlight = s.noc.inFlight ++ [q] ∧ q.network = 1 ∧ q.kind = 4 ∧
          q.src = r ∧ q.dst = x.val ∧ q.tenant = tn.val)) ∧
  (∀ (x y : RouterId) (bad : Option RouterId) (fixed : Nat) (s : State), let i := Instr.nocReadData x y bad [] fixed; let j := Instr.nocWriteAck x y bad
    (takeResponse 3 x.val y.val s = none → Idles s i) ∧ (takeResponse 4 x.val y.val s = none → Idles s j) ∧
    (∀ q s1, takeResponse 3 x.val y.val s = some (q, s1) →
      (bad ≠ none → Gives s i parts fun t => Dropped s t ∧ t.noc.inFlight = s1.noc.inFlight) ∧
      (bad = none → Awake s y.val false → q.bank = false → Gives s i parts fun t => Counts 64 kNoBytesCorrected fixed s t ∧
        t.noc.inFlight = s1.noc.inFlight ∧ t.out.getLast? = some (.nocData y.val q.data (!q.bad.isEmpty)) ∧ t.mem = s.mem)) ∧
    (∀ q s1, takeResponse 4 x.val y.val s = some (q, s1) →
      (bad ≠ none → Gives s j parts fun t => Dropped s t ∧ t.noc.inFlight = s1.noc.inFlight) ∧
      (bad = none → Awake s y.val false → q.bank = false → Gives s j parts fun t => t.noc.inFlight = s1.noc.inFlight ∧
        t.out.getLast? = some (.nocAck y.val) ∧ t.mem = s.mem))) ∧
  (∀ (x : DomId) (ok rew : Bool) (s : State), let d := x.val; let k := domTarget s d; let m := domSt s d; let i := Instr.domainExitDone x ok rew
    let amp : Int := stepAmp s d; let asked := ∃ w ∈ s.pow.waits, w.dom = d ∧ w.act = .enter
    let goes := k ≠ 0 ∨ m.granted = true ∨ (¬asked ∧ s.pow.waits = [] ∧ govAdmits s amp = true)
    (m.trans ≠ .exiting → Idles s i) ∧
    (m.trans = .exiting → ¬goes → asked → Idles s i) ∧
    (m.trans = .exiting → ¬goes → ¬asked → Gives s i [.obj, .pow] fun t => domSt t d = m ∧ Counts 64 kPwGovWaits 1 s t ∧
      { dom := d, amp := amp, time := now s, act := .enter } ∈ t.pow.waits) ∧
    (m.trans = .exiting → goes → ok = true ∨ domState s d < 4 → ∃ t, exec i s = .next t ∧ t.pending = s.pending ∧
      domState t d = min k (domDeepest d) ∧ (domSt t d).trans = .none ∧ (domSt t d).granted = false ∧
        fld (rd t (kPdPowerStats d)) 64 64 = (fld (rd s (kPdPowerStats d)) 64 64 + 1) % 2 ^ 64))

/-- Host functions: configuration, its retry before firmware is ready, interrupts, quiescing and resets, and the link (R611, R614, R617 to
R619, R630, R632 to R634, R636). -/
def Obligations.HostFunctions : Prop :=
  let busy := [Part.obj, .pow, .host, .work, .sage, .radio, .noc, .dram, .sram, .mem, .out, .freeCtr]
  let sends := [Part.obj, .host, .out]
  let Clear := fun (s : State) (f : Nat) => maySend s f = true ∧ (fnOf s f).msixEn = true ∧ (fnOf s f).fnMask = false ∧ ∀ w ∈ s.host.waits, w.1 ≠ f
  let Quiet := fun (f : Nat) (s t : State) => (∀ n < 16, (qpOf t f n).state = if (qpOf s f n).state = .disabled then .disabled else .quiesced) ∧
    (∀ e ∈ t.host.tags, e.fn = f → e.fenced = true) ∧ ∀ w ∈ t.host.waits, w.1 ≠ f
  (∀ (fn : TenantId) (c : CfgWrite) (b : Bool) (keep : Fin 512) (s : State), s.boot.fwReady = false →
    let Retry := fun (f : Nat) (i : Instr) => exec i s = .next (if d0Runs s then send (.configRetry f) s else s)
    (∀ i ∈ [Instr.msixUnmask fn .enable, .msixUnmask fn .functionMask, .flrStart fn, .busMasterDisable fn b, .busMasterEnable fn b,
      .configWrite fn c], Retry fn.val i) ∧ Retry 0 (.vfDisable b keep)) ∧
  (∀ (fn : TenantId) (s : State), let f := fn.val
    let Sent := fun (t : State) => ∀ v < 32, (vectorOf s f v).pending = true → (vectorOf s f v).masked = false → .msix f v ∈ t.out ∧
      (vectorOf t f v).pending = false
    (∀ v : Fin 32, Gives s (.msixUnmask fn (.vector v)) sends fun t => (vectorOf t f v.val).masked = false ∧
      (Clear s f → (vectorOf s f v.val).pending = true → .msix f v.val ∈ t.out ∧ (vectorOf t f v.val).pending = false) ∧
      (maySend s f = false ∨ (fnOf s f).msixEn = false ∨ (fnOf s f).fnMask = true → t.out = s.out ∧
        vectorOf t f v.val = { vectorOf s f v.val with masked := false })) ∧
    (s.boot.fwReady = true → Gives s (.msixUnmask fn .enable) sends fun t => (fnOf t f).msixEn = true ∧
      (maySend s f = true → (fnOf s f).fnMask = false → (∀ w ∈ s.host.waits, w.1 ≠ f) → Sent t)) ∧
    (s.boot.fwReady = true → Gives s (.msixUnmask fn .functionMask) sends fun t => (fnOf t f).fnMask = false ∧
      (maySend s f = true → (fnOf s f).msixEn = true → (∀ w ∈ s.host.waits, w.1 ≠ f) → Sent t))) ∧
  (∀ (fn : TenantId) (qp : Option QpId) (s : State), let f := fn.val; let i := Instr.interruptModTimer fn qp
    let md := match qp with | some n => (qpOf s f n.val).mod | none => (fnOf s f).eq.mod
    let since := match qp with | some n => (qpOf s f n.val).modSince | none => (fnOf s f).eq.modSince
    let vec := match qp with | some n => fld (qpOf s f n.val).cfg 16 5 | none => fld (fnOf s f).eq.cfg 8 5
    let due := fld md 8 16 ≠ 0 ∧ ∃ t0, since = some t0 ∧ t0 + usToTc (fld md 8 16) ≤ now s
    (¬due → Idles s i) ∧
    (due → Gives s i sends fun t => (match qp with
        | some n => qpOf t f n.val = { qpOf s f n.val with modCount := 0, modSince := none }
        | none => (fnOf t f).eq = { (fnOf s f).eq with modCount := 0, modSince := none }) ∧
      (Clear s f → (vectorOf s f vec).masked = false → t.out = s.out ++ [.msix f vec]) ∧
      (maySend s f = false ∨ (fnOf s f).msixEn = false ∨ (fnOf s f).fnMask = true ∨ (vectorOf s f vec).masked = true →
        t.out = s.out ∧ (vectorOf t f vec).pending = true))) ∧
  (∀ (fn : TenantId) (s : State), let f := fn.val
    (s.boot.fwReady = true → (fnOf s f).flr ≠ none → Idles s (.flrStart fn)) ∧
    (s.boot.fwReady = true → (fnOf s f).flr = none → Gives s (.flrStart fn) busy fun t => (fnOf t f).flr = some (now s) ∧ Quiet f s t) ∧
    ((fnOf s f).flr = none → Idles s (.flrDone fn)) ∧
    ((fnOf s f).flr ≠ none → Gives s (.flrDone fn) (.dict :: busy) fun t => Counts 64 (kHoHostStats 5) 1 s t ∧ (fnOf t f).flr = none ∧
      (fnOf t f).bme = false ∧ (fnOf t f).enabled = (fnOf s f).enabled ∧
      (f ≠ 0 → (∀ n, qpOf t f n = qpReset n) ∧ (fnOf t f).msixEn = false ∧ (fnOf t f).ats = false ∧ (fnOf t f).mps = 128 ∧ Counts 64 (kHoHostStats 11) (heldEntries s f) s t) ∧
      (f = 0 → t.host.vfEnable = false ∧ ∀ v, 1 ≤ v → v < 512 → (fnOf t v).enabled = false))) ∧
  (∀ (how : ConvReset) (s : State), (d0Runs s = false → Idles s (.conventionalReset how)) ∧
    (d0Runs s = true → Gives s (.conventionalReset how) (.dict :: busy) fun t => rd t kHoLinkState = 0 ∧ rd t kHoSpeed = 0 ∧ rd t kHoWidth = 0 ∧
      rd t kHoCxlActive = 0 ∧ Counts 64 (kHoHostStats 7) 1 s t ∧ t.host.vfEnable = false ∧ (fnOf t 0).bme = false ∧
        ∀ v, 1 ≤ v → v < 512 → (fnOf t v).enabled = false)) ∧
  (∀ (fn : TenantId) (s : State), let f := fn.val; s.boot.fwReady = true →
    ((fnOf s f).d3hot = true → Idles s (.busMasterDisable fn true)) ∧
    ((fnOf s f).d3hot = false → Gives s (.busMasterDisable fn true) busy fun t => (fnOf t f).d3hot = true ∧ Quiet f s t) ∧
    ((fnOf s f).bme = false → Idles s (.busMasterDisable fn false)) ∧
    ((fnOf s f).bme = true → Gives s (.busMasterDisable fn false) (.dict :: busy) fun t => (fnOf t f).bme = false ∧
      Counts 64 (kHoHostStats 6) 1 s t ∧ Quiet f s t) ∧
    ∀ d0 : Bool, let r := fnOf s f; let on := if d0 then { r with d3hot := false } else { r with bme := true }
      Gives s (.busMasterEnable fn d0) sends fun t => (fnOf t f).bme = on.bme ∧ (fnOf t f).d3hot = on.d3hot ∧
        (on.bme = false ∨ on.d3hot = true ∨ on.flr ≠ none → fnOf t f = on ∧ t.out = s.out)) ∧
  (∀ (keep : Fin 512) (s : State), s.boot.fwReady = true →
    (Gives s (.vfDisable true keep) (.dict :: busy) fun t => t.host.vfEnable = false ∧ ∀ v, 1 ≤ v → v < 512 → (fnOf t v).enabled = false) ∧
    (s.host.vfEnable = false ∨ s.host.numVfs ≤ keep.val → Idles s (.vfDisable false keep)) ∧
    (s.host.vfEnable = true → keep.val < s.host.numVfs → Gives s (.vfDisable false keep) (.dict :: busy) fun t => t.host.numVfs = keep.val ∧
      t.host.vfEnable = true ∧ ∀ v < 512, (fnOf t v).enabled = ((fnOf s v).enabled && decide (v ≤ keep.val)))) ∧
  (∀ (fn : TenantId) (s : State), let f := fn.val; let r := fnOf s f
    s.boot.fwReady = true →
    let To := fun (c : CfgWrite) (r' : FnSt) => Gives s (.configWrite fn c) [.host] fun t => fnOf t f = r' ∧ ∀ g, g ≠ f → fnOf t g = fnOf s g
    (f ≠ 0 ∨ s.host.vfEnable = true → Idles s (.configWrite fn .vfEnable) ∧ ∀ n, Idles s (.configWrite fn (.numVfs n))) ∧
    (f = 0 → s.host.vfEnable = false →
      (Gives s (.configWrite fn .vfEnable) [.host] fun t => t.host.vfEnable = true ∧ ∀ v < 512,
        (fnOf t v).enabled = ((fnOf s v).enabled || decide (1 ≤ v ∧ v ≤ s.host.numVfs))) ∧
      ∀ n, Gives s (.configWrite fn (.numVfs n)) [.host] fun t => t.host.numVfs = n.val ∧ t.host.fns = s.host.fns) ∧
    (∀ b, (Gives s (.configWrite fn (.ats b)) sends fun t => (fnOf t f).ats = b) ∧ (Gives s (.configWrite fn (.tag10 b)) sends fun t => (fnOf t f).tag10 = b) ∧
      (Gives s (.configWrite fn (.tagExt b)) sends fun t => (fnOf t f).tagExt = b) ∧ (f ≠ 0 → Idles s (.configWrite fn (.hdm b))) ∧
      (f = 0 → Gives s (.configWrite fn (.hdm b)) [.host] fun t => t.host = { s.host with hdm := b })) ∧
    (∀ v, To (.timeout v) { r with cto := v.toNat }) ∧ (∀ k, To (.payload k) { r with mps := 128 * 2 ^ k.val }) ∧
    (∀ k, To (.readRequest k) { r with mrrs := 128 * 2 ^ k.val }) ∧ To .msixOff { r with msixEn := false } ∧ To .functionMask { r with fnMask := true }) ∧
  (∀ (gen : Fin 6) (w : Fin 17) (cxl : Bool) (s : State), let events := [Part.obj, .host, .dict, .out]
    let fits := gen ≠ 0 ∧ (w.val = 4 ∨ w.val = 8 ∨ w.val = 16); let st := rd s kHoLinkState
    let Now := fun (t : State) => rd t kHoLinkState = 1 ∧ rd t kHoSpeed = gen.val ∧ rd t kHoWidth = w.val
    (¬(d0Runs s = true ∧ st = 0 ∧ fits) → Idles s (.linkUp gen w cxl)) ∧
    (d0Runs s = true → st = 0 → fits → Gives s (.linkUp gen w cxl) events fun t => Now t ∧
      rd t kHoCxlActive = if bitAt s.boot.straps 3 && cxl && gen == 5 then 1 else 0) ∧
    (¬((st = 1 ∨ st = 4) ∧ fits) → Idles s (.speedChange gen w)) ∧
    (st = 1 ∨ st = 4 → fits → Gives s (.speedChange gen w) events fun t => Now t ∧ rd t kHoCxlActive = rd s kHoCxlActive) ∧
    (st ≠ 1 → st ≠ 2 → Idles s .pmeTurnOff) ∧
    (st = 1 ∨ st = 2 → Gives s .pmeTurnOff [.obj] fun t => rd t kHoLinkState = 3 ∧ Keeps [kHoLinkState] s t))

/-- Queue and register accesses of a function, completions of host reads, translations, BAR4 and CXL.mem (R41, R613, R615, R616, R621,
R623, R625, R629, R631, R635). What a hole reads over CXL.mem is free (log 9). -/
def Obligations.HostRegistersAndReads : Prop :=
  let sends := [Part.obj, .host, .out]
  let access := [Part.obj, .pow, .host, .dict, .noc, .dram, .sram, .mem, .out]
  let Logged := fun (f : Nat) (s t : State) => (fnOf t f).aeCount = min ((fnOf s f).aeCount + 1) (2 ^ 32 - 1) ∧ bitAt (fnOf t f).aeLog 31 = true ∧
    ∀ n, qpOf t f n = qpOf s f n
  let Denied := fun (f : Nat) (s t : State) => Counts 64 kHoAeTotal 1 s t ∧ Counts 64 (kHoHostStats 8) 1 s t ∧
    t.out = s.out ++ [.completerAbort f]
  (∀ (fn : TenantId) (qp : QpId) (s : State), let f := fn.val; let n := qp.val; let q := qpOf s f n; let sq := fld q.cfg 0 5; let cq := fld q.cfg 8 5
    let fits := fun (base bytes : Nat) => base % 64 = 0 ∧ base + bytes ≤ 0xFF00000000000
    let ok := fits q.sqBase (64 * 2 ^ sq) ∧ fits q.cqBase (32 * 2 ^ cq) ∧ 4 ≤ sq ∧ sq ≤ 12 ∧ 4 ≤ cq ∧ cq ≤ 16
    (q.state ≠ .disabled → Idles s (.qpEnable fn qp)) ∧
    (q.state = .disabled → ¬ok → Gives s (.qpEnable fn qp) [.host] fun t => QpsKeep f n s t ∧ qpOf t f n = { q with cause := 1 }) ∧
    (q.state = .disabled → ok → Gives s (.qpEnable fn qp) [.host] fun t => QpsKeep f n s t ∧ qpOf t f n = { q with
      state := .enabled, enable := true, cause := 0, sqHead := 0, sqTail := 0, cqTail := 0, cqHead := 0, phase := true, visible := [], fetching := none,
      held := [], cqStall := false, modCount := 0, modSince := none }) ∧
    (q.state = .disabled ∨ q.state = .draining → Idles s (.qpDisable fn qp)) ∧
    (q.state = .quiesced → Gives s (.qpDisable fn qp) [.host] fun t => QpsKeep f n s t ∧ qpOf t f n =
      { q with state := .disabled, enable := false, held := [] }) ∧
    (q.state = .enabled ∨ q.state = .error → Gives s (.qpDisable fn qp) [.host] fun t => QpsKeep f n s t ∧
      let drained := q.visible = [] ∧ q.fetching = none ∧ q.held = [] ∧ ∀ g ∈ s.work.graphs, ¬(g.tenant = f ∧ g.qp = n)
      qpOf t f n = { q with state := if drained then .disabled else .draining, enable := false })) ∧
  (∀ (fn : TenantId) (s : State), let f := fn.val; let q := (fnOf s f).eq; let lg := fld q.cfg 0 5
    let ok := q.base % 64 = 0 ∧ q.base + 32 * 2 ^ lg ≤ 0xFF00000000000 ∧ 4 ≤ lg ∧ lg ≤ 16
    (q.enable = true → Idles s (.eqEnable fn)) ∧ (q.enable = false → ¬ok → Gives s (.eqEnable fn) [.host] fun t => Logged f s t ∧ (fnOf t f).eq = q) ∧
    (q.enable = false → ok → q.lost = 0 → Gives s (.eqEnable fn) [.host] fun t =>
      (fnOf t f).eq = { q with enable := true, head := 0, tail := 0, phase := true, modCount := 0, modSince := none }) ∧
    (q.enable = false → ok → q.lost ≠ 0 → Gives s (.eqEnable fn) sends fun t => let u := (fnOf t f).eq
      u.enable = true ∧ u.head = 0 ∧ u.tail = 1 ∧ u.phase = true ∧ u.lost = 0 ∧ u.base = q.base ∧ u.cfg = q.cfg) ∧
    (Gives s (.eqDisable fn) [.host] fun t => (fnOf t f).eq = { q with enable := false }) ∧
    (Gives s (.aeLogClear fn) [.host] fun t => fnOf t f = { fnOf s f with aeLog := 0 }) ∧
    ∀ v : Word, let idx := v.toNat % 65536
      (eqSize q ≤ idx → Gives s (.eqHead fn 15 v) [.host] fun t => Logged f s t ∧ (fnOf t f).eq = q) ∧
      (idx < eqSize q → q.enable = false ∨ q.lost = 0 → Gives s (.eqHead fn 15 v) [.host] fun t => (fnOf t f).eq = { q with head := idx }) ∧
      (idx < eqSize q → q.enable = true → q.lost ≠ 0 → Gives s (.eqHead fn 15 v) sends fun t => let u := (fnOf t f).eq
        if (q.tail + 1) % eqSize q = idx then u = { q with head := idx } ∧ t.out = s.out
        else u.head = idx ∧ u.tail = (q.tail + 1) % eqSize q ∧ u.lost = 0)) ∧
  (∀ (fn : TenantId) (ofs : BitVec 14) (be : BitVec 4) (v : Word) (s : State), be.toNat ∈ [5, 9, 10, 11, 13] →
    ∀ i ∈ [Instr.eqHead fn be v, .counterLoRead fn ofs be, .registerWrite fn ofs be v], Gives s i sends fun t =>
      Logged fn.val s t ∧ Denied fn.val s t ∧ (fnOf t fn.val).eq = (fnOf s fn.val).eq) ∧
  (∀ (fn : TenantId) (ofs : BitVec 14) (s : State), let f := fn.val; let o := 4 * ofs.toNat; let hiNow := now s / 2 ^ 32 % 2 ^ 32
    Gives s (.counterLoRead fn ofs 15) [.host, .out] fun t => t.out = s.out ++ [.readData f (toBytes 4 (regRead s f o)) false] ∧
      (o = 0 → regRead s f o = 0x6412B101) ∧
      (o = 0x10 → regRead s f o = now s % 2 ^ 32 ∧ (fnOf t f).dtcLatch = some hiNow) ∧
      (o = 0x14 → regRead s f o = (fnOf s f).dtcLatch.getD hiNow) ∧
      (∀ n < 16, (o = 0x1030 + 0x100 * n → qpOf t f n = { qpOf s f n with latSubmitted := some ((qpOf s f n).submitted / 2 ^ 32 % 2 ^ 32) }) ∧
        (o = 0x1038 + 0x100 * n → qpOf t f n = { qpOf s f n with latCompleted := some ((qpOf s f n).completed / 2 ^ 32 % 2 ^ 32) })) ∧
      (o ≠ 0x10 → o < 0x1000 ∨ 0x2000 ≤ o → t.host = s.host)) ∧
  (∀ (fn : TenantId) (ofs : BitVec 14) (v : Word) (s : State), let f := fn.val; let o := 4 * ofs.toNat; let i := Instr.registerWrite fn ofs 15 v
    let r := fnOf s f; let x := v.toNat
    (o ∈ [0x000, 0x004, 0x008, 0x010, 0x014, 0x034, 0x044, 0x5000, 0x800C, 0x8010, 0x8014] → Idles s i) ∧
    (o = 0x02C → exec i s = exec (if x % 2 = 1 then .eqEnable fn else .eqDisable fn) s) ∧ (o = 0x030 → exec i s = exec (.eqHead fn 15 v) s) ∧
    (o = 0x040 → if bitAt x 31 then exec i s = exec (.aeLogClear fn) s else Idles s i) ∧ (o = 0x8000 → exec i s = exec (.mailboxGo fn 15 v) s) ∧
    (o = 0x8004 → if bitAt x 1 then Gives s i [.host] fun t => fnOf t f = { r with mbox := { r.mbox with done := false } } else Idles s i) ∧
    (o = 0x038 → Gives s i [.host] fun t => (fnOf t f).eq = { r.eq with mod := x % 2 ^ 24 }) ∧
    (o = 0x020 → r.eq.enable = false → Gives s i [.host] fun t => (fnOf t f).eq = { r.eq with base := r.eq.base / 2 ^ 32 * 2 ^ 32 + x / 64 * 64 }) ∧
    (o = 0x024 → r.eq.enable = false → Gives s i [.host] fun t => (fnOf t f).eq = { r.eq with base := x * 2 ^ 32 + r.eq.base % 2 ^ 32 }) ∧
    (o ∈ [0x020, 0x024, 0x028] → r.eq.enable = true → Gives s i [.host] fun t => Logged f s t ∧ (fnOf t f).eq = r.eq) ∧
    (∀ n < 16, let q := qpOf s f n; let b := 0x1000 + 0x100 * n
      (o ∈ [b, b + 4, b + 8, b + 12, b + 16] → q.state ≠ .disabled → Gives s i [.host] (Logged f s)) ∧
      (o = b → q.state = .disabled → Gives s i [.host] fun t => QpsKeep f n s t ∧
        qpOf t f n = { q with sqBase := q.sqBase / 2 ^ 32 * 2 ^ 32 + x / 64 * 64 }) ∧
      (o = b + 4 → q.state = .disabled → Gives s i [.host] fun t => QpsKeep f n s t ∧ qpOf t f n = { q with sqBase := x * 2 ^ 32 + q.sqBase % 2 ^ 32 }) ∧
      (o = b + 8 → q.state = .disabled → Gives s i [.host] fun t => QpsKeep f n s t ∧
        qpOf t f n = { q with cqBase := q.cqBase / 2 ^ 32 * 2 ^ 32 + x / 64 * 64 }) ∧
      (o = b + 12 → q.state = .disabled → Gives s i [.host] fun t => QpsKeep f n s t ∧ qpOf t f n = { q with cqBase := x * 2 ^ 32 + q.cqBase % 2 ^ 32 }) ∧
      (o = b + 20 → Gives s i [.host] fun t => QpsKeep f n s t ∧ qpOf t f n = { q with mod := x % 2 ^ 24 }) ∧
      (o = b + 24 → exec i s = exec (if x % 2 = 1 then .qpEnable fn (Fin.ofNat 16 n) else .qpDisable fn (Fin.ofNat 16 n)) s)) ∧
    (∀ n < 32, o = 0x4000 + 16 * n + 8 → (vectorOf s f n).data < 2 ^ 32 → Gives s i [.host] fun t => vectorOf t f n = { vectorOf s f n with data := x } ∧
      ∀ k, k ≠ n → vectorOf t f k = vectorOf s f k) ∧
    (0x9000 ≤ o → o < 0xB000 → Gives s i [.host] fun t => regRead t f o = x ∧
      ∀ k, 0x9000 ≤ k → k < 0xB000 → k % 4 = 0 → k ≠ o → regRead t f k = regRead s f k)) ∧
  (∀ (fn : TenantId) (tag : Fin 1024) (s : State), let f := fn.val
    let Freed := fun (e : TagEnt) (u : State) => u.host.tags = s.host.tags.filter (· != e)
    let waitNs := fun (k : Nat) => (tfind k [(1, 50000), (2, 1000000), (5, 16000000), (6, 65000000), (9, 260000000), (10, 1000000000),
      (13, 4000000000), (14, 17000000000)]).getD 50000000
    (tagEnt s f tag.val = none → (∀ a, Idles s (.hostReadCompletion fn tag a)) ∧ Idles s (.completionTimeout fn tag)) ∧
    ∀ e, tagEnt s f tag.val = some e → let due := e.issued + nsToTc (waitNs (fnOf s f).cto) ≤ now s
      (forTranslation e = true → ∀ a, Idles s (.hostReadCompletion fn tag a)) ∧
      (forTranslation e = false → ∀ l, ∃ u, exec (.hostReadCompletion fn tag (.data l)) s = .next (readsGoOn u) ∧ Freed e u ∧
        (e.fenced = true → Counts 64 (kHoHostStats 4) 1 s u ∧ u.host.reads = s.host.reads) ∧
        (e.fenced = false → ∀ o, readOp s e.use = some o → readOp u e.use =
          some { o with data := o.data ++ padTo e.len l, addr := o.addr + e.len, left := o.left - e.len })) ∧
      (forTranslation e = false → e.fenced = false → ∀ a k x, (a, k, x) ∈ [(ReadAnswer.unsupported, 1, ReadFail.unsupported), (.abort, 2, .abort),
          (.poisoned, 3, .poisoned)] → ∃ u, exec (.hostReadCompletion fn tag a) s = .next (readsGoOn u) ∧ Freed e u ∧ Counts 64 (kHoHostStats k) 1 s u ∧
        ∀ o, readOp s e.use = some o → readOp u e.use = some { o with failed := some x }) ∧
      (¬due → Idles s (.completionTimeout fn tag)) ∧
      (due → ∃ u, exec (.completionTimeout fn tag) s = .next (readsGoOn (hostLinkEvent 6 f tag.val u)) ∧ Counts 64 (kHoHostStats 0) 1 s u ∧
        (forTranslation e = false → Freed e u ∧ (e.fenced = false → ∀ o, readOp s e.use = some o → readOp u e.use = some { o with failed := some .timeout })))) ∧
  (∀ (fn : TenantId) (page : BitVec 52) (tg : Option (BitVec 52)) (s : State), let f := fn.val; let p := page.toNat; let i := Instr.translationCompletion fn page tg
    ((∀ e ∈ s.host.tags, e.use ≠ .translation f p) → Idles s i) ∧
    ∀ e, s.host.tags.find? (fun e => e.use == .translation f p) = some e →
      (e.fenced = true → ∃ u, exec i s = .next (readsGoOn u) ∧ Counts 64 (kHoHostStats 4) 1 s u ∧ u.host.tcache = s.host.tcache) ∧
      (e.fenced = false → ∀ b, tg = some b → ∃ u, exec i s = .next (readsGoOn (flushWaits f u)) ∧
        u.host.tcache.head? = some { fn := f, page := p, target := b.toNat } ∧ u.host.tcache.length ≤ 4096 ∧ u.host.tags = s.host.tags.filter (· != e)) ∧
      (e.fenced = false → tg = none → exec i s = .next (readsGoOn (translationFailed f p (freeTagEnt e (bump (kHoHostStats 1) s)))))) ∧
  (∀ (fn : TenantId) (page : BitVec 52) (log2 : Fin 53) (s : State), let n := 2 ^ log2.val; let first := page.toNat / n * n
    let used := ∃ e ∈ s.host.tags, e.fn = fn.val ∧ first ≤ e.addr / 4096 ∧ e.addr / 4096 < first + n
    Gives s (.atsInvalidate fn page log2) sends fun t => Counts 64 (kHoHostStats 10) 1 s t ∧
      (∀ e, e ∈ t.host.tcache ↔ e ∈ s.host.tcache ∧ ¬(e.fn = fn.val ∧ first ≤ e.page ∧ e.page < first + n)) ∧
      (¬used → .invalidateDone fn.val first ∈ t.out) ∧ (used → (fn.val, first, n) ∈ t.host.invalidating)) ∧
  (∀ (ofs : BitVec 30) (len : Fin 4097) (data : Option (List Byte)) (s : State), let a := (fnOf s 0).bar4Base + ofs.toNat; let i := Instr.bar4Access ofs len data
    let n := match data with | some l => l.length | none => len.val
    (n = 0 → Idles s i) ∧ (0 < n → bar4Reaches s a n = false → Gives s i [.obj, .out] (Denied 0 s)) ∧
    (0 < n → bar4Reaches s a n = true → exec i s = .next (hostAccess 1 a n data s) ∧ ∀ r, destOf s a = some (r, true) →
      domAsleep s (44 + bankQuad r) = false → (∀ k p, (domSt s (44 + bankQuad r)).trans ≠ .entering k p) →
        (data = none → Gives s i access fun t => t.mem = s.mem ∧ ∃ bad, t.out.getLast? = some (.readData 0 (load s a n) bad) ∧
          (bad = true ↔ ∃ k < n, rangePoisoned s (a + k) 1 = true)) ∧
        ∀ l, data = some l → Memory.wf s.mem = true → Gives s i access fun t => load t a n = l ∧ MemKeeps a n s t)) ∧
  (∀ (dpa : BitVec 40) (len : Fin 65) (data : Option (List Byte)) (s : State), let a := dramBase + dpa.toNat; let i := Instr.cxlMemRequest dpa len data
    let n := match data with | some l => l.length | none => len.val
    let on := rdB s kHoCxlActive = true ∧ s.host.hdm = true; let in_ := regionOf s a = .dram ∧ regionOf s (a + n - 1) = .dram
    (¬on → Idles s i) ∧ (on → in_ → exec i s = .next (hostAccess 2 a n data s)) ∧
    (on → ¬in_ → data ≠ none → Gives s i [.obj] fun t => Counts 64 kHoAeTotal 1 s t ∧ Counts 64 (kHoHostStats 8) 1 s t) ∧
    (on → ¬in_ → data = none → Gives s i [.obj, .out, .freeCtr] fun t => Counts 64 kHoAeTotal 1 s t ∧
      ∃ l, t.out = s.out ++ [.readData 0 l true])) ∧
  (∀ (line : BitVec 52) (s : State), let a := line.toNat / 64 * 64
    ((∀ e ∈ s.host.lines, e.1 ≠ a) → Idles s (.cxlSnoop line)) ∧
    ((∃ e ∈ s.host.lines, e.1 = a) → Gives s (.cxlSnoop line) [.host, .out] fun t => t.out = s.out ++ [.snoopHit a] ∧
      ∀ e, e ∈ t.host.lines ↔ e ∈ s.host.lines ∧ e.1 ≠ a))

/-- Messages of the dictionary protocol on CAN FD, on UDP and in the mailbox: reads, writes, segmented transfers, aborts (R640, R645,
R646, R649 to R659). -/
def Obligations.DictionaryMessages : Prop :=
  let all := [Part.obj, .text, .tim, .pow, .boot, .host, .dict, .work, .sage, .radio, .links, .noc, .dram, .sram, .mem, .out, .freeCtr]
  let stat := kDyPdpStats
  (∀ (v : PdpVia) (l : List Byte) (s : State), let f := fieldAt l 0 1
    (f ≠ 2 → Idles s (.write v l)) ∧ (f ≠ 3 → Idles s (.readSeg v l)) ∧ (f ≠ 4 → Idles s (.writeSeg v l)) ∧ (f ≠ 6 → Idles s (.abort v l)) ∧
    (f ∈ [2, 3, 4, 6] → Idles s (.read v l)) ∧
    (∀ i, (i, f) ∈ [(Instr.write v l, 2), (.readSeg v l, 3), (.writeSeg v l, 4), (.abort v l, 6), (.read v l, 1)] →
      (∀ id fd, v = .can id fd → (canServes s = false ∨ id.toNat ≠ 0x400 + canNode s → Idles s i) ∧
        (canServes s = true → id.toNat = 0x400 + canNode s → fd = false ∨ l.length < 8 →
          Gives s i [.obj] fun t => Counts 64 (stat 2) 1 s t ∧ Keeps [stat 2] s t)) ∧
      (∀ p, v = .udp p → (mgmtUp s = false ∨ rdB s kDyUdpEnable = false → Idles s i) ∧
        (mgmtUp s = true → rdB s kDyUdpEnable = true → (l.length < 8 ∨ udpAllowed s p.toNat = false →
            Gives s i [.obj] fun t => Counts 64 (stat 6) 1 s t ∧ Keeps [stat 6] s t) ∧
          ∀ r, 8 ≤ l.length → udpAllowed s p.toNat = true → storedAnswer s p.toNat l = some r →
            exec i s = .next { s with out := s.out ++ [.pdp 1 p.toNat r] })))) ∧
  (∀ (id : BitVec 11) (tid idx sub : Nat) (s : State), canServes s = true → loaderUp s = false → id.toNat = 0x400 + canNode s → tid < 256 →
    idx < 65536 → sub < 1024 →
    let u := bump (stat 0) s; let v := PdpVia.can id true; let node := 0x480 + canNode s
    let Say := fun (fn flags : Nat) (pay : List Byte) (w : State) => { w with out := w.out ++ [.pdp 0 node (canPad (pdpMsg (0x80 + fn) tid idx sub flags pay))] }
    let Abort_ := fun (a : Abort) (w : State) => Say 6 0 (toBytes 4 a.code) (bump (stat 1) w)
    let mine := fun (g : SegXfer) => g.transport = 0 ∧ g.peer = 0 ∧ g.tid = tid
    let Open := fun (write : Bool) (total : Nat) (data : List Byte) (t : State) => (∀ g ∈ t.dict.segs, mine g → g.write = write ∧ g.idx = idx ∧
      g.sub = sub ∧ g.total = total ∧ g.data = data ∧ g.last = now s) ∧ ∃ g ∈ t.dict.segs, mine g
    let Closed := fun (t : State) => ∀ g, g ∈ t.dict.segs ↔ g ∈ s.dict.segs ∧ ¬mine g
    let busy := 4 ≤ (s.dict.segs.filter fun g => g.transport == 0 && g.peer == 0 && g.tid != tid).length
    (∀ i, i = Instr.read v (pdpMsg 1 tid idx sub 0 []) →
      (∀ l, readObject u none idx sub = .ok l → exec i s = .next (if l.length ≤ 56 then Say 1 0 l u else Abort_ .segmentedRequired u)) ∧
      ∀ a, readObject u none idx sub = .error a → exec i s = .next (Abort_ a u)) ∧
    (∀ pay : List Byte, pay.length ≤ 56 → idx ≠ 0xF000 → (idx, sub) ≠ (0x0200, 1) → (idx, sub) ≠ (0x5400, 3) →
      let i := Instr.write v (pdpMsg 2 tid idx sub 0 pay)
      (∀ w, writeObject none idx sub pay u = (none, w) → exec i s = .next (Say 2 0 [] w)) ∧
      (∀ a w, writeObject none idx sub pay u = (some a, w) → exec i s = .next (Abort_ a w)) ∧
      ∀ r, writeGate u none idx sub (some pay.length) = .ok r → ownWrite idx sub (ofBytes pay) pay = none → writeHeld u idx sub = false →
        r.ty ≠ .text → r.ty ≠ .loc → inRow r sub (ofBytes pay) = true → rangeExtra u idx sub (ofBytes pay) = true →
        Gives s i all fun t => rd t (okey idx sub) = ofBytes pay) ∧
    (∀ ofs want : Nat, ofs < 2 ^ 32 → want < 2 ^ 32 → let i := Instr.readSeg v (pdpMsg 3 tid idx sub 0 (toBytes 4 ofs ++ toBytes 4 want))
      let lim := if want = 0 then 52 else min want 52
      let Part_ := fun (l : List Byte) => let p := slice l ofs lim; let done_ : Bool := ofs + p.length == l.length
        Gives s i [.obj, .dict, .out] fun t => t.out = (Say 3 (b2n done_) (toBytes 4 l.length ++ p) s).out ∧ Counts 64 (stat 0) 1 s t ∧
          if done_ then Closed t else Open false l.length l t
      (∀ l, ofs = 0 → readObject u none idx sub = .ok l → ¬busy → Part_ l) ∧
      (∀ l, ofs = 0 → readObject u none idx sub = .ok l → busy → exec i s = .next (Abort_ .busy u)) ∧
      (∀ g, ofs ≠ 0 → s.dict.segs.find? (fun g => g.transport == 0 && g.peer == 0 && g.tid == tid) = some g →
        (g.write = false → g.idx = idx → g.sub = sub → ofs ≤ g.total → Part_ g.data) ∧
        (g.write = true ∨ g.idx ≠ idx ∨ g.sub ≠ sub ∨ g.total < ofs → exec i s = .next (Abort_ .sequence u))) ∧
      (ofs ≠ 0 → (∀ g ∈ s.dict.segs, ¬mine g) → exec i s = .next (Abort_ .sequence u))) ∧
    (∀ (total ofs : Nat) (d : List Byte), total < 2 ^ 32 → ofs < 2 ^ 32 → d.length ≤ 48 → idx ≠ 0xF000 → (idx, sub) ≠ (0x0200, 1) →
      (idx, sub) ≠ (0x5400, 3) → let i := Instr.writeSeg v (pdpMsg 4 tid idx sub 0 (toBytes 4 total ++ toBytes 4 ofs ++ d))
      let More := fun (l : List Byte) =>
        (l.length < total → Gives s i [.obj, .dict, .out] fun t => t.out = (Say 4 0 (toBytes 4 l.length) s).out ∧ Open true total l t) ∧
        (l.length = total → ∀ w, writeObject none idx sub l { u with dict := { u.dict with segs := s.dict.segs.filter fun g =>
            !(g.transport == 0 && g.peer == 0 && g.tid == tid) } } = (none, w) → exec i s = .next (Say 4 1 (toBytes 4 total) w)) ∧
        (total < l.length → Gives s i [.obj, .dict, .out] fun t => t.out = (Abort_ .sequence s).out ∧ Closed t)
      (∀ r, ofs = 0 → writeGate u none idx sub none = .ok r → ¬busy → More d) ∧
      (∀ a, ofs = 0 → writeGate u none idx sub none = .error a → exec i s = .next (Abort_ a u)) ∧
      (∀ g, ofs ≠ 0 → s.dict.segs.find? (fun g => g.transport == 0 && g.peer == 0 && g.tid == tid) = some g →
        (g.write = true → g.idx = idx → g.sub = sub → g.total = total → ofs = g.data.length → More (g.data ++ d)) ∧
        (g.write = false ∨ g.idx ≠ idx ∨ g.sub ≠ sub ∨ g.total ≠ total ∨ ofs ≠ g.data.length →
          Gives s i [.obj, .dict, .out] fun t => t.out = (Abort_ .sequence s).out ∧ Closed t)) ∧
      (ofs ≠ 0 → (∀ g ∈ s.dict.segs, ¬mine g) → exec i s = .next (Abort_ .sequence u))) ∧
    ∀ pay : List Byte, pay.length = 4 → Gives s (.abort v (pdpMsg 6 tid idx sub 0 pay)) [.obj, .dict] fun t => Closed t ∧ Counts 64 (stat 0) 1 s t) ∧
  (∀ (tr : Fin 3) (peer : BitVec 144) (tid : Byte) (s : State), let p := if tr.val = 0 then 0 else peer.toNat
    let mine := fun (g : SegXfer) => g.transport == tr.val && g.peer == p && g.tid == tid.toNat; let i := Instr.segTimeout tr peer tid
    ((∀ g ∈ s.dict.segs, mine g = false) → Idles s i) ∧ ∀ g, s.dict.segs.find? mine = some g →
      (now s - g.last < secToTc 1 → Idles s i) ∧
      (secToTc 1 ≤ now s - g.last → Gives s i [.obj, .dict, .out] fun t => t.dict.segs = s.dict.segs.filter (fun g => !mine g) ∧
        let m := pdpMsg 0x86 g.tid g.idx g.sub 0 (toBytes 4 0x05040000)
        (tr = 0 → t.out = s.out ++ [.pdp 0 (0x480 + canNode s) (canPad m)] ∧ Counts 64 (stat 1) 1 s t) ∧
        (tr = 1 → t.out = s.out ++ [.pdp 1 p m] ∧ Counts 64 (stat 5) 1 s t) ∧ (tr = 2 → t.out = s.out ∧ t.obj = s.obj))) ∧
  (∀ (fn : TenantId) (v : Word) (s : State), let f := fn.val; let m := (fnOf s f).mbox; let ctl := v.toNat / 2 % 64 * 2; let i := Instr.mailboxGo fn 15 v
    (s.boot.fwReady = false → Idles s i) ∧
    (s.boot.fwReady = true → v.toNat % 2 = 0 → Gives s i [.host] fun t => (fnOf t f).mbox = { m with ctrl := ctl }) ∧
    (s.boot.fwReady = true → v.toNat % 2 = 1 → m.busy = true → Gives s i [.host] fun t =>
      (fnOf t f).mbox = { m with ctrl := ctl, goIgnored := min (m.goIgnored + 1) (2 ^ 32 - 1) }) ∧
    (∀ tid idx sub, s.boot.fwReady = true → v = 1 → m.busy = false → m.reqLen = 8 → tid < 256 → idx < 65536 → sub < 1024 →
      m.req = pdpMsg 1 tid idx sub 0 [] → loaderUp s = false →
      let s1 := modFn f (fun r => { r with mbox := { m with ctrl := 0, busy := true, done := false } }) s
      let u := bump (stat 8) s1
      let Gave := fun (l : List Byte) (t : State) => t.out = s.out ∧
        (fnOf t f).mbox = { m with ctrl := 0, busy := false, done := true, rsp := l, rspLen := l.length, doneCount := wrapAdd 32 m.doneCount 1 }
      (f = 0 → ∀ l, readObject u none idx sub = .ok l → l.length ≤ 4096 → Gives s i [.obj, .host] (Gave (pdpMsg 0x81 tid idx sub 0 l))) ∧
      (f ≠ 0 → rdB s kDyMailboxVf = false → Gives s i [.obj, .host] (Gave (pdpMsg 0x86 tid idx sub 0 (toBytes 4 0x06010000)))) ∧
      (f ≠ 0 → rdB s kDyMailboxVf = true → ∀ l, readObject u (some f) idx sub = .ok l → l.length ≤ 4096 →
        Gives s i [.obj, .host] (Gave (pdpMsg 0x81 tid idx sub 0 l)))) ∧
    (∀ be : BitVec 4, be.toNat ∈ [5, 9, 10, 11, 13] → Gives s (.mailboxGo fn be v) [.obj, .host, .out] fun t =>
      t.out = s.out ++ [.completerAbort f] ∧ (fnOf t f).mbox = m) ∧
    Gives s (.mailboxDoneClear fn) [.host] fun t => (fnOf t f).mbox = { m with done := false })

/-- The parameter image, the history, location codes and firmware images as writes of their own, notifications, and the management
ports (R653, R656, R660 to R662, R664 to R668, R678, R682, R709). -/
def Obligations.DictionaryServices : Prop :=
  (∀ (v : Word) (s : State),
    (s.dict.storing ≠ none → Refuses s (.store v) .state) ∧
    (s.dict.storing = none → v.toNat ≠ 0x65766173 ∨ imageFits (persistRecords s) = false → Refuses s (.store v) .range) ∧
    (s.dict.storing = none → v.toNat = 0x65766173 → imageFits (persistRecords s) = true → Gives s (.store v) [.obj, .dict] fun t =>
      t.dict.storing = some (persistRecords s) ∧ rd t kDyStoreState = 1 ∧ Keeps [kDyStoreState] s t ∧ t.dict.copyA = s.dict.copyA ∧
        t.dict.copyB = s.dict.copyB)) ∧
  (∀ (a1 a2 b1 b2 : Bool) (s : State), let i := Instr.storeDone a1 a2 b1 b2; let a := a1 || a2; let b := b1 || b2
    (s.dict.storing = none → Idles s i) ∧
    ∀ l, s.dict.storing = some l → Gives s i [.obj, .host, .dict, .out] fun t => t.dict.storing = none ∧
      t.dict.copyA = { seq := nextSeq s, records := l, valid := a } ∧ t.dict.copyB = { seq := nextSeq s, records := l, valid := b } ∧
      t.dict.image = (if a || b then { seq := nextSeq s, records := l, valid := true } else s.dict.image) ∧
      rd t kDyStoreState = (if a && b then 0 else 2) ∧
      (s.dict.storeReply = some ({ out := .reply 0 }, { out := .reply 0x08000020 }) →
        t.out = s.out ++ [.reply (if a && b then 0 else 0x08000020)])) ∧
  (∀ (v : Word) (s : State), let now_ := { seq := nextSeq s, records := [], valid := true }
    (v.toNat ≠ 0x64616F6C → Refuses s (.restoreDefaults v) .range) ∧
    (v.toNat = 0x64616F6C → Accepts s (.restoreDefaults v) [.dict, .out] fun t => t.dict = { s.dict with copyA := now_, copyB := now_ }) ∧
    (v.toNat ≠ 0x61656C63 → Refuses s (.histClear v) .range) ∧
    (v.toNat = 0x61656C63 → Accepts s (.histClear v) [.dict, .out] fun t => t.dict = { s.dict with history := [] })) ∧
  (∀ (l : List Byte) (s : State), let body := l.drop 32; let i := Instr.imageWrite l
    let ok := 32 ≤ l.length ∧ fieldAt l 0 4 = 0x49504450 ∧ fieldAt l 4 2 = 1 ∧ fieldAt l 12 4 = body.length ∧
      fieldAt l 16 4 = (Config.crc32 body).toNat
    let new := { seq := nextSeq s, records := recordsOf body.length body, valid := true }
    (4194304 < l.length → Refuses s i .length) ∧ (l.length ≤ 4194304 → ¬ok → Refuses s i .image) ∧
    (l.length ≤ 4194304 → ok → Accepts s i [.dict, .out] fun t => t.dict = { s.dict with copyA := new, copyB := new })) ∧
  (∀ (l : List Byte) (w : BitVec 64) (s : State), let x := w.toNat
    (40 < l.length → Refuses s (.locText l) .length) ∧ (l.length ≤ 40 → locParse l = none → Refuses s (.locText l) .locInvalid) ∧
    (∀ y, l.length ≤ 40 → locParse l = some y → Accepts s (.locText l) [.obj, .text, .out] fun t => rd t kDyLocPacked = y ∧
      Keeps [kDyLocPacked] s t ∧ tfind kDyLocText t.text = some (locText y)) ∧
    (locValid x = false → Refuses s (.locPacked w) .locInvalid) ∧
    (locValid x = true → Accepts s (.locPacked w) [.obj, .text, .out] fun t => rd t kDyLocPacked = x ∧ Keeps [kDyLocPacked] s t ∧
      tfind kDyLocText t.text = some (locText x))) ∧
  (∀ (l : List Byte) (good : Bool) (s : State), let m := fwImage l; let i := Instr.firmwareWrite l good; let n := freeSlot s
    let seq := match s.boot.loaded with | some x => wrapAdd 32 x.seq 1 | none => 1
    let Slots := fun (x : Option FwImage) (t : State) => t.boot = { (if n = 0 then { s.boot with slotA := x } else { s.boot with slotB := x }) with
      fwCopyBad := t.boot.fwCopyBad }
    (s.boot.fwReady = false → Refuses s i .notReady) ∧ (s.boot.fwReady = true → fwCheck s m ≠ 2 → Refuses s i .image) ∧
    (s.boot.fwReady = true → fwCheck s m = 2 → (s.boot.running = 0 → n = 1) ∧ (s.boot.running = 1 → n = 0) ∧
      (good = true → Accepts s i [.boot, .out] fun t => Slots (some { m with seq := seq }) t ∧ t.boot.fwCopyBad = false) ∧
      (good = false → Gives s i [.boot, .out] fun t => t.out = s.out ++ [.reply 0x08000020] ∧ Slots none t ∧ t.boot.fwCopyBad = true))) ∧
  (∀ (k : Fin 16) (s : State), let r := rd s (kDyRoute k.val); let tid := tget s.dict.tids 0 0; let i := Instr.notifyInterval k
    (routeDue s k.val = none → Idles s i) ∧
    ∀ v, routeDue s k.val = some v → bitAt r 0 = true ∧ bitAt r 3 = false ∧ (tget s.dict.routes k.val {}).last ≠ some v ∧
      exec i s = .next (routeNotify k.val v s) ∧
      (fld r 1 2 = 0 → v.length ≤ 56 → Gives s i [.obj, .dict] fun t => tfind k.val t.dict.routes = some { last := some v, at_ := now s } ∧
        if s.dict.canQueue.length < 32 then t.dict.canQueue = s.dict.canQueue ++ [canPad (pdpMsg 5 tid (fld r 32 16) (fld r 48 10) 0 v)] ∧ t.obj = s.obj
        else t.dict.canQueue = s.dict.canQueue ∧ Counts 64 kDyNotifyLost 1 s t)) ∧
  (∀ (st : Fin 3) (kind : Fin 4) (up : Bool) (s : State), let run := d0Runs s = true ∧ s.boot.fwReady = true
    let can := d0Runs s = true ∧ rdB s kDyCanEnable = true; let net := run ∧ s.dict.phyUp = true ∧ (kind.val % 2 = 1 ∨ rd s kDyIpv4Addr ≠ 0)
    (¬can → Idles s (.busOff st)) ∧ (can → Gives s (.busOff st) [.obj] fun t => rd t kDyCanState = st.val ∧ Keeps [kDyCanState] s t) ∧
    (¬run → Idles s (.mgmtPhyPoll up)) ∧ (run → Gives s (.mgmtPhyPoll up) [.dict] fun t => t.dict = { s.dict with phyUp := up }) ∧
    (¬net → Idles s (.mgmtHousekeeping kind)) ∧
    (net → Gives s (.mgmtHousekeeping kind) [.out] fun t => t.out = s.out ++ [.housekeeping kind.val]))

/-- Rails, resets and the boot ROM (R607, R671 to R681, R685, R687, R688; Tables 20-2, 20-6 and 20-9). -/
def Obligations.RailsResetsAndBoot : Prop :=
  let everything := [Part.obj, .text, .tim, .pow, .boot, .host, .dict, .work, .sage, .radio, .links, .noc, .dram, .sram, .mem]
  let en := fun (s : State) (n : Nat) => s.boot.pwrEn.getD n false
  let good := fun (s : State) (n : Nat) => s.boot.pgood.getD n false
  let Failed := fun (r wait : Nat) (s t : State) =>
    let recent := (s.tim.stc :: s.boot.railFails).filter fun x => decide (stcSince s x ≤ 600 * 32768)
    t.boot.d0Reset = true ∧ (∀ n, 1 ≤ n → en t n = false ∧ good t n = false) ∧ t.boot.railFault = r ∧ t.boot.cause = 0x07 ∧ deviceState t = 0 ∧
      t.mem = [] ∧ t.work.graphs = [] ∧ t.boot.railFails = recent ∧ t.boot.railsOff = decide (3 ≤ recent.length) ∧
        t.boot.retryAt = some ((s.tim.stc + wait) % 2 ^ 48) ∧ t.tim.stc = s.tim.stc
  let Warm := fun (cause : Nat) (s t : State) => t.boot.d0Reset = true ∧ t.boot.cause = cause ∧ t.boot.start = .warm ∧ t.boot.fwReady = false ∧
    t.boot.straps = s.boot.strapPins ∧ t.boot.pwrEn = s.boot.pwrEn ∧ t.mem = [] ∧ t.work.graphs = [] ∧ t.tim.dtc = dtcPlus s.tim.dtc (slewRemain s) ∧
    t.tim.uptime = s.tim.uptime ∧ rd t kTiState = 3 ∧ rd t kTiCv = rd s kTiCv ∧ rd t kTiHoCv = rd s kTiCv ∧
      ∀ k, k ∉ [kTiState, kTiCv, kTiHoCv, kTiStcK, kTiStcKUnc, kTiTimeQuality, kTiClassNow] → rd t k = objDefault k
  (∀ s : State, let asleep := deviceState s = 8; let due := good s 0 = false ∧ (asleep → s.pow.exit_ ≠ none)
    (¬due → Idles s .vaonPgood) ∧
    (due → Gives s .vaonPgood [.obj, .tim, .pow, .boot] fun t => deviceState t = 0 ∧ Keeps [kPwDeviceState] s t ∧ t.boot.vaon = true ∧
      t.boot.pgood = s.boot.pgood.set 0 true ∧ t.boot.pwrEn = (s.boot.pwrEn.set 0 true).set 1 true ∧ t.boot.straps = s.boot.strapPins ∧
      t.boot.cause = (if asleep then 0x02 else 0x01) ∧ t.pow.exit_ = none ∧ t.tim = { s.tim with uptime := 0 })) ∧
  (∀ (x : Fin 6) (s : State), let r := x.val + 1; let due := en s r = true ∧ good s r = false
    let up := s.boot.pgood.set r true
    (¬due → Idles s (.pgoodRise x)) ∧
    (∀ k, due → 1 ≤ k → k ≤ 6 → en s k = false → (∀ j, 1 ≤ j → j < k → en s j = true) → Gives s (.pgoodRise x) [.boot] fun t =>
      t.boot = { s.boot with pgood := up, pwrEn := s.boot.pwrEn.set k true }) ∧
    (due → (∀ k, 1 ≤ k → k ≤ 6 → en s k = true) →
      let free := s.pow.exit_ = none ∧ (∀ k < 7, en s k = true ∧ up.getD k false = true) ∧ (s.boot.oscOk = true ∨ s.boot.oscFallback = true)
      Gives s (.pgoodRise x) [.boot] fun t => t.boot = { s.boot with pgood := up, d0Reset := t.boot.d0Reset } ∧
        (free → t.boot.d0Reset = false) ∧ (¬free → t.boot.d0Reset = s.boot.d0Reset)) ∧
    (¬due → Idles s (.pgoodTimeout x)) ∧ (due → Gives s (.pgoodTimeout x) everything (Failed r 32768 s)) ∧
    (¬(en s r = true ∧ good s r = true) → Idles s (.railFault x)) ∧
    (en s r = true → good s r = true → Gives s (.railFault x) everything (Failed r 3277 s))) ∧
  (∀ s : State, let due := (∃ t0, s.boot.retryAt = some t0 ∧ stcSince s t0 < 2 ^ 47) ∧ good s 0 = true ∧ s.boot.railsOff = false
    (¬due → Idles s .railRetry) ∧
    (due → Gives s .railRetry [.boot] fun t => t.boot = { s.boot with retryAt := none, straps := s.boot.strapPins, pwrEn := s.boot.pwrEn.set 1 true }) ∧
    (s.boot.vaon = false → Idles s .vaonLoss) ∧
    (s.boot.vaon = true → Gives s .vaonLoss everything fun t => t.boot.vaon = false ∧ t.boot.d0Reset = true ∧ (∀ n, en t n = false) ∧
      t.boot.cause = 0x01 ∧ deviceState t = 0 ∧ t.mem = [] ∧ t.pow.resume = none ∧ t.pow.saveLists = [] ∧ t.dict.history = s.dict.histFlash ∧
        t.pow.slot0 = s.pow.slot0 ∧ t.pow.slot1 = s.pow.slot1 ∧ t.boot.railsOff = false ∧ t.boot.railFails = [] ∧
        t.boot.retryAt = none ∧ t.pow.tripHold = none ∧ t.pow.exit_ = none ∧ t.pow.latched = s.pow.latched)) ∧
  (∀ s : State,
    (railsUp s = true → Gives s .rstNAssert everything (Warm 0x03 s) ∧ Gives s .jtagReset everything (Warm 0x06 s)) ∧
    (railsUp s = false → Idles s .jtagReset) ∧ (railsUp s = false → s.boot.railsOff = false ∨ s.boot.vaon = false → Idles s .rstNAssert) ∧
    (railsUp s = false → s.boot.railsOff = true → s.boot.vaon = true → Gives s .rstNAssert [.boot] fun t => t.boot = { s.boot with
      railsOff := false, railFails := [], retryAt := none, straps := s.boot.strapPins, pwrEn := s.boot.pwrEn.set 1 true }) ∧
    (d0Runs s = false → Idles s .firmwareWatchdog) ∧ (d0Runs s = true → Gives s .firmwareWatchdog everything (Warm 0x04 s)) ∧
    let due := railsUp s = true ∧ s.boot.d0Reset = true ∧ s.pow.exit_ = none ∧ (s.boot.oscOk = true ∨ s.boot.oscFallback = true)
    (¬due → Idles s .warmResetRelease) ∧
    (due → Gives s .warmResetRelease [.boot] fun t => t.boot = { s.boot with d0Reset := false })) ∧
  (∀ (hz : Word) (s : State), let due := d0Runs s = true ∧ s.boot.romRan = false; let i := Instr.bootRomStart hz
    let far := fun k => ((oscList.getD k 0 : Int) - (hz.toNat : Int)).natAbs
    let a := s.boot.slotA; let b := s.boot.slotB; let parts := [Part.obj, .boot, .dict, .sram]
    (¬due → Idles s i) ∧
    (due → Gives s i parts fun t => t.boot.romRan = true ∧ t.boot.oscSeen < 7 ∧ (∀ k < 7, far t.boot.oscSeen ≤ far k) ∧
      (fld s.boot.straps 0 2 ≠ 0 → t.boot.loaded = s.boot.loaded ∧ t.boot.running = s.boot.running) ∧
      (fld s.boot.straps 0 2 = 0 →
        (∀ x y, a = some x → b = some y → fwCheck s x = 2 → fwCheck s y = 2 → t.boot.fwCopyBad = false ∧
          if x.seq < y.seq then t.boot.loaded = some y ∧ t.boot.running = 1 else t.boot.loaded = some x ∧ t.boot.running = 0) ∧
        (∀ x, a = some x → fwCheck s x = 2 → slotGood s b = false → t.boot.loaded = some x ∧ t.boot.running = 0 ∧ t.boot.fwCopyBad = b.isSome) ∧
        (∀ y, b = some y → fwCheck s y = 2 → slotGood s a = false → t.boot.loaded = some y ∧ t.boot.running = 1 ∧ t.boot.fwCopyBad = a.isSome) ∧
        (slotGood s a = false → slotGood s b = false → t.boot.loaded = s.boot.loaded)) ∧
      (let c := s.sram.copyA; c.good = true → c ≠ {} → (s.sram.copyB.good = true → s.sram.copyB.seq ≤ c.seq) →
        t.sram.macros = c.macros ∧ t.sram.doms = c.doms ∧ t.sram.retired = c.retired ∧ t.sram.copyB = c ∧ rd t kSrLedgerSeq = c.seq ∧
          ∀ u < 108, fld (rd t (kPlSageRole u)) 19 3 = if c.coresOut.contains u then 2 else fld (rd s (kPlSageRole u)) 19 3))) ∧
  (∀ s : State, let due := hostBootUp s = true ∧ fieldAt (load s 0x00FFFFFC 4) 0 4 = 0x544F4F42; let m := hostImage s; let st := fwCheck s m
    (¬due → Idles s .hostBootTrigger) ∧
    (due → Memory.wf s.mem = true → Gives s .hostBootTrigger [.boot, .dram, .sram, .mem] fun t => load t 0x00FFFFF8 4 = toBytes 4 st ∧
      MemKeeps 0x00FFFFF8 8 s t ∧ (st = 2 → t.boot = { s.boot with loaded := some m, running := 2 } ∧ load t 0x00FFFFFC 4 = load s 0x00FFFFFC 4) ∧
        (st ≠ 2 → t.boot = s.boot ∧ load t 0x00FFFFFC 4 = [0, 0, 0, 0])))

/-- First configuration, replayed wakes, the recovery flows that end on an event of their own, and the oscillator (R25, R666, R683, R684,
R689, R691). -/
def Obligations.StartAndRecovery : Prop :=
  (∀ s : State, let ready := d0Runs s = true ∧ s.boot.romRan = true; let i := Instr.firmwareReady
    (¬(ready ∧ (s.boot.fwReady = true ∨ s.boot.loaded ≠ none)) → Idles s i) ∧
    (s.boot.fwReady = true → s.boot.stage ≠ 7 ∨ rd s kDrState = 1 → Idles s i) ∧
    (ready → s.boot.fwReady = true → s.boot.stage = 7 → rd s kDrState ≠ 1 → exec i s = .next (laterStages s)) ∧
    (ready → s.boot.fwReady = false → s.boot.loaded ≠ none → exec i s = .next (goOn (earlyStages s)) ∧
      (s.dict.copyA.valid = false → s.dict.copyB.valid = false → s.boot.start ≠ .cold → rd s kDrState ≠ 1 → rd s kDrState ≠ 2 →
        Gives s i [.boot, .dict] fun t => t.boot = { s.boot with fwReady := true, stage := 13 } ∧ t.dict.image = {} ∧
          t.dict.pendingRecords = [] ∧ t.dict.copyA = s.dict.copyA))) ∧
  (∀ s : State, let due := d0Runs s = true ∧ s.pow.latched ≠ []
    (¬due → Idles s .keeperWakeReplay) ∧
    (due → exec .keeperWakeReplay s = .next (each s.pow.latched wakeEvent { s with pow := { s.pow with latched := [], tripMark := 0 } }) ∧
      (deviceState s = 0 → Gives s .keeperWakeReplay [.pow] fun t => t.pow = { s.pow with
        latched := if keeperUp s = true ∧ s.pow.tripHold = none then [] else s.pow.latched, tripMark := 0 }))) ∧
  (∀ (u : Fin 228) (pass : Bool) (s : State), let n := u.val; let i := Instr.selftestDone u pass
    let due := roleFn (roleWord s n) = 1 ∧ ((∃ k, (unitSt s n).task = some (.substitution k)) ∨ inFlow s 1 n = true ∨ inFlow s 2 n = true)
    (¬due → Idles s i) ∧
    (due → inFlow s 2 n = true → exec i s = .next (endFlow 2 n (if pass then 1 else 2) (unitLoc n) 0 (overcommitCheck
      (roleNow n (setFld (roleSoon s n) 19 3 (if pass then 0 else 2)) s)))) ∧
    (due → inFlow s 2 n = false → exec i s = .next (finishLoads (overcommitCheck
      (endFlow 1 n (if pass then 1 else 2) (unitLoc n) 0 (coreTestEnd n pass s)))))) ∧
  (∀ s : State, let events := [Part.obj, .boot, .host, .dict, .out]
    (flowOf s 3 0 = none → Idles s .dramRestartRetry) ∧ ∀ r, flowOf s 3 0 = some r →
      (r.attempt ≠ 0 ∨ now s < r.due → Idles s .dramRestartRetry) ∧
      (r.attempt = 0 → r.due ≤ now s →
        (dramStopped s = true → dramConfigOk s = true → Gives s .dramRestartRetry [.obj, .boot] fun t => rd t kDrState = 1 ∧
          (∀ c ∈ chanList s, chanState t c = 1) ∧ ∃ x, flowOf t 3 0 = some x ∧ x.attempt = 1) ∧
        (dramStopped s = false ∨ dramConfigOk s = false → Gives s .dramRestartRetry events fun t => inFlow t 3 0 = false ∧
          rd t kDrState = rd s kDrState))) ∧
  (∀ (x : LaneId) (s : State), let n := x.val; let fl := rd s (kLaLinkFlags n); let i := Instr.laneRecoveryTimer x
    let stuck := laneState s n = 1 ∧ bitAt fl 0 = true ∧ bitAt fl 1 = false ∧ (laneOf s n).since + secToTc 5 ≤ now s
    (flowOf s 4 n = none → (¬stuck → Idles s i) ∧
      (stuck → exec i s = .next (laneCycle n (flowTry 4 n (now s + secToTc 10) (startFlow 4 n (locLane n) 1 0 s))))) ∧
    ∀ r, flowOf s 4 n = some r → (now s < r.due → Idles s i) ∧
      (r.due ≤ now s → r.attempt < 3 → exec i s = .next (laneCycle n (flowTry 4 n (now s + secToTc 10) s))) ∧
      (r.due ≤ now s → 3 ≤ r.attempt → exec i s = .next (endFlow 4 n 3 (locLane n) r.attempt (laneOff n s)))) ∧
  (∀ (pcie : Bool) (s : State), let due := d0Runs s = true ∧ s.boot.oscOk = true; let i := Instr.oscLoss pcie
    let parts := [Part.obj, .tim, .boot, .host, .dict, .out]
    (¬due → Idles s i) ∧
    (due → pcie = true → Gives s i parts fun t => t.boot.oscOk = false ∧ t.boot.oscFallback = true ∧ inFlow t 5 0 = true ∧ selected t = 15 ∧
      rd t kTiState = 0 ∧ t.tim.dtc = s.tim.dtc) ∧
    (due → pcie = false → ∃ t, exec i s = .next t ∧ t.pending = s.pending ∧ t.boot.oscOk = false ∧ t.boot.d0Reset = true ∧ t.boot.start = .warm ∧
      t.mem = [] ∧ t.boot.recoveries = []) ∧
    (s.boot.oscOk = true → Idles s .oscReturn) ∧
    (s.boot.oscOk = false → s.boot.oscFallback = false → Gives s .oscReturn [.boot] fun t => t.boot = { s.boot with oscOk := true }) ∧
    (s.boot.oscOk = false → s.boot.oscFallback = true → Gives s .oscReturn parts fun t => t.boot.oscOk = true ∧ t.boot.oscFallback = false ∧
      rd t kTiState = 3 ∧ inFlow t 5 0 = false ∧ t.tim.dtc = s.tim.dtc))
end

