-- ==== Sys2Proof/Laws/Tables.lean ====
section
/-!
SUPPORT. The laws of the sparse tables, of the dictionary values and of memory: a read after a write, and that every write of memory
keeps its canonical form.
-/
namespace Sys2Proof.Machine

set_option Elab.async false

/-! ### Tables -/

@[simp] theorem tfind_tset_self {α : Type} (k : Nat) (v : α) (t : Table α) : tfind k (tset k v t) = some v := by
  induction t with
  | nil => simp [tset, tfind]
  | cons e r ih =>
    obtain ⟨j, w⟩ := e
    simp only [tset]
    split_ifs with h1 h2
    · simp [tfind]
    · simp [tfind]
    · simp [tfind, ih, Ne.symm h2]

theorem tfind_tset_ne {α : Type} {k j : Nat} (h : j ≠ k) (v : α) (t : Table α) : tfind j (tset k v t) = tfind j t := by
  induction t with
  | nil => simp [tset, tfind, Ne.symm h]
  | cons e r ih =>
    obtain ⟨i, w⟩ := e
    simp only [tset]
    split_ifs with h1 h2
    · simp [tfind, Ne.symm h]
    · subst h2; simp [tfind, Ne.symm h]
    · simp only [tfind, ih]

@[simp] theorem tget_tset_self {α : Type} (k : Nat) (v d : α) (t : Table α) : tget (tset k v t) k d = v := by
  simp [tget]

theorem tget_tset_ne {α : Type} {k j : Nat} (h : j ≠ k) (v d : α) (t : Table α) : tget (tset k v t) j d = tget t j d := by
  simp [tget, tfind_tset_ne h]

@[simp] theorem tget_tmod_self {α : Type} (k : Nat) (d : α) (f : α → α) (t : Table α) : tget (tmod t k d f) k d = f (tget t k d) := by
  simp [tmod]

theorem tget_tmod_ne {α : Type} {k j : Nat} (h : j ≠ k) (d e : α) (f : α → α) (t : Table α) : tget (tmod t k d f) j e = tget t j e :=
  tget_tset_ne h _ _ _

theorem tfind_tmod_self {α : Type} (k : Nat) (d : α) (f : α → α) (t : Table α) : tfind k (tmod t k d f) = some (f (tget t k d)) := by
  simp [tmod]

theorem tfind_tmod_ne {α : Type} {k j : Nat} (h : j ≠ k) (d : α) (f : α → α) (t : Table α) : tfind j (tmod t k d f) = tfind j t :=
  tfind_tset_ne h _ _

/-! ### Dictionary values -/

@[simp] theorem rd_wr_self (k v : Nat) (s : State) : rd (wr k v s) k = v := by
  simp [rd, wr]

theorem rd_wr_ne {k j : Nat} (h : j ≠ k) (v : Nat) (s : State) : rd (wr k v s) j = rd s j := by
  simp only [rd, wr, tget, tfind_tset_ne h]

theorem rd_bumpBy_self (w k n : Nat) (s : State) : rd (bumpBy w k n s) k = wrapAdd w (rd s k) n := by
  simp [bumpBy]

theorem rd_bumpBy_ne {k j : Nat} (h : j ≠ k) (w n : Nat) (s : State) : rd (bumpBy w k n s) j = rd s j :=
  rd_wr_ne h _ _

theorem rd_bump_ne {k j : Nat} (h : j ≠ k) (s : State) : rd (bump k s) j = rd s j :=
  rd_wr_ne h _ _

/-! ### Memory -/

theorem memWfFrom_cons {lo a : Nat} {v : Byte} {r : List Host.Cell} :
    memWfFrom lo ((a, v) :: r) = true ↔ lo ≤ a ∧ v ≠ 0 ∧ memWfFrom (a + 1) r = true := by
  simp only [memWfFrom, Bool.and_eq_true, decide_eq_true_eq, bne_iff_ne, ne_eq, and_assoc]

theorem memWfFrom_weaken {lo hi : Nat} (h : lo ≤ hi) {m : List Host.Cell} (w : memWfFrom hi m = true) : memWfFrom lo m = true := by
  cases m with
  | nil => rfl
  | cons c r =>
    obtain ⟨a, v⟩ := c
    obtain ⟨ha, hv, hr⟩ := memWfFrom_cons.mp w
    exact memWfFrom_cons.mpr ⟨by omega, hv, hr⟩

theorem memWfFrom_memSet {a : Nat} (v : Byte) {lo : Nat} (h : lo ≤ a) {m : List Host.Cell} (w : memWfFrom lo m = true) :
    memWfFrom lo (memSet a v m) = true := by
  induction m generalizing lo with
  | nil =>
    simp only [memSet]
    split_ifs with hv
    · rfl
    · exact memWfFrom_cons.mpr ⟨h, hv, rfl⟩
  | cons c r ih =>
    obtain ⟨b, x⟩ := c
    obtain ⟨hb, hx, hr⟩ := memWfFrom_cons.mp w
    simp only [memSet]
    split_ifs with h1 hv h2 hv
    · exact w
    · exact memWfFrom_cons.mpr ⟨h, hv, memWfFrom_cons.mpr ⟨h1, hx, hr⟩⟩
    · exact memWfFrom_weaken (by omega) hr
    · subst h2; exact memWfFrom_cons.mpr ⟨h, hv, hr⟩
    · exact memWfFrom_cons.mpr ⟨hb, hx, ih (by omega) hr⟩

theorem Memory.wf_memSet (a : Nat) (v : Byte) {m : List Host.Cell} (w : Memory.wf m = true) : Memory.wf (memSet a v m) = true :=
  memWfFrom_memSet v (Nat.zero_le a) w

theorem Memory.wf_memWrite (a : Nat) (l : List Byte) {m : List Host.Cell} (w : Memory.wf m = true) : Memory.wf (memWrite m a l) = true := by
  induction l generalizing a m with
  | nil => exact w
  | cons b r ih => exact ih (a + 1) (Memory.wf_memSet a b w)

theorem memWfFrom_filter (p : Host.Cell → Bool) {lo : Nat} {m : List Host.Cell} (w : memWfFrom lo m = true) :
    memWfFrom lo (m.filter p) = true := by
  induction m generalizing lo with
  | nil => rfl
  | cons c r ih =>
    obtain ⟨b, x⟩ := c
    obtain ⟨hb, hx, hr⟩ := memWfFrom_cons.mp w
    by_cases hp : p (b, x) = true
    · rw [List.filter_cons, if_pos hp]
      exact memWfFrom_cons.mpr ⟨hb, hx, ih hr⟩
    · rw [List.filter_cons, if_neg hp]
      exact memWfFrom_weaken (by omega) (ih hr)

theorem Memory.wf_filter (p : Host.Cell → Bool) {m : List Host.Cell} (w : Memory.wf m = true) : Memory.wf (m.filter p) = true :=
  memWfFrom_filter p w

theorem memGet_below {lo a : Nat} (h : a < lo) {m : List Host.Cell} (w : memWfFrom lo m = true) : memGet a m = 0 := by
  induction m generalizing lo with
  | nil => rfl
  | cons c r ih =>
    obtain ⟨b, x⟩ := c
    simp only [memWfFrom, Bool.and_eq_true, decide_eq_true_eq] at w
    simp only [memGet]
    rw [if_neg (by omega)]
    exact ih (lo := b + 1) (by omega) w.2

theorem memGet_memSet_from {lo a : Nat} (v : Byte) {m : List Host.Cell} (w : memWfFrom lo m = true) : memGet a (memSet a v m) = v := by
  induction m generalizing lo with
  | nil =>
    simp only [memSet]
    split_ifs with hv
    · simp [memGet, hv]
    · simp [memGet]
  | cons c r ih =>
    obtain ⟨b, x⟩ := c
    simp only [memWfFrom, Bool.and_eq_true, decide_eq_true_eq] at w
    simp only [memSet]
    split_ifs with h1 hv h2 hv
    · simp only [memGet]
      rw [if_neg (by omega), memGet_below (lo := b + 1) (by omega) w.2, hv]
    · simp [memGet]
    · subst h2
      rw [memGet_below (lo := a + 1) (by omega) w.2, hv]
    · simp [memGet]
    · simp only [memGet]
      rw [if_neg (Ne.symm h2)]
      exact ih w.2

/-- A byte written is the byte read. -/
theorem memGet_memSet_self {a : Nat} (v : Byte) {m : List Host.Cell} (w : Memory.wf m = true) : memGet a (memSet a v m) = v :=
  memGet_memSet_from v w

/-- A write of one byte leaves every other. -/
theorem memGet_memSet_ne {a b : Nat} (h : b ≠ a) (v : Byte) (m : List Host.Cell) : memGet b (memSet a v m) = memGet b m := by
  induction m with
  | nil =>
    simp only [memSet]
    split_ifs with hv
    · rfl
    · simp [memGet, Ne.symm h]
  | cons c r ih =>
    obtain ⟨j, x⟩ := c
    simp only [memSet]
    split_ifs with h1 hv h2 hv
    · rfl
    · simp [memGet, Ne.symm h]
    · subst h2; simp [memGet, Ne.symm h]
    · subst h2; simp [memGet, Ne.symm h]
    · simp only [memGet, ih]

/-- A write of a byte list leaves every byte outside it. -/
theorem memGet_memWrite_outside {a b : Nat} (l : List Byte) (h : b < a ∨ a + l.length ≤ b) (m : List Host.Cell) :
    memGet b (memWrite m a l) = memGet b m := by
  induction l generalizing a m with
  | nil => rfl
  | cons x r ih =>
    simp only [List.length_cons] at h
    rw [memWrite, ih (by omega), memGet_memSet_ne (by omega)]

/-- A byte of a list written is the byte read. -/
theorem memGet_memWrite_inside {a i : Nat} {l : List Byte} (h : i < l.length) {m : List Host.Cell} (w : Memory.wf m = true) :
    memGet (a + i) (memWrite m a l) = l[i] := by
  induction l generalizing a i m with
  | nil => exact absurd h (by simp)
  | cons x r ih =>
    rw [memWrite]
    cases i with
    | zero => rw [Nat.add_zero, memGet_memWrite_outside r (by omega), memGet_memSet_self x w]; rfl
    | succ k =>
      simp only [List.length_cons] at h
      have hk : k < r.length := by omega
      rw [show a + (k + 1) = a + 1 + k by omega, ih hk (Memory.wf_memSet a x w)]
      rfl

@[simp] theorem memRead_length (m : List Host.Cell) (a n : Nat) : (memRead m a n).length = n := by
  induction n generalizing a with
  | zero => rfl
  | succ k ih => simp [memRead, ih]

theorem memRead_eq_of_get {m m' : List Host.Cell} {a n : Nat} (h : ∀ i < n, memGet (a + i) m = memGet (a + i) m') :
    memRead m a n = memRead m' a n := by
  induction n generalizing a with
  | zero => rfl
  | succ k ih =>
    simp only [memRead]
    congr 1
    · simpa using h 0 (by omega)
    · exact ih fun i hi => by simpa [show a + 1 + i = a + (i + 1) by omega] using h (i + 1) (by omega)

/-- What was written at an address is what a read of as many bytes there gives. -/
theorem memRead_memWrite_self (a : Nat) (l : List Byte) {m : List Host.Cell} (w : Memory.wf m = true) :
    memRead (memWrite m a l) a l.length = l := by
  induction l generalizing a m with
  | nil => rfl
  | cons x r ih =>
    simp only [List.length_cons, memRead, memWrite]
    rw [memGet_memWrite_outside r (by omega), memGet_memSet_self x w, ih (a + 1) (Memory.wf_memSet a x w)]

/-- A read outside what was written gives what it gave. -/
theorem memRead_memWrite_disjoint {a b n : Nat} (l : List Byte) (h : b + n ≤ a ∨ a + l.length ≤ b) (m : List Host.Cell) :
    memRead (memWrite m a l) b n = memRead m b n :=
  memRead_eq_of_get fun i hi => memGet_memWrite_outside l (by omega) m

end Sys2Proof.Machine
end

