-- ==== Sys2Proof/Laws/Only.lean ====
section
/-!
SUPPORT. How a frame is put together: no change, one update, one operation after another, a loop, a case.
-/
namespace Sys2Proof.Machine

set_option Elab.async false

theorem Part.Same.refl (p : Part) (s : State) : p.Same s s := by
  cases p <;> rfl

theorem Part.Same.trans {p : Part} {s t u : State} (h : p.Same s t) (k : p.Same t u) : p.Same s u := by
  cases p <;> exact Eq.trans k h

theorem Only.refl {l : List Part} (s : State) : Only l s s :=
  ⟨fun p _ => Part.Same.refl p s, rfl, id⟩

theorem Only.trans {l : List Part} {s t u : State} (h : Only l s t) (k : Only l t u) : Only l s u :=
  ⟨fun p hp => (h.same p hp).trans (k.same p hp), k.queue.trans h.queue, fun w => k.wf (h.wf w)⟩

theorem Only.mono {k l : List Part} {s t : State} (h : Only k s t) (hs : ∀ p ∈ k, p ∈ l := by decide) : Only l s t :=
  ⟨fun p hp => h.same p fun hk => hp (hs p hk), h.queue, h.wf⟩

/-- An operation after what went before. -/
theorem Only.after {k l : List Part} {x s t : State} (h : Only k s t) (hs : ∀ p ∈ k, p ∈ l) (h0 : Only l x s) : Only l x t :=
  h0.trans (h.mono hs)

/-- A record update. -/
theorem Only.upd {l : List Part} {x s : State} {o te ti po bo ho di wo sa ra li no dr sr me ou fr}
    (h : Only l x s)
    (h1 : o = s.obj ∨ Part.obj ∈ l := by first | exact .inl (by with_reducible rfl) | exact .inr (by decide))
    (h2 : te = s.text ∨ Part.text ∈ l := by first | exact .inl (by with_reducible rfl) | exact .inr (by decide))
    (h3 : ti = s.tim ∨ Part.tim ∈ l := by first | exact .inl (by with_reducible rfl) | exact .inr (by decide))
    (h4 : po = s.pow ∨ Part.pow ∈ l := by first | exact .inl (by with_reducible rfl) | exact .inr (by decide))
    (h5 : bo = s.boot ∨ Part.boot ∈ l := by first | exact .inl (by with_reducible rfl) | exact .inr (by decide))
    (h6 : ho = s.host ∨ Part.host ∈ l := by first | exact .inl (by with_reducible rfl) | exact .inr (by decide))
    (h7 : di = s.dict ∨ Part.dict ∈ l := by first | exact .inl (by with_reducible rfl) | exact .inr (by decide))
    (h8 : wo = s.work ∨ Part.work ∈ l := by first | exact .inl (by with_reducible rfl) | exact .inr (by decide))
    (h9 : sa = s.sage ∨ Part.sage ∈ l := by first | exact .inl (by with_reducible rfl) | exact .inr (by decide))
    (h10 : ra = s.radio ∨ Part.radio ∈ l := by first | exact .inl (by with_reducible rfl) | exact .inr (by decide))
    (h11 : li = s.links ∨ Part.links ∈ l := by first | exact .inl (by with_reducible rfl) | exact .inr (by decide))
    (h12 : no = s.noc ∨ Part.noc ∈ l := by first | exact .inl (by with_reducible rfl) | exact .inr (by decide))
    (h13 : dr = s.dram ∨ Part.dram ∈ l := by first | exact .inl (by with_reducible rfl) | exact .inr (by decide))
    (h14 : sr = s.sram ∨ Part.sram ∈ l := by first | exact .inl (by with_reducible rfl) | exact .inr (by decide))
    (h15 : me = s.mem ∨ (Part.mem ∈ l ∧ (Memory.wf s.mem = true → Memory.wf me = true)) := by
      first | exact .inl (by with_reducible rfl) | exact .inr ⟨by decide, fun w => by first | exact Memory.wf_memWrite _ _ w | exact Memory.wf_filter _ w | rfl⟩)
    (h16 : ou = s.out ∨ Part.out ∈ l := by first | exact .inl (by with_reducible rfl) | exact .inr (by decide))
    (h17 : fr = s.freeCtr ∨ Part.freeCtr ∈ l := by first | exact .inl (by with_reducible rfl) | exact .inr (by decide)) :
    Only l x (State.mk o te ti po bo ho di wo sa ra li no dr sr me ou fr s.pending) := by
  refine h.trans ⟨fun p hp => ?_, rfl, fun w => ?_⟩
  · cases p <;> simp only [Part.Same]
    · exact h1.resolve_right hp
    · exact h2.resolve_right hp
    · exact h3.resolve_right hp
    · exact h4.resolve_right hp
    · exact h5.resolve_right hp
    · exact h6.resolve_right hp
    · exact h7.resolve_right hp
    · exact h8.resolve_right hp
    · exact h9.resolve_right hp
    · exact h10.resolve_right hp
    · exact h11.resolve_right hp
    · exact h12.resolve_right hp
    · exact h13.resolve_right hp
    · exact h14.resolve_right hp
    · exact h15.resolve_right fun hm => hp hm.1
    · exact h16.resolve_right hp
    · exact h17.resolve_right hp
  · rcases h15 with h15 | h15
    · exact h15 ▸ w
    · exact h15.2 w

theorem Only.each {α : Type} {l : List Part} {x s : State} {as : List α} {f : α → State → State}
    (hf : ∀ a t, Only l t (f a t)) (h0 : Only l x s) : Only l x (each as f s) := by
  induction as generalizing s with
  | nil => exact h0
  | cons a r ih => exact ih (h0.trans (hf a s))

theorem Only.foldl {α : Type} {l : List Part} {x s : State} {as : List α} {f : State → α → State}
    (hf : ∀ t a, Only l t (f t a)) (h0 : Only l x s) : Only l x (as.foldl f s) := by
  induction as generalizing s with
  | nil => exact h0
  | cons a r ih => exact ih (h0.trans (hf s a))

theorem Only.foldlSnd {α β : Type} {l : List Part} {x : State} {as : List α} {f : β × State → α → β × State} {p : β × State}
    (hf : ∀ b t a, Only l t (f (b, t) a).2) (h0 : Only l x p.2) : Only l x (as.foldl f p).2 := by
  induction as generalizing p with
  | nil => exact h0
  | cons a r ih => exact ih (h0.trans (hf p.1 p.2 a))

theorem Only.foldlThd {α β γ : Type} {l : List Part} {x : State} {as : List α} {f : β × γ × State → α → β × γ × State} {p : β × γ × State}
    (hf : ∀ q a, Only l q.2.2 (f q a).2.2) (h0 : Only l x p.2.2) : Only l x (as.foldl f p).2.2 := by
  induction as generalizing p with
  | nil => exact h0
  | cons a r ih => exact ih (h0.trans (hf p a))

theorem Only.ofPair {α : Type} {l : List Part} {x t : State} {p : α × State} {a : α} (h : p = (a, t)) (hp : Only l x p.2) : Only l x t := by
  subst h; exact hp

theorem Runs.done {l : List Part} {x s : State} (h : Only l x s) : Runs l x (done s) := ⟨s, rfl, h⟩

theorem Runs.next {l : List Part} {x s : State} (h : Only l x s) : Runs l x (.next s) := ⟨s, rfl, h⟩

theorem Runs.elim {α : Type} {l : List Part} {x : State} {o : Option α} {d : Res} {f : α → Res} (h0 : Runs l x d) (hf : ∀ a, Runs l x (f a)) :
    Runs l x (o.elim d f) := by
  cases o
  · exact h0
  · exact hf _

theorem Runs.whenDue {l : List Part} {x s : State} {b : Bool} {f : State → State} (hf : Only l s (f s)) (h0 : Only l x s) :
    Runs l x (whenDue b f s) := by
  refine ⟨_, rfl, ?_⟩
  cases b
  · exact h0
  · exact h0.trans hf

theorem Runs.answer {l : List Part} {x : State} {w : Written} (ho : ∀ p ∈ [Part.out], p ∈ l) (h : Only l x w.2) : Runs l x (answer w) := by
  refine ⟨_, rfl, ?_⟩
  unfold send
  exact Only.upd h (h16 := .inr (ho _ (List.mem_singleton.mpr rfl)))

theorem Runs.after {k l : List Part} {x s : State} {r : Res} (h : Runs k s r) (hs : ∀ p ∈ k, p ∈ l) (h0 : Only l x s) : Runs l x r := by
  obtain ⟨t, rfl, ht⟩ := h
  exact ⟨t, rfl, ht.after hs h0⟩

end Sys2Proof.Machine
end

