-- ==== Sys2Proof/Laws/OnlyOps.lean ====
section
/-!
SUPPORT. The frame of every operation of Machine/Ops.lean: the parts of the state it can change.
-/
namespace Sys2Proof.Machine

set_option Elab.async false

set_option linter.unusedTactic false
set_option linter.unreachableTactic false
set_option linter.unusedVariables false

theorem wr_only {k v s} : Only [.obj] s (wr k v s) := by
  unfold wr
  with_reducible repeat' first
    | exact Only.refl _
    | assumption
    | decide
    | extract_lets
    | fail_if_no_progress refine Only.upd ?_
    | split
    | refine Only.ofPair (by assumption) ?_
    | intro _
    | dsimp only
    | dsimp +zetaDelta only

theorem peak_only {k v s} : Only [.obj] s (peak k v s) := by
  unfold peak
  with_reducible repeat' first
    | exact Only.refl _
    | assumption
    | decide
    | apply Only.after wr_only
    | extract_lets
    | fail_if_no_progress refine Only.upd ?_
    | split
    | refine Only.ofPair (by assumption) ?_
    | intro _
    | dsimp only
    | dsimp +zetaDelta only

theorem bumpBy_only {w k n s} : Only [.obj] s (bumpBy w k n s) := by
  unfold bumpBy
  with_reducible repeat' first
    | exact Only.refl _
    | assumption
    | decide
    | apply Only.after wr_only
    | extract_lets
    | fail_if_no_progress refine Only.upd ?_
    | split
    | refine Only.ofPair (by assumption) ?_
    | intro _
    | dsimp only
    | dsimp +zetaDelta only

theorem meter_only {a0 r n s} : Only [.work] s (meter a0 r n s) := by
  unfold meter
  with_reducible repeat' first
    | exact Only.refl _
    | assumption
    | decide
    | extract_lets
    | fail_if_no_progress refine Only.upd ?_
    | split
    | refine Only.ofPair (by assumption) ?_
    | intro _
    | dsimp only
    | dsimp +zetaDelta only

theorem makeCharges_only {a0 l s} : Only [.work] s (makeCharges a0 l s) := by
  unfold makeCharges
  with_reducible repeat' first
    | exact Only.refl _
    | assumption
    | decide
    | apply Only.foldl
    | apply Only.foldlSnd
    | apply Only.foldlThd
    | extract_lets
    | fail_if_no_progress refine Only.upd ?_
    | split
    | refine Only.ofPair (by assumption) ?_
    | intro _
    | dsimp only
    | dsimp +zetaDelta only

theorem addExcess_only {a0 r n s} : Only [.work] s (addExcess a0 r n s) := by
  unfold addExcess
  with_reducible repeat' first
    | exact Only.refl _
    | assumption
    | decide
    | apply Only.after makeCharges_only
    | extract_lets
    | fail_if_no_progress refine Only.upd ?_
    | split
    | refine Only.ofPair (by assumption) ?_
    | intro _
    | dsimp only
    | dsimp +zetaDelta only

theorem bump_only {k s} : Only [.obj] s (bump k s) := by
  unfold bump
  with_reducible repeat' first
    | exact Only.refl _
    | assumption
    | decide
    | apply Only.after bumpBy_only
    | extract_lets
    | fail_if_no_progress refine Only.upd ?_
    | split
    | refine Only.ofPair (by assumption) ?_
    | intro _
    | dsimp only
    | dsimp +zetaDelta only

theorem setFn_only {f v s} : Only [.host] s (setFn f v s) := by
  unfold setFn
  with_reducible repeat' first
    | exact Only.refl _
    | assumption
    | decide
    | extract_lets
    | fail_if_no_progress refine Only.upd ?_
    | split
    | refine Only.ofPair (by assumption) ?_
    | intro _
    | dsimp only
    | dsimp +zetaDelta only

theorem modFn_only {f g s} : Only [.host] s (modFn f g s) := by
  unfold modFn
  with_reducible repeat' first
    | exact Only.refl _
    | assumption
    | decide
    | apply Only.after setFn_only
    | extract_lets
    | fail_if_no_progress refine Only.upd ?_
    | split
    | refine Only.ofPair (by assumption) ?_
    | intro _
    | dsimp only
    | dsimp +zetaDelta only

theorem setQp_only {f n q s} : Only [.host] s (setQp f n q s) := by
  unfold setQp
  with_reducible repeat' first
    | exact Only.refl _
    | assumption
    | decide
    | apply Only.after modFn_only
    | extract_lets
    | fail_if_no_progress refine Only.upd ?_
    | split
    | refine Only.ofPair (by assumption) ?_
    | intro _
    | dsimp only
    | dsimp +zetaDelta only

theorem send_only {o s} : Only [.out] s (send o s) := by
  unfold send
  with_reducible repeat' first
    | exact Only.refl _
    | assumption
    | decide
    | extract_lets
    | fail_if_no_progress refine Only.upd ?_
    | split
    | refine Only.ofPair (by assumption) ?_
    | intro _
    | dsimp only
    | dsimp +zetaDelta only

theorem touchTranslation_only {f page s} : Only [.host] s (touchTranslation f page s) := by
  unfold touchTranslation
  with_reducible repeat' first
    | exact Only.refl _
    | assumption
    | decide
    | extract_lets
    | fail_if_no_progress refine Only.upd ?_
    | split
    | refine Only.ofPair (by assumption) ?_
    | intro _
    | dsimp only
    | dsimp +zetaDelta only

theorem askTranslation_only {f page s} : Only [.obj, .host, .out] s (askTranslation f page s) := by
  unfold askTranslation
  with_reducible repeat' first
    | exact Only.refl _
    | assumption
    | decide
    | apply Only.after send_only
    | apply Only.after bump_only
    | extract_lets
    | fail_if_no_progress refine Only.upd ?_
    | split
    | refine Only.ofPair (by assumption) ?_
    | intro _
    | dsimp only
    | dsimp +zetaDelta only

theorem passItem_only {f i s} : Only [.obj, .host, .out] s (passItem f i s) := by
  unfold passItem
  with_reducible repeat' first
    | exact Only.refl _
    | assumption
    | decide
    | apply Only.after send_only
    | apply Only.after touchTranslation_only
    | apply Only.after askTranslation_only
    | extract_lets
    | fail_if_no_progress refine Only.upd ?_
    | split
    | refine Only.ofPair (by assumption) ?_
    | intro _
    | dsimp only
    | dsimp +zetaDelta only

theorem hostWriteFor_only {owner f addr data s} : Only [.obj, .host, .out] s (hostWriteFor owner f addr data s) := by
  unfold hostWriteFor
  with_reducible repeat' first
    | exact Only.refl _
    | assumption
    | decide
    | apply Only.after passItem_only
    | apply Only.each
    | extract_lets
    | fail_if_no_progress refine Only.upd ?_
    | split
    | refine Only.ofPair (by assumption) ?_
    | intro _
    | dsimp only
    | dsimp +zetaDelta only

theorem hostWrite_only {f addr data s} : Only [.obj, .host, .out] s (hostWrite f addr data s) := by
  unfold hostWrite
  with_reducible repeat' first
    | exact Only.refl _
    | assumption
    | decide
    | apply Only.after hostWriteFor_only
    | extract_lets
    | fail_if_no_progress refine Only.upd ?_
    | split
    | refine Only.ofPair (by assumption) ?_
    | intro _
    | dsimp only
    | dsimp +zetaDelta only

theorem msix_only {f v s} : Only [.obj, .host, .out] s (msix f v s) := by
  unfold msix
  with_reducible repeat' first
    | exact Only.refl _
    | assumption
    | decide
    | apply Only.after passItem_only
    | apply Only.after setFn_only
    | extract_lets
    | fail_if_no_progress refine Only.upd ?_
    | split
    | refine Only.ofPair (by assumption) ?_
    | intro _
    | dsimp only
    | dsimp +zetaDelta only

theorem cqAppend_only {f n e s} : Only [.obj, .host, .out] s (cqAppend f n e s) := by
  unfold cqAppend
  with_reducible repeat' first
    | exact Only.refl _
    | assumption
    | decide
    | apply Only.after hostWrite_only
    | apply Only.after setQp_only
    | apply Only.after msix_only
    | extract_lets
    | fail_if_no_progress refine Only.upd ?_
    | split
    | refine Only.ofPair (by assumption) ?_
    | intro _
    | dsimp only
    | dsimp +zetaDelta only

theorem eqAppend_only {f ev s} : Only [.obj, .host, .out] s (eqAppend f ev s) := by
  unfold eqAppend
  with_reducible repeat' first
    | exact Only.refl _
    | assumption
    | decide
    | apply Only.after hostWrite_only
    | apply Only.after modFn_only
    | apply Only.after msix_only
    | extract_lets
    | fail_if_no_progress refine Only.upd ?_
    | split
    | refine Only.ofPair (by assumption) ?_
    | intro _
    | dsimp only
    | dsimp +zetaDelta only

theorem fnEvent_only {f ev s} : Only [.obj, .host, .out] s (fnEvent f ev s) := by
  unfold fnEvent
  with_reducible repeat' first
    | exact Only.refl _
    | assumption
    | decide
    | apply Only.after eqAppend_only
    | apply Only.after bump_only
    | apply Only.after modFn_only
    | extract_lets
    | fail_if_no_progress refine Only.upd ?_
    | split
    | refine Only.ofPair (by assumption) ?_
    | intro _
    | dsimp only
    | dsimp +zetaDelta only

theorem cqPut_only {f n e s} : Only [.obj, .host, .out] s (cqPut f n e s) := by
  unfold cqPut
  with_reducible repeat' first
    | exact Only.refl _
    | assumption
    | decide
    | apply Only.after bump_only
    | apply Only.after setQp_only
    | apply Only.after cqAppend_only
    | apply Only.after fnEvent_only
    | extract_lets
    | fail_if_no_progress refine Only.upd ?_
    | split
    | refine Only.ofPair (by assumption) ?_
    | intro _
    | dsimp only
    | dsimp +zetaDelta only

theorem histAdd_only {code sev loc detail s} : Only [.dict] s (histAdd code sev loc detail s) := by
  unfold histAdd
  with_reducible repeat' first
    | exact Only.refl _
    | assumption
    | decide
    | extract_lets
    | fail_if_no_progress refine Only.upd ?_
    | split
    | refine Only.ofPair (by assumption) ?_
    | intro _
    | dsimp only
    | dsimp +zetaDelta only

theorem queueNotify_only {transport dest idx sub value s} : Only [.obj, .dict] s (queueNotify transport dest idx sub value s) := by
  unfold queueNotify
  with_reducible repeat' first
    | exact Only.refl _
    | assumption
    | decide
    | apply Only.after bump_only
    | extract_lets
    | fail_if_no_progress refine Only.upd ?_
    | split
    | refine Only.ofPair (by assumption) ?_
    | intro _
    | dsimp only
    | dsimp +zetaDelta only

theorem routeSend_only {i idx sub value s} : Only [.obj, .host, .dict, .out] s (routeSend i idx sub value s) := by
  unfold routeSend
  with_reducible repeat' first
    | exact Only.refl _
    | assumption
    | decide
    | apply Only.after bump_only
    | apply Only.after fnEvent_only
    | apply Only.after queueNotify_only
    | extract_lets
    | fail_if_no_progress refine Only.upd ?_
    | split
    | refine Only.ofPair (by assumption) ?_
    | intro _
    | dsimp only
    | dsimp +zetaDelta only

theorem notifyEvent_only {ev s} : Only [.obj, .host, .dict, .out] s (notifyEvent ev s) := by
  unfold notifyEvent
  with_reducible repeat' first
    | exact Only.refl _
    | assumption
    | decide
    | apply Only.after routeSend_only
    | apply Only.each
    | extract_lets
    | fail_if_no_progress refine Only.upd ?_
    | split
    | refine Only.ofPair (by assumption) ?_
    | intro _
    | dsimp only
    | dsimp +zetaDelta only

theorem ownerEvent_only {ev hist s} : Only [.obj, .host, .dict, .out] s (ownerEvent ev hist s) := by
  unfold ownerEvent
  with_reducible repeat' first
    | exact Only.refl _
    | assumption
    | decide
    | apply Only.after histAdd_only
    | apply Only.after notifyEvent_only
    | apply Only.after fnEvent_only
    | extract_lets
    | fail_if_no_progress refine Only.upd ?_
    | split
    | refine Only.ofPair (by assumption) ?_
    | intro _
    | dsimp only
    | dsimp +zetaDelta only

theorem recoveryEvent_only {flow outcome loc detail s} : Only [.obj, .host, .dict, .out] s (recoveryEvent flow outcome loc detail s) := by
  unfold recoveryEvent
  with_reducible repeat' first
    | exact Only.refl _
    | assumption
    | decide
    | apply Only.after ownerEvent_only
    | extract_lets
    | fail_if_no_progress refine Only.upd ?_
    | split
    | refine Only.ofPair (by assumption) ?_
    | intro _
    | dsimp only
    | dsimp +zetaDelta only

theorem startFlow_only {flow unit loc detail due s} : Only [.obj, .boot, .host, .dict, .out] s (startFlow flow unit loc detail due s) := by
  unfold startFlow
  with_reducible repeat' first
    | exact Only.refl _
    | assumption
    | decide
    | apply Only.after recoveryEvent_only
    | extract_lets
    | fail_if_no_progress refine Only.upd ?_
    | split
    | refine Only.ofPair (by assumption) ?_
    | intro _
    | dsimp only
    | dsimp +zetaDelta only

theorem draw_only {s} : Only [.freeCtr] s (draw s).2 := by
  unfold draw
  with_reducible repeat' first
    | exact Only.refl _
    | assumption
    | decide
    | extract_lets
    | fail_if_no_progress refine Only.upd ?_
    | split
    | refine Only.ofPair (by assumption) ?_
    | intro _
    | dsimp only
    | dsimp +zetaDelta only

theorem store_only {a l s} : Only [.mem] s (store a l s) := by
  unfold store
  with_reducible repeat' first
    | exact Only.refl _
    | assumption
    | decide
    | extract_lets
    | fail_if_no_progress refine Only.upd ?_
    | split
    | refine Only.ofPair (by assumption) ?_
    | intro _
    | dsimp only
    | dsimp +zetaDelta only

theorem accessError_only {loc fn bar addr s} : Only [.obj] s (accessError loc fn bar addr s) := by
  unfold accessError
  with_reducible repeat' first
    | exact Only.refl _
    | assumption
    | decide
    | apply Only.after bump_only
    | apply Only.after wr_only
    | extract_lets
    | fail_if_no_progress refine Only.upd ?_
    | split
    | refine Only.ofPair (by assumption) ?_
    | intro _
    | dsimp only
    | dsimp +zetaDelta only

theorem refusedW_only {a s} : Only [] s (refusedW a s).2 := by
  unfold refusedW
  with_reducible repeat' first
    | exact Only.refl _
    | assumption
    | decide
    | extract_lets
    | fail_if_no_progress refine Only.upd ?_
    | split
    | refine Only.ofPair (by assumption) ?_
    | intro _
    | dsimp only
    | dsimp +zetaDelta only

theorem accepted_only {s} : Only [] s (accepted s).2 := by
  unfold accepted
  with_reducible repeat' first
    | exact Only.refl _
    | assumption
    | decide
    | extract_lets
    | fail_if_no_progress refine Only.upd ?_
    | split
    | refine Only.ofPair (by assumption) ?_
    | intro _
    | dsimp only
    | dsimp +zetaDelta only

theorem countAbort_only {o s} : Only [.obj] s (countAbort o s) := by
  unfold countAbort
  with_reducible repeat' first
    | exact Only.refl _
    | assumption
    | decide
    | apply Only.after bump_only
    | extract_lets
    | fail_if_no_progress refine Only.upd ?_
    | split
    | refine Only.ofPair (by assumption) ?_
    | intro _
    | dsimp only
    | dsimp +zetaDelta only

theorem mailboxRespond_only {f l s} : Only [.obj, .host, .out] s (mailboxRespond f l s) := by
  unfold mailboxRespond
  with_reducible repeat' first
    | exact Only.refl _
    | assumption
    | decide
    | apply Only.after modFn_only
    | apply Only.after msix_only
    | extract_lets
    | fail_if_no_progress refine Only.upd ?_
    | split
    | refine Only.ofPair (by assumption) ?_
    | intro _
    | dsimp only
    | dsimp +zetaDelta only

theorem giveReply_only {r s0} : Only [.obj, .host, .dict, .out] s0 (giveReply r s0) := by
  unfold giveReply
  with_reducible repeat' first
    | exact Only.refl _
    | assumption
    | decide
    | apply Only.after countAbort_only
    | apply Only.after mailboxRespond_only
    | apply Only.after send_only
    | extract_lets
    | fail_if_no_progress refine Only.upd ?_
    | split
    | refine Only.ofPair (by assumption) ?_
    | intro _
    | dsimp only
    | dsimp +zetaDelta only

theorem wrI_only {k w v s} : Only [.obj] s (wrI k w v s) := by
  unfold wrI
  with_reducible repeat' first
    | exact Only.refl _
    | assumption
    | decide
    | apply Only.after wr_only
    | extract_lets
    | fail_if_no_progress refine Only.upd ?_
    | split
    | refine Only.ofPair (by assumption) ?_
    | intro _
    | dsimp only
    | dsimp +zetaDelta only

theorem eqDrain_only {f s} : Only [.obj, .host, .out] s (eqDrain f s) := by
  unfold eqDrain
  with_reducible repeat' first
    | exact Only.refl _
    | assumption
    | decide
    | apply Only.after eqAppend_only
    | apply Only.after modFn_only
    | extract_lets
    | fail_if_no_progress refine Only.upd ?_
    | split
    | refine Only.ofPair (by assumption) ?_
    | intro _
    | dsimp only
    | dsimp +zetaDelta only

theorem endFlow_only {flow unit outcome loc detail s} : Only [.obj, .boot, .host, .dict, .out] s (endFlow flow unit outcome loc detail s) := by
  unfold endFlow
  with_reducible repeat' first
    | exact Only.refl _
    | assumption
    | decide
    | apply Only.after recoveryEvent_only
    | extract_lets
    | fail_if_no_progress refine Only.upd ?_
    | split
    | refine Only.ofPair (by assumption) ?_
    | intro _
    | dsimp only
    | dsimp +zetaDelta only

theorem lineUse_only {a0 job n s} : Only [.work] s (lineUse a0 job n s) := by
  unfold lineUse
  with_reducible repeat' first
    | exact Only.refl _
    | assumption
    | decide
    | apply Only.after meter_only
    | apply Only.after addExcess_only
    | extract_lets
    | fail_if_no_progress refine Only.upd ?_
    | split
    | refine Only.ofPair (by assumption) ?_
    | intro _
    | dsimp only
    | dsimp +zetaDelta only

end Sys2Proof.Machine
end

