-- ==== Sys2Proof/Laws/OnlyClaims.lean ====
section
/-!
SUPPORT. The frame of every operation of Machine/Claims.lean: the parts of the state it can change.
-/
namespace Sys2Proof.Machine

set_option Elab.async false

set_option linter.unusedTactic false
set_option linter.unreachableTactic false
set_option linter.unusedVariables false

theorem modVec_only {n f s} : Only [.sage] s (modVec n f s) := by
  unfold modVec
  with_reducible repeat' first
    | exact Only.refl _
    | assumption
    | decide
    | extract_lets
    | fail_if_no_progress refine Only.upd ?_
    | split
    | refine Only.ofPair (by assumption) ?_
    | intro _
    | dsimp only
    | dsimp +zetaDelta only

theorem restartIdle_only {n s} : Only [.sage] s (restartIdle n s) := by
  unfold restartIdle
  with_reducible repeat' first
    | exact Only.refl _
    | assumption
    | decide
    | apply Only.after modVec_only
    | extract_lets
    | fail_if_no_progress refine Only.upd ?_
    | split
    | refine Only.ofPair (by assumption) ?_
    | intro _
    | dsimp only
    | dsimp +zetaDelta only

theorem modCmc_only {cl f s} : Only [.sage] s (modCmc cl f s) := by
  unfold modCmc
  with_reducible repeat' first
    | exact Only.refl _
    | assumption
    | decide
    | extract_lets
    | fail_if_no_progress refine Only.upd ?_
    | split
    | refine Only.ofPair (by assumption) ?_
    | intro _
    | dsimp only
    | dsimp +zetaDelta only

theorem dropRequest_only {n s} : Only [.sage] s (dropRequest n s) := by
  unfold dropRequest
  with_reducible repeat' first
    | exact Only.refl _
    | assumption
    | decide
    | apply Only.after modCmc_only
    | extract_lets
    | fail_if_no_progress refine Only.upd ?_
    | split
    | refine Only.ofPair (by assumption) ?_
    | intro _
    | dsimp only
    | dsimp +zetaDelta only

theorem cmcRelease_only {n s} : Only [.obj, .sage] s (cmcRelease n s) := by
  unfold cmcRelease
  with_reducible repeat' first
    | exact Only.refl _
    | assumption
    | decide
    | apply Only.after peak_only
    | apply Only.after modCmc_only
    | extract_lets
    | fail_if_no_progress refine Only.upd ?_
    | split
    | refine Only.ofPair (by assumption) ?_
    | intro _
    | dsimp only
    | dsimp +zetaDelta only

theorem coreStop_only {n s} : Only [.obj, .sage] s (coreStop n s) := by
  unfold coreStop
  with_reducible repeat' first
    | exact Only.refl _
    | assumption
    | decide
    | apply Only.after restartIdle_only
    | apply Only.after dropRequest_only
    | apply Only.after cmcRelease_only
    | extract_lets
    | fail_if_no_progress refine Only.upd ?_
    | split
    | refine Only.ofPair (by assumption) ?_
    | intro _
    | dsimp only
    | dsimp +zetaDelta only

theorem dropXferReads_only {n s} : Only [.host] s (dropXferReads n s) := by
  unfold dropXferReads
  with_reducible repeat' first
    | exact Only.refl _
    | assumption
    | decide
    | extract_lets
    | fail_if_no_progress refine Only.upd ?_
    | split
    | refine Only.ofPair (by assumption) ?_
    | intro _
    | dsimp only
    | dsimp +zetaDelta only

theorem dropSaved_only {s} : Only [.sage] s (dropSaved s) := by
  unfold dropSaved
  with_reducible repeat' first
    | exact Only.refl _
    | assumption
    | decide
    | extract_lets
    | fail_if_no_progress refine Only.upd ?_
    | split
    | refine Only.ofPair (by assumption) ?_
    | intro _
    | dsimp only
    | dsimp +zetaDelta only

theorem unitOver_only {u s} : Only [.obj, .host, .sage] s (unitOver u s) := by
  unfold unitOver
  with_reducible repeat' first
    | exact Only.refl _
    | assumption
    | decide
    | apply Only.after coreStop_only
    | apply Only.after dropXferReads_only
    | extract_lets
    | fail_if_no_progress refine Only.upd ?_
    | split
    | refine Only.ofPair (by assumption) ?_
    | intro _
    | dsimp only
    | dsimp +zetaDelta only

theorem modCore_only {n f s} : Only [.sage] s (modCore n f s) := by
  unfold modCore
  with_reducible repeat' first
    | exact Only.refl _
    | assumption
    | decide
    | extract_lets
    | fail_if_no_progress refine Only.upd ?_
    | split
    | refine Only.ofPair (by assumption) ?_
    | intro _
    | dsimp only
    | dsimp +zetaDelta only

theorem cmcRevoke_only {n s} : Only [.obj, .sage] s (cmcRevoke n s) := by
  unfold cmcRevoke
  with_reducible repeat' first
    | exact Only.refl _
    | assumption
    | decide
    | apply Only.after bumpBy_only
    | apply Only.after cmcRelease_only
    | extract_lets
    | fail_if_no_progress refine Only.upd ?_
    | split
    | refine Only.ofPair (by assumption) ?_
    | intro _
    | dsimp only
    | dsimp +zetaDelta only

theorem cmcClaim_only {n s} : Only [.obj, .sage] s (cmcClaim n s).2 := by
  unfold cmcClaim
  with_reducible repeat' first
    | exact Only.refl _
    | assumption
    | decide
    | apply Only.after bump_only
    | apply Only.after modCmc_only
    | extract_lets
    | fail_if_no_progress refine Only.upd ?_
    | split
    | refine Only.ofPair (by assumption) ?_
    | intro _
    | dsimp only
    | dsimp +zetaDelta only

end Sys2Proof.Machine
end

