-- ==== Sys2Proof/Laws/OnlyHostReads.lean ====
section
/-!
SUPPORT. The frame of every operation of Machine/HostReads.lean: the parts of the state it can change.
-/
namespace Sys2Proof.Machine

set_option Elab.async false

set_option linter.unusedTactic false
set_option linter.unreachableTactic false
set_option linter.unusedVariables false

theorem dropRead_only {u s} : Only [.host] s (dropRead u s) := by
  unfold dropRead
  with_reducible repeat' first
    | exact Only.refl _
    | assumption
    | decide
    | extract_lets
    | fail_if_no_progress refine Only.upd ?_
    | split
    | refine Only.ofPair (by assumption) ?_
    | intro _
    | dsimp only
    | dsimp +zetaDelta only

theorem pumpRead_only {u s} : Only [.obj, .host, .out] s (pumpRead u s) := by
  unfold pumpRead
  with_reducible repeat' first
    | exact Only.refl _
    | assumption
    | decide
    | apply Only.after askTranslation_only
    | apply Only.after send_only
    | apply Only.after touchTranslation_only
    | extract_lets
    | fail_if_no_progress refine Only.upd ?_
    | split
    | refine Only.ofPair (by assumption) ?_
    | intro _
    | dsimp only
    | dsimp +zetaDelta only

theorem startRead_only {f u addr len s} : Only [.obj, .host, .out] s (startRead f u addr len s) := by
  unfold startRead
  with_reducible repeat' first
    | exact Only.refl _
    | assumption
    | decide
    | apply Only.after pumpRead_only
    | extract_lets
    | fail_if_no_progress refine Only.upd ?_
    | split
    | refine Only.ofPair (by assumption) ?_
    | intro _
    | dsimp only
    | dsimp +zetaDelta only

theorem pumpReads_only {s} : Only [.obj, .host, .out] s (pumpReads s) := by
  unfold pumpReads
  with_reducible repeat' first
    | exact Only.refl _
    | assumption
    | decide
    | apply Only.after pumpRead_only
    | apply Only.each
    | extract_lets
    | fail_if_no_progress refine Only.upd ?_
    | split
    | refine Only.ofPair (by assumption) ?_
    | intro _
    | dsimp only
    | dsimp +zetaDelta only

theorem answerInvalidations_only {s} : Only [.host, .out] s (answerInvalidations s) := by
  unfold answerInvalidations
  with_reducible repeat' first
    | exact Only.refl _
    | assumption
    | decide
    | apply Only.after send_only
    | apply Only.each
    | extract_lets
    | fail_if_no_progress refine Only.upd ?_
    | split
    | refine Only.ofPair (by assumption) ?_
    | intro _
    | dsimp only
    | dsimp +zetaDelta only

theorem freeTagEnt_only {e s} : Only [.host] s (freeTagEnt e s) := by
  unfold freeTagEnt
  with_reducible repeat' first
    | exact Only.refl _
    | assumption
    | decide
    | extract_lets
    | fail_if_no_progress refine Only.upd ?_
    | split
    | refine Only.ofPair (by assumption) ?_
    | intro _
    | dsimp only
    | dsimp +zetaDelta only

theorem holdLines_only {o n s} : Only [.host] s (holdLines o n s) := by
  unfold holdLines
  with_reducible repeat' first
    | exact Only.refl _
    | assumption
    | decide
    | extract_lets
    | fail_if_no_progress refine Only.upd ?_
    | split
    | refine Only.ofPair (by assumption) ?_
    | intro _
    | dsimp only
    | dsimp +zetaDelta only

theorem modRead_only {u f s} : Only [.host] s (modRead u f s) := by
  unfold modRead
  with_reducible repeat' first
    | exact Only.refl _
    | assumption
    | decide
    | extract_lets
    | fail_if_no_progress refine Only.upd ?_
    | split
    | refine Only.ofPair (by assumption) ?_
    | intro _
    | dsimp only
    | dsimp +zetaDelta only

theorem readArrived_only {e data s} : Only [.host] s (readArrived e data s) := by
  unfold readArrived
  with_reducible repeat' first
    | exact Only.refl _
    | assumption
    | decide
    | apply Only.after holdLines_only
    | apply Only.after modRead_only
    | extract_lets
    | fail_if_no_progress refine Only.upd ?_
    | split
    | refine Only.ofPair (by assumption) ?_
    | intro _
    | dsimp only
    | dsimp +zetaDelta only

theorem flushWaits_only {f s} : Only [.obj, .host, .out] s (flushWaits f s) := by
  unfold flushWaits
  with_reducible repeat' first
    | exact Only.refl _
    | assumption
    | decide
    | apply Only.after passItem_only
    | apply Only.each
    | extract_lets
    | fail_if_no_progress refine Only.upd ?_
    | split
    | refine Only.ofPair (by assumption) ?_
    | intro _
    | dsimp only
    | dsimp +zetaDelta only

theorem readFailed_only {e x s} : Only [.host] s (readFailed e x s) := by
  unfold readFailed
  with_reducible repeat' first
    | exact Only.refl _
    | assumption
    | decide
    | apply Only.after modRead_only
    | extract_lets
    | fail_if_no_progress refine Only.upd ?_
    | split
    | refine Only.ofPair (by assumption) ?_
    | intro _
    | dsimp only
    | dsimp +zetaDelta only

end Sys2Proof.Machine
end

