-- ==== Sys2Proof/Laws/OnlyDram.lean ====
section
/-!
SUPPORT. The frame of every operation of Machine/Dram.lean: the parts of the state it can change.
-/
namespace Sys2Proof.Machine

set_option Elab.async false

set_option linter.unusedTactic false
set_option linter.unreachableTactic false
set_option linter.unusedVariables false

theorem setPoison_only {line s} : Only [.dram] s (setPoison line s) := by
  unfold setPoison
  with_reducible repeat' first
    | exact Only.refl _
    | assumption
    | decide
    | extract_lets
    | fail_if_no_progress refine Only.upd ?_
    | split
    | refine Only.ofPair (by assumption) ?_
    | intro _
    | dsimp only
    | dsimp +zetaDelta only

theorem setChans_only {v s} : Only [.obj] s (setChans v s) := by
  unfold setChans
  with_reducible repeat' first
    | exact Only.refl _
    | assumption
    | decide
    | apply Only.after wr_only
    | apply Only.each
    | extract_lets
    | fail_if_no_progress refine Only.upd ?_
    | split
    | refine Only.ofPair (by assumption) ?_
    | intro _
    | dsimp only
    | dsimp +zetaDelta only

theorem wStart_only {v s} : Only [.obj] s (wStart v s).2 := by
  unfold wStart
  with_reducible repeat' first
    | exact Only.refl _
    | assumption
    | decide
    | apply Only.after refusedW_only
    | apply Only.after accepted_only
    | apply Only.after wr_only
    | apply Only.after setChans_only
    | apply Only.each
    | extract_lets
    | fail_if_no_progress refine Only.upd ?_
    | split
    | refine Only.ofPair (by assumption) ?_
    | intro _
    | dsimp only
    | dsimp +zetaDelta only

theorem dramEvent_only {typ cause c rank dev value s} : Only [.obj, .host, .dict, .out] s (dramEvent typ cause c rank dev value s) := by
  unfold dramEvent
  with_reducible repeat' first
    | exact Only.refl _
    | assumption
    | decide
    | apply Only.after ownerEvent_only
    | extract_lets
    | fail_if_no_progress refine Only.upd ?_
    | split
    | refine Only.ofPair (by assumption) ?_
    | intro _
    | dsimp only
    | dsimp +zetaDelta only

theorem dramStat_only {c i s} : Only [.obj] s (dramStat c i s) := by
  unfold dramStat
  with_reducible repeat' first
    | exact Only.refl _
    | assumption
    | decide
    | apply Only.after bump_only
    | extract_lets
    | fail_if_no_progress refine Only.upd ?_
    | split
    | refine Only.ofPair (by assumption) ?_
    | intro _
    | dsimp only
    | dsimp +zetaDelta only

theorem retirePage_only {c line s} : Only [.obj, .host, .dict, .dram, .sram, .out] s (retirePage c line s) := by
  unfold retirePage
  with_reducible repeat' first
    | exact Only.refl _
    | assumption
    | decide
    | apply Only.after dramEvent_only
    | apply Only.after dramStat_only
    | apply Only.after setPoison_only
    | apply Only.after bumpBy_only
    | extract_lets
    | fail_if_no_progress refine Only.upd ?_
    | split
    | refine Only.ofPair (by assumption) ?_
    | intro _
    | dsimp only
    | dsimp +zetaDelta only

theorem modChan_only {c f s} : Only [.dram] s (modChan c f s) := by
  unfold modChan
  with_reducible repeat' first
    | exact Only.refl _
    | assumption
    | decide
    | extract_lets
    | fail_if_no_progress refine Only.upd ?_
    | split
    | refine Only.ofPair (by assumption) ?_
    | intro _
    | dsimp only
    | dsimp +zetaDelta only

theorem modRank_only {c r f s} : Only [.dram] s (modRank c r f s) := by
  unfold modRank
  with_reducible repeat' first
    | exact Only.refl _
    | assumption
    | decide
    | apply Only.after modChan_only
    | extract_lets
    | fail_if_no_progress refine Only.upd ?_
    | split
    | refine Only.ofPair (by assumption) ?_
    | intro _
    | dsimp only
    | dsimp +zetaDelta only

theorem startRecentre_only {c r s} : Only [.dram] s (startRecentre c r s) := by
  unfold startRecentre
  with_reducible repeat' first
    | exact Only.refl _
    | assumption
    | decide
    | apply Only.after modRank_only
    | extract_lets
    | fail_if_no_progress refine Only.upd ?_
    | split
    | refine Only.ofPair (by assumption) ?_
    | intro _
    | dsimp only
    | dsimp +zetaDelta only

theorem wDramRecentre_only {c v s} : Only [.dram] s (wDramRecentre c v s).2 := by
  unfold wDramRecentre
  with_reducible repeat' first
    | exact Only.refl _
    | assumption
    | decide
    | apply Only.after refusedW_only
    | apply Only.after accepted_only
    | apply Only.after startRecentre_only
    | apply Only.each
    | extract_lets
    | fail_if_no_progress refine Only.upd ?_
    | split
    | refine Only.ofPair (by assumption) ?_
    | intro _
    | dsimp only
    | dsimp +zetaDelta only

theorem execDramStart_only {s} : Runs [.obj, .out] s (execDramStart s) := by
  unfold execDramStart
  with_reducible repeat' first
    | exact Only.refl _
    | assumption
    | decide
    | apply Runs.done
    | apply Runs.whenDue
    | apply Runs.answer
    | apply Runs.next
    | apply Runs.elim
    | apply Only.after wStart_only
    | extract_lets
    | fail_if_no_progress refine Only.upd ?_
    | split
    | refine Only.ofPair (by assumption) ?_
    | intro _
    | dsimp only
    | dsimp +zetaDelta only

theorem execDramStop_only {s} : Runs [.obj, .out] s (execDramStop s) := by
  unfold execDramStop
  with_reducible repeat' first
    | exact Only.refl _
    | assumption
    | decide
    | apply Runs.done
    | apply Runs.whenDue
    | apply Runs.answer
    | apply Runs.next
    | apply Runs.elim
    | apply Only.after wStart_only
    | extract_lets
    | fail_if_no_progress refine Only.upd ?_
    | split
    | refine Only.ofPair (by assumption) ?_
    | intro _
    | dsimp only
    | dsimp +zetaDelta only

theorem captureCal_only {c r rdVref wrVref rdEye wrEye s} : Only [.obj, .dram] s (captureCal c r rdVref wrVref rdEye wrEye s) := by
  unfold captureCal
  with_reducible repeat' first
    | exact Only.refl _
    | assumption
    | decide
    | apply Only.after wr_only
    | apply Only.after modRank_only
    | extract_lets
    | fail_if_no_progress refine Only.upd ?_
    | split
    | refine Only.ofPair (by assumption) ?_
    | intro _
    | dsimp only
    | dsimp +zetaDelta only

theorem dramRunning_only {s} : Only [.obj] s (dramRunning s) := by
  unfold dramRunning
  with_reducible repeat' first
    | exact Only.refl _
    | assumption
    | decide
    | apply Only.after wr_only
    | extract_lets
    | fail_if_no_progress refine Only.upd ?_
    | split
    | refine Only.ofPair (by assumption) ?_
    | intro _
    | dsimp only
    | dsimp +zetaDelta only

theorem failChannel_only {c s} : Only [.obj, .boot, .host, .dict, .out] s (failChannel c s) := by
  unfold failChannel
  with_reducible repeat' first
    | exact Only.refl _
    | assumption
    | decide
    | apply Only.after dramEvent_only
    | apply Only.after wr_only
    | apply Only.after startFlow_only
    | extract_lets
    | fail_if_no_progress refine Only.upd ?_
    | split
    | refine Only.ofPair (by assumption) ?_
    | intro _
    | dsimp only
    | dsimp +zetaDelta only

theorem execDramTrainDone_only {failed e s} : Runs [.obj, .boot, .host, .dict, .dram, .out] s (execDramTrainDone failed e s) := by
  unfold execDramTrainDone
  with_reducible repeat' first
    | exact Only.refl _
    | assumption
    | decide
    | apply Runs.done
    | apply Runs.whenDue
    | apply Runs.answer
    | apply Runs.next
    | apply Runs.elim
    | apply Only.after captureCal_only
    | apply Only.after modChan_only
    | apply Only.after wr_only
    | apply Only.after endFlow_only
    | apply Only.after dramRunning_only
    | apply Only.after failChannel_only
    | apply Only.each
    | extract_lets
    | fail_if_no_progress refine Only.upd ?_
    | split
    | refine Only.ofPair (by assumption) ?_
    | intro _
    | dsimp only
    | dsimp +zetaDelta only

theorem clearPoison_only {line s} : Only [.dram] s (clearPoison line s) := by
  unfold clearPoison
  with_reducible repeat' first
    | exact Only.refl _
    | assumption
    | decide
    | extract_lets
    | fail_if_no_progress refine Only.upd ?_
    | split
    | refine Only.ofPair (by assumption) ?_
    | intro _
    | dsimp only
    | dsimp +zetaDelta only

theorem applyLineWrite_only {r s} : Only [.dram, .mem] s (applyLineWrite r s) := by
  unfold applyLineWrite
  with_reducible repeat' first
    | exact Only.refl _
    | assumption
    | decide
    | apply Only.after clearPoison_only
    | apply Only.after store_only
    | extract_lets
    | fail_if_no_progress refine Only.upd ?_
    | split
    | refine Only.ofPair (by assumption) ?_
    | intro _
    | dsimp only
    | dsimp +zetaDelta only

theorem enterQueue_only {c r s} : Only [.obj, .dram, .mem] s (enterQueue c r s) := by
  unfold enterQueue
  with_reducible repeat' first
    | exact Only.refl _
    | assumption
    | decide
    | apply Only.after dramStat_only
    | apply Only.after modChan_only
    | apply Only.after applyLineWrite_only
    | extract_lets
    | fail_if_no_progress refine Only.upd ?_
    | split
    | refine Only.ofPair (by assumption) ?_
    | intro _
    | dsimp only
    | dsimp +zetaDelta only

theorem dramAccess_only {r addr s} : Only [.obj, .dram, .mem, .out] s (dramAccess r addr s) := by
  unfold dramAccess
  with_reducible repeat' first
    | exact Only.refl _
    | assumption
    | decide
    | apply Only.after send_only
    | apply Only.after accessError_only
    | apply Only.after wr_only
    | apply Only.after enterQueue_only
    | apply Only.after modChan_only
    | extract_lets
    | fail_if_no_progress refine Only.upd ?_
    | split
    | refine Only.ofPair (by assumption) ?_
    | intro _
    | dsimp only
    | dsimp +zetaDelta only

theorem execDramRequest_only {port tenant job addr data s} : Runs [.obj, .dram, .mem, .out] s (execDramRequest port tenant job addr data s) := by
  unfold execDramRequest
  with_reducible repeat' first
    | exact Only.refl _
    | assumption
    | decide
    | apply Runs.done
    | apply Runs.whenDue
    | apply Runs.answer
    | apply Runs.next
    | apply Runs.elim
    | apply Only.after dramAccess_only
    | extract_lets
    | fail_if_no_progress refine Only.upd ?_
    | split
    | refine Only.ofPair (by assumption) ?_
    | intro _
    | dsimp only
    | dsimp +zetaDelta only

theorem activate_only {c l s} : Only [.obj, .dram, .out] s (activate c l s) := by
  unfold activate
  with_reducible repeat' first
    | exact Only.refl _
    | assumption
    | decide
    | apply Only.after dramStat_only
    | apply Only.after modChan_only
    | apply Only.after send_only
    | apply Only.each
    | extract_lets
    | fail_if_no_progress refine Only.upd ?_
    | split
    | refine Only.ofPair (by assumption) ?_
    | intro _
    | dsimp only
    | dsimp +zetaDelta only

theorem openRow_only {c r s} : Only [.obj, .dram, .out] s (openRow c r s) := by
  unfold openRow
  with_reducible repeat' first
    | exact Only.refl _
    | assumption
    | decide
    | apply Only.after dramStat_only
    | apply Only.after activate_only
    | extract_lets
    | fail_if_no_progress refine Only.upd ?_
    | split
    | refine Only.ofPair (by assumption) ?_
    | intro _
    | dsimp only
    | dsimp +zetaDelta only

theorem admitWaiting_only {c a1 a2} : Only [.obj, .dram, .mem] a2 (admitWaiting c a1 a2) := by
  induction a1 generalizing a2 with
  | zero => unfold admitWaiting; exact Only.refl _
  | succ k ih =>
    unfold admitWaiting
    with_reducible repeat' first
      | exact Only.refl _
      | assumption
      | decide
      | exact Only.trans (by assumption) ih
      | apply Only.after ih
      | apply Only.after enterQueue_only
      | apply Only.after modChan_only
      | extract_lets
      | fail_if_no_progress refine Only.upd ?_
      | split
      | dsimp only
      | dsimp +zetaDelta only

theorem latency_only {c r s} : Only [.obj] s (latency c r s) := by
  unfold latency
  with_reducible repeat' first
    | exact Only.refl _
    | assumption
    | decide
    | apply Only.after peak_only
    | extract_lets
    | fail_if_no_progress refine Only.upd ?_
    | split
    | refine Only.ofPair (by assumption) ?_
    | intro _
    | dsimp only
    | dsimp +zetaDelta only

theorem meterLines_only {r n s} : Only [.work] s (meterLines r n s) := by
  unfold meterLines
  with_reducible repeat' first
    | exact Only.refl _
    | assumption
    | decide
    | apply Only.after lineUse_only
    | extract_lets
    | fail_if_no_progress refine Only.upd ?_
    | split
    | refine Only.ofPair (by assumption) ?_
    | intro _
    | dsimp only
    | dsimp +zetaDelta only

theorem performWrite_only {c r s} : Only [.obj, .work, .dram, .mem, .out] s (performWrite c r s) := by
  unfold performWrite
  with_reducible repeat' first
    | exact Only.refl _
    | assumption
    | decide
    | apply Only.after dramStat_only
    | apply Only.after openRow_only
    | apply Only.after modChan_only
    | apply Only.after admitWaiting_only
    | apply Only.after latency_only
    | apply Only.after meterLines_only
    | extract_lets
    | fail_if_no_progress refine Only.upd ?_
    | split
    | refine Only.ofPair (by assumption) ?_
    | intro _
    | dsimp only
    | dsimp +zetaDelta only

theorem serveWrites_only {c a1 a2} : Only [.obj, .work, .dram, .mem, .out] a2 (serveWrites c a1 a2) := by
  induction a1 generalizing a2 with
  | zero => unfold serveWrites; exact Only.refl _
  | succ k ih =>
    unfold serveWrites
    with_reducible repeat' first
      | exact Only.refl _
      | assumption
      | decide
      | exact Only.trans (by assumption) ih
      | apply Only.after ih
      | apply Only.after performWrite_only
      | extract_lets
      | fail_if_no_progress refine Only.upd ?_
      | split
      | dsimp only
      | dsimp +zetaDelta only

theorem refreshRank_only {c r n s} : Only [.obj, .dram, .out] s (refreshRank c r n s) := by
  unfold refreshRank
  with_reducible repeat' first
    | exact Only.refl _
    | assumption
    | decide
    | apply Only.after dramStat_only
    | apply Only.after send_only
    | apply Only.after modChan_only
    | apply Only.after modRank_only
    | apply Only.each
    | extract_lets
    | fail_if_no_progress refine Only.upd ?_
    | split
    | refine Only.ofPair (by assumption) ?_
    | intro _
    | dsimp only
    | dsimp +zetaDelta only

theorem payOwed_only {c s} : Only [.obj, .dram, .out] s (payOwed c s) := by
  unfold payOwed
  with_reducible repeat' first
    | exact Only.refl _
    | assumption
    | decide
    | apply Only.after refreshRank_only
    | apply Only.each
    | extract_lets
    | fail_if_no_progress refine Only.upd ?_
    | split
    | refine Only.ofPair (by assumption) ?_
    | intro _
    | dsimp only
    | dsimp +zetaDelta only

theorem countCorrected_only {c rank dev s} : Only [.obj, .host, .dict, .dram, .out] s (countCorrected c rank dev s) := by
  unfold countCorrected
  with_reducible repeat' first
    | exact Only.refl _
    | assumption
    | decide
    | apply Only.after dramStat_only
    | apply Only.after wr_only
    | apply Only.after modChan_only
    | apply Only.after dramEvent_only
    | extract_lets
    | fail_if_no_progress refine Only.upd ?_
    | split
    | refine Only.ofPair (by assumption) ?_
    | intro _
    | dsimp only
    | dsimp +zetaDelta only

theorem freeze_only {c cause r devices syndrome s} : Only [.obj, .host, .dict, .dram, .out] s (freeze c cause r devices syndrome s) := by
  unfold freeze
  with_reducible repeat' first
    | exact Only.refl _
    | assumption
    | decide
    | apply Only.after dramEvent_only
    | apply Only.after dramStat_only
    | apply Only.after wr_only
    | apply Only.after modChan_only
    | extract_lets
    | fail_if_no_progress refine Only.upd ?_
    | split
    | refine Only.ofPair (by assumption) ?_
    | intro _
    | dsimp only
    | dsimp +zetaDelta only

theorem uncorrectable_only {c r devices syndrome s} : Only [.obj, .host, .dict, .dram, .out] s (uncorrectable c r devices syndrome s) := by
  unfold uncorrectable
  with_reducible repeat' first
    | exact Only.refl _
    | assumption
    | decide
    | apply Only.after modChan_only
    | apply Only.after bumpBy_only
    | apply Only.after dramStat_only
    | apply Only.after freeze_only
    | extract_lets
    | fail_if_no_progress refine Only.upd ?_
    | split
    | refine Only.ofPair (by assumption) ?_
    | intro _
    | dsimp only
    | dsimp +zetaDelta only

theorem returnRead_only {r bad s} : Only [.obj, .noc, .out] s (returnRead r bad s) := by
  unfold returnRead
  with_reducible repeat' first
    | exact Only.refl _
    | assumption
    | decide
    | apply Only.after send_only
    | apply Only.after accessError_only
    | extract_lets
    | fail_if_no_progress refine Only.upd ?_
    | split
    | refine Only.ofPair (by assumption) ?_
    | intro _
    | dsimp only
    | dsimp +zetaDelta only

theorem completeRead_only {c r chk s} : Only [.obj, .host, .dict, .work, .noc, .dram, .mem, .out] s (completeRead c r chk s) := by
  unfold completeRead
  with_reducible repeat' first
    | exact Only.refl _
    | assumption
    | decide
    | apply Only.after performWrite_only
    | apply Only.after countCorrected_only
    | apply Only.after uncorrectable_only
    | apply Only.after dramStat_only
    | apply Only.after modChan_only
    | apply Only.after latency_only
    | apply Only.after meterLines_only
    | apply Only.after openRow_only
    | apply Only.after returnRead_only
    | apply Only.after admitWaiting_only
    | extract_lets
    | fail_if_no_progress refine Only.upd ?_
    | split
    | refine Only.ofPair (by assumption) ?_
    | intro _
    | dsimp only
    | dsimp +zetaDelta only

theorem execDramReadDone_only {ch issuedBefore chk s} : Runs [.obj, .host, .dict, .work, .noc, .dram, .mem, .out] s (execDramReadDone ch issuedBefore chk s) := by
  unfold execDramReadDone
  with_reducible repeat' first
    | exact Only.refl _
    | assumption
    | decide
    | apply Runs.done
    | apply Runs.whenDue
    | apply Runs.answer
    | apply Runs.next
    | apply Runs.elim
    | apply Only.after serveWrites_only
    | apply Only.after payOwed_only
    | apply Only.after completeRead_only
    | extract_lets
    | fail_if_no_progress refine Only.upd ?_
    | split
    | refine Only.ofPair (by assumption) ?_
    | intro _
    | dsimp only
    | dsimp +zetaDelta only

theorem execDramAlert_only {ch newIncident s} : Runs [.obj, .host, .dict, .dram, .out] s (execDramAlert ch newIncident s) := by
  unfold execDramAlert
  with_reducible repeat' first
    | exact Only.refl _
    | assumption
    | decide
    | apply Runs.done
    | apply Runs.whenDue
    | apply Runs.answer
    | apply Runs.next
    | apply Runs.elim
    | apply Only.after dramStat_only
    | apply Only.after modChan_only
    | apply Only.after freeze_only
    | extract_lets
    | fail_if_no_progress refine Only.upd ?_
    | split
    | refine Only.ofPair (by assumption) ?_
    | intro _
    | dsimp only
    | dsimp +zetaDelta only

theorem endHeld_only {c s} : Only [.obj, .noc, .dram, .out] s (endHeld c s) := by
  unfold endHeld
  with_reducible repeat' first
    | exact Only.refl _
    | assumption
    | decide
    | apply Only.after returnRead_only
    | apply Only.after modChan_only
    | apply Only.each
    | extract_lets
    | fail_if_no_progress refine Only.upd ?_
    | split
    | refine Only.ofPair (by assumption) ?_
    | intro _
    | dsimp only
    | dsimp +zetaDelta only

theorem execDramRetrainDone_only {ch e s} : Runs [.obj, .boot, .host, .dict, .noc, .dram, .out] s (execDramRetrainDone ch e s) := by
  unfold execDramRetrainDone
  with_reducible repeat' first
    | exact Only.refl _
    | assumption
    | decide
    | apply Runs.done
    | apply Runs.whenDue
    | apply Runs.answer
    | apply Runs.next
    | apply Runs.elim
    | apply Only.after dramStat_only
    | apply Only.after wr_only
    | apply Only.after captureCal_only
    | apply Only.after failChannel_only
    | apply Only.after endHeld_only
    | apply Only.each
    | extract_lets
    | fail_if_no_progress refine Only.upd ?_
    | split
    | refine Only.ofPair (by assumption) ?_
    | intro _
    | dsimp only
    | dsimp +zetaDelta only

theorem placeBursts_only {c r n s} : Only [.dram, .freeCtr] s (placeBursts c r n s) := by
  unfold placeBursts
  with_reducible repeat' first
    | exact Only.refl _
    | assumption
    | decide
    | apply Only.after draw_only
    | apply Only.after modChan_only
    | apply Only.after modRank_only
    | extract_lets
    | fail_if_no_progress refine Only.upd ?_
    | split
    | refine Only.ofPair (by assumption) ?_
    | intro _
    | dsimp only
    | dsimp +zetaDelta only

theorem execDramRefresh_only {ch rank s} : Runs [.obj, .dram, .out, .freeCtr] s (execDramRefresh ch rank s) := by
  unfold execDramRefresh
  with_reducible repeat' first
    | exact Only.refl _
    | assumption
    | decide
    | apply Runs.done
    | apply Runs.whenDue
    | apply Runs.answer
    | apply Runs.next
    | apply Runs.elim
    | apply Only.after dramStat_only
    | apply Only.after modRank_only
    | apply Only.after placeBursts_only
    | apply Only.after refreshRank_only
    | extract_lets
    | fail_if_no_progress refine Only.upd ?_
    | split
    | refine Only.ofPair (by assumption) ?_
    | intro _
    | dsimp only
    | dsimp +zetaDelta only

theorem execRaaTableClear_only {ch s} : Runs [.dram] s (execRaaTableClear ch s) := by
  unfold execRaaTableClear
  with_reducible repeat' first
    | exact Only.refl _
    | assumption
    | decide
    | apply Runs.done
    | apply Runs.whenDue
    | apply Runs.answer
    | apply Runs.next
    | apply Runs.elim
    | apply Only.after modChan_only
    | extract_lets
    | fail_if_no_progress refine Only.upd ?_
    | split
    | refine Only.ofPair (by assumption) ?_
    | intro _
    | dsimp only
    | dsimp +zetaDelta only

theorem execDramTempPoll_only {ch a1 s} : Runs [.obj, .dram] s (execDramTempPoll ch a1 s) := by
  unfold execDramTempPoll
  with_reducible repeat' first
    | exact Only.refl _
    | assumption
    | decide
    | apply Runs.done
    | apply Runs.whenDue
    | apply Runs.answer
    | apply Runs.next
    | apply Runs.elim
    | apply Only.after wrI_only
    | apply Only.after wr_only
    | apply Only.after modChan_only
    | extract_lets
    | fail_if_no_progress refine Only.upd ?_
    | split
    | refine Only.ofPair (by assumption) ?_
    | intro _
    | dsimp only
    | dsimp +zetaDelta only

theorem checkRecord_only {c r trackLimit s} : Only [.obj, .host, .dict, .dram, .out] s (checkRecord c r trackLimit s) := by
  unfold checkRecord
  with_reducible repeat' first
    | exact Only.refl _
    | assumption
    | decide
    | apply Only.after dramEvent_only
    | apply Only.after modRank_only
    | apply Only.after wr_only
    | extract_lets
    | fail_if_no_progress refine Only.upd ?_
    | split
    | refine Only.ofPair (by assumption) ?_
    | intro _
    | dsimp only
    | dsimp +zetaDelta only

theorem execDramTrack_only {ch rank vddq overLimit s} : Runs [.obj, .host, .dict, .dram, .out, .freeCtr] s (execDramTrack ch rank vddq overLimit s) := by
  unfold execDramTrack
  with_reducible repeat' first
    | exact Only.refl _
    | assumption
    | decide
    | apply Runs.done
    | apply Runs.whenDue
    | apply Runs.answer
    | apply Runs.next
    | apply Runs.elim
    | apply Only.after draw_only
    | apply Only.after dramStat_only
    | apply Only.after wr_only
    | apply Only.after modRank_only
    | apply Only.after modChan_only
    | apply Only.after checkRecord_only
    | apply Only.after dramEvent_only
    | extract_lets
    | fail_if_no_progress refine Only.upd ?_
    | split
    | refine Only.ofPair (by assumption) ?_
    | intro _
    | dsimp only
    | dsimp +zetaDelta only

theorem execDramLoadWindow_only {ch busy total s} : Runs [.obj, .dram] s (execDramLoadWindow ch busy total s) := by
  unfold execDramLoadWindow
  with_reducible repeat' first
    | exact Only.refl _
    | assumption
    | decide
    | apply Runs.done
    | apply Runs.whenDue
    | apply Runs.answer
    | apply Runs.next
    | apply Runs.elim
    | apply Only.after modChan_only
    | apply Only.after wr_only
    | extract_lets
    | fail_if_no_progress refine Only.upd ?_
    | split
    | refine Only.ofPair (by assumption) ?_
    | intro _
    | dsimp only
    | dsimp +zetaDelta only

theorem execDramContextCheck_only {ch s} : Runs [.obj, .host, .dict, .dram, .out] s (execDramContextCheck ch s) := by
  unfold execDramContextCheck
  with_reducible repeat' first
    | exact Only.refl _
    | assumption
    | decide
    | apply Runs.done
    | apply Runs.whenDue
    | apply Runs.answer
    | apply Runs.next
    | apply Runs.elim
    | apply Only.after checkRecord_only
    | apply Only.each
    | extract_lets
    | fail_if_no_progress refine Only.upd ?_
    | split
    | refine Only.ofPair (by assumption) ?_
    | intro _
    | dsimp only
    | dsimp +zetaDelta only

theorem execDramRecentreStart_only {ch rank s} : Runs [.dram] s (execDramRecentreStart ch rank s) := by
  unfold execDramRecentreStart
  with_reducible repeat' first
    | exact Only.refl _
    | assumption
    | decide
    | apply Runs.done
    | apply Runs.whenDue
    | apply Runs.answer
    | apply Runs.next
    | apply Runs.elim
    | apply Only.after startRecentre_only
    | extract_lets
    | fail_if_no_progress refine Only.upd ?_
    | split
    | refine Only.ofPair (by assumption) ?_
    | intro _
    | dsimp only
    | dsimp +zetaDelta only

theorem execDramRecentreDone_only {ch rank e s} : Runs [.obj, .host, .dict, .dram, .out] s (execDramRecentreDone ch rank e s) := by
  unfold execDramRecentreDone
  with_reducible repeat' first
    | exact Only.refl _
    | assumption
    | decide
    | apply Runs.done
    | apply Runs.whenDue
    | apply Runs.answer
    | apply Runs.next
    | apply Runs.elim
    | apply Only.after dramEvent_only
    | apply Only.after dramStat_only
    | apply Only.after captureCal_only
    | apply Only.after modRank_only
    | extract_lets
    | fail_if_no_progress refine Only.upd ?_
    | split
    | refine Only.ofPair (by assumption) ?_
    | intro _
    | dsimp only
    | dsimp +zetaDelta only

theorem execDramRecentre_only {ch v s} : Runs [.dram, .out] s (execDramRecentre ch v s) := by
  unfold execDramRecentre
  with_reducible repeat' first
    | exact Only.refl _
    | assumption
    | decide
    | apply Runs.done
    | apply Runs.whenDue
    | apply Runs.answer
    | apply Runs.next
    | apply Runs.elim
    | apply Only.after wDramRecentre_only
    | extract_lets
    | fail_if_no_progress refine Only.upd ?_
    | split
    | refine Only.ofPair (by assumption) ?_
    | intro _
    | dsimp only
    | dsimp +zetaDelta only

theorem execDramScrub_only {chk s} : Runs [.obj, .host, .dict, .dram, .out] s (execDramScrub chk s) := by
  unfold execDramScrub
  with_reducible repeat' first
    | exact Only.refl _
    | assumption
    | decide
    | apply Runs.done
    | apply Runs.whenDue
    | apply Runs.answer
    | apply Runs.next
    | apply Runs.elim
    | apply Only.after dramStat_only
    | apply Only.after countCorrected_only
    | apply Only.after uncorrectable_only
    | extract_lets
    | fail_if_no_progress refine Only.upd ?_
    | split
    | refine Only.ofPair (by assumption) ?_
    | intro _
    | dsimp only
    | dsimp +zetaDelta only

theorem execPdIdleExpiry_only {ch s} : Runs [.obj] s (execPdIdleExpiry ch s) := by
  unfold execPdIdleExpiry
  with_reducible repeat' first
    | exact Only.refl _
    | assumption
    | decide
    | apply Runs.done
    | apply Runs.whenDue
    | apply Runs.answer
    | apply Runs.next
    | apply Runs.elim
    | apply Only.after wr_only
    | extract_lets
    | fail_if_no_progress refine Only.upd ?_
    | split
    | refine Only.ofPair (by assumption) ?_
    | intro _
    | dsimp only
    | dsimp +zetaDelta only

end Sys2Proof.Machine
end

