-- ==== Sys2Proof/Laws/OnlyMemory.lean ====
section
/-!
SUPPORT. The frame of every operation of Machine/Memory.lean: the parts of the state it can change.
-/
namespace Sys2Proof.Machine

set_option Elab.async false

set_option linter.unusedTactic false
set_option linter.unreachableTactic false
set_option linter.unusedVariables false

theorem handWord_only {code word s} : Only [.sram] s (handWord code word s) := by
  unfold handWord
  with_reducible repeat' first
    | exact Only.refl _
    | assumption
    | decide
    | extract_lets
    | fail_if_no_progress refine Only.upd ?_
    | split
    | refine Only.ofPair (by assumption) ?_
    | intro _
    | dsimp only
    | dsimp +zetaDelta only

theorem sramFault_only {cause loc bit s} : Only [.obj, .host, .dict, .out] s (sramFault cause loc bit s) := by
  unfold sramFault
  with_reducible repeat' first
    | exact Only.refl _
    | assumption
    | decide
    | apply Only.after ownerEvent_only
    | extract_lets
    | fail_if_no_progress refine Only.upd ?_
    | split
    | refine Only.ofPair (by assumption) ?_
    | intro _
    | dsimp only
    | dsimp +zetaDelta only

theorem demandFault_only {a n s} : Only [.obj, .host, .dict, .sram, .out] s (demandFault a n s) := by
  unfold demandFault
  with_reducible repeat' first
    | exact Only.refl _
    | assumption
    | decide
    | apply Only.after handWord_only
    | apply Only.after sramFault_only
    | extract_lets
    | fail_if_no_progress refine Only.upd ?_
    | split
    | refine Only.ofPair (by assumption) ?_
    | intro _
    | dsimp only
    | dsimp +zetaDelta only

theorem clearLinePoison_only {a n s} : Only [.dram] s (clearLinePoison a n s) := by
  unfold clearLinePoison
  with_reducible repeat' first
    | exact Only.refl _
    | assumption
    | decide
    | extract_lets
    | fail_if_no_progress refine Only.upd ?_
    | split
    | refine Only.ofPair (by assumption) ?_
    | intro _
    | dsimp only
    | dsimp +zetaDelta only

theorem clearMacroPoison_only {a n s} : Only [.sram] s (clearMacroPoison a n s) := by
  unfold clearMacroPoison
  with_reducible repeat' first
    | exact Only.refl _
    | assumption
    | decide
    | extract_lets
    | fail_if_no_progress refine Only.upd ?_
    | split
    | refine Only.ofPair (by assumption) ?_
    | intro _
    | dsimp only
    | dsimp +zetaDelta only

theorem memStore_only {a l s} : Only [.dram, .sram, .mem] s (memStore a l s) := by
  unfold memStore
  with_reducible repeat' first
    | exact Only.refl _
    | assumption
    | decide
    | apply Only.after store_only
    | apply Only.after clearLinePoison_only
    | apply Only.after clearMacroPoison_only
    | extract_lets
    | fail_if_no_progress refine Only.upd ?_
    | split
    | refine Only.ofPair (by assumption) ?_
    | intro _
    | dsimp only
    | dsimp +zetaDelta only

theorem poisonByte_only {code word byte s} : Only [.sram] s (poisonByte code word byte s) := by
  unfold poisonByte
  with_reducible repeat' first
    | exact Only.refl _
    | assumption
    | decide
    | extract_lets
    | fail_if_no_progress refine Only.upd ?_
    | split
    | refine Only.ofPair (by assumption) ?_
    | intro _
    | dsimp only
    | dsimp +zetaDelta only

theorem poisonRange_only {a n s} : Only [.dram, .sram] s (poisonRange a n s) := by
  unfold poisonRange
  with_reducible repeat' first
    | exact Only.refl _
    | assumption
    | decide
    | apply Only.after poisonByte_only
    | apply Only.after setPoison_only
    | apply Only.each
    | extract_lets
    | fail_if_no_progress refine Only.upd ?_
    | split
    | refine Only.ofPair (by assumption) ?_
    | intro _
    | dsimp only
    | dsimp +zetaDelta only

theorem modMacro_only {code f s} : Only [.sram] s (modMacro code f s) := by
  unfold modMacro
  with_reducible repeat' first
    | exact Only.refl _
    | assumption
    | decide
    | extract_lets
    | fail_if_no_progress refine Only.upd ?_
    | split
    | refine Only.ofPair (by assumption) ?_
    | intro _
    | dsimp only
    | dsimp +zetaDelta only

theorem loseRange_only {a n s} : Only [.sram, .mem] s (loseRange a n s) := by
  unfold loseRange
  with_reducible repeat' first
    | exact Only.refl _
    | assumption
    | decide
    | apply Only.after clearMacroPoison_only
    | extract_lets
    | fail_if_no_progress refine Only.upd ?_
    | split
    | refine Only.ofPair (by assumption) ?_
    | intro _
    | dsimp only
    | dsimp +zetaDelta only

end Sys2Proof.Machine
end

