-- ==== Sys2Proof/Laws/OnlyPower.lean ====
section
/-!
SUPPORT. The frame of every operation of Machine/Power.lean: the parts of the state it can change.
-/
namespace Sys2Proof.Machine

set_option Elab.async false

set_option linter.unusedTactic false
set_option linter.unreachableTactic false
set_option linter.unusedVariables false

theorem dropVotes_only {a0 s} : Only [.pow] s (dropVotes a0 s) := by
  unfold dropVotes
  with_reducible repeat' first
    | exact Only.refl _
    | assumption
    | decide
    | extract_lets
    | fail_if_no_progress refine Only.upd ?_
    | split
    | refine Only.ofPair (by assumption) ?_
    | intro _
    | dsimp only
    | dsimp +zetaDelta only

theorem addVote_only {v s} : Only [.pow] s (addVote v s) := by
  unfold addVote
  with_reducible repeat' first
    | exact Only.refl _
    | assumption
    | decide
    | extract_lets
    | fail_if_no_progress refine Only.upd ?_
    | split
    | refine Only.ofPair (by assumption) ?_
    | intro _
    | dsimp only
    | dsimp +zetaDelta only

theorem modDom_only {d f s} : Only [.pow] s (modDom d f s) := by
  unfold modDom
  with_reducible repeat' first
    | exact Only.refl _
    | assumption
    | decide
    | extract_lets
    | fail_if_no_progress refine Only.upd ?_
    | split
    | refine Only.ofPair (by assumption) ?_
    | intro _
    | dsimp only
    | dsimp +zetaDelta only

theorem powerEvent_only {cause d frm toward s} : Only [.obj, .host, .dict, .out] s (powerEvent cause d frm toward s) := by
  unfold powerEvent
  with_reducible repeat' first
    | exact Only.refl _
    | assumption
    | decide
    | apply Only.after ownerEvent_only
    | extract_lets
    | fail_if_no_progress refine Only.upd ?_
    | split
    | refine Only.ofPair (by assumption) ?_
    | intro _
    | dsimp only
    | dsimp +zetaDelta only

theorem clkHeldCheck_only {d s} : Only [.obj, .pow, .host, .dict, .out] s (clkHeldCheck d s) := by
  unfold clkHeldCheck
  with_reducible repeat' first
    | exact Only.refl _
    | assumption
    | decide
    | apply Only.after modDom_only
    | apply Only.after powerEvent_only
    | extract_lets
    | fail_if_no_progress refine Only.upd ?_
    | split
    | refine Only.ofPair (by assumption) ?_
    | intro _
    | dsimp only
    | dsimp +zetaDelta only

theorem setClk_only {d f s} : Only [.obj, .pow, .sage] s (setClk d f s) := by
  unfold setClk
  with_reducible repeat' first
    | exact Only.refl _
    | assumption
    | decide
    | apply Only.after modDom_only
    | apply Only.after wr_only
    | extract_lets
    | fail_if_no_progress refine Only.upd ?_
    | split
    | refine Only.ofPair (by assumption) ?_
    | intro _
    | dsimp only
    | dsimp +zetaDelta only

theorem govAct_only {d a s} : Only [.obj, .pow, .sage] s (govAct d a s) := by
  unfold govAct
  with_reducible repeat' first
    | exact Only.refl _
    | assumption
    | decide
    | apply Only.after modDom_only
    | apply Only.after setClk_only
    | extract_lets
    | fail_if_no_progress refine Only.upd ?_
    | split
    | refine Only.ofPair (by assumption) ?_
    | intro _
    | dsimp only
    | dsimp +zetaDelta only

theorem govRecord_only {a s} : Only [.pow] s (govRecord a s) := by
  unfold govRecord
  with_reducible repeat' first
    | exact Only.refl _
    | assumption
    | decide
    | extract_lets
    | fail_if_no_progress refine Only.upd ?_
    | split
    | refine Only.ofPair (by assumption) ?_
    | intro _
    | dsimp only
    | dsimp +zetaDelta only

theorem govern_only {d amp a s} : Only [.obj, .pow, .sage] s (govern d amp a s) := by
  unfold govern
  with_reducible repeat' first
    | exact Only.refl _
    | assumption
    | decide
    | apply Only.after govAct_only
    | apply Only.after govRecord_only
    | apply Only.after bump_only
    | extract_lets
    | fail_if_no_progress refine Only.upd ?_
    | split
    | refine Only.ofPair (by assumption) ?_
    | intro _
    | dsimp only
    | dsimp +zetaDelta only

theorem clockNotch_only {d s} : Only [.obj, .pow, .sage] s (clockNotch d s) := by
  unfold clockNotch
  with_reducible repeat' first
    | exact Only.refl _
    | assumption
    | decide
    | apply Only.after govern_only
    | apply Only.after setClk_only
    | extract_lets
    | fail_if_no_progress refine Only.upd ?_
    | split
    | refine Only.ofPair (by assumption) ?_
    | intro _
    | dsimp only
    | dsimp +zetaDelta only

theorem marginEvent_only {cause d s} : Only [.obj, .host, .dict, .out] s (marginEvent cause d s) := by
  unfold marginEvent
  with_reducible repeat' first
    | exact Only.refl _
    | assumption
    | decide
    | apply Only.after ownerEvent_only
    | extract_lets
    | fail_if_no_progress refine Only.upd ?_
    | split
    | refine Only.ofPair (by assumption) ?_
    | intro _
    | dsimp only
    | dsimp +zetaDelta only

theorem marginRecentre_only {d fSafe supply cls s} : Only [.obj, .pow, .host, .dict, .sage, .out] s (marginRecentre d fSafe supply cls s) := by
  unfold marginRecentre
  with_reducible repeat' first
    | exact Only.refl _
    | assumption
    | decide
    | apply Only.after wr_only
    | apply Only.after clkHeldCheck_only
    | apply Only.after clockNotch_only
    | apply Only.after marginEvent_only
    | apply Only.after modDom_only
    | extract_lets
    | fail_if_no_progress refine Only.upd ?_
    | split
    | refine Only.ofPair (by assumption) ?_
    | intro _
    | dsimp only
    | dsimp +zetaDelta only

theorem wDomainRecentre_only {d v fSafe supply cls s} : Only [.obj, .pow, .host, .dict, .sage, .out] s (wDomainRecentre d v fSafe supply cls s).2 := by
  unfold wDomainRecentre
  with_reducible repeat' first
    | exact Only.refl _
    | assumption
    | decide
    | apply Only.after accepted_only
    | apply Only.after marginRecentre_only
    | apply Only.after refusedW_only
    | extract_lets
    | fail_if_no_progress refine Only.upd ?_
    | split
    | refine Only.ofPair (by assumption) ?_
    | intro _
    | dsimp only
    | dsimp +zetaDelta only

theorem wVoteSet_only {a0 v s} : Only [.pow] s (wVoteSet a0 v s).2 := by
  unfold wVoteSet
  with_reducible repeat' first
    | exact Only.refl _
    | assumption
    | decide
    | apply Only.after refusedW_only
    | apply Only.after dropVotes_only
    | apply Only.after accepted_only
    | apply Only.after addVote_only
    | extract_lets
    | fail_if_no_progress refine Only.upd ?_
    | split
    | refine Only.ofPair (by assumption) ?_
    | intro _
    | dsimp only
    | dsimp +zetaDelta only

theorem wClkSet_only {d v s} : Only [.obj, .pow, .host, .dict, .sage, .out] s (wClkSet d v s).2 := by
  unfold wClkSet
  with_reducible repeat' first
    | exact Only.refl _
    | assumption
    | decide
    | apply Only.after refusedW_only
    | apply Only.after wr_only
    | apply Only.after accepted_only
    | apply Only.after clkHeldCheck_only
    | apply Only.after clockNotch_only
    | extract_lets
    | fail_if_no_progress refine Only.upd ?_
    | split
    | refine Only.ofPair (by assumption) ?_
    | intro _
    | dsimp only
    | dsimp +zetaDelta only

theorem powerStat_only {d i n s} : Only [.obj] s (powerStat d i n s) := by
  unfold powerStat
  with_reducible repeat' first
    | exact Only.refl _
    | assumption
    | decide
    | apply Only.after wr_only
    | extract_lets
    | fail_if_no_progress refine Only.upd ?_
    | split
    | refine Only.ofPair (by assumption) ?_
    | intro _
    | dsimp only
    | dsimp +zetaDelta only

theorem startExit_only {d s} : Only [.pow] s (startExit d s) := by
  unfold startExit
  with_reducible repeat' first
    | exact Only.refl _
    | assumption
    | decide
    | apply Only.after modDom_only
    | extract_lets
    | fail_if_no_progress refine Only.upd ?_
    | split
    | refine Only.ofPair (by assumption) ?_
    | intro _
    | dsimp only
    | dsimp +zetaDelta only

theorem domainWake_only {d clampsClosed s} : Only [.obj, .pow, .host, .dict, .out] s (domainWake d clampsClosed s) := by
  unfold domainWake
  with_reducible repeat' first
    | exact Only.refl _
    | assumption
    | decide
    | apply Only.after modDom_only
    | apply Only.after powerEvent_only
    | apply Only.after powerStat_only
    | apply Only.after startExit_only
    | extract_lets
    | fail_if_no_progress refine Only.upd ?_
    | split
    | refine Only.ofPair (by assumption) ?_
    | intro _
    | dsimp only
    | dsimp +zetaDelta only

theorem execVoteSet_only {a0 v s} : Runs [.pow, .out] s (execVoteSet a0 v s) := by
  unfold execVoteSet
  with_reducible repeat' first
    | exact Only.refl _
    | assumption
    | decide
    | apply Runs.done
    | apply Runs.whenDue
    | apply Runs.answer
    | apply Runs.next
    | apply Runs.elim
    | apply Only.after wVoteSet_only
    | extract_lets
    | fail_if_no_progress refine Only.upd ?_
    | split
    | refine Only.ofPair (by assumption) ?_
    | intro _
    | dsimp only
    | dsimp +zetaDelta only

theorem execDomainEntryStart_only {d s} : Runs [.obj, .pow, .sage] s (execDomainEntryStart d s) := by
  unfold execDomainEntryStart
  with_reducible repeat' first
    | exact Only.refl _
    | assumption
    | decide
    | apply Runs.done
    | apply Runs.whenDue
    | apply Runs.answer
    | apply Runs.next
    | apply Runs.elim
    | apply Only.after govern_only
    | apply Only.after govAct_only
    | extract_lets
    | fail_if_no_progress refine Only.upd ?_
    | split
    | refine Only.ofPair (by assumption) ?_
    | intro _
    | dsimp only
    | dsimp +zetaDelta only

theorem setDomState_only {d k s} : Only [.obj, .pow] s (setDomState d k s) := by
  unfold setDomState
  with_reducible repeat' first
    | exact Only.refl _
    | assumption
    | decide
    | apply Only.after powerStat_only
    | apply Only.after modDom_only
    | apply Only.after wr_only
    | extract_lets
    | fail_if_no_progress refine Only.upd ?_
    | split
    | refine Only.ofPair (by assumption) ?_
    | intro _
    | dsimp only
    | dsimp +zetaDelta only

theorem execDomainEntryDone_only {d s} : Runs [.obj, .pow, .host, .dict, .out] s (execDomainEntryDone d s) := by
  unfold execDomainEntryDone
  with_reducible repeat' first
    | exact Only.refl _
    | assumption
    | decide
    | apply Runs.done
    | apply Runs.whenDue
    | apply Runs.answer
    | apply Runs.next
    | apply Runs.elim
    | apply Only.after wr_only
    | apply Only.after powerStat_only
    | apply Only.after setDomState_only
    | apply Only.after modDom_only
    | apply Only.after startExit_only
    | apply Only.after powerEvent_only
    | extract_lets
    | fail_if_no_progress refine Only.upd ?_
    | split
    | refine Only.ofPair (by assumption) ?_
    | intro _
    | dsimp only
    | dsimp +zetaDelta only

theorem execDomainWake_only {d clampsClosed s} : Runs [.obj, .pow, .host, .dict, .out] s (execDomainWake d clampsClosed s) := by
  unfold execDomainWake
  with_reducible repeat' first
    | exact Only.refl _
    | assumption
    | decide
    | apply Runs.done
    | apply Runs.whenDue
    | apply Runs.answer
    | apply Runs.next
    | apply Runs.elim
    | apply Only.after domainWake_only
    | extract_lets
    | fail_if_no_progress refine Only.upd ?_
    | split
    | refine Only.ofPair (by assumption) ?_
    | intro _
    | dsimp only
    | dsimp +zetaDelta only

theorem marginStale_only {d s} : Only [.obj, .pow, .host, .dict, .sage, .out] s (marginStale d s) := by
  unfold marginStale
  with_reducible repeat' first
    | exact Only.refl _
    | assumption
    | decide
    | apply Only.after wr_only
    | apply Only.after modDom_only
    | apply Only.after clkHeldCheck_only
    | apply Only.after clockNotch_only
    | apply Only.after marginEvent_only
    | extract_lets
    | fail_if_no_progress refine Only.upd ?_
    | split
    | refine Only.ofPair (by assumption) ?_
    | intro _
    | dsimp only
    | dsimp +zetaDelta only

theorem execClockNotch_only {d s} : Runs [.obj, .pow, .host, .dict, .sage, .out] s (execClockNotch d s) := by
  unfold execClockNotch
  with_reducible repeat' first
    | exact Only.refl _
    | assumption
    | decide
    | apply Runs.done
    | apply Runs.whenDue
    | apply Runs.answer
    | apply Runs.next
    | apply Runs.elim
    | apply Only.after clkHeldCheck_only
    | apply Only.after clockNotch_only
    | extract_lets
    | fail_if_no_progress refine Only.upd ?_
    | split
    | refine Only.ofPair (by assumption) ?_
    | intro _
    | dsimp only
    | dsimp +zetaDelta only

theorem execGovernorGrant_only {s} : Runs [.obj, .pow, .sage] s (execGovernorGrant s) := by
  unfold execGovernorGrant
  with_reducible repeat' first
    | exact Only.refl _
    | assumption
    | decide
    | apply Runs.done
    | apply Runs.whenDue
    | apply Runs.answer
    | apply Runs.next
    | apply Runs.elim
    | apply Only.after peak_only
    | apply Only.after govAct_only
    | apply Only.after govRecord_only
    | extract_lets
    | fail_if_no_progress refine Only.upd ?_
    | split
    | refine Only.ofPair (by assumption) ?_
    | intro _
    | dsimp only
    | dsimp +zetaDelta only

theorem execClkSet_only {d v s} : Runs [.obj, .pow, .host, .dict, .sage, .out] s (execClkSet d v s) := by
  unfold execClkSet
  with_reducible repeat' first
    | exact Only.refl _
    | assumption
    | decide
    | apply Runs.done
    | apply Runs.whenDue
    | apply Runs.answer
    | apply Runs.next
    | apply Runs.elim
    | apply Only.after wClkSet_only
    | extract_lets
    | fail_if_no_progress refine Only.upd ?_
    | split
    | refine Only.ofPair (by assumption) ?_
    | intro _
    | dsimp only
    | dsimp +zetaDelta only

theorem execMarginContextCheck_only {d supply cls s} : Runs [.obj, .pow, .host, .dict, .sage, .out] s (execMarginContextCheck d supply cls s) := by
  unfold execMarginContextCheck
  with_reducible repeat' first
    | exact Only.refl _
    | assumption
    | decide
    | apply Runs.done
    | apply Runs.whenDue
    | apply Runs.answer
    | apply Runs.next
    | apply Runs.elim
    | apply Only.after marginStale_only
    | extract_lets
    | fail_if_no_progress refine Only.upd ?_
    | split
    | refine Only.ofPair (by assumption) ?_
    | intro _
    | dsimp only
    | dsimp +zetaDelta only

theorem execMarginRecentre_only {d fSafe supply cls sustained s} : Runs [.obj, .pow, .host, .dict, .sage, .out] s (execMarginRecentre d fSafe supply cls sustained s) := by
  unfold execMarginRecentre
  with_reducible repeat' first
    | exact Only.refl _
    | assumption
    | decide
    | apply Runs.done
    | apply Runs.whenDue
    | apply Runs.answer
    | apply Runs.next
    | apply Runs.elim
    | apply Only.after marginRecentre_only
    | extract_lets
    | fail_if_no_progress refine Only.upd ?_
    | split
    | refine Only.ofPair (by assumption) ?_
    | intro _
    | dsimp only
    | dsimp +zetaDelta only

theorem execDomainRecentre_only {d v fSafe supply cls s} : Runs [.obj, .pow, .host, .dict, .sage, .out] s (execDomainRecentre d v fSafe supply cls s) := by
  unfold execDomainRecentre
  with_reducible repeat' first
    | exact Only.refl _
    | assumption
    | decide
    | apply Runs.done
    | apply Runs.whenDue
    | apply Runs.answer
    | apply Runs.next
    | apply Runs.elim
    | apply Only.after wDomainRecentre_only
    | extract_lets
    | fail_if_no_progress refine Only.upd ?_
    | split
    | refine Only.ofPair (by assumption) ?_
    | intro _
    | dsimp only
    | dsimp +zetaDelta only

theorem execDroopDetect_only {d supply cls s} : Runs [.obj, .pow, .host, .dict, .sage, .out] s (execDroopDetect d supply cls s) := by
  unfold execDroopDetect
  with_reducible repeat' first
    | exact Only.refl _
    | assumption
    | decide
    | apply Runs.done
    | apply Runs.whenDue
    | apply Runs.answer
    | apply Runs.next
    | apply Runs.elim
    | apply Only.after wr_only
    | apply Only.after modDom_only
    | apply Only.after setClk_only
    | apply Only.after govRecord_only
    | apply Only.after clkHeldCheck_only
    | apply Only.after marginEvent_only
    | extract_lets
    | fail_if_no_progress refine Only.upd ?_
    | split
    | refine Only.ofPair (by assumption) ?_
    | intro _
    | dsimp only
    | dsimp +zetaDelta only

theorem thermalEvent_only {cause n tj s} : Only [.obj, .host, .dict, .out] s (thermalEvent cause n tj s) := by
  unfold thermalEvent
  with_reducible repeat' first
    | exact Only.refl _
    | assumption
    | decide
    | apply Only.after ownerEvent_only
    | extract_lets
    | fail_if_no_progress refine Only.upd ?_
    | split
    | refine Only.ofPair (by assumption) ?_
    | intro _
    | dsimp only
    | dsimp +zetaDelta only

theorem execVbatMeasure_only {mv s} : Runs [.obj, .pow, .host, .dict, .out] s (execVbatMeasure mv s) := by
  unfold execVbatMeasure
  with_reducible repeat' first
    | exact Only.refl _
    | assumption
    | decide
    | apply Runs.done
    | apply Runs.whenDue
    | apply Runs.answer
    | apply Runs.next
    | apply Runs.elim
    | apply Only.after wr_only
    | apply Only.after ownerEvent_only
    | extract_lets
    | fail_if_no_progress refine Only.upd ?_
    | split
    | refine Only.ofPair (by assumption) ?_
    | intro _
    | dsimp only
    | dsimp +zetaDelta only

theorem throttleNotch_only {d s} : Only [.obj, .pow, .host, .dict, .sage, .out] s (throttleNotch d s) := by
  unfold throttleNotch
  with_reducible repeat' first
    | exact Only.refl _
    | assumption
    | decide
    | apply Only.after wr_only
    | apply Only.after clkHeldCheck_only
    | apply Only.after clockNotch_only
    | apply Only.after modDom_only
    | extract_lets
    | fail_if_no_progress refine Only.upd ?_
    | split
    | refine Only.ofPair (by assumption) ?_
    | intro _
    | dsimp only
    | dsimp +zetaDelta only

theorem flagStep_only {n bit isOver under tj s} : Only [.obj, .pow, .host, .dict, .sage, .out] s (flagStep n bit isOver under tj s) := by
  unfold flagStep
  with_reducible repeat' first
    | exact Only.refl _
    | assumption
    | decide
    | apply Only.after thermalEvent_only
    | apply Only.after wr_only
    | apply Only.after throttleNotch_only
    | apply Only.each
    | extract_lets
    | fail_if_no_progress refine Only.upd ?_
    | split
    | refine Only.ofPair (by assumption) ?_
    | intro _
    | dsimp only
    | dsimp +zetaDelta only

theorem sensorFilter_only {n raw s} : Only [.obj, .pow, .host, .dict, .sage, .out] s (sensorFilter n raw s) := by
  unfold sensorFilter
  with_reducible repeat' first
    | exact Only.refl _
    | assumption
    | decide
    | apply Only.after wrI_only
    | apply Only.after flagStep_only
    | apply Only.foldl
    | apply Only.foldlSnd
    | apply Only.foldlThd
    | extract_lets
    | fail_if_no_progress refine Only.upd ?_
    | split
    | refine Only.ofPair (by assumption) ?_
    | intro _
    | dsimp only
    | dsimp +zetaDelta only

theorem execThrottleStep_only {d s} : Runs [.obj, .pow, .host, .dict, .sage, .out] s (execThrottleStep d s) := by
  unfold execThrottleStep
  with_reducible repeat' first
    | exact Only.refl _
    | assumption
    | decide
    | apply Runs.done
    | apply Runs.whenDue
    | apply Runs.answer
    | apply Runs.next
    | apply Runs.elim
    | apply Only.after throttleNotch_only
    | extract_lets
    | fail_if_no_progress refine Only.upd ?_
    | split
    | refine Only.ofPair (by assumption) ?_
    | intro _
    | dsimp only
    | dsimp +zetaDelta only

theorem execThrottleRecoverStep_only {d s} : Runs [.obj, .pow, .host, .dict, .sage, .out] s (execThrottleRecoverStep d s) := by
  unfold execThrottleRecoverStep
  with_reducible repeat' first
    | exact Only.refl _
    | assumption
    | decide
    | apply Runs.done
    | apply Runs.whenDue
    | apply Runs.answer
    | apply Runs.next
    | apply Runs.elim
    | apply Only.after clkHeldCheck_only
    | apply Only.after clockNotch_only
    | apply Only.after modDom_only
    | apply Only.after wr_only
    | extract_lets
    | fail_if_no_progress refine Only.upd ?_
    | split
    | refine Only.ofPair (by assumption) ?_
    | intro _
    | dsimp only
    | dsimp +zetaDelta only

end Sys2Proof.Machine
end

