-- ==== Sys2Proof/Laws/OnlyRoles.lean ====
section
/-!
SUPPORT. The frame of every operation of Machine/Roles.lean: the parts of the state it can change.
-/
namespace Sys2Proof.Machine

set_option Elab.async false

set_option linter.unusedTactic false
set_option linter.unreachableTactic false
set_option linter.unusedVariables false

theorem modUnit_only {u f s} : Only [.work] s (modUnit u f s) := by
  unfold modUnit
  with_reducible repeat' first
    | exact Only.refl _
    | assumption
    | decide
    | extract_lets
    | fail_if_no_progress refine Only.upd ?_
    | split
    | refine Only.ofPair (by assumption) ?_
    | intro _
    | dsimp only
    | dsimp +zetaDelta only

theorem returnCharges_only {a0 l s} : Only [.work] s (returnCharges a0 l s) := by
  unfold returnCharges
  with_reducible repeat' first
    | exact Only.refl _
    | assumption
    | decide
    | apply Only.foldl
    | apply Only.foldlSnd
    | apply Only.foldlThd
    | extract_lets
    | fail_if_no_progress refine Only.upd ?_
    | split
    | refine Only.ofPair (by assumption) ?_
    | intro _
    | dsimp only
    | dsimp +zetaDelta only

theorem wantRole_only {u w s} : Only [.work] s (wantRole u w s) := by
  unfold wantRole
  with_reducible repeat' first
    | exact Only.refl _
    | assumption
    | decide
    | apply Only.after modUnit_only
    | extract_lets
    | fail_if_no_progress refine Only.upd ?_
    | split
    | refine Only.ofPair (by assumption) ?_
    | intro _
    | dsimp only
    | dsimp +zetaDelta only

theorem wantFn_only {u fn s} : Only [.work] s (wantFn u fn s) := by
  unfold wantFn
  with_reducible repeat' first
    | exact Only.refl _
    | assumption
    | decide
    | apply Only.after wantRole_only
    | extract_lets
    | fail_if_no_progress refine Only.upd ?_
    | split
    | refine Only.ofPair (by assumption) ?_
    | intro _
    | dsimp only
    | dsimp +zetaDelta only

theorem overcommitCheck_only {s} : Only [.obj, .host, .dict, .work, .out] s (overcommitCheck s) := by
  unfold overcommitCheck
  with_reducible repeat' first
    | exact Only.refl _
    | assumption
    | decide
    | apply Only.after ownerEvent_only
    | apply Only.each
    | extract_lets
    | fail_if_no_progress refine Only.upd ?_
    | split
    | refine Only.ofPair (by assumption) ?_
    | intro _
    | dsimp only
    | dsimp +zetaDelta only

theorem setRole_only {u w s} : Only [.obj, .work] s (setRole u w s) := by
  unfold setRole
  with_reducible repeat' first
    | exact Only.refl _
    | assumption
    | decide
    | apply Only.after modUnit_only
    | apply Only.after bumpBy_only
    | apply Only.after wr_only
    | extract_lets
    | fail_if_no_progress refine Only.upd ?_
    | split
    | refine Only.ofPair (by assumption) ?_
    | intro _
    | dsimp only
    | dsimp +zetaDelta only

theorem endFreeze_only {c cause s} : Only [.obj, .host, .dict, .work, .dram, .sram, .out] s (endFreeze c cause s) := by
  unfold endFreeze
  with_reducible repeat' first
    | exact Only.refl _
    | assumption
    | decide
    | apply Only.after dramEvent_only
    | apply Only.after retirePage_only
    | apply Only.after modChan_only
    | apply Only.after overcommitCheck_only
    | apply Only.after wr_only
    | apply Only.each
    | extract_lets
    | fail_if_no_progress refine Only.upd ?_
    | split
    | refine Only.ofPair (by assumption) ?_
    | intro _
    | dsimp only
    | dsimp +zetaDelta only

theorem wResume_only {c v s} : Only [.obj, .host, .dict, .work, .dram, .sram, .out] s (wResume c v s).2 := by
  unfold wResume
  with_reducible repeat' first
    | exact Only.refl _
    | assumption
    | decide
    | apply Only.after refusedW_only
    | apply Only.after accepted_only
    | apply Only.after endFreeze_only
    | extract_lets
    | fail_if_no_progress refine Only.upd ?_
    | split
    | refine Only.ofPair (by assumption) ?_
    | intro _
    | dsimp only
    | dsimp +zetaDelta only

theorem execFreezeAutoExpiry_only {ch s} : Runs [.obj, .host, .dict, .work, .dram, .sram, .out] s (execFreezeAutoExpiry ch s) := by
  unfold execFreezeAutoExpiry
  with_reducible repeat' first
    | exact Only.refl _
    | assumption
    | decide
    | apply Runs.done
    | apply Runs.whenDue
    | apply Runs.answer
    | apply Runs.next
    | apply Runs.elim
    | apply Only.after endFreeze_only
    | extract_lets
    | fail_if_no_progress refine Only.upd ?_
    | split
    | refine Only.ofPair (by assumption) ?_
    | intro _
    | dsimp only
    | dsimp +zetaDelta only

theorem execResume_only {ch v s} : Runs [.obj, .host, .dict, .work, .dram, .sram, .out] s (execResume ch v s) := by
  unfold execResume
  with_reducible repeat' first
    | exact Only.refl _
    | assumption
    | decide
    | apply Runs.done
    | apply Runs.whenDue
    | apply Runs.answer
    | apply Runs.next
    | apply Runs.elim
    | apply Only.after wResume_only
    | extract_lets
    | fail_if_no_progress refine Only.upd ?_
    | split
    | refine Only.ofPair (by assumption) ?_
    | intro _
    | dsimp only
    | dsimp +zetaDelta only

end Sys2Proof.Machine
end

