-- ==== Sys2Proof/Laws/OnlySpool.lean ====
section
/-!
SUPPORT. The frame of every operation of Machine/Spool.lean: the parts of the state it can change.
-/
namespace Sys2Proof.Machine

set_option Elab.async false

set_option linter.unusedTactic false
set_option linter.unreachableTactic false
set_option linter.unusedVariables false

theorem countSids_only {s} : Only [.obj] s (countSids s) := by
  unfold countSids
  with_reducible repeat' first
    | exact Only.refl _
    | assumption
    | decide
    | apply Only.after wr_only
    | extract_lets
    | fail_if_no_progress refine Only.upd ?_
    | split
    | refine Only.ofPair (by assumption) ?_
    | intro _
    | dsimp only
    | dsimp +zetaDelta only

theorem settleSids_only {s} : Only [.obj, .radio] s (settleSids s) := by
  unfold settleSids
  with_reducible repeat' first
    | exact Only.refl _
    | assumption
    | decide
    | apply Only.after countSids_only
    | extract_lets
    | fail_if_no_progress refine Only.upd ?_
    | split
    | refine Only.ofPair (by assumption) ?_
    | intro _
    | dsimp only
    | dsimp +zetaDelta only

theorem marCount_only {m i n s} : Only [.obj] s (marCount m i n s) := by
  unfold marCount
  with_reducible repeat' first
    | exact Only.refl _
    | assumption
    | decide
    | apply Only.after bumpBy_only
    | extract_lets
    | fail_if_no_progress refine Only.upd ?_
    | split
    | refine Only.ofPair (by assumption) ?_
    | intro _
    | dsimp only
    | dsimp +zetaDelta only

theorem dropBursts_only {n i a2 s} : Only [.obj, .radio] s (dropBursts n i a2 s) := by
  unfold dropBursts
  with_reducible repeat' first
    | exact Only.refl _
    | assumption
    | decide
    | apply Only.after marCount_only
    | extract_lets
    | fail_if_no_progress refine Only.upd ?_
    | split
    | refine Only.ofPair (by assumption) ?_
    | intro _
    | dsimp only
    | dsimp +zetaDelta only

theorem setBind_only {n b s} : Only [.radio] s (setBind n b s) := by
  unfold setBind
  with_reducible repeat' first
    | exact Only.refl _
    | assumption
    | decide
    | extract_lets
    | fail_if_no_progress refine Only.upd ?_
    | split
    | refine Only.ofPair (by assumption) ?_
    | intro _
    | dsimp only
    | dsimp +zetaDelta only

theorem freeBindings_only {a0 ci s} : Only [.obj, .radio] s (freeBindings a0 ci s) := by
  unfold freeBindings
  with_reducible repeat' first
    | exact Only.refl _
    | assumption
    | decide
    | apply Only.after settleSids_only
    | apply Only.after dropBursts_only
    | apply Only.after setBind_only
    | apply Only.after marCount_only
    | apply Only.each
    | extract_lets
    | fail_if_no_progress refine Only.upd ?_
    | split
    | refine Only.ofPair (by assumption) ?_
    | intro _
    | dsimp only
    | dsimp +zetaDelta only

theorem settleBinding_only {n s} : Only [.radio] s (settleBinding n s) := by
  unfold settleBinding
  with_reducible repeat' first
    | exact Only.refl _
    | assumption
    | decide
    | apply Only.after setBind_only
    | extract_lets
    | fail_if_no_progress refine Only.upd ?_
    | split
    | refine Only.ofPair (by assumption) ?_
    | intro _
    | dsimp only
    | dsimp +zetaDelta only

theorem modBind_only {n f s} : Only [.radio] s (modBind n f s) := by
  unfold modBind
  with_reducible repeat' first
    | exact Only.refl _
    | assumption
    | decide
    | apply Only.after setBind_only
    | extract_lets
    | fail_if_no_progress refine Only.upd ?_
    | split
    | refine Only.ofPair (by assumption) ?_
    | intro _
    | dsimp only
    | dsimp +zetaDelta only

theorem settleRecords_only {g r s} : Only [.obj, .radio] s (settleRecords g r s) := by
  unfold settleRecords
  with_reducible repeat' first
    | exact Only.refl _
    | assumption
    | decide
    | apply Only.after settleBinding_only
    | apply Only.after settleSids_only
    | apply Only.after modBind_only
    | apply Only.each
    | extract_lets
    | fail_if_no_progress refine Only.upd ?_
    | split
    | refine Only.ofPair (by assumption) ?_
    | intro _
    | dsimp only
    | dsimp +zetaDelta only

theorem leaveActive_only {n s} : Only [.obj, .radio] s (leaveActive n s) := by
  unfold leaveActive
  with_reducible repeat' first
    | exact Only.refl _
    | assumption
    | decide
    | apply Only.after settleBinding_only
    | apply Only.after dropBursts_only
    | apply Only.after setBind_only
    | extract_lets
    | fail_if_no_progress refine Only.upd ?_
    | split
    | refine Only.ofPair (by assumption) ?_
    | intro _
    | dsimp only
    | dsimp +zetaDelta only

theorem drainMar_only {m s} : Only [.obj, .radio] s (drainMar m s) := by
  unfold drainMar
  with_reducible repeat' first
    | exact Only.refl _
    | assumption
    | decide
    | apply Only.after leaveActive_only
    | apply Only.each
    | extract_lets
    | fail_if_no_progress refine Only.upd ?_
    | split
    | refine Only.ofPair (by assumption) ?_
    | intro _
    | dsimp only
    | dsimp +zetaDelta only

theorem dropCommands_only {gid num s} : Only [.radio] s (dropCommands gid num s) := by
  unfold dropCommands
  with_reducible repeat' first
    | exact Only.refl _
    | assumption
    | decide
    | extract_lets
    | fail_if_no_progress refine Only.upd ?_
    | split
    | refine Only.ofPair (by assumption) ?_
    | intro _
    | dsimp only
    | dsimp +zetaDelta only

end Sys2Proof.Machine
end

