-- ==== Sys2Proof/Laws/OnlyRelease.lean ====
section
/-!
SUPPORT. The frame of every operation of Machine/Release.lean: the parts of the state it can change.
-/
namespace Sys2Proof.Machine

set_option Elab.async false

set_option linter.unusedTactic false
set_option linter.unreachableTactic false
set_option linter.unusedVariables false

theorem crossWait_only {u tenant since s} : Only [.obj] s (crossWait u tenant since s) := by
  unfold crossWait
  with_reducible repeat' first
    | exact Only.refl _
    | assumption
    | decide
    | apply Only.after peak_only
    | apply Only.after bumpBy_only
    | apply Only.each
    | extract_lets
    | fail_if_no_progress refine Only.upd ?_
    | split
    | refine Only.ofPair (by assumption) ?_
    | intro _
    | dsimp only
    | dsimp +zetaDelta only

theorem modGraph_only {gid f s} : Only [.work] s (modGraph gid f s) := by
  unfold modGraph
  with_reducible repeat' first
    | exact Only.refl _
    | assumption
    | decide
    | extract_lets
    | fail_if_no_progress refine Only.upd ?_
    | split
    | refine Only.ofPair (by assumption) ?_
    | intro _
    | dsimp only
    | dsimp +zetaDelta only

theorem modRt_only {gid num f s} : Only [.work] s (modRt gid num f s) := by
  unfold modRt
  with_reducible repeat' first
    | exact Only.refl _
    | assumption
    | decide
    | apply Only.after modGraph_only
    | extract_lets
    | fail_if_no_progress refine Only.upd ?_
    | split
    | refine Only.ofPair (by assumption) ?_
    | intro _
    | dsimp only
    | dsimp +zetaDelta only

theorem meterTime_only {g r res ns dedicated s} : Only [.obj, .work] s (meterTime g r res ns dedicated s) := by
  unfold meterTime
  with_reducible repeat' first
    | exact Only.refl _
    | assumption
    | decide
    | apply Only.after modRt_only
    | apply Only.after meter_only
    | apply Only.after bumpBy_only
    | apply Only.after addExcess_only
    | extract_lets
    | fail_if_no_progress refine Only.upd ?_
    | split
    | refine Only.ofPair (by assumption) ?_
    | intro _
    | dsimp only
    | dsimp +zetaDelta only

theorem segmentEnd_only {u run s} : Only [.obj, .work] s (segmentEnd u run s) := by
  unfold segmentEnd
  with_reducible repeat' first
    | exact Only.refl _
    | assumption
    | decide
    | apply Only.after crossWait_only
    | apply Only.after meterTime_only
    | extract_lets
    | fail_if_no_progress refine Only.upd ?_
    | split
    | refine Only.ofPair (by assumption) ?_
    | intro _
    | dsimp only
    | dsimp +zetaDelta only

theorem ackRest_only {g s} : Only [.obj, .host, .out] s (ackRest g s) := by
  unfold ackRest
  with_reducible repeat' first
    | exact Only.refl _
    | assumption
    | decide
    | apply Only.after cqPut_only
    | apply Only.each
    | extract_lets
    | fail_if_no_progress refine Only.upd ?_
    | split
    | refine Only.ofPair (by assumption) ?_
    | intro _
    | dsimp only
    | dsimp +zetaDelta only

theorem settleCharges_only {g r s} : Only [.work] s (settleCharges g r s) := by
  unfold settleCharges
  with_reducible repeat' first
    | exact Only.refl _
    | assumption
    | decide
    | apply Only.after returnCharges_only
    | apply Only.foldl
    | apply Only.foldlSnd
    | apply Only.foldlThd
    | extract_lets
    | fail_if_no_progress refine Only.upd ?_
    | split
    | refine Only.ofPair (by assumption) ?_
    | intro _
    | dsimp only
    | dsimp +zetaDelta only

theorem endJob_only {gid num code s} : Only [.obj, .work] s (endJob gid num code s) := by
  unfold endJob
  with_reducible repeat' first
    | exact Only.refl _
    | assumption
    | decide
    | apply Only.after bump_only
    | apply Only.after settleCharges_only
    | apply Only.after modRt_only
    | extract_lets
    | fail_if_no_progress refine Only.upd ?_
    | split
    | refine Only.ofPair (by assumption) ?_
    | intro _
    | dsimp only
    | dsimp +zetaDelta only

theorem propagate_only {gid s} : Only [.obj, .work] s (propagate gid s) := by
  unfold propagate
  with_reducible repeat' first
    | exact Only.refl _
    | assumption
    | decide
    | apply Only.after endJob_only
    | apply Only.each
    | extract_lets
    | fail_if_no_progress refine Only.upd ?_
    | split
    | refine Only.ofPair (by assumption) ?_
    | intro _
    | dsimp only
    | dsimp +zetaDelta only

theorem noteStall_only {f n s} : Only [.obj, .host, .out] s (noteStall f n s) := by
  unfold noteStall
  with_reducible repeat' first
    | exact Only.refl _
    | assumption
    | decide
    | apply Only.after bump_only
    | apply Only.after fnEvent_only
    | apply Only.after setQp_only
    | extract_lets
    | fail_if_no_progress refine Only.upd ?_
    | split
    | refine Only.ofPair (by assumption) ?_
    | intro _
    | dsimp only
    | dsimp +zetaDelta only

theorem dropOrphanAxcs_only {s} : Only [.radio] s (dropOrphanAxcs s) := by
  unfold dropOrphanAxcs
  with_reducible repeat' first
    | exact Only.refl _
    | assumption
    | decide
    | extract_lets
    | fail_if_no_progress refine Only.upd ?_
    | split
    | refine Only.ofPair (by assumption) ?_
    | intro _
    | dsimp only
    | dsimp +zetaDelta only

theorem freeCarries_only {s} : Only [.work] s (freeCarries s) := by
  unfold freeCarries
  with_reducible repeat' first
    | exact Only.refl _
    | assumption
    | decide
    | extract_lets
    | fail_if_no_progress refine Only.upd ?_
    | split
    | refine Only.ofPair (by assumption) ?_
    | intro _
    | dsimp only
    | dsimp +zetaDelta only

theorem freeGraph_only {g s} : Only [.pow, .host, .work, .noc] s (freeGraph g s) := by
  unfold freeGraph
  with_reducible repeat' first
    | exact Only.refl _
    | assumption
    | decide
    | extract_lets
    | fail_if_no_progress refine Only.upd ?_
    | split
    | refine Only.ofPair (by assumption) ?_
    | intro _
    | dsimp only
    | dsimp +zetaDelta only

theorem qpSettle_only {f n s} : Only [.host] s (qpSettle f n s) := by
  unfold qpSettle
  with_reducible repeat' first
    | exact Only.refl _
    | assumption
    | decide
    | apply Only.after setQp_only
    | extract_lets
    | fail_if_no_progress refine Only.upd ?_
    | split
    | refine Only.ofPair (by assumption) ?_
    | intro _
    | dsimp only
    | dsimp +zetaDelta only

theorem dropTemplates_only {a0 s} : Only [.work] s (dropTemplates a0 s) := by
  unfold dropTemplates
  with_reducible repeat' first
    | exact Only.refl _
    | assumption
    | decide
    | extract_lets
    | fail_if_no_progress refine Only.upd ?_
    | split
    | refine Only.ofPair (by assumption) ?_
    | intro _
    | dsimp only
    | dsimp +zetaDelta only

theorem removeCi_only {a0 ci s} : Only [.obj, .work, .radio] s (removeCi a0 ci s) := by
  unfold removeCi
  with_reducible repeat' first
    | exact Only.refl _
    | assumption
    | decide
    | apply Only.after dropTemplates_only
    | apply Only.after wantRole_only
    | apply Only.after freeCarries_only
    | apply Only.after dropOrphanAxcs_only
    | apply Only.after freeBindings_only
    | apply Only.each
    | extract_lets
    | fail_if_no_progress refine Only.upd ?_
    | split
    | refine Only.ofPair (by assumption) ?_
    | intro _
    | dsimp only
    | dsimp +zetaDelta only

theorem disableTenant_only {a0 s} : Only [.obj, .pow, .work, .radio] s (disableTenant a0 s) := by
  unfold disableTenant
  with_reducible repeat' first
    | exact Only.refl _
    | assumption
    | decide
    | apply Only.after removeCi_only
    | apply Only.after wantRole_only
    | apply Only.after dropVotes_only
    | apply Only.after wr_only
    | apply Only.each
    | extract_lets
    | fail_if_no_progress refine Only.upd ?_
    | split
    | refine Only.ofPair (by assumption) ?_
    | intro _
    | dsimp only
    | dsimp +zetaDelta only

theorem drainCheck_only {a0 s} : Only [.obj, .pow, .work, .radio] s (drainCheck a0 s) := by
  unfold drainCheck
  with_reducible repeat' first
    | exact Only.refl _
    | assumption
    | decide
    | apply Only.after disableTenant_only
    | extract_lets
    | fail_if_no_progress refine Only.upd ?_
    | split
    | refine Only.ofPair (by assumption) ?_
    | intro _
    | dsimp only
    | dsimp +zetaDelta only

theorem finishGraphBy_only {isReset g e s} : Only [.obj, .pow, .host, .work, .radio, .noc, .out] s (finishGraphBy isReset g e s) := by
  unfold finishGraphBy
  with_reducible repeat' first
    | exact Only.refl _
    | assumption
    | decide
    | apply Only.after dropOrphanAxcs_only
    | apply Only.after freeCarries_only
    | apply Only.after freeGraph_only
    | apply Only.after cqPut_only
    | apply Only.after ackRest_only
    | apply Only.after qpSettle_only
    | apply Only.after drainCheck_only
    | extract_lets
    | fail_if_no_progress refine Only.upd ?_
    | split
    | refine Only.ofPair (by assumption) ?_
    | intro _
    | dsimp only
    | dsimp +zetaDelta only

theorem finishDone_only {isReset force s} : Only [.obj, .pow, .host, .work, .radio, .noc, .out] s (finishDone isReset force s) := by
  unfold finishDone
  with_reducible repeat' first
    | exact Only.refl _
    | assumption
    | decide
    | apply Only.after noteStall_only
    | apply Only.after finishGraphBy_only
    | apply Only.each
    | extract_lets
    | fail_if_no_progress refine Only.upd ?_
    | split
    | refine Only.ofPair (by assumption) ?_
    | intro _
    | dsimp only
    | dsimp +zetaDelta only

theorem finishGraphs_only {s} : Only [.obj, .pow, .host, .work, .radio, .noc, .out] s (finishGraphs s) := by
  unfold finishGraphs
  with_reducible repeat' first
    | exact Only.refl _
    | assumption
    | decide
    | apply Only.after finishDone_only
    | extract_lets
    | fail_if_no_progress refine Only.upd ?_
    | split
    | refine Only.ofPair (by assumption) ?_
    | intro _
    | dsimp only
    | dsimp +zetaDelta only

theorem countHeld_only {gid num s} : Only [.obj, .work] s (countHeld gid num s) := by
  unfold countHeld
  with_reducible repeat' first
    | exact Only.refl _
    | assumption
    | decide
    | apply Only.after bump_only
    | apply Only.after modRt_only
    | extract_lets
    | fail_if_no_progress refine Only.upd ?_
    | split
    | refine Only.ofPair (by assumption) ?_
    | intro _
    | dsimp only
    | dsimp +zetaDelta only

theorem modId_only {ci i f s} : Only [.work] s (modId ci i f s) := by
  unfold modId
  with_reducible repeat' first
    | exact Only.refl _
    | assumption
    | decide
    | extract_lets
    | fail_if_no_progress refine Only.upd ?_
    | split
    | refine Only.ofPair (by assumption) ?_
    | intro _
    | dsimp only
    | dsimp +zetaDelta only

theorem issueId_only {ci s p t} : issueId ci s = some (p, t) → Only [.work] s t := by
  unfold issueId
  intro h
  split at h
  · cases h
  · cases h; exact modId_only

theorem enterList_only {e s} : Only [.obj, .work] s (enterList e s) := by
  unfold enterList
  with_reducible repeat' first
    | exact Only.refl _
    | assumption
    | decide
    | apply Only.after countHeld_only
    | extract_lets
    | fail_if_no_progress refine Only.upd ?_
    | split
    | refine Only.ofPair (by assumption) ?_
    | intro _
    | dsimp only
    | dsimp +zetaDelta only

theorem makeReady_only {gid num s} : Only [.obj, .work] s (makeReady gid num s) := by
  have hid : ∀ (i : Option Nat) (ci : Nat) (x : State) (k : Nat) (t : State),
      (match i with | some i => some (i, x) | none => issueId ci x) = some (k, t) → Only [.obj, .work] x t := by
    intro i ci x k t h
    cases i
    · exact (issueId_only h).mono
    · cases h; exact Only.refl _
  unfold makeReady
  with_reducible repeat' first
    | exact Only.refl _
    | assumption
    | apply Only.after countHeld_only
    | decide
    | apply Only.after bump_only
    | apply Only.after modRt_only
    | apply Only.after enterList_only
    | apply Only.each
    | extract_lets
    | split
    | intro _
    | dsimp +zetaDelta only
  all_goals
    refine Only.trans ?_ (hid _ _ _ _ _ (by assumption))
    with_reducible repeat' first
      | exact Only.refl _
      | decide
      | apply Only.after modRt_only
      | split
      | dsimp +zetaDelta only

theorem wake_only {s} : Only [.obj, .work] s (wake s) := by
  unfold wake
  with_reducible repeat' first
    | exact Only.refl _
    | assumption
    | decide
    | apply Only.after makeReady_only
    | apply Only.after bump_only
    | apply Only.after modRt_only
    | apply Only.each
    | extract_lets
    | fail_if_no_progress refine Only.upd ?_
    | split
    | refine Only.ofPair (by assumption) ?_
    | intro _
    | dsimp only
    | dsimp +zetaDelta only

theorem releaseId_only {g r s} : Only [.work] s (releaseId g r s) := by
  unfold releaseId
  with_reducible repeat' first
    | exact Only.refl _
    | assumption
    | decide
    | apply Only.after modId_only
    | extract_lets
    | fail_if_no_progress refine Only.upd ?_
    | split
    | refine Only.ofPair (by assumption) ?_
    | intro _
    | dsimp only
    | dsimp +zetaDelta only

theorem releaseFlow_only {a0 f a2 a3} : Only [.obj, .host, .work, .radio, .out] a3 (releaseFlow a0 f a2 a3) := by
  induction a2 generalizing a3 with
  | zero => unfold releaseFlow; exact Only.refl _
  | succ k ih =>
    unfold releaseFlow
    with_reducible repeat' first
      | exact Only.refl _
      | assumption
      | decide
      | exact Only.trans (by assumption) ih
      | apply Only.after ih
      | apply Only.after noteStall_only
      | apply Only.after cqPut_only
      | apply Only.after settleRecords_only
      | apply Only.after releaseId_only
      | apply Only.after modRt_only
      | extract_lets
      | fail_if_no_progress refine Only.upd ?_
      | split
      | dsimp only
      | dsimp +zetaDelta only

theorem releaseTenant_only {a0 s} : Only [.obj, .host, .work, .radio, .out] s (releaseTenant a0 s) := by
  unfold releaseTenant
  with_reducible repeat' first
    | exact Only.refl _
    | assumption
    | decide
    | apply Only.after releaseFlow_only
    | apply Only.each
    | extract_lets
    | fail_if_no_progress refine Only.upd ?_
    | split
    | refine Only.ofPair (by assumption) ?_
    | intro _
    | dsimp only
    | dsimp +zetaDelta only

theorem refreshClocks_only {s} : Only [.work] s (refreshClocks s) := by
  unfold refreshClocks
  with_reducible repeat' first
    | exact Only.refl _
    | assumption
    | decide
    | extract_lets
    | fail_if_no_progress refine Only.upd ?_
    | split
    | refine Only.ofPair (by assumption) ?_
    | intro _
    | dsimp only
    | dsimp +zetaDelta only

theorem settle_only {a0 s} : Only [.obj, .pow, .host, .work, .radio, .noc, .out] s (settle a0 s) := by
  unfold settle
  with_reducible repeat' first
    | exact Only.refl _
    | assumption
    | decide
    | apply Only.after finishGraphs_only
    | apply Only.after wake_only
    | apply Only.after releaseTenant_only
    | apply Only.after refreshClocks_only
    | apply Only.after freeCarries_only
    | extract_lets
    | fail_if_no_progress refine Only.upd ?_
    | split
    | refine Only.ofPair (by assumption) ?_
    | intro _
    | dsimp only
    | dsimp +zetaDelta only

theorem concludeJob_only {gid num code s} : Only [.obj, .pow, .host, .work, .radio, .noc, .out] s (concludeJob gid num code s) := by
  unfold concludeJob
  with_reducible repeat' first
    | exact Only.refl _
    | assumption
    | decide
    | apply Only.after settle_only
    | apply Only.after propagate_only
    | apply Only.after endJob_only
    | extract_lets
    | fail_if_no_progress refine Only.upd ?_
    | split
    | refine Only.ofPair (by assumption) ?_
    | intro _
    | dsimp only
    | dsimp +zetaDelta only

theorem returnEntry_only {e s} : Only [.obj, .work] s (returnEntry e s) := by
  unfold returnEntry
  with_reducible repeat' first
    | exact Only.refl _
    | assumption
    | decide
    | apply Only.after countHeld_only
    | extract_lets
    | fail_if_no_progress refine Only.upd ?_
    | split
    | refine Only.ofPair (by assumption) ?_
    | intro _
    | dsimp only
    | dsimp +zetaDelta only

theorem takeSpace_only {a0 zero a n s} : Only [.work, .dram, .sram, .mem, .freeCtr] s (takeSpace a0 zero a n s) := by
  unfold takeSpace
  with_reducible repeat' first
    | exact Only.refl _
    | assumption
    | decide
    | apply Only.after draw_only
    | apply Only.after memStore_only
    | extract_lets
    | fail_if_no_progress refine Only.upd ?_
    | split
    | refine Only.ofPair (by assumption) ?_
    | intro _
    | dsimp only
    | dsimp +zetaDelta only

theorem finishGraph_only {g e s} : Only [.obj, .pow, .host, .work, .radio, .noc, .out] s (finishGraph g e s) := by
  unfold finishGraph
  with_reducible repeat' first
    | exact Only.refl _
    | assumption
    | decide
    | apply Only.after finishGraphBy_only
    | extract_lets
    | fail_if_no_progress refine Only.upd ?_
    | split
    | refine Only.ofPair (by assumption) ?_
    | intro _
    | dsimp only
    | dsimp +zetaDelta only

theorem stopShares_only {gid num s} : Only [.work] s (stopShares gid num s) := by
  unfold stopShares
  with_reducible repeat' first
    | exact Only.refl _
    | assumption
    | decide
    | apply Only.after modRt_only
    | extract_lets
    | fail_if_no_progress refine Only.upd ?_
    | split
    | refine Only.ofPair (by assumption) ?_
    | intro _
    | dsimp only
    | dsimp +zetaDelta only

theorem recode_only {gid num code s} : Only [.obj, .work] s (recode gid num code s) := by
  unfold recode
  with_reducible repeat' first
    | exact Only.refl _
    | assumption
    | decide
    | apply Only.after modRt_only
    | apply Only.after bump_only
    | apply Only.after bumpBy_only
    | extract_lets
    | fail_if_no_progress refine Only.upd ?_
    | split
    | refine Only.ofPair (by assumption) ?_
    | intro _
    | dsimp only
    | dsimp +zetaDelta only

theorem dropContexts_only {gid s} : Only [.work] s (dropContexts gid s) := by
  unfold dropContexts
  with_reducible repeat' first
    | exact Only.refl _
    | assumption
    | decide
    | extract_lets
    | fail_if_no_progress refine Only.upd ?_
    | split
    | refine Only.ofPair (by assumption) ?_
    | intro _
    | dsimp only
    | dsimp +zetaDelta only

theorem stopGraph_only {gid code s} : Only [.obj, .pow, .host, .work, .radio, .noc, .out] s (stopGraph gid code s) := by
  unfold stopGraph
  with_reducible repeat' first
    | exact Only.refl _
    | assumption
    | decide
    | apply Only.after stopShares_only
    | apply Only.after recode_only
    | apply Only.after endJob_only
    | apply Only.after settle_only
    | apply Only.after dropContexts_only
    | apply Only.after modGraph_only
    | apply Only.each
    | extract_lets
    | fail_if_no_progress refine Only.upd ?_
    | split
    | refine Only.ofPair (by assumption) ?_
    | intro _
    | dsimp only
    | dsimp +zetaDelta only

theorem cancelGraph_only {gid s} : Only [.obj, .pow, .host, .work, .radio, .noc, .out] s (cancelGraph gid s) := by
  unfold cancelGraph
  with_reducible repeat' first
    | exact Only.refl _
    | assumption
    | decide
    | apply Only.after stopGraph_only
    | extract_lets
    | fail_if_no_progress refine Only.upd ?_
    | split
    | refine Only.ofPair (by assumption) ?_
    | intro _
    | dsimp only
    | dsimp +zetaDelta only

theorem dropParting_only {a0 s} : Only [.work] s (dropParting a0 s) := by
  unfold dropParting
  with_reducible repeat' first
    | exact Only.refl _
    | assumption
    | decide
    | extract_lets
    | fail_if_no_progress refine Only.upd ?_
    | split
    | refine Only.ofPair (by assumption) ?_
    | intro _
    | dsimp only
    | dsimp +zetaDelta only

theorem segmentsEnd_only {a0 s} : Only [.obj, .work] s (segmentsEnd a0 s) := by
  unfold segmentsEnd
  with_reducible repeat' first
    | exact Only.refl _
    | assumption
    | decide
    | apply Only.after segmentEnd_only
    | apply Only.each
    | extract_lets
    | fail_if_no_progress refine Only.upd ?_
    | split
    | refine Only.ofPair (by assumption) ?_
    | intro _
    | dsimp only
    | dsimp +zetaDelta only

theorem abortGraphs_only {isReset a1 s} : Only [.obj, .pow, .host, .work, .sage, .radio, .noc, .out] s (abortGraphs isReset a1 s) := by
  unfold abortGraphs
  with_reducible repeat' first
    | exact Only.refl _
    | assumption
    | decide
    | apply Only.after segmentsEnd_only
    | apply Only.after dropSaved_only
    | apply Only.after unitOver_only
    | apply Only.after dropParting_only
    | apply Only.after finishGraphBy_only
    | apply Only.after recode_only
    | apply Only.after endJob_only
    | apply Only.after finishDone_only
    | apply Only.after releaseTenant_only
    | apply Only.each
    | extract_lets
    | fail_if_no_progress refine Only.upd ?_
    | split
    | refine Only.ofPair (by assumption) ?_
    | intro _
    | dsimp only
    | dsimp +zetaDelta only

end Sys2Proof.Machine
end

