-- ==== Sys2Proof/Laws/OnlyCommit.lean ====
section
/-!
SUPPORT. The frame of every operation of Machine/Commit.lean: the parts of the state it can change.
-/
namespace Sys2Proof.Machine

set_option Elab.async false

set_option linter.unusedTactic false
set_option linter.unreachableTactic false
set_option linter.unusedVariables false

theorem placeStat_only {i s} : Only [.obj] s (placeStat i s) := by
  unfold placeStat
  with_reducible repeat' first
    | exact Only.refl _
    | assumption
    | decide
    | apply Only.after bump_only
    | extract_lets
    | fail_if_no_progress refine Only.upd ?_
    | split
    | refine Only.ofPair (by assumption) ?_
    | intro _
    | dsimp only
    | dsimp +zetaDelta only

theorem unbook_only {g moved s} : Only [.work, .noc] s (unbook g moved s) := by
  unfold unbook
  with_reducible repeat' first
    | exact Only.refl _
    | assumption
    | decide
    | apply Only.after returnCharges_only
    | apply Only.after modGraph_only
    | apply Only.each
    | extract_lets
    | fail_if_no_progress refine Only.upd ?_
    | split
    | refine Only.ofPair (by assumption) ?_
    | intro _
    | dsimp only
    | dsimp +zetaDelta only

theorem traceRec_only {v s} : Only [.obj, .host, .out] s (traceRec v s) := by
  unfold traceRec
  with_reducible repeat' first
    | exact Only.refl _
    | assumption
    | decide
    | apply Only.after wr_only
    | apply Only.after hostWrite_only
    | apply Only.after bump_only
    | extract_lets
    | fail_if_no_progress refine Only.upd ?_
    | split
    | refine Only.ofPair (by assumption) ?_
    | intro _
    | dsimp only
    | dsimp +zetaDelta only

theorem traceCommit_only {g a1 outcome flags slot s} : Only [.obj, .host, .out] s (traceCommit g a1 outcome flags slot s) := by
  unfold traceCommit
  with_reducible repeat' first
    | exact Only.refl _
    | assumption
    | decide
    | apply Only.after traceRec_only
    | apply Only.each
    | extract_lets
    | fail_if_no_progress refine Only.upd ?_
    | split
    | refine Only.ofPair (by assumption) ?_
    | intro _
    | dsimp only
    | dsimp +zetaDelta only

theorem bookVote_only {gid dom start fin s} : Only [.pow, .work] s (bookVote gid dom start fin s) := by
  unfold bookVote
  with_reducible repeat' first
    | exact Only.refl _
    | assumption
    | decide
    | extract_lets
    | fail_if_no_progress refine Only.upd ?_
    | split
    | refine Only.ofPair (by assumption) ?_
    | intro _
    | dsimp only
    | dsimp +zetaDelta only

theorem bookVotes_only {g s} : Only [.pow, .work] s (bookVotes g s) := by
  unfold bookVotes
  with_reducible repeat' first
    | exact Only.refl _
    | assumption
    | decide
    | apply Only.after bookVote_only
    | apply Only.each
    | extract_lets
    | fail_if_no_progress refine Only.upd ?_
    | split
    | refine Only.ofPair (by assumption) ?_
    | intro _
    | dsimp only
    | dsimp +zetaDelta only

theorem bookLinks_only {g l s} : Only [.noc] s (bookLinks g l s) := by
  unfold bookLinks
  with_reducible repeat' first
    | exact Only.refl _
    | assumption
    | decide
    | apply Only.each
    | apply Only.foldl
    | apply Only.foldlSnd
    | apply Only.foldlThd
    | extract_lets
    | fail_if_no_progress refine Only.upd ?_
    | split
    | refine Only.ofPair (by assumption) ?_
    | intro _
    | dsimp only
    | dsimp +zetaDelta only

theorem preMiss_only {g cancelled after replaced s} : Only [.obj, .host, .out] s (preMiss g cancelled after replaced s) := by
  unfold preMiss
  with_reducible repeat' first
    | exact Only.refl _
    | assumption
    | decide
    | apply Only.after placeStat_only
    | apply Only.after fnEvent_only
    | extract_lets
    | fail_if_no_progress refine Only.upd ?_
    | split
    | refine Only.ofPair (by assumption) ?_
    | intro _
    | dsimp only
    | dsimp +zetaDelta only

theorem commitReplan_only {g g1 a2 moved s} : Only [.obj, .pow, .host, .work, .noc, .out] s (commitReplan g g1 a2 moved s) := by
  unfold commitReplan
  with_reducible repeat' first
    | exact Only.refl _
    | assumption
    | decide
    | apply Only.after releaseId_only
    | apply Only.after makeCharges_only
    | apply Only.after traceCommit_only
    | apply Only.after bookVotes_only
    | apply Only.after bookLinks_only
    | apply Only.after placeStat_only
    | apply Only.after preMiss_only
    | apply Only.after propagate_only
    | apply Only.after bumpBy_only
    | apply Only.each
    | extract_lets
    | fail_if_no_progress refine Only.upd ?_
    | split
    | refine Only.ofPair (by assumption) ?_
    | intro _
    | dsimp only
    | dsimp +zetaDelta only

theorem replaceJobs_only {gid a1 a2 a3} : Only [.obj, .pow, .host, .work, .noc, .out] a3 (replaceJobs gid a1 a2 a3) := by
  induction a1 generalizing a2 a3 with
  | zero => unfold replaceJobs; exact Only.refl _
  | succ k ih =>
    unfold replaceJobs
    with_reducible repeat' first
      | exact Only.refl _
      | assumption
      | decide
      | exact Only.trans (by assumption) ih
      | apply Only.after ih
      | apply Only.after propagate_only
      | apply Only.after endJob_only
      | apply Only.after unbook_only
      | apply Only.after commitReplan_only
      | extract_lets
      | fail_if_no_progress refine Only.upd ?_
      | split
      | dsimp only
      | dsimp +zetaDelta only

theorem replaceUnit_only {u s} : Only [.obj, .pow, .host, .work, .radio, .noc, .out] s (replaceUnit u s) := by
  unfold replaceUnit
  with_reducible repeat' first
    | exact Only.refl _
    | assumption
    | decide
    | apply Only.after placeStat_only
    | apply Only.after replaceJobs_only
    | apply Only.after settle_only
    | apply Only.each
    | extract_lets
    | fail_if_no_progress refine Only.upd ?_
    | split
    | refine Only.ofPair (by assumption) ?_
    | intro _
    | dsimp only
    | dsimp +zetaDelta only

theorem stopUnit_only {u code s} : Only [.obj, .pow, .host, .work, .sage, .radio, .noc, .out] s (stopUnit u code s) := by
  unfold stopUnit
  with_reducible repeat' first
    | exact Only.refl _
    | assumption
    | decide
    | apply Only.after segmentEnd_only
    | apply Only.after dropSaved_only
    | apply Only.after unitOver_only
    | apply Only.after modUnit_only
    | apply Only.after concludeJob_only
    | apply Only.each
    | extract_lets
    | fail_if_no_progress refine Only.upd ?_
    | split
    | refine Only.ofPair (by assumption) ?_
    | intro _
    | dsimp only
    | dsimp +zetaDelta only

theorem fenceUnit_only {u s} : Only [.obj, .pow, .host, .dict, .work, .sage, .radio, .noc, .out] s (fenceUnit u s) := by
  unfold fenceUnit
  with_reducible repeat' first
    | exact Only.refl _
    | assumption
    | decide
    | apply Only.after modUnit_only
    | apply Only.after wantFn_only
    | apply Only.after stopUnit_only
    | apply Only.after overcommitCheck_only
    | apply Only.after replaceUnit_only
    | extract_lets
    | fail_if_no_progress refine Only.upd ?_
    | split
    | refine Only.ofPair (by assumption) ?_
    | intro _
    | dsimp only
    | dsimp +zetaDelta only

theorem startSubstitution_only {core s} : Only [.work] s (startSubstitution core s) := by
  unfold startSubstitution
  with_reducible repeat' first
    | exact Only.refl _
    | assumption
    | decide
    | apply Only.after modUnit_only
    | apply Only.after wantFn_only
    | extract_lets
    | fail_if_no_progress refine Only.upd ?_
    | split
    | refine Only.ofPair (by assumption) ?_
    | intro _
    | dsimp only
    | dsimp +zetaDelta only

theorem coreOut_only {n s} : Only [.obj, .work, .sram] s (coreOut n s) := by
  unfold coreOut
  with_reducible repeat' first
    | exact Only.refl _
    | assumption
    | decide
    | apply Only.after startSubstitution_only
    | apply Only.after bumpBy_only
    | extract_lets
    | fail_if_no_progress refine Only.upd ?_
    | split
    | refine Only.ofPair (by assumption) ?_
    | intro _
    | dsimp only
    | dsimp +zetaDelta only

theorem modPu_only {q f s} : Only [.work] s (modPu q f s) := by
  unfold modPu
  with_reducible repeat' first
    | exact Only.refl _
    | assumption
    | decide
    | extract_lets
    | fail_if_no_progress refine Only.upd ?_
    | split
    | refine Only.ofPair (by assumption) ?_
    | intro _
    | dsimp only
    | dsimp +zetaDelta only

theorem holdGraph_only {q f g s} : Only [.obj, .host, .work, .out] s (holdGraph q f g s) := by
  unfold holdGraph
  with_reducible repeat' first
    | exact Only.refl _
    | assumption
    | decide
    | apply Only.after modPu_only
    | apply Only.after bump_only
    | apply Only.after fnEvent_only
    | extract_lets
    | fail_if_no_progress refine Only.upd ?_
    | split
    | refine Only.ofPair (by assumption) ?_
    | intro _
    | dsimp only
    | dsimp +zetaDelta only

theorem execPlacementStart_only {pu s} : Runs [.obj, .host, .work, .out] s (execPlacementStart pu s) := by
  unfold execPlacementStart
  with_reducible repeat' first
    | exact Only.refl _
    | assumption
    | decide
    | apply Runs.done
    | apply Runs.whenDue
    | apply Runs.answer
    | apply Runs.next
    | apply Runs.elim
    | apply Only.after holdGraph_only
    | apply Only.after modPu_only
    | extract_lets
    | fail_if_no_progress refine Only.upd ?_
    | split
    | refine Only.ofPair (by assumption) ?_
    | intro _
    | dsimp only
    | dsimp +zetaDelta only

theorem commitCarries_only {g s} : Only [.work, .dram, .sram, .mem, .freeCtr] s (commitCarries g s) := by
  unfold commitCarries
  with_reducible repeat' first
    | exact Only.refl _
    | assumption
    | decide
    | apply Only.after takeSpace_only
    | apply Only.each
    | extract_lets
    | fail_if_no_progress refine Only.upd ?_
    | split
    | refine Only.ofPair (by assumption) ?_
    | intro _
    | dsimp only
    | dsimp +zetaDelta only

theorem stageBlocks_only {g s} : Only [.work, .dram, .sram, .mem, .freeCtr] s (stageBlocks g s) := by
  unfold stageBlocks
  with_reducible repeat' first
    | exact Only.refl _
    | assumption
    | decide
    | apply Only.after memStore_only
    | apply Only.after takeSpace_only
    | apply Only.each
    | extract_lets
    | fail_if_no_progress refine Only.upd ?_
    | split
    | refine Only.ofPair (by assumption) ?_
    | intro _
    | dsimp only
    | dsimp +zetaDelta only

theorem countEnded_only {g s} : Only [.obj] s (countEnded g s) := by
  unfold countEnded
  with_reducible repeat' first
    | exact Only.refl _
    | assumption
    | decide
    | apply Only.after bump_only
    | apply Only.each
    | extract_lets
    | fail_if_no_progress refine Only.upd ?_
    | split
    | refine Only.ofPair (by assumption) ?_
    | intro _
    | dsimp only
    | dsimp +zetaDelta only

theorem storeTemplate_only {g a1 s} : Only [.work] s (storeTemplate g a1 s) := by
  unfold storeTemplate
  with_reducible repeat' first
    | exact Only.refl _
    | assumption
    | decide
    | apply Only.foldl
    | apply Only.foldlSnd
    | apply Only.foldlThd
    | extract_lets
    | fail_if_no_progress refine Only.upd ?_
    | split
    | refine Only.ofPair (by assumption) ?_
    | intro _
    | dsimp only
    | dsimp +zetaDelta only

theorem refusePlan_only {g a1 r s} : Only [.obj, .pow, .host, .work, .radio, .noc, .out] s (refusePlan g a1 r s) := by
  unfold refusePlan
  with_reducible repeat' first
    | exact Only.refl _
    | assumption
    | decide
    | apply Only.after placeStat_only
    | apply Only.after bump_only
    | apply Only.after finishGraph_only
    | apply Only.after traceCommit_only
    | extract_lets
    | fail_if_no_progress refine Only.upd ?_
    | split
    | refine Only.ofPair (by assumption) ?_
    | intro _
    | dsimp only
    | dsimp +zetaDelta only

theorem commitPlan_only {pu gid a2 s0} : Only [.obj, .pow, .host, .work, .radio, .noc, .dram, .sram, .mem, .out, .freeCtr] s0 (commitPlan pu gid a2 s0) := by
  unfold commitPlan
  with_reducible repeat' first
    | exact Only.refl _
    | assumption
    | decide
    | apply Only.after modPu_only
    | apply Only.after placeStat_only
    | apply Only.after refusePlan_only
    | apply Only.after finishGraph_only
    | apply Only.after makeCharges_only
    | apply Only.after bump_only
    | apply Only.after countEnded_only
    | apply Only.after bookVotes_only
    | apply Only.after bookLinks_only
    | apply Only.after stageBlocks_only
    | apply Only.after commitCarries_only
    | apply Only.after bumpBy_only
    | apply Only.after traceCommit_only
    | apply Only.after storeTemplate_only
    | apply Only.after preMiss_only
    | apply Only.after refreshClocks_only
    | apply Only.after propagate_only
    | apply Only.after endJob_only
    | apply Only.after cancelGraph_only
    | apply Only.after modGraph_only
    | apply Only.after ackRest_only
    | apply Only.after settle_only
    | apply Only.each
    | extract_lets
    | fail_if_no_progress refine Only.upd ?_
    | split
    | refine Only.ofPair (by assumption) ?_
    | intro _
    | dsimp only
    | dsimp +zetaDelta only

theorem commitOrHold_only {q gid a2 s} : Only [.obj, .pow, .host, .work, .radio, .noc, .dram, .sram, .mem, .out, .freeCtr] s (commitOrHold q gid a2 s) := by
  unfold commitOrHold
  with_reducible repeat' first
    | exact Only.refl _
    | assumption
    | decide
    | apply Only.after commitPlan_only
    | apply Only.after modPu_only
    | apply Only.after holdGraph_only
    | extract_lets
    | fail_if_no_progress refine Only.upd ?_
    | split
    | refine Only.ofPair (by assumption) ?_
    | intro _
    | dsimp only
    | dsimp +zetaDelta only

theorem execPlacementCommit_only {pu s} : Runs [.obj, .pow, .host, .work, .radio, .noc, .dram, .sram, .mem, .out, .freeCtr] s (execPlacementCommit pu s) := by
  unfold execPlacementCommit
  with_reducible repeat' first
    | exact Only.refl _
    | assumption
    | decide
    | apply Runs.done
    | apply Runs.whenDue
    | apply Runs.answer
    | apply Runs.next
    | apply Runs.elim
    | apply Only.after commitOrHold_only
    | apply Only.after modPu_only
    | extract_lets
    | fail_if_no_progress refine Only.upd ?_
    | split
    | refine Only.ofPair (by assumption) ?_
    | intro _
    | dsimp only
    | dsimp +zetaDelta only

theorem execExclusiveTokenGrant_only {s} : Runs [.obj, .pow, .host, .work, .radio, .noc, .dram, .sram, .mem, .out, .freeCtr] s (execExclusiveTokenGrant s) := by
  unfold execExclusiveTokenGrant
  with_reducible repeat' first
    | exact Only.refl _
    | assumption
    | decide
    | apply Runs.done
    | apply Runs.whenDue
    | apply Runs.answer
    | apply Runs.next
    | apply Runs.elim
    | apply Only.after modPu_only
    | apply Only.after commitOrHold_only
    | apply Only.after placeStat_only
    | extract_lets
    | fail_if_no_progress refine Only.upd ?_
    | split
    | refine Only.ofPair (by assumption) ?_
    | intro _
    | dsimp only
    | dsimp +zetaDelta only

theorem execPlacementVoteOnset_only {s} : Runs [.pow] s (execPlacementVoteOnset s) := by
  unfold execPlacementVoteOnset
  with_reducible repeat' first
    | exact Only.refl _
    | assumption
    | decide
    | apply Runs.done
    | apply Runs.whenDue
    | apply Runs.answer
    | apply Runs.next
    | apply Runs.elim
    | apply Only.after addVote_only
    | apply Only.each
    | extract_lets
    | fail_if_no_progress refine Only.upd ?_
    | split
    | refine Only.ofPair (by assumption) ?_
    | intro _
    | dsimp only
    | dsimp +zetaDelta only

theorem execBookedIntervalEnd_only {s} : Runs [.pow, .work] s (execBookedIntervalEnd s) := by
  unfold execBookedIntervalEnd
  with_reducible repeat' first
    | exact Only.refl _
    | assumption
    | decide
    | apply Runs.done
    | apply Runs.whenDue
    | apply Runs.answer
    | apply Runs.next
    | apply Runs.elim
    | apply Only.after dropVotes_only
    | extract_lets
    | fail_if_no_progress refine Only.upd ?_
    | split
    | refine Only.ofPair (by assumption) ?_
    | intro _
    | dsimp only
    | dsimp +zetaDelta only

theorem roleCore_only {u fn s} : Only [.sage] s (roleCore u fn s) := by
  unfold roleCore
  with_reducible repeat' first
    | exact Only.refl _
    | assumption
    | decide
    | extract_lets
    | fail_if_no_progress refine Only.upd ?_
    | split
    | refine Only.ofPair (by assumption) ?_
    | intro _
    | dsimp only
    | dsimp +zetaDelta only

theorem takeRole_only {u w s} : Only [.obj, .pow, .host, .dict, .work, .sage, .radio, .noc, .out] s (takeRole u w s) := by
  unfold takeRole
  with_reducible repeat' first
    | exact Only.refl _
    | assumption
    | decide
    | apply Only.after modUnit_only
    | apply Only.after replaceUnit_only
    | apply Only.after overcommitCheck_only
    | apply Only.after dropTemplates_only
    | apply Only.after roleCore_only
    | apply Only.after setRole_only
    | extract_lets
    | fail_if_no_progress refine Only.upd ?_
    | split
    | refine Only.ofPair (by assumption) ?_
    | intro _
    | dsimp only
    | dsimp +zetaDelta only

theorem roleNow_only {u w s} : Only [.obj, .pow, .host, .dict, .work, .sage, .radio, .noc, .out] s (roleNow u w s) := by
  unfold roleNow
  with_reducible repeat' first
    | exact Only.refl _
    | assumption
    | decide
    | apply Only.after wantRole_only
    | apply Only.after takeRole_only
    | extract_lets
    | fail_if_no_progress refine Only.upd ?_
    | split
    | refine Only.ofPair (by assumption) ?_
    | intro _
    | dsimp only
    | dsimp +zetaDelta only

theorem execRoleChange_only {u s} : Runs [.obj, .pow, .host, .dict, .work, .sage, .radio, .noc, .out] s (execRoleChange u s) := by
  unfold execRoleChange
  with_reducible repeat' first
    | exact Only.refl _
    | assumption
    | decide
    | apply Runs.done
    | apply Runs.whenDue
    | apply Runs.answer
    | apply Runs.next
    | apply Runs.elim
    | apply Only.after takeRole_only
    | extract_lets
    | fail_if_no_progress refine Only.upd ?_
    | split
    | refine Only.ofPair (by assumption) ?_
    | intro _
    | dsimp only
    | dsimp +zetaDelta only

theorem wTemplatesEnable_only {v s} : Only [.obj, .work] s (wTemplatesEnable v s).2 := by
  unfold wTemplatesEnable
  with_reducible repeat' first
    | exact Only.refl _
    | assumption
    | decide
    | apply Only.after refusedW_only
    | apply Only.after accepted_only
    | apply Only.after wr_only
    | apply Only.after dropTemplates_only
    | extract_lets
    | fail_if_no_progress refine Only.upd ?_
    | split
    | refine Only.ofPair (by assumption) ?_
    | intro _
    | dsimp only
    | dsimp +zetaDelta only

theorem execTemplatesEnable_only {v s} : Runs [.obj, .work, .out] s (execTemplatesEnable v s) := by
  unfold execTemplatesEnable
  with_reducible repeat' first
    | exact Only.refl _
    | assumption
    | decide
    | apply Runs.done
    | apply Runs.whenDue
    | apply Runs.answer
    | apply Runs.next
    | apply Runs.elim
    | apply Only.after wTemplatesEnable_only
    | extract_lets
    | fail_if_no_progress refine Only.upd ?_
    | split
    | refine Only.ofPair (by assumption) ?_
    | intro _
    | dsimp only
    | dsimp +zetaDelta only

theorem wTemplateSlots_only {v s} : Only [.obj] s (wTemplateSlots v s).2 := by
  unfold wTemplateSlots
  with_reducible repeat' first
    | exact Only.refl _
    | assumption
    | decide
    | apply Only.after refusedW_only
    | apply Only.after accepted_only
    | apply Only.after wr_only
    | extract_lets
    | fail_if_no_progress refine Only.upd ?_
    | split
    | refine Only.ofPair (by assumption) ?_
    | intro _
    | dsimp only
    | dsimp +zetaDelta only

theorem execTemplateSlots_only {v s} : Runs [.obj, .out] s (execTemplateSlots v s) := by
  unfold execTemplateSlots
  with_reducible repeat' first
    | exact Only.refl _
    | assumption
    | decide
    | apply Runs.done
    | apply Runs.whenDue
    | apply Runs.answer
    | apply Runs.next
    | apply Runs.elim
    | apply Only.after wTemplateSlots_only
    | extract_lets
    | fail_if_no_progress refine Only.upd ?_
    | split
    | refine Only.ofPair (by assumption) ?_
    | intro _
    | dsimp only
    | dsimp +zetaDelta only

end Sys2Proof.Machine
end

