-- ==== Sys2Proof/Laws/OnlySubmit.lean ====
section
/-!
SUPPORT. The frame of every operation of Machine/Submit.lean: the parts of the state it can change.
-/
namespace Sys2Proof.Machine

set_option Elab.async false

set_option linter.unusedTactic false
set_option linter.unreachableTactic false
set_option linter.unusedVariables false

theorem ackCancels_only {gid s} : Only [.obj, .host, .work, .out] s (ackCancels gid s) := by
  unfold ackCancels
  with_reducible repeat' first
    | exact Only.refl _
    | assumption
    | decide
    | apply Only.after ackRest_only
    | apply Only.after modGraph_only
    | extract_lets
    | fail_if_no_progress refine Only.upd ?_
    | split
    | refine Only.ofPair (by assumption) ?_
    | intro _
    | dsimp only
    | dsimp +zetaDelta only

theorem dropGraphReads_only {gid s} : Only [.host] s (dropGraphReads gid s) := by
  unfold dropGraphReads
  with_reducible repeat' first
    | exact Only.refl _
    | assumption
    | decide
    | extract_lets
    | fail_if_no_progress refine Only.upd ?_
    | split
    | refine Only.ofPair (by assumption) ?_
    | intro _
    | dsimp only
    | dsimp +zetaDelta only

theorem refuseGraph_only {g code subject s} : Only [.obj, .pow, .host, .work, .radio, .noc, .out] s (refuseGraph g code subject s) := by
  unfold refuseGraph
  with_reducible repeat' first
    | exact Only.refl _
    | assumption
    | decide
    | apply Only.after finishGraph_only
    | apply Only.after bump_only
    | apply Only.after dropGraphReads_only
    | extract_lets
    | fail_if_no_progress refine Only.upd ?_
    | split
    | refine Only.ofPair (by assumption) ?_
    | intro _
    | dsimp only
    | dsimp +zetaDelta only

theorem aeNote_only {f bar2 write refusedState ofs be s} : Only [.host] s (aeNote f bar2 write refusedState ofs be s) := by
  unfold aeNote
  with_reducible repeat' first
    | exact Only.refl _
    | assumption
    | decide
    | apply Only.after modFn_only
    | extract_lets
    | fail_if_no_progress refine Only.upd ?_
    | split
    | refine Only.ofPair (by assumption) ?_
    | intro _
    | dsimp only
    | dsimp +zetaDelta only

theorem badAccess_only {f bar2 write ofs be s} : Only [.obj, .host, .out] s (badAccess f bar2 write ofs be s) := by
  unfold badAccess
  with_reducible repeat' first
    | exact Only.refl _
    | assumption
    | decide
    | apply Only.after send_only
    | apply Only.after accessError_only
    | apply Only.after aeNote_only
    | extract_lets
    | fail_if_no_progress refine Only.upd ?_
    | split
    | refine Only.ofPair (by assumption) ?_
    | intro _
    | dsimp only
    | dsimp +zetaDelta only

theorem takeEntry_only {f n s} : Only [.host] s (takeEntry f n s) := by
  unfold takeEntry
  with_reducible repeat' first
    | exact Only.refl _
    | assumption
    | decide
    | apply Only.after setQp_only
    | apply Only.after dropRead_only
    | extract_lets
    | fail_if_no_progress refine Only.upd ?_
    | split
    | refine Only.ofPair (by assumption) ?_
    | intro _
    | dsimp only
    | dsimp +zetaDelta only

theorem completeEntry_only {f n code detail kind e s} : Only [.obj, .host, .out] s (completeEntry f n code detail kind e s) := by
  unfold completeEntry
  with_reducible repeat' first
    | exact Only.refl _
    | assumption
    | decide
    | apply Only.after qpSettle_only
    | apply Only.after cqPut_only
    | apply Only.after takeEntry_only
    | extract_lets
    | fail_if_no_progress refine Only.upd ?_
    | split
    | refine Only.ofPair (by assumption) ?_
    | intro _
    | dsimp only
    | dsimp +zetaDelta only

theorem refuseSubmit_only {f n detail e s} : Only [.obj, .host, .out] s (refuseSubmit f n detail e s) := by
  unfold refuseSubmit
  with_reducible repeat' first
    | exact Only.refl _
    | assumption
    | decide
    | apply Only.after bump_only
    | apply Only.after completeEntry_only
    | extract_lets
    | fail_if_no_progress refine Only.upd ?_
    | split
    | refine Only.ofPair (by assumption) ?_
    | intro _
    | dsimp only
    | dsimp +zetaDelta only

theorem startGraph_only {f n tArr e s} : Only [.obj, .host, .work, .out] s (startGraph f n tArr e s) := by
  unfold startGraph
  with_reducible repeat' first
    | exact Only.refl _
    | assumption
    | decide
    | apply Only.after startRead_only
    | extract_lets
    | fail_if_no_progress refine Only.upd ?_
    | split
    | refine Only.ofPair (by assumption) ?_
    | intro _
    | dsimp only
    | dsimp +zetaDelta only

theorem execSubmit_only {fn qp s} : Runs [.obj, .host, .work, .out] s (execSubmit fn qp s) := by
  unfold execSubmit
  with_reducible repeat' first
    | exact Only.refl _
    | assumption
    | decide
    | apply Runs.done
    | apply Runs.whenDue
    | apply Runs.answer
    | apply Runs.next
    | apply Runs.elim
    | apply Only.after refuseSubmit_only
    | apply Only.after completeEntry_only
    | apply Only.after startGraph_only
    | apply Only.after takeEntry_only
    | extract_lets
    | fail_if_no_progress refine Only.upd ?_
    | split
    | refine Only.ofPair (by assumption) ?_
    | intro _
    | dsimp only
    | dsimp +zetaDelta only

theorem execCancel_only {fn qp s} : Runs [.obj, .pow, .host, .work, .radio, .noc, .out] s (execCancel fn qp s) := by
  unfold execCancel
  with_reducible repeat' first
    | exact Only.refl _
    | assumption
    | decide
    | apply Runs.done
    | apply Runs.whenDue
    | apply Runs.answer
    | apply Runs.next
    | apply Runs.elim
    | apply Only.after completeEntry_only
    | apply Only.after modGraph_only
    | apply Only.after takeEntry_only
    | apply Only.after qpSettle_only
    | apply Only.after ackCancels_only
    | apply Only.after cancelGraph_only
    | extract_lets
    | fail_if_no_progress refine Only.upd ?_
    | split
    | refine Only.ofPair (by assumption) ?_
    | intro _
    | dsimp only
    | dsimp +zetaDelta only

theorem execReleaseCarry_only {fn qp s} : Runs [.obj, .host, .work, .out] s (execReleaseCarry fn qp s) := by
  unfold execReleaseCarry
  with_reducible repeat' first
    | exact Only.refl _
    | assumption
    | decide
    | apply Runs.done
    | apply Runs.whenDue
    | apply Runs.answer
    | apply Runs.next
    | apply Runs.elim
    | apply Only.after completeEntry_only
    | apply Only.after freeCarries_only
    | extract_lets
    | fail_if_no_progress refine Only.upd ?_
    | split
    | refine Only.ofPair (by assumption) ?_
    | intro _
    | dsimp only
    | dsimp +zetaDelta only

theorem sqTail_only {f n idx s} : Only [.host] s (sqTail f n idx s) := by
  unfold sqTail
  with_reducible repeat' first
    | exact Only.refl _
    | assumption
    | decide
    | apply Only.after setQp_only
    | extract_lets
    | fail_if_no_progress refine Only.upd ?_
    | split
    | refine Only.ofPair (by assumption) ?_
    | intro _
    | dsimp only
    | dsimp +zetaDelta only

theorem execSqTail_only {fn qp be v s} : Runs [.obj, .host, .out] s (execSqTail fn qp be v s) := by
  unfold execSqTail
  with_reducible repeat' first
    | exact Only.refl _
    | assumption
    | decide
    | apply Runs.done
    | apply Runs.whenDue
    | apply Runs.answer
    | apply Runs.next
    | apply Runs.elim
    | apply Only.after badAccess_only
    | apply Only.after sqTail_only
    | extract_lets
    | fail_if_no_progress refine Only.upd ?_
    | split
    | refine Only.ofPair (by assumption) ?_
    | intro _
    | dsimp only
    | dsimp +zetaDelta only

theorem drainHeld_only {f n a2 a3} : Only [.obj, .host, .out] a3 (drainHeld f n a2 a3) := by
  induction a2 generalizing a3 with
  | zero => unfold drainHeld; exact Only.refl _
  | succ k ih =>
    unfold drainHeld
    with_reducible repeat' first
      | exact Only.refl _
      | assumption
      | decide
      | exact Only.trans (by assumption) ih
      | apply Only.after ih
      | apply Only.after setQp_only
      | apply Only.after cqAppend_only
      | extract_lets
      | fail_if_no_progress refine Only.upd ?_
      | split
      | dsimp only
      | dsimp +zetaDelta only

theorem queueRoomBack_only {f n s} : Only [.obj, .pow, .host, .work, .radio, .noc, .out] s (queueRoomBack f n s) := by
  unfold queueRoomBack
  with_reducible repeat' first
    | exact Only.refl _
    | assumption
    | decide
    | apply Only.after drainHeld_only
    | apply Only.after qpSettle_only
    | apply Only.after settle_only
    | extract_lets
    | fail_if_no_progress refine Only.upd ?_
    | split
    | refine Only.ofPair (by assumption) ?_
    | intro _
    | dsimp only
    | dsimp +zetaDelta only

theorem cqHead_only {f n idx s} : Only [.obj, .pow, .host, .work, .radio, .noc, .out] s (cqHead f n idx s) := by
  unfold cqHead
  with_reducible repeat' first
    | exact Only.refl _
    | assumption
    | decide
    | apply Only.after setQp_only
    | apply Only.after queueRoomBack_only
    | extract_lets
    | fail_if_no_progress refine Only.upd ?_
    | split
    | refine Only.ofPair (by assumption) ?_
    | intro _
    | dsimp only
    | dsimp +zetaDelta only

theorem execCqHead_only {fn qp be v s} : Runs [.obj, .pow, .host, .work, .radio, .noc, .out] s (execCqHead fn qp be v s) := by
  unfold execCqHead
  with_reducible repeat' first
    | exact Only.refl _
    | assumption
    | decide
    | apply Runs.done
    | apply Runs.whenDue
    | apply Runs.answer
    | apply Runs.next
    | apply Runs.elim
    | apply Only.after badAccess_only
    | apply Only.after cqHead_only
    | extract_lets
    | fail_if_no_progress refine Only.upd ?_
    | split
    | refine Only.ofPair (by assumption) ?_
    | intro _
    | dsimp only
    | dsimp +zetaDelta only

theorem execSubmissionFetch_only {fn qp s} : Runs [.obj, .host, .out] s (execSubmissionFetch fn qp s) := by
  unfold execSubmissionFetch
  with_reducible repeat' first
    | exact Only.refl _
    | assumption
    | decide
    | apply Runs.done
    | apply Runs.whenDue
    | apply Runs.answer
    | apply Runs.next
    | apply Runs.elim
    | apply Only.after startRead_only
    | apply Only.after setQp_only
    | extract_lets
    | fail_if_no_progress refine Only.upd ?_
    | split
    | refine Only.ofPair (by assumption) ?_
    | intro _
    | dsimp only
    | dsimp +zetaDelta only

theorem blocksDone_only {g s} : Only [.obj, .pow, .host, .work, .radio, .noc, .out] s (blocksDone g s) := by
  unfold blocksDone
  with_reducible repeat' first
    | exact Only.refl _
    | assumption
    | decide
    | apply Only.after refuseGraph_only
    | apply Only.after dropGraphReads_only
    | apply Only.after modGraph_only
    | extract_lets
    | fail_if_no_progress refine Only.upd ?_
    | split
    | refine Only.ofPair (by assumption) ?_
    | intro _
    | dsimp only
    | dsimp +zetaDelta only

theorem headerDone_only {g a1 s} : Only [.obj, .pow, .host, .work, .radio, .noc, .out] s (headerDone g a1 s) := by
  unfold headerDone
  with_reducible repeat' first
    | exact Only.refl _
    | assumption
    | decide
    | apply Only.after refuseGraph_only
    | apply Only.after startRead_only
    | extract_lets
    | fail_if_no_progress refine Only.upd ?_
    | split
    | refine Only.ofPair (by assumption) ?_
    | intro _
    | dsimp only
    | dsimp +zetaDelta only

theorem arraysDone_only {g a1 jl bl s} : Only [.obj, .pow, .host, .work, .radio, .noc, .out] s (arraysDone g a1 jl bl s) := by
  unfold arraysDone
  with_reducible repeat' first
    | exact Only.refl _
    | assumption
    | decide
    | apply Only.after refuseGraph_only
    | apply Only.after modGraph_only
    | apply Only.after dropGraphReads_only
    | apply Only.after startRead_only
    | apply Only.after blocksDone_only
    | apply Only.each
    | extract_lets
    | fail_if_no_progress refine Only.upd ?_
    | split
    | refine Only.ofPair (by assumption) ?_
    | intro _
    | dsimp only
    | dsimp +zetaDelta only

theorem execGraphFetchDone_only {gid s} : Runs [.obj, .pow, .host, .work, .radio, .noc, .out] s (execGraphFetchDone gid s) := by
  unfold execGraphFetchDone
  with_reducible repeat' first
    | exact Only.refl _
    | assumption
    | decide
    | apply Runs.done
    | apply Runs.whenDue
    | apply Runs.answer
    | apply Runs.next
    | apply Runs.elim
    | apply Only.after blocksDone_only
    | apply Only.after refuseGraph_only
    | apply Only.after headerDone_only
    | apply Only.after arraysDone_only
    | extract_lets
    | fail_if_no_progress refine Only.upd ?_
    | split
    | refine Only.ofPair (by assumption) ?_
    | intro _
    | dsimp only
    | dsimp +zetaDelta only

end Sys2Proof.Machine
end

