-- ==== Sys2Proof/Laws/OnlyJobs.lean ====
section
/-!
SUPPORT. The frame of every operation of Machine/Jobs.lean: the parts of the state it can change.
-/
namespace Sys2Proof.Machine

set_option Elab.async false

set_option linter.unusedTactic false
set_option linter.unreachableTactic false
set_option linter.unusedVariables false

theorem shareEnd_only {u code s} : Only [.obj, .host, .work, .out] s (shareEnd u code s) := by
  unfold shareEnd
  with_reducible repeat' first
    | exact Only.refl _
    | assumption
    | decide
    | apply Only.after modUnit_only
    | apply Only.after segmentEnd_only
    | apply Only.after ackCancels_only
    | extract_lets
    | fail_if_no_progress refine Only.upd ?_
    | split
    | refine Only.ofPair (by assumption) ?_
    | intro _
    | dsimp only
    | dsimp +zetaDelta only

theorem stopShare_only {u code s} : Only [.obj, .host, .work, .out] s (stopShare u code s) := by
  unfold stopShare
  with_reducible repeat' first
    | exact Only.refl _
    | assumption
    | decide
    | apply Only.after shareEnd_only
    | apply Only.after modUnit_only
    | extract_lets
    | fail_if_no_progress refine Only.upd ?_
    | split
    | refine Only.ofPair (by assumption) ?_
    | intro _
    | dsimp only
    | dsimp +zetaDelta only

theorem startUnitFlow_only {u s} : Only [.obj, .pow, .boot, .host, .dict, .work, .sage, .radio, .noc, .out] s (startUnitFlow u s) := by
  unfold startUnitFlow
  with_reducible repeat' first
    | exact Only.refl _
    | assumption
    | decide
    | apply Only.after modUnit_only
    | apply Only.after startFlow_only
    | apply Only.after replaceUnit_only
    | apply Only.after wantFn_only
    | apply Only.after stopUnit_only
    | extract_lets
    | fail_if_no_progress refine Only.upd ?_
    | split
    | refine Only.ofPair (by assumption) ?_
    | intro _
    | dsimp only
    | dsimp +zetaDelta only

theorem noteWrite_only {g r a n s} : Only [.work] s (noteWrite g r a n s) := by
  unfold noteWrite
  with_reducible repeat' first
    | exact Only.refl _
    | assumption
    | decide
    | apply Only.after modRt_only
    | extract_lets
    | fail_if_no_progress refine Only.upd ?_
    | split
    | refine Only.ofPair (by assumption) ?_
    | intro _
    | dsimp only
    | dsimp +zetaDelta only

theorem writeBuf_only {g r b ofs l s} : Only [.obj, .host, .work, .dram, .sram, .mem, .out] s (writeBuf g r b ofs l s) := by
  unfold writeBuf
  with_reducible repeat' first
    | exact Only.refl _
    | assumption
    | decide
    | apply Only.after memStore_only
    | apply Only.after noteWrite_only
    | apply Only.after hostWriteFor_only
    | extract_lets
    | fail_if_no_progress refine Only.upd ?_
    | split
    | refine Only.ofPair (by assumption) ?_
    | intro _
    | dsimp only
    | dsimp +zetaDelta only

theorem failBuffer_only {gid b s} : Only [.obj, .work] s (failBuffer gid b s) := by
  unfold failBuffer
  with_reducible repeat' first
    | exact Only.refl _
    | assumption
    | decide
    | apply Only.after propagate_only
    | apply Only.after modRt_only
    | apply Only.after endJob_only
    | apply Only.each
    | extract_lets
    | fail_if_no_progress refine Only.upd ?_
    | split
    | refine Only.ofPair (by assumption) ?_
    | intro _
    | dsimp only
    | dsimp +zetaDelta only

theorem poisonBuf_only {g r b ofs n s} : Only [.dram, .sram] s (poisonBuf g r b ofs n s) := by
  unfold poisonBuf
  with_reducible repeat' first
    | exact Only.refl _
    | assumption
    | decide
    | apply Only.after poisonRange_only
    | extract_lets
    | fail_if_no_progress refine Only.upd ?_
    | split
    | refine Only.ofPair (by assumption) ?_
    | intro _
    | dsimp only
    | dsimp +zetaDelta only

theorem noteFinish_only {u run s} : Only [.work] s (noteFinish u run s) := by
  unfold noteFinish
  with_reducible repeat' first
    | exact Only.refl _
    | assumption
    | decide
    | apply Only.after modRt_only
    | extract_lets
    | fail_if_no_progress refine Only.upd ?_
    | split
    | refine Only.ofPair (by assumption) ?_
    | intro _
    | dsimp only
    | dsimp +zetaDelta only

theorem failReads_only {gid num s} : Only [.obj, .work] s (failReads gid num s) := by
  unfold failReads
  with_reducible repeat' first
    | exact Only.refl _
    | assumption
    | decide
    | apply Only.after failBuffer_only
    | apply Only.each
    | extract_lets
    | fail_if_no_progress refine Only.upd ?_
    | split
    | refine Only.ofPair (by assumption) ?_
    | intro _
    | dsimp only
    | dsimp +zetaDelta only

theorem inputFault_only {gid num s} : Only [.obj, .host, .dict, .sram, .out] s (inputFault gid num s) := by
  unfold inputFault
  with_reducible repeat' first
    | exact Only.refl _
    | assumption
    | decide
    | apply Only.after demandFault_only
    | extract_lets
    | fail_if_no_progress refine Only.upd ?_
    | split
    | refine Only.ofPair (by assumption) ?_
    | intro _
    | dsimp only
    | dsimp +zetaDelta only

theorem chunkWorked_only {e code run s0} : Only [.obj, .host, .dict, .work, .sram, .out] s0 (chunkWorked e code run s0) := by
  unfold chunkWorked
  with_reducible repeat' first
    | exact Only.refl _
    | assumption
    | decide
    | apply Only.after failReads_only
    | apply Only.after inputFault_only
    | apply Only.after modUnit_only
    | apply Only.after modRt_only
    | extract_lets
    | fail_if_no_progress refine Only.upd ?_
    | split
    | refine Only.ofPair (by assumption) ?_
    | intro _
    | dsimp only
    | dsimp +zetaDelta only

theorem endHole_only {e a run s} : Only [.obj, .host, .dict, .work, .sram, .out] s (endHole e a run s) := by
  unfold endHole
  with_reducible repeat' first
    | exact Only.refl _
    | assumption
    | decide
    | apply Only.after chunkWorked_only
    | apply Only.after accessError_only
    | extract_lets
    | fail_if_no_progress refine Only.upd ?_
    | split
    | refine Only.ofPair (by assumption) ?_
    | intro _
    | dsimp only
    | dsimp +zetaDelta only

theorem startJobReads_only {g r s} : Only [.obj, .host, .out] s (startJobReads g r s) := by
  unfold startJobReads
  with_reducible repeat' first
    | exact Only.refl _
    | assumption
    | decide
    | apply Only.after startRead_only
    | apply Only.each
    | extract_lets
    | fail_if_no_progress refine Only.upd ?_
    | split
    | refine Only.ofPair (by assumption) ?_
    | intro _
    | dsimp only
    | dsimp +zetaDelta only

theorem clearBuf_only {gid b s} : Only [.work, .dram, .sram, .mem, .freeCtr] s (clearBuf gid b s) := by
  unfold clearBuf
  with_reducible repeat' first
    | exact Only.refl _
    | assumption
    | decide
    | apply Only.after takeSpace_only
    | apply Only.after modGraph_only
    | extract_lets
    | fail_if_no_progress refine Only.upd ?_
    | split
    | refine Only.ofPair (by assumption) ?_
    | intro _
    | dsimp only
    | dsimp +zetaDelta only

theorem clearFor_only {g r s} : Only [.work, .dram, .sram, .mem, .freeCtr] s (clearFor g r s) := by
  unfold clearFor
  with_reducible repeat' first
    | exact Only.refl _
    | assumption
    | decide
    | apply Only.after clearBuf_only
    | apply Only.after takeSpace_only
    | apply Only.each
    | extract_lets
    | fail_if_no_progress refine Only.upd ?_
    | split
    | refine Only.ofPair (by assumption) ?_
    | intro _
    | dsimp only
    | dsimp +zetaDelta only

theorem startRun_only {g r e s} : Only [.obj, .host, .work, .dram, .sram, .mem, .out, .freeCtr] s (startRun g r e s) := by
  unfold startRun
  with_reducible repeat' first
    | exact Only.refl _
    | assumption
    | decide
    | apply Only.after startJobReads_only
    | apply Only.after clearFor_only
    | apply Only.after modRt_only
    | apply Only.after modGraph_only
    | apply Only.after modUnit_only
    | apply Only.after bump_only
    | extract_lets
    | fail_if_no_progress refine Only.upd ?_
    | split
    | refine Only.ofPair (by assumption) ?_
    | intro _
    | dsimp only
    | dsimp +zetaDelta only

theorem countStale_only {u s} : Only [.obj] s (countStale u s) := by
  unfold countStale
  with_reducible repeat' first
    | exact Only.refl _
    | assumption
    | decide
    | apply Only.after bumpBy_only
    | extract_lets
    | fail_if_no_progress refine Only.upd ?_
    | split
    | refine Only.ofPair (by assumption) ?_
    | intro _
    | dsimp only
    | dsimp +zetaDelta only

theorem execJobDispatch_only {u s} : Runs [.obj, .pow, .host, .work, .radio, .noc, .dram, .sram, .mem, .out, .freeCtr] s (execJobDispatch u s) := by
  unfold execJobDispatch
  with_reducible repeat' first
    | exact Only.refl _
    | assumption
    | decide
    | apply Runs.done
    | apply Runs.whenDue
    | apply Runs.answer
    | apply Runs.next
    | apply Runs.elim
    | apply Only.after startRun_only
    | apply Only.after concludeJob_only
    | apply Only.after countStale_only
    | extract_lets
    | fail_if_no_progress refine Only.upd ?_
    | split
    | refine Only.ofPair (by assumption) ?_
    | intro _
    | dsimp only
    | dsimp +zetaDelta only

theorem endCopy_only {u s} : Only [.obj, .host, .work, .out] s (endCopy u s) := by
  unfold endCopy
  with_reducible repeat' first
    | exact Only.refl _
    | assumption
    | decide
    | apply Only.after shareEnd_only
    | extract_lets
    | fail_if_no_progress refine Only.upd ?_
    | split
    | refine Only.ofPair (by assumption) ?_
    | intro _
    | dsimp only
    | dsimp +zetaDelta only

theorem dropJobReads_only {gid num s} : Only [.host] s (dropJobReads gid num s) := by
  unfold dropJobReads
  with_reducible repeat' first
    | exact Only.refl _
    | assumption
    | decide
    | extract_lets
    | fail_if_no_progress refine Only.upd ?_
    | split
    | refine Only.ofPair (by assumption) ?_
    | intro _
    | dsimp only
    | dsimp +zetaDelta only

theorem moveCopy_only {g r d n s} : Only [.obj, .host, .dram, .sram, .mem, .out] s (moveCopy g r d n s) := by
  unfold moveCopy
  with_reducible repeat' first
    | exact Only.refl _
    | assumption
    | decide
    | apply Only.after hostWriteFor_only
    | apply Only.after memStore_only
    | apply Only.each
    | extract_lets
    | fail_if_no_progress refine Only.upd ?_
    | split
    | refine Only.ofPair (by assumption) ?_
    | intro _
    | dsimp only
    | dsimp +zetaDelta only

theorem finishCopy_only {u g r d s} : Only [.obj, .host, .dict, .work, .dram, .sram, .mem, .out] s (finishCopy u g r d s) := by
  unfold finishCopy
  with_reducible repeat' first
    | exact Only.refl _
    | assumption
    | decide
    | apply Only.after failBuffer_only
    | apply Only.after poisonRange_only
    | apply Only.after moveCopy_only
    | apply Only.after modRt_only
    | apply Only.after dropJobReads_only
    | apply Only.after demandFault_only
    | apply Only.after modUnit_only
    | extract_lets
    | fail_if_no_progress refine Only.upd ?_
    | split
    | refine Only.ofPair (by assumption) ?_
    | intro _
    | dsimp only
    | dsimp +zetaDelta only

theorem execCopy_only {c s} : Runs [.obj, .host, .dict, .work, .dram, .sram, .mem, .out] s (execCopy c s) := by
  unfold execCopy
  with_reducible repeat' first
    | exact Only.refl _
    | assumption
    | decide
    | apply Runs.done
    | apply Runs.whenDue
    | apply Runs.answer
    | apply Runs.next
    | apply Runs.elim
    | apply Only.after shareEnd_only
    | apply Only.after endCopy_only
    | apply Only.after stopShare_only
    | apply Only.after dropJobReads_only
    | apply Only.after accessError_only
    | apply Only.after finishCopy_only
    | extract_lets
    | fail_if_no_progress refine Only.upd ?_
    | split
    | refine Only.ofPair (by assumption) ?_
    | intro _
    | dsimp only
    | dsimp +zetaDelta only

theorem unitFree_only {u s} : Only [.work] s (unitFree u s) := by
  unfold unitFree
  with_reducible repeat' first
    | exact Only.refl _
    | assumption
    | decide
    | apply Only.after modUnit_only
    | extract_lets
    | fail_if_no_progress refine Only.upd ?_
    | split
    | refine Only.ofPair (by assumption) ?_
    | intro _
    | dsimp only
    | dsimp +zetaDelta only

theorem flushLate_only {a0 s} : Only [.obj, .host, .work, .out] s (flushLate a0 s) := by
  unfold flushLate
  with_reducible repeat' first
    | exact Only.refl _
    | assumption
    | decide
    | apply Only.after fnEvent_only
    | extract_lets
    | fail_if_no_progress refine Only.upd ?_
    | split
    | refine Only.ofPair (by assumption) ?_
    | intro _
    | dsimp only
    | dsimp +zetaDelta only

theorem dropLate_only {a0 ci id s} : Only [.obj, .host, .work, .out] s (dropLate a0 ci id s) := by
  unfold dropLate
  with_reducible repeat' first
    | exact Only.refl _
    | assumption
    | decide
    | apply Only.after flushLate_only
    | apply Only.after bump_only
    | extract_lets
    | fail_if_no_progress refine Only.upd ?_
    | split
    | refine Only.ofPair (by assumption) ?_
    | intro _
    | dsimp only
    | dsimp +zetaDelta only

theorem accountId_only {ci id s} : Only [.work] s (accountId ci id s) := by
  unfold accountId
  with_reducible repeat' first
    | exact Only.refl _
    | assumption
    | decide
    | apply Only.after modId_only
    | extract_lets
    | fail_if_no_progress refine Only.upd ?_
    | split
    | refine Only.ofPair (by assumption) ?_
    | intro _
    | dsimp only
    | dsimp +zetaDelta only

theorem chunkDone_only {run s} : Only [.work] s (chunkDone run s) := by
  unfold chunkDone
  with_reducible repeat' first
    | exact Only.refl _
    | assumption
    | decide
    | apply Only.after modRt_only
    | extract_lets
    | fail_if_no_progress refine Only.upd ?_
    | split
    | refine Only.ofPair (by assumption) ?_
    | intro _
    | dsimp only
    | dsimp +zetaDelta only

theorem execChunkEnd_only {e s} : Runs [.obj, .host, .work, .out] s (execChunkEnd e s) := by
  unfold execChunkEnd
  with_reducible repeat' first
    | exact Only.refl _
    | assumption
    | decide
    | apply Runs.done
    | apply Runs.whenDue
    | apply Runs.answer
    | apply Runs.next
    | apply Runs.elim
    | apply Only.after unitFree_only
    | apply Only.after wake_only
    | apply Only.after dropLate_only
    | apply Only.after accountId_only
    | apply Only.after segmentEnd_only
    | apply Only.after chunkDone_only
    | apply Only.after shareEnd_only
    | apply Only.after dropJobReads_only
    | apply Only.after noteFinish_only
    | apply Only.after returnEntry_only
    | extract_lets
    | fail_if_no_progress refine Only.upd ?_
    | split
    | refine Only.ofPair (by assumption) ?_
    | intro _
    | dsimp only
    | dsimp +zetaDelta only

theorem execCancelRequest_only {u blocks s} : Runs [.obj, .pow, .host, .work, .radio, .noc, .dram, .sram, .mem, .out] s (execCancelRequest u blocks s) := by
  unfold execCancelRequest
  with_reducible repeat' first
    | exact Only.refl _
    | assumption
    | decide
    | apply Runs.done
    | apply Runs.whenDue
    | apply Runs.answer
    | apply Runs.next
    | apply Runs.elim
    | apply Only.after concludeJob_only
    | apply Only.after countStale_only
    | apply Only.after modUnit_only
    | apply Only.after dropCommands_only
    | apply Only.after moveCopy_only
    | apply Only.after stopShare_only
    | apply Only.after dropJobReads_only
    | extract_lets
    | fail_if_no_progress refine Only.upd ?_
    | split
    | refine Only.ofPair (by assumption) ?_
    | intro _
    | dsimp only
    | dsimp +zetaDelta only

theorem takeMessage_only {m s} : Only [.obj, .pow, .host, .work, .radio, .noc, .out] s (takeMessage m s) := by
  unfold takeMessage
  with_reducible repeat' first
    | exact Only.refl _
    | assumption
    | decide
    | apply Only.after modRt_only
    | apply Only.after concludeJob_only
    | apply Only.after modGraph_only
    | extract_lets
    | fail_if_no_progress refine Only.upd ?_
    | split
    | refine Only.ofPair (by assumption) ?_
    | intro _
    | dsimp only
    | dsimp +zetaDelta only

theorem execCompletionMessage_only {n s} : Runs [.obj, .pow, .host, .work, .radio, .noc, .out] s (execCompletionMessage n s) := by
  unfold execCompletionMessage
  with_reducible repeat' first
    | exact Only.refl _
    | assumption
    | decide
    | apply Runs.done
    | apply Runs.whenDue
    | apply Runs.answer
    | apply Runs.next
    | apply Runs.elim
    | apply Only.after takeMessage_only
    | apply Only.after wake_only
    | apply Only.after dropLate_only
    | apply Only.after accountId_only
    | extract_lets
    | fail_if_no_progress refine Only.upd ?_
    | split
    | refine Only.ofPair (by assumption) ?_
    | intro _
    | dsimp only
    | dsimp +zetaDelta only

theorem releaseHeld_only {a0 a1 a2} : Only [.work] a2 (releaseHeld a0 a1 a2) := by
  induction a0 generalizing a1 a2 with
  | zero => unfold releaseHeld; exact Only.refl _
  | succ k ih =>
    cases a1 with
    | nil => unfold releaseHeld; exact Only.refl _
    | cons e r =>
      unfold releaseHeld
      split
      · exact Only.trans (Only.upd (Only.refl _)) ih
      · exact ih

theorem execHeldReadyRelease_only {q s} : Runs [.obj, .work] s (execHeldReadyRelease q s) := by
  unfold execHeldReadyRelease
  with_reducible repeat' first
    | exact Only.refl _
    | assumption
    | decide
    | apply Runs.done
    | apply Runs.whenDue
    | apply Runs.answer
    | apply Runs.next
    | apply Runs.elim
    | apply Only.after wake_only
    | apply Only.after releaseHeld_only
    | extract_lets
    | fail_if_no_progress refine Only.upd ?_
    | split
    | refine Only.ofPair (by assumption) ?_
    | intro _
    | dsimp only
    | dsimp +zetaDelta only

theorem execLevelTick_only {s0} : Runs [.obj, .host, .work, .out] s0 (execLevelTick s0) := by
  unfold execLevelTick
  with_reducible repeat' first
    | exact Only.refl _
    | assumption
    | decide
    | apply Runs.done
    | apply Runs.whenDue
    | apply Runs.answer
    | apply Runs.next
    | apply Runs.elim
    | apply Only.after flushLate_only
    | apply Only.each
    | extract_lets
    | fail_if_no_progress refine Only.upd ?_
    | split
    | refine Only.ofPair (by assumption) ?_
    | intro _
    | dsimp only
    | dsimp +zetaDelta only

theorem execIdQuarantineExpiry_only {s} : Runs [.obj, .work] s (execIdQuarantineExpiry s) := by
  unfold execIdQuarantineExpiry
  with_reducible repeat' first
    | exact Only.refl _
    | assumption
    | decide
    | apply Runs.done
    | apply Runs.whenDue
    | apply Runs.answer
    | apply Runs.next
    | apply Runs.elim
    | apply Only.after wake_only
    | extract_lets
    | fail_if_no_progress refine Only.upd ?_
    | split
    | refine Only.ofPair (by assumption) ?_
    | intro _
    | dsimp only
    | dsimp +zetaDelta only

theorem execGenerationBarExpiry_only {s} : Runs [.obj, .work] s (execGenerationBarExpiry s) := by
  unfold execGenerationBarExpiry
  with_reducible repeat' first
    | exact Only.refl _
    | assumption
    | decide
    | apply Runs.done
    | apply Runs.whenDue
    | apply Runs.answer
    | apply Runs.next
    | apply Runs.elim
    | apply Only.after wake_only
    | extract_lets
    | fail_if_no_progress refine Only.upd ?_
    | split
    | refine Only.ofPair (by assumption) ?_
    | intro _
    | dsimp only
    | dsimp +zetaDelta only

theorem execWatchdog_only {gid num s} : Runs [.obj, .pow, .boot, .host, .dict, .work, .sage, .radio, .noc, .out] s (execWatchdog gid num s) := by
  unfold execWatchdog
  with_reducible repeat' first
    | exact Only.refl _
    | assumption
    | decide
    | apply Runs.done
    | apply Runs.whenDue
    | apply Runs.answer
    | apply Runs.next
    | apply Runs.elim
    | apply Only.after startUnitFlow_only
    | apply Only.after concludeJob_only
    | apply Only.after dropJobReads_only
    | apply Only.each
    | extract_lets
    | fail_if_no_progress refine Only.upd ?_
    | split
    | refine Only.ofPair (by assumption) ?_
    | intro _
    | dsimp only
    | dsimp +zetaDelta only

theorem execBudgetWindow_only {s} : Runs [.obj, .host, .work, .out] s (execBudgetWindow s) := by
  unfold execBudgetWindow
  with_reducible repeat' first
    | exact Only.refl _
    | assumption
    | decide
    | apply Runs.done
    | apply Runs.whenDue
    | apply Runs.answer
    | apply Runs.next
    | apply Runs.elim
    | apply Only.after bump_only
    | apply Only.after fnEvent_only
    | apply Only.each
    | extract_lets
    | fail_if_no_progress refine Only.upd ?_
    | split
    | refine Only.ofPair (by assumption) ?_
    | intro _
    | dsimp only
    | dsimp +zetaDelta only

theorem endStopped_only {s} : Only [.obj, .host, .work, .out] s (endStopped s) := by
  unfold endStopped
  with_reducible repeat' first
    | exact Only.refl _
    | assumption
    | decide
    | apply Only.after shareEnd_only
    | apply Only.each
    | extract_lets
    | fail_if_no_progress refine Only.upd ?_
    | split
    | refine Only.ofPair (by assumption) ?_
    | intro _
    | dsimp only
    | dsimp +zetaDelta only

end Sys2Proof.Machine
end

