-- ==== Sys2Proof/Laws/OnlyOperands.lean ====
section
/-!
SUPPORT. The frame of every operation of Machine/Operands.lean: the parts of the state it can change.
-/
namespace Sys2Proof.Machine

set_option Elab.async false

set_option linter.unusedTactic false
set_option linter.unreachableTactic false
set_option linter.unusedVariables false

theorem Ctx.ok_only {k x l} : Only k x.s (Ctx.ok x l).s := Only.refl _
theorem Ctx.bad_only {k x e} : Only k x.s (Ctx.bad x e).s := Only.refl _
theorem Ctx.fail_only {k x e r} : Only k x.s (Ctx.fail x e r).s := Only.refl _
theorem Ctx.guard_only {k x b l} : Only k x.s (Ctx.guard x b l).s := by
  unfold Ctx.guard
  split <;> exact Only.refl _

end Sys2Proof.Machine
end

