-- ==== Sys2Proof/Laws/OnlyBundle.lean ====
section
/-!
SUPPORT. The frame of every operation of Machine/Bundle.lean: the parts of the state it can change.
-/
namespace Sys2Proof.Machine

set_option Elab.async false

set_option linter.unusedTactic false
set_option linter.unreachableTactic false
set_option linter.unusedVariables false

theorem endCoreJob_only {n code s} : Only [.obj, .host, .work, .sage, .out] s (endCoreJob n code s) := by
  unfold endCoreJob
  with_reducible repeat' first
    | exact Only.refl _
    | assumption
    | decide
    | apply Only.after coreStop_only
    | apply Only.after dropXferReads_only
    | apply Only.after stopShare_only
    | extract_lets
    | fail_if_no_progress refine Only.upd ?_
    | split
    | refine Only.ofPair (by assumption) ?_
    | intro _
    | dsimp only
    | dsimp +zetaDelta only

theorem raiseExc_only {n c e s} : Only [.obj, .pow, .boot, .host, .dict, .work, .sage, .radio, .noc, .sram, .out] s (raiseExc n c e s) := by
  unfold raiseExc
  with_reducible repeat' first
    | exact Only.refl _
    | assumption
    | decide
    | apply Only.after bumpBy_only
    | apply Only.after fnEvent_only
    | apply Only.after endCoreJob_only
    | apply Only.after demandFault_only
    | apply Only.after modUnit_only
    | apply Only.after startUnitFlow_only
    | extract_lets
    | fail_if_no_progress refine Only.upd ?_
    | split
    | refine Only.ofPair (by assumption) ?_
    | intro _
    | dsimp only
    | dsimp +zetaDelta only

theorem dmemLoad_only {n c ea len s} : Only [.freeCtr] s (dmemLoad n c ea len s).2 := by
  unfold dmemLoad
  with_reducible repeat' first
    | exact Only.refl _
    | assumption
    | decide
    | apply Only.after draw_only
    | apply Only.foldl
    | apply Only.foldlSnd
    | apply Only.foldlThd
    | extract_lets
    | fail_if_no_progress refine Only.upd ?_
    | split
    | refine Only.ofPair (by assumption) ?_
    | intro _
    | dsimp only
    | dsimp +zetaDelta only

theorem noteCore_only {n ea len s} : Only [.work] s (noteCore n ea len s) := by
  unfold noteCore
  with_reducible repeat' first
    | exact Only.refl _
    | assumption
    | decide
    | apply Only.after noteWrite_only
    | extract_lets
    | fail_if_no_progress refine Only.upd ?_
    | split
    | refine Only.ofPair (by assumption) ?_
    | intro _
    | dsimp only
    | dsimp +zetaDelta only

theorem dmemStore_only {n ea l s} : Only [.work, .sage, .dram, .sram, .mem] s (dmemStore n ea l s) := by
  unfold dmemStore
  with_reducible repeat' first
    | exact Only.refl _
    | assumption
    | decide
    | apply Only.after memStore_only
    | apply Only.after noteCore_only
    | apply Only.after modCore_only
    | extract_lets
    | fail_if_no_progress refine Only.upd ?_
    | split
    | refine Only.ofPair (by assumption) ?_
    | intro _
    | dsimp only
    | dsimp +zetaDelta only

theorem xferOutBytes_only {n x s} : Only [.freeCtr] s (xferOutBytes n x s).2 := by
  unfold xferOutBytes
  with_reducible repeat' first
    | exact Only.refl _
    | assumption
    | decide
    | apply Only.after draw_only
    | apply Only.foldl
    | apply Only.foldlSnd
    | apply Only.foldlThd
    | extract_lets
    | fail_if_no_progress refine Only.upd ?_
    | split
    | refine Only.ofPair (by assumption) ?_
    | intro _
    | dsimp only
    | dsimp +zetaDelta only

theorem completeXfer_only {n c x s} : Only [.obj, .pow, .boot, .host, .dict, .work, .sage, .radio, .noc, .dram, .sram, .mem, .out, .freeCtr] s (completeXfer n c x s) := by
  unfold completeXfer
  with_reducible repeat' first
    | exact Only.refl _
    | assumption
    | decide
    | apply Only.after endCoreJob_only
    | apply Only.after accessError_only
    | apply Only.after xferOutBytes_only
    | apply Only.after writeBuf_only
    | apply Only.after memStore_only
    | apply Only.after noteCore_only
    | apply Only.after modCore_only
    | apply Only.after dropRead_only
    | apply Only.after failBuffer_only
    | apply Only.after bumpBy_only
    | apply Only.after raiseExc_only
    | apply Only.after poisonBuf_only
    | apply Only.after demandFault_only
    | extract_lets
    | fail_if_no_progress refine Only.upd ?_
    | split
    | refine Only.ofPair (by assumption) ?_
    | intro _
    | dsimp only
    | dsimp +zetaDelta only

theorem moveXfer_only {n g r x s} : Only [.dram, .sram, .mem, .freeCtr] s (moveXfer n g r x s) := by
  unfold moveXfer
  with_reducible repeat' first
    | exact Only.refl _
    | assumption
    | decide
    | apply Only.after xferOutBytes_only
    | apply Only.after memStore_only
    | extract_lets
    | fail_if_no_progress refine Only.upd ?_
    | split
    | refine Only.ofPair (by assumption) ?_
    | intro _
    | dsimp only
    | dsimp +zetaDelta only

theorem issuedXfers_only {a0 s} : Only [.dram, .sram, .mem, .freeCtr] s (issuedXfers a0 s) := by
  unfold issuedXfers
  with_reducible repeat' first
    | exact Only.refl _
    | assumption
    | decide
    | apply Only.after draw_only
    | apply Only.after moveXfer_only
    | apply Only.each
    | apply Only.foldl
    | apply Only.foldlSnd
    | apply Only.foldlThd
    | extract_lets
    | fail_if_no_progress refine Only.upd ?_
    | split
    | refine Only.ofPair (by assumption) ?_
    | intro _
    | dsimp only
    | dsimp +zetaDelta only

theorem execXferDone_only {core s} : Runs [.obj, .pow, .boot, .host, .dict, .work, .sage, .radio, .noc, .dram, .sram, .mem, .out, .freeCtr] s (execXferDone core s) := by
  unfold execXferDone
  with_reducible repeat' first
    | exact Only.refl _
    | assumption
    | decide
    | apply Runs.done
    | apply Runs.whenDue
    | apply Runs.answer
    | apply Runs.next
    | apply Runs.elim
    | apply Only.after completeXfer_only
    | extract_lets
    | fail_if_no_progress refine Only.upd ?_
    | split
    | refine Only.ofPair (by assumption) ?_
    | intro _
    | dsimp only
    | dsimp +zetaDelta only

theorem yieldPoint_only {n s} : Only [.sage] s (yieldPoint n s) := by
  unfold yieldPoint
  with_reducible repeat' first
    | exact Only.refl _
    | assumption
    | decide
    | apply Only.after dropRequest_only
    | apply Only.after modCore_only
    | apply Only.after restartIdle_only
    | extract_lets
    | fail_if_no_progress refine Only.upd ?_
    | split
    | refine Only.ofPair (by assumption) ?_
    | intro _
    | dsimp only
    | dsimp +zetaDelta only

theorem preempt_only {n c run s} : Only [.obj, .work, .sage] s (preempt n c run s) := by
  unfold preempt
  with_reducible repeat' first
    | exact Only.refl _
    | assumption
    | decide
    | apply Only.after noteFinish_only
    | apply Only.after segmentEnd_only
    | apply Only.after bump_only
    | apply Only.after modRt_only
    | apply Only.after modUnit_only
    | apply Only.after returnEntry_only
    | extract_lets
    | fail_if_no_progress refine Only.upd ?_
    | split
    | refine Only.ofPair (by assumption) ?_
    | intro _
    | dsimp only
    | dsimp +zetaDelta only

theorem doYield_only {n s} : Only [.obj, .host, .work, .sage, .out] s (doYield n s) := by
  unfold doYield
  with_reducible repeat' first
    | exact Only.refl _
    | assumption
    | decide
    | apply Only.after cmcRevoke_only
    | apply Only.after modCore_only
    | apply Only.after yieldPoint_only
    | apply Only.after endCoreJob_only
    | apply Only.after preempt_only
    | apply Only.after modUnit_only
    | apply Only.after segmentEnd_only
    | extract_lets
    | fail_if_no_progress refine Only.upd ?_
    | split
    | refine Only.ofPair (by assumption) ?_
    | intro _
    | dsimp only
    | dsimp +zetaDelta only

theorem doFinish_only {n s} : Only [.obj, .host, .work, .sage, .out] s (doFinish n s) := by
  unfold doFinish
  with_reducible repeat' first
    | exact Only.refl _
    | assumption
    | decide
    | apply Only.after endCoreJob_only
    | extract_lets
    | fail_if_no_progress refine Only.upd ?_
    | split
    | refine Only.ofPair (by assumption) ?_
    | intro _
    | dsimp only
    | dsimp +zetaDelta only

theorem applyWrite_only {n w s} : Only [.obj, .host, .work, .sage, .dram, .sram, .mem, .out] s (applyWrite n w s) := by
  unfold applyWrite
  with_reducible repeat' first
    | exact Only.refl _
    | assumption
    | decide
    | apply Only.after modCore_only
    | apply Only.after dmemStore_only
    | apply Only.after startRead_only
    | apply Only.after doYield_only
    | apply Only.after doFinish_only
    | apply Only.after cmcClaim_only
    | apply Only.after cmcRelease_only
    | apply Only.after modCmc_only
    | extract_lets
    | fail_if_no_progress refine Only.upd ?_
    | split
    | refine Only.ofPair (by assumption) ?_
    | intro _
    | dsimp only
    | dsimp +zetaDelta only

theorem commitBundle_only {n c w s} : Only [.obj, .pow, .boot, .host, .dict, .work, .sage, .radio, .noc, .dram, .sram, .mem, .out] s (commitBundle n c w s) := by
  unfold commitBundle
  with_reducible repeat' first
    | exact Only.refl _
    | assumption
    | decide
    | apply Only.after raiseExc_only
    | apply Only.after modCore_only
    | apply Only.after applyWrite_only
    | apply Only.each
    | extract_lets
    | fail_if_no_progress refine Only.upd ?_
    | split
    | refine Only.ofPair (by assumption) ?_
    | intro _
    | dsimp only
    | dsimp +zetaDelta only

theorem issue_only {core w isWord slot stall f s} (h0 : ∀ a0, Only [.obj, .sage, .freeCtr] a0.s (f a0).s) : Runs [.obj, .pow, .boot, .host, .dict, .work, .sage, .radio, .noc, .dram, .sram, .mem, .out, .freeCtr] s (issue core w isWord slot stall f s) := by
  unfold issue
  with_reducible repeat' first
    | exact Only.refl _
    | assumption
    | decide
    | apply Runs.done
    | apply Runs.whenDue
    | apply Runs.answer
    | apply Runs.next
    | apply Runs.elim
    | apply Only.after modCore_only
    | apply Only.after commitBundle_only
    | apply Only.after (h0 _)
    | extract_lets
    | fail_if_no_progress refine Only.upd ?_
    | split
    | refine Only.ofPair (by assumption) ?_
    | intro _
    | dsimp only
    | dsimp +zetaDelta only
  all_goals exact Only.refl _

theorem execSageJob_only {core s} : Runs [.sage, .dram, .sram, .mem] s (execSageJob core s) := by
  unfold execSageJob
  with_reducible repeat' first
    | exact Only.refl _
    | assumption
    | decide
    | apply Runs.done
    | apply Runs.whenDue
    | apply Runs.answer
    | apply Runs.next
    | apply Runs.elim
    | apply Only.after yieldPoint_only
    | apply Only.after memStore_only
    | apply Only.after poisonRange_only
    | extract_lets
    | fail_if_no_progress refine Only.upd ?_
    | split
    | refine Only.ofPair (by assumption) ?_
    | intro _
    | dsimp only
    | dsimp +zetaDelta only

theorem execSliceOverrun_only {core s} : Runs [.obj, .pow, .boot, .host, .dict, .work, .sage, .radio, .noc, .sram, .out] s (execSliceOverrun core s) := by
  unfold execSliceOverrun
  with_reducible repeat' first
    | exact Only.refl _
    | assumption
    | decide
    | apply Runs.done
    | apply Runs.whenDue
    | apply Runs.answer
    | apply Runs.next
    | apply Runs.elim
    | apply Only.after raiseExc_only
    | extract_lets
    | fail_if_no_progress refine Only.upd ?_
    | split
    | refine Only.ofPair (by assumption) ?_
    | intro _
    | dsimp only
    | dsimp +zetaDelta only

theorem execCmcHoldRevoke_only {cl s} : Runs [.obj, .sage] s (execCmcHoldRevoke cl s) := by
  unfold execCmcHoldRevoke
  with_reducible repeat' first
    | exact Only.refl _
    | assumption
    | decide
    | apply Runs.done
    | apply Runs.whenDue
    | apply Runs.answer
    | apply Runs.next
    | apply Runs.elim
    | apply Only.after cmcRevoke_only
    | extract_lets
    | fail_if_no_progress refine Only.upd ?_
    | split
    | refine Only.ofPair (by assumption) ?_
    | intro _
    | dsimp only
    | dsimp +zetaDelta only

theorem execCmcReserveLapse_only {cl s} : Runs [.sage] s (execCmcReserveLapse cl s) := by
  unfold execCmcReserveLapse
  with_reducible repeat' first
    | exact Only.refl _
    | assumption
    | decide
    | apply Runs.done
    | apply Runs.whenDue
    | apply Runs.answer
    | apply Runs.next
    | apply Runs.elim
    | apply Only.after modCmc_only
    | extract_lets
    | fail_if_no_progress refine Only.upd ?_
    | split
    | refine Only.ofPair (by assumption) ?_
    | intro _
    | dsimp only
    | dsimp +zetaDelta only

theorem execVectorGate_only {core s} : Runs [.sage] s (execVectorGate core s) := by
  unfold execVectorGate
  with_reducible repeat' first
    | exact Only.refl _
    | assumption
    | decide
    | apply Runs.done
    | apply Runs.whenDue
    | apply Runs.answer
    | apply Runs.next
    | apply Runs.elim
    | apply Only.after modVec_only
    | extract_lets
    | fail_if_no_progress refine Only.upd ?_
    | split
    | refine Only.ofPair (by assumption) ?_
    | intro _
    | dsimp only
    | dsimp +zetaDelta only

end Sys2Proof.Machine
end

