-- ==== Sys2Proof/Laws/OnlyScalar.lean ====
section
/-!
SUPPORT. The frame of every operation of Machine/Scalar.lean: the parts of the state it can change.
-/
namespace Sys2Proof.Machine

set_option Elab.async false

set_option linter.unusedTactic false
set_option linter.unreachableTactic false
set_option linter.unusedVariables false

theorem memLoad_only {n aligned fields f x} : Only [.obj, .sage, .freeCtr] x.s (memLoad n aligned fields f x).s := by
  unfold memLoad
  dsimp only
  split
  · exact Only.mono dmemLoad_only
  · exact Only.refl _

theorem memPut_only {aligned fields l x} : Only [.obj, .sage, .freeCtr] x.s (memPut aligned fields l x).s := Only.refl _

theorem execNop_only {core w s} : Runs [.obj, .pow, .boot, .host, .dict, .work, .sage, .radio, .noc, .dram, .sram, .mem, .out, .freeCtr] s (execNop core w s) := by
  unfold execNop
  with_reducible repeat' first
    | exact Only.refl _
    | assumption
    | decide
    | apply Runs.done
    | apply Runs.whenDue
    | apply Runs.answer
    | apply Runs.next
    | apply Runs.elim
    | apply Runs.after (issue_only ?_)
    | exact Ctx.ok_only
    | exact Ctx.bad_only
    | exact Ctx.guard_only
    | exact memLoad_only
    | exact memPut_only
    | extract_lets
    | fail_if_no_progress refine Only.upd ?_
    | split
    | refine Only.ofPair (by assumption) ?_
    | intro _
    | dsimp only
    | dsimp +zetaDelta only

theorem execYield_only {core w s} : Runs [.obj, .pow, .boot, .host, .dict, .work, .sage, .radio, .noc, .dram, .sram, .mem, .out, .freeCtr] s (execYield core w s) := by
  unfold execYield
  with_reducible repeat' first
    | exact Only.refl _
    | assumption
    | decide
    | apply Runs.done
    | apply Runs.whenDue
    | apply Runs.answer
    | apply Runs.next
    | apply Runs.elim
    | apply Runs.after (issue_only ?_)
    | exact Ctx.ok_only
    | exact Ctx.bad_only
    | exact Ctx.guard_only
    | exact memLoad_only
    | exact memPut_only
    | extract_lets
    | fail_if_no_progress refine Only.upd ?_
    | split
    | refine Only.ofPair (by assumption) ?_
    | intro _
    | dsimp only
    | dsimp +zetaDelta only

theorem execEnd_only {core w s} : Runs [.obj, .pow, .boot, .host, .dict, .work, .sage, .radio, .noc, .dram, .sram, .mem, .out, .freeCtr] s (execEnd core w s) := by
  unfold execEnd
  with_reducible repeat' first
    | exact Only.refl _
    | assumption
    | decide
    | apply Runs.done
    | apply Runs.whenDue
    | apply Runs.answer
    | apply Runs.next
    | apply Runs.elim
    | apply Runs.after (issue_only ?_)
    | exact Ctx.ok_only
    | exact Ctx.bad_only
    | exact Ctx.guard_only
    | exact memLoad_only
    | exact memPut_only
    | extract_lets
    | fail_if_no_progress refine Only.upd ?_
    | split
    | refine Only.ofPair (by assumption) ?_
    | intro _
    | dsimp only
    | dsimp +zetaDelta only

theorem execXwait_only {core w s} : Runs [.obj, .pow, .boot, .host, .dict, .work, .sage, .radio, .noc, .dram, .sram, .mem, .out, .freeCtr] s (execXwait core w s) := by
  unfold execXwait
  with_reducible repeat' first
    | exact Only.refl _
    | assumption
    | decide
    | apply Runs.done
    | apply Runs.whenDue
    | apply Runs.answer
    | apply Runs.next
    | apply Runs.elim
    | apply Runs.after (issue_only ?_)
    | exact Ctx.ok_only
    | exact Ctx.bad_only
    | exact Ctx.guard_only
    | exact memLoad_only
    | exact memPut_only
    | extract_lets
    | fail_if_no_progress refine Only.upd ?_
    | split
    | refine Only.ofPair (by assumption) ?_
    | intro _
    | dsimp only
    | dsimp +zetaDelta only

theorem execXtest_only {core w s} : Runs [.obj, .pow, .boot, .host, .dict, .work, .sage, .radio, .noc, .dram, .sram, .mem, .out, .freeCtr] s (execXtest core w s) := by
  unfold execXtest
  with_reducible repeat' first
    | exact Only.refl _
    | assumption
    | decide
    | apply Runs.done
    | apply Runs.whenDue
    | apply Runs.answer
    | apply Runs.next
    | apply Runs.elim
    | apply Runs.after (issue_only ?_)
    | exact Ctx.ok_only
    | exact Ctx.bad_only
    | exact Ctx.guard_only
    | exact memLoad_only
    | exact memPut_only
    | extract_lets
    | fail_if_no_progress refine Only.upd ?_
    | split
    | refine Only.ofPair (by assumption) ?_
    | intro _
    | dsimp only
    | dsimp +zetaDelta only

theorem execXwaitall_only {core w s} : Runs [.obj, .pow, .boot, .host, .dict, .work, .sage, .radio, .noc, .dram, .sram, .mem, .out, .freeCtr] s (execXwaitall core w s) := by
  unfold execXwaitall
  with_reducible repeat' first
    | exact Only.refl _
    | assumption
    | decide
    | apply Runs.done
    | apply Runs.whenDue
    | apply Runs.answer
    | apply Runs.next
    | apply Runs.elim
    | apply Runs.after (issue_only ?_)
    | exact Ctx.ok_only
    | exact Ctx.bad_only
    | exact Ctx.guard_only
    | exact memLoad_only
    | exact memPut_only
    | extract_lets
    | fail_if_no_progress refine Only.upd ?_
    | split
    | refine Only.ofPair (by assumption) ?_
    | intro _
    | dsimp only
    | dsimp +zetaDelta only

theorem execXfer_only {core w s} : Runs [.obj, .pow, .boot, .host, .dict, .work, .sage, .radio, .noc, .dram, .sram, .mem, .out, .freeCtr] s (execXfer core w s) := by
  unfold execXfer
  with_reducible repeat' first
    | exact Only.refl _
    | assumption
    | decide
    | apply Runs.done
    | apply Runs.whenDue
    | apply Runs.answer
    | apply Runs.next
    | apply Runs.elim
    | apply Runs.after (issue_only ?_)
    | exact Ctx.ok_only
    | exact Ctx.bad_only
    | exact Ctx.guard_only
    | exact memLoad_only
    | exact memPut_only
    | extract_lets
    | fail_if_no_progress refine Only.upd ?_
    | split
    | refine Only.ofPair (by assumption) ?_
    | intro _
    | dsimp only
    | dsimp +zetaDelta only

theorem aluT_only {core w op fn f s} : Runs [.obj, .pow, .boot, .host, .dict, .work, .sage, .radio, .noc, .dram, .sram, .mem, .out, .freeCtr] s (aluT core w op fn f s) := by
  unfold aluT
  with_reducible repeat' first
    | exact Only.refl _
    | assumption
    | decide
    | apply Runs.done
    | apply Runs.whenDue
    | apply Runs.answer
    | apply Runs.next
    | apply Runs.elim
    | apply Runs.after (issue_only ?_)
    | exact Ctx.ok_only
    | exact Ctx.bad_only
    | exact Ctx.guard_only
    | exact memLoad_only
    | exact memPut_only
    | extract_lets
    | fail_if_no_progress refine Only.upd ?_
    | split
    | refine Only.ofPair (by assumption) ?_
    | intro _
    | dsimp only
    | dsimp +zetaDelta only

theorem execAdd_only {core w s} : Runs [.obj, .pow, .boot, .host, .dict, .work, .sage, .radio, .noc, .dram, .sram, .mem, .out, .freeCtr] s (execAdd core w s) := by
  unfold execAdd
  with_reducible repeat' first
    | exact Only.refl _
    | assumption
    | decide
    | apply Runs.done
    | apply Runs.whenDue
    | apply Runs.answer
    | apply Runs.next
    | apply Runs.elim
    | apply Runs.after aluT_only
    | extract_lets
    | fail_if_no_progress refine Only.upd ?_
    | split
    | refine Only.ofPair (by assumption) ?_
    | intro _
    | dsimp only
    | dsimp +zetaDelta only

theorem execSub_only {core w s} : Runs [.obj, .pow, .boot, .host, .dict, .work, .sage, .radio, .noc, .dram, .sram, .mem, .out, .freeCtr] s (execSub core w s) := by
  unfold execSub
  with_reducible repeat' first
    | exact Only.refl _
    | assumption
    | decide
    | apply Runs.done
    | apply Runs.whenDue
    | apply Runs.answer
    | apply Runs.next
    | apply Runs.elim
    | apply Runs.after aluT_only
    | extract_lets
    | fail_if_no_progress refine Only.upd ?_
    | split
    | refine Only.ofPair (by assumption) ?_
    | intro _
    | dsimp only
    | dsimp +zetaDelta only

theorem execAdds_only {core w s} : Runs [.obj, .pow, .boot, .host, .dict, .work, .sage, .radio, .noc, .dram, .sram, .mem, .out, .freeCtr] s (execAdds core w s) := by
  unfold execAdds
  with_reducible repeat' first
    | exact Only.refl _
    | assumption
    | decide
    | apply Runs.done
    | apply Runs.whenDue
    | apply Runs.answer
    | apply Runs.next
    | apply Runs.elim
    | apply Runs.after aluT_only
    | extract_lets
    | fail_if_no_progress refine Only.upd ?_
    | split
    | refine Only.ofPair (by assumption) ?_
    | intro _
    | dsimp only
    | dsimp +zetaDelta only

theorem execSubs_only {core w s} : Runs [.obj, .pow, .boot, .host, .dict, .work, .sage, .radio, .noc, .dram, .sram, .mem, .out, .freeCtr] s (execSubs core w s) := by
  unfold execSubs
  with_reducible repeat' first
    | exact Only.refl _
    | assumption
    | decide
    | apply Runs.done
    | apply Runs.whenDue
    | apply Runs.answer
    | apply Runs.next
    | apply Runs.elim
    | apply Runs.after aluT_only
    | extract_lets
    | fail_if_no_progress refine Only.upd ?_
    | split
    | refine Only.ofPair (by assumption) ?_
    | intro _
    | dsimp only
    | dsimp +zetaDelta only

theorem execAnd_only {core w s} : Runs [.obj, .pow, .boot, .host, .dict, .work, .sage, .radio, .noc, .dram, .sram, .mem, .out, .freeCtr] s (execAnd core w s) := by
  unfold execAnd
  with_reducible repeat' first
    | exact Only.refl _
    | assumption
    | decide
    | apply Runs.done
    | apply Runs.whenDue
    | apply Runs.answer
    | apply Runs.next
    | apply Runs.elim
    | apply Runs.after aluT_only
    | extract_lets
    | fail_if_no_progress refine Only.upd ?_
    | split
    | refine Only.ofPair (by assumption) ?_
    | intro _
    | dsimp only
    | dsimp +zetaDelta only

theorem execOr_only {core w s} : Runs [.obj, .pow, .boot, .host, .dict, .work, .sage, .radio, .noc, .dram, .sram, .mem, .out, .freeCtr] s (execOr core w s) := by
  unfold execOr
  with_reducible repeat' first
    | exact Only.refl _
    | assumption
    | decide
    | apply Runs.done
    | apply Runs.whenDue
    | apply Runs.answer
    | apply Runs.next
    | apply Runs.elim
    | apply Runs.after aluT_only
    | extract_lets
    | fail_if_no_progress refine Only.upd ?_
    | split
    | refine Only.ofPair (by assumption) ?_
    | intro _
    | dsimp only
    | dsimp +zetaDelta only

theorem execXor_only {core w s} : Runs [.obj, .pow, .boot, .host, .dict, .work, .sage, .radio, .noc, .dram, .sram, .mem, .out, .freeCtr] s (execXor core w s) := by
  unfold execXor
  with_reducible repeat' first
    | exact Only.refl _
    | assumption
    | decide
    | apply Runs.done
    | apply Runs.whenDue
    | apply Runs.answer
    | apply Runs.next
    | apply Runs.elim
    | apply Runs.after aluT_only
    | extract_lets
    | fail_if_no_progress refine Only.upd ?_
    | split
    | refine Only.ofPair (by assumption) ?_
    | intro _
    | dsimp only
    | dsimp +zetaDelta only

theorem execAndn_only {core w s} : Runs [.obj, .pow, .boot, .host, .dict, .work, .sage, .radio, .noc, .dram, .sram, .mem, .out, .freeCtr] s (execAndn core w s) := by
  unfold execAndn
  with_reducible repeat' first
    | exact Only.refl _
    | assumption
    | decide
    | apply Runs.done
    | apply Runs.whenDue
    | apply Runs.answer
    | apply Runs.next
    | apply Runs.elim
    | apply Runs.after aluT_only
    | extract_lets
    | fail_if_no_progress refine Only.upd ?_
    | split
    | refine Only.ofPair (by assumption) ?_
    | intro _
    | dsimp only
    | dsimp +zetaDelta only

theorem execNeg_only {core w s} : Runs [.obj, .pow, .boot, .host, .dict, .work, .sage, .radio, .noc, .dram, .sram, .mem, .out, .freeCtr] s (execNeg core w s) := by
  unfold execNeg
  with_reducible repeat' first
    | exact Only.refl _
    | assumption
    | decide
    | apply Runs.done
    | apply Runs.whenDue
    | apply Runs.answer
    | apply Runs.next
    | apply Runs.elim
    | apply Runs.after aluT_only
    | extract_lets
    | fail_if_no_progress refine Only.upd ?_
    | split
    | refine Only.ofPair (by assumption) ?_
    | intro _
    | dsimp only
    | dsimp +zetaDelta only

theorem execNegs_only {core w s} : Runs [.obj, .pow, .boot, .host, .dict, .work, .sage, .radio, .noc, .dram, .sram, .mem, .out, .freeCtr] s (execNegs core w s) := by
  unfold execNegs
  with_reducible repeat' first
    | exact Only.refl _
    | assumption
    | decide
    | apply Runs.done
    | apply Runs.whenDue
    | apply Runs.answer
    | apply Runs.next
    | apply Runs.elim
    | apply Runs.after aluT_only
    | extract_lets
    | fail_if_no_progress refine Only.upd ?_
    | split
    | refine Only.ofPair (by assumption) ?_
    | intro _
    | dsimp only
    | dsimp +zetaDelta only

theorem execAbs_only {core w s} : Runs [.obj, .pow, .boot, .host, .dict, .work, .sage, .radio, .noc, .dram, .sram, .mem, .out, .freeCtr] s (execAbs core w s) := by
  unfold execAbs
  with_reducible repeat' first
    | exact Only.refl _
    | assumption
    | decide
    | apply Runs.done
    | apply Runs.whenDue
    | apply Runs.answer
    | apply Runs.next
    | apply Runs.elim
    | apply Runs.after aluT_only
    | extract_lets
    | fail_if_no_progress refine Only.upd ?_
    | split
    | refine Only.ofPair (by assumption) ?_
    | intro _
    | dsimp only
    | dsimp +zetaDelta only

theorem execAbss_only {core w s} : Runs [.obj, .pow, .boot, .host, .dict, .work, .sage, .radio, .noc, .dram, .sram, .mem, .out, .freeCtr] s (execAbss core w s) := by
  unfold execAbss
  with_reducible repeat' first
    | exact Only.refl _
    | assumption
    | decide
    | apply Runs.done
    | apply Runs.whenDue
    | apply Runs.answer
    | apply Runs.next
    | apply Runs.elim
    | apply Runs.after aluT_only
    | extract_lets
    | fail_if_no_progress refine Only.upd ?_
    | split
    | refine Only.ofPair (by assumption) ?_
    | intro _
    | dsimp only
    | dsimp +zetaDelta only

theorem execClz_only {core w s} : Runs [.obj, .pow, .boot, .host, .dict, .work, .sage, .radio, .noc, .dram, .sram, .mem, .out, .freeCtr] s (execClz core w s) := by
  unfold execClz
  with_reducible repeat' first
    | exact Only.refl _
    | assumption
    | decide
    | apply Runs.done
    | apply Runs.whenDue
    | apply Runs.answer
    | apply Runs.next
    | apply Runs.elim
    | apply Runs.after aluT_only
    | extract_lets
    | fail_if_no_progress refine Only.upd ?_
    | split
    | refine Only.ofPair (by assumption) ?_
    | intro _
    | dsimp only
    | dsimp +zetaDelta only

theorem execCls_only {core w s} : Runs [.obj, .pow, .boot, .host, .dict, .work, .sage, .radio, .noc, .dram, .sram, .mem, .out, .freeCtr] s (execCls core w s) := by
  unfold execCls
  with_reducible repeat' first
    | exact Only.refl _
    | assumption
    | decide
    | apply Runs.done
    | apply Runs.whenDue
    | apply Runs.answer
    | apply Runs.next
    | apply Runs.elim
    | apply Runs.after aluT_only
    | extract_lets
    | fail_if_no_progress refine Only.upd ?_
    | split
    | refine Only.ofPair (by assumption) ?_
    | intro _
    | dsimp only
    | dsimp +zetaDelta only

theorem aluI_only {core w fn f s} : Runs [.obj, .pow, .boot, .host, .dict, .work, .sage, .radio, .noc, .dram, .sram, .mem, .out, .freeCtr] s (aluI core w fn f s) := by
  unfold aluI
  with_reducible repeat' first
    | exact Only.refl _
    | assumption
    | decide
    | apply Runs.done
    | apply Runs.whenDue
    | apply Runs.answer
    | apply Runs.next
    | apply Runs.elim
    | apply Runs.after (issue_only ?_)
    | exact Ctx.ok_only
    | exact Ctx.bad_only
    | exact Ctx.guard_only
    | exact memLoad_only
    | exact memPut_only
    | extract_lets
    | fail_if_no_progress refine Only.upd ?_
    | split
    | refine Only.ofPair (by assumption) ?_
    | intro _
    | dsimp only
    | dsimp +zetaDelta only

theorem execAddi_only {core w s} : Runs [.obj, .pow, .boot, .host, .dict, .work, .sage, .radio, .noc, .dram, .sram, .mem, .out, .freeCtr] s (execAddi core w s) := by
  unfold execAddi
  with_reducible repeat' first
    | exact Only.refl _
    | assumption
    | decide
    | apply Runs.done
    | apply Runs.whenDue
    | apply Runs.answer
    | apply Runs.next
    | apply Runs.elim
    | apply Runs.after aluI_only
    | extract_lets
    | fail_if_no_progress refine Only.upd ?_
    | split
    | refine Only.ofPair (by assumption) ?_
    | intro _
    | dsimp only
    | dsimp +zetaDelta only

theorem execAndi_only {core w s} : Runs [.obj, .pow, .boot, .host, .dict, .work, .sage, .radio, .noc, .dram, .sram, .mem, .out, .freeCtr] s (execAndi core w s) := by
  unfold execAndi
  with_reducible repeat' first
    | exact Only.refl _
    | assumption
    | decide
    | apply Runs.done
    | apply Runs.whenDue
    | apply Runs.answer
    | apply Runs.next
    | apply Runs.elim
    | apply Runs.after aluI_only
    | extract_lets
    | fail_if_no_progress refine Only.upd ?_
    | split
    | refine Only.ofPair (by assumption) ?_
    | intro _
    | dsimp only
    | dsimp +zetaDelta only

theorem execOri_only {core w s} : Runs [.obj, .pow, .boot, .host, .dict, .work, .sage, .radio, .noc, .dram, .sram, .mem, .out, .freeCtr] s (execOri core w s) := by
  unfold execOri
  with_reducible repeat' first
    | exact Only.refl _
    | assumption
    | decide
    | apply Runs.done
    | apply Runs.whenDue
    | apply Runs.answer
    | apply Runs.next
    | apply Runs.elim
    | apply Runs.after aluI_only
    | extract_lets
    | fail_if_no_progress refine Only.upd ?_
    | split
    | refine Only.ofPair (by assumption) ?_
    | intro _
    | dsimp only
    | dsimp +zetaDelta only

theorem execXori_only {core w s} : Runs [.obj, .pow, .boot, .host, .dict, .work, .sage, .radio, .noc, .dram, .sram, .mem, .out, .freeCtr] s (execXori core w s) := by
  unfold execXori
  with_reducible repeat' first
    | exact Only.refl _
    | assumption
    | decide
    | apply Runs.done
    | apply Runs.whenDue
    | apply Runs.answer
    | apply Runs.next
    | apply Runs.elim
    | apply Runs.after aluI_only
    | extract_lets
    | fail_if_no_progress refine Only.upd ?_
    | split
    | refine Only.ofPair (by assumption) ?_
    | intro _
    | dsimp only
    | dsimp +zetaDelta only

theorem execSlti_only {core w s} : Runs [.obj, .pow, .boot, .host, .dict, .work, .sage, .radio, .noc, .dram, .sram, .mem, .out, .freeCtr] s (execSlti core w s) := by
  unfold execSlti
  with_reducible repeat' first
    | exact Only.refl _
    | assumption
    | decide
    | apply Runs.done
    | apply Runs.whenDue
    | apply Runs.answer
    | apply Runs.next
    | apply Runs.elim
    | apply Runs.after aluI_only
    | extract_lets
    | fail_if_no_progress refine Only.upd ?_
    | split
    | refine Only.ofPair (by assumption) ?_
    | intro _
    | dsimp only
    | dsimp +zetaDelta only

theorem execSltiu_only {core w s} : Runs [.obj, .pow, .boot, .host, .dict, .work, .sage, .radio, .noc, .dram, .sram, .mem, .out, .freeCtr] s (execSltiu core w s) := by
  unfold execSltiu
  with_reducible repeat' first
    | exact Only.refl _
    | assumption
    | decide
    | apply Runs.done
    | apply Runs.whenDue
    | apply Runs.answer
    | apply Runs.next
    | apply Runs.elim
    | apply Runs.after aluI_only
    | extract_lets
    | fail_if_no_progress refine Only.upd ?_
    | split
    | refine Only.ofPair (by assumption) ?_
    | intro _
    | dsimp only
    | dsimp +zetaDelta only

theorem execAddsi_only {core w s} : Runs [.obj, .pow, .boot, .host, .dict, .work, .sage, .radio, .noc, .dram, .sram, .mem, .out, .freeCtr] s (execAddsi core w s) := by
  unfold execAddsi
  with_reducible repeat' first
    | exact Only.refl _
    | assumption
    | decide
    | apply Runs.done
    | apply Runs.whenDue
    | apply Runs.answer
    | apply Runs.next
    | apply Runs.elim
    | apply Runs.after aluI_only
    | extract_lets
    | fail_if_no_progress refine Only.upd ?_
    | split
    | refine Only.ofPair (by assumption) ?_
    | intro _
    | dsimp only
    | dsimp +zetaDelta only

theorem execLui_only {core w s} : Runs [.obj, .pow, .boot, .host, .dict, .work, .sage, .radio, .noc, .dram, .sram, .mem, .out, .freeCtr] s (execLui core w s) := by
  unfold execLui
  with_reducible repeat' first
    | exact Only.refl _
    | assumption
    | decide
    | apply Runs.done
    | apply Runs.whenDue
    | apply Runs.answer
    | apply Runs.next
    | apply Runs.elim
    | apply Runs.after (issue_only ?_)
    | exact Ctx.ok_only
    | exact Ctx.bad_only
    | exact Ctx.guard_only
    | exact memLoad_only
    | exact memPut_only
    | extract_lets
    | fail_if_no_progress refine Only.upd ?_
    | split
    | refine Only.ofPair (by assumption) ?_
    | intro _
    | dsimp only
    | dsimp +zetaDelta only

theorem execSll_only {core w s} : Runs [.obj, .pow, .boot, .host, .dict, .work, .sage, .radio, .noc, .dram, .sram, .mem, .out, .freeCtr] s (execSll core w s) := by
  unfold execSll
  with_reducible repeat' first
    | exact Only.refl _
    | assumption
    | decide
    | apply Runs.done
    | apply Runs.whenDue
    | apply Runs.answer
    | apply Runs.next
    | apply Runs.elim
    | apply Runs.after aluT_only
    | extract_lets
    | fail_if_no_progress refine Only.upd ?_
    | split
    | refine Only.ofPair (by assumption) ?_
    | intro _
    | dsimp only
    | dsimp +zetaDelta only

theorem execSrl_only {core w s} : Runs [.obj, .pow, .boot, .host, .dict, .work, .sage, .radio, .noc, .dram, .sram, .mem, .out, .freeCtr] s (execSrl core w s) := by
  unfold execSrl
  with_reducible repeat' first
    | exact Only.refl _
    | assumption
    | decide
    | apply Runs.done
    | apply Runs.whenDue
    | apply Runs.answer
    | apply Runs.next
    | apply Runs.elim
    | apply Runs.after aluT_only
    | extract_lets
    | fail_if_no_progress refine Only.upd ?_
    | split
    | refine Only.ofPair (by assumption) ?_
    | intro _
    | dsimp only
    | dsimp +zetaDelta only

theorem execSra_only {core w s} : Runs [.obj, .pow, .boot, .host, .dict, .work, .sage, .radio, .noc, .dram, .sram, .mem, .out, .freeCtr] s (execSra core w s) := by
  unfold execSra
  with_reducible repeat' first
    | exact Only.refl _
    | assumption
    | decide
    | apply Runs.done
    | apply Runs.whenDue
    | apply Runs.answer
    | apply Runs.next
    | apply Runs.elim
    | apply Runs.after aluT_only
    | extract_lets
    | fail_if_no_progress refine Only.upd ?_
    | split
    | refine Only.ofPair (by assumption) ?_
    | intro _
    | dsimp only
    | dsimp +zetaDelta only

theorem execRor_only {core w s} : Runs [.obj, .pow, .boot, .host, .dict, .work, .sage, .radio, .noc, .dram, .sram, .mem, .out, .freeCtr] s (execRor core w s) := by
  unfold execRor
  with_reducible repeat' first
    | exact Only.refl _
    | assumption
    | decide
    | apply Runs.done
    | apply Runs.whenDue
    | apply Runs.answer
    | apply Runs.next
    | apply Runs.elim
    | apply Runs.after aluT_only
    | extract_lets
    | fail_if_no_progress refine Only.upd ?_
    | split
    | refine Only.ofPair (by assumption) ?_
    | intro _
    | dsimp only
    | dsimp +zetaDelta only

theorem execSlls_only {core w s} : Runs [.obj, .pow, .boot, .host, .dict, .work, .sage, .radio, .noc, .dram, .sram, .mem, .out, .freeCtr] s (execSlls core w s) := by
  unfold execSlls
  with_reducible repeat' first
    | exact Only.refl _
    | assumption
    | decide
    | apply Runs.done
    | apply Runs.whenDue
    | apply Runs.answer
    | apply Runs.next
    | apply Runs.elim
    | apply Runs.after aluT_only
    | extract_lets
    | fail_if_no_progress refine Only.upd ?_
    | split
    | refine Only.ofPair (by assumption) ?_
    | intro _
    | dsimp only
    | dsimp +zetaDelta only

theorem execSlli_only {core w s} : Runs [.obj, .pow, .boot, .host, .dict, .work, .sage, .radio, .noc, .dram, .sram, .mem, .out, .freeCtr] s (execSlli core w s) := by
  unfold execSlli
  with_reducible repeat' first
    | exact Only.refl _
    | assumption
    | decide
    | apply Runs.done
    | apply Runs.whenDue
    | apply Runs.answer
    | apply Runs.next
    | apply Runs.elim
    | apply Runs.after aluT_only
    | extract_lets
    | fail_if_no_progress refine Only.upd ?_
    | split
    | refine Only.ofPair (by assumption) ?_
    | intro _
    | dsimp only
    | dsimp +zetaDelta only

theorem execSrli_only {core w s} : Runs [.obj, .pow, .boot, .host, .dict, .work, .sage, .radio, .noc, .dram, .sram, .mem, .out, .freeCtr] s (execSrli core w s) := by
  unfold execSrli
  with_reducible repeat' first
    | exact Only.refl _
    | assumption
    | decide
    | apply Runs.done
    | apply Runs.whenDue
    | apply Runs.answer
    | apply Runs.next
    | apply Runs.elim
    | apply Runs.after aluT_only
    | extract_lets
    | fail_if_no_progress refine Only.upd ?_
    | split
    | refine Only.ofPair (by assumption) ?_
    | intro _
    | dsimp only
    | dsimp +zetaDelta only

theorem execSrai_only {core w s} : Runs [.obj, .pow, .boot, .host, .dict, .work, .sage, .radio, .noc, .dram, .sram, .mem, .out, .freeCtr] s (execSrai core w s) := by
  unfold execSrai
  with_reducible repeat' first
    | exact Only.refl _
    | assumption
    | decide
    | apply Runs.done
    | apply Runs.whenDue
    | apply Runs.answer
    | apply Runs.next
    | apply Runs.elim
    | apply Runs.after aluT_only
    | extract_lets
    | fail_if_no_progress refine Only.upd ?_
    | split
    | refine Only.ofPair (by assumption) ?_
    | intro _
    | dsimp only
    | dsimp +zetaDelta only

theorem execRori_only {core w s} : Runs [.obj, .pow, .boot, .host, .dict, .work, .sage, .radio, .noc, .dram, .sram, .mem, .out, .freeCtr] s (execRori core w s) := by
  unfold execRori
  with_reducible repeat' first
    | exact Only.refl _
    | assumption
    | decide
    | apply Runs.done
    | apply Runs.whenDue
    | apply Runs.answer
    | apply Runs.next
    | apply Runs.elim
    | apply Runs.after aluT_only
    | extract_lets
    | fail_if_no_progress refine Only.upd ?_
    | split
    | refine Only.ofPair (by assumption) ?_
    | intro _
    | dsimp only
    | dsimp +zetaDelta only

theorem execSllsi_only {core w s} : Runs [.obj, .pow, .boot, .host, .dict, .work, .sage, .radio, .noc, .dram, .sram, .mem, .out, .freeCtr] s (execSllsi core w s) := by
  unfold execSllsi
  with_reducible repeat' first
    | exact Only.refl _
    | assumption
    | decide
    | apply Runs.done
    | apply Runs.whenDue
    | apply Runs.answer
    | apply Runs.next
    | apply Runs.elim
    | apply Runs.after aluT_only
    | extract_lets
    | fail_if_no_progress refine Only.upd ?_
    | split
    | refine Only.ofPair (by assumption) ?_
    | intro _
    | dsimp only
    | dsimp +zetaDelta only

theorem bitField_only {core w fn f s} : Runs [.obj, .pow, .boot, .host, .dict, .work, .sage, .radio, .noc, .dram, .sram, .mem, .out, .freeCtr] s (bitField core w fn f s) := by
  unfold bitField
  with_reducible repeat' first
    | exact Only.refl _
    | assumption
    | decide
    | apply Runs.done
    | apply Runs.whenDue
    | apply Runs.answer
    | apply Runs.next
    | apply Runs.elim
    | apply Runs.after (issue_only ?_)
    | exact Ctx.ok_only
    | exact Ctx.bad_only
    | exact Ctx.guard_only
    | exact memLoad_only
    | exact memPut_only
    | extract_lets
    | fail_if_no_progress refine Only.upd ?_
    | split
    | refine Only.ofPair (by assumption) ?_
    | intro _
    | dsimp only
    | dsimp +zetaDelta only

theorem execExtu_only {core w s} : Runs [.obj, .pow, .boot, .host, .dict, .work, .sage, .radio, .noc, .dram, .sram, .mem, .out, .freeCtr] s (execExtu core w s) := by
  unfold execExtu
  with_reducible repeat' first
    | exact Only.refl _
    | assumption
    | decide
    | apply Runs.done
    | apply Runs.whenDue
    | apply Runs.answer
    | apply Runs.next
    | apply Runs.elim
    | apply Runs.after bitField_only
    | extract_lets
    | fail_if_no_progress refine Only.upd ?_
    | split
    | refine Only.ofPair (by assumption) ?_
    | intro _
    | dsimp only
    | dsimp +zetaDelta only

theorem execExts_only {core w s} : Runs [.obj, .pow, .boot, .host, .dict, .work, .sage, .radio, .noc, .dram, .sram, .mem, .out, .freeCtr] s (execExts core w s) := by
  unfold execExts
  with_reducible repeat' first
    | exact Only.refl _
    | assumption
    | decide
    | apply Runs.done
    | apply Runs.whenDue
    | apply Runs.answer
    | apply Runs.next
    | apply Runs.elim
    | apply Runs.after bitField_only
    | extract_lets
    | fail_if_no_progress refine Only.upd ?_
    | split
    | refine Only.ofPair (by assumption) ?_
    | intro _
    | dsimp only
    | dsimp +zetaDelta only

theorem execIns_only {core w s} : Runs [.obj, .pow, .boot, .host, .dict, .work, .sage, .radio, .noc, .dram, .sram, .mem, .out, .freeCtr] s (execIns core w s) := by
  unfold execIns
  with_reducible repeat' first
    | exact Only.refl _
    | assumption
    | decide
    | apply Runs.done
    | apply Runs.whenDue
    | apply Runs.answer
    | apply Runs.next
    | apply Runs.elim
    | apply Runs.after bitField_only
    | extract_lets
    | fail_if_no_progress refine Only.upd ?_
    | split
    | refine Only.ofPair (by assumption) ?_
    | intro _
    | dsimp only
    | dsimp +zetaDelta only

theorem execSeq_only {core w s} : Runs [.obj, .pow, .boot, .host, .dict, .work, .sage, .radio, .noc, .dram, .sram, .mem, .out, .freeCtr] s (execSeq core w s) := by
  unfold execSeq
  with_reducible repeat' first
    | exact Only.refl _
    | assumption
    | decide
    | apply Runs.done
    | apply Runs.whenDue
    | apply Runs.answer
    | apply Runs.next
    | apply Runs.elim
    | apply Runs.after aluT_only
    | extract_lets
    | fail_if_no_progress refine Only.upd ?_
    | split
    | refine Only.ofPair (by assumption) ?_
    | intro _
    | dsimp only
    | dsimp +zetaDelta only

theorem execSne_only {core w s} : Runs [.obj, .pow, .boot, .host, .dict, .work, .sage, .radio, .noc, .dram, .sram, .mem, .out, .freeCtr] s (execSne core w s) := by
  unfold execSne
  with_reducible repeat' first
    | exact Only.refl _
    | assumption
    | decide
    | apply Runs.done
    | apply Runs.whenDue
    | apply Runs.answer
    | apply Runs.next
    | apply Runs.elim
    | apply Runs.after aluT_only
    | extract_lets
    | fail_if_no_progress refine Only.upd ?_
    | split
    | refine Only.ofPair (by assumption) ?_
    | intro _
    | dsimp only
    | dsimp +zetaDelta only

theorem execSlt_only {core w s} : Runs [.obj, .pow, .boot, .host, .dict, .work, .sage, .radio, .noc, .dram, .sram, .mem, .out, .freeCtr] s (execSlt core w s) := by
  unfold execSlt
  with_reducible repeat' first
    | exact Only.refl _
    | assumption
    | decide
    | apply Runs.done
    | apply Runs.whenDue
    | apply Runs.answer
    | apply Runs.next
    | apply Runs.elim
    | apply Runs.after aluT_only
    | extract_lets
    | fail_if_no_progress refine Only.upd ?_
    | split
    | refine Only.ofPair (by assumption) ?_
    | intro _
    | dsimp only
    | dsimp +zetaDelta only

theorem execSltu_only {core w s} : Runs [.obj, .pow, .boot, .host, .dict, .work, .sage, .radio, .noc, .dram, .sram, .mem, .out, .freeCtr] s (execSltu core w s) := by
  unfold execSltu
  with_reducible repeat' first
    | exact Only.refl _
    | assumption
    | decide
    | apply Runs.done
    | apply Runs.whenDue
    | apply Runs.answer
    | apply Runs.next
    | apply Runs.elim
    | apply Runs.after aluT_only
    | extract_lets
    | fail_if_no_progress refine Only.upd ?_
    | split
    | refine Only.ofPair (by assumption) ?_
    | intro _
    | dsimp only
    | dsimp +zetaDelta only

theorem execMin_only {core w s} : Runs [.obj, .pow, .boot, .host, .dict, .work, .sage, .radio, .noc, .dram, .sram, .mem, .out, .freeCtr] s (execMin core w s) := by
  unfold execMin
  with_reducible repeat' first
    | exact Only.refl _
    | assumption
    | decide
    | apply Runs.done
    | apply Runs.whenDue
    | apply Runs.answer
    | apply Runs.next
    | apply Runs.elim
    | apply Runs.after aluT_only
    | extract_lets
    | fail_if_no_progress refine Only.upd ?_
    | split
    | refine Only.ofPair (by assumption) ?_
    | intro _
    | dsimp only
    | dsimp +zetaDelta only

theorem execMax_only {core w s} : Runs [.obj, .pow, .boot, .host, .dict, .work, .sage, .radio, .noc, .dram, .sram, .mem, .out, .freeCtr] s (execMax core w s) := by
  unfold execMax
  with_reducible repeat' first
    | exact Only.refl _
    | assumption
    | decide
    | apply Runs.done
    | apply Runs.whenDue
    | apply Runs.answer
    | apply Runs.next
    | apply Runs.elim
    | apply Runs.after aluT_only
    | extract_lets
    | fail_if_no_progress refine Only.upd ?_
    | split
    | refine Only.ofPair (by assumption) ?_
    | intro _
    | dsimp only
    | dsimp +zetaDelta only

theorem execMinu_only {core w s} : Runs [.obj, .pow, .boot, .host, .dict, .work, .sage, .radio, .noc, .dram, .sram, .mem, .out, .freeCtr] s (execMinu core w s) := by
  unfold execMinu
  with_reducible repeat' first
    | exact Only.refl _
    | assumption
    | decide
    | apply Runs.done
    | apply Runs.whenDue
    | apply Runs.answer
    | apply Runs.next
    | apply Runs.elim
    | apply Runs.after aluT_only
    | extract_lets
    | fail_if_no_progress refine Only.upd ?_
    | split
    | refine Only.ofPair (by assumption) ?_
    | intro _
    | dsimp only
    | dsimp +zetaDelta only

theorem execMaxu_only {core w s} : Runs [.obj, .pow, .boot, .host, .dict, .work, .sage, .radio, .noc, .dram, .sram, .mem, .out, .freeCtr] s (execMaxu core w s) := by
  unfold execMaxu
  with_reducible repeat' first
    | exact Only.refl _
    | assumption
    | decide
    | apply Runs.done
    | apply Runs.whenDue
    | apply Runs.answer
    | apply Runs.next
    | apply Runs.elim
    | apply Runs.after aluT_only
    | extract_lets
    | fail_if_no_progress refine Only.upd ?_
    | split
    | refine Only.ofPair (by assumption) ?_
    | intro _
    | dsimp only
    | dsimp +zetaDelta only

theorem search_only {core w fn better s} : Runs [.obj, .pow, .boot, .host, .dict, .work, .sage, .radio, .noc, .dram, .sram, .mem, .out, .freeCtr] s (search core w fn better s) := by
  unfold search
  with_reducible repeat' first
    | exact Only.refl _
    | assumption
    | decide
    | apply Runs.done
    | apply Runs.whenDue
    | apply Runs.answer
    | apply Runs.next
    | apply Runs.elim
    | apply Runs.after (issue_only ?_)
    | exact Ctx.ok_only
    | exact Ctx.bad_only
    | exact Ctx.guard_only
    | exact memLoad_only
    | exact memPut_only
    | extract_lets
    | fail_if_no_progress refine Only.upd ?_
    | split
    | refine Only.ofPair (by assumption) ?_
    | intro _
    | dsimp only
    | dsimp +zetaDelta only

theorem execMaxi_only {core w s} : Runs [.obj, .pow, .boot, .host, .dict, .work, .sage, .radio, .noc, .dram, .sram, .mem, .out, .freeCtr] s (execMaxi core w s) := by
  unfold execMaxi
  with_reducible repeat' first
    | exact Only.refl _
    | assumption
    | decide
    | apply Runs.done
    | apply Runs.whenDue
    | apply Runs.answer
    | apply Runs.next
    | apply Runs.elim
    | apply Runs.after search_only
    | extract_lets
    | fail_if_no_progress refine Only.upd ?_
    | split
    | refine Only.ofPair (by assumption) ?_
    | intro _
    | dsimp only
    | dsimp +zetaDelta only

theorem execMaxiu_only {core w s} : Runs [.obj, .pow, .boot, .host, .dict, .work, .sage, .radio, .noc, .dram, .sram, .mem, .out, .freeCtr] s (execMaxiu core w s) := by
  unfold execMaxiu
  with_reducible repeat' first
    | exact Only.refl _
    | assumption
    | decide
    | apply Runs.done
    | apply Runs.whenDue
    | apply Runs.answer
    | apply Runs.next
    | apply Runs.elim
    | apply Runs.after search_only
    | extract_lets
    | fail_if_no_progress refine Only.upd ?_
    | split
    | refine Only.ofPair (by assumption) ?_
    | intro _
    | dsimp only
    | dsimp +zetaDelta only

theorem execMini_only {core w s} : Runs [.obj, .pow, .boot, .host, .dict, .work, .sage, .radio, .noc, .dram, .sram, .mem, .out, .freeCtr] s (execMini core w s) := by
  unfold execMini
  with_reducible repeat' first
    | exact Only.refl _
    | assumption
    | decide
    | apply Runs.done
    | apply Runs.whenDue
    | apply Runs.answer
    | apply Runs.next
    | apply Runs.elim
    | apply Runs.after search_only
    | extract_lets
    | fail_if_no_progress refine Only.upd ?_
    | split
    | refine Only.ofPair (by assumption) ?_
    | intro _
    | dsimp only
    | dsimp +zetaDelta only

theorem execMiniu_only {core w s} : Runs [.obj, .pow, .boot, .host, .dict, .work, .sage, .radio, .noc, .dram, .sram, .mem, .out, .freeCtr] s (execMiniu core w s) := by
  unfold execMiniu
  with_reducible repeat' first
    | exact Only.refl _
    | assumption
    | decide
    | apply Runs.done
    | apply Runs.whenDue
    | apply Runs.answer
    | apply Runs.next
    | apply Runs.elim
    | apply Runs.after search_only
    | extract_lets
    | fail_if_no_progress refine Only.upd ?_
    | split
    | refine Only.ofPair (by assumption) ?_
    | intro _
    | dsimp only
    | dsimp +zetaDelta only

theorem branch_only {core w cond taken s} : Runs [.obj, .pow, .boot, .host, .dict, .work, .sage, .radio, .noc, .dram, .sram, .mem, .out, .freeCtr] s (branch core w cond taken s) := by
  unfold branch
  with_reducible repeat' first
    | exact Only.refl _
    | assumption
    | decide
    | apply Runs.done
    | apply Runs.whenDue
    | apply Runs.answer
    | apply Runs.next
    | apply Runs.elim
    | apply Runs.after (issue_only ?_)
    | exact Ctx.ok_only
    | exact Ctx.bad_only
    | exact Ctx.guard_only
    | exact memLoad_only
    | exact memPut_only
    | extract_lets
    | fail_if_no_progress refine Only.upd ?_
    | split
    | refine Only.ofPair (by assumption) ?_
    | intro _
    | dsimp only
    | dsimp +zetaDelta only

theorem execBeq_only {core w s} : Runs [.obj, .pow, .boot, .host, .dict, .work, .sage, .radio, .noc, .dram, .sram, .mem, .out, .freeCtr] s (execBeq core w s) := by
  unfold execBeq
  with_reducible repeat' first
    | exact Only.refl _
    | assumption
    | decide
    | apply Runs.done
    | apply Runs.whenDue
    | apply Runs.answer
    | apply Runs.next
    | apply Runs.elim
    | apply Runs.after branch_only
    | extract_lets
    | fail_if_no_progress refine Only.upd ?_
    | split
    | refine Only.ofPair (by assumption) ?_
    | intro _
    | dsimp only
    | dsimp +zetaDelta only

theorem execBne_only {core w s} : Runs [.obj, .pow, .boot, .host, .dict, .work, .sage, .radio, .noc, .dram, .sram, .mem, .out, .freeCtr] s (execBne core w s) := by
  unfold execBne
  with_reducible repeat' first
    | exact Only.refl _
    | assumption
    | decide
    | apply Runs.done
    | apply Runs.whenDue
    | apply Runs.answer
    | apply Runs.next
    | apply Runs.elim
    | apply Runs.after branch_only
    | extract_lets
    | fail_if_no_progress refine Only.upd ?_
    | split
    | refine Only.ofPair (by assumption) ?_
    | intro _
    | dsimp only
    | dsimp +zetaDelta only

theorem execBlt_only {core w s} : Runs [.obj, .pow, .boot, .host, .dict, .work, .sage, .radio, .noc, .dram, .sram, .mem, .out, .freeCtr] s (execBlt core w s) := by
  unfold execBlt
  with_reducible repeat' first
    | exact Only.refl _
    | assumption
    | decide
    | apply Runs.done
    | apply Runs.whenDue
    | apply Runs.answer
    | apply Runs.next
    | apply Runs.elim
    | apply Runs.after branch_only
    | extract_lets
    | fail_if_no_progress refine Only.upd ?_
    | split
    | refine Only.ofPair (by assumption) ?_
    | intro _
    | dsimp only
    | dsimp +zetaDelta only

theorem execBge_only {core w s} : Runs [.obj, .pow, .boot, .host, .dict, .work, .sage, .radio, .noc, .dram, .sram, .mem, .out, .freeCtr] s (execBge core w s) := by
  unfold execBge
  with_reducible repeat' first
    | exact Only.refl _
    | assumption
    | decide
    | apply Runs.done
    | apply Runs.whenDue
    | apply Runs.answer
    | apply Runs.next
    | apply Runs.elim
    | apply Runs.after branch_only
    | extract_lets
    | fail_if_no_progress refine Only.upd ?_
    | split
    | refine Only.ofPair (by assumption) ?_
    | intro _
    | dsimp only
    | dsimp +zetaDelta only

theorem execBltu_only {core w s} : Runs [.obj, .pow, .boot, .host, .dict, .work, .sage, .radio, .noc, .dram, .sram, .mem, .out, .freeCtr] s (execBltu core w s) := by
  unfold execBltu
  with_reducible repeat' first
    | exact Only.refl _
    | assumption
    | decide
    | apply Runs.done
    | apply Runs.whenDue
    | apply Runs.answer
    | apply Runs.next
    | apply Runs.elim
    | apply Runs.after branch_only
    | extract_lets
    | fail_if_no_progress refine Only.upd ?_
    | split
    | refine Only.ofPair (by assumption) ?_
    | intro _
    | dsimp only
    | dsimp +zetaDelta only

theorem execBgeu_only {core w s} : Runs [.obj, .pow, .boot, .host, .dict, .work, .sage, .radio, .noc, .dram, .sram, .mem, .out, .freeCtr] s (execBgeu core w s) := by
  unfold execBgeu
  with_reducible repeat' first
    | exact Only.refl _
    | assumption
    | decide
    | apply Runs.done
    | apply Runs.whenDue
    | apply Runs.answer
    | apply Runs.next
    | apply Runs.elim
    | apply Runs.after branch_only
    | extract_lets
    | fail_if_no_progress refine Only.upd ?_
    | split
    | refine Only.ofPair (by assumption) ?_
    | intro _
    | dsimp only
    | dsimp +zetaDelta only

theorem branchCmc_only {core w cond onBusy s} : Runs [.obj, .pow, .boot, .host, .dict, .work, .sage, .radio, .noc, .dram, .sram, .mem, .out, .freeCtr] s (branchCmc core w cond onBusy s) := by
  unfold branchCmc
  with_reducible repeat' first
    | exact Only.refl _
    | assumption
    | decide
    | apply Runs.done
    | apply Runs.whenDue
    | apply Runs.answer
    | apply Runs.next
    | apply Runs.elim
    | apply Runs.after (issue_only ?_)
    | exact Ctx.ok_only
    | exact Ctx.bad_only
    | exact Ctx.guard_only
    | exact memLoad_only
    | exact memPut_only
    | extract_lets
    | fail_if_no_progress refine Only.upd ?_
    | split
    | refine Only.ofPair (by assumption) ?_
    | intro _
    | dsimp only
    | dsimp +zetaDelta only

theorem execBcb_only {core w s} : Runs [.obj, .pow, .boot, .host, .dict, .work, .sage, .radio, .noc, .dram, .sram, .mem, .out, .freeCtr] s (execBcb core w s) := by
  unfold execBcb
  with_reducible repeat' first
    | exact Only.refl _
    | assumption
    | decide
    | apply Runs.done
    | apply Runs.whenDue
    | apply Runs.answer
    | apply Runs.next
    | apply Runs.elim
    | apply Runs.after branchCmc_only
    | extract_lets
    | fail_if_no_progress refine Only.upd ?_
    | split
    | refine Only.ofPair (by assumption) ?_
    | intro _
    | dsimp only
    | dsimp +zetaDelta only

theorem execBcnb_only {core w s} : Runs [.obj, .pow, .boot, .host, .dict, .work, .sage, .radio, .noc, .dram, .sram, .mem, .out, .freeCtr] s (execBcnb core w s) := by
  unfold execBcnb
  with_reducible repeat' first
    | exact Only.refl _
    | assumption
    | decide
    | apply Runs.done
    | apply Runs.whenDue
    | apply Runs.answer
    | apply Runs.next
    | apply Runs.elim
    | apply Runs.after branchCmc_only
    | extract_lets
    | fail_if_no_progress refine Only.upd ?_
    | split
    | refine Only.ofPair (by assumption) ?_
    | intro _
    | dsimp only
    | dsimp +zetaDelta only

theorem jump_only {core w fn f s} (h0 : ∀ a0, Only [.obj, .sage, .freeCtr] a0.s (f a0).s) : Runs [.obj, .pow, .boot, .host, .dict, .work, .sage, .radio, .noc, .dram, .sram, .mem, .out, .freeCtr] s (jump core w fn f s) := by
  unfold jump
  with_reducible repeat' first
    | exact Only.refl _
    | assumption
    | decide
    | apply Runs.done
    | apply Runs.whenDue
    | apply Runs.answer
    | apply Runs.next
    | apply Runs.elim
    | apply Runs.after (issue_only ?_)
    | apply Only.after (h0 _)
    | exact Ctx.ok_only
    | exact Ctx.bad_only
    | exact Ctx.guard_only
    | exact memLoad_only
    | exact memPut_only
    | extract_lets
    | fail_if_no_progress refine Only.upd ?_
    | split
    | refine Only.ofPair (by assumption) ?_
    | intro _
    | dsimp only
    | dsimp +zetaDelta only

theorem execJ_only {core w s} : Runs [.obj, .pow, .boot, .host, .dict, .work, .sage, .radio, .noc, .dram, .sram, .mem, .out, .freeCtr] s (execJ core w s) := by
  unfold execJ
  with_reducible repeat' first
    | exact Only.refl _
    | assumption
    | decide
    | apply Runs.done
    | apply Runs.whenDue
    | apply Runs.answer
    | apply Runs.next
    | apply Runs.elim
    | apply Runs.after (jump_only ?_)
    | exact Ctx.ok_only
    | exact Ctx.bad_only
    | exact Ctx.guard_only
    | exact memLoad_only
    | exact memPut_only
    | extract_lets
    | fail_if_no_progress refine Only.upd ?_
    | split
    | refine Only.ofPair (by assumption) ?_
    | intro _
    | dsimp only
    | dsimp +zetaDelta only

theorem execJal_only {core w s} : Runs [.obj, .pow, .boot, .host, .dict, .work, .sage, .radio, .noc, .dram, .sram, .mem, .out, .freeCtr] s (execJal core w s) := by
  unfold execJal
  with_reducible repeat' first
    | exact Only.refl _
    | assumption
    | decide
    | apply Runs.done
    | apply Runs.whenDue
    | apply Runs.answer
    | apply Runs.next
    | apply Runs.elim
    | apply Runs.after (jump_only ?_)
    | exact Ctx.ok_only
    | exact Ctx.bad_only
    | exact Ctx.guard_only
    | exact memLoad_only
    | exact memPut_only
    | extract_lets
    | fail_if_no_progress refine Only.upd ?_
    | split
    | refine Only.ofPair (by assumption) ?_
    | intro _
    | dsimp only
    | dsimp +zetaDelta only

theorem execJr_only {core w s} : Runs [.obj, .pow, .boot, .host, .dict, .work, .sage, .radio, .noc, .dram, .sram, .mem, .out, .freeCtr] s (execJr core w s) := by
  unfold execJr
  with_reducible repeat' first
    | exact Only.refl _
    | assumption
    | decide
    | apply Runs.done
    | apply Runs.whenDue
    | apply Runs.answer
    | apply Runs.next
    | apply Runs.elim
    | apply Runs.after (jump_only ?_)
    | exact Ctx.ok_only
    | exact Ctx.bad_only
    | exact Ctx.guard_only
    | exact memLoad_only
    | exact memPut_only
    | extract_lets
    | fail_if_no_progress refine Only.upd ?_
    | split
    | refine Only.ofPair (by assumption) ?_
    | intro _
    | dsimp only
    | dsimp +zetaDelta only

theorem execJalr_only {core w s} : Runs [.obj, .pow, .boot, .host, .dict, .work, .sage, .radio, .noc, .dram, .sram, .mem, .out, .freeCtr] s (execJalr core w s) := by
  unfold execJalr
  with_reducible repeat' first
    | exact Only.refl _
    | assumption
    | decide
    | apply Runs.done
    | apply Runs.whenDue
    | apply Runs.answer
    | apply Runs.next
    | apply Runs.elim
    | apply Runs.after (jump_only ?_)
    | exact Ctx.ok_only
    | exact Ctx.bad_only
    | exact Ctx.guard_only
    | exact memLoad_only
    | exact memPut_only
    | extract_lets
    | fail_if_no_progress refine Only.upd ?_
    | split
    | refine Only.ofPair (by assumption) ?_
    | intro _
    | dsimp only
    | dsimp +zetaDelta only

theorem execBrl_only {core w s} : Runs [.obj, .pow, .boot, .host, .dict, .work, .sage, .radio, .noc, .dram, .sram, .mem, .out, .freeCtr] s (execBrl core w s) := by
  unfold execBrl
  with_reducible repeat' first
    | exact Only.refl _
    | assumption
    | decide
    | apply Runs.done
    | apply Runs.whenDue
    | apply Runs.answer
    | apply Runs.next
    | apply Runs.elim
    | apply Runs.after (issue_only ?_)
    | exact Ctx.ok_only
    | exact Ctx.bad_only
    | exact Ctx.guard_only
    | exact memLoad_only
    | exact memPut_only
    | extract_lets
    | fail_if_no_progress refine Only.upd ?_
    | split
    | refine Only.ofPair (by assumption) ?_
    | intro _
    | dsimp only
    | dsimp +zetaDelta only

theorem execLci_only {core w s} : Runs [.obj, .pow, .boot, .host, .dict, .work, .sage, .radio, .noc, .dram, .sram, .mem, .out, .freeCtr] s (execLci core w s) := by
  unfold execLci
  with_reducible repeat' first
    | exact Only.refl _
    | assumption
    | decide
    | apply Runs.done
    | apply Runs.whenDue
    | apply Runs.answer
    | apply Runs.next
    | apply Runs.elim
    | apply Runs.after (issue_only ?_)
    | exact Ctx.ok_only
    | exact Ctx.bad_only
    | exact Ctx.guard_only
    | exact memLoad_only
    | exact memPut_only
    | extract_lets
    | fail_if_no_progress refine Only.upd ?_
    | split
    | refine Only.ofPair (by assumption) ?_
    | intro _
    | dsimp only
    | dsimp +zetaDelta only

theorem execLcr_only {core w s} : Runs [.obj, .pow, .boot, .host, .dict, .work, .sage, .radio, .noc, .dram, .sram, .mem, .out, .freeCtr] s (execLcr core w s) := by
  unfold execLcr
  with_reducible repeat' first
    | exact Only.refl _
    | assumption
    | decide
    | apply Runs.done
    | apply Runs.whenDue
    | apply Runs.answer
    | apply Runs.next
    | apply Runs.elim
    | apply Runs.after (issue_only ?_)
    | exact Ctx.ok_only
    | exact Ctx.bad_only
    | exact Ctx.guard_only
    | exact memLoad_only
    | exact memPut_only
    | extract_lets
    | fail_if_no_progress refine Only.upd ?_
    | split
    | refine Only.ofPair (by assumption) ?_
    | intro _
    | dsimp only
    | dsimp +zetaDelta only

theorem execRot_only {core w s} : Runs [.obj, .pow, .boot, .host, .dict, .work, .sage, .radio, .noc, .dram, .sram, .mem, .out, .freeCtr] s (execRot core w s) := by
  unfold execRot
  with_reducible repeat' first
    | exact Only.refl _
    | assumption
    | decide
    | apply Runs.done
    | apply Runs.whenDue
    | apply Runs.answer
    | apply Runs.next
    | apply Runs.elim
    | apply Runs.after (issue_only ?_)
    | exact Ctx.ok_only
    | exact Ctx.bad_only
    | exact Ctx.guard_only
    | exact memLoad_only
    | exact memPut_only
    | extract_lets
    | fail_if_no_progress refine Only.upd ?_
    | split
    | refine Only.ofPair (by assumption) ?_
    | intro _
    | dsimp only
    | dsimp +zetaDelta only

theorem loadG_only {core w sz n f s} : Runs [.obj, .pow, .boot, .host, .dict, .work, .sage, .radio, .noc, .dram, .sram, .mem, .out, .freeCtr] s (loadG core w sz n f s) := by
  unfold loadG
  with_reducible repeat' first
    | exact Only.refl _
    | assumption
    | decide
    | apply Runs.done
    | apply Runs.whenDue
    | apply Runs.answer
    | apply Runs.next
    | apply Runs.elim
    | apply Runs.after (issue_only ?_)
    | exact Ctx.ok_only
    | exact Ctx.bad_only
    | exact Ctx.guard_only
    | exact memLoad_only
    | exact memPut_only
    | extract_lets
    | fail_if_no_progress refine Only.upd ?_
    | split
    | refine Only.ofPair (by assumption) ?_
    | intro _
    | dsimp only
    | dsimp +zetaDelta only

theorem execLdB_only {core w s} : Runs [.obj, .pow, .boot, .host, .dict, .work, .sage, .radio, .noc, .dram, .sram, .mem, .out, .freeCtr] s (execLdB core w s) := by
  unfold execLdB
  with_reducible repeat' first
    | exact Only.refl _
    | assumption
    | decide
    | apply Runs.done
    | apply Runs.whenDue
    | apply Runs.answer
    | apply Runs.next
    | apply Runs.elim
    | apply Runs.after loadG_only
    | extract_lets
    | fail_if_no_progress refine Only.upd ?_
    | split
    | refine Only.ofPair (by assumption) ?_
    | intro _
    | dsimp only
    | dsimp +zetaDelta only

theorem execLdBu_only {core w s} : Runs [.obj, .pow, .boot, .host, .dict, .work, .sage, .radio, .noc, .dram, .sram, .mem, .out, .freeCtr] s (execLdBu core w s) := by
  unfold execLdBu
  with_reducible repeat' first
    | exact Only.refl _
    | assumption
    | decide
    | apply Runs.done
    | apply Runs.whenDue
    | apply Runs.answer
    | apply Runs.next
    | apply Runs.elim
    | apply Runs.after loadG_only
    | extract_lets
    | fail_if_no_progress refine Only.upd ?_
    | split
    | refine Only.ofPair (by assumption) ?_
    | intro _
    | dsimp only
    | dsimp +zetaDelta only

theorem execLdH_only {core w s} : Runs [.obj, .pow, .boot, .host, .dict, .work, .sage, .radio, .noc, .dram, .sram, .mem, .out, .freeCtr] s (execLdH core w s) := by
  unfold execLdH
  with_reducible repeat' first
    | exact Only.refl _
    | assumption
    | decide
    | apply Runs.done
    | apply Runs.whenDue
    | apply Runs.answer
    | apply Runs.next
    | apply Runs.elim
    | apply Runs.after loadG_only
    | extract_lets
    | fail_if_no_progress refine Only.upd ?_
    | split
    | refine Only.ofPair (by assumption) ?_
    | intro _
    | dsimp only
    | dsimp +zetaDelta only

theorem execLdHu_only {core w s} : Runs [.obj, .pow, .boot, .host, .dict, .work, .sage, .radio, .noc, .dram, .sram, .mem, .out, .freeCtr] s (execLdHu core w s) := by
  unfold execLdHu
  with_reducible repeat' first
    | exact Only.refl _
    | assumption
    | decide
    | apply Runs.done
    | apply Runs.whenDue
    | apply Runs.answer
    | apply Runs.next
    | apply Runs.elim
    | apply Runs.after loadG_only
    | extract_lets
    | fail_if_no_progress refine Only.upd ?_
    | split
    | refine Only.ofPair (by assumption) ?_
    | intro _
    | dsimp only
    | dsimp +zetaDelta only

theorem execLdW_only {core w s} : Runs [.obj, .pow, .boot, .host, .dict, .work, .sage, .radio, .noc, .dram, .sram, .mem, .out, .freeCtr] s (execLdW core w s) := by
  unfold execLdW
  with_reducible repeat' first
    | exact Only.refl _
    | assumption
    | decide
    | apply Runs.done
    | apply Runs.whenDue
    | apply Runs.answer
    | apply Runs.next
    | apply Runs.elim
    | apply Runs.after loadG_only
    | extract_lets
    | fail_if_no_progress refine Only.upd ?_
    | split
    | refine Only.ofPair (by assumption) ?_
    | intro _
    | dsimp only
    | dsimp +zetaDelta only

theorem execLdD_only {core w s} : Runs [.obj, .pow, .boot, .host, .dict, .work, .sage, .radio, .noc, .dram, .sram, .mem, .out, .freeCtr] s (execLdD core w s) := by
  unfold execLdD
  with_reducible repeat' first
    | exact Only.refl _
    | assumption
    | decide
    | apply Runs.done
    | apply Runs.whenDue
    | apply Runs.answer
    | apply Runs.next
    | apply Runs.elim
    | apply Runs.after (issue_only ?_)
    | exact Ctx.ok_only
    | exact Ctx.bad_only
    | exact Ctx.guard_only
    | exact memLoad_only
    | exact memPut_only
    | extract_lets
    | fail_if_no_progress refine Only.upd ?_
    | split
    | refine Only.ofPair (by assumption) ?_
    | intro _
    | dsimp only
    | dsimp +zetaDelta only

theorem storeG_only {core w sz n s} : Runs [.obj, .pow, .boot, .host, .dict, .work, .sage, .radio, .noc, .dram, .sram, .mem, .out, .freeCtr] s (storeG core w sz n s) := by
  unfold storeG
  with_reducible repeat' first
    | exact Only.refl _
    | assumption
    | decide
    | apply Runs.done
    | apply Runs.whenDue
    | apply Runs.answer
    | apply Runs.next
    | apply Runs.elim
    | apply Runs.after (issue_only ?_)
    | exact Ctx.ok_only
    | exact Ctx.bad_only
    | exact Ctx.guard_only
    | exact memLoad_only
    | exact memPut_only
    | extract_lets
    | fail_if_no_progress refine Only.upd ?_
    | split
    | refine Only.ofPair (by assumption) ?_
    | intro _
    | dsimp only
    | dsimp +zetaDelta only

theorem execStB_only {core w s} : Runs [.obj, .pow, .boot, .host, .dict, .work, .sage, .radio, .noc, .dram, .sram, .mem, .out, .freeCtr] s (execStB core w s) := by
  unfold execStB
  with_reducible repeat' first
    | exact Only.refl _
    | assumption
    | decide
    | apply Runs.done
    | apply Runs.whenDue
    | apply Runs.answer
    | apply Runs.next
    | apply Runs.elim
    | apply Runs.after storeG_only
    | extract_lets
    | fail_if_no_progress refine Only.upd ?_
    | split
    | refine Only.ofPair (by assumption) ?_
    | intro _
    | dsimp only
    | dsimp +zetaDelta only

theorem execStH_only {core w s} : Runs [.obj, .pow, .boot, .host, .dict, .work, .sage, .radio, .noc, .dram, .sram, .mem, .out, .freeCtr] s (execStH core w s) := by
  unfold execStH
  with_reducible repeat' first
    | exact Only.refl _
    | assumption
    | decide
    | apply Runs.done
    | apply Runs.whenDue
    | apply Runs.answer
    | apply Runs.next
    | apply Runs.elim
    | apply Runs.after storeG_only
    | extract_lets
    | fail_if_no_progress refine Only.upd ?_
    | split
    | refine Only.ofPair (by assumption) ?_
    | intro _
    | dsimp only
    | dsimp +zetaDelta only

theorem execStW_only {core w s} : Runs [.obj, .pow, .boot, .host, .dict, .work, .sage, .radio, .noc, .dram, .sram, .mem, .out, .freeCtr] s (execStW core w s) := by
  unfold execStW
  with_reducible repeat' first
    | exact Only.refl _
    | assumption
    | decide
    | apply Runs.done
    | apply Runs.whenDue
    | apply Runs.answer
    | apply Runs.next
    | apply Runs.elim
    | apply Runs.after storeG_only
    | extract_lets
    | fail_if_no_progress refine Only.upd ?_
    | split
    | refine Only.ofPair (by assumption) ?_
    | intro _
    | dsimp only
    | dsimp +zetaDelta only

theorem execStD_only {core w s} : Runs [.obj, .pow, .boot, .host, .dict, .work, .sage, .radio, .noc, .dram, .sram, .mem, .out, .freeCtr] s (execStD core w s) := by
  unfold execStD
  with_reducible repeat' first
    | exact Only.refl _
    | assumption
    | decide
    | apply Runs.done
    | apply Runs.whenDue
    | apply Runs.answer
    | apply Runs.next
    | apply Runs.elim
    | apply Runs.after (issue_only ?_)
    | exact Ctx.ok_only
    | exact Ctx.bad_only
    | exact Ctx.guard_only
    | exact memLoad_only
    | exact memPut_only
    | extract_lets
    | fail_if_no_progress refine Only.upd ?_
    | split
    | refine Only.ofPair (by assumption) ?_
    | intro _
    | dsimp only
    | dsimp +zetaDelta only

theorem execMfs_only {core w s} : Runs [.obj, .pow, .boot, .host, .dict, .work, .sage, .radio, .noc, .dram, .sram, .mem, .out, .freeCtr] s (execMfs core w s) := by
  unfold execMfs
  with_reducible repeat' first
    | exact Only.refl _
    | assumption
    | decide
    | apply Runs.done
    | apply Runs.whenDue
    | apply Runs.answer
    | apply Runs.next
    | apply Runs.elim
    | apply Runs.after (issue_only ?_)
    | exact Ctx.ok_only
    | exact Ctx.bad_only
    | exact Ctx.guard_only
    | exact memLoad_only
    | exact memPut_only
    | extract_lets
    | fail_if_no_progress refine Only.upd ?_
    | split
    | refine Only.ofPair (by assumption) ?_
    | intro _
    | dsimp only
    | dsimp +zetaDelta only

theorem execMts_only {core w s} : Runs [.obj, .pow, .boot, .host, .dict, .work, .sage, .radio, .noc, .dram, .sram, .mem, .out, .freeCtr] s (execMts core w s) := by
  unfold execMts
  with_reducible repeat' first
    | exact Only.refl _
    | assumption
    | decide
    | apply Runs.done
    | apply Runs.whenDue
    | apply Runs.answer
    | apply Runs.next
    | apply Runs.elim
    | apply Runs.after (issue_only ?_)
    | exact Ctx.ok_only
    | exact Ctx.bad_only
    | exact Ctx.guard_only
    | exact memLoad_only
    | exact memPut_only
    | extract_lets
    | fail_if_no_progress refine Only.upd ?_
    | split
    | refine Only.ofPair (by assumption) ?_
    | intro _
    | dsimp only
    | dsimp +zetaDelta only

theorem execAdda_only {core w s} : Runs [.obj, .pow, .boot, .host, .dict, .work, .sage, .radio, .noc, .dram, .sram, .mem, .out, .freeCtr] s (execAdda core w s) := by
  unfold execAdda
  with_reducible repeat' first
    | exact Only.refl _
    | assumption
    | decide
    | apply Runs.done
    | apply Runs.whenDue
    | apply Runs.answer
    | apply Runs.next
    | apply Runs.elim
    | apply Runs.after (issue_only ?_)
    | exact Ctx.ok_only
    | exact Ctx.bad_only
    | exact Ctx.guard_only
    | exact memLoad_only
    | exact memPut_only
    | extract_lets
    | fail_if_no_progress refine Only.upd ?_
    | split
    | refine Only.ofPair (by assumption) ?_
    | intro _
    | dsimp only
    | dsimp +zetaDelta only

theorem execAddag_only {core w s} : Runs [.obj, .pow, .boot, .host, .dict, .work, .sage, .radio, .noc, .dram, .sram, .mem, .out, .freeCtr] s (execAddag core w s) := by
  unfold execAddag
  with_reducible repeat' first
    | exact Only.refl _
    | assumption
    | decide
    | apply Runs.done
    | apply Runs.whenDue
    | apply Runs.answer
    | apply Runs.next
    | apply Runs.elim
    | apply Runs.after (issue_only ?_)
    | exact Ctx.ok_only
    | exact Ctx.bad_only
    | exact Ctx.guard_only
    | exact memLoad_only
    | exact memPut_only
    | extract_lets
    | fail_if_no_progress refine Only.upd ?_
    | split
    | refine Only.ofPair (by assumption) ?_
    | intro _
    | dsimp only
    | dsimp +zetaDelta only

theorem execMga_only {core w s} : Runs [.obj, .pow, .boot, .host, .dict, .work, .sage, .radio, .noc, .dram, .sram, .mem, .out, .freeCtr] s (execMga core w s) := by
  unfold execMga
  with_reducible repeat' first
    | exact Only.refl _
    | assumption
    | decide
    | apply Runs.done
    | apply Runs.whenDue
    | apply Runs.answer
    | apply Runs.next
    | apply Runs.elim
    | apply Runs.after (issue_only ?_)
    | exact Ctx.ok_only
    | exact Ctx.bad_only
    | exact Ctx.guard_only
    | exact memLoad_only
    | exact memPut_only
    | extract_lets
    | fail_if_no_progress refine Only.upd ?_
    | split
    | refine Only.ofPair (by assumption) ?_
    | intro _
    | dsimp only
    | dsimp +zetaDelta only

theorem execMag_only {core w s} : Runs [.obj, .pow, .boot, .host, .dict, .work, .sage, .radio, .noc, .dram, .sram, .mem, .out, .freeCtr] s (execMag core w s) := by
  unfold execMag
  with_reducible repeat' first
    | exact Only.refl _
    | assumption
    | decide
    | apply Runs.done
    | apply Runs.whenDue
    | apply Runs.answer
    | apply Runs.next
    | apply Runs.elim
    | apply Runs.after (issue_only ?_)
    | exact Ctx.ok_only
    | exact Ctx.bad_only
    | exact Ctx.guard_only
    | exact memLoad_only
    | exact memPut_only
    | extract_lets
    | fail_if_no_progress refine Only.upd ?_
    | split
    | refine Only.ofPair (by assumption) ?_
    | intro _
    | dsimp only
    | dsimp +zetaDelta only

theorem execMgm_only {core w s} : Runs [.obj, .pow, .boot, .host, .dict, .work, .sage, .radio, .noc, .dram, .sram, .mem, .out, .freeCtr] s (execMgm core w s) := by
  unfold execMgm
  with_reducible repeat' first
    | exact Only.refl _
    | assumption
    | decide
    | apply Runs.done
    | apply Runs.whenDue
    | apply Runs.answer
    | apply Runs.next
    | apply Runs.elim
    | apply Runs.after (issue_only ?_)
    | exact Ctx.ok_only
    | exact Ctx.bad_only
    | exact Ctx.guard_only
    | exact memLoad_only
    | exact memPut_only
    | extract_lets
    | fail_if_no_progress refine Only.upd ?_
    | split
    | refine Only.ofPair (by assumption) ?_
    | intro _
    | dsimp only
    | dsimp +zetaDelta only

theorem execMmg_only {core w s} : Runs [.obj, .pow, .boot, .host, .dict, .work, .sage, .radio, .noc, .dram, .sram, .mem, .out, .freeCtr] s (execMmg core w s) := by
  unfold execMmg
  with_reducible repeat' first
    | exact Only.refl _
    | assumption
    | decide
    | apply Runs.done
    | apply Runs.whenDue
    | apply Runs.answer
    | apply Runs.next
    | apply Runs.elim
    | apply Runs.after (issue_only ?_)
    | exact Ctx.ok_only
    | exact Ctx.bad_only
    | exact Ctx.guard_only
    | exact memLoad_only
    | exact memPut_only
    | extract_lets
    | fail_if_no_progress refine Only.upd ?_
    | split
    | refine Only.ofPair (by assumption) ?_
    | intro _
    | dsimp only
    | dsimp +zetaDelta only

theorem macUpdate_only {core w fn f s} : Runs [.obj, .pow, .boot, .host, .dict, .work, .sage, .radio, .noc, .dram, .sram, .mem, .out, .freeCtr] s (macUpdate core w fn f s) := by
  unfold macUpdate
  with_reducible repeat' first
    | exact Only.refl _
    | assumption
    | decide
    | apply Runs.done
    | apply Runs.whenDue
    | apply Runs.answer
    | apply Runs.next
    | apply Runs.elim
    | apply Runs.after (issue_only ?_)
    | exact Ctx.ok_only
    | exact Ctx.bad_only
    | exact Ctx.guard_only
    | exact memLoad_only
    | exact memPut_only
    | extract_lets
    | fail_if_no_progress refine Only.upd ?_
    | split
    | refine Only.ofPair (by assumption) ?_
    | intro _
    | dsimp only
    | dsimp +zetaDelta only

theorem execMpy_only {core w s} : Runs [.obj, .pow, .boot, .host, .dict, .work, .sage, .radio, .noc, .dram, .sram, .mem, .out, .freeCtr] s (execMpy core w s) := by
  unfold execMpy
  with_reducible repeat' first
    | exact Only.refl _
    | assumption
    | decide
    | apply Runs.done
    | apply Runs.whenDue
    | apply Runs.answer
    | apply Runs.next
    | apply Runs.elim
    | apply Runs.after macUpdate_only
    | extract_lets
    | fail_if_no_progress refine Only.upd ?_
    | split
    | refine Only.ofPair (by assumption) ?_
    | intro _
    | dsimp only
    | dsimp +zetaDelta only

theorem execMac_only {core w s} : Runs [.obj, .pow, .boot, .host, .dict, .work, .sage, .radio, .noc, .dram, .sram, .mem, .out, .freeCtr] s (execMac core w s) := by
  unfold execMac
  with_reducible repeat' first
    | exact Only.refl _
    | assumption
    | decide
    | apply Runs.done
    | apply Runs.whenDue
    | apply Runs.answer
    | apply Runs.next
    | apply Runs.elim
    | apply Runs.after macUpdate_only
    | extract_lets
    | fail_if_no_progress refine Only.upd ?_
    | split
    | refine Only.ofPair (by assumption) ?_
    | intro _
    | dsimp only
    | dsimp +zetaDelta only

theorem execMsu_only {core w s} : Runs [.obj, .pow, .boot, .host, .dict, .work, .sage, .radio, .noc, .dram, .sram, .mem, .out, .freeCtr] s (execMsu core w s) := by
  unfold execMsu
  with_reducible repeat' first
    | exact Only.refl _
    | assumption
    | decide
    | apply Runs.done
    | apply Runs.whenDue
    | apply Runs.answer
    | apply Runs.next
    | apply Runs.elim
    | apply Runs.after macUpdate_only
    | extract_lets
    | fail_if_no_progress refine Only.upd ?_
    | split
    | refine Only.ofPair (by assumption) ?_
    | intro _
    | dsimp only
    | dsimp +zetaDelta only

theorem execClra_only {core w s} : Runs [.obj, .pow, .boot, .host, .dict, .work, .sage, .radio, .noc, .dram, .sram, .mem, .out, .freeCtr] s (execClra core w s) := by
  unfold execClra
  with_reducible repeat' first
    | exact Only.refl _
    | assumption
    | decide
    | apply Runs.done
    | apply Runs.whenDue
    | apply Runs.answer
    | apply Runs.next
    | apply Runs.elim
    | apply Runs.after (issue_only ?_)
    | exact Ctx.ok_only
    | exact Ctx.bad_only
    | exact Ctx.guard_only
    | exact memLoad_only
    | exact memPut_only
    | extract_lets
    | fail_if_no_progress refine Only.upd ?_
    | split
    | refine Only.ofPair (by assumption) ?_
    | intro _
    | dsimp only
    | dsimp +zetaDelta only

theorem execMta_only {core w s} : Runs [.obj, .pow, .boot, .host, .dict, .work, .sage, .radio, .noc, .dram, .sram, .mem, .out, .freeCtr] s (execMta core w s) := by
  unfold execMta
  with_reducible repeat' first
    | exact Only.refl _
    | assumption
    | decide
    | apply Runs.done
    | apply Runs.whenDue
    | apply Runs.answer
    | apply Runs.next
    | apply Runs.elim
    | apply Runs.after (issue_only ?_)
    | exact Ctx.ok_only
    | exact Ctx.bad_only
    | exact Ctx.guard_only
    | exact memLoad_only
    | exact memPut_only
    | extract_lets
    | fail_if_no_progress refine Only.upd ?_
    | split
    | refine Only.ofPair (by assumption) ?_
    | intro _
    | dsimp only
    | dsimp +zetaDelta only

theorem execMtg_only {core w s} : Runs [.obj, .pow, .boot, .host, .dict, .work, .sage, .radio, .noc, .dram, .sram, .mem, .out, .freeCtr] s (execMtg core w s) := by
  unfold execMtg
  with_reducible repeat' first
    | exact Only.refl _
    | assumption
    | decide
    | apply Runs.done
    | apply Runs.whenDue
    | apply Runs.answer
    | apply Runs.next
    | apply Runs.elim
    | apply Runs.after (issue_only ?_)
    | exact Ctx.ok_only
    | exact Ctx.bad_only
    | exact Ctx.guard_only
    | exact memLoad_only
    | exact memPut_only
    | extract_lets
    | fail_if_no_progress refine Only.upd ?_
    | split
    | refine Only.ofPair (by assumption) ?_
    | intro _
    | dsimp only
    | dsimp +zetaDelta only

theorem accx_only {core w fn f s} : Runs [.obj, .pow, .boot, .host, .dict, .work, .sage, .radio, .noc, .dram, .sram, .mem, .out, .freeCtr] s (accx core w fn f s) := by
  unfold accx
  with_reducible repeat' first
    | exact Only.refl _
    | assumption
    | decide
    | apply Runs.done
    | apply Runs.whenDue
    | apply Runs.answer
    | apply Runs.next
    | apply Runs.elim
    | apply Runs.after (issue_only ?_)
    | exact Ctx.ok_only
    | exact Ctx.bad_only
    | exact Ctx.guard_only
    | exact memLoad_only
    | exact memPut_only
    | extract_lets
    | fail_if_no_progress refine Only.upd ?_
    | split
    | refine Only.ofPair (by assumption) ?_
    | intro _
    | dsimp only
    | dsimp +zetaDelta only

theorem execExtr_only {core w s} : Runs [.obj, .pow, .boot, .host, .dict, .work, .sage, .radio, .noc, .dram, .sram, .mem, .out, .freeCtr] s (execExtr core w s) := by
  unfold execExtr
  with_reducible repeat' first
    | exact Only.refl _
    | assumption
    | decide
    | apply Runs.done
    | apply Runs.whenDue
    | apply Runs.answer
    | apply Runs.next
    | apply Runs.elim
    | apply Runs.after accx_only
    | extract_lets
    | fail_if_no_progress refine Only.upd ?_
    | split
    | refine Only.ofPair (by assumption) ?_
    | intro _
    | dsimp only
    | dsimp +zetaDelta only

theorem execMfa_only {core w s} : Runs [.obj, .pow, .boot, .host, .dict, .work, .sage, .radio, .noc, .dram, .sram, .mem, .out, .freeCtr] s (execMfa core w s) := by
  unfold execMfa
  with_reducible repeat' first
    | exact Only.refl _
    | assumption
    | decide
    | apply Runs.done
    | apply Runs.whenDue
    | apply Runs.answer
    | apply Runs.next
    | apply Runs.elim
    | apply Runs.after accx_only
    | extract_lets
    | fail_if_no_progress refine Only.upd ?_
    | split
    | refine Only.ofPair (by assumption) ?_
    | intro _
    | dsimp only
    | dsimp +zetaDelta only

theorem execMfg_only {core w s} : Runs [.obj, .pow, .boot, .host, .dict, .work, .sage, .radio, .noc, .dram, .sram, .mem, .out, .freeCtr] s (execMfg core w s) := by
  unfold execMfg
  with_reducible repeat' first
    | exact Only.refl _
    | assumption
    | decide
    | apply Runs.done
    | apply Runs.whenDue
    | apply Runs.answer
    | apply Runs.next
    | apply Runs.elim
    | apply Runs.after accx_only
    | extract_lets
    | fail_if_no_progress refine Only.upd ?_
    | split
    | refine Only.ofPair (by assumption) ?_
    | intro _
    | dsimp only
    | dsimp +zetaDelta only

end Sys2Proof.Machine
end

