-- ==== Sys2Proof/Laws/OnlyCmc.lean ====
section
/-!
SUPPORT. The frame of every operation of Machine/Cmc.lean: the parts of the state it can change.
-/
namespace Sys2Proof.Machine

set_option Elab.async false

set_option linter.unusedTactic false
set_option linter.unreachableTactic false
set_option linter.unusedVariables false

theorem within_only {lo hi s} : Only [.freeCtr] s (within lo hi s).2 := by
  unfold within
  with_reducible repeat' first
    | exact Only.refl _
    | assumption
    | decide
    | apply Only.after draw_only
    | extract_lets
    | fail_if_no_progress refine Only.upd ?_
    | split
    | refine Only.ofPair (by assumption) ?_
    | intro _
    | dsimp only
    | dsimp +zetaDelta only

theorem oneOf_only {α : Type} {l : List α} {d : α} {s : State} : Only [.freeCtr] s (oneOf l d s).2 := by
  unfold oneOf
  exact Only.ofPair rfl draw_only

theorem cx_only {core w fn u more f s} (h0 : ∀ a0, Only [.obj, .sage, .freeCtr] a0.s (f a0).s) : Runs [.obj, .pow, .boot, .host, .dict, .work, .sage, .radio, .noc, .dram, .sram, .mem, .out, .freeCtr] s (cx core w fn u more f s) := by
  unfold cx
  with_reducible repeat' first
    | exact Only.refl _
    | assumption
    | decide
    | apply Runs.done
    | apply Runs.whenDue
    | apply Runs.answer
    | apply Runs.next
    | apply Runs.elim
    | apply Runs.after (issue_only ?_)
    | apply Only.after (h0 _)
    | exact Ctx.ok_only
    | exact Ctx.bad_only
    | exact Ctx.guard_only
    | exact memLoad_only
    | exact memPut_only
    | exact Ctx.group_only
    | exact Ctx.fail_only
    | extract_lets
    | fail_if_no_progress refine Only.upd ?_
    | split
    | refine Only.ofPair (by assumption) ?_
    | intro _
    | dsimp only
    | dsimp +zetaDelta only

theorem nearQ15_only {a0 q e slack s} : Only [.freeCtr] s (nearQ15 a0 q e slack s).2 := by
  unfold nearQ15
  with_reducible repeat' first
    | exact Only.refl _
    | assumption
    | decide
    | apply Only.after within_only
    | extract_lets
    | fail_if_no_progress refine Only.upd ?_
    | split
    | refine Only.ofPair (by assumption) ?_
    | intro _
    | dsimp only
    | dsimp +zetaDelta only

theorem execCxCrecip_only {core w s} : Runs [.obj, .pow, .boot, .host, .dict, .work, .sage, .radio, .noc, .dram, .sram, .mem, .out, .freeCtr] s (execCxCrecip core w s) := by
  unfold execCxCrecip
  with_reducible repeat' first
    | exact Only.refl _
    | assumption
    | decide
    | apply Runs.done
    | apply Runs.whenDue
    | apply Runs.answer
    | apply Runs.next
    | apply Runs.elim
    | apply Runs.after (cx_only ?_)
    | apply Only.after oneOf_only
    | apply Only.after nearQ15_only
    | exact Ctx.ok_only
    | exact Ctx.bad_only
    | exact Ctx.guard_only
    | exact memLoad_only
    | exact memPut_only
    | exact Ctx.group_only
    | extract_lets
    | fail_if_no_progress refine Only.upd ?_
    | split
    | refine Only.ofPair (by assumption) ?_
    | intro _
    | dsimp only
    | dsimp +zetaDelta only

theorem execCxRsqrt_only {core w s} : Runs [.obj, .pow, .boot, .host, .dict, .work, .sage, .radio, .noc, .dram, .sram, .mem, .out, .freeCtr] s (execCxRsqrt core w s) := by
  unfold execCxRsqrt
  with_reducible repeat' first
    | exact Only.refl _
    | assumption
    | decide
    | apply Runs.done
    | apply Runs.whenDue
    | apply Runs.answer
    | apply Runs.next
    | apply Runs.elim
    | apply Runs.after (cx_only ?_)
    | apply Only.after oneOf_only
    | apply Only.after within_only
    | exact Ctx.ok_only
    | exact Ctx.bad_only
    | exact Ctx.guard_only
    | exact memLoad_only
    | exact memPut_only
    | exact Ctx.group_only
    | extract_lets
    | fail_if_no_progress refine Only.upd ?_
    | split
    | refine Only.ofPair (by assumption) ?_
    | intro _
    | dsimp only
    | dsimp +zetaDelta only

theorem execCxAtan2_only {core w s} : Runs [.obj, .pow, .boot, .host, .dict, .work, .sage, .radio, .noc, .dram, .sram, .mem, .out, .freeCtr] s (execCxAtan2 core w s) := by
  unfold execCxAtan2
  with_reducible repeat' first
    | exact Only.refl _
    | assumption
    | decide
    | apply Runs.done
    | apply Runs.whenDue
    | apply Runs.answer
    | apply Runs.next
    | apply Runs.elim
    | apply Runs.after (cx_only ?_)
    | apply Only.after within_only
    | exact Ctx.ok_only
    | exact Ctx.bad_only
    | exact Ctx.guard_only
    | exact memLoad_only
    | exact memPut_only
    | exact Ctx.group_only
    | extract_lets
    | fail_if_no_progress refine Only.upd ?_
    | split
    | refine Only.ofPair (by assumption) ?_
    | intro _
    | dsimp only
    | dsimp +zetaDelta only

theorem execCxRot_only {core w s} : Runs [.obj, .pow, .boot, .host, .dict, .work, .sage, .radio, .noc, .dram, .sram, .mem, .out, .freeCtr] s (execCxRot core w s) := by
  unfold execCxRot
  with_reducible repeat' first
    | exact Only.refl _
    | assumption
    | decide
    | apply Runs.done
    | apply Runs.whenDue
    | apply Runs.answer
    | apply Runs.next
    | apply Runs.elim
    | apply Runs.after (cx_only ?_)
    | apply Only.after within_only
    | exact Ctx.ok_only
    | exact Ctx.bad_only
    | exact Ctx.guard_only
    | exact memLoad_only
    | exact memPut_only
    | exact Ctx.group_only
    | extract_lets
    | fail_if_no_progress refine Only.upd ?_
    | split
    | refine Only.ofPair (by assumption) ?_
    | intro _
    | dsimp only
    | dsimp +zetaDelta only

theorem execCxLog2_only {core w s} : Runs [.obj, .pow, .boot, .host, .dict, .work, .sage, .radio, .noc, .dram, .sram, .mem, .out, .freeCtr] s (execCxLog2 core w s) := by
  unfold execCxLog2
  with_reducible repeat' first
    | exact Only.refl _
    | assumption
    | decide
    | apply Runs.done
    | apply Runs.whenDue
    | apply Runs.answer
    | apply Runs.next
    | apply Runs.elim
    | apply Runs.after (cx_only ?_)
    | apply Only.after within_only
    | exact Ctx.ok_only
    | exact Ctx.bad_only
    | exact Ctx.guard_only
    | exact memLoad_only
    | exact memPut_only
    | exact Ctx.group_only
    | extract_lets
    | fail_if_no_progress refine Only.upd ?_
    | split
    | refine Only.ofPair (by assumption) ?_
    | intro _
    | dsimp only
    | dsimp +zetaDelta only

theorem execCxExp2_only {core w s} : Runs [.obj, .pow, .boot, .host, .dict, .work, .sage, .radio, .noc, .dram, .sram, .mem, .out, .freeCtr] s (execCxExp2 core w s) := by
  unfold execCxExp2
  with_reducible repeat' first
    | exact Only.refl _
    | assumption
    | decide
    | apply Runs.done
    | apply Runs.whenDue
    | apply Runs.answer
    | apply Runs.next
    | apply Runs.elim
    | apply Runs.after (cx_only ?_)
    | apply Only.after within_only
    | exact Ctx.ok_only
    | exact Ctx.bad_only
    | exact Ctx.guard_only
    | exact memLoad_only
    | exact memPut_only
    | exact Ctx.group_only
    | extract_lets
    | fail_if_no_progress refine Only.upd ?_
    | split
    | refine Only.ofPair (by assumption) ?_
    | intro _
    | dsimp only
    | dsimp +zetaDelta only

theorem execCxDiv_only {core w s} : Runs [.obj, .pow, .boot, .host, .dict, .work, .sage, .radio, .noc, .dram, .sram, .mem, .out, .freeCtr] s (execCxDiv core w s) := by
  unfold execCxDiv
  with_reducible repeat' first
    | exact Only.refl _
    | assumption
    | decide
    | apply Runs.done
    | apply Runs.whenDue
    | apply Runs.answer
    | apply Runs.next
    | apply Runs.elim
    | apply Runs.after (cx_only ?_)
    | exact Ctx.ok_only
    | exact Ctx.bad_only
    | exact Ctx.guard_only
    | exact memLoad_only
    | exact memPut_only
    | exact Ctx.group_only
    | extract_lets
    | fail_if_no_progress refine Only.upd ?_
    | split
    | refine Only.ofPair (by assumption) ?_
    | intro _
    | dsimp only
    | dsimp +zetaDelta only

theorem execCxDivu_only {core w s} : Runs [.obj, .pow, .boot, .host, .dict, .work, .sage, .radio, .noc, .dram, .sram, .mem, .out, .freeCtr] s (execCxDivu core w s) := by
  unfold execCxDivu
  with_reducible repeat' first
    | exact Only.refl _
    | assumption
    | decide
    | apply Runs.done
    | apply Runs.whenDue
    | apply Runs.answer
    | apply Runs.next
    | apply Runs.elim
    | apply Runs.after (cx_only ?_)
    | exact Ctx.ok_only
    | exact Ctx.bad_only
    | exact Ctx.guard_only
    | exact memLoad_only
    | exact memPut_only
    | exact Ctx.group_only
    | extract_lets
    | fail_if_no_progress refine Only.upd ?_
    | split
    | refine Only.ofPair (by assumption) ?_
    | intro _
    | dsimp only
    | dsimp +zetaDelta only

theorem matrixResult_only {comps bounded n s} : Only [.freeCtr] s (matrixResult comps bounded n s).2.2 := by
  unfold matrixResult
  with_reducible repeat' first
    | exact Only.refl _
    | assumption
    | decide
    | apply Only.after within_only
    | apply Only.after draw_only
    | apply Only.after oneOf_only
    | apply Only.foldl
    | apply Only.foldlSnd
    | apply Only.foldlThd
    | extract_lets
    | fail_if_no_progress refine Only.upd ?_
    | split
    | refine Only.ofPair (by assumption) ?_
    | intro _
    | dsimp only
    | dsimp +zetaDelta only

theorem matrixOp_only {core w fn st comps s} : Runs [.obj, .pow, .boot, .host, .dict, .work, .sage, .radio, .noc, .dram, .sram, .mem, .out, .freeCtr] s (matrixOp core w fn st comps s) := by
  unfold matrixOp
  with_reducible repeat' first
    | exact Only.refl _
    | assumption
    | decide
    | apply Runs.done
    | apply Runs.whenDue
    | apply Runs.answer
    | apply Runs.next
    | apply Runs.elim
    | apply Runs.after (cx_only ?_)
    | apply Only.after matrixResult_only
    | exact Ctx.ok_only
    | exact Ctx.bad_only
    | exact Ctx.guard_only
    | exact memLoad_only
    | exact memPut_only
    | exact Ctx.group_only
    | extract_lets
    | fail_if_no_progress refine Only.upd ?_
    | split
    | refine Only.ofPair (by assumption) ?_
    | intro _
    | dsimp only
    | dsimp +zetaDelta only

theorem execCxChol_only {core w s} : Runs [.obj, .pow, .boot, .host, .dict, .work, .sage, .radio, .noc, .dram, .sram, .mem, .out, .freeCtr] s (execCxChol core w s) := by
  unfold execCxChol
  with_reducible repeat' first
    | exact Only.refl _
    | assumption
    | decide
    | apply Runs.done
    | apply Runs.whenDue
    | apply Runs.answer
    | apply Runs.next
    | apply Runs.elim
    | apply Runs.after matrixOp_only
    | extract_lets
    | fail_if_no_progress refine Only.upd ?_
    | split
    | refine Only.ofPair (by assumption) ?_
    | intro _
    | dsimp only
    | dsimp +zetaDelta only

theorem execCxMinv_only {core w s} : Runs [.obj, .pow, .boot, .host, .dict, .work, .sage, .radio, .noc, .dram, .sram, .mem, .out, .freeCtr] s (execCxMinv core w s) := by
  unfold execCxMinv
  with_reducible repeat' first
    | exact Only.refl _
    | assumption
    | decide
    | apply Runs.done
    | apply Runs.whenDue
    | apply Runs.answer
    | apply Runs.next
    | apply Runs.elim
    | apply Runs.after matrixOp_only
    | extract_lets
    | fail_if_no_progress refine Only.upd ?_
    | split
    | refine Only.ofPair (by assumption) ?_
    | intro _
    | dsimp only
    | dsimp +zetaDelta only

theorem execCxMscale_only {core w s} : Runs [.obj, .pow, .boot, .host, .dict, .work, .sage, .radio, .noc, .dram, .sram, .mem, .out, .freeCtr] s (execCxMscale core w s) := by
  unfold execCxMscale
  with_reducible repeat' first
    | exact Only.refl _
    | assumption
    | decide
    | apply Runs.done
    | apply Runs.whenDue
    | apply Runs.answer
    | apply Runs.next
    | apply Runs.elim
    | apply Runs.after (cx_only ?_)
    | apply Only.after within_only
    | exact Ctx.ok_only
    | exact Ctx.bad_only
    | exact Ctx.guard_only
    | exact memLoad_only
    | exact memPut_only
    | exact Ctx.group_only
    | extract_lets
    | fail_if_no_progress refine Only.upd ?_
    | split
    | refine Only.ofPair (by assumption) ?_
    | intro _
    | dsimp only
    | dsimp +zetaDelta only

theorem execCxMput_only {core w s} : Runs [.obj, .pow, .boot, .host, .dict, .work, .sage, .radio, .noc, .dram, .sram, .mem, .out, .freeCtr] s (execCxMput core w s) := by
  unfold execCxMput
  with_reducible repeat' first
    | exact Only.refl _
    | assumption
    | decide
    | apply Runs.done
    | apply Runs.whenDue
    | apply Runs.answer
    | apply Runs.next
    | apply Runs.elim
    | apply Runs.after (cx_only ?_)
    | exact Ctx.ok_only
    | exact Ctx.bad_only
    | exact Ctx.guard_only
    | exact memLoad_only
    | exact memPut_only
    | exact Ctx.group_only
    | extract_lets
    | fail_if_no_progress refine Only.upd ?_
    | split
    | refine Only.ofPair (by assumption) ?_
    | intro _
    | dsimp only
    | dsimp +zetaDelta only

theorem mgetComp_only {open_ v s} : Only [.freeCtr] s (mgetComp open_ v s).2 := by
  unfold mgetComp
  with_reducible repeat' first
    | exact Only.refl _
    | assumption
    | decide
    | apply Only.after within_only
    | extract_lets
    | fail_if_no_progress refine Only.upd ?_
    | split
    | refine Only.ofPair (by assumption) ?_
    | intro _
    | dsimp only
    | dsimp +zetaDelta only

theorem execCxMget_only {core w s} : Runs [.obj, .pow, .boot, .host, .dict, .work, .sage, .radio, .noc, .dram, .sram, .mem, .out, .freeCtr] s (execCxMget core w s) := by
  unfold execCxMget
  with_reducible repeat' first
    | exact Only.refl _
    | assumption
    | decide
    | apply Runs.done
    | apply Runs.whenDue
    | apply Runs.answer
    | apply Runs.next
    | apply Runs.elim
    | apply Runs.after (cx_only ?_)
    | apply Only.after mgetComp_only
    | exact Ctx.ok_only
    | exact Ctx.bad_only
    | exact Ctx.guard_only
    | exact memLoad_only
    | exact memPut_only
    | exact Ctx.group_only
    | extract_lets
    | fail_if_no_progress refine Only.upd ?_
    | split
    | refine Only.ofPair (by assumption) ?_
    | intro _
    | dsimp only
    | dsimp +zetaDelta only

theorem execCxMexp_only {core w s} : Runs [.obj, .pow, .boot, .host, .dict, .work, .sage, .radio, .noc, .dram, .sram, .mem, .out, .freeCtr] s (execCxMexp core w s) := by
  unfold execCxMexp
  with_reducible repeat' first
    | exact Only.refl _
    | assumption
    | decide
    | apply Runs.done
    | apply Runs.whenDue
    | apply Runs.answer
    | apply Runs.next
    | apply Runs.elim
    | apply Runs.after (cx_only ?_)
    | exact Ctx.ok_only
    | exact Ctx.bad_only
    | exact Ctx.guard_only
    | exact memLoad_only
    | exact memPut_only
    | exact Ctx.group_only
    | extract_lets
    | fail_if_no_progress refine Only.upd ?_
    | split
    | refine Only.ofPair (by assumption) ?_
    | intro _
    | dsimp only
    | dsimp +zetaDelta only

theorem cxc_only {core w fn useD useA f s} (h0 : ∀ a0, Only [.obj, .sage, .freeCtr] a0.s (f a0).s) : Runs [.obj, .pow, .boot, .host, .dict, .work, .sage, .radio, .noc, .dram, .sram, .mem, .out, .freeCtr] s (cxc core w fn useD useA f s) := by
  unfold cxc
  with_reducible repeat' first
    | exact Only.refl _
    | assumption
    | decide
    | apply Runs.done
    | apply Runs.whenDue
    | apply Runs.answer
    | apply Runs.next
    | apply Runs.elim
    | apply Runs.after (issue_only ?_)
    | apply Only.after (h0 _)
    | exact Ctx.ok_only
    | exact Ctx.bad_only
    | exact Ctx.guard_only
    | exact memLoad_only
    | exact memPut_only
    | exact Ctx.group_only
    | exact Ctx.fail_only
    | extract_lets
    | fail_if_no_progress refine Only.upd ?_
    | split
    | refine Only.ofPair (by assumption) ?_
    | intro _
    | dsimp only
    | dsimp +zetaDelta only

theorem execCxClaim_only {core w s} : Runs [.obj, .pow, .boot, .host, .dict, .work, .sage, .radio, .noc, .dram, .sram, .mem, .out, .freeCtr] s (execCxClaim core w s) := by
  unfold execCxClaim
  with_reducible repeat' first
    | exact Only.refl _
    | assumption
    | decide
    | apply Runs.done
    | apply Runs.whenDue
    | apply Runs.answer
    | apply Runs.next
    | apply Runs.elim
    | apply Runs.after (cxc_only ?_)
    | exact Ctx.ok_only
    | exact Ctx.bad_only
    | exact Ctx.guard_only
    | exact memLoad_only
    | exact memPut_only
    | exact Ctx.group_only
    | extract_lets
    | fail_if_no_progress refine Only.upd ?_
    | split
    | refine Only.ofPair (by assumption) ?_
    | intro _
    | dsimp only
    | dsimp +zetaDelta only

theorem execCxRelease_only {core w s} : Runs [.obj, .pow, .boot, .host, .dict, .work, .sage, .radio, .noc, .dram, .sram, .mem, .out, .freeCtr] s (execCxRelease core w s) := by
  unfold execCxRelease
  with_reducible repeat' first
    | exact Only.refl _
    | assumption
    | decide
    | apply Runs.done
    | apply Runs.whenDue
    | apply Runs.answer
    | apply Runs.next
    | apply Runs.elim
    | apply Runs.after (cxc_only ?_)
    | exact Ctx.ok_only
    | exact Ctx.bad_only
    | exact Ctx.guard_only
    | exact memLoad_only
    | exact memPut_only
    | exact Ctx.group_only
    | extract_lets
    | fail_if_no_progress refine Only.upd ?_
    | split
    | refine Only.ofPair (by assumption) ?_
    | intro _
    | dsimp only
    | dsimp +zetaDelta only

theorem cmcMove_only {core w fn write f s} (h0 : ∀ a0 a1, Only [.obj, .sage, .freeCtr] a0.s (f a0 a1).s) : Runs [.obj, .pow, .boot, .host, .dict, .work, .sage, .radio, .noc, .dram, .sram, .mem, .out, .freeCtr] s (cmcMove core w fn write f s) := by
  unfold cmcMove
  with_reducible repeat' first
    | exact Only.refl _
    | assumption
    | decide
    | apply Runs.done
    | apply Runs.whenDue
    | apply Runs.answer
    | apply Runs.next
    | apply Runs.elim
    | apply Runs.after (cxc_only ?_)
    | apply Only.after (h0 _ _)
    | exact Ctx.ok_only
    | exact Ctx.bad_only
    | exact Ctx.guard_only
    | exact memLoad_only
    | exact memPut_only
    | exact Ctx.group_only
    | extract_lets
    | fail_if_no_progress refine Only.upd ?_
    | split
    | refine Only.ofPair (by assumption) ?_
    | intro _
    | dsimp only
    | dsimp +zetaDelta only

theorem execCxSave_only {core w s} : Runs [.obj, .pow, .boot, .host, .dict, .work, .sage, .radio, .noc, .dram, .sram, .mem, .out, .freeCtr] s (execCxSave core w s) := by
  unfold execCxSave
  with_reducible repeat' first
    | exact Only.refl _
    | assumption
    | decide
    | apply Runs.done
    | apply Runs.whenDue
    | apply Runs.answer
    | apply Runs.next
    | apply Runs.elim
    | apply Runs.after (cmcMove_only ?_)
    | exact Ctx.ok_only
    | exact Ctx.bad_only
    | exact Ctx.guard_only
    | exact memLoad_only
    | exact memPut_only
    | exact Ctx.group_only
    | extract_lets
    | fail_if_no_progress refine Only.upd ?_
    | split
    | refine Only.ofPair (by assumption) ?_
    | intro _
    | dsimp only
    | dsimp +zetaDelta only

theorem execCxRestore_only {core w s} : Runs [.obj, .pow, .boot, .host, .dict, .work, .sage, .radio, .noc, .dram, .sram, .mem, .out, .freeCtr] s (execCxRestore core w s) := by
  unfold execCxRestore
  with_reducible repeat' first
    | exact Only.refl _
    | assumption
    | decide
    | apply Runs.done
    | apply Runs.whenDue
    | apply Runs.answer
    | apply Runs.next
    | apply Runs.elim
    | apply Runs.after (cmcMove_only ?_)
    | apply Only.after dmemLoad_only
    | exact Ctx.ok_only
    | exact Ctx.bad_only
    | exact Ctx.guard_only
    | exact memLoad_only
    | exact memPut_only
    | exact Ctx.group_only
    | extract_lets
    | fail_if_no_progress refine Only.upd ?_
    | split
    | refine Only.ofPair (by assumption) ?_
    | intro _
    | dsimp only
    | dsimp +zetaDelta only

theorem execCxStat_only {core w s} : Runs [.obj, .pow, .boot, .host, .dict, .work, .sage, .radio, .noc, .dram, .sram, .mem, .out, .freeCtr] s (execCxStat core w s) := by
  unfold execCxStat
  with_reducible repeat' first
    | exact Only.refl _
    | assumption
    | decide
    | apply Runs.done
    | apply Runs.whenDue
    | apply Runs.answer
    | apply Runs.next
    | apply Runs.elim
    | apply Runs.after (cxc_only ?_)
    | exact Ctx.ok_only
    | exact Ctx.bad_only
    | exact Ctx.guard_only
    | exact memLoad_only
    | exact memPut_only
    | exact Ctx.group_only
    | extract_lets
    | fail_if_no_progress refine Only.upd ?_
    | split
    | refine Only.ofPair (by assumption) ?_
    | intro _
    | dsimp only
    | dsimp +zetaDelta only

theorem execCxClrf_only {core w s} : Runs [.obj, .pow, .boot, .host, .dict, .work, .sage, .radio, .noc, .dram, .sram, .mem, .out, .freeCtr] s (execCxClrf core w s) := by
  unfold execCxClrf
  with_reducible repeat' first
    | exact Only.refl _
    | assumption
    | decide
    | apply Runs.done
    | apply Runs.whenDue
    | apply Runs.answer
    | apply Runs.next
    | apply Runs.elim
    | apply Runs.after (cxc_only ?_)
    | exact Ctx.ok_only
    | exact Ctx.bad_only
    | exact Ctx.guard_only
    | exact memLoad_only
    | exact memPut_only
    | exact Ctx.group_only
    | extract_lets
    | fail_if_no_progress refine Only.upd ?_
    | split
    | refine Only.ofPair (by assumption) ?_
    | intro _
    | dsimp only
    | dsimp +zetaDelta only

end Sys2Proof.Machine
end

