-- ==== Sys2Proof/Laws/OnlyCoding.lean ====
section
/-!
SUPPORT. The frame of every operation of Machine/Coding.lean: the parts of the state it can change.
-/
namespace Sys2Proof.Machine

set_option Elab.async false

set_option linter.unusedTactic false
set_option linter.unreachableTactic false
set_option linter.unusedVariables false

theorem Chunk.put_only {x k ofs l bad s} : Only [.obj, .host, .work, .dram, .sram, .mem, .out] s (Chunk.put x k ofs l bad s) := by
  unfold Chunk.put
  with_reducible repeat' first
    | exact Only.refl _
    | assumption
    | decide
    | apply Only.after writeBuf_only
    | apply Only.after poisonBuf_only
    | extract_lets
    | fail_if_no_progress refine Only.upd ?_
    | split
    | refine Only.ofPair (by assumption) ?_
    | intro _
    | dsimp only
    | dsimp +zetaDelta only

theorem engineChunk_only {e op errors jobs f s} (h0 : ∀ a0 a1, Only [.obj, .host, .dict, .work, .dram, .sram, .mem, .out, .freeCtr] a1 (f a0 a1).2) : Runs [.obj, .host, .dict, .work, .dram, .sram, .mem, .out, .freeCtr] s (engineChunk e op errors jobs f s) := by
  unfold engineChunk
  with_reducible repeat' first
    | exact Only.refl _
    | assumption
    | decide
    | apply Runs.done
    | apply Runs.whenDue
    | apply Runs.answer
    | apply Runs.next
    | apply Runs.elim
    | apply Only.after chunkWorked_only
    | apply Only.after bumpBy_only
    | apply Only.after endHole_only
    | apply Only.after bump_only
    | apply Only.after (h0 _ _)
    | extract_lets
    | fail_if_no_progress refine Only.upd ?_
    | split
    | refine Only.ofPair (by assumption) ?_
    | intro _
    | dsimp only
    | dsimp +zetaDelta only

theorem codingChunk_only {e op k f s} (h0 : ∀ a0 a1 a2, Only [.obj, .host, .dict, .work, .dram, .sram, .mem, .out, .freeCtr] a2 (f a0 a1 a2).2) : Runs [.obj, .host, .dict, .work, .dram, .sram, .mem, .out, .freeCtr] s (codingChunk e op k f s) := by
  unfold codingChunk
  with_reducible repeat' first
    | exact Only.refl _
    | assumption
    | decide
    | apply Runs.done
    | apply Runs.whenDue
    | apply Runs.answer
    | apply Runs.next
    | apply Runs.elim
    | apply Runs.after (engineChunk_only ?_)
    | apply Only.after bumpBy_only
    | apply Only.after (h0 _ _ _)
    | apply Only.foldl
    | apply Only.foldlSnd
    | apply Only.foldlThd
    | extract_lets
    | fail_if_no_progress refine Only.upd ?_
    | split
    | refine Only.ofPair (by assumption) ?_
    | intro _
    | dsimp only
    | dsimp +zetaDelta only

theorem pick_only {n s} : Only [.freeCtr] s (pick n s).2 := by
  unfold pick
  with_reducible repeat' first
    | exact Only.refl _
    | assumption
    | decide
    | apply Only.after draw_only
    | extract_lets
    | fail_if_no_progress refine Only.upd ?_
    | split
    | refine Only.ofPair (by assumption) ?_
    | intro _
    | dsimp only
    | dsimp +zetaDelta only

theorem pickBytes_only {n s} : Only [.freeCtr] s (pickBytes n s).2 := by
  unfold pickBytes
  with_reducible repeat' first
    | exact Only.refl _
    | assumption
    | decide
    | apply Only.after draw_only
    | extract_lets
    | fail_if_no_progress refine Only.upd ?_
    | split
    | refine Only.ofPair (by assumption) ?_
    | intro _
    | dsimp only
    | dsimp +zetaDelta only

theorem countFail_only {g k result s} : Only [.obj] s (countFail g k result s) := by
  unfold countFail
  with_reducible repeat' first
    | exact Only.refl _
    | assumption
    | decide
    | apply Only.after bump_only
    | extract_lets
    | fail_if_no_progress refine Only.upd ?_
    | split
    | refine Only.ofPair (by assumption) ?_
    | intro _
    | dsimp only
    | dsimp +zetaDelta only

theorem lddDo_only {x q s} : Only [.obj, .host, .work, .dram, .sram, .mem, .out, .freeCtr] s (lddDo x q s).2 := by
  unfold lddDo
  with_reducible repeat' first
    | exact Only.refl _
    | assumption
    | decide
    | apply Only.after pick_only
    | apply Only.after pickBytes_only
    | apply Only.after Chunk.put_only
    | apply Only.after countFail_only
    | apply Only.after bumpBy_only
    | extract_lets
    | fail_if_no_progress refine Only.upd ?_
    | split
    | refine Only.ofPair (by assumption) ?_
    | intro _
    | dsimp only
    | dsimp +zetaDelta only

theorem execLdpcDecode_only {e s} : Runs [.obj, .host, .dict, .work, .dram, .sram, .mem, .out, .freeCtr] s (execLdpcDecode e s) := by
  unfold execLdpcDecode
  with_reducible repeat' first
    | exact Only.refl _
    | assumption
    | decide
    | apply Runs.done
    | apply Runs.whenDue
    | apply Runs.answer
    | apply Runs.next
    | apply Runs.elim
    | apply Runs.after (codingChunk_only ?_)
    | apply Only.after lddDo_only
    | extract_lets
    | fail_if_no_progress refine Only.upd ?_
    | split
    | refine Only.ofPair (by assumption) ?_
    | intro _
    | dsimp only
    | dsimp +zetaDelta only

theorem ldeDo_only {x q s} : Only [.obj, .host, .work, .dram, .sram, .mem, .out] s (ldeDo x q s).2 := by
  unfold ldeDo
  with_reducible repeat' first
    | exact Only.refl _
    | assumption
    | decide
    | apply Only.after Chunk.put_only
    | extract_lets
    | fail_if_no_progress refine Only.upd ?_
    | split
    | refine Only.ofPair (by assumption) ?_
    | intro _
    | dsimp only
    | dsimp +zetaDelta only

theorem execLdpcEncode_only {e s} : Runs [.obj, .host, .dict, .work, .dram, .sram, .mem, .out, .freeCtr] s (execLdpcEncode e s) := by
  unfold execLdpcEncode
  with_reducible repeat' first
    | exact Only.refl _
    | assumption
    | decide
    | apply Runs.done
    | apply Runs.whenDue
    | apply Runs.answer
    | apply Runs.next
    | apply Runs.elim
    | apply Runs.after (codingChunk_only ?_)
    | apply Only.after ldeDo_only
    | extract_lets
    | fail_if_no_progress refine Only.upd ?_
    | split
    | refine Only.ofPair (by assumption) ?_
    | intro _
    | dsimp only
    | dsimp +zetaDelta only

theorem pldDo_only {x q s} : Only [.obj, .host, .work, .dram, .sram, .mem, .out, .freeCtr] s (pldDo x q s).2 := by
  unfold pldDo
  with_reducible repeat' first
    | exact Only.refl _
    | assumption
    | decide
    | apply Only.after pickBytes_only
    | apply Only.after pick_only
    | apply Only.after Chunk.put_only
    | apply Only.after countFail_only
    | extract_lets
    | fail_if_no_progress refine Only.upd ?_
    | split
    | refine Only.ofPair (by assumption) ?_
    | intro _
    | dsimp only
    | dsimp +zetaDelta only

theorem execPolarDecode_only {e s} : Runs [.obj, .host, .dict, .work, .dram, .sram, .mem, .out, .freeCtr] s (execPolarDecode e s) := by
  unfold execPolarDecode
  with_reducible repeat' first
    | exact Only.refl _
    | assumption
    | decide
    | apply Runs.done
    | apply Runs.whenDue
    | apply Runs.answer
    | apply Runs.next
    | apply Runs.elim
    | apply Runs.after (codingChunk_only ?_)
    | apply Only.after pldDo_only
    | extract_lets
    | fail_if_no_progress refine Only.upd ?_
    | split
    | refine Only.ofPair (by assumption) ?_
    | intro _
    | dsimp only
    | dsimp +zetaDelta only

theorem tbcDecDo_only {x q s} : Only [.obj, .host, .work, .dram, .sram, .mem, .out, .freeCtr] s (tbcDecDo x q s).2 := by
  unfold tbcDecDo
  with_reducible repeat' first
    | exact Only.refl _
    | assumption
    | decide
    | apply Only.after pick_only
    | apply Only.after pickBytes_only
    | apply Only.after Chunk.put_only
    | apply Only.after countFail_only
    | apply Only.after bumpBy_only
    | extract_lets
    | fail_if_no_progress refine Only.upd ?_
    | split
    | refine Only.ofPair (by assumption) ?_
    | intro _
    | dsimp only
    | dsimp +zetaDelta only

theorem execTurboDecode_only {e s} : Runs [.obj, .host, .dict, .work, .dram, .sram, .mem, .out, .freeCtr] s (execTurboDecode e s) := by
  unfold execTurboDecode
  with_reducible repeat' first
    | exact Only.refl _
    | assumption
    | decide
    | apply Runs.done
    | apply Runs.whenDue
    | apply Runs.answer
    | apply Runs.next
    | apply Runs.elim
    | apply Runs.after (codingChunk_only ?_)
    | apply Only.after tbcDecDo_only
    | extract_lets
    | fail_if_no_progress refine Only.upd ?_
    | split
    | refine Only.ofPair (by assumption) ?_
    | intro _
    | dsimp only
    | dsimp +zetaDelta only

theorem tbcEncDo_only {x q s} : Only [.obj, .host, .work, .dram, .sram, .mem, .out] s (tbcEncDo x q s).2 := by
  unfold tbcEncDo
  with_reducible repeat' first
    | exact Only.refl _
    | assumption
    | decide
    | apply Only.after Chunk.put_only
    | extract_lets
    | fail_if_no_progress refine Only.upd ?_
    | split
    | refine Only.ofPair (by assumption) ?_
    | intro _
    | dsimp only
    | dsimp +zetaDelta only

theorem execTurboEncode_only {e s} : Runs [.obj, .host, .dict, .work, .dram, .sram, .mem, .out, .freeCtr] s (execTurboEncode e s) := by
  unfold execTurboEncode
  with_reducible repeat' first
    | exact Only.refl _
    | assumption
    | decide
    | apply Runs.done
    | apply Runs.whenDue
    | apply Runs.answer
    | apply Runs.next
    | apply Runs.elim
    | apply Runs.after (codingChunk_only ?_)
    | apply Only.after tbcEncDo_only
    | extract_lets
    | fail_if_no_progress refine Only.upd ?_
    | split
    | refine Only.ofPair (by assumption) ?_
    | intro _
    | dsimp only
    | dsimp +zetaDelta only

theorem cvdDo_only {x q s} : Only [.obj, .host, .work, .dram, .sram, .mem, .out, .freeCtr] s (cvdDo x q s).2 := by
  unfold cvdDo
  with_reducible repeat' first
    | exact Only.refl _
    | assumption
    | decide
    | apply Only.after pickBytes_only
    | apply Only.after pick_only
    | apply Only.after Chunk.put_only
    | apply Only.after countFail_only
    | extract_lets
    | fail_if_no_progress refine Only.upd ?_
    | split
    | refine Only.ofPair (by assumption) ?_
    | intro _
    | dsimp only
    | dsimp +zetaDelta only

theorem execConvolutionalDecode_only {e s} : Runs [.obj, .host, .dict, .work, .dram, .sram, .mem, .out, .freeCtr] s (execConvolutionalDecode e s) := by
  unfold execConvolutionalDecode
  with_reducible repeat' first
    | exact Only.refl _
    | assumption
    | decide
    | apply Runs.done
    | apply Runs.whenDue
    | apply Runs.answer
    | apply Runs.next
    | apply Runs.elim
    | apply Runs.after (codingChunk_only ?_)
    | apply Only.after cvdDo_only
    | extract_lets
    | fail_if_no_progress refine Only.upd ?_
    | split
    | refine Only.ofPair (by assumption) ?_
    | intro _
    | dsimp only
    | dsimp +zetaDelta only

theorem sbCount_only {old new s} : Only [.obj] s (sbCount old new s) := by
  unfold sbCount
  with_reducible repeat' first
    | exact Only.refl _
    | assumption
    | decide
    | apply Only.after wr_only
    | extract_lets
    | fail_if_no_progress refine Only.upd ?_
    | split
    | refine Only.ofPair (by assumption) ?_
    | intro _
    | dsimp only
    | dsimp +zetaDelta only

theorem hqcDo_only {x i s} : Only [.obj, .host, .work, .dram, .sram, .mem, .out] s (hqcDo x i s).2 := by
  unfold hqcDo
  extract_lets
  split
  extract_lets _ _ _ _ _ _ _ s1 s2 _ s3 _ _ s4
  have k1 : Only [.obj, .host, .work, .dram, .sram, .mem, .out] s s1 := by
    change Only _ s (ite _ _ (ite _ _ _))
    split
    · exact Only.after memStore_only (by decide) clearLinePoison_only.mono
    · split
      · exact memStore_only.mono
      · exact Only.refl _
  have k2 : Only [.obj, .host, .work, .dram, .sram, .mem, .out] s s2 := by
    change Only _ s (ite _ _ _)
    split
    · exact Only.after sbCount_only (by decide) k1
    · exact k1
  have k3 : Only [.obj, .host, .work, .dram, .sram, .mem, .out] s s3 := by
    change Only _ s (ite _ _ _)
    split
    · exact Only.after Chunk.put_only (by decide) k2
    · exact k2
  have k4 : Only [.obj, .host, .work, .dram, .sram, .mem, .out] s s4 := by
    change Only _ s (ite _ _ _)
    split
    · exact Only.after Chunk.put_only (by decide) k3
    · exact k3
  clear_value s4
  dsimp only
  split
  · exact Only.after bump_only (by decide) k4
  · exact k4

theorem execHarqCombine_only {e s} : Runs [.obj, .host, .dict, .work, .dram, .sram, .mem, .out, .freeCtr] s (execHarqCombine e s) := by
  unfold execHarqCombine
  with_reducible repeat' first
    | exact Only.refl _
    | assumption
    | decide
    | apply Runs.done
    | apply Runs.whenDue
    | apply Runs.answer
    | apply Runs.next
    | apply Runs.elim
    | apply Runs.after (codingChunk_only ?_)
    | apply Only.after hqcDo_only
    | extract_lets
    | fail_if_no_progress refine Only.upd ?_
    | split
    | refine Only.ofPair (by assumption) ?_
    | intro _
    | dsimp only
    | dsimp +zetaDelta only

theorem cutHqc_only {u s} : Only [.obj, .host, .work, .dram, .sram, .mem, .out, .freeCtr] s (cutHqc u s) := by
  unfold cutHqc
  with_reducible repeat' first
    | exact Only.refl _
    | assumption
    | decide
    | apply Only.after pick_only
    | apply Only.after hqcDo_only
    | apply Only.after sbCount_only
    | apply Only.after memStore_only
    | apply Only.each
    | extract_lets
    | fail_if_no_progress refine Only.upd ?_
    | split
    | refine Only.ofPair (by assumption) ?_
    | intro _
    | dsimp only
    | dsimp +zetaDelta only

theorem fenceFault_only {u s} : Only [.obj, .pow, .host, .dict, .work, .sage, .radio, .noc, .dram, .sram, .mem, .out, .freeCtr] s (fenceFault u s) := by
  unfold fenceFault
  with_reducible repeat' first
    | exact Only.refl _
    | assumption
    | decide
    | apply Only.after fenceUnit_only
    | apply Only.after cutHqc_only
    | apply Only.after coreOut_only
    | apply Only.after drainMar_only
    | extract_lets
    | fail_if_no_progress refine Only.upd ?_
    | split
    | refine Only.ofPair (by assumption) ?_
    | intro _
    | dsimp only
    | dsimp +zetaDelta only

theorem execUnitFence_only {u s} : Runs [.obj, .pow, .host, .dict, .work, .sage, .radio, .noc, .dram, .sram, .mem, .out, .freeCtr] s (execUnitFence u s) := by
  unfold execUnitFence
  with_reducible repeat' first
    | exact Only.refl _
    | assumption
    | decide
    | apply Runs.done
    | apply Runs.whenDue
    | apply Runs.answer
    | apply Runs.next
    | apply Runs.elim
    | apply Only.after fenceFault_only
    | extract_lets
    | fail_if_no_progress refine Only.upd ?_
    | split
    | refine Only.ofPair (by assumption) ?_
    | intro _
    | dsimp only
    | dsimp +zetaDelta only

theorem wLddCapSet_only {v s} : Only [.obj] s (wLddCapSet v s).2 := by
  unfold wLddCapSet
  with_reducible repeat' first
    | exact Only.refl _
    | assumption
    | decide
    | apply Only.after refusedW_only
    | apply Only.after accepted_only
    | apply Only.after wr_only
    | extract_lets
    | fail_if_no_progress refine Only.upd ?_
    | split
    | refine Only.ofPair (by assumption) ?_
    | intro _
    | dsimp only
    | dsimp +zetaDelta only

theorem execLddCapSet_only {a0 cap s} : Runs [.obj, .out] s (execLddCapSet a0 cap s) := by
  unfold execLddCapSet
  with_reducible repeat' first
    | exact Only.refl _
    | assumption
    | decide
    | apply Runs.done
    | apply Runs.whenDue
    | apply Runs.answer
    | apply Runs.next
    | apply Runs.elim
    | apply Only.after wLddCapSet_only
    | extract_lets
    | fail_if_no_progress refine Only.upd ?_
    | split
    | refine Only.ofPair (by assumption) ?_
    | intro _
    | dsimp only
    | dsimp +zetaDelta only

theorem invalidate_only {l s} : Only [.dram, .sram, .mem] s (invalidate l s) := by
  unfold invalidate
  with_reducible repeat' first
    | exact Only.refl _
    | assumption
    | decide
    | apply Only.after memStore_only
    | apply Only.each
    | extract_lets
    | fail_if_no_progress refine Only.upd ?_
    | split
    | refine Only.ofPair (by assumption) ?_
    | intro _
    | dsimp only
    | dsimp +zetaDelta only

theorem grantRange_only {a0 a n s} : Only [.obj, .work] s (grantRange a0 a n s) := by
  unfold grantRange
  with_reducible repeat' first
    | exact Only.refl _
    | assumption
    | decide
    | apply Only.after wr_only
    | extract_lets
    | fail_if_no_progress refine Only.upd ?_
    | split
    | refine Only.ofPair (by assumption) ?_
    | intro _
    | dsimp only
    | dsimp +zetaDelta only

theorem wSbQuotaSet_only {v s} : Only [.obj, .work, .dram, .sram, .mem] s (wSbQuotaSet v s).2 := by
  unfold wSbQuotaSet
  with_reducible repeat' first
    | exact Only.refl _
    | assumption
    | decide
    | apply Only.after refusedW_only
    | apply Only.after accepted_only
    | apply Only.after grantRange_only
    | apply Only.after invalidate_only
    | extract_lets
    | fail_if_no_progress refine Only.upd ?_
    | split
    | refine Only.ofPair (by assumption) ?_
    | intro _
    | dsimp only
    | dsimp +zetaDelta only

theorem execSbQuotaSet_only {a0 n s} : Runs [.obj, .work, .dram, .sram, .mem, .out] s (execSbQuotaSet a0 n s) := by
  unfold execSbQuotaSet
  with_reducible repeat' first
    | exact Only.refl _
    | assumption
    | decide
    | apply Runs.done
    | apply Runs.whenDue
    | apply Runs.answer
    | apply Runs.next
    | apply Runs.elim
    | apply Only.after wSbQuotaSet_only
    | extract_lets
    | fail_if_no_progress refine Only.upd ?_
    | split
    | refine Only.ofPair (by assumption) ?_
    | intro _
    | dsimp only
    | dsimp +zetaDelta only

theorem wSbRegion_only {k v ok s} : Only [.obj] s (wSbRegion k v ok s).2 := by
  unfold wSbRegion
  with_reducible repeat' first
    | exact Only.refl _
    | assumption
    | decide
    | apply Only.after wr_only
    | apply Only.after refusedW_only
    | apply Only.after accepted_only
    | extract_lets
    | fail_if_no_progress refine Only.upd ?_
    | split
    | refine Only.ofPair (by assumption) ?_
    | intro _
    | dsimp only
    | dsimp +zetaDelta only

theorem wSbCount_only {v s} : Only [.obj] s (wSbCount v s).2 := by
  unfold wSbCount
  with_reducible repeat' first
    | exact Only.refl _
    | assumption
    | decide
    | apply Only.after wSbRegion_only
    | extract_lets
    | fail_if_no_progress refine Only.upd ?_
    | split
    | refine Only.ofPair (by assumption) ?_
    | intro _
    | dsimp only
    | dsimp +zetaDelta only

theorem wSbNcbMax_only {v s} : Only [.obj] s (wSbNcbMax v s).2 := by
  unfold wSbNcbMax
  with_reducible repeat' first
    | exact Only.refl _
    | assumption
    | decide
    | apply Only.after wSbRegion_only
    | extract_lets
    | fail_if_no_progress refine Only.upd ?_
    | split
    | refine Only.ofPair (by assumption) ?_
    | intro _
    | dsimp only
    | dsimp +zetaDelta only

theorem execSbRegionWrite_only {ncbMax v s} : Runs [.obj, .out] s (execSbRegionWrite ncbMax v s) := by
  unfold execSbRegionWrite
  with_reducible repeat' first
    | exact Only.refl _
    | assumption
    | decide
    | apply Runs.done
    | apply Runs.whenDue
    | apply Runs.answer
    | apply Runs.next
    | apply Runs.elim
    | apply Only.after wSbNcbMax_only
    | apply Only.after wSbCount_only
    | extract_lets
    | fail_if_no_progress refine Only.upd ?_
    | split
    | refine Only.ofPair (by assumption) ?_
    | intro _
    | dsimp only
    | dsimp +zetaDelta only

end Sys2Proof.Machine
end

