-- ==== Sys2Proof/Laws/OnlyTiming.lean ====
section
/-!
SUPPORT. The frame of every operation of Machine/Timing.lean: the parts of the state it can change.
-/
namespace Sys2Proof.Machine

set_option Elab.async false

set_option linter.unusedTactic false
set_option linter.unreachableTactic false
set_option linter.unusedVariables false

theorem refreshQuality_only {s} : Only [.obj, .tim] s (refreshQuality s) := by
  unfold refreshQuality
  with_reducible repeat' first
    | exact Only.refl _
    | assumption
    | decide
    | apply Only.after wr_only
    | extract_lets
    | fail_if_no_progress refine Only.upd ?_
    | split
    | refine Only.ofPair (by assumption) ?_
    | intro _
    | dsimp only
    | dsimp +zetaDelta only

theorem setTimState_only {st s} : Only [.obj, .tim, .host, .dict, .out] s (setTimState st s) := by
  unfold setTimState
  with_reducible repeat' first
    | exact Only.refl _
    | assumption
    | decide
    | apply Only.after wr_only
    | apply Only.after refreshQuality_only
    | apply Only.after ownerEvent_only
    | extract_lets
    | fail_if_no_progress refine Only.upd ?_
    | split
    | refine Only.ofPair (by assumption) ?_
    | intro _
    | dsimp only
    | dsimp +zetaDelta only

theorem enterHoldover_only {s} : Only [.obj, .tim, .host, .dict, .out] s (enterHoldover s) := by
  unfold enterHoldover
  with_reducible repeat' first
    | exact Only.refl _
    | assumption
    | decide
    | apply Only.after wrI_only
    | apply Only.after setTimState_only
    | apply Only.after bump_only
    | apply Only.after wr_only
    | extract_lets
    | fail_if_no_progress refine Only.upd ?_
    | split
    | refine Only.ofPair (by assumption) ?_
    | intro _
    | dsimp only
    | dsimp +zetaDelta only

theorem selectRef_only {r s} : Only [.obj, .tim, .host, .dict, .out] s (selectRef r s) := by
  unfold selectRef
  with_reducible repeat' first
    | exact Only.refl _
    | assumption
    | decide
    | apply Only.after wr_only
    | apply Only.after enterHoldover_only
    | apply Only.after refreshQuality_only
    | apply Only.after bump_only
    | apply Only.after ownerEvent_only
    | apply Only.after setTimState_only
    | extract_lets
    | fail_if_no_progress refine Only.upd ?_
    | split
    | refine Only.ofPair (by assumption) ?_
    | intro _
    | dsimp only
    | dsimp +zetaDelta only

theorem reselect_only {second s} : Only [.obj, .tim, .host, .dict, .out] s (reselect second s) := by
  unfold reselect
  with_reducible repeat' first
    | exact Only.refl _
    | assumption
    | decide
    | apply Only.after selectRef_only
    | extract_lets
    | fail_if_no_progress refine Only.upd ?_
    | split
    | refine Only.ofPair (by assumption) ?_
    | intro _
    | dsimp only
    | dsimp +zetaDelta only

theorem checkSelected_only {s} : Only [.obj, .tim, .host, .dict, .out] s (checkSelected s) := by
  unfold checkSelected
  with_reducible repeat' first
    | exact Only.refl _
    | assumption
    | decide
    | apply Only.after reselect_only
    | extract_lets
    | fail_if_no_progress refine Only.upd ?_
    | split
    | refine Only.ofPair (by assumption) ?_
    | intro _
    | dsimp only
    | dsimp +zetaDelta only

theorem setRefFlag_only {r b v s} : Only [.obj] s (setRefFlag r b v s) := by
  unfold setRefFlag
  with_reducible repeat' first
    | exact Only.refl _
    | assumption
    | decide
    | apply Only.after wr_only
    | extract_lets
    | fail_if_no_progress refine Only.upd ?_
    | split
    | refine Only.ofPair (by assumption) ?_
    | intro _
    | dsimp only
    | dsimp +zetaDelta only

theorem refEvent_only {r s} : Only [.obj, .host, .dict, .out] s (refEvent r s) := by
  unfold refEvent
  with_reducible repeat' first
    | exact Only.refl _
    | assumption
    | decide
    | apply Only.after ownerEvent_only
    | extract_lets
    | fail_if_no_progress refine Only.upd ?_
    | split
    | refine Only.ofPair (by assumption) ?_
    | intro _
    | dsimp only
    | dsimp +zetaDelta only

theorem refMove_only {r st s} : Only [.obj, .host, .dict, .out] s (refMove r st s) := by
  unfold refMove
  with_reducible repeat' first
    | exact Only.refl _
    | assumption
    | decide
    | apply Only.after refEvent_only
    | apply Only.after wr_only
    | extract_lets
    | fail_if_no_progress refine Only.upd ?_
    | split
    | refine Only.ofPair (by assumption) ?_
    | intro _
    | dsimp only
    | dsimp +zetaDelta only

theorem refActivityLoss_only {r s} : Only [.obj, .tim, .host, .dict, .out] s (refActivityLoss r s) := by
  unfold refActivityLoss
  with_reducible repeat' first
    | exact Only.refl _
    | assumption
    | decide
    | apply Only.after setRefFlag_only
    | apply Only.after reselect_only
    | apply Only.after refMove_only
    | extract_lets
    | fail_if_no_progress refine Only.upd ?_
    | split
    | refine Only.ofPair (by assumption) ?_
    | intro _
    | dsimp only
    | dsimp +zetaDelta only

theorem wCiConfig_only {c d s} : Only [.obj] s (wCiConfig c d s).2 := by
  unfold wCiConfig
  with_reducible repeat' first
    | exact Only.refl _
    | assumption
    | decide
    | apply Only.after refusedW_only
    | apply Only.after accepted_only
    | apply Only.after wr_only
    | extract_lets
    | fail_if_no_progress refine Only.upd ?_
    | split
    | refine Only.ofPair (by assumption) ?_
    | intro _
    | dsimp only
    | dsimp +zetaDelta only

theorem startTimer_only {r n s} : Only [.obj] s (startTimer r n s) := by
  unfold startTimer
  with_reducible repeat' first
    | exact Only.refl _
    | assumption
    | decide
    | apply Only.after wr_only
    | extract_lets
    | fail_if_no_progress refine Only.upd ?_
    | split
    | refine Only.ofPair (by assumption) ?_
    | intro _
    | dsimp only
    | dsimp +zetaDelta only

theorem modRef_only {r f s} : Only [.tim] s (modRef r f s) := by
  unfold modRef
  with_reducible repeat' first
    | exact Only.refl _
    | assumption
    | decide
    | extract_lets
    | fail_if_no_progress refine Only.upd ?_
    | split
    | refine Only.ofPair (by assumption) ?_
    | intro _
    | dsimp only
    | dsimp +zetaDelta only

theorem wRefEnable_only {r v s} : Only [.obj, .tim, .host, .dict, .out] s (wRefEnable r v s).2 := by
  unfold wRefEnable
  with_reducible repeat' first
    | exact Only.refl _
    | assumption
    | decide
    | apply Only.after refusedW_only
    | apply Only.after wr_only
    | apply Only.after startTimer_only
    | apply Only.after accepted_only
    | apply Only.after reselect_only
    | apply Only.after modRef_only
    | extract_lets
    | fail_if_no_progress refine Only.upd ?_
    | split
    | refine Only.ofPair (by assumption) ?_
    | intro _
    | dsimp only
    | dsimp +zetaDelta only

theorem wLoopMode_only {v s} : Only [.obj, .tim, .host, .dict, .out] s (wLoopMode v s).2 := by
  unfold wLoopMode
  with_reducible repeat' first
    | exact Only.refl _
    | assumption
    | decide
    | apply Only.after wr_only
    | apply Only.after accepted_only
    | apply Only.after setTimState_only
    | apply Only.after enterHoldover_only
    | apply Only.after refusedW_only
    | extract_lets
    | fail_if_no_progress refine Only.upd ?_
    | split
    | refine Only.ofPair (by assumption) ?_
    | intro _
    | dsimp only
    | dsimp +zetaDelta only

theorem wForceRef_only {v s} : Only [.obj, .tim, .host, .dict, .out] s (wForceRef v s).2 := by
  unfold wForceRef
  with_reducible repeat' first
    | exact Only.refl _
    | assumption
    | decide
    | apply Only.after accepted_only
    | apply Only.after reselect_only
    | apply Only.after wr_only
    | apply Only.after refusedW_only
    | extract_lets
    | fail_if_no_progress refine Only.upd ?_
    | split
    | refine Only.ofPair (by assumption) ?_
    | intro _
    | dsimp only
    | dsimp +zetaDelta only

theorem wSwFreq_only {v s} : Only [.obj] s (wSwFreq v s).2 := by
  unfold wSwFreq
  with_reducible repeat' first
    | exact Only.refl _
    | assumption
    | decide
    | apply Only.after refusedW_only
    | apply Only.after wrI_only
    | apply Only.after accepted_only
    | extract_lets
    | fail_if_no_progress refine Only.upd ?_
    | split
    | refine Only.ofPair (by assumption) ?_
    | intro _
    | dsimp only
    | dsimp +zetaDelta only

theorem applyCorrection_only {v s} : Only [.obj, .tim] s (applyCorrection v s) := by
  unfold applyCorrection
  with_reducible repeat' first
    | exact Only.refl _
    | assumption
    | decide
    | apply Only.after wrI_only
    | extract_lets
    | fail_if_no_progress refine Only.upd ?_
    | split
    | refine Only.ofPair (by assumption) ?_
    | intro _
    | dsimp only
    | dsimp +zetaDelta only

theorem wDtcAdjust_only {v s} : Only [.obj, .tim] s (wDtcAdjust v s).2 := by
  unfold wDtcAdjust
  with_reducible repeat' first
    | exact Only.refl _
    | assumption
    | decide
    | apply Only.after accepted_only
    | apply Only.after refreshQuality_only
    | apply Only.after applyCorrection_only
    | extract_lets
    | fail_if_no_progress refine Only.upd ?_
    | split
    | refine Only.ofPair (by assumption) ?_
    | intro _
    | dsimp only
    | dsimp +zetaDelta only

theorem execCiConfig_only {c d s} : Runs [.obj, .out] s (execCiConfig c d s) := by
  unfold execCiConfig
  with_reducible repeat' first
    | exact Only.refl _
    | assumption
    | decide
    | apply Runs.done
    | apply Runs.whenDue
    | apply Runs.answer
    | apply Runs.next
    | apply Runs.elim
    | apply Only.after wCiConfig_only
    | extract_lets
    | fail_if_no_progress refine Only.upd ?_
    | split
    | refine Only.ofPair (by assumption) ?_
    | intro _
    | dsimp only
    | dsimp +zetaDelta only

theorem execDtcAdjust_only {v s} : Runs [.obj, .tim, .out] s (execDtcAdjust v s) := by
  unfold execDtcAdjust
  with_reducible repeat' first
    | exact Only.refl _
    | assumption
    | decide
    | apply Runs.done
    | apply Runs.whenDue
    | apply Runs.answer
    | apply Runs.next
    | apply Runs.elim
    | apply Only.after wDtcAdjust_only
    | extract_lets
    | fail_if_no_progress refine Only.upd ?_
    | split
    | refine Only.ofPair (by assumption) ?_
    | intro _
    | dsimp only
    | dsimp +zetaDelta only

theorem passClocks_only {n s} : Only [.obj, .tim] s (passClocks n s) := by
  unfold passClocks
  with_reducible repeat' first
    | exact Only.refl _
    | assumption
    | decide
    | apply Only.after wrI_only
    | apply Only.after wr_only
    | extract_lets
    | fail_if_no_progress refine Only.upd ?_
    | split
    | refine Only.ofPair (by assumption) ?_
    | intro _
    | dsimp only
    | dsimp +zetaDelta only

theorem execSlewDone_only {s} : Runs [.obj, .tim] s (execSlewDone s) := by
  unfold execSlewDone
  with_reducible repeat' first
    | exact Only.refl _
    | assumption
    | decide
    | apply Runs.done
    | apply Runs.whenDue
    | apply Runs.answer
    | apply Runs.next
    | apply Runs.elim
    | apply Only.after passClocks_only
    | apply Only.after refreshQuality_only
    | apply Only.after wr_only
    | extract_lets
    | fail_if_no_progress refine Only.upd ?_
    | split
    | refine Only.ofPair (by assumption) ?_
    | intro _
    | dsimp only
    | dsimp +zetaDelta only

theorem phaseStep_only {v ref old flags s} : Only [.obj, .tim, .host, .dict, .out] s (phaseStep v ref old flags s) := by
  unfold phaseStep
  with_reducible repeat' first
    | exact Only.refl _
    | assumption
    | decide
    | apply Only.after bump_only
    | apply Only.after refreshQuality_only
    | apply Only.after applyCorrection_only
    | apply Only.after ownerEvent_only
    | extract_lets
    | fail_if_no_progress refine Only.upd ?_
    | split
    | refine Only.ofPair (by assumption) ?_
    | intro _
    | dsimp only
    | dsimp +zetaDelta only

theorem loopFilter_only {s} : Only [.obj, .freeCtr] s (loopFilter s) := by
  unfold loopFilter
  with_reducible repeat' first
    | exact Only.refl _
    | assumption
    | decide
    | apply Only.after draw_only
    | apply Only.after wrI_only
    | extract_lets
    | fail_if_no_progress refine Only.upd ?_
    | split
    | refine Only.ofPair (by assumption) ?_
    | intro _
    | dsimp only
    | dsimp +zetaDelta only

theorem refPulse_only {r raw s} : Only [.obj, .tim, .host, .dict, .out, .freeCtr] s (refPulse r raw s) := by
  unfold refPulse
  with_reducible repeat' first
    | exact Only.refl _
    | assumption
    | decide
    | apply Only.after setRefFlag_only
    | apply Only.after phaseStep_only
    | apply Only.after loopFilter_only
    | apply Only.after wrI_only
    | extract_lets
    | fail_if_no_progress refine Only.upd ?_
    | split
    | refine Only.ofPair (by assumption) ?_
    | intro _
    | dsimp only
    | dsimp +zetaDelta only

theorem execRefPulse_only {r rawPs s} : Runs [.obj, .tim, .host, .dict, .out, .freeCtr] s (execRefPulse r rawPs s) := by
  unfold execRefPulse
  with_reducible repeat' first
    | exact Only.refl _
    | assumption
    | decide
    | apply Runs.done
    | apply Runs.whenDue
    | apply Runs.answer
    | apply Runs.next
    | apply Runs.elim
    | apply Only.after refPulse_only
    | extract_lets
    | fail_if_no_progress refine Only.upd ?_
    | split
    | refine Only.ofPair (by assumption) ?_
    | intro _
    | dsimp only
    | dsimp +zetaDelta only

theorem execTodSentence_only {utcSec valid s} : Runs [.obj, .tim, .host, .dict, .out] s (execTodSentence utcSec valid s) := by
  unfold execTodSentence
  with_reducible repeat' first
    | exact Only.refl _
    | assumption
    | decide
    | apply Runs.done
    | apply Runs.whenDue
    | apply Runs.answer
    | apply Runs.next
    | apply Runs.elim
    | apply Only.after refActivityLoss_only
    | apply Only.after phaseStep_only
    | extract_lets
    | fail_if_no_progress refine Only.upd ?_
    | split
    | refine Only.ofPair (by assumption) ?_
    | intro _
    | dsimp only
    | dsimp +zetaDelta only

theorem execRefActivityLoss_only {r s} : Runs [.obj, .tim, .host, .dict, .out] s (execRefActivityLoss r s) := by
  unfold execRefActivityLoss
  with_reducible repeat' first
    | exact Only.refl _
    | assumption
    | decide
    | apply Runs.done
    | apply Runs.whenDue
    | apply Runs.answer
    | apply Runs.next
    | apply Runs.elim
    | apply Only.after refActivityLoss_only
    | extract_lets
    | fail_if_no_progress refine Only.upd ?_
    | split
    | refine Only.ofPair (by assumption) ?_
    | intro _
    | dsimp only
    | dsimp +zetaDelta only

theorem oscCheck_only {s} : Only [.obj, .tim, .host, .dict, .out] s (oscCheck s) := by
  unfold oscCheck
  with_reducible repeat' first
    | exact Only.refl _
    | assumption
    | decide
    | apply Only.after bump_only
    | apply Only.after ownerEvent_only
    | apply Only.after wr_only
    | apply Only.after modRef_only
    | apply Only.each
    | extract_lets
    | fail_if_no_progress refine Only.upd ?_
    | split
    | refine Only.ofPair (by assumption) ?_
    | intro _
    | dsimp only
    | dsimp +zetaDelta only

theorem refDecide_only {r s} : Only [.obj, .tim, .host, .dict, .out] s (refDecide r s) := by
  unfold refDecide
  with_reducible repeat' first
    | exact Only.refl _
    | assumption
    | decide
    | apply Only.after startTimer_only
    | apply Only.after wr_only
    | apply Only.after refMove_only
    | apply Only.after modRef_only
    | apply Only.after bump_only
    | apply Only.after refEvent_only
    | apply Only.after setRefFlag_only
    | extract_lets
    | fail_if_no_progress refine Only.upd ?_
    | split
    | refine Only.ofPair (by assumption) ?_
    | intro _
    | dsimp only
    | dsimp +zetaDelta only

theorem lockCheck_only {filt s} : Only [.obj, .tim, .host, .dict, .out] s (lockCheck filt s) := by
  unfold lockCheck
  with_reducible repeat' first
    | exact Only.refl _
    | assumption
    | decide
    | apply Only.after setTimState_only
    | extract_lets
    | fail_if_no_progress refine Only.upd ?_
    | split
    | refine Only.ofPair (by assumption) ?_
    | intro _
    | dsimp only
    | dsimp +zetaDelta only

theorem execRefSecondUpdate_only {xs filt s} : Runs [.obj, .tim, .host, .dict, .out, .freeCtr] s (execRefSecondUpdate xs filt s) := by
  unfold execRefSecondUpdate
  with_reducible repeat' first
    | exact Only.refl _
    | assumption
    | decide
    | apply Runs.done
    | apply Runs.whenDue
    | apply Runs.answer
    | apply Runs.next
    | apply Runs.elim
    | apply Only.after wr_only
    | apply Only.after setRefFlag_only
    | apply Only.after wrI_only
    | apply Only.after oscCheck_only
    | apply Only.after refDecide_only
    | apply Only.after reselect_only
    | apply Only.after loopFilter_only
    | apply Only.after lockCheck_only
    | apply Only.after refreshQuality_only
    | apply Only.each
    | extract_lets
    | fail_if_no_progress refine Only.upd ?_
    | split
    | refine Only.ofPair (by assumption) ?_
    | intro _
    | dsimp only
    | dsimp +zetaDelta only

theorem execRefEnable_only {r v s} : Runs [.obj, .tim, .host, .dict, .out] s (execRefEnable r v s) := by
  unfold execRefEnable
  with_reducible repeat' first
    | exact Only.refl _
    | assumption
    | decide
    | apply Runs.done
    | apply Runs.whenDue
    | apply Runs.answer
    | apply Runs.next
    | apply Runs.elim
    | apply Only.after wRefEnable_only
    | extract_lets
    | fail_if_no_progress refine Only.upd ?_
    | split
    | refine Only.ofPair (by assumption) ?_
    | intro _
    | dsimp only
    | dsimp +zetaDelta only

theorem execForceRef_only {v s} : Runs [.obj, .tim, .host, .dict, .out] s (execForceRef v s) := by
  unfold execForceRef
  with_reducible repeat' first
    | exact Only.refl _
    | assumption
    | decide
    | apply Runs.done
    | apply Runs.whenDue
    | apply Runs.answer
    | apply Runs.next
    | apply Runs.elim
    | apply Only.after wForceRef_only
    | extract_lets
    | fail_if_no_progress refine Only.upd ?_
    | split
    | refine Only.ofPair (by assumption) ?_
    | intro _
    | dsimp only
    | dsimp +zetaDelta only

theorem execLoopAutomatic_only {s} : Runs [.obj, .tim, .host, .dict, .out] s (execLoopAutomatic s) := by
  unfold execLoopAutomatic
  with_reducible repeat' first
    | exact Only.refl _
    | assumption
    | decide
    | apply Runs.done
    | apply Runs.whenDue
    | apply Runs.answer
    | apply Runs.next
    | apply Runs.elim
    | apply Only.after wLoopMode_only
    | extract_lets
    | fail_if_no_progress refine Only.upd ?_
    | split
    | refine Only.ofPair (by assumption) ?_
    | intro _
    | dsimp only
    | dsimp +zetaDelta only

theorem execLoopHoldover_only {s} : Runs [.obj, .tim, .host, .dict, .out] s (execLoopHoldover s) := by
  unfold execLoopHoldover
  with_reducible repeat' first
    | exact Only.refl _
    | assumption
    | decide
    | apply Runs.done
    | apply Runs.whenDue
    | apply Runs.answer
    | apply Runs.next
    | apply Runs.elim
    | apply Only.after wLoopMode_only
    | extract_lets
    | fail_if_no_progress refine Only.upd ?_
    | split
    | refine Only.ofPair (by assumption) ?_
    | intro _
    | dsimp only
    | dsimp +zetaDelta only

theorem execLoopSoftware_only {s} : Runs [.obj, .tim, .host, .dict, .out] s (execLoopSoftware s) := by
  unfold execLoopSoftware
  with_reducible repeat' first
    | exact Only.refl _
    | assumption
    | decide
    | apply Runs.done
    | apply Runs.whenDue
    | apply Runs.answer
    | apply Runs.next
    | apply Runs.elim
    | apply Only.after wLoopMode_only
    | extract_lets
    | fail_if_no_progress refine Only.upd ?_
    | split
    | refine Only.ofPair (by assumption) ?_
    | intro _
    | dsimp only
    | dsimp +zetaDelta only

theorem execSwFreq_only {v s} : Runs [.obj, .out] s (execSwFreq v s) := by
  unfold execSwFreq
  with_reducible repeat' first
    | exact Only.refl _
    | assumption
    | decide
    | apply Runs.done
    | apply Runs.whenDue
    | apply Runs.answer
    | apply Runs.next
    | apply Runs.elim
    | apply Only.after wSwFreq_only
    | extract_lets
    | fail_if_no_progress refine Only.upd ?_
    | split
    | refine Only.ofPair (by assumption) ?_
    | intro _
    | dsimp only
    | dsimp +zetaDelta only

theorem execTddPatternApply_only {s} : Runs [.tim] s (execTddPatternApply s) := by
  unfold execTddPatternApply
  with_reducible repeat' first
    | exact Only.refl _
    | assumption
    | decide
    | apply Runs.done
    | apply Runs.whenDue
    | apply Runs.answer
    | apply Runs.next
    | apply Runs.elim
    | extract_lets
    | fail_if_no_progress refine Only.upd ?_
    | split
    | refine Only.ofPair (by assumption) ?_
    | intro _
    | dsimp only
    | dsimp +zetaDelta only

theorem execPtpMessageTx_only {a0 msgType s} : Runs [.tim, .out] s (execPtpMessageTx a0 msgType s) := by
  unfold execPtpMessageTx
  with_reducible repeat' first
    | exact Only.refl _
    | assumption
    | decide
    | apply Runs.done
    | apply Runs.whenDue
    | apply Runs.answer
    | apply Runs.next
    | apply Runs.elim
    | apply Only.after send_only
    | extract_lets
    | fail_if_no_progress refine Only.upd ?_
    | split
    | refine Only.ofPair (by assumption) ?_
    | intro _
    | dsimp only
    | dsimp +zetaDelta only

end Sys2Proof.Machine
end

