-- ==== Sys2Proof/Laws/OnlyLanes.lean ====
section
/-!
SUPPORT. The frame of every operation of Machine/Lanes.lean: the parts of the state it can change.
-/
namespace Sys2Proof.Machine

set_option Elab.async false

set_option linter.unusedTactic false
set_option linter.unreachableTactic false
set_option linter.unusedVariables false

theorem modLane_only {n f s} : Only [.links] s (modLane n f s) := by
  unfold modLane
  with_reducible repeat' first
    | exact Only.refl _
    | assumption
    | decide
    | extract_lets
    | fail_if_no_progress refine Only.upd ?_
    | split
    | refine Only.ofPair (by assumption) ?_
    | intro _
    | dsimp only
    | dsimp +zetaDelta only

theorem laneDark_only {n s} : Only [.obj] s (laneDark n s) := by
  unfold laneDark
  with_reducible repeat' first
    | exact Only.refl _
    | assumption
    | decide
    | apply Only.after wr_only
    | extract_lets
    | fail_if_no_progress refine Only.upd ?_
    | split
    | refine Only.ofPair (by assumption) ?_
    | intro _
    | dsimp only
    | dsimp +zetaDelta only

theorem synceLoss_only {n s} : Only [.obj, .tim, .host, .dict, .out] s (synceLoss n s) := by
  unfold synceLoss
  with_reducible repeat' first
    | exact Only.refl _
    | assumption
    | decide
    | apply Only.after refActivityLoss_only
    | apply Only.each
    | extract_lets
    | fail_if_no_progress refine Only.upd ?_
    | split
    | refine Only.ofPair (by assumption) ?_
    | intro _
    | dsimp only
    | dsimp +zetaDelta only

theorem laneStat_only {n i k s} : Only [.obj] s (laneStat n i k s) := by
  unfold laneStat
  with_reducible repeat' first
    | exact Only.refl _
    | assumption
    | decide
    | apply Only.after bumpBy_only
    | extract_lets
    | fail_if_no_progress refine Only.upd ?_
    | split
    | refine Only.ofPair (by assumption) ?_
    | intro _
    | dsimp only
    | dsimp +zetaDelta only

theorem laneEvent_only {typ cause n value s} : Only [.obj, .host, .dict, .out] s (laneEvent typ cause n value s) := by
  unfold laneEvent
  with_reducible repeat' first
    | exact Only.refl _
    | assumption
    | decide
    | apply Only.after ownerEvent_only
    | extract_lets
    | fail_if_no_progress refine Only.upd ?_
    | split
    | refine Only.ofPair (by assumption) ?_
    | intro _
    | dsimp only
    | dsimp +zetaDelta only

theorem scanEnd_only {n aborted s} : Only [.obj, .host, .dict, .links, .out] s (scanEnd n aborted s) := by
  unfold scanEnd
  with_reducible repeat' first
    | exact Only.refl _
    | assumption
    | decide
    | apply Only.after modLane_only
    | apply Only.after laneEvent_only
    | apply Only.after wr_only
    | extract_lets
    | fail_if_no_progress refine Only.upd ?_
    | split
    | refine Only.ofPair (by assumption) ?_
    | intro _
    | dsimp only
    | dsimp +zetaDelta only

theorem laneMove_only {n k due s} : Only [.obj, .tim, .host, .dict, .links, .out] s (laneMove n k due s) := by
  unfold laneMove
  with_reducible repeat' first
    | exact Only.refl _
    | assumption
    | decide
    | apply Only.after wr_only
    | apply Only.after synceLoss_only
    | apply Only.after laneStat_only
    | apply Only.after scanEnd_only
    | apply Only.after modLane_only
    | extract_lets
    | fail_if_no_progress refine Only.upd ?_
    | split
    | refine Only.ofPair (by assumption) ?_
    | intro _
    | dsimp only
    | dsimp +zetaDelta only

theorem laneOff_only {n s} : Only [.obj, .tim, .host, .dict, .links, .out] s (laneOff n s) := by
  unfold laneOff
  with_reducible repeat' first
    | exact Only.refl _
    | assumption
    | decide
    | apply Only.after laneDark_only
    | apply Only.after modLane_only
    | apply Only.after laneMove_only
    | extract_lets
    | fail_if_no_progress refine Only.upd ?_
    | split
    | refine Only.ofPair (by assumption) ?_
    | intro _
    | dsimp only
    | dsimp +zetaDelta only

theorem laneOn_only {n s} : Only [.obj, .tim, .host, .dict, .links, .out] s (laneOn n s) := by
  unfold laneOn
  with_reducible repeat' first
    | exact Only.refl _
    | assumption
    | decide
    | apply Only.after wr_only
    | apply Only.after modLane_only
    | apply Only.after laneMove_only
    | extract_lets
    | fail_if_no_progress refine Only.upd ?_
    | split
    | refine Only.ofPair (by assumption) ?_
    | intro _
    | dsimp only
    | dsimp +zetaDelta only

theorem setGuard_only {n v s} : Only [.obj] s (setGuard n v s) := by
  unfold setGuard
  with_reducible repeat' first
    | exact Only.refl _
    | assumption
    | decide
    | apply Only.after wr_only
    | extract_lets
    | fail_if_no_progress refine Only.upd ?_
    | split
    | refine Only.ofPair (by assumption) ?_
    | intro _
    | dsimp only
    | dsimp +zetaDelta only

theorem laneGuard_only {n bits s} : Only [.obj, .host, .dict, .links, .out] s (laneGuard n bits s) := by
  unfold laneGuard
  with_reducible repeat' first
    | exact Only.refl _
    | assumption
    | decide
    | apply Only.after setGuard_only
    | apply Only.after wr_only
    | apply Only.after laneEvent_only
    | apply Only.after laneStat_only
    | apply Only.after modLane_only
    | extract_lets
    | fail_if_no_progress refine Only.upd ?_
    | split
    | refine Only.ofPair (by assumption) ?_
    | intro _
    | dsimp only
    | dsimp +zetaDelta only

theorem laneContext_only {n supply s} : Only [.obj, .host, .dict, .links, .out] s (laneContext n supply s) := by
  unfold laneContext
  with_reducible repeat' first
    | exact Only.refl _
    | assumption
    | decide
    | apply Only.after laneGuard_only
    | extract_lets
    | fail_if_no_progress refine Only.upd ?_
    | split
    | refine Only.ofPair (by assumption) ?_
    | intro _
    | dsimp only
    | dsimp +zetaDelta only

theorem standbyExit_only {n supply s} : Only [.obj, .tim, .host, .dict, .links, .out] s (standbyExit n supply s) := by
  unfold standbyExit
  with_reducible repeat' first
    | exact Only.refl _
    | assumption
    | decide
    | apply Only.after laneContext_only
    | apply Only.after laneMove_only
    | apply Only.after modLane_only
    | extract_lets
    | fail_if_no_progress refine Only.upd ?_
    | split
    | refine Only.ofPair (by assumption) ?_
    | intro _
    | dsimp only
    | dsimp +zetaDelta only

theorem entryAborted_only {n s} : Only [.obj, .host, .dict, .out] s (entryAborted n s) := by
  unfold entryAborted
  with_reducible repeat' first
    | exact Only.refl _
    | assumption
    | decide
    | apply Only.after laneEvent_only
    | apply Only.after laneStat_only
    | extract_lets
    | fail_if_no_progress refine Only.upd ?_
    | split
    | refine Only.ofPair (by assumption) ?_
    | intro _
    | dsimp only
    | dsimp +zetaDelta only

theorem entryMeetsActive_only {n supply s} : Only [.obj, .tim, .host, .dict, .links, .out] s (entryMeetsActive n supply s) := by
  unfold entryMeetsActive
  with_reducible repeat' first
    | exact Only.refl _
    | assumption
    | decide
    | apply Only.after modLane_only
    | apply Only.after standbyExit_only
    | apply Only.after entryAborted_only
    | apply Only.after laneMove_only
    | extract_lets
    | fail_if_no_progress refine Only.upd ?_
    | split
    | refine Only.ofPair (by assumption) ?_
    | intro _
    | dsimp only
    | dsimp +zetaDelta only

theorem deepExit_only {n supply s} : Only [.obj, .tim, .host, .dict, .links, .out] s (deepExit n supply s) := by
  unfold deepExit
  with_reducible repeat' first
    | exact Only.refl _
    | assumption
    | decide
    | apply Only.after wr_only
    | apply Only.after laneContext_only
    | apply Only.after laneMove_only
    | apply Only.after modLane_only
    | extract_lets
    | fail_if_no_progress refine Only.upd ?_
    | split
    | refine Only.ofPair (by assumption) ?_
    | intro _
    | dsimp only
    | dsimp +zetaDelta only

theorem holdRequest_only {n v s} : Only [.links] s (holdRequest n v s) := by
  unfold holdRequest
  with_reducible repeat' first
    | exact Only.refl _
    | assumption
    | decide
    | apply Only.after modLane_only
    | extract_lets
    | fail_if_no_progress refine Only.upd ?_
    | split
    | refine Only.ofPair (by assumption) ?_
    | intro _
    | dsimp only
    | dsimp +zetaDelta only

theorem standbyEntry_only {n s} : Only [.obj, .tim, .host, .dict, .links, .out] s (standbyEntry n s) := by
  unfold standbyEntry
  with_reducible repeat' first
    | exact Only.refl _
    | assumption
    | decide
    | apply Only.after laneMove_only
    | apply Only.after modLane_only
    | extract_lets
    | fail_if_no_progress refine Only.upd ?_
    | split
    | refine Only.ofPair (by assumption) ?_
    | intro _
    | dsimp only
    | dsimp +zetaDelta only

theorem laneCapture_only {n supply s} : Only [.obj, .links] s (laneCapture n supply s) := by
  unfold laneCapture
  with_reducible repeat' first
    | exact Only.refl _
    | assumption
    | decide
    | apply Only.after wr_only
    | apply Only.after modLane_only
    | extract_lets
    | fail_if_no_progress refine Only.upd ?_
    | split
    | refine Only.ofPair (by assumption) ?_
    | intro _
    | dsimp only
    | dsimp +zetaDelta only

theorem deepEntry_only {n supply s} : Only [.obj, .tim, .host, .dict, .links, .out] s (deepEntry n supply s) := by
  unfold deepEntry
  with_reducible repeat' first
    | exact Only.refl _
    | assumption
    | decide
    | apply Only.after laneMove_only
    | apply Only.after modLane_only
    | apply Only.after laneCapture_only
    | extract_lets
    | fail_if_no_progress refine Only.upd ?_
    | split
    | refine Only.ofPair (by assumption) ?_
    | intro _
    | dsimp only
    | dsimp +zetaDelta only

theorem laneRequest_only {n v supply s t} : laneRequest n v supply s = some t → Only [.obj, .tim, .host, .dict, .links, .out] s t := by
  unfold laneRequest
  intro h
  dsimp only at h
  repeat' split at h
  all_goals first
    | cases h; done
    | skip
  all_goals
    cases h
    with_reducible repeat' first
      | exact Only.refl _
      | decide
      | apply Only.after laneOff_only
      | apply Only.after laneOn_only
      | apply Only.after modLane_only
      | apply Only.after entryMeetsActive_only
      | apply Only.after standbyExit_only
      | apply Only.after deepExit_only
      | apply Only.after holdRequest_only
      | apply Only.after standbyEntry_only
      | apply Only.after deepEntry_only
      | split

theorem wReqState_only {n v supply s} : Only [.obj, .tim, .host, .dict, .links, .out] s (wReqState n v supply s).2 := by
  unfold wReqState
  with_reducible repeat' first
    | exact Only.refl _
    | assumption
    | decide
    | apply Only.after refusedW_only
    | apply Only.after (laneRequest_only (by assumption))
    | apply Only.after accepted_only
    | apply Only.after wr_only
    | extract_lets
    | fail_if_no_progress refine Only.upd ?_
    | split
    | refine Only.ofPair (by assumption) ?_
    | intro _
    | dsimp only
    | dsimp +zetaDelta only

theorem wLaneRate_only {n v s} : Only [.obj] s (wLaneRate n v s).2 := by
  unfold wLaneRate
  with_reducible repeat' first
    | exact Only.refl _
    | assumption
    | decide
    | apply Only.after refusedW_only
    | apply Only.after wrI_only
    | apply Only.after wr_only
    | apply Only.after accepted_only
    | apply Only.each
    | extract_lets
    | fail_if_no_progress refine Only.upd ?_
    | split
    | refine Only.ofPair (by assumption) ?_
    | intro _
    | dsimp only
    | dsimp +zetaDelta only

theorem wPrecode_only {n v s} : Only [.obj] s (wPrecode n v s).2 := by
  unfold wPrecode
  with_reducible repeat' first
    | exact Only.refl _
    | assumption
    | decide
    | apply Only.after refusedW_only
    | apply Only.after accepted_only
    | apply Only.after wr_only
    | extract_lets
    | fail_if_no_progress refine Only.upd ?_
    | split
    | refine Only.ofPair (by assumption) ?_
    | intro _
    | dsimp only
    | dsimp +zetaDelta only

theorem wTestMode_only {k hi n v s} : Only [.obj] s (wTestMode k hi n v s).2 := by
  unfold wTestMode
  with_reducible repeat' first
    | exact Only.refl _
    | assumption
    | decide
    | apply Only.after refusedW_only
    | apply Only.after wr_only
    | apply Only.after accepted_only
    | extract_lets
    | fail_if_no_progress refine Only.upd ?_
    | split
    | refine Only.ofPair (by assumption) ?_
    | intro _
    | dsimp only
    | dsimp +zetaDelta only

theorem wSwing_only {n v s} : Only [.obj] s (wSwing n v s).2 := by
  unfold wSwing
  with_reducible repeat' first
    | exact Only.refl _
    | assumption
    | decide
    | apply Only.after refusedW_only
    | apply Only.after accepted_only
    | apply Only.after wr_only
    | extract_lets
    | fail_if_no_progress refine Only.upd ?_
    | split
    | refine Only.ofPair (by assumption) ?_
    | intro _
    | dsimp only
    | dsimp +zetaDelta only

theorem wTap_only {n i v s} : Only [.obj] s (wTap n i v s).2 := by
  unfold wTap
  with_reducible repeat' first
    | exact Only.refl _
    | assumption
    | decide
    | apply Only.after refusedW_only
    | apply Only.after accepted_only
    | apply Only.after wrI_only
    | apply Only.foldl
    | apply Only.foldlSnd
    | apply Only.foldlThd
    | extract_lets
    | fail_if_no_progress refine Only.upd ?_
    | split
    | refine Only.ofPair (by assumption) ?_
    | intro _
    | dsimp only
    | dsimp +zetaDelta only

theorem wCtleMode_only {n v s} : Only [.obj, .links] s (wCtleMode n v s).2 := by
  unfold wCtleMode
  with_reducible repeat' first
    | exact Only.refl _
    | assumption
    | decide
    | apply Only.after refusedW_only
    | apply Only.after wr_only
    | apply Only.after accepted_only
    | apply Only.after modLane_only
    | extract_lets
    | fail_if_no_progress refine Only.upd ?_
    | split
    | refine Only.ofPair (by assumption) ?_
    | intro _
    | dsimp only
    | dsimp +zetaDelta only

theorem wCtleCode_only {n v s} : Only [.obj, .links] s (wCtleCode n v s).2 := by
  unfold wCtleCode
  with_reducible repeat' first
    | exact Only.refl _
    | assumption
    | decide
    | apply Only.after refusedW_only
    | apply Only.after accepted_only
    | apply Only.after wr_only
    | apply Only.after modLane_only
    | extract_lets
    | fail_if_no_progress refine Only.upd ?_
    | split
    | refine Only.ofPair (by assumption) ?_
    | intro _
    | dsimp only
    | dsimp +zetaDelta only

theorem wCdrBw_only {n v s} : Only [.obj] s (wCdrBw n v s).2 := by
  unfold wCdrBw
  with_reducible repeat' first
    | exact Only.refl _
    | assumption
    | decide
    | apply Only.after refusedW_only
    | apply Only.after accepted_only
    | apply Only.after wr_only
    | extract_lets
    | fail_if_no_progress refine Only.upd ?_
    | split
    | refine Only.ofPair (by assumption) ?_
    | intro _
    | dsimp only
    | dsimp +zetaDelta only

theorem recentreBegin_only {n s} : Only [.links] s (recentreBegin n s) := by
  unfold recentreBegin
  with_reducible repeat' first
    | exact Only.refl _
    | assumption
    | decide
    | apply Only.after modLane_only
    | extract_lets
    | fail_if_no_progress refine Only.upd ?_
    | split
    | refine Only.ofPair (by assumption) ?_
    | intro _
    | dsimp only
    | dsimp +zetaDelta only

theorem wLaneRecentre_only {n v s} : Only [.links] s (wLaneRecentre n v s).2 := by
  unfold wLaneRecentre
  with_reducible repeat' first
    | exact Only.refl _
    | assumption
    | decide
    | apply Only.after refusedW_only
    | apply Only.after accepted_only
    | apply Only.after recentreBegin_only
    | extract_lets
    | fail_if_no_progress refine Only.upd ?_
    | split
    | refine Only.ofPair (by assumption) ?_
    | intro _
    | dsimp only
    | dsimp +zetaDelta only

theorem wPrbsClear_only {n v s} : Only [.obj] s (wPrbsClear n v s).2 := by
  unfold wPrbsClear
  with_reducible repeat' first
    | exact Only.refl _
    | assumption
    | decide
    | apply Only.after refusedW_only
    | apply Only.after accepted_only
    | apply Only.after wr_only
    | extract_lets
    | fail_if_no_progress refine Only.upd ?_
    | split
    | refine Only.ofPair (by assumption) ?_
    | intro _
    | dsimp only
    | dsimp +zetaDelta only

theorem wScanStart_only {n a1 s} : Only [.obj, .links] s (wScanStart n a1 s).2 := by
  unfold wScanStart
  with_reducible repeat' first
    | exact Only.refl _
    | assumption
    | decide
    | apply Only.after refusedW_only
    | apply Only.after accepted_only
    | apply Only.after wr_only
    | apply Only.after modLane_only
    | extract_lets
    | fail_if_no_progress refine Only.upd ?_
    | split
    | refine Only.ofPair (by assumption) ?_
    | intro _
    | dsimp only
    | dsimp +zetaDelta only

theorem wScanAbort_only {n v s} : Only [.obj, .host, .dict, .links, .out] s (wScanAbort n v s).2 := by
  unfold wScanAbort
  with_reducible repeat' first
    | exact Only.refl _
    | assumption
    | decide
    | apply Only.after refusedW_only
    | apply Only.after accepted_only
    | apply Only.after scanEnd_only
    | extract_lets
    | fail_if_no_progress refine Only.upd ?_
    | split
    | refine Only.ofPair (by assumption) ?_
    | intro _
    | dsimp only
    | dsimp +zetaDelta only

theorem execLaneRate_only {n v s} : Runs [.obj, .out] s (execLaneRate n v s) := by
  unfold execLaneRate
  with_reducible repeat' first
    | exact Only.refl _
    | assumption
    | decide
    | apply Runs.done
    | apply Runs.whenDue
    | apply Runs.answer
    | apply Runs.next
    | apply Runs.elim
    | apply Only.after wLaneRate_only
    | extract_lets
    | fail_if_no_progress refine Only.upd ?_
    | split
    | refine Only.ofPair (by assumption) ?_
    | intro _
    | dsimp only
    | dsimp +zetaDelta only

theorem execTxTapWrite_only {n item v s} : Runs [.obj, .out] s (execTxTapWrite n item v s) := by
  unfold execTxTapWrite
  with_reducible repeat' first
    | exact Only.refl _
    | assumption
    | decide
    | apply Runs.done
    | apply Runs.whenDue
    | apply Runs.answer
    | apply Runs.next
    | apply Runs.elim
    | apply Only.after wSwing_only
    | apply Only.after wTap_only
    | extract_lets
    | fail_if_no_progress refine Only.upd ?_
    | split
    | refine Only.ofPair (by assumption) ?_
    | intro _
    | dsimp only
    | dsimp +zetaDelta only

theorem execLaneReqActive_only {n supply s} : Runs [.obj, .tim, .host, .dict, .links, .out] s (execLaneReqActive n supply s) := by
  unfold execLaneReqActive
  with_reducible repeat' first
    | exact Only.refl _
    | assumption
    | decide
    | apply Runs.done
    | apply Runs.whenDue
    | apply Runs.answer
    | apply Runs.next
    | apply Runs.elim
    | apply Only.after wReqState_only
    | extract_lets
    | fail_if_no_progress refine Only.upd ?_
    | split
    | refine Only.ofPair (by assumption) ?_
    | intro _
    | dsimp only
    | dsimp +zetaDelta only

theorem execLaneReqStandby_only {n s} : Runs [.obj, .tim, .host, .dict, .links, .out] s (execLaneReqStandby n s) := by
  unfold execLaneReqStandby
  with_reducible repeat' first
    | exact Only.refl _
    | assumption
    | decide
    | apply Runs.done
    | apply Runs.whenDue
    | apply Runs.answer
    | apply Runs.next
    | apply Runs.elim
    | apply Only.after wReqState_only
    | extract_lets
    | fail_if_no_progress refine Only.upd ?_
    | split
    | refine Only.ofPair (by assumption) ?_
    | intro _
    | dsimp only
    | dsimp +zetaDelta only

theorem execLaneReqDeep_only {n supply s} : Runs [.obj, .tim, .host, .dict, .links, .out] s (execLaneReqDeep n supply s) := by
  unfold execLaneReqDeep
  with_reducible repeat' first
    | exact Only.refl _
    | assumption
    | decide
    | apply Runs.done
    | apply Runs.whenDue
    | apply Runs.answer
    | apply Runs.next
    | apply Runs.elim
    | apply Only.after wReqState_only
    | extract_lets
    | fail_if_no_progress refine Only.upd ?_
    | split
    | refine Only.ofPair (by assumption) ?_
    | intro _
    | dsimp only
    | dsimp +zetaDelta only

theorem execLaneReqDisabled_only {n s} : Runs [.obj, .tim, .host, .dict, .links, .out] s (execLaneReqDisabled n s) := by
  unfold execLaneReqDisabled
  with_reducible repeat' first
    | exact Only.refl _
    | assumption
    | decide
    | apply Runs.done
    | apply Runs.whenDue
    | apply Runs.answer
    | apply Runs.next
    | apply Runs.elim
    | apply Only.after wReqState_only
    | extract_lets
    | fail_if_no_progress refine Only.upd ?_
    | split
    | refine Only.ofPair (by assumption) ?_
    | intro _
    | dsimp only
    | dsimp +zetaDelta only

theorem setLinkFlag_only {n b v s} : Only [.obj] s (setLinkFlag n b v s) := by
  unfold setLinkFlag
  with_reducible repeat' first
    | exact Only.refl _
    | assumption
    | decide
    | apply Only.after wr_only
    | extract_lets
    | fail_if_no_progress refine Only.upd ?_
    | split
    | refine Only.ofPair (by assumption) ?_
    | intro _
    | dsimp only
    | dsimp +zetaDelta only

theorem heldActs_only {n supply s} : Only [.obj, .tim, .host, .dict, .links, .out] s (heldActs n supply s) := by
  unfold heldActs
  extract_lets
  split
  · exact Only.refl _
  · generalize hq : laneRequest _ _ _ _ = q
    cases q
    · exact modLane_only.mono
    · exact Only.trans modLane_only.mono (laneRequest_only hq)

theorem execLaneEntryDone_only {n supply s} : Runs [.obj, .tim, .host, .dict, .links, .out] s (execLaneEntryDone n supply s) := by
  unfold execLaneEntryDone
  with_reducible repeat' first
    | exact Only.refl _
    | assumption
    | decide
    | apply Runs.done
    | apply Runs.whenDue
    | apply Runs.answer
    | apply Runs.next
    | apply Runs.elim
    | apply Only.after laneStat_only
    | apply Only.after laneMove_only
    | apply Only.after laneDark_only
    | apply Only.after setLinkFlag_only
    | apply Only.after laneEvent_only
    | apply Only.after heldActs_only
    | extract_lets
    | fail_if_no_progress refine Only.upd ?_
    | split
    | refine Only.ofPair (by assumption) ?_
    | intro _
    | dsimp only
    | dsimp +zetaDelta only

theorem execLaneReady_only {n supply s} : Runs [.obj, .tim, .boot, .host, .dict, .links, .out] s (execLaneReady n supply s) := by
  unfold execLaneReady
  with_reducible repeat' first
    | exact Only.refl _
    | assumption
    | decide
    | apply Runs.done
    | apply Runs.whenDue
    | apply Runs.answer
    | apply Runs.next
    | apply Runs.elim
    | apply Only.after setLinkFlag_only
    | apply Only.after laneMove_only
    | apply Only.after endFlow_only
    | apply Only.after heldActs_only
    | apply Only.after laneEvent_only
    | extract_lets
    | fail_if_no_progress refine Only.upd ?_
    | split
    | refine Only.ofPair (by assumption) ?_
    | intro _
    | dsimp only
    | dsimp +zetaDelta only

theorem execLaneSignalDetect_only {n s} : Runs [.obj, .links] s (execLaneSignalDetect n s) := by
  unfold execLaneSignalDetect
  with_reducible repeat' first
    | exact Only.refl _
    | assumption
    | decide
    | apply Runs.done
    | apply Runs.whenDue
    | apply Runs.answer
    | apply Runs.next
    | apply Runs.elim
    | apply Only.after setLinkFlag_only
    | apply Only.after modLane_only
    | extract_lets
    | fail_if_no_progress refine Only.upd ?_
    | split
    | refine Only.ofPair (by assumption) ?_
    | intro _
    | dsimp only
    | dsimp +zetaDelta only

theorem execLaneLos_only {n unlock s} : Runs [.obj, .tim, .host, .dict, .links, .out] s (execLaneLos n unlock s) := by
  unfold execLaneLos
  with_reducible repeat' first
    | exact Only.refl _
    | assumption
    | decide
    | apply Runs.done
    | apply Runs.whenDue
    | apply Runs.answer
    | apply Runs.next
    | apply Runs.elim
    | apply Only.after setLinkFlag_only
    | apply Only.after laneEvent_only
    | apply Only.after laneStat_only
    | apply Only.after laneMove_only
    | apply Only.after modLane_only
    | extract_lets
    | fail_if_no_progress refine Only.upd ?_
    | split
    | refine Only.ofPair (by assumption) ?_
    | intro _
    | dsimp only
    | dsimp +zetaDelta only

theorem execDfeUpdate_only {n up down s} : Runs [.obj] s (execDfeUpdate n up down s) := by
  unfold execDfeUpdate
  with_reducible repeat' first
    | exact Only.refl _
    | assumption
    | decide
    | apply Runs.done
    | apply Runs.whenDue
    | apply Runs.answer
    | apply Runs.next
    | apply Runs.elim
    | apply Only.after wr_only
    | extract_lets
    | fail_if_no_progress refine Only.upd ?_
    | split
    | refine Only.ofPair (by assumption) ?_
    | intro _
    | dsimp only
    | dsimp +zetaDelta only

theorem execCtleVgaVisit_only {n ctle vga s} : Runs [.obj] s (execCtleVgaVisit n ctle vga s) := by
  unfold execCtleVgaVisit
  with_reducible repeat' first
    | exact Only.refl _
    | assumption
    | decide
    | apply Runs.done
    | apply Runs.whenDue
    | apply Runs.answer
    | apply Runs.next
    | apply Runs.elim
    | apply Only.after wr_only
    | extract_lets
    | fail_if_no_progress refine Only.upd ?_
    | split
    | refine Only.ofPair (by assumption) ?_
    | intro _
    | dsimp only
    | dsimp +zetaDelta only

theorem execLaneLoadWindow_only {q words s} : Runs [.obj, .links] s (execLaneLoadWindow q words s) := by
  unfold execLaneLoadWindow
  with_reducible repeat' first
    | exact Only.refl _
    | assumption
    | decide
    | apply Runs.done
    | apply Runs.whenDue
    | apply Runs.answer
    | apply Runs.next
    | apply Runs.elim
    | apply Only.after wr_only
    | apply Only.each
    | extract_lets
    | fail_if_no_progress refine Only.upd ?_
    | split
    | refine Only.ofPair (by assumption) ?_
    | intro _
    | dsimp only
    | dsimp +zetaDelta only

theorem execLaneCalCapture_only {n supply s} : Runs [.obj, .links] s (execLaneCalCapture n supply s) := by
  unfold execLaneCalCapture
  with_reducible repeat' first
    | exact Only.refl _
    | assumption
    | decide
    | apply Runs.done
    | apply Runs.whenDue
    | apply Runs.answer
    | apply Runs.next
    | apply Runs.elim
    | apply Only.after laneCapture_only
    | extract_lets
    | fail_if_no_progress refine Only.upd ?_
    | split
    | refine Only.ofPair (by assumption) ?_
    | intro _
    | dsimp only
    | dsimp +zetaDelta only

theorem execLaneContextCheck_only {n supply s} : Runs [.obj, .host, .dict, .links, .out] s (execLaneContextCheck n supply s) := by
  unfold execLaneContextCheck
  with_reducible repeat' first
    | exact Only.refl _
    | assumption
    | decide
    | apply Runs.done
    | apply Runs.whenDue
    | apply Runs.answer
    | apply Runs.next
    | apply Runs.elim
    | apply Only.after laneContext_only
    | extract_lets
    | fail_if_no_progress refine Only.upd ?_
    | split
    | refine Only.ofPair (by assumption) ?_
    | intro _
    | dsimp only
    | dsimp +zetaDelta only

theorem execLaneRecentreStart_only {n s} : Runs [.links] s (execLaneRecentreStart n s) := by
  unfold execLaneRecentreStart
  with_reducible repeat' first
    | exact Only.refl _
    | assumption
    | decide
    | apply Runs.done
    | apply Runs.whenDue
    | apply Runs.answer
    | apply Runs.next
    | apply Runs.elim
    | apply Only.after recentreBegin_only
    | extract_lets
    | fail_if_no_progress refine Only.upd ?_
    | split
    | refine Only.ofPair (by assumption) ?_
    | intro _
    | dsimp only
    | dsimp +zetaDelta only

theorem execLaneRecentreDone_only {n pass phase levels supply s} : Runs [.obj, .host, .dict, .links, .out] s (execLaneRecentreDone n pass phase levels supply s) := by
  unfold execLaneRecentreDone
  with_reducible repeat' first
    | exact Only.refl _
    | assumption
    | decide
    | apply Runs.done
    | apply Runs.whenDue
    | apply Runs.answer
    | apply Runs.next
    | apply Runs.elim
    | apply Only.after modLane_only
    | apply Only.after laneEvent_only
    | apply Only.after laneStat_only
    | apply Only.after setGuard_only
    | apply Only.after laneCapture_only
    | apply Only.after wr_only
    | extract_lets
    | fail_if_no_progress refine Only.upd ?_
    | split
    | refine Only.ofPair (by assumption) ?_
    | intro _
    | dsimp only
    | dsimp +zetaDelta only

theorem execLaneRecentre_only {n v s} : Runs [.links, .out] s (execLaneRecentre n v s) := by
  unfold execLaneRecentre
  with_reducible repeat' first
    | exact Only.refl _
    | assumption
    | decide
    | apply Runs.done
    | apply Runs.whenDue
    | apply Runs.answer
    | apply Runs.next
    | apply Runs.elim
    | apply Only.after wLaneRecentre_only
    | extract_lets
    | fail_if_no_progress refine Only.upd ?_
    | split
    | refine Only.ofPair (by assumption) ?_
    | intro _
    | dsimp only
    | dsimp +zetaDelta only

theorem execScanStart_only {n a1 s} : Runs [.obj, .links, .out] s (execScanStart n a1 s) := by
  unfold execScanStart
  with_reducible repeat' first
    | exact Only.refl _
    | assumption
    | decide
    | apply Runs.done
    | apply Runs.whenDue
    | apply Runs.answer
    | apply Runs.next
    | apply Runs.elim
    | apply Only.after wScanStart_only
    | extract_lets
    | fail_if_no_progress refine Only.upd ?_
    | split
    | refine Only.ofPair (by assumption) ?_
    | intro _
    | dsimp only
    | dsimp +zetaDelta only

theorem execScanPointDone_only {n errs s} : Runs [.obj, .host, .dict, .links, .out] s (execScanPointDone n errs s) := by
  unfold execScanPointDone
  with_reducible repeat' first
    | exact Only.refl _
    | assumption
    | decide
    | apply Runs.done
    | apply Runs.whenDue
    | apply Runs.answer
    | apply Runs.next
    | apply Runs.elim
    | apply Only.after modLane_only
    | apply Only.after scanEnd_only
    | extract_lets
    | fail_if_no_progress refine Only.upd ?_
    | split
    | refine Only.ofPair (by assumption) ?_
    | intro _
    | dsimp only
    | dsimp +zetaDelta only

theorem execScanAbort_only {n v s} : Runs [.obj, .host, .dict, .links, .out] s (execScanAbort n v s) := by
  unfold execScanAbort
  with_reducible repeat' first
    | exact Only.refl _
    | assumption
    | decide
    | apply Runs.done
    | apply Runs.whenDue
    | apply Runs.answer
    | apply Runs.next
    | apply Runs.elim
    | apply Only.after wScanAbort_only
    | extract_lets
    | fail_if_no_progress refine Only.upd ?_
    | split
    | refine Only.ofPair (by assumption) ?_
    | intro _
    | dsimp only
    | dsimp +zetaDelta only

theorem execAmLock_only {n skew s} : Runs [.obj, .host, .dict, .out] s (execAmLock n skew s) := by
  unfold execAmLock
  with_reducible repeat' first
    | exact Only.refl _
    | assumption
    | decide
    | apply Runs.done
    | apply Runs.whenDue
    | apply Runs.answer
    | apply Runs.next
    | apply Runs.elim
    | apply Only.after setLinkFlag_only
    | apply Only.after wr_only
    | apply Only.after laneEvent_only
    | extract_lets
    | fail_if_no_progress refine Only.upd ?_
    | split
    | refine Only.ofPair (by assumption) ?_
    | intro _
    | dsimp only
    | dsimp +zetaDelta only

theorem execAmLost_only {n s} : Runs [.obj, .host, .dict, .out] s (execAmLost n s) := by
  unfold execAmLost
  with_reducible repeat' first
    | exact Only.refl _
    | assumption
    | decide
    | apply Runs.done
    | apply Runs.whenDue
    | apply Runs.answer
    | apply Runs.next
    | apply Runs.elim
    | apply Only.after laneEvent_only
    | apply Only.after laneStat_only
    | apply Only.after setLinkFlag_only
    | apply Only.after wr_only
    | extract_lets
    | fail_if_no_progress refine Only.upd ?_
    | split
    | refine Only.ofPair (by assumption) ?_
    | intro _
    | dsimp only
    | dsimp +zetaDelta only

theorem execPrbsClear_only {n v s} : Runs [.obj, .out] s (execPrbsClear n v s) := by
  unfold execPrbsClear
  with_reducible repeat' first
    | exact Only.refl _
    | assumption
    | decide
    | apply Runs.done
    | apply Runs.whenDue
    | apply Runs.answer
    | apply Runs.next
    | apply Runs.elim
    | apply Only.after wPrbsClear_only
    | extract_lets
    | fail_if_no_progress refine Only.upd ?_
    | split
    | refine Only.ofPair (by assumption) ?_
    | intro _
    | dsimp only
    | dsimp +zetaDelta only

theorem execPrbsLock_only {n bits errs s} : Runs [.obj] s (execPrbsLock n bits errs s) := by
  unfold execPrbsLock
  with_reducible repeat' first
    | exact Only.refl _
    | assumption
    | decide
    | apply Runs.done
    | apply Runs.whenDue
    | apply Runs.answer
    | apply Runs.next
    | apply Runs.elim
    | apply Only.after bumpBy_only
    | apply Only.after wr_only
    | extract_lets
    | fail_if_no_progress refine Only.upd ?_
    | split
    | refine Only.ofPair (by assumption) ?_
    | intro _
    | dsimp only
    | dsimp +zetaDelta only

end Sys2Proof.Machine
end

