-- ==== Sys2Proof/Laws/OnlyMar.lean ====
section
/-!
SUPPORT. The frame of every operation of Machine/Mar.lean: the parts of the state it can change.
-/
namespace Sys2Proof.Machine

set_option Elab.async false

set_option linter.unusedTactic false
set_option linter.unreachableTactic false
set_option linter.unusedVariables false

theorem wBindSet_only {a0 slot d s} : Only [.radio] s (wBindSet a0 slot d s).2 := by
  unfold wBindSet
  with_reducible repeat' first
    | exact Only.refl _
    | assumption
    | decide
    | apply Only.after refusedW_only
    | apply Only.after accepted_only
    | apply Only.after setBind_only
    | extract_lets
    | fail_if_no_progress refine Only.upd ?_
    | split
    | refine Only.ofPair (by assumption) ?_
    | intro _
    | dsimp only
    | dsimp +zetaDelta only

theorem wResSet_only {a0 slot idx r s} : Only [.radio] s (wResSet a0 slot idx r s).2 := by
  unfold wResSet
  with_reducible repeat' first
    | exact Only.refl _
    | assumption
    | decide
    | apply Only.after refusedW_only
    | apply Only.after accepted_only
    | apply Only.after setBind_only
    | apply Only.foldl
    | apply Only.foldlSnd
    | apply Only.foldlThd
    | extract_lets
    | fail_if_no_progress refine Only.upd ?_
    | split
    | refine Only.ofPair (by assumption) ?_
    | intro _
    | dsimp only
    | dsimp +zetaDelta only

theorem wUnbind_only {a0 slot s} : Only [.obj, .radio] s (wUnbind a0 slot s).2 := by
  unfold wUnbind
  with_reducible repeat' first
    | exact Only.refl _
    | assumption
    | decide
    | apply Only.after refusedW_only
    | apply Only.after accepted_only
    | apply Only.after leaveActive_only
    | extract_lets
    | fail_if_no_progress refine Only.upd ?_
    | split
    | refine Only.ofPair (by assumption) ?_
    | intro _
    | dsimp only
    | dsimp +zetaDelta only

theorem wIdtQuota_only {a0 v s} : Only [.obj] s (wIdtQuota a0 v s).2 := by
  unfold wIdtQuota
  with_reducible repeat' first
    | exact Only.refl _
    | assumption
    | decide
    | apply Only.after refusedW_only
    | apply Only.after accepted_only
    | apply Only.after wr_only
    | apply Only.foldl
    | apply Only.foldlSnd
    | apply Only.foldlThd
    | extract_lets
    | fail_if_no_progress refine Only.upd ?_
    | split
    | refine Only.ofPair (by assumption) ?_
    | intro _
    | dsimp only
    | dsimp +zetaDelta only

theorem marGap_only {axc s} : Only [.obj, .host, .radio, .out] s (marGap axc s) := by
  unfold marGap
  with_reducible repeat' first
    | exact Only.refl _
    | assumption
    | decide
    | apply Only.after modBind_only
    | apply Only.after fnEvent_only
    | apply Only.after marCount_only
    | apply Only.each
    | extract_lets
    | fail_if_no_progress refine Only.upd ?_
    | split
    | refine Only.ofPair (by assumption) ?_
    | intro _
    | dsimp only
    | dsimp +zetaDelta only

theorem wIdtRebuild_only {buckets seed s} : Only [.obj, .radio] s (wIdtRebuild buckets seed s).2 := by
  unfold wIdtRebuild
  with_reducible repeat' first
    | exact Only.refl _
    | assumption
    | decide
    | apply Only.after refusedW_only
    | apply Only.after accepted_only
    | apply Only.after wr_only
    | apply Only.foldl
    | apply Only.foldlSnd
    | apply Only.foldlThd
    | extract_lets
    | fail_if_no_progress refine Only.upd ?_
    | split
    | refine Only.ofPair (by assumption) ?_
    | intro _
    | dsimp only
    | dsimp +zetaDelta only

theorem wBucketsMax_only {v s} : Only [.obj] s (wBucketsMax v s).2 := by
  unfold wBucketsMax
  with_reducible repeat' first
    | exact Only.refl _
    | assumption
    | decide
    | apply Only.after refusedW_only
    | apply Only.after accepted_only
    | apply Only.after wr_only
    | extract_lets
    | fail_if_no_progress refine Only.upd ?_
    | split
    | refine Only.ofPair (by assumption) ?_
    | intro _
    | dsimp only
    | dsimp +zetaDelta only

theorem writeRecord_only {x b pos r s} : Only [.obj, .host, .work, .dram, .sram, .mem, .out] s (writeRecord x b pos r s).2 := by
  unfold writeRecord
  with_reducible repeat' first
    | exact Only.refl _
    | assumption
    | decide
    | apply Only.after Chunk.put_only
    | apply Only.after poisonBuf_only
    | apply Only.each
    | extract_lets
    | fail_if_no_progress refine Only.upd ?_
    | split
    | refine Only.ofPair (by assumption) ?_
    | intro _
    | dsimp only
    | dsimp +zetaDelta only

theorem execCollect_only {m s} : Runs [.obj, .host, .dict, .work, .radio, .dram, .sram, .mem, .out] s (execCollect m s) := by
  unfold execCollect
  with_reducible repeat' first
    | exact Only.refl _
    | assumption
    | decide
    | apply Runs.done
    | apply Runs.whenDue
    | apply Runs.answer
    | apply Runs.next
    | apply Runs.elim
    | apply Only.after chunkWorked_only
    | apply Only.after endHole_only
    | apply Only.after writeRecord_only
    | apply Only.after modBind_only
    | apply Only.after Chunk.put_only
    | apply Only.foldl
    | apply Only.foldlSnd
    | apply Only.foldlThd
    | extract_lets
    | fail_if_no_progress refine Only.upd ?_
    | split
    | refine Only.ofPair (by assumption) ?_
    | intro _
    | dsimp only
    | dsimp +zetaDelta only

theorem commandResult_only {c code sid s} : Only [.obj, .host, .dict, .work, .radio, .dram, .sram, .mem, .out] s (commandResult c code sid s) := by
  unfold commandResult
  with_reducible repeat' first
    | exact Only.refl _
    | assumption
    | decide
    | apply Only.after Chunk.put_only
    | apply Only.after chunkWorked_only
    | extract_lets
    | fail_if_no_progress refine Only.upd ?_
    | split
    | refine Only.ofPair (by assumption) ?_
    | intro _
    | dsimp only
    | dsimp +zetaDelta only

theorem answerBad_only {a0 a1} : Only [.obj, .host, .dict, .work, .radio, .dram, .sram, .mem, .out] a1 (answerBad a0 a1) := by
  induction a0 generalizing a1 with
  | zero => unfold answerBad; exact Only.refl _
  | succ k ih =>
    unfold answerBad
    with_reducible repeat' first
      | exact Only.refl _
      | assumption
      | decide
      | exact Only.trans (by assumption) ih
      | apply Only.after ih
      | apply Only.after commandResult_only
      | extract_lets
      | fail_if_no_progress refine Only.upd ?_
      | split
      | dsimp only
      | dsimp +zetaDelta only

theorem execUpdate_only {m s} : Runs [.obj, .host, .dict, .work, .radio, .dram, .sram, .mem, .out] s (execUpdate m s) := by
  unfold execUpdate
  with_reducible repeat' first
    | exact Only.refl _
    | assumption
    | decide
    | apply Runs.done
    | apply Runs.whenDue
    | apply Runs.answer
    | apply Runs.next
    | apply Runs.elim
    | apply Only.after chunkWorked_only
    | apply Only.after endHole_only
    | apply Only.after modRt_only
    | apply Only.after answerBad_only
    | extract_lets
    | fail_if_no_progress refine Only.upd ?_
    | split
    | refine Only.ofPair (by assumption) ?_
    | intro _
    | dsimp only
    | dsimp +zetaDelta only

theorem execBindSet_only {a0 slot d s} : Runs [.radio, .out] s (execBindSet a0 slot d s) := by
  unfold execBindSet
  with_reducible repeat' first
    | exact Only.refl _
    | assumption
    | decide
    | apply Runs.done
    | apply Runs.whenDue
    | apply Runs.answer
    | apply Runs.next
    | apply Runs.elim
    | apply Only.after wBindSet_only
    | extract_lets
    | fail_if_no_progress refine Only.upd ?_
    | split
    | refine Only.ofPair (by assumption) ?_
    | intro _
    | dsimp only
    | dsimp +zetaDelta only

theorem execUnbind_only {a0 slot s} : Runs [.obj, .radio, .out] s (execUnbind a0 slot s) := by
  unfold execUnbind
  with_reducible repeat' first
    | exact Only.refl _
    | assumption
    | decide
    | apply Runs.done
    | apply Runs.whenDue
    | apply Runs.answer
    | apply Runs.next
    | apply Runs.elim
    | apply Only.after wUnbind_only
    | extract_lets
    | fail_if_no_progress refine Only.upd ?_
    | split
    | refine Only.ofPair (by assumption) ?_
    | intro _
    | dsimp only
    | dsimp +zetaDelta only

theorem execResSet_only {a0 slot idx r s} : Runs [.radio, .out] s (execResSet a0 slot idx r s) := by
  unfold execResSet
  with_reducible repeat' first
    | exact Only.refl _
    | assumption
    | decide
    | apply Runs.done
    | apply Runs.whenDue
    | apply Runs.answer
    | apply Runs.next
    | apply Runs.elim
    | apply Only.after wResSet_only
    | extract_lets
    | fail_if_no_progress refine Only.upd ?_
    | split
    | refine Only.ofPair (by assumption) ?_
    | intro _
    | dsimp only
    | dsimp +zetaDelta only

theorem setChan_only {n c v s} : Only [.radio] s (setChan n c v s) := by
  unfold setChan
  with_reducible repeat' first
    | exact Only.refl _
    | assumption
    | decide
    | apply Only.after modBind_only
    | extract_lets
    | fail_if_no_progress refine Only.upd ?_
    | split
    | refine Only.ofPair (by assumption) ?_
    | intro _
    | dsimp only
    | dsimp +zetaDelta only

theorem execPreambleDetect_only {a0 slot c s} : Runs [.obj, .radio] s (execPreambleDetect a0 slot c s) := by
  unfold execPreambleDetect
  with_reducible repeat' first
    | exact Only.refl _
    | assumption
    | decide
    | apply Runs.done
    | apply Runs.whenDue
    | apply Runs.answer
    | apply Runs.next
    | apply Runs.elim
    | apply Only.after marCount_only
    | apply Only.after setChan_only
    | extract_lets
    | fail_if_no_progress refine Only.upd ?_
    | split
    | refine Only.ofPair (by assumption) ?_
    | intro _
    | dsimp only
    | dsimp +zetaDelta only

theorem declareBurst_only {x s} : Only [.obj, .radio] s (declareBurst x s) := by
  unfold declareBurst
  with_reducible repeat' first
    | exact Only.refl _
    | assumption
    | decide
    | apply Only.after marCount_only
    | extract_lets
    | fail_if_no_progress refine Only.upd ?_
    | split
    | refine Only.ofPair (by assumption) ?_
    | intro _
    | dsimp only
    | dsimp +zetaDelta only

theorem execSfdMatch_only {a0 slot c window start cfo s} : Runs [.obj, .radio] s (execSfdMatch a0 slot c window start cfo s) := by
  unfold execSfdMatch
  with_reducible repeat' first
    | exact Only.refl _
    | assumption
    | decide
    | apply Runs.done
    | apply Runs.whenDue
    | apply Runs.answer
    | apply Runs.next
    | apply Runs.elim
    | apply Only.after marCount_only
    | apply Only.after setChan_only
    | apply Only.after declareBurst_only
    | extract_lets
    | fail_if_no_progress refine Only.upd ?_
    | split
    | refine Only.ofPair (by assumption) ?_
    | intro _
    | dsimp only
    | dsimp +zetaDelta only

theorem execPreTimeout_only {a0 slot c s} : Runs [.obj, .radio] s (execPreTimeout a0 slot c s) := by
  unfold execPreTimeout
  with_reducible repeat' first
    | exact Only.refl _
    | assumption
    | decide
    | apply Runs.done
    | apply Runs.whenDue
    | apply Runs.answer
    | apply Runs.next
    | apply Runs.elim
    | apply Only.after marCount_only
    | apply Only.after setChan_only
    | extract_lets
    | fail_if_no_progress refine Only.upd ?_
    | split
    | refine Only.ofPair (by assumption) ?_
    | intro _
    | dsimp only
    | dsimp +zetaDelta only

theorem setIdt_only {new a1 s} : Only [.radio] s (setIdt new a1 s) := by
  unfold setIdt
  with_reducible repeat' first
    | exact Only.refl _
    | assumption
    | decide
    | extract_lets
    | fail_if_no_progress refine Only.upd ?_
    | split
    | refine Only.ofPair (by assumption) ?_
    | intro _
    | dsimp only
    | dsimp +zetaDelta only

theorem hitStats_only {a0 ns key source start cfo rssi s} : Only [.radio] s (hitStats a0 ns key source start cfo rssi s) := by
  unfold hitStats
  with_reducible repeat' first
    | exact Only.refl _
    | assumption
    | decide
    | apply Only.after setIdt_only
    | extract_lets
    | fail_if_no_progress refine Only.upd ?_
    | split
    | refine Only.ofPair (by assumption) ?_
    | intro _
    | dsimp only
    | dsimp +zetaDelta only

theorem appendRecord_only {n head sid user payload s} : Only [.obj, .host, .radio, .dram, .out] s (appendRecord n head sid user payload s) := by
  unfold appendRecord
  with_reducible repeat' first
    | exact Only.refl _
    | assumption
    | decide
    | apply Only.after marCount_only
    | apply Only.after setBind_only
    | apply Only.after fnEvent_only
    | apply Only.after clearLinePoison_only
    | apply Only.each
    | extract_lets
    | fail_if_no_progress refine Only.upd ?_
    | split
    | refine Only.ofPair (by assumption) ?_
    | intro _
    | dsimp only
    | dsimp +zetaDelta only

theorem recordBurst_only {x head payload s} : Only [.obj, .host, .radio, .dram, .out] s (recordBurst x head payload s) := by
  unfold recordBurst
  with_reducible repeat' first
    | exact Only.refl _
    | assumption
    | decide
    | apply Only.after hitStats_only
    | apply Only.after appendRecord_only
    | apply Only.after marCount_only
    | apply Only.after settleBinding_only
    | extract_lets
    | fail_if_no_progress refine Only.upd ?_
    | split
    | refine Only.ofPair (by assumption) ?_
    | intro _
    | dsimp only
    | dsimp +zetaDelta only

theorem settleBurst_only {k s} : Only [.obj, .host, .radio, .dram, .out] s (settleBurst k s) := by
  unfold settleBurst
  with_reducible repeat' first
    | exact Only.refl _
    | assumption
    | decide
    | apply Only.after recordBurst_only
    | extract_lets
    | fail_if_no_progress refine Only.upd ?_
    | split
    | refine Only.ofPair (by assumption) ?_
    | intro _
    | dsimp only
    | dsimp +zetaDelta only

theorem modBurst_only {k f s} : Only [.radio] s (modBurst k f s) := by
  unfold modBurst
  with_reducible repeat' first
    | exact Only.refl _
    | assumption
    | decide
    | extract_lets
    | fail_if_no_progress refine Only.upd ?_
    | split
    | refine Only.ofPair (by assumption) ?_
    | intro _
    | dsimp only
    | dsimp +zetaDelta only

theorem execPhrDecided_only {a0 slot c phr s} : Runs [.obj, .host, .radio, .dram, .out, .freeCtr] s (execPhrDecided a0 slot c phr s) := by
  unfold execPhrDecided
  with_reducible repeat' first
    | exact Only.refl _
    | assumption
    | decide
    | apply Runs.done
    | apply Runs.whenDue
    | apply Runs.answer
    | apply Runs.next
    | apply Runs.elim
    | apply Only.after pick_only
    | apply Only.after settleBurst_only
    | apply Only.after modBurst_only
    | apply Only.after setChan_only
    | extract_lets
    | fail_if_no_progress refine Only.upd ?_
    | split
    | refine Only.ofPair (by assumption) ?_
    | intro _
    | dsimp only
    | dsimp +zetaDelta only

theorem queueLookup_only {k m key s} : Only [.obj, .host, .radio, .dram, .out] s (queueLookup k m key s) := by
  unfold queueLookup
  with_reducible repeat' first
    | exact Only.refl _
    | assumption
    | decide
    | apply Only.after peak_only
    | apply Only.after modBurst_only
    | apply Only.after settleBurst_only
    | extract_lets
    | fail_if_no_progress refine Only.upd ?_
    | split
    | refine Only.ofPair (by assumption) ?_
    | intro _
    | dsimp only
    | dsimp +zetaDelta only

theorem execKeyDecided_only {a0 slot c octets s} : Runs [.obj, .host, .radio, .dram, .out] s (execKeyDecided a0 slot c octets s) := by
  unfold execKeyDecided
  with_reducible repeat' first
    | exact Only.refl _
    | assumption
    | decide
    | apply Runs.done
    | apply Runs.whenDue
    | apply Runs.answer
    | apply Runs.next
    | apply Runs.elim
    | apply Only.after queueLookup_only
    | extract_lets
    | fail_if_no_progress refine Only.upd ?_
    | split
    | refine Only.ofPair (by assumption) ?_
    | intro _
    | dsimp only
    | dsimp +zetaDelta only

theorem execFrameEnd_only {a0 slot c data fcsOk rssi snr mse s} : Runs [.obj, .host, .radio, .dram, .out] s (execFrameEnd a0 slot c data fcsOk rssi snr mse s) := by
  unfold execFrameEnd
  with_reducible repeat' first
    | exact Only.refl _
    | assumption
    | decide
    | apply Runs.done
    | apply Runs.whenDue
    | apply Runs.answer
    | apply Runs.next
    | apply Runs.elim
    | apply Only.after settleBurst_only
    | apply Only.after modBurst_only
    | apply Only.after setChan_only
    | extract_lets
    | fail_if_no_progress refine Only.upd ?_
    | split
    | refine Only.ofPair (by assumption) ?_
    | intro _
    | dsimp only
    | dsimp +zetaDelta only

theorem declareCand_only {n idx b r start x s} : Only [.obj, .host, .radio, .dram, .out] s (declareCand n idx b r start x s) := by
  unfold declareCand
  with_reducible repeat' first
    | exact Only.refl _
    | assumption
    | decide
    | apply Only.after queueLookup_only
    | apply Only.after marCount_only
    | apply Only.after declareBurst_only
    | extract_lets
    | fail_if_no_progress refine Only.upd ?_
    | split
    | refine Only.ofPair (by assumption) ?_
    | intro _
    | dsimp only
    | dsimp +zetaDelta only

theorem occasionOver_only {n idx b r start cands s} : Only [.obj, .host, .radio, .dram, .out] s (occasionOver n idx b r start cands s) := by
  unfold occasionOver
  with_reducible repeat' first
    | exact Only.refl _
    | assumption
    | decide
    | apply Only.after marCount_only
    | apply Only.after declareCand_only
    | apply Only.after modBind_only
    | apply Only.each
    | extract_lets
    | fail_if_no_progress refine Only.upd ?_
    | split
    | refine Only.ofPair (by assumption) ?_
    | intro _
    | dsimp only
    | dsimp +zetaDelta only

theorem execOccasionEnd_only {a0 slot idx cands s} : Runs [.obj, .host, .radio, .dram, .out] s (execOccasionEnd a0 slot idx cands s) := by
  unfold execOccasionEnd
  with_reducible repeat' first
    | exact Only.refl _
    | assumption
    | decide
    | apply Runs.done
    | apply Runs.whenDue
    | apply Runs.answer
    | apply Runs.next
    | apply Runs.elim
    | apply Only.after occasionOver_only
    | extract_lets
    | fail_if_no_progress refine Only.upd ?_
    | split
    | refine Only.ofPair (by assumption) ?_
    | intro _
    | dsimp only
    | dsimp +zetaDelta only

theorem countEntries_only {a0 s} : Only [.obj] s (countEntries a0 s) := by
  unfold countEntries
  with_reducible repeat' first
    | exact Only.refl _
    | assumption
    | decide
    | apply Only.after wr_only
    | extract_lets
    | fail_if_no_progress refine Only.upd ?_
    | split
    | refine Only.ofPair (by assumption) ?_
    | intro _
    | dsimp only
    | dsimp +zetaDelta only

theorem loseLines_only {m new b s} : Only [.obj, .host, .dict, .radio, .dram, .out] s (loseLines m new b s).2 := by
  unfold loseLines
  with_reducible repeat' first
    | exact Only.refl _
    | assumption
    | decide
    | apply Only.after clearLinePoison_only
    | apply Only.after setIdt_only
    | apply Only.after countEntries_only
    | apply Only.after bumpBy_only
    | apply Only.after ownerEvent_only
    | apply Only.each
    | extract_lets
    | fail_if_no_progress refine Only.upd ?_
    | split
    | refine Only.ofPair (by assumption) ?_
    | intro _
    | dsimp only
    | dsimp +zetaDelta only

theorem probe_only {m new a2 ns key s} : Only [.obj, .host, .dict, .radio, .dram, .out] s (probe m new a2 ns key s).2 := by
  unfold probe
  with_reducible repeat' first
    | exact Only.refl _
    | assumption
    | decide
    | apply Only.after loseLines_only
    | apply Only.foldl
    | apply Only.foldlSnd
    | apply Only.foldlThd
    | extract_lets
    | fail_if_no_progress refine Only.upd ?_
    | split
    | refine Only.ofPair (by assumption) ?_
    | intro _
    | dsimp only
    | dsimp +zetaDelta only

theorem lookup_only {m a1 ns key s} : Only [.obj, .host, .dict, .radio, .dram, .out] s (lookup m a1 ns key s).2 := by
  unfold lookup
  with_reducible repeat' first
    | exact Only.refl _
    | assumption
    | decide
    | apply Only.after probe_only
    | extract_lets
    | fail_if_no_progress refine Only.upd ?_
    | split
    | refine Only.ofPair (by assumption) ?_
    | intro _
    | dsimp only
    | dsimp +zetaDelta only

theorem execLookupDone_only {m s} : Runs [.obj, .host, .dict, .radio, .dram, .out] s (execLookupDone m s) := by
  unfold execLookupDone
  with_reducible repeat' first
    | exact Only.refl _
    | assumption
    | decide
    | apply Runs.done
    | apply Runs.whenDue
    | apply Runs.answer
    | apply Runs.next
    | apply Runs.elim
    | apply Only.after lookup_only
    | apply Only.after marCount_only
    | apply Only.after settleBurst_only
    | apply Only.after modBurst_only
    | extract_lets
    | fail_if_no_progress refine Only.upd ?_
    | split
    | refine Only.ofPair (by assumption) ?_
    | intro _
    | dsimp only
    | dsimp +zetaDelta only

theorem execLookupDeadline_only {m s} : Runs [.obj, .host, .radio, .dram, .out] s (execLookupDeadline m s) := by
  unfold execLookupDeadline
  with_reducible repeat' first
    | exact Only.refl _
    | assumption
    | decide
    | apply Runs.done
    | apply Runs.whenDue
    | apply Runs.answer
    | apply Runs.next
    | apply Runs.elim
    | apply Only.after settleBurst_only
    | apply Only.after modBurst_only
    | apply Only.each
    | extract_lets
    | fail_if_no_progress refine Only.upd ?_
    | split
    | refine Only.ofPair (by assumption) ?_
    | intro _
    | dsimp only
    | dsimp +zetaDelta only

theorem sequenced_only {op f s} (h0 : ∀ a0 a1 a2, Only [.obj, .host, .dict, .work, .radio, .dram, .sram, .mem, .out] a2 (f a0 a1 a2).2) : Runs [.obj, .host, .dict, .work, .radio, .dram, .sram, .mem, .out] s (sequenced op f s) := by
  unfold sequenced
  with_reducible repeat' first
    | exact Only.refl _
    | assumption
    | decide
    | apply Runs.done
    | apply Runs.whenDue
    | apply Runs.answer
    | apply Runs.next
    | apply Runs.elim
    | apply Only.after bump_only
    | apply Only.after answerBad_only
    | apply Only.after commandResult_only
    | apply Only.after countEntries_only
    | apply Only.after (h0 _ _ _)
    | extract_lets
    | fail_if_no_progress refine Only.upd ?_
    | split
    | refine Only.ofPair (by assumption) ?_
    | intro _
    | dsimp only
    | dsimp +zetaDelta only

theorem writeBack_only {e s} : Only [.radio] s (writeBack e s).2 := by
  unfold writeBack
  with_reducible repeat' first
    | exact Only.refl _
    | assumption
    | decide
    | apply Only.after setIdt_only
    | extract_lets
    | fail_if_no_progress refine Only.upd ?_
    | split
    | refine Only.ofPair (by assumption) ?_
    | intro _
    | dsimp only
    | dsimp +zetaDelta only

theorem insertDo_only {a0 c s} : Only [.obj, .radio] s (insertDo a0 c s).2 := by
  unfold insertDo
  with_reducible repeat' first
    | exact Only.refl _
    | assumption
    | decide
    | apply Only.after writeBack_only
    | apply Only.after setIdt_only
    | apply Only.after countSids_only
    | extract_lets
    | fail_if_no_progress refine Only.upd ?_
    | split
    | refine Only.ofPair (by assumption) ?_
    | intro _
    | dsimp only
    | dsimp +zetaDelta only

theorem execInsert_only {s} : Runs [.obj, .host, .dict, .work, .radio, .dram, .sram, .mem, .out] s (execInsert s) := by
  unfold execInsert
  with_reducible repeat' first
    | exact Only.refl _
    | assumption
    | decide
    | apply Runs.done
    | apply Runs.whenDue
    | apply Runs.answer
    | apply Runs.next
    | apply Runs.elim
    | apply Runs.after (sequenced_only ?_)
    | apply Only.after insertDo_only
    | extract_lets
    | fail_if_no_progress refine Only.upd ?_
    | split
    | refine Only.ofPair (by assumption) ?_
    | intro _
    | dsimp only
    | dsimp +zetaDelta only

theorem bySid_only {a0 c f s} (h0 : ∀ a0 a1, Only [.obj, .host, .dict, .work, .radio, .dram, .sram, .mem, .out] a1 (f a0 a1).2) : Only [.obj, .host, .dict, .work, .radio, .dram, .sram, .mem, .out] s (bySid a0 c f s).2 := by
  unfold bySid
  with_reducible repeat' first
    | exact Only.refl _
    | assumption
    | decide
    | apply Only.after (h0 _ _)
    | extract_lets
    | fail_if_no_progress refine Only.upd ?_
    | split
    | refine Only.ofPair (by assumption) ?_
    | intro _
    | dsimp only
    | dsimp +zetaDelta only

theorem replaceEntry_only {e s} : Only [.radio] s (replaceEntry e s).2 := by
  unfold replaceEntry
  with_reducible repeat' first
    | exact Only.refl _
    | assumption
    | decide
    | apply Only.after writeBack_only
    | extract_lets
    | fail_if_no_progress refine Only.upd ?_
    | split
    | refine Only.ofPair (by assumption) ?_
    | intro _
    | dsimp only
    | dsimp +zetaDelta only

theorem execSetUser_only {s} : Runs [.obj, .host, .dict, .work, .radio, .dram, .sram, .mem, .out] s (execSetUser s) := by
  unfold execSetUser
  with_reducible repeat' first
    | exact Only.refl _
    | assumption
    | decide
    | apply Runs.done
    | apply Runs.whenDue
    | apply Runs.answer
    | apply Runs.next
    | apply Runs.elim
    | apply Runs.after (sequenced_only ?_)
    | apply Only.after (bySid_only ?_)
    | apply Only.after replaceEntry_only
    | extract_lets
    | fail_if_no_progress refine Only.upd ?_
    | split
    | refine Only.ofPair (by assumption) ?_
    | intro _
    | dsimp only
    | dsimp +zetaDelta only

theorem deleteEntry_only {e s} : Only [.obj, .radio] s (deleteEntry e s).2 := by
  unfold deleteEntry
  with_reducible repeat' first
    | exact Only.refl _
    | assumption
    | decide
    | apply Only.after setIdt_only
    | apply Only.after countSids_only
    | extract_lets
    | fail_if_no_progress refine Only.upd ?_
    | split
    | refine Only.ofPair (by assumption) ?_
    | intro _
    | dsimp only
    | dsimp +zetaDelta only

theorem deleteKeyDo_only {a0 c s} : Only [.obj, .radio] s (deleteKeyDo a0 c s).2 := by
  unfold deleteKeyDo
  with_reducible repeat' first
    | exact Only.refl _
    | assumption
    | decide
    | apply Only.after deleteEntry_only
    | extract_lets
    | fail_if_no_progress refine Only.upd ?_
    | split
    | refine Only.ofPair (by assumption) ?_
    | intro _
    | dsimp only
    | dsimp +zetaDelta only

theorem execDeleteKey_only {s} : Runs [.obj, .host, .dict, .work, .radio, .dram, .sram, .mem, .out] s (execDeleteKey s) := by
  unfold execDeleteKey
  with_reducible repeat' first
    | exact Only.refl _
    | assumption
    | decide
    | apply Runs.done
    | apply Runs.whenDue
    | apply Runs.answer
    | apply Runs.next
    | apply Runs.elim
    | apply Runs.after (sequenced_only ?_)
    | apply Only.after deleteKeyDo_only
    | extract_lets
    | fail_if_no_progress refine Only.upd ?_
    | split
    | refine Only.ofPair (by assumption) ?_
    | intro _
    | dsimp only
    | dsimp +zetaDelta only

theorem execDeleteId_only {s} : Runs [.obj, .host, .dict, .work, .radio, .dram, .sram, .mem, .out] s (execDeleteId s) := by
  unfold execDeleteId
  with_reducible repeat' first
    | exact Only.refl _
    | assumption
    | decide
    | apply Runs.done
    | apply Runs.whenDue
    | apply Runs.answer
    | apply Runs.next
    | apply Runs.elim
    | apply Runs.after (sequenced_only ?_)
    | apply Only.after (bySid_only ?_)
    | apply Only.after deleteEntry_only
    | extract_lets
    | fail_if_no_progress refine Only.upd ?_
    | split
    | refine Only.ofPair (by assumption) ?_
    | intro _
    | dsimp only
    | dsimp +zetaDelta only

theorem execBlock_only {s} : Runs [.obj, .host, .dict, .work, .radio, .dram, .sram, .mem, .out] s (execBlock s) := by
  unfold execBlock
  with_reducible repeat' first
    | exact Only.refl _
    | assumption
    | decide
    | apply Runs.done
    | apply Runs.whenDue
    | apply Runs.answer
    | apply Runs.next
    | apply Runs.elim
    | apply Runs.after (sequenced_only ?_)
    | apply Only.after (bySid_only ?_)
    | apply Only.after replaceEntry_only
    | extract_lets
    | fail_if_no_progress refine Only.upd ?_
    | split
    | refine Only.ofPair (by assumption) ?_
    | intro _
    | dsimp only
    | dsimp +zetaDelta only

theorem execUnblock_only {s} : Runs [.obj, .host, .dict, .work, .radio, .dram, .sram, .mem, .out] s (execUnblock s) := by
  unfold execUnblock
  with_reducible repeat' first
    | exact Only.refl _
    | assumption
    | decide
    | apply Runs.done
    | apply Runs.whenDue
    | apply Runs.answer
    | apply Runs.next
    | apply Runs.elim
    | apply Runs.after (sequenced_only ?_)
    | apply Only.after (bySid_only ?_)
    | apply Only.after replaceEntry_only
    | extract_lets
    | fail_if_no_progress refine Only.upd ?_
    | split
    | refine Only.ofPair (by assumption) ?_
    | intro _
    | dsimp only
    | dsimp +zetaDelta only

theorem execIdtRebuild_only {buckets seed s} : Runs [.obj, .radio, .out] s (execIdtRebuild buckets seed s) := by
  unfold execIdtRebuild
  with_reducible repeat' first
    | exact Only.refl _
    | assumption
    | decide
    | apply Runs.done
    | apply Runs.whenDue
    | apply Runs.answer
    | apply Runs.next
    | apply Runs.elim
    | apply Only.after wIdtRebuild_only
    | extract_lets
    | fail_if_no_progress refine Only.upd ?_
    | split
    | refine Only.ofPair (by assumption) ?_
    | intro _
    | dsimp only
    | dsimp +zetaDelta only

theorem copyEntries_only {a0 a1} : Only [.radio] a1 (copyEntries a0 a1).2 := by
  induction a0 generalizing a1 with
  | nil => unfold copyEntries; exact Only.refl _
  | cons e r ih =>
    unfold copyEntries
    split
    · exact ih
    · split
      · exact Only.trans setIdt_only.mono ih
      · exact Only.refl _

theorem migrateStep_only {s} : Only [.obj, .host, .dict, .radio, .dram, .out] s (migrateStep s) := by
  unfold migrateStep
  with_reducible repeat' first
    | exact Only.refl _
    | assumption
    | decide
    | apply Only.after loseLines_only
    | apply Only.after copyEntries_only
    | apply Only.after ownerEvent_only
    | apply Only.after wr_only
    | extract_lets
    | fail_if_no_progress refine Only.upd ?_
    | split
    | refine Only.ofPair (by assumption) ?_
    | intro _
    | dsimp only
    | dsimp +zetaDelta only

theorem execIdtMigrateStep_only {s} : Runs [.obj, .host, .dict, .radio, .dram, .out] s (execIdtMigrateStep s) := by
  unfold execIdtMigrateStep
  with_reducible repeat' first
    | exact Only.refl _
    | assumption
    | decide
    | apply Runs.done
    | apply Runs.whenDue
    | apply Runs.answer
    | apply Runs.next
    | apply Runs.elim
    | apply Only.after migrateStep_only
    | extract_lets
    | fail_if_no_progress refine Only.upd ?_
    | split
    | refine Only.ofPair (by assumption) ?_
    | intro _
    | dsimp only
    | dsimp +zetaDelta only

theorem execIdtSwap_only {s} : Runs [.obj, .host, .dict, .radio, .out] s (execIdtSwap s) := by
  unfold execIdtSwap
  with_reducible repeat' first
    | exact Only.refl _
    | assumption
    | decide
    | apply Runs.done
    | apply Runs.whenDue
    | apply Runs.answer
    | apply Runs.next
    | apply Runs.elim
    | apply Only.after ownerEvent_only
    | apply Only.after wr_only
    | extract_lets
    | fail_if_no_progress refine Only.upd ?_
    | split
    | refine Only.ofPair (by assumption) ?_
    | intro _
    | dsimp only
    | dsimp +zetaDelta only

theorem execIdtStallRetry_only {s} : Runs [.obj, .host, .dict, .radio, .dram, .out] s (execIdtStallRetry s) := by
  unfold execIdtStallRetry
  with_reducible repeat' first
    | exact Only.refl _
    | assumption
    | decide
    | apply Runs.done
    | apply Runs.whenDue
    | apply Runs.answer
    | apply Runs.next
    | apply Runs.elim
    | apply Only.after migrateStep_only
    | extract_lets
    | fail_if_no_progress refine Only.upd ?_
    | split
    | refine Only.ofPair (by assumption) ?_
    | intro _
    | dsimp only
    | dsimp +zetaDelta only

theorem execSidQuarantineExpiry_only {s} : Runs [.obj, .radio] s (execSidQuarantineExpiry s) := by
  unfold execSidQuarantineExpiry
  with_reducible repeat' first
    | exact Only.refl _
    | assumption
    | decide
    | apply Runs.done
    | apply Runs.whenDue
    | apply Runs.answer
    | apply Runs.next
    | apply Runs.elim
    | apply Only.after settleSids_only
    | extract_lets
    | fail_if_no_progress refine Only.upd ?_
    | split
    | refine Only.ofPair (by assumption) ?_
    | intro _
    | dsimp only
    | dsimp +zetaDelta only

theorem execSequencerHandover_only {s} : Runs [.obj] s (execSequencerHandover s) := by
  unfold execSequencerHandover
  with_reducible repeat' first
    | exact Only.refl _
    | assumption
    | decide
    | apply Runs.done
    | apply Runs.whenDue
    | apply Runs.answer
    | apply Runs.next
    | apply Runs.elim
    | apply Only.after wr_only
    | extract_lets
    | fail_if_no_progress refine Only.upd ?_
    | split
    | refine Only.ofPair (by assumption) ?_
    | intro _
    | dsimp only
    | dsimp +zetaDelta only

theorem execBucketsMax_only {v s} : Runs [.obj, .out] s (execBucketsMax v s) := by
  unfold execBucketsMax
  with_reducible repeat' first
    | exact Only.refl _
    | assumption
    | decide
    | apply Runs.done
    | apply Runs.whenDue
    | apply Runs.answer
    | apply Runs.next
    | apply Runs.elim
    | apply Only.after wBucketsMax_only
    | extract_lets
    | fail_if_no_progress refine Only.upd ?_
    | split
    | refine Only.ofPair (by assumption) ?_
    | intro _
    | dsimp only
    | dsimp +zetaDelta only

theorem marGapEnd_only {axc s} : Only [.radio] s (marGapEnd axc s) := by
  unfold marGapEnd
  with_reducible repeat' first
    | exact Only.refl _
    | assumption
    | decide
    | apply Only.after modBind_only
    | apply Only.each
    | extract_lets
    | fail_if_no_progress refine Only.upd ?_
    | split
    | refine Only.ofPair (by assumption) ?_
    | intro _
    | dsimp only
    | dsimp +zetaDelta only

theorem execCollectCutoff_only {s} : Runs [.obj, .work] s (execCollectCutoff s) := by
  unfold execCollectCutoff
  with_reducible repeat' first
    | exact Only.refl _
    | assumption
    | decide
    | apply Runs.done
    | apply Runs.whenDue
    | apply Runs.answer
    | apply Runs.next
    | apply Runs.elim
    | apply Only.after wake_only
    | extract_lets
    | fail_if_no_progress refine Only.upd ?_
    | split
    | refine Only.ofPair (by assumption) ?_
    | intro _
    | dsimp only
    | dsimp +zetaDelta only

end Sys2Proof.Machine
end

