-- ==== Sys2Proof/Laws/OnlyFrames.lean ====
section
/-!
SUPPORT. The frame of every operation of Machine/Frames.lean: the parts of the state it can change.
-/
namespace Sys2Proof.Machine

set_option Elab.async false

set_option linter.unusedTactic false
set_option linter.unreachableTactic false
set_option linter.unusedVariables false

theorem sendEcpri_only {a0 kind msg s} : Only [.out, .freeCtr] s (sendEcpri a0 kind msg s) := by
  unfold sendEcpri
  with_reducible repeat' first
    | exact Only.refl _
    | assumption
    | decide
    | apply Only.after send_only
    | apply Only.after draw_only
    | extract_lets
    | fail_if_no_progress refine Only.upd ?_
    | split
    | refine Only.ofPair (by assumption) ?_
    | intro _
    | dsimp only
    | dsimp +zetaDelta only

theorem sendStream_only {a0 kind typ eaxc body s} : Only [.links, .out, .freeCtr] s (sendStream a0 kind typ eaxc body s) := by
  unfold sendStream
  with_reducible repeat' first
    | exact Only.refl _
    | assumption
    | decide
    | apply Only.after sendEcpri_only
    | extract_lets
    | fail_if_no_progress refine Only.upd ?_
    | split
    | refine Only.ofPair (by assumption) ?_
    | intro _
    | dsimp only
    | dsimp +zetaDelta only

end Sys2Proof.Machine
end

