-- ==== Sys2Proof/Laws/OnlyPorts.lean ====
section
/-!
SUPPORT. The frame of every operation of Machine/Ports.lean: the parts of the state it can change.
-/
namespace Sys2Proof.Machine

set_option Elab.async false

set_option linter.unusedTactic false
set_option linter.unreachableTactic false
set_option linter.unusedVariables false

theorem wAxcBind_only {a0 d s} : Only [.work, .radio, .links] s (wAxcBind a0 d s).2 := by
  unfold wAxcBind
  with_reducible repeat' first
    | exact Only.refl _
    | assumption
    | decide
    | apply Only.after refusedW_only
    | apply Only.after accepted_only
    | extract_lets
    | fail_if_no_progress refine Only.upd ?_
    | split
    | refine Only.ofPair (by assumption) ?_
    | intro _
    | dsimp only
    | dsimp +zetaDelta only

theorem portEvent_only {cause a1 count s} : Only [.obj, .host, .dict, .out] s (portEvent cause a1 count s) := by
  unfold portEvent
  with_reducible repeat' first
    | exact Only.refl _
    | assumption
    | decide
    | apply Only.after ownerEvent_only
    | extract_lets
    | fail_if_no_progress refine Only.upd ?_
    | split
    | refine Only.ofPair (by assumption) ?_
    | intro _
    | dsimp only
    | dsimp +zetaDelta only

theorem portDown_only {a0 lost s} : Only [.obj, .host, .dict, .radio, .out] s (portDown a0 lost s) := by
  unfold portDown
  with_reducible repeat' first
    | exact Only.refl _
    | assumption
    | decide
    | apply Only.after portEvent_only
    | apply Only.after marGap_only
    | apply Only.after wr_only
    | apply Only.each
    | extract_lets
    | fail_if_no_progress refine Only.upd ?_
    | split
    | refine Only.ofPair (by assumption) ?_
    | intro _
    | dsimp only
    | dsimp +zetaDelta only

theorem portModeSet_only {a0 v s} : Only [.obj, .host, .dict, .radio, .out] s (portModeSet a0 v s).2 := by
  unfold portModeSet
  with_reducible repeat' first
    | exact Only.refl _
    | assumption
    | decide
    | apply Only.after refusedW_only
    | apply Only.after wr_only
    | apply Only.after portDown_only
    | apply Only.after accepted_only
    | apply Only.each
    | extract_lets
    | fail_if_no_progress refine Only.upd ?_
    | split
    | refine Only.ofPair (by assumption) ?_
    | intro _
    | dsimp only
    | dsimp +zetaDelta only

theorem wPortMode_only {a0 v s} : Only [.obj, .host, .dict, .radio, .out] s (wPortMode a0 v s).2 := by
  unfold wPortMode
  with_reducible repeat' first
    | exact Only.refl _
    | assumption
    | decide
    | apply Only.after refusedW_only
    | apply Only.after portModeSet_only
    | extract_lets
    | fail_if_no_progress refine Only.upd ?_
    | split
    | refine Only.ofPair (by assumption) ?_
    | intro _
    | dsimp only
    | dsimp +zetaDelta only

theorem wAxcUnbind_only {a0 a s} : Only [.radio, .links] s (wAxcUnbind a0 a s).2 := by
  unfold wAxcUnbind
  with_reducible repeat' first
    | exact Only.refl _
    | assumption
    | decide
    | apply Only.after refusedW_only
    | apply Only.after accepted_only
    | extract_lets
    | fail_if_no_progress refine Only.upd ?_
    | split
    | refine Only.ofPair (by assumption) ?_
    | intro _
    | dsimp only
    | dsimp +zetaDelta only

theorem sendOwdm_only {a0 id action stamp comp s} : Only [.out, .freeCtr] s (sendOwdm a0 id action stamp comp s) := by
  unfold sendOwdm
  with_reducible repeat' first
    | exact Only.refl _
    | assumption
    | decide
    | apply Only.after sendEcpri_only
    | extract_lets
    | fail_if_no_progress refine Only.upd ?_
    | split
    | refine Only.ofPair (by assumption) ?_
    | intro _
    | dsimp only
    | dsimp +zetaDelta only

theorem owdmAsk_only {a0 id follow s} : Only [.out, .freeCtr] s (owdmAsk a0 id follow s) := by
  unfold owdmAsk
  with_reducible repeat' first
    | exact Only.refl _
    | assumption
    | decide
    | apply Only.after sendOwdm_only
    | extract_lets
    | fail_if_no_progress refine Only.upd ?_
    | split
    | refine Only.ofPair (by assumption) ?_
    | intro _
    | dsimp only
    | dsimp +zetaDelta only

theorem wOwdmStart_only {a0 id s} : Only [.links, .out, .freeCtr] s (wOwdmStart a0 id s).2 := by
  unfold wOwdmStart
  with_reducible repeat' first
    | exact Only.refl _
    | assumption
    | decide
    | apply Only.after accepted_only
    | apply Only.after owdmAsk_only
    | extract_lets
    | fail_if_no_progress refine Only.upd ?_
    | split
    | refine Only.ofPair (by assumption) ?_
    | intro _
    | dsimp only
    | dsimp +zetaDelta only

theorem execPortMode_only {a0 v s} : Runs [.obj, .host, .dict, .radio, .out] s (execPortMode a0 v s) := by
  unfold execPortMode
  with_reducible repeat' first
    | exact Only.refl _
    | assumption
    | decide
    | apply Runs.done
    | apply Runs.whenDue
    | apply Runs.answer
    | apply Runs.next
    | apply Runs.elim
    | apply Only.after wPortMode_only
    | extract_lets
    | fail_if_no_progress refine Only.upd ?_
    | split
    | refine Only.ofPair (by assumption) ?_
    | intro _
    | dsimp only
    | dsimp +zetaDelta only

theorem execPortUp_only {a0 rtd s} : Runs [.obj, .host, .dict, .radio, .out] s (execPortUp a0 rtd s) := by
  unfold execPortUp
  with_reducible repeat' first
    | exact Only.refl _
    | assumption
    | decide
    | apply Runs.done
    | apply Runs.whenDue
    | apply Runs.answer
    | apply Runs.next
    | apply Runs.elim
    | apply Only.after wr_only
    | apply Only.after marGapEnd_only
    | apply Only.after portEvent_only
    | apply Only.each
    | extract_lets
    | fail_if_no_progress refine Only.upd ?_
    | split
    | refine Only.ofPair (by assumption) ?_
    | intro _
    | dsimp only
    | dsimp +zetaDelta only

theorem execPortDown_only {a0 lost s} : Runs [.obj, .host, .dict, .radio, .out] s (execPortDown a0 lost s) := by
  unfold execPortDown
  with_reducible repeat' first
    | exact Only.refl _
    | assumption
    | decide
    | apply Runs.done
    | apply Runs.whenDue
    | apply Runs.answer
    | apply Runs.next
    | apply Runs.elim
    | apply Only.after portDown_only
    | extract_lets
    | fail_if_no_progress refine Only.upd ?_
    | split
    | refine Only.ofPair (by assumption) ?_
    | intro _
    | dsimp only
    | dsimp +zetaDelta only

theorem portStat_only {a0 i n s} : Only [.obj] s (portStat a0 i n s) := by
  unfold portStat
  with_reducible repeat' first
    | exact Only.refl _
    | assumption
    | decide
    | apply Only.after bumpBy_only
    | extract_lets
    | fail_if_no_progress refine Only.upd ?_
    | split
    | refine Only.ofPair (by assumption) ?_
    | intro _
    | dsimp only
    | dsimp +zetaDelta only

theorem sortMessage_only {a0 m s} : Only [.obj, .links] s (sortMessage a0 m s) := by
  unfold sortMessage
  with_reducible repeat' first
    | exact Only.refl _
    | assumption
    | decide
    | apply Only.after portStat_only
    | extract_lets
    | fail_if_no_progress refine Only.upd ?_
    | split
    | refine Only.ofPair (by assumption) ?_
    | intro _
    | dsimp only
    | dsimp +zetaDelta only

theorem ecpriRx_only {a0 l s} : Only [.obj, .links] s (ecpriRx a0 l s) := by
  unfold ecpriRx
  with_reducible repeat' first
    | exact Only.refl _
    | assumption
    | decide
    | apply Only.after portStat_only
    | apply Only.after sortMessage_only
    | apply Only.each
    | extract_lets
    | fail_if_no_progress refine Only.upd ?_
    | split
    | refine Only.ofPair (by assumption) ?_
    | intro _
    | dsimp only
    | dsimp +zetaDelta only

theorem ptpRx_only {a0 l s} : Only [.obj, .tim, .host, .dict, .out] s (ptpRx a0 l s) := by
  unfold ptpRx
  with_reducible repeat' first
    | exact Only.refl _
    | assumption
    | decide
    | apply Only.after checkSelected_only
    | apply Only.after wrI_only
    | extract_lets
    | fail_if_no_progress refine Only.upd ?_
    | split
    | refine Only.ofPair (by assumption) ?_
    | intro _
    | dsimp only
    | dsimp +zetaDelta only

theorem ipRx_only {a0 v6 l s} : Only [.obj, .tim, .host, .dict, .links, .out] s (ipRx a0 v6 l s) := by
  unfold ipRx
  with_reducible repeat' first
    | exact Only.refl _
    | assumption
    | decide
    | apply Only.after portStat_only
    | apply Only.after ptpRx_only
    | apply Only.after ecpriRx_only
    | extract_lets
    | fail_if_no_progress refine Only.upd ?_
    | split
    | refine Only.ofPair (by assumption) ?_
    | intro _
    | dsimp only
    | dsimp +zetaDelta only

theorem etherRx_only {a0 et l s} : Only [.obj, .tim, .host, .dict, .links, .out] s (etherRx a0 et l s) := by
  unfold etherRx
  with_reducible repeat' first
    | exact Only.refl _
    | assumption
    | decide
    | apply Only.after ecpriRx_only
    | apply Only.after ptpRx_only
    | apply Only.after checkSelected_only
    | apply Only.after wr_only
    | apply Only.after ipRx_only
    | apply Only.after portStat_only
    | extract_lets
    | fail_if_no_progress refine Only.upd ?_
    | split
    | refine Only.ofPair (by assumption) ?_
    | intro _
    | dsimp only
    | dsimp +zetaDelta only

theorem execEthFrameRx_only {a0 frame corrected bad s} : Runs [.obj, .tim, .host, .dict, .links, .out] s (execEthFrameRx a0 frame corrected bad s) := by
  unfold execEthFrameRx
  with_reducible repeat' first
    | exact Only.refl _
    | assumption
    | decide
    | apply Runs.done
    | apply Runs.whenDue
    | apply Runs.answer
    | apply Runs.next
    | apply Runs.elim
    | apply Only.after portStat_only
    | apply Only.after etherRx_only
    | extract_lets
    | fail_if_no_progress refine Only.upd ?_
    | split
    | refine Only.ofPair (by assumption) ?_
    | intro _
    | dsimp only
    | dsimp +zetaDelta only

theorem takePortMsg_only {a0 kind q s p t} : takePortMsg a0 kind q s = some (p, t) → Only [.links] s t := by
  unfold takePortMsg
  intro h
  dsimp only at h
  rw [Option.map_eq_some_iff] at h
  obtain ⟨m, -, h⟩ := h
  cases h
  exact Only.upd (Only.refl _)

theorem portWrite_only {gid b ofs l s} : Only [.work, .dram, .sram, .mem, .freeCtr] s (portWrite gid b ofs l s) := by
  unfold portWrite
  with_reducible repeat' first
    | exact Only.refl _
    | assumption
    | decide
    | apply Only.after clearBuf_only
    | apply Only.after memStore_only
    | extract_lets
    | fail_if_no_progress refine Only.upd ?_
    | split
    | refine Only.ofPair (by assumption) ?_
    | intro _
    | dsimp only
    | dsimp +zetaDelta only

theorem prbWrite_only {g b axc k i samples s} : Only [.work, .dram, .sram, .mem, .freeCtr] s (prbWrite g b axc k i samples s) := by
  unfold prbWrite
  with_reducible repeat' first
    | exact Only.refl _
    | assumption
    | decide
    | apply Only.after portWrite_only
    | extract_lets
    | fail_if_no_progress refine Only.upd ?_
    | split
    | refine Only.ofPair (by assumption) ?_
    | intro _
    | dsimp only
    | dsimp +zetaDelta only

theorem sectionRx_only {a0 axc sec arrival q x s} : Only [.obj, .work, .dram, .sram, .mem, .freeCtr] s (sectionRx a0 axc sec arrival q x s) := by
  unfold sectionRx
  with_reducible repeat' first
    | exact Only.refl _
    | assumption
    | decide
    | apply Only.after portStat_only
    | apply Only.after prbWrite_only
    | apply Only.after modGraph_only
    | apply Only.each
    | apply Only.foldl
    | apply Only.foldlSnd
    | apply Only.foldlThd
    | extract_lets
    | fail_if_no_progress refine Only.upd ?_
    | split
    | refine Only.ofPair (by assumption) ?_
    | intro _
    | dsimp only
    | dsimp +zetaDelta only

theorem uplaneRx_only {m s} : Only [.obj, .work, .dram, .sram, .mem, .freeCtr] s (uplaneRx m s) := by
  unfold uplaneRx
  with_reducible repeat' first
    | exact Only.refl _
    | assumption
    | decide
    | apply Only.after portStat_only
    | apply Only.after sectionRx_only
    | apply Only.each
    | extract_lets
    | fail_if_no_progress refine Only.upd ?_
    | split
    | refine Only.ofPair (by assumption) ?_
    | intro _
    | dsimp only
    | dsimp +zetaDelta only

theorem execUplaneMessage_only {a0 s} : Runs [.obj, .work, .links, .dram, .sram, .mem, .freeCtr] s (execUplaneMessage a0 s) := by
  unfold execUplaneMessage
  with_reducible repeat' first
    | exact Only.refl _
    | assumption
    | decide
    | apply Runs.done
    | apply Runs.whenDue
    | apply Runs.answer
    | apply Runs.next
    | apply Runs.elim
    | apply Only.after (takePortMsg_only (by assumption))
    | apply Only.after uplaneRx_only
    | extract_lets
    | fail_if_no_progress refine Only.upd ?_
    | split
    | refine Only.ofPair (by assumption) ?_
    | intro _
    | dsimp only
    | dsimp +zetaDelta only

theorem samplesRx_only {a0 axc idx l s} : Only [.obj, .host, .radio, .links, .out] s (samplesRx a0 axc idx l s) := by
  unfold samplesRx
  with_reducible repeat' first
    | exact Only.refl _
    | assumption
    | decide
    | apply Only.after marGapEnd_only
    | apply Only.after marGap_only
    | apply Only.after portStat_only
    | extract_lets
    | fail_if_no_progress refine Only.upd ?_
    | split
    | refine Only.ofPair (by assumption) ?_
    | intro _
    | dsimp only
    | dsimp +zetaDelta only

theorem execTimeDomainMessage_only {a0 s} : Runs [.obj, .host, .radio, .links, .out] s (execTimeDomainMessage a0 s) := by
  unfold execTimeDomainMessage
  with_reducible repeat' first
    | exact Only.refl _
    | assumption
    | decide
    | apply Runs.done
    | apply Runs.whenDue
    | apply Runs.answer
    | apply Runs.next
    | apply Runs.elim
    | apply Only.after (takePortMsg_only (by assumption))
    | apply Only.after portStat_only
    | apply Only.after samplesRx_only
    | extract_lets
    | fail_if_no_progress refine Only.upd ?_
    | split
    | refine Only.ofPair (by assumption) ?_
    | intro _
    | dsimp only
    | dsimp +zetaDelta only

theorem onOwdm_only {a0 actions f s} (h0 : ∀ a0 a1, Only [.obj, .links, .out, .freeCtr] a1 (f a0 a1)) : Runs [.obj, .links, .out, .freeCtr] s (onOwdm a0 actions f s) := by
  unfold onOwdm
  with_reducible repeat' first
    | exact Only.refl _
    | assumption
    | decide
    | apply Runs.done
    | apply Runs.whenDue
    | apply Runs.answer
    | apply Runs.next
    | apply Runs.elim
    | apply Only.after (takePortMsg_only (by assumption))
    | apply Only.after (h0 _ _)
    | extract_lets
    | fail_if_no_progress refine Only.upd ?_
    | split
    | refine Only.ofPair (by assumption) ?_
    | intro _
    | dsimp only
    | dsimp +zetaDelta only

theorem owdmRespond_only {a0 id a2 s} : Only [.out, .freeCtr] s (owdmRespond a0 id a2 s) := by
  unfold owdmRespond
  with_reducible repeat' first
    | exact Only.refl _
    | assumption
    | decide
    | apply Only.after sendOwdm_only
    | extract_lets
    | fail_if_no_progress refine Only.upd ?_
    | split
    | refine Only.ofPair (by assumption) ?_
    | intro _
    | dsimp only
    | dsimp +zetaDelta only

theorem execOwdmRequest_only {a0 s} : Runs [.obj, .links, .out, .freeCtr] s (execOwdmRequest a0 s) := by
  unfold execOwdmRequest
  with_reducible repeat' first
    | exact Only.refl _
    | assumption
    | decide
    | apply Runs.done
    | apply Runs.whenDue
    | apply Runs.answer
    | apply Runs.next
    | apply Runs.elim
    | apply Runs.after (onOwdm_only ?_)
    | apply Only.after owdmRespond_only
    | extract_lets
    | fail_if_no_progress refine Only.upd ?_
    | split
    | refine Only.ofPair (by assumption) ?_
    | intro _
    | dsimp only
    | dsimp +zetaDelta only

theorem execOwdmRequestFollowUp_only {a0 s} : Runs [.obj, .links, .out, .freeCtr] s (execOwdmRequestFollowUp a0 s) := by
  unfold execOwdmRequestFollowUp
  with_reducible repeat' first
    | exact Only.refl _
    | assumption
    | decide
    | apply Runs.done
    | apply Runs.whenDue
    | apply Runs.answer
    | apply Runs.next
    | apply Runs.elim
    | apply Runs.after (onOwdm_only ?_)
    | extract_lets
    | fail_if_no_progress refine Only.upd ?_
    | split
    | refine Only.ofPair (by assumption) ?_
    | intro _
    | dsimp only
    | dsimp +zetaDelta only

theorem execOwdmFollowUp_only {a0 s} : Runs [.obj, .links, .out, .freeCtr] s (execOwdmFollowUp a0 s) := by
  unfold execOwdmFollowUp
  with_reducible repeat' first
    | exact Only.refl _
    | assumption
    | decide
    | apply Runs.done
    | apply Runs.whenDue
    | apply Runs.answer
    | apply Runs.next
    | apply Runs.elim
    | apply Runs.after (onOwdm_only ?_)
    | apply Only.after owdmRespond_only
    | extract_lets
    | fail_if_no_progress refine Only.upd ?_
    | split
    | refine Only.ofPair (by assumption) ?_
    | intro _
    | dsimp only
    | dsimp +zetaDelta only

theorem execOwdmRemoteRequest_only {a0 s} : Runs [.obj, .links, .out, .freeCtr] s (execOwdmRemoteRequest a0 s) := by
  unfold execOwdmRemoteRequest
  with_reducible repeat' first
    | exact Only.refl _
    | assumption
    | decide
    | apply Runs.done
    | apply Runs.whenDue
    | apply Runs.answer
    | apply Runs.next
    | apply Runs.elim
    | apply Runs.after (onOwdm_only ?_)
    | apply Only.after owdmAsk_only
    | extract_lets
    | fail_if_no_progress refine Only.upd ?_
    | split
    | refine Only.ofPair (by assumption) ?_
    | intro _
    | dsimp only
    | dsimp +zetaDelta only

theorem execOwdmResponse_only {a0 s} : Runs [.obj, .links, .out, .freeCtr] s (execOwdmResponse a0 s) := by
  unfold execOwdmResponse
  with_reducible repeat' first
    | exact Only.refl _
    | assumption
    | decide
    | apply Runs.done
    | apply Runs.whenDue
    | apply Runs.answer
    | apply Runs.next
    | apply Runs.elim
    | apply Runs.after (onOwdm_only ?_)
    | apply Only.after wrI_only
    | extract_lets
    | fail_if_no_progress refine Only.upd ?_
    | split
    | refine Only.ofPair (by assumption) ?_
    | intro _
    | dsimp only
    | dsimp +zetaDelta only

theorem execOwdmStart_only {a0 id s} : Runs [.links, .out, .freeCtr] s (execOwdmStart a0 id s) := by
  unfold execOwdmStart
  with_reducible repeat' first
    | exact Only.refl _
    | assumption
    | decide
    | apply Runs.done
    | apply Runs.whenDue
    | apply Runs.answer
    | apply Runs.next
    | apply Runs.elim
    | apply Only.after wOwdmStart_only
    | extract_lets
    | fail_if_no_progress refine Only.upd ?_
    | split
    | refine Only.ofPair (by assumption) ?_
    | intro _
    | dsimp only
    | dsimp +zetaDelta only

theorem closeSymbol_only {g b axc k s} : Only [.work, .dram, .sram, .mem, .freeCtr] s (closeSymbol g b axc k s).2 := by
  unfold closeSymbol
  with_reducible repeat' first
    | exact Only.refl _
    | assumption
    | decide
    | apply Only.after prbWrite_only
    | apply Only.after portWrite_only
    | apply Only.each
    | extract_lets
    | fail_if_no_progress refine Only.upd ?_
    | split
    | refine Only.ofPair (by assumption) ?_
    | intro _
    | dsimp only
    | dsimp +zetaDelta only

theorem markClosed_only {gid b axc k s} : Only [.work] s (markClosed gid b axc k s) := by
  unfold markClosed
  with_reducible repeat' first
    | exact Only.refl _
    | assumption
    | decide
    | apply Only.after modGraph_only
    | extract_lets
    | fail_if_no_progress refine Only.upd ?_
    | split
    | refine Only.ofPair (by assumption) ?_
    | intro _
    | dsimp only
    | dsimp +zetaDelta only

theorem flushMissing_only {ci s} : Only [.obj, .host, .work, .out] s (flushMissing ci s) := by
  unfold flushMissing
  with_reducible repeat' first
    | exact Only.refl _
    | assumption
    | decide
    | apply Only.after fnEvent_only
    | extract_lets
    | fail_if_no_progress refine Only.upd ?_
    | split
    | refine Only.ofPair (by assumption) ?_
    | intro _
    | dsimp only
    | dsimp +zetaDelta only

theorem noteMissing_only {ci cause n axc s} : Only [.obj, .host, .work, .out] s (noteMissing ci cause n axc s) := by
  unfold noteMissing
  with_reducible repeat' first
    | exact Only.refl _
    | assumption
    | decide
    | apply Only.after flushMissing_only
    | extract_lets
    | fail_if_no_progress refine Only.upd ?_
    | split
    | refine Only.ofPair (by assumption) ?_
    | intro _
    | dsimp only
    | dsimp +zetaDelta only

theorem execRxWindowClose_only {ci air sec axc k s} : Runs [.obj, .pow, .host, .work, .radio, .noc, .dram, .sram, .mem, .out, .freeCtr] s (execRxWindowClose ci air sec axc k s) := by
  unfold execRxWindowClose
  with_reducible repeat' first
    | exact Only.refl _
    | assumption
    | decide
    | apply Runs.done
    | apply Runs.whenDue
    | apply Runs.answer
    | apply Runs.next
    | apply Runs.elim
    | apply Only.after closeSymbol_only
    | apply Only.after markClosed_only
    | apply Only.after finishGraphs_only
    | apply Only.after wake_only
    | apply Only.after noteMissing_only
    | apply Only.after portStat_only
    | apply Only.foldl
    | apply Only.foldlSnd
    | apply Only.foldlThd
    | extract_lets
    | fail_if_no_progress refine Only.upd ?_
    | split
    | refine Only.ofPair (by assumption) ?_
    | intro _
    | dsimp only
    | dsimp +zetaDelta only

theorem txMark_only {gid b axc k s} : Only [.work] s (txMark gid b axc k s) := by
  unfold txMark
  with_reducible repeat' first
    | exact Only.refl _
    | assumption
    | decide
    | apply Only.after dropParting_only
    | extract_lets
    | fail_if_no_progress refine Only.upd ?_
    | split
    | refine Only.ofPair (by assumption) ?_
    | intro _
    | dsimp only
    | dsimp +zetaDelta only

theorem sendContainers_only {a0 g b axc k zeros s} : Only [.out] s (sendContainers a0 g b axc k zeros s) := by
  unfold sendContainers
  with_reducible repeat' first
    | exact Only.refl _
    | assumption
    | decide
    | apply Only.after send_only
    | extract_lets
    | fail_if_no_progress refine Only.upd ?_
    | split
    | refine Only.ofPair (by assumption) ?_
    | intro _
    | dsimp only
    | dsimp +zetaDelta only

theorem txFault_only {g b axc k s} : Only [.obj, .host, .dict, .sram, .out] s (txFault g b axc k s) := by
  unfold txFault
  with_reducible repeat' first
    | exact Only.refl _
    | assumption
    | decide
    | apply Only.after demandFault_only
    | extract_lets
    | fail_if_no_progress refine Only.upd ?_
    | split
    | refine Only.ofPair (by assumption) ?_
    | intro _
    | dsimp only
    | dsimp +zetaDelta only

theorem txSkip_only {g b axc k s} : Only [.obj, .host, .work, .out] s (txSkip g b axc k s) := by
  unfold txSkip
  with_reducible repeat' first
    | exact Only.refl _
    | assumption
    | decide
    | apply Only.after noteMissing_only
    | apply Only.after portStat_only
    | apply Only.after txMark_only
    | extract_lets
    | fail_if_no_progress refine Only.upd ?_
    | split
    | refine Only.ofPair (by assumption) ?_
    | intro _
    | dsimp only
    | dsimp +zetaDelta only

theorem sendSections_only {a0 g b axc k s} : Only [.obj, .links, .out, .freeCtr] s (sendSections a0 g b axc k s) := by
  unfold sendSections
  with_reducible repeat' first
    | exact Only.refl _
    | assumption
    | decide
    | apply Only.after portStat_only
    | apply Only.after sendStream_only
    | apply Only.each
    | extract_lets
    | fail_if_no_progress refine Only.upd ?_
    | split
    | refine Only.ofPair (by assumption) ?_
    | intro _
    | dsimp only
    | dsimp +zetaDelta only

theorem sendSamples_only {a0 g b axc k s} : Only [.obj, .links, .out, .freeCtr] s (sendSamples a0 g b axc k s) := by
  unfold sendSamples
  with_reducible repeat' first
    | exact Only.refl _
    | assumption
    | decide
    | apply Only.after portStat_only
    | apply Only.after sendStream_only
    | apply Only.each
    | extract_lets
    | fail_if_no_progress refine Only.upd ?_
    | split
    | refine Only.ofPair (by assumption) ?_
    | intro _
    | dsimp only
    | dsimp +zetaDelta only

theorem execTxWindowOpen_only {gid b axc k s} : Runs [.obj, .host, .dict, .work, .links, .sram, .out, .freeCtr] s (execTxWindowOpen gid b axc k s) := by
  unfold execTxWindowOpen
  with_reducible repeat' first
    | exact Only.refl _
    | assumption
    | decide
    | apply Runs.done
    | apply Runs.whenDue
    | apply Runs.answer
    | apply Runs.next
    | apply Runs.elim
    | apply Only.after txMark_only
    | apply Only.after sendContainers_only
    | apply Only.after txFault_only
    | apply Only.after txSkip_only
    | apply Only.after sendSections_only
    | apply Only.after sendSamples_only
    | extract_lets
    | fail_if_no_progress refine Only.upd ?_
    | split
    | refine Only.ofPair (by assumption) ?_
    | intro _
    | dsimp only
    | dsimp +zetaDelta only

theorem execTxWindowClose_only {gid b axc k s} : Runs [.obj, .host, .work, .out] s (execTxWindowClose gid b axc k s) := by
  unfold execTxWindowClose
  with_reducible repeat' first
    | exact Only.refl _
    | assumption
    | decide
    | apply Runs.done
    | apply Runs.whenDue
    | apply Runs.answer
    | apply Runs.next
    | apply Runs.elim
    | apply Only.after txSkip_only
    | extract_lets
    | fail_if_no_progress refine Only.upd ?_
    | split
    | refine Only.ofPair (by assumption) ?_
    | intro _
    | dsimp only
    | dsimp +zetaDelta only

theorem execCplaneSend_only {gid b axc k s} : Runs [.obj, .work, .links, .out, .freeCtr] s (execCplaneSend gid b axc k s) := by
  unfold execCplaneSend
  with_reducible repeat' first
    | exact Only.refl _
    | assumption
    | decide
    | apply Runs.done
    | apply Runs.whenDue
    | apply Runs.answer
    | apply Runs.next
    | apply Runs.elim
    | apply Only.after draw_only
    | apply Only.after sendStream_only
    | apply Only.after portStat_only
    | extract_lets
    | fail_if_no_progress refine Only.upd ?_
    | split
    | refine Only.ofPair (by assumption) ?_
    | intro _
    | dsimp only
    | dsimp +zetaDelta only

theorem execAxcBind_only {a0 d s} : Runs [.work, .radio, .links, .out] s (execAxcBind a0 d s) := by
  unfold execAxcBind
  with_reducible repeat' first
    | exact Only.refl _
    | assumption
    | decide
    | apply Runs.done
    | apply Runs.whenDue
    | apply Runs.answer
    | apply Runs.next
    | apply Runs.elim
    | apply Only.after wAxcBind_only
    | extract_lets
    | fail_if_no_progress refine Only.upd ?_
    | split
    | refine Only.ofPair (by assumption) ?_
    | intro _
    | dsimp only
    | dsimp +zetaDelta only

theorem execAxcUnbind_only {a0 a s} : Runs [.radio, .links, .out] s (execAxcUnbind a0 a s) := by
  unfold execAxcUnbind
  with_reducible repeat' first
    | exact Only.refl _
    | assumption
    | decide
    | apply Runs.done
    | apply Runs.whenDue
    | apply Runs.answer
    | apply Runs.next
    | apply Runs.elim
    | apply Only.after wAxcUnbind_only
    | extract_lets
    | fail_if_no_progress refine Only.upd ?_
    | split
    | refine Only.ofPair (by assumption) ?_
    | intro _
    | dsimp only
    | dsimp +zetaDelta only

theorem execBasicFrame_only {a0 bfn hfn x payload s} : Runs [.obj, .host, .radio, .links, .out] s (execBasicFrame a0 bfn hfn x payload s) := by
  unfold execBasicFrame
  with_reducible repeat' first
    | exact Only.refl _
    | assumption
    | decide
    | apply Runs.done
    | apply Runs.whenDue
    | apply Runs.answer
    | apply Runs.next
    | apply Runs.elim
    | apply Only.after samplesRx_only
    | apply Only.each
    | extract_lets
    | fail_if_no_progress refine Only.upd ?_
    | split
    | refine Only.ofPair (by assumption) ?_
    | intro _
    | dsimp only
    | dsimp +zetaDelta only

theorem execEsmcInterval_only {a0 s} : Runs [.out, .freeCtr] s (execEsmcInterval a0 s) := by
  unfold execEsmcInterval
  with_reducible repeat' first
    | exact Only.refl _
    | assumption
    | decide
    | apply Runs.done
    | apply Runs.whenDue
    | apply Runs.answer
    | apply Runs.next
    | apply Runs.elim
    | apply Only.after draw_only
    | apply Only.after send_only
    | extract_lets
    | fail_if_no_progress refine Only.upd ?_
    | split
    | refine Only.ofPair (by assumption) ?_
    | intro _
    | dsimp only
    | dsimp +zetaDelta only

theorem flushAllMissing_only {s} : Only [.obj, .host, .work, .out] s (flushAllMissing s) := by
  unfold flushAllMissing
  with_reducible repeat' first
    | exact Only.refl _
    | assumption
    | decide
    | apply Only.after flushMissing_only
    | apply Only.each
    | extract_lets
    | fail_if_no_progress refine Only.upd ?_
    | split
    | refine Only.ofPair (by assumption) ?_
    | intro _
    | dsimp only
    | dsimp +zetaDelta only

end Sys2Proof.Machine
end

