-- ==== Sys2Proof/Laws/OnlyReset.lean ====
section
/-!
SUPPORT. The frame of every operation of Machine/Reset.lean: the parts of the state it can change.
-/
namespace Sys2Proof.Machine

set_option Elab.async false

set_option linter.unusedTactic false
set_option linter.unreachableTactic false
set_option linter.unusedVariables false

theorem sampleStraps_only {s} : Only [.boot] s (sampleStraps s) := by
  unfold sampleStraps
  with_reducible repeat' first
    | exact Only.refl _
    | assumption
    | decide
    | extract_lets
    | fail_if_no_progress refine Only.upd ?_
    | split
    | refine Only.ofPair (by assumption) ?_
    | intro _
    | dsimp only
    | dsimp +zetaDelta only

theorem d0Lost_only {s} : Only [.obj, .text, .tim, .pow, .boot, .host, .dict, .work, .sage, .radio, .links, .noc, .dram, .sram, .mem] s (d0Lost s) := by
  refine ⟨fun p hp => ?_, rfl, fun _ => rfl⟩
  cases p <;> first | rfl | exact absurd (by decide) hp

theorem warmReset_only {cause s} : Only [.obj, .text, .tim, .pow, .boot, .host, .dict, .work, .sage, .radio, .links, .noc, .dram, .sram, .mem] s (warmReset cause s) := by
  unfold warmReset
  with_reducible repeat' first
    | exact Only.refl _
    | assumption
    | decide
    | apply Only.after sampleStraps_only
    | apply Only.after d0Lost_only
    | apply Only.after refreshQuality_only
    | apply Only.after wr_only
    | extract_lets
    | fail_if_no_progress refine Only.upd ?_
    | split
    | refine Only.ofPair (by assumption) ?_
    | intro _
    | dsimp only
    | dsimp +zetaDelta only

theorem escalate_only {unit loc detail s} : Only [.obj, .text, .tim, .pow, .boot, .host, .dict, .work, .sage, .radio, .links, .noc, .dram, .sram, .mem, .out] s (escalate unit loc detail s) := by
  unfold escalate
  with_reducible repeat' first
    | exact Only.refl _
    | assumption
    | decide
    | apply Only.after warmReset_only
    | apply Only.after endFlow_only
    | apply Only.after startFlow_only
    | extract_lets
    | fail_if_no_progress refine Only.upd ?_
    | split
    | refine Only.ofPair (by assumption) ?_
    | intro _
    | dsimp only
    | dsimp +zetaDelta only

theorem railsDown_only {s} : Only [.boot] s (railsDown s) := by
  unfold railsDown
  with_reducible repeat' first
    | exact Only.refl _
    | assumption
    | decide
    | extract_lets
    | fail_if_no_progress refine Only.upd ?_
    | split
    | refine Only.ofPair (by assumption) ?_
    | intro _
    | dsimp only
    | dsimp +zetaDelta only

theorem retLost_only {s} : Only [.pow, .dict] s (retLost s) := Only.upd (Only.refl _)

theorem railOn_only {n s} : Only [.boot] s (railOn n s) := by
  unfold railOn
  with_reducible repeat' first
    | exact Only.refl _
    | assumption
    | decide
    | extract_lets
    | fail_if_no_progress refine Only.upd ?_
    | split
    | refine Only.ofPair (by assumption) ?_
    | intro _
    | dsimp only
    | dsimp +zetaDelta only

theorem powerUp_only {s} : Only [.boot] s (powerUp s) := by
  unfold powerUp
  with_reducible repeat' first
    | exact Only.refl _
    | assumption
    | decide
    | apply Only.after railOn_only
    | apply Only.after sampleStraps_only
    | extract_lets
    | fail_if_no_progress refine Only.upd ?_
    | split
    | refine Only.ofPair (by assumption) ?_
    | intro _
    | dsimp only
    | dsimp +zetaDelta only

theorem railsAgain_only {s} : Only [.boot] s (railsAgain s) := by
  unfold railsAgain
  with_reducible repeat' first
    | exact Only.refl _
    | assumption
    | decide
    | apply Only.after powerUp_only
    | extract_lets
    | fail_if_no_progress refine Only.upd ?_
    | split
    | refine Only.ofPair (by assumption) ?_
    | intro _
    | dsimp only
    | dsimp +zetaDelta only

theorem railFails_only {n wait s} : Only [.obj, .text, .tim, .pow, .boot, .host, .dict, .work, .sage, .radio, .links, .noc, .dram, .sram, .mem] s (railFails n wait s) := by
  unfold railFails
  with_reducible repeat' first
    | exact Only.refl _
    | assumption
    | decide
    | apply Only.after railsDown_only
    | apply Only.after d0Lost_only
    | apply Only.after wr_only
    | extract_lets
    | fail_if_no_progress refine Only.upd ?_
    | split
    | refine Only.ofPair (by assumption) ?_
    | intro _
    | dsimp only
    | dsimp +zetaDelta only

end Sys2Proof.Machine
end

