-- ==== Sys2Proof/Laws/OnlySram.lean ====
section
/-!
SUPPORT. The frame of every operation of Machine/Sram.lean: the parts of the state it can change.
-/
namespace Sys2Proof.Machine

set_option Elab.async false

set_option linter.unusedTactic false
set_option linter.unreachableTactic false
set_option linter.unusedVariables false

theorem evLedger_only {cause d life s} : Only [.obj, .host, .dict, .out] s (evLedger cause d life s) := by
  unfold evLedger
  with_reducible repeat' first
    | exact Only.refl _
    | assumption
    | decide
    | apply Only.after ownerEvent_only
    | extract_lets
    | fail_if_no_progress refine Only.upd ?_
    | split
    | refine Only.ofPair (by assumption) ?_
    | intro _
    | dsimp only
    | dsimp +zetaDelta only

theorem writeCopy_only {b l ok1 ok2 s} : Only [.obj, .host, .dict, .sram, .out] s (writeCopy b l ok1 ok2 s) := by
  unfold writeCopy
  with_reducible repeat' first
    | exact Only.refl _
    | assumption
    | decide
    | apply Only.after wr_only
    | apply Only.after evLedger_only
    | extract_lets
    | fail_if_no_progress refine Only.upd ?_
    | split
    | refine Only.ofPair (by assumption) ?_
    | intro _
    | dsimp only
    | dsimp +zetaDelta only

theorem writeLedger_only {a1 a2 b1 b2 s} : Only [.obj, .host, .dict, .sram, .out] s (writeLedger a1 a2 b1 b2 s) := by
  unfold writeLedger
  with_reducible repeat' first
    | exact Only.refl _
    | assumption
    | decide
    | apply Only.after writeCopy_only
    | apply Only.after wr_only
    | extract_lets
    | fail_if_no_progress refine Only.upd ?_
    | split
    | refine Only.ofPair (by assumption) ?_
    | intro _
    | dsimp only
    | dsimp +zetaDelta only

theorem wLedgerWrite_only {v a1 a2 b1 b2 s} : Only [.obj, .host, .dict, .sram, .out] s (wLedgerWrite v a1 a2 b1 b2 s).2 := by
  unfold wLedgerWrite
  with_reducible repeat' first
    | exact Only.refl _
    | assumption
    | decide
    | apply Only.after accepted_only
    | apply Only.after refusedW_only
    | apply Only.after writeLedger_only
    | extract_lets
    | fail_if_no_progress refine Only.upd ?_
    | split
    | refine Only.ofPair (by assumption) ?_
    | intro _
    | dsimp only
    | dsimp +zetaDelta only

theorem modScrub_only {q f s} : Only [.sram] s (modScrub q f s) := by
  unfold modScrub
  with_reducible repeat' first
    | exact Only.refl _
    | assumption
    | decide
    | extract_lets
    | fail_if_no_progress refine Only.upd ?_
    | split
    | refine Only.ofPair (by assumption) ?_
    | intro _
    | dsimp only
    | dsimp +zetaDelta only

theorem execScrubPassStart_only {q s} : Runs [.sram] s (execScrubPassStart q s) := by
  unfold execScrubPassStart
  with_reducible repeat' first
    | exact Only.refl _
    | assumption
    | decide
    | apply Runs.done
    | apply Runs.whenDue
    | apply Runs.answer
    | apply Runs.next
    | apply Runs.elim
    | apply Only.after modScrub_only
    | extract_lets
    | fail_if_no_progress refine Only.upd ?_
    | split
    | refine Only.ofPair (by assumption) ?_
    | intro _
    | dsimp only
    | dsimp +zetaDelta only

theorem scrubStat_only {q i n s} : Only [.obj] s (scrubStat q i n s) := by
  unfold scrubStat
  with_reducible repeat' first
    | exact Only.refl _
    | assumption
    | decide
    | apply Only.after wr_only
    | extract_lets
    | fail_if_no_progress refine Only.upd ?_
    | split
    | refine Only.ofPair (by assumption) ?_
    | intro _
    | dsimp only
    | dsimp +zetaDelta only

theorem logFault_only {code word bit s} : Only [.sram] s (logFault code word bit s) := by
  unfold logFault
  with_reducible repeat' first
    | exact Only.refl _
    | assumption
    | decide
    | apply Only.after modMacro_only
    | extract_lets
    | fail_if_no_progress refine Only.upd ?_
    | split
    | refine Only.ofPair (by assumption) ?_
    | intro _
    | dsimp only
    | dsimp +zetaDelta only

theorem scrubByte_only {q code word b t1 t2 s} : Only [.obj, .dram, .sram, .mem] s (scrubByte q code word b t1 t2 s) := by
  unfold scrubByte
  with_reducible repeat' first
    | exact Only.refl _
    | assumption
    | decide
    | apply Only.after scrubStat_only
    | apply Only.after poisonByte_only
    | apply Only.after memStore_only
    | apply Only.after logFault_only
    | extract_lets
    | fail_if_no_progress refine Only.upd ?_
    | split
    | refine Only.ofPair (by assumption) ?_
    | intro _
    | dsimp only
    | dsimp +zetaDelta only

theorem execScrubWord_only {q loc word flips1 flips2 s} : Runs [.obj, .dram, .sram, .mem] s (execScrubWord q loc word flips1 flips2 s) := by
  unfold execScrubWord
  with_reducible repeat' first
    | exact Only.refl _
    | assumption
    | decide
    | apply Runs.done
    | apply Runs.whenDue
    | apply Runs.answer
    | apply Runs.next
    | apply Runs.elim
    | apply Only.after scrubByte_only
    | apply Only.after modScrub_only
    | apply Only.each
    | extract_lets
    | fail_if_no_progress refine Only.upd ?_
    | split
    | refine Only.ofPair (by assumption) ?_
    | intro _
    | dsimp only
    | dsimp +zetaDelta only

theorem recordFence_only {code s} : Only [.sram] s (recordFence code s) := by
  unfold recordFence
  with_reducible repeat' first
    | exact Only.refl _
    | assumption
    | decide
    | extract_lets
    | fail_if_no_progress refine Only.upd ?_
    | split
    | refine Only.ofPair (by assumption) ?_
    | intro _
    | dsimp only
    | dsimp +zetaDelta only

theorem coreLeaves_only {u s} : Only [.obj, .work, .sram] s (coreLeaves u s) := by
  unfold coreLeaves
  with_reducible repeat' first
    | exact Only.refl _
    | assumption
    | decide
    | apply Only.after coreOut_only
    | apply Only.after wantFn_only
    | extract_lets
    | fail_if_no_progress refine Only.upd ?_
    | split
    | refine Only.ofPair (by assumption) ?_
    | intro _
    | dsimp only
    | dsimp +zetaDelta only

theorem engineLeaves_only {e s} : Only [.work] s (engineLeaves e s) := by
  unfold engineLeaves
  with_reducible repeat' first
    | exact Only.refl _
    | assumption
    | decide
    | apply Only.after wantFn_only
    | extract_lets
    | fail_if_no_progress refine Only.upd ?_
    | split
    | refine Only.ofPair (by assumption) ?_
    | intro _
    | dsimp only
    | dsimp +zetaDelta only

theorem fenceEffect_only {code s} : Only [.obj, .text, .tim, .pow, .boot, .host, .dict, .work, .sage, .radio, .links, .noc, .dram, .sram, .mem, .out] s (fenceEffect code s) := by
  unfold fenceEffect
  with_reducible repeat' first
    | exact Only.refl _
    | assumption
    | decide
    | apply Only.after wr_only
    | apply Only.after coreLeaves_only
    | apply Only.after engineLeaves_only
    | apply Only.after laneOff_only
    | apply Only.after portDown_only
    | apply Only.after escalate_only
    | apply Only.each
    | extract_lets
    | fail_if_no_progress refine Only.upd ?_
    | split
    | refine Only.ofPair (by assumption) ?_
    | intro _
    | dsimp only
    | dsimp +zetaDelta only

theorem fenceMacro_only {code bit s} : Only [.obj, .text, .tim, .pow, .boot, .host, .dict, .work, .sage, .radio, .links, .noc, .dram, .sram, .mem, .out] s (fenceMacro code bit s) := by
  unfold fenceMacro
  with_reducible repeat' first
    | exact Only.refl _
    | assumption
    | decide
    | apply Only.after bumpBy_only
    | apply Only.after recordFence_only
    | apply Only.after modMacro_only
    | apply Only.after dropTemplates_only
    | apply Only.after overcommitCheck_only
    | apply Only.after fenceEffect_only
    | apply Only.after sramFault_only
    | extract_lets
    | fail_if_no_progress refine Only.upd ?_
    | split
    | refine Only.ofPair (by assumption) ?_
    | intro _
    | dsimp only
    | dsimp +zetaDelta only

theorem spareColumn_only {code a1 word s} : Only [.obj, .text, .tim, .pow, .boot, .host, .dict, .work, .sage, .radio, .links, .noc, .dram, .sram, .mem, .out] s (spareColumn code a1 word s) := by
  unfold spareColumn
  with_reducible repeat' first
    | exact Only.refl _
    | assumption
    | decide
    | apply Only.after fenceMacro_only
    | apply Only.after modMacro_only
    | extract_lets
    | fail_if_no_progress refine Only.upd ?_
    | split
    | refine Only.ofPair (by assumption) ?_
    | intro _
    | dsimp only
    | dsimp +zetaDelta only

theorem remapWord_only {code w faults s} : Only [.obj, .text, .tim, .pow, .boot, .host, .dict, .work, .sage, .radio, .links, .noc, .dram, .sram, .mem, .out] s (remapWord code w faults s) := by
  unfold remapWord
  with_reducible repeat' first
    | exact Only.refl _
    | assumption
    | decide
    | apply Only.after fenceMacro_only
    | apply Only.after modMacro_only
    | extract_lets
    | fail_if_no_progress refine Only.upd ?_
    | split
    | refine Only.ofPair (by assumption) ?_
    | intro _
    | dsimp only
    | dsimp +zetaDelta only

theorem classify_only {code s} : Only [.obj, .text, .tim, .pow, .boot, .host, .dict, .work, .sage, .radio, .links, .noc, .dram, .sram, .mem, .out] s (classify code s) := by
  unfold classify
  with_reducible repeat' first
    | exact Only.refl _
    | assumption
    | decide
    | apply Only.after spareColumn_only
    | apply Only.after fenceMacro_only
    | apply Only.after remapWord_only
    | apply Only.after modMacro_only
    | apply Only.each
    | apply Only.foldl
    | apply Only.foldlSnd
    | apply Only.foldlThd
    | extract_lets
    | fail_if_no_progress refine Only.upd ?_
    | split
    | refine Only.ofPair (by assumption) ?_
    | intro _
    | dsimp only
    | dsimp +zetaDelta only

theorem execScrubMacroEnd_only {q loc deferred s} : Runs [.obj, .text, .tim, .pow, .boot, .host, .dict, .work, .sage, .radio, .links, .noc, .dram, .sram, .mem, .out] s (execScrubMacroEnd q loc deferred s) := by
  unfold execScrubMacroEnd
  with_reducible repeat' first
    | exact Only.refl _
    | assumption
    | decide
    | apply Runs.done
    | apply Runs.whenDue
    | apply Runs.answer
    | apply Runs.next
    | apply Runs.elim
    | apply Only.after bump_only
    | apply Only.after modScrub_only
    | apply Only.after scrubStat_only
    | apply Only.after classify_only
    | extract_lets
    | fail_if_no_progress refine Only.upd ?_
    | split
    | refine Only.ofPair (by assumption) ?_
    | intro _
    | dsimp only
    | dsimp +zetaDelta only

theorem execColumnSpareDone_only {loc s} : Runs [.obj, .host, .dict, .sram, .out] s (execColumnSpareDone loc s) := by
  unfold execColumnSpareDone
  with_reducible repeat' first
    | exact Only.refl _
    | assumption
    | decide
    | apply Runs.done
    | apply Runs.whenDue
    | apply Runs.answer
    | apply Runs.next
    | apply Runs.elim
    | apply Only.after modMacro_only
    | apply Only.after sramFault_only
    | apply Only.after scrubStat_only
    | extract_lets
    | fail_if_no_progress refine Only.upd ?_
    | split
    | refine Only.ofPair (by assumption) ?_
    | intro _
    | dsimp only
    | dsimp +zetaDelta only

theorem execWordRemapDone_only {loc s} : Runs [.obj, .host, .dict, .sram, .out] s (execWordRemapDone loc s) := by
  unfold execWordRemapDone
  with_reducible repeat' first
    | exact Only.refl _
    | assumption
    | decide
    | apply Runs.done
    | apply Runs.whenDue
    | apply Runs.answer
    | apply Runs.next
    | apply Runs.elim
    | apply Only.after modMacro_only
    | apply Only.after sramFault_only
    | apply Only.after scrubStat_only
    | extract_lets
    | fail_if_no_progress refine Only.upd ?_
    | split
    | refine Only.ofPair (by assumption) ?_
    | intro _
    | dsimp only
    | dsimp +zetaDelta only

theorem wearMinute_only {d tj mv s} : Only [.obj, .host, .dict, .sram, .out] s (wearMinute d tj mv s) := by
  unfold wearMinute
  with_reducible repeat' first
    | exact Only.refl _
    | assumption
    | decide
    | apply Only.after evLedger_only
    | extract_lets
    | fail_if_no_progress refine Only.upd ?_
    | split
    | refine Only.ofPair (by assumption) ?_
    | intro _
    | dsimp only
    | dsimp +zetaDelta only

theorem execLedgerMinute_only {rows s} : Runs [.obj, .host, .dict, .sram, .out] s (execLedgerMinute rows s) := by
  unfold execLedgerMinute
  with_reducible repeat' first
    | exact Only.refl _
    | assumption
    | decide
    | apply Runs.done
    | apply Runs.whenDue
    | apply Runs.answer
    | apply Runs.next
    | apply Runs.elim
    | apply Only.after wearMinute_only
    | apply Only.each
    | extract_lets
    | fail_if_no_progress refine Only.upd ?_
    | split
    | refine Only.ofPair (by assumption) ?_
    | intro _
    | dsimp only
    | dsimp +zetaDelta only

theorem execLedgerDailyWrite_only {a1 a2 b1 b2 s} : Runs [.obj, .host, .dict, .sram, .out] s (execLedgerDailyWrite a1 a2 b1 b2 s) := by
  unfold execLedgerDailyWrite
  with_reducible repeat' first
    | exact Only.refl _
    | assumption
    | decide
    | apply Runs.done
    | apply Runs.whenDue
    | apply Runs.answer
    | apply Runs.next
    | apply Runs.elim
    | apply Only.after writeLedger_only
    | extract_lets
    | fail_if_no_progress refine Only.upd ?_
    | split
    | refine Only.ofPair (by assumption) ?_
    | intro _
    | dsimp only
    | dsimp +zetaDelta only

theorem execLedgerYearlyRewrite_only {a1 a2 b1 b2 s} : Runs [.obj, .host, .dict, .sram, .out] s (execLedgerYearlyRewrite a1 a2 b1 b2 s) := by
  unfold execLedgerYearlyRewrite
  with_reducible repeat' first
    | exact Only.refl _
    | assumption
    | decide
    | apply Runs.done
    | apply Runs.whenDue
    | apply Runs.answer
    | apply Runs.next
    | apply Runs.elim
    | apply Only.after writeLedger_only
    | extract_lets
    | fail_if_no_progress refine Only.upd ?_
    | split
    | refine Only.ofPair (by assumption) ?_
    | intro _
    | dsimp only
    | dsimp +zetaDelta only

theorem execLedgerWrite_only {v a1 a2 b1 b2 s} : Runs [.obj, .host, .dict, .sram, .out] s (execLedgerWrite v a1 a2 b1 b2 s) := by
  unfold execLedgerWrite
  with_reducible repeat' first
    | exact Only.refl _
    | assumption
    | decide
    | apply Runs.done
    | apply Runs.whenDue
    | apply Runs.answer
    | apply Runs.next
    | apply Runs.elim
    | apply Only.after wLedgerWrite_only
    | extract_lets
    | fail_if_no_progress refine Only.upd ?_
    | split
    | refine Only.ofPair (by assumption) ?_
    | intro _
    | dsimp only
    | dsimp +zetaDelta only

end Sys2Proof.Machine
end

