-- ==== Sys2Proof/Laws/OnlyTenants.lean ====
section
/-!
SUPPORT. The frame of every operation of Machine/Tenants.lean: the parts of the state it can change.
-/
namespace Sys2Proof.Machine

set_option Elab.async false

set_option linter.unusedTactic false
set_option linter.unreachableTactic false
set_option linter.unusedVariables false

theorem wControl_only {a0 v s} : Only [.obj, .pow, .work, .radio] s (wControl a0 v s).2 := by
  unfold wControl
  with_reducible repeat' first
    | exact Only.refl _
    | assumption
    | decide
    | apply Only.after refusedW_only
    | apply Only.after accepted_only
    | apply Only.after wr_only
    | apply Only.after disableTenant_only
    | extract_lets
    | fail_if_no_progress refine Only.upd ?_
    | split
    | refine Only.ofPair (by assumption) ?_
    | intro _
    | dsimp only
    | dsimp +zetaDelta only

theorem recordFailed_only {r s} : Only [.dict] s (recordFailed r s) := by
  unfold recordFailed
  with_reducible repeat' first
    | exact Only.refl _
    | assumption
    | decide
    | apply Only.after histAdd_only
    | extract_lets
    | fail_if_no_progress refine Only.upd ?_
    | split
    | refine Only.ofPair (by assumption) ?_
    | intro _
    | dsimp only
    | dsimp +zetaDelta only

theorem applyRecord_only {r w s} (h0 : ∀ a0, Only [.obj, .text, .tim, .pow, .host, .dict, .work, .sage, .radio, .links, .noc, .dram, .sram, .mem, .out, .freeCtr] a0 (w a0).2) : Only [.obj, .text, .tim, .pow, .host, .dict, .work, .sage, .radio, .links, .noc, .dram, .sram, .mem, .out, .freeCtr] s (applyRecord r w s) := by
  unfold applyRecord
  with_reducible repeat' first
    | exact Only.refl _
    | assumption
    | decide
    | apply Only.after recordFailed_only
    | apply Only.after (h0 _)
    | extract_lets
    | fail_if_no_progress refine Only.upd ?_
    | split
    | refine Only.ofPair (by assumption) ?_
    | intro _
    | dsimp only
    | dsimp +zetaDelta only

theorem applyResources_only {r s} : Only [.obj, .text, .tim, .pow, .host, .dict, .work, .sage, .radio, .links, .noc, .dram, .sram, .mem, .out, .freeCtr] s (applyResources r s) := by
  unfold applyResources
  with_reducible repeat' first
    | exact Only.refl _
    | assumption
    | decide
    | apply Only.after (applyRecord_only ?_)
    | apply Only.after wResSet_only
    | apply Only.each
    | extract_lets
    | fail_if_no_progress refine Only.upd ?_
    | split
    | refine Only.ofPair (by assumption) ?_
    | intro _
    | dsimp only
    | dsimp +zetaDelta only

theorem applyPending_only {ci s} : Only [.obj, .text, .tim, .pow, .host, .dict, .work, .sage, .radio, .links, .noc, .dram, .sram, .mem, .out, .freeCtr] s (applyPending ci s) := by
  unfold applyPending
  with_reducible repeat' first
    | exact Only.refl _
    | assumption
    | decide
    | apply Only.after (applyRecord_only ?_)
    | apply Only.after wAxcBind_only
    | apply Only.after wBindSet_only
    | apply Only.after applyResources_only
    | apply Only.each
    | extract_lets
    | fail_if_no_progress refine Only.upd ?_
    | split
    | refine Only.ofPair (by assumption) ?_
    | intro _
    | dsimp only
    | dsimp +zetaDelta only

theorem wCiAssign_only {a0 c s} : Only [.obj, .text, .tim, .pow, .host, .dict, .work, .sage, .radio, .links, .noc, .dram, .sram, .mem, .out, .freeCtr] s (wCiAssign a0 c s).2 := by
  unfold wCiAssign
  with_reducible repeat' first
    | exact Only.refl _
    | assumption
    | decide
    | apply Only.after refusedW_only
    | apply Only.after accepted_only
    | apply Only.after applyPending_only
    | extract_lets
    | fail_if_no_progress refine Only.upd ?_
    | split
    | refine Only.ofPair (by assumption) ?_
    | intro _
    | dsimp only
    | dsimp +zetaDelta only

theorem endCiGraphs_only {ci s} : Only [.obj, .pow, .host, .work, .radio, .noc, .out] s (endCiGraphs ci s) := by
  unfold endCiGraphs
  with_reducible repeat' first
    | exact Only.refl _
    | assumption
    | decide
    | apply Only.after refuseGraph_only
    | apply Only.after stopGraph_only
    | apply Only.each
    | extract_lets
    | fail_if_no_progress refine Only.upd ?_
    | split
    | refine Only.ofPair (by assumption) ?_
    | intro _
    | dsimp only
    | dsimp +zetaDelta only

theorem wCiRemove_only {a0 c s} : Only [.obj, .pow, .host, .work, .radio, .noc, .out] s (wCiRemove a0 c s).2 := by
  unfold wCiRemove
  with_reducible repeat' first
    | exact Only.refl _
    | assumption
    | decide
    | apply Only.after refusedW_only
    | apply Only.after accepted_only
    | apply Only.after removeCi_only
    | apply Only.after endCiGraphs_only
    | extract_lets
    | fail_if_no_progress refine Only.upd ?_
    | split
    | refine Only.ofPair (by assumption) ?_
    | intro _
    | dsimp only
    | dsimp +zetaDelta only

theorem wBudget_only {a0 k v s} : Only [.obj, .host, .dict, .work, .out] s (wBudget a0 k v s).2 := by
  unfold wBudget
  with_reducible repeat' first
    | exact Only.refl _
    | assumption
    | decide
    | apply Only.after refusedW_only
    | apply Only.after accepted_only
    | apply Only.after overcommitCheck_only
    | apply Only.after wr_only
    | extract_lets
    | fail_if_no_progress refine Only.upd ?_
    | split
    | refine Only.ofPair (by assumption) ?_
    | intro _
    | dsimp only
    | dsimp +zetaDelta only

theorem wFlowLimit_only {a0 v s} : Only [.obj] s (wFlowLimit a0 v s).2 := by
  unfold wFlowLimit
  with_reducible repeat' first
    | exact Only.refl _
    | assumption
    | decide
    | apply Only.after refusedW_only
    | apply Only.after accepted_only
    | apply Only.after wr_only
    | extract_lets
    | fail_if_no_progress refine Only.upd ?_
    | split
    | refine Only.ofPair (by assumption) ?_
    | intro _
    | dsimp only
    | dsimp +zetaDelta only

theorem wTenantMode_only {a0 pin v s} : Only [.obj, .work] s (wTenantMode a0 pin v s).2 := by
  unfold wTenantMode
  with_reducible repeat' first
    | exact Only.refl _
    | assumption
    | decide
    | apply Only.after refusedW_only
    | apply Only.after accepted_only
    | apply Only.after dropTemplates_only
    | apply Only.after wr_only
    | extract_lets
    | fail_if_no_progress refine Only.upd ?_
    | split
    | refine Only.ofPair (by assumption) ?_
    | intro _
    | dsimp only
    | dsimp +zetaDelta only

theorem wDedicate_only {a0 loc ci s} : Only [.work] s (wDedicate a0 loc ci s).2 := by
  unfold wDedicate
  with_reducible repeat' first
    | exact Only.refl _
    | assumption
    | decide
    | apply Only.after refusedW_only
    | apply Only.after accepted_only
    | apply Only.after wantRole_only
    | extract_lets
    | fail_if_no_progress refine Only.upd ?_
    | split
    | refine Only.ofPair (by assumption) ?_
    | intro _
    | dsimp only
    | dsimp +zetaDelta only

theorem wReleaseUnit_only {a0 loc s} : Only [.work] s (wReleaseUnit a0 loc s).2 := by
  unfold wReleaseUnit
  with_reducible repeat' first
    | exact Only.refl _
    | assumption
    | decide
    | apply Only.after refusedW_only
    | apply Only.after accepted_only
    | apply Only.after wantRole_only
    | extract_lets
    | fail_if_no_progress refine Only.upd ?_
    | split
    | refine Only.ofPair (by assumption) ?_
    | intro _
    | dsimp only
    | dsimp +zetaDelta only

theorem finishLoads_only {s} : Only [.obj, .host, .dict, .work, .out] s (finishLoads s) := by
  unfold finishLoads
  with_reducible repeat' first
    | exact Only.refl _
    | assumption
    | decide
    | apply Only.after giveReply_only
    | apply Only.each
    | extract_lets
    | fail_if_no_progress refine Only.upd ?_
    | split
    | refine Only.ofPair (by assumption) ?_
    | intro _
    | dsimp only
    | dsimp +zetaDelta only

theorem markReload_only {c s} : Only [.work] s (markReload c s) := by
  unfold markReload
  with_reducible repeat' first
    | exact Only.refl _
    | assumption
    | decide
    | apply Only.after modUnit_only
    | apply Only.each
    | extract_lets
    | fail_if_no_progress refine Only.upd ?_
    | split
    | refine Only.ofPair (by assumption) ?_
    | intro _
    | dsimp only
    | dsimp +zetaDelta only

theorem putEntry_only {n e s} : Only [.work] s (putEntry n e s) := by
  unfold putEntry
  with_reducible repeat' first
    | exact Only.refl _
    | assumption
    | decide
    | apply Only.after markReload_only
    | apply Only.each
    | extract_lets
    | fail_if_no_progress refine Only.upd ?_
    | split
    | refine Only.ofPair (by assumption) ?_
    | intro _
    | dsimp only
    | dsimp +zetaDelta only

theorem wEntry_only {e s} : Only [.obj, .host, .dict, .work, .out] s (wEntry e s).2 := by
  unfold wEntry
  with_reducible repeat' first
    | exact Only.refl _
    | assumption
    | decide
    | apply Only.after refusedW_only
    | apply Only.after accepted_only
    | apply Only.after finishLoads_only
    | apply Only.after putEntry_only
    | extract_lets
    | fail_if_no_progress refine Only.upd ?_
    | split
    | refine Only.ofPair (by assumption) ?_
    | intro _
    | dsimp only
    | dsimp +zetaDelta only

theorem startTask_only {u k s} : Only [.work] s (startTask u k s) := by
  unfold startTask
  with_reducible repeat' first
    | exact Only.refl _
    | assumption
    | decide
    | apply Only.after wantFn_only
    | apply Only.after modUnit_only
    | extract_lets
    | fail_if_no_progress refine Only.upd ?_
    | split
    | refine Only.ofPair (by assumption) ?_
    | intro _
    | dsimp only
    | dsimp +zetaDelta only

theorem wMaintRequest_only {c v s} : Only [.work] s (wMaintRequest c v s).2 := by
  unfold wMaintRequest
  with_reducible repeat' first
    | exact Only.refl _
    | assumption
    | decide
    | apply Only.after refusedW_only
    | apply Only.after accepted_only
    | apply Only.after startTask_only
    | extract_lets
    | fail_if_no_progress refine Only.upd ?_
    | split
    | refine Only.ofPair (by assumption) ?_
    | intro _
    | dsimp only
    | dsimp +zetaDelta only

theorem entryAnswer_only {e o w} : Only [.obj, .host, .dict, .work, .out] w.2 (entryAnswer e o w) := by
  unfold entryAnswer
  with_reducible repeat' first
    | exact Only.refl _
    | assumption
    | decide
    | apply Only.after giveReply_only
    | apply Only.after finishLoads_only
    | extract_lets
    | fail_if_no_progress refine Only.upd ?_
    | split
    | refine Only.ofPair (by assumption) ?_
    | intro _
    | dsimp only
    | dsimp +zetaDelta only

theorem execTenantEnable_only {a0 s} : Runs [.obj, .pow, .work, .radio, .out] s (execTenantEnable a0 s) := by
  unfold execTenantEnable
  with_reducible repeat' first
    | exact Only.refl _
    | assumption
    | decide
    | apply Runs.done
    | apply Runs.whenDue
    | apply Runs.answer
    | apply Runs.next
    | apply Runs.elim
    | apply Only.after wControl_only
    | extract_lets
    | fail_if_no_progress refine Only.upd ?_
    | split
    | refine Only.ofPair (by assumption) ?_
    | intro _
    | dsimp only
    | dsimp +zetaDelta only

theorem execTenantDisable_only {a0 s} : Runs [.obj, .pow, .work, .radio, .out] s (execTenantDisable a0 s) := by
  unfold execTenantDisable
  with_reducible repeat' first
    | exact Only.refl _
    | assumption
    | decide
    | apply Runs.done
    | apply Runs.whenDue
    | apply Runs.answer
    | apply Runs.next
    | apply Runs.elim
    | apply Only.after wControl_only
    | extract_lets
    | fail_if_no_progress refine Only.upd ?_
    | split
    | refine Only.ofPair (by assumption) ?_
    | intro _
    | dsimp only
    | dsimp +zetaDelta only

theorem execCiAssign_only {a0 c s} : Runs [.obj, .text, .tim, .pow, .host, .dict, .work, .sage, .radio, .links, .noc, .dram, .sram, .mem, .out, .freeCtr] s (execCiAssign a0 c s) := by
  unfold execCiAssign
  with_reducible repeat' first
    | exact Only.refl _
    | assumption
    | decide
    | apply Runs.done
    | apply Runs.whenDue
    | apply Runs.answer
    | apply Runs.next
    | apply Runs.elim
    | apply Only.after wCiAssign_only
    | extract_lets
    | fail_if_no_progress refine Only.upd ?_
    | split
    | refine Only.ofPair (by assumption) ?_
    | intro _
    | dsimp only
    | dsimp +zetaDelta only

theorem execCiRemove_only {a0 c s} : Runs [.obj, .pow, .host, .work, .radio, .noc, .out] s (execCiRemove a0 c s) := by
  unfold execCiRemove
  with_reducible repeat' first
    | exact Only.refl _
    | assumption
    | decide
    | apply Runs.done
    | apply Runs.whenDue
    | apply Runs.answer
    | apply Runs.next
    | apply Runs.elim
    | apply Only.after wCiRemove_only
    | extract_lets
    | fail_if_no_progress refine Only.upd ?_
    | split
    | refine Only.ofPair (by assumption) ?_
    | intro _
    | dsimp only
    | dsimp +zetaDelta only

theorem execBudgetWrite_only {a0 k v s} : Runs [.obj, .host, .dict, .work, .out] s (execBudgetWrite a0 k v s) := by
  unfold execBudgetWrite
  with_reducible repeat' first
    | exact Only.refl _
    | assumption
    | decide
    | apply Runs.done
    | apply Runs.whenDue
    | apply Runs.answer
    | apply Runs.next
    | apply Runs.elim
    | apply Only.after wBudget_only
    | extract_lets
    | fail_if_no_progress refine Only.upd ?_
    | split
    | refine Only.ofPair (by assumption) ?_
    | intro _
    | dsimp only
    | dsimp +zetaDelta only

theorem execFlowLimit_only {a0 v s} : Runs [.obj, .out] s (execFlowLimit a0 v s) := by
  unfold execFlowLimit
  with_reducible repeat' first
    | exact Only.refl _
    | assumption
    | decide
    | apply Runs.done
    | apply Runs.whenDue
    | apply Runs.answer
    | apply Runs.next
    | apply Runs.elim
    | apply Only.after wFlowLimit_only
    | extract_lets
    | fail_if_no_progress refine Only.upd ?_
    | split
    | refine Only.ofPair (by assumption) ?_
    | intro _
    | dsimp only
    | dsimp +zetaDelta only

theorem execTenantMode_only {a0 pin v s} : Runs [.obj, .work, .out] s (execTenantMode a0 pin v s) := by
  unfold execTenantMode
  with_reducible repeat' first
    | exact Only.refl _
    | assumption
    | decide
    | apply Runs.done
    | apply Runs.whenDue
    | apply Runs.answer
    | apply Runs.next
    | apply Runs.elim
    | apply Only.after wTenantMode_only
    | extract_lets
    | fail_if_no_progress refine Only.upd ?_
    | split
    | refine Only.ofPair (by assumption) ?_
    | intro _
    | dsimp only
    | dsimp +zetaDelta only

theorem execDedicate_only {a0 loc ci s} : Runs [.work, .out] s (execDedicate a0 loc ci s) := by
  unfold execDedicate
  with_reducible repeat' first
    | exact Only.refl _
    | assumption
    | decide
    | apply Runs.done
    | apply Runs.whenDue
    | apply Runs.answer
    | apply Runs.next
    | apply Runs.elim
    | apply Only.after wDedicate_only
    | extract_lets
    | fail_if_no_progress refine Only.upd ?_
    | split
    | refine Only.ofPair (by assumption) ?_
    | intro _
    | dsimp only
    | dsimp +zetaDelta only

theorem execReleaseUnit_only {a0 loc s} : Runs [.work, .out] s (execReleaseUnit a0 loc s) := by
  unfold execReleaseUnit
  with_reducible repeat' first
    | exact Only.refl _
    | assumption
    | decide
    | apply Runs.done
    | apply Runs.whenDue
    | apply Runs.answer
    | apply Runs.next
    | apply Runs.elim
    | apply Only.after wReleaseUnit_only
    | extract_lets
    | fail_if_no_progress refine Only.upd ?_
    | split
    | refine Only.ofPair (by assumption) ?_
    | intro _
    | dsimp only
    | dsimp +zetaDelta only

theorem execEntryWrite_only {e s} : Runs [.obj, .host, .dict, .work, .out] s (execEntryWrite e s) := by
  unfold execEntryWrite
  with_reducible repeat' first
    | exact Only.refl _
    | assumption
    | decide
    | apply Runs.done
    | apply Runs.whenDue
    | apply Runs.answer
    | apply Runs.next
    | apply Runs.elim
    | apply Only.after wEntry_only
    | apply Only.after entryAnswer_only
    | extract_lets
    | fail_if_no_progress refine Only.upd ?_
    | split
    | refine Only.ofPair (by assumption) ?_
    | intro _
    | dsimp only
    | dsimp +zetaDelta only

theorem loadCore_only {u s} : Only [.work, .sage, .dram, .sram, .mem] s (loadCore u s) := by
  unfold loadCore
  with_reducible repeat' first
    | exact Only.refl _
    | assumption
    | decide
    | apply Only.after memStore_only
    | apply Only.after modUnit_only
    | apply Only.each
    | extract_lets
    | fail_if_no_progress refine Only.upd ?_
    | split
    | refine Only.ofPair (by assumption) ?_
    | intro _
    | dsimp only
    | dsimp +zetaDelta only

theorem execProgramImageLoad_only {u s} : Runs [.obj, .host, .dict, .work, .sage, .dram, .sram, .mem, .out] s (execProgramImageLoad u s) := by
  unfold execProgramImageLoad
  with_reducible repeat' first
    | exact Only.refl _
    | assumption
    | decide
    | apply Runs.done
    | apply Runs.whenDue
    | apply Runs.answer
    | apply Runs.next
    | apply Runs.elim
    | apply Only.after finishLoads_only
    | apply Only.after loadCore_only
    | extract_lets
    | fail_if_no_progress refine Only.upd ?_
    | split
    | refine Only.ofPair (by assumption) ?_
    | intro _
    | dsimp only
    | dsimp +zetaDelta only

theorem execMaintRequest_only {c v s} : Runs [.work, .out] s (execMaintRequest c v s) := by
  unfold execMaintRequest
  with_reducible repeat' first
    | exact Only.refl _
    | assumption
    | decide
    | apply Runs.done
    | apply Runs.whenDue
    | apply Runs.answer
    | apply Runs.next
    | apply Runs.elim
    | apply Only.after wMaintRequest_only
    | extract_lets
    | fail_if_no_progress refine Only.upd ?_
    | split
    | refine Only.ofPair (by assumption) ?_
    | intro _
    | dsimp only
    | dsimp +zetaDelta only

theorem noteSelftest_only {u pass s} : Only [.obj] s (noteSelftest u pass s) := by
  unfold noteSelftest
  with_reducible repeat' first
    | exact Only.refl _
    | assumption
    | decide
    | apply Only.after wr_only
    | extract_lets
    | fail_if_no_progress refine Only.upd ?_
    | split
    | refine Only.ofPair (by assumption) ?_
    | intro _
    | dsimp only
    | dsimp +zetaDelta only

theorem evSubstituted_only {cause out spare s} : Only [.obj, .host, .dict, .out] s (evSubstituted cause out spare s) := by
  unfold evSubstituted
  with_reducible repeat' first
    | exact Only.refl _
    | assumption
    | decide
    | apply Only.after ownerEvent_only
    | extract_lets
    | fail_if_no_progress refine Only.upd ?_
    | split
    | refine Only.ofPair (by assumption) ?_
    | intro _
    | dsimp only
    | dsimp +zetaDelta only

theorem coreFails_only {u s} : Only [.obj, .pow, .host, .dict, .work, .sage, .radio, .noc, .sram, .out] s (coreFails u s) := by
  unfold coreFails
  with_reducible repeat' first
    | exact Only.refl _
    | assumption
    | decide
    | apply Only.after coreOut_only
    | apply Only.after roleNow_only
    | apply Only.after modUnit_only
    | extract_lets
    | fail_if_no_progress refine Only.upd ?_
    | split
    | refine Only.ofPair (by assumption) ?_
    | intro _
    | dsimp only
    | dsimp +zetaDelta only

theorem coreTestEnd_only {u pass s} : Only [.obj, .pow, .host, .dict, .work, .sage, .radio, .noc, .dram, .sram, .mem, .out] s (coreTestEnd u pass s) := by
  unfold coreTestEnd
  with_reducible repeat' first
    | exact Only.refl _
    | assumption
    | decide
    | apply Only.after noteSelftest_only
    | apply Only.after evSubstituted_only
    | apply Only.after roleNow_only
    | apply Only.after loadCore_only
    | apply Only.after modUnit_only
    | apply Only.after coreFails_only
    | extract_lets
    | fail_if_no_progress refine Only.upd ?_
    | split
    | refine Only.ofPair (by assumption) ?_
    | intro _
    | dsimp only
    | dsimp +zetaDelta only

theorem execMaintTaskEnd_only {u pass s} : Runs [.obj, .pow, .host, .dict, .work, .sage, .radio, .noc, .dram, .sram, .mem, .out] s (execMaintTaskEnd u pass s) := by
  unfold execMaintTaskEnd
  with_reducible repeat' first
    | exact Only.refl _
    | assumption
    | decide
    | apply Runs.done
    | apply Runs.whenDue
    | apply Runs.answer
    | apply Runs.next
    | apply Runs.elim
    | apply Only.after finishLoads_only
    | apply Only.after coreTestEnd_only
    | extract_lets
    | fail_if_no_progress refine Only.upd ?_
    | split
    | refine Only.ofPair (by assumption) ?_
    | intro _
    | dsimp only
    | dsimp +zetaDelta only

end Sys2Proof.Machine
end

