-- ==== Sys2Proof/Laws/OnlyDictWrite.lean ====
section
/-!
SUPPORT. The frame of every operation of Machine/DictWrite.lean: the parts of the state it can change.
-/
namespace Sys2Proof.Machine

set_option Elab.async false

set_option linter.unusedTactic false
set_option linter.unreachableTactic false
set_option linter.unusedVariables false

theorem routeNotify_only {i v s} : Only [.obj, .host, .dict, .out] s (routeNotify i v s) := by
  unfold routeNotify
  with_reducible repeat' first
    | exact Only.refl _
    | assumption
    | decide
    | apply Only.after routeSend_only
    | extract_lets
    | fail_if_no_progress refine Only.upd ?_
    | split
    | refine Only.ofPair (by assumption) ?_
    | intro _
    | dsimp only
    | dsimp +zetaDelta only

theorem notifyChanges_only {s} : Only [.obj, .host, .dict, .out] s (notifyChanges s) := by
  unfold notifyChanges
  with_reducible repeat' first
    | exact Only.refl _
    | assumption
    | decide
    | apply Only.after routeNotify_only
    | apply Only.each
    | extract_lets
    | fail_if_no_progress refine Only.upd ?_
    | split
    | refine Only.ofPair (by assumption) ?_
    | intro _
    | dsimp only
    | dsimp +zetaDelta only

theorem wRoute_only {i v s} : Only [.obj, .host, .dict, .out] s (wRoute i v s).2 := by
  unfold wRoute
  with_reducible repeat' first
    | exact Only.refl _
    | assumption
    | decide
    | apply Only.after wr_only
    | apply Only.after accepted_only
    | apply Only.after routeNotify_only
    | apply Only.after refusedW_only
    | extract_lets
    | fail_if_no_progress refine Only.upd ?_
    | split
    | refine Only.ofPair (by assumption) ?_
    | intro _
    | dsimp only
    | dsimp +zetaDelta only

theorem wStore_only {v reply s} : Only [.obj, .dict] s (wStore v reply s).2 := by
  unfold wStore
  with_reducible repeat' first
    | exact Only.refl _
    | assumption
    | decide
    | apply Only.after refusedW_only
    | apply Only.after accepted_only
    | apply Only.after wr_only
    | extract_lets
    | fail_if_no_progress refine Only.upd ?_
    | split
    | refine Only.ofPair (by assumption) ?_
    | intro _
    | dsimp only
    | dsimp +zetaDelta only

theorem copyBad_only {b ok s} : Only [.dict] s (copyBad b ok s) := by
  unfold copyBad
  with_reducible repeat' first
    | exact Only.refl _
    | assumption
    | decide
    | apply Only.after histAdd_only
    | extract_lets
    | fail_if_no_progress refine Only.upd ?_
    | split
    | refine Only.ofPair (by assumption) ?_
    | intro _
    | dsimp only
    | dsimp +zetaDelta only

theorem storeEnd_only {okA okB l s} : Only [.obj, .host, .dict, .out] s (storeEnd okA okB l s) := by
  unfold storeEnd
  with_reducible repeat' first
    | exact Only.refl _
    | assumption
    | decide
    | apply Only.after copyBad_only
    | apply Only.after wr_only
    | apply Only.after giveReply_only
    | extract_lets
    | fail_if_no_progress refine Only.upd ?_
    | split
    | refine Only.ofPair (by assumption) ?_
    | intro _
    | dsimp only
    | dsimp +zetaDelta only

theorem bothCopies_only {l s} : Only [.dict] s (bothCopies l s) := by
  unfold bothCopies
  with_reducible repeat' first
    | exact Only.refl _
    | assumption
    | decide
    | extract_lets
    | fail_if_no_progress refine Only.upd ?_
    | split
    | refine Only.ofPair (by assumption) ?_
    | intro _
    | dsimp only
    | dsimp +zetaDelta only

theorem wRestore_only {v s} : Only [.dict] s (wRestore v s).2 := by
  unfold wRestore
  with_reducible repeat' first
    | exact Only.refl _
    | assumption
    | decide
    | apply Only.after accepted_only
    | apply Only.after bothCopies_only
    | apply Only.after refusedW_only
    | extract_lets
    | fail_if_no_progress refine Only.upd ?_
    | split
    | refine Only.ofPair (by assumption) ?_
    | intro _
    | dsimp only
    | dsimp +zetaDelta only

theorem wImage_only {l s} : Only [.dict] s (wImage l s).2 := by
  unfold wImage
  with_reducible repeat' first
    | exact Only.refl _
    | assumption
    | decide
    | apply Only.after refusedW_only
    | apply Only.after accepted_only
    | apply Only.after bothCopies_only
    | extract_lets
    | fail_if_no_progress refine Only.upd ?_
    | split
    | refine Only.ofPair (by assumption) ?_
    | intro _
    | dsimp only
    | dsimp +zetaDelta only

theorem wHistClear_only {v s} : Only [.dict] s (wHistClear v s).2 := by
  unfold wHistClear
  with_reducible repeat' first
    | exact Only.refl _
    | assumption
    | decide
    | apply Only.after accepted_only
    | apply Only.after refusedW_only
    | extract_lets
    | fail_if_no_progress refine Only.upd ?_
    | split
    | refine Only.ofPair (by assumption) ?_
    | intro _
    | dsimp only
    | dsimp +zetaDelta only

theorem setLoc_only {x s} : Only [.obj, .text] s (setLoc x s) := by
  unfold setLoc
  with_reducible repeat' first
    | exact Only.refl _
    | assumption
    | decide
    | apply Only.after wr_only
    | extract_lets
    | fail_if_no_progress refine Only.upd ?_
    | split
    | refine Only.ofPair (by assumption) ?_
    | intro _
    | dsimp only
    | dsimp +zetaDelta only

theorem wLocText_only {l s} : Only [.obj, .text] s (wLocText l s).2 := by
  unfold wLocText
  with_reducible repeat' first
    | exact Only.refl _
    | assumption
    | decide
    | apply Only.after accepted_only
    | apply Only.after setLoc_only
    | apply Only.after refusedW_only
    | extract_lets
    | fail_if_no_progress refine Only.upd ?_
    | split
    | refine Only.ofPair (by assumption) ?_
    | intro _
    | dsimp only
    | dsimp +zetaDelta only

theorem wLocPacked_only {v s} : Only [.obj, .text] s (wLocPacked v s).2 := by
  unfold wLocPacked
  with_reducible repeat' first
    | exact Only.refl _
    | assumption
    | decide
    | apply Only.after accepted_only
    | apply Only.after setLoc_only
    | apply Only.after refusedW_only
    | extract_lets
    | fail_if_no_progress refine Only.upd ?_
    | split
    | refine Only.ofPair (by assumption) ?_
    | intro _
    | dsimp only
    | dsimp +zetaDelta only

theorem setSlot_only {n m s} : Only [.boot] s (setSlot n m s) := by
  unfold setSlot
  with_reducible repeat' first
    | exact Only.refl _
    | assumption
    | decide
    | extract_lets
    | fail_if_no_progress refine Only.upd ?_
    | split
    | refine Only.ofPair (by assumption) ?_
    | intro _
    | dsimp only
    | dsimp +zetaDelta only

theorem wFirmware_only {l readBack s} : Only [.boot] s (wFirmware l readBack s).2 := by
  unfold wFirmware
  with_reducible repeat' first
    | exact Only.refl _
    | assumption
    | decide
    | apply Only.after refusedW_only
    | apply Only.after accepted_only
    | apply Only.after setSlot_only
    | extract_lets
    | fail_if_no_progress refine Only.upd ?_
    | split
    | refine Only.ofPair (by assumption) ?_
    | intro _
    | dsimp only
    | dsimp +zetaDelta only

theorem afterWrite_only {idx sub s} : Only [.obj, .tim, .pow, .host, .dict, .out] s (afterWrite idx sub s) := by
  unfold afterWrite
  with_reducible repeat' first
    | exact Only.refl _
    | assumption
    | decide
    | apply Only.after checkSelected_only
    | apply Only.after refreshQuality_only
    | extract_lets
    | fail_if_no_progress refine Only.upd ?_
    | split
    | refine Only.ofPair (by assumption) ?_
    | intro _
    | dsimp only
    | dsimp +zetaDelta only

theorem plainValue_only {r idx sub v l s} : Only [.obj, .text, .tim, .pow, .host, .dict, .out] s (plainValue r idx sub v l s).2 := by
  unfold plainValue
  with_reducible repeat' first
    | exact Only.refl _
    | assumption
    | decide
    | apply Only.after refusedW_only
    | apply Only.after accepted_only
    | apply Only.after afterWrite_only
    | apply Only.after wr_only
    | extract_lets
    | fail_if_no_progress refine Only.upd ?_
    | split
    | refine Only.ofPair (by assumption) ?_
    | intro _
    | dsimp only
    | dsimp +zetaDelta only

theorem wPlain_only {r idx sub v l s} : Only [.obj, .text, .tim, .pow, .host, .dict, .out] s (wPlain r idx sub v l s).2 := by
  unfold wPlain
  with_reducible repeat' first
    | exact Only.refl _
    | assumption
    | decide
    | apply Only.after refusedW_only
    | apply Only.after plainValue_only
    | extract_lets
    | fail_if_no_progress refine Only.upd ?_
    | split
    | refine Only.ofPair (by assumption) ?_
    | intro _
    | dsimp only
    | dsimp +zetaDelta only

theorem pickFrom_only {n s} : Only [.freeCtr] s (pickFrom n s).2 := by
  unfold pickFrom
  with_reducible repeat' first
    | exact Only.refl _
    | assumption
    | decide
    | apply Only.after draw_only
    | extract_lets
    | fail_if_no_progress refine Only.upd ?_
    | split
    | refine Only.ofPair (by assumption) ?_
    | intro _
    | dsimp only
    | dsimp +zetaDelta only

theorem measured_only {f s} (h0 : ∀ a0 a1, Only [.obj, .text, .tim, .pow, .host, .dict, .work, .sage, .radio, .links, .noc, .dram, .sram, .mem, .out, .freeCtr] a1 (f a0 a1).2) : Only [.obj, .text, .tim, .pow, .host, .dict, .work, .sage, .radio, .links, .noc, .dram, .sram, .mem, .out, .freeCtr] s (measured f s).2 := by
  unfold measured
  with_reducible repeat' first
    | exact Only.refl _
    | assumption
    | decide
    | apply Only.after pickFrom_only
    | apply Only.after (h0 _ _)
    | extract_lets
    | fail_if_no_progress refine Only.upd ?_
    | split
    | refine Only.ofPair (by assumption) ?_
    | intro _
    | dsimp only
    | dsimp +zetaDelta only

theorem ownTenant_only {t k sub v f s} (h : ownTenant t k sub v = some f) : Only [.obj, .text, .tim, .pow, .host, .dict, .work, .sage, .radio, .links, .noc, .dram, .sram, .mem, .out, .freeCtr] s (f s).2 := by
  unfold ownTenant at h
  repeat' first
    | (injection h with h; subst h)
    | split at h
  all_goals first
    | exact nomatch h
    | exact wControl_only.mono
    | exact wCiAssign_only.mono
    | exact wCiRemove_only.mono
    | exact wBudget_only.mono
    | exact wVoteSet_only.mono
    | exact wFlowLimit_only.mono
    | exact wTenantMode_only.mono
    | exact wDedicate_only.mono
    | exact wReleaseUnit_only.mono
    | exact wBindSet_only.mono
    | exact wUnbind_only.mono
    | exact wResSet_only.mono
    | exact wIdtQuota_only.mono

theorem ownLane_only {n k sub v f s} (h : ownLane n k sub v = some f) : Only [.obj, .text, .tim, .pow, .host, .dict, .work, .sage, .radio, .links, .noc, .dram, .sram, .mem, .out, .freeCtr] s (f s).2 := by
  unfold ownLane at h
  repeat' first
    | (injection h with h; subst h)
    | split at h
  all_goals first
    | exact nomatch h
    | exact wLaneRate_only.mono
    | exact wPrecode_only.mono
    | exact wTestMode_only.mono
    | exact wSwing_only.mono
    | exact wTap_only.mono
    | exact wCtleMode_only.mono
    | exact wCtleCode_only.mono
    | exact wCdrBw_only.mono
    | exact wLaneRecentre_only.mono
    | exact wPrbsClear_only.mono
    | exact (measured_only fun _ _ => wReqState_only.mono).mono

theorem ownPort_only {p k sub v f s} (h : ownPort p k sub v = some f) : Only [.obj, .text, .tim, .pow, .host, .dict, .work, .sage, .radio, .links, .noc, .dram, .sram, .mem, .out, .freeCtr] s (f s).2 := by
  unfold ownPort at h
  repeat' first
    | (injection h with h; subst h)
    | split at h
  all_goals first
    | exact nomatch h
    | exact wPortMode_only.mono
    | exact wAxcBind_only.mono
    | exact wAxcUnbind_only.mono
    | exact wOwdmStart_only.mono

theorem ownTiming_only {idx sub v f s} (h : ownTiming idx sub v = some f) : Only [.obj, .text, .tim, .pow, .host, .dict, .work, .sage, .radio, .links, .noc, .dram, .sram, .mem, .out, .freeCtr] s (f s).2 := by
  unfold ownTiming at h
  repeat' first
    | (injection h with h; subst h)
    | split at h
  all_goals first
    | exact nomatch h
    | exact wClkSet_only.mono
    | exact wCiConfig_only.mono
    | exact wRefEnable_only.mono
    | exact wLoopMode_only.mono
    | exact wForceRef_only.mono
    | exact wSwFreq_only.mono
    | exact wDtcAdjust_only.mono
    | exact Only.after (measured_only (f := fun u => wDomainRecentre (idx - 0x1010) v (pickFrom 65536 s).1 u (pickFrom 4 (pickFrom 65536 s).2).1) fun _ _ => wDomainRecentre_only.mono) (by decide) (Only.after (pickFrom_only (n := 4)) (by decide) (pickFrom_only (n := 65536)).mono)

theorem ownOther_only {idx sub v l f s} (h : ownOther idx sub v l = some f) : Only [.obj, .text, .tim, .pow, .host, .dict, .work, .sage, .radio, .links, .noc, .dram, .sram, .mem, .out, .freeCtr] s (f s).2 := by
  unfold ownOther at h
  repeat' first
    | (injection h with h; subst h)
    | split at h
  all_goals first
    | exact nomatch h
    | exact Only.after (wLedgerWrite_only (s := (pickFrom 16 s).2)) (by decide) (pickFrom_only (n := 16)).mono
    | exact wImage_only.mono
    | exact wRestore_only.mono
    | exact wHistClear_only.mono
    | exact wStart_only.mono
    | exact wTemplatesEnable_only.mono
    | exact wTemplateSlots_only.mono
    | exact wLddCapSet_only.mono
    | exact wSbCount_only.mono
    | exact wSbNcbMax_only.mono
    | exact wSbQuotaSet_only.mono
    | exact wEntry_only.mono
    | exact wIdtRebuild_only.mono
    | exact wBucketsMax_only.mono
    | exact wLocText_only.mono
    | exact wLocPacked_only.mono
    | exact wRoute_only.mono
    | exact wResume_only.mono
    | exact wDramRecentre_only.mono
    | exact wMaintRequest_only.mono
    | exact wScanStart_only.mono
    | exact wScanAbort_only.mono

theorem ownWrite_only {idx sub v l f s} (h : ownWrite idx sub v l = some f) : Only [.obj, .text, .tim, .pow, .host, .dict, .work, .sage, .radio, .links, .noc, .dram, .sram, .mem, .out, .freeCtr] s (f s).2 := by
  unfold ownWrite at h
  split_ifs at h
  · exact ownTenant_only h
  · exact ownLane_only h
  · exact ownPort_only h
  · exact ownTiming_only h
  · exact ownOther_only h

theorem writeValue_only {r idx sub l s} : Only [.obj, .text, .tim, .pow, .host, .dict, .work, .sage, .radio, .links, .noc, .dram, .sram, .mem, .out, .freeCtr] s (writeValue r idx sub l s).2 := by
  unfold writeValue
  dsimp only
  split
  · rename_i f hf
    have h := ownWrite_only (s := s) hf
    split
    · rename_i a t ht
      rw [ht] at h; exact h
    · rename_i t ht
      rw [ht] at h
      split
      · exact h
      · exact Only.refl _
  · exact wPlain_only.mono

theorem writeObject_only {req idx sub l s} : Only [.obj, .text, .tim, .pow, .host, .dict, .work, .sage, .radio, .links, .noc, .dram, .sram, .mem, .out, .freeCtr] s (writeObject req idx sub l s).2 := by
  unfold writeObject
  with_reducible repeat' first
    | exact Only.refl _
    | assumption
    | decide
    | apply Only.after refusedW_only
    | apply Only.after writeValue_only
    | extract_lets
    | fail_if_no_progress refine Only.upd ?_
    | split
    | refine Only.ofPair (by assumption) ?_
    | intro _
    | dsimp only
    | dsimp +zetaDelta only

end Sys2Proof.Machine
end

