-- ==== Sys2Proof/Laws/OnlyMesh.lean ====
section
/-!
SUPPORT. The frame of every operation of Machine/Mesh.lean: the parts of the state it can change.
-/
namespace Sys2Proof.Machine

set_option Elab.async false

set_option linter.unusedTactic false
set_option linter.unreachableTactic false
set_option linter.unusedVariables false

theorem meshHole_only {src tenant a s} : Only [.obj, .out] s (meshHole src tenant a s) := by
  unfold meshHole
  with_reducible repeat' first
    | exact Only.refl _
    | assumption
    | decide
    | apply Only.after accessError_only
    | apply Only.after send_only
    | extract_lets
    | fail_if_no_progress refine Only.upd ?_
    | split
    | refine Only.ofPair (by assumption) ?_
    | intro _
    | dsimp only
    | dsimp +zetaDelta only

theorem discardPacket_only {net src dst r s} : Only [.obj, .host, .dict, .noc, .out] s (discardPacket net src dst r s) := by
  unfold discardPacket
  with_reducible repeat' first
    | exact Only.refl _
    | assumption
    | decide
    | apply Only.after bump_only
    | apply Only.after ownerEvent_only
    | extract_lets
    | fail_if_no_progress refine Only.upd ?_
    | split
    | refine Only.ofPair (by assumption) ?_
    | intro _
    | dsimp only
    | dsimp +zetaDelta only

theorem respond_only {a0 s} : Only [.noc] s (respond a0 s) := by
  unfold respond
  with_reducible repeat' first
    | exact Only.refl _
    | assumption
    | decide
    | extract_lets
    | fail_if_no_progress refine Only.upd ?_
    | split
    | refine Only.ofPair (by assumption) ?_
    | intro _
    | dsimp only
    | dsimp +zetaDelta only

theorem giveAnswer_only {a0 data bad s} : Only [.noc, .out] s (giveAnswer a0 data bad s) := by
  unfold giveAnswer
  with_reducible repeat' first
    | exact Only.refl _
    | assumption
    | decide
    | apply Only.after send_only
    | apply Only.after respond_only
    | extract_lets
    | fail_if_no_progress refine Only.upd ?_
    | split
    | refine Only.ofPair (by assumption) ?_
    | intro _
    | dsimp only
    | dsimp +zetaDelta only

theorem performPacket_only {a0 s} : Only [.obj, .host, .dict, .noc, .dram, .sram, .mem, .out] s (performPacket a0 s) := by
  unfold performPacket
  with_reducible repeat' first
    | exact Only.refl _
    | assumption
    | decide
    | apply Only.after dramAccess_only
    | apply Only.after setPoison_only
    | apply Only.after giveAnswer_only
    | apply Only.after startRead_only
    | apply Only.after hostWriteFor_only
    | apply Only.after demandFault_only
    | apply Only.after poisonRange_only
    | apply Only.after memStore_only
    | apply Only.each
    | extract_lets
    | fail_if_no_progress refine Only.upd ?_
    | split
    | refine Only.ofPair (by assumption) ?_
    | intro _
    | dsimp only
    | dsimp +zetaDelta only

theorem deliver_only {a0 s} : Only [.obj, .host, .dict, .noc, .dram, .sram, .mem, .out] s (deliver a0 s) := by
  unfold deliver
  with_reducible repeat' first
    | exact Only.refl _
    | assumption
    | decide
    | apply Only.after send_only
    | apply Only.after performPacket_only
    | extract_lets
    | fail_if_no_progress refine Only.upd ?_
    | split
    | refine Only.ofPair (by assumption) ?_
    | intro _
    | dsimp only
    | dsimp +zetaDelta only

theorem holdPacket_only {a0 s} : Only [.obj, .noc] s (holdPacket a0 s) := by
  unfold holdPacket
  with_reducible repeat' first
    | exact Only.refl _
    | assumption
    | decide
    | apply Only.after bump_only
    | apply Only.after bumpBy_only
    | extract_lets
    | fail_if_no_progress refine Only.upd ?_
    | split
    | refine Only.ofPair (by assumption) ?_
    | intro _
    | dsimp only
    | dsimp +zetaDelta only

theorem arrive_only {a0 s} : Only [.obj, .pow, .host, .dict, .noc, .dram, .sram, .mem, .out] s (arrive a0 s) := by
  unfold arrive
  with_reducible repeat' first
    | exact Only.refl _
    | assumption
    | decide
    | apply Only.after deliver_only
    | apply Only.after holdPacket_only
    | apply Only.after domainWake_only
    | extract_lets
    | fail_if_no_progress refine Only.upd ?_
    | split
    | refine Only.ofPair (by assumption) ?_
    | intro _
    | dsimp only
    | dsimp +zetaDelta only

theorem countFlits_only {a0 s} : Only [.noc, .out] s (countFlits a0 s) := by
  unfold countFlits
  with_reducible repeat' first
    | exact Only.refl _
    | assumption
    | decide
    | apply Only.after send_only
    | apply Only.foldl
    | apply Only.foldlSnd
    | apply Only.foldlThd
    | extract_lets
    | fail_if_no_progress refine Only.upd ?_
    | split
    | refine Only.ofPair (by assumption) ?_
    | intro _
    | dsimp only
    | dsimp +zetaDelta only

theorem sendRequest_only {a0 badAt s} : Only [.obj, .pow, .host, .dict, .noc, .dram, .sram, .mem, .out] s (sendRequest a0 badAt s) := by
  unfold sendRequest
  with_reducible repeat' first
    | exact Only.refl _
    | assumption
    | decide
    | apply Only.after discardPacket_only
    | apply Only.after arrive_only
    | apply Only.after countFlits_only
    | extract_lets
    | fail_if_no_progress refine Only.upd ?_
    | split
    | refine Only.ofPair (by assumption) ?_
    | intro _
    | dsimp only
    | dsimp +zetaDelta only

theorem execNocReadRequest_only {src addr len tenant port gt badAt s} : Runs [.obj, .pow, .host, .dict, .noc, .dram, .sram, .mem, .out] s (execNocReadRequest src addr len tenant port gt badAt s) := by
  unfold execNocReadRequest
  with_reducible repeat' first
    | exact Only.refl _
    | assumption
    | decide
    | apply Runs.done
    | apply Runs.whenDue
    | apply Runs.answer
    | apply Runs.next
    | apply Runs.elim
    | apply Only.after meshHole_only
    | apply Only.after sendRequest_only
    | extract_lets
    | fail_if_no_progress refine Only.upd ?_
    | split
    | refine Only.ofPair (by assumption) ?_
    | intro _
    | dsimp only
    | dsimp +zetaDelta only

theorem countBytes_only {corrected poisoned s} : Only [.obj] s (countBytes corrected poisoned s) := by
  unfold countBytes
  with_reducible repeat' first
    | exact Only.refl _
    | assumption
    | decide
    | apply Only.after bumpBy_only
    | extract_lets
    | fail_if_no_progress refine Only.upd ?_
    | split
    | refine Only.ofPair (by assumption) ?_
    | intro _
    | dsimp only
    | dsimp +zetaDelta only

theorem execNocWrite_only {src addr data tenant port gt badAt poisoned corrected s} : Runs [.obj, .pow, .host, .dict, .noc, .dram, .sram, .mem, .out] s (execNocWrite src addr data tenant port gt badAt poisoned corrected s) := by
  unfold execNocWrite
  with_reducible repeat' first
    | exact Only.refl _
    | assumption
    | decide
    | apply Runs.done
    | apply Runs.whenDue
    | apply Runs.answer
    | apply Runs.next
    | apply Runs.elim
    | apply Only.after meshHole_only
    | apply Only.after sendRequest_only
    | apply Only.after countBytes_only
    | extract_lets
    | fail_if_no_progress refine Only.upd ?_
    | split
    | refine Only.ofPair (by assumption) ?_
    | intro _
    | dsimp only
    | dsimp +zetaDelta only

theorem takeResponse_only {kind src dst s p t} : takeResponse kind src dst s = some (p, t) → Only [.noc] s t := by
  unfold takeResponse
  intro h
  dsimp only at h
  split at h
  · cases h
  · cases h; exact Only.upd (Only.refl _)

theorem sendResponse_only {kind src dst badAt more s} : Only [.obj, .pow, .host, .dict, .noc, .dram, .sram, .mem, .out] s (sendResponse kind src dst badAt more s) := by
  unfold sendResponse
  with_reducible repeat' first
    | exact Only.refl _
    | assumption
    | decide
    | apply Only.after (takeResponse_only (by assumption))
    | apply Only.after discardPacket_only
    | apply Only.after arrive_only
    | apply Only.after countFlits_only
    | extract_lets
    | fail_if_no_progress refine Only.upd ?_
    | split
    | refine Only.ofPair (by assumption) ?_
    | intro _
    | dsimp only
    | dsimp +zetaDelta only

theorem execNocReadData_only {src dst badAt poisoned corrected s} : Runs [.obj, .pow, .host, .dict, .noc, .dram, .sram, .mem, .out] s (execNocReadData src dst badAt poisoned corrected s) := by
  unfold execNocReadData
  with_reducible repeat' first
    | exact Only.refl _
    | assumption
    | decide
    | apply Runs.done
    | apply Runs.whenDue
    | apply Runs.answer
    | apply Runs.next
    | apply Runs.elim
    | apply Only.after (takeResponse_only (by assumption))
    | apply Only.after sendResponse_only
    | apply Only.after countBytes_only
    | extract_lets
    | fail_if_no_progress refine Only.upd ?_
    | split
    | refine Only.ofPair (by assumption) ?_
    | intro _
    | dsimp only
    | dsimp +zetaDelta only

theorem execNocWriteAck_only {src dst badAt s} : Runs [.obj, .pow, .host, .dict, .noc, .dram, .sram, .mem, .out] s (execNocWriteAck src dst badAt s) := by
  unfold execNocWriteAck
  with_reducible repeat' first
    | exact Only.refl _
    | assumption
    | decide
    | apply Runs.done
    | apply Runs.whenDue
    | apply Runs.answer
    | apply Runs.next
    | apply Runs.elim
    | apply Only.after sendResponse_only
    | extract_lets
    | fail_if_no_progress refine Only.upd ?_
    | split
    | refine Only.ofPair (by assumption) ?_
    | intro _
    | dsimp only
    | dsimp +zetaDelta only

theorem loseMemory_only {d s} : Only [.sram, .mem] s (loseMemory d s) := by
  unfold loseMemory
  with_reducible repeat' first
    | exact Only.refl _
    | assumption
    | decide
    | apply Only.after loseRange_only
    | extract_lets
    | fail_if_no_progress refine Only.upd ?_
    | split
    | refine Only.ofPair (by assumption) ?_
    | intro _
    | dsimp only
    | dsimp +zetaDelta only

theorem logicReset_only {d from_ s} : Only [.work, .sage, .dram, .sram, .mem] s (logicReset d from_ s) := by
  unfold logicReset
  with_reducible repeat' first
    | exact Only.refl _
    | assumption
    | decide
    | apply Only.after loadCore_only
    | apply Only.after loseMemory_only
    | apply Only.after modUnit_only
    | apply Only.each
    | extract_lets
    | fail_if_no_progress refine Only.upd ?_
    | split
    | refine Only.ofPair (by assumption) ?_
    | intro _
    | dsimp only
    | dsimp +zetaDelta only

theorem recordsStale_only {d s} : Only [.obj, .pow, .host, .dict, .sage, .links, .dram, .out] s (recordsStale d s) := by
  unfold recordsStale
  with_reducible repeat' first
    | exact Only.refl _
    | assumption
    | decide
    | apply Only.after marginStale_only
    | apply Only.after laneGuard_only
    | apply Only.after checkRecord_only
    | apply Only.each
    | extract_lets
    | fail_if_no_progress refine Only.upd ?_
    | split
    | refine Only.ofPair (by assumption) ?_
    | intro _
    | dsimp only
    | dsimp +zetaDelta only

theorem saveListBad_only {d rewritten s} : Only [.obj, .text, .tim, .pow, .boot, .host, .dict, .work, .sage, .radio, .links, .noc, .dram, .sram, .mem, .out] s (saveListBad d rewritten s) := by
  unfold saveListBad
  with_reducible repeat' first
    | exact Only.refl _
    | assumption
    | decide
    | apply Only.after startFlow_only
    | apply Only.after powerEvent_only
    | apply Only.after endFlow_only
    | apply Only.after recordsStale_only
    | apply Only.after escalate_only
    | extract_lets
    | fail_if_no_progress refine Only.upd ?_
    | split
    | refine Only.ofPair (by assumption) ?_
    | intro _
    | dsimp only
    | dsimp +zetaDelta only

theorem releaseHolds_only {d s} : Only [.obj, .host, .dict, .noc, .dram, .sram, .mem, .out] s (releaseHolds d s) := by
  unfold releaseHolds
  with_reducible repeat' first
    | exact Only.refl _
    | assumption
    | decide
    | apply Only.after peak_only
    | apply Only.after deliver_only
    | apply Only.each
    | extract_lets
    | fail_if_no_progress refine Only.upd ?_
    | split
    | refine Only.ofPair (by assumption) ?_
    | intro _
    | dsimp only
    | dsimp +zetaDelta only

theorem channelWakes_only {d from_ s} : Only [.obj, .host, .dict, .dram, .out] s (channelWakes d from_ s) := by
  unfold channelWakes
  with_reducible repeat' first
    | exact Only.refl _
    | assumption
    | decide
    | apply Only.after wr_only
    | apply Only.after checkRecord_only
    | apply Only.each
    | extract_lets
    | fail_if_no_progress refine Only.upd ?_
    | split
    | refine Only.ofPair (by assumption) ?_
    | intro _
    | dsimp only
    | dsimp +zetaDelta only

theorem exitDone_only {d saveOk rewritten s} : Only [.obj, .text, .tim, .pow, .boot, .host, .dict, .work, .sage, .radio, .links, .noc, .dram, .sram, .mem, .out] s (exitDone d saveOk rewritten s) := by
  unfold exitDone
  with_reducible repeat' first
    | exact Only.refl _
    | assumption
    | decide
    | apply Only.after powerStat_only
    | apply Only.after setDomState_only
    | apply Only.after modDom_only
    | apply Only.after logicReset_only
    | apply Only.after saveListBad_only
    | apply Only.after releaseHolds_only
    | apply Only.after channelWakes_only
    | extract_lets
    | fail_if_no_progress refine Only.upd ?_
    | split
    | refine Only.ofPair (by assumption) ?_
    | intro _
    | dsimp only
    | dsimp +zetaDelta only

theorem execDomainExitDone_only {d saveOk rewritten s} : Runs [.obj, .text, .tim, .pow, .boot, .host, .dict, .work, .sage, .radio, .links, .noc, .dram, .sram, .mem, .out] s (execDomainExitDone d saveOk rewritten s) := by
  unfold execDomainExitDone
  with_reducible repeat' first
    | exact Only.refl _
    | assumption
    | decide
    | apply Runs.done
    | apply Runs.whenDue
    | apply Runs.answer
    | apply Runs.next
    | apply Runs.elim
    | apply Only.after govern_only
    | apply Only.after exitDone_only
    | extract_lets
    | fail_if_no_progress refine Only.upd ?_
    | split
    | refine Only.ofPair (by assumption) ?_
    | intro _
    | dsimp only
    | dsimp +zetaDelta only

theorem meshReadsDone_only {s} : Only [.host, .noc, .out] s (meshReadsDone s) := by
  unfold meshReadsDone
  with_reducible repeat' first
    | exact Only.refl _
    | assumption
    | decide
    | apply Only.after send_only
    | apply Only.after dropRead_only
    | apply Only.after respond_only
    | apply Only.each
    | extract_lets
    | fail_if_no_progress refine Only.upd ?_
    | split
    | refine Only.ofPair (by assumption) ?_
    | intro _
    | dsimp only
    | dsimp +zetaDelta only

end Sys2Proof.Machine
end

