-- ==== Sys2Proof/Laws/OnlyHostLink.lean ====
section
/-!
SUPPORT. The frame of every operation of Machine/HostLink.lean: the parts of the state it can change.
-/
namespace Sys2Proof.Machine

set_option Elab.async false

set_option linter.unusedTactic false
set_option linter.unreachableTactic false
set_option linter.unusedVariables false

theorem configured_only {k : List Part} {fn f s} (hf : Runs k s (f s)) (hk : Part.out ∈ k) : Runs k s (configured fn f s) := by
  unfold configured
  split
  · exact hf
  · refine Runs.done ?_
    split
    · exact send_only.mono fun p hp => by rw [List.mem_singleton.mp hp]; exact hk
    · exact Only.refl _

theorem mailboxWrite_only {f o be v s} : Only [.host] s (mailboxWrite f o be v s) := by
  unfold mailboxWrite
  with_reducible repeat' first
    | exact Only.refl _
    | assumption
    | decide
    | apply Only.after modFn_only
    | extract_lets
    | fail_if_no_progress refine Only.upd ?_
    | split
    | refine Only.ofPair (by assumption) ?_
    | intro _
    | dsimp only
    | dsimp +zetaDelta only

theorem eqEnable_only {f s} : Only [.obj, .host, .out] s (eqEnable f s) := by
  unfold eqEnable
  with_reducible repeat' first
    | exact Only.refl _
    | assumption
    | decide
    | apply Only.after eqDrain_only
    | apply Only.after modFn_only
    | apply Only.after aeNote_only
    | extract_lets
    | fail_if_no_progress refine Only.upd ?_
    | split
    | refine Only.ofPair (by assumption) ?_
    | intro _
    | dsimp only
    | dsimp +zetaDelta only

theorem eqDisable_only {f s} : Only [.host] s (eqDisable f s) := by
  unfold eqDisable
  with_reducible repeat' first
    | exact Only.refl _
    | assumption
    | decide
    | apply Only.after modFn_only
    | extract_lets
    | fail_if_no_progress refine Only.upd ?_
    | split
    | refine Only.ofPair (by assumption) ?_
    | intro _
    | dsimp only
    | dsimp +zetaDelta only

theorem eqHead_only {f be idx s} : Only [.obj, .host, .out] s (eqHead f be idx s) := by
  unfold eqHead
  with_reducible repeat' first
    | exact Only.refl _
    | assumption
    | decide
    | apply Only.after aeNote_only
    | apply Only.after eqDrain_only
    | apply Only.after modFn_only
    | extract_lets
    | fail_if_no_progress refine Only.upd ?_
    | split
    | refine Only.ofPair (by assumption) ?_
    | intro _
    | dsimp only
    | dsimp +zetaDelta only

theorem qpEnable_only {f n s} : Only [.host] s (qpEnable f n s) := by
  unfold qpEnable
  with_reducible repeat' first
    | exact Only.refl _
    | assumption
    | decide
    | apply Only.after setQp_only
    | extract_lets
    | fail_if_no_progress refine Only.upd ?_
    | split
    | refine Only.ofPair (by assumption) ?_
    | intro _
    | dsimp only
    | dsimp +zetaDelta only

theorem qpDisable_only {f n s} : Only [.host] s (qpDisable f n s) := by
  unfold qpDisable
  with_reducible repeat' first
    | exact Only.refl _
    | assumption
    | decide
    | apply Only.after qpSettle_only
    | apply Only.after setQp_only
    | extract_lets
    | fail_if_no_progress refine Only.upd ?_
    | split
    | refine Only.ofPair (by assumption) ?_
    | intro _
    | dsimp only
    | dsimp +zetaDelta only

theorem qpWrite_only {f n o be v s} : Only [.host] s (qpWrite f n o be v s) := by
  unfold qpWrite
  with_reducible repeat' first
    | exact Only.refl _
    | assumption
    | decide
    | apply Only.after setQp_only
    | apply Only.after aeNote_only
    | apply Only.after qpEnable_only
    | apply Only.after qpDisable_only
    | extract_lets
    | fail_if_no_progress refine Only.upd ?_
    | split
    | refine Only.ofPair (by assumption) ?_
    | intro _
    | dsimp only
    | dsimp +zetaDelta only

theorem msixRelease_only {f s} : Only [.obj, .host, .out] s (msixRelease f s) := by
  unfold msixRelease
  with_reducible repeat' first
    | exact Only.refl _
    | assumption
    | decide
    | apply Only.after passItem_only
    | apply Only.after modFn_only
    | apply Only.each
    | extract_lets
    | fail_if_no_progress refine Only.upd ?_
    | split
    | refine Only.ofPair (by assumption) ?_
    | intro _
    | dsimp only
    | dsimp +zetaDelta only

theorem msixWrite_only {f v w be x s} : Only [.obj, .host, .out] s (msixWrite f v w be x s) := by
  unfold msixWrite
  with_reducible repeat' first
    | exact Only.refl _
    | assumption
    | decide
    | apply Only.after modFn_only
    | apply Only.after msixRelease_only
    | extract_lets
    | fail_if_no_progress refine Only.upd ?_
    | split
    | refine Only.ofPair (by assumption) ?_
    | intro _
    | dsimp only
    | dsimp +zetaDelta only

theorem regWrite_only {f o be v s} : Only [.obj, .host, .out] s (regWrite f o be v s) := by
  unfold regWrite
  with_reducible repeat' first
    | exact Only.refl _
    | assumption
    | decide
    | apply Only.after aeNote_only
    | apply Only.after modFn_only
    | apply Only.after eqEnable_only
    | apply Only.after eqDisable_only
    | apply Only.after eqHead_only
    | apply Only.after qpWrite_only
    | apply Only.after msixWrite_only
    | apply Only.after mailboxWrite_only
    | extract_lets
    | fail_if_no_progress refine Only.upd ?_
    | split
    | refine Only.ofPair (by assumption) ?_
    | intro _
    | dsimp only
    | dsimp +zetaDelta only

theorem hostLinkEvent_only {cause f tag s} : Only [.obj, .host, .dict, .out] s (hostLinkEvent cause f tag s) := by
  unfold hostLinkEvent
  with_reducible repeat' first
    | exact Only.refl _
    | assumption
    | decide
    | apply Only.after ownerEvent_only
    | extract_lets
    | fail_if_no_progress refine Only.upd ?_
    | split
    | refine Only.ofPair (by assumption) ?_
    | intro _
    | dsimp only
    | dsimp +zetaDelta only

theorem execLinkUp_only {gen width cxl s} : Runs [.obj, .host, .dict, .out] s (execLinkUp gen width cxl s) := by
  unfold execLinkUp
  with_reducible repeat' first
    | exact Only.refl _
    | assumption
    | decide
    | apply Runs.done
    | apply Runs.whenDue
    | apply Runs.answer
    | apply Runs.next
    | apply Runs.elim
    | apply Only.after hostLinkEvent_only
    | apply Only.after wr_only
    | extract_lets
    | fail_if_no_progress refine Only.upd ?_
    | split
    | refine Only.ofPair (by assumption) ?_
    | intro _
    | dsimp only
    | dsimp +zetaDelta only

theorem fnReset_only {f s} : Only [.obj, .host, .dict] s (fnReset f s) := by
  unfold fnReset
  with_reducible repeat' first
    | exact Only.refl _
    | assumption
    | decide
    | apply Only.after bumpBy_only
    | apply Only.after setFn_only
    | extract_lets
    | fail_if_no_progress refine Only.upd ?_
    | split
    | refine Only.ofPair (by assumption) ?_
    | intro _
    | dsimp only
    | dsimp +zetaDelta only

theorem abortQueued_only {f n s} : Only [.obj, .host, .out] s (abortQueued f n s) := by
  unfold abortQueued
  with_reducible repeat' first
    | exact Only.refl _
    | assumption
    | decide
    | apply Only.after completeEntry_only
    | extract_lets
    | fail_if_no_progress refine Only.upd ?_
    | split
    | refine Only.ofPair (by assumption) ?_
    | intro _
    | dsimp only
    | dsimp +zetaDelta only

theorem dropFetches_only {f s} : Only [.host] s (dropFetches f s) := by
  unfold dropFetches
  with_reducible repeat' first
    | exact Only.refl _
    | assumption
    | decide
    | apply Only.after setQp_only
    | apply Only.each
    | extract_lets
    | fail_if_no_progress refine Only.upd ?_
    | split
    | refine Only.ofPair (by assumption) ?_
    | intro _
    | dsimp only
    | dsimp +zetaDelta only

theorem dropFnReads_only {f s} : Only [.host] s (dropFnReads f s) := by
  unfold dropFnReads
  with_reducible repeat' first
    | exact Only.refl _
    | assumption
    | decide
    | extract_lets
    | fail_if_no_progress refine Only.upd ?_
    | split
    | refine Only.ofPair (by assumption) ?_
    | intro _
    | dsimp only
    | dsimp +zetaDelta only

theorem quiesce_only {isReset f s} : Only [.obj, .pow, .host, .work, .sage, .radio, .noc, .dram, .sram, .mem, .out, .freeCtr] s (quiesce isReset f s) := by
  unfold quiesce
  with_reducible repeat' first
    | exact Only.refl _
    | assumption
    | decide
    | apply Only.after setQp_only
    | apply Only.after abortGraphs_only
    | apply Only.after abortQueued_only
    | apply Only.after issuedXfers_only
    | apply Only.after dropFetches_only
    | apply Only.after dropFnReads_only
    | apply Only.each
    | extract_lets
    | fail_if_no_progress refine Only.upd ?_
    | split
    | refine Only.ofPair (by assumption) ?_
    | intro _
    | dsimp only
    | dsimp +zetaDelta only

theorem flrStart_only {f s} : Only [.obj, .pow, .host, .work, .sage, .radio, .noc, .dram, .sram, .mem, .out, .freeCtr] s (flrStart f s) := by
  unfold flrStart
  with_reducible repeat' first
    | exact Only.refl _
    | assumption
    | decide
    | apply Only.after quiesce_only
    | apply Only.after modFn_only
    | extract_lets
    | fail_if_no_progress refine Only.upd ?_
    | split
    | refine Only.ofPair (by assumption) ?_
    | intro _
    | dsimp only
    | dsimp +zetaDelta only

theorem vfsReset_only {s} : Only [.obj, .pow, .host, .dict, .work, .sage, .radio, .noc, .dram, .sram, .mem, .out, .freeCtr] s (vfsReset s) := by
  unfold vfsReset
  with_reducible repeat' first
    | exact Only.refl _
    | assumption
    | decide
    | apply Only.after modFn_only
    | apply Only.after fnReset_only
    | apply Only.after flrStart_only
    | apply Only.each
    | extract_lets
    | fail_if_no_progress refine Only.upd ?_
    | split
    | refine Only.ofPair (by assumption) ?_
    | intro _
    | dsimp only
    | dsimp +zetaDelta only

theorem resetFunctions_only {s} : Only [.obj, .pow, .host, .dict, .work, .sage, .radio, .noc, .dram, .sram, .mem, .out, .freeCtr] s (resetFunctions s) := by
  unfold resetFunctions
  with_reducible repeat' first
    | exact Only.refl _
    | assumption
    | decide
    | apply Only.after vfsReset_only
    | apply Only.after fnReset_only
    | apply Only.after flrStart_only
    | extract_lets
    | fail_if_no_progress refine Only.upd ?_
    | split
    | refine Only.ofPair (by assumption) ?_
    | intro _
    | dsimp only
    | dsimp +zetaDelta only

theorem execConventionalReset_only {_how s} : Runs [.obj, .pow, .host, .dict, .work, .sage, .radio, .noc, .dram, .sram, .mem, .out, .freeCtr] s (execConventionalReset _how s) := by
  unfold execConventionalReset
  with_reducible repeat' first
    | exact Only.refl _
    | assumption
    | decide
    | apply Runs.done
    | apply Runs.whenDue
    | apply Runs.answer
    | apply Runs.next
    | apply Runs.elim
    | apply Only.after wr_only
    | apply Only.after resetFunctions_only
    | apply Only.after hostLinkEvent_only
    | apply Only.after bump_only
    | extract_lets
    | fail_if_no_progress refine Only.upd ?_
    | split
    | refine Only.ofPair (by assumption) ?_
    | intro _
    | dsimp only
    | dsimp +zetaDelta only

theorem execFlrStart_only {fn s} : Runs [.obj, .pow, .host, .work, .sage, .radio, .noc, .dram, .sram, .mem, .out, .freeCtr] s (execFlrStart fn s) := by
  unfold execFlrStart
  with_reducible repeat' first
    | exact Only.refl _
    | assumption
    | decide
    | apply Runs.done
    | apply Runs.whenDue
    | apply Runs.answer
    | apply Runs.next
    | apply Runs.elim
    | refine configured_only ?_ (by decide)
    | apply Only.after flrStart_only
    | extract_lets
    | fail_if_no_progress refine Only.upd ?_
    | split
    | refine Only.ofPair (by assumption) ?_
    | intro _
    | dsimp only
    | dsimp +zetaDelta only

theorem flrDone_only {f s} : Only [.obj, .pow, .host, .dict, .work, .sage, .radio, .noc, .dram, .sram, .mem, .out, .freeCtr] s (flrDone f s) := by
  unfold flrDone
  with_reducible repeat' first
    | exact Only.refl _
    | assumption
    | decide
    | apply Only.after fnReset_only
    | apply Only.after hostLinkEvent_only
    | apply Only.after bump_only
    | apply Only.after vfsReset_only
    | extract_lets
    | fail_if_no_progress refine Only.upd ?_
    | split
    | refine Only.ofPair (by assumption) ?_
    | intro _
    | dsimp only
    | dsimp +zetaDelta only

theorem execFlrDone_only {fn s} : Runs [.obj, .pow, .host, .dict, .work, .sage, .radio, .noc, .dram, .sram, .mem, .out, .freeCtr] s (execFlrDone fn s) := by
  unfold execFlrDone
  with_reducible repeat' first
    | exact Only.refl _
    | assumption
    | decide
    | apply Runs.done
    | apply Runs.whenDue
    | apply Runs.answer
    | apply Runs.next
    | apply Runs.elim
    | apply Only.after flrDone_only
    | extract_lets
    | fail_if_no_progress refine Only.upd ?_
    | split
    | refine Only.ofPair (by assumption) ?_
    | intro _
    | dsimp only
    | dsimp +zetaDelta only

theorem execBusMasterDisable_only {fn d3hot s} : Runs [.obj, .pow, .host, .dict, .work, .sage, .radio, .noc, .dram, .sram, .mem, .out, .freeCtr] s (execBusMasterDisable fn d3hot s) := by
  unfold execBusMasterDisable
  with_reducible repeat' first
    | exact Only.refl _
    | assumption
    | decide
    | apply Runs.done
    | apply Runs.whenDue
    | apply Runs.answer
    | apply Runs.next
    | apply Runs.elim
    | refine configured_only ?_ (by decide)
    | apply Only.after quiesce_only
    | apply Only.after modFn_only
    | apply Only.after hostLinkEvent_only
    | apply Only.after bump_only
    | extract_lets
    | fail_if_no_progress refine Only.upd ?_
    | split
    | refine Only.ofPair (by assumption) ?_
    | intro _
    | dsimp only
    | dsimp +zetaDelta only

theorem writeAborted_only {f n s} : Only [.obj, .host, .out] s (writeAborted f n s) := by
  unfold writeAborted
  with_reducible repeat' first
    | exact Only.refl _
    | assumption
    | decide
    | apply Only.after drainHeld_only
    | apply Only.after setQp_only
    | extract_lets
    | fail_if_no_progress refine Only.upd ?_
    | split
    | refine Only.ofPair (by assumption) ?_
    | intro _
    | dsimp only
    | dsimp +zetaDelta only

theorem execBusMasterEnable_only {fn d0 s} : Runs [.obj, .host, .out] s (execBusMasterEnable fn d0 s) := by
  unfold execBusMasterEnable
  with_reducible repeat' first
    | exact Only.refl _
    | assumption
    | decide
    | apply Runs.done
    | apply Runs.whenDue
    | apply Runs.answer
    | apply Runs.next
    | apply Runs.elim
    | refine configured_only ?_ (by decide)
    | apply Only.after modFn_only
    | apply Only.after pumpReads_only
    | apply Only.after msixRelease_only
    | apply Only.after writeAborted_only
    | apply Only.each
    | extract_lets
    | fail_if_no_progress refine Only.upd ?_
    | split
    | refine Only.ofPair (by assumption) ?_
    | intro _
    | dsimp only
    | dsimp +zetaDelta only

theorem vfDisable_only {keep s} : Only [.obj, .pow, .host, .dict, .work, .sage, .radio, .noc, .dram, .sram, .mem, .out, .freeCtr] s (vfDisable keep s) := by
  unfold vfDisable
  with_reducible repeat' first
    | exact Only.refl _
    | assumption
    | decide
    | apply Only.after modFn_only
    | apply Only.after fnReset_only
    | apply Only.after flrStart_only
    | apply Only.after disableTenant_only
    | apply Only.each
    | extract_lets
    | fail_if_no_progress refine Only.upd ?_
    | split
    | refine Only.ofPair (by assumption) ?_
    | intro _
    | dsimp only
    | dsimp +zetaDelta only

theorem execVfDisable_only {clear keep s} : Runs [.obj, .pow, .host, .dict, .work, .sage, .radio, .noc, .dram, .sram, .mem, .out, .freeCtr] s (execVfDisable clear keep s) := by
  unfold execVfDisable
  with_reducible repeat' first
    | exact Only.refl _
    | assumption
    | decide
    | apply Runs.done
    | apply Runs.whenDue
    | apply Runs.answer
    | apply Runs.next
    | apply Runs.elim
    | refine configured_only ?_ (by decide)
    | apply Only.after vfDisable_only
    | extract_lets
    | fail_if_no_progress refine Only.upd ?_
    | split
    | refine Only.ofPair (by assumption) ?_
    | intro _
    | dsimp only
    | dsimp +zetaDelta only

theorem execQpEnable_only {fn qp s} : Runs [.host] s (execQpEnable fn qp s) := by
  unfold execQpEnable
  with_reducible repeat' first
    | exact Only.refl _
    | assumption
    | decide
    | apply Runs.done
    | apply Runs.whenDue
    | apply Runs.answer
    | apply Runs.next
    | apply Runs.elim
    | apply Only.after qpEnable_only
    | extract_lets
    | fail_if_no_progress refine Only.upd ?_
    | split
    | refine Only.ofPair (by assumption) ?_
    | intro _
    | dsimp only
    | dsimp +zetaDelta only

theorem execQpDisable_only {fn qp s} : Runs [.host] s (execQpDisable fn qp s) := by
  unfold execQpDisable
  with_reducible repeat' first
    | exact Only.refl _
    | assumption
    | decide
    | apply Runs.done
    | apply Runs.whenDue
    | apply Runs.answer
    | apply Runs.next
    | apply Runs.elim
    | apply Only.after qpDisable_only
    | extract_lets
    | fail_if_no_progress refine Only.upd ?_
    | split
    | refine Only.ofPair (by assumption) ?_
    | intro _
    | dsimp only
    | dsimp +zetaDelta only

theorem execEqEnable_only {fn s} : Runs [.obj, .host, .out] s (execEqEnable fn s) := by
  unfold execEqEnable
  with_reducible repeat' first
    | exact Only.refl _
    | assumption
    | decide
    | apply Runs.done
    | apply Runs.whenDue
    | apply Runs.answer
    | apply Runs.next
    | apply Runs.elim
    | apply Only.after eqEnable_only
    | extract_lets
    | fail_if_no_progress refine Only.upd ?_
    | split
    | refine Only.ofPair (by assumption) ?_
    | intro _
    | dsimp only
    | dsimp +zetaDelta only

theorem execEqDisable_only {fn s} : Runs [.host] s (execEqDisable fn s) := by
  unfold execEqDisable
  with_reducible repeat' first
    | exact Only.refl _
    | assumption
    | decide
    | apply Runs.done
    | apply Runs.whenDue
    | apply Runs.answer
    | apply Runs.next
    | apply Runs.elim
    | apply Only.after eqDisable_only
    | extract_lets
    | fail_if_no_progress refine Only.upd ?_
    | split
    | refine Only.ofPair (by assumption) ?_
    | intro _
    | dsimp only
    | dsimp +zetaDelta only

theorem execEqHead_only {fn be v s} : Runs [.obj, .host, .out] s (execEqHead fn be v s) := by
  unfold execEqHead
  with_reducible repeat' first
    | exact Only.refl _
    | assumption
    | decide
    | apply Runs.done
    | apply Runs.whenDue
    | apply Runs.answer
    | apply Runs.next
    | apply Runs.elim
    | apply Only.after badAccess_only
    | apply Only.after eqHead_only
    | extract_lets
    | fail_if_no_progress refine Only.upd ?_
    | split
    | refine Only.ofPair (by assumption) ?_
    | intro _
    | dsimp only
    | dsimp +zetaDelta only

theorem execAeLogClear_only {fn s} : Runs [.host] s (execAeLogClear fn s) := by
  unfold execAeLogClear
  with_reducible repeat' first
    | exact Only.refl _
    | assumption
    | decide
    | apply Runs.done
    | apply Runs.whenDue
    | apply Runs.answer
    | apply Runs.next
    | apply Runs.elim
    | apply Only.after modFn_only
    | extract_lets
    | fail_if_no_progress refine Only.upd ?_
    | split
    | refine Only.ofPair (by assumption) ?_
    | intro _
    | dsimp only
    | dsimp +zetaDelta only

theorem latchRead_only {f o s} : Only [.host] s (latchRead f o s) := by
  unfold latchRead
  with_reducible repeat' first
    | exact Only.refl _
    | assumption
    | decide
    | apply Only.after modFn_only
    | apply Only.after setQp_only
    | extract_lets
    | fail_if_no_progress refine Only.upd ?_
    | split
    | refine Only.ofPair (by assumption) ?_
    | intro _
    | dsimp only
    | dsimp +zetaDelta only

theorem execCounterLoRead_only {fn ofs be s} : Runs [.obj, .host, .out] s (execCounterLoRead fn ofs be s) := by
  unfold execCounterLoRead
  with_reducible repeat' first
    | exact Only.refl _
    | assumption
    | decide
    | apply Runs.done
    | apply Runs.whenDue
    | apply Runs.answer
    | apply Runs.next
    | apply Runs.elim
    | apply Only.after badAccess_only
    | apply Only.after send_only
    | apply Only.after latchRead_only
    | extract_lets
    | fail_if_no_progress refine Only.upd ?_
    | split
    | refine Only.ofPair (by assumption) ?_
    | intro _
    | dsimp only
    | dsimp +zetaDelta only

theorem execInterruptModTimer_only {fn qp s} : Runs [.obj, .host, .out] s (execInterruptModTimer fn qp s) := by
  unfold execInterruptModTimer
  with_reducible repeat' first
    | exact Only.refl _
    | assumption
    | decide
    | apply Runs.done
    | apply Runs.whenDue
    | apply Runs.answer
    | apply Runs.next
    | apply Runs.elim
    | apply Only.after msix_only
    | apply Only.after setQp_only
    | apply Only.after modFn_only
    | extract_lets
    | fail_if_no_progress refine Only.upd ?_
    | split
    | refine Only.ofPair (by assumption) ?_
    | intro _
    | dsimp only
    | dsimp +zetaDelta only

theorem execMsixUnmask_only {fn c s} : Runs [.obj, .host, .out] s (execMsixUnmask fn c s) := by
  unfold execMsixUnmask
  with_reducible repeat' first
    | exact Only.refl _
    | assumption
    | decide
    | apply Runs.done
    | apply Runs.whenDue
    | apply Runs.answer
    | apply Runs.next
    | apply Runs.elim
    | apply Only.after msixRelease_only
    | apply Only.after modFn_only
    | refine configured_only ?_ (by decide)
    | extract_lets
    | fail_if_no_progress refine Only.upd ?_
    | split
    | refine Only.ofPair (by assumption) ?_
    | intro _
    | dsimp only
    | dsimp +zetaDelta only

theorem readsGoOn_only {s} : Only [.obj, .host, .work, .noc, .out] s (readsGoOn s) := by
  unfold readsGoOn
  with_reducible repeat' first
    | exact Only.refl _
    | assumption
    | decide
    | apply Only.after endStopped_only
    | apply Only.after answerInvalidations_only
    | apply Only.after pumpReads_only
    | apply Only.after meshReadsDone_only
    | extract_lets
    | fail_if_no_progress refine Only.upd ?_
    | split
    | refine Only.ofPair (by assumption) ?_
    | intro _
    | dsimp only
    | dsimp +zetaDelta only

theorem translationFailed_only {f page s} : Only [.obj, .host, .work, .out] s (translationFailed f page s) := by
  unfold translationFailed
  with_reducible repeat' first
    | exact Only.refl _
    | assumption
    | decide
    | apply Only.after modRt_only
    | apply Only.after flushWaits_only
    | apply Only.each
    | extract_lets
    | fail_if_no_progress refine Only.upd ?_
    | split
    | refine Only.ofPair (by assumption) ?_
    | intro _
    | dsimp only
    | dsimp +zetaDelta only

theorem tagFailed_only {e x s} : Only [.obj, .host, .work, .out] s (tagFailed e x s) := by
  unfold tagFailed
  with_reducible repeat' first
    | exact Only.refl _
    | assumption
    | decide
    | apply Only.after freeTagEnt_only
    | apply Only.after bump_only
    | apply Only.after translationFailed_only
    | apply Only.after readFailed_only
    | extract_lets
    | fail_if_no_progress refine Only.upd ?_
    | split
    | refine Only.ofPair (by assumption) ?_
    | intro _
    | dsimp only
    | dsimp +zetaDelta only

theorem tagAnswered_only {e a s} : Only [.obj, .host, .work, .out] s (tagAnswered e a s) := by
  unfold tagAnswered
  with_reducible repeat' first
    | exact Only.refl _
    | assumption
    | decide
    | apply Only.after freeTagEnt_only
    | apply Only.after bump_only
    | apply Only.after readArrived_only
    | apply Only.after tagFailed_only
    | extract_lets
    | fail_if_no_progress refine Only.upd ?_
    | split
    | refine Only.ofPair (by assumption) ?_
    | intro _
    | dsimp only
    | dsimp +zetaDelta only

theorem execHostReadCompletion_only {fn tag a s} : Runs [.obj, .host, .work, .noc, .out] s (execHostReadCompletion fn tag a s) := by
  unfold execHostReadCompletion
  with_reducible repeat' first
    | exact Only.refl _
    | assumption
    | decide
    | apply Runs.done
    | apply Runs.whenDue
    | apply Runs.answer
    | apply Runs.next
    | apply Runs.elim
    | apply Only.after readsGoOn_only
    | apply Only.after tagAnswered_only
    | extract_lets
    | fail_if_no_progress refine Only.upd ?_
    | split
    | refine Only.ofPair (by assumption) ?_
    | intro _
    | dsimp only
    | dsimp +zetaDelta only

theorem execCompletionTimeout_only {fn tag s} : Runs [.obj, .host, .dict, .work, .noc, .out] s (execCompletionTimeout fn tag s) := by
  unfold execCompletionTimeout
  with_reducible repeat' first
    | exact Only.refl _
    | assumption
    | decide
    | apply Runs.done
    | apply Runs.whenDue
    | apply Runs.answer
    | apply Runs.next
    | apply Runs.elim
    | apply Only.after readsGoOn_only
    | apply Only.after hostLinkEvent_only
    | apply Only.after tagFailed_only
    | extract_lets
    | fail_if_no_progress refine Only.upd ?_
    | split
    | refine Only.ofPair (by assumption) ?_
    | intro _
    | dsimp only
    | dsimp +zetaDelta only

theorem execAtsInvalidate_only {fn page log2 s} : Runs [.obj, .host, .out] s (execAtsInvalidate fn page log2 s) := by
  unfold execAtsInvalidate
  with_reducible repeat' first
    | exact Only.refl _
    | assumption
    | decide
    | apply Runs.done
    | apply Runs.whenDue
    | apply Runs.answer
    | apply Runs.next
    | apply Runs.elim
    | apply Only.after bump_only
    | apply Only.after answerInvalidations_only
    | extract_lets
    | fail_if_no_progress refine Only.upd ?_
    | split
    | refine Only.ofPair (by assumption) ?_
    | intro _
    | dsimp only
    | dsimp +zetaDelta only

theorem execCxlSnoop_only {line s} : Runs [.host, .out] s (execCxlSnoop line s) := by
  unfold execCxlSnoop
  with_reducible repeat' first
    | exact Only.refl _
    | assumption
    | decide
    | apply Runs.done
    | apply Runs.whenDue
    | apply Runs.answer
    | apply Runs.next
    | apply Runs.elim
    | apply Only.after send_only
    | extract_lets
    | fail_if_no_progress refine Only.upd ?_
    | split
    | refine Only.ofPair (by assumption) ?_
    | intro _
    | dsimp only
    | dsimp +zetaDelta only

theorem hostAccess_only {port a n data s} : Only [.obj, .pow, .host, .dict, .noc, .dram, .sram, .mem, .out] s (hostAccess port a n data s) := by
  unfold hostAccess
  with_reducible repeat' first
    | exact Only.refl _
    | assumption
    | decide
    | apply Only.after arrive_only
    | apply Only.after countFlits_only
    | extract_lets
    | fail_if_no_progress refine Only.upd ?_
    | split
    | refine Only.ofPair (by assumption) ?_
    | intro _
    | dsimp only
    | dsimp +zetaDelta only

theorem execCxlMemRequest_only {dpa len data s} : Runs [.obj, .pow, .host, .dict, .noc, .dram, .sram, .mem, .out, .freeCtr] s (execCxlMemRequest dpa len data s) := by
  unfold execCxlMemRequest
  with_reducible repeat' first
    | exact Only.refl _
    | assumption
    | decide
    | apply Runs.done
    | apply Runs.whenDue
    | apply Runs.answer
    | apply Runs.next
    | apply Runs.elim
    | apply Only.after hostAccess_only
    | apply Only.after accessError_only
    | apply Only.after draw_only
    | apply Only.after send_only
    | extract_lets
    | fail_if_no_progress refine Only.upd ?_
    | split
    | refine Only.ofPair (by assumption) ?_
    | intro _
    | dsimp only
    | dsimp +zetaDelta only

theorem execBar4Access_only {ofs len data s} : Runs [.obj, .pow, .host, .dict, .noc, .dram, .sram, .mem, .out] s (execBar4Access ofs len data s) := by
  unfold execBar4Access
  with_reducible repeat' first
    | exact Only.refl _
    | assumption
    | decide
    | apply Runs.done
    | apply Runs.whenDue
    | apply Runs.answer
    | apply Runs.next
    | apply Runs.elim
    | apply Only.after hostAccess_only
    | apply Only.after send_only
    | apply Only.after accessError_only
    | apply Only.each
    | extract_lets
    | fail_if_no_progress refine Only.upd ?_
    | split
    | refine Only.ofPair (by assumption) ?_
    | intro _
    | dsimp only
    | dsimp +zetaDelta only

theorem configWrite_only {f c s} : Runs [.obj, .host, .out] s (configWrite f c s) := by
  unfold configWrite
  with_reducible repeat' first
    | exact Only.refl _
    | assumption
    | decide
    | apply Runs.done
    | apply Runs.whenDue
    | apply Runs.answer
    | apply Runs.next
    | apply Runs.elim
    | apply Only.after modFn_only
    | apply Only.after pumpReads_only
    | apply Only.after flushWaits_only
    | apply Only.each
    | extract_lets
    | fail_if_no_progress refine Only.upd ?_
    | split
    | refine Only.ofPair (by assumption) ?_
    | intro _
    | dsimp only
    | dsimp +zetaDelta only

theorem execConfigWrite_only {fn c s} : Runs [.obj, .host, .out] s (execConfigWrite fn c s) := by
  unfold execConfigWrite
  with_reducible repeat' first
    | exact Only.refl _
    | assumption
    | decide
    | apply Runs.done
    | apply Runs.whenDue
    | apply Runs.answer
    | apply Runs.next
    | apply Runs.elim
    | refine configured_only ?_ (by decide)
    | apply Runs.after configWrite_only
    | extract_lets
    | fail_if_no_progress refine Only.upd ?_
    | split
    | refine Only.ofPair (by assumption) ?_
    | intro _
    | dsimp only
    | dsimp +zetaDelta only

theorem execPmeTurnOff_only {s} : Runs [.obj] s (execPmeTurnOff s) := by
  unfold execPmeTurnOff
  with_reducible repeat' first
    | exact Only.refl _
    | assumption
    | decide
    | apply Runs.done
    | apply Runs.whenDue
    | apply Runs.answer
    | apply Runs.next
    | apply Runs.elim
    | apply Only.after wr_only
    | extract_lets
    | fail_if_no_progress refine Only.upd ?_
    | split
    | refine Only.ofPair (by assumption) ?_
    | intro _
    | dsimp only
    | dsimp +zetaDelta only

theorem execSpeedChange_only {gen width s} : Runs [.obj, .host, .dict, .out] s (execSpeedChange gen width s) := by
  unfold execSpeedChange
  with_reducible repeat' first
    | exact Only.refl _
    | assumption
    | decide
    | apply Runs.done
    | apply Runs.whenDue
    | apply Runs.answer
    | apply Runs.next
    | apply Runs.elim
    | apply Only.after hostLinkEvent_only
    | apply Only.after wr_only
    | extract_lets
    | fail_if_no_progress refine Only.upd ?_
    | split
    | refine Only.ofPair (by assumption) ?_
    | intro _
    | dsimp only
    | dsimp +zetaDelta only

theorem holdTranslation_only {f page target s} : Only [.host] s (holdTranslation f page target s) := by
  unfold holdTranslation
  with_reducible repeat' first
    | exact Only.refl _
    | assumption
    | decide
    | extract_lets
    | fail_if_no_progress refine Only.upd ?_
    | split
    | refine Only.ofPair (by assumption) ?_
    | intro _
    | dsimp only
    | dsimp +zetaDelta only

theorem execTranslationCompletion_only {fn page target s} : Runs [.obj, .host, .work, .noc, .out] s (execTranslationCompletion fn page target s) := by
  unfold execTranslationCompletion
  with_reducible repeat' first
    | exact Only.refl _
    | assumption
    | decide
    | apply Runs.done
    | apply Runs.whenDue
    | apply Runs.answer
    | apply Runs.next
    | apply Runs.elim
    | apply Only.after readsGoOn_only
    | apply Only.after freeTagEnt_only
    | apply Only.after bump_only
    | apply Only.after flushWaits_only
    | apply Only.after holdTranslation_only
    | apply Only.after tagFailed_only
    | extract_lets
    | fail_if_no_progress refine Only.upd ?_
    | split
    | refine Only.ofPair (by assumption) ?_
    | intro _
    | dsimp only
    | dsimp +zetaDelta only

end Sys2Proof.Machine
end

