-- ==== Sys2Proof/Laws/OnlyDictionary.lean ====
section
/-!
SUPPORT. The frame of every operation of Machine/Dictionary.lean: the parts of the state it can change.
-/
namespace Sys2Proof.Machine

set_option Elab.async false

set_option linter.unusedTactic false
set_option linter.unreachableTactic false
set_option linter.unusedVariables false

theorem refuse_only {x a s} : Only [.obj, .host, .dict, .out] s (refuse x a s) := by
  unfold refuse
  with_reducible repeat' first
    | exact Only.refl _
    | assumption
    | decide
    | apply Only.after giveReply_only
    | extract_lets
    | fail_if_no_progress refine Only.upd ?_
    | split
    | refine Only.ofPair (by assumption) ?_
    | intro _
    | dsimp only
    | dsimp +zetaDelta only

theorem answerWrite_only {x good w} : Only [.obj, .host, .dict, .out] w.2 (answerWrite x good w) := by
  unfold answerWrite
  with_reducible repeat' first
    | exact Only.refl _
    | assumption
    | decide
    | apply Only.after giveReply_only
    | apply Only.after refuse_only
    | extract_lets
    | fail_if_no_progress refine Only.upd ?_
    | split
    | refine Only.ofPair (by assumption) ?_
    | intro _
    | dsimp only
    | dsimp +zetaDelta only

theorem romLoad_only {m running s} : Only [.boot] s (romLoad m running s) := by
  unfold romLoad
  with_reducible repeat' first
    | exact Only.refl _
    | assumption
    | decide
    | extract_lets
    | fail_if_no_progress refine Only.upd ?_
    | split
    | refine Only.ofPair (by assumption) ?_
    | intro _
    | dsimp only
    | dsimp +zetaDelta only

theorem serveWrite_only {x good l s} : Only [.obj, .text, .tim, .pow, .boot, .host, .dict, .work, .sage, .radio, .links, .noc, .dram, .sram, .mem, .out, .freeCtr] s (serveWrite x good l s) := by
  unfold serveWrite
  with_reducible repeat' first
    | exact Only.refl _
    | assumption
    | decide
    | apply Only.after giveReply_only
    | apply Only.after romLoad_only
    | apply Only.after refuse_only
    | apply Only.after draw_only
    | apply Only.after wFirmware_only
    | apply Only.after wStore_only
    | apply Only.after writeObject_only
    | apply Only.after entryAnswer_only
    | apply Only.after answerWrite_only
    | extract_lets
    | fail_if_no_progress refine Only.upd ?_
    | split
    | refine Only.ofPair (by assumption) ?_
    | intro _
    | dsimp only
    | dsimp +zetaDelta only

theorem serveRead_only {x s} : Only [.obj, .host, .dict, .out] s (serveRead x s) := by
  unfold serveRead
  with_reducible repeat' first
    | exact Only.refl _
    | assumption
    | decide
    | apply Only.after refuse_only
    | apply Only.after giveReply_only
    | extract_lets
    | fail_if_no_progress refine Only.upd ?_
    | split
    | refine Only.ofPair (by assumption) ?_
    | intro _
    | dsimp only
    | dsimp +zetaDelta only

theorem serveWriteFn_only {x s} : Only [.obj, .text, .tim, .pow, .boot, .host, .dict, .work, .sage, .radio, .links, .noc, .dram, .sram, .mem, .out, .freeCtr] s (serveWriteFn x s) := by
  unfold serveWriteFn
  with_reducible repeat' first
    | exact Only.refl _
    | assumption
    | decide
    | apply Only.after refuse_only
    | apply Only.after serveWrite_only
    | extract_lets
    | fail_if_no_progress refine Only.upd ?_
    | split
    | refine Only.ofPair (by assumption) ?_
    | intro _
    | dsimp only
    | dsimp +zetaDelta only

theorem closeSeg_only {x s} : Only [.dict] s (closeSeg x s) := by
  unfold closeSeg
  with_reducible repeat' first
    | exact Only.refl _
    | assumption
    | decide
    | extract_lets
    | fail_if_no_progress refine Only.upd ?_
    | split
    | refine Only.ofPair (by assumption) ?_
    | intro _
    | dsimp only
    | dsimp +zetaDelta only

theorem putSeg_only {x write total data s} : Only [.dict] s (putSeg x write total data s) := by
  unfold putSeg
  with_reducible repeat' first
    | exact Only.refl _
    | assumption
    | decide
    | apply Only.after closeSeg_only
    | extract_lets
    | fail_if_no_progress refine Only.upd ?_
    | split
    | refine Only.ofPair (by assumption) ?_
    | intro _
    | dsimp only
    | dsimp +zetaDelta only

theorem giveSegment_only {x l ofs lim s} : Only [.obj, .host, .dict, .out] s (giveSegment x l ofs lim s) := by
  unfold giveSegment
  with_reducible repeat' first
    | exact Only.refl _
    | assumption
    | decide
    | apply Only.after giveReply_only
    | apply Only.after closeSeg_only
    | apply Only.after putSeg_only
    | extract_lets
    | fail_if_no_progress refine Only.upd ?_
    | split
    | refine Only.ofPair (by assumption) ?_
    | intro _
    | dsimp only
    | dsimp +zetaDelta only

theorem serveReadSeg_only {x s} : Only [.obj, .host, .dict, .out] s (serveReadSeg x s) := by
  unfold serveReadSeg
  with_reducible repeat' first
    | exact Only.refl _
    | assumption
    | decide
    | apply Only.after refuse_only
    | apply Only.after giveSegment_only
    | extract_lets
    | fail_if_no_progress refine Only.upd ?_
    | split
    | refine Only.ofPair (by assumption) ?_
    | intro _
    | dsimp only
    | dsimp +zetaDelta only

theorem moreSegment_only {x total l s} : Only [.obj, .text, .tim, .pow, .boot, .host, .dict, .work, .sage, .radio, .links, .noc, .dram, .sram, .mem, .out, .freeCtr] s (moreSegment x total l s) := by
  unfold moreSegment
  with_reducible repeat' first
    | exact Only.refl _
    | assumption
    | decide
    | apply Only.after refuse_only
    | apply Only.after closeSeg_only
    | apply Only.after giveReply_only
    | apply Only.after putSeg_only
    | apply Only.after serveWrite_only
    | extract_lets
    | fail_if_no_progress refine Only.upd ?_
    | split
    | refine Only.ofPair (by assumption) ?_
    | intro _
    | dsimp only
    | dsimp +zetaDelta only

theorem serveWriteSeg_only {x s} : Only [.obj, .text, .tim, .pow, .boot, .host, .dict, .work, .sage, .radio, .links, .noc, .dram, .sram, .mem, .out, .freeCtr] s (serveWriteSeg x s) := by
  unfold serveWriteSeg
  with_reducible repeat' first
    | exact Only.refl _
    | assumption
    | decide
    | apply Only.after refuse_only
    | apply Only.after moreSegment_only
    | apply Only.after closeSeg_only
    | extract_lets
    | fail_if_no_progress refine Only.upd ?_
    | split
    | refine Only.ofPair (by assumption) ?_
    | intro _
    | dsimp only
    | dsimp +zetaDelta only

theorem discardMsg_only {tr s} : Only [.obj] s (discardMsg tr s) := by
  unfold discardMsg
  with_reducible repeat' first
    | exact Only.refl _
    | assumption
    | decide
    | apply Only.after bump_only
    | extract_lets
    | fail_if_no_progress refine Only.upd ?_
    | split
    | refine Only.ofPair (by assumption) ?_
    | intro _
    | dsimp only
    | dsimp +zetaDelta only

theorem serveMessage_only {x framed s0} : Only [.obj, .text, .tim, .pow, .boot, .host, .dict, .work, .sage, .radio, .links, .noc, .dram, .sram, .mem, .out, .freeCtr] s0 (serveMessage x framed s0) := by
  unfold serveMessage
  with_reducible repeat' first
    | exact Only.refl _
    | assumption
    | decide
    | apply Only.after closeSeg_only
    | apply Only.after bump_only
    | apply Only.after discardMsg_only
    | apply Only.after refuse_only
    | apply Only.after serveRead_only
    | apply Only.after serveWriteFn_only
    | apply Only.after serveReadSeg_only
    | apply Only.after serveWriteSeg_only
    | extract_lets
    | fail_if_no_progress refine Only.upd ?_
    | split
    | refine Only.ofPair (by assumption) ?_
    | intro _
    | dsimp only
    | dsimp +zetaDelta only

theorem receive_only {v l s} : Only [.obj, .text, .tim, .pow, .boot, .host, .dict, .work, .sage, .radio, .links, .noc, .dram, .sram, .mem, .out, .freeCtr] s (receive v l s) := by
  unfold receive
  with_reducible repeat' first
    | exact Only.refl _
    | assumption
    | decide
    | apply Only.after discardMsg_only
    | apply Only.after serveMessage_only
    | apply Only.after send_only
    | extract_lets
    | fail_if_no_progress refine Only.upd ?_
    | split
    | refine Only.ofPair (by assumption) ?_
    | intro _
    | dsimp only
    | dsimp +zetaDelta only

theorem execRead_only {v l s} : Runs [.obj, .text, .tim, .pow, .boot, .host, .dict, .work, .sage, .radio, .links, .noc, .dram, .sram, .mem, .out, .freeCtr] s (execRead v l s) := by
  unfold execRead
  with_reducible repeat' first
    | exact Only.refl _
    | assumption
    | decide
    | apply Runs.done
    | apply Runs.whenDue
    | apply Runs.answer
    | apply Runs.next
    | apply Runs.elim
    | apply Only.after receive_only
    | extract_lets
    | fail_if_no_progress refine Only.upd ?_
    | split
    | refine Only.ofPair (by assumption) ?_
    | intro _
    | dsimp only
    | dsimp +zetaDelta only

theorem execWrite_only {v l s} : Runs [.obj, .text, .tim, .pow, .boot, .host, .dict, .work, .sage, .radio, .links, .noc, .dram, .sram, .mem, .out, .freeCtr] s (execWrite v l s) := by
  unfold execWrite
  with_reducible repeat' first
    | exact Only.refl _
    | assumption
    | decide
    | apply Runs.done
    | apply Runs.whenDue
    | apply Runs.answer
    | apply Runs.next
    | apply Runs.elim
    | apply Only.after receive_only
    | extract_lets
    | fail_if_no_progress refine Only.upd ?_
    | split
    | refine Only.ofPair (by assumption) ?_
    | intro _
    | dsimp only
    | dsimp +zetaDelta only

theorem execReadSeg_only {v l s} : Runs [.obj, .text, .tim, .pow, .boot, .host, .dict, .work, .sage, .radio, .links, .noc, .dram, .sram, .mem, .out, .freeCtr] s (execReadSeg v l s) := by
  unfold execReadSeg
  with_reducible repeat' first
    | exact Only.refl _
    | assumption
    | decide
    | apply Runs.done
    | apply Runs.whenDue
    | apply Runs.answer
    | apply Runs.next
    | apply Runs.elim
    | apply Only.after receive_only
    | extract_lets
    | fail_if_no_progress refine Only.upd ?_
    | split
    | refine Only.ofPair (by assumption) ?_
    | intro _
    | dsimp only
    | dsimp +zetaDelta only

theorem execWriteSeg_only {v l s} : Runs [.obj, .text, .tim, .pow, .boot, .host, .dict, .work, .sage, .radio, .links, .noc, .dram, .sram, .mem, .out, .freeCtr] s (execWriteSeg v l s) := by
  unfold execWriteSeg
  with_reducible repeat' first
    | exact Only.refl _
    | assumption
    | decide
    | apply Runs.done
    | apply Runs.whenDue
    | apply Runs.answer
    | apply Runs.next
    | apply Runs.elim
    | apply Only.after receive_only
    | extract_lets
    | fail_if_no_progress refine Only.upd ?_
    | split
    | refine Only.ofPair (by assumption) ?_
    | intro _
    | dsimp only
    | dsimp +zetaDelta only

theorem execAbort_only {v l s} : Runs [.obj, .text, .tim, .pow, .boot, .host, .dict, .work, .sage, .radio, .links, .noc, .dram, .sram, .mem, .out, .freeCtr] s (execAbort v l s) := by
  unfold execAbort
  with_reducible repeat' first
    | exact Only.refl _
    | assumption
    | decide
    | apply Runs.done
    | apply Runs.whenDue
    | apply Runs.answer
    | apply Runs.next
    | apply Runs.elim
    | apply Only.after receive_only
    | extract_lets
    | fail_if_no_progress refine Only.upd ?_
    | split
    | refine Only.ofPair (by assumption) ?_
    | intro _
    | dsimp only
    | dsimp +zetaDelta only

theorem execSegTimeout_only {tr peer tid s} : Runs [.obj, .dict, .out] s (execSegTimeout tr peer tid s) := by
  unfold execSegTimeout
  with_reducible repeat' first
    | exact Only.refl _
    | assumption
    | decide
    | apply Runs.done
    | apply Runs.whenDue
    | apply Runs.answer
    | apply Runs.next
    | apply Runs.elim
    | apply Only.after closeSeg_only
    | apply Only.after bump_only
    | apply Only.after send_only
    | extract_lets
    | fail_if_no_progress refine Only.upd ?_
    | split
    | refine Only.ofPair (by assumption) ?_
    | intro _
    | dsimp only
    | dsimp +zetaDelta only

theorem execBusOff_only {st s} : Runs [.obj] s (execBusOff st s) := by
  unfold execBusOff
  with_reducible repeat' first
    | exact Only.refl _
    | assumption
    | decide
    | apply Runs.done
    | apply Runs.whenDue
    | apply Runs.answer
    | apply Runs.next
    | apply Runs.elim
    | apply Only.after wr_only
    | extract_lets
    | fail_if_no_progress refine Only.upd ?_
    | split
    | refine Only.ofPair (by assumption) ?_
    | intro _
    | dsimp only
    | dsimp +zetaDelta only

theorem execMgmtHousekeeping_only {kind s} : Runs [.out] s (execMgmtHousekeeping kind s) := by
  unfold execMgmtHousekeeping
  with_reducible repeat' first
    | exact Only.refl _
    | assumption
    | decide
    | apply Runs.done
    | apply Runs.whenDue
    | apply Runs.answer
    | apply Runs.next
    | apply Runs.elim
    | apply Only.after send_only
    | extract_lets
    | fail_if_no_progress refine Only.upd ?_
    | split
    | refine Only.ofPair (by assumption) ?_
    | intro _
    | dsimp only
    | dsimp +zetaDelta only

theorem execMgmtPhyPoll_only {up s} : Runs [.dict] s (execMgmtPhyPoll up s) := by
  unfold execMgmtPhyPoll
  with_reducible repeat' first
    | exact Only.refl _
    | assumption
    | decide
    | apply Runs.done
    | apply Runs.whenDue
    | apply Runs.answer
    | apply Runs.next
    | apply Runs.elim
    | extract_lets
    | fail_if_no_progress refine Only.upd ?_
    | split
    | refine Only.ofPair (by assumption) ?_
    | intro _
    | dsimp only
    | dsimp +zetaDelta only

theorem mailboxServe_only {f s} : Only [.obj, .text, .tim, .pow, .boot, .host, .dict, .work, .sage, .radio, .links, .noc, .dram, .sram, .mem, .out, .freeCtr] s (mailboxServe f s) := by
  unfold mailboxServe
  with_reducible repeat' first
    | exact Only.refl _
    | assumption
    | decide
    | apply Only.after refuse_only
    | apply Only.after bump_only
    | apply Only.after serveMessage_only
    | apply Only.after modFn_only
    | extract_lets
    | fail_if_no_progress refine Only.upd ?_
    | split
    | refine Only.ofPair (by assumption) ?_
    | intro _
    | dsimp only
    | dsimp +zetaDelta only

theorem mailboxCtrl_only {f be v s} : Only [.obj, .text, .tim, .pow, .boot, .host, .dict, .work, .sage, .radio, .links, .noc, .dram, .sram, .mem, .out, .freeCtr] s (mailboxCtrl f be v s) := by
  unfold mailboxCtrl
  with_reducible repeat' first
    | exact Only.refl _
    | assumption
    | decide
    | apply Only.after mailboxWrite_only
    | apply Only.after modFn_only
    | apply Only.after mailboxServe_only
    | extract_lets
    | fail_if_no_progress refine Only.upd ?_
    | split
    | refine Only.ofPair (by assumption) ?_
    | intro _
    | dsimp only
    | dsimp +zetaDelta only

theorem execMailboxGo_only {fn be v s} : Runs [.obj, .text, .tim, .pow, .boot, .host, .dict, .work, .sage, .radio, .links, .noc, .dram, .sram, .mem, .out, .freeCtr] s (execMailboxGo fn be v s) := by
  unfold execMailboxGo
  with_reducible repeat' first
    | exact Only.refl _
    | assumption
    | decide
    | apply Runs.done
    | apply Runs.whenDue
    | apply Runs.answer
    | apply Runs.next
    | apply Runs.elim
    | apply Only.after badAccess_only
    | apply Only.after mailboxCtrl_only
    | extract_lets
    | fail_if_no_progress refine Only.upd ?_
    | split
    | refine Only.ofPair (by assumption) ?_
    | intro _
    | dsimp only
    | dsimp +zetaDelta only

theorem execRegisterWrite_only {fn ofs be v s} : Runs [.obj, .text, .tim, .pow, .boot, .host, .dict, .work, .sage, .radio, .links, .noc, .dram, .sram, .mem, .out, .freeCtr] s (execRegisterWrite fn ofs be v s) := by
  unfold execRegisterWrite
  with_reducible repeat' first
    | exact Only.refl _
    | assumption
    | decide
    | apply Runs.done
    | apply Runs.whenDue
    | apply Runs.answer
    | apply Runs.next
    | apply Runs.elim
    | apply Only.after badAccess_only
    | apply Only.after mailboxCtrl_only
    | apply Only.after regWrite_only
    | extract_lets
    | fail_if_no_progress refine Only.upd ?_
    | split
    | refine Only.ofPair (by assumption) ?_
    | intro _
    | dsimp only
    | dsimp +zetaDelta only

theorem execMailboxDoneClear_only {fn s} : Runs [.host] s (execMailboxDoneClear fn s) := by
  unfold execMailboxDoneClear
  with_reducible repeat' first
    | exact Only.refl _
    | assumption
    | decide
    | apply Runs.done
    | apply Runs.whenDue
    | apply Runs.answer
    | apply Runs.next
    | apply Runs.elim
    | apply Only.after modFn_only
    | extract_lets
    | fail_if_no_progress refine Only.upd ?_
    | split
    | refine Only.ofPair (by assumption) ?_
    | intro _
    | dsimp only
    | dsimp +zetaDelta only

theorem execNotifyInterval_only {i s} : Runs [.obj, .host, .dict, .out] s (execNotifyInterval i s) := by
  unfold execNotifyInterval
  with_reducible repeat' first
    | exact Only.refl _
    | assumption
    | decide
    | apply Runs.done
    | apply Runs.whenDue
    | apply Runs.answer
    | apply Runs.next
    | apply Runs.elim
    | apply Only.after routeNotify_only
    | extract_lets
    | fail_if_no_progress refine Only.upd ?_
    | split
    | refine Only.ofPair (by assumption) ?_
    | intro _
    | dsimp only
    | dsimp +zetaDelta only

theorem sendNotify_only {s} : Only [.obj, .dict, .out] s (sendNotify s) := by
  unfold sendNotify
  with_reducible repeat' first
    | exact Only.refl _
    | assumption
    | decide
    | apply Only.after bump_only
    | apply Only.after send_only
    | extract_lets
    | fail_if_no_progress refine Only.upd ?_
    | split
    | refine Only.ofPair (by assumption) ?_
    | intro _
    | dsimp only
    | dsimp +zetaDelta only

theorem execStore_only {v s} : Runs [.obj, .dict, .out] s (execStore v s) := by
  unfold execStore
  with_reducible repeat' first
    | exact Only.refl _
    | assumption
    | decide
    | apply Runs.done
    | apply Runs.whenDue
    | apply Runs.answer
    | apply Runs.next
    | apply Runs.elim
    | apply Only.after wStore_only
    | extract_lets
    | fail_if_no_progress refine Only.upd ?_
    | split
    | refine Only.ofPair (by assumption) ?_
    | intro _
    | dsimp only
    | dsimp +zetaDelta only

theorem execStoreDone_only {a1 a2 b1 b2 s} : Runs [.obj, .host, .dict, .out] s (execStoreDone a1 a2 b1 b2 s) := by
  unfold execStoreDone
  with_reducible repeat' first
    | exact Only.refl _
    | assumption
    | decide
    | apply Runs.done
    | apply Runs.whenDue
    | apply Runs.answer
    | apply Runs.next
    | apply Runs.elim
    | apply Only.after storeEnd_only
    | extract_lets
    | fail_if_no_progress refine Only.upd ?_
    | split
    | refine Only.ofPair (by assumption) ?_
    | intro _
    | dsimp only
    | dsimp +zetaDelta only

theorem execRestoreDefaults_only {v s} : Runs [.dict, .out] s (execRestoreDefaults v s) := by
  unfold execRestoreDefaults
  with_reducible repeat' first
    | exact Only.refl _
    | assumption
    | decide
    | apply Runs.done
    | apply Runs.whenDue
    | apply Runs.answer
    | apply Runs.next
    | apply Runs.elim
    | apply Only.after wRestore_only
    | extract_lets
    | fail_if_no_progress refine Only.upd ?_
    | split
    | refine Only.ofPair (by assumption) ?_
    | intro _
    | dsimp only
    | dsimp +zetaDelta only

theorem execImageWrite_only {l s} : Runs [.dict, .out] s (execImageWrite l s) := by
  unfold execImageWrite
  with_reducible repeat' first
    | exact Only.refl _
    | assumption
    | decide
    | apply Runs.done
    | apply Runs.whenDue
    | apply Runs.answer
    | apply Runs.next
    | apply Runs.elim
    | apply Only.after refusedW_only
    | apply Only.after wImage_only
    | extract_lets
    | fail_if_no_progress refine Only.upd ?_
    | split
    | refine Only.ofPair (by assumption) ?_
    | intro _
    | dsimp only
    | dsimp +zetaDelta only

theorem execHistClear_only {v s} : Runs [.dict, .out] s (execHistClear v s) := by
  unfold execHistClear
  with_reducible repeat' first
    | exact Only.refl _
    | assumption
    | decide
    | apply Runs.done
    | apply Runs.whenDue
    | apply Runs.answer
    | apply Runs.next
    | apply Runs.elim
    | apply Only.after wHistClear_only
    | extract_lets
    | fail_if_no_progress refine Only.upd ?_
    | split
    | refine Only.ofPair (by assumption) ?_
    | intro _
    | dsimp only
    | dsimp +zetaDelta only

theorem execLocText_only {l s} : Runs [.obj, .text, .out] s (execLocText l s) := by
  unfold execLocText
  with_reducible repeat' first
    | exact Only.refl _
    | assumption
    | decide
    | apply Runs.done
    | apply Runs.whenDue
    | apply Runs.answer
    | apply Runs.next
    | apply Runs.elim
    | apply Only.after refusedW_only
    | apply Only.after wLocText_only
    | extract_lets
    | fail_if_no_progress refine Only.upd ?_
    | split
    | refine Only.ofPair (by assumption) ?_
    | intro _
    | dsimp only
    | dsimp +zetaDelta only

theorem execLocPacked_only {v s} : Runs [.obj, .text, .out] s (execLocPacked v s) := by
  unfold execLocPacked
  with_reducible repeat' first
    | exact Only.refl _
    | assumption
    | decide
    | apply Runs.done
    | apply Runs.whenDue
    | apply Runs.answer
    | apply Runs.next
    | apply Runs.elim
    | apply Only.after wLocPacked_only
    | extract_lets
    | fail_if_no_progress refine Only.upd ?_
    | split
    | refine Only.ofPair (by assumption) ?_
    | intro _
    | dsimp only
    | dsimp +zetaDelta only

theorem execFirmwareWrite_only {l readBack s} : Runs [.boot, .out] s (execFirmwareWrite l readBack s) := by
  unfold execFirmwareWrite
  with_reducible repeat' first
    | exact Only.refl _
    | assumption
    | decide
    | apply Runs.done
    | apply Runs.whenDue
    | apply Runs.answer
    | apply Runs.next
    | apply Runs.elim
    | apply Only.after wFirmware_only
    | extract_lets
    | fail_if_no_progress refine Only.upd ?_
    | split
    | refine Only.ofPair (by assumption) ?_
    | intro _
    | dsimp only
    | dsimp +zetaDelta only

end Sys2Proof.Machine
end

