-- ==== Sys2Proof/Laws/OnlySignal.lean ====
section
/-!
SUPPORT. The frame of every operation of Machine/Signal.lean: the parts of the state it can change.
-/
namespace Sys2Proof.Machine

set_option Elab.async false

set_option linter.unusedTactic false
set_option linter.unreachableTactic false
set_option linter.unusedVariables false

theorem ffeChunk_only {e op f s} (h0 : ∀ a0 a1, Only [.obj, .host, .dict, .work, .dram, .sram, .mem, .out, .freeCtr] a1 (f a0 a1).2) : Runs [.obj, .host, .dict, .work, .dram, .sram, .mem, .out, .freeCtr] s (ffeChunk e op f s) := by
  unfold ffeChunk
  with_reducible repeat' first
    | exact Only.refl _
    | assumption
    | decide
    | apply Runs.done
    | apply Runs.whenDue
    | apply Runs.answer
    | apply Runs.next
    | apply Runs.elim
    | apply Runs.after (engineChunk_only ?_)
    | apply Only.after bumpBy_only
    | apply Only.after (h0 _ _)
    | extract_lets
    | fail_if_no_progress refine Only.upd ?_
    | split
    | refine Only.ofPair (by assumption) ?_
    | intro _
    | dsimp only
    | dsimp +zetaDelta only

theorem eachQuantum_only {f x s} (h0 : ∀ a0 a1 a2, Only [.obj, .host, .dict, .work, .dram, .sram, .mem, .out, .freeCtr] a2 (f a0 a1 a2).2) : Only [.obj, .host, .dict, .work, .dram, .sram, .mem, .out, .freeCtr] s (eachQuantum f x s).2 := by
  unfold eachQuantum
  with_reducible repeat' first
    | exact Only.refl _
    | assumption
    | decide
    | apply Only.after (h0 _ _ _)
    | apply Only.each
    | apply Only.foldl
    | apply Only.foldlSnd
    | apply Only.foldlThd
    | extract_lets
    | fail_if_no_progress refine Only.upd ?_
    | split
    | refine Only.ofPair (by assumption) ?_
    | intro _
    | dsimp only
    | dsimp +zetaDelta only

theorem fftComp_only {v sh s} : Only [.freeCtr] s (fftComp v sh s).2.2 := by
  unfold fftComp
  with_reducible repeat' first
    | exact Only.refl _
    | assumption
    | decide
    | apply Only.after within_only
    | extract_lets
    | fail_if_no_progress refine Only.upd ?_
    | split
    | refine Only.ofPair (by assumption) ?_
    | intro _
    | dsimp only
    | dsimp +zetaDelta only

theorem fftOut_only {l sh s} : Only [.freeCtr] s (fftOut l sh s).2.2 := by
  unfold fftOut
  exact Only.foldlThd (fun q z => Only.after (fftComp_only (v := z.2) (sh := sh)) (by decide) (fftComp_only (v := z.1) (sh := sh))) (Only.refl _)

theorem fftDo_only {inv x a2 s} : Only [.obj, .host, .work, .dram, .sram, .mem, .out, .freeCtr] s (fftDo inv x a2 s).2 := by
  unfold fftDo
  with_reducible repeat' first
    | exact Only.refl _
    | assumption
    | decide
    | apply Only.after fftOut_only
    | apply Only.after Chunk.put_only
    | apply Only.after bumpBy_only
    | extract_lets
    | fail_if_no_progress refine Only.upd ?_
    | split
    | refine Only.ofPair (by assumption) ?_
    | intro _
    | dsimp only
    | dsimp +zetaDelta only

theorem execFft_only {e s} : Runs [.obj, .host, .dict, .work, .dram, .sram, .mem, .out, .freeCtr] s (execFft e s) := by
  unfold execFft
  with_reducible repeat' first
    | exact Only.refl _
    | assumption
    | decide
    | apply Runs.done
    | apply Runs.whenDue
    | apply Runs.answer
    | apply Runs.next
    | apply Runs.elim
    | apply Runs.after (ffeChunk_only ?_)
    | apply Only.after (eachQuantum_only ?_)
    | apply Only.after fftDo_only
    | apply Only.each
    | extract_lets
    | fail_if_no_progress refine Only.upd ?_
    | split
    | refine Only.ofPair (by assumption) ?_
    | intro _
    | dsimp only
    | dsimp +zetaDelta only

theorem execIfft_only {e s} : Runs [.obj, .host, .dict, .work, .dram, .sram, .mem, .out, .freeCtr] s (execIfft e s) := by
  unfold execIfft
  with_reducible repeat' first
    | exact Only.refl _
    | assumption
    | decide
    | apply Runs.done
    | apply Runs.whenDue
    | apply Runs.answer
    | apply Runs.next
    | apply Runs.elim
    | apply Runs.after (ffeChunk_only ?_)
    | apply Only.after (eachQuantum_only ?_)
    | apply Only.after fftDo_only
    | apply Only.each
    | extract_lets
    | fail_if_no_progress refine Only.upd ?_
    | split
    | refine Only.ofPair (by assumption) ?_
    | intro _
    | dsimp only
    | dsimp +zetaDelta only

theorem prachFound_only {b s} : Only [.freeCtr] s (prachFound b s).2 := by
  unfold prachFound
  with_reducible repeat' first
    | exact Only.refl _
    | assumption
    | decide
    | apply Only.after pick_only
    | apply Only.foldl
    | apply Only.foldlSnd
    | apply Only.foldlThd
    | extract_lets
    | fail_if_no_progress refine Only.upd ?_
    | split
    | refine Only.ofPair (by assumption) ?_
    | intro _
    | dsimp only
    | dsimp +zetaDelta only

theorem prachDo_only {x s} : Only [.obj, .host, .work, .dram, .sram, .mem, .out, .freeCtr] s (prachDo x s).2 := by
  unfold prachDo
  with_reducible repeat' first
    | exact Only.refl _
    | assumption
    | decide
    | apply Only.after prachFound_only
    | apply Only.after pick_only
    | apply Only.after bumpBy_only
    | apply Only.after Chunk.put_only
    | extract_lets
    | fail_if_no_progress refine Only.upd ?_
    | split
    | refine Only.ofPair (by assumption) ?_
    | intro _
    | dsimp only
    | dsimp +zetaDelta only

theorem execPrachExtract_only {e s} : Runs [.obj, .host, .dict, .work, .dram, .sram, .mem, .out, .freeCtr] s (execPrachExtract e s) := by
  unfold execPrachExtract
  with_reducible repeat' first
    | exact Only.refl _
    | assumption
    | decide
    | apply Runs.done
    | apply Runs.whenDue
    | apply Runs.answer
    | apply Runs.next
    | apply Runs.elim
    | apply Runs.after (ffeChunk_only ?_)
    | apply Only.after prachDo_only
    | extract_lets
    | fail_if_no_progress refine Only.upd ?_
    | split
    | refine Only.ofPair (by assumption) ?_
    | intro _
    | dsimp only
    | dsimp +zetaDelta only

theorem eqeChunk_only {e op f s} (h0 : ∀ a0 a1, Only [.obj, .host, .dict, .work, .dram, .sram, .mem, .out, .freeCtr] a1 (f a0 a1).2) : Runs [.obj, .host, .dict, .work, .dram, .sram, .mem, .out, .freeCtr] s (eqeChunk e op f s) := by
  unfold eqeChunk
  with_reducible repeat' first
    | exact Only.refl _
    | assumption
    | decide
    | apply Runs.done
    | apply Runs.whenDue
    | apply Runs.answer
    | apply Runs.next
    | apply Runs.elim
    | apply Runs.after (engineChunk_only ?_)
    | apply Only.after bumpBy_only
    | apply Only.after (h0 _ _)
    | extract_lets
    | fail_if_no_progress refine Only.upd ?_
    | split
    | refine Only.ofPair (by assumption) ?_
    | intro _
    | dsimp only
    | dsimp +zetaDelta only

theorem putFree_only {x k ofs n bad s} : Only [.obj, .host, .work, .dram, .sram, .mem, .out, .freeCtr] s (putFree x k ofs n bad s) := by
  unfold putFree
  with_reducible repeat' first
    | exact Only.refl _
    | assumption
    | decide
    | apply Only.after pickBytes_only
    | apply Only.after Chunk.put_only
    | extract_lets
    | fail_if_no_progress refine Only.upd ?_
    | split
    | refine Only.ofPair (by assumption) ?_
    | intro _
    | dsimp only
    | dsimp +zetaDelta only

theorem freeSat_only {k n s} : Only [.obj, .freeCtr] s (freeSat k n s) := by
  unfold freeSat
  with_reducible repeat' first
    | exact Only.refl _
    | assumption
    | decide
    | apply Only.after pick_only
    | apply Only.after bumpBy_only
    | extract_lets
    | fail_if_no_progress refine Only.upd ?_
    | split
    | refine Only.ofPair (by assumption) ?_
    | intro _
    | dsimp only
    | dsimp +zetaDelta only

theorem cheDo_only {x s} : Only [.obj, .host, .work, .dram, .sram, .mem, .out, .freeCtr] s (cheDo x s).2 := by
  unfold cheDo
  with_reducible repeat' first
    | exact Only.refl _
    | assumption
    | decide
    | apply Only.after putFree_only
    | apply Only.after pick_only
    | apply Only.after pickBytes_only
    | apply Only.after Chunk.put_only
    | apply Only.after freeSat_only
    | extract_lets
    | fail_if_no_progress refine Only.upd ?_
    | split
    | refine Only.ofPair (by assumption) ?_
    | intro _
    | dsimp only
    | dsimp +zetaDelta only

theorem execChannelEstimate_only {e s} : Runs [.obj, .host, .dict, .work, .dram, .sram, .mem, .out, .freeCtr] s (execChannelEstimate e s) := by
  unfold execChannelEstimate
  with_reducible repeat' first
    | exact Only.refl _
    | assumption
    | decide
    | apply Runs.done
    | apply Runs.whenDue
    | apply Runs.answer
    | apply Runs.next
    | apply Runs.elim
    | apply Runs.after (eqeChunk_only ?_)
    | apply Only.after cheDo_only
    | extract_lets
    | fail_if_no_progress refine Only.upd ?_
    | split
    | refine Only.ofPair (by assumption) ?_
    | intro _
    | dsimp only
    | dsimp +zetaDelta only

theorem equDo_only {x n s} : Only [.obj, .host, .work, .dram, .sram, .mem, .out, .freeCtr] s (equDo x n s).2 := by
  unfold equDo
  with_reducible repeat' first
    | exact Only.refl _
    | assumption
    | decide
    | apply Only.after putFree_only
    | apply Only.after bump_only
    | apply Only.after freeSat_only
    | extract_lets
    | fail_if_no_progress refine Only.upd ?_
    | split
    | refine Only.ofPair (by assumption) ?_
    | intro _
    | dsimp only
    | dsimp +zetaDelta only

theorem execEqualise_only {e s} : Runs [.obj, .host, .dict, .work, .dram, .sram, .mem, .out, .freeCtr] s (execEqualise e s) := by
  unfold execEqualise
  with_reducible repeat' first
    | exact Only.refl _
    | assumption
    | decide
    | apply Runs.done
    | apply Runs.whenDue
    | apply Runs.answer
    | apply Runs.next
    | apply Runs.elim
    | apply Runs.after (eqeChunk_only ?_)
    | apply Only.after (eachQuantum_only ?_)
    | apply Only.after equDo_only
    | apply Only.each
    | extract_lets
    | fail_if_no_progress refine Only.upd ?_
    | split
    | refine Only.ofPair (by assumption) ?_
    | intro _
    | dsimp only
    | dsimp +zetaDelta only

theorem freeSv_only {n s} : Only [.freeCtr] s (freeSv n s).2 := by
  unfold freeSv
  with_reducible repeat' first
    | exact Only.refl _
    | assumption
    | decide
    | apply Only.after pick_only
    | apply Only.foldl
    | apply Only.foldlSnd
    | apply Only.foldlThd
    | extract_lets
    | fail_if_no_progress refine Only.upd ?_
    | split
    | refine Only.ofPair (by assumption) ?_
    | intro _
    | dsimp only
    | dsimp +zetaDelta only

theorem bweDo_only {x q s} : Only [.obj, .host, .work, .dram, .sram, .mem, .out, .freeCtr] s (bweDo x q s).2 := by
  unfold bweDo
  with_reducible repeat' first
    | exact Only.refl _
    | assumption
    | decide
    | apply Only.after pick_only
    | apply Only.after freeSv_only
    | apply Only.after pickBytes_only
    | apply Only.after Chunk.put_only
    | apply Only.after bump_only
    | extract_lets
    | fail_if_no_progress refine Only.upd ?_
    | split
    | refine Only.ofPair (by assumption) ?_
    | intro _
    | dsimp only
    | dsimp +zetaDelta only

theorem execBeamWeights_only {e s} : Runs [.obj, .host, .dict, .work, .dram, .sram, .mem, .out, .freeCtr] s (execBeamWeights e s) := by
  unfold execBeamWeights
  with_reducible repeat' first
    | exact Only.refl _
    | assumption
    | decide
    | apply Runs.done
    | apply Runs.whenDue
    | apply Runs.answer
    | apply Runs.next
    | apply Runs.elim
    | apply Runs.after (engineChunk_only ?_)
    | apply Only.after (eachQuantum_only ?_)
    | apply Only.after bweDo_only
    | apply Only.after bumpBy_only
    | apply Only.each
    | extract_lets
    | fail_if_no_progress refine Only.upd ?_
    | split
    | refine Only.ofPair (by assumption) ?_
    | intro _
    | dsimp only
    | dsimp +zetaDelta only

end Sys2Proof.Machine
end

