-- ==== Sys2Proof/Laws/OnlySleep.lean ====
section
/-!
SUPPORT. The frame of every operation of Machine/Sleep.lean: the parts of the state it can change.
-/
namespace Sys2Proof.Machine

set_option Elab.async false

set_option linter.unusedTactic false
set_option linter.unreachableTactic false
set_option linter.unusedVariables false

theorem domainsWake_only {s} : Only [.pow] s (domainsWake s) := by
  unfold domainsWake
  with_reducible repeat' first
    | exact Only.refl _
    | assumption
    | decide
    | apply Only.after startExit_only
    | apply Only.each
    | extract_lets
    | fail_if_no_progress refine Only.upd ?_
    | split
    | refine Only.ofPair (by assumption) ?_
    | intro _
    | dsimp only
    | dsimp +zetaDelta only

theorem domainsDown_only {s} : Only [.obj, .pow] s (domainsDown s) := by
  unfold domainsDown
  with_reducible repeat' first
    | exact Only.refl _
    | assumption
    | decide
    | apply Only.after wr_only
    | apply Only.after powerStat_only
    | apply Only.after setDomState_only
    | apply Only.each
    | extract_lets
    | fail_if_no_progress refine Only.upd ?_
    | split
    | refine Only.ofPair (by assumption) ?_
    | intro _
    | dsimp only
    | dsimp +zetaDelta only

theorem saveResume_only {s} : Only [.obj, .pow, .freeCtr] s (saveResume s) := by
  unfold saveResume
  with_reducible repeat' first
    | exact Only.refl _
    | assumption
    | decide
    | apply Only.after draw_only
    | apply Only.after wr_only
    | extract_lets
    | fail_if_no_progress refine Only.upd ?_
    | split
    | refine Only.ofPair (by assumption) ?_
    | intro _
    | dsimp only
    | dsimp +zetaDelta only

theorem writeSnap_only {x s} : Only [.pow] s (writeSnap x s) := by
  unfold writeSnap
  with_reducible repeat' first
    | exact Only.refl _
    | assumption
    | decide
    | extract_lets
    | fail_if_no_progress refine Only.upd ?_
    | split
    | refine Only.ofPair (by assumption) ?_
    | intro _
    | dsimp only
    | dsimp +zetaDelta only

theorem armAlarm_only {s} : Only [.pow] s (armAlarm s) := by
  unfold armAlarm
  with_reducible repeat' first
    | exact Only.refl _
    | assumption
    | decide
    | apply Only.after writeSnap_only
    | extract_lets
    | fail_if_no_progress refine Only.upd ?_
    | split
    | refine Only.ofPair (by assumption) ?_
    | intro _
    | dsimp only
    | dsimp +zetaDelta only

theorem sleepRails_only {k s} : Only [.pow, .boot, .dict] s (sleepRails k s) := by
  unfold sleepRails
  with_reducible repeat' first
    | exact Only.refl _
    | assumption
    | decide
    | apply Only.after railsDown_only
    | apply Only.after retLost_only
    | extract_lets
    | fail_if_no_progress refine Only.upd ?_
    | split
    | refine Only.ofPair (by assumption) ?_
    | intro _
    | dsimp only
    | dsimp +zetaDelta only

theorem sleepKeeps_only {k was s} (h : Only [.obj, .text, .tim, .pow, .boot, .host, .dict, .work, .sage, .radio, .links, .noc, .dram, .sram, .mem] was s) : Only [.obj, .text, .tim, .pow, .boot, .host, .dict, .work, .sage, .radio, .links, .noc, .dram, .sram, .mem] was (sleepKeeps k was s) := by
  have hw : ∀ w : Memory.wf was.mem = true, Memory.wf (was.mem.filter fun c => dramBase ≤ c.1) = true := fun w => Memory.wf_filter _ w
  unfold sleepKeeps
  extract_lets units s1
  split
  · refine ⟨fun p hp => ?_, h.queue, hw⟩
    cases p <;> first | exact h.same _ hp | exact absurd (by decide) hp
  · refine ⟨fun p hp => ?_, h.queue, h.wf⟩
    cases p <;> first | exact h.same _ hp | exact absurd (by decide) hp

theorem sleepIn_only {k s} : Only [.obj, .text, .tim, .pow, .boot, .host, .dict, .work, .sage, .radio, .links, .noc, .dram, .sram, .mem, .out, .freeCtr] s (sleepIn k s) := by
  have hA : Only [.obj, .text, .tim, .pow, .boot, .host, .dict, .work, .sage, .radio, .links, .noc, .dram, .sram, .mem, .out, .freeCtr] s (let s1 := domainsDown s; let s2 := if k < 8 then saveResume s1 else s1; armAlarm s2) := by
    with_reducible repeat' first
      | exact Only.refl _
      | decide
      | apply Only.after armAlarm_only
      | apply Only.after saveResume_only
      | apply Only.after domainsDown_only
      | extract_lets
      | split
      | dsimp +zetaDelta only
  have hB := hA.trans (sleepKeeps_only (k := k) (d0Lost_only (s := let s1 := domainsDown s; let s2 := if k < 8 then saveResume s1 else s1; armAlarm s2).mono)
    |>.mono)
  unfold sleepIn
  exact Only.after wr_only (by decide) (Only.after sleepRails_only (by decide) hB)

theorem execDeviceSleepEntry_only {woken s} : Runs [.obj, .text, .tim, .pow, .boot, .host, .dict, .work, .sage, .radio, .links, .noc, .dram, .sram, .mem, .out, .freeCtr] s (execDeviceSleepEntry woken s) := by
  unfold execDeviceSleepEntry
  with_reducible repeat' first
    | exact Only.refl _
    | assumption
    | decide
    | apply Runs.done
    | apply Runs.whenDue
    | apply Runs.answer
    | apply Runs.next
    | apply Runs.elim
    | apply Only.after domainsWake_only
    | apply Only.after powerEvent_only
    | apply Only.after domainsDown_only
    | apply Only.after sleepIn_only
    | extract_lets
    | fail_if_no_progress refine Only.upd ?_
    | split
    | refine Only.ofPair (by assumption) ?_
    | intro _
    | dsimp only
    | dsimp +zetaDelta only

theorem latchWake_only {src s} : Only [.pow] s (latchWake src s) := by
  unfold latchWake
  with_reducible repeat' first
    | exact Only.refl _
    | assumption
    | decide
    | extract_lets
    | fail_if_no_progress refine Only.upd ?_
    | split
    | refine Only.ofPair (by assumption) ?_
    | intro _
    | dsimp only
    | dsimp +zetaDelta only

theorem startDeviceExit_only {src s} : Only [.pow, .boot] s (startDeviceExit src s) := by
  unfold startDeviceExit
  with_reducible repeat' first
    | exact Only.refl _
    | assumption
    | decide
    | apply Only.after railOn_only
    | extract_lets
    | fail_if_no_progress refine Only.upd ?_
    | split
    | refine Only.ofPair (by assumption) ?_
    | intro _
    | dsimp only
    | dsimp +zetaDelta only

theorem wakeEvent_only {src s} : Only [.pow, .boot] s (wakeEvent src s) := by
  unfold wakeEvent
  with_reducible repeat' first
    | exact Only.refl _
    | assumption
    | decide
    | apply Only.after latchWake_only
    | apply Only.after startDeviceExit_only
    | extract_lets
    | fail_if_no_progress refine Only.upd ?_
    | split
    | refine Only.ofPair (by assumption) ?_
    | intro _
    | dsimp only
    | dsimp +zetaDelta only

theorem execWakeNFall_only {s} : Runs [.pow, .boot] s (execWakeNFall s) := by
  unfold execWakeNFall
  with_reducible repeat' first
    | exact Only.refl _
    | assumption
    | decide
    | apply Runs.done
    | apply Runs.whenDue
    | apply Runs.answer
    | apply Runs.next
    | apply Runs.elim
    | apply Only.after railsAgain_only
    | apply Only.after wakeEvent_only
    | extract_lets
    | fail_if_no_progress refine Only.upd ?_
    | split
    | refine Only.ofPair (by assumption) ?_
    | intro _
    | dsimp only
    | dsimp +zetaDelta only

theorem execStcAlarm_only {s} : Runs [.pow, .boot] s (execStcAlarm s) := by
  unfold execStcAlarm
  with_reducible repeat' first
    | exact Only.refl _
    | assumption
    | decide
    | apply Runs.done
    | apply Runs.whenDue
    | apply Runs.answer
    | apply Runs.next
    | apply Runs.elim
    | apply Only.after wakeEvent_only
    | extract_lets
    | fail_if_no_progress refine Only.upd ?_
    | split
    | refine Only.ofPair (by assumption) ?_
    | intro _
    | dsimp only
    | dsimp +zetaDelta only

theorem execCanRxWake_only {s} : Runs [.pow, .boot] s (execCanRxWake s) := by
  unfold execCanRxWake
  with_reducible repeat' first
    | exact Only.refl _
    | assumption
    | decide
    | apply Runs.done
    | apply Runs.whenDue
    | apply Runs.answer
    | apply Runs.next
    | apply Runs.elim
    | apply Only.after wakeEvent_only
    | extract_lets
    | fail_if_no_progress refine Only.upd ?_
    | split
    | refine Only.ofPair (by assumption) ?_
    | intro _
    | dsimp only
    | dsimp +zetaDelta only

theorem execPerstNWake_only {s} : Runs [.pow, .boot] s (execPerstNWake s) := by
  unfold execPerstNWake
  with_reducible repeat' first
    | exact Only.refl _
    | assumption
    | decide
    | apply Runs.done
    | apply Runs.whenDue
    | apply Runs.answer
    | apply Runs.next
    | apply Runs.elim
    | apply Only.after wakeEvent_only
    | extract_lets
    | fail_if_no_progress refine Only.upd ?_
    | split
    | refine Only.ofPair (by assumption) ?_
    | intro _
    | dsimp only
    | dsimp +zetaDelta only

theorem execVaonRise_only {s} : Runs [.pow, .boot] s (execVaonRise s) := by
  unfold execVaonRise
  with_reducible repeat' first
    | exact Only.refl _
    | assumption
    | decide
    | apply Runs.done
    | apply Runs.whenDue
    | apply Runs.answer
    | apply Runs.next
    | apply Runs.elim
    | apply Only.after wakeEvent_only
    | extract_lets
    | fail_if_no_progress refine Only.upd ?_
    | split
    | refine Only.ofPair (by assumption) ?_
    | intro _
    | dsimp only
    | dsimp +zetaDelta only

theorem tenantsOff_only {s} : Only [.obj, .work] s (tenantsOff s) := by
  unfold tenantsOff
  with_reducible repeat' first
    | exact Only.refl _
    | assumption
    | decide
    | apply Only.after setRole_only
    | apply Only.each
    | extract_lets
    | fail_if_no_progress refine Only.upd ?_
    | split
    | refine Only.ofPair (by assumption) ?_
    | intro _
    | dsimp only
    | dsimp +zetaDelta only

theorem dramForgotten_only {s} : Only [.obj] s (dramForgotten s) := by
  unfold dramForgotten
  with_reducible repeat' first
    | exact Only.refl _
    | assumption
    | decide
    | apply Only.each
    | extract_lets
    | fail_if_no_progress refine Only.upd ?_
    | split
    | refine Only.ofPair (by assumption) ?_
    | intro _
    | dsimp only
    | dsimp +zetaDelta only

theorem resumeObjects_only {k l s} : Only [.obj, .text, .work] s (resumeObjects k l s) := by
  unfold resumeObjects
  with_reducible repeat' first
    | exact Only.refl _
    | assumption
    | decide
    | apply Only.after tenantsOff_only
    | apply Only.after dramForgotten_only
    | apply Only.each
    | extract_lets
    | fail_if_no_progress refine Only.upd ?_
    | split
    | refine Only.ofPair (by assumption) ?_
    | intro _
    | dsimp only
    | dsimp +zetaDelta only

theorem restartRefs_only {s} : Only [.obj, .tim] s (restartRefs s) := by
  unfold restartRefs
  with_reducible repeat' first
    | exact Only.refl _
    | assumption
    | decide
    | apply Only.after modRef_only
    | apply Only.after wr_only
    | apply Only.after startTimer_only
    | apply Only.each
    | extract_lets
    | fail_if_no_progress refine Only.upd ?_
    | split
    | refine Only.ofPair (by assumption) ?_
    | intro _
    | dsimp only
    | dsimp +zetaDelta only

theorem restoreTime_only {s} : Only [.obj, .tim] s (restoreTime s) := by
  unfold restoreTime
  with_reducible repeat' first
    | exact Only.refl _
    | assumption
    | decide
    | apply Only.after applyCorrection_only
    | apply Only.after refreshQuality_only
    | apply Only.after restartRefs_only
    | apply Only.after wr_only
    | extract_lets
    | fail_if_no_progress refine Only.upd ?_
    | split
    | refine Only.ofPair (by assumption) ?_
    | intro _
    | dsimp only
    | dsimp +zetaDelta only

theorem wakeNote_only {k src trip sleep s} : Only [.obj, .host, .dict, .out, .freeCtr] s (wakeNote k src trip sleep s) := by
  unfold wakeNote
  with_reducible repeat' first
    | exact Only.refl _
    | assumption
    | decide
    | apply Only.after draw_only
    | apply Only.after ownerEvent_only
    | extract_lets
    | fail_if_no_progress refine Only.upd ?_
    | split
    | refine Only.ofPair (by assumption) ?_
    | intro _
    | dsimp only
    | dsimp +zetaDelta only

theorem deviceWake_only {k src s} : Only [.obj, .text, .tim, .pow, .boot, .host, .dict, .work, .sram, .out, .freeCtr] s (deviceWake k src s) := by
  unfold deviceWake
  with_reducible repeat' first
    | exact Only.refl _
    | assumption
    | decide
    | apply Only.after resumeObjects_only
    | apply Only.after restoreTime_only
    | apply Only.after wr_only
    | apply Only.after wakeNote_only
    | apply Only.after thermalEvent_only
    | apply Only.after domainsWake_only
    | apply Only.foldl
    | apply Only.foldlSnd
    | apply Only.foldlThd
    | extract_lets
    | fail_if_no_progress refine Only.upd ?_
    | split
    | refine Only.ofPair (by assumption) ?_
    | intro _
    | dsimp only
    | dsimp +zetaDelta only

theorem execDeviceWake_only {s} : Runs [.obj, .text, .tim, .pow, .boot, .host, .dict, .work, .sram, .out, .freeCtr] s (execDeviceWake s) := by
  unfold execDeviceWake
  with_reducible repeat' first
    | exact Only.refl _
    | assumption
    | decide
    | apply Runs.done
    | apply Runs.whenDue
    | apply Runs.answer
    | apply Runs.next
    | apply Runs.elim
    | apply Only.after deviceWake_only
    | extract_lets
    | fail_if_no_progress refine Only.upd ?_
    | split
    | refine Only.ofPair (by assumption) ?_
    | intro _
    | dsimp only
    | dsimp +zetaDelta only

theorem execWakeHoldExpiry_only {s} : Runs [.pow] s (execWakeHoldExpiry s) := by
  unfold execWakeHoldExpiry
  with_reducible repeat' first
    | exact Only.refl _
    | assumption
    | decide
    | apply Runs.done
    | apply Runs.whenDue
    | apply Runs.answer
    | apply Runs.next
    | apply Runs.elim
    | extract_lets
    | fail_if_no_progress refine Only.upd ?_
    | split
    | refine Only.ofPair (by assumption) ?_
    | intro _
    | dsimp only
    | dsimp +zetaDelta only

theorem execTimeSnapshot_only {k kUnc s} : Runs [.obj, .pow] s (execTimeSnapshot k kUnc s) := by
  unfold execTimeSnapshot
  with_reducible repeat' first
    | exact Only.refl _
    | assumption
    | decide
    | apply Runs.done
    | apply Runs.whenDue
    | apply Runs.answer
    | apply Runs.next
    | apply Runs.elim
    | apply Only.after wr_only
    | apply Only.after writeSnap_only
    | extract_lets
    | fail_if_no_progress refine Only.upd ?_
    | split
    | refine Only.ofPair (by assumption) ?_
    | intro _
    | dsimp only
    | dsimp +zetaDelta only

theorem markTripped_only {s} : Only [.pow] s (markTripped s) := by
  unfold markTripped
  with_reducible repeat' first
    | exact Only.refl _
    | assumption
    | decide
    | extract_lets
    | fail_if_no_progress refine Only.upd ?_
    | split
    | refine Only.ofPair (by assumption) ?_
    | intro _
    | dsimp only
    | dsimp +zetaDelta only

theorem thermalTrip_only {s} : Only [.obj, .text, .tim, .pow, .boot, .host, .dict, .work, .sage, .radio, .links, .noc, .dram, .sram, .mem] s (thermalTrip s) := by
  unfold thermalTrip
  with_reducible repeat' first
    | exact Only.refl _
    | assumption
    | decide
    | apply Only.after markTripped_only
    | apply Only.after railsDown_only
    | apply Only.after d0Lost_only
    | apply Only.after wr_only
    | extract_lets
    | fail_if_no_progress refine Only.upd ?_
    | split
    | refine Only.ofPair (by assumption) ?_
    | intro _
    | dsimp only
    | dsimp +zetaDelta only

theorem execSensorSample_only {n raw s} : Runs [.obj, .text, .tim, .pow, .boot, .host, .dict, .work, .sage, .radio, .links, .noc, .dram, .sram, .mem, .out] s (execSensorSample n raw s) := by
  unfold execSensorSample
  with_reducible repeat' first
    | exact Only.refl _
    | assumption
    | decide
    | apply Runs.done
    | apply Runs.whenDue
    | apply Runs.answer
    | apply Runs.next
    | apply Runs.elim
    | apply Only.after thermalTrip_only
    | apply Only.after sensorFilter_only
    | extract_lets
    | fail_if_no_progress refine Only.upd ?_
    | split
    | refine Only.ofPair (by assumption) ?_
    | intro _
    | dsimp only
    | dsimp +zetaDelta only

theorem execTripHoldExpiry_only {s} : Runs [.pow, .boot] s (execTripHoldExpiry s) := by
  unfold execTripHoldExpiry
  with_reducible repeat' first
    | exact Only.refl _
    | assumption
    | decide
    | apply Runs.done
    | apply Runs.whenDue
    | apply Runs.answer
    | apply Runs.next
    | apply Runs.elim
    | apply Only.after startDeviceExit_only
    | extract_lets
    | fail_if_no_progress refine Only.upd ?_
    | split
    | refine Only.ofPair (by assumption) ?_
    | intro _
    | dsimp only
    | dsimp +zetaDelta only

theorem execJtagAttach_only {s} : Runs [.pow, .boot] s (execJtagAttach s) := by
  unfold execJtagAttach
  with_reducible repeat' first
    | exact Only.refl _
    | assumption
    | decide
    | apply Runs.done
    | apply Runs.whenDue
    | apply Runs.answer
    | apply Runs.next
    | apply Runs.elim
    | apply Only.after wakeEvent_only
    | extract_lets
    | fail_if_no_progress refine Only.upd ?_
    | split
    | refine Only.ofPair (by assumption) ?_
    | intro _
    | dsimp only
    | dsimp +zetaDelta only

theorem execJtagDetach_only {s} : Runs [.boot] s (execJtagDetach s) := by
  unfold execJtagDetach
  with_reducible repeat' first
    | exact Only.refl _
    | assumption
    | decide
    | apply Runs.done
    | apply Runs.whenDue
    | apply Runs.answer
    | apply Runs.next
    | apply Runs.elim
    | extract_lets
    | fail_if_no_progress refine Only.upd ?_
    | split
    | refine Only.ofPair (by assumption) ?_
    | intro _
    | dsimp only
    | dsimp +zetaDelta only

end Sys2Proof.Machine
end

