-- ==== Sys2Proof/Laws/OnlyStartup.lean ====
section
/-!
SUPPORT. The frame of every operation of Machine/Startup.lean: the parts of the state it can change.
-/
namespace Sys2Proof.Machine

set_option Elab.async false

set_option linter.unusedTactic false
set_option linter.unreachableTactic false
set_option linter.unusedVariables false

theorem execKeeperWakeReplay_only {s} : Runs [.pow, .boot] s (execKeeperWakeReplay s) := by
  unfold execKeeperWakeReplay
  with_reducible repeat' first
    | exact Only.refl _
    | assumption
    | decide
    | apply Runs.done
    | apply Runs.whenDue
    | apply Runs.answer
    | apply Runs.next
    | apply Runs.elim
    | apply Only.after wakeEvent_only
    | apply Only.each
    | extract_lets
    | fail_if_no_progress refine Only.upd ?_
    | split
    | refine Only.ofPair (by assumption) ?_
    | intro _
    | dsimp only
    | dsimp +zetaDelta only

theorem execVaonPgood_only {s} : Runs [.obj, .tim, .pow, .boot] s (execVaonPgood s) := by
  unfold execVaonPgood
  with_reducible repeat' first
    | exact Only.refl _
    | assumption
    | decide
    | apply Runs.done
    | apply Runs.whenDue
    | apply Runs.answer
    | apply Runs.next
    | apply Runs.elim
    | apply Only.after powerUp_only
    | apply Only.after wr_only
    | extract_lets
    | fail_if_no_progress refine Only.upd ?_
    | split
    | refine Only.ofPair (by assumption) ?_
    | intro _
    | dsimp only
    | dsimp +zetaDelta only

theorem releaseD0_only {s} : Only [.boot] s (releaseD0 s) := by
  unfold releaseD0
  with_reducible repeat' first
    | exact Only.refl _
    | assumption
    | decide
    | extract_lets
    | fail_if_no_progress refine Only.upd ?_
    | split
    | refine Only.ofPair (by assumption) ?_
    | intro _
    | dsimp only
    | dsimp +zetaDelta only

theorem execPgoodRise_only {n s} : Runs [.boot] s (execPgoodRise n s) := by
  unfold execPgoodRise
  with_reducible repeat' first
    | exact Only.refl _
    | assumption
    | decide
    | apply Runs.done
    | apply Runs.whenDue
    | apply Runs.answer
    | apply Runs.next
    | apply Runs.elim
    | apply Only.after railOn_only
    | apply Only.after releaseD0_only
    | extract_lets
    | fail_if_no_progress refine Only.upd ?_
    | split
    | refine Only.ofPair (by assumption) ?_
    | intro _
    | dsimp only
    | dsimp +zetaDelta only

theorem execPgoodTimeout_only {n s} : Runs [.obj, .text, .tim, .pow, .boot, .host, .dict, .work, .sage, .radio, .links, .noc, .dram, .sram, .mem] s (execPgoodTimeout n s) := by
  unfold execPgoodTimeout
  with_reducible repeat' first
    | exact Only.refl _
    | assumption
    | decide
    | apply Runs.done
    | apply Runs.whenDue
    | apply Runs.answer
    | apply Runs.next
    | apply Runs.elim
    | apply Only.after railFails_only
    | extract_lets
    | fail_if_no_progress refine Only.upd ?_
    | split
    | refine Only.ofPair (by assumption) ?_
    | intro _
    | dsimp only
    | dsimp +zetaDelta only

theorem execRailRetry_only {s} : Runs [.boot] s (execRailRetry s) := by
  unfold execRailRetry
  with_reducible repeat' first
    | exact Only.refl _
    | assumption
    | decide
    | apply Runs.done
    | apply Runs.whenDue
    | apply Runs.answer
    | apply Runs.next
    | apply Runs.elim
    | apply Only.after powerUp_only
    | extract_lets
    | fail_if_no_progress refine Only.upd ?_
    | split
    | refine Only.ofPair (by assumption) ?_
    | intro _
    | dsimp only
    | dsimp +zetaDelta only

theorem execRailFault_only {n s} : Runs [.obj, .text, .tim, .pow, .boot, .host, .dict, .work, .sage, .radio, .links, .noc, .dram, .sram, .mem] s (execRailFault n s) := by
  unfold execRailFault
  with_reducible repeat' first
    | exact Only.refl _
    | assumption
    | decide
    | apply Runs.done
    | apply Runs.whenDue
    | apply Runs.answer
    | apply Runs.next
    | apply Runs.elim
    | apply Only.after railFails_only
    | extract_lets
    | fail_if_no_progress refine Only.upd ?_
    | split
    | refine Only.ofPair (by assumption) ?_
    | intro _
    | dsimp only
    | dsimp +zetaDelta only

theorem execVaonLoss_only {s} : Runs [.obj, .text, .tim, .pow, .boot, .host, .dict, .work, .sage, .radio, .links, .noc, .dram, .sram, .mem] s (execVaonLoss s) := by
  unfold execVaonLoss
  with_reducible repeat' first
    | exact Only.refl _
    | assumption
    | decide
    | apply Runs.done
    | apply Runs.whenDue
    | apply Runs.answer
    | apply Runs.next
    | apply Runs.elim
    | apply Only.after railsDown_only
    | apply Only.after retLost_only
    | apply Only.after d0Lost_only
    | apply Only.after wr_only
    | extract_lets
    | fail_if_no_progress refine Only.upd ?_
    | split
    | refine Only.ofPair (by assumption) ?_
    | intro _
    | dsimp only
    | dsimp +zetaDelta only

theorem restoreLedger_only {s} : Only [.obj, .dict, .sram] s (restoreLedger s) := by
  unfold restoreLedger
  with_reducible repeat' first
    | exact Only.refl _
    | assumption
    | decide
    | apply Only.after histAdd_only
    | apply Only.after wr_only
    | apply Only.each
    | extract_lets
    | fail_if_no_progress refine Only.upd ?_
    | split
    | refine Only.ofPair (by assumption) ?_
    | intro _
    | dsimp only
    | dsimp +zetaDelta only

theorem bootFlash_only {s} : Only [.boot] s (bootFlash s) := by
  unfold bootFlash
  with_reducible repeat' first
    | exact Only.refl _
    | assumption
    | decide
    | apply Only.after romLoad_only
    | extract_lets
    | fail_if_no_progress refine Only.upd ?_
    | split
    | refine Only.ofPair (by assumption) ?_
    | intro _
    | dsimp only
    | dsimp +zetaDelta only

theorem execBootRomStart_only {hz s} : Runs [.obj, .boot, .dict, .sram] s (execBootRomStart hz s) := by
  unfold execBootRomStart
  with_reducible repeat' first
    | exact Only.refl _
    | assumption
    | decide
    | apply Runs.done
    | apply Runs.whenDue
    | apply Runs.answer
    | apply Runs.next
    | apply Runs.elim
    | apply Only.after restoreLedger_only
    | apply Only.after bootFlash_only
    | extract_lets
    | fail_if_no_progress refine Only.upd ?_
    | split
    | refine Only.ofPair (by assumption) ?_
    | intro _
    | dsimp only
    | dsimp +zetaDelta only

theorem execHostBootTrigger_only {s} : Runs [.boot, .dram, .sram, .mem] s (execHostBootTrigger s) := by
  unfold execHostBootTrigger
  with_reducible repeat' first
    | exact Only.refl _
    | assumption
    | decide
    | apply Runs.done
    | apply Runs.whenDue
    | apply Runs.answer
    | apply Runs.next
    | apply Runs.elim
    | apply Only.after memStore_only
    | apply Only.after romLoad_only
    | extract_lets
    | fail_if_no_progress refine Only.upd ?_
    | split
    | refine Only.ofPair (by assumption) ?_
    | intro _
    | dsimp only
    | dsimp +zetaDelta only

theorem restoreHoCv_only {v s} : Only [.obj] s (restoreHoCv v s) := by
  unfold restoreHoCv
  with_reducible repeat' first
    | exact Only.refl _
    | assumption
    | decide
    | apply Only.after wr_only
    | extract_lets
    | fail_if_no_progress refine Only.upd ?_
    | split
    | refine Only.ofPair (by assumption) ?_
    | intro _
    | dsimp only
    | dsimp +zetaDelta only

theorem restoreValue_only {r idx sub l s} : Only [.obj, .text, .tim, .pow, .host, .dict, .work, .sage, .radio, .links, .noc, .dram, .sram, .mem, .out, .freeCtr] s (restoreValue r idx sub l s).2 := by
  unfold restoreValue
  with_reducible repeat' first
    | exact Only.refl _
    | assumption
    | decide
    | apply Only.after accepted_only
    | apply Only.after restoreHoCv_only
    | apply Only.after refusedW_only
    | apply Only.after wr_only
    | apply Only.after portModeSet_only
    | apply Only.after plainValue_only
    | apply Only.after writeValue_only
    | extract_lets
    | fail_if_no_progress refine Only.upd ?_
    | split
    | refine Only.ofPair (by assumption) ?_
    | intro _
    | dsimp only
    | dsimp +zetaDelta only

theorem restoreRecord_only {x s} : Only [.obj, .text, .tim, .pow, .host, .dict, .work, .sage, .radio, .links, .noc, .dram, .sram, .mem, .out, .freeCtr] s (restoreRecord x s) := by
  unfold restoreRecord
  with_reducible repeat' first
    | exact Only.refl _
    | assumption
    | decide
    | apply Only.after recordFailed_only
    | apply Only.after (applyRecord_only ?_)
    | apply Only.after restoreValue_only
    | extract_lets
    | fail_if_no_progress refine Only.upd ?_
    | split
    | refine Only.ofPair (by assumption) ?_
    | intro _
    | dsimp only
    | dsimp +zetaDelta only

theorem restoreAll_only {l s} : Only [.obj, .text, .tim, .pow, .host, .dict, .work, .sage, .radio, .links, .noc, .dram, .sram, .mem, .out, .freeCtr] s (restoreAll l s) := by
  unfold restoreAll
  with_reducible repeat' first
    | exact Only.refl _
    | assumption
    | decide
    | apply Only.after restoreRecord_only
    | apply Only.each
    | extract_lets
    | fail_if_no_progress refine Only.upd ?_
    | split
    | refine Only.ofPair (by assumption) ?_
    | intro _
    | dsimp only
    | dsimp +zetaDelta only

theorem stageTenants_only {s} : Only [.obj, .text, .tim, .pow, .host, .dict, .work, .sage, .radio, .links, .noc, .dram, .sram, .mem, .out, .freeCtr] s (stageTenants s) := by
  unfold stageTenants
  with_reducible repeat' first
    | exact Only.refl _
    | assumption
    | decide
    | apply Only.after restoreAll_only
    | apply Only.after recordFailed_only
    | apply Only.each
    | extract_lets
    | fail_if_no_progress refine Only.upd ?_
    | split
    | refine Only.ofPair (by assumption) ?_
    | intro _
    | dsimp only
    | dsimp +zetaDelta only

theorem stagePorts_only {s} : Only [.obj, .text, .tim, .pow, .host, .dict, .work, .sage, .radio, .links, .noc, .dram, .sram, .mem, .out, .freeCtr] s (stagePorts s) := by
  unfold stagePorts
  with_reducible repeat' first
    | exact Only.refl _
    | assumption
    | decide
    | apply Only.after restoreAll_only
    | extract_lets
    | fail_if_no_progress refine Only.upd ?_
    | split
    | refine Only.ofPair (by assumption) ?_
    | intro _
    | dsimp only
    | dsimp +zetaDelta only

theorem stageLanes_only {s} : Only [.obj, .text, .tim, .pow, .host, .dict, .work, .sage, .radio, .links, .noc, .dram, .sram, .mem, .out, .freeCtr] s (stageLanes s) := by
  unfold stageLanes
  with_reducible repeat' first
    | exact Only.refl _
    | assumption
    | decide
    | apply Only.after restoreAll_only
    | extract_lets
    | fail_if_no_progress refine Only.upd ?_
    | split
    | refine Only.ofPair (by assumption) ?_
    | intro _
    | dsimp only
    | dsimp +zetaDelta only

theorem stageSkipped_only {n s} : Only [.dict] s (stageSkipped n s) := by
  unfold stageSkipped
  with_reducible repeat' first
    | exact Only.refl _
    | assumption
    | decide
    | apply Only.after histAdd_only
    | extract_lets
    | fail_if_no_progress refine Only.upd ?_
    | split
    | refine Only.ofPair (by assumption) ?_
    | intro _
    | dsimp only
    | dsimp +zetaDelta only

theorem stageRegions_only {s} : Only [.obj, .text, .tim, .pow, .host, .dict, .work, .sage, .radio, .links, .noc, .dram, .sram, .mem, .out, .freeCtr] s (stageRegions s) := by
  unfold stageRegions
  with_reducible repeat' first
    | exact Only.refl _
    | assumption
    | decide
    | apply Only.after restoreAll_only
    | apply Only.after wr_only
    | apply Only.after stageSkipped_only
    | extract_lets
    | fail_if_no_progress refine Only.upd ?_
    | split
    | refine Only.ofPair (by assumption) ?_
    | intro _
    | dsimp only
    | dsimp +zetaDelta only

theorem oscNoted_only {s} : Only [.dict] s (oscNoted s) := by
  unfold oscNoted
  with_reducible repeat' first
    | exact Only.refl _
    | assumption
    | decide
    | apply Only.after histAdd_only
    | extract_lets
    | fail_if_no_progress refine Only.upd ?_
    | split
    | refine Only.ofPair (by assumption) ?_
    | intro _
    | dsimp only
    | dsimp +zetaDelta only

theorem laterStages_only {s} : Only [.obj, .text, .tim, .pow, .boot, .host, .dict, .work, .sage, .radio, .links, .noc, .dram, .sram, .mem, .out, .freeCtr] s (laterStages s) := by
  unfold laterStages
  with_reducible repeat' first
    | exact Only.refl _
    | assumption
    | decide
    | apply Only.after stageTenants_only
    | apply Only.after stagePorts_only
    | apply Only.after stageLanes_only
    | apply Only.after restoreAll_only
    | apply Only.after stageRegions_only
    | apply Only.after oscNoted_only
    | extract_lets
    | fail_if_no_progress refine Only.upd ?_
    | split
    | refine Only.ofPair (by assumption) ?_
    | intro _
    | dsimp only
    | dsimp +zetaDelta only

theorem goOn_only {s} : Only [.obj, .text, .tim, .pow, .boot, .host, .dict, .work, .sage, .radio, .links, .noc, .dram, .sram, .mem, .out, .freeCtr] s (goOn s) := by
  unfold goOn
  with_reducible repeat' first
    | exact Only.refl _
    | assumption
    | decide
    | apply Only.after laterStages_only
    | extract_lets
    | fail_if_no_progress refine Only.upd ?_
    | split
    | refine Only.ofPair (by assumption) ?_
    | intro _
    | dsimp only
    | dsimp +zetaDelta only

theorem takeImage_only {s} : Only [.dict] s (takeImage s) := by
  unfold takeImage
  with_reducible repeat' first
    | exact Only.refl _
    | assumption
    | decide
    | apply Only.after histAdd_only
    | extract_lets
    | fail_if_no_progress refine Only.upd ?_
    | split
    | refine Only.ofPair (by assumption) ?_
    | intro _
    | dsimp only
    | dsimp +zetaDelta only

theorem stageDram_only {s} : Only [.obj, .text, .tim, .pow, .host, .dict, .work, .sage, .radio, .links, .noc, .dram, .sram, .mem, .out, .freeCtr] s (stageDram s) := by
  unfold stageDram
  with_reducible repeat' first
    | exact Only.refl _
    | assumption
    | decide
    | apply Only.after wStart_only
    | apply Only.after restoreAll_only
    | apply Only.after stageSkipped_only
    | extract_lets
    | fail_if_no_progress refine Only.upd ?_
    | split
    | refine Only.ofPair (by assumption) ?_
    | intro _
    | dsimp only
    | dsimp +zetaDelta only

theorem stageTiming_only {s} : Only [.obj, .text, .tim, .pow, .host, .dict, .work, .sage, .radio, .links, .noc, .dram, .sram, .mem, .out, .freeCtr] s (stageTiming s) := by
  unfold stageTiming
  with_reducible repeat' first
    | exact Only.refl _
    | assumption
    | decide
    | apply Only.after restoreAll_only
    | apply Only.after restoreTime_only
    | extract_lets
    | fail_if_no_progress refine Only.upd ?_
    | split
    | refine Only.ofPair (by assumption) ?_
    | intro _
    | dsimp only
    | dsimp +zetaDelta only

theorem earlyStages_only {s} : Only [.obj, .text, .tim, .pow, .boot, .host, .dict, .work, .sage, .radio, .links, .noc, .dram, .sram, .mem, .out, .freeCtr] s (earlyStages s) := by
  unfold earlyStages
  with_reducible repeat' first
    | exact Only.refl _
    | assumption
    | decide
    | apply Only.after takeImage_only
    | apply Only.after stageDram_only
    | apply Only.after stageTiming_only
    | apply Only.after restoreAll_only
    | extract_lets
    | fail_if_no_progress refine Only.upd ?_
    | split
    | refine Only.ofPair (by assumption) ?_
    | intro _
    | dsimp only
    | dsimp +zetaDelta only

theorem execFirmwareReady_only {s} : Runs [.obj, .text, .tim, .pow, .boot, .host, .dict, .work, .sage, .radio, .links, .noc, .dram, .sram, .mem, .out, .freeCtr] s (execFirmwareReady s) := by
  unfold execFirmwareReady
  with_reducible repeat' first
    | exact Only.refl _
    | assumption
    | decide
    | apply Runs.done
    | apply Runs.whenDue
    | apply Runs.answer
    | apply Runs.next
    | apply Runs.elim
    | apply Only.after goOn_only
    | apply Only.after earlyStages_only
    | extract_lets
    | fail_if_no_progress refine Only.upd ?_
    | split
    | refine Only.ofPair (by assumption) ?_
    | intro _
    | dsimp only
    | dsimp +zetaDelta only

theorem execRstNAssert_only {s} : Runs [.obj, .text, .tim, .pow, .boot, .host, .dict, .work, .sage, .radio, .links, .noc, .dram, .sram, .mem] s (execRstNAssert s) := by
  unfold execRstNAssert
  with_reducible repeat' first
    | exact Only.refl _
    | assumption
    | decide
    | apply Runs.done
    | apply Runs.whenDue
    | apply Runs.answer
    | apply Runs.next
    | apply Runs.elim
    | apply Only.after warmReset_only
    | apply Only.after railsAgain_only
    | extract_lets
    | fail_if_no_progress refine Only.upd ?_
    | split
    | refine Only.ofPair (by assumption) ?_
    | intro _
    | dsimp only
    | dsimp +zetaDelta only

theorem execJtagReset_only {s} : Runs [.obj, .text, .tim, .pow, .boot, .host, .dict, .work, .sage, .radio, .links, .noc, .dram, .sram, .mem] s (execJtagReset s) := by
  unfold execJtagReset
  with_reducible repeat' first
    | exact Only.refl _
    | assumption
    | decide
    | apply Runs.done
    | apply Runs.whenDue
    | apply Runs.answer
    | apply Runs.next
    | apply Runs.elim
    | apply Only.after warmReset_only
    | extract_lets
    | fail_if_no_progress refine Only.upd ?_
    | split
    | refine Only.ofPair (by assumption) ?_
    | intro _
    | dsimp only
    | dsimp +zetaDelta only

theorem execFirmwareWatchdog_only {s} : Runs [.obj, .text, .tim, .pow, .boot, .host, .dict, .work, .sage, .radio, .links, .noc, .dram, .sram, .mem] s (execFirmwareWatchdog s) := by
  unfold execFirmwareWatchdog
  with_reducible repeat' first
    | exact Only.refl _
    | assumption
    | decide
    | apply Runs.done
    | apply Runs.whenDue
    | apply Runs.answer
    | apply Runs.next
    | apply Runs.elim
    | apply Only.after warmReset_only
    | extract_lets
    | fail_if_no_progress refine Only.upd ?_
    | split
    | refine Only.ofPair (by assumption) ?_
    | intro _
    | dsimp only
    | dsimp +zetaDelta only

theorem execWarmResetRelease_only {s} : Runs [.boot] s (execWarmResetRelease s) := by
  unfold execWarmResetRelease
  with_reducible repeat' first
    | exact Only.refl _
    | assumption
    | decide
    | apply Runs.done
    | apply Runs.whenDue
    | apply Runs.answer
    | apply Runs.next
    | apply Runs.elim
    | apply Only.after releaseD0_only
    | extract_lets
    | fail_if_no_progress refine Only.upd ?_
    | split
    | refine Only.ofPair (by assumption) ?_
    | intro _
    | dsimp only
    | dsimp +zetaDelta only

theorem engineTestEnd_only {u pass s} : Only [.obj, .pow, .host, .dict, .work, .sage, .radio, .noc, .out] s (engineTestEnd u pass s) := by
  unfold engineTestEnd
  with_reducible repeat' first
    | exact Only.refl _
    | assumption
    | decide
    | apply Only.after overcommitCheck_only
    | apply Only.after roleNow_only
    | extract_lets
    | fail_if_no_progress refine Only.upd ?_
    | split
    | refine Only.ofPair (by assumption) ?_
    | intro _
    | dsimp only
    | dsimp +zetaDelta only

theorem execSelftestDone_only {u pass s} : Runs [.obj, .pow, .boot, .host, .dict, .work, .sage, .radio, .noc, .dram, .sram, .mem, .out] s (execSelftestDone u pass s) := by
  unfold execSelftestDone
  with_reducible repeat' first
    | exact Only.refl _
    | assumption
    | decide
    | apply Runs.done
    | apply Runs.whenDue
    | apply Runs.answer
    | apply Runs.next
    | apply Runs.elim
    | apply Only.after endFlow_only
    | apply Only.after engineTestEnd_only
    | apply Only.after finishLoads_only
    | apply Only.after overcommitCheck_only
    | apply Only.after coreTestEnd_only
    | extract_lets
    | fail_if_no_progress refine Only.upd ?_
    | split
    | refine Only.ofPair (by assumption) ?_
    | intro _
    | dsimp only
    | dsimp +zetaDelta only

theorem flowTry_only {flow unit due s} : Only [.boot] s (flowTry flow unit due s) := by
  unfold flowTry
  with_reducible repeat' first
    | exact Only.refl _
    | assumption
    | decide
    | extract_lets
    | fail_if_no_progress refine Only.upd ?_
    | split
    | refine Only.ofPair (by assumption) ?_
    | intro _
    | dsimp only
    | dsimp +zetaDelta only

theorem execDramRestartRetry_only {s} : Runs [.obj, .boot, .host, .dict, .out] s (execDramRestartRetry s) := by
  unfold execDramRestartRetry
  with_reducible repeat' first
    | exact Only.refl _
    | assumption
    | decide
    | apply Runs.done
    | apply Runs.whenDue
    | apply Runs.answer
    | apply Runs.next
    | apply Runs.elim
    | apply Only.after wStart_only
    | apply Only.after flowTry_only
    | apply Only.after endFlow_only
    | extract_lets
    | fail_if_no_progress refine Only.upd ?_
    | split
    | refine Only.ofPair (by assumption) ?_
    | intro _
    | dsimp only
    | dsimp +zetaDelta only

theorem laneCycle_only {n s} : Only [.obj, .tim, .host, .dict, .links, .out] s (laneCycle n s) := by
  unfold laneCycle
  with_reducible repeat' first
    | exact Only.refl _
    | assumption
    | decide
    | apply Only.after laneOn_only
    | apply Only.after laneOff_only
    | extract_lets
    | fail_if_no_progress refine Only.upd ?_
    | split
    | refine Only.ofPair (by assumption) ?_
    | intro _
    | dsimp only
    | dsimp +zetaDelta only

theorem execLaneRecoveryTimer_only {n s} : Runs [.obj, .tim, .boot, .host, .dict, .links, .out] s (execLaneRecoveryTimer n s) := by
  unfold execLaneRecoveryTimer
  with_reducible repeat' first
    | exact Only.refl _
    | assumption
    | decide
    | apply Runs.done
    | apply Runs.whenDue
    | apply Runs.answer
    | apply Runs.next
    | apply Runs.elim
    | apply Only.after laneCycle_only
    | apply Only.after flowTry_only
    | apply Only.after startFlow_only
    | apply Only.after endFlow_only
    | apply Only.after laneOff_only
    | extract_lets
    | fail_if_no_progress refine Only.upd ?_
    | split
    | refine Only.ofPair (by assumption) ?_
    | intro _
    | dsimp only
    | dsimp +zetaDelta only

theorem toFallback_only {s} : Only [.obj, .tim, .boot, .host, .dict, .out] s (toFallback s) := by
  unfold toFallback
  with_reducible repeat' first
    | exact Only.refl _
    | assumption
    | decide
    | apply Only.after wr_only
    | apply Only.after refreshQuality_only
    | apply Only.after setTimState_only
    | extract_lets
    | fail_if_no_progress refine Only.upd ?_
    | split
    | refine Only.ofPair (by assumption) ?_
    | intro _
    | dsimp only
    | dsimp +zetaDelta only

theorem execOscLoss_only {pcieClock s} : Runs [.obj, .text, .tim, .pow, .boot, .host, .dict, .work, .sage, .radio, .links, .noc, .dram, .sram, .mem, .out, .freeCtr] s (execOscLoss pcieClock s) := by
  unfold execOscLoss
  with_reducible repeat' first
    | exact Only.refl _
    | assumption
    | decide
    | apply Runs.done
    | apply Runs.whenDue
    | apply Runs.answer
    | apply Runs.next
    | apply Runs.elim
    | apply Only.after startFlow_only
    | apply Only.after toFallback_only
    | apply Only.after draw_only
    | apply Only.after endFlow_only
    | apply Only.after warmReset_only
    | extract_lets
    | fail_if_no_progress refine Only.upd ?_
    | split
    | refine Only.ofPair (by assumption) ?_
    | intro _
    | dsimp only
    | dsimp +zetaDelta only

theorem execOscReturn_only {s} : Runs [.obj, .tim, .boot, .host, .dict, .out] s (execOscReturn s) := by
  unfold execOscReturn
  with_reducible repeat' first
    | exact Only.refl _
    | assumption
    | decide
    | apply Runs.done
    | apply Runs.whenDue
    | apply Runs.answer
    | apply Runs.next
    | apply Runs.elim
    | apply Only.after enterHoldover_only
    | apply Only.after refreshQuality_only
    | apply Only.after endFlow_only
    | extract_lets
    | fail_if_no_progress refine Only.upd ?_
    | split
    | refine Only.ofPair (by assumption) ?_
    | intro _
    | dsimp only
    | dsimp +zetaDelta only

end Sys2Proof.Machine
end

