-- ==== Sys2Proof/Laws/OnlyStep.lean ====
section
/-!
SUPPORT. The frame of a whole step: every command has its effect and leaves the queue alone, and a step takes exactly the front of the
queue.
-/
namespace Sys2Proof.Machine

set_option Elab.async false

/-- Every part of the state. -/
def allParts : List Part :=
  [.obj, .text, .tim, .pow, .boot, .host, .dict, .work, .sage, .radio, .links, .noc, .dram, .sram, .mem, .out, .freeCtr]

theorem Runs.all {l : List Part} {s : State} {r : Res} (h : Runs l s r) : Runs allParts s r := by
  obtain ⟨t, rfl, ht⟩ := h
  exact ⟨t, rfl, ht.mono fun p _ => by cases p <;> decide⟩

/-- Every command has its effect, and changes neither the queue nor the canonical form of memory. -/
theorem exec_runs (i : Instr) (s : State) : Runs allParts s (exec i s) := by
  cases i
  · exact execSubmit_only.all
  · exact execCancel_only.all
  · exact execReleaseCarry_only.all
  · exact execSqTail_only.all
  · exact execCqHead_only.all
  · exact execSubmissionFetch_only.all
  · exact execGraphFetchDone_only.all
  · exact execPlacementStart_only.all
  · exact execPlacementCommit_only.all
  · exact execExclusiveTokenGrant_only.all
  · exact execPlacementVoteOnset_only.all
  · exact execRoleChange_only.all
  · exact execUnitFence_only.all
  · exact execTemplatesEnable_only.all
  · exact execTemplateSlots_only.all
  · exact execJobDispatch_only.all
  · exact execSageJob_only.all
  · exact execCopy_only.all
  · exact execLdpcDecode_only.all
  · exact execLdpcEncode_only.all
  · exact execPolarDecode_only.all
  · exact execTurboDecode_only.all
  · exact execTurboEncode_only.all
  · exact execConvolutionalDecode_only.all
  · exact execHarqCombine_only.all
  · exact execFft_only.all
  · exact execIfft_only.all
  · exact execPrachExtract_only.all
  · exact execChannelEstimate_only.all
  · exact execEqualise_only.all
  · exact execBeamWeights_only.all
  · exact execCollect_only.all
  · exact execUpdate_only.all
  · exact execChunkEnd_only.all
  · exact execCancelRequest_only.all
  · exact execCompletionMessage_only.all
  · exact execHeldReadyRelease_only.all
  · exact execLevelTick_only.all
  · exact execIdQuarantineExpiry_only.all
  · exact execGenerationBarExpiry_only.all
  · exact execWatchdog_only.all
  · exact execBudgetWindow_only.all
  · exact execTenantEnable_only.all
  · exact execTenantDisable_only.all
  · exact execCiAssign_only.all
  · exact execCiRemove_only.all
  · exact execBudgetWrite_only.all
  · exact execFlowLimit_only.all
  · exact execTenantMode_only.all
  · exact execDedicate_only.all
  · exact execReleaseUnit_only.all
  · exact execEntryWrite_only.all
  · exact execProgramImageLoad_only.all
  · exact execMaintRequest_only.all
  · exact execMaintTaskEnd_only.all
  · exact execSliceOverrun_only.all
  · exact execCmcHoldRevoke_only.all
  · exact execCmcReserveLapse_only.all
  · exact execVectorGate_only.all
  · exact execXferDone_only.all
  · exact execNop_only.all
  · exact execYield_only.all
  · exact execEnd_only.all
  · exact execXwait_only.all
  · exact execXtest_only.all
  · exact execXwaitall_only.all
  · exact execXfer_only.all
  · exact execAdd_only.all
  · exact execSub_only.all
  · exact execAdds_only.all
  · exact execSubs_only.all
  · exact execAnd_only.all
  · exact execOr_only.all
  · exact execXor_only.all
  · exact execAndn_only.all
  · exact execNeg_only.all
  · exact execNegs_only.all
  · exact execAbs_only.all
  · exact execAbss_only.all
  · exact execClz_only.all
  · exact execCls_only.all
  · exact execAddi_only.all
  · exact execAndi_only.all
  · exact execOri_only.all
  · exact execXori_only.all
  · exact execSlti_only.all
  · exact execSltiu_only.all
  · exact execAddsi_only.all
  · exact execLui_only.all
  · exact execSll_only.all
  · exact execSrl_only.all
  · exact execSra_only.all
  · exact execRor_only.all
  · exact execSlls_only.all
  · exact execSlli_only.all
  · exact execSrli_only.all
  · exact execSrai_only.all
  · exact execRori_only.all
  · exact execSllsi_only.all
  · exact execExtu_only.all
  · exact execExts_only.all
  · exact execIns_only.all
  · exact execSeq_only.all
  · exact execSne_only.all
  · exact execSlt_only.all
  · exact execSltu_only.all
  · exact execMin_only.all
  · exact execMax_only.all
  · exact execMinu_only.all
  · exact execMaxu_only.all
  · exact execMaxi_only.all
  · exact execMaxiu_only.all
  · exact execMini_only.all
  · exact execMiniu_only.all
  · exact execBeq_only.all
  · exact execBne_only.all
  · exact execBlt_only.all
  · exact execBge_only.all
  · exact execBltu_only.all
  · exact execBgeu_only.all
  · exact execBcb_only.all
  · exact execBcnb_only.all
  · exact execJ_only.all
  · exact execJal_only.all
  · exact execJr_only.all
  · exact execJalr_only.all
  · exact execBrl_only.all
  · exact execLci_only.all
  · exact execLcr_only.all
  · exact execRot_only.all
  · exact execLdB_only.all
  · exact execLdBu_only.all
  · exact execLdH_only.all
  · exact execLdHu_only.all
  · exact execLdW_only.all
  · exact execLdD_only.all
  · exact execStB_only.all
  · exact execStH_only.all
  · exact execStW_only.all
  · exact execStD_only.all
  · exact execVectorLoad16_only.all
  · exact execVectorLoad32_only.all
  · exact execVectorStore16_only.all
  · exact execVectorStore32_only.all
  · exact execMfs_only.all
  · exact execMts_only.all
  · exact execAdda_only.all
  · exact execAddag_only.all
  · exact execMga_only.all
  · exact execMag_only.all
  · exact execMgm_only.all
  · exact execMmg_only.all
  · exact execMpy_only.all
  · exact execMac_only.all
  · exact execMsu_only.all
  · exact execClra_only.all
  · exact execMta_only.all
  · exact execMtg_only.all
  · exact execExtr_only.all
  · exact execMfa_only.all
  · exact execMfg_only.all
  · exact execVadd_only.all
  · exact execVsub_only.all
  · exact execVadds_only.all
  · exact execVsubs_only.all
  · exact execVaddus_only.all
  · exact execVsubus_only.all
  · exact execVavgr_only.all
  · exact execVnegs_only.all
  · exact execVabss_only.all
  · exact execVmin_only.all
  · exact execVmax_only.all
  · exact execVminu_only.all
  · exact execVmaxu_only.all
  · exact execVand_only.all
  · exact execVor_only.all
  · exact execVxor_only.all
  · exact execVandn_only.all
  · exact execVcmpeq_only.all
  · exact execVcmpgt_only.all
  · exact execVcmpgtu_only.all
  · exact execVsel_only.all
  · exact execVmulr_only.all
  · exact execVcmulr_only.all
  · exact execVcmulrj_only.all
  · exact execVconjs_only.all
  · exact execVmull_only.all
  · exact execVsll_only.all
  · exact execVsrl_only.all
  · exact execVsra_only.all
  · exact execVsrar_only.all
  · exact execVslls_only.all
  · exact execVpackr_only.all
  · exact execVpackru_only.all
  · exact execVunpkl_only.all
  · exact execVunpkh_only.all
  · exact execVmpy_only.all
  · exact execVmac_only.all
  · exact execVmsu_only.all
  · exact execVclra_only.all
  · exact execVcmpy_only.all
  · exact execVcmac_only.all
  · exact execVcmsu_only.all
  · exact execVcmpyj_only.all
  · exact execVcmacj_only.all
  · exact execVextr_only.all
  · exact execVmta_only.all
  · exact execVmfa_only.all
  · exact execVpermB_only.all
  · exact execValign_only.all
  · exact execVilvlH_only.all
  · exact execVilvhH_only.all
  · exact execVdilveH_only.all
  · exact execVdilvoH_only.all
  · exact execVrevH_only.all
  · exact execVrevW_only.all
  · exact execVsplatH_only.all
  · exact execVsplatW_only.all
  · exact execVbcg_only.all
  · exact execVgetl_only.all
  · exact execVgetlu_only.all
  · exact execVsetl_only.all
  · exact execVmaxi_only.all
  · exact execVmini_only.all
  · exact execVrmaxi_only.all
  · exact execVrmini_only.all
  · exact execVrsum_only.all
  · exact execVmulwH_only.all
  · exact execVmulwuH_only.all
  · exact execVmulwW_only.all
  · exact execVmulwuW_only.all
  · exact execVdotH_only.all
  · exact execVdotW_only.all
  · exact execVdotaH_only.all
  · exact execCxCrecip_only.all
  · exact execCxRsqrt_only.all
  · exact execCxAtan2_only.all
  · exact execCxRot_only.all
  · exact execCxLog2_only.all
  · exact execCxExp2_only.all
  · exact execCxDiv_only.all
  · exact execCxDivu_only.all
  · exact execCxMscale_only.all
  · exact execCxMput_only.all
  · exact execCxChol_only.all
  · exact execCxMinv_only.all
  · exact execCxMget_only.all
  · exact execCxMexp_only.all
  · exact execCxClaim_only.all
  · exact execCxRelease_only.all
  · exact execCxSave_only.all
  · exact execCxRestore_only.all
  · exact execCxStat_only.all
  · exact execCxClrf_only.all
  · exact execLddCapSet_only.all
  · exact execSbQuotaSet_only.all
  · exact execSbRegionWrite_only.all
  · exact execBindSet_only.all
  · exact execUnbind_only.all
  · exact execResSet_only.all
  · exact execPreambleDetect_only.all
  · exact execSfdMatch_only.all
  · exact execPreTimeout_only.all
  · exact execPhrDecided_only.all
  · exact execKeyDecided_only.all
  · exact execFrameEnd_only.all
  · exact execOccasionEnd_only.all
  · exact execLookupDone_only.all
  · exact execLookupDeadline_only.all
  · exact execInsert_only.all
  · exact execSetUser_only.all
  · exact execDeleteKey_only.all
  · exact execDeleteId_only.all
  · exact execBlock_only.all
  · exact execUnblock_only.all
  · exact execIdtRebuild_only.all
  · exact execIdtMigrateStep_only.all
  · exact execIdtSwap_only.all
  · exact execIdtStallRetry_only.all
  · exact execSidQuarantineExpiry_only.all
  · exact execSequencerHandover_only.all
  · exact execBucketsMax_only.all
  · exact execLaneRate_only.all
  · exact execTxTapWrite_only.all
  · exact execLaneReqActive_only.all
  · exact execLaneReqStandby_only.all
  · exact execLaneReqDeep_only.all
  · exact execLaneReqDisabled_only.all
  · exact execLaneEntryDone_only.all
  · exact execLaneReady_only.all
  · exact execLaneSignalDetect_only.all
  · exact execLaneLos_only.all
  · exact execDfeUpdate_only.all
  · exact execCtleVgaVisit_only.all
  · exact execLaneLoadWindow_only.all
  · exact execLaneCalCapture_only.all
  · exact execLaneContextCheck_only.all
  · exact execLaneRecentreStart_only.all
  · exact execLaneRecentreDone_only.all
  · exact execLaneRecentre_only.all
  · exact execScanStart_only.all
  · exact execScanPointDone_only.all
  · exact execScanAbort_only.all
  · exact execAmLock_only.all
  · exact execAmLost_only.all
  · exact execPrbsClear_only.all
  · exact execPortMode_only.all
  · exact execPortUp_only.all
  · exact execPortDown_only.all
  · exact execEthFrameRx_only.all
  · exact execUplaneMessage_only.all
  · exact execTimeDomainMessage_only.all
  · exact execOwdmRequest_only.all
  · exact execOwdmRequestFollowUp_only.all
  · exact execOwdmFollowUp_only.all
  · exact execOwdmRemoteRequest_only.all
  · exact execOwdmResponse_only.all
  · exact execOwdmStart_only.all
  · exact execRxWindowClose_only.all
  · exact execTxWindowOpen_only.all
  · exact execTxWindowClose_only.all
  · exact execCplaneSend_only.all
  · exact execAxcBind_only.all
  · exact execAxcUnbind_only.all
  · exact execCiConfig_only.all
  · exact execDtcAdjust_only.all
  · exact execSlewDone_only.all
  · exact execRefPulse_only.all
  · exact execTodSentence_only.all
  · exact execRefActivityLoss_only.all
  · exact execRefSecondUpdate_only.all
  · exact execRefEnable_only.all
  · exact execForceRef_only.all
  · exact execLoopAutomatic_only.all
  · exact execLoopHoldover_only.all
  · exact execLoopSoftware_only.all
  · exact execSwFreq_only.all
  · exact execTddPatternApply_only.all
  · exact execDramStart_only.all
  · exact execDramStop_only.all
  · exact execDramTrainDone_only.all
  · exact execDramRequest_only.all
  · exact execDramReadDone_only.all
  · exact execDramAlert_only.all
  · exact execFreezeAutoExpiry_only.all
  · exact execResume_only.all
  · exact execDramRetrainDone_only.all
  · exact execDramRefresh_only.all
  · exact execRaaTableClear_only.all
  · exact execDramTempPoll_only.all
  · exact execDramTrack_only.all
  · exact execDramLoadWindow_only.all
  · exact execDramContextCheck_only.all
  · exact execDramRecentreStart_only.all
  · exact execDramRecentreDone_only.all
  · exact execDramRecentre_only.all
  · exact execDramScrub_only.all
  · exact execPdIdleExpiry_only.all
  · exact execScrubPassStart_only.all
  · exact execScrubWord_only.all
  · exact execScrubMacroEnd_only.all
  · exact execColumnSpareDone_only.all
  · exact execWordRemapDone_only.all
  · exact execLedgerMinute_only.all
  · exact execLedgerDailyWrite_only.all
  · exact execLedgerYearlyRewrite_only.all
  · exact execLedgerWrite_only.all
  · exact execNocReadRequest_only.all
  · exact execNocWrite_only.all
  · exact execNocReadData_only.all
  · exact execNocWriteAck_only.all
  · exact execVoteSet_only.all
  · exact execDomainEntryStart_only.all
  · exact execDomainEntryDone_only.all
  · exact execDomainWake_only.all
  · exact execDomainExitDone_only.all
  · exact execClockNotch_only.all
  · exact execGovernorGrant_only.all
  · exact execClkSet_only.all
  · exact execMarginContextCheck_only.all
  · exact execMarginRecentre_only.all
  · exact execDomainRecentre_only.all
  · exact execDroopDetect_only.all
  · exact execDeviceSleepEntry_only.all
  · exact execWakeNFall_only.all
  · exact execStcAlarm_only.all
  · exact execCanRxWake_only.all
  · exact execPerstNWake_only.all
  · exact execVaonRise_only.all
  · exact execDeviceWake_only.all
  · exact execWakeHoldExpiry_only.all
  · exact execTimeSnapshot_only.all
  · exact execVbatMeasure_only.all
  · exact execSensorSample_only.all
  · exact execThrottleStep_only.all
  · exact execThrottleRecoverStep_only.all
  · exact execTripHoldExpiry_only.all
  · exact execJtagAttach_only.all
  · exact execLinkUp_only.all
  · rename_i how
    exact (execConventionalReset_only (_how := how)).all
  · exact execFlrStart_only.all
  · exact execFlrDone_only.all
  · exact execBusMasterDisable_only.all
  · exact execBusMasterEnable_only.all
  · exact execVfDisable_only.all
  · exact execQpEnable_only.all
  · exact execQpDisable_only.all
  · exact execEqEnable_only.all
  · exact execEqDisable_only.all
  · exact execEqHead_only.all
  · exact execAeLogClear_only.all
  · exact execCounterLoRead_only.all
  · exact execRegisterWrite_only.all
  · exact execInterruptModTimer_only.all
  · exact execMsixUnmask_only.all
  · exact execHostReadCompletion_only.all
  · exact execCompletionTimeout_only.all
  · exact execAtsInvalidate_only.all
  · exact execCxlSnoop_only.all
  · exact execCxlMemRequest_only.all
  · exact execBar4Access_only.all
  · exact execMailboxGo_only.all
  · exact execMailboxDoneClear_only.all
  · exact execRead_only.all
  · exact execWrite_only.all
  · exact execReadSeg_only.all
  · exact execWriteSeg_only.all
  · exact execAbort_only.all
  · exact execSegTimeout_only.all
  · exact execNotifyInterval_only.all
  · exact execMgmtHousekeeping_only.all
  · exact execMgmtPhyPoll_only.all
  · exact execStore_only.all
  · exact execStoreDone_only.all
  · exact execRestoreDefaults_only.all
  · exact execImageWrite_only.all
  · exact execHistClear_only.all
  · exact execLocText_only.all
  · exact execLocPacked_only.all
  · exact execFirmwareWrite_only.all
  · exact execKeeperWakeReplay_only.all
  · exact execVaonPgood_only.all
  · exact execPgoodRise_only.all
  · exact execPgoodTimeout_only.all
  · exact execRailRetry_only.all
  · exact execRailFault_only.all
  · exact execVaonLoss_only.all
  · exact execBootRomStart_only.all
  · exact execHostBootTrigger_only.all
  · exact execFirmwareReady_only.all
  · exact execRstNAssert_only.all
  · exact execJtagReset_only.all
  · exact execFirmwareWatchdog_only.all
  · exact execWarmResetRelease_only.all
  · exact execSelftestDone_only.all
  · exact execDramRestartRetry_only.all
  · exact execLaneRecoveryTimer_only.all
  · exact execOscLoss_only.all
  · exact execOscReturn_only.all
  · exact execCollectCutoff_only.all
  · exact execBookedIntervalEnd_only.all
  · exact execJtagDetach_only.all
  · exact execConfigWrite_only.all
  · exact execPmeTurnOff_only.all
  · exact execSpeedChange_only.all
  · exact execTranslationCompletion_only.all
  · exact execPrbsLock_only.all
  · exact execBasicFrame_only.all
  · exact execBusOff_only.all
  · exact execPtpMessageTx_only.all
  · exact execEsmcInterval_only.all

theorem takeOutput_only {s} : Only [.out] s (takeOutput s) := by
  unfold takeOutput
  exact Only.upd (Only.refl _)

theorem idle_only {s} : Only allParts s (idle s) := by
  unfold idle
  exact Only.after goOn_only (by decide) (Only.after flushAllMissing_only (by decide) (Only.after finishGraphs_only (by decide)
    (Only.after sendNotify_only (by decide) (Only.after notifyChanges_only (by decide) (Only.after takeOutput_only (by decide)
      (passClocks_only.mono fun p _ => by cases p <;> decide))))))

end Sys2Proof.Machine
end

