-- ==== Sys2Proof/Laws/State.lean ====
section
/-!
SUPPORT. The small lemmas of State: what each basic update of a part leaves of every other part, and what a table read gives after its entry was
changed.
-/
namespace Sys2Proof.Machine
set_option Elab.async false

/-! `wr` changes `obj` only. -/
@[simp] theorem wr_text (k v : Nat) (s : State) : (wr k v s).text = s.text := rfl
@[simp] theorem wr_tim (k v : Nat) (s : State) : (wr k v s).tim = s.tim := rfl
@[simp] theorem wr_pow (k v : Nat) (s : State) : (wr k v s).pow = s.pow := rfl
@[simp] theorem wr_boot (k v : Nat) (s : State) : (wr k v s).boot = s.boot := rfl
@[simp] theorem wr_host (k v : Nat) (s : State) : (wr k v s).host = s.host := rfl
@[simp] theorem wr_dict (k v : Nat) (s : State) : (wr k v s).dict = s.dict := rfl
@[simp] theorem wr_work (k v : Nat) (s : State) : (wr k v s).work = s.work := rfl
@[simp] theorem wr_sage (k v : Nat) (s : State) : (wr k v s).sage = s.sage := rfl
@[simp] theorem wr_radio (k v : Nat) (s : State) : (wr k v s).radio = s.radio := rfl
@[simp] theorem wr_links (k v : Nat) (s : State) : (wr k v s).links = s.links := rfl
@[simp] theorem wr_noc (k v : Nat) (s : State) : (wr k v s).noc = s.noc := rfl
@[simp] theorem wr_dram (k v : Nat) (s : State) : (wr k v s).dram = s.dram := rfl
@[simp] theorem wr_sram (k v : Nat) (s : State) : (wr k v s).sram = s.sram := rfl
@[simp] theorem wr_mem (k v : Nat) (s : State) : (wr k v s).mem = s.mem := rfl
@[simp] theorem wr_out (k v : Nat) (s : State) : (wr k v s).out = s.out := rfl
@[simp] theorem wr_freeCtr (k v : Nat) (s : State) : (wr k v s).freeCtr = s.freeCtr := rfl
@[simp] theorem wr_pending (k v : Nat) (s : State) : (wr k v s).pending = s.pending := rfl

/-! `wrI` changes `obj` only. -/
@[simp] theorem wrI_text (k w : Nat) (v : Int) (s : State) : (wrI k w v s).text = s.text := rfl
@[simp] theorem wrI_tim (k w : Nat) (v : Int) (s : State) : (wrI k w v s).tim = s.tim := rfl
@[simp] theorem wrI_pow (k w : Nat) (v : Int) (s : State) : (wrI k w v s).pow = s.pow := rfl
@[simp] theorem wrI_boot (k w : Nat) (v : Int) (s : State) : (wrI k w v s).boot = s.boot := rfl
@[simp] theorem wrI_host (k w : Nat) (v : Int) (s : State) : (wrI k w v s).host = s.host := rfl
@[simp] theorem wrI_dict (k w : Nat) (v : Int) (s : State) : (wrI k w v s).dict = s.dict := rfl
@[simp] theorem wrI_work (k w : Nat) (v : Int) (s : State) : (wrI k w v s).work = s.work := rfl
@[simp] theorem wrI_sage (k w : Nat) (v : Int) (s : State) : (wrI k w v s).sage = s.sage := rfl
@[simp] theorem wrI_radio (k w : Nat) (v : Int) (s : State) : (wrI k w v s).radio = s.radio := rfl
@[simp] theorem wrI_links (k w : Nat) (v : Int) (s : State) : (wrI k w v s).links = s.links := rfl
@[simp] theorem wrI_noc (k w : Nat) (v : Int) (s : State) : (wrI k w v s).noc = s.noc := rfl
@[simp] theorem wrI_dram (k w : Nat) (v : Int) (s : State) : (wrI k w v s).dram = s.dram := rfl
@[simp] theorem wrI_sram (k w : Nat) (v : Int) (s : State) : (wrI k w v s).sram = s.sram := rfl
@[simp] theorem wrI_mem (k w : Nat) (v : Int) (s : State) : (wrI k w v s).mem = s.mem := rfl
@[simp] theorem wrI_out (k w : Nat) (v : Int) (s : State) : (wrI k w v s).out = s.out := rfl
@[simp] theorem wrI_freeCtr (k w : Nat) (v : Int) (s : State) : (wrI k w v s).freeCtr = s.freeCtr := rfl
@[simp] theorem wrI_pending (k w : Nat) (v : Int) (s : State) : (wrI k w v s).pending = s.pending := rfl

/-! `bumpBy` changes `obj` only. -/
@[simp] theorem bumpBy_text (w k n : Nat) (s : State) : (bumpBy w k n s).text = s.text := rfl
@[simp] theorem bumpBy_tim (w k n : Nat) (s : State) : (bumpBy w k n s).tim = s.tim := rfl
@[simp] theorem bumpBy_pow (w k n : Nat) (s : State) : (bumpBy w k n s).pow = s.pow := rfl
@[simp] theorem bumpBy_boot (w k n : Nat) (s : State) : (bumpBy w k n s).boot = s.boot := rfl
@[simp] theorem bumpBy_host (w k n : Nat) (s : State) : (bumpBy w k n s).host = s.host := rfl
@[simp] theorem bumpBy_dict (w k n : Nat) (s : State) : (bumpBy w k n s).dict = s.dict := rfl
@[simp] theorem bumpBy_work (w k n : Nat) (s : State) : (bumpBy w k n s).work = s.work := rfl
@[simp] theorem bumpBy_sage (w k n : Nat) (s : State) : (bumpBy w k n s).sage = s.sage := rfl
@[simp] theorem bumpBy_radio (w k n : Nat) (s : State) : (bumpBy w k n s).radio = s.radio := rfl
@[simp] theorem bumpBy_links (w k n : Nat) (s : State) : (bumpBy w k n s).links = s.links := rfl
@[simp] theorem bumpBy_noc (w k n : Nat) (s : State) : (bumpBy w k n s).noc = s.noc := rfl
@[simp] theorem bumpBy_dram (w k n : Nat) (s : State) : (bumpBy w k n s).dram = s.dram := rfl
@[simp] theorem bumpBy_sram (w k n : Nat) (s : State) : (bumpBy w k n s).sram = s.sram := rfl
@[simp] theorem bumpBy_mem (w k n : Nat) (s : State) : (bumpBy w k n s).mem = s.mem := rfl
@[simp] theorem bumpBy_out (w k n : Nat) (s : State) : (bumpBy w k n s).out = s.out := rfl
@[simp] theorem bumpBy_freeCtr (w k n : Nat) (s : State) : (bumpBy w k n s).freeCtr = s.freeCtr := rfl
@[simp] theorem bumpBy_pending (w k n : Nat) (s : State) : (bumpBy w k n s).pending = s.pending := rfl

/-! `bump` changes `obj` only. -/
@[simp] theorem bump_text (k : Nat) (s : State) : (bump k s).text = s.text := rfl
@[simp] theorem bump_tim (k : Nat) (s : State) : (bump k s).tim = s.tim := rfl
@[simp] theorem bump_pow (k : Nat) (s : State) : (bump k s).pow = s.pow := rfl
@[simp] theorem bump_boot (k : Nat) (s : State) : (bump k s).boot = s.boot := rfl
@[simp] theorem bump_host (k : Nat) (s : State) : (bump k s).host = s.host := rfl
@[simp] theorem bump_dict (k : Nat) (s : State) : (bump k s).dict = s.dict := rfl
@[simp] theorem bump_work (k : Nat) (s : State) : (bump k s).work = s.work := rfl
@[simp] theorem bump_sage (k : Nat) (s : State) : (bump k s).sage = s.sage := rfl
@[simp] theorem bump_radio (k : Nat) (s : State) : (bump k s).radio = s.radio := rfl
@[simp] theorem bump_links (k : Nat) (s : State) : (bump k s).links = s.links := rfl
@[simp] theorem bump_noc (k : Nat) (s : State) : (bump k s).noc = s.noc := rfl
@[simp] theorem bump_dram (k : Nat) (s : State) : (bump k s).dram = s.dram := rfl
@[simp] theorem bump_sram (k : Nat) (s : State) : (bump k s).sram = s.sram := rfl
@[simp] theorem bump_mem (k : Nat) (s : State) : (bump k s).mem = s.mem := rfl
@[simp] theorem bump_out (k : Nat) (s : State) : (bump k s).out = s.out := rfl
@[simp] theorem bump_freeCtr (k : Nat) (s : State) : (bump k s).freeCtr = s.freeCtr := rfl
@[simp] theorem bump_pending (k : Nat) (s : State) : (bump k s).pending = s.pending := rfl

/-! `peak` changes `obj` only. -/
@[simp] theorem peak_text (k v : Nat) (s : State) : (peak k v s).text = s.text := rfl
@[simp] theorem peak_tim (k v : Nat) (s : State) : (peak k v s).tim = s.tim := rfl
@[simp] theorem peak_pow (k v : Nat) (s : State) : (peak k v s).pow = s.pow := rfl
@[simp] theorem peak_boot (k v : Nat) (s : State) : (peak k v s).boot = s.boot := rfl
@[simp] theorem peak_host (k v : Nat) (s : State) : (peak k v s).host = s.host := rfl
@[simp] theorem peak_dict (k v : Nat) (s : State) : (peak k v s).dict = s.dict := rfl
@[simp] theorem peak_work (k v : Nat) (s : State) : (peak k v s).work = s.work := rfl
@[simp] theorem peak_sage (k v : Nat) (s : State) : (peak k v s).sage = s.sage := rfl
@[simp] theorem peak_radio (k v : Nat) (s : State) : (peak k v s).radio = s.radio := rfl
@[simp] theorem peak_links (k v : Nat) (s : State) : (peak k v s).links = s.links := rfl
@[simp] theorem peak_noc (k v : Nat) (s : State) : (peak k v s).noc = s.noc := rfl
@[simp] theorem peak_dram (k v : Nat) (s : State) : (peak k v s).dram = s.dram := rfl
@[simp] theorem peak_sram (k v : Nat) (s : State) : (peak k v s).sram = s.sram := rfl
@[simp] theorem peak_mem (k v : Nat) (s : State) : (peak k v s).mem = s.mem := rfl
@[simp] theorem peak_out (k v : Nat) (s : State) : (peak k v s).out = s.out := rfl
@[simp] theorem peak_freeCtr (k v : Nat) (s : State) : (peak k v s).freeCtr = s.freeCtr := rfl
@[simp] theorem peak_pending (k v : Nat) (s : State) : (peak k v s).pending = s.pending := rfl

/-! `send` changes `out` only. -/
@[simp] theorem send_obj (o : Output) (s : State) : (send o s).obj = s.obj := rfl
@[simp] theorem send_text (o : Output) (s : State) : (send o s).text = s.text := rfl
@[simp] theorem send_tim (o : Output) (s : State) : (send o s).tim = s.tim := rfl
@[simp] theorem send_pow (o : Output) (s : State) : (send o s).pow = s.pow := rfl
@[simp] theorem send_boot (o : Output) (s : State) : (send o s).boot = s.boot := rfl
@[simp] theorem send_host (o : Output) (s : State) : (send o s).host = s.host := rfl
@[simp] theorem send_dict (o : Output) (s : State) : (send o s).dict = s.dict := rfl
@[simp] theorem send_work (o : Output) (s : State) : (send o s).work = s.work := rfl
@[simp] theorem send_sage (o : Output) (s : State) : (send o s).sage = s.sage := rfl
@[simp] theorem send_radio (o : Output) (s : State) : (send o s).radio = s.radio := rfl
@[simp] theorem send_links (o : Output) (s : State) : (send o s).links = s.links := rfl
@[simp] theorem send_noc (o : Output) (s : State) : (send o s).noc = s.noc := rfl
@[simp] theorem send_dram (o : Output) (s : State) : (send o s).dram = s.dram := rfl
@[simp] theorem send_sram (o : Output) (s : State) : (send o s).sram = s.sram := rfl
@[simp] theorem send_mem (o : Output) (s : State) : (send o s).mem = s.mem := rfl
@[simp] theorem send_freeCtr (o : Output) (s : State) : (send o s).freeCtr = s.freeCtr := rfl
@[simp] theorem send_pending (o : Output) (s : State) : (send o s).pending = s.pending := rfl

/-! `store` changes `mem` only. -/
@[simp] theorem store_obj (a : Nat) (l : List Byte) (s : State) : (store a l s).obj = s.obj := rfl
@[simp] theorem store_text (a : Nat) (l : List Byte) (s : State) : (store a l s).text = s.text := rfl
@[simp] theorem store_tim (a : Nat) (l : List Byte) (s : State) : (store a l s).tim = s.tim := rfl
@[simp] theorem store_pow (a : Nat) (l : List Byte) (s : State) : (store a l s).pow = s.pow := rfl
@[simp] theorem store_boot (a : Nat) (l : List Byte) (s : State) : (store a l s).boot = s.boot := rfl
@[simp] theorem store_host (a : Nat) (l : List Byte) (s : State) : (store a l s).host = s.host := rfl
@[simp] theorem store_dict (a : Nat) (l : List Byte) (s : State) : (store a l s).dict = s.dict := rfl
@[simp] theorem store_work (a : Nat) (l : List Byte) (s : State) : (store a l s).work = s.work := rfl
@[simp] theorem store_sage (a : Nat) (l : List Byte) (s : State) : (store a l s).sage = s.sage := rfl
@[simp] theorem store_radio (a : Nat) (l : List Byte) (s : State) : (store a l s).radio = s.radio := rfl
@[simp] theorem store_links (a : Nat) (l : List Byte) (s : State) : (store a l s).links = s.links := rfl
@[simp] theorem store_noc (a : Nat) (l : List Byte) (s : State) : (store a l s).noc = s.noc := rfl
@[simp] theorem store_dram (a : Nat) (l : List Byte) (s : State) : (store a l s).dram = s.dram := rfl
@[simp] theorem store_sram (a : Nat) (l : List Byte) (s : State) : (store a l s).sram = s.sram := rfl
@[simp] theorem store_out (a : Nat) (l : List Byte) (s : State) : (store a l s).out = s.out := rfl
@[simp] theorem store_freeCtr (a : Nat) (l : List Byte) (s : State) : (store a l s).freeCtr = s.freeCtr := rfl
@[simp] theorem store_pending (a : Nat) (l : List Byte) (s : State) : (store a l s).pending = s.pending := rfl

/-! `setFn` changes `host` only. -/
@[simp] theorem setFn_obj (f : Nat) (v : FnSt) (s : State) : (setFn f v s).obj = s.obj := rfl
@[simp] theorem setFn_text (f : Nat) (v : FnSt) (s : State) : (setFn f v s).text = s.text := rfl
@[simp] theorem setFn_tim (f : Nat) (v : FnSt) (s : State) : (setFn f v s).tim = s.tim := rfl
@[simp] theorem setFn_pow (f : Nat) (v : FnSt) (s : State) : (setFn f v s).pow = s.pow := rfl
@[simp] theorem setFn_boot (f : Nat) (v : FnSt) (s : State) : (setFn f v s).boot = s.boot := rfl
@[simp] theorem setFn_dict (f : Nat) (v : FnSt) (s : State) : (setFn f v s).dict = s.dict := rfl
@[simp] theorem setFn_work (f : Nat) (v : FnSt) (s : State) : (setFn f v s).work = s.work := rfl
@[simp] theorem setFn_sage (f : Nat) (v : FnSt) (s : State) : (setFn f v s).sage = s.sage := rfl
@[simp] theorem setFn_radio (f : Nat) (v : FnSt) (s : State) : (setFn f v s).radio = s.radio := rfl
@[simp] theorem setFn_links (f : Nat) (v : FnSt) (s : State) : (setFn f v s).links = s.links := rfl
@[simp] theorem setFn_noc (f : Nat) (v : FnSt) (s : State) : (setFn f v s).noc = s.noc := rfl
@[simp] theorem setFn_dram (f : Nat) (v : FnSt) (s : State) : (setFn f v s).dram = s.dram := rfl
@[simp] theorem setFn_sram (f : Nat) (v : FnSt) (s : State) : (setFn f v s).sram = s.sram := rfl
@[simp] theorem setFn_mem (f : Nat) (v : FnSt) (s : State) : (setFn f v s).mem = s.mem := rfl
@[simp] theorem setFn_out (f : Nat) (v : FnSt) (s : State) : (setFn f v s).out = s.out := rfl
@[simp] theorem setFn_freeCtr (f : Nat) (v : FnSt) (s : State) : (setFn f v s).freeCtr = s.freeCtr := rfl
@[simp] theorem setFn_pending (f : Nat) (v : FnSt) (s : State) : (setFn f v s).pending = s.pending := rfl

/-! `modFn` changes `host` only. -/
@[simp] theorem modFn_obj (f : Nat) (g : FnSt → FnSt) (s : State) : (modFn f g s).obj = s.obj := rfl
@[simp] theorem modFn_text (f : Nat) (g : FnSt → FnSt) (s : State) : (modFn f g s).text = s.text := rfl
@[simp] theorem modFn_tim (f : Nat) (g : FnSt → FnSt) (s : State) : (modFn f g s).tim = s.tim := rfl
@[simp] theorem modFn_pow (f : Nat) (g : FnSt → FnSt) (s : State) : (modFn f g s).pow = s.pow := rfl
@[simp] theorem modFn_boot (f : Nat) (g : FnSt → FnSt) (s : State) : (modFn f g s).boot = s.boot := rfl
@[simp] theorem modFn_dict (f : Nat) (g : FnSt → FnSt) (s : State) : (modFn f g s).dict = s.dict := rfl
@[simp] theorem modFn_work (f : Nat) (g : FnSt → FnSt) (s : State) : (modFn f g s).work = s.work := rfl
@[simp] theorem modFn_sage (f : Nat) (g : FnSt → FnSt) (s : State) : (modFn f g s).sage = s.sage := rfl
@[simp] theorem modFn_radio (f : Nat) (g : FnSt → FnSt) (s : State) : (modFn f g s).radio = s.radio := rfl
@[simp] theorem modFn_links (f : Nat) (g : FnSt → FnSt) (s : State) : (modFn f g s).links = s.links := rfl
@[simp] theorem modFn_noc (f : Nat) (g : FnSt → FnSt) (s : State) : (modFn f g s).noc = s.noc := rfl
@[simp] theorem modFn_dram (f : Nat) (g : FnSt → FnSt) (s : State) : (modFn f g s).dram = s.dram := rfl
@[simp] theorem modFn_sram (f : Nat) (g : FnSt → FnSt) (s : State) : (modFn f g s).sram = s.sram := rfl
@[simp] theorem modFn_mem (f : Nat) (g : FnSt → FnSt) (s : State) : (modFn f g s).mem = s.mem := rfl
@[simp] theorem modFn_out (f : Nat) (g : FnSt → FnSt) (s : State) : (modFn f g s).out = s.out := rfl
@[simp] theorem modFn_freeCtr (f : Nat) (g : FnSt → FnSt) (s : State) : (modFn f g s).freeCtr = s.freeCtr := rfl
@[simp] theorem modFn_pending (f : Nat) (g : FnSt → FnSt) (s : State) : (modFn f g s).pending = s.pending := rfl

/-! `setQp` changes `host` only. -/
@[simp] theorem setQp_obj (f n : Nat) (q : QueuePair) (s : State) : (setQp f n q s).obj = s.obj := rfl
@[simp] theorem setQp_text (f n : Nat) (q : QueuePair) (s : State) : (setQp f n q s).text = s.text := rfl
@[simp] theorem setQp_tim (f n : Nat) (q : QueuePair) (s : State) : (setQp f n q s).tim = s.tim := rfl
@[simp] theorem setQp_pow (f n : Nat) (q : QueuePair) (s : State) : (setQp f n q s).pow = s.pow := rfl
@[simp] theorem setQp_boot (f n : Nat) (q : QueuePair) (s : State) : (setQp f n q s).boot = s.boot := rfl
@[simp] theorem setQp_dict (f n : Nat) (q : QueuePair) (s : State) : (setQp f n q s).dict = s.dict := rfl
@[simp] theorem setQp_work (f n : Nat) (q : QueuePair) (s : State) : (setQp f n q s).work = s.work := rfl
@[simp] theorem setQp_sage (f n : Nat) (q : QueuePair) (s : State) : (setQp f n q s).sage = s.sage := rfl
@[simp] theorem setQp_radio (f n : Nat) (q : QueuePair) (s : State) : (setQp f n q s).radio = s.radio := rfl
@[simp] theorem setQp_links (f n : Nat) (q : QueuePair) (s : State) : (setQp f n q s).links = s.links := rfl
@[simp] theorem setQp_noc (f n : Nat) (q : QueuePair) (s : State) : (setQp f n q s).noc = s.noc := rfl
@[simp] theorem setQp_dram (f n : Nat) (q : QueuePair) (s : State) : (setQp f n q s).dram = s.dram := rfl
@[simp] theorem setQp_sram (f n : Nat) (q : QueuePair) (s : State) : (setQp f n q s).sram = s.sram := rfl
@[simp] theorem setQp_mem (f n : Nat) (q : QueuePair) (s : State) : (setQp f n q s).mem = s.mem := rfl
@[simp] theorem setQp_out (f n : Nat) (q : QueuePair) (s : State) : (setQp f n q s).out = s.out := rfl
@[simp] theorem setQp_freeCtr (f n : Nat) (q : QueuePair) (s : State) : (setQp f n q s).freeCtr = s.freeCtr := rfl
@[simp] theorem setQp_pending (f n : Nat) (q : QueuePair) (s : State) : (setQp f n q s).pending = s.pending := rfl

/-! `modUnit` changes `work` only. -/
@[simp] theorem modUnit_obj (u : Nat) (f : UnitSt → UnitSt) (s : State) : (modUnit u f s).obj = s.obj := rfl
@[simp] theorem modUnit_text (u : Nat) (f : UnitSt → UnitSt) (s : State) : (modUnit u f s).text = s.text := rfl
@[simp] theorem modUnit_tim (u : Nat) (f : UnitSt → UnitSt) (s : State) : (modUnit u f s).tim = s.tim := rfl
@[simp] theorem modUnit_pow (u : Nat) (f : UnitSt → UnitSt) (s : State) : (modUnit u f s).pow = s.pow := rfl
@[simp] theorem modUnit_boot (u : Nat) (f : UnitSt → UnitSt) (s : State) : (modUnit u f s).boot = s.boot := rfl
@[simp] theorem modUnit_host (u : Nat) (f : UnitSt → UnitSt) (s : State) : (modUnit u f s).host = s.host := rfl
@[simp] theorem modUnit_dict (u : Nat) (f : UnitSt → UnitSt) (s : State) : (modUnit u f s).dict = s.dict := rfl
@[simp] theorem modUnit_sage (u : Nat) (f : UnitSt → UnitSt) (s : State) : (modUnit u f s).sage = s.sage := rfl
@[simp] theorem modUnit_radio (u : Nat) (f : UnitSt → UnitSt) (s : State) : (modUnit u f s).radio = s.radio := rfl
@[simp] theorem modUnit_links (u : Nat) (f : UnitSt → UnitSt) (s : State) : (modUnit u f s).links = s.links := rfl
@[simp] theorem modUnit_noc (u : Nat) (f : UnitSt → UnitSt) (s : State) : (modUnit u f s).noc = s.noc := rfl
@[simp] theorem modUnit_dram (u : Nat) (f : UnitSt → UnitSt) (s : State) : (modUnit u f s).dram = s.dram := rfl
@[simp] theorem modUnit_sram (u : Nat) (f : UnitSt → UnitSt) (s : State) : (modUnit u f s).sram = s.sram := rfl
@[simp] theorem modUnit_mem (u : Nat) (f : UnitSt → UnitSt) (s : State) : (modUnit u f s).mem = s.mem := rfl
@[simp] theorem modUnit_out (u : Nat) (f : UnitSt → UnitSt) (s : State) : (modUnit u f s).out = s.out := rfl
@[simp] theorem modUnit_freeCtr (u : Nat) (f : UnitSt → UnitSt) (s : State) : (modUnit u f s).freeCtr = s.freeCtr := rfl
@[simp] theorem modUnit_pending (u : Nat) (f : UnitSt → UnitSt) (s : State) : (modUnit u f s).pending = s.pending := rfl

/-! `modPu` changes `work` only. -/
@[simp] theorem modPu_obj (q : Nat) (f : PuSt → PuSt) (s : State) : (modPu q f s).obj = s.obj := rfl
@[simp] theorem modPu_text (q : Nat) (f : PuSt → PuSt) (s : State) : (modPu q f s).text = s.text := rfl
@[simp] theorem modPu_tim (q : Nat) (f : PuSt → PuSt) (s : State) : (modPu q f s).tim = s.tim := rfl
@[simp] theorem modPu_pow (q : Nat) (f : PuSt → PuSt) (s : State) : (modPu q f s).pow = s.pow := rfl
@[simp] theorem modPu_boot (q : Nat) (f : PuSt → PuSt) (s : State) : (modPu q f s).boot = s.boot := rfl
@[simp] theorem modPu_host (q : Nat) (f : PuSt → PuSt) (s : State) : (modPu q f s).host = s.host := rfl
@[simp] theorem modPu_dict (q : Nat) (f : PuSt → PuSt) (s : State) : (modPu q f s).dict = s.dict := rfl
@[simp] theorem modPu_sage (q : Nat) (f : PuSt → PuSt) (s : State) : (modPu q f s).sage = s.sage := rfl
@[simp] theorem modPu_radio (q : Nat) (f : PuSt → PuSt) (s : State) : (modPu q f s).radio = s.radio := rfl
@[simp] theorem modPu_links (q : Nat) (f : PuSt → PuSt) (s : State) : (modPu q f s).links = s.links := rfl
@[simp] theorem modPu_noc (q : Nat) (f : PuSt → PuSt) (s : State) : (modPu q f s).noc = s.noc := rfl
@[simp] theorem modPu_dram (q : Nat) (f : PuSt → PuSt) (s : State) : (modPu q f s).dram = s.dram := rfl
@[simp] theorem modPu_sram (q : Nat) (f : PuSt → PuSt) (s : State) : (modPu q f s).sram = s.sram := rfl
@[simp] theorem modPu_mem (q : Nat) (f : PuSt → PuSt) (s : State) : (modPu q f s).mem = s.mem := rfl
@[simp] theorem modPu_out (q : Nat) (f : PuSt → PuSt) (s : State) : (modPu q f s).out = s.out := rfl
@[simp] theorem modPu_freeCtr (q : Nat) (f : PuSt → PuSt) (s : State) : (modPu q f s).freeCtr = s.freeCtr := rfl
@[simp] theorem modPu_pending (q : Nat) (f : PuSt → PuSt) (s : State) : (modPu q f s).pending = s.pending := rfl

/-! `modGraph` changes `work` only. -/
@[simp] theorem modGraph_obj (gid : Nat) (f : Graph → Graph) (s : State) : (modGraph gid f s).obj = s.obj := rfl
@[simp] theorem modGraph_text (gid : Nat) (f : Graph → Graph) (s : State) : (modGraph gid f s).text = s.text := rfl
@[simp] theorem modGraph_tim (gid : Nat) (f : Graph → Graph) (s : State) : (modGraph gid f s).tim = s.tim := rfl
@[simp] theorem modGraph_pow (gid : Nat) (f : Graph → Graph) (s : State) : (modGraph gid f s).pow = s.pow := rfl
@[simp] theorem modGraph_boot (gid : Nat) (f : Graph → Graph) (s : State) : (modGraph gid f s).boot = s.boot := rfl
@[simp] theorem modGraph_host (gid : Nat) (f : Graph → Graph) (s : State) : (modGraph gid f s).host = s.host := rfl
@[simp] theorem modGraph_dict (gid : Nat) (f : Graph → Graph) (s : State) : (modGraph gid f s).dict = s.dict := rfl
@[simp] theorem modGraph_sage (gid : Nat) (f : Graph → Graph) (s : State) : (modGraph gid f s).sage = s.sage := rfl
@[simp] theorem modGraph_radio (gid : Nat) (f : Graph → Graph) (s : State) : (modGraph gid f s).radio = s.radio := rfl
@[simp] theorem modGraph_links (gid : Nat) (f : Graph → Graph) (s : State) : (modGraph gid f s).links = s.links := rfl
@[simp] theorem modGraph_noc (gid : Nat) (f : Graph → Graph) (s : State) : (modGraph gid f s).noc = s.noc := rfl
@[simp] theorem modGraph_dram (gid : Nat) (f : Graph → Graph) (s : State) : (modGraph gid f s).dram = s.dram := rfl
@[simp] theorem modGraph_sram (gid : Nat) (f : Graph → Graph) (s : State) : (modGraph gid f s).sram = s.sram := rfl
@[simp] theorem modGraph_mem (gid : Nat) (f : Graph → Graph) (s : State) : (modGraph gid f s).mem = s.mem := rfl
@[simp] theorem modGraph_out (gid : Nat) (f : Graph → Graph) (s : State) : (modGraph gid f s).out = s.out := rfl
@[simp] theorem modGraph_freeCtr (gid : Nat) (f : Graph → Graph) (s : State) : (modGraph gid f s).freeCtr = s.freeCtr := rfl
@[simp] theorem modGraph_pending (gid : Nat) (f : Graph → Graph) (s : State) : (modGraph gid f s).pending = s.pending := rfl

/-! `modRt` changes `work` only. -/
@[simp] theorem modRt_obj (gid num : Nat) (f : JobRt → JobRt) (s : State) : (modRt gid num f s).obj = s.obj := rfl
@[simp] theorem modRt_text (gid num : Nat) (f : JobRt → JobRt) (s : State) : (modRt gid num f s).text = s.text := rfl
@[simp] theorem modRt_tim (gid num : Nat) (f : JobRt → JobRt) (s : State) : (modRt gid num f s).tim = s.tim := rfl
@[simp] theorem modRt_pow (gid num : Nat) (f : JobRt → JobRt) (s : State) : (modRt gid num f s).pow = s.pow := rfl
@[simp] theorem modRt_boot (gid num : Nat) (f : JobRt → JobRt) (s : State) : (modRt gid num f s).boot = s.boot := rfl
@[simp] theorem modRt_host (gid num : Nat) (f : JobRt → JobRt) (s : State) : (modRt gid num f s).host = s.host := rfl
@[simp] theorem modRt_dict (gid num : Nat) (f : JobRt → JobRt) (s : State) : (modRt gid num f s).dict = s.dict := rfl
@[simp] theorem modRt_sage (gid num : Nat) (f : JobRt → JobRt) (s : State) : (modRt gid num f s).sage = s.sage := rfl
@[simp] theorem modRt_radio (gid num : Nat) (f : JobRt → JobRt) (s : State) : (modRt gid num f s).radio = s.radio := rfl
@[simp] theorem modRt_links (gid num : Nat) (f : JobRt → JobRt) (s : State) : (modRt gid num f s).links = s.links := rfl
@[simp] theorem modRt_noc (gid num : Nat) (f : JobRt → JobRt) (s : State) : (modRt gid num f s).noc = s.noc := rfl
@[simp] theorem modRt_dram (gid num : Nat) (f : JobRt → JobRt) (s : State) : (modRt gid num f s).dram = s.dram := rfl
@[simp] theorem modRt_sram (gid num : Nat) (f : JobRt → JobRt) (s : State) : (modRt gid num f s).sram = s.sram := rfl
@[simp] theorem modRt_mem (gid num : Nat) (f : JobRt → JobRt) (s : State) : (modRt gid num f s).mem = s.mem := rfl
@[simp] theorem modRt_out (gid num : Nat) (f : JobRt → JobRt) (s : State) : (modRt gid num f s).out = s.out := rfl
@[simp] theorem modRt_freeCtr (gid num : Nat) (f : JobRt → JobRt) (s : State) : (modRt gid num f s).freeCtr = s.freeCtr := rfl
@[simp] theorem modRt_pending (gid num : Nat) (f : JobRt → JobRt) (s : State) : (modRt gid num f s).pending = s.pending := rfl

/-! `modCore` changes `sage` only. -/
@[simp] theorem modCore_obj (n : Nat) (f : Core → Core) (s : State) : (modCore n f s).obj = s.obj := rfl
@[simp] theorem modCore_text (n : Nat) (f : Core → Core) (s : State) : (modCore n f s).text = s.text := rfl
@[simp] theorem modCore_tim (n : Nat) (f : Core → Core) (s : State) : (modCore n f s).tim = s.tim := rfl
@[simp] theorem modCore_pow (n : Nat) (f : Core → Core) (s : State) : (modCore n f s).pow = s.pow := rfl
@[simp] theorem modCore_boot (n : Nat) (f : Core → Core) (s : State) : (modCore n f s).boot = s.boot := rfl
@[simp] theorem modCore_host (n : Nat) (f : Core → Core) (s : State) : (modCore n f s).host = s.host := rfl
@[simp] theorem modCore_dict (n : Nat) (f : Core → Core) (s : State) : (modCore n f s).dict = s.dict := rfl
@[simp] theorem modCore_work (n : Nat) (f : Core → Core) (s : State) : (modCore n f s).work = s.work := rfl
@[simp] theorem modCore_radio (n : Nat) (f : Core → Core) (s : State) : (modCore n f s).radio = s.radio := rfl
@[simp] theorem modCore_links (n : Nat) (f : Core → Core) (s : State) : (modCore n f s).links = s.links := rfl
@[simp] theorem modCore_noc (n : Nat) (f : Core → Core) (s : State) : (modCore n f s).noc = s.noc := rfl
@[simp] theorem modCore_dram (n : Nat) (f : Core → Core) (s : State) : (modCore n f s).dram = s.dram := rfl
@[simp] theorem modCore_sram (n : Nat) (f : Core → Core) (s : State) : (modCore n f s).sram = s.sram := rfl
@[simp] theorem modCore_mem (n : Nat) (f : Core → Core) (s : State) : (modCore n f s).mem = s.mem := rfl
@[simp] theorem modCore_out (n : Nat) (f : Core → Core) (s : State) : (modCore n f s).out = s.out := rfl
@[simp] theorem modCore_freeCtr (n : Nat) (f : Core → Core) (s : State) : (modCore n f s).freeCtr = s.freeCtr := rfl
@[simp] theorem modCore_pending (n : Nat) (f : Core → Core) (s : State) : (modCore n f s).pending = s.pending := rfl

/-! `modVec` changes `sage` only. -/
@[simp] theorem modVec_obj (n : Nat) (f : VecUnit → VecUnit) (s : State) : (modVec n f s).obj = s.obj := rfl
@[simp] theorem modVec_text (n : Nat) (f : VecUnit → VecUnit) (s : State) : (modVec n f s).text = s.text := rfl
@[simp] theorem modVec_tim (n : Nat) (f : VecUnit → VecUnit) (s : State) : (modVec n f s).tim = s.tim := rfl
@[simp] theorem modVec_pow (n : Nat) (f : VecUnit → VecUnit) (s : State) : (modVec n f s).pow = s.pow := rfl
@[simp] theorem modVec_boot (n : Nat) (f : VecUnit → VecUnit) (s : State) : (modVec n f s).boot = s.boot := rfl
@[simp] theorem modVec_host (n : Nat) (f : VecUnit → VecUnit) (s : State) : (modVec n f s).host = s.host := rfl
@[simp] theorem modVec_dict (n : Nat) (f : VecUnit → VecUnit) (s : State) : (modVec n f s).dict = s.dict := rfl
@[simp] theorem modVec_work (n : Nat) (f : VecUnit → VecUnit) (s : State) : (modVec n f s).work = s.work := rfl
@[simp] theorem modVec_radio (n : Nat) (f : VecUnit → VecUnit) (s : State) : (modVec n f s).radio = s.radio := rfl
@[simp] theorem modVec_links (n : Nat) (f : VecUnit → VecUnit) (s : State) : (modVec n f s).links = s.links := rfl
@[simp] theorem modVec_noc (n : Nat) (f : VecUnit → VecUnit) (s : State) : (modVec n f s).noc = s.noc := rfl
@[simp] theorem modVec_dram (n : Nat) (f : VecUnit → VecUnit) (s : State) : (modVec n f s).dram = s.dram := rfl
@[simp] theorem modVec_sram (n : Nat) (f : VecUnit → VecUnit) (s : State) : (modVec n f s).sram = s.sram := rfl
@[simp] theorem modVec_mem (n : Nat) (f : VecUnit → VecUnit) (s : State) : (modVec n f s).mem = s.mem := rfl
@[simp] theorem modVec_out (n : Nat) (f : VecUnit → VecUnit) (s : State) : (modVec n f s).out = s.out := rfl
@[simp] theorem modVec_freeCtr (n : Nat) (f : VecUnit → VecUnit) (s : State) : (modVec n f s).freeCtr = s.freeCtr := rfl
@[simp] theorem modVec_pending (n : Nat) (f : VecUnit → VecUnit) (s : State) : (modVec n f s).pending = s.pending := rfl

/-! `modCmc` changes `sage` only. -/
@[simp] theorem modCmc_obj (c : Nat) (f : Cmc → Cmc) (s : State) : (modCmc c f s).obj = s.obj := rfl
@[simp] theorem modCmc_text (c : Nat) (f : Cmc → Cmc) (s : State) : (modCmc c f s).text = s.text := rfl
@[simp] theorem modCmc_tim (c : Nat) (f : Cmc → Cmc) (s : State) : (modCmc c f s).tim = s.tim := rfl
@[simp] theorem modCmc_pow (c : Nat) (f : Cmc → Cmc) (s : State) : (modCmc c f s).pow = s.pow := rfl
@[simp] theorem modCmc_boot (c : Nat) (f : Cmc → Cmc) (s : State) : (modCmc c f s).boot = s.boot := rfl
@[simp] theorem modCmc_host (c : Nat) (f : Cmc → Cmc) (s : State) : (modCmc c f s).host = s.host := rfl
@[simp] theorem modCmc_dict (c : Nat) (f : Cmc → Cmc) (s : State) : (modCmc c f s).dict = s.dict := rfl
@[simp] theorem modCmc_work (c : Nat) (f : Cmc → Cmc) (s : State) : (modCmc c f s).work = s.work := rfl
@[simp] theorem modCmc_radio (c : Nat) (f : Cmc → Cmc) (s : State) : (modCmc c f s).radio = s.radio := rfl
@[simp] theorem modCmc_links (c : Nat) (f : Cmc → Cmc) (s : State) : (modCmc c f s).links = s.links := rfl
@[simp] theorem modCmc_noc (c : Nat) (f : Cmc → Cmc) (s : State) : (modCmc c f s).noc = s.noc := rfl
@[simp] theorem modCmc_dram (c : Nat) (f : Cmc → Cmc) (s : State) : (modCmc c f s).dram = s.dram := rfl
@[simp] theorem modCmc_sram (c : Nat) (f : Cmc → Cmc) (s : State) : (modCmc c f s).sram = s.sram := rfl
@[simp] theorem modCmc_mem (c : Nat) (f : Cmc → Cmc) (s : State) : (modCmc c f s).mem = s.mem := rfl
@[simp] theorem modCmc_out (c : Nat) (f : Cmc → Cmc) (s : State) : (modCmc c f s).out = s.out := rfl
@[simp] theorem modCmc_freeCtr (c : Nat) (f : Cmc → Cmc) (s : State) : (modCmc c f s).freeCtr = s.freeCtr := rfl
@[simp] theorem modCmc_pending (c : Nat) (f : Cmc → Cmc) (s : State) : (modCmc c f s).pending = s.pending := rfl

/-! `setBind` changes `radio` only. -/
@[simp] theorem setBind_obj (n : Nat) (b : Binding) (s : State) : (setBind n b s).obj = s.obj := rfl
@[simp] theorem setBind_text (n : Nat) (b : Binding) (s : State) : (setBind n b s).text = s.text := rfl
@[simp] theorem setBind_tim (n : Nat) (b : Binding) (s : State) : (setBind n b s).tim = s.tim := rfl
@[simp] theorem setBind_pow (n : Nat) (b : Binding) (s : State) : (setBind n b s).pow = s.pow := rfl
@[simp] theorem setBind_boot (n : Nat) (b : Binding) (s : State) : (setBind n b s).boot = s.boot := rfl
@[simp] theorem setBind_host (n : Nat) (b : Binding) (s : State) : (setBind n b s).host = s.host := rfl
@[simp] theorem setBind_dict (n : Nat) (b : Binding) (s : State) : (setBind n b s).dict = s.dict := rfl
@[simp] theorem setBind_work (n : Nat) (b : Binding) (s : State) : (setBind n b s).work = s.work := rfl
@[simp] theorem setBind_sage (n : Nat) (b : Binding) (s : State) : (setBind n b s).sage = s.sage := rfl
@[simp] theorem setBind_links (n : Nat) (b : Binding) (s : State) : (setBind n b s).links = s.links := rfl
@[simp] theorem setBind_noc (n : Nat) (b : Binding) (s : State) : (setBind n b s).noc = s.noc := rfl
@[simp] theorem setBind_dram (n : Nat) (b : Binding) (s : State) : (setBind n b s).dram = s.dram := rfl
@[simp] theorem setBind_sram (n : Nat) (b : Binding) (s : State) : (setBind n b s).sram = s.sram := rfl
@[simp] theorem setBind_mem (n : Nat) (b : Binding) (s : State) : (setBind n b s).mem = s.mem := rfl
@[simp] theorem setBind_out (n : Nat) (b : Binding) (s : State) : (setBind n b s).out = s.out := rfl
@[simp] theorem setBind_freeCtr (n : Nat) (b : Binding) (s : State) : (setBind n b s).freeCtr = s.freeCtr := rfl
@[simp] theorem setBind_pending (n : Nat) (b : Binding) (s : State) : (setBind n b s).pending = s.pending := rfl

/-! `modBind` changes `radio` only. -/
@[simp] theorem modBind_obj (n : Nat) (f : Binding → Binding) (s : State) : (modBind n f s).obj = s.obj := rfl
@[simp] theorem modBind_text (n : Nat) (f : Binding → Binding) (s : State) : (modBind n f s).text = s.text := rfl
@[simp] theorem modBind_tim (n : Nat) (f : Binding → Binding) (s : State) : (modBind n f s).tim = s.tim := rfl
@[simp] theorem modBind_pow (n : Nat) (f : Binding → Binding) (s : State) : (modBind n f s).pow = s.pow := rfl
@[simp] theorem modBind_boot (n : Nat) (f : Binding → Binding) (s : State) : (modBind n f s).boot = s.boot := rfl
@[simp] theorem modBind_host (n : Nat) (f : Binding → Binding) (s : State) : (modBind n f s).host = s.host := rfl
@[simp] theorem modBind_dict (n : Nat) (f : Binding → Binding) (s : State) : (modBind n f s).dict = s.dict := rfl
@[simp] theorem modBind_work (n : Nat) (f : Binding → Binding) (s : State) : (modBind n f s).work = s.work := rfl
@[simp] theorem modBind_sage (n : Nat) (f : Binding → Binding) (s : State) : (modBind n f s).sage = s.sage := rfl
@[simp] theorem modBind_links (n : Nat) (f : Binding → Binding) (s : State) : (modBind n f s).links = s.links := rfl
@[simp] theorem modBind_noc (n : Nat) (f : Binding → Binding) (s : State) : (modBind n f s).noc = s.noc := rfl
@[simp] theorem modBind_dram (n : Nat) (f : Binding → Binding) (s : State) : (modBind n f s).dram = s.dram := rfl
@[simp] theorem modBind_sram (n : Nat) (f : Binding → Binding) (s : State) : (modBind n f s).sram = s.sram := rfl
@[simp] theorem modBind_mem (n : Nat) (f : Binding → Binding) (s : State) : (modBind n f s).mem = s.mem := rfl
@[simp] theorem modBind_out (n : Nat) (f : Binding → Binding) (s : State) : (modBind n f s).out = s.out := rfl
@[simp] theorem modBind_freeCtr (n : Nat) (f : Binding → Binding) (s : State) : (modBind n f s).freeCtr = s.freeCtr := rfl
@[simp] theorem modBind_pending (n : Nat) (f : Binding → Binding) (s : State) : (modBind n f s).pending = s.pending := rfl

/-! `modBurst` changes `radio` only. -/
@[simp] theorem modBurst_obj (k : Nat) (f : Burst → Burst) (s : State) : (modBurst k f s).obj = s.obj := rfl
@[simp] theorem modBurst_text (k : Nat) (f : Burst → Burst) (s : State) : (modBurst k f s).text = s.text := rfl
@[simp] theorem modBurst_tim (k : Nat) (f : Burst → Burst) (s : State) : (modBurst k f s).tim = s.tim := rfl
@[simp] theorem modBurst_pow (k : Nat) (f : Burst → Burst) (s : State) : (modBurst k f s).pow = s.pow := rfl
@[simp] theorem modBurst_boot (k : Nat) (f : Burst → Burst) (s : State) : (modBurst k f s).boot = s.boot := rfl
@[simp] theorem modBurst_host (k : Nat) (f : Burst → Burst) (s : State) : (modBurst k f s).host = s.host := rfl
@[simp] theorem modBurst_dict (k : Nat) (f : Burst → Burst) (s : State) : (modBurst k f s).dict = s.dict := rfl
@[simp] theorem modBurst_work (k : Nat) (f : Burst → Burst) (s : State) : (modBurst k f s).work = s.work := rfl
@[simp] theorem modBurst_sage (k : Nat) (f : Burst → Burst) (s : State) : (modBurst k f s).sage = s.sage := rfl
@[simp] theorem modBurst_links (k : Nat) (f : Burst → Burst) (s : State) : (modBurst k f s).links = s.links := rfl
@[simp] theorem modBurst_noc (k : Nat) (f : Burst → Burst) (s : State) : (modBurst k f s).noc = s.noc := rfl
@[simp] theorem modBurst_dram (k : Nat) (f : Burst → Burst) (s : State) : (modBurst k f s).dram = s.dram := rfl
@[simp] theorem modBurst_sram (k : Nat) (f : Burst → Burst) (s : State) : (modBurst k f s).sram = s.sram := rfl
@[simp] theorem modBurst_mem (k : Nat) (f : Burst → Burst) (s : State) : (modBurst k f s).mem = s.mem := rfl
@[simp] theorem modBurst_out (k : Nat) (f : Burst → Burst) (s : State) : (modBurst k f s).out = s.out := rfl
@[simp] theorem modBurst_freeCtr (k : Nat) (f : Burst → Burst) (s : State) : (modBurst k f s).freeCtr = s.freeCtr := rfl
@[simp] theorem modBurst_pending (k : Nat) (f : Burst → Burst) (s : State) : (modBurst k f s).pending = s.pending := rfl

/-! `modLane` changes `links` only. -/
@[simp] theorem modLane_obj (n : Nat) (f : LaneSt → LaneSt) (s : State) : (modLane n f s).obj = s.obj := rfl
@[simp] theorem modLane_text (n : Nat) (f : LaneSt → LaneSt) (s : State) : (modLane n f s).text = s.text := rfl
@[simp] theorem modLane_tim (n : Nat) (f : LaneSt → LaneSt) (s : State) : (modLane n f s).tim = s.tim := rfl
@[simp] theorem modLane_pow (n : Nat) (f : LaneSt → LaneSt) (s : State) : (modLane n f s).pow = s.pow := rfl
@[simp] theorem modLane_boot (n : Nat) (f : LaneSt → LaneSt) (s : State) : (modLane n f s).boot = s.boot := rfl
@[simp] theorem modLane_host (n : Nat) (f : LaneSt → LaneSt) (s : State) : (modLane n f s).host = s.host := rfl
@[simp] theorem modLane_dict (n : Nat) (f : LaneSt → LaneSt) (s : State) : (modLane n f s).dict = s.dict := rfl
@[simp] theorem modLane_work (n : Nat) (f : LaneSt → LaneSt) (s : State) : (modLane n f s).work = s.work := rfl
@[simp] theorem modLane_sage (n : Nat) (f : LaneSt → LaneSt) (s : State) : (modLane n f s).sage = s.sage := rfl
@[simp] theorem modLane_radio (n : Nat) (f : LaneSt → LaneSt) (s : State) : (modLane n f s).radio = s.radio := rfl
@[simp] theorem modLane_noc (n : Nat) (f : LaneSt → LaneSt) (s : State) : (modLane n f s).noc = s.noc := rfl
@[simp] theorem modLane_dram (n : Nat) (f : LaneSt → LaneSt) (s : State) : (modLane n f s).dram = s.dram := rfl
@[simp] theorem modLane_sram (n : Nat) (f : LaneSt → LaneSt) (s : State) : (modLane n f s).sram = s.sram := rfl
@[simp] theorem modLane_mem (n : Nat) (f : LaneSt → LaneSt) (s : State) : (modLane n f s).mem = s.mem := rfl
@[simp] theorem modLane_out (n : Nat) (f : LaneSt → LaneSt) (s : State) : (modLane n f s).out = s.out := rfl
@[simp] theorem modLane_freeCtr (n : Nat) (f : LaneSt → LaneSt) (s : State) : (modLane n f s).freeCtr = s.freeCtr := rfl
@[simp] theorem modLane_pending (n : Nat) (f : LaneSt → LaneSt) (s : State) : (modLane n f s).pending = s.pending := rfl

/-! `modChan` changes `dram` only. -/
@[simp] theorem modChan_obj (c : Nat) (f : DramCh → DramCh) (s : State) : (modChan c f s).obj = s.obj := rfl
@[simp] theorem modChan_text (c : Nat) (f : DramCh → DramCh) (s : State) : (modChan c f s).text = s.text := rfl
@[simp] theorem modChan_tim (c : Nat) (f : DramCh → DramCh) (s : State) : (modChan c f s).tim = s.tim := rfl
@[simp] theorem modChan_pow (c : Nat) (f : DramCh → DramCh) (s : State) : (modChan c f s).pow = s.pow := rfl
@[simp] theorem modChan_boot (c : Nat) (f : DramCh → DramCh) (s : State) : (modChan c f s).boot = s.boot := rfl
@[simp] theorem modChan_host (c : Nat) (f : DramCh → DramCh) (s : State) : (modChan c f s).host = s.host := rfl
@[simp] theorem modChan_dict (c : Nat) (f : DramCh → DramCh) (s : State) : (modChan c f s).dict = s.dict := rfl
@[simp] theorem modChan_work (c : Nat) (f : DramCh → DramCh) (s : State) : (modChan c f s).work = s.work := rfl
@[simp] theorem modChan_sage (c : Nat) (f : DramCh → DramCh) (s : State) : (modChan c f s).sage = s.sage := rfl
@[simp] theorem modChan_radio (c : Nat) (f : DramCh → DramCh) (s : State) : (modChan c f s).radio = s.radio := rfl
@[simp] theorem modChan_links (c : Nat) (f : DramCh → DramCh) (s : State) : (modChan c f s).links = s.links := rfl
@[simp] theorem modChan_noc (c : Nat) (f : DramCh → DramCh) (s : State) : (modChan c f s).noc = s.noc := rfl
@[simp] theorem modChan_sram (c : Nat) (f : DramCh → DramCh) (s : State) : (modChan c f s).sram = s.sram := rfl
@[simp] theorem modChan_mem (c : Nat) (f : DramCh → DramCh) (s : State) : (modChan c f s).mem = s.mem := rfl
@[simp] theorem modChan_out (c : Nat) (f : DramCh → DramCh) (s : State) : (modChan c f s).out = s.out := rfl
@[simp] theorem modChan_freeCtr (c : Nat) (f : DramCh → DramCh) (s : State) : (modChan c f s).freeCtr = s.freeCtr := rfl
@[simp] theorem modChan_pending (c : Nat) (f : DramCh → DramCh) (s : State) : (modChan c f s).pending = s.pending := rfl

/-! `modDom` changes `pow` only. -/
@[simp] theorem modDom_obj (d : Nat) (f : DomSt → DomSt) (s : State) : (modDom d f s).obj = s.obj := rfl
@[simp] theorem modDom_text (d : Nat) (f : DomSt → DomSt) (s : State) : (modDom d f s).text = s.text := rfl
@[simp] theorem modDom_tim (d : Nat) (f : DomSt → DomSt) (s : State) : (modDom d f s).tim = s.tim := rfl
@[simp] theorem modDom_boot (d : Nat) (f : DomSt → DomSt) (s : State) : (modDom d f s).boot = s.boot := rfl
@[simp] theorem modDom_host (d : Nat) (f : DomSt → DomSt) (s : State) : (modDom d f s).host = s.host := rfl
@[simp] theorem modDom_dict (d : Nat) (f : DomSt → DomSt) (s : State) : (modDom d f s).dict = s.dict := rfl
@[simp] theorem modDom_work (d : Nat) (f : DomSt → DomSt) (s : State) : (modDom d f s).work = s.work := rfl
@[simp] theorem modDom_sage (d : Nat) (f : DomSt → DomSt) (s : State) : (modDom d f s).sage = s.sage := rfl
@[simp] theorem modDom_radio (d : Nat) (f : DomSt → DomSt) (s : State) : (modDom d f s).radio = s.radio := rfl
@[simp] theorem modDom_links (d : Nat) (f : DomSt → DomSt) (s : State) : (modDom d f s).links = s.links := rfl
@[simp] theorem modDom_noc (d : Nat) (f : DomSt → DomSt) (s : State) : (modDom d f s).noc = s.noc := rfl
@[simp] theorem modDom_dram (d : Nat) (f : DomSt → DomSt) (s : State) : (modDom d f s).dram = s.dram := rfl
@[simp] theorem modDom_sram (d : Nat) (f : DomSt → DomSt) (s : State) : (modDom d f s).sram = s.sram := rfl
@[simp] theorem modDom_mem (d : Nat) (f : DomSt → DomSt) (s : State) : (modDom d f s).mem = s.mem := rfl
@[simp] theorem modDom_out (d : Nat) (f : DomSt → DomSt) (s : State) : (modDom d f s).out = s.out := rfl
@[simp] theorem modDom_freeCtr (d : Nat) (f : DomSt → DomSt) (s : State) : (modDom d f s).freeCtr = s.freeCtr := rfl
@[simp] theorem modDom_pending (d : Nat) (f : DomSt → DomSt) (s : State) : (modDom d f s).pending = s.pending := rfl

/-! A table after one entry changed. -/
@[simp] theorem unitSt_modUnit_self (n : Nat) (f : UnitSt → UnitSt) (s : State) : unitSt (modUnit n f s) n = f (unitSt s n) := tget_tmod_self ..
theorem unitSt_modUnit_ne {n k : Nat} (h : k ≠ n) (f : UnitSt → UnitSt) (s : State) : unitSt (modUnit n f s) k = unitSt s k := tget_tmod_ne h ..
@[simp] theorem puOf_modPu_self (n : Nat) (f : PuSt → PuSt) (s : State) : puOf (modPu n f s) n = f (puOf s n) := tget_tmod_self ..
theorem puOf_modPu_ne {n k : Nat} (h : k ≠ n) (f : PuSt → PuSt) (s : State) : puOf (modPu n f s) k = puOf s k := tget_tmod_ne h ..
@[simp] theorem vecOf_modVec_self (n : Nat) (f : VecUnit → VecUnit) (s : State) : vecOf (modVec n f s) n = f (vecOf s n) := tget_tmod_self ..
theorem vecOf_modVec_ne {n k : Nat} (h : k ≠ n) (f : VecUnit → VecUnit) (s : State) : vecOf (modVec n f s) k = vecOf s k := tget_tmod_ne h ..
@[simp] theorem cmcOf_modCmc_self (n : Nat) (f : Cmc → Cmc) (s : State) : cmcOf (modCmc n f s) n = f (cmcOf s n) := tget_tmod_self ..
theorem cmcOf_modCmc_ne {n k : Nat} (h : k ≠ n) (f : Cmc → Cmc) (s : State) : cmcOf (modCmc n f s) k = cmcOf s k := tget_tmod_ne h ..
@[simp] theorem laneOf_modLane_self (n : Nat) (f : LaneSt → LaneSt) (s : State) : laneOf (modLane n f s) n = f (laneOf s n) := tget_tmod_self ..
theorem laneOf_modLane_ne {n k : Nat} (h : k ≠ n) (f : LaneSt → LaneSt) (s : State) : laneOf (modLane n f s) k = laneOf s k := tget_tmod_ne h ..
@[simp] theorem chan_modChan_self (n : Nat) (f : DramCh → DramCh) (s : State) : chan (modChan n f s) n = f (chan s n) := tget_tmod_self ..
theorem chan_modChan_ne {n k : Nat} (h : k ≠ n) (f : DramCh → DramCh) (s : State) : chan (modChan n f s) k = chan s k := tget_tmod_ne h ..
@[simp] theorem domSt_modDom_self (n : Nat) (f : DomSt → DomSt) (s : State) : domSt (modDom n f s) n = f (domSt s n) := tget_tmod_self ..
theorem domSt_modDom_ne {n k : Nat} (h : k ≠ n) (f : DomSt → DomSt) (s : State) : domSt (modDom n f s) k = domSt s k := tget_tmod_ne h ..
@[simp] theorem fnOf_setFn_self (f : Nat) (v : FnSt) (s : State) : fnOf (setFn f v s) f = v := tget_tset_self ..
theorem fnOf_setFn_ne {f g : Nat} (h : g ≠ f) (v : FnSt) (s : State) : fnOf (setFn f v s) g = fnOf s g := tget_tset_ne h ..
@[simp] theorem qpOf_setQp_self (f n : Nat) (q : QueuePair) (s : State) : qpOf (setQp f n q s) f n = q := by simp [qpOf, setQp, modFn]
theorem qpOf_setQp_ne {f n k : Nat} (h : k ≠ n) (q : QueuePair) (s : State) : qpOf (setQp f n q s) f k = qpOf s f k := by
  simp [qpOf, setQp, modFn, tget_tset_ne h]
@[simp] theorem now_wr (k v : Nat) (s : State) : now (wr k v s) = now s := rfl
@[simp] theorem rd_send (o : Output) (s : State) (k : Nat) : rd (send o s) k = rd s k := rfl

end Sys2Proof.Machine
end

