-- ==== Sys2Proof/Tests/Slice0.lean ====
section
/-!
SUPPORT. Tests: an ill-formed command for each check, values that the manual works out, and a state that meets the hypotheses of each
statement.
-/
namespace Sys2Proof.Tests

open Sys2Proof Sys2Proof.Machine

set_option Elab.async false

/-! ### Well-formed commands -/

theorem smoke_sage_word : (Instr.add 0 0x84000000).wellFormed = true ∧ (Instr.add 0 0x84000001).wellFormed = false ∧
    (Instr.ldW 107 0xE4010000).wellFormed = true ∧ (Instr.ldW 107 0xE400C000).wellFormed = false := by decide
theorem smoke_keyDecided : (Instr.keyDecided 0 0 0 [1]).wellFormed = true ∧ (Instr.keyDecided 0 0 0 []).wellFormed = false ∧
    (Instr.keyDecided 0 0 0 (List.replicate 17 1)).wellFormed = false := by decide
theorem smoke_frameEnd (l : List Byte) (h : 32790 < l.length) : (Instr.frameEnd 0 0 0 l true 0 0 0).wellFormed = false := by
  have e : (Instr.frameEnd 0 0 0 l true 0 0 0).wellFormed = (true && decide (l.length ≤ 32790)) := rfl
  rw [e, Bool.true_and]
  exact decide_eq_false (by omega)
theorem smoke_occasionEnd : (Instr.occasionEnd 0 0 0 [⟨1, 0, 0, 0, 0, 0, 0, []⟩, ⟨1, 2, 0, 0, 0, 0, 0, []⟩]).wellFormed = false := by decide
theorem smoke_laneLoadWindow : (Instr.laneLoadWindow 0 [(0, 0)]).wellFormed = false := by decide
theorem smoke_laneRecentreDone : (Instr.laneRecentreDone 0 true (0, 0) [(0, 0), (0, 0)] 0).wellFormed = false := by decide
theorem smoke_refSecondUpdate : (Instr.refSecondUpdate [(1, 0), (1, 5)] 0).wellFormed = false := by decide
theorem smoke_ledgerMinute : (Instr.ledgerMinute [(50, 0, 0), (50, 1, 1)]).wellFormed = false := by decide
theorem smoke_dramRequest : (Instr.dramRequest 0 0 0 (2 ^ 52) none).wellFormed = false ∧
    (Instr.dramRequest 0 0 0 0x8000000001 (some (List.replicate 64 0))).wellFormed = false ∧
    (Instr.dramRequest 0 0 0 0x8000000000 (some [])).wellFormed = false := by decide
theorem smoke_dramLoadWindow : (Instr.dramLoadWindow 0 2 1).wellFormed = false := by decide
theorem smoke_resume : (Instr.resume 0 256).wellFormed = false := by decide
theorem smoke_dramRecentre : (Instr.dramRecentre 0 256).wellFormed = false := by decide
theorem smoke_nocWrite : (Instr.nocWrite 0 0 [] 0 0 false none [] 0).wellFormed = false ∧
    (Instr.nocWrite 0 0 [1, 2] 0 0 false none [1, 1] 0).wellFormed = false := by decide
theorem smoke_nocReadRequest : (Instr.nocReadRequest 0 0 0 0 0 false none).wellFormed = false := by decide
theorem smoke_nocReadData : (Instr.nocReadData 0 0 none [3, 3] 0).wellFormed = false := by decide
theorem smoke_cxlMemRequest : (Instr.cxlMemRequest 0 0 none).wellFormed = false ∧
    (Instr.cxlMemRequest 0 1 (some (List.replicate 65 0))).wellFormed = false := by decide
theorem smoke_bar4Access : (Instr.bar4Access 0 0 none).wellFormed = false ∧ (Instr.bar4Access 0 1 (some [])).wellFormed = false := by decide
theorem smoke_pdp : (Instr.read (.can 0 true) (List.replicate 7 0)).wellFormed = false ∧ (Instr.write (.can 0 true) (List.replicate 65 0)).wellFormed = false ∧
    (Instr.readSeg (.udp 0) []).wellFormed = false ∧ (Instr.writeSeg (.udp 0) [1]).wellFormed = false ∧ (Instr.abort (.can 1 true) []).wellFormed = false ∧
    (Instr.read (.can 0 true) (List.replicate 8 0)).wellFormed = true := by decide
theorem smoke_locText : (Instr.locText (List.replicate 41 48)).wellFormed = false := by decide
theorem smoke_imageWrite (l : List Byte) (h : 4194304 < l.length) : (Instr.imageWrite l).wellFormed = false := by
  have e : (Instr.imageWrite l).wellFormed = (true && decide (l.length ≤ 4194304)) := rfl
  rw [e, Bool.true_and]
  exact decide_eq_false (by omega)
theorem smoke_firmwareWrite (l : List Byte) (h : 8388608 < l.length) : (Instr.firmwareWrite l true).wellFormed = false := by
  have e : (Instr.firmwareWrite l true).wellFormed = (true && decide (l.length ≤ 8388608)) := rfl
  rw [e, Bool.true_and]
  exact decide_eq_false (by omega)

/-! ### Values the manual works out -/

/-- R37's example: the data memory of D0.Q2.C07.U3. -/
theorem test_data_memory_address : dmemAddr 66 = 0x27380000 ∧ regionOf State.reset 0x273DFFFF = .dmem 66 ∧ regionOf State.reset 0x273E0000 = .hole := by decide
/-- A circular buffer of 64 bytes at 0x80040 walked by 2 wraps to its base (R214). -/
theorem test_circ_wraps : circ 0x8007E 0x00400002 = 0x80040 ∧ circ 0x80040 0x0040FFFE = 0x8007E ∧ circ 0x80040 0x0000FFFE = 0x8003E := by decide
/-- After a rotation the value named g16 is named g17, and that of g31 g16 (R210). -/
theorem test_rotation : phys 1 17 = phys 0 16 ∧ phys 1 16 = phys 0 31 ∧ phys 7 15 = 15 := by decide
theorem test_reset_inv : State.reset.Inv := by
  refine ⟨by decide, ?_⟩
  simp [State.reset]

/-! ### States that meet the hypotheses of the statements -/

/-- Objects written into a state. -/
def holding (l : List (Nat × Nat)) (s : State) : State := l.foldl (fun s e => wr e.1 e.2 s) s
/-- A word of one instruction from its fields: place and value. -/
def word (l : List (Nat × Nat)) : Word := BitVec.ofNat 32 (l.foldl (fun n e => n + e.2 * 2 ^ e.1) (2 ^ 31))

/-- Core 0 in maintenance mode, and the claim of its coprocessor. -/
def core0 : Core := { maintCore 0 with a := [(2, 0x80040)], g := [(3, 5), (4, 64), (6, 2)] }
def maint0 : State :=
  holding [(kPlSageRole 0, mkRole 1 true 0 0)]
    { State.reset with sage := { State.reset.sage with cores := [(0, core0)], cmcs := [(0, { holder := some 0 })] } }

/-- Any word that ends its bundle meets `Alone` there: the hypothesis that the Sage statements share. -/
theorem witness_alone (w : Word) (h : wE w.toNat = true) : Alone 0 w core0 maint0 :=
  ⟨⟨by decide, rfl, h, by rfl⟩, by decide⟩
theorem witness_uses : usesVector maint0 core0 = true ∧ usesCmc maint0 core0 = true ∧ holdsClaim maint0 0 = true ∧ inMaint maint0 0 = true ∧
    Memory.wf maint0.mem = true ∧ core0.maint = true ∧ core0.xfers = [] := by decide

theorem witness_SageRegisterFormsWriteD :
    (∀ r ∈ aluRows ++ compareRows, let w := (word [(26, r.op), (21, 1), (16, 3), (11, 4), (0, r.fn)]).toNat
      wE w = true ∧ wMid w = 0 ∧ wOp w = r.op ∧ wFn w = r.fn) ∧
    ∀ r ∈ searchRows, let w := (word [(26, 0x05), (21, 2), (16, 3), (0, r.fn)]).toNat
      wE w = true ∧ wMid w = 0 ∧ wOp w = 0x05 ∧ wD w % 2 = 0 ∧ wFn w = r.fn := by decide
theorem witness_SageImmediateFormsWriteD :
    (∀ r ∈ immRows, let w := (word [(26, 0x02), (21, 1), (16, 3), (12, r.fn), (0, 0xFFF)]).toNat
      wE w = true ∧ wOp w = 0x02 ∧ fld w 12 4 = r.fn) ∧
    wOp (word [(26, 0x03), (0, 0x1FFFFF)]).toNat = 0x03 ∧
    (∀ r ∈ shiftRows, let w := (word [(26, r.op), (21, 1), (16, 3), (11, 31), (0, r.fn)]).toNat
      wE w = true ∧ wOp w = r.op ∧ wFn w = r.fn ∧ wMid w = 0) ∧
    ∀ r ∈ fieldRows, let w := (word [(26, 0x04), (21, 1), (16, 3), (11, 16), (6, 15), (0, r.fn)]).toNat
      wE w = true ∧ wOp w = 0x04 ∧ wFn w = r.fn ∧ wT w + wMid w + 1 = 32 := by decide
theorem witness_SageControlTransfers :
    (∀ r ∈ branchRows, let w := (word [(26, 0x06), (13, r.cond)]).toNat; wE w = true ∧ wOp w = 0x06 ∧ fld w 13 3 = r.cond) ∧
    (∀ k ∈ [6, 7], let w := (word [(26, 0x06), (13, k)]).toNat; wE w = true ∧ wOp w = 0x06 ∧ fld w 13 3 = k ∧ fld w 16 10 = 0) ∧
    (∀ k ∈ [0, 1, 2, 3], let w := (word [(26, 0x07), (23, k), (18, 4)]).toNat
      wE w = true ∧ wOp w = 0x07 ∧ fld w 15 3 = 0 ∧ fld w 23 3 = k ∧ (core0.reg (fld w 18 5)).toNat % 4 = 0) ∧
    (∀ k ∈ [0, 1, 2, 3], let w := (word [(26, 0x08), (23, k)]).toNat
      wE w = true ∧ wOp w = 0x08 ∧ fld w 23 3 = k ∧ fld w 0 23 = 0) := by decide
theorem witness_SageLoadsBringMemory :
    (∀ r ∈ loadRows, let w := (word [(26, 0x18), (21, 1), (17, 2), (14, r.sz)]).toNat
      wE w = true ∧ wOp w = 0x18 ∧ fld w 14 3 = r.sz ∧ memEa core0 w r.bytes % r.bytes = 0 ∧ modeOk w = true ∧
        inWindows (windows maint0 0 core0) false (memEa core0 w r.bytes) r.bytes = true ∧
          rangePoisoned maint0 (coreAddr 0 + memEa core0 w r.bytes) r.bytes = false) ∧
    ∀ k ∈ [5, 6, 7], let w := (word [(26, 0x19), (21, 2), (17, 2), (14, k)]).toNat
      wE w = true ∧ wOp w = 0x19 ∧ fld w 14 3 = k ∧ wD w % 2 = 0 ∧ memEa core0 w 8 % 8 = 0 ∧ modeOk w = true ∧
        inWindows (windows maint0 0 core0) false (memEa core0 w 32) 32 = true ∧ rangePoisoned maint0 (coreAddr 0 + memEa core0 w 32) 32 = false := by
  decide
theorem witness_SageStoresWriteMemory :
    ∀ k ∈ [0, 2, 4, 5, 6, 7], let w := (word [(26, 0x09), (21, 2), (17, 2), (14, k)]).toNat
      wE w = true ∧ wOp w = 0x09 ∧ fld w 14 3 = k ∧ wD w % 2 = 0 ∧ memEa core0 w 8 % 8 = 0 ∧ modeOk w = true ∧
        inWindows (windows maint0 0 core0) true (memEa core0 w 32) 32 = true := by decide
theorem witness_SageSpecialRegisters :
    (∀ k ∈ List.range 10, let w := word [(26, 0x0A), (21, 1), (16, k)]
      wE w.toNat = true ∧ wOp w.toNat = 0x0A ∧ fld w.toNat 0 15 = 0 ∧ w.getLsbD 15 = false ∧ wS w.toNat = k ∧
        (specialRegister maint0 0 core0 k).isSome = true) ∧
    (∀ k ∈ [0, 1, 2], let w := word [(26, 0x0A), (21, 1), (16, k), (15, 1)]
      wE w.toNat = true ∧ wOp w.toNat = 0x0A ∧ fld w.toNat 0 15 = 0 ∧ w.getLsbD 15 = true ∧ wS w.toNat = k) ∧
    ∀ k ∈ [0, 1, 2, 3, 4, 5], let w := word [(26, 0x0B), (23, k)]
      wE w.toNat = true ∧ wOp w.toNat = 0x0B ∧ fld w.toNat 23 3 = k ∧ w.getLsbD 22 = false := by decide
theorem witness_SageAccumulators :
    (∀ r ∈ macRows, let w := word [(26, 0x0C), (19, 3), (14, 4), (6, r.fn)]
      wE w.toNat = true ∧ wOp w.toNat = 0x0C ∧ fld w.toNat 0 6 = 0 ∧ fld w.toNat 6 4 = r.fn ∧ w.getLsbD 10 = false) ∧
    (∀ k ∈ [3, 4, 5], let w := (word [(26, 0x0C), (6, k)]).toNat
      wE w = true ∧ wOp w = 0x0C ∧ fld w 0 6 = 0 ∧ fld w 6 4 = k ∧ fld w 10 14 = 0) ∧
    ∀ k ∈ [0, 1, 2], let w := (word [(26, 0x0D), (10, k)]).toNat; wE w = true ∧ wOp w = 0x0D ∧ fld w 0 10 = 0 ∧ fld w 10 3 = k := by decide

/-! Core 1 runs job 0 of a graph. -/
def graph0 : Graph :=
  { id := 0, tenant := 0, ci := 0, st := .running
    jobs := [{ op := 0x100, refs := [(0, 0, 0), (1, 1, 1)] }], bufs := [{ kind := 4, size := 256 }, { kind := 2, size := 256 }]
    homes := [(0, { tier := 2, block := 0, addr := 0 }), (1, { tier := 2, block := 0, addr := 0x1000 })]
    rts := [{ p := { num := 0, shares := [{ unit := 1, n := 1 }], prog := some 0 }, st := .running, ran := true, id := some 0, epochs := [0] }] }
def run0 : Run := { gid := 0, num := 0, share := 0, first := 0, n := 1, since := 0, level := 3 }
def coreJob : Core := { g := [(1, 0), (2, 64), (3, 2)], a := [(2, 0x80000)] }
def job1 : State := holding [(kPdClkNow 0, 1500)] { State.reset with
  work := { State.reset.work with graphs := [graph0], units := [(1, { cur := some run0 })] }
  sage := { State.reset.sage with cores := [(1, coreJob)] } }
/-- Its slice has run out. -/
def job1Late : State := { job1 with tim := { job1.tim with dtc := 60000 } }
/-- A better job waits for the core. -/
def job1Beaten : State := { job1 with work := { job1.work with
  ready := [{ gid := 1, num := 0, share := 0, unit := 1, level := 2, time := 0, seq := 0, pos := 0 }] } }

theorem witness_job (w : Word) (h : wE w.toNat = true) : Alone 1 w coreJob job1 := ⟨⟨by decide, rfl, h, by rfl⟩, by decide⟩
theorem witness_lone (w : Word) (h : wE w.toNat = true) : Lone 1 w coreJob job1Late := ⟨by decide, rfl, h, by rfl⟩
theorem witness_beaten (w : Word) (h : wE w.toNat = true) : Alone 1 w coreJob job1Beaten := ⟨⟨by decide, rfl, h, by rfl⟩, by decide⟩

theorem witness_SageControlAndTransfers :
    (∀ k ∈ List.range 6, let w := (word [(21, k)]).toNat; wE w = true ∧ wOp w = 0x00 ∧ ctrlOk w = true ∧ fld w 21 5 = k) ∧
    ∀ out ∈ [0, 1], let w := word [(26, 0x0E), (21, 1), (17, 2), (12, 2), (9, out), (8, out), (4, 5)];
      wOp w.toNat = 0x0E ∧ fld w.toNat 0 4 = 0 ∧ tagBusy coreJob (fld w.toNat 4 4) = false ∧ graphOf job1 coreJob.gid = some graph0 ∧
        (jobRt job1 coreJob.gid coreJob.num).isSome = true ∧
        ((graph0.jobs.getD 0 {}).refs.find? fun e => e.1 == fld w.toNat 9 3) = some (out, out, out) ∧ pRefLocal (progRun job1 0) out = false ∧
        (if w.getLsbD 8 then out ≠ 0 else out ≠ 1) ∧ (coreJob.reg (wD w.toNat)).toNat = 0 ∧ aR coreJob (fld w.toNat 17 4) % 64 = 0 ∧
        (coreJob.reg (fld w.toNat 12 5)).toNat = 64 ∧ 0 + 64 ≤ (bufD graph0 out).size := by decide
theorem witness_SageTransferWindow : let w := word [(26, 0x0E), (21, 3), (17, 2), (12, 4), (9, 1), (8, 1)]
    inWindows (windows maint0 0 core0) false (aR core0 (fld w.toNat 17 4)) 64 = true ∧ aR core0 (fld w.toNat 17 4) % 64 = 0 := by decide
theorem witness_SageYieldAndEnd :
    (∀ k ∈ [1, 2], let w := (word [(21, k)]).toNat; wE w = true ∧ wOp w = 0x00 ∧ ctrlOk w = true ∧ fld w 21 5 = k) ∧ coreJob.xfers = [] ∧
    holdsClaim job1 1 = false ∧ holdsClaim maint0 0 = true ∧ (unitSt job1 1).cur = some run0 ∧ run0.cancel = false ∧
    betterWaits job1 1 run0.level = false ∧ betterWaits job1Beaten 1 run0.level = true ∧ (unitSt job1Beaten 1).ctx.length < 3 ∧
    jobWritesOver job1 0 0 = true ∧ bitAt (progRun job1 coreJob.prog) 18 = false := by decide
theorem witness_SageExceptionsEndTheJob :
    coreJob.maint = false ∧ graphOf job1Late coreJob.gid = some graph0 ∧ (jobRt job1Late coreJob.gid coreJob.num).isSome = true ∧
    sliceOver job1Late 1 coreJob (now job1Late) = true ∧
    (∀ row ∈ aluRows ++ compareRows ++ shiftRows, let w := (word [(26, row.op), (6, 1), (0, row.fn)]).toNat
      wOp w = row.op ∧ wFn w = row.fn ∧ wMid w ≠ 0) ∧
    (∀ row ∈ searchRows, let w := (word [(26, 0x05), (21, 1), (0, row.fn)]).toNat; wOp w = 0x05 ∧ wFn w = row.fn ∧ wD w % 2 = 1) ∧
    (let w := (word [(26, 0x07), (23, 2), (18, 3)]).toNat;
      wOp w = 0x07 ∧ fld w 23 3 = 2 ∧ fld w 15 3 = 0 ∧ (coreJob.reg (fld w 18 5)).toNat % 4 ≠ 0) ∧
    (∀ row ∈ loadRows, let w := (word [(26, 0x18), (17, 2), (14, row.sz)]).toNat
      wOp w = 0x18 ∧ fld w 14 3 = row.sz ∧ modeOk w = true ∧ memEa coreJob w row.bytes % row.bytes = 0 ∧
        inWindows (windows job1Late 1 coreJob) false (memEa coreJob w row.bytes) row.bytes = false) ∧
    (∀ k ∈ [10, 31], let w := word [(26, 0x0A), (16, k)]
      wOp w.toNat = 0x0A ∧ fld w.toNat 0 15 = 0 ∧ w.getLsbD 15 = false ∧ wS w.toNat = k) ∧
    (∀ k ∈ [3, 31], let w := word [(26, 0x0A), (16, k), (15, 1)]
      wOp w.toNat = 0x0A ∧ fld w.toNat 0 15 = 0 ∧ w.getLsbD 15 = true ∧ wS w.toNat = k) ∧
    wFn (word [(26, 0x16), (0, 4)]).toNat = 4 ∧ inMaint job1Late 1 = false ∧ wFn (word [(26, 0x1C), (0, 7)]).toNat = 7 ∧ holdsClaim job1Late 1 = false := by
  decide
theorem witness_SageWritesHeld :
    jobWritesOver { job1Late with host := { job1Late.host with waits := [(0, .write 0 [1] (some (0, 0)))] } } 0 0 = false := by decide

theorem witness_VectorLaneForms :
    (∀ r ∈ laneRows, ∀ v ∈ r.ws, let w := word [(26, r.op), (21, 4), (16, 8), (11, if r.two then 12 else 0), (9, v), (7, 2), (0, r.fn)]
      wE w.toNat = true ∧ wOp w.toNat = r.op ∧ wFn w.toNat = r.fn ∧ fld w.toNat 9 2 = v ∧ (r.two = false → wT w.toNat = 0) ∧
        fld w.toNat 7 2 = 2 ∧ w.getLsbD 6 = false ∧ groupSize w = 4 ∧ ∀ n ∈ [wD w.toNat, wS w.toNat, wT w.toNat], n % 4 = 0) ∧
    ∀ r ∈ laneShiftRows, ∀ v ∈ r.ws, let w := word [(26, r.op), (21, 4), (16, 8), (11, 31), (9, v), (7, 2), (0, r.fn)]
      wE w.toNat = true ∧ wOp w.toNat = r.op ∧ wFn w.toNat = r.fn ∧ fld w.toNat 9 2 = v ∧ fld w.toNat 7 2 = 2 ∧ w.getLsbD 6 = false := by decide
theorem witness_VectorComplexAndPack :
    (∀ f ∈ [0x19, 0x1A], let w := (word [(26, 0x10), (9, 1), (0, f)]).toNat; wE w = true ∧ wOp w = 0x10 ∧ fld w 9 2 = 1 ∧ wFn w = f) ∧
    (∀ f ∈ [0x08, 0x09], ∀ v ∈ [1, 2], let w := (word [(26, 0x11), (11, 31), (9, v), (0, f)]).toNat
      wE w = true ∧ wOp w = 0x11 ∧ fld w 9 2 = v ∧ wFn w = f) ∧
    ∀ f ∈ [0x0A, 0x0B], ∀ v ∈ [0, 1], let w := word [(26, 0x11), (9, v), (0, f)]
      wE w.toNat = true ∧ wOp w.toNat = 0x11 ∧ fld w.toNat 9 2 = v ∧ wT w.toNat = 0 ∧ wFn w.toNat = f ∧ w.getLsbD 6 = false := by decide
theorem witness_VectorAccumulators :
    (∀ r ∈ vmacRows, let w := word [(26, 0x12), (24, 3), (19, 1), (14, 2), (11, 1), (6, r.fn)]
      wE w.toNat = true ∧ wOp w.toNat = 0x12 ∧ fld w.toNat 12 2 = 0 ∧ w.getLsbD 10 = false ∧ fld w.toNat 0 6 = 0 ∧ fld w.toNat 6 4 = r.fn) ∧
    (let w := word [(26, 0x12), (6, 3)];
      wOp w.toNat = 0x12 ∧ fld w.toNat 6 4 = 3 ∧ fld w.toNat 14 10 = 0 ∧ w.getLsbD 11 = false) ∧
    (∀ b ∈ [0, 1], let w := word [(26, 0x13), (21, 2), (14, 31), (13, b)]
      wOp w.toNat = 0x13 ∧ fld w.toNat 0 10 = 0 ∧ fld w.toNat 10 3 = 0 ∧ w.getLsbD 13 = decide (b = 1) ∧ wD w.toNat % 2 = 0) ∧
    ∀ k ∈ [1, 2], let w := (word [(26, 0x13), (21, 30), (10, k)]).toNat
      wOp w = 0x13 ∧ fld w 0 10 = 0 ∧ fld w 10 3 = k ∧ fld w 13 6 = 0 ∧ wD w % 2 = 0 := by decide
theorem witness_VectorPermutes : ∀ r ∈ permRows, let w := word [(26, 0x14), (21, 31), (16, 1), (0, r.fn)]
    wE w.toNat = true ∧ wOp w.toNat = 0x14 ∧ wFn w.toNat = r.fn ∧ r.ok w = true := by decide
theorem witness_VectorScalarForms :
    (∀ k ∈ [0, 1, 2, 3], ∀ v ∈ [0, 1, 2], let w := word [(26, 0x15), (21, 2), (9, v), (5, 128 / (8 * 2 ^ v) - 1), (0, k)]
      wE w.toNat = true ∧ wOp w.toNat = 0x15 ∧ fld w.toNat 9 2 = v ∧ fld w.toNat 5 4 < 128 / wBits w ∧ fld w.toNat 0 5 = k) ∧
    ∀ k ∈ [4, 5, 6, 7, 8], ∀ v ∈ [1, 2], let w := word [(26, 0x15), (21, 2), (16, 4), (9, v), (0, k)]
      wE w.toNat = true ∧ wOp w.toNat = 0x15 ∧ fld w.toNat 9 2 = v ∧ fld w.toNat 5 4 < 128 / wBits w ∧ fld w.toNat 0 5 = k ∧
        wD w.toNat % 2 = 0 ∧ wS w.toNat % 2 = 0 := by decide
theorem witness_VectorMaintenanceForms : ∀ p ∈ [(0, 1), (1, 1), (2, 2), (3, 2), (4, 1), (5, 2), (6, 1)],
    let w := word [(26, 0x16), (21, 2), (9, p.2), (0, p.1)];
      wE w.toNat = true ∧ wOp w.toNat = 0x16 ∧ fld w.toNat 7 2 = 0 ∧ w.getLsbD 6 = false ∧ fld w.toNat 9 2 = p.2 ∧ wFn w.toNat = p.1 ∧ wD w.toNat % 2 = 0 := by
  decide

/-- A word of a coprocessor function with g registers `d`, `a`, `b` and index `i`. -/
def cxw (op f d a b i : Nat) : Word := word [(26, op), (21, d), (16, a), (11, b), (7, i), (0, f)]
theorem witness_CoprocessorFunctions :
    (cxWord (cxw 0x1C 0 2 3 0 0) 0x00 true true false false ∧ cxWord (cxw 0x1C 1 2 3 0 0) 0x01 true true false false ∧
      cxWord (cxw 0x1C 2 2 3 0 0) 0x02 true true false false ∧ cxWord (cxw 0x1C 3 2 3 4 0) 0x03 true true true false ∧
      cxWord (cxw 0x1C 4 2 3 0 0) 0x04 true true false false ∧ cxWord (cxw 0x1C 5 2 3 0 0) 0x05 true true false false ∧
      cxWord (cxw 0x1C 6 2 3 4 0) 0x06 true true true false ∧ cxWord (cxw 0x1C 7 2 3 4 0) 0x07 true true true false) ∧
    core0.reg 3 = 5 ∧ core0.reg 4 = 64 ∧ core0.reg 5 = 0 ∧ 2 % 2 = 0 := by unfold cxWord; decide
theorem witness_CoprocessorMatrices :
    (cxWord (cxw 0x1C 0x10 0 3 0 0) 0x10 false true false false ∧ cxWord (cxw 0x1C 0x11 0 3 0 15) 0x11 false true false true ∧
      cxWord (cxw 0x1C 0x12 0 0 0 3) 0x12 false false false true ∧ cxWord (cxw 0x1C 0x13 0 0 0 3) 0x13 false false false true ∧
      cxWord (cxw 0x1C 0x14 2 0 0 15) 0x14 true false false true ∧ cxWord (cxw 0x1C 0x15 2 0 0 0) 0x15 true false false false) ∧
    (-32 ≤ (core0.reg 3).toInt ∧ (core0.reg 3).toInt ≤ 31) ∧ cxIdx (cxw 0x1C 0x11 0 3 0 15).toNat % 4 ≤ cxIdx (cxw 0x1C 0x11 0 3 0 15).toNat / 4 ∧
    (cmcAt maint0 0).pivots = none := by unfold cxWord; decide
theorem witness_CoprocessorClaimAndImage :
    (cxcWord (word [(26, 0x1D), (21, 2)]) 0x00 true false ∧ cxcWord (word [(26, 0x1D), (0, 1)]) 0x01 false false ∧
      cxcWord (word [(26, 0x1D), (17, 2), (0, 2)]) 0x02 false true ∧ cxcWord (word [(26, 0x1D), (17, 2), (0, 3)]) 0x03 false true ∧
      cxcWord (word [(26, 0x1D), (21, 2), (0, 4)]) 0x04 true false ∧ cxcWord (word [(26, 0x1D), (0, 5)]) 0x05 false false) ∧
    aR core0 2 % 64 = 0 ∧ inWindows (windows maint0 0 core0) true (aR core0 2) 1024 = true ∧ rangePoisoned maint0 (coreAddr 0 + aR core0 2) 1024 = false ∧
    holdsClaim maint0 0 = true ∧ holdsClaim job1 1 = false ∧ cmcBusy (cmcAt maint0 0) 1 = true ∧ cmcBusy (cmcAt job1 1) 1 = false ∧
    claimBeaten job1 1 = false := by unfold cxcWord; decide +kernel
theorem witness_CoprocessorImageRoundTrip : ∀ l, ({ pivots := some [1, 2, 3, 4] } : Cmc).pivots = some l → l.length = 4 := by
  intro l h; cases h; rfl

/-! The life of a program on a core, and of jobs on units. -/
/-- Job 0 of graph `g` runs on unit `u`. -/
def runs (u : Nat) (g : Graph) (run : Run) (s : State) : State :=
  { s with work := { s.work with graphs := [g], units := [(u, { cur := some run })] } }
def xferIn (out : Bool) (ofs : Nat) : Xfer := { tag := 5, out := out, buf := if out then 1 else 0, ofs := ofs, loc := 0x80000, len := 64 }
def xfers1 (x : Xfer) : State := { job1 with sage := { job1.sage with cores := [(1, { coreJob with xfers := [x] })] } }

theorem witness_SageCoreEvents :
    (let s := { job1 with sage := { job1.sage with cores := [] } }
     coreRun s 1 = none ∧ (unitSt s 1).cur = some run0 ∧ run0.ending = none ∧ graphOf s 0 = some graph0 ∧ (jobRt s 0 0).isSome = true ∧
      savedCtx s 1 run0 = none ∧ savedCtx { s with sage := { s.sage with ctxs := [(1, coreJob)] } } 1 run0 = some coreJob) ∧
    (∀ b ∈ [false, true], let s := xfers1 (xferIn b 0); let c : Core := { coreJob with xfers := [xferIn b 0] }
      coreRun s 1 = some c ∧ xferReady s 1 c = some (xferIn b 0) ∧ readOp s (.xfer 1 c.gid 5) = none ∧ (jobRt s 0 0).isSome = true ∧
        ((jobRt s 0 0).bind fun r => refAddr graph0 r (xferIn b 0).buf) = some (if b then 0x1000 else 0) ∧
        rangeReachable s (if b then 0x1000 else 0) 64 = true ∧ rangePoisoned s (if b then 0x1000 else 0) 64 = false ∧
        rangePoisoned s (coreAddr 1 + 0x80000) 64 = false) ∧
    (let s := xfers1 (xferIn false 0x04000000); rangeReachable s 0x04000000 64 = false ∧ rangeReachable s (0x04000000 - 64) 64 = true) ∧
    (coreRun job1Late 1 = some coreJob ∧ sliceLimit job1Late 1 ≤ (now job1Late - coreJob.lastYield) / 64 * 64 ∧
      ∀ w ∈ nextWords job1Late 1 coreJob, ¬(wOp w = 0 ∧ fld w 21 5 = 1)) ∧
    (let s := { maint0 with tim := { maint0.tim with dtc := 60000 } }
     (cmcOf s 0).holder = some 0 ∧ core0.bundle.count = 0 ∧ usToTc 20 ≤ (now s - (cmcOf s 0).since) / 64 * 64) ∧
    (let s := { job1Late with sage := { job1Late.sage with cmcs := [(0, { resv := some (2, 0), requests := [2] })] } }
     (cmcOf s 0).resv = some (2, 0) ∧ cyclesToTc 32 (rd s (kPdClkNow 0)) ≤ now s) ∧
    (let s := holding [(kClVgateIdle 0, 1000)] job1Late
     (vecOf s 1).on = true ∧ inMaint s 1 = false ∧ coreRun s 1 = some coreJob ∧ coreJob.vUsed = false ∧ (vecOf s 1).gateIdle = none ∧
      rd s (kClVgateIdle 0) ≠ 0 ∧ cyclesToTc (rd s (kClVgateIdle 0)) (rd s (kPdClkNow 0)) ≤ now s - (vecOf s 1).idleFrom) := by decide +kernel

/-- The entry of job 0's share on core 1 in its ready list. -/
def entry1 : ReadyE := { gid := 0, num := 0, share := 0, unit := 1, level := 3, time := 0, seq := 0, pos := 0 }
/-- A copy of 64 bytes in T2. -/
def copy0 (kind : CopyKind) : Graph :=
  { graph0 with rts := [{ p := { num := 4096, shares := [{ unit := 228, n := 1 }], copy := some { buf := 0, job := 0, kind := kind, src := 0, dst := 0x1000, len := 64 } },
                          st := .running, ran := true, id := some 0, epochs := [0] }] }
def live0 : Table IdSt := [(0, { gen := 0, inUse := true, outstanding := 1 })]
theorem witness_JobLifecycle :
    (let s := { State.reset with work := { State.reset.work with graphs := [graph0], ready := [entry1] } }
     (unitSt s 1).cur = none ∧ (unitSt s 1).fenced = false ∧ (unitSt s 1).nextRole = none ∧ bestEntry s 1 = some entry1 ∧
      (jobRt s 0 0).isSome = true ∧ ((jobRt s 0 0).bind fun r => staleUnit s r 0) = none ∧
      ((jobRt s 0 0).bind fun r => staleUnit { s with work := { s.work with units := [(1, { fenced := true })] } } r 0) = some 1) ∧
    (let s := runs (engUnit 7) graph0 { run0 with worked := true } State.reset
     (unitSt s (engUnit 7)).cur = some { run0 with worked := true } ∧ jobWritesOver s 0 0 = true ∧ idCurrent s 0 0 = false ∧
      idCurrent { s with work := { s.work with ids := live0 } } 0 0 = true ∧ (jobRt s 0 0).map (·.code) = some 0) ∧
    (∀ k ∈ [CopyKind.into, .back], let s := runs (dmaUnit 0) (copy0 k) { run0 with num := 4096 } State.reset
      (curCopy s (dmaUnit 0)).isSome = true ∧ ((curCopy s (dmaUnit 0)).map fun x => copyHole s x.2.2.2) = some none ∧
        rangePoisoned s 0 64 = false ∧ jobReadFailed s 0 4096 = false ∧ jobWritesOver s 0 4096 = true ∧ manyWriters (copy0 k) 0 = false) ∧
    (let s := runs 1 { graph0 with cancelled := true } run0 State.reset
     ((jobRt s 0 0).bind fun r => staleUnit s r 0) = none ∧ curCopy s 1 = none ∧ run0.ending = none ∧
      ((jobRt s 0 0).bind fun r => staleUnit { s with work := { s.work with units := [(1, { cur := some run0, fenced := true })] } } r 0) = some 1) ∧
    (let m : Msg := { tenant := 0, ci := 0, gid := 0, num := 0, share := 0, id := 0, code := 0, finish := 0, loc := 0 }
     let s := { State.reset with work := { State.reset.work with graphs := [graph0], msgs := [m], ids := live0 } }
     s.work.msgs[0]? = some m ∧ (idSt s 0 0).inUse = true ∧ (idSt s 0 0).quarantine = none ∧ (idSt s 0 0).gen = m.id / 4096 ∧
      (idSt State.reset 0 0).inUse = false) ∧
    (let s := holding [(kDiIdQuarantine, 100)] { State.reset with
       tim := { State.reset.tim with dtc := 60000 }, work := { State.reset.work with ids := [(0, { quarantine := some 0, bars := [(3, 60000)] })] } }
     (idSt s 0 0).quarantine = some 0 ∧ nsToTc (rd s kDiIdQuarantine) ≤ now s ∧ (3, 60000) ∈ (idSt s 0 0).bars ∧ 60000 ≤ now s) ∧
    (let s := { State.reset with tim := { State.reset.tim with dtc := 60000 }, work := { State.reset.work with graphs := [graph0] } }
     ((jobRt s 0 0).map fun r => (r.open_, r.ran, decide (r.watch * 25 / 49152 < now s * 25 / 49152))) = some (true, true, true)) ∧
    (let s := { State.reset with tim := { State.reset.tim with dtc := windowTc } }
     s.work.window < now s / windowTc) := by decide +kernel

/-! Submission, placement, engines and tenants. -/
/-- A function whose queue pair 0 is in `st`, with entry `e` fetched. -/
def fetched (st : QpState) (l : List Nat) (fail : Option ReadFail) (s : State) : State :=
  { s with host := { s.host with
      fns := [(0, { bme := true, qps := [(0, { state := st, cfg := 0x0404, fetching := some (0, 0) })] })]
      reads := [{ fn := 0, use := .submission 0 0 0, addr := 0, left := 0, data := l.map (BitVec.ofNat 8), failed := fail }] } }
/-- The entry of a command of kind `k` for CI 0. -/
def entryOf (k : Nat) : List Nat := k :: List.replicate 63 0
/-- A state with tenant 0 enabled and CI 0 its own. -/
def owned0 : State := holding [(kTeState 0, 1)] { State.reset with work := { State.reset.work with ciOwner := [(0, 0)] } }
/-- A graph of `n` bytes of header being checked. -/
def checking0 : Graph := { id := 0, tenant := 0, ci := 0, st := .checking }
def graphRead (part : Nat) (l : List Byte) (fail : Option ReadFail) : ReadOp :=
  { fn := 0, use := .graphFetch 0 part, addr := 0, left := 0, data := l, failed := fail }
def headerNum : Nat := pack [(0, 8, 1), (32, 13, 1), (48, 14, 1), (128, 32, 1000000)]

theorem witness_QueueDoorbells :
    (let s := fetched .enabled [] none State.reset; let q := qpOf s 0 0
     q.state = .enabled ∧ sqSize q = 16 ∧ cqSize q = 16 ∧ (15 : Word).toNat % 65536 < sqSize q ∧ sqSize q ≤ (16 : Word).toNat % 65536 ∧
      q.visible = [] ∧ maySend s 0 = true) ∧
    (let s := { fetched .enabled [] none State.reset with host := { (fetched .enabled [] none State.reset).host with
       fns := [(0, { bme := true, qps := [(0, { state := .enabled, cfg := 0x0404, visible := [(15, 0)] })] })], reads := [] } }
     (qpOf s 0 0).visible = [(15, 0)] ∧ (qpOf s 0 0).fetching = none ∧ maySend s 0 = true ∧ readOp s (.submission 0 0 15) = none) ∧
    (qpOf State.reset 0 0).state = .disabled ∧ ∀ n ∈ [5, 9, 10, 11, 13], n < 16 := by decide +kernel
theorem witness_SubmittedEntries :
    (∀ k ∈ [1, 2, 3], let s := fetched .enabled (entryOf k) none owned0
      fetchedEntry s 0 0 = some (0, some k) ∧ eKind k = k ∧ qpDraining s 0 0 = false ∧ checkEntry s 0 k = none ∧ puRoom s (homeOfCi s (eCi k)) = true ∧
        cancelTarget s 0 (eCi k) (eAir k) = none ∧ carryFind s 0 (eCi k) (fld k 64 32) = none) ∧
    qpDraining (fetched .draining (entryOf 1) none owned0) 0 0 = true ∧
    checkEntry (fetched .enabled (entryOf 1) none State.reset) 0 1 = some 0x03 ∧
    fetchedEntry (fetched .enabled (entryOf 1) (some .timeout) owned0) 0 0 = some (0, none) ∧
    (∀ st ∈ [GState.checking, .running], let s := { owned0 with work := { owned0.work with graphs := [{ checking0 with st := st }] } }
      cancelTarget s 0 0 0 = some { checking0 with st := st } ∧ graphOf s 0 = some { checking0 with st := st } ∧ checking0.cancelled = false) ∧
    (let c : Carry := { ci := 0, tenant := 0, key := 0, size := 64, home := { tier := 3, block := 0, addr := dramBase } }
     carryFind { owned0 with work := { owned0.work with carries := [c] } } 0 0 0 = some c) ∧
    (let s := { State.reset with work := { State.reset.work with graphs := [checking0] } }
     graphOf s 0 = some checking0 ∧ checking0.ready = false ∧ checking0.jobs = [] ∧ readOp s (.graphFetch 0 1) = none ∧
      readOp s (.graphFetch 0 2) = none ∧
      fetchPart { s with host := { s.host with reads := [graphRead 0 [] (some .timeout)] } } 0 0 = some none ∧
      fetchPart { s with host := { s.host with reads := [graphRead 0 [1, 2] none] } } 0 0 = some (some [1, 2]) ∧
      hNJobs headerNum = 1 ∧ hNBufs headerNum = 1 ∧ checkHeader s checking0 0 = some 0x06 ∧
      checkHeader (holding [(kTeLeadTime 0, 0), (kCiCiConfig 0, 4 * 2 ^ 8 + 1)] s) checking0 headerNum = none) ∧
    (let g := { checking0 with jobs := [{ op := 0x100 }], bufs := [] }
     graphReadsOver { State.reset with work := { State.reset.work with graphs := [g] } } 0 = true ∧
      checkBlocks State.reset g g.jobs g.bufs (gatherBlocks State.reset g).1 = none) := by decide +kernel

/-- Placement unit 0 with a plan for the graph it places. -/
def placing0 (p : Plan) (validate : Bool) : State :=
  { State.reset with work := { State.reset.work with graphs := [{ checking0 with ready := true, validateOnly := validate }], pus := [(0, { placing := some (0, p) })] } }
theorem witness_PlacementAndRoles :
    (let g : Graph := { checking0 with ready := true }
     let s := { State.reset with work := { State.reset.work with graphs := [g] } }
     (puQueue s 0).head? = some g ∧ (puOf s 0).placing = none ∧ g.ready = true ∧ heldFlow s g = none ∧
      (let g1 : Graph := { g with jobs := [{ flow := 7 }] }
       heldFlow (holding [(kTeFlowLimit 0, 0)] { s with work := { s.work with graphs := [g1] } }) g1 = some 7) ∧ (puOf s 0).held ≠ some (0, 7)) ∧
    (puOf (placing0 { refused := some (7, 0, 0) } false) 0).placing = some (0, { refused := some (7, 0, 0) }) ∧
    (puOf (placing0 {} false) 0).wantsToken = false ∧
    (∀ v ∈ [false, true], let s := placing0 {} v; let g : Graph := { checking0 with ready := true, validateOnly := v }
      graphOf s 0 = some g ∧ recheck s g = none ∧ planHolds s g {} = true ∧ flowLack s g = none) ∧
    (let l : Plan := { jobs := [{ p := { num := 0, shares := [{ unit := 1, start := 0, fin := 100 }] } }] }
     planHolds { placing0 l false with work := { (placing0 l false).work with units := [(1, { fenced := true })] } }
      { checking0 with ready := true } l = false) ∧
    (let s := { placing0 {} false with work := { (placing0 {} false).work with tokenQueue := [0] } }
     s.work.tokenQueue = [0] ∧ (puOf s 0).placing = some (0, {})) ∧
    (let s := { State.reset with work := { State.reset.work with votes := [(3, 0, 10, 1, 0), (4, 5, 10, 1, 5)] } }
     (3, 0, 10, 1, 0) ∈ s.work.votes ∧ 0 ≤ now s ∧ now s < 10 ∧ (4, 5, 10, 1, 5) ∈ s.work.votes ∧ now s < 5) ∧
    (let s := { State.reset with work := { State.reset.work with units := [(1, { nextRole := some (mkRole 2 true 0 0) })] } }
     (unitSt s 1).nextRole = some (mkRole 2 true 0 0) ∧ roleDue s 1 = true ∧ roleWord s 1 ≠ mkRole 2 true 0 0 ∧
      roleDue { s with work := { s.work with units := [(1, { nextRole := some 0, lastChange := some 0 })] } } 1 = false) := by decide +kernel
theorem witness_PlacementAndRoles_templates :
    rdB (holding [(kPlTemplatesEnable, 0)] State.reset) kPlTemplatesEnable = false ∧
    rdB (holding [(kPlTemplatesEnable, 1)] State.reset) kPlTemplatesEnable = true ∧
    (4 : Byte) ≠ 0 ∧ (4 : Byte).toNat ≤ 4 ∧ 4 < (5 : Byte).toNat ∧ 1 < (2 : Byte).toNat := by decide +kernel

/-- A chunk of one quantum of `op` on engine 7, with parameter block `b`: buffers of 64 KiB in T2. -/
def engine0 (op b progress : Nat) (kind : Nat) : State :=
  runs (engUnit 7)
    { graph0 with
      jobs := [{ op := op, units := 1, paramBuf := 4, paramValid := true, paramLen := 64, refs := [(0, 0, 0), (1, 1, 1), (2, 1, 2), (3, 1, 3)] }]
      bufs := [{ kind := 4, size := 65536 }, { kind := 4, size := 65536 }, { kind := 4, size := 65536 }, { kind := 4, size := 65536 }, { kind := kind, size := 64 }]
      homes := [(0, { tier := 2, block := 0, addr := 0 }), (1, { tier := 2, block := 0, addr := 0x10000 }), (2, { tier := 2, block := 0, addr := 0x20000 }),
        (3, { tier := 2, block := 0, addr := 0x30000 })] ++ if kind = 5 then [(4, { tier := 2, block := 0, addr := 0x40000 })] else []
      blocks := [(0, b)]
      rts := [{ p := { num := 0, shares := [{ unit := engUnit 7, n := 1 }] }, st := .running, ran := true, id := some 0, epochs := [0], progress := [progress] }] }
    run0 State.reset
/-- Its chunk, that the parameter block is there and whole, and the addresses of its buffers. -/
def ready0 (s : State) (op : Nat) : Bool :=
  match curChunk s 7 op with
  | some (run, g, r) => !blockPoisoned s g r && !startFails s { e := 7, run := run, g := g, r := r, b := paramBlock s g r } && (jobHole s g r).isNone &&
      run.n == 1 && refAddr g r 1 == some 0x10000 && refAddr g r 2 == some 0x20000 && refAddr g r 3 == some 0x30000
  | none => false
def engineOps : List Nat := [0x010, 0x011, 0x018, 0x020, 0x021, 0x028, 0x030, 0x040, 0x041, 0x048, 0x050, 0x051, 0x058]

theorem witness_EngineChunks :
    (∀ op ∈ engineOps, ready0 (engine0 op 0 0 1) op = true ∧ (curChunk State.reset 7 op).isNone = true) ∧
    (let s := engine0 0x011 0 0 5
     (match curChunk s 7 0x011 with
      | some (run, g, r) => !blockPoisoned s g r && startFails s { e := 7, run := run, g := g, r := r, b := paramBlock s g r } && r.code == 0
      | none => false) = true) ∧
    (let s := engine0 0x011 0 1 5
     let s1 := { s with work := { s.work with graphs := s.work.graphs.map fun g => { g with homes := [(1, { tier := 2, block := 0, addr := 0x04000000 })] } } }
     (match curChunk s1 7 0x011 with
      | some (_, g, r) => jobHole s1 g r
      | none => none) = some 0x04000000) := by decide +kernel

/-! Results of the engines, objects of tenants and programs, machine-access receivers. -/
/-- What an engine reads for its chunk holds no poison. -/
def readsWhole (s : State) (op b ofs n : Nat) : Bool :=
  match curChunk s 7 op with
  | some (run, g, r) => !({ e := 7, run := run, g := g, r := r, b := b : Chunk }.read 0 ofs n s).2
  | none => false
theorem witness_CodingResults :
    (∀ op ∈ engineOps, ready0 (engine0 op 0 0 1) op = true) ∧ Memory.wf (engine0 0 0 0 1).mem = true ∧
    (∀ op ∈ [0x010, 0x018, 0x020, 0x028], readsWhole (engine0 op 0 0 1) op 0 0 1024 = true) ∧
    (1 + ceilDiv 8448 8 ≤ 2000 ∨ 2000 + 16 ≤ 1) ∧
    (∀ p ∈ [(3, 0), (0, 0), (1, 1), (2, 1), (2, 0)], hqcOp (pack [(320, 2, p.1)]) 0 = p.1) ∧ bitAt 0 1 = false ∧ bitAt 0 2 = false ∧
    (let h := pack [(0, 1, 1), (16, 9, 0), (64, 64, 5)]
     sbAct 3 6 (hdrCi h) h = .release ∧ sbAct 2 (hdrAir h) (hdrCi h) h = .combineOnly ∧ sbAct 2 0 0 0 = .outputOnly ∧
      sbAct 1 (hdrAir h) (hdrCi h) h = .combine ∧ sbAct 0 0 0 0 = .store ∧ sbAct 0 0 (hdrCi h + 1) h = .mismatch ∧
      sbAct 0 (hdrAir h - 1) (hdrCi h) h = .order ∧ 0 < hdrAir h) := by decide +kernel
theorem witness_SignalResults :
    (∀ op ∈ [0x040, 0x041, 0x048, 0x050, 0x051, 0x058], ready0 (engine0 op 0 0 1) op = true) ∧
    (match curChunk (engine0 0x048 0 0 1) 7 0x048 with
      | some (run, g, r) => ({ e := 7, run := run, g := g, r := r, b := 0 } : Chunk).last
      | none => false) = true ∧
    (match curChunk { engine0 0x048 0 0 1 with work := { (engine0 0x048 0 0 1).work with
        graphs := (engine0 0x048 0 0 1).work.graphs.map fun g => { g with rts := [{ p := { num := 0, shares := [{ unit := engUnit 7, n := 2 }] }, st := .running }] } } } 7 0x048 with
      | some (run, g, r) => ({ e := 7, run := run, g := g, r := r, b := 0 } : Chunk).last
      | none => true) = false ∧ bitAt 0 6 = false ∧ bitAt 0 7 = false := by decide +kernel

theorem witness_CodingObjectsAndFence :
    (∀ c ∈ [(1 : Byte), 32], 1 ≤ c.toNat ∧ c.toNat ≤ 32) ∧ (511 : BitVec 16).toNat < 512 ∧ 512 ≤ (512 : BitVec 16).toNat ∧ 32 < (33 : Byte).toNat ∧
    (let s := holding [(kEnSbCount, 100), (kEnSbQuota, 0), (kEnSbBase, 0), (kEnSbNcbMax, 25344)] State.reset
     (span (sbFirst s 3) (sbQuota s 3)).any (slotValid s) = false ∧ lowestRun s 3 10 = some 0 ∧ lowestRun s 3 101 = none ∧ lowestRun s 3 0 = some 0 ∧
      rd s kEnSbQuota = 0) ∧
    (let s := holding [(kEnSbCount, 100), (kEnSbQuota, 4 * 2 ^ 96), (kEnSbBase, 0), (kEnSbNcbMax, 1024), (kDrCapacity, 2 ^ 33), (kIdBucketsMaxNow, 4096)]
       { State.reset with work := { State.reset.work with sbRanges := [(3, 0, 4)] } }
     sbQuota s 3 = 4 ∧ slotsFree s 3 0 100 = true ∧ slotsFree s 3 0 101 = false) ∧
    (1024 ≤ 25344 ∧ 25344 % 128 = 0 ∧ 1024 % 128 = 0) ∧
    (unitSt State.reset 5).fenced = false ∧
      (unitSt { State.reset with work := { State.reset.work with units := [(5, { fenced := true })] } } 5).fenced = true := by decide +kernel

theorem witness_TenantObjects :
    (tenantState (holding [(kTeState 3, 0)] State.reset) 3 = 0 ∧ fnEnabled State.reset 3 = false) ∧
    (∀ v ∈ [1, 2], tenantState (holding [(kTeState 3, v)] State.reset) 3 = v) ∧
    (let s := holding [(kTeState 3, 1), (kCiCiConfig 7, 8)] State.reset
     hasGraphs s 3 = false ∧ hasGraphs { s with work := { s.work with graphs := [{ graph0 with tenant := 3 }] } } 3 = true ∧
      ciTenant s 7 = none ∧ ciValid (ciDesc s 7) = true ∧ ciValid (ciDesc (holding [(kCiCiConfig 7, 0)] s) 7) = false ∧ s.dict.pendingRecords = [] ∧
      ciTenant { s with work := { s.work with ciOwner := [(7, 3)] } } 7 = some 3) ∧
    (let loc := locEngine 7
     let s := { State.reset with work := { State.reset.work with ciOwner := [(7, 3)] } }
     locValid loc = true ∧ unitOf loc = some (engUnit 7) ∧ (unitSt s (engUnit 7)).fenced = false ∧ roleFn (roleSoon s (engUnit 7)) = 0 ∧
      roleShared (roleSoon s (engUnit 7)) = true ∧ ciTenant s 7 = some 3 ∧ locValid 0 = false ∧
      (let s1 := { s with work := { s.work with units := [(engUnit 7, { nextRole := some (mkRole 0 false 7 3) })] } }
       roleShared (roleSoon s1 (engUnit 7)) = false ∧ roleTenant (roleSoon s1 (engUnit 7)) = 3)) := by decide +kernel
theorem witness_TenantObjects_budgets : let s := holding [(kTeFlowLimit 3, 4)] State.reset
    rd s (kTeFlowLimit 3) = 4 ∧ (5 : BitVec 16).toNat ≤ 1024 ∧ 1024 < (1025 : BitVec 16).toNat ∧ rd s (kTeFlowLimit 3) < (1025 : BitVec 16).toNat ∧
      (4 : BitVec 16).toNat ≤ rd s (kTeFlowLimit 3) := by decide +kernel

def progWord : Nat := pack [(16, 1, 1)]
theorem witness_ProgramsAndMaintenance :
    (let s := holding [(kPtEntrySelect, 3), (kDrCapacity, 2 ^ 33)] State.reset
     s.dict.loadReplies = [] ∧ entryUsed s 3 = false ∧
      entryUsed { s with work := { s.work with graphs := [{ graph0 with jobs := [{ op := 0x103 }] }] } } 3 = true ∧ pValid progWord = true ∧
      pValid 0 = false ∧ progReservedOk progWord = true ∧ progReservedOk 0 = true ∧ progReservedOk (2 ^ 511) = false ∧
      entryFits (putEntry 3 (pack [(16, 1, 1), (192, 64, dramBase)]) s) (pack [(16, 1, 1), (192, 64, dramBase)]) = true ∧
      entryFits (putEntry 3 progWord s) progWord = false) ∧
    (let s := { State.reset with work := { State.reset.work with units := [(5, { reload := true })] } }
     needsLoad s 5 = true ∧ (unitSt s 5).cur = none ∧ (unitSt s 5).ctx = [] ∧ (unitSt s 5).fenced = false ∧ roleFn (roleWord s 5) ≤ 1 ∧
      needsLoad State.reset 5 = false ∧ residents s 0 = []) ∧
    (let s := { State.reset with work := { State.reset.work with progs := [(3, pack [(16, 1, 1), (48, 12, 4095), (256, 32, 16), (288, 32, 256)])] } }
     codeBytes s 0 ≤ 122880 ∧ staticBytes s 0 ≤ 98304) ∧
    (let s := holding [(kPlSageRole 5, mkRole 0 true 0 0)] State.reset
     (unitSt s 5).fenced = false ∧ roleFn (roleSoon s 5) = 0 ∧ roleFn (roleWord s 5) = 0 ∧ roleShared (roleSoon s 5) = true) ∧
    (let s := { maint0 with work := { maint0.work with units := [(0, { task := some .maintenance })] } }
     roleFn (roleWord s 0) = 1 ∧ (unitSt s 0).task = some .maintenance ∧ needsLoad s 0 = false) := by decide +kernel

/-! Machine-access receivers and the identity table. -/
/-- A class S binding of tenant 3 on MAR 1: one AxC of one channel, PRE_MAX 16, KEY_LEN 8, MAX_PSDU 255. -/
def bindS : Nat := pack [(8, 2, 1), (16, 9, 7), (32, 10, 5), (48, 6, 1), (64, 8, 1), (112, 11, 1), (144, 32, 470000), (232, 10, 16), (256, 4, 8), (288, 11, 255)]
/-- A class E binding on MAR 1. -/
def bindE : Nat := pack [(0, 1, 1), (8, 2, 1), (16, 9, 7), (32, 10, 5), (48, 6, 1), (64, 8, 1), (112, 11, 1)]
def bound0 (b : Binding) : State := { State.reset with
  radio := { State.reset.radio with bindings := [(12, b)], axcs := [(5, pack [(0, 1, 1), (32, 9, 7)])] }
  work := { State.reset.work with ciOwner := [(7, 3)] } }
theorem witness_ReceiverBindings :
    (let s := holding [(kCiCiConfig 7, 4)] (bound0 {})
     (0 : Byte).toNat < 4 ∧ (bindOf s 12).state = .free ∧ descFieldsOk bindS = true ∧ ciTenant s (bindCi bindS) = some 3 ∧ classAirOk s bindS = true ∧
      axcsBound s bindS = true ∧ marLimitsOk s bindS = true ∧ bSpoolBytes bindS = 2 ^ 20) ∧
    ((bindOf (bound0 { state := .active, desc := bindS }) 12).state = .active) ∧
    (let s := bound0 { state := .active, desc := bindE }
     let r := pack [(0, 3, 0), (7, 1, 1), (32, 32, 10), (120, 7, 12), (240, 3, 1)]
     bClassE (bindOf s 12).desc = true ∧ bitAt r 7 = true ∧ resourceOk bindE r = true ∧ resourceOk bindE (setFld r 32 32 11) = false ∧
      tfind 63 (bindOf s 12).resources = none ∧ (marBindings s (bMar bindE)).foldl (fun c e => c + e.2.resources.length) 0 < 256) ∧
    (idtStopped (holding [(kIdRebuildState, 0), (kIdEntries, 0)] State.reset) = true ∧ idtStopped (holding [(kIdEntries, 1)] State.reset) = false ∧
      ∀ v ∈ [4096, 524288], v = 2 ^ Nat.log2 v) ∧
    rebuilding (holding [(kIdRebuildState, 0)] State.reset) = false ∧ rebuilding (holding [(kIdRebuildState, 1)] State.reset) = true := by decide +kernel
/-- A spool fits where the identity region has room for it (log 11: its size is open). -/
theorem witness_ReceiverBindings_spool (h : 2 ^ 20 ≤ Config.spoolArea) : spoolPlace (bound0 {}) (bSpoolBytes bindS) = some 0 := by
  have h0 : bSpoolBytes bindS = 2 ^ 20 := by decide +kernel
  rw [h0]; simp [spoolPlace, spoolFree, bound0, sortBy, insertBy, State.reset]; simpa using h

def active (ch : Chan) (l : List Burst) : State :=
  let s := holding [(kMaLookupQueue 1, 4)] (bound0 { state := .active, desc := bindS, chans := [(0, ch)] })
  { s with radio := { s.radio with bursts := l } }
def burst0 : Burst := { num := 0, mar := 1, tenant := 3, slot := 0, source := 0, ns := 0, start := 0 }
theorem witness_ReceiverBursts :
    (chanOf (active {} []) 12 0).isSome = true ∧ chanOf (active {} []) 12 1 = none ∧ chanOf State.reset 12 0 = none ∧
    (∀ p ∈ [ChanPhase.search, .preamble, .frame], let ch : Chan := { phase := p }
      chanOf (active ch []) 12 0 = some ({ state := .active, desc := bindS, chans := [(0, ch)] }, ch)) ∧
    (preambleTc bindS ≤ now { active {} [] with tim := { (active {} []).tim with dtc := preambleTc bindS } }) ∧
    (sfdMatch bindS 0x904E = some (false, 0) ∧ sfdMatch bindS 0 = none ∧ now (active {} []) ≤ 0 + preambleTc bindS) ∧
    (∀ n ∈ [1, 255], fld (pack [(0, 11, n)]) 0 11 ≤ bMaxPsdu bindS ∧ n ≠ 0) ∧ bMaxPsdu bindS < fld (pack [(0, 11, 256)]) 0 11 ∧
      spoolUsed {} + 64 ≤ bSpoolBytes bindS ∧
    (let s := active { phase := .frame, phr := some 255 } [burst0]
     bKeyOfs bindS + bKeyLen bindS ≤ fld 255 0 11 ∧ s.radio.bursts.find? (fun x => x.num == 0) = some burst0 ∧ burst0.lookup = .none ∧
      lookupDepth s 1 < rd s (kMaLookupQueue 1)) ∧
    (let s := active {} [{ burst0 with lookup := .queued }]
     s.radio.bursts.find? (fun x => x.mar == 1 && x.lookup == .queued && beforeDeadline s x) = some { burst0 with lookup := .queued } ∧
      marRuns s 1 = true ∧ rebuilding (holding [(kIdRebuildState, 0)] s) = false ∧ (s.radio.bursts.map (·.num)).Nodup) ∧
    (let r := pack [(0, 3, 0), (7, 1, 1), (32, 32, 10), (120, 7, 12), (240, 3, 1)]
     let s := bound0 { state := .active, desc := bindE, resources := [(0, r)] }
     tfind 0 (bindOf s 12).resources = some r ∧ occasionStart (ciOfs (ciDesc (holding [(kCiCiConfig 7, 2)] s) 7)) r (now s) = some 0 ∧
      tfind 1 (bindOf s 12).resources = none) := by decide +kernel

/-- A table of one bucket with one entry. -/
def idt0 : State := holding [(kIdBuckets, 1), (kIdNewBuckets, 1), (kIdRebuildState, 0), (kTeIdtQuota 3, 4)] { State.reset with
  work := { State.reset.work with graphs := [{ graph0 with tenant := 3 }], units := [(engUnit (marEngine 0), { cur := some run0 })] }
  radio := { State.reset.radio with
    idtCur := [(0, { key := 9, ns := 1, tenant := 3, sid := 0, user := [] })], sids := [(0, { gen := 0, inUse := true })] } }
def cmd0 (op : Nat) (key : Nat) : UpdCmd := { gid := 0, num := 0, eng := marEngine 0, idx := 0, cmd := pack [(0, 3, op), (64, 64, key), (16, 16, 1)] }
theorem witness_IdentityTable_commands :
    (∀ op ∈ [0, 2], let s := { idt0 with radio := { idt0.radio with commands := [cmd0 op 9] } }
      nextCommand s = some (cmd0 op 9) ∧ commandOp (cmd0 op 9).cmd = some op ∧ (graphOf s 0).map (·.tenant) = some 3 ∧ rebuilding s = false) ∧
    (let s := idt0
     idtHeld s (fun e => e.tenant == 3) < rd s (kTeIdtQuota 3) ∧ freeSid s = some 1 ∧
      tget s.radio.sids (sidIndex 0) {} = { gen := 0, inUse := true } ∧ (findSid s 3 0).isSome = true) := by decide +kernel
theorem witness_IdentityTable_places (t ns key : Nat) : candidates idt0 false t ns key = [0] ∧ candidates idt0 true t ns key = [0] := by
  have h : idtBuckets idt0 false = 1 ∧ idtBuckets idt0 true = 1 := by decide +kernel
  simp [candidates, h.1, h.2, Nat.mod_one]; decide
theorem witness_IdentityTable_find : idtFind idt0 false 3 1 9 = some 0 ∧ idtFind idt0 false 3 1 8 = none ∧ idtFree idt0 false 3 1 8 = some 1 ∧
    idtFind idt0 true 3 1 9 = none := by
  have h1 : candPlaces idt0 false 3 1 9 = span 0 8 := by simp [candPlaces, (witness_IdentityTable_places 3 1 9).1]
  have h2 : candPlaces idt0 false 3 1 8 = span 0 8 := by simp [candPlaces, (witness_IdentityTable_places 3 1 8).1]
  have h3 : candPlaces idt0 true 3 1 9 = span 0 8 := by simp [candPlaces, (witness_IdentityTable_places 3 1 9).2]
  simp only [idtFind, idtFree, h1, h2, h3]
  decide +kernel
/-- A job on the engine of a receiver. -/
def marJob (b : Nat) : State :=
  runs (engUnit (marEngine 1)) { graph0 with
      jobs := [{ op := 0x060, units := 1, paramBuf := 4, paramValid := true, paramLen := 64, refs := [(0, 0, 0), (2, 1, 1)] }], bufs := [{ kind := 4, size := 65536 }, { kind := 4, size := 65536 }]
      blocks := [(0, b)], rts := [{ p := { num := 0, shares := [{ unit := engUnit (marEngine 1), n := 1 }] }, st := .running, ran := true }] }
    run0 State.reset
def marReady (update : Bool) : Bool :=
  match marChunk (marJob (b2n update)) 1 update with
  | some x => !blockPoisoned (marJob (b2n update)) x.g x.r && !startFails (marJob (b2n update)) x && (jobHole (marJob (b2n update)) x.g x.r).isNone && x.last &&
      (refAddr x.g x.r (x.buf 2)).isSome
  | none => false
theorem witness_IdentityTable_jobs : (∀ u ∈ [false, true], marReady u = true) ∧ (marChunk State.reset 1 true).isNone = true ∧
    commandOp 0 = some 0 ∧ (marJob 1).radio.commands = [] := by decide +kernel
theorem witness_IdentityTable_rebuild :
    (∀ v ∈ [1, 2, 3], rd (holding [(kIdRebuildState, v)] idt0) kIdRebuildState = v) ∧
    (let s := { idt0 with tim := { idt0.tim with dtc := secToTc 1 } }; s.radio.stallAt + secToTc 1 ≤ now s) ∧
    (∀ j < 8, rangePoisoned idt0 (idtLine idt0 false 0 j) 64 = false) ∧
    (let s := { idt0 with work := { idt0.work with graphs := [], units := [] } }
     (∀ m < 4, (unitSt s (marUnit m)).cur = none) ∧ s.work.graphs = []) ∧
    (let s := holding [(kIdSequencer, locEngine (marEngine 0))] { State.reset with work := { State.reset.work with units := [(marUnit 0, { fenced := true })] } }
     inService s (marUnit (sequencerMar s)) = false ∧ (upto 4).find? (fun m => inService s (marUnit m)) = some 1 ∧ (unitSt s (marUnit 1)).cur = none) := by
  decide +kernel

/-! Serial lanes and fronthaul ports. -/
def later (t : Nat) (s : State) : State := { s with tim := { s.tim with dtc := t } }
def laneIn (st : Nat) (l : LaneSt) : State := holding [(kLaState 5, st), (kLaRate 5, 14)] { State.reset with links := { State.reset.links with lanes := [(5, l)] } }
theorem witness_LaneSettings :
    (laneState State.reset 5 = 0 ∧ portOfLane State.reset 5 = none ∧ laneState (laneIn 2 {}) 5 = 2) ∧
    (∀ v ∈ [0, 12, 14], v ≤ 14 ∧ (v = 0 ∨ 12 ≤ v ∨ 5 % 16 < 8)) ∧ ¬(1 = 0 ∨ 12 ≤ 1 ∨ 9 % 16 < 8) ∧
    ((upto 4).foldl (fun a j => a + (if j = 2 then (63 : Int) else laneTap (holding ((upto 4).map fun i => (kLaTap 5 i, 0)) State.reset) 5 j).natAbs) 0 = 63) ∧
    (let s := holding [(kLaDfeMode 5, 0)] (laneIn 2 {}); laneState s 5 = 2 ∧ rd s (kLaDfeMode 5) = 0) ∧
    (let s := holding [(kLaCalRecord 5, 0), (kLaLinkFlags 5, 0), (kLaWinSupply 5, 1)] (laneIn 2 {})
     laneStaleBits s 5 100 ≠ 0 ∧ bitAt (rd s (kLaLinkFlags 5)) 4 = false) ∧
    (let s := later (secToTc 60) (holding [(kLaLinkFlags 5, 0)] (laneIn 2 {}))
     laneState s 5 = 2 ∧ bitAt (rd s (kLaLinkFlags 5)) 5 = false ∧ (laneOf s 5).lastCapture + secToTc 60 ≤ now s) ∧
    (let s := later (secToTc 10) (laneIn 2 { staleSince := some 0 })
     (laneOf s 5).staleSince.isSome = true ∧ (laneOf s 5).failedAt = none ∧ (laneOf s 5).staleSince.getD 0 + secToTc 10 ≤ now s) ∧
    (let s := later (recentreTime 14) (laneIn 2 { recentring := some 0 })
     (laneOf s 5).recentring = some 0 ∧ 0 + recentreTime (laneRate s 5) ≤ now s) := by decide +kernel
def scanP : Nat := pack [(8, 8, 20), (16, 8, 0), (24, 8, 0), (32, 8, 1), (40, 8, 0), (48, 8, 0), (56, 8, 1)]
theorem witness_LaneScansAndPatterns :
    (let s := holding [(kScScanState 5, 0)] (laneIn 2 {}); laneState s 5 = 2 ∧ rd s (kScScanState 5) ≠ 1 ∧ scanParamsOk 14 scanP = true ∧ scanParamsOk 14 0 = false) ∧
    (∀ n ∈ [1, 2], let c : Scan := { params := scanP, cols := n, rows := 1, eyes := 1, start := 0 }
      let s := later (uiTc 14 (2 ^ 20) + usToTc 1) (laneIn 2 { scan := some c })
      (laneOf s 5).scan = some c ∧ c.running = true ∧ (laneOf s 5).recentring = none ∧
        c.pointAt + uiTc (laneRate s 5) (2 ^ scanDwell c.params) + usToTc 1 ≤ now s ∧
        ((c.counts ++ [0]).length < c.cols * c.rows * c.eyes ↔ n = 2)) ∧
    ((laneOf (laneIn 2 {}) 5).scan.any (·.running)) = false ∧
    (let s := holding [(kPoMode 4, 7)] (laneIn 2 {}); portOfLane s 5 = some 4 ∧ 1 < modeLanes (rd s (kPoMode 4))) ∧
    rdB (holding [(kLaAmLocked 5, 1)] State.reset) (kLaAmLocked 5) = true ∧ rdB (holding [(kLaAmLocked 5, 0)] State.reset) (kLaAmLocked 5) = false ∧
    (let s := holding [(kLaPrbsChk 5, 1)] (laneIn 2 {}); rd s (kLaPrbsChk 5) ≠ 0 ∧ laneState s 5 = 2) := by decide +kernel
theorem witness_LaneStates :
    (∀ st ∈ [0, 1, 2, 3, 4, 5], laneState (laneIn st {}) 5 = st ∧ laneBound (laneIn st {}) 5 = false) ∧
    laneRate (holding [(kLaRate 5, 0)] (laneIn 0 {})) 5 = 0 ∧ laneRate (laneIn 0 {}) 5 ≠ 0 ∧ laneFenced (laneIn 0 {}) 5 = false ∧
    (∀ x ∈ [4, 5], let s := later (nsToTc 10100) (laneIn 3 { target := x })
      (laneOf s 5).target = x ∧ (laneOf s 5).since + nsToTc 10100 ≤ now s ∧ (laneOf s 5).due ≤ now s ∧ (laneOf s 5).held = none) ∧
    (∀ r ∈ [3, 4], rdB (holding [(kReEnable r, 0)] (laneIn 2 {})) (kReEnable r) = false) ∧
    (∀ b ∈ [0, 1], bitAt (rd (holding [(kLaLinkFlags 5, b)] (laneIn 1 {})) (kLaLinkFlags 5)) 0 = decide (b = 1)) ∧
    (let s := holding [(kPoMode 5, 2)] { laneIn 2 {} with radio := { State.reset.radio with axcs := [(0, pack [(0, 1, 1), (8, 6, 5)])] } }
     laneBound s 5 = true) := by decide +kernel
theorem witness_LaneStates_now : ∃ l : LaneSt, l.due ≤ now (laneIn 3 l) := ⟨{}, by decide +kernel⟩

/-- A port in a mode and state. -/
def port4 (mode st : Nat) : State := holding [(kPoMode 4, mode), (kPoState 4, st), (kPoEncap 4, 0), (kPoMacAddr 4, 5), (kPoVlanId 4, 7)] (laneIn 2 {})
theorem witness_PortObjects :
    (portBound (port4 0 0) 4 = false ∧ (∀ x ∈ portLanes (port4 0 0) 4 ++ modeTakes 4 0, x < 64 → laneState (port4 0 0) x = 0) ∧ portState (port4 0 0) 4 ≠ 2 ∧
      4 % modeLanes 0 = 0 ∧ 4 % modeLanes 7 = 0 ∧ 6 % modeLanes 7 ≠ 0) ∧
    (let s := holding [(kLaState 4, 2)] (port4 2 0)
     portMode s 4 ≠ 0 ∧ portState s 4 = 0 ∧ laneCauses s 4 = 0) ∧
    (portState (port4 2 1) 4 = 1 ∧ ((58 &&& 58) ||| laneCauses (port4 2 1) 4) ≠ 0) ∧
    (let d := pack [(0, 1, 1), (1, 1, 1), (3, 2, 0), (8, 6, 4), (16, 10, 9), (32, 9, 7)]
     let s := holding [(kCiCiConfig 7, 8)] { port4 2 0 with work := { State.reset.work with ciOwner := [(7, 3)] } }
     axcFieldsOk d = true ∧ axcAllowed s 4 d = true ∧ axcFieldsOk 0 = false ∧
      (let t := { s with radio := { s.radio with axcs := [(9, d)] } }
       axcBound t 9 = true ∧ axcLane t 9 = 4 ∧ axcInUse t 9 = false ∧
        axcInUse { t with radio := { t.radio with bindings := [(0, { state := .active, desc := pack [(32, 10, 9), (48, 6, 1)] })] } } 9 = true)) := by
  decide +kernel
def frame (eth : Nat) (l : List Byte) : List Byte := toBytes 6 5 ++ toBytes 6 0 ++ beBytes 2 eth ++ l
/-- A U-plane message of one PRB for eAxC 0, and a graph that waits for it. -/
def uMsg : List Byte := beBytes 1 0x10 ++ beBytes 1 0 ++ beBytes 2 60 ++ beBytes 2 0 ++ beBytes 2 0x0080 ++
  ([0x10, 0] ++ beBytes 2 0 ++ beBytes 4 1) ++ List.replicate 48 0
def rxGraph : Graph :=
  { id := 0, tenant := 0, ci := 7, st := .running, cleared := [0]
    bufs := [{ kind := 3, size := 65536, axcFirst := 9, axcCount := 1, symMask := 1 }]
    homes := [(0, { tier := 2, block := 0, addr := 0 })] }
def uPort (kind : Nat) (b : List Byte) : State :=
  let d := pack [(0, 1, 1), (1, 1, 1), (3, 2, kind), (8, 6, 4), (16, 10, 9), (32, 9, 7)]
  holding [(kCiCiConfig 7, pack [(3, 1, 1), (16, 9, 100)]), (kPoCompMethod 4, 0), (kPoCompMant 4, 16), (kPoCompHdr 4, 0)] { port4 2 1 with
    work := { State.reset.work with graphs := [rxGraph] }, radio := { State.reset.radio with axcs := [(9, d)] }
    links := { State.reset.links with msgs := [{ port := 4, kind := kind, arrival := 0, body := b }], streams := [(9, { base := 0, next := 0, samples := [] })] } }
theorem witness_PortReception :
    (2 ≤ portMode (port4 2 1) 4 ∧ portState (port4 2 1) 4 = 1 ∧ 14 ≤ (frame 0x8809 []).length ∧ slice (frame 0x8809 []) 0 6 = toBytes 6 (rd (port4 2 1) (kPoMacAddr 4)) ∧
      slice (frame 0x8809 []) 0 6 ≠ toBytes 6 6) ∧
    (let f := frame 0x8100 (beBytes 2 8)
     beAt f 12 2 = 0x8100 ∧ rd (port4 2 1) (kPoVlanId 4) ≠ 0xFFFF ∧ rd (port4 2 1) (kPoVlanId 4) ≠ beAt f 14 2 % 4096) ∧
    (let f := frame 0x8809 (beBytes 1 0x0A); beAt f 12 2 = 0x8809 ∧ beAt f 14 1 = 0x0A) ∧
    (let f := frame 0xAEFE uMsg
     beAt f 12 2 = 0xAEFE ∧ rd (port4 2 1) (kPoEncap 4) = 0 ∧ ecpriSplit (f.length - 13) (f.drop 14) = some [uMsg] ∧ beAt uMsg 1 1 = 0 ∧ beAt uMsg 7 1 = 0x80) ∧
    (let s := uPort 0 uMsg
     (takePortMsg 4 0 (fun _ => true) s).isSome = true ∧ (takePortMsg 4 1 (fun _ => true) s).isNone = true ∧ (axcOfRx s 4 0).map (·.1) = some 9 ∧
      axcOfRx s 4 1 = none) := by decide +kernel
theorem witness_PortReception_section : let s := uPort 0 uMsg
    let hd := uMsg.drop 8
    let x := beAt hd 2 2
    4 ≤ hd.length ∧ beAt hd 0 1 = 16 ∧
    ((usections (rd s (kPoCompMethod 4)) (rd s (kPoCompMant 4)) (rdB s (kPoCompHdr 4)) (ciSubcarriers (ciDesc s 7) true / 12) 16 (fld x 0 6) (hd.drop 4)).map
      fun l => l.map fun y => (y.ok, y.start, y.count, y.sym)) = some [(true, 0, 1, 0)] ∧
    rxBuffers s 9 0 0 (fun g => g.ci == 7 && graphSfn s g % 256 == beAt hd 1 1 && graphSlotId s g == (fld x 12 4, fld x 6 6)) = [(rxGraph, 0)] ∧
    nsToTc 500 ≤ rxClose s 7 0 0 0 9 0 ∧ 0 < fhPrbs s rxGraph (bufD rxGraph 0) 9 ∧ graphOf s 0 = some rxGraph ∧ rxGraph.cleared.contains 0 = true ∧
    fhOffset s rxGraph (bufD rxGraph 0) 9 0 = some 0 := by decide +kernel
theorem witness_PortReception_time :
    (let b := beBytes 1 0x10 ++ beBytes 1 2 ++ beBytes 2 16 ++ beBytes 2 0 ++ beBytes 2 0 ++ List.replicate 12 0
     let s := uPort 1 b
     (takePortMsg 4 1 (fun _ => true) s).isSome = true ∧ 8 ≤ (b.drop 8).length ∧ (b.drop 8).length % 4 = 0 ∧ beAt (b.drop 8) 0 2 < 1024 ∧
      beAt (b.drop 8) 2 4 < frameSamples 0 ∧ (tfind 9 s.links.streams).isSome = true ∧ (0 + streamMod 0 - 0) % streamMod 0 = 0) ∧
    (let s := { holding [(kPoMode 4, 1)] (uPort 2 []) with links := State.reset.links }
     portMode s 4 = 1 ∧ portState s 4 = 1 ∧ cpriAxcs s 4 = [9] ∧ tfind 9 s.links.streams = none) := by decide +kernel
theorem witness_PortTransmission :
    (let s := later (2 * secToTc 1) (uPort 0 [])
     (rxBuffers s 9 0 0 fun g => g.ci == 7 && g.air == 0) = [(rxGraph, 0)] ∧ rxClose s 7 0 0 0 9 0 ≤ now s ∧ now (uPort 0 []) < rxClose (uPort 0 []) 7 0 0 0 9 0 ∧
      graphOf s 0 = some rxGraph ∧ aForm (axcDesc s 9) = 0) ∧
    (let g : Graph := { rxGraph with bufs := [{ kind := 4, size := 65536, axcFirst := 9, axcCount := 1, symMask := 1 }] }
     ∀ f ∈ [0, 2], let s := { uPort f [] with work := { State.reset.work with graphs := [g] } }
      txDue s 0 0 9 0 = some g ∧ txDue s 0 0 9 1 = none ∧ axcBound s 9 = true ∧ axcCi (axcDesc s 9) = 7 ∧ portState s (axcLane s 9) = 1 ∧
        aForm (axcDesc s 9) = f ∧ producedBy g 0 0 = true ∧ producedBy { g with jobs := [{ refs := [(0, 1, 0)] }] } 0 0 = false) ∧
    (let s := uPort 0 []
     let g := rxGraph
     g.st = .running ∧ g.cancelled = false ∧ g.stale = false ∧ (bufD g 0).kind = 3 ∧ (axcsOf (bufD g 0)).contains 9 = true ∧ (bufD g 0).secClass ≠ 1 ∧
      bitAt (bufD g 0).symMask 0 = true ∧ g.cplane.contains (0, 16 * 9 + 0) = false ∧ rxSymStart (ciDesc s 7) 0 0 0 ≤ now s + nsToTc (rd s (kPoCpAdvMax 4))) ∧
    (∀ a ∈ [0, 1, 2, 3, 4, 5], let b := beBytes 1 0x10 ++ beBytes 1 5 ++ beBytes 2 20 ++ beBytes 1 3 ++ beBytes 1 a ++ List.replicate 18 0
      (takePortMsg 4 2 (fun b => [a].contains (beAt b 5 1)) { uPort 0 [] with links := { State.reset.links with msgs := [{ port := 4, kind := 2, arrival := 0, body := b }] } }).isSome = true ∧
        owdmId b = 3) ∧
    rdB (holding [(kPoEsmcTx 4, 1)] (port4 2 1)) (kPoEsmcTx 4) = true ∧ rdB (holding [(kPoEsmcTx 4, 0)] (port4 2 1)) (kPoEsmcTx 4) = false := by
  decide +kernel

/-! Time, power, clocks, sleep. -/
theorem witness_TimeCorrections :
    (let s := { State.reset with work := { State.reset.work with ciOwner := [(7, 3)], graphs := [{ graph0 with ci := 7 }] } }
     anyCiActive (holding [(kCiCiConfig 7, 8)] s) = true ∧ anyCiActive State.reset = false) ∧
    (slewRemain (holding [(kTiSlewRemain, 2 ^ 64 - 5)] State.reset) = -5 ∧ slewRemain (holding [(kTiSlewRemain, 0)] State.reset) = 0 ∧
      coreOn State.reset = true ∧ State.reset.tim.slewAcc < 50000) ∧
    (∀ b ∈ [0, 1], rdB (holding [(kReEnable 0, b)] State.reset) (kReEnable 0) = decide (b = 1)) ∧
    (selected (holding [(kTiSelected, 0)] State.reset) = 0 ∧ selected (holding [(kTiSelected, 15)] State.reset) ≠ 0 ∧ refIsPhase 0 = true ∧
      State.reset.tim.measure = none ∧ rdI (holding [(kTiUtcOffset, 18)] State.reset) kTiUtcOffset 16 = 18) ∧
    (rd (holding [(kTiState, 4)] State.reset) kTiState = 4 ∧ rdI (holding [(kTiCv, 0)] State.reset) kTiCv 32 = 0 ∧
      (1000000 : Word).toInt - 0 ≤ 1000000 ∧ 1000000 < ((1000001 : Word).toInt - 0).natAbs ∧ (50000000 : Word).toInt ≤ 50000000 ∧ 50000000 < (50000001 : Word).toInt) ∧
    (tfind 7 State.reset.work.ciOwner = none ∧ ciReservedOk (pack [(3, 1, 1), (16, 9, 1)]) = true ∧ ciFieldsOk (pack [(3, 1, 1), (16, 9, 100), (32, 3, 5)]) = true ∧
      ciFieldsOk 8 = false ∧ ciReservedOk 16 = false) ∧
    (let s := holding [(kTiPtpTxMask, 16), (kTiPtpPort, 1), (kPoPtpStep 4, 2)] (port4 2 1)
     bitAt (rd s kTiPtpTxMask) 4 = true ∧ rd s kTiPtpPort ≠ 4 ∧ rd s (kPoPtpStep 4) ≠ 0 ∧ portState s 4 = 1) := by decide +kernel
theorem witness_TimingReferences :
    (∀ st ∈ [0, 1, 2, 3, 4, 5], refState (holding [(kReState 2, st)] State.reset) 2 = st) ∧
    (let s := holding ((upto 8).map fun r => (kReState r, 0)) State.reset; othersQualified s 2 = [] ∧ ∀ q < 8, selectable s q = false) ∧
    (let s := holding [(kReState 0, 4), (kRePriority 0, 1)] State.reset; refState s 0 = 4 ∧ rd s (kRePriority 0) = 1) ∧
    (rdI (holding [(kReD 2, 0)] State.reset) (kReD 2) 32).natAbs ≤ disq (holding [(kReDisq 2, 100)] State.reset) 2 ∧
    (rd (holding [(kTiForceRef, 2)] State.reset) kTiForceRef < 8 ∧ refActive (holding [(kReFlags 2, 2)] State.reset) 2 = true ∧
      State.reset.boot.oscFallback = false) := by decide +kernel

def domIn (d : Nat) (st : Nat) (m : DomSt) : State :=
  holding [(kPdState d, st), (kPwGovSlope, 1000), (kPwGovStep, 1000)] { State.reset with pow := { State.reset.pow with doms := [(d, m)] } }
theorem witness_PowerDomains :
    (let w : GovWait := { dom := 3, amp := 500, time := 0, act := .enter }
     let s := { domIn 3 1 {} with pow := { (domIn 3 1 {}).pow with waits := [w] } }
     s.pow.waits = [w] ∧ govAdmits s w.amp = true ∧ govAdmits (holding [(kPwGovStep, 0)] s) w.amp = false ∧ w.dom < 50) ∧
    (let v : Vote := { client := .placement, dom := 25, level := 3 }
     ∀ st ∈ [0, 1], let s := { domIn 25 st {} with pow := { (domIn 25 st {}).pow with votes := [v] } }
      (domSt s 25).trans = .none ∧ domTarget s 25 = 3 ∧ domState s 25 = st ∧ domHas 25 3 = true ∧ mayEnter s 25 3 = true ∧
        govAdmits s (-(stepAmp s 25 : Int)) = true) ∧
    (∀ p ∈ [DomTrans.none, .exiting, .entering 1 false, .entering 4 true], (domSt (domIn 3 2 { trans := p }) 3).trans = p ∧ domState (domIn 3 2 { trans := p }) 3 = 2) ∧
    (∀ b ∈ [false, true], (domSt (domIn 3 0 { wakeLatched := b }) 3).wakeLatched = b) ∧
    (State.reset.pow.vbatLow = false ∧ rd (holding [(kPwVbatLowTh, 2400)] State.reset) kPwVbatLowTh = 2400) ∧
    ∀ d ∈ [0, 43, 44, 47, 48, 49, 50], domHas d 0 = true := by decide +kernel
theorem witness_ClocksAndMargins :
    (let s := holding [(kPdClkNow 3, 1500), (kPdClkSet 3, 400), (kPdThermalLimit 3, 400), (kPdMarginLimit 3, 400)] (domIn 3 1 {})
     notchHeld s 3 = false ∧ domState s 3 ≠ 0 ∧ clkLimit s 3 = 400) ∧
    notchHeld (domIn 3 0 { notchAt := some 0 }) 3 = true ∧ domState (domIn 3 0 {}) 3 = 0 ∧
    (clkMin 3 ≤ 400 ∧ 400 % 100 = 0 ∧ clkMin 15 = 200 ∧ clkMax 15 = 1500 ∧ ¬clkMin 3 ≤ 300) ∧
    (∃ n ∈ upto 64, (sensorDoms n).contains 3 = true ∧ domThrottled (holding [(kThSensorFlags n, 2)] State.reset) 3 = true) ∧
    (let s := later (msToTc 100) (holding (((upto 64).map fun n => (kThSensorFlags n, 0)) ++ [(kPdThermalLimit 3, 400), (kPdClkSet 3, 1500)]) (domIn 3 0 {}))
     domThrottled s 3 = false ∧ rd s (kPdThermalLimit 3) < rd s (kPdClkSet 3) ∧ (domSt s 3).thermalStep + msToTc 100 ≤ now s) ∧
    (let s := holding [(kPdMarginRecord 3, pack [(0, 8, 1), (48, 16, 800), (64, 2, 1)]), (kPwDroopTh, 20)] (domIn 3 0 {})
     fld (rd s (kPdMarginRecord 3)) 0 8 = 1 ∧ bitAt (rd s (kPdMarginRecord 3)) 8 = false ∧ (2 : BitVec 2).toNat ≠ fld (rd s (kPdMarginRecord 3)) 64 2 ∧
      (700 : BitVec 16).toNat + rd s kPwDroopTh < fld (rd s (kPdMarginRecord 3)) 48 16) ∧
    ((domSt (domIn 3 0 { staleSince := some 0 }) 3).staleSince = some 0 ∧ 0 + secToTc 10 ≤ now (later (secToTc 10) State.reset)) := by decide +kernel

theorem witness_SleepWakeAndTrip :
    (let s := { State.reset with boot := { State.reset.boot with fwReady := true } }
     d0Runs s = true ∧ s.boot.fwReady = true ∧ snapValid State.reset.pow.slot0 = false ∧ domainsStill s = true) ∧
    (let s := holding [(kHoLinkState, 0), (kPwDeviceFloor, 7)] { State.reset with boot := { State.reset.boot with fwReady := true } }
     deviceTarget s = 7 ∧ rd s kHoLinkState ≠ 1 ∧ rd s kHoLinkState ≠ 2) ∧
    (let s := holding [(kPwDeviceState, 6)] State.reset
     deviceState s = 6 ∧ s.pow.exit_ = none ∧ s.pow.tripHold = none ∧ bitAt s.pow.wakeMask 2 = true ∧ s.boot.railsOff = false) ∧
    (let s := holding [(kPwDeviceState, 0)] { State.reset with boot := { State.reset.boot with railsOff := true } }
     s.boot.railsOff = true ∧ s.boot.vaon = true ∧ deviceState s = 0) ∧
    (alarmDue { State.reset with pow := { State.reset.pow with stcAlarm := some 0 } } = true ∧ alarmDue State.reset = false) ∧
    (let s := { State.reset with pow := { State.reset.pow with exit_ := some (6, some .canRx), wakeHoldUntil := some 0 } }
     s.pow.exit_ = some (6, some .canRx) ∧ railsUp s = true ∧ railsUp { s with boot := { s.boot with pgood := [] } } = false ∧ s.work.ciOwner = [] ∧
      s.pow.wakeHoldUntil = some 0 ∧ 0 ≤ now s) ∧
    (let s := holding [(kThTjTh 2, 125)] State.reset; 16 * (rd s (kThTjTh 2) : Int) < (2001 : BitVec 16).toInt ∧ ¬16 * (rd s (kThTjTh 2) : Int) < (2000 : BitVec 16).toInt) ∧
    (let s := { State.reset with pow := { State.reset.pow with tripHold := some 0 }, tim := { State.reset.tim with stc := 60 * 32768 } }
     s.pow.tripHold = some 0 ∧ 60 * 32768 ≤ stcSince s 0 ∧ s.pow.tripTimes.length < 3 ∧
      ((s.pow.latched.drop s.pow.tripMark).find? fun w => wakesFrom w (deviceState s) && wakeEnabled s w) = none ∧ s.pow.tripRestart = true ∧
      (let t := holding [(kPwDeviceState, 7)] { s with pow := { s.pow with latched := [.wakeN], tripTimes := [0, 0, 0] } }
       ((t.pow.latched.drop t.pow.tripMark).find? fun w => wakesFrom w (deviceState t) && wakeEnabled t w) = some .wakeN ∧ 3 ≤ t.pow.tripTimes.length)) := by
  decide +kernel
theorem toBytes_high (n a c : Nat) : toBytes n (a + c * 2 ^ (8 * n)) = toBytes n a := by
  induction n generalizing a with
  | zero => rfl
  | succ n ih =>
    have h : (2 : Nat) ^ (8 * (n + 1)) = 256 * 2 ^ (8 * n) := by rw [Nat.mul_succ, Nat.pow_add]; omega
    have h1 : (a + c * 2 ^ (8 * (n + 1))) >>> 8 = a >>> 8 + c * 2 ^ (8 * n) := by
      simp only [Nat.shiftRight_eq_div_pow, h]
      rw [Nat.mul_left_comm]; generalize c * 2 ^ (8 * n) = z; omega
    have h2 : BitVec.ofNat 8 (a + c * 2 ^ (8 * (n + 1))) = BitVec.ofNat 8 a := by
      apply BitVec.eq_of_toNat_eq; simp only [BitVec.toNat_ofNat, h]; rw [Nat.mul_left_comm]; generalize c * 2 ^ (8 * n) = z; omega
    simp only [toBytes, h1, h2, ih]
/-- A time snapshot from its first 30 bytes: its check field is their CRC. -/
def snapOf (b : Nat) : Nat := b + (Config.crc16 (toBytes 30 b)).toNat * 2 ^ (8 * 30)
theorem snapOf_valid (b : Nat) (hb : b < 2 ^ (8 * 30)) (h : bitAt b 112 = true) : snapValid (snapOf b) = true := by
  have h1 : toBytes 30 (snapOf b) = toBytes 30 b := toBytes_high 30 b _
  have hc : (Config.crc16 (toBytes 30 b)).toNat < 2 ^ 16 := (Config.crc16 _).isLt
  have h2 : bitAt (snapOf b) 112 = true := by
    unfold snapOf; generalize (Config.crc16 (toBytes 30 b)).toNat = c
    simp only [bitAt, Nat.shiftRight_eq_div_pow, beq_iff_eq] at h ⊢; omega
  have h3 : fld (snapOf b) 240 16 = (Config.crc16 (toBytes 30 b)).toNat := by
    unfold snapOf; generalize (Config.crc16 (toBytes 30 b)).toNat = c at hc
    simp only [fld, Nat.shiftRight_eq_div_pow]; omega
  simp [snapValid, h1, h2, h3]
theorem witness_SleepWakeAndTrip_snapshot : snapValid (snapOf (2 ^ 112)) = true := snapOf_valid _ (by decide) (by decide)

/-! Device DRAM, on-die memory, the mesh, the host link. -/
/-- DRAM of two channels in use, and channel 0 in `st`. -/
def dram0 (st : Nat) (ch : DramCh) : State :=
  holding [(kDrState, 2), (kDrChannels, 0x11), (kDrCapacity, 2 ^ 30), (kDrRanks, 1), (kDrScrubPeriod, 1), (kDrFreezeAuto, 10), (kDrCmdRetry, 2), (kDcState 0, st),
    (kPdClkNow 0, 1500)] { State.reset with dram := { State.reset.dram with chans := [(0, ch)] } }
def read0 : DReq := { port := 2, tenant := 0, job := 0, line := dramBase, write := none, arrival := 0 }
theorem witness_DramRequests :
    (let s := dram0 2 {}
     dramBase ≤ dramBase ∧ dramBase < dramBase + rd s kDrCapacity ∧ rd s kDrState = 2 ∧ chanUp s 0 = true ∧ chanState s 0 ≠ 3 ∧
      (dramMap s 0).1 = 0 ∧ (chan s 0).waiting = [] ∧ (chan s 0).readQ.length < 128 ∧ (chan s 0).writeQ.length < 64 ∧ poisoned s dramBase = false ∧
      (chan s 0).writeQ.any (·.line == dramBase) = false ∧ chanServes s 0 = true ∧ (chan s 0).readQ = [] ∧ (chan s 0).writeQ = []) ∧
    dramBase + rd (dram0 2 {}) kDrCapacity ≤ dramBase + 2 ^ 30 ∧
    (poisoned { dram0 2 {} with dram := { (dram0 2 {}).dram with poison := [dramBase] } } dramBase = true) ∧
    (chan (dram0 2 { waiting := [read0] }) 0).waiting ≠ [] ∧
    (let s := dram0 2 { readQ := [read0] }
     (chan s 0).writeQ = [] ∧ (chan s 0).waiting = [] ∧ (schedNext (payOwed 0 s) 0).map (fun r => (r.write.isNone, r.reader.isNone, r.bad, r.port)) = some (true, true, false, 2)) ∧
    (let s := later (usToTc 10) (dram0 3 { freezeAt := some 0 })
     chanState s 0 = 3 ∧ rd s kDrFreezeAuto ≠ 0 ∧ (chan s 0).freezeAt = some 0 ∧ usToTc (rd s kDrFreezeAuto) ≤ now s - 0) ∧
    (0 < rd (dram0 2 {}) kDrCmdRetry ∧ rd (dram0 2 { replays := 2 }) kDrCmdRetry ≤ (chan (dram0 2 { replays := 2 }) 0).replays) ∧
    (rd (dram0 2 {}) kDrScrubPeriod ≠ 0 ∧ (dramMap (dram0 2 {}) (dram0 2 {}).dram.scrub).1 < 8) := by decide +kernel
theorem witness_DramUpkeep :
    (let s := holding [(kDcTemp 0, 1600), (kDcCalRecord 0 0, 0), (kDrWinTemp, 10)] (dram0 2 {})
     chanUp s 0 = true ∧ chanState s 0 ≠ 6 ∧ rd s kDrRanks ≤ 2 ∧ staleBits s 0 0 false ≠ 0 ∧ bitAt (rd s (kDcCalRecord 0 0)) 9 = false) ∧
    (let s := dram0 2 { classRun := 100, ranks := [(0, { staleSince := some 0 })] }
     (rankSt s 0 0).retryAt = none ∧ (rankSt s 0 0).staleSince = some 0 ∧ 100 ≤ (chan s 0).classRun ∧ (rankSt s 0 0).recentring = false ∧ 0 < rd s kDrRanks) ∧
    (let s := dram0 2 { ranks := [(0, { retryAt := some 0 })] }; (rankSt s 0 0).retryAt = some 0 ∧ 0 ≤ now s) ∧
    (let s := dram0 2 { ranks := [(0, { recentring := true })] }; (rankSt s 0 0).recentring = true ∧ (rankSt s 0 0).bursts = 0) ∧
    (let s := holding [(kDrState, 0), (kDrDataRate, 4800), (kDrDensity, 1)] { dram0 2 {} with boot := { State.reset.boot with straps := 4 } }
     rd s kDrState = 0 ∧ dramConfigOk s = true ∧ dramConfigOk (holding [(kDrDataRate, 0)] s) = false) ∧
    (graphsLive (dram0 2 {}) = false ∧ (dram0 2 {}).host.hdm = false ∧ chanList (dram0 2 {}) = [0, 4]) ∧
    (∀ st ∈ [0, 1, 3], rd (holding [(kDrState, st)] (dram0 2 {})) kDrState = st) ∧ (∀ st ∈ [4, 6, 7], chanState (dram0 st {}) 0 = st) ∧
    (let s := later (secToTc 3600) (dram0 2 { readQ := [read0], ranks := [(0, { owed := 3 })] })
     (rankSt s 0 0).owed < 4 ∧ urgency s read0 = 3 ∧ (lineLoc s read0.line).rank = 0) ∧
    (let s := dram0 2 { ranks := [(0, { recentring := true, bursts := 96, owed := 4 })] }
     (rankSt s 0 0).recentring = true ∧ (rankSt s 0 0).bursts ≠ 0 ∧ 48 ≤ (rankSt s 0 0).bursts - ((rankSt s 0 0).owed + 1) ∧ ¬(rankSt s 0 0).owed < 4) ∧
    (let s := holding [(kDrTrackPeriod, 0)] (dram0 2 { ranks := [(0, { spare := true })] })
     msToTc (rd s kDrTrackPeriod) ≤ now s - (rankSt s 0 0).lastTrack ∧ (rankSt s 0 0).spare = true) := by decide +kernel

theorem witness_ScrubbingAndLedger :
    (let s := holding [(kSrSramScrubPeriod, 1)] State.reset
     rd s kSrSramScrubPeriod ≠ 0 ∧ (scrubber s 4).running = false ∧ s.boot.vaon = true ∧ (scrubber s 4).since = none) ∧
    (let c := lastMacro 0
     let s := { State.reset with sram := { State.reset.sram with scrubbers := [(0, { running := true })] } }
     scrubs 0 c = true ∧ (locMacroBytes c).isSome = true ∧ (scrubber s 0).running = true ∧ s.sram.poison = [] ∧ sageMacro c = false ∧ s.boot.d0Reset = false ∧
      (macroSt s c).fenced = false ∧ (macroSt s c).counters = [] ∧ (macroSt s c).faulty = [] ∧ sageMacro (macroCode 0 1 0 0 0) = true ∧
      scrubs 0 (macroCode 0 1 0 0 0) = true ∧ macroCode 0 1 0 0 0 ≠ lastMacro 0) ∧
    (∀ q < 5, scrubs q (lastMacro q) = true) ∧
    (let m : MacroSt := { faulty := [(5, [7]), (9, [7])], counters := [(7, 2)], sweeping := [] }
     (∀ e ∈ m.faulty, e.2 = [7]) ∧ 7 ∉ m.columns ∧ m.columns.length + m.failedColumns < 2 ∧ rd (holding [(kSrColumnTh, 2)] State.reset) kSrColumnTh ≤ 2) ∧
    (let m : MacroSt := { sweeping := [(7, 5)], remaps := [{ word := 1, switched := true }, { word := 2 }] }
     m.sweeping = [(7, 5)] ∧ m.remaps = [{ word := 1, switched := true }] ++ ({ word := 2 } : RemapEnt) :: [] ∧ m.remaps.length < 8) ∧
    (let s := later (secToTc 86400) State.reset; s.sram.lastDay < now s / secToTc 86400 ∧ now s / secToTc 86400 < s.sram.lastYear + 365) ∧
    (let s := later (365 * secToTc 86400) State.reset; s.sram.lastYear + 365 ≤ now s / secToTc 86400) := by decide +kernel

theorem witness_MeshAndDomainExit :
    rangeDest State.reset 0 64 = some (0, true) ∧ rangeDest State.reset 0x04000000 1 = none ∧
      (rangeDest State.reset 0x03FFFFFF 1).isSome = true ∧ rangeDest State.reset 0x03FFFFFF 2 = none ∧
    (let d := 44
     domAsleep (domIn d 0 {}) d = false ∧ domAsleep (domIn d 2 {}) d = true ∧ (domSt (domIn d 0 {}) d).trans = .none) ∧
    (∀ k ∈ [3, 4], let p : Packet := { network := 1, kind := k, src := 0, dst := 5 }
      let s := { State.reset with noc := { State.reset.noc with inFlight := [p] } }
      (takeResponse k 0 5 s).map (·.1) = some p ∧ takeResponse k 0 6 s = none ∧ p.bank = false) ∧
    (∀ st ∈ [1, 5], let s := domIn 25 st { trans := .exiting }
      (domSt s 25).trans = .exiting ∧ s.pow.waits = [] ∧ govAdmits s (stepAmp s 25) = true ∧ govAdmits (holding [(kPwGovStep, 0)] s) (stepAmp s 25) = false ∧
        domState s 25 = st) := by decide +kernel

def fnIn (r : FnSt) : State := { State.reset with host := { State.reset.host with fns := [(3, r)] }, boot := { State.reset.boot with fwReady := true } }
theorem witness_HostFunctions :
    State.reset.boot.fwReady = false ∧ (fnIn {}).boot.fwReady = true ∧ d0Runs State.reset = true ∧
    (let s := fnIn { bme := true, msixEn := true, vectors := [(31, { masked := false, pending := true })] }
     maySend s 3 = true ∧ (fnOf s 3).msixEn = true ∧ (fnOf s 3).fnMask = false ∧ s.host.waits = [] ∧ (vectorOf s 3 31).masked = false ∧
      (vectorOf s 3 31).pending = true) ∧
    (let s := later (usToTc 5) (fnIn { qps := [(15, { mod := 1 + 5 * 256, modSince := some 0 })], eq := { mod := 1 + 5 * 256, modSince := some 0 } })
     fld (qpOf s 3 15).mod 8 16 ≠ 0 ∧ (qpOf s 3 15).modSince = some 0 ∧ 0 + usToTc (fld (qpOf s 3 15).mod 8 16) ≤ now s ∧ (fnOf s 3).eq.modSince = some 0) ∧
    (fnOf (fnIn { flr := some 0 }) 3).flr ≠ none ∧ (fnOf (fnIn {}) 3).flr = none ∧ (fnOf (fnIn { d3hot := true }) 3).d3hot = true ∧
    (fnOf (fnIn { bme := true }) 3).bme = true ∧
    (let s := { fnIn {} with host := { (fnIn {}).host with vfEnable := true, numVfs := 9 } }; s.host.vfEnable = true ∧ 8 < s.host.numVfs ∧ ¬9 < s.host.numVfs) ∧
    (∀ st ∈ [0, 1, 2, 4], rd (holding [(kHoLinkState, st)] State.reset) kHoLinkState = st) := by decide +kernel
theorem witness_HostRegistersAndReads_queues :
    (∀ st ∈ [QpState.disabled, .enabled, .draining, .error, .quiesced], (qpOf (fnIn { qps := [(15, { state := st })] }) 3 15).state = st) ∧
    (let q : QueuePair := { cfg := 0x0404, sqBase := 0xFF00000000000 - 64 * 16, cqBase := 0xFF00000000000 - 32 * 16 }
     q.sqBase % 64 = 0 ∧ q.sqBase + 64 * 2 ^ fld q.cfg 0 5 ≤ 0xFF00000000000 ∧ q.cqBase % 64 = 0 ∧ q.cqBase + 32 * 2 ^ fld q.cfg 8 5 ≤ 0xFF00000000000 ∧
      fld 0x1010 0 5 = 16 ∧ fld 0x100C 0 5 = 12 ∧ ¬fld 0x0403 0 5 ≥ 4) ∧
    (let q : EventQueue := { cfg := 4, lost := 1 }
     q.enable = false ∧ q.base % 64 = 0 ∧ q.base + 32 * 2 ^ fld q.cfg 0 5 ≤ 0xFF00000000000 ∧ q.lost ≠ 0 ∧ eqSize q = 16 ∧
      (15 : Word).toNat % 65536 < eqSize q ∧ eqSize q ≤ (16 : Word).toNat % 65536) := by decide +kernel
theorem witness_HostRegistersAndReads_reads :
    (let e : TagEnt := { fn := 3, tag := 1023, use := .submission 3 0 0, len := 64, issued := 0 }
     let s := later (secToTc 20) { State.reset with host := { State.reset.host with tags := [e], reads := [{ fn := 3, use := e.use, addr := 0, left := 64 }] } }
     tagEnt s 3 1023 = some e ∧ tagEnt s 3 0 = none ∧ forTranslation e = false ∧ (readOp s e.use).isSome = true ∧ e.issued + nsToTc 17000000000 ≤ now s ∧
      e.fenced = false) ∧
    (let e : TagEnt := { fn := 3, tag := 0, use := .translation 3 9, len := 8, issued := 0 }
     let s := { State.reset with host := { State.reset.host with tags := [e] } }
     forTranslation e = true ∧ s.host.tags.find? (fun e => e.use == .translation 3 9) = some e) ∧
    (bar4Reaches State.reset 0 64 = true ∧ bar4Reaches State.reset 0x04000000 1 = false ∧ (destOf State.reset 0).isSome = true ∧
      domAsleep (domIn 44 0 {}) 44 = false ∧ (domSt (domIn 44 0 {}) 44).trans = .none) ∧
    (let s := holding [(kHoCxlActive, 1), (kDrCapacity, 2 ^ 20)] { State.reset with host := { State.reset.host with hdm := true } }
     rdB s kHoCxlActive = true ∧ s.host.hdm = true ∧ regionOf s dramBase = .dram ∧ regionOf s (dramBase + 2 ^ 20 - 1) = .dram ∧ regionOf s (dramBase + 2 ^ 20) = .hole) ∧
    (∃ e ∈ [((64 : Nat), (0 : Nat))], e.1 = (65 : BitVec 52).toNat / 64 * 64) := by decide +kernel

/-! The dictionary, start-up and recovery, the invariant. -/
theorem ofBytes_toBytes (n x : Nat) (h : x < 256 ^ n) : ofBytes (toBytes n x) = x := by
  induction n generalizing x with
  | zero => simp at h; simp [toBytes, ofBytes, h]
  | succ n ih =>
    have h1 : x >>> 8 < 256 ^ n := by
      rw [Nat.shiftRight_eq_div_pow]; exact Nat.div_lt_of_lt_mul (by rw [Nat.pow_succ] at h; omega)
    have h2 := ih _ h1
    simp only [toBytes, ofBytes, BitVec.toNat_ofNat]; rw [h2, Nat.shiftRight_eq_div_pow]; omega
def served0 : State := holding [(kDyCanEnable, 1), (kDyCanState, 0), (kDyCanNode, 5), (kDyUdpEnable, 1), (kDyUdpAllow, 0), (kDyMailboxVf, 0)] { State.reset with
  boot := { State.reset.boot with fwReady := true, romRan := true }, dict := { State.reset.dict with phyUp := true } }
theorem witness_DictionaryMessages :
    (canServes served0 = true ∧ loaderUp served0 = false ∧ canNode served0 = 5 ∧ (0x405 : BitVec 11).toNat = 0x400 + canNode served0 ∧ canServes State.reset = false) ∧
    (mgmtUp served0 = true ∧ rdB served0 kDyUdpEnable = true ∧ udpAllowed served0 7 = true ∧ mgmtUp State.reset = false ∧
      storedAnswer { served0 with dict := { served0.dict with answered := [(7, [1], [2], 0)] } } 7 [1] = some [2]) ∧
    fieldAt (pdpMsg 1 9 0x0200 1 0 []) 0 1 = 1 ∧ (pdpMsg 1 9 0x0200 1 0 []).length = 8 ∧
    (let g : SegXfer := { transport := 0, peer := 0, tid := 9, write := false, idx := 0x1000, sub := 1, total := 60, data := List.replicate 60 0, last := 0 }
     let s := { served0 with dict := { served0.dict with segs := [g] } }
     s.dict.segs.find? (fun g => g.transport == 0 && g.peer == 0 && g.tid == 9) = some g ∧ 52 ≤ g.total ∧ s.dict.segs.length < 4 ∧
      secToTc 1 ≤ now (later (secToTc 1) s) - g.last ∧ now s - g.last < secToTc 1) ∧
    (let m : Mailbox := { reqLen := 8, req := pdpMsg 1 9 0x1000 1 0 [] }
     m.busy = false ∧ m.reqLen = 8 ∧ rdB served0 kDyMailboxVf = false) := by decide +kernel
def answered {α : Type} (x : Except Abort α) (p : α → Bool) : Bool := match x with | .ok l => p l | .error _ => false
theorem witness_DictionaryMessages_objects :
    answered (readObject served0 none (kPlTemplatesEnable / 1024) (kPlTemplatesEnable % 1024)) (fun l => l.length ≤ 56) = true ∧ answered (readObject served0 none 0xFFFF 1) (fun _ => true) = false ∧
    answered (writeGate served0 none (kPlTemplatesEnable / 1024) (kPlTemplatesEnable % 1024) (some 1))
      (fun r => r.ty != .text && r.ty != .loc && inRow r (kPlTemplatesEnable % 1024) 1) = true ∧
    answered (writeGate served0 none 0xFFFF 1 none) (fun _ => true) = false := by decide +kernel

/-- A parameter image with no record, and a firmware image with no body. -/
def emptyImage : List Byte := toBytes 16 (pack [(0, 32, 0x49504450), (32, 16, 1)]) ++ toBytes 4 (Config.crc32 []).toNat ++ toBytes 12 0
def emptyFirmware : List Byte := toBytes 24 (pack [(0, 32, 0x57465141), (32, 16, 1)]) ++ (Config.sha384 []).toList ++ List.replicate 440 0
theorem toBytes_length (n x : Nat) : (toBytes n x).length = n := by
  induction n generalizing x with
  | zero => rfl
  | succ n ih => simp [toBytes, ih]
theorem witness_DictionaryServices_image : 32 ≤ emptyImage.length ∧ fieldAt emptyImage 0 4 = 0x49504450 ∧ fieldAt emptyImage 4 2 = 1 ∧
    fieldAt emptyImage 12 4 = (emptyImage.drop 32).length ∧ fieldAt emptyImage 16 4 = (Config.crc32 (emptyImage.drop 32)).toNat ∧ emptyImage.length ≤ 4194304 := by
  have h0 : (toBytes 16 (pack [(0, 32, 0x49504450), (32, 16, 1)]) ++ toBytes 4 (Config.crc32 []).toNat).length = 20 := by simp [toBytes_length]
  have hd : emptyImage.drop 32 = [] := by rw [List.drop_eq_nil_iff]; simp [emptyImage, toBytes_length]
  have hs : slice emptyImage 16 4 = toBytes 4 (Config.crc32 []).toNat := by
    simp [slice, emptyImage, toBytes_length]
  have hf (o n : Nat) (h : o + n ≤ 16) : slice emptyImage o n = slice (toBytes 16 (pack [(0, 32, 0x49504450), (32, 16, 1)])) o n := by
    have h1 : o - 16 = 0 := by omega
    have h2 : n - (16 - o) = 0 := by omega
    simp [slice, emptyImage, List.drop_append, List.take_append, toBytes_length, h1, h2]
  refine ⟨?_, ?_, ?_, ?_, ?_, ?_⟩
  · simp [emptyImage, toBytes_length]
  · rw [fieldAt, hf 0 4 (by decide)]; decide +kernel
  · rw [fieldAt, hf 4 2 (by decide)]; decide +kernel
  · rw [fieldAt, hf 12 4 (by decide), hd]; decide +kernel
  · rw [fieldAt, hs, hd]; exact ofBytes_toBytes 4 _ (by have := (Config.crc32 []).isLt; simpa using this)
  · simp [emptyImage, toBytes_length]
/-- It is good on a part with BOOT_OPEN. -/
def open0 : State := { served0 with boot := { served0.boot with straps := 16 } }
theorem firmware_slice : emptyFirmware.length = 512 ∧ slice emptyFirmware 24 48 = (Config.sha384 []).toList ∧
    ∀ o n, o + n ≤ 24 → slice emptyFirmware o n = slice (toBytes 24 (pack [(0, 32, 0x57465141), (32, 16, 1)])) o n := by
  refine ⟨by simp [emptyFirmware, toBytes_length, -List.reduceReplicate], by simp [-List.reduceReplicate, slice, emptyFirmware, toBytes_length], fun o n h => ?_⟩
  have h1 : o - 24 = 0 := by omega
  have h2 : n - (24 - o) = 0 := by omega
  simp [-List.reduceReplicate, slice, emptyFirmware, List.drop_append, List.take_append, toBytes_length, h1, h2]
theorem witness_DictionaryServices_firmware : fwCheck open0 (fwImage emptyFirmware) = 2 ∧ slotGood open0 (some (fwImage emptyFirmware)) = true ∧
    fwCheck open0 {} ≠ 2 ∧ slotGood open0 none = false ∧ open0.boot.fwReady = true := by
  have hp : padTo 512 emptyFirmware = emptyFirmware := by simp [padTo, firmware_slice.1, List.take_of_length_le]
  have hd : emptyFirmware.drop 512 = [] := List.drop_eq_nil_of_le (Nat.le_of_eq firmware_slice.1)
  have h : fwCheck open0 (fwImage emptyFirmware) = 2 := by
    simp only [fwCheck, fwImage, hp, hd, fieldAt, firmware_slice.2.1, firmware_slice.2.2 0 4 (by decide), firmware_slice.2.2 4 2 (by decide), firmware_slice.2.2 16 4 (by decide)]
    rw [if_neg (by decide +kernel), if_neg (by simp), if_pos (by decide +kernel)]
  exact ⟨h, by simp [slotGood, h], by decide +kernel, rfl, rfl⟩
theorem witness_DictionaryServices :
    (State.reset.dict.storing = none ∧ imageFits (persistRecords State.reset) = true) ∧
    (let x := (toBytes 3 0x494544).map fun b => b
     x.length ≤ 40 ∧ locValid (pack [(61, 3, 7)]) = true ∧ locValid 0 = false ∧ locParse [] = none) ∧
    (locParse (locText (pack [(61, 3, 7)])) = some (pack [(61, 3, 7)]) ∧ (locText (pack [(61, 3, 7)])).length ≤ 40) ∧
    (let r := pack [(0, 1, 1), (32, 16, kPlTemplatesEnable / 1024), (48, 10, kPlTemplatesEnable % 1024)]
     (routeDue (holding [(kDyRoute 0, r)] served0) 0).isSome = true ∧ routeDue (holding [(kDyRoute 0, 0)] served0) 0 = none) ∧
    (d0Runs served0 = true ∧ served0.dict.phyUp = true ∧ rdB served0 kDyCanEnable = true ∧ rd (holding [(kDyIpv4Addr, 1)] served0) kDyIpv4Addr ≠ 0) := by
  decide +kernel

def bootIn (f : BootSt → BootSt) : State := { State.reset with boot := f State.reset.boot }
theorem witness_RailsResetsAndBoot :
    (let s := bootIn fun b => { b with pgood := b.pgood.set 0 false }; s.boot.pgood.getD 0 false = false ∧ deviceState s ≠ 8 ∧
      deviceState (holding [(kPwDeviceState, 8)] s) = 8) ∧
    (∀ r ∈ [1, 6], let s := bootIn fun b => { b with pgood := b.pgood.set r false }
      s.boot.pwrEn.getD r false = true ∧ s.boot.pgood.getD r false = false ∧ (∀ k < 7, 1 ≤ k → s.boot.pwrEn.getD k false = true) ∧ s.pow.exit_ = none ∧
        (∀ k < 7, s.boot.pwrEn.getD k false = true ∧ (s.boot.pgood.set r true).getD k false = true) ∧ s.boot.oscOk = true) ∧
    (let s := bootIn fun b => { b with pwrEn := [true, true, false, false, false, false, false], pgood := b.pgood.set 1 false }
     s.boot.pwrEn.getD 2 false = false ∧ ∀ j < 2, 1 ≤ j → s.boot.pwrEn.getD j false = true) ∧
    (let s := bootIn fun b => { b with retryAt := some 0 }; s.boot.retryAt = some 0 ∧ stcSince s 0 < 2 ^ 47 ∧ s.boot.pgood.getD 0 false = true ∧
      s.boot.railsOff = false) ∧ State.reset.boot.vaon = true ∧ railsUp State.reset = true ∧ d0Runs State.reset = true ∧
    (let s := bootIn fun b => { b with pgood := [], railsOff := true }; railsUp s = false ∧ s.boot.railsOff = true ∧ s.boot.vaon = true) ∧
    (let s := bootIn fun b => { b with d0Reset := true }; railsUp s = true ∧ s.boot.d0Reset = true ∧ s.pow.exit_ = none) ∧
    (State.reset.boot.romRan = false ∧ fld State.reset.boot.straps 0 2 = 0 ∧ fld (bootIn fun b => { b with straps := 1 }).boot.straps 0 2 ≠ 0 ∧
      ({ seq := 1 } : LedgerCopy).good = true ∧ ({ seq := 1 } : LedgerCopy) ≠ {}) ∧
    (let s := { (bootIn fun b => { b with romRan := true }) with mem := [(0x00FFFFFC, 0x42), (0x00FFFFFD, 0x4F), (0x00FFFFFE, 0x4F), (0x00FFFFFF, 0x54)] }
     hostBootUp s = true ∧ fieldAt (load s 0x00FFFFFC 4) 0 4 = 0x544F4F42 ∧ Memory.wf s.mem = true) := by decide +kernel
theorem witness_StartAndRecovery :
    (let s := bootIn fun b => { b with romRan := true, loaded := some {}, start := .warm }
     d0Runs s = true ∧ s.boot.romRan = true ∧ s.boot.loaded ≠ none ∧ s.boot.fwReady = false ∧ s.boot.start ≠ .cold ∧ rd s kDrState ≠ 1 ∧ rd s kDrState ≠ 2) ∧
    (let s := bootIn fun b => { b with romRan := true, fwReady := true, stage := 7 }; s.boot.fwReady = true ∧ s.boot.stage = 7) ∧
    (let s := { State.reset with pow := { State.reset.pow with latched := [.canRx] } }; s.pow.latched ≠ [] ∧ deviceState s = 0 ∧ keeperUp s = true) ∧
    (∀ f ∈ [1, 2], let s := { maint0 with boot := { maint0.boot with recoveries := [{ flow := f, unit := 0 }] } }
      roleFn (roleWord s 0) = 1 ∧ inFlow s f 0 = true ∧ inFlow s (3 - f) 0 = false) ∧
    (∀ k ∈ [0, 1], let s := { (holding [(kDrState, 3), (kDrDataRate, 4800), (kDrDensity, 1)] (dram0 0 {})) with
        boot := { State.reset.boot with straps := 4, recoveries := [{ flow := 3, unit := 0, attempt := k }] } }
      flowOf s 3 0 = some { flow := 3, unit := 0, attempt := k } ∧ 0 ≤ now s) ∧
    (let s := later (secToTc 5) (holding [(kLaLinkFlags 5, 1)] (laneIn 1 {}))
     laneState s 5 = 1 ∧ bitAt (rd s (kLaLinkFlags 5)) 0 = true ∧ bitAt (rd s (kLaLinkFlags 5)) 1 = false ∧ (laneOf s 5).since + secToTc 5 ≤ now s ∧
      flowOf s 4 5 = none) ∧
    State.reset.boot.oscOk = true ∧ (bootIn fun b => { b with oscOk := false, oscFallback := true }).boot.oscFallback = true := by decide +kernel

/-- Each region of the map at its ends. -/
theorem witness_GlobalAddressMap : let s := holding [(kDrCapacity, 64)] State.reset
    (∀ p ∈ [(0x00000000, Region.gb 0 0), (0x03FFFFFF, .gb 3 15), (0x04000000, .hole), (0x0FFFFFFF, .hole), (0x10000000, .cluster 0), (0x15FFFFFF, .cluster 11),
      (0x16000000, .hole), (0x20000000, .imem 0), (0x2001FFFF, .imem 0), (0x20020000, .hole), (0x20080000, .dmem 0), (0x200DFFFF, .dmem 0), (0x200E0000, .hole),
      (0x2B8DFFFF, .dmem 107), (0x2C000000, .hole), (0x40000000, .engine 0), (0x4EEFFFFF, .engine 119), (0x4EF00000, .hole), (0x4F000000, .elb 7),
      (0x4F1FFFFF, .elb 7), (0x4F200000, .hole), (0x7FFFFFFF, .hole), (0x80000000, .control), (0xBFFFFFFF, .control), (0xC0000000, .retention),
      (0xC01FFFFF, .retention), (0xC0200000, .hole), (0x8000000000, .dram), (0x800000003F, .dram), (0x8000000040, .hole), (0xFFFFFFFFFF, .hole),
      (0x10000000000, .hole), (0x100000000000, .host 0), (2 ^ 52 - 1, .host (2 ^ 52 - 1 - 0x100000000000)), (2 ^ 52, .hole)], regionOf s p.1 = p.2) := by decide +kernel
/-- LEN 0, LEN a power of two, LEN just above one, the offset at each end. -/
theorem witness_CircularUpdate :
    (∀ p ∈ [(0, 0), (1, 0), (2, 1), (3, 2), (4, 2), (5, 3), (65535, 16)], p.1 ≠ 0 → p.1 ≤ 2 ^ p.2 ∧ ∀ j ∈ List.range 17, p.1 ≤ 2 ^ j → p.2 ≤ j) ∧
    circ 0x100 0x00050001 = 0x101 ∧ circ 0x104 0x00050001 = 0x100 ∧ circ 0x100 0x0005FFFF = 0x104 ∧ circ 0x100 0x00000003 = 0x103 ∧
    (let w := (word [(26, 0x18), (21, 1), (17, 2), (14, 0), (12, 3)]).toNat
     wOp w = 0x18 ∧ fld w 12 2 = 3 ∧ fld w 14 3 = 0 ∧ modeOk w = true ∧ inWindows (windows maint0 0 core0) false (memEa core0 w 1) 1 = true ∧
      rangePoisoned maint0 (coreAddr 0 + memEa core0 w 1) 1 = false) := by decide +kernel
/-- The invariant holds of a state with a command waiting, which the step takes. -/
theorem witness_EveryStepKeepsTheInvariant : ({ State.reset with pending := [.levelTick], mem := [(0, 1)] } : State).Inv := ⟨by decide, by simp; decide⟩

end Sys2Proof.Tests
end

section
/-!
PROOFS. What State.reset holds, part by part, the defaults of the tenant states and role words, and the registers of BAR0 by window.
-/
namespace Sys2Proof.Machine

/-! ### What nothing has written reads at its reset record -/

@[simp] theorem tget_nil {α : Type} (k : Nat) (d : α) : tget ([] : Table α) k d = d := rfl

@[simp] theorem b2n_false : b2n false = 0 := rfl
@[simp] theorem half_zero (hi : Bool) : half hi 0 = 0 := by cases hi <;> rfl

@[simp] theorem rd_reset (k : Nat) : rd State.reset k = objDefault k := rfl
@[simp] theorem fnOf_reset (f : Nat) : fnOf State.reset f = {} := rfl
@[simp] theorem qpOf_reset (f n : Nat) : qpOf State.reset f n = qpReset n := rfl
@[simp] theorem vectorOf_reset (f v : Nat) : vectorOf State.reset f v = {} := rfl

theorem reset_inv : State.reset.Inv := ⟨rfl, List.forall_mem_nil _⟩

theorem d0Runs_reset : d0Runs State.reset = true := by decide

/-! ### Defaults given by element (Tables 3-5 and 5-1) -/

/-- A default that is not one number for the whole row stands before the row's. -/
theorem objDefault_okey_of_specialDefault {idx sub v : Nat} (hsub : sub < 1024) (h : specialDefault idx sub = some v) :
    objDefault (okey idx sub) = v := by
  have hidx : okey idx sub / 1024 = idx := by unfold okey; omega
  have hmod : okey idx sub % 1024 = sub := by unfold okey; omega
  simp only [objDefault, hidx, hmod, h]

theorem specialDefault_tenantState {t : Nat} (ht : t < 512) :
    specialDefault (0x8000 + 16 * t) 1 = some (if t = 0 then 1 else 0) := by
  have hmod : (0x8000 + 16 * t) % 16 = 0 := by omega
  have hdiv : (0x8000 + 16 * t - 0x8000) / 16 = t := by omega
  simp only [specialDefault, Bool.and_eq_true, decide_eq_true_eq]
  iterate 21 rw [if_neg (by omega)]
  rw [if_pos (by omega), if_pos ⟨hmod, trivial⟩, hdiv]

theorem specialDefault_sageRole (u : Nat) : specialDefault 0x5044 u = some (roleDefault u) := rfl

theorem tenantState_reset {t : Nat} (ht : t < 512) : tenantState State.reset t = if t = 0 then 1 else 0 :=
  objDefault_okey_of_specialDefault (by omega) (specialDefault_tenantState ht)

theorem sageRole_reset {u : Nat} (hu : u < 108) : rd State.reset (kPlSageRole u) = roleDefault u := by
  have hk : kPlSageRole u = okey 0x5044 u := by rw [kPlSageRole, Nat.zero_add]
  rw [rd_reset, hk]
  exact objDefault_okey_of_specialDefault (by omega) (specialDefault_sageRole u)

/-! ### The registers of BAR0 (R617, R623, R624) -/

/-- FUNCTION: its number, whether it is the physical one, and the state of its tenant (Table 18-4). -/
theorem functionRegister_reset {f : Nat} (hf : f < 512) : regRead State.reset f 0x004 = if f = 0 then 0x600 else f := by
  have h : regRead State.reset f 0x004 = pack [(0, 9, f), (9, 1, b2n (f == 0)), (10, 2, tenantState State.reset f)] := rfl
  rw [h, tenantState_reset hf]
  by_cases h0 : f = 0
  · subst h0; rfl
  · have hpf : (f == 0) = false := beq_false_of_ne h0
    simp [pack, h0, hpf, Nat.mod_eq_of_lt hf]

theorem functionRegister_reset_zero (f : Nat) :
    ∀ o ∈ [0x020, 0x024, 0x02C, 0x030, 0x034, 0x040, 0x044, 0x048, 0x04C, 0x5000], regRead State.reset f o = 0 := by
  simp [regRead, pack]

/-- The 256 bytes from 0x1000 + 0x100 × n are the registers of queue pair `n` (Table 18-6). -/
theorem regRead_queuePair (s : State) (f : Nat) {n r : Nat} (hn : n < 16) (hr : r < 0x100) :
    regRead s f (0x1000 + 0x100 * n + r) = qpRead (qpOf s f n) r := by
  have hlo : ¬ 0x1000 + 0x100 * n + r < 0x1000 := by omega
  have hhi : 0x1000 + 0x100 * n + r < 0x2000 := by omega
  have hdiv : (0x1000 + 0x100 * n + r - 0x1000) / 0x100 = n := by omega
  have hmod : (0x1000 + 0x100 * n + r) % 0x100 = r := by omega
  simp only [regRead, if_neg hlo, if_pos hhi, hdiv, hmod]

/-- QP_CFG resets to 0x000n_0C0C (Table 18-7). -/
theorem qpRead_reset_cfg (n : Nat) : qpRead (qpReset n) 0x10 = n * 0x10000 + 0x0C0C := rfl

theorem qpRead_reset_zero (n : Nat) :
    ∀ r ∈ [0x00, 0x04, 0x08, 0x0C, 0x18, 0x1C, 0x20, 0x24, 0x28, 0x2C, 0x30, 0x34, 0x38, 0x3C], qpRead (qpReset n) r = 0 := by
  simp [qpRead, qpReset, qpStatus, pack]

/-- Settles O2: each conjunct is the lemma above about its part of State.reset; the objects and the memory are empty tables there, so every
read gives the default. -/
theorem resetLeavesTheDefaults : Obligations.ResetLeavesTheDefaults := by
  unfold Obligations.ResetLeavesTheDefaults
  intro z
  refine ⟨reset_inv, rfl, fun _ => rfl, rd_reset, rfl, rfl, fun _ => tenantState_reset, fun _ => sageRole_reset, ?function, ?queuePair, rfl,
    d0Runs_reset, rfl⟩
  case function =>
    intro f hf
    exact ⟨rfl, functionRegister_reset hf, rfl, rfl, functionRegister_reset_zero f⟩
  case queuePair =>
    intro f _ n hn
    have read {r : Nat} (hr : r < 0x100) : regRead z f (0x1000 + 0x100 * n + r) = qpRead (qpReset n) r := regRead_queuePair z f hn hr
    refine ⟨(read (by omega)).trans (qpRead_reset_cfg n), read (by omega), fun o ho => ?_⟩
    have hr : o < 0x100 := by simp only [List.mem_cons, List.not_mem_nil, or_false] at ho; omega
    exact (read hr).trans (qpRead_reset_zero n o ho)

end Sys2Proof.Machine
end

section
/-!
PROOFS. A whole step: it answers a next state, takes exactly the front of the queue and keeps the invariant.
-/
namespace Sys2Proof.Machine

/-- An operation that leaves the queue alone, after the front was taken, keeps the invariant: the commands left were all waiting before. -/
theorem Only.inv_of_popped {l : List Part} {s t : State} (h : Only l (popCommand s) t) (hs : s.Inv) : t.Inv := by
  obtain ⟨hmem, hwaiting⟩ := hs
  refine ⟨h.wf hmem, fun c hc => hwaiting c ?_⟩
  rw [h.queue] at hc
  exact List.mem_of_mem_drop hc

/-- Whatever the queue holds, a step is a change of the state without the front of its queue. -/
theorem step_only_popCommand (s : State) : ∃ t, step s = .next t ∧ Only allParts (popCommand s) t := by
  unfold step
  cases hq : s.pending with
  | nil =>
    have hpop : popCommand s = s := by cases s; cases hq; rfl
    exact ⟨idle s, rfl, hpop.symm ▸ idle_only⟩
  | cons c _ => exact exec_runs c (popCommand s)

/-- Settles O5: the frame of a whole step keeps memory canonical and leaves the queue without its front. -/
theorem everyStepKeepsTheInvariant : Obligations.EveryStepKeepsTheInvariant := by
  unfold Obligations.EveryStepKeepsTheInvariant
  intro s
  obtain ⟨t, hstep, honly⟩ := step_only_popCommand s
  exact ⟨t, hstep, honly.queue, honly.inv_of_popped⟩

end Sys2Proof.Machine
end

section
/-!
PROOFS. The global address map: what regionOf names in each range of Tables 1-9 and 1-10.
-/
namespace Sys2Proof.Machine

theorem regionOf_gb (s : State) {a q b : Nat} (hq : q < 4) (hb : b < 16) (hlo : q * 0x1000000 + b * 0x100000 ≤ a)
    (hhi : a < q * 0x1000000 + b * 0x100000 + 0x100000) : regionOf s a = .gb q b := by
  have hquad : a / 0x1000000 = q := by omega
  have hbank : a / 0x100000 % 16 = b := by omega
  rw [regionOf, if_pos (by omega), hquad, hbank]

theorem regionOf_cluster (s : State) {a c : Nat} (hc : c < 12) (hlo : 0x10000000 + c * 0x800000 ≤ a)
    (hhi : a < 0x10000000 + c * 0x800000 + 0x800000) : regionOf s a = .cluster c := by
  have hcluster : (a - 0x10000000) / 0x800000 = c := by omega
  rw [regionOf, if_neg (by omega), if_neg (by omega), if_pos (by omega), hcluster]

/-- The windows of the cores: 1 MiB each, of which 128 KiB of instruction memory and 384 KiB of data memory are there. -/
theorem regionOf_coreWindow (s : State) {a : Nat} (hlo : 0x20000000 ≤ a) (hhi : a < 0x2C000000) :
    regionOf s a =
      if 8 < (a - 0x20000000) / 0x100000 % 16 then .hole
      else if (a - 0x20000000) % 0x100000 < 0x20000 then .imem (9 * ((a - 0x20000000) / 0x1000000) + (a - 0x20000000) / 0x100000 % 16)
      else if 0x80000 ≤ (a - 0x20000000) % 0x100000 ∧ (a - 0x20000000) % 0x100000 < 0xE0000 then
        .dmem (9 * ((a - 0x20000000) / 0x1000000) + (a - 0x20000000) / 0x100000 % 16)
      else .hole := by
  rw [regionOf, if_neg (by omega), if_neg (by omega), if_neg (by omega), if_neg (by omega), if_pos hhi]
  simp only [Bool.and_eq_true, decide_eq_true_eq]

/-- Place of an address in the window of core `u` of cluster `c`. -/
theorem coreWindow_div {a c u : Nat} (hu : u < 9) (hlo : 0x20000000 + c * 0x1000000 + u * 0x100000 ≤ a)
    (hhi : a < 0x20000000 + c * 0x1000000 + u * 0x100000 + 0x100000) :
    (a - 0x20000000) / 0x100000 % 16 = u ∧ (a - 0x20000000) / 0x1000000 = c ∧
      (a - 0x20000000) % 0x100000 = a - (0x20000000 + c * 0x1000000 + u * 0x100000) := by
  omega

theorem regionOf_imem (s : State) {a c u : Nat} (hc : c < 12) (hu : u < 9) (hlo : 0x20000000 + c * 0x1000000 + u * 0x100000 ≤ a)
    (hhi : a < 0x20000000 + c * 0x1000000 + u * 0x100000 + 0x20000) : regionOf s a = .imem (9 * c + u) := by
  obtain ⟨hcore, hcluster, hofs⟩ := coreWindow_div hu hlo (by omega)
  rw [regionOf_coreWindow s (by omega) (by omega), hcore, hcluster, hofs, if_neg (by omega), if_pos (by omega)]

theorem regionOf_dmem (s : State) {a c u : Nat} (hc : c < 12) (hu : u < 9)
    (hlo : 0x20000000 + c * 0x1000000 + u * 0x100000 + 0x80000 ≤ a)
    (hhi : a < 0x20000000 + c * 0x1000000 + u * 0x100000 + 0x80000 + 0x60000) : regionOf s a = .dmem (9 * c + u) := by
  obtain ⟨hcore, hcluster, hofs⟩ := coreWindow_div (a := a) (c := c) hu (by omega) (by omega)
  rw [regionOf_coreWindow s (by omega) (by omega), hcore, hcluster, hofs, if_neg (by omega), if_neg (by omega), if_pos (by omega)]

/-- The windows of the engine groups: 32 MiB each, of which 15 engine windows and the engine-local buffer are there. -/
theorem regionOf_engineWindow (s : State) {a : Nat} (hlo : 0x40000000 ≤ a) (hhi : a < 0x50000000) :
    regionOf s a =
      if (a - 0x40000000) % 0x2000000 < 0xF00000 then .engine (15 * ((a - 0x40000000) / 0x2000000) + (a - 0x40000000) % 0x2000000 / 0x100000)
      else if 0x1000000 ≤ (a - 0x40000000) % 0x2000000 ∧ (a - 0x40000000) % 0x2000000 < 0x1200000 then .elb ((a - 0x40000000) / 0x2000000)
      else .hole := by
  rw [regionOf, if_neg (by omega), if_neg (by omega), if_neg (by omega), if_neg (by omega), if_neg (by omega), if_neg (by omega), if_pos hhi]
  simp only [Bool.and_eq_true, decide_eq_true_eq]

theorem regionOf_engine (s : State) {a g u : Nat} (hg : g < 8) (hu : u < 15) (hlo : 0x40000000 + g * 0x2000000 + u * 0x100000 ≤ a)
    (hhi : a < 0x40000000 + g * 0x2000000 + u * 0x100000 + 0x100000) : regionOf s a = .engine (15 * g + u) := by
  have hgroup : (a - 0x40000000) / 0x2000000 = g := by omega
  have hengine : (a - 0x40000000) % 0x2000000 / 0x100000 = u := by omega
  rw [regionOf_engineWindow s (by omega) (by omega), hgroup, hengine, if_pos (by omega)]

theorem regionOf_elb (s : State) {a g : Nat} (hg : g < 8) (hlo : 0x40000000 + g * 0x2000000 + 0x1000000 ≤ a)
    (hhi : a < 0x40000000 + g * 0x2000000 + 0x1000000 + 0x200000) : regionOf s a = .elb g := by
  have hgroup : (a - 0x40000000) / 0x2000000 = g := by omega
  rw [regionOf_engineWindow s (by omega) (by omega), hgroup, if_neg (by omega), if_pos (by omega)]

/-- From 0x50000000 on only control space, retention memory, installed DRAM and the host windows are there. -/
theorem regionOf_high (s : State) {a : Nat} (hlo : 0x50000000 ≤ a) :
    regionOf s a =
      if 0x80000000 ≤ a ∧ a < 0xC0000000 then .control
      else if 0xC0000000 ≤ a ∧ a < 0xC0200000 then .retention
      else if 0x8000000000 ≤ a ∧ a < 0x10000000000 ∧ a < 0x8000000000 + rd s kDrCapacity then .dram
      else if 0x100000000000 ≤ a ∧ a < 2 ^ 52 then .host (a - 0x100000000000)
      else .hole := by
  rw [regionOf]
  iterate 7 rw [if_neg (by omega)]
  simp only [Bool.and_eq_true, decide_eq_true_eq, and_assoc]
  rfl

theorem regionOf_control (s : State) {a : Nat} (hlo : 0x80000000 ≤ a) (hhi : a < 0x80000000 + 0x40000000) : regionOf s a = .control := by
  rw [regionOf_high s (by omega), if_pos (by omega)]

theorem regionOf_retention (s : State) {a : Nat} (hlo : 0xC0000000 ≤ a) (hhi : a < 0xC0000000 + 0x200000) : regionOf s a = .retention := by
  rw [regionOf_high s (by omega), if_neg (by omega), if_pos (by omega)]

theorem regionOf_dram (s : State) {a : Nat} (hlo : 0x8000000000 ≤ a) (hhi : a < 0x8000000000 + 0x8000000000) :
    regionOf s a = if a < 0x8000000000 + rd s kDrCapacity then .dram else .hole := by
  rw [regionOf_high s (by omega), if_neg (by omega), if_neg (by omega), if_neg (c := 0x100000000000 ≤ a ∧ a < 2 ^ 52) (by omega)]
  refine if_congr ?_ rfl rfl
  omega

theorem regionOf_host (s : State) {a : Nat} (hlo : 0x100000000000 ≤ a) (hhi : a < 2 ^ 52) : regionOf s a = .host (a - 0x100000000000) := by
  rw [regionOf_high s (by omega), if_neg (by omega), if_neg (by omega), if_neg (by omega), if_pos (by omega)]

/-! Holes: what no range of its part of the map covers. -/

theorem regionOf_hole_below_cores (s : State) {a : Nat} (hhi : a < 0x20000000) (hgb : 0x4000000 ≤ a)
    (hcluster : ¬(0x10000000 ≤ a ∧ a < 0x16000000)) : regionOf s a = .hole := by
  rw [regionOf, if_neg (by omega)]
  by_cases hlow : a < 0x10000000
  · rw [if_pos hlow]
  · rw [if_neg hlow, if_neg (by omega), if_pos hhi]

/-- An address in a core's window that is neither instruction nor data memory of a core, here of the only core it could be, is a hole. -/
theorem regionOf_hole_coreWindow (s : State) {a c u : Nat} (hlo : 0x20000000 ≤ a) (hhi : a < 0x2C000000)
    (hcluster : (a - 0x20000000) / 0x1000000 = c) (hcore : (a - 0x20000000) / 0x100000 % 16 = u)
    (hmem : u < 9 → ¬a < 0x20000000 + c * 0x1000000 + u * 0x100000 + 0x20000 ∧
      ¬(0x20000000 + c * 0x1000000 + u * 0x100000 + 0x80000 ≤ a ∧ a < 0x20000000 + c * 0x1000000 + u * 0x100000 + 0x80000 + 0x60000)) :
    regionOf s a = .hole := by
  rw [regionOf_coreWindow s hlo hhi, hcluster, hcore]
  by_cases hspare : 8 < u
  · rw [if_pos hspare]
  · obtain ⟨himem, hdmem⟩ := hmem (by omega)
    rw [if_neg hspare, if_neg (by omega), if_neg (by omega)]

theorem regionOf_hole_engineWindow (s : State) {a g : Nat} (hlo : 0x40000000 ≤ a) (hhi : a < 0x50000000)
    (hgroup : (a - 0x40000000) / 0x2000000 = g) (hengine : ¬a < 0x40000000 + g * 0x2000000 + 0xF00000)
    (helb : ¬(0x40000000 + g * 0x2000000 + 0x1000000 ≤ a ∧ a < 0x40000000 + g * 0x2000000 + 0x1000000 + 0x200000)) :
    regionOf s a = .hole := by
  rw [regionOf_engineWindow s hlo hhi, if_neg (by omega), if_neg (by omega)]

theorem regionOf_hole_between_windows (s : State) {a : Nat} (hlo : 0x2C000000 ≤ a) (hhi : a < 0x40000000) : regionOf s a = .hole := by
  rw [regionOf]
  iterate 5 rw [if_neg (by omega)]
  rw [if_pos hhi]

theorem regionOf_hole_high (s : State) {a : Nat} (hlo : 0x50000000 ≤ a) (hcontrol : ¬(0x80000000 ≤ a ∧ a < 0xC0000000))
    (hretention : ¬(0xC0000000 ≤ a ∧ a < 0xC0200000)) (hdram : ¬(0x8000000000 ≤ a ∧ a < 0x10000000000))
    (hhost : ¬(0x100000000000 ≤ a ∧ a < 2 ^ 52)) : regionOf s a = .hole := by
  rw [regionOf_high s hlo, if_neg hcontrol, if_neg hretention, if_neg (by omega), if_neg hhost]

/-- Settles O3: a lemma above for each range, and for the holes a lemma for each part of the map that has some. -/
theorem globalAddressMap : Obligations.GlobalAddressMap := by
  unfold Obligations.GlobalAddressMap
  intro lies s a r
  refine ⟨fun q hq b hb h => regionOf_gb s hq hb h.1 h.2, fun c hc h => regionOf_cluster s hc h.1 h.2,
    fun c hc u hu => ⟨fun h => regionOf_imem s hc hu h.1 h.2, fun h => regionOf_dmem s hc hu h.1 h.2⟩,
    fun g hg u hu h => regionOf_engine s hg hu h.1 h.2, fun g hg h => regionOf_elb s hg h.1 h.2, fun h => regionOf_control s h.1 h.2,
    fun h => regionOf_retention s h.1 h.2, fun h => regionOf_dram s h.1 h.2, fun h hin ha => ?host,
    fun hgb hcluster hcore hengine helb hcontrol hretention hdram hhost => ?hole⟩
  case host =>
    obtain ⟨hlo, hhi⟩ := hin
    have hbus : a - 0x100000000000 = h := by omega
    exact hbus ▸ regionOf_host s hlo (by omega)
  case hole =>
    simp only [lies] at *
    rcases Nat.lt_or_ge a 0x20000000 with hlow | hwindows
    · have notBank := hgb (a / 0x1000000)
      have notGb := fun hq => notBank hq (a / 0x100000 % 16) (by omega)
      have notCluster := hcluster ((a - 0x10000000) / 0x800000)
      exact regionOf_hole_below_cores s hlow (by omega) (by omega)
    rcases Nat.lt_or_ge a 0x2C000000 with hcores | habove
    · have notCore := hcore ((a - 0x20000000) / 0x1000000) (by omega) ((a - 0x20000000) / 0x100000 % 16)
      exact regionOf_hole_coreWindow s hwindows hcores rfl rfl fun hu => by have := notCore hu; omega
    rcases Nat.lt_or_ge a 0x40000000 with hgap | hengines
    · exact regionOf_hole_between_windows s habove hgap
    rcases Nat.lt_or_ge a 0x50000000 with hgroups | hhigh
    · have notEngine := hengine ((a - 0x40000000) / 0x2000000) (by omega) ((a - 0x40000000) % 0x2000000 / 0x100000)
      have notElb := helb ((a - 0x40000000) / 0x2000000) (by omega)
      exact regionOf_hole_engineWindow s hengines hgroups rfl (fun hin => notEngine (by omega) ⟨by omega, by omega⟩) notElb
    · exact regionOf_hole_high s hhigh (by omega) (by omega) (by omega) (by omega)

end Sys2Proof.Machine
end

section
/-!
PROOFS. A chunk of an engine job whose host read failed: the other consumers of the buffer end with it and leave the ready list (R69), so the
claim that a chunk that does its work leaves the ready list as it was does not hold.
-/
namespace Sys2Proof.Machine

/-- Job 0 as it runs. -/
def firstReader : JobRt := { p := { num := 0, shares := [{ unit := engUnit 8, n := 2 }] }, st := .running, ran := true, progress := [0] }

/-- A graph of two PRACH extractions that read one HOST_IN buffer, at home in host memory: job 0 runs the first of its two chunks, job 1 is
ready and has not run. -/
def sharedHostInGraph : Graph :=
  { id := 1, tenant := 1, ci := 0, st := .running
    jobs := [{ op := 0x048, refs := [(0, 0, 0)] }, { op := 0x048, refs := [(0, 0, 0)] }]
    bufs := [{ kind := 1, size := 64 }], homes := [(0, { tier := 4, block := 0, addr := hostBase })], blocks := [(0, 0), (1, 0)]
    rts := [firstReader,
      { p := { num := 1, shares := [{ unit := engUnit 8, n := 2 }] }, st := .ready, pos := 1, progress := [0] }] }

/-- The entry of job 1 in the ready list. -/
def otherConsumer : ReadyE := { gid := 1, num := 1, share := 0, unit := engUnit 8, level := 0, time := 0, seq := 0, pos := 1 }

/-- The chunk of job 0 on its engine. -/
def firstChunk : Run := { gid := 1, num := 0, share := 0, first := 0, n := 1, since := 0, level := 0, tenant := 1 }

/-- Job 0 runs, and its host read was answered with an abort. -/
def abortedReadState : State :=
  { State.reset with
    work := { State.reset.work with
      graphs := [sharedHostInGraph], ready := [otherConsumer], units := [(engUnit 8, { cur := some firstChunk })] }
    host := { State.reset.host with reads := [{ fn := 1, use := .job 1 0 0, addr := 64, left := 0, failed := some .abort }] } }

theorem curChunk_abortedReadState : curChunk abortedReadState 8 0x048 = some (firstChunk, sharedHostInGraph, firstReader) := by decide +kernel

/-- The chunk is not refused at its start: its block, as the fetch read it, is there, and its one buffer lies in host memory. -/
theorem abortedReadState_chunk_goes_on : blockPoisoned abortedReadState sharedHostInGraph firstReader = false ∧
    startFails abortedReadState
      { e := 8, run := firstChunk, g := sharedHostInGraph, r := firstReader, b := paramBlock abortedReadState sharedHostInGraph firstReader } = false ∧
    jobHole abortedReadState sharedHostInGraph firstReader = none := by decide +kernel

/-- The ready list that a command leaves. -/
def readyAfter (r : Res) : List ReadyE :=
  match r with
  | .next t => t.work.ready
  | _ => []

/-- Job 1 ended POISONED_DATA, and its entry is gone. -/
theorem readyAfter_abortedRead : readyAfter (exec (.prachExtract 8) abortedReadState) = [] := by decide +kernel

/-- Refutes O31: job 0's chunk does its work and finds that its host read failed; job 1, which reads the same buffer, ends with it (R69) and
leaves the ready list. -/
theorem not_engineChunks : ¬ Obligations.EngineChunks := by
  unfold Obligations.EngineChunks
  intro h
  have hprach := h 8 abortedReadState (.prachExtract 8, 0x048, kEnFfeParamErrors 0, kEnFfeJobs 0, kEnFfeTransforms 0)
    (List.mem_of_getElem? (i := 9) rfl)
  obtain ⟨hblock, hstart, hhole⟩ := abortedReadState_chunk_goes_on
  obtain ⟨-, -, -, hworks⟩ := hprach.2 firstChunk sharedHostInGraph firstReader curChunk_abortedReadState
  obtain ⟨t, hexec, -, -, -, -, hready⟩ := hworks hblock hstart hhole
  have hgone : t.work.ready = [] := by
    have := readyAfter_abortedRead
    rwa [hexec] at this
  exact absurd (hgone.symm.trans hready) (List.cons_ne_nil _ _).symm

end Sys2Proof.Machine
end

section
/-!
PROOFS. Which dictionary objects an event can change: the four counters that the device keeps of what it reports. And that reporting leaves the
records of the host functions alone but for the queue written and the vectors.
-/
namespace Sys2Proof.Machine

/-! ### Objects kept by one operation after another -/

theorem Keeps.refl (keys : List Nat) (s : State) : Keeps keys s s := fun _ _ => rfl

theorem Keeps.trans {keys : List Nat} {s t u : State} (h : Keeps keys s t) (k : Keeps keys t u) : Keeps keys s u :=
  fun j hj => (k j hj).trans (h j hj)

theorem Keeps.mono {k l : List Nat} {s t : State} (h : Keeps k s t) (hs : ∀ j ∈ k, j ∈ l) : Keeps l s t :=
  fun j hj => h j fun hk => hj (hs j hk)

theorem Keeps.of_obj {keys : List Nat} {s t : State} (h : t.obj = s.obj) : Keeps keys s t := fun k _ => by rw [rd, rd, h]

/-- An operation that changes no object. -/
theorem Only.keeps {l : List Part} {keys : List Nat} {s t : State} (h : Only l s t) (hl : Part.obj ∉ l := by decide) : Keeps keys s t :=
  Keeps.of_obj (h.same .obj hl)

theorem Keeps.each {α : Type} {keys : List Nat} {f : α → State → State} (hf : ∀ a s, Keeps keys s (f a s)) (l : List α) (s : State) :
    Keeps keys s (each l f s) := by
  induction l generalizing s with
  | nil => exact Keeps.refl keys s
  | cons a r ih => exact (hf a s).trans (ih (f a s))

theorem keeps_wr (k v : Nat) (s : State) : Keeps [k] s (wr k v s) := fun _ hj => rd_wr_ne (List.ne_of_not_mem_cons hj) v s

theorem keeps_bump (k : Nat) (s : State) : Keeps [k] s (bump k s) := fun _ hj => rd_bumpBy_ne (List.ne_of_not_mem_cons hj) 64 1 s

/-- A counter that goes on by 1 wraps at 2^64 (R20). -/
theorem counts_bump (k : Nat) (s : State) : Counts 64 k 1 s (bump k s) := rd_bumpBy_self 64 k 1 s

theorem Counts.of_eq {w k n : Nat} {s t u : State} (h : Counts w k n s t) (hu : rd u k = rd t k) : Counts w k n s u := hu.trans h

theorem Counts.of_start {w k n : Nat} {s s' t : State} (h : Counts w k n s' t) (hs : rd s' k = rd s k) : Counts w k n s t := by
  unfold Counts at h ⊢
  rw [h, hs]

/-! ### What sending keeps -/

/-- Counters that reporting itself moves: translation requests, lost events, notifications sent as events, notifications lost. -/
def eventCounters : List Nat := [kHoHostStats 9, kDiDispatchStats 9, kDyPdpStats 11, kDyNotifyLost]

theorem askTranslation_keeps (f page : Nat) (s : State) : Keeps eventCounters s (askTranslation f page s) := by
  unfold askTranslation
  split
  · exact Keeps.refl _ s
  · split
    · exact Keeps.refl _ s
    · exact (Keeps.of_obj rfl).trans ((keeps_bump _ _).mono (by decide))

theorem passItem_keeps (f : Nat) (i : HostItem) (s : State) : Keeps eventCounters s (passItem f i s) := by
  unfold passItem
  cases i with
  | msix v => dsimp only; split <;> exact Keeps.of_obj rfl
  | write a l o =>
    dsimp only
    split
    · exact touchTranslation_only.keeps.trans (Keeps.of_obj rfl)
    · exact (Keeps.of_obj rfl).trans (askTranslation_keeps _ _ _)
    · exact Keeps.of_obj rfl

theorem hostWrite_keeps (f addr : Nat) (l : List Byte) (s : State) : Keeps eventCounters s (hostWrite f addr l s) := by
  unfold hostWrite hostWriteFor
  split
  · exact Keeps.each (fun _ _ => passItem_keeps _ _ _) _ s
  · exact Keeps.refl _ s

theorem msix_keeps (f v : Nat) (s : State) : Keeps eventCounters s (msix f v s) := by
  unfold msix
  dsimp only
  split
  · exact passItem_keeps _ _ s
  · exact Keeps.of_obj rfl

theorem eqAppend_keeps (f ev : Nat) (s : State) : Keeps eventCounters s (eqAppend f ev s) := by
  unfold eqAppend
  dsimp only
  split
  · exact (hostWrite_keeps _ _ _ s).trans (modFn_only.keeps.trans (msix_keeps _ _ _))
  · exact (hostWrite_keeps _ _ _ s).trans modFn_only.keeps

theorem fnEvent_keeps (f ev : Nat) (s : State) : Keeps eventCounters s (fnEvent f ev s) := by
  unfold fnEvent
  dsimp only
  split
  · exact eqAppend_keeps f ev s
  · exact modFn_only.keeps.trans ((keeps_bump _ _).mono (by decide))

theorem queueNotify_keeps (transport dest idx sub : Nat) (value : List Byte) (s : State) :
    Keeps eventCounters s (queueNotify transport dest idx sub value s) := by
  have lost (t : State) (h : t.obj = s.obj) : Keeps eventCounters s (bump kDyNotifyLost t) :=
    (Keeps.of_obj h).trans ((keeps_bump _ _).mono (by decide))
  unfold queueNotify
  dsimp only
  split
  · split
    · exact Keeps.of_obj rfl
    · exact lost _ rfl
  · split
    · exact Keeps.of_obj rfl
    · exact lost _ rfl

theorem routeSend_keeps (i idx sub : Nat) (value : List Byte) (s : State) : Keeps eventCounters s (routeSend i idx sub value s) := by
  unfold routeSend
  dsimp only
  split
  · exact (fnEvent_keeps _ _ s).trans ((keeps_bump _ _).mono (by decide))
  · exact queueNotify_keeps _ _ _ _ _ s

theorem notifyEvent_keeps (ev : Nat) (s : State) : Keeps eventCounters s (notifyEvent ev s) := by
  unfold notifyEvent
  refine Keeps.each (fun i t => ?_) _ s
  dsimp only
  split
  · exact routeSend_keeps _ _ _ _ t
  · exact Keeps.refl _ t

/-- An event of the owner changes no object but the counters of what was reported. -/
theorem ownerEvent_keeps (ev : Nat) (hist : Option (Nat × Nat × Nat × Nat)) (s : State) : Keeps eventCounters s (ownerEvent ev hist s) := by
  unfold ownerEvent
  cases hist with
  | none => exact (fnEvent_keeps 0 ev s).trans (notifyEvent_keeps ev _)
  | some h => exact histAdd_only.keeps.trans ((fnEvent_keeps 0 ev _).trans (notifyEvent_keeps ev _))

/-! ### The records of the functions -/

/-- What each of a run of operations leaves alone, the run leaves alone. -/
theorem each_eq {α β : Type} {f : α → State → State} {g : State → β} (hf : ∀ a s, g (f a s) = g s) (l : List α) (s : State) :
    g (each l f s) = g s := by
  induction l generalizing s with
  | nil => rfl
  | cons a r ih => exact (ih (f a s)).trans (hf a s)

theorem fnOf_of_fns {s t : State} (h : t.host.fns = s.host.fns) (f : Nat) : fnOf t f = fnOf s f := by rw [fnOf, fnOf, h]

theorem askTranslation_fns (f page : Nat) (s : State) : (askTranslation f page s).host.fns = s.host.fns := by
  unfold askTranslation
  split
  · rfl
  · split <;> rfl

theorem touchTranslation_fns (f page : Nat) (s : State) : (touchTranslation f page s).host.fns = s.host.fns := by
  unfold touchTranslation
  split <;> rfl

theorem passItem_fns (f : Nat) (i : HostItem) (s : State) : (passItem f i s).host.fns = s.host.fns := by
  unfold passItem
  cases i with
  | msix v => dsimp only; split <;> rfl
  | write a l o =>
    dsimp only
    split
    · exact touchTranslation_fns _ _ s
    · exact askTranslation_fns _ _ _
    · rfl

/-- A message sets at most a pending bit: the event queue of no function changes. -/
theorem msix_eq (f v : Nat) (s : State) (g : Nat) : (fnOf (msix f v s) g).eq = (fnOf s g).eq := by
  unfold msix
  dsimp only
  split
  · rw [fnOf_of_fns (passItem_fns _ _ s)]
  · by_cases h : g = f
    · rw [h, fnOf_setFn_self]
    · rw [fnOf_setFn_ne h]

end Sys2Proof.Machine
end

section
/-!
PROOFS. First configuration without a stored image, replayed wakes, the recovery flows that end on an event of their own, and the oscillator
(20_startup_and_recovery.md).
-/
namespace Sys2Proof.Machine

/-- A command that answers a next state, with its frame, gives what holds of that state. -/
theorem Runs.gives {l : List Part} {s t : State} {i : Instr} {P : State → Prop} (h : Runs l s (exec i s)) (ht : exec i s = .next t) (hp : P t) :
    Gives s i l P := by
  obtain ⟨u, hu, honly⟩ := h
  obtain rfl : t = u := by rw [ht] at hu; injection hu
  exact ⟨t, ht, honly, hp⟩

theorem whenDue_of {b : Bool} (h : b = true) (f : State → State) (s : State) : whenDue b f s = .next (f s) := by rw [whenDue, if_pos h]; rfl

theorem whenDue_of_not {b : Bool} (h : ¬b = true) (f : State → State) (s : State) : whenDue b f s = .next s := by rw [whenDue, if_neg h]; rfl

/-! A part that an operation does not list. -/

theorem Only.boot_eq {l : List Part} {s t : State} (h : Only l s t) (hl : Part.boot ∉ l := by decide) : t.boot = s.boot := h.same .boot hl
theorem Only.tim_eq {l : List Part} {s t : State} (h : Only l s t) (hl : Part.tim ∉ l := by decide) : t.tim = s.tim := h.same .tim hl

/-! ### First configuration without an image (R666, R683) -/

theorem histAdd_image (code sev loc detail : Nat) (s : State) : (histAdd code sev loc detail s).dict.image = s.dict.image := by
  unfold histAdd
  dsimp only
  split
  · split <;> rfl
  · rfl

theorem histAdd_copyA (code sev loc detail : Nat) (s : State) : (histAdd code sev loc detail s).dict.copyA = s.dict.copyA := by
  unfold histAdd
  dsimp only
  split
  · split <;> rfl
  · rfl

theorem histAdd_pendingRecords (code sev loc detail : Nat) (s : State) :
    (histAdd code sev loc detail s).dict.pendingRecords = s.dict.pendingRecords := by
  unfold histAdd
  dsimp only
  split
  · split <;> rfl
  · rfl

/-- First configuration stands at a stage, and no image gave it anything to restore. -/
structure Unconfigured (n : Nat) (s t : State) : Prop where
  only : Only [.boot, .dict] s t
  boot : t.boot = { s.boot with fwReady := true, stage := n }
  image : t.dict.image = {}
  copyA : t.dict.copyA = s.dict.copyA

theorem Unconfigured.histAdd {n : Nat} {s t : State} (h : Unconfigured n s t) (code sev loc detail : Nat) :
    Unconfigured n s (histAdd code sev loc detail t) where
  only := h.only.trans (histAdd_only.mono)
  boot := histAdd_only.boot_eq.trans h.boot
  image := (histAdd_image ..).trans h.image
  copyA := (histAdd_copyA ..).trans h.copyA

theorem Unconfigured.rd {n : Nat} {s t : State} (h : Unconfigured n s t) (k : Nat) : rd t k = Machine.rd s k :=
  h.only.keeps (keys := []) (by decide) k List.not_mem_nil

theorem each_nil {α σ : Type} (f : α → σ → σ) (s : σ) : each [] f s = s := rfl

theorem restoreAll_nil (s : State) : restoreAll [] s = s := rfl

/-- Without records a stage restores nothing. -/
theorem stageRecords_of_no_image {s : State} (h : s.dict.image = {}) (n : Nat) : stageRecords s n = [] := by
  rw [stageRecords, h]
  rfl

theorem takeImage_unconfigured {s : State} (ha : s.dict.copyA.valid = false) (hb : s.dict.copyB.valid = false) (n : Nat) :
    Unconfigured n s (takeImage { s with boot := { s.boot with fwReady := true, stage := n } }) := by
  have hvalid : ¬(s.dict.copyA.valid || s.dict.copyB.valid) = true := by rw [ha, hb]; decide
  have hstart : Unconfigured n s { s with boot := { s.boot with fwReady := true, stage := n }, dict := { s.dict with image := {} } } :=
    ⟨Only.upd (Only.refl s), rfl, rfl, rfl⟩
  rw [takeImage]
  dsimp only
  rw [if_neg hvalid]
  exact hstart.histAdd _ _ _ _

theorem restoreAll_stageRecords_of_no_image {s : State} (h : s.dict.image = {}) (n : Nat) : restoreAll (stageRecords s n) s = s := by
  rw [stageRecords_of_no_image h]
  rfl

theorem stageTiming_of_no_image {s : State} (h : s.dict.image = {}) (hwarm : s.boot.start ≠ .cold) : stageTiming s = s := by
  rw [stageTiming, restoreAll_stageRecords_of_no_image h]
  exact if_neg hwarm

theorem stageDram_of_no_image {s : State} (h : s.dict.image = {}) : stageDram s = stageSkipped 6 s := by
  rw [stageDram, stageRecords_of_no_image h]
  rfl

theorem stageRegions_of_dram_down {s : State} (h : rd s kDrState ≠ 2) : stageRegions s = stageSkipped 8 s := if_neg h

theorem stageLanes_of_no_image {s : State} (h : s.dict.image = {}) : stageLanes s = s := by
  rw [stageLanes, stageRecords_of_no_image h]
  rfl

theorem stagePorts_of_no_image {s : State} (h : s.dict.image = {}) : stagePorts s = s := by
  rw [stagePorts, stageRecords_of_no_image h]
  rfl

theorem stageTenants_of_no_image {s : State} (h : s.dict.image = {}) : stageTenants s = { s with dict := { s.dict with pendingRecords := [] } } := by
  unfold stageTenants
  extract_lets l b src s1 s2
  have hl : l = [] := stageRecords_of_no_image h 12
  have hb : b = [] := congrArg (List.filter isBudget) hl
  have hs1 : s1 = { s with dict := { s.dict with pendingRecords := [] } } := by
    have hpending : s.dict.image.records.filter heldPending = [] := by rw [h]; rfl
    simp only [s1, hpending, src]
  have hs2 : s2 = s1 := by
    simp only [s2, hb, restoreAll_nil, each_nil, ite_self]
  rw [hl, hs2]
  exact hs1

/-- The stage that first configuration has reached. -/
def atStage (n : Nat) (s : State) : State := { s with boot := { s.boot with stage := n } }

theorem Unconfigured.atStage {n : Nat} {s t : State} (h : Unconfigured n s t) (m : Nat) : Unconfigured m s (atStage m t) :=
  ⟨Only.upd h.only, by rw [Machine.atStage, h.boot], h.image, h.copyA⟩

theorem laterStages_eq (s : State) :
    laterStages s = atStage 13 (oscNoted (stageTenants (stagePorts (stageLanes (
      restoreAll (stageRecords s 9) (stageRegions s)))))) := rfl

/-- Without an image, stages 2 to 7 start no DRAM and restore nothing. -/
theorem earlyStages_unconfigured {s : State} (ha : s.dict.copyA.valid = false) (hb : s.dict.copyB.valid = false) (hwarm : s.boot.start ≠ .cold) :
    Unconfigured 7 s (earlyStages s) := by
  unfold earlyStages
  extract_lets src s1 s2 s3
  have htaken : Unconfigured 2 s s1 := takeImage_unconfigured ha hb 2
  have hs2 : s2 = stageSkipped 6 s1 := by
    simp only [s2]
    rw [restoreAll_stageRecords_of_no_image htaken.image, restoreAll_stageRecords_of_no_image htaken.image,
      stageTiming_of_no_image htaken.image (by rw [htaken.boot]; exact hwarm), stageDram_of_no_image htaken.image]
  have hskipped : Unconfigured 2 s s2 := hs2 ▸ htaken.histAdd _ _ _ _
  have hs3 : s3 = s2 := restoreAll_stageRecords_of_no_image hskipped.image 7
  exact (hs3 ▸ hskipped : Unconfigured 2 s s3).atStage 7

/-- Nor do stages 8 to 13, while DRAM does not run. -/
theorem laterStages_unconfigured {s t : State} {n : Nat} (h : Unconfigured n s t) (hdram : Machine.rd s kDrState ≠ 2) :
    Unconfigured 13 s (laterStages t) ∧ (laterStages t).dict.pendingRecords = [] := by
  have hskipped : Unconfigured n s (stageSkipped 8 t) := h.histAdd _ _ _ _
  have hrecords : restoreAll (stageRecords t 9) (stageSkipped 8 t) = stageSkipped 8 t := by rw [stageRecords_of_no_image h.image]; rfl
  rw [laterStages_eq, stageRegions_of_dram_down (by rwa [h.rd]), hrecords, stageLanes_of_no_image hskipped.image,
    stagePorts_of_no_image hskipped.image, stageTenants_of_no_image hskipped.image]
  generalize hu : ({ stageSkipped 8 t with dict := _ } : State) = u
  have htenants : Unconfigured n s u := hu ▸ ⟨Only.upd hskipped.only, hskipped.boot, hskipped.image, hskipped.copyA⟩
  have hpending : u.dict.pendingRecords = [] := by rw [← hu]
  unfold oscNoted
  split
  · exact ⟨htenants.atStage 13, hpending⟩
  · exact ⟨(htenants.histAdd _ _ _ _).atStage 13, (histAdd_pendingRecords ..).trans hpending⟩

theorem goOn_of_ready {s : State} (hfw : s.boot.fwReady = true) (hstage : s.boot.stage = 7) (hdram : rd s kDrState ≠ 1) : goOn s = laterStages s := by
  rw [goOn, if_pos (by simp [hfw, hstage, hdram])]

theorem goOn_of_waiting {s : State} (h : s.boot.stage ≠ 7 ∨ rd s kDrState = 1) : goOn s = s := by
  rw [goOn, if_neg (by simp; tauto)]

theorem firmwareReady_due_iff (s : State) :
    (d0Runs s && s.boot.romRan && (s.boot.fwReady || s.boot.loaded.isSome)) = true ↔
      (d0Runs s = true ∧ s.boot.romRan = true) ∧ (s.boot.fwReady = true ∨ s.boot.loaded ≠ none) := by
  simp only [Bool.and_eq_true, Bool.or_eq_true, Option.isSome_iff_ne_none]

theorem exec_firmwareReady (s : State) : exec .firmwareReady s =
    whenDue (d0Runs s && s.boot.romRan && (s.boot.fwReady || s.boot.loaded.isSome)) (fun s => goOn (if s.boot.fwReady then s else earlyStages s)) s :=
  rfl

theorem firmwareReady_not_due {s : State} (h : ¬((d0Runs s = true ∧ s.boot.romRan = true) ∧ (s.boot.fwReady = true ∨ s.boot.loaded ≠ none))) :
    Idles s .firmwareReady :=
  (exec_firmwareReady s).trans (whenDue_of_not (mt (firmwareReady_due_iff s).mp h) _ s)

theorem firmwareReady_again {s : State} (h : d0Runs s = true ∧ s.boot.romRan = true) (hfw : s.boot.fwReady = true) :
    exec .firmwareReady s = .next (goOn s) := by
  rw [exec_firmwareReady, whenDue_of ((firmwareReady_due_iff s).mpr ⟨h, .inl hfw⟩), if_pos hfw]

theorem firmwareReady_first {s : State} (h : d0Runs s = true ∧ s.boot.romRan = true) (hfw : s.boot.fwReady = false) (hload : s.boot.loaded ≠ none) :
    exec .firmwareReady s = .next (goOn (earlyStages s)) := by
  rw [exec_firmwareReady, whenDue_of ((firmwareReady_due_iff s).mpr ⟨h, .inr hload⟩), hfw]
  rfl

/-- Firmware with no stored image: every default stays, and the stages are through (R666). -/
theorem firmwareReady_without_image {s : State} (h : d0Runs s = true ∧ s.boot.romRan = true) (hfw : s.boot.fwReady = false)
    (hload : s.boot.loaded ≠ none) (ha : s.dict.copyA.valid = false) (hb : s.dict.copyB.valid = false) (hwarm : s.boot.start ≠ .cold)
    (htrain : rd s kDrState ≠ 1) (hrun : rd s kDrState ≠ 2) :
    Gives s .firmwareReady [.boot, .dict] fun t => t.boot = { s.boot with fwReady := true, stage := 13 } ∧ t.dict.image = {} ∧
      t.dict.pendingRecords = [] ∧ t.dict.copyA = s.dict.copyA := by
  have hearly := earlyStages_unconfigured ha hb hwarm
  obtain ⟨hlater, hpending⟩ := laterStages_unconfigured hearly hrun
  have hgo : goOn (earlyStages s) = laterStages (earlyStages s) :=
    goOn_of_ready (by rw [hearly.boot]) (by rw [hearly.boot]) (by rwa [hearly.rd])
  exact ⟨_, (firmwareReady_first h hfw hload).trans (by rw [hgo]), hlater.only, hlater.boot, hlater.image, hpending, hlater.copyA⟩

/-! ### Replayed wakes (R25, R608) -/

/-- While the device is awake no wake event starts an exit: it is latched, or lost with the keeper link up. -/
theorem wakeEvent_awake {s : State} (h : deviceState s = 0) (src : WakeSource) :
    wakeEvent src s = if keeperUp s = true ∧ s.pow.tripHold = none then s else latchWake src s := by
  have hsleep : wakesFrom src (deviceState s) = false := by rw [h]; cases src <;> rfl
  unfold wakeEvent
  simp only [hsleep, Bool.false_and, Bool.false_eq_true, if_false, Bool.and_eq_true, Option.isNone_iff_eq_none]

/-- D1 with more wake events latched. -/
def latchAll (l : List WakeSource) (s : State) : State := { s with pow := { s.pow with latched := s.pow.latched ++ l } }

theorem latchAll_cons (src : WakeSource) (l : List WakeSource) (s : State) : latchAll l (latchWake src s) = latchAll (src :: l) s := by
  simp only [latchAll, latchWake, List.append_assoc, List.singleton_append]

/-- A run of wake events while the device is awake. -/
theorem each_wakeEvent_awake (l : List WakeSource) {s : State} (h : deviceState s = 0) :
    each l wakeEvent s = if keeperUp s = true ∧ s.pow.tripHold = none then s else latchAll l s := by
  induction l generalizing s with
  | nil => simp only [each_nil, latchAll, List.append_nil, ite_self]
  | cons src l ih =>
    have hstep : each (src :: l) wakeEvent s = each l wakeEvent (wakeEvent src s) := rfl
    rw [hstep, wakeEvent_awake h]
    split
    case isTrue hup => rw [ih h, if_pos hup]
    case isFalse hdown =>
      have hlatch : ¬(keeperUp (latchWake src s) = true ∧ (latchWake src s).pow.tripHold = none) := hdown
      rw [ih (s := latchWake src s) h, if_neg hlatch, latchAll_cons]

theorem keeperWakeReplay_due_iff (s : State) : (d0Runs s && !s.pow.latched.isEmpty) = true ↔ d0Runs s = true ∧ s.pow.latched ≠ [] := by
  simp

/-- What D1 latched is taken, and the mark of a trip goes. -/
def wakesTaken (s : State) : State := { s with pow := { s.pow with latched := [], tripMark := 0 } }

theorem exec_keeperWakeReplay (s : State) : exec .keeperWakeReplay s =
    whenDue (d0Runs s && !s.pow.latched.isEmpty) (fun s => each s.pow.latched wakeEvent (wakesTaken s)) s := rfl

theorem keeperWakeReplay_due {s : State} (h : d0Runs s = true ∧ s.pow.latched ≠ []) :
    exec .keeperWakeReplay s = .next (each s.pow.latched wakeEvent (wakesTaken s)) :=
  (exec_keeperWakeReplay s).trans (whenDue_of ((keeperWakeReplay_due_iff s).mpr h) _ s)

theorem keeperWakeReplay_not_due {s : State} (h : ¬(d0Runs s = true ∧ s.pow.latched ≠ [])) : Idles s .keeperWakeReplay :=
  (exec_keeperWakeReplay s).trans (whenDue_of_not (mt (keeperWakeReplay_due_iff s).mp h) _ s)

theorem keeperWakeReplay_awake {s : State} (h : d0Runs s = true ∧ s.pow.latched ≠ []) (hawake : deviceState s = 0) :
    Gives s .keeperWakeReplay [.pow] fun t => t.pow = { s.pow with
      latched := if keeperUp s = true ∧ s.pow.tripHold = none then [] else s.pow.latched, tripMark := 0 } := by
  have hrun : each s.pow.latched wakeEvent (wakesTaken s) =
      if keeperUp s = true ∧ s.pow.tripHold = none then wakesTaken s else latchAll s.pow.latched (wakesTaken s) :=
    each_wakeEvent_awake s.pow.latched (s := wakesTaken s) hawake
  have htaken : Only [.pow] s (wakesTaken s) := Only.upd (Only.refl s)
  refine ⟨_, (keeperWakeReplay_due h).trans (congrArg _ hrun), ?_⟩
  by_cases hup : keeperUp s = true ∧ s.pow.tripHold = none
  · rw [if_pos hup, if_pos hup]
    exact ⟨htaken, rfl⟩
  · rw [if_neg hup, if_neg hup]
    exact ⟨Only.upd htaken, rfl⟩

/-! ### Self-tests in recovery flows (Tables 15-5 and 20-10) -/

theorem exec_selftestDone (u : Fin 228) (pass : Bool) (s : State) : exec (.selftestDone u pass) s =
    whenDue (roleFn (roleWord s u.val) == 1 &&
      ((match (unitSt s u.val).task with
        | some (.substitution _) => true
        | _ => false) || inFlow s 1 u.val || inFlow s 2 u.val))
      (fun s => if inFlow s 2 u.val then endFlow 2 u.val (if pass then 1 else 2) (unitLoc u.val) 0 (engineTestEnd u.val pass s)
        else finishLoads (overcommitCheck (endFlow 1 u.val (if pass then 1 else 2) (unitLoc u.val) 0 (coreTestEnd u.val pass s)))) s := rfl

theorem selftestDone_due_iff (s : State) (n : Nat) :
    (roleFn (roleWord s n) == 1 &&
      ((match (unitSt s n).task with
        | some (.substitution _) => true
        | _ => false) || inFlow s 1 n || inFlow s 2 n)) = true ↔
      roleFn (roleWord s n) = 1 ∧ ((∃ k, (unitSt s n).task = some (.substitution k)) ∨ inFlow s 1 n = true ∨ inFlow s 2 n = true) := by
  rw [Bool.and_eq_true, beq_iff_eq, Bool.or_eq_true, Bool.or_eq_true, or_assoc]
  refine and_congr_right fun _ => or_congr ?_ Iff.rfl
  split
  case h_1 k hk => simp [hk]
  case h_2 hnot => exact iff_of_false Bool.false_ne_true fun ⟨k, hk⟩ => hnot k hk

/-- The units whose self-test the device waits for. -/
def testAwaited (s : State) (n : Nat) : Prop :=
  roleFn (roleWord s n) = 1 ∧ ((∃ k, (unitSt s n).task = some (.substitution k)) ∨ inFlow s 1 n = true ∨ inFlow s 2 n = true)

theorem selftestDone_not_due {u : Fin 228} {pass : Bool} {s : State} (h : ¬testAwaited s u.val) : Idles s (.selftestDone u pass) :=
  (exec_selftestDone u pass s).trans (whenDue_of_not (mt (selftestDone_due_iff s u.val).mp h) _ s)

theorem selftestDone_of_engine {u : Fin 228} {pass : Bool} {s : State} (h : testAwaited s u.val) (hflow : inFlow s 2 u.val = true) :
    exec (.selftestDone u pass) s = .next (endFlow 2 u.val (if pass then 1 else 2) (unitLoc u.val) 0 (engineTestEnd u.val pass s)) := by
  rw [exec_selftestDone, whenDue_of ((selftestDone_due_iff s u.val).mpr h), if_pos hflow]

theorem selftestDone_of_core {u : Fin 228} {pass : Bool} {s : State} (h : testAwaited s u.val) (hflow : inFlow s 2 u.val = false) :
    exec (.selftestDone u pass) s = .next (finishLoads (overcommitCheck
      (endFlow 1 u.val (if pass then 1 else 2) (unitLoc u.val) 0 (coreTestEnd u.val pass s)))) := by
  rw [exec_selftestDone, whenDue_of ((selftestDone_due_iff s u.val).mpr h), if_neg (by rw [hflow]; decide)]

/-! ### Recovery flows as they run (R689) -/

/-- The next attempt of a flow on a unit. -/
def retried (flow unit due : Nat) (r : Recovery) : Recovery :=
  if r.flow = flow && r.unit = unit then { r with attempt := r.attempt + 1, due := due } else r

theorem flowTry_recoveries (flow unit due : Nat) (s : State) :
    (flowTry flow unit due s).boot.recoveries = s.boot.recoveries.map (retried flow unit due) := rfl

theorem retried_flow (flow unit due : Nat) (r : Recovery) : (retried flow unit due r).flow = r.flow := by
  unfold retried
  split <;> rfl

theorem retried_unit (flow unit due : Nat) (r : Recovery) : (retried flow unit due r).unit = r.unit := by
  unfold retried
  split <;> rfl

/-- An attempt is counted on the flow that runs. -/
theorem flowOf_flowTry_self {s : State} {flow unit : Nat} {r : Recovery} (h : flowOf s flow unit = some r) (due : Nat) :
    flowOf (flowTry flow unit due s) flow unit = some { r with attempt := r.attempt + 1, due := due } := by
  have hr : (r.flow == flow && r.unit == unit) = true := List.find?_some (p := fun r : Recovery => r.flow == flow && r.unit == unit) h
  have hkeeps : (fun r : Recovery => r.flow == flow && r.unit == unit) ∘ retried flow unit due = fun r => r.flow == flow && r.unit == unit := by
    funext x
    rw [Function.comp_apply, retried_flow, retried_unit]
  rw [flowOf, flowTry_recoveries, List.find?_map, hkeeps]
  rw [flowOf] at h
  rw [h, Option.map_some, retried, if_pos (by simpa using hr)]

theorem recoveryEvent_boot (flow outcome loc detail : Nat) (s : State) : (recoveryEvent flow outcome loc detail s).boot = s.boot :=
  recoveryEvent_only.boot_eq

/-- A flow that ends leaves the list, and nothing else of start-up changes. -/
theorem endFlow_boot (flow unit outcome loc detail : Nat) (s : State) :
    (endFlow flow unit outcome loc detail s).boot =
      { s.boot with recoveries := s.boot.recoveries.filter fun r => !(r.flow == flow && r.unit == unit) } := by
  unfold endFlow
  split
  case isTrue h => exact recoveryEvent_boot ..
  case isFalse h =>
    have hnone : s.boot.recoveries.filter (fun r => !(r.flow == flow && r.unit == unit)) = s.boot.recoveries := by
      refine List.filter_eq_self.mpr fun r hr => ?_
      rw [inFlow, List.any_eq_true] at h
      rw [Bool.not_eq_true']
      exact Bool.eq_false_iff.mpr fun hf => h ⟨r, hr, hf⟩
    rw [hnone]

theorem inFlow_endFlow_self (flow unit outcome loc detail : Nat) (s : State) : inFlow (endFlow flow unit outcome loc detail s) flow unit = false := by
  rw [inFlow, endFlow_boot, List.any_eq_false]
  intro r hr
  have hother := (List.mem_filter.mp hr).2
  rw [Bool.not_eq_true'] at hother
  rw [hother]
  exact Bool.false_ne_true

theorem recoveryEvent_keeps (flow outcome loc detail : Nat) (s : State) : Keeps eventCounters s (recoveryEvent flow outcome loc detail s) :=
  ownerEvent_keeps _ _ s

theorem endFlow_keeps (flow unit outcome loc detail : Nat) (s : State) : Keeps eventCounters s (endFlow flow unit outcome loc detail s) := by
  unfold endFlow
  split
  · refine Keeps.trans ?_ (recoveryEvent_keeps _ _ _ _ _)
    exact Keeps.of_obj rfl
  · exact Keeps.refl _ s

/-- A flow that starts runs; one that ran goes on. -/
theorem inFlow_startFlow_self (flow unit loc detail due : Nat) (s : State) : inFlow (startFlow flow unit loc detail due s) flow unit = true := by
  unfold startFlow
  split
  case isTrue h => exact h
  case isFalse h =>
    rw [inFlow, recoveryEvent_boot]
    simp

/-! ### DRAM tried again (Table 20-10) -/

/-- START = 1 takes effect: DRAM trains, and every installed channel with it (R474). -/
theorem wStart_one {s : State} (hstop : dramStopped s = true) (hok : dramConfigOk s = true) :
    wStart 1 s = (none, each (upto 8) (fun c t => wr (kDcState c) (b2n (bitAt (rd s kDrChannels) c)) t) (wr kDrState 1 s)) := by
  unfold wStart
  rw [if_pos rfl, if_neg (by rw [hstop]; decide), if_neg (by rw [hok]; decide)]
  rfl

theorem wStart_one_refused {s : State} (h : dramStopped s = false ∨ dramConfigOk s = false) : ∃ a, wStart 1 s = (some a, s) := by
  unfold wStart
  rw [if_pos rfl]
  split
  · exact ⟨_, rfl⟩
  · have hok : dramConfigOk s = false := h.resolve_left (by simp_all)
    rw [if_pos (by rw [hok]; rfl)]
    exact ⟨_, rfl⟩

theorem rd_each_wr_of_not_mem {l : List Nat} {key v : Nat → Nat} {k : Nat} (h : ∀ c ∈ l, k ≠ key c) (s : State) :
    rd (each l (fun c => wr (key c) (v c)) s) k = rd s k := by
  induction l generalizing s with
  | nil => rfl
  | cons a r ih =>
    have hrest := ih (fun c hc => h c (List.mem_cons_of_mem a hc)) (wr (key a) (v a) s)
    exact hrest.trans (rd_wr_ne (h a List.mem_cons_self) _ s)

theorem rd_each_wr_of_mem {l : List Nat} {key v : Nat → Nat} (hkey : key.Injective) {c : Nat} (h : c ∈ l) (s : State) :
    rd (each l (fun c => wr (key c) (v c)) s) (key c) = v c := by
  induction l generalizing s with
  | nil => exact absurd h List.not_mem_nil
  | cons a r ih =>
    by_cases hr : c ∈ r
    · exact ih hr (wr (key a) (v a) s)
    · obtain rfl : c = a := (List.mem_cons.mp h).resolve_right hr
      have hrest := rd_each_wr_of_not_mem (v := v) (k := key c) (fun d hd hk => hr (hkey hk ▸ hd)) (wr (key c) (v c) s)
      exact hrest.trans (rd_wr_self _ _ s)

theorem kDcState_injective : kDcState.Injective := fun a b h => by
  unfold kDcState okey at h
  omega

theorem kDrState_ne_kDcState (c : Nat) : kDrState ≠ kDcState c := by
  unfold kDrState kDcState okey
  omega

/-- DRAM training starts on every installed channel. -/
theorem wStart_one_trains {s : State} (hstop : dramStopped s = true) (hok : dramConfigOk s = true) :
    (wStart 1 s).1 = none ∧ rd (wStart 1 s).2 kDrState = 1 ∧ ∀ c ∈ chanList s, chanState (wStart 1 s).2 c = 1 := by
  rw [wStart_one hstop hok]
  refine ⟨rfl, ?_, fun c hc => ?_⟩
  · exact (rd_each_wr_of_not_mem (fun c _ => kDrState_ne_kDcState c) (wr kDrState 1 s)).trans (rd_wr_self _ _ s)
  · obtain ⟨hlt, hbit⟩ := List.mem_filter.mp hc
    have hset := rd_each_wr_of_mem (v := fun c => b2n (bitAt (rd s kDrChannels) c)) kDcState_injective hlt (wr kDrState 1 s)
    exact hset.trans (by rw [hbit]; rfl)

theorem dramRestartRetry_no_flow {s : State} (h : flowOf s 3 0 = none) : Idles s .dramRestartRetry := by
  have hexec : exec .dramRestartRetry s = execDramRestartRetry s := rfl
  rw [Idles, hexec, execDramRestartRetry, h]
  rfl

theorem dramRestartRetry_not_due {s : State} {r : Recovery} (h : flowOf s 3 0 = some r) (hnot : r.attempt ≠ 0 ∨ now s < r.due) :
    Idles s .dramRestartRetry := by
  have hexec : exec .dramRestartRetry s = execDramRestartRetry s := rfl
  rw [Idles, hexec, execDramRestartRetry, h]
  refine whenDue_of_not ?_ _ s
  rw [Bool.and_eq_true, beq_iff_eq, decide_eq_true_eq]
  omega

theorem dramRestartRetry_due {s : State} {r : Recovery} (h : flowOf s 3 0 = some r) (hfirst : r.attempt = 0) (hdue : r.due ≤ now s) :
    exec .dramRestartRetry s = .next (match wStart 1 (flowTry 3 0 0 s) with
      | (none, t) => t
      | (some _, t) => endFlow 3 0 3 0 0 t) := by
  have hexec : exec .dramRestartRetry s = execDramRestartRetry s := rfl
  rw [hexec, execDramRestartRetry, h]
  refine (whenDue_of ?_ _ s).trans rfl
  rw [Bool.and_eq_true, beq_iff_eq, decide_eq_true_eq]
  exact ⟨hfirst, hdue⟩

theorem dramRestartRetry_trains {s : State} {r : Recovery} (h : flowOf s 3 0 = some r) (hfirst : r.attempt = 0) (hdue : r.due ≤ now s)
    (hstop : dramStopped s = true) (hok : dramConfigOk s = true) :
    Gives s .dramRestartRetry [.obj, .boot] fun t => rd t kDrState = 1 ∧ (∀ c ∈ chanList s, chanState t c = 1) ∧
      ∃ x, flowOf t 3 0 = some x ∧ x.attempt = 1 := by
  have htrains := wStart_one_trains (s := flowTry 3 0 0 s) hstop hok
  have honly : Only [.obj, .boot] s (wStart 1 (flowTry 3 0 0 s)).2 := Only.after wStart_only (by decide) flowTry_only.mono
  have hboot : (wStart 1 (flowTry 3 0 0 s)).2.boot = (flowTry 3 0 0 s).boot := wStart_only.boot_eq
  have hexec := dramRestartRetry_due h hfirst hdue
  generalize wStart 1 (flowTry 3 0 0 s) = w at *
  obtain ⟨answer, t⟩ := w
  obtain ⟨hnone, hstate, hchans⟩ := htrains
  cases hnone
  have hflow : flowOf t 3 0 = some { r with attempt := r.attempt + 1, due := 0 } := by
    rw [flowOf, hboot]
    exact flowOf_flowTry_self h 0
  exact ⟨t, hexec, honly, hstate, hchans, _, hflow, by rw [hfirst]⟩

theorem dramRestartRetry_refused {s : State} {r : Recovery} (h : flowOf s 3 0 = some r) (hfirst : r.attempt = 0) (hdue : r.due ≤ now s)
    (hrefused : dramStopped s = false ∨ dramConfigOk s = false) :
    Gives s .dramRestartRetry [.obj, .boot, .host, .dict, .out] fun t => inFlow t 3 0 = false ∧ rd t kDrState = rd s kDrState := by
  obtain ⟨a, hw⟩ := wStart_one_refused (s := flowTry 3 0 0 s) hrefused
  have hexec := dramRestartRetry_due h hfirst hdue
  rw [hw] at hexec
  exact execDramRestartRetry_only.gives hexec ⟨inFlow_endFlow_self .., endFlow_keeps 3 0 3 0 0 _ kDrState (by decide)⟩

/-! ### Lanes cycled in recovery (Table 20-10) -/

theorem laneRecoveryTimer_of_no_flow {x : LaneId} {s : State} (h : flowOf s 4 x.val = none) :
    exec (.laneRecoveryTimer x) s =
      whenDue (laneState s x.val == 1 && bitAt (rd s (kLaLinkFlags x.val)) 0 && !bitAt (rd s (kLaLinkFlags x.val)) 1 &&
          decide ((laneOf s x.val).since + secToTc 5 ≤ now s))
        (fun s => laneCycle x.val (flowTry 4 x.val (now s + secToTc 10) (startFlow 4 x.val (locLane x.val) 1 0 s))) s := by
  have hexec : exec (.laneRecoveryTimer x) s = execLaneRecoveryTimer x s := rfl
  rw [hexec, execLaneRecoveryTimer, h]

theorem laneRecoveryTimer_of_flow {x : LaneId} {s : State} {r : Recovery} (h : flowOf s 4 x.val = some r) :
    exec (.laneRecoveryTimer x) s = whenDue (decide (r.due ≤ now s)) (fun s =>
      if r.attempt < 3 then laneCycle x.val (flowTry 4 x.val (now s + secToTc 10) s)
      else endFlow 4 x.val 3 (locLane x.val) r.attempt (laneOff x.val s)) s := by
  have hexec : exec (.laneRecoveryTimer x) s = execLaneRecoveryTimer x s := rfl
  rw [hexec, execLaneRecoveryTimer, h]

/-! ### The oscillator (R691) -/

/-- Objects that a change of the timing state writes. -/
def timingStateKeys : List Nat := kTiState :: kTiClassNow :: kTiTimeQuality :: eventCounters

theorem refreshQuality_keeps (s : State) : Keeps [kTiClassNow, kTiTimeQuality] s (refreshQuality s) := by
  unfold refreshQuality
  extract_lets sel src s1
  have hstart : Keeps [kTiClassNow, kTiTimeQuality] s s1 := by
    simp only [s1]
    split
    · exact Keeps.of_obj rfl
    · exact Keeps.refl _ s
  exact hstart.trans (((keeps_wr kTiTimeQuality _ _).mono (by decide)).trans ((keeps_wr kTiClassNow _ _).mono (by decide)))

theorem refreshQuality_dtc (s : State) : (refreshQuality s).tim.dtc = s.tim.dtc := by
  unfold refreshQuality
  dsimp only
  split <;> rfl

theorem setTimState_keeps (st : Nat) (s : State) : Keeps timingStateKeys s (setTimState st s) := by
  unfold setTimState
  split
  · exact Keeps.refl _ s
  · refine Keeps.trans ?_ ((refreshQuality_keeps _).mono (by decide))
    refine Keeps.trans ?_ ((ownerEvent_keeps _ _ _).mono (by decide))
    refine Keeps.trans ?_ ((keeps_wr _ _ _).mono (by decide))
    exact Keeps.of_obj rfl

theorem setTimState_state (st : Nat) (s : State) : rd (setTimState st s) kTiState = st := by
  unfold setTimState
  split
  case isTrue h => exact h
  case isFalse h =>
    dsimp only
    rw [refreshQuality_keeps _ kTiState (by decide), ownerEvent_keeps _ _ _ kTiState (by decide), rd_wr_self]

theorem setTimState_dtc (st : Nat) (s : State) : (setTimState st s).tim.dtc = s.tim.dtc := by
  unfold setTimState
  split
  · rfl
  · dsimp only
    rw [refreshQuality_dtc, ownerEvent_only.tim_eq]
    rfl

theorem enterHoldover_state (s : State) : rd (enterHoldover s) kTiState = 3 := by
  unfold enterHoldover
  split
  case isTrue h => exact h
  case isFalse h => exact setTimState_state 3 _

theorem enterHoldover_dtc (s : State) : (enterHoldover s).tim.dtc = s.tim.dtc := by
  unfold enterHoldover
  split
  · rfl
  · dsimp only
    rw [setTimState_dtc]
    split <;> rfl

/-- On the PCIe reference clock no reference is selected and the loop runs free. -/
theorem toFallback_facts (s : State) :
    rd (toFallback s) kTiState = 0 ∧ selected (toFallback s) = 15 ∧ (toFallback s).tim.dtc = s.tim.dtc ∧
      (toFallback s).boot = { s.boot with oscOk := false, oscFallback := true } := by
  unfold toFallback
  dsimp only
  refine ⟨?_, ?_, ?_, ?_⟩
  · rw [refreshQuality_keeps _ kTiState (by decide), setTimState_state]
  · rw [selected, refreshQuality_keeps _ kTiSelected (by decide), setTimState_keeps _ _ kTiSelected (by decide), rd_wr_self]
  · rw [refreshQuality_dtc, setTimState_dtc]
    rfl
  · rw [refreshQuality_only.boot_eq, setTimState_only.boot_eq]
    rfl

/-- A warm reset leaves D0 in reset, without a recovery flow and without memory; the queue stays. -/
theorem warmReset_boot (cause : Nat) (s : State) : (warmReset cause s).boot.d0Reset = true ∧ (warmReset cause s).boot.start = .warm ∧
    (warmReset cause s).boot.recoveries = [] := by
  unfold warmReset
  dsimp only
  rw [refreshQuality_only.boot_eq]
  exact ⟨rfl, rfl, rfl⟩

theorem warmReset_mem (cause : Nat) (s : State) : (warmReset cause s).mem = [] := by
  unfold warmReset
  dsimp only
  exact refreshQuality_only.same .mem (by decide)

/-- Without a clock D1 holds D0 in a warm reset, of a cause the manual leaves open. -/
def holdWithoutClock (s : State) : State :=
  let ended := endFlow 5 0 3 0 0 s
  let held := warmReset (Config.freeValue (draw ended).1 % 256) (draw ended).2
  { held with boot := { held.boot with oscOk := false } }

theorem holdWithoutClock_facts (s : State) : (holdWithoutClock s).boot.oscOk = false ∧ (holdWithoutClock s).boot.d0Reset = true ∧
    (holdWithoutClock s).boot.start = .warm ∧ (holdWithoutClock s).mem = [] ∧ (holdWithoutClock s).boot.recoveries = [] := by
  unfold holdWithoutClock
  extract_lets ended held
  obtain ⟨hreset, hstart, hflows⟩ := warmReset_boot (Config.freeValue (draw ended).1 % 256) (draw ended).2
  exact ⟨rfl, hreset, hstart, warmReset_mem (Config.freeValue (draw ended).1 % 256) (draw ended).2, hflows⟩

theorem exec_oscLoss (pcie : Bool) (s : State) : exec (.oscLoss pcie) s = whenDue (d0Runs s && s.boot.oscOk)
    (fun s => if pcie then toFallback (startFlow 5 0 0 0 0 s) else holdWithoutClock (startFlow 5 0 0 0 0 s)) s := rfl

theorem oscLoss_due_iff (s : State) : (d0Runs s && s.boot.oscOk) = true ↔ d0Runs s = true ∧ s.boot.oscOk = true := by
  rw [Bool.and_eq_true]

theorem oscLoss_not_due {pcie : Bool} {s : State} (h : ¬(d0Runs s = true ∧ s.boot.oscOk = true)) : Idles s (.oscLoss pcie) :=
  (exec_oscLoss pcie s).trans (whenDue_of_not (mt (oscLoss_due_iff s).mp h) _ s)

/-- With the PCIe reference clock the device goes on, in flow 5. -/
theorem oscLoss_with_pcie {s : State} (h : d0Runs s = true ∧ s.boot.oscOk = true) :
    Gives s (.oscLoss true) [.obj, .tim, .boot, .host, .dict, .out] fun t => t.boot.oscOk = false ∧ t.boot.oscFallback = true ∧
      inFlow t 5 0 = true ∧ selected t = 15 ∧ rd t kTiState = 0 ∧ t.tim.dtc = s.tim.dtc := by
  obtain ⟨hstate, hselected, hdtc, hboot⟩ := toFallback_facts (startFlow 5 0 0 0 0 s)
  have hflow : inFlow (toFallback (startFlow 5 0 0 0 0 s)) 5 0 = true := by
    rw [inFlow, hboot]
    exact inFlow_startFlow_self 5 0 0 0 0 s
  have htim : (startFlow 5 0 0 0 0 s).tim = s.tim := startFlow_only.tim_eq
  exact ⟨_, (exec_oscLoss true s).trans (whenDue_of ((oscLoss_due_iff s).mpr h) _ s),
    Only.after toFallback_only (by decide) startFlow_only.mono, congrArg BootSt.oscOk hboot, congrArg BootSt.oscFallback hboot, hflow, hselected,
    hstate, hdtc.trans (congrArg TimSt.dtc htim)⟩

/-- Without it D1 holds D0 in a warm reset. -/
theorem oscLoss_without_pcie {s : State} (h : d0Runs s = true ∧ s.boot.oscOk = true) :
    ∃ t, exec (.oscLoss false) s = .next t ∧ t.pending = s.pending ∧ t.boot.oscOk = false ∧ t.boot.d0Reset = true ∧ t.boot.start = .warm ∧
      t.mem = [] ∧ t.boot.recoveries = [] := by
  have hexec : exec (.oscLoss false) s = .next (holdWithoutClock (startFlow 5 0 0 0 0 s)) :=
    (exec_oscLoss false s).trans (whenDue_of ((oscLoss_due_iff s).mpr h) _ s)
  obtain ⟨t, ht, honly, -⟩ := execOscLoss_only.gives (P := fun _ => True) hexec trivial
  obtain rfl : holdWithoutClock (startFlow 5 0 0 0 0 s) = t := by rw [hexec] at ht; injection ht
  exact ⟨_, hexec, honly.queue, holdWithoutClock_facts _⟩

/-- The PLLs move back to the oscillator, and timing holds over. -/
def backOnOscillator (s : State) : State :=
  let keep := if s.tim.u0.isNone then none else some (uncertainty s)
  let held := enterHoldover { s with tim := { s.tim with u0 := keep, lockTime := now s } }
  endFlow 5 0 1 0 0 (refreshQuality { held with boot := { held.boot with oscOk := true, oscFallback := false } })

theorem backOnOscillator_facts (s : State) : (backOnOscillator s).boot.oscOk = true ∧ (backOnOscillator s).boot.oscFallback = false ∧
    rd (backOnOscillator s) kTiState = 3 ∧ inFlow (backOnOscillator s) 5 0 = false ∧ (backOnOscillator s).tim.dtc = s.tim.dtc := by
  unfold backOnOscillator
  extract_lets keep src held
  have hstate : rd held kTiState = 3 := enterHoldover_state _
  have hdtc : held.tim.dtc = s.tim.dtc := enterHoldover_dtc _
  refine ⟨?_, ?_, ?_, inFlow_endFlow_self .., ?_⟩
  · rw [endFlow_boot, refreshQuality_only.boot_eq]
  · rw [endFlow_boot, refreshQuality_only.boot_eq]
  · rw [endFlow_keeps _ _ _ _ _ _ kTiState (by decide), refreshQuality_keeps _ kTiState (by decide)]
    exact hstate
  · rw [endFlow_only.tim_eq, refreshQuality_dtc]
    exact hdtc

theorem exec_oscReturn (s : State) : exec .oscReturn s = whenDue (!s.boot.oscOk)
    (fun s => if s.boot.oscFallback then backOnOscillator s else { s with boot := { s.boot with oscOk := true } }) s := rfl

theorem oscReturn_not_due {s : State} (h : s.boot.oscOk = true) : Idles s .oscReturn :=
  (exec_oscReturn s).trans (whenDue_of_not (by rw [h]; decide) _ s)

theorem oscReturn_in_reset {s : State} (h : s.boot.oscOk = false) (hfall : s.boot.oscFallback = false) :
    Gives s .oscReturn [.boot] fun t => t.boot = { s.boot with oscOk := true } := by
  have hexec := (exec_oscReturn s).trans (whenDue_of (by rw [h]; rfl) _ s)
  rw [if_neg (by rw [hfall]; decide)] at hexec
  exact ⟨_, hexec, Only.upd (Only.refl s), rfl⟩

theorem oscReturn_from_fallback {s : State} (h : s.boot.oscOk = false) (hfall : s.boot.oscFallback = true) :
    Gives s .oscReturn [.obj, .tim, .boot, .host, .dict, .out] fun t => t.boot.oscOk = true ∧ t.boot.oscFallback = false ∧
      rd t kTiState = 3 ∧ inFlow t 5 0 = false ∧ t.tim.dtc = s.tim.dtc := by
  have hexec := (exec_oscReturn s).trans (whenDue_of (by rw [h]; rfl) _ s)
  rw [if_pos hfall] at hexec
  exact execOscReturn_only.gives hexec (backOnOscillator_facts s)

/-- Settles O60: each flow is a lemma above about its command. -/
theorem startAndRecovery : Obligations.StartAndRecovery := by
  unfold Obligations.StartAndRecovery
  refine ⟨fun s => ⟨firmwareReady_not_due, ?firmwareWaits, ?firmwareGoesOn, fun h hfw hload => ⟨firmwareReady_first h hfw hload,
      fun ha hb hwarm htrain hrun => firmwareReady_without_image h hfw hload ha hb hwarm htrain hrun⟩⟩,
    fun s => ⟨keeperWakeReplay_not_due, fun h => ⟨keeperWakeReplay_due h, keeperWakeReplay_awake h⟩⟩,
    fun u pass s => ⟨selftestDone_not_due, selftestDone_of_engine, selftestDone_of_core⟩,
    fun s => ⟨dramRestartRetry_no_flow, fun r h => ⟨dramRestartRetry_not_due h, fun hfirst hdue =>
      ⟨dramRestartRetry_trains h hfirst hdue, dramRestartRetry_refused h hfirst hdue⟩⟩⟩,
    fun x s => ⟨fun h => ?laneNoFlow, fun r h => ?laneFlow⟩,
    fun pcie s => ⟨oscLoss_not_due, ?oscPcie, ?oscAlone, oscReturn_not_due, oscReturn_in_reset, oscReturn_from_fallback⟩⟩
  case firmwareWaits =>
    intro hfw hwait
    by_cases h : d0Runs s = true ∧ s.boot.romRan = true
    · exact (firmwareReady_again h hfw).trans (by rw [goOn_of_waiting hwait])
    · exact firmwareReady_not_due fun hdue => h hdue.1
  case firmwareGoesOn =>
    intro h hfw hstage hdram
    exact (firmwareReady_again h hfw).trans (by rw [goOn_of_ready hfw hstage hdram])
  case laneNoFlow =>
    rw [Idles, laneRecoveryTimer_of_no_flow h]
    refine ⟨fun hnot => whenDue_of_not ?_ _ s, fun hstuck => whenDue_of ?_ _ s⟩
    · simpa using hnot
    · simpa [and_assoc] using hstuck
  case laneFlow =>
    rw [Idles, laneRecoveryTimer_of_flow h]
    refine ⟨fun hnot => whenDue_of_not ?_ _ s, fun hdue htries => ?_, fun hdue htries => ?_⟩
    · rw [decide_eq_true_eq]
      omega
    · rw [whenDue_of (decide_eq_true hdue), if_pos htries]
    · rw [whenDue_of (decide_eq_true hdue), if_neg (by omega)]
  case oscPcie =>
    rintro h rfl
    exact oscLoss_with_pcie h
  case oscAlone =>
    rintro h rfl
    exact oscLoss_without_pcie h

end Sys2Proof.Machine
end

section
/-!
PROOFS. Registers, queue pairs and event queues of a host function (R621, R623, R625, R629).
-/
namespace Sys2Proof.Machine

/-! ### Records of a function -/

theorem fnOf_modFn_self (f : Nat) (g : FnSt → FnSt) (s : State) : fnOf (modFn f g s) f = g (fnOf s f) := fnOf_setFn_self ..

theorem qpOf_of_qps {s t : State} {f : Nat} (h : (fnOf t f).qps = (fnOf s f).qps) (n : Nat) : qpOf t f n = qpOf s f n := by rw [qpOf, qpOf, h]

theorem setQp_qpsKeep (f n : Nat) (q : QueuePair) (s : State) : QpsKeep f n s (setQp f n q s) := by
  intro g m h
  by_cases hg : g = f
  · subst hg
    exact qpOf_setQp_ne (fun hm => h ⟨rfl, hm⟩) q s
  · exact qpOf_of_qps (by rw [setQp, modFn, fnOf_setFn_ne hg]) m

theorem setQp_setQp (f n : Nat) (p q : QueuePair) (s : State) : QpsKeep f n s (setQp f n p (setQp f n q s)) :=
  fun g m h => (setQp_qpsKeep f n p _ g m h).trans (setQp_qpsKeep f n q s g m h)

/-! ### Byte enables (R621) -/

theorem setFld_eq (x lo w v : Nat) : setFld x lo w v = x - (x / 2 ^ lo % 2 ^ w) * 2 ^ lo + v % 2 ^ w * 2 ^ lo := by
  simp only [setFld, fld, Nat.shiftRight_eq_div_pow, Nat.shiftLeft_eq]

/-- A number whose lowest `lo` bits come from `v`, and the others from `x`. -/
def lowFrom (lo x v : Nat) : Nat := x / 2 ^ lo * 2 ^ lo + v % 2 ^ lo

/-- The field above the bits already taken from `v` is taken from `v` too. -/
theorem setFld_lowFrom (lo w x v : Nat) : setFld (lowFrom lo x v) lo w (fld v lo w) = lowFrom (lo + w) x v := by
  have hpos : 0 < 2 ^ lo := Nat.two_pow_pos lo
  have hhigh : (x / 2 ^ lo * 2 ^ lo + v % 2 ^ lo) / 2 ^ lo = x / 2 ^ lo := by
    rw [Nat.mul_comm, Nat.mul_add_div hpos, Nat.div_eq_of_lt (Nat.mod_lt _ hpos), Nat.add_zero]
  have hkept : x / 2 ^ lo * 2 ^ lo = x / 2 ^ lo % 2 ^ w * 2 ^ lo + x / 2 ^ (lo + w) * 2 ^ (lo + w) := by
    have hdiv : x / 2 ^ (lo + w) = x / 2 ^ lo / 2 ^ w := by rw [Nat.pow_add, Nat.div_div_eq_div_mul]
    rw [hdiv, Nat.add_comm lo w, Nat.pow_add, ← Nat.mul_assoc, ← Nat.add_mul, Nat.mod_add_div']
  have hlow : v % 2 ^ (lo + w) = v % 2 ^ lo + v / 2 ^ lo % 2 ^ w * 2 ^ lo := by rw [Nat.pow_add, Nat.mod_mul, Nat.mul_comm]
  rw [setFld_eq, fld, Nat.shiftRight_eq_div_pow, Nat.mod_mod, lowFrom, lowFrom, hhigh, hlow, hkept]
  omega

/-- With all bytes enabled the low 32 bits are those written. -/
theorem mergeBytes_all (old v : Nat) : mergeBytes 15 old v = lowFrom 32 old v := by
  have hbits : bitAt 15 0 = true ∧ bitAt 15 1 = true ∧ bitAt 15 2 = true ∧ bitAt 15 3 = true := by decide
  obtain ⟨h0, h1, h2, h3⟩ := hbits
  have hstart : old = lowFrom 0 old v := by simp [lowFrom, Nat.mod_one]
  simp only [mergeBytes, List.range, List.range.loop, List.foldl, h0, h1, h2, h3, if_true]
  calc setFld (setFld (setFld (setFld old 0 8 (fld v 0 8)) 8 8 (fld v 8 8)) 16 8 (fld v 16 8)) 24 8 (fld v 24 8)
    _ = setFld (setFld (setFld (setFld (lowFrom 0 old v) 0 8 (fld v 0 8)) 8 8 (fld v 8 8)) 16 8 (fld v 16 8)) 24 8 (fld v 24 8) := by rw [← hstart]
    _ = lowFrom 32 old v := by rw [setFld_lowFrom, setFld_lowFrom, setFld_lowFrom, setFld_lowFrom]

theorem mergeBytes_word {old : Nat} (h : old < 2 ^ 32) (v : Word) : mergeBytes 15 old v.toNat = v.toNat := by
  rw [mergeBytes_all, lowFrom, Nat.div_eq_of_lt h, Nat.mod_eq_of_lt v.isLt, Nat.zero_mul, Nat.zero_add]

theorem mergeBytes_mod (old : Nat) (v : Word) {n : Nat} (h : n ∣ 2 ^ 32) : mergeBytes 15 old v.toNat % n = v.toNat % n := by
  obtain ⟨k, hk⟩ := h
  rw [mergeBytes_all, lowFrom, Nat.mod_eq_of_lt v.isLt, hk, Nat.mul_left_comm, Nat.mul_add_mod]

theorem half_lt (hi : Bool) (x : Nat) : half hi x < 2 ^ 32 := by
  unfold half
  split <;> exact Nat.mod_lt _ (by decide)

/-! ### The access-error log (Table 18-5) -/

/-- A refused access is in the log and counted; the queue pairs of the function stay. -/
def AccessLogged (f : Nat) (s t : State) : Prop :=
  (fnOf t f).aeCount = min ((fnOf s f).aeCount + 1) (2 ^ 32 - 1) ∧ bitAt (fnOf t f).aeLog 31 = true ∧ ∀ n, qpOf t f n = qpOf s f n

/-- Setting the overflow bit of a valid log leaves it valid. -/
theorem bitAt_setFld_overflow {x : Nat} (h : bitAt x 31 = true) : bitAt (setFld x 30 1 1) 31 = true := by
  simp only [bitAt, setFld_eq, Nat.shiftRight_eq_div_pow, beq_iff_eq] at h ⊢
  omega

theorem bitAt_logEntry (ofs refused bar2 write be : Nat) :
    bitAt (pack [(0, 16, ofs), (17, 1, refused), (18, 1, bar2), (19, 1, write), (20, 4, be), (31, 1, 1)]) 31 = true := by
  simp only [bitAt, pack, Nat.shiftRight_eq_div_pow, Nat.shiftLeft_eq, beq_iff_eq]
  omega

theorem aeNote_logged (f : Nat) (bar2 write refused : Bool) (ofs be : Nat) (s : State) : AccessLogged f s (aeNote f bar2 write refused ofs be s) := by
  refine ⟨?_, ?_, fun n => qpOf_of_qps ?_ n⟩ <;> rw [aeNote, fnOf_modFn_self]
  · rfl
  · dsimp only
    split
    · exact bitAt_setFld_overflow ‹_›
    · exact bitAt_logEntry ..

theorem aeNote_eq (f : Nat) (bar2 write refused : Bool) (ofs be : Nat) (s : State) : (fnOf (aeNote f bar2 write refused ofs be s) f).eq = (fnOf s f).eq := by
  rw [aeNote, fnOf_modFn_self]

/-- A completer abort is sent and the access counted. -/
def AccessDenied (f : Nat) (s t : State) : Prop :=
  Counts 64 kHoAeTotal 1 s t ∧ Counts 64 (kHoHostStats 8) 1 s t ∧ t.out = s.out ++ [.completerAbort f]

theorem counts_accessError_total (loc fn bar addr : Nat) (s : State) : Counts 64 kHoAeTotal 1 s (accessError loc fn bar addr s) := by
  refine (counts_bump kHoAeTotal _).of_start ?_
  rw [keeps_bump (kHoHostStats 8) _ kHoAeTotal (by decide), keeps_wr kHoAeLast _ _ kHoAeTotal (by decide)]

theorem counts_accessError_stat (loc fn bar addr : Nat) (s : State) : Counts 64 (kHoHostStats 8) 1 s (accessError loc fn bar addr s) := by
  refine Counts.of_eq (Counts.of_start (counts_bump (kHoHostStats 8) _) ?_) (keeps_bump kHoAeTotal _ (kHoHostStats 8) (by decide))
  exact keeps_wr kHoAeLast _ _ (kHoHostStats 8) (by decide)

/-- An access denied in full: log and answer. -/
theorem badAccess_facts (f : Nat) (bar2 write : Bool) (ofs be : Nat) (s : State) :
    AccessLogged f s (badAccess f bar2 write ofs be s) ∧ AccessDenied f s (badAccess f bar2 write ofs be s) ∧
      (fnOf (badAccess f bar2 write ofs be s) f).eq = (fnOf s f).eq := by
  have hfn : fnOf (badAccess f bar2 write ofs be s) f = fnOf (aeNote f bar2 write false ofs be s) f := rfl
  obtain ⟨hcount, hvalid, hqps⟩ := aeNote_logged f bar2 write false ofs be s
  refine ⟨⟨by rw [hfn]; exact hcount, by rw [hfn]; exact hvalid, hqps⟩,
    ⟨counts_accessError_total _ _ _ _ (aeNote f bar2 write false ofs be s), counts_accessError_stat _ _ _ _ (aeNote f bar2 write false ofs be s), rfl⟩, ?_⟩
  rw [hfn, aeNote_eq]

/-! ### Queue pairs (R625) -/

/-- A queue in host memory is aligned and within reach. -/
def QueueFits (base bytes : Nat) : Prop := base % 64 = 0 ∧ base + bytes ≤ 0xFF00000000000

/-- What ENABLE checks of a queue pair. -/
def QpSound (q : QueuePair) : Prop :=
  QueueFits q.sqBase (64 * 2 ^ fld q.cfg 0 5) ∧ QueueFits q.cqBase (32 * 2 ^ fld q.cfg 8 5) ∧
    4 ≤ fld q.cfg 0 5 ∧ fld q.cfg 0 5 ≤ 12 ∧ 4 ≤ fld q.cfg 8 5 ∧ fld q.cfg 8 5 ≤ 16

/-- A queue pair as ENABLE leaves it. -/
def enabledQp (q : QueuePair) : QueuePair :=
  { q with state := .enabled, enable := true, cause := 0, sqHead := 0, sqTail := 0, cqTail := 0, cqHead := 0, phase := true, visible := [],
           fetching := none, held := [], cqStall := false, modCount := 0, modSince := none }

theorem hostQueueOk_iff (base bytes : Nat) : hostQueueOk base bytes = true ↔ QueueFits base bytes := by
  simp [hostQueueOk, QueueFits]

theorem qpEnable_of_disabled {f n : Nat} {s : State} (h : (qpOf s f n).state = .disabled) [Decidable (QpSound (qpOf s f n))] :
    qpEnable f n s = setQp f n (if QpSound (qpOf s f n) then enabledQp (qpOf s f n) else { qpOf s f n with cause := 1 }) s := by
  have hsound : (hostQueueOk (qpOf s f n).sqBase (64 * 2 ^ fld (qpOf s f n).cfg 0 5) && hostQueueOk (qpOf s f n).cqBase (32 * 2 ^ fld (qpOf s f n).cfg 8 5) &&
      4 ≤ fld (qpOf s f n).cfg 0 5 && fld (qpOf s f n).cfg 0 5 ≤ 12 && 4 ≤ fld (qpOf s f n).cfg 8 5 && fld (qpOf s f n).cfg 8 5 ≤ 16) = true ↔
      QpSound (qpOf s f n) := by
    simp [hostQueueOk_iff, QpSound, and_assoc]
  unfold qpEnable
  rw [if_pos h]
  by_cases hq : QpSound (qpOf s f n)
  · rw [if_pos (hsound.2 hq), if_pos hq]; rfl
  · rw [if_neg fun hb => hq (hsound.1 hb), if_neg hq]

theorem exec_qpEnable (fn : TenantId) (qp : QpId) (s : State) : exec (.qpEnable fn qp) s = .next (qpEnable fn.val qp.val s) := rfl

/-- QP_ENABLE of a disabled queue pair. -/
theorem qpEnable_refused {fn : TenantId} {qp : QpId} {s : State} (h : (qpOf s fn.val qp.val).state = .disabled) (hq : ¬QpSound (qpOf s fn.val qp.val)) :
    Gives s (.qpEnable fn qp) [.host] fun t => QpsKeep fn.val qp.val s t ∧ qpOf t fn.val qp.val = { qpOf s fn.val qp.val with cause := 1 } := by
  classical
  refine ⟨_, exec_qpEnable fn qp s, qpEnable_only, ?_⟩
  rw [qpEnable_of_disabled h, if_neg hq]
  exact ⟨setQp_qpsKeep _ _ _ _, qpOf_setQp_self ..⟩

theorem qpEnable_accepted {fn : TenantId} {qp : QpId} {s : State} (h : (qpOf s fn.val qp.val).state = .disabled) (hq : QpSound (qpOf s fn.val qp.val)) :
    Gives s (.qpEnable fn qp) [.host] fun t => QpsKeep fn.val qp.val s t ∧ qpOf t fn.val qp.val = enabledQp (qpOf s fn.val qp.val) := by
  classical
  refine ⟨_, exec_qpEnable fn qp s, qpEnable_only, ?_⟩
  rw [qpEnable_of_disabled h, if_pos hq]
  exact ⟨setQp_qpsKeep _ _ _ _, qpOf_setQp_self ..⟩

theorem exec_qpDisable (fn : TenantId) (qp : QpId) (s : State) : exec (.qpDisable fn qp) s = .next (qpDisable fn.val qp.val s) := rfl

theorem qpDisable_idle {fn : TenantId} {qp : QpId} {s : State} (h : (qpOf s fn.val qp.val).state = .disabled ∨ (qpOf s fn.val qp.val).state = .draining) :
    Idles s (.qpDisable fn qp) := by
  rw [Idles, exec_qpDisable, qpDisable]
  rcases h with h | h <;> simp only [h]

theorem qpDisable_quiesced {fn : TenantId} {qp : QpId} {s : State} (h : (qpOf s fn.val qp.val).state = .quiesced) :
    Gives s (.qpDisable fn qp) [.host] fun t => QpsKeep fn.val qp.val s t ∧
      qpOf t fn.val qp.val = { qpOf s fn.val qp.val with state := .disabled, enable := false, held := [] } := by
  refine ⟨_, exec_qpDisable fn qp s, qpDisable_only, ?_⟩
  simp only [qpDisable, h]
  exact ⟨setQp_qpsKeep _ _ _ _, qpOf_setQp_self ..⟩

/-- Nothing of a queue pair is on its way any more. -/
abbrev QpEmpty (f n : Nat) (s : State) : Prop :=
  (qpOf s f n).visible = [] ∧ (qpOf s f n).fetching = none ∧ (qpOf s f n).held = [] ∧ ∀ g ∈ s.work.graphs, ¬(g.tenant = f ∧ g.qp = n)

/-- A queue pair that is draining and empty is DISABLED. -/
theorem qpSettle_of_draining {f n : Nat} {s : State} (h : (qpOf s f n).state = .draining) :
    qpSettle f n s = if QpEmpty f n s then setQp f n { qpOf s f n with state := .disabled } s else s := by
  have hempty : qpDrained s f n = true ↔ QpEmpty f n s := by simp [qpDrained, QpEmpty, h, and_assoc]
  unfold qpSettle
  by_cases he : QpEmpty f n s
  · rw [if_pos (hempty.2 he), if_pos he]
  · rw [if_neg fun hb => he (hempty.1 hb), if_neg he]

theorem qpDisable_of_running {f n : Nat} {s : State} (h : (qpOf s f n).state = .enabled ∨ (qpOf s f n).state = .error) :
    qpDisable f n s = qpSettle f n (setQp f n { qpOf s f n with state := .draining, enable := false } s) := by
  unfold qpDisable
  rcases h with h | h <;> simp only [h]

theorem qpDisable_running {fn : TenantId} {qp : QpId} {s : State} (h : (qpOf s fn.val qp.val).state = .enabled ∨ (qpOf s fn.val qp.val).state = .error) :
    Gives s (.qpDisable fn qp) [.host] fun t => QpsKeep fn.val qp.val s t ∧
      qpOf t fn.val qp.val = { qpOf s fn.val qp.val with state := if QpEmpty fn.val qp.val s then .disabled else .draining, enable := false } := by
  refine ⟨_, exec_qpDisable fn qp s, qpDisable_only, ?_⟩
  have hempty : QpEmpty fn.val qp.val (setQp fn.val qp.val { qpOf s fn.val qp.val with state := .draining, enable := false } s) ↔
      QpEmpty fn.val qp.val s := by
    simp [QpEmpty]
  rw [qpDisable_of_running h, qpSettle_of_draining (by rw [qpOf_setQp_self])]
  by_cases he : QpEmpty fn.val qp.val s
  · rw [if_pos (hempty.2 he), if_pos he, qpOf_setQp_self]
    exact ⟨setQp_setQp _ _ _ _ _, qpOf_setQp_self ..⟩
  · rw [if_neg fun hb => he (hempty.1 hb), if_neg he]
    exact ⟨setQp_qpsKeep _ _ _ _, qpOf_setQp_self ..⟩

end Sys2Proof.Machine
end

section
/-!
PROOFS. Event queues and the registers of BAR0: what a read and a write of each does (R621, R623, R629).
-/
namespace Sys2Proof.Machine

theorem Only.out_eq {l : List Part} {s t : State} (h : Only l s t) (hl : Part.out ∉ l := by decide) : t.out = s.out := h.same .out hl

/-! ### Event queues (R623) -/

/-- The event queue of a function takes a record. -/
def setEq (f : Nat) (q : EventQueue) (s : State) : State := modFn f (fun r => { r with eq := q }) s

theorem eq_setEq (f : Nat) (q : EventQueue) (s : State) : (fnOf (setEq f q s) f).eq = q := by rw [setEq, fnOf_modFn_self]

/-- An event queue after one more entry, at time `t`. -/
def appendedEq (q : EventQueue) (t : Nat) : EventQueue :=
  let tail := (q.tail + 1) % eqSize q
  let fire := modLimit q.mod ≤ q.modCount + 1
  { q with tail := tail, phase := if tail = 0 then !q.phase else q.phase, modCount := if fire then 0 else q.modCount + 1,
           modSince := if fire then none else some (q.modSince.getD t) }

theorem eqAppend_eq (f ev : Nat) (s : State) : (fnOf (eqAppend f ev s) f).eq = appendedEq (fnOf s f).eq (now s) := by
  unfold eqAppend
  dsimp only
  by_cases hfire : modLimit (fnOf s f).eq.mod ≤ (fnOf s f).eq.modCount + 1
  · conv_lhs => rw [if_pos hfire, msix_eq, fnOf_modFn_self]
    rfl
  · conv_lhs => rw [if_neg hfire, fnOf_modFn_self]
    rfl

theorem eqDrain_of_quiet {f : Nat} {s : State} (h : (fnOf s f).eq.enable = false ∨ (fnOf s f).eq.lost = 0 ∨ eqFull (fnOf s f).eq = true) :
    eqDrain f s = s := by
  unfold eqDrain
  refine if_neg ?_
  rcases h with h | h | h <;> simp [h]

/-- An episode of lost events ends with one entry when there is room. -/
theorem eqDrain_of_lost {f : Nat} {s : State} (hon : (fnOf s f).eq.enable = true) (hlost : (fnOf s f).eq.lost ≠ 0)
    (hroom : eqFull (fnOf s f).eq = false) : (fnOf (eqDrain f s) f).eq = appendedEq { (fnOf s f).eq with lost := 0 } (now s) := by
  unfold eqDrain
  dsimp only
  rw [if_pos (by simp [hon, hlost, hroom]), eqAppend_eq, fnOf_modFn_self]
  rfl

/-- What ENABLE checks of an event queue. -/
def EqSound (q : EventQueue) : Prop :=
  q.base % 64 = 0 ∧ q.base + 32 * 2 ^ fld q.cfg 0 5 ≤ 0xFF00000000000 ∧ 4 ≤ fld q.cfg 0 5 ∧ fld q.cfg 0 5 ≤ 16

/-- An event queue as ENABLE leaves it. -/
def enabledEq (q : EventQueue) : EventQueue := { q with enable := true, head := 0, tail := 0, phase := true, modCount := 0, modSince := none }

theorem eqEnable_of_enabled {f : Nat} {s : State} (h : (fnOf s f).eq.enable = true) : eqEnable f s = s := if_pos h

theorem eqSound_iff (q : EventQueue) :
    (hostQueueOk q.base (32 * 2 ^ fld q.cfg 0 5) && decide (4 ≤ fld q.cfg 0 5) && decide (fld q.cfg 0 5 ≤ 16)) = true ↔ EqSound q := by
  simp [hostQueueOk, EqSound, and_assoc]

theorem eqEnable_of_unsound {f : Nat} {s : State} (h : (fnOf s f).eq.enable = false) (hq : ¬EqSound (fnOf s f).eq) :
    eqEnable f s = aeNote f false true true 0x02C 15 s := by
  unfold eqEnable
  dsimp only
  rw [if_neg (by simp [h]), if_neg fun hb => hq ((eqSound_iff _).1 hb)]

theorem eqEnable_of_sound {f : Nat} {s : State} (h : (fnOf s f).eq.enable = false) (hq : EqSound (fnOf s f).eq) :
    eqEnable f s = eqDrain f (setEq f (enabledEq (fnOf s f).eq) s) := by
  unfold eqEnable
  dsimp only
  rw [if_neg (by simp [h]), if_pos ((eqSound_iff _).2 hq)]
  rfl

theorem exec_eqEnable (fn : TenantId) (s : State) : exec (.eqEnable fn) s = .next (eqEnable fn.val s) := rfl

theorem eqEnable_refused {fn : TenantId} {s : State} (h : (fnOf s fn.val).eq.enable = false) (hq : ¬EqSound (fnOf s fn.val).eq) :
    Gives s (.eqEnable fn) [.host] fun t => AccessLogged fn.val s t ∧ (fnOf t fn.val).eq = (fnOf s fn.val).eq :=
  ⟨_, (exec_eqEnable fn s).trans (by rw [eqEnable_of_unsound h hq]), aeNote_only, aeNote_logged .., aeNote_eq ..⟩

theorem eqEnable_without_lost {fn : TenantId} {s : State} (h : (fnOf s fn.val).eq.enable = false) (hq : EqSound (fnOf s fn.val).eq)
    (hlost : (fnOf s fn.val).eq.lost = 0) : Gives s (.eqEnable fn) [.host] fun t => (fnOf t fn.val).eq = enabledEq (fnOf s fn.val).eq := by
  refine ⟨_, (exec_eqEnable fn s).trans ?_, modFn_only, eq_setEq fn.val _ s⟩
  rw [eqEnable_of_sound h hq, eqDrain_of_quiet (.inr (.inl ?_))]
  · rfl
  · rw [eq_setEq]
    exact hlost

/-- An empty queue of 16 entries or more takes one. -/
theorem tail_of_first {q : EventQueue} (hq : EqSound q) : (0 + 1) % eqSize (enabledEq q) = 1 := by
  obtain ⟨_, _, hsize, _⟩ := hq
  refine Nat.mod_eq_of_lt ?_
  calc 1 < 2 ^ 4 := by decide
    _ ≤ eqSize (enabledEq q) := Nat.pow_le_pow_right (by decide) hsize

theorem eqEnable_with_lost {fn : TenantId} {s : State} (h : (fnOf s fn.val).eq.enable = false) (hq : EqSound (fnOf s fn.val).eq)
    (hlost : (fnOf s fn.val).eq.lost ≠ 0) : Gives s (.eqEnable fn) [.obj, .host, .out] fun t => let u := (fnOf t fn.val).eq
      u.enable = true ∧ u.head = 0 ∧ u.tail = 1 ∧ u.phase = true ∧ u.lost = 0 ∧
      u.base = (fnOf s fn.val).eq.base ∧ u.cfg = (fnOf s fn.val).eq.cfg := by
  refine ⟨_, exec_eqEnable fn s, eqEnable_only, ?_⟩
  have htail := tail_of_first hq
  have hset := eq_setEq fn.val (enabledEq (fnOf s fn.val).eq) s
  have hroom : eqFull (enabledEq (fnOf s fn.val).eq) = false := beq_eq_false_iff_ne.2 fun h0 => Nat.one_ne_zero (htail.symm.trans h0)
  have hafter : (fnOf (eqEnable fn.val s) fn.val).eq = appendedEq { enabledEq (fnOf s fn.val).eq with lost := 0 } (now s) := by
    rw [eqEnable_of_sound h hq, eqDrain_of_lost (by rw [hset]; rfl) (by rw [hset]; exact hlost) (by rw [hset]; exact hroom), hset]
    rfl
  dsimp only
  rw [hafter]
  exact ⟨rfl, rfl, htail, if_neg fun h0 => Nat.one_ne_zero (htail.symm.trans h0), rfl, rfl, rfl⟩

theorem eqHead_out_of_range {f be idx : Nat} {s : State} (h : eqSize (fnOf s f).eq ≤ idx) : eqHead f be idx s = aeNote f false true true 0x030 be s :=
  if_pos h

theorem eqHead_in_range {f be idx : Nat} {s : State} (h : idx < eqSize (fnOf s f).eq) :
    eqHead f be idx s = eqDrain f (setEq f { (fnOf s f).eq with head := idx } s) := if_neg (by omega)

theorem exec_eqHead (fn : TenantId) (v : Word) (s : State) : exec (.eqHead fn 15 v) s = .next (eqHead fn.val 15 (v.toNat % 65536) s) := by
  have hword : mergeBytes 15 (fnOf s fn.val).eq.head v.toNat % 65536 = v.toNat % 65536 := mergeBytes_mod _ v ⟨65536, by decide⟩
  have hexec : exec (.eqHead fn 15 v) s = .next (eqHead fn.val 15 (mergeBytes 15 (fnOf s fn.val).eq.head v.toNat % 65536) s) := rfl
  rw [hexec, hword]

theorem eqHead_refused {fn : TenantId} {v : Word} {s : State} (h : eqSize (fnOf s fn.val).eq ≤ v.toNat % 65536) :
    Gives s (.eqHead fn 15 v) [.host] fun t => AccessLogged fn.val s t ∧ (fnOf t fn.val).eq = (fnOf s fn.val).eq :=
  ⟨_, (exec_eqHead fn v s).trans (by rw [eqHead_out_of_range h]), aeNote_only, aeNote_logged .., aeNote_eq ..⟩

theorem eqHead_quiet {fn : TenantId} {v : Word} {s : State} (h : v.toNat % 65536 < eqSize (fnOf s fn.val).eq)
    (hq : (fnOf s fn.val).eq.enable = false ∨ (fnOf s fn.val).eq.lost = 0) :
    Gives s (.eqHead fn 15 v) [.host] fun t => (fnOf t fn.val).eq = { (fnOf s fn.val).eq with head := v.toNat % 65536 } := by
  refine ⟨_, (exec_eqHead fn v s).trans ?_, modFn_only, eq_setEq fn.val _ s⟩
  rw [eqHead_in_range h, eqDrain_of_quiet]
  · rfl
  · rw [eq_setEq]
    exact hq.imp_right .inl

theorem eqHead_with_lost {fn : TenantId} {v : Word} {s : State} (h : v.toNat % 65536 < eqSize (fnOf s fn.val).eq)
    (hon : (fnOf s fn.val).eq.enable = true) (hlost : (fnOf s fn.val).eq.lost ≠ 0) :
    Gives s (.eqHead fn 15 v) [.obj, .host, .out] fun t =>
      if ((fnOf s fn.val).eq.tail + 1) % eqSize (fnOf s fn.val).eq = v.toNat % 65536
      then (fnOf t fn.val).eq = { (fnOf s fn.val).eq with head := v.toNat % 65536 } ∧ t.out = s.out
      else (fnOf t fn.val).eq.head = v.toNat % 65536 ∧ (fnOf t fn.val).eq.tail = ((fnOf s fn.val).eq.tail + 1) % eqSize (fnOf s fn.val).eq ∧
        (fnOf t fn.val).eq.lost = 0 := by
  refine ⟨_, exec_eqHead fn v s, eqHead_only, ?_⟩
  have hset := eq_setEq fn.val { (fnOf s fn.val).eq with head := v.toNat % 65536 } s
  rw [eqHead_in_range h]
  split
  case isTrue hfull =>
    rw [eqDrain_of_quiet (.inr (.inr ?_))]
    · exact ⟨hset, rfl⟩
    · rw [hset, eqFull]
      exact beq_iff_eq.2 hfull
  case isFalse hroom =>
    have hafter := eqDrain_of_lost (by rw [hset]; exact hon) (by rw [hset]; exact hlost) (by rw [hset]; exact beq_eq_false_iff_ne.2 hroom)
    dsimp only
    rw [hafter, hset]
    exact ⟨rfl, rfl, rfl⟩

theorem eqDisable_gives (fn : TenantId) (s : State) :
    Gives s (.eqDisable fn) [.host] fun t => (fnOf t fn.val).eq = { (fnOf s fn.val).eq with enable := false } :=
  ⟨eqDisable fn.val s, rfl, eqDisable_only, congrArg FnSt.eq (fnOf_modFn_self ..)⟩

theorem aeLogClear_gives (fn : TenantId) (s : State) :
    Gives s (.aeLogClear fn) [.host] fun t => fnOf t fn.val = { fnOf s fn.val with aeLog := 0 } :=
  ⟨_, rfl, modFn_only, fnOf_modFn_self ..⟩

/-! ### Accesses whose byte enables are not contiguous (R621) -/

theorem contiguous_eq_false {be : BitVec 4} (h : be.toNat ∈ [5, 9, 10, 11, 13]) : contiguous be.toNat = false := by
  generalize be.toNat = n at h
  revert n
  decide

theorem register_access_denied {fn : TenantId} {ofs : BitVec 14} {be : BitVec 4} {v : Word} {s : State} (h : be.toNat ∈ [5, 9, 10, 11, 13])
    {i : Instr} (hi : i ∈ [Instr.eqHead fn be v, .counterLoRead fn ofs be, .registerWrite fn ofs be v]) :
    Gives s i [.obj, .host, .out] fun t => AccessLogged fn.val s t ∧ AccessDenied fn.val s t ∧ (fnOf t fn.val).eq = (fnOf s fn.val).eq := by
  have hnot : (!contiguous be.toNat) = true := by rw [contiguous_eq_false h]; rfl
  have hdenied : ∃ write ofs, exec i s = .next (badAccess fn.val false write ofs be.toNat s) := by
    simp only [List.mem_cons, List.not_mem_nil, or_false] at hi
    rcases hi with rfl | rfl | rfl
    · exact ⟨true, 0x030, if_pos hnot⟩
    · exact ⟨false, 4 * ofs.toNat, if_pos hnot⟩
    · exact ⟨true, 4 * ofs.toNat, if_pos hnot⟩
  obtain ⟨write, ofs, hexec⟩ := hdenied
  exact ⟨_, hexec, badAccess_only, badAccess_facts ..⟩

/-! ### Reads (R621) -/

theorem exec_counterLoRead (fn : TenantId) (ofs : BitVec 14) (s : State) : exec (.counterLoRead fn ofs 15) s =
    .next (send (.readData fn.val (toBytes 4 (regRead s fn.val (4 * ofs.toNat))) false) (latchRead fn.val (4 * ofs.toNat) s)) := rfl

theorem counterLoRead_gives {fn : TenantId} {ofs : BitVec 14} {s : State} {P : State → Prop}
    (hp : P (send (.readData fn.val (toBytes 4 (regRead s fn.val (4 * ofs.toNat))) false) (latchRead fn.val (4 * ofs.toNat) s))) :
    Gives s (.counterLoRead fn ofs 15) [.host, .out] fun t =>
      t.out = s.out ++ [.readData fn.val (toBytes 4 (regRead s fn.val (4 * ofs.toNat))) false] ∧ P t := by
  refine ⟨_, exec_counterLoRead fn ofs s, Only.upd (latchRead_only.mono), ?_, hp⟩
  rw [send, latchRead_only.out_eq]

/-- A read of the low word of a queue pair's counter latches its high word. -/
theorem latchRead_submitted (f : Nat) {n : Nat} (h : n < 16) (s : State) : latchRead f (0x1030 + 0x100 * n) s =
    setQp f n { qpOf s f n with latSubmitted := some (half true (qpOf s f n).submitted) } s := by
  have hn : (0x1030 + 0x100 * n - 0x1000) / 0x100 = n := by omega
  have ho : (0x1030 + 0x100 * n) % 0x100 = 0x30 := by omega
  rw [latchRead, if_neg (by omega), if_pos (by simp; omega)]
  dsimp only
  rw [hn, if_pos ho]

theorem latchRead_completed (f : Nat) {n : Nat} (h : n < 16) (s : State) : latchRead f (0x1038 + 0x100 * n) s =
    setQp f n { qpOf s f n with latCompleted := some (half true (qpOf s f n).completed) } s := by
  have hn : (0x1038 + 0x100 * n - 0x1000) / 0x100 = n := by omega
  have ho : (0x1038 + 0x100 * n) % 0x100 = 0x38 := by omega
  rw [latchRead, if_neg (by omega), if_pos (by simp; omega)]
  dsimp only
  rw [hn, if_neg (by omega), if_pos ho]

theorem latchRead_other {f o : Nat} (h : o ≠ 0x10) (ho : o < 0x1000 ∨ 0x2000 ≤ o) (s : State) : latchRead f o s = s := by
  rw [latchRead, if_neg h, if_neg (by simp; omega)]

end Sys2Proof.Machine
end

section
/-!
PROOFS. Writes of the registers of BAR0, all bytes enabled (Tables 18-4, 18-6, 19-6).
-/
namespace Sys2Proof.Machine

theorem exec_registerWrite {fn : TenantId} {ofs : BitVec 14} (h : 4 * ofs.toNat ≠ 0x8000) (v : Word) (s : State) :
    exec (.registerWrite fn ofs 15 v) s = .next (regWrite fn.val (4 * ofs.toNat) 15 v.toNat s) := if_neg h

/-- A write of the register at offset `o` is what `regWrite` does there. -/
theorem exec_registerWrite_at {fn : TenantId} {ofs : BitVec 14} {o : Nat} (h : 4 * ofs.toNat = o) (ho : o ≠ 0x8000) (v : Word) (s : State) :
    exec (.registerWrite fn ofs 15 v) s = .next (regWrite fn.val o 15 v.toNat s) := by
  subst h
  exact exec_registerWrite ho v s

theorem bitAt_zero_iff (x : Nat) : bitAt x 0 = true ↔ x % 2 = 1 := by simp [bitAt]

/-- From 0x1000 on BAR0 holds the queue pairs, the MSI-X table and the mailbox. -/
theorem regWrite_of_ge {o : Nat} (h : 0x1000 ≤ o) (f be v : Nat) (s : State) : regWrite f o be v s =
    if o < 0x2000 then qpWrite f ((o - 0x1000) / 0x100) (o % 0x100) be v s
    else if 0x4000 ≤ o && o < 0x4200 then msixWrite f ((o - 0x4000) / 16) (o % 16 / 4) be v s
    else if 0x8000 ≤ o then mailboxWrite f o be v s
    else s := if_neg (by omega)

/-! ### Registers of the function -/

/-- Registers that take no write. -/
theorem regWrite_readOnly {o : Nat} (h : o ∈ [0x000, 0x004, 0x008, 0x010, 0x014, 0x034, 0x044, 0x5000, 0x800C, 0x8010, 0x8014]) (f v : Nat) (s : State) :
    regWrite f o 15 v s = s := by
  simp only [List.mem_cons, List.not_mem_nil, or_false] at h
  rcases h with rfl | rfl | rfl | rfl | rfl | rfl | rfl | rfl | rfl | rfl | rfl <;> rfl

theorem registerWrite_readOnly {fn : TenantId} {ofs : BitVec 14} {v : Word} {s : State}
    (h : 4 * ofs.toNat ∈ [0x000, 0x004, 0x008, 0x010, 0x014, 0x034, 0x044, 0x5000, 0x800C, 0x8010, 0x8014]) :
    Idles s (.registerWrite fn ofs 15 v) := by
  have hother : 4 * ofs.toNat ≠ 0x8000 := fun h0 => by rw [h0] at h; exact absurd h (by decide)
  rw [Idles, exec_registerWrite hother, regWrite_readOnly h]

theorem registerWrite_eqCtrl {fn : TenantId} {ofs : BitVec 14} {v : Word} {s : State} (h : 4 * ofs.toNat = 0x02C) :
    exec (.registerWrite fn ofs 15 v) s = exec (if v.toNat % 2 = 1 then .eqEnable fn else .eqDisable fn) s := by
  have hwrite : regWrite fn.val 0x02C 15 v.toNat s = if bitAt v.toNat 0 then eqEnable fn.val s else eqDisable fn.val s := rfl
  rw [exec_registerWrite_at h (by decide), hwrite]
  by_cases hv : v.toNat % 2 = 1
  · rw [if_pos hv, if_pos ((bitAt_zero_iff _).2 hv)]
    rfl
  · rw [if_neg hv, if_neg fun hb => hv ((bitAt_zero_iff _).1 hb)]
    rfl

theorem registerWrite_eqHead {fn : TenantId} {ofs : BitVec 14} {v : Word} {s : State} (h : 4 * ofs.toNat = 0x030) :
    exec (.registerWrite fn ofs 15 v) s = exec (.eqHead fn 15 v) s := by
  rw [exec_registerWrite_at h (by decide)]
  rfl

theorem registerWrite_aeLog {fn : TenantId} {ofs : BitVec 14} {v : Word} {s : State} (h : 4 * ofs.toNat = 0x040) :
    if bitAt v.toNat 31 then exec (.registerWrite fn ofs 15 v) s = exec (.aeLogClear fn) s else Idles s (.registerWrite fn ofs 15 v) := by
  have hwrite : regWrite fn.val 0x040 15 v.toNat s = if bitAt v.toNat 31 then modFn fn.val (fun r => { r with aeLog := 0 }) s else s := rfl
  rw [Idles, exec_registerWrite_at h (by decide), hwrite]
  by_cases hv : bitAt v.toNat 31 = true
  · rw [if_pos hv, if_pos hv]
    rfl
  · rw [if_neg hv, if_neg hv]

theorem registerWrite_mbCtrl {fn : TenantId} {ofs : BitVec 14} {v : Word} {s : State} (h : 4 * ofs.toNat = 0x8000) :
    exec (.registerWrite fn ofs 15 v) s = exec (.mailboxGo fn 15 v) s := if_pos h

theorem registerWrite_mbStatus {fn : TenantId} {ofs : BitVec 14} {v : Word} {s : State} (h : 4 * ofs.toNat = 0x8004) :
    if bitAt v.toNat 1 then Gives s (.registerWrite fn ofs 15 v) [.host] fun t =>
      fnOf t fn.val = { fnOf s fn.val with mbox := { (fnOf s fn.val).mbox with done := false } }
    else Idles s (.registerWrite fn ofs 15 v) := by
  have hwrite : regWrite fn.val 0x8004 15 v.toNat s =
      if bitAt v.toNat 1 then modFn fn.val (fun r => { r with mbox := { (fnOf s fn.val).mbox with done := false } }) s else s := rfl
  rw [Idles, Gives, exec_registerWrite_at h (by decide), hwrite]
  by_cases hv : bitAt v.toNat 1 = true
  · rw [if_pos hv, if_pos hv]
    exact ⟨_, rfl, modFn_only, fnOf_modFn_self ..⟩
  · rw [if_neg hv, if_neg hv]

theorem registerWrite_eqMod {fn : TenantId} {ofs : BitVec 14} {v : Word} {s : State} (h : 4 * ofs.toNat = 0x038) :
    Gives s (.registerWrite fn ofs 15 v) [.host] fun t => (fnOf t fn.val).eq = { (fnOf s fn.val).eq with mod := v.toNat % 2 ^ 24 } := by
  have hwrite : regWrite fn.val 0x038 15 v.toNat s =
      modFn fn.val (fun r => { r with eq := { r.eq with mod := mergeBytes 15 (fnOf s fn.val).eq.mod v.toNat % 2 ^ 24 } }) s := rfl
  have hv : mergeBytes 15 (fnOf s fn.val).eq.mod v.toNat % 2 ^ 24 = v.toNat % 2 ^ 24 := mergeBytes_mod _ v ⟨2 ^ 8, by decide⟩
  refine ⟨_, exec_registerWrite_at h (by decide) v s, ?_, ?_⟩
  · rw [hwrite]
    exact modFn_only
  · dsimp only
    rw [hwrite, hv, fnOf_modFn_self]

/-! ### The event queue's registers that ENABLE locks (R623) -/

/-- What a register of the event queue does when the queue is not enabled; otherwise the write is refused. -/
theorem registerWrite_eqSet {fn : TenantId} {ofs : BitVec 14} {v : Word} {s : State} {o : Nat} {q : EventQueue} (h : 4 * ofs.toNat = o) (ho : o ≠ 0x8000)
    (hw : regWrite fn.val o 15 v.toNat s = if (fnOf s fn.val).eq.enable then aeNote fn.val false true true o 15 s else setEq fn.val q s) :
    ((fnOf s fn.val).eq.enable = false → Gives s (.registerWrite fn ofs 15 v) [.host] fun t => (fnOf t fn.val).eq = q) ∧
    ((fnOf s fn.val).eq.enable = true → Gives s (.registerWrite fn ofs 15 v) [.host] fun t =>
      AccessLogged fn.val s t ∧ (fnOf t fn.val).eq = (fnOf s fn.val).eq) := by
  refine ⟨fun hoff => ⟨_, (exec_registerWrite_at h ho v s).trans (by rw [hw, if_neg (by rw [hoff]; decide), setEq]), modFn_only, eq_setEq ..⟩,
    fun hon => ?_⟩
  exact ⟨_, (exec_registerWrite_at h ho v s).trans (by rw [hw, if_pos hon]), aeNote_only, aeNote_logged .., aeNote_eq ..⟩

theorem regWrite_eqBaseLo (f : Nat) (v : Word) (s : State) : regWrite f 0x020 15 v.toNat s =
    if (fnOf s f).eq.enable then aeNote f false true true 0x020 15 s
    else setEq f { (fnOf s f).eq with base := setHalf false (fnOf s f).eq.base (v.toNat / 64 * 64) } s := by
  have hv : mergeBytes 15 (half false (fnOf s f).eq.base) v.toNat = v.toNat := mergeBytes_word (half_lt ..) v
  rw [← congrArg (· / 64 * 64) hv]
  rfl

theorem regWrite_eqBaseHi (f : Nat) (v : Word) (s : State) : regWrite f 0x024 15 v.toNat s =
    if (fnOf s f).eq.enable then aeNote f false true true 0x024 15 s
    else setEq f { (fnOf s f).eq with base := setHalf true (fnOf s f).eq.base v.toNat } s := by
  have hv : mergeBytes 15 (half true (fnOf s f).eq.base) v.toNat = v.toNat := mergeBytes_word (half_lt ..) v
  conv_rhs => rw [← hv]
  rfl

/-- EQ_CFG as a write leaves it. -/
def writtenEqCfg (old v : Nat) : Nat := pack [(0, 5, mergeBytes 15 old v), (8, 5, fld (mergeBytes 15 old v) 8 5)]

theorem regWrite_eqCfg (f : Nat) (v : Word) (s : State) : regWrite f 0x028 15 v.toNat s =
    if (fnOf s f).eq.enable then aeNote f false true true 0x028 15 s
    else setEq f { (fnOf s f).eq with cfg := writtenEqCfg (fnOf s f).eq.cfg v.toNat } s := rfl

theorem registerWrite_eqLocked {fn : TenantId} {ofs : BitVec 14} {v : Word} {s : State} (h : 4 * ofs.toNat ∈ [0x020, 0x024, 0x028])
    (hon : (fnOf s fn.val).eq.enable = true) :
    Gives s (.registerWrite fn ofs 15 v) [.host] fun t => AccessLogged fn.val s t ∧ (fnOf t fn.val).eq = (fnOf s fn.val).eq := by
  simp only [List.mem_cons, List.not_mem_nil, or_false] at h
  rcases h with h | h | h
  · exact (registerWrite_eqSet h (by decide) (regWrite_eqBaseLo ..)).2 hon
  · exact (registerWrite_eqSet h (by decide) (regWrite_eqBaseHi ..)).2 hon
  · exact (registerWrite_eqSet h (by decide) (regWrite_eqCfg ..)).2 hon

/-! ### Registers of a queue pair (Table 18-6) -/

/-- The registers of queue pair `n` stand from 0x1000 + 0x100 n on. -/
theorem exec_registerWrite_qp {fn : TenantId} {ofs : BitVec 14} {n k : Nat} (hn : n < 16) (hk : k < 0x100) (h : 4 * ofs.toNat = 0x1000 + 0x100 * n + k)
    (v : Word) (s : State) : exec (.registerWrite fn ofs 15 v) s = .next (qpWrite fn.val n k 15 v.toNat s) := by
  have hq : (0x1000 + 0x100 * n + k - 0x1000) / 0x100 = n := by omega
  have hr : (0x1000 + 0x100 * n + k) % 0x100 = k := by omega
  rw [exec_registerWrite_at h (by omega), regWrite_of_ge (by omega), if_pos (by omega), hq, hr]

/-- What a register that ENABLE locks does to a queue pair that is DISABLED; otherwise the write is refused. -/
theorem registerWrite_qpSet {fn : TenantId} {ofs : BitVec 14} {v : Word} {s : State} {n k : Nat} {q : QueuePair} (hn : n < 16) (hk : k < 0x100)
    (h : 4 * ofs.toNat = 0x1000 + 0x100 * n + k)
    (hw : qpWrite fn.val n k 15 v.toNat s =
      if (qpOf s fn.val n).state = .disabled then setQp fn.val n q s else aeNote fn.val false true true (0x1000 + 0x100 * n + k) 15 s) :
    ((qpOf s fn.val n).state = .disabled → Gives s (.registerWrite fn ofs 15 v) [.host] fun t => QpsKeep fn.val n s t ∧ qpOf t fn.val n = q) ∧
    ((qpOf s fn.val n).state ≠ .disabled → Gives s (.registerWrite fn ofs 15 v) [.host] (AccessLogged fn.val s)) :=
  ⟨fun hoff => ⟨_, (exec_registerWrite_qp hn hk h v s).trans (by rw [hw, if_pos hoff]), setQp_only, setQp_qpsKeep _ _ _ _, qpOf_setQp_self ..⟩,
    fun hon => ⟨_, (exec_registerWrite_qp hn hk h v s).trans (by rw [hw, if_neg hon]), aeNote_only, aeNote_logged ..⟩⟩

theorem qpWrite_sqBaseLo (f n : Nat) (v : Word) (s : State) : qpWrite f n 0x00 15 v.toNat s =
    if (qpOf s f n).state = .disabled then setQp f n { qpOf s f n with sqBase := setHalf false (qpOf s f n).sqBase (v.toNat / 64 * 64) } s
    else aeNote f false true true (0x1000 + 0x100 * n + 0x00) 15 s := by
  have hv : mergeBytes 15 (half false (qpOf s f n).sqBase) v.toNat = v.toNat := mergeBytes_word (half_lt ..) v
  rw [← congrArg (· / 64 * 64) hv]
  rfl

theorem qpWrite_sqBaseHi (f n : Nat) (v : Word) (s : State) : qpWrite f n 0x04 15 v.toNat s =
    if (qpOf s f n).state = .disabled then setQp f n { qpOf s f n with sqBase := setHalf true (qpOf s f n).sqBase v.toNat } s
    else aeNote f false true true (0x1000 + 0x100 * n + 0x04) 15 s := by
  have hv : mergeBytes 15 (half true (qpOf s f n).sqBase) v.toNat = v.toNat := mergeBytes_word (half_lt ..) v
  conv_rhs => rw [← hv]
  rfl

theorem qpWrite_cqBaseLo (f n : Nat) (v : Word) (s : State) : qpWrite f n 0x08 15 v.toNat s =
    if (qpOf s f n).state = .disabled then setQp f n { qpOf s f n with cqBase := setHalf false (qpOf s f n).cqBase (v.toNat / 64 * 64) } s
    else aeNote f false true true (0x1000 + 0x100 * n + 0x08) 15 s := by
  have hv : mergeBytes 15 (half false (qpOf s f n).cqBase) v.toNat = v.toNat := mergeBytes_word (half_lt ..) v
  rw [← congrArg (· / 64 * 64) hv]
  rfl

theorem qpWrite_cqBaseHi (f n : Nat) (v : Word) (s : State) : qpWrite f n 0x0C 15 v.toNat s =
    if (qpOf s f n).state = .disabled then setQp f n { qpOf s f n with cqBase := setHalf true (qpOf s f n).cqBase v.toNat } s
    else aeNote f false true true (0x1000 + 0x100 * n + 0x0C) 15 s := by
  have hv : mergeBytes 15 (half true (qpOf s f n).cqBase) v.toNat = v.toNat := mergeBytes_word (half_lt ..) v
  conv_rhs => rw [← hv]
  rfl

/-- QP_CFG as a write leaves it. -/
def writtenQpCfg (old v : Nat) : Nat :=
  pack [(0, 5, mergeBytes 15 old v), (8, 5, fld (mergeBytes 15 old v) 8 5), (16, 5, fld (mergeBytes 15 old v) 16 5)]

theorem qpWrite_cfg (f n : Nat) (v : Word) (s : State) : qpWrite f n 0x10 15 v.toNat s =
    if (qpOf s f n).state = .disabled then setQp f n { qpOf s f n with cfg := writtenQpCfg (qpOf s f n).cfg v.toNat } s
    else aeNote f false true true (0x1000 + 0x100 * n + 0x10) 15 s := rfl

theorem registerWrite_qpLocked {fn : TenantId} {ofs : BitVec 14} {v : Word} {s : State} {n : Nat} (hn : n < 16)
    (h : 4 * ofs.toNat ∈ [0x1000 + 0x100 * n, 0x1000 + 0x100 * n + 4, 0x1000 + 0x100 * n + 8, 0x1000 + 0x100 * n + 12, 0x1000 + 0x100 * n + 16])
    (hon : (qpOf s fn.val n).state ≠ .disabled) : Gives s (.registerWrite fn ofs 15 v) [.host] (AccessLogged fn.val s) := by
  simp only [List.mem_cons, List.not_mem_nil, or_false] at h
  rcases h with h | h | h | h | h
  · exact (registerWrite_qpSet hn (by decide) h (qpWrite_sqBaseLo ..)).2 hon
  · exact (registerWrite_qpSet hn (by decide) h (qpWrite_sqBaseHi ..)).2 hon
  · exact (registerWrite_qpSet hn (by decide) h (qpWrite_cqBaseLo ..)).2 hon
  · exact (registerWrite_qpSet hn (by decide) h (qpWrite_cqBaseHi ..)).2 hon
  · exact (registerWrite_qpSet hn (by decide) h (qpWrite_cfg ..)).2 hon

theorem registerWrite_qpMod {fn : TenantId} {ofs : BitVec 14} {v : Word} {s : State} {n : Nat} (hn : n < 16) (h : 4 * ofs.toNat = 0x1000 + 0x100 * n + 20) :
    Gives s (.registerWrite fn ofs 15 v) [.host] fun t => QpsKeep fn.val n s t ∧ qpOf t fn.val n = { qpOf s fn.val n with mod := v.toNat % 2 ^ 24 } := by
  have hwrite : qpWrite fn.val n 20 15 v.toNat s =
      setQp fn.val n { qpOf s fn.val n with mod := mergeBytes 15 (qpOf s fn.val n).mod v.toNat % 2 ^ 24 } s := rfl
  have hv : mergeBytes 15 (qpOf s fn.val n).mod v.toNat % 2 ^ 24 = v.toNat % 2 ^ 24 := mergeBytes_mod _ v ⟨2 ^ 8, by decide⟩
  refine ⟨_, (exec_registerWrite_qp hn (by decide) h v s).trans (by rw [hwrite, hv]), setQp_only, setQp_qpsKeep _ _ _ _, qpOf_setQp_self ..⟩

theorem registerWrite_qpCtrl {fn : TenantId} {ofs : BitVec 14} {v : Word} {s : State} {n : Nat} (hn : n < 16) (h : 4 * ofs.toNat = 0x1000 + 0x100 * n + 24) :
    exec (.registerWrite fn ofs 15 v) s = exec (if v.toNat % 2 = 1 then .qpEnable fn (Fin.ofNat 16 n) else .qpDisable fn (Fin.ofNat 16 n)) s := by
  have hwrite : qpWrite fn.val n 24 15 v.toNat s = if bitAt v.toNat 0 then qpEnable fn.val n s else qpDisable fn.val n s := rfl
  have hqp : (Fin.ofNat 16 n).val = n := Nat.mod_eq_of_lt hn
  rw [exec_registerWrite_qp hn (by decide) h, hwrite]
  by_cases hv : v.toNat % 2 = 1
  · rw [if_pos hv, if_pos ((bitAt_zero_iff _).2 hv), exec_qpEnable, hqp]
  · rw [if_neg hv, if_neg fun hb => hv ((bitAt_zero_iff _).1 hb), exec_qpDisable, hqp]

/-! ### The MSI-X table -/

/-- A vector of a function takes a record. -/
def setVector (f n : Nat) (m : MsixVector) (s : State) : State := modFn f (fun r => { r with vectors := tset n m r.vectors }) s

theorem setVector_only {f n : Nat} {m : MsixVector} {s : State} : Only [.host] s (setVector f n m s) := modFn_only

theorem vectorOf_setVector_self (f n : Nat) (m : MsixVector) (s : State) : vectorOf (setVector f n m s) f n = m := by
  rw [vectorOf, setVector, fnOf_modFn_self]
  exact tget_tset_self ..

theorem vectorOf_setVector_ne {n k : Nat} (h : k ≠ n) (f : Nat) (m : MsixVector) (s : State) : vectorOf (setVector f n m s) f k = vectorOf s f k := by
  rw [vectorOf, setVector, fnOf_modFn_self]
  exact tget_tset_ne h ..

theorem registerWrite_msixData {fn : TenantId} {ofs : BitVec 14} {v : Word} {s : State} {n : Nat} (hn : n < 32) (h : 4 * ofs.toNat = 0x4000 + 16 * n + 8)
    (hdata : (vectorOf s fn.val n).data < 2 ^ 32) : Gives s (.registerWrite fn ofs 15 v) [.host] fun t =>
      vectorOf t fn.val n = { vectorOf s fn.val n with data := v.toNat } ∧ ∀ k, k ≠ n → vectorOf t fn.val k = vectorOf s fn.val k := by
  have hvec : (0x4000 + 16 * n + 8 - 0x4000) / 16 = n := by omega
  have hdword : (0x4000 + 16 * n + 8) % 16 / 4 = 2 := by omega
  have hwrite : msixWrite fn.val n 2 15 v.toNat s =
      setVector fn.val n { vectorOf s fn.val n with data := mergeBytes 15 (vectorOf s fn.val n).data v.toNat } s := rfl
  have hexec : exec (.registerWrite fn ofs 15 v) s = .next (msixWrite fn.val n 2 15 v.toNat s) := by
    rw [exec_registerWrite_at h (by omega), regWrite_of_ge (by omega), if_neg (by omega), if_pos (by simp; omega), hvec, hdword]
  exact ⟨_, hexec.trans (by rw [hwrite, mergeBytes_word hdata]), setVector_only, vectorOf_setVector_self .., fun k hk => vectorOf_setVector_ne hk ..⟩

/-! ### The request area of the mailbox (Table 19-6) -/

theorem fieldAt_succ (l : List Byte) (o n : Nat) : fieldAt l o (n + 1) = (l.getD o 0).toNat + 256 * fieldAt l (o + 1) n := by
  unfold fieldAt slice
  by_cases ho : o < l.length
  · rw [List.drop_eq_getElem_cons ho, List.take_succ_cons, ofBytes, List.getD_eq_getElem _ _ ho]
  · rw [List.drop_eq_nil_of_le (by omega), List.drop_eq_nil_of_le (by omega), List.getD_eq_default _ _ (by omega)]
    simp [ofBytes]

/-- A field depends on its own bytes alone. -/
theorem fieldAt_congr {l m : List Byte} {o n : Nat} (h : ∀ i < n, l.getD (o + i) 0 = m.getD (o + i) 0) : fieldAt l o n = fieldAt m o n := by
  induction n generalizing o with
  | zero => simp [fieldAt, slice, ofBytes]
  | succ n ih =>
    have hfirst : l.getD o 0 = m.getD o 0 := h 0 (by omega)
    have hrest : fieldAt l (o + 1) n = fieldAt m (o + 1) n := ih fun i hi => by
      have := h (i + 1) (by omega)
      rwa [show o + 1 + i = o + (i + 1) by omega]
    rw [fieldAt_succ, fieldAt_succ, hfirst, hrest]

theorem getD_padTo {n j : Nat} {l : List Byte} (h : l.length ≤ n) : (padTo n l).getD j 0 = l.getD j 0 := by
  unfold padTo
  rw [List.take_of_length_le (by simp; omega)]
  by_cases hj : j < l.length
  · rw [List.getD_append _ _ _ _ hj]
  · rw [List.getD_append_right _ _ _ _ (by omega), List.getD_eq_default l _ (by omega)]
    simp

theorem padTo_length (n : Nat) (l : List Byte) : (padTo n l).length = n := by simp [padTo]; omega

theorem putBytes_eq {l v : List Byte} {o : Nat} (h : o + v.length ≤ l.length) : putBytes l o v = l.take o ++ (v ++ l.drop (o + v.length)) := by
  rw [putBytes, List.append_assoc]
  exact List.take_of_length_le (by simp; omega)

/-- Bytes outside those put are as they were. -/
theorem getD_putBytes_outside {l v : List Byte} {o j : Nat} (h : o + v.length ≤ l.length) (hj : j < o ∨ o + v.length ≤ j) :
    (putBytes l o v).getD j 0 = l.getD j 0 := by
  have htake : (l.take o).length = o := by simp; omega
  rw [putBytes_eq h]
  rcases hj with hj | hj
  · rw [List.getD_append _ _ _ _ (by omega), List.getD_eq_getElem?_getD, List.getElem?_take_of_lt hj, List.getD_eq_getElem?_getD]
  · rw [List.getD_append_right _ _ _ _ (by omega), List.getD_append_right _ _ _ _ (by omega), List.getD_eq_getElem?_getD, List.getElem?_drop,
      List.getD_eq_getElem?_getD, show o + v.length + (j - (l.take o).length - v.length) = j by omega]

/-- The bytes put are read back. -/
theorem slice_putBytes {l v : List Byte} {o : Nat} (h : o + v.length ≤ l.length) : slice (putBytes l o v) o v.length = v := by
  rw [slice, putBytes_eq h, List.drop_left' (by simp; omega), List.take_left' rfl]

theorem length_toBytes (n x : Nat) : (toBytes n x).length = n := by
  induction n generalizing x with
  | zero => rfl
  | succ n ih => rw [toBytes, List.length_cons, ih]

theorem ofBytes_toBytes {n x : Nat} (h : x < 256 ^ n) : ofBytes (toBytes n x) = x := by
  induction n generalizing x with
  | zero =>
    obtain rfl : x = 0 := Nat.lt_one_iff.1 h
    rfl
  | succ n ih =>
    have hhigh : x >>> 8 < 256 ^ n := by
      rw [Nat.shiftRight_eq_div_pow]
      exact Nat.div_lt_of_lt_mul (by rwa [Nat.pow_succ, Nat.mul_comm] at h)
    rw [toBytes, ofBytes, ih hhigh, BitVec.toNat_ofNat, Nat.shiftRight_eq_div_pow]
    exact Nat.mod_add_div x 256

theorem ofBytes_lt (l : List Byte) : ofBytes l < 256 ^ l.length := by
  induction l with
  | nil => decide
  | cons b r ih =>
    rw [ofBytes, List.length_cons, Nat.pow_succ]
    have hb : b.toNat < 256 := b.isLt
    omega

theorem fieldAt_lt (l : List Byte) (o n : Nat) : fieldAt l o n < 256 ^ n :=
  (ofBytes_lt _).trans_le (Nat.pow_le_pow_right (by decide) (by simp [slice]))

/-- The request area of a mailbox after a dword is written at `k`. -/
def requestWith (l : List Byte) (k x : Nat) : List Byte := putBytes (padTo (max l.length (k + 4)) l) k (toBytes 4 x)

theorem requestWith_room (l : List Byte) (k x : Nat) : k + (toBytes 4 x).length ≤ (padTo (max l.length (k + 4)) l).length := by
  rw [length_toBytes, padTo_length]
  omega

theorem fieldAt_requestWith_self (l : List Byte) (k : Nat) (v : Word) : fieldAt (requestWith l k v.toNat) k 4 = v.toNat := by
  have hslice := slice_putBytes (requestWith_room l k v.toNat)
  rw [length_toBytes] at hslice
  rw [fieldAt, requestWith, hslice, ofBytes_toBytes v.isLt]

theorem fieldAt_requestWith_ne {k j : Nat} (h : j + 4 ≤ k ∨ k + 4 ≤ j) (l : List Byte) (x : Nat) : fieldAt (requestWith l k x) j 4 = fieldAt l j 4 := by
  have hlen := length_toBytes 4 x
  refine fieldAt_congr fun i hi => ?_
  rw [requestWith, getD_putBytes_outside (requestWith_room l k x) (by omega), getD_padTo (by omega)]

/-- A dword of the request area as the host reads it. -/
theorem regRead_request (s : State) (f : Nat) {k : Nat} (h : 0x9000 ≤ k) (hk : k < 0xB000) :
    regRead s f k = fieldAt (fnOf s f).mbox.req (k - 0x9000) 4 := by
  have hmailbox : regRead s f k = mailboxRead (fnOf s f).mbox k := by
    unfold regRead
    dsimp only
    rw [if_neg (by omega), if_neg (by omega), if_neg (by simp; omega), if_neg (by omega), if_pos (by omega)]
  rw [hmailbox, mailboxRead, if_neg (by omega), if_neg (by omega), if_neg (by omega), if_neg (by omega), if_neg (by omega), if_neg (by omega),
    if_pos (by simp; omega)]

/-- The mailbox of a function takes a record. -/
def setMbox (f : Nat) (m : Mailbox) (s : State) : State := modFn f (fun r => { r with mbox := m }) s

theorem setMbox_only {f : Nat} {m : Mailbox} {s : State} : Only [.host] s (setMbox f m s) := modFn_only

theorem mbox_setMbox (f : Nat) (m : Mailbox) (s : State) : (fnOf (setMbox f m s) f).mbox = m := by rw [setMbox, fnOf_modFn_self]

theorem registerWrite_request {fn : TenantId} {ofs : BitVec 14} {v : Word} {s : State} (h : 0x9000 ≤ 4 * ofs.toNat) (hlt : 4 * ofs.toNat < 0xB000) :
    Gives s (.registerWrite fn ofs 15 v) [.host] fun t => regRead t fn.val (4 * ofs.toNat) = v.toNat ∧
      ∀ k, 0x9000 ≤ k → k < 0xB000 → k % 4 = 0 → k ≠ 4 * ofs.toNat → regRead t fn.val k = regRead s fn.val k := by
  have hold : mailboxRead (fnOf s fn.val).mbox (4 * ofs.toNat) < 2 ^ 32 := by
    rw [mailboxRead, if_neg (by omega), if_neg (by omega), if_neg (by omega), if_neg (by omega), if_neg (by omega), if_neg (by omega),
      if_pos (by simp; omega)]
    exact fieldAt_lt _ _ 4
  have hplace : 4 * ofs.toNat - 0x8FFC = 4 * ofs.toNat - 0x9000 + 4 := by omega
  have hexec : exec (.registerWrite fn ofs 15 v) s = .next (setMbox fn.val { (fnOf s fn.val).mbox with
      req := requestWith (fnOf s fn.val).mbox.req (4 * ofs.toNat - 0x9000) v.toNat } s) := by
    rw [exec_registerWrite (by omega), regWrite_of_ge (by omega), if_neg (by omega), if_neg (by simp; omega), if_pos (by omega), mailboxWrite]
    dsimp only
    rw [if_neg (by omega), if_neg (by omega), if_neg (by omega), if_pos (by simp; omega), mergeBytes_word hold, hplace]
    rfl
  refine ⟨_, hexec, setMbox_only, ?_, fun k hk hklt hk4 hne => ?_⟩
  · rw [regRead_request _ _ h hlt, mbox_setMbox]
    exact fieldAt_requestWith_self ..
  · rw [regRead_request _ _ hk hklt, regRead_request _ _ hk hklt, mbox_setMbox]
    exact fieldAt_requestWith_ne (by omega) ..

end Sys2Proof.Machine
end

section
/-!
PROOFS. Completions of host reads, translations and their invalidation (R613, R615, R631, R635).
-/
namespace Sys2Proof.Machine

/-! ### Reads of host memory -/

theorem find?_updFirst {α : Type} {p : α → Bool} {g : α → α} (h : ∀ a, p (g a) = p a) (l : List α) :
    (updFirst p g l).find? p = (l.find? p).map g := by
  induction l with
  | nil => rfl
  | cons a r ih =>
    rw [updFirst]
    by_cases ha : p a = true
    · rw [if_pos ha, List.find?_cons_of_pos ((h a).trans ha), List.find?_cons_of_pos ha]
      rfl
    · rw [if_neg ha, List.find?_cons_of_neg ha, List.find?_cons_of_neg ha, ih]

/-- A read operation changed is found changed. -/
theorem readOp_modRead {u : ReadUse} {g : ReadOp → ReadOp} (h : ∀ o, (g o).use = o.use) (s : State) :
    readOp (modRead u g s) u = (readOp s u).map g := find?_updFirst (fun o => by rw [h]) s.host.reads

theorem readOp_of_reads {s t : State} (h : t.host.reads = s.host.reads) (u : ReadUse) : readOp t u = readOp s u := by rw [readOp, readOp, h]

theorem holdLines_reads (o : ReadOp) (n : Nat) (s : State) : (holdLines o n s).host.reads = s.host.reads := by
  unfold holdLines
  split
  · split <;> rfl
  · rfl

theorem holdLines_tags (o : ReadOp) (n : Nat) (s : State) : (holdLines o n s).host.tags = s.host.tags := by
  unfold holdLines
  split
  · split <;> rfl
  · rfl

/-- A read operation after the data of a request. -/
def arrivedOp (e : TagEnt) (l : List Byte) (o : ReadOp) : ReadOp := { o with data := o.data ++ padTo e.len l, addr := o.addr + e.len, left := o.left - e.len }

theorem readArrived_of_op {e : TagEnt} {o : ReadOp} {s : State} (h : readOp s e.use = some o) (l : List Byte) :
    readArrived e l s = modRead e.use (arrivedOp e l) (holdLines o e.len s) := by
  unfold readArrived
  rw [h]
  rfl

theorem readArrived_tags (e : TagEnt) (l : List Byte) (s : State) : (readArrived e l s).host.tags = s.host.tags := by
  unfold readArrived
  split
  · rfl
  · exact holdLines_tags ..

theorem readOp_readArrived {e : TagEnt} {o : ReadOp} {s : State} (h : readOp s e.use = some o) (l : List Byte) :
    readOp (readArrived e l s) e.use = some (arrivedOp e l o) := by
  rw [readArrived_of_op h, readOp_modRead (g := arrivedOp e l) (fun _ => rfl), readOp_of_reads (holdLines_reads ..), h]
  rfl

theorem readOp_readFailed {e : TagEnt} {o : ReadOp} {s : State} (h : readOp s e.use = some o) (x : ReadFail) :
    readOp (readFailed e x s) e.use = some { o with failed := some x } := by
  rw [readFailed, readOp_modRead (g := fun o => { o with failed := some x }) (fun _ => rfl), h]
  rfl

/-! ### Completions (R631) -/

/-- The tag is free again. -/
def TagFreed (e : TagEnt) (s t : State) : Prop := t.host.tags = s.host.tags.filter (· != e)

theorem exec_hostReadCompletion_none {fn : TenantId} {tag : Fin 1024} {s : State} (h : tagEnt s fn.val tag.val = none) (a : ReadAnswer) :
    Idles s (.hostReadCompletion fn tag a) := by
  have hexec : exec (.hostReadCompletion fn tag a) s = execHostReadCompletion fn tag a s := rfl
  rw [Idles, hexec, execHostReadCompletion, h]
  rfl

theorem exec_hostReadCompletion {fn : TenantId} {tag : Fin 1024} {e : TagEnt} {s : State} (h : tagEnt s fn.val tag.val = some e) (a : ReadAnswer) :
    exec (.hostReadCompletion fn tag a) s = whenDue (!forTranslation e) (fun s => readsGoOn (tagAnswered e a s)) s := by
  have hexec : exec (.hostReadCompletion fn tag a) s = execHostReadCompletion fn tag a s := rfl
  rw [hexec, execHostReadCompletion, h]

theorem exec_completionTimeout_none {fn : TenantId} {tag : Fin 1024} {s : State} (h : tagEnt s fn.val tag.val = none) :
    Idles s (.completionTimeout fn tag) := by
  have hexec : exec (.completionTimeout fn tag) s = execCompletionTimeout fn tag s := rfl
  rw [Idles, hexec, execCompletionTimeout, h]
  rfl

theorem exec_completionTimeout {fn : TenantId} {tag : Fin 1024} {e : TagEnt} {s : State} (h : tagEnt s fn.val tag.val = some e) :
    exec (.completionTimeout fn tag) s = whenDue (decide (e.issued + nsToTc (timeoutNs (fnOf s fn.val).cto) ≤ now s))
      (fun s => readsGoOn (hostLinkEvent 6 fn.val tag.val (tagFailed e .timeout s))) s := by
  have hexec : exec (.completionTimeout fn tag) s = execCompletionTimeout fn tag s := rfl
  rw [hexec, execCompletionTimeout, h]

theorem hostReadCompletion_translation {fn : TenantId} {tag : Fin 1024} {e : TagEnt} {s : State} (h : tagEnt s fn.val tag.val = some e)
    (ht : forTranslation e = true) (a : ReadAnswer) : Idles s (.hostReadCompletion fn tag a) := by
  rw [Idles, exec_hostReadCompletion h]
  exact whenDue_of_not (by rw [ht]; decide) _ s

theorem hostReadCompletion_due {fn : TenantId} {tag : Fin 1024} {e : TagEnt} {s : State} (h : tagEnt s fn.val tag.val = some e)
    (ht : forTranslation e = false) (a : ReadAnswer) : exec (.hostReadCompletion fn tag a) s = .next (readsGoOn (tagAnswered e a s)) := by
  rw [exec_hostReadCompletion h]
  exact whenDue_of (by rw [ht]; rfl) _ s

/-- Data for a fenced tag is counted and dropped. -/
theorem tagAnswered_data_fenced {e : TagEnt} (hf : e.fenced = true) (l : List Byte) (s : State) :
    tagAnswered e (.data l) s = freeTagEnt e (bump (kHoHostStats 4) s) := if_pos hf

theorem tagAnswered_data {e : TagEnt} (hf : e.fenced = false) (l : List Byte) (s : State) :
    tagAnswered e (.data l) s = freeTagEnt e (readArrived e l s) := if_neg (by rw [hf]; decide)

theorem tagAnswered_data_facts (e : TagEnt) (l : List Byte) (s : State) : TagFreed e s (tagAnswered e (.data l) s) ∧
    (e.fenced = true → Counts 64 (kHoHostStats 4) 1 s (tagAnswered e (.data l) s) ∧ (tagAnswered e (.data l) s).host.reads = s.host.reads) ∧
    (e.fenced = false → ∀ o, readOp s e.use = some o → readOp (tagAnswered e (.data l) s) e.use = some (arrivedOp e l o)) := by
  refine ⟨?_, fun hf => ?_, fun hf o ho => ?_⟩
  · cases hf : e.fenced with
    | true => rw [tagAnswered_data_fenced hf]; rfl
    | false =>
      rw [tagAnswered_data hf]
      exact congrArg (List.filter (· != e)) (readArrived_tags e l s)
  · rw [tagAnswered_data_fenced hf]
    exact ⟨counts_bump .., rfl⟩
  · rw [tagAnswered_data hf]
    exact readOp_readArrived ho l

/-- A request that served a read fails: its tag is free, the failure counted. -/
theorem tagFailed_fenced {e : TagEnt} (hf : e.fenced = true) (x : ReadFail) (s : State) :
    tagFailed e x s = freeTagEnt e (bump (kHoHostStats (failStat x)) s) := if_pos hf

theorem tagFailed_read {e : TagEnt} (hf : e.fenced = false) (ht : forTranslation e = false) (x : ReadFail) (s : State) :
    tagFailed e x s = readFailed e x (freeTagEnt e (bump (kHoHostStats (failStat x)) s)) := by
  unfold tagFailed
  rw [if_neg (by rw [hf]; decide)]
  unfold forTranslation at ht
  split at ht
  · cases ht
  · rfl

theorem tagFailed_translation {e : TagEnt} {f p : Nat} (hf : e.fenced = false) (hu : e.use = .translation f p) (x : ReadFail) (s : State) :
    tagFailed e x s = translationFailed f p (freeTagEnt e (bump (kHoHostStats (failStat x)) s)) := by
  unfold tagFailed
  rw [if_neg (by rw [hf]; decide), hu]

theorem tagFailed_read_facts {e : TagEnt} (hf : e.fenced = false) (ht : forTranslation e = false) (x : ReadFail) (s : State) :
    TagFreed e s (tagFailed e x s) ∧ Counts 64 (kHoHostStats (failStat x)) 1 s (tagFailed e x s) ∧
      ∀ o, readOp s e.use = some o → readOp (tagFailed e x s) e.use = some { o with failed := some x } := by
  rw [tagFailed_read hf ht]
  exact ⟨rfl, counts_bump .., fun o ho => readOp_readFailed ho x⟩

/-- What each failure that an answer reports is called. -/
theorem tagAnswered_failure {e : TagEnt} (hf : e.fenced = false) {a : ReadAnswer} {k : Nat} {x : ReadFail}
    (h : (a, k, x) ∈ [(ReadAnswer.unsupported, 1, ReadFail.unsupported), (.abort, 2, .abort), (.poisoned, 3, .poisoned)]) (s : State) :
    tagAnswered e a s = tagFailed e x s ∧ failStat x = k := by
  simp only [List.mem_cons, Prod.mk.injEq, List.not_mem_nil, or_false] at h
  rcases h with ⟨rfl, rfl, rfl⟩ | ⟨rfl, rfl, rfl⟩ | ⟨rfl, rfl, rfl⟩ <;> exact ⟨congrArg (tagFailed e _) (if_neg (by rw [hf]; decide)), rfl⟩

/-! ### Translation requests that fail (Table 18-10) -/

theorem flushWaits_keeps (f : Nat) (s : State) : Keeps eventCounters s (flushWaits f s) := by
  unfold flushWaits
  exact (Keeps.of_obj rfl).trans (Keeps.each (fun _ _ => passItem_keeps _ _ _) _ _)

theorem translationFailed_keeps (f p : Nat) (s : State) : Keeps eventCounters s (translationFailed f p s) := by
  unfold translationFailed
  extract_lets hits mine host s1 s2
  refine Keeps.trans (Keeps.trans (t := s1) (Keeps.of_obj rfl) (Keeps.each (fun w t => ?_) _ s1)) (flushWaits_keeps f s2)
  split
  · exact modRt_only.keeps
  · exact Keeps.refl _ t

/-- A timeout is counted, whatever its tag served. -/
theorem tagFailed_timeout_counts (e : TagEnt) (s : State) : Counts 64 (kHoHostStats 0) 1 s (tagFailed e .timeout s) := by
  cases hf : e.fenced with
  | true =>
    rw [tagFailed_fenced hf]
    exact counts_bump ..
  | false =>
    cases hu : e.use with
    | translation f p =>
      rw [tagFailed_translation hf hu]
      exact Counts.of_eq (counts_bump (kHoHostStats 0) s) (translationFailed_keeps _ _ _ _ (by decide))
    | _ => exact (tagFailed_read_facts hf (by rw [forTranslation, hu]) .timeout s).2.1

theorem tagFailed_tags {e : TagEnt} (ht : forTranslation e = false) (x : ReadFail) (s : State) : TagFreed e s (tagFailed e x s) := by
  cases hf : e.fenced with
  | true => rw [tagFailed_fenced hf]; rfl
  | false => exact (tagFailed_read_facts hf ht x s).1

/-- The completion timeouts of Device Control 2, in ns. -/
theorem timeoutNs_eq (k : Nat) : timeoutNs k = (tfind k [(1, 50000), (2, 1000000), (5, 16000000), (6, 65000000), (9, 260000000), (10, 1000000000),
    (13, 4000000000), (14, 17000000000)]).getD 50000000 := by
  unfold timeoutNs
  split
  case h_9 h1 h2 h5 h6 h9 h10 h13 h14 =>
    simp only [tfind, if_neg (Ne.symm h1), if_neg (Ne.symm h2), if_neg (Ne.symm h5), if_neg (Ne.symm h6), if_neg (Ne.symm h9), if_neg (Ne.symm h10),
      if_neg (Ne.symm h13), if_neg (Ne.symm h14), Option.getD_none]
  all_goals rfl

/-! ### Translations (R635) -/

theorem exec_translationCompletion (fn : TenantId) (page : BitVec 52) (tg : Option (BitVec 52)) (s : State) :
    exec (.translationCompletion fn page tg) s = execTranslationCompletion fn page tg s := rfl

theorem translationCompletion_none {fn : TenantId} {page : BitVec 52} {s : State} (h : ∀ e ∈ s.host.tags, e.use ≠ .translation fn.val page.toNat)
    (tg : Option (BitVec 52)) : Idles s (.translationCompletion fn page tg) := by
  have hfind : (s.host.tags.find? fun e => e.use == .translation fn.val page.toNat) = none :=
    List.find?_eq_none.2 fun e he => by simpa using h e he
  rw [Idles, exec_translationCompletion, execTranslationCompletion, hfind]
  rfl

theorem translationCompletion_some {fn : TenantId} {page : BitVec 52} {tg : Option (BitVec 52)} {s : State} {e : TagEnt}
    (h : s.host.tags.find? (fun e => e.use == .translation fn.val page.toNat) = some e) :
    exec (.translationCompletion fn page tg) s =
      if e.fenced then .next (readsGoOn (freeTagEnt e (bump (kHoHostStats 4) s)))
      else match tg with
        | some p => .next (readsGoOn (flushWaits fn.val (holdTranslation fn.val page.toNat p.toNat (freeTagEnt e s))))
        | none => .next (readsGoOn (tagFailed e .denied s)) := by
  rw [exec_translationCompletion, execTranslationCompletion, h]
  rfl

theorem holdTranslation_facts (f page target : Nat) (s : State) :
    (holdTranslation f page target s).host.tcache.head? = some { fn := f, page := page, target := target } ∧
      (holdTranslation f page target s).host.tcache.length ≤ 4096 ∧ (holdTranslation f page target s).host.tags = s.host.tags :=
  ⟨rfl, List.length_take_le .., rfl⟩

theorem translationCompletion_denied {fn : TenantId} {page : BitVec 52} {s : State} {e : TagEnt}
    (h : s.host.tags.find? (fun e => e.use == .translation fn.val page.toNat) = some e) (hf : e.fenced = false) :
    exec (.translationCompletion fn page none) s =
      .next (readsGoOn (translationFailed fn.val page.toNat (freeTagEnt e (bump (kHoHostStats 1) s)))) := by
  have huse : e.use = .translation fn.val page.toNat := by simpa using List.find?_some h
  rw [translationCompletion_some h, if_neg (by rw [hf]; decide), tagFailed_translation hf huse]
  rfl

/-! ### Invalidations (R635) -/

/-- A request in flight of function `i.1` asks for a page of the run. -/
def runInUse (s : State) (i : Nat × Nat × Nat) : Bool := s.host.tags.any fun e => e.fn == i.1 && inPages (e.addr / 4096) i.2.1 i.2.2

/-- One invalidation is answered when no request in flight asks for its pages. -/
def answerOne (i : Nat × Nat × Nat) (t : State) : State :=
  if runInUse t i then t
  else send (.invalidateDone i.1 i.2.1) { t with host := { t.host with invalidating := t.host.invalidating.filter (· != i) } }

theorem answerInvalidations_eq (s : State) : answerInvalidations s = each s.host.invalidating answerOne s := rfl

theorem answerOne_tags (i : Nat × Nat × Nat) (s : State) : (answerOne i s).host.tags = s.host.tags := by
  unfold answerOne
  split <;> rfl

theorem answerOne_tcache (i : Nat × Nat × Nat) (s : State) : (answerOne i s).host.tcache = s.host.tcache := by
  unfold answerOne
  split <;> rfl

theorem answerOne_obj (i : Nat × Nat × Nat) (s : State) : (answerOne i s).obj = s.obj := by
  unfold answerOne
  split <;> rfl

theorem runInUse_answerOne (i j : Nat × Nat × Nat) (s : State) : runInUse (answerOne i s) j = runInUse s j := by
  rw [runInUse, answerOne_tags]
  rfl

theorem mem_answerOne_out {o : Output} (i : Nat × Nat × Nat) {s : State} (h : o ∈ s.out) : o ∈ (answerOne i s).out := by
  unfold answerOne
  split
  · exact h
  · exact List.mem_append_left _ h

theorem each_answerOne_out {o : Output} (l : List (Nat × Nat × Nat)) {s : State} (h : o ∈ s.out) : o ∈ (each l answerOne s).out := by
  induction l generalizing s with
  | nil => exact h
  | cons i r ih => exact ih (mem_answerOne_out i h)

theorem answerOne_sends {i : Nat × Nat × Nat} {s : State} (hfree : runInUse s i = false) : .invalidateDone i.1 i.2.1 ∈ (answerOne i s).out := by
  have hsent : answerOne i s = send (.invalidateDone i.1 i.2.1)
      { s with host := { s.host with invalidating := s.host.invalidating.filter (· != i) } } := if_neg (by rw [hfree]; decide)
  rw [hsent]
  exact List.mem_append_right _ (List.mem_singleton.2 rfl)

/-- An invalidation whose pages no request asks for is answered. -/
theorem each_answerOne_sends {i : Nat × Nat × Nat} {l : List (Nat × Nat × Nat)} {s : State} (hi : i ∈ l) (hfree : runInUse s i = false) :
    .invalidateDone i.1 i.2.1 ∈ (each l answerOne s).out := by
  induction l generalizing s with
  | nil => cases hi
  | cons j r ih =>
    rcases List.mem_cons.1 hi with rfl | hr
    · exact each_answerOne_out r (answerOne_sends hfree)
    · exact ih hr ((runInUse_answerOne j i s).trans hfree)

theorem mem_answerOne_invalidating {i : Nat × Nat × Nat} {s : State} (h : i ∈ s.host.invalidating) (hused : runInUse s i = true) (j : Nat × Nat × Nat) :
    i ∈ (answerOne j s).host.invalidating := by
  unfold answerOne
  split
  case isTrue => exact h
  case isFalse hj =>
    have hne : i ≠ j := fun hij => hj (hij ▸ hused)
    exact List.mem_filter.2 ⟨h, by simpa using hne⟩

/-- An invalidation whose pages a request still asks for waits. -/
theorem each_answerOne_waits {i : Nat × Nat × Nat} (l : List (Nat × Nat × Nat)) {s : State} (h : i ∈ s.host.invalidating) (hused : runInUse s i = true) :
    i ∈ (each l answerOne s).host.invalidating := by
  induction l generalizing s with
  | nil => exact h
  | cons j r ih => exact ih (mem_answerOne_invalidating h hused j) ((runInUse_answerOne j i s).trans hused)

/-- The entries of a run of pages are gone, and the answer is owed. -/
def runRemoved (i : Nat × Nat × Nat) (s : State) : State :=
  { s with host := { s.host with tcache := s.host.tcache.filter fun e => !(e.fn == i.1 && inPages e.page i.2.1 i.2.2),
                                 invalidating := s.host.invalidating ++ [i] } }

theorem mem_runRemoved_tcache (i : Nat × Nat × Nat) (s : State) (e : TransEnt) :
    e ∈ (runRemoved i s).host.tcache ↔ e ∈ s.host.tcache ∧ ¬(e.fn = i.1 ∧ i.2.1 ≤ e.page ∧ e.page < i.2.1 + i.2.2) := by
  have hrun : (!(e.fn == i.1 && inPages e.page i.2.1 i.2.2)) = true ↔ ¬(e.fn = i.1 ∧ i.2.1 ≤ e.page ∧ e.page < i.2.1 + i.2.2) := by
    rw [Bool.not_eq_true', ← Bool.not_eq_true]
    simp [inPages]
  rw [runRemoved, List.mem_filter, hrun]

theorem runInUse_iff (s : State) (i : Nat × Nat × Nat) :
    runInUse s i = true ↔ ∃ e ∈ s.host.tags, e.fn = i.1 ∧ i.2.1 ≤ e.addr / 4096 ∧ e.addr / 4096 < i.2.1 + i.2.2 := by
  simp [runInUse, inPages]

theorem exec_atsInvalidate (fn : TenantId) (page : BitVec 52) (log2 : Fin 53) (s : State) : exec (.atsInvalidate fn page log2) s =
    .next (answerInvalidations (runRemoved (fn.val, page.toNat / 2 ^ log2.val * 2 ^ log2.val, 2 ^ log2.val) (bump (kHoHostStats 10) s))) := rfl

/-- A run of pages is invalidated: its entries go at once, its answer when no request asks for them. -/
theorem answerInvalidations_runRemoved (i : Nat × Nat × Nat) (s : State) :
    let t := answerInvalidations (runRemoved i (bump (kHoHostStats 10) s))
    Counts 64 (kHoHostStats 10) 1 s t ∧
      (∀ e, e ∈ t.host.tcache ↔ e ∈ s.host.tcache ∧ ¬(e.fn = i.1 ∧ i.2.1 ≤ e.page ∧ e.page < i.2.1 + i.2.2)) ∧
      (runInUse s i = false → .invalidateDone i.1 i.2.1 ∈ t.out) ∧ (runInUse s i = true → i ∈ t.host.invalidating) := by
  rw [answerInvalidations_eq]
  intro t
  have hlast : i ∈ (runRemoved i (bump (kHoHostStats 10) s)).host.invalidating := List.mem_append_right _ (List.mem_singleton.2 rfl)
  have htcache : t.host.tcache = (runRemoved i (bump (kHoHostStats 10) s)).host.tcache :=
    each_eq (g := fun t => t.host.tcache) answerOne_tcache _ _
  have hobj : t.obj = (bump (kHoHostStats 10) s).obj := each_eq (g := fun t => t.obj) answerOne_obj _ _
  refine ⟨Counts.of_eq (counts_bump ..) ((Keeps.of_obj (keys := []) hobj) _ (by decide)), fun e => ?_, fun hfree => ?_, fun hused => ?_⟩
  · rw [htcache]
    exact mem_runRemoved_tcache i _ e
  · exact each_answerOne_sends hlast hfree
  · exact each_answerOne_waits _ hlast hused

end Sys2Proof.Machine
end

section
/-!
PROOFS. Accesses of the host to device memory: BAR4 and CXL.mem; snoops of CXL.cache (R41, R615, R616).
-/
namespace Sys2Proof.Machine

/-! ### A packet for an on-die bank -/

theorem regionOf_of_bank {s : State} {a r : Nat} (h : destOf s a = some (r, true)) : ∃ q b, regionOf s a = .gb q b := by
  unfold destOf at h
  split at h
  case h_1 q b hr => exact ⟨q, b, hr⟩
  all_goals simp at h

/-- A packet for a bank whose domain is awake, and not entering a sleep state, is delivered at once. -/
theorem arrive_at_awake_bank {p : Packet} {s : State} (hbank : p.bank = true) (hawake : domAsleep s (44 + bankQuad p.dst) = false)
    (hstay : ∀ k x, (domSt s (44 + bankQuad p.dst)).trans ≠ .entering k x) : arrive p s = deliver p s := by
  have hdom : destDomain p = some (44 + bankQuad p.dst) := if_pos hbank
  unfold arrive
  rw [hdom]
  dsimp only
  rw [if_neg (by rw [hawake]; decide)]
  split
  · exact absurd ‹_› (hstay _ _)
  · rfl

theorem deliver_request {p : Packet} (h : p.kind < 3) (s : State) : deliver p s = performPacket p s := by
  unfold deliver
  split
  · omega
  · omega
  · rfl

theorem performPacket_read {p : Packet} {s : State} {q b : Nat} (hr : regionOf s p.addr = .gb q b) (hk : p.kind = 0) : performPacket p s =
    giveAnswer p (load s p.addr p.len) (poisonedBytes s p.addr p.len) (demandFault p.addr p.len s) := by
  unfold performPacket
  rw [hr]
  exact if_pos hk

theorem performPacket_write {p : Packet} {s : State} {q b : Nat} (hr : regionOf s p.addr = .gb q b) (hk : p.kind ≠ 0) : performPacket p s =
    giveAnswer p [] [] (each p.bad (fun b t => poisonRange (p.addr + b) 1 t) (memStore p.addr p.data s)) := by
  unfold performPacket
  rw [hr]
  exact if_neg hk

theorem countFlits_domAsleep (p : Packet) (s : State) (d : Nat) : domAsleep (countFlits p s) d = domAsleep s d := by
  unfold countFlits
  dsimp only
  split <;> rfl

theorem countFlits_domSt (p : Packet) (s : State) (d : Nat) : domSt (countFlits p s) d = domSt s d := by
  unfold countFlits
  dsimp only
  split <;> rfl

theorem countFlits_regionOf (p : Packet) (s : State) (a : Nat) : regionOf (countFlits p s) a = regionOf s a := by
  unfold countFlits
  dsimp only
  split <;> rfl

theorem countFlits_rangePoisoned (p : Packet) (s : State) (a n : Nat) : rangePoisoned (countFlits p s) a n = rangePoisoned s a n := by
  unfold countFlits
  dsimp only
  split <;> rfl

theorem Only.mem_eq {l : List Part} {s t : State} (h : Only l s t) (hl : Part.mem ∉ l := by decide) : t.mem = s.mem := h.same .mem hl

theorem countFlits_mem (p : Packet) (s : State) : (countFlits p s).mem = s.mem := countFlits_only.mem_eq

/-! ### An access of the host to a bank -/

/-- The packet of a host access. -/
def hostPacket (port : Nat) (r : Nat) (b : Bool) (a n : Nat) (data : Option (List Byte)) : Packet :=
  { network := 0, kind := if data.isSome then 1 else 0, src := hostRouter, dst := r, bank := b, addr := a, len := n, data := data.getD [],
    tenant := 0, port := port, direct := true }

theorem hostAccess_of_dest {s : State} {a r : Nat} {b : Bool} (h : destOf s a = some (r, b)) (port n : Nat) (data : Option (List Byte)) :
    hostAccess port a n data s = arrive (hostPacket port r b a n data) (countFlits (hostPacket port r b a n data) s) := by
  unfold hostAccess
  rw [h]
  rfl

/-- A bank whose domain is awake and stays so takes the access at once. -/
structure BankReady (s : State) (a r : Nat) : Prop where
  dest : destOf s a = some (r, true)
  awake : domAsleep s (44 + bankQuad r) = false
  stays : ∀ k p, (domSt s (44 + bankQuad r)).trans ≠ .entering k p

theorem hostPacket_kind_lt (port r : Nat) (b : Bool) (a n : Nat) (data : Option (List Byte)) : (hostPacket port r b a n data).kind < 3 := by
  cases data
  · exact Nat.zero_lt_succ 2
  · exact Nat.one_lt_succ_succ 1

theorem BankReady.hostAccess_eq {s : State} {a r : Nat} (h : BankReady s a r) (port n : Nat) (data : Option (List Byte)) :
    hostAccess port a n data s = performPacket (hostPacket port r true a n data) (countFlits (hostPacket port r true a n data) s) := by
  rw [hostAccess_of_dest h.dest]
  have hdst : (hostPacket port r true a n data).dst = r := rfl
  have hbank : (hostPacket port r true a n data).bank = true := rfl
  have hkind := hostPacket_kind_lt port r true a n data
  generalize hostPacket port r true a n data = p at hdst hbank hkind ⊢
  subst hdst
  rw [arrive_at_awake_bank hbank ((countFlits_domAsleep ..).trans h.awake) (fun k x => by rw [countFlits_domSt]; exact h.stays k x),
    deliver_request hkind]

/-- A read answers what the bank holds, marked bad when any of it is poisoned. -/
theorem BankReady.hostAccess_read {s : State} {a r : Nat} (h : BankReady s a r) (port n : Nat) :
    (hostAccess port a n none s).mem = s.mem ∧ ∃ bad, (hostAccess port a n none s).out.getLast? = some (.readData 0 (load s a n) bad) ∧
      (bad = true ↔ ∃ k < n, rangePoisoned s (a + k) 1 = true) := by
  obtain ⟨q, b, hregion⟩ := regionOf_of_bank h.dest
  let p := hostPacket port r true a n none
  have hanswer : hostAccess port a n none s = send (.readData 0 (load (countFlits p s) a n) (!(poisonedBytes (countFlits p s) a n).isEmpty))
      (demandFault a n (countFlits p s)) := by
    rw [h.hostAccess_eq, performPacket_read ((countFlits_regionOf ..).trans hregion) rfl]
    rfl
  have hload : load (countFlits p s) a n = load s a n := by rw [load, load, countFlits_mem]
  rw [hanswer, hload]
  refine ⟨(demandFault_only.mem_eq (s := countFlits p s)).trans (countFlits_mem p s), _, List.getLast?_concat .., ?_⟩
  simp [poisonedBytes, upto, countFlits_rangePoisoned, List.filter_eq_nil_iff]

/-- A write leaves its bytes in the bank and every other byte as it was. -/
theorem BankReady.hostAccess_write {s : State} {a r : Nat} (h : BankReady s a r) (port : Nat) (l : List Byte) (hwf : Memory.wf s.mem = true) :
    load (hostAccess port a l.length (some l) s) a l.length = l ∧ MemKeeps a l.length s (hostAccess port a l.length (some l) s) := by
  obtain ⟨q, b, hregion⟩ := regionOf_of_bank h.dest
  let p := hostPacket port r true a l.length (some l)
  have hstored : hostAccess port a l.length (some l) s = memStore a l (countFlits p s) := by
    rw [h.hostAccess_eq, performPacket_write ((countFlits_regionOf ..).trans hregion) Nat.one_ne_zero]
    rfl
  have hmem : (hostAccess port a l.length (some l) s).mem = memWrite s.mem a l := by
    have hstore : (memStore a l (countFlits p s)).mem = memWrite (countFlits p s).mem a l := rfl
    rw [hstored, hstore, countFlits_mem]
  refine ⟨?_, fun x hx => ?_⟩
  · rw [load, hmem]
    exact memRead_memWrite_self a l hwf
  · rw [hmem]
    exact memGet_memWrite_outside l hx s.mem

/-! ### BAR4 (R41) -/

/-- Bytes that an access of the host moves. -/
def accessLen (len : Nat) (data : Option (List Byte)) : Nat :=
  match data with
  | some l => l.length
  | none => len

theorem exec_bar4Access (ofs : BitVec 30) (len : Fin 4097) (data : Option (List Byte)) (s : State) : exec (.bar4Access ofs len data) s =
    let a := (fnOf s 0).bar4Base + ofs.toNat
    let n := accessLen len.val data
    if n = 0 then .next s
    else if bar4Reaches s a n then .next (hostAccess 1 a n data s)
    else .next (send (.completerAbort 0) (accessError 0 0 4 a s)) := rfl

theorem bar4Access_empty {ofs : BitVec 30} {len : Fin 4097} {data : Option (List Byte)} {s : State} (h : accessLen len.val data = 0) :
    Idles s (.bar4Access ofs len data) := by
  rw [Idles, exec_bar4Access]
  exact if_pos h

theorem bar4Access_reached {ofs : BitVec 30} {len : Fin 4097} {data : Option (List Byte)} {s : State} (h : 0 < accessLen len.val data)
    (hr : bar4Reaches s ((fnOf s 0).bar4Base + ofs.toNat) (accessLen len.val data) = true) : exec (.bar4Access ofs len data) s =
      .next (hostAccess 1 ((fnOf s 0).bar4Base + ofs.toNat) (accessLen len.val data) data s) := by
  rw [exec_bar4Access]
  dsimp only
  rw [if_neg (by omega), if_pos hr]

theorem bar4Access_denied {ofs : BitVec 30} {len : Fin 4097} {data : Option (List Byte)} {s : State} (h : 0 < accessLen len.val data)
    (hr : bar4Reaches s ((fnOf s 0).bar4Base + ofs.toNat) (accessLen len.val data) = false) :
    Gives s (.bar4Access ofs len data) [.obj, .out] (AccessDenied 0 s) := by
  have hexec : exec (.bar4Access ofs len data) s =
      .next (send (.completerAbort 0) (accessError 0 0 4 ((fnOf s 0).bar4Base + ofs.toNat) s)) := by
    rw [exec_bar4Access]
    dsimp only
    rw [if_neg (by omega), if_neg (by rw [hr]; decide)]
  exact ⟨_, hexec, Only.upd (accessError_only.mono), counts_accessError_total .., counts_accessError_stat .., rfl⟩

/-! ### CXL.mem and CXL.cache (R615, R616) -/

/-- A CXL.mem range is enabled on an active link. -/
def CxlMemOn (s : State) : Prop := rdB s kHoCxlActive = true ∧ s.host.hdm = true

/-- What a CXL.mem request does on an active link: the access, or an access error, and for a read poison. -/
def cxlMemAccess (a n : Nat) (data : Option (List Byte)) (s : State) : State :=
  if regionOf s a == .dram && regionOf s (a + n - 1) == .dram then hostAccess 2 a n data s
  else if data.isSome then accessError 0 0 0 a s
  else send (.readData 0 (Config.freeBytes s.freeCtr n) true) { accessError 0 0 0 a s with freeCtr := s.freeCtr + 1 }

theorem exec_cxlMemRequest (dpa : BitVec 40) (len : Fin 65) (data : Option (List Byte)) (s : State) : exec (.cxlMemRequest dpa len data) s =
    whenDue (rdB s kHoCxlActive && s.host.hdm) (cxlMemAccess (dramBase + dpa.toNat) (accessLen len.val data) data) s := rfl

theorem cxlMemRequest_off {dpa : BitVec 40} {len : Fin 65} {data : Option (List Byte)} {s : State} (h : ¬CxlMemOn s) :
    Idles s (.cxlMemRequest dpa len data) :=
  (exec_cxlMemRequest dpa len data s).trans (whenDue_of_not (fun hb => h ((Bool.and_eq_true _ _).mp hb)) _ s)

theorem cxlMemRequest_on {dpa : BitVec 40} {len : Fin 65} {data : Option (List Byte)} {s : State} (h : CxlMemOn s) :
    exec (.cxlMemRequest dpa len data) s = .next (cxlMemAccess (dramBase + dpa.toNat) (accessLen len.val data) data s) :=
  (exec_cxlMemRequest dpa len data s).trans (whenDue_of ((Bool.and_eq_true _ _).mpr h) _ s)

theorem cxlMemAccess_dram {a n : Nat} {s : State} (h : regionOf s a = .dram ∧ regionOf s (a + n - 1) = .dram) (data : Option (List Byte)) :
    cxlMemAccess a n data s = hostAccess 2 a n data s := if_pos (by simpa using h)

theorem cxlMemAccess_hole {a n : Nat} {s : State} (h : ¬(regionOf s a = .dram ∧ regionOf s (a + n - 1) = .dram)) (data : Option (List Byte)) :
    cxlMemAccess a n data s = if data.isSome then accessError 0 0 0 a s
      else send (.readData 0 (Config.freeBytes s.freeCtr n) true) { accessError 0 0 0 a s with freeCtr := s.freeCtr + 1 } := if_neg (by simpa using h)

theorem cxlMemRequest_write_hole {dpa : BitVec 40} {len : Fin 65} {data : Option (List Byte)} {s : State} (hon : CxlMemOn s)
    (h : ¬(regionOf s (dramBase + dpa.toNat) = .dram ∧ regionOf s (dramBase + dpa.toNat + accessLen len.val data - 1) = .dram)) (hd : data ≠ none) :
    Gives s (.cxlMemRequest dpa len data) [.obj] fun t => Counts 64 kHoAeTotal 1 s t ∧ Counts 64 (kHoHostStats 8) 1 s t := by
  refine ⟨accessError 0 0 0 (dramBase + dpa.toNat) s, (cxlMemRequest_on hon).trans ?_, accessError_only, counts_accessError_total .., counts_accessError_stat ..⟩
  rw [cxlMemAccess_hole h, if_pos (Option.isSome_iff_ne_none.2 hd)]

theorem cxlMemRequest_read_hole {dpa : BitVec 40} {len : Fin 65} {data : Option (List Byte)} {s : State} (hon : CxlMemOn s)
    (h : ¬(regionOf s (dramBase + dpa.toNat) = .dram ∧ regionOf s (dramBase + dpa.toNat + accessLen len.val data - 1) = .dram)) (hd : data = none) :
    Gives s (.cxlMemRequest dpa len data) [.obj, .out, .freeCtr] fun t => Counts 64 kHoAeTotal 1 s t ∧
      ∃ l, t.out = s.out ++ [.readData 0 l true] := by
  refine ⟨cxlMemAccess _ _ data s, cxlMemRequest_on hon, ?_⟩
  rw [cxlMemAccess_hole h, if_neg (by rw [hd]; decide)]
  exact ⟨Only.upd (Only.upd (accessError_only.mono)), counts_accessError_total 0 0 0 (dramBase + dpa.toNat) s, _, rfl⟩

theorem exec_cxlSnoop (line : BitVec 52) (s : State) : exec (.cxlSnoop line) s = whenDue (s.host.lines.any fun e => e.1 == line.toNat / 64 * 64)
    (fun s => send (.snoopHit (line.toNat / 64 * 64)) { s with host := { s.host with
      lines := s.host.lines.filter fun e => e.1 != line.toNat / 64 * 64 } }) s := rfl

theorem cxlSnoop_miss {line : BitVec 52} {s : State} (h : ∀ e ∈ s.host.lines, e.1 ≠ line.toNat / 64 * 64) : Idles s (.cxlSnoop line) := by
  rw [Idles, exec_cxlSnoop]
  refine whenDue_of_not (fun hany => ?_) _ s
  obtain ⟨e, he, hline⟩ := List.any_eq_true.1 hany
  exact h e he (beq_iff_eq.1 hline)

theorem cxlSnoop_hit {line : BitVec 52} {s : State} (h : ∃ e ∈ s.host.lines, e.1 = line.toNat / 64 * 64) :
    Gives s (.cxlSnoop line) [.host, .out] fun t => t.out = s.out ++ [.snoopHit (line.toNat / 64 * 64)] ∧
      ∀ e, e ∈ t.host.lines ↔ e ∈ s.host.lines ∧ e.1 ≠ line.toNat / 64 * 64 := by
  have hexec := (exec_cxlSnoop line s).trans (whenDue_of (List.any_eq_true.2 (h.imp fun _ he => he.imp_right beq_iff_eq.2)) _ s)
  refine execCxlSnoop_only.gives hexec ⟨rfl, fun e => ?_⟩
  exact List.mem_filter.trans (and_congr_right fun _ => bne_iff_ne)

end Sys2Proof.Machine
end

section
/-!
PROOFS. Queue and register accesses of a function, host reads, translations, BAR4 and CXL.mem, as the statement groups them (R41, R613, R615,
R616, R621, R623, R625, R629, R631, R635).
-/
namespace Sys2Proof.Machine

/-- A read by the host of a register, clause by clause. -/
theorem counterLoRead_facts (fn : TenantId) (ofs : BitVec 14) (s : State) :
    let f := fn.val; let o := 4 * ofs.toNat; let hiNow := now s / 2 ^ 32 % 2 ^ 32
    Gives s (.counterLoRead fn ofs 15) [.host, .out] fun t => t.out = s.out ++ [.readData f (toBytes 4 (regRead s f o)) false] ∧
      (o = 0 → regRead s f o = 0x6412B101) ∧
      (o = 0x10 → regRead s f o = now s % 2 ^ 32 ∧ (fnOf t f).dtcLatch = some hiNow) ∧
      (o = 0x14 → regRead s f o = (fnOf s f).dtcLatch.getD hiNow) ∧
      (∀ n < 16, (o = 0x1030 + 0x100 * n → qpOf t f n = { qpOf s f n with latSubmitted := some ((qpOf s f n).submitted / 2 ^ 32 % 2 ^ 32) }) ∧
        (o = 0x1038 + 0x100 * n → qpOf t f n = { qpOf s f n with latCompleted := some ((qpOf s f n).completed / 2 ^ 32 % 2 ^ 32) })) ∧
      (o ≠ 0x10 → o < 0x1000 ∨ 0x2000 ≤ o → t.host = s.host) := by
  intro f o hiNow
  refine counterLoRead_gives ?_
  have hhost (x : Output) : (send x (latchRead f o s)).host = (latchRead f o s).host := rfl
  refine ⟨fun h => ?id, fun h => ⟨?dtc, ?latch⟩, fun h => ?dtcHigh, fun n hn => ⟨fun h => ?submitted, fun h => ?completed⟩, fun h h1 => ?other⟩
  case id => rw [h]; rfl
  case dtc => rw [h]; rfl
  case latch =>
    have hlatch : latchRead f o s = modFn f (fun r => { r with dtcLatch := some hiNow }) s := if_pos h
    have hself := congrArg FnSt.dtcLatch (fnOf_modFn_self f (fun r => { r with dtcLatch := some hiNow }) s)
    rw [← hlatch] at hself
    exact hself
  case dtcHigh => rw [h]; rfl
  case submitted =>
    have hself := qpOf_setQp_self f n { qpOf s f n with latSubmitted := some (half true (qpOf s f n).submitted) } s
    rw [← latchRead_submitted f hn, ← h] at hself
    exact hself
  case completed =>
    have hself := qpOf_setQp_self f n { qpOf s f n with latCompleted := some (half true (qpOf s f n).completed) } s
    rw [← latchRead_completed f hn, ← h] at hself
    exact hself
  case other => rw [hhost, latchRead_other h h1]

/-- Settles O56: each access is a lemma above about its command. -/
theorem hostRegistersAndReads : Obligations.HostRegistersAndReads := by
  unfold Obligations.HostRegistersAndReads
  refine ⟨fun fn qp s => ⟨?qpEnableIdle, qpEnable_refused, qpEnable_accepted, qpDisable_idle, qpDisable_quiesced, qpDisable_running⟩,
    fun fn s => ⟨?eqEnableIdle, eqEnable_refused, eqEnable_without_lost, eqEnable_with_lost, eqDisable_gives fn s, aeLogClear_gives fn s,
      fun v => ⟨eqHead_refused, eqHead_quiet, eqHead_with_lost⟩⟩,
    fun fn ofs be v s hbe i hi => register_access_denied hbe hi,
    counterLoRead_facts,
    fun fn ofs v s => ⟨registerWrite_readOnly, registerWrite_eqCtrl, registerWrite_eqHead, registerWrite_aeLog, registerWrite_mbCtrl, registerWrite_mbStatus,
      registerWrite_eqMod, fun h => (registerWrite_eqSet h (by decide) (regWrite_eqBaseLo ..)).1,
      fun h => (registerWrite_eqSet h (by decide) (regWrite_eqBaseHi ..)).1, registerWrite_eqLocked,
      fun n hn => ⟨registerWrite_qpLocked hn, fun h => (registerWrite_qpSet hn (by decide) h (qpWrite_sqBaseLo ..)).1,
        fun h => (registerWrite_qpSet hn (by decide) h (qpWrite_sqBaseHi ..)).1, fun h => (registerWrite_qpSet hn (by decide) h (qpWrite_cqBaseLo ..)).1,
        fun h => (registerWrite_qpSet hn (by decide) h (qpWrite_cqBaseHi ..)).1, registerWrite_qpMod hn, registerWrite_qpCtrl hn⟩,
      fun n hn => registerWrite_msixData hn, registerWrite_request⟩,
    fun fn tag s => ⟨fun h => ⟨exec_hostReadCompletion_none h, exec_completionTimeout_none h⟩, fun e h => ⟨hostReadCompletion_translation h,
      fun ht l => ⟨_, hostReadCompletion_due h ht _, tagAnswered_data_facts e l s⟩, ?failure, ?notTimedOut, ?timedOut⟩⟩,
    fun fn page tg s => ⟨fun h => translationCompletion_none h tg, fun e h => ⟨?fencedTranslation, ?heldTranslation, ?deniedTranslation⟩⟩,
    fun fn page log2 s => ?invalidation,
    fun ofs len data s => ⟨bar4Access_empty, bar4Access_denied, fun h hr => ⟨bar4Access_reached h hr,
      fun r hdest hawake hstays => ⟨?bankRead, ?bankWrite⟩⟩⟩,
    fun dpa len data s => ⟨cxlMemRequest_off, ?cxlDram, cxlMemRequest_write_hole, cxlMemRequest_read_hole⟩,
    fun line s => ⟨cxlSnoop_miss, cxlSnoop_hit⟩⟩
  case qpEnableIdle =>
    intro h
    rw [Idles, exec_qpEnable, qpEnable, if_neg h]
  case eqEnableIdle =>
    intro h
    rw [Idles, exec_eqEnable, eqEnable_of_enabled h]
  case failure =>
    intro ht hf a k x hax
    obtain ⟨hanswer, hstat⟩ := tagAnswered_failure hf hax s
    subst hstat
    exact ⟨_, (hostReadCompletion_due h ht a).trans (by rw [hanswer]), tagFailed_read_facts hf ht x s⟩
  case notTimedOut =>
    intro hdue
    rw [Idles, exec_completionTimeout h, timeoutNs_eq]
    exact whenDue_of_not (by simpa using hdue) _ s
  case timedOut =>
    intro hdue
    rw [exec_completionTimeout h, timeoutNs_eq]
    exact ⟨_, whenDue_of (decide_eq_true hdue) _ s, tagFailed_timeout_counts e s,
      fun ht => ⟨tagFailed_tags ht .timeout s, fun hf => (tagFailed_read_facts hf ht .timeout s).2.2⟩⟩
  case fencedTranslation =>
    intro hf
    exact ⟨_, (translationCompletion_some h).trans (if_pos hf), counts_bump .., rfl⟩
  case heldTranslation =>
    rintro hf b rfl
    exact ⟨_, (translationCompletion_some h).trans (if_neg (by rw [hf]; decide)), holdTranslation_facts fn.val page.toNat b.toNat (freeTagEnt e s)⟩
  case deniedTranslation =>
    rintro hf rfl
    exact translationCompletion_denied h hf
  case invalidation =>
    let i := (fn.val, page.toNat / 2 ^ log2.val * 2 ^ log2.val, 2 ^ log2.val)
    obtain ⟨hcount, htcache, hsent, hwaits⟩ := answerInvalidations_runRemoved i s
    refine execAtsInvalidate_only.gives (exec_atsInvalidate fn page log2 s) ⟨hcount, htcache, fun hfree => hsent ?_, fun hused => hwaits ?_⟩
    · exact Bool.eq_false_iff.2 fun hb => hfree ((runInUse_iff s i).1 hb)
    · exact (runInUse_iff s i).2 hused
  case bankRead =>
    rintro rfl
    exact (execBar4Access_only (ofs := ofs) (len := len) (data := none) (s := s)).gives (bar4Access_reached h hr)
      (BankReady.hostAccess_read ⟨hdest, hawake, hstays⟩ 1 _)
  case bankWrite =>
    rintro l rfl hwf
    exact (execBar4Access_only (ofs := ofs) (len := len) (data := some l) (s := s)).gives (bar4Access_reached h hr)
      (BankReady.hostAccess_write ⟨hdest, hawake, hstays⟩ 1 l hwf)
  case cxlDram =>
    intro hon hin
    exact (cxlMemRequest_on hon).trans (congrArg Host.Outcome.next (cxlMemAccess_dram hin data))

end Sys2Proof.Machine
end

section
/-!
PROOFS. Reads of host memory that start, and graphs and list elements found by their number: what a change of one leaves of the others.
-/
namespace Sys2Proof.Machine

/-! ### Lists whose first match is changed -/

/-- A search that meets none of the elements changed, before or after, finds what it found. -/
theorem find?_updFirst_of_disjoint {α : Type} {p q : α → Bool} {g : α → α} (h : ∀ a, p a = true → q a = false ∧ q (g a) = false) (l : List α) :
    (updFirst p g l).find? q = l.find? q := by
  induction l with
  | nil => rfl
  | cons a r ih =>
    rw [updFirst]
    by_cases ha : p a = true
    · obtain ⟨hold, hnew⟩ := h a ha
      rw [if_pos ha, List.find?_cons_of_neg (Bool.eq_false_iff.1 hnew), List.find?_cons_of_neg (Bool.eq_false_iff.1 hold)]
    · rw [if_neg ha, List.find?_cons, List.find?_cons, ih]

theorem length_updFirst {α : Type} (p : α → Bool) (g : α → α) (l : List α) : (updFirst p g l).length = l.length := by
  induction l with
  | nil => rfl
  | cons a r ih =>
    rw [updFirst]
    split
    · rfl
    · rw [List.length_cons, ih, List.length_cons]

/-- The elements after the change: those from before, and the first match changed. -/
theorem mem_updFirst_of_find? {α : Type} {p : α → Bool} {g : α → α} {a : α} {l : List α} (h : l.find? p = some a) :
    (∀ x ∈ updFirst p g l, x ∈ l ∨ x = g a) ∧ g a ∈ updFirst p g l := by
  induction l with
  | nil => cases h
  | cons b r ih =>
    rw [updFirst]
    by_cases hb : p b = true
    · rw [List.find?_cons_of_pos hb] at h
      cases h
      rw [if_pos hb]
      exact ⟨fun x hx => (List.mem_cons.1 hx).symm.imp (List.mem_cons_of_mem _) id, List.mem_cons_self⟩
    · rw [List.find?_cons_of_neg hb] at h
      rw [if_neg hb]
      obtain ⟨hfrom, hin⟩ := ih h
      refine ⟨fun x hx => ?_, List.mem_cons_of_mem _ hin⟩
      obtain rfl | hx := List.mem_cons.1 hx
      · exact .inl List.mem_cons_self
      · exact (hfrom x hx).imp_left (List.mem_cons_of_mem _)

/-! ### Graphs by number -/

theorem graphOf_id {s : State} {gid : Nat} {g : Graph} (h : graphOf s gid = some g) : g.id = gid := by
  simpa using List.find?_some h

theorem graphOf_of_work {s t : State} (h : t.work = s.work) (gid : Nat) : graphOf t gid = graphOf s gid := by rw [graphOf, graphOf, h]

theorem graphOf_modGraph_self {gid : Nat} {f : Graph → Graph} (hf : ∀ g, (f g).id = g.id) (s : State) :
    graphOf (modGraph gid f s) gid = (graphOf s gid).map f := find?_updFirst (fun g => by rw [hf]) s.work.graphs

theorem graphOf_modGraph_ne {gid i : Nat} (h : i ≠ gid) {f : Graph → Graph} (hf : ∀ g, (f g).id = g.id) (s : State) :
    graphOf (modGraph gid f s) i = graphOf s i := by
  refine find?_updFirst_of_disjoint (fun g hg => ?_) s.work.graphs
  have hid : (g.id == i) = false := beq_false_of_ne (eq_of_beq hg ▸ h.symm)
  exact ⟨hid, (hf g).symm ▸ hid⟩

/-! ### A read of host memory starts (R613) -/

theorem Only.work_eq {l : List Part} {s t : State} (h : Only l s t) (hl : Part.work ∉ l := by decide) : t.work = s.work := h.same .work hl

theorem Only.host_eq {l : List Part} {s t : State} (h : Only l s t) (hl : Part.host ∉ l := by decide) : t.host = s.host := h.same .host hl

theorem askTranslation_reads (f page : Nat) (s : State) : (askTranslation f page s).host.reads = s.host.reads := by
  unfold askTranslation
  split
  · rfl
  · split <;> rfl

theorem touchTranslation_reads (f page : Nat) (s : State) : (touchTranslation f page s).host.reads = s.host.reads := by
  unfold touchTranslation
  split <;> rfl

/-- A request or a Translation Request sent changes neither the operations nor the records of the functions. -/
theorem pumpRead_keeps (u : ReadUse) (s : State) : (pumpRead u s).host.reads = s.host.reads ∧ (pumpRead u s).host.fns = s.host.fns := by
  unfold pumpRead
  split
  · exact ⟨rfl, rfl⟩
  · split
    · exact ⟨rfl, rfl⟩
    · split
      · exact ⟨askTranslation_reads .., askTranslation_fns ..⟩
      · exact ⟨rfl, rfl⟩
      · exact ⟨touchTranslation_reads .., touchTranslation_fns ..⟩

/-- The operation as it starts. -/
def freshRead (f : Nat) (u : ReadUse) (addr len : Nat) : ReadOp := { fn := f, use := u, addr := addr, left := len }

theorem startRead_reads (f : Nat) (u : ReadUse) (addr len : Nat) (s : State) :
    (startRead f u addr len s).host.reads = s.host.reads ++ [freshRead f u addr len] := (pumpRead_keeps u _).1

theorem startRead_fns (f : Nat) (u : ReadUse) (addr len : Nat) (s : State) : (startRead f u addr len s).host.fns = s.host.fns :=
  (pumpRead_keeps u _).2

theorem readOp_startRead_self {s : State} {u : ReadUse} (h : readOp s u = none) (f addr len : Nat) :
    readOp (startRead f u addr len s) u = some (freshRead f u addr len) := by
  have hnone : s.host.reads.find? (fun o => o.use == u) = none := h
  have hfresh : (freshRead f u addr len).use == u := beq_self_eq_true u
  rw [readOp, startRead_reads, List.find?_append, hnone, Option.none_or]
  exact List.find?_cons_of_pos hfresh

theorem readOp_startRead_ne {u v : ReadUse} (h : u ≠ v) (f addr len : Nat) (s : State) : readOp (startRead f u addr len s) v = readOp s v := by
  have hfresh : [freshRead f u addr len].find? (fun o => o.use == v) = none := List.find?_cons_of_neg (by simpa [freshRead] using h)
  rw [readOp, startRead_reads, List.find?_append, hfresh, Option.or_none, readOp]

end Sys2Proof.Machine
end

section
/-!
PROOFS. SUBMIT, CANCEL and RELEASE_CARRY as read from a queue pair, and the fetch of a graph (02_slot_graphs.md, R84, R85, R94, R288).
-/
namespace Sys2Proof.Machine

/-! ### The entry read from a queue pair (R85, R627) -/

/-- A queue pair after the entry it read was taken. -/
def takenQp (q : QueuePair) : QueuePair := { q with fetching := none, submitted := (q.submitted + 1) % 2 ^ 64 }

theorem fetching_of_fetchedEntry {s : State} {f n : Nat} {x : Nat × Option Nat} (h : fetchedEntry s f n = some x) :
    ∃ i, (qpOf s f n).fetching = some (i, x.1) := by
  unfold fetchedEntry at h
  split at h
  case h_1 => cases h
  case h_2 i t hfetch =>
    refine ⟨i, hfetch.trans ?_⟩
    split at h
    · split at h
      · cases h; rfl
      · split at h
        · cases h; rfl
        · cases h
    · cases h

theorem takeEntry_of_fetching {s : State} {f n i t : Nat} (h : (qpOf s f n).fetching = some (i, t)) :
    takeEntry f n s = setQp f n (takenQp (qpOf s f n)) (dropRead (.submission f n i) s) := by
  unfold takeEntry
  simp only [h]
  rfl

/-- Taking an entry: its queue pair counts it, the other queue pairs and the graphs are as they were. -/
theorem takeEntry_facts {s : State} {f n : Nat} {x : Nat × Option Nat} (h : fetchedEntry s f n = some x) :
    QpsKeep f n s (takeEntry f n s) ∧ qpOf (takeEntry f n s) f n = takenQp (qpOf s f n) ∧ (takeEntry f n s).work = s.work := by
  obtain ⟨i, hfetch⟩ := fetching_of_fetchedEntry h
  rw [takeEntry_of_fetching hfetch]
  exact ⟨setQp_qpsKeep f n _ (dropRead (.submission f n i) s), qpOf_setQp_self .., rfl⟩

/-! ### What an accepted SUBMIT, a CANCEL and a RELEASE_CARRY make of the graphs and the carry buffers -/

/-- The graph of a SUBMIT as it enters CHECKING. -/
def submittedGraph (f n tArr e : Nat) (s : State) : Graph :=
  { id := s.work.nextGraph, tenant := f, ci := eCi e, st := .checking, qp := n, subTag := eSubTag e, validateOnly := bitAt e 8,
    tArr := tArr, air := eAir e, addr := eAddr e, pu := homeOfCi s (eCi e) }

theorem startGraph_facts (f n tArr e : Nat) (s : State) :
    (startGraph f n tArr e s).work.graphs = s.work.graphs ++ [submittedGraph f n tArr e s] ∧
      (startGraph f n tArr e s).work.nextGraph = s.work.nextGraph + 1 ∧ (startGraph f n tArr e s).host.fns = s.host.fns := by
  unfold startGraph
  dsimp only
  rw [startRead_only.work_eq, startRead_fns]
  exact ⟨rfl, rfl, rfl⟩

/-- A graph that owes one more acknowledgement. -/
def owingAck (n e : Nat) (g : Graph) : Graph := { g with cancels := g.cancels ++ [{ qp := n, tag := eSubTag e }] }

/-- The state after a CANCEL was taken and noted at its graph. -/
def cancelNoted (f n e gid : Nat) (s : State) : State := modGraph gid (owingAck n e) (takeEntry f n s)

/-- The carry buffers after the first that bears a key and is not released has its release recorded. -/
def carriesReleased (t ci key : Nat) (s : State) : List Carry :=
  updFirst (fun c => c.ci == ci && c.tenant == t && c.key == key && !c.released) (fun c => { c with released := true }) s.work.carries

theorem carryFind_eq (s : State) (t ci key : Nat) :
    carryFind s t ci key = s.work.carries.find? fun c => c.ci == ci && c.tenant == t && c.key == key && !c.released := by
  rw [carryFind, carriesOf, List.find?_filter]
  refine congrArg (List.find? · s.work.carries) (funext fun c => ?_)
  rw [Bool.decide_and, Bool.decide_eq_true, Bool.decide_eq_true, Bool.and_comm (c.tenant == t), Bool.and_assoc (c.ci == ci && c.tenant == t)]

section
variable {fn : TenantId} {qp : QpId} {s : State} {tArr e : Nat}

/-! ### SUBMIT (R47, R82, R84, R85) -/

theorem submit_unread (h : fetchedEntry s fn.val qp.val = some (tArr, none)) :
    exec (.submit fn qp) s = .next (refuseSubmit fn.val qp.val 0x05 0 s) := by
  show execSubmit fn qp s = _
  simp only [execSubmit, h]
  rfl

variable (h : fetchedEntry s fn.val qp.val = some (tArr, some e))
include h

theorem submit_draining (hk : eKind e = 1) (hd : qpDraining s fn.val qp.val = true) :
    exec (.submit fn qp) s = .next (completeEntry fn.val qp.val 0x0B 0 1 e s) := by
  show execSubmit fn qp s = _
  simp [execSubmit, h, hk, hd, done]

theorem submit_refused {c : Nat} (hk : eKind e = 1) (hd : qpDraining s fn.val qp.val = false) (hc : checkEntry s fn.val e = some c) :
    exec (.submit fn qp) s = .next (refuseSubmit fn.val qp.val c e s) := by
  show execSubmit fn qp s = _
  simp [execSubmit, h, hk, hd, hc, done]

theorem submit_starts (hk : eKind e = 1) (hd : qpDraining s fn.val qp.val = false) (hc : checkEntry s fn.val e = none)
    (hroom : puRoom s (homeOfCi s (eCi e)) = true) :
    exec (.submit fn qp) s = .next (startGraph fn.val qp.val tArr e (takeEntry fn.val qp.val s)) := by
  show execSubmit fn qp s = _
  simp [execSubmit, h, hk, hd, hc, whenDue_of hroom]

theorem submit_accepted (hk : eKind e = 1) (hd : qpDraining s fn.val qp.val = false) (hc : checkEntry s fn.val e = none)
    (hroom : puRoom s (homeOfCi s (eCi e)) = true) :
    Gives s (.submit fn qp) [.obj, .host, .work, .out] fun t => QpsKeep fn.val qp.val s t ∧ qpOf t fn.val qp.val = takenQp (qpOf s fn.val qp.val) ∧
      t.work.nextGraph = s.work.nextGraph + 1 ∧ t.work.graphs = s.work.graphs ++ [submittedGraph fn.val qp.val tArr e s] := by
  obtain ⟨hothers, hself, hwork⟩ := takeEntry_facts h
  obtain ⟨hgraphs, hnext, hfns⟩ := startGraph_facts fn.val qp.val tArr e (takeEntry fn.val qp.val s)
  have hqp (f n : Nat) : qpOf (startGraph fn.val qp.val tArr e (takeEntry fn.val qp.val s)) f n = qpOf (takeEntry fn.val qp.val s) f n :=
    qpOf_of_qps (by rw [fnOf_of_fns hfns]) n
  have hgraph : submittedGraph fn.val qp.val tArr e (takeEntry fn.val qp.val s) = submittedGraph fn.val qp.val tArr e s := by
    rw [submittedGraph, homeOfCi, hwork]
    rfl
  rw [hwork] at hnext
  rw [hwork, hgraph] at hgraphs
  exact execSubmit_only.gives (submit_starts h hk hd hc hroom)
    ⟨fun f n hne => (hqp f n).trans (hothers f n hne), (hqp _ _).trans hself, hnext, hgraphs⟩

/-! ### CANCEL (R78, R80, R166) -/

theorem cancel_without_target (hk : eKind e = 2) (hd : qpDraining s fn.val qp.val = false) (hc : checkEntry s fn.val e = none)
    (ht : cancelTarget s fn.val (eCi e) (eAir e) = none) : exec (.cancel fn qp) s = .next (completeEntry fn.val qp.val 0x07 0x3F 2 e s) := by
  show execCancel fn qp s = _
  simp [execCancel, h, hk, hd, hc, ht, done]

theorem cancel_in_checking {g : Graph} (hk : eKind e = 2) (hd : qpDraining s fn.val qp.val = false) (hc : checkEntry s fn.val e = none)
    (ht : cancelTarget s fn.val (eCi e) (eAir e) = some g) (hst : g.st = .checking) :
    exec (.cancel fn qp) s = .next (cancelNoted fn.val qp.val e g.id s) := by
  show execCancel fn qp s = _
  simp only [execCancel, h, hk, hd, hc, ht, hst]
  rfl

theorem cancel_after_checking {g : Graph} (hk : eKind e = 2) (hd : qpDraining s fn.val qp.val = false) (hc : checkEntry s fn.val e = none)
    (ht : cancelTarget s fn.val (eCi e) (eAir e) = some g) (hst : g.st ≠ .checking) :
    exec (.cancel fn qp) s = .next (qpSettle fn.val qp.val (ackCancels g.id (if g.cancelled then cancelNoted fn.val qp.val e g.id s
      else cancelGraph g.id (cancelNoted fn.val qp.val e g.id s)))) := by
  show execCancel fn qp s = _
  simp only [execCancel, h, hk, hd, hc, ht, if_neg hst]
  rfl

/-- A CANCEL noted: its graph owes one more acknowledgement, and its queue pair counts it. -/
theorem cancelNoted_facts {g : Graph} (hg : graphOf s g.id = some g) :
    graphOf (cancelNoted fn.val qp.val e g.id s) g.id = some (owingAck qp.val e g) ∧
      qpOf (cancelNoted fn.val qp.val e g.id s) fn.val qp.val = takenQp (qpOf s fn.val qp.val) := by
  obtain ⟨-, hself, hwork⟩ := takeEntry_facts h
  refine ⟨?_, hself⟩
  rw [cancelNoted, graphOf_modGraph_self (f := owingAck qp.val e) (fun _ => rfl), graphOf_of_work hwork, hg]
  rfl

/-! ### RELEASE_CARRY (R48) -/

theorem releaseCarry_unknown (hk : eKind e = 3) (hd : qpDraining s fn.val qp.val = false) (hc : checkEntry s fn.val e = none)
    (hf : carryFind s fn.val (eCi e) (fld e 64 32) = none) :
    exec (.releaseCarry fn qp) s = .next (completeEntry fn.val qp.val 0x07 0x3F 3 e s) := by
  show execReleaseCarry fn qp s = _
  simp [execReleaseCarry, h, hk, hd, hc, hf, done]

theorem releaseCarry_found {c : Carry} (hk : eKind e = 3) (hd : qpDraining s fn.val qp.val = false) (hc : checkEntry s fn.val e = none)
    (hf : carryFind s fn.val (eCi e) (fld e 64 32) = some c) :
    exec (.releaseCarry fn qp) s = .next (completeEntry fn.val qp.val 0 0 3 e
      (freeCarries { s with work := { s.work with carries := carriesReleased fn.val (eCi e) (fld e 64 32) s } })) := by
  show execReleaseCarry fn qp s = _
  simp [execReleaseCarry, h, hk, hd, hc, hf, done, carriesReleased]

end

/-! ### The fetch of a graph (R81, R82, R94, R288) -/

section
variable {gid : Nat} {s : State} {g : Graph} (hg : graphOf s gid = some g) (hst : g.st = .checking) (hready : g.ready = false)
include hg hst hready

theorem graphFetchDone_blocks (hjobs : g.jobs ≠ []) (hover : graphReadsOver s gid = true) : exec (.graphFetchDone gid) s = .next (blocksDone g s) := by
  show execGraphFetchDone gid s = _
  simp [execGraphFetchDone, hg, hst, hready, hjobs, whenDue_of hover]

theorem graphFetchDone_header_failed (hjobs : g.jobs = []) (hpart : fetchPart s gid 0 = some none) :
    exec (.graphFetchDone gid) s = .next (refuseGraph g 0x05 0xFFFF s) := by
  show execGraphFetchDone gid s = _
  simp [execGraphFetchDone, hg, hst, hready, hjobs, hpart, done]

theorem graphFetchDone_header {hl : List Byte} (hjobs : g.jobs = []) (hpart : fetchPart s gid 0 = some (some hl))
    (hread : readOp s (.graphFetch gid 1) = none) : exec (.graphFetchDone gid) s = .next (headerDone g (ofBytes hl) s) := by
  show execGraphFetchDone gid s = _
  simp [execGraphFetchDone, hg, hst, hready, hjobs, hpart, hread, done]

theorem graphFetchDone_arrays {hl jl bl : List Byte} (hjobs : g.jobs = []) (hpart : fetchPart s gid 0 = some (some hl))
    (hjl : fetchPart s gid 1 = some (some jl)) (hbl : if hNBufs (ofBytes hl) = 0 then bl = [] else fetchPart s gid 2 = some (some bl)) :
    exec (.graphFetchDone gid) s = .next (arraysDone g (ofBytes hl) jl bl s) := by
  obtain ⟨o, hread⟩ : ∃ o, readOp s (.graphFetch gid 1) = some o := by
    refine Option.ne_none_iff_exists'.1 fun hnone => ?_
    simp [fetchPart, hnone] at hjl
  have hbufs : (if hNBufs (ofBytes hl) = 0 then some (some []) else fetchPart s gid 2) = some (some bl) := by
    split at hbl
    · rw [hbl, if_pos ‹_›]
    · rw [if_neg ‹_›, hbl]
  show execGraphFetchDone gid s = _
  simp [execGraphFetchDone, hg, hst, hready, hjobs, hpart, hread, hjl, hbufs, done]

end

theorem blocksDone_refused {g : Graph} {s : State} {x : Nat × Nat} (h : checkBlocks s g g.jobs g.bufs (gatherBlocks s g).1 = some x) :
    blocksDone g s = refuseGraph g x.1 x.2 s := by
  simp only [blocksDone, h]

/-- A graph whose blocks have come and were found good. -/
def withBlocks (r : Table Nat × Table (List Byte) × List Nat) (g : Graph) : Graph := { g with blocks := r.1, params := r.2.1, badJobs := r.2.2, ready := true }

theorem blocksDone_accepted {g : Graph} {s : State} (h : checkBlocks s g g.jobs g.bufs (gatherBlocks s g).1 = none) :
    blocksDone g s = dropGraphReads g.id (modGraph g.id (withBlocks (gatherBlocks s g)) s) := by
  simp only [blocksDone, h]
  rfl

/-- With its blocks good a graph is ready, the other graphs are as they were, and no read of it is left. -/
theorem readyGraph_facts {gid : Nat} {s : State} {g : Graph} (hg : graphOf s gid = some g) (r : Table Nat × Table (List Byte) × List Nat) :
    graphOf (dropGraphReads gid (modGraph gid (withBlocks r) s)) gid = some (withBlocks r g) ∧
      (∀ i, i ≠ gid → graphOf (dropGraphReads gid (modGraph gid (withBlocks r) s)) i = graphOf s i) ∧
      ∀ o ∈ (dropGraphReads gid (modGraph gid (withBlocks r) s)).host.reads, o.use.graph ≠ some gid := by
  refine ⟨?_, fun i hi => ?_, fun o ho => ?_⟩
  · rw [graphOf_of_work dropGraphReads_only.work_eq, graphOf_modGraph_self (f := withBlocks r) (fun _ => rfl), hg]
    rfl
  · rw [graphOf_of_work dropGraphReads_only.work_eq, graphOf_modGraph_ne hi (f := withBlocks r) (fun _ => rfl)]
  · simpa using (List.mem_filter.1 ho).2

theorem headerDone_refused {g : Graph} {h c : Nat} {s : State} (hc : checkHeader s g h = some c) :
    headerDone g h s = refuseGraph { g with tag := fld h 320 32 } c 0xFFFF s := by
  simp only [headerDone, hc]

/-- With its header good a graph's jobs are read, and its buffers when it has any. -/
theorem headerDone_facts {g : Graph} {h : Nat} {s : State} (hc : checkHeader s g h = none) (hread1 : readOp s (.graphFetch g.id 1) = none)
    (hread2 : readOp s (.graphFetch g.id 2) = none) : Only [.obj, .host, .out] s (headerDone g h s) ∧
      readOp (headerDone g h s) (.graphFetch g.id 1) = some (freshRead g.tenant (.graphFetch g.id 1) (fld h 192 64) (64 * hNJobs h)) ∧
      (hNBufs h ≠ 0 →
        readOp (headerDone g h s) (.graphFetch g.id 2) = some (freshRead g.tenant (.graphFetch g.id 2) (fld h 256 64) (32 * hNBufs h))) := by
  have hne : ReadUse.graphFetch g.id 2 ≠ .graphFetch g.id 1 := by simp
  simp only [headerDone, hc]
  split
  · exact ⟨startRead_only, readOp_startRead_self hread1 .., fun hbufs => absurd ‹_› hbufs⟩
  · refine ⟨startRead_only.trans startRead_only, ?_, fun _ => readOp_startRead_self ?_ ..⟩
    · rw [readOp_startRead_ne hne, readOp_startRead_self hread1]
    · rw [readOp_startRead_ne hne.symm, hread2]

/-- Settles O29: each clause is the lemma above about its entry or about the part of the fetch that came. -/
theorem submittedEntries : Obligations.SubmittedEntries := by
  unfold Obligations.SubmittedEntries
  refine ⟨fun fn qp s tArr e h => ⟨?submit, fun c => submit_refused h, submit_draining h, fun hk hd hc => ⟨cancel_without_target h hk hd hc, ?cancel⟩,
      fun hk hd hc => ⟨releaseCarry_unknown h hk hd hc, ?release⟩⟩,
    fun fn qp s tArr => submit_unread,
    fun gid s g hg hst hready => ⟨fun hjobs hover => ⟨?blocks, ?badBlocks⟩,
      fun hjobs hread1 hread2 => ⟨graphFetchDone_header_failed hg hst hready hjobs, fun hl hpart => ⟨?badHeader, ?header⟩⟩,
      fun hjobs hl jl bl => graphFetchDone_arrays hg hst hready hjobs⟩⟩
  case submit =>
    intro hk hd hc hroom
    obtain ⟨t, hexec, honly, hothers, hself, hnext, hgraphs⟩ := submit_accepted h hk hd hc hroom
    exact ⟨t, hexec, honly, hothers, hself, hnext, _, hgraphs, rfl, rfl, rfl, rfl, rfl, rfl, rfl, rfl, rfl, rfl, rfl⟩
  case cancel =>
    intro g ht hg
    refine ⟨fun hst => ⟨cancel_in_checking h hk hd hc ht hst, cancelNoted_facts h hg⟩, fun hst hrun => ?_, fun hst hcancelled => ?_⟩
    · exact (cancel_after_checking h hk hd hc ht hst).trans (by rw [hrun]; rfl)
    · exact (cancel_after_checking h hk hd hc ht hst).trans (by rw [hcancelled]; rfl)
  case release =>
    intro c hf
    obtain ⟨hfrom, hin⟩ := mem_updFirst_of_find? (g := fun c : Carry => { c with released := true }) ((carryFind_eq ..).symm.trans hf)
    exact ⟨carriesReleased fn.val (eCi e) (fld e 64 32) s, releaseCarry_found h hk hd hc hf, length_updFirst .., hfrom, hin⟩
  case blocks =>
    intro hblocks
    obtain rfl := graphOf_id hg
    exact ⟨_, (graphFetchDone_blocks hg hst hready hjobs hover).trans (by rw [blocksDone_accepted hblocks]),
      modGraph_only.mono.trans dropGraphReads_only.mono, readyGraph_facts hg (gatherBlocks s g)⟩
  case badBlocks =>
    intro x hx
    rw [graphFetchDone_blocks hg hst hready hjobs hover, blocksDone_refused hx]
  case badHeader =>
    intro c hc
    rw [graphFetchDone_header hg hst hready hjobs hpart hread1, headerDone_refused hc]
  case header =>
    intro hc
    obtain rfl := graphOf_id hg
    obtain ⟨honly, hjobsRead, hbufsRead⟩ := headerDone_facts hc hread1 hread2
    exact ⟨_, graphFetchDone_header hg hst hready hjobs hpart hread1, honly, ⟨_, hjobsRead, rfl, rfl, rfl⟩,
      fun hbufs => ⟨_, hbufsRead hbufs, rfl, rfl, rfl⟩⟩

end Sys2Proof.Machine
end

section
/-!
PROOFS. A port mode written while the port is UP and its lane is lost: the port goes DOWN first, and the FH_PORT event that says so (R420) is also
sent on a route of KIND 1 (R661, R662), whose notification is counted. So the claim that such a write changes no counter but that of lost
events does not hold.
-/
namespace Sys2Proof.Machine

/-- Route 0 is enabled, of KIND 1, takes in events of type FH_PORT alone and sends them to host function 0 as events (Table 19-10). -/
def fhPortRoute : Nat := pack [(0, 1, 1), (1, 2, 2), (3, 1, 1), (32, 8, 0x1A), (40, 8, 0x1A)]

/-- Port 0 is an UP CPRI port, its lane is still DISABLED and no AxC is bound to it. -/
def routedUpPort : State :=
  { State.reset with obj := [(kDyRoute 0, fhPortRoute), (kPoState 0, 1), (kPoMode 0, 1)] }

theorem routedUpPort_free : portBound routedUpPort 0 = false ∧
    ∀ x ∈ portLanes routedUpPort 0 ++ modeTakes 0 0, x < 64 → laneState routedUpPort x = 0 := by decide +kernel

theorem routedUpPort_mode_ok : 0 ≤ 7 ∧ portState routedUpPort 0 ≠ 2 ∧ 0 % modeLanes 0 = 0 ∧
    ∀ x ∈ modeTakes 0 0, modeRateOk 0 (laneRate routedUpPort x) = true ∧ ∀ q, portOfLane routedUpPort x = some q → q = 0 :=
  ⟨by decide, by decide +kernel, by decide, fun _ hx => absurd hx List.not_mem_nil⟩

/-- What an object holds after a command. -/
def rdAfter (r : Res) (k : Nat) : Nat :=
  match r with
  | .next t => rd t k
  | _ => 0

/-- No notification was sent as an event before the write, one after it. -/
theorem routedUpPort_notified :
    rd routedUpPort (kDyPdpStats 11) = 0 ∧ rdAfter (exec (.portMode 0 0) routedUpPort) (kDyPdpStats 11) = 1 := by decide +kernel

/-- Refutes O43: MODE 0 written to `routedUpPort` is accepted, and PDP_STATS goes on with the notification of the port's FH_PORT event. -/
theorem not_portObjects : ¬ Obligations.PortObjects := by
  unfold Obligations.PortObjects
  intro h
  obtain ⟨hmode, -⟩ := h
  obtain ⟨-, -, -, htaken⟩ := hmode 0 0 routedUpPort
  obtain ⟨t, hexec, -, -, -, -, -, -, hkeeps⟩ := htaken routedUpPort_free routedUpPort_mode_ok
  obtain ⟨hbefore, hafter⟩ := routedUpPort_notified
  have hkept : rd t (kDyPdpStats 11) = rd routedUpPort (kDyPdpStats 11) := hkeeps _ (by decide +kernel)
  rw [hexec] at hafter
  exact absurd (hafter.symm.trans (hkept.trans hbefore)) Nat.one_ne_zero

end Sys2Proof.Machine
end

section
/-!
PROOFS. Placement of the graph at the head of a unit's queue, its commit and the exclusive token (R86, R159), votes of booked intervals (R578,
R591), role changes (R125, R126) and the template objects (R111, R131).
-/
namespace Sys2Proof.Machine

/-! ### Answers to writes -/

/-- A write in force is answered 0, the last thing sent. -/
theorem accepts_of_written {s u : State} {i : Instr} {l : List Part} {P : State → Prop} (h : exec i s = answer (accepted u))
    (honly : Only l s (send (.reply 0) u)) (hp : P (send (.reply 0) u)) : Accepts s i l P :=
  ⟨send (.reply 0) u, h, honly, by simp [send], hp⟩

theorem Keeps.send {keys : List Nat} {s t : State} (h : Keeps keys s t) (o : Output) : Keeps keys s (send o t) := h.trans (Keeps.of_obj rfl)

/-! ### The graph at the head of a queue (R86, R159) -/

section PlacementStart
variable {pu : QuadId} {s : State} {g : Graph} (hq : (puQueue s pu.val).head? = some g) (hp : (puOf s pu.val).placing = none)
  (hr : g.ready = true)
include hq hp hr

theorem placementStart_starts (hf : heldFlow s g = none) : exec (.placementStart pu) s =
    .next (modPu pu.val (fun p => { p with held := none, placing := some (g.id, planNow s g) }) s) := by
  change execPlacementStart pu s = _
  simp only [execPlacementStart, hq, hp, hr, hf]
  rfl

theorem placementStart_holds {f : Nat} (hf : heldFlow s g = some f) : exec (.placementStart pu) s = .next (holdGraph pu.val f g s) := by
  change execPlacementStart pu s = _
  simp only [execPlacementStart, hq, hp, hr, hf]
  rfl

end PlacementStart

/-- What a unit notes of the tenant and flow that hold its next graph. -/
def heldBy (why : Nat × Nat) (p : PuSt) : PuSt := { p with held := some why, placing := none }

theorem holdGraph_again {q f : Nat} {g : Graph} {s : State} (h : (puOf s q).held = some (g.tenant, f)) :
    holdGraph q f g s = modPu q (heldBy (g.tenant, f)) s := if_pos h

/-- Only the first graph that a flow holds is reported. -/
theorem holdGraph_first {q f : Nat} {g : Graph} {s : State} (h : (puOf s q).held ≠ some (g.tenant, f)) :
    holdGraph q f g s =
      if s.work.pus.any fun e => e.2.held == some (g.tenant, f) then bump (kDiDispatchStats 4) (modPu q (heldBy (g.tenant, f)) s)
      else fnEvent g.tenant (evFlowHeld f (heldGraphs s g.tenant f) (now s))
        (bump (kDiDispatchStats 4) (modPu q (heldBy (g.tenant, f)) s)) := if_neg h

/-- A graph newly held is counted; whether an event reports it or not, no other object moves but the counters of what was reported. -/
theorem holdGraph_first_facts {q f : Nat} {g : Graph} {s : State} (h : (puOf s q).held ≠ some (g.tenant, f)) :
    puOf (holdGraph q f g s) q = heldBy (g.tenant, f) (puOf s q) ∧ rd (holdGraph q f g s) kDiFlowBacklog = rd s kDiFlowBacklog ∧
      Counts 64 (kDiDispatchStats 4) 1 s (holdGraph q f g s) := by
  let counted := bump (kDiDispatchStats 4) (modPu q (heldBy (g.tenant, f)) s)
  have hpu : puOf counted q = heldBy (g.tenant, f) (puOf s q) := puOf_modPu_self ..
  have hbacklog : rd counted kDiFlowBacklog = rd s kDiFlowBacklog := keeps_bump _ _ _ (by decide)
  have hcount : Counts 64 (kDiDispatchStats 4) 1 s counted := counts_bump ..
  rw [holdGraph_first h]
  split
  · exact ⟨hpu, hbacklog, hcount⟩
  · have hkeeps := fnEvent_keeps g.tenant (evFlowHeld f (heldGraphs s g.tenant f) (now s)) counted
    have hwork : puOf (fnEvent g.tenant (evFlowHeld f (heldGraphs s g.tenant f) (now s)) counted) q = puOf counted q := by
      rw [puOf, puOf, fnEvent_only.work_eq]
    exact ⟨hwork.trans hpu, (hkeeps _ (by decide)).trans hbacklog, hcount.of_eq (hkeeps _ (by decide))⟩

/-! ### The commit (R86) -/

/-- A finished plan commits without the exclusive token: it is refused or of no graph any more, the graph is only validated or fails the
checks made again, or nothing it relies on was taken. -/
def commitsNow (s : State) (gid : Nat) (p : Plan) : Bool :=
  p.refused.isSome || ((graphOf s gid).map fun g => g.validateOnly || (recheck s g).isSome || planHolds s g p).getD true

section PlacementCommit
variable {pu : QuadId} {s : State} {gid : Nat} {p : Plan} (hp : (puOf s pu.val).placing = some (gid, p))
  (hw : (puOf s pu.val).wantsToken = false)
include hp hw

theorem placementCommit_now (h : commitsNow s gid p = true) : exec (.placementCommit pu) s = .next (commitOrHold pu.val gid p s) := by
  change execPlacementCommit pu s = _
  simp only [execPlacementCommit, hp, hw]
  exact if_pos h

theorem placementCommit_asks (h : ¬commitsNow s gid p = true) : exec (.placementCommit pu) s =
    .next (modPu pu.val (fun x => { x with wantsToken := true }) { s with work := { s.work with tokenQueue := s.work.tokenQueue ++ [pu.val] } }) := by
  change execPlacementCommit pu s = _
  simp only [execPlacementCommit, hp, hw]
  exact if_neg h

end PlacementCommit

/-- A refused plan, or one whose graph is gone, commits whatever the flows do. -/
theorem commitOrHold_refused {q gid : Nat} {p : Plan} {s : State} (h : p.refused.isSome = true ∨ graphOf s gid = none) :
    commitOrHold q gid p s = commitPlan q gid p s := by
  unfold commitOrHold
  split
  · rfl
  · next g hg =>
    have hr : p.refused.isSome = true := h.resolve_right (by simp [hg])
    rw [if_pos (by simp [hr])]

theorem commitOrHold_validateOnly {q gid : Nat} {p : Plan} {s : State} {g : Graph} (hg : graphOf s gid = some g) (hv : g.validateOnly = true) :
    commitOrHold q gid p s = commitPlan q gid p s := by
  simp only [commitOrHold, hg, hv, Bool.or_true, if_true]

theorem commitOrHold_admitted {q gid : Nat} {p : Plan} {s : State} {g : Graph} (hg : graphOf s gid = some g) (hl : flowLack s g = none) :
    commitOrHold q gid p s = commitPlan q gid p s := by
  simp only [commitOrHold, hg, hl, ite_self]

theorem commitOrHold_held {q gid f : Nat} {p : Plan} {s : State} {g : Graph} (hg : graphOf s gid = some g) (hr : p.refused = none)
    (hv : g.validateOnly = false) (hl : flowLack s g = some f) :
    commitOrHold q gid p s = modPu q (fun x => { x with wantsToken := false }) (holdGraph q f g s) := by
  simp only [commitOrHold, hg, hr, hv, hl]
  rfl

theorem exclusiveTokenGrant_places {s : State} {pu gid : Nat} {l : List Nat} {p : Plan} {g : Graph} (ht : s.work.tokenQueue = pu :: l)
    (hp : (puOf s pu).placing = some (gid, p)) (hg : graphOf s gid = some g) :
    let s1 := { s with work := { s.work with tokenQueue := l } }
    exec .exclusiveTokenGrant s = .next (commitOrHold pu gid (planNow s1 g) (placeStat 8 s1)) := by
  change execExclusiveTokenGrant s = _
  simp only [execExclusiveTokenGrant, ht, hp, hg]
  rfl

/-! ### Votes of booked intervals (R578, R591) -/

/-- The vote that a booked interval (domain, onset, end, graph, start) bears at a time: PS0 from its onset to its end, PS3 in the 2 ms before its
start. -/
def dueVote (t : Nat) (v : Nat × Nat × Nat × Nat × Nat) : Option Vote :=
  if v.2.1 ≤ t && t < v.2.2.1 then some { client := .placement, dom := v.1, level := 0, tag := voteTag v.2.2.2.1 v.2.2.2.2 }
  else if v.2.2.2.2 ≤ t + msToTc 2 && t < v.2.2.2.2 then
    some { client := .placement, dom := v.1, level := 3, tag := voteTag v.2.2.2.1 v.2.2.2.2 }
  else none

/-- The vote of an interval is placed when it is due. -/
def castDue (v : Nat × Nat × Nat × Nat × Nat) (s : State) : State :=
  match dueVote (now s) v with
  | some w => addVote w s
  | none => s

theorem dueVote_ps0 {t : Nat} {v : Nat × Nat × Nat × Nat × Nat} (hon : v.2.1 ≤ t) (hend : t < v.2.2.1) :
    dueVote t v = some { client := .placement, dom := v.1, level := 0, tag := voteTag v.2.2.2.1 v.2.2.2.2 } := if_pos (by simp [hon, hend])

theorem dueVote_ps3 {t : Nat} {v : Nat × Nat × Nat × Nat × Nat} (hon : t < v.2.1) (hsoon : v.2.2.2.2 ≤ t + msToTc 2) (hstart : t < v.2.2.2.2) :
    dueVote t v = some { client := .placement, dom := v.1, level := 3, tag := voteTag v.2.2.2.1 v.2.2.2.2 } := by
  unfold dueVote
  rw [if_neg (by simp; omega), if_pos (by simp [hsoon, hstart])]

theorem placementVoteOnset_casts (s : State) : exec .placementVoteOnset s = .next (each s.work.votes castDue s) := by
  have hstep : castDue = fun v x =>
      if v.2.1 ≤ now x && now x < v.2.2.1 then addVote { client := .placement, dom := v.1, level := 0, tag := voteTag v.2.2.2.1 v.2.2.2.2 } x
      else if v.2.2.2.2 ≤ now x + msToTc 2 && now x < v.2.2.2.2 then
        addVote { client := .placement, dom := v.1, level := 3, tag := voteTag v.2.2.2.1 v.2.2.2.2 } x
      else x := by
    funext v x
    unfold castDue dueVote
    split_ifs <;> rfl
  rw [hstep]
  rfl

/-- A vote added stands beside all that stood: what it replaces is its equal. -/
theorem mem_addVote {v w : Vote} {s : State} : w ∈ (addVote v s).pow.votes ↔ w = v ∨ w ∈ s.pow.votes := by
  have hequal : (w.client == v.client && w.dom == v.dom && w.tag == v.tag && w.level == v.level) = true ↔ w = v := by
    obtain ⟨c, d, k, n⟩ := w
    obtain ⟨c', d', k', n'⟩ := v
    simp only [Bool.and_eq_true, beq_iff_eq, Vote.mk.injEq]
    tauto
  by_cases h : w = v
  · simp [addVote, h]
  · have hdiff : (w.client == v.client && w.dom == v.dom && w.tag == v.tag && w.level == v.level) = false :=
      Bool.eq_false_iff.mpr fun hb => h (hequal.mp hb)
    simp only [addVote, List.mem_cons, List.mem_filter, h, hdiff, Bool.not_false, and_true]

theorem mem_castDue {w : Vote} {v : Nat × Nat × Nat × Nat × Nat} {s : State} :
    w ∈ (castDue v s).pow.votes ↔ w ∈ s.pow.votes ∨ dueVote (now s) v = some w := by
  unfold castDue
  cases hd : dueVote (now s) v with
  | none => simp
  | some x => simp only [mem_addVote, Option.some.injEq, eq_comm (a := x), or_comm]

theorem castDue_now (v : Nat × Nat × Nat × Nat × Nat) (s : State) : now (castDue v s) = now s := by
  unfold castDue
  split <;> rfl

theorem mem_each_castDue {w : Vote} {l : List (Nat × Nat × Nat × Nat × Nat)} {s : State} :
    w ∈ (each l castDue s).pow.votes ↔ w ∈ s.pow.votes ∨ ∃ v ∈ l, dueVote (now s) v = some w := by
  induction l generalizing s with
  | nil => simp [each]
  | cons v r ih =>
    have hstep : each (v :: r) castDue s = each r castDue (castDue v s) := rfl
    rw [hstep, ih, mem_castDue, castDue_now]
    simp only [List.mem_cons, exists_eq_or_imp, or_assoc]

/-- The votes of placement at the end of an interval: those of its domain and tag. -/
def voteEnded (s : State) (v : Vote) : Bool :=
  v.client == .placement && (s.work.votes.filter fun e => e.2.2.1 ≤ now s).any fun e => e.1 == v.dom && voteTag e.2.2.2.1 e.2.2.2.2 == v.tag

theorem bookedIntervalEnd_drops (s : State) : exec .bookedIntervalEnd s =
    .next (dropVotes (voteEnded s) { s with work := { s.work with votes := s.work.votes.filter fun v => now s < v.2.2.1 } }) := rfl

theorem mem_dropVotes {p : Vote → Bool} {s : State} {v : Vote} : v ∈ (dropVotes p s).pow.votes ↔ v ∈ s.pow.votes ∧ p v = false := by
  simp [dropVotes]

theorem voteEnded_iff {s : State} {v : Vote} : voteEnded s v = true ↔
    v.client = .placement ∧ ∃ e ∈ s.work.votes, e.2.2.1 ≤ now s ∧ e.1 = v.dom ∧ voteTag e.2.2.2.1 e.2.2.2.2 = v.tag := by
  simp [voteEnded]

theorem bookedIntervalEnd_facts (s : State) : Gives s .bookedIntervalEnd [.pow, .work] fun t =>
    (∀ v, v ∈ t.work.votes ↔ v ∈ s.work.votes ∧ now s < v.2.2.1) ∧
    (∀ v ∈ s.pow.votes, v.client ≠ .placement → v ∈ t.pow.votes) ∧
    ∀ e ∈ s.work.votes, e.2.2.1 ≤ now s → ∀ v ∈ t.pow.votes, ¬(v.client = .placement ∧ v.dom = e.1 ∧ v.tag = voteTag e.2.2.2.1 e.2.2.2.2) := by
  refine execBookedIntervalEnd_only.gives (bookedIntervalEnd_drops s) ⟨fun v => ?_, fun v hv hc => ?_, fun e he hend v hv hended => ?_⟩
  · simp [dropVotes]
  · exact mem_dropVotes.mpr ⟨hv, Bool.eq_false_iff.mpr fun hb => hc (voteEnded_iff.mp hb).1⟩
  · obtain ⟨hclient, hdom, htag⟩ := hended
    obtain ⟨-, hstays⟩ := mem_dropVotes.mp hv
    have hgoes : voteEnded s v = true := voteEnded_iff.mpr ⟨hclient, e, he, hend, hdom.symm, htag.symm⟩
    exact absurd hgoes (Bool.eq_false_iff.mp hstays)

/-! ### Role changes (R125, R126) -/

section RoleChange
variable {u : Fin 228} {s : State} {w : Nat} (hn : (unitSt s u.val).nextRole = some w)
include hn

theorem roleChange_due (h : roleDue s u.val = true) : exec (.roleChange u) s = .next (takeRole u.val w s) := by
  change execRoleChange u s = _
  simp only [execRoleChange, hn]
  exact whenDue_of h _ s

theorem roleChange_not_due (h : roleDue s u.val = false) : Idles s (.roleChange u) := by
  change execRoleChange u s = _
  simp only [execRoleChange, hn]
  exact whenDue_of_not (by simp [h]) _ s

end RoleChange

/-- The unit's record once its role is in force: nothing waits, and the change is the last one. -/
def roleTaken (t : Nat) (m : UnitSt) : UnitSt := { m with nextRole := none, lastChange := some t }

/-- A role word written, and its epoch after it, at two keys. -/
theorem rd_role_epoch {kr ke w : Nat} (hne : kr ≠ ke) (s : State) :
    rd (bumpBy 16 ke 1 (wr kr w s)) kr = w ∧ rd (bumpBy 16 ke 1 (wr kr w s)) ke = (rd s ke + 1) % 65536 := by
  constructor
  · rw [rd_bumpBy_ne hne, rd_wr_self]
  · rw [rd_bumpBy_self, rd_wr_ne hne.symm]; rfl

theorem kPlSageRole_ne_epoch (u : Nat) : kPlSageRole u ≠ kPlSageEpoch u := by
  unfold kPlSageRole kPlSageEpoch okey
  omega

theorem kPlEngineRole_ne_epoch (u : Nat) : kPlEngineRole u ≠ kPlEngineEpoch u := by
  unfold kPlEngineRole kPlEngineEpoch okey
  omega

/-- A role word that differs takes effect on a core or an engine: the word, the epoch that follows, and the unit's record. -/
theorem setRole_facts {u w : Nat} {s : State} (hu : u < 228) (hw : roleWord s u ≠ w) :
    roleWord (setRole u w s) u = w ∧ epochOf (setRole u w s) u = (epochOf s u + 1) % 65536 ∧
      unitSt (setRole u w s) u = roleTaken (now s) (unitSt s u) := by
  have hrecord : unitSt (modUnit u (fun m => { m with lastChange := some (now s) }) (modUnit u (fun m => { m with nextRole := none }) s)) u =
      roleTaken (now s) (unitSt s u) := by
    rw [unitSt_modUnit_self, unitSt_modUnit_self]
    rfl
  by_cases hcore : u < 108
  · have hc : isCore u = true := decide_eq_true hcore
    simp only [roleWord, epochOf, hc, if_true] at hw ⊢
    simp only [setRole, roleWord, hc, if_true, if_neg hw]
    obtain ⟨hword, hepoch⟩ := rd_role_epoch (w := w) (kPlSageRole_ne_epoch u)
      (modUnit u (fun m => { m with lastChange := some (now s) }) (modUnit u (fun m => { m with nextRole := none }) s))
    exact ⟨hword, hepoch, hrecord⟩
  · have hc : isCore u = false := decide_eq_false hcore
    have he : isEngine u = true := by simp [isEngine]; omega
    simp only [roleWord, epochOf, hc, he, if_true, Bool.false_eq_true, if_false] at hw ⊢
    simp only [setRole, roleWord, hc, he, if_true, Bool.false_eq_true, if_false, if_neg hw]
    obtain ⟨hword, hepoch⟩ := rd_role_epoch (w := w) (kPlEngineRole_ne_epoch (u - 108))
      (modUnit u (fun m => { m with lastChange := some (now s) }) (modUnit u (fun m => { m with nextRole := none }) s))
    exact ⟨hword, hepoch, hrecord⟩

/-! ### Templates (R111, R131) -/

theorem templatesEnable_off (s : State) : Accepts s (.templatesEnable 0) [.obj, .work, .out] fun t => rd t kPlTemplatesEnable = 0 ∧
    Keeps [kPlTemplatesEnable] s t ∧ t.work = { s.work with templates := [] } := by
  have hgone : (s.work.templates.filter fun _ => !true) = [] := by simp
  have hnone : dropTemplates (fun _ => true) s = { s with work := { s.work with templates := [] } } := by rw [dropTemplates, hgone]
  refine accepts_of_written (u := wr kPlTemplatesEnable 0 (dropTemplates (fun _ => true) s)) rfl
    (dropTemplates_only.mono.trans (wr_only.mono.trans send_only.mono)) ⟨rd_wr_self .., ?_, ?_⟩
  · exact (dropTemplates_only.keeps.trans (keeps_wr _ _ _)).send _
  · rw [hnone]; rfl

theorem templatesEnable_on (s : State) : Accepts s (.templatesEnable 1) [.obj, .out] fun t => rd t kPlTemplatesEnable = 1 ∧
    Keeps [kPlTemplatesEnable] s t :=
  accepts_of_written (u := wr kPlTemplatesEnable 1 s) rfl (wr_only.mono.trans send_only.mono) ⟨rd_wr_self .., (keeps_wr _ _ _).send _⟩

theorem templatesEnable_range {v : Byte} (s : State) (h : 1 < v.toNat) : Refuses s (.templatesEnable v) .range := by
  have hw : wTemplatesEnable v.toNat s = refusedW .range s := if_pos h
  change answer (wTemplatesEnable v.toNat s) = _
  rw [hw]
  rfl

section TemplateSlots
variable {v : Byte} {s : State}

theorem templateSlots_enabled (h : rdB s kPlTemplatesEnable = true) : Refuses s (.templateSlots v) .state := by
  have hw : wTemplateSlots v.toNat s = refusedW .state s := if_pos h
  change answer (wTemplateSlots v.toNat s) = _
  rw [hw]
  rfl

theorem templateSlots_range (h : rdB s kPlTemplatesEnable = false) (hv : v = 0 ∨ 4 < v.toNat) : Refuses s (.templateSlots v) .range := by
  have hbad : v.toNat = 0 ∨ 4 < v.toNat := hv.imp_left fun h0 => by rw [h0]; rfl
  have hw : wTemplateSlots v.toNat s = refusedW .range s := by rw [wTemplateSlots, if_neg (by simp [h]), if_pos hbad]
  change answer (wTemplateSlots v.toNat s) = _
  rw [hw]
  rfl

theorem templateSlots_written (h : rdB s kPlTemplatesEnable = false) (h0 : v ≠ 0) (h4 : v.toNat ≤ 4) :
    Accepts s (.templateSlots v) [.obj, .out] fun t => rd t kPlTemplateSlots = v.toNat ∧ Keeps [kPlTemplateSlots] s t := by
  have hgood : ¬(v.toNat = 0 ∨ 4 < v.toNat) := by
    rintro (hz | hl)
    · exact h0 (BitVec.eq_of_toNat_eq hz)
    · omega
  have hw : wTemplateSlots v.toNat s = accepted (wr kPlTemplateSlots v.toNat s) := by
    rw [wTemplateSlots, if_neg (by simp [h]), if_neg hgood]
  refine accepts_of_written (u := wr kPlTemplateSlots v.toNat s) ?_ (wr_only.mono.trans send_only.mono) ⟨rd_wr_self .., (keeps_wr _ _ _).send _⟩
  rw [← hw]
  rfl

end TemplateSlots

/-- Settles O30: each conjunct is the lemmas above about its command. -/
theorem placementAndRoles : Obligations.PlacementAndRoles := by
  unfold Obligations.PlacementAndRoles
  refine ⟨fun pu s g hq hp hr => ⟨fun hf => ?starts, fun f hf => ⟨fun hheld => ?heldAgain, fun hheld => ?heldFirst⟩⟩,
    fun pu s gid p hp hw => ⟨fun h => ?refused, fun g hr hg => ⟨fun hv => ?validated, fun hv h => ⟨fun hl => ?commits, fun f hl => ?held⟩,
      fun hv hok hholds => ?asks⟩⟩,
    fun s pu l gid p g ht hp hg => exclusiveTokenGrant_places ht hp hg, fun s => ?onset, bookedIntervalEnd_facts,
    fun u s w hn => ⟨fun hdue => ⟨roleChange_due hn hdue, setRole_facts u.isLt⟩, roleChange_not_due hn⟩,
    fun v s => ⟨?off, ?on, templatesEnable_range s⟩,
    fun v s => ⟨templateSlots_enabled, templateSlots_range, templateSlots_written⟩⟩
  case starts => exact ⟨_, placementStart_starts hq hp hr hf, modPu_only, puOf_modPu_self .., rfl⟩
  case heldAgain =>
    have hsame : heldBy (g.tenant, f) (puOf s pu.val) = puOf s pu.val := by rw [heldBy, ← hheld, ← hp]
    refine ⟨_, placementStart_holds hq hp hr hf, ?_⟩
    rw [holdGraph_again hheld]
    exact ⟨modPu_only, (puOf_modPu_self ..).trans hsame, rfl⟩
  case heldFirst =>
    obtain ⟨hpu, hbacklog, hcount⟩ := holdGraph_first_facts hheld
    have hplacing : heldBy (g.tenant, f) (puOf s pu.val) = { puOf s pu.val with held := some (g.tenant, f) } := by rw [heldBy, ← hp]
    exact ⟨_, placementStart_holds hq hp hr hf, holdGraph_only, hpu.trans hplacing, hbacklog.symm, hcount⟩
  case refused =>
    have hnow : commitsNow s gid p = true := by rcases h with h | h <;> simp [commitsNow, h]
    rw [placementCommit_now hp hw hnow, commitOrHold_refused h]
  case validated => rw [placementCommit_now hp hw (by simp [commitsNow, hg, hv]), commitOrHold_validateOnly hg hv]
  case commits =>
    have hnow : commitsNow s gid p = true := by rcases h with h | h <;> simp [commitsNow, hg, h]
    rw [placementCommit_now hp hw hnow, commitOrHold_admitted hg hl]
  case held =>
    have hnow : commitsNow s gid p = true := by rcases h with h | h <;> simp [commitsNow, hg, h]
    rw [placementCommit_now hp hw hnow, commitOrHold_held hg hr hv hl]
  case asks =>
    have hnot : ¬commitsNow s gid p = true := by simp [commitsNow, hr, hg, hv, hok, hholds]
    exact ⟨_, placementCommit_asks hp hw hnot, (Only.upd (Only.refl s)).trans modPu_only, puOf_modPu_self .., rfl, rfl⟩
  case onset =>
    refine execPlacementVoteOnset_only.gives (placementVoteOnset_casts s)
      ⟨fun v hv => ?_, fun v hv hon hend => ?_, fun v hv hon hsoon hstart => ?_⟩
    · exact mem_each_castDue.mpr (.inl hv)
    · exact mem_each_castDue.mpr (.inr ⟨v, hv, dueVote_ps0 hon hend⟩)
    · exact mem_each_castDue.mpr (.inr ⟨v, hv, dueVote_ps3 hon hsoon hstart⟩)
  case off =>
    rintro rfl
    exact templatesEnable_off s
  case on =>
    rintro rfl
    exact templatesEnable_on s

end Sys2Proof.Machine
end

section
/-!
PROOFS. Jobs by graph and number, and what the operations around a segment leave alone: what the units run, and the chunks of every job.
-/
namespace Sys2Proof.Machine

/-! ### Jobs by number -/

theorem jobRt_num {s : State} {gid num : Nat} {r : JobRt} (h : jobRt s gid num = some r) : r.p.num = num := by
  obtain ⟨g, -, hr⟩ := Option.bind_eq_some_iff.mp h
  simpa using List.find?_some hr

theorem graphOf_of_jobRt {s : State} {gid num : Nat} {r : JobRt} (h : jobRt s gid num = some r) : ∃ g, graphOf s gid = some g := by
  obtain ⟨g, hg, -⟩ := Option.bind_eq_some_iff.mp h
  exact ⟨g, hg⟩

theorem jobRt_of_graphs {s t : State} (h : t.work.graphs = s.work.graphs) (gid num : Nat) : jobRt t gid num = jobRt s gid num := by
  rw [jobRt, jobRt, graphOf, graphOf, h]

/-- A graph with job `num` changed. -/
def withRt (num : Nat) (f : JobRt → JobRt) (g : Graph) : Graph := { g with rts := updFirst (fun r => r.p.num == num) f g.rts }

theorem graphOf_modRt_self (gid num : Nat) (f : JobRt → JobRt) (s : State) :
    graphOf (modRt gid num f s) gid = (graphOf s gid).map (withRt num f) := graphOf_modGraph_self (f := withRt num f) (fun _ => rfl) s

theorem graphOf_modRt_ne {gid i : Nat} (h : i ≠ gid) (num : Nat) (f : JobRt → JobRt) (s : State) :
    graphOf (modRt gid num f s) i = graphOf s i := graphOf_modGraph_ne h (f := withRt num f) (fun _ => rfl) s

section ModRt
variable {gid num : Nat} {f : JobRt → JobRt} (hf : ∀ r, (f r).p.num = r.p.num)
include hf

theorem jobRt_modRt_self (s : State) : jobRt (modRt gid num f s) gid num = (jobRt s gid num).map f := by
  rw [jobRt, graphOf_modRt_self, jobRt]
  cases graphOf s gid with
  | none => rfl
  | some g => exact find?_updFirst (fun r => by rw [hf]) g.rts

theorem jobRt_modRt_ne {i n : Nat} (h : ¬(i = gid ∧ n = num)) (s : State) : jobRt (modRt gid num f s) i n = jobRt s i n := by
  by_cases hi : i = gid
  · subst hi
    rw [jobRt, graphOf_modRt_self, jobRt]
    cases graphOf s i with
    | none => rfl
    | some g =>
      refine find?_updFirst_of_disjoint (fun r hr => ?_) g.rts
      have hn : (r.p.num == n) = false := beq_false_of_ne fun hn => h ⟨rfl, hn ▸ eq_of_beq hr⟩
      exact ⟨hn, (hf r).symm ▸ hn⟩
  · rw [jobRt, graphOf_modRt_ne hi, jobRt]

end ModRt

theorem jobRt_modGraph {gid : Nat} {f : Graph → Graph} (hid : ∀ g, (f g).id = g.id) (hrts : ∀ g, (f g).rts = g.rts) (s : State) (i n : Nat) :
    jobRt (modGraph gid f s) i n = jobRt s i n := by
  by_cases hi : i = gid
  · subst hi
    rw [jobRt, graphOf_modGraph_self hid, jobRt]
    cases graphOf s i with
    | none => rfl
    | some g => exact congrArg (Pl.rtOf · n) (hrts g)
  · rw [jobRt, graphOf_modGraph_ne hi hid, jobRt]

/-! ### What the units run, and the chunks of every job -/

/-- What relates a state to the one after each of a run of operations relates it to the one after the run. -/
theorem each_related {α : Type} {R : State → State → Prop} (hrefl : ∀ s, R s s) (htrans : ∀ {s t u}, R s t → R t u → R s u)
    {f : α → State → State} (hf : ∀ a s, R s (f a s)) (l : List α) (s : State) : R s (each l f s) := by
  induction l generalizing s with
  | nil => exact hrefl s
  | cons a r ih => exact htrans (hf a s) (ih (f a s))

/-- The units run what they ran, and every job has as many chunks behind it as it had. -/
structure RunsKept (s t : State) : Prop where
  units : t.work.units = s.work.units
  chunks : ∀ gid num, (jobRt t gid num).map (·.chunks) = (jobRt s gid num).map (·.chunks)

theorem RunsKept.refl (s : State) : RunsKept s s := ⟨rfl, fun _ _ => rfl⟩

theorem RunsKept.trans {s t u : State} (h : RunsKept s t) (k : RunsKept t u) : RunsKept s u :=
  ⟨k.units.trans h.units, fun i n => (k.chunks i n).trans (h.chunks i n)⟩

theorem RunsKept.of_work {s t : State} (hu : t.work.units = s.work.units) (hg : t.work.graphs = s.work.graphs) : RunsKept s t :=
  ⟨hu, fun i n => by rw [jobRt_of_graphs hg]⟩

/-- An operation that does not touch the work. -/
theorem Only.runsKept {l : List Part} {s t : State} (h : Only l s t) (hl : Part.work ∉ l := by decide) : RunsKept s t :=
  RunsKept.of_work (by rw [h.work_eq hl]) (by rw [h.work_eq hl])

theorem RunsKept.ite {s t u : State} {c : Prop} [Decidable c] (h : RunsKept s t) (k : RunsKept s u) : RunsKept s (if c then t else u) := by
  split
  · exact h
  · exact k

theorem RunsKept.unitSt {s t : State} (h : RunsKept s t) (u : Nat) : unitSt t u = Machine.unitSt s u := by
  rw [Machine.unitSt, Machine.unitSt, h.units]

theorem runsKept_modRt {gid num : Nat} {f : JobRt → JobRt} (s : State) (hf : ∀ r, (f r).p.num = r.p.num := by intro _; rfl)
    (hc : ∀ r, (f r).chunks = r.chunks := by intro _; rfl) : RunsKept s (modRt gid num f s) := by
  refine ⟨rfl, fun i n => ?_⟩
  by_cases h : i = gid ∧ n = num
  · obtain ⟨rfl, rfl⟩ := h
    rw [jobRt_modRt_self hf]
    cases jobRt s i n with
    | none => rfl
    | some r => exact congrArg some (hc r)
  · rw [jobRt_modRt_ne hf h]

theorem runsKept_modGraph {gid : Nat} {f : Graph → Graph} (s : State) (hid : ∀ g, (f g).id = g.id := by intro _; rfl)
    (hrts : ∀ g, (f g).rts = g.rts := by intro _; rfl) : RunsKept s (modGraph gid f s) := ⟨rfl, fun i n => by rw [jobRt_modGraph hid hrts]⟩

theorem addExcess_runsKept (t k n : Nat) (s : State) : RunsKept s (addExcess t k n s) := by
  unfold addExcess
  split
  · exact RunsKept.refl s
  · exact RunsKept.of_work rfl rfl

theorem meterTime_runsKept (g : Graph) (r : JobRt) (k ns : Nat) (dedicated : Bool) (s : State) : RunsKept s (meterTime g r k ns dedicated s) := by
  have hmeter : RunsKept s (if dedicated then s else meter g.tenant k ns s) := RunsKept.ite (RunsKept.refl s) (RunsKept.of_work rfl rfl)
  have hused := hmeter.trans (runsKept_modRt (gid := g.id) (num := r.p.num) (f := fun r => { r with used := r.used + ns }) _)
  have hover (n : Nat) := RunsKept.ite (c := n = 0) hused (hused.trans (bumpBy_only (w := 64) (k := kTeOverrun g.tenant) (n := n)).runsKept)
  exact RunsKept.ite (hover _) ((hover _).trans (addExcess_runsKept _ _ _ _))

/-- A segment that ends is metered, and nothing else of the jobs and units changes. -/
theorem segmentEnd_runsKept (u : Nat) (run : Run) (s : State) : RunsKept s (segmentEnd u run s) := by
  unfold segmentEnd
  split
  · exact (meterTime_runsKept _ _ _ _ _ s).trans crossWait_only.runsKept
  · exact RunsKept.refl s

theorem ackCancels_runsKept (gid : Nat) (s : State) : RunsKept s (ackCancels gid s) := by
  unfold ackCancels
  split
  · exact RunsKept.refl s
  · split
    · exact (runsKept_modGraph s).trans ackRest_only.runsKept
    · exact RunsKept.refl s

theorem noteFinish_runsKept (u : Nat) (run : Run) (s : State) : RunsKept s (noteFinish u run s) :=
  runsKept_modRt s

theorem countHeld_runsKept (gid num : Nat) (s : State) : RunsKept s (countHeld gid num s) := by
  unfold countHeld
  split
  · split
    · exact RunsKept.refl s
    · exact (runsKept_modRt s).trans bump_only.runsKept
  · exact RunsKept.refl s

theorem returnEntry_runsKept (e : ReadyE) (s : State) : RunsKept s (returnEntry e s) := by
  unfold returnEntry
  split
  · exact RunsKept.of_work rfl rfl
  · refine RunsKept.trans ?_ (countHeld_runsKept _ _ _)
    exact RunsKept.of_work rfl rfl

theorem unitFree_cur (u : Nat) (s : State) : (unitSt (unitFree u s) u).cur = none := by
  rw [unitFree, unitSt_modUnit_self]

/-- A share that ends frees its unit, and the chunks of the jobs stay. -/
theorem shareEnd_facts {u : Nat} {s : State} {run : Run} (h : (unitSt s u).cur = some run) (code : Nat) :
    (unitSt (shareEnd u code s) u).cur = none ∧
      ∀ gid num, (jobRt (shareEnd u code s) gid num).map (·.chunks) = (jobRt s gid num).map (·.chunks) := by
  let freed := modUnit u (fun m => { m with cur := none, records := m.records.filter (· != (run.gid, run.num, run.share)) }) s
  have hkept : RunsKept freed (shareEnd u code s) := by
    simp only [shareEnd, h]
    refine (segmentEnd_runsKept u run freed).trans (RunsKept.trans ?_ (ackCancels_runsKept _ _))
    exact RunsKept.of_work rfl rfl
  have hfree : (unitSt freed u).cur = none := by rw [unitSt_modUnit_self]
  exact ⟨(congrArg UnitSt.cur (hkept.unitSt u)).trans hfree, hkept.chunks⟩

end Sys2Proof.Machine
end

section
/-!
PROOFS. The dispatch of the entry that a unit takes next (R127, R136, R145): which entry it is, what its first dispatch prepares, and the job that
then runs.
-/
namespace Sys2Proof.Machine

/-! ### The entry a unit takes next -/

/-- The better of the entry found so far and the next one (R145). -/
def betterEntry (m : Option ReadyE) (e : ReadyE) : Option ReadyE :=
  match m with
  | none => some e
  | some x => if entryBefore e x then some e else some x

theorem betterEntry_eq {m : Option ReadyE} {a e : ReadyE} (h : betterEntry m a = some e) : a = e ∨ m = some e := by
  cases m with
  | none => exact .inl (Option.some.inj h)
  | some x =>
    unfold betterEntry at h
    dsimp only at h
    split at h
    · exact .inl (Option.some.inj h)
    · exact .inr h

theorem mem_of_foldl_betterEntry {l : List ReadyE} {m : Option ReadyE} {e : ReadyE} (h : l.foldl betterEntry m = some e) :
    e ∈ l ∨ m = some e := by
  induction l generalizing m with
  | nil => exact .inr h
  | cons a r ih =>
    obtain hin | hfound := ih h
    · exact .inl (List.mem_cons_of_mem a hin)
    · exact (betterEntry_eq hfound).imp_left fun ha => by rw [ha]; exact List.mem_cons_self

theorem bestEntry_unit {s : State} {u : Nat} {e : ReadyE} (h : bestEntry s u = some e) : e.unit = u := by
  have hfold : (s.work.ready.filter fun e => e.unit == u && recordOk s e &&
      (!needsLoad s u || (unitSt s u).ctx.any fun r => r.gid == e.gid && r.num == e.num)).foldl betterEntry none = some e := h
  obtain hin | hnone := mem_of_foldl_betterEntry hfold
  · have hfits := List.of_mem_filter hin
    simp only [Bool.and_eq_true, beq_iff_eq] at hfits
    exact hfits.1.1
  · cases hnone

/-- The ready lists without an entry. -/
def entryTaken (e : ReadyE) (s : State) : State := { s with work := { s.work with ready := s.work.ready.filter (· != e) } }

theorem mem_entryTaken {e x : ReadyE} {s : State} : x ∈ (entryTaken e s).work.ready ↔ x ∈ s.work.ready ∧ x ≠ e := by
  simp [entryTaken]

section Dispatch
variable {u : Fin 240} {s : State} {e : ReadyE} {g : Graph} {r : JobRt} (hcur : (unitSt s u.val).cur = none)
  (hfence : (unitSt s u.val).fenced = false) (hrole : (unitSt s u.val).nextRole = none ∨ roleDue s u.val = false)
  (hbest : bestEntry s u.val = some e) (hg : graphOf s e.gid = some g) (hr : jobRt s e.gid e.num = some r)
include hcur hfence hrole hbest hg hr

/-- The entry leaves its list, and its job starts, or ends ROLE_STALE where a unit of it is stale (R127). -/
theorem jobDispatch_takes : exec (.jobDispatch u) s = .next ((staleUnit s r e.share).elim (startRun g r e (entryTaken e s))
    fun x => concludeJob e.gid e.num 3 (countStale x (entryTaken e s))) := by
  have hidle : ((unitSt s u.val).cur.isSome || (unitSt s u.val).fenced || ((unitSt s u.val).nextRole.isSome && roleDue s u.val)) = false := by
    rcases hrole with h | h <;> simp [hcur, hfence, h]
  have hg' : graphOf (entryTaken e s) e.gid = some g := hg
  have hr' : jobRt (entryTaken e s) e.gid e.num = some r := hr
  change execJobDispatch u s = _
  unfold entryTaken at hg' hr' ⊢
  simp only [execJobDispatch, hidle, hbest, hg', hr']
  cases staleUnit s r e.share <;> rfl

end Dispatch

/-! ### What the first dispatch of a job prepares (R54, R104, R198) -/

/-- The units, the chunks of the jobs and the ready lists are as they were. -/
structure ListsKept (s t : State) : Prop extends RunsKept s t where
  ready : t.work.ready = s.work.ready

theorem ListsKept.refl (s : State) : ListsKept s s := ⟨RunsKept.refl s, rfl⟩

theorem ListsKept.trans {s t u : State} (h : ListsKept s t) (k : ListsKept t u) : ListsKept s u :=
  ⟨h.toRunsKept.trans k.toRunsKept, k.ready.trans h.ready⟩

theorem ListsKept.each {α : Type} {f : α → State → State} (hf : ∀ a s, ListsKept s (f a s)) (l : List α) (s : State) :
    ListsKept s (each l f s) := each_related ListsKept.refl ListsKept.trans hf l s

theorem takeSpace_listsKept (t : Nat) (zero : Bool) (a n : Nat) (s : State) : ListsKept s (takeSpace t zero a n s) := by
  unfold takeSpace draw
  dsimp only
  split <;> exact ⟨RunsKept.of_work rfl rfl, rfl⟩

theorem clearBuf_listsKept (gid b : Nat) (s : State) : ListsKept s (clearBuf gid b s) := by
  unfold clearBuf
  split
  · exact ListsKept.refl s
  · dsimp only
    split
    · exact ListsKept.refl s
    · split
      · exact ListsKept.refl s
      · exact ListsKept.trans ⟨runsKept_modGraph s, rfl⟩ (takeSpace_listsKept _ _ _ _ _)

theorem clearFor_listsKept (g : Graph) (r : JobRt) (s : State) : ListsKept s (clearFor g r s) := by
  unfold clearFor
  split
  · dsimp only
    split
    · exact (clearBuf_listsKept _ _ s).trans (takeSpace_listsKept _ _ _ _ _)
    · exact clearBuf_listsKept _ _ s
  · exact (ListsKept.each (fun _ _ => clearBuf_listsKept _ _ _) _ s).trans (ListsKept.each (fun _ _ => takeSpace_listsKept _ _ _ _ _) _ _)

/-- The state a job starts in: at its first dispatch its buffers are made fit and its host reads begin. -/
def madeFit (g : Graph) (r : JobRt) (s : State) : State := if r.ran then s else startJobReads g r (clearFor g r s)

theorem madeFit_listsKept (g : Graph) (r : JobRt) (s : State) : ListsKept s (madeFit g r s) := by
  have hreads (t : State) : ListsKept t (startJobReads g r t) := ⟨startJobReads_only.runsKept, by rw [startJobReads_only.work_eq]⟩
  unfold madeFit
  split
  · exact ListsKept.refl s
  · exact (clearFor_listsKept g r s).trans (hreads _)

/-! ### The job that runs -/

/-- What a unit runs after a dispatch: the context kept of a preempted job, or the job's next chunk or segment. -/
def dispatchedRun (s : State) (g : Graph) (r : JobRt) (e : ReadyE) : Run :=
  match resumed s e.unit e with
  | some x => { x with since := now s, level := e.level }
  | none => runOf s g r e

theorem dispatchedRun_facts {s : State} {g : Graph} {r : JobRt} {e : ReadyE} (hg : graphOf s e.gid = some g) (hr : jobRt s e.gid e.num = some r) :
    (dispatchedRun s g r e).gid = g.id ∧ (dispatchedRun s g r e).num = r.p.num ∧ (dispatchedRun s g r e).since = now s ∧
      (dispatchedRun s g r e).level = e.level := by
  unfold dispatchedRun
  split
  · next x hx =>
    have hsame := List.find?_some hx
    simp only [Bool.and_eq_true, beq_iff_eq] at hsame
    obtain ⟨hgid, hnum⟩ := hsame
    exact ⟨hgid.trans (graphOf_id hg).symm, hnum.trans (jobRt_num hr).symm, rfl, rfl⟩
  · exact ⟨rfl, rfl, rfl, rfl⟩

/-- The unit's record with what it took: an engine's context record, and a core's context left (R149, R322). -/
def unitTakes (s : State) (g : Graph) (r : JobRt) (e : ReadyE) (m : UnitSt) : UnitSt :=
  let record := (e.gid, e.num, e.share)
  { m with
    cur := some (dispatchedRun s g r e)
    records := if keepsRecord s e.gid e.num && !m.records.contains record then m.records ++ [record] else m.records
    ctx := m.ctx.filter fun x => !(x.gid == e.gid && x.num == e.num) }

def jobRunning (r : JobRt) : JobRt := { r with st := .running, ran := true }
def graphRunning (g : Graph) : Graph := { g with st := .running }

/-- The job and its graph are RUNNING. -/
def markedRunning (g : Graph) (r : JobRt) (s : State) : State := modGraph g.id graphRunning (modRt g.id r.p.num jobRunning (madeFit g r s))

/-- The two counters of a dispatch are no part of the work. -/
theorem startRun_work (g : Graph) (r : JobRt) (e : ReadyE) (s : State) :
    (startRun g r e s).work = (modUnit e.unit (unitTakes s g r e) (markedRunning g r s)).work := by
  have hcounts (b : Bool) (x : State) : (bump (kDiDispatchStats 0) (if b then bump (kDiDispatchStats 5) x else x)).work = x.work := by
    cases b <;> rfl
  exact hcounts _ _

theorem jobRt_markedRunning {s : State} {gid num : Nat} {g : Graph} {r : JobRt} (hg : graphOf s gid = some g) (hr : jobRt s gid num = some r) :
    (jobRt (markedRunning g r s) gid num).map (·.st) = some .running := by
  have hfound : (jobRt (madeFit g r s) gid num).isSome = true := by
    simpa [hr] using congrArg Option.isSome ((madeFit_listsKept g r s).chunks gid num)
  obtain ⟨r', hr'⟩ := Option.isSome_iff_exists.mp hfound
  rw [markedRunning, graphOf_id hg, jobRt_num hr, jobRt_modGraph (f := graphRunning) (fun _ => rfl) (fun _ => rfl),
    jobRt_modRt_self (f := jobRunning) (fun _ => rfl), hr']
  rfl

theorem startRun_facts {s : State} {g : Graph} {r : JobRt} {e : ReadyE} (hg : graphOf s e.gid = some g) (hr : jobRt s e.gid e.num = some r) :
    (unitSt (startRun g r e s) e.unit).cur = some (dispatchedRun s g r e) ∧ (startRun g r e s).work.ready = s.work.ready ∧
      (jobRt (startRun g r e s) e.gid e.num).map (·.st) = some .running := by
  have hwork := startRun_work g r e s
  refine ⟨?_, ?_, ?_⟩
  · rw [unitSt, hwork]
    exact congrArg UnitSt.cur (unitSt_modUnit_self ..)
  · rw [hwork]
    exact (madeFit_listsKept g r s).ready
  · rw [jobRt_of_graphs (congrArg WorkSt.graphs hwork)]
    exact jobRt_markedRunning hg hr

end Sys2Proof.Machine
end

section
/-!
PROOFS. The end of an engine's chunk (R150, R162), a copy between two ends in device memory (R62, R104, R151), and the cancel of what a unit runs
(R127, R379).
-/
namespace Sys2Proof.Machine

/-! ### The end of a chunk -/

/-- A job with the chunk counted. -/
def chunkCounted (run : Run) (r : JobRt) : JobRt :=
  let made := r.progress.set run.share (r.progress.getD run.share 0 + run.n)
  { r with chunks := r.chunks + 1, progress := made, trains := r.trains.map (sendTrain (sumBy made id) (sumBy (r.p.shares.map (·.n)) id)) }

theorem jobRt_chunkDone {run : Run} {s : State} {r : JobRt} (h : jobRt s run.gid run.num = some r) :
    jobRt (chunkDone run s) run.gid run.num = some (chunkCounted run r) := by
  have hcounted := jobRt_modRt_self (gid := run.gid) (num := run.num) (f := chunkCounted run) (fun _ => rfl) s
  rw [h] at hcounted
  exact hcounted

/-- The unit is free, and the place and time of the chunk's end are noted. -/
def chunkLeft (u : Nat) (run : Run) (s : State) : State := noteFinish u run (unitFree u (segmentEnd u run s))

theorem chunkLeft_facts (u : Nat) (run : Run) (s : State) : (unitSt (chunkLeft u run s) u).cur = none ∧
    ∀ gid num, (jobRt (chunkLeft u run s) gid num).map (·.chunks) = (jobRt s gid num).map (·.chunks) := by
  have hnote := noteFinish_runsKept u run (unitFree u (segmentEnd u run s))
  refine ⟨(congrArg UnitSt.cur (hnote.unitSt u)).trans (unitFree_cur u _), fun gid num => (hnote.chunks gid num).trans ?_⟩
  have hfreed : jobRt (unitFree u (segmentEnd u run s)) gid num = jobRt (segmentEnd u run s) gid num := jobRt_of_graphs rfl gid num
  rw [hfreed, (segmentEnd_runsKept u run s).chunks]

section ChunkEnd
variable {e : EngId} {s : State} {run : Run} (hcur : (unitSt s (engUnit e.val)).cur = some run) (hworked : run.worked = true)
  (hwrites : jobWritesOver s run.gid run.num = true)
include hcur hworked hwrites

theorem chunkEnd_dropped (hid : idCurrent s run.ci run.id = false) : exec (.chunkEnd e) s = .next (unitFree (engUnit e.val)
    (wake (dropLate run.tenant run.ci run.id (accountId run.ci run.id (segmentEnd (engUnit e.val) run s))))) := by
  change execChunkEnd e s = _
  simp only [execChunkEnd, hcur, hworked, hwrites, hid]
  rfl

variable {g : Graph} {r : JobRt} (hid : idCurrent s run.ci run.id = true) (hcancel : run.cancel = false)
  (hg : graphOf (chunkDone run s) run.gid = some g) (hr : jobRt (chunkDone run s) run.gid run.num = some r)
include hid hcancel hg hr

theorem chunkEnd_share_ends (hall : (r.p.shares.getD run.share { unit := engUnit e.val }).n ≤ r.progress.getD run.share 0) :
    exec (.chunkEnd e) s = .next (shareEnd (engUnit e.val) r.code (dropJobReads run.gid run.num (chunkDone run s))) := by
  change execChunkEnd e s = _
  simp only [execChunkEnd, hcur, hworked, hwrites, hid, hcancel, hg, hr, if_pos (Or.inr hall)]
  rfl

theorem chunkEnd_share_goes_on (hcode : r.code = 0)
    (hleft : ¬(r.p.shares.getD run.share { unit := engUnit e.val }).n ≤ r.progress.getD run.share 0) {r' : JobRt}
    (hr' : jobRt (chunkLeft (engUnit e.val) run (chunkDone run s)) run.gid run.num = some r') : exec (.chunkEnd e) s =
      .next (returnEntry (entryFor (chunkLeft (engUnit e.val) run (chunkDone run s)) g r' run.share)
        (chunkLeft (engUnit e.val) run (chunkDone run s))) := by
  unfold chunkLeft at hr' ⊢
  change execChunkEnd e s = _
  have hgoes : ¬((r.code ≠ 0 ∧ r.code ≠ 5) ∨ (r.p.shares.getD run.share { unit := engUnit e.val }).n ≤ r.progress.getD run.share 0) :=
    fun h => h.elim (fun hbad => hbad.1 hcode) hleft
  simp only [execChunkEnd, hcur, hworked, hwrites, hid, hcancel, hg, hr, if_neg hgoes, hr']
  rfl

end ChunkEnd

/-- The last chunk of a share ends it, another returns the share to its list: either way the unit is free and the chunk counted. -/
theorem chunkEnd_facts {e : EngId} {s : State} {run : Run} {r : JobRt} (hcur : (unitSt s (engUnit e.val)).cur = some run)
    (hworked : run.worked = true) (hwrites : jobWritesOver s run.gid run.num = true) (hid : idCurrent s run.ci run.id = true)
    (hcancel : run.cancel = false) (hr : jobRt s run.gid run.num = some r) (hcode : r.code = 0) :
    Gives s (.chunkEnd e) [.obj, .host, .work, .out] fun t => (unitSt t (engUnit e.val)).cur = none ∧
      (jobRt t run.gid run.num).map (·.chunks) = some (r.chunks + 1) := by
  have hr1 := jobRt_chunkDone hr
  obtain ⟨g1, hg1⟩ := graphOf_of_jobRt hr1
  have hchunks : (jobRt (chunkDone run s) run.gid run.num).map (·.chunks) = some (r.chunks + 1) := by rw [hr1]; rfl
  have hcur1 : (unitSt (dropJobReads run.gid run.num (chunkDone run s)) (engUnit e.val)).cur = some run := hcur
  have hcode1 : (chunkCounted run r).code = 0 := hcode
  by_cases hall : ((chunkCounted run r).p.shares.getD run.share { unit := engUnit e.val }).n ≤ (chunkCounted run r).progress.getD run.share 0
  · obtain ⟨hfree, hkept⟩ := shareEnd_facts hcur1 (chunkCounted run r).code
    exact execChunkEnd_only.gives (chunkEnd_share_ends hcur hworked hwrites hid hcancel hg1 hr1 hall) ⟨hfree, (hkept _ _).trans hchunks⟩
  · obtain ⟨hfree, hleft⟩ := chunkLeft_facts (engUnit e.val) run (chunkDone run s)
    obtain ⟨r2, hr2, -⟩ := Option.map_eq_some_iff.mp ((hleft run.gid run.num).trans hchunks)
    have hreturn := returnEntry_runsKept (entryFor (chunkLeft (engUnit e.val) run (chunkDone run s)) g1 r2 run.share)
      (chunkLeft (engUnit e.val) run (chunkDone run s))
    exact execChunkEnd_only.gives (chunkEnd_share_goes_on hcur hworked hwrites hid hcancel hg1 hr1 hcode1 hall hr2)
      ⟨(congrArg UnitSt.cur (hreturn.unitSt _)).trans hfree, (hreturn.chunks _ _).trans ((hleft _ _).trans hchunks)⟩

/-! ### A copy between two ends in device memory -/

theorem getElem?_memRead {m : List Host.Cell} {a n i : Nat} (h : i < n) : (memRead m a n)[i]? = some (memGet (a + i) m) := by
  induction n generalizing a i with
  | zero => omega
  | succ n ih =>
    cases i with
    | zero => rfl
    | succ i => rw [memRead, List.getElem?_cons_succ, ih (by omega), Nat.add_assoc, Nat.add_comm 1 i]

/-- One part of a copy, offset and bytes, where both ends stand in device memory. -/
def copyPart (a : Nat) (data : List Byte) (p : Nat × Nat) (s : State) : State :=
  if (slice data p.1 (min p.2 (data.length - p.1))).isEmpty then s else memStore (a + p.1) (slice data p.1 (min p.2 (data.length - p.1))) s

theorem moveCopy_on_device {g : Graph} {r : JobRt} {d : CopyD} (hsrc : d.src < hostBase) (hdst : d.dst < hostBase) (s : State) :
    moveCopy g r d d.len s = each (copyParts s g d) (copyPart d.dst (load s d.src d.len)) s := by
  have hlen : (load s d.src d.len).length = d.len := memRead_length ..
  simp only [moveCopy, if_neg (Nat.not_le.mpr hsrc), if_neg (Nat.not_le.mpr hdst)]
  congr 1
  funext p x
  rw [copyPart, hlen]

/-- Bytes written within the destination of a copy: each byte there is as it was or is the byte of the copy, and no other byte changes. -/
structure Copied (a : Nat) (data : List Byte) (s t : State) : Prop where
  only : Only [.dram, .sram, .mem] s t
  inside : ∀ b < data.length, memGet (a + b) t.mem = memGet (a + b) s.mem ∨ data[b]? = some (memGet (a + b) t.mem)
  outside : MemKeeps a data.length s t

theorem Copied.refl (a : Nat) (data : List Byte) (s : State) : Copied a data s s := ⟨Only.refl s, fun _ _ => .inl rfl, fun _ _ => rfl⟩

theorem Copied.part {a : Nat} {data : List Byte} {s t : State} (h : Copied a data s t) (hwf : Memory.wf s.mem = true) (p : Nat × Nat) :
    Copied a data s (copyPart a data p t) := by
  unfold copyPart
  split
  · exact h
  · set l := slice data p.1 (min p.2 (data.length - p.1)) with hl
    have hlen : l.length ≤ data.length - p.1 := by simp only [hl, slice, List.length_take, List.length_drop]; omega
    have hmem : (memStore (a + p.1) l t).mem = memWrite t.mem (a + p.1) l := rfl
    refine ⟨h.only.trans memStore_only, fun b hb => ?_, fun b hb => ?_⟩
    · by_cases hin : p.1 ≤ b ∧ b < p.1 + l.length
      · right
        obtain ⟨i, rfl⟩ := Nat.exists_eq_add_of_le hin.1
        have hi : i < l.length := by omega
        rw [hmem, ← Nat.add_assoc, memGet_memWrite_inside hi (h.only.wf hwf), ← List.getElem?_eq_getElem hi, hl, slice,
          List.getElem?_take_of_lt (by simp only [hl, slice, List.length_take] at hi; omega), List.getElem?_drop]
      · rw [hmem, memGet_memWrite_outside l (by omega)]
        exact h.inside b hb
    · rw [hmem, memGet_memWrite_outside l ?_]
      · exact h.outside b hb
      · by_cases hp : p.1 ≤ data.length <;> omega

theorem Copied.each {a : Nat} {data : List Byte} {s t : State} (h : Copied a data s t) (hwf : Memory.wf s.mem = true) (l : List (Nat × Nat)) :
    Copied a data s (each l (copyPart a data) t) := by
  induction l generalizing t with
  | nil => exact h
  | cons p r ih => exact ih (h.part hwf p)

/-- A copy that is one part leaves its whole data. -/
theorem load_copyPart_all {a : Nat} {data : List Byte} {s : State} (hwf : Memory.wf s.mem = true) :
    load (copyPart a data (0, data.length) s) a data.length = data := by
  have hall : slice data 0 (min data.length (data.length - 0)) = data := by simp [slice]
  unfold copyPart
  rw [hall]
  split
  · next hempty => rw [List.isEmpty_iff.mp hempty]; rfl
  · exact memRead_memWrite_self a data hwf

theorem copyParts_all {s : State} {g : Graph} {d : CopyD} (h : d.kind ≠ .back ∨ manyWriters g d.buf = false) :
    copyParts s g d = [(0, d.len)] := by
  unfold copyParts
  rw [if_neg]
  rintro ⟨hback, hmany⟩
  exact h.elim (absurd hback) fun hone => by simp [hmany] at hone

theorem curCopy_eq_some {s : State} {u : Nat} {run : Run} {g : Graph} {r : JobRt} {d : CopyD} : curCopy s u = some (run, g, r, d) ↔
    (unitSt s u).cur = some run ∧ graphOf s run.gid = some g ∧ jobRt s run.gid run.num = some r ∧ r.p.copy = some d := by
  unfold curCopy
  constructor
  · intro h
    split at h
    · cases h
    · next run' hcur =>
      split at h
      · next g' r' hg hr =>
        split at h
        · next d' hd => cases h; exact ⟨hcur, hg, hr, hd⟩
        · cases h
      · cases h
  · rintro ⟨hcur, hg, hr, hd⟩
    simp only [hcur, hg, hr, hd]

/-- The job of a copy whose data was moved, and its unit's work done. -/
def copyCounted (r : JobRt) : JobRt := { r with code := worseCode 0 r.code, chunks := r.chunks + 1, trains := r.trains.map (sendTrain 1 1) }
def workDone (m : UnitSt) : UnitSt := { m with cur := m.cur.map fun x => { x with worked := true } }

/-- The state after a copy's data was moved, with its reads gone and its work done. -/
def copyMoved (u : Nat) (g : Graph) (r : JobRt) (s : State) : State :=
  modUnit u workDone (modRt g.id r.p.num copyCounted (dropJobReads g.id r.p.num s))

theorem finishCopy_clean {u : Nat} {g : Graph} {r : JobRt} {d : CopyD} {s : State} (hpoison : rangePoisoned s d.src d.len = false)
    (hread : jobReadFailed s g.id r.p.num = false) : finishCopy u g r d s = copyMoved u g r (moveCopy g r d d.len s) := by
  simp only [finishCopy, hpoison, hread, Bool.and_false, Bool.or_self]
  rfl

theorem copyMoved_only {u : Nat} {g : Graph} {r : JobRt} {s : State} : Only [.host, .work] s (copyMoved u g r s) :=
  dropJobReads_only.mono.trans (modRt_only.mono.trans modUnit_only.mono)

/-- The unit still runs the copy, its work done, until the copy ends. -/
theorem curCopy_copyMoved {u : Nat} {g : Graph} {r : JobRt} {d : CopyD} {run : Run} {s : State} (h : curCopy s u = some (run, g, r, d)) :
    ∃ g', curCopy (copyMoved u g r s) u = some ({ run with worked := true }, g', copyCounted r, d) := by
  obtain ⟨hcur, hg, hr, hd⟩ := curCopy_eq_some.mp h
  have hjob : jobRt (copyMoved u g r s) run.gid run.num = some (copyCounted r) := by
    have hcounted := jobRt_modRt_self (gid := run.gid) (num := run.num) (f := copyCounted) (fun _ => rfl) (dropJobReads run.gid run.num s)
    have hread : jobRt (dropJobReads run.gid run.num s) run.gid run.num = some r := hr
    rw [hread] at hcounted
    rw [copyMoved, graphOf_id hg, jobRt_num hr]
    exact hcounted
  obtain ⟨g', hg'⟩ := graphOf_of_jobRt hjob
  have hunit : (unitSt (copyMoved u g r s) u).cur = some { run with worked := true } := by
    rw [copyMoved, unitSt_modUnit_self]
    exact congrArg (Option.map fun x : Run => { x with worked := true }) hcur
  exact ⟨g', curCopy_eq_some.mpr ⟨hunit, hg', hjob, hd⟩⟩

theorem curCopy_of_work {s t : State} (h : t.work = s.work) (u : Nat) : curCopy t u = curCopy s u := by
  simp only [curCopy, unitSt, graphOf, jobRt, h]

section Copy
variable {c : ClusterId} {s : State} {run : Run} {g : Graph} {r : JobRt} {d : CopyD} (hcopy : curCopy s (dmaUnit c.val) = some (run, g, r, d))
  (hsrc : d.src < hostBase) (hdst : d.dst < hostBase) (hwf : Memory.wf s.mem = true)

include hsrc in
theorem copy_runs (hcopy : curCopy s (dmaUnit c.val) = some (run, g, r, d)) (hworked : run.worked = false) (hhole : copyHole s d = none) :
    exec (.copy c) s = .next (endCopy (dmaUnit c.val) (finishCopy (dmaUnit c.val) g r d s)) := by
  change execCopy c s = _
  simp only [execCopy, hcopy, hworked, decide_eq_false (Nat.not_le.mpr hsrc), hhole]
  rfl

include hsrc hdst hwf in
theorem moveCopy_copied : Copied d.dst (load s d.src d.len) s (moveCopy g r d d.len s) := by
  rw [moveCopy_on_device hsrc hdst]
  exact (Copied.refl _ _ s).each hwf _

include hsrc hdst hwf in
theorem load_moveCopy (h : d.kind ≠ .back ∨ manyWriters g d.buf = false) :
    load (moveCopy g r d d.len s) d.dst d.len = load s d.src d.len := by
  have hall := load_copyPart_all (a := d.dst) (data := load s d.src d.len) hwf
  rw [show (load s d.src d.len).length = d.len from memRead_length ..] at hall
  rw [moveCopy_on_device hsrc hdst, copyParts_all h]
  exact hall

include hcopy hsrc hdst hwf in
/-- The copy's share ends once its data is moved: its writes stand in device memory, so nothing waits for the host link. -/
theorem endCopy_finishCopy (hpoison : rangePoisoned s d.src d.len = false) (hread : jobReadFailed s g.id r.p.num = false)
    (hwrites : jobWritesOver s run.gid run.num = true) :
    endCopy (dmaUnit c.val) (finishCopy (dmaUnit c.val) g r d s) =
      shareEnd (dmaUnit c.val) (run.ending.getD (copyCounted r).code) (copyMoved (dmaUnit c.val) g r (moveCopy g r d d.len s)) ∧
    ∃ run', (unitSt (copyMoved (dmaUnit c.val) g r (moveCopy g r d d.len s)) (dmaUnit c.val)).cur = some run' := by
  have honly := (moveCopy_copied (g := g) (r := r) hsrc hdst hwf).only
  obtain ⟨g', hcur'⟩ := curCopy_copyMoved ((curCopy_of_work honly.work_eq _).trans hcopy)
  have hwaits : jobWritesOver (copyMoved (dmaUnit c.val) g r (moveCopy g r d d.len s)) run.gid run.num = true := by
    have hmoved : (moveCopy g r d d.len s).host.waits = s.host.waits := by rw [honly.host_eq]
    have hsame : (copyMoved (dmaUnit c.val) g r (moveCopy g r d d.len s)).host.waits = s.host.waits := hmoved
    rw [jobWritesOver, hsame]
    exact hwrites
  refine ⟨?_, _, (curCopy_eq_some.mp hcur').1⟩
  rw [finishCopy_clean hpoison hread]
  simp only [endCopy, hcur', hwaits]
  rfl

end Copy

theorem copyEnded_mem (u code : Nat) (g : Graph) (r : JobRt) (s : State) : (shareEnd u code (copyMoved u g r s)).mem = s.mem :=
  shareEnd_only.mem_eq.trans copyMoved_only.mem_eq

theorem copy_facts {c : ClusterId} {s : State} {run : Run} {g : Graph} {r : JobRt} {d : CopyD}
    (hcopy : curCopy s (dmaUnit c.val) = some (run, g, r, d)) (hworked : run.worked = false) (hsrc : d.src < hostBase) (hdst : d.dst < hostBase)
    (hhole : copyHole s d = none) (hpoison : rangePoisoned s d.src d.len = false) (hread : jobReadFailed s g.id r.p.num = false)
    (hwrites : jobWritesOver s run.gid run.num = true) (hwf : Memory.wf s.mem = true) :
    Gives s (.copy c) [.obj, .host, .work, .dram, .sram, .mem, .out] fun t =>
      (d.kind ≠ .back ∨ manyWriters g d.buf = false → load t d.dst d.len = load s d.src d.len) ∧
      (∀ b < d.len, memGet (d.dst + b) t.mem = memGet (d.dst + b) s.mem ∨ (load t d.dst d.len)[b]? = (load s d.src d.len)[b]?) ∧
      MemKeeps d.dst d.len s t ∧ (unitSt t (dmaUnit c.val)).cur = none := by
  obtain ⟨hend, run', hcur'⟩ := endCopy_finishCopy hcopy hsrc hdst hwf hpoison hread hwrites
  have hcopied := moveCopy_copied (g := g) (r := r) hsrc hdst hwf
  obtain ⟨honly, hinside, houtside⟩ := hcopied
  rw [show (load s d.src d.len).length = d.len from memRead_length ..] at hinside houtside
  have hmem := copyEnded_mem (dmaUnit c.val) (run.ending.getD (copyCounted r).code) g r (moveCopy g r d d.len s)
  refine ⟨_, by rw [copy_runs hsrc hcopy hworked hhole, hend], honly.mono.trans (copyMoved_only.mono.trans shareEnd_only.mono),
    fun hone => ?_, fun b hb => ?_, fun b hb => ?_, (shareEnd_facts hcur' _).1⟩
  · rw [load, hmem]
    exact load_moveCopy hsrc hdst hwf hone
  · rw [load, hmem, getElem?_memRead hb]
    exact (hinside b hb).imp_right Eq.symm
  · rw [hmem]
    exact houtside b hb

/-! ### The cancel of what a unit runs -/

section Cancel
variable {u : Fin 240} {blocks : Nat} {s : State} {run : Run} {g : Graph} (hcur : (unitSt s u.val).cur = some run)
  (hg : graphOf s run.gid = some g) (hstop : g.cancelled = true ∨ g.stale = true) (hending : run.ending = none)

include hcur hg hstop hending in
theorem cancelRequest_stale {x : Nat} (hx : (jobRt s run.gid run.num).bind (fun r => staleUnit s r run.share) = some x) :
    exec (.cancelRequest u blocks) s = .next (concludeJob run.gid run.num 3 (countStale x s)) := by
  have hmeant : (!g.cancelled && !g.stale || run.ending.isSome) = false := by rcases hstop with h | h <;> simp [h, hending]
  change execCancelRequest u blocks s = _
  simp only [execCancelRequest, hcur, hg, hmeant, hx]
  rfl

/-- A run told to stop at its next boundary; an UPDATE job stops between commands (R379). -/
def toStop (s : State) (run x : Run) : Run :=
  { x with cancel := true, worked := x.worked || s.radio.commands.any fun c => c.gid == run.gid && c.num == run.num }

include hcur hg hstop hending in
theorem cancelRequest_stops (hx : (jobRt s run.gid run.num).bind (fun r => staleUnit s r run.share) = none) (hcopy : curCopy s u.val = none) :
    exec (.cancelRequest u blocks) s =
      .next (modUnit u.val (fun m => { m with cur := m.cur.map (toStop s run) }) (dropCommands run.gid run.num s)) := by
  have hmeant : (!g.cancelled && !g.stale || run.ending.isSome) = false := by rcases hstop with h | h <;> simp [h, hending]
  change execCancelRequest u blocks s = _
  simp only [execCancelRequest, hcur, hg, hmeant, hx, hcopy]
  rfl

end Cancel

theorem dropCommands_gone {gid num : Nat} {s : State} : ∀ c ∈ (dropCommands gid num s).radio.commands, ¬(c.gid = gid ∧ c.num = num) := by
  rintro c hc ⟨hgid, hnum⟩
  have hother := List.of_mem_filter hc
  simp [hgid, hnum] at hother

end Sys2Proof.Machine
end

section
/-!
PROOFS. Completion messages (R154, R162), ready lists and levels (R136, R143), job-ID indices (R161), the watchdog (R163) and the accounting
window (R182); and with the parts before it, the life of a job.
-/
namespace Sys2Proof.Machine

/-! ### Completion messages -/

theorem idCurrent_iff {s : State} {ci id : Nat} : idCurrent s ci id = true ↔
    (idSt s ci (id % 4096)).inUse = true ∧ (idSt s ci (id % 4096)).quarantine = none ∧ (idSt s ci (id % 4096)).gen = id / 4096 := by
  simp [idCurrent, and_assoc]

/-- The messages on their way without the one that arrives. -/
def msgTaken (n : Nat) (s : State) : State := { s with work := { s.work with msgs := s.work.msgs.eraseIdx n } }

theorem completionMessage_arrives {n : Nat} {s : State} {m : Msg} (hm : s.work.msgs[n]? = some m) : exec (.completionMessage n) s =
    .next (if idCurrent s m.ci m.id then takeMessage m (msgTaken n s)
      else wake (dropLate m.tenant m.ci m.id (accountId m.ci m.id (msgTaken n s)))) := by
  change execCompletionMessage n s = _
  simp only [execCompletionMessage, hm]
  cases idCurrent s m.ci m.id <;> rfl

theorem completionMessage_current {n : Nat} {s : State} {m : Msg} (hm : s.work.msgs[n]? = some m) (hid : idCurrent s m.ci m.id = true) :
    Gives s (.completionMessage n) [.obj, .pow, .host, .work, .radio, .noc, .out] fun t => t = takeMessage m (msgTaken n s) :=
  execCompletionMessage_only.gives (completionMessage_arrives hm) (if_pos hid)

theorem completionMessage_late {n : Nat} {s : State} {m : Msg} (hm : s.work.msgs[n]? = some m) (hid : ¬idCurrent s m.ci m.id = true) :
    Gives s (.completionMessage n) [.obj, .host, .work, .out] fun t =>
      t = wake (dropLate m.tenant m.ci m.id (accountId m.ci m.id (msgTaken n s))) := by
  have htaken : Only [.work] s (msgTaken n s) := Only.upd (Only.refl s)
  refine ⟨_, (completionMessage_arrives hm).trans (congrArg _ (if_neg hid)), ?_, rfl⟩
  exact htaken.mono.trans (accountId_only.mono.trans (dropLate_only.mono.trans wake_only.mono))

/-! ### Jobs become ready (R136, R161) -/

/-- No entry left a ready list, and no index entered or left its quarantine, or had its bars changed. -/
structure Woken (s t : State) : Prop where
  ready : ∀ e ∈ s.work.ready, e ∈ t.work.ready
  quarantine : ∀ ci i, (idSt t ci i).quarantine = (idSt s ci i).quarantine
  bars : ∀ ci i, (idSt t ci i).bars = (idSt s ci i).bars

theorem Woken.refl (s : State) : Woken s s := ⟨fun _ => id, fun _ _ => rfl, fun _ _ => rfl⟩

theorem Woken.trans {s t u : State} (h : Woken s t) (k : Woken t u) : Woken s u :=
  ⟨fun e he => k.ready e (h.ready e he), fun ci i => (k.quarantine ci i).trans (h.quarantine ci i), fun ci i => (k.bars ci i).trans (h.bars ci i)⟩

theorem Woken.each {α : Type} {f : α → State → State} (hf : ∀ a s, Woken s (f a s)) (l : List α) (s : State) : Woken s (each l f s) :=
  each_related Woken.refl Woken.trans hf l s

theorem Woken.of_work {s t : State} (hr : ∀ e ∈ s.work.ready, e ∈ t.work.ready) (hi : t.work.ids = s.work.ids) : Woken s t :=
  ⟨hr, fun ci i => by rw [idSt, idSt, hi], fun ci i => by rw [idSt, idSt, hi]⟩

theorem modRt_woken (gid num : Nat) (f : JobRt → JobRt) (s : State) : Woken s (modRt gid num f s) := Woken.of_work (fun _ => id) rfl

theorem bump_woken (k : Nat) (s : State) : Woken s (bump k s) := Woken.of_work (fun _ => id) rfl

theorem countHeld_woken (gid num : Nat) (s : State) : Woken s (countHeld gid num s) := by
  unfold countHeld
  split
  · split
    · exact Woken.refl s
    · exact (modRt_woken _ _ _ s).trans (bump_woken _ _)
  · exact Woken.refl s

theorem enterList_woken (e : ReadyE) (s : State) : Woken s (enterList e s) := by
  unfold enterList
  split
  · exact Woken.of_work (fun _ hx => List.mem_append_left _ hx) rfl
  · refine Woken.trans ?_ (countHeld_woken _ _ _)
    exact Woken.of_work (fun _ => id) rfl

/-- A change of one index's record that keeps a field keeps it in every record. -/
theorem idSt_modId_field {β : Type} (φ : IdSt → β) {f : IdSt → IdSt} (ci k : Nat) (s : State) (c j : Nat)
    (hf : ∀ m, φ (f m) = φ m := by intro _; rfl) : φ (idSt (modId ci k f s) c j) = φ (idSt s c j) := by
  by_cases hkey : 4096 * c + j = 4096 * ci + k
  · have hself : idSt (modId ci k f s) c j = f (idSt s c j) := by
      rw [idSt, idSt, hkey]
      exact tget_tmod_self ..
    rw [hself, hf]
  · have hother : idSt (modId ci k f s) c j = idSt s c j := tget_tmod_ne hkey ..
    rw [hother]

/-- An index is issued with its next generation, and keeps its bars. -/
theorem issueId_woken {ci i : Nat} {s t : State} (h : issueId ci s = some (i, t)) : Woken s t := by
  unfold issueId at h
  split at h
  · cases h
  · next k hk =>
    cases h
    exact ⟨fun _ => id, fun c j => idSt_modId_field (·.quarantine) ci k s c j, fun c j => idSt_modId_field (·.bars) ci k s c j⟩

theorem makeReady_woken (gid num : Nat) (s : State) : Woken s (makeReady gid num s) := by
  unfold makeReady
  split
  · exact Woken.refl s
  · split
    · exact Woken.refl s
    · next g _ r _ =>
      extract_lets us stamped
      have hstamped : Woken s stamped := by
        dsimp only [stamped]
        split
        · exact modRt_woken _ _ _ s
        · exact Woken.refl s
      clear_value stamped
      split
      · exact countHeld_woken _ _ s
      · split
        · split
          · exact hstamped.trans (bump_woken _ _)
          · exact hstamped
        · next i s1 hid =>
          have hissued : Woken s s1 := by
            split at hid
            · cases hid; exact hstamped
            · exact hstamped.trans (issueId_woken hid)
          extract_lets s2
          have hnumbered : Woken s s2 := hissued.trans (modRt_woken _ _ _ s1)
          split
          · exact hnumbered.trans (Woken.each (fun _ _ => enterList_woken _ _) _ _)
          · exact hnumbered

theorem wake_woken (s : State) : Woken s (wake s) := by
  unfold wake
  refine Woken.each (fun c x => ?_) _ s
  split
  · exact Woken.refl x
  · split
    · split
      · split
        · exact makeReady_woken _ _ x
        · split
          · exact Woken.refl x
          · exact (modRt_woken _ _ _ x).trans (bump_woken _ _)
      · exact Woken.refl x
    · exact Woken.refl x

theorem releaseHeld_woken (fuel : Nat) (l : List ReadyE) (s : State) : Woken s (releaseHeld fuel l s) := by
  induction fuel generalizing l s with
  | zero => exact Woken.refl s
  | succ fuel ih =>
    cases l with
    | nil => exact Woken.refl s
    | cons e r =>
      rw [releaseHeld]
      split
      · refine Woken.trans ?_ (ih r _)
        exact Woken.of_work (fun _ hx => List.mem_append_left _ hx) rfl
      · exact ih r s

theorem heldReadyRelease_woken (q : QuadId) (s : State) : Gives s (.heldReadyRelease q) [.obj, .work] fun t => Woken s t :=
  execHeldReadyRelease_only.gives rfl ((releaseHeld_woken _ _ s).trans (wake_woken _))

/-! ### Levels (R143) -/

/-- The ready lists, the held-ready store and the tables of levels. -/
def levelParts (s : State) : List ReadyE × List ReadyE × Table Nat × Table Nat := (s.work.ready, s.work.heldReady, s.work.thr, s.work.bias)

theorem flushLate_levelParts (t : Nat) (s : State) : levelParts (flushLate t s) = levelParts s := by
  unfold flushLate
  extract_lets l due
  split
  · rfl
  · rw [levelParts, fnEvent_only.work_eq]
    rfl

/-- The state in which a tick finds new levels: the tables of the dictionary are in force. -/
def tablesInForce (s : State) : State :=
  { s with work := { s.work with thr := (upto 16).map fun l => (l, rd s (kDiThr l)), bias := (upto 12).map fun c => (c, rd s (kDiClassBias c)) } }

theorem levelTick_facts (s : State) : Gives s .levelTick [.obj, .host, .work, .out] fun t =>
    levelParts t = (s.work.ready.map (relevel (tablesInForce s)), s.work.heldReady.map (relevel (tablesInForce s)),
      (tablesInForce s).work.thr, (tablesInForce s).work.bias) :=
  execLevelTick_only.gives rfl (each_eq flushLate_levelParts _ _)

/-! ### Quarantines and bars (R161) -/

theorem mem_of_tfind {α : Type} {k : Nat} {v : α} {t : Table α} (h : tfind k t = some v) : (k, v) ∈ t := by
  induction t with
  | nil => cases h
  | cons e r ih =>
    obtain ⟨j, w⟩ := e
    rw [tfind] at h
    split at h
    · next hk => cases h; subst hk; exact List.mem_cons_self
    · exact List.mem_cons_of_mem _ (ih h)

theorem tfind_tmap {α : Type} (f : Nat → α → α) (k : Nat) (t : Table α) : tfind k (tmap f t) = (tfind k t).map (f k) := by
  induction t with
  | nil => rfl
  | cons e r ih =>
    obtain ⟨j, w⟩ := e
    have hstep : tmap f ((j, w) :: r) = (j, f j w) :: tmap f r := rfl
    rw [hstep, tfind, tfind]
    split
    · next hk => rw [hk]; rfl
    · exact ih

theorem tfind_of_tget_ne {α : Type} {k : Nat} {d : α} {t : Table α} (h : tget t k d ≠ d) : tfind k t = some (tget t k d) := by
  unfold tget at h ⊢
  cases hf : tfind k t with
  | none => exact absurd (by rw [hf]; rfl) h
  | some v => rfl

/-- Every index changed by `f`. -/
def idsChanged (f : Nat → IdSt → IdSt) (s : State) : State := { s with work := { s.work with ids := tmap f s.work.ids } }

/-- An index in use or with a history is in the table: it is among those changed. -/
theorem idSt_changed {s : State} {ci i : Nat} (h : idSt s ci i ≠ {}) (f : Nat → IdSt → IdSt) :
    (4096 * ci + i, idSt s ci i) ∈ s.work.ids ∧ idSt (idsChanged f s) ci i = f (4096 * ci + i) (idSt s ci i) := by
  have hfound : tfind (4096 * ci + i) s.work.ids = some (idSt s ci i) := tfind_of_tget_ne h
  refine ⟨mem_of_tfind hfound, ?_⟩
  have hmapped := tfind_tmap f (4096 * ci + i) s.work.ids
  rw [hfound] at hmapped
  exact congrArg (·.getD ({} : IdSt)) hmapped

/-- The quarantine of an index has lasted its time. -/
def quarantineOver (s : State) (m : IdSt) : Bool :=
  match m.quarantine with
  | some t => t + nsToTc (rd s kDiIdQuarantine) ≤ now s
  | none => false

/-- Its quarantine ends; a message still outstanding bars the generation for 32 ms. -/
def quarantineEnded (s : State) (_ : Nat) (m : IdSt) : IdSt :=
  if quarantineOver s m then
    let bars := if m.outstanding = 0 then m.bars else m.bars ++ [(m.gen, (m.quarantine.getD 0) + nsToTc (rd s kDiIdQuarantine) + msToTc 32)]
    { m with quarantine := none, outstanding := 0, bars := bars }
  else m

theorem exec_idQuarantineExpiry (s : State) : exec .idQuarantineExpiry s =
    if s.work.ids.any fun e => quarantineOver s e.2 then .next (wake (idsChanged (quarantineEnded s) s)) else .next s := rfl

theorem idQuarantineExpiry_ends {s : State} {ci i q : Nat} (hq : (idSt s ci i).quarantine = some q)
    (hdue : q + nsToTc (rd s kDiIdQuarantine) ≤ now s) : Gives s .idQuarantineExpiry [.obj, .work] fun t => (idSt t ci i).quarantine = none := by
  have hover : quarantineOver s (idSt s ci i) = true := by
    unfold quarantineOver
    rw [hq]
    exact decide_eq_true hdue
  have hused : idSt s ci i ≠ {} := fun h => by rw [h] at hq; cases hq
  obtain ⟨hmem, hchanged⟩ := idSt_changed hused (quarantineEnded s)
  have hany : (s.work.ids.any fun e => quarantineOver s e.2) = true := List.any_eq_true.mpr ⟨_, hmem, hover⟩
  refine execIdQuarantineExpiry_only.gives ((exec_idQuarantineExpiry s).trans (if_pos hany)) ?_
  rw [(wake_woken _).quarantine, hchanged, quarantineEnded, if_pos hover]

/-- Bars that have ended lapse. -/
def barsLapsed (s : State) (_ : Nat) (m : IdSt) : IdSt := { m with bars := m.bars.filter fun b => now s < b.2 }

theorem exec_generationBarExpiry (s : State) : exec .generationBarExpiry s =
    if s.work.ids.any fun e => e.2.bars.any fun b => b.2 ≤ now s then .next (wake (idsChanged (barsLapsed s) s)) else .next s := rfl

theorem generationBarExpiry_lapses {s : State} {ci i : Nat} {b : Nat × Nat} (hb : b ∈ (idSt s ci i).bars) (hdue : b.2 ≤ now s) :
    Gives s .generationBarExpiry [.obj, .work] fun t => b ∉ (idSt t ci i).bars := by
  have hused : idSt s ci i ≠ {} := fun h => by rw [h] at hb; cases hb
  obtain ⟨hmem, hchanged⟩ := idSt_changed hused (barsLapsed s)
  have hany : (s.work.ids.any fun e => e.2.bars.any fun b => b.2 ≤ now s) = true :=
    List.any_eq_true.mpr ⟨_, hmem, List.any_eq_true.mpr ⟨b, hb, decide_eq_true hdue⟩⟩
  refine execGenerationBarExpiry_only.gives ((exec_generationBarExpiry s).trans (if_pos hany)) ?_
  rw [(wake_woken _).bars, hchanged]
  intro hstays
  have hlater : now s < b.2 := by simpa using List.of_mem_filter hstays
  omega

/-! ### The watchdog (R163) -/

/-- The units of the shares of a job whose messages have not arrived. -/
def silentUnits (r : JobRt) : List Nat :=
  ((upto r.p.shares.length).filter fun k => !r.arrived.contains k).map fun k => (r.p.shares.getD k { unit := 0 }).unit

theorem watchdog_expires {gid num : Nat} {s : State} {r : JobRt} (hr : jobRt s gid num = some r) (hopen : r.open_ = true) (hran : r.ran = true)
    (hdue : r.watch * 25 / 49152 < now s * 25 / 49152) : exec (.watchdog gid num) s =
      .next (each (silentUnits r) (fun u x => startUnitFlow u x) (concludeJob gid num 4 (dropJobReads gid num s))) := by
  change execWatchdog gid num s = _
  simp only [execWatchdog, hr, hopen, hran, decide_eq_false (Nat.not_le.mpr hdue)]
  rfl

/-! ### The accounting window (R182) -/

/-- The work at the end of a window: what is metered and used beyond charges starts again, charges of windows gone are dropped. -/
theorem budgetWindow_facts {s : State} (h : s.work.window < now s / windowTc) : Gives s .budgetWindow [.obj, .host, .work, .out] fun t =>
    t.work.window = now s / windowTc ∧ t.work.metered = [] ∧ t.work.excess = [] ∧
      t.work.charged = s.work.charged.filter fun e => now s / windowTc ≤ e.1 / 8192 := by
  obtain ⟨t, ht, honly⟩ := execBudgetWindow_only (s := s)
  refine ⟨t, ht, honly, ?_⟩
  simp only [execBudgetWindow, if_neg (Nat.not_le.mpr h)] at ht
  injection ht with ht
  subst ht
  rw [each_eq (g := State.work) fun _ _ => fnEvent_only.work_eq, each_eq (g := State.work) fun _ _ => bump_work _ _]
  exact ⟨rfl, rfl, rfl, rfl⟩

/-- Settles O27: each conjunct is the lemmas above about its command. -/
theorem jobLifecycle : Obligations.JobLifecycle := by
  unfold Obligations.JobLifecycle
  refine ⟨fun u s e g r hcur hfence hrole hbest hg hr => ?dispatch,
    fun e s run g r hcur hworked hwrites hcancel _ hr hcode => ⟨?dropped, ?chunk⟩,
    fun c s run g r d hcopy hworked hsrc hdst hhole hpoison hread hwrites hwf =>
      copy_facts hcopy hworked hsrc hdst hhole hpoison hread hwrites hwf,
    fun u blocks s run g hcur hg hstop hending => ⟨fun x hx => cancelRequest_stale hcur hg hstop hending hx, fun hx hcopy => ?cancel⟩,
    fun n s m hm => ⟨fun hin hq hgen => completionMessage_current hm (idCurrent_iff.mpr ⟨hin, hq, hgen⟩), fun hnot => ?late⟩,
    fun q s => ?held, fun s => ?levels, fun s ci i q hq hdue => idQuarantineExpiry_ends hq hdue,
    fun s ci i b hb hdue => generationBarExpiry_lapses hb hdue,
    fun gid num s r hr hopen hran hdue => execWatchdog_only.gives (watchdog_expires hr hopen hran hdue) rfl, fun s h => ?window⟩
  case dispatch =>
    have htakes := jobDispatch_takes hcur hfence hrole hbest hg hr
    refine ⟨fun x hx => by rw [htakes, hx]; rfl, fun hx => ?_⟩
    have hg' : graphOf (entryTaken e s) e.gid = some g := hg
    have hr' : jobRt (entryTaken e s) e.gid e.num = some r := hr
    have htaken : Only [.work] s (entryTaken e s) := Only.upd (Only.refl s)
    obtain ⟨hruns, hready, hrunning⟩ := startRun_facts hg' hr'
    rw [bestEntry_unit hbest] at hruns
    refine ⟨_, by rw [htakes, hx]; rfl, htaken.mono.trans startRun_only, ⟨_, hruns, dispatchedRun_facts hg' hr'⟩, ?_,
      fun x hin hne => ?_, hrunning⟩
    · rw [hready, mem_entryTaken]
      exact fun h => h.2 rfl
    · rw [hready, mem_entryTaken]
      exact ⟨hin, hne⟩
  case dropped => exact chunkEnd_dropped hcur hworked hwrites
  case chunk => exact fun hid => chunkEnd_facts hcur hworked hwrites hid hcancel hr hcode
  case cancel =>
    have hcur' : (unitSt (dropCommands run.gid run.num s) u.val).cur = some run := hcur
    refine ⟨_, cancelRequest_stops hcur hg hstop hending hx hcopy, dropCommands_only.mono.trans modUnit_only.mono,
      ⟨toStop s run run, ?_, rfl, rfl, rfl, rfl⟩, dropCommands_gone⟩
    rw [unitSt_modUnit_self, hcur']
    rfl
  case late =>
    refine completionMessage_late hm fun hid => ?_
    obtain ⟨hin, hq, hgen⟩ := idCurrent_iff.mp hid
    rcases hnot with h | h | h
    · exact Bool.false_ne_true (h.symm.trans hin)
    · exact h hq
    · exact h hgen
  case held =>
    obtain ⟨t, ht, honly, hwoken⟩ := heldReadyRelease_woken q s
    exact ⟨t, ht, honly, hwoken.ready⟩
  case levels =>
    obtain ⟨t, ht, honly, hparts⟩ := levelTick_facts s
    simp only [levelParts, Prod.mk.injEq] at hparts
    exact ⟨t, ht, honly, hparts⟩
  case window =>
    obtain ⟨t, ht, honly, hwindow, hmetered, hexcess, hcharged⟩ := budgetWindow_facts h
    refine ⟨t, ht, honly, hwindow, hmetered, hexcess, fun e he => ?_⟩
    rw [hcharged] at he
    simpa using List.of_mem_filter he

end Sys2Proof.Machine
end

section
/-!
PROOFS. An instruction alone in its bundle (R215, R216): what it makes of the state where it raises nothing, and the record of its core.
-/
namespace Sys2Proof.Machine

/-! ### Tables -/

@[simp] theorem tset_tset_self {α : Type} (k : Nat) (v w : α) (t : Table α) : tset k v (tset k w t) = tset k v t := by
  induction t with
  | nil => simp [tset]
  | cons e r ih =>
    obtain ⟨j, x⟩ := e
    rcases Nat.lt_trichotomy k j with h | h | h
    · simp [tset, h]
    · simp [tset, h]
    · simp [tset, Nat.not_lt_of_gt h, Nat.ne_of_gt h, ih]

@[simp] theorem tfind_tdel_self {α : Type} (k : Nat) (t : Table α) : tfind k (tdel k t) = none := by
  induction t with
  | nil => rfl
  | cons e r ih =>
    obtain ⟨j, x⟩ := e
    by_cases h : j = k <;> simp [tdel, tfind, h, ih]

theorem tmod_of_tfind {α : Type} {k : Nat} {v : α} {t : Table α} (h : tfind k t = some v) (d : α) (f : α → α) :
    tmod t k d f = tset k (f v) t := by rw [tmod, tget, h, Option.getD_some]

/-! ### The record of a core -/

theorem modCore_eq_putCore {core : CoreId} {c : Core} {s : State} (h : tfind core.val s.sage.cores = some c) (f : Core → Core) :
    modCore core.val f s = putCore core (f c) s := by rw [modCore, tmod_of_tfind h, putCore]

@[simp] theorem tfind_putCore (core : CoreId) (c : Core) (s : State) : tfind core.val (putCore core c s).sage.cores = some c := tfind_tset_self ..

@[simp] theorem putCore_putCore (core : CoreId) (c d : Core) (s : State) : putCore core c (putCore core d s) = putCore core c s := by
  simp [putCore]

theorem modCore_putCore (core : CoreId) (c : Core) (f : Core → Core) (s : State) : modCore core.val f (putCore core c s) = putCore core (f c) s := by
  rw [modCore_eq_putCore (tfind_putCore core c s), putCore_putCore]

theorem putCore_only {core : CoreId} {c : Core} {s : State} : Only [.sage] s (putCore core c s) := Only.upd (Only.refl s)

/-- What runs on a core: a firmware program in maintenance mode, or the job that its unit has. -/
theorem coreRun_eq_some {s : State} {n : Nat} {c : Core} (h : coreRun s n = some c) : tfind n s.sage.cores = some c ∧
    (c.maint = false → ∃ run, (unitSt s n).cur = some run ∧ run.gid = c.gid ∧ run.num = c.num) := by
  unfold coreRun at h
  split at h
  · cases h
  · next c' hc =>
    split at h
    · next hmaint =>
      split at h
      · cases h
        exact ⟨hc, fun hm => absurd (hm.symm.trans hmaint) Bool.false_ne_true⟩
      · cases h
    · split at h
      · next run hcur =>
        split at h
        · next hjob =>
          cases h
          exact ⟨hc, fun _ => ⟨run, hcur, hjob⟩⟩
        · cases h
      · cases h

/-! ### The instruction joins its bundle and executes it -/

/-- What an instruction alone in its bundle sees. -/
def loneCtx (core : CoreId) (w : Word) (c : Core) (s : State) : Ctx := { s := s, n := core.val, c := c, w := w.toNat, ia := c.pc }

/-- The bundle of an instruction alone in it. -/
def loneBundle (w : Word) (slot : Slot) (s : State) (r : IRes) : Bundle :=
  { count := 1, at_ := now s, word := w.toNat, claimAt := if r.writes.any SWrite.isClaim then some (now s) else none, slots := [slot],
    writes := r.writes, excs := r.excs }

/-- A bundle without exceptions, within the slice, makes its writes. -/
theorem commitBundle_writes {core : CoreId} {c : Core} {w : Nat} {s : State} (hslice : sliceOver s core.val c c.bundle.at_ = false)
    (hexcs : c.bundle.excs = []) (hclash : bundleClash c.bundle = false) : commitBundle core.val c w (putCore core c s) =
      each (sortBy (fun x y => writeOrder x ≤ writeOrder y) c.bundle.writes) (fun w t => applyWrite core.val w t)
        (putCore core { c with bundle := {}, pc := c.pc + 4 * c.bundle.count } s) := by
  have hslice' : sliceOver (putCore core c s) core.val c c.bundle.at_ = false := hslice
  simp only [commitBundle, hslice', hexcs, hclash, modCore_putCore]
  rfl

section Issue
variable {core : CoreId} {w : Word} {c : Core} {s : State} {isWord : Nat → Bool} {stall : Ctx → Bool} {f : Ctx → IRes}

/-- An instruction whose word it is and that need not wait executes its bundle. -/
theorem issue_lone (h : Lone core w c s) (hlisted : listedWord w.toNat = true) (hword : isWord w.toNat = true)
    (hstall : stall (loneCtx core w c s) = false) (hcores : (f (loneCtx core w c s)).s.sage.cores = s.sage.cores) (slot : Slot) :
    issue core w isWord slot stall f s =
      let r := f (loneCtx core w c s)
      let c1 := { c with bundle := loneBundle w slot s r }
      .next (commitBundle core.val c1 w.toNat (putCore core c1 r.s)) := by
  obtain ⟨hrun, hempty, hlast, hfetch⟩ := h
  have hcore : tfind core.val (f (loneCtx core w c s)).s.sage.cores = some c := hcores ▸ (coreRun_eq_some hrun).1
  have hctx : { s := s, n := core.val, c := c, w := w.toNat, ia := c.pc : Ctx } = loneCtx core w c s := rfl
  simp [issue, hrun, hctx, hlisted, hword, hstall, hlast, hempty, hfetch, modCore_eq_putCore hcore, loneBundle, done]

/-- An instruction that makes one write, and draws no value the manual leaves open. -/
theorem issue_alone_one {slot : Slot} {x : SWrite} (h : Alone core w c s) (hlisted : listedWord w.toNat = true)
    (hword : isWord w.toNat = true) (hstall : stall (loneCtx core w c s) = false)
    (hf : f (loneCtx core w c s) = (loneCtx core w c s).ok [x]) :
    issue core w isWord slot stall f s = .next (applyWrite core.val x (putCore core c.next s)) := by
  have hclash : bundleClash (loneBundle w slot s (f (loneCtx core w c s))) = false := by
    rw [hf]
    cases x <;> rfl
  have hcommit := commitBundle_writes (c := { c with bundle := loneBundle w slot s (f (loneCtx core w c s)) }) (w := w.toNat) (s := s)
    h.inSlice (by rw [hf]; rfl) hclash
  rw [issue_lone h.toLone hlisted hword hstall (by rw [hf]; rfl)]
  rw [hf] at hcommit ⊢
  exact congrArg Host.Outcome.next hcommit

end Issue

end Sys2Proof.Machine
end

section
/-!
PROOFS. A yield point of a Sage core (R147 to R149, R236, R276), and the end of its job (R157, R235).
-/
namespace Sys2Proof.Machine

theorem Only.sage_eq {l : List Part} {s t : State} (h : Only l s t) (hl : Part.sage ∉ l := by decide) : t.sage = s.sage := h.same .sage hl

/-! ### The claim of the coprocessor -/

theorem holdsClaim_of_cmcs {s t : State} (h : t.sage.cmcs = s.sage.cmcs) (n : Nat) : holdsClaim t n = holdsClaim s n := by
  rw [holdsClaim, holdsClaim, cmcOf, cmcOf, h]

/-- A core gives up the claim it holds, and one without it stays without. -/
theorem holdsClaim_cmcRelease (n : Nat) (s : State) : holdsClaim (cmcRelease n s) n = false := by
  unfold cmcRelease
  dsimp only
  split
  · have hpeak (k v : Nat) (x : State) : holdsClaim (peak k v x) n = holdsClaim x n := rfl
    rw [hpeak, holdsClaim, cmcOf_modCmc_self]
    rfl
  · next h => exact Bool.eq_false_iff.mpr h

theorem holdsClaim_cmcRevoke (n : Nat) (s : State) : holdsClaim (cmcRevoke n s) n = false := by
  unfold cmcRevoke
  split
  · exact holdsClaim_cmcRelease n s
  · next h => exact Bool.eq_false_iff.mpr h

theorem holdsClaim_dropRequest (n : Nat) (s : State) : holdsClaim (dropRequest n s) n = holdsClaim s n := by
  rw [holdsClaim, dropRequest, cmcOf_modCmc_self, holdsClaim]

/-- A core that stops has neither a program nor the claim. -/
theorem holdsClaim_coreStop (n : Nat) (s : State) : holdsClaim (coreStop n s) n = false :=
  (holdsClaim_dropRequest n _).trans (holdsClaim_cmcRelease n s)

theorem tfind_coreStop (n : Nat) (s : State) : tfind n (coreStop n s).sage.cores = none := tfind_tdel_self ..

/-! ### The end of a core's job -/

section EndOfJob
variable {n : Nat} {s : State} {c : Core} (hc : tfind n s.sage.cores = some c)
include hc

theorem endCoreJob_maint (hm : c.maint = true) (code : Nat) : endCoreJob n code s =
    let s1 := coreStop n (dropXferReads n s)
    { s1 with sage := { s1.sage with cores := tset n (maintCore (now s)) s1.sage.cores } } := by
  simp only [endCoreJob, hc, hm]
  rfl

theorem endCoreJob_job (hm : c.maint = false) (code : Nat) : endCoreJob n code s = stopShare n code (coreStop n (dropXferReads n s)) := by
  simp only [endCoreJob, hc, hm]
  rfl

theorem holdsClaim_endCoreJob (code : Nat) : holdsClaim (endCoreJob n code s) n = false := by
  have hstop := holdsClaim_coreStop n (dropXferReads n s)
  cases hm : c.maint with
  | true =>
    rw [endCoreJob_maint hc hm]
    exact hstop
  | false =>
    rw [endCoreJob_job hc hm]
    exact (holdsClaim_of_cmcs (congrArg SageSt.cmcs stopShare_only.sage_eq) n).trans hstop

theorem tfind_endCoreJob_maint (hm : c.maint = true) (code : Nat) :
    tfind n (endCoreJob n code s).sage.cores = some (maintCore (now s)) := by
  rw [endCoreJob_maint hc hm]
  exact tfind_tset_self ..

theorem tfind_endCoreJob_job (hm : c.maint = false) (code : Nat) : tfind n (endCoreJob n code s).sage.cores = none := by
  rw [endCoreJob_job hc hm, stopShare_only.sage_eq]
  exact tfind_coreStop n _

end EndOfJob

theorem ackCancels_msgs (gid : Nat) (s : State) : (ackCancels gid s).work.msgs = s.work.msgs := by
  unfold ackCancels
  split
  · rfl
  · split
    · rw [ackRest_only.work_eq]
      rfl
    · rfl

/-- A share that ends sends the completion message of its job (R154). -/
theorem shareEnd_sends {u : Nat} {s : State} {run : Run} (h : (unitSt s u).cur = some run) (code : Nat) :
    ∃ m ∈ (shareEnd u code s).work.msgs, m.gid = run.gid ∧ m.num = run.num ∧ m.code = code ∧ m.finish = now s := by
  simp only [shareEnd, h, ackCancels_msgs]
  exact ⟨_, List.mem_append_right _ List.mem_cons_self, rfl, rfl, rfl, rfl⟩

/-- The job of a core ends at once where the host link has accepted its writes (R157). -/
theorem endCoreJob_sends {n : Nat} {s : State} {c : Core} {run : Run} (hc : tfind n s.sage.cores = some c) (hm : c.maint = false)
    (hcur : (unitSt s n).cur = some run) (hwrites : jobWritesOver s run.gid run.num = true) (code : Nat) :
    (unitSt (endCoreJob n code s) n).cur = none ∧
      ∃ m ∈ (endCoreJob n code s).work.msgs, m.gid = run.gid ∧ m.num = run.num ∧ m.code = code ∧ m.finish = now s := by
  have hstop : Only [.obj, .host, .sage] s (coreStop n (dropXferReads n s)) := dropXferReads_only.mono.trans coreStop_only.mono
  have hcur' : (unitSt (coreStop n (dropXferReads n s)) n).cur = some run := by
    rw [unitSt, hstop.work_eq]
    exact hcur
  have hwrites' : jobWritesOver (coreStop n (dropXferReads n s)) run.gid run.num = true := by
    have hwaits : (coreStop n (dropXferReads n s)).host.waits = s.host.waits := by rw [coreStop_only.host_eq]; rfl
    rw [jobWritesOver, hwaits]
    exact hwrites
  have hnow : now (coreStop n (dropXferReads n s)) = now s := by rw [now, hstop.tim_eq, now]
  have hend : endCoreJob n code s = shareEnd n code (coreStop n (dropXferReads n s)) := by
    simp only [endCoreJob_job hc hm, stopShare, hcur', hwrites']
    rfl
  rw [hend, ← hnow]
  exact ⟨(shareEnd_facts hcur' code).1, shareEnd_sends hcur' code⟩

/-! ### A yield point passes -/

/-- The core and its coprocessor after a yield point, before the dispatch decision. -/
def atYieldPoint (n : Nat) (s : State) : State := modCore n (fun c => { c with claimAtYield := holdsClaim s n }) (yieldPoint n s)

theorem atYieldPoint_only {n : Nat} {s : State} : Only [.sage] s (atYieldPoint n s) := yieldPoint_only.trans modCore_only

/-- The record of a core after a yield point. -/
def Core.yielded (c : Core) (t : Nat) (claim : Bool) : Core := { c with lastYield := t, vUsed := false, claimAtYield := claim }

theorem tfind_atYieldPoint {n : Nat} {s : State} {c : Core} (hc : tfind n s.sage.cores = some c) :
    tfind n (atYieldPoint n s).sage.cores = some (c.yielded (now s) (holdsClaim s n)) := by
  have hcores : (atYieldPoint n s).sage.cores =
    tmod (tmod s.sage.cores n {} fun c => { c with lastYield := now s, vUsed := false }) n {} fun c => { c with claimAtYield := holdsClaim s n } := rfl
  rw [hcores, tmod_of_tfind hc, tmod_of_tfind (tfind_tset_self ..), tset_tset_self, tfind_tset_self]
  rfl

theorem holdsClaim_atYieldPoint (n : Nat) (s : State) : holdsClaim (atYieldPoint n s) n = holdsClaim s n :=
  holdsClaim_dropRequest n _

/-- The idle count of the vector unit starts again. -/
theorem idleFrom_atYieldPoint (n : Nat) (s : State) : (vecOf (atYieldPoint n s) n).idleFrom = now s := by
  have hvecs : vecOf (atYieldPoint n s) n = vecOf (restartIdle n s) n := rfl
  rw [hvecs, restartIdle, vecOf_modVec_self]

/-- The request bit of the core clears. -/
theorem requests_atYieldPoint (n : Nat) (s : State) : n % 9 ∉ (cmcOf (atYieldPoint n s) (n / 9)).requests := by
  have hcmcs : cmcOf (atYieldPoint n s) (n / 9) = cmcOf (dropRequest n s) (n / 9) := rfl
  rw [hcmcs, dropRequest, cmcOf_modCmc_self]
  simp

/-! ### The dispatch decision -/

/-- The claim is revoked at this yield point (Table 7-14). -/
def revokedAtYield (n : Nat) (c : Core) (s : State) : Bool :=
  holdsClaim s n && (!(c.maint || bitAt (progRun s c.prog) 18) || c.claimAtYield)

/-- What a yield point decides: a pending cancel, then whether the job is preempted. -/
def yieldDecision (n t : Nat) (s : State) : State :=
  match (unitSt s n).cur, tfind n s.sage.cores with
  | some run, some c =>
    if c.maint then s
    else if run.cancel then endCoreJob n (requestCode s run.gid) s
    else if betterWaits s n run.level && !holdsClaim s n && (unitSt s n).ctx.length < 3 then preempt n c run s
    else modUnit n (fun m => { m with cur := m.cur.map fun r => { r with since := t } }) (segmentEnd n run s)
  | _, _ => s

theorem doYield_eq {n : Nat} {s : State} {c : Core} (hc : tfind n s.sage.cores = some c) :
    doYield n s = yieldDecision n (now s) (atYieldPoint n (if revokedAtYield n c s then cmcRevoke n s else s)) := by
  simp only [doYield, hc]
  rfl

section Decision
variable {n t : Nat} {s : State} {c : Core} {run : Run} (hc : tfind n s.sage.cores = some c)
include hc

theorem yieldDecision_maint (hm : c.maint = true) : yieldDecision n t s = s := by
  unfold yieldDecision
  split
  · next c' _ hc' =>
    obtain rfl : c = c' := Option.some.inj (hc.symm.trans hc')
    exact if_pos hm
  · rfl

variable (hm : c.maint = false) (hcur : (unitSt s n).cur = some run) (hcancel : run.cancel = false)
include hm hcur hcancel

theorem yieldDecision_goes_on (hbetter : betterWaits s n run.level = false) : yieldDecision n t s =
    modUnit n (fun m => { m with cur := m.cur.map fun r => { r with since := t } }) (segmentEnd n run s) := by
  simp only [yieldDecision, hcur, hc, hm, hcancel, hbetter]
  rfl

theorem yieldDecision_preempts (hbetter : betterWaits s n run.level = true) (hclaim : holdsClaim s n = false)
    (hroom : (unitSt s n).ctx.length < 3) : yieldDecision n t s = preempt n c run s := by
  simp only [yieldDecision, hcur, hc, hm, hcancel, hbetter, hclaim, hroom]
  rfl

end Decision

/-- A job with one more preemption. -/
def preemptCounted (r : JobRt) : JobRt := { r with preempts := r.preempts + 1 }

/-- The work when a job was preempted, before its unit and core are free. -/
def preemptNoted (n : Nat) (run : Run) (s : State) : State :=
  bump (kDiDispatchStats 1) (modRt run.gid run.num preemptCounted (noteFinish n run (segmentEnd n run s)))

theorem preemptNoted_only {n : Nat} {run : Run} {s : State} : Only [.obj, .work] s (preemptNoted n run s) :=
  segmentEnd_only.trans (noteFinish_only.mono.trans (modRt_only.mono.trans bump_only.mono))

theorem preemptNoted_runsKept (n : Nat) (run : Run) (s : State) : RunsKept s (preemptNoted n run s) :=
  (segmentEnd_runsKept n run s).trans ((noteFinish_runsKept n run _).trans ((runsKept_modRt _).trans bump_only.runsKept))

/-- The context of a core is saved. -/
def saveCtx (n : Nat) (c : Core) (s : State) : State :=
  { s with sage := { s.sage with cores := tdel n s.sage.cores, ctxs := s.sage.ctxs ++ [(n, c)] } }

/-- The unit is free and holds the job's context. -/
def preempted (n : Nat) (c : Core) (run : Run) (s : State) : State :=
  modUnit n (fun m => { m with cur := none, ctx := m.ctx ++ [run] }) (saveCtx n c (preemptNoted n run s))

/-- The job of a preempted core returns to its list, where it still is in the device. -/
theorem preempt_returns (n : Nat) (c : Core) (run : Run) (s : State) :
    preempt n c run s = preempted n c run s ∨ ∃ e, preempt n c run s = returnEntry e (preempted n c run s) := by
  unfold preempt
  dsimp only
  split
  · exact .inr ⟨_, rfl⟩
  · exact .inl rfl

/-- A job that is preempted leaves its core, which keeps its context (R149). -/
theorem preempt_facts (n : Nat) (c : Core) (run : Run) (s : State) :
    (preempt n c run s).sage = (saveCtx n c s).sage ∧ (unitSt (preempt n c run s) n).cur = none ∧
      (unitSt (preempt n c run s) n).ctx = (unitSt s n).ctx ++ [run] := by
  have hsage : (preempted n c run s).sage = (saveCtx n c s).sage := by
    have hnoted : (preempted n c run s).sage = (saveCtx n c (preemptNoted n run s)).sage := rfl
    rw [hnoted, saveCtx, preemptNoted_only.sage_eq, saveCtx]
  have hunit : unitSt (preempted n c run s) n = { unitSt s n with cur := none, ctx := (unitSt s n).ctx ++ [run] } := by
    have hsaved : unitSt (saveCtx n c (preemptNoted n run s)) n = unitSt s n := (preemptNoted_runsKept n run s).unitSt n
    rw [preempted, unitSt_modUnit_self, hsaved]
  obtain h | ⟨e, h⟩ := preempt_returns n c run s
  · rw [h, hunit]
    exact ⟨hsage, rfl, rfl⟩
  · rw [h, (returnEntry_runsKept e _).unitSt, hunit, returnEntry_only.sage_eq]
    exact ⟨hsage, rfl, rfl⟩

theorem holdsClaim_preempt (n : Nat) (c : Core) (run : Run) (s : State) : holdsClaim (preempt n c run s) n = holdsClaim s n :=
  holdsClaim_of_cmcs (by rw [(preempt_facts n c run s).1]; rfl) n

/-- Whatever a yield point decides, the core has no claim after it where it had none. -/
theorem holdsClaim_yieldDecision {n t : Nat} {s : State} (h : holdsClaim s n = false) : holdsClaim (yieldDecision n t s) n = false := by
  unfold yieldDecision
  split
  · next run c hcur hc =>
    split
    · exact h
    · split
      · exact holdsClaim_endCoreJob hc _
      · split
        · exact (holdsClaim_preempt n c run s).trans h
        · exact (holdsClaim_of_cmcs (congrArg SageSt.cmcs segmentEnd_only.sage_eq) n).trans h
  · exact h

/-- A core whose claim is revoked at a yield point has none after it. -/
theorem holdsClaim_doYield {n : Nat} {s : State} {c : Core} (hc : tfind n s.sage.cores = some c) (h : revokedAtYield n c s = true) :
    holdsClaim (doYield n s) n = false := by
  rw [doYield_eq hc, if_pos h]
  exact holdsClaim_yieldDecision ((holdsClaim_atYieldPoint n _).trans (holdsClaim_cmcRevoke n s))

/-! ### YIELD and END -/

section Word
variable {core : CoreId} {w : Word} {c : Core} {s : State} (h : Alone core w c s) (hop : wOp w.toNat = 0x00) (hok : ctrlOk w.toNat = true)
  (hxfers : c.xfers = [])
include h hop hok hxfers

theorem exec_yield (hfn : fld w.toNat 21 5 = 1) : exec (.yield core w) s = .next (doYield core.val (putCore core c.next s)) := by
  have hlisted : listedWord w.toNat = true := by simp [listedWord, hop, hfn]
  have hword : isCtrl 1 w.toNat = true := by simp [isCtrl, hop, hfn]
  change execYield core w s = .next (applyWrite core.val .yield (putCore core c.next s))
  refine issue_alone_one h hlisted hword ?stall ?makes
  case stall => simp [loneCtx, hxfers]
  case makes => exact if_pos hok

theorem exec_sageEnd (hfn : fld w.toNat 21 5 = 2) (hwrites : jobWritesOver s c.gid c.num = true) :
    exec (.sageEnd core w) s = .next (doFinish core.val (putCore core c.next s)) := by
  have hlisted : listedWord w.toNat = true := by simp [listedWord, hop, hfn]
  have hword : isCtrl 2 w.toNat = true := by simp [isCtrl, hop, hfn]
  change execEnd core w s = .next (applyWrite core.val .finish (putCore core c.next s))
  refine issue_alone_one h hlisted hword ?stall ?makes
  case stall => simp [loneCtx, hxfers, hwrites]
  case makes => exact if_pos hok

/-- The dispatch decision of a YIELD without the claim. -/
theorem exec_yield_unclaimed (hfn : fld w.toNat 21 5 = 1) (hclaim : holdsClaim s core.val = false) :
    exec (.yield core w) s = .next (yieldDecision core.val (now s) (atYieldPoint core.val (putCore core c.next s))) := by
  have hkept : ¬revokedAtYield core.val c.next (putCore core c.next s) = true := by
    have hput : holdsClaim (putCore core c.next s) core.val = false := hclaim
    simp [revokedAtYield, hput]
  rw [exec_yield h hop hok hxfers hfn, doYield_eq (tfind_putCore core c.next s), if_neg hkept]
  rfl

/-- A core that goes on from a yield point (R147, R236): a firmware program, or a job that is neither cancelled nor preempted. -/
theorem yield_goes_on (hfn : fld w.toNat 21 5 = 1) (hclaim : holdsClaim s core.val = false)
    (hgo : c.maint = true ∨ ∃ run, (unitSt s core.val).cur = some run ∧ run.cancel = false ∧ betterWaits s core.val run.level = false) :
    ∃ t, exec (.yield core w) s = .next t ∧ Only [.obj, .work, .sage] s t ∧
      t.sage = (atYieldPoint core.val (putCore core c.next s)).sage := by
  rw [exec_yield_unclaimed h hop hok hxfers hfn hclaim]
  have hcore := tfind_atYieldPoint (tfind_putCore core c.next s)
  have hyield : Only [.sage] s (atYieldPoint core.val (putCore core c.next s)) := putCore_only.trans atYieldPoint_only
  refine ⟨_, rfl, ?_⟩
  cases hm : c.maint with
  | true =>
    rw [yieldDecision_maint hcore hm]
    exact ⟨hyield.mono, rfl⟩
  | false =>
    obtain hmaint | ⟨run, hcur, hcancel, hbetter⟩ := hgo
    · exact absurd (hm.symm.trans hmaint) Bool.false_ne_true
    · rw [yieldDecision_goes_on hcore hm hcur hcancel hbetter]
      exact ⟨hyield.mono.trans (segmentEnd_only.mono.trans modUnit_only.mono), segmentEnd_only.sage_eq⟩

/-- A job that a better one waits for is preempted (R147, R149). -/
theorem yield_preempts (hfn : fld w.toNat 21 5 = 1) (hclaim : holdsClaim s core.val = false) (hm : c.maint = false) {run : Run}
    (hcur : (unitSt s core.val).cur = some run) (hcancel : run.cancel = false) (hbetter : betterWaits s core.val run.level = true)
    (hroom : (unitSt s core.val).ctx.length < 3) :
    exec (.yield core w) s = .next (preempt core.val (c.next.yielded (now s) false) run (atYieldPoint core.val (putCore core c.next s))) := by
  have hput : holdsClaim (putCore core c.next s) core.val = false := hclaim
  have hcore := tfind_atYieldPoint (tfind_putCore core c.next s)
  rw [hput] at hcore
  rw [exec_yield_unclaimed h hop hok hxfers hfn hclaim,
    yieldDecision_preempts hcore hm hcur hcancel hbetter ((holdsClaim_atYieldPoint ..).trans hput) hroom]
  rfl

/-- END ends the job of the core with the code the job has so far (R235). -/
theorem sageEnd_ends (hfn : fld w.toNat 21 5 = 2) (hwrites : jobWritesOver s c.gid c.num = true) :
    exec (.sageEnd core w) s =
      .next (endCoreJob core.val (((jobRt s c.gid c.num).map (·.code)).getD 0) (putCore core c.next s)) := by
  rw [exec_sageEnd h hop hok hxfers hfn hwrites]
  simp only [doFinish, tfind_putCore]
  rfl

end Word

/-- Settles O14: a core without the claim goes on or is preempted, a yield point takes a claim that is not to be kept, and END sends the job's
completion message. -/
theorem sageYieldAndEnd : Obligations.SageYieldAndEnd := by
  unfold Obligations.SageYieldAndEnd
  intro core w c s h hop hok hxfers n
  obtain ⟨hcore, hjob⟩ := coreRun_eq_some h.run
  have hput := tfind_putCore core c.next s
  refine ⟨fun hfn hclaim hgo => ?goesOn, fun hfn hclaim hm run hcur hcancel hbetter hroom => ?preempted, fun hfn hclaim hrevoke => ?revoked,
    fun hfn hwrites => ?ended⟩
  case goesOn =>
    obtain ⟨t, ht, honly, hsage⟩ := yield_goes_on h hop hok hxfers hfn hclaim hgo
    have hidle := idleFrom_atYieldPoint core.val (putCore core c.next s)
    have hrequests := requests_atYieldPoint core.val (putCore core c.next s)
    have hyielded := tfind_atYieldPoint hput
    have hunclaimed : holdsClaim (putCore core c.next s) core.val = false := hclaim
    rw [hunclaimed] at hyielded
    refine ⟨t, ht, honly, ?_⟩
    rw [vecOf, cmcOf, hsage]
    exact ⟨hyielded, hidle, hrequests⟩
  case preempted =>
    obtain ⟨hsage, hcur', hctx⟩ := preempt_facts core.val (c.next.yielded (now s) false) run (atYieldPoint core.val (putCore core c.next s))
    refine ⟨_, c.next.yielded (now s) false, yield_preempts h hop hok hxfers hfn hclaim hm hcur hcancel hbetter hroom,
      putCore_only.mono.trans (atYieldPoint_only.mono.trans preempt_only), ?_, ?_, rfl, rfl, rfl, rfl, rfl, hcur', hctx⟩
    · rw [hsage]
      exact tfind_tdel_self ..
    · rw [hsage]
      rfl
  case revoked =>
    refine ⟨_, exec_yield h hop hok hxfers hfn, holdsClaim_doYield hput ?_⟩
    have hput' : holdsClaim (putCore core c.next s) core.val = true := hclaim
    rw [revokedAtYield, hput', Bool.true_and, Bool.or_eq_true]
    exact hrevoke.imp_left fun ⟨hm, hmark⟩ => by
      have hmark' : bitAt (progRun (putCore core c.next s) c.next.prog) 18 = false := hmark
      have hm' : c.next.maint = false := hm
      rw [hm', hmark']
      rfl
  case ended =>
    refine ⟨_, sageEnd_ends h hop hok hxfers hfn hwrites, putCore_only.mono.trans endCoreJob_only, holdsClaim_endCoreJob hput _,
      fun hm => tfind_endCoreJob_maint hput hm _, fun hm => ⟨tfind_endCoreJob_job hput hm _, fun g r hg hr => ?_⟩⟩
    obtain ⟨run, hcur, hgid, hnum⟩ := hjob hm
    obtain ⟨hfree, m, hin, hmgid, hmnum, hcode, hfinish⟩ := endCoreJob_sends (run := run) hput hm hcur (by rw [hgid, hnum]; exact hwrites)
      (((jobRt s c.gid c.num).map (·.code)).getD 0)
    refine ⟨hfree, m, hin, hmgid.trans hgid, (hmnum.trans hnum).trans (jobRt_num hr).symm, ?_, hfinish⟩
    rw [hcode, hr]
    rfl

end Sys2Proof.Machine
end

section
/-!
PROOFS. The third slice overrun of a core within 1 s while the host link still holds writes of its job: flow 1 of Table 20-10 resets the core at
once (R689) and the unit's run goes with it, so the claim that the run stays, to end INVALID_DESCRIPTOR once its writes are accepted, does not
hold.
-/
namespace Sys2Proof.Machine

open Sys2Proof.Tests

/-- The job of core 1 whose slice ran out, a write of it that waits in the host link, and two overruns of the core less than 1 s ago. -/
def thirdOverrun : State :=
  { job1Late with
    work := { job1Late.work with units := [(1, { cur := some run0, overruns := [0, 0] })] }
    host := { job1Late.host with waits := [(0, .write 0 [1] (some (0, 0)))] } }

/-- NOP, alone in its bundle. -/
def nopWord : Word := word []

theorem nopWord_lone : Lone 1 nopWord coreJob thirdOverrun := ⟨by decide, rfl, by decide, by rfl⟩

theorem nopWord_fields : wOp nopWord.toNat = 0x00 ∧ fld nopWord.toNat 21 5 = 0 ∧ ctrlOk nopWord.toNat = true := by decide

theorem thirdOverrun_job : graphOf thirdOverrun coreJob.gid = some graph0 ∧ jobRt thirdOverrun coreJob.gid coreJob.num = graph0.rts.head? ∧
    sliceOver thirdOverrun 1 coreJob (now thirdOverrun) = true ∧ jobWritesOver thirdOverrun coreJob.gid coreJob.num = false := by decide +kernel

/-- What a unit runs after a command. -/
def curAfter (r : Res) (u : Nat) : Option Run :=
  match r with
  | .next t => (unitSt t u).cur
  | _ => none

/-- The core's unit runs nothing after the overrun. -/
theorem curAfter_thirdOverrun : curAfter (exec (.nop 1 nopWord) thirdOverrun) 1 = none := by decide +kernel

/-- Refutes O15: NOP meets the slice limit in `thirdOverrun`, where a write of the job waits, and no run is left to end INVALID_DESCRIPTOR. -/
theorem not_sageExceptionsEndTheJob : ¬ Obligations.SageExceptionsEndTheJob := by
  unfold Obligations.SageExceptionsEndTheJob
  intro h
  obtain ⟨hgraph, hjob, hslice, hwrites⟩ := thirdOverrun_job
  obtain ⟨hop, hfn, hok⟩ := nopWord_fields
  obtain ⟨hover, -⟩ := h 1 nopWord coreJob thirdOverrun graph0 _ nopWord_lone rfl hgraph hjob
  obtain ⟨-, hnop⟩ := hover hslice
  obtain ⟨t, hexec, -, -, -, -, hheld⟩ := hnop hop hfn hok
  obtain ⟨run, hcur, -⟩ := hheld hwrites
  have hgone := curAfter_thirdOverrun
  rw [hexec] at hgone
  exact Option.some_ne_none run (hcur.symm.trans hgone)

end Sys2Proof.Machine
end

section
/-!
PROOFS. What the owner sets for tenants: their control (R177), carrier instances (R178), budgets and flows (R186, R188), mode (R202) and
dedicated units (R190).
-/
namespace Sys2Proof.Machine

-- Proofs elaborated side by side each hold a stack of their own, and the whole text stands near the memory that a check may take.
set_option Elab.async false

/-! ### Answers to writes -/

/-- A write in force, its frame given by the command's own. -/
theorem accepts_of_runs {s u : State} {i : Instr} {l : List Part} {P : State → Prop} (hruns : Runs l s (exec i s))
    (h : exec i s = answer (accepted u)) (hp : P (send (.reply 0) u)) : Accepts s i l P :=
  hruns.gives (t := send (.reply 0) u) h ⟨by simp [send], hp⟩

/-! ### Control (R177) -/

section Control
variable {t : Nat} {s : State}

theorem wControl_owner (v : Nat) (s : State) : wControl 0 v s = refusedW .state s := if_pos rfl

theorem wControl_enable_refused (hst : tenantState s t = 0) (hfn : fnEnabled s t = false) : wControl t 1 s = refusedW .state s := by
  simp [wControl, hst, hfn]

theorem wControl_enable (h0 : t ≠ 0) (h : tenantState s t ≠ 0 ∨ fnEnabled s t = true) : wControl t 1 s = accepted (wr (kTeState t) 1 s) := by
  rcases h with h | h <;> simp [wControl, h0, h]

theorem wControl_disable_not_enabled (h0 : t ≠ 0) (hst : tenantState s t ≠ 1) : wControl t 2 s = accepted s := by
  simp [wControl, h0, hst]

theorem wControl_disable_drains (h0 : t ≠ 0) (hst : tenantState s t = 1) (hg : hasGraphs s t = true) :
    wControl t 2 s = accepted (wr (kTeState t) 2 s) := by
  simp [wControl, h0, hst, hg]

theorem wControl_disable (h0 : t ≠ 0) (hst : tenantState s t = 1) (hg : hasGraphs s t = false) :
    wControl t 2 s = accepted (disableTenant t s) := by
  simp [wControl, h0, hst, hg]

end Control

/-- A state written for a tenant, and no other object. -/
theorem accepts_tenantState {t : TenantId} {s : State} {i : Instr} {v : Nat} (h : exec i s = answer (accepted (wr (kTeState t.val) v s))) :
    Accepts s i [.obj, .out] fun u => rd u (kTeState t.val) = v ∧ Keeps [kTeState t.val] s u :=
  accepts_of_written h (wr_only.mono.trans send_only.mono) ⟨rd_wr_self .., (keeps_wr _ _ _).send _⟩

/-- A tenant disabled holds no vote, and no charge of a window to come (Table 5-1). -/
theorem disableTenant_facts (t : Nat) (s : State) : rd (disableTenant t s) (kTeState t) = 0 ∧
    (∀ v ∈ (disableTenant t s).pow.votes, v.client ≠ .tenant t) ∧
    ∀ e ∈ (disableTenant t s).work.charged, s.work.window < e.1 / 8192 → e.1 / 16 % 512 ≠ t := by
  refine ⟨rd_wr_self .., fun v hv => ?_, fun e he hwindow => ?_⟩
  · obtain ⟨-, hclient⟩ := mem_dropVotes.mp hv
    simpa using hclient
  · obtain ⟨-, hkept⟩ := List.mem_filter.mp he
    simpa [hwindow] using hkept

/-! ### Carrier instances (R178) -/

/-- A CI given to a tenant, before the records that wait for it are applied. -/
def ciGiven (t c : Nat) (s : State) : State := { s with work := { s.work with ciOwner := tset c t s.work.ciOwner } }

section CiAssign
variable {t c : Nat} {s : State}

theorem wCiAssign_not_enabled (h : tenantState s t ≠ 1) : wCiAssign t c s = refusedW .state s := if_pos h

theorem wCiAssign_refused (h : tenantState s t = 1) (hbad : 511 < c ∨ ciTenant s c ≠ none ∨ ciValid (ciDesc s c) = false) :
    wCiAssign t c s = refusedW .range s := by
  have hany : (511 < c || (ciTenant s c).isSome || !ciValid (ciDesc s c)) = true := by
    simpa [Option.isSome_iff_ne_none, or_assoc] using hbad
  rw [wCiAssign, if_neg (not_not.mpr h), if_pos hany]

theorem wCiAssign_accepted (h : tenantState s t = 1) (hc : c ≤ 511) (hfree : ciTenant s c = none) (hvalid : ciValid (ciDesc s c) = true) :
    wCiAssign t c s = accepted (applyPending c (ciGiven t c s)) := by
  have hgood : ¬(511 < c || (ciTenant s c).isSome || !ciValid (ciDesc s c)) = true := by simp [hc, hfree, hvalid]
  rw [wCiAssign, if_neg (not_not.mpr h), if_neg hgood, ciGiven]

/-- With no record that waits for the CI nothing is applied. -/
theorem applyPending_none (h : ∀ r ∈ s.dict.pendingRecords, recordCi s.dict.pendingRecords r ≠ some c) : applyPending c s = s := by
  have hmine : (s.dict.pendingRecords.filter fun r => recordCi s.dict.pendingRecords r == some c) = [] :=
    List.filter_eq_nil_iff.mpr fun r hr => by simpa using h r hr
  have hrest : (s.dict.pendingRecords.filter fun r => !([] : List ParamRecord).contains r) = s.dict.pendingRecords :=
    List.filter_eq_self.mpr fun r _ => by simp
  unfold applyPending
  simp only [hmine, hrest, List.filter_nil]
  rfl

theorem ciTenant_ciGiven_self : ciTenant (ciGiven t c s) c = some t := tfind_tset_self ..
theorem ciTenant_ciGiven_ne {x : Nat} (h : x ≠ c) : ciTenant (ciGiven t c s) x = ciTenant s x := tfind_tset_ne h ..

theorem wCiRemove_refused (h : ciTenant s c ≠ some t) : wCiRemove t c s = refusedW .range s := if_pos h
theorem wCiRemove_accepted (h : ciTenant s c = some t) : wCiRemove t c s = accepted (removeCi t c (endCiGraphs c s)) := if_neg (not_not.mpr h)

end CiAssign

/-- A CI assigned while no record waits for it: it is the tenant's, and every other CI stays where it was. -/
theorem ciAssign_without_records {t : TenantId} {c : BitVec 16} {s : State}
    (h : exec (.ciAssign t c) s = answer (accepted (applyPending c.toNat (ciGiven t.val c.toNat s))))
    (hnone : ∀ r ∈ s.dict.pendingRecords, recordCi s.dict.pendingRecords r ≠ some c.toNat) :
    Accepts s (.ciAssign t c) [.work, .out] fun u => ciTenant u c.toNat = some t.val ∧ ∀ x, x ≠ c.toNat → ciTenant u x = ciTenant s x := by
  rw [applyPending_none (s := ciGiven t.val c.toNat s) hnone] at h
  have hgiven : Only [.work] s (ciGiven t.val c.toNat s) := Only.upd (Only.refl s)
  exact accepts_of_written h (hgiven.mono.trans send_only.mono) ⟨ciTenant_ciGiven_self, fun x hx => ciTenant_ciGiven_ne hx⟩

/-! ### Budgets and flows (R186 to R188) -/

/-- What a budget write stores: a tier quota is rounded down to its tier's unit. -/
def budgetStored (k v : Nat) : Nat := if 14 ≤ k then v / tierUnit (k - 14) * tierUnit (k - 14) else v

section Budget
variable {t k v : Nat} {s : State}

theorem wBudget_refused (hrise : rd s (budgetKey t k) < budgetStored k v)
    (hover : kindCapacity s k < kindAdmitted s k - rd s (budgetKey t k) + budgetStored k v) : wBudget t k v s = refusedW .range s := by
  unfold budgetStored at hrise hover
  simp [wBudget, hrise, hover]

theorem wBudget_accepted (h : budgetStored k v ≤ rd s (budgetKey t k) ∨
      kindAdmitted s k - rd s (budgetKey t k) + budgetStored k v ≤ kindCapacity s k) :
    wBudget t k v s = accepted (overcommitCheck (wr (budgetKey t k) (budgetStored k v) s)) := by
  unfold budgetStored at h ⊢
  refine if_neg fun hboth => ?_
  simp only [Bool.and_eq_true, decide_eq_true_eq] at hboth
  omega

theorem overcommitCheck_keeps (s : State) : Keeps eventCounters s (overcommitCheck s) := by
  unfold overcommitCheck
  refine Keeps.each (fun k t => ?_) _ s
  dsimp only
  split
  · refine Keeps.trans ?_ (ownerEvent_keeps _ _ _)
    exact Keeps.of_obj rfl
  · split
    · refine Keeps.trans ?_ (ownerEvent_keeps _ _ _)
      exact Keeps.of_obj rfl
    · exact Keeps.refl _ t

/-- The budgets stand above every counter that an event moves. -/
theorem budgetKey_not_mem_eventCounters (t k : Nat) : budgetKey t k ∉ eventCounters := by
  have hlow : ∀ j ∈ eventCounters, j < okey 0x8001 0 := by decide
  have hhigh : okey 0x8001 0 ≤ budgetKey t k := by
    unfold budgetKey kTeSageUs kTeEngineUs kTeDmaUs kTeDramTokens kTeNocSlots kTeQuota okey
    split_ifs <;> omega
  exact fun hmem => absurd (hlow _ hmem) (not_lt.mpr hhigh)

theorem rd_overcommitCheck_budgetKey (t k v : Nat) (s : State) : rd (overcommitCheck (wr (budgetKey t k) v s)) (budgetKey t k) = v :=
  (overcommitCheck_keeps _ _ (budgetKey_not_mem_eventCounters t k)).trans (rd_wr_self ..)

end Budget

/-- The flow limits over the tenants that share a tenant's slice (R188). -/
def sliceFlowLimits (t : Nat) (s : State) : Nat := sumBy (tenants.filter fun x => x % 4 == t % 4) fun x => rd s (kTeFlowLimit x)

section FlowLimit
variable {t v : Nat} {s : State}

theorem wFlowLimit_refused (h : 1024 < v ∨ (rd s (kTeFlowLimit t) < v ∧ 1024 < sliceFlowLimits t s - rd s (kTeFlowLimit t) + v)) :
    wFlowLimit t v s = refusedW .range s := by
  unfold sliceFlowLimits at h
  refine if_pos ?_
  simpa only [Bool.or_eq_true, Bool.and_eq_true, decide_eq_true_eq] using h

theorem wFlowLimit_accepted (hmax : v ≤ 1024) (h : v ≤ rd s (kTeFlowLimit t) ∨ sliceFlowLimits t s - rd s (kTeFlowLimit t) + v ≤ 1024) :
    wFlowLimit t v s = accepted (wr (kTeFlowLimit t) v s) := by
  unfold sliceFlowLimits at h
  refine if_neg fun hbad => ?_
  simp only [Bool.or_eq_true, Bool.and_eq_true, decide_eq_true_eq] at hbad
  omega

end FlowLimit

/-! ### Mode and pin policy (R202) -/

theorem exec_tenantMode (t : TenantId) (pin : Bool) (v : Byte) (s : State) : exec (.tenantMode t pin v) s = answer (wTenantMode t.val pin v.toNat s) := rfl

/-- The object that TENANT_MODE writes: PIN_POLICY or MODE. -/
def modeKey (t : Nat) (pin : Bool) : Nat := if pin then kTePinPolicy t else kTeMode t

section Mode
variable {t v : Nat} {pin : Bool} {s : State}

theorem wTenantMode_refused (h : (if pin then 1 else 2) < v) : wTenantMode t pin v s = refusedW .range s := if_pos h

theorem wTenantMode_same (h : v ≤ if pin then 1 else 2) (hsame : rd s (modeKey t pin) = v) : wTenantMode t pin v s = accepted s := by
  rw [wTenantMode, if_neg (not_lt.mpr h)]
  exact if_pos hsame

theorem wTenantMode_changed (h : v ≤ if pin then 1 else 2) (hnew : rd s (modeKey t pin) ≠ v) :
    wTenantMode t pin v s = accepted (dropTemplates (fun x => x.tenant == t) (wr (modeKey t pin) v s)) := by
  rw [wTenantMode, if_neg (not_lt.mpr h)]
  exact if_neg hnew

end Mode

theorem tenantMode_accepted {t : TenantId} {pin : Bool} {v : Byte} {s : State} (h : v.toNat ≤ if pin then 1 else 2) :
    Accepts s (.tenantMode t pin v) [.obj, .work, .out] fun u => rd u (modeKey t.val pin) = v.toNat ∧ Keeps [modeKey t.val pin] s u ∧
      u.work = { s.work with templates := if rd s (modeKey t.val pin) = v.toNat then s.work.templates
        else s.work.templates.filter fun x => x.tenant != t.val } := by
  by_cases hsame : rd s (modeKey t.val pin) = v.toNat
  · refine accepts_of_runs execTenantMode_only (by rw [exec_tenantMode, wTenantMode_same h hsame]) ⟨hsame, (Keeps.refl _ s).send _, ?_⟩
    rw [if_pos hsame]
    rfl
  · refine accepts_of_runs (u := dropTemplates (fun x => x.tenant == t.val) (wr (modeKey t.val pin) v.toNat s)) execTenantMode_only
      (by rw [exec_tenantMode, wTenantMode_changed h hsame])
      ⟨rd_wr_self .., ((keeps_wr _ _ _).trans dropTemplates_only.keeps).send _, ?_⟩
    rw [if_neg hsame]
    rfl

/-! ### Dedicated units (R190) -/

/-- The unit may be dedicated to a CI of the tenant: it stands in service for shared use, and the shared capacity can spare it. -/
def Dedicable (s : State) (t ci x : Nat) : Prop :=
  (unitSt s x).fenced = false ∧ roleFn (roleSoon s x) ≠ 2 ∧ roleFn (roleSoon s x) ≠ 3 ∧ roleShared (roleSoon s x) = true ∧ ci ≤ 511 ∧
    ciTenant s ci = some t ∧ breaksCapacity s x = false

section Dedicate
variable {t loc ci x : Nat} {s : State}

theorem wDedicate_bad_location (h : locValid loc = false) : wDedicate t loc ci s = refusedW .locInvalid s := by simp [wDedicate, h]
theorem wDedicate_no_unit (h : locValid loc = true) (hu : unitOf loc = none) : wDedicate t loc ci s = refusedW .range s := by
  simp [wDedicate, h, hu]

theorem wDedicate_refused (h : locValid loc = true) (hu : unitOf loc = some x) (hbad : ¬Dedicable s t ci x) :
    wDedicate t loc ci s = refusedW .range s := by
  simp only [wDedicate, h, hu, Bool.not_true, Bool.false_eq_true, if_false]
  refine if_pos (Classical.by_contradiction fun hno => hbad ?_)
  simpa [Dedicable, and_assoc] using hno

theorem wDedicate_accepted (h : locValid loc = true) (hu : unitOf loc = some x) (hok : Dedicable s t ci x) :
    wDedicate t loc ci s = accepted (wantRole x (mkRole (roleFn (roleSoon s x)) false ci t) s) := by
  obtain ⟨hfence, hout, hspare, hshared, hci, htenant, hcapacity⟩ := hok
  simp [wDedicate, h, hu, hfence, hout, hspare, hshared, hci, htenant, hcapacity]

theorem wReleaseUnit_bad_location (h : locValid loc = false) : wReleaseUnit t loc s = refusedW .locInvalid s := by simp [wReleaseUnit, h]
theorem wReleaseUnit_no_unit (h : locValid loc = true) (hu : unitOf loc = none) : wReleaseUnit t loc s = refusedW .range s := by
  simp [wReleaseUnit, h, hu]

theorem wReleaseUnit_refused (h : locValid loc = true) (hu : unitOf loc = some x) (hx : x ∉ dedicatedUnits s t) :
    wReleaseUnit t loc s = refusedW .range s := by
  simp [wReleaseUnit, h, hu, hx]

theorem wReleaseUnit_accepted (h : locValid loc = true) (hu : unitOf loc = some x) (hx : x ∈ dedicatedUnits s t) :
    wReleaseUnit t loc s = accepted (wantRole x (mkRole (roleFn (roleSoon s x)) true 0 0) s) := by
  simp [wReleaseUnit, h, hu, hx]

end Dedicate

/-- A write that asks for a role of one unit: the role falls due, and every other unit is as it was. -/
theorem accepts_wantRole {s : State} {i : Instr} {x w : Nat} (h : exec i s = answer (accepted (wantRole x w s))) :
    Accepts s i [.work, .out] fun u => unitSt u x = { unitSt s x with nextRole := some w } ∧ ∀ y, y ≠ x → unitSt u y = unitSt s y :=
  accepts_of_written h (wantRole_only.mono.trans send_only.mono) ⟨unitSt_modUnit_self .., fun _ hy => unitSt_modUnit_ne hy ..⟩

/-- Settles O35: a command answers what the write it stands for gives, and each clause is the lemma above about that write. -/
theorem tenantObjects : Obligations.TenantObjects := by
  unfold Obligations.TenantObjects
  refine ⟨fun t s => ⟨fun h => ?owner, fun _ hst hfn => ?enableRefused, fun h0 h => ?enables, fun h0 hst => ?disabledAlready,
      fun h0 hst hg => ?drains, fun h0 hst hg => ?disables⟩,
    fun t c s => ⟨fun h => ?notEnabled, fun h hbad => ?assignRefused, fun h hc hfree hvalid => ?assigns, fun h => ?removeRefused, fun h => ?removes⟩,
    fun t k v s => ⟨fun hrise hover => ?overCapacity, fun h => ?budgets⟩, fun t v s => ⟨fun h => ?overFlows, fun hmax h => ?flows⟩,
    fun t pin v s => ⟨fun h => ?modeRefused, tenantMode_accepted⟩,
    fun t loc ci s => ⟨fun h => ⟨?dedicateNowhere, ?releaseNowhere⟩, fun h hu => ⟨?dedicateNoUnit, ?releaseNoUnit⟩,
      fun x h hu => ⟨fun hok => ?dedicates, fun hbad => ?notDedicable, fun hx => ?releases, fun hx => ?notDedicated⟩⟩⟩
  case owner =>
    obtain rfl : t = 0 := Fin.ext h
    exact ⟨congrArg answer (wControl_owner 1 s), congrArg answer (wControl_owner 2 s)⟩
  case enableRefused => exact congrArg answer (wControl_enable_refused hst hfn)
  case enables => exact accepts_tenantState (congrArg answer (wControl_enable h0 h))
  case disabledAlready => exact accepts_of_written (congrArg answer (wControl_disable_not_enabled h0 hst)) send_only trivial
  case drains => exact accepts_tenantState (congrArg answer (wControl_disable_drains h0 hst hg))
  case disables => exact accepts_of_runs execTenantDisable_only (congrArg answer (wControl_disable h0 hst hg)) (disableTenant_facts t.val s)
  case notEnabled => exact congrArg answer (wCiAssign_not_enabled h)
  case assignRefused => exact congrArg answer (wCiAssign_refused h hbad)
  case assigns =>
    have hexec := congrArg answer (wCiAssign_accepted h hc hfree hvalid)
    exact ⟨hexec, ciAssign_without_records hexec⟩
  case removeRefused => exact congrArg answer (wCiRemove_refused h)
  case removes => exact congrArg answer (wCiRemove_accepted h)
  case overCapacity => exact congrArg answer (wBudget_refused hrise hover)
  case budgets =>
    have hstored := rd_overcommitCheck_budgetKey t.val k.val (budgetStored k.val v.toNat) s
    exact accepts_of_runs execBudgetWrite_only (congrArg answer (wBudget_accepted h)) ((rd_send ..).trans hstored)
  case overFlows => exact congrArg answer (wFlowLimit_refused (t := t.val) (s := s) h)
  case flows =>
    exact accepts_of_runs execFlowLimit_only (congrArg answer (wFlowLimit_accepted (t := t.val) (s := s) hmax h)) ⟨rd_wr_self .., (keeps_wr _ _ _).send _⟩
  case modeRefused => exact congrArg answer (wTenantMode_refused h)
  case dedicateNowhere => exact congrArg answer (wDedicate_bad_location h)
  case releaseNowhere => exact congrArg answer (wReleaseUnit_bad_location h)
  case dedicateNoUnit => exact congrArg answer (wDedicate_no_unit h hu)
  case releaseNoUnit => exact congrArg answer (wReleaseUnit_no_unit h hu)
  case dedicates => exact accepts_wantRole (congrArg answer (wDedicate_accepted h hu hok))
  case notDedicable => exact congrArg answer (wDedicate_refused h hu hbad)
  case releases => exact accepts_wantRole (congrArg answer (wReleaseUnit_accepted h hu hx))
  case notDedicated => exact congrArg answer (wReleaseUnit_refused h hu hx)

end Sys2Proof.Machine
end

section
/-!
PROOFS. A packed value after one of its fields was written.
-/
namespace Sys2Proof.Machine

set_option Elab.async false

/-- A value whose field of `w` bits at `lo` was written: the bits above as they were, the field's, the bits below as they were. -/
theorem setFld_eq_parts (x lo w v : Nat) : setFld x lo w v = 2 ^ lo * (2 ^ w * (x / 2 ^ lo / 2 ^ w) + v % 2 ^ w) + x % 2 ^ lo := by
  have hx : 2 ^ lo * (2 ^ w * (x / 2 ^ lo / 2 ^ w) + x / 2 ^ lo % 2 ^ w) + x % 2 ^ lo = x := by rw [Nat.div_add_mod, Nat.div_add_mod]
  rw [setFld_eq, Nat.mul_comm _ (2 ^ lo), Nat.mul_comm _ (2 ^ lo)]
  rw [Nat.mul_add] at hx ⊢
  omega

theorem testBit_setFld (x lo w v i : Nat) :
    (setFld x lo w v).testBit i = if lo ≤ i ∧ i < lo + w then v.testBit (i - lo) else x.testBit i := by
  rw [setFld_eq_parts, Nat.testBit_two_pow_mul_add _ (Nat.mod_lt _ (Nat.two_pow_pos lo)), Nat.testBit_mod_two_pow]
  by_cases hlo : i < lo
  · simp [hlo]
  rw [if_neg hlo, Nat.testBit_two_pow_mul_add _ (Nat.mod_lt _ (Nat.two_pow_pos w)), Nat.testBit_mod_two_pow]
  by_cases hw : i - lo < w
  · rw [if_pos hw, if_pos (by omega), decide_eq_true hw, Bool.true_and]
  · rw [if_neg hw, if_neg (by omega), Nat.testBit_div_two_pow, Nat.testBit_div_two_pow]
    congr 1
    omega

theorem testBit_fld (x lo w i : Nat) : (fld x lo w).testBit i = (decide (i < w) && x.testBit (lo + i)) := by
  rw [fld, Nat.testBit_mod_two_pow, Nat.testBit_shiftRight]

theorem fld_setFld_self (x lo w v : Nat) : fld (setFld x lo w v) lo w = v % 2 ^ w := by
  refine Nat.eq_of_testBit_eq fun i => ?_
  rw [testBit_fld, testBit_setFld, Nat.testBit_mod_two_pow, Nat.add_sub_cancel_left]
  by_cases hi : i < w <;> simp [hi]

/-- A field that shares no bit with the one written. -/
theorem fld_setFld_disjoint {lo w lo' w' : Nat} (h : lo' + w' ≤ lo ∨ lo + w ≤ lo') (x v : Nat) : fld (setFld x lo w v) lo' w' = fld x lo' w' := by
  refine Nat.eq_of_testBit_eq fun i => ?_
  rw [testBit_fld, testBit_fld, testBit_setFld]
  by_cases hi : i < w'
  · rw [if_neg (by omega)]
  · simp [hi]

/-- The fields of an array stand apart. -/
theorem fld_setFld_array {i j : Nat} (h : j ≠ i) (w x v : Nat) : fld (setFld x (w * i) w v) (w * j) w = fld x (w * j) w := by
  refine fld_setFld_disjoint ?_ x v
  rcases Nat.lt_or_gt_of_ne h with hlt | hgt
  · exact .inl (by simpa [Nat.mul_succ] using Nat.mul_le_mul_left w hlt)
  · exact .inr (by simpa [Nat.mul_succ] using Nat.mul_le_mul_left w hgt)

end Sys2Proof.Machine
end

section
/-!
PROOFS. The objects of the coding engines: the iteration cap of a tenant (R295), the quota and range of its soft buffers (R198, R307) and the
size of their region (R306).
-/
namespace Sys2Proof.Machine

set_option Elab.async false

/-! ### A value of a tenant's: the tenant in the lowest 16 bits, what it is given above (R295, R307) -/

theorem fld_tenant (t : BitVec 16) (x : Nat) : fld (t.toNat + 65536 * x) 0 16 = t.toNat := by
  simp only [fld, Nat.shiftRight_eq_div_pow]
  omega

theorem fld_given (t : BitVec 16) {w : Nat} (x : BitVec w) : fld (t.toNat + 65536 * x.toNat) 16 w = x.toNat := by
  have hshift : (t.toNat + 65536 * x.toNat) / 2 ^ 16 = x.toNat := by omega
  rw [fld, Nat.shiftRight_eq_div_pow, hshift, Nat.mod_eq_of_lt x.isLt]

/-! ### The iteration cap (R295) -/

section LddCap
variable {t : BitVec 16} {cap : Byte} {s : State}

theorem lddCapSet_refused (h : 512 ≤ t.toNat ∨ cap = 0 ∨ 32 < cap.toNat) : Refuses s (.lddCapSet t cap) .range := by
  have hbad : 512 ≤ t.toNat ∨ cap.toNat = 0 ∨ 32 < cap.toNat := h.imp_right (Or.imp_left fun h0 => by rw [h0]; rfl)
  have hw : wLddCapSet (t.toNat + 65536 * cap.toNat) s = refusedW .range s := by
    rw [wLddCapSet, fld_tenant, fld_given]
    exact if_pos hbad
  exact congrArg answer hw

theorem lddCapSet_accepted (ht : t.toNat < 512) (hlow : 1 ≤ cap.toNat) (hhigh : cap.toNat ≤ 32) :
    Accepts s (.lddCapSet t cap) [.obj, .out] fun u => Keeps [kEnLddCap] s u ∧ fld (rd u kEnLddCap) (8 * t.toNat) 8 = cap.toNat ∧
      ∀ x < 512, x ≠ t.toNat → fld (rd u kEnLddCap) (8 * x) 8 = fld (rd s kEnLddCap) (8 * x) 8 := by
  have hgood : ¬(512 ≤ t.toNat ∨ cap.toNat = 0 ∨ 32 < cap.toNat) := by omega
  have hw : wLddCapSet (t.toNat + 65536 * cap.toNat) s = accepted (wr kEnLddCap (setFld (rd s kEnLddCap) (8 * t.toNat) 8 cap.toNat) s) := by
    rw [wLddCapSet, fld_tenant, fld_given]
    exact if_neg hgood
  refine accepts_of_runs execLddCapSet_only (congrArg answer hw) ⟨(keeps_wr _ _ _).send _, ?_⟩
  rw [rd_send, rd_wr_self]
  exact ⟨(fld_setFld_self ..).trans (Nat.mod_eq_of_lt cap.isLt), fun x _ hx => fld_setFld_array hx ..⟩

end LddCap

/-! ### Invalid slots (R198, R307) -/

/-- Bytes of a slot for a largest circular buffer of `ncb` LLRs. -/
def slotBytes (ncb : Nat) : Nat := 64 * ((64 + ncb / 2 + 63) / 64)

theorem sbSlotSize_eq (s : State) : sbSlotSize s = slotBytes (rd s kEnSbNcbMax) := rfl

/-- A slot is at least a header long. -/
theorem sbAddr_before {j k : Nat} (h : k < j) (s : State) : sbAddr s k + 64 ≤ sbAddr s j := by
  have hsize : 64 ≤ sbSlotSize s := by
    rw [sbSlotSize_eq, slotBytes]
    omega
  have hstep := Nat.mul_le_mul_right (sbSlotSize s) (Nat.succ_le_of_lt h)
  rw [Nat.succ_mul] at hstep
  unfold sbAddr
  omega

theorem sbAddr_apart {j k : Nat} (h : k ≠ j) (s : State) : sbAddr s k + 64 ≤ sbAddr s j ∨ sbAddr s j + 64 ≤ sbAddr s k :=
  (Nat.lt_or_gt_of_ne h).imp (sbAddr_before · s) (sbAddr_before · s)

/-- One slot made invalid: its header reads 0. -/
def slotCleared (k : Nat) (s : State) : State := memStore (sbAddr s k) (List.replicate 64 0) s

theorem invalidate_eq (l : List Nat) (s : State) : invalidate l s = each l slotCleared s := rfl

/-- The header of slot `k` of `s` reads 0 in `t`, whose slots stand where those of `s` do. -/
structure HeaderZero (s : State) (k : Nat) (t : State) : Prop where
  wf : Memory.wf t.mem = true
  addr : sbAddr t = sbAddr s
  zero : load t (sbAddr s k) 64 = List.replicate 64 0

theorem sbAddr_of_obj {s t : State} (h : t.obj = s.obj) : sbAddr t = sbAddr s := by
  funext k
  simp only [sbAddr, sbBase, idtBase, idtRegion, sbRegion, sbSlotSize, rd, h]

theorem sbAddr_slotCleared (k : Nat) (s : State) : sbAddr (slotCleared k s) = sbAddr s := sbAddr_of_obj rfl

theorem memStore_mem (a : Nat) (l : List Byte) (s : State) : (memStore a l s).mem = memWrite s.mem a l := rfl

theorem slotCleared_mem (k : Nat) (s : State) : (slotCleared k s).mem = memWrite s.mem (sbAddr s k) (List.replicate 64 0) := memStore_mem ..

theorem slotCleared_wf {k : Nat} {s : State} (h : Memory.wf s.mem = true) : Memory.wf (slotCleared k s).mem = true := memStore_only.wf h

theorem headerZero_slotCleared_self {s t : State} (hwf : Memory.wf t.mem = true) (haddr : sbAddr t = sbAddr s) (k : Nat) :
    HeaderZero s k (slotCleared k t) := by
  refine ⟨slotCleared_wf hwf, (sbAddr_slotCleared k t).trans haddr, ?_⟩
  have hread := memRead_memWrite_self (sbAddr t k) (List.replicate 64 0) hwf
  rw [List.length_replicate] at hread
  rw [load, slotCleared_mem, ← haddr, hread]

theorem HeaderZero.slotCleared {s t : State} {k : Nat} (h : HeaderZero s k t) (j : Nat) : HeaderZero s k (slotCleared j t) := by
  by_cases hjk : k = j
  · subst hjk
    exact headerZero_slotCleared_self h.wf h.addr k
  · refine ⟨slotCleared_wf h.wf, (sbAddr_slotCleared j t).trans h.addr, ?_⟩
    have hapart : sbAddr s k + 64 ≤ sbAddr t j ∨ sbAddr t j + (List.replicate 64 (0 : Byte)).length ≤ sbAddr s k := by
      rw [List.length_replicate, h.addr]
      exact sbAddr_apart hjk s
    rw [load, slotCleared_mem, memRead_memWrite_disjoint _ hapart]
    exact h.zero

theorem HeaderZero.invalidate {s t : State} {k : Nat} (h : HeaderZero s k t) (l : List Nat) : HeaderZero s k (invalidate l t) := by
  rw [invalidate_eq]
  induction l generalizing t with
  | nil => exact h
  | cons j r ih => exact ih (h.slotCleared j)

/-- Every slot made invalid reads an empty header. -/
theorem headerZero_invalidate {s t : State} (hwf : Memory.wf t.mem = true) (haddr : sbAddr t = sbAddr s) {l : List Nat} {k : Nat} (hk : k ∈ l) :
    HeaderZero s k (invalidate l t) := by
  induction l generalizing t with
  | nil => exact absurd hk List.not_mem_nil
  | cons j r ih =>
    change HeaderZero s k (invalidate r (slotCleared j t))
    rcases List.mem_cons.mp hk with rfl | hr
    · exact (headerZero_slotCleared_self hwf haddr k).invalidate r
    · exact ih (slotCleared_wf hwf) ((sbAddr_slotCleared j t).trans haddr) hr

/-! ### The range and quota of a tenant (R198, R307) -/

/-- Tenant `t` holds `m` slots from slot `x` on, every other tenant what it held; the headers of the slots of `zero` are 0, and with no such slot
memory is as it was. -/
def RangeGranted (t x m : Nat) (zero : List Nat) (s u : State) : Prop :=
  Keeps [kEnSbQuota, kEnSbBase] s u ∧ sbFirst u t = x % 2 ^ 32 ∧ sbQuota u t = m ∧
    (∀ y < 512, y ≠ t → sbFirst u y = sbFirst s y ∧ sbQuota u y = sbQuota s y) ∧
    (∀ k ∈ zero, load u (sbAddr s k) 64 = List.replicate 64 0) ∧ (zero = [] → u.mem = s.mem)

theorem grantRange_mem (t a n : Nat) (s : State) : (grantRange t a n s).mem = s.mem := grantRange_only.mem_eq

/-- The range of a tenant as the store of ranges holds it. -/
def rangeNoted (t a n : Nat) (s : State) : State :=
  { s with work := { s.work with sbRanges := if n = 0 then tdel t s.work.sbRanges else tset t (a, n) s.work.sbRanges } }

theorem grantRange_eq (t a n : Nat) (s : State) : grantRange t a n s = wr kEnSbQuota (setFld (rd s kEnSbQuota) (32 * t) 32 n)
    (wr kEnSbBase (setFld (rd s kEnSbBase) (32 * t) 32 a) (rangeNoted t a n s)) := rfl

theorem kEnSbQuota_ne_base : kEnSbQuota ≠ kEnSbBase := by decide

theorem rd_grantRange_quota (t a n : Nat) (s : State) : rd (grantRange t a n s) kEnSbQuota = setFld (rd s kEnSbQuota) (32 * t) 32 n := by
  rw [grantRange_eq, rd_wr_self]

theorem rd_grantRange_base (t a n : Nat) (s : State) : rd (grantRange t a n s) kEnSbBase = setFld (rd s kEnSbBase) (32 * t) 32 a := by
  rw [grantRange_eq, rd_wr_ne kEnSbQuota_ne_base.symm, rd_wr_self]

theorem grantRange_keeps (t a n : Nat) (s : State) : Keeps [kEnSbQuota, kEnSbBase] s (grantRange t a n s) := by
  have hnoted : Keeps [kEnSbQuota, kEnSbBase] s (rangeNoted t a n s) := Keeps.of_obj rfl
  rw [grantRange_eq]
  exact hnoted.trans (((keeps_wr kEnSbBase _ _).mono (by simp)).trans ((keeps_wr kEnSbQuota _ _).mono (by simp)))

theorem rangeGranted {t x m : Nat} {zero : List Nat} {s : State} (hm : m < 2 ^ 32) (hwf : Memory.wf s.mem = true) (o : Output) :
    RangeGranted t x m zero s (send o (grantRange t x m (invalidate zero s))) := by
  have hobj (k : Nat) : rd (invalidate zero s) k = rd s k := (invalidate_only.keeps (keys := [])) k List.not_mem_nil
  have hmem : (send o (grantRange t x m (invalidate zero s))).mem = (invalidate zero s).mem := grantRange_mem t x m (invalidate zero s)
  refine ⟨(invalidate_only.keeps.trans (grantRange_keeps _ _ _ _)).send o, ?_, ?_, fun y _ hy => ⟨?_, ?_⟩, fun k hk => ?_, ?_⟩
  · rw [sbFirst, rd_send, rd_grantRange_base, fld_setFld_self]
  · rw [sbQuota, rd_send, rd_grantRange_quota, fld_setFld_self, Nat.mod_eq_of_lt hm]
  · rw [sbFirst, sbFirst, rd_send, rd_grantRange_base, fld_setFld_array hy, hobj]
  · rw [sbQuota, sbQuota, rd_send, rd_grantRange_quota, fld_setFld_array hy, hobj]
  · rw [load, hmem]
    exact (headerZero_invalidate hwf rfl hk).zero
  · rintro rfl
    exact hmem

section Quota
variable {t : BitVec 16} {n : BitVec 32} {s : State}

/-- The tenant has a valid buffer in the slots it holds. -/
def hasBuffers (s : State) (t : Nat) : Bool := (span (sbFirst s t) (sbQuota s t)).any (slotValid s)

theorem sbQuotaSet_no_tenant (h : 512 ≤ t.toNat) : Refuses s (.sbQuotaSet t n) .range := by
  have hw : wSbQuotaSet (t.toNat + 65536 * n.toNat) s = refusedW .range s := by
    rw [wSbQuotaSet, fld_tenant]
    exact if_pos h
  exact congrArg answer hw

/-- A quota in force that was granted range `x`, `m` of slots, those of `zero` made invalid. -/
theorem sbQuotaSet_grants {x m : Nat} {zero : List Nat} (hm : m < 2 ^ 32) (hwf : Memory.wf s.mem = true)
    (h : wSbQuotaSet (t.toNat + 65536 * n.toNat) s = accepted (grantRange t.toNat x m (invalidate zero s))) :
    Accepts s (.sbQuotaSet t n) [.obj, .work, .dram, .sram, .mem, .out] (RangeGranted t.toNat x m zero s) :=
  accepts_of_runs execSbQuotaSet_only (congrArg answer h) (rangeGranted hm hwf _)

section NoBuffers
variable (ht : t.toNat < 512) (hown : hasBuffers s t.toNat = false)
include ht hown

theorem wSbQuotaSet_no_run (h : lowestRun s t.toNat n.toNat = none) : wSbQuotaSet (t.toNat + 65536 * n.toNat) s = refusedW .range s := by
  unfold hasBuffers at hown
  simp only [wSbQuotaSet, fld_tenant, fld_given, if_neg (Nat.not_le.mpr ht), hown, Bool.not_false, if_true, h]

theorem wSbQuotaSet_empty {x : Nat} (h : lowestRun s t.toNat n.toNat = some x) (hn : n.toNat = 0) :
    wSbQuotaSet (t.toNat + 65536 * n.toNat) s = accepted (grantRange t.toNat 0 0 s) := by
  unfold hasBuffers at hown
  simp only [wSbQuotaSet, fld_tenant, fld_given, if_neg (Nat.not_le.mpr ht), hown, Bool.not_false, if_true, h, if_pos hn]

theorem wSbQuotaSet_moved {x : Nat} (h : lowestRun s t.toNat n.toNat = some x) (hn : n.toNat ≠ 0) :
    wSbQuotaSet (t.toNat + 65536 * n.toNat) s = accepted (grantRange t.toNat x n.toNat (invalidate (span x n.toNat) s)) := by
  unfold hasBuffers at hown
  simp only [wSbQuotaSet, fld_tenant, fld_given, if_neg (Nat.not_le.mpr ht), hown, Bool.not_false, if_true, h, if_neg hn]

end NoBuffers

section Buffers
variable (ht : t.toNat < 512) (hown : hasBuffers s t.toNat = true)
include ht hown

theorem wSbQuotaSet_shrinks (hn : n.toNat < sbQuota s t.toNat) : wSbQuotaSet (t.toNat + 65536 * n.toNat) s =
    if (span (sbFirst s t.toNat + n.toNat) (sbQuota s t.toNat - n.toNat)).any (slotValid s) then refusedW .state s
    else accepted (grantRange t.toNat (sbFirst s t.toNat) n.toNat s) := by
  unfold hasBuffers at hown
  simp only [wSbQuotaSet, fld_tenant, fld_given, if_neg (Nat.not_le.mpr ht), hown, Bool.not_true,
    Bool.false_eq_true, if_false, if_pos hn]

theorem wSbQuotaSet_grows (hn : sbQuota s t.toNat ≤ n.toNat) : wSbQuotaSet (t.toNat + 65536 * n.toNat) s =
    if slotsFree s t.toNat (sbFirst s t.toNat) n.toNat then accepted (grantRange t.toNat (sbFirst s t.toNat) n.toNat
      (invalidate (span (sbFirst s t.toNat + sbQuota s t.toNat) (n.toNat - sbQuota s t.toNat)) s))
    else refusedW .range s := by
  unfold hasBuffers at hown
  simp only [wSbQuotaSet, fld_tenant, fld_given, if_neg (Nat.not_le.mpr ht), hown, Bool.not_true,
    Bool.false_eq_true, if_false, if_neg (Nat.not_lt.mpr hn)]

end Buffers

end Quota

/-! ### The region of the soft buffers (R306) -/

/-- The object of the region that SB_REGION_WRITE writes, and whether the value is in its range. -/
def regionKey (ncbMax : Bool) : Nat := if ncbMax then kEnSbNcbMax else kEnSbCount
def regionInLimits (ncbMax : Bool) (v : Nat) : Prop := if ncbMax then 1024 ≤ v ∧ v ≤ 25344 ∧ v % 128 = 0 else v ≤ 1048576

/-- The region that follows from an object of it. -/
def regionSized (k v : Nat) (s : State) : State :=
  let slot := slotBytes (rd (wr k v s) kEnSbNcbMax)
  wr kEnSbRegion (rd (wr k v s) kEnSbCount * slot) (wr kEnSbSlotSize slot (wr k v s))

section Region
variable {k v : Nat} {ok : Bool} {s : State}

theorem wSbRegion_slots_granted (h : rd s kEnSbQuota ≠ 0) : wSbRegion k v ok s = refusedW .state s := if_pos h

theorem wSbRegion_refused (hq : rd s kEnSbQuota = 0) (h : ok = false ∨ poolBytes (regionSized k v s) < 2 ^ 30) :
    wSbRegion k v ok s = refusedW .range s := by
  have hbad : (!ok || decide (poolBytes (regionSized k v s) < 2 ^ 30)) = true := by
    rcases h with h | h
    · rw [h]; rfl
    · rw [decide_eq_true h, Bool.or_true]
  exact (if_neg (not_not.mpr hq)).trans (if_pos hbad)

theorem wSbRegion_accepted (hq : rd s kEnSbQuota = 0) (hok : ok = true) (h : 2 ^ 30 ≤ poolBytes (regionSized k v s)) :
    wSbRegion k v ok s = accepted (regionSized k v s) := by
  have hgood : (!ok || decide (poolBytes (regionSized k v s) < 2 ^ 30)) = false := by rw [hok, decide_eq_false (Nat.not_lt.mpr h)]; rfl
  exact (if_neg (not_not.mpr hq)).trans (if_neg (ne_true_of_eq_false hgood))

/-- What a region write stores, and that nothing else changes. -/
theorem regionSized_facts (hregion : k ≠ kEnSbRegion) (hslot : k ≠ kEnSbSlotSize) :
    rd (regionSized k v s) k = v ∧ rd (regionSized k v s) kEnSbSlotSize = slotBytes (rd (wr k v s) kEnSbNcbMax) ∧
      rd (regionSized k v s) kEnSbRegion = rd (regionSized k v s) kEnSbCount * slotBytes (rd (wr k v s) kEnSbNcbMax) ∧
      Keeps [k, kEnSbSlotSize, kEnSbRegion] s (regionSized k v s) := by
  have hrd {j : Nat} (hr : j ≠ kEnSbRegion) (hs : j ≠ kEnSbSlotSize) : rd (regionSized k v s) j = rd (wr k v s) j :=
    (rd_wr_ne hr ..).trans (rd_wr_ne hs ..)
  have hcount : rd (regionSized k v s) kEnSbCount = rd (wr k v s) kEnSbCount := hrd (by decide) (by decide)
  refine ⟨(hrd hregion hslot).trans (rd_wr_self ..), (rd_wr_ne (by decide) ..).trans (rd_wr_self ..), ?_, ?_⟩
  · rw [hcount]
    exact rd_wr_self ..
  · exact ((keeps_wr k _ _).mono (by simp)).trans (((keeps_wr kEnSbSlotSize _ _).mono (by simp)).trans ((keeps_wr kEnSbRegion _ _).mono (by simp)))

end Region

theorem exec_sbRegionWrite (ncbMax : Bool) (v : BitVec 32) (s : State) : ∃ ok : Bool, (ok = true ↔ regionInLimits ncbMax v.toNat) ∧
    exec (.sbRegionWrite ncbMax v) s = answer (wSbRegion (regionKey ncbMax) v.toNat ok s) := by
  cases ncbMax with
  | false => exact ⟨v.toNat ≤ 1048576, decide_eq_true_iff, rfl⟩
  | true => exact ⟨1024 ≤ v.toNat && v.toNat ≤ 25344 && v.toNat % 128 == 0, by simp [regionInLimits, and_assoc], rfl⟩

theorem regionKey_apart (ncbMax : Bool) : regionKey ncbMax ≠ kEnSbRegion ∧ regionKey ncbMax ≠ kEnSbSlotSize := by
  cases ncbMax <;> decide

section RegionWrite
variable {ncbMax : Bool} {v : BitVec 32} {s : State}

theorem sbRegionWrite_slots_granted (h : rd s kEnSbQuota ≠ 0) : Refuses s (.sbRegionWrite ncbMax v) .state := by
  obtain ⟨ok, -, hexec⟩ := exec_sbRegionWrite ncbMax v s
  exact hexec.trans (congrArg answer (wSbRegion_slots_granted h))

theorem sbRegionWrite_refused (hq : rd s kEnSbQuota = 0)
    (h : ¬regionInLimits ncbMax v.toNat ∨ poolBytes (regionSized (regionKey ncbMax) v.toNat s) < 2 ^ 30) :
    Refuses s (.sbRegionWrite ncbMax v) .range := by
  obtain ⟨ok, hok, hexec⟩ := exec_sbRegionWrite ncbMax v s
  rw [← hok, Bool.not_eq_true] at h
  exact hexec.trans (congrArg answer (wSbRegion_refused hq h))

theorem sbRegionWrite_accepted (hq : rd s kEnSbQuota = 0) (hlimits : regionInLimits ncbMax v.toNat)
    (h : 2 ^ 30 ≤ poolBytes (regionSized (regionKey ncbMax) v.toNat s)) :
    exec (.sbRegionWrite ncbMax v) s = answer (accepted (regionSized (regionKey ncbMax) v.toNat s)) := by
  obtain ⟨ok, hok, hexec⟩ := exec_sbRegionWrite ncbMax v s
  rw [hexec, wSbRegion_accepted hq (hok.mpr hlimits) h]

end RegionWrite

end Sys2Proof.Machine
end

section
/-!
PROOFS. A unit fenced for a fault (R125, R129, R315): cutting the chunk of an HQC leaves what the units run as it is, so the fence that follows is
the whole of what becomes of the unit.
-/
namespace Sys2Proof.Machine

set_option Elab.async false

/-! ### What a chunk writes leaves the units alone -/

theorem noteWrite_runsKept (g : Graph) (r : JobRt) (a n : Nat) (s : State) : RunsKept s (noteWrite g r a n s) := by
  unfold noteWrite
  split
  · exact runsKept_modRt s (by intro r; split <;> rfl) (by intro r; split <;> rfl)
  · exact RunsKept.refl s

theorem writeBuf_runsKept (g : Graph) (r : JobRt) (b ofs : Nat) (l : List Byte) (s : State) : RunsKept s (writeBuf g r b ofs l s) := by
  unfold writeBuf
  cases refAddr g r b with
  | none => exact hostWriteFor_only.runsKept
  | some a => exact (noteWrite_runsKept _ _ _ _ s).trans memStore_only.runsKept

theorem Chunk.put_runsKept (x : Chunk) (k ofs : Nat) (l : List Byte) (bad : Bool) (s : State) : RunsKept s (x.put k ofs l bad s) :=
  RunsKept.ite ((writeBuf_runsKept _ _ _ _ _ s).trans poisonBuf_only.runsKept) (writeBuf_runsKept _ _ _ _ _ s)

theorem hqcDo_runsKept (x : Chunk) (i : Nat) (s : State) : RunsKept s (hqcDo x i s).2 := by
  unfold hqcDo
  extract_lets
  split
  extract_lets _ _ _ _ _ _ _ s1 s2 _ s3 _ _ s4
  have hslot : RunsKept s s1 :=
    RunsKept.ite (clearLinePoison_only.runsKept.trans memStore_only.runsKept) (RunsKept.ite memStore_only.runsKept (RunsKept.refl s))
  have hcount : RunsKept s s2 := RunsKept.ite (hslot.trans sbCount_only.runsKept) hslot
  have hout : RunsKept s s3 := RunsKept.ite (hcount.trans (Chunk.put_runsKept ..)) hcount
  have hstatus : RunsKept s s4 := RunsKept.ite (hout.trans (Chunk.put_runsKept ..)) hout
  exact RunsKept.ite (hstatus.trans bump_only.runsKept) hstatus

/-- A chunk cut short ends no run. -/
theorem cutHqc_runsKept (u : Nat) (s : State) : RunsKept s (cutHqc u s) := by
  unfold cutHqc
  refine RunsKept.ite (RunsKept.refl s) ?_
  split
  · exact RunsKept.refl s
  · extract_lets x
    refine RunsKept.ite (RunsKept.refl s) ?_
    split
    rename_i n s1 hdone
    extract_lets s2
    split
    rename_i cut s3 hcut
    extract_lets
    have hstart : RunsKept s s1 := (Only.ofPair hdone pick_only).runsKept
    have hquanta : RunsKept s s2 := hstart.trans (each_related RunsKept.refl RunsKept.trans (hqcDo_runsKept x) _ _)
    have hlast : RunsKept s s3 := hquanta.trans (Only.ofPair hcut pick_only).runsKept
    exact RunsKept.ite (hlast.trans (memStore_only.runsKept.trans sbCount_only.runsKept)) hlast

/-! ### The fence (R129) -/

/-- A unit marked as fenced: it has no task, and an HQC that was in a chunk has left it. -/
def fenceMarked (u : Nat) (s : State) : State := modUnit u (fun m => { m with fenced := true, task := none }) (cutHqc u s)

/-- A fenced unit out of its jobs: they ended UNIT_FAULT, FUNCTION 2 is due, what was booked on it is placed again. -/
def fencedOut (u : Nat) (s : State) : State := overcommitCheck (replaceUnit u (wantFn u 2 (stopUnit u 0x08 (fenceMarked u s))))

section Fence
variable {u : Nat} {s : State}

theorem fenceMarked_fenced (u : Nat) (s : State) : (unitSt (fenceMarked u s) u).fenced = true := by rw [fenceMarked, unitSt_modUnit_self]

theorem inService_of_fenced (h : (unitSt s u).fenced = true) : inService s u = false := by rw [inService, h, Bool.not_true, Bool.and_false]

theorem fenceFault_again (h : (unitSt s u).fenced = true) : fenceFault u s = s := if_pos h

theorem fenceUnit_cutHqc (h : (unitSt s u).fenced = false) : fenceUnit u (cutHqc u s) = fencedOut u s := by
  have hkept : (unitSt (cutHqc u s) u).fenced = false := by rw [(cutHqc_runsKept u s).unitSt, h]
  exact if_neg (ne_true_of_eq_false hkept)

theorem fenceFault_eq (h : (unitSt s u).fenced = false) : fenceFault u s = if isCore u then coreOut u (fencedOut u s)
    else if unitClass u = 10 then drainMar (marOf (u - 108)) (fencedOut u s) else fencedOut u s := by
  rw [← fenceUnit_cutHqc h]
  exact if_neg (ne_true_of_eq_false h)

theorem isCore_of_lt (h : u < 108) : isCore u = true := decide_eq_true h
theorem not_isCore_of_le (h : 108 ≤ u) : ¬isCore u = true := by
  rw [isCore, decide_eq_true_iff]
  exact Nat.not_lt.mpr h

end Fence

/-- Settles O34: the cap, the quota and the region by the lemmas above about their writes, the fence by what it makes of a unit that is in service. -/
theorem codingObjectsAndFence : Obligations.CodingObjectsAndFence := by
  unfold Obligations.CodingObjectsAndFence
  refine ⟨fun t cap s => ⟨lddCapSet_accepted, lddCapSet_refused⟩,
    fun t n s hwf => ⟨sbQuotaSet_no_tenant, fun ht hown => ⟨fun hnone => ?noRun, fun x hrun => ?moves⟩, fun ht hown hn => ?shrinks,
      fun ht hown hn => ?grows⟩,
    fun ncbMax v s => ⟨sbRegionWrite_slots_granted, sbRegionWrite_refused, fun hq hlimits hpool => ?region⟩,
    fun u s => ⟨fun h => ?fenced, fun h => ⟨fenceMarked_fenced _ _, inService_of_fenced (fenceMarked_fenced _ _), fun hcore => ?core,
      fun hcore hclass => ?other, fun hcore hclass => ?mar⟩⟩⟩
  case noRun => exact congrArg answer (wSbQuotaSet_no_run ht hown hnone)
  case moves =>
    by_cases hn : n = 0
    · rw [if_pos hn]
      exact sbQuotaSet_grants (zero := []) (Nat.two_pow_pos 32) hwf (wSbQuotaSet_empty ht hown hrun (by rw [hn]; rfl))
    · rw [if_neg hn]
      exact sbQuotaSet_grants n.isLt hwf (wSbQuotaSet_moved ht hown hrun fun h0 => hn (BitVec.eq_of_toNat_eq h0))
  case shrinks =>
    have hw := wSbQuotaSet_shrinks ht hown hn
    split
    next hvalid => exact congrArg answer (hw.trans (if_pos hvalid))
    next hvalid => exact sbQuotaSet_grants (zero := []) n.isLt hwf (hw.trans (if_neg hvalid))
  case grows =>
    have hw := wSbQuotaSet_grows ht hown hn
    split
    next hfree => exact sbQuotaSet_grants n.isLt hwf (hw.trans (if_pos hfree))
    next hfree => exact congrArg answer (hw.trans (if_neg hfree))
  case region =>
    obtain ⟨hregion, hslot⟩ := regionKey_apart ncbMax
    obtain ⟨hvalue, hsize, hbytes, hkeeps⟩ := regionSized_facts (v := v.toNat) (s := s) hregion hslot
    exact accepts_of_runs execSbRegionWrite_only (sbRegionWrite_accepted hq hlimits hpool) ⟨hvalue, hsize, hbytes, hkeeps.send _⟩
  case fenced => exact congrArg Host.Outcome.next (fenceFault_again h)
  case core => exact congrArg Host.Outcome.next ((fenceFault_eq h).trans (if_pos (isCore_of_lt hcore)))
  case other => exact congrArg Host.Outcome.next ((fenceFault_eq h).trans ((if_neg (not_isCore_of_le hcore)).trans (if_neg hclass)))
  case mar => exact congrArg Host.Outcome.next ((fenceFault_eq h).trans ((if_neg (not_isCore_of_le hcore)).trans (if_pos hclass)))

end Sys2Proof.Machine
end

section
/-!
PROOFS. The writes of an instruction alone in its bundle (R215, R216): they act in their order on the record of its core, once the core has gone
on.
-/
namespace Sys2Proof.Machine

set_option Elab.async false

/-! ### Lists -/

theorem eraseDups_eq_self {α : Type} [BEq α] [LawfulBEq α] {l : List α} (h : l.Nodup) : l.eraseDups = l := by
  induction l with
  | nil => rfl
  | cons a l ih =>
    obtain ⟨ha, hl⟩ := List.nodup_cons.mp h
    have hkept : l.filter (fun b => !b == a) = l := List.filter_eq_self.mpr fun b hb => by
      have hne : b ≠ a := fun hab => ha (hab ▸ hb)
      simp [hne]
    rw [List.eraseDups_cons, hkept, ih hl]

theorem sortBy_eq_self {α : Type} {le : α → α → Bool} {l : List α} (h : l.Pairwise fun a b => le a b = true) : sortBy le l = l := by
  induction l with
  | nil => rfl
  | cons a l ih =>
    obtain ⟨ha, hl⟩ := List.pairwise_cons.mp h
    have hsort : sortBy le (a :: l) = insertBy le a (sortBy le l) := rfl
    rw [hsort, ih hl]
    cases l with
    | nil => rfl
    | cons b l => simp [insertBy, ha b List.mem_cons_self]

/-! ### Writes of one bundle -/

/-- The writes of an instruction, one after another. -/
def applyAll (n : Nat) (l : List SWrite) (s : State) : State := each l (fun w t => applyWrite n w t) s

@[simp] theorem applyAll_nil (n : Nat) (s : State) : applyAll n [] s = s := rfl
@[simp] theorem applyAll_cons (n : Nat) (w : SWrite) (l : List SWrite) (s : State) : applyAll n (w :: l) s = applyAll n l (applyWrite n w s) := rfl
@[simp] theorem applyAll_append (n : Nat) (l k : List SWrite) (s : State) : applyAll n (l ++ k) s = applyAll n k (applyAll n l s) :=
  List.foldl_append

/-- The writes stand in the order in which they act, and no two name one register. -/
structure Orderly (l : List SWrite) : Prop where
  sorted : l.Pairwise fun x y => writeOrder x ≤ writeOrder y
  apart : (l.flatMap SWrite.target).Nodup

theorem Orderly.sortBy {l : List SWrite} (h : Orderly l) : sortBy (fun x y => decide (writeOrder x ≤ writeOrder y)) l = l :=
  sortBy_eq_self (h.sorted.imp fun hle => decide_eq_true hle)

theorem Orderly.bundleClash {l : List SWrite} (h : Orderly l) (w : Word) (slot : Slot) (s : State) (r : IRes) (hr : r.writes = l) :
    bundleClash (loneBundle w slot s r) = false := by
  simp [Machine.bundleClash, loneBundle, hr, eraseDups_eq_self h.apart, List.eraseDups_cons]

/-- Registers are written before writes that name none. -/
theorem Orderly.append {l k : List SWrite} (hl : Orderly l) (hfirst : ∀ x ∈ l, writeOrder x = 0)
    (hk : k.Pairwise fun x y => writeOrder x ≤ writeOrder y) (hnone : k.flatMap SWrite.target = []) : Orderly (l ++ k) :=
  ⟨List.pairwise_append.mpr ⟨hl.sorted, hk, fun x hx y _ => by rw [hfirst x hx]; exact Nat.zero_le _⟩,
    by rw [List.flatMap_append, hnone, List.append_nil]; exact hl.apart⟩

theorem flagIf_none (b : Bool) (mask : Nat) :
    ((flagIf b mask).Pairwise fun x y => writeOrder x ≤ writeOrder y) ∧ (flagIf b mask).flatMap SWrite.target = [] := by
  cases b <;> simp [flagIf, SWrite.target]

section Issue
variable {core : CoreId} {w : Word} {c c' : Core} {s : State} {isWord : Nat → Bool} {slot : Slot} {f : Ctx → IRes}

/-- An instruction without exceptions, whose state has the record `c'` for its core, makes its writes. -/
theorem issue_alone (h : Alone core w c s) (hlisted : listedWord w.toNat = true) (hword : isWord w.toNat = true)
    (hcore : tfind core.val (f (loneCtx core w c s)).s.sage.cores = some c')
    (hslice : sliceOver (f (loneCtx core w c s)).s core.val c' (now s) = false)
    (hexcs : (f (loneCtx core w c s)).excs = []) (hwrites : Orderly (f (loneCtx core w c s)).writes) :
    issue core w isWord slot noStall f s =
      .next (applyAll core.val (f (loneCtx core w c s)).writes (putCore core c'.next (f (loneCtx core w c s)).s)) := by
  obtain ⟨hrun, hempty, hlast, hfetch⟩ := h.toLone
  have hctx : { s := s, n := core.val, c := c, w := w.toNat, ia := c.pc : Ctx } = loneCtx core w c s := rfl
  generalize hr : f (loneCtx core w c s) = r at *
  have hissue : issue core w isWord slot noStall f s =
      .next (commitBundle core.val { c' with bundle := loneBundle w slot s r } w.toNat
        (putCore core { c' with bundle := loneBundle w slot s r } r.s)) := by
    simp [issue, hrun, hctx, hr, hlisted, hword, noStall, hlast, hempty, hfetch, modCore_eq_putCore hcore, loneBundle, done]
  have hcommit := commitBundle_writes (c := { c' with bundle := loneBundle w slot s r }) (w := w.toNat) hslice hexcs
    (hwrites.bundleClash w slot s r rfl)
  have hsorted : sortBy (fun x y => decide (writeOrder x ≤ writeOrder y)) (loneBundle w slot s r).writes = r.writes := hwrites.sortBy
  rw [hissue]
  refine congrArg Host.Outcome.next (hcommit.trans ?_)
  rw [hsorted]
  rfl

end Issue

/-! ### One write -/

section Write
variable (core : CoreId) (c : Core) (s : State)

@[simp] theorem applyWrite_reg (r : SReg) (v : Int) : applyWrite core.val (.reg r v) (putCore core c s) = putCore core (setReg r v c) s :=
  modCore_putCore ..

@[simp] theorem applyWrite_sticky (m : Nat) :
    applyWrite core.val (.sticky m) (putCore core c s) = putCore core { c with status := c.status ||| m } s := modCore_putCore ..

@[simp] theorem applyWrite_vacc (k : Nat) (l : List Int) :
    applyWrite core.val (.vacc k l) (putCore core c s) = putCore core { c with vacc := tset k (l.map wrap40) c.vacc } s := modCore_putCore ..

@[simp] theorem applyWrite_cmcPend (t : Nat) :
    applyWrite core.val (.cmcPend t) (putCore core c s) = putCore core { c with pend := max c.pend t } s := modCore_putCore ..

theorem applyAll_flagIf (b : Bool) (mask : Nat) : applyAll core.val (flagIf b mask) (putCore core c s) = putCore core (c.flag b mask) s := by
  cases b
  · rfl
  · exact applyWrite_sticky core c s mask

end Write

/-! ### Registers g -/

theorem toNat_ofInt_eq (w : Nat) (i : Int) : (BitVec.ofInt w i).toNat = ofInt w i := by
  simp [ofInt]

theorem phys_eq_zero {r n : Nat} : phys r n = 0 ↔ n = 0 := by
  unfold phys
  split <;> omega

/-- A write of a g register is what `Core.put` says. -/
theorem setReg_g (c : Core) (n : Nat) (v : Int) : setReg (.g (phys c.rrb n)) v c = c.put n (BitVec.ofInt 32 v) := by
  simp only [setReg, phys_eq_zero, Core.put, toNat_ofInt_eq]

theorem applyAll_wG (core : CoreId) (c0 c : Core) (s : State) (n : Nat) (v : Int) (hr : c0.rrb = c.rrb) :
    applyAll core.val [wG c0 n v] (putCore core c s) = putCore core (c.put n (BitVec.ofInt 32 v)) s := by
  rw [← setReg_g, ← hr]
  exact applyWrite_reg ..

theorem phys_inj {r m n : Nat} (hm : m < 32) (hn : n < 32) (h : phys r m = phys r n) : m = n := by
  unfold phys at h
  split at h <;> split at h <;> omega

@[simp] theorem Core.put_rrb (c : Core) (n : Nat) (v : Word) : (c.put n v).rrb = c.rrb := by
  unfold Core.put
  split <;> rfl

theorem wG_orderly (c : Core) (n : Nat) (v : Int) : Orderly [wG c n v] ∧ ∀ x ∈ [wG c n v], writeOrder x = 0 :=
  ⟨⟨List.pairwise_singleton .., by simp [SWrite.target, wG]⟩, by simp [wG, writeOrder]⟩

/-- The two writes of a pair of g registers. -/
theorem wG_pair_orderly (c : Core) {n : Nat} (hn : n < 32) (heven : n % 2 = 0) (v u : Int) :
    Orderly [wG c n v, wG c (n + 1) u] ∧ ∀ x ∈ [wG c n v, wG c (n + 1) u], writeOrder x = 0 := by
  have hne : phys c.rrb n ≠ phys c.rrb (n + 1) := fun h => absurd (phys_inj hn (by omega) h) (by omega)
  exact ⟨⟨by simp [wG, writeOrder], by simp [SWrite.target, wG, hne]⟩, by simp [wG, writeOrder]⟩

theorem applyAll_wG_pair (core : CoreId) (c0 c : Core) (s : State) (n : Nat) (v u : Int) (hr : c0.rrb = c.rrb) :
    applyAll core.val [wG c0 n v, wG c0 (n + 1) u] (putCore core c s) = putCore core (c.pair n (BitVec.ofInt 32 v) (BitVec.ofInt 32 u)) s := by
  have hfirst := applyAll_wG core c0 c s n v hr
  have hsecond := applyAll_wG core c0 (c.put n (BitVec.ofInt 32 v)) s (n + 1) u (by rw [Core.put_rrb, hr])
  rw [Core.pair, ← hsecond, ← hfirst]
  rfl

/-! ### Fields of a word -/

theorem fld_lt (x lo w : Nat) : fld x lo w < 2 ^ w := Nat.mod_lt _ (Nat.two_pow_pos w)
theorem wD_lt (w : Nat) : wD w < 32 := fld_lt w 21 5
theorem wS_lt (w : Nat) : wS w < 32 := fld_lt w 16 5
theorem wT_lt (w : Nat) : wT w < 32 := fld_lt w 11 5

theorem bitAt_toNat {n : Nat} (w : BitVec n) (k : Nat) : bitAt w.toNat k = w.getLsbD k := by
  rw [bitAt, ← BitVec.testBit_toNat, Nat.testBit_eq_decide_div_mod_eq, Nat.shiftRight_eq_div_pow]
  rfl

end Sys2Proof.Machine
end

section
/-!
PROOFS. A vector instruction alone in its bundle: the vector unit wakes (R267 to R269), vector registers of its list take values, and a sticky bit
of STATUS may be set.
-/
namespace Sys2Proof.Machine

set_option Elab.async false

/-! ### The vector unit wakes -/

theorem kPdClkNow_ne_kClVwakes (d : Nat) {cl u : Nat} (hd : d < 12) (hu : u < 9) : kPdClkNow d ≠ kClVwakes cl u := by
  unfold kPdClkNow kClVwakes okey
  omega

/-- What a vector instruction that issued makes of the state, the record of its core apart. -/
theorem putCore_vecIssue (core : CoreId) (c : Core) (k : Nat) (s : State) :
    putCore core c (vecIssue core.val (drew k s)) = putCore core c { woken core s with freeCtr := s.freeCtr + k } := by
  have hon : vecOf (drew k s) core.val = vecOf s core.val := rfl
  unfold vecIssue woken
  dsimp only
  rw [hon]
  split
  · simp only [putCore, modVec, modCore, tmod, tset_tset_self]
    rfl
  · simp only [putCore, modVec, modCore, tmod, tset_tset_self, bumpBy_sage]
    rfl

theorem tfind_vecIssue {core : CoreId} {c : Core} {s : State} (h : tfind core.val s.sage.cores = some c) (k : Nat) :
    tfind core.val (vecIssue core.val (drew k s)).sage.cores = some { c with vUsed := true } := by
  have hcores : (vecIssue core.val (drew k s)).sage.cores = tmod s.sage.cores core.val {} fun c => { c with vUsed := true } := by
    unfold vecIssue
    dsimp only
    split <;> rfl
  rw [hcores, tmod_of_tfind h, tfind_tset_self]

theorem sliceOver_vecIssue (core : CoreId) (c : Core) (k t : Nat) (s : State) :
    sliceOver (vecIssue core.val (drew k s)) core.val { c with vUsed := true } t = sliceOver s core.val c t := by
  have hclk : rd (vecIssue core.val (drew k s)) (kPdClkNow (core.val / 9)) = rd s (kPdClkNow (core.val / 9)) := by
    have hcore : core.val < 108 := core.isLt
    unfold vecIssue
    dsimp only
    split
    · rfl
    · rw [rd_bumpBy_ne (kPdClkNow_ne_kClVwakes _ (by omega) (by omega))]
      rfl
  rw [sliceOver, sliceOver, sliceLimit, sliceLimit, hclk]

section Issue
variable {core : CoreId} {w : Word} {c : Core} {s : State} {isWord : Nat → Bool} {slot : Slot} {f : Ctx → IRes}

/-- An instruction that wakes the vector unit, draws `k` values and makes the writes `l`. -/
theorem issue_woken {l : List SWrite} {k : Nat} (h : Alone core w c s) (hlisted : listedWord w.toNat = true) (hword : isWord w.toNat = true)
    (hf : f (loneCtx core w c s) = { s := vecIssue core.val (drew k s), writes := l }) (hl : Orderly l) :
    issue core w isWord slot noStall f s =
      .next (applyAll core.val l (putCore core c.vnext { woken core s with freeCtr := s.freeCtr + k })) := by
  have hcore := tfind_vecIssue (coreRun_eq_some h.run).1 k
  have hslice := (sliceOver_vecIssue core c k (now s) s).trans h.inSlice
  rw [issue_alone (c' := { c with vUsed := true }) h hlisted hword (by rw [hf]; exact hcore) (by rw [hf]; exact hslice) (by rw [hf])
    (by rw [hf]; exact hl), hf]
  exact congrArg (fun t => Host.Outcome.next (applyAll core.val l t)) (putCore_vecIssue core c.vnext k s)

/-- A vector instruction whose program may use the unit and whose fields are admitted. -/
theorem vec_alone {fields : Ctx → Bool} {l : List SWrite} {k : Nat} (h : Alone core w c s) (huse : usesVector s c = true)
    (hlisted : listedWord w.toNat = true) (hword : isWord w.toNat = true) (hfields : fields (loneCtx core w c s) = true)
    (hf : f (loneCtx core w c s) = { s := drew k s, writes := l }) (hl : Orderly l) :
    vec core w isWord slot fields f s =
      .next (applyAll core.val l (putCore core c.vnext { woken core s with freeCtr := s.freeCtr + k })) := by
  refine issue_woken h hlisted hword ?_ hl
  have huse' : usesVector (loneCtx core w c s).s (loneCtx core w c s).c = true := huse
  simp only [huse', hfields, hf]
  rfl

end Issue

/-! ### Vector registers take values -/

/-- Vector register v n takes a value. -/
def Core.setV (c : Core) (n x : Nat) : Core := { c with v := tset (phys c.rrb n) (x % 2 ^ 128) c.v }
/-- Vector registers take the values of a list. -/
def Core.setVs (c : Core) (l : List (Nat × Nat)) : Core := l.foldl (fun c e => c.setV e.1 e.2) c

theorem Core.setVs_cons (c : Core) (e : Nat × Nat) (l : List (Nat × Nat)) : c.setVs (e :: l) = (c.setV e.1 e.2).setVs l := rfl

/-- Registers taken leave everything but the vector registers. -/
theorem Core.setVs_eq (c : Core) (l : List (Nat × Nat)) : c.setVs l = { c with v := (c.setVs l).v } := by
  induction l generalizing c with
  | nil => rfl
  | cons e l ih =>
    rw [setVs_cons, ih]
    rfl

theorem vR_setV_self (c : Core) (n x : Nat) : vR (c.setV n x) n = x % 2 ^ 128 := by
  simp [vR, Core.setV]

theorem vR_setV_ne {m n : Nat} (hm : m < 32) (hn : n < 32) (h : m ≠ n) (c : Core) (x : Nat) : vR (c.setV n x) m = vR c m := by
  have hphys : phys c.rrb m ≠ phys c.rrb n := fun he => h (phys_inj hm hn he)
  simp only [vR, Core.setV, tget_tset_ne hphys]

theorem vR_setVs_of_notMem {l : List (Nat × Nat)} {m : Nat} (hm : m < 32) (hl : ∀ e ∈ l, e.1 < 32) (h : m ∉ l.map (·.1)) (c : Core) :
    vR (c.setVs l) m = vR c m := by
  induction l generalizing c with
  | nil => rfl
  | cons e l ih =>
    obtain ⟨hne, hnot⟩ := not_or.mp (fun h' => h (List.mem_cons.mpr h'))
    rw [Core.setVs_cons, ih (fun d hd => hl d (List.mem_cons_of_mem _ hd)) hnot, vR_setV_ne hm (hl e List.mem_cons_self) hne]

theorem vR_setVs_of_mem {l : List (Nat × Nat)} (hl : ∀ e ∈ l, e.1 < 32) (hnodup : (l.map (·.1)).Nodup) {e : Nat × Nat} (he : e ∈ l) (c : Core) :
    vR (c.setVs l) e.1 = e.2 % 2 ^ 128 := by
  induction l generalizing c with
  | nil => cases he
  | cons d l ih =>
    obtain ⟨hnot, hrest⟩ := List.nodup_cons.mp hnodup
    have hl' : ∀ e ∈ l, e.1 < 32 := fun d hd => hl d (List.mem_cons_of_mem _ hd)
    rw [Core.setVs_cons]
    rcases List.mem_cons.mp he with rfl | hin
    · rw [vR_setVs_of_notMem (hl e List.mem_cons_self) hl' hnot, vR_setV_self]
    · exact ih hl' hrest hin _

/-- The writes of vector registers, named logically. -/
def vWrites (c : Core) (l : List (Nat × Nat)) : List SWrite := l.map fun e => wV c e.1 e.2

theorem applyAll_vWrites (core : CoreId) {c0 c : Core} (hr : c0.rrb = c.rrb) (l : List (Nat × Nat)) (s : State) :
    applyAll core.val (vWrites c0 l) (putCore core c s) = putCore core (c.setVs l) s := by
  induction l generalizing c with
  | nil => rfl
  | cons e l ih =>
    have hwrite : applyWrite core.val (wV c0 e.1 e.2) (putCore core c s) = putCore core (c.setV e.1 e.2) s := by
      rw [wV, applyWrite_reg, setReg, Core.setV, hr, ofInt]
      rfl
    have hcons : vWrites c0 (e :: l) = wV c0 e.1 e.2 :: vWrites c0 l := rfl
    rw [hcons, applyAll_cons, hwrite, ih (c := c.setV e.1 e.2) hr]
    rfl

theorem vWrites_flag_orderly {c : Core} {l : List (Nat × Nat)} (hl : ∀ e ∈ l, e.1 < 32) (hnodup : (l.map (·.1)).Nodup) (b : Bool) (mask : Nat) :
    Orderly (vWrites c l ++ flagIf b mask) := by
  have hzero : ∀ x ∈ vWrites c l, writeOrder x = 0 := fun x hx => by
    obtain ⟨e, -, rfl⟩ := List.mem_map.mp hx
    rfl
  have htargets : (vWrites c l).flatMap SWrite.target = (l.map (·.1)).map fun n => SReg.v (phys c.rrb n) := by
    rw [vWrites, List.flatMap_map, List.map_map]
    exact List.flatMap_pure_eq_map ..
  refine Orderly.append ⟨List.pairwise_of_forall_mem_list fun x hx y _ => by simp [hzero x hx], ?_⟩ hzero (flagIf_none b mask).1 (flagIf_none b mask).2
  rw [htargets]
  refine hnodup.map_on fun a ha b hb hab => ?_
  obtain ⟨d, hd, rfl⟩ := List.mem_map.mp ha
  obtain ⟨e, he, rfl⟩ := List.mem_map.mp hb
  exact phys_inj (hl d hd) (hl e he) (SReg.v.inj hab)

/-- What an instruction that writes vector registers and may set sticky bits did. -/
theorem vecGives_of_writes {core : CoreId} {c : Core} {s : State} {i : Instr} {drawn : Nat} {l : List (Nat × Nat)} {b : Bool} {mask : Nat}
    {regs : List Nat} {P : Core → Prop}
    (hexec : exec i s = .next (applyAll core.val (vWrites c l ++ flagIf b mask)
      (putCore core c.vnext { woken core s with freeCtr := s.freeCtr + drawn })))
    (hregs : l.map (·.1) = regs) (hl : ∀ e ∈ l, e.1 < 32) (hnodup : regs.Nodup)
    (hP : ∀ c', (∀ e ∈ l, vR c' e.1 = e.2 % 2 ^ 128) → c'.vacc = c.vacc → c'.status = (c.flag b mask).status → P c') :
    VecGives core c s i drawn regs P := by
  subst hregs
  rw [applyAll_append, applyAll_vWrites (c0 := c) (c := c.vnext) core rfl, applyAll_flagIf] at hexec
  have hset := Core.setVs_eq c.vnext l
  have hvR (n : Nat) : vR ((c.vnext.setVs l).flag b mask) n = vR (c.vnext.setVs l) n := by cases b <;> rfl
  refine ⟨_, hexec, ?_, fun n hn hnot => ?_, hP _ (fun e he => ?_) ?_ ?_⟩
  · rw [hset]
    cases b <;> rfl
  · rw [hvR, vR_setVs_of_notMem hn hl hnot]
    rfl
  · rw [hvR, vR_setVs_of_mem hl hnodup he]
  · rw [hset]
    cases b <;> rfl
  · rw [hset]
    cases b <;> rfl

theorem Core.statusIs_of_flag {c c' : Core} {b : Bool} {mask : Nat} {p : Prop} (h : c'.status = (c.flag b mask).status) (hp : b = true ↔ p) :
    c'.statusIs c p mask := by
  cases b
  · exact ⟨fun hp' => absurd (hp.mpr hp') Bool.false_ne_true, fun _ => h⟩
  · exact ⟨fun _ => h, fun hnot => absurd (hp.mp rfl) hnot⟩

/-! ### Groups (R248) -/

theorem groupSize_cases {w : Word} (h : fld w.toNat 7 2 < 3) : groupSize w = 1 ∨ groupSize w = 2 ∨ groupSize w = 4 := by
  unfold groupSize
  have h' : fld w.toNat 7 2 = 0 ∨ fld w.toNat 7 2 = 1 ∨ fld w.toNat 7 2 = 2 := by omega
  rcases h' with h | h | h <;> rw [h] <;> decide

/-- A register of a group that is well named. -/
theorem group_lt {w : Word} (h : fld w.toNat 7 2 < 3) {n j : Nat} (hn : n < 32) (hgroup : n % groupSize w = 0) (hj : j < groupSize w) :
    n + j < 32 := by
  rcases groupSize_cases h with hs | hs | hs <;> rw [hs] at hgroup hj <;> omega

theorem groupsOk_groupOk {w : Word} {regs : List Nat} (h : groupsOk w regs) : groupOk w.toNat regs = true ∧ bitAt w.toNat 6 = false := by
  obtain ⟨hg, hbit, hregs⟩ := h
  refine ⟨?_, (bitAt_toNat w 6).trans hbit⟩
  rw [groupOk, Bool.and_eq_true, List.all_eq_true]
  exact ⟨decide_eq_true hg, fun n hn => beq_iff_eq.mpr (hregs n hn)⟩

theorem vrOk_of_groupsOk {w : Word} {ws regs : List Nat} (h : groupsOk w regs) (hw : fld w.toNat 9 2 ∈ ws) : vrOk ws regs w.toNat = true := by
  obtain ⟨hgroup, hbit⟩ := groupsOk_groupOk h
  have hin : ws.contains (vrW w.toNat) = true := List.contains_iff_mem.mpr hw
  rw [vrOk, hin, hgroup, hbit]
  rfl

end Sys2Proof.Machine
end

section
/-!
PROOFS. Lanes of a 128-bit number (R247, R255): what each lane of a number made lane by lane holds, and the rounding and saturation of a lane.
-/
namespace Sys2Proof.Machine

set_option Elab.async false

/-! ### Rounding and saturation (R227, R255) -/

/-- Half to even is the nearest integer, and the even one of two. -/
theorem roundShift_eq_roundEven (x : Int) (sh : Nat) : roundShift x sh = roundEven x sh := by
  cases sh with
  | zero =>
    unfold roundShift roundEven
    simp only [if_true]
    split <;> omega
  | succ n =>
    have hhalf : (2 : Int) ^ (n + 1) = 2 * 2 ^ n := by ring
    have hdouble : (2 : Int) ^ (n + 1 + 1) = 2 * (2 * 2 ^ n) := by ring
    have hpos : (0 : Int) < 2 ^ n := by positivity
    unfold roundShift roundEven
    simp only [Nat.add_one_ne_zero, if_false, Nat.add_sub_cancel, hhalf, hdouble]
    generalize (2 : Int) ^ n = p at hpos
    obtain ⟨q, r, hr0, hr1, rfl⟩ : ∃ q r : Int, 0 ≤ r ∧ r < 2 * p ∧ x = r + 2 * p * q :=
      ⟨x / (2 * p), x % (2 * p), Int.emod_nonneg _ (by omega), Int.emod_lt_of_pos _ (by omega), (Int.emod_add_mul_ediv x (2 * p)).symm⟩
    have hq : (r + 2 * p * q) / (2 * p) = q := by
      rw [Int.add_mul_ediv_left _ _ (by omega), Int.ediv_eq_zero_of_lt hr0 hr1, zero_add]
    have hr : (r + 2 * p * q) % (2 * p) = r := by rw [Int.add_mul_emod_self_left, Int.emod_eq_of_lt hr0 hr1]
    have hq' : (2 * (r + 2 * p * q) + 2 * p) / (2 * (2 * p)) = (r + p) / (2 * p) + q := by
      rw [show 2 * (r + 2 * p * q) + 2 * p = 2 * (r + p + 2 * p * q) by ring, Int.mul_ediv_mul_of_pos _ _ (by decide),
        Int.add_mul_ediv_left _ _ (by omega)]
    have hr' : (2 * (r + 2 * p * q) + 2 * p) % (2 * (2 * p)) = 2 * ((r + p) % (2 * p)) := by
      rw [show 2 * (r + 2 * p * q) + 2 * p = 2 * (r + p + 2 * p * q) by ring, Int.mul_emod_mul_of_pos _ _ (by decide), Int.add_mul_emod_self_left]
    rw [hq, hr, hq', hr']
    rcases lt_or_ge r p with hlow | hhigh
    · have hdiv : (r + p) / (2 * p) = 0 := Int.ediv_eq_zero_of_lt (by omega) (by omega)
      have hmod : (r + p) % (2 * p) = r + p := Int.emod_eq_of_lt (by omega) (by omega)
      rw [hdiv, hmod, if_neg (by omega), if_neg (by omega), zero_add]
    · have hdiv : (r + p) / (2 * p) = 1 := by
        rw [show r + p = r - p + 2 * p * 1 by ring, Int.add_mul_ediv_left _ _ (by omega), Int.ediv_eq_zero_of_lt (by omega) (by omega), zero_add]
      have hmod : (r + p) % (2 * p) = r - p := by rw [Int.emod_def, hdiv]; ring
      rw [hdiv, hmod]
      split <;> split <;> omega

theorem satS_eq_satLane (b : Nat) (x : Int) : (BitVec.ofInt b (satS b x).1, (satS b x).2) = satLane b x := by
  unfold satS satLane
  have hpos : (0 : Int) < 2 ^ (b - 1) := by positivity
  generalize (2 : Int) ^ (b - 1) = lim at hpos
  dsimp only
  split
  · next h => rw [min_eq_left (by omega), max_eq_right (by omega), decide_eq_true (by omega)]
  · split
    · next h => rw [min_eq_right (by omega), max_eq_left (by omega), decide_eq_true (by omega)]
    · rw [min_eq_right (by omega), max_eq_right (by omega), decide_eq_false (by simp)]

theorem satU_eq_satLaneU (b : Nat) (x : Int) : (BitVec.ofInt b (satU b x).1, (satU b x).2) = satLaneU b x := by
  unfold satU satLaneU
  have hpos : (0 : Int) < 2 ^ b := by positivity
  generalize (2 : Int) ^ b = lim at hpos
  dsimp only
  split
  · next h => rw [min_eq_left (by omega), max_eq_right (by omega), decide_eq_true (by omega)]
  · split
    · next h => rw [min_eq_right (by omega), max_eq_left (by omega), decide_eq_true (by omega)]
    · rw [min_eq_right (by omega), max_eq_right (by omega), decide_eq_false (by simp)]

/-! ### The lanes of a number -/

/-- Lane `k` of a number seen as lanes of `b` bits. -/
def laneAt (b k v : Nat) : BitVec b := BitVec.ofNat b (v >>> (b * k))

theorem lane_eq_laneAt (c : Core) (n b k : Nat) : c.lane n b k = laneAt b k (vR c n) := rfl

theorem fld_lane (b k v : Nat) : fld v (b * k) b = (laneAt b k v).toNat := by rw [fld, laneAt, BitVec.toNat_ofNat]

/-- Two's complement read as a signed number. -/
theorem toInt_eq_toInt {w : Nat} (hw : 0 < w) (x : Nat) : toInt w x = (BitVec.ofNat w x).toInt := by
  obtain ⟨n, rfl⟩ : ∃ n, w = n + 1 := ⟨w - 1, by omega⟩
  have hpow : 2 ^ (n + 1) = 2 * 2 ^ n := by ring
  rw [toInt, BitVec.toInt_eq_toNat_cond, BitVec.toNat_ofNat, Nat.add_sub_cancel]
  have hcast : ((2 : Int) ^ (n + 1)) = ((2 ^ (n + 1) : Nat) : Int) := by push_cast; rfl
  have hmod : (x : Int) % 2 ^ (n + 1) = ((x % 2 ^ (n + 1) : Nat) : Int) := by push_cast; rfl
  rw [hmod, hcast]
  generalize x % 2 ^ (n + 1) = y
  rw [hpow]
  split <;> split <;> omega

theorem lanesU_eq (b v : Nat) : lanesU b v = (List.range (128 / b)).map fun k => (laneAt b k v).toNat :=
  List.map_congr_left fun k _ => fld_lane b k v

theorem lanesI_eq {b : Nat} (hb : 0 < b) (v : Nat) : lanesI b v = (List.range (128 / b)).map fun k => (laneAt b k v).toInt := by
  rw [lanesI, lanesU_eq, List.map_map]
  refine List.map_congr_left fun k _ => ?_
  rw [Function.comp_apply, toInt_eq_toInt hb, BitVec.ofNat_toNat, BitVec.setWidth_eq]

/-- A lane beside the lowest comes from the number without it. -/
theorem laneAt_succ {b x : Nat} (hx : x < 2 ^ b) (r k : Nat) : laneAt b (k + 1) (x + 2 ^ b * r) = laneAt b k r := by
  rw [laneAt, Nat.mul_succ, Nat.add_comm (b * k), Nat.shiftRight_add, Nat.shiftRight_eq_div_pow _ b, Nat.add_mul_div_left _ _ (Nat.two_pow_pos b),
    Nat.div_eq_of_lt hx, Nat.zero_add]
  rfl

theorem laneAt_zero {b x : Nat} (r : Nat) : laneAt b 0 (x + 2 ^ b * r) = BitVec.ofNat b x :=
  BitVec.eq_of_toNat_eq (by simp [laneAt])

theorem ofInt_lt (w : Nat) (i : Int) : ofInt w i < 2 ^ w := toNat_ofInt_eq w i ▸ (BitVec.ofInt w i).isLt

theorem laneAt_ofLanes {b k : Nat} {l : List Int} (h : k < l.length) : laneAt b k (ofLanes b l) = BitVec.ofInt b l[k] := by
  induction l generalizing k with
  | nil => cases h
  | cons x l ih =>
    have hcons : ofLanes b (x :: l) = ofInt b x + 2 ^ b * ofLanes b l := rfl
    rw [hcons]
    cases k with
    | zero => rw [laneAt_zero, ← toNat_ofInt_eq, BitVec.ofNat_toNat, BitVec.setWidth_eq]; rfl
    | succ k => rw [laneAt_succ (ofInt_lt b x), ih (Nat.lt_of_succ_lt_succ h)]; rfl

theorem laneAt_ofLanesU {b k : Nat} {l : List Nat} (h : k < l.length) : laneAt b k (ofLanesU b l) = BitVec.ofNat b l[k] := by
  induction l generalizing k with
  | nil => cases h
  | cons x l ih =>
    have hcons : ofLanesU b (x :: l) = x % 2 ^ b + 2 ^ b * ofLanesU b l := rfl
    rw [hcons]
    cases k with
    | zero => rw [laneAt_zero]; exact BitVec.eq_of_toNat_eq (by simp)
    | succ k => rw [laneAt_succ (Nat.mod_lt _ (Nat.two_pow_pos b)), ih (Nat.lt_of_succ_lt_succ h)]; rfl

theorem getLsbD_laneAt (b k v i : Nat) : (laneAt b k v).getLsbD i = (decide (i < b) && v.testBit (b * k + i)) := by
  rw [laneAt, BitVec.getLsbD_ofNat, Nat.testBit_shiftRight]

/-- Bits above a register's do not show in its lanes. -/
theorem laneAt_mod {b k m : Nat} (h : b * k + b ≤ m) (v : Nat) : laneAt b k (v % 2 ^ m) = laneAt b k v := by
  refine BitVec.eq_of_getLsbD_eq fun i hi => ?_
  rw [getLsbD_laneAt, getLsbD_laneAt, Nat.testBit_mod_two_pow, decide_eq_true (show b * k + i < m by omega), Bool.true_and]

theorem lane_fits {b k : Nat} (h : k < 128 / b) : b * k + b ≤ 128 := by
  have hle : (k + 1) * b ≤ 128 := (Nat.mul_le_mul_right b h).trans (Nat.div_mul_le_self 128 b)
  rwa [Nat.succ_mul, Nat.mul_comm k b] at hle

theorem laneAt_register {b k : Nat} (h : k < 128 / b) (v : Nat) : laneAt b k (v % 2 ^ 128) = laneAt b k v := laneAt_mod (lane_fits h) v

theorem laneAt_ofLanes_range {b k n : Nat} (h : k < n) (f : Nat → Int) : laneAt b k (ofLanes b ((List.range n).map f)) = BitVec.ofInt b (f k) := by
  rw [laneAt_ofLanes (by simpa using h), List.getElem_map, List.getElem_range]

theorem laneAt_ofLanesU_range {b k n : Nat} (h : k < n) (f : Nat → Nat) : laneAt b k (ofLanesU b ((List.range n).map f)) = BitVec.ofNat b (f k) := by
  rw [laneAt_ofLanesU (by simpa using h), List.getElem_map, List.getElem_range]

/-! ### Numbers made lane by lane -/

/-- A number with its lanes, and whether one of them saturated. -/
def LaneWise (b : Nat) (p : Nat × Bool) (g : Nat → BitVec b × Bool) : Prop :=
  (∀ k < 128 / b, laneAt b k p.1 = (g k).1) ∧ (p.2 = true ↔ ∃ k < 128 / b, (g k).2 = true)

theorem laneWise_packSat {b : Nat} {F : Nat → Int × Bool} {g : Nat → BitVec b × Bool} (h : ∀ k < 128 / b, (BitVec.ofInt b (F k).1, (F k).2) = g k) :
    LaneWise b (packSat b ((List.range (128 / b)).map F)) g := by
  constructor
  · intro k hk
    rw [packSat, List.map_map, laneAt_ofLanes_range hk, ← h k hk]
    rfl
  · simp only [packSat, List.any_eq_true, List.mem_map, List.mem_range]
    constructor
    · rintro ⟨_, ⟨k, hk, rfl⟩, ht⟩
      exact ⟨k, hk, h k hk ▸ ht⟩
    · rintro ⟨k, hk, ht⟩
      exact ⟨_, ⟨k, hk, rfl⟩, (congrArg Prod.snd (h k hk)).trans ht⟩

/-- A number without saturation. -/
theorem laneWise_plain {b v : Nat} {g : Nat → BitVec b} (h : ∀ k < 128 / b, laneAt b k v = g k) : LaneWise b (v, false) fun k => (g k, false) :=
  ⟨h, by simp⟩

theorem zipWith_range {α β γ : Type} (f : α → β → γ) (g : Nat → α) (h : Nat → β) (n : Nat) :
    List.zipWith f ((List.range n).map g) ((List.range n).map h) = (List.range n).map fun k => f (g k) (h k) := by
  rw [List.zipWith_map, List.zipWith_self]

section LaneWise
variable {b s t : Nat} {g : Nat → BitVec b × Bool}

theorem laneWise_laneI2 (hb : 0 < b) {f : Nat → Int → Int → Int × Bool}
    (h : ∀ k < 128 / b, (BitVec.ofInt b (f b (laneAt b k s).toInt (laneAt b k t).toInt).1, (f b (laneAt b k s).toInt (laneAt b k t).toInt).2) = g k) :
    LaneWise b (laneI2 f b s t) g := by
  rw [laneI2, lanesI_eq hb, lanesI_eq hb, zipWith_range]
  exact laneWise_packSat h

theorem laneWise_laneU2 {f : Nat → Nat → Nat → Int × Bool}
    (h : ∀ k < 128 / b, (BitVec.ofInt b (f b (laneAt b k s).toNat (laneAt b k t).toNat).1, (f b (laneAt b k s).toNat (laneAt b k t).toNat).2) = g k) :
    LaneWise b (laneU2 f b s t) g := by
  rw [laneU2, lanesU_eq, lanesU_eq, zipWith_range]
  exact laneWise_packSat h

theorem laneWise_laneI1 (hb : 0 < b) {f : Nat → Int → Int × Bool}
    (h : ∀ k < 128 / b, (BitVec.ofInt b (f b (laneAt b k s).toInt).1, (f b (laneAt b k s).toInt).2) = g k) : LaneWise b (laneI1 f b s) g := by
  rw [laneI1, lanesI_eq hb, List.map_map]
  exact laneWise_packSat h

end LaneWise

/-! ### Forms over the registers of a group (R248) -/

theorem vR_lt (c : Core) (n : Nat) : vR c n < 2 ^ 128 := Nat.mod_lt _ (Nat.two_pow_pos 128)

section Group
variable {core : CoreId} {w : Word} {c : Core} {s : State} {i : Instr} {isWord : Nat → Bool} {slot : Slot} {fields : Ctx → Bool} {f : Ctx → IRes}

/-- A form that makes each register of the group at D from those of the groups at D, S and `t`, lane by lane. -/
theorem vecGives_group {t drawn b : Nat} {F : Nat → Nat → Nat → Nat → Nat × Bool} {g : Nat → Nat → BitVec b × Bool} (h : Alone core w c s)
    (huse : usesVector s c = true) (hlisted : listedWord w.toNat = true) (hword : isWord w.toNat = true)
    (hfields : fields (loneCtx core w c s) = true) (hD : groupsOk w [wD w.toNat]) (hexec : exec i s = vec core w isWord slot fields f s)
    (hf : f (loneCtx core w c s) = { (loneCtx core w c s).group t F with s := drew drawn s })
    (hF : ∀ j < groupSize w, LaneWise b (F (wBits w) (vR c (wD w.toNat + j)) (vR c (wS w.toNat + j)) (vR c ((t + j) % 32))) (g j)) :
    VecGives core c s i drawn (groupRegs w) fun c' =>
      (∀ j < groupSize w, ∀ k < 128 / b, c'.lane (wD w.toNat + j) b k = (g j k).1) ∧ c'.vacc = c.vacc ∧
        c'.statusIs c (∃ j < groupSize w, ∃ k < 128 / b, (g j k).2 = true) fVsat := by
  obtain ⟨hg, -, hreg⟩ := hD
  let v := fun j => F (wBits w) (vR c (wD w.toNat + j)) (vR c (wS w.toNat + j)) (vR c ((t + j) % 32))
  let l := (List.range (groupSize w)).map fun j => (wD w.toNat + j, (v j).1)
  have hlt : ∀ e ∈ l, e.1 < 32 := fun e he => by
    obtain ⟨j, hj, rfl⟩ := List.mem_map.mp he
    exact group_lt hg (wD_lt _) (hreg _ List.mem_cons_self) (List.mem_range.mp hj)
  have hregs : l.map (·.1) = groupRegs w := by simp [l, groupRegs, Function.comp_def]
  have hnodup : (groupRegs w).Nodup := List.nodup_range.map_on fun a _ b _ hab => Nat.add_left_cancel hab
  have hwrites : f (loneCtx core w c s) =
      { s := drew drawn s, writes := vWrites c l ++ flagIf ((List.range (groupSize w)).any fun j => (v j).2) fVsat } := by
    rw [hf]
    simp only [Ctx.group, Ctx.ok, vWrites, l, List.map_map, List.any_map]
    rfl
  have hrun := hexec.trans (vec_alone h huse hlisted hword hfields hwrites (vWrites_flag_orderly hlt (hregs ▸ hnodup) _ _))
  refine vecGives_of_writes hrun hregs hlt hnodup fun c' hv hvacc hstatus => ⟨fun j hj k hk => ?_, hvacc, ?_⟩
  · have hvj := hv (wD w.toNat + j, (v j).1) (List.mem_map.mpr ⟨j, List.mem_range.mpr hj, rfl⟩)
    rw [lane_eq_laneAt, hvj, laneAt_register hk]
    exact (hF j hj).1 k hk
  · refine Core.statusIs_of_flag hstatus ?_
    rw [List.any_eq_true]
    constructor
    · rintro ⟨j, hj, ht⟩
      exact ⟨j, List.mem_range.mp hj, (hF j (List.mem_range.mp hj)).2.mp ht⟩
    · rintro ⟨j, hj, ht⟩
      exact ⟨j, List.mem_range.mpr hj, (hF j hj).2.mpr ht⟩

end Group

end Sys2Proof.Machine
end

section
/-!
PROOFS. The lane forms of the vector unit (R247, R248, R255 to R257): for each row of Tables 7-4 and 7-5, the operation on one lane.
-/
namespace Sys2Proof.Machine

set_option Elab.async false

/-! ### Operations on one lane -/

section Lane
variable {b : Nat} (x y : BitVec b)

theorem ofInt_add_lane : BitVec.ofInt b (x.toInt + y.toInt) = x + y := by rw [BitVec.ofInt_add, BitVec.ofInt_toInt, BitVec.ofInt_toInt]

theorem ofInt_sub_lane : BitVec.ofInt b (x.toInt - y.toInt) = x - y := by
  rw [Int.sub_eq_add_neg, BitVec.ofInt_add, BitVec.ofInt_neg, BitVec.ofInt_toInt, BitVec.ofInt_toInt, BitVec.sub_eq_add_neg]

theorem ofInt_mul_lane : BitVec.ofInt b (x.toInt * y.toInt) = x * y := by rw [BitVec.ofInt_mul, BitVec.ofInt_toInt, BitVec.ofInt_toInt]

theorem ofInt_min_lane : BitVec.ofInt b (min x.toInt y.toInt) = if x.slt y then x else y := by
  by_cases h : x.toInt < y.toInt
  · rw [if_pos (BitVec.slt_iff_toInt_lt.mpr h), min_eq_left (by omega), BitVec.ofInt_toInt]
  · rw [if_neg (by rwa [BitVec.slt_iff_toInt_lt]), min_eq_right (by omega), BitVec.ofInt_toInt]

theorem ofInt_max_lane : BitVec.ofInt b (max x.toInt y.toInt) = if x.slt y then y else x := by
  by_cases h : x.toInt < y.toInt
  · rw [if_pos (BitVec.slt_iff_toInt_lt.mpr h), max_eq_right (by omega), BitVec.ofInt_toInt]
  · rw [if_neg (by rwa [BitVec.slt_iff_toInt_lt]), max_eq_left (by omega), BitVec.ofInt_toInt]

theorem ofInt_toNat : BitVec.ofInt b x.toNat = x := by rw [BitVec.ofInt_natCast, BitVec.ofNat_toNat, BitVec.setWidth_eq]

theorem ofInt_minU_lane : BitVec.ofInt b (min x.toNat y.toNat : Nat) = if x.ult y then x else y := by
  by_cases h : x.toNat < y.toNat
  · rw [if_pos (BitVec.ult_iff_toNat_lt.mpr h), min_eq_left (by omega), ofInt_toNat]
  · rw [if_neg (by rwa [BitVec.ult_iff_toNat_lt]), min_eq_right (by omega), ofInt_toNat]

theorem ofInt_maxU_lane : BitVec.ofInt b (max x.toNat y.toNat : Nat) = if x.ult y then y else x := by
  by_cases h : x.toNat < y.toNat
  · rw [if_pos (BitVec.ult_iff_toNat_lt.mpr h), max_eq_right (by omega), ofInt_toNat]
  · rw [if_neg (by rwa [BitVec.ult_iff_toNat_lt]), max_eq_left (by omega), ofInt_toNat]

/-- A mask of all ones or all zeros. -/
theorem maskIf_eq_ones (p : Bool) : (BitVec.ofInt b (maskIf p).1, (maskIf p).2) = ones b p := by
  cases p
  · exact congrArg (·, false) (by simp [maskIf, plain])
  · exact congrArg (·, false) (by simp [maskIf, plain, BitVec.neg_one_eq_allOnes, BitVec.ofInt_neg])

theorem ofInt_shiftLeft_lane (k : Nat) : BitVec.ofInt b (x.toInt * 2 ^ k) = x <<< k := by
  have htwo : BitVec.ofInt b (2 ^ k) = BitVec.twoPow b k := by
    rw [show (2 : Int) ^ k = ((2 ^ k : Nat) : Int) by push_cast; rfl, BitVec.ofInt_natCast]
    exact BitVec.eq_of_toNat_eq (by rw [BitVec.toNat_ofNat, BitVec.toNat_twoPow])
  rw [BitVec.ofInt_mul, BitVec.ofInt_toInt, htwo, BitVec.shiftLeft_eq_mul_twoPow]

theorem ofInt_shiftRight_lane (k : Nat) : BitVec.ofInt b (x.toNat / 2 ^ k : Nat) = x >>> k := by
  have hlt : x.toNat / 2 ^ k < 2 ^ b := (Nat.div_le_self _ _).trans_lt x.isLt
  exact BitVec.eq_of_toNat_eq (by
    rw [BitVec.ofInt_natCast, BitVec.toNat_ofNat, BitVec.toNat_ushiftRight, Nat.shiftRight_eq_div_pow, Nat.mod_eq_of_lt hlt])

theorem ofInt_sshiftRight_lane (k : Nat) : BitVec.ofInt b (x.toInt / 2 ^ k) = x.sshiftRight k := by
  rw [BitVec.sshiftRight_eq, Int.shiftRight_eq_div_pow]
  push_cast
  rfl

end Lane

section Bits
variable {b k : Nat} (x y d : Nat)

theorem laneAt_and : laneAt b k (x &&& y) = laneAt b k x &&& laneAt b k y :=
  BitVec.eq_of_getLsbD_eq fun i hi => by
    simp only [BitVec.getLsbD_and, getLsbD_laneAt, Nat.testBit_and, decide_eq_true hi, Bool.true_and]

theorem laneAt_or : laneAt b k (x ||| y) = laneAt b k x ||| laneAt b k y :=
  BitVec.eq_of_getLsbD_eq fun i hi => by
    simp only [BitVec.getLsbD_or, getLsbD_laneAt, Nat.testBit_or, decide_eq_true hi, Bool.true_and]

theorem laneAt_xor : laneAt b k (x ^^^ y) = laneAt b k x ^^^ laneAt b k y :=
  BitVec.eq_of_getLsbD_eq fun i hi => by
    simp only [BitVec.getLsbD_xor, getLsbD_laneAt, Nat.testBit_xor, decide_eq_true hi, Bool.true_and]

variable {y}

/-- Lanes of the complement of a register. -/
theorem laneAt_not (hy : y < 2 ^ 128) (hk : k < 128 / b) : laneAt b k (2 ^ 128 - 1 - y) = ~~~laneAt b k y := by
  have hfits := lane_fits hk
  refine BitVec.eq_of_getLsbD_eq fun i hi => ?_
  rw [show 2 ^ 128 - 1 - y = 2 ^ 128 - (y + 1) by omega, BitVec.getLsbD_not, getLsbD_laneAt, getLsbD_laneAt, Nat.testBit_two_pow_sub_succ hy]
  simp [hi, show b * k + i < 128 by omega]

end Bits

/-! ### Rows of Tables 7-4 and 7-5 -/

theorem laneBits_pos (W : Nat) : 0 < laneBits W := Nat.mul_pos (by decide) (Nat.two_pow_pos W)

/-- A row with two source registers is the model's `F`, lane by lane. -/
structure LaneRow.Binary (r : LaneRow) (F : Nat → Nat → Nat → Nat → Nat × Bool) : Prop where
  two : r.two = true
  runs : ∀ core w s, exec (r.make core w) s = vr2 core w r.fn r.ws F s
  lanes : ∀ W ∈ r.ws, ∀ d < 2 ^ 128, ∀ x < 2 ^ 128, ∀ y < 2 ^ 128, LaneWise (laneBits W) (F (laneBits W) d x y) fun k =>
    r.f (laneBits W) 0 k (laneAt (laneBits W) k d) (laneAt (laneBits W) k x) (laneAt (laneBits W) k y)

/-- A row with one source register. -/
structure LaneRow.Unary (r : LaneRow) (F : Nat → Nat → Nat × Bool) : Prop where
  two : r.two = false
  runs : ∀ core w s, exec (r.make core w) s = vr1 core w r.fn r.ws F s
  lanes : ∀ W ∈ r.ws, ∀ (d x y : Nat), LaneWise (laneBits W) (F (laneBits W) x) fun k =>
    r.f (laneBits W) 0 k (laneAt (laneBits W) k d) (laneAt (laneBits W) k x) (laneAt (laneBits W) k y)

/-- A row on 0x10 with a meaning in the model. -/
inductive LaneRow.Meets (r : LaneRow) : Prop where
  | binary (F : Nat → Nat → Nat → Nat → Nat × Bool) (h : r.Binary F)
  | unary (F : Nat → Nat → Nat × Bool) (h : r.Unary F)

section Rows
variable {r : LaneRow}

theorem LaneRow.Meets.signed {f : Nat → Int → Int → Int × Bool} (htwo : r.two = true)
    (hruns : ∀ core w s, exec (r.make core w) s = vr2 core w r.fn r.ws (fun b _ => laneI2 f b) s)
    (h : ∀ (b k : Nat) (d x y : BitVec b), (BitVec.ofInt b (f b x.toInt y.toInt).1, (f b x.toInt y.toInt).2) = r.f b 0 k d x y) : r.Meets :=
  .binary _ ⟨htwo, hruns, fun W _ _ _ _ _ _ _ => laneWise_laneI2 (laneBits_pos W) fun _ _ => h ..⟩

theorem LaneRow.Meets.unsigned {f : Nat → Nat → Nat → Int × Bool} (htwo : r.two = true)
    (hruns : ∀ core w s, exec (r.make core w) s = vr2 core w r.fn r.ws (fun b _ => laneU2 f b) s)
    (h : ∀ (b k : Nat) (d x y : BitVec b), (BitVec.ofInt b (f b x.toNat y.toNat).1, (f b x.toNat y.toNat).2) = r.f b 0 k d x y) : r.Meets :=
  .binary _ ⟨htwo, hruns, fun _ _ _ _ _ _ _ _ => laneWise_laneU2 fun _ _ => h ..⟩

theorem LaneRow.Meets.one {f : Nat → Int → Int × Bool} (htwo : r.two = false)
    (hruns : ∀ core w s, exec (r.make core w) s = vr1 core w r.fn r.ws (laneI1 f) s)
    (h : ∀ (b k : Nat) (d x y : BitVec b), (BitVec.ofInt b (f b x.toInt).1, (f b x.toInt).2) = r.f b 0 k d x y) : r.Meets :=
  .unary _ ⟨htwo, hruns, fun W _ _ _ _ => laneWise_laneI1 (laneBits_pos W) fun _ _ => h ..⟩

/-- A row whose operation acts on every bit by itself. -/
theorem LaneRow.Meets.bitwise {F : Nat → Nat → Nat → Nat} (htwo : r.two = true)
    (hruns : ∀ core w s, exec (r.make core w) s = vr2 core w r.fn r.ws (fun _ d x y => (F d x y, false)) s)
    (h : ∀ b, ∀ k < 128 / b, ∀ d < 2 ^ 128, ∀ x < 2 ^ 128, ∀ y < 2 ^ 128,
      (laneAt b k (F d x y), false) = r.f b 0 k (laneAt b k d) (laneAt b k x) (laneAt b k y)) : r.Meets :=
  .binary _ ⟨htwo, hruns, fun W _ d hd x hx y hy =>
    ⟨fun k hk => congrArg Prod.fst (h (laneBits W) k hk d hd x hx y hy),
      by simpa using fun k hk => (congrArg Prod.snd (h (laneBits W) k hk d hd x hx y hy)).symm⟩⟩

end Rows

/-- The lanes with odd number of VCONJS. -/
theorem laneWise_vconjs (v : Nat) :
    LaneWise 16 (packSat 16 (List.zipWith (fun i x => if i % 2 = 1 then satS 16 (-x) else plain x) (upto 8) (lanesI 16 v))) fun k =>
      if k % 2 = 1 then satLane 16 (-(laneAt 16 k v).toInt) else (laneAt 16 k v, false) := by
  rw [lanesI_eq (by decide), show upto 8 = (List.range (128 / 16)).map fun k => k from (List.map_id' _).symm, zipWith_range]
  refine laneWise_packSat fun k _ => ?_
  split
  · exact satS_eq_satLane ..
  · exact congrArg (·, false) BitVec.ofInt_toInt

/-- Every row of Table 7-4 has its meaning. -/
theorem laneRows_meet : ∀ r ∈ laneRows, r.Meets := by
  simp only [laneRows, List.forall_mem_append, List.forall_mem_cons]
  refine ⟨⟨?vadd, ?vsub, ?vadds, ?vsubs, ?vaddus, ?vsubus, ?vavgr, ?vnegs, ?vabss, ?vmin, ?vmax, ?vminu, ?vmaxu,
      List.forall_mem_nil _⟩, ?vand, ?vor, ?vxor, ?vandn, ?vcmpeq, ?vcmpgt, ?vcmpgtu, ?vsel, ?vmulr, ?vconjs, ?vmull, List.forall_mem_nil _⟩
  case vadd => exact .signed rfl (fun _ _ _ => rfl) fun _ _ _ x y => congrArg (·, false) (ofInt_add_lane x y)
  case vsub => exact .signed rfl (fun _ _ _ => rfl) fun _ _ _ x y => congrArg (·, false) (ofInt_sub_lane x y)
  case vadds => exact .signed rfl (fun _ _ _ => rfl) fun _ _ _ _ _ => satS_eq_satLane ..
  case vsubs => exact .signed rfl (fun _ _ _ => rfl) fun _ _ _ _ _ => satS_eq_satLane ..
  case vaddus => exact .unsigned rfl (fun _ _ _ => rfl) fun _ _ _ _ _ => satU_eq_satLaneU ..
  case vsubus => exact .unsigned rfl (fun _ _ _ => rfl) fun _ _ _ _ _ => satU_eq_satLaneU ..
  case vavgr =>
    exact .signed rfl (fun _ _ _ => rfl) fun b _ _ _ _ => congrArg (fun v => (BitVec.ofInt b v, false)) (roundShift_eq_roundEven _ 1)
  case vnegs => exact .one rfl (fun _ _ _ => rfl) fun _ _ _ _ _ => satS_eq_satLane ..
  case vabss =>
    refine .one rfl (fun _ _ _ => rfl) fun b _ _ x _ => (satS_eq_satLane ..).trans (congrArg (satLane b) ?_)
    split <;> omega
  case vmin => exact .signed rfl (fun _ _ _ => rfl) fun _ _ _ x y => congrArg (·, false) (ofInt_min_lane x y)
  case vmax => exact .signed rfl (fun _ _ _ => rfl) fun _ _ _ x y => congrArg (·, false) (ofInt_max_lane x y)
  case vminu => exact .unsigned rfl (fun _ _ _ => rfl) fun _ _ _ x y => congrArg (·, false) (ofInt_minU_lane x y)
  case vmaxu => exact .unsigned rfl (fun _ _ _ => rfl) fun _ _ _ x y => congrArg (·, false) (ofInt_maxU_lane x y)
  case vand => exact .bitwise rfl (fun _ _ _ => rfl) fun _ _ _ _ _ x _ y _ => congrArg (·, false) (laneAt_and x y)
  case vor => exact .bitwise rfl (fun _ _ _ => rfl) fun _ _ _ _ _ x _ y _ => congrArg (·, false) (laneAt_or x y)
  case vxor => exact .bitwise rfl (fun _ _ _ => rfl) fun _ _ _ _ _ x _ y _ => congrArg (·, false) (laneAt_xor x y)
  case vandn =>
    exact .bitwise rfl (fun _ _ _ => rfl) fun _ _ hk _ _ x _ y hy => congrArg (·, false) (by rw [laneAt_and, laneAt_not hy hk])
  case vcmpeq =>
    exact .unsigned rfl (fun _ _ _ => rfl) fun b _ _ x y => (maskIf_eq_ones _).trans (congrArg (ones b) (by
      rw [Bool.eq_iff_iff, beq_iff_eq, beq_iff_eq, BitVec.toNat_inj]))
  case vcmpgt => exact .signed rfl (fun _ _ _ => rfl) fun _ _ _ _ _ => maskIf_eq_ones _
  case vcmpgtu => exact .unsigned rfl (fun _ _ _ => rfl) fun _ _ _ _ _ => maskIf_eq_ones _
  case vsel =>
    exact .bitwise rfl (fun _ _ _ => rfl) fun _ _ hk d hd x _ y _ =>
      congrArg (·, false) (by rw [laneAt_or, laneAt_and, laneAt_and, laneAt_not hd hk])
  case vmulr =>
    exact .signed rfl (fun _ _ _ => rfl) fun b _ _ _ _ =>
      (satS_eq_satLane ..).trans (congrArg (satLane b) (roundShift_eq_roundEven _ 15))
  case vconjs =>
    refine .unary _ ⟨rfl, fun _ _ _ => rfl, fun W hW _ x _ => ?_⟩
    obtain rfl : W = 1 := List.mem_singleton.mp hW
    exact laneWise_vconjs x
  case vmull => exact .signed rfl (fun _ _ _ => rfl) fun _ _ _ x y => congrArg (·, false) (ofInt_mul_lane x y)

/-- A row of the shifts by IMM5 is the model's `F`, lane by lane. -/
structure LaneRow.Shift (r : LaneRow) (F : Nat → Nat → Nat → Nat × Bool) : Prop where
  runs : ∀ core w s, exec (r.make core w) s = vrImm core w r.fn r.ws F s
  lanes : ∀ b > 0, ∀ k x, LaneWise b (F k b x) fun j => r.f b k j 0 (laneAt b j x) 0

/-- Every row of the shifts of Table 7-5 has its meaning. -/
theorem laneShiftRows_meet : ∀ r ∈ laneShiftRows, ∃ F, r.Shift F := by
  simp only [laneShiftRows, List.forall_mem_cons]
  refine ⟨⟨fun k => laneI1 fun _ x => plain (x * 2 ^ k), fun _ _ _ => rfl, ?vsll⟩,
    ⟨fun k b a => (ofLanes b ((lanesU b a).map fun x => ((x / 2 ^ k : Nat) : Int)), false), fun _ _ _ => rfl, ?vsrl⟩,
    ⟨fun k => laneI1 fun _ x => plain (x / 2 ^ k), fun _ _ _ => rfl, ?vsra⟩,
    ⟨fun k => laneI1 fun b x => plain (if b ≤ k then x / 2 ^ k else roundShift x k), fun _ _ _ => rfl, ?vsrar⟩,
    ⟨fun k => laneI1 fun b x => satS b (x * 2 ^ k), fun _ _ _ => rfl, ?vslls⟩, List.forall_mem_nil _⟩
  case vsll => exact fun b hb k x => laneWise_laneI1 hb fun _ _ => congrArg (·, false) (ofInt_shiftLeft_lane _ k)
  case vsrl =>
    refine fun b _ k x => laneWise_plain fun j hj => ?_
    rw [lanesU_eq, List.map_map, laneAt_ofLanes_range hj]
    exact ofInt_shiftRight_lane _ k
  case vsra => exact fun b hb k x => laneWise_laneI1 hb fun _ _ => congrArg (·, false) (ofInt_sshiftRight_lane _ k)
  case vsrar =>
    refine fun b hb k x => laneWise_laneI1 hb fun _ _ => congrArg (·, false) ?_
    dsimp only [plain]
    split
    · exact ofInt_sshiftRight_lane _ k
    · rw [roundShift_eq_roundEven]
  case vslls => exact fun b hb k x => laneWise_laneI1 hb fun _ _ => satS_eq_satLane ..

/-! ### The forms -/

theorem laneRows_listed : ∀ r ∈ laneRows, r.op = 0x10 ∧ (r.fn ≤ 0x14 ∨ 0x18 ≤ r.fn ∧ r.fn ≤ 0x1C) := by decide
theorem laneShiftRows_listed : ∀ r ∈ laneShiftRows, r.op = 0x11 ∧ r.fn ≤ 4 := by decide

theorem isOpFn_of {n op fn : Nat} (hop : wOp n = op) (hfn : wFn n = fn) : isOpFn op fn n = true := by simp [isOpFn, hop, hfn]

section Forms
variable {core : CoreId} {w : Word} {c : Core} {s : State} {r : LaneRow}

theorem vecGives_laneRow (h : Alone core w c s) (huse : usesVector s c = true) (hr : r ∈ laneRows) (hop : wOp w.toNat = r.op)
    (hfn : wFn w.toNat = r.fn) (hw : fld w.toNat 9 2 ∈ r.ws) (hT : r.two = false → wT w.toNat = 0)
    (hgroups : groupsOk w (if r.two then [wD w.toNat, wS w.toNat, wT w.toNat] else [wD w.toNat, wS w.toNat])) :
    VecGives core c s (r.make core w) 0 (groupRegs w) fun c' =>
      (∀ i < groupSize w, ∀ k < 128 / wBits w, c'.lane (wD w.toNat + i) (wBits w) k =
        (r.f (wBits w) 0 k (c.lane (wD w.toNat + i) (wBits w) k) (c.lane (wS w.toNat + i) (wBits w) k) (c.lane (wT w.toNat + i) (wBits w) k)).1) ∧
      c'.vacc = c.vacc ∧ c'.statusIs c (∃ i < groupSize w, ∃ k < 128 / wBits w,
        (r.f (wBits w) 0 k (c.lane (wD w.toNat + i) (wBits w) k) (c.lane (wS w.toNat + i) (wBits w) k) (c.lane (wT w.toNat + i) (wBits w) k)).2 = true)
        fVsat := by
  obtain ⟨hop10, hlist⟩ := laneRows_listed r hr
  have hop' := hop.trans hop10
  have hlisted : listedWord w.toNat = true := by simpa [listedWord, hop', hfn] using hlist
  obtain ⟨F, htwo, hruns, hlanes⟩ | ⟨F, htwo, hruns, hlanes⟩ := laneRows_meet r hr
  · rw [htwo, if_pos rfl] at hgroups
    obtain ⟨hg, hbit, hregs⟩ := hgroups
    refine vecGives_group h huse hlisted (isOpFn_of hop' hfn) (vrOk_of_groupsOk ⟨hg, hbit, hregs⟩ hw)
      ⟨hg, hbit, fun n hn => hregs n (List.mem_cons.mpr (.inl (List.mem_singleton.mp hn)))⟩ (hruns core w s) rfl fun j hj => ?_
    have hTj : (wT w.toNat + j) % 32 = wT w.toNat + j := Nat.mod_eq_of_lt (group_lt hg (wT_lt _) (hregs _ (by simp)) hj)
    have hloneT : (wT (loneCtx core w c s).w + j) % 32 = wT w.toNat + j := hTj
    rw [hloneT]
    exact hlanes _ hw _ (vR_lt ..) _ (vR_lt ..) _ (vR_lt ..)
  · rw [htwo, if_neg Bool.false_ne_true] at hgroups
    obtain ⟨hg, hbit, hregs⟩ := hgroups
    refine vecGives_group (t := 0) (F := fun b _ a _ => F b a) h huse hlisted (isOpFn_of hop' hfn) ?_
      ⟨hg, hbit, fun n hn => hregs n (List.mem_cons.mpr (.inl (List.mem_singleton.mp hn)))⟩ (hruns core w s) rfl
      fun j _ => hlanes _ hw (vR c (wD w.toNat + j)) _ (vR c (wT w.toNat + j))
    have hfields : (wT w.toNat == 0 && vrOk r.ws [wD w.toNat, wS w.toNat] w.toNat) = true := by
      rw [hT htwo, vrOk_of_groupsOk ⟨hg, hbit, hregs⟩ hw]
      rfl
    exact hfields

theorem vecGives_laneShiftRow (h : Alone core w c s) (huse : usesVector s c = true) (hr : r ∈ laneShiftRows) (hop : wOp w.toNat = r.op)
    (hfn : wFn w.toNat = r.fn) (hw : fld w.toNat 9 2 ∈ r.ws) (hgroups : groupsOk w [wD w.toNat, wS w.toNat]) :
    VecGives core c s (r.make core w) 0 (groupRegs w) fun c' =>
      (∀ i < groupSize w, ∀ k < 128 / wBits w, c'.lane (wD w.toNat + i) (wBits w) k =
        (r.f (wBits w) (wT w.toNat) k 0 (c.lane (wS w.toNat + i) (wBits w) k) 0).1) ∧
      c'.vacc = c.vacc ∧ c'.statusIs c (∃ i < groupSize w, ∃ k < 128 / wBits w,
        (r.f (wBits w) (wT w.toNat) k 0 (c.lane (wS w.toNat + i) (wBits w) k) 0).2 = true) fVsat := by
  obtain ⟨hop11, hlist⟩ := laneShiftRows_listed r hr
  have hop' := hop.trans hop11
  have hlisted : listedWord w.toNat = true := by simp [listedWord, hop', hfn, hlist]
  obtain ⟨F, hruns, hlanes⟩ := laneShiftRows_meet r hr
  obtain ⟨hg, hbit, hregs⟩ := hgroups
  exact vecGives_group (t := 0) (F := fun b _ a _ => F (wT w.toNat) b a) h huse hlisted (isOpFn_of hop' hfn) (vrOk_of_groupsOk ⟨hg, hbit, hregs⟩ hw)
    ⟨hg, hbit, fun n hn => hregs n (List.mem_cons.mpr (.inl (List.mem_singleton.mp hn)))⟩ (hruns core w s) rfl
    fun j _ => hlanes (wBits w) (laneBits_pos _) (wT w.toNat) (vR c (wS w.toNat + j))

end Forms

/-- Settles O16: each row of Tables 7-4 and 7-5 acts on the lanes by themselves, register by register of the group. -/
theorem vectorLaneForms : Obligations.VectorLaneForms := by
  unfold Obligations.VectorLaneForms
  intro core w c s h huse D S T b
  exact ⟨fun r hr hop hfn hw hT hgroups => vecGives_laneRow h huse hr hop hfn hw hT hgroups,
    fun r hr hop hfn hw hgroups => vecGives_laneShiftRow h huse hr hop hfn hw hgroups⟩

end Sys2Proof.Machine
end

section
/-!
PROOFS. Complex products, packs and unpacks of the vector unit (R256, R257).
-/
namespace Sys2Proof.Machine

set_option Elab.async false

theorem VecGives.imp {core : CoreId} {c : Core} {s : State} {i : Instr} {drawn : Nat} {regs : List Nat} {P Q : Core → Prop}
    (h : VecGives core c s i drawn regs P) (hPQ : ∀ c', P c' → Q c') : VecGives core c s i drawn regs Q := by
  obtain ⟨c', hexec, hkeeps, hregs, hP⟩ := h
  exact ⟨c', hexec, hkeeps, hregs, hPQ c' hP⟩

/-! ### Complex products -/

theorem complexLane_even (conj : Bool) (j : Nat) (x y : Nat → BitVec 16) : complexLane conj (2 * j) x y =
    (cmul conj ((x (2 * j)).toInt, (x (2 * j + 1)).toInt) ((y (2 * j)).toInt, (y (2 * j + 1)).toInt)).1 := by
  have hpair : 2 * j / 2 * 2 = 2 * j := by omega
  have heven : 2 * j % 2 = 0 := by omega
  simp only [complexLane, hpair, heven, if_true, cmul]
  cases conj <;> rfl

theorem complexLane_odd (conj : Bool) (j : Nat) (x y : Nat → BitVec 16) : complexLane conj (2 * j + 1) x y =
    (cmul conj ((x (2 * j)).toInt, (x (2 * j + 1)).toInt) ((y (2 * j)).toInt, (y (2 * j + 1)).toInt)).2 := by
  have hpair : (2 * j + 1) / 2 * 2 = 2 * j := by omega
  have hodd : (2 * j + 1) % 2 ≠ 0 := by omega
  simp only [complexLane, hpair, hodd, if_false, cmul]
  cases conj <;> rfl

/-- The elements of a register are pairs of its halfwords. -/
theorem complexOf_eq (v : Nat) : complexOf v = (List.range 4).map fun j => ((laneAt 16 (2 * j) v).toInt, (laneAt 16 (2 * j + 1) v).toInt) := by
  refine List.map_congr_left fun j _ => ?_
  have hodd : 16 * (2 * j + 1) = 32 * j + 16 := by ring
  have heven : 16 * (2 * j) = 32 * j := by ring
  have hlane (k : Nat) : toInt 16 (fld v (16 * k) 16) = (laneAt 16 k v).toInt := by
    rw [toInt_eq_toInt (by decide), fld_lane, BitVec.ofNat_toNat, BitVec.setWidth_eq]
  rw [← hlane, ← hlane, hodd, heven]

theorem cmulLanes_eq (conj : Bool) (a b : Nat) :
    cmulLanes conj a b = (List.range 8).map fun k => complexLane conj k (laneAt 16 · a) (laneAt 16 · b) := by
  have hpairs : (List.range 8).map (fun k => complexLane conj k (laneAt 16 · a) (laneAt 16 · b)) = (List.range 4).flatMap fun j =>
      [complexLane conj (2 * j) (laneAt 16 · a) (laneAt 16 · b), complexLane conj (2 * j + 1) (laneAt 16 · a) (laneAt 16 · b)] := rfl
  rw [cmulLanes, complexOf_eq, complexOf_eq, zipWith_range, List.flatMap_map, hpairs]
  refine List.flatMap_congr fun j _ => ?_
  rw [complexLane_even, complexLane_odd]

theorem laneWise_cmulR (conj : Bool) (a b : Nat) : LaneWise 16 (cmulR conj a b) fun k =>
    satLane 16 (roundEven (complexLane conj k (laneAt 16 · a) (laneAt 16 · b)) 15) := by
  rw [cmulR, cmulLanes_eq, List.map_map]
  refine laneWise_packSat fun k _ => ?_
  rw [Function.comp_apply, roundShift_eq_roundEven]
  exact satS_eq_satLane ..

section Forms
variable {core : CoreId} {w : Word} {c : Core} {s : State} {i : Instr}

theorem vecGives_complex {conj : Bool} {fn : Nat} (h : Alone core w c s) (huse : usesVector s c = true) (hop : wOp w.toNat = 0x10)
    (hw : fld w.toNat 9 2 = 1) (hgroups : groupsOk w [wD w.toNat, wS w.toNat, wT w.toNat]) (hfn : wFn w.toNat = fn)
    (hlist : 0x18 ≤ fn ∧ fn ≤ 0x1C) (hruns : exec i s = vr2 core w fn [1] (fun _ _ => cmulR conj) s) :
    let v := fun (j k : Nat) => satLane 16 (roundEven (complexLane conj k (c.lane (wS w.toNat + j) 16) (c.lane (wT w.toNat + j) 16)) 15)
    VecGives core c s i 0 (groupRegs w) fun c' => (∀ j < groupSize w, ∀ k < 8, c'.lane (wD w.toNat + j) 16 k = (v j k).1) ∧ c'.vacc = c.vacc ∧
      c'.statusIs c (∃ j < groupSize w, ∃ k < 8, (v j k).2 = true) fVsat := by
  have hlisted : listedWord w.toNat = true := by simp [listedWord, hop, hfn, hlist]
  obtain ⟨hg, hbit, hregs⟩ := hgroups
  refine vecGives_group (b := 16) (t := wT w.toNat) (F := fun _ _ => cmulR conj) h huse hlisted (isOpFn_of hop hfn)
    (vrOk_of_groupsOk ⟨hg, hbit, hregs⟩ (List.mem_singleton.mpr hw))
    ⟨hg, hbit, fun n hn => hregs n (List.mem_cons.mpr (.inl (List.mem_singleton.mp hn)))⟩ hruns rfl fun j hj => ?_
  rw [Nat.mod_eq_of_lt (group_lt hg (wT_lt _) (hregs _ (by simp)) hj)]
  exact laneWise_cmulR ..

/-! ### Packs -/

/-- The lanes of two registers, rounded and saturated to half width. -/
theorem laneWise_pack {b b' : Nat} {sat : Int → Int × Bool} {sat' : Int → BitVec b' × Bool} (hb : 0 < b) (hhalf : 128 / b' = 2 * (128 / b))
    (hsat : ∀ x, (BitVec.ofInt b' (sat x).1, (sat x).2) = sat' x) (sh x y : Nat) :
    LaneWise b' (packSat b' (((lanesI b x).map fun l => sat (roundShift l sh)) ++ (lanesI b y).map fun l => sat (roundShift l sh))) fun k =>
      sat' (roundEven (if k < 128 / b then (laneAt b k x).toInt else (laneAt b (k - 128 / b) y).toInt) sh) := by
  have hlist : ((lanesI b x).map fun l => sat (roundShift l sh)) ++ (lanesI b y).map (fun l => sat (roundShift l sh)) =
      (List.range (128 / b')).map fun k =>
        sat (roundShift (if k < 128 / b then (laneAt b k x).toInt else (laneAt b (k - 128 / b) y).toInt) sh) := by
    rw [hhalf, Nat.two_mul, List.range_add, List.map_append, lanesI_eq hb, lanesI_eq hb, List.map_map, List.map_map, List.map_map]
    congr 1
    · refine List.map_congr_left fun k hk => ?_
      rw [if_pos (List.mem_range.mp hk)]
      rfl
    · refine List.map_congr_left fun k _ => ?_
      rw [Function.comp_apply, Function.comp_apply, if_neg (by omega), Nat.add_sub_cancel_left]
  rw [hlist]
  refine laneWise_packSat fun k _ => ?_
  rw [roundShift_eq_roundEven]
  exact hsat _

theorem wBits_pos (w : Word) : 0 < wBits w := laneBits_pos _

theorem wBits_of (W : Nat) (hw : fld w.toNat 9 2 = W) : wBits w = 8 * 2 ^ W := by rw [wBits, hw]

theorem vecGives_pack {fn : Nat} {sat : Nat → Int → Int × Bool} {sat' : (b : Nat) → Int → BitVec b × Bool} (h : Alone core w c s)
    (huse : usesVector s c = true) (hop : wOp w.toNat = 0x11) (hw : fld w.toNat 9 2 ∈ [1, 2]) (hgroups : groupsOk w [wD w.toNat, wS w.toNat])
    (hfn : wFn w.toNat = fn) (hlist : 8 ≤ fn ∧ fn ≤ 0xB) (hruns : exec i s = vpack core w fn sat s)
    (hsat : ∀ b x, (BitVec.ofInt b (sat b x).1, (sat b x).2) = sat' b x) :
    ∃ R < 32, let v := fun (j k : Nat) => sat' (wBits w / 2) (roundEven (if k < 128 / wBits w then (c.lane (wS w.toNat + j) (wBits w) k).toInt
        else (c.lane ((R + j) % 32) (wBits w) (k - 128 / wBits w)).toInt) (wT w.toNat))
      VecGives core c s i 1 (groupRegs w) fun c' => (∀ j < groupSize w, ∀ k < 2 * (128 / wBits w), c'.lane (wD w.toNat + j) (wBits w / 2) k = (v j k).1) ∧
        c'.vacc = c.vacc ∧ c'.statusIs c (∃ j < groupSize w, ∃ k < 2 * (128 / wBits w), (v j k).2 = true) fVsat := by
  have hlisted : listedWord w.toNat = true := by simp [listedWord, hop, hfn, hlist]
  have hhalf : 128 / (wBits w / 2) = 2 * (128 / wBits w) := by
    rcases List.mem_pair.mp hw with hW | hW <;> rw [wBits_of _ hW] <;> decide
  obtain ⟨hg, hbit, hregs⟩ := hgroups
  have hgives := vecGives_group (drawn := 1) (t := Config.freeValue s.freeCtr % 32)
    (F := fun b _ a t => packSat (b / 2) (((lanesI b a).map fun l => sat (b / 2) (roundShift l (wT w.toNat))) ++
      (lanesI b t).map fun l => sat (b / 2) (roundShift l (wT w.toNat))))
    h huse hlisted (isOpFn_of hop hfn) (vrOk_of_groupsOk ⟨hg, hbit, hregs⟩ hw)
    ⟨hg, hbit, fun n hn => hregs n (List.mem_cons.mpr (.inl (List.mem_singleton.mp hn)))⟩ hruns rfl
    fun j _ => laneWise_pack (wBits_pos w) hhalf (hsat _) (wT w.toNat) _ _
  rw [hhalf] at hgives
  exact ⟨_, Nat.mod_lt _ (by decide), hgives⟩

/-! ### Unpacks -/

/-- Half of the lanes, sign-extended. -/
theorem laneWise_unpack {b : Nat} (hb : 0 < b) (hhalf : 128 / (2 * b) = 128 / b / 2) (heven : 128 / b / 2 + 128 / b / 2 = 128 / b) (upper : Bool)
    (x : Nat) : LaneWise (2 * b)
      (ofLanes (2 * b) (if upper then (lanesI b x).drop ((lanesI b x).length / 2) else (lanesI b x).take ((lanesI b x).length / 2)), false) fun k =>
        ((laneAt b ((if upper then 128 / b / 2 else 0) + k) x).signExtend (2 * b), false) := by
  have hlen : (lanesI b x).length = 128 / b := by simp [lanesI_eq hb]
  have hget (k : Nat) (hk : k < (lanesI b x).length) : (lanesI b x)[k] = (laneAt b k x).toInt := by
    simp only [lanesI_eq hb, List.getElem_map, List.getElem_range]
  refine laneWise_plain fun k hk => ?_
  rw [hhalf] at hk
  cases upper
  · rw [if_neg Bool.false_ne_true, laneAt_ofLanes (by rw [List.length_take, hlen]; omega), List.getElem_take, hget, if_neg Bool.false_ne_true,
      Nat.zero_add]
    rfl
  · rw [if_pos rfl, laneAt_ofLanes (by rw [List.length_drop, hlen]; omega), List.getElem_drop, hget, if_pos rfl, hlen]
    rfl

theorem vecGives_unpack {fn : Nat} {upper : Bool} (h : Alone core w c s) (huse : usesVector s c = true) (hop : wOp w.toNat = 0x11)
    (hw : fld w.toNat 9 2 ∈ [0, 1]) (hT : wT w.toNat = 0) (hgroups : groupsOk w [wD w.toNat, wS w.toNat]) (hfn : wFn w.toNat = fn)
    (hlist : 8 ≤ fn ∧ fn ≤ 0xB) (hruns : exec i s = vunpk core w fn upper s) :
    VecGives core c s i 0 (groupRegs w) fun c' => (∀ j < groupSize w, ∀ k < 128 / wBits w / 2, c'.lane (wD w.toNat + j) (2 * wBits w) k =
      (c.lane (wS w.toNat + j) (wBits w) ((if upper then 128 / wBits w / 2 else 0) + k)).signExtend (2 * wBits w)) ∧
        c'.vacc = c.vacc ∧ c'.status = c.status := by
  have hlisted : listedWord w.toNat = true := by simp [listedWord, hop, hfn, hlist]
  have hhalf : 128 / (2 * wBits w) = 128 / wBits w / 2 ∧ 128 / wBits w / 2 + 128 / wBits w / 2 = 128 / wBits w := by
    rcases List.mem_pair.mp hw with hW | hW <;> rw [wBits_of _ hW] <;> decide
  obtain ⟨hg, hbit, hregs⟩ := hgroups
  have hfields : (wT w.toNat == 0 && vrOk [0, 1] [wD w.toNat, wS w.toNat] w.toNat) = true := by
    rw [hT, vrOk_of_groupsOk ⟨hg, hbit, hregs⟩ hw]
    rfl
  have hgives := vecGives_group (drawn := 0) (t := 0) (F := fun b _ a _ =>
      (ofLanes (2 * b) (if upper then (lanesI b a).drop ((lanesI b a).length / 2) else (lanesI b a).take ((lanesI b a).length / 2)), false))
    h huse hlisted (isOpFn_of hop hfn) hfields
    ⟨hg, hbit, fun n hn => hregs n (List.mem_cons.mpr (.inl (List.mem_singleton.mp hn)))⟩ hruns rfl
    fun j _ => laneWise_unpack (wBits_pos w) hhalf.1 hhalf.2 upper _
  rw [hhalf.1] at hgives
  exact hgives.imp fun c' ⟨hlanes, hvacc, hstatus⟩ => ⟨hlanes, hvacc, hstatus.2 (by simp)⟩

end Forms

/-- Settles O17: complex products pair the halfwords, a pack joins the lanes of two registers, an unpack takes one half of them. -/
theorem vectorComplexAndPack : Obligations.VectorComplexAndPack := by
  unfold Obligations.VectorComplexAndPack
  intro core w c s h huse D S T b N
  refine ⟨fun hop hw hgroups => ⟨fun hfn => ?vcmulr, fun hfn => ?vcmulrj⟩, fun hop hw hgroups => ⟨fun hfn => ?vpackr, fun hfn => ?vpackru⟩,
    fun hop hw hT hgroups => ⟨fun hfn => ?vunpkl, fun hfn => ?vunpkh⟩⟩
  case vcmulr => exact vecGives_complex h huse hop hw hgroups hfn (by decide) rfl
  case vcmulrj => exact vecGives_complex h huse hop hw hgroups hfn (by decide) rfl
  case vpackr => exact vecGives_pack h huse hop hw hgroups hfn (by decide) rfl satS_eq_satLane
  case vpackru => exact vecGives_pack h huse hop hw hgroups hfn (by decide) rfl satU_eq_satLaneU
  case vunpkl => exact vecGives_unpack (upper := false) h huse hop hw hT hgroups hfn (by decide) rfl
  case vunpkh => exact vecGives_unpack (upper := true) h huse hop hw hT hgroups hfn (by decide) rfl

end Sys2Proof.Machine
end

section
/-!
PROOFS. Vector multiply-accumulates and the transfers of the vector accumulators (R249, R258, R259).
-/
namespace Sys2Proof.Machine

set_option Elab.async false

/-! ### One register, or a pair of registers, takes lanes -/

section Registers
variable {core : CoreId} {c : Core} {s : State} {i : Instr} {b d mask : Nat}

theorem pair_lt {x y : Nat} (hd : d < 32) (heven : d % 2 = 0) : ∀ e ∈ [(d, x), (d + 1, y)], e.1 < 32 :=
  List.forall_mem_cons.mpr ⟨hd, List.forall_mem_singleton.mpr (by dsimp only; omega)⟩

theorem pair_nodup (d : Nat) : [d, d + 1].Nodup := by simp

theorem vWrites_one_orderly {x : Nat} (hd : d < 32) (o : Bool) : Orderly (vWrites c [(d, x)] ++ flagIf o mask) :=
  vWrites_flag_orderly (l := [(d, x)]) (List.forall_mem_singleton.mpr hd) (List.nodup_singleton d) o mask

theorem vWrites_pair_orderly {x y : Nat} (hd : d < 32) (heven : d % 2 = 0) (o : Bool) :
    Orderly (vWrites c [(d, x), (d + 1, y)] ++ flagIf o mask) :=
  vWrites_flag_orderly (pair_lt hd heven) (pair_nodup d) o mask

/-- One vector register takes a number made lane by lane. -/
theorem vecGives_one {p : Nat × Bool} {g : Nat → BitVec b × Bool}
    (hexec : exec i s = .next (applyAll core.val (vWrites c [(d, p.1)] ++ flagIf p.2 mask) (putCore core c.vnext { woken core s with freeCtr := s.freeCtr + 0 })))
    (hd : d < 32) (hp : LaneWise b p g) :
    VecGives core c s i 0 [d] fun c' => (∀ k < 128 / b, c'.lane d b k = (g k).1) ∧ c'.vacc = c.vacc ∧
      c'.statusIs c (∃ k < 128 / b, (g k).2 = true) mask := by
  refine vecGives_of_writes (l := [(d, p.1)]) hexec rfl (by simpa using hd) (List.nodup_singleton d) fun c' hv hvacc hstatus =>
    ⟨fun k hk => ?_, hvacc, Core.statusIs_of_flag hstatus hp.2⟩
  · rw [lane_eq_laneAt, hv _ List.mem_cons_self, laneAt_register hk]
    exact hp.1 k hk

/-- A pair of vector registers takes a list of lanes, its first half in the lower register. -/
theorem vecGives_pair {n : Nat} {v : Nat → Int} {o : Bool} (hn : 128 / b = n)
    (hexec : exec i s = .next (applyAll core.val (vWrites c
      [(d, ofLanes b (((List.range (2 * n)).map v).take n)), (d + 1, ofLanes b (((List.range (2 * n)).map v).drop n))] ++ flagIf o mask)
      (putCore core c.vnext { woken core s with freeCtr := s.freeCtr + 0 })))
    (hd : d < 32) (heven : d % 2 = 0) :
    VecGives core c s i 0 [d, d + 1] fun c' => (∀ k < 2 * n, c'.lane (d + k / n) b (k % n) = BitVec.ofInt b (v k)) ∧ c'.vacc = c.vacc ∧
      c'.status = (c.flag o mask).status := by
  refine vecGives_of_writes hexec rfl (pair_lt hd heven) (pair_nodup d) fun c' hv hvacc hstatus => ⟨fun k hk => ?_, hvacc, hstatus⟩
  · have hpos : 0 < n := by omega
    rcases Nat.lt_or_ge k n with hlow | hhigh
    · rw [Nat.div_eq_of_lt hlow, Nat.mod_eq_of_lt hlow, Nat.add_zero, lane_eq_laneAt, hv _ List.mem_cons_self, laneAt_register (by omega),
        laneAt_ofLanes (by simp; omega)]
      simp
    · have hdiv : k / n = 1 := Nat.div_eq_of_lt_le (by omega) (by omega)
      have hmod : k % n = k - n := by rw [Nat.mod_eq_sub_mod hhigh, Nat.mod_eq_of_lt (by omega)]
      rw [hdiv, hmod, lane_eq_laneAt, hv _ (List.mem_cons_of_mem _ List.mem_cons_self), laneAt_register (by omega),
        laneAt_ofLanes (by simp; omega)]
      simp [show n + (k - n) = k by omega]

end Registers

/-! ### Vector accumulators -/

theorem wrap40_eq (v : Int) : wrap40 v = (BitVec.ofInt 40 v).toInt := by
  rw [wrap40, toInt_eq_toInt (by decide), ← toNat_ofInt_eq, BitVec.ofNat_toNat, BitVec.setWidth_eq]

theorem ofInt_wrap40 (v : Int) : BitVec.ofInt 40 (wrap40 v) = BitVec.ofInt 40 v := by rw [wrap40_eq, BitVec.ofInt_toInt]

theorem over40_eq_beyond40 (v : Int) : over40 v = beyond40 v := by simp [over40, beyond40]

theorem vaccR_eq (c : Core) (n : Nat) : vaccR c n = (List.range 8).map (c.accLane n) := rfl

/-- The record of a core after one vector accumulator took eight lanes. -/
theorem accLane_tset (c : Core) (n : Nat) (v : Nat → Int) {k : Nat} (hk : k < 8) :
    ({ c with vacc := tset n (((List.range 8).map v).map wrap40) c.vacc } : Core).accLane n k = (BitVec.ofInt 40 (v k)).toInt := by
  have hget : (((List.range 8).map v).map wrap40).getD k 0 = wrap40 (v k) := by simp [List.getD_eq_getElem?_getD, hk]
  rw [Core.accLane, vaccR, tget_tset_self, List.getD_eq_getElem _ _ (by simpa [upto] using hk)]
  simp only [List.getElem_map, List.getElem_range, hget]
  rw [← wrap40, wrap40_eq, ofInt_wrap40]

theorem vacc_orderly (n : Nat) (l : List Int) (b : Bool) (mask : Nat) : Orderly (.vacc n l :: flagIf b mask) := by
  cases b
  · exact ⟨List.pairwise_singleton .., by simp [flagIf, SWrite.target]⟩
  · exact ⟨by simp [flagIf, writeOrder], by simp [flagIf, SWrite.target]⟩

section Forms
variable {core : CoreId} {w : Word} {c : Core} {s : State} {i : Instr}

/-- An instruction that writes eight lanes of a vector accumulator. -/
theorem vecGives_vacc {n mask : Nat} {v : Nat → Int} {b : Bool}
    (hexec : exec i s = .next (applyAll core.val (.vacc n ((List.range 8).map v) :: flagIf b mask) (putCore core c.vnext { woken core s with freeCtr := s.freeCtr + 0 }))) :
    VecGives core c s i 0 [] fun c' => (∀ k < 8, c'.accLane n k = (BitVec.ofInt 40 (v k)).toInt) ∧ c'.otherAcc c n ∧
      c'.status = (c.flag b mask).status := by
  rw [applyAll_cons, applyWrite_vacc, applyAll_flagIf] at hexec
  refine ⟨_, hexec, ?_, fun _ _ _ => ?_, fun k hk => ?_, fun m _ hne => ?_, ?_⟩
  · cases b <;> rfl
  · cases b <;> rfl
  · have hlane := accLane_tset c.vnext n v hk
    cases b <;> exact hlane
  · have hother : vaccR { c.vnext with vacc := tset n (((List.range 8).map v).map wrap40) c.vacc } m = vaccR c m := by
      simp only [vaccR, tget_tset_ne hne]
    cases b <;> exact hother
  · cases b <;> rfl

/-! ### Table 7-6 -/

/-- A row of Table 7-6 takes the products `prod` of the model, lane by lane. -/
structure VmacRow.Meets (r : VmacRow) (prod : Nat → Nat → List Int) : Prop where
  runs : ∀ core w s, exec (r.make core w) s = vmUpdate core w r.fn prod r.f s
  products : ∀ a b, prod a b = (List.range 8).map fun k => r.p k (laneAt 16 · a) (laneAt 16 · b)

theorem realProd_eq (a b : Nat) : realProd a b = (List.range 8).map fun k => (laneAt 16 k a).toInt * (laneAt 16 k b).toInt := by
  rw [realProd, lanesI_eq (by decide), lanesI_eq (by decide), zipWith_range]

theorem vmacRows_meet : ∀ r ∈ vmacRows, r.fn ≤ 8 ∧ ∃ prod, r.Meets prod := by
  simp only [vmacRows, List.forall_mem_cons]
  exact ⟨⟨by decide, realProd, fun _ _ _ => rfl, realProd_eq⟩, ⟨by decide, realProd, fun _ _ _ => rfl, realProd_eq⟩,
    ⟨by decide, realProd, fun _ _ _ => rfl, realProd_eq⟩,
    ⟨by decide, cmulLanes false, fun _ _ _ => rfl, cmulLanes_eq false⟩, ⟨by decide, cmulLanes false, fun _ _ _ => rfl, cmulLanes_eq false⟩,
    ⟨by decide, cmulLanes false, fun _ _ _ => rfl, cmulLanes_eq false⟩, ⟨by decide, cmulLanes true, fun _ _ _ => rfl, cmulLanes_eq true⟩,
    ⟨by decide, cmulLanes true, fun _ _ _ => rfl, cmulLanes_eq true⟩, List.forall_mem_nil _⟩

theorem isVm_of {n fn : Nat} (hop : wOp n = 0x12) (hfn : fld n 6 4 = fn) : isVm fn n = true := by simp [isVm, hop, hfn]

theorem vecGives_vmac {r : VmacRow} (h : Alone core w c s) (huse : usesVector s c = true) (hr : r ∈ vmacRows) (hop : wOp w.toNat = 0x12)
    (h12 : fld w.toNat 12 2 = 0) (h10 : w.getLsbD 10 = false) (h0 : fld w.toNat 0 6 = 0) (hfn : fld w.toNat 6 4 = r.fn) :
    let v := fun k => r.f (c.accLane (fld w.toNat 24 2) k)
      ((if w.getLsbD 11 then 2 else 1) * r.p k (c.lane (fld w.toNat 19 5) 16) (c.lane (fld w.toNat 14 5) 16))
    VecGives core c s (r.make core w) 0 [] fun c' => (∀ k < 8, c'.accLane (fld w.toNat 24 2) k = (BitVec.ofInt 40 (v k)).toInt) ∧
      c'.otherAcc c (fld w.toNat 24 2) ∧ c'.statusIs c (∃ k < 8, beyond40 (v k) = true) fAov := by
  intro v
  obtain ⟨hle, prod, hruns, hprod⟩ := vmacRows_meet r hr
  have hlisted : listedWord w.toNat = true := by simp [listedWord, hop, hfn, hle]
  have hfields : vmReserved w.toNat = true := by simp only [vmReserved, h12, h0, bitAt_toNat, h10]; rfl
  have hlanes : List.zipWith r.f (vaccR c (vmAcc w.toNat)) (vmProducts (loneCtx core w c s) prod) = (List.range 8).map v := by
    have hproducts : vmProducts (loneCtx core w c s) prod = (List.range 8).map fun k =>
        (if w.getLsbD 11 then 2 else 1) * r.p k (c.lane (fld w.toNat 19 5) 16) (c.lane (fld w.toNat 14 5) 16) := by
      rw [vmProducts, hprod, List.map_map]
      refine List.map_congr_left fun k _ => ?_
      have hfrac : bitAt (loneCtx core w c s).w 11 = w.getLsbD 11 := bitAt_toNat w 11
      rw [Function.comp_apply, hfrac]
      cases w.getLsbD 11
      · rw [if_neg Bool.false_ne_true, if_neg Bool.false_ne_true, one_mul]
        rfl
      · rfl
    rw [vaccR_eq, hproducts, zipWith_range]
    rfl
  have hrun := (hruns core w s).trans (vec_alone (k := 0) (l := .vacc (fld w.toNat 24 2) ((List.range 8).map fun k => wrap40 (v k)) ::
    flagIf ((List.range 8).any fun k => over40 (v k)) fAov) h huse hlisted (isVm_of hop hfn) hfields ?writes (vacc_orderly ..))
  case writes =>
    have hlanes' : List.zipWith r.f (vaccR (loneCtx core w c s).c (vmAcc (loneCtx core w c s).w)) (vmProducts (loneCtx core w c s) prod) = _ := hlanes
    dsimp only
    rw [hlanes', List.map_map, List.any_map]
    rfl
  refine (vecGives_vacc hrun).imp fun c' ⟨hacc, hother, hstatus⟩ => ⟨fun k hk => ?_, hother, Core.statusIs_of_flag hstatus ?_⟩
  · rw [hacc k hk, ofInt_wrap40]
  · simp only [List.any_eq_true, List.mem_range, over40_eq_beyond40]

theorem vecGives_vclra (h : Alone core w c s) (huse : usesVector s c = true) (hop : wOp w.toNat = 0x12)
    (h12 : fld w.toNat 12 2 = 0) (h10 : w.getLsbD 10 = false) (h0 : fld w.toNat 0 6 = 0) (hfn : fld w.toNat 6 4 = 3)
    (h14 : fld w.toNat 14 10 = 0) (h11 : w.getLsbD 11 = false) :
    VecGives core c s (.vclra core w) 0 [] fun c' => (∀ k < 8, c'.accLane (fld w.toNat 24 2) k = 0) ∧ c'.otherAcc c (fld w.toNat 24 2) ∧
      c'.status = c.status := by
  have hlisted : listedWord w.toNat = true := by simp [listedWord, hop, hfn]
  have hfields : (vmReserved w.toNat && fld w.toNat 14 10 == 0 && !bitAt w.toNat 11) = true := by
    simp only [vmReserved, h12, h0, bitAt_toNat, h10, h14, h11]; rfl
  have hrun : execVclra core w s = _ := vec_alone (k := 0) (l := .vacc (fld w.toNat 24 2) ((List.range 8).map fun _ => 0) :: flagIf false 0)
    h huse hlisted (isVm_of hop hfn) hfields rfl (vacc_orderly ..)
  exact (vecGives_vacc (i := .vclra core w) (s := s) hrun).imp fun c' ⟨hacc, hother, hstatus⟩ => ⟨fun k hk => (hacc k hk).trans rfl, hother, hstatus⟩

/-! ### Accumulator transfers (Table 7-7) -/

theorem isVx_of {n fn : Nat} (hop : wOp n = 0x13) (hfn : fld n 10 3 = fn) : isVx fn n = true := by simp [isVx, hop, hfn]

theorem listedWord_vx {n : Nat} (hop : wOp n = 0x13) (hfn : fld n 10 3 ≤ 2) : listedWord n = true := by simp [listedWord, hop, hfn]

/-- A lane of an accumulator as VEXTR takes it. -/
theorem extr_eq_satLane (a : Int) (sh : Nat) (wide : Bool) :
    (BitVec.ofInt (if wide then 32 else 16) (extr a sh wide).1, (extr a sh wide).2) = satLane (if wide then 32 else 16) (roundEven a sh) := by
  rw [extr, roundShift_eq_roundEven]
  exact satS_eq_satLane ..

theorem vecGives_vextr_halves (h : Alone core w c s) (huse : usesVector s c = true) (hop : wOp w.toNat = 0x13) (h0 : fld w.toNat 0 10 = 0)
    (hfn : fld w.toNat 10 3 = 0) (h13 : w.getLsbD 13 = false) :
    let v := fun k => satLane 16 (roundEven (c.accLane (fld w.toNat 19 2) k) (fld w.toNat 14 5))
    VecGives core c s (.vextr core w) 0 [wD w.toNat] fun c' => (∀ k < 8, c'.lane (wD w.toNat) 16 k = (v k).1) ∧ c'.vacc = c.vacc ∧
      c'.statusIs c (∃ k < 8, (v k).2 = true) fVsat := by
  have hnarrow : bitAt w.toNat 13 = false := (bitAt_toNat w 13).trans h13
  have hfields : (fld w.toNat 0 10 == 0 && (!bitAt w.toNat 13 || wD w.toNat % 2 == 0)) = true := by simp [h0, hnarrow]
  have hlone : bitAt (loneCtx core w c s).w 13 = false := hnarrow
  let p := packSat 16 ((List.range 8).map fun k => extr (c.accLane (fld w.toNat 19 2) k) (fld w.toNat 14 5) false)
  have hrun : execVextr core w s = _ := vec_alone (k := 0) (l := vWrites c [(wD w.toNat, p.1)] ++ flagIf p.2 fVsat) h huse
    (listedWord_vx hop (by omega)) (isVx_of hop hfn) hfields (by simp only [hlone]; rfl)
    (vWrites_one_orderly (wD_lt _) _)
  exact vecGives_one (i := .vextr core w) (s := s) hrun (wD_lt _) (laneWise_packSat fun k _ => extr_eq_satLane _ _ false)

theorem vecGives_vextr_words (h : Alone core w c s) (huse : usesVector s c = true) (hop : wOp w.toNat = 0x13) (h0 : fld w.toNat 0 10 = 0)
    (hfn : fld w.toNat 10 3 = 0) (h13 : w.getLsbD 13 = true) (hD : wD w.toNat % 2 = 0) :
    let v := fun k => satLane 32 (roundEven (c.accLane (fld w.toNat 19 2) k) (fld w.toNat 14 5))
    VecGives core c s (.vextr core w) 0 [wD w.toNat, wD w.toNat + 1] fun c' =>
      (∀ k < 8, c'.lane (wD w.toNat + k / 4) 32 (k % 4) = (v k).1) ∧ c'.vacc = c.vacc ∧ c'.statusIs c (∃ k < 8, (v k).2 = true) fVsat := by
  have hwide : bitAt w.toNat 13 = true := (bitAt_toNat w 13).trans h13
  have hfields : (fld w.toNat 0 10 == 0 && (!bitAt w.toNat 13 || wD w.toNat % 2 == 0)) = true := by simp [h0, hD]
  have hlone : bitAt (loneCtx core w c s).w 13 = true := hwide
  have hlt := wD_lt w.toNat
  let e := fun k => extr (c.accLane (fld w.toNat 19 2) k) (fld w.toNat 14 5) true
  let l := (List.range (2 * 4)).map fun k => (e k).1
  have hrun : execVextr core w s = _ := vec_alone (k := 0)
    (l := vWrites c [(wD w.toNat, ofLanes 32 (l.take 4)), (wD w.toNat + 1, ofLanes 32 (l.drop 4))] ++ flagIf ((List.range 8).any fun k => (e k).2) fVsat)
    h huse (listedWord_vx hop (by omega)) (isVx_of hop hfn) hfields (by simp only [hlone]; rfl)
    (vWrites_pair_orderly hlt hD _)
  have he (k : Nat) : (BitVec.ofInt 32 (e k).1, (e k).2) = satLane 32 (roundEven (c.accLane (fld w.toNat 19 2) k) (fld w.toNat 14 5)) :=
    extr_eq_satLane _ _ true
  refine (vecGives_pair (i := .vextr core w) (s := s) rfl hrun hlt hD).imp fun c' ⟨hlanes, hvacc, hstatus⟩ =>
    ⟨fun k hk => (hlanes k hk).trans (congrArg Prod.fst (he k)), hvacc, Core.statusIs_of_flag hstatus ?_⟩
  simp only [List.any_eq_true, List.mem_range, ← he]

theorem vecGives_vmta (h : Alone core w c s) (huse : usesVector s c = true) (hop : wOp w.toNat = 0x13) (h0 : fld w.toNat 0 10 = 0)
    (hfn : fld w.toNat 10 3 = 1) (h13 : fld w.toNat 13 6 = 0) (hD : wD w.toNat % 2 = 0) :
    VecGives core c s (.vmta core w) 0 [] fun c' =>
      (∀ k < 8, c'.accLane (fld w.toNat 19 2) k = (c.lane (wD w.toNat + k / 4) 32 (k % 4)).toInt) ∧ c'.otherAcc c (fld w.toNat 19 2) ∧
        c'.status = c.status := by
  have hfields : (fld w.toNat 0 10 == 0 && fld w.toNat 13 6 == 0 && wD w.toNat % 2 == 0) = true := by simp [h0, h13, hD]
  let v := fun k => (c.lane (wD w.toNat + k / 4) 32 (k % 4)).toInt
  have hlist : lanesI 32 (vR c (wD w.toNat)) ++ lanesI 32 (vR c (wD w.toNat + 1)) = (List.range 8).map v := by
    rw [lanesI_eq (by decide), lanesI_eq (by decide)]
    rfl
  have hrun : execVmta core w s = _ := vec_alone (k := 0) (l := .vacc (fld w.toNat 19 2) ((List.range 8).map v) :: flagIf false 0)
    h huse (listedWord_vx hop (by omega)) (isVx_of hop hfn) hfields (by rw [← hlist]; rfl) (vacc_orderly ..)
  refine (vecGives_vacc (i := .vmta core w) (s := s) hrun).imp fun c' ⟨hacc, hother, hstatus⟩ => ⟨fun k hk => (hacc k hk).trans ?_, hother, hstatus⟩
  exact BitVec.toInt_signExtend_of_le (x := c.lane (wD w.toNat + k / 4) 32 (k % 4)) (by decide)

theorem vecGives_vmfa (h : Alone core w c s) (huse : usesVector s c = true) (hop : wOp w.toNat = 0x13) (h0 : fld w.toNat 0 10 = 0)
    (hfn : fld w.toNat 10 3 = 2) (h13 : fld w.toNat 13 6 = 0) (hD : wD w.toNat % 2 = 0) :
    VecGives core c s (.vmfa core w) 0 [wD w.toNat, wD w.toNat + 1] fun c' =>
      (∀ k < 8, c'.lane (wD w.toNat + k / 4) 32 (k % 4) = BitVec.ofInt 32 (c.accLane (fld w.toNat 19 2) k)) ∧ c'.vacc = c.vacc ∧
        c'.status = c.status := by
  have hfields : (fld w.toNat 0 10 == 0 && fld w.toNat 13 6 == 0 && wD w.toNat % 2 == 0) = true := by simp [h0, h13, hD]
  have hlt := wD_lt w.toNat
  let l := (List.range (2 * 4)).map (c.accLane (fld w.toNat 19 2))
  have hrun : execVmfa core w s = _ := vec_alone (k := 0)
    (l := vWrites c [(wD w.toNat, ofLanes 32 (l.take 4)), (wD w.toNat + 1, ofLanes 32 (l.drop 4))] ++ flagIf false 0)
    h huse (listedWord_vx hop (by omega)) (isVx_of hop hfn) hfields rfl (vWrites_pair_orderly hlt hD _)
  exact vecGives_pair (i := .vmfa core w) (s := s) rfl hrun hlt hD

end Forms

/-- Settles O18: each lane of an accumulator takes its exact value wrapped to 40 bits, and the transfers move lanes in their order. -/
theorem vectorAccumulators : Obligations.VectorAccumulators := by
  unfold Obligations.VectorAccumulators
  intro core w c s h huse n A X D
  exact ⟨fun hop h12 h10 h0 => ⟨fun r hr hfn => vecGives_vmac h huse hr hop h12 h10 h0 hfn,
      fun hfn h14 h11 => vecGives_vclra h huse hop h12 h10 h0 hfn h14 h11⟩,
    fun hop h0 => ⟨fun hfn h13 => vecGives_vextr_halves h huse hop h0 hfn h13, fun hfn h13 hD => vecGives_vextr_words h huse hop h0 hfn h13 hD,
      fun hfn h13 hD => vecGives_vmta h huse hop h0 hfn h13 hD, fun hfn h13 hD => vecGives_vmfa h huse hop h0 hfn h13 hD⟩⟩

end Sys2Proof.Machine
end

section
/-!
PROOFS. The permutes of the vector unit (R260): the place from which each lane of D comes.
-/
namespace Sys2Proof.Machine

set_option Elab.async false

/-! ### The 32 bytes of S and T -/

theorem joined_eq (a t : Nat) : joined a t = 2 ^ 128 * t + a := Nat.add_comm ..

/-- A lane of two registers side by side is a lane of the lower one, or of the upper one. -/
theorem laneAt_joined {a b k : Nat} (ha : a < 2 ^ 128) (hb : b * (128 / b) = 128) (t : Nat) :
    laneAt b k (joined a t) = if k < 128 / b then laneAt b k a else laneAt b (k - 128 / b) t := by
  refine BitVec.eq_of_getLsbD_eq fun i hi => ?_
  rw [getLsbD_laneAt, joined_eq, Nat.testBit_two_pow_mul_add _ ha]
  by_cases hlow : k < 128 / b
  · have hfits := lane_fits hlow
    rw [if_pos hlow, if_pos (by omega), getLsbD_laneAt]
  · obtain ⟨j, rfl⟩ : ∃ j, k = 128 / b + j := ⟨k - 128 / b, by omega⟩
    have hplace : b * (128 / b + j) + i = 128 + (b * j + i) := by rw [Nat.mul_add, hb]; omega
    rw [if_neg hlow, hplace, if_neg (by omega), Nat.add_sub_cancel_left, Nat.add_sub_cancel_left, getLsbD_laneAt]

theorem lane2_eq {b : Nat} (hb : b * (128 / b) = 128) (c : Core) (m n k : Nat) : c.lane2 m n b k = laneAt b k (joined (vR c m) (vR c n)) := by
  rw [laneAt_joined (vR_lt c m) hb]
  rfl

/-- Lanes of a number moved right by whole lanes. -/
theorem laneAt_fld {b k j n : Nat} (h : b * k + b ≤ n) (v : Nat) : laneAt b k (fld v (b * j) n) = laneAt b (k + j) v := by
  rw [fld, laneAt_mod h, laneAt, laneAt, ← Nat.shiftRight_add, Nat.mul_add, Nat.add_comm (b * j)]

theorem ofNat_fld_lane (b k v : Nat) : BitVec.ofNat b (fld v (b * k) b) = laneAt b k v := by
  rw [fld_lane, BitVec.ofNat_toNat, BitVec.setWidth_eq]

theorem laneAt_interleave {k : Nat} (hk : k < 8) (m a t : Nat) :
    laneAt 16 k (interleave m a t) = if k % 2 = 0 then laneAt 16 (k / 2 + m) a else laneAt 16 (k / 2 + m) t := by
  have hlist : interleave m a t = ofLanesU 16 ((List.range 8).map fun k =>
    if k % 2 = 0 then fld a (16 * (k / 2 + m)) 16 else fld t (16 * (k / 2 + m)) 16) := rfl
  rw [hlist, laneAt_ofLanesU_range hk]
  split <;> exact ofNat_fld_lane ..

/-- The lanes of a register in turned order. -/
theorem laneAt_reverse {b k : Nat} (hk : k < 128 / b) (v : Nat) : laneAt b k (ofLanesU b (lanesU b v).reverse) = laneAt b (128 / b - 1 - k) v := by
  have hlen : (lanesU b v).length = 128 / b := by simp [lanesU_eq]
  have hget : (lanesU b v).reverse[k]'(by rw [List.length_reverse, hlen]; exact hk) = (laneAt b (128 / b - 1 - k) v).toNat := by
    rw [List.getElem_reverse]
    simp only [lanesU_eq, List.getElem_map, List.getElem_range, List.length_map, List.length_range]
  rw [laneAt_ofLanesU (by rw [List.length_reverse, hlen]; exact hk), hget, BitVec.ofNat_toNat, BitVec.setWidth_eq]

theorem laneAt_splat {b k n : Nat} (hk : k < n) (j v : Nat) : laneAt b k (ofLanesU b (List.replicate n (fld v (b * j) b))) = laneAt b j v := by
  rw [laneAt_ofLanesU (by simpa using hk), List.getElem_replicate, ofNat_fld_lane]

/-! ### Table 7-8 -/

/-- A row of Table 7-8 makes D by the model's `F`. -/
structure PermRow.Meets (r : PermRow) (fields : Nat → Bool) (F : Ctx → Nat → Nat → Nat) : Prop where
  listed : r.fn ≤ 9
  runs : ∀ core w s, exec (r.make core w) s = permute core w r.fn fields F s
  admits : ∀ w, r.ok w = true → fields w.toNat = true
  lanes : ∀ core w c s, ∀ k < 128 / r.b, laneAt r.b k (F (loneCtx core w c s) (vR c (vS w)) (vR c (vT w))) = r.f c w k

theorem permRows_meet : ∀ r ∈ permRows, ∃ fields F, r.Meets fields F := by
  simp only [permRows, List.forall_mem_cons]
  refine ⟨⟨fun _ => true, fun x a t => ofLanesU 8 ((lanesU 8 (vR x.c (wMid x.w))).map fun c => if bitAt c 7 then 0 else fld (joined a t) (8 * (c % 32)) 8),
      by decide, fun _ _ _ => rfl, fun _ _ => rfl, fun _ w c _ k hk => ?vpermB⟩,
    ⟨fun v => wMid v ≤ 16, fun x a t => fld (joined a t) (8 * wMid x.w) 128,
      by decide, fun _ _ _ => rfl, fun _ hok => hok, fun _ w c _ k hk => ?valign⟩,
    ⟨fun _ => true, fun _ => interleave 0, by decide, fun _ _ _ => rfl, fun _ _ => rfl, fun _ w c _ k hk => laneAt_interleave hk 0 _ _⟩,
    ⟨fun _ => true, fun _ => interleave 4, by decide, fun _ _ _ => rfl, fun _ _ => rfl, fun _ w c _ k hk => laneAt_interleave hk 4 _ _⟩,
    ⟨fun _ => true, fun _ a t => ofLanesU 16 ((upto 8).map fun i => fld (joined a t) (32 * i) 16),
      by decide, fun _ _ _ => rfl, fun _ _ => rfl, fun _ w c _ k hk => ?vdilveH⟩,
    ⟨fun _ => true, fun _ a t => ofLanesU 16 ((upto 8).map fun i => fld (joined a t) (32 * i + 16) 16),
      by decide, fun _ _ _ => rfl, fun _ _ => rfl, fun _ w c _ k hk => ?vdilvoH⟩,
    ⟨fun v => wT v == 0, fun _ a _ => ofLanesU 16 (lanesU 16 a).reverse,
      by decide, fun _ _ _ => rfl, fun _ hok => hok, fun _ w c _ k hk => laneAt_reverse hk _⟩,
    ⟨fun v => wT v == 0, fun _ a _ => ofLanesU 32 (lanesU 32 a).reverse,
      by decide, fun _ _ _ => rfl, fun _ hok => hok, fun _ w c _ k hk => laneAt_reverse hk _⟩,
    ⟨fun v => wMid v < 8, fun x a _ => ofLanesU 16 (List.replicate 8 (fld a (16 * wMid x.w) 16)),
      by decide, fun _ _ _ => rfl, fun _ hok => hok, fun _ w c _ k hk => laneAt_splat hk _ _⟩,
    ⟨fun v => wMid v < 4, fun x a _ => ofLanesU 32 (List.replicate 4 (fld a (32 * wMid x.w) 32)),
      by decide, fun _ _ _ => rfl, fun _ hok => hok, fun _ w c _ k hk => laneAt_splat hk _ _⟩, List.forall_mem_nil _⟩
  case vpermB =>
    dsimp only
    rw [lanesU_eq, List.map_map, laneAt_ofLanesU_range hk, Function.comp_apply, bitAt_toNat, lane2_eq (by decide)]
    refine Eq.trans (b := if (c.lane (vI w) 8 k).getLsbD 7 then BitVec.ofNat 8 0 else _) (apply_ite ..) ?_
    exact congrArg (ite _ _) (ofNat_fld_lane ..)
  case valign =>
    dsimp only
    rw [laneAt_fld (lane_fits (b := 8) hk), lane2_eq (by decide)]
    rfl
  case vdilveH =>
    have hk8 : k < 8 := hk
    dsimp only [upto]
    rw [laneAt_ofLanesU_range hk8, show 32 * k = 16 * (2 * k) by ring, ofNat_fld_lane, lane2_eq (by decide)]
  case vdilvoH =>
    have hk8 : k < 8 := hk
    dsimp only [upto]
    rw [laneAt_ofLanesU_range hk8, show 32 * k + 16 = 16 * (2 * k + 1) by ring, ofNat_fld_lane, lane2_eq (by decide)]

/-- Settles O19: each row of Table 7-8 writes D once, from the registers as they were. -/
theorem vectorPermutes : Obligations.VectorPermutes := by
  unfold Obligations.VectorPermutes
  intro core w c s h huse hop r hr hfn hok
  obtain ⟨fields, F, hle, hruns, hadmits, hlanes⟩ := permRows_meet r hr
  have hlisted : listedWord w.toNat = true := by simp [listedWord, hop, hfn, hle]
  have hD := wD_lt w.toNat
  have hrun := (hruns core w s).trans (vec_alone (k := 0)
    (l := vWrites c [(wD w.toNat, F (loneCtx core w c s) (vR c (vS w)) (vR c (vT w)))] ++ flagIf false 0) h huse hlisted (isOpFn_of hop hfn)
    (hadmits w hok) rfl (vWrites_one_orderly hD false))
  refine (vecGives_one (p := (_, false)) hrun hD (laneWise_plain (hlanes core w c s))).imp fun c' ⟨hlane, hvacc, hstatus⟩ => ⟨hlane, hvacc, ?_⟩
  exact hstatus.2 (by simp)

end Sys2Proof.Machine
end

section
/-!
PROOFS. Transfers between the vector and the g registers, lane searches and reductions (R261).
-/
namespace Sys2Proof.Machine

set_option Elab.async false

theorem woken_freeCtr (core : CoreId) (s : State) : { woken core s with freeCtr := s.freeCtr + 0 } = woken core s := by
  have hctr : (woken core s).freeCtr = s.freeCtr := by
    unfold woken
    dsimp only
    split <;> rfl
  rw [Nat.add_zero, ← hctr]

/-! ### A lane and a word of another width -/

theorem setWidth_ofInt {m n : Nat} (h : m ≤ n) (z : Int) : (BitVec.ofInt n z).setWidth m = BitVec.ofInt m z := by
  refine BitVec.eq_of_toNat_eq ?_
  have hdvd : ((2 ^ m : Nat) : Int) ∣ ((2 ^ n : Nat) : Int) := Int.natCast_dvd_natCast.mpr (Nat.pow_dvd_pow 2 h)
  have hn : 0 ≤ z % ((2 ^ n : Nat) : Int) := Int.emod_nonneg _ (by positivity)
  have hm : 0 ≤ z % ((2 ^ m : Nat) : Int) := Int.emod_nonneg _ (by positivity)
  rw [BitVec.toNat_setWidth, BitVec.toNat_ofInt, BitVec.toNat_ofInt]
  refine Int.ofNat_inj.mp ?_
  rw [Int.natCast_mod, Int.toNat_of_nonneg hn, Int.toNat_of_nonneg hm]
  exact Int.emod_emod_of_dvd z hdvd

theorem ofNat_gR {b : Nat} (hb : b ≤ 32) (c : Core) (n : Nat) : BitVec.ofNat b (gR c n) = (c.reg n).setWidth b := by
  rw [Core.reg, BitVec.setWidth_ofNat_of_le hb]

theorem gI_eq (c : Core) (n : Nat) : gI c n = (c.reg n).toInt := by rw [gI, toInt_eq_toInt (by decide), Core.reg]

/-- The index of a lane, counted from g T. -/
theorem ofInt_index {b : Nat} (hb : b ≤ 32) (c : Core) (n k : Nat) : BitVec.ofInt b (gI c n + k) = (c.reg n + BitVec.ofNat 32 k).setWidth b := by
  rw [← setWidth_ofInt hb, gI_eq, BitVec.ofInt_add, BitVec.ofInt_toInt, BitVec.ofInt_natCast]

theorem toInt_fld_lane {b : Nat} (hb : 0 < b) (k v : Nat) : toInt b (fld v (b * k) b) = (laneAt b k v).toInt := by
  rw [toInt_eq_toInt hb, ofNat_fld_lane]

/-- A register with one lane replaced. -/
theorem laneAt_setFld (b i k x v : Nat) : laneAt b k (setFld x (b * i) b v) = if k = i then BitVec.ofNat b v else laneAt b k x := by
  rw [← ofNat_fld_lane]
  split
  · next h =>
    rw [h, fld_setFld_self]
    exact BitVec.eq_of_toNat_eq (by simp)
  · next h => rw [fld_setFld_array h, ofNat_fld_lane]

/-! ### Words of format VS -/

section Forms
variable {core : CoreId} {w : Word} {c : Core} {s : State}

theorem wBits_le (hW : fld w.toNat 9 2 ≤ 2) : wBits w ≤ 32 := by
  have h : fld w.toNat 9 2 = 0 ∨ fld w.toNat 9 2 = 1 ∨ fld w.toNat 9 2 = 2 := by omega
  rcases h with h | h | h <;> rw [wBits, h] <;> decide

/-- A form of Table 7-9 whose fields are admitted makes its writes. -/
theorem vs_alone {fn : Nat} {ws : List Nat} {more : Nat → Bool} {f : Ctx → Nat → IRes} {l : List SWrite} (h : Alone core w c s)
    (huse : usesVector s c = true) (hop : wOp w.toNat = 0x15) (hfn : fld w.toNat 0 5 = fn) (hle : fn ≤ 8) (hW : fld w.toNat 9 2 ∈ ws)
    (hL : fld w.toNat 5 4 < 128 / wBits w) (hmore : more w.toNat = true) (hf : f (loneCtx core w c s) (wBits w) = (loneCtx core w c s).ok l)
    (hl : Orderly l) :
    vs core w fn ws more f s = .next (applyAll core.val l (putCore core c.vnext { woken core s with freeCtr := s.freeCtr + 0 })) := by
  have hlisted : listedWord w.toNat = true := by simp [listedWord, hop, hfn, hle]
  have hword : isVs fn w.toNat = true := by simp [isVs, hop, hfn]
  have hfields : (ws.contains (vrW w.toNat) && decide (vsLane w.toNat < 128 / laneBits (vrW w.toNat)) && more w.toNat) = true := by
    have hin : ws.contains (vrW w.toNat) = true := List.contains_iff_mem.mpr hW
    have hlane : vsLane w.toNat < 128 / laneBits (vrW w.toNat) := hL
    rw [hin, decide_eq_true hlane, hmore]
    rfl
  exact vec_alone (k := 0) h huse hlisted hword hfields hf hl

/-- A form that writes one g register, and may set sticky bits. -/
theorem exec_vs_scalar {i : Instr} {fn : Nat} {ws : List Nat} {more : Nat → Bool} {f : Ctx → Nat → IRes} {d : Nat} {v : Int} {b : Bool} {mask : Nat}
    (hruns : exec i s = vs core w fn ws more f s) (h : Alone core w c s)
    (huse : usesVector s c = true) (hop : wOp w.toNat = 0x15) (hfn : fld w.toNat 0 5 = fn) (hle : fn ≤ 8) (hW : fld w.toNat 9 2 ∈ ws)
    (hL : fld w.toNat 5 4 < 128 / wBits w) (hmore : more w.toNat = true)
    (hf : f (loneCtx core w c s) (wBits w) = (loneCtx core w c s).ok ([wG c d v] ++ flagIf b mask)) :
    exec i s = .next (putCore core ((c.vnext.put d (BitVec.ofInt 32 v)).flag b mask) (woken core s)) := by
  have hl := (wG_orderly c d v).1.append (wG_orderly c d v).2 (flagIf_none b mask).1 (flagIf_none b mask).2
  have hput := applyAll_wG core c c.vnext (woken core s) d v rfl
  rw [hruns, vs_alone h huse hop hfn hle hW hL hmore hf hl, woken_freeCtr, applyAll_append, hput, applyAll_flagIf]

/-- A form that writes one vector register. -/
theorem vecGives_vs_one {i : Instr} {fn : Nat} {ws : List Nat} {more : Nat → Bool} {f : Ctx → Nat → IRes} {x : Nat} {g : Nat → BitVec (wBits w)}
    (hruns : exec i s = vs core w fn ws more f s) (h : Alone core w c s)
    (huse : usesVector s c = true) (hop : wOp w.toNat = 0x15) (hfn : fld w.toNat 0 5 = fn) (hle : fn ≤ 8) (hW : fld w.toNat 9 2 ∈ ws)
    (hL : fld w.toNat 5 4 < 128 / wBits w) (hmore : more w.toNat = true)
    (hf : f (loneCtx core w c s) (wBits w) = (loneCtx core w c s).ok [wV c (wD w.toNat) x]) (hx : ∀ k < 128 / wBits w, laneAt (wBits w) k x = g k) :
    VecGives core c s i 0 [wD w.toNat] fun c' =>
      (∀ k < 128 / wBits w, c'.lane (wD w.toNat) (wBits w) k = g k) ∧ c'.vacc = c.vacc ∧ c'.status = c.status := by
  have hrun := hruns.trans (vs_alone (l := vWrites c [(wD w.toNat, x)] ++ flagIf false 0) h huse hop hfn hle hW hL hmore hf
    (vWrites_one_orderly (wD_lt _) false))
  exact (vecGives_one (p := (x, false)) hrun (wD_lt _) (laneWise_plain hx)).imp fun c' ⟨hlane, hvacc, hstatus⟩ =>
    ⟨hlane, hvacc, hstatus.2 (by simp)⟩

/-! ### Transfers -/

section Transfer
variable (h : Alone core w c s) (huse : usesVector s c = true) (hop : wOp w.toNat = 0x15) (hW : fld w.toNat 9 2 ∈ [0, 1, 2])
  (hL : fld w.toNat 5 4 < 128 / wBits w)
include h huse hop hW hL

theorem vecGives_vbcg (hfn : fld w.toNat 0 5 = 0x00) : VecGives core c s (.vbcg core w) 0 [wD w.toNat] fun c' =>
    (∀ k < 128 / wBits w, c'.lane (wD w.toNat) (wBits w) k = (c.reg (wS w.toNat)).setWidth (wBits w)) ∧ c'.vacc = c.vacc ∧ c'.status = c.status := by
  have hb : wBits w ≤ 32 := wBits_le (by simp at hW; omega)
  have hruns : exec (.vbcg core w) s = execVbcg core w s := rfl
  refine vecGives_vs_one hruns h huse hop hfn (by decide) hW hL rfl rfl fun k hk => ?_
  rw [laneAt_ofLanesU (by rw [List.length_replicate]; exact hk), List.getElem_replicate]
  exact ofNat_gR hb c _

theorem exec_vgetl (hfn : fld w.toNat 0 5 = 0x01) : exec (.vgetl core w) s =
    .next (putCore core (c.vnext.put (wD w.toNat) ((c.lane (wS w.toNat) (wBits w) (fld w.toNat 5 4)).signExtend 32)) (woken core s)) := by
  have hruns : exec (.vgetl core w) s = execVgetl core w s := rfl
  rw [exec_vs_scalar (b := false) (mask := 0) hruns h huse hop hfn (by decide) hW hL rfl rfl]
  have hlane := toInt_fld_lane (wBits_pos w) (fld w.toNat 5 4) (vR c (wS w.toNat))
  exact congrArg (fun v => Host.Outcome.next (putCore core (c.vnext.put (wD w.toNat) (BitVec.ofInt 32 v)) (woken core s))) hlane

theorem exec_vgetlu (hfn : fld w.toNat 0 5 = 0x02) : exec (.vgetlu core w) s =
    .next (putCore core (c.vnext.put (wD w.toNat) ((c.lane (wS w.toNat) (wBits w) (fld w.toNat 5 4)).setWidth 32)) (woken core s)) := by
  have hruns : exec (.vgetlu core w) s = execVgetlu core w s := rfl
  rw [exec_vs_scalar (b := false) (mask := 0) hruns h huse hop hfn (by decide) hW hL rfl rfl]
  have hlane : BitVec.ofInt 32 (fld (vR c (wS w.toNat)) (wBits w * fld w.toNat 5 4) (wBits w) : Nat) =
      (c.lane (wS w.toNat) (wBits w) (fld w.toNat 5 4)).setWidth 32 := by
    rw [fld_lane, BitVec.ofInt_natCast, BitVec.ofNat_toNat, lane_eq_laneAt]
  exact congrArg (fun v => Host.Outcome.next (putCore core (c.vnext.put (wD w.toNat) v) (woken core s))) hlane

theorem vecGives_vsetl (hfn : fld w.toNat 0 5 = 0x03) : VecGives core c s (.vsetl core w) 0 [wD w.toNat] fun c' =>
    (∀ k < 128 / wBits w, c'.lane (wD w.toNat) (wBits w) k =
      if k = fld w.toNat 5 4 then (c.reg (wS w.toNat)).setWidth (wBits w) else c.lane (wD w.toNat) (wBits w) k) ∧
      c'.vacc = c.vacc ∧ c'.status = c.status := by
  have hb : wBits w ≤ 32 := wBits_le (by simp at hW; omega)
  have hruns : exec (.vsetl core w) s = execVsetl core w s := rfl
  refine vecGives_vs_one hruns h huse hop hfn (by decide) hW hL rfl rfl fun k _ => ?_
  rw [← ofNat_gR hb]
  exact laneAt_setFld ..

end Transfer

/-! ### Searches -/

theorem zip_range {α β : Type} (g : Nat → α) (h : Nat → β) (n : Nat) :
    ((List.range n).map g).zip ((List.range n).map h) = (List.range n).map fun k => (g k, h k) := List.zip_map' ..

section Searches
variable (h : Alone core w c s) (huse : usesVector s c = true) (hop : wOp w.toNat = 0x15) (hW : fld w.toNat 9 2 ∈ [1, 2])
  (hL : fld w.toNat 5 4 < 128 / wBits w) (hD : wD w.toNat % 2 = 0)
include h huse hop hW hL hD

/-- A lane search: where S is better, the lane of D takes it and that of D + 1 its index. -/
theorem vecGives_vsearch {i : Instr} {fn : Nat} {better : Int → Int → Bool} (hruns : exec i s = vsearch core w fn better s)
    (hfn : fld w.toNat 0 5 = fn) (hle : fn ≤ 8) :
    VecGives core c s i 0 [wD w.toNat, wD w.toNat + 1] fun c' => c'.vacc = c.vacc ∧ c'.status = c.status ∧ ∀ k < 128 / wBits w,
      if better (c.lane (wS w.toNat) (wBits w) k).toInt (c.lane (wD w.toNat) (wBits w) k).toInt then
        c'.lane (wD w.toNat) (wBits w) k = c.lane (wS w.toNat) (wBits w) k ∧
          c'.lane (wD w.toNat + 1) (wBits w) k = (c.reg (wT w.toNat) + BitVec.ofNat 32 k).setWidth (wBits w)
      else c'.lane (wD w.toNat) (wBits w) k = c.lane (wD w.toNat) (wBits w) k ∧
        c'.lane (wD w.toNat + 1) (wBits w) k = c.lane (wD w.toNat + 1) (wBits w) k := by
  have hb : wBits w ≤ 32 := wBits_le (by simp at hW; omega)
  have hb0 := wBits_pos w
  let a := fun k => (c.lane (wS w.toNat) (wBits w) k).toInt
  let d := fun k => (c.lane (wD w.toNat) (wBits w) k).toInt
  let e := fun k => (c.lane (wD w.toNat + 1) (wBits w) k).toInt
  let best := fun k => if better (a k) (d k) then a k else d k
  let index := fun k : Nat => if better (a k) (d k) then gI c (wT w.toNat) + (k : Int) else e k
  let l := [(wD w.toNat, ofLanes (wBits w) ((List.range (128 / wBits w)).map best)),
    (wD w.toNat + 1, ofLanes (wBits w) ((List.range (128 / wBits w)).map index))]
  have hrun : vsearch core w fn better s = _ := vs_alone (l := vWrites c l ++ flagIf false 0) h huse hop hfn hle hW hL
    (beq_iff_eq.mpr hD) ?writes (vWrites_pair_orderly (wD_lt _) hD false)
  case writes =>
    have hlanes (n : Nat) : lanesI (wBits w) (vR (loneCtx core w c s).c n) =
      (List.range (128 / wBits w)).map fun k => (c.lane n (wBits w) k).toInt := lanesI_eq hb0 _
    simp only [hlanes, List.length_map, List.length_range, upto, zipWith_range, zip_range]
    rfl
  refine vecGives_of_writes (l := l) (hruns.trans hrun) rfl (pair_lt (wD_lt _) hD) (pair_nodup _) fun c' hv hvacc hstatus =>
    ⟨hvacc, hstatus, fun k hk => ?_⟩
  have hlow : c'.lane (wD w.toNat) (wBits w) k = BitVec.ofInt (wBits w) (best k) := by
    rw [lane_eq_laneAt, hv _ List.mem_cons_self, laneAt_register hk, laneAt_ofLanes_range hk]
  have hhigh : c'.lane (wD w.toNat + 1) (wBits w) k = BitVec.ofInt (wBits w) (index k) := by
    rw [lane_eq_laneAt, hv _ (List.mem_cons_of_mem _ List.mem_cons_self), laneAt_register hk, laneAt_ofLanes_range hk]
  rw [hlow, hhigh]
  dsimp only [best, index, a, d, e]
  split
  · next hbetter => exact ⟨BitVec.ofInt_toInt, ofInt_index hb ..⟩
  · next hworse => exact ⟨BitVec.ofInt_toInt, BitVec.ofInt_toInt⟩

end Searches

/-! ### Reductions -/

/-- One pair is at least as good as another: by the key, and of equal values by the lower index. -/
def AtLeast (key : Int → Int) (m e : Int × Nat) : Prop := key e.1 ≤ key m.1 ∧ (e.1 = m.1 → m.2 ≤ e.2)

theorem bestLane_foldl {better : Int → Int → Bool} {key : Int → Int} (hbetter : ∀ a d, better a d = decide (key d < key a))
    (hkey : ∀ {a d}, key a = key d → a = d) (l : List (Int × Nat)) (m : Int × Nat) :
    let r := l.foldl (fun m e => if better e.1 m.1 || (e.1 == m.1 && e.2 < m.2) then e else m) m
    (r = m ∨ r ∈ l) ∧ AtLeast key r m ∧ ∀ e ∈ l, AtLeast key r e := by
  induction l generalizing m with
  | nil => exact ⟨.inl rfl, ⟨le_rfl, fun _ => le_rfl⟩, by simp⟩
  | cons x l ih =>
    dsimp only [List.foldl_cons]
    have hnext : ∀ r, AtLeast key r (if better x.1 m.1 || (x.1 == m.1 && x.2 < m.2) then x else m) → AtLeast key r m ∧ AtLeast key r x := by
      intro r ⟨hle, hindex⟩
      simp only [hbetter, Bool.or_eq_true, decide_eq_true_eq, Bool.and_eq_true, beq_iff_eq] at hle hindex
      unfold AtLeast
      split at hle
      · next hx =>
        rw [if_pos hx] at hindex
        rcases hx with hlt | ⟨heq, hlt⟩
        · exact ⟨⟨by omega, fun hm => absurd (congrArg key hm) (by omega)⟩, hle, hindex⟩
        · exact ⟨⟨heq ▸ hle, fun hm => (hindex (heq.trans hm)).trans hlt.le⟩, hle, hindex⟩
      · next hx =>
        rw [if_neg hx] at hindex
        obtain ⟨hnot, hlow⟩ := not_or.mp hx
        refine ⟨⟨hle, hindex⟩, by omega, fun hr => ?_⟩
        have hxm : x.1 = m.1 := hkey (le_antisymm (by omega) (by rw [hr]; exact hle))
        have hm2 : ¬x.2 < m.2 := fun hlt => hlow ⟨hxm, hlt⟩
        exact (hindex (hxm ▸ hr)).trans (by omega)
    obtain ⟨hmem, hm, hl⟩ := ih (if better x.1 m.1 || (x.1 == m.1 && x.2 < m.2) then x else m)
    obtain ⟨hrm, hrx⟩ := hnext _ hm
    refine ⟨?_, hrm, List.forall_mem_cons.mpr ⟨hrx, hl⟩⟩
    rcases hmem with hr | hr
    · rw [hr]
      split
      · exact .inr List.mem_cons_self
      · exact .inl rfl
    · exact .inr (List.mem_cons_of_mem _ hr)

/-- The best pair is one of the list, and none is better. -/
theorem bestLane_best {better : Int → Int → Bool} {key : Int → Int} (hbetter : ∀ a d, better a d = decide (key d < key a))
    (hkey : ∀ {a d}, key a = key d → a = d) {l : List (Int × Nat)} (hl : l ≠ []) :
    bestLane better l ∈ l ∧ ∀ e ∈ l, AtLeast key (bestLane better l) e := by
  cases l with
  | nil => exact absurd rfl hl
  | cons p l =>
    obtain ⟨hmem, hp, hbest⟩ := bestLane_foldl hbetter hkey l p
    exact ⟨List.mem_cons.mpr hmem, List.forall_mem_cons.mpr ⟨hp, hbest⟩⟩

section Reductions
variable (h : Alone core w c s) (huse : usesVector s c = true) (hop : wOp w.toNat = 0x15) (hW : fld w.toNat 9 2 ∈ [1, 2])
  (hL : fld w.toNat 5 4 < 128 / wBits w)
include h huse hop hW hL

/-- A reduction: the pair D takes the best lane of S, sign-extended, and its index in S + 1, zero-extended (log 28). -/
theorem exec_vreduce {i : Instr} {fn : Nat} {better : Int → Int → Bool} {key : Int → Int} (hbetter : ∀ a d, better a d = decide (key d < key a))
    (hkey : ∀ {a d}, key a = key d → a = d) (hruns : exec i s = vreduce core w fn better s) (hfn : fld w.toNat 0 5 = fn) (hle : fn ≤ 8)
    (hD : wD w.toNat % 2 = 0) (hS : wS w.toNat % 2 = 0) :
    ∃ j < 128 / wBits w, (∀ k < 128 / wBits w,
        key (c.lane (wS w.toNat) (wBits w) k).toInt ≤ key (c.lane (wS w.toNat) (wBits w) j).toInt ∧
        (c.lane (wS w.toNat) (wBits w) k = c.lane (wS w.toNat) (wBits w) j →
          (c.lane (wS w.toNat + 1) (wBits w) j).ule (c.lane (wS w.toNat + 1) (wBits w) k) = true)) ∧
      exec i s = .next (putCore core ((c.vnext.put (wD w.toNat) ((c.lane (wS w.toNat) (wBits w) j).signExtend 32)).put (wD w.toNat + 1)
        ((c.lane (wS w.toNat + 1) (wBits w) j).setWidth 32)) (woken core s)) := by
  let pairs := (List.range (128 / wBits w)).map fun k => ((c.lane (wS w.toNat) (wBits w) k).toInt, (c.lane (wS w.toNat + 1) (wBits w) k).toNat)
  have hne : pairs ≠ [] := List.ne_nil_of_length_pos (by rw [List.length_map, List.length_range]; omega)
  obtain ⟨hmem, hbest⟩ := bestLane_best hbetter hkey hne
  obtain ⟨j, hj, hpair⟩ := List.mem_map.mp hmem
  have hbetterAll (k : Nat) (hk : k < 128 / wBits w) := hbest _ (List.mem_map.mpr ⟨k, List.mem_range.mpr hk, rfl⟩)
  have horder := wG_pair_orderly c (wD_lt w.toNat) hD (bestLane better pairs).1 ((bestLane better pairs).2 : Int)
  have hrun : vreduce core w fn better s = _ := vs_alone (l := [wG c (wD w.toNat) (bestLane better pairs).1, wG c (wD w.toNat + 1) (bestLane better pairs).2])
    h huse hop hfn hle hW hL (by simp [hD, hS]) ?writes horder.1
  case writes =>
    have hvalues : lanesI (wBits w) (vR (loneCtx core w c s).c (wS (loneCtx core w c s).w)) = _ := lanesI_eq (wBits_pos w) _
    dsimp only
    rw [hvalues, lanesU_eq, zip_range]
    rfl
  refine ⟨j, List.mem_range.mp hj, fun k hk => ?_, ?_⟩
  · obtain ⟨hkeyLe, hindex⟩ := hbetterAll k hk
    rw [← hpair] at hkeyLe hindex
    refine ⟨hkeyLe, fun heq => ?_⟩
    rw [BitVec.ule_eq_decide, decide_eq_true_eq]
    exact hindex (congrArg BitVec.toInt heq)
  · rw [hruns, hrun, woken_freeCtr, applyAll_wG_pair core c c.vnext _ _ _ _ rfl, ← hpair]
    have hindex : BitVec.ofInt 32 ((c.lane (wS w.toNat + 1) (wBits w) j).toNat : Int) = (c.lane (wS w.toNat + 1) (wBits w) j).setWidth 32 := by
      rw [BitVec.ofInt_natCast, BitVec.ofNat_toNat]
    exact congrArg (fun v => Host.Outcome.next (putCore core
      ((c.vnext.put (wD w.toNat) ((c.lane (wS w.toNat) (wBits w) j).signExtend 32)).put (wD w.toNat + 1) v) (woken core s))) hindex

theorem exec_vrsum (hfn : fld w.toNat 0 5 = 0x08) :
    let v := satWord ((List.range (128 / wBits w)).map fun k => (c.lane (wS w.toNat) (wBits w) k).toInt).sum
    exec (.vrsum core w) s = .next (putCore core ((c.vnext.put (wD w.toNat) v.1).flag v.2 fVsat) (woken core s)) := by
  have hruns : exec (.vrsum core w) s = execVrsum core w s := rfl
  have hsum : (lanesI (wBits w) (vR c (wS w.toNat))).foldl (· + ·) 0 =
      ((List.range (128 / wBits w)).map fun k => (c.lane (wS w.toNat) (wBits w) k).toInt).sum := by
    rw [← List.sum_eq_foldl, lanesI_eq (wBits_pos w)]
    rfl
  have hsat := satS_eq_satLane 32 ((lanesI (wBits w) (vR c (wS w.toNat))).foldl (· + ·) 0)
  rw [exec_vs_scalar hruns h huse hop hfn (by decide) hW hL rfl rfl]
  refine congrArg Host.Outcome.next ?_
  rw [← hsum]
  exact congrArg (fun v : BitVec 32 × Bool => putCore core ((c.vnext.put (wD w.toNat) v.1).flag v.2 fVsat) (woken core s)) hsat

end Reductions

end Forms

/-- Settles O20: what the g and vector registers hold after a transfer, a search lane by lane and a reduction over the lanes. -/
theorem vectorScalarForms : Obligations.VectorScalarForms := by
  unfold Obligations.VectorScalarForms
  intro core w c s h huse hop n D S b N L Scalar Search Reduce
  refine ⟨fun hW hL => ⟨fun hfn => vecGives_vbcg h huse hop hW hL hfn, fun hfn => exec_vgetl h huse hop hW hL hfn,
    fun hfn => exec_vgetlu h huse hop hW hL hfn, fun hfn => vecGives_vsetl h huse hop hW hL hfn⟩,
    fun hW hL => ⟨fun hfn hD => ?vmaxi, fun hfn hD => ?vmini, fun hfn hD hS => ?vrmaxi, fun hfn hD hS => ?vrmini,
      fun hfn => exec_vrsum h huse hop hW hL hfn⟩⟩
  case vmaxi => exact vecGives_vsearch h huse hop hW hL hD (better := fun a d => d < a) rfl hfn (by decide)
  case vmini => exact vecGives_vsearch h huse hop hW hL hD (better := fun a d => a < d) rfl hfn (by decide)
  case vrmaxi =>
    obtain ⟨j, hj, hbest, hexec⟩ := exec_vreduce (i := .vrmaxi core w) h huse hop hW hL (better := fun a d => d < a) (key := id) (fun _ _ => rfl) id rfl
      hfn (by decide) hD hS
    exact ⟨j, hj, fun k hk => ⟨decide_eq_false (not_lt.mpr (hbest k hk).1), (hbest k hk).2⟩, hexec⟩
  case vrmini =>
    obtain ⟨j, hj, hbest, hexec⟩ := exec_vreduce (i := .vrmini core w) h huse hop hW hL (better := fun a d => a < d)
      (key := fun a => -a) (fun _ _ => by simp) neg_injective.eq_iff.mp rfl hfn (by decide) hD hS
    exact ⟨j, hj, fun k hk => ⟨decide_eq_false (not_lt.mpr (neg_le_neg_iff.mp (hbest k hk).1)), (hbest k hk).2⟩, hexec⟩

end Sys2Proof.Machine
end

section
/-!
PROOFS. The maintenance-mode forms of the vector unit (R263, R264): wide products and sums of products.
-/
namespace Sys2Proof.Machine

set_option Elab.async false

/-! ### Products and sums of products -/

theorem mulLanes_signed {b : Nat} (hb : 0 < b) (a t : Nat) :
    mulLanes true b a t = (List.range (128 / b)).map fun k => (laneAt b k a).toInt * (laneAt b k t).toInt := by
  rw [mulLanes, if_pos rfl, lanesI_eq hb, lanesI_eq hb, zipWith_range]

theorem mulLanes_unsigned (b a t : Nat) :
    mulLanes false b a t = (List.range (128 / b)).map fun k => ((laneAt b k a).toNat : Int) * (laneAt b k t).toNat := by
  rw [mulLanes, if_neg Bool.false_ne_true, lanesU_eq, lanesU_eq, zipWith_range]
  exact List.map_congr_left fun k _ => Int.natCast_mul ..

/-- The sum of the products of lanes `n * k` to `n * k + n − 1`. -/
def dotLane (b n a t k : Nat) : Int := ((List.range n).map fun j => (laneAt b (n * k + j) a).toInt * (laneAt b (n * k + j) t).toInt).sum

theorem dotSums_eq {b n : Nat} (hb : 0 < b) (hn : 128 / b = n + n) (a t : Nat) : dotSums b a t = (List.range 2).map (dotLane b n a t) := by
  have hlow : dotLane b n a t 0 = ((List.range n).map fun j => (laneAt b j a).toInt * (laneAt b j t).toInt).sum := by simp [dotLane]
  have hhigh : dotLane b n a t 1 = ((List.range n).map fun j => (laneAt b (n + j) a).toInt * (laneAt b (n + j) t).toInt).sum := by simp [dotLane]
  have hhalf : (n + n) / 2 = n := by omega
  have htwo : (List.range 2).map (dotLane b n a t) = [dotLane b n a t 0, dotLane b n a t 1] := rfl
  rw [htwo, hlow, hhigh, dotSums, mulLanes_signed hb, hn, List.length_map, List.length_range, hhalf, List.range_add, List.map_append,
    List.take_left' (by simp), List.drop_left' (by simp), ← List.sum_eq_foldl, ← List.sum_eq_foldl, List.map_map]
  rfl

/-! ### The forms -/

section Forms
variable {core : CoreId} {w : Word} {c : Core} {s : State} (h : Alone core w c s) (hmaint : inMaint s core.val = true) (hop : wOp w.toNat = 0x16)
  (hG : fld w.toNat 7 2 = 0) (h6 : w.getLsbD 6 = false)
include h hmaint hop hG h6

/-- A form on 0x16 in maintenance mode makes its writes. -/
theorem vmaint_alone {fn W : Nat} {pair : Bool} {f : Ctx → Nat → Nat → List SWrite} {l : List SWrite} (hfn : wFn w.toNat = fn) (hle : fn ≤ 6)
    (hW : fld w.toNat 9 2 = W) (hpair : pair = true → wD w.toNat % 2 = 0)
    (hf : f (loneCtx core w c s) (vR c (wS w.toNat)) (vR c (wT w.toNat)) = l) (hl : Orderly l) :
    vmaint core w fn W pair f s = .next (applyAll core.val l (putCore core c.vnext { woken core s with freeCtr := s.freeCtr + 0 })) := by
  have hlisted : listedWord w.toNat = true := by simp [listedWord, hop, hfn, hle]
  refine issue_woken (k := 0) h hlisted (isOpFn_of hop hfn) ?_ hl
  have hmode : (!inMaint (loneCtx core w c s).s (loneCtx core w c s).n) = false := by rw [Bool.not_eq_false']; exact hmaint
  have hfields : (vrW (loneCtx core w c s).w == W && vrG (loneCtx core w c s).w == 0 && !bitAt (loneCtx core w c s).w 6 &&
      (!pair || wD (loneCtx core w c s).w % 2 == 0)) = true := by
    have hw : (loneCtx core w c s).w = w.toNat := rfl
    have hD : (!pair || wD w.toNat % 2 == 0) = true := by
      cases pair
      · rfl
      · simp [hpair rfl]
    rw [hw, vrW, vrG, hW, hG, bitAt_toNat, h6, hD]
    simp
  rw [hmode, if_neg Bool.false_ne_true, if_pos hfields, ← hf]
  rfl

/-- A wide product of every lane. -/
theorem vecGives_wide {i : Instr} {fn W b n : Nat} {signed : Bool} {f : BitVec b → Int} (hfn : wFn w.toNat = fn) (hle : fn ≤ 3)
    (hW : fld w.toNat 9 2 = W) (hb : laneBits W = b) (hn : 128 / b = 2 * n) (hwide : 128 / (2 * b) = n) (hD : wD w.toNat % 2 = 0)
    (hmul : ∀ a t, mulLanes signed b a t = (List.range (128 / b)).map fun k => f (laneAt b k a) * f (laneAt b k t))
    (hruns : exec i s = vmulw core w fn W signed s) :
    VecGives core c s i 0 [wD w.toNat, wD w.toNat + 1] fun c' => c'.vacc = c.vacc ∧ c'.status = c.status ∧ ∀ k < 128 / b,
      c'.lane (wD w.toNat + k / n) (2 * b) (k % n) =
        BitVec.ofInt (2 * b) (f (c.lane (wS w.toNat) b k) * f (c.lane (wT w.toNat) b k)) := by
  let l := (List.range (2 * n)).map fun k => f (c.lane (wS w.toNat) b k) * f (c.lane (wT w.toNat) b k)
  have hrun : vmulw core w fn W signed s = _ := vmaint_alone h hmaint hop hG h6
    (l := vWrites c [(wD w.toNat, ofLanes (2 * b) (l.take n)), (wD w.toNat + 1, ofLanes (2 * b) (l.drop n))] ++ flagIf false 0)
    hfn (by omega) hW (fun _ => hD) ?writes (vWrites_pair_orderly (wD_lt _) hD _)
  case writes =>
    have hhalf : 2 * n / 2 = n := by omega
    have hlen : l.length = 2 * n := by simp [l]
    have hlist : mulLanes signed (laneBits W) (vR c (wS w.toNat)) (vR c (wT w.toNat)) = l := by
      rw [hb, hmul, hn]
      rfl
    dsimp only
    rw [hlist, hlen, hhalf, hb]
    rfl
  refine (vecGives_pair hwide (hruns.trans hrun) (wD_lt _) hD).imp fun c' ⟨hlanes, hvacc, hstatus⟩ => ⟨hvacc, hstatus, fun k hk => ?_⟩
  exact hlanes k (hn ▸ hk)

/-- A form that leaves one vector register with two sums. -/
theorem vecGives_sums {i : Instr} {fn W : Nat} {f : Ctx → Nat → Nat → List SWrite} {v : Nat → Int} (hfn : wFn w.toNat = fn) (hle : fn ≤ 6)
    (hW : fld w.toNat 9 2 = W) (hruns : exec i s = vmaint core w fn W false f s)
    (hf : f (loneCtx core w c s) (vR c (wS w.toNat)) (vR c (wT w.toNat)) = [wV c (wD w.toNat) (ofLanes 64 ((List.range 2).map v))]) :
    VecGives core c s i 0 [wD w.toNat] fun c' => c'.vacc = c.vacc ∧ c'.status = c.status ∧ ∀ k < 2, c'.lane (wD w.toNat) 64 k = BitVec.ofInt 64 (v k) := by
  have hrun := hruns.trans (vmaint_alone h hmaint hop hG h6
    (l := vWrites c [(wD w.toNat, ofLanes 64 ((List.range 2).map v))] ++ flagIf false 0)
    hfn hle hW (fun hf => absurd hf Bool.false_ne_true) hf (vWrites_one_orderly (wD_lt _) _))
  refine (vecGives_one (p := (_, false)) hrun (wD_lt _) (laneWise_plain (g := fun k => BitVec.ofInt 64 (v k)) fun k hk =>
    laneAt_ofLanes_range hk v)).imp fun c' ⟨hlane, hvacc, hstatus⟩ => ⟨hvacc, hstatus.2 (by simp), hlane⟩

end Forms

/-- Settles O21: the lanes of the wide products pair, and the two sums of products. -/
theorem vectorMaintenanceForms : Obligations.VectorMaintenanceForms := by
  unfold Obligations.VectorMaintenanceForms
  intro core w c s h hmaint hop hG h6 D S T Wide Dot
  refine ⟨fun hW hfn hD => ?vmulwH, fun hW hfn hD => ?vmulwuH, fun hW hfn hD => ?vmulwW, fun hW hfn hD => ?vmulwuW, fun hW hfn => ?vdotH,
    fun hW hfn => ?vdotW, fun hW hfn => ?vdotaH⟩
  case vmulwH =>
    exact vecGives_wide h hmaint hop hG h6 (b := 16) hfn (by decide) hW rfl rfl rfl hD (mulLanes_signed (by decide)) rfl
  case vmulwuH =>
    exact vecGives_wide h hmaint hop hG h6 (b := 16) (f := fun x => x.toNat) hfn (by decide) hW rfl rfl rfl hD (mulLanes_unsigned 16) rfl
  case vmulwW =>
    exact vecGives_wide h hmaint hop hG h6 (b := 32) hfn (by decide) hW rfl rfl rfl hD (mulLanes_signed (by decide)) rfl
  case vmulwuW =>
    exact vecGives_wide h hmaint hop hG h6 (b := 32) (f := fun x => x.toNat) hfn (by decide) hW rfl rfl rfl hD (mulLanes_unsigned 32) rfl
  case vdotH =>
    have hruns : exec (.vdotH core w) s = execVdotH core w s := rfl
    refine (vecGives_sums h hmaint hop hG h6 (v := dotLane 16 4 (vR c S) (vR c T)) hfn (by decide) hW hruns ?_).imp
      fun c' ⟨hvacc, hstatus, hlane⟩ => ⟨hvacc, hstatus, fun k hk => (hlane k hk).trans (BitVec.add_zero _).symm⟩
    rw [dotSums_eq (n := 4) (by decide) rfl]
    rfl
  case vdotW =>
    have hruns : exec (.vdotW core w) s = execVdotW core w s := rfl
    refine (vecGives_sums h hmaint hop hG h6 (v := dotLane 32 2 (vR c S) (vR c T)) hfn (by decide) hW hruns ?_).imp
      fun c' ⟨hvacc, hstatus, hlane⟩ => ⟨hvacc, hstatus, fun k hk => (hlane k hk).trans (BitVec.add_zero _).symm⟩
    rw [dotSums_eq (n := 2) (by decide) rfl]
    rfl
  case vdotaH =>
    have hruns : exec (.vdotaH core w) s = execVdotaH core w s := rfl
    refine (vecGives_sums h hmaint hop hG h6 (v := fun k => dotLane 16 4 (vR c S) (vR c T) k + (c.lane D 64 k).toInt) hfn (by decide) hW hruns
      ?_).imp fun c' ⟨hvacc, hstatus, hlane⟩ => ⟨hvacc, hstatus, fun k hk => (hlane k hk).trans ?_⟩
    · rw [dotSums_eq (n := 4) (by decide) rfl, lanesI_eq (by decide), show 128 / 64 = 2 from rfl, zipWith_range]
      rfl
    · rw [BitVec.ofInt_add, BitVec.ofInt_toInt]
      rfl

end Sys2Proof.Machine
end

section
/-!
PROOFS. An operation of the coprocessor alone in its bundle (R250, R252, R277), for a core that holds the claim: its writes, and the time until
which it is pending.
-/
namespace Sys2Proof.Machine

set_option Elab.async false

/-! ### The writes of a coprocessor operation -/

section Write
variable (core : CoreId) (c : Core) (s : State)

@[simp] theorem applyWrite_cmcFlags (m : Nat) : applyWrite core.val (.cmcFlags m) (putCore core c s) = putCore core c (cmcSets core m s) := rfl

theorem cmcFlagIf_order (b : Bool) (bit : Nat) : (cmcFlagIf b bit).Pairwise (fun x y => writeOrder x ≤ writeOrder y) ∧
    (cmcFlagIf b bit).flatMap SWrite.target = [] ∧ ∀ x ∈ cmcFlagIf b bit, writeOrder x ≤ 2 := by
  cases b <;> simp [cmcFlagIf, SWrite.target, writeOrder]

theorem applyAll_cmcFlagIf (b : Bool) (bit : Nat) :
    applyAll core.val (cmcFlagIf b bit) (putCore core c s) = putCore core c (if b then cmcSets core (2 ^ bit) s else s) := by
  cases b
  · rfl
  · exact applyWrite_cmcFlags core c s (2 ^ bit)

end Write

/-- The record of a core with an operation pending until `t` at least. -/
def Core.pended (c : Core) (t : Nat) : Core := { c with pend := max c.pend t }

theorem Core.put_pended (c : Core) (n : Nat) (v : Word) (t : Nat) : (c.put n v).pended t = (c.pended t).put n v := by
  unfold Core.put
  split <;> rfl

theorem Core.pair_pended (c : Core) (d : Nat) (x y : Word) (t : Nat) : (c.pair d x y).pended t = (c.pended t).pair d x y := by
  rw [Core.pair, Core.put_pended, Core.put_pended, Core.pair]

theorem Core.cxNext_eq (c : Core) (core : CoreId) (w : Word) (s : State) : c.cxNext core w s =
    c.next.pended (now s + cyclesToTc (cxLatency (wFn w.toNat) (cxIdx w.toNat)) (rd s (kPdClkNow (core.val / 9)))) := rfl

/-- Fields of a word whose pair is named by an even D. -/
theorem cxOk_pair {d s t idx : Bool} {n : Nat} (h : cxOk { d := d, s := s, t := t, idx := idx } n = true) (hD : wD n % 2 = 0) :
    cxOk { d := d, pair := true, s := s, t := t, idx := idx } n = true := by
  simp only [cxOk, hD, Bool.and_eq_true] at h ⊢
  simpa using h

section Issue
variable {core : CoreId} {w : Word} {c : Core} {s : State} {i : Instr} {fn : Nat} {u : CxUse} {more : Nat → Bool} {f : Ctx → IRes}

/-- An operation whose fields are admitted, of a core with the claim, makes its writes and is pending. -/
theorem exec_cx {k : Nat} {l : List SWrite} {c1 : Core} {t1 : State} (hruns : exec i s = cx core w fn u more f s) (h : Alone core w c s)
    (huse : usesCmc s c = true) (hclaim : holdsClaim s core.val = true) (hop : wOp w.toNat = 0x1C) (hfn : wFn w.toNat = fn)
    (hlist : fn ≤ 7 ∨ 0x10 ≤ fn ∧ fn ≤ 0x15) (hok : cxOk u w.toNat = true) (hmore : more w.toNat = true)
    (hf : f (loneCtx core w c s) = { s := drew k s, writes := l }) (hl : Orderly l) (hlate : ∀ x ∈ l, writeOrder x ≤ 2)
    (happly : applyAll core.val l (putCore core c.next (drew k s)) = putCore core c1 t1) :
    exec i s = .next (putCore core (c1.pended
      (now s + cyclesToTc (cxLatency (wFn w.toNat) (cxIdx w.toNat)) (rd s (kPdClkNow (core.val / 9))))) t1) := by
  subst hfn
  have hlisted : listedWord w.toNat = true := by simpa [listedWord, hop] using hlist
  have huse' : usesCmc (loneCtx core w c s).s (loneCtx core w c s).c = true := huse
  have hclaim' : holdsClaim (loneCtx core w c s).s (loneCtx core w c s).n = true := hclaim
  have hok' : cxOk u (loneCtx core w c s).w = true := hok
  have hmore' : more (loneCtx core w c s).w = true := hmore
  let pend : SWrite := .cmcPend (now s + cyclesToTc (cxLatency (wFn w.toNat) (cxIdx w.toNat)) (rd s (kPdClkNow (core.val / 9))))
  have hall : Orderly (l ++ [pend]) :=
    ⟨List.pairwise_append.mpr ⟨hl.sorted, List.pairwise_singleton .., fun x hx y hy => by
        rw [List.mem_singleton.mp hy]
        exact hlate x hx⟩,
      by rw [List.flatMap_append]; simpa [SWrite.target, pend] using hl.apart⟩
  let g : Ctx → IRes := fun x =>
    if !usesCmc x.s x.c || !cxOk u x.w || !more x.w then x.fail (excOpcode x.w) (f x)
    else if !holdsClaim x.s x.n then x.bad (excNotOwned x.w)
    else
      let r := f x
      { r with writes := r.writes ++ [.cmcPend (now x.s + cyclesToTc (cxLatency (wFn w.toNat) (cxIdx x.w)) (rd x.s (kPdClkNow (x.n / 9))))] }
  have hg : g (loneCtx core w c s) = { s := drew k s, writes := l ++ [pend] } := by
    simp only [g, huse', hclaim', hok', hmore', hf]
    rfl
  have hissue := issue_alone (c' := c) (isWord := isCx (wFn w.toNat)) (slot := .a) (f := g) h hlisted (isOpFn_of hop rfl)
    (by rw [hg]; exact (coreRun_eq_some h.run).1) (by rw [hg]; exact h.inSlice) (by rw [hg]) (by rw [hg]; exact hall)
  rw [hg] at hissue
  refine hruns.trans (hissue.trans (congrArg Host.Outcome.next ?_))
  dsimp only
  rw [applyAll_append, happly]
  exact applyWrite_cmcPend ..

/-- An operation with a result in the pair D. -/
theorem exec_cx_pair {k bit : Nat} {x y : Int} {b : Bool} (hruns : exec i s = cx core w fn u more f s) (h : Alone core w c s)
    (huse : usesCmc s c = true) (hclaim : holdsClaim s core.val = true) (hop : wOp w.toNat = 0x1C) (hfn : wFn w.toNat = fn)
    (hlist : fn ≤ 7 ∨ 0x10 ≤ fn ∧ fn ≤ 0x15) (hok : cxOk u w.toNat = true) (hmore : more w.toNat = true) (hD : wD w.toNat % 2 = 0)
    (hf : f (loneCtx core w c s) = { s := drew k s, writes := wPair (loneCtx core w c s) x y ++ cmcFlagIf b bit }) :
    exec i s = .next (putCore core ((c.cxNext core w s).pair (wD w.toNat) (BitVec.ofInt 32 x) (BitVec.ofInt 32 y))
      (if b then cmcSets core (2 ^ bit) (drew k s) else drew k s)) := by
  obtain ⟨hpair, hfirst⟩ := wG_pair_orderly c (wD_lt w.toNat) hD x y
  obtain ⟨hsorted, hnone, hlate⟩ := cmcFlagIf_order b bit
  have happly : applyAll core.val (wPair (loneCtx core w c s) x y ++ cmcFlagIf b bit) (putCore core c.next (drew k s)) =
      putCore core (c.next.pair (wD w.toNat) (BitVec.ofInt 32 x) (BitVec.ofInt 32 y)) (if b then cmcSets core (2 ^ bit) (drew k s) else drew k s) := by
    have hput := applyAll_wG_pair core c c.next (drew k s) (wD w.toNat) x y rfl
    rw [applyAll_append, ← applyAll_cmcFlagIf, ← hput]
    rfl
  rw [exec_cx hruns h huse hclaim hop hfn hlist hok hmore hf (hpair.append hfirst hsorted hnone)
    (fun z hz => (List.mem_append.mp hz).elim (fun hz => (hfirst z hz).le.trans (by decide)) (hlate z)) happly, Core.pair_pended, ← Core.cxNext_eq]

/-- An operation with a result in D. -/
theorem exec_cx_one {k bit : Nat} {x : Int} {b : Bool} (hruns : exec i s = cx core w fn u more f s) (h : Alone core w c s)
    (huse : usesCmc s c = true) (hclaim : holdsClaim s core.val = true) (hop : wOp w.toNat = 0x1C) (hfn : wFn w.toNat = fn)
    (hlist : fn ≤ 7 ∨ 0x10 ≤ fn ∧ fn ≤ 0x15) (hok : cxOk u w.toNat = true) (hmore : more w.toNat = true)
    (hf : f (loneCtx core w c s) = { s := drew k s, writes := [wG c (wD w.toNat) x] ++ cmcFlagIf b bit }) :
    exec i s = .next (putCore core ((c.cxNext core w s).put (wD w.toNat) (BitVec.ofInt 32 x))
      (if b then cmcSets core (2 ^ bit) (drew k s) else drew k s)) := by
  obtain ⟨hone, hfirst⟩ := wG_orderly c (wD w.toNat) x
  obtain ⟨hsorted, hnone, hlate⟩ := cmcFlagIf_order b bit
  have happly : applyAll core.val ([wG c (wD w.toNat) x] ++ cmcFlagIf b bit) (putCore core c.next (drew k s)) =
      putCore core (c.next.put (wD w.toNat) (BitVec.ofInt 32 x)) (if b then cmcSets core (2 ^ bit) (drew k s) else drew k s) := by
    rw [applyAll_append, applyAll_wG core c c.next _ _ _ rfl, applyAll_cmcFlagIf]
  rw [exec_cx hruns h huse hclaim hop hfn hlist hok hmore hf (hone.append hfirst hsorted hnone)
    (fun z hz => (List.mem_append.mp hz).elim (fun hz => (hfirst z hz).le.trans (by decide)) (hlate z)) happly, Core.put_pended, ← Core.cxNext_eq]

end Issue

/-! ### Free values (log 29) -/

theorem within_state (lo hi : Int) (s : State) : (within lo hi s).2 = drew 1 s := rfl

theorem within_bounds {lo hi : Int} (h : lo ≤ hi) (s : State) : lo ≤ (within lo hi s).1 ∧ (within lo hi s).1 ≤ hi := by
  have hlt : Config.freeValue s.freeCtr % ((hi - lo).toNat + 1) < (hi - lo).toNat + 1 := Nat.mod_lt _ (Nat.succ_pos _)
  have hval : (within lo hi s).1 = lo + (Config.freeValue s.freeCtr % ((hi - lo).toNat + 1) : Nat) := rfl
  rw [hval]
  omega

theorem clampI_bounds {lo hi : Int} (h : lo ≤ hi) (x : Int) : lo ≤ clampI lo hi x ∧ clampI lo hi x ≤ hi := by
  unfold clampI
  split
  · exact ⟨le_rfl, h⟩
  · split <;> omega

theorem clampI_eq {lo hi x : Int} (hlo : lo ≤ x) (hhi : x ≤ hi) : clampI lo hi x = x := by
  unfold clampI
  rw [if_neg (by omega), if_neg (by omega)]

theorem satS_bounds (x : Int) : -0x8000 ≤ (satS 16 x).1 ∧ (satS 16 x).1 ≤ 0x7FFF := by
  unfold satS
  dsimp only
  split
  · omega
  · split <;> omega

theorem satS_near {x y : Int} (hy : -0x8000 ≤ y) (hy' : y ≤ 0x7FFF) (h : (x - y).natAbs ≤ 1) : ((satS 16 x).1 - y).natAbs ≤ 1 := by
  unfold satS
  dsimp only
  split
  · omega
  · split <;> omega

/-! ### Words and their parts -/

theorem gR_lt (c : Core) (n : Nat) : gR c n < 2 ^ 32 := by
  unfold gR
  split
  · decide
  · exact Nat.mod_lt _ (by decide)

theorem reg_toNat (c : Core) (n : Nat) : (c.reg n).toNat = gR c n := by rw [Core.reg, BitVec.toNat_ofNat, Nat.mod_eq_of_lt (gR_lt c n)]

theorem reg_eq_zero (c : Core) (n : Nat) : c.reg n = 0 ↔ gR c n = 0 := by rw [← reg_toNat, BitVec.toNat_eq]; rfl

theorem ofInt_toNat_eq {z : Int} (h : 0 ≤ z) (h' : z < 2 ^ 32) : ((BitVec.ofInt 32 z).toNat : Int) = z := by
  rw [BitVec.toNat_ofInt]
  omega

/-- A register as a complex number. -/
theorem cxS_eq (core : CoreId) (w : Word) (c : Core) (s : State) :
    cxS (loneCtx core w c s) = (partI (c.reg (wS w.toNat)), partQ (c.reg (wS w.toNat))) := by
  have hpart (a : Word) (lo : Nat) : (a.extractLsb' lo 16).toInt = toInt 16 (a.toNat >>> lo) := by rw [toInt_eq_toInt (by decide)]; rfl
  have hI : partI (c.reg (wS w.toNat)) = toInt 16 (gR c (wS w.toNat)) := by rw [partI, hpart, reg_toNat]; rfl
  have hQ : partQ (c.reg (wS w.toNat)) = toInt 16 (gR c (wS w.toNat) / 65536) := by
    rw [partQ, hpart, reg_toNat, Nat.shiftRight_eq_div_pow]
  rw [hI, hQ]
  rfl

theorem partI_bounds (a : Word) : -0x8000 ≤ partI a ∧ partI a ≤ 0x7FFF := by
  have hlo := (a.extractLsb' 0 16).le_toInt
  have hhi := (a.extractLsb' 0 16).toInt_lt
  unfold partI
  omega

theorem partQ_bounds (a : Word) : -0x8000 ≤ partQ a ∧ partQ a ≤ 0x7FFF := by
  have hlo := (a.extractLsb' 16 16).le_toInt
  have hhi := (a.extractLsb' 16 16).toInt_lt
  unfold partQ
  omega

/-- A word is 0 where both parts are. -/
theorem parts_eq_zero {a : Word} (hI : partI a = 0) (hQ : partQ a = 0) : a = 0 := by
  have hlow : a.extractLsb' 0 16 = 0 := BitVec.toInt_inj.mp hI
  have hhigh : a.extractLsb' 16 16 = 0 := BitVec.toInt_inj.mp hQ
  have hlow' : a.toNat % 65536 = 0 := by simpa using congrArg BitVec.toNat hlow
  have hhigh' : a.toNat / 65536 % 65536 = 0 := by simpa [Nat.shiftRight_eq_div_pow] using congrArg BitVec.toNat hhigh
  have hlt := a.isLt
  exact BitVec.eq_of_toNat_eq (by simp; omega)

/-- |a|² of a complex word. -/
def normWord (a : Word) : Nat := ((partI a) ^ 2 + (partQ a) ^ 2).natAbs

theorem normWord_eq (a : Word) : normWord a = (partI a * partI a + partQ a * partQ a).natAbs := by rw [normWord, pow_two, pow_two]

theorem normWord_cast (a : Word) : (normWord a : Int) = partI a * partI a + partQ a * partQ a := by
  rw [normWord_eq, Int.natCast_natAbs, abs_of_nonneg (by nlinarith)]

theorem normWord_eq_zero {a : Word} : normWord a = 0 ↔ a = 0 := by
  constructor
  · intro h
    have hsum := normWord_cast a
    rw [h] at hsum
    obtain ⟨hI, hQ⟩ := mul_self_add_mul_self_eq_zero.mp hsum.symm
    exact parts_eq_zero hI hQ
  · rintro rfl
    decide

/-- A complex word is its parts side by side. -/
theorem ofInt_complexWord (re im : Int) : BitVec.ofInt 32 (complexWord re im) = BitVec.ofInt 16 im ++ BitVec.ofInt 16 re := by
  have hre := (BitVec.ofInt 16 re).isLt
  have him := (BitVec.ofInt 16 im).isLt
  have hcast : complexWord re im = ((2 ^ 16 * (BitVec.ofInt 16 im).toNat + (BitVec.ofInt 16 re).toNat : Nat) : Int) := by
    rw [complexWord, ← toNat_ofInt_eq, ← toNat_ofInt_eq]
    push_cast
    ring
  refine BitVec.eq_of_toNat_eq ?_
  rw [hcast, BitVec.ofInt_natCast, BitVec.toNat_ofNat, BitVec.toNat_append, ← Nat.shiftLeft_add_eq_or_of_lt hre, Nat.shiftLeft_eq,
    Nat.mod_eq_of_lt (by omega), Nat.mul_comm]

theorem partI_complexWord {re : Int} (h : -0x8000 ≤ re) (h' : re ≤ 0x7FFF) (im : Int) : partI (BitVec.ofInt 32 (complexWord re im)) = re := by
  rw [ofInt_complexWord, partI, BitVec.extractLsb'_append_eq_right, BitVec.toInt_ofInt_eq_self (by decide) (by omega) (by omega)]

theorem partQ_complexWord {im : Int} (h : -0x8000 ≤ im) (h' : im ≤ 0x7FFF) (re : Int) : partQ (BitVec.ofInt 32 (complexWord re im)) = im := by
  rw [ofInt_complexWord, partQ, BitVec.extractLsb'_append_eq_left, BitVec.toInt_ofInt_eq_self (by decide) (by omega) (by omega)]

end Sys2Proof.Machine
end

section
/-!
PROOFS. The scalar functions of the coprocessor (R277 to R279, Tables 7-15 and 7-16).
-/
namespace Sys2Proof.Machine

set_option Elab.async false

/-! ### Integer mathematics -/

theorem isqrtGo_spec {n : Nat} (k r : Nat) (hlo : r * r ≤ n) (hhi : n < (r + 2 ^ k) * (r + 2 ^ k)) :
    isqrtGo n k r * isqrtGo n k r ≤ n ∧ n < (isqrtGo n k r + 1) * (isqrtGo n k r + 1) := by
  induction k generalizing r with
  | zero => exact ⟨hlo, hhi⟩
  | succ k ih =>
    have hnext : r + 2 ^ (k + 1) = r + 2 ^ k + 2 ^ k := by ring
    rw [hnext] at hhi
    simp only [isqrtGo]
    split
    · next hle => exact ih _ hle hhi
    · next hgt => exact ih r hlo (not_le.mp hgt)

/-- The square root rounded down. -/
theorem isqrt_spec (n : Nat) : isqrt n * isqrt n ≤ n ∧ n < (isqrt n + 1) * (isqrt n + 1) := by
  have hpow : (2 ^ (n.log2 / 2 + 1)) * 2 ^ (n.log2 / 2 + 1) = 2 ^ (n.log2 / 2 + 1 + (n.log2 / 2 + 1)) := (Nat.pow_add ..).symm
  have hlt : n < 2 ^ (n.log2 / 2 + 1 + (n.log2 / 2 + 1)) :=
    Nat.lt_log2_self.trans_le (Nat.pow_le_pow_right (by decide) (by omega))
  exact isqrtGo_spec _ 0 (Nat.zero_le _) (by rwa [Nat.zero_add, hpow])

theorem logDigits_bounds (n m acc : Nat) : acc * 2 ^ n ≤ logDigits n m acc ∧ logDigits n m acc < (acc + 1) * 2 ^ n := by
  induction n generalizing m acc with
  | zero => simp [logDigits]
  | succ n ih =>
    rw [logDigits, Nat.pow_succ]
    split
    · have h := ih (m * m / 2 ^ prec / 2) (2 * acc + 1)
      constructor <;> nlinarith
    · have h := ih (m * m / 2 ^ prec) (2 * acc)
      constructor <;> nlinarith

/-- The logarithm lies between those of the powers of two around the number. -/
theorem log2Q24_bounds (v : Nat) : v.log2 * 2 ^ 24 ≤ log2Q24 v ∧ log2Q24 v < (v.log2 + 1) * 2 ^ 24 := by
  have hdigits := (logDigits_bounds 24 (v * 2 ^ prec / 2 ^ v.log2) 0).2
  rw [Nat.zero_add, Nat.one_mul] at hdigits
  rw [Nat.add_mul, Nat.one_mul]
  exact ⟨Nat.le_add_right .., Nat.add_lt_add_left hdigits _⟩

theorem bitAt_zero (k : Nat) : bitAt 0 k = false := by simp [bitAt]

theorem foldl_const {α β : Type} (l : List β) (z : α) : l.foldl (fun z _ => z) z = z := by
  induction l with
  | nil => rfl
  | cons _ _ ih => exact ih

/-- e^0. -/
theorem expJ_zero : expJ 0 = (2 ^ prec, 0) := by
  unfold expJ expPi
  simp only [bitAt_zero, Bool.false_eq_true, if_false, foldl_const]

/-- 2^0. -/
theorem exp2Frac_zero : exp2Frac 0 = 2 ^ prec := by
  unfold exp2Frac
  simp only [bitAt_zero, Bool.false_eq_true, if_false, foldl_const]

/-- A number rounded is within half of it. -/
theorem roundShift_near (x : Int) (sh : Nat) : 2 ^ (sh + 1) * roundShift x (sh + 1) ≤ x + 2 ^ sh ∧ x ≤ 2 ^ (sh + 1) * roundShift x (sh + 1) + 2 ^ sh := by
  have hpos : (0 : Int) < 2 ^ sh := by positivity
  have hpow : (2 : Int) ^ (sh + 1) = 2 * 2 ^ sh := by ring
  have hdiv := Int.emod_add_mul_ediv x (2 ^ (sh + 1))
  have hmod0 := Int.emod_nonneg x (show (2 : Int) ^ (sh + 1) ≠ 0 by positivity)
  have hmod1 := Int.emod_lt_of_pos x (show (0 : Int) < 2 ^ (sh + 1) by positivity)
  unfold roundShift
  simp only [Nat.add_one_ne_zero, if_false, Nat.add_sub_cancel]
  split
  · next h =>
    have hhalf : (2 : Int) ^ sh ≤ x % 2 ^ (sh + 1) := h.elim (fun h => h.le) fun h => h.1.ge
    rw [mul_add]
    constructor <;> linarith
  · next h =>
    have hhalf : x % 2 ^ (sh + 1) ≤ 2 ^ sh := not_lt.mp fun hlt => h (.inl hlt)
    constructor <;> linarith

theorem clampI_eq_max {lo hi : Int} (h : lo ≤ hi) (x : Int) : clampI lo hi x = max lo (min hi x) := by
  unfold clampI
  split
  · omega
  · split <;> omega

/-- A magnitude within 1 of the square root. -/
theorem magnitude_near {n : Nat} {m : Int} (hn : n ≤ 2 ^ 31) (hlo : (isqrt n : Int) - (if isqrt n * isqrt n == n then 1 else 0) ≤ m)
    (hhi : m ≤ isqrt n + 1) : (BitVec.ofInt 32 (clampI 0 46341 m)).toNat ≤ 46341 ∧ n ≤ ((BitVec.ofInt 32 (clampI 0 46341 m)).toNat + 1) ^ 2 ∧
      ((BitVec.ofInt 32 (clampI 0 46341 m)).toNat - 1) ^ 2 ≤ n := by
  obtain ⟨hroot, hroot'⟩ := isqrt_spec n
  have hsmall : isqrt n < 46341 := by nlinarith
  have hclamp := clampI_eq_max (show (0 : Int) ≤ 46341 by decide) m
  have hcast := ofInt_toNat_eq (z := clampI 0 46341 m) (by omega) (by omega)
  generalize (BitVec.ofInt 32 (clampI 0 46341 m)).toNat = y at hcast ⊢
  have habove : isqrt n + 1 ≤ y + 1 ∨ isqrt n * isqrt n = n ∧ isqrt n ≤ y + 1 := by
    split at hlo
    · next hexact => exact .inr ⟨beq_iff_eq.mp hexact, by omega⟩
    · exact .inl (by omega)
  have hbelow : y - 1 ≤ isqrt n := by
    split at hlo <;> omega
  refine ⟨by omega, ?_, (Nat.pow_le_pow_left hbelow 2).trans ((Nat.pow_two _).trans_le hroot)⟩
  rcases habove with hover | ⟨hexact, hover⟩
  · exact hroot'.le.trans ((Nat.pow_two _).symm.trans_le (Nat.pow_le_pow_left hover 2))
  · exact hexact.symm.trans_le ((Nat.pow_two _).symm.trans_le (Nat.pow_le_pow_left hover 2))

/-- A component of CX.ROT before saturation. -/
def rotNear (v : Int) (s : State) : Int × State := within (ceilShift (v - 2 ^ 30) prec - 1) ((v + 2 ^ 30) / 2 ^ prec + 1) s

/-- A component that the rotation does not change comes out within 1 LSB. -/
theorem rotNear_exact (y : Int) (s : State) : ((rotNear (y * 2 ^ 80) s).1 - y).natAbs ≤ 1 := by
  have hlow : ceilShift (y * 2 ^ 80 - 2 ^ 30) prec = y := by
    unfold ceilShift prec
    omega
  have hhigh : (y * 2 ^ 80 + 2 ^ 30) / 2 ^ prec = y := by
    unfold prec
    omega
  obtain ⟨hlo, hhi⟩ := within_bounds (show y - 1 ≤ y + 1 by omega) s
  rw [rotNear, hlow, hhigh]
  omega

/-- The result of CX.LOG2. -/
def log2Near (v : Nat) (s : State) : Int × State := within (ceilShift (log2Q24 v) 8 - 2) (((log2Q24 v : Int) + 2) / 256 + 2) s

theorem log2Near_bounds {v : Nat} (hv : v < 2 ^ 32) (s : State) :
    (v.log2 : Int) * 65536 - 2 ≤ (BitVec.ofInt 32 (log2Near v s).1).toInt ∧
      (BitVec.ofInt 32 (log2Near v s).1).toInt ≤ ((v.log2 : Int) + 1) * 65536 + 2 := by
  obtain ⟨hlo, hhi⟩ := log2Q24_bounds v
  have hlog : v.log2 < 32 := by
    rcases Nat.eq_zero_or_pos v with rfl | hpos
    · decide
    · exact (Nat.log2_lt hpos.ne').mpr hv
  have hlow : (v.log2 : Int) * 65536 ≤ ceilShift (log2Q24 v) 8 := by
    unfold ceilShift
    omega
  have hhigh : ((log2Q24 v : Int) + 2) / 256 ≤ (v.log2 + 1) * 65536 := by omega
  have hwide : ceilShift (log2Q24 v) 8 ≤ ((log2Q24 v : Int) + 2) / 256 + 1 := by
    unfold ceilShift
    omega
  obtain ⟨hfree, hfree'⟩ := within_bounds (show ceilShift (log2Q24 v) 8 - 2 ≤ ((log2Q24 v : Int) + 2) / 256 + 2 by omega) s
  change _ ≤ (log2Near v s).1 at hfree
  change (log2Near v s).1 ≤ _ at hfree'
  rw [BitVec.toInt_ofInt_eq_self (by decide) (by omega) (by omega)]
  omega

/-- The result of CX.EXP2 before it is limited to 32 bits. -/
def exp2Near (v : Int) (s : State) : Int × State :=
  let y : Int := scaled (exp2Frac (v % 65536).toNat) (2 ^ prec) (v / 65536 + 16 + 48)
  within (roundShift (y - y / 2 ^ 20 - 4) 48) (roundShift (y + y / 2 ^ 20 + 4) 48) s

theorem scaled_self {p : Nat} (hp : 0 < p) (e : Nat) : scaled p p e = 2 ^ e := by
  rw [scaled, Int.toNat_natCast, Int.toNat_neg_natCast, pow_zero, mul_one, Nat.mul_div_cancel_left _ hp]

/-- Rounding keeps the order. -/
theorem roundShift_le {x y : Int} (h : x < y) (sh : Nat) : roundShift x (sh + 1) ≤ roundShift y (sh + 1) := by
  obtain ⟨hx, -⟩ := roundShift_near x sh
  obtain ⟨-, hy⟩ := roundShift_near y sh
  have hpos : (0 : Int) < 2 ^ (sh + 1) := by positivity
  have hpow : (2 : Int) ^ (sh + 1) = 2 * 2 ^ sh := by ring
  refine Int.lt_add_one_iff.mp (lt_of_mul_lt_mul_left ?_ hpos.le)
  rw [mul_add]
  linarith

/-- At a whole number the result keeps the error bound. -/
theorem exp2Near_bounds {k : Nat} (hk : k < 32) (s : State) :
    2 ^ 20 * (((BitVec.ofInt 32 (clampI 0 (2 ^ 32 - 1) (exp2Near (((k : Int) - 16) * 65536) s).1)).toNat : Int) - 2 ^ k).natAbs ≤ 2 ^ k + 2 ^ 20 := by
  have hmod : (((k : Int) - 16) * 65536 % 65536).toNat = 0 := by omega
  have hdiv : ((k : Int) - 16) * 65536 / 65536 + 16 + 48 = (k + 48 : Nat) := by omega
  have hK : (2 : Int) ^ k ≤ 2 ^ 31 := pow_le_pow_right₀ (by decide) (by omega)
  have hK0 : (0 : Int) < 2 ^ k := by positivity
  have hy : ((scaled (exp2Frac 0) (2 ^ prec) (k + 48 : Nat) : Nat) : Int) = 2 ^ 48 * 2 ^ k := by
    rw [exp2Frac_zero, scaled_self (Nat.two_pow_pos _), Nat.pow_add]
    push_cast
    ring
  have hcast : ((2 ^ k : Nat) : Int) = 2 ^ k := by push_cast; rfl
  generalize (2 ^ k : Nat) = m at hcast ⊢
  rw [exp2Near, hmod, hdiv, hy]
  generalize (2 : Int) ^ k = K at *
  have hlow := (roundShift_near (2 ^ 48 * K - 2 ^ 48 * K / 2 ^ 20 - 4) 47).2
  have hhigh := (roundShift_near (2 ^ 48 * K + 2 ^ 48 * K / 2 ^ 20 + 4) 47).1
  obtain ⟨hd, hd'⟩ := within_bounds (roundShift_le (show 2 ^ 48 * K - 2 ^ 48 * K / 2 ^ 20 - 4 < 2 ^ 48 * K + 2 ^ 48 * K / 2 ^ 20 + 4 by omega) 47) s
  generalize (within (roundShift (2 ^ 48 * K - 2 ^ 48 * K / 2 ^ 20 - 4) (47 + 1)) (roundShift (2 ^ 48 * K + 2 ^ 48 * K / 2 ^ 20 + 4) (47 + 1)) s).1 = d at *
  have hclamp := clampI_eq_max (show (0 : Int) ≤ 2 ^ 32 - 1 by decide) d
  have hword := ofInt_toNat_eq (z := clampI 0 (2 ^ 32 - 1) d) (by omega) (by omega)
  omega

/-! ### Results -/

section Forms
variable {core : CoreId} {w : Word} {c : Core} {s : State} {i : Instr} {fn : Nat} {u : CxUse} {f : Ctx → IRes}

/-- An operation without flags whose pair of results has a property. -/
theorem cx_pair_gives {P : Word → Word → Prop} (hruns : exec i s = cx core w fn u (fun _ => true) f s) (h : Alone core w c s)
    (huse : usesCmc s c = true) (hclaim : holdsClaim s core.val = true) (hop : wOp w.toNat = 0x1C) (hfn : wFn w.toNat = fn) (hle : fn ≤ 7)
    (hok : cxOk u w.toNat = true) (hD : wD w.toNat % 2 = 0)
    (hf : ∃ x y k, P (BitVec.ofInt 32 x) (BitVec.ofInt 32 y) ∧
      f (loneCtx core w c s) = { s := drew k s, writes := wPair (loneCtx core w c s) x y }) :
    ∃ x y k, P x y ∧ exec i s = .next (putCore core ((c.cxNext core w s).pair (wD w.toNat) x y) (drew k s)) := by
  obtain ⟨x, y, k, hP, hf⟩ := hf
  exact ⟨_, _, k, hP, exec_cx_pair (b := false) (bit := 0) hruns h huse hclaim hop hfn (.inl hle) hok rfl hD hf⟩

/-- An operation without flags whose result has a property. -/
theorem cx_one_gives {P : Word → Prop} (hruns : exec i s = cx core w fn u (fun _ => true) f s) (h : Alone core w c s)
    (huse : usesCmc s c = true) (hclaim : holdsClaim s core.val = true) (hop : wOp w.toNat = 0x1C) (hfn : wFn w.toNat = fn) (hle : fn ≤ 7)
    (hok : cxOk u w.toNat = true)
    (hf : ∃ x k, P (BitVec.ofInt 32 x) ∧ f (loneCtx core w c s) = { s := drew k s, writes := [wG c (wD w.toNat) x] }) :
    ∃ x k, P x ∧ exec i s = .next (putCore core ((c.cxNext core w s).put (wD w.toNat) x) (drew k s)) := by
  obtain ⟨x, k, hP, hf⟩ := hf
  exact ⟨_, k, hP, exec_cx_one (b := false) (bit := 0) hruns h huse hclaim hop hfn (.inl hle) hok rfl hf⟩

end Forms

/-! ### The functions -/

section Functions
variable {core : CoreId} {w : Word} {c : Core} {s : State} (h : Alone core w c s) (huse : usesCmc s c = true)
  (hclaim : holdsClaim s core.val = true)
include h huse hclaim

/-! CX.CRECIP -/

theorem exec_cxCrecip_zero (hw : cxWord w 0x00 true true false false) (hD : wD w.toNat % 2 = 0) (ha : c.reg (wS w.toNat) = 0) :
    exec (.cxCrecip core w) s =
      .next (putCore core ((c.cxNext core w s).pair (wD w.toNat) 0x7FFF 127) (cmcSets core (2 ^ 4) s)) := by
  obtain ⟨hop, hfn, hok⟩ := hw
  have hruns : exec (.cxCrecip core w) s = execCxCrecip core w s := rfl
  refine exec_cx_pair (k := 0) (bit := 4) (x := 0x7FFF) (y := 127) (b := true) hruns h huse hclaim hop hfn (by decide) (cxOk_pair hok hD) rfl hD ?_
  rw [cxS_eq, ha]
  rfl

end Functions

/-- The parts of a reciprocal from its parts within the bound: where both are too small, the larger one is put on the limit. -/
def recipParts (i q d1 d2 : Int) : Int × Int :=
  let m := max i.natAbs q.natAbs
  let low := max d1.natAbs d2.natAbs < 0x4000
  (if low && m == i.natAbs then (if i < 0 then -0x4000 else 0x4000) else d1, if low && m != i.natAbs then (if 0 < q then -0x4000 else 0x4000) else d2)

theorem recipParts_bounds {d1 d2 : Int} (h1 : -0x7FFF ≤ d1 ∧ d1 ≤ 0x7FFF) (h2 : -0x7FFF ≤ d2 ∧ d2 ≤ 0x7FFF) (i q : Int) :
    0x4000 ≤ max (recipParts i q d1 d2).1.natAbs (recipParts i q d1 d2).2.natAbs ∧
      max (recipParts i q d1 d2).1.natAbs (recipParts i q d1 d2).2.natAbs ≤ 0x7FFF := by
  unfold recipParts
  by_cases hlow : max d1.natAbs d2.natAbs < 0x4000
  · by_cases hm : max i.natAbs q.natAbs = i.natAbs
    · simp only [hlow, hm, decide_true, Bool.true_and, beq_self_eq_true, bne_self_eq_false, if_true, Bool.false_eq_true, if_false]
      split <;> omega
    · simp only [hlow, decide_true, Bool.true_and, beq_iff_eq, hm, bne_iff_ne, ne_eq, if_false, not_false_eq_true, if_true]
      split <;> omega
  · simp only [hlow, decide_false, Bool.false_and, Bool.false_eq_true, if_false]
    omega

theorem largerPart_recipParts {d1 d2 : Int} (h1 : -0x7FFF ≤ d1 ∧ d1 ≤ 0x7FFF) (h2 : -0x7FFF ≤ d2 ∧ d2 ≤ 0x7FFF) (i q : Int) :
    0x4000 ≤ largerPart (BitVec.ofInt 32 (complexWord (recipParts i q d1 d2).1 (recipParts i q d1 d2).2)) ∧
      largerPart (BitVec.ofInt 32 (complexWord (recipParts i q d1 d2).1 (recipParts i q d1 d2).2)) ≤ 0x7FFF := by
  have hbounds := recipParts_bounds h1 h2 i q
  rw [largerPart, partI_complexWord (by omega) (by omega), partQ_complexWord (by omega) (by omega)]
  exact hbounds

section Functions
variable {core : CoreId} {w : Word} {c : Core} {s : State} (h : Alone core w c s) (huse : usesCmc s c = true)
  (hclaim : holdsClaim s core.val = true)
include h huse hclaim

theorem exec_cxCrecip (hw : cxWord w 0x00 true true false false) (hD : wD w.toNat % 2 = 0) (ha : c.reg (wS w.toNat) ≠ 0) :
    ∃ x y k, (0x4000 ≤ largerPart x ∧ largerPart x ≤ 0x7FFF) ∧
      exec (.cxCrecip core w) s = .next (putCore core ((c.cxNext core w s).pair (wD w.toNat) x y) (drew k s)) := by
  obtain ⟨hop, hfn, hok⟩ := hw
  have hruns : exec (.cxCrecip core w) s = execCxCrecip core w s := rfl
  have hn : ¬(partI (c.reg (wS w.toNat)) * partI (c.reg (wS w.toNat)) + partQ (c.reg (wS w.toNat)) * partQ (c.reg (wS w.toNat))).natAbs = 0 :=
    normWord_eq _ ▸ fun h0 => ha (normWord_eq_zero.mp h0)
  refine cx_pair_gives (P := fun x _ => 0x4000 ≤ largerPart x ∧ largerPart x ≤ 0x7FFF) hruns h huse hclaim hop hfn (by decide) (cxOk_pair hok hD) hD ?_
  rw [cxS_eq]
  dsimp only
  rw [if_neg hn]
  refine ⟨complexWord (recipParts _ _ (clampI _ _ _) (clampI _ _ _)).1 (recipParts _ _ (clampI _ _ _) (clampI _ _ _)).2, _, 3, ?_, rfl⟩
  exact largerPart_recipParts (clampI_bounds (by decide) _) (clampI_bounds (by decide) _) _ _

/-! CX.RSQRT -/

theorem exec_cxRsqrt_zero (hw : cxWord w 0x01 true true false false) (hD : wD w.toNat % 2 = 0) (ha : c.reg (wS w.toNat) = 0) :
    exec (.cxRsqrt core w) s =
      .next (putCore core ((c.cxNext core w s).pair (wD w.toNat) 0x7FFFFFFF 127) (cmcSets core (2 ^ 4) s)) := by
  obtain ⟨hop, hfn, hok⟩ := hw
  have hruns : exec (.cxRsqrt core w) s = execCxRsqrt core w s := rfl
  have hzero : gR (loneCtx core w c s).c (wS (loneCtx core w c s).w) = 0 := (reg_eq_zero ..).mp ha
  refine exec_cx_pair (k := 0) (bit := 4) (x := 0x7FFFFFFF) (y := 127) (b := true) hruns h huse hclaim hop hfn (by decide) (cxOk_pair hok hD) rfl hD ?_
  dsimp only
  rw [if_pos hzero]
  rfl

theorem exec_cxRsqrt (hw : cxWord w 0x01 true true false false) (hD : wD w.toNat % 2 = 0) (ha : c.reg (wS w.toNat) ≠ 0) :
    ∃ x y k, (0x40000000 ≤ x.toNat ∧ x.toNat ≤ 0x7FFFFFFF) ∧
      exec (.cxRsqrt core w) s = .next (putCore core ((c.cxNext core w s).pair (wD w.toNat) x y) (drew k s)) := by
  obtain ⟨hop, hfn, hok⟩ := hw
  have hruns : exec (.cxRsqrt core w) s = execCxRsqrt core w s := rfl
  have hnonzero : ¬gR (loneCtx core w c s).c (wS (loneCtx core w c s).w) = 0 := fun h0 => ha ((reg_eq_zero ..).mpr h0)
  have hrange (z : Int) : 0x40000000 ≤ (BitVec.ofInt 32 (clampI (2 ^ 30) (2 ^ 31 - 1) z)).toNat ∧
      (BitVec.ofInt 32 (clampI (2 ^ 30) (2 ^ 31 - 1) z)).toNat ≤ 0x7FFFFFFF := by
    obtain ⟨hlo, hhi⟩ := clampI_bounds (show (2 ^ 30 : Int) ≤ 2 ^ 31 - 1 by decide) z
    have hcast := ofInt_toNat_eq (z := clampI (2 ^ 30) (2 ^ 31 - 1) z) (by omega) (by omega)
    omega
  refine cx_pair_gives (P := fun x _ => 0x40000000 ≤ x.toNat ∧ x.toNat ≤ 0x7FFFFFFF) hruns h huse hclaim hop hfn (by decide) (cxOk_pair hok hD) hD ?_
  dsimp only
  rw [if_neg hnonzero]
  exact ⟨_, _, 2, hrange _, rfl⟩

/-! CX.ATAN2 -/

theorem exec_cxAtan2_zero (hw : cxWord w 0x02 true true false false) (hD : wD w.toNat % 2 = 0) (ha : c.reg (wS w.toNat) = 0) :
    exec (.cxAtan2 core w) s = .next (putCore core ((c.cxNext core w s).pair (wD w.toNat) 0 0) s) := by
  obtain ⟨hop, hfn, hok⟩ := hw
  have hruns : exec (.cxAtan2 core w) s = execCxAtan2 core w s := rfl
  refine exec_cx_pair (k := 0) (bit := 0) (x := 0) (y := 0) (b := false) hruns h huse hclaim hop hfn (by decide) (cxOk_pair hok hD) rfl hD ?_
  rw [cxS_eq, ha]
  rfl

theorem exec_cxAtan2 (hw : cxWord w 0x02 true true false false) (hD : wD w.toNat % 2 = 0) (ha : c.reg (wS w.toNat) ≠ 0) :
    ∃ x y k, (y.toNat ≤ 46341 ∧ normWord (c.reg (wS w.toNat)) ≤ (y.toNat + 1) ^ 2 ∧ (y.toNat - 1) ^ 2 ≤ normWord (c.reg (wS w.toNat))) ∧
      exec (.cxAtan2 core w) s = .next (putCore core ((c.cxNext core w s).pair (wD w.toNat) x y) (drew k s)) := by
  obtain ⟨hop, hfn, hok⟩ := hw
  have hruns : exec (.cxAtan2 core w) s = execCxAtan2 core w s := rfl
  have hparts : ¬(partI (c.reg (wS w.toNat)) = 0 ∧ partQ (c.reg (wS w.toNat)) = 0) := fun hz => ha (parts_eq_zero hz.1 hz.2)
  have hnorm : normWord (c.reg (wS w.toNat)) ≤ 2 ^ 31 := by
    obtain ⟨hI, hI'⟩ := partI_bounds (c.reg (wS w.toNat))
    obtain ⟨hQ, hQ'⟩ := partQ_bounds (c.reg (wS w.toNat))
    have hcast := normWord_cast (c.reg (wS w.toNat))
    zify
    nlinarith
  refine cx_pair_gives (P := fun _ y => y.toNat ≤ 46341 ∧ normWord (c.reg (wS w.toNat)) ≤ (y.toNat + 1) ^ 2 ∧
    (y.toNat - 1) ^ 2 ≤ normWord (c.reg (wS w.toNat))) hruns h huse hclaim hop hfn (by decide) (cxOk_pair hok hD) hD ?_
  rw [cxS_eq]
  dsimp only
  rw [if_neg hparts, ← normWord_eq]
  obtain ⟨hlo, hhi⟩ := within_bounds (lo := (isqrt (normWord (c.reg (wS w.toNat))) : Int) -
    (if isqrt (normWord (c.reg (wS w.toNat))) * isqrt (normWord (c.reg (wS w.toNat))) == normWord (c.reg (wS w.toNat)) then 1 else 0))
    (hi := isqrt (normWord (c.reg (wS w.toNat))) + 1) (by split <;> omega) (drew 1 s)
  exact ⟨_, clampI 0 46341 _, 2, magnitude_near hnorm hlo hhi, rfl⟩

/-! CX.ROT -/

theorem exec_cxRot (hw : cxWord w 0x03 true true true false) :
    ∃ (x : Word) (k : Nat) (sat : Bool),
      (c.reg (wT w.toNat) = 0 → (partI x - partI (c.reg (wS w.toNat))).natAbs ≤ 1 ∧ (partQ x - partQ (c.reg (wS w.toNat))).natAbs ≤ 1) ∧
      exec (.cxRot core w) s =
        .next (putCore core ((c.cxNext core w s).put (wD w.toNat) x) (if sat then cmcSets core (2 ^ 7) (drew k s) else drew k s)) := by
  obtain ⟨hop, hfn, hok⟩ := hw
  have hruns : exec (.cxRot core w) s = execCxRot core w s := rfl
  obtain ⟨hI, hI'⟩ := partI_bounds (c.reg (wS w.toNat))
  obtain ⟨hQ, hQ'⟩ := partQ_bounds (c.reg (wS w.toNat))
  let p := cmul false (partI (c.reg (wS w.toNat)), partQ (c.reg (wS w.toNat))) (expJ (gR c (wT w.toNat)))
  have hnear (s' : State) (y v : Int) (hy : -0x8000 ≤ y) (hy' : y ≤ 0x7FFF) (hv : v = y * 2 ^ 80) : ((satS 16 (rotNear v s').1).1 - y).natAbs ≤ 1 :=
    satS_near hy hy' (hv ▸ rotNear_exact y s')
  refine ⟨_, 2, _, fun hb => ?_, exec_cx_one (bit := 7) (k := 2) (x := complexWord (satS 16 (rotNear p.1 s).1).1 (satS 16 (rotNear p.2 (drew 1 s)).1).1)
    (b := (satS 16 (rotNear p.1 s).1).2 || (satS 16 (rotNear p.2 (drew 1 s)).1).2) hruns h huse hclaim hop hfn (by decide) hok rfl ?_⟩
  · have hp : p = (partI (c.reg (wS w.toNat)) * 2 ^ 80, partQ (c.reg (wS w.toNat)) * 2 ^ 80) := by
      simp [p, (reg_eq_zero ..).mp hb, expJ_zero, cmul, prec]
    obtain ⟨hre, hre'⟩ := satS_bounds (rotNear p.1 s).1
    obtain ⟨him, him'⟩ := satS_bounds (rotNear p.2 (drew 1 s)).1
    rw [partI_complexWord hre hre', partQ_complexWord him him']
    exact ⟨hnear _ _ _ hI hI' (congrArg Prod.fst hp), hnear _ _ _ hQ hQ' (congrArg Prod.snd hp)⟩
  · rw [cxS_eq]
    rfl

/-! CX.LOG2 -/

theorem exec_cxLog2_zero (hw : cxWord w 0x04 true true false false) (ha : c.reg (wS w.toNat) = 0) :
    exec (.cxLog2 core w) s = .next (putCore core ((c.cxNext core w s).put (wD w.toNat) 0x80000000) (cmcSets core (2 ^ 6) s)) := by
  obtain ⟨hop, hfn, hok⟩ := hw
  have hruns : exec (.cxLog2 core w) s = execCxLog2 core w s := rfl
  have hzero : gR (loneCtx core w c s).c (wS (loneCtx core w c s).w) = 0 := (reg_eq_zero ..).mp ha
  refine exec_cx_one (k := 0) (bit := 6) (x := 2 ^ 31) (b := true) hruns h huse hclaim hop hfn (by decide) hok rfl ?_
  dsimp only
  rw [if_pos hzero]
  rfl

theorem exec_cxLog2 (hw : cxWord w 0x04 true true false false) (ha : c.reg (wS w.toNat) ≠ 0) :
    ∃ x k, (((c.reg (wS w.toNat)).toNat.log2 : Int) * 65536 - 2 ≤ x.toInt ∧ x.toInt ≤ (((c.reg (wS w.toNat)).toNat.log2 : Int) + 1) * 65536 + 2) ∧
      exec (.cxLog2 core w) s = .next (putCore core ((c.cxNext core w s).put (wD w.toNat) x) (drew k s)) := by
  obtain ⟨hop, hfn, hok⟩ := hw
  have hruns : exec (.cxLog2 core w) s = execCxLog2 core w s := rfl
  have hnonzero : ¬gR (loneCtx core w c s).c (wS (loneCtx core w c s).w) = 0 := fun h0 => ha ((reg_eq_zero ..).mpr h0)
  refine cx_one_gives (P := fun x => ((c.reg (wS w.toNat)).toNat.log2 : Int) * 65536 - 2 ≤ x.toInt ∧
    x.toInt ≤ (((c.reg (wS w.toNat)).toNat.log2 : Int) + 1) * 65536 + 2) hruns h huse hclaim hop hfn (by decide) hok ?_
  dsimp only
  rw [if_neg hnonzero]
  refine ⟨(log2Near (gR c (wS w.toNat)) s).1, 1, ?_, rfl⟩
  rw [reg_toNat]
  exact log2Near_bounds (gR_lt ..) s

/-! CX.EXP2 -/

theorem exec_cxExp2_over (hw : cxWord w 0x05 true true false false) (ha : 16 * 65536 ≤ (c.reg (wS w.toNat)).toInt) :
    exec (.cxExp2 core w) s = .next (putCore core ((c.cxNext core w s).put (wD w.toNat) 0xFFFFFFFF) (cmcSets core (2 ^ 7) s)) := by
  obtain ⟨hop, hfn, hok⟩ := hw
  have hruns : exec (.cxExp2 core w) s = execCxExp2 core w s := rfl
  have hover : 16 * 65536 ≤ gI (loneCtx core w c s).c (wS (loneCtx core w c s).w) := ha.trans_eq (gI_eq ..).symm
  refine exec_cx_one (k := 0) (bit := 7) (x := 2 ^ 32 - 1) (b := true) hruns h huse hclaim hop hfn (by decide) hok rfl ?_
  dsimp only
  rw [if_pos hover]
  rfl

theorem exec_cxExp2 (hw : cxWord w 0x05 true true false false) (ha : (c.reg (wS w.toNat)).toInt < 16 * 65536) :
    ∃ x k, (∀ k : Nat, k < 32 → (c.reg (wS w.toNat)).toInt = ((k : Int) - 16) * 65536 →
        2 ^ 20 * ((x.toNat : Int) - 2 ^ k).natAbs ≤ 2 ^ k + 2 ^ 20) ∧
      exec (.cxExp2 core w) s = .next (putCore core ((c.cxNext core w s).put (wD w.toNat) x) (drew k s)) := by
  obtain ⟨hop, hfn, hok⟩ := hw
  have hruns : exec (.cxExp2 core w) s = execCxExp2 core w s := rfl
  have hunder : ¬16 * 65536 ≤ gI (loneCtx core w c s).c (wS (loneCtx core w c s).w) := not_le.mpr ((gI_eq ..).trans_lt ha)
  refine cx_one_gives (P := fun x => ∀ k : Nat, k < 32 → (c.reg (wS w.toNat)).toInt = ((k : Int) - 16) * 65536 →
        2 ^ 20 * ((x.toNat : Int) - 2 ^ k).natAbs ≤ 2 ^ k + 2 ^ 20) hruns h huse hclaim hop hfn (by decide) hok ?_
  dsimp only
  rw [if_neg hunder]
  refine ⟨clampI 0 (2 ^ 32 - 1) (exp2Near (gI c (wS w.toNat)) s).1, 1, fun k hk hval => ?_, rfl⟩
  rw [gI_eq, hval]
  exact exp2Near_bounds hk s

/-! CX.DIV -/

theorem exec_cxDiv_zero (hw : cxWord w 0x06 true true true false) (hD : wD w.toNat % 2 = 0) (hb : c.reg (wT w.toNat) = 0) :
    exec (.cxDiv core w) s = .next (putCore core ((c.cxNext core w s).pair (wD w.toNat)
      (if (c.reg (wS w.toNat)).toInt < 0 then 0x80000000 else 0x7FFFFFFF) (c.reg (wS w.toNat))) (cmcSets core (2 ^ 4) s)) := by
  obtain ⟨hop, hfn, hok⟩ := hw
  have hruns : exec (.cxDiv core w) s = execCxDiv core w s := rfl
  have hzero : gI (loneCtx core w c s).c (wT (loneCtx core w c s).w) = 0 := (gI_eq ..).trans (hb ▸ rfl)
  have hexec := exec_cx_pair (k := 0) (bit := 4) (x := if 0 ≤ (c.reg (wS w.toNat)).toInt then 0x7FFFFFFF else 2 ^ 31)
    (y := (c.reg (wS w.toNat)).toInt) (b := true) hruns h huse hclaim hop hfn (by decide) (cxOk_pair hok hD) rfl hD (by
      dsimp only
      rw [if_pos hzero, ← gI_eq]
      rfl)
  rw [hexec, BitVec.ofInt_toInt]
  rcases lt_or_ge (c.reg (wS w.toNat)).toInt 0 with hneg | hpos
  · rw [if_neg (not_le.mpr hneg), if_pos hneg]
    rfl
  · rw [if_pos hpos, if_neg (not_lt.mpr hpos)]
    rfl

theorem exec_cxDiv_over (hw : cxWord w 0x06 true true true false) (hD : wD w.toNat % 2 = 0) (ha : c.reg (wS w.toNat) = 0x80000000)
    (hb : c.reg (wT w.toNat) = 0xFFFFFFFF) :
    exec (.cxDiv core w) s = .next (putCore core ((c.cxNext core w s).pair (wD w.toNat) 0x7FFFFFFF 0) (cmcSets core (2 ^ 7) s)) := by
  obtain ⟨hop, hfn, hok⟩ := hw
  have hruns : exec (.cxDiv core w) s = execCxDiv core w s := rfl
  have ha' : gI (loneCtx core w c s).c (wS (loneCtx core w c s).w) = -2 ^ 31 := (gI_eq ..).trans (ha ▸ rfl)
  have hb' : gI (loneCtx core w c s).c (wT (loneCtx core w c s).w) = -1 := (gI_eq ..).trans (hb ▸ rfl)
  refine exec_cx_pair (k := 0) (bit := 7) (x := 0x7FFFFFFF) (y := 0) (b := true) hruns h huse hclaim hop hfn (by decide) (cxOk_pair hok hD) rfl hD ?_
  dsimp only
  rw [ha', hb']
  rfl

theorem exec_cxDiv (hw : cxWord w 0x06 true true true false) (hD : wD w.toNat % 2 = 0) (hb : c.reg (wT w.toNat) ≠ 0)
    (hfits : ¬(c.reg (wS w.toNat) = 0x80000000 ∧ c.reg (wT w.toNat) = 0xFFFFFFFF)) :
    exec (.cxDiv core w) s = .next (putCore core ((c.cxNext core w s).pair (wD w.toNat)
      ((c.reg (wS w.toNat)).sdiv (c.reg (wT w.toNat))) ((c.reg (wS w.toNat)).srem (c.reg (wT w.toNat)))) s) := by
  obtain ⟨hop, hfn, hok⟩ := hw
  have hruns : exec (.cxDiv core w) s = execCxDiv core w s := rfl
  have hnonzero : ¬(c.reg (wT w.toNat)).toInt = 0 := fun h0 => hb (BitVec.toInt_inj.mp h0)
  have hfits' : ¬((c.reg (wS w.toNat)).toInt = -2 ^ 31 ∧ (c.reg (wT w.toNat)).toInt = -1) := fun hov =>
    hfits ⟨BitVec.toInt_inj.mp hov.1, BitVec.toInt_inj.mp hov.2⟩
  have hexec := exec_cx_pair (k := 0) (bit := 0) (x := (c.reg (wS w.toNat)).toInt.tdiv (c.reg (wT w.toNat)).toInt)
    (y := (c.reg (wS w.toNat)).toInt.tmod (c.reg (wT w.toNat)).toInt) (b := false) hruns h huse hclaim hop hfn (by decide) (cxOk_pair hok hD) rfl hD (by
      have hS : gI (loneCtx core w c s).c (wS (loneCtx core w c s).w) = (c.reg (wS w.toNat)).toInt := gI_eq ..
      have hT : gI (loneCtx core w c s).c (wT (loneCtx core w c s).w) = (c.reg (wT w.toNat)).toInt := gI_eq ..
      dsimp only
      rw [hS, hT, if_neg hnonzero, if_neg hfits']
      rfl)
  rw [hexec, ← BitVec.toInt_sdiv_of_ne_or_ne _ _ (not_and_or.mp hfits), ← BitVec.toInt_srem, BitVec.ofInt_toInt, BitVec.ofInt_toInt]
  rfl

/-! CX.DIVU -/

theorem exec_cxDivu_zero (hw : cxWord w 0x07 true true true false) (hD : wD w.toNat % 2 = 0) (hb : c.reg (wT w.toNat) = 0) :
    exec (.cxDivu core w) s =
      .next (putCore core ((c.cxNext core w s).pair (wD w.toNat) 0xFFFFFFFF (c.reg (wS w.toNat))) (cmcSets core (2 ^ 4) s)) := by
  obtain ⟨hop, hfn, hok⟩ := hw
  have hruns : exec (.cxDivu core w) s = execCxDivu core w s := rfl
  have hzero : gR (loneCtx core w c s).c (wT (loneCtx core w c s).w) = 0 := (reg_eq_zero ..).mp hb
  have hexec := exec_cx_pair (k := 0) (bit := 4) (x := 2 ^ 32 - 1) (y := (gR c (wS w.toNat) : Nat)) (b := true) hruns h huse hclaim hop hfn
    (by decide) (cxOk_pair hok hD) rfl hD (by
      dsimp only
      rw [if_pos hzero]
      rfl)
  rw [hexec, BitVec.ofInt_natCast]
  rfl

theorem exec_cxDivu (hw : cxWord w 0x07 true true true false) (hD : wD w.toNat % 2 = 0) (hb : c.reg (wT w.toNat) ≠ 0) :
    exec (.cxDivu core w) s = .next (putCore core ((c.cxNext core w s).pair (wD w.toNat)
      (c.reg (wS w.toNat) / c.reg (wT w.toNat)) (c.reg (wS w.toNat) % c.reg (wT w.toNat))) s) := by
  obtain ⟨hop, hfn, hok⟩ := hw
  have hruns : exec (.cxDivu core w) s = execCxDivu core w s := rfl
  have hnonzero : ¬gR (loneCtx core w c s).c (wT (loneCtx core w c s).w) = 0 := fun h0 => hb ((reg_eq_zero ..).mpr h0)
  have hexec := exec_cx_pair (k := 0) (bit := 0) (x := (gR c (wS w.toNat) / gR c (wT w.toNat) : Nat))
    (y := (gR c (wS w.toNat) % gR c (wT w.toNat) : Nat)) (b := false) hruns h huse hclaim hop hfn (by decide) (cxOk_pair hok hD) rfl hD (by
      dsimp only
      rw [if_neg hnonzero]
      rfl)
  have hquot : BitVec.ofInt 32 (gR c (wS w.toNat) / gR c (wT w.toNat) : Nat) = c.reg (wS w.toNat) / c.reg (wT w.toNat) := by
    rw [BitVec.ofInt_natCast, ← reg_toNat, ← reg_toNat, ← BitVec.toNat_udiv, BitVec.ofNat_toNat, BitVec.setWidth_eq]
  have hrem : BitVec.ofInt 32 (gR c (wS w.toNat) % gR c (wT w.toNat) : Nat) = c.reg (wS w.toNat) % c.reg (wT w.toNat) := by
    rw [BitVec.ofInt_natCast, ← reg_toNat, ← reg_toNat, ← BitVec.toNat_umod, BitVec.ofNat_toNat, BitVec.setWidth_eq]
  rw [hexec, hquot, hrem]
  rfl

end Functions

/-- Settles O22, function by function. -/
theorem coprocessorFunctions : Obligations.CoprocessorFunctions := by
  unfold Obligations.CoprocessorFunctions
  intro core w c s h huse hclaim
  refine ⟨fun hw hD => ⟨?_, ?_⟩, fun hw hD => ⟨?_, ?_⟩, fun hw hD => ⟨?_, ?_⟩, ?_, fun hw => ⟨?_, ?_⟩, fun hw => ⟨?_, ?_⟩,
    fun hw hD => ⟨?_, ?_, ?_⟩, fun hw hD => ⟨?_, ?_⟩⟩
  · exact exec_cxCrecip_zero h huse hclaim hw hD
  · exact exec_cxCrecip h huse hclaim hw hD
  · exact exec_cxRsqrt_zero h huse hclaim hw hD
  · exact exec_cxRsqrt h huse hclaim hw hD
  · exact exec_cxAtan2_zero h huse hclaim hw hD
  · exact exec_cxAtan2 h huse hclaim hw hD
  · exact exec_cxRot h huse hclaim
  · exact exec_cxLog2_zero h huse hclaim hw
  · exact exec_cxLog2 h huse hclaim hw
  · exact exec_cxExp2_over h huse hclaim hw
  · exact exec_cxExp2 h huse hclaim hw
  · exact exec_cxDiv_zero h huse hclaim hw hD
  · exact exec_cxDiv_over h huse hclaim hw hD
  · exact exec_cxDiv h huse hclaim hw hD
  · exact exec_cxDivu_zero h huse hclaim hw hD
  · exact exec_cxDivu h huse hclaim hw hD

end Sys2Proof.Machine
end

section
/-!
PROOFS. The matrix unit of the coprocessor (R278 to R280).
-/
namespace Sys2Proof.Machine

set_option Elab.async false

/-! ### Draws of free values -/

/-- Free values were drawn, and nothing else happened. -/
def Drawn (s t : State) : Prop := ∃ k, t = drew k s

theorem Drawn.refl (s : State) : Drawn s s := ⟨0, rfl⟩

theorem Drawn.next {s t : State} (h : Drawn s t) : Drawn s (drew 1 t) := by
  obtain ⟨k, rfl⟩ := h
  exact ⟨k + 1, rfl⟩

/-- A fold that appends one element at each place. -/
theorem foldl_append_spec {α σ : Type} {step : List α × σ → Nat → List α × σ} {P : Nat → α → Prop} {Q : σ → Prop} {s : σ} (hs : Q s)
    (hstep : ∀ p i, Q p.2 → ∃ b t, step p i = (p.1 ++ [b], t) ∧ P i b ∧ Q t) (n : Nat) (d : α) :
    ((upto n).foldl step ([], s)).1.length = n ∧ (∀ i < n, P i (((upto n).foldl step ([], s)).1.getD i d)) ∧ Q ((upto n).foldl step ([], s)).2 := by
  induction n with
  | zero => exact ⟨rfl, fun _ h => absurd h (Nat.not_lt_zero _), hs⟩
  | succ n ih =>
    obtain ⟨hlen, hall, hQ⟩ := ih
    have hsucc : (upto (n + 1)).foldl step ([], s) = step ((upto n).foldl step ([], s)) n := by
      rw [upto, List.range_succ, List.foldl_append]
      rfl
    obtain ⟨b, t, heq, hb, ht⟩ := hstep _ n hQ
    rw [hsucc, heq]
    refine ⟨by simp [hlen], fun i hi => ?_, ht⟩
    rcases Nat.lt_succ_iff_lt_or_eq.mp hi with hlt | rfl
    · rw [List.getD_append _ _ _ _ (by omega)]
      exact hall i hlt
    · rw [List.getD_append_right _ _ _ _ (by omega), hlen, Nat.sub_self]
      exact hb

/-! ### Elements of the workspace -/

/-- Element 4r + c of the lower triangle of the leading n × n part. -/
def LowEl (n e : Nat) : Prop := e / 4 < n ∧ e % 4 ≤ e / 4

/-- The larger magnitude of the components of an element as it reads. -/
def readSize (z : Int × Int) : Nat := max (roundShift z.1 8).natAbs (roundShift z.2 8).natAbs

/-- Both components lie between those that read as −0x7FFF and 0x7FFF. -/
def ReadsQ15 (z : Int × Int) : Prop :=
  -(0x7FFF * 256 + 127) ≤ z.1 ∧ z.1 ≤ 0x7FFF * 256 + 127 ∧ -(0x7FFF * 256 + 127) ≤ z.2 ∧ z.2 ≤ 0x7FFF * 256 + 127

theorem roundShift_8_near (x : Int) : 256 * roundShift x 8 ≤ x + 128 ∧ x ≤ 256 * roundShift x 8 + 128 := roundShift_near x 7

theorem ReadsQ15.readSize_le {z : Int × Int} (h : ReadsQ15 z) : readSize z ≤ 0x7FFF := by
  obtain ⟨hre, hre', him, him'⟩ := h
  have h1 := roundShift_8_near z.1
  have h2 := roundShift_8_near z.2
  unfold readSize
  omega

theorem readsQ15_zero : ReadsQ15 (0, 0) := by unfold ReadsQ15; decide

section Put
variable {l : List (Int × Int)} {n : Nat} {c : Comp} {v : Int}

/-- An element once a component is put. -/
theorem getD_putComp (l : List (Int × Int)) (c : Comp) (v : Int) (e : Nat) : (putComp l c v).getD e (0, 0) =
    if c.el = e ∧ e < l.length then (if c.im then ((l.getD e (0, 0)).1, v) else (v, (l.getD e (0, 0)).2)) else l.getD e (0, 0) := by
  unfold putComp
  dsimp only
  rw [List.getD_eq_getElem?_getD, List.getElem?_set]
  by_cases hel : c.el = e
  · subst hel
    by_cases hlen : c.el < l.length
    · simp [hlen]
    · simp [hlen]
  · simp [hel]

theorem length_putComp (l : List (Int × Int)) (c : Comp) (v : Int) : (putComp l c v).length = l.length := List.length_set

theorem readsQ15_putComp {e : Nat} (h : ReadsQ15 (l.getD e (0, 0))) (hv : -(0x7FFF * 256 + 127) ≤ v) (hv' : v ≤ 0x7FFF * 256 + 127) :
    ReadsQ15 ((putComp l c v).getD e (0, 0)) := by
  obtain ⟨hre, hre', him, him'⟩ := h
  rw [getD_putComp]
  split
  · split
    · exact ⟨hre, hre', hv, hv'⟩
    · exact ⟨hv, hv', him, him'⟩
  · exact ⟨hre, hre', him, him'⟩

theorem putComp_zero {e : Nat} (h : l.getD e (0, 0) = (0, 0)) : (putComp l c 0).getD e (0, 0) = (0, 0) := by
  rw [getD_putComp, h]
  split
  · split <;> rfl
  · rfl

/-- A component put as one that reads as 0x4000. -/
theorem le_readSize_putComp (hlen : c.el < l.length) (neg : Bool) :
    0x4000 ≤ readSize ((putComp l c (if neg then -(0x4000 * 256) else 0x4000 * 256)).getD c.el (0, 0)) := by
  have hreads : (roundShift (if neg then -(0x4000 * 256) else 0x4000 * 256) 8).natAbs = 0x4000 := by cases neg <;> decide
  rw [getD_putComp, if_pos ⟨rfl, hlen⟩]
  unfold readSize
  split <;> dsimp only <;> omega

end Put

/-! ### Steps of a matrix operation -/

/-- The workspace before its components are put: 0 in the leading lower triangle, free values elsewhere. -/
def blankStep (n : Nat) (p : List (Int × Int) × State) (e : Nat) : List (Int × Int) × State :=
  if e / 4 < n && e % 4 ≤ e / 4 then (p.1 ++ [(0, 0)], p.2)
  else
    let (a, s1) := within (-(2 ^ 23)) (2 ^ 23 - 1) p.2
    let (b, s2) := within (-(2 ^ 23)) (2 ^ 23 - 1) s1
    (p.1 ++ [(a, b)], s2)
def blank (n : Nat) (s : State) : List (Int × Int) × State := (upto 16).foldl (blankStep n) ([], s)

/-- A workspace of 16 elements, 0 in the leading lower triangle. -/
def Blank (n : Nat) (l : List (Int × Int)) : Prop := l.length = 16 ∧ ∀ e, LowEl n e → l.getD e (0, 0) = (0, 0)

theorem blankStep_eq (n : Nat) (p : List (Int × Int) × State) (e : Nat) :
    ∃ z t, blankStep n p e = (p.1 ++ [z], t) ∧ (∀ s, Drawn s p.2 → Drawn s t) ∧ (LowEl n e → z = (0, 0)) := by
  unfold blankStep
  split
  · exact ⟨_, _, rfl, fun _ h => h, fun _ => rfl⟩
  · next hnot => exact ⟨_, _, rfl, fun _ h => h.next.next, fun hlow => absurd (by simpa [LowEl] using hlow) hnot⟩

theorem blank_spec (n : Nat) (s : State) : Blank n (blank n s).1 ∧ Drawn s (blank n s).2 := by
  obtain ⟨hlen, hzero, hdrawn⟩ := foldl_append_spec (step := blankStep n) (P := fun e z => LowEl n e → z = (0, 0)) (Q := Drawn s) (.refl s)
    (fun p e hp => by
      obtain ⟨z, t, hstep, ht, hz⟩ := blankStep_eq n p e
      exact ⟨z, t, hstep, hz, ht s hp⟩) 16 (0, 0)
  refine ⟨⟨hlen, fun e he => ?_⟩, hdrawn⟩
  by_cases hlt : e < 16
  · exact hzero e hlt he
  · exact List.getD_eq_default _ _ (hlen.trans_le (not_lt.mp hlt))

/-- Values a component may have at an exponent. -/
def compRange (e : Int) (c : Comp) : Int × Int := (roundShift (c.mag (15 - e)) 8, roundShift ((c.mag (15 - e) : Int) + 1) 8)

/-- A component put with a free value. -/
def compStep (bounded : Bool) (e : Int) (p : List (Int × Int) × State) (c : Comp) : List (Int × Int) × State :=
  let (v, t) := if bounded then within (256 * ((compRange e c).1 - 4) - 128) (256 * ((compRange e c).2 + 4) + 128) p.2
    else if c.nil then (0, p.2) else within (-(0x7FFF * 256 + 127)) (0x7FFF * 256 + 127) p.2
  (putComp p.1 c (clampI (-(0x7FFF * 256 + 127)) (0x7FFF * 256 + 127) (if bounded && c.neg then -v else v)), t)

theorem compStep_eq (bounded : Bool) (e : Int) (p : List (Int × Int) × State) (c : Comp) :
    ∃ v t, compStep bounded e p c = (putComp p.1 c (clampI (-(0x7FFF * 256 + 127)) (0x7FFF * 256 + 127) v), t) ∧ (∀ s, Drawn s p.2 → Drawn s t) ∧
      (bounded = false → c.nil = true → v = 0) := by
  unfold compStep
  cases bounded with
  | true => exact ⟨_, _, rfl, fun _ h => h.next, Bool.noConfusion⟩
  | false =>
    by_cases hnil : c.nil = true
    · simp only [hnil, Bool.false_eq_true, if_false, if_true, Bool.false_and]
      exact ⟨_, _, rfl, fun _ h => h, fun _ _ => rfl⟩
    · simp only [hnil, Bool.false_eq_true, if_false, Bool.false_and]
      exact ⟨_, _, rfl, fun _ h => h.next, fun _ h => h.elim⟩

/-- A workspace of 16 elements that fit Q15 in the leading lower triangle. -/
def Fits (n : Nat) (l : List (Int × Int)) : Prop := l.length = 16 ∧ ∀ e, LowEl n e → ReadsQ15 (l.getD e (0, 0))

theorem Blank.fits {n : Nat} {l : List (Int × Int)} (h : Blank n l) : Fits n l := by
  obtain ⟨hlen, hzero⟩ := h
  exact ⟨hlen, fun e he => by
    rw [hzero e he]
    exact readsQ15_zero⟩

theorem Fits.putComp {n : Nat} {l : List (Int × Int)} (h : Fits n l) (c : Comp) {v : Int} (hv : -(0x7FFF * 256 + 127) ≤ v)
    (hv' : v ≤ 0x7FFF * 256 + 127) : Fits n (putComp l c v) := by
  obtain ⟨hlen, hfits⟩ := h
  exact ⟨(length_putComp ..).trans hlen, fun e he => readsQ15_putComp (hfits e he) hv hv'⟩

section Steps
variable {n : Nat} {bounded : Bool} {e : Int} {comps : List Comp} {p : List (Int × Int) × State} {s : State}

theorem compSteps_fits (hp : Fits n p.1) (hs : Drawn s p.2) :
    Fits n (comps.foldl (compStep bounded e) p).1 ∧ Drawn s (comps.foldl (compStep bounded e) p).2 := by
  refine List.foldlRecOn (motive := fun (p : List (Int × Int) × State) => Fits n p.1 ∧ Drawn s p.2) comps _ ⟨hp, hs⟩
    fun (p : List (Int × Int) × State) ⟨hp, hs⟩ c _ => ?_
  obtain ⟨v, t, hstep, hdrawn, -⟩ := compStep_eq bounded e p c
  obtain ⟨hlo, hhi⟩ := clampI_bounds (show (-(0x7FFF * 256 + 127) : Int) ≤ 0x7FFF * 256 + 127 by decide) v
  rw [hstep]
  exact ⟨hp.putComp c hlo hhi, hdrawn s hs⟩

/-- Components that Table 7-16 makes 0 leave a blank workspace blank. -/
theorem compSteps_blank (hp : Blank n p.1) (hnil : ∀ c ∈ comps, c.nil = true) : Blank n (comps.foldl (compStep false e) p).1 := by
  refine List.foldlRecOn (motive := fun (p : List (Int × Int) × State) => Blank n p.1) comps _ hp fun p hp c hc => ?_
  obtain ⟨hlen, hzero⟩ := hp
  obtain ⟨v, t, hstep, -, hv⟩ := compStep_eq false e p c
  rw [hstep, hv rfl (hnil c hc)]
  exact ⟨(length_putComp ..).trans hlen, fun e he => putComp_zero (hzero e he)⟩

end Steps

/-- A maximum over a list is its start or that of an element. -/
theorem foldl_max_attained {α β : Type} [LinearOrder β] (l : List α) (f : α → β) (z : β) :
    l.foldl (fun m c => max m (f c)) z = z ∨ ∃ c ∈ l, l.foldl (fun m c => max m (f c)) z = f c := by
  refine List.foldlRecOn (motive := fun m => m = z ∨ ∃ c ∈ l, m = f c) l _ (.inl rfl) fun m hm c hc => ?_
  rcases max_choice m (f c) with h | h
  · rwa [h]
  · exact .inr ⟨c, hc, h⟩

theorem roundShift_nonneg {x : Int} (h : 0 ≤ x) : 0 ≤ roundShift x 8 := by
  have hnear := roundShift_8_near x
  omega

/-- Some component attains the largest value. -/
theorem largest_attained {comps : List Comp} (hne : comps ≠ []) (e : Int) :
    ∃ c ∈ comps, comps.foldl (fun m c => max m (compRange e c).2) (0 : Int) ≤ (compRange e c).2 := by
  rcases foldl_max_attained comps (fun c => (compRange e c).2) (0 : Int) with h | ⟨c, hc, h⟩
  · obtain ⟨c, hc⟩ := List.exists_mem_of_ne_nil _ hne
    exact ⟨c, hc, h.trans_le (roundShift_nonneg (by omega))⟩
  · exact ⟨c, hc, h.le⟩

/-! ### The result of a matrix operation -/

/-- The leading lower triangle is 0, or its largest component reads as 0x4000 to 0x7FFF. -/
def Normal (n : Nat) (l : List (Int × Int)) : Prop :=
  (∀ e < 16, LowEl n e → readSize (l.getD e (0, 0)) = 0) ∨
    ((∀ e < 16, LowEl n e → readSize (l.getD e (0, 0)) ≤ 0x7FFF) ∧ ∃ e < 16, LowEl n e ∧ 0x4000 ≤ readSize (l.getD e (0, 0)))

theorem Blank.normal {n : Nat} {l : List (Int × Int)} (h : Blank n l) : Normal n l := .inl fun e _ he => by
  rw [h.2 e he]
  rfl

theorem Fits.normal {n : Nat} {l : List (Int × Int)} (h : Fits n l) {e : Nat} (he : e < 16) (hlow : LowEl n e)
    (hsize : 0x4000 ≤ readSize (l.getD e (0, 0))) : Normal n l :=
  .inr ⟨fun e _ he => (h.2 e he).readSize_le, e, he, hlow, hsize⟩

/-- The last step of a matrix operation: a result too small has one of its components put to 0x4000. -/
def raise (comps : List Comp) (bounded : Bool) (e : Int) (l : List (Int × Int)) : List (Int × Int) :=
  if comps.foldl (fun m c => max m (readSize (l.getD c.el (0, 0)))) 0 < 0x4000 then
    match comps.find? fun c => !c.nil && (!bounded || decide (comps.foldl (fun m c => max m (compRange e c).2) (0 : Int) ≤ (compRange e c).2)) with
    | some c => putComp l c (if c.neg then -(0x4000 * 256) else 0x4000 * 256)
    | none => l
  else l

theorem raise_normal {comps : List Comp} {bounded : Bool} {e : Int} {l : List (Int × Int)} {n : Nat}
    (hlow : ∀ c ∈ comps, c.el < 16 ∧ LowEl n c.el) (hfull : bounded = true → ∀ c ∈ comps, c.nil = false) (hne : comps ≠ []) (hl : Fits n l)
    (hnil : bounded = false → (∀ c ∈ comps, c.nil = true) → Blank n l) : Normal n (raise comps bounded e l) := by
  unfold raise
  split
  · split
    · next c hfind =>
      obtain ⟨hel, hlowEl⟩ := hlow c (List.mem_of_find?_eq_some hfind)
      refine (hl.putComp c ?_ ?_).normal hel hlowEl (le_readSize_putComp (hl.1 ▸ hel) c.neg) <;> split <;> decide
    · next hnone =>
      rw [List.find?_eq_none] at hnone
      cases bounded with
      | false => exact (hnil rfl fun c hc => by simpa using hnone c hc).normal
      | true =>
        obtain ⟨c, hc, hle⟩ := largest_attained hne e
        exact absurd (by simp [hfull rfl c hc, hle]) (hnone c hc)
  · next hbig =>
    rcases foldl_max_attained comps (fun c => readSize (l.getD c.el (0, 0))) 0 with h | ⟨c, hc, h⟩
    · omega
    · obtain ⟨hel, hlowEl⟩ := hlow c hc
      exact hl.normal hel hlowEl (by omega)

/-- The exponent of a matrix operation. -/
def matrixExp (comps : List Comp) (bounded : Bool) (s : State) : Int × State :=
  if bounded then
    oneOf (((upto 256).map fun (k : Nat) => (k : Int) - 128).filter fun e =>
      0x4000 - 4 ≤ comps.foldl (fun m c => max m (compRange e c).2) (0 : Int) && comps.foldl (fun m c => max m (compRange e c).2) (0 : Int) ≤ 0x7FFF + 5) 0 s
  else
    let (k, t) := draw s
    (toInt 32 (Config.freeValue k), t)

theorem matrixExp_drawn (comps : List Comp) (bounded : Bool) {s t : State} (h : Drawn s t) : Drawn s (matrixExp comps bounded t).2 := by
  cases bounded <;> exact h.next

theorem matrixResult_zero {comps : List Comp} (hz : (comps.all fun c => c.mag 200 == 0) = true) (bounded : Bool) (n : Nat) (s : State) :
    ∃ oe, matrixResult comps bounded n s = ((blank n s).1, oe, drew 1 (blank n s).2) := by
  unfold matrixResult
  dsimp only
  rw [if_pos hz]
  exact ⟨_, rfl⟩

theorem raise_eq (comps : List Comp) (bounded : Bool) (e : Int) (l : List (Int × Int)) (t : State) :
    (if comps.foldl (fun m c => max m (readSize (l.getD c.el (0, 0)))) 0 < 0x4000 then
      match comps.find? fun c => !c.nil && (!bounded || decide (comps.foldl (fun m c => max m (compRange e c).2) (0 : Int) ≤ (compRange e c).2)) with
      | some c => (putComp l c (if c.neg then -(0x4000 * 256) else 0x4000 * 256), e, t)
      | none => (l, e, t)
    else (l, e, t)) = (raise comps bounded e l, e, t) := by
  unfold raise
  split
  · split <;> rfl
  · rfl

theorem matrixResult_steps {comps : List Comp} (hz : ¬(comps.all fun c => c.mag 200 == 0) = true) (bounded : Bool) (n : Nat) (s : State) :
    let x := matrixExp comps bounded (blank n s).2
    let r := comps.foldl (compStep bounded x.1) ((blank n s).1, x.2)
    matrixResult comps bounded n s = (raise comps bounded x.1 r.1, x.1, r.2) := by
  dsimp only
  rw [← raise_eq]
  unfold matrixResult
  dsimp only
  rw [if_neg hz]
  rfl

/-- A result is normal and its values are drawn ones. -/
theorem matrixResult_normal {comps : List Comp} {bounded : Bool} {n : Nat} (hlow : ∀ c ∈ comps, c.el < 16 ∧ LowEl n c.el)
    (hfull : bounded = true → ∀ c ∈ comps, c.nil = false) (s : State) :
    Normal n (matrixResult comps bounded n s).1 ∧ Drawn s (matrixResult comps bounded n s).2.2 := by
  obtain ⟨hblank, hdrawn⟩ := blank_spec n s
  by_cases hz : (comps.all fun c => c.mag 200 == 0) = true
  · obtain ⟨oe, hresult⟩ := matrixResult_zero hz bounded n s
    rw [hresult]
    exact ⟨hblank.normal, hdrawn.next⟩
  · have hne : comps ≠ [] := fun h => hz (h ▸ rfl)
    obtain ⟨hfits, hdrawn'⟩ := compSteps_fits (bounded := bounded) (e := (matrixExp comps bounded (blank n s).2).1) (comps := comps)
      (p := ((blank n s).1, (matrixExp comps bounded (blank n s).2).2)) hblank.fits (matrixExp_drawn comps bounded hdrawn)
    rw [matrixResult_steps hz]
    refine ⟨raise_normal hlow hfull hne hfits fun hb hnil => ?_, hdrawn'⟩
    subst hb
    exact compSteps_blank hblank hnil

/-! ### The components of CX.CHOL and CX.MINV -/

theorem compsOf_spec {n bad : Nat} {f : Nat → Nat → Int × Int} {mag : Nat → Nat → Nat → Int → Nat} {c : Comp} (hn : n ≤ 4)
    (hc : c ∈ compsOf n bad f mag) : c.el < 16 ∧ LowEl n c.el ∧ (n ≤ bad → c.nil = false) := by
  simp only [compsOf, upto, List.mem_flatMap, List.mem_range, List.mem_cons, List.not_mem_nil, or_false] at hc
  obtain ⟨r, hr, k, hk, rfl | rfl⟩ := hc <;> simp only [LowEl, decide_eq_false_iff_not] <;> omega

/-- Components of a matrix operation lie in the leading lower triangle, and none is made 0 where every pivot is positive. -/
def CompsOk (comps : CMat → Nat → Nat → Int → List Comp) : Prop :=
  ∀ m n bad sc, n ≤ 4 → ∀ c ∈ comps m n bad sc, c.el < 16 ∧ LowEl n c.el ∧ (n ≤ bad → c.nil = false)

theorem compsOk_chol : CompsOk cholComps := fun _ _ _ _ hn _ hc => compsOf_spec hn hc

theorem compsOk_inv : CompsOk invComps := fun m n bad sc hn c hc => by
  simp only [invComps] at hc
  obtain ⟨hel, hlow, hnil⟩ := compsOf_spec hn hc
  refine ⟨hel, hlow, fun hbad => hnil ?_⟩
  rw [if_neg (not_lt.mpr hbad)]

theorem firstBadPivot_lt (m : CMat) (n : Nat) : firstBadPivot m n < n ↔ ∃ k < n, minorOf m (k + 1) ≤ 0 := by
  unfold firstBadPivot
  cases hfind : (upto n).find? fun k => decide (minorOf m (k + 1) ≤ 0) with
  | none =>
    rw [List.find?_eq_none] at hfind
    simp only [Option.getD_none, lt_irrefl, false_iff, not_exists, not_and]
    intro k hk hle
    exact hfind k (List.mem_range.mpr hk) (decide_eq_true hle)
  | some k =>
    have hk : k < n := List.mem_range.mp (List.mem_of_find?_eq_some hfind)
    have hle : minorOf m (k + 1) ≤ 0 := of_decide_eq_true (List.find?_some hfind :)
    exact ⟨fun _ => ⟨k, hk, hle⟩, fun _ => hk⟩

/-- The result of a matrix operation on the inputs of a coprocessor. -/
def matrixOut (comps : CMat → Nat → Nat → Int → List Comp) (q : Cmc) (n : Nat) (s : State) : List (Int × Int) × Int × State :=
  let m := cmcMatrix q n
  let bad := firstBadPivot m n
  let known := -32 ≤ q.inExp && q.inExp ≤ 31
  matrixResult (comps m n bad (if known then q.inExp - 15 else 0)) (known && bad == n && wellConditioned m n) n s

theorem matrixOut_normal {comps : CMat → Nat → Nat → Int → List Comp} (hcomps : CompsOk comps) {n : Nat} (hn : n ≤ 4) (q : Cmc) (s : State) :
    Normal n (matrixOut comps q n s).1 ∧ Drawn s (matrixOut comps q n s).2.2 := by
  refine matrixResult_normal (fun c hc => ?_) (fun hb c hc => ?_) s
  · obtain ⟨hel, hlow, -⟩ := hcomps _ _ _ _ hn c hc
    exact ⟨hel, hlow⟩
  · obtain ⟨-, -, hnil⟩ := hcomps _ _ _ _ hn c hc
    simp only [Bool.and_eq_true, beq_iff_eq] at hb
    obtain ⟨⟨-, hbad⟩, -⟩ := hb
    exact hnil hbad.ge

/-- The coprocessor takes the result of a matrix operation. -/
def putMatrix (core : CoreId) (st n1 : Nat) (res : List (Int × Int)) (oe : Int) (s : State) : State :=
  putCmc core (fun q => { q with mstate := st, nM1 := n1, result := res, outExp := oe, pivots := none }) s

/-! ### Issue -/

section Issue
variable {core : CoreId} {w : Word} {c : Core} {s : State} {i : Instr} {fn : Nat} {u : CxUse} {more : Nat → Bool} {f : Ctx → IRes}

/-- An operation that writes the coprocessor alone. -/
theorem exec_cx_cmc {k : Nat} {l : List SWrite} {t : State} (hruns : exec i s = cx core w fn u more f s) (h : Alone core w c s)
    (huse : usesCmc s c = true) (hclaim : holdsClaim s core.val = true) (hop : wOp w.toNat = 0x1C) (hfn : wFn w.toNat = fn)
    (hlist : fn ≤ 7 ∨ 0x10 ≤ fn ∧ fn ≤ 0x15) (hok : cxOk u w.toNat = true) (hmore : more w.toNat = true)
    (hf : f (loneCtx core w c s) = { s := drew k s, writes := l }) (hlate : ∀ x ∈ l, writeOrder x = 2) (hnone : l.flatMap SWrite.target = [])
    (happly : applyAll core.val l (putCore core c.next (drew k s)) = putCore core c.next t) :
    exec i s = .next (putCore core (c.cxNext core w s) t) :=
  exec_cx hruns h huse hclaim hop hfn hlist hok hmore hf
    ⟨List.pairwise_of_forall_mem_list fun _ hx _ hy => by rw [hlate _ hx, hlate _ hy], by rw [hnone]; exact List.nodup_nil⟩
    (fun x hx => (hlate x hx).le) happly

end Issue

section Forms
variable {core : CoreId} {w : Word} {c : Core} {s : State} (h : Alone core w c s) (huse : usesCmc s c = true)
  (hclaim : holdsClaim s core.val = true)
include h huse hclaim

theorem exec_cxMscale (hw : cxWord w 0x10 false true false false) (hlo : -32 ≤ (c.reg (wS w.toNat)).toInt) (hhi : (c.reg (wS w.toNat)).toInt ≤ 31) :
    exec (.cxMscale core w) s =
      .next (putCore core (c.cxNext core w s) (putCmc core (fun q => { q with inExp := (c.reg (wS w.toNat)).toInt }) s)) := by
  obtain ⟨hop, hfn, hok⟩ := hw
  have hruns : exec (.cxMscale core w) s = execCxMscale core w s := rfl
  have hval : gI (loneCtx core w c s).c (wS (loneCtx core w c s).w) = (c.reg (wS w.toNat)).toInt := gI_eq ..
  refine exec_cx_cmc (k := 0) (l := [.cmcInExp (c.reg (wS w.toNat)).toInt]) hruns h huse hclaim hop hfn (by decide) hok rfl ?_ (by simp [writeOrder]) rfl rfl
  dsimp only
  rw [hval, if_pos ⟨hlo, hhi⟩]
  rfl

theorem exec_cxMput (hw : cxWord w 0x11 false true false true) (hlow : cxIdx w.toNat % 4 ≤ cxIdx w.toNat / 4) :
    exec (.cxMput core w) s = .next (putCore core (c.cxNext core w s)
      (putCmc core (fun q => { q with input := tset (cxIdx w.toNat) (c.reg (wS w.toNat)).toNat q.input, mstate := 1 }) s)) := by
  obtain ⟨hop, hfn, hok⟩ := hw
  have hruns : exec (.cxMput core w) s = execCxMput core w s := rfl
  rw [reg_toNat]
  exact exec_cx_cmc (k := 0) (l := [.cmcIn (cxIdx w.toNat) (gR c (wS w.toNat))]) hruns h huse hclaim hop hfn (by decide) hok (decide_eq_true hlow) rfl
    (by simp [writeOrder]) rfl rfl

theorem exec_cxMexp (hw : cxWord w 0x15 true false false false) :
    exec (.cxMexp core w) s = .next (putCore core ((c.cxNext core w s).put (wD w.toNat) (BitVec.ofInt 32 (cmcAt s core).outExp)) s) := by
  obtain ⟨hop, hfn, hok⟩ := hw
  have hruns : exec (.cxMexp core w) s = execCxMexp core w s := rfl
  exact exec_cx_one (k := 0) (bit := 0) (b := false) hruns h huse hclaim hop hfn (by decide) hok rfl rfl

theorem exec_cxMget (hw : cxWord w 0x14 true false false true) (hlow : cxIdx w.toNat % 4 ≤ cxIdx w.toNat / 4) (hpivots : (cmcAt s core).pivots = none)
    {z : Int × Int} (hz : (cmcAt s core).result.getD (cxIdx w.toNat) (0, 0) = z) (hI : roundEven z.1 8 ≤ 0x7FFF) (hI' : -0x8000 ≤ roundEven z.1 8)
    (hQ : roundEven z.2 8 ≤ 0x7FFF) (hQ' : -0x8000 ≤ roundEven z.2 8) :
    exec (.cxMget core w) s = .next (putCore core ((c.cxNext core w s).put (wD w.toNat)
      (BitVec.ofInt 16 (roundEven z.2 8) ++ BitVec.ofInt 16 (roundEven z.1 8) : BitVec 32)) s) := by
  obtain ⟨hop, hfn, hok⟩ := hw
  have hruns : exec (.cxMget core w) s = execCxMget core w s := rfl
  have hcomp (v : Int) (hv : roundEven v 8 ≤ 0x7FFF) (hv' : -0x8000 ≤ roundEven v 8) : mgetComp false v s = (roundEven v 8, s) := by
    unfold mgetComp
    rw [roundShift_eq_roundEven]
    simp [not_lt.mpr hv, not_lt.mpr hv']
  have hcmc : cmcOf (loneCtx core w c s).s ((loneCtx core w c s).n / 9) = cmcAt s core := rfl
  have hidx : (cmcAt s core).result.getD (cxIdx (loneCtx core w c s).w) (0, 0) = z := hz
  rw [← ofInt_complexWord]
  refine exec_cx_one (k := 0) (bit := 0) (b := false) hruns h huse hclaim hop hfn (by decide) hok (decide_eq_true hlow) ?_
  dsimp only
  rw [hcmc, hpivots, hidx, Option.isSome_none]
  have hs : (loneCtx core w c s).s = s := rfl
  rw [hs, hcomp _ hI hI']
  dsimp only
  rw [hcomp _ hQ hQ']
  rfl

/-- CX.CHOL and CX.MINV. -/
theorem exec_matrixOp {i : Instr} {fn st : Nat} {comps : CMat → Nat → Nat → Int → List Comp} (hruns : exec i s = matrixOp core w fn st comps s)
    (hw : cxWord w fn false false false true) (hlist : 0x10 ≤ fn ∧ fn ≤ 0x15) (hcomps : CompsOk comps) :
    ∃ res oe k, Normal (cxIdx w.toNat % 4 + 1) res ∧
      exec i s = .next (putCore core (c.cxNext core w s)
        (if ∃ k < cxIdx w.toNat % 4 + 1, minorOf (cmcMatrix (cmcAt s core) (cxIdx w.toNat % 4 + 1)) (k + 1) ≤ 0 then
          cmcSets core (2 ^ 5) (putMatrix core st (cxIdx w.toNat % 4) res oe (drew k s))
        else putMatrix core st (cxIdx w.toNat % 4) res oe (drew k s))) := by
  obtain ⟨hop, hfn, hok⟩ := hw
  obtain ⟨hnormal, k, hk⟩ := matrixOut_normal hcomps (show cxIdx w.toNat % 4 + 1 ≤ 4 by omega) (cmcAt s core) s
  let r := matrixOut comps (cmcAt s core) (cxIdx w.toNat % 4 + 1) s
  let bad : Bool := firstBadPivot (cmcMatrix (cmcAt s core) (cxIdx w.toNat % 4 + 1)) (cxIdx w.toNat % 4 + 1) < cxIdx w.toNat % 4 + 1
  obtain ⟨-, hnone, -⟩ := cmcFlagIf_order bad 5
  refine ⟨r.1, r.2.1, k, hnormal, ?_⟩
  simp only [← firstBadPivot_lt]
  refine exec_cx_cmc (k := k) (l := .cmcResult st (cxIdx w.toNat % 4) r.1 r.2.1 :: cmcFlagIf bad 5) hruns h huse hclaim hop hfn (.inr hlist) hok rfl
    ?_ ?_ hnone ?_
  · rw [← hk]
    rfl
  · unfold cmcFlagIf
    split <;> simp [writeOrder]
  · refine (applyAll_cmcFlagIf core c.next (putMatrix core st (cxIdx w.toNat % 4) r.1 r.2.1 (drew k s)) bad 5).trans ?_
    simp only [bad, decide_eq_true_eq]

end Forms

/-- Settles O23: the inputs and results by cases, CX.CHOL and CX.MINV by the invariant of the workspace. -/
theorem coprocessorMatrices : Obligations.CoprocessorMatrices := by
  unfold Obligations.CoprocessorMatrices
  intro core w c s h huse hclaim
  refine ⟨fun hw hlo hhi => ?_, fun hw hlow => ?_, fun hw => ?_, fun hw => ?_, fun hw hlow hpivots hI hI' hQ hQ' => ?_, fun hw => ?_⟩
  · exact exec_cxMscale h huse hclaim hw hlo hhi
  · exact exec_cxMput h huse hclaim hw hlow
  · exact exec_matrixOp h huse hclaim (i := .cxChol core w) (fn := 0x12) (st := 2) rfl hw (by decide) compsOk_chol
  · exact exec_matrixOp h huse hclaim (i := .cxMinv core w) (fn := 0x13) (st := 3) rfl hw (by decide) compsOk_inv
  · exact exec_cxMget h huse hclaim hw hlow hpivots rfl hI hI' hQ hQ'
  · exact exec_cxMexp h huse hclaim hw

end Sys2Proof.Machine
end

section
/-!
PROOFS. The claim, the image and the status of the coprocessor (R272 to R275, R281, R282).
-/
namespace Sys2Proof.Machine

set_option Elab.async false

/-! ### Issue -/

section Issue
variable {core : CoreId} {w : Word} {c : Core} {s : State} {i : Instr} {fn : Nat} {useD useA : Bool} {l : List SWrite} {k : Nat}

/-- A form on 0x1D whose fields are admitted makes its writes. -/
theorem exec_cxc {f : Ctx → IRes} (hruns : exec i s = cxc core w fn useD useA f s) (h : Alone core w c s) (huse : usesCmc s c = true)
    (hw : cxcWord w fn useD useA) (hfn : fn ≤ 5) (hf : f (loneCtx core w c s) = { s := drew k s, writes := l }) (hl : Orderly l) :
    exec i s = .next (applyAll core.val l (putCore core c.next (drew k s))) := by
  obtain ⟨hop, rfl, hzero, hD, hA⟩ := hw
  have hlisted : listedWord w.toNat = true := by simpa [listedWord, hop] using hfn
  have hok : (usesCmc (loneCtx core w c s).s (loneCtx core w c s).c && fld (loneCtx core w c s).w 6 11 == 0 &&
      (useD || wD (loneCtx core w c s).w == 0) && (useA || fld (loneCtx core w c s).w 17 4 == 0)) = true := by
    have huse' : usesCmc (loneCtx core w c s).s (loneCtx core w c s).c = true := huse
    have hzero' : fld (loneCtx core w c s).w 6 11 = 0 := hzero
    have hD' : useD = false → wD (loneCtx core w c s).w = 0 := hD
    have hA' : useA = false → fld (loneCtx core w c s).w 17 4 = 0 := hA
    cases useD <;> cases useA <;> simp [huse', hzero', hD', hA']
  let g : Ctx → IRes := fun x =>
    if usesCmc x.s x.c && fld x.w 6 11 == 0 && (useD || wD x.w == 0) && (useA || fld x.w 17 4 == 0) then f x else x.fail (excOpcode x.w) (f x)
  have hg : g (loneCtx core w c s) = { s := drew k s, writes := l } := (if_pos hok).trans hf
  have hissue := issue_alone (c' := c) (isWord := isCxc (wFn w.toNat)) (slot := .a) (f := g) h hlisted (isOpFn_of hop rfl)
    (by rw [hg]; exact (coreRun_eq_some h.run).1) (by rw [hg]; exact h.inSlice) (by rw [hg]) (by rw [hg]; exact hl)
  rw [hg] at hissue
  exact hruns.trans hissue

/-- A move of the image inside the windows, of a core with the claim, makes its writes. -/
theorem exec_cmcMove {write : Bool} {f : Ctx → Nat → IRes} (hruns : exec i s = cmcMove core w fn write f s) (h : Alone core w c s)
    (huse : usesCmc s c = true) (hw : cxcWord w fn false true) (hfn : fn ≤ 5) (hea : aR c (fld w.toNat 17 4) % 64 = 0)
    (hwin : inWindows (windows s core.val c) write (aR c (fld w.toNat 17 4)) 1024 = true) (hclaim : holdsClaim s core.val = true)
    (hf : f (loneCtx core w c s) (aR c (fld w.toNat 17 4)) = { s := drew k s, writes := l }) (hl : Orderly l) :
    exec i s = .next (applyAll core.val l (putCore core c.next (drew k s))) := by
  refine exec_cxc hruns h huse hw hfn ?_ hl
  have hbad : (aR c (fld w.toNat 17 4) % 64 != 0 || !inWindows (windows s core.val c) write (aR c (fld w.toNat 17 4)) 1024) = false := by
    simp [hea, hwin]
  have hheld : (!holdsClaim s core.val) = false := by rw [hclaim]; rfl
  exact (if_neg (Bool.eq_false_iff.mp hbad)).trans ((if_neg (Bool.eq_false_iff.mp hheld)).trans hf)

end Issue

theorem orderly_one {x : SWrite} (h : (SWrite.target x).Nodup) : Orderly [x] :=
  ⟨List.pairwise_singleton .., by rwa [List.flatMap_singleton]⟩

/-! ### The claim -/

theorem any_tset {α : Type} {p : Nat × α → Bool} {k : Nat} (h : ∀ v, p (k, v) = false) (v : α) (t : Table α) : (tset k v t).any p = t.any p := by
  induction t with
  | nil => simp [tset, h]
  | cons e t ih =>
    obtain ⟨j, x⟩ := e
    unfold tset
    split
    · simp [h]
    · split
      · next hkj =>
        subst hkj
        simp [h]
      · simp [ih]

section Claim
variable {core : CoreId} {w : Word} {c : Core} {s : State}

/-- Whether a claim is beaten does not depend on the claiming core's own record. -/
theorem claimBeaten_putCore (core : CoreId) (c : Core) (s : State) : claimBeaten (putCore core c s) core.val = claimBeaten s core.val := by
  have hany := any_tset (k := core.val) (p := fun e : Nat × Core => e.1 / 9 == core.val / 9 && e.2.bundle.claimAt == some (now s) &&
    decide (turnOf (cmcOf s (core.val / 9)) (e.1 % 9) < turnOf (cmcOf s (core.val / 9)) (core.val % 9))) (fun v => by simp) c s.sage.cores
  unfold claimBeaten
  exact congrArg ((cmcOf s (core.val / 9)).resv.isNone && ·) hany

theorem exec_cxClaim_eq (h : Alone core w c s) (huse : usesCmc s c = true) (hw : cxcWord w 0x00 true false) :
    exec (.cxClaim core w) s = .next (applyWrite core.val (.claim (phys c.rrb (wD w.toNat))) (putCore core c.next s)) := by
  have hruns : exec (.cxClaim core w) s = execCxClaim core w s := rfl
  exact exec_cxc (k := 0) (l := [.claim (phys c.rrb (wD w.toNat))]) hruns h huse hw (by decide) rfl (orderly_one (List.nodup_singleton _))

/-- The effect of a claim: what it does to the coprocessor, and 1 or 0 in D. -/
theorem applyWrite_claim {t : State} {ok : Bool} (d : Nat) (hclaim : cmcClaim core.val (putCore core c.next s) = (ok, putCore core c.next t)) :
    applyWrite core.val (.claim (phys c.rrb d)) (putCore core c.next s) = putCore core (c.next.put d (BitVec.ofInt 32 (b2n ok))) t := by
  have hput : applyWrite core.val (.claim (phys c.rrb d)) (putCore core c.next s) =
      modCore core.val (setReg (.g (phys c.next.rrb d)) (b2n ok)) (putCore core c.next t) := by
    simp only [applyWrite, hclaim]
    rfl
  rw [hput, modCore_putCore, setReg_g]

theorem exec_cxClaim_held (h : Alone core w c s) (huse : usesCmc s c = true) (hw : cxcWord w 0x00 true false) (hheld : holdsClaim s core.val = true) :
    exec (.cxClaim core w) s = .next (putCore core (c.next.put (wD w.toNat) 1) s) := by
  have hholder : (cmcOf (putCore core c.next s) (core.val / 9)).holder = some (core.val % 9) := beq_iff_eq.mp hheld
  rw [exec_cxClaim_eq h huse hw, applyWrite_claim (t := s) (ok := true)]
  · rfl
  · unfold cmcClaim
    dsimp only
    rw [if_pos hholder]

theorem exec_cxClaim_refused (h : Alone core w c s) (huse : usesCmc s c = true) (hw : cxcWord w 0x00 true false) (hheld : holdsClaim s core.val = false)
    (hbusy : (cmcBusy (cmcAt s core) (core.val % 9) || claimBeaten s core.val) = true) :
    exec (.cxClaim core w) s = .next (putCore core (c.next.put (wD w.toNat) 0) (bump (kClCmcRefusals (core.val / 9))
      (putCmc core (fun q => { q with requests := (core.val % 9 :: q.requests).eraseDups }) s))) := by
  have hholder : ¬(cmcOf (putCore core c.next s) (core.val / 9)).holder = some (core.val % 9) := beq_eq_false_iff_ne.mp hheld
  rw [exec_cxClaim_eq h huse hw, applyWrite_claim (ok := false) (t := bump (kClCmcRefusals (core.val / 9))
      (putCmc core (fun q => { q with requests := (core.val % 9 :: q.requests).eraseDups }) s))]
  · rfl
  · unfold cmcClaim
    dsimp only
    rw [if_neg hholder, claimBeaten_putCore]
    exact if_pos hbusy

theorem exec_cxClaim_granted (h : Alone core w c s) (huse : usesCmc s c = true) (hw : cxcWord w 0x00 true false) (hheld : holdsClaim s core.val = false)
    (hfree : (cmcBusy (cmcAt s core) (core.val % 9) || claimBeaten s core.val) = false) :
    exec (.cxClaim core w) s = .next (putCore core (c.next.put (wD w.toNat) 1) (bump (kClCmcClaims (core.val / 9)) (putCmc core (fun q =>
      { last := q.last, holder := some (core.val % 9), since := now s, requests := q.requests.filter (· != core.val % 9) }) s))) := by
  have hholder : ¬(cmcOf (putCore core c.next s) (core.val / 9)).holder = some (core.val % 9) := beq_eq_false_iff_ne.mp hheld
  rw [exec_cxClaim_eq h huse hw, applyWrite_claim (ok := true) (t := bump (kClCmcClaims (core.val / 9)) (putCmc core (fun q =>
      { last := q.last, holder := some (core.val % 9), since := now s, requests := q.requests.filter (· != core.val % 9) }) s))]
  · rfl
  · unfold cmcClaim
    dsimp only
    rw [if_neg hholder, claimBeaten_putCore]
    exact if_neg (Bool.eq_false_iff.mp hfree)

/-! ### The release -/

theorem exec_cxRelease_eq (h : Alone core w c s) (huse : usesCmc s c = true) (hw : cxcWord w 0x01 false false) :
    exec (.cxRelease core w) s = .next (cmcRelease core.val (putCore core c.next s)) := by
  have hruns : exec (.cxRelease core w) s = execCxRelease core w s := rfl
  exact exec_cxc (k := 0) (l := [.release]) hruns h huse hw (by decide) rfl (orderly_one List.nodup_nil)

theorem exec_cxRelease_free (h : Alone core w c s) (huse : usesCmc s c = true) (hw : cxcWord w 0x01 false false) (hheld : holdsClaim s core.val = false) :
    exec (.cxRelease core w) s = .next (putCore core c.next s) := by
  have hheld' : ¬holdsClaim (putCore core c.next s) core.val = true := Bool.eq_false_iff.mp hheld
  rw [exec_cxRelease_eq h huse hw, cmcRelease]
  exact congrArg Host.Outcome.next (if_neg hheld')

/-- The reserved unit is the requester that comes first after the releasing one, if any requests. -/
theorem nextRequester_none {m : Cmc} {u : Nat} (hu : u < 9) (h : nextRequester m u = none) : ∀ x ∈ m.requests, 9 ≤ x := by
  intro x hx
  by_contra hlt
  have hmem : x ∈ (upto 9).map fun k => (u + 1 + k) % 9 :=
    List.mem_map.mpr ⟨(x + 8 - u) % 9, List.mem_range.mpr (Nat.mod_lt _ (by decide)), by omega⟩
  exact List.find?_eq_none.mp h x hmem (List.contains_iff_mem.mpr hx)

theorem nextRequester_some {m : Cmc} {u v : Nat} (hu : u < 9) (h : nextRequester m u = some v) :
    v ∈ m.requests ∧ ∀ x ∈ m.requests, x < 9 → (v + 8 - u) % 9 ≤ (x + 8 - u) % 9 := by
  rw [nextRequester, List.find?_map, Option.map_eq_some_iff] at h
  obtain ⟨k, hk, rfl⟩ := h
  obtain ⟨hreq, hlt, hfirst⟩ := List.find?_range_eq_some.mp hk
  have hlt9 := List.mem_range.mp hlt
  refine ⟨List.contains_iff_mem.mp hreq, fun x hx hx9 => not_lt.mp fun hless => ?_⟩
  have hx' : (u + 1 + (x + 8 - u) % 9) % 9 = x := by omega
  have hskip := hfirst ((x + 8 - u) % 9) (by omega)
  simp [hx', hx] at hskip

theorem exec_cxRelease_held (h : Alone core w c s) (huse : usesCmc s c = true) (hw : cxcWord w 0x01 false false) (hheld : holdsClaim s core.val = true) :
    ∃ t, exec (.cxRelease core w) s = .next t ∧ Only [.obj, .sage] s t ∧ tfind core.val t.sage.cores = some c.next ∧
      cmcAt t core = { holder := none, last := core.val % 9, requests := (cmcAt s core).requests,
                       resv := (nextRequester (cmcAt s core) (core.val % 9)).map fun v => (v, now s), since := (cmcAt s core).since } := by
  have hheld' : holdsClaim (putCore core c.next s) core.val = true := hheld
  refine ⟨_, exec_cxRelease_eq h huse hw, putCore_only.mono.trans cmcRelease_only, ?_, ?_⟩
  · rw [cmcRelease]
    dsimp only
    rw [if_pos hheld']
    exact tfind_putCore ..
  · rw [cmcRelease]
    dsimp only
    rw [if_pos hheld']
    exact cmcOf_modCmc_self ..

end Claim

/-! ### The moves of the image -/

/-- A byte of a load: the byte in memory, or that of an incoming transfer. -/
def LoadedByte (s : State) (core : CoreId) (c : Core) (ea n i : Nat) (b : Byte) : Prop :=
  b = (load s (coreAddr core.val + ea) n).getD i 0 ∨
    ∃ g r x, graphOf s c.gid = some g ∧ jobRt s c.gid c.num = some r ∧ x ∈ c.xfers ∧ x.out = false ∧ x.loc ≤ ea + i ∧
      ea + i < x.loc + x.len ∧ b = (xferSource s g r core.val x).getD (ea + i - x.loc) 0

/-- What a load of a core gives. -/
theorem dmemLoad_spec (core : CoreId) (c : Core) (ea n : Nat) (s : State) :
    loadedBytes s core c ea n (dmemLoad core.val c ea n s).1 ∧ Drawn s (dmemLoad core.val c ea n s).2 := by
  have hmemory : loadedBytes s core c ea n (dmemRead s core.val ea n) := ⟨memRead_length .., fun _ _ => .inl rfl⟩
  unfold dmemLoad
  dsimp only
  split
  · next g r hg hr =>
    split
    · exact ⟨hmemory, .refl s⟩
    · refine (fun h => ⟨⟨h.1, h.2.1⟩, h.2.2⟩) (foldl_append_spec (P := LoadedByte s core c ea n) (Q := Drawn s) (.refl s) (fun p i hp => ?_) n 0)
      split
      · exact ⟨_, _, rfl, .inl rfl, hp⟩
      · next x hfind =>
        have hmem := List.mem_filter.mp (List.mem_of_find?_eq_some hfind)
        have hhere := List.find?_some hfind
        simp only [Bool.and_eq_true, Bool.not_eq_true', decide_eq_true_eq] at hmem hhere
        obtain ⟨hx, ⟨hin, -⟩, -⟩ := hmem
        refine ⟨_, _, rfl, ?_, hp.next⟩
        split
        · exact .inr ⟨g, r, x, hg, hr, hx, hin, hhere.1, hhere.2, rfl⟩
        · exact .inl rfl
  · exact ⟨hmemory, .refl s⟩

/-- Two changes of a coprocessor one after the other. -/
theorem modCmc_modCmc (cl : Nat) (f g : Cmc → Cmc) (s : State) : modCmc cl f (modCmc cl g s) = modCmc cl (fun c => f (g c)) s := by
  simp [modCmc, tmod]

section Move
variable {core : CoreId} {w : Word} {c : Core} {s : State} (h : Alone core w c s) (huse : usesCmc s c = true)
include h huse

theorem exec_cxSave (hw : cxcWord w 0x02 false true) (hea : aR c (fld w.toNat 17 4) % 64 = 0)
    (hwin : inWindows (windows s core.val c) true (aR c (fld w.toNat 17 4)) 1024 = true) (hclaim : holdsClaim s core.val = true) :
    exec (.cxSave core w) s = .next (dmemStore core.val (aR c (fld w.toNat 17 4)) (cmcImage (cmcAt s core)) (putCore core c.next s)) := by
  have hruns : exec (.cxSave core w) s = execCxSave core w s := rfl
  exact exec_cmcMove (k := 0) (l := [.mem (aR c (fld w.toNat 17 4)) (cmcImage (cmcAt s core))]) hruns h huse hw (by decide) hea hwin hclaim rfl
    (orderly_one List.nodup_nil)

theorem exec_cxRestore (hw : cxcWord w 0x03 false true) (hea : aR c (fld w.toNat 17 4) % 64 = 0)
    (hwin : inWindows (windows s core.val c) false (aR c (fld w.toNat 17 4)) 1024 = true) (hclaim : holdsClaim s core.val = true)
    (hpoison : rangePoisoned s (coreAddr core.val + aR c (fld w.toNat 17 4)) 1024 = false) :
    ∃ l k, loadedBytes s core c (aR c (fld w.toNat 17 4)) 1024 l ∧ exec (.cxRestore core w) s = .next (putCore core c.next (putCmc core
      (if cmcImageOk l then cmcFromImage l else fun q => { cmcFresh q with flags := 2 ^ 8 }) (drew k s))) := by
  have hruns : exec (.cxRestore core w) s = execCxRestore core w s := rfl
  obtain ⟨hbytes, k, hk⟩ := dmemLoad_spec core c (aR c (fld w.toNat 17 4)) 1024 s
  have hload : dmemLoad (loneCtx core w c s).n (loneCtx core w c s).c (aR c (fld w.toNat 17 4)) 1024 (loneCtx core w c s).s =
      ((dmemLoad core.val c (aR c (fld w.toNat 17 4)) 1024 s).1, drew k s) := Prod.ext rfl hk
  have hpoison' : ¬rangePoisoned (loneCtx core w c s).s (coreAddr (loneCtx core w c s).n + aR c (fld w.toNat 17 4)) 1024 = true :=
    Bool.eq_false_iff.mp hpoison
  generalize (dmemLoad core.val c (aR c (fld w.toNat 17 4)) 1024 s).1 = l at hbytes hload
  refine ⟨l, k, hbytes, ?_⟩
  rw [exec_cmcMove (k := k) (l := if cmcImageOk l then [.cmcLoad l] else [.cmcFresh, .cmcFlags (2 ^ 8)]) hruns h huse hw (by decide) hea hwin hclaim]
  · split
    · rfl
    · have hflag : (modCmc (core.val / 9) (fun q => { q with flags := q.flags ||| 2 ^ 8 }) (modCmc (core.val / 9) cmcFresh (drew k s))) =
          putCmc core (fun q => { cmcFresh q with flags := 2 ^ 8 }) (drew k s) := by
        rw [modCmc_modCmc]
        simp [putCmc, cmcFresh]
      rw [← hflag]
      rfl
  · rw [hload, if_neg hpoison']
  · split
    · exact orderly_one List.nodup_nil
    · exact ⟨by simp [writeOrder], by simp [SWrite.target]⟩

/-! ### The status -/

theorem exec_cxClrf (hw : cxcWord w 0x05 false false) : exec (.cxClrf core w) s =
    .next (putCore core c.next (if holdsClaim s core.val then putCmc core (fun q => { q with flags := 0 }) s else s)) := by
  have hruns : exec (.cxClrf core w) s = execCxClrf core w s := rfl
  rw [exec_cxc (k := 0) (l := if holdsClaim s core.val then [.cmcClear] else []) hruns h huse hw (by decide) rfl]
  · split <;> rfl
  · split
    · exact orderly_one List.nodup_nil
    · exact ⟨.nil, List.nodup_nil⟩

theorem exec_cxStat (hw : cxcWord w 0x04 true false) :
    exec (.cxStat core w) s = .next (putCore core (c.next.put (wD w.toNat) (BitVec.ofNat 32 (cmcStat s core.val))) s) := by
  have hruns : exec (.cxStat core w) s = execCxStat core w s := rfl
  obtain ⟨horder, -⟩ := wG_orderly c (wD w.toNat) (cmcStat s core.val)
  rw [exec_cxc (k := 0) (l := [wG c (wD w.toNat) (cmcStat s core.val)]) hruns h huse hw (by decide) rfl horder,
    applyAll_wG core c c.next _ _ _ rfl, BitVec.ofInt_natCast]
  rfl

end Move

/-- A bit of a word given as a number. -/
theorem getLsbD_ofNat_of {n k : Nat} {b : Bool} (hk : k < 32) (h : n / 2 ^ k % 2 = b2n b) : (BitVec.ofNat 32 n).getLsbD k = b := by
  have hbit : (BitVec.ofNat 32 n).getLsbD k = decide (n / 2 ^ k % 2 = 1) := by
    rw [BitVec.getLsbD_ofNat, Nat.testBit_eq_decide_div_mod_eq]
    simp [hk]
  rw [hbit, h]
  cases b <;> rfl

/-- A field of a word given as a number. -/
theorem extractLsb'_ofNat_of {n lo w v : Nat} (hn : n < 2 ^ 32) (h : n / 2 ^ lo % 2 ^ w = v % 2 ^ w) :
    (BitVec.ofNat 32 n).extractLsb' lo w = BitVec.ofNat w v := by
  refine BitVec.eq_of_toNat_eq ?_
  rw [BitVec.extractLsb'_toNat, BitVec.toNat_ofNat, BitVec.toNat_ofNat, Nat.mod_eq_of_lt hn, Nat.shiftRight_eq_div_pow, h]

theorem b2n_le (b : Bool) : b2n b ≤ 1 := by cases b <;> decide

/-- The fields of the status word. -/
theorem cmcStat_fields {s : State} {core : CoreId} {c : Core} (hc : tfind core.val s.sage.cores = some c) :
    let v := BitVec.ofNat 32 (cmcStat s core.val)
    v.getLsbD 0 = holdsClaim s core.val ∧ v.getLsbD 1 = cmcBusy (cmcAt s core) (core.val % 9) ∧ v.getLsbD 2 = decide (now s < c.pend) ∧
      v.getLsbD 3 = (((cmcAt s core).resv.map (·.1)) == some (core.val % 9)) ∧ v.extractLsb' 4 5 = BitVec.ofNat 5 ((cmcAt s core).flags / 16) ∧
      v.extractLsb' 9 4 = BitVec.ofNat 4 ((cmcAt s core).holder.getD 0) ∧ v.getLsbD 13 = (cmcAt s core).holder.isSome ∧ v.extractLsb' 14 18 = 0 := by
  have hpend : (tget s.sage.cores core.val {}).pend = c.pend := by rw [tget, hc]; rfl
  have hcmc : cmcOf s (core.val / 9) = cmcAt s core := rfl
  have h0 := b2n_le (holdsClaim s core.val)
  have h1 := b2n_le (cmcBusy (cmcAt s core) (core.val % 9))
  have h2 := b2n_le (decide (now s < c.pend))
  have h3 := b2n_le (((cmcAt s core).resv.map (·.1)) == some (core.val % 9))
  have h13 := b2n_le (cmcAt s core).holder.isSome
  have hword : cmcStat s core.val = b2n (holdsClaim s core.val) + 2 * b2n (cmcBusy (cmcAt s core) (core.val % 9)) + 4 * b2n (decide (now s < c.pend)) +
      8 * b2n (((cmcAt s core).resv.map (·.1)) == some (core.val % 9)) + 16 * ((cmcAt s core).flags / 16 % 32) +
      512 * ((cmcAt s core).holder.getD 0 % 16) + 8192 * b2n (cmcAt s core).holder.isSome := by
    rw [cmcStat, hpend, hcmc]
    simp only [pack, Nat.shiftLeft_eq]
    omega
  rw [hword]
  refine ⟨getLsbD_ofNat_of (by decide) ?_, getLsbD_ofNat_of (by decide) ?_, getLsbD_ofNat_of (by decide) ?_, getLsbD_ofNat_of (by decide) ?_,
    extractLsb'_ofNat_of ?_ ?_, extractLsb'_ofNat_of ?_ ?_, getLsbD_ofNat_of (by decide) ?_, extractLsb'_ofNat_of (v := 0) ?_ ?_⟩ <;> omega

/-- Settles O24, instruction by instruction. -/
theorem coprocessorClaimAndImage : Obligations.CoprocessorClaimAndImage := by
  unfold Obligations.CoprocessorClaimAndImage
  intro core w c s h huse
  refine ⟨fun hw => ⟨?_, ?_, ?_⟩, fun hw => ⟨?_, fun hheld => ?_⟩, fun hw hea hwin hheld => ?_, fun hw hea hwin hheld hpoison => ?_, fun hw => ?_,
    fun hw => ?_⟩
  · exact exec_cxClaim_held h huse hw
  · exact exec_cxClaim_refused h huse hw
  · exact exec_cxClaim_granted h huse hw
  · exact exec_cxRelease_free h huse hw
  · obtain ⟨t, hexec, honly, hcore, hcmc⟩ := exec_cxRelease_held h huse hw hheld
    refine ⟨t, _, hexec, honly, hcore, hcmc, fun hnone => ?_, fun v tm hsome => ?_⟩
    · exact nextRequester_none (Nat.mod_lt _ (by decide)) (Option.map_eq_none_iff.mp hnone)
    · obtain ⟨v', hv', hpair⟩ := Option.map_eq_some_iff.mp hsome
      obtain ⟨rfl, rfl⟩ := Prod.mk.inj hpair
      exact ⟨rfl, nextRequester_some (Nat.mod_lt _ (by decide)) hv'⟩
  · exact exec_cxSave h huse hw hea hwin hheld
  · exact exec_cxRestore h huse hw hea hwin hheld hpoison
  · exact ⟨_, exec_cxStat h huse hw, cmcStat_fields (coreRun_eq_some h.run).1⟩
  · exact exec_cxClrf h huse hw

end Sys2Proof.Machine
end

section
/-!
PROOFS. The image of the coprocessor (R282, Table 7-18) as 32-bit words.
-/
namespace Sys2Proof.Machine

set_option Elab.async false

/-! ### Words as bytes -/

/-- 32-bit words, one after another. -/
def wordsBytes (l : List Nat) : List Byte := l.flatMap (toBytes 4)

theorem wordsBytes_append (l k : List Nat) : wordsBytes (l ++ k) = wordsBytes l ++ wordsBytes k := List.flatMap_append

theorem length_wordsBytes (l : List Nat) : (wordsBytes l).length = 4 * l.length := by
  induction l with
  | nil => rfl
  | cons x l ih => rw [wordsBytes, List.flatMap_cons, List.length_append, length_toBytes, ← wordsBytes, ih, List.length_cons]; omega

theorem wordsBytes_replicate (k : Nat) : wordsBytes (List.replicate k 0) = List.replicate (4 * k) 0 := by
  induction k with
  | zero => rfl
  | succ k ih => rw [List.replicate_succ, wordsBytes, List.flatMap_cons, ← wordsBytes, ih]; rfl

theorem toBytes_mod (x : Nat) : toBytes 4 (x % 2 ^ 32) = toBytes 4 x := by
  have hbyte (k : Nat) (hk : k < 4) : BitVec.ofNat 8 (x % 2 ^ 32 / 2 ^ (8 * k)) = BitVec.ofNat 8 (x / 2 ^ (8 * k)) := by
    refine BitVec.eq_of_toNat_eq ?_
    rw [BitVec.toNat_ofNat, BitVec.toNat_ofNat]
    interval_cases k <;> omega
  have hall (y : Nat) : toBytes 4 y = (upto 4).map fun k => BitVec.ofNat 8 (y / 2 ^ (8 * k)) := by
    simp [toBytes, upto, List.range_succ, Nat.shiftRight_eq_div_pow, Nat.div_div_eq_div_mul]
  rw [hall, hall]
  exact List.map_congr_left fun k hk => hbyte k (List.mem_range.mp hk)

theorem ofBytes_toBytes_word (x : Nat) : ofBytes (toBytes 4 x) = x % 2 ^ 32 := by
  rw [← toBytes_mod]
  exact ofBytes_toBytes (Nat.mod_lt _ (by decide : 0 < 2 ^ 32))

/-- The bytes tell of each word its lowest 32 bits. -/
theorem wordsBytes_congr {l k : List Nat} (h : l.map (· % 2 ^ 32) = k.map (· % 2 ^ 32)) : wordsBytes l = wordsBytes k := by
  have hmod (l : List Nat) : wordsBytes (l.map (· % 2 ^ 32)) = wordsBytes l := by
    simp only [wordsBytes, List.flatMap_map, toBytes_mod]
  rw [← hmod l, h, hmod]

theorem padTo_wordsBytes {l : List Nat} {n : Nat} (h : l.length ≤ n) :
    padTo (4 * n) (wordsBytes l) = wordsBytes (l ++ List.replicate (n - l.length) 0) := by
  have hgap : 4 * n - 4 * l.length = 4 * (n - l.length) := (Nat.mul_sub ..).symm
  rw [wordsBytes_append, wordsBytes_replicate, padTo, length_wordsBytes, hgap]
  exact List.take_of_length_le (by rw [List.length_append, length_wordsBytes, List.length_replicate]; omega)

theorem fieldAt_wordsBytes (l : List Nat) (i : Nat) : fieldAt (wordsBytes l) (4 * i) 4 = l.getD i 0 % 2 ^ 32 := by
  induction l generalizing i with
  | nil => simp [wordsBytes, fieldAt, slice, ofBytes]
  | cons x l ih =>
    have hcons : wordsBytes (x :: l) = toBytes 4 x ++ wordsBytes l := rfl
    cases i with
    | zero =>
      have hslice : slice (toBytes 4 x ++ wordsBytes l) (4 * 0) 4 = toBytes 4 x := by
        rw [slice, Nat.mul_zero, List.drop_zero, List.take_left' (length_toBytes 4 x)]
      rw [hcons, fieldAt, hslice, ofBytes_toBytes_word]
      rfl
    | succ i =>
      have hslice : slice (toBytes 4 x ++ wordsBytes l) (4 * (i + 1)) 4 = slice (wordsBytes l) (4 * i) 4 := by
        rw [slice, Nat.mul_succ, Nat.add_comm, ← List.drop_drop, List.drop_left' (length_toBytes 4 x), slice]
      rw [hcons, fieldAt, hslice, ← fieldAt, ih]
      rfl

/-- The sum of 32-bit words. -/
def wordSum (l : List Nat) : Nat := (l.map (· % 2 ^ 32)).sum

theorem foldl_add_range (f : Nat → Nat) (n : Nat) : (upto n).foldl (fun a i => a + f i) 0 = ((upto n).map f).sum := by
  rw [List.sum_eq_foldl, List.foldl_map]

theorem foldl_fieldAt_wordsBytes {l : List Nat} {n : Nat} (h : l.length = n) :
    (upto n).foldl (fun a i => a + fieldAt (wordsBytes l) (4 * i) 4) 0 = wordSum l := by
  subst h
  rw [foldl_add_range, wordSum]
  refine congrArg List.sum (List.ext_getElem (by simp [upto]) fun i hi _ => ?_)
  have hi' : i < l.length := by simpa [upto] using hi
  simp [upto, fieldAt_wordsBytes, hi']

/-! ### The words of the image -/

/-- The PIVOTS words of a coprocessor. -/
def imagePivots (c : Cmc) : List Nat := c.pivots.getD (cmcPivots c)

/-- The header, the input words and the result words. -/
def imageHead (c : Cmc) : List Nat :=
  [0x0C01, pack [(0, 5, c.flags / 16), (8, 2, c.mstate), (12, 2, c.nM1)], ofInt 32 c.inExp, ofInt 32 c.outExp]
def imageInputs (c : Cmc) : List Nat := (upto 16).map fun e => tget c.input e 0
def imageResults (c : Cmc) : List Nat := (cmcResult16 c).flatMap fun z => [ofInt 32 z.1, ofInt 32 z.2]

/-- The 255 words before the CHECK. -/
def imageWords (c : Cmc) : List Nat :=
  imageHead c ++ List.replicate 12 0 ++ (imageInputs c ++ (imageResults c ++ (imagePivots c ++ List.replicate 187 0)))

/-- The CHECK. -/
def imageCheck (c : Cmc) : Nat := ofInt 32 (-(wordSum (imageWords c) : Int))

@[simp] theorem length_imageHead (c : Cmc) : (imageHead c).length = 4 := rfl

@[simp] theorem length_imageInputs (c : Cmc) : (imageInputs c).length = 16 := rfl

@[simp] theorem length_imageResults (c : Cmc) : (imageResults c).length = 32 := by
  simp [imageResults, cmcResult16, upto, List.length_flatMap, Function.comp_def]

section Image
variable {c : Cmc} (hp : (imagePivots c).length = 4)
include hp

theorem length_imageWords : (imageWords c).length = 255 := by
  simp only [imageWords, List.length_append, List.length_replicate, length_imageHead, length_imageInputs, length_imageResults, hp]

theorem cmcImage_eq : cmcImage c = wordsBytes (imageWords c ++ [imageCheck c]) := by
  have hhead : padTo 0x40 (wordsBytes (imageHead c)) = wordsBytes (imageHead c ++ List.replicate 12 0) :=
    padTo_wordsBytes (n := 16) ((length_imageHead c).trans_le (by decide))
  have hbody : padTo 0x3FC (wordsBytes (imageHead c ++ List.replicate 12 0) ++ wordsBytes (imageInputs c) ++ wordsBytes (imageResults c) ++
      wordsBytes (imagePivots c)) = wordsBytes (imageWords c) := by
    have hlen : (imageHead c ++ List.replicate 12 0 ++ imageInputs c ++ imageResults c ++ imagePivots c).length = 68 := by
      simp only [List.length_append, List.length_replicate, length_imageHead, length_imageInputs, length_imageResults, hp]
    rw [← wordsBytes_append, ← wordsBytes_append, ← wordsBytes_append]
    refine (padTo_wordsBytes (n := 255) (by omega)).trans ?_
    rw [hlen, imageWords]
    simp only [List.append_assoc]
  have hwords : cmcImage c = wordsBytes (imageWords c) ++
      toBytes 4 (ofInt 32 (-(((upto 255).foldl (fun a i => a + fieldAt (wordsBytes (imageWords c)) (4 * i) 4) 0 : Nat) : Int))) := by
    rw [← hbody, ← hhead]
    simp only [cmcImage, wordsBytes, imageHead, imageInputs, imageResults, imagePivots, List.flatMap_cons, List.flatMap_nil, List.append_nil, List.append_assoc]
  rw [hwords, foldl_fieldAt_wordsBytes (length_imageWords hp), wordsBytes_append, ← imageCheck]
  exact congrArg (wordsBytes (imageWords c) ++ ·) (List.flatMap_singleton ..).symm

end Image

section Image
variable {c : Cmc} (hp : (imagePivots c).length = 4)
include hp

theorem length_cmcImage : (cmcImage c).length = 1024 := by
  rw [cmcImage_eq hp, length_wordsBytes, List.length_append, length_imageWords hp]
  rfl

/-- The format is that of Table 7-18, and the words add up to 0. -/
theorem cmcImageOk_cmcImage : cmcImageOk (cmcImage c) = true := by
  have hformat : fieldAt (wordsBytes (imageWords c ++ [imageCheck c])) 0 2 = 0x0C01 := rfl
  have hsum : wordSum (imageWords c ++ [imageCheck c]) % 2 ^ 32 = 0 := by
    have happend : wordSum (imageWords c ++ [imageCheck c]) = wordSum (imageWords c) + imageCheck c % 2 ^ 32 := by
      rw [wordSum, List.map_append, List.sum_append, List.map_singleton, List.sum_singleton, wordSum]
    rw [happend, imageCheck, ofInt]
    omega
  have hlen : (imageWords c ++ [imageCheck c]).length = 256 := by rw [List.length_append, length_imageWords hp]; rfl
  rw [cmcImageOk, cmcImage_eq hp, hformat, foldl_fieldAt_wordsBytes hlen, hsum]
  rfl

end Image

/-- Coprocessors whose words agree have one image. -/
theorem cmcImage_congr {a b : Cmc} (ha : (imagePivots a).length = 4) (hb : (imagePivots b).length = 4)
    (h : (imageWords a).map (· % 2 ^ 32) = (imageWords b).map (· % 2 ^ 32)) : cmcImage a = cmcImage b := by
  have hcheck : imageCheck a = imageCheck b := by rw [imageCheck, wordSum, h, imageCheck, wordSum]
  rw [cmcImage_eq ha, cmcImage_eq hb, hcheck]
  exact wordsBytes_congr (by rw [List.map_append, h, List.map_append])

/-! ### The fields of an image -/

theorem getD_append_block {A B R : List Nat} {n i : Nat} (hn : A.length = n) (hi : i < B.length) : (A ++ (B ++ R)).getD (n + i) 0 = B.getD i 0 := by
  rw [List.getD_append_right _ _ _ _ (by omega), hn, Nat.add_sub_cancel_left, List.getD_append _ _ _ _ hi]

theorem getD_flatMap_pair (l : List (Int × Int)) (f g : Int × Int → Nat) {i : Nat} (hi : i < l.length) :
    (l.flatMap fun z => [f z, g z]).getD (2 * i) 0 = f (l.getD i (0, 0)) ∧ (l.flatMap fun z => [f z, g z]).getD (2 * i + 1) 0 = g (l.getD i (0, 0)) := by
  induction l generalizing i with
  | nil => exact absurd hi (Nat.not_lt_zero _)
  | cons z l ih =>
    cases i with
    | zero => exact ⟨rfl, rfl⟩
    | succ i => exact ih (Nat.lt_of_succ_lt_succ hi)

theorem getD_map_upto {α : Type} (f : Nat → α) {n i : Nat} (hi : i < n) (d : α) : ((upto n).map f).getD i d = f i := by
  rw [List.getD_eq_getElem _ _ (by simpa [upto] using hi)]
  simp [upto]

/-- Element `e` of the result workspace. -/
def resultOf (c : Cmc) (e : Nat) : Int × Int := c.result.getD e (0, 0)

section Fields
variable {c : Cmc} (hp : (imagePivots c).length = 4)
include hp

theorem fieldAt_cmcImage {i : Nat} (hi : i < 255) : fieldAt (cmcImage c) (4 * i) 4 = (imageWords c).getD i 0 % 2 ^ 32 := by
  rw [cmcImage_eq hp, fieldAt_wordsBytes, List.getD_append _ _ _ _ (by rwa [length_imageWords hp])]

theorem fieldAt_cmcImage_input {e : Nat} (he : e < 16) : fieldAt (cmcImage c) (0x40 + 4 * e) 4 = tget c.input e 0 % 2 ^ 32 := by
  have hword : (imageWords c).getD (16 + e) 0 = tget c.input e 0 :=
    (getD_append_block rfl he).trans (getD_map_upto (fun e => tget c.input e 0) he 0)
  rw [← hword, ← fieldAt_cmcImage hp (by omega)]
  congr 1
  omega

theorem fieldAt_cmcImage_result {e : Nat} (he : e < 16) :
    fieldAt (cmcImage c) (0x80 + 8 * e) 4 = ofInt 32 (resultOf c e).1 % 2 ^ 32 ∧ fieldAt (cmcImage c) (0x84 + 8 * e) 4 = ofInt 32 (resultOf c e).2 % 2 ^ 32 := by
  have hwords {i : Nat} (hi : i < 32) : (imageWords c).getD (32 + i) 0 = (imageResults c).getD i 0 := by
    rw [imageWords, ← List.append_assoc]
    exact getD_append_block rfl (hi.trans_eq (length_imageResults c).symm)
  obtain ⟨hre, him⟩ := getD_flatMap_pair (cmcResult16 c) (fun z => ofInt 32 z.1) (fun z => ofInt 32 z.2) (i := e) he
  have helement : (cmcResult16 c).getD e (0, 0) = resultOf c e := getD_map_upto _ he _
  rw [helement] at hre him
  constructor
  · rw [← hre, ← imageResults, ← hwords (by omega), ← fieldAt_cmcImage hp (by omega)]
    congr 1
    omega
  · rw [← him, ← imageResults, ← hwords (by omega), ← fieldAt_cmcImage hp (by omega)]
    congr 1
    omega

theorem fieldAt_cmcImage_pivot {i : Nat} (hi : i < 4) : fieldAt (cmcImage c) (0x100 + 4 * i) 4 = (imagePivots c).getD i 0 % 2 ^ 32 := by
  have hword : (imageWords c).getD (64 + i) 0 = (imagePivots c).getD i 0 := by
    rw [imageWords, ← List.append_assoc, ← List.append_assoc]
    exact getD_append_block (by simp only [List.length_append, List.length_replicate, length_imageHead, length_imageInputs, length_imageResults]) (hp ▸ hi)
  rw [← hword, ← fieldAt_cmcImage hp (by omega)]
  congr 1
  omega

end Fields

/-! ### A coprocessor that loads an image -/

/-- Two's complement of a signed number, read and written again. -/
theorem ofInt_toInt_ofInt (x : Int) : ofInt 32 (toInt 32 (ofInt 32 x % 2 ^ 32)) = ofInt 32 x := by
  unfold ofInt toInt
  split <;> omega

/-- The table of the nonzero values of a function. -/
theorem tget_nonzero (f : Nat → Nat) (l : List Nat) (k : Nat) :
    tget ((l.map fun e => (e, f e)).filter fun p => p.2 != 0) k 0 = if k ∈ l then f k else 0 := by
  induction l with
  | nil => rfl
  | cons a l ih =>
    rw [List.map_cons, List.filter_cons]
    split
    · by_cases hak : a = k
      · subst hak
        simp [tget, tfind]
      · have htail (t : Table Nat) : tget ((a, f a) :: t) k 0 = tget t k 0 := by simp [tget, tfind, hak]
        rw [htail, ih]
        simp [Ne.symm hak]
    · next hzero =>
      have hf : f a = 0 := by simpa using hzero
      rw [ih]
      by_cases hak : k = a
      · subst hak
        simp [hf]
      · simp [hak]

/-- The fields of the header word. -/
theorem headerWord_fields (a b c : Nat) :
    let f := pack [(0, 5, a), (8, 2, b), (12, 2, c)] % 2 ^ 32
    fld f 0 5 = a % 2 ^ 5 ∧ fld f 8 2 = b % 2 ^ 2 ∧ fld f 12 2 = c % 2 ^ 2 := by
  simp only [pack, fld, Nat.shiftLeft_eq, Nat.shiftRight_eq_div_pow]
  omega

theorem input_cmcFromImage (l : List Byte) (q : Cmc) : (cmcFromImage l q).input =
    ((upto 16).map fun e => (e, fieldAt l (0x40 + 4 * e) 4)).filter fun p => p.2 != 0 := rfl

theorem result_cmcFromImage (l : List Byte) (q : Cmc) : (cmcFromImage l q).result =
    (upto 16).map fun e => (toInt 32 (fieldAt l (0x80 + 8 * e) 4), toInt 32 (fieldAt l (0x84 + 8 * e) 4)) := rfl

section Restore
variable {m : Cmc} (hp : (imagePivots m).length = 4) (q : Cmc)
include hp

/-- The PIVOTS words of a coprocessor that loaded an image are those of the image. -/
theorem imagePivots_cmcFromImage : imagePivots (cmcFromImage (cmcImage m) q) = (imagePivots m).map (· % 2 ^ 32) := by
  have hloaded : imagePivots (cmcFromImage (cmcImage m) q) = (upto 4).map fun i => fieldAt (cmcImage m) (0x100 + 4 * i) 4 := by
    unfold imagePivots cmcFromImage
    dsimp only
    split
    · next heq => exact heq.symm
    · rfl
  rw [hloaded]
  refine List.ext_getElem (by simp [upto, hp]) fun i hi _ => ?_
  have hi' : i < 4 := by simpa [upto] using hi
  simp [upto, fieldAt_cmcImage_pivot hp hi', hp, hi']

theorem imageHead_cmcFromImage : imageHead (cmcFromImage (cmcImage m) q) = imageHead m := by
  obtain ⟨hflags, hstate, hn⟩ := headerWord_fields (m.flags / 16) m.mstate m.nM1
  have hheader : fieldAt (cmcImage m) 4 4 = pack [(0, 5, m.flags / 16), (8, 2, m.mstate), (12, 2, m.nM1)] % 2 ^ 32 := fieldAt_cmcImage hp (i := 1) (by decide)
  have hin : fieldAt (cmcImage m) 8 4 = ofInt 32 m.inExp % 2 ^ 32 := fieldAt_cmcImage hp (i := 2) (by decide)
  have hout : fieldAt (cmcImage m) 12 4 = ofInt 32 m.outExp % 2 ^ 32 := fieldAt_cmcImage hp (i := 3) (by decide)
  have hword : pack [(0, 5, 16 * (m.flags / 16 % 2 ^ 5) / 16), (8, 2, m.mstate % 2 ^ 2), (12, 2, m.nM1 % 2 ^ 2)] =
      pack [(0, 5, m.flags / 16), (8, 2, m.mstate), (12, 2, m.nM1)] := by
    rw [Nat.mul_div_cancel_left _ (by decide)]
    simp only [pack, Nat.mod_mod]
  unfold imageHead cmcFromImage
  dsimp only
  rw [hheader, hflags, hstate, hn, hword, hin, hout, ofInt_toInt_ofInt, ofInt_toInt_ofInt]

theorem imageInputs_cmcFromImage : imageInputs (cmcFromImage (cmcImage m) q) = (imageInputs m).map (· % 2 ^ 32) := by
  rw [imageInputs, imageInputs, List.map_map]
  refine List.map_congr_left fun e he => ?_
  rw [input_cmcFromImage, tget_nonzero (fun e => fieldAt (cmcImage m) (0x40 + 4 * e) 4), if_pos he, fieldAt_cmcImage_input hp (List.mem_range.mp he),
    Function.comp_apply]

theorem imageResults_cmcFromImage : imageResults (cmcFromImage (cmcImage m) q) = imageResults m := by
  have helement {e : Nat} (he : e < 16) : resultOf (cmcFromImage (cmcImage m) q) e =
      (toInt 32 (ofInt 32 (resultOf m e).1 % 2 ^ 32), toInt 32 (ofInt 32 (resultOf m e).2 % 2 ^ 32)) := by
    obtain ⟨hre, him⟩ := fieldAt_cmcImage_result hp he
    rw [← hre, ← him, resultOf, result_cmcFromImage, getD_map_upto _ he]
  have hresults (c : Cmc) : imageResults c = (upto 16).flatMap fun e => [ofInt 32 (resultOf c e).1, ofInt 32 (resultOf c e).2] := List.flatMap_map ..
  rw [hresults, hresults]
  refine List.flatMap_congr fun e he => ?_
  rw [helement (List.mem_range.mp he), ofInt_toInt_ofInt, ofInt_toInt_ofInt]

theorem cmcImage_cmcFromImage : cmcImage (cmcFromImage (cmcImage m) q) = cmcImage m := by
  have hpivots := imagePivots_cmcFromImage hp q
  refine cmcImage_congr (by rw [hpivots, List.length_map, hp]) hp ?_
  simp only [imageWords, imageHead_cmcFromImage hp q, imageInputs_cmcFromImage hp q, imageResults_cmcFromImage hp q, hpivots, List.map_append,
    List.map_map, Function.comp_def, Nat.mod_mod]

end Restore

/-- Settles O25: the image as 32-bit words, each read back. -/
theorem coprocessorImageRoundTrip : Obligations.CoprocessorImageRoundTrip := by
  unfold Obligations.CoprocessorImageRoundTrip
  intro m q h
  have hp : (imagePivots m).length = 4 := by
    unfold imagePivots
    cases hm : m.pivots with
    | none => rfl
    | some l => exact h l hm
  exact ⟨length_cmcImage hp, cmcImageOk_cmcImage hp, cmcImage_cmcFromImage hp q⟩

end Sys2Proof.Machine
end

section
/-!
PROOFS. Bindings of the machine-access receivers by number, and the writes that make, end and size what a receiver works with (R349, R350, R358,
R367, R381, R384).
-/
namespace Sys2Proof.Machine

set_option Elab.async false

/-! ### One binding -/

theorem tfind_tdel_ne {α : Type} {k j : Nat} (h : j ≠ k) (t : Table α) : tfind j (tdel k t) = tfind j t := by
  induction t with
  | nil => rfl
  | cons e r ih =>
    obtain ⟨i, x⟩ := e
    by_cases hi : i = k
    · simp [tdel, tfind, hi, ih, Ne.symm h]
    · simp [tdel, tfind, hi, ih]

/-- A table in which an entry at its reset record is left out. -/
theorem tget_put_self {α : Type} [DecidableEq α] (k : Nat) (v d : α) (t : Table α) : tget (if v = d then tdel k t else tset k v t) k d = v := by
  split
  · next h => rw [tget, tfind_tdel_self, h]; rfl
  · exact tget_tset_self ..

theorem tget_put_ne {α : Type} [DecidableEq α] {k j : Nat} (h : j ≠ k) (v d : α) (t : Table α) :
    tget (if v = d then tdel k t else tset k v t) j d = tget t j d := by
  split
  · rw [tget, tget, tfind_tdel_ne h]
  · exact tget_tset_ne h ..

@[simp] theorem bindOf_setBind_self (n : Nat) (b : Binding) (s : State) : bindOf (setBind n b s) n = b := tget_put_self ..

theorem bindOf_setBind_ne {n m : Nat} (h : m ≠ n) (b : Binding) (s : State) : bindOf (setBind n b s) m = bindOf s m := tget_put_ne h ..

theorem bindOf_congr {s t : State} (h : t.radio.bindings = s.radio.bindings) (n : Nat) : bindOf t n = bindOf s n := by rw [bindOf, bindOf, h]

/-- A binding with bursts or records stays as it is, and so does one that does not drain. -/
theorem bindOf_settleBinding_self (n : Nat) (s : State) : bindOf (settleBinding n s) n =
    if (bindOf s n).state = .draining ∧ (bindOf s n).spool.isEmpty ∧ (s.radio.bursts.any fun x => 4 * x.tenant + x.slot == n) = false then {}
    else bindOf s n := by
  unfold settleBinding
  dsimp only
  split
  · next h => rw [bindOf_setBind_self, if_pos (by simpa [and_assoc] using h)]
  · next h => rw [if_neg fun hc => h (by simpa [and_assoc] using hc)]

theorem bindOf_settleBinding_ne {n m : Nat} (h : m ≠ n) (s : State) : bindOf (settleBinding n s) m = bindOf s m := by
  unfold settleBinding
  dsimp only
  split
  · exact bindOf_setBind_ne h ..
  · rfl

@[simp] theorem bursts_settleBinding (n : Nat) (s : State) : (settleBinding n s).radio.bursts = s.radio.bursts := by
  unfold settleBinding
  dsimp only
  split <;> rfl

/-! ### BIND_SET (R349, R350) -/

/-- What BIND_SET asks of the slot and the descriptor, the room for the spool apart. -/
def Bindable (s : State) (t slot d : Nat) : Prop :=
  slot < 4 ∧ (bindOf s (4 * t + slot)).state = .free ∧ descFieldsOk d = true ∧ ciTenant s (bindCi d) = some t ∧ classAirOk s d = true ∧
    axcsBound s d = true ∧ marLimitsOk s d = true

section BindSet
variable {t slot d : Nat} {s : State}

theorem wBindSet_refused (h : ¬Bindable s t slot d ∨ spoolPlace s (bSpoolBytes d) = none) : wBindSet t slot d s = refusedW .range s := by
  by_cases hok : Bindable s t slot d
  · have hplace := h.resolve_left (not_not.mpr hok)
    obtain ⟨hslot, hfree, hdesc, hci, hair, haxcs, hlimits⟩ := hok
    simp [wBindSet, hfree, hdesc, hci, hair, haxcs, hlimits, hplace]
  · refine if_pos (Classical.by_contradiction fun hno => hok ?_)
    simpa [Bindable, and_assoc] using hno

theorem wBindSet_accepted {a : Nat} (h : Bindable s t slot d) (hplace : spoolPlace s (bSpoolBytes d) = some a) :
    wBindSet t slot d s = accepted (setBind (4 * t + slot) { state := .active, desc := d, base := a } s) := by
  obtain ⟨hslot, hfree, hdesc, hci, hair, haxcs, hlimits⟩ := h
  simp [wBindSet, hslot, hfree, hdesc, hci, hair, haxcs, hlimits, hplace]

end BindSet

/-! ### UNBIND (R381) -/

/-- The bursts that a binding leaving ACTIVE keeps. -/
def keptBursts (n : Nat) (s : State) : List Burst :=
  s.radio.bursts.filter fun x => !(4 * x.tenant + x.slot == n && (!marRuns s (bMar (bindOf s n).desc) || x.ended.isNone))

/-- An ACTIVE binding drains, and is FREE at once when it has neither a record nor a burst left. -/
theorem leaveActive_facts {n : Nat} {s : State} (h : (bindOf s n).state = .active) :
    (leaveActive n s).radio.bursts = keptBursts n s ∧
    bindOf (leaveActive n s) n = (if (bindOf s n).spool.isEmpty && !(keptBursts n s).any fun x => 4 * x.tenant + x.slot == n then {}
      else { bindOf s n with state := .draining, chans := [] }) ∧
    ∀ m, m ≠ n → bindOf (leaveActive n s) m = bindOf s m := by
  let drained := dropBursts n 11 (fun x => !marRuns s (bMar (bindOf s n).desc) || x.ended.isNone)
    (setBind n { bindOf s n with state := .draining, chans := [] } s)
  have hleave : leaveActive n s = settleBinding n drained := if_pos h
  have hbursts : drained.radio.bursts = keptBursts n s := rfl
  have hbind (m : Nat) : bindOf drained m = bindOf (setBind n { bindOf s n with state := .draining, chans := [] } s) m := bindOf_congr rfl m
  rw [hleave]
  refine ⟨(bursts_settleBinding ..).trans hbursts, ?_, fun m hm => ?_⟩
  · rw [bindOf_settleBinding_self, hbind, bindOf_setBind_self, hbursts]
    simp
  · rw [bindOf_settleBinding_ne hm, hbind, bindOf_setBind_ne hm]

section Unbind
variable {t slot : Nat} {s : State}

theorem wUnbind_no_slot (h : 4 ≤ slot) : wUnbind t slot s = refusedW .range s := if_pos h

theorem wUnbind_not_active (hslot : slot < 4) (h : (bindOf s (4 * t + slot)).state ≠ .active) : wUnbind t slot s = refusedW .state s := by
  simp [wUnbind, Nat.not_le.mpr hslot, h]

theorem wUnbind_accepted (hslot : slot < 4) (h : (bindOf s (4 * t + slot)).state = .active) :
    wUnbind t slot s = accepted (leaveActive (4 * t + slot) s) := by
  simp [wUnbind, Nat.not_le.mpr hslot, h]

end Unbind

/-! ### RES_SET (R358) -/

/-- RES_SET names a resource of an ACTIVE class E binding. -/
def HasResources (s : State) (t slot idx : Nat) : Prop :=
  slot < 4 ∧ idx < 64 ∧ (bindOf s (4 * t + slot)).state = .active ∧ bClassE (bindOf s (4 * t + slot)).desc = true

/-- Resources in use on the MAR of a binding. -/
def resourcesUsed (s : State) (b : Binding) : Nat := (marBindings s (bMar b.desc)).foldl (fun c e => c + e.2.resources.length) 0

/-- A binding with one of its resources to be removed at the end of its occasion. -/
def removalMarked (idx : Nat) (b : Binding) : Binding := { b with removing := idx :: b.removing.filter (· != idx) }

section ResSet
variable {t slot idx r : Nat} {s : State}

theorem wResSet_nowhere (h : ¬HasResources s t slot idx) : wResSet t slot idx r s = refusedW .range s := by
  refine if_pos (Classical.by_contradiction fun hno => h ?_)
  simpa [HasResources, and_assoc] using hno

theorem wResSet_refused (h : HasResources s t slot idx) (hv : bitAt r 7 = true)
    (hbad : resourceOk (bindOf s (4 * t + slot)).desc r = false ∨
      (tfind idx (bindOf s (4 * t + slot)).resources = none ∧ 256 ≤ resourcesUsed s (bindOf s (4 * t + slot)))) :
    wResSet t slot idx r s = refusedW .range s := by
  obtain ⟨hslot, hidx, hactive, hclass⟩ := h
  simp only [resourcesUsed] at hbad
  rcases hbad with hbad | ⟨hnew, hfull⟩
  · simp [wResSet, Nat.not_le.mpr hslot, Nat.not_le.mpr hidx, hactive, hclass, hv, hbad]
  · simp [wResSet, Nat.not_le.mpr hslot, Nat.not_le.mpr hidx, hactive, hclass, hv, hnew, hfull]

theorem wResSet_sets (h : HasResources s t slot idx) (hv : bitAt r 7 = true) (hok : resourceOk (bindOf s (4 * t + slot)).desc r = true)
    (hroom : tfind idx (bindOf s (4 * t + slot)).resources ≠ none ∨ resourcesUsed s (bindOf s (4 * t + slot)) < 256) :
    wResSet t slot idx r s = accepted (setBind (4 * t + slot)
      { bindOf s (4 * t + slot) with
        resources := tset idx r (bindOf s (4 * t + slot)).resources
        removing := (bindOf s (4 * t + slot)).removing.filter (· != idx) } s) := by
  obtain ⟨hslot, hidx, hactive, hclass⟩ := h
  simp only [resourcesUsed] at hroom
  rcases hroom with hold | hroom
  · simp [wResSet, Nat.not_le.mpr hslot, Nat.not_le.mpr hidx, hactive, hclass, hv, hok, hold]
  · simp [wResSet, Nat.not_le.mpr hslot, Nat.not_le.mpr hidx, hactive, hclass, hv, hok, Nat.not_le.mpr hroom]

/-- VALID = 0 marks the resource, if there is one, for removal. -/
theorem wResSet_removes (h : HasResources s t slot idx) (hv : bitAt r 7 = false) :
    wResSet t slot idx r s = accepted (if (tfind idx (bindOf s (4 * t + slot)).resources).isSome then
      setBind (4 * t + slot) (removalMarked idx (bindOf s (4 * t + slot))) s else s) := by
  obtain ⟨hslot, hidx, hactive, hclass⟩ := h
  simp [wResSet, Nat.not_le.mpr hslot, Nat.not_le.mpr hidx, hactive, hclass, hv, removalMarked]

end ResSet

/-! ### BUCKETS_MAX and IDT_REBUILD (R367, R371, R384) -/

/-- A power of two from 4,096 to 524,288. -/
def BucketsInRange (v : Nat) : Prop := 4096 ≤ v ∧ v ≤ 524288 ∧ v = 2 ^ Nat.log2 v

section BucketsMax
variable {v : Nat} {s : State}

theorem wBucketsMax_running (h : idtStopped s = false) : wBucketsMax v s = refusedW .state s := by simp [wBucketsMax, h]

theorem wBucketsMax_refused (h : idtStopped s = true) (hbad : ¬BucketsInRange v) : wBucketsMax v s = refusedW .range s := by
  simp only [wBucketsMax, h, Bool.not_true, Bool.false_eq_true, if_false]
  refine if_pos (Classical.by_contradiction fun hno => hbad ?_)
  simpa [BucketsInRange, and_assoc] using hno

theorem wBucketsMax_accepted (h : idtStopped s = true) (hok : BucketsInRange v) : wBucketsMax v s = accepted (wr kIdBucketsMax v s) := by
  obtain ⟨hlow, hhigh, hpow⟩ := hok
  simp [wBucketsMax, h, hlow, hhigh, ← hpow]

end BucketsMax

/-- What a rebuild asks of its size (R371). -/
def Rebuildable (s : State) (b : Nat) : Prop :=
  4096 ≤ b ∧ b ≤ rd s kIdBucketsMaxNow ∧ b = 2 ^ Nat.log2 b ∧ (upto 512).foldl (fun n t => n + rd s (kTeIdtQuota t)) 0 ≤ 8 * b

/-- A rebuild that has just begun. -/
def rebuildStarted (b seed : Nat) (s : State) : State :=
  wr kIdRebuildState 1 (wr kIdCursor 0 (wr kIdNewBuckets b { s with radio := { s.radio with idtNew := [], newSeed := seed, stallDelete := false } }))

section Rebuild
variable {b seed : Nat} {s : State}

theorem wIdtRebuild_running (h : rebuilding s = true) : wIdtRebuild b seed s = refusedW .state s := by simp [wIdtRebuild, h]

theorem wIdtRebuild_refused (h : rebuilding s = false) (hbad : ¬Rebuildable s b) : wIdtRebuild b seed s = refusedW .range s := by
  simp only [wIdtRebuild, h, Bool.false_eq_true, if_false]
  refine if_pos (Classical.by_contradiction fun hno => hbad ?_)
  simpa [Rebuildable, and_assoc] using hno

theorem wIdtRebuild_accepted (h : rebuilding s = false) (hok : Rebuildable s b) : wIdtRebuild b seed s = accepted (rebuildStarted b seed s) := by
  obtain ⟨hlow, hhigh, hpow, hquota⟩ := hok
  simp only [wIdtRebuild, h, Bool.false_eq_true, if_false]
  refine if_neg ?_
  simp [hlow, hhigh, ← hpow, hquota]

theorem rebuildStarted_facts (b seed : Nat) (s : State) :
    let t := rebuildStarted b seed s
    rd t kIdRebuildState = 1 ∧ rd t kIdCursor = 0 ∧ rd t kIdNewBuckets = b ∧ Keeps [kIdRebuildState, kIdCursor, kIdNewBuckets] s t := by
  refine ⟨rd_wr_self .., (rd_wr_ne (by decide) ..).trans (rd_wr_self ..),
    (rd_wr_ne (by decide) ..).trans ((rd_wr_ne (by decide) ..).trans (rd_wr_self ..)), ?_⟩
  have hradio : Keeps [kIdRebuildState, kIdCursor, kIdNewBuckets] s
      { s with radio := { s.radio with idtNew := [], newSeed := seed, stallDelete := false } } := Keeps.of_obj rfl
  exact hradio.trans (((keeps_wr kIdNewBuckets _ _).mono (by simp)).trans (((keeps_wr kIdCursor _ _).mono (by simp)).trans
    ((keeps_wr kIdRebuildState _ _).mono (by simp))))

end Rebuild

/-- Settles O37: a command answers what the write it stands for gives, and each clause is the lemma above about that write. -/
theorem receiverBindings : Obligations.ReceiverBindings := by
  unfold Obligations.ReceiverBindings
  refine ⟨fun t slot d s => ⟨fun h => ?bindRefused, fun a hok hplace => ?binds⟩,
    fun t slot s => ⟨fun h => ?unbindNowhere, fun hslot h => ?unbindNotActive, fun hslot h => ?unbinds⟩,
    fun t slot idx r s => ⟨fun h => ?resNowhere, fun h hv hbad => ?resRefused, fun h hv hok hroom => ?resSets, fun h hv => ?resRemoves⟩,
    fun v s => ⟨fun h => ?maxRunning, fun h hbad => ?maxRefused, fun h hok => ?maxSets⟩,
    fun buckets seed s => ⟨fun h => ?rebuildRunning, fun h hbad => ?rebuildRefused, fun h hok => ?rebuilds⟩⟩
  case bindRefused => exact congrArg answer (wBindSet_refused h)
  case binds =>
    exact accepts_of_runs execBindSet_only (congrArg answer (wBindSet_accepted hok hplace))
      ⟨bindOf_setBind_self .., fun m hm => bindOf_setBind_ne hm ..⟩
  case unbindNowhere => exact congrArg answer (wUnbind_no_slot h)
  case unbindNotActive => exact congrArg answer (wUnbind_not_active hslot h)
  case unbinds =>
    obtain ⟨hbursts, hbind, hothers⟩ := leaveActive_facts h
    refine accepts_of_runs execUnbind_only (congrArg answer (wUnbind_accepted hslot h)) ⟨hbursts, ?_, hothers⟩
    rw [← hbursts] at hbind
    exact hbind
  case resNowhere => exact congrArg answer (wResSet_nowhere h)
  case resRefused => exact congrArg answer (wResSet_refused h hv hbad)
  case resSets =>
    exact accepts_of_runs execResSet_only (congrArg answer (wResSet_sets h hv hok hroom))
      ⟨fun m hm => bindOf_setBind_ne hm .., bindOf_setBind_self ..⟩
  case resRemoves =>
    refine accepts_of_runs execResSet_only (congrArg answer (wResSet_removes h hv)) ?_
    split
    next hthere =>
      have hself : bindOf (send (.reply 0) (setBind _ _ s)) (4 * t.val + slot.toNat) = removalMarked idx.toNat (bindOf s (4 * t.val + slot.toNat)) :=
        bindOf_setBind_self ..
      rw [hself]
      exact ⟨fun m hm => bindOf_setBind_ne hm .., rfl, fun _ => List.mem_cons_self, fun hnone => absurd hthere (by simp [hnone])⟩
    next hnot => exact ⟨fun _ _ => rfl, rfl, fun hsome => absurd (Option.isSome_iff_ne_none.mpr hsome) hnot, fun _ => rfl⟩
  case maxRunning => exact congrArg answer (wBucketsMax_running h)
  case maxRefused => exact congrArg answer (wBucketsMax_refused h hbad)
  case maxSets =>
    exact accepts_of_runs execBucketsMax_only (congrArg answer (wBucketsMax_accepted h hok)) ⟨rd_wr_self .., (keeps_wr _ _ _).send _⟩
  case rebuildRunning => exact congrArg answer (wIdtRebuild_running h)
  case rebuildRefused => exact congrArg answer (wIdtRebuild_refused h hbad)
  case rebuilds =>
    obtain ⟨hstate, hcursor, hsize, hkeeps⟩ := rebuildStarted_facts buckets.toNat seed.toNat s
    exact accepts_of_runs execIdtRebuild_only (congrArg answer (wIdtRebuild_accepted h hok)) ⟨hstate, hcursor, hsize, rfl, hkeeps.send _⟩

end Sys2Proof.Machine
end

section
/-!
PROOFS. Bursts at the machine-access receivers (R351 to R357, R372 to R374): the fields of a packed header, the counters of a receiver, the
channels of a binding, and what recording a burst changes and leaves.
-/
namespace Sys2Proof.Machine

set_option Elab.async false

/-! ### Fields of a packed word -/

/-- The fields stand one above another. -/
abbrev Stacked (l : List (Nat × Nat × Nat)) : Prop := l.Pairwise fun a b => a.1 + a.2.1 ≤ b.1

theorem two_pow_dvd_pack {k : Nat} {l : List (Nat × Nat × Nat)} (h : ∀ a ∈ l, k ≤ a.1) : 2 ^ k ∣ pack l := by
  induction l with
  | nil => exact dvd_zero _
  | cons a r ih =>
    obtain ⟨lo, w, v⟩ := a
    rw [pack, Nat.shiftLeft_eq]
    exact dvd_add (Dvd.dvd.mul_left (pow_dvd_pow 2 (h _ List.mem_cons_self)) _) (ih fun b hb => h b (List.mem_cons_of_mem _ hb))

/-- Below the fields that stand above it, a number does not show in them. -/
theorem fld_add_of_lt {k lo x y : Nat} (hx : x < 2 ^ k) (hy : 2 ^ k ∣ y) (hlo : k ≤ lo) (w : Nat) : fld (x + y) lo w = fld y lo w := by
  obtain ⟨q, rfl⟩ := hy
  have hdiv (a : Nat) : a / 2 ^ lo = a / 2 ^ k / 2 ^ (lo - k) := by rw [Nat.div_div_eq_div_mul, ← pow_add, Nat.add_sub_cancel' hlo]
  rw [fld, fld, Nat.shiftRight_eq_div_pow, Nat.shiftRight_eq_div_pow, hdiv, hdiv, Nat.add_mul_div_left _ _ (Nat.two_pow_pos k), Nat.div_eq_of_lt hx,
    Nat.zero_add, Nat.mul_div_cancel_left _ (Nat.two_pow_pos k)]

theorem fld_pack {l : List (Nat × Nat × Nat)} {lo w v : Nat} (h : Stacked l) (hmem : (lo, w, v) ∈ l) : fld (pack l) lo w = v % 2 ^ w := by
  induction l with
  | nil => cases hmem
  | cons a r ih =>
    obtain ⟨hhead, hrest⟩ := List.pairwise_cons.mp h
    have habove : 2 ^ (a.1 + a.2.1) ∣ pack r := two_pow_dvd_pack hhead
    obtain rfl | hin := List.mem_cons.mp hmem
    · obtain ⟨q, hq⟩ := habove
      have hsplit : pack ((lo, w, v) :: r) = 2 ^ lo * (v % 2 ^ w + 2 ^ w * q) := by
        rw [pack, hq, Nat.shiftLeft_eq, pow_add]
        ring
      rw [hsplit, fld, Nat.shiftRight_eq_div_pow, Nat.mul_div_cancel_left _ (Nat.two_pow_pos lo), Nat.add_mul_mod_self_left, Nat.mod_mod]
    · obtain ⟨la, wa, va⟩ := a
      have hsmall : (va % 2 ^ wa) <<< la < 2 ^ (la + wa) := by
        rw [Nat.shiftLeft_eq, pow_add, Nat.mul_comm (2 ^ la)]
        exact Nat.mul_lt_mul_of_pos_right (Nat.mod_lt _ (Nat.two_pow_pos wa)) (Nat.two_pow_pos la)
      rw [pack, fld_add_of_lt hsmall habove (hhead _ hin), ih hrest hin]

theorem stacked_of_layout {l : List (Nat × Nat × Nat)} {k : List (Nat × Nat)} (hl : l.map (fun a => (a.1, a.2.1)) = k)
    (h : k.Pairwise fun a b => a.1 + a.2 ≤ b.1) : Stacked l := List.pairwise_map.mp (hl ▸ h)

/-- RESULT, RSSI and SNR of a class S header (Table 10-13). -/
theorem sunHead_fields (b : Binding) (slot c : Nat) (ch : Chan) (result fin key rssi snr mse len kind : Nat) :
    let h := sunHead b slot c ch result fin key rssi snr mse len kind
    fld h 0 8 = result % 2 ^ 8 ∧ fld h 320 16 = rssi % 2 ^ 16 ∧ fld h 336 16 = snr % 2 ^ 16 := by
  have hfld {lo w v : Nat} (hmem : (lo, w, v) ∈ _) : fld (sunHead b slot c ch result fin key rssi snr mse len kind) lo w = v % 2 ^ w :=
    fld_pack (stacked_of_layout (k := [(0, 8), (12, 1), (13, 1), (15, 1), (16, 2), (24, 3), (32, 9), (48, 10), (64, 64), (128, 64), (192, 64),
      (288, 32), (320, 16), (336, 16), (352, 16), (368, 16), (480, 24), (504, 4)]) rfl (by decide)) hmem
  refine ⟨hfld ?_, hfld ?_, hfld ?_⟩ <;> simp only [List.mem_cons, true_or, or_true]

/-! ### Counters of a receiver (Table 10-19) -/

theorem kMaCounts_ne {i j : Nat} (h : i ≠ j) (m n : Nat) (hi : i < 16 := by decide) (hj : j < 16 := by decide) :
    kMaCounts m i ≠ kMaCounts n j := by
  unfold kMaCounts okey
  omega

theorem counts_marCount (m i n : Nat) (s : State) : Counts 64 (kMaCounts m i) n s (marCount m i n s) := rd_bumpBy_self ..

theorem rd_marCount_ne {k m i : Nat} (h : k ≠ kMaCounts m i) (n : Nat) (s : State) : rd (marCount m i n s) k = rd s k := rd_bumpBy_ne h ..

theorem keeps_marCount (m i n : Nat) (s : State) : Keeps [kMaCounts m i] s (marCount m i n s) :=
  fun _ hj => rd_marCount_ne (List.ne_of_not_mem_cons hj) n s

/-! ### Channels (R353) -/

theorem bindOf_of_chanOf {s : State} {n c : Nat} {b : Binding} {ch : Chan} (h : chanOf s n c = some (b, ch)) :
    bindOf s n = b ∧ b.state = .active := by
  unfold chanOf at h
  dsimp only at h
  split at h
  · next hruns =>
    simp only [Bool.and_eq_true, beq_iff_eq] at hruns
    obtain ⟨rfl, -⟩ := Prod.mk.inj (Option.some.inj h)
    exact ⟨rfl, hruns.1.1.1⟩
  · cases h

theorem bindOf_setChan_self (n c : Nat) (v : Chan) (s : State) : bindOf (setChan n c v s) n =
    { bindOf s n with chans := if v = {} then tdel c (bindOf s n).chans else tset c v (bindOf s n).chans } := bindOf_setBind_self ..

theorem bindOf_setChan_ne {n m : Nat} (h : m ≠ n) (c : Nat) (v : Chan) (s : State) : bindOf (setChan n c v s) m = bindOf s m :=
  bindOf_setBind_ne h ..

@[simp] theorem chan_setChan_self (n c : Nat) (v : Chan) (s : State) : tget (bindOf (setChan n c v s) n).chans c {} = v := by
  rw [bindOf_setChan_self]
  exact tget_put_self ..

theorem chan_setChan_ne {c y : Nat} (h : y ≠ c) (n : Nat) (v : Chan) (s : State) :
    tget (bindOf (setChan n c v s) n).chans y {} = tget (bindOf s n).chans y {} := by
  rw [bindOf_setChan_self]
  exact tget_put_ne h ..

/-- A command that gives one channel a value and leaves every other, whatever it does to bursts and counters. -/
theorem gives_channel {s u : State} {i : Instr} {n c : Nat} {v : Chan} {ks : List Nat} {P : State → Prop} (hexec : exec i s = .next u)
    (honly : Only [.obj, .radio] s u) (hkeeps : Keeps ks s u) (hchan : u.radio.bindings = (setChan n c v s).radio.bindings) (hp : P u) :
    Gives s i [.obj, .radio] fun u => Keeps ks s u ∧ tget (bindOf u n).chans c {} = v ∧
      (∀ y, y ≠ c → tget (bindOf u n).chans y {} = tget (bindOf s n).chans y {}) ∧ (∀ m, m ≠ n → bindOf u m = bindOf s m) ∧ P u := by
  have hbind (m : Nat) : bindOf u m = bindOf (setChan n c v s) m := bindOf_congr hchan m
  refine ⟨u, hexec, honly, hkeeps, ?_, fun y hy => ?_, fun m hm => ?_, hp⟩
  · rw [hbind, chan_setChan_self]
  · rw [hbind, chan_setChan_ne hy]
  · rw [hbind, bindOf_setChan_ne hm]

/-- And that counts it, and nothing else. -/
theorem gives_channel_counted {s : State} {i : Instr} {n c m j : Nat} {v : Chan} (hexec : exec i s = .next (marCount m j 1 (setChan n c v s))) :
    Gives s i [.obj, .radio] fun u => Keeps [kMaCounts m j] s u ∧ tget (bindOf u n).chans c {} = v ∧
      (∀ y, y ≠ c → tget (bindOf u n).chans y {} = tget (bindOf s n).chans y {}) ∧ (∀ m, m ≠ n → bindOf u m = bindOf s m) ∧
      Counts 64 (kMaCounts m j) 1 s u ∧ u.radio.bursts = s.radio.bursts := by
  have hchan (k : Nat) : rd (setChan n c v s) k = rd s k := setChan_only.keeps (keys := []) (by decide) k List.not_mem_nil
  exact gives_channel hexec (setChan_only.mono.trans marCount_only.mono) (setChan_only.keeps.trans (keeps_marCount _ _ _ _)) rfl
    ⟨(counts_marCount ..).of_start (hchan _), rfl⟩

/-! ### What the recording of a burst leaves (R372 to R374) -/

theorem Only.radio_eq {l : List Part} {s t : State} (h : Only l s t) (hl : Part.radio ∉ l := by decide) : t.radio = s.radio := h.same .radio hl

/-- The front end of a binding: its state, its channels and its resources. -/
structure Binding.SameFront (b c : Binding) : Prop where
  state : c.state = b.state
  chans : c.chans = b.chans
  resources : c.resources = b.resources

/-- Receiver `m` declares `j` bursts from `s` to `u`, and the front end of an ACTIVE binding stays as it was. -/
structure Declares (m j : Nat) (s u : State) : Prop where
  declared : u.radio.declared = s.radio.declared + j
  detected : rd u (kMaCounts m 5) % 2 ^ 64 = (rd s (kMaCounts m 5) + j) % 2 ^ 64
  front : ∀ n, (bindOf s n).state = .active → (bindOf s n).SameFront (bindOf u n)

/-- And the bursts without a record stay, with none declared. -/
structure Records (m : Nat) (s u : State) : Prop extends Declares m 0 s u where
  bursts : u.radio.bursts = s.radio.bursts

section Relations
variable {m : Nat} {s t u : State}

theorem Declares.trans {j k : Nat} (h : Declares m j s t) (h' : Declares m k t u) : Declares m (j + k) s u where
  declared := by rw [h'.declared, h.declared, Nat.add_assoc]
  detected := by
    have hfirst := h.detected
    have hsecond := h'.detected
    omega
  front n hn := by
    have hst := h.front n hn
    have htu := h'.front n (hst.state.trans hn)
    exact ⟨htu.state.trans hst.state, htu.chans.trans hst.chans, htu.resources.trans hst.resources⟩

/-- Only the bursts without a record change. -/
theorem Declares.of_bursts (l : List Burst) (s : State) : Declares m 0 s { s with radio := { s.radio with bursts := l } } :=
  ⟨rfl, rfl, fun _ _ => ⟨rfl, rfl, rfl⟩⟩

theorem Records.refl (s : State) : Records m s s := ⟨Declares.of_bursts s.radio.bursts s, rfl⟩

theorem Records.trans (h : Records m s t) (h' : Records m t u) : Records m s u := ⟨h.toDeclares.trans h'.toDeclares, h'.bursts.trans h.bursts⟩

theorem Records.of_radio (hradio : u.radio = s.radio) (hobj : rd u (kMaCounts m 5) = rd s (kMaCounts m 5)) : Records m s u where
  declared := congrArg RadioSt.declared hradio
  detected := congrArg (· % 2 ^ 64) hobj
  front n _ := by
    rw [bindOf_congr (congrArg RadioSt.bindings hradio)]
    exact ⟨rfl, rfl, rfl⟩
  bursts := congrArg RadioSt.bursts hradio

theorem Only.records {l : List Part} (h : Only l s u) (hr : Part.radio ∉ l := by decide) (ho : Part.obj ∉ l := by decide) : Records m s u :=
  Records.of_radio (h.radio_eq hr) (h.keeps (keys := []) ho _ List.not_mem_nil)

theorem setBind_records {n : Nat} {b : Binding} (h : (bindOf s n).state = .active → (bindOf s n).SameFront b) : Records m s (setBind n b s) where
  declared := rfl
  detected := rfl
  front k hk := by
    by_cases hkn : k = n
    · subst hkn
      rw [bindOf_setBind_self]
      exact h hk
    · rw [bindOf_setBind_ne hkn]
      exact ⟨rfl, rfl, rfl⟩
  bursts := rfl

theorem setIdt_records (new : Bool) (t : Table IdtEntry) (s : State) : Records m s (setIdt new t s) := by
  unfold setIdt
  split <;> exact ⟨⟨rfl, rfl, fun _ _ => ⟨rfl, rfl, rfl⟩⟩, rfl⟩

theorem marCount_records {i : Nat} (hi : 5 ≠ i) (k n : Nat) (s : State) (h : i < 16 := by decide) : Records m s (marCount k i n s) :=
  Records.of_radio rfl (rd_marCount_ne (kMaCounts_ne hi m k (by decide) h) n s)

theorem fnEvent_records (f ev : Nat) (s : State) : Records m s (fnEvent f ev s) := by
  refine Records.of_radio fnEvent_only.radio_eq (fnEvent_keeps f ev s _ ?_)
  simp only [eventCounters, kHoHostStats, kDiDispatchStats, kDyPdpStats, kDyNotifyLost, kMaCounts, okey, List.mem_cons, List.not_mem_nil, or_false]
  omega

theorem settleBinding_records (n : Nat) (s : State) : Records m s (settleBinding n s) := by
  unfold settleBinding
  dsimp only
  split
  · next h =>
    refine setBind_records fun hactive => ?_
    simp [hactive] at h
  · exact Records.refl s

theorem hitStats_records (t ns key source start cfo rssi : Nat) (s : State) : Records m s (hitStats t ns key source start cfo rssi s) := by
  have hput (new : Bool) (p : Nat) (f : IdtEntry → IdtEntry) : Records m s
      (match tfind p (idtTable s new) with | some e => setIdt new (tset p (f e) (idtTable s new)) s | none => s) := by
    split
    · exact setIdt_records ..
    · exact Records.refl s
  unfold hitStats
  dsimp only
  split
  · exact hput ..
  · split
    · split
      · exact hput ..
      · exact Records.refl s
    · exact Records.refl s

end Relations

/-! ### Records (R372, R374) -/

/-- The record that a binding's spool takes next. -/
def nextRecord (b : Binding) (head : Nat) (sid : Option Nat) (user payload : List Byte) : Record :=
  { seq := b.seq, head := setFld (setFld head 416 16 (min b.lost 65535)) 448 32 b.seq, sid := sid, user := user, payload := payload,
    ofs := b.written }

section Append
variable {n head : Nat} {sid : Option Nat} {user payload : List Byte} {s : State}

/-- A record that fits stands last in the spool. -/
theorem spool_appendRecord (hstate : (bindOf s n).state ≠ .free)
    (hfits : spoolUsed (bindOf s n) + recordBytes (nextRecord (bindOf s n) head sid user payload) ≤ bSpoolBytes (bindOf s n).desc) :
    (bindOf (appendRecord n head sid user payload s) n).spool = (bindOf s n).spool ++ [nextRecord (bindOf s n) head sid user payload] := by
  unfold appendRecord
  extract_lets b m h r lost s1
  have hroom : ¬bSpoolBytes b.desc < spoolUsed b + recordBytes r := Nat.not_lt.mpr hfits
  rw [if_neg hstate, if_neg hroom, bindOf_setBind_self]
  rfl

theorem appendRecord_records {m : Nat} : Records m s (appendRecord n head sid user payload s) := by
  unfold appendRecord
  extract_lets b k h r lost s1
  have hlost : Records m s lost := by
    refine Records.trans (setBind_records fun _ => ?_) (marCount_records (i := 8) (by decide) ..)
    exact ⟨rfl, rfl, rfl⟩
  have hclear : Only [.dram] s s1 := Only.each (fun _ _ => clearLinePoison_only) (Only.refl s)
  split
  · exact Records.refl s
  · split
    · split
      · exact hlost.trans (fnEvent_records ..)
      · exact hlost
    · refine hclear.records.trans (setBind_records fun _ => ?_)
      rw [bindOf_congr (congrArg RadioSt.bindings hclear.radio_eq)]
      exact ⟨rfl, rfl, rfl⟩

end Append

/-- The bursts without a record but those of a number. -/
def withoutBurst (k : Nat) (s : State) : State := { s with radio := { s.radio with bursts := s.radio.bursts.filter fun y => y.num != k } }

section Recording
variable {x : Burst} {head : Nat} {payload : List Byte} {s : State}

theorem recordBurst_of_notLooked (h : x.lookup = .notLooked) : recordBurst x head payload s = settleBinding (4 * x.tenant + x.slot)
    (marCount x.mar 7 1 (appendRecord (4 * x.tenant + x.slot) (head + 2 ^ 9) none [] payload (withoutBurst x.num s))) := by
  simp only [recordBurst, h]
  rfl

theorem recordBurst_records {m : Nat} : Records m (withoutBurst x.num s) (recordBurst x head payload s) := by
  unfold recordBurst
  extract_lets n _ s1 s2
  refine Records.trans ?_ (settleBinding_records ..)
  unfold s2
  split
  · extract_lets _ _ s3
    have hhit : Records m s1 s3 := by
      unfold s3
      split
      · exact hitStats_records ..
      · exact Records.refl s1
    exact hhit.trans appendRecord_records
  · exact appendRecord_records.trans (marCount_records (i := 7) (by decide) ..)

end Recording

/-! ### Bursts by number -/

theorem filter_ne_updFirst {f : Burst → Burst} (hnum : ∀ x, (f x).num = x.num) (k : Nat) (l : List Burst) :
    (updFirst (fun x => x.num == k) f l).filter (fun y => y.num != k) = l.filter fun y => y.num != k := by
  induction l with
  | nil => rfl
  | cons a r ih =>
    rw [updFirst]
    by_cases ha : a.num = k
    · simp [ha, hnum]
    · simp [ha, ih]

theorem find?_modBurst {f : Burst → Burst} (hnum : ∀ x, (f x).num = x.num) (k : Nat) (s : State) :
    (modBurst k f s).radio.bursts.find? (fun x => x.num == k) = (s.radio.bursts.find? fun x => x.num == k).map f :=
  find?_updFirst (fun x => by rw [hnum]) s.radio.bursts

theorem find?_modBurst_of_some {k : Nat} {s : State} {x : Burst} (f : Burst → Burst) (h : s.radio.bursts.find? (fun x => x.num == k) = some x)
    (hnum : ∀ x, (f x).num = x.num := by intro; rfl) : (modBurst k f s).radio.bursts.find? (fun x => x.num == k) = some (f x) :=
  (find?_modBurst hnum k s).trans (congrArg (Option.map f) h)

theorem modBurst_declares {m : Nat} (k : Nat) (f : Burst → Burst) (s : State) : Declares m 0 s (modBurst k f s) := Declares.of_bursts ..

section Settle
variable {k : Nat} {s : State} {x : Burst}

theorem settleBurst_none (h : s.radio.bursts.find? (fun x => x.num == k) = none) : settleBurst k s = s := by rw [settleBurst, h]

theorem settleBurst_queued (h : s.radio.bursts.find? (fun x => x.num == k) = some x) (hl : x.lookup = .queued) : settleBurst k s = s := by
  simp only [settleBurst, h, hl]
  cases x.ended <;> rfl

theorem settleBurst_notLooked {e : Nat × Nat × List Byte} (h : s.radio.bursts.find? (fun x => x.num == k) = some x) (hl : x.lookup = .notLooked)
    (hend : x.ended = some e) : settleBurst k s = recordBurst x e.2.1 e.2.2 s := by
  simp only [settleBurst, h, hl, hend]

theorem settleBurst_declares {m : Nat} : Declares m 0 s (settleBurst k s) := by
  unfold settleBurst
  split
  · exact (Records.refl s).toDeclares
  · split
    · exact (Declares.of_bursts ..).trans recordBurst_records.toDeclares
    · exact (Declares.of_bursts ..).trans recordBurst_records.toDeclares
    · exact (Records.refl s).toDeclares

/-- A burst given up that had ended is recorded, and no burst of its number is left. -/
theorem bursts_settleBurst {f : Burst → Burst} (hnum : ∀ x, (f x).num = x.num) (hlookup : ∀ x, (f x).lookup = .notLooked)
    (hended : ∀ x, s.radio.bursts.find? (fun x => x.num == k) = some x → (f x).ended ≠ none) :
    (settleBurst k (modBurst k f s)).radio.bursts = s.radio.bursts.filter fun y => y.num != k := by
  have hfind := find?_modBurst hnum k s
  have hleft : (modBurst k f s).radio.bursts.filter (fun y => y.num != k) = s.radio.bursts.filter fun y => y.num != k := filter_ne_updFirst hnum k _
  cases hx : s.radio.bursts.find? fun x => x.num == k with
  | none =>
    rw [hx] at hfind
    rw [settleBurst_none hfind, ← hleft, List.filter_eq_self.mpr]
    intro y hy
    simpa [bne] using List.find?_eq_none.mp hfind y hy
  | some x =>
    rw [hx] at hfind
    obtain ⟨e, he⟩ := Option.ne_none_iff_exists'.mp (hended x hx)
    have hk : (f x).num = k := (hnum x).trans (by simpa using List.find?_some hx)
    rw [settleBurst_notLooked hfind (hlookup x) he, (recordBurst_records (m := 0)).bursts, ← hleft, ← hk]
    rfl

end Settle

end Sys2Proof.Machine
end

section
/-!
PROOFS. The commands of a class S channel (R353 to R357): what each makes of the channel, of its burst and of the counters of its receiver.
-/
namespace Sys2Proof.Machine

set_option Elab.async false

/-! ### An SFD matched (R354, R355) -/

/-- The estimate reached the limit of the AFC. -/
def afcAtLimit (b : Binding) (c : Nat) (est : Int) : Bool := (afcLimitHz b.desc c : Int) ≤ est || est ≤ -(afcLimitHz b.desc c : Int)

/-- The burst that a channel declares, its number apart. -/
def sfdBurst (t : TenantId) (slot : Fin 4) (c : Fin 1024) (b : Binding) (start : Nat) : Burst :=
  { num := 0, mar := bMar b.desc, tenant := t.val, slot := slot.val, source := c.val, ns := bNs b.desc, start := start }

/-- The channel in FRAME, its SFD just matched. -/
def sfdChan (b : Binding) (ch : Chan) (c start : Nat) (coded : Bool) (errs : Nat) (est : Int) (s : State) : Chan :=
  { phase := .frame, since := ch.since, start := start, coded := coded, errs := errs,
    cfo := ofInt 32 (clampI (-(afcLimitHz b.desc c : Int)) (afcLimitHz b.desc c) est), afcLimit := afcAtLimit b c est, burst := s.radio.declared }

/-- The state after an SFD matched. -/
def sfdMatched (t : TenantId) (slot : Fin 4) (c : Fin 1024) (b : Binding) (ch : Chan) (start : Nat) (coded : Bool) (errs : Nat) (est : Int)
    (s : State) : State :=
  marCount (bMar b.desc) 1 1 (marCount (bMar b.desc) 9 (b2n (afcAtLimit b c.val est))
    (setChan (4 * t.val + slot.val) c.val (sfdChan b ch c.val start coded errs est s) (declareBurst (sfdBurst t slot c b start) s)))

/-- An SFD match counts its detection, its burst and a held AFC, and no other object moves. -/
theorem sfdMatched_counts (t : TenantId) (slot : Fin 4) (c : Fin 1024) (b : Binding) (ch : Chan) (start : Nat) (coded : Bool) (errs : Nat) (est : Int)
    (s : State) :
    let m := bMar b.desc
    let u := sfdMatched t slot c b ch start coded errs est s
    Keeps [kMaCounts m 1, kMaCounts m 5, kMaCounts m 9] s u ∧ Counts 64 (kMaCounts m 1) 1 s u ∧ Counts 64 (kMaCounts m 5) 1 s u ∧
      Counts 64 (kMaCounts m 9) (b2n (afcAtLimit b c.val est)) s u := by
  intro m u
  let declared := declareBurst (sfdBurst t slot c b start) s
  let held := marCount m 9 (b2n (afcAtLimit b c.val est))
    (setChan (4 * t.val + slot.val) c.val (sfdChan b ch c.val start coded errs est s) declared)
  have hne {i j : Nat} (hij : i ≠ j) (hi : i < 16 := by decide) (hj : j < 16 := by decide) : kMaCounts m i ≠ kMaCounts m j :=
    kMaCounts_ne hij m m hi hj
  have hdeclared {k : Nat} (hk : k ≠ kMaCounts m 5) : rd declared k = rd s k := rd_marCount_ne hk ..
  have hheld {k : Nat} (hk : k ≠ kMaCounts m 9) : rd held k = rd declared k := rd_marCount_ne hk ..
  have hlast {k : Nat} (hk : k ≠ kMaCounts m 1) : rd u k = rd held k := rd_marCount_ne hk ..
  have hburst : Counts 64 (kMaCounts m 5) 1 s declared := counts_marCount ..
  have hafc : Counts 64 (kMaCounts m 9) (b2n (afcAtLimit b c.val est)) declared held := counts_marCount ..
  have hmatch : Counts 64 (kMaCounts m 1) 1 held u := counts_marCount ..
  refine ⟨fun k hk => ?_, hmatch.of_start ((hheld (hne (by decide))).trans (hdeclared (hne (by decide)))),
    hburst.of_eq ((hlast (hne (by decide))).trans (hheld (hne (by decide)))),
    (hafc.of_start (hdeclared (hne (by decide)))).of_eq (hlast (hne (by decide)))⟩
  simp only [List.mem_cons, List.not_mem_nil, or_false, not_or] at hk
  obtain ⟨hk1, hk5, hk9⟩ := hk
  rw [hlast hk1, hheld hk9, hdeclared hk5]

/-! ### A frame over with its PHR (R357) -/

/-- A burst that ends without a lookup. -/
def Burst.over (e : Nat × Nat × List Byte) (x : Burst) : Burst := { x with lookup := .notLooked, ended := some e }

/-- The frame of a channel is over with its PHR: its burst is recorded without a payload. -/
def frameCut (n c k : Nat) (ch : Chan) (head : Nat) (s : State) : State :=
  settleBurst ch.burst (modBurst ch.burst (Burst.over (now s, head, [])) (setChan n c {} { s with freeCtr := k }))

section Cut
variable {n k head : Nat} {s : State} {ch : Chan}

theorem frameCut_chan (hactive : (bindOf s n).state = .active) (c : Nat) : tget (bindOf (frameCut n c k ch head s) n).chans c {} = {} := by
  have hfree : (bindOf (setChan n c {} { s with freeCtr := k }) n).state = .active := by
    rw [bindOf_setChan_self]
    exact hactive
  have hkept : Declares 0 0 (setChan n c {} { s with freeCtr := k }) (frameCut n c k ch head s) := (modBurst_declares ..).trans settleBurst_declares
  have hfront := (hkept.front n hfree).chans
  exact (congrArg (fun t => tget t c {}) hfront).trans (chan_setChan_self ..)

theorem frameCut_bursts (c : Nat) : (frameCut n c k ch head s).radio.bursts = s.radio.bursts.filter fun y => y.num != ch.burst :=
  bursts_settleBurst (fun _ => rfl) (fun _ => rfl) fun _ _ => by simp [Burst.over]

/-- The record of a frame without a payload, where the spool has 64 bytes left. -/
theorem frameCut_record {x : Burst} (hactive : (bindOf s n).state = .active) (hx : s.radio.bursts.find? (fun x => x.num == ch.burst) = some x)
    (hn : 4 * x.tenant + x.slot = n) (hroom : spoolUsed (bindOf s n) + 64 ≤ bSpoolBytes (bindOf s n).desc) (c : Nat) :
    ∃ r, (bindOf (frameCut n c k ch head s) n).spool = (bindOf s n).spool ++ [r] ∧ r.payload = [] ∧ fld r.head 0 8 = fld head 0 8 := by
  let ended := modBurst ch.burst (Burst.over (now s, head, [])) (setChan n c {} { s with freeCtr := k })
  let before := withoutBurst x.num ended
  have hfind : ended.radio.bursts.find? (fun x => x.num == ch.burst) = some (Burst.over (now s, head, []) x) := find?_modBurst_of_some _ hx
  have hcut : frameCut n c k ch head s = settleBinding n (marCount x.mar 7 1 (appendRecord n (head + 2 ^ 9) none [] [] before)) := by
    subst hn
    exact (settleBurst_notLooked hfind rfl rfl).trans (recordBurst_of_notLooked rfl)
  have hbind : bindOf before n = { bindOf s n with chans := if ({} : Chan) = {} then tdel c (bindOf s n).chans else tset c {} (bindOf s n).chans } :=
    bindOf_setChan_self ..
  have hstate : (bindOf before n).state = .active := by rw [hbind]; exact hactive
  have happend : (bindOf (appendRecord n (head + 2 ^ 9) none [] [] before) n).state = .active :=
    ((appendRecord_records (m := 0)).front n hstate).state.trans hstate
  have hfits : spoolUsed (bindOf before n) + recordBytes (nextRecord (bindOf before n) (head + 2 ^ 9) none [] []) ≤
      bSpoolBytes (bindOf before n).desc := by
    have hbytes : recordBytes (nextRecord (bindOf before n) (head + 2 ^ 9) none [] []) = 64 := by simp [recordBytes, nextRecord, ceilDiv]
    rw [hbytes, hbind]
    exact hroom
  have hspool := spool_appendRecord (by rw [hstate]; decide) hfits
  refine ⟨nextRecord (bindOf before n) (head + 2 ^ 9) none [] [], ?_, rfl, ?_⟩
  · rw [hcut, bindOf_settleBinding_self, if_neg fun hdraining => ?_]
    · refine hspool.trans ?_
      rw [hbind]
    · exact absurd (happend.symm.trans hdraining.1) (by decide)
  · rw [nextRecord, fld_setFld_disjoint (by decide), fld_setFld_disjoint (by decide)]
    unfold fld
    omega

end Cut

/-! ### Commands -/

section Channel
variable {t : TenantId} {slot : Fin 4} {c : Fin 1024} {s : State}

theorem no_channel_idles (h : chanOf s (4 * t.val + slot.val) c.val = none) (phr w : BitVec 16) (st : BitVec 64) (f : BitVec 32) (l : List Byte)
    (ok : Bool) : Idles s (.preambleDetect t slot c) ∧ Idles s (.sfdMatch t slot c w st f) ∧ Idles s (.preTimeout t slot c) ∧
      Idles s (.phrDecided t slot c phr) ∧ Idles s (.keyDecided t slot c l) ∧ Idles s (.frameEnd t slot c l ok w w w) := by
  have hdetect : execPreambleDetect t slot c s = .next s := by simp only [execPreambleDetect, h, done]
  have hmatch : execSfdMatch t slot c w st f s = .next s := by simp only [execSfdMatch, h, done]
  have htimeout : execPreTimeout t slot c s = .next s := by simp only [execPreTimeout, h, done]
  have hphr : execPhrDecided t slot c phr s = .next s := by simp only [execPhrDecided, h, done]
  have hkey : execKeyDecided t slot c l s = .next s := by simp only [execKeyDecided, h, done]
  have hend : execFrameEnd t slot c l ok w w w s = .next s := by simp only [execFrameEnd, h, done]
  exact ⟨hdetect, hmatch, htimeout, hphr, hkey, hend⟩

variable {b : Binding} {ch : Chan} (h : chanOf s (4 * t.val + slot.val) c.val = some (b, ch))
include h

theorem exec_preambleDetect : exec (.preambleDetect t slot c) s = whenDue (ch.phase == .search) (fun s =>
    marCount (bMar b.desc) 0 1 (setChan (4 * t.val + slot.val) c.val { phase := .preamble, since := now s } s)) s := by
  change execPreambleDetect t slot c s = _
  simp only [execPreambleDetect, h]

theorem preambleDetect_busy (hp : ch.phase ≠ .search) : Idles s (.preambleDetect t slot c) :=
  (exec_preambleDetect h).trans (whenDue_of_not (by simpa using hp) ..)

theorem preambleDetect_detects (hp : ch.phase = .search) : exec (.preambleDetect t slot c) s =
    .next (marCount (bMar b.desc) 0 1 (setChan (4 * t.val + slot.val) c.val { phase := .preamble, since := now s } s)) :=
  (exec_preambleDetect h).trans (whenDue_of (by simpa using hp) ..)

theorem preTimeout_ends (hp : ch.phase = .preamble) (hover : ch.since + preambleTc b.desc ≤ now s) :
    exec (.preTimeout t slot c) s = .next (marCount (bMar b.desc) 2 1 (setChan (4 * t.val + slot.val) c.val {} s)) := by
  change execPreTimeout t slot c s = _
  simp only [execPreTimeout, h]
  exact whenDue_of (by simp [hp, hover]) ..

section Sfd
variable {w : BitVec 16} {st : BitVec 64} {f : BitVec 32}

theorem sfdMatch_none (hw : sfdMatch b.desc w.toNat = none) : Idles s (.sfdMatch t slot c w st f) := by
  change execSfdMatch t slot c w st f s = .next s
  simp only [execSfdMatch, h, hw, done]

theorem sfdMatch_matches {coded : Bool} {errs : Nat} (hw : sfdMatch b.desc w.toNat = some (coded, errs)) (hp : ch.phase = .preamble)
    (hin : now s ≤ ch.since + preambleTc b.desc) :
    exec (.sfdMatch t slot c w st f) s = .next (sfdMatched t slot c b ch st.toNat coded errs f.toInt s) := by
  change execSfdMatch t slot c w st f s = _
  simp only [execSfdMatch, h, hw]
  exact whenDue_of (by simp [hp, hin]) ..

end Sfd

theorem phrDecided_accepted {phr : BitVec 16} (hp : ch.phase = .frame) (hnone : ch.phr = none) (hms : bitAt phr.toNat 15 = false)
    (hlow : fld phr.toNat 0 11 ≠ 0) (hhigh : fld phr.toNat 0 11 ≤ bMaxPsdu b.desc) :
    exec (.phrDecided t slot c phr) s = .next (setChan (4 * t.val + slot.val) c.val { ch with phr := some phr.toNat } s) := by
  change execPhrDecided t slot c phr s = _
  simp only [execPhrDecided, h]
  refine (whenDue_of (by simp [hp, hnone]) ..).trans ?_
  simp [hms, hlow, Nat.not_lt.mpr hhigh]

theorem phrDecided_refused {phr : BitVec 16} (hp : ch.phase = .frame) (hnone : ch.phr = none)
    (hbad : bitAt phr.toNat 15 = true ∨ fld phr.toNat 0 11 = 0 ∨ bMaxPsdu b.desc < fld phr.toNat 0 11) :
    ∃ head k, fld head 0 8 = (if bitAt phr.toNat 15 then 4 else 3) ∧
      exec (.phrDecided t slot c phr) s = .next (frameCut (4 * t.val + slot.val) c.val k ch head s) := by
  change ∃ head k, _ ∧ execPhrDecided t slot c phr s = _
  simp only [execPhrDecided, h]
  rw [whenDue_of (by simp [hp, hnone])]
  by_cases hms : bitAt phr.toNat 15 = true
  · rw [if_pos hms]
    refine ⟨_, _, ?_, congrArg Host.Outcome.next ((if_pos hms).trans rfl)⟩
    exact (sunHead_fields ..).1
  · rw [if_neg hms]
    refine ⟨_, _, ?_, congrArg Host.Outcome.next ((if_neg hms).trans ((if_pos (hbad.resolve_left hms)).trans rfl))⟩
    exact (sunHead_fields ..).1

theorem keyDecided_queues {l : List Byte} {x : Burst} (hp : ch.phase = .frame) (hphr : ch.phr.isSome = true)
    (hlen : bKeyOfs b.desc + bKeyLen b.desc ≤ fld (ch.phr.getD 0) 0 11) (hx : s.radio.bursts.find? (fun x => x.num == ch.burst) = some x)
    (hl : x.lookup = .none) (hroom : lookupDepth s (bMar b.desc) < rd s (kMaLookupQueue (bMar b.desc))) :
    exec (.keyDecided t slot c l) s = .next (peak (kMaLookupDepthMax (bMar b.desc)) (lookupDepth s (bMar b.desc) + 1)
      (modBurst ch.burst (fun x => { x with key := ofBytes (padTo (bKeyLen b.desc) l).reverse, lookup := .queued }) s)) := by
  have hwaiting : (s.radio.bursts.any fun x => x.num == ch.burst && x.lookup == .none) = true := by
    refine List.any_eq_true.mpr ⟨x, List.mem_of_find?_eq_some hx, ?_⟩
    have hnum := List.find?_some hx
    simp only [hl, beq_self_eq_true, Bool.and_true]
    exact hnum
  change execKeyDecided t slot c l s = _
  simp only [execKeyDecided, h]
  rw [whenDue_of (by simp [hp, hphr, hwaiting, hlen]), queueLookup, if_pos hroom]

theorem frameEnd_waits {l : List Byte} {ok : Bool} {rssi snr mse : BitVec 16} {p : Nat} {x : Burst} (hp : ch.phase = .frame) (hphr : ch.phr = some p)
    (hx : s.radio.bursts.find? (fun x => x.num == ch.burst) = some x) (hl : x.lookup = .queued) :
    ∃ head, fld head 0 8 = (if ch.coded then 2 else if ok then 0 else 1) ∧ fld head 320 16 = rssi.toNat ∧ fld head 336 16 = snr.toNat ∧
      exec (.frameEnd t slot c l ok rssi snr mse) s = .next (modBurst ch.burst
        (fun x => { x with ended := some (now s + usToTc 50, head, padTo (if ch.coded then 2 * (16 + 8 * fld p 0 11 + 3) else fld p 0 11) l) })
        (setChan (4 * t.val + slot.val) c.val {} s)) := by
  change ∃ head, _ ∧ _ ∧ _ ∧ execFrameEnd t slot c l ok rssi snr mse s = _
  simp only [execFrameEnd, h, hphr]
  rw [whenDue_of (by simp [hp])]
  obtain ⟨hresult, hrssi, hsnr⟩ := sunHead_fields b slot.val c.val ch (if ch.coded then 2 else if ok then 0 else 1) (now s) (burstKey s ch.burst)
    rssi.toNat snr.toNat mse.toNat (if ch.coded then 2 * (16 + 8 * fld p 0 11 + 3) else fld p 0 11) (if ch.coded then 2 else 1)
  refine ⟨_, hresult.trans ?_, hrssi.trans (Nat.mod_eq_of_lt rssi.isLt), hsnr.trans (Nat.mod_eq_of_lt snr.isLt), congrArg Host.Outcome.next ?_⟩
  · split
    · rfl
    · split <;> rfl
  · exact settleBurst_queued (find?_modBurst_of_some _ hx) hl

end Channel

end Sys2Proof.Machine
end

section
/-!
PROOFS. The occasions of class E (R359, R360), the lookups (R361) and the bursts whose deadline came, and the statement about bursts put together.
-/
namespace Sys2Proof.Machine

set_option Elab.async false

/-! ### Occasions (R359, R360) -/

theorem declareBurst_declares (x : Burst) (s : State) : Declares x.mar 1 s (declareBurst x s) where
  declared := rfl
  detected := by
    have hcount := counts_marCount x.mar 5 1
      { s with radio := { s.radio with bursts := s.radio.bursts ++ [{ x with num := s.radio.declared }], declared := s.radio.declared + 1 } }
    exact (congrArg (· % 2 ^ 64) hcount).trans (Nat.mod_mod ..)
  front _ _ := ⟨rfl, rfl, rfl⟩

theorem queueLookup_declares {m : Nat} (k q key : Nat) (s : State) : Declares m 0 s (queueLookup k q key s) := by
  unfold queueLookup
  split
  · have hne : kMaCounts m 5 ≠ kMaLookupDepthMax q := by
      unfold kMaCounts kMaLookupDepthMax okey
      omega
    have hpeak (v : Nat) (x : State) : Records m x (peak (kMaLookupDepthMax q) v x) := Records.of_radio peak_only.radio_eq (rd_wr_ne hne ..)
    exact (modBurst_declares ..).trans (hpeak ..).toDeclares
  · exact (modBurst_declares ..).trans settleBurst_declares

theorem declareCand_declares (n idx : Nat) (b : Binding) (r start : Nat) (x : Cand) (s : State) :
    Declares (bMar b.desc) 1 s (declareCand n idx b r start x s) := by
  unfold declareCand
  extract_lets m _ _ _ _ _ _ _ y
  have hburst : Declares m 1 s (declareBurst y s) := declareBurst_declares y s
  exact (hburst.trans (marCount_records (i := 9) (by decide) ..).toDeclares).trans (queueLookup_declares ..)

theorem Declares.each {α : Type} {m : Nat} {f : α → State → State} (hf : ∀ a s, Declares m 1 s (f a s)) (l : List α) (s : State) :
    Declares m l.length s (each l f s) := by
  induction l generalizing s with
  | nil => exact (Records.refl s).toDeclares
  | cons a r ih =>
    rw [List.length_cons, Nat.add_comm]
    exact (hf a s).trans (ih (f a s))

/-- The candidates of an occasion that a qualifier opens for: the strongest 16 above the energy threshold. -/
def qualifiers (r : Nat) (l : List Cand) : List Cand :=
  (sortBy (fun a c => c.ratio ≤ a.ratio) (l.filter fun x => x.idx < rNcand r && rEnergyTh r ≤ x.ratio)).take 16
/-- Those that qualify. -/
def qualified (r : Nat) (l : List Cand) : List Cand := (qualifiers r l).filter fun x => rQualTh r ≤ x.metric

section Occasion
variable {n idx r start : Nat} {b : Binding} {l : List Cand} {s : State}

theorem occasionOver_facts (hb : bindOf s n = b) (hactive : b.state = .active) :
    (occasionOver n idx b r start l s).radio.declared = s.radio.declared + (qualified r l).length ∧
    rd (occasionOver n idx b r start l s) (kMaCounts (bMar b.desc) 5) % 2 ^ 64 =
      (rd s (kMaCounts (bMar b.desc) 5) + (qualified r l).length) % 2 ^ 64 ∧
    (bindOf (occasionOver n idx b r start l s) n).resources = if b.removing.contains idx then tdel idx b.resources else b.resources := by
  unfold occasionOver
  extract_lets m energy tried ok s1 s2
  have hcounted : Declares m 0 s s1 :=
    ((marCount_records (i := 3) (by decide) ..).trans (marCount_records (i := 4) (by decide) ..)).toDeclares
  have hall : Declares m (0 + ok.length) s s2 := hcounted.trans (Declares.each (fun x s => declareCand_declares n idx b r start x s) ok s1)
  rw [Nat.zero_add] at hall
  have hres : (bindOf s2 n).resources = b.resources := hb ▸ (hall.front n (hb.symm ▸ hactive)).resources
  split
  · refine ⟨hall.declared, hall.detected, ?_⟩
    rw [modBind, bindOf_setBind_self]
    exact congrArg (tdel idx) hres
  · exact ⟨hall.declared, hall.detected, hres⟩

end Occasion

section OccasionEnd
variable {t : TenantId} {slot : Fin 4} {idx : Fin 64} {l : List Cand} {s : State}

theorem occasionEnd_none (h : tfind idx.val (bindOf s (4 * t.val + slot.val)).resources = none) : Idles s (.occasionEnd t slot idx l) := by
  change execOccasionEnd t slot idx l s = .next s
  simp only [execOccasionEnd, h, done]

theorem occasionEnd_over {r start : Nat} (h : tfind idx.val (bindOf s (4 * t.val + slot.val)).resources = some r)
    (hstart : occasionStart (ciOfs (ciDesc s (bindCi (bindOf s (4 * t.val + slot.val)).desc))) r (now s) = some start)
    (hactive : (bindOf s (4 * t.val + slot.val)).state = .active) (hruns : marRuns s (bMar (bindOf s (4 * t.val + slot.val)).desc) = true) :
    exec (.occasionEnd t slot idx l) s =
      .next (occasionOver (4 * t.val + slot.val) idx.val (bindOf s (4 * t.val + slot.val)) r start l s) := by
  change execOccasionEnd t slot idx l s = _
  simp only [execOccasionEnd, h, hstart, Option.elim_some]
  exact whenDue_of (by simp [hactive, hruns]) ..

end OccasionEnd

/-! ### Lookups (R361, R362, R380) -/

/-- What a lookup answers for the entry it found, or for none. -/
def lookupAnswer : Option IdtEntry → Lookup
  | some e => .done true false e.blocked e.sid e.user
  | none => .done false false false 0 []

/-- No line of the candidate buckets of a key is poisoned in the current table. -/
def CleanBuckets (s : State) (t ns key : Nat) : Prop :=
  ∀ b ∈ candidates s false t ns key, ∀ i < 8, rangePoisoned s (idtLine s s.radio.idtSecond b i) 64 = false

theorem loseLines_clean {m b : Nat} {s : State} (h : ∀ i < 8, rangePoisoned s (idtLine s s.radio.idtSecond b i) 64 = false) :
    loseLines m false b s = (false, s) := by
  have hnone : ((upto 8).filter fun i => rangePoisoned s (idtLine s (s.radio.idtSecond != false) b i) 64) = [] := by
    refine List.filter_eq_nil_iff.mpr fun i hi => ?_
    rw [Bool.bne_false, h i (List.mem_range.mp hi)]
    decide
  unfold loseLines
  extract_lets line bad
  have hbad : bad.isEmpty = true := List.isEmpty_iff.mpr hnone
  rw [if_pos hbad]

theorem probe_clean {m t ns key : Nat} {s : State} (h : CleanBuckets s t ns key) :
    probe m false t ns key s = ((idtFind s false t ns key, false), s) := by
  have hfold : ∀ l : List Nat, (∀ b ∈ l, b ∈ candidates s false t ns key) →
      l.foldl (fun (a : Bool × State) b => let x := loseLines m false b a.2; (a.1 || x.1, x.2)) (false, s) = (false, s) := by
    intro l
    induction l with
    | nil => exact fun _ => rfl
    | cons b l ih =>
      intro hl
      rw [List.foldl_cons, loseLines_clean (h b (hl b List.mem_cons_self))]
      exact ih fun c hc => hl c (List.mem_cons_of_mem _ hc)
  unfold probe
  rw [hfold _ fun _ hb => hb]

theorem lookup_clean {m t ns key : Nat} {s : State} (hsteady : rebuilding s = false) (h : CleanBuckets s t ns key) :
    lookup m t ns key s = (lookupAnswer ((idtFind s false t ns key).bind fun p => tfind p s.radio.idtCur), s) := by
  unfold lookup
  simp only [hsteady, Bool.false_and, Bool.false_eq_true, if_false, probe_clean h, Bool.not_false, Bool.or_true, if_true, idtTable]
  cases (idtFind s false t ns key).bind fun p => tfind p s.radio.idtCur <;> rfl

/-- A counter of a receiver is no object outside its own. -/
theorem rd_marCount_outside {k m : Nat} (hm : m < 4) (i n : Nat) (s : State) (hi : i < 16 := by decide)
    (hk : k / 1024 < 0x6000 ∨ 0x6100 ≤ k / 1024 := by decide) : rd (marCount m i n s) k = rd s k := by
  refine rd_marCount_ne (fun h => ?_) n s
  rw [h] at hk
  unfold kMaCounts okey at hk
  omega

section LookupDone
variable {m i n t ns key : Nat} {s : State} (hm : m < 4) (hi : i < 16)
include hm hi

theorem candidates_marCount : candidates (marCount m i n s) false t ns key = candidates s false t ns key := by
  unfold candidates idtSeedOf idtBuckets
  simp only [Bool.false_eq_true, if_false, rd_marCount_outside (k := kIdSeed) hm i n s hi, rd_marCount_outside (k := kIdBuckets) hm i n s hi]

theorem idtFind_marCount : idtFind (marCount m i n s) false t ns key = idtFind s false t ns key := by
  unfold idtFind candPlaces
  rw [candidates_marCount hm hi]
  rfl

theorem idtLine_marCount (second : Bool) (b j : Nat) : idtLine (marCount m i n s) second b j = idtLine s second b j := by
  unfold idtLine idtBase idtRegion
  simp only [rd_marCount_outside (k := kIdBucketsMaxNow) hm i n s hi, rd_marCount_outside (k := kDrCapacity) hm i n s hi,
    rd_marCount_outside (k := kPlTemplateStore) hm i n s hi]

/-- A lookup in a table that is not being rebuilt, its lines clean, its counter gone on. -/
theorem lookup_counted (hsteady : rebuilding s = false) (h : CleanBuckets s t ns key) :
    lookup m t ns key (marCount m i n s) = (lookupAnswer ((idtFind s false t ns key).bind fun p => tfind p s.radio.idtCur), marCount m i n s) := by
  have hrebuild : rebuilding (marCount m i n s) = false := by
    rw [rebuilding, rd_marCount_outside (k := kIdRebuildState) hm i n s hi]
    exact hsteady
  have hclean : CleanBuckets (marCount m i n s) t ns key := by
    intro b hb j hj
    rw [candidates_marCount hm hi] at hb
    rw [idtLine_marCount hm hi]
    exact h b hb j hj
  rw [lookup_clean hrebuild hclean, idtFind_marCount hm hi]
  rfl

end LookupDone

theorem exec_lookupDone {m : MarId} {s : State} {x : Burst}
    (h : s.radio.bursts.find? (fun x => x.mar == m.val && x.lookup == .queued && beforeDeadline s x) = some x) (hruns : marRuns s m.val = true) :
    exec (.lookupDone m) s = .next (settleBurst x.num (modBurst x.num
      (fun y => { y with lookup := (lookup m.val x.tenant x.ns x.key (marCount m.val 6 1 s)).1 })
      (lookup m.val x.tenant x.ns x.key (marCount m.val 6 1 s)).2)) := by
  change execLookupDone m s = _
  simp only [execLookupDone, h, hruns]
  rfl

/-! ### Deadlines (R361) -/

/-- A burst of receiver `m` whose deadline has come. -/
def deadlineOver (m : Nat) (s : State) (x : Burst) : Bool := x.mar == m && match x.ended with
  | some (dl, _, _) => dl ≤ now s
  | none => false

/-- The lookup of a burst is given up, and the burst recorded if it has ended. -/
def giveUp (x : Burst) (s : State) : State := settleBurst x.num (modBurst x.num (fun x => { x with lookup := .notLooked }) s)

theorem ended_of_deadlineOver {m : Nat} {s : State} {x : Burst} (h : deadlineOver m s x = true) : x.ended ≠ none := by
  intro hnone
  simp [deadlineOver, hnone] at h

/-- Ended bursts, given up one after another, are those that go. -/
theorem bursts_giveUp_each {l : List Burst} {s : State} (hnodup : (s.radio.bursts.map (·.num)).Nodup) (hl : (l.map (·.num)).Nodup)
    (hin : ∀ x ∈ l, x ∈ s.radio.bursts) (hended : ∀ x ∈ l, x.ended ≠ none) :
    (each l giveUp s).radio.bursts = s.radio.bursts.filter fun y => !(l.map (·.num)).contains y.num := by
  induction l generalizing s with
  | nil => exact (List.filter_eq_self.mpr fun _ _ => rfl).symm
  | cons x l ih =>
    obtain ⟨hfresh, hrest⟩ := List.nodup_cons.mp hl
    have hx := hin x List.mem_cons_self
    have hone : (giveUp x s).radio.bursts = s.radio.bursts.filter fun y => y.num != x.num := by
      refine bursts_settleBurst (fun _ => rfl) (fun _ => rfl) fun y hy => ?_
      have hnum : y.num = x.num := by simpa using List.find?_some hy
      rw [List.inj_on_of_nodup_map hnodup (List.mem_of_find?_eq_some hy) hx hnum]
      exact hended x List.mem_cons_self
    have hkeep : ∀ y ∈ l, y ∈ (giveUp x s).radio.bursts := by
      intro y hy
      rw [hone]
      refine List.mem_filter.mpr ⟨hin y (List.mem_cons_of_mem _ hy), ?_⟩
      have hne : y.num ≠ x.num := fun h => hfresh (List.mem_map.mpr ⟨y, hy, h⟩)
      simpa using hne
    have hstill : ((giveUp x s).radio.bursts.map (·.num)).Nodup := by
      rw [hone]
      exact hnodup.sublist (List.filter_sublist.map _)
    have hthen := ih hstill hrest hkeep fun y hy => hended y (List.mem_cons_of_mem _ hy)
    have heach : each (x :: l) giveUp s = each l giveUp (giveUp x s) := rfl
    rw [heach, hthen, hone, List.filter_filter]
    refine List.filter_congr fun y _ => ?_
    rw [List.map_cons, List.contains_cons, Bool.not_or, Bool.and_comm]
    rfl

theorem exec_lookupDeadline {m : MarId} {s : State} (h : marRuns s m.val = true) :
    exec (.lookupDeadline m) s = .next (each (s.radio.bursts.filter (deadlineOver m.val s)) giveUp s) :=
  whenDue_of h ..

theorem bursts_lookupDeadline {m : Nat} {s : State} (hnodup : (s.radio.bursts.map (·.num)).Nodup) :
    (each (s.radio.bursts.filter (deadlineOver m s)) giveUp s).radio.bursts = s.radio.bursts.filter fun x => !deadlineOver m s x := by
  rw [bursts_giveUp_each hnodup (hnodup.sublist (List.filter_sublist.map _)) (fun x hx => (List.mem_filter.mp hx).1)
    fun x hx => ended_of_deadlineOver (List.mem_filter.mp hx).2]
  refine List.filter_congr fun y hy => congrArg not ?_
  rw [Bool.eq_iff_iff, List.contains_iff_mem, List.mem_map]
  constructor
  · rintro ⟨x, hx, hnum⟩
    obtain ⟨hmem, hover⟩ := List.mem_filter.mp hx
    rwa [List.inj_on_of_nodup_map hnodup hmem hy hnum] at hover
  · exact fun hover => ⟨y, List.mem_filter.mpr ⟨hy, hover⟩, rfl⟩

/-! ### The statement -/

/-- Settles O38: each command by the lemma above about the state it leaves, its channel by `gives_channel`. -/
theorem receiverBursts : Obligations.ReceiverBursts := by
  unfold Obligations.ReceiverBursts
  refine ⟨fun t slot c s => ⟨fun phr w st f l ok h => no_channel_idles h phr w st f l ok, fun b ch h => ?channel⟩,
    fun t slot idx l s => ⟨occasionEnd_none, fun r start hr hstart hactive hruns => ?occasion⟩,
    fun m s x hx hruns => ⟨exec_lookupDone hx hruns, fun hsteady hclean => ?found⟩, fun m s hruns hnodup => ?deadline⟩
  case channel =>
    obtain ⟨hb, hactive⟩ := bindOf_of_chanOf h
    refine ⟨fun hp => ?detects, preambleDetect_busy h, fun hp hover => ?timesOut,
      fun w st f => ⟨sfdMatch_none h, fun coded errs hw hp hin => ?sfd⟩,
      fun phr hp hnone => ⟨fun hms hlow hhigh => ?accepted, fun hbad => ?cut⟩, fun l x hp hphr hlen hx hl hroom => ?key,
      fun l ok rssi snr mse p x hp hphr hx hl => ?ends⟩
    case detects => exact gives_channel_counted (preambleDetect_detects h hp)
    case timesOut => exact gives_channel_counted (preTimeout_ends h hp hover)
    case sfd =>
      obtain ⟨hkeeps, h1, h5, h9⟩ := sfdMatched_counts t slot c b ch st.toNat coded errs f.toInt s
      exact gives_channel (sfdMatch_matches h hw hp hin)
        (declareBurst_only.trans (setChan_only.mono.trans (marCount_only.mono.trans marCount_only.mono))) hkeeps rfl
        ⟨h1, h5, h9, rfl, _, rfl, rfl, rfl, rfl, rfl, rfl, rfl, rfl, rfl⟩
    case accepted =>
      exact gives_channel (phrDecided_accepted h hp hnone hms hlow hhigh) setChan_only.mono setChan_only.keeps rfl rfl
    case cut =>
      obtain ⟨head, k, hhead, hexec⟩ := phrDecided_refused h hp hnone hbad
      refine execPhrDecided_only.gives hexec ⟨frameCut_chan (hb.symm ▸ hactive) _, fun y hy => ?_, fun x hx hn hroom => ?_⟩
      · rw [frameCut_bursts] at hy
        simpa using (List.mem_filter.mp hy).2
      · obtain ⟨r, hspool, hpayload, hresult⟩ := frameCut_record (k := k) (head := head) (hb.symm ▸ hactive) hx hn (hb.symm ▸ hroom) c.val
        exact ⟨r, hb ▸ hspool, hpayload, hresult.trans hhead⟩
    case key =>
      exact ⟨_, keyDecided_queues h hp hphr hlen hx hl hroom, modBurst_only.mono.trans peak_only.mono,
        modBurst_only.keeps.trans (keeps_wr _ _ _), rfl, find?_modBurst_of_some _ hx⟩
    case ends =>
      obtain ⟨head, hresult, hrssi, hsnr, hexec⟩ := frameEnd_waits (l := l) (ok := ok) (rssi := rssi) (snr := snr) (mse := mse) h hp hphr hx hl
      exact gives_channel hexec (setChan_only.mono.trans modBurst_only.mono) (setChan_only.keeps.trans modBurst_only.keeps) rfl
        ⟨head, find?_modBurst_of_some _ hx, hresult, hrssi, hsnr⟩
  case occasion => exact execOccasionEnd_only.gives (occasionEnd_over hr hstart hactive hruns) (occasionOver_facts rfl hactive)
  case found =>
    have hlookup := lookup_counted (i := 6) (n := 1) m.isLt (by decide) hsteady hclean
    exact ⟨congrArg Prod.snd hlookup, congrArg Prod.fst hlookup⟩
  case deadline => exact execLookupDeadline_only.gives (exec_lookupDeadline hruns) (bursts_lookupDeadline hnodup)

end Sys2Proof.Machine
end
